-- ==== Sys2Proof/Word.lean ====
section
/-! DEFINITION. The word types of the EQ8 and their plainest arithmetic (00_scope.md, Numbers and units). -/

namespace Sys2Proof

/-- One byte. -/
abbrev Byte := BitVec 8

/-- A 64-bit register, scalar or instruction word. -/
abbrev Word := BitVec 64

/-- A 128-bit tile descriptor register (R94). -/
abbrev Td := BitVec 128

end Sys2Proof
end

