-- ==== Sys2Proof/Syntax.lean ====
section
/-! DEFINITION. The commands of the EQ8 module: one constructor of `Instr` for each row of spec/opcode_table.json, with the
row's operands. A sequencer instruction is the command that this sequencer issues it; its operands are the fields of its
instruction word (R101 to R106). Every other command names the unit it comes about at and what it carries. -/

namespace Sys2Proof

/-- The header of an instruction word (R101) and the sequencer that issues it. `seq` is a logical core 0 to 95, or 96 + k
for control core k (the numbering of SEQ_EXC, R133). `par` counts the parity errors its issue meets (R128). -/
structure Hdr where
  die : Nat
  seq : Nat
  pn : Bool
  pred : BitVec 3
  par : Nat
  deriving DecidableEq, Repr

/-- Format A (R103). -/
structure FmtA where
  sd : BitVec 5
  sa : BitVec 5
  sb : BitVec 5
  im : Bool
  imm : BitVec 32
  deriving DecidableEq, Repr

/-- Format M (R103). -/
structure FmtM where
  sd : BitVec 5
  sa : BitVec 5
  win : BitVec 2
  rsv : BitVec 4
  imm : BitVec 32
  deriving DecidableEq, Repr

/-- Format Y (R103). -/
structure FmtY where
  sd : BitVec 5
  sa : BitVec 5
  sem : BitVec 8
  scope : BitVec 2
  tcore : BitVec 7
  tdie : BitVec 3
  im : Bool
  rsv : BitVec 1
  count : BitVec 16
  deriving DecidableEq, Repr

/-- The transfer body (R106). -/
structure FmtX where
  sa : BitVec 5
  win : BitVec 2
  ch : BitVec 6
  rsv : BitVec 35
  deriving DecidableEq, Repr

/-- The tensor body (R105). -/
structure FmtT where
  tdd : BitVec 4
  tda : BitVec 4
  tdb : BitVec 4
  tdc : BitVec 4
  ss : BitVec 5
  arr : BitVec 1
  grp : BitVec 3
  opx : BitVec 23
  deriving DecidableEq, Repr

/-- Words 1 and 2 of a long-form instruction: the wait list and the post list (R104). -/
structure Lists where
  wait : BitVec 64
  post : BitVec 64
  deriving DecidableEq, Repr

/-- A packet header (R413), less the fields that only say its length. `team` 0x3F and `slot` 0xF mark the host adapter. -/
structure Packet where
  srcDie : BitVec 3
  dstDie : BitVec 3
  cls : BitVec 2
  srcTeam : BitVec 6
  srcSlot : BitVec 4
  dstTeam : BitVec 6
  dstSlot : BitVec 4
  tag : BitVec 16
  len : Nat
  rid : BitVec 16
  req : BitVec 16
  key : BitVec 24
  addr : BitVec 48
  deriving DecidableEq, Repr

/-- Who makes a register access: the host link (H0 or H1) by a packet with a request identifier, the sender of a packet that came over another link, firmware
on a control core, the management core of a die, or the SMBus master (R413, R500, R457). -/
inductive Src where
  | host (h1 : Bool) (rid : BitVec 16)
  | packet (die l : Nat) (p : Packet)
  | firmware (die : Nat)
  | mgmt (die : Nat)
  | smbus
  deriving DecidableEq, Repr

/-- A flit of a link: its header, its payload of 246 B and its CRC (R411). -/
structure Flit where
  tag : BitVec 16
  seq : BitVec 12
  kind : BitVec 4
  ack : BitVec 12
  cret : BitVec 4
  payload : List Byte
  crc : BitVec 32
  deriving DecidableEq, Repr

/-- A die flit: its header, its payload of 250 B and its CRC (R423). `cret` is the number of credits that the credit packets in its payload return, whose
layout is internal to the package. -/
structure DieFlit where
  tag : BitVec 16
  seq : BitVec 8
  ack : BitVec 8
  cret : Nat
  payload : List Byte
  crc : BitVec 16
  deriving DecidableEq, Repr

/-- A capability block (R424). -/
structure CapBlock where
  linkMin : BitVec 8
  linkMax : BitVec 8
  teamMin : BitVec 8
  teamMax : BitVec 8
  dies : BitVec 8
  slot : BitVec 4
  coach : Bool
  spare : Bool
  host : Bool
  serial : BitVec 64
  owner : List Byte
  deriving DecidableEq, Repr

/-- A member's tick report as the Coachman receives it (R50, R52, R390, R437, R489): cause bits in the order of R553, the
throttle cap, the optimiser verdict of each die (0 none, 1 update, 2 skip), the containment level it reports (R463), the number of
the event for which the team must pause, 0 for none (R130, R463), whether it passes on an order to resume or to take a state
image (R473, R476), and whether it is a spare whose restore has ended (R469). -/
structure Report where
  pos : Nat
  causes : BitVec 5
  cap : Nat
  opt : List Nat
  level : Nat
  pause : Nat
  resume : Bool
  image : Bool
  restored : Bool
  deriving DecidableEq, Repr

/-- The kinds of a verdict: normal, slip, and the team-wide pause of R70. -/
inductive VKind where
  | normal
  | slip
  | pause
  deriving DecidableEq, Repr

/-- A verdict flit (R50, R52, R436, R442, R489): the kind, the cause bits, the throttle cap of the team, the tick time of
the next tick and, where the team adopts that of the fleet, its frame sequence number (R436), whether an optimiser verdict split was found (R390), whether a
state image is ordered (R473), the positions lost, and the ring slot whose bypass opens at the next tick. While the job is paused, a slip verdict resumes it and a pause verdict leaves it paused. -/
structure Verdict where
  kind : VKind
  causes : BitVec 5
  cap : Nat
  nextTick : BitVec 64
  seq : Option Nat
  optSplit : Bool
  image : Bool
  lost : List Nat
  openSlot : Option Nat
  deriving DecidableEq, Repr

/-- What the environment decides in a power-up or reset (R522 to R529): whether the main input is within range, the
Lamp self-check, which dies fail the self-check of step 3, which LPDDR6 channels fail training (die, channel, step of
R525), whether each image slot's signature holds (R510 step 4), the version ranges that parties report (R537: interface,
MIN, MAX), and the Lamp firmware version (R538). -/
structure BootEnv where
  mainOk : Bool
  lampOk : Bool
  dieFail : List Nat
  chFail : List (Nat × Nat × Nat)
  sigOkA : Bool
  sigOkB : Bool
  ranges : List (Nat × Nat × Nat)
  lampVersion : BitVec 32
  bootMs : Nat
  deriving DecidableEq, Repr

/-- One sensor sample: channel, raw value, and whether the sensor failed its own check (R480, R482). -/
structure Sample where
  ch : Nat
  raw : BitVec 16
  fault : Bool
  deriving DecidableEq, Repr

/-- A root, node or leaf digest that a replica reports (R403, R404). -/
structure RootReport where
  replica : Nat
  step : Nat
  index : Nat
  digest : BitVec 64
  mirror : BitVec 64
  deriving DecidableEq, Repr

/-- What a partner end reports in a Waybill flit (R83): flits it sent and received, credits it returned and got back, its
buffer occupancy and its available credits. -/
structure LinkCounts where
  sent : Nat
  recv : Nat
  ret : Nat
  crin : Nat
  occ : Nat
  held : Nat
  deriving DecidableEq, Repr

/-- A tick report as it arrives (R50, R412, R429): die, link and flit, and what its payload says. -/
structure ReportIn where
  die : Nat
  link : Nat
  flit : Flit
  report : Report
  deriving DecidableEq, Repr

/-- A verdict as it arrives (R50, R412, R429): die, link and flit, and what its payload says. -/
structure VerdictIn where
  die : Nat
  link : Nat
  flit : Flit
  verdict : Verdict
  deriving DecidableEq, Repr

/-- What a spare's copies give its version tables (R469): the live bit of each region, and for each region of a shard its mirrored STEP and whether an
update of it had not committed (R394). -/
structure Copies where
  lives : List (Nat × Bool)
  steps : List (Nat × Nat × Bool)
  deriving DecidableEq, Repr

/-- Who sends a request to a Depot (R349): its requester index, the die and channel of this module whose access arrived over ports, and the key and class that a
request from elsewhere carries. -/
structure Requester where
  index : Nat
  origin : Option (Nat × Nat)
  key : BitVec 24
  cls : BitVec 2
  deriving DecidableEq, Repr

/-- What answers an access: a channel of this module or, by a packet over a link, for another module (R413, R429). -/
structure AnswerTo where
  chan : Nat
  via : Option (Nat × Packet)
  deriving DecidableEq, Repr

/-- A time flit as it arrives (R422, R435, R436): the flit, its team time, the round trip measured on the link, the ring hops that are down, and the fleet's
tick time and frame sequence number. -/
structure TimeIn where
  flit : Flit
  time : BitVec 64
  rtt : BitVec 32
  down : List Nat
  fleet : Option (BitVec 64 × Nat)
  deriving DecidableEq, Repr

/-- A Timetable frame (R429, R432): its identity, and whether the Coachman sends it (`own`) or it arrives. -/
structure TtFrame where
  ident : Nat
  own : Bool
  deriving DecidableEq, Repr

/-- What an election knows of the ring slots (R430, R433): the round trips measured to them, in cycles, and the active core counts of the modules there
(log entry 117). -/
structure Electors where
  rtts : List (Nat × Nat)
  cores : List (Nat × Nat)
  deriving DecidableEq, Repr

/-- The commands, one for each row of spec/opcode_table.json. -/
inductive Instr where
  -- scalar class (R113)
  | nop (h : Hdr) (a : FmtA)
  | add (h : Hdr) (a : FmtA)
  | sub (h : Hdr) (a : FmtA)
  | mul (h : Hdr) (a : FmtA)
  | mulhu (h : Hdr) (a : FmtA)
  | and (h : Hdr) (a : FmtA)
  | or (h : Hdr) (a : FmtA)
  | xor (h : Hdr) (a : FmtA)
  | shl (h : Hdr) (a : FmtA)
  | shr (h : Hdr) (a : FmtA)
  | sar (h : Hdr) (a : FmtA)
  | min (h : Hdr) (a : FmtA)
  | max (h : Hdr) (a : FmtA)
  | minu (h : Hdr) (a : FmtA)
  | maxu (h : Hdr) (a : FmtA)
  | li (h : Hdr) (a : FmtA)
  | lih (h : Hdr) (a : FmtA)
  | cmpEq (h : Hdr) (a : FmtA)
  | cmpNe (h : Hdr) (a : FmtA)
  | cmpLt (h : Hdr) (a : FmtA)
  | cmpLtu (h : Hdr) (a : FmtA)
  | cmpGe (h : Hdr) (a : FmtA)
  | cmpGeu (h : Hdr) (a : FmtA)
  | pand (h : Hdr) (a : FmtA)
  | por (h : Hdr) (a : FmtA)
  | pxor (h : Hdr) (a : FmtA)
  | pnot (h : Hdr) (a : FmtA)
  | ld8 (h : Hdr) (m : FmtM)
  | ld16 (h : Hdr) (m : FmtM)
  | ld32 (h : Hdr) (m : FmtM)
  | ld64 (h : Hdr) (m : FmtM)
  | st8 (h : Hdr) (m : FmtM)
  | st16 (h : Hdr) (m : FmtM)
  | st32 (h : Hdr) (m : FmtM)
  | st64 (h : Hdr) (m : FmtM)
  | br (h : Hdr) (a : FmtA)
  | jal (h : Hdr) (a : FmtA)
  | jr (h : Hdr) (a : FmtA)
  | endItem (h : Hdr) (a : FmtA)
  | tdSet (h : Hdr) (a : FmtA)
  | tdGet (h : Hdr) (a : FmtA)
  | tdAdd (h : Hdr) (a : FmtA)
  | srd (h : Hdr) (a : FmtA)
  | swr (h : Hdr) (a : FmtA)
  -- sync class (R116)
  | semWait (h : Hdr) (y : FmtY)
  | semWaitSatisfied (die seq : Nat)
  | semPost (h : Hdr) (y : FmtY)
  | semTry (h : Hdr) (y : FmtY)
  | semRead (h : Hdr) (y : FmtY)
  | semInit (h : Hdr) (y : FmtY)
  | semPair (h : Hdr) (y : FmtY)
  | semUnpair (h : Hdr) (y : FmtY)
  | leaseTake (h : Hdr) (y : FmtY)
  | leaseDone (h : Hdr) (y : FmtY)
  | leaseDoneAccepted (die seq : Nat)
  | tickWait (h : Hdr) (y : FmtY)
  -- transfer class (R124)
  | drayGo (h : Hdr) (x : FmtX) (l : Lists)
  | drayPause (h : Hdr) (x : FmtX) (l : Lists)
  | drayResume (h : Hdr) (x : FmtX) (l : Lists)
  | drayCancel (h : Hdr) (x : FmtX) (l : Lists)
  | drayStat (h : Hdr) (x : FmtX) (l : Lists)
  -- tensor class (R125)
  | mma (h : Hdr) (t : FmtT) (l : Lists)
  | mvp (h : Hdr) (t : FmtT) (l : Lists)
  | ewa (h : Hdr) (t : FmtT) (l : Lists)
  | vop (h : Hdr) (t : FmtT) (l : Lists)
  | hand (h : Hdr) (t : FmtT) (l : Lists)
  | hmerge (h : Hdr) (t : FmtT) (l : Lists)
  | hcheck (h : Hdr) (t : FmtT) (l : Lists)
  | predQuant (h : Hdr) (t : FmtT) (l : Lists)
  | predTopk (h : Hdr) (t : FmtT) (l : Lists)
  | predThresh (h : Hdr) (t : FmtT) (l : Lists)
  | predEmit (h : Hdr) (t : FmtT) (l : Lists)
  | updAdam (h : Hdr) (t : FmtT) (l : Lists)
  | digestBlock (h : Hdr) (t : FmtT) (l : Lists)
  | digestNode (h : Hdr) (t : FmtT) (l : Lists)
  -- management class (R127)
  | mgRd (h : Hdr) (a : FmtA)
  | mgWr (h : Hdr) (a : FmtA)
  | mgEvent (h : Hdr) (a : FmtA)
  | mgFence (h : Hdr) (a : FmtA)
  | mgImage (h : Hdr) (a : FmtA)
  -- units and items
  | instrStart (die core unit par : Nat)
  | instrComplete (die core unit par : Nat)
  | semPostArrival (src dst : Nat)
  | workItemStart (die core item : Nat)
  | workItemComplete (die core item : Nat)
  | itemResume (die core item : Nat)
  | counterAtomic (die core : Nat)
  -- frames and jobs
  | frameTick (absentDies : List Nat)
  | tickReport (x : ReportIn)
  | verdict (x : VerdictIn)
  | verdictApply
  | restoreDone (copies : Copies) (mirrorLives : List (Nat × Bool)) (bytes ms : Nat)
  | ttReady (src : Src) (die : Nat) (w : Word)
  | timetableValidated (die : Nat)
  | jobSubmit (src : Src) (w : Word)
  | resume (src : Src)
  | jobEnd (src : Src)
  | image (src : Src)
  | imageDone
  | restore (src : Src)
  | optArm (src : Src) (die : Nat) (normsq : BitVec 32)
  | optClose (src : Src) (die : Nat)
  | optHold (src : Src) (die : Nat) (hold : Bool)
  -- ledger and recovery
  | ledgerTake (src : Src) (die : Nat) (entry : BitVec 6)
  | ledgerDone (src : Src) (die : Nat) (entry : BitVec 6)
  | ledgerClose (src : Src) (die : Nat) (entry : BitVec 6)
  | leadTakeover (ms : Nat)
  | commitList (die : Nat) (frame : Nat) (flips : List Nat)
  | digestRootReport (shard level : Nat) (rs : List RootReport)
  -- Dray and memory
  | descriptorStart (die chan : Nat)
  | streamCreditTake (die chan : Nat)
  | tileStageGrant (die chan : Nat)
  | memTagGrant (die : Nat)
  | memoryRequest (die : Nat) (req : Requester) (addr : BitVec 48) (len : Nat) (write : Bool) (parity : Nat)
  | lpddrRead (die req : Nat) (addr : BitVec 48) (linkErrs : Nat) (bad reread : Bool) (mirror : List Byte)
  | drayAccessError (die chan kind : Nat)
  | writeAccept (die : Nat) (to_ : AnswerTo)
  | readBack (die chan : Nat)
  | cqEnable (src : Src) (die q : Nat) (w : Word)
  | cqHead (src : Src) (die q : Nat) (head : BitVec 17)
  -- packets and registers
  | readRequest (die l : Nat) (p : Packet)
  | readResponse (die : Nat) (to_ : AnswerTo) (data : List Byte)
  | write (die l : Nat) (p : Packet) (data : List Byte)
  | linkResetResponse (die l : Nat) (p : Packet)
  | registerRead (src : Src) (p : Packet)
  | registerWrite (src : Src) (p : Packet) (w : Word)
  | registerResponse (die l : Nat) (p : Packet) (data : List Byte)
  | rcRead (src : Src) (addr : BitVec 48)
  -- links
  | packetData (die l : Nat) (f : Flit)
  | idle (die l : Nat) (f : Flit)
  | nak (die l : Nat) (f : Flit) (expected : BitVec 12)
  | creditReturn (die l : Nat) (f : Flit) (n : BitVec 12)
  | laneSwitch (die l : Nat) (f : Flit) (lane : Nat) (seq : BitVec 12)
  | waybillCounts (die l : Nat) (f : Flit) (c : LinkCounts)
  | timeFlit (die l : Nat) (x : TimeIn)
  | timeFlitSend
  | timetableFrame (die l : Nat) (f : Flit) (x : TtFrame)
  | capabilityBlock (die l : Nat) (f : Flit)
  | dieFlit (die port : Nat) (f : DieFlit)
  | ackTimeout (die l : Nat)
  | linkRetrain (die l cause : Nat)
  | linkRetrained (die l : Nat) (ok : Bool) (active : Nat) (rtt : BitVec 32) (partner : CapBlock)
  | linkEnable (src : Src) (die l : Nat) (w : Word)
  | linkDisable (src : Src) (die l : Nat) (w : Word)
  | linkDown (die l : Nat)
  | laneSignalLoss (die l lane : Nat)
  | sparingWindowEnd (die l : Nat) (errs : List (Nat × Nat))
  -- team and bypass
  | teamJoin (src : Src) (w : Word)
  | coachmanElection (x : Electors)
  | bypassClose (src : Src) (w : Word)
  -- power and reset
  | mainPowerLow
  | auxPowerUp (env : BootEnv) (slot : BitVec 4) (coach : Bool)
  | auxPowerLoss
  | coldReset (src : Src) (env : BootEnv)
  | warmReset (src : Src) (env : BootEnv)
  -- Lamp and management
  | lampSample (xs : List Sample)
  | framSave (secs : Nat)
  | lampSampleBlock
  | powerRequest (src : Src) (w : Word)
  | calendarSet (src : Src) (w : Word)
  | ruleEnable (src : Src) (r : Nat) (w : Word)
  | filterConfig (src : Src) (ch : Nat) (w : Word)
  | readCounters (src : Src) (arg : BitVec 16)
  | readErrorHistory (src : Src) (arg : BitVec 16)
  | readRetirementList (src : Src) (arg : BitVec 16)
  | addRetirementEntry (src : Src) (arg : BitVec 16)
  | smbusBlockWrite (addr : BitVec 48) (w : Word) (pecOk : Bool)
  | smbusSetPointer (addr : BitVec 48) (pecOk : Bool)
  | smbusBlockRead (pecOk : Bool)
  | attestReport (src : Src) (addr : BitVec 48)
  | mrExtend (src : Src) (mr : BitVec 4) (addr : BitVec 48)
  | fwUpdate (src : Src) (addr : BitVec 48) (sigOk : Bool)
  | fwCommit (src : Src)
  | arbRaise (src : Src)
  | eventFifoRead (die : Nat)
  | eventRecordForward (die : Nat)
  | spadBlockReady (die core : Nat)
  | depotRepartDone (die : Nat)
  | eventRingHead (src : Src) (head : BitVec 21)
  | eventRingEnable (src : Src) (w : Word)
  | periodicTracking (die ch : Nat) (retrain fail : Bool)
  | powerTransitionDone (env : BootEnv)
  | mainStageRetry (env : BootEnv)
  | d2dPortRetrained (die port : Nat) (ok : Bool)
  | fwUpdateDone (readBackOk : Bool)
  | attestDone
  deriving DecidableEq, Repr

end Sys2Proof
end

