-- ==== Sys2Proof/Decode.lean ====
section
/-! DEFINITION. Words of the table, which gives no row any bits, and the instruction words of a sequencer (R101 to R106, R113, R116, R124,
R125, R127): the command that a word, with the two list words of the long form, spells, and the words of a command. -/

namespace Sys2Proof

/-- The command that a word of the table spells: no row of spec/opcode_table.json gives bits. -/
def decodeTableWord (_nbits _w : Nat) : Option Instr := none

/-- Word 0 of an instruction: class, LONG, PN, PRED, OP and body (R101). -/
def headerWord (cls : BitVec 3) (long : BitVec 1) (op : BitVec 8) (h : Hdr) (body : BitVec 48) : Word :=
  cls ++ long ++ BitVec.ofBool h.pn ++ h.pred ++ op ++ body

/-- The CLASS of word 0. -/
def wordClass (w : Word) : BitVec 3 := w.extractLsb' 61 3

/-- The LONG bit of word 0. -/
def wordLong (w : Word) : BitVec 1 := w.extractLsb' 60 1

/-- The OP of word 0. -/
def wordOp (w : Word) : BitVec 8 := w.extractLsb' 48 8

/-- The header of word 0, at the sequencer that fetches it. -/
def wordHdr (die seq par : Nat) (w : Word) : Hdr :=
  { die := die, seq := seq, pn := w.getLsbD 59, pred := w.extractLsb' 56 3, par := par }

/-- The body of Format A (R103). -/
def bodyA (a : FmtA) : BitVec 48 := a.sd ++ a.sa ++ a.sb ++ BitVec.ofBool a.im ++ a.imm

/-- The body of Format M (R103). -/
def bodyM (m : FmtM) : BitVec 48 := m.sd ++ m.sa ++ m.win ++ m.rsv ++ m.imm

/-- The body of Format Y (R103). -/
def bodyY (y : FmtY) : BitVec 48 :=
  y.sd ++ y.sa ++ y.sem ++ y.scope ++ y.tcore ++ y.tdie ++ BitVec.ofBool y.im ++ y.rsv ++ y.count

/-- The transfer body (R106). -/
def bodyX (x : FmtX) : BitVec 48 := x.sa ++ x.win ++ x.ch ++ x.rsv

/-- The tensor body (R105). -/
def bodyT (t : FmtT) : BitVec 48 := t.tdd ++ t.tda ++ t.tdb ++ t.tdc ++ t.ss ++ t.arr ++ t.grp ++ t.opx

/-- Format A of word 0. -/
def wordA (w : Word) : FmtA :=
  { sd := w.extractLsb' 43 5, sa := w.extractLsb' 38 5, sb := w.extractLsb' 33 5, im := w.getLsbD 32, imm := w.extractLsb' 0 32 }

/-- Format M of word 0. -/
def wordM (w : Word) : FmtM :=
  { sd := w.extractLsb' 43 5, sa := w.extractLsb' 38 5, win := w.extractLsb' 36 2, rsv := w.extractLsb' 32 4, imm := w.extractLsb' 0 32 }

/-- Format Y of word 0. -/
def wordY (w : Word) : FmtY :=
  { sd := w.extractLsb' 43 5, sa := w.extractLsb' 38 5, sem := w.extractLsb' 30 8, scope := w.extractLsb' 28 2, tcore := w.extractLsb' 21 7,
    tdie := w.extractLsb' 18 3, im := w.getLsbD 17, rsv := w.extractLsb' 16 1, count := w.extractLsb' 0 16 }

/-- The transfer body of word 0. -/
def wordX (w : Word) : FmtX :=
  { sa := w.extractLsb' 43 5, win := w.extractLsb' 41 2, ch := w.extractLsb' 35 6, rsv := w.extractLsb' 0 35 }

/-- The tensor body of word 0. -/
def wordT (w : Word) : FmtT :=
  { tdd := w.extractLsb' 44 4, tda := w.extractLsb' 40 4, tdb := w.extractLsb' 36 4, tdc := w.extractLsb' 32 4, ss := w.extractLsb' 27 5,
    arr := w.extractLsb' 26 1, grp := w.extractLsb' 23 3, opx := w.extractLsb' 0 23 }

/-- The scalar class (R113). -/
def decodeScalar (h : Hdr) (w : Word) : Option Instr :=
  match (wordOp w).toNat with
  | 0x00 => some (.nop h (wordA w))
  | 0x01 => some (.add h (wordA w))
  | 0x02 => some (.sub h (wordA w))
  | 0x03 => some (.mul h (wordA w))
  | 0x04 => some (.mulhu h (wordA w))
  | 0x05 => some (.and h (wordA w))
  | 0x06 => some (.or h (wordA w))
  | 0x07 => some (.xor h (wordA w))
  | 0x08 => some (.shl h (wordA w))
  | 0x09 => some (.shr h (wordA w))
  | 0x0A => some (.sar h (wordA w))
  | 0x0B => some (.min h (wordA w))
  | 0x0C => some (.max h (wordA w))
  | 0x0D => some (.minu h (wordA w))
  | 0x0E => some (.maxu h (wordA w))
  | 0x10 => some (.li h (wordA w))
  | 0x11 => some (.lih h (wordA w))
  | 0x18 => some (.cmpEq h (wordA w))
  | 0x19 => some (.cmpNe h (wordA w))
  | 0x1A => some (.cmpLt h (wordA w))
  | 0x1B => some (.cmpLtu h (wordA w))
  | 0x1C => some (.cmpGe h (wordA w))
  | 0x1D => some (.cmpGeu h (wordA w))
  | 0x20 => some (.pand h (wordA w))
  | 0x21 => some (.por h (wordA w))
  | 0x22 => some (.pxor h (wordA w))
  | 0x23 => some (.pnot h (wordA w))
  | 0x28 => some (.ld8 h (wordM w))
  | 0x29 => some (.ld16 h (wordM w))
  | 0x2A => some (.ld32 h (wordM w))
  | 0x2B => some (.ld64 h (wordM w))
  | 0x2C => some (.st8 h (wordM w))
  | 0x2D => some (.st16 h (wordM w))
  | 0x2E => some (.st32 h (wordM w))
  | 0x2F => some (.st64 h (wordM w))
  | 0x30 => some (.br h (wordA w))
  | 0x31 => some (.jal h (wordA w))
  | 0x32 => some (.jr h (wordA w))
  | 0x33 => some (.endItem h (wordA w))
  | 0x38 => some (.tdSet h (wordA w))
  | 0x39 => some (.tdGet h (wordA w))
  | 0x3A => some (.tdAdd h (wordA w))
  | 0x40 => some (.srd h (wordA w))
  | 0x41 => some (.swr h (wordA w))
  | _ => none

/-- The sync class (R116). -/
def decodeSync (h : Hdr) (w : Word) : Option Instr :=
  match (wordOp w).toNat with
  | 0x00 => some (.semWait h (wordY w))
  | 0x01 => some (.semPost h (wordY w))
  | 0x02 => some (.semTry h (wordY w))
  | 0x03 => some (.semRead h (wordY w))
  | 0x04 => some (.semInit h (wordY w))
  | 0x05 => some (.semPair h (wordY w))
  | 0x06 => some (.semUnpair h (wordY w))
  | 0x10 => some (.leaseTake h (wordY w))
  | 0x11 => some (.leaseDone h (wordY w))
  | 0x18 => some (.tickWait h (wordY w))
  | _ => none

/-- The transfer class (R124). -/
def decodeTransfer (h : Hdr) (w : Word) (l : Lists) : Option Instr :=
  match (wordOp w).toNat with
  | 0x00 => some (.drayGo h (wordX w) l)
  | 0x01 => some (.drayPause h (wordX w) l)
  | 0x02 => some (.drayResume h (wordX w) l)
  | 0x03 => some (.drayCancel h (wordX w) l)
  | 0x04 => some (.drayStat h (wordX w) l)
  | _ => none

/-- The row of PRED that the function code in OPX[2:0] names (R246). -/
def decodePred (h : Hdr) (t : FmtT) (l : Lists) : Option Instr :=
  match t.opx.toNat % 8 with
  | 0 => some (.predQuant h t l)
  | 1 => some (.predTopk h t l)
  | 2 => some (.predThresh h t l)
  | 3 => some (.predEmit h t l)
  | _ => none

/-- The row of DIGEST that OPX[0] names (R402). -/
def decodeDigest (h : Hdr) (t : FmtT) (l : Lists) : Instr := if t.opx.getLsbD 0 then .digestNode h t l else .digestBlock h t l

/-- The tensor class (R125). -/
def decodeTensor (h : Hdr) (w : Word) (l : Lists) : Option Instr :=
  match (wordOp w).toNat with
  | 0x00 => some (.mma h (wordT w) l)
  | 0x08 => some (.mvp h (wordT w) l)
  | 0x10 => some (.ewa h (wordT w) l)
  | 0x18 => some (.vop h (wordT w) l)
  | 0x20 => some (.hand h (wordT w) l)
  | 0x21 => some (.hmerge h (wordT w) l)
  | 0x22 => some (.hcheck h (wordT w) l)
  | 0x30 => some (.updAdam h (wordT w) l)
  | 0x28 => decodePred h (wordT w) l
  | 0x38 => some (decodeDigest h (wordT w) l)
  | _ => none

/-- The management class (R127). -/
def decodeMgmt (h : Hdr) (w : Word) : Option Instr :=
  match (wordOp w).toNat with
  | 0x00 => some (.mgRd h (wordA w))
  | 0x01 => some (.mgWr h (wordA w))
  | 0x02 => some (.mgEvent h (wordA w))
  | 0x03 => some (.mgFence h (wordA w))
  | 0x04 => some (.mgImage h (wordA w))
  | _ => none

/-- The command that the instruction words at a sequencer spell; `none` for a reserved CLASS or OP and for a LONG bit that does not match the
class (R101, R102). Words 1 and 2 are read by the long form alone (R104). -/
def decodeWords (die seq par : Nat) (w0 w1 w2 : Word) : Option Instr :=
  let h := wordHdr die seq par w0
  match (wordClass w0).toNat, (wordLong w0).toNat with
  | 0, 0 => decodeScalar h w0
  | 1, 0 => decodeSync h w0
  | 2, 1 => decodeTransfer h w0 { wait := w1, post := w2 }
  | 3, 1 => decodeTensor h w0 { wait := w1, post := w2 }
  | 4, 0 => decodeMgmt h w0
  | _, _ => none

/-- A short instruction. -/
def short (cls : BitVec 3) (op : BitVec 8) (h : Hdr) (body : BitVec 48) : Option (Hdr × Word × Word × Word) :=
  some (h, headerWord cls 0 op h body, 0, 0)

/-- A long instruction (R104). -/
def long (cls : BitVec 3) (op : BitVec 8) (h : Hdr) (body : BitVec 48) (l : Lists) : Option (Hdr × Word × Word × Word) :=
  some (h, headerWord cls 1 op h body, l.wait, l.post)

/-- The words of a command that a sequencer issues, with its header; words 1 and 2 of a short instruction are given as 0. `none` for the other
commands. -/
def encode (i : Instr) : Option (Hdr × Word × Word × Word) :=
  match i with
  | .nop h a => short 0 0x00 h (bodyA a)
  | .add h a => short 0 0x01 h (bodyA a)
  | .sub h a => short 0 0x02 h (bodyA a)
  | .mul h a => short 0 0x03 h (bodyA a)
  | .mulhu h a => short 0 0x04 h (bodyA a)
  | .and h a => short 0 0x05 h (bodyA a)
  | .or h a => short 0 0x06 h (bodyA a)
  | .xor h a => short 0 0x07 h (bodyA a)
  | .shl h a => short 0 0x08 h (bodyA a)
  | .shr h a => short 0 0x09 h (bodyA a)
  | .sar h a => short 0 0x0A h (bodyA a)
  | .min h a => short 0 0x0B h (bodyA a)
  | .max h a => short 0 0x0C h (bodyA a)
  | .minu h a => short 0 0x0D h (bodyA a)
  | .maxu h a => short 0 0x0E h (bodyA a)
  | .li h a => short 0 0x10 h (bodyA a)
  | .lih h a => short 0 0x11 h (bodyA a)
  | .cmpEq h a => short 0 0x18 h (bodyA a)
  | .cmpNe h a => short 0 0x19 h (bodyA a)
  | .cmpLt h a => short 0 0x1A h (bodyA a)
  | .cmpLtu h a => short 0 0x1B h (bodyA a)
  | .cmpGe h a => short 0 0x1C h (bodyA a)
  | .cmpGeu h a => short 0 0x1D h (bodyA a)
  | .pand h a => short 0 0x20 h (bodyA a)
  | .por h a => short 0 0x21 h (bodyA a)
  | .pxor h a => short 0 0x22 h (bodyA a)
  | .pnot h a => short 0 0x23 h (bodyA a)
  | .ld8 h m => short 0 0x28 h (bodyM m)
  | .ld16 h m => short 0 0x29 h (bodyM m)
  | .ld32 h m => short 0 0x2A h (bodyM m)
  | .ld64 h m => short 0 0x2B h (bodyM m)
  | .st8 h m => short 0 0x2C h (bodyM m)
  | .st16 h m => short 0 0x2D h (bodyM m)
  | .st32 h m => short 0 0x2E h (bodyM m)
  | .st64 h m => short 0 0x2F h (bodyM m)
  | .br h a => short 0 0x30 h (bodyA a)
  | .jal h a => short 0 0x31 h (bodyA a)
  | .jr h a => short 0 0x32 h (bodyA a)
  | .endItem h a => short 0 0x33 h (bodyA a)
  | .tdSet h a => short 0 0x38 h (bodyA a)
  | .tdGet h a => short 0 0x39 h (bodyA a)
  | .tdAdd h a => short 0 0x3A h (bodyA a)
  | .srd h a => short 0 0x40 h (bodyA a)
  | .swr h a => short 0 0x41 h (bodyA a)
  | .semWait h y => short 1 0x00 h (bodyY y)
  | .semPost h y => short 1 0x01 h (bodyY y)
  | .semTry h y => short 1 0x02 h (bodyY y)
  | .semRead h y => short 1 0x03 h (bodyY y)
  | .semInit h y => short 1 0x04 h (bodyY y)
  | .semPair h y => short 1 0x05 h (bodyY y)
  | .semUnpair h y => short 1 0x06 h (bodyY y)
  | .leaseTake h y => short 1 0x10 h (bodyY y)
  | .leaseDone h y => short 1 0x11 h (bodyY y)
  | .tickWait h y => short 1 0x18 h (bodyY y)
  | .drayGo h x l => long 2 0x00 h (bodyX x) l
  | .drayPause h x l => long 2 0x01 h (bodyX x) l
  | .drayResume h x l => long 2 0x02 h (bodyX x) l
  | .drayCancel h x l => long 2 0x03 h (bodyX x) l
  | .drayStat h x l => long 2 0x04 h (bodyX x) l
  | .mma h t l => long 3 0x00 h (bodyT t) l
  | .mvp h t l => long 3 0x08 h (bodyT t) l
  | .ewa h t l => long 3 0x10 h (bodyT t) l
  | .vop h t l => long 3 0x18 h (bodyT t) l
  | .hand h t l => long 3 0x20 h (bodyT t) l
  | .hmerge h t l => long 3 0x21 h (bodyT t) l
  | .hcheck h t l => long 3 0x22 h (bodyT t) l
  | .updAdam h t l => long 3 0x30 h (bodyT t) l
  | .predQuant h t l => long 3 0x28 h (bodyT t) l
  | .predTopk h t l => long 3 0x28 h (bodyT t) l
  | .predThresh h t l => long 3 0x28 h (bodyT t) l
  | .predEmit h t l => long 3 0x28 h (bodyT t) l
  | .digestBlock h t l => long 3 0x38 h (bodyT t) l
  | .digestNode h t l => long 3 0x38 h (bodyT t) l
  | .mgRd h a => short 4 0x00 h (bodyA a)
  | .mgWr h a => short 4 0x01 h (bodyA a)
  | .mgEvent h a => short 4 0x02 h (bodyA a)
  | .mgFence h a => short 4 0x03 h (bodyA a)
  | .mgImage h a => short 4 0x04 h (bodyA a)
  | _ => none

end Sys2Proof
end

