-- ==== Sys2Proof/Config.lean ====
section
/-! DEFINITION. What an implementation fixes and the free values: constants with no body, so that no proof sees
what they are (log entries 5 and 10). -/

namespace Sys2Proof

/-- A byte whose value the spec does not specify: the n-th free byte of a run (R317, R328). DESIGN CHOICE, log entry 5. Safe. -/
opaque Config.freeByte : Nat → BitVec 8

/-- A 32-bit value the spec does not specify: the n-th free word of a run (R219). DESIGN CHOICE, log entry 5. Safe. -/
opaque Config.freeWord : Nat → BitVec 32

/-- The byte at an index of the identity public key of the module with a serial number (R513): derived from a secret
that the spec does not give. DESIGN CHOICE, log entry 10. Safe. -/
opaque Config.identityKey : BitVec 64 → Nat → BitVec 8

/-- The byte at an index of the identity key's signature over a message (R513, R515). DESIGN CHOICE, log entry 10. Safe. -/
opaque Config.identitySignature : BitVec 64 → List (BitVec 8) → Nat → BitVec 8

/-- The byte at an index of the 64 B item that the ROM measures for a ROM version and the fuses of a module (R512): the spec does not
give its layout. DESIGN CHOICE, log entry 10. Safe. -/
opaque Config.fuseItem : BitVec 8 → BitVec 64 → Nat → BitVec 8

/-- Whether a signature holds for a public key and a message (R509, R510): SLH-DSA is not computed by the model. DESIGN CHOICE, log
entry 10. Safe. -/
opaque Config.signatureHolds : List (BitVec 8) → List (BitVec 8) → List (BitVec 8) → Bool

/-- The report format that bytes 0 and 1 of an attestation report hold (R515): the spec gives no value. DESIGN CHOICE, log entry 5. Safe. -/
opaque Config.reportFormat : BitVec 16

end Sys2Proof
end

