-- ==== Sys2Proof/Machine/Bits.lean ====
section
/-! DEFINITION. Byte order, bit fields and check codes (00_scope.md, Numbers and units; R61, R209). -/

namespace Sys2Proof.Machine

/-- The field of `width` bits from bit `lo` of `w`. -/
def field (w lo width : Nat) : Nat := (w >>> lo) % 2 ^ width

/-- Quotient rounded up. -/
def ceilDiv (a b : Nat) : Nat := (a + b - 1) / b

/-- The low `n` bytes of `v`, little-endian. -/
def leBytes (n v : Nat) : List Byte :=
  match n with
  | 0 => []
  | n + 1 => BitVec.ofNat 8 v :: leBytes n (v >>> 8)

/-- The number that little-endian bytes spell. -/
def leNat (bs : List Byte) : Nat :=
  match bs with
  | [] => 0
  | b :: r => b.toNat + 256 * leNat r

/-- Bytes `i` to `i + n - 1` of a byte list, as a little-endian number. -/
def leAt (bs : List Byte) (i n : Nat) : Nat := leNat ((bs.drop i).take n)

/-- The number of ones among the low `n` bits of `v`. -/
def popcount (n v : Nat) : Nat :=
  match n with
  | 0 => 0
  | n + 1 => v % 2 + popcount n (v / 2)

/-- The bits of `v` below `n` that are 1, ascending. -/
def setBits (n v : Nat) : List Nat := (List.range n).filter (fun i => v.testBit i)

/-- `v` saturated at the largest value of `width` bits. -/
def saturate (width v : Nat) : Nat := min v (2 ^ width - 1)

/-- Two's complement of `n` bits. -/
def signed (n v : Nat) : Int := if v % 2 ^ n < 2 ^ (n - 1) then ((v % 2 ^ n : Nat) : Int) else ((v % 2 ^ n : Nat) : Int) - ((2 ^ n : Nat) : Int)

/-- One byte into CRC-32C, bit by bit (reflected polynomial 0x82F63B78). PRESUMED: the spec names CRC-32C and gives no
polynomial; log entry 13. -/
def crc32cStep (n c : Nat) : Nat :=
  match n with
  | 0 => c
  | n + 1 => crc32cStep n (if c % 2 = 1 then (c / 2) ^^^ 0x82F63B78 else c / 2)

/-- The CRC-32C register after the bytes. -/
def crc32cRun (c : Nat) (bs : List Byte) : Nat :=
  match bs with
  | [] => c
  | b :: r => crc32cRun (crc32cStep 8 (c ^^^ b.toNat)) r

/-- CRC-32C of bytes (R61, R80, R411, R474, R496, R508). -/
def crc32c (bs : List Byte) : Nat := crc32cRun 0xFFFFFFFF bs ^^^ 0xFFFFFFFF

/-- One byte into CRC-16/CCITT-FALSE, bit by bit (R209). -/
def crc16Step (n c : Nat) : Nat :=
  match n with
  | 0 => c
  | n + 1 => crc16Step n (if c / 0x8000 % 2 = 1 then ((c * 2) ^^^ 0x1021) % 0x10000 else c * 2 % 0x10000)

/-- The CRC-16 register after the bytes. -/
def crc16Run (c : Nat) (bs : List Byte) : Nat :=
  match bs with
  | [] => c
  | b :: r => crc16Run (crc16Step 8 (c ^^^ (b.toNat * 256))) r

/-- CRC-16/CCITT-FALSE: polynomial 0x1021, initial value 0xFFFF, no reflection, no final XOR (R209). -/
def crc16 (bs : List Byte) : Nat := crc16Run 0xFFFF bs

/-- A cumulative counter less another, modulo 2⁴⁸ (R83). -/
def diff48 (a b : Nat) : Nat := (a % 2 ^ 48 + 2 ^ 48 - b % 2 ^ 48) % 2 ^ 48

/-- A cumulative counter raised by `n`, modulo 2⁴⁸ (R83). -/
def bump48 (a n : Nat) : Nat := (a + n) % 2 ^ 48

/-- The last index of a list at which the predicate holds first, or the default. -/
def firstIdx {α : Type} (xs : List α) (p : α → Bool) (d : Nat) : Nat :=
  match xs with
  | [] => d
  | x :: r => if p x then 0 else 1 + firstIdx r p d

/-- Insertion of a number into an ascending list without repeats. -/
def insertAsc (x : Nat) (xs : List Nat) : List Nat :=
  match xs with
  | [] => [x]
  | y :: r => if x < y then x :: y :: r else if x = y then y :: r else y :: insertAsc x r

end Sys2Proof.Machine
end

