-- ==== Sys2Proof/Machine/RegMap.lean ====
section
/-! DEFINITION. The registers of the module: their addresses, fields, access codes, reset values and latch classes, as the
register tables of the spec give them (R12 to R16). One constructor of `RegId` for each register word. -/

namespace Sys2Proof.Machine

/-- The access codes of R12. -/
inductive Access where
  | rw | ro | wo | w1c | rc
  deriving DecidableEq, Repr

/-- The latch codes of R14; `none` for a field that takes no write. No field of a register table has class N. -/
inductive Latch where
  | i | n | f | l | none
  deriving DecidableEq, Repr

/-- One field of a register word: bits [lo + width - 1 : lo], access, value after power-on reset, latch (R12 to R14). -/
structure FSpec where
  lo : Nat
  width : Nat
  acc : Access
  rst : Nat
  latch : Latch
  deriving DecidableEq, Repr

/-- The register words of the module. `d` is a die; the other arguments are the indices of the spec's tables. -/
inductive RegId where
  | MODULE_LEAD  -- R41
  | FRAME_CFG  -- R47
  | FRAME_STATUS  -- R48
  | FRAME_COUNTS  -- R49
  | TT_CTRL (d : Nat)  -- R60
  | JOB_SUBMIT  -- R78
  | JOB_STATUS  -- R81
  | SEQ_EXC (d c : Nat)  -- R133
  | SEQ_CTRL (d c : Nat)  -- R134
  | ARRAY_REPAIR (d p : Nat)  -- R167
  | ACC_STATUS (d c : Nat)  -- R189
  | ACC_GROUP (d c g : Nat)  -- R190
  | HARNESS_STATUS (d c : Nat)  -- R221
  | HARNESS_COUNT (d c : Nat)  -- R222
  | HARNESS_CTRL (d c : Nat)  -- R223
  | PRED_STATUS (d c : Nat)  -- R257
  | PRED_COUNT (d c : Nat)  -- R258
  | PRED_CTRL (d : Nat)  -- R259
  | SPAD_WIN (d c w : Nat)  -- R285
  | SPAD_STAT (d c : Nat)  -- R288
  | SPAD_BANK (d c b : Nat)  -- R289
  | SPAD_PWR (d c : Nat)  -- R291
  | DEPOT_REGION (d k : Nat)  -- R294
  | DEPOT_STATUS (d : Nat)  -- R300
  | DEPOT_COUNT (d : Nat)  -- R300
  | LPDDR_CH_STATUS (d ch : Nat)  -- R305
  | MEM_TAGS (d : Nat)  -- R308
  | DRAY_CQ_BASE (d q : Nat)  -- R331
  | DRAY_CQ_CTL (d q : Nat)  -- R331
  | DRAY_CQ_PTR (d q : Nat)  -- R331
  | DRAY_CQ_QW (d q : Nat)  -- R331
  | DRAY_CH_STATUS (d n : Nat)  -- R338
  | DRAY_CH_SRC (d n : Nat)  -- R338
  | DRAY_CH_DST (d n : Nat)  -- R338
  | DRAY_CH_ERR (d n : Nat)  -- R338
  | DRAY_CH_SCFG (d n : Nat)  -- R339
  | DRAY_CH_SLOTS (d n : Nat)  -- R341
  | DRAY_CH_MISS (d n : Nat)  -- R342
  | ARB_CFG (d : Nat)  -- R354
  | ARB_STAT (d g : Nat)  -- R355
  | WORK_CTR_NEXT (d k : Nat)  -- R373
  | WORK_CTR_CFG (d k : Nat)  -- R373
  | WORK_CTR_TAKES (d k : Nat)  -- R373
  | WORK_CTR_BASE (d k : Nat)  -- R373
  | WORK_CTR_FRAME (d k : Nat)  -- R373
  | WORK_CTR_HELD (d k : Nat)  -- R373
  | WORK_CTR_SKIP (d k : Nat)  -- R373
  | WORK_CTR_REFUSED (d k : Nat)  -- R373
  | OPT_CFG (d : Nat)  -- R385
  | OPT_CTRL (d : Nat)  -- R386
  | OPT_STATUS (d : Nat)  -- R387
  | RETIRE (d k : Nat)  -- R408
  | LINK_STATUS (d l : Nat)  -- R422
  | LINK_CFG (d l : Nat)  -- R422
  | LINK_COUNT (d l : Nat)  -- R422
  | LINK_RTT (d l : Nat)  -- R422
  | FLEET_ROUTE (t : Nat)  -- R438
  | TEAM_CFG  -- R439
  | TEAM_STATUS  -- R440
  | BYPASS  -- R445
  | LEDGER (d e : Nat)  -- R451
  | LEDGER_FRAME (d e : Nat)  -- R451
  | LEDGER_PAY0 (d e : Nat)  -- R451
  | LEDGER_PAY1 (d e : Nat)  -- R451
  | LEDGER_STATUS (d : Nat)  -- R457
  | LEDGER_CTRL (d : Nat)  -- R457
  | MIRROR_CFG (d : Nat)  -- R467
  | MIRROR_BASE (d : Nat)  -- R467
  | MIRROR_STATUS (d : Nat)  -- R467
  | JOB_CTRL  -- R472
  | IMAGE_CFG  -- R472
  | IMAGE_STATUS  -- R472
  | LAMP_SENSE (ch : Nat)  -- R482
  | LAMP_FILT (ch : Nat)  -- R484
  | LAMP_RULE (r : Nat)  -- R486
  | LAMP_RULE_CTL (r : Nat)  -- R486
  | LAMP_PWR  -- R493
  | LAMP_CAL  -- R494
  | MBOX_CMD  -- R499
  | MBOX_STATUS  -- R499
  | EVQ_STATUS (d : Nat)  -- R504
  | EVRING_BASE  -- R505
  | EVRING_CTL  -- R505
  | EVRING_PTR  -- R505
  | EVRING_DROP  -- R505
  | ATT_CTRL  -- R514
  | ATT_STATUS  -- R514
  | FW_CTRL  -- R518
  | FW_STATUS  -- R518
  | MODULE_RESET  -- R531
  | MODULE_ID  -- R533
  | MODULE_SERIAL  -- R533
  | MODULE_STATUS  -- R534
  | POLICY  -- R536
  | DRAY_CH_ACC_CNT (d n : Nat)  -- R340
  | DRAY_CH_CMP_CNT (d n : Nat)  -- R340
  | DRAY_CH_OK_CNT (d n : Nat)  -- R340
  | DRAY_CH_ERR_CNT (d n : Nat)  -- R340
  | DRAY_CH_CAN_CNT (d n : Nat)  -- R340
  | MODULE_VERSIONS  -- R537
  deriving DecidableEq, Repr

/-- A field of a register word. -/
structure FRef where
  reg : RegId
  lo : Nat
  width : Nat
  deriving DecidableEq, Repr

/-- The base of the registers of die d (R26). -/
def dieReg (d off : Nat) : Nat := 0x020000000000 + d * 0x10000000 + off

/-- The module-level registers (R26). -/
def modReg (off : Nat) : Nat := 0x030000000000 + off

/-- The module address of a register word. -/
def RegId.addr : RegId → Nat
  | .MODULE_LEAD => modReg (0x100)
  | .FRAME_CFG => modReg (0x200)
  | .FRAME_STATUS => modReg (0x208)
  | .FRAME_COUNTS => modReg (0x210)
  | .TT_CTRL d => dieReg d (0x1000)
  | .JOB_SUBMIT => modReg (0x300)
  | .JOB_STATUS => modReg (0x308)
  | .SEQ_EXC d c => dieReg d (0x100000 + c * 0x100)
  | .SEQ_CTRL d c => dieReg d (0x100008 + c * 0x100)
  | .ARRAY_REPAIR d p => dieReg d (0x200000 + p * 0x8)
  | .ACC_STATUS d c => dieReg d (0x100010 + c * 0x100)
  | .ACC_GROUP d c g => dieReg d (0x100040 + c * 0x100 + g * 0x8)
  | .HARNESS_STATUS d c => dieReg d (0x100080 + c * 0x100)
  | .HARNESS_COUNT d c => dieReg d (0x100088 + c * 0x100)
  | .HARNESS_CTRL d c => dieReg d (0x100090 + c * 0x100)
  | .PRED_STATUS d c => dieReg d (0x1000A0 + c * 0x100)
  | .PRED_COUNT d c => dieReg d (0x1000A8 + c * 0x100)
  | .PRED_CTRL d => dieReg d (0x1100)
  | .SPAD_WIN d c w => dieReg d (0x1000C0 + c * 0x100 + w * 0x8)
  | .SPAD_STAT d c => dieReg d (0x1000B0 + c * 0x100)
  | .SPAD_BANK d c b => dieReg d (0x300000 + c * 0x100 + b * 0x8)
  | .SPAD_PWR d c => dieReg d (0x1000B8 + c * 0x100)
  | .DEPOT_REGION d k => dieReg d (0x2000 + k * 0x8)
  | .DEPOT_STATUS d => dieReg d (0x2080)
  | .DEPOT_COUNT d => dieReg d (0x2088)
  | .LPDDR_CH_STATUS d ch => dieReg d (0x3000 + ch * 0x8)
  | .MEM_TAGS d => dieReg d (0x3080)
  | .DRAY_CQ_BASE d q => dieReg d (0x410000 + q * 0x20)
  | .DRAY_CQ_CTL d q => dieReg d (0x410008 + q * 0x20)
  | .DRAY_CQ_PTR d q => dieReg d (0x410010 + q * 0x20)
  | .DRAY_CQ_QW d q => dieReg d (0x410018 + q * 0x20)
  | .DRAY_CH_STATUS d n => dieReg d (0x400000 + n * 0x80)
  | .DRAY_CH_SRC d n => dieReg d (0x400008 + n * 0x80)
  | .DRAY_CH_DST d n => dieReg d (0x400010 + n * 0x80)
  | .DRAY_CH_ERR d n => dieReg d (0x400018 + n * 0x80)
  | .DRAY_CH_SCFG d n => dieReg d (0x400020 + n * 0x80)
  | .DRAY_CH_SLOTS d n => dieReg d (0x400050 + n * 0x80)
  | .DRAY_CH_MISS d n => dieReg d (0x400058 + n * 0x80)
  | .ARB_CFG d => dieReg d (0x3100)
  | .ARB_STAT d g => dieReg d (0x3108 + g * 0x8)
  | .WORK_CTR_NEXT d k => dieReg d (0x600000 + k * 0x40)
  | .WORK_CTR_CFG d k => dieReg d (0x600008 + k * 0x40)
  | .WORK_CTR_TAKES d k => dieReg d (0x600010 + k * 0x40)
  | .WORK_CTR_BASE d k => dieReg d (0x600018 + k * 0x40)
  | .WORK_CTR_FRAME d k => dieReg d (0x600020 + k * 0x40)
  | .WORK_CTR_HELD d k => dieReg d (0x600028 + k * 0x40)
  | .WORK_CTR_SKIP d k => dieReg d (0x600030 + k * 0x40)
  | .WORK_CTR_REFUSED d k => dieReg d (0x600038 + k * 0x40)
  | .OPT_CFG d => dieReg d (0x1200)
  | .OPT_CTRL d => dieReg d (0x1208)
  | .OPT_STATUS d => dieReg d (0x1210)
  | .RETIRE d k => dieReg d (0x4000 + k * 0x8)
  | .LINK_STATUS d l => dieReg d (0x500000 + l * 0x40)
  | .LINK_CFG d l => dieReg d (0x500008 + l * 0x40)
  | .LINK_COUNT d l => dieReg d (0x500010 + l * 0x40)
  | .LINK_RTT d l => dieReg d (0x500018 + l * 0x40)
  | .FLEET_ROUTE t => modReg (0x500 + t * 0x8)
  | .TEAM_CFG => modReg (0x400)
  | .TEAM_STATUS => modReg (0x408)
  | .BYPASS => modReg (0x410)
  | .LEDGER d e => dieReg d (0x5100 + e * 0x20)
  | .LEDGER_FRAME d e => dieReg d (0x5108 + e * 0x20)
  | .LEDGER_PAY0 d e => dieReg d (0x5110 + e * 0x20)
  | .LEDGER_PAY1 d e => dieReg d (0x5118 + e * 0x20)
  | .LEDGER_STATUS d => dieReg d (0x5000)
  | .LEDGER_CTRL d => dieReg d (0x5008)
  | .MIRROR_CFG d => dieReg d (0x5A00)
  | .MIRROR_BASE d => dieReg d (0x5A08)
  | .MIRROR_STATUS d => dieReg d (0x5A10)
  | .JOB_CTRL => modReg (0x310)
  | .IMAGE_CFG => modReg (0x318)
  | .IMAGE_STATUS => modReg (0x320)
  | .LAMP_SENSE ch => modReg (0x1000 + ch * 0x8)
  | .LAMP_FILT ch => modReg (0x1200 + ch * 0x8)
  | .LAMP_RULE r => modReg (0x1400 + r * 0x10)
  | .LAMP_RULE_CTL r => modReg (0x1408 + r * 0x10)
  | .LAMP_PWR => modReg (0x1C10)
  | .LAMP_CAL => modReg (0x1C18)
  | .MBOX_CMD => modReg (0x2000)
  | .MBOX_STATUS => modReg (0x2008)
  | .EVQ_STATUS d => dieReg d (0x5900)
  | .EVRING_BASE => modReg (0x3000)
  | .EVRING_CTL => modReg (0x3008)
  | .EVRING_PTR => modReg (0x3010)
  | .EVRING_DROP => modReg (0x3018)
  | .ATT_CTRL => modReg (0x3200)
  | .ATT_STATUS => modReg (0x3208)
  | .FW_CTRL => modReg (0x3100)
  | .FW_STATUS => modReg (0x3108)
  | .MODULE_RESET => modReg (0x1C28)
  | .MODULE_ID => modReg (0x0)
  | .MODULE_SERIAL => modReg (0x8)
  | .MODULE_STATUS => modReg (0x10)
  | .POLICY => modReg (0x1C20)
  | .DRAY_CH_ACC_CNT d n => dieReg d (0x400028 + n * 0x80)
  | .DRAY_CH_CMP_CNT d n => dieReg d (0x400030 + n * 0x80)
  | .DRAY_CH_OK_CNT d n => dieReg d (0x400038 + n * 0x80)
  | .DRAY_CH_ERR_CNT d n => dieReg d (0x400040 + n * 0x80)
  | .DRAY_CH_CAN_CNT d n => dieReg d (0x400048 + n * 0x80)
  | .MODULE_VERSIONS => modReg (0x18)

/-- The fields of a register word; bits in no field are reserved (R16). A fuse, strap, image or FRAM value is not among
the reset values: it is read from where State holds it. -/
def RegId.fields : RegId → List FSpec
  | .MODULE_LEAD => [⟨0, 3, .ro, 0, .none⟩, ⟨3, 1, .ro, 0, .none⟩, ⟨4, 1, .w1c, 0, .i⟩, ⟨8, 1, .rw, 1, .f⟩, ⟨16, 16, .ro, 0, .none⟩]
  | .FRAME_CFG => [⟨0, 15, .ro, 1024, .none⟩, ⟨16, 1, .ro, 0, .none⟩, ⟨20, 4, .ro, 4, .none⟩, ⟨24, 4, .ro, 8, .none⟩]
  | .FRAME_STATUS => [⟨0, 48, .ro, 0, .none⟩, ⟨48, 8, .ro, 0, .none⟩, ⟨56, 1, .ro, 0, .none⟩]
  | .FRAME_COUNTS => [⟨0, 32, .rc, 0, .none⟩, ⟨32, 32, .rc, 0, .none⟩]
  | .TT_CTRL _ => [⟨0, 1, .rw, 0, .i⟩, ⟨1, 1, .ro, 0, .none⟩, ⟨2, 1, .w1c, 0, .i⟩, ⟨16, 8, .ro, 0, .none⟩, ⟨32, 32, .ro, 0, .none⟩]
  | .JOB_SUBMIT => [⟨0, 48, .rw, 0, .f⟩, ⟨48, 1, .rw, 0, .f⟩]
  | .JOB_STATUS => [⟨0, 2, .ro, 0, .none⟩, ⟨2, 1, .w1c, 0, .i⟩, ⟨8, 8, .ro, 0, .none⟩, ⟨32, 32, .ro, 0, .none⟩]
  | .SEQ_EXC _ _ => [⟨0, 8, .ro, 0, .none⟩, ⟨8, 1, .w1c, 0, .i⟩, ⟨12, 4, .ro, 0, .none⟩, ⟨16, 20, .ro, 0, .none⟩, ⟨36, 3, .ro, 0, .none⟩, ⟨48, 16, .rc, 0, .none⟩]
  | .SEQ_CTRL _ _ => [⟨0, 2, .rw, 2, .l⟩, ⟨8, 1, .rw, 1, .i⟩, ⟨16, 48, .rc, 0, .none⟩]
  | .ARRAY_REPAIR _ _ => [⟨0, 2, .ro, 0, .none⟩, ⟨2, 2, .ro, 0, .none⟩, ⟨4, 2, .ro, 0, .none⟩, ⟨6, 2, .ro, 0, .none⟩, ⟨8, 1, .ro, 0, .none⟩, ⟨9, 1, .ro, 0, .none⟩, ⟨16, 7, .ro, 0, .none⟩]
  | .ACC_STATUS _ _ => [⟨0, 8, .ro, 0, .none⟩, ⟨8, 8, .w1c, 0, .i⟩, ⟨16, 8, .w1c, 0, .i⟩, ⟨24, 8, .ro, 0, .none⟩, ⟨32, 16, .rc, 0, .none⟩]
  | .ACC_GROUP _ _ _ => [⟨0, 25, .ro, 0, .none⟩, ⟨25, 2, .ro, 0, .none⟩, ⟨27, 2, .ro, 0, .none⟩, ⟨29, 1, .ro, 0, .none⟩, ⟨30, 1, .ro, 0, .none⟩, ⟨31, 1, .ro, 0, .none⟩, ⟨32, 1, .ro, 0, .none⟩]
  | .HARNESS_STATUS _ _ => [⟨0, 16, .rc, 0, .none⟩, ⟨16, 16, .rc, 0, .none⟩, ⟨32, 16, .rc, 0, .none⟩, ⟨48, 1, .ro, 0, .none⟩]
  | .HARNESS_COUNT _ _ => [⟨0, 32, .rc, 0, .none⟩, ⟨32, 32, .rc, 0, .none⟩]
  | .HARNESS_CTRL _ _ => [⟨0, 1, .rw, 0, .l⟩]
  | .PRED_STATUS _ _ => [⟨0, 16, .rc, 0, .none⟩, ⟨16, 16, .rc, 0, .none⟩, ⟨32, 16, .rc, 0, .none⟩, ⟨48, 1, .ro, 0, .none⟩]
  | .PRED_COUNT _ _ => [⟨0, 32, .rc, 0, .none⟩, ⟨32, 32, .rc, 0, .none⟩]
  | .PRED_CTRL _ => [⟨0, 1, .rw, 1, .f⟩, ⟨1, 1, .rw, 0, .f⟩, ⟨16, 32, .rc, 0, .none⟩]
  | .SPAD_WIN _ _ _ => [⟨0, 20, .rw, 0, .f⟩, ⟨20, 20, .rw, 0, .f⟩, ⟨40, 1, .rw, 0, .f⟩, ⟨41, 1, .rw, 0, .f⟩, ⟨42, 1, .rw, 0, .f⟩]
  | .SPAD_STAT _ _ => [⟨0, 16, .rc, 0, .none⟩, ⟨16, 16, .rc, 0, .none⟩, ⟨32, 16, .rc, 0, .none⟩, ⟨48, 6, .ro, 0, .none⟩, ⟨54, 2, .ro, 0, .none⟩]
  | .SPAD_BANK _ _ _ => [⟨0, 32, .rc, 0, .none⟩, ⟨32, 32, .rc, 0, .none⟩]
  | .SPAD_PWR _ _ => [⟨0, 24, .rw, 0, .l⟩, ⟨32, 24, .ro, 16777215, .none⟩]
  | .DEPOT_REGION _ k => [⟨0, 5, .rw, 0, .f⟩, ⟨5, 6, .rw, (if k = 0 then 32 else 0), .f⟩, ⟨11, 2, .rw, (if k = 0 then 2 else 0), .f⟩, ⟨16, 8, .rw, 0, .f⟩, ⟨24, 8, .rw, (if k = 0 then 128 else 0), .f⟩]
  | .DEPOT_STATUS _ => [⟨0, 16, .rc, 0, .none⟩, ⟨16, 8, .rc, 0, .none⟩, ⟨24, 8, .rc, 0, .none⟩, ⟨32, 1, .ro, 0, .none⟩]
  | .DEPOT_COUNT _ => [⟨0, 32, .rc, 0, .none⟩, ⟨32, 32, .rc, 0, .none⟩]
  | .LPDDR_CH_STATUS _ _ => [⟨0, 16, .rc, 0, .none⟩, ⟨16, 16, .rc, 0, .none⟩, ⟨32, 16, .rc, 0, .none⟩, ⟨48, 8, .rc, 0, .none⟩, ⟨56, 1, .ro, 0, .none⟩]
  | .MEM_TAGS _ => [⟨0, 15, .ro, 0, .none⟩, ⟨16, 15, .rc, 0, .none⟩, ⟨32, 32, .rc, 0, .none⟩]
  | .DRAY_CQ_BASE _ _ => [⟨0, 48, .rw, 0, .l⟩]
  | .DRAY_CQ_CTL _ _ => [⟨0, 5, .rw, 4, .l⟩, ⟨8, 1, .rw, 0, .i⟩]
  | .DRAY_CQ_PTR _ _ => [⟨0, 17, .rw, 0, .i⟩, ⟨32, 17, .ro, 0, .none⟩]
  | .DRAY_CQ_QW _ _ => [⟨0, 48, .ro, 0, .none⟩]
  | .DRAY_CH_STATUS _ _ => [⟨0, 3, .ro, 0, .none⟩, ⟨4, 5, .ro, 0, .none⟩, ⟨10, 10, .ro, 0, .none⟩, ⟨20, 2, .ro, 0, .none⟩, ⟨24, 8, .ro, 0, .none⟩, ⟨32, 32, .ro, 0, .none⟩]
  | .DRAY_CH_SRC _ _ => [⟨0, 48, .ro, 0, .none⟩]
  | .DRAY_CH_DST _ _ => [⟨0, 48, .ro, 0, .none⟩]
  | .DRAY_CH_ERR _ _ => [⟨0, 48, .ro, 0, .none⟩, ⟨48, 2, .ro, 0, .none⟩]
  | .DRAY_CH_SCFG _ _ => [⟨0, 8, .rw, 0, .f⟩, ⟨8, 7, .rw, 0, .f⟩, ⟨15, 1, .rw, 0, .f⟩, ⟨16, 24, .rw, 0, .f⟩]
  | .DRAY_CH_SLOTS _ _ => [⟨0, 13, .ro, 0, .none⟩, ⟨16, 13, .ro, 0, .none⟩, ⟨32, 13, .ro, 0, .none⟩, ⟨48, 13, .ro, 0, .none⟩]
  | .DRAY_CH_MISS _ _ => [⟨0, 32, .rc, 0, .none⟩, ⟨32, 32, .rc, 0, .none⟩]
  | .ARB_CFG _ => [⟨0, 8, .rw, 48, .f⟩, ⟨8, 8, .rw, 64, .f⟩]
  | .ARB_STAT _ _ => [⟨0, 32, .rc, 0, .none⟩, ⟨32, 32, .rc, 0, .none⟩]
  | .WORK_CTR_NEXT _ _ => [⟨0, 32, .rw, 0, .f⟩, ⟨32, 32, .rw, 0, .f⟩]
  | .WORK_CTR_CFG _ _ => [⟨0, 16, .rw, 0, .f⟩, ⟨16, 4, .rw, 1, .f⟩]
  | .WORK_CTR_TAKES _ _ => [⟨0, 48, .ro, 0, .none⟩]
  | .WORK_CTR_BASE _ _ => [⟨0, 48, .ro, 0, .none⟩]
  | .WORK_CTR_FRAME _ _ => [⟨0, 32, .ro, 0, .none⟩, ⟨32, 32, .ro, 0, .none⟩]
  | .WORK_CTR_HELD _ _ => [⟨0, 16, .ro, 0, .none⟩, ⟨16, 16, .ro, 0, .none⟩]
  | .WORK_CTR_SKIP _ _ => [⟨0, 32, .rc, 0, .none⟩, ⟨32, 32, .rc, 0, .none⟩]
  | .WORK_CTR_REFUSED _ _ => [⟨0, 48, .ro, 0, .none⟩]
  | .OPT_CFG _ => [⟨0, 32, .rw, 2139095040, .f⟩, ⟨32, 16, .rw, 256, .f⟩]
  | .OPT_CTRL _ => [⟨0, 32, .rw, 0, .f⟩, ⟨32, 1, .rw, 0, .f⟩, ⟨33, 1, .rw, 0, .f⟩, ⟨34, 1, .rw, 0, .f⟩]
  | .OPT_STATUS _ => [⟨0, 2, .ro, 0, .none⟩, ⟨2, 1, .ro, 0, .none⟩, ⟨3, 1, .w1c, 0, .i⟩, ⟨16, 13, .ro, 0, .none⟩, ⟨32, 32, .rc, 0, .none⟩]
  | .RETIRE _ _ => [⟨0, 48, .rw, 0, .f⟩, ⟨48, 1, .rw, 0, .f⟩]
  | .LINK_STATUS _ _ => [⟨0, 4, .ro, 0, .none⟩, ⟨4, 1, .ro, 0, .none⟩, ⟨5, 3, .ro, 0, .none⟩, ⟨8, 5, .ro, 0, .none⟩, ⟨13, 2, .ro, 0, .none⟩, ⟨16, 8, .ro, 0, .none⟩]
  | .LINK_CFG _ _ => [⟨0, 13, .rw, 1024, .l⟩, ⟨13, 1, .rw, 0, .i⟩, ⟨16, 8, .rw, 64, .f⟩]
  | .LINK_COUNT _ _ => [⟨0, 16, .rc, 0, .none⟩, ⟨16, 16, .rc, 0, .none⟩, ⟨32, 8, .rc, 0, .none⟩, ⟨40, 8, .rc, 0, .none⟩]
  | .LINK_RTT _ _ => [⟨0, 32, .ro, 0, .none⟩]
  | .FLEET_ROUTE _ => [⟨0, 4, .rw, 0, .f⟩, ⟨4, 2, .rw, 0, .f⟩, ⟨7, 1, .rw, 0, .f⟩]
  | .TEAM_CFG => [⟨0, 6, .rw, 0, .l⟩, ⟨6, 5, .rw, 1, .l⟩, ⟨11, 1, .rw, 0, .l⟩, ⟨16, 1, .rw, 0, .i⟩]
  | .TEAM_STATUS => [⟨0, 2, .ro, 0, .none⟩, ⟨2, 4, .ro, 0, .none⟩, ⟨6, 4, .ro, 0, .none⟩, ⟨10, 4, .ro, 0, .none⟩, ⟨14, 1, .ro, 0, .none⟩, ⟨15, 1, .ro, 0, .none⟩, ⟨16, 16, .ro, 0, .none⟩, ⟨32, 8, .ro, 0, .none⟩]
  | .BYPASS => [⟨0, 1, .ro, 1, .none⟩, ⟨1, 1, .rw, 0, .i⟩, ⟨2, 3, .ro, 0, .none⟩, ⟨16, 16, .rc, 0, .none⟩]
  | .LEDGER _ _ => [⟨0, 16, .ro, 0, .none⟩, ⟨16, 4, .ro, 0, .none⟩, ⟨20, 4, .ro, 0, .none⟩, ⟨24, 3, .ro, 0, .none⟩, ⟨32, 16, .ro, 0, .none⟩, ⟨48, 8, .ro, 0, .none⟩, ⟨56, 8, .ro, 255, .none⟩]
  | .LEDGER_FRAME _ _ => [⟨0, 48, .ro, 0, .none⟩, ⟨48, 4, .ro, 0, .none⟩, ⟨52, 12, .ro, 0, .none⟩]
  | .LEDGER_PAY0 _ _ => [⟨0, 64, .ro, 0, .none⟩]
  | .LEDGER_PAY1 _ _ => [⟨0, 64, .ro, 0, .none⟩]
  | .LEDGER_STATUS _ => [⟨0, 7, .ro, 0, .none⟩, ⟨7, 1, .ro, 0, .none⟩, ⟨8, 6, .ro, 0, .none⟩, ⟨14, 1, .ro, 0, .none⟩, ⟨16, 16, .rc, 0, .none⟩, ⟨32, 16, .rc, 0, .none⟩, ⟨48, 16, .rc, 0, .none⟩]
  | .LEDGER_CTRL _ => [⟨0, 6, .wo, 0, .i⟩, ⟨6, 2, .wo, 0, .i⟩]
  | .MIRROR_CFG _ => [⟨0, 1, .rw, 0, .f⟩, ⟨4, 4, .rw, 0, .f⟩, ⟨8, 3, .rw, 0, .f⟩]
  | .MIRROR_BASE _ => [⟨0, 48, .rw, 0, .f⟩]
  | .MIRROR_STATUS _ => [⟨0, 1, .ro, 0, .none⟩, ⟨1, 1, .ro, 0, .none⟩, ⟨16, 32, .rc, 0, .none⟩]
  | .JOB_CTRL => [⟨0, 1, .rw, 0, .f⟩, ⟨1, 1, .rw, 0, .f⟩, ⟨2, 1, .rw, 0, .f⟩, ⟨3, 1, .rw, 0, .f⟩]
  | .IMAGE_CFG => [⟨0, 37, .rw, 0, .f⟩]
  | .IMAGE_STATUS => [⟨0, 48, .ro, 0, .none⟩, ⟨48, 1, .ro, 0, .none⟩, ⟨49, 1, .ro, 0, .none⟩]
  | .LAMP_SENSE _ => [⟨0, 16, .ro, 0, .none⟩, ⟨16, 16, .ro, 0, .none⟩, ⟨32, 1, .ro, 0, .none⟩, ⟨33, 1, .ro, 0, .none⟩]
  | .LAMP_FILT _ => [⟨0, 2, .rw, 0, .i⟩, ⟨2, 4, .rw, 4, .i⟩, ⟨6, 2, .rw, 0, .i⟩, ⟨8, 8, .rw, 1, .i⟩]
  | .LAMP_RULE _ => [⟨0, 6, .rw, 0, .l⟩, ⟨6, 1, .rw, 0, .l⟩, ⟨8, 16, .rw, 0, .l⟩, ⟨24, 16, .rw, 0, .l⟩, ⟨40, 16, .rw, 0, .l⟩]
  | .LAMP_RULE_CTL _ => [⟨0, 1, .rw, 0, .i⟩, ⟨1, 1, .ro, 0, .none⟩, ⟨2, 6, .rw, 0, .l⟩, ⟨8, 5, .rw, 16, .l⟩, ⟨16, 16, .rc, 0, .none⟩, ⟨32, 1, .ro, 0, .none⟩]
  | .LAMP_PWR => [⟨0, 2, .ro, 3, .none⟩, ⟨2, 2, .rw, 3, .l⟩, ⟨4, 1, .ro, 0, .none⟩, ⟨5, 1, .w1c, 0, .i⟩, ⟨8, 5, .ro, 16, .none⟩, ⟨16, 5, .ro, 16, .none⟩, ⟨24, 8, .rw, 0, .i⟩]
  | .LAMP_CAL => [⟨0, 48, .rw, 0, .i⟩, ⟨48, 1, .ro, 0, .none⟩]
  | .MBOX_CMD => [⟨0, 8, .rw, 0, .l⟩, ⟨16, 16, .rw, 0, .l⟩]
  | .MBOX_STATUS => [⟨0, 1, .ro, 0, .none⟩, ⟨1, 1, .w1c, 0, .i⟩, ⟨2, 1, .w1c, 0, .i⟩]
  | .EVQ_STATUS _ => [⟨0, 11, .ro, 0, .none⟩, ⟨16, 32, .rc, 0, .none⟩]
  | .EVRING_BASE => [⟨0, 48, .rw, 0, .l⟩]
  | .EVRING_CTL => [⟨0, 5, .rw, 8, .l⟩, ⟨8, 1, .rw, 0, .i⟩]
  | .EVRING_PTR => [⟨0, 21, .rw, 0, .i⟩, ⟨32, 21, .ro, 0, .none⟩]
  | .EVRING_DROP => [⟨0, 32, .rc, 0, .none⟩, ⟨32, 13, .ro, 0, .none⟩]
  | .ATT_CTRL => [⟨0, 48, .rw, 0, .l⟩, ⟨48, 2, .rw, 0, .l⟩, ⟨50, 4, .rw, 0, .l⟩, ⟨56, 1, .rw, 0, .i⟩]
  | .ATT_STATUS => [⟨0, 1, .ro, 0, .none⟩, ⟨1, 1, .w1c, 0, .i⟩, ⟨2, 1, .w1c, 0, .i⟩, ⟨4, 4, .ro, 0, .none⟩]
  | .FW_CTRL => [⟨0, 48, .rw, 0, .l⟩, ⟨48, 1, .rw, 0, .l⟩, ⟨49, 1, .rw, 0, .l⟩, ⟨50, 1, .rw, 0, .l⟩]
  | .FW_STATUS => [⟨0, 1, .ro, 0, .none⟩, ⟨1, 1, .ro, 0, .none⟩, ⟨2, 1, .ro, 0, .none⟩, ⟨3, 1, .w1c, 0, .i⟩, ⟨4, 1, .w1c, 0, .i⟩, ⟨8, 4, .ro, 0, .none⟩, ⟨16, 16, .ro, 0, .none⟩, ⟨32, 16, .ro, 0, .none⟩]
  | .MODULE_RESET => [⟨0, 2, .wo, 0, .i⟩, ⟨2, 1, .ro, 0, .none⟩]
  | .MODULE_ID => [⟨0, 4, .ro, 0, .none⟩, ⟨4, 2, .ro, 0, .none⟩, ⟨8, 7, .ro, 0, .none⟩, ⟨16, 8, .ro, 0, .none⟩, ⟨24, 8, .ro, 0, .none⟩, ⟨32, 8, .ro, 0, .none⟩]
  | .MODULE_SERIAL => [⟨0, 64, .ro, 0, .none⟩]
  | .MODULE_STATUS => [⟨0, 4, .ro, 0, .none⟩, ⟨4, 1, .ro, 0, .none⟩, ⟨5, 1, .ro, 0, .none⟩, ⟨6, 1, .ro, 0, .none⟩, ⟨7, 1, .ro, 0, .none⟩, ⟨8, 8, .ro, 0, .none⟩, ⟨16, 2, .ro, 0, .none⟩, ⟨18, 3, .ro, 0, .none⟩, ⟨32, 16, .ro, 0, .none⟩]
  | .POLICY => [⟨0, 1, .rw, 0, .i⟩, ⟨1, 1, .rw, 1, .i⟩, ⟨2, 1, .rw, 0, .i⟩]
  | .DRAY_CH_ACC_CNT _ _ => [⟨0, 48, .ro, 0, .none⟩]
  | .DRAY_CH_CMP_CNT _ _ => [⟨0, 48, .ro, 0, .none⟩]
  | .DRAY_CH_OK_CNT _ _ => [⟨0, 48, .ro, 0, .none⟩]
  | .DRAY_CH_ERR_CNT _ _ => [⟨0, 48, .ro, 0, .none⟩]
  | .DRAY_CH_CAN_CNT _ _ => [⟨0, 48, .ro, 0, .none⟩]
  | .MODULE_VERSIONS => [⟨0, 48, .ro, 0, .none⟩]

/-- Which register of the module-level block lies at an offset. -/
def locateModule (o : Nat) : Option RegId :=
  if o = 0x100 then some .MODULE_LEAD else
  if o = 0x200 then some .FRAME_CFG else
  if o = 0x208 then some .FRAME_STATUS else
  if o = 0x210 then some .FRAME_COUNTS else
  if o = 0x300 then some .JOB_SUBMIT else
  if o = 0x308 then some .JOB_STATUS else
  if o = 0x400 then some .TEAM_CFG else
  if o = 0x408 then some .TEAM_STATUS else
  if o = 0x410 then some .BYPASS else
  if o = 0x310 then some .JOB_CTRL else
  if o = 0x318 then some .IMAGE_CFG else
  if o = 0x320 then some .IMAGE_STATUS else
  if o = 0x1C10 then some .LAMP_PWR else
  if o = 0x1C18 then some .LAMP_CAL else
  if o = 0x2000 then some .MBOX_CMD else
  if o = 0x2008 then some .MBOX_STATUS else
  if o = 0x3000 then some .EVRING_BASE else
  if o = 0x3008 then some .EVRING_CTL else
  if o = 0x3010 then some .EVRING_PTR else
  if o = 0x3018 then some .EVRING_DROP else
  if o = 0x3200 then some .ATT_CTRL else
  if o = 0x3208 then some .ATT_STATUS else
  if o = 0x3100 then some .FW_CTRL else
  if o = 0x3108 then some .FW_STATUS else
  if o = 0x1C28 then some .MODULE_RESET else
  if o = 0x0 then some .MODULE_ID else
  if o = 0x8 then some .MODULE_SERIAL else
  if o = 0x10 then some .MODULE_STATUS else
  if o = 0x1C20 then some .POLICY else
  if o = 0x18 then some .MODULE_VERSIONS else
  if 0x500 ≤ o ∧ o < 0x700 ∧ (o - 0x500) % 0x8 = 0 then some (.FLEET_ROUTE ((o - 0x500) / 0x8)) else
  if 0x1000 ≤ o ∧ o < 0x1200 ∧ (o - 0x1000) % 0x8 = 0 then some (.LAMP_SENSE ((o - 0x1000) / 0x8)) else
  if 0x1200 ≤ o ∧ o < 0x1400 ∧ (o - 0x1200) % 0x8 = 0 then some (.LAMP_FILT ((o - 0x1200) / 0x8)) else
  if 0x1400 ≤ o ∧ o < 0x1C00 ∧ (o - 0x1400) % 0x10 = 0 then some (.LAMP_RULE ((o - 0x1400) / 0x10)) else
  if 0x1408 ≤ o ∧ o < 0x1C08 ∧ (o - 0x1408) % 0x10 = 0 then some (.LAMP_RULE_CTL ((o - 0x1408) / 0x10)) else
  none

/-- Which register of die d lies at an offset of its register block. -/
def locateDie (d o : Nat) : Option RegId :=
  if o = 0x1000 then some (.TT_CTRL d) else
  if o = 0x1100 then some (.PRED_CTRL d) else
  if o = 0x2080 then some (.DEPOT_STATUS d) else
  if o = 0x2088 then some (.DEPOT_COUNT d) else
  if o = 0x3080 then some (.MEM_TAGS d) else
  if o = 0x3100 then some (.ARB_CFG d) else
  if o = 0x1200 then some (.OPT_CFG d) else
  if o = 0x1208 then some (.OPT_CTRL d) else
  if o = 0x1210 then some (.OPT_STATUS d) else
  if o = 0x5000 then some (.LEDGER_STATUS d) else
  if o = 0x5008 then some (.LEDGER_CTRL d) else
  if o = 0x5A00 then some (.MIRROR_CFG d) else
  if o = 0x5A08 then some (.MIRROR_BASE d) else
  if o = 0x5A10 then some (.MIRROR_STATUS d) else
  if o = 0x5900 then some (.EVQ_STATUS d) else
  if 0x100000 ≤ o ∧ o < 0x106308 ∧ (o - 0x100000) % 0x100 = 0 then some (.SEQ_EXC d ((o - 0x100000) / 0x100)) else
  if 0x100008 ≤ o ∧ o < 0x105F10 ∧ (o - 0x100008) % 0x100 = 0 then some (.SEQ_CTRL d ((o - 0x100008) / 0x100)) else
  if 0x200000 ≤ o ∧ o < 0x200340 ∧ (o - 0x200000) % 0x8 = 0 then some (.ARRAY_REPAIR d ((o - 0x200000) / 0x8)) else
  if 0x100010 ≤ o ∧ o < 0x105F18 ∧ (o - 0x100010) % 0x100 = 0 then some (.ACC_STATUS d ((o - 0x100010) / 0x100)) else
  if 0x100080 ≤ o ∧ o < 0x105F88 ∧ (o - 0x100080) % 0x100 = 0 then some (.HARNESS_STATUS d ((o - 0x100080) / 0x100)) else
  if 0x100088 ≤ o ∧ o < 0x105F90 ∧ (o - 0x100088) % 0x100 = 0 then some (.HARNESS_COUNT d ((o - 0x100088) / 0x100)) else
  if 0x100090 ≤ o ∧ o < 0x105F98 ∧ (o - 0x100090) % 0x100 = 0 then some (.HARNESS_CTRL d ((o - 0x100090) / 0x100)) else
  if 0x1000A0 ≤ o ∧ o < 0x105FA8 ∧ (o - 0x1000A0) % 0x100 = 0 then some (.PRED_STATUS d ((o - 0x1000A0) / 0x100)) else
  if 0x1000A8 ≤ o ∧ o < 0x105FB0 ∧ (o - 0x1000A8) % 0x100 = 0 then some (.PRED_COUNT d ((o - 0x1000A8) / 0x100)) else
  if 0x1000B0 ≤ o ∧ o < 0x105FB8 ∧ (o - 0x1000B0) % 0x100 = 0 then some (.SPAD_STAT d ((o - 0x1000B0) / 0x100)) else
  if 0x1000B8 ≤ o ∧ o < 0x105FC0 ∧ (o - 0x1000B8) % 0x100 = 0 then some (.SPAD_PWR d ((o - 0x1000B8) / 0x100)) else
  if 0x2000 ≤ o ∧ o < 0x2080 ∧ (o - 0x2000) % 0x8 = 0 then some (.DEPOT_REGION d ((o - 0x2000) / 0x8)) else
  if 0x3000 ≤ o ∧ o < 0x3080 ∧ (o - 0x3000) % 0x8 = 0 then some (.LPDDR_CH_STATUS d ((o - 0x3000) / 0x8)) else
  if 0x410000 ≤ o ∧ o < 0x4107E8 ∧ (o - 0x410000) % 0x20 = 0 then some (.DRAY_CQ_BASE d ((o - 0x410000) / 0x20)) else
  if 0x410008 ≤ o ∧ o < 0x4107F0 ∧ (o - 0x410008) % 0x20 = 0 then some (.DRAY_CQ_CTL d ((o - 0x410008) / 0x20)) else
  if 0x410010 ≤ o ∧ o < 0x4107F8 ∧ (o - 0x410010) % 0x20 = 0 then some (.DRAY_CQ_PTR d ((o - 0x410010) / 0x20)) else
  if 0x410018 ≤ o ∧ o < 0x410800 ∧ (o - 0x410018) % 0x20 = 0 then some (.DRAY_CQ_QW d ((o - 0x410018) / 0x20)) else
  if 0x400000 ≤ o ∧ o < 0x40CF88 ∧ (o - 0x400000) % 0x80 = 0 then some (.DRAY_CH_STATUS d ((o - 0x400000) / 0x80)) else
  if 0x400008 ≤ o ∧ o < 0x40CF90 ∧ (o - 0x400008) % 0x80 = 0 then some (.DRAY_CH_SRC d ((o - 0x400008) / 0x80)) else
  if 0x400010 ≤ o ∧ o < 0x40CF98 ∧ (o - 0x400010) % 0x80 = 0 then some (.DRAY_CH_DST d ((o - 0x400010) / 0x80)) else
  if 0x400018 ≤ o ∧ o < 0x40CFA0 ∧ (o - 0x400018) % 0x80 = 0 then some (.DRAY_CH_ERR d ((o - 0x400018) / 0x80)) else
  if 0x400020 ≤ o ∧ o < 0x40CFA8 ∧ (o - 0x400020) % 0x80 = 0 then some (.DRAY_CH_SCFG d ((o - 0x400020) / 0x80)) else
  if 0x400050 ≤ o ∧ o < 0x40CFD8 ∧ (o - 0x400050) % 0x80 = 0 then some (.DRAY_CH_SLOTS d ((o - 0x400050) / 0x80)) else
  if 0x400058 ≤ o ∧ o < 0x40CFE0 ∧ (o - 0x400058) % 0x80 = 0 then some (.DRAY_CH_MISS d ((o - 0x400058) / 0x80)) else
  if 0x3108 ≤ o ∧ o < 0x3128 ∧ (o - 0x3108) % 0x8 = 0 then some (.ARB_STAT d ((o - 0x3108) / 0x8)) else
  if 0x600000 ≤ o ∧ o < 0x60FFC8 ∧ (o - 0x600000) % 0x40 = 0 then some (.WORK_CTR_NEXT d ((o - 0x600000) / 0x40)) else
  if 0x600008 ≤ o ∧ o < 0x60FFD0 ∧ (o - 0x600008) % 0x40 = 0 then some (.WORK_CTR_CFG d ((o - 0x600008) / 0x40)) else
  if 0x600010 ≤ o ∧ o < 0x60FFD8 ∧ (o - 0x600010) % 0x40 = 0 then some (.WORK_CTR_TAKES d ((o - 0x600010) / 0x40)) else
  if 0x600018 ≤ o ∧ o < 0x60FFE0 ∧ (o - 0x600018) % 0x40 = 0 then some (.WORK_CTR_BASE d ((o - 0x600018) / 0x40)) else
  if 0x600020 ≤ o ∧ o < 0x60FFE8 ∧ (o - 0x600020) % 0x40 = 0 then some (.WORK_CTR_FRAME d ((o - 0x600020) / 0x40)) else
  if 0x600028 ≤ o ∧ o < 0x60FFF0 ∧ (o - 0x600028) % 0x40 = 0 then some (.WORK_CTR_HELD d ((o - 0x600028) / 0x40)) else
  if 0x600030 ≤ o ∧ o < 0x60FFF8 ∧ (o - 0x600030) % 0x40 = 0 then some (.WORK_CTR_SKIP d ((o - 0x600030) / 0x40)) else
  if 0x600038 ≤ o ∧ o < 0x610000 ∧ (o - 0x600038) % 0x40 = 0 then some (.WORK_CTR_REFUSED d ((o - 0x600038) / 0x40)) else
  if 0x4000 ≤ o ∧ o < 0x4800 ∧ (o - 0x4000) % 0x8 = 0 then some (.RETIRE d ((o - 0x4000) / 0x8)) else
  if 0x500000 ≤ o ∧ o < 0x5000C8 ∧ (o - 0x500000) % 0x40 = 0 then some (.LINK_STATUS d ((o - 0x500000) / 0x40)) else
  if 0x500008 ≤ o ∧ o < 0x5000D0 ∧ (o - 0x500008) % 0x40 = 0 then some (.LINK_CFG d ((o - 0x500008) / 0x40)) else
  if 0x500010 ≤ o ∧ o < 0x5000D8 ∧ (o - 0x500010) % 0x40 = 0 then some (.LINK_COUNT d ((o - 0x500010) / 0x40)) else
  if 0x500018 ≤ o ∧ o < 0x5000E0 ∧ (o - 0x500018) % 0x40 = 0 then some (.LINK_RTT d ((o - 0x500018) / 0x40)) else
  if 0x5100 ≤ o ∧ o < 0x58E8 ∧ (o - 0x5100) % 0x20 = 0 then some (.LEDGER d ((o - 0x5100) / 0x20)) else
  if 0x5108 ≤ o ∧ o < 0x58F0 ∧ (o - 0x5108) % 0x20 = 0 then some (.LEDGER_FRAME d ((o - 0x5108) / 0x20)) else
  if 0x5110 ≤ o ∧ o < 0x58F8 ∧ (o - 0x5110) % 0x20 = 0 then some (.LEDGER_PAY0 d ((o - 0x5110) / 0x20)) else
  if 0x5118 ≤ o ∧ o < 0x5900 ∧ (o - 0x5118) % 0x20 = 0 then some (.LEDGER_PAY1 d ((o - 0x5118) / 0x20)) else
  if 0x400028 ≤ o ∧ o < 0x40CFB0 ∧ (o - 0x400028) % 0x80 = 0 then some (.DRAY_CH_ACC_CNT d ((o - 0x400028) / 0x80)) else
  if 0x400030 ≤ o ∧ o < 0x40CFB8 ∧ (o - 0x400030) % 0x80 = 0 then some (.DRAY_CH_CMP_CNT d ((o - 0x400030) / 0x80)) else
  if 0x400038 ≤ o ∧ o < 0x40CFC0 ∧ (o - 0x400038) % 0x80 = 0 then some (.DRAY_CH_OK_CNT d ((o - 0x400038) / 0x80)) else
  if 0x400040 ≤ o ∧ o < 0x40CFC8 ∧ (o - 0x400040) % 0x80 = 0 then some (.DRAY_CH_ERR_CNT d ((o - 0x400040) / 0x80)) else
  if 0x400048 ≤ o ∧ o < 0x40CFD0 ∧ (o - 0x400048) % 0x80 = 0 then some (.DRAY_CH_CAN_CNT d ((o - 0x400048) / 0x80)) else
  if 0x100040 ≤ o ∧ o < 0x105F80 ∧ (o - 0x100040) % 0x100 < 0x40 ∧ (o - 0x100040) % 0x100 % 0x8 = 0 then some (.ACC_GROUP d ((o - 0x100040) / 0x100) ((o - 0x100040) % 0x100 / 0x8)) else
  if 0x1000C0 ≤ o ∧ o < 0x105FE0 ∧ (o - 0x1000C0) % 0x100 < 0x20 ∧ (o - 0x1000C0) % 0x100 % 0x8 = 0 then some (.SPAD_WIN d ((o - 0x1000C0) / 0x100) ((o - 0x1000C0) % 0x100 / 0x8)) else
  if 0x300000 ≤ o ∧ o < 0x306000 ∧ (o - 0x300000) % 0x100 < 0x100 ∧ (o - 0x300000) % 0x100 % 0x8 = 0 then some (.SPAD_BANK d ((o - 0x300000) / 0x100) ((o - 0x300000) % 0x100 / 0x8)) else
  none

/-- Which register word lies at a module address; `none` where no register of the spec's tables lies. -/
def locateReg (a : Nat) : Option RegId :=
  if 0x030000000000 ≤ a ∧ a < 0x030010000000 then locateModule (a - 0x030000000000)
  else if 0x020000000000 ≤ a ∧ a < 0x020080000000 then
    locateDie ((a - 0x020000000000) / 0x10000000) ((a - 0x020000000000) % 0x10000000)
  else none

/-! The named fields. -/

/-- MODULE_LEAD.LEAD_DIE [2:0], R41. -/
def MODULE_LEAD_LEAD_DIE : FRef := ⟨.MODULE_LEAD, 0, 3⟩
/-- MODULE_LEAD.DIE1_READY [3], R41. -/
def MODULE_LEAD_DIE1_READY : FRef := ⟨.MODULE_LEAD, 3, 1⟩
/-- MODULE_LEAD.TAKEOVER [4], R41. -/
def MODULE_LEAD_TAKEOVER : FRef := ⟨.MODULE_LEAD, 4, 1⟩
/-- MODULE_LEAD.TAKEOVER_EN [8], R41. -/
def MODULE_LEAD_TAKEOVER_EN : FRef := ⟨.MODULE_LEAD, 8, 1⟩
/-- MODULE_LEAD.TAKEOVER_MS [31:16], R41. -/
def MODULE_LEAD_TAKEOVER_MS : FRef := ⟨.MODULE_LEAD, 16, 16⟩
/-- FRAME_CFG.LEN [14:0], R47. -/
def FRAME_CFG_LEN : FRef := ⟨.FRAME_CFG, 0, 15⟩
/-- FRAME_CFG.DISC [16], R47. -/
def FRAME_CFG_DISC : FRef := ⟨.FRAME_CFG, 16, 1⟩
/-- FRAME_CFG.SLIP_LIMIT [23:20], R47. -/
def FRAME_CFG_SLIP_LIMIT : FRef := ⟨.FRAME_CFG, 20, 4⟩
/-- FRAME_CFG.HOLD [27:24], R47. -/
def FRAME_CFG_HOLD : FRef := ⟨.FRAME_CFG, 24, 4⟩
/-- FRAME_STATUS.SEQ [47:0], R48. -/
def FRAME_STATUS_SEQ : FRef := ⟨.FRAME_STATUS, 0, 48⟩
/-- FRAME_STATUS.SLIP_RUN [55:48], R48. -/
def FRAME_STATUS_SLIP_RUN : FRef := ⟨.FRAME_STATUS, 48, 8⟩
/-- FRAME_STATUS.IN_SLIP [56], R48. -/
def FRAME_STATUS_IN_SLIP : FRef := ⟨.FRAME_STATUS, 56, 1⟩
/-- FRAME_COUNTS.OVERRUNS [31:0], R49. -/
def FRAME_COUNTS_OVERRUNS : FRef := ⟨.FRAME_COUNTS, 0, 32⟩
/-- FRAME_COUNTS.SLIPS [63:32], R49. -/
def FRAME_COUNTS_SLIPS : FRef := ⟨.FRAME_COUNTS, 32, 32⟩
/-- TT_CTRL.READY [0], R60. -/
def TT_CTRL_READY (d : Nat) : FRef := ⟨(.TT_CTRL d), 0, 1⟩
/-- TT_CTRL.VALID [1], R60. -/
def TT_CTRL_VALID (d : Nat) : FRef := ⟨(.TT_CTRL d), 1, 1⟩
/-- TT_CTRL.INVALID [2], R60. -/
def TT_CTRL_INVALID (d : Nat) : FRef := ⟨(.TT_CTRL d), 2, 1⟩
/-- TT_CTRL.FAIL_CODE [23:16], R60. -/
def TT_CTRL_FAIL_CODE (d : Nat) : FRef := ⟨(.TT_CTRL d), 16, 8⟩
/-- TT_CTRL.ACTIVE_ID [63:32], R60. -/
def TT_CTRL_ACTIVE_ID (d : Nat) : FRef := ⟨(.TT_CTRL d), 32, 32⟩
/-- JOB_SUBMIT.MANIFEST_ADDR [47:0], R78. -/
def JOB_SUBMIT_MANIFEST_ADDR : FRef := ⟨.JOB_SUBMIT, 0, 48⟩
/-- JOB_SUBMIT.GO [48], R78. -/
def JOB_SUBMIT_GO : FRef := ⟨.JOB_SUBMIT, 48, 1⟩
/-- JOB_STATUS.STATE [1:0], R81. -/
def JOB_STATUS_STATE : FRef := ⟨.JOB_STATUS, 0, 2⟩
/-- JOB_STATUS.REFUSED [2], R81. -/
def JOB_STATUS_REFUSED : FRef := ⟨.JOB_STATUS, 2, 1⟩
/-- JOB_STATUS.REFUSE_CODE [15:8], R81. -/
def JOB_STATUS_REFUSE_CODE : FRef := ⟨.JOB_STATUS, 8, 8⟩
/-- JOB_STATUS.JOB_ID [63:32], R81. -/
def JOB_STATUS_JOB_ID : FRef := ⟨.JOB_STATUS, 32, 32⟩
/-- SEQ_EXC.CAUSE [7:0], R133. -/
def SEQ_EXC_CAUSE (d c : Nat) : FRef := ⟨(.SEQ_EXC d c), 0, 8⟩
/-- SEQ_EXC.VALID [8], R133. -/
def SEQ_EXC_VALID (d c : Nat) : FRef := ⟨(.SEQ_EXC d c), 8, 1⟩
/-- SEQ_EXC.UNIT [15:12], R133. -/
def SEQ_EXC_UNIT (d c : Nat) : FRef := ⟨(.SEQ_EXC d c), 12, 4⟩
/-- SEQ_EXC.PC [35:16], R133. -/
def SEQ_EXC_PC (d c : Nat) : FRef := ⟨(.SEQ_EXC d c), 16, 20⟩
/-- SEQ_EXC.ITEM [38:36], R133. -/
def SEQ_EXC_ITEM (d c : Nat) : FRef := ⟨(.SEQ_EXC d c), 36, 3⟩
/-- SEQ_EXC.COUNT [63:48], R133. -/
def SEQ_EXC_COUNT (d c : Nat) : FRef := ⟨(.SEQ_EXC d c), 48, 16⟩
/-- SEQ_CTRL.REPLAY_MAX [1:0], R134. -/
def SEQ_CTRL_REPLAY_MAX (d c : Nat) : FRef := ⟨(.SEQ_CTRL d c), 0, 2⟩
/-- SEQ_CTRL.RETIRE_EN [8], R134. -/
def SEQ_CTRL_RETIRE_EN (d c : Nat) : FRef := ⟨(.SEQ_CTRL d c), 8, 1⟩
/-- SEQ_CTRL.RETIRED [63:16], R134. -/
def SEQ_CTRL_RETIRED (d c : Nat) : FRef := ⟨(.SEQ_CTRL d c), 16, 48⟩
/-- ARRAY_REPAIR.A0_ROWS [1:0], R167. -/
def ARRAY_REPAIR_A0_ROWS (d p : Nat) : FRef := ⟨(.ARRAY_REPAIR d p), 0, 2⟩
/-- ARRAY_REPAIR.A0_COLS [3:2], R167. -/
def ARRAY_REPAIR_A0_COLS (d p : Nat) : FRef := ⟨(.ARRAY_REPAIR d p), 2, 2⟩
/-- ARRAY_REPAIR.A1_ROWS [5:4], R167. -/
def ARRAY_REPAIR_A1_ROWS (d p : Nat) : FRef := ⟨(.ARRAY_REPAIR d p), 4, 2⟩
/-- ARRAY_REPAIR.A1_COLS [7:6], R167. -/
def ARRAY_REPAIR_A1_COLS (d p : Nat) : FRef := ⟨(.ARRAY_REPAIR d p), 6, 2⟩
/-- ARRAY_REPAIR.DISABLED [8], R167. -/
def ARRAY_REPAIR_DISABLED (d p : Nat) : FRef := ⟨(.ARRAY_REPAIR d p), 8, 1⟩
/-- ARRAY_REPAIR.SURPLUS [9], R167. -/
def ARRAY_REPAIR_SURPLUS (d p : Nat) : FRef := ⟨(.ARRAY_REPAIR d p), 9, 1⟩
/-- ARRAY_REPAIR.LOGICAL [22:16], R167. -/
def ARRAY_REPAIR_LOGICAL (d p : Nat) : FRef := ⟨(.ARRAY_REPAIR d p), 16, 7⟩
/-- ACC_STATUS.OPEN [7:0], R189. -/
def ACC_STATUS_OPEN (d c : Nat) : FRef := ⟨(.ACC_STATUS d c), 0, 8⟩
/-- ACC_STATUS.OVF [15:8], R189. -/
def ACC_STATUS_OVF (d c : Nat) : FRef := ⟨(.ACC_STATUS d c), 8, 8⟩
/-- ACC_STATUS.BX [23:16], R189. -/
def ACC_STATUS_BX (d c : Nat) : FRef := ⟨(.ACC_STATUS d c), 16, 8⟩
/-- ACC_STATUS.STRICT [31:24], R189. -/
def ACC_STATUS_STRICT (d c : Nat) : FRef := ⟨(.ACC_STATUS d c), 24, 8⟩
/-- ACC_STATUS.ABANDONED [47:32], R189. -/
def ACC_STATUS_ABANDONED (d c : Nat) : FRef := ⟨(.ACC_STATUS d c), 32, 16⟩
/-- ACC_GROUP.COUNT [24:0], R190. -/
def ACC_GROUP_COUNT (d c g : Nat) : FRef := ⟨(.ACC_GROUP d c g), 0, 25⟩
/-- ACC_GROUP.UNIT [26:25], R190. -/
def ACC_GROUP_UNIT (d c g : Nat) : FRef := ⟨(.ACC_GROUP d c g), 25, 2⟩
/-- ACC_GROUP.ACC [28:27], R190. -/
def ACC_GROUP_ACC (d c g : Nat) : FRef := ⟨(.ACC_GROUP d c g), 27, 2⟩
/-- ACC_GROUP.HELD [29], R190. -/
def ACC_GROUP_HELD (d c g : Nat) : FRef := ⟨(.ACC_GROUP d c g), 29, 1⟩
/-- ACC_GROUP.TILE [30], R190. -/
def ACC_GROUP_TILE (d c g : Nat) : FRef := ⟨(.ACC_GROUP d c g), 30, 1⟩
/-- ACC_GROUP.OVF [31], R190. -/
def ACC_GROUP_OVF (d c g : Nat) : FRef := ⟨(.ACC_GROUP d c g), 31, 1⟩
/-- ACC_GROUP.BX [32], R190. -/
def ACC_GROUP_BX (d c g : Nat) : FRef := ⟨(.ACC_GROUP d c g), 32, 1⟩
/-- HARNESS_STATUS.CLAMPED [15:0], R221. -/
def HARNESS_STATUS_CLAMPED (d c : Nat) : FRef := ⟨(.HARNESS_STATUS d c), 0, 16⟩
/-- HARNESS_STATUS.MERGE_DROP [31:16], R221. -/
def HARNESS_STATUS_MERGE_DROP (d c : Nat) : FRef := ⟨(.HARNESS_STATUS d c), 16, 16⟩
/-- HARNESS_STATUS.CHECK_FAIL [47:32], R221. -/
def HARNESS_STATUS_CHECK_FAIL (d c : Nat) : FRef := ⟨(.HARNESS_STATUS d c), 32, 16⟩
/-- HARNESS_STATUS.BUSY [48], R221. -/
def HARNESS_STATUS_BUSY (d c : Nat) : FRef := ⟨(.HARNESS_STATUS d c), 48, 1⟩
/-- HARNESS_COUNT.KEPT [31:0], R222. -/
def HARNESS_COUNT_KEPT (d c : Nat) : FRef := ⟨(.HARNESS_COUNT d c), 0, 32⟩
/-- HARNESS_COUNT.SKIPPED [63:32], R222. -/
def HARNESS_COUNT_SKIPPED (d c : Nat) : FRef := ⟨(.HARNESS_COUNT d c), 32, 32⟩
/-- HARNESS_CTRL.CLAMP_EV [0], R223. -/
def HARNESS_CTRL_CLAMP_EV (d c : Nat) : FRef := ⟨(.HARNESS_CTRL d c), 0, 1⟩
/-- PRED_STATUS.NAN [15:0], R257. -/
def PRED_STATUS_NAN (d c : Nat) : FRef := ⟨(.PRED_STATUS d c), 0, 16⟩
/-- PRED_STATUS.CAPPED [31:16], R257. -/
def PRED_STATUS_CAPPED (d c : Nat) : FRef := ⟨(.PRED_STATUS d c), 16, 16⟩
/-- PRED_STATUS.DROPPED [47:32], R257. -/
def PRED_STATUS_DROPPED (d c : Nat) : FRef := ⟨(.PRED_STATUS d c), 32, 16⟩
/-- PRED_STATUS.BUSY [48], R257. -/
def PRED_STATUS_BUSY (d c : Nat) : FRef := ⟨(.PRED_STATUS d c), 48, 1⟩
/-- PRED_COUNT.KEPT [31:0], R258. -/
def PRED_COUNT_KEPT (d c : Nat) : FRef := ⟨(.PRED_COUNT d c), 0, 32⟩
/-- PRED_COUNT.SCORED [63:32], R258. -/
def PRED_COUNT_SCORED (d c : Nat) : FRef := ⟨(.PRED_COUNT d c), 32, 32⟩
/-- PRED_CTRL.MODE [0], R259. -/
def PRED_CTRL_MODE (d : Nat) : FRef := ⟨(.PRED_CTRL d), 0, 1⟩
/-- PRED_CTRL.FORCE_LP [1], R259. -/
def PRED_CTRL_FORCE_LP (d : Nat) : FRef := ⟨(.PRED_CTRL d), 1, 1⟩
/-- PRED_CTRL.SWITCHES [47:16], R259. -/
def PRED_CTRL_SWITCHES (d : Nat) : FRef := ⟨(.PRED_CTRL d), 16, 32⟩
/-- SPAD_WIN.BASE [19:0], R285. -/
def SPAD_WIN_BASE (d c w : Nat) : FRef := ⟨(.SPAD_WIN d c w), 0, 20⟩
/-- SPAD_WIN.BOUND [39:20], R285. -/
def SPAD_WIN_BOUND (d c w : Nat) : FRef := ⟨(.SPAD_WIN d c w), 20, 20⟩
/-- SPAD_WIN.RD [40], R285. -/
def SPAD_WIN_RD (d c w : Nat) : FRef := ⟨(.SPAD_WIN d c w), 40, 1⟩
/-- SPAD_WIN.WR [41], R285. -/
def SPAD_WIN_WR (d c w : Nat) : FRef := ⟨(.SPAD_WIN d c w), 41, 1⟩
/-- SPAD_WIN.EX [42], R285. -/
def SPAD_WIN_EX (d c w : Nat) : FRef := ⟨(.SPAD_WIN d c w), 42, 1⟩
/-- SPAD_STAT.COLLIDE [15:0], R288. -/
def SPAD_STAT_COLLIDE (d c : Nat) : FRef := ⟨(.SPAD_STAT d c), 0, 16⟩
/-- SPAD_STAT.PARITY [31:16], R288. -/
def SPAD_STAT_PARITY (d c : Nat) : FRef := ⟨(.SPAD_STAT d c), 16, 16⟩
/-- SPAD_STAT.AGED [47:32], R288. -/
def SPAD_STAT_AGED (d c : Nat) : FRef := ⟨(.SPAD_STAT d c), 32, 16⟩
/-- SPAD_STAT.RSV [53:48], R288. -/
def SPAD_STAT_RSV (d c : Nat) : FRef := ⟨(.SPAD_STAT d c), 48, 6⟩
/-- SPAD_STAT.BORROW [55:54], R288. -/
def SPAD_STAT_BORROW (d c : Nat) : FRef := ⟨(.SPAD_STAT d c), 54, 2⟩
/-- SPAD_BANK.WAITED [31:0], R289. -/
def SPAD_BANK_WAITED (d c b : Nat) : FRef := ⟨(.SPAD_BANK d c b), 0, 32⟩
/-- SPAD_BANK.SERVED [63:32], R289. -/
def SPAD_BANK_SERVED (d c b : Nat) : FRef := ⟨(.SPAD_BANK d c b), 32, 32⟩
/-- SPAD_PWR.OFF [23:0], R291. -/
def SPAD_PWR_OFF (d c : Nat) : FRef := ⟨(.SPAD_PWR d c), 0, 24⟩
/-- SPAD_PWR.READY [55:32], R291. -/
def SPAD_PWR_READY (d c : Nat) : FRef := ⟨(.SPAD_PWR d c), 32, 24⟩
/-- DEPOT_REGION.FIRST [4:0], R294. -/
def DEPOT_REGION_FIRST (d k : Nat) : FRef := ⟨(.DEPOT_REGION d k), 0, 5⟩
/-- DEPOT_REGION.COUNT [10:5], R294. -/
def DEPOT_REGION_COUNT (d k : Nat) : FRef := ⟨(.DEPOT_REGION d k), 5, 6⟩
/-- DEPOT_REGION.KIND [12:11], R294. -/
def DEPOT_REGION_KIND (d k : Nat) : FRef := ⟨(.DEPOT_REGION d k), 11, 2⟩
/-- DEPOT_REGION.LO [23:16], R294. -/
def DEPOT_REGION_LO (d k : Nat) : FRef := ⟨(.DEPOT_REGION d k), 16, 8⟩
/-- DEPOT_REGION.LIMIT [31:24], R294. -/
def DEPOT_REGION_LIMIT (d k : Nat) : FRef := ⟨(.DEPOT_REGION d k), 24, 8⟩
/-- DEPOT_STATUS.REPLAY [15:0], R300. -/
def DEPOT_STATUS_REPLAY (d : Nat) : FRef := ⟨(.DEPOT_STATUS d), 0, 16⟩
/-- DEPOT_STATUS.REFETCH [23:16], R300. -/
def DEPOT_STATUS_REFETCH (d : Nat) : FRef := ⟨(.DEPOT_STATUS d), 16, 8⟩
/-- DEPOT_STATUS.UNCORR [31:24], R300. -/
def DEPOT_STATUS_UNCORR (d : Nat) : FRef := ⟨(.DEPOT_STATUS d), 24, 8⟩
/-- DEPOT_STATUS.REPART [32], R300. -/
def DEPOT_STATUS_REPART (d : Nat) : FRef := ⟨(.DEPOT_STATUS d), 32, 1⟩
/-- DEPOT_COUNT.HITS [31:0], R300. -/
def DEPOT_COUNT_HITS (d : Nat) : FRef := ⟨(.DEPOT_COUNT d), 0, 32⟩
/-- DEPOT_COUNT.MISSES [63:32], R300. -/
def DEPOT_COUNT_MISSES (d : Nat) : FRef := ⟨(.DEPOT_COUNT d), 32, 32⟩
/-- LPDDR_CH_STATUS.LINK_RETRY [15:0], R305. -/
def LPDDR_CH_STATUS_LINK_RETRY (d ch : Nat) : FRef := ⟨(.LPDDR_CH_STATUS d ch), 0, 16⟩
/-- LPDDR_CH_STATUS.REREAD [31:16], R305. -/
def LPDDR_CH_STATUS_REREAD (d ch : Nat) : FRef := ⟨(.LPDDR_CH_STATUS d ch), 16, 16⟩
/-- LPDDR_CH_STATUS.MIRROR [47:32], R305. -/
def LPDDR_CH_STATUS_MIRROR (d ch : Nat) : FRef := ⟨(.LPDDR_CH_STATUS d ch), 32, 16⟩
/-- LPDDR_CH_STATUS.RETRAIN [55:48], R305. -/
def LPDDR_CH_STATUS_RETRAIN (d ch : Nat) : FRef := ⟨(.LPDDR_CH_STATUS d ch), 48, 8⟩
/-- LPDDR_CH_STATUS.FAILED [56], R305. -/
def LPDDR_CH_STATUS_FAILED (d ch : Nat) : FRef := ⟨(.LPDDR_CH_STATUS d ch), 56, 1⟩
/-- MEM_TAGS.IN_USE [14:0], R308. -/
def MEM_TAGS_IN_USE (d : Nat) : FRef := ⟨(.MEM_TAGS d), 0, 15⟩
/-- MEM_TAGS.PEAK [30:16], R308. -/
def MEM_TAGS_PEAK (d : Nat) : FRef := ⟨(.MEM_TAGS d), 16, 15⟩
/-- MEM_TAGS.FULL [63:32], R308. -/
def MEM_TAGS_FULL (d : Nat) : FRef := ⟨(.MEM_TAGS d), 32, 32⟩
/-- DRAY_CQ_BASE.BASE [47:0], R331. -/
def DRAY_CQ_BASE_BASE (d q : Nat) : FRef := ⟨(.DRAY_CQ_BASE d q), 0, 48⟩
/-- DRAY_CQ_CTL.LOG2 [4:0], R331. -/
def DRAY_CQ_CTL_LOG2 (d q : Nat) : FRef := ⟨(.DRAY_CQ_CTL d q), 0, 5⟩
/-- DRAY_CQ_CTL.EN [8], R331. -/
def DRAY_CQ_CTL_EN (d q : Nat) : FRef := ⟨(.DRAY_CQ_CTL d q), 8, 1⟩
/-- DRAY_CQ_PTR.HEAD [16:0], R331. -/
def DRAY_CQ_PTR_HEAD (d q : Nat) : FRef := ⟨(.DRAY_CQ_PTR d q), 0, 17⟩
/-- DRAY_CQ_PTR.TAIL [48:32], R331. -/
def DRAY_CQ_PTR_TAIL (d q : Nat) : FRef := ⟨(.DRAY_CQ_PTR d q), 32, 17⟩
/-- DRAY_CQ_QW.QW [47:0], R331. -/
def DRAY_CQ_QW_QW (d q : Nat) : FRef := ⟨(.DRAY_CQ_QW d q), 0, 48⟩
/-- DRAY_CH_STATUS.STATE [2:0], R338. -/
def DRAY_CH_STATUS_STATE (d n : Nat) : FRef := ⟨(.DRAY_CH_STATUS d n), 0, 3⟩
/-- DRAY_CH_STATUS.INPROG [8:4], R338. -/
def DRAY_CH_STATUS_INPROG (d n : Nat) : FRef := ⟨(.DRAY_CH_STATUS d n), 4, 5⟩
/-- DRAY_CH_STATUS.HOLD [19:10], R338. -/
def DRAY_CH_STATUS_HOLD (d n : Nat) : FRef := ⟨(.DRAY_CH_STATUS d n), 10, 10⟩
/-- DRAY_CH_STATUS.RETRY [21:20], R338. -/
def DRAY_CH_STATUS_RETRY (d n : Nat) : FRef := ⟨(.DRAY_CH_STATUS d n), 20, 2⟩
/-- DRAY_CH_STATUS.CODE [31:24], R338. -/
def DRAY_CH_STATUS_CODE (d n : Nat) : FRef := ⟨(.DRAY_CH_STATUS d n), 24, 8⟩
/-- DRAY_CH_STATUS.SEQ [63:32], R338. -/
def DRAY_CH_STATUS_SEQ (d n : Nat) : FRef := ⟨(.DRAY_CH_STATUS d n), 32, 32⟩
/-- DRAY_CH_SRC.SRC_IDX [47:0], R338. -/
def DRAY_CH_SRC_SRC_IDX (d n : Nat) : FRef := ⟨(.DRAY_CH_SRC d n), 0, 48⟩
/-- DRAY_CH_DST.DST_IDX [47:0], R338. -/
def DRAY_CH_DST_DST_IDX (d n : Nat) : FRef := ⟨(.DRAY_CH_DST d n), 0, 48⟩
/-- DRAY_CH_ERR.ERR_ADDR [47:0], R338. -/
def DRAY_CH_ERR_ERR_ADDR (d n : Nat) : FRef := ⟨(.DRAY_CH_ERR d n), 0, 48⟩
/-- DRAY_CH_ERR.ERR_KIND [49:48], R338. -/
def DRAY_CH_ERR_ERR_KIND (d n : Nat) : FRef := ⟨(.DRAY_CH_ERR d n), 48, 2⟩
/-- DRAY_CH_SCFG.PAIR [7:0], R339. -/
def DRAY_CH_SCFG_PAIR (d n : Nat) : FRef := ⟨(.DRAY_CH_SCFG d n), 0, 8⟩
/-- DRAY_CH_SCFG.CORE [14:8], R339. -/
def DRAY_CH_SCFG_CORE (d n : Nat) : FRef := ⟨(.DRAY_CH_SCFG d n), 8, 7⟩
/-- DRAY_CH_SCFG.BIND [15], R339. -/
def DRAY_CH_SCFG_BIND (d n : Nat) : FRef := ⟨(.DRAY_CH_SCFG d n), 15, 1⟩
/-- DRAY_CH_SCFG.PERIOD [39:16], R339. -/
def DRAY_CH_SCFG_PERIOD (d n : Nat) : FRef := ⟨(.DRAY_CH_SCFG d n), 16, 24⟩
/-- DRAY_CH_SLOTS.FREE [12:0], R341. -/
def DRAY_CH_SLOTS_FREE (d n : Nat) : FRef := ⟨(.DRAY_CH_SLOTS d n), 0, 13⟩
/-- DRAY_CH_SLOTS.FILL [28:16], R341. -/
def DRAY_CH_SLOTS_FILL (d n : Nat) : FRef := ⟨(.DRAY_CH_SLOTS d n), 16, 13⟩
/-- DRAY_CH_SLOTS.FULL [44:32], R341. -/
def DRAY_CH_SLOTS_FULL (d n : Nat) : FRef := ⟨(.DRAY_CH_SLOTS d n), 32, 13⟩
/-- DRAY_CH_SLOTS.DRAIN [60:48], R341. -/
def DRAY_CH_SLOTS_DRAIN (d n : Nat) : FRef := ⟨(.DRAY_CH_SLOTS d n), 48, 13⟩
/-- DRAY_CH_MISS.MISSES [31:0], R342. -/
def DRAY_CH_MISS_MISSES (d n : Nat) : FRef := ⟨(.DRAY_CH_MISS d n), 0, 32⟩
/-- DRAY_CH_MISS.QSTALL [63:32], R342. -/
def DRAY_CH_MISS_QSTALL (d n : Nat) : FRef := ⟨(.DRAY_CH_MISS d n), 32, 32⟩
/-- ARB_CFG.QUOTA [7:0], R354. -/
def ARB_CFG_QUOTA (d : Nat) : FRef := ⟨(.ARB_CFG d), 0, 8⟩
/-- ARB_CFG.WINDOW [15:8], R354. -/
def ARB_CFG_WINDOW (d : Nat) : FRef := ⟨(.ARB_CFG d), 8, 8⟩
/-- ARB_STAT.STALE [31:0], R355. -/
def ARB_STAT_STALE (d g : Nat) : FRef := ⟨(.ARB_STAT d g), 0, 32⟩
/-- ARB_STAT.QMASK [63:32], R355. -/
def ARB_STAT_QMASK (d g : Nat) : FRef := ⟨(.ARB_STAT d g), 32, 32⟩
/-- WORK_CTR_NEXT.NEXT [31:0], R373. -/
def WORK_CTR_NEXT_NEXT (d k : Nat) : FRef := ⟨(.WORK_CTR_NEXT d k), 0, 32⟩
/-- WORK_CTR_NEXT.LIMIT [63:32], R373. -/
def WORK_CTR_NEXT_LIMIT (d k : Nat) : FRef := ⟨(.WORK_CTR_NEXT d k), 32, 32⟩
/-- WORK_CTR_CFG.MT [15:0], R373. -/
def WORK_CTR_CFG_MT (d k : Nat) : FRef := ⟨(.WORK_CTR_CFG d k), 0, 16⟩
/-- WORK_CTR_CFG.TROWS [19:16], R373. -/
def WORK_CTR_CFG_TROWS (d k : Nat) : FRef := ⟨(.WORK_CTR_CFG d k), 16, 4⟩
/-- WORK_CTR_TAKES.TAKES [47:0], R373. -/
def WORK_CTR_TAKES_TAKES (d k : Nat) : FRef := ⟨(.WORK_CTR_TAKES d k), 0, 48⟩
/-- WORK_CTR_BASE.BASE [47:0], R373. -/
def WORK_CTR_BASE_BASE (d k : Nat) : FRef := ⟨(.WORK_CTR_BASE d k), 0, 48⟩
/-- WORK_CTR_FRAME.DONE [31:0], R373. -/
def WORK_CTR_FRAME_DONE (d k : Nat) : FRef := ⟨(.WORK_CTR_FRAME d k), 0, 32⟩
/-- WORK_CTR_FRAME.RET [63:32], R373. -/
def WORK_CTR_FRAME_RET (d k : Nat) : FRef := ⟨(.WORK_CTR_FRAME d k), 32, 32⟩
/-- WORK_CTR_HELD.HELD [15:0], R373. -/
def WORK_CTR_HELD_HELD (d k : Nat) : FRef := ⟨(.WORK_CTR_HELD d k), 0, 16⟩
/-- WORK_CTR_HELD.RLIST [31:16], R373. -/
def WORK_CTR_HELD_RLIST (d k : Nat) : FRef := ⟨(.WORK_CTR_HELD d k), 16, 16⟩
/-- WORK_CTR_SKIP.SKIPPED [31:0], R373. -/
def WORK_CTR_SKIP_SKIPPED (d k : Nat) : FRef := ⟨(.WORK_CTR_SKIP d k), 0, 32⟩
/-- WORK_CTR_SKIP.LATE_WR [63:32], R373. -/
def WORK_CTR_SKIP_LATE_WR (d k : Nat) : FRef := ⟨(.WORK_CTR_SKIP d k), 32, 32⟩
/-- WORK_CTR_REFUSED.REFUSED [47:0], R373. -/
def WORK_CTR_REFUSED_REFUSED (d k : Nat) : FRef := ⟨(.WORK_CTR_REFUSED d k), 0, 48⟩
/-- OPT_CFG.LIMITSQ [31:0], R385. -/
def OPT_CFG_LIMITSQ (d : Nat) : FRef := ⟨(.OPT_CFG d), 0, 32⟩
/-- OPT_CFG.INTERVAL [47:32], R385. -/
def OPT_CFG_INTERVAL (d : Nat) : FRef := ⟨(.OPT_CFG d), 32, 16⟩
/-- OPT_CTRL.NORMSQ [31:0], R386. -/
def OPT_CTRL_NORMSQ (d : Nat) : FRef := ⟨(.OPT_CTRL d), 0, 32⟩
/-- OPT_CTRL.ARM [32], R386. -/
def OPT_CTRL_ARM (d : Nat) : FRef := ⟨(.OPT_CTRL d), 32, 1⟩
/-- OPT_CTRL.CLOSE [33], R386. -/
def OPT_CTRL_CLOSE (d : Nat) : FRef := ⟨(.OPT_CTRL d), 33, 1⟩
/-- OPT_CTRL.HOLD [34], R386. -/
def OPT_CTRL_HOLD (d : Nat) : FRef := ⟨(.OPT_CTRL d), 34, 1⟩
/-- OPT_STATUS.WINDOW [1:0], R387. -/
def OPT_STATUS_WINDOW (d : Nat) : FRef := ⟨(.OPT_STATUS d), 0, 2⟩
/-- OPT_STATUS.HELD [2], R387. -/
def OPT_STATUS_HELD (d : Nat) : FRef := ⟨(.OPT_STATUS d), 2, 1⟩
/-- OPT_STATUS.SKIPPED [3], R387. -/
def OPT_STATUS_SKIPPED (d : Nat) : FRef := ⟨(.OPT_STATUS d), 3, 1⟩
/-- OPT_STATUS.PENDING [28:16], R387. -/
def OPT_STATUS_PENDING (d : Nat) : FRef := ⟨(.OPT_STATUS d), 16, 13⟩
/-- OPT_STATUS.SKIPS [63:32], R387. -/
def OPT_STATUS_SKIPS (d : Nat) : FRef := ⟨(.OPT_STATUS d), 32, 32⟩
/-- RETIRE.ADDR [47:0], R408. -/
def RETIRE_ADDR (d k : Nat) : FRef := ⟨(.RETIRE d k), 0, 48⟩
/-- RETIRE.VALID [48], R408. -/
def RETIRE_VALID (d k : Nat) : FRef := ⟨(.RETIRE d k), 48, 1⟩
/-- LINK_STATUS.PORT [3:0], R422. -/
def LINK_STATUS_PORT (d l : Nat) : FRef := ⟨(.LINK_STATUS d l), 0, 4⟩
/-- LINK_STATUS.INDEX [4], R422. -/
def LINK_STATUS_INDEX (d l : Nat) : FRef := ⟨(.LINK_STATUS d l), 4, 1⟩
/-- LINK_STATUS.STATE [7:5], R422. -/
def LINK_STATUS_STATE (d l : Nat) : FRef := ⟨(.LINK_STATUS d l), 5, 3⟩
/-- LINK_STATUS.ACTIVE [12:8], R422. -/
def LINK_STATUS_ACTIVE (d l : Nat) : FRef := ⟨(.LINK_STATUS d l), 8, 5⟩
/-- LINK_STATUS.SPARES [14:13], R422. -/
def LINK_STATUS_SPARES (d l : Nat) : FRef := ⟨(.LINK_STATUS d l), 13, 2⟩
/-- LINK_STATUS.VER [23:16], R422. -/
def LINK_STATUS_VER (d l : Nat) : FRef := ⟨(.LINK_STATUS d l), 16, 8⟩
/-- LINK_CFG.CT [12:0], R422. -/
def LINK_CFG_CT (d l : Nat) : FRef := ⟨(.LINK_CFG d l), 0, 13⟩
/-- LINK_CFG.ENABLE [13], R422. -/
def LINK_CFG_ENABLE (d l : Nat) : FRef := ⟨(.LINK_CFG d l), 13, 1⟩
/-- LINK_CFG.SPARE_THR [23:16], R422. -/
def LINK_CFG_SPARE_THR (d l : Nat) : FRef := ⟨(.LINK_CFG d l), 16, 8⟩
/-- LINK_COUNT.REPLAYS [15:0], R422. -/
def LINK_COUNT_REPLAYS (d l : Nat) : FRef := ⟨(.LINK_COUNT d l), 0, 16⟩
/-- LINK_COUNT.CRC_ERR [31:16], R422. -/
def LINK_COUNT_CRC_ERR (d l : Nat) : FRef := ⟨(.LINK_COUNT d l), 16, 16⟩
/-- LINK_COUNT.RETRAINS [39:32], R422. -/
def LINK_COUNT_RETRAINS (d l : Nat) : FRef := ⟨(.LINK_COUNT d l), 32, 8⟩
/-- LINK_COUNT.SPARED [47:40], R422. -/
def LINK_COUNT_SPARED (d l : Nat) : FRef := ⟨(.LINK_COUNT d l), 40, 8⟩
/-- LINK_RTT.RTT [31:0], R422. -/
def LINK_RTT_RTT (d l : Nat) : FRef := ⟨(.LINK_RTT d l), 0, 32⟩
/-- FLEET_ROUTE.SLOT [3:0], R438. -/
def FLEET_ROUTE_SLOT (t : Nat) : FRef := ⟨(.FLEET_ROUTE t), 0, 4⟩
/-- FLEET_ROUTE.PORT [5:4], R438. -/
def FLEET_ROUTE_PORT (t : Nat) : FRef := ⟨(.FLEET_ROUTE t), 4, 2⟩
/-- FLEET_ROUTE.VALID [7], R438. -/
def FLEET_ROUTE_VALID (t : Nat) : FRef := ⟨(.FLEET_ROUTE t), 7, 1⟩
/-- TEAM_CFG.TEAM [5:0], R439. -/
def TEAM_CFG_TEAM : FRef := ⟨.TEAM_CFG, 0, 6⟩
/-- TEAM_CFG.SIZE [10:6], R439. -/
def TEAM_CFG_SIZE : FRef := ⟨.TEAM_CFG, 6, 5⟩
/-- TEAM_CFG.SPARE [11], R439. -/
def TEAM_CFG_SPARE : FRef := ⟨.TEAM_CFG, 11, 1⟩
/-- TEAM_CFG.ARM [16], R439. -/
def TEAM_CFG_ARM : FRef := ⟨.TEAM_CFG, 16, 1⟩
/-- TEAM_STATUS.STATE [1:0], R440. -/
def TEAM_STATUS_STATE : FRef := ⟨.TEAM_STATUS, 0, 2⟩
/-- TEAM_STATUS.SLOT [5:2], R440. -/
def TEAM_STATUS_SLOT : FRef := ⟨.TEAM_STATUS, 2, 4⟩
/-- TEAM_STATUS.POS [9:6], R440. -/
def TEAM_STATUS_POS : FRef := ⟨.TEAM_STATUS, 6, 4⟩
/-- TEAM_STATUS.COACH [13:10], R440. -/
def TEAM_STATUS_COACH : FRef := ⟨.TEAM_STATUS, 10, 4⟩
/-- TEAM_STATUS.LINE [14], R440. -/
def TEAM_STATUS_LINE : FRef := ⟨.TEAM_STATUS, 14, 1⟩
/-- TEAM_STATUS.STRAP [15], R440. -/
def TEAM_STATUS_STRAP : FRef := ⟨.TEAM_STATUS, 15, 1⟩
/-- TEAM_STATUS.MEMBERS [31:16], R440. -/
def TEAM_STATUS_MEMBERS : FRef := ⟨.TEAM_STATUS, 16, 16⟩
/-- TEAM_STATUS.TVER [39:32], R440. -/
def TEAM_STATUS_TVER : FRef := ⟨.TEAM_STATUS, 32, 8⟩
/-- BYPASS.CLOSED [0], R445. -/
def BYPASS_CLOSED : FRef := ⟨.BYPASS, 0, 1⟩
/-- BYPASS.CLOSE [1], R445. -/
def BYPASS_CLOSE : FRef := ⟨.BYPASS, 1, 1⟩
/-- BYPASS.CAUSE [4:2], R445. -/
def BYPASS_CAUSE : FRef := ⟨.BYPASS, 2, 3⟩
/-- BYPASS.CLOSINGS [31:16], R445. -/
def BYPASS_CLOSINGS : FRef := ⟨.BYPASS, 16, 16⟩
/-- LEDGER.NUMBER [15:0], R451. -/
def LEDGER_NUMBER (d e : Nat) : FRef := ⟨(.LEDGER d e), 0, 16⟩
/-- LEDGER.LEVEL [19:16], R451. -/
def LEDGER_LEVEL (d e : Nat) : FRef := ⟨(.LEDGER d e), 16, 4⟩
/-- LEDGER.ELEVEL [23:20], R451. -/
def LEDGER_ELEVEL (d e : Nat) : FRef := ⟨(.LEDGER d e), 20, 4⟩
/-- LEDGER.DIE [26:24], R451. -/
def LEDGER_DIE (d e : Nat) : FRef := ⟨(.LEDGER d e), 24, 3⟩
/-- LEDGER.INSTANCE [47:32], R451. -/
def LEDGER_INSTANCE (d e : Nat) : FRef := ⟨(.LEDGER d e), 32, 16⟩
/-- LEDGER.UNIT [55:48], R451. -/
def LEDGER_UNIT (d e : Nat) : FRef := ⟨(.LEDGER d e), 48, 8⟩
/-- LEDGER.CORE [63:56], R451. -/
def LEDGER_CORE (d e : Nat) : FRef := ⟨(.LEDGER d e), 56, 8⟩
/-- LEDGER_FRAME.FRAME [47:0], R451. -/
def LEDGER_FRAME_FRAME (d e : Nat) : FRef := ⟨(.LEDGER_FRAME d e), 0, 48⟩
/-- LEDGER_FRAME.STATE [51:48], R451. -/
def LEDGER_FRAME_STATE (d e : Nat) : FRef := ⟨(.LEDGER_FRAME d e), 48, 4⟩
/-- LEDGER_FRAME.MERGED [63:52], R451. -/
def LEDGER_FRAME_MERGED (d e : Nat) : FRef := ⟨(.LEDGER_FRAME d e), 52, 12⟩
/-- LEDGER_PAY0.PAYLOAD0 [63:0], R451. -/
def LEDGER_PAY0_PAYLOAD0 (d e : Nat) : FRef := ⟨(.LEDGER_PAY0 d e), 0, 64⟩
/-- LEDGER_PAY1.PAYLOAD1 [63:0], R451. -/
def LEDGER_PAY1_PAYLOAD1 (d e : Nat) : FRef := ⟨(.LEDGER_PAY1 d e), 0, 64⟩
/-- LEDGER_STATUS.OPEN [6:0], R457. -/
def LEDGER_STATUS_OPEN (d : Nat) : FRef := ⟨(.LEDGER_STATUS d), 0, 7⟩
/-- LEDGER_STATUS.FULL [7], R457. -/
def LEDGER_STATUS_FULL (d : Nat) : FRef := ⟨(.LEDGER_STATUS d), 7, 1⟩
/-- LEDGER_STATUS.ACTIVE [13:8], R457. -/
def LEDGER_STATUS_ACTIVE (d : Nat) : FRef := ⟨(.LEDGER_STATUS d), 8, 6⟩
/-- LEDGER_STATUS.ACT_VALID [14], R457. -/
def LEDGER_STATUS_ACT_VALID (d : Nat) : FRef := ⟨(.LEDGER_STATUS d), 14, 1⟩
/-- LEDGER_STATUS.ESCAL [31:16], R457. -/
def LEDGER_STATUS_ESCAL (d : Nat) : FRef := ⟨(.LEDGER_STATUS d), 16, 16⟩
/-- LEDGER_STATUS.ABSORBED [47:32], R457. -/
def LEDGER_STATUS_ABSORBED (d : Nat) : FRef := ⟨(.LEDGER_STATUS d), 32, 16⟩
/-- LEDGER_STATUS.DROPPED0 [63:48], R457. -/
def LEDGER_STATUS_DROPPED0 (d : Nat) : FRef := ⟨(.LEDGER_STATUS d), 48, 16⟩
/-- LEDGER_CTRL.INDEX [5:0], R457. -/
def LEDGER_CTRL_INDEX (d : Nat) : FRef := ⟨(.LEDGER_CTRL d), 0, 6⟩
/-- LEDGER_CTRL.CMD [7:6], R457. -/
def LEDGER_CTRL_CMD (d : Nat) : FRef := ⟨(.LEDGER_CTRL d), 6, 2⟩
/-- MIRROR_CFG.EN [0], R467. -/
def MIRROR_CFG_EN (d : Nat) : FRef := ⟨(.MIRROR_CFG d), 0, 1⟩
/-- MIRROR_CFG.BUDDY_POS [7:4], R467. -/
def MIRROR_CFG_BUDDY_POS (d : Nat) : FRef := ⟨(.MIRROR_CFG d), 4, 4⟩
/-- MIRROR_CFG.BUDDY_DIE [10:8], R467. -/
def MIRROR_CFG_BUDDY_DIE (d : Nat) : FRef := ⟨(.MIRROR_CFG d), 8, 3⟩
/-- MIRROR_BASE.BASE [47:0], R467. -/
def MIRROR_BASE_BASE (d : Nat) : FRef := ⟨(.MIRROR_BASE d), 0, 48⟩
/-- MIRROR_STATUS.CURRENT [0], R467. -/
def MIRROR_STATUS_CURRENT (d : Nat) : FRef := ⟨(.MIRROR_STATUS d), 0, 1⟩
/-- MIRROR_STATUS.HOLDING [1], R467. -/
def MIRROR_STATUS_HOLDING (d : Nat) : FRef := ⟨(.MIRROR_STATUS d), 1, 1⟩
/-- MIRROR_STATUS.WRITES [47:16], R467. -/
def MIRROR_STATUS_WRITES (d : Nat) : FRef := ⟨(.MIRROR_STATUS d), 16, 32⟩
/-- JOB_CTRL.RESUME [0], R472. -/
def JOB_CTRL_RESUME : FRef := ⟨.JOB_CTRL, 0, 1⟩
/-- JOB_CTRL.END [1], R472. -/
def JOB_CTRL_END : FRef := ⟨.JOB_CTRL, 1, 1⟩
/-- JOB_CTRL.IMAGE [2], R472. -/
def JOB_CTRL_IMAGE : FRef := ⟨.JOB_CTRL, 2, 1⟩
/-- JOB_CTRL.RESTORE [3], R472. -/
def JOB_CTRL_RESTORE : FRef := ⟨.JOB_CTRL, 3, 1⟩
/-- IMAGE_CFG.OFFSET [36:0], R472. -/
def IMAGE_CFG_OFFSET : FRef := ⟨.IMAGE_CFG, 0, 37⟩
/-- IMAGE_STATUS.SEQ [47:0], R472. -/
def IMAGE_STATUS_SEQ : FRef := ⟨.IMAGE_STATUS, 0, 48⟩
/-- IMAGE_STATUS.VALID [48], R472. -/
def IMAGE_STATUS_VALID : FRef := ⟨.IMAGE_STATUS, 48, 1⟩
/-- IMAGE_STATUS.BUSY [49], R472. -/
def IMAGE_STATUS_BUSY : FRef := ⟨.IMAGE_STATUS, 49, 1⟩
/-- LAMP_SENSE.RAW [15:0], R482. -/
def LAMP_SENSE_RAW (ch : Nat) : FRef := ⟨(.LAMP_SENSE ch), 0, 16⟩
/-- LAMP_SENSE.FILT [31:16], R482. -/
def LAMP_SENSE_FILT (ch : Nat) : FRef := ⟨(.LAMP_SENSE ch), 16, 16⟩
/-- LAMP_SENSE.PRESENT [32], R482. -/
def LAMP_SENSE_PRESENT (ch : Nat) : FRef := ⟨(.LAMP_SENSE ch), 32, 1⟩
/-- LAMP_SENSE.FAULT [33], R482. -/
def LAMP_SENSE_FAULT (ch : Nat) : FRef := ⟨(.LAMP_SENSE ch), 33, 1⟩
/-- LAMP_FILT.KIND [1:0], R484. -/
def LAMP_FILT_KIND (ch : Nat) : FRef := ⟨(.LAMP_FILT ch), 0, 2⟩
/-- LAMP_FILT.K [5:2], R484. -/
def LAMP_FILT_K (ch : Nat) : FRef := ⟨(.LAMP_FILT ch), 2, 4⟩
/-- LAMP_FILT.W [7:6], R484. -/
def LAMP_FILT_W (ch : Nat) : FRef := ⟨(.LAMP_FILT ch), 6, 2⟩
/-- LAMP_FILT.N [15:8], R484. -/
def LAMP_FILT_N (ch : Nat) : FRef := ⟨(.LAMP_FILT ch), 8, 8⟩
/-- LAMP_RULE.CH [5:0], R486. -/
def LAMP_RULE_CH (r : Nat) : FRef := ⟨(.LAMP_RULE r), 0, 6⟩
/-- LAMP_RULE.DIR [6], R486. -/
def LAMP_RULE_DIR (r : Nat) : FRef := ⟨(.LAMP_RULE r), 6, 1⟩
/-- LAMP_RULE.THRESH [23:8], R486. -/
def LAMP_RULE_THRESH (r : Nat) : FRef := ⟨(.LAMP_RULE r), 8, 16⟩
/-- LAMP_RULE.HYST [39:24], R486. -/
def LAMP_RULE_HYST (r : Nat) : FRef := ⟨(.LAMP_RULE r), 24, 16⟩
/-- LAMP_RULE.DWELL [55:40], R486. -/
def LAMP_RULE_DWELL (r : Nat) : FRef := ⟨(.LAMP_RULE r), 40, 16⟩
/-- LAMP_RULE_CTL.EN [0], R486. -/
def LAMP_RULE_CTL_EN (r : Nat) : FRef := ⟨(.LAMP_RULE_CTL r), 0, 1⟩
/-- LAMP_RULE_CTL.LOCK [1], R486. -/
def LAMP_RULE_CTL_LOCK (r : Nat) : FRef := ⟨(.LAMP_RULE_CTL r), 1, 1⟩
/-- LAMP_RULE_CTL.ACT [7:2], R486. -/
def LAMP_RULE_CTL_ACT (r : Nat) : FRef := ⟨(.LAMP_RULE_CTL r), 2, 6⟩
/-- LAMP_RULE_CTL.CAP [12:8], R486. -/
def LAMP_RULE_CTL_CAP (r : Nat) : FRef := ⟨(.LAMP_RULE_CTL r), 8, 5⟩
/-- LAMP_RULE_CTL.TRIPS [31:16], R486. -/
def LAMP_RULE_CTL_TRIPS (r : Nat) : FRef := ⟨(.LAMP_RULE_CTL r), 16, 16⟩
/-- LAMP_RULE_CTL.TRIPPED [32], R486. -/
def LAMP_RULE_CTL_TRIPPED (r : Nat) : FRef := ⟨(.LAMP_RULE_CTL r), 32, 1⟩
/-- LAMP_PWR.STATE [1:0], R493. -/
def LAMP_PWR_STATE : FRef := ⟨.LAMP_PWR, 0, 2⟩
/-- LAMP_PWR.REQ [3:2], R493. -/
def LAMP_PWR_REQ : FRef := ⟨.LAMP_PWR, 2, 2⟩
/-- LAMP_PWR.BUSY [4], R493. -/
def LAMP_PWR_BUSY : FRef := ⟨.LAMP_PWR, 4, 1⟩
/-- LAMP_PWR.REFUSED [5], R493. -/
def LAMP_PWR_REFUSED : FRef := ⟨.LAMP_PWR, 5, 1⟩
/-- LAMP_PWR.CAP [12:8], R493. -/
def LAMP_PWR_CAP : FRef := ⟨.LAMP_PWR, 8, 5⟩
/-- LAMP_PWR.TEAM_CAP [20:16], R493. -/
def LAMP_PWR_TEAM_CAP : FRef := ⟨.LAMP_PWR, 16, 5⟩
/-- LAMP_PWR.TELEM [31:24], R493. -/
def LAMP_PWR_TELEM : FRef := ⟨.LAMP_PWR, 24, 8⟩
/-- LAMP_CAL.SECONDS [47:0], R494. -/
def LAMP_CAL_SECONDS : FRef := ⟨.LAMP_CAL, 0, 48⟩
/-- LAMP_CAL.SYNCED [48], R494. -/
def LAMP_CAL_SYNCED : FRef := ⟨.LAMP_CAL, 48, 1⟩
/-- MBOX_CMD.CMD [7:0], R499. -/
def MBOX_CMD_CMD : FRef := ⟨.MBOX_CMD, 0, 8⟩
/-- MBOX_CMD.ARG [31:16], R499. -/
def MBOX_CMD_ARG : FRef := ⟨.MBOX_CMD, 16, 16⟩
/-- MBOX_STATUS.BUSY [0], R499. -/
def MBOX_STATUS_BUSY : FRef := ⟨.MBOX_STATUS, 0, 1⟩
/-- MBOX_STATUS.DONE [1], R499. -/
def MBOX_STATUS_DONE : FRef := ⟨.MBOX_STATUS, 1, 1⟩
/-- MBOX_STATUS.ERR [2], R499. -/
def MBOX_STATUS_ERR : FRef := ⟨.MBOX_STATUS, 2, 1⟩
/-- EVQ_STATUS.LEVEL [10:0], R504. -/
def EVQ_STATUS_LEVEL (d : Nat) : FRef := ⟨(.EVQ_STATUS d), 0, 11⟩
/-- EVQ_STATUS.FULL_CYC [47:16], R504. -/
def EVQ_STATUS_FULL_CYC (d : Nat) : FRef := ⟨(.EVQ_STATUS d), 16, 32⟩
/-- EVRING_BASE.BASE [47:0], R505. -/
def EVRING_BASE_BASE : FRef := ⟨.EVRING_BASE, 0, 48⟩
/-- EVRING_CTL.LOG2 [4:0], R505. -/
def EVRING_CTL_LOG2 : FRef := ⟨.EVRING_CTL, 0, 5⟩
/-- EVRING_CTL.EN [8], R505. -/
def EVRING_CTL_EN : FRef := ⟨.EVRING_CTL, 8, 1⟩
/-- EVRING_PTR.HEAD [20:0], R505. -/
def EVRING_PTR_HEAD : FRef := ⟨.EVRING_PTR, 0, 21⟩
/-- EVRING_PTR.TAIL [52:32], R505. -/
def EVRING_PTR_TAIL : FRef := ⟨.EVRING_PTR, 32, 21⟩
/-- EVRING_DROP.DROPPED [31:0], R505. -/
def EVRING_DROP_DROPPED : FRef := ⟨.EVRING_DROP, 0, 32⟩
/-- EVRING_DROP.HELD [44:32], R505. -/
def EVRING_DROP_HELD : FRef := ⟨.EVRING_DROP, 32, 13⟩
/-- ATT_CTRL.ADDR [47:0], R514. -/
def ATT_CTRL_ADDR : FRef := ⟨.ATT_CTRL, 0, 48⟩
/-- ATT_CTRL.OP [49:48], R514. -/
def ATT_CTRL_OP : FRef := ⟨.ATT_CTRL, 48, 2⟩
/-- ATT_CTRL.MR [53:50], R514. -/
def ATT_CTRL_MR : FRef := ⟨.ATT_CTRL, 50, 4⟩
/-- ATT_CTRL.GO [56], R514. -/
def ATT_CTRL_GO : FRef := ⟨.ATT_CTRL, 56, 1⟩
/-- ATT_STATUS.BUSY [0], R514. -/
def ATT_STATUS_BUSY : FRef := ⟨.ATT_STATUS, 0, 1⟩
/-- ATT_STATUS.DONE [1], R514. -/
def ATT_STATUS_DONE : FRef := ⟨.ATT_STATUS, 1, 1⟩
/-- ATT_STATUS.ERROR [2], R514. -/
def ATT_STATUS_ERROR : FRef := ⟨.ATT_STATUS, 2, 1⟩
/-- ATT_STATUS.CODE [7:4], R514. -/
def ATT_STATUS_CODE : FRef := ⟨.ATT_STATUS, 4, 4⟩
/-- FW_CTRL.SRC [47:0], R518. -/
def FW_CTRL_SRC : FRef := ⟨.FW_CTRL, 0, 48⟩
/-- FW_CTRL.GO [48], R518. -/
def FW_CTRL_GO : FRef := ⟨.FW_CTRL, 48, 1⟩
/-- FW_CTRL.COMMIT [49], R518. -/
def FW_CTRL_COMMIT : FRef := ⟨.FW_CTRL, 49, 1⟩
/-- FW_CTRL.ARB [50], R518. -/
def FW_CTRL_ARB : FRef := ⟨.FW_CTRL, 50, 1⟩
/-- FW_STATUS.RUNNING [0], R518. -/
def FW_STATUS_RUNNING : FRef := ⟨.FW_STATUS, 0, 1⟩
/-- FW_STATUS.TRIAL [1], R518. -/
def FW_STATUS_TRIAL : FRef := ⟨.FW_STATUS, 1, 1⟩
/-- FW_STATUS.BUSY [2], R518. -/
def FW_STATUS_BUSY : FRef := ⟨.FW_STATUS, 2, 1⟩
/-- FW_STATUS.DONE [3], R518. -/
def FW_STATUS_DONE : FRef := ⟨.FW_STATUS, 3, 1⟩
/-- FW_STATUS.FAIL [4], R518. -/
def FW_STATUS_FAIL : FRef := ⟨.FW_STATUS, 4, 1⟩
/-- FW_STATUS.STAGE [11:8], R518. -/
def FW_STATUS_STAGE : FRef := ⟨.FW_STATUS, 8, 4⟩
/-- FW_STATUS.ARB_CTR [31:16], R518. -/
def FW_STATUS_ARB_CTR : FRef := ⟨.FW_STATUS, 16, 16⟩
/-- FW_STATUS.SVN [47:32], R518. -/
def FW_STATUS_SVN : FRef := ⟨.FW_STATUS, 32, 16⟩
/-- MODULE_RESET.KIND [1:0], R531. -/
def MODULE_RESET_KIND : FRef := ⟨.MODULE_RESET, 0, 2⟩
/-- MODULE_RESET.BUSY [2], R531. -/
def MODULE_RESET_BUSY : FRef := ⟨.MODULE_RESET, 2, 1⟩
/-- MODULE_ID.DIES [3:0], R533. -/
def MODULE_ID_DIES : FRef := ⟨.MODULE_ID, 0, 4⟩
/-- MODULE_ID.GRADE [5:4], R533. -/
def MODULE_ID_GRADE : FRef := ⟨.MODULE_ID, 4, 2⟩
/-- MODULE_ID.CORES [14:8], R533. -/
def MODULE_ID_CORES : FRef := ⟨.MODULE_ID, 8, 7⟩
/-- MODULE_ID.CHANNELS [23:16], R533. -/
def MODULE_ID_CHANNELS : FRef := ⟨.MODULE_ID, 16, 8⟩
/-- MODULE_ID.STEPPING [31:24], R533. -/
def MODULE_ID_STEPPING : FRef := ⟨.MODULE_ID, 24, 8⟩
/-- MODULE_ID.ROM [39:32], R533. -/
def MODULE_ID_ROM : FRef := ⟨.MODULE_ID, 32, 8⟩
/-- MODULE_SERIAL.SERIAL [63:0], R533. -/
def MODULE_SERIAL_SERIAL : FRef := ⟨.MODULE_SERIAL, 0, 64⟩
/-- MODULE_STATUS.STAGE [3:0], R534. -/
def MODULE_STATUS_STAGE : FRef := ⟨.MODULE_STATUS, 0, 4⟩
/-- MODULE_STATUS.READY [4], R534. -/
def MODULE_STATUS_READY : FRef := ⟨.MODULE_STATUS, 4, 1⟩
/-- MODULE_STATUS.UNTESTED [5], R534. -/
def MODULE_STATUS_UNTESTED : FRef := ⟨.MODULE_STATUS, 5, 1⟩
/-- MODULE_STATUS.SERVICE [6], R534. -/
def MODULE_STATUS_SERVICE : FRef := ⟨.MODULE_STATUS, 6, 1⟩
/-- MODULE_STATUS.OWNER_STATE [7], R534. -/
def MODULE_STATUS_OWNER_STATE : FRef := ⟨.MODULE_STATUS, 7, 1⟩
/-- MODULE_STATUS.DIE_FAILED [15:8], R534. -/
def MODULE_STATUS_DIE_FAILED : FRef := ⟨.MODULE_STATUS, 8, 8⟩
/-- MODULE_STATUS.LAST [17:16], R534. -/
def MODULE_STATUS_LAST : FRef := ⟨.MODULE_STATUS, 16, 2⟩
/-- MODULE_STATUS.CAUSE [20:18], R534. -/
def MODULE_STATUS_CAUSE : FRef := ⟨.MODULE_STATUS, 18, 3⟩
/-- MODULE_STATUS.BOOT_MS [47:32], R534. -/
def MODULE_STATUS_BOOT_MS : FRef := ⟨.MODULE_STATUS, 32, 16⟩
/-- POLICY.ALLOW_UNTESTED [0], R536. -/
def POLICY_ALLOW_UNTESTED : FRef := ⟨.POLICY, 0, 1⟩
/-- POLICY.AUTO_ON [1], R536. -/
def POLICY_AUTO_ON : FRef := ⟨.POLICY, 1, 1⟩
/-- POLICY.HOLD_SERVICE [2], R536. -/
def POLICY_HOLD_SERVICE : FRef := ⟨.POLICY, 2, 1⟩
/-- DRAY_CH_ACC_CNT.ACC [47:0], R340. -/
def DRAY_CH_ACC_CNT_ACC (d n : Nat) : FRef := ⟨(.DRAY_CH_ACC_CNT d n), 0, 48⟩
/-- DRAY_CH_CMP_CNT.CMP [47:0], R340. -/
def DRAY_CH_CMP_CNT_CMP (d n : Nat) : FRef := ⟨(.DRAY_CH_CMP_CNT d n), 0, 48⟩
/-- DRAY_CH_OK_CNT.OK [47:0], R340. -/
def DRAY_CH_OK_CNT_OK (d n : Nat) : FRef := ⟨(.DRAY_CH_OK_CNT d n), 0, 48⟩
/-- DRAY_CH_ERR_CNT.ERR [47:0], R340. -/
def DRAY_CH_ERR_CNT_ERR (d n : Nat) : FRef := ⟨(.DRAY_CH_ERR_CNT d n), 0, 48⟩
/-- DRAY_CH_CAN_CNT.CAN [47:0], R340. -/
def DRAY_CH_CAN_CNT_CAN (d n : Nat) : FRef := ⟨(.DRAY_CH_CAN_CNT d n), 0, 48⟩
/-- MODULE_VERSIONS.V [47:0], R537. -/
def MODULE_VERSIONS_V : FRef := ⟨.MODULE_VERSIONS, 0, 48⟩

end Sys2Proof.Machine
end

