-- ==== Sys2Proof/Machine/Table.lean ====
section
/-! DEFINITION. Sparse tables and byte memories: lists keyed by a natural number, in rising order of the key. -/

namespace Sys2Proof.Machine

/-- A table of things by index: entries in strictly rising order of the index; an unlisted index holds the table's
default, which the reader of the table names. -/
abbrev Tab (α : Type) := List (Nat × α)

/-- The entry at index `k`, or the default `d`. -/
def tabGet {α : Type} (t : Tab α) (k : Nat) (d : α) : α :=
  match t with
  | [] => d
  | (j, v) :: r => if j = k then v else tabGet r k d

/-- The table with `v` at index `k`. -/
def tabSet {α : Type} (t : Tab α) (k : Nat) (v : α) : Tab α :=
  match t with
  | [] => [(k, v)]
  | (j, w) :: r =>
    if k < j then (k, v) :: (j, w) :: r
    else if k = j then (k, v) :: r
    else (j, w) :: tabSet r k v

/-- The table without index `k`. -/
def tabDel {α : Type} (t : Tab α) (k : Nat) : Tab α :=
  match t with
  | [] => []
  | (j, w) :: r => if j = k then tabDel r k else (j, w) :: tabDel r k

/-- The keys of a table rise strictly. -/
def tabWf {α : Type} (t : Tab α) : Bool :=
  match t with
  | [] => true
  | [_] => true
  | (j, _) :: (k, w) :: r => decide (j < k) && tabWf ((k, w) :: r)

/-- A byte memory: address and byte pairs, addresses strictly rising, none equal to what an unlisted address reads as. -/
abbrev Memory := List Host.Cell

/-- The byte at address `a` of a memory whose unlisted addresses read `dflt`. -/
def cellRead (dflt : Byte) (m : Memory) (a : Nat) : Byte := tabGet m a dflt

/-- The memory with byte `b` at address `a`; writing the default removes the entry. -/
def cellWrite (dflt : Byte) (m : Memory) (a : Nat) (b : Byte) : Memory :=
  if b = dflt then tabDel m a else tabSet m a b

/-- The canonical form of a memory: addresses strictly rising, no entry equal to the default. -/
def Memory.wf (dflt : Byte) (m : Memory) : Bool := tabWf m && m.all (fun c => decide (c.2 ≠ dflt))

/-- `n` bytes from address `a` upward. -/
def cellsRead (dflt : Byte) (m : Memory) (a n : Nat) : List Byte :=
  match n with
  | 0 => []
  | n + 1 => cellRead dflt m a :: cellsRead dflt m (a + 1) n

/-- The bytes `bs` written from address `a` upward. -/
def cellsWrite (dflt : Byte) (m : Memory) (a : Nat) (bs : List Byte) : Memory :=
  match bs with
  | [] => m
  | b :: r => cellsWrite dflt (cellWrite dflt m a b) (a + 1) r

end Sys2Proof.Machine
end

