-- ==== Sys2Proof/Machine/State.lean ====
section
/-! DEFINITION. The state of the EQ8 module as plain data, its faults and refusals, and the state after reset.
INVENTORY.md lists every piece with the rule that names it and its reset value. -/

namespace Sys2Proof.Machine

/-- Reasons a step can fault. The spec gives every command an effect, so no command of this model faults. -/
inductive Fault where
  /-- Kept for the interface: raised by no command. Safe. -/
  | none
  deriving DecidableEq, Repr

/-- Reasons a step can be refused. -/
inductive Refusal where
  /-- A command whose meaning is not written, by the mnemonic of its row. Raised only by an arm of `exec`. Safe. -/
  | notModelled (mnemonic : String)
  deriving DecidableEq, Repr

/-- A list of things by register word, in the order first set; an unlisted register holds its default. -/
abbrev Assoc (α : Type) := List (RegId × α)

/-- A pending or armed write of F-class fields of one register word: the bits written and their values (R75). -/
structure PendW where
  mask : Word
  val : Word
  deriving DecidableEq, Repr

/-- Fuses and straps (R165 to R167, R428, R510, R533, R545). `repair` holds the ARRAY_REPAIR words that differ from those
of a die without repair; `stepping` and `rom` are those of each die, by die. The link and team protocol versions that the module supports
(R424) stand here too, and the four root-key digests (R510) and the image header format of the ROM (R509). -/
structure Fuses where
  dies : Nat
  gradeC : Bool
  stepping : Tab (BitVec 8)
  rom : Tab (BitVec 8)
  serial : BitVec 64
  slot : BitVec 4
  coach : Bool
  repair : Tab Word
  rootRevoked : BitVec 4
  secretOk : Bool
  linkMin : BitVec 8
  linkMax : BitVec 8
  teamMin : BitVec 8
  teamMax : BitVec 8
  rootDigests : List (List Byte)
  headerFormat : Nat
  deriving DecidableEq, Repr

/-- A declared semaphore pair: total T, HELD_fe and INFL_fe (R117, R118). -/
structure Pair where
  total : Nat
  held : Nat
  infl : Nat
  deriving DecidableEq, Repr

/-- A work entry of a Timetable (R62). -/
structure WorkEntry where
  core : Nat
  item : Nat
  flags : Nat
  entry : Nat
  first : Nat
  count : Nat
  counter : Nat
  rsv : Nat
  out : List Nat
  arg : Nat
  deriving DecidableEq, Repr

/-- The dispatched operations (R89, R124, R125). -/
inductive UOp where
  | drayGo | drayPause | drayResume | drayCancel | drayStat
  | mma | mvp | ewa | vop | hand | hmerge | hcheck | pred | updAdam | digest
  deriving DecidableEq, Repr

/-- An entry of a unit's instruction queue with its captured operands (R91, R104, R474 section 3). `item` is the key of the
work item that dispatched it, `words` its three instruction words as they stood at its fetch, `late` the counter whose lease its item held when that
returned (R377). -/
structure QEntry where
  op : UOp
  item : Option Nat
  pc : Nat
  t : FmtT
  x : FmtX
  wait : Word
  post : Word
  tdd : Td
  tda : Td
  tdb : Td
  tdc : Td
  ss : Word
  seed : Word
  words : List Word
  late : Option Nat
  deriving DecidableEq, Repr

/-- An event of the catalogue (R478) with its source (R451), the frame it was raised in and its payload (R553). `level` is 0 to 4, 0xF for N; `star` marks
the level 1*. -/
structure Ev where
  num : Nat
  level : Nat
  star : Bool
  die : Nat
  core : Nat
  unit : Nat
  inst : Nat
  frame : Nat
  pay0 : Word
  pay1 : Word
  deriving DecidableEq, Repr

/-- What completion does to the accumulation group of an instruction (R145, R176, R185, R188): whether it closes, whether a
sum saturated, and the accumulator tile it then holds. -/
structure GroupEnd where
  g : Nat
  close : Bool
  ovf : Bool
  held : Option Nat
  deriving DecidableEq, Repr

/-- What a started instruction holds back until it completes (R128): bytes by core-space offset, its effect on its group,
additions to counters (saturating fields of registers), events, and its stated count of cycles
(R108). -/
structure Result where
  writes : List (Nat × Byte)
  group : Option GroupEnd
  counts : List (FRef × Nat)
  events : List Ev
  cycles : Nat
  deriving DecidableEq, Repr

/-- The stationary operand that an array holds, as loaded: its element codes by row, and the scale bytes of each column (R150,
R171). -/
structure Stationary where
  els : List (List Nat)
  scales : List (List Nat)
  deriving DecidableEq, Repr

/-- A started instruction of a unit: its entry, its result, the replays it has had, the cycle it started in, counted from the last tick, and the
memory as it stood then (R110). -/
structure Running where
  e : QEntry
  res : Result
  replays : Nat
  start : Int
  before : Memory
  deriving DecidableEq, Repr

/-- An accumulation group (R185 to R190): whether it is open, the unit, ACC, STRICT, M and N recorded at opening, the
count of R180, the flags, and the accumulator tiles held, the one that its last instruction named first. -/
structure Group where
  isOpen : Bool
  unit : Nat
  acc : Nat
  strict : Bool
  m : Nat
  n : Nat
  count : Nat
  ovf : Bool
  bx : Bool
  held : List Nat
  deriving DecidableEq, Repr

/-- A LEASE.TAKE operation at a counter (R121, R372, R376): the counter, the item whose run sent it, none once that run is over, its work entry and RUNLEN. -/
structure Take where
  ctr : Nat
  item : Option Nat
  entry : WorkEntry
  runlen : Word
  deriving DecidableEq, Repr

/-- What a stalled sequencer waits for (R107, R116, R121, R123, R132). -/
inductive Blocked where
  | none
  | semWait (sem count : Nat)
  | leaseTake (k sd : Nat) (runlen : Word)
  | leaseDone (tile pd : Nat)
  | queueFull (unit : Nat) (e : QEntry)
  | tickWait (sd : Nat)
  deriving DecidableEq, Repr

/-- The registers a parked item keeps (R123). -/
structure Ctx where
  pc : Word
  s : Tab Word
  td : Tab Td
  p : BitVec 8
  runlen : Word
  seed : Word
  groups : Tab Group
  sd : Nat
  deriving DecidableEq, Repr

/-- Where a work item stands (R98 to R100, R121 to R123, R129). -/
inductive ItemSt where
  | waiting | running | ended | complete | parked | stopped | aborted
  deriving DecidableEq, Repr

/-- What a work item used in a frame (R85): the channels it issued to, the semaphores it named, those it posted to, and the links and ports its transfers
crossed. -/
structure Use where
  chans : List Nat
  sems : List Nat
  posts : List Nat
  links : List Nat
  deriving DecidableEq, Repr

/-- A work item of a core. `leases` are the tiles in its lease table, `done` the tiles it reported done in its frame,
`returned` the tiles it held that returned at a tick; `retAll` says that all it held have returned. `charged` and `hard` say that an event of level 1 or higher, and one other
than a 1* event, stands charged to it (R56, R552); `faulted` that a program fault stopped it (R130); `lost` that
some of its leases returned; `redo` and `back`, decided at the tick, that it runs again and that its done tiles are taken back (R552); `start` the frame in which it first started; `due` that the applied Timetable has an entry for it while it is parked.
`use` is what it used since the last tick, `last` what it used in the frame before. -/
structure Item where
  entry : WorkEntry
  st : ItemSt
  runCore : Nat
  frame : Nat
  overrun : Bool
  rerun : Bool
  leases : List Nat
  done : List Nat
  returned : List Nat
  retAll : Bool
  charged : Bool
  hard : Bool
  faulted : Bool
  redo : Bool
  back : Bool
  use : Use
  last : Use
  lost : Bool
  start : Option Nat
  due : Bool
  ctx : Option Ctx
  deriving DecidableEq, Repr

/-- A semaphore post in transit (R118, R120). `sender` is coded as in R553; a dropped post is discarded on arrival (R85). `chan`
is the key of the channel whose stream credit the post returns (R345, R346). -/
structure Post where
  src : Nat
  dst : Nat
  seq : Nat
  sem : Nat
  count : Nat
  sender : Nat
  tag : Nat
  chan : Option Nat
  dropped : Bool
  deriving DecidableEq, Repr

/-- A core sequencer with its units (R88 to R92), or a control core (R93). `pc` holds the 20 bits of the program counter; a
branch target beyond them stands there until its fetch faults (R113; log entry 17). a scalar or descriptor register that `s` or `td` does not list holds 0;
bit i of `p` is predicate pi. `takes` are LEASE.TAKE operations at a counter (R121, R372, R376). `queues` and `running` are by unit index. `resident` is the descriptor of the stationary tile of
each array and `stat` its contents. `kept` holds the open groups of each item that is parked here (R186). `excRest` and `excSs` are words 1 and 2 and
the captured SS of a dispatched instruction that faulted (R134). -/
structure Core where
  pc : Word
  s : Tab Word
  td : Tab Td
  p : BitVec 8
  runlen : Word
  seed : Word
  sem : Tab Nat
  pairs : Tab Pair
  cur : Option Nat
  blocked : Blocked
  takes : List Take
  parked : Bool
  fenced : Bool
  heldFull : Bool
  closings : List Nat
  queues : Tab (List QEntry)
  running : Tab Running
  groups : Tab Group
  kept : Tab (Tab Group)
  resident : Tab Td
  stat : Tab Stationary
  rsv : Tab Nat
  borrow : Tab Nat
  excWord : Word
  excOps : List Td
  excRest : List Word
  excSs : Word
  powering : BitVec 24
  deriving DecidableEq, Repr

/-- The states of a Dray channel (R338). -/
inductive ChSt where
  | idle | running | paused | halted
  deriving DecidableEq, Repr

/-- What a channel has read of the structure at AUX (R321, R323): whether its DF is set, its row pointers, and the entries of each row: block columns of a BL
list, or in one row the present blocks of a mask. -/
structure AuxList where
  df : Bool
  rp : List Nat
  rows : List (List Nat)
  deriving DecidableEq, Repr

/-- An accepted descriptor (R310, R312, R315, R325). `raw` is its eight words, `seq` the ACC count at acceptance, `owner` the
item and `by_` the sequencer that issued it, `post` its post list. `rd`, `ret`, `wi` and `wr` count the reads it issued, the reads that
returned, the writes it issued and the writes accepted; `hold` is its part of the holding register, `tile` the bytes in its tile stage, `flags` the presence of
the blocks read so far, `phase` the part of a tile operation it is in and `tix` its tile or block, `plan` the writes of that part still to be made, `sent` those
issued to another module and not accepted. `aux` is what it has read at AUX. `gap` tells that the read that `ret` counts to has failed and is to be issued
again, and `ahead` holds the data of the reads after it (R332); `again` are writes to another module that have failed so. `late` names the counter whose lease its item held when it
returned (R377). `prior` tells that its item has run again since. `status` is the STATUS and CODE of a record that is due. -/
structure DRun where
  raw : List Word
  seq : Nat
  owner : Option Nat
  by_ : Nat
  post : Word
  frame : Nat
  started : Bool
  credit : Bool
  stage : Bool
  rd : Nat
  ret : Nat
  wi : Nat
  wr : Nat
  hold : List Byte
  tile : List Byte
  flags : List Bool
  phase : Nat
  tix : Nat
  plan : List (Nat × List Byte)
  sent : List (Nat × List Byte)
  aux : Option AuxList
  gap : Bool
  ahead : List (List Byte)
  again : List (Nat × List Byte)
  accessed : Bool
  readBack : Bool
  bytes : Nat
  lastAddr : Nat
  late : Option Nat
  prior : Bool
  status : Option (Nat × Nat)
  deriving DecidableEq, Repr

/-- A Dray channel (R309, R310, R332 to R348): accepted descriptors, head first. `failed` is the SEQ of the one whose access has halted the channel, and
`failIdx` the count of that access. -/
structure Chan where
  st : ChSt
  q : List DRun
  retry : Nat
  code : Nat
  errAddr : Nat
  errKind : Nat
  failed : Option Nat
  failIdx : Nat
  waitCredit : Bool
  waitStage : Bool
  streamBad : Bool
  fill : Nat
  lastDone : Bool
  missed : Bool
  lastAcc : Option Nat
  paused : Bool
  evHeld : Bool
  deriving DecidableEq, Repr

/-- A line of the Depot cache: its tag, whether it is dirty or marked bad (R296, R299). -/
structure CLine where
  tag : Nat
  dirty : Bool
  bad : Bool
  deriving DecidableEq, Repr

/-- A set of the Depot cache: 16 ways and the bits of the tree pseudo-LRU (R296). -/
structure CSet where
  ways : Tab CLine
  plru : BitVec 15
  deriving DecidableEq, Repr

/-- An outstanding memory request with its tag (R307): its requester, and the die and channel that caused it where these are known (R349); its urgency key and
whether it is high-priority (R350), the cycle it reached its arbiter in, counted from the last tick, and whether it has been granted. `fill` tells that its
line is to be read, `refetch` that this line failed parity (R299), `parity` the reads of it that fail parity one after the other. -/
structure MemReq where
  req : Nat
  addr : Nat
  len : Nat
  write : Bool
  remote : Bool
  origin : Option (Nat × Nat)
  key : Nat
  high : Bool
  arrived : Int
  granted : Bool
  fill : Bool
  refetch : Bool
  parity : Nat
  deriving DecidableEq, Repr

/-- The arbiter of a controller group (R349 to R352): the requester and the priority of the decision of the cycle before, and the window for which
high-priority grants are counted, numbered from the last tick, with their count. -/
structure Arb where
  decided : Option (Nat × Bool)
  window : Int
  count : Nat
  deriving DecidableEq, Repr

/-- A word of the event FIFO with its tag (R502). -/
structure FifoWord where
  data : List Byte
  tag : BitVec 32
  deriving DecidableEq, Repr

/-- What a die holds beside its registers, cores and channels: the tile stages in use and wanted (R318), the event FIFO with the records that
wait for it and those on their way to the ring (R502, R503), event counts of the frame, held events (R456), the Depot cache and bad lines
(R296, R299), requests with and without a tag (R307), the arbiters (R349), slices under change and granules being written back (R298), the scrub log (R407), the live bits of mirrors it holds,
the commit list received and whether one is missing (R466), the offset of R85, queues that hold records (R330), the optimiser's verdict, closing tick and double commit (R390
to R392). -/
structure Die where
  fenced : Bool
  powered : Bool
  stages : List Nat
  stageWait : List Nat
  fifo : List FifoWord
  fifoWait : List FifoWord
  forward : List FifoWord
  evCount : List ((Nat × Nat × Nat) × Nat)
  held : List Ev
  cache : Tab CSet
  badLines : List Nat
  reqs : List MemReq
  tagWait : List MemReq
  arbs : Tab Arb
  repart : List Nat
  wback : List Nat
  scrub : List Nat
  validating : Bool
  mirrorLive : Tab Bool
  commitList : Option (List Nat)
  commitHeld : Bool
  recOffset : Int
  cqHolding : List Nat
  optVerdict : Nat
  closing : Bool
  twice : Bool
  deriving DecidableEq, Repr

/-- A request packet that awaits its answer or a link: its TYPE, header and payload (R413, R417, R418). -/
structure Req where
  type : Nat
  p : Packet
  data : List Byte
  deriving DecidableEq, Repr

/-- A Lorsar link (R411 to R422). `txq` holds the sequenced flits that wait for a credit or for the retry buffer, as KIND and payload.
`reqs` are the requests outstanding over the link and `held` those that wait for it. SENT, RECV, RET and CRIN are the counters of the link law (R84, R416);
`early` and `earlyCr` count the flits and credits received with the tag of a frame that this end has not entered (R46), and `mine` is the copy taken
at a tick at which the law is checked. `nakAge` is 0 when no NAK stands, else 1 more than the flits received since. `sparesUsed` lists lane and spare of each switch, a lane of the
transmit direction as 64 + lane. `ct` is CT as training read it (R422), `expired` tells that 4 ms have gone since the link left UP (R418), and `transit` lists
the requests of other modules that were passed on over the link, by TYPE and header (R417). -/
structure Link where
  txNext : BitVec 12
  rxExp : BitVec 12
  retry : List Flit
  replays : Nat
  credits : Nat
  sent : Nat
  recv : Nat
  ret : Nat
  crin : Nat
  occ : Nat
  nakAge : Nat
  early : Nat
  earlyCr : Nat
  mine : Option LinkCounts
  txq : List (BitVec 4 × List Byte)
  reqs : List Req
  held : List Req
  sparesUsed : List (Nat × Nat)
  laneErr : Tab Nat
  partner : Option CapBlock
  peer : Option LinkCounts
  upSince : Bool
  noSpare : Bool
  ct : Nat
  expired : Bool
  transit : List (Nat × Packet)
  deriving DecidableEq, Repr

/-- A die-to-die port (R21, R423). `early`, `earlySent` and `earlyCr` count the flits accepted, the flits sent and the credits received with the tag of a frame
that has not begun (R46). -/
structure Port where
  up : Bool
  txNext : BitVec 8
  rxExp : BitVec 8
  retry : List DieFlit
  replays : Nat
  credits : Nat
  sent : Nat
  recv : Nat
  ret : Nat
  crin : Nat
  occ : Nat
  nakAge : Nat
  early : Nat
  earlySent : Nat
  earlyCr : Nat
  deriving DecidableEq, Repr

/-- A versioned region (R54, R359) with its live bit, the live bit of the last frame (R57), the tiles counted done, whether an item names it as
an output since it last committed, whether the tick withholds it, whether a lease of it was taken since the update window opened, whether it is kept back
from a commit that it qualifies for (R391), and whether it is only named by items that a program fault stopped (R130). -/
structure Region where
  slot0 : Nat
  slot1 : Nat
  size : Nat
  tiles : Nat
  die : Nat
  mirror : Bool
  live : Bool
  prev : Bool
  done : Nat
  named : Bool
  withheld : Bool
  taken : Bool
  kept : Bool
  waived : Bool
  deriving DecidableEq, Repr

/-- A state image as the snapshot took it (R473, R474): its SEQ and what the sections copy. -/
structure Snap where
  seq : Nat
  regs : Assoc Word
  cores : Tab Core
  items : Tab Item
  chans : Tab Chan
  rlists : Tab (List Nat)
  regions : Tab Region
  mirrors : Tab (Tab Bool)
  links : Tab Link
  ports : Tab Port
  timetables : Memory
  deriving DecidableEq, Repr

/-- The manifest in force and the pickup state (R79 to R82, R37, R472 to R477). `owner` is the owner whose state the module holds
(R43), `pickup` the frame sequence number of the pickup tick, `resume` that the restore of this spare has ended and its report is due (R469), `standby` die 1's copy of the registers as of the last tick (R37), `imageAt` the base of each
die's image, its ranges of unspecified bytes and its header as written, `held` the accesses that wait for a takeover (R39). -/
structure Job where
  manifest : Nat
  size : Nat
  timed : Bool
  pickup : Nat
  regionTab : Nat
  nRegions : Nat
  owner : List Byte
  teamOwner : List Byte
  resume : Bool
  imageOrder : Bool
  snap : Option Snap
  imageAt : List (Nat × List (Nat × Nat × Nat) × List Byte)
  ticksSince : Nat
  standby : Assoc Word
  takeover : Bool
  held : List Instr
  restoring : Bool
  deriving DecidableEq, Repr

/-- A flooded flit that this module has seen, with its frame tag (R429). -/
inductive Flood where
  | report (tag : BitVec 16) (r : Report)
  | verdict (tag : BitVec 16) (v : Verdict)
  | timetable (ident : Nat)
  deriving DecidableEq, Repr

/-- The module's part in its team (R428 to R437, R403 to R406, R468 to R471). `positions` are the ring slots of the members by team position, `seats` those of
members and spares, 16 for a position that none holds, `spares` the slots of spares not yet used, `reports` the tick reports gathered, `verdict` the verdict held for cycle H, `misses` the ticks in a row
without one, `lost` the positions lost, `heard` the capability blocks heard while joining, `flooded` the flooded flits seen, `opening` that
the bypass opens at the next tick, `bisect` the comparison of each shard: shard, level and the indices that differ, `repairs` the shards and replicas whose repair
was ordered (R406), `cores` the active core count by ring slot (R468), and `down` the ring hops known to be down, each by the slot East of which it lies (R435). -/
structure Team where
  heard : List CapBlock
  positions : List Nat
  seats : List Nat
  spares : List Nat
  reports : List Report
  verdict : Option Verdict
  misses : Nat
  lost : List Nat
  bisect : List (Nat × Nat × Nat × List Nat)
  flooded : List Flood
  opening : Bool
  repairs : List (Nat × Nat)
  cores : Tab Nat
  down : List Nat
  deriving DecidableEq, Repr

/-- The frame's running state: cycles since the last tick (FRAME_CYCLE), team time and the next tick time (R435, R436),
whether the tick's hold is open (R50), the cause bits found at the tick, the Waybill instances violated (die, law, instance), the number
of the event for which a team-wide pause is due (R130, R463), the level of a fence or loss that no ledger entry holds (R456), whether the dies of the team split over the optimiser (R390), whether
the module asks for a slip (R437, R456), the report of the tick, the tick time of the fleet with the frame sequence number of that tick, whether the team has
adopted them, and the frame sequence number that the next tick takes where it is adopted (R436). -/
structure FrameSt where
  cycle : Nat
  teamTime : BitVec 64
  tickTime : BitVec 64
  inHold : Bool
  causes : BitVec 5
  violated : List (Nat × Nat × Nat)
  pause : Nat
  unentered : Nat
  split : Bool
  slipReq : Bool
  report : Option Report
  fleet : Option (BitVec 64 × Nat)
  fleetJoined : Bool
  nextSeq : Option Nat
  deriving DecidableEq, Repr

/-- The filter of a sensor channel (R483). -/
structure Filter where
  init : Bool
  acc : Int
  win : List Int
  run : Nat
  last : Int
  y : Int
  deriving DecidableEq, Repr

/-- One FRAM copy of the counters and the calendar (R496). -/
structure FramCopy where
  gen : Nat
  ok : Bool
  counters : Tab Nat
  seconds : Nat
  deriving DecidableEq, Repr

/-- The Lamp (R479 to R501, R541, R542). `counters`, `hot` (channels above 70 °C since the last thermal cycle), `history` and `retire` are those of
R495, R497 and R498. `target` is the power state and the cause of a transition in progress, `request` a state requested, `resetOrder` the kind and
cause of a reset ordered, `pendingI` the writes that wait for the next sample boundary with the cause that R534 gives their source, `mbox` the data area of the mailbox. -/
structure Lamp where
  filters : Tab Filter
  ruleRun : Tab Nat
  counters : Tab Nat
  hot : List Nat
  history : List (List Byte)
  retire : Tab (List (BitVec 48))
  framA : FramCopy
  framB : FramCopy
  target : Option (Nat × Nat)
  request : Option Nat
  resetOrder : Option (Nat × Nat)
  smbusPtr : BitVec 48
  mainIn : Bool
  auxIn : Bool
  savedTiming : Bool
  mainOn : Bool
  pendingI : List (Nat × Word × Nat)
  mbox : Tab Byte
  deriving DecidableEq, Repr

/-- Firmware, measurement and attestation orders in progress (R507 to R518, R537). -/
structure Firmware where
  mr : Tab (BitVec 512)
  version : BitVec 32
  arb : BitVec 16
  update : Option (Nat × Nat)
  attest : Option (Nat × Nat × Nat)
  lampVersion : BitVec 32
  versionsBefore : BitVec 48
  bootSlot : Nat
  deriving DecidableEq, Repr

/-- What the block sends out. Packet TYPE codes are those of R413. -/
inductive Out where
  | flit (die l : Nat) (f : Flit)
  | dieFlit (die port : Nat) (f : DieFlit)
  | packet (die l type : Nat) (p : Packet) (data : List Byte)
  | register (src : Src) (addr : Nat) (w : Word)
  | noData (die l : Nat) (p : Packet)
  | smbus (w : Word)
  | report (r : Report)
  | verdict (v : Verdict)
  | time (die l : Nat) (t : BitVec 64)
  | forward (die l kind ident : Nat)
  | commitList (die pos todie frame : Nat) (flips : List Nat)
  | mirror (die pos todie addr : Nat) (data : List Byte)
  | fifoWord (die : Nat) (w : FifoWord)
  | deliver (die rid : Nat) (w : Word)
  | repair (shard block replica source : Nat) (mirror : Bool)
  | escalate (shard replica : Nat)
  | remap (pos slot : Nat)
  | restore (die pos todie region offset : Nat) (data : List Byte)
  deriving DecidableEq, Repr

/-- The state of the module. `pending` is the queue of waiting commands, first in, first out. `regs` lists register words;
an unlisted word stands at its reset value. `pend` and `armed` are F-class writes that take effect at the next tick
and at the tick in progress (R75). Cores, channels, links, ports and counters are keyed by die and index (Ops.lean). `ctrNext` is NEXT of each counter in its last applied
settings (R85, R374). `ringHold` holds event records that
wait for the host event ring (R506). `undef` lists the ranges of memory whose contents the spec does not specify: first address, first
address beyond, and the index of its first free byte (R298, R317, R328). `fresh` is the model's own counter of free values; `wire` is the model's own list of what was sent, newest last. -/
structure State where
  pending : List Instr
  fuses : Fuses
  mem : Memory
  undef : List (Nat × Nat × Nat)
  flash : Memory
  regs : Assoc Word
  pend : Assoc PendW
  armed : Assoc PendW
  cores : Tab Core
  items : Tab Item
  posts : List Post
  rlists : Tab (List Nat)
  ctrNext : Tab Nat
  chans : Tab Chan
  dies : Tab Die
  links : Tab Link
  ports : Tab Port
  regions : Tab Region
  job : Job
  team : Team
  frame : FrameSt
  lamp : Lamp
  fw : Firmware
  ringHold : List FifoWord
  wire : List Out
  fresh : Nat
  deriving DecidableEq, Repr

/-- A core as a reset leaves it: no item, empty queues, closed groups (R530; DESIGN CHOICE of 0 for registers without a reset
value, and of all ones for RUNLEN, log entry 7. Unsafe). -/
def coreReset : Core :=
  { pc := 0, s := [], td := [], p := 0, runlen := BitVec.allOnes 64, seed := 0, sem := [], pairs := [], cur := none,
    blocked := .none, takes := [], parked := false, fenced := false, heldFull := false, closings := [], queues := [], running := [], groups := [],
    kept := [], resident := [], stat := [], rsv := [], borrow := [], excWord := 0, excOps := [], excRest := [], excSs := 0, powering := 0 }

/-- A descriptor just accepted, before its fields are filled in. -/
def runNone : DRun :=
  { raw := [], seq := 0, owner := none, by_ := 0, post := 0, frame := 0, started := false, credit := false, stage := false, rd := 0, ret := 0,
    wi := 0, wr := 0, hold := [], tile := [], flags := [], phase := 0, tix := 0, plan := [], sent := [], aux := none, gap := false, ahead := [], again := [], accessed := false, readBack := false, bytes := 0,
    lastAddr := 0, late := none, prior := false, status := none }

/-- A channel as a reset leaves it: idle, empty. -/
def chanReset : Chan :=
  { st := .idle, q := [], retry := 0, code := 0, errAddr := 0, errKind := 0, failed := none, failIdx := 0, waitCredit := false, waitStage := false,
    streamBad := false, fill := 0, lastDone := false, missed := false, lastAcc := none, paused := false, evHeld := false }

/-- A die as a reset leaves it. -/
def dieReset : Die :=
  { fenced := false, powered := false, stages := [], stageWait := [], fifo := [], fifoWait := [], forward := [], evCount := [], held := [],
    cache := [], badLines := [], reqs := [], tagWait := [], arbs := [], repart := [], wback := [], scrub := [], validating := false, mirrorLive := [],
    commitList := none, commitHeld := false, recOffset := 0, cqHolding := [], optVerdict := 0, closing := false, twice := false }

/-- An arbiter as a reset leaves it: nothing decided. -/
def arbReset : Arb := { decided := none, window := 0, count := 0 }

/-- A link as a reset leaves it: down, nothing outstanding, credits at the reset value of CT (R422). -/
def linkReset : Link :=
  { txNext := 0, rxExp := 0, retry := [], replays := 0, credits := 1024, sent := 0, recv := 0, ret := 0, crin := 0, occ := 0,
    nakAge := 0, early := 0, earlyCr := 0, mine := none, txq := [], reqs := [], held := [], sparesUsed := [], laneErr := [], partner := none, peer := none,
    upSince := false, noSpare := false, ct := 1024, expired := false, transit := [] }

/-- A die-to-die port as a reset leaves it: not trained, 512 credits (R423). -/
def portReset : Port :=
  { up := false, txNext := 0, rxExp := 0, retry := [], replays := 0, credits := 512, sent := 0, recv := 0, ret := 0, crin := 0, occ := 0,
    nakAge := 0, early := 0, earlySent := 0, earlyCr := 0 }

/-- A group as a reset leaves it: closed. -/
def groupReset : Group :=
  { isOpen := false, unit := 0, acc := 0, strict := false, m := 0, n := 0, count := 0, ovf := false, bx := false, held := [] }

/-- No region. -/
def regionNone : Region :=
  { slot0 := 0, slot1 := 0, size := 0, tiles := 0, die := 0, mirror := false, live := false, prev := false, done := 0, named := false,
    withheld := false, taken := false, kept := false, waived := false }

/-- An empty work entry. -/
def entryNone : WorkEntry :=
  { core := 0, item := 0, flags := 0, entry := 0, first := 0, count := 0, counter := 0, rsv := 0, out := [], arg := 0 }

/-- Nothing used. -/
def useNone : Use := { chans := [], sems := [], posts := [], links := [] }

/-- A work item that has not started. -/
def itemNone : Item :=
  { entry := entryNone, st := .complete, runCore := 0, frame := 0, overrun := false, rerun := false, leases := [], done := [], returned := [], retAll := false,
    charged := false, hard := false, faulted := false, redo := false, back := false, use := useNone, last := useNone, lost := false, start := none, due := false, ctx := none }

/-- No job. -/
def jobReset : Job :=
  { manifest := 0, size := 0, timed := false, pickup := 0, regionTab := 0, nRegions := 0, owner := [], teamOwner := [], resume := false,
    imageOrder := false, snap := none, imageAt := [], ticksSince := 0, standby := [], takeover := false, held := [], restoring := false }

/-- No team. -/
def teamReset : Team :=
  { heard := [], positions := [], seats := [], spares := [], reports := [], verdict := none, misses := 0, lost := [], bisect := [], flooded := [],
    opening := false, repairs := [], cores := [], down := [] }

/-- The frame state after reset: frame sequence number 0 stands in FRAME_STATUS; no tick has come. -/
def frameReset : FrameSt :=
  { cycle := 0, teamTime := 0, tickTime := 0, inHold := false, causes := 0, violated := [], pause := 0, unentered := 0, split := false, slipReq := false,
    report := none, fleet := none, fleetJoined := false, nextSeq := none }

/-- An FRAM copy never written. -/
def framNone : FramCopy := { gen := 0, ok := false, counters := [], seconds := 0 }

/-- The Lamp at auxiliary power-up: both supplies present, the main stage off (DESIGN CHOICE for FRAM contents, log entry 3. Unsafe). -/
def lampReset : Lamp :=
  { filters := [], ruleRun := [], counters := [], hot := [], history := [], retire := [], framA := framNone, framB := framNone,
    target := none, request := none, resetOrder := none, smbusPtr := 0, mainIn := true, auxIn := true, savedTiming := false,
    mainOn := false, pendingI := [], mbox := [] }

/-- Firmware before boot. -/
def fwReset : Firmware :=
  { mr := [], version := 0, arb := 0, update := none, attest := none, lampVersion := 0, versionsBefore := 0, bootSlot := 0 }

/-- The fuses of the module that `State.reset` names: an EQ8-8F, serial 1, stepping A1 and ROM 1 on every die, ring slot 0, no
Coachman strap, no repair (DESIGN CHOICE, log entry 2. Unsafe). -/
def fusesReset : Fuses :=
  { dies := 8, gradeC := false, stepping := [], rom := [], serial := 1, slot := 0, coach := false, repair := [], rootRevoked := 0, secretOk := true,
    linkMin := 1, linkMax := 1, teamMin := 1, teamMax := 1, rootDigests := List.replicate 4 (List.replicate 32 0), headerFormat := 1 }

/-- The module right after power-on reset: every register at its Reset value (R13), memory with nothing listed, no job, no
team, no command waiting. -/
def State.reset : State :=
  { pending := [], fuses := fusesReset, mem := [], undef := [], flash := [], regs := [], pend := [], armed := [], cores := [], items := [], posts := [],
    rlists := [], ctrNext := [], chans := [], dies := [], links := [], ports := [], regions := [], job := jobReset, team := teamReset, frame := frameReset,
    lamp := lampReset, fw := fwReset, ringHold := [], wire := [], fresh := 0 }

end Sys2Proof.Machine
end

