-- ==== Sys2Proof/Machine/Ops.lean ====
section
/-! DEFINITION. The named operations over the state: register words and fields (R12 to R16), the units by key, the module
address map (R26 to R28) and the bytes of memory. -/

namespace Sys2Proof.Machine

/-- The entry of register `r`, or the default. -/
def assocGet {α : Type} (t : Assoc α) (r : RegId) (d : α) : α :=
  match t with
  | [] => d
  | (q, v) :: t => if q = r then v else assocGet t r d

/-- The list with `v` at register `r`. -/
def assocSet {α : Type} (t : Assoc α) (r : RegId) (v : α) : Assoc α :=
  match t with
  | [] => [(r, v)]
  | (q, w) :: t => if q = r then (r, v) :: t else (q, w) :: assocSet t r v

/-- The maximum power of a grade in W (R2). -/
def maxPower (f : Fuses) : Nat :=
  if f.dies = 8 then (if f.gradeC then 4900 else 5600) else if f.dies = 4 then (if f.gradeC then 2500 else 2900) else 1500

/-- Half of the minimum coolant flow of a grade, in 0.01 L/min (R548). -/
def halfFlow (f : Fuses) : Nat :=
  if f.dies = 8 then (if f.gradeC then 350 else 400) else if f.dies = 4 then (if f.gradeC then 200 else 225) else 125

/-- The first word of a Lamp rule: channel, direction, threshold, hysteresis, dwell (R486). -/
def ruleWord (ch dir thresh hyst dwell : Nat) : Nat := ch + dir * 2 ^ 6 + thresh * 2 ^ 8 + hyst * 2 ^ 24 + dwell * 2 ^ 40

/-- The first word of a rule as written at manufacture (R488). -/
def factoryRule (f : Fuses) (r : Nat) : Nat :=
  if r < 8 then ruleWord r 0 1520 80 50
  else if r < 16 then ruleWord (r - 8) 0 1680 160 5
  else if r = 16 then ruleWord 34 0 (maxPower f * 105 / 100) 0 1000
  else if r = 17 then ruleWord 40 0 720 0 10000
  else if r = 18 then ruleWord 42 1 (halfFlow f) 0 10000
  else if r = 19 then ruleWord 43 0 1840 0 100
  else 0

/-- The second word of a rule as written at manufacture (R486, R488): EN and LOCK of a factory rule, its actions and cap. -/
def factoryCtl (r : Nat) : Nat :=
  if r < 8 then 3 + 2 ^ 3 + 2 ^ 6 + 12 * 2 ^ 8
  else if r < 16 then 3 + 2 ^ 7 + 2 ^ 6 + 16 * 2 ^ 8
  else if r < 20 then 3 + 2 ^ 5 + 2 ^ 6 + 16 * 2 ^ 8
  else 16 * 2 ^ 8

/-- The sum of the Reset column of a register (R13). -/
def RegId.column (r : RegId) : Nat := (r.fields.map (fun f => f.rst <<< f.lo)).foldl (· + ·) 0

/-- The word that a register holds after power-on reset (R13), that of a Lamp rule from FRAM. -/
def RegId.resetWord (f : Fuses) (r : RegId) : Word :=
  BitVec.ofNat 64 (match r with
    | .LAMP_RULE k => factoryRule f k
    | .LAMP_RULE_CTL k => factoryCtl k
    | r => r.column)

/-- `w` with `v` in the `width` bits from bit `lo`. -/
def putField (w lo width v : Nat) : Nat := w - (field w lo width <<< lo) + ((v % 2 ^ width) <<< lo)

/-- The stored word of a register. -/
def State.word (s : State) (r : RegId) : Word := assocGet s.regs r (r.resetWord s.fuses)

/-- The state with the word of a register replaced. -/
def State.setWord (s : State) (r : RegId) (w : Word) : State := { s with regs := assocSet s.regs r w }

/-- The value of a field. -/
def State.rd (s : State) (f : FRef) : Nat := field (s.word f.reg).toNat f.lo f.width

/-- The state with a field given a value. -/
def State.wr (s : State) (f : FRef) (v : Nat) : State :=
  s.setWord f.reg (BitVec.ofNat 64 (putField (s.word f.reg).toNat f.lo f.width v))

/-- The frame length in units of 1,024 cycles: FRAME_CFG.LEN, and 1,024 in service mode (R44, R535). -/
def State.frameLen (s : State) : Nat := if s.rd MODULE_STATUS_SERVICE = 1 then 1024 else s.rd FRAME_CFG_LEN

/-- A counter field raised by `n`, saturating at all ones. -/
def State.count (s : State) (f : FRef) (n : Nat) : State := s.wr f (min (s.rd f + n) (2 ^ f.width - 1))

/-- A cumulative counter raised by `n`, modulo its width (R83). -/
def State.accum (s : State) (f : FRef) (n : Nat) : State := s.wr f (s.rd f + n)

/-- Whether a one-bit field is 1. -/
def State.flag (s : State) (f : FRef) : Bool := decide (s.rd f = 1)

/-- The key of sequencer `q` of die `d`: logical core 0 to 95, or 96 + k for control core k. -/
def coreKey (d q : Nat) : Nat := d * 128 + q

/-- The key of work item `i` of core `c`. -/
def itemKey (d c i : Nat) : Nat := (d * 128 + c) * 8 + i

/-- The die, core and index of a work-item key. -/
def itemAt (k : Nat) : Nat × Nat × Nat := (k / 1024, k / 8 % 128, k % 8)

/-- The key of DRAY_CH[n] of die `d`. -/
def chanKey (d n : Nat) : Nat := d * 512 + n

/-- The key of work counter `k` of die `d`. -/
def ctrKey (d k : Nat) : Nat := d * 1024 + k

/-- The key of link `l` of die `d`. -/
def linkKey (d l : Nat) : Nat := d * 4 + l

/-- The key of die-to-die port `p` of die `d`. -/
def portKey (d p : Nat) : Nat := d * 4 + p

/-- The sequencer and units of core `q` of die `d`. -/
def State.core (s : State) (d q : Nat) : Core := tabGet s.cores (coreKey d q) coreReset

/-- The state with core `q` of die `d` changed by `f`. -/
def State.modCore (s : State) (d q : Nat) (f : Core → Core) : State :=
  { s with cores := tabSet s.cores (coreKey d q) (f (s.core d q)) }

/-- A work item by key. -/
def State.item (s : State) (k : Nat) : Item := tabGet s.items k itemNone

/-- The state with a work item changed by `f`. -/
def State.modItem (s : State) (k : Nat) (f : Item → Item) : State := { s with items := tabSet s.items k (f (s.item k)) }

/-- A Dray channel. -/
def State.chan (s : State) (d n : Nat) : Chan := tabGet s.chans (chanKey d n) chanReset

/-- The state with a channel changed by `f`. -/
def State.modChan (s : State) (d n : Nat) (f : Chan → Chan) : State :=
  { s with chans := tabSet s.chans (chanKey d n) (f (s.chan d n)) }

/-- What a die holds. -/
def State.die (s : State) (d : Nat) : Die := tabGet s.dies d dieReset

/-- The state with a die changed by `f`. -/
def State.modDie (s : State) (d : Nat) (f : Die → Die) : State := { s with dies := tabSet s.dies d (f (s.die d)) }

/-- A link. -/
def State.link (s : State) (d l : Nat) : Link := tabGet s.links (linkKey d l) linkReset

/-- The state with a link changed by `f`. -/
def State.modLink (s : State) (d l : Nat) (f : Link → Link) : State :=
  { s with links := tabSet s.links (linkKey d l) (f (s.link d l)) }

/-- A die-to-die port. -/
def State.port (s : State) (d p : Nat) : Port := tabGet s.ports (portKey d p) portReset

/-- The state with a port changed by `f`. -/
def State.modPort (s : State) (d p : Nat) (f : Port → Port) : State :=
  { s with ports := tabSet s.ports (portKey d p) (f (s.port d p)) }

/-- A versioned region. -/
def State.region (s : State) (r : Nat) : Region := tabGet s.regions r regionNone

/-- The state with a region changed by `f`. -/
def State.modRegion (s : State) (r : Nat) (f : Region → Region) : State :=
  { s with regions := tabSet s.regions r (f (s.region r)) }

/-- What the block sends. -/
def State.send (s : State) (o : Out) : State := { s with wire := s.wire ++ [o] }

/-- The frame sequence number of the frame in progress (R48). -/
def State.frameSeq (s : State) : Nat := s.rd FRAME_STATUS_SEQ

/-- The frame tag of a thing sent now (R46). -/
def State.tag16 (s : State) : BitVec 16 := BitVec.ofNat 16 s.frameSeq

/-- The dies of the grade (R2). -/
def State.dieList (s : State) : List Nat := List.range s.fuses.dies

/-- Active cores of a die (R2). -/
def State.nCores (s : State) : Nat := if s.fuses.gradeC then 80 else 96

/-- A die of the grade that is not fenced. -/
def State.dieUp (s : State) (d : Nat) : Bool := decide (d < s.fuses.dies) && !(s.die d).fenced

/-- A logical core that is active on its die (R2, R26). -/
def State.coreExists (s : State) (d c : Nat) : Bool := decide (d < s.fuses.dies) && decide (c < s.nCores)

/-- A sequencer of the module: an active logical core or a control core. -/
def State.seqExists (s : State) (d q : Nat) : Bool :=
  decide (d < s.fuses.dies) && (decide (q < s.nCores) || (decide (96 ≤ q) && decide (q < 100)))

/-- Whether a sequencer is a control core (R93). -/
def isCtl (q : Nat) : Bool := decide (96 ≤ q)

/-- The channels of a die: 32 of the die, then four of each active core (R309). -/
def State.chanExists (s : State) (d n : Nat) : Bool := decide (d < s.fuses.dies) && decide (n < 32 + 4 * s.nCores)

/-- The lead die (R41). -/
def State.lead (s : State) : Nat := s.rd MODULE_LEAD_LEAD_DIE

/-- The registers that the Lamp serves (R445, R482 to R494, R499, R531, R536). -/
def RegId.ofLamp : RegId → Bool
  | .BYPASS => true
  | .LAMP_SENSE _ => true
  | .LAMP_FILT _ => true
  | .LAMP_RULE _ => true
  | .LAMP_RULE_CTL _ => true
  | .LAMP_PWR => true
  | .LAMP_CAL => true
  | .MBOX_CMD => true
  | .MBOX_STATUS => true
  | .POLICY => true
  | .MODULE_RESET => true
  | _ => false

/-- The die that leads, or is about to: die 1 while it takes the lead over (R38, R41). -/
def State.leadNow (s : State) : Nat := if s.job.takeover then 1 else s.lead

/-- The dies that a packet from die `a` enters on its way to die `b`: at each hop the port of the lowest set bit (R22). -/
def route (a b fuel : Nat) : List Nat :=
  match fuel with
  | 0 => []
  | fuel + 1 =>
    let x := a ^^^ b
    if x = 0 then []
    else
      let n := a ^^^ (if x % 2 = 1 then 1 else if x / 2 % 2 = 1 then 2 else 4)
      n :: route n b fuel

/-- Whether the route from die `a` to die `b` crosses only dies that serve (R23). -/
def State.routeOk (s : State) (a b : Nat) : Bool := (route a b 3).all (fun d => s.dieUp d)

/-- The base of the SRAM window of die `d` (R26). -/
def sramBase (d : Nat) : Nat := 0x010000000000 + d * 0x100000000

/-- The module address of a core-space offset of core `c` of die `d` (R27). -/
def coreAddr (d c o : Nat) : Nat := sramBase d + 0x40000000 + c * 0x100000 + o

/-- The module address of an offset in the local memory of control core `k` (R27). -/
def ctlAddr (d k o : Nat) : Nat := sramBase d + 0x80000000 + k * 0x100000 + o

/-- The module address of a sequencer's own memory. -/
def seqAddr (d q o : Nat) : Nat := if isCtl q then ctlAddr d (q - 96) o else coreAddr d q o

/-- Bytes of one Depot slice (R293). -/
def sliceBytes : Nat := 0x01D00000

/-- The pinned Depot region that holds Depot offset `o`: its first and its first outside offset (R294, R295). -/
def State.pinnedAt (s : State) (d o : Nat) : Option (Nat × Nat) :=
  ((List.range 16).filter (fun k => decide (s.rd (DEPOT_REGION_KIND d k) = 1))).findSome? (fun k =>
    let a := s.rd (DEPOT_REGION_FIRST d k) * sliceBytes
    let b := a + s.rd (DEPOT_REGION_COUNT d k) * sliceBytes
    if a ≤ o ∧ o < b then some (a, b) else none)

/-- The block of the module address map that holds an address: its first address and its first address outside (R26 to R28,
R297); `none` where the map is unoccupied. Registers are not memory and have no block. -/
def State.blockOf (s : State) (a : Nat) : Option (Nat × Nat) :=
  if a < 0x010000000000 then
    let d := a / 0x2000000000
    if d < s.fuses.dies then some (d * 0x2000000000, (d + 1) * 0x2000000000) else none
  else if a < sramBase 8 then
    let d := (a - 0x010000000000) / 0x100000000
    let o := a % 0x100000000
    if s.fuses.dies ≤ d then none
    else if o < 0x3A000000 then (s.pinnedAt d o).map (fun r => (sramBase d + r.1, sramBase d + r.2))
    else if o < 0x40000000 then none
    else if o < 0x80000000 then
      let c := (o - 0x40000000) / 0x100000
      let x := o % 0x100000
      if s.nCores ≤ c then none
      else if x < 0xC0000 then some (coreAddr d c 0, coreAddr d c 0xC0000)
      else if x < 0xD0000 then some (coreAddr d c 0xC0000, coreAddr d c 0xD0000)
      else none
    else if o < 0x80400000 then some (ctlAddr d ((o - 0x80000000) / 0x100000) 0, ctlAddr d ((o - 0x80000000) / 0x100000 + 1) 0)
    else if o < 0x90000000 then none
    else if o < 0x90800000 then some (sramBase d + 0x90000000, sramBase d + 0x90800000)
    else none
  else none

/-- The die that serves a memory address (R26). -/
def dieOf (a : Nat) : Nat := if a < 0x010000000000 then a / 0x2000000000 else (a - 0x010000000000) / 0x100000000

/-- The core and core-space offset of an address in a scratchpad or in accumulators (R27). -/
def coreSpaceOf (a : Nat) : Option (Nat × Nat) :=
  let o := a % 0x100000000
  if 0x010000000000 ≤ a ∧ a < sramBase 8 ∧ 0x40000000 ≤ o ∧ o < 0x80000000 then some ((o - 0x40000000) / 0x100000, o % 0x100000) else none

/-- The bank of a core's scratchpad that holds the 32 B word at a byte offset (R272). -/
def bankOf (o : Nat) : Nat := (o / 32 % 1024 / 32 + o / 32 % 32) % 32

/-- The word of that bank in which it stands (R272). -/
def bankWord (o : Nat) : Nat := o / 32 / 1024 * 32 + o / 32 % 1024 / 32

/-- The offsets of the 32 B words that `n` bytes from an offset touch. -/
def spadWords (o n : Nat) : List Nat := if n = 0 then [] else (List.range ((o % 32 + n + 31) / 32)).map (fun i => o / 32 * 32 + 32 * i)

/-- A narrow access of `n` bytes at a module address: each scratchpad word it touches is served by its bank (R276, R289). -/
def State.bankServed (s : State) (a n : Nat) : State :=
  match coreSpaceOf a with
  | some (c, o) => (spadWords o n).foldl (fun s w => if w < 0xC0000 then s.count (SPAD_BANK_SERVED (dieOf a) c (bankOf w)) 1 else s) s
  | none => s

/-- Whether every scratchpad block that the `n` bytes from core-space offset `o` touch is powered and usable (R291). -/
def State.spadReady (s : State) (d c o n : Nat) : Bool :=
  let r := s.rd (SPAD_PWR_READY d c)
  (List.range 24).all (fun b => decide (o + n ≤ b * 0x8000) || decide ((b + 1) * 0x8000 ≤ o) || decide (n = 0) || r.testBit b)

/-- Whether the `n` bytes from address `a` lie within one occupied block of the map, on a die that serves them, in powered
scratchpad blocks (R28, R292, R463), outside the retirement store (R407: it is reached by redirection only; DEDUCED, log
entry 14) and outside the tile stages, which are the Dray's (R318). -/
def State.accessOk (s : State) (a n : Nat) : Bool :=
  match s.blockOf a with
  | none => false
  | some (_, e) =>
    decide (a + n ≤ e) && !(s.die (dieOf a)).fenced &&
      (match coreSpaceOf a with
       | some (c, o) => if o < 0xC0000 then s.spadReady (dieOf a) c o n else true
       | none =>
         let o := a % 0x100000000
         !(decide (0x010000000000 ≤ a) && decide (o < 0x90510000) && decide (0x90500000 < o + n)) &&
           !(decide (0x010000000000 ≤ a) && decide (o < 0x907E0000) && decide (0x907A0000 < o + n)))

/-- Whether the `n` bytes from an address lie in a scratchpad of the map and touch a block of it that is not usable (R291, R292). -/
def State.unpowered (s : State) (a n : Nat) : Bool :=
  match s.blockOf a, coreSpaceOf a with
  | some (_, e), some (c, o) => decide (a + n ≤ e) && !(s.die (dieOf a)).fenced && decide (o < 0xC0000) && !s.spadReady (dieOf a) c o n
  | _, _ => false

/-- Whether an access fails for want of an occupied address, and not on a scratchpad block that is not powered (R28, R292). -/
def State.hole (s : State) (a n : Nat) : Bool := !s.accessOk a n && !s.unpowered a n

/-- A granule that can be retired: one of LPDDR6, or a line of a Depot (R407). -/
def retirable (g : Nat) : Bool := decide (g * 256 < 0x010000000000) || decide (g * 256 % 0x100000000 < 0x3A000000)

/-- The line of a retirement store that serves a granule, where a RETIRE entry redirects it (R407, R408). -/
def State.retiredTo (s : State) (g : Nat) : Option Nat :=
  s.regs.findSome? (fun e =>
    match e.1 with
    | .RETIRE d k =>
      if e.2.toNat.testBit 48 = true ∧ e.2.toNat % 2 ^ 48 / 256 = g ∧ retirable g = true ∧ k < 256 then some (sramBase d + 0x90500000 + k * 256)
      else none
    | _ => none)

/-- Where the byte at an address stands: redirected to the retirement store if its granule is retired (R407). -/
def State.place (s : State) (a : Nat) : Nat :=
  match s.retiredTo (a / 256) with
  | some l => l + a % 256
  | none => a

/-- The index of the free byte at a place whose contents are unspecified. -/
def undefAt (u : List (Nat × Nat × Nat)) (a : Nat) : Option Nat :=
  match u with
  | [] => none
  | (lo, hi, n) :: r => if lo ≤ a ∧ a < hi then some (n + (a - lo)) else undefAt r a

/-- The unspecified ranges with the places from `lo` to `hi - 1` taken out. -/
def undefCut (u : List (Nat × Nat × Nat)) (lo hi : Nat) : List (Nat × Nat × Nat) :=
  match u with
  | [] => []
  | (a, b, n) :: r =>
    if hi ≤ a ∨ b ≤ lo then (a, b, n) :: undefCut r lo hi
    else (if a < lo then [(a, lo, n)] else []) ++ (if hi < b then [(hi, b, n + (hi - a))] else []) ++ undefCut r lo hi

/-- The byte at a module address. An unlisted byte reads 0: memory is zeroed at power-up (R528, R530); a byte whose contents are
unspecified is a free value (log entry 5). -/
def State.byteAt (s : State) (a : Nat) : Byte :=
  match undefAt s.undef (s.place a) with
  | some n => Config.freeByte n
  | none => cellRead 0 s.mem (s.place a)

/-- The `n` bytes from a module address. -/
def State.bytesAt (s : State) (a n : Nat) : List Byte :=
  match n with
  | 0 => []
  | n + 1 => s.byteAt a :: s.bytesAt (a + 1) n

/-- The number that `n` little-endian bytes from an address spell. -/
def State.natAt (s : State) (a n : Nat) : Nat := leNat (s.bytesAt a n)

/-- The state with one byte of memory written. -/
def State.setByte (s : State) (a : Nat) (b : Byte) : State :=
  { s with mem := cellWrite 0 s.mem (s.place a) b, undef := undefCut s.undef (s.place a) (s.place a + 1) }

/-- The state with bytes written from a module address upward. -/
def State.setBytes (s : State) (a : Nat) (bs : List Byte) : State :=
  match bs with
  | [] => s
  | b :: r => (s.setByte a b).setBytes (a + 1) r

/-- The state with `n` bytes from a place all zero. -/
def State.zeroRange (s : State) (a n : Nat) : State :=
  { s with mem := s.mem.filter (fun c => decide (c.1 < a) || decide (a + n ≤ c.1)), undef := undefCut s.undef a (a + n) }

/-- The state with the contents of `n` bytes from a place unspecified (log entry 5). -/
def State.forget (s : State) (a n : Nat) : State :=
  { s with mem := s.mem.filter (fun c => decide (c.1 < a) || decide (a + n ≤ c.1)),
           undef := undefCut s.undef a (a + n) ++ [(a, a + n, s.fresh)], fresh := s.fresh + n }

/-- The contents of `n` bytes from a module address unspecified, granule by granule through the retirement redirection. -/
def State.forgetAt (s : State) (a n fuel : Nat) : State :=
  match fuel with
  | 0 => s
  | fuel + 1 =>
    if n = 0 then s
    else
      let k := min n (256 - a % 256)
      (s.forget (s.place a) k).forgetAt (a + k) (n - k) fuel

/-- The next free byte (log entry 5). -/
def State.freeBytes (s : State) (n : Nat) : List Byte := (List.range n).map (fun i => Config.freeByte (s.fresh + i))

/-- The state after `n` free values have been used. -/
def State.used (s : State) (n : Nat) : State := { s with fresh := s.fresh + n }

/-- A scalar register of a sequencer: s0 reads as 0 (R92). -/
def State.sreg (s : State) (d q : Nat) (r : BitVec 5) : Word := if r = 0 then 0 else tabGet (s.core d q).s r.toNat 0

/-- The state with a scalar register written; a write to s0 is discarded (R92). -/
def State.setS (s : State) (d q : Nat) (r : BitVec 5) (v : Word) : State :=
  if r = 0 then s else s.modCore d q (fun c => { c with s := tabSet c.s r.toNat v })

/-- A predicate register: p0 reads as 1 (R92). -/
def State.preg (s : State) (d q : Nat) (r : BitVec 3) : Bool := if r = 0 then true else (s.core d q).p.getLsbD r.toNat

/-- The state with a predicate register written; a write to p0 is discarded (R92). -/
def State.setP (s : State) (d q : Nat) (r : BitVec 3) (v : Bool) : State :=
  if r = 0 then s
  else s.modCore d q (fun c => { c with p := if v then c.p ||| (1#8 <<< r.toNat) else c.p &&& ~~~(1#8 <<< r.toNat) })

/-- A tile descriptor register. -/
def State.treg (s : State) (d q : Nat) (r : Nat) : Td := tabGet (s.core d q).td r 0

/-- The state with a tile descriptor register written. -/
def State.setT (s : State) (d q : Nat) (r : Nat) (v : Td) : State := s.modCore d q (fun c => { c with td := tabSet c.td r v })

/-- A semaphore of a sequencer's core. -/
def State.semv (s : State) (d q n : Nat) : Nat := tabGet (s.core d q).sem n 0

/-- The state with a semaphore set. -/
def State.setSem (s : State) (d q n v : Nat) : State := s.modCore d q (fun c => { c with sem := tabSet c.sem n v })

/-- The running work item of a core. -/
def State.curItem (s : State) (d q : Nat) : Option Nat := (s.core d q).cur

end Sys2Proof.Machine
end

