-- ==== Sys2Proof/Machine/Events.lean ====
section
/-! DEFINITION. Raising an event (R446 to R463, R478, R502, R553, R555): its record in the event FIFO, its entry in the error
ledger, escalation, and what its level does to the unit, the die and the module. It is the one shared operation by which
every command reports a fault or a notice. -/

namespace Sys2Proof.Machine

/-- The level of an event of the catalogue, and whether it is marked 1* (R478). Levels 0 to 4; 15 is N. -/
def levelOf (n : Nat) : Nat × Bool :=
  if n = 5 ∨ (64 ≤ n ∧ n ≤ 75) ∨ n = 98 ∨ n = 128 ∨ n = 132 ∨ n = 147 then (1, true)
  else if n = 11 ∨ n = 83 ∨ n = 115 ∨ n = 117 ∨ n = 130 ∨ n = 164 then (1, false)
  else if n = 118 ∨ n = 146 ∨ n = 148 ∨ n = 177 ∨ n = 183 ∨ n = 196 ∨ n = 202 then (2, false)
  else if n = 178 ∨ n = 195 then (3, false)
  else if n = 151 ∨ n = 169 ∨ n = 181 then (4, false)
  else if n = 82 ∨ n = 84 ∨ n = 96 ∨ n = 97 ∨ n = 99 ∨ n = 114 ∨ n = 116 ∨ n = 119 ∨ n = 129 ∨ n = 131 ∨ n = 149 ∨ n = 150
      ∨ n = 160 ∨ n = 161 ∨ n = 162 ∨ n = 167 ∨ n = 168 then (0, false)
  else (15, false)

/-- Whether a number is in the catalogue of R478. -/
def eventListed (n : Nat) : Bool :=
  (decide (1 ≤ n) && decide (n ≤ 18)) || (decide (64 ≤ n) && decide (n ≤ 75)) || (decide (80 ≤ n) && decide (n ≤ 89)) ||
  (decide (96 ≤ n) && decide (n ≤ 99)) || (decide (112 ≤ n) && decide (n ≤ 119)) || (decide (128 ≤ n) && decide (n ≤ 133)) ||
  (decide (144 ≤ n) && decide (n ≤ 151)) || (decide (160 ≤ n) && decide (n ≤ 169)) || (decide (176 ≤ n) && decide (n ≤ 183)) ||
  (decide (192 ≤ n) && decide (n ≤ 202))

/-- Payload items in order, each little-endian at its width (R553). -/
def packItems (xs : List (Nat × Nat)) : List Byte := xs.flatMap (fun x => leBytes x.1 x.2)

/-- An event with its source (die, logical core or 0xFF, UNIT of R451, instance) and the items of its payload. -/
def mkEv (num d core unit inst : Nat) (items : List (Nat × Nat)) : Ev :=
  let bs := packItems items
  { num := num, level := (levelOf num).1, star := (levelOf num).2, die := d, core := core, unit := unit, inst := inst, frame := 0,
    pay0 := BitVec.ofNat 64 (leAt bs 0 8), pay1 := BitVec.ofNat 64 (leAt bs 8 8) }

/-- The first word of an event's LEDGER layout with a given ELEVEL (R451). -/
def Ev.word0 (e : Ev) (elevel : Nat) : Nat :=
  e.num % 65536 + (e.level % 16) <<< 16 + (elevel % 16) <<< 20 + (e.die % 8) <<< 24 + (e.inst % 65536) <<< 32
    + (e.unit % 256) <<< 48 + (e.core % 256) <<< 56

/-- The 32 B record of an event (R450). -/
def Ev.record (e : Ev) : List Byte :=
  leBytes 8 (e.word0 e.level) ++ leBytes 8 (e.frame % 2 ^ 48) ++ leBytes 8 e.pay0.toNat ++ leBytes 8 e.pay1.toNat

/-- A FIFO tag (R502). -/
def fifoTag (valid : Nat) (first last : Bool) (kind core unit : Nat) : BitVec 32 :=
  BitVec.ofNat 32 (valid + (if first then 64 else 0) + (if last then 128 else 0) + kind <<< 8 + (unit % 256) <<< 16 + (core % 256) <<< 24)

/-- A word reaches a die's event FIFO of 1,024 words, or its producer waits with it (R502, R503). -/
def State.fifoPush (s : State) (d : Nat) (w : FifoWord) : State :=
  s.modDie d (fun x =>
    if x.fifo.length < 1024 ∧ x.fifoWait = [] then { x with fifo := x.fifo ++ [w] } else { x with fifoWait := x.fifoWait ++ [w] })

/-- Whether a word that waits for the FIFO is an event record of a unit: its KIND, and CORE, UNIT and INSTANCE of its source (R451, R502). -/
def FifoWord.from_ (w : FifoWord) (core unit inst : Nat) : Bool :=
  decide (field w.tag.toNat 8 8 = 1) && decide (leAt w.data 7 1 = core) && decide (leAt w.data 6 1 = unit) && decide (leAt w.data 4 2 = inst)

/-- Whether a unit waits with an event record for the full FIFO of its die: it alone is held back (R34, R503). -/
def State.producerWaits (s : State) (d core unit inst : Nat) : Bool := (s.die d).fifoWait.any (fun w => w.from_ core unit inst)

/-- How many records of one number a unit has raised in the frame. -/
def evCountOf (t : List ((Nat × Nat × Nat) × Nat)) (k : Nat × Nat × Nat) : Nat :=
  match t with
  | [] => 0
  | (j, n) :: r => if j = k then n else evCountOf r k

/-- The counts with one more at a key. -/
def evCountInc (t : List ((Nat × Nat × Nat) × Nat)) (k : Nat × Nat × Nat) : List ((Nat × Nat × Nat) × Nat) :=
  match t with
  | [] => [(k, 1)]
  | (j, n) :: r => if j = k then (j, n + 1) :: r else (j, n) :: evCountInc r k

/-- The record of an event passes to the FIFO; of level 0 or N, at most 16 of one number from one unit in a frame (R450). -/
def State.record (s : State) (d : Nat) (e : Ev) : State :=
  let k := (e.unit, e.core * 65536 + e.inst, e.num)
  let w : FifoWord := { data := e.record, tag := fifoTag 32 true true 1 e.core e.unit }
  if e.level = 0 ∨ e.level = 15 then
    if evCountOf (s.die d).evCount k < 16 then
      (s.modDie d (fun x => { x with evCount := evCountInc x.evCount k })).fifoPush d w
    else s.count (LEDGER_STATUS_DROPPED0 d) 1
  else s.fifoPush d w

/-- A containment domain (R446, R452). -/
inductive Dom where
  | core (d c : Nat)
  | unit (d u i : Nat)
  | die (d : Nat)
  | module (m : Nat)
  | team
  deriving DecidableEq, Repr

/-- The domain of a level that contains a source (R446, R447, R452). A die report names the die of its payload, and a loss
report the position of its payload; a Waybill instance counts with its law (log entry 15). -/
def domOf (num d core unit inst pay0 lvl : Nat) : Dom :=
  if lvl ≤ 1 then
    if core ≠ 0xFF then .core d core
    else if num = 11 then .unit d (256 + pay0 % 256) inst
    else if num = 115 ∨ num = 117 then .unit d 21 inst
    else .unit d unit inst
  else if lvl = 2 then .die (if num = 177 then pay0 % 256 else d)
  else if lvl = 3 then .module (if num = 178 then 1 + pay0 % 256 else 0)
  else .team

/-- The domain of an event at a level. -/
def Ev.dom (e : Ev) (lvl : Nat) : Dom := domOf e.num e.die e.core e.unit e.inst e.pay0.toNat lvl

/-- The domain of a ledger entry (R452). -/
def State.entryDom (s : State) (d i : Nat) : Dom :=
  domOf (s.rd (LEDGER_NUMBER d i)) (s.rd (LEDGER_DIE d i)) (s.rd (LEDGER_CORE d i)) (s.rd (LEDGER_UNIT d i))
    (s.rd (LEDGER_INSTANCE d i)) (s.rd (LEDGER_PAY0_PAYLOAD0 d i)) (s.rd (LEDGER_ELEVEL d i))

/-- The open entries of a die's ledger (R452). -/
def State.openEntries (s : State) (d : Nat) : List Nat :=
  (List.range 64).filter (fun i => decide (s.rd (LEDGER_FRAME_STATE d i) ≠ 0))

/-- The open entries that take part in escalation: those not marked 1* (R447). -/
def State.hardEntries (s : State) (d : Nat) : List Nat :=
  (s.openEntries d).filter (fun i => !(levelOf (s.rd (LEDGER_NUMBER d i))).2)

/-- The highest ELEVEL among the open entries of a die; 0 with none. -/
def State.openLevel (s : State) (d : Nat) : Nat :=
  (s.openEntries d).foldl (fun m i => max m (s.rd (LEDGER_ELEVEL d i))) 0

/-- An event as a new entry `i` of the ledger (R451, R453). -/
def State.placeEntry (s : State) (d i : Nat) (e : Ev) (elevel : Nat) : State :=
  (((s.setWord (.LEDGER d i) (BitVec.ofNat 64 (e.word0 elevel))).setWord (.LEDGER_FRAME d i)
      (BitVec.ofNat 64 (e.frame % 2 ^ 48 + 1 <<< 48))).setWord (.LEDGER_PAY0 d i) e.pay0).setWord (.LEDGER_PAY1 d i) e.pay1

/-- What entering an error in the ledger led to. -/
inductive Entered where
  /-- An entry absorbed it. -/
  | absorbed (i : Nat)
  /-- It is a new entry at a level. -/
  | queued (i level : Nat)
  /-- The ledger is full: it waits (R456). -/
  | full (level : Nat)
  deriving DecidableEq, Repr

/-- The rule of R453, from level `l` upward. -/
def State.enter (s : State) (d : Nat) (e : Ev) (l fuel : Nat) : State × Entered :=
  let hard := if e.star then [] else s.hardEntries d
  match hard.find? (fun i => decide (s.rd (LEDGER_ELEVEL d i) > l) && decide (s.entryDom d i = e.dom (s.rd (LEDGER_ELEVEL d i)))) with
  | some i => ((s.count (LEDGER_FRAME_MERGED d i) 1).count (LEDGER_STATUS_ABSORBED d) 1, .absorbed i)
  | none =>
    let same := hard.any (fun i => decide (s.rd (LEDGER_ELEVEL d i) = l) && decide (s.entryDom d i = e.dom l))
    match fuel with
    | fuel + 1 =>
      if same ∧ l < 4 then (s.count (LEDGER_STATUS_ESCAL d) 1).enter d e (l + 1) fuel
      else
        match (List.range 64).find? (fun i => decide (s.rd (LEDGER_FRAME_STATE d i) = 0)) with
        | some i => (s.placeEntry d i e l, .queued i l)
        | none => (s, .full l)
    | 0 => (s, .full l)

/-- A lifetime counter of the Lamp raised, 48 bits, saturating (R495). -/
def State.lampCount (s : State) (i n : Nat) : State :=
  { s with lamp := { s.lamp with counters := tabSet s.lamp.counters i (min (tabGet s.lamp.counters i 0 + n) (2 ^ 48 - 1)) } }

/-- The events that the error history keeps (R497); EV_LAMP_RULE is there for a rule with LOG only. -/
def historyListed (n : Nat) : Bool :=
  decide (n = 115) || decide (n = 116) || decide (n = 117) || decide (n = 118) || decide (n = 119) || decide (n = 177) ||
    decide (n = 195) || decide (n = 196) || decide (n = 202)

/-- A record of the error history: its ring keeps the newest 4,096 (R497). Bytes 16 to 23 hold the address of an event that has
one, else the first payload bytes (log entry 22). -/
def State.history (s : State) (e : Ev) : State :=
  let p := if e.num = 115 ∨ e.num = 116 ∨ e.num = 117 ∨ e.num = 119 then e.pay0.toNat % 2 ^ 48 else e.pay0.toNat
  let r := leBytes 6 (s.rd LAMP_CAL_SECONDS) ++ leBytes 1 (s.rd LAMP_CAL_SYNCED) ++ leBytes 1 e.die ++ leBytes 2 e.num ++ leBytes 6 0 ++
    leBytes 8 p ++ leBytes 6 e.frame ++ leBytes 2 0
  let h := s.lamp.history ++ [r]
  { s.lampCount 5 1 with lamp := { (s.lampCount 5 1).lamp with history := h.drop (h.length - 4096) } }

/-- The record of an event, with its entry in the error history if it is kept there. -/
def State.report (s : State) (d : Nat) (e : Ev) : State := if historyListed e.num then (s.record d e).history e else s.record d e

/-- A notice that nothing follows from: its record only. -/
def State.notice (s : State) (d : Nat) (e : Ev) : State := s.report d { e with frame := s.frameSeq }

/-- What a sequencer that stops still waits for: a LEASE.DONE in its completion wait is refused when its lease returns (R377). -/
def Blocked.atStop (b : Blocked) : Blocked :=
  match b with
  | .leaseDone t pd => .leaseDone t pd
  | _ => .none

/-- The sequencer stops dispatching, and what is queued but not started is discarded without taking tokens (R129). -/
def Core.stopWork (c : Core) : Core := { c with queues := [], blocked := c.blocked.atStop }

/-- A group that closes keeps what ACC_GROUP reports of it, and holds no tile (R186, R190). -/
def Group.closed (g : Group) : Group := { g with isOpen := false, held := [] }

/-- EV_ACC_SATURATE of a group of a core that closes with OVF or BX set (R188); `unit` is the UNIT code of the source. -/
def satEv (d c unit n : Nat) (g : Group) : Ev :=
  mkEv 84 d c unit 0 [(1, c), (1, n), (1, g.unit + 1), (1, if g.ovf then 1 else 0), (1, if g.bx then 1 else 0)]

/-- The notices of groups that close with OVF or BX set (R188). -/
def State.saturated (s : State) (d c : Nat) (gs : Tab Group) : State :=
  gs.foldl (fun s g => if g.2.ovf ∨ g.2.bx then s.notice d (satEv d c (g.2.unit + 1) g.1 g.2) else s) s

/-- The groups that a started instruction of a core holds open or will close. -/
def Core.busyGroups (c : Core) : List Nat := c.running.filterMap (fun r => r.2.res.group.map (fun g => g.g))

/-- Every open group of a core is closed with its event, its accumulator tiles freed and the group counted in ACC_STATUS.ABANDONED (R186, R188); a group
of a started instruction follows when that completes (log entry 23). -/
def State.abandonGroups (s : State) (d c : Nat) : State :=
  let x := s.core d c
  let gs := x.groups.filter (fun g => g.2.isOpen && !x.busyGroups.contains g.1)
  ((s.modCore d c (fun x => gs.foldl (fun x g => { x with groups := tabSet x.groups g.1 g.2.closed }) x)).count (ACC_STATUS_ABANDONED d c) gs.length).saturated d c gs

/-- Whether an item still has instructions to issue or to complete on its core: it runs, has reached END, or is parking. -/
def Item.onCore (x : Item) : Bool := decide (x.st = .running) || decide (x.st = .ended) || (decide (x.st = .parked) && x.ctx.isNone)

/-- The work item of a core stops as in R129: one that runs, has reached END or is parking. A control core stops at its next instruction. -/
def State.stopItem (s : State) (d c : Nat) : State :=
  match (s.core d c).cur with
  | some k =>
    ((s.modItem k (fun i => if i.onCore then { i with st := .stopped } else i)).modCore d c Core.stopWork).abandonGroups d c
  | none => if isCtl c then s.modCore d c (fun x => { x.stopWork with parked := true }) else s

/-- A core stops with its units at once, as a fenced one (R456, R459, R463). -/
def State.haltCore (s : State) (d c : Nat) : State :=
  ((s.stopItem d c).modCore d c (fun x => { x.stopWork with running := [], rsv := [], borrow := [] })).abandonGroups d c

/-- The bypass closes with a cause (R442, R445); CAUSE and CLOSINGS are of closures, and a closed bypass closes no more. -/
def State.bypassClose (s : State) (cause : Nat) : State :=
  if s.flag BYPASS_CLOSED then s
  else ((s.wr BYPASS_CLOSED 1).wr BYPASS_CAUSE cause).count BYPASS_CLOSINGS 1

/-- The module is lost (level 3): the entry the loss follows from carries the level (R38, R453, R462). -/
def State.moduleLost (s : State) (d i : Nat) : State :=
  if s.rd (LEDGER_ELEVEL d i) < 3 then (s.wr (LEDGER_ELEVEL d i) 3).count (LEDGER_STATUS_ESCAL d) 1 else s

/-- The registers that die 1 takes from its standby copy: those of the module level that the lead die serves, less the frame sequence and the boot status, which
every die knows (R37; DEDUCED, log entry 48). -/
def RegId.standby : RegId → Bool
  | .MODULE_LEAD => true
  | .FRAME_CFG => true
  | .FRAME_COUNTS => true
  | .JOB_SUBMIT => true
  | .JOB_STATUS => true
  | .TEAM_CFG => true
  | .TEAM_STATUS => true
  | .JOB_CTRL => true
  | .IMAGE_CFG => true
  | .IMAGE_STATUS => true
  | .EVRING_BASE => true
  | .EVRING_CTL => true
  | .EVRING_PTR => true
  | .EVRING_DROP => true
  | .ATT_CTRL => true
  | .ATT_STATUS => true
  | .FW_CTRL => true
  | .FW_STATUS => true
  | .MODULE_ID => true
  | .MODULE_SERIAL => true
  | .MODULE_VERSIONS => true
  | .FLEET_ROUTE _ => true
  | _ => false

/-- Whether a pending or armed write submits a manifest (R78): JOB_SUBMIT with GO 1. -/
def submits (t : Assoc PendW) : Bool := t.any (fun e => decide (e.1 = .JOB_SUBMIT) && e.2.mask.getLsbD 48 && e.2.val.getLsbD 48)

/-- Die 1 starts from the copy it took at the last tick: what the module-level registers took since, and their pending writes, are gone (R37), but for a
manifest submitted since, whose pickup tick is still to come (R40). -/
def State.takeStandby (s : State) : State :=
  let keep (r : RegId) : Bool := !r.standby || decide (r = .JOB_SUBMIT)
  let s : State := { s with
    regs := s.regs.filter (fun e => !e.1.standby) ++ s.job.standby.filter (fun e => e.1.standby)
    pend := s.pend.filter (fun e => keep e.1)
    armed := s.armed.filter (fun e => keep e.1)
    job := { s.job with takeover := true } }
  if s.rd JOB_STATUS_STATE = 0 ∧ (submits s.pend ∨ submits s.armed) then s.wr JOB_STATUS_STATE 1 else s

/-- Whether a fence of a die hands the lead to die 1 (R38, R41). -/
def State.takesOver (s : State) (d : Nat) : Bool :=
  decide (d = 0) && decide (s.lead = 0) && s.flag MODULE_LEAD_TAKEOVER_EN && s.flag MODULE_LEAD_DIE1_READY && s.dieUp 1

/-- Whether a fence of a die loses the module (level 3): that of the lead die without takeover, and one while another die's fault of level 2 is open (R38,
R462). -/
def State.losesModule (s : State) (d : Nat) : Bool :=
  (decide (d = s.lead) && !s.takesOver d) || s.dieList.any (fun x => decide (x ≠ d) && decide (2 ≤ s.openLevel x)) || decide (2 ≤ s.frame.unentered)

/-- A die stops every core, channel and link at once (R463), the lead passes to die 1 where R38 allows it, and the record of EV_DIE_FENCED is made by the
lead die (R555). -/
def State.stopDie (s : State) (d trigger : Nat) : State :=
  let takeover := s.takesOver d
  let s := (s.modDie d (fun x => { x with fenced := true })).wr MODULE_STATUS_DIE_FAILED (s.rd MODULE_STATUS_DIE_FAILED ||| 2 ^ d)
  let s := (List.range 100).foldl (fun s c => match tabGet (s.cores.map (fun e => (e.1, true))) (coreKey d c) false with
    | true => s.haltCore d c
    | false => s) s
  let s := if takeover then s.takeStandby else s
  s.notice s.leadNow (mkEv 177 s.leadNow 0xFF 17 d [(1, d), (2, trigger)])

/-- A die is fenced by the fault of ledger entry `i` of die `x` (R462). That entry absorbs EV_DIE_FENCED (R555), and carries the level of a module
loss. -/
def State.fenceDie (s : State) (d trigger x i : Nat) : State :=
  if (s.die d).fenced then s
  else
    let lost := s.losesModule d
    let s := ((s.stopDie d trigger).count (LEDGER_FRAME_MERGED x i) 1).count (LEDGER_STATUS_ABSORBED x) 1
    if lost then s.moduleLost x i else s

/-- A die is fenced without a ledger entry, its hold of events being full (R456): the module reports the level all the same (R463). -/
def State.fenceUnentered (s : State) (d trigger : Nat) : State :=
  if (s.die d).fenced then s
  else
    let l := if s.losesModule d then 3 else 2
    let s := s.stopDie d trigger
    { s with frame := { s.frame with unentered := max s.frame.unentered l } }

/-- The work item that an event is charged to is marked: its regions are withheld at the tick (R56), and of an event not marked
1* it runs again (R552). -/
def State.charge (s : State) (e : Ev) (item : Option Nat) : State :=
  match item with
  | some k => if 1 ≤ e.level ∧ e.level ≤ 4 then s.modItem k (fun i => { i with charged := true, hard := i.hard || !e.star }) else s
  | none => s

/-- What a level-1 error not marked 1* does at raising, by domain (R458). -/
def State.levelOne (s : State) (e : Ev) : State :=
  match e.dom 1 with
  | .core d c => (s.stopItem d c).modCore d c (fun x => { x with parked := true })
  | .unit d 16 k => s.modCore d (96 + k) (fun x => { x with parked := true })
  | _ => s

/-- An event that finds the ledger full waits, and its unit is held (R456). -/
def State.holdEvent (s : State) (d : Nat) (e : Ev) : State :=
  let first := decide ((s.die d).held = [])
  let s := if first then s.notice d (mkEv 176 d 0xFF 17 0 [(2, e.num)]) else s
  if e.core ≠ 0xFF ∧ e.unit ≠ 19 ∧ e.unit ≠ 20 then
    ((s.haltCore e.die e.core).modCore e.die e.core (fun x => { x with heldFull := true })).modDie d
      (fun x => { x with held := x.held ++ [e] })
  else if e.unit = 16 then
    (s.modCore e.die (96 + e.inst) (fun x => { x with heldFull := true })).modDie d (fun x => { x with held := x.held ++ [e] })
  else if e.unit = 21 then
    (s.modChan e.die e.inst (fun x => { x with evHeld := true })).modDie d (fun x => { x with held := x.held ++ [e] })
  else if ((s.die d).held.filter (fun h => (decide (h.core = 0xFF) || decide (h.unit = 19) || decide (h.unit = 20)) && decide (h.unit ≠ 16) && decide (h.unit ≠ 21))).length < 64 then
    s.modDie d (fun x => { x with held := x.held ++ [e] })
  else s.fenceUnentered d e.num

/-- An error of level 1 to 4 is entered in the ledger of a die, with what its level brings about (R453, R458, R462). -/
def State.enterError (s : State) (d : Nat) (e : Ev) : State :=
  let r := s.enter d e e.level 4
  let s := r.1
  match r.2 with
  | .absorbed _ => s
  | .full _ => s.holdEvent d e
  | .queued i l =>
    let s := if l = 1 ∧ !e.star ∧ e.core ≠ 0xFF then s.notice d (mkEv 87 d e.core 17 0 [(1, e.core), (1, i)]) else s
    if l = 2 ∧ (e.level < 2 ∨ e.num = 118 ∨ e.num = 183 ∨ e.num = 196 ∨ e.num = 202) then
      s.fenceDie e.die e.num d i
    else if l = 3 ∧ e.num ≠ 178 then s.moduleLost d i
    else s

/-- A fence that follows from no entry: its report is entered as the entry of the fault (R462, R555). -/
def State.fenceFound (s : State) (d trigger : Nat) : State :=
  if (s.die d).fenced then s
  else
    let lost := s.losesModule d
    let s := s.stopDie d trigger
    let x := s.leadNow
    let s := s.enterError x { mkEv 177 x 0xFF 17 d [(1, d), (2, trigger)] with frame := s.frameSeq }
    match (s.openEntries x).find? (fun i => decide (s.rd (LEDGER_NUMBER x i) = 177) && decide (s.rd (LEDGER_INSTANCE x i) = d)) with
    | some i => if lost then s.moduleLost x i else s
    | none => if lost then { s with frame := { s.frame with unentered := 3 } } else s

/-- An event is raised on die `d`, charged to a work item if one is named: its record, and for an error its ledger entry
and the handling of its level. -/
def State.raiseFor (s : State) (d : Nat) (e : Ev) (item : Option Nat) : State :=
  let e := { e with frame := s.frameSeq }
  let s := (s.charge e item).report d e
  if 1 ≤ e.level ∧ e.level ≤ 4 then
    (if e.level = 1 ∧ !e.star then s.levelOne e else s).enterError d e
  else s

/-- An event raised on its own die; one with a core is charged to the work item running there. -/
def State.raise (s : State) (e : Ev) : State :=
  s.raiseFor e.die e (if e.core ≠ 0xFF then s.curItem e.die e.core else none)

/-- Events raised one by one. -/
def State.raiseAll (s : State) (es : List Ev) : State :=
  match es with
  | [] => s
  | e :: r => (s.raise e).raiseAll r

/-- An event of the Coachman or the lead die (UNIT 24 or 17), raised on the lead die. -/
def State.raiseLead (s : State) (num unit : Nat) (items : List (Nat × Nat)) : State :=
  s.raise (mkEv num s.lead 0xFF unit 0 items)

/-- EV_LATCH_BUSY_WRITE with the register address and the unit (R15, R76). -/
def State.busyWrite (s : State) (d addr unit : Nat) : State := s.raise (mkEv 1 d 0xFF 17 0 [(6, addr), (1, unit)])

/-- EV_ADDR_UNMAPPED with the address and the requester index (R28, R349): its source is the requester (R478), by UNIT and INSTANCE. A core is named
where it lies in one. -/
def State.unmapped (s : State) (d core unit inst addr requester : Nat) : State :=
  s.raise (mkEv 2 d core unit inst [(6, addr % 2 ^ 48), (2, requester)])

end Sys2Proof.Machine
end

