-- ==== Sys2Proof/Machine/Operands.lean ====
section
/-! DEFINITION. Operand forms: the second operand of Format A, the reserved-field checks of every body format (R102 to R106),
task windows (R284, R292) and tile descriptors (R94 to R96, R554). -/

namespace Sys2Proof.Machine

/-- The 32-bit immediate with its sign extended from bit 31 (R113). -/
def sextImm (i : BitVec 32) : Word := i.signExtend 64

/-- The second operand b of Format A (R103). -/
def State.operandB (s : State) (d q : Nat) (a : FmtA) : Word := if a.im then sextImm a.imm else s.sreg d q a.sb

/-- What the fields of a Format A instruction are used for: which register kind SD names, which bits of SA, SB and IMM may be
set, and the rule for IM (R103, R113, R127). -/
inductive ImRule where
  | operand | must1 | must0
  deriving DecidableEq, Repr

/-- The reserved-field check of Format A. `sd`, `sa`, `sb` and `imm` are the largest values that the fields may take. -/
def legalA (sd sa sb imm : Nat) (im : ImRule) (a : FmtA) : Bool :=
  decide (a.sd.toNat ≤ sd) && decide (a.sa.toNat ≤ sa) && decide (a.sb.toNat ≤ sb) && decide (a.imm.toNat ≤ imm) &&
    (match im with
     | .operand => if a.im then decide (a.sb = 0) else decide (a.imm = 0)
     | .must1 => a.im
     | .must0 => !a.im)

/-- All bits of a 32-bit immediate. -/
def immAll : Nat := 0xFFFFFFFF

/-- Scalar arithmetic: sd, sa and b. -/
def legalAlu : FmtA → Bool := legalA 31 31 31 immAll .operand

/-- Compare: a predicate destination, sa and b. -/
def legalCmp : FmtA → Bool := legalA 7 31 31 immAll .operand

/-- Predicate logic on two predicates. -/
def legalPred2 : FmtA → Bool := legalA 7 7 7 0 .must0

/-- Predicate negation. -/
def legalPred1 : FmtA → Bool := legalA 7 7 0 0 .must0

/-- LI, LIH and JAL: a destination register and an immediate. -/
def legalLi : FmtA → Bool := legalA 31 0 0 immAll .must1

/-- BR: an immediate. -/
def legalBr : FmtA → Bool := legalA 0 0 0 immAll .must1

/-- JR: a source register and an immediate. -/
def legalJr : FmtA → Bool := legalA 0 31 0 immAll .must1

/-- NOP, END and MG.IMAGE: no field. -/
def legalNone : FmtA → Bool := legalA 0 0 0 0 .must0

/-- TD.SET. -/
def legalTdSet : FmtA → Bool := legalA 15 31 31 0 .must0

/-- TD.GET. -/
def legalTdGet : FmtA → Bool := legalA 31 15 0 1 .must1

/-- TD.ADD. -/
def legalTdAdd : FmtA → Bool := legalA 15 31 0 immAll .must1

/-- The indices of R97 that are not reserved. -/
def specialListed (i : Nat) : Bool := decide (i ≤ 5) || decide (i = 8) || decide (i = 9)

/-- SRD. A reserved index is a reserved value of a field (R97, R102). -/
def legalSrd (a : FmtA) : Bool := legalA 31 0 0 255 .must1 a && specialListed a.imm.toNat

/-- SWR. -/
def legalSwr (a : FmtA) : Bool := legalA 0 31 0 255 .must1 a && specialListed a.imm.toNat

/-- MG.RD: sd, sa and an immediate. -/
def legalMgRd : FmtA → Bool := legalA 31 31 0 immAll .must1

/-- MG.WR: sa, sb and an immediate with IM 0. -/
def legalMgWr : FmtA → Bool := legalA 0 31 31 immAll .must0

/-- MG.EVENT: sa and a 16-bit event number. -/
def legalMgEvent : FmtA → Bool := legalA 0 31 0 0xFFFF .must1

/-- MG.FENCE: sa. -/
def legalMgFence : FmtA → Bool := legalA 0 31 0 0 .must0

/-- The reserved-field check of Format M; a control core requires WIN = 0 (R93). -/
def legalM (q : Nat) (m : FmtM) : Bool := decide (m.rsv = 0) && (!isCtl q || decide (m.win = 0))

/-- The reserved-field check of Format Y. `sd` is the largest value of SD; `sem`, `cnt` and `saUsed` say which of SEM, the
count and SA the instruction uses; only SEM.POST (`post`) may have a SCOPE. A control core has sem0 to sem63 (R93). -/
def legalY (q sd : Nat) (sem cnt saUsed post : Bool) (y : FmtY) : Bool :=
  decide (y.sd.toNat ≤ sd) && decide (y.rsv = 0) && (sem || decide (y.sem = 0)) && (!isCtl q || decide (y.sem.toNat < 64)) &&
    (if cnt then (if y.im then saUsed || decide (y.sa = 0) else decide (y.count = 0))
     else !y.im && decide (y.count = 0) && (saUsed || decide (y.sa = 0))) &&
    decide (y.scope.toNat ≠ 3) && (post || decide (y.scope = 0)) &&
    (decide (y.scope ≠ 0) || decide (y.tcore = 0)) && (decide (y.scope.toNat = 2) || decide (y.tdie = 0))

/-- The count operand of Format Y (R103). -/
def State.countY (s : State) (d q : Nat) (y : FmtY) : Nat := if y.im then y.count.toNat else (s.sreg d q y.sa).toNat % 65536

/-- The four semaphore slots of a wait or post word: semaphore and count (R104). -/
def slotsOf (w : Word) : List (Nat × Nat) :=
  (List.range 4).map (fun i => (field w.toNat (16 * i + 8) 8, field w.toNat (16 * i) 8))

/-- The slots in use. -/
def usedSlots (w : Word) : List (Nat × Nat) := (slotsOf w).filter (fun x => decide (x.2 ≠ 0))

/-- A slot with a count of 0 has a semaphore of 0; a control core's slots name its own 64 semaphores (R93, R104). -/
def legalSlots (q : Nat) (w : Word) : Bool :=
  (slotsOf w).all (fun x => (decide (x.2 ≠ 0) || decide (x.1 = 0)) && (!isCtl q || decide (x.1 < 64)))

/-- The reserved-field check of the long form's lists. -/
def legalLists (q : Nat) (l : Lists) : Bool := legalSlots q l.wait && legalSlots q l.post

/-- The reserved-field check of the transfer body: `sa` and `win` say whether those fields are used (R106). -/
def legalX (q : Nat) (sa win : Bool) (x : FmtX) : Bool :=
  decide (x.rsv = 0) && (sa || decide (x.sa = 0)) && (win || decide (x.win = 0)) &&
    (if isCtl q then decide (x.ch.toNat < 32) && decide (x.win = 0) else decide (x.ch.toNat < 4))

/-- The 48-bit two's complement of an offset, as payloads hold it (R553). -/
def off48 (x : Int) : Nat := (x % 2 ^ 48).toNat

/-- The permission that an access through a window needs (R284). -/
inductive Perm where
  | rd | wr | ex
  deriving DecidableEq, Repr

/-- Whether a window grants a permission. -/
def State.winGrants (s : State) (d c w : Nat) (p : Perm) : Bool :=
  match p with
  | .rd => s.flag (SPAD_WIN_RD d c w)
  | .wr => s.flag (SPAD_WIN_WR d c w)
  | .ex => s.flag (SPAD_WIN_EX d c w)

/-- The core-space offset that `n` bytes at offset `ea` of a task window resolve to, or `none` where the access faults with
EV_WINDOW_FAULT (R284, R292). -/
def State.window (s : State) (d c w : Nat) (ea : Int) (n : Nat) (p : Perm) : Option Nat :=
  let base := s.rd (SPAD_WIN_BASE d c w)
  let bound := s.rd (SPAD_WIN_BOUND d c w)
  let o := base + ea.toNat
  if ea < 0 ∨ bound < o + n ∨ s.winGrants d c w p = false then none
  else if (o < 0xC0000 ∧ 0xC0000 < o + n) ∨ 0xD0000 < o + n then none
  else if o < 0xC0000 ∧ s.spadReady d c o n = false then none
  else some o

/-- The module address that a sequencer's access of `n` bytes at offset `ea` resolves to: through a window of a core, or in
the local memory of a control core (R93). -/
def State.seqResolve (s : State) (d q w : Nat) (ea : Int) (n : Nat) (p : Perm) : Option Nat :=
  if isCtl q then (if ea < 0 ∨ 0x100000 < ea.toNat + n then none else some (ctlAddr d (q - 96) ea.toNat))
  else (s.window d q w ea n p).map (coreAddr d q)

/-- A tile descriptor, field by field (R94). -/
structure TdF where
  base : Nat
  win : Nat
  fmt : Nat
  layout : Nat
  rows : Nat
  cols : Nat
  stride : Nat
  vrows : Nat
  vcols : Nat
  scale : Nat
  rsv : Bool
  deriving DecidableEq, Repr

/-- The fields of a tile descriptor register; `rsv` says whether a reserved bit is set. -/
def tdFields (t : Td) : TdF :=
  let v := t.toNat
  { base := field v 0 20, win := field v 20 2, fmt := field v 22 4, layout := field v 26 3, rows := field v 32 8, cols := field v 40 8,
    stride := field v 48 16, vrows := field v 64 7, vcols := field v 72 7, scale := field v 80 32,
    rsv := decide (field v 29 3 ≠ 0) || decide (field v 71 1 ≠ 0) || decide (field v 79 1 ≠ 0) || decide (field v 112 16 ≠ 0) }

/-- Whether a format code is a Microscaling format (R95). -/
def isMx (f : Nat) : Bool := decide (5 ≤ f) && decide (f ≤ 9)

/-- The element size in bits of a format code (R95). -/
def fmtBits (f : Nat) : Nat :=
  if f = 0 ∨ f = 12 then 32 else if f = 1 ∨ f = 2 ∨ f = 11 then 16 else if f = 7 ∨ f = 8 then 6 else if f = 9 then 4 else 8

/-- The field checks of R96: false where the descriptor faults with EV_TD_INVALID. -/
def TdF.ok (t : TdF) : Bool :=
  decide (t.fmt < 13) && decide (t.layout < 7) && !t.rsv && decide (1 ≤ t.rows) && decide (t.rows ≤ 128) && decide (1 ≤ t.cols) &&
    decide (t.cols ≤ 128) && decide (1 ≤ t.stride) && decide (1 ≤ t.vrows) && decide (t.vrows ≤ 64) && decide (1 ≤ t.vcols) &&
    decide (t.vcols ≤ 64) && decide (t.base % 32 = 0) && decide (t.scale % 32 = 0) && (decide (t.scale = 0) || isMx t.fmt)

/-- Lines and elements per line of a dense tile (R554). -/
def TdF.lines (t : TdF) : Nat × Nat := if t.layout = 1 then (64 * t.cols, 64 * t.rows) else (64 * t.rows, 64 * t.cols)

/-- The bytes of a dense tile's extent (R554). -/
def TdF.denseExtent (t : TdF) : Nat := (t.lines.1 - 1) * t.stride * 32 + ceilDiv (t.lines.2 * fmtBits t.fmt) 8

/-- Rows and columns that are valid: M and N of the manual's tiles (R94). -/
def TdF.mValid (t : TdF) : Nat := 64 * (t.rows - 1) + t.vrows

/-- Valid columns. -/
def TdF.nValid (t : TdF) : Nat := 64 * (t.cols - 1) + t.vcols

end Sys2Proof.Machine
end

