-- ==== Sys2Proof/Machine/Float.lean ====
section
/-! DEFINITION. The arithmetic of the data units, exact: element formats, rounding to nearest even and stochastic rounding,
sums and products (R168 to R174, R176, R195, R197). -/

namespace Sys2Proof.Machine

/-- An exact value: NaN, an infinity, or plus or minus m times 2^e. -/
inductive FV where
  | nan
  | inf (neg : Bool)
  | fin (neg : Bool) (m : Nat) (e : Int)
  deriving DecidableEq, Repr

/-- Positive zero. -/
def FV.zero : FV := .fin false 0 0

/-- How a format codes infinities and NaNs (R168). -/
inductive Special where
  | ieee | e4m3 | none
  deriving DecidableEq, Repr

/-- A floating-point format: exponent bits, fraction bits, bias and special codes (R168, R172). -/
structure FFmt where
  eb : Nat
  mb : Nat
  bias : Nat
  sp : Special
  deriving DecidableEq, Repr

/-- The floating-point format of an FMT code (R95, R168); INT8 and INT32 are not among them. -/
def ffmt (f : Nat) : FFmt :=
  if f = 0 then ⟨8, 23, 127, .ieee⟩
  else if f = 1 then ⟨8, 7, 127, .ieee⟩
  else if f = 2 then ⟨5, 10, 15, .ieee⟩
  else if f = 3 ∨ f = 5 then ⟨4, 3, 7, .e4m3⟩
  else if f = 4 ∨ f = 6 then ⟨5, 2, 15, .ieee⟩
  else if f = 7 then ⟨3, 2, 3, .none⟩
  else if f = 8 then ⟨2, 3, 1, .none⟩
  else if f = 9 then ⟨2, 1, 1, .none⟩
  else ⟨6, 9, 31, .ieee⟩

/-- FP32. -/
def f32 : FFmt := ffmt 0

/-- acc16 (R172). -/
def f16acc : FFmt := ffmt 11

/-- The exponent of the unit of the smallest subnormal. -/
def FFmt.qmin (f : FFmt) : Int := 1 - (f.bias : Int) - f.mb

/-- The largest finite value: its significand and exponent. -/
def FFmt.maxFin (f : FFmt) : Nat × Int :=
  match f.sp with
  | .ieee => (2 ^ (f.mb + 1) - 1, (2 ^ f.eb : Nat) - 2 - (f.bias : Int) - f.mb)
  | .e4m3 => (2 ^ (f.mb + 1) - 2, (2 ^ f.eb : Nat) - 1 - (f.bias : Int) - f.mb)
  | .none => (2 ^ (f.mb + 1) - 1, (2 ^ f.eb : Nat) - 1 - (f.bias : Int) - f.mb)

/-- Decoding of a floating-point element (R168). -/
def FFmt.decode (f : FFmt) (w : Nat) : FV :=
  let neg := w.testBit (f.eb + f.mb)
  let ex := field w f.mb f.eb
  let fr := field w 0 f.mb
  let top := decide (ex = 2 ^ f.eb - 1)
  match f.sp with
  | .ieee =>
    if top then (if fr = 0 then .inf neg else .nan)
    else if ex = 0 then .fin neg fr f.qmin else .fin neg (2 ^ f.mb + fr) ((ex : Int) - f.bias - f.mb)
  | .e4m3 =>
    if top ∧ fr = 2 ^ f.mb - 1 then .nan
    else if ex = 0 then .fin neg fr f.qmin else .fin neg (2 ^ f.mb + fr) ((ex : Int) - f.bias - f.mb)
  | .none => if ex = 0 then .fin neg fr f.qmin else .fin neg (2 ^ f.mb + fr) ((ex : Int) - f.bias - f.mb)

/-- Decoding of an element by FMT code; INT8 and INT32 are two's complement (R168). -/
def decodeEl (fmt w : Nat) : FV :=
  if fmt = 10 then .fin (w.testBit 7) (signed 8 w).natAbs 0
  else if fmt = 12 then .fin (w.testBit 31) (signed 32 w).natAbs 0
  else (ffmt fmt).decode w

/-- floor of log2 of a magnitude m times 2^e, m not 0. -/
def ilog (m : Nat) (e : Int) : Int := (Nat.log2 m : Int) + e

/-- Whether m times 2^e exceeds n times 2^g. -/
def magGt (m : Nat) (e : Int) (n : Nat) (g : Int) : Bool :=
  let b := min e g
  decide (n * 2 ^ (g - b).toNat < m * 2 ^ (e - b).toNat)

/-- The unit in which a magnitude is rounded in a format. -/
def FFmt.quantum (f : FFmt) (m : Nat) (e : Int) : Int := max (ilog m e - f.mb) f.qmin

/-- A magnitude in whole units of a format, rounded to nearest even, or stochastically by the random word `r` (R197):
the value is rounded toward the larger neighbour when r times the gap is below 2^32 times the distance from the smaller. -/
def roundMag (neg : Bool) (m : Nat) (e q : Int) (r : Option Nat) : Nat :=
  if q ≤ e then m * 2 ^ (e - q).toNat
  else
    let sh := (q - e).toNat
    let n := m / 2 ^ sh
    let rem := m % 2 ^ sh
    match r with
    | none => if 2 ^ sh < 2 * rem ∨ (2 ^ sh = 2 * rem ∧ n % 2 = 1) then n + 1 else n
    | some r =>
      if rem = 0 then n
      else if neg then (if r * 2 ^ sh < (2 ^ sh - rem) * 2 ^ 32 then n else n + 1)
      else (if r * 2 ^ sh < rem * 2 ^ 32 then n + 1 else n)

/-- A value rounded once into a floating-point format, saturating at the largest finite value, and whether it overflowed (R175,
R176, R195). -/
def FFmt.round (f : FFmt) (v : FV) (r : Option Nat) : FV × Bool :=
  match v with
  | .fin neg m e =>
    if m = 0 then (.fin neg 0 f.qmin, false)
    else
      let big := f.maxFin
      let r := if magGt m e big.1 big.2 then none else r
      let q := f.quantum m e
      let n := roundMag neg m e q r
      if magGt n q big.1 big.2 then (.fin neg big.1 big.2, true) else (.fin neg n q, false)
  | x => (x, false)

/-- The bits of a value that a format represents; NaN and infinity as R174 and R195 write them. -/
def FFmt.encode (f : FFmt) (v : FV) : Nat :=
  let top := 2 ^ f.eb - 1
  match v with
  | .nan => match f.sp with
    | .ieee => top * 2 ^ f.mb + 2 ^ (f.mb - 1)
    | .e4m3 => top * 2 ^ f.mb + (2 ^ f.mb - 1)
    | .none => 0
  | .inf neg => match f.sp with
    | .ieee => (if neg then 2 ^ (f.eb + f.mb) else 0) + top * 2 ^ f.mb
    | .e4m3 => top * 2 ^ f.mb + (2 ^ f.mb - 1)
    | .none => 0
  | .fin neg m e =>
    let s := if neg then 2 ^ (f.eb + f.mb) else 0
    if m = 0 then s
    else
      let l := ilog m e
      let q := max (l - f.mb) f.qmin
      let n := if q ≤ e then m * 2 ^ (e - q).toNat else m / 2 ^ (q - e).toNat
      if n < 2 ^ f.mb then s + n else s + (q + f.mb + f.bias).toNat * 2 ^ f.mb + (n - 2 ^ f.mb)

/-- A value converted to the bits of a format (R195). -/
def FFmt.convert (f : FFmt) (v : FV) (r : Option Nat) : Nat := f.encode (f.round v r).1

/-- Negation. -/
def FV.neg : FV → FV
  | .nan => .nan
  | .inf n => .inf (!n)
  | .fin n m e => .fin (!n) m e

/-- A signed significand. -/
def sgn (neg : Bool) (m : Nat) : Int := if neg then -(m : Int) else m

/-- The exact sum. Zeros of both signs sum to +0, as does an exact cancellation. -/
def FV.add (a b : FV) : FV :=
  match a, b with
  | .nan, _ => .nan
  | _, .nan => .nan
  | .inf x, .inf y => if x = y then .inf x else .nan
  | .inf x, _ => .inf x
  | _, .inf y => .inf y
  | .fin n m e, .fin k p g =>
    if m = 0 ∧ p = 0 then .fin (n && k) 0 0
    else
      let b := min e g
      let z := sgn n (m * 2 ^ (e - b).toNat) + sgn k (p * 2 ^ (g - b).toNat)
      .fin (decide (z < 0)) z.natAbs b

/-- The exact product (R173, R174). -/
def FV.mul (a b : FV) : FV :=
  match a, b with
  | .nan, _ => .nan
  | _, .nan => .nan
  | .inf x, .inf y => .inf (x ^^ y)
  | .inf x, .fin k p _ => if p = 0 then .nan else .inf (x ^^ k)
  | .fin n m _, .inf y => if m = 0 then .nan else .inf (n ^^ y)
  | .fin n m e, .fin k p g => .fin (n ^^ k) (m * p) (e + g)

/-- A value times 2^k. -/
def FV.scale (a : FV) (k : Int) : FV :=
  match a with
  | .fin n m e => .fin n m (e + k)
  | x => x

/-- Whether a value is NaN. -/
def FV.isNan : FV → Bool
  | .nan => true
  | _ => false

/-- Strict order of values that are not NaN; zeros of both signs are equal. -/
def FV.lt (a b : FV) : Bool :=
  match a, b with
  | .nan, _ => false
  | _, .nan => false
  | .inf x, .inf y => x && !y
  | .inf x, _ => x
  | _, .inf y => !y
  | .fin n m e, .fin k p g =>
    let c := min e g
    decide (sgn n (m * 2 ^ (e - c).toNat) < sgn k (p * 2 ^ (g - c).toNat))

/-- The larger of a and b: a NaN wins, equal values give a (R199). -/
def FV.max (a b : FV) : FV := if a.isNan ∨ b.isNan then .nan else if a.lt b then b else a

/-- The smaller, with the same rules. -/
def FV.min (a b : FV) : FV := if a.isNan ∨ b.isNan then .nan else if b.lt a then b else a

/-- rn32: rounding to FP32, to nearest even, and whether it saturated (R175, R176). -/
def rn32 (v : FV) : FV × Bool := f32.round v none

/-- rn16: rounding to acc16 (R178). -/
def rn16 (v : FV) : FV × Bool := f16acc.round v none

/-- The random word of stochastic rounding at row i and column n (R197). -/
def srWord (seed : Word) (off i n : Nat) : Nat :=
  let m64 := 2 ^ 64
  let key := seed.toNat ^^^ (off % 2 ^ 32 * 2 ^ 32)
  let x := (key + (i * 65536 + n) * 0xD1B54A32D192ED03) % m64
  let x := x ^^^ (x >>> 31)
  let x := x * 0xA3B195354A39B70D % m64
  let x := x ^^^ (x >>> 29)
  let x := x * 0x8A5CD789635D2DFF % m64
  let x := x ^^^ (x >>> 32)
  x % 2 ^ 32

/-- emax of an MX element format (R196). -/
def mxEmax (f : Nat) : Int := if f = 5 then 8 else if f = 6 then 15 else if f = 7 then 4 else 2

/-- The factor of an E8M0 scale byte as a power of two, or `none` for 0xFF, which marks NaN (R170). -/
def e8m0 (s : Nat) : Option Int := if s = 255 then none else some ((s : Int) - 127)

/-- An element with its block's scale applied. -/
def mxValue (v : FV) (s : Nat) : FV :=
  match e8m0 s with
  | none => .nan
  | some k => v.scale k

/-- The shared exponent of an MX block from its finite values (R196). -/
def mxExp (fmt : Nat) (ys : List FV) : Int :=
  let logs := ys.filterMap (fun y => match y with
    | .fin _ m e => if m = 0 then none else some (ilog m e)
    | _ => none)
  match logs with
  | [] => -127
  | l :: r => max (-127) (min 127 (r.foldl max l - mxEmax fmt))

/-- Whether a value is finite. -/
def FV.isFin : FV → Bool
  | .fin _ _ _ => true
  | _ => false

end Sys2Proof.Machine
end

