-- ==== Sys2Proof/Machine/Tile.lean ====
section
/-! DEFINITION. Tiles in core space: where their elements and scale bytes stand (R94, R171, R322, R554), how they are read, and
how a matrix of values is converted and written (R195 to R197). It also holds what the data units fault with at a start
(R96, R126). -/

namespace Sys2Proof.Machine

/-- What a unit faults with when an instruction starts (R96, R126). A descriptor is the td index of the payload; where several
descriptors or a scalar break a rule together the spec names none, and the payload's byte is free (log entry 5). -/
inductive UFault where
  | illegal
  | misaligned (addr : Nat)
  | window (w addr : Nat)
  | td (desc : Option Nat)
  | resource (group cause : Nat)
  | strict (group : Nat)
  deriving DecidableEq, Repr

/-- The event number of a fault. -/
def UFault.num : UFault → Nat
  | .illegal => 64
  | .misaligned _ => 66
  | .window _ _ => 67
  | .td _ => 68
  | .resource _ _ => 69
  | .strict _ => 70

/-- The payload items after those of event 64 (R478, R553). -/
def State.faultItems (s : State) : UFault → List (Nat × Nat)
  | .illegal => []
  | .misaligned a => [(6, a)]
  | .window w a => [(1, w), (6, a)]
  | .td (some d) => [(1, d)]
  | .td none => [(1, (Config.freeByte s.fresh).toNat)]
  | .resource g c => [(1, g), (1, c)]
  | .strict g => [(1, g)]

/-- A check of a start. -/
def check (c : Bool) (f : UFault) : Except UFault Unit := if c then .ok () else .error f

/-- A tile of a core: its fields, and the core-space offset of its BASE. -/
structure Tile where
  f : TdF
  base : Nat
  deriving DecidableEq, Repr

/-- The line and the byte in it that hold byte `x` of a line or logical row (R322, R554). -/
def skewLine (layout : Nat) (i : Int) (x : Nat) : Int :=
  if layout = 2 then 64 * (i / 64) + (i % 64 + (x / 32 : Nat)) % 64 else i

/-- The core-space offset of byte `x` of line `i` of a tile; rows before BASE serve TAPS (R160). -/
def Tile.at (t : Tile) (i : Int) (x : Nat) : Nat := ((t.base : Int) + skewLine t.f.layout i x * (t.f.stride * 32 : Nat) + x).toNat

/-- A byte of a core's space. -/
def State.spadByte (s : State) (d c o : Nat) : Byte := s.byteAt (coreAddr d c o)

/-- A little-endian number in a core's space. -/
def State.spadNat (s : State) (d c o n : Nat) : Nat := s.natAt (coreAddr d c o) n

/-- The element code that stands at bit `b` of a run of bytes, read byte by byte. -/
def codeAt (rd : Nat → Nat) (b bits : Nat) : Nat :=
  let n := ceilDiv (b % 8 + bits) 8
  let v := ((List.range n).map (fun k => rd (b / 8 + k) <<< (8 * k))).foldl (· + ·) 0
  field v (b % 8) bits

/-- The code of element (i, j) of a dense tile; in a column-major tile line j holds it at place i (R554). -/
def State.tileCode (s : State) (d c : Nat) (t : Tile) (i : Int) (j : Nat) : Nat :=
  let (l, p) : Int × Nat := if t.f.layout = 1 then ((j : Int), i.toNat) else (i, j)
  codeAt (fun x => (s.spadByte d c (t.at l x)).toNat) (p * fmtBits t.f.fmt) (fmtBits t.f.fmt)

/-- Scale byte `b` of line `l` of a scale array with `per` bytes a line (R171). -/
def State.scaleByte (s : State) (d c : Nat) (t : Tile) (l : Int) (per b : Nat) : Nat :=
  (s.spadByte d c ((t.base : Int) + t.f.scale + l * (per : Int) + b).toNat).toNat

/-- The value of element (i, j) of a dense tile whose MX blocks run along rows (R171). -/
def State.tileVal (s : State) (d c : Nat) (t : Tile) (i j : Nat) : FV :=
  let v := decodeEl t.f.fmt (s.tileCode d c t i j)
  if isMx t.f.fmt then mxValue v (s.scaleByte d c t i (2 * t.f.cols) (j / 32)) else v

/-- The valid values of a tile, row by row. -/
def State.tileVals (s : State) (d c : Nat) (t : Tile) : List (List FV) :=
  (List.range t.f.mValid).map (fun i => (List.range t.f.nValid).map (fun j => s.tileVal d c t i j))

/-- The bytes of a tile's extent and, for an MX format, its scale array, as window accesses (R96, R554). -/
def State.tileAt (s : State) (d c : Nat) (f : TdF) (perm : Perm) (extent : Nat) : Except UFault Tile :=
  match s.window d c f.win f.base extent perm with
  | none => .error (.window f.win f.base)
  | some o =>
    if isMx f.fmt then
      match s.window d c f.win ((f.base : Int) + f.scale) (128 * f.rows * f.cols) perm with
      | none => .error (.window f.win (f.base + f.scale))
      | some _ => .ok { f := f, base := o }
    else .ok { f := f, base := o }

/-- The field checks of R96 for descriptor `n`. -/
def tdOk (n : BitVec 4) (t : Td) : Except UFault TdF :=
  let f := tdFields t
  if f.ok then .ok f else .error (.td (some n.toNat))

/-- The seed and seed offset of stochastic rounding, or none for nearest even. -/
abbrev Sr := Option (Word × Nat)

/-- The random word of an element under stochastic rounding. -/
def srAt (sr : Sr) (i n : Nat) : Option Nat := sr.map (fun x => srWord x.1 x.2 i n)

/-- Values in pieces of `p`. -/
def chunks {α : Type} (p n : Nat) (xs : List α) : List (List α) :=
  match n with
  | 0 => []
  | n + 1 => xs.take p :: chunks p n (xs.drop p)

/-- A list in pieces of `p`, the last one shorter. -/
def pieces {α : Type} (p : Nat) (xs : List α) : List (List α) := chunks p (ceilDiv xs.length p) xs

/-- An MX block of a row from element `j0`: its scale byte and its element codes (R196, R197). -/
def mxBlock (fmt : Nat) (sr : Sr) (i j0 : Nat) (ys : List FV) : Nat × List Nat :=
  if ys.all FV.isFin then
    let x := mxExp fmt ys
    ((x + 127).toNat, ys.mapIdx (fun k y => (ffmt fmt).convert (y.scale (-x)) (srAt sr i (j0 + k))))
  else (255, ys.map (fun _ => 0))

/-- A row of values as element codes and scale bytes (R195, R196). An FP32 target takes no random word. -/
def encodeRow (fmt : Nat) (sr : Sr) (i : Nat) (ys : List FV) : List Nat × List Nat :=
  if isMx fmt then
    let bs := (pieces 32 ys).mapIdx (fun b y => mxBlock fmt sr i (32 * b) y)
    (bs.flatMap (fun b => b.2), bs.map (fun b => b.1))
  else (ys.mapIdx (fun j y => (ffmt fmt).convert y (if fmt = 0 then none else srAt sr i j)), [])

/-- Codes packed from bit 0 upward. -/
def packCodes (bits : Nat) (cs : List Nat) : Nat :=
  match cs with
  | [] => 0
  | v :: r => v % 2 ^ bits + packCodes bits r <<< bits

/-- The writes of a line of codes from core-space offset `o`: the bits of a last byte beyond the codes keep their value (R156). -/
def State.lineWrites (s : State) (d c o bits : Nat) (cs : List Nat) : List (Nat × Byte) :=
  let nb := cs.length * bits
  let k := ceilDiv nb 8
  let old := if nb % 8 = 0 then 0 else (s.spadByte d c (o + k - 1)).toNat >>> (nb % 8) <<< (nb % 8)
  let v := packCodes bits cs + old <<< (8 * (k - 1))
  (leBytes k v).mapIdx (fun x b => (o + x, b))

/-- The columns of a matrix of `n` columns. -/
def columns (n : Nat) (m : List (List Nat)) : List (List Nat) := (List.range n).map (fun j => m.map (fun r => r.getD j 0))

/-- The writes of a matrix of element codes into a row-major or column-major tile. -/
def State.codeWrites (s : State) (d c : Nat) (t : Tile) (m : List (List Nat)) : List (Nat × Byte) :=
  let ls := if t.f.layout = 1 then columns ((m.headD []).length) m else m
  (ls.mapIdx (fun l cs => s.lineWrites d c (t.at l 0) (fmtBits t.f.fmt) cs)).flatten

/-- The writes of a matrix of values into a tile (R142, R195 to R197). -/
def State.valueWrites (s : State) (d c : Nat) (t : Tile) (sr : Sr) (m : List (List FV)) : List (Nat × Byte) :=
  let rows := m.mapIdx (fun i r => encodeRow t.f.fmt sr i r)
  let sc := (rows.mapIdx (fun i r => r.2.mapIdx (fun b x => (t.base + t.f.scale + i * (2 * t.f.cols) + b, BitVec.ofNat 8 x)))).flatten
  s.codeWrites d c t (rows.map (fun r => r.1)) ++ sc

/-- What a start leads to: its result, the state of the group it opens or continues, what it leaves resident in an array
(`none` clears it), additions to counters at the start, events at the start, and the free values used. -/
structure Plan where
  res : Result
  group : Option (Nat × Group)
  resident : Option (Nat × Option (Td × Stationary))
  counts : List (FRef × Nat)
  events : List Ev
  used : Nat
  deriving DecidableEq, Repr

/-- A plan that writes bytes and takes a count of cycles. -/
def planOf (writes : List (Nat × Byte)) (cycles : Nat) : Plan :=
  { res := { writes := writes, group := none, counts := [], events := [], cycles := cycles }, group := none,
    resident := none, counts := [], events := [], used := 0 }

end Sys2Proof.Machine
end

