-- ==== Sys2Proof/Machine/Transcend.lean ====
section
/-! DEFINITION. The correctly rounded functions of the output stage and the vector unit (R194, R199): each is computed with a
bounded error in integers of `prec` bits; where both ends of the error interval round to the same FP32 value that is the
nearest one. -/

namespace Sys2Proof.Machine

/-- Integer square root by bisection on bits: the largest r with r * r at most n, from `k` result bits. -/
def isqrt (n : Nat) (k : Nat) (r : Nat) : Nat :=
  match k with
  | 0 => r
  | k + 1 => let t := r + 2 ^ k; isqrt n k (if t * t ≤ n then t else r)

/-- atanh(1/q) in units of 2^-p: the sum of 1/((2k+1) q^(2k+1)) for n terms from term k. -/
def atanhInv (p q : Nat) (n k : Nat) : Nat :=
  match n with
  | 0 => 0
  | n + 1 => 2 ^ p / ((2 * k + 1) * q ^ (2 * k + 1)) + atanhInv p q n (k + 1)

/-- ln 2 in units of 2^-p. -/
def ln2Fix (p : Nat) : Nat := 2 * atanhInv p 3 (p / 3 + 2) 0

/-- arctan(1/q) in units of 2^-p, as an alternating sum of n terms from term k. -/
def atanInv (p q : Nat) (n k : Nat) : Int :=
  match n with
  | 0 => 0
  | n + 1 =>
    let t : Int := ((2 ^ p / ((2 * k + 1) * q ^ (2 * k + 1)) : Nat) : Int)
    (if k % 2 = 0 then t else -t) + atanInv p q n (k + 1)

/-- Pi in units of 2^-p (Machin's formula). -/
def piFix (p : Nat) : Nat := (16 * atanInv p 5 (p / 4 + 2) 0 - 4 * atanInv p 239 (p / 15 + 2) 0).toNat

/-- exp(r) - 1 summed in units of 2^-p for 0 ≤ r < 1: n terms, the current term `t` being r^k / k!. -/
def expSeries (p r : Nat) (n k t : Nat) : Nat :=
  match n with
  | 0 => 0
  | n + 1 => let t := t * r / 2 ^ p / k; t + expSeries p r n (k + 1) t

/-- exp of x (in units of 2^-p, any sign) as (m, k): m / 2^p times 2^k, m about 2^p to 2^(p+1), with an error of at most
2^12 units of m. -/
def expFix (p : Nat) (x : Int) : Nat × Int :=
  let l : Int := (ln2Fix p : Nat)
  let k := x / l
  let r := (x - k * l).toNat
  (2 ^ p + expSeries p r (p / 4 + 20) 1 (2 ^ p), k)

/-- A finite value in units of 2^-p, rounded down. -/
def toFix (p : Nat) (neg : Bool) (m : Nat) (e : Int) : Int :=
  let s := e + p
  if 0 ≤ s then sgn neg (m * 2 ^ s.toNat) else sgn neg m / (2 ^ (-s).toNat : Nat)

/-- The FP32 value nearest a real number known to lie in [(m - d) 2^e, (m + d) 2^e], saturating; `none` where the interval does
not decide it. -/
def nearest (neg : Bool) (m d : Nat) (e : Int) : Option FV :=
  let a := (rn32 (.fin neg (m - d) e)).1
  let b := (rn32 (.fin neg (m + d) e)).1
  if f32.encode a = f32.encode b then some b else none

/-- The first decided candidate, at rising precision; the last resort is the midpoint. -/
def atPrec (f : Nat → Bool × Nat × Nat × Int) : FV :=
  let a := f 320
  match nearest a.1 a.2.1 a.2.2.1 a.2.2.2 with
  | some v => v
  | none =>
    let b := f 640
    match nearest b.1 b.2.1 b.2.2.1 b.2.2.2 with
    | some v => v
    | none => (rn32 (.fin b.1 b.2.1 b.2.2.2)).1

/-- sigmoid(v), v in units of 2^-p, as (m, e): m times 2^e, with relative error below 2^(20 - p). -/
def sigmoidFix (p : Nat) (v : Int) : Nat × Int :=
  let t := expFix p (-(v.natAbs : Int))
  let s := (p - t.2).toNat
  let d := 2 ^ s + t.1
  if v < 0 then (t.1 * 2 ^ s / d, t.2 - p) else (2 ^ (s + p) / d, -(p : Int))

/-- The largest finite FP32 value. -/
def f32Max : FV := .fin false f32.maxFin.1 f32.maxFin.2

/-- One. -/
def fvOne : FV := .fin false 1 0

/-- Whether a magnitude exceeds a natural number. -/
def magAbove (m : Nat) (e : Int) (n : Nat) : Bool := magGt m e n 0

/-- e^a. -/
def fexp (a : FV) : FV :=
  match a with
  | .nan => .nan
  | .inf neg => if neg then .zero else .inf false
  | .fin neg m e =>
    if m = 0 then fvOne
    else if magAbove m e 110 then (if neg then .zero else f32Max)
    else atPrec (fun p => let r := expFix p (toFix p neg m e); (false, r.1, 2 ^ 14, r.2 - p))

/-- ln m for a value m times 2^e in units of 2^-p. -/
def lnFix (p m : Nat) (e : Int) : Int :=
  let l := ilog m e
  let f : Nat := (toFix p false m (e - l)).toNat
  let (f, l) := if 4 * 2 ^ p < 3 * f then (f / 2, l + 1) else (f, l)
  let one : Int := (2 ^ p : Nat)
  let z : Int := ((f : Int) - one) * one / ((f : Int) + one)
  let zz := z * z / one
  let rec series (n k : Nat) (t : Int) : Int :=
    match n with
    | 0 => 0
    | n + 1 => t / (2 * k + 1 : Nat) + series n (k + 1) (t * zz / one)
  l * (ln2Fix p : Nat) + 2 * series (p / 4 + 8) 0 z

/-- ln a. -/
def flog (a : FV) : FV :=
  match a with
  | .nan => .nan
  | .inf neg => if neg then .nan else .inf false
  | .fin neg m e =>
    if m = 0 then .inf true
    else if neg then .nan
    else if !magGt m e 1 0 ∧ !magGt 1 0 m e then .zero
    else atPrec (fun p => let v := lnFix p m e; (decide (v < 0), v.natAbs, 2 ^ 16, -(p : Int)))

/-- 1 / a, with a sticky bit below the quotient. -/
def frecip (a : FV) : FV :=
  match a with
  | .nan => .nan
  | .inf neg => .fin neg 0 0
  | .fin neg m e =>
    if m = 0 then .inf neg
    else
      let n := 2 ^ (Nat.log2 m + 64)
      (rn32 (.fin neg (2 * (n / m) + (if n % m = 0 then 0 else 1)) (-(Nat.log2 m : Int) - 65 - e))).1

/-- 1 / sqrt a: the square root of 2^128 / a, with a sticky bit. -/
def frsqrt (a : FV) : FV :=
  match a with
  | .nan => .nan
  | .inf neg => if neg then .nan else .zero
  | .fin neg m e =>
    if m = 0 then .inf neg
    else if neg then .nan
    else
      let (m, e) := if e % 2 = 0 then (m, e) else (2 * m, e - 1)
      let n := 2 ^ 256 / m
      let r := isqrt n 130 0
      let exact := decide (r * r * m = 2 ^ 256)
      (rn32 (.fin false (2 * r + (if exact then 0 else 1)) (-129 - e / 2))).1

/-- tanh a. Below 2^-14 the function lies within a quarter unit of a. -/
def ftanh (a : FV) : FV :=
  match a with
  | .nan => .nan
  | .inf neg => .fin neg 1 0
  | .fin neg m e =>
    if m = 0 ∨ ilog m e < -14 then (rn32 a).1
    else if magAbove m e 20 then .fin neg 1 0
    else atPrec (fun p =>
      let t := expFix p (-2 * ((toFix p false m e).natAbs : Int))
      let s := (p - t.2).toNat
      (neg, (2 ^ s - t.1) * 2 ^ p / (2 ^ s + t.1), 2 ^ 30, -(p : Int)))

/-- 1 / (1 + e^-a). -/
def fsigmoid (a : FV) : FV :=
  match a with
  | .nan => .nan
  | .inf neg => if neg then .zero else fvOne
  | .fin neg m e =>
    if magAbove m e 120 then (if neg then .zero else fvOne)
    else atPrec (fun p => let r := sigmoidFix p (toFix p neg m e); (false, r.1, 2 ^ 24, r.2))

/-- GELU (R194): y times sigmoid(2u) with u = sqrt(2 / pi) (y + 0.044715 y^3). -/
def fgelu (a : FV) : FV :=
  match a with
  | .nan => .nan
  | .inf neg => if neg then .fin true 0 0 else .inf false
  | .fin neg m e =>
    if m = 0 then .fin neg 0 f32.qmin
    else if magAbove m e 14 then (if neg then .fin true 0 f32.qmin else (rn32 a).1)
    else atPrec (fun p =>
      let y := toFix p neg m e
      let one : Int := (2 ^ p : Nat)
      let y3 := y * y / one * y / one
      let c : Int := ((isqrt (2 * 2 ^ (3 * p) / piFix p) (p + 2) 0 : Nat) : Int)
      let v := 2 * (c * (y + y3 * 44715 / 1000000) / one)
      let r := sigmoidFix p v
      (neg, r.1 * m, 2 ^ 24 * m, r.2 + e))

/-- SiLU (R194): y / (1 + e^-y). -/
def fsilu (a : FV) : FV :=
  match a with
  | .nan => .nan
  | .inf neg => if neg then .fin true 0 0 else .inf false
  | .fin neg m e =>
    if m = 0 then .fin neg 0 f32.qmin
    else if magAbove m e 120 then (if neg then .fin true 0 f32.qmin else (rn32 a).1)
    else atPrec (fun p => let r := sigmoidFix p (toFix p neg m e); (neg, r.1 * m, 2 ^ 24 * m, r.2 + e))

/-- The table activation (R194): fma32(slope[j], y, intercept[j]), and whether it saturated. `lo` and `step` are the FP32 bits. -/
def ftable (lo step : Nat) (slope icept : Nat → Nat) (y : FV) : FV × Bool :=
  let ex : Int := (field step 23 8 : Int) - 127
  let d := y.add ((f32.decode lo).neg)
  let pick (j : Nat) : FV × Bool := rn32 (((f32.decode (slope j)).mul y).add (f32.decode (icept j)))
  match d with
  | .nan => (.nan, false)
  | .inf neg => pick (if neg then 0 else 63)
  | .fin neg m e =>
    let k := e - ex
    let z : Int := if 0 ≤ k then sgn neg (m * 2 ^ k.toNat) else sgn neg m / (2 ^ (-k).toNat : Nat)
    pick (min 63 z.toNat)

end Sys2Proof.Machine
end

