-- ==== Sys2Proof/Machine/Matrix.lean ====
section
/-! DEFINITION. Matrix products on the arrays and the matrix-vector path (R136 to R164), accumulation groups (R185 to R191), the
order of sums (R173 to R182) and the fused output stage (R192 to R194). -/

namespace Sys2Proof.Machine

/-- An operand element at a logical K position: its value without the scale, and the exponent of its block's scale; `none`
where it contributes nothing (R156, R228). -/
abbrev El := Option (FV × Int)

/-- The exact product of two elements with the exponent of its factor (R173). -/
def elMul (a b : El) : El :=
  match a, b with
  | some (x, k), some (y, l) => some (x.mul y, k + l)
  | _, _ => none

/-- The exact sum of the present products of one cell (R173, R174). -/
def cellSum (ps : List El) : El :=
  match ps with
  | [] => none
  | none :: r => cellSum r
  | some (v, k) :: r =>
    match cellSum r with
    | none => some (v, k)
    | some (w, _) => some (v.add w, k)

/-- Cell sums into the FP32 total, in order, and whether a finite sum saturated (R175, R176). -/
def sumFp32 (cells : List El) (t : FV) (ovf : Bool) : FV × Bool :=
  match cells with
  | [] => (t, ovf)
  | none :: r => sumFp32 r t ovf
  | some (v, k) :: r => let x := rn32 (t.add (v.scale k)); sumFp32 r x.1 (ovf || x.2)

/-- The cell sums of one run into acc16, without the factor, with the factor's exponent (R178). -/
def sumRun (cells : List El) (t : FV × Int) (ovf : Bool) : FV × Int × Bool :=
  match cells with
  | [] => (t.1, t.2, ovf)
  | none :: r => sumRun r t ovf
  | some (v, k) :: r => let x := rn16 (t.1.add v); sumRun r (x.1, k) (ovf || x.2)

/-- Runs into the FP32 total; a run with no present product is skipped (R178). -/
def sumRuns (runs : List (List El)) (t : FV) (ovf : Bool) : FV × Bool :=
  match runs with
  | [] => (t, ovf)
  | cs :: r =>
    if cs.all Option.isNone then sumRuns r t ovf
    else
      let a := sumRun cs (.zero, 0) ovf
      let x := rn32 (t.add (a.1.scale a.2.1))
      sumRuns r x.1 (a.2.2 || x.2)

/-- The sum of products of one output: P products per cell, and runs of `le` positions (0: FP32 accumulation) (R175, R178, R181). -/
def dot (p le : Nat) (t : FV) (ps : List El) : FV × Bool :=
  if le = 0 then sumFp32 ((pieces p ps).map cellSum) t false
  else sumRuns ((pieces le ps).map (fun r => (pieces p r).map cellSum)) t false

/-- Products per cell of one MX format (R137). -/
def pMx (f acc : Nat) : Nat := if f = 9 then (if acc = 0 then 4 else 8) else if acc = 0 then 2 else 4

/-- Products per cell for a pairing of formats, or `none` where the pairing is not allowed (R137). -/
def pOf (fa fb acc : Nat) : Option Nat :=
  if (fa = 1 ∧ fb = 1) ∨ (fa = 2 ∧ fb = 2) then (if acc = 0 then some 1 else none)
  else if fa = 10 ∧ fb = 10 then (if acc = 0 then some 2 else none)
  else if (fa = 3 ∨ fa = 4) ∧ (fb = 3 ∨ fb = 4) then some (if acc = 0 then 2 else 4)
  else if isMx fa ∧ isMx fb then some (min (pMx fa acc) (pMx fb acc))
  else none

/-- The run length in effect: 0 with FP32 accumulation (R178). -/
def runLen (fa acc : Nat) : Nat := if acc = 0 then 0 else if isMx fa then min (8 * 2 ^ acc) 32 else 8 * 2 ^ acc

/-- The OPX fields that MMA, MVP and HAND share (R138, R163, R225). -/
structure MOpx where
  acc : Nat
  cont : Bool
  part : Bool
  strict : Bool
  trans : Bool
  keep : Bool
  act : Nat
  scale : Bool
  bias : Bool
  sr : Bool
  taps : Nat
  deriving DecidableEq, Repr

/-- The layout of OPX of MMA (R138). -/
def mOpx (o : Nat) : MOpx :=
  { acc := field o 0 2, cont := o.testBit 2, part := o.testBit 3, strict := o.testBit 4, trans := o.testBit 5, keep := o.testBit 6,
    act := field o 8 3, scale := o.testBit 11, bias := o.testBit 12, sr := o.testBit 13, taps := 2 ^ field o 14 2 }

/-- The parameters of an output stage: the parameter block and what is read of it (R193). -/
structure Stage where
  o : MOpx
  block : Option Tile
  deriving DecidableEq, Repr

/-- An FP32 code of the parameter block. -/
def State.param (s : State) (d c : Nat) (b : Tile) (row n : Nat) : Nat := s.tileCode d c b row n

/-- An activation of R194, and whether it saturated. -/
def State.activate (s : State) (d c : Nat) (st : Stage) (y : FV) : FV × Bool :=
  match st.o.act, st.block with
  | 1, _ => (match y with
      | .nan => (.nan, false)
      | _ => (if FV.zero.lt y then y else .zero, false))
  | 2, _ => (fgelu y, false)
  | 3, _ => (fsilu y, false)
  | 4, some b => ftable (s.param d c b 2 0) (s.param d c b 2 1) (fun j => s.param d c b 3 j) (fun j => s.param d c b 4 j) y
  | _, _ => (y, false)

/-- The output stage before its conversion, for column `n` (R192). -/
def State.outStage (s : State) (d c : Nat) (st : Stage) (n : Nat) (y : FV) : FV × Bool :=
  match st.block with
  | none => s.activate d c st y
  | some b =>
    let r := if st.o.scale then rn32 (y.mul (f32.decode (s.param d c b 0 n))) else (y, false)
    let q := if st.o.bias then rn32 (r.1.add (f32.decode (s.param d c b 1 n))) else (r.1, false)
    let z := s.activate d c st q.1
    (z.1, r.2 || q.2 || z.2)

/-- The parameter block of TDC, where the output stage reads it: FP32, row-major, ROWS 1 and TDD's COLS (R138, R193). -/
def State.paramBlock (s : State) (d c : Nat) (e : QEntry) (cols : Nat) (use : Bool) : Except UFault (Option Tile) :=
  if use = false then .ok none
  else do
    let f ← tdOk e.t.tdc e.tdc
    check (f.fmt = 0 ∧ f.layout = 0 ∧ f.rows = 1 ∧ f.cols = cols) (.td (some e.t.tdc.toNat))
    let t ← s.tileAt d c f .rd f.denseExtent
    return some t

/-- The accumulator tile, 0 to 3, that `n` bytes at a core-space offset touch (R27, R146, R191). -/
def accTile (o n : Nat) : Option Nat := if o + n ≤ 0xC0000 then none else some ((max o 0xC0000 - 0xC0000) / 0x4000)

/-- The FP32 partial that SS names under CONT: the tile descriptor it stands for (R139). -/
def partialTd (f : TdF) (ss : Nat) : TdF :=
  { base := field ss 0 20, win := field ss 20 2, fmt := 0, layout := 0, rows := f.rows, cols := f.cols, stride := f.stride, vrows := f.vrows,
    vcols := f.vcols, scale := 0, rsv := false }

/-- The partial of an instruction, where CONT reads one (R139). -/
def State.partialOf (s : State) (d c : Nat) (cont : Bool) (f : TdF) (ss : Nat) : Except UFault (Option Tile) := do
  check (field ss 22 10 = 0) (.td none)
  if cont = false then return none
  else
    let p := partialTd f ss
    check (p.base % 32 = 0) (.td none)
    let t ← s.tileAt d c p .rd p.denseExtent
    return some t

/-- The accumulator tiles that open groups of a unit hold, those of parked items among them (R145, R186). -/
def Core.heldTiles (x : Core) (unit : Nat) : List Nat :=
  let holds (t : Nat) (e : Nat × Group) : Bool := e.2.isOpen && decide (e.2.unit = unit) && e.2.held.contains t
  (List.range 2).filter (fun t => x.groups.any (holds t) || x.kept.any (fun k => k.2.any (holds t)))

/-- What the common part of MMA, MVP and HAND is given: target (0 and 1 arrays, 2 matrix-vector path), group, tile descriptors,
the rows of the moving operand, the columns of the stationary one, products per cell, run length, valid K positions, and the
kept positions of a row block and a column block (R228). -/
structure Product where
  tgt : Nat
  g : Nat
  o : MOpx
  td : Tile
  rows : List (List El)
  cols : List (List El)
  p : Nat
  le : Nat
  kv : Nat
  keep : Nat → Nat → Option (List Bool)

/-- Whether a product is NaN. -/
def elNan (x : El) : Bool :=
  match x with
  | some (.nan, _) => true
  | _ => false

/-- The products of a row and a column at the kept positions. A product that is NaN counts wherever it stands: every NaN is that of the dense computation
(R184; log entry 113). -/
def products (a b : List El) (keep : Option (List Bool)) : List El :=
  match keep with
  | none => List.zipWith elMul a b
  | some k => List.zipWith (fun x y => if y || elNan x then x else none) (List.zipWith elMul a b) k

/-- The writes of free codes, and free scale bytes of an MX format, into the valid positions of a tile (R219; log entry 5). -/
def State.freeWrites (s : State) (d c : Nat) (t : Tile) (m n : Nat) : List (Nat × Byte) :=
  let v (k : Nat) : Nat := (Config.freeWord (s.fresh + k)).toNat
  s.codeWrites d c t ((List.range m).map (fun i => (List.range n).map (fun j => v (i * n + j)))) ++
    (if isMx t.f.fmt then
      (List.range m).flatMap (fun i => (List.range (ceilDiv n 32)).map (fun b =>
        (t.base + t.f.scale + i * (2 * t.f.cols) + b, BitVec.ofNat 8 (v (m * n + i * n + b)))))
    else [])

/-- MMA, MVP and HAND from their operands to their plan: groups and output tiles (R145, R146, R180, R185), the sums, the output
stage and the writes (R142, R192). `free` stands where the values are not specified (R219): the codes of the outputs. -/
def State.product (s : State) (d c : Nat) (e : QEntry) (x : Product) (free : Bool) (cycles : Nat) : Except UFault Plan := do
  let ss := e.ss.toNat
  let f := x.td.f
  let part ← s.partialOf d c x.o.cont f ss
  let dt := accTile x.td.base f.denseExtent
  let own (t : Option Nat) : Bool := match t with
    | none => true
    | some k => decide (x.tgt ≠ 2) && decide (k / 2 = x.tgt) && decide (f.rows = 1) && decide (f.cols = 1)
  let pt := match part with
    | none => none
    | some p => accTile p.base p.f.denseExtent
  check (own dt) (.td (some e.t.tdd.toNat))
  check (own pt) (.td none)
  let k := s.core d c
  let g := tabGet k.groups x.g groupReset
  check (x.o.cont || !g.isOpen) (.resource x.g 1)
  check (!x.o.cont || g.isOpen) (.resource x.g 2)
  check (!x.o.cont || (decide (g.unit = x.tgt) && decide (g.acc = x.o.acc) && decide (g.m = 64 * f.rows) && decide (g.n = 64 * f.cols)))
    (.td none)
  check (decide (x.tgt = 2) || decide ((if f.rows = 1 then 1 else 2) + (k.heldTiles x.tgt).length ≤ 2)) (.resource x.g 3)
  let base := if x.o.cont then g.count else 0
  let past := decide (2 ^ 24 < base + x.kv)
  check (!(past && (if x.o.cont then g.strict else x.o.strict))) (.strict x.g)
  let block ← s.paramBlock d c e f.cols (!x.o.part && (x.o.scale || x.o.bias || decide (x.o.act = 4)))
  let st : Stage := { o := x.o, block := block }
  let t0 (i n : Nat) : FV := match part with
    | none => .zero
    | some p => s.tileVal d c p i n
  let out := x.rows.mapIdx (fun i a => x.cols.mapIdx (fun n b =>
    let y := dot x.p x.le (t0 i n) (products a b (x.keep (i / 64) (n / 64)))
    if x.o.part then y else let z := s.outStage d c st n y.1; (z.1, y.2 || z.2)))
  let ovf := out.any (fun r => r.any (fun y => y.2))
  let sr : Sr := if x.o.sr ∧ ¬ x.o.part then some (e.seed, ss / 2 ^ 32) else none
  let n := x.rows.length * x.cols.length
  let writes :=
    if free then s.freeWrites d c x.td x.rows.length x.cols.length
    else s.valueWrites d c x.td sr (out.map (fun r => r.map (fun y => y.1)))
  let g' : Group :=
    { isOpen := true, unit := x.tgt, acc := x.o.acc, strict := if x.o.cont then g.strict else x.o.strict, m := 64 * f.rows, n := 64 * f.cols,
      count := min (base + x.kv) (2 ^ 24), ovf := x.o.cont && g.ovf, bx := (x.o.cont && g.bx) || past, held := if x.o.cont then g.held else [] }
  let p := planOf writes cycles
  return { p with
    res := { p.res with group := some { g := x.g, close := !x.o.part, ovf := if free then (Config.freeWord (s.fresh + 2 * n)).getLsbD 0 else ovf, held := dt.map (fun k => k % 2) } },
    group := some (x.g, g'), used := if free then 2 * n + 1 else 0 }

/-- Code and scale exponent as an operand element; a NaN scale makes the element NaN (R170). -/
def elOf (fmt code scale : Nat) : El :=
  if isMx fmt then
    match e8m0 scale with
    | none => some (.nan, 0)
    | some k => some (decodeEl fmt code, k)
  else some (decodeEl fmt code, 0)

/-- The elements of logical row `i` of a moving operand at its first `n` columns. -/
def State.rowEls (s : State) (d c : Nat) (t : Tile) (i : Int) (n : Nat) : List El :=
  (List.range n).map (fun j => elOf t.f.fmt (s.tileCode d c t i j)
    (if isMx t.f.fmt then s.scaleByte d c t i (2 * t.f.cols) (j / 32) else 0))

/-- The stationary operand that a descriptor names, all of it (R150, R171). -/
def State.loadStationary (s : State) (d c : Nat) (t : Tile) : Stationary :=
  { els := (List.range (64 * t.f.rows)).map (fun i => (List.range (64 * t.f.cols)).map (fun j => s.tileCode d c t i j)),
    scales := if isMx t.f.fmt then
        (List.range (64 * t.f.cols)).map (fun n => (List.range (2 * t.f.rows)).map (fun b => s.scaleByte d c t n (2 * t.f.rows) b))
      else [] }

/-- Column `n` of the stationary operand over `k` positions; under TRANS the operand is read along its other axis (R142). -/
def Stationary.col (w : Stationary) (fmt : Nat) (trans : Bool) (k n : Nat) : List El :=
  (List.range k).map (fun x =>
    let code := if trans then (w.els.getD n []).getD x 0 else (w.els.getD x []).getD n 0
    elOf fmt code ((w.scales.getD n []).getD (x / 32) 127))

/-- Bytes of `n` elements of a format, with MX scales. -/
def fmtBytes (fmt n : Nat) : Nat := n * fmtBits fmt / 8 + (if isMx fmt then n / 32 else 0)

/-- A pass of the fold: the tile it uses, and whether it is the first or the last of its output block (R143, R152). -/
structure Pass where
  key : List Nat
  first : Bool
  last : Bool
  deriving DecidableEq, Repr

/-- How many passes from the head of a list use the head's tile. -/
def runLength (k : List Nat) (ps : List Pass) : Nat :=
  match ps with
  | [] => 0
  | p :: r => if p.key = k then 1 + runLength k r else 0

/-- The length of each pass (R152): `cur` is the tile of the current run of passes and `share` its part of the next tile. -/
def passCycles (mov stat outB partB : Nat) (cur : Option (List Nat)) (share : Nat) (ps : List Pass) : List Nat :=
  match ps with
  | [] => []
  | p :: r =>
    let n := runLength p.key (p :: r)
    let sh := if cur = some p.key then share else if n = r.length + 1 then 0 else ceilDiv stat n
    max 64 (ceilDiv (mov + sh + (if p.first then partB else 0) + (if p.last then outB else 0)) 512)
      :: passCycles mov stat outB partB (some p.key) sh r

/-- T of R154 from the load cycles and the lengths of the passes. -/
def foldCycles (lw : Nat) (cs : List Nat) : Nat := lw + cs.dropLast.foldl (· + ·) 0 + 63 * cs.getLastD 0 / 64 + 137

/-- The passes of an MMA in fold order (R143): `a` row blocks, `b` column blocks, `n` slices. -/
def foldPasses (a b n : Nat) : List Pass :=
  (List.range b).flatMap (fun j => (List.range ((a + 1) / 2)).flatMap (fun q => (List.range n).flatMap (fun k =>
    let p : Pass := { key := [j, k], first := decide (k = 0), last := decide (k + 1 = n) }
    if 2 * q + 1 < a then [p, p] else [p])))

/-- The load cycles of the first stationary tile with `ks` valid K elements (R147, R150). -/
def loadCycles (ks p : Nat) : Nat := if ceilDiv ks p ≤ 32 then ceilDiv ks p else 65

/-- Formats that TDD may take (R141). -/
def tddOk (f : Nat) : Bool := decide (f ≤ 9) || decide (f = 11)

/-- The cycle count of an MMA (R152 to R154, R157). -/
def mmaCycles (fa fb fd a b k p kv : Nat) (keep cont inAcc partAcc : Bool) : Nat :=
  foldCycles (if keep then 0 else loadCycles (min kv (64 * p)) p)
    (passCycles (fmtBytes fa (4096 * p)) (fmtBytes fb (4096 * p)) (if inAcc then 0 else fmtBytes fd 4096)
      (if cont ∧ ¬ partAcc then 16384 else 0) none 0 (foldPasses a b (ceilDiv k (64 * p))))

/-- The moving row i under TAPS: rows i, i - 1, … of TDA one after the other (R160). `kv` positions are valid. -/
def State.tapRow (s : State) (d c : Nat) (t : Tile) (i taps kv : Nat) : List El :=
  ((List.range taps).flatMap (fun j => s.rowEls d c t ((i : Int) - j) (64 * t.f.cols))).take kv

/-- Whether two descriptors name the same stationary tile (R150). -/
def sameTile (x y : TdF) : Bool :=
  decide (x.base = y.base) && decide (x.win = y.win) && decide (x.fmt = y.fmt) && decide (x.rows = y.rows) && decide (x.cols = y.cols) &&
    decide (x.stride = y.stride)

/-- The history block that TAPS reads above BASE: rows -64 to -1 in the window, and for an MX format the scale bytes of the seven rows that TAPS can reach (R160;
DEDUCED, log entry 131. Unsafe). -/
def State.historyOk (s : State) (d c : Nat) (f : TdF) : Bool :=
  let step := f.stride * 32
  (s.window d c f.win ((f.base : Int) - (64 * step : Nat)) (63 * step + 8 * f.cols * fmtBits f.fmt) .rd).isSome &&
    (!isMx f.fmt || (s.window d c f.win ((f.base : Int) + f.scale - (14 * f.cols : Nat)) (14 * f.cols) .rd).isSome)

/-- The start of an MMA (R138 to R160). -/
def State.startMma (s : State) (d c : Nat) (e : QEntry) : Except UFault Plan := do
  let o := mOpx e.t.opx.toNat
  let arr := e.t.arr.toNat
  let fa ← tdOk e.t.tda e.tda
  let fb ← tdOk e.t.tdb e.tdb
  let fd ← tdOk e.t.tdd e.tdd
  let ta ← s.tileAt d c fa .rd fa.denseExtent
  let tb ← s.tileAt d c fb .rd fb.denseExtent
  let td ← s.tileAt d c fd .wr fd.denseExtent
  let p ← match pOf fa.fmt fb.fmt o.acc with
    | none => .error (.td none)
    | some p => .ok p
  check (!o.trans || (decide (p = 1) && decide (o.taps = 1))) (.td none)
  check (fa.layout = 2) (.td (some e.t.tda.toNat))
  check (fb.layout ≤ 1) (.td (some e.t.tdb.toNat))
  check (decide (fd.layout ≤ 1) && tddOk fd.fmt && (!o.part || (decide (fd.fmt = 0) && decide (fd.layout = 0)))) (.td (some e.t.tdd.toNat))
  let (bk, bn, bvk, bvn) := if o.trans then (fb.cols, fb.rows, fb.vcols, fb.vrows) else (fb.rows, fb.cols, fb.vrows, fb.vcols)
  check (fa.rows = fd.rows ∧ fa.rows ≤ 8 ∧ fa.cols * o.taps = bk ∧ bn = fd.cols ∧ bn ≤ 8 ∧ fa.vrows = fd.vrows ∧ fa.vcols = bvk ∧
    bvn = fd.vcols) (.td none)
  let core := s.core d c
  let same := match tabGet (core.resident.map (fun x => (x.1, some x.2))) arr none with
    | none => false
    | some r => sameTile (tdFields r) fb
  check (!o.keep || (same && decide (bn * ceilDiv bk p = 1))) (.td (some e.t.tdb.toNat))
  check (decide (o.taps = 1) || s.historyOk d c fa) (.window fa.win fa.base)
  let kv := 64 * (bk - 1) + bvk
  let w := if o.keep then tabGet core.stat arr { els := [], scales := [] } else s.loadStationary d c tb
  let part ← s.partialOf d c o.cont fd e.ss.toNat
  let partAcc := match part with
    | none => false
    | some q => (accTile q.base q.f.denseExtent).isSome
  let t := mmaCycles fa.fmt fb.fmt fd.fmt fa.rows bn (64 * bk) p kv o.keep o.cont (accTile td.base fd.denseExtent).isSome partAcc
  let plan ← s.product d c e
    { tgt := arr, g := e.t.grp.toNat, o := o, td := td, rows := (List.range fa.mValid).map (fun i => s.tapRow d c ta i o.taps kv),
      cols := (List.range (64 * (bn - 1) + bvn)).map (fun n => w.col fb.fmt o.trans kv n), p := p, le := runLen fa.fmt o.acc, kv := kv,
      keep := fun _ _ => none } false t
  return if o.keep then plan else { plan with resident := some (arr, some (e.tdb, w)) }

/-- Weight columns that one cycle of the matrix-vector path takes (R162). -/
def mvpW (fmt : Nat) : Nat := if fmtBits fmt = 16 then 4 else 8

/-- The format and shape rules of the matrix-vector path (R163); `la` and `lb` are the layouts that the operands may take. -/
def mvpShape (fa fb fd : TdF) : Bool :=
  decide (fa.fmt < 7 ∨ 9 < fa.fmt) && decide (fb.fmt < 7 ∨ 9 < fb.fmt) && (pOf fa.fmt fb.fmt 0).isSome && decide (fa.rows = 1) &&
    decide (fd.rows = 1) && decide (fa.vrows ≤ 8) && decide (fd.vrows = fa.vrows) && decide (fa.cols = fb.rows) && decide (fb.cols = fd.cols) &&
    decide (fa.vcols = fb.vrows) && decide (fb.vcols = fd.vcols)

/-- The start of an MVP (R162 to R164, R183). -/
def State.startMvp (s : State) (d c : Nat) (e : QEntry) : Except UFault Plan := do
  let o := mOpx e.t.opx.toNat
  let fa ← tdOk e.t.tda e.tda
  let fb ← tdOk e.t.tdb e.tdb
  let fd ← tdOk e.t.tdd e.tdd
  let ta ← s.tileAt d c fa .rd fa.denseExtent
  let tb ← s.tileAt d c fb .rd fb.denseExtent
  let td ← s.tileAt d c fd .wr fd.denseExtent
  check (fa.layout = 0) (.td (some e.t.tda.toNat))
  check (fb.layout = 1) (.td (some e.t.tdb.toNat))
  check (decide (fd.layout ≤ 1) && tddOk fd.fmt && (!o.part || (decide (fd.fmt = 0) && decide (fd.layout = 0)))) (.td (some e.t.tdd.toNat))
  check (mvpShape fa fb fd) (.td none)
  let w := s.loadStationary d c tb
  s.product d c e
    { tgt := 2, g := e.t.grp.toNat, o := o, td := td, rows := (List.range fa.mValid).map (fun i => s.rowEls d c ta i fa.nValid),
      cols := (List.range fb.nValid).map (fun n => w.col fb.fmt false fa.nValid n), p := (pOf fa.fmt fb.fmt 0).getD 1, le := 0,
      kv := fa.nValid, keep := fun _ _ => none } false (fa.cols * (64 * fb.cols / mvpW fa.fmt) * fa.vrows + 24)

/-- The operation of EWA by OPX[3:0] (R161). -/
def ewaOp (op : Nat) (a b : FV) : FV :=
  match op with
  | 0 => a.add b
  | 1 => a.add b.neg
  | 2 => a.mul b
  | 3 => a.max b
  | _ => a.min b

/-- Whether a tile has the sizes and masks of another. -/
def sameShape (x y : TdF) : Bool :=
  decide (x.rows = y.rows) && decide (x.cols = y.cols) && decide (x.vrows = y.vrows) && decide (x.vcols = y.vcols)

/-- The start of an EWA (R161). -/
def State.startEwa (s : State) (d c : Nat) (e : QEntry) : Except UFault Plan := do
  let fa ← tdOk e.t.tda e.tda
  let fb ← tdOk e.t.tdb e.tdb
  let fd ← tdOk e.t.tdd e.tdd
  let ta ← s.tileAt d c fa .rd fa.denseExtent
  let tb ← s.tileAt d c fb .rd fb.denseExtent
  let td ← s.tileAt d c fd .wr fd.denseExtent
  check (fa.fmt ≤ 2 ∧ fa.layout = 0) (.td (some e.t.tda.toNat))
  check (fb.fmt ≤ 2 ∧ fb.layout = 0) (.td (some e.t.tdb.toNat))
  check (fd.fmt ≤ 2 ∧ fd.layout = 0) (.td (some e.t.tdd.toNat))
  check (sameShape fa fd && sameShape fb fd) (.td none)
  let out := List.zipWith (List.zipWith (ewaOp (field e.t.opx.toNat 0 4))) (s.tileVals d c ta) (s.tileVals d c tb)
  let n := 64 * fd.rows * fd.cols * (if fa.fmt = 0 ∨ fb.fmt = 0 ∨ fd.fmt = 0 then 2 else 1) + 136
  return { planOf (s.valueWrites d c td none out) n with resident := some (e.t.arr.toNat, none) }

end Sys2Proof.Machine
end

