-- ==== Sys2Proof/Machine/Sparse.lean ====
section
/-! DEFINITION. Compressed operands (R205 to R219): where their metadata and elements stand, what is present, and the metadata
checks of R220. -/

namespace Sys2Proof.Machine

/-- Whether a LAYOUT code is a compressed one. -/
def isComp (layout : Nat) : Bool := decide (3 ≤ layout) && decide (layout ≤ 6)

/-- Formats of a compressed layout (R205). -/
def compFmt (layout f : Nat) : Bool :=
  if layout = 6 then decide (1 ≤ f ∧ f ≤ 4) || decide (f = 10) else decide (f ≤ 10)

/-- The KIND code of a compressed layout. -/
def kindOf (layout : Nat) : Nat := layout - 2

/-- Rows and columns of a block: 8, 16, or 64. -/
def blockEdge (layout : Nat) : Nat := if layout = 3 then 8 else if layout = 4 then 16 else 64

/-- Bytes of a square block of `b` rows (R206). -/
def blockBytes (b fmt : Nat) : Nat := b * b * fmtBits fmt / 8

/-- Bytes of a slot (R207). -/
def slotSize (layout fmt : Nat) : Nat := (if layout = 6 then 672 else 32) + blockBytes 64 fmt

/-- RPsz of a BL structure (R212). -/
def rpSize (brows : Nat) : Nat := 32 * ceilDiv (4 * (brows + 1)) 32

/-- IDXsz of a BL structure (R212). -/
def idxSize (nnz : Nat) : Nat := 32 * ceilDiv (2 * nnz) 32

/-- The reserve of a BL structure with PAYLOAD 1 (R213). -/
def blReserve (rows cols fmt : Nat) : Nat := 32 + rpSize rows + rows * cols * blockBytes 64 fmt

/-- The bytes that R96 checks for a compressed operand (R207). -/
def TdF.compExtent (f : TdF) : Nat := if f.layout = 5 then blReserve f.rows f.cols f.fmt else f.rows * f.cols * f.stride * 32

/-- The bytes of an operand's extent, dense or compressed. -/
def TdF.extent (f : TdF) : Nat := if isComp f.layout then f.compExtent else f.denseExtent

/-- The STRIDE rules of a compressed operand (R207). -/
def TdF.strideOk (f : TdF) : Bool :=
  if f.layout = 5 then decide (f.stride = 1)
  else if isComp f.layout then decide (slotSize f.layout f.fmt ≤ f.stride * 32) else true

/-- A slot or reserve: the core-space offset it starts at and its bytes. Reads are confined to it (R219). -/
structure Slot where
  o : Nat
  lim : Nat
  deriving DecidableEq, Repr

/-- The slot of tile (tr, tc), or the reserve of a BL structure. -/
def Tile.slot (t : Tile) (tr tc : Nat) : Slot :=
  if t.f.layout = 5 then { o := t.base, lim := blReserve t.f.rows t.f.cols t.f.fmt }
  else { o := t.base + (tr * t.f.cols + tc) * t.f.stride * 32, lim := slotSize t.f.layout t.f.fmt }

/-- A byte of a slot; one beyond it reads as zero (R219). -/
def State.slotByte (s : State) (d c : Nat) (k : Slot) (x : Nat) : Nat := if x < k.lim then (s.spadByte d c (k.o + x)).toNat else 0

/-- A little-endian number in a slot. -/
def State.slotNat (s : State) (d c : Nat) (k : Slot) (x n : Nat) : Nat :=
  match n with
  | 0 => 0
  | n + 1 => s.slotByte d c k x + 256 * s.slotNat d c k (x + 1) n

/-- The bytes of a slot from `x`. -/
def State.slotBytes (s : State) (d c : Nat) (k : Slot) (x n : Nat) : List Byte :=
  (List.range n).map (fun i => BitVec.ofNat 8 (s.slotByte d c k (x + i)))

/-- The element code at a bit of a slot's payload. -/
def State.slotCode (s : State) (d c : Nat) (k : Slot) (x bit bits : Nat) : Nat :=
  codeAt (fun b => s.slotByte d c k (x + b)) bit bits

/-- The occupancy of a BB8 or BB16 header (R209, R211). -/
def State.occ (s : State) (d c layout : Nat) (k : Slot) : Nat := s.slotNat d c k 0 (if layout = 3 then 8 else 2)

/-- DF of a tile or structure (R209, R211, R212, R214). -/
def State.denseForm (s : State) (d c layout : Nat) (k : Slot) : Bool :=
  if layout = 6 then (s.slotNat d c k 0 2).testBit 15 else (s.slotByte d c k 12).testBit 7

/-- A row pointer of a BL structure. -/
def State.rowPtr (s : State) (d c : Nat) (k : Slot) (br : Nat) : Nat := s.slotNat d c k (32 + 4 * br) 4

/-- The block column indices of a BL row, at most BCOLS of them (R212, R219). -/
def State.blRow (s : State) (d c : Nat) (t : Tile) (k : Slot) (br : Nat) : List Nat :=
  let a := s.rowPtr d c k br
  let n := min (s.rowPtr d c k (br + 1) - a) t.f.cols
  (List.range n).map (fun i => s.slotNat d c k (32 + rpSize t.f.rows + 2 * (a + i)) 2)

/-- Whether element (i, j) of a compressed operand is present, by its metadata (R205, R218). -/
def State.compPresent (s : State) (d c : Nat) (t : Tile) (i j : Nat) : Bool :=
  let l := t.f.layout
  let k := t.slot (i / 64) (j / 64)
  if s.denseForm d c l k then true
  else if l = 5 then (s.blRow d c t k (i / 64)).contains (j / 64)
  else if l = 6 then (s.slotNat d c k (16 + 8 * (i % 64)) 8).testBit (j % 64)
  else
    let b := blockEdge l
    (s.occ d c l k).testBit ((64 / b) * (i % 64 / b) + j % 64 / b)

/-- The code of element (i, j) of a compressed operand; an absent one reads as +0 (R208, R210, R212, R214, R218). -/
def State.compCode (s : State) (d c : Nat) (t : Tile) (i j : Nat) : Nat :=
  let l := t.f.layout
  let bits := fmtBits t.f.fmt
  let k := t.slot (i / 64) (j / 64)
  let blk := blockBytes 64 t.f.fmt
  if s.compPresent d c t i j = false then 0
  else if l = 5 then
    if s.denseForm d c l k then
      s.slotCode d c k (32 + rpSize t.f.rows + (i / 64 * t.f.cols + j / 64) * blk) ((i % 64 * 64 + j % 64) * bits) bits
    else
      let row := s.blRow d c t k (i / 64)
      let n := s.rowPtr d c k (i / 64) + firstIdx row (fun x => decide (x = j / 64)) 0
      s.slotCode d c k (32 + rpSize t.f.rows + idxSize (s.slotNat d c k 0 4) + n * blk) ((i % 64 * 64 + j % 64) * bits) bits
  else if l = 6 then
    if s.denseForm d c l k then s.slotCode d c k 672 ((i % 64 * 64 + j % 64) * bits) bits
    else
      let bm := s.slotNat d c k (16 + 8 * (i % 64)) 8
      s.slotCode d c k (672 + s.slotNat d c k (528 + 2 * (i % 64)) 2) (popcount (j % 64) bm * bits) bits
  else if s.denseForm d c l k then s.slotCode d c k 32 ((i % 64 * 64 + j % 64) * bits) bits
  else
    let b := blockEdge l
    let n := popcount ((64 / b) * (i % 64 / b) + j % 64 / b) (s.occ d c l k)
    s.slotCode d c k (32 + n * blockBytes b t.f.fmt) ((i % b * b + j % b) * bits) bits

/-- The census code of full occupancy in BB8 and BB16: ROWCNT (R209, R211, R218). -/
def fullRowCnt (layout : Nat) : Nat := if layout = 3 then 0x88888888 else 0x4444

/-- The first failing check of a BB8 or BB16 slot, 0 where none fails (R220); CHK is looked at only for `crc`. -/
def State.checkBb (s : State) (d c : Nat) (t : Tile) (k : Slot) (crc : Bool) : Nat :=
  let l := t.f.layout
  let e := 64 / blockEdge l
  let occ := s.occ d c l k
  let cnt := if l = 3 then s.slotNat d c k 8 4 else s.slotNat d c k 2 2
  let pres := field (s.slotByte d c k 12) 0 (if l = 3 then 7 else 5)
  let rows := (List.range e).map (fun r => popcount e (occ >>> (r * e)))
  let full := decide (occ = 2 ^ (e * e) - 1) && decide (pres = e * e) && decide (cnt = fullRowCnt l)
  if field (s.slotByte d c k 13) 4 4 ≠ kindOf l then 1
  else if field (s.slotByte d c k 13) 0 4 ≠ t.f.fmt then 2
  else if crc ∧ s.slotNat d c k 14 2 ≠ crc16 (s.slotBytes d c k 0 14) then 3
  else if pres ≠ popcount (e * e) occ then 4
  else if (rows.mapIdx (fun r n => decide (field cnt (4 * r) 4 ≠ n))).any id then 5
  else if s.denseForm d c l k ∧ ¬ full then 6
  else if !s.denseForm d c l k ∧ k.lim < 32 + popcount (e * e) occ * blockBytes (blockEdge l) t.f.fmt then 9
  else 0

/-- The first failing check of a ZS slot (R220). -/
def State.checkZs (s : State) (d c : Nat) (t : Tile) (k : Slot) (crc : Bool) : Nat :=
  let w := s.slotNat d c k 0 2
  let size := fmtBits t.f.fmt / 8
  let rows := (List.range 64).map (fun r => popcount 64 (s.slotNat d c k (16 + 8 * r) 8))
  let offs := (List.range 64).map (fun r => s.slotNat d c k (528 + 2 * r) 2)
  let sum := rows.foldl (· + ·) 0
  let df := s.denseForm d c 6 k
  if field (s.slotByte d c k 13) 4 4 ≠ 4 then 1
  else if field (s.slotByte d c k 13) 0 4 ≠ t.f.fmt then 2
  else if crc ∧ s.slotNat d c k 14 2 ≠ crc16 (s.slotBytes d c k 0 14 ++ s.slotBytes d c k 16 640) then 3
  else if field w 0 13 ≠ sum then 4
  else if (offs.mapIdx (fun r o => decide (o ≠ (rows.take r).foldl (· + ·) 0 * size))).any id then 5
  else if df ∧ sum ≠ 4096 then 6
  else if !df ∧ (List.zipWith (fun o n => decide (k.lim < 672 + o + n * size)) offs rows).any id then 9
  else 0

/-- Whether numbers never fall. -/
def nonDecreasing (xs : List Nat) : Bool :=
  match xs with
  | a :: b :: r => decide (a ≤ b) && nonDecreasing (b :: r)
  | _ => true

/-- Whether numbers rise strictly. -/
def ascending (xs : List Nat) : Bool :=
  match xs with
  | a :: b :: r => decide (a < b) && ascending (b :: r)
  | _ => true

/-- The first failing check of a BL structure (R220); reads stay within the reserve. -/
def State.checkBl (s : State) (d c : Nat) (t : Tile) (k : Slot) (crc : Bool) : Nat :=
  let nnz := s.slotNat d c k 0 4
  let brows := s.slotNat d c k 4 2 + 1
  let bcols := s.slotNat d c k 6 2 + 1
  let df := s.denseForm d c 5 k
  let payload := (s.slotByte d c k 12).testBit 0
  let rp := (List.range (brows + 1)).map (fun r => s.rowPtr d c k r)
  let idx (br : Nat) : List Nat :=
    (List.range (min (rp.getD (br + 1) 0 - rp.getD br 0) bcols)).map
      (fun i => s.slotNat d c k (32 + rpSize brows + 2 * (rp.getD br 0 + i)) 2)
  let blk := blockBytes 64 t.f.fmt
  let bytes := 32 + rpSize brows + (if df then (if payload then brows * bcols * blk else 0)
    else idxSize nnz + (if payload then nnz * blk else 0))
  if field (s.slotByte d c k 13) 4 4 ≠ 3 then 1
  else if field (s.slotByte d c k 13) 0 4 ≠ t.f.fmt then 2
  else if crc ∧ s.slotNat d c k 14 2 ≠ crc16 (s.slotBytes d c k 0 14) then 3
  else if nnz ≠ rp.getD brows 0 then 4
  else if rp.headD 0 ≠ 0 ∨ nonDecreasing rp = false then 5
  else if df ∧ (rp.mapIdx (fun r v => decide (v ≠ r * bcols))).any id then 6
  else if !df ∧ (List.range brows).any (fun br => !(ascending (idx br)) || (idx br).any (fun x => decide (bcols ≤ x)) ||
      decide (bcols < rp.getD (br + 1) 0 - rp.getD br 0)) then 7
  else if brows ≠ t.f.rows ∨ bcols ≠ t.f.cols then 8
  else if k.lim < bytes then 9
  else 0

/-- The slots of a compressed operand in order of their index tr × COLS + tc; a BL structure is one. -/
def Tile.slots (t : Tile) : List Slot :=
  if t.f.layout = 5 then [t.slot 0 0]
  else (List.range (t.f.rows * t.f.cols)).map (fun n => t.slot (n / t.f.cols) (n % t.f.cols))

/-- The first failing check of each slot, in order. -/
def State.checkSlots (s : State) (d c : Nat) (t : Tile) (crc : Bool) : List Nat :=
  t.slots.map (fun k => if t.f.layout = 5 then s.checkBl d c t k crc else if t.f.layout = 6 then s.checkZs d c t k crc else s.checkBb d c t k crc)

/-- Whether the metadata of a HAND operand is right but for CHK, which the Harness does not read there, and a BL structure has its blocks (R207, R219;
DEDUCED, log entry 38). -/
def State.compConsistent (s : State) (d c : Nat) (t : Tile) : Bool :=
  !isComp t.f.layout || ((s.checkSlots d c t false).all (fun x => decide (x = 0)) &&
    (decide (t.f.layout ≠ 5) || (s.slotByte d c (t.slot 0 0) 12).testBit 0))

/-- A read of `n` bytes of a slot from `x`, where it reaches beyond the slot: the core-space offset it starts at, and whether all of it lies beyond. -/
def escape (k : Slot) (x n : Nat) : List (Nat × Bool) := if n ≠ 0 ∧ k.lim < x + n then [(k.o + x, decide (k.lim ≤ x))] else []

/-- The reads of rows of indices and elements that the metadata implies and that reach beyond the slot or reserve (R219). Elements are read of the
64 × 64 blocks that `used` names by block row and column. -/
def State.compEscapes (s : State) (d c : Nat) (t : Tile) (used : Nat → Nat → Bool) : List (Nat × Bool) :=
  if isComp t.f.layout = false then []
  else (t.slots.mapIdx (fun x k =>
    let l := t.f.layout
    let blk := blockBytes 64 t.f.fmt
    if s.denseForm d c l k then []
    else if l = 5 then
      (List.range t.f.rows).flatMap (fun br =>
        let a := s.rowPtr d c k br
        let n := min (s.rowPtr d c k (br + 1) - a) t.f.cols
        escape k (32 + rpSize t.f.rows + 2 * a) (2 * n) ++ ((s.blRow d c t k br).mapIdx (fun i j =>
          if used br j then escape k (32 + rpSize t.f.rows + idxSize (s.slotNat d c k 0 4) + (a + i) * blk) blk else [])).flatten)
    else if l = 6 ∧ used (x / t.f.cols) (x % t.f.cols) then
      (List.range 64).flatMap (fun r =>
        escape k (672 + s.slotNat d c k (528 + 2 * r) 2) (popcount 64 (s.slotNat d c k (16 + 8 * r) 8) * (fmtBits t.f.fmt / 8)))
    else [])).flatten

/-- The reads of HCHECK that reach beyond the reserve of a BL structure whose header gives it more rows or indices than it has (R219, R220). -/
def State.checkEscapes (s : State) (d c : Nat) (t : Tile) : List (Nat × Bool) :=
  if t.f.layout ≠ 5 then []
  else
    let k := t.slot 0 0
    let brows := s.slotNat d c k 4 2 + 1
    let bcols := s.slotNat d c k 6 2 + 1
    (List.range (brows + 1)).flatMap (fun r => escape k (32 + 4 * r) 4) ++
      (if s.denseForm d c 5 k then [] else (List.range brows).flatMap (fun br =>
        let a := s.rowPtr d c k br
        (List.range (min (s.rowPtr d c k (br + 1) - a) bcols)).flatMap (fun i => escape k (32 + rpSize brows + 2 * (a + i)) 2)))

/-- Whether every tile of an operand has DF 1 (R233). -/
def State.allDense (s : State) (d c : Nat) (t : Tile) : Bool := t.slots.all (fun k => s.denseForm d c t.f.layout k)

/-- The elements of line `l` of an operand along K, for its first `n` positions: rows of a moving operand (`moving`), columns of
a stationary one. An absent element is +0 with the factor of its MX block where that block holds a present one (R208). -/
def State.operandLine (s : State) (d c : Nat) (t : Tile) (moving : Bool) (l n : Nat) : List El :=
  let per := if moving then 2 * t.f.cols else 2 * t.f.rows
  let ij (k : Nat) : Nat × Nat := if moving then (l, k) else (k, l)
  let pres (k : Nat) : Bool := s.compPresent d c t (ij k).1 (ij k).2
  let comp := isComp t.f.layout
  let blockPres : List Bool := if isMx t.f.fmt ∧ comp then
      (List.range (ceilDiv n 32)).map (fun b => (List.range (min 32 (n - 32 * b))).any (fun x => pres (32 * b + x)))
    else []
  (List.range n).map (fun k =>
    let sc := if isMx t.f.fmt then s.scaleByte d c t l per (k / 32) else 0
    if comp then
      if pres k then elOf t.f.fmt (s.compCode d c t (ij k).1 (ij k).2) sc
      else if isMx t.f.fmt ∧ blockPres.getD (k / 32) false then some (.zero, (e8m0 sc).getD 0)
      else some (.zero, 0)
    else elOf t.f.fmt (s.tileCode d c t (ij k).1 (ij k).2) sc)

/-- Whether a region of rows and columns of an operand holds a present unit; a dense operand always does (R227). -/
def State.presentIn (s : State) (d c : Nat) (t : Tile) (r0 rn c0 cn : Nat) : Bool :=
  if isComp t.f.layout = false then true
  else
    let l := t.f.layout
    let b := if l = 6 then 1 else blockEdge l
    (List.range (ceilDiv rn b)).any (fun r => (List.range (ceilDiv cn b)).any (fun x =>
      s.compPresent d c t (r0 / b * b + r * b) (c0 / b * b + x * b)))

end Sys2Proof.Machine
end

