-- ==== Sys2Proof/Machine/Compress.lean ====
section
/-! DEFINITION. What a compressing Dray store writes: presence, census, headers and payloads of the four compressed layouts (R205 to R218, R243). -/

namespace Sys2Proof.Machine

/-- Whether an element code is +0 or -0 (R215, R217). -/
def zeroCode (fmt v : Nat) : Bool := if fmt = 10 ∨ fmt = 12 then decide (v = 0) else decide (v % 2 ^ (fmtBits fmt - 1) = 0)

/-- The codes of 64 rows of `sw` bytes each, one after the other. -/
def rowCodes (fmt sw : Nat) (bs : List Byte) : List (List Nat) :=
  (List.range 64).map (fun i => (List.range 64).map (fun j =>
    codeAt (fun x => (bs.getD (i * sw + x) 0).toNat) (j * fmtBits fmt) (fmtBits fmt)))

/-- Codes as bytes, packed as in R171. -/
def codeBytes (fmt : Nat) (cs : List Nat) : List Byte := leBytes (cs.length * fmtBits fmt / 8) (packCodes (fmtBits fmt) cs)

/-- The codes of block (br, bc) of edge `e`, row by row. -/
def blockCodes (e : Nat) (m : List (List Nat)) (br bc : Nat) : List Nat :=
  ((m.drop (e * br)).take e).flatMap (fun r => (r.drop (e * bc)).take e)

/-- The numbers of present blocks of a 64 x 64 tile with blocks of edge `e`, ascending (R217). -/
def presentBlocks (fmt e : Nat) (m : List (List Nat)) : List Nat :=
  (List.range (64 / e * (64 / e))).filter (fun k => (blockCodes e m (k / (64 / e)) (k % (64 / e))).any (fun v => !zeroCode fmt v))

/-- The transpose of a matrix of 64 columns. -/
def transpose64 (m : List (List Nat)) : List (List Nat) := (List.range 64).map (fun j => m.map (fun r => r.getD j 0))

/-- A 16 B header whose bytes 14 and 15 are the CRC of bytes 0 to 13 and of `more` (R209, R214). -/
def headerChk (b : List Byte) (more : List Byte) : List Byte := b ++ leBytes 2 (crc16 (b ++ more))

/-- A sum of powers of two. -/
def maskOf (ks : List Nat) : Nat := (ks.map (fun k => 2 ^ k)).foldl (· + ·) 0

/-- The header of a BB8 or BB16 slot with the present blocks `ks` (R209, R211). -/
def bbHeader (layout fmt : Nat) (ks : List Nat) : List Byte :=
  let w := 64 / blockEdge layout
  let cnt := (((List.range w).map (fun br => (ks.filter (fun k => decide (k / w = br))).length <<< (4 * br))).foldl (· + ·) 0)
  let df := decide (ks.length = w * w)
  let body := if layout = 3 then leBytes 8 (maskOf ks) ++ leBytes 4 cnt else leBytes 2 (maskOf ks) ++ leBytes 2 cnt ++ leBytes 8 0
  headerChk (body ++ leBytes 1 (ks.length + if df then 128 else 0) ++ leBytes 1 (fmt + 16 * kindOf layout)) [] ++ leBytes 16 0

/-- The payload of a BB8 or BB16 slot (R210). -/
def bbPayload (layout fmt : Nat) (m : List (List Nat)) (ks : List Nat) : List Byte :=
  let e := blockEdge layout
  let w := 64 / e
  if ks.length = w * w then codeBytes fmt m.flatten
  else ks.flatMap (fun k => codeBytes fmt (blockCodes e m (k / w) (k % w)))

/-- Whether a ZS tile with `n` present elements takes the dense form (R217). -/
def zsDense (fmt n : Nat) : Bool := decide (4096 * fmtBits fmt / 8 ≤ 640 + n * (fmtBits fmt / 8))

/-- The number of present elements of a ZS tile. -/
def zsCount (fmt : Nat) (m : List (List Nat)) : Nat := ((m.map (fun r => (r.filter (fun v => !zeroCode fmt v)).length))).foldl (· + ·) 0

/-- The header region and the payload of a ZS slot (R214, R215, R217, R218). -/
def zsSlot (fmt : Nat) (m : List (List Nat)) : List Byte × List Byte :=
  let n := zsCount fmt m
  let df := zsDense fmt n
  let m := m.map (fun r => r.map (fun v => if zeroCode fmt v then 0 else v))
  let here (r : List Nat) : List Nat := (List.range 64).filter (fun e => df || decide (r.getD e 0 ≠ 0))
  let cnts := m.map (fun r => (here r).length)
  let offs := (List.range 64).map (fun i => ((cnts.take i).foldl (· + ·) 0) * (fmtBits fmt / 8))
  let maps := m.flatMap (fun r => leBytes 8 (maskOf (here r))) ++ offs.flatMap (fun o => leBytes 2 o)
  let b := leBytes 2 ((if df then 4096 else n) + if df then 2 ^ 15 else 0) ++ leBytes 11 0 ++ leBytes 1 (fmt + 16 * kindOf 6)
  (headerChk b maps ++ maps ++ leBytes 16 0,
   if df then codeBytes fmt m.flatten else m.flatMap (fun r => codeBytes fmt (r.filter (fun v => decide (v ≠ 0)))))

/-- Whether a BL structure takes the dense form (R217). -/
def blDense (brows bcols fmt nnz : Nat) : Bool :=
  decide (brows * bcols * blockBytes 64 fmt ≤ idxSize nnz + nnz * blockBytes 64 fmt)

/-- The fixed header of a BL structure with PAYLOAD 1 (R212). -/
def blHeader (brows bcols fmt nnz : Nat) (df : Bool) : List Byte :=
  headerChk (leBytes 4 nnz ++ leBytes 2 (brows - 1) ++ leBytes 2 (bcols - 1) ++ leBytes 4 0 ++ leBytes 1 (1 + if df then 128 else 0) ++
    leBytes 1 (fmt + 16 * kindOf 5)) [] ++ leBytes 16 0

/-- The row pointers of a BL structure, padded to RPsz. -/
def blPointers (rp : List Nat) (brows : Nat) : List Byte :=
  let b := rp.flatMap (fun v => leBytes 4 v)
  b ++ List.replicate (rpSize brows - b.length) 0

/-- The indices of a BL structure, padded to IDXsz. -/
def blIndices (idx : List Nat) : List Byte :=
  let b := idx.flatMap (fun v => leBytes 2 v)
  b ++ List.replicate (idxSize idx.length - b.length) 0

/-- The running sums of a list, from 0. -/
def sumsFrom (a : Nat) (xs : List Nat) : List Nat :=
  match xs with
  | [] => [a]
  | x :: r => a :: sumsFrom (a + x) r

/-- Bytes as writes of at most 256 B from an address. -/
def cut (a : Nat) (bs : List Byte) : List (Nat × List Byte) := (pieces 256 bs).mapIdx (fun i b => (a + 256 * i, b))

end Sys2Proof.Machine
end

