-- ==== Sys2Proof/Machine/Flags.lean ====
section
/-! DEFINITION. Flag computations: the conditions that the compare and predicate instructions set (R113) and the flags of a
closing accumulation group (R184, R188, R189). -/

namespace Sys2Proof.Machine

/-- Signed less-than of 64-bit values. -/
def sltW (a b : Word) : Bool := BitVec.slt a b

/-- Unsigned less-than of 64-bit values. -/
def ultW (a b : Word) : Bool := BitVec.ult a b

/-- The compare instructions' conditions, by OP (R113). -/
def cmpEqFlag (a b : Word) : Bool := decide (a = b)

/-- CMP.NE. -/
def cmpNeFlag (a b : Word) : Bool := !decide (a = b)

/-- CMP.LT, signed. -/
def cmpLtFlag (a b : Word) : Bool := sltW a b

/-- CMP.LTU. -/
def cmpLtuFlag (a b : Word) : Bool := ultW a b

/-- CMP.GE, signed. -/
def cmpGeFlag (a b : Word) : Bool := !sltW a b

/-- CMP.GEU. -/
def cmpGeuFlag (a b : Word) : Bool := !ultW a b

/-- The signed smaller. -/
def minS (a b : Word) : Word := if sltW b a then b else a

/-- The signed larger. -/
def maxS (a b : Word) : Word := if sltW a b then b else a

/-- The unsigned smaller. -/
def minU (a b : Word) : Word := if ultW b a then b else a

/-- The unsigned larger. -/
def maxU (a b : Word) : Word := if ultW a b then b else a

end Sys2Proof.Machine
end

