-- ==== Sys2Proof/Machine/Seq.lean ====
section
/-! DEFINITION. How a sequencer issues an instruction (R88, R101 to R103, R128), and program faults (R129, R133): the one shared
operation by which every instruction faults. -/

namespace Sys2Proof.Machine

/-- The items "As 64" of a payload: core, unit, PC and ITEM (R553), with the UNIT code of R451. -/
def State.as64 (s : State) (d q unit : Nat) (pc : Nat) : List (Nat × Nat) :=
  let item := match (s.core d q).cur with
    | some k => k % 8
    | none => 0
  [(1, if isCtl q then 0xFF else q), (1, unit), (4, pc), (1, if isCtl q then 0 else item)]

/-- SEQ_EXC records a fault or an escalation (R133); the state image shows the faulting instruction word with it (R474). -/
def State.recordExc (s : State) (d q num unit pc item : Nat) : State :=
  let s := s.count (SEQ_EXC_COUNT d q) 1
  if s.flag (SEQ_EXC_VALID d q) then s
  else
    let w : Word := match s.seqResolve d q 0 (pc : Int) 8 .ex with
      | some a => if unit = 0xF then 0 else BitVec.ofNat 64 (s.natAt a 8)
      | none => 0
    let s := s.modCore d q (fun c => { c with excWord := w, excOps := [], excRest := [], excSs := 0 })
    ((((s.wr (SEQ_EXC_CAUSE d q) (num % 256)).wr (SEQ_EXC_VALID d q) 1).wr (SEQ_EXC_UNIT d q) unit).wr (SEQ_EXC_PC d q) pc).wr
      (SEQ_EXC_ITEM d q) item

/-- The UNIT code of R451 of a sequencer, and the CORE and INSTANCE of its events. -/
def seqUnit (q : Nat) : Nat := if isCtl q then 16 else 0

/-- An event whose source is a sequencer or a unit of its core; `unit` is a unit index plus 1, or 0. -/
def seqEv (num d q unit : Nat) (items : List (Nat × Nat)) : Ev :=
  if isCtl q then mkEv num d 0xFF 16 (q - 96) items else mkEv num d q unit 0 items

/-- A fault of the instruction at `pc` (R129, R133): SEQ_EXC records it, the work item stops, and the event `num` with its
further payload items is raised. `unit` is 0 for the sequencer, a unit index plus 1, or 0xF for a refused post, which names no
instruction and stops nothing where no item runs (R118). A control core stops at its next instruction. -/
def State.programFault (s : State) (d q num unit pc : Nat) (items : List (Nat × Nat)) : State :=
  let item := match (s.core d q).cur with
    | some k => if isCtl q then 0 else k % 8
    | none => 0
  let upc := if unit = 0xF then 0 else pc % 2 ^ 20
  let ucode := if isCtl q then 16 else if unit = 0xF then 0 else unit
  let pay := (if num = 72 ∨ num = 73 then [] else s.as64 d q ucode upc) ++ items
  let cur := (s.core d q).cur
  let s := s.recordExc d q num unit upc item
  let s := if (cur.isSome ∨ unit = 0xF) ∧ s.frame.pause = 0 then { s with frame := { s.frame with pause := num } } else s
  let s := match cur with
    | some k => (s.modItem k (fun (i : Item) => { i with faulted := i.faulted || i.onCore })).stopItem d q
    | none => if unit = 0xF then s else s.stopItem d q
  s.raiseFor d (seqEv num d q ucode pay) cur

/-- A further parity error when the replays are exhausted (R128), which counts as one (R287): the work item stops as in R129, to be run again, and the
level-1 event parks the core (R458). -/
def State.exhausted (s : State) (d q unit pc : Nat) : State :=
  let item := match (s.core d q).cur with
    | some k => if isCtl q then 0 else k % 8
    | none => 0
  let cur := (s.core d q).cur
  let s := if isCtl q then s else s.count (SPAD_STAT_PARITY d q) 1
  let s := (s.recordExc d q 83 unit (pc % 2 ^ 20) item).stopItem d q
  s.raiseFor d (seqEv 83 d q (if isCtl q then 16 else unit) [(1, if isCtl q then 0xFF else q), (1, if isCtl q then 16 else unit),
    (4, pc % 2 ^ 20)]) cur

/-- The replays that a core allows (R134); a control core has no SEQ_CTRL and uses the reset value (log entry 18). -/
def State.replayMax (s : State) (d q : Nat) : Nat := if isCtl q then 2 else s.rd (SEQ_CTRL_REPLAY_MAX d q)

/-- `n` replays: EV_PARITY_REPLAY for each (R128), with a parity error counted for each (R287). -/
def State.replays (s : State) (d q unit addr n : Nat) : State :=
  match n with
  | 0 => s
  | n + 1 =>
    let s := s.raise (seqEv 82 d q (if isCtl q then 16 else unit) [(1, if isCtl q then 16 else unit), (6, addr)])
    (if isCtl q then s else s.count (SPAD_STAT_PARITY d q) 1).replays d q unit addr n

/-- Whether a sequencer can issue: its die serves, it runs a work item or is a control core, and it neither stalls nor is
parked, fenced or held (R88, R98, R456, R458). -/
def State.seqReady (s : State) (d q : Nat) : Bool :=
  let c := s.core d q
  s.seqExists d q && s.dieUp d && !c.parked && !c.fenced && !c.heldFull && decide (c.blocked = .none) &&
    !s.producerWaits d (if isCtl q then 0xFF else q) (seqUnit q) (if isCtl q then q - 96 else 0) &&
    (if isCtl q then true
     else match c.cur with
       | some k => decide ((s.item k).st = .running)
       | none => false)

/-- Where an instruction word of `n` bytes at the program counter stands, or `none` where its fetch faults (R113, R284). -/
def State.fetch (s : State) (d q n : Nat) : Option Nat := s.seqResolve d q 0 ((s.core d q).pc.toNat : Int) n .ex

/-- What the body of an instruction comes to. -/
inductive Res where
  /-- It retires; the program counter moves on. -/
  | done (s : State)
  /-- It retires; the program counter is set. -/
  | jump (s : State) (pc : Word)
  /-- It retires later: the sequencer stalls, with the program counter at the instruction. -/
  | stall (s : State)
  /-- It faults, with further payload items. -/
  | fault (num : Nat) (items : List (Nat × Nat))

/-- The sequencer retires an instruction (R134). -/
def State.retire (s : State) (d q : Nat) (pc : Word) : State :=
  let s := if !isCtl q ∧ s.flag (SEQ_CTRL_RETIRE_EN d q) then s.count (SEQ_CTRL_RETIRED d q) 1 else s
  s.modCore d q (fun c => { c with pc := pc })

/-- One instruction of `n` bytes is issued (R88, R101, R102, R128): a sequencer that cannot issue leaves it unissued; parity
errors replay it; its fetch, then its reserved fields (`legal`) and its privilege (`priv`) are checked whatever its
predicate (DEDUCED for the privilege and the order, log entry 130. Unsafe); with its predicate false it retires as a no-operation; otherwise its body runs. -/
def State.issue (s : State) (h : Hdr) (n : Nat) (legal priv : Bool) (body : State → Res) : State :=
  if s.seqReady h.die h.seq = false then s
  else
    let pc := (s.core h.die h.seq).pc
    match s.fetch h.die h.seq n with
    | none => s.programFault h.die h.seq 67 0 pc.toNat [(1, 0), (6, pc.toNat)]
    | some a =>
      let m := s.replayMax h.die h.seq
      let s := s.replays h.die h.seq 0 (a % 0x100000) (min h.par m)
      if h.par > m then s.exhausted h.die h.seq 0 pc.toNat
      else if legal = false then s.programFault h.die h.seq 64 0 pc.toNat []
      else if priv = false then s.programFault h.die h.seq 65 0 pc.toNat []
      else if (s.preg h.die h.seq h.pred ^^ h.pn) = false then s.retire h.die h.seq (pc + BitVec.ofNat 64 n)
      else
        match body s with
        | .done s => s.retire h.die h.seq (pc + BitVec.ofNat 64 n)
        | .jump s pc' => s.retire h.die h.seq pc'
        | .stall s => s
        | .fault num items => s.programFault h.die h.seq num 0 pc.toNat items


end Sys2Proof.Machine
end

