-- ==== Sys2Proof/Machine/Scalar.lean ====
section
/-! DEFINITION. The scalar class (R113 to R115, R97, R99): arithmetic, compares, predicates, branches, tile descriptor
registers and special values. -/

namespace Sys2Proof.Machine

/-- What a command answers. -/
abbrev Ans := Host.Outcome State Fault Refusal

/-- A scalar instruction that writes `f sa b` to sd. -/
def State.alu (s : State) (h : Hdr) (a : FmtA) (f : Word → Word → Word) : State :=
  s.issue h 8 (legalAlu a) true (fun s =>
    .done (s.setS h.die h.seq a.sd (f (s.sreg h.die h.seq a.sa) (s.operandB h.die h.seq a))))

/-- A compare that sets pd to `f sa b`. -/
def State.cmp (s : State) (h : Hdr) (a : FmtA) (f : Word → Word → Bool) : State :=
  s.issue h 8 (legalCmp a) true (fun s =>
    .done (s.setP h.die h.seq (a.sd.truncate 3) (f (s.sreg h.die h.seq a.sa) (s.operandB h.die h.seq a))))

/-- A predicate instruction that sets pd to `f` of two predicates. -/
def State.plogic (s : State) (h : Hdr) (a : FmtA) (legal : Bool) (f : Bool → Bool → Bool) : State :=
  s.issue h 8 legal true (fun s =>
    .done (s.setP h.die h.seq (a.sd.truncate 3) (f (s.preg h.die h.seq (a.sa.truncate 3)) (s.preg h.die h.seq (a.sb.truncate 3)))))

/-- NOP (R113). -/
def execNop (h : Hdr) (a : FmtA) (s : State) : Ans := .next (s.issue h 8 (legalNone a) true .done)

/-- ADD: sd = sa + b. -/
def execAdd (h : Hdr) (a : FmtA) (s : State) : Ans := .next (s.alu h a (fun x y => x + y))

/-- SUB: sd = sa - b. -/
def execSub (h : Hdr) (a : FmtA) (s : State) : Ans := .next (s.alu h a (fun x y => x - y))

/-- MUL: the low 64 bits of the product. -/
def execMul (h : Hdr) (a : FmtA) (s : State) : Ans := .next (s.alu h a (fun x y => x * y))

/-- MULHU: the high 64 bits of the unsigned product. -/
def execMulhu (h : Hdr) (a : FmtA) (s : State) : Ans :=
  .next (s.alu h a (fun x y => BitVec.ofNat 64 (x.toNat * y.toNat / 2 ^ 64)))

/-- AND. -/
def execAnd (h : Hdr) (a : FmtA) (s : State) : Ans := .next (s.alu h a (fun x y => x &&& y))

/-- OR. -/
def execOr (h : Hdr) (a : FmtA) (s : State) : Ans := .next (s.alu h a (fun x y => x ||| y))

/-- XOR. -/
def execXor (h : Hdr) (a : FmtA) (s : State) : Ans := .next (s.alu h a (fun x y => x ^^^ y))

/-- SHL: by b[5:0]. -/
def execShl (h : Hdr) (a : FmtA) (s : State) : Ans := .next (s.alu h a (fun x y => x <<< (y.toNat % 64)))

/-- SHR: by b[5:0]. -/
def execShr (h : Hdr) (a : FmtA) (s : State) : Ans := .next (s.alu h a (fun x y => x >>> (y.toNat % 64)))

/-- SAR: by b[5:0], filling with sa[63]. -/
def execSar (h : Hdr) (a : FmtA) (s : State) : Ans := .next (s.alu h a (fun x y => x.sshiftRight (y.toNat % 64)))

/-- MIN, signed. -/
def execMin (h : Hdr) (a : FmtA) (s : State) : Ans := .next (s.alu h a minS)

/-- MAX, signed. -/
def execMax (h : Hdr) (a : FmtA) (s : State) : Ans := .next (s.alu h a maxS)

/-- MINU. -/
def execMinu (h : Hdr) (a : FmtA) (s : State) : Ans := .next (s.alu h a minU)

/-- MAXU. -/
def execMaxu (h : Hdr) (a : FmtA) (s : State) : Ans := .next (s.alu h a maxU)

/-- LI: sd = sext(IMM). -/
def execLi (h : Hdr) (a : FmtA) (s : State) : Ans :=
  .next (s.issue h 8 (legalLi a) true (fun s => .done (s.setS h.die h.seq a.sd (sextImm a.imm))))

/-- LIH: sd[63:32] = IMM; sd[31:0] unchanged. -/
def execLih (h : Hdr) (a : FmtA) (s : State) : Ans :=
  .next (s.issue h 8 (legalLi a) true (fun s =>
    .done (s.setS h.die h.seq a.sd (a.imm ++ (s.sreg h.die h.seq a.sd).truncate 32))))

/-- CMP.EQ. -/
def execCmpEq (h : Hdr) (a : FmtA) (s : State) : Ans := .next (s.cmp h a cmpEqFlag)

/-- CMP.NE. -/
def execCmpNe (h : Hdr) (a : FmtA) (s : State) : Ans := .next (s.cmp h a cmpNeFlag)

/-- CMP.LT. -/
def execCmpLt (h : Hdr) (a : FmtA) (s : State) : Ans := .next (s.cmp h a cmpLtFlag)

/-- CMP.LTU. -/
def execCmpLtu (h : Hdr) (a : FmtA) (s : State) : Ans := .next (s.cmp h a cmpLtuFlag)

/-- CMP.GE. -/
def execCmpGe (h : Hdr) (a : FmtA) (s : State) : Ans := .next (s.cmp h a cmpGeFlag)

/-- CMP.GEU. -/
def execCmpGeu (h : Hdr) (a : FmtA) (s : State) : Ans := .next (s.cmp h a cmpGeuFlag)

/-- PAND. -/
def execPand (h : Hdr) (a : FmtA) (s : State) : Ans := .next (s.plogic h a (legalPred2 a) (fun x y => x && y))

/-- POR. -/
def execPor (h : Hdr) (a : FmtA) (s : State) : Ans := .next (s.plogic h a (legalPred2 a) (fun x y => x || y))

/-- PXOR. -/
def execPxor (h : Hdr) (a : FmtA) (s : State) : Ans := .next (s.plogic h a (legalPred2 a) (fun x y => x ^^ y))

/-- PNOT. -/
def execPnot (h : Hdr) (a : FmtA) (s : State) : Ans := .next (s.plogic h a (legalPred1 a) (fun x _ => !x))

/-- A branch or jump to a target: a target that is not a multiple of 8 faults with EV_MISALIGNED (R113). -/
def branchTo (s : State) (pc : Word) : Res := if pc.toNat % 8 = 0 then .jump s pc else .fault 66 [(6, pc.toNat)]

/-- BR: pc = pc + sext(IMM). -/
def execBr (h : Hdr) (a : FmtA) (s : State) : Ans :=
  .next (s.issue h 8 (legalBr a) true (fun s => branchTo s ((s.core h.die h.seq).pc + sextImm a.imm)))

/-- JAL: sd = pc + 8; pc = pc + sext(IMM). A faulting one writes nothing (R129). -/
def execJal (h : Hdr) (a : FmtA) (s : State) : Ans :=
  .next (s.issue h 8 (legalLi a) true (fun s =>
    let pc := (s.core h.die h.seq).pc
    branchTo (s.setS h.die h.seq a.sd (pc + 8)) (pc + sextImm a.imm)))

/-- JR: pc = sa + sext(IMM). -/
def execJr (h : Hdr) (a : FmtA) (s : State) : Ans :=
  .next (s.issue h 8 (legalJr a) true (fun s => branchTo s (s.sreg h.die h.seq a.sa + sextImm a.imm)))

/-- END ends the work item in the sequencer; the item completes later (R99). A control core has no work item (log entry 18). -/
def execEnd (h : Hdr) (a : FmtA) (s : State) : Ans :=
  .next (s.issue h 8 (legalNone a && !isCtl h.seq) true (fun s =>
    match (s.core h.die h.seq).cur with
    | some k => .done (s.modItem k (fun i => { i with st := .ended }))
    | none => .done s))

/-- TD.SET: td[SD] = sb shl 64 or sa. A control core has no tile descriptor registers (R93). -/
def execTdSet (h : Hdr) (a : FmtA) (s : State) : Ans :=
  .next (s.issue h 8 (legalTdSet a && !isCtl h.seq) true (fun s =>
    .done (s.setT h.die h.seq a.sd.toNat (s.sreg h.die h.seq a.sb ++ s.sreg h.die h.seq a.sa))))

/-- TD.GET: a half of td[SA]. -/
def execTdGet (h : Hdr) (a : FmtA) (s : State) : Ans :=
  .next (s.issue h 8 (legalTdGet a && !isCtl h.seq) true (fun s =>
    let t := s.treg h.die h.seq a.sa.toNat
    .done (s.setS h.die h.seq a.sd (if a.imm = 1 then t.extractLsb' 64 64 else t.extractLsb' 0 64))))

/-- TD.ADD: td[SD].BASE = (td[SD].BASE + sa + sext(IMM))[19:0]. -/
def execTdAdd (h : Hdr) (a : FmtA) (s : State) : Ans :=
  .next (s.issue h 8 (legalTdAdd a && !isCtl h.seq) true (fun s =>
    let t := s.treg h.die h.seq a.sd.toNat
    let base := (t.extractLsb' 0 64 + s.sreg h.die h.seq a.sa + sextImm a.imm).extractLsb' 0 20
    .done (s.setT h.die h.seq a.sd.toNat (t.extractLsb' 20 108 ++ base))))

/-- The physical core of a logical core: the one that a repair fuse names, else the core of the same number (R27, R166, R167). -/
def State.physical (s : State) (d c : Nat) : Nat :=
  match s.fuses.repair.find? (fun e => decide (e.1 / 128 = d) && decide (field e.2.toNat 8 1 = 0) && decide (field e.2.toNat 16 7 = c)) with
  | some e => e.1 % 128
  | none => c

/-- A special value (R97). On a control core CORE_ID holds the die and the control-core number, and there is no work item. -/
def State.special (s : State) (d q i : Nat) : Word :=
  let e := match (s.core d q).cur with
    | some k => (s.item k).entry
    | none => entryNone
  let n := match (s.core d q).cur with
    | some k => (s.item k).leases.length
    | none => 0
  if i = 0 then
    BitVec.ofNat 64 (if isCtl q then d <<< 16 + (q - 96) <<< 21
      else q + s.physical d q <<< 8 + d <<< 16 + (if s.fuses.gradeC then 1 else 0) <<< 19)
  else if i = 1 then BitVec.ofNat 64 s.frameSeq
  else if i = 2 then BitVec.ofNat 64 s.frame.cycle
  else if i = 3 then BitVec.ofNat 64 (s.rd FRAME_CFG_LEN * 1024)
  else if i = 4 then BitVec.ofNat 64 (e.item + (e.flags % 2) <<< 16 + e.counter <<< 32)
  else if i = 5 then BitVec.ofNat 64 (if e.flags % 2 = 1 then n else 0)
  else if i = 8 then (s.core d q).runlen
  else (s.core d q).seed

/-- SRD: sd = special value IMM[7:0]. -/
def execSrd (h : Hdr) (a : FmtA) (s : State) : Ans :=
  .next (s.issue h 8 (legalSrd a) true (fun s => .done (s.setS h.die h.seq a.sd (s.special h.die h.seq a.imm.toNat))))

/-- SWR: special value IMM[7:0] = sa; a write to an RO index is discarded (R97). -/
def execSwr (h : Hdr) (a : FmtA) (s : State) : Ans :=
  .next (s.issue h 8 (legalSwr a) true (fun s =>
    let v := s.sreg h.die h.seq a.sa
    if a.imm = 8 then .done (s.modCore h.die h.seq (fun c => { c with runlen := v }))
    else if a.imm = 9 then .done (s.modCore h.die h.seq (fun c => { c with seed := v }))
    else .done s))

end Sys2Proof.Machine
end

