-- ==== Sys2Proof/Machine/Sync.lean ====
section
/-! DEFINITION. Semaphores and pairs (R107 to R109, R116 to R120), work counters and leases (R121, R366, R367, R372, R376 to
R378), and the tick wait (R123). -/

namespace Sys2Proof.Machine

/-- The full semaphore of the pair that holds a semaphore, where one is declared (R117). -/
def Core.pairOf (c : Core) (n : Nat) : Option Nat := if c.pairs.any (fun e => decide (e.1 = n - n % 2)) then some (n - n % 2) else none

/-- No pair. -/
def pairNone : Pair := { total := 0, held := 0, infl := 0 }

/-- The core with the pair of full semaphore `f` changed. -/
def Core.modPair (c : Core) (f : Nat) (g : Pair → Pair) : Core := { c with pairs := tabSet c.pairs f (g (tabGet c.pairs f pairNone)) }

/-- The value of a semaphore of a core. -/
def Core.semVal (c : Core) (n : Nat) : Nat := tabGet c.sem n 0

/-- A take of `k` from semaphore `n`; a paired one adds to HELD_fe (R118). -/
def Core.take (c : Core) (n k : Nat) : Core :=
  let c := { c with sem := tabSet c.sem n (c.semVal n - k) }
  match c.pairOf n with
  | some f => c.modPair f (fun p => { p with held := p.held + k })
  | none => c

/-- A take given back (R131). -/
def Core.untake (c : Core) (n k : Nat) : Core :=
  let c := { c with sem := tabSet c.sem n (c.semVal n + k) }
  match c.pairOf n with
  | some f => c.modPair f (fun p => { p with held := p.held - k })
  | none => c

/-- A post issued toward semaphore `n`: counted in INFL_fe of its pair (R118). -/
def Core.issuePost (c : Core) (n k : Nat) : Core :=
  match c.pairOf n with
  | some f => c.modPair f (fun p => { p with infl := p.infl + k })
  | none => c

/-- What an arriving post comes to. -/
inductive PostRes where
  | applied | excess | overflow
  deriving DecidableEq, Repr

/-- A post of `k` arrives at semaphore `n` (R118): applied, or refused by the pair rule or by the limit of 65,535. -/
def Core.arrive (c : Core) (n k : Nat) : Core × PostRes :=
  match c.pairOf n with
  | some f =>
    let c := c.modPair f (fun p => { p with infl := p.infl - k })
    if k ≤ (tabGet c.pairs f pairNone).held then
      if 65535 < c.semVal n + k then (c, .overflow)
      else ((c.modPair f (fun p => { p with held := p.held - k })) |> fun c => { c with sem := tabSet c.sem n (c.semVal n + k) }, .applied)
    else (c, .excess)
  | none => if 65535 < c.semVal n + k then (c, .overflow) else ({ c with sem := tabSet c.sem n (c.semVal n + k) }, .applied)

/-- The sender code of a sequencer (R553). -/
def senderCode (d q : Nat) : Nat := (if isCtl q then 0xFF else q) + (d % 8) * 256

/-- A post of `k` reaches semaphore `n` of a sequencer: a refused one is a program fault of the target (R118). -/
def State.postArrives (s : State) (d q n k sender : Nat) : State :=
  let r := (s.core d q).arrive n k
  let s := s.modCore d q (fun _ => r.1)
  match r.2 with
  | .applied => s
  | .excess => s.programFault d q 72 0xF 0 [(1, n), (2, k), (2, sender)]
  | .overflow => s.programFault d q 73 0xF 0 [(1, n), (2, k), (2, sender)]

/-- A post sent and arriving on the own core. -/
def State.postOwn (s : State) (d q n k : Nat) : State :=
  (s.modCore d q (fun c => c.issuePost n k)).postArrives d q n k (senderCode d q)

/-- The running item has named a semaphore of its core (R85). -/
def State.nameSem (s : State) (d q n : Nat) : State :=
  match (s.core d q).cur with
  | some k => s.modItem k (fun i => { i with use := { i.use with sems := insertAsc n i.use.sems } })
  | none => s

/-- Whether a stalled sequencer may go on: as `seqReady`, but stalled. -/
def State.stallReady (s : State) (d q : Nat) : Bool :=
  (s.modCore d q (fun c => { c with blocked := .none })).seqReady d q

/-- The running item has posted to a semaphore of another core (R85). -/
def State.namePost (s : State) (d q key : Nat) : State :=
  match (s.core d q).cur with
  | some k => s.modItem k (fun i => { i with use := { i.use with posts := insertAsc key i.use.posts } })
  | none => s

/-- A post of `k` is sent from a sequencer to semaphore `n` of another: it counts in INFL_fe of the target's pair, and travels with the frame tag (R118, R120). -/
def State.sendPost (s : State) (d q td tc n k : Nat) : State :=
  let s := (s.namePost d q (coreKey td tc * 256 + n)).modCore td tc (fun c => c.issuePost n k)
  { s with posts := s.posts ++ [
      { src := d, dst := td, seq := tc, sem := n, count := k, sender := senderCode d q, tag := s.frameSeq % 65536, chan := none, dropped := false }] }

/-- SEM.POST to the own core, to another core of the die, or to a core of another die, as a packet (R116, R118, R120). -/
def execSemPost (h : Hdr) (y : FmtY) (s : State) : Ans :=
  .next (s.issue h 8 (legalY h.seq 0 true true false true y) true (fun s =>
    let n := y.sem.toNat
    let k := s.countY h.die h.seq y
    if k = 0 then .fault 64 []
    else if y.scope = 0 then .done ((s.nameSem h.die h.seq n).postOwn h.die h.seq n k)
    else
      let td := if y.scope.toNat = 1 then h.die else y.tdie.toNat
      let tc := y.tcore.toNat
      if s.coreExists td tc = false ∨ s.dieUp td = false ∨ s.routeOk h.die td = false then .done (s.raise (seqEv 2 h.die h.seq 0 [(6, coreAddr td tc 0), (2, 0xFFFF)]))
      else .done (s.sendPost h.die h.seq td tc n k)))

/-- The first post in transit from a die to a die, and the others. -/
def takePost (src dst : Nat) (ps : List Post) : Option (Post × List Post) :=
  match ps with
  | [] => none
  | p :: r =>
    if p.src = src ∧ p.dst = dst then some (p, r)
    else match takePost src dst r with
      | some (x, r) => some (x, p :: r)
      | none => none

/-- The oldest post on its way from die `src` to die `dst` arrives (R118, R120). One dropped by a reinitialisation is
discarded without event (R85); one whose route crosses a die fenced meanwhile is a bus error of its sender (R23). -/
def execSemPostArrival (src dst : Nat) (s : State) : Ans :=
  match takePost src dst s.posts with
  | none => .next s
  | some (p, r) =>
    let s := { s with posts := r }
    let s := match p.chan with
      | some k => s.modChan (k / 512) (k % 512) (fun c => { c with fill := c.fill - 1 })
      | none => s
    if p.dropped ∨ s.dieUp dst = false then .next s
    else if s.routeOk src dst = false then
      .next (s.raise (mkEv 2 src (p.sender % 256) (if p.sender % 256 ≠ 0xFF then 0 else if p.chan.isSome then 21 else 16) 0 [(6, coreAddr dst p.seq 0), (2, 0xFFFF)]))
    else .next (s.postArrives dst p.seq p.sem p.count p.sender)

/-- SEM.READ: sd = sem, zero-extended. -/
def execSemRead (h : Hdr) (y : FmtY) (s : State) : Ans :=
  .next (s.issue h 8 (legalY h.seq 31 true false false false y) true (fun s =>
    .done ((s.nameSem h.die h.seq y.sem.toNat).setS h.die h.seq y.sd (BitVec.ofNat 64 (s.semv h.die h.seq y.sem.toNat)))))

/-- SEM.INIT: sem = count; a paired semaphore faults (R117). -/
def execSemInit (h : Hdr) (y : FmtY) (s : State) : Ans :=
  .next (s.issue h 8 (legalY h.seq 0 true true false false y) true (fun s =>
    let n := y.sem.toNat
    if ((s.core h.die h.seq).pairOf n).isSome then .fault 71 [(1, n)]
    else .done ((s.nameSem h.die h.seq n).setSem h.die h.seq n (s.countY h.die h.seq y))))

/-- SEM.PAIR: full 0, empty T, counts cleared (R117). -/
def execSemPair (h : Hdr) (y : FmtY) (s : State) : Ans :=
  .next (s.issue h 8 (legalY h.seq 0 true true false false y) true (fun s =>
    let n := y.sem.toNat
    let t := s.countY h.die h.seq y
    if n % 2 = 1 ∨ t = 0 ∨ ((s.core h.die h.seq).pairOf n).isSome then .fault 71 [(1, n)]
    else .done (((s.nameSem h.die h.seq n).modCore h.die h.seq (fun c =>
      { c with sem := tabSet (tabSet c.sem n 0) (n + 1) t, pairs := tabSet c.pairs n { total := t, held := 0, infl := 0 } })))))

/-- SEM.UNPAIR of a pair that stands in its declared state (R119). -/
def execSemUnpair (h : Hdr) (y : FmtY) (s : State) : Ans :=
  .next (s.issue h 8 (legalY h.seq 0 true false false false y) true (fun s =>
    let n := y.sem.toNat
    let c := s.core h.die h.seq
    let p := tabGet c.pairs n pairNone
    if n % 2 = 1 ∨ (c.pairOf n).isNone ∨ c.semVal n ≠ 0 ∨ c.semVal (n + 1) ≠ p.total ∨ p.held ≠ 0 ∨ p.infl ≠ 0 then .fault 71 [(1, n)]
    else .done ((s.nameSem h.die h.seq n).modCore h.die h.seq (fun c => { c with pairs := tabDel c.pairs n }))))

/-- Whether a work entry is LEASED (R62). -/
def WorkEntry.leased (e : WorkEntry) : Bool := decide (e.flags % 2 = 1)

/-- The counter that events of an item name: 0xFFFF for an implicit range (R121). -/
def WorkEntry.ctrName (e : WorkEntry) : Nat := if e.leased then e.counter else 0xFFFF

/-- The regions that a work entry names as outputs (R62). -/
def WorkEntry.regions (e : WorkEntry) : List Nat := e.out.filter (fun r => decide (r ≠ 0xFFFF))

/-- One tile counts toward DONE_r of every region of the entry (R378). -/
def State.credit (s : State) (e : WorkEntry) : State := e.regions.foldl (fun s r => s.modRegion r (fun x => { x with done := x.done + 1 })) s

/-- A lease of the regions of a work entry is taken (R391). -/
def State.takenFor (s : State) (e : WorkEntry) : State := e.regions.foldl (fun s r => s.modRegion r (fun x => { x with taken := true })) s

/-- The return list of a counter, ascending (R367). -/
def State.rlist (s : State) (d k : Nat) : List Nat := tabGet s.rlists (ctrKey d k) []

/-- The state with the return list of a counter replaced. -/
def State.setRlist (s : State) (d k : Nat) (l : List Nat) : State := { s with rlists := tabSet s.rlists (ctrKey d k) l }

/-- The tile that a counter gives next, if any, and the counter without it: the lowest returned tile, then NEXT while it is below LIMIT (R367). -/
def State.counterPick (s : State) (d k : Nat) : Option (State × Nat) :=
  match s.rlist d k with
  | t :: r => some (s.setRlist d k r, t)
  | [] =>
    let nx := s.rd (WORK_CTR_NEXT_NEXT d k)
    if nx < s.rd (WORK_CTR_NEXT_LIMIT d k) then some (s.wr (WORK_CTR_NEXT_NEXT d k) (nx + 1), nx) else none

/-- Whether a counter skips a tile: its row origin is at least RUNLEN (R366). -/
def State.skips (s : State) (d k : Nat) (runlen t : Nat) : Bool :=
  decide (s.rd (WORK_CTR_CFG_MT d k) ≠ 0) && decide (runlen ≤ t % s.rd (WORK_CTR_CFG_MT d k) * 64 * s.rd (WORK_CTR_CFG_TROWS d k))

/-- The atomic step at a counter (R367): returned tiles first, then NEXT; tiles wholly beyond RUNLEN are skipped and counted
as done. -/
def State.counterTake (s : State) (d k : Nat) (e : WorkEntry) (runlen : Nat) (fuel : Nat) : State × Option Nat :=
  match fuel with
  | 0 => (s, none)
  | fuel + 1 =>
    match s.counterPick d k with
    | none => (s, none)
    | some (u, t) =>
      let v := u.accum (WORK_CTR_TAKES_TAKES d k) 1
      if s.skips d k runlen t then (((v.count (WORK_CTR_FRAME_DONE d k) 1).count (WORK_CTR_SKIP_SKIPPED d k) 1).credit e).counterTake d k e runlen fuel
      else (v, some t)

/-- LEASE.TAKE: sent to the counter in the Depot, where it waits (R121, R372). -/
def execLeaseTake (h : Hdr) (y : FmtY) (s : State) : Ans :=
  .next (s.issue h 8 (legalY h.seq 31 false true false false y && !isCtl h.seq) true (fun s =>
    let k := s.countY h.die h.seq y
    match (s.core h.die h.seq).cur with
    | none => .done s
    | some i =>
      let it := s.item i
      if it.entry.leased = false ∨ k ≠ it.entry.counter ∨ 1024 ≤ k then .fault 75 [(2, if it.entry.leased then k else 0xFFFF), (4, 0)]
      else if 8 ≤ it.leases.length then .fault 74 []
      else
        let rl := (s.core h.die h.seq).runlen
        .stall (s.modCore h.die h.seq (fun c => { c with blocked := .leaseTake k y.sd.toNat rl, takes := c.takes ++ [{ ctr := k, item := some i, entry := it.entry, runlen := rl }] }))))

/-- A granted tile that returns in the cycle it is granted: in RET and in the return list (R376). -/
def State.returnTile (s : State) (d k t : Nat) : State := (s.count (WORK_CTR_FRAME_RET d k) 1).setRlist d k (insertAsc t (s.rlist d k))

/-- What a granted tile becomes (R376): a lease of the item whose run took it; where that run is over or its leases have returned, it returns at once. -/
def State.granted (s : State) (d : Nat) (x : Take) (t : Nat) : State :=
  match x.item with
  | none => s.returnTile d x.ctr t
  | some i =>
    if (s.item i).retAll then (s.returnTile d x.ctr t).modItem i (fun x => { x with lost := true })
    else (s.count (WORK_CTR_HELD_HELD d x.ctr) 1).modItem i (fun x => { x with leases := insertAsc t x.leases })

/-- The counter serves the oldest take of a core (R367, R372). Delivered to the stalled LEASE.TAKE, the tile enters the lease
table; a take whose item has stopped is granted all the same, and returns with the item's leases (R376). -/
def execCounterAtomic (d c : Nat) (s : State) : Ans :=
  match (s.core d c).takes with
  | [] => .next s
  | x :: rest =>
    if s.dieUp d = false then .next s
    else
      let k := x.ctr
      let s := s.modCore d c (fun y => { y with takes := rest })
      let n := (s.rlist d k).length + (s.rd (WORK_CTR_NEXT_LIMIT d k) - s.rd (WORK_CTR_NEXT_NEXT d k)) + 1
      let r := s.counterTake d k x.entry x.runlen.toNat n
      let s := match r.2 with
        | none => r.1
        | some t => (r.1.takenFor x.entry).granted d x t
      match (s.core d c).blocked with
      | .leaseTake _ sd _ =>
        if x.item.isSome ∧ (s.core d c).cur = x.item ∧ x.item.any (fun i => decide ((s.item i).st = .running)) ∧ rest = [] then
          let v : Word := match r.2 with
            | some t => BitVec.ofNat 64 t
            | none => BitVec.allOnes 64
          .next (((s.modCore d c (fun x => { x with blocked := .none })).setS d c (BitVec.ofNat 5 sd) v).retire d c ((s.core d c).pc + 8))
        else .next s
      | _ => .next s

/-- LEASE.DONE: the report waits until the item's dispatched instructions have completed (R121). -/
def execLeaseDone (h : Hdr) (y : FmtY) (s : State) : Ans :=
  .next (s.issue h 8 (legalY h.seq 7 false false true false y && !isCtl h.seq) true (fun s =>
    .stall (s.modCore h.die h.seq (fun c => { c with blocked := .leaseDone (s.sreg h.die h.seq y.sa).toNat y.sd.toNat }))))

/-- Whether any instruction that an item dispatched is still queued or started on the units of its core, or in a Dray channel
(R99, R121). What an earlier run of the item left in a channel is not of this one (R337; DEDUCED, log entry 105). -/
def State.itemBusy (s : State) (d c i : Nat) : Bool :=
  (s.core d c).queues.any (fun e => e.2.any (fun x => decide (x.item = some i))) ||
    (s.core d c).running.any (fun e => decide (e.2.e.item = some i)) ||
    s.chans.any (fun e => decide (e.1 / 512 = d) && e.2.q.any (fun x => decide (x.owner = some i) && !x.prior))

/-- What the report of a tile comes to (R121, R552). -/
inductive DoneRes where
  | accepted | already | refused | unknown
  deriving DecidableEq, Repr

/-- The lookup of a reported tile: in the lease table, or once each in an implicit range; a tile of an implicit range that is
done already in an item that runs again answers 0 without event (R552); one that returned is refused. -/
def Item.report (i : Item) (t : Nat) : DoneRes :=
  if i.entry.leased then (if t ∈ i.leases then .accepted else if t ∈ i.returned then .refused else .unknown)
  else if t < i.entry.first ∨ i.entry.first + i.entry.count ≤ t then .unknown
  else if t ∈ i.done then (if i.rerun then .already else .unknown)
  else if i.retAll then .refused
  else .accepted

/-- After its completion wait, a LEASE.DONE is accepted, refused or faults (R121). -/
def execLeaseDoneAccepted (d c : Nat) (s : State) : Ans :=
  match (s.core d c).blocked, (s.core d c).cur with
  | .leaseDone t pd, some i =>
    if s.stallReady d c = false ∨ s.itemBusy d c i then .next s
    else
      let it := s.item i
      let e := it.entry
      let k := e.counter
      let pc := (s.core d c).pc
      let p := BitVec.ofNat 3 pd
      let fin (s : State) (v : Bool) : State := ((s.modCore d c (fun x => { x with blocked := .none })).setP d c p v).retire d c (pc + 8)
      match it.report t with
      | .accepted =>
        let s := s.modItem i (fun x => { x with leases := x.leases.erase t, done := insertAsc t x.done })
        let s := if e.leased then (s.count (WORK_CTR_FRAME_DONE d k) 1).wr (WORK_CTR_HELD_HELD d k) (s.rd (WORK_CTR_HELD_HELD d k) - 1) else s
        .next (fin (s.credit e) true)
      | .already => .next (fin s false)
      | .refused =>
        let s := if e.leased then s.accum (WORK_CTR_REFUSED_REFUSED d k) 1 else s
        .next (fin (s.raiseFor d (mkEv 80 d c 0 k [(2, e.ctrName), (4, t)]) none) false)
      | .unknown => .next ((s.modCore d c (fun x => { x with blocked := .none })).programFault d c 75 0 pc.toNat [(2, e.ctrName), (4, t)])
  | _, _ => .next s

/-- TICK.WAIT parks the work item, whose lease table must be empty (R123); an implicit range has no lease table (DEDUCED, log entry 129. Unsafe). On a control core it
stalls until cycle H of the next tick. -/
def execTickWait (h : Hdr) (y : FmtY) (s : State) : Ans :=
  .next (s.issue h 8 (legalY h.seq 31 false false false false y) true (fun s =>
    let b : State := s.modCore h.die h.seq (fun c => { c with blocked := .tickWait y.sd.toNat })
    if isCtl h.seq then .stall b
    else
      match (s.core h.die h.seq).cur with
      | none => .done s
      | some i =>
        if (s.item i).leases ≠ [] then .fault 74 []
        else .done (b.modItem i (fun x => { x with st := .parked }))))

end Sys2Proof.Machine
end

