-- ==== Sys2Proof/Machine/Memory.lean ====
section
/-! DEFINITION. The memory front end of a die: versioned regions and their slots (R54, R57, R377), stores that the block refuses
(R67, R384), buddy mirroring of writes (R464, R465), the Depot cache and its parity (R296 to R300), the LPDDR6 channels (R301 to R305), memory
tags (R307, R308), the scrub log and retirement (R407), and scratchpad blocks (R291). -/

namespace Sys2Proof.Machine

/-- The region, slot and offset in it that an address lies in (R54). -/
def State.slotAt (s : State) (a : Nat) : Option (Nat × Bool × Nat) :=
  s.regions.findSome? (fun e =>
    if e.2.slot0 ≤ a ∧ a < e.2.slot0 + e.2.size then some (e.1, false, a - e.2.slot0)
    else if e.2.slot1 ≤ a ∧ a < e.2.slot1 + e.2.size then some (e.1, true, a - e.2.slot1)
    else none)

/-- The address of an offset in a slot of a region. -/
def Region.slot (r : Region) (b : Bool) (o : Nat) : Nat := (if b then r.slot1 else r.slot0) + o

/-- The live bit of a region as of the start of a frame: that of the frame in progress, or the one kept for items of the frame
before (R57). -/
def State.liveFor (s : State) (r : Region) (frame : Nat) : Bool := if frame = s.frameSeq then r.live else r.prev

/-- Where the access of a work item of frame `frame` to an address goes: a read of a versioned region to the slot live at the start of that frame, a write
to the other slot (R54, R57). -/
def State.resolve (s : State) (frame : Nat) (write : Bool) (a : Nat) : Nat :=
  match s.slotAt a with
  | none => a
  | some (r, _, o) => (s.region r).slot (s.liveFor (s.region r) frame ^^ write) o

/-- The `n` bytes that a read at `a` returns; `frame` is that of the work item that reads, or none for another reader. -/
def State.fetchBytes (s : State) (frame : Option Nat) (a n : Nat) : List Byte :=
  match n with
  | 0 => []
  | n + 1 =>
    s.byteAt (match frame with
      | some f => s.resolve f false a
      | none => a) :: s.fetchBytes frame (a + 1) n

/-- Whether the `n` bytes from `a` meet the `m` bytes from `b`. -/
def overlaps (a n b m : Nat) : Bool := decide (a < b + m) && decide (b < a + n) && decide (0 < n)

/-- The SRAM-window offset of the shard table (R382). -/
def shardTable (d : Nat) : Nat := sramBase d + 0x90600000

/-- The staging buffer of the Timetable (R60). -/
def stagingBuf (d : Nat) : Nat := sramBase d + 0x907E0000

/-- The active buffer of the Timetable (R60). -/
def activeBuf (d : Nat) : Nat := sramBase d + 0x907F0000

/-- Whether a store must be ignored: into a staging buffer under READY (R67), or into a shard table while an update window is open or
from host software (R384). -/
def State.storeBarred (s : State) (host : Bool) (a n : Nat) : Bool :=
  let d := dieOf a
  (overlaps a n (stagingBuf d) 0x10000 && s.flag (TT_CTRL_READY d)) ||
    (overlaps a n (shardTable d) 0x20000 && (host || decide (s.rd (OPT_STATUS_WINDOW d) ≠ 0)))

/-- Bytes 8 and 9 of entry `e` of a die's shard table after a store that led from `s0` to `s` (R383): the hardware maintains them. Setting EN gives LIVE the live bit of
the entry's region, and clears FLIP and PEND; an entry that is not enabled keeps what it held. -/
def State.keepVersion (s0 : State) (d : Nat) (s : State) (e : Nat) : State :=
  let a := shardTable d + 32 * e
  let old := s0.natAt (a + 8) 1 % 8
  let live := if (s.region (s.natAt a 2)).live then 1 else 0
  let v := if s.natAt (a + 6) 1 % 2 = 0 then old else if s0.natAt (a + 6) 1 % 2 = 0 then live else old / 2 * 2 + live
  s.setBytes (a + 8) (leBytes 2 v)

/-- A store into a die's shard table: firmware writes what is its own to write (R383). -/
def State.storeShards (s : State) (d a : Nat) (bs : List Byte) : State :=
  let t := shardTable d
  let first := (max a t - t) / 32
  let last := (min (a + bs.length) (t + 0x20000) - 1 - t) / 32
  (List.range (last + 1 - first)).foldl (fun x i => s.keepVersion d x (first + i)) (s.setBytes a bs)

/-- A store that stays in this module: written, or ignored with EV_LATCH_BUSY_WRITE, whose UNIT is that of the management core (R67; DESIGN CHOICE, log entry 126.
Unsafe). -/
def State.store0 (s : State) (host : Bool) (a : Nat) (bs : List Byte) : State :=
  if s.storeBarred host a bs.length then s.busyWrite (dieOf a) a 17
  else if overlaps a bs.length (shardTable (dieOf a)) 0x20000 then s.storeShards (dieOf a) a bs
  else s.setBytes a bs

/-- The offset in its buddy's mirror area of a slot of a mirrored region: slot 0 and then slot 1 of each such region of the die, in
region-table order (R464). -/
def State.mirrorOffset (s : State) (r : Nat) (b : Bool) : Nat :=
  ((s.regions.filter (fun e => decide (e.1 < r) && e.2.mirror && decide (e.2.die = (s.region r).die))).map (fun e => 2 * e.2.size)).foldl (· + ·) 0
    + (if b then (s.region r).size else 0)

/-- What goes to the buddy of a die, at the position and die that MIRROR_CFG names: bytes for an offset of the mirror area from MIRROR_BASE on (R464, R467). -/
def State.toBuddy (s : State) (d o : Nat) (bs : List Byte) : State :=
  s.send (.mirror d (s.rd (MIRROR_CFG_BUDDY_POS d)) (s.rd (MIRROR_CFG_BUDDY_DIE d)) (s.rd (MIRROR_BASE_BASE d) + o) bs)

/-- The copy of a write into a slot of a mirrored region that goes to the buddy (R465, R467). A failed one is a failure of the descriptor, met at its read-back. -/
def State.mirrorWrite (s : State) (a : Nat) (bs : List Byte) : State :=
  match s.slotAt a with
  | none => s
  | some (r, b, o) =>
    let x := s.region r
    if x.mirror ∧ s.flag (MIRROR_CFG_EN x.die) then
      (s.toBuddy x.die (s.mirrorOffset r b + o) bs).count (MIRROR_STATUS_WRITES x.die) 1
    else s

/-- A write of a work item that came after its lease had returned (R377): a write to a versioned region is dropped and counted. -/
def State.lateWrite (s : State) (d : Nat) (late : Option Nat) (a : Nat) : Option State :=
  match late, s.slotAt a with
  | some k, some _ => some (if k < 1024 then s.count (WORK_CTR_SKIP_LATE_WR d k) 1 else s)
  | _, _ => none

/-- The write of a Dray channel of die `d` at `a`: resolved for the frame of its work item, dropped if late, and mirrored. -/
def State.drayStore (s : State) (d : Nat) (frame late : Option Nat) (a : Nat) (bs : List Byte) : State :=
  match s.lateWrite d late a with
  | some s => s
  | none =>
    let p := match frame with
      | some f => s.resolve f true a
      | none => a
    (s.store0 false p bs).mirrorWrite p bs

/-- The LPDDR6 channel of a module address (R301). -/
def chanOfAddr (a : Nat) : Nat := a / 256 % 16

/-- The cache region of a die that covers an LPDDR6 offset: its first slice and its count of slices (R294, R296). -/
def State.cacheAt (s : State) (d o : Nat) : Option (Nat × Nat) :=
  ((List.range 16).filter (fun k => decide (s.rd (DEPOT_REGION_KIND d k) = 2))).findSome? (fun k =>
    if s.rd (DEPOT_REGION_LO d k) * 2 ^ 30 ≤ o ∧ o < s.rd (DEPOT_REGION_LIMIT d k) * 2 ^ 30 then
      some (s.rd (DEPOT_REGION_FIRST d k), s.rd (DEPOT_REGION_COUNT d k)) else none)

/-- Slice, set and tag of a line of a cache region (R296). -/
def cacheIndex (first count o : Nat) : Nat × Nat × Nat :=
  let g := o / 256
  (first + g % count, g / count % 7424, g / count / 7424)

/-- The key of a set of a die's Depot cache. -/
def setKey (slice set : Nat) : Nat := slice * 7424 + set

/-- An empty set. -/
def csetNone : CSet := { ways := [], plru := 0 }

/-- The bits of the tree after a use of way `w`: each node on its path points away from it (log entry 24). -/
def plruTouch (b : BitVec 15) (w : Nat) : BitVec 15 :=
  (List.range 4).foldl (fun b l =>
    let node := 2 ^ l - 1 + w / 2 ^ (4 - l)
    if w / 2 ^ (3 - l) % 2 = 0 then b ||| (1#15 <<< node) else b &&& ~~~(1#15 <<< node)) b

/-- The way that the bits of the tree point to. -/
def plruVictim (b : BitVec 15) : Nat :=
  (List.range 4).foldl (fun w l => 2 * w + (if b.getLsbD (2 ^ l - 1 + w) then 1 else 0)) 0

/-- The way of a set that holds a tag. -/
def CSet.find (c : CSet) (tag : Nat) : Option Nat := (c.ways.find? (fun e => decide (e.2.tag = tag))).map (fun e => e.1)

/-- The line allocated in a set: an empty way first, else the pseudo-LRU one. -/
def CSet.way (c : CSet) : Nat := ((List.range 16).find? (fun w => !c.ways.any (fun e => decide (e.1 = w)))).getD (plruVictim c.plru)

/-- The set with a line in the way that is allocated. -/
def CSet.alloc (c : CSet) (l : CLine) : CSet :=
  let w := c.way
  { ways := tabSet c.ways w l, plru := plruTouch c.plru w }

/-- A way changed and used. -/
def CSet.use (c : CSet) (w : Nat) (f : CLine → CLine) : CSet :=
  { ways := tabSet c.ways w (f (tabGet c.ways w { tag := 0, dirty := false, bad := false })), plru := plruTouch c.plru w }

/-- The state with a set of a die's cache changed. -/
def State.modSet (s : State) (d k : Nat) (f : CSet → CSet) : State :=
  s.modDie d (fun x => { x with cache := tabSet x.cache k (f (tabGet x.cache k csetNone)) })

/-- The channel that a request comes from: the one its requester index names (R349), or that of another die whose access arrived over ports. -/
def originOf (d req : Nat) (origin : Option (Nat × Nat)) : Option (Nat × Nat) := if req < 416 then some (d, req) else origin

/-- The work item that a channel works for. -/
def State.ownerOf (s : State) (o : Option (Nat × Nat)) : Option Nat :=
  match o with
  | some (e, n) => ((s.chan e n).q.head?).bind (fun r => r.owner)
  | none => none

/-- `n` Depot parity retries (R299). -/
def State.depotReplays (s : State) (d a n : Nat) : State :=
  match n with
  | 0 => s
  | n + 1 => ((s.raise (mkEv 82 d 0xFF 19 0 [(1, 19), (6, a)])).count (DEPOT_STATUS_REPLAY d) 1).depotReplays d a n

/-- An uncorrectable read of a requester: its domain is the requesting core or die-level channel (R447), of another die where the request arrived over ports, and
the work item that issued it is charged (R299). -/
def State.memError (s : State) (d num unit req a : Nat) (origin : Option (Nat × Nat)) : State :=
  let o := originOf d req origin
  let src : Nat × Nat × Nat := match o with
    | some (e, n) => (e, if 32 ≤ n then (n - 32) / 4 else 0xFF, n)
    | none => (d, 0xFF, req)
  s.raiseFor d (mkEv num src.1 src.2.1 unit src.2.2 [(6, a), (2, req)]) (s.ownerOf o)

/-- A read that stays bad: the requester gets a bus error (R299). -/
def State.depotUncorrectable (s : State) (d req a : Nat) (origin : Option (Nat × Nat)) : State :=
  ((s.count (DEPOT_STATUS_UNCORR d) 1).lampCount (56 + d) 1).memError d 115 19 req a origin

/-- Whether a request may take a tag: its own reserve, then the shared pool (R307). -/
def Die.tagFree (x : Die) (remote : Bool) : Bool :=
  let l := (x.reqs.filter (fun r => !r.remote)).length
  let r := (x.reqs.filter (fun r => r.remote)).length
  decide ((if remote then r else l) < 2048) || decide ((l - 2048) + (r - 2048) < 12288)

/-- The slice of a request's address that a change of regions holds up (R298), if any. -/
def State.sliceOf (s : State) (d a : Nat) : Option Nat :=
  if a < 0x010000000000 then (s.cacheAt d (a % 2 ^ 37)).map (fun r => (cacheIndex r.1 r.2 (a % 2 ^ 37)).1)
  else (s.pinnedAt d (a % 2 ^ 32)).map (fun r =>
    r.1 / sliceBytes + (a % 2 ^ 32 - r.1) / 256 % ((r.2 - r.1) / sliceBytes))

/-- Whether a change of regions holds up an access to an address of a die: it needs an affected slice, or an LPDDR6 line that is being written back (R298). -/
def State.repartHolds (s : State) (d a : Nat) : Bool :=
  s.flag (DEPOT_STATUS_REPART d) && ((s.die d).wback.contains (a / 256) || (match s.sliceOf d a with
    | some x => (s.die d).repart.contains x
    | none => false))

/-- Whether a change of regions at the die that serves an access holds it up (R298). -/
def State.repartWaits (s : State) (a n : Nat) : Bool := s.repartHolds (dieOf a) a || s.repartHolds (dieOf a) (a + n - 1)

/-- A granule is retired (R407, R408): EV_GRANULE_RETIRED with the lowest RETIRE entry that is free, which firmware writes for it;
with every entry valid it is a fault of the die's memory, at level 2 (log entry 25). -/
def State.retireGranule (s : State) (d g : Nat) : State :=
  match (List.range 256).find? (fun k => !s.flag (RETIRE_VALID d k) && decide ((assocGet s.pend (.RETIRE d k) { mask := 0, val := 0 }).mask = 0)) with
  | none => s.fenceFound d 119
  | some k =>
    let s := { s with pend := assocSet s.pend (.RETIRE d k)
                        { mask := BitVec.ofNat 64 (2 ^ 49 - 1), val := BitVec.ofNat 64 (2 ^ 48 + g * 256) } }
    (s.raise (mkEv 119 d 0xFF 17 0 [(6, g * 256), (1, k)])).lampCount (40 + d) 1

/-- A granule is repaired or scrubbed: it joins the log of the last 64, or is retired if it is in it (R407). -/
def State.scrub (s : State) (d g : Nat) : State :=
  if (s.die d).scrub.contains g then s.retireGranule d g
  else s.modDie d (fun x => { x with scrub := (x.scrub ++ [g]).drop (x.scrub.length + 1 - 64) })

/-- A channel runs its periodic tracking, or retrains and may fail, which fences its die (R302, R305). -/
def execPeriodicTracking (d ch : Nat) (retrain fail : Bool) (s : State) : Ans :=
  if s.dieUp d = false ∨ 16 ≤ ch then .next s
  else
    let s := if retrain then s.count (LPDDR_CH_STATUS_RETRAIN d ch) 1 else s
    if retrain ∧ fail then .next ((s.wr (LPDDR_CH_STATUS_FAILED d ch) 1).raise (mkEv 118 d 0xFF 20 ch [(2, ch)]))
    else .next s

/-- Scratchpad blocks that power up finish zeroing and become usable (R291). -/
def execSpadBlockReady (d c : Nat) (s : State) : Ans :=
  if s.coreExists d c then
    let p := (s.core d c).powering.toNat &&& (2 ^ 24 - 1 - s.rd (SPAD_PWR_OFF d c))
    .next ((s.modCore d c (fun x => { x with powering := 0 })).wr (SPAD_PWR_READY d c) (s.rd (SPAD_PWR_READY d c) ||| p))
  else .next s

/-- Whether a line that a change of regions writes back has still to reach LPDDR6 (R298, R349). -/
def Die.backing (x : Die) : Bool := (x.reqs ++ x.tagWait).any (fun m => decide (m.req = 426) && x.wback.contains (m.addr / 256))

/-- A change of Depot regions is done: every line is written back, and newly powered slices are zeroed (R298). -/
def execDepotRepartDone (d : Nat) (s : State) : Ans :=
  if s.flag (DEPOT_STATUS_REPART d) ∧ (s.die d).backing = false then .next ((s.wr (DEPOT_STATUS_REPART d) 0).modDie d (fun x => { x with repart := [], wback := [] })) else .next s

end Sys2Proof.Machine
end

