-- ==== Sys2Proof/Machine/Topology.lean ====
section
/-! DEFINITION. Links and ports of the grades (R420, R421), packet routes (R427 to R429, R438), packet headers (R413), and how
sequenced flits leave a link (R411 to R416). -/

namespace Sys2Proof.Machine

/-- A link of a grade: its die, its port (0 host, 1 East, 2 West, 4 to 7 fleet), its index in the port, its active lanes and
spares. -/
structure LinkInfo where
  die : Nat
  port : Nat
  index : Nat
  active : Nat
  spares : Nat
  deriving DecidableEq, Repr

/-- The links of a module of a number of dies, in the order of R421. -/
def linkTable (dies : Nat) : List LinkInfo :=
  if dies = 8 then
    [⟨0, 0, 0, 4, 1⟩, ⟨1, 0, 1, 4, 0⟩, ⟨2, 1, 0, 16, 2⟩, ⟨3, 1, 1, 16, 2⟩, ⟨4, 2, 0, 16, 2⟩, ⟨5, 2, 1, 16, 2⟩, ⟨6, 4, 0, 16, 2⟩,
     ⟨7, 5, 0, 16, 2⟩, ⟨0, 6, 0, 16, 2⟩, ⟨1, 7, 0, 16, 2⟩]
  else if dies = 4 then
    [⟨0, 0, 0, 4, 1⟩, ⟨1, 0, 1, 4, 0⟩, ⟨2, 1, 0, 16, 2⟩, ⟨3, 2, 0, 16, 2⟩, ⟨0, 4, 0, 8, 1⟩, ⟨1, 5, 0, 8, 1⟩, ⟨0, 6, 0, 8, 1⟩,
     ⟨1, 7, 0, 8, 1⟩]
  else
    [⟨0, 0, 0, 4, 1⟩, ⟨1, 0, 1, 4, 0⟩, ⟨0, 1, 0, 8, 1⟩, ⟨1, 2, 0, 8, 1⟩, ⟨0, 4, 0, 8, 1⟩, ⟨1, 5, 0, 8, 1⟩]

/-- The links of a die in order: link l is the l-th of them (R422). -/
def State.linksOf (s : State) (d : Nat) : List LinkInfo := (linkTable s.fuses.dies).filter (fun i => decide (i.die = d))

/-- Link l of a die, where there is one. -/
def State.linkInfo (s : State) (d l : Nat) : Option LinkInfo := (s.linksOf d)[l]?

/-- The die and number of a link of a port. -/
def State.linkOfPort (s : State) (port index : Nat) : Option (Nat × Nat) :=
  match (linkTable s.fuses.dies).find? (fun i => decide (i.port = port) && decide (i.index = index)) with
  | none => none
  | some i => some (i.die, firstIdx (s.linksOf i.die) (fun j => decide (j = i)) 0)

/-- The links of a port. -/
def State.portWidth (s : State) (port : Nat) : Nat := ((linkTable s.fuses.dies).filter (fun i => decide (i.port = port))).length

/-- Every link of the module, as die and number. -/
def State.allLinks (s : State) : List (Nat × Nat) :=
  s.dieList.flatMap (fun d => (List.range (s.linksOf d).length).map (fun l => (d, l)))

/-- The index of a link in the lifetime counters of the Lamp: H0, H1, E0, … F3 (R480, R495). -/
def State.lampLink (s : State) (d l : Nat) : Nat :=
  match s.linkInfo d l with
  | none => 0
  | some i => if i.port = 0 then i.index else if i.port ≤ 2 then 2 * i.port + i.index else i.port + 2

/-- Whether a link is UP, degraded or not (R422). -/
def State.linkUp (s : State) (d l : Nat) : Bool := decide (s.rd (LINK_STATUS_STATE d l) = 2) || decide (s.rd (LINK_STATUS_STATE d l) = 3)

/-- The team of the module (R439). -/
def State.myTeam (s : State) : Nat := s.rd TEAM_CFG_TEAM

/-- The ring slot of the module. -/
def State.mySlot (s : State) : Nat := s.fuses.slot.toNat

/-- The link on which a packet for another module leaves: toward ring slot `slot` of the own team East or West, link (source die + destination
die) mod 2 of a two-link port, or toward another team by its FLEET_ROUTE (R429, R438). -/
def State.outLink (s : State) (team slot srcDie dstDie : Nat) : Option (Nat × Nat) :=
  let size := max 1 (s.rd TEAM_CFG_SIZE)
  let toward (x : Nat) : Option (Nat × Nat) :=
    let k := (x + size - s.mySlot % size) % size
    let port := if k ≤ size / 2 then 1 else 2
    s.linkOfPort port (if s.portWidth port = 2 then (srcDie + dstDie) % 2 else 0)
  if team = s.myTeam then toward slot
  else if s.flag (FLEET_ROUTE_VALID team) then
    (if s.rd (FLEET_ROUTE_SLOT team) = s.mySlot then s.linkOfPort (4 + s.rd (FLEET_ROUTE_PORT team)) 0 else toward (s.rd (FLEET_ROUTE_SLOT team)))
  else none

/-- The die-to-die ports that a packet from die `a` to die `b` leaves by and enters by, as 64 + port key (R22). -/
def hopPorts (a b fuel : Nat) : List Nat :=
  match fuel with
  | 0 => []
  | fuel + 1 =>
    let x := a ^^^ b
    if x = 0 then []
    else
      let p := if x % 2 = 1 then 0 else if x / 2 % 2 = 1 then 1 else 2
      let n := a ^^^ 2 ^ p
      (64 + portKey a p) :: (64 + portKey n p) :: hopPorts n b fuel

/-- A transfer of a work item crosses the ports to a die, and a link where the other end is another module (R85). -/
def State.crossed (s : State) (owner : Option Nat) (d e : Nat) (link : Option (Nat × Nat)) : State :=
  match owner with
  | none => s
  | some k =>
    let ks := match link with
      | some (x, l) => linkKey x l :: hopPorts d x 3
      | none => hopPorts d e 3
    if ks = [] then s else s.modItem k (fun i => { i with use := { i.use with links := ks.foldl (fun ls x => insertAsc x ls) i.use.links } })

/-- The bytes of a packet: its 32 B header and its payload (R413). -/
def packetBytes (type : Nat) (p : Packet) (data : List Byte) : List Byte :=
  leBytes 1 type ++ leBytes 1 (p.srcDie.toNat + p.dstDie.toNat * 8 + p.cls.toNat * 64) ++ leBytes 1 p.srcTeam.toNat ++ leBytes 1 p.srcSlot.toNat ++
    leBytes 1 p.dstTeam.toNat ++ leBytes 1 p.dstSlot.toNat ++ leBytes 2 p.tag.toNat ++ leBytes 2 p.len ++ leBytes 2 p.rid.toNat ++
    leBytes 2 p.req.toNat ++ leBytes 3 p.key.toNat ++ leBytes 1 0 ++ leBytes 6 p.addr.toNat ++ leBytes 8 0 ++ data

/-- A payload of 246 B. -/
def padTo (n : Nat) (bs : List Byte) : List Byte := bs ++ List.replicate (n - bs.length) 0

/-- Whether a KIND is sequenced (R412). -/
def sequenced (k : BitVec 4) : Bool := decide (k = 0) || decide (k = 4) || decide (k = 6) || decide (k = 7)

/-- Bytes 0 to 251 of a flit, which its CRC covers (R411). -/
def flitBody (f : Flit) : List Byte :=
  leBytes 2 f.tag.toNat ++ leBytes 2 (f.seq.toNat + f.kind.toNat * 4096) ++ leBytes 2 (f.ack.toNat + f.cret.toNat * 4096) ++ f.payload

/-- The 256 bytes of a flit (R411). -/
def flitImage (f : Flit) : List Byte := flitBody f ++ leBytes 4 f.crc.toNat

/-- A flit with the CRC of its bytes. -/
def sealFlit (f : Flit) : Flit := { f with crc := BitVec.ofNat 32 (crc32c (flitBody f)) }

/-- Whether a flit's CRC is good (R411). -/
def flitGood (f : Flit) : Bool := decide (f.crc.toNat = crc32c (flitBody f))

/-- A flit of a link, with the ACK it owes its partner. -/
def Link.flit (x : Link) (tag : BitVec 16) (kind : BitVec 4) (payload : List Byte) : Flit :=
  sealFlit { tag := tag, seq := x.txNext, kind := kind, ack := x.rxExp - 1, cret := 0, payload := padTo 246 payload, crc := 0 }

/-- Bytes 0 to 253 of a die flit, which its CRC covers (R423). -/
def dieFlitBody (f : DieFlit) : List Byte := leBytes 2 f.tag.toNat ++ leBytes 1 f.seq.toNat ++ leBytes 1 f.ack.toNat ++ f.payload

/-- The 256 bytes of a die flit (R423). -/
def dieFlitImage (f : DieFlit) : List Byte := dieFlitBody f ++ leBytes 2 f.crc.toNat

/-- Whether a die flit's CRC is good (R423). -/
def dieFlitGood (f : DieFlit) : Bool := decide (f.crc.toNat = crc16 (dieFlitBody f))

/-- The bytes of a capability block (R424). -/
def capBytes (c : CapBlock) : List Byte :=
  leBytes 1 c.linkMin.toNat ++ leBytes 1 c.linkMax.toNat ++ leBytes 1 c.teamMin.toNat ++ leBytes 1 c.teamMax.toNat ++ leBytes 1 c.dies.toNat ++
    leBytes 1 (c.slot.toNat + (if c.coach then 16 else 0) + (if c.spare then 32 else 0) + (if c.host then 64 else 0)) ++ leBytes 2 0 ++
    leBytes 8 c.serial.toNat ++ (padTo 32 c.owner).take 32 ++ leBytes 16 0

/-- The capability block that bytes spell (R424). -/
def capOfBytes (bs : List Byte) : CapBlock :=
  { linkMin := bs.getD 0 0, linkMax := bs.getD 1 0, teamMin := bs.getD 2 0, teamMax := bs.getD 3 0, dies := bs.getD 4 0,
    slot := BitVec.ofNat 4 (leAt bs 5 1), coach := (bs.getD 5 0).getLsbD 4, spare := (bs.getD 5 0).getLsbD 5, host := (bs.getD 5 0).getLsbD 6,
    serial := BitVec.ofNat 64 (leAt bs 8 8), owner := (bs.drop 16).take 32 }

/-- The link sends waiting sequenced flits while it is UP, holds a credit, and has fewer than 2,048 unacknowledged (R414, R416). -/
def State.drain (s : State) (d l fuel : Nat) : State :=
  match fuel with
  | 0 => s
  | fuel + 1 =>
    let x := s.link d l
    match x.txq with
    | [] => s
    | (k, b) :: r =>
      if s.linkUp d l ∧ 0 < x.credits ∧ x.retry.length < 2048 then
        let f := x.flit s.tag16 k b
        ((s.modLink d l (fun x => { x with txq := r, txNext := x.txNext + 1, retry := x.retry ++ [f], credits := x.credits - 1,
                                           sent := bump48 x.sent 1 })).send (.flit d l f)).drain d l fuel
      else s

/-- A sequenced flit is sent, or waits its turn. -/
def State.sendSequenced (s : State) (d l : Nat) (kind : BitVec 4) (payload : List Byte) : State :=
  let s := s.modLink d l (fun x => { x with txq := x.txq ++ [(kind, payload)] })
  s.drain d l (s.link d l).txq.length

/-- An unsequenced flit is sent (R412). -/
def State.sendPlain (s : State) (d l : Nat) (kind : BitVec 4) (payload : List Byte) : State :=
  s.send (.flit d l ((s.link d l).flit s.tag16 kind payload))

/-- The flits that carry a packet. -/
def packetFlits (bs : List Byte) (fuel : Nat) : List (List Byte) :=
  match fuel with
  | 0 => []
  | fuel + 1 => if bs = [] then [] else bs.take 246 :: packetFlits (bs.drop 246) fuel

/-- A packet leaves on a link. -/
def State.putPacket (s : State) (d l type : Nat) (p : Packet) (data : List Byte) : State :=
  (packetFlits (packetBytes type p data) 2).foldl (fun s b => s.sendSequenced d l 0 b) s

/-- An event of a link (R451). -/
def linkEv (num d l : Nat) (items : List (Nat × Nat)) : Ev := mkEv num d 0xFF 22 l items

/-- A request to another module is sent on its link, or held while that link is not UP; 4 ms after the link left UP it fails, with EV_LINK_DOWN (R418). False where
it fails or has no route, which is a bus error (R438). -/
def State.request (s : State) (r : Req) : State × Bool :=
  match s.outLink r.p.dstTeam.toNat r.p.dstSlot.toNat r.p.srcDie.toNat r.p.dstDie.toNat with
  | none => (s, false)
  | some (d, l) =>
    if (s.link d l).expired ∧ s.linkUp d l = false then (s.raise (linkEv 164 d l [(1, l), (4, 1)]), false)
    else if s.linkUp d l then
      ((s.modLink d l (fun x => { x with reqs := x.reqs ++ [r] })).putPacket d l r.type r.p r.data, true)
    else (s.modLink d l (fun x => { x with held := x.held ++ [r] }), true)

/-- The requests that a link held are issued once it is UP (R417, R418). -/
def State.releaseHeld (s : State) (d l : Nat) : State :=
  let rs := (s.link d l).held
  rs.foldl (fun s r => (s.modLink d l (fun x => { x with reqs := x.reqs ++ [r] })).putPacket d l r.type r.p r.data)
    (s.modLink d l (fun x => { x with held := [] }))

/-- The first request of a list that meets a test, and the others. -/
def takeFirst {α : Type} (p : α → Bool) (xs : List α) : Option (α × List α) :=
  match xs with
  | [] => none
  | x :: r =>
    if p x then some (x, r)
    else match takeFirst p r with
      | some (y, r) => some (y, x :: r)
      | none => none

/-- The oldest outstanding request of a requester of a die and of a TYPE is answered: it leaves the link that carried it. -/
def State.answered (s : State) (d req type : Nat) : State :=
  match s.allLinks.find? (fun k => (s.link k.1 k.2).reqs.any (fun r =>
      decide (r.type = type) && decide (r.p.req.toNat = req) && decide (r.p.srcDie.toNat = d))) with
  | none => s
  | some (x, l) =>
    match takeFirst (fun r => decide (r.type = type) && decide (r.p.req.toNat = req) && decide (r.p.srcDie.toNat = d)) (s.link x l).reqs with
    | some (_, rest) => s.modLink x l (fun y => { y with reqs := rest })
    | none => s

/-- Whether a packet comes from the host adapter (R413). -/
def fromHost (p : Packet) : Bool := decide (p.srcTeam.toNat = 0x3F) && decide (p.srcSlot.toNat = 0xF)

/-- Whether a packet is for this module. -/
def State.forHere (s : State) (p : Packet) : Bool := decide (p.dstTeam.toNat = s.myTeam) && decide (p.dstSlot.toNat = s.mySlot)

/-- The requester index of requests that arrive over a link (R349). -/
def State.arrivalIndex (s : State) (d l : Nat) : Nat :=
  match s.linkInfo d l with
  | none => 0xFFFF
  | some i => if i.port ≤ 2 then 419 + i.port else 418 + i.port

/-- The header of a response: the request's, turned round (R413). -/
def State.responseTo (s : State) (p : Packet) (len : Nat) : Packet :=
  { p with
    srcDie := p.dstDie, dstDie := p.srcDie, srcTeam := p.dstTeam, srcSlot := p.dstSlot, dstTeam := p.srcTeam, dstSlot := p.srcSlot
    tag := s.tag16, len := len }

/-- A request fails as in R28: no effect and no data, with EV_ADDR_UNMAPPED. -/
def State.requestFails (s : State) (d l : Nat) (p : Packet) : State := (s.unmapped d 0xFF 22 l p.addr.toNat (s.arrivalIndex d l)).send (.noData d l p)

/-- Whether a packet TYPE is a request (R413). -/
def isRequest (type : Nat) : Bool := decide (type = 0) || decide (type = 2) || decide (type = 5) || decide (type = 6)

/-- A packet for another module goes on by its route (R429, R438); without one it fails. A request of another module is noted on the link it leaves by (R417); 4 ms
after that link left UP it fails, with EV_LINK_DOWN (R418). -/
def State.sendOn (s : State) (d l type : Nat) (p : Packet) (data : List Byte) : State :=
  match s.outLink p.dstTeam.toNat p.dstSlot.toNat p.srcDie.toNat p.dstDie.toNat with
  | none => if isRequest type then s.requestFails d l p else s
  | some (x, m) =>
    if (s.dieUp x && s.routeOk d x) = false then (if isRequest type then s.requestFails d l p else s)
    else if isRequest type = false then s.putPacket x m type p data
    else if (s.link x m).expired ∧ s.linkUp x m = false then (s.raise (linkEv 164 x m [(1, m), (4, 1)])).send (.noData d l p)
    else (s.modLink x m (fun y => { y with transit := y.transit ++ [(type, p)] })).putPacket x m type p data

/-- The TYPE of the request that a response TYPE answers (R413); a link-reset response answers any. -/
def answersType (response request : Nat) : Bool :=
  if response = 7 then decide (request = 5) || decide (request = 6)
  else if response = 4 then true
  else decide (response = request + 1)

/-- A response that passes on its way to another module ends the request noted for it, and goes on (R417, R429). -/
def State.passBack (s : State) (d l type : Nat) (p : Packet) (data : List Byte) : State :=
  let mine (e : Nat × Packet) : Bool :=
    answersType type e.1 && decide (e.2.rid = p.rid) && decide (e.2.srcTeam = p.dstTeam) && decide (e.2.srcSlot = p.dstSlot) && decide (e.2.srcDie = p.dstDie)
  match takeFirst mine (s.link d l).transit with
  | some (_, rest) => (s.modLink d l (fun x => { x with transit := rest })).sendOn d l type p data
  | none => s.sendOn d l type p data

end Sys2Proof.Machine
end

