-- ==== Sys2Proof/Machine/Access.lean ====
section
/-! DEFINITION. Where a register access goes: which registers the grade has (R26), who reaches them (R23, R28, R38, R39, R501), and how one that
nothing answers fails. -/

namespace Sys2Proof.Machine

/-- Whether a source of register accesses reaches an address: over SMBus only BYPASS and what the Lamp serves (R501). -/
def reaches (src : Src) (a : Nat) : Bool :=
  match src with
  | .smbus => decide (a = modReg 0x410) || (decide (modReg 0x1000 ≤ a) && decide (a < modReg 0x3000))
  | _ => true

/-- Whether a core, channel or other unit of a register's index is one of the grade's (R2, R26). -/
def State.unitThere (s : State) (r : RegId) : Bool :=
  match r with
  | .SEQ_EXC _ c => decide (c < s.nCores) || decide (96 ≤ c)
  | .SEQ_CTRL _ c => decide (c < s.nCores)
  | .ACC_STATUS _ c => decide (c < s.nCores)
  | .ACC_GROUP _ c _ => decide (c < s.nCores)
  | .HARNESS_STATUS _ c => decide (c < s.nCores)
  | .HARNESS_COUNT _ c => decide (c < s.nCores)
  | .HARNESS_CTRL _ c => decide (c < s.nCores)
  | .PRED_STATUS _ c => decide (c < s.nCores)
  | .PRED_COUNT _ c => decide (c < s.nCores)
  | .SPAD_WIN _ c _ => decide (c < s.nCores)
  | .SPAD_STAT _ c => decide (c < s.nCores)
  | .SPAD_BANK _ c _ => decide (c < s.nCores)
  | .SPAD_PWR _ c => decide (c < s.nCores)
  | .DRAY_CH_STATUS _ n => decide (n < 32 + 4 * s.nCores)
  | .DRAY_CH_SRC _ n => decide (n < 32 + 4 * s.nCores)
  | .DRAY_CH_DST _ n => decide (n < 32 + 4 * s.nCores)
  | .DRAY_CH_ERR _ n => decide (n < 32 + 4 * s.nCores)
  | .DRAY_CH_SCFG _ n => decide (n < 32 + 4 * s.nCores)
  | .DRAY_CH_SLOTS _ n => decide (n < 32 + 4 * s.nCores)
  | .DRAY_CH_MISS _ n => decide (n < 32 + 4 * s.nCores)
  | .DRAY_CH_ACC_CNT _ n => decide (n < 32 + 4 * s.nCores)
  | .DRAY_CH_CMP_CNT _ n => decide (n < 32 + 4 * s.nCores)
  | .DRAY_CH_OK_CNT _ n => decide (n < 32 + 4 * s.nCores)
  | .DRAY_CH_ERR_CNT _ n => decide (n < 32 + 4 * s.nCores)
  | .DRAY_CH_CAN_CNT _ n => decide (n < 32 + 4 * s.nCores)
  | _ => true

/-- The die that serves a register address: the die of its block, or the lead die (R26, R38). -/
def State.regHome (s : State) (a : Nat) : Nat := if a < modReg 0 then (a - dieReg 0 0) / 0x10000000 else s.lead

/-- The register word at an address, where the grade has one. -/
def State.regAt (s : State) (a : Nat) : Option RegId :=
  match locateReg a with
  | some r => if s.unitThere r ∧ (a < modReg 0 → s.regHome a < s.fuses.dies) then some r else none
  | none => none

/-- The byte offset in the mailbox's data area of the 8 B word at an address (R499). -/
def mboxWord (a : Nat) : Option Nat := if modReg 0x2100 ≤ a ∧ a < modReg 0x2200 ∧ a % 8 = 0 then some (a - modReg 0x2100) else none

/-- Whether a register or a word of the mailbox stands at an address. -/
def State.regThere (s : State) (a : Nat) : Bool := (s.regAt a).isSome || (mboxWord a).isSome

/-- The die at which an access enters the module: that of the link, or of the core that makes it (R420, R421). -/
def entryDie : Src → Nat
  | .host h1 _ => if h1 then 1 else 0
  | .packet d _ _ => d
  | .firmware d => d
  | .mgmt d => d
  | .smbus => 0

/-- The requester index of an access (R349): that of the link it came over, or none. -/
def State.requesterOf (s : State) (src : Src) : Nat :=
  match src with
  | .host _ _ => 419
  | .packet d l _ => s.arrivalIndex d l
  | _ => 0xFFFF

/-- The UNIT of a requester of registers (R451): a link, a control core or the management core. -/
def unitOf : Src → Nat
  | .host _ _ => 22
  | .packet _ _ _ => 22
  | _ => 17

/-- The number of the link on its die that an access came over, else 0. -/
def linkNoOf : Src → Nat
  | .packet _ l _ => l
  | _ => 0

/-- Whether a source is the host link. -/
def isHost : Src → Bool
  | .host _ _ => true
  | _ => false

/-- A register access of a source. Over SMBus an address that does not answer does nothing (R501, R546). One of the host link to the module-level
registers waits while die 1 takes the lead over (R39); any other that finds no register, or no route to the die that serves it, raises
EV_ADDR_UNMAPPED (R23, R28). `c` is the command itself. -/
def State.access (s : State) (src : Src) (a : Nat) (c : Instr) (act : State → State) : State :=
  if src = .smbus then (if s.lamp.auxIn ∧ reaches src a ∧ s.regThere a then act s else s)
  else if s.dieUp (entryDie src) = false then s
  else if isHost src ∧ s.job.takeover ∧ modReg 0 ≤ a then { s with job := { s.job with held := s.job.held ++ [c] } }
  else if s.regThere a ∧ s.dieUp (s.regHome a) ∧ s.routeOk (entryDie src) (s.regHome a) then act s
  else s.unmapped (entryDie src) 0xFF (unitOf src) (linkNoOf src) a (s.requesterOf src)

/-- The link that a register access came over: H0 or H1, or that of the packet (R421). -/
def State.linkOf (s : State) (src : Src) : Option (Nat × Nat) :=
  match src with
  | .host h1 _ => s.linkOfPort 0 (if h1 then 1 else 0)
  | .packet d l _ => some (d, l)
  | _ => none

/-- The header of the packet that answers a register access at an address (R413): RID is copied from the request. Of a request of the host adapter only RID is known here; KEY and CLASS
are 0 (log entry 119). -/
def State.answerTo (s : State) (src : Src) (a len : Nat) : Packet :=
  match src with
  | .packet _ _ p => s.responseTo p len
  | _ =>
    { srcDie := BitVec.ofNat 3 (s.regHome a), dstDie := BitVec.ofNat 3 (entryDie src), cls := 0, srcTeam := BitVec.ofNat 6 s.myTeam, srcSlot := s.fuses.slot,
      dstTeam := 0x3F, dstSlot := 0xF, tag := s.tag16, len := len, rid := (match src with
        | .host _ rid => rid
        | _ => 0), req := 419, key := 0, addr := BitVec.ofNat 48 a }

/-- A register access that came over a link is answered on that link by a TYPE 7 packet: with the 8 bytes of a read, or without payload for a write (R413, R427; log entry
119). -/
def State.respond (s : State) (src : Src) (a : Nat) (data : List Byte) : State :=
  match s.linkOf src with
  | none => s
  | some (d, l) => s.putPacket d l 7 (s.answerTo src a data.length) data

/-- A register write of a source, answered where it came over a link. -/
def State.accessWrite (s : State) (src : Src) (a : Nat) (c : Instr) (act : State → State) : State :=
  s.access src a c (fun s => (act s).respond src a [])

/-- A register packet that came over a link for another module goes on (R413, R429). -/
def State.passesOn (s : State) (src : Src) (p : Packet) : Bool := (s.linkOf src).isSome && !s.forHere p

/-- A register packet goes on by the route of the module it names. -/
def State.registerOn (s : State) (src : Src) (type : Nat) (p : Packet) (data : List Byte) : State :=
  match s.linkOf src with
  | none => s
  | some (d, l) => s.sendOn d l type p data

end Sys2Proof.Machine
end

