-- ==== Sys2Proof/Machine/Timetable.lean ====
section
/-! DEFINITION. Timetables: how their bytes are read (R60 to R64) and validated (R65). -/

namespace Sys2Proof.Machine

/-- A link slot entry (R63). -/
structure SlotEntry where
  port : Nat
  cls : Nat
  stream : Nat
  start : Nat
  len : Nat
  rsv : Nat
  deriving DecidableEq, Repr

/-- A stream entry (R64). -/
structure StreamEntry where
  chan : Nat
  stream : Nat
  deadline : Nat
  slots : Nat
  cls : Nat
  rsv : Nat
  deriving DecidableEq, Repr

/-- A Timetable image (R61). -/
structure TT where
  format : Nat
  id : Nat
  nWork : Nat
  nSlot : Nat
  nStream : Nat
  nextLen : Nat
  crc : Nat
  rsv : Nat
  work : List WorkEntry
  slots : List SlotEntry
  streams : List StreamEntry
  deriving DecidableEq, Repr

/-- A work entry from its 32 bytes (R62). -/
def workOf (b : List Byte) : WorkEntry :=
  { core := leAt b 0 1, item := leAt b 1 1, flags := leAt b 2 2, entry := leAt b 4 4, first := leAt b 8 4, count := leAt b 12 4,
    counter := leAt b 16 2, rsv := leAt b 18 2, out := (List.range 4).map (fun i => leAt b (20 + 2 * i) 2), arg := leAt b 28 4 }

/-- A link slot entry from its 16 bytes. -/
def slotOf (b : List Byte) : SlotEntry :=
  { port := leAt b 0 1, cls := leAt b 1 1, stream := leAt b 2 2, start := leAt b 4 4, len := leAt b 8 4, rsv := leAt b 12 4 }

/-- A stream entry from its 16 bytes. -/
def streamOf (b : List Byte) : StreamEntry :=
  { chan := leAt b 0 2, stream := leAt b 2 2, deadline := leAt b 4 4, slots := leAt b 8 2, cls := leAt b 10 1, rsv := leAt b 11 5 }

/-- The image length that the counts imply (R61). -/
def TT.length (t : TT) : Nat := 64 + 32 * t.nWork + 16 * (t.nSlot + t.nStream)

/-- The Timetable that stands at an address. -/
def State.timetable (s : State) (a : Nat) : TT :=
  let nw := s.natAt (a + 8) 2
  let ns := s.natAt (a + 10) 2
  let nm := s.natAt (a + 12) 2
  let b := a + 64 + 32 * nw
  { format := s.natAt a 2, id := s.natAt (a + 4) 4, nWork := nw, nSlot := ns, nStream := nm, nextLen := s.natAt (a + 14) 2,
    crc := s.natAt (a + 16) 4, rsv := s.natAt (a + 2) 2 + s.natAt (a + 20) 44,
    work := (List.range nw).map (fun i => workOf (s.bytesAt (a + 64 + 32 * i) 32)),
    slots := (List.range ns).map (fun i => slotOf (s.bytesAt (b + 16 * i) 16)),
    streams := (List.range nm).map (fun i => streamOf (s.bytesAt (b + 16 * ns + 16 * i) 16)) }

/-- The active Timetable of a die. -/
def State.activeTT (s : State) (d : Nat) : TT := s.timetable (activeBuf d)

/-- The entry that binds a stream to a channel of a die in the active Timetable (R64, R344). -/
def State.streamEntry (s : State) (d n stream : Nat) : Option StreamEntry :=
  (s.activeTT d).streams.find? (fun e => decide (e.chan = n) && decide (e.stream = stream))

/-- H, the cycles that the tick is held (R47). -/
def State.holdCycles (s : State) : Nat := s.rd FRAME_CFG_HOLD * 1024

/-- The field ranges of a work entry (R65 check 4). -/
def WorkEntry.ranged (e : WorkEntry) : Bool :=
  decide (e.flags < 2) && decide (e.entry % 8 = 0) && decide (1 ≤ e.count) && decide (e.rsv = 0) &&
    (if e.flags % 2 = 1 then decide (e.counter < 1024) else decide (e.counter = 0))

/-- The field ranges of a link slot entry. -/
def SlotEntry.ranged (e : SlotEntry) : Bool :=
  (decide (e.port ≤ 2) || (decide (4 ≤ e.port) && decide (e.port ≤ 7))) && decide (e.cls ≤ 2) && decide (1 ≤ e.len) && decide (e.len < 2 ^ 24) &&
    decide (e.start < 2 ^ 24) && decide (e.rsv = 0)

/-- The field ranges of a stream entry. -/
def StreamEntry.ranged (e : StreamEntry) : Bool :=
  decide (1 ≤ e.slots) && decide (e.slots ≤ 4096) && decide (e.cls ≤ 2) && decide (e.deadline < 2 ^ 24) && decide (e.rsv = 0)

/-- Whether no two entries of a list meet the relation. -/
def noPair {α : Type} (p : α → α → Bool) (xs : List α) : Bool :=
  match xs with
  | [] => true
  | x :: r => r.all (fun y => !p x y) && noPair p r

/-- The first check of R65 that the staged Timetable of a die fails, by its number. A CORE, ITEM or CHANNEL out of range fails check 5 or 6 (DESIGN CHOICE, log entry
125. Unsafe). -/
def State.ttFail (s : State) (d : Nat) : Option Nat :=
  let a := stagingBuf d
  let t := s.timetable a
  let f := (if t.nextLen = 0 then s.rd FRAME_CFG_LEN else t.nextLen) * 1024
  let h := s.holdCycles
  let bytes := s.bytesAt a t.length
  if t.format = 0 ∨ t.format ≠ field (s.rd MODULE_VERSIONS_V) 24 8 then some 1
  else if t.length ≤ 65536 ∧ crc32c (bytes.take 16 ++ leBytes 4 0 ++ bytes.drop 20) ≠ t.crc then some 2
  else if t.id ≠ (s.rd (TT_CTRL_ACTIVE_ID d) + 1) % 2 ^ 32 then some 3
  else if ¬ (t.nWork ≤ 768 ∧ t.nSlot ≤ 1024 ∧ t.nStream ≤ 416 ∧ t.rsv = 0 ∧ (t.nextLen = 0 ∨ (64 ≤ t.nextLen ∧ t.nextLen ≤ 16384))) ∨
      (t.work.all WorkEntry.ranged && t.slots.all SlotEntry.ranged && t.streams.all StreamEntry.ranged) = false then some 4
  else if (t.work.all (fun e => s.coreExists d e.core && decide (e.item ≤ 7)) &&
      noPair (fun x y => decide (x.core = y.core) && decide (x.item = y.item)) t.work) = false then some 5
  else if t.streams.all (fun e => s.chanExists d e.chan) = false then some 6
  else if (t.slots.all (fun e => decide (h ≤ e.start) && decide (e.start < f) && decide (e.start + e.len ≤ f)) &&
      t.streams.all (fun e => decide (h ≤ e.deadline) && decide (e.deadline < f))) = false then some 7
  else if noPair (fun x y => decide (x.port = y.port) && overlaps x.start x.len y.start y.len) t.slots = false then some 8
  else if t.work.all (fun e => e.out.all (fun r => decide (r = 0xFFFF) || decide (r < s.job.nRegions))) = false then some 9
  else none

/-- Validation of a staged Timetable ends (R65). -/
def execTimetableValidated (d : Nat) (s : State) : Ans :=
  if (s.die d).validating = false ∨ s.dieUp d = false then .next s
  else
    let s := s.modDie d (fun x => { x with validating := false })
    match s.ttFail d with
    | none => .next (s.wr (TT_CTRL_VALID d) 1)
    | some c =>
      let s := ((s.wr (TT_CTRL_INVALID d) 1).wr (TT_CTRL_READY d) 0).wr (TT_CTRL_FAIL_CODE d) c
      .next (s.raise (mkEv 3 d 0xFF 17 0 [(4, (s.timetable (stagingBuf d)).id), (1, c)]))

end Sys2Proof.Machine
end

