-- ==== Sys2Proof/Machine/Dray.lean ====
section
/-! DEFINITION. Dray transfers (R309 to R348): descriptors and their checks, reads and writes in loop order, the tile operations, retry
and halt, completion records and queues, and streams. -/

namespace Sys2Proof.Machine

/-- The fields of a descriptor (R312). -/
structure Desc where
  srcAddr : Nat
  srcTeam : Nat
  srcMod : Nat
  srcRem : Bool
  dstAddr : Nat
  dstTeam : Nat
  dstMod : Nat
  dstRem : Bool
  s0 : Int
  d0 : Int
  s1 : Int
  d1 : Int
  s2 : Int
  d2 : Int
  scnt0 : Nat
  dcnt0 : Nat
  cnt1 : Nat
  cnt2 : Nat
  sw : Nat
  dw : Nat
  op : Nat
  cq : Nat
  xfmt : Nat
  xpar : Nat
  last : Bool
  tag : Nat
  aux : Nat
  stream : Nat
  rsv : Bool
  deriving DecidableEq, Repr

/-- A descriptor from its eight words. -/
def descOf (ws : List Word) : Desc :=
  let w (i : Nat) : Nat := (ws.getD i 0).toNat
  { srcAddr := field (w 0) 0 48, srcTeam := field (w 0) 48 6, srcMod := field (w 0) 54 4, srcRem := (w 0).testBit 58,
    dstAddr := field (w 1) 0 48, dstTeam := field (w 1) 48 6, dstMod := field (w 1) 54 4, dstRem := (w 1).testBit 58,
    s0 := signed 32 (w 2), d0 := signed 32 (w 2 >>> 32), s1 := signed 32 (w 3), d1 := signed 32 (w 3 >>> 32),
    s2 := signed 32 (w 4), d2 := signed 32 (w 4 >>> 32),
    scnt0 := field (w 5) 0 16 + 1, dcnt0 := field (w 5) 16 16 + 1, cnt1 := field (w 5) 32 16 + 1, cnt2 := field (w 5) 48 16 + 1,
    sw := field (w 6) 0 8 + 1, dw := field (w 6) 8 8 + 1, op := field (w 6) 16 4, cq := field (w 6) 20 6, xfmt := field (w 6) 26 4,
    xpar := field (w 6) 30 4, last := (w 6).testBit 40, tag := field (w 6) 48 16, aux := field (w 7) 0 48, stream := field (w 7) 48 16,
    rsv := decide (field (w 0) 59 5 ≠ 0) || decide (field (w 1) 59 5 ≠ 0) || decide (field (w 6) 34 6 ≠ 0) || decide (field (w 6) 41 7 ≠ 0) }

/-- The descriptor of an accepted run. -/
def DRun.desc (r : DRun) : Desc := descOf r.raw

/-- The layout that a compressing store writes (R313). -/
def Desc.layout (d : Desc) : Nat := if d.xpar = 2 then 6 else if d.xpar = 3 then 5 else d.xpar + 3

/-- Whether an operation runs through a tile stage (R318). -/
def Desc.tiled (d : Desc) : Bool := decide (1 ≤ d.op ∧ d.op ≤ 4)

/-- Check 1 of R314. -/
def Desc.check1 (d : Desc) : Bool :=
  !d.rsv && decide (d.op ≤ 5) && (decide (d.op ≠ 0) || decide (d.xfmt = 0)) && (decide (d.op = 3) || decide (d.op = 5) || decide (d.aux = 0)) &&
    (if 1 ≤ d.op ∧ d.op ≤ 3 then decide (d.xpar < 4) else decide (d.xpar = 0))

/-- Check 2 of R314. -/
def Desc.check2 (d : Desc) : Bool :=
  decide (d.sw % 4 = 0) && decide (d.dw % 4 = 0) && decide (d.srcAddr % 4 = 0) && decide (d.dstAddr % 4 = 0) && decide (d.aux % 4 = 0) &&
    [d.s0, d.d0, d.s1, d.d1, d.s2, d.d2].all (fun x => decide (x % 4 = 0))

/-- Whether a module that a remote address names exists (R314 check 3): the own position, a position of the own team that an admitted member or spare holds, or a
team that has a route. -/
def State.moduleNamed (s : State) (team pos : Nat) : Bool :=
  if team = s.myTeam then decide (pos = s.rd TEAM_STATUS_POS) || (s.rd TEAM_STATUS_MEMBERS).testBit (s.team.seats.getD pos 16)
  else s.flag (FLEET_ROUTE_VALID team)

/-- Check 3 of R314. -/
def State.descCheck3 (s : State) (d : Desc) : Bool :=
  !(d.srcRem && d.dstRem) && (!d.srcRem || s.moduleNamed d.srcTeam d.srcMod) && (!d.dstRem || s.moduleNamed d.dstTeam d.dstMod)

/-- Check 5 of R314: the geometry of R319, R322 and R323, with XFMT and XPAR. -/
def Desc.check5 (d : Desc) : Bool :=
  if d.op = 0 then true
  else if d.op ≤ 3 then
    decide (d.scnt0 = 64) && decide (d.sw * 8 = 64 * fmtBits d.xfmt) && decide (d.dcnt0 = 1) && decide (d.dw = 4) && decide (d.d0 = 0) &&
      compFmt d.layout d.xfmt && (decide (d.layout ≠ 5) || (decide (d.d1 = 0) && decide (d.d2 = 0))) &&
      (decide (d.op ≠ 2) || (decide (d.xpar ≤ 1) && !isMx d.xfmt)) && (decide (d.op ≠ 3) || decide (d.xpar ≠ 2))
  else if d.op = 4 then
    decide (d.scnt0 = 64) && decide (d.sw % 32 = 0) && decide (d.dcnt0 = 1) && decide (d.dw = 4) && decide (d.d1 = 0) && decide (d.xfmt < 13)
  else decide (d.cnt1 = 1) && decide (d.cnt2 = 1) && decide (d.scnt0 * d.sw = d.dcnt0 * d.dw) && decide (d.xfmt < 13)

/-- The CODE of the first check of R314 that a descriptor of a channel fails. -/
def State.descFail (s : State) (d n : Nat) (x : Desc) : Option Nat :=
  if (x.check1 && x.check2 && s.descCheck3 x &&
      (decide (x.op ≠ 0) || (decide (x.scnt0 * x.sw = x.dcnt0 * x.dw) && decide (x.scnt0 * x.sw * x.cnt1 * x.cnt2 ≤ 2 ^ 32))) && x.check5) = false then some 2
  else if x.stream ≠ 0xFFFF ∧ (s.streamEntry d n x.stream).isNone then some 3
  else none

/-- Whether a remote side is served as a local access: it names the own position (R314). -/
def State.ownModule (s : State) (team pos : Nat) : Bool := decide (team = s.myTeam) && decide (pos = s.rd TEAM_STATUS_POS)

/-- Whether the source of a descriptor lies in another module. -/
def State.srcFar (s : State) (x : Desc) : Bool := x.srcRem && !s.ownModule x.srcTeam x.srcMod

/-- Whether the destination of a descriptor lies in another module. -/
def State.dstFar (s : State) (x : Desc) : Bool := x.dstRem && !s.ownModule x.dstTeam x.dstMod

/-- An address on unbounded integers as a module address; one outside 48 bits is put where the map has nothing (R317). -/
def addr48 (a : Int) : Nat := if 0 ≤ a ∧ a < 2 ^ 48 then a.toNat else 2 ^ 48 + (a % 2 ^ 48).toNat

/-- The frame for which a run's accesses resolve: that of its work item. -/
def DRun.forFrame (r : DRun) : Option Nat := match r.owner with
  | some _ => some r.frame
  | none => none

/-- The LPDDR6, SRAM or mirror address that an access of a run goes to. -/
def State.runAddr (s : State) (r : DRun) (write : Bool) (a : Nat) : Nat := match r.forFrame with
  | some f => s.resolve f write a
  | none => a

/-- Whether an access of a channel of die `d` succeeds on its address (R23, R28, R292). -/
def State.reachable (s : State) (d a n : Nat) : Bool := s.accessOk a n && s.routeOk d (dieOf a)

/-- The access an outermost loop index and the two inner ones name: address of iteration `i` of three loops. -/
def loopAddr (base : Nat) (c0 c1 : Nat) (st0 st1 st2 : Int) (i : Nat) : Int :=
  (base : Int) + (i / (c0 * c1) : Nat) * st2 + (i / c0 % c1 : Nat) * st1 + (i % c0 : Nat) * st0

/-- The event of a channel: a unit of its core, or a die-level channel (R451). -/
def chanEv (num d n : Nat) (items : List (Nat × Nat)) : Ev :=
  if n < 32 then mkEv num d 0xFF 21 n items else mkEv num d ((n - 32) / 4) (7 + (n - 32) % 4) n items

/-- Whether a channel waits with an event record for the full FIFO: it stands still meanwhile (R34). -/
def State.chanWaits (s : State) (d n : Nat) : Bool :=
  if n < 32 then s.producerWaits d 0xFF 21 n else s.producerWaits d ((n - 32) / 4) (7 + (n - 32) % 4) n

/-- Bytes of the structure at AUX, read in accesses of at most 256 B: they, or the address and length of the first access that fails. -/
def State.auxBytes (s : State) (d : Nat) (r : DRun) (a n fuel : Nat) : Except (Nat × Nat) (List Byte) :=
  match fuel with
  | 0 => .ok []
  | fuel + 1 =>
    let k := min n 256
    if k = 0 then .ok []
    else if s.reachable d (s.runAddr r false a) k then
      match s.auxBytes d r (a + k) (n - k) fuel with
      | .ok bs => .ok (s.fetchBytes r.forFrame a k ++ bs)
      | .error e => .error e
    else .error (a, k)

/-- The entries of each row of a BL list, whose index array stands at `a`, by its row pointers. -/
def State.auxRows (s : State) (d : Nat) (r : DRun) (a : Nat) (rp : List (Nat × Nat)) : Except (Nat × Nat) (List (List Nat)) :=
  match rp with
  | [] => .ok []
  | (lo, hi) :: t =>
    match s.auxBytes d r (a + 2 * lo) (2 * (hi - lo)) ((hi - lo) / 128 + 2) with
    | .error e => .error e
    | .ok bs =>
      match s.auxRows d r a t with
      | .ok ls => .ok ((List.range (hi - lo)).map (fun j => leAt bs (2 * j) 2) :: ls)
      | .error e => .error e

/-- The BL list at AUX (R212, R321, R323): its header, row pointers and indices are read and not checked; one with DF names every block. Under MASKED it is read
for the block rows of the destination (log entry 21). -/
def State.auxList (s : State) (d : Nat) (r : DRun) : Except (Nat × Nat) AuxList :=
  let a := r.desc.aux
  match s.auxBytes d r a 32 2 with
  | .error e => .error e
  | .ok h =>
    let rows := leAt h 4 2 + 1
    let n := if r.desc.op = 3 then r.desc.cnt2 else rows
    match s.auxBytes d r (a + 32) (4 * (n + 1)) (n / 64 + 2) with
    | .error e => .error e
    | .ok ps =>
      let rp := (List.range (n + 1)).map (fun i => leAt ps (4 * i) 4)
      if 128 ≤ leAt h 12 1 then .ok { df := true, rp := rp, rows := List.replicate n (List.range (leAt h 6 2 + 1)) }
      else match s.auxRows d r (a + 32 + rpSize rows) (rp.zip (rp.drop 1)) with
        | .ok ls => .ok { df := false, rp := rp, rows := ls }
        | .error e => .error e

/-- The address of the mask of the tile in hand (R321). -/
def DRun.maskAddr (r : DRun) : Nat :=
  addr48 ((r.desc.aux : Int) + (r.tix % r.desc.cnt1 : Nat) * r.desc.d1 + (r.tix / r.desc.cnt1 : Nat) * r.desc.d2)

/-- The mask of the tile in hand, at AUX (R321): the present blocks that its OCC names, or every block under DF. -/
def State.auxMask (s : State) (d : Nat) (r : DRun) : Except (Nat × Nat) AuxList :=
  let n := 64 / blockEdge r.desc.layout * (64 / blockEdge r.desc.layout)
  match s.auxBytes d r r.maskAddr 32 2 with
  | .error e => .error e
  | .ok h =>
    let df := decide (128 ≤ leAt h 12 1)
    .ok { df := df, rp := [], rows := [if df then List.range n else (List.range n).filter (fun k => (leAt h 0 8).testBit k)] }

/-- Whether a run has still to read what stands at AUX: the list, or the mask of its next tile. -/
def DRun.wantsAux (x : Desc) (r : DRun) : Bool :=
  r.aux.isNone && (decide (x.op = 5) || (decide (x.op = 3) && (decide (x.layout = 5) || decide (r.tix < x.cnt1 * x.cnt2))))

/-- The blocks that the list at AUX names, in list order: row, place in the row, block column. -/
def DRun.listed (r : DRun) : List (Nat × Nat × Nat) :=
  match r.aux with
  | some m => (m.rows.mapIdx (fun br ks => ks.mapIdx (fun j bc => (br, j, bc)))).flatten
  | none => []

/-- The number of reads of a streamed operation, COPY or INDEXED. -/
def DRun.readCount (x : Desc) (r : DRun) : Nat := if x.op = 5 then x.scnt0 * r.listed.length else x.scnt0 * x.cnt1 * x.cnt2

/-- The number of writes of a streamed operation. -/
def DRun.writeCount (x : Desc) (r : DRun) : Nat := if x.op = 5 then x.dcnt0 * r.listed.length else x.dcnt0 * x.cnt1 * x.cnt2

/-- The address of read `i` of a streamed operation (R315, R323). -/
def DRun.readAddr (x : Desc) (r : DRun) (i : Nat) : Nat :=
  if x.op = 5 then
    match r.listed[i / x.scnt0]? with
    | some (br, _, bc) => addr48 ((x.srcAddr : Int) + br * x.s2 + bc * x.s1 + (i % x.scnt0 : Nat) * x.s0)
    | none => 2 ^ 48
  else addr48 (loopAddr x.srcAddr x.scnt0 x.cnt1 x.s0 x.s1 x.s2 i)

/-- The address of write `i` of a streamed operation. -/
def DRun.writeAddr (x : Desc) (r : DRun) (i : Nat) : Nat :=
  if x.op = 5 then
    match r.listed[i / x.dcnt0]? with
    | some (br, j, _) => addr48 ((x.dstAddr : Int) + br * x.d2 + j * x.d1 + (i % x.dcnt0 : Nat) * x.d0)
    | none => 2 ^ 48
  else addr48 (loopAddr x.dstAddr x.dcnt0 x.cnt1 x.d0 x.d1 x.d2 i)

/-- The count of present blocks of a BL store. -/
def DRun.blCount (x : Desc) (r : DRun) : Nat := if x.op = 3 then r.listed.length else (r.flags.filter id).length

/-- Whether a BL store takes the dense form (R217). -/
def DRun.blDf (x : Desc) (r : DRun) : Bool := blDense x.cnt2 x.cnt1 x.xfmt (r.blCount x)

/-- The blocks that a BL store writes in order, after its first pass, by block row and column, and whether it reads them: those present, or every block in the dense
form (R212, R217, R320, R321). -/
def DRun.blBlocks (x : Desc) (r : DRun) : List (Nat × Nat × Bool) :=
  let all := List.range (x.cnt1 * x.cnt2)
  if x.op = 3 then
    let ks := r.listed.map (fun k => (k.1, k.2.2))
    if r.blDf x then all.map (fun k => (k / x.cnt1, k % x.cnt1, ks.contains (k / x.cnt1, k % x.cnt1))) else ks.map (fun k => (k.1, k.2, true))
  else (if r.blDf x then all else all.filter (fun k => r.flags.getD k false)).map (fun k => (k / x.cnt1, k % x.cnt1, true))

/-- The source tile that a tile operation reads in the phase it is in: loop indices i1 and i2, or none where it reads nothing. -/
def DRun.tileNow (x : Desc) (r : DRun) : Option (Nat × Nat) :=
  if x.op = 4 ∨ x.layout ≠ 5 then (if r.tix < x.cnt1 * x.cnt2 then some (r.tix % x.cnt1, r.tix / x.cnt1) else none)
  else if r.phase = 0 then (if x.op ≠ 3 ∧ r.tix < x.cnt1 * x.cnt2 then some (r.tix % x.cnt1, r.tix / x.cnt1) else none)
  else if r.phase = 2 then
    match (r.blBlocks x)[r.tix]? with
    | some (br, bc, true) => some (bc, br)
    | _ => none
  else none

/-- Whether the tile in hand is read block by block: under MASKED in BB8 and BB16 (R321). -/
def Desc.byBlocks (x : Desc) : Bool := decide (x.op = 3) && decide (x.layout ≠ 5)

/-- The bytes of one row of a block of the tile in hand. -/
def Desc.blockRow (x : Desc) : Nat := blockEdge x.layout * fmtBits x.xfmt / 8

/-- The reads of the tile in hand, by row, offset in it and bytes: its 64 rows, or of each row the present blocks that a mask names (R319, R321). -/
def DRun.segs (x : Desc) (r : DRun) : List (Nat × Nat × Nat) :=
  if x.byBlocks then
    match r.aux with
    | some m =>
      let w := 64 / blockEdge x.layout
      (List.range 64).flatMap (fun i => ((List.range w).filter (fun bc => (m.rows.headD []).contains (w * (i / blockEdge x.layout) + bc))).map
        (fun bc => (i, bc * x.blockRow, x.blockRow)))
    | none => []
  else (List.range 64).map (fun i => (i, 0, x.sw))

/-- The tile in hand, from the bytes of its reads: what was not read stands as zeros. -/
def DRun.tileBytes (x : Desc) (r : DRun) : List Byte :=
  if x.byBlocks then
    let g := r.segs x
    (List.range 64).flatMap (fun i => (List.range (64 / blockEdge x.layout)).flatMap (fun bc =>
      let k := firstIdx g (fun e => decide (e.1 = i) && decide (e.2.1 = bc * x.blockRow)) 0
      if k < g.length then (r.tile.drop (k * x.blockRow)).take x.blockRow else leBytes x.blockRow 0))
  else r.tile

/-- The address and bytes of read `i`: of a streamed operation, or of the tile in hand. -/
def DRun.readAt (x : Desc) (r : DRun) (i : Nat) : Nat × Nat :=
  if x.tiled then
    match r.tileNow x, (r.segs x)[i]? with
    | some (i1, i2), some (row, off, n) => (addr48 ((x.srcAddr : Int) + i1 * x.s1 + i2 * x.s2 + row * x.s0 + off), n)
    | _, _ => (2 ^ 48, x.sw)
  else (r.readAddr x i, x.sw)

/-- The number of reads of the tile in hand, or of the whole of a streamed operation. -/
def DRun.readsOf (x : Desc) (r : DRun) : Nat :=
  if x.tiled then (if (r.tileNow x).isSome ∧ r.plan = [] then (r.segs x).length else r.rd) else r.readCount x

/-- The writes of a slot: payload first, header last (R320). -/
def slotPlan (a pay : Nat) (header payload : List Byte) : List (Nat × List Byte) := cut (a + pay) payload ++ cut a header

/-- What follows when the tile in hand has been read, for BB8, BB16 and ZS (R320, R321): a second read in the dense form, else the
writes of its slot. -/
def DRun.slotDone (x : Desc) (r : DRun) : DRun :=
  let a := addr48 ((x.dstAddr : Int) + (r.tix % x.cnt1 : Nat) * x.d1 + (r.tix / x.cnt1 : Nat) * x.d2)
  let m := rowCodes x.xfmt x.sw (r.tileBytes x)
  let m := if x.op = 2 then transpose64 m else m
  if x.layout = 6 then
    if r.phase = 0 ∧ zsDense x.xfmt (zsCount x.xfmt m) then { r with phase := 1, rd := 0, ret := 0, tile := [] }
    else
      let z := zsSlot x.xfmt m
      { r with plan := slotPlan a 672 z.1 z.2 }
  else
    let ks := if x.op = 3 then (match r.aux with
      | some m => m.rows.headD []
      | none => []) else presentBlocks x.xfmt (blockEdge x.layout) m
    let w := 64 / blockEdge x.layout
    if x.op ≠ 3 ∧ r.phase = 0 ∧ ks.length = w * w then { r with phase := 1, rd := 0, ret := 0, tile := [] }
    else { r with plan := slotPlan a 32 (bbHeader x.layout x.xfmt ks) (bbPayload x.layout x.xfmt m ks) }

/-- The writes of one segment under SKEW, in loop order, a 32 B word each (R322). -/
def skewPlan (x : Desc) (r : DRun) : List (Nat × List Byte) :=
  let i1 := r.tix % x.cnt1
  let i2 := r.tix / x.cnt1
  (List.range 64).flatMap (fun i0 => (List.range (x.sw / 32)).map (fun k =>
    let b := i1 * x.sw + 32 * k
    (addr48 ((x.dstAddr : Int) + i2 * x.d2 + ((i0 + b / 32) % 64 : Nat) * x.d0 + b), (r.tile.drop (i0 * x.sw + 32 * k)).take 32)))

/-- The offset of the payload of a BL store. -/
def DRun.blPayloadAt (x : Desc) (r : DRun) : Nat := 32 + rpSize x.cnt2 + (if r.blDf x then 0 else idxSize (r.blCount x))

/-- The pointers and indices of a BL store, once its first pass is over: those of a full structure under DF, of the list at AUX under MASKED (R212, R320,
R321). -/
def DRun.blTables (x : Desc) (r : DRun) : List (Nat × List Byte) :=
  let a := addr48 x.dstAddr
  let ks := r.blBlocks x
  let rp := if r.blDf x then (List.range (x.cnt2 + 1)).map (fun br => br * x.cnt1)
    else match x.op, r.aux with
      | 3, some m => m.rp
      | _, _ => sumsFrom 0 ((List.range x.cnt2).map (fun br => (ks.filter (fun k => decide (k.1 = br))).length))
  cut (a + 32) (blPointers rp x.cnt2) ++ (if r.blDf x then [] else cut (a + 32 + rpSize x.cnt2) (blIndices (ks.map (fun k => k.2.1))))

/-- The writes of one block of a BL store. -/
def DRun.blBlock (x : Desc) (r : DRun) (bs : List Byte) : DRun :=
  { r with plan := cut (addr48 x.dstAddr + r.blPayloadAt x + r.tix * blockBytes 64 x.xfmt) bs }

/-- What follows when the block in hand of a BL store has been read (R320). -/
def DRun.blDone (x : Desc) (r : DRun) : DRun :=
  if r.phase = 0 then
    let here := (rowCodes x.xfmt x.sw r.tile).any (fun c => c.any (fun v => !zeroCode x.xfmt v))
    { r with flags := r.flags ++ [here], tix := r.tix + 1, rd := 0, ret := 0, tile := [] }
  else r.blBlock x r.tile

/-- Whether every read of the tile in hand has returned. -/
def DRun.tileRead (x : Desc) (r : DRun) : Bool :=
  x.tiled && (r.tileNow x).isSome && decide (r.plan = []) && !(x.byBlocks && r.aux.isNone) && decide ((r.segs x).length ≤ r.ret)

/-- What follows when the tile or block in hand has been read. -/
def DRun.tileDone (x : Desc) (r : DRun) : DRun :=
  if x.op = 4 then { r with plan := skewPlan x r } else if x.layout = 5 then r.blDone x else r.slotDone x

/-- The next piece of work of a tile operation that has nothing in hand: none when its writes are done. -/
def DRun.tileNext (x : Desc) (r : DRun) : Option DRun :=
  if r.tileRead x then some (r.tileDone x)
  else if x.op = 4 ∨ x.layout ≠ 5 then none
  else if r.phase = 0 then (if r.wantsAux x then none else some { r with phase := 1, plan := r.blTables x, tix := 0, rd := 0, ret := 0, tile := [] })
  else if r.phase = 2 then
    match (r.blBlocks x)[r.tix]? with
    | some (_, _, false) => some (r.blBlock x (leBytes (blockBytes 64 x.xfmt) 0))
    | some _ => none
    | none =>
      some { r with phase := 3, plan := cut (addr48 x.dstAddr) (blHeader x.cnt2 x.cnt1 x.xfmt (if r.blDf x then x.cnt1 * x.cnt2 else r.blCount x) (r.blDf x)) }
  else none

/-- The run after the last write of its plan: the next tile, block or part. -/
def DRun.planDone (r : DRun) (x : Desc) : DRun :=
  if x.op ≠ 4 ∧ x.layout = 5 then
    (if r.phase = 1 then { r with phase := 2, tix := 0, rd := 0, ret := 0, tile := [] }
     else if r.phase = 2 then { r with tix := r.tix + 1, rd := 0, ret := 0, tile := [] }
     else { r with phase := 4 })
  else { r with tix := r.tix + 1, phase := 0, rd := 0, ret := 0, tile := [], aux := none }

/-- Whether every write of a run has been accepted. -/
def DRun.writesDone (x : Desc) (r : DRun) : Bool :=
  decide (r.sent = []) && decide (r.again = []) &&
    (if x.tiled then decide (r.plan = []) && (if x.op ≠ 4 ∧ x.layout = 5 then decide (r.phase = 4) else decide (x.cnt1 * x.cnt2 ≤ r.tix))
     else !r.wantsAux x && decide (r.writeCount x ≤ r.wr))

/-- Whether a run has issued all its reads. -/
def DRun.readsDone (x : Desc) (r : DRun) : Bool :=
  if x.tiled then r.writesDone x || (decide ((r.segs x).length ≤ r.rd) && !r.wantsAux x && decide (x.op = 4 ∨ x.layout ≠ 5) && decide (r.tix + 1 = x.cnt1 * x.cnt2) &&
    (decide (r.phase = 1) || decide (x.op ≥ 3) || decide (r.plan ≠ [])))
  else !r.wantsAux x && decide (r.readCount x ≤ r.rd)

/-- The run at place `i` of a channel changed. -/
def State.modRun (s : State) (d n i : Nat) (f : DRun → DRun) : State :=
  s.modChan d n (fun c => { c with q := c.q.mapIdx (fun j r => if j = i then f r else r) })

/-- The urgency key of a channel (R347). -/
def State.urgency (s : State) (d n : Nat) : Nat :=
  match (s.activeTT d).streams.find? (fun e => decide (e.chan = n)) with
  | some e =>
    if s.flag (DRAY_CH_SCFG_BIND d n) ∧ (s.chan d n).streamBad = false then
      let full := tabGet (s.core d (s.rd (DRAY_CH_SCFG_CORE d n))).sem (s.rd (DRAY_CH_SCFG_PAIR d n)) 0
      if s.rd (DRAY_CH_SCFG_PERIOD d n) = 0 then e.deadline
      else min e.deadline (s.frame.cycle + (full + (s.chan d n).fill) * s.rd (DRAY_CH_SCFG_PERIOD d n))
    else s.rd FRAME_CFG_LEN * 1024
  | none => s.rd FRAME_CFG_LEN * 1024

/-- The class of a channel's requests: that of its stream (R64, R350). -/
def State.chanClass (s : State) (d n : Nat) : Nat :=
  match (s.activeTT d).streams.find? (fun e => decide (e.chan = n)) with
  | some e => e.cls
  | none => 0

/-- The header of a request of a channel to another module (R413). DST_SLOT of another team holds the position there (log entry 27). -/
def State.reqPacket (s : State) (d n team pos len rid a : Nat) : Packet :=
  { srcDie := BitVec.ofNat 3 d, dstDie := BitVec.ofNat 3 (dieOf a), cls := BitVec.ofNat 2 (s.chanClass d n),
    srcTeam := BitVec.ofNat 6 s.myTeam, srcSlot := s.fuses.slot, dstTeam := BitVec.ofNat 6 team,
    dstSlot := BitVec.ofNat 4 (if team = s.myTeam then s.team.seats.getD pos 16 else pos), tag := s.tag16, len := len,
    rid := BitVec.ofNat 16 (n * 128 + rid % 128), req := BitVec.ofNat 16 n, key := BitVec.ofNat 24 (s.urgency d n),
    addr := BitVec.ofNat 48 a }

/-- Whether the record of the head descriptor is due: it is held for its queue (R330). -/
def Chan.recordDue (c : Chan) : Bool :=
  match c.q with
  | r :: _ => r.status.isSome
  | [] => false

/-- Whether a channel may go on with its descriptors: it runs, and no record of it is held for its queue (R330). -/
def Chan.live (c : Chan) : Bool := decide (c.st = .running) && !c.recordDue

/-- Whether a channel is to pause: by an order, or because its event is held (R334, R456). -/
def Chan.pausing (c : Chan) : Bool := c.paused || c.evHeld

/-- The read whose data comes next: the oldest in flight, after the data held ahead of one that failed. -/
def DRun.due (r : DRun) : Nat := if r.gap then r.ret + 1 + r.ahead.length else r.ret

/-- The bytes of a returned read join the run, in loop order; those of the reads after one that failed wait for it (R316, R332). -/
def DRun.take (x : Desc) (r : DRun) (bs : List Byte) : DRun :=
  if r.gap then { r with ahead := r.ahead ++ [bs] }
  else
    let got := bs ++ r.ahead.flatten
    let n := r.ret + 1 + r.ahead.length
    if x.tiled then { r with tile := r.tile ++ got, ret := n, ahead := [] } else { r with hold := r.hold ++ got, ret := n, ahead := [] }

/-- The bytes of a returned read join the run; a tile that is complete leads to what follows it. -/
def State.takeData (s : State) (d n i : Nat) (bs : List Byte) : State :=
  s.modRun d n i (fun r =>
    let x := r.desc
    let r := r.take x bs
    if r.gap = false ∧ r.tileRead x then r.tileDone x else r)

/-- A read in flight within the module returns. -/
def State.landOne (s : State) (d n i : Nat) (r : DRun) : State :=
  let a := r.readAt r.desc r.due
  (s.bankServed a.1 a.2).takeData d n i (s.fetchBytes r.forFrame a.1 a.2)

/-- The reads of a run that are in flight within the module return (R332). -/
def State.landReads (s : State) (d n i fuel : Nat) : State :=
  match fuel with
  | 0 => s
  | fuel + 1 =>
    match (s.chan d n).q[i]? with
    | none => s
    | some r =>
      if r.started = false ∨ r.status.isSome ∨ r.readBack ∨ r.rd ≤ r.due ∨ s.srcFar r.desc then s
      else (s.landOne d n i r).landReads d n i fuel

/-- A failed access is to be issued again (R332, R333): a read in flight or a write issued to another module, which `flying` tells apart from one that could not be
issued; or a read-back. -/
def DRun.fails (r : DRun) (kind : Nat) (flying : Bool) : DRun :=
  if kind = 0 then { r with gap := r.gap || flying }
  else if kind = 1 then (if flying ∧ r.again = [] then { r with again := r.sent.take 1, sent := r.sent.drop 1 } else r)
  else { r with readBack := false }

/-- A channel halts on the access of run `i` that failed its third retry (R332): accesses issued before it complete, and the failing one is to be issued again. -/
def State.haltChan (s : State) (d n i kind a : Nat) (flying : Bool) : State :=
  let c := s.chan d n
  let r := (c.q[i]?).getD runNone
  let s := s.modRun d n i (fun r => r.fails kind flying)
  let s := (List.range c.q.length).foldl (fun s j => s.landReads d n j 640) s
  let s := s.modChan d n (fun c => { c with st := .halted, errAddr := a % 2 ^ 48, errKind := kind, failed := some r.seq, failIdx := if kind = 0 then r.rd else r.wr })
  s.raiseFor d (chanEv 130 d n [(2, n), (6, a % 2 ^ 48), (1, kind)]) r.owner

/-- A bus error of an access: it is retried at once, and the channel halts when the third retry fails (R332). -/
def State.busError (s : State) (d n i kind a : Nat) (flying : Bool) : State :=
  if (s.chan d n).retry < 3 then
    let s := s.modChan d n (fun c => { c with retry := c.retry + 1, errAddr := a % 2 ^ 48, errKind := kind })
    s.raise (chanEv 129 d n [(2, n), (6, a % 2 ^ 48), (1, kind)])
  else s.haltChan d n i kind a flying

/-- One try of an access that cannot be served; one to an address that no part of the map occupies raises EV_ADDR_UNMAPPED (R28; log entry 110). -/
def State.tryDead (s : State) (d n i kind a : Nat) (hole flying : Bool) : State :=
  let e := chanEv 2 d n []
  (if hole then s.unmapped d e.core e.unit e.inst a n else s).busError d n i kind a flying

/-- An access whose address no retry can serve: the first issue and its three retries fail (R317, R332). -/
def State.deadAccess (s : State) (d n i kind a : Nat) (hole flying : Bool) : State :=
  let s := s.modChan d n (fun c => { c with retry := 0 })
  (((s.tryDead d n i kind a hole flying).tryDead d n i kind a hole flying).tryDead d n i kind a hole flying).tryDead d n i kind a hole flying

/-- The banks that serve the reads of a structure at AUX, where it stands in a scratchpad (R289): a mask, or a list's header and row pointers and the entries of its rows. -/
def State.auxServed (s : State) (r : DRun) (m : AuxList) : State :=
  if r.desc.byBlocks then s.bankServed r.maskAddr 32
  else
    let rows := leAt (s.fetchBytes r.forFrame (r.desc.aux + 4) 2) 0 2 + 1
    let s := s.bankServed r.desc.aux (32 + 4 * m.rp.length)
    if m.df then s
    else (m.rp.zip (m.rp.drop 1)).foldl (fun (s : State) (p : Nat × Nat) => s.bankServed (r.desc.aux + 32 + rpSize rows + 2 * p.1) (2 * (p.2 - p.1))) s

/-- A run reads the list or the mask that it needs at AUX (R321, R323); an access to it that fails halts the channel as a read does. -/
def State.fetchAux (s : State) (d n i : Nat) : State :=
  match (s.chan d n).q[i]? with
  | none => s
  | some r =>
    if r.wantsAux r.desc = false ∨ s.repartWaits (s.runAddr r false r.desc.aux) 32 then s
    else
      match (if r.desc.byBlocks then s.auxMask d r else s.auxList d r) with
      | .ok m => (s.auxServed r m).modRun d n i (fun r => { r with aux := some m, accessed := true })
      | .error e => (s.modRun d n i (fun r => { r with accessed := true })).deadAccess d n i 0 e.1 (s.hole (s.runAddr r false e.1) e.2) false

/-- Bytes that the channel holds or has reads in flight for (R316). -/
def Chan.held (c : Chan) : Nat :=
  (c.q.map (fun r => if r.desc.tiled then 0 else r.hold.length + (r.rd - r.ret) * r.desc.sw)).foldl (· + ·) 0

/-- The request of a read of another module. -/
def State.readReq (s : State) (d n : Nat) (r : DRun) (i : Nat) : Req :=
  let a := r.readAt r.desc i
  { type := 0, p := s.reqPacket d n r.desc.srcTeam r.desc.srcMod a.2 i a.1, data := [] }

/-- Whether a channel may issue reads for a run (R330, R332, R334). -/
def Chan.reads (c : Chan) (r : DRun) : Bool := c.live && !c.pausing && r.started && r.status.isNone && !r.readBack

/-- Run `i` issues reads as far as its holding register or tile stage has room (R316). A read whose address fails halts the channel; an address of another module
outside 48 bits is such a one (R317). -/
def State.issueReads (s : State) (d n i fuel : Nat) : State :=
  match fuel with
  | 0 => s
  | fuel + 1 =>
    let c := s.chan d n
    match c.q[i]? with
    | none => s
    | some r =>
      let x := r.desc
      if c.reads r = false ∨ r.wantsAux x ∨ r.readsOf x ≤ r.rd ∨ (x.tiled = false ∧ 512 < c.held + x.sw) then s
      else
        let a := r.readAt x r.rd
        if s.srcFar x then
          let q := s.request (s.readReq d n r r.rd)
          if a.1 < 2 ^ 48 ∧ q.2 then
            let t := q.1.crossed r.owner d 0 (s.outLink x.srcTeam (s.reqPacket d n x.srcTeam x.srcMod 0 0 a.1).dstSlot.toNat d (dieOf a.1))
            (t.modRun d n i (fun r => { r with rd := r.rd + 1, accessed := true })).issueReads d n i fuel
          else s.deadAccess d n i 0 a.1 false false
        else if s.reachable d (s.runAddr r false a.1) a.2 then
          ((s.crossed r.owner d (dieOf a.1) none).modRun d n i (fun r => { r with rd := r.rd + 1, accessed := true })).issueReads d n i fuel
        else (s.modRun d n i (fun r => { r with accessed := true })).deadAccess d n i 0 a.1 (s.hole (s.runAddr r false a.1) a.2) false

/-- Run `i` reads what it needs: the structure at AUX first, and then its source. -/
def State.readOn (s : State) (d n i : Nat) : State :=
  match (s.chan d n).q[i]? with
  | none => s
  | some r => (if (s.chan d n).reads r then s.fetchAux d n i else s).issueReads d n i 640

/-- Whether a run has a write to make: its plan, or a destination width held (R316). -/
def DRun.writeReady (x : Desc) (r : DRun) : Bool :=
  if x.tiled then decide (r.plan ≠ [])
  else decide (x.dw ≤ r.hold.length) && decide (r.wi < r.writeCount x)

/-- Run `i` goes on until it has a write to make, or waits for data of another module, or ends (R315 to R323): reads in flight
return in loop order. One that a change of Depot regions holds up waits (R298). -/
def State.advance (s : State) (d n i fuel : Nat) : State :=
  match fuel with
  | 0 => s
  | fuel + 1 =>
    let s := s.readOn d n i
    let c := s.chan d n
    match c.q[i]? with
    | none => s
    | some r =>
      let x := r.desc
      if c.live = false ∨ r.started = false ∨ r.status.isSome ∨ r.readBack ∨ r.writeReady x ∨ r.writesDone x then s
      else if r.due < r.rd then
        if s.srcFar x ∨ s.repartWaits (s.runAddr r false (r.readAt x r.due).1) (r.readAt x r.due).2 then s else (s.landOne d n i r).advance d n i fuel
      else if x.tiled then
        match r.tileNext x with
        | some r' => (s.modRun d n i (fun _ => r')).advance d n i fuel
        | none => s
      else s

/-- Reads that one write can need at most, with room for the tiles of a BL store's first pass. -/
def advanceFuel (x : Desc) : Nat := 512 * (2 * x.cnt1 * x.cnt2 + 4) + 4 * x.cnt1 * x.cnt2 + 256

/-- The ranges that a run writes, by address and bytes. -/
def DRun.dstRanges (x : Desc) (r : DRun) : List (Nat × Nat) :=
  if x.op = 4 then
    (List.range x.cnt2).flatMap (fun i2 => (List.range 64).map (fun i => (addr48 ((x.dstAddr : Int) + i2 * x.d2 + i * x.d0), x.cnt1 * x.sw)))
  else if x.tiled then
    if x.layout = 5 then [(addr48 x.dstAddr, blReserve x.cnt2 x.cnt1 x.xfmt)]
    else (List.range (x.cnt1 * x.cnt2)).map (fun t =>
      (addr48 ((x.dstAddr : Int) + (t % x.cnt1 : Nat) * x.d1 + (t / x.cnt1 : Nat) * x.d2), slotSize x.layout x.xfmt))
  else (List.range (r.writeCount x)).map (fun i => (r.writeAddr x i, x.dw))

/-- The ranges that a run reads. -/
def DRun.srcRanges (x : Desc) (r : DRun) : List (Nat × Nat) :=
  if x.tiled then (List.range (64 * x.cnt1 * x.cnt2)).map (fun i => (addr48 (loopAddr x.srcAddr 64 x.cnt1 x.s0 x.s1 x.s2 i), x.sw))
  else (List.range (r.readCount x)).map (fun i => (r.readAddr x i, x.sw))

/-- The contents of a range of a run's destination become unspecified, where memory is there (R317, R328). -/
def State.forgetRange (s : State) (r : DRun) (a n : Nat) : State :=
  let p := s.runAddr r true a
  if s.accessOk p n ∧ r.late.isNone then s.forgetAt p n (n / 256 + 2) else s

/-- The destination of a transfer that ended with a STATUS other than 0 after an access is unspecified (R328). -/
def State.forgetDst (s : State) (r : DRun) : State :=
  if s.dstFar r.desc then s else (r.dstRanges r.desc).foldl (fun s a => s.forgetRange r a.1 a.2) s

/-- The bytes that a transfer both read and wrote are unspecified (R317). -/
def State.forgetOverlap (s : State) (r : DRun) : State :=
  let x := r.desc
  if s.dstFar x ∨ s.srcFar x then s
  else
    (r.dstRanges x).foldl (fun s a => (r.srcRanges x).foldl (fun s b =>
      let p := s.runAddr r true a.1
      let q := s.runAddr r false b.1
      let lo := max p q
      let hi := min (p + a.2) (q + b.2)
      if lo < hi ∧ s.accessOk lo (hi - lo) then s.forgetAt lo (hi - lo) ((hi - lo) / 256 + 2) else s) s) s

/-- The last record of a timed stream decides its deadline (R72, R348); under the training discipline a miss is only counted. -/
def State.deadline (s : State) (d n : Nat) (r : DRun) : State :=
  let c := s.chan d n
  if c.lastAcc = some r.seq ∧ c.missed = false then
    let s := s.modChan d n (fun c => { c with lastDone := true })
    match s.streamEntry d n r.desc.stream with
    | some e =>
      if e.deadline < s.frame.cycle ∧ s.flag FRAME_STATUS_IN_SLIP = false then
        let s := (s.modChan d n (fun c => { c with missed := true })).count (DRAY_CH_MISS_MISSES d n) 1
        if s.flag FRAME_CFG_DISC ∧ e.cls = 1 then
          s.raise (chanEv 8 d n [(2, e.stream), (6, s.frameSeq), (3, s.frame.cycle - e.deadline)])
        else s
      else s
    | none => s
  else s

/-- A post of one stream credit to a semaphore of the bound pair (R345): own core at once, another core as a post in transit. -/
def State.creditPost (s : State) (d n sem : Nat) : State :=
  let c := s.rd (DRAY_CH_SCFG_CORE d n)
  let s := s.modCore d c (fun x => x.issuePost sem 1)
  if n < 32 then
    { s with posts := s.posts ++ [{ src := d, dst := d, seq := c, sem := sem, count := 1, sender := senderCode d 96, tag := s.frameSeq % 65536,
                                    chan := some (chanKey d n), dropped := false }] }
  else (s.modChan d n (fun x => { x with fill := x.fill - 1 })).postArrives d c sem 1 (senderCode d c)

/-- The completion record of a run (R326). -/
def State.recordOf (s : State) (n : Nat) (r : DRun) (st code : Nat) : List Byte :=
  let x := r.desc
  leBytes 2 n ++ leBytes 1 st ++ leBytes 1 code ++ leBytes 2 x.stream ++ leBytes 2 x.tag ++ leBytes 6 s.frameSeq ++ leBytes 2 0 ++
    leBytes 3 s.frame.cycle ++ leBytes 1 x.op ++ leBytes 4 r.seq ++ leBytes 6 r.bytes ++ leBytes 2 0

/-- Whether a completion queue takes a record (R330). -/
def State.cqTakes (s : State) (d q : Nat) : Bool :=
  s.flag (DRAY_CQ_CTL_EN d q) &&
    decide ((s.rd (DRAY_CQ_PTR_TAIL d q) + 2 ^ 17 - s.rd (DRAY_CQ_PTR_HEAD d q)) % 2 ^ 17 < 2 ^ s.rd (DRAY_CQ_CTL_LOG2 d q))

/-- The post list of a dispatched instruction applies at its core (R108). -/
def State.postList (s : State) (d q : Nat) (post : Word) : State := (usedSlots post).foldl (fun s x => s.postOwn d q x.1 x.2) s

/-- A record is written into its queue: counters, credits, deadline and posts follow, and the channel goes on (R108, R326 to R329,
R340, R345). -/
def State.putRecord (s : State) (d n : Nat) (r : DRun) (st code : Nat) : State :=
  let x := r.desc
  let q := x.cq
  let a := s.rd (DRAY_CQ_BASE_BASE d q) + 32 * (s.rd (DRAY_CQ_PTR_TAIL d q) % 2 ^ s.rd (DRAY_CQ_CTL_LOG2 d q))
  let bs := s.recordOf n r st code
  let s := if s.accessOk a 32 then s.setBytes a bs else s.unmapped d (chanEv 2 d n []).core (chanEv 2 d n []).unit (chanEv 2 d n []).inst a n
  let s := s.wr (DRAY_CQ_PTR_TAIL d q) (s.rd (DRAY_CQ_PTR_TAIL d q) + 1)
  let s := (s.accum (DRAY_CQ_QW_QW d q) 1).accum (DRAY_CH_CMP_CNT_CMP d n) 1
  let s := if st = 0 then s.accum (DRAY_CH_OK_CNT_OK d n) 1 else if st = 1 then s.accum (DRAY_CH_ERR_CNT_ERR d n) 1
    else s.accum (DRAY_CH_CAN_CNT_CAN d n) 1
  let s := if st = 0 then s.forgetOverlap r else if r.accessed then s.forgetDst r else s
  let s := s.modChan d n (fun c =>
    let q := c.q.drop 1
    { c with q := q, code := if st = 0 then c.code else code,
             st := if q = [] ∧ c.st = .running then .idle else c.st })
  let s := s.deadline d n r
  let s := if r.credit then s.creditPost d n (s.rd (DRAY_CH_SCFG_PAIR d n) + if st = 0 then 0 else 1) else s
  let s := if r.stage then s.modDie d (fun y => { y with stages := y.stages.erase n }) else s
  s.postList d r.by_ r.post

/-- The records that are due are written in acceptance order, or held while the queue is full or disabled (R330). -/
def State.flush (s : State) (d n fuel : Nat) : State :=
  match fuel with
  | 0 => s
  | fuel + 1 =>
    match (s.chan d n).q with
    | [] => s
    | r :: _ =>
      match r.status with
      | none => s
      | some (st, code) =>
        if s.cqTakes d r.desc.cq then (s.putRecord d n r st code).flush d n fuel
        else if (s.die d).cqHolding.contains r.desc.cq then s
        else
          (s.modDie d (fun y => { y with cqHolding := insertAsc r.desc.cq y.cqHolding })).raise (mkEv 131 d 0xFF 21 r.desc.cq [(1, r.desc.cq)])

/-- The records that are due of a channel. -/
def State.flushAll (s : State) (d n : Nat) : State := s.flush d n (s.chan d n).q.length

/-- Read-backs outstanding on a channel. -/
def Chan.readBacks (c : Chan) : Nat := (c.q.filter (fun r => r.readBack && r.status.isNone)).length

/-- The next write of a run, by address and bytes. -/
def DRun.nextWrite (x : Desc) (r : DRun) : Nat × List Byte := if x.tiled then r.plan.headD (0, []) else (r.writeAddr x r.wi, r.hold.take x.dw)

/-- The request of a write of a run to another module. -/
def State.writeReq (s : State) (d n : Nat) (r : DRun) (i : Nat) (w : Nat × List Byte) : Req :=
  { type := 2, p := s.reqPacket d n r.desc.dstTeam r.desc.dstMod w.2.length i w.1, data := w.2 }

/-- The request of the read-back of a run at another module. -/
def State.backReq (s : State) (d n : Nat) (r : DRun) : Req :=
  { type := 0, p := s.reqPacket d n r.desc.dstTeam r.desc.dstMod 4 r.rd r.lastAddr, data := [] }

/-- The tile stage of a run is free once its last write is made (R318). -/
def State.freeStage (s : State) (d n i : Nat) : State :=
  match (s.chan d n).q[i]? with
  | none => s
  | some r =>
    if r.stage ∧ r.writesDone r.desc then (s.modRun d n i (fun r => { r with stage := false })).modDie d (fun y => { y with stages := y.stages.erase n }) else s

/-- A run whose writes have all been accepted issues its read-back, unless the channel is pausing or four are outstanding (R310, R325,
R334). A run that wrote nothing is complete. -/
def State.tryReadBack (s : State) (d n i : Nat) : State :=
  let c := s.chan d n
  match c.q[i]? with
  | none => s
  | some r =>
    if c.reads r = false ∨ r.writesDone r.desc = false ∨ 4 ≤ c.readBacks then s
    else if r.wr = 0 then (s.modRun d n i (fun r => { r with status := some (0, 0) })).flushAll d n
    else
      let s := s.modRun d n i (fun r => { r with readBack := true })
      if s.dstFar r.desc then (s.request (s.backReq d n r)).1 else s

/-- The run after its next write has been issued. -/
def DRun.issued (r : DRun) (x : Desc) (w : Nat × List Byte) : DRun :=
  let r := { r with wi := r.wi + 1, sent := r.sent ++ [w], lastAddr := w.1 + w.2.length - 4, accessed := true }
  if x.tiled then
    let r := { r with plan := r.plan.drop 1 }
    if r.plan = [] then r.planDone x else r
  else { r with hold := r.hold.drop x.dw }

/-- The run after the oldest of its writes that are issued has been accepted. -/
def DRun.accepted (r : DRun) : DRun := { r with sent := r.sent.drop 1, wr := r.wr + 1, bytes := r.bytes + (r.sent.headD (0, [])).2.length }

/-- Run `i` issues its writes to another module as far as it holds the bytes of them (R316); a pausing channel lets its reads in flight come in for them
(R334). -/
def State.issueWrites (s : State) (d n i fuel : Nat) : State :=
  match fuel with
  | 0 => s
  | fuel + 1 =>
    let c := s.chan d n
    match c.q[i]? with
    | none => s
    | some r =>
      let x := r.desc
      if s.dstFar x = false ∨ c.live = false ∨ r.status.isSome ∨ r.writeReady x = false then s
      else
        let w := r.nextWrite x
        let q := s.request (s.writeReq d n r r.wi w)
        if w.1 < 2 ^ 48 ∧ q.2 then
          let t := q.1.crossed r.owner d 0 (s.outLink x.dstTeam (s.reqPacket d n x.dstTeam x.dstMod 0 0 w.1).dstSlot.toNat d (dieOf w.1))
          let t := t.modRun d n i (fun r => r.issued x w)
          (if c.pausing then t.advance d n i (advanceFuel x) else t).issueWrites d n i fuel
        else s.deadAccess d n i 1 w.1 false false

/-- Run `i` goes on as far as it can by itself: reads are issued, writes to another module are issued, and the read-back when all is written. -/
def State.pump (s : State) (d n i : Nat) : State :=
  match (s.chan d n).q[i]? with
  | none => s
  | some r =>
    let s := if s.dstFar r.desc then (s.advance d n i (advanceFuel r.desc)).issueWrites d n i (advanceFuel r.desc) else s.readOn d n i
    s.tryReadBack d n i

/-- A pausing channel comes to its exact state: reads in flight have returned, fewer than dw bytes are held, and read-backs have
completed (R334). -/
def State.settlePause (s : State) (d n : Nat) : State :=
  let c := s.chan d n
  if c.pausing = false ∨ c.st = .halted ∨ c.st = .paused then s
  else
    let s := (List.range c.q.length).foldl (fun s i =>
      match (s.chan d n).q[i]? with
      | some r => if s.srcFar r.desc then s else s.advance d n i (advanceFuel r.desc)
      | none => s) s
    let busy := (s.chan d n).q.any (fun r =>
      r.started && r.status.isNone && (decide (r.due < r.rd) || decide (r.sent ≠ []) || r.readBack || r.writeReady r.desc))
    if busy then s else s.modChan d n (fun c => { c with st := if c.st = .halted then .halted else .paused })

/-- Every started run of a channel goes on, and a pausing channel comes to rest where it can. -/
def State.pumpAll (s : State) (d n : Nat) : State :=
  ((List.range (s.chan d n).q.length).foldl (fun s i => s.pump d n i) s).settlePause d n

/-- A descriptor is accepted (R310, R340): it joins the channel's queue. One of the stream with LAST set may be the one that decides its deadline (R348). -/
def State.accept (s : State) (d n q : Nat) (item : Option Nat) (raw : List Word) (post : Word) (late : Option Nat) : State :=
  let acc := s.rd (DRAY_CH_ACC_CNT_ACC d n)
  let frame := match item with
    | some k => (s.item k).frame
    | none => s.frameSeq
  let r : DRun := { runNone with raw := raw, seq := acc % 2 ^ 32, owner := item, by_ := q, post := post, frame := frame, late := late }
  let x := r.desc
  let bound := (s.streamEntry d n x.stream).isSome
  let s := s.accum (DRAY_CH_ACC_CNT_ACC d n) 1
  s.modChan d n (fun c =>
    { c with q := c.q ++ [r], st := if c.st = .idle then .running else c.st,
             lastAcc := if x.last ∧ bound ∧ c.lastAcc = none then some r.seq else c.lastAcc })

/-- QD_ch of a channel (R309). -/
def chanDepth (n : Nat) : Nat := if n < 32 then 16 else 8

/-- Whether a channel can accept a descriptor (R309, R330). -/
def State.chanRoom (s : State) (d n : Nat) : Bool :=
  decide ((s.chan d n).q.length < chanDepth n) && !(s.chan d n).recordDue

/-- The first descriptor of a channel that has not started, if the one before it has issued its last read (R310). -/
def State.nextRun (s : State) (d n : Nat) : Option Nat :=
  let c := s.chan d n
  let i := firstIdx c.q (fun r => !r.started) 0
  if c.q.length ≤ i ∨ c.live = false ∨ c.pausing ∨ c.waitCredit ∨ c.waitStage then none
  else if i = 0 then some 0
  else
    match c.q[i - 1]? with
    | some r => if r.status.isSome ∨ r.readsDone r.desc then some i else none
    | none => none

/-- A run takes a tile stage and starts its reads (R318). -/
def State.takeStage (s : State) (d n i : Nat) : State :=
  ((s.modDie d (fun y => { y with stages := y.stages ++ [n] })).modRun d n i (fun r => { r with stage := true, started := true })).pump d n i

/-- A run that holds what it needs starts its reads, or waits for a tile stage (R318). -/
def State.startRun (s : State) (d n i : Nat) : State :=
  match (s.chan d n).q[i]? with
  | none => s
  | some r =>
    if r.desc.tiled ∧ r.stage = false then
      if (s.die d).stages.length < 16 ∧ (s.die d).stageWait = [] then s.takeStage d n i
      else (s.modChan d n (fun c => { c with waitStage := true })).modDie d (fun y => { y with stageWait := insertAsc n y.stageWait })
    else (s.modRun d n i (fun r => { r with started := true })).pump d n i

/-- The most urgent channel of those that wait for a tile stage (R318, R347): the lower number on a tie. -/
def State.mostUrgent (s : State) (d : Nat) (ns : List Nat) : Option Nat :=
  match ns with
  | [] => none
  | n :: r =>
    match s.mostUrgent d r with
    | some m => if s.urgency d n ≤ s.urgency d m then some n else some m
    | none => some n

/-- A freed tile stage goes to a waiting channel: the most urgent one, which `n` must name (R318). -/
def execTileStageGrant (d n : Nat) (s : State) : Ans :=
  if (s.die d).stages.length < 16 ∧ s.mostUrgent d (s.die d).stageWait = some n ∧ s.dieUp d ∧ s.chanWaits d n = false then
    let s := (s.modChan d n (fun c => { c with waitStage := false })).modDie d (fun y => { y with stageWait := y.stageWait.filter (fun k => decide (k ≠ n)) })
    .next (s.takeStage d n (firstIdx (s.chan d n).q (fun r => !r.started) 0))
  else .next s

/-- The first run of a channel that has a write to make or to have accepted. -/
def State.writer (s : State) (d n : Nat) : Option Nat :=
  let c := s.chan d n
  let i := firstIdx c.q (fun r => r.started && r.status.isNone && !r.readBack && !r.writesDone r.desc) 0
  if i < c.q.length then some i else none

/-- Requests of a channel of a TYPE that await their answer on a link, or wait for it. -/
def State.requestsOut (s : State) (d n type : Nat) : Nat :=
  ((s.allLinks.map (fun k => (((s.link k.1 k.2).reqs ++ (s.link k.1 k.2).held).filter (fun r =>
    decide (r.type = type) && decide (r.p.req.toNat = n) && decide (r.p.srcDie.toNat = d))).length))).sum

/-- Whether a write to another module of a cancelled descriptor has still to land (R335). -/
def State.lateWrites (s : State) (d n : Nat) : Bool := decide (((s.chan d n).q.map (fun r => r.sent.length)).sum < s.requestsOut d n 2)

/-- The reads of a run from another module that are in flight, its read-back among them. -/
def State.farReads (s : State) (r : DRun) : Nat := (if s.srcFar r.desc then r.rd - r.due else 0) + (if r.readBack ∧ s.dstFar r.desc then 1 else 0)

/-- Whether data for a cancelled descriptor is still to come from another module (R335). -/
def State.lateReads (s : State) (d n : Nat) : Bool := decide (((s.chan d n).q.map s.farReads).sum < s.requestsOut d n 0)

/-- A write of a channel is accepted at its home (R316, R325, R413): the next one of the first descriptor that has one, in loop order; one of a cancelled
descriptor lands first (R335). -/
def writeLands (d n : Nat) (s : State) : Ans :=
  if s.dieUp d = false ∨ s.chanWaits d n then .next s
  else
    let i := (s.writer d n).getD 0
    match s.writer d n, (s.chan d n).q[i]? with
    | some _, some r =>
      let x := r.desc
      if s.dstFar x then
        if s.lateWrites d n then .next (s.answered d n 2)
        else if r.sent ≠ [] then
          .next ((((s.answered d n 2).modRun d n i (fun r => r.accepted)).modChan d n (fun c => { c with retry := 0 })).freeStage d n i |> fun s => s.pumpAll d n)
        else .next s
      else if (s.chan d n).live = false then .next s
      else
        let s := s.advance d n i (advanceFuel x)
        match (s.chan d n).q[i]? with
        | none => .next s
        | some r =>
          if r.writeReady x = false ∨ (s.chan d n).live = false then .next s
          else
            let w := r.nextWrite x
            let p := s.runAddr r true w.1
            if s.repartWaits p w.2.length then .next s
            else if s.reachable d p w.2.length then
              let s := ((s.bankServed p w.2.length).drayStore d r.forFrame r.late w.1 w.2).crossed r.owner d (dieOf w.1) none
              let s := s.modRun d n i (fun r => (r.issued x w).accepted)
              .next (((s.modChan d n (fun c => { c with retry := 0 })).freeStage d n i).pumpAll d n)
            else .next ((s.modRun d n i (fun r => { r with accessed := true })).deadAccess d n i 1 w.1 (s.hole p w.2.length) false)
    | _, _ => .next (if s.lateWrites d n then s.answered d n 2 else s)

/-- A packet of a TYPE that answers another module's request comes over link `l` of die `d` and goes on (R413, R429); a link that is not UP brings none. -/
def State.inTransit (s : State) (d l type : Nat) (p : Packet) (data : List Byte) : State :=
  if s.dieUp d ∧ s.linkUp d l then s.passBack d l type p data else s

/-- WRITE_ACCEPT: for a channel of this module, or by a packet over link `l` for another module, which goes on. -/
def execWriteAccept (d : Nat) (c : AnswerTo) (s : State) : Ans :=
  match c.via with
  | some (l, p) => if s.forHere p then writeLands d c.chan s else .next (s.inTransit d l 3 p [])
  | none => writeLands d c.chan s

/-- A read response returns data to its channel, in loop order (R413); that for a cancelled descriptor is dropped (R335). -/
def dataReturns (d n : Nat) (data : List Byte) (s : State) : Ans :=
  let c := s.chan d n
  let i := firstIdx c.q (fun r => r.started && r.status.isNone && s.srcFar r.desc && decide (r.due < r.rd)) 0
  if s.dieUp d = false ∨ s.chanWaits d n then .next s
  else if s.lateReads d n then .next (s.answered d n 0)
  else
    match c.q[i]? with
    | none => .next s
    | some r =>
      if data.length ≠ (r.readAt r.desc r.due).2 then .next s
      else
        let s := (s.answered d n 0).modChan d n (fun c => if c.st = .halted then c else { c with retry := 0 })
        .next ((s.takeData d n i data).pumpAll d n)

/-- READ_RESPONSE: for a channel of this module, or by a packet over link `l` for another module, which goes on. -/
def execReadResponse (d : Nat) (c : AnswerTo) (data : List Byte) (s : State) : Ans :=
  match c.via with
  | some (l, p) => if s.forHere p then dataReturns d c.chan data s else .next (s.inTransit d l 1 p data)
  | none => dataReturns d c.chan data s

/-- An access to another module has failed: its answer has come, and it is issued again unless the channel halts (R332). -/
def State.farFails (s : State) (d n i kind : Nat) (q : Req) : State :=
  let s := (s.answered d n q.type).busError d n i kind q.p.addr.toNat true
  if (s.chan d n).st = .running then
    let t := s.request q
    if t.2 then t.1 else s.deadAccess d n i kind q.p.addr.toNat false true
  else s

/-- A Dray read that fails at a scratchpad has met a parity error there (R287). -/
def State.spadParity (s : State) (a : Nat) : State :=
  match coreSpaceOf a with
  | some (c, o) => if o < 0xC0000 then s.count (SPAD_STAT_PARITY (dieOf a) c) 1 else s
  | none => s

/-- A bus error on an access of a channel: 0 a read in flight, 1 the next write, 2 the oldest read-back, or a mirror write that it waits for (R332, R465). -/
def execDrayAccessError (d n kind : Nat) (s : State) : Ans :=
  let c := s.chan d n
  if s.chanExists d n = false ∨ s.dieUp d = false ∨ c.st ≠ .running ∨ s.chanWaits d n then .next s
  else if kind = 0 then
    let i := firstIdx c.q (fun r => r.started && r.status.isNone && !r.readBack && decide (r.due < r.rd)) 0
    match c.q[i]? with
    | some r =>
      let a := (r.readAt r.desc r.due).1
      .next (if s.srcFar r.desc then s.farFails d n i 0 (s.readReq d n r r.due) else (s.spadParity (s.runAddr r false a)).busError d n i 0 a true)
    | none => .next s
  else if kind = 1 then
    match s.writer d n with
    | some i =>
      match c.q[i]? with
      | some r =>
        if s.dstFar r.desc = false then .next (s.busError d n i 1 (r.nextWrite r.desc).1 false)
        else match r.sent with
          | w :: _ => .next (s.farFails d n i 1 (s.writeReq d n r r.wr w))
          | [] => .next s
      | none => .next s
    | none => .next s
  else if kind = 2 then
    match c.q with
    | r :: _ =>
      if r.readBack ∧ r.status.isNone then .next (if s.dstFar r.desc then s.farFails d n 0 2 (s.backReq d n r) else s.busError d n 0 2 r.lastAddr true)
      else .next s
    | [] => .next s
  else .next s

/-- The read-back of the head descriptor returns, and its record is due (R325); one of a cancelled descriptor is dropped (R335). -/
def execReadBack (d n : Nat) (s : State) : Ans :=
  if s.dieUp d = false ∨ s.chanWaits d n then .next s
  else
    match (s.chan d n).q with
    | r :: _ =>
      if r.readBack = false ∨ r.status.isSome then .next s
      else
        let s := if s.dstFar r.desc then s.answered d n 0 else s
        let s := (s.modRun d n 0 (fun r => { r with status := some (0, 0) })).modChan d n (fun c => { c with retry := 0 })
        .next ((s.flushAll d n).pumpAll d n)
    | [] => .next s

/-- The channels of a die, ascending. -/
def State.channels (s : State) (d : Nat) : List Nat :=
  (s.chans.filter (fun e => decide (e.1 / 512 = d))).map (fun e => e.1 % 512)

/-- Whether a channel holds a record for a queue. -/
def State.holdsFor (s : State) (d q n : Nat) : Bool :=
  match (s.chan d n).q with
  | r :: _ => r.status.isSome && decide (r.desc.cq = q)
  | [] => false

/-- The records held for a queue are written in ascending channel number, once it takes them, and the channels go on; the queue holds records until none is
left (R330). -/
def State.releaseCq (s : State) (d q : Nat) : State :=
  if s.cqTakes d q ∧ (s.die d).cqHolding.contains q then
    let s := (s.channels d).foldl (fun s n => s.flushAll d n) s
    let s := if (s.channels d).any (s.holdsFor d q) then s
      else s.modDie d (fun y => { y with cqHolding := y.cqHolding.filter (fun k => decide (k ≠ q)) })
    (s.channels d).foldl (fun s n => s.pumpAll d n) s
  else s

/-- A descriptor that a cancel ends (R333, R335): the halted one as ERROR with CODE 1. Its writes to another module that are issued land. -/
def DRun.cancelled (r : DRun) (halted : Bool) : DRun :=
  if r.status.isSome then r
  else
    { r with bytes := r.bytes + (r.sent.map (fun w => w.2.length)).sum, sent := [], again := [], gap := false, ahead := [], hold := [], tile := [], plan := [],
             readBack := false, stage := false, status := some (if halted then (1, 1) else (2, if r.accessed then 4 else 0)) }

/-- Requests that a cancelled channel has still waiting for a link: its writes go out, its reads do not. -/
def dropHeld (d n : Nat) (rs : List Req) : List Req :=
  rs.filter (fun r => !(decide (r.type = 0) && decide (r.p.req.toNat = n) && decide (r.p.srcDie.toNat = d)))

/-- A cancel of a channel takes effect (R335 to R337): every descriptor of it ends, and its holding register and tile stages are empty. -/
def State.cancelChan (s : State) (d n : Nat) : State :=
  let s := s.modChan d n (fun c =>
    { c with q := c.q.map (fun r => r.cancelled (c.st = .halted && decide (c.failed = some r.seq))), st := if c.q = [] then .idle else .running, paused := false,
             retry := 0, failed := none, waitCredit := false, waitStage := false })
  let s := s.modDie d (fun y => { y with stages := y.stages.filter (fun k => decide (k ≠ n)), stageWait := y.stageWait.filter (fun k => decide (k ≠ n)) })
  let s := s.allLinks.foldl (fun s k => s.modLink k.1 k.2 (fun x => { x with held := dropHeld d n x.held })) s
  (s.flushAll d n).settlePause d n

/-- The access that halted the channel is issued again, if it was one in flight or issued (R333). -/
def State.reissue (s : State) (d n i : Nat) : State :=
  match (s.chan d n).q[i]? with
  | none => s
  | some r =>
    let x := r.desc
    if r.gap then
      let a := r.readAt x r.ret
      let q := if s.srcFar x then s.request (s.readReq d n r r.ret) else (s, s.reachable d (s.runAddr r false a.1) a.2)
      if q.2 then q.1.modRun d n i (fun r => { r with gap := false })
      else s.deadAccess d n i 0 a.1 (!s.srcFar x && s.hole (s.runAddr r false a.1) a.2) true
    else
      match r.again with
      | [] => s
      | w :: ws =>
        if (s.request (s.writeReq d n r r.wr w)).2 then
          ((w :: ws).foldl (fun s w => (s.request (s.writeReq d n r r.wr w)).1) s).modRun d n i (fun r => { r with sent := r.again ++ r.sent, again := [] })
        else s.deadAccess d n i 1 w.1 false true

/-- A resume of a channel takes effect (R333, R334). -/
def State.resumeChan (s : State) (d n : Nat) : State :=
  let s := s.modChan d n (fun c => { c with st := if c.q = [] then .idle else .running, paused := false, retry := 0, failed := none })
  ((List.range (s.chan d n).q.length).foldl (fun s i => s.reissue d n i) s).pumpAll d n

/-- A pause of a channel is ordered: no new reads are issued (R334). A halted channel stays halted (R336). -/
def State.pauseChan (s : State) (d n : Nat) : State :=
  (s.modChan d n (fun c => if c.st = .halted then c else { c with paused := true })).settlePause d n

/-- The channel STATUS word, as DRAY.STAT returns it (R338). -/
def State.chanStatus (s : State) (d n : Nat) : Word :=
  let c := s.chan d n
  let st := match c.st with
    | .idle => 0
    | .running => 1
    | .paused => 2
    | .halted => 3
  let hold := (c.q.map (fun r => r.hold.length + if r.desc.tiled then 0 else r.ahead.flatten.length)).foldl (· + ·) 0
  let seq := match c.q with
    | r :: _ => r.seq
    | [] => 0
  BitVec.ofNat 64 (st + c.q.length % 32 * 16 + hold % 1024 * 2 ^ 10 + c.retry % 4 * 2 ^ 20 + c.code % 256 * 2 ^ 24 + seq % 2 ^ 32 * 2 ^ 32)

end Sys2Proof.Machine
end

