-- ==== Sys2Proof/Machine/Arbiter.lean ====
section
/-! DEFINITION. The arbiters in front of the LPDDR6 controller groups (R349 to R355): what each decides and grants in a cycle. -/

namespace Sys2Proof.Machine

/-- The controller group that serves an LPDDR6 address (R349). -/
def groupOfAddr (a : Nat) : Nat := chanOfAddr a / 4

/-- The requests of a die that wait at the arbiter of group `g`. -/
def Die.waitingAt (x : Die) (g : Nat) : List MemReq :=
  x.reqs.filter (fun m => !m.granted && decide (m.addr < 0x010000000000) && decide (groupOfAddr m.addr = g))

/-- Whether the sideband masks a requester: the core of a channel is fenced, the die beyond a port does not serve, or a link is disabled (R353; log entry
114). -/
def State.sideband (s : State) (d req : Nat) : Bool :=
  if req < 32 then false
  else if req < 416 then (s.core d ((req - 32) / 4)).fenced
  else if req < 419 then !s.dieUp (d ^^^ 2 ^ (req - 416))
  else if req < 426 then
    (s.linkOfPort (if req < 422 then req - 419 else req - 418) 0).any (fun k => !s.flag (LINK_CFG_ENABLE k.1 k.2))
  else false

/-- Whether requester `x` with its request comes before another: by key, then by the lower index (R350). -/
def before (x y : MemReq) : Bool := decide (x.key < y.key) || (decide (x.key = y.key) && decide (x.req < y.req))

/-- The first of a list of requests in the order of R350. -/
def firstReq (ms : List MemReq) : Option MemReq :=
  ms.foldl (fun b m => match b with
    | none => some m
    | some x => if before m x then some m else some x) none

/-- The requester that a decision chooses (R350): high-priority ones first unless the quota masks them, when they stand among the others (R352). Of each requester its oldest request counts. -/
def chooseReq (ms : List MemReq) (masked : Bool) : Option MemReq :=
  let heads := ms.filter (fun m => (ms.find? (fun x => decide (x.req = m.req))) == some m)
  let hs := heads.filter (fun m => m.high)
  if masked then firstReq heads
  else match firstReq hs with
    | some m => some m
    | none => firstReq heads

/-- The first request of a list that requester `req` has waiting, granted: a write that needs no line is then placed and gives its tag back (R307). -/
def grantReq (req g : Nat) (ms : List MemReq) : List MemReq :=
  match ms with
  | [] => []
  | m :: r =>
    if m.req = req ∧ m.granted = false ∧ m.addr < 0x010000000000 ∧ groupOfAddr m.addr = g then (if m.fill then ({ m with granted := true } : MemReq) :: r else r)
    else m :: grantReq req g r

/-- The window that a cycle lies in (R352). -/
def State.arbWindow (s : State) (d : Nat) (cycle : Int) : Int := cycle / (s.rd (ARB_CFG_WINDOW d) : Int)

/-- One cycle of the arbiter of group `g` (R350 to R352): the decision of the cycle before is issued, a grant that finds no request being lost and counted in
STALE; and one is made from what waited at the end of the cycle before, for a grant in the next cycle. -/
def State.arbCycle (s : State) (d g : Nat) (cycle : Int) : State :=
  let x := s.die d
  let a := tabGet x.arbs g arbReset
  let seen := (x.waitingAt g).filter (fun m => decide (m.arrived < cycle))
  let w := s.arbWindow d (cycle + 1)
  let n := if a.window = w then a.count else 0
  let masked := decide (s.rd (ARB_CFG_QUOTA d) ≤ n)
  let next := chooseReq (seen.filter (fun m => !s.sideband d m.req)) masked
  let s := match a.decided with
    | none => s
    | some (r, _) =>
      if (x.waitingAt g).any (fun m => decide (m.req = r)) && !s.sideband d r then s.modDie d (fun x => { x with reqs := grantReq r g x.reqs })
      else s.count (ARB_STAT_STALE d g) 1
  let s := if next.isSome ∧ masked then s.count (ARB_STAT_QMASK d g) 1 else s
  let a : Arb := { decided := next.map (fun m => (m.req, m.high)), window := w, count := n + (if next.any (fun m => m.high) then 1 else 0) }
  s.modDie d (fun x => { x with arbs := tabSet x.arbs g a })

/-- Whether the arbiter of a group has nothing to do: no decision to issue and no request that waits unmasked. -/
def State.arbIdle (s : State) (d g : Nat) : Bool :=
  (tabGet (s.die d).arbs g arbReset).decided.isNone && ((s.die d).waitingAt g).all (fun m => s.sideband d m.req)

/-- Up to `n` cycles of the arbiter of a group after `cycle`, as long as it has work. -/
def State.arbRun (s : State) (d g : Nat) (cycle : Int) (n : Nat) : State :=
  match n with
  | 0 => s
  | n + 1 => if s.arbIdle d g then s else (s.arbCycle d g (cycle + 1)).arbRun d g (cycle + 1) n

/-- `n` cycles of the arbiters of a die after `cycle`: each request takes two of them at most. -/
def State.arbiters (s : State) (d : Nat) (cycle : Int) (n : Nat) : State :=
  (List.range 4).foldl (fun s g => s.arbRun d g cycle (min n (2 * (s.die d).reqs.length + 2))) s

/-- How many cycles pass until a request of requester `req` at an address is granted, if `n` are enough. -/
def State.grantAfter (s : State) (d g : Nat) (p : MemReq → Bool) (cycle : Int) (n k : Nat) : Option Nat :=
  if (s.die d).reqs.any (fun m => p m && m.granted) then some k
  else match n with
    | 0 => none
    | n + 1 => if s.arbIdle d g then none else (s.arbCycle d g (cycle + 1)).grantAfter d g p (cycle + 1) n (k + 1)

end Sys2Proof.Machine
end

