-- ==== Sys2Proof/Machine/Clock.lean ====
section
/-! DEFINITION. The passing of cycles: the frame's cycle count, team time (R435), the arbiters (R349), and the counters of cycles in which something waited
(R308, R342, R504). -/

namespace Sys2Proof.Machine

/-- The cycles of waiting that `n` cycles add on a die: an event record for the FIFO, a request for a memory tag, a completion record for
its queue. -/
def State.waited (s : State) (d n : Nat) : State :=
  let s := if (s.die d).fifoWait = [] then s else s.count (EVQ_STATUS_FULL_CYC d) n
  let s := if (s.die d).tagWait.any (fun m => !(s.die d).tagFree m.remote) then s.count (MEM_TAGS_FULL d) n else s
  (s.channels d).foldl (fun s c => if (s.chan d c).recordDue then s.count (DRAY_CH_MISS_QSTALL d c) n else s) s

/-- `n` cycles pass. -/
def State.cycles (s : State) (n : Nat) : State :=
  if n = 0 then s
  else
    let t := s.frame.cycle
    let s := { s with frame := { s.frame with cycle := s.frame.cycle + n, teamTime := s.frame.teamTime + BitVec.ofNat 64 n } }
    s.dieList.foldl (fun s d => (s.waited d n).arbiters d t n) s

/-- Cycles pass until a cycle of the frame, if it has not come yet. -/
def State.passTo (s : State) (cycle : Nat) : State := s.cycles (cycle - s.frame.cycle)

end Sys2Proof.Machine
end

