-- ==== Sys2Proof/Machine/Harness.lean ====
section
/-! DEFINITION. The Harness: HAND (R224 to R235), HMERGE (R236 to R240) and HCHECK (R220). -/

namespace Sys2Proof.Machine

/-- A gather rate as a fraction (R233). -/
def layoutRate (layout : Nat) : Nat × Nat :=
  if layout = 3 then (3, 4) else if layout = 4 then (17, 20) else if layout = 6 then (1, 2) else (1, 1)

/-- The smaller of two rates. -/
def minRate (a b : Nat × Nat) : Nat × Nat := if a.1 * b.2 ≤ b.1 * a.2 then a else b

/-- The gather rate of an operand: 1 where all its tiles have DF 1 (R233). -/
def State.gatherRate (s : State) (d c : Nat) (t : Tile) : Nat × Nat :=
  if isComp t.f.layout = false ∨ s.allDense d c t then (1, 1) else layoutRate t.f.layout

/-- The strip size G (R226). -/
def stripSize (la lb p le : Nat) : Nat :=
  let g (l : Nat) : Nat := if l = 3 then 8 else if l = 4 then 16 else if l = 5 then 64 else if l = 6 then p else 0
  max (max (g la) (g lb)) le

/-- What HAND computes from: strips of `g` positions, `ns` of them, and the kept ones of each row-block pair and column block
(R226, R227). -/
structure Strips where
  g : Nat
  ns : Nat
  kept : List (List (List Nat))
  deriving DecidableEq, Repr

/-- The kept strips of pair `q` and column block `j`. -/
def Strips.at (x : Strips) (q j : Nat) : List Nat := (x.kept.getD q []).getD j []

/-- The walk of R227: `pairs` row-block pairs and TDB.COLS column blocks. -/
def State.walk (s : State) (d c : Nat) (ta tb : Tile) (g kv : Nat) : Strips :=
  let ns := ceilDiv kv g
  let zs := decide (ta.f.layout = 6)
  let ap (m k : Nat) : Bool := decide (m < ta.f.rows) && s.presentIn d c ta (64 * m) (if zs then ta.f.mValid - 64 * m else 64) (k * g) g
  let as := (List.range ((ta.f.rows + 1) / 2)).map (fun q => (List.range ns).map (fun k => ap (2 * q) k || ap (2 * q + 1) k))
  let bs := (List.range tb.f.cols).map (fun j => (List.range ns).map (fun k => s.presentIn d c tb (k * g) g (64 * j) 64))
  { g := g, ns := ns, kept := as.map (fun a => bs.map (fun b => (List.range ns).filter (fun k => a.getD k false && b.getD k false))) }

/-- The same walk with every strip kept: the fully present case (R219). -/
def Strips.full (x : Strips) : Strips := { x with kept := x.kept.map (fun r => r.map (fun _ => List.range x.ns)) }

/-- The passes of the compacted fold, and the output blocks that run none (R228, R230). -/
def Strips.passes (x : Strips) (a b p : Nat) : List Pass × Nat :=
  let blocks := (List.range b).flatMap (fun j => (List.range ((a + 1) / 2)).map (fun q =>
    let n := if 2 * q + 1 < a then 2 else 1
    let ks := x.at q j
    let sl := pieces (64 * p / x.g) ks
    if ks.isEmpty then (([] : List Pass), n)
    else ((sl.mapIdx (fun i strips =>
      List.replicate n ({ key := j :: i :: (if sl.length = 1 then 0 else 1) :: strips, first := decide (i = 0),
                          last := decide (i + 1 = sl.length) } : Pass))).flatten, 0)))
  (blocks.flatMap (fun y => y.1), (blocks.map (fun y => y.2)).foldl (· + ·) 0)

/-- The cycle count of HAND on an array (R233). `mov`, `stat`, `outB` and `partB` are the bytes of R152. -/
def Strips.arrayCycles (x : Strips) (a b p kv mov stat outB partB : Nat) (rate : Nat × Nat) : Nat :=
  let r := x.passes a b p
  match r.1 with
  | [] => 24 + 64 * r.2 + 8
  | q :: _ =>
    let cs := (passCycles mov stat outB partB none 0 r.1).map (fun n => ceilDiv (n * rate.2) rate.1)
    let ks := (q.key.drop 3).foldl (fun n k => n + (min kv (k * x.g + x.g) - k * x.g)) 0
    24 + foldCycles (loadCycles ks p) cs + 64 * r.2

/-- The cycle count of HAND on the matrix-vector path (R233): each column block holds 64 / W column groups. -/
def Strips.mvpCycles (x : Strips) (b w mv : Nat) (rate : Nat × Nat) : Nat :=
  48 + ((List.range b).map (fun j => (64 / w) * (max 1 (ceilDiv ((x.at 0 j).length * x.g * rate.2) (64 * rate.1)) * mv))).foldl (· + ·) 0

/-- How many strips a walk keeps, in all its lists. -/
def Strips.total (x : Strips) : Nat := (x.kept.map (fun r => (r.map List.length).foldl (· + ·) 0)).foldl (· + ·) 0

/-- Whether a kept strip takes K block `t` for row block `m` of the moving operand. -/
def Strips.usesRow (x : Strips) (m t : Nat) : Bool := (x.kept.getD (m / 2) []).any (fun ks => ks.any (fun k => decide (k * x.g / 64 = t)))

/-- Whether a kept strip takes K block `t` for column block `j` of the stationary operand. -/
def Strips.usesCol (x : Strips) (t j : Nat) : Bool := x.kept.any (fun r => (r.getD j []).any (fun k => decide (k * x.g / 64 = t)))

/-- The plan of an instruction with the confined reads that it makes: CLAMPED counts them, by a free number where how many reads fetch a row is not
stated, and EV_SPARSE_CLAMP names the first (R219, R221, R223; log entry 5). -/
def State.clamped (s : State) (d c : Nat) (p : Plan) (escapes : List (Nat × Bool)) : Plan :=
  let n := if escapes = [] then 0 else 1 + (Config.freeWord (s.fresh + p.used)).toNat % 65536
  let a := match escapes with
    | [(a, true)] => a
    | _ => (Config.freeWord (s.fresh + p.used + 1)).toNat % 0xC0000
  { p with
    counts := if n = 0 then p.counts else (HARNESS_STATUS_CLAMPED d c, n) :: p.counts
    events := if n ≠ 0 ∧ s.flag (HARNESS_CTRL_CLAMP_EV d c) then mkEv 97 d c 5 0 [(1, c), (6, a)] :: p.events else p.events
    used := p.used + 2 }

/-- The start of a HAND (R224 to R234). -/
def State.startHand (s : State) (d c : Nat) (e : QEntry) : Except UFault Plan := do
  let opx := e.t.opx.toNat
  let o := mOpx (field opx 0 14)
  let tgt := field opx 16 2
  let fa ← tdOk e.t.tda e.tda
  let fb ← tdOk e.t.tdb e.tdb
  let fd ← tdOk e.t.tdd e.tdd
  check (fa.strideOk && (!isComp fa.layout || compFmt fa.layout fa.fmt)) (.td (some e.t.tda.toNat))
  check (fb.strideOk && (!isComp fb.layout || compFmt fb.layout fb.fmt)) (.td (some e.t.tdb.toNat))
  let ta ← s.tileAt d c fa .rd fa.extent
  let tb ← s.tileAt d c fb .rd fb.extent
  let td ← s.tileAt d c fd .wr fd.denseExtent
  check (if tgt = 2 then fa.layout = 0 ∨ fa.layout = 6 else 2 ≤ fa.layout ∧ fa.layout ≤ 5) (.td (some e.t.tda.toNat))
  check (if tgt = 2 then 1 ≤ fb.layout ∧ fb.layout ≤ 5 ∧ fb.layout ≠ 2 else fb.layout ≤ 5 ∧ fb.layout ≠ 2) (.td (some e.t.tdb.toNat))
  check (isComp fa.layout || isComp fb.layout) (.td none)
  check (decide (fd.layout ≤ 1) && tddOk fd.fmt && (!o.part || (decide (fd.fmt = 0) && decide (fd.layout = 0)))) (.td (some e.t.tdd.toNat))
  let p ← match pOf fa.fmt fb.fmt o.acc with
    | none => .error (.td none)
    | some p => .ok p
  check (if tgt = 2 then mvpShape fa fb fd else
    decide (fa.rows = fd.rows ∧ fa.rows ≤ 8 ∧ fa.cols = fb.rows ∧ fb.cols = fd.cols ∧ fb.cols ≤ 8 ∧ fa.vrows = fd.vrows ∧
      fa.vcols = fb.vrows ∧ fb.vcols = fd.vcols)) (.td none)
  let kv := fa.nValid
  let le := runLen fa.fmt o.acc
  let x := s.walk d c ta tb (stripSize fa.layout fb.layout p le) kv
  let rate := minRate (s.gatherRate d c ta) (s.gatherRate d c tb)
  let most := minRate (layoutRate fa.layout) (layoutRate fb.layout)
  let part ← s.partialOf d c o.cont fd e.ss.toNat
  let partB := match part with
    | none => 0
    | some q => if (accTile q.base q.f.denseExtent).isSome then 0 else 16384
  let outB := if (accTile td.base fd.denseExtent).isSome then 0 else fmtBytes fd.fmt 4096
  let w := mvpW fa.fmt
  let cyc (x : Strips) (rate : Nat × Nat) : Nat :=
    if tgt = 2 then x.mvpCycles fb.cols w fa.vrows rate
    else x.arrayCycles fa.rows fb.cols p kv (fmtBytes fa.fmt (4096 * p)) (fmtBytes fb.fmt (4096 * p)) outB partB rate
  let bad := !(s.compConsistent d c ta && s.compConsistent d c tb)
  let plan ← s.product d c e
    { tgt := tgt, g := field opx 18 3, o := o, td := td, rows := (List.range fa.mValid).map (fun i => s.operandLine d c ta true i kv),
      cols := (List.range fb.nValid).map (fun n => s.operandLine d c tb false n kv), p := p, le := le, kv := kv,
      keep := fun m n => some ((List.range kv).map (fun k => (x.at (m / 2) n).contains (k / x.g))) } bad (min (cyc x rate) (cyc x.full most))
  let lists := if tgt = 2 then 64 / w else 1
  let kept := lists * x.total
  let all := lists * x.full.total
  let plan := s.clamped d c plan (s.compEscapes d c ta x.usesRow ++ s.compEscapes d c tb x.usesCol)
  return { plan with
    res := { plan.res with counts := [(HARNESS_COUNT_KEPT d c, kept), (HARNESS_COUNT_SKIPPED d c, all - kept)] },
    resident := if tgt = 2 then none else some (tgt, none) }

/-- A record of HMERGE: output index and FP32 code (R236). -/
abbrev Rec := Nat × Nat

/-- A run of a run table: its core-space offset and record count. -/
abbrev Run := Nat × Nat

/-- Records from a core-space offset. -/
def State.records (s : State) (d c o n : Nat) : List Rec := (List.range n).map (fun i => (s.spadNat d c (o + 8 * i) 4, s.spadNat d c (o + 8 * i + 4) 4))

/-- The run table that a descriptor names: n entries (R236). `soft` leaves runs that reach beyond their window to HCHECK (R220
code 10), which gives them as `none`. -/
def State.runTable (s : State) (d c : Nat) (t : Tile) (desc n : Nat) (soft : Bool) : Except UFault (List (Option Run)) := do
  check (1 ≤ n ∧ n ≤ 64) (.td none)
  match s.window d c t.f.win t.f.base (8 * n) .rd with
  | none => .error (.window t.f.win t.f.base)
  | some o =>
    (List.range n).mapM (fun k =>
      let w := s.spadNat d c (o + 8 * k) 4
      let cnt := s.spadNat d c (o + 8 * k + 4) 4
      if field w 22 10 ≠ 0 ∨ field w 0 20 % 8 ≠ 0 then .error (.td (some desc))
      else match s.window d c (field w 20 2) (field w 0 20 : Nat) (8 * cnt) .rd with
        | some a => .ok (some (a, cnt))
        | none => if soft then .ok none else .error (.window (field w 20 2) (field w 0 20)))

/-- Two FP32 codes combined, the left (lower or earlier) one first: SUM by rn32, MAX and MIN by R200 (R237). -/
def mergeCode (mode a b : Nat) : Nat :=
  let x := f32.decode a
  let y := f32.decode b
  if mode = 0 then f32.encode (rn32 (x.add y)).1
  else if x.isNan then a
  else if y.isNan then b
  else if (if mode = 1 then x.lt y else y.lt x) then b else a

/-- A leaf: consecutive equal indices of a run combined in run order (R237). `acc` is the record in hand. -/
def mergeLeaf (mode : Nat) (acc : Rec) (rs : List Rec) : List Rec :=
  match rs with
  | [] => [acc]
  | r :: t => if r.1 = acc.1 then mergeLeaf mode (acc.1, mergeCode mode acc.2 r.2) t else acc :: mergeLeaf mode r t

/-- The leaf of a run. -/
def leafOf (mode : Nat) (rs : List Rec) : List Rec :=
  match rs with
  | [] => []
  | r :: t => if mode = 3 then r :: t else mergeLeaf mode r t

/-- A node of the tree: the lower index first; equal indices are combined, or under KEEP leave left first (R237). -/
def mergeNode (mode fuel : Nat) (l r : List Rec) : List Rec :=
  match fuel with
  | 0 => l ++ r
  | fuel + 1 =>
    match l, r with
    | [], r => r
    | l, [] => l
    | x :: l', y :: r' =>
      if x.1 < y.1 ∨ (x.1 = y.1 ∧ mode = 3) then x :: mergeNode mode fuel l' (y :: r')
      else if y.1 < x.1 then y :: mergeNode mode fuel (x :: l') r'
      else (x.1, mergeCode mode x.2 y.2) :: mergeNode mode fuel l' r'

/-- One level of the balanced tree over leaves in order; an odd last one passes up. -/
def mergeLevel (mode : Nat) (ls : List (List Rec)) : List (List Rec) :=
  match ls with
  | a :: b :: r => mergeNode mode (a.length + b.length) a b :: mergeLevel mode r
  | x => x

/-- The tree of up to 64 leaves (R203, R237): six levels of pairs. -/
def mergeTree (mode : Nat) (ls : List (List Rec)) : List Rec :=
  ((List.range 6).foldl (fun ls _ => mergeLevel mode ls) ls).flatten

/-- Whether a descriptor is an FP32 row-major one. -/
def plainFp32 (f : TdF) : Bool := decide (f.fmt = 0) && decide (f.layout = 0)

/-- The start of an HMERGE (R236 to R240). -/
def State.startHmerge (s : State) (d c : Nat) (e : QEntry) : Except UFault Plan := do
  let fa ← tdOk e.t.tda e.tda
  let fd ← tdOk e.t.tdd e.tdd
  let ta ← s.tileAt d c fa .rd fa.denseExtent
  let td ← s.tileAt d c fd .wr fd.denseExtent
  check (plainFp32 fa) (.td (some e.t.tda.toNat))
  check (plainFp32 fd) (.td (some e.t.tdd.toNat))
  let runs ← s.runTable d c ta e.t.tda.toNat (field e.ss.toNat 0 7) false
  let mode := field e.t.opx.toNat 0 2
  let rs := runs.filterMap id
  let out := mergeTree mode (rs.map (fun r => leafOf mode (s.records d c r.1 r.2)))
  let room := (16384 * fd.rows * fd.cols - 32) / 8
  let kept := out.take room
  let lost := out.length - kept.length
  check (s.window d c fd.win fd.base (32 + 8 * kept.length) .wr).isSome (.window fd.win fd.base)
  let bytes := leBytes 4 kept.length ++ leBytes 4 lost ++ leBytes 24 0 ++ kept.flatMap (fun r => leBytes 4 r.1 ++ leBytes 4 r.2)
  let p := planOf (bytes.mapIdx (fun i b => (td.base + i, b))) (32 + (rs.map (fun r => r.2)).foldl (· + ·) 0)
  return { p with res := { p.res with
    counts := [(HARNESS_STATUS_MERGE_DROP d c, lost)],
    events := if lost = 0 then [] else [mkEv 98 d c 5 0 [(1, c), (4, lost)]] } }

/-- The check of a run: 10 where its indices fall or its records reach beyond the window (R220). -/
def State.checkRun (s : State) (d c : Nat) (r : Option Run) : Nat :=
  match r with
  | none => 10
  | some (o, n) => if nonDecreasing ((s.records d c o n).map (fun x => x.1)) then 0 else 10

/-- The cycles of HCHECK beyond its 16 (R220). -/
def State.hcheckCycles (s : State) (d c : Nat) (t : Tile) (runs : Bool) (records : Nat) : Nat :=
  if runs then ceilDiv records 4
  else if t.f.layout = 5 then
    let k := t.slot 0 0
    ceilDiv (s.slotNat d c k 4 2 + 2) 8 + ceilDiv (s.slotNat d c k 0 4) 16
  else t.f.rows * t.f.cols * (if t.f.layout = 6 then 48 else 8)

/-- The start of an HCHECK (R220). -/
def State.startHcheck (s : State) (d c : Nat) (e : QEntry) : Except UFault Plan := do
  let evt := e.t.opx.toNat.testBit 0
  let runs := e.t.opx.toNat.testBit 1
  let fa ← tdOk e.t.tda e.tda
  let fd ← tdOk e.t.tdd e.tdd
  check (if runs then plainFp32 fa else isComp fa.layout && compFmt fa.layout fa.fmt && fa.strideOk) (.td (some e.t.tda.toNat))
  let ta ← s.tileAt d c fa .rd fa.extent
  let td ← s.tileAt d c fd .wr fd.denseExtent
  check (fd.fmt = 12 ∧ fd.layout = 0 ∧ fd.rows = 1 ∧ fd.cols = 1) (.td (some e.t.tdd.toNat))
  let table ← if runs then s.runTable d c ta e.t.tda.toNat (field e.ss.toNat 0 7) true else .ok []
  let codes := if runs then table.map (s.checkRun d c) else s.checkSlots d c ta true
  let first := firstIdx codes (fun x => decide (x ≠ 0)) 0
  let fails := (codes.filter (fun x => decide (x ≠ 0))).length
  let record := leBytes 4 (codes.getD first 0) ++ leBytes 4 (if fails = 0 then 0 else first) ++ leBytes 4 fails
  let records := (table.map (fun r => match r with
    | some x => x.2
    | none => 0)).foldl (· + ·) 0
  let p := s.clamped d c (planOf ((record ++ leBytes 20 0).mapIdx (fun i b => (td.base + i, b))) (16 + s.hcheckCycles d c ta runs records))
    (if runs then [] else s.checkEscapes d c ta)
  return { p with res := { p.res with
    counts := [(HARNESS_STATUS_CHECK_FAIL d c, fails)],
    events := if evt ∧ fails ≠ 0 then
        [mkEv 96 d c 5 0 [(1, c), (4, codes.getD first 0), (4, if fails = 0 then 0 else first), (4, fails)]] else [] } }

end Sys2Proof.Machine
end

