-- ==== Sys2Proof/Machine/Vector.lean ====
section
/-! DEFINITION. The vector unit's VOP (R198 to R201). -/

namespace Sys2Proof.Machine

/-- The fields of OPX of VOP. -/
def vopOp (o : Nat) : Nat := field o 0 6

/-- The element-wise operations 0x00 to 0x18 (R199). -/
def vopListed (op : Nat) : Bool := decide (op ≤ 8) || (decide (16 ≤ op) && decide (op ≤ 24)) || (decide (32 ≤ op) && decide (op ≤ 35))

/-- Whether an operation reads TDB, and TDC. -/
def vopReadsB (op : Nat) : Bool := decide (op ≤ 5)

/-- FMA reads TDC as an operand, PWL as a parameter block. -/
def vopReadsC (op : Nat) : Bool := decide (op = 3) || decide (op = 24)

/-- Formats that VOP operands and TDD may take (R198). -/
def vopFmt (f : Nat) : Bool := decide (f ≤ 9) || decide (f = 11)

/-- The result of an element-wise operation from a, b, c and the scalar of SS, before the conversion into TDD (R199). -/
def vopEl (op : Nat) (a b c k : FV) : FV :=
  if op = 0 then a.add b
  else if op = 1 then a.add b.neg
  else if op = 2 then a.mul b
  else if op = 3 then (a.mul b).add c
  else if op = 4 then a.max b
  else if op = 5 then a.min b
  else if op = 6 then a.mul k
  else if op = 7 then a.add k
  else if op = 8 then a
  else if op = 16 then fexp a
  else if op = 17 then flog a
  else if op = 18 then frecip a
  else if op = 19 then frsqrt a
  else if op = 20 then ftanh a
  else if op = 21 then fsigmoid a
  else if op = 22 then fgelu a
  else fsilu a

/-- RSUM and RSUMSQ (R200). -/
def reduceSum (sq : Bool) (xs : List FV) : FV := xs.foldl (fun acc x => (rn32 (acc.add (if sq then x.mul x else x))).1) .zero

/-- RMAX and RMIN: the winner and its position (R200). -/
def reduceExt (mx : Bool) (w : FV) (at_ : Nat) (k : Nat) (xs : List FV) : FV × Nat :=
  match xs with
  | [] => (w, at_)
  | x :: r =>
    if w.isNan then (w, at_)
    else if x.isNan then reduceExt mx x k (k + 1) r
    else if (if mx then w.lt x else x.lt w) then reduceExt mx x k (k + 1) r
    else reduceExt mx w at_ (k + 1) r

/-- The columns of a matrix of values. -/
def valueColumns (n : Nat) (m : List (List FV)) : List (List FV) := (List.range n).map (fun j => m.map (fun r => r.getD j .zero))

/-- The start of an element-wise VOP (R198, R199, R201). -/
def State.startVopEl (s : State) (d c : Nat) (e : QEntry) (op : Nat) (fa fd : TdF) : Except UFault Plan := do
  let ss := e.ss.toNat
  let fb ← if vopReadsB op then tdOk e.t.tdb e.tdb else .ok fa
  let fc ← if op = 3 then tdOk e.t.tdc e.tdc else .ok fa
  let ta ← s.tileAt d c fa .rd fa.denseExtent
  let tb ← if vopReadsB op then s.tileAt d c fb .rd fb.denseExtent else .ok ta
  let tc ← if op = 3 then s.tileAt d c fc .rd fc.denseExtent else .ok ta
  let td ← s.tileAt d c fd .wr fd.denseExtent
  check (fa.layout = 0 ∧ vopFmt fa.fmt) (.td (some e.t.tda.toNat))
  check (fb.layout = 0 ∧ vopFmt fb.fmt) (.td (some e.t.tdb.toNat))
  check (fc.layout = 0 ∧ vopFmt fc.fmt) (.td (some e.t.tdc.toNat))
  check (fd.layout = 0 ∧ vopFmt fd.fmt) (.td (some e.t.tdd.toNat))
  check (sameShape fa fd) (.td (some e.t.tda.toNat))
  check (sameShape fb fd) (.td (some e.t.tdb.toNat))
  check (sameShape fc fd) (.td (some e.t.tdc.toNat))
  let block ← s.paramBlock d c e fd.cols (op = 24)
  let k := f32.decode (field ss 0 32)
  let va := s.tileVals d c ta
  let vb := if vopReadsB op then s.tileVals d c tb else va
  let vc := if op = 3 then s.tileVals d c tc else va
  let out := List.zipWith (fun ra (rbc : List (FV × FV)) => List.zipWith (fun a (bc : FV × FV) =>
      match block with
      | some b => (ftable (s.param d c b 2 0) (s.param d c b 2 1) (fun j => s.param d c b 3 j) (fun j => s.param d c b 4 j) a).1
      | none => vopEl op a bc.1 bc.2 k) ra rbc) va (List.zipWith List.zip vb vc)
  let sr : Sr := if e.t.opx.toNat.testBit 6 then some (e.seed, ss / 2 ^ 32) else none
  return planOf (s.valueWrites d c td sr out) (ceilDiv (4096 * fd.rows * fd.cols) 128 * (if op ≤ 8 then 1 else 2) + 16)

/-- The start of a reduction (R200, R201). AXIS 0 gives a result per row, AXIS 1 one per column. -/
def State.startVopRed (s : State) (d c : Nat) (e : QEntry) (op : Nat) (fa fd : TdF) : Except UFault Plan := do
  let ss := e.ss.toNat
  let ext := decide (34 ≤ op)
  let fb ← if ext then tdOk e.t.tdb e.tdb else .ok fd
  let ta ← s.tileAt d c fa .rd fa.denseExtent
  let td ← s.tileAt d c fd .wr fd.denseExtent
  let tb ← if ext then s.tileAt d c fb .wr fb.denseExtent else .ok td
  check (fa.layout = 0 ∧ vopFmt fa.fmt) (.td (some e.t.tda.toNat))
  check (fd.layout = 0 ∧ vopFmt fd.fmt) (.td (some e.t.tdd.toNat))
  let axis := e.t.opx.toNat.testBit 7
  check (if axis then fd.rows = 1 ∧ fd.cols = fa.cols else fd.rows = fa.rows ∧ fd.cols = 1) (.td (some e.t.tdd.toNat))
  check (!ext || (decide (fb.fmt = 12) && decide (fb.layout = 0) && sameShape fb fd)) (.td (some e.t.tdb.toNat))
  let va := s.tileVals d c ta
  let vs := if axis then valueColumns fa.nValid va else va
  let res := vs.map (fun xs => if ext then reduceExt (decide (op = 34)) (xs.headD .zero) 0 1 xs.tail
    else (reduceSum (decide (op = 33)) xs, 0))
  let vals := res.map (fun r => r.1)
  let idx := res.map (fun r => (field ss 0 32 + r.2) % 2 ^ 32)
  let out := if axis then [vals.take fd.nValid] else (vals.take fd.mValid).map (fun v => [v])
  let ids := if axis then [idx.take fb.nValid] else (idx.take fb.mValid).map (fun v => [v])
  let sr : Sr := if e.t.opx.toNat.testBit 6 then some (e.seed, ss / 2 ^ 32) else none
  let q := if axis then 64 * fa.cols else 64 * fa.rows
  let n := if axis then 64 * fa.rows else 64 * fa.cols
  return planOf (s.valueWrites d c td sr out ++ (if ext then s.codeWrites d c tb ids else [])) (ceilDiv q 128 * n + 16)

/-- The start of a VOP. -/
def State.startVop (s : State) (d c : Nat) (e : QEntry) : Except UFault Plan := do
  let op := vopOp e.t.opx.toNat
  let fa ← tdOk e.t.tda e.tda
  let fd ← tdOk e.t.tdd e.tdd
  if op < 32 then s.startVopEl d c e op fa fd else s.startVopRed d c e op fa fd

end Sys2Proof.Machine
end

