-- ==== Sys2Proof/Machine/Issue.lean ====
section
/-! DEFINITION. The transfer and tensor classes as the sequencer issues them: the reserved fields of each instruction, the operands
captured, and the queue of its unit (R89 to R91, R102, R104 to R106, R124, R125, R132). What a unit then does is the effect of
INSTR_START and INSTR_COMPLETE. -/

namespace Sys2Proof.Machine

/-- Entries that the instruction queue of a unit holds: 8, or the channel queue depth of R309 for a channel of a control core. -/
def unitDepth (q unit : Nat) : Nat := if isCtl q ∧ 6 ≤ unit then 16 else 8

/-- The queue of a unit. -/
def Core.queue (c : Core) (unit : Nat) : List QEntry := tabGet c.queues unit []

/-- An entry joins the queue of a unit. -/
def Core.enqueue (c : Core) (unit : Nat) (e : QEntry) : Core := { c with queues := tabSet c.queues unit (c.queue unit ++ [e]) }

/-- The item that dispatches has named the semaphores of its lists, and issued to a channel (R85). -/
def State.nameLists (s : State) (d q : Nat) (l : Lists) (chan : Option Nat) : State :=
  match (s.core d q).cur with
  | some k =>
    s.modItem k (fun i =>
      { i with use := { i.use with
          sems := ((usedSlots l.wait ++ usedSlots l.post).map (fun x => x.1)).foldl (fun a x => insertAsc x a) i.use.sems,
          chans := match chan with
            | some n => insertAsc n i.use.chans
            | none => i.use.chans } })
  | none => s

/-- The registers that an instruction names, captured (R91): SS and, for a tensor instruction, its descriptors and SEED. -/
def State.capture (s : State) (d q : Nat) (e : QEntry) : QEntry :=
  match e.op with
  | .drayGo | .drayPause | .drayResume | .drayCancel | .drayStat => { e with ss := s.sreg d q e.x.sa }
  | _ =>
    { e with tdd := s.treg d q e.t.tdd.toNat, tda := s.treg d q e.t.tda.toNat, tdb := s.treg d q e.t.tdb.toNat, tdc := s.treg d q e.t.tdc.toNat,
             ss := s.sreg d q e.t.ss, seed := (s.core d q).seed }

/-- No tensor body. -/
def fmtTNone : FmtT := { tdd := 0, tda := 0, tdb := 0, tdc := 0, ss := 0, arr := 0, grp := 0, opx := 0 }

/-- No transfer body. -/
def fmtXNone : FmtX := { sa := 0, win := 0, ch := 0, rsv := 0 }

/-- A dispatched instruction: it joins the queue of its unit with its operands captured, or the sequencer stalls at it while that
queue is full (R90, R91). -/
def State.dispatch (s : State) (h : Hdr) (unit : Nat) (legal : Bool) (l : Lists) (chan : Option Nat) (e : QEntry) : State :=
  s.issue h 24 (legal && legalLists h.seq l) true (fun s =>
    let ws := match s.fetch h.die h.seq 24 with
      | some a => (List.range 3).map (fun i => BitVec.ofNat 64 (s.natAt (a + 8 * i) 8))
      | none => []
    let e := s.capture h.die h.seq { e with item := (s.core h.die h.seq).cur, pc := (s.core h.die h.seq).pc.toNat % 2 ^ 20, words := ws }
    let s := s.nameLists h.die h.seq l chan
    let c := s.core h.die h.seq
    if unitDepth h.seq unit ≤ (c.queue unit).length then
      .stall (s.modCore h.die h.seq (fun c => { c with blocked := .queueFull unit e }))
    else .done (s.modCore h.die h.seq (fun c => c.enqueue unit e)))

/-- The channel that a transfer instruction names (R124). -/
def chanOf (q : Nat) (ch : Nat) : Nat := if isCtl q then ch else 32 + 4 * q + ch

/-- A transfer instruction; `sa` and `win` say which fields it uses (R106, R124). -/
def State.transfer (s : State) (h : Hdr) (op : UOp) (sa win : Bool) (x : FmtX) (l : Lists) : State :=
  s.dispatch h (6 + x.ch.toNat) (legalX h.seq sa win x) l (if op = .drayGo then some (chanOf h.seq x.ch.toNat) else none)
    { op := op, item := none, pc := 0, t := fmtTNone, x := x, wait := l.wait, post := l.post, tdd := 0, tda := 0, tdb := 0, tdc := 0, ss := 0, seed := 0,
      words := [], late := none }

/-- A tensor instruction of a core (R105). ARR and GRP are 0 where `arr` and `grp` do not use them. On a control core it is illegal (R93; DEDUCED, log entry 18. Unsafe). -/
def State.tensor (s : State) (h : Hdr) (op : UOp) (unit : Nat) (legal arr grp : Bool) (t : FmtT) (l : Lists) : State :=
  s.dispatch h unit (legal && (arr || decide (t.arr = 0)) && (grp || decide (t.grp = 0)) && !isCtl h.seq) l none
    { op := op, item := none, pc := 0, t := t, x := fmtXNone, wait := l.wait, post := l.post, tdd := 0, tda := 0, tdb := 0, tdc := 0, ss := 0, seed := 0,
      words := [], late := none }

/-- The reserved bits and values of OPX for MMA (R138). -/
def opxMma (o : BitVec 23) : Bool :=
  decide (o &&& 0x7F0080 = 0) && decide (field o.toNat 8 3 ≤ 4) && !(o.getLsbD 4 && o.getLsbD 2)

/-- The reserved bits and values of OPX for MVP (R163). -/
def opxMvp (o : BitVec 23) : Bool := decide (o &&& 0x7FC0F3 = 0) && decide (field o.toNat 8 3 ≤ 4)

/-- The reserved bits and values of OPX for EWA (R161). -/
def opxEwa (o : BitVec 23) : Bool := decide (o &&& 0x7FFFF0 = 0) && decide (o.toNat ≤ 4)

/-- The reserved bits and values of OPX for VOP (R198, R199). -/
def opxVop (o : BitVec 23) : Bool := decide (o &&& 0x7FFF00 = 0) && vopListed (vopOp o.toNat)

/-- The reserved bits and values of OPX for HAND (R225). -/
def opxHand (o : BitVec 23) : Bool :=
  decide (o &&& 0x60C0E0 = 0) && decide (field o.toNat 8 3 ≤ 4) && !(o.getLsbD 4 && o.getLsbD 2) && decide (field o.toNat 16 2 ≠ 3) &&
    (decide (field o.toNat 16 2 ≠ 2) || decide (field o.toNat 0 2 = 0))

/-- The reserved bits and values of OPX for PRED with the function code `f` (R246 to R248, R255). -/
def opxPred (f : Nat) (o : BitVec 23) : Bool :=
  decide (field o.toNat 0 3 = f) &&
    (if f = 0 then decide (o &&& 0x7FFFF8 = 0)
     else if f = 3 then decide (o &&& 0x7FFF00 = 0) && decide (field o.toNat 4 4 < 13)
     else decide (o &&& 0x7E0000 = 0))

/-- DRAY.GO (R124). -/
def execDrayGo (h : Hdr) (x : FmtX) (l : Lists) (s : State) : Ans := .next (s.transfer h .drayGo true true x l)

/-- DRAY.PAUSE (R124). -/
def execDrayPause (h : Hdr) (x : FmtX) (l : Lists) (s : State) : Ans := .next (s.transfer h .drayPause false false x l)

/-- DRAY.RESUME (R124). -/
def execDrayResume (h : Hdr) (x : FmtX) (l : Lists) (s : State) : Ans := .next (s.transfer h .drayResume false false x l)

/-- DRAY.CANCEL (R124). -/
def execDrayCancel (h : Hdr) (x : FmtX) (l : Lists) (s : State) : Ans := .next (s.transfer h .drayCancel false false x l)

/-- DRAY.STAT (R124). -/
def execDrayStat (h : Hdr) (x : FmtX) (l : Lists) (s : State) : Ans := .next (s.transfer h .drayStat true false x l)

/-- MMA, to the array that ARR names. -/
def execMma (h : Hdr) (t : FmtT) (l : Lists) (s : State) : Ans :=
  .next (s.tensor h .mma t.arr.toNat (opxMma t.opx) true true t l)

/-- MVP. -/
def execMvp (h : Hdr) (t : FmtT) (l : Lists) (s : State) : Ans := .next (s.tensor h .mvp 2 (opxMvp t.opx) false true t l)

/-- EWA, to the array that ARR names. -/
def execEwa (h : Hdr) (t : FmtT) (l : Lists) (s : State) : Ans :=
  .next (s.tensor h .ewa t.arr.toNat (opxEwa t.opx) true false t l)

/-- VOP. -/
def execVop (h : Hdr) (t : FmtT) (l : Lists) (s : State) : Ans := .next (s.tensor h .vop 3 (opxVop t.opx) false false t l)

/-- HAND. -/
def execHand (h : Hdr) (t : FmtT) (l : Lists) (s : State) : Ans := .next (s.tensor h .hand 4 (opxHand t.opx) false false t l)

/-- HMERGE (R237). -/
def execHmerge (h : Hdr) (t : FmtT) (l : Lists) (s : State) : Ans :=
  .next (s.tensor h .hmerge 4 (decide (t.opx &&& 0x7FFFFC = 0)) false false t l)

/-- HCHECK (R220). -/
def execHcheck (h : Hdr) (t : FmtT) (l : Lists) (s : State) : Ans :=
  .next (s.tensor h .hcheck 4 (decide (t.opx &&& 0x7FFFFC = 0)) false false t l)

/-- PRED with function QUANT (R247). -/
def execPredQuant (h : Hdr) (t : FmtT) (l : Lists) (s : State) : Ans := .next (s.tensor h .pred 5 (opxPred 0 t.opx) false false t l)

/-- PRED with function TOPK (R248). -/
def execPredTopk (h : Hdr) (t : FmtT) (l : Lists) (s : State) : Ans := .next (s.tensor h .pred 5 (opxPred 1 t.opx) false false t l)

/-- PRED with function THRESH (R248). -/
def execPredThresh (h : Hdr) (t : FmtT) (l : Lists) (s : State) : Ans := .next (s.tensor h .pred 5 (opxPred 2 t.opx) false false t l)

/-- PRED with function EMIT (R255). -/
def execPredEmit (h : Hdr) (t : FmtT) (l : Lists) (s : State) : Ans := .next (s.tensor h .pred 5 (opxPred 3 t.opx) false false t l)

/-- UPD.ADAM (R388). -/
def execUpdAdam (h : Hdr) (t : FmtT) (l : Lists) (s : State) : Ans :=
  .next (s.tensor h .updAdam 3 (decide (t.opx &&& 0x7FFFFC = 0)) false false t l)

/-- DIGEST with OPX[0] = 0 (R402). -/
def execDigestBlock (h : Hdr) (t : FmtT) (l : Lists) (s : State) : Ans :=
  .next (s.tensor h .digest 3 (decide (t.opx = 0)) false false t l)

/-- DIGEST with OPX[0] = 1 (R402). -/
def execDigestNode (h : Hdr) (t : FmtT) (l : Lists) (s : State) : Ans :=
  .next (s.tensor h .digest 3 (decide (t.opx = 1)) false false t l)

end Sys2Proof.Machine
end

