-- ==== Sys2Proof/Machine/Predictor.lean ====
section
/-! DEFINITION. The predictor unit: PRED.QUANT, PRED.TOPK, PRED.THRESH and PRED.EMIT (R246 to R258). -/

namespace Sys2Proof.Machine

/-- Bytes that an area named as an FP32 tile holds (R246). -/
def TdF.capacity (f : TdF) : Nat := 16384 * f.rows * f.cols

/-- The scale exponent and INT8 codes of a row (R247): `none` for a row with a NaN or an infinity. -/
def quantRow (xs : List FV) : Option Int × List Nat :=
  if xs.all FV.isFin = false then (none, xs.map (fun _ => 0))
  else
    let big := xs.foldl (fun a x => match x with
      | .fin _ m e => let y := FV.fin false m e; if a.lt y then y else a
      | _ => a) FV.zero
    match big with
    | .fin _ m e =>
      if m = 0 then (some 0, xs.map (fun _ => 0))
      else
        -- the smallest e with amax ≤ 127 · 2^e lies at floor(log2 amax) - 6 or one above
        let l := ilog m e - 6
        let k := max (-149) (if magGt m e 127 l then l + 1 else l)
        (some k, xs.map (fun x => match x with
          | .fin neg m e =>
            if m = 0 then 0
            else
              let q := min 127 (roundMag neg m e k none)
              if neg then (256 - q) % 256 else q
          | _ => 0))
    | _ => (some 0, xs.map (fun _ => 0))

/-- The start of PRED.QUANT (R247). -/
def State.startQuant (s : State) (d c : Nat) (e : QEntry) : Except UFault Plan := do
  let fa ← tdOk e.t.tda e.tda
  let fb ← tdOk e.t.tdb e.tdb
  let fd ← tdOk e.t.tdd e.tdd
  let ta ← s.tileAt d c fa .rd fa.denseExtent
  let tb ← s.tileAt d c fb .wr fb.denseExtent
  let td ← s.tileAt d c fd .wr fd.denseExtent
  check (fa.layout = 0 ∧ fa.fmt ≤ 2) (.td (some e.t.tda.toNat))
  check (fd.layout = 0 ∧ fd.fmt = 10 ∧ sameShape fa fd) (.td (some e.t.tdd.toNat))
  check (plainFp32 fb && decide (fb.rows = fa.rows ∧ fb.cols = 1 ∧ fb.vrows = fa.vrows)) (.td (some e.t.tdb.toNat))
  let rows := (s.tileVals d c ta).map quantRow
  let scales := rows.map (fun r => [match r.1 with
    | none => 0x7FC00000
    | some k => f32.encode (.fin false 1 k)])
  return planOf (s.codeWrites d c td (rows.map (fun r => r.2)) ++ s.codeWrites d c tb scales)
    (16 + 2 * ceilDiv (4096 * fa.rows * fa.cols) 128)

/-- A candidate of a row: forced, FP32 score code, block index (R250). -/
structure Cand where
  forced : Bool
  score : Nat
  block : Nat
  deriving DecidableEq, Repr

/-- Whether a candidate ranks before another: forced first, score descending with NaN last, index ascending (R250). -/
def Cand.before (a b : Cand) : Bool :=
  if a.forced ≠ b.forced then a.forced
  else
    let x := f32.decode a.score
    let y := f32.decode b.score
    if x.isNan ≠ y.isNan then y.isNan
    else if y.lt x then true
    else if x.lt y then false
    else decide (a.block < b.block)

/-- A candidate put at its rank. -/
def Cand.insert (a : Cand) (xs : List Cand) : List Cand :=
  match xs with
  | [] => [a]
  | x :: r => if a.before x then a :: x :: r else x :: a.insert r

/-- Candidates in rank order. -/
def rankAll (xs : List Cand) : List Cand := xs.foldr Cand.insert []

/-- The fields of a selection (R248). -/
structure Sel where
  gran : Bool
  abs : Bool
  merge : Bool
  causal : Bool
  window : Nat
  sink : Nat
  cbase : Nat
  k : Nat
  qbase : Nat
  last : Nat
  deriving DecidableEq, Repr

/-- OPX and SS of TOPK and THRESH. -/
def selOf (opx ss : Nat) : Sel :=
  { gran := opx.testBit 3, abs := opx.testBit 4, merge := opx.testBit 5, causal := opx.testBit 6, window := field opx 7 6,
    sink := field opx 13 4, cbase := field ss 0 16, k := field ss 16 10, qbase := field ss 32 16, last := field ss 48 16 }

/-- The FP32 code of a magnitude. -/
def absCode (x : Nat) : Nat := x % 2 ^ 31

/-- The larger of two FP32 codes, a NaN winning (R248, R250). -/
def maxCode (a b : Nat) : Nat := if (f32.decode a).isNan then a else if (f32.decode b).isNan then b else if (f32.decode a).lt (f32.decode b) then b else a

/-- The scored blocks of a row: block index and score code, from the row's score codes (R248, R249). -/
def Sel.scores (x : Sel) (row : List Nat) : List (Nat × Nat) :=
  let row := if x.abs then row.map absCode else row
  if x.gran then (pieces 64 row).mapIdx (fun g p => (x.cbase + g, p.tail.foldl maxCode (p.headD 0)))
  else row.mapIdx (fun j v => (x.cbase + j, v))

/-- The eligible candidates of row `i` (R249). -/
def Sel.cands (x : Sel) (i : Nat) (row : List Nat) : List Cand :=
  ((x.scores row).filter (fun p => decide (p.1 ≤ x.last) && (!x.causal || decide (p.1 ≤ x.qbase + i)))).map (fun p =>
    { forced := decide (p.1 < x.sink) || (decide (p.1 ≤ x.qbase + i) && decide (x.qbase + i < p.1 + x.window)), score := p.2, block := p.1 })

/-- Bytes of a record area (R251). -/
def recordArea (rows k : Nat) : Nat := 32 + 32 * ceilDiv (2 * rows) 32 + 8 * rows * k

/-- Where the records of a row of a record area stand. -/
def recordAt (rows k i : Nat) : Nat := 32 + 32 * ceilDiv (2 * rows) 32 + 8 * i * k

/-- The records of a row of a record area, in rank order (R251). -/
def State.areaRow (s : State) (d c base rows k i : Nat) : List Cand :=
  let n := min k (s.spadNat d c (base + 32 + 2 * i) 2)
  (List.range n).map (fun r =>
    let a := base + recordAt rows k i + 8 * r
    let w := s.spadNat d c a 4
    { forced := w.testBit 31, score := s.spadNat d c (a + 4) 4, block := w % 65536 })

/-- The bytes of a record (R251). -/
def Cand.bytes (a : Cand) : List Byte := leBytes 4 (a.block % 65536 + (if a.forced then 2 ^ 31 else 0)) ++ leBytes 4 a.score

/-- The selection mode in effect (R259). -/
def State.predMode (s : State) (d : Nat) : Nat := if s.flag (PRED_CTRL_MODE d) ∨ s.flag (PRED_CTRL_FORCE_LP d) then 1 else 0

/-- The start of PRED.TOPK and PRED.THRESH (R248 to R254). -/
def State.startSelect (s : State) (d c : Nat) (e : QEntry) (thresh : Bool) : Except UFault Plan := do
  let ss := e.ss.toNat
  let x := selOf e.t.opx.toNat ss
  let fa ← tdOk e.t.tda e.tda
  let fb ← if x.merge then tdOk e.t.tdb e.tdb else .ok fa
  let fc ← if thresh then tdOk e.t.tdc e.tdc else .ok fa
  let fd ← tdOk e.t.tdd e.tdd
  let rows := fa.mValid
  let need := recordArea rows x.k
  let ta ← s.tileAt d c fa .rd fa.denseExtent
  let tb ← if x.merge then s.tileAt d c fb .rd fb.denseExtent else .ok ta
  let tc ← if thresh then s.tileAt d c fc .rd fc.denseExtent else .ok ta
  let td ← s.tileAt d c fd .wr fd.denseExtent
  check (plainFp32 fa) (.td (some e.t.tda.toNat))
  check (plainFp32 fb) (.td (some e.t.tdb.toNat))
  check (plainFp32 fd) (.td (some e.t.tdd.toNat))
  check (!thresh || (plainFp32 fc && decide (fc.rows = fa.rows ∧ fc.cols = 1 ∧ fc.vrows = fa.vrows))) (.td (some e.t.tdc.toNat))
  check (field ss 26 6 = 0 ∧ 1 ≤ x.k ∧ x.k ≤ 512 ∧ x.sink + x.window ≤ x.k) (.td none)
  check (need ≤ fd.capacity) (.td (some e.t.tdd.toNat))
  check (!x.merge || (decide (s.spadNat d c tb.base 4 = rows) && decide (s.spadNat d c (tb.base + 4) 2 = x.k) && decide (need ≤ fb.capacity)))
    (.td (some e.t.tdb.toNat))
  let _ ← if x.merge then s.tileAt d c fb .rd need else .ok ta
  let _ ← s.tileAt d c fd .wr need
  let res := (List.range rows).map (fun i =>
    let new := x.cands i ((List.range fa.nValid).map (fun j => s.tileCode d c ta i j))
    let old := if x.merge then s.areaRow d c tb.base rows x.k i else []
    let t := f32.decode (s.tileCode d c tc i 0)
    let passes (a : Cand) : Bool :=
      a.forced || (!t.isNan && !(f32.decode a.score).isNan && !(f32.decode a.score).lt t)
    let fresh := (if thresh then new.filter passes else new).filter (fun a => !(old.any (fun b => decide (b.block = a.block))))
    let all := rankAll (old ++ fresh)
    (all.take x.k, all.length, new.length, (new.filter (fun a => (f32.decode a.score).isNan)).length))
  let head := leBytes 4 rows ++ leBytes 2 x.k ++ leBytes 1 (s.predMode d + (if thresh then 2 else 0)) ++ leBytes 1 0
    ++ leBytes 8 (s.frameSeq % 2 ^ 48) ++ leBytes 16 0
  let counts := res.flatMap (fun r => leBytes 2 r.1.length)
  let pad := leBytes (32 * ceilDiv (2 * rows) 32 - 2 * rows) 0
  let recs := (res.mapIdx (fun i r => (r.1.flatMap Cand.bytes).mapIdx (fun n b => (td.base + recordAt rows x.k i + n, b)))).flatten
  let p := planOf ((head ++ counts ++ pad).mapIdx (fun i b => (td.base + i, b)) ++ recs)
    (16 + ceilDiv (4096 * fa.rows * fa.cols) 64 + 64 * fa.rows * ceilDiv x.k 8 * (if x.merge then 2 else 1))
  return { p with res := { p.res with
    counts := [(PRED_STATUS_NAN d c, (res.map (fun r => r.2.2.2)).foldl (· + ·) 0),
      (PRED_STATUS_CAPPED d c, if thresh then (res.filter (fun r => decide (x.k < r.2.1))).length else 0),
      (PRED_COUNT_KEPT d c, (res.map (fun r => r.1.length)).foldl (· + ·) 0),
      (PRED_COUNT_SCORED d c, (res.map (fun r => r.2.2.1)).foldl (· + ·) 0)] } }

/-- Numbers in ascending order without repeats. -/
def sortAsc (xs : List Nat) : List Nat := xs.foldr insertAsc []

/-- Running sums, from 0. -/
def prefixSums (a : Nat) (xs : List Nat) : List Nat :=
  match xs with
  | [] => [a]
  | x :: r => a :: prefixSums (a + x) r

/-- The start of PRED.EMIT (R255). -/
def State.startEmit (s : State) (d c : Nat) (e : QEntry) : Except UFault Plan := do
  let opx := e.t.opx.toNat
  let union := opx.testBit 3
  let bcols := field e.ss.toNat 0 16 + 1
  let fa ← tdOk e.t.tda e.tda
  let fd ← tdOk e.t.tdd e.tdd
  let ta ← s.tileAt d c fa .rd fa.denseExtent
  let td ← s.tileAt d c fd .wr fd.denseExtent
  check (plainFp32 fa) (.td (some e.t.tda.toNat))
  check (plainFp32 fd) (.td (some e.t.tdd.toNat))
  let rows := s.spadNat d c ta.base 4
  let k := s.spadNat d c (ta.base + 4) 2
  check (1 ≤ rows ∧ rows ≤ 65536 ∧ recordArea rows k ≤ fa.capacity) (.td (some e.t.tda.toNat))
  check (s.window d c fa.win fa.base (recordArea rows k) .rd).isSome (.window fa.win fa.base)
  let brows := if union then 1 else rows
  let reserve := 32 + rpSize brows + 32 * ceilDiv (2 * (if union then min (rows * k) bcols else rows * k)) 32
  check (reserve ≤ fd.capacity) (.td (some e.t.tdd.toNat))
  check (s.window d c fd.win fd.base reserve .wr).isSome (.window fd.win fd.base)
  let all := (List.range rows).map (fun i => (s.areaRow d c ta.base rows k i).map (fun a => a.block))
  let kept := all.map (fun r => sortAsc (r.filter (fun b => decide (b < bcols))))
  let lost := (all.map (fun r => (r.filter (fun b => decide (bcols ≤ b))).length)).foldl (· + ·) 0
  let lists := if union then [sortAsc kept.flatten] else kept
  let rp := prefixSums 0 (lists.map List.length)
  let nnz := rp.getLastD 0
  let head := leBytes 4 nnz ++ leBytes 2 (brows - 1) ++ leBytes 2 (bcols - 1) ++ leBytes 4 0 ++ leBytes 1 0 ++ leBytes 1 (field opx 4 4 + 3 * 16)
  let bytes := head ++ leBytes 2 (crc16 head) ++ leBytes 16 0 ++ rp.flatMap (leBytes 4) ++ leBytes (rpSize brows - 4 * (brows + 1)) 0
    ++ lists.flatMap (fun l => l.flatMap (leBytes 2)) ++ leBytes (idxSize nnz - 2 * nnz) 0
  let p := planOf (bytes.mapIdx (fun i b => (td.base + i, b)))
    (16 + 64 * fa.rows * ceilDiv k 8 + (if union then ceilDiv bcols 256 else 0))
  return { p with res := { p.res with counts := [(PRED_STATUS_DROPPED d c, lost)] } }

/-- The start of a PRED by FUNC (R246). -/
def State.startPred (s : State) (d c : Nat) (e : QEntry) : Except UFault Plan :=
  match field e.t.opx.toNat 0 3 with
  | 0 => s.startQuant d c e
  | 1 => s.startSelect d c e false
  | 2 => s.startSelect d c e true
  | _ => s.startEmit d c e

end Sys2Proof.Machine
end

