-- ==== Sys2Proof/Machine/Training.lean ====
section
/-! DEFINITION. The vector unit's training instructions: UPD.ADAM (R395 to R398) and DIGEST (R400 to R402). -/

namespace Sys2Proof.Machine

/-- One step of a carry-less product modulo x^64 + x^4 + x^3 + x + 1: `a` times bit k and above of `b`, from the top bit down. -/
def gfStep (n a b acc : Nat) : Nat :=
  match n with
  | 0 => acc
  | n + 1 =>
    let t := acc * 2
    let t := if t ≥ 2 ^ 64 then (t - 2 ^ 64) ^^^ 0x1B else t
    gfStep n a b (if b.testBit n then t ^^^ a else t)

/-- a ⊗ b (R400). -/
def gfMul (a b : Nat) : Nat := gfStep 64 a b 0

/-- DIGEST_H (R400). -/
def digestH : Nat := 0x7D3B1E95A6C42F81

/-- seed(s, l, j) (R400). -/
def digestSeed (s l j : Nat) : Nat := ((s <<< 32) ^^^ (l <<< 24) ^^^ j) % 2 ^ 64

/-- A digest over 64-bit words in order. -/
def digestWords (d : Nat) (ws : List Nat) : Nat :=
  match ws with
  | [] => d
  | w :: r => digestWords (gfMul (d ^^^ w) digestH) r

/-- Bytes as 64-bit little-endian words. -/
def wordsOf (bs : List Byte) : List Nat := (pieces 8 bs).map leNat

/-- Leaf digests of 64 KiB blocks from leaf index `j` (R398, R400, R402). -/
def leafDigests (s j : Nat) (bs : List Byte) : List Nat :=
  (pieces 65536 bs).mapIdx (fun i b => digestWords (digestSeed s 0 (j + i)) (wordsOf b))

/-- Node digests of groups of 16 children from parent index `j` at level `l` (R400, R402). -/
def nodeDigests (s l j : Nat) (cs : List Nat) : List Nat :=
  (pieces 16 cs).mapIdx (fun i g => digestWords (digestSeed s l (j + i)) g)

/-- The start of a DIGEST (R402). -/
def State.startDigest (s : State) (d c : Nat) (e : QEntry) : Except UFault Plan := do
  let ss := e.ss.toNat
  let node := e.t.opx.toNat.testBit 0
  let fa ← tdOk e.t.tda e.tda
  let fd ← tdOk e.t.tdd e.tdd
  let n := field ss 32 12
  let bytes := if node then 8 * n else fa.capacity
  let count := if node then ceilDiv n 16 else fa.capacity / 65536
  let ta ← s.tileAt d c fa .rd (max fa.denseExtent (min bytes fa.capacity))
  let td ← s.tileAt d c fd .wr (max fd.denseExtent (min (8 * count) fd.capacity))
  check (fa.fmt = 12 ∧ fa.layout = 0) (.td (some e.t.tda.toNat))
  check (fd.fmt = 12 ∧ fd.layout = 0) (.td (some e.t.tdd.toNat))
  check (if node then 1 ≤ n ∧ n ≤ 2048 ∧ 1 ≤ field ss 44 4 ∧ field ss 44 4 ≤ 3 else field ss 48 16 = 0) (.td none)
  check (if node then bytes ≤ fa.capacity else fa.stride = 8 * fa.cols ∧ fa.capacity % 65536 = 0) (.td (some e.t.tda.toNat))
  check (8 * count ≤ fd.capacity) (.td (some e.t.tdd.toNat))
  let bs := s.bytesAt (coreAddr d c ta.base) bytes
  let ds := if node then nodeDigests (field ss 0 32) (field ss 44 4) (field ss 48 16) (wordsOf bs)
    else leafDigests (field ss 0 32) (field ss 32 16) bs
  return planOf ((ds.flatMap (leBytes 8)).mapIdx (fun i b => (td.base + i, b))) (16 + (if node then n else bytes / 512))

/-- The FP32 quotient of finite values, rounded once with a sticky bit below the quotient. -/
def quotient (neg : Bool) (m : Nat) (e : Int) (p : Nat) (g : Int) : FV :=
  let sh := 80 + Nat.log2 p
  let n := m * 2 ^ sh
  (rn32 (.fin neg (2 * (n / p) + (if n % p = 0 then 0 else 1)) (e - g - sh - 1))).1

/-- rn32(a / b); a finite value over zero takes `free`, since the spec states no result (log entry 5). -/
def fdiv (a b free : FV) : FV :=
  match a, b with
  | .nan, _ => .nan
  | _, .nan => .nan
  | .inf _, .inf _ => .nan
  | .inf n, .fin k _ _ => .inf (n ^^ k)
  | .fin n _ _, .inf k => .fin (n ^^ k) 0 0
  | .fin n m e, .fin k p g => if p = 0 then free else quotient (n ^^ k) m e p g

/-- rn32(sqrt(v) + eps), the square root exact: it is taken below the last place that the sum can depend on, with a sticky
bit (R397). -/
def fsqrtAdd (v eps : FV) : FV :=
  match v with
  | .nan => .nan
  | .inf neg => if neg then .nan else (rn32 ((FV.inf false).add eps)).1
  | .fin neg m e =>
    if m = 0 then (rn32 ((FV.fin neg 0 0).add eps)).1
    else if neg then .nan
    else
      let q : Int := min (-160) (match eps with
        | .fin _ _ g => g
        | _ => 0)
      let n := m * 2 ^ (e - 2 * q).toNat
      let r := isqrt n 600 0
      (rn32 ((FV.fin false (2 * r + (if r * r = n then 0 else 1)) (q - 1)).add eps)).1

/-- rn32(1 / (1 - beta^t)) for beta in (0, 1) and t at least 1; elsewhere the spec states no value and `free` stands (R396,
R397). -/
def biasCorrection (beta : FV) (t : Nat) (free : FV) : FV :=
  match beta with
  | .fin false m e =>
    -- beta = m / 2^k, so 1 - beta^t = (2^(k t) - m^t) / 2^(k t)
    let k := (-e).toNat
    if 0 ≤ e ∨ m = 0 ∨ t = 0 ∨ 2 ^ k ≤ m then free
    else quotient false (2 ^ (k * t)) 0 (2 ^ (k * t) - m ^ t) 0
  | _ => free

/-- The parameters of an update (R396). -/
structure Adam where
  lr : FV
  beta1 : FV
  beta2 : FV
  eps : FV
  wd : FV
  gscale : FV
  bc : Bool
  bc1 : FV
  bc2 : FV
  deriving DecidableEq, Repr

/-- rn32 of a value. -/
def r32 (v : FV) : FV := (rn32 v).1

/-- The update of one element: new master weight, first and second moment (R397). -/
def Adam.step (p : Adam) (w g m v free : FV) : FV × FV × FV :=
  let g := r32 (g.mul p.gscale)
  let m1 := r32 ((r32 (p.beta1.mul m)).add (r32 ((fvOne.add p.beta1.neg).mul g)))
  let v1 := r32 ((r32 (p.beta2.mul v)).add (r32 ((fvOne.add p.beta2.neg).mul (r32 (g.mul g)))))
  let mh := if p.bc then r32 (m1.mul p.bc1) else m1
  let vh := if p.bc then r32 (v1.mul p.bc2) else v1
  let u := fdiv mh (fsqrtAdd vh p.eps) free
  let w1 := r32 (w.add (r32 (p.lr.mul (r32 (u.add (r32 (p.wd.mul w)))))).neg)
  (w1, m1, v1)

/-- The parameter block from 64 bytes (R396). -/
def adamOf (b : List Byte) (f1 f2 : FV) : Adam :=
  let v (i : Nat) : FV := f32.decode (leAt b i 4)
  let t := leAt b 24 4
  { lr := v 0, beta1 := v 4, beta2 := v 8, eps := v 12, wd := v 16, gscale := v 20, bc := (leAt b 38 1).testBit 0,
    bc1 := biasCorrection (v 4) t f1, bc2 := biasCorrection (v 8) t f2 }

/-- Bytes of one tile of an update. -/
def TdF.tileBytes (f : TdF) : Nat := 4096 * f.rows * f.cols * fmtBits f.fmt / 8

/-- The rules of DIG for a descriptor: full tiles, stride equal to the row length, a multiple of 64 KiB (R395). -/
def digShape (f : TdF) (digested : Bool) : Bool :=
  decide (f.vrows = 64 ∧ f.vcols = 64 ∧ f.stride * 32 = 8 * f.cols * fmtBits f.fmt) && (!digested || decide (f.tileBytes % 65536 = 0))

/-- The bytes that writes put from a core-space offset on, in order. -/
def writtenBytes (o n : Nat) (ws : List (Nat × Byte)) : List Byte :=
  ((ws.filter (fun w => decide (o ≤ w.1) && decide (w.1 < o + n))).map (fun w => w.2)).take n

/-- A free FP32 value (log entry 5). -/
def State.freeF32 (s : State) (n : Nat) : FV := f32.decode (Config.freeWord (s.fresh + n)).toNat

/-- The start of an UPD.ADAM (R395 to R398). -/
def State.startAdam (s : State) (d c : Nat) (e : QEntry) : Except UFault Plan := do
  let ss := e.ss.toNat
  let dig := e.t.opx.toNat.testBit 0
  let fa ← tdOk e.t.tda e.tda
  let fb ← tdOk e.t.tdb e.tdb
  let fc ← tdOk e.t.tdc e.tdc
  let fd ← tdOk e.t.tdd e.tdd
  let ta ← s.tileAt d c fa .rd fa.denseExtent
  let _ ← s.tileAt d c fa .wr fa.denseExtent
  let tb ← s.tileAt d c fb .rd fb.denseExtent
  let tc ← s.tileAt d c fc .rd fc.denseExtent
  let _ ← s.tileAt d c fc .wr fc.denseExtent
  let td ← s.tileAt d c fd .rd fd.denseExtent
  let _ ← s.tileAt d c fd .wr fd.denseExtent
  check (plainFp32 fa) (.td (some e.t.tda.toNat))
  check (fb.layout = 0 ∧ fb.fmt ≤ 1) (.td (some e.t.tdb.toNat))
  check (fc.layout = 0 ∧ fc.fmt ≤ 1) (.td (some e.t.tdc.toNat))
  check (fd.layout = 0 ∧ fd.fmt = fc.fmt) (.td (some e.t.tdd.toNat))
  check (sameShape fa fd && sameShape fb fd && sameShape fc fd) (.td none)
  check (!dig || (digShape fa true && digShape fb false && digShape fc true && digShape fd true)) (.td none)
  check (field ss 22 10 = 0) (.td none)
  let blocks := if dig then (fa.tileBytes + fc.tileBytes + fd.tileBytes) / 65536 else 0
  let w := field ss 20 2
  let ea := field ss 0 20
  check (s.window d c w ea (64 + 8 * blocks) .rd).isSome (.window w ea)
  check (!dig || (s.window d c w (ea + 64 : Nat) (8 * blocks) .wr).isSome) (.window w (ea + 64))
  let po := (s.window d c w ea (64 + 8 * blocks) .rd).getD 0
  let b := s.bytesAt (coreAddr d c po) 64
  let n := fa.mValid * fa.nValid
  let p := adamOf b (s.freeF32 n) (s.freeF32 (n + 1))
  let vw := s.tileVals d c ta
  let vg := s.tileVals d c tb
  let vm := s.tileVals d c tc
  let vv := s.tileVals d c td
  let at_ (m : List (List FV)) (i j : Nat) : FV := (m.getD i []).getD j .zero
  let out := (List.range fa.mValid).map (fun i => (List.range fa.nValid).map (fun j =>
    p.step (at_ vw i j) (at_ vg i j) (at_ vm i j) (at_ vv i j) (s.freeF32 (i * fa.nValid + j))))
  let sr : Sr := if e.t.opx.toNat.testBit 1 then some (e.seed, ss / 2 ^ 32) else none
  let ww := s.valueWrites d c ta none (out.map (fun r => r.map (fun x => x.1)))
  let wm := s.valueWrites d c tc sr (out.map (fun r => r.map (fun x => x.2.1)))
  let wv := s.valueWrites d c td sr (out.map (fun r => r.map (fun x => x.2.2)))
  let shard := leAt b 28 4
  -- shard block 0 has no leaf digest: its value is free (R400; log entry 5)
  let free (k : Nat) : Nat := (Config.freeWord (s.fresh + n + 2 + 2 * k)).toNat + (Config.freeWord (s.fresh + n + 3 + 2 * k)).toNat * 2 ^ 32
  let leaf (k : Nat) (t : Tile) (ws : List (Nat × Byte)) : List Nat :=
    let blk := leAt b (32 + 2 * k) 2
    ((pieces 65536 (writtenBytes t.base t.f.tileBytes ws)).mapIdx (fun i p =>
      if blk + i = 0 then free k else digestWords (digestSeed shard 0 (blk + i - 1)) (wordsOf p)))
  let ds := if dig then leaf 0 ta ww ++ leaf 1 tc wm ++ leaf 2 td wv else []
  let plan := planOf (ww ++ wm ++ wv ++ (ds.flatMap (leBytes 8)).mapIdx (fun i x => (po + 64 + i, x)))
    (4 * ceilDiv (4096 * fa.rows * fa.cols) 128 + 32 + (if dig then 16 else 0))
  return { plan with used := n + 8 }

end Sys2Proof.Machine
end

