-- ==== Sys2Proof/Machine/Units.lean ====
section
/-! DEFINITION. How a unit starts and completes the instructions of its queue (R90, R107, R108, R126, R128, R131, R151, R185 to R189, R231, R279,
R280). -/

namespace Sys2Proof.Machine

/-- The resources that an instruction occupies while it runs: 0 and 1 the arrays, 2 the matrix-vector path, 3 and 4 their wide ports
(R151, R231). -/
def QEntry.resources (e : QEntry) : List Nat :=
  match e.op with
  | .mma | .ewa => [e.t.arr.toNat, 3 + e.t.arr.toNat]
  | .mvp => [2, 4]
  | .hand => if field e.t.opx.toNat 16 2 = 2 then [2, 4] else [field e.t.opx.toNat 16 2, 3 + field e.t.opx.toNat 16 2]
  | _ => []

/-- Narrow words per cycle of a stream by element format (R279). -/
def streamWords (fmt : Nat) : Nat :=
  (if fmtBits fmt = 32 then 16 else if fmtBits fmt = 16 then 8 else if fmtBits fmt = 8 then 4 else if fmtBits fmt = 6 then 3 else 2) +
    if isMx fmt then 1 else 0

/-- The narrow words per cycle that an instruction reserves (R279, R398, R402). -/
def QEntry.narrow (e : QEntry) : Nat :=
  let w (t : Td) : Nat := streamWords (tdFields t).fmt
  match e.op with
  | .vop =>
    let op := vopOp e.t.opx.toNat
    if op ≤ 24 then w e.tda + (if vopReadsB op then w e.tdb else 0) + (if vopReadsC op then w e.tdc else 0) + w e.tdd else w e.tda + 2
  | .pred => 8
  | .hmerge | .hcheck => 4
  | .hand => 2
  | .updAdam => 8 + 4 * (if (tdFields e.tdc).fmt = 0 then 4 else 2) + (if (tdFields e.tdb).fmt = 0 then 4 else 2)
  | .digest => 17
  | _ => 0

/-- The resources that started instructions of a core hold, borrowed ports among them (R280). -/
def Core.heldResources (c : Core) : List Nat :=
  c.running.flatMap (fun r => r.2.e.resources) ++ c.borrow.flatMap (fun b => (setBits 2 b.2).map (fun p => 3 + p))

/-- Narrow words left unreserved. -/
def Core.narrowLeft (c : Core) : Nat := 32 - (c.rsv.map (fun r => r.2)).foldl (· + ·) 0

/-- Whether a port may be borrowed by an instruction with resources `own`: its units are idle (R280). -/
def Core.portIdle (c : Core) (own : List Nat) (p : Nat) : Bool :=
  let users := if p = 0 then [0, 3] else [1, 2, 4]
  users.all (fun u => !c.heldResources.contains u) && !own.contains (3 + p)

/-- The ports that a reservation borrows, or none where it cannot be met (R280). UPD.ADAM never borrows (R398). -/
def Core.borrowFor (c : Core) (e : QEntry) : Option (List Nat) :=
  let n := e.narrow
  if n ≤ c.narrowLeft then some []
  else if e.op = .updAdam then none
  else
    let need := ceilDiv (n - c.narrowLeft) 16
    let ps := ((List.range 2).filter (c.portIdle e.resources)).take need
    if ps.length = need then some ps else none

/-- The counts of a wait list by semaphore: counts of one semaphore add (R107). -/
def waitNeed (w : Word) : Tab Nat := (usedSlots w).foldl (fun t x => tabSet t x.1 (tabGet t x.1 0 + x.2)) []

/-- The tokens of a wait list are taken, all together. -/
def Core.takeAll (c : Core) (w : Word) : Core := (waitNeed w).foldl (fun c x => c.take x.1 x.2) c

/-- The tokens are given back (R131). -/
def Core.giveBack (c : Core) (w : Word) : Core := (waitNeed w).foldl (fun c x => c.untake x.1 x.2) c

/-- The channel of a unit index (R89, R124). -/
def unitChan (q unit : Nat) : Nat := chanOf q (unit - 6)

/-- What starting an instruction on a data unit comes to. -/
def State.startPlan (s : State) (d c : Nat) (e : QEntry) : Except UFault Plan :=
  match e.op with
  | .mma => s.startMma d c e
  | .mvp => s.startMvp d c e
  | .ewa => s.startEwa d c e
  | .vop => s.startVop d c e
  | .hand => s.startHand d c e
  | .hmerge => s.startHmerge d c e
  | .hcheck => s.startHcheck d c e
  | .pred => s.startPred d c e
  | .updAdam => s.startAdam d c e
  | .digest => s.startDigest d c e
  | _ => .ok (planOf [] 1)

/-- The descriptor that a DRAY.GO copies: its address, or the fault (R124). -/
def State.goAt (s : State) (d q : Nat) (e : QEntry) : Except UFault Nat :=
  let ea := e.ss.toInt
  match s.seqResolve d q e.x.win.toNat ea 64 .rd with
  | none => .error (.window e.x.win.toNat (off48 ea))
  | some a => if ea % 64 = 0 then .ok a else .error (.misaligned (off48 ea))

/-- The head of a unit's queue leaves it; an instruction at which the sequencer stalls then takes the free place, with its registers as they stand at that
dispatch (R90, R91). -/
def State.popQueue (s : State) (d q unit : Nat) : State :=
  let s := s.modCore d q (fun c => { c with queues := tabSet c.queues unit ((c.queue unit).drop 1) })
  match (s.core d q).blocked with
  | .queueFull u e =>
    if u = unit then ((s.modCore d q (fun c => { c.enqueue unit (s.capture d q e) with blocked := .none })).retire d q ((s.core d q).pc + 24)) else s
  | _ => s

/-- The unit number that SEQ_EXC and events carry for a unit (R133, R451); a control core's channels use that of channel 0. -/
def unitCode (q unit : Nat) : Nat := if isCtl q then 7 else unit + 1

/-- A started instruction faults: it writes nothing and its tokens are given back (R126, R131, R187). -/
def State.unitFault (s : State) (d q unit : Nat) (e : QEntry) (f : UFault) : State :=
  let items := s.faultItems f
  let first := !s.flag (SEQ_EXC_VALID d q)
  let s := ((s.modCore d q (fun c => c.giveBack e.wait)).used 1).programFault d q f.num (unitCode q unit) e.pc items
  if first then
    s.modCore d q (fun c => { c with excWord := e.words.headD 0, excOps := [e.tdd, e.tda, e.tdb, e.tdc], excRest := e.words.drop 1, excSs := e.ss })
  else s

/-- Parity errors that a started instruction meets: a replay for each, and none left when they exceed REPLAY_MAX (R128). The address of the
word is not the command's to say: a free value (log entry 5). -/
def State.unitReplays (s : State) (d q unit had par : Nat) : State × Bool :=
  let m := s.replayMax d q
  let n := min par (m - had)
  let s := (s.replays d q (unitCode q unit) ((Config.freeWord s.fresh).toNat % 0xD0000) n).used 1
  (s, decide (had + par ≤ m))

/-- A bit of an ACC_STATUS field is set. -/
def State.setAccBit (s : State) (f : FRef) (g : Nat) : State := s.wr f (s.rd f ||| 2 ^ g)

/-- The ports and words that a started instruction reserves on its core (R279, R280). -/
def Core.reserve (c : Core) (unit : Nat) (e : QEntry) (ports : List Nat) : Core :=
  { c with rsv := if e.narrow = 0 then c.rsv else tabSet c.rsv unit (min e.narrow c.narrowLeft),
           borrow := if ports = [] then c.borrow else tabSet c.borrow unit (maskOf ports) }

/-- A data unit starts an instruction: its group opens or continues, its ports and words are reserved, and its result is held back until
it completes (R128, R185, R280). -/
def State.beginRun (s : State) (d c unit : Nat) (e : QEntry) (p : Plan) (replays : Nat) (ports : List Nat) : State :=
  let run : Running := { e := e, res := p.res, replays := replays, start := s.frame.cycle, before := s.mem }
  let s := s.modCore d c (fun x =>
    { x.reserve unit e ports with
             running := tabSet x.running unit run,
             groups := match p.group with
               | some (g, y) => tabSet x.groups g y
               | none => x.groups,
             resident := match p.resident with
               | some (a, some (t, _)) => tabSet x.resident a t
               | some (a, none) => tabDel x.resident a
               | none => x.resident,
             stat := match p.resident with
               | some (a, some (_, w)) => tabSet x.stat a w
               | some (a, none) => tabDel x.stat a
               | none => x.stat })
  let s := match p.group with
    | some (g, y) => if y.bx then s.setAccBit (ACC_STATUS_BX d c) g else s
    | none => s
  let s := p.counts.foldl (fun s k => s.count k.1 k.2) s
  (s.used p.used).raiseAll p.events

/-- A transfer instruction other than DRAY.GO starts: its order reaches the channel (R124, R333 to R335). -/
def State.orderChan (s : State) (d n : Nat) (op : UOp) : State :=
  match op with
  | .drayPause => s.pauseChan d n
  | .drayResume => s.resumeChan d n
  | .drayCancel => s.cancelChan d n
  | _ => s

/-- Whether the head of a unit's queue finds what it needs: the unit is free, its resources and reservation can be had, its channel has room, and its wait
list is met (R90, R107, R151, R280, R309). A control core that has stopped starts nothing (R129). -/
def State.headReady (s : State) (d q unit : Nat) (e : QEntry) : Bool :=
  let c := s.core d q
  s.dieUp d && s.seqExists d q && !c.fenced && !c.heldFull && !(isCtl q && c.parked) && !c.running.any (fun r => decide (r.1 = unit)) &&
    !s.producerWaits d (if isCtl q then 0xFF else q) (unitCode q unit) 0 &&
    e.resources.all (fun r => !c.heldResources.contains r) && (c.borrowFor e).isSome &&
    (decide (e.op ≠ .drayGo) || s.chanRoom d (unitChan q unit)) && (waitNeed e.wait).all (fun x => decide (x.2 ≤ c.semVal x.1))

/-- Whether the head of a unit's queue starts next: it finds what it needs, and no unit before it in the order of R109 does (R109, R112, R151, R187). -/
def State.canStart (s : State) (d q unit : Nat) (e : QEntry) : Bool :=
  s.headReady d q unit e &&
    !(s.core d q).queues.any (fun x => decide (x.1 < unit) && match x.2 with
      | y :: _ => s.headReady d q x.1 y
      | [] => false)

/-- Whether an instruction faults where it would start (R126). -/
def State.startFaults (s : State) (d q : Nat) (e : QEntry) : Bool :=
  if e.op = .drayGo then (match s.goAt d q e with
    | .error _ => true
    | .ok _ => false)
  else match s.startPlan d q e with
    | .error _ => true
    | .ok _ => false

/-- A unit takes the tokens of its head, where the head can start. -/
def State.unitTake (s : State) (d q u : Nat) : State :=
  match (s.core d q).queue u with
  | e :: _ =>
    if s.headReady d q u e && !s.startFaults d q e then s.modCore d q (fun c => (c.takeAll e.wait).reserve u e ((c.borrowFor e).getD []))
    else s
  | [] => s

/-- The core once the units whose heads can start have taken their tokens, in unit order: what the takes of the sequencer find in the cycle (R109). -/
def State.unitsTake (s : State) (d q : Nat) : State := (List.range 38).foldl (fun s u => s.unitTake d q u) s

/-- A semaphore as the sequencer's take finds it: less what the units take first (R109). -/
def State.semLeft (s : State) (d q n : Nat) : Nat := (s.unitsTake d q).semv d q n

/-- A dispatched instruction at the head of its unit's queue starts (R107). `par` counts the parity errors that its reads meet at once. -/
def execInstrStart (d q unit par : Nat) (s : State) : Ans :=
  match (s.core d q).queue unit with
  | [] => .next s
  | e :: _ =>
    if s.canStart d q unit e = false then .next s
    else
      let ports := ((s.core d q).borrowFor e).getD []
      let s := (s.modCore d q (fun c => c.takeAll e.wait)).popQueue d q unit
      if e.op = .drayGo then
        match s.goAt d q e with
        | .error f => .next (s.unitFault d q unit e f)
        | .ok a =>
          let r := s.unitReplays d q unit 0 par
          if r.2 then
            let raw := (List.range 8).map (fun i => BitVec.ofNat 64 (s.natAt (a + 8 * i) 8))
            .next (r.1.accept d (unitChan q unit) q e.item raw e.post e.late)
          else .next ((r.1.modCore d q (fun c => c.giveBack e.wait)).exhausted d q (unitCode q unit) e.pc)
      else
        match s.startPlan d q e with
        | .error f => .next (s.unitFault d q unit e f)
        | .ok p =>
          let r := s.unitReplays d q unit 0 par
          if r.2 then .next ((r.1.beginRun d q unit e p par ports).orderChan d (unitChan q unit) e.op)
          else .next ((r.1.modCore d q (fun c => c.giveBack e.wait)).exhausted d q (unitCode q unit) e.pc)

/-- Completion settles the group of an instruction: its flags, its accumulator tiles, all of which it holds until it closes, and its closing with
EV_ACC_SATURATE (R145, R185, R188). A group that R186 has closed meanwhile stays closed. -/
def State.endGroup (s : State) (d c unit : Nat) (g : GroupEnd) : State :=
  let x := tabGet (s.core d c).groups g.g groupReset
  if x.isOpen = false then s
  else
    let ovf := x.ovf || g.ovf
    let s := if ovf then s.setAccBit (ACC_STATUS_OVF d c) g.g else s
    if g.close then
      let s := s.modCore d c (fun y => { y with groups := tabSet y.groups g.g { x with ovf := ovf }.closed })
      if ovf ∨ x.bx then s.raise (satEv d c (unit + 1) g.g { x with ovf := ovf }) else s
    else s.modCore d c (fun y => { y with groups := tabSet y.groups g.g { x with ovf := ovf, held := g.held.toList ++ x.held.filter (fun t => decide (some t ≠ g.held)) } })

/-- The reservation, ports and unit of an instruction are free again. -/
def State.release (s : State) (d q unit : Nat) : State :=
  s.modCore d q (fun c => { c with running := tabDel c.running unit, rsv := tabDel c.rsv unit, borrow := tabDel c.borrow unit })

/-- A started instruction can complete: a transfer instruction when its effect is in place (R108, R124). -/
def State.effectIn (s : State) (d n : Nat) (op : UOp) : Bool :=
  match op with
  | .drayPause => decide ((s.chan d n).st ≠ .running)
  | .drayCancel => decide ((s.chan d n).q = [])
  | _ => true

/-- The bytes of a tile that an instruction reads, as core-space offsets and lengths: its lines and scale bytes, or the slots of a compressed operand
(R94, R171, R207, R554). -/
def State.tileBytes (s : State) (d c : Nat) (f : TdF) : List (Nat × Nat) :=
  let o := s.rd (SPAD_WIN_BASE d c f.win) + f.base
  (if isComp f.layout then [(o, f.extent)] else (List.range f.lines.1).map (fun i => (o + i * f.stride * 32, ceilDiv (f.lines.2 * fmtBits f.fmt) 8))) ++
    (if isMx f.fmt then [(o + f.scale, 128 * f.rows * f.cols)] else [])

/-- The descriptors whose tiles an instruction reads (R110): of a product its operands, the parameter block it uses, and its partial under CONT. -/
def QEntry.readTiles (e : QEntry) : List TdF :=
  let o := mOpx (if e.op = .hand then field e.t.opx.toNat 0 14 else e.t.opx.toNat)
  let stage := if !o.part && (o.scale || o.bias || decide (o.act = 4)) then [tdFields e.tdc] else []
  let part := if o.cont then [partialTd (tdFields e.tdd) e.ss.toNat] else []
  match e.op with
  | .mma => tdFields e.tda :: (if o.keep then [] else [tdFields e.tdb]) ++ stage ++ part
  | .mvp | .hand => tdFields e.tda :: tdFields e.tdb :: stage ++ part
  | .ewa => [tdFields e.tda, tdFields e.tdb]
  | .vop =>
    let op := vopOp e.t.opx.toNat
    tdFields e.tda :: (if vopReadsB op then [tdFields e.tdb] else []) ++ (if vopReadsC op then [tdFields e.tdc] else [])
  | .pred => tdFields e.tda :: (if field e.t.opx.toNat 0 3 = 2 then [tdFields e.tdc] else [])
  | .updAdam => [tdFields e.tda, tdFields e.tdb, tdFields e.tdc, tdFields e.tdd]
  | .hmerge | .hcheck | .digest => [tdFields e.tda]
  | _ => []

/-- Whether a byte that a started instruction reads was stored to since it started: it then reads the old or the new byte (R110, R234). -/
def State.operandsChanged (s : State) (d c : Nat) (r : Running) : Bool :=
  !decide (s.mem = r.before) && (r.e.readTiles.flatMap (s.tileBytes d c)).any (fun x => (List.range x.2).any (fun i =>
    decide (cellRead 0 r.before (coreAddr d c (x.1 + i)) ≠ cellRead 0 s.mem (coreAddr d c (x.1 + i)))))

/-- A result whose values are free (log entry 9): what an instruction writes when its operands were stored to while it ran. -/
def State.freeResult (s : State) (r : Result) : Result :=
  { r with writes := r.writes.mapIdx (fun i w => (w.1, Config.freeByte (s.fresh + i)))
           group := r.group.map (fun g => { g with ovf := (Config.freeWord s.fresh).getLsbD 0 }) }

/-- The result of an instruction at its completion (R110). -/
def State.resultOf (s : State) (d c : Nat) (r : Running) : State × Result :=
  if s.operandsChanged d c r then (s.used r.res.writes.length, s.freeResult r.res) else (s, r.res)

/-- The writes of a result into the core's space (R128). -/
def State.applyWrites (s : State) (d c : Nat) (ws : List (Nat × Byte)) : State :=
  match ws with
  | [] => s
  | (o, b) :: r => (s.setByte (coreAddr d c o) b).applyWrites d c r

/-- The result of DRAY.STAT, the channel status word, in the register that SA names (R124). -/
def State.statResult (s : State) (d q unit : Nat) (e : QEntry) : State :=
  if e.op = .drayStat then s.setS d q e.x.sa (s.chanStatus d (unitChan q unit)) else s

/-- Whether the item that dispatched an instruction has stopped. -/
def State.itemStopped (s : State) (i : Option Nat) : Bool :=
  match i with
  | some k => decide ((s.item k).st = .stopped) || decide ((s.item k).st = .aborted)
  | none => false

/-- A started instruction completes: its results are written, its group settled, and in the cycle after that its unit is free and its post list applied
(R108, R128, R154). `par` counts the parity errors met since it started; each restarts it. -/
def execInstrComplete (d q unit par : Nat) (s : State) : Ans :=
  match (s.core d q).running.find? (fun r => decide (r.1 = unit)) with
  | none => .next s
  | some (_, run) =>
    let n := unitChan q unit
    let s := if run.e.op = .drayPause then s.settlePause d n else s
    if s.dieUp d = false ∨ (s.core d q).fenced ∨ (s.core d q).heldFull ∨ s.effectIn d n run.e.op = false then .next s
    else
      let r := s.unitReplays d q unit run.replays par
      if r.2 = false then
        let s := r.1.release d q unit
        let s := (s.modCore d q (fun c => c.giveBack run.e.wait)).exhausted d q (unitCode q unit) run.e.pc
        .next (s.abandonGroups d q)
      else
        let last := run.start + (run.res.cycles * (1 + run.replays + par) : Nat)
        let x := (r.1.passTo last.toNat).resultOf d q run
        let s := x.1.applyWrites d q x.2.writes
        let s := x.2.counts.foldl (fun s k => s.count k.1 k.2) s
        let s := (s.statResult d q unit run.e).raiseAll x.2.events
        let s := match x.2.group with
          | some g => s.endGroup d q unit g
          | none => s
        let s := ((s.passTo (last + 1).toNat).release d q unit).postList d q run.e.post
        .next (if s.itemStopped run.e.item then s.abandonGroups d q else s)

end Sys2Proof.Machine
end

