-- ==== Sys2Proof/Machine/Semaphore.lean ====
section
/-! DEFINITION. The sequencer's takes (R109, R116): SEM.WAIT and SEM.TRY find a semaphore as the units of the core leave it. -/

namespace Sys2Proof.Machine

/-- SEM.WAIT: take the count, or stall until it is present, after the units have taken (R109, R116). A count of 0 faults where the instruction executes, as of SEM.TRY and
SEM.POST (DEDUCED, log entry 128. Unsafe). -/
def execSemWait (h : Hdr) (y : FmtY) (s : State) : Ans :=
  .next (s.issue h 8 (legalY h.seq 0 true true false false y) true (fun s =>
    let n := y.sem.toNat
    let k := s.countY h.die h.seq y
    if k = 0 then .fault 64 []
    else
      let s := s.nameSem h.die h.seq n
      if k ≤ s.semLeft h.die h.seq n then .done (s.modCore h.die h.seq (fun c => c.take n k))
      else .stall (s.modCore h.die h.seq (fun c => { c with blocked := .semWait n k }))))

/-- A stalled SEM.WAIT finds its semaphore sufficient, takes the count and completes (R109, R116). -/
def execSemWaitSatisfied (d q : Nat) (s : State) : Ans :=
  match (s.core d q).blocked with
  | .semWait n k =>
    if s.stallReady d q ∧ k ≤ s.semLeft d q n then
      .next ((s.modCore d q (fun c => { c.take n k with blocked := .none })).retire d q ((s.core d q).pc + 8))
    else .next s
  | _ => .next s

/-- SEM.TRY: never stalls (R109, R116). -/
def execSemTry (h : Hdr) (y : FmtY) (s : State) : Ans :=
  .next (s.issue h 8 (legalY h.seq 7 true true false false y) true (fun s =>
    let n := y.sem.toNat
    let k := s.countY h.die h.seq y
    let pd := y.sd.truncate 3
    if k = 0 then .fault 64 []
    else
      let s := s.nameSem h.die h.seq n
      if k ≤ s.semLeft h.die h.seq n then .done ((s.modCore h.die h.seq (fun c => c.take n k)).setP h.die h.seq pd true)
      else .done (s.setP h.die h.seq pd false)))

end Sys2Proof.Machine
end

