-- ==== Sys2Proof/Machine/Items.lean ====
section
/-! DEFINITION. Work items: their entry and end (R98 to R100), parking and resumption (R123), stand-ins (R459), the return of leases (R122,
R376, R377), aborts (R70, R131), and what runs again (R552). -/

namespace Sys2Proof.Machine

/-- A core that starts no work item: parked, fenced, or stopped over a full ledger (R456, R458, R459). -/
def State.coreOut (s : State) (d c : Nat) : Bool := (s.core d c).parked || (s.core d c).fenced || (s.core d c).heldFull

/-- The stand-in of a core (R459). -/
def State.standIn (s : State) (d c : Nat) : Option Nat :=
  ((List.range s.nCores).map (fun i => (c + 1 + i) % s.nCores)).find? (fun k => decide (k ≠ c) && !s.coreOut d k)

/-- The core on which the work entries of a core run. -/
def State.runsOn (s : State) (d c : Nat) : Option Nat := if s.coreOut d c then s.standIn d c else some c

/-- The rank of a work item on a core: its own items first, then those it stands in for, in ITEM order (R100, R459). -/
def itemRank (rc k : Nat) : Nat := (if k / 8 % 128 = rc then 0 else 1024) + k % 8 * 128 + k / 8 % 128

/-- Whether an item still has to run, on a given core, before those of higher rank (R100). A stopped item bars the later ones of the
core it stopped on while that core is not parked. -/
def State.barsOn (s : State) (d rc k : Nat) (x : Item) : Bool :=
  decide (k / 1024 = d) &&
    (match x.st with
     | .waiting => decide (s.runsOn d (k / 8 % 128) = some rc)
     | .parked => x.due && decide (s.runsOn d (k / 8 % 128) = some rc)
     | .running => decide (x.runCore = rc)
     | .ended => decide (x.runCore = rc)
     | .stopped => decide (x.runCore = rc)
     | _ => false)

/-- The first cycle after the tick in which new work issues: H + 1, or later under a throttle cap (R489). -/
def State.issueCycle (s : State) : Nat :=
  let h := s.holdCycles
  h + 1 + (16 - s.rd LAMP_PWR_TEAM_CAP) * (s.frameLen * 1024 - h - 1) / 16

/-- Whether a work item can start or resume on a core now: the hold is over, the job is not paused, the core is free, and no item of lower rank
is to come first. -/
def State.itemTurn (s : State) (d rc k : Nat) : Bool :=
  s.dieUp d && decide (rc < s.nCores) && !s.coreOut d rc && (s.core d rc).cur.isNone && !s.frame.inHold && decide (s.rd JOB_STATUS_STATE ≠ 3) &&
    s.items.all (fun e => decide (e.1 = k) || !s.barsOn d rc e.1 e.2 || decide (itemRank rc k < itemRank rc e.1))

/-- The values of s1 to s5 at entry and at resumption (R98, R123). -/
def State.entryRegs (s : State) (d c : Nat) (e : WorkEntry) (frame : Nat) : State :=
  ((((s.setS d c 1 (BitVec.ofNat 64 e.first)).setS d c 2 (BitVec.ofNat 64 e.count)).setS d c 3 (BitVec.ofNat 64 e.arg)).setS d c 4
    (BitVec.ofNat 64 (e.item % 8 + (e.flags % 2) <<< 16 + e.counter <<< 32))).setS d c 5 (BitVec.ofNat 64 frame)

/-- The takes of runs that are over: what they are granted returns at once (R376). -/
def State.orphanTakes (s : State) (p : Nat → Bool) : State :=
  { s with cores := s.cores.map (fun e => (e.1, { e.2 with takes := e.2.takes.map (fun t => if t.item.any p then { t with item := none } else t) })) }

/-- A parked item ends without resuming: its open groups close with their events, its accumulator tiles are freed, and the groups are counted (R123, R186,
R188). -/
def State.endParked (s : State) (k : Nat) (x : Item) : State :=
  match x.ctx with
  | none => s
  | some z =>
    let d := k / 1024
    let gs := z.groups.filter (fun g => g.2.isOpen)
    ((s.modCore d x.runCore (fun c => { c with kept := tabDel c.kept k })).count (ACC_STATUS_ABANDONED d x.runCore) gs.length).saturated d x.runCore gs

/-- A core takes a work item with the entry state of R98. -/
def State.enterItem (s : State) (d rc k : Nat) : State :=
  let x := s.item k
  let s := (s.orphanTakes (fun i => decide (i = k))).endParked k x
  let s := s.modCore d rc (fun c =>
    { c with pc := BitVec.ofNat 64 x.entry.entry, s := [], td := [], p := 0, runlen := BitVec.allOnes 64, seed := 0, cur := some k,
             blocked := .none, groups := c.groups.map (fun g => (g.1, g.2.closed)) })
  let s := s.modItem k (fun i =>
    { i with st := .running, runCore := rc, start := some s.frameSeq, leases := [], retAll := false, due := false, ctx := none })
  (if x.entry.leased then s else s.takenFor x.entry).entryRegs d rc x.entry s.frameSeq

/-- A work item starts (R98, R100, R459). A parked item whose core is out starts from ENTRY on the stand-in. Under a throttle cap
the cycles up to its first cycle pass first (R489); an item that runs again or is overrun is not delayed. -/
def execWorkItemStart (d c i : Nat) (s : State) : Ans :=
  let k := itemKey d c i
  let x := s.item k
  let can := decide (x.st = .waiting) || (decide (x.st = .parked) && x.due && s.coreOut d c)
  match s.runsOn d c with
  | none => .next s
  | some rc =>
    if can ∧ s.itemTurn d rc k then
      .next ((if x.overrun ∨ x.rerun then s.passTo (s.holdCycles + 1) else s.passTo s.issueCycle).enterItem d rc k)
    else .next s

/-- A parked item resumes at the instruction after TICK.WAIT with its open groups, governed by its new work entry (R123, R186, R391). sd takes the frame
sequence number after s1 to s5 are loaded. -/
def execItemResume (d c i : Nat) (s : State) : Ans :=
  let k := itemKey d c i
  let x := s.item k
  match x.ctx with
  | none => .next s
  | some z =>
    if x.st = .parked ∧ x.due ∧ s.itemTurn d c k then
      let s := s.passTo s.issueCycle
      let s := s.modCore d x.runCore (fun y => { y with kept := tabDel y.kept k })
      let s := s.modCore d c (fun y =>
        { y with pc := z.pc, s := z.s, td := z.td, p := z.p, runlen := z.runlen, seed := z.seed, cur := some k, blocked := .none,
                 groups := (z.groups.filter (fun g => g.2.isOpen)).foldl (fun t g => tabSet t g.1 g.2) y.groups })
      let s := s.modItem k (fun i =>
        { i with st := .running, runCore := c, start := some s.frameSeq, leases := [], retAll := false, due := false, ctx := none })
      .next (((if x.entry.leased then s else s.takenFor x.entry).entryRegs d c x.entry s.frameSeq).setS d c (BitVec.ofNat 5 z.sd) (BitVec.ofNat 64 s.frameSeq))
    else .next s

/-- What an item has in the Dray channels is from now on of an earlier run of it. -/
def State.markPrior (s : State) (k : Nat) : State :=
  { s with chans := s.chans.map (fun e => (e.1, { e.2 with q := e.2.q.map (fun r => if r.owner = some k then { r with prior := true } else r) })) }

/-- An item that runs again waits for its start from ENTRY. -/
def State.rerunItem (s : State) (k : Nat) : State :=
  let x := s.item k
  let (d, _, _) := itemAt k
  let s := s.markPrior k
  let s := if (s.core d x.runCore).cur = some k then s.modCore d x.runCore (fun c => { c with cur := none }) else s
  s.modItem k (fun i => { i with st := .waiting, rerun := true, redo := false, back := false, overrun := false })

/-- Whether an item runs again in a slip frame (R552): one that is complete, parked, stopped or aborted. An item stopped by a program fault does not
(R130). -/
def Item.again (x : Item) : Bool :=
  !x.faulted && x.redo &&
    (match x.st with
     | .complete => true
     | .parked => x.ctx.isSome
     | .stopped => true
     | .aborted => true
     | _ => false)

/-- An item that was withheld while it ran has ended: it runs again in the slip frame in progress (R68, R85, R552; log entry 108). -/
def State.rerunNow (s : State) (k : Nat) : State := if s.flag FRAME_STATUS_IN_SLIP ∧ (s.item k).again then s.rerunItem k else s

/-- An item that has reached END, or is parking, is complete when every instruction it dispatched has completed and posted (R99,
R123). A parked item keeps its open groups and their accumulator tiles (R186). -/
def execWorkItemComplete (d c i : Nat) (s : State) : Ans :=
  let k := itemKey d c i
  let x := s.item k
  let rc := x.runCore
  if (s.core d rc).cur ≠ some k ∨ s.itemBusy d rc k ∨ s.dieUp d = false then .next s
  else
    let y := s.core d rc
    match x.st with
    | .ended =>
      .next ((((s.abandonGroups d rc).modCore d rc (fun y => { y with cur := none })).modItem k (fun i => { i with st := .complete })).rerunNow k)
    | .parked =>
      let sd := match y.blocked with
        | .tickWait sd => sd
        | _ => 0
      let z : Ctx := { pc := y.pc, s := y.s, td := y.td, p := y.p, runlen := y.runlen, seed := y.seed, groups := y.groups, sd := sd }
      .next (((s.modItem k (fun i => { i with ctx := some z })).modCore d rc (fun y =>
        { y with cur := none, blocked := .none, kept := tabSet y.kept k (y.groups.filter (fun g => g.2.isOpen)),
                 groups := y.groups.map (fun g => (g.1, g.2.closed)) })).rerunNow k)
    | _ => .next s

/-- The tiles of an implicit lease range that are not reported done (R121). -/
def Item.undone (x : Item) : List Nat := ((List.range x.entry.count).map (fun i => x.entry.first + i)).filter (fun t => !x.done.contains t)

/-- The tiles that an item holds: its lease table, or its implicit range (R98, R121). -/
def Item.holds (x : Item) : List Nat := if x.entry.leased then x.leases else if x.retAll then [] else x.undone

/-- Writes of an item's Dray descriptors are late from now on, of those that still wait to start too (R377). -/
def State.markLate (s : State) (k ctr : Nat) : State :=
  { s with
    chans := s.chans.map (fun e => (e.1, { e.2 with q := e.2.q.map (fun r => if r.owner = some k ∧ r.late.isNone then { r with late := some ctr } else r) }))
    cores := s.cores.map (fun e => (e.1, { e.2 with queues := e.2.queues.map (fun u => (u.1, u.2.map (fun x =>
      if x.item = some k ∧ x.late.isNone then { x with late := some ctr } else x))) })) }

/-- A LEASE.DONE of an item that no longer runs, in its completion wait, is refused when the tile it reports returns (R121, R377). -/
def State.refuseWaiting (s : State) (k : Nat) (ts : List Nat) : State :=
  let (d, c, _) := itemAt k
  let x := s.item k
  match (s.core d x.runCore).blocked with
  | .leaseDone t pd =>
    if (s.core d x.runCore).cur = some k ∧ x.st ≠ .running ∧ ts.contains t then
      let s := (s.modCore d x.runCore (fun y => { y with blocked := .none })).setP d x.runCore (BitVec.ofNat 3 pd) false
      let s := if x.entry.leased then s.accum (WORK_CTR_REFUSED_REFUSED d x.entry.counter) 1 else s
      s.raiseFor d (mkEv 80 d c 0 x.entry.counter [(2, x.entry.ctrName), (4, t)]) none
    else s
  | _ => s

/-- EV_LEASE_ABANDONED for each of an item's tiles (R122). -/
def State.abandoned (s : State) (d c ctr : Nat) (ts : List Nat) : State :=
  match ts with
  | [] => s
  | t :: r => (s.raiseFor d (mkEv 81 d c 0 (ctr % 1024) [(2, ctr), (4, t)]) none).abandoned d c ctr r

/-- What an item holds returns (R376): out of HELD, into RET and the return list of its counter. -/
def State.returnLeases (s : State) (k : Nat) (abandon : Bool) : State :=
  let (d, c, _) := itemAt k
  let x := s.item k
  let ts := x.holds
  let ctr := x.entry.counter
  let s := if abandon then s.abandoned d c x.entry.ctrName ts else s
  let s := if x.entry.leased then
      ts.foldl (fun s t => ((s.wr (WORK_CTR_HELD_HELD d ctr) (s.rd (WORK_CTR_HELD_HELD d ctr) - 1)).count (WORK_CTR_FRAME_RET d ctr) 1).setRlist d ctr
        (insertAsc t (s.rlist d ctr))) s
    else s
  let s := s.modItem k (fun i =>
    { i with leases := [], returned := ts.foldl (fun l t => insertAsc t l) i.returned, retAll := true, lost := i.lost || decide (ts ≠ []) })
  if ts = [] then s else (s.markLate k x.entry.ctrName).refuseWaiting k ts

/-- Whether the leases of an item return at the tick (R376), and whether it abandoned them at END. -/
def State.leaseReturn (s : State) (k : Nat) (x : Item) : Option Bool :=
  let d := k / 1024
  if x.retAll then none
  else match x.st with
    | .stopped => some false
    | .ended => some true
    | .complete => some true
    | .running => if (s.core d x.runCore).fenced ∨ (s.core d x.runCore).heldFull ∨ (s.die d).fenced then some false else none
    | _ => none

/-- Every lease that returns at the tick does so (R375, R376). -/
def State.returnAll (s : State) : State :=
  s.items.foldl (fun t e => match s.leaseReturn e.1 e.2 with
    | some a => t.returnLeases e.1 a
    | none => t) s

/-- A work item is aborted at its next instruction boundary (R70, R131, R186): what it queued is discarded, and its leases return at once. A parked
item is not aborted. -/
def State.abortItem (s : State) (k : Nat) : State :=
  let x := s.item k
  let (d, _, _) := itemAt k
  let rc := x.runCore
  let here := decide ((s.core d rc).cur = some k)
  let s := if here then (s.modCore d rc Core.stopWork).abandonGroups d rc else s
  let s := (s.modItem k (fun i => { i with st := .aborted })).returnLeases k false
  if here then s.modCore d rc (fun c => { c with cur := none, blocked := .none }) else s

/-- Every running work item is aborted. -/
def State.abortAll (s : State) : State :=
  s.items.foldl (fun t e => if e.2.st = .running ∨ e.2.st = .ended ∨ e.2.st = .stopped then t.abortItem e.1 else t) s

/-- Tiles pending of an item (R553): those it holds. -/
def Item.pendingTiles (x : Item) : Nat := x.holds.length

/-- Whether an item is incomplete at the tick, so overrun (R50, R100, R123). -/
def Item.incomplete (x : Item) : Bool :=
  match x.st with
  | .waiting => true
  | .running => true
  | .ended => true
  | .parked => x.due || x.ctx.isNone
  | _ => false

/-- A slip cause of the module's report (R52). -/
def State.addCause (s : State) (c : BitVec 5) : State := { s with frame := { s.frame with causes := s.frame.causes ||| c } }

/-- An incomplete item of a die that serves is marked overrun, with EV_FRAME_OVERRUN charged to it (R71). -/
def State.overrun (s : State) (k : Nat) (x : Item) : State :=
  let (d, c, i) := itemAt k
  if x.incomplete ∧ s.dieUp d then
    let s := (s.modItem k (fun i => { i with overrun := true })).count FRAME_COUNTS_OVERRUNS 1
    let s := s.addCause 1
    s.raiseFor d (mkEv 5 d c 0 0 [(1, c), (1, i), (4, x.pendingTiles)]) (some k)
  else s

/-- Incomplete work items are marked overrun (R50). -/
def State.overrunAll (s : State) : State := s.items.foldl (fun s e => s.overrun e.1 e.2) s

/-- At the tick cycle it is settled which items run again in a slip frame (R552): leases of it returned, or an event not marked 1* withheld a
region it names. What is raised from now on belongs to the new frame (R35). -/
def Item.settle (x : Item) : Item :=
  let h := x.hard && decide (x.entry.regions ≠ [])
  { x with redo := x.redo || x.lost || h, back := x.back || h, charged := false, hard := false, lost := false, last := x.use, use := useNone }

/-- An item that R85 withholds (R552). -/
def Item.withhold (x : Item) : Item := { x with redo := true, back := true }

/-- The tiles that an item reported done are taken back (R552). `noList` lists the counters that R85 reinitialises. -/
def State.takeBack (s : State) (k : Nat) (noList : List Nat) : State :=
  let (d, _, _) := itemAt k
  let x := s.item k
  let e := x.entry
  let s := x.done.foldl (fun s t =>
    let s := e.regions.foldl (fun s r => s.modRegion r (fun y => { y with done := y.done - 1 })) s
    if e.leased ∧ ¬ noList.contains (ctrKey d e.counter) then s.setRlist d e.counter (insertAsc t (s.rlist d e.counter)) else s) s
  s.modItem k (fun i => { i with done := [], back := false })

/-- Whether the tiles of an item are taken back at cycle H (R552): it runs again, or it still runs and is to run again after that. -/
def Item.takenBack (x : Item) : Bool := x.back && (x.again || (!x.faulted && x.onCore))

/-- At cycle H of a tick, tiles of items that an error or R85 withheld are taken back (R552). -/
def State.takeBackAll (s : State) (noList : List Nat) : State :=
  s.items.foldl (fun s e => if e.2.takenBack then s.takeBack e.1 noList else s) s

/-- In a slip frame the items of R552 run again. -/
def State.rerunAll (s : State) : State := s.items.foldl (fun s e => if e.2.again then s.rerunItem e.1 else s) s

end Sys2Proof.Machine
end

