-- ==== Sys2Proof/Machine/Depot.lean ====
section
/-! DEFINITION. The memory front end of a die at work: requests served from a pinned region, the cache or LPDDR6 (R295, R296, R299), their tags and their order
(R306 to R308), and the reads of the LPDDR6 channels (R304). -/

namespace Sys2Proof.Machine

/-- Whether the Depot of a die waits with an event record for the full FIFO (R34, R503). -/
def State.depotWaits (s : State) (d : Nat) : Bool :=
  (s.die d).fifoWait.any (fun w => decide (field w.tag.toNat 8 8 = 1) && decide (leAt w.data 6 1 = 19))

/-- Whether an LPDDR6 controller waits with an event record: that of its channel, which an uncorrectable read names by its address. -/
def State.lpddrWaits (s : State) (d ch : Nat) : Bool :=
  (s.die d).fifoWait.any (fun w => decide (field w.tag.toNat 8 8 = 1) && decide (leAt w.data 6 1 = 20) &&
    (if leAt w.data 0 2 = 117 then decide (chanOfAddr (leAt w.data 16 6) = ch) else decide (leAt w.data 4 2 = ch)))

/-- PEAK follows the tags held (R308); one more is held by a request that is served at once. -/
def State.peak (s : State) (d : Nat) : State := s.wr (MEM_TAGS_PEAK d) (max (s.rd (MEM_TAGS_PEAK d)) (s.die d).reqs.length)

/-- A request holds a tag until its data has left the Depot or has been placed (R307, R308), and reaches the arbiter of its group (R349). -/
def State.holdTag (s : State) (d : Nat) (m : MemReq) : State :=
  (s.modDie d (fun x => { x with reqs := x.reqs ++ [{ m with arrived := s.frame.cycle, granted := false }] })).peak d

/-- The write-back of a dirty line: requester 426, with the key of the miss that caused it (R349). -/
def writeBack (a key : Nat) (high : Bool) : MemReq :=
  { req := 426, addr := a, len := 256, write := true, remote := false, origin := none, key := key, high := high, arrived := 0, granted := false, fill := false,
    refetch := false, parity := 0 }

/-- The module address of a line of a cache region of a die (R296). -/
def lineAddr (d first count slice set tag : Nat) : Nat := d * 2 ^ 37 + ((tag * 7424 + set) * count + (slice - first)) * 256

/-- A line is allocated, counted in MISSES (R300); a dirty line that leaves is written back. -/
def State.allocLine (s : State) (d first count slice set : Nat) (l : CLine) (m : MemReq) : State :=
  let c := tabGet (s.die d).cache (setKey slice set) csetNone
  let old := c.ways.find? (fun e => decide (e.1 = c.way))
  let s := (s.modSet d (setKey slice set) (fun c => c.alloc l)).count (DEPOT_COUNT_MISSES d) 1
  match old with
  | some (_, v) => if v.dirty then s.holdTag d (writeBack (lineAddr d first count slice set v.tag) m.key m.high) else s
  | none => s

/-- A whole 256 B line. -/
def MemReq.whole (m : MemReq) : Bool := decide (m.len = 256)

/-- A cached line serves a request, or fails its parity (R299): `w` is its way. -/
def State.serveHit (s : State) (d k slice : Nat) (m : MemReq) (w : Nat) (l : CLine) : State :=
  if m.write then
    (s.modSet d k (fun c => c.use w (fun l => { l with dirty := true, bad := l.bad && !m.whole }))).count (DEPOT_COUNT_HITS d) 1
  else
    let p := if l.bad then 4 else m.parity
    let s := s.depotReplays d m.addr (min p 3)
    if p < 4 then (s.modSet d k (fun c => c.use w id)).count (DEPOT_COUNT_HITS d) 1
    else if l.dirty then (s.modSet d k (fun c => c.use w (fun l => { l with bad := true }))).depotUncorrectable d m.req m.addr m.origin
    else
      let s := s.modSet d k (fun c => { c with ways := tabDel c.ways w })
      let s := (s.raise (mkEv 114 d 0xFF 19 0 [(1, slice), (4, m.addr % 2 ^ 37 / 256)])).lampCount (56 + d) 1
      s.holdTag d { m with fill := true, refetch := true }

/-- A pinned line serves a request, or fails its parity (R295, R299). -/
def State.servePinned (s : State) (d : Nat) (m : MemReq) : State :=
  let g := m.addr / 256
  if m.write then (if m.whole then s.modDie d (fun x => { x with badLines := x.badLines.filter (fun b => decide (b ≠ g)) }) else s)
  else
    let p := if (s.die d).badLines.contains g then 4 else m.parity
    let s := s.depotReplays d m.addr (min p 3)
    if p < 4 then s
    else (s.modDie d (fun x => { x with badLines := insertAsc g x.badLines })).depotUncorrectable d m.req m.addr m.origin

/-- A request with a tag is served from a pinned region, the cache or LPDDR6 (R295, R296, R299). It holds its tag from its acceptance (R307). -/
def State.serve (s : State) (d : Nat) (m : MemReq) : State :=
  let s := s.wr (MEM_TAGS_PEAK d) (max (s.rd (MEM_TAGS_PEAK d)) ((s.die d).reqs.length + 1))
  if m.req = 426 then s.holdTag d m
  else if m.addr < 0x010000000000 then
    match s.cacheAt d (m.addr % 2 ^ 37) with
    | none => s.holdTag d { m with fill := !m.write }
    | some (first, count) =>
      let (slice, set, tag) := cacheIndex first count (m.addr % 2 ^ 37)
      let k := setKey slice set
      let c := tabGet (s.die d).cache k csetNone
      match c.find tag with
      | some w => s.serveHit d k slice m w (tabGet c.ways w { tag := tag, dirty := false, bad := false })
      | none =>
        if m.write ∧ m.whole then s.allocLine d first count slice set { tag := tag, dirty := true, bad := false } m
        else s.holdTag d { m with fill := true }
  else s.servePinned d m

/-- Whether a request of a list keeps a later one from being performed: one of the same requester to the same granule, not both reads (R306). -/
def MemReq.orders (x m : MemReq) : Bool := decide (x.req = m.req) && decide (x.addr / 256 = m.addr / 256) && (x.write || m.write)

/-- Whether a request can be served now: a tag is free (R307), no earlier request of its requester to its granule is to be performed first (R306), and no change of
regions holds it up (R298). `earlier` are the requests that wait before it. -/
def State.canServe (s : State) (d : Nat) (m : MemReq) (earlier : List MemReq) : Bool :=
  (s.die d).tagFree m.remote && !s.depotWaits d && (decide (m.req = 426) || !s.repartHolds d m.addr) && (s.die d).reqs.all (fun x => !x.orders m) &&
    earlier.all (fun x => !(decide (x.req = m.req) && decide (x.addr / 256 = m.addr / 256)))

/-- A request reaches the Depot (R296): served, or held by back-pressure (R306, R307). An address that no part of the map occupies fails (R28). -/
def execMemoryRequest (d : Nat) (q : Requester) (addr : BitVec 48) (len : Nat) (write : Bool) (parity : Nat) (s : State) : Ans :=
  let a := addr.toNat
  if s.dieUp d = false ∨ len = 0 ∨ 256 < a % 256 + len ∨ 425 < q.index ∨ dieOf a ≠ d ∨ (coreSpaceOf a).isSome then .next s
  else if s.accessOk a len = false then
    let e := if q.index < 416 then chanEv 2 d q.index [] else mkEv 2 d 0xFF (if q.index < 419 then 23 else 22) (q.index - 416) []
    .next (s.unmapped d e.core e.unit e.inst a q.index)
  else
    let c := if q.index < 416 then s.chanClass d q.index else q.cls.toNat
    let m : MemReq :=
      { req := q.index, addr := a, len := len, write := write, remote := decide (416 ≤ q.index), origin := originOf d q.index q.origin,
        key := if q.index < 416 then s.urgency d q.index else q.key.toNat, high := decide (c = 1) || decide (c = 2), arrived := 0, granted := false, fill := false,
        refetch := false, parity := parity }
    if s.canServe d m (s.die d).tagWait then .next (s.serve d m)
    else .next (s.modDie d (fun x => { x with tagWait := x.tagWait ++ [m] }))

/-- The first request that waits and can be served, with the others. `before` are those that wait before the list. -/
def State.firstServable (s : State) (d : Nat) (before ms : List MemReq) : Option (MemReq × List MemReq) :=
  match ms with
  | [] => none
  | m :: r => if s.canServe d m before then some (m, before ++ r) else s.firstServable d (before ++ [m]) r

/-- A held requester gets a freed tag (R307). -/
def execMemTagGrant (d : Nat) (s : State) : Ans :=
  if s.dieUp d = false then .next s
  else match s.firstServable d [] (s.die d).tagWait with
    | some (m, r) => .next ((s.modDie d (fun x => { x with tagWait := r })).serve d m)
    | none => .next s

/-- The request of a requester at an address whose line is to be read, and the others. One to the same granule before it that is not a read goes first (R306). -/
def takeReq (req a : Nat) (ms : List MemReq) : Option (MemReq × List MemReq) :=
  match ms with
  | [] => none
  | m :: r =>
    if m.req = req ∧ m.addr = a ∧ m.fill then some (m, r)
    else if m.req = req ∧ m.addr / 256 = a / 256 ∧ m.write then none
    else match takeReq req a r with
      | some (x, r) => some (x, m :: r)
      | none => none

/-- The line that a request missed is filled (R296), if it is not there already. -/
def State.fillLine (s : State) (d : Nat) (m : MemReq) : State :=
  match s.cacheAt d (m.addr % 2 ^ 37) with
  | none => s
  | some (first, count) =>
    let (slice, set, tag) := cacheIndex first count (m.addr % 2 ^ 37)
    let c := tabGet (s.die d).cache (setKey slice set) csetNone
    match c.find tag with
    | some w => s.modSet d (setKey slice set) (fun c => c.use w (fun l => { l with dirty := l.dirty || m.write }))
    | none =>
      let s := s.allocLine d first count slice set { tag := tag, dirty := m.write, bad := false } m
      if m.refetch then s.count (DEPOT_STATUS_REFETCH d) 1 else s

/-- The cycles pass in which the arbiter of its group grants a request (R349 to R352); `none` where it grants none. -/
def State.passGrant (s : State) (d req a : Nat) : Option State :=
  let p (m : MemReq) : Bool := decide (m.req = req) && decide (m.addr = a) && m.fill
  (s.grantAfter d (groupOfAddr a) p s.frame.cycle (2 * (s.die d).reqs.length + 2) 0).map (fun n => s.cycles n)

/-- An LPDDR6 read returns, once the arbiter has granted it (R304, R349): `linkErrs` link errors, `bad` for a word that fails on the read and `reread` for one that fails on
the reread too; `mirror` is the copy on the buddy, which is written back where the address lies in a mirrored region. -/
def execLpddrRead (d req : Nat) (addr : BitVec 48) (linkErrs : Nat) (bad reread : Bool) (mirror : List Byte) (s : State) : Ans :=
  let a := addr.toNat
  let ch := chanOfAddr a
  if s.dieUp d = false ∨ s.lpddrWaits d ch then .next s
  else match s.passGrant d req a with
  | none => .next s
  | some t =>
    match takeReq req a (t.die d).reqs with
    | none => .next s
    | some (m, rest) =>
      let s := t.modDie d (fun x => { x with reqs := rest })
      let s := s.count (LPDDR_CH_STATUS_LINK_RETRY d ch) (min linkErrs 2)
      let s := if bad then s.count (LPDDR_CH_STATUS_REREAD d ch) 1 else s
      if bad ∧ reread then
        let s := s.lampCount (48 + d) 1
        if (match s.slotAt a with
            | some (r, _, _) => (s.region r).mirror
            | none => false) then
          let s := s.setBytes a (mirror.take m.len)
          let s := (s.raise (mkEv 116 d 0xFF 20 ch [(6, a)])).count (LPDDR_CH_STATUS_MIRROR d ch) 1
          .next ((s.scrub d (a / 256)).fillLine d m)
        else .next (s.memError d 117 20 m.req a m.origin)
      else .next (s.fillLine d m)

end Sys2Proof.Machine
end

