-- ==== Sys2Proof/Machine/Ledger.lean ====
section
/-! DEFINITION. The error ledger: its handler's commands (R455, R457), the closing of entries, the release and fencing of cores (R458,
R459), events held while it is full (R456), and fences that are found rather than raised (R462, R555). -/

namespace Sys2Proof.Machine

/-- The fenced cores of a die. -/
def State.fencedCores (s : State) (d : Nat) : Nat := ((List.range s.nCores).filter (fun c => (s.core d c).fenced)).length

/-- A core is fenced for the rest of the job, with EV_CORE_FENCED; more than 4 on a die are a fault of the die (R459). -/
def State.fenceCore (s : State) (d c : Nat) : State :=
  if (s.core d c).fenced then s
  else
    let s := (s.haltCore d c).modCore d c (fun x => { x with fenced := true })
    let st := match s.standIn d c with
      | some k => k
      | none => 0xFF
    let s := s.raise (mkEv 88 d c 17 0 [(1, c), (1, st)])
    if 4 < s.fencedCores d then s.fenceFound d 88 else s

/-- Whether an open entry of level 1, not marked 1*, keeps a core parked. -/
def State.coreEntry (s : State) (d c : Nat) : Bool :=
  (s.hardEntries d).any (fun i => decide (s.entryDom d i = .core d c))

/-- The unit that raised a held event is released when no other event of it is held (R456). -/
def State.releaseUnit (s : State) (d : Nat) (e : Ev) : State :=
  let more := (s.die d).held.any (fun h => decide (h.core = e.core) && decide (h.unit = e.unit) && decide (h.inst = e.inst))
  let coreMore := (s.die d).held.any (fun h => decide (h.core = e.core))
  if e.core ≠ 0xFF ∧ e.unit ≠ 19 ∧ e.unit ≠ 20 then (if coreMore then s else s.modCore e.die e.core (fun x => { x with heldFull := false }))
  else if more then s
  else if e.unit = 16 then s.modCore e.die (96 + e.inst) (fun x => { x with heldFull := false })
  else if e.unit = 21 then
    (s.modChan e.die e.inst (fun x =>
      { x with evHeld := false, st := if x.st = .paused ∧ x.paused = false then (if x.q = [] then .idle else .running) else x.st })).pumpAll e.die e.inst
  else s

/-- An entry has freed: the oldest held event is entered (R456). -/
def State.admitHeld (s : State) (d : Nat) : State :=
  match (s.die d).held with
  | [] => s
  | e :: r => ((s.modDie d (fun x => { x with held := r })).enterError d e).releaseUnit d e

/-- Frames within which the third closing of a core's entries fences it (R459). -/
def closeSpan : Nat := 65536

/-- An entry closes (R455, R459): it is free again, its core is released or, at the third closing within 65,536 frames, fenced. -/
def State.closeEntry (s : State) (d i : Nat) : State :=
  let dom := s.entryDom d i
  let star := (levelOf (s.rd (LEDGER_NUMBER d i))).2
  let s := s.wr (LEDGER_FRAME_STATE d i) 0
  let s := match dom with
    | .core x c =>
      if star ∨ isCtl c then s
      else
        let s := s.modCore x c (fun y => { y with closings := (y.closings.filter (fun f => decide (s.frameSeq < f + closeSpan))) ++ [s.frameSeq] })
        let s := if s.coreEntry x c then s else s.modCore x c (fun y => { y with parked := false })
        if 3 ≤ (s.core x c).closings.length then s.fenceCore x c else s
    | _ => s
  s.admitHeld d

/-- The address of LEDGER_CTRL of a die. -/
def ledgerCtrl (d : Nat) : Nat := (RegId.LEDGER_CTRL d).addr

/-- A command of LEDGER_CTRL by the management core of the die on an entry in one of the states of `need`; any other changes nothing and
raises EV_LATCH_BUSY_WRITE (R457). -/
def State.ledgerOrder (s : State) (src : Src) (d entry : Nat) (need : List Nat) (act : State → State) : State :=
  if src = .mgmt d ∧ s.rd (LEDGER_FRAME_STATE d entry) ∈ need then act s else s.busyWrite d (ledgerCtrl d) 17

/-- The active entry of a die, if one is. -/
def State.activeEntry (s : State) (d : Nat) : Option Nat := (s.openEntries d).find? (fun i => decide (s.rd (LEDGER_FRAME_STATE d i) = 2))

/-- LEDGER_CTRL command 1: a queued entry becomes active; none other may be (R455, R457). -/
def State.ledgerTake (s : State) (src : Src) (d e : Nat) : State :=
  s.ledgerOrder src d e (if (s.activeEntry d).isSome then [] else [1]) (fun s => s.wr (LEDGER_FRAME_STATE d e) 2)

/-- LEDGER_CTRL command 2: the active entry awaits commit. -/
def State.ledgerDone (s : State) (src : Src) (d e : Nat) : State := s.ledgerOrder src d e [2] (fun s => s.wr (LEDGER_FRAME_STATE d e) 3)

/-- LEDGER_CTRL command 3: an active entry, or one that awaits commit, closes. -/
def State.ledgerClose (s : State) (src : Src) (d e : Nat) : State := s.ledgerOrder src d e [2, 3] (fun s => s.closeEntry d e)

/-- LEDGER_TAKE. -/
def execLedgerTake (src : Src) (d : Nat) (entry : BitVec 6) (s : State) : Ans :=
  .next (s.accessWrite src (ledgerCtrl d) (.ledgerTake src d entry) (fun s => s.ledgerTake src d entry.toNat))

/-- LEDGER_DONE. -/
def execLedgerDone (src : Src) (d : Nat) (entry : BitVec 6) (s : State) : Ans :=
  .next (s.accessWrite src (ledgerCtrl d) (.ledgerDone src d entry) (fun s => s.ledgerDone src d entry.toNat))

/-- LEDGER_CLOSE. -/
def execLedgerClose (src : Src) (d : Nat) (entry : BitVec 6) (s : State) : Ans :=
  .next (s.accessWrite src (ledgerCtrl d) (.ledgerClose src d entry) (fun s => s.ledgerClose src d entry.toNat))

/-- A unit that recovers without a handler has recovered: its entries of level 1 await commit (R458; DEDUCED, log entry 120). -/
def State.unitMended (s : State) (d u i : Nat) : State :=
  ((s.openEntries d).filter (fun e => decide (s.rd (LEDGER_ELEVEL d e) = 1) && decide (s.entryDom d e = .unit d u i))).foldl
    (fun s e => s.wr (LEDGER_FRAME_STATE d e) 3) s

/-- Whether an open entry closes at a tick at which its die withholds no region: one that awaits commit (R455), or that of a Waybill instance reinitialised at an
earlier tick (R458; DEDUCED, log entry 120). -/
def State.closesAtTick (s : State) (d i : Nat) : Bool :=
  decide (s.rd (LEDGER_FRAME_STATE d i) = 3) ||
    (decide (s.rd (LEDGER_NUMBER d i) = 11) && decide (s.rd (LEDGER_ELEVEL d i) = 1) && decide (s.rd (LEDGER_FRAME_FRAME d i) < s.frameSeq))

/-- At cycle H of a tick at which a die withholds no region, its entries that await commit close (R455). -/
def State.closeAtTick (s : State) (d : Nat) : State :=
  ((s.openEntries d).filter (fun i => s.closesAtTick d i)).foldl (fun s i => s.closeEntry d i) s

end Sys2Proof.Machine
end

