-- ==== Sys2Proof/Machine/Latch.lean ====
section
/-! DEFINITION. F-class writes: how they wait (R75), and what the tick at which they take effect checks (R259, R285, R294, R298, R354, R374,
R385, R408). -/

namespace Sys2Proof.Machine

/-- Nothing pending. -/
def pendNone : PendW := { mask := 0, val := 0 }

/-- A later write over an earlier pending one: the last write to a bit wins (R74). -/
def PendW.over (p q : PendW) : PendW := { mask := p.mask ||| q.mask, val := (p.val &&& ~~~q.mask) ||| (q.val &&& q.mask) }

/-- A word with a pending write in it. -/
def PendW.apply (p : PendW) (w : Word) : Word := (w &&& ~~~p.mask) ||| (p.val &&& p.mask)

/-- A write of F-class bits of a register waits for the next tick (R75). -/
def State.pendWrite (s : State) (r : RegId) (p : PendW) : State :=
  if p.mask = 0 then s else { s with pend := assocSet s.pend r ((assocGet s.pend r pendNone).over p) }

/-- A pending write of a field. -/
def State.pendField (s : State) (f : FRef) (v : Nat) : State :=
  s.pendWrite f.reg { mask := BitVec.ofNat 64 ((2 ^ f.width - 1) <<< f.lo), val := BitVec.ofNat 64 ((v % 2 ^ f.width) <<< f.lo) }

/-- At the tick cycle the writes accepted so far are those that take effect at its cycle H (R75). -/
def State.armPending (s : State) : State :=
  s.pend.foldl (fun s e => { s with armed := assocSet s.armed e.1 ((assocGet s.armed e.1 pendNone).over e.2) }) { s with pend := [] }

/-- The value that a register takes at cycle H. -/
def State.armedWord (s : State) (r : RegId) : Word := (assocGet s.armed r pendNone).apply (s.word r)

/-- A field of the value that a register takes at cycle H. -/
def State.armedRd (s : State) (f : FRef) : Nat := field (s.armedWord f.reg).toNat f.lo f.width

/-- A register takes its pending value. -/
def State.takeArmed (s : State) (r : RegId) : State := s.setWord r (s.armedWord r)

/-- A window's pending value (R285). -/
def State.latchWin (s : State) (d c w : Nat) : State :=
  let a := s.armedRd (SPAD_WIN_BASE d c w)
  let b := s.armedRd (SPAD_WIN_BOUND d c w)
  if b < a ∨ 0xD0000 < b ∨ a % 32 ≠ 0 ∨ b % 32 ≠ 0 then s.raise (mkEv 112 d c 0 0 [(1, c), (1, w)])
  else s.takeArmed (.SPAD_WIN d c w)

/-- A counter's pending values, checked together (R374). -/
def State.latchCtr (s : State) (d k : Nat) : State :=
  let t := s.armedRd (WORK_CTR_CFG_TROWS d k)
  if t = 0 ∨ 8 < t ∨ s.armedRd (WORK_CTR_NEXT_LIMIT d k) < s.armedRd (WORK_CTR_NEXT_NEXT d k) ∨ s.rd (WORK_CTR_HELD_HELD d k) ≠ 0 ∨ s.rlist d k ≠ [] then
    s.raise (mkEv 85 d 0xFF 17 0 [(2, k)])
  else
    let s := (s.takeArmed (.WORK_CTR_NEXT d k)).takeArmed (.WORK_CTR_CFG d k)
    { s with ctrNext := tabSet s.ctrNext (ctrKey d k) (s.rd (WORK_CTR_NEXT_NEXT d k)) }

/-- The arbiter settings (R354). -/
def State.latchArb (s : State) (d : Nat) : State :=
  let w := s.armedRd (ARB_CFG_WINDOW d)
  let q := s.armedRd (ARB_CFG_QUOTA d)
  if (w = 16 ∨ w = 32 ∨ w = 64 ∨ w = 128) ∧ 1 ≤ q ∧ q ≤ w then s.takeArmed (.ARB_CFG d)
  else s.raise (mkEv 133 d 0xFF 17 0 [(8, (s.armedWord (.ARB_CFG d)).toNat)])

/-- EV_OPT_CONFIG with the register and the value discarded. -/
def State.optConfig (s : State) (d : Nat) (r : RegId) (v : Word) : State :=
  s.raise (mkEv 144 d 0xFF 17 0 [(4, r.addr % 0x10000000), (8, v.toNat)])

/-- Whether a squared norm limit is positive and not NaN (R385). -/
def limitOk (v : Nat) : Bool := decide (0 < v) && decide (v ≤ 0x7F800000)

/-- The optimiser's settings, field by field (R385). -/
def State.latchOptCfg (s : State) (d : Nat) : State :=
  let w := s.armedWord (.OPT_CFG d)
  let l := s.armedRd (OPT_CFG_LIMITSQ d)
  let n := s.armedRd (OPT_CFG_INTERVAL d)
  let s := if limitOk l then s.wr (OPT_CFG_LIMITSQ d) l else s.optConfig d (.OPT_CFG d) w
  if 16 ≤ n then s.wr (OPT_CFG_INTERVAL d) n else s.optConfig d (.OPT_CFG d) w

/-- The selection mode, with EV_PRED_MODE_SWITCH at a change of the mode in effect (R259). -/
def State.latchPred (s : State) (d : Nat) : State :=
  let old := s.predMode d
  let s := s.takeArmed (.PRED_CTRL d)
  let new := s.predMode d
  if old = new then s
  else (s.count (PRED_CTRL_SWITCHES d) 1).raise (mkEv 99 d 0xFF 17 0 [(1, new), (6, s.frameSeq)])

/-- Whether a granule address lies in the LPDDR6 or a pinned region of a die (R408). -/
def State.granuleOk (s : State) (d a : Nat) : Bool :=
  if a < 0x010000000000 then decide (a / 0x2000000000 = d)
  else decide (sramBase d ≤ a) && decide (a < sramBase d + 0x3A000000) && (s.pinnedAt d (a - sramBase d)).isSome

/-- A RETIRE entry (R407, R408): discarded where another pending entry names the same granule, or where the granule is not the die's. The line
that serves a newly retired granule reads as zeros. -/
def State.latchRetire (s : State) (all : Assoc PendW) (d k : Nat) : State :=
  let a (j : Nat) : Nat := field ((assocGet all (.RETIRE d j) pendNone).apply (s.word (.RETIRE d j))).toNat 0 48
  let same := (List.range 256).any (fun j => decide (j ≠ k) && decide ((assocGet all (.RETIRE d j) pendNone).mask ≠ 0) && decide (a j = a k))
  if same ∨ s.granuleOk d (a k) = false then s.optConfig d (.RETIRE d k) (s.armedWord (.RETIRE d k))
  else
    let was := s.flag (RETIRE_VALID d k)
    let s := s.takeArmed (.RETIRE d k)
    if s.flag (RETIRE_VALID d k) ∧ ¬ was then s.zeroRange (sramBase d + 0x90500000 + k * 256) 256 else s

/-- A Depot region as its register names it: first slice, count, kind, and the range cached. -/
structure DRegion where
  first : Nat
  count : Nat
  kind : Nat
  lo : Nat
  limit : Nat
  deriving DecidableEq, Repr

/-- The Depot region of a register word (R294). -/
def dregionOf (w : Nat) : DRegion :=
  { first := field w 0 5, count := field w 5 6, kind := field w 11 2, lo := field w 16 8, limit := field w 24 8 }

/-- The slices that a region names, in use or not. -/
def DRegion.named (r : DRegion) : List Nat := (List.range r.count).map (fun i => r.first + i)

/-- The slices that a region powers. -/
def DRegion.slices (r : DRegion) : List Nat := if r.kind = 0 then [] else r.named

/-- Whether a region breaks a condition of R294 by itself or with an earlier one. LO and LIMIT are those of a cache; slices count for any region. -/
def DRegion.bad (r : DRegion) (before : List DRegion) : Bool :=
  decide (r.kind = 3) || (decide (r.kind ≠ 0) && decide (r.count = 0)) || (decide (r.count ≠ 0) && decide (32 < r.first + r.count)) ||
    (decide (r.kind = 2) && decide (r.limit ≤ r.lo)) ||
    before.any (fun q => r.named.any (fun x => q.named.contains x) ||
      (decide (r.kind = 2) && decide (q.kind = 2) && decide (r.lo < q.limit) && decide (q.lo < r.limit)))

/-- The first of the regions that breaks a condition. -/
def firstBad (rs before : List DRegion) (i : Nat) : Option Nat :=
  match rs with
  | [] => none
  | r :: t => if r.bad before then some i else firstBad t (before ++ [r]) (i + 1)

/-- A region's part in the memory of a die: those that serve from a place of their own. -/
def DRegion.live (r : DRegion) : Bool := decide (r.kind = 1) || decide (r.kind = 2)

/-- The bytes of a pinned region. -/
def DRegion.bytes (r : DRegion) : Nat := r.count * sliceBytes

/-- The contents of a pinned region that a change of regions brings (R298): the lines in newly powered slices read as zeros, those in slices that stay powered
have no defined meaning (R295: line i lies in slice FIRST + i mod COUNT). -/
def State.bringPinned (s : State) (d : Nat) (powered : List Nat) (r : DRegion) : State :=
  let a := sramBase d + r.first * sliceBytes
  let s := s.zeroRange a r.bytes
  if r.slices.all (fun x => !powered.contains x) then s
  else if r.slices.all (fun x => powered.contains x) then s.forget a r.bytes
  else (List.range (r.bytes / 256)).foldl (fun s i => if powered.contains (r.first + i % r.count) then s.forget (a + i * 256) 256 else s) s

/-- The module addresses of the dirty lines of a cache region of a die (R296). -/
def State.dirtyLines (s : State) (d : Nat) (r : DRegion) : List Nat :=
  (s.die d).cache.flatMap (fun e =>
    if r.slices.contains (e.1 / 7424) then
      (e.2.ways.filter (fun w => w.2.dirty)).map (fun w => lineAddr d r.first r.count (e.1 / 7424) (e.1 % 7424) w.2.tag)
    else [])

/-- A line is written back with key 0 (R349): it takes a tag, or waits for one (R307). -/
def State.backLine (s : State) (d a : Nat) : State :=
  if (s.die d).tagFree false then s.holdTag d (writeBack a 0 false) else s.modDie d (fun x => { x with tagWait := x.tagWait ++ [writeBack a 0 false] })

/-- A change of Depot regions (R298): slices whose region changed are affected until DEPOT_REPART_DONE. A pinned region that stands as it
was keeps its bytes. Cache lines of slices whose cache changed are written back and gone. -/
def State.repartition (s : State) (d : Nat) (old new : List DRegion) : State :=
  let changed := fun (r : DRegion) (os : List DRegion) => r.live && !os.contains r
  let gone := old.filter (fun r => changed r new)
  let come := new.filter (fun r => changed r old)
  if gone = [] ∧ come = [] then s
  else
    let powered := old.flatMap DRegion.slices
    let affected := gone.flatMap DRegion.slices ++ come.flatMap DRegion.slices
    let caches := gone.filter (fun r => decide (r.kind = 2))
    let drop := caches.flatMap DRegion.slices
    let dirty := caches.flatMap (s.dirtyLines d)
    let s := (gone.filter (fun r => decide (r.kind = 1))).foldl (fun s r => s.zeroRange (sramBase d + r.first * sliceBytes) r.bytes) s
    let s := (come.filter (fun r => decide (r.kind = 1))).foldl (fun s r => s.bringPinned d powered r) s
    let s := s.modDie d (fun x => { x with
      cache := x.cache.filter (fun e => !drop.contains (e.1 / 7424)),
      badLines := x.badLines.filter (fun g => !(gone ++ come).any (fun r => decide (r.kind = 1) &&
        decide (sramBase d + r.first * sliceBytes ≤ g * 256) && decide (g * 256 < sramBase d + r.first * sliceBytes + r.bytes))),
      repart := affected.foldl (fun l a => insertAsc a l) x.repart
      wback := dirty.foldl (fun l a => insertAsc (a / 256) l) x.wback })
    let s := dirty.foldl (fun s a => s.backLine d a) s
    s.wr (DEPOT_STATUS_REPART d) 1

/-- The pending values of the 16 Depot regions of a die, checked over all of them (R294). -/
def State.latchDepot (s : State) (d : Nat) : State :=
  let old := (List.range 16).map (fun k => dregionOf (s.word (.DEPOT_REGION d k)).toNat)
  let new := (List.range 16).map (fun k => dregionOf (s.armedWord (.DEPOT_REGION d k)).toNat)
  match firstBad new [] 0 with
  | some k => s.raise (mkEv 113 d 0xFF 17 0 [(1, k)])
  | none => ((List.range 16).foldl (fun s k => s.takeArmed (.DEPOT_REGION d k)) s).repartition d old new

/-- One register's pending value takes effect, with its checks; the registers of a group are handled once. -/
def State.latchOne (s : State) (all : Assoc PendW) (r : RegId) : State :=
  match r with
  | .SPAD_WIN d c w => s.latchWin d c w
  | .DEPOT_REGION d k => if (List.range k).any (fun j => all.any (fun e => decide (e.1 = .DEPOT_REGION d j))) then s else s.latchDepot d
  | .WORK_CTR_NEXT d k => s.latchCtr d k
  | .WORK_CTR_CFG d k => if all.any (fun e => decide (e.1 = .WORK_CTR_NEXT d k)) then s else s.latchCtr d k
  | .ARB_CFG d => s.latchArb d
  | .OPT_CFG d => s.latchOptCfg d
  | .PRED_CTRL d => s.latchPred d
  | .RETIRE d k => s.latchRetire all d k
  | r => s.takeArmed r

/-- At cycle H the F-class writes accepted up to the tick cycle take effect (R50, R75). -/
def State.latchAll (s : State) : State :=
  let all := s.armed
  { (all.foldl (fun s e => s.latchOne all e.1) s) with armed := [] }

end Sys2Proof.Machine
end

