-- ==== Sys2Proof/Machine/Opt.lean ====
section
/-! DEFINITION. The commit of versioned regions (R56, R57) and the optimiser: shard table and version words (R382, R383), update windows (R385 to R393),
and the orders to the optimiser (OPT_ARM, OPT_CLOSE, OPT_HOLD). -/

namespace Sys2Proof.Machine

/-- The enabled entries of a die's shard table, ascending (R382). -/
def State.shards (s : State) (d : Nat) : List Nat :=
  (s.mem.filter (fun c => decide (shardTable d ≤ c.1) && decide (c.1 < shardTable d + 0x20000) && decide ((c.1 - shardTable d) % 32 = 6) && c.2.getLsbD 0)).map
    (fun c => (c.1 - shardTable d) / 32)

/-- A field of a shard table entry. -/
def State.shardField (s : State) (d e off n : Nat) : Nat := s.natAt (shardTable d + 32 * e + off) n

/-- The version word of a shard (R383). -/
def State.version (s : State) (d e : Nat) : Nat := s.shardField d e 8 8

/-- The state with the version word of a shard written by the hardware: LIVE, FLIP, PEND and STEP. -/
def State.setVersion (s : State) (d e : Nat) (live flip pend : Bool) (step : Nat) : State :=
  s.setBytes (shardTable d + 32 * e + 8) (leBytes 8 ((if live then 1 else 0) + (if flip then 2 else 0) + (if pend then 4 else 0) + (step % 2 ^ 48) * 2 ^ 16))

/-- LIVE of a version word. -/
def vLive (w : Nat) : Bool := w.testBit 0

/-- FLIP of a version word. -/
def vFlip (w : Nat) : Bool := w.testBit 1

/-- PEND of a version word. -/
def vPend (w : Nat) : Bool := w.testBit 2

/-- STEP of a version word. -/
def vStep (w : Nat) : Nat := w / 2 ^ 16 % 2 ^ 48

/-- The enabled shard of a die that a region holds. -/
def State.shardOf (s : State) (d r : Nat) : Option Nat := (s.shards d).find? (fun e => decide (s.shardField d e 0 2 = r))

/-- The work items that name a region as an output. -/
def State.writersOf (s : State) (r : Nat) : List (Nat × Item) := s.items.filter (fun e => e.2.entry.regions.contains r)

/-- Whether a region meets the conditions of R56 at the tick cycle: a work item names it, every tile is counted done, and no work item that names
it has an event of level 1 or higher charged to it in the frame; on a fenced die none does (R463), and region 0xFFFF never does (R360). -/
def State.qualifies (s : State) (r : Nat) (x : Region) : Bool :=
  x.named && decide (x.done = x.tiles) && s.dieUp x.die && decide (r ≠ 0xFFFF) && (s.writersOf r).all (fun e => !e.2.charged)

/-- Whether a region that qualifies must not commit all the same: it holds an enabled shard, and no update window is open or it has committed in this one (R391). -/
def State.keptBack (s : State) (r : Nat) (x : Region) : Bool :=
  match s.shardOf x.die r with
  | none => false
  | some e => decide (s.rd (OPT_STATUS_WINDOW x.die) = 0) || vFlip (s.version x.die e)

/-- What the tick cycle settles of a region: whether the tick withholds it, and the live bit kept for work that runs again. -/
def State.settled (s : State) (slip : Bool) (r : Nat) (x : Region) : Region :=
  let kept := s.qualifies r x && s.keptBack r x
  { x with withheld := x.named && (!s.qualifies r x || kept), kept := kept, prev := if slip then x.prev else x.live }

/-- At the tick cycle it is settled which regions the tick withholds (R35, R56, R59, R391); the live bit of the frame that ends is kept for work
that runs again, unless that frame was a slip frame (R57). While the job is paused, what is withheld stays so (R70). -/
def State.settleRegions (s : State) : State :=
  if s.rd JOB_STATUS_STATE = 3 then s
  else { s with regions := s.regions.map (fun e => (e.1, s.settled (s.flag FRAME_STATUS_IN_SLIP) e.1 e.2)) }

/-- A region commits: its live bit flips, and no tile of it is counted done any more (R56). -/
def State.flip (s : State) (r : Nat) : State :=
  s.modRegion r (fun x => { x with live := !x.live, named := false, waived := false, done := x.done - x.tiles })

/-- A region that the tick does not withhold commits; that of an enabled shard only in an open update window and once in it (R391). -/
def State.commitRegion (s : State) (r : Nat) (x : Region) : State :=
  if x.named = false ∨ (x.withheld ∧ x.kept = false) then s
  else
    match s.shardOf x.die r with
    | none => if x.withheld then s else s.flip r
    | some e =>
      let v := s.version x.die e
      let held := s.modRegion r (fun x => { x with withheld := true })
      if s.rd (OPT_STATUS_WINDOW x.die) = 0 then
        held.raise (mkEv 147 x.die 0xFF 17 e [(4, s.shardField x.die e 16 4), (2, r)])
      else if vFlip v then held.modDie x.die (fun y => { y with twice := true })
      else (s.flip r).setVersion x.die e (!x.live) true false (vStep v + 1)

/-- Regions that qualify commit at cycle H, whatever the verdict (R56); while the job is paused none does (R70). -/
def State.commitAll (s : State) : State := if s.rd JOB_STATUS_STATE = 3 then s else s.regions.foldl (fun s e => s.commitRegion e.1 (s.region e.1)) s

/-- While a window is open, a shard whose region the tick withholds after a lease of it was taken is pending (R391). -/
def State.pendShards (s : State) (d : Nat) : State :=
  if s.rd (OPT_STATUS_WINDOW d) = 0 then s
  else
    let s := (s.shards d).foldl (fun s e =>
      let x := s.region (s.shardField d e 0 2)
      let v := s.version d e
      if x.named ∧ x.withheld ∧ x.taken ∧ vFlip v = false then s.setVersion d e (vLive v) false true (vStep v) else s) s
    s.wr (OPT_STATUS_PENDING d) ((s.shards d).filter (fun e => vPend (s.version d e))).length

/-- HELD is 1 while HOLD is in effect and the window is closed (R387). -/
def State.setHeld (s : State) (d : Nat) : State :=
  s.wr (OPT_STATUS_HELD d) (if s.flag (OPT_CTRL_HOLD d) ∧ s.rd (OPT_STATUS_WINDOW d) = 0 then 1 else 0)

/-- Whether a squared norm updates: not NaN, not infinite, and not greater than LIMITSQ, both as FP32 bits (R389). -/
def normOk (n limit : Nat) : Bool := decide (n % 2 ^ 31 < 0x7F800000) && (decide (2 ^ 31 ≤ n) || decide (n ≤ limit))

/-- Whether an ARM is discarded: the window is not closed, or HOLD is in effect, so that HELD is 1 (R387, R389). -/
def State.armBarred (s : State) (d : Nat) : Bool := decide (s.rd (OPT_STATUS_WINDOW d) ≠ 0) || s.flag (OPT_CTRL_HOLD d)

/-- The norm check of a die at the tick at which ARM takes effect (R389). -/
def State.normCheck (s : State) (d : Nat) : State :=
  if s.flag (OPT_CTRL_ARM d) = false then s
  else
    let w := s.word (.OPT_CTRL d)
    let n := s.rd (OPT_CTRL_NORMSQ d)
    let s := s.wr (OPT_CTRL_ARM d) 0
    if s.armBarred d then s.optConfig d (.OPT_CTRL d) w
    else if normOk n (s.rd (OPT_CFG_LIMITSQ d)) then
      let s := (s.shards d).foldl (fun s e =>
        let v := s.version d e
        (s.setVersion d e (vLive v) false false (vStep v)).modRegion (s.shardField d e 0 2) (fun x => { x with taken := false })) s
      ((s.wr (OPT_STATUS_WINDOW d) 1).wr (OPT_STATUS_PENDING d) 0).modDie d (fun x => { x with twice := false })
    else
      ((s.wr (OPT_STATUS_SKIPPED d) 1).count (OPT_STATUS_SKIPS d) 1).raise (mkEv 145 d 0xFF 17 0 [(4, n), (6, s.frameSeq)])

/-- The sides of the optimiser law of a die that fails, if it fails: an entry with FLIP + PEND above 1, or a sum that is neither 0 nor the shard count
(R84). A double commit fails it too (R391). -/
def State.optFail (s : State) (d : Nat) : Option (Nat × Nat × Nat) :=
  let es := s.shards d
  let v (e : Nat) : Nat := (if vFlip (s.version d e) then 1 else 0) + (if vPend (s.version d e) then 1 else 0)
  let sum := (es.map v).foldl (· + ·) 0
  match es.find? (fun e => decide (1 < v e)) with
  | some e => some (e, v e, 1)
  | none => if (s.die d).twice then some (0, es.length + 1, es.length) else if sum = 0 ∨ sum = es.length then none else some (0, sum, es.length)

/-- Whether the step of a die is rolled back at cycle H of this tick: its law fails at the closing tick, or the verdicts of the team split at the tick before (R390, R393). -/
def State.rollbackDue (s : State) (d : Nat) : Bool := s.frame.split || (((s.die d).closing || (s.die d).twice) && (s.optFail d).isSome)

/-- The verdict of a die in the tick report: what the check at cycle H of this tick will come to (R390). -/
def State.armVerdict (s : State) (d : Nat) : Nat :=
  if s.armedRd (OPT_CTRL_ARM d) = 0 ∨ (s.rd (OPT_STATUS_WINDOW d) ≠ 0 ∧ s.rollbackDue d = false) ∨ s.armedRd (OPT_CTRL_HOLD d) = 1 then 0
  else if normOk (s.armedRd (OPT_CTRL_NORMSQ d)) (if limitOk (s.armedRd (OPT_CFG_LIMITSQ d)) then s.armedRd (OPT_CFG_LIMITSQ d) else s.rd (OPT_CFG_LIMITSQ d)) then 1
  else 2

/-- FLIP and PEND of an enabled shard as cycle H of this tick will leave them (R391). -/
def State.flagsAhead (s : State) (d e : Nat) : Bool × Bool :=
  let x := s.region (s.shardField d e 0 2)
  let v := s.version d e
  let commits := x.named && !x.withheld
  (vFlip v || commits, !commits && (vPend v || (x.named && x.withheld && x.taken && !vFlip v)))

/-- Whether CLOSE takes effect at cycle H of this tick and the optimiser law will fail at the next one, so that the frame between is a slip frame and writes no shard
region (R84, R392, R393). -/
def State.closesInFailure (s : State) (d : Nat) : Bool :=
  let v (e : Nat) : Nat := (if (s.flagsAhead d e).1 then 1 else 0) + (if (s.flagsAhead d e).2 then 1 else 0)
  let es := s.shards d
  let sum := (es.map v).foldl (· + ·) 0
  decide (s.rd (OPT_STATUS_WINDOW d) = 1) && decide (s.armedRd (OPT_CTRL_CLOSE d) = 1) && (es.any (fun e => decide (1 < v e)) || (decide (sum ≠ 0) && decide (sum ≠ es.length)))

/-- LIVE of every enabled shard is the live bit of its region (R383). -/
def State.refreshLive (s : State) (d : Nat) : State :=
  (s.shards d).foldl (fun s e =>
    let v := s.version d e
    s.setVersion d e (s.region (s.shardField d e 0 2)).live (vFlip v) (vPend v) (vStep v)) s

/-- An enabled shard restored from a mirror takes the mirrored STEP, and is pending where its update had not committed (R394). -/
def State.restoreShard (s : State) (x : Nat × Nat × Bool) : State :=
  let r := s.region x.1
  match s.shardOf r.die x.1 with
  | none => s
  | some e =>
    let s := s.setVersion r.die e r.live false x.2.2 x.2.1
    s.wr (OPT_STATUS_PENDING r.die) ((s.shards r.die).filter (fun e => vPend (s.version r.die e))).length

/-- The step is rolled back (R393): every shard that flipped goes back, and the window closes. -/
def State.rollback (s : State) (d : Nat) : State :=
  let es := (s.shards d).filter (fun e => vFlip (s.version d e))
  let s := (s.shards d).foldl (fun s e =>
    let v := s.version d e
    if vFlip v then
      (s.setVersion d e (!vLive v) false false (vStep v + 2 ^ 48 - 1)).modRegion (s.shardField d e 0 2) (fun x => { x with live := !x.live })
    else s.setVersion d e (vLive v) false false (vStep v)) s
  let s := ((s.wr (OPT_STATUS_WINDOW d) 0).wr (OPT_STATUS_PENDING d) 0).modDie d (fun x => { x with closing := false, twice := false })
  s.raise (mkEv 148 d 0xFF 17 0 [(6, s.frameSeq), (2, es.length)])

/-- The window's transitions at cycle H, after the commits (R391, R392): CLOSE taken up, the closing tick, and the end of a window that waited for
pending shards. -/
def State.windowStep (s : State) (d : Nat) : State :=
  let w := s.rd (OPT_STATUS_WINDOW d)
  let p := s.rd (OPT_STATUS_PENDING d)
  let close := s.flag (OPT_CTRL_CLOSE d)
  let s := s.wr (OPT_CTRL_CLOSE d) 0
  if (s.die d).closing then (s.wr (OPT_STATUS_WINDOW d) (if p = 0 then 0 else 2)).modDie d (fun x => { x with closing := false })
  else if w = 2 ∧ p = 0 then s.wr (OPT_STATUS_WINDOW d) 0
  else if w = 1 ∧ close then s.modDie d (fun x => { x with closing := true })
  else s

/-- NORMSQ and ARM are written together (R386, R388); they take effect at the tick. -/
def execOptArm (src : Src) (d : Nat) (normsq : BitVec 32) (s : State) : Ans :=
  .next (s.accessWrite src (RegId.OPT_CTRL d).addr (.optArm src d normsq) (fun s =>
    s.pendWrite (.OPT_CTRL d) { mask := 0x1FFFFFFFF, val := BitVec.ofNat 64 (normsq.toNat + 2 ^ 32) }))

/-- CLOSE is written (R386, R392). -/
def execOptClose (src : Src) (d : Nat) (s : State) : Ans :=
  .next (s.accessWrite src (RegId.OPT_CTRL d).addr (.optClose src d) (fun s => s.pendField (OPT_CTRL_CLOSE d) 1))

/-- HOLD is written (R386, R409). -/
def execOptHold (src : Src) (d : Nat) (hold : Bool) (s : State) : Ans :=
  .next (s.accessWrite src (RegId.OPT_CTRL d).addr (.optHold src d hold) (fun s => s.pendField (OPT_CTRL_HOLD d) (if hold then 1 else 0)))

end Sys2Proof.Machine
end

