-- ==== Sys2Proof/Machine/Measure.lean ====
section
/-! DEFINITION. SHAKE256 (PRESUMED: the spec names the function of FIPS 202 and gives no definition of it; log entry 28) and the measurement
registers of the lead die (R512). -/

namespace Sys2Proof.Machine

/-- The lanes other than (0, 0) in the order of the ρ step, as x + 5 y: from (x, y) it goes to (y, 2 x + 3 y). -/
def rhoWalk (n x y : Nat) : List Nat :=
  match n with
  | 0 => []
  | n + 1 => (x + 5 * y) :: rhoWalk n y ((2 * x + 3 * y) % 5)

/-- How far the ρ step turns each lane: lane t of the walk by the triangular number of t + 1. -/
def laneTurns : List Nat :=
  (List.range 25).map (fun i => if i = 0 then 0 else
    let t := firstIdx (rhoWalk 24 1 0) (fun k => decide (k = i)) 0
    (t + 1) * (t + 2) / 2 % 64)

/-- A power of x modulo x^8 + x^6 + x^5 + x^4 + 1, times x. -/
def lfsrNext (r : Nat) : Nat := if r < 128 then 2 * r else (2 * r) ^^^ 0x171

/-- The constant of a round, whose bits 0, 1, 3, 7, 15, 31 and 63 are the next seven outputs of the register, and the register after them. -/
def iotaBits (j r acc : Nat) (fuel : Nat) : Nat × Nat :=
  match fuel with
  | 0 => (acc, r)
  | fuel + 1 => iotaBits (j + 1) (lfsrNext r) (acc + (r % 2) * 2 ^ (2 ^ j - 1)) fuel

/-- A 64-bit lane turned left. -/
def turnLane (v n : Nat) : Nat := v * 2 ^ n % 2 ^ 64 + v / 2 ^ (64 - n)

/-- The parity of a column, and what the θ step adds to a lane of column x: the columns beside it, one of them turned. -/
def columnMix (a : List Nat) : List Nat :=
  let par (x : Nat) : Nat := (List.range 5).foldl (fun p y => p ^^^ a.getD (x % 5 + 5 * y) 0) 0
  (List.range 5).map (fun x => par (x + 4) ^^^ turnLane (par (x + 1)) 1)

/-- The lane that the θ, ρ and π steps bring to place x + 5 y. -/
def movedLane (a mix : List Nat) (i : Nat) : Nat :=
  let src := (i % 5 + 3 * (i / 5)) % 5 + 5 * (i % 5)
  turnLane (a.getD src 0 ^^^ mix.getD (src % 5) 0) (laneTurns.getD src 0)

/-- One round with its constant over the 25 lanes. -/
def keccakRound (a : List Nat) (rc : Nat) : List Nat :=
  let mix := columnMix a
  let p := (List.range 25).map (movedLane a mix)
  let chi (i : Nat) : Nat :=
    let row := i - i % 5
    p.getD i 0 ^^^ (p.getD (row + (i + 2) % 5) 0 - (p.getD (row + (i + 1) % 5) 0 &&& p.getD (row + (i + 2) % 5) 0))
  (chi 0 ^^^ rc) :: (List.range 24).map (fun i => chi (i + 1))

/-- `n` rounds, from the state of the constants' register. -/
def keccakRounds (n r : Nat) (a : List Nat) : List Nat :=
  match n with
  | 0 => a
  | n + 1 =>
    let c := iotaBits 0 r 0 7
    keccakRounds n c.2 (keccakRound a c.1)

/-- The permutation of 24 rounds. -/
def keccakF (a : List Nat) : List Nat := keccakRounds 24 1 a

/-- Bytes absorbed block by block at the rate of 136. -/
def keccakAbsorb (a : List Nat) (bs : List Byte) (fuel : Nat) : List Nat :=
  match fuel with
  | 0 => a
  | fuel + 1 =>
    if bs = [] then a
    else
      let blk := bs.take 136
      keccakAbsorb (keccakF (a.mapIdx (fun i v => if i < 17 then v ^^^ leAt blk (8 * i) 8 else v))) (bs.drop 136) fuel

/-- Bytes padded for SHAKE256 to a multiple of the rate. -/
def shakePad (bs : List Byte) : List Byte :=
  let n := 136 - bs.length % 136
  if n = 1 then bs ++ [0x9F] else bs ++ [0x1F] ++ List.replicate (n - 2) 0 ++ [0x80]

/-- Output blocks of the sponge. -/
def keccakSqueeze (a : List Nat) (n : Nat) : List Byte :=
  match n with
  | 0 => []
  | n + 1 => (a.take 17).flatMap (fun v => leBytes 8 v) ++ keccakSqueeze (keccakF a) n

/-- The first `n` bytes of SHAKE256 of a message. -/
def shake256 (n : Nat) (bs : List Byte) : List Byte :=
  let p := shakePad bs
  (keccakSqueeze (keccakAbsorb (List.replicate 25 0) p (p.length / 136)) (ceilDiv n 136)).take n

/-- A measurement register as its 64 bytes. -/
def State.mr (s : State) (i : Nat) : BitVec 512 := tabGet s.fw.mr i 0

/-- A measurement register extended with a 64 B value (R512). -/
def State.extendRaw (s : State) (i : Nat) (v : List Byte) : State :=
  { s with fw := { s.fw with mr := tabSet s.fw.mr i (BitVec.ofNat 512 (leNat (shake256 64 (leBytes 64 (s.mr i).toNat ++ leBytes 4 i ++ v)))) } }

/-- A measured item extends a register as its SHAKE256 value of 512 bits (R512). -/
def State.extend (s : State) (i : Nat) (item : List Byte) : State := s.extendRaw i (shake256 64 item)

end Sys2Proof.Machine
end

