-- ==== Sys2Proof/Machine/Links.lean ====
section
/-! DEFINITION. Lorsar links: flits, replay and credits (R411 to R417), held requests (R418), lane sparing (R419), training and versions (R424, R425), time flits
(R435 to R437), and the die-to-die ports (R423). -/

namespace Sys2Proof.Machine

/-- Whether link l of a die exists and the die serves. -/
def State.linkThere (s : State) (d l : Nat) : Bool := (s.linkInfo d l).isSome && s.dieUp d

/-- Whether every link of a ring port is UP. -/
def State.portUp (s : State) (port : Nat) : Bool :=
  s.allLinks.all (fun k => match s.linkInfo k.1 k.2 with
    | some i => !decide (i.port = port) || s.linkUp k.1 k.2
    | none => true)

/-- LINE is 1 while a ring hop is not UP (R440). -/
def State.setLine (s : State) : State := s.wr TEAM_STATUS_LINE (if s.portUp 1 ∧ s.portUp 2 then 0 else 1)

/-- The capability block of the module (R424). -/
def State.ownCap (s : State) : CapBlock :=
  { linkMin := s.fuses.linkMin, linkMax := s.fuses.linkMax, teamMin := s.fuses.teamMin, teamMax := s.fuses.teamMax,
    dies := BitVec.ofNat 8 s.fuses.dies, slot := s.fuses.slot, coach := s.fuses.coach, spare := s.flag TEAM_CFG_SPARE, host := false,
    serial := s.fuses.serial, owner := if s.job.owner = [] then List.replicate 32 0 else s.job.owner }

/-- The version that two ends of a link agree on (R425). -/
def State.linkVersion (s : State) (c : CapBlock) : Option Nat :=
  let v := min s.fuses.linkMax.toNat c.linkMax.toNat
  if s.fuses.linkMin.toNat ≤ v ∧ c.linkMin.toNat ≤ v then some v else none

/-- ACK releases flits up to and including the named one from the retry buffer (R414), which makes room for those that wait. -/
def State.ackTo (s : State) (d l : Nat) (ack : BitVec 12) : State :=
  match (s.link d l).retry with
  | [] => s
  | f :: _ =>
    let n := (ack - f.seq).toNat + 1
    if n ≤ (s.link d l).retry.length then s.modLink d l (fun x => { x with retry := x.retry.drop n, replays := 0 }) else s

/-- Whether a flit carries the tag of a frame that this end has not entered (R46). -/
def State.later (s : State) (tag : BitVec 16) : Bool := decide (0 < (tag - s.tag16).toNat) && decide ((tag - s.tag16).toNat < 0x8000)

/-- Credits come back to the sender (R416). -/
def State.creditsIn (s : State) (d l n : Nat) (tag : BitVec 16) : State :=
  s.modLink d l (fun x => { x with credits := x.credits + n, crin := bump48 x.crin n, earlyCr := if s.later tag then x.earlyCr + n else x.earlyCr })

/-- What every flit with a good CRC carries: ACK and credits (R411). -/
def State.flitHead (s : State) (d l : Nat) (f : Flit) : State :=
  let s := (s.ackTo d l f.ack).creditsIn d l f.cret.toNat f.tag
  s.drain d l (s.link d l).txq.length

/-- A flit is discarded; while the receiver waits for the expected one it sends a NAK, at most once per 64 flit times (R414). -/
def State.discard (s : State) (d l : Nat) : State :=
  let x := s.link d l
  if x.nakAge = 0 ∨ 64 ≤ x.nakAge then
    (s.modLink d l (fun x => { x with nakAge := 1 })).sendPlain d l 2 (leBytes 2 x.rxExp.toNat)
  else s.modLink d l (fun x => { x with nakAge := x.nakAge + 1 })

/-- Whether a link receives flits: it exists and is UP, and no event of it waits for the FIFO (R34). -/
def State.linkHears (s : State) (d l : Nat) : Bool := s.linkThere d l && s.linkUp d l && !s.producerWaits d 0xFF 22 l

/-- Whether a flit is discarded: its CRC is bad, or its KIND is reserved (R412). -/
def flitBad (f : Flit) : Bool := !flitGood f || decide (9 ≤ f.kind.toNat)

/-- A sequenced flit arrives: it is accepted in order, its buffer is freed and the credit returned, or it is discarded (R412, R414, R416). -/
def State.rxSequenced (s : State) (d l : Nat) (f : Flit) : State × Bool :=
  if s.linkHears d l = false then (s, false)
  else if flitBad f then ((s.count (LINK_COUNT_CRC_ERR d l) 1).discard d l, false)
  else
    let s := s.flitHead d l f
    if f.seq ≠ (s.link d l).rxExp then (s.discard d l, false)
    else
      let e := if s.later f.tag then 1 else 0
      let s := s.modLink d l (fun x =>
        { x with rxExp := x.rxExp + 1, recv := bump48 x.recv 1, ret := bump48 x.ret 1, early := x.early + e, nakAge := 0 })
      (s.sendPlain d l 3 (leBytes 2 1), true)

/-- An unsequenced flit arrives: with a good CRC its ACK and credits count (R412). -/
def State.rxPlain (s : State) (d l : Nat) (f : Flit) : State × Bool :=
  if s.linkHears d l = false then (s, false)
  else if flitBad f then (s.count (LINK_COUNT_CRC_ERR d l) 1, false)
  else (s.flitHead d l f, true)

/-- A capability block goes out in a KIND 8 flit (R424). -/
def State.sendCap (s : State) (d l : Nat) (c : CapBlock) : State := s.sendPlain d l 8 (capBytes c)

/-- A link starts to train (R415, R422, R424): it is not UP, its requests are held, CT is read, and its capability block goes out. Credits that a change of CT adds or takes away
are those of the buffers that it adds or takes away. -/
def State.startTraining (s : State) (d l : Nat) : State :=
  let ct := s.rd (LINK_CFG_CT d l)
  ((s.wr (LINK_STATUS_STATE d l) 1).modLink d l (fun x => { x with upSince := false, credits := x.credits + ct - x.ct, ct := ct })).setLine.sendCap d l s.ownCap

/-- A link retrains (R415): counted here and in the Lamp (R495), with EV_LINK_RETRAIN. -/
def State.retrain (s : State) (d l cause : Nat) : State :=
  let s := (s.count (LINK_COUNT_RETRAINS d l) 1).lampCount (16 + s.lampLink d l) 1
  (s.startTraining d l).raise (linkEv 160 d l [(1, l), (1, cause)])

/-- The requests of other modules that a link carried receive a link-reset response (R417). -/
def State.resetTransit (s : State) (d l : Nat) : State :=
  let ts := (s.link d l).transit
  ts.foldl (fun s e => s.sendOn d l 4 (s.responseTo e.2 0) []) (s.modLink d l (fun x => { x with transit := [] }))

/-- A link reinitialises (R417): the retry buffer is emptied, credits are set to CT, sequence numbers and the counters of the link law restart, and
every request outstanding receives a link-reset response: one of this module waits to be reissued. -/
def State.linkReinit (s : State) (d l : Nat) : State :=
  let ct := s.rd (LINK_CFG_CT d l)
  (s.modLink d l (fun x =>
    { x with txNext := 0, rxExp := 0, retry := [], replays := 0, credits := ct, sent := 0, recv := 0, ret := 0, crin := 0, occ := 0, nakAge := 0,
             early := 0, earlyCr := 0, mine := none, txq := x.txq.filter (fun t => decide (t.1 ≠ 0)), held := x.reqs ++ x.held, reqs := [],
             upSince := false, ct := ct })).resetTransit d l

/-- Flits of the retry buffer are sent again from a sequence number on, in order (R414). The eighth replay of one flit retrains the
link (R415). -/
def State.replayFrom (s : State) (d l : Nat) (seq : BitVec 12) : State :=
  match (s.link d l).retry with
  | [] => s
  | f :: _ =>
    let fs := (s.link d l).retry.drop (seq - f.seq).toNat
    if fs = [] then s
    else
      let s := (fs.foldl (fun s f => s.send (.flit d l (sealFlit { f with ack := (s.link d l).rxExp - 1 }))) s).count (LINK_COUNT_REPLAYS d l) fs.length
      let s := s.modLink d l (fun x => { x with replays := x.replays + 1 })
      if 8 ≤ (s.link d l).replays then (s.modLink d l (fun x => { x with replays := 0 })).retrain d l 1 else s

/-- A data flit arrives (R412, R414). -/
def execPacketData (d l : Nat) (f : Flit) (s : State) : Ans := .next (s.rxSequenced d l f).1

/-- An idle flit carries ACK and credits only. -/
def execIdle (d l : Nat) (f : Flit) (s : State) : Ans := .next (s.rxPlain d l f).1

/-- A NAK: what precedes the expected flit was accepted, and the sender replays from it (R414). -/
def execNak (d l : Nat) (f : Flit) (expected : BitVec 12) (s : State) : Ans :=
  let r := s.rxPlain d l f
  if r.2 then .next ((r.1.ackTo d l (expected - 1)).replayFrom d l expected) else .next r.1

/-- A control flit returns credits (R412, R416). -/
def execCreditReturn (d l : Nat) (f : Flit) (n : BitVec 12) (s : State) : Ans :=
  let r := s.rxPlain d l f
  if r.2 then
    let s := r.1.creditsIn d l n.toNat f.tag
    .next (s.drain d l (s.link d l).txq.length)
  else .next r.1

/-- The lowest spare of a link that a direction does not use yet (R419). -/
def State.freeSpare (s : State) (d l : Nat) (tx : Bool) : Option Nat :=
  let used := ((s.link d l).sparesUsed.filter (fun u => decide (64 ≤ u.1) == tx)).map (fun u => u.2)
  match s.linkInfo d l with
  | none => none
  | some i => (List.range i.spares).find? (fun k => !used.contains k)

/-- A receive lane moves to the lowest free spare (R419): the lane and a switch SEQ 64 flits ahead go out in a control flit, with EV_LANE_SPARED. -/
def State.spareLane (s : State) (d l lane spare : Nat) : State :=
  let q := (s.link d l).rxExp + 64
  let s := s.modLink d l (fun x => { x with sparesUsed := x.sparesUsed ++ [(lane, spare)] })
  let s := (s.count (LINK_COUNT_SPARED d l) 1).lampCount (26 + s.lampLink d l) 1
  (s.sendPlain d l 3 (leBytes 2 0 ++ leBytes 1 lane ++ leBytes 2 q.toNat)).raise (linkEv 161 d l [(1, l), (1, lane), (1, spare)])

/-- Lanes in use by a link. -/
def State.lanes (s : State) (d l : Nat) : Nat := s.rd (LINK_STATUS_ACTIVE d l)

/-- A receive lane fails: it moves to a spare, or the link retrains at fewer lanes (R415, R419). -/
def State.laneFails (s : State) (d l lane : Nat) : State :=
  match s.freeSpare d l false with
  | some k => s.spareLane d l lane k
  | none => (s.modLink d l (fun x => { x with noSpare := true })).retrain d l 3

/-- A lane loses lock (R419). -/
def execLaneSignalLoss (d l lane : Nat) (s : State) : Ans :=
  if s.linkHears d l = false ∨ s.lanes d l ≤ lane then .next s else .next (s.laneFails d l lane)

/-- Lanes over the threshold at the end of a window are replaced, ascending, while the link is UP (R419). -/
def State.spareOver (s : State) (d l : Nat) (errs : List (Nat × Nat)) : State :=
  match errs with
  | [] => s
  | (lane, n) :: r =>
    let s := s.modLink d l (fun x => { x with laneErr := tabSet x.laneErr lane n })
    if 16 * s.rd (LINK_CFG_SPARE_THR d l) < n ∧ lane < s.lanes d l ∧ s.linkUp d l then (s.laneFails d l lane).spareOver d l r
    else s.spareOver d l r

/-- A window of 2²⁰ codewords ends with the corrected symbols of each lane (R419). -/
def execSparingWindowEnd (d l : Nat) (errs : List (Nat × Nat)) (s : State) : Ans :=
  if s.linkHears d l then .next (s.spareOver d l errs) else .next s

/-- The partner names a lane and a SEQ: this end moves the lane of its transmit direction to the lowest free spare (R419). -/
def execLaneSwitch (d l : Nat) (f : Flit) (lane : Nat) (_seq : BitVec 12) (s : State) : Ans :=
  let r := s.rxPlain d l f
  if r.2 = false ∨ s.lanes d l ≤ lane then .next r.1
  else
    match r.1.freeSpare d l true with
    | some k => .next (r.1.modLink d l (fun x => { x with sparesUsed := x.sparesUsed ++ [(64 + lane, k)] }))
    | none => .next r.1

/-- No ACK has advanced for 10 µs while flits are unacknowledged (R415). -/
def execAckTimeout (d l : Nat) (s : State) : Ans :=
  if s.linkHears d l ∧ (s.link d l).retry ≠ [] then .next (s.retrain d l 2) else .next s

/-- A link retrains for a cause of R553, or one that is down with ENABLE 1 trains because its hop changed (R415, R443). -/
def execLinkRetrain (d l cause : Nat) (s : State) : Ans :=
  if s.linkThere d l ∧ 1 ≤ cause ∧ cause ≤ 4 ∧ s.rd (LINK_STATUS_STATE d l) ≠ 1 ∧ s.flag (LINK_CFG_ENABLE d l) then .next (s.retrain d l cause) else .next s

/-- The largest power of two that is not more than `n`. -/
def pow2Below (n : Nat) : Nat := if n = 0 then 0 else 2 ^ Nat.log2 n

/-- The lanes a training ends with, out of the healthy ones: all; those in use before, of a link that runs degraded and has lost none since; or the largest power of two of
healthy lanes that is not more than half the active width (R419). -/
def trainedLanes (full active healthy : Nat) (noSpare : Bool) : Nat :=
  if noSpare = false ∧ full ≤ healthy then full
  else if noSpare = false ∧ 0 < active ∧ active < full ∧ active ≤ healthy then active
  else pow2Below (min healthy ((if active = 0 then full else active) / 2))

/-- Requests that waited for a link are issued, and waiting flits are sent. -/
def State.linkResumes (s : State) (d l : Nat) : State :=
  let s := s.releaseHeld d l
  s.drain d l (s.link d l).txq.length

/-- A link is UP or DEGRADED with an agreed version (R415, R417, R419, R425). The same partner resumes by replay; another reinitialises the
link. -/
def State.linkTrained (s : State) (d l full healthy : Nat) (rtt : BitVec 32) (p : CapBlock) (v : Nat) : State :=
  let x := s.link d l
  let n := trainedLanes full (s.lanes d l) healthy x.noSpare
  let same := decide (x.partner.map (fun c => c.serial) = some p.serial)
  let s := if same then s else s.linkReinit d l
  let s := s.modLink d l (fun x => { x with partner := some p, noSpare := false, expired := false })
  let s := (((s.wr (LINK_STATUS_STATE d l) (if n = full then 2 else 3)).wr (LINK_STATUS_ACTIVE d l) n).wr (LINK_STATUS_VER d l) v).wr (LINK_RTT_RTT d l) rtt.toNat
  let s := if n = full then s else s.raise (linkEv 162 d l [(1, l), (1, n)])
  let s := s.setLine.unitMended d 22 l
  let s := match (s.link d l).retry with
    | f :: _ => if same then s.replayFrom d l f.seq else s
    | [] => s
  s.linkResumes d l

/-- The ends share no version: the link stays down (R425). -/
def State.versionFails (s : State) (d l : Nat) (c : CapBlock) : State :=
  (s.wr (LINK_STATUS_STATE d l) 0).setLine.raise (linkEv 163 d l [(1, l), (1, c.linkMin.toNat), (1, c.linkMax.toNat)])

/-- A training ends (R415, R417, R419, R425). -/
def execLinkRetrained (d l : Nat) (ok : Bool) (active : Nat) (rtt : BitVec 32) (p : CapBlock) (s : State) : Ans :=
  match s.linkInfo d l with
  | none => .next s
  | some i =>
    if s.dieUp d = false ∨ s.rd (LINK_STATUS_STATE d l) ≠ 1 then .next s
    else if ok = false ∨ active = 0 then .next (s.wr (LINK_STATUS_STATE d l) 0).setLine
    else
      match s.linkVersion p with
      | none => .next (s.versionFails d l p)
      | some v => .next (s.linkTrained d l i.active active rtt p v)

/-- ENABLE 0: the link is down and reinitialises (R417). -/
def State.linkOff (s : State) (d l : Nat) : State := ((s.wr (LINK_STATUS_STATE d l) 0).linkReinit d l).setLine

/-- The last `n` reads in flight of the far runs of a channel are to be issued again; those of later runs first. -/
def unread (far : DRun → Bool) (n : Nat) (q : List DRun) : List DRun × Nat :=
  match q with
  | [] => ([], n)
  | r :: t =>
    let x := unread far n t
    let k := min x.2 (if far r && r.started && r.status.isNone && !r.readBack then r.rd - r.due else 0)
    ({ r with rd := r.rd - k } :: x.1, x.2 - k)

/-- The last `n` writes in flight of the runs of a channel are to be issued again. -/
def unwritten (n : Nat) (q : List DRun) : List DRun × Nat :=
  match q with
  | [] => ([], n)
  | r :: t =>
    let x := unwritten n t
    let k := min x.2 r.sent.length
    ({ r with sent := r.sent.take (r.sent.length - k), again := r.again ++ r.sent.drop (r.sent.length - k) } :: x.1, x.2 - k)

/-- Whether a held request is the read-back of a run. -/
def DRun.backIs (r : DRun) (q : Req) : Bool :=
  decide (q.type = 0) && decide (q.p.len = 4) && r.readBack && r.status.isNone && decide (r.lastAddr % 2 ^ 48 = q.p.addr.toNat)

/-- The held requests `rs` of a channel fail (R418): what they were for is to be issued again, and the channel meets a bus error that no retry can mend. Requests
of a cancelled descriptor are dropped. -/
def State.failChan (s : State) (d n : Nat) (rs : List Req) : State :=
  let q := (s.chan d n).q
  let backs := rs.filter (fun x => q.any (fun r => r.backIs x))
  let reads := (rs.filter (fun x => decide (x.type = 0))).length - backs.length
  let q1 := (unread (fun r => s.srcFar r.desc) reads (q.map (fun r => if backs.any r.backIs then { r with readBack := false } else r))).1
  let q2 := (unwritten (rs.filter (fun x => decide (x.type = 2))).length q1).1
  let i := firstIdx (q.zip q2) (fun e => decide (e.1 ≠ e.2)) 0
  let s := s.modChan d n (fun c => { c with q := q2 })
  match rs, q2[i]? with
  | x :: _, some _ =>
    if (s.chan d n).st = .halted then s
    else s.deadAccess d n i (if x.type = 2 then 1 else if backs.contains x then 2 else 0) x.p.addr.toNat false false
  | _, _ => s

/-- The requests held for a link fail, those of each channel together (R418). -/
def State.failHeld (s : State) (rs : List Req) : State :=
  let ks := rs.foldl (fun l r => if l.contains (r.p.srcDie.toNat, r.p.req.toNat) then l else l ++ [(r.p.srcDie.toNat, r.p.req.toNat)]) ([] : List (Nat × Nat))
  ks.foldl (fun s k => s.failChan k.1 k.2 (rs.filter (fun r => decide ((r.p.srcDie.toNat, r.p.req.toNat) = k)))) s

/-- 4 ms have gone since a link left UP (R418): requests that wait for it fail, those of this module and those of others that were passed on to it. -/
def execLinkDown (d l : Nat) (s : State) : Ans :=
  let x := s.link d l
  if s.linkThere d l = false ∨ s.linkUp d l then .next s
  else
    let s := s.modLink d l (fun x => { x with held := [], transit := [], txq := x.txq.filter (fun t => decide (t.1 ≠ 0)), expired := true })
    if x.held = [] ∧ x.transit = [] then .next s
    else
      let s := s.raise (linkEv 164 d l [(1, l), (4, x.held.length + x.transit.length)])
      .next ((x.transit.foldl (fun s e => s.send (.noData d l e.2)) s).failHeld x.held)

/-- A link-reset response answers a request: it is reissued, once a link on its route is UP (R417). One for another module goes on. -/
def execLinkResetResponse (d l : Nat) (p : Packet) (s : State) : Ans :=
  if s.linkHears d l = false then .next s
  else if s.forHere p = false then .next (s.passBack d l 4 p [])
  else
    match takeFirst (fun r => decide (r.p.rid = p.rid) && decide (r.p.req = p.req)) (s.link d l).reqs with
    | none => .next s
    | some (r, rest) =>
      let q := (s.modLink d l (fun x => { x with reqs := rest })).request r
      .next (if q.2 then q.1 else q.1.failHeld [r])

/-- A flit leaves by one link of a ring port, if that is UP. -/
def State.floodPort (s : State) (port index : Nat) (kind : BitVec 4) (payload : List Byte) : State :=
  match s.linkOfPort port index with
  | some (x, m) => if s.linkUp x m then (if sequenced kind then s.sendSequenced x m kind payload else s.sendPlain x m kind payload) else s
  | none => s

/-- A flooded flit of this module leaves East and West (R429). -/
def State.floodOut (s : State) (kind : BitVec 4) (payload : List Byte) : State := (s.floodPort 1 0 kind payload).floodPort 2 0 kind payload

/-- The first copy of a flooded flit goes on by the opposite ring port (R429). -/
def State.flood (s : State) (d l : Nat) (kind : BitVec 4) (payload : List Byte) : State :=
  match s.linkInfo d l with
  | none => s
  | some i => if i.port = 1 ∨ i.port = 2 then s.floodPort (3 - i.port) i.index kind payload else s

/-- A flooded flit has been seen. -/
def State.seen (s : State) (x : Flood) : State := { s with team := { s.team with flooded := s.team.flooded ++ [x] } }

/-- The first copy of a flooded flit goes on, and the later one is dropped (R429): whether this is the first. -/
def State.floodIn (s : State) (d l : Nat) (f : Flit) (x : Flood) : State × Bool :=
  if x ∈ s.team.flooded then (s, false) else ((s.seen x).flood d l f.kind f.payload, true)

/-- A Timetable frame (R412, R429, R432): the Coachman sends one for the members; one that arrives is forwarded once. It is delivered to firmware. -/
def execTimetableFrame (d l : Nat) (f : Flit) (x : TtFrame) (s : State) : Ans :=
  if x.own then
    (if s.rd TEAM_STATUS_STATE ≠ 3 ∨ .timetable x.ident ∈ s.team.flooded then .next s
     else .next (((s.seen (.timetable x.ident)).floodOut 7 f.payload).send (.forward d l 7 x.ident)))
  else
    let r := s.rxSequenced d l f
    if r.2 = false then .next r.1
    else
      let q := r.1.floodIn d l f (.timetable x.ident)
      .next (if q.2 then q.1.send (.forward d l 7 x.ident) else q.1)

/-- A capability block arrives: it settles the version of a link in training (R425), and is heard and flooded on while the module joins a team (R430). -/
def execCapabilityBlock (d l : Nat) (f : Flit) (s : State) : Ans :=
  let c := capOfBytes f.payload
  if s.linkThere d l = false then .next s
  else if s.rd (LINK_STATUS_STATE d l) = 1 then
    if flitBad f then .next (s.count (LINK_COUNT_CRC_ERR d l) 1)
    else
      match s.linkVersion c with
      | none => .next (s.versionFails d l c)
      | some v => .next (s.wr (LINK_STATUS_VER d l) v)
  else
    let r := s.rxPlain d l f
    let s := r.1
    if r.2 ∧ s.rd TEAM_STATUS_STATE = 1 ∧ ¬ c.host ∧ s.team.heard.all (fun h => decide (h.serial ≠ c.serial)) ∧ c.serial ≠ s.fuses.serial then
      .next (State.flood { s with team := { s.team with heard := s.team.heard ++ [c] } } d l 8 f.payload)
    else .next s

/-- Whether the ring route from this module to a slot by a port is whole: its first hop is UP and no other is known to be down (R435). -/
def State.wayWhole (s : State) (port slot : Nat) : Bool :=
  let size := max 1 (s.rd TEAM_CFG_SIZE)
  let east := (slot + size - s.mySlot % size) % size
  s.portUp port &&
    (if port = 1 then (List.range east).all (fun k => !s.team.down.contains ((s.mySlot + k) % size))
     else (List.range (size - east)).all (fun k => !s.team.down.contains ((s.mySlot + size - 1 - k) % size)))

/-- The port on which time comes in (R435, R436): the next hop on the shortest route to the Coachman, East on a tie, or the other way round while a hop of that route is
down; for the Coachman of a team other than team 0, the next hop on FLEET_ROUTE[0]. -/
def State.timePort (s : State) : Option Nat :=
  let size := max 1 (s.rd TEAM_CFG_SIZE)
  let toward (x : Nat) : Nat :=
    let p := if (x + size - s.mySlot % size) % size ≤ size / 2 then 1 else 2
    if s.wayWhole p x then p else 3 - p
  if s.rd TEAM_STATUS_STATE = 3 then
    (if s.myTeam = 0 ∨ s.flag (FLEET_ROUTE_VALID 0) = false then none
     else if s.rd (FLEET_ROUTE_SLOT 0) = s.mySlot then some (4 + s.rd (FLEET_ROUTE_PORT 0)) else some (toward (s.rd (FLEET_ROUTE_SLOT 0))))
  else if s.rd TEAM_STATUS_STATE = 2 then some (toward (s.rd TEAM_STATUS_COACH))
  else none

/-- The Coachman of a team other than team 0 hears the fleet's next tick time and the frame sequence number of that tick; its team joins the fleet only while no job
runs (R436). -/
def State.hearFleet (s : State) (fleet : Option (BitVec 64 × Nat)) : State :=
  if fleet.isSome ∧ s.rd TEAM_STATUS_STATE = 3 ∧ s.rd JOB_STATUS_STATE < 2 ∧ s.frame.fleetJoined = false then
    { s with frame := { s.frame with fleet := fleet } }
  else s

/-- Team time follows the upstream neighbour (R435): its value plus half of the round trip. A correction of more than 4 ns raises EV_TIME_SYNC_RANGE and asks for a
slip (R437). -/
def State.followTime (s : State) (d l : Nat) (time : BitVec 64) : State :=
  let half := s.rd (LINK_RTT_RTT d l) / 2
  let corr : Int := signed 64 (time - s.frame.teamTime).toNat * 1000 + half
  let s := { s with frame := { s.frame with teamTime := time + BitVec.ofNat 64 (half / 1000) } }
  if 4000 < corr.natAbs then
    let s := { s with frame := { s.frame with slipReq := true } }
    s.raise (mkEv 167 s.lead 0xFF 17 0 [(4, (corr % 2 ^ 32).toNat)])
  else s

/-- A time flit measures the round trip of its link (R422), tells which ring hops are down, and from the upstream neighbour sets team time (R435, R436). -/
def execTimeFlit (d l : Nat) (x : TimeIn) (s : State) : Ans :=
  let r := s.rxPlain d l x.flit
  match s.linkInfo d l with
  | none => .next s
  | some i =>
    if r.2 = false then .next r.1
    else
      let s := r.1.wr (LINK_RTT_RTT d l) x.rtt.toNat
      let s : State := { s with team := { s.team with down := x.down } }
      if s.timePort = some i.port then .next ((s.hearFleet x.fleet).followTime d l x.time) else .next s

/-- A time flit leaves on a link: what it carries, and the flit, whose payload the spec does not lay out (log entry 11). -/
def State.sendTime (s : State) (d l : Nat) : State :=
  ((s.send (.time d l s.frame.teamTime)).sendPlain d l 5 (s.freeBytes 246)).used 246

/-- Every 1,024 cycles a time flit goes to each ring neighbour, and over the fleet ports (R435, R436). -/
def execTimeFlitSend (s : State) : Ans :=
  .next ([1, 2, 4, 5, 6, 7].foldl (fun s p =>
    match s.linkOfPort p 0 with
    | some (d, l) => if s.linkHears d l then s.sendTime d l else s
    | none => s) s)

/-- The die at the other end of a die-to-die port (R21). -/
def State.portPeer (s : State) (d p : Nat) : Option Nat :=
  let e := d ^^^ 2 ^ p
  if p < 3 ∧ d < s.fuses.dies ∧ e < s.fuses.dies then some e else none

/-- A port retrains (R423): both ends are down until it is up again. -/
def State.portRetrain (s : State) (d p : Nat) : State :=
  match s.portPeer d p with
  | none => s
  | some e =>
    (((s.modPort d p (fun x => { x with up := false, replays := 0 })).modPort e p (fun x => { x with up := false, replays := 0 })).raise
      (mkEv 168 d 0xFF 23 p [(1, p)]))

/-- ACK of a die flit releases flits from the retry buffer (R414, R423). -/
def Port.acked (x : Port) (ack : BitVec 8) : Port :=
  match x.retry with
  | [] => x
  | g :: _ =>
    let n := (ack - g.seq).toNat + 1
    if n ≤ x.retry.length then { x with retry := x.retry.drop n, replays := 0 } else x

/-- What every die flit with a good CRC carries: ACK and credits (R423), counted by its tag (R46). -/
def Port.head (x : Port) (f : DieFlit) (later : Bool) : Port :=
  let x := x.acked f.ack
  { x with credits := x.credits + f.cret, crin := bump48 x.crin f.cret, earlyCr := if later then x.earlyCr + f.cret else x.earlyCr }

/-- A new die flit as its sender counts it: it takes a sequence number and a credit, and is kept for replay (R414, R416, R423). -/
def Port.put (x : Port) (f : DieFlit) (later : Bool) : Port :=
  { x with txNext := x.txNext + 1, sent := bump48 x.sent 1, credits := x.credits - 1, retry := x.retry ++ [f],
           earlySent := if later then x.earlySent + 1 else x.earlySent }

/-- A die flit accepted in order: its buffer is free again, and the credit goes back (R416, R423). -/
def Port.take (x : Port) (later : Bool) : Port :=
  { x with rxExp := x.rxExp + 1, recv := bump48 x.recv 1, ret := bump48 x.ret 1, nakAge := 0, early := if later then x.early + 1 else x.early }

/-- The flits of the retry buffer of end `e` of a port are sent again from a sequence number on, in order; the eighth replay of one flit retrains the port (R414, R415, R423). -/
def State.portReplay (s : State) (e p : Nat) (seq : BitVec 8) : State :=
  match (s.port e p).retry with
  | [] => s
  | f :: _ =>
    let fs := (s.port e p).retry.drop (seq - f.seq).toNat
    if fs = [] then s
    else
      let s := fs.foldl (fun s f => s.send (.dieFlit e p f)) s
      let s := s.modPort e p (fun x => { x with replays := x.replays + 1 })
      if 8 ≤ (s.port e p).replays then s.portRetrain e p else s

/-- End `d` of a port discards a die flit: while it waits for the expected one it names that to end `e`, at most once per 64 flit times (R414, R423). -/
def State.portDiscard (s : State) (d e p : Nat) : State :=
  let x := s.port d p
  if x.nakAge = 0 ∨ 64 ≤ x.nakAge then (s.modPort d p (fun x => { x with nakAge := 1 })).portReplay e p x.rxExp
  else s.modPort d p (fun x => { x with nakAge := x.nakAge + 1 })

/-- A die flit arrives at end `d` of a port from end `e` (R423): a new one counts as sent; with a good CRC its ACK and credits count, and in order it is accepted; otherwise it is
discarded. A port with an event record that waits stands still (R34). -/
def execDieFlit (d p : Nat) (f : DieFlit) (s : State) : Ans :=
  match s.portPeer d p with
  | none => .next s
  | some e =>
    if s.dieUp d = false ∨ s.dieUp e = false ∨ (s.port d p).up = false ∨ s.producerWaits d 0xFF 23 p then .next s
    else
      let new := decide (f.seq = (s.port e p).txNext)
      let late := s.later f.tag
      if new ∧ ((s.port e p).credits = 0 ∨ 128 ≤ (s.port e p).retry.length) then .next s
      else
        let s := if new then s.modPort e p (fun x => x.put f late) else s
        if dieFlitGood f = false then .next (s.portDiscard d e p)
        else
          let s := s.modPort d p (fun x => x.head f late)
          if f.seq ≠ (s.port d p).rxExp then .next (s.portDiscard d e p)
          else .next (s.modPort d p (fun x => x.take late))

/-- A port has retrained, and resumes by replay from the first flit that is not acknowledged; or it fails and fences the die whose training failed (R415, R423, R462). -/
def execD2dPortRetrained (d p : Nat) (ok : Bool) (s : State) : Ans :=
  match s.portPeer d p with
  | none => .next s
  | some e =>
    if s.dieUp d = false ∨ (s.port d p).up then .next s
    else if ok then
      let s := (s.modPort d p (fun x => { x with up := true })).modPort e p (fun x => { x with up := true })
      let s := (s.unitMended d 23 p).unitMended e 23 p
      let s := (s.port d p).retry.foldl (fun s f => s.send (.dieFlit d p f)) s
      .next ((s.port e p).retry.foldl (fun s f => s.send (.dieFlit e p f)) s)
    else .next (s.fenceFound d 168)

/-- Whether a request crosses a port on its way from its die to the link that carries it (R22). -/
def crossesPort (a b p x : Nat) : Bool := decide (64 + portKey a p ∈ hopPorts b x 3)

/-- The requests of this module that crossed a port receive link-reset responses, and are reissued (R85, R417). -/
def State.reissueOver (s : State) (d p : Nat) : State :=
  s.allLinks.foldl (fun s k => ((s.link k.1 k.2).reqs.filter (fun r => crossesPort d r.p.srcDie.toNat p k.1)).foldl
    (fun s r => s.putPacket k.1 k.2 r.type r.p r.data) s) s

/-- A port reinitialises (R85): both ends restart, sequence numbers with them (DESIGN CHOICE, log entry 70), and the requests outstanding over it are reissued. -/
def State.portReinit (s : State) (d p : Nat) : State :=
  match s.portPeer d p with
  | none => s
  | some e =>
    let f (x : Port) : Port := { portReset with up := x.up }
    ((s.modPort d p f).modPort e p f).reissueOver d p

end Sys2Proof.Machine
end

