-- ==== Sys2Proof/Machine/Job.lean ====
section
/-! DEFINITION. Job manifests: their checks and pickup (R77 to R82, R358 to R361), what a pickup sets, and the end of a job (R472). -/

namespace Sys2Proof.Machine

/-- The agreed version of an interface, 0 where none is (R537). -/
def State.agreed (s : State) (i : Nat) : Nat := field (s.rd MODULE_VERSIONS_V) (8 * i) 8

/-- A section entry of a manifest (R358). -/
structure Section where
  kind : Nat
  offset : Nat
  count : Nat
  deriving DecidableEq, Repr

/-- The bytes of a section. -/
def Section.bytes (x : Section) : Nat := if x.kind = 1 then 64 * x.count else if x.kind = 2 then 16 * x.count else if x.kind = 3 then x.count else 0

/-- The manifest header (R80). -/
structure Manifest where
  at_ : Nat
  format : Nat
  flags : Nat
  size : Nat
  frameLen : Nat
  slipLimit : Nat
  jobId : Nat
  owner : List Byte
  nRegions : Nat
  crc : Nat
  regionTable : Nat
  sections : List Section
  deriving DecidableEq, Repr

/-- The manifest header at an address. -/
def State.manifest (s : State) (a : Nat) : Manifest :=
  { at_ := a, format := s.natAt a 2, flags := s.natAt (a + 2) 2, size := s.natAt (a + 4) 4, frameLen := s.natAt (a + 8) 2,
    slipLimit := s.natAt (a + 10) 1, jobId := s.natAt (a + 12) 4, owner := s.bytesAt (a + 16) 32, nRegions := s.natAt (a + 48) 4,
    crc := s.natAt (a + 52) 4, regionTable := s.natAt (a + 56) 8,
    sections := (List.range 4).map (fun i =>
      { kind := s.natAt (a + 64 + 16 * i) 2, offset := s.natAt (a + 68 + 16 * i) 4, count := s.natAt (a + 72 + 16 * i) 4 }) }

/-- The section of a kind. -/
def Manifest.section_ (m : Manifest) (k : Nat) : Option Section := m.sections.find? (fun x => decide (x.kind = k))

/-- Sections in use. -/
def Manifest.used (m : Manifest) : List Section := m.sections.filter (fun x => decide (x.kind ≠ 0))

/-- Whether the sections of a manifest keep the rules of R358. -/
def Manifest.sectionsOk (m : Manifest) : Bool :=
  m.used.all (fun x => decide (x.kind ≤ 3) && decide (x.offset % 64 = 0) && decide (128 ≤ x.offset) && decide (x.offset + x.bytes ≤ m.size) &&
    !overlaps x.offset x.bytes m.regionTable (32 * m.nRegions) && (decide (x.kind ≠ 3) || decide (x.count ≤ 65536))) &&
    noPair (fun x y => decide (x.kind = y.kind) || overlaps x.offset x.bytes y.offset y.bytes) m.used

/-- Region entry `i` of a manifest (R359). -/
def State.regionEntry (s : State) (m : Manifest) (i : Nat) : Region :=
  let a := m.at_ + m.regionTable + 32 * i
  { regionNone with slot0 := s.natAt a 8, slot1 := s.natAt (a + 8) 8, size := s.natAt (a + 16) 8, tiles := s.natAt (a + 24) 4, die := s.natAt (a + 28) 1,
                    mirror := decide (s.natAt (a + 29) 1 % 2 = 1) }

/-- Whether `n` bytes from Depot offset `o` of a die lie wholly within its pinned regions. -/
def State.pinnedOver (s : State) (d o n fuel : Nat) : Bool :=
  match fuel with
  | 0 => false
  | fuel + 1 =>
    match s.pinnedAt d o with
    | some r => decide (n ≤ r.2 - o) || s.pinnedOver d r.2 (n - (r.2 - o)) fuel
    | none => false

/-- Whether a slot lies wholly within the LPDDR6 or the pinned Depot regions of a die (R359). -/
def State.slotOk (s : State) (d a n : Nat) : Bool :=
  decide (a % 4096 = 0) &&
    (if a < 0x010000000000 then decide (a / 0x2000000000 = d) && decide (a + n ≤ (d + 1) * 0x2000000000)
     else decide (sramBase d ≤ a) && s.pinnedOver d (a - sramBase d) n 16)

/-- Whether region entry `i` of a manifest keeps the rules of R359. -/
def State.regionOk (s : State) (m : Manifest) (i : Nat) : Bool :=
  let r := s.regionEntry m i
  decide (r.die < s.fuses.dies) && decide (r.size % 4096 = 0) && decide (1 ≤ r.tiles) && decide (s.natAt (m.at_ + m.regionTable + 32 * i + 29) 1 < 2) &&
    s.slotOk r.die r.slot0 r.size && s.slotOk r.die r.slot1 r.size

/-- Whether a shape entry keeps the rules of R361. -/
def State.shapeOk (s : State) (a : Nat) : Bool :=
  let mult (v : Nat) : Bool := decide (v ≠ 0) && decide (v % 64 = 0)
  decide (s.natAt (a + 2) 1 ≤ 3) && decide (s.natAt (a + 12) 4 ≤ 4194304) && mult (s.natAt (a + 20) 4) && mult (s.natAt (a + 24) 4) && mult (s.natAt (a + 28) 4)

/-- Whether a counter entry names a work counter of the module (R361). -/
def State.counterOk (s : State) (a : Nat) : Bool := decide (s.natAt a 2 < 1024) && decide (s.natAt (a + 2) 1 < s.fuses.dies)

/-- Whether the entries of the tables of a manifest are in range. -/
def State.tablesOk (s : State) (m : Manifest) : Bool :=
  (List.range m.nRegions).all (s.regionOk m) &&
    (match m.section_ 1 with
     | some x => (List.range x.count).all (fun i => s.shapeOk (m.at_ + x.offset + 64 * i))
     | none => true) &&
    (match m.section_ 2 with
     | some x => (List.range x.count).all (fun i => s.counterOk (m.at_ + x.offset + 16 * i))
     | none => true)

/-- Whether the header fields of a manifest are in range (R80). -/
def Manifest.fieldsOk (m : Manifest) : Bool :=
  decide (m.flags < 2) && decide (64 ≤ m.frameLen) && decide (m.frameLen ≤ 16384) && decide (1 ≤ m.slipLimit) && decide (m.slipLimit ≤ 15) &&
    decide (m.nRegions ≤ 65536) && (decide (m.nRegions = 0) || decide (128 ≤ m.regionTable)) && decide (m.regionTable + 32 * m.nRegions ≤ m.size)

/-- No owner (R424). -/
def noOwner : List Byte := List.replicate 32 0

/-- Whether the state of another owner bars a manifest (R43): what the module holds since the reset that clears owner state, or the team's
owner. -/
def State.ownerBars (s : State) (o : List Byte) : Bool :=
  (s.flag MODULE_STATUS_OWNER_STATE && decide (s.job.owner ≠ o)) || (decide (s.job.teamOwner ≠ []) && decide (s.job.teamOwner ≠ noOwner) && decide (s.job.teamOwner ≠ o))

/-- The code with which a manifest is refused, if it is (R81, R358, R361, R43). -/
def State.manifestFail (s : State) (m : Manifest) : Option Nat :=
  if m.at_ % 4096 ≠ 0 then some 3
  else if s.accessOk m.at_ 64 = false then some 5
  else if s.agreed 2 = 0 ∨ m.format ≠ s.agreed 2 then some 1
  else if m.size < 128 ∨ 16777216 < m.size then some 3
  else if s.accessOk m.at_ m.size = false then some 5
  else if crc32c (s.bytesAt m.at_ 52 ++ leBytes 4 0 ++ s.bytesAt (m.at_ + 56) (m.size - 56)) ≠ m.crc then some 2
  else if m.fieldsOk = false ∨ m.sectionsOk = false ∨ s.tablesOk m = false then some 3
  else if s.ownerBars m.owner then some 4
  else none

/-- A refused manifest leaves the module idle (R82). The JOB_ID of a header that cannot be read is 0 (DESIGN CHOICE, log entry 127. Unsafe). -/
def State.refuseManifest (s : State) (m : Manifest) (code : Nat) : State :=
  let s := (((s.wr JOB_STATUS_REFUSED 1).wr JOB_STATUS_REFUSE_CODE code).wr JOB_STATUS_STATE 0).wr JOB_SUBMIT_GO 0
  let id := if s.accessOk m.at_ 64 then m.jobId else 0
  if code = 4 then s.raiseLead 10 17 [(4, id)] else s.raiseLead 9 17 [(4, id), (1, code)]

/-- The counter table is written into the registers it names, for the first tick (R361). NEXT is not named. -/
def State.armCounters (s : State) (m : Manifest) : State :=
  match m.section_ 2 with
  | none => s
  | some x =>
    (List.range x.count).foldl (fun s i =>
      let a := m.at_ + x.offset + 16 * i
      let k := s.natAt a 2
      let d := s.natAt (a + 2) 1
      ((s.pendField (WORK_CTR_NEXT_LIMIT d k) (s.natAt (a + 4) 4)).pendField (WORK_CTR_CFG_MT d k) (s.natAt (a + 8) 2)).pendField (WORK_CTR_CFG_TROWS d k)
        (s.natAt (a + 3) 1)) s

/-- The program image is copied to offset 0 of task window 0 of every active core of every die that serves (R361). -/
def State.copyProgram (s : State) (m : Manifest) : State :=
  match m.section_ 3 with
  | none => s
  | some x =>
    let bs := s.bytesAt (m.at_ + x.offset) x.count
    (s.dieList.filter s.dieUp).foldl (fun s d => (List.range s.nCores).foldl (fun s c =>
      let a := coreAddr d c (s.rd (SPAD_WIN_BASE d c 0))
      if s.accessOk a bs.length then s.setBytes a bs else s) s) s

/-- Both slots of every mirrored region of a die are copied to the buddy, and the mirror is current (R465). -/
def State.copyMirrors (s : State) (d : Nat) : State :=
  if s.flag (MIRROR_CFG_EN d) = false then s
  else
    let rs := s.regions.filter (fun e => e.2.mirror && decide (e.2.die = d))
    let s := rs.foldl (fun s e =>
      (s.toBuddy d (s.mirrorOffset e.1 false) (s.bytesAt e.2.slot0 e.2.size)).toBuddy d (s.mirrorOffset e.1 true) (s.bytesAt e.2.slot1 e.2.size)) s
    (s.wr (MIRROR_STATUS_CURRENT d) 1).wr (MIRROR_STATUS_HOLDING d) (if 2 ≤ s.team.positions.length then 1 else 0)

/-- A manifest is taken (R79, R80, R359, R361, R512): the job runs with its frame settings, regions, counters and program. -/
def State.takeManifest (s : State) (m : Manifest) : State :=
  let s := ((s.wr JOB_STATUS_STATE 2).wr JOB_STATUS_JOB_ID m.jobId).wr JOB_SUBMIT_GO 0
  let s := ((s.wr FRAME_CFG_LEN m.frameLen).wr FRAME_CFG_DISC (m.flags % 2)).wr FRAME_CFG_SLIP_LIMIT m.slipLimit
  let s := (s.wr MODULE_STATUS_OWNER_STATE 1).orphanTakes (fun _ => true)
  let team := if s.job.teamOwner = [] ∨ s.job.teamOwner = noOwner then m.owner else s.job.teamOwner
  let s := { s with
    regions := (List.range m.nRegions).map (fun i => (i, s.regionEntry m i)),
    items := [],
    job := { s.job with manifest := m.at_, size := m.size, timed := decide (m.flags % 2 = 1), pickup := s.frameSeq, regionTab := m.at_ + m.regionTable,
                        nRegions := m.nRegions, owner := m.owner, teamOwner := team, resume := false, ticksSince := 0, restoring := false } }
  let s := s.dieList.foldl (fun s d => (s.modDie d (fun y => { y with mirrorLive := [] })).refreshLive d) s
  let s := (s.armCounters m).copyProgram m
  let s := (s.dieList.filter s.dieUp).foldl (fun s d => s.copyMirrors d) s
  (s.extend 6 m.owner).extend 7 (s.bytesAt m.at_ m.size)

/-- At cycle H the lead die takes a submitted manifest, or refuses it, while no job runs or is paused (R79). In service mode it stays
pending (R535). -/
def State.pickup (s : State) : State :=
  if s.flag JOB_SUBMIT_GO = false ∨ 2 ≤ s.rd JOB_STATUS_STATE ∨ s.dieUp s.lead = false then s
  else if s.flag MODULE_STATUS_SERVICE then s.wr JOB_STATUS_STATE 1
  else
    let m := s.manifest (s.rd JOB_SUBMIT_MANIFEST_ADDR)
    match s.manifestFail m with
    | some c => s.refuseManifest m c
    | none => s.takeManifest m

/-- A job ends (R472): what runs is aborted, and no work item remains. -/
def State.endJob (s : State) : State :=
  let s := s.abortAll.orphanTakes (fun _ => true)
  let s := { s with items := [], job := { s.job with resume := false, restoring := false, ticksSince := 0 } }
  s.wr JOB_STATUS_STATE (if s.flag JOB_SUBMIT_GO then 1 else 0)

end Sys2Proof.Machine
end

