-- ==== Sys2Proof/Machine/Waybill.lean ====
section
/-! DEFINITION. The Waybill: its snapshot and laws (R83, R84, R356), and the reinitialisation of a violated instance (R85). -/

namespace Sys2Proof.Machine

/-- A violated instance: the die, the law (0 to 6 as R553, 7 for a region of the lease law), the instance and both sides. -/
structure Violation where
  die : Nat
  law : Nat
  inst : Nat
  left : Nat
  right : Nat
  deriving DecidableEq, Repr

/-- An instance whose sides differ. -/
def unequal (d law inst left right : Nat) : List Violation :=
  if left = right then [] else [{ die := d, law := law, inst := inst, left := left % 2 ^ 48, right := right % 2 ^ 48 }]

/-- The link law in one direction (R84), from the sender's and the receiver's counts: HELD_a + (SENT_a − RECV_b) + OCC_b + (RET_b − CRIN_a) = CT, with at most
`flight` in flight. -/
def linkLaw (d inst ct flight held sent crin recv occ ret : Nat) : List Violation :=
  let f := diff48 sent recv
  let left := (held + f + occ + diff48 ret crin) % 2 ^ 48
  if left = ct ∧ f ≤ flight then [] else [{ die := d, law := 0, inst := inst, left := left, right := ct }]

/-- The laws of a link in both directions, once both copies are known. Instance l is the direction out, 16 + l the direction in. -/
def linkLaws (d l ct : Nat) (a b : LinkCounts) : List Violation :=
  linkLaw d l ct 2048 a.held a.sent a.crin b.recv b.occ b.ret ++ linkLaw d (16 + l) ct 2048 b.held b.sent b.crin a.recv a.occ a.ret

/-- The link law of a die-to-die port in the direction out of a die (R423), over what carries the tag of a frame that has begun (R46): instance 4 + p. -/
def State.portLaw (s : State) (d p : Nat) : List Violation :=
  match s.portPeer d p with
  | none => []
  | some e =>
    let a := s.port d p
    let b := s.port e p
    if s.dieUp e ∧ a.up ∧ b.up then linkLaw d (4 + p) 512 128 (a.credits + a.earlySent - a.earlyCr) (diff48 a.sent a.earlySent)
      (diff48 a.crin a.earlyCr) (diff48 b.recv b.early) b.occ (diff48 b.ret b.early) else []

/-- The Dray law of a channel. -/
def State.drayLaw (s : State) (d n : Nat) : List Violation :=
  let acc := s.rd (DRAY_CH_ACC_CNT_ACC d n)
  let cmp := s.rd (DRAY_CH_CMP_CNT_CMP d n)
  let q := (s.chan d n).q.length
  let parts := (s.rd (DRAY_CH_OK_CNT_OK d n) + s.rd (DRAY_CH_ERR_CNT_ERR d n) + s.rd (DRAY_CH_CAN_CNT_CAN d n)) % 2 ^ 48
  if diff48 acc cmp ≠ q ∨ chanDepth n < q then [{ die := d, law := 1, inst := n, left := diff48 acc cmp, right := q }]
  else unequal d 1 n cmp parts

/-- Σ QW of a die. -/
def State.recordsPut (s : State) (d : Nat) : Nat := ((List.range 64).map (fun q => s.rd (DRAY_CQ_QW_QW d q))).foldl (· + ·) 0 % 2 ^ 48

/-- Σ CMP of a die. -/
def State.recordsDue (s : State) (d : Nat) : Nat := ((s.channels d).map (fun n => s.rd (DRAY_CH_CMP_CNT_CMP d n))).foldl (· + ·) 0 % 2 ^ 48

/-- Σ QW less Σ CMP of a die, modulo 2⁴⁸. -/
def State.recordDiff (s : State) (d : Nat) : Nat := diff48 (s.recordsPut d) (s.recordsDue d)

/-- The law of completion records of a die, less its offset (R85). -/
def State.recordLaw (s : State) (d : Nat) : List Violation :=
  unequal d 2 0 (diff48 (s.recordsPut d) ((s.die d).recOffset % 2 ^ 48).toNat) (s.recordsDue d)

/-- The tokens of a pair that a core holds and those in transit to it, as the laws count them: HELD_fe falls only when a post arrives, so that a token in transit
is counted in INFL_fe alone (R36, R118; log entry 106). -/
def Pair.out (p : Pair) : Nat := (p.held - p.infl) + p.infl

/-- The token law of every pair of a sequencer; the instance is the sequencer and the full semaphore. -/
def State.pairLaws (s : State) (d q : Nat) : List Violation :=
  let c := s.core d q
  c.pairs.flatMap (fun e => unequal d 3 (q * 256 + e.1) (c.semVal e.1 + c.semVal (e.1 + 1) + e.2.out) e.2.total)

/-- FREE, FILL, FULL and DRAIN of the stream bound to a channel (R346). -/
def State.slots (s : State) (d n : Nat) : Nat × Nat × Nat × Nat :=
  let c := s.core d (s.rd (DRAY_CH_SCFG_CORE d n))
  let f := s.rd (DRAY_CH_SCFG_PAIR d n)
  let p := tabGet c.pairs f pairNone
  let fill := (s.chan d n).fill
  (c.semVal (f + 1), fill, c.semVal f, p.out - fill)

/-- Whether a stream entry is bound as R344 asks. -/
def State.bound (s : State) (d : Nat) (e : StreamEntry) : Bool :=
  let c := s.core d (s.rd (DRAY_CH_SCFG_CORE d e.chan))
  s.flag (DRAY_CH_SCFG_BIND d e.chan) && (c.pairOf (s.rd (DRAY_CH_SCFG_PAIR d e.chan))).isSome &&
    decide (s.rd (DRAY_CH_SCFG_PAIR d e.chan) % 2 = 0) && decide ((tabGet c.pairs (s.rd (DRAY_CH_SCFG_PAIR d e.chan)) pairNone).total = e.slots)

/-- The slot law of the streams of a die. -/
def State.streamLaws (s : State) (d : Nat) : List Violation :=
  (s.activeTT d).streams.flatMap (fun e =>
    if s.bound d e then
      let x := s.slots d e.chan
      unequal d 4 e.chan (x.1 + x.2.1 + x.2.2.1 + x.2.2.2) e.slots
    else [])

/-- The work counters of a die that a register word names: every other stands at reset. -/
def State.counters (s : State) (d : Nat) : List Nat :=
  s.regs.foldl (fun ks e =>
    match e.1 with
    | .WORK_CTR_NEXT x k => if x = d then insertAsc k ks else ks
    | .WORK_CTR_TAKES x k => if x = d then insertAsc k ks else ks
    | .WORK_CTR_BASE x k => if x = d then insertAsc k ks else ks
    | .WORK_CTR_FRAME x k => if x = d then insertAsc k ks else ks
    | .WORK_CTR_HELD x k => if x = d then insertAsc k ks else ks
    | _ => ks) []

/-- The lease law of a counter. -/
def State.leaseLaw (s : State) (d k : Nat) : List Violation :=
  unequal d 5 k (diff48 (s.rd (WORK_CTR_TAKES_TAKES d k)) (s.rd (WORK_CTR_BASE_BASE d k)))
    (s.rd (WORK_CTR_FRAME_DONE d k) + s.rd (WORK_CTR_HELD_HELD d k) + s.rd (WORK_CTR_FRAME_RET d k))

/-- The lease law of the regions of a die: more tiles counted done than the region has cannot commit (R84). -/
def State.regionLaws (s : State) (d : Nat) : List Violation :=
  s.regions.flatMap (fun e => if e.2.die = d ∧ e.2.named ∧ e.2.tiles < e.2.done then unequal d 7 e.1 e.2.done e.2.tiles else [])

/-- The optimiser law of a die, at the tick closing a step (R84, R391). -/
def State.optLaw (s : State) (d : Nat) : List Violation :=
  if (s.die d).closing ∨ (s.die d).twice then
    match s.optFail d with
    | some (e, l, r) => [{ die := d, law := 6, inst := e, left := l, right := r }]
    | none => []
  else []

/-- Sequencers of a die that hold anything. -/
def State.seqs (s : State) (d : Nat) : List Nat := (s.cores.filter (fun e => decide (e.1 / 128 = d))).map (fun e => e.1 % 128)

/-- A violation in its place among those of ascending instance: errors of one unit raised in one cycle are entered so (R454). -/
def byInstance (v : Violation) (vs : List Violation) : List Violation :=
  match vs with
  | [] => [v]
  | w :: t => if w.inst ≤ v.inst then w :: byInstance v t else v :: w :: t

/-- The laws that a die decides from its own snapshot (R84), in ascending instance. -/
def State.dieLaws (s : State) (d : Nat) : List Violation :=
  ((List.range 3).flatMap (s.portLaw d) ++ (s.channels d).flatMap (s.drayLaw d) ++ s.recordLaw d ++ (s.seqs d).flatMap (s.pairLaws d) ++
    s.streamLaws d ++ (s.counters d).flatMap (s.leaseLaw d) ++ s.regionLaws d ++ s.optLaw d).foldl (fun vs v => byInstance v vs) []

/-- The items that used a violated instance (R85). -/
def usedBy (v : Nat × Nat × Nat) (k : Nat) (x : Item) : Bool :=
  let (d, law, i) := v
  let mine := decide (k / 1024 = d)
  if law = 0 then
    (if i % 16 < 4 then x.last.links.contains (linkKey d (i % 16)) else x.last.links.contains (64 + portKey d (i % 16 - 4)))
  else if law = 1 then mine && x.last.chans.contains i
  else if law = 2 then mine && decide (x.last.chans ≠ [])
  else if law = 3 then
    let f := i % 256
    let q := i / 256
    (mine && decide (x.runCore = q) && (x.last.sems.contains f || x.last.sems.contains (f + 1))) ||
      x.last.posts.contains (coreKey d q * 256 + f) || x.last.posts.contains (coreKey d q * 256 + f + 1)
  else if law = 5 then mine && x.entry.leased && decide (x.entry.counter = i)
  else if law = 7 then x.entry.regions.contains i
  else false

/-- The instances that an item may have used: a stream stands for its channel and its pair (R85). -/
def State.usedInstances (s : State) (vs : List (Nat × Nat × Nat)) : List (Nat × Nat × Nat) :=
  vs.flatMap (fun v =>
    if v.2.1 = 4 then [(v.1, 1, v.2.2), (v.1, 3, s.rd (DRAY_CH_SCFG_CORE v.1 v.2.2) * 256 + s.rd (DRAY_CH_SCFG_PAIR v.1 v.2.2))] else [v])

/-- Whether an item that names a region used a violated instance (R85). -/
def State.holdsBack (s : State) (vs : List (Nat × Nat × Nat)) : Bool :=
  let us := s.usedInstances vs
  s.items.any (fun e => us.any (fun v => usedBy v e.1 e.2) && decide (e.2.entry.regions ≠ []))

/-- A violated instance raises EV_WAYBILL_MISMATCH and is to be reinitialised at cycle H (R85). -/
def State.violate (s : State) (v : Violation) : State :=
  let law := if v.law = 7 then 5 else v.law
  let s := { s with frame := { s.frame with violated := s.frame.violated ++ [(v.die, v.law, v.inst)], causes := s.frame.causes ||| 4 ||| (if s.holdsBack [(v.die, v.law, v.inst)] then 2 else 0) } }
  s.raise (mkEv 11 v.die 0xFF 18 v.inst [(1, law), (2, v.inst), (6, v.left), (6, v.right)])

/-- The laws of a link are decided from both copies, which are then done with (R83, R84). -/
def State.decideLink (s : State) (d l : Nat) (a b : LinkCounts) : State :=
  (linkLaws d l (s.link d l).ct a b).foldl (fun s v => s.violate v) (s.modLink d l (fun x => { x with mine := none, peer := none }))

/-- The copy of the link counters that a snapshot takes (R83, R46): counts of later frames are left out, and with a flit of a later frame the credit returned for it
(DESIGN CHOICE, log entry 112. Unsafe). -/
def Link.counts (x : Link) : LinkCounts :=
  { sent := x.sent, recv := diff48 x.recv x.early, ret := diff48 x.ret x.early, crin := diff48 x.crin x.earlyCr, occ := x.occ, held := x.credits - x.earlyCr }

/-- The snapshot of the link counters (R83). The law is checked only where the link has been UP since the previous snapshot (R418), and at once where the copy of the
partner is here before. The copies go out in Waybill flits. -/
def State.snapLink (s : State) (d l : Nat) : State :=
  let x := s.link d l
  let up := s.linkThere d l && s.linkUp d l
  let c := x.counts
  let s := s.modLink d l (fun y => { y with early := 0, earlyCr := 0, mine := if x.upSince ∧ up then some c else none, upSince := up, peer := none })
  let s := match x.peer with
    | some b => if x.upSince ∧ up then s.decideLink d l c b else s
    | none => s
  if up then s.sendSequenced d l 4 (leBytes 6 c.sent ++ leBytes 6 c.recv ++ leBytes 6 c.ret ++ leBytes 6 c.crin ++ leBytes 2 c.occ ++ leBytes 2 c.held) else s

/-- A pair goes back to its declared state, and posts to it in transit are dropped on arrival (R85). -/
def State.pairReinit (s : State) (d q f : Nat) : State :=
  let t := (tabGet (s.core d q).pairs f pairNone).total
  let s := s.modCore d q (fun c => { c with sem := tabSet (tabSet c.sem f 0) (f + 1) t, pairs := tabSet c.pairs f { total := t, held := 0, infl := 0 } })
  { s with posts := s.posts.map (fun p => if p.dst = d ∧ p.seq = q ∧ (p.sem = f ∨ p.sem = f + 1) then { p with dropped := true } else p) }

/-- A channel goes back as by DRAY.CANCEL, so that ACC equals CMP once its records are written (R85, R337); CAN takes what the parts of CMP lack, so that the law
holds again (R86; DEDUCED, log entry 116. Unsafe). -/
def State.chanReinit (s : State) (d n : Nat) : State :=
  let s := s.cancelChan d n
  let cmp := s.rd (DRAY_CH_CMP_CNT_CMP d n)
  (s.wr (DRAY_CH_ACC_CNT_ACC d n) (cmp + (s.chan d n).q.length)).wr (DRAY_CH_CAN_CNT_CAN d n)
    (diff48 (diff48 cmp (s.rd (DRAY_CH_OK_CNT_OK d n))) (s.rd (DRAY_CH_ERR_CNT_ERR d n)))

/-- A counter goes back to the settings it was last given: every lease of it has returned, and it issues its tiles afresh (R85). -/
def State.ctrReinit (s : State) (d k : Nat) : State :=
  let s := s.items.foldl (fun s e =>
    if e.1 / 1024 = d ∧ e.2.entry.leased ∧ e.2.entry.counter = k ∧ e.2.leases ≠ [] then
      (s.returnLeases e.1 false).modItem e.1 (fun i => { i with retAll := i.retAll && decide (i.st ≠ .running) })
    else s) s
  let s := s.setRlist d k []
  let s := ((s.wr (WORK_CTR_HELD_HELD d k) 0).wr (WORK_CTR_FRAME_DONE d k) 0).wr (WORK_CTR_FRAME_RET d k) 0
  (s.wr (WORK_CTR_BASE_BASE d k) (s.rd (WORK_CTR_TAKES_TAKES d k))).wr (WORK_CTR_NEXT_NEXT d k) (tabGet s.ctrNext (ctrKey d k) 0)

/-- A link reinitialises while it is UP (R85, R417): its law is checked at the next snapshot again (R86). -/
def State.linkAfresh (s : State) (d l : Nat) : State :=
  let up := (s.link d l).upSince
  ((s.linkReinit d l).modLink d l (fun x => { x with upSince := up })).linkResumes d l

/-- A violated instance is reinitialised at cycle H (R85). The optimiser law is handled by the rollback (R393). Of a
stream, see log entry 111. -/
def State.reinit (s : State) (v : Nat × Nat × Nat) : State :=
  let (d, law, i) := v
  if s.dieUp d = false then s
  else if law = 0 then
    (if i % 16 < 4 then s.linkAfresh d (i % 16) else s.portReinit d (i % 16 - 4))
  else if law = 1 then s.chanReinit d i
  else if law = 2 then s.modDie d (fun y => { y with recOffset := (s.recordDiff d : Nat) })
  else if law = 3 then s.pairReinit d (i / 256) (i % 256)
  else if law = 4 then
    ((s.chanReinit d i).pairReinit d (s.rd (DRAY_CH_SCFG_CORE d i)) (s.rd (DRAY_CH_SCFG_PAIR d i))).modChan d i (fun c =>
      { c with fill := 0, q := c.q.map (fun r => { r with credit := false }) })
  else if law = 5 then s.ctrReinit d i
  else if law = 7 then s.modRegion i (fun x => { x with done := 0 })
  else s

/-- Items that used a violated instance are withheld, with the regions they name, and are to run again (R85, R552). One that still runs goes on (R68), and
runs again after that (log entry 108). -/
def State.withholdUsers (s : State) (vs : List (Nat × Nat × Nat)) : State :=
  let us := s.usedInstances vs
  s.items.foldl (fun s e =>
    if us.any (fun v => usedBy v e.1 e.2) then
      let s := s.modItem e.1 Item.withhold
      e.2.entry.regions.foldl (fun s r => s.modRegion r (fun x => { x with withheld := true })) s
    else s) s

/-- The counters that R85 reinitialises, by key. -/
def reinitCounters (vs : List (Nat × Nat × Nat)) : List Nat := (vs.filter (fun v => decide (v.2.1 = 5))).map (fun v => ctrKey v.1 v.2.2)

end Sys2Proof.Machine
end

