-- ==== Sys2Proof/Machine/Recovery.lean ====
section
/-! DEFINITION. Pause and resumption of a job (R70, R476), the state image (R472 to R477), buddy mirrors (R464 to R467), the remap to a spare (R468,
R469), and the comparison of replica digests (R403 to R405). -/

namespace Sys2Proof.Machine

/-- Whether the module is the Coachman of its team (R440). -/
def State.isCoach (s : State) : Bool := decide (s.rd TEAM_STATUS_STATE = 3)

/-- An event of the Coachman, raised on its lead die (R451); other members raise none, nor does a module in no team, which has no Coachman (R69; DESIGN CHOICE, log
entry 123. Unsafe). -/
def State.coachEvent (s : State) (num : Nat) (items : List (Nat × Nat)) : State := if s.isCoach then s.raiseLead num 24 items else s

/-- The job pauses (R70): work items that run are aborted, and EV_JOB_PAUSED names the event that caused it. -/
def State.pauseJob (s : State) (cause : Nat) : State :=
  if s.rd JOB_STATUS_STATE ≠ 2 then s
  else (s.abortAll.wr JOB_STATUS_STATE 3).coachEvent 15 [(6, s.frameSeq), (2, cause)]

/-- EV_RESUME_REFUSED with its order and cause (R553). -/
def State.refuseOrder (s : State) (order cause : Nat) : State := s.raiseLead 17 24 [(1, order), (1, cause)]

/-- Whether every unit of the module is idle (R473). -/
def State.allIdle (s : State) : Bool :=
  s.cores.all (fun e => decide (e.2.running = []) && e.2.queues.all (fun q => decide (q.2 = []))) &&
    s.chans.all (fun e => decide (e.2.st ≠ .running)) && decide (s.posts = [])

/-- The image area of a die (R472). -/
def State.imageBase (s : State) (d : Nat) : Nat := d * 0x2000000000 + s.rd IMAGE_CFG_OFFSET

/-- Bytes of the image area of a die. -/
def imageBytes : Nat := 16777216

/-- Whether the image area of a die meets a region slot or a mirror slot (R473). Mirror slots of the predecessor lie where MIRROR_CFG places
those of this module, since every member has the same settings (log entry 29). -/
def State.imageOverlaps (s : State) (d : Nat) : Bool :=
  let a := s.imageBase d
  s.regions.any (fun e => overlaps e.2.slot0 e.2.size a imageBytes || overlaps e.2.slot1 e.2.size a imageBytes) ||
    s.dieList.any (fun x =>
      let n := ((s.regions.filter (fun e => e.2.mirror && decide (e.2.die = x))).map (fun e => 2 * e.2.size)).foldl (· + ·) 0
      s.flag (MIRROR_CFG_EN x) && overlaps (s.rd (MIRROR_BASE_BASE x)) n a imageBytes)

/-- An order for a state image takes effect (R473): refused where the image would overlap a region or mirror slot. -/
def State.orderImage (s : State) : State :=
  let s := s.wr JOB_CTRL_IMAGE 0
  if s.dieList.any s.imageOverlaps then s.refuseOrder 2 8
  else { s.wr IMAGE_STATUS_BUSY 1 with job := { s.job with imageOrder := true } }

/-- The snapshot of the module at cycle 0 (R473): everything that the sections of R474 copy. -/
def State.takeSnap (s : State) : State :=
  let z : Snap :=
    { seq := s.frameSeq, regs := s.regs, cores := s.cores, items := s.items, chans := s.chans, rlists := s.rlists, regions := s.regions,
      mirrors := s.dies.map (fun e => (e.1, e.2.mirrorLive)), links := s.links, ports := s.ports,
      timetables := s.mem.filter (fun c => s.dieList.any (fun d => decide (stagingBuf d ≤ c.1) && decide (c.1 < stagingBuf d + 0x20000))) }
  let s := (s.wr IMAGE_STATUS_BUSY 1).wr IMAGE_STATUS_VALID 0
  { s with job := { s.job with snap := some z, imageOrder := false, imageAt := [] } }

/-- At the tick, an ordered image is taken once every unit is idle (R473). -/
def State.snapIfIdle (s : State) : State :=
  if s.job.imageOrder ∧ s.rd JOB_STATUS_STATE ≠ 2 ∧ s.allIdle then s.takeSnap else s

/-- The known bytes of a die's image header (R474): offset and value. -/
def State.imageHeader (s : State) (d seq : Nat) : List (Nat × List Byte) :=
  [(0, leBytes 2 (s.agreed 4)), (2, leBytes 1 d), (8, leBytes 6 seq), (16, leBytes 2 (if d = s.lead then 11 else 10))]

/-- A die's image is written (R474). The spec gives the sections' contents and leaves their bytes open: they are free values (log entry 30). -/
def State.writeImage (s : State) (d seq : Nat) : State :=
  let a := s.imageBase d
  let s := s.forgetAt a imageBytes (imageBytes / 256 + 2)
  let s := (s.imageHeader d seq).foldl (fun s x => s.setBytes (a + x.1) x.2) s
  let u := s.undef.filter (fun r => decide (r.1 < a + imageBytes) && decide (a < r.2.1))
  { s with job := { s.job with imageAt := s.job.imageAt ++ [(a, u, s.bytesAt a 18)] } }

/-- The management plane has written the image: VALID, with EV_IMAGE_DONE (R473). Bytes per die depend on the section sizes, a free value. -/
def execImageDone (s : State) : Ans :=
  match s.job.snap with
  | none => .next s
  | some z =>
    if s.flag IMAGE_STATUS_BUSY = false ∨ s.job.imageAt ≠ [] then .next s
    else
      let s := (s.dieList.filter s.dieUp).foldl (fun s d => s.writeImage d z.seq) s
      let s := ((s.wr IMAGE_STATUS_SEQ z.seq).wr IMAGE_STATUS_VALID 1).wr IMAGE_STATUS_BUSY 0
      .next ((s.raiseLead 18 17 [(6, z.seq), (4, (Config.freeWord s.fresh).toNat)]).used 1)

/-- Whether the images stand as they were written, so that their CRCs hold. -/
def State.imageIntact (s : State) : Bool :=
  decide (s.job.imageAt ≠ []) &&
    s.job.imageAt.all (fun x =>
      decide (s.undef.filter (fun r => decide (r.1 < x.1 + imageBytes) && decide (x.1 < r.2.1)) = x.2.1) && decide ((s.bytesAt x.1 18).take 8 = x.2.2.take 8) &&
        decide ((s.bytesAt x.1 18).drop 14 = x.2.2.drop 14))

/-- The register words of sections 2 to 6 of an image. -/
def imageWord (r : RegId) : Bool :=
  match r with
  | .SEQ_EXC _ _ => true
  | .WORK_CTR_NEXT _ _ => true
  | .WORK_CTR_CFG _ _ => true
  | .WORK_CTR_TAKES _ _ => true
  | .WORK_CTR_BASE _ _ => true
  | .WORK_CTR_FRAME _ _ => true
  | .WORK_CTR_HELD _ _ => true
  | .WORK_CTR_SKIP _ _ => true
  | .WORK_CTR_REFUSED _ _ => true
  | _ => false

/-- Sections 2 to 6 of the image go back into the units (R477); ACC of a channel follows the descriptors it then holds. -/
def State.applyImage (s : State) (z : Snap) : State :=
  let s : State := { s with
    cores := z.cores, items := z.items, chans := z.chans, rlists := z.rlists,
    regs := (s.regs.filter (fun e => !imageWord e.1)) ++ z.regs.filter (fun e => imageWord e.1) }
  s.chans.foldl (fun s e =>
    let d := e.1 / 512
    let n := e.1 % 512
    s.wr (DRAY_CH_ACC_CNT_ACC d n) (s.rd (DRAY_CH_CMP_CNT_CMP d n) + e.2.q.length)) s

/-- RESTORE takes effect (R477): refused, or the image goes back and the job stays paused. -/
def State.restoreImage (s : State) : State :=
  let s := s.wr JOB_CTRL_RESTORE 0
  if s.rd JOB_STATUS_STATE ≠ 3 then s.refuseOrder 1 4
  else
    match s.job.snap with
    | none => s.refuseOrder 1 5
    | some z =>
      if s.imageIntact = false then s.refuseOrder 1 5
      else if s.agreed 4 = 0 then s.refuseOrder 1 6
      else if (s.dieList.filter s.dieUp).any (fun d => decide (s.natAt (s.imageBase d + 8) 6 ≠ s.rd IMAGE_STATUS_SEQ)) then s.refuseOrder 1 7
      else s.applyImage z

/-- The mirror slots of regions flip on a buddy die. -/
def State.flipMirror (s : State) (d : Nat) (rs : List Nat) : State :=
  s.modDie d (fun y => { y with mirrorLive := rs.foldl (fun t r => tabSet t r (!tabGet t r false)) y.mirrorLive })

/-- The member position before this one, whose mirror it holds (R464). -/
def State.predPos (s : State) : Nat :=
  let m := max 1 s.team.positions.length
  (s.rd TEAM_STATUS_POS + m - 1) % m

/-- At cycle H a buddy die applies the commit list it holds; without one it waits, clears CURRENT and raises EV_MIRROR_STALE (R466). -/
def State.applyCommit (s : State) (d : Nat) : State :=
  let x := s.die d
  if s.flag (MIRROR_STATUS_HOLDING d) = false then s
  else
    match x.commitList with
    | some rs => (s.flipMirror d rs).modDie d (fun y => { y with commitList := none })
    | none =>
      (((s.wr (MIRROR_STATUS_CURRENT d) 0).modDie d (fun y => { y with commitHeld := true })).raise
        (mkEv 182 d 0xFF 17 0 [(1, s.predPos), (1, d), (6, s.frameSeq)]))

/-- A commit list arrives (R466): within the hold it is kept for cycle H; later, the mirror flips at once and is current again. -/
def execCommitList (d frame : Nat) (flips : List Nat) (s : State) : Ans :=
  if s.dieUp d = false then .next s
  else if s.frame.inHold ∧ frame = s.frameSeq then .next (s.modDie d (fun y => { y with commitList := some flips }))
  else if (s.die d).commitHeld then
    .next (((s.flipMirror d flips).wr (MIRROR_STATUS_CURRENT d) 1).modDie d (fun y => { y with commitHeld := false }))
  else .next s

/-- The commit list of a die: the mirrored regions that flip at this tick, and those that a rollback turns back (R466). -/
def State.commitOut (s : State) (d : Nat) : List Nat :=
  (s.regions.filter (fun e =>
    e.2.mirror && decide (e.2.die = d) &&
      (match s.shardOf d e.1 with
       | none => e.2.named && !e.2.withheld
       | some x =>
         if s.rollbackDue d then vFlip (s.version d x)
         else e.2.named && !e.2.withheld && decide (s.rd (OPT_STATUS_WINDOW d) ≠ 0) && !vFlip (s.version d x)))).map (fun e => e.1)

/-- Each die with a buddy sends its commit list (R466). -/
def State.sendCommits (s : State) : State :=
  (s.dieList.filter (fun d => s.dieUp d && s.flag (MIRROR_CFG_EN d))).foldl (fun s d => s.send (.commitList d (s.rd (MIRROR_CFG_BUDDY_POS d)) (s.rd (MIRROR_CFG_BUDDY_DIE d)) s.frameSeq (s.commitOut d))) s

/-- The capability block heard from a ring slot; the module's own for its own slot. -/
def State.capOf (s : State) (slot : Nat) : Option CapBlock :=
  if slot = s.mySlot then some s.ownCap else s.team.heard.find? (fun c => decide (c.slot.toNat = slot))

/-- The active core count of the module in a ring slot (R468; log entry 117). -/
def State.coresOf (s : State) (slot : Nat) : Nat := if slot = s.mySlot then s.nCores else tabGet s.team.cores slot 0

/-- The unused spare that takes a lost position: the lowest ring slot whose DIES and active core count equal the lost module's (R468). -/
def State.spareFor (s : State) (slot : Nat) : Option Nat :=
  match s.capOf slot with
  | none => none
  | some c => s.team.spares.find? (fun k => match s.capOf k with
      | some x => decide (x.dies = c.dies) && decide (s.coresOf k = s.coresOf slot)
      | none => false)

/-- A spare is lost: it is admitted no more, and the team has one spare fewer (R440, worked example; log entry 107). -/
def State.loseSpare (s : State) (pos : Nat) : State :=
  let slot := s.team.seats.getD pos 16
  if 16 ≤ slot then s
  else
    { s.wr TEAM_STATUS_MEMBERS (s.rd TEAM_STATUS_MEMBERS &&& (65535 - 2 ^ slot)) with
      team := { s.team with seats := s.team.seats.set pos 16, spares := s.team.spares.erase slot } }

/-- The live slots of mirrored regions of a die's shards go to the buddy's mirror slots again (R393, R467, R469). -/
def State.resendMirrors (s : State) (d : Nat) (rs : List Nat) : State :=
  if s.flag (MIRROR_CFG_EN d) = false then s
  else
    rs.foldl (fun s r =>
      let x := s.region r
      if x.mirror ∧ x.die = d then
        s.toBuddy d (s.mirrorOffset r x.live) (s.bytesAt (if x.live then x.slot1 else x.slot0) x.size)
      else s) s

/-- The live mirror slots that a buddy die holds go to the spare that takes the lost position, in pieces of 16 KiB, alternately to its die of the same number and to
that number xor 1 (R469 step 4). Mirror slots lie where the settings of this module place them (log entry 29). -/
def State.copyToSpare (s : State) (d pos : Nat) : State :=
  if s.flag (MIRROR_STATUS_HOLDING d) = false then s
  else
    (s.regions.filter (fun e => e.2.mirror && decide (e.2.die = d))).foldl (fun s e =>
      let a := s.rd (MIRROR_BASE_BASE d) + s.mirrorOffset e.1 (tabGet (s.die d).mirrorLive e.1 false)
      (List.range (ceilDiv e.2.size 16384)).foldl (fun s i =>
        s.send (.restore d pos (if i % 2 = 0 then d else d ^^^ 1) e.1 (16384 * i) (s.bytesAt (a + 16384 * i) (min 16384 (e.2.size - 16384 * i))))) s) s

/-- A spare takes a lost position: the module that held its mirrors and the one whose mirrors it held copy what it is to hold (R464, R469). -/
def State.sendRestore (s : State) (pos : Nat) : State :=
  let m := max 1 s.team.positions.length
  let me := s.rd TEAM_STATUS_POS
  let ds := s.dieList.filter s.dieUp
  let s := { s with job := { s.job with restoring := true } }
  let s := if me = (pos + 1) % m then ds.foldl (fun s d => s.copyToSpare d pos) s else s
  if pos = (me + 1) % m then ds.foldl (fun s d => s.resendMirrors d (s.regions.map (fun e => e.1))) s else s

/-- A position is lost, by the event `trigger` (R462, R468, R469): the Coachman raises EV_MODULE_LOST, and gives it to a spare or raises EV_NO_SPARE. Every member follows; the
spare itself starts its restore with the job paused. -/
def State.remap (s : State) (pos trigger : Nat) : State :=
  match s.team.positions[pos]? with
  | none => s.loseSpare pos
  | some slot =>
    let s := s.coachEvent 178 [(1, pos), (2, trigger)]
    let s := s.wr TEAM_STATUS_MEMBERS (s.rd TEAM_STATUS_MEMBERS &&& (65535 - 2 ^ slot))
    match s.spareFor slot with
    | none => ({ s with team := { s.team with lost := insertAsc pos s.team.lost, seats := s.team.seats.set pos 16 } }).coachEvent 181 [(1, pos)]
    | some k =>
      let old := firstIdx s.team.seats (fun x => decide (x = k)) 0
      let s : State := { s with team := { s.team with
        positions := s.team.positions.set pos k, seats := (s.team.seats.set old 16).set pos k, spares := s.team.spares.erase k } }
      let s := if s.isCoach then (s.coachEvent 179 [(1, pos), (1, k)]).send (.remap pos k) else s
      if k = s.mySlot then
        { (s.wr TEAM_STATUS_POS pos).wr JOB_STATUS_STATE 3 with job := { s.job with restoring := true } }
      else s.sendRestore pos

/-- A spare learns its regions from the manifest that the Coachman sent it (R469). -/
def State.loadRegions (s : State) : State :=
  if s.regions ≠ [] then s
  else
    let m := s.manifest (s.rd JOB_SUBMIT_MANIFEST_ADDR)
    if s.accessOk m.at_ 64 = false ∨ m.nRegions = 0 ∨ 65536 < m.nRegions then s
    else
      { s with regions := (List.range m.nRegions).map (fun i => (i, s.regionEntry m i)),
               job := { s.job with manifest := m.at_, size := m.size, timed := decide (m.flags % 2 = 1), regionTab := m.at_ + m.regionTable,
                                   nRegions := m.nRegions, owner := m.owner } }

/-- The spare has its copies: it sets its version tables and mirror live bits, and raises EV_RESTORE_DONE (R394, R469). Its next tick report
tells the Coachman. -/
def execRestoreDone (copies : Copies) (mirrorLives : List (Nat × Bool)) (bytes ms : Nat) (s : State) : Ans :=
  if s.job.restoring = false ∨ s.flag TEAM_CFG_SPARE = false then .next s
  else
    let s := s.loadRegions
    let s := copies.lives.foldl (fun s x => s.modRegion x.1 (fun r => { r with live := x.2, prev := x.2, named := false, withheld := false, kept := false, waived := false, done := 0 })) s
    let s := mirrorLives.foldl (fun s x => s.modDie (s.region x.1).die (fun y => { y with mirrorLive := tabSet y.mirrorLive x.1 x.2 })) s
    let s := copies.steps.foldl (fun s x => s.restoreShard x) (s.dieList.foldl (fun s d => s.refreshLive d) s)
    let s := { s with job := { s.job with restoring := false, resume := true } }
    .next (s.raiseLead 180 17 [(1, s.rd TEAM_STATUS_POS), (6, bytes), (4, ms)])

/-- The bisection of a shard, if one stands: its level, STEP and the nodes that differ (R404). -/
def State.bisection (s : State) (shard : Nat) : Option (Nat × Nat × List Nat) :=
  match s.team.bisect.find? (fun b => decide (b.1 = shard)) with
  | some b => some b.2
  | none => none

/-- The bisection of a shard replaced, or ended. -/
def State.setBisection (s : State) (shard : Nat) (b : Option (Nat × Nat × List Nat)) : State :=
  let rest := s.team.bisect.filter (fun x => decide (x.1 ≠ shard))
  { s with team := { s.team with bisect := match b with
      | some b => rest ++ [(shard, b)]
      | none => rest } }

/-- Whether the digests of a list differ. -/
def digestsDiffer (rs : List RootReport) : Bool :=
  match rs with
  | [] => false
  | r :: t => t.any (fun x => decide (x.digest ≠ r.digest))

/-- The node indices at which replicas differ. -/
def differing (rs : List RootReport) : List Nat :=
  ((rs.map (fun r => r.index)).foldl (fun l i => insertAsc i l) []).filter (fun i => digestsDiffer (rs.filter (fun r => decide (r.index = i))))

/-- The digest held by a strict majority of the replicas that report a block. -/
def majority (rs : List RootReport) : Option (BitVec 64) :=
  (rs.find? (fun r => decide (rs.length < 2 * (rs.filter (fun x => decide (x.digest = r.digest))).length))).map (fun r => r.digest)

/-- The replicas whose copy of a differing block is bad, or none where no good copy is found (R405). -/
def badReplicas (rs : List RootReport) : List Nat :=
  if 3 ≤ rs.length then
    match majority rs with
    | some g => (rs.filter (fun r => decide (r.digest ≠ g))).map (fun r => r.replica)
    | none => []
  else (rs.filter (fun r => decide (r.digest ≠ r.mirror))).map (fun r => r.replica)

/-- The replica whose copy of a differing block is good for bad replica `r`, and whether it is that replica's mirror (R405). -/
def goodCopy (rs : List RootReport) (r : Nat) : Nat × Bool :=
  if 3 ≤ rs.length then
    (match majority rs, rs.find? (fun x => decide (some x.digest = majority rs)) with
     | some _, some x => (x.replica, false)
     | _, _ => (r, true))
  else (r, true)

/-- The repair of a block of a replica is handed to firmware of its die, and noted (R406). -/
def State.orderRepair (s : State) (shard block : Nat) (rs : List RootReport) (r : Nat) : State :=
  let g := goodCopy rs r
  let s := s.send (.repair shard block r g.1 g.2)
  if (shard, r) ∈ s.team.repairs then s else { s with team := { s.team with repairs := s.team.repairs ++ [(shard, r)] } }

/-- A differing block is repaired on each bad replica, or the replicas are split (R405, R406). -/
def State.judgeBlock (s : State) (shard block : Nat) (rs : List RootReport) : State :=
  match badReplicas rs with
  | [] => s.raiseLead 151 24 [(4, shard), (2, block)]
  | bs => bs.foldl (fun s r => s.orderRepair shard block rs r) s

/-- The replicas of a shard that were repaired and whose root still differs (R406). -/
def State.unrepaired (s : State) (shard : Nat) (rs : List RootReport) : List Nat :=
  (rs.filter (fun r => s.team.repairs.contains (shard, r.replica) && (match majority rs with
    | some g => decide (r.digest ≠ g)
    | none => digestsDiffer rs))).map (fun r => r.replica)

/-- The repairs of a shard have been judged by the roots recomputed after them. -/
def State.repairsJudged (s : State) (shard : Nat) : State :=
  { s with team := { s.team with repairs := s.team.repairs.filter (fun x => decide (x.1 ≠ shard)) } }

/-- Digests of a shard reach the Coachman: roots at level 3, then the nodes below those that differ (R403 to R405). A root that still differs after a repair escalates to
level 2 for its die (R406). Leaf `j` is that of block `j + 1` (R400). -/
def execDigestRootReport (shard level : Nat) (rs : List RootReport) (s : State) : Ans :=
  if s.isCoach = false then .next s
  else if level = 3 then
    let step := (rs.map (fun r => r.step)).foldl max 0
    let same := rs.filter (fun r => decide (r.step = step))
    let bad := s.unrepaired shard same
    let s := s.repairsJudged shard
    if bad ≠ [] then .next ((bad.foldl (fun s r => s.send (.escalate shard r)) s).setBisection shard none)
    else if digestsDiffer same then
      .next ((s.raiseLead 149 24 [(4, shard), (6, step)]).setBisection shard (some (3, step, [0])))
    else .next (s.setBisection shard none)
  else
    match s.bisection shard with
    | none => .next s
    | some (l, step, _) =>
      if l ≠ level + 1 then .next s
      else if rs.any (fun r => decide (r.step ≠ step)) then .next (s.setBisection shard none)
      else
        let ds := differing rs
        if level = 0 then
          .next (ds.foldl (fun s b => s.judgeBlock shard (b + 1) (rs.filter (fun r => decide (r.index = b)))) (s.setBisection shard none))
        else .next (s.setBisection shard (if ds = [] then none else some (level, step, ds)))

end Sys2Proof.Machine
end

