-- ==== Sys2Proof/Machine/Team.lean ====
section
/-! DEFINITION. Joining a team, the election of its Coachman and its re-election (R430 to R433, R51, R471), and the bypass (R441 to R445). -/

namespace Sys2Proof.Machine

/-- The links of the ring ports. -/
def State.ringLinks (s : State) : List (Nat × Nat) :=
  s.allLinks.filter (fun k => match s.linkInfo k.1 k.2 with
    | some i => decide (i.port = 1) || decide (i.port = 2)
    | none => false)

/-- Ring links that are UP have another partner, and train (R441, R443). -/
def State.ringRetrains (s : State) : State := s.ringLinks.foldl (fun s k => if s.linkUp k.1 k.2 then s.startTraining k.1 k.2 else s) s

/-- The bypass closes with a cause (R442, R445): the module's own ring links are disconnected (R441). -/
def State.closeBypass (s : State) (cause : Nat) : State := if s.flag BYPASS_CLOSED then s else (s.bypassClose cause).ringRetrains

/-- The bypass opens, and both hops retrain (R442). -/
def State.openBypass (s : State) : State := if s.flag BYPASS_CLOSED then (s.wr BYPASS_CLOSED 0).ringRetrains else s

/-- The module starts to join (R430): its capability block is flooded. In service mode ARM is held (R535). -/
def State.joinTeam (s : State) : State :=
  if s.flag TEAM_CFG_ARM = false ∨ s.flag MODULE_STATUS_SERVICE ∨ s.rd TEAM_STATUS_STATE ≠ 0 ∨ s.rd MODULE_STATUS_STAGE < 8 ∨ s.rd MODULE_STATUS_STAGE = 15 then s
  else
    let s := { s.wr TEAM_STATUS_STATE 1 with team := teamReset }
    s.floodOut 8 (capBytes s.ownCap)

/-- The cause with which a module is refused (R430, R553). `before` are the blocks heard before its own. -/
def refusalOf (v : Nat) (coach : CapBlock) (before : List CapBlock) (c : CapBlock) : Option Nat :=
  if v < c.teamMin.toNat then some 1
  else if c.dies ≠ coach.dies then some 2
  else if c.owner ≠ noOwner ∧ coach.owner ≠ noOwner ∧ c.owner ≠ coach.owner then some 3
  else if before.any (fun b => decide (b.slot = c.slot)) then some 4
  else none

/-- The modules of a list with what each is refused for. -/
def judged (v : Nat) (coach : CapBlock) (before cs : List CapBlock) : List (CapBlock × Option Nat) :=
  match cs with
  | [] => []
  | c :: r => (c, refusalOf v coach before c) :: judged v coach (before ++ [c]) r

/-- The block of the lowest ring slot of a list. -/
def lowestSlot (cs : List CapBlock) : Option CapBlock :=
  cs.foldl (fun m c => match m with
    | none => some c
    | some b => if c.slot.toNat < b.slot.toNat then some c else some b) none

/-- The Coachman that a set of modules elects (R430). -/
def electedOf (cs : List CapBlock) : Option CapBlock :=
  let xs := cs.filter (fun c => !c.spare)
  lowestSlot (if xs.any (fun c => c.coach) then xs.filter (fun c => c.coach) else xs)

/-- HOLD for the longest round trip, in units of 1,024 cycles (R51). -/
def holdUnits (rtt : Nat) : Nat := ceilDiv (rtt + 512) 1024

/-- The slots of a list of blocks, ascending. -/
def slotsOf_ (cs : List CapBlock) : List Nat := cs.foldl (fun l c => insertAsc c.slot.toNat l) []

/-- The longest round trip measured to a set of slots. -/
def longest (rtts : List (Nat × Nat)) (slots : List Nat) : Nat := ((rtts.filter (fun r => slots.contains r.1)).map (fun r => r.2)).foldl max 0

/-- The module does not join: it is alone, and ARM is clear (R439). -/
def State.joinEnds (s : State) : State := (s.wr TEAM_STATUS_STATE 0).wr TEAM_CFG_ARM 0

/-- HOLD of the team is measured and set (R51), or the team does not form. -/
def State.setHold (s : State) (coach : CapBlock) (rtt : Nat) (formed : State → State) : State :=
  if 8 < holdUnits rtt then
    let s := s.joinEnds
    if coach.serial = s.fuses.serial then s.raiseLead 13 24 [(4, rtt)] else s
  else formed (s.wr FRAME_CFG_HOLD (max 1 (holdUnits rtt)))

/-- The team forms (R430, R440, R44): positions go to the members and then to the spares in ascending ring slot, the frame sequence number starts at 0,
and the bypass opens at the next tick (R442). -/
def State.teamForms (s : State) (coach : CapBlock) (v : Nat) (cs : List CapBlock) : State :=
  let members := slotsOf_ (cs.filter (fun c => !c.spare))
  let spares := slotsOf_ (cs.filter (fun c => c.spare))
  let pos := firstIdx (members ++ spares) (fun k => decide (k = s.mySlot)) 0
  let mine := decide (coach.serial = s.fuses.serial)
  let s := ((s.wr TEAM_STATUS_STATE (if mine then 3 else 2)).wr TEAM_STATUS_POS pos).wr TEAM_STATUS_COACH coach.slot.toNat
  let s := ((s.wr TEAM_STATUS_MEMBERS ((members ++ spares).map (fun k => 2 ^ k)).sum).wr TEAM_STATUS_TVER v).wr TEAM_CFG_ARM 0
  let s := ((s.wr FRAME_STATUS_SEQ 0).wr MODULE_STATUS_STAGE 9).wr MODULE_STATUS_READY 1
  let s : State := { s with
    team := { s.team with
      positions := members
      seats := members ++ spares
      spares := spares
      opening := s.flag BYPASS_CLOSED && !s.flag BYPASS_CLOSE }
    job := { s.job with teamOwner := if coach.owner = noOwner then s.job.teamOwner else coach.owner }
    frame := { s.frame with
      cycle := 0
      tickTime := s.frame.teamTime + BitVec.ofNat 64 (s.frameLen * 1024)
      inHold := false
      fleet := none
      fleetJoined := false
      nextSeq := none } }
  s.raiseLead 166 17 [(1, coach.slot.toNat), (1, v)]

/-- The blocks of a list in ascending SERIAL. -/
def bySerial (cs : List CapBlock) : List CapBlock :=
  cs.foldl (fun l c => l.filter (fun x => decide (x.serial.toNat < c.serial.toNat)) ++ c :: l.filter (fun x => decide (c.serial.toNat ≤ x.serial.toNat))) []

/-- The order in which the Coachman judges the modules: itself, and then by SERIAL, so that every module comes to the same result (DESIGN CHOICE, log entry 118.
Unsafe). -/
def judgeOrder (coach : CapBlock) (cs : List CapBlock) : List CapBlock := coach :: bySerial (cs.filter (fun c => decide (c.serial ≠ coach.serial)))

/-- The modules heard while joining elect their Coachman, who admits or refuses each (R430). -/
def State.elect (s : State) (rtts : List (Nat × Nat)) : State :=
  let cs := s.ownCap :: s.team.heard
  match electedOf cs with
  | none => s.joinEnds
  | some coach =>
    let v := (cs.map (fun c => c.teamMax.toNat)).foldl min 255
    let js := judged v coach [] (judgeOrder coach cs)
    let mine := decide (coach.serial = s.fuses.serial)
    let s := if mine then
        js.foldl (fun s j => match j.2 with
          | some c => s.raiseLead 165 24 [(1, j.1.slot.toNat), (1, c)]
          | none => s) s
      else s
    if js.any (fun j => decide (j.1.serial = s.fuses.serial) && j.2.isSome) then s.joinEnds.closeBypass 5
    else
      let ok := (js.filter (fun j => j.2.isNone)).map (fun j => j.1)
      s.setHold coach (longest rtts (slotsOf_ ok)) (fun s => s.teamForms coach v ok)

/-- The team positions that a module hears: its own, and those whose round trip it measured. -/
def State.heardPositions (s : State) (rtts : List (Nat × Nat)) : List Nat :=
  (List.range s.team.positions.length).filter (fun p => match s.team.positions[p]? with
    | some k => decide (k = s.mySlot) || rtts.any (fun r => decide (r.1 = k))
    | none => false)

/-- Positions lost, each with the event that lost it, are remapped or kept as lost, one by one. -/
def State.loseAll (s : State) (ps : List (Nat × Nat)) : State := ps.foldl (fun s p => s.remap p.1 p.2) s

/-- After the loss of the Coachman the members that hear more than half of the positions elect another and go on (R433, R471); a smaller group raises
EV_TEAM_SPLIT, pauses its job and waits. -/
def State.reelect (s : State) (rtts : List (Nat × Nat)) : State :=
  let former := firstIdx s.team.positions (fun k => decide (k = s.rd TEAM_STATUS_COACH)) 0
  let heard := (s.heardPositions rtts).filter (fun p => decide (p ≠ former))
  if 2 * heard.length ≤ s.team.positions.length then
    (s.raiseLead 169 17 [(2, (heard.map (fun p => 2 ^ p)).sum)]).pauseJob 169
  else
    let slots := heard.filterMap (fun p => s.team.positions[p]?)
    let cs := (s.ownCap :: s.team.heard).filter (fun c => slots.contains c.slot.toNat)
    match electedOf cs with
    | none => s
    | some coach =>
      let lost := (List.range s.team.seats.length).filter (fun p => !heard.contains p && (decide (p < s.team.positions.length) ||
        (decide (s.team.seats.getD p 16 ≠ s.mySlot) && rtts.all (fun r => decide (r.1 ≠ s.team.seats.getD p 16)))))
      s.setHold coach (longest rtts slots) (fun s =>
        let mine := decide (coach.serial = s.fuses.serial)
        let s := (s.wr TEAM_STATUS_STATE (if mine then 3 else 2)).wr TEAM_STATUS_COACH coach.slot.toNat
        let s := { s with team := { s.team with misses := 0, reports := [], verdict := none } }
        let s := s.raiseLead 166 17 [(1, coach.slot.toNat), (1, s.rd TEAM_STATUS_TVER)]
        (s.pauseJob 178).loseAll (lost.map (fun p => (p, 0))))

/-- The Coachman is elected (R430, R433): by a module that joins, or by one that has missed two verdicts in a row. -/
def execCoachmanElection (x : Electors) (s : State) : Ans :=
  let s : State := { s with team := { s.team with cores := x.cores.foldl (fun t y => tabSet t y.1 y.2) s.team.cores } }
  if s.rd TEAM_STATUS_STATE = 1 then .next (s.elect x.rtts)
  else if s.rd TEAM_STATUS_STATE = 2 ∧ 2 ≤ s.team.misses then .next (s.reelect x.rtts)
  else .next s

end Sys2Proof.Machine
end

