-- ==== Sys2Proof/Machine/Frames.lean ====
section
/-! DEFINITION. The frame tick (R44 to R59, R66 to R73): its cycle 0 and the cycles to H, tick reports and verdicts, and what takes effect at cycle H. -/

namespace Sys2Proof.Machine

/-- The module's own copy of a frame setting: what the tick reads and writes of the frame state. -/
def State.modFrame (s : State) (f : FrameSt → FrameSt) : State := { s with frame := f s.frame }

/-- The state with the team changed by `f`. -/
def State.modTeam (s : State) (f : Team → Team) : State := { s with team := f s.team }

/-- Dies that serve. -/
def State.upDies (s : State) : List Nat := s.dieList.filter s.dieUp

/-- A stream entry at the end of a frame: a record not written by now, or for a timed stream no last descriptor at all, is a miss (R72, R348). -/
def State.streamMiss (s : State) (d : Nat) (e : StreamEntry) : State :=
  let c := s.chan d e.chan
  if c.lastDone ∨ c.missed ∨ (c.lastAcc.isNone ∧ e.cls ≠ 1) then s
  else
    let s := s.count (DRAY_CH_MISS_MISSES d e.chan) 1
    if s.flag FRAME_CFG_DISC ∧ e.cls = 1 then s.raise (chanEv 8 d e.chan [(2, e.stream), (6, s.frameSeq), (3, 0xFFFFFF)]) else s

/-- The deadlines of a frame are closed: in a slip frame they are not evaluated (R68). -/
def State.closeDeadlines (s : State) (d : Nat) : State :=
  let s := if s.flag FRAME_STATUS_IN_SLIP then s else (s.activeTT d).streams.foldl (fun s e => s.streamMiss d e) s
  (s.channels d).foldl (fun s n => s.modChan d n (fun c => { c with lastDone := false, missed := false, lastAcc := none })) s

/-- Work counters of a die at cycle 1 (R375): DONE and RET 0, BASE = TAKES − HELD. -/
def State.counterTick (s : State) (d k : Nat) : State :=
  ((s.wr (WORK_CTR_FRAME_DONE d k) 0).wr (WORK_CTR_FRAME_RET d k) 0).wr (WORK_CTR_BASE_BASE d k)
    (diff48 (s.rd (WORK_CTR_TAKES_TAKES d k)) (s.rd (WORK_CTR_HELD_HELD d k)))

/-- A staged Timetable is due at a tick while the job runs, from the second tick after pickup (R79). -/
def State.timetableDue (s : State) : Bool := decide (s.rd JOB_STATUS_STATE = 2) && decide (2 ≤ s.job.ticksSince)

/-- Whether every die that serves has a valid staged Timetable (R66). -/
def State.timetableReady (s : State) : Bool := s.upDies.all (fun d => s.flag (TT_CTRL_VALID d))

/-- A die that is not ready raises EV_TIMETABLE_LATE (R66). -/
def State.timetableLate (s : State) (d : Nat) : State :=
  if s.flag (TT_CTRL_VALID d) then s else s.raise (mkEv 4 d 0xFF 17 0 [(4, (s.rd (TT_CTRL_ACTIVE_ID d) + 1) % 2 ^ 32)])

/-- Whether the module asks for a slip (R415, R423, R437, R456): a held event, a correction out of range, a link that retrains, or a port that is
down. -/
def State.slipRequest (s : State) : Bool :=
  s.frame.slipReq || s.upDies.any (fun d => decide ((s.die d).held ≠ [])) ||
    s.allLinks.any (fun k => s.dieUp k.1 && (s.link k.1 k.2).partner.isSome && decide (s.rd (LINK_STATUS_STATE k.1 k.2) = 1)) ||
    s.ports.any (fun e => !e.2.up && (match s.portPeer (e.1 / 4) (e.1 % 4) with
      | some x => s.dieUp (e.1 / 4) && s.dieUp x && decide (e.2 ≠ portReset)
      | none => false))

/-- The open entries whose level the module reports (R447, R463): not those of a rollback, of a verdict split, or of another module's loss. -/
def State.reportEntries (s : State) (d : Nat) : List Nat :=
  (s.openEntries d).filter (fun i =>
    let n := s.rd (LEDGER_NUMBER d i)
    decide (2 ≤ s.rd (LEDGER_ELEVEL d i)) && decide (n ≠ 146) && decide (n ≠ 148) && decide (n ≠ 178))

/-- The level and the event number of the highest such entry of the module, or of a fence or loss that no entry holds (R456). -/
def State.reportLevel (s : State) : Nat × Nat :=
  s.dieList.foldl (fun m d => (s.reportEntries d).foldl (fun m i =>
    if m.1 < s.rd (LEDGER_ELEVEL d i) then (s.rd (LEDGER_ELEVEL d i), s.rd (LEDGER_NUMBER d i)) else m) m)
    (if s.frame.unentered = 0 then (0, 0) else (s.frame.unentered, 177))

/-- The cause bits of the tick (R52, R553). A step that will be rolled back at the next tick makes this frame a slip frame (R393), with the cause of a Waybill mismatch
(DEDUCED, log entry 132. Unsafe). -/
def State.tickCauses (s : State) : BitVec 5 :=
  let b (p : Bool) (i : Nat) : BitVec 5 := if p then BitVec.ofNat 5 (2 ^ i) else 0
  b (s.items.any (fun e => e.2.overrun && e.2.incomplete)) 0 ||| b (s.regions.any (fun e => e.2.withheld && !e.2.waived)) 1 |||
    b (decide (s.frame.violated ≠ []) || s.frame.split || s.upDies.any s.closesInFailure) 2 |||
    b ((s.timetableDue || decide (s.rd JOB_STATUS_STATE = 3)) && !s.timetableReady) 3 ||| b s.slipRequest 4

/-- The tick report of the module (R50, R52, R390, R463, R476, R489). A member that lost the last verdict reports level 3 (R53, R462). -/
def State.buildReport (s : State) : Report :=
  let l := s.reportLevel
  { pos := s.rd TEAM_STATUS_POS
    causes := s.frame.causes ||| s.tickCauses
    cap := s.rd LAMP_PWR_CAP
    opt := s.upDies.map s.armVerdict
    level := if l.1 < 2 ∧ 0 < s.team.misses then 3 else l.1
    pause := if s.frame.pause ≠ 0 then s.frame.pause else l.2
    resume := decide (s.armedRd JOB_CTRL_RESUME = 1)
    image := s.job.imageOrder
    restored := s.job.resume }

/-- A tick report or verdict of this module floods the ring in KIND 6 flits, whose payload the spec does not lay out (R412, R429; log entry 11): what it carries
is `o`. -/
def State.floodSix (s : State) (x : Flood) (o : Out) : State := (((s.seen x).send o).floodOut 6 (s.freeBytes 246)).used 246

/-- The tick report is made; a member sends it to the Coachman. -/
def State.sendReport (s : State) : State :=
  let r := s.buildReport
  let s := s.modFrame (fun f => { f with report := some r })
  if s.rd TEAM_STATUS_STATE = 2 then s.floodSix (.report s.tag16 r) (.report r) else s

/-- Die 1 takes its standby copy (R37, R40, R41). -/
def State.standbyCopy (s : State) : State :=
  if s.lead = 0 ∧ s.dieUp 0 ∧ s.dieUp 1 then
    let s := s.wr MODULE_LEAD_DIE1_READY 1
    { s with job := { s.job with standby := s.regs } }
  else s.wr MODULE_LEAD_DIE1_READY 0

/-- Whether the module may leave service mode (R535). -/
def State.serviceEnds (s : State) : Bool :=
  s.flag MODULE_STATUS_SERVICE && decide (s.rd MODULE_STATUS_DIE_FAILED = 0) && (List.range 6).all (fun i => decide (s.agreed i ≠ 0)) &&
    (!s.flag MODULE_STATUS_UNTESTED || s.flag POLICY_ALLOW_UNTESTED) && !s.flag POLICY_HOLD_SERVICE

/-- The module leaves service mode, and a held ARM starts the join; a held GO is picked up at the tick that follows (R535). -/
def State.leaveService (s : State) : State := if s.serviceEnds then (s.wr MODULE_STATUS_SERVICE 0).joinTeam else s

/-- Cycle 0 of the tick up to the Waybill snapshot: leases return, the state image is taken, items and regions are settled, and what is still due counts
as late (R50, R59, R72, R375, R473). -/
def State.tickEnds (s : State) : State :=
  let s := (s.modFrame (fun f => { f with causes := 0 })).returnAll.snapIfIdle.overrunAll
  let s := s.upDies.foldl (fun s d => s.closeDeadlines d) s
  let s := s.settleRegions
  { s with items := s.items.map (fun e => (e.1, e.2.settle)) }

/-- A request as counted from a tick `n` cycles later. -/
def MemReq.since (m : MemReq) (n : Nat) : MemReq := { m with arrived := m.arrived - n }

/-- What is counted in cycles of the frame counts from the tick: instructions that run, requests that wait, and the windows of the arbiters (R352). -/
def State.recount (s : State) (n : Nat) : State :=
  { s with
    cores := s.cores.map (fun e => (e.1, { e.2 with running := e.2.running.map (fun r => (r.1, { r.2 with start := r.2.start - n })) }))
    dies := s.dies.map (fun e => (e.1, { e.2 with
      reqs := e.2.reqs.map (fun m => m.since n)
      tagWait := e.2.tagWait.map (fun m => m.since n)
      arbs := e.2.arbs.map (fun a => (a.1, { a.2 with window := a.2.window - (n / s.rd (ARB_CFG_WINDOW e.1) : Nat) })) })) }

/-- The new frame begins (R44, R48): its sequence number, or that of the fleet which the team has adopted, its cycle count and team time (R436). -/
def State.tickBegins (s : State) : State :=
  let s := (s.wr FRAME_STATUS_SEQ (s.frame.nextSeq.getD (s.frameSeq + 1))).recount s.frame.cycle
  s.modFrame (fun f => { f with cycle := 0, inHold := true, violated := [], nextSeq := none,
                                teamTime := if f.teamTime.toNat < f.tickTime.toNat then f.tickTime else f.teamTime })

/-- The snapshot has taken what ports counted for a later frame (R46). -/
def State.portsTick (s : State) : State :=
  { s with ports := s.ports.map (fun e => (e.1, { e.2 with early := 0, earlySent := 0, earlyCr := 0 })) }

/-- The checks of the hold on the module's own snapshot: violated laws, counters of cycle 1, absent dies, the Timetable (R66, R84, R85, R375, R462). -/
def State.tickChecks (s : State) (vs : List Violation) (absent : List Nat) : State :=
  let s := vs.foldl (fun s v => s.violate v) s.portsTick
  let s := s.allLinks.foldl (fun s k => if s.dieUp k.1 then s.snapLink k.1 k.2 else s) s
  let s := s.upDies.foldl (fun s d => (s.counters d).foldl (fun s k => s.counterTick d k) s) s
  let s := absent.foldl (fun s d => if s.dieUp d then s.fenceFound d 0 else s) s
  let s := s.dieList.foldl (fun s d => s.modDie d (fun y => { y with evCount := [] })) s
  if s.timetableDue then s.upDies.foldl (fun s d => s.timetableLate d) s else s

/-- What else the module does before its report (R75, R442, R466). -/
def State.tickDuties (s : State) : State :=
  let s := s.armPending.sendCommits
  if s.team.opening then (s.modTeam (fun t => { t with opening := false })).openBypass else s

/-- Team time reaches the tick time, and the tick sequence of every die begins (R50, R436). `absent` are the dies without a report at cycle 256
(R462). -/
def execFrameTick (absent : List Nat) (s : State) : Ans :=
  if s.frame.inHold then .next s
  else
    let s := (s.passTo (s.frameLen * 1024)).tickEnds
    let vs := s.upDies.flatMap s.dieLaws
    .next (((s.tickBegins.tickChecks vs absent).tickDuties).sendReport.modFrame (fun f => { f with pause := 0, slipReq := false }))

/-- A Waybill flit of the partner arrives (R83): the laws of the link are decided within the hold. -/
def execWaybillCounts (d l : Nat) (f : Flit) (c : LinkCounts) (s : State) : Ans :=
  let r := s.rxSequenced d l f
  if r.2 = false then .next r.1
  else
    let s := r.1
    match (s.link d l).mine with
    | none => .next (if s.later f.tag then s.modLink d l (fun x => { x with peer := some c }) else s)
    | some a =>
      if s.frame.inHold = false ∨ s.later f.tag then .next (s.modLink d l (fun x => { x with mine := none, peer := if s.later f.tag then some c else none }))
      else
        let t := s.decideLink d l a c
        .next (if linkLaws d l (s.link d l).ct a c = [] then t else t.sendReport)

/-- The length of the next frame (R61, R68, R436): NEXT_LEN of the Timetable applied at this tick, if any is. -/
def State.nextLen (s : State) (applies : Bool) : Nat :=
  let n := (s.timetable (stagingBuf s.lead)).nextLen
  if applies ∧ n ≠ 0 then n else s.frameLen

/-- Whether a position is held by a module that is not lost. -/
def State.seated (s : State) (p : Nat) : Bool := decide (s.team.seats.getD p 16 < 16) && !s.team.lost.contains p

/-- Positions lost as the reports show (R462, R463): no report, or level 2 or 3. -/
def State.lostIn (s : State) (rs : List Report) : List Nat :=
  (List.range s.team.seats.length).filter (fun p => s.seated p &&
    (match rs.find? (fun r => decide (r.pos = p)) with
     | some r => decide (r.level = 2) || decide (r.level = 3)
     | none => true))

/-- The lost positions of members: the loss of a spare pauses no job (R440, worked example; log entry 107). -/
def State.lostMembers (s : State) (lost : List Nat) : List Nat := lost.filter (fun p => decide (p < s.team.positions.length))

/-- The number of the event for which the reports pause the job, if they do (R70, R130, R463, R473). -/
def pauseCause (rs : List Report) (lost : List Nat) (atLimit : Bool) : Option Nat :=
  match rs.find? (fun r => decide (r.pause ≠ 0)) with
  | some r => some r.pause
  | none =>
    if lost ≠ [] then some 178
    else match rs.find? (fun r => decide (2 ≤ r.level)) with
      | some r => some r.pause
      | none => if rs.any (fun r => r.image) then some 0 else if atLimit then some 7 else none

/-- Why an order to resume is refused, if it is (R476, R553). -/
def State.resumeBar (s : State) (rs : List Report) : Option Nat :=
  if rs.any (fun r => decide (2 ≤ r.level)) ∨ s.dieList.any (fun d => decide (2 ≤ s.openLevel d)) then some 1
  else if s.job.restoring ∧ rs.all (fun r => !r.restored) then some 2
  else if rs.any (fun r => r.causes.getLsbD 3) then some 3
  else none

/-- Whether the reports resume a paused job: an order that is not refused, or a spare whose restore has ended (R469, R476). -/
def State.resumesBy (s : State) (rs : List Report) : Bool :=
  rs.any (fun r => r.restored) || (rs.any (fun r => r.resume) && (s.resumeBar rs).isNone)

/-- Whether the optimiser verdicts of the dies of a team differ (R390). -/
def optDiffer (rs : List Report) : Bool :=
  match rs.flatMap (fun r => r.opt) with
  | [] => false
  | v :: t => t.any (fun x => decide (x ≠ v))

/-- The cause bits of a set of reports (R52, R553); optimiser verdicts that differ count as a Waybill mismatch, so that the frame before the rollback is a slip frame
(R390, R393). -/
def causesOf (rs : List Report) : BitVec 5 := rs.foldl (fun c r => c ||| r.causes) (if optDiffer rs then 4 else 0)

/-- The kind of the verdict that a set of reports gives (R52, R70, R130, R463, R473, R476). -/
def State.kindOf (s : State) (rs : List Report) (lost : List Nat) : VKind :=
  let slip := decide (causesOf rs ≠ 0)
  let atLimit := slip && decide (s.rd FRAME_CFG_SLIP_LIMIT ≤ s.rd FRAME_STATUS_SLIP_RUN)
  if s.rd JOB_STATUS_STATE = 2 then
    (if (pauseCause rs (s.lostMembers lost) atLimit).isSome then .pause else if slip then .slip else .normal)
  else if s.rd JOB_STATUS_STATE = 3 then (if s.resumesBy rs then .slip else .pause)
  else if slip then .slip
  else .normal

/-- The dies whose verdict differs from the first reported one, as a mask. -/
def optMask (rs : List Report) : Nat :=
  match rs.flatMap (fun r => r.opt) with
  | [] => 0
  | v :: _ => ((List.range 8).filter (fun d => rs.any (fun r => match r.opt[d]? with
      | some x => decide (x ≠ v)
      | none => false))).foldl (fun m d => m + 2 ^ d) 0

/-- The tick time and the frame sequence number of the fleet that the team adopts at its first tick after joining it, while no job runs (R436). -/
def State.adopts (s : State) : Option (BitVec 64 × Nat) := if s.isCoach ∧ s.rd JOB_STATUS_STATE < 2 then s.frame.fleet else none

/-- The verdict that the Coachman makes of the reports (R50, R52, R436). The module opens its own bypass at the first tick after it joined (R442). -/
def State.verdictOf (s : State) (rs : List Report) : Verdict :=
  let lost := s.lostIn rs
  let kind := s.kindOf rs lost
  let applies := decide (kind = .normal) && s.timetableDue
  { kind := kind
    causes := causesOf rs
    cap := rs.foldl (fun m r => min m r.cap) 16
    nextTick := match s.adopts with
      | some x => x.1
      | none => s.frame.tickTime + BitVec.ofNat 64 (s.nextLen applies * 1024)
    seq := s.adopts.map (fun x => x.2)
    optSplit := optDiffer rs
    image := rs.any (fun r => r.image)
    lost := lost
    openSlot := none }

/-- The reports of a tick: the module's own, and those received. -/
def State.allReports (s : State) (rs : List Report) : List Report :=
  match s.frame.report with
  | some r => r :: rs.filter (fun x => decide (x.pos ≠ r.pos))
  | none => rs

/-- The Coachman makes the verdict of the reports gathered and sends it (R50, R52). -/
def State.gather (s : State) : State :=
  let rs := s.allReports s.team.reports
  let v := s.verdictOf rs
  (s.modTeam (fun t => { t with reports := rs, verdict := some v })).floodSix (.verdict s.tag16 v) (.verdict v)

/-- Whether a flit with a tag is of the tick in progress here, or of one that this module has not come to yet (R46). -/
def State.ofTick (s : State) (tag : BitVec 16) : Bool := s.later tag || (s.frame.inHold && decide (tag = s.tag16))

/-- Whether the Coachman has the report of every module of the team. -/
def State.allHeard (s : State) : Bool :=
  (List.range s.team.seats.length).all (fun p => !s.seated p || decide (p = s.rd TEAM_STATUS_POS) || s.team.reports.any (fun r => decide (r.pos = p)))

/-- A member's report joins those that the Coachman has, in place of an earlier one of the tick; with the last one the verdict is made (R50). -/
def State.hearReport (s : State) (tag : BitVec 16) (r : Report) : State :=
  if s.isCoach ∧ s.team.verdict.isNone ∧ s.ofTick tag then
    let s := s.modTeam (fun t => { t with reports := t.reports.filter (fun x => decide (x.pos ≠ r.pos)) ++ [r] })
    if s.frame.inHold ∧ s.allHeard then s.gather else s
  else s

/-- A tick report arrives in a KIND 6 flit (R50, R412, R429): its first copy goes on, and the Coachman gathers it. -/
def execTickReport (x : ReportIn) (s : State) : Ans :=
  let q := s.rxSequenced x.die x.link x.flit
  if q.2 = false then .next q.1
  else
    let y := q.1.floodIn x.die x.link x.flit (.report x.flit.tag x.report)
    .next (if y.2 then y.1.hearReport x.flit.tag x.report else y.1)

/-- A member holds the verdict of the tick for cycle H (R50). -/
def State.holdVerdict (s : State) (tag : BitVec 16) (v : Verdict) : State :=
  if s.rd TEAM_STATUS_STATE = 2 ∧ s.team.verdict.isNone ∧ s.ofTick tag then s.modTeam (fun t => { t with verdict := some v, misses := 0 }) else s

/-- A verdict arrives in a KIND 6 flit: its first copy goes on and is held for cycle H; the later one is dropped (R50, R412, R429). -/
def execVerdict (x : VerdictIn) (s : State) : Ans :=
  let q := s.rxSequenced x.die x.link x.flit
  if q.2 = false then .next q.1
  else
    let y := q.1.floodIn x.die x.link x.flit (.verdict x.flit.tag x.verdict)
    .next (if y.2 then y.1.holdVerdict x.flit.tag x.verdict else y.1)

/-- The verdict that a member without one applies (R53). -/
def State.lostVerdict (s : State) : Verdict :=
  { kind := if s.rd JOB_STATUS_STATE = 3 then .pause else .slip
    causes := 0
    cap := s.rd LAMP_PWR_TEAM_CAP
    nextTick := s.frame.tickTime + BitVec.ofNat 64 (s.frameLen * 1024)
    seq := none
    optSplit := false
    image := false
    lost := []
    openSlot := none }

/-- The verdict that holds at cycle H: the Coachman's; without one, a slip with EV_VERDICT_LOST (R53); and for a module alone, that of its own
report. -/
def State.verdictNow (s : State) : State × Verdict :=
  if s.rd TEAM_STATUS_STATE = 2 then
    match s.team.verdict with
    | some v => (s, v)
    | none =>
      ((s.modTeam (fun t => { t with misses := t.misses + 1 })).raiseLead 12 17 [(6, s.frameSeq)], s.lostVerdict)
  else
    let s := if s.isCoach ∧ s.team.verdict.isNone then s.gather else s
    let rs := s.allReports []
    match s.team.verdict with
    | some v => (s, v)
    | none => (s, { s.verdictOf rs with lost := [] })

/-- The orders of JOB_CTRL that take effect at this tick (R472, R473, R476, R477). -/
def State.jobOrders (s : State) : State :=
  let s := if s.flag JOB_CTRL_END then
      (if 2 ≤ s.rd JOB_STATUS_STATE then s.endJob else s).wr JOB_CTRL_END 0
    else s
  let s := if s.flag JOB_CTRL_RESTORE then s.restoreImage else s
  if s.flag JOB_CTRL_IMAGE then s.orderImage else s

/-- The step of a die is rolled back where its law failed at this tick or the verdicts of the team split at the last one (R390, R393). -/
def State.rollbackIf (s : State) (d : Nat) : State :=
  if s.frame.split ∨ s.frame.violated.any (fun v => decide (v.1 = d) && decide (v.2.1 = 6)) then
    let rs := ((s.shards d).filter (fun e => vFlip (s.version d e))).map (fun e => s.shardField d e 0 2)
    (s.rollback d).resendMirrors d rs
  else s

/-- Commits and the optimiser at cycle H (R56, R387 to R393, R455, R466). -/
def State.commitPhase (s : State) : State :=
  let ds := s.upDies
  let s := ds.foldl (fun s d => s.rollbackIf d) s
  let s := s.commitAll
  let s := ds.foldl (fun s d => (((s.pendShards d).normCheck d).windowStep d).setHeld d) s
  let s := ds.foldl (fun s d => s.applyCommit d) s
  ds.foldl (fun s d => if s.regions.any (fun e => decide (e.2.die = d) && e.2.withheld) then s else s.closeAtTick d) s

/-- A slip frame begins (R49, R68, R69, R552). -/
def State.slipFrame (s : State) (causes : BitVec 5) (noList : List Nat) : State :=
  let s := ((s.count FRAME_STATUS_SLIP_RUN 1).wr FRAME_STATUS_IN_SLIP 1).count FRAME_COUNTS_SLIPS 1
  let s := s.coachEvent 6 [(6, s.frameSeq), (1, causes.toNat)]
  (s.takeBackAll noList).rerunAll

/-- The frame that begins is no slip frame. -/
def State.noSlip (s : State) : State := (s.wr FRAME_STATUS_SLIP_RUN 0).wr FRAME_STATUS_IN_SLIP 0

/-- The job pauses by the verdict (R70, R463), or stays paused. -/
def State.pauseFrame (s : State) (v : Verdict) (noList : List Nat) : State :=
  let atLimit := decide (v.causes ≠ 0) && decide (s.rd FRAME_CFG_SLIP_LIMIT ≤ s.rd FRAME_STATUS_SLIP_RUN)
  let cause := (pauseCause s.team.reports (s.lostMembers v.lost) atLimit).getD 178
  let s := if s.rd JOB_STATUS_STATE = 2 ∧ cause = 7 then s.coachEvent 7 [(6, s.frameSeq), (1, s.rd FRAME_STATUS_SLIP_RUN)] else s
  ((s.pauseJob cause).takeBackAll noList).noSlip

/-- The job runs again (R476): regions of items that a program fault stopped stay withheld, but the ticks no longer slip for them, since those items do not run again
(R130; log entry 46). -/
def State.resumeJob (s : State) : State :=
  let waived := (s.items.filter (fun e => e.2.faulted)).flatMap (fun e => e.2.entry.regions)
  let s := (s.wr JOB_STATUS_STATE 2).coachEvent 16 [(6, s.frameSeq)]
  let s := waived.foldl (fun s r => s.modRegion r (fun x => { x with waived := true })) s
  { s with job := { s.job with restoring := false } }

/-- The item of a work entry of the Timetable that is applied (R62, R98, R123). -/
def State.newItem (s : State) (d : Nat) (e : WorkEntry) : State :=
  let k := itemKey d e.core e.item
  let x := s.item k
  let y : Item := if x.st = .parked ∧ x.ctx.isSome then { x with entry := e, frame := s.frameSeq, due := true, done := [], returned := [], rerun := false, overrun := false }
    else { itemNone with entry := e, st := .waiting, frame := s.frameSeq }
  let s := { s with items := tabSet s.items k y }
  e.regions.foldl (fun s r => s.modRegion r (fun x => { x with named := true, waived := false })) s

/-- The items of the frames before leave a die whose Timetable is applied: its cores are free of them, and a parked item stays only where a work entry
names it. -/
def State.clearItems (s : State) (d : Nat) (es : List WorkEntry) : State :=
  let stays (e : Nat × Item) : Bool :=
    decide (e.1 / 1024 ≠ d) || (decide (e.2.st = .parked) && e.2.ctx.isSome && es.any (fun w => decide (itemKey d w.core w.item = e.1)))
  let gone := s.items.filter (fun e => !stays e)
  let s := gone.foldl (fun s e =>
    let s := if e.2.st = .parked then s.endParked e.1 e.2 else s
    if (s.core d e.2.runCore).cur = some e.1 then s.modCore d e.2.runCore (fun c => { c with cur := none, queues := [], blocked := .none }) else s) s
  { s.orphanTakes (fun k => gone.any (fun e => decide (e.1 = k))) with items := s.items.filter stays }

/-- Streams of the Timetable that are not bound as R344 asks raise EV_STREAM_CONFIG and are not served. -/
def State.bindStream (s : State) (d : Nat) (e : StreamEntry) : State :=
  if s.bound d e then s.modChan d e.chan (fun c => { c with streamBad := false })
  else (s.modChan d e.chan (fun c => { c with streamBad := true })).raise (chanEv 132 d e.chan [(2, e.chan), (2, e.stream)])

/-- The staged Timetable of a die becomes active (R66). -/
def State.applyTimetable (s : State) (d : Nat) : State :=
  if s.flag (TT_CTRL_VALID d) = false then s
  else
    let t := s.timetable (stagingBuf d)
    let s := s.setBytes (activeBuf d) (s.bytesAt (stagingBuf d) t.length)
    let s := ((s.wr (TT_CTRL_ACTIVE_ID d) t.id).wr (TT_CTRL_READY d) 0).wr (TT_CTRL_VALID d) 0
    t.work.foldl (fun s e => s.newItem d e) (s.clearItems d t.work)

/-- At each tick every stream entry of the applied Timetable is checked (R344). -/
def State.bindStreams (s : State) (d : Nat) : State := (s.activeTT d).streams.foldl (fun s e => s.bindStream d e) s

/-- A normal frame begins (R66, R436): the staged Timetables apply when they are due. -/
def State.normalFrame (s : State) : State :=
  let s := s.noSlip
  if s.timetableDue ∧ s.timetableReady then
    let n := s.nextLen true
    (s.upDies.foldl (fun s d => s.applyTimetable d) s).wr FRAME_CFG_LEN n
  else s

/-- A control core that waits for the tick goes on at cycle H, its sd holding the frame sequence number (R123). -/
def State.wakeControl (s : State) (d : Nat) : State :=
  [96, 97, 98, 99].foldl (fun s q =>
    match (s.core d q).blocked with
    | .tickWait sd =>
      ((s.modCore d q (fun c => { c with blocked := .none })).setS d q (BitVec.ofNat 5 sd) (BitVec.ofNat 64 s.frameSeq)).retire d q ((s.core d q).pc + 8)
    | _ => s) s

/-- The number of the event that lost a position: what its report carries, and 0 for a report that was absent, which no event gives (R478; DESIGN CHOICE, log
entry 122). -/
def State.lossTrigger (s : State) (p : Nat) : Nat :=
  match s.team.reports.find? (fun r => decide (r.pos = p) && decide (2 ≤ r.level)) with
  | some r => r.pause
  | none => 0

/-- Positions that the verdict names as lost (R463, R468, R469). The lost module itself pauses, orders its bypass closed and is in the team no more; where
no member is left to lead the recovery, it finds no spare itself (log entry 107). -/
def State.applyLost (s : State) (lost : List Nat) : State :=
  let me := s.rd TEAM_STATUS_POS
  let s := s.loseAll ((lost.filter (fun p => decide (p ≠ me))).map (fun p => (p, s.lossTrigger p)))
  let s := if lost.contains me ∧ s.team.positions.length ≤ 1 then s.coachEvent 181 [(1, me)] else s
  if lost.contains me ∧ s.rd TEAM_STATUS_STATE ≠ 0 then ((s.wr BYPASS_CLOSE 1).closeBypass 4).wr TEAM_STATUS_STATE 0 else s

/-- The frame that begins at cycle H, by the kind of the verdict. -/
def State.beginFrame (s : State) (v : Verdict) (noList : List Nat) : State :=
  match v.kind with
  | .pause => s.pauseFrame v noList
  | .slip => (if s.rd JOB_STATUS_STATE = 3 then s.resumeJob else s).slipFrame v.causes noList
  | .normal => s.normalFrame

/-- The order to resume is refused by the Coachman, or has done its work (R476); that of a job which is not paused is refused too (R553, cause 4). -/
def State.resumeOrder (s : State) : State :=
  let rs := s.allReports s.team.reports
  let s :=
    if s.rd TEAM_STATUS_STATE = 2 ∨ rs.all (fun r => !r.resume) then s
    else if s.rd JOB_STATUS_STATE ≠ 3 then s.refuseOrder 0 4
    else if s.resumesBy rs then s
    else s.refuseOrder 0 ((s.resumeBar rs).getD 1)
  { s.wr JOB_CTRL_RESUME 0 with job := { s.job with resume := false } }

/-- At cycle H the verdict, the F-class writes, the orders, the commits and the Timetable take effect (R50, R52, R66, R75, R79). Die 1's standby copy
holds what the tick left (R37; log entry 48). -/
def State.applyVerdict (s : State) : State :=
  let s := s.passTo s.holdCycles
  let r := s.verdictNow
  let s := r.1
  let v := r.2
  let vs := s.frame.violated
  let no := reinitCounters vs
  let s := (s.latchAll.jobOrders.resumeOrder).withholdUsers vs
  let s := vs.foldl (fun s x => s.reinit x) s
  let s := s.commitPhase
  let s := s.modFrame (fun f => { f with split := v.optSplit })
  let s := if v.optSplit then s.coachEvent 146 [(6, s.frameSeq), (1, optMask s.team.reports)] else s
  let s := if v.image ∧ s.job.imageOrder = false then s.orderImage else s
  let s := (s.beginFrame v no).applyLost v.lost
  let s := s.upDies.foldl (fun s d => s.bindStreams d) s
  let s := (s.wr LAMP_PWR_TEAM_CAP v.cap).modFrame (fun f =>
    { f with tickTime := v.nextTick, inHold := false, violated := [], report := none, nextSeq := v.seq, fleetJoined := f.fleetJoined || v.seq.isSome,
             fleet := if v.seq.isSome then none else f.fleet })
  let s := if v.openSlot = some s.mySlot then s.modTeam (fun t => { t with opening := true }) else s
  let s := s.upDies.foldl (fun s d => s.wakeControl d) s
  let s := s.pickup.leaveService
  let s : State := { s with
    team := { s.team with verdict := none, reports := [] }
    job := { s.job with ticksSince := s.job.ticksSince + 1 } }
  s.standbyCopy

/-- Cycle H of the tick (R50). -/
def execVerdictApply (s : State) : Ans := if s.frame.inHold then .next s.applyVerdict else .next s

end Sys2Proof.Machine
end

