-- ==== Sys2Proof/Machine/Firmware.lean ====
section
/-! DEFINITION. Firmware in flash: boot descriptors, image checks and their measurement (R507 to R512), update, commit and the anti-rollback counter (R516 to
R519), and attestation (R513 to R515). -/

namespace Sys2Proof.Machine

/-- Bytes of flash. An unlisted byte is erased and reads 0xFF (PRESUMED of NOR flash, log entry 3). -/
def State.flashAt (s : State) (a n : Nat) : List Byte := cellsRead 0xFF s.flash a n

/-- The state with bytes of flash programmed. -/
def State.flashWrite (s : State) (a : Nat) (bs : List Byte) : State := { s with flash := cellsWrite 0xFF s.flash a bs }

/-- The state with bytes of flash erased. -/
def State.flashErase (s : State) (a n : Nat) : State :=
  { s with flash := s.flash.filter (fun c => decide (c.1 < a) || decide (a + n ≤ c.1)) }

/-- The first byte of an image slot, A or B (R507). -/
def slotBase (slot : Nat) : Nat := if slot = 0 then 0x0100000 else 0x6100000

/-- Bytes of an image slot. -/
def imageSlotBytes : Nat := 96 * 1048576

/-- The largest count of signed bytes (R509). -/
def maxSigned : Nat := imageSlotBytes - 29792

/-- A boot descriptor (R508). -/
structure BootDesc where
  gen : Nat
  preferred : Nat
  trial : Nat
  tried : Nat
  deriving DecidableEq, Repr

/-- The descriptor of copy `c`, where its CRC holds. -/
def State.descCopy (s : State) (c : Nat) : Option BootDesc :=
  let b := s.flashAt (c * 0x10000) 64
  if crc32c (b.take 60) = leAt b 60 4 then some { gen := leAt b 0 4, preferred := leAt b 4 1, trial := leAt b 5 1, tried := leAt b 6 1 } else none

/-- The copy that the ROM uses, and its descriptor: a valid CRC and the higher GEN (R508). With none valid, slot A is preferred and there is no
trial (DESIGN CHOICE, log entry 3). -/
def State.bootDesc (s : State) : Nat × BootDesc :=
  match s.descCopy 0, s.descCopy 1 with
  | some a, some b => if b.gen ≤ a.gen then (0, a) else (1, b)
  | some a, none => (0, a)
  | none, some b => (1, b)
  | none, none => (1, { gen := 0, preferred := 0, trial := 0xFF, tried := 0 })

/-- A rewrite of the descriptor replaces the other copy, with GEN raised by 1. -/
def State.writeDesc (s : State) (f : BootDesc → BootDesc) : State :=
  let (c, d) := s.bootDesc
  let x := f d
  let b := leBytes 4 (d.gen + 1) ++ leBytes 1 x.preferred ++ leBytes 1 x.trial ++ leBytes 1 x.tried ++ List.replicate 53 0
  s.flashWrite ((1 - c) * 0x10000) (b ++ leBytes 4 (crc32c b))

/-- An image header (R509), with where it is read from: `get off n` gives bytes of the image. -/
structure Image where
  magic : Nat
  format : Nat
  svn : Nat
  version : Nat
  length : Nat
  compatAt : Nat
  compatLen : Nat
  key : List Byte
  deriving DecidableEq, Repr

/-- The header of an image. -/
def imageOf (h : List Byte) : Image :=
  { magic := leAt h 0 4, format := leAt h 4 2, svn := leAt h 6 2, version := leAt h 8 4, length := leAt h 12 4, compatAt := leAt h 16 4,
    compatLen := leAt h 20 4, key := (h.drop 64).take 64 }

/-- The image in a slot. -/
def State.slotImage (s : State) (slot : Nat) : Image := imageOf (s.flashAt (slotBase slot) 4096)

/-- The image staged in memory. -/
def State.stagedImage (s : State) (a : Nat) : Image := imageOf (s.bytesAt a 4096)

/-- Whether the header of an image passes step 2 (R509, R510). -/
def State.headerOk (s : State) (i : Image) : Bool :=
  decide (i.magic = 0x46385145) && decide (i.format = s.fuses.headerFormat) && decide (i.length ≤ maxSigned)

/-- Whether the key of an image is one of the fused roots and not revoked (R510 step 3). -/
def State.keyOk (s : State) (i : Image) : Bool :=
  (List.range 4).any (fun k => !s.fuses.rootRevoked.getLsbD k && decide (s.fuses.rootDigests[k]? = some (shake256 32 i.key)))

/-- The stage at which an image fails steps 2 to 5 of R510, if it does: 1 header, 2 key, 3 signature, 4 SVN (R518). -/
def State.imageFail (s : State) (i : Image) (sigOk : Bool) : Option Nat :=
  if s.headerOk i = false then some 1
  else if s.keyOk i = false then some 2
  else if sigOk = false then some 3
  else if i.svn < s.fw.arb.toNat then some 4
  else none

/-- A failed check is reported (R510, R517, R521). -/
def State.verifyFail (s : State) (slot stage : Nat) (i : Image) : State :=
  let s := s.raiseLead 197 17 [(1, slot), (1, stage), (2, 0), (4, i.version)]
  if stage = 4 then s.raiseLead 199 17 [(1, slot), (1, 0), (2, i.svn), (2, s.fw.arb.toNat)] else s

/-- EV_FW_UPDATE with its action (R521). -/
def State.fwEvent (s : State) (slot action : Nat) (i : Image) : State :=
  s.raise (mkEv 198 s.lead 0xFF 17 0 [(1, slot), (1, action), (2, 0), (4, i.version), (2, i.svn)])

/-- The slot and whether it is a trial, as step 1 of R510 chooses, with the descriptor rewritten; the last says whether a trial was cleared. -/
def State.chooseSlot (s : State) : State × Nat × Bool × Bool :=
  let d := s.bootDesc.2
  if d.trial ≤ 1 ∧ d.tried = 0 then (s.writeDesc (fun x => { x with tried := 1 }), d.trial, true, false)
  else if d.trial ≤ 1 then (s.writeDesc (fun x => { x with trial := 0xFF, tried := 0 }), d.preferred % 2, false, true)
  else (s, d.preferred % 2, false, false)

/-- The image of a slot starts (R510 step 6, R512, R517, R518). -/
def State.startImage (s : State) (slot : Nat) (trial cleared : Bool) : State :=
  let i := s.slotImage slot
  let s := (s.extend 1 (s.flashAt (slotBase slot) 4096)).extend 2 (s.flashAt (slotBase slot) i.length)
  let s := { s with fw := { s.fw with version := BitVec.ofNat 32 i.version, bootSlot := slot } }
  let s := ((s.wr FW_STATUS_RUNNING slot).wr FW_STATUS_TRIAL (if trial then 1 else 0)).wr FW_STATUS_SVN i.svn
  let s := s.wr FW_STATUS_ARB_CTR s.fw.arb.toNat
  if cleared then s.fwEvent slot 4 i else s

/-- The ROM boots (R510): the slot chosen, then the other; the second result says whether an image runs. -/
def State.bootRom (s : State) (sigA sigB : Bool) : State × Bool :=
  let (s, slot, trial, cleared) := s.chooseSlot
  let sig (k : Nat) : Bool := if k = 0 then sigA else sigB
  let other := 1 - slot
  match s.imageFail (s.slotImage slot) (sig slot) with
  | none => (s.startImage slot trial cleared, true)
  | some c =>
    let s := s.verifyFail slot c (s.slotImage slot)
    match s.imageFail (s.slotImage other) (sig other) with
    | none => (s.startImage other false cleared, true)
    | some e => ({ s.verifyFail other e (s.slotImage other) with fw := { s.fw with bootSlot := slot } }, false)

/-- An order of FW_CTRL fails or is refused at a stage (R516 to R518). -/
def State.fwFails (s : State) (stage : Nat) : State := ((s.wr FW_STATUS_FAIL 1).wr FW_STATUS_STAGE stage).wr FW_STATUS_BUSY 0

/-- Whether the compatibility manifest of an image lies within its signed bytes (R516). -/
def Image.compatOk (i : Image) : Bool := decide (i.compatAt + i.compatLen ≤ i.length)

/-- GO: the staged image is checked, and programming of the slot not running starts (R511, R516). In recovery the slot is the one that step 1
of R510 chose. -/
def State.fwGo (s : State) (sigOk : Bool) : State :=
  let src := s.rd FW_CTRL_SRC
  let recovery := decide (s.rd MODULE_STATUS_STAGE = 15)
  let slot := if recovery then s.fw.bootSlot else 1 - s.fw.bootSlot
  let i := s.stagedImage src
  if s.flag FW_STATUS_TRIAL ∧ ¬ recovery then (s.fwFails 7).wr FW_CTRL_GO 0
  else
    let stage := if src % 4096 ≠ 0 ∨ s.accessOk src (i.length + 29792) = false then some 1
      else match s.imageFail i sigOk with
        | some c => some c
        | none => if i.compatOk then none else some 5
    match stage with
    | some c => ((s.fwFails c).verifyFail slot c i).wr FW_CTRL_GO 0
    | none => { s.wr FW_STATUS_BUSY 1 with fw := { s.fw with update := some (slot, src) } }

/-- COMMIT: the running trial becomes the preferred image (R517). -/
def State.fwCommit (s : State) : State :=
  let slot := s.fw.bootSlot
  let s := s.wr FW_CTRL_COMMIT 0
  if s.flag FW_STATUS_TRIAL = false then s.wr FW_STATUS_DONE 1
  else
    let s := (s.writeDesc (fun x => { x with preferred := slot, trial := 0xFF, tried := 0 })).fwEvent slot 3 (s.slotImage slot)
    (s.wr FW_STATUS_TRIAL 0).wr FW_STATUS_DONE 1

/-- ARB: the anti-rollback counter rises to the SVN of the running image (R517). -/
def State.fwArb (s : State) : State :=
  let s := s.wr FW_CTRL_ARB 0
  if s.flag FW_STATUS_TRIAL then s.fwFails 8
  else
    let v := max s.fw.arb.toNat (s.rd FW_STATUS_SVN)
    { (s.wr FW_STATUS_ARB_CTR v).wr FW_STATUS_DONE 1 with fw := { s.fw with arb := BitVec.ofNat 16 v } }

/-- The programming and the read-back of an update end (R511, R516, R519). A slot that fails its read-back is left erased (DESIGN CHOICE, log entry 3). After an
update in recovery the module resets. -/
def execFwUpdateDone (readBackOk : Bool) (s : State) : Ans :=
  match s.fw.update with
  | none => .next s
  | some (slot, src) =>
    let i := s.stagedImage src
    let s := (s.flashErase (slotBase slot) imageSlotBytes).wr FW_CTRL_GO 0
    let s := { s with fw := { s.fw with update := none } }
    if readBackOk = false then .next ((s.fwFails 6).verifyFail slot 6 i)
    else
      let s := s.flashWrite (slotBase slot) (s.bytesAt src (i.length + 29792))
      let recovery := decide (s.rd MODULE_STATUS_STAGE = 15)
      let s := s.writeDesc (fun x => { x with trial := slot, tried := 0 })
      let s := ((s.fwEvent slot 1 i).wr FW_STATUS_BUSY 0).wr FW_STATUS_DONE 1
      .next (if recovery then { s.wr MODULE_RESET_BUSY 1 with lamp := { s.lamp with resetOrder := some (1, 3) } } else s)

/-- A refused order of ATT_CTRL (R514). -/
def State.attFails (s : State) (code : Nat) : State := ((s.wr ATT_STATUS_ERROR 1).wr ATT_STATUS_CODE code).wr ATT_CTRL_GO 0

/-- GO of ATT_CTRL starts an order, or refuses it (R514). -/
def State.attGo (s : State) : State :=
  let a := s.rd ATT_CTRL_ADDR
  let op := s.rd ATT_CTRL_OP
  let mr := s.rd ATT_CTRL_MR
  if 2 ≤ op then s.attFails 3
  else if op = 1 ∧ mr < 8 then s.attFails 1
  else if a % 64 ≠ 0 ∨ 0x010000000000 ≤ a ∨ s.accessOk a (if op = 0 then 18304 else 64) = false then s.attFails 2
  else { s.wr ATT_STATUS_BUSY 1 with fw := { s.fw with attest := some (op, a, mr) } }

/-- The attestation report over a nonce (R515). The signature and the key come from the module secret (log entry 10). -/
def State.attReport (s : State) (nonce : List Byte) : List Byte :=
  let n := s.fuses.serial
  let b (p : Bool) (i : Nat) : Nat := if p then 2 ^ i else 0
  let flags := b (s.flag MODULE_STATUS_UNTESTED) 0 + b (s.flag MODULE_STATUS_OWNER_STATE) 1 + b (s.flag MODULE_STATUS_SERVICE) 2
  let owner := if s.job.owner = [] then noOwner else s.job.owner
  let mrs := (List.range 16).flatMap (fun i => leBytes 64 (s.mr i).toNat)
  let key := (List.range 32).map (fun i => Config.identityKey n i)
  let body := leBytes 2 Config.reportFormat.toNat ++ leBytes 2 0 ++ leBytes 4 18304 ++ leBytes 8 n.toNat ++ leBytes 1 s.fuses.dies ++ leBytes 1 (if s.fuses.gradeC then 1 else 0) ++
    leBytes 1 flags ++ leBytes 1 0 ++ leBytes 4 s.fw.version.toNat ++ leBytes 2 (s.rd FW_STATUS_SVN) ++ leBytes 2 s.fw.arb.toNat ++ leBytes 4 0 ++
    nonce ++ owner ++ leBytes 6 s.frameSeq ++ leBytes 2 0 ++ leBytes 6 (s.rd LAMP_CAL_SECONDS) ++ leBytes 1 (s.rd LAMP_CAL_SYNCED) ++ leBytes 17 0 ++
    mrs ++ key ++ leBytes 32 0
  body ++ (List.range 17088).map (fun i => Config.identitySignature n body i)

/-- An attestation order ends (R514): the report is written with its event, or the measurement register extended. -/
def execAttestDone (s : State) : Ans :=
  match s.fw.attest with
  | none => .next s
  | some (op, a, mr) =>
    let s := { s with fw := { s.fw with attest := none } }
    let s := ((s.wr ATT_STATUS_BUSY 0).wr ATT_STATUS_DONE 1).wr ATT_CTRL_GO 0
    if op = 1 then .next (s.extendRaw mr (s.bytesAt a 64))
    else
      let nonce := s.bytesAt (a + 32) 32
      let s := s.setBytes a (s.attReport nonce)
      .next (s.raiseLead 200 17 [(8, leAt nonce 0 8), (4, 18304)])

end Sys2Proof.Machine
end

