-- ==== Sys2Proof/Machine/Boot.lean ====
section
/-! DEFINITION. Power-up and reset (R522 to R539): what each reset keeps, the steps of the sequence, version agreement, LPDDR6 training, and the entry and exit of
the power states (R490, R491). -/

namespace Sys2Proof.Machine

/-- The registers that FRAM keeps (R484, R486, R536). -/
def RegId.ofFram : RegId → Bool
  | .LAMP_FILT _ => true
  | .LAMP_RULE _ => true
  | .LAMP_RULE_CTL _ => true
  | .POLICY => true
  | _ => false

/-- The registers of the dies that a warm reset keeps: those of what stays powered, and with a paused job those of the job (R530, R539). -/
def RegId.warmKept (job : Bool) : RegId → Bool
  | .DEPOT_REGION _ _ => true
  | .SPAD_PWR _ _ => true
  | .JOB_STATUS => true
  | .FRAME_CFG => job
  | .IMAGE_CFG => job
  | .IMAGE_STATUS => job
  | _ => false

/-- Everything the dies hold is at reset; memory is zero, and the Lamp and the flash are as they were (R528, R530). -/
def State.coldWipe (s : State) : State :=
  { State.reset with
    pending := s.pending
    fuses := s.fuses
    flash := s.flash
    regs := s.regs.filter (fun e => e.1.ofLamp)
    lamp := s.lamp
    fw := { fwReset with arb := s.fw.arb, lampVersion := s.fw.lampVersion, update := s.fw.update, bootSlot := s.fw.bootSlot }
    wire := s.wire
    fresh := s.fresh }

/-- An update in progress is abandoned (R519, R532): its slot is left erased (DESIGN CHOICE, log entry 3). -/
def State.abandonUpdate (s : State) : State :=
  match s.fw.update with
  | some (slot, _) => { s.flashErase (slotBase slot) imageSlotBytes with fw := { s.fw with update := none } }
  | none => s

/-- The granule of a die's LPDDR6 that a line of its cache holds, from the key of the line's set and its tag (R296). -/
def State.lineGranule (s : State) (d key tag : Nat) : Option Nat :=
  let slice := key / 7424
  ((List.range 16).find? (fun k => decide (s.rd (DEPOT_REGION_KIND d k) = 2) && decide (s.rd (DEPOT_REGION_FIRST d k) ≤ slice) &&
      decide (slice < s.rd (DEPOT_REGION_FIRST d k) + s.rd (DEPOT_REGION_COUNT d k)))).map (fun k =>
    (tag * 7424 + key % 7424) * s.rd (DEPOT_REGION_COUNT d k) + (slice - s.rd (DEPOT_REGION_FIRST d k)))

/-- The dirty lines of a fenced die are lost (R531): the LPDDR6 bytes they covered have no specified contents. -/
def State.loseDirty (s : State) (d : Nat) : State :=
  if (s.die d).fenced = false then s
  else
    (s.die d).cache.foldl (fun s e => e.2.ways.foldl (fun s w =>
      match s.lineGranule d e.1 w.2.tag with
      | some g => if w.2.dirty then s.forget (d * 0x2000000000 + g * 256) 256 else s
      | none => s) s) s

/-- The memory of the dies that no retention keeps under a warm reset: control-core memory and the metadata buffers (R530; log entry 31). -/
def State.forgetBuffers (s : State) : State :=
  s.dieList.foldl (fun s d =>
    let s := s.forget (sramBase d + 0x80000000) 0x400000
    let s := s.forget (sramBase d + 0x90000000) 0x600000
    let s := s.forget (sramBase d + 0x90620000) 0x1C0000
    s.zeroRange (stagingBuf d) 0x20000) s

/-- A warm reset (R530, R531): LPDDR6, scratchpads, accumulators and pinned regions keep their contents, with the blocks that are powering up and the lines
marked bad (R291, R299); with a paused job its regions, tables and pickup state. -/
def State.warmWipe (s : State) : State :=
  let job := decide (s.rd JOB_STATUS_STATE = 3)
  let own := s.rd MODULE_STATUS_OWNER_STATE
  let m := (s.dieList.foldl (fun s d => s.loseDirty d) s).forgetBuffers
  let t : State := { s.coldWipe with
    mem := m.mem
    undef := m.undef
    fresh := m.fresh
    regs := s.regs.filter (fun e => e.1.ofLamp || e.1.warmKept job)
    regions := if job then s.regions else []
    job := if job then { s.job with takeover := false, held := [], standby := [], resume := false } else { jobReset with owner := s.job.owner }
    fw := { s.coldWipe.fw with versionsBefore := BitVec.ofNat 48 (s.rd MODULE_VERSIONS_V) } }
  let t : State := { t with
    cores := (s.cores.filter (fun e => decide (e.2.powering ≠ 0))).map (fun e => (e.1, { coreReset with powering := e.2.powering }))
    dies := (s.dies.filter (fun e => decide (e.2.badLines ≠ []) || (job && decide (e.2.mirrorLive ≠ [])))).map (fun e => (e.1, { dieReset with badLines := e.2.badLines, mirrorLive := if job then e.2.mirrorLive else [] })) }
  let t := t.wr MODULE_STATUS_OWNER_STATE own
  if job then t else t.dieList.foldl (fun t d => t.zeroRange (shardTable d) 0x20000) (t.wr JOB_STATUS_STATE 0)

/-- The job that a warm reset kept ends on this module (R539). -/
def State.dropJob (s : State) : State :=
  if s.rd JOB_STATUS_STATE ≠ 3 then s
  else
    let s := s.wr JOB_STATUS_STATE 0
    let s := { s with regions := [], job := { jobReset with owner := s.job.owner } }
    s.dieList.foldl (fun s d => s.zeroRange (shardTable d) 0x20000) s

/-- MR0 takes the ROM version and the fuse configuration (R512). -/
def State.measureRom (s : State) : State :=
  s.extend 0 ((List.range 64).map (fun i => Config.fuseItem (tabGet s.fuses.rom s.lead 1) s.fuses.serial i))

/-- Step 3 (R522, R529): the dies leave reset, those that fail their self-check are fenced, the ports train and the lead die is chosen. The second
result says whether a die leads. -/
def State.bootDies (s : State) (fail : List Nat) : State × Bool :=
  let s := s.dieList.foldl (fun s d => s.modDie d (fun y => { y with powered := true, fenced := fail.contains d })) s
  let s := s.wr MODULE_STATUS_DIE_FAILED ((s.dieList.filter (fun d => fail.contains d)).map (fun d => 2 ^ d)).sum
  let s := s.dieList.foldl (fun s d => (List.range 3).foldl (fun s p =>
    match s.portPeer d p with
    | some e => if s.dieUp d ∧ s.dieUp e then s.modPort d p (fun x => { x with up := true }) else s
    | none => s) s) s
  let s := s.wr MODULE_STATUS_STAGE 3
  if s.dieUp 0 then (s.wr MODULE_LEAD_LEAD_DIE 0, true)
  else if s.dieUp 1 then (s.wr MODULE_LEAD_LEAD_DIE 1, true)
  else (s, false)

/-- The compatibility manifest of the running image (R538). -/
def State.compat (s : State) : List Byte :=
  let i := s.slotImage s.fw.bootSlot
  s.flashAt (slotBase s.fw.bootSlot + i.compatAt) i.compatLen

/-- The ranges of interface `i` among its parties (R537): those reported, and the image's for interfaces 1 to 5. -/
def State.partyRanges (s : State) (ranges : List (Nat × Nat × Nat)) (i : Nat) : List (Nat × Nat) :=
  let m := s.compat
  (ranges.filter (fun r => decide (r.1 = i))).map (fun r => r.2) ++ (if i = 0 then [] else [(leAt m (8 + 2 * i) 1, leAt m (9 + 2 * i) 1)])

/-- The version agreed, 0 where none is: the smallest MAX, when it is at least every MIN. -/
def agreedOf (rs : List (Nat × Nat)) : Nat :=
  match rs with
  | [] => 0
  | r :: t =>
    let v := (t.map (fun x => x.2)).foldl min r.2
    if (r :: t).all (fun x => decide (x.1 ≤ v)) then v else 0

/-- Whether an entry of the compatibility manifest matches a die and the Lamp firmware (R538). -/
def State.dieTested (s : State) (m : List Byte) (d : Nat) : Bool :=
  (List.range (leAt m 0 4)).any (fun e =>
    decide (leAt m (32 + 16 * e) 1 = (tabGet s.fuses.stepping d 0x11).toNat) && decide (leAt m (33 + 16 * e) 1 = (tabGet s.fuses.rom d 1).toNat) &&
      decide (leAt m (34 + 16 * e) 4 = s.fw.lampVersion.toNat))

/-- The versions agreed for the six interfaces, and the Lamp firmware version read (R537, R538). -/
def State.setVersions (s : State) (env : BootEnv) : State :=
  let vs := (List.range 6).map (fun i => agreedOf (s.partyRanges env.ranges i))
  let s := s.wr MODULE_VERSIONS_V (leNat (vs.map (fun v => BitVec.ofNat 8 v)))
  { s with fw := { s.fw with lampVersion := env.lampVersion } }

/-- The dies that serve and match no tested combination (R538). -/
def State.untestedDies (s : State) : List Nat := s.upDies.filter (fun d => !s.dieTested s.compat d)

/-- The interfaces without an agreed version (R537). -/
def State.openInterfaces (s : State) : List Nat := (List.range 6).filter (fun i => decide (s.agreed i = 0))

/-- The combination is judged (R524, R538): UNTESTED, and SERVICE where a die has failed, a version is open, or POLICY holds the module. -/
def State.judgeVersions (s : State) (bad open_ : List Nat) : State :=
  let service := decide (s.rd MODULE_STATUS_DIE_FAILED ≠ 0) || decide (open_ ≠ []) || (decide (bad ≠ []) && !s.flag POLICY_ALLOW_UNTESTED) ||
    s.flag POLICY_HOLD_SERVICE
  (s.wr MODULE_STATUS_UNTESTED (if bad ≠ [] then 1 else 0)).wr MODULE_STATUS_SERVICE (if service then 1 else 0)

/-- EV_UNTESTED_COMBINATION, where a die is untested or a version open (R538). -/
def State.reportVersions (s : State) (bad open_ : List Nat) : State :=
  let d := bad.headD 0
  let known (v : BitVec 8) : Nat := if bad = [] then 0 else v.toNat
  if bad ≠ [] ∨ open_ ≠ [] then
    s.raiseLead 201 17 [(4, s.fw.version.toNat), (4, s.fw.lampVersion.toNat), (1, (bad.map (fun d => 2 ^ d)).sum),
      (1, known (tabGet s.fuses.stepping d 0x11)), (1, known (tabGet s.fuses.rom d 1)), (1, if s.flag POLICY_ALLOW_UNTESTED then 1 else 0),
      (2, (open_.map (fun i => 2 ^ i)).sum)]
  else s

/-- MR3 and MR4 take the versions and the Lamp's rules (R512). -/
def State.measureVersions (s : State) : State :=
  let s := s.extend 3 (leBytes 8 (s.rd MODULE_VERSIONS_V) ++ leBytes 1 (s.rd MODULE_STATUS_UNTESTED) ++ leBytes 1 (s.rd MODULE_STATUS_SERVICE) ++ leBytes 54 0)
  s.extend 4 ((List.range 20).flatMap (fun r => leBytes 8 (s.word (.LAMP_RULE r)).toNat ++ leBytes 8 (s.word (.LAMP_RULE_CTL r)).toNat) ++
    leBytes 8 (s.word .POLICY).toNat)

/-- Step 5 (R537, R538, R524): versions are agreed, the combination is judged, and MR3 and MR4 are extended. -/
def State.agreeVersions (s : State) (env : BootEnv) : State :=
  let s := s.setVersions env
  let bad := s.untestedDies
  let open_ := s.openInterfaces
  ((s.judgeVersions bad open_).reportVersions bad open_).measureVersions

/-- Step 6 (R525, R526): a channel that fails its training twice fails for good, and its die is fenced. -/
def State.trainMemory (s : State) (env : BootEnv) : State :=
  env.chFail.foldl (fun s x =>
    let (d, ch, step) := x
    if s.dieUp d ∧ ch < 16 then
      (s.wr (LPDDR_CH_STATUS_FAILED d ch) 1).raise (mkEv 202 d 0xFF 20 ch [(1, ch), (1, step), (1, 2), (1, 0), (4, env.bootMs)])
    else s) s

/-- Step 7 (R415, R522): the links of the dies that serve train. -/
def State.trainLinks (s : State) : State :=
  s.allLinks.foldl (fun s k => if s.dieUp k.1 then (s.wr (LINK_CFG_ENABLE k.1 k.2) 1).startTraining k.1 k.2 else s) s

/-- ROM recovery (R511): die 0's LPDDR6 and host link H0 only. -/
def State.romRecovery (s : State) : State :=
  let s := s.dropJob.wr MODULE_STATUS_STAGE 15
  (s.wr (LINK_CFG_ENABLE 0 0) 1).startTraining 0 0

/-- Whether the versions that a paused job depends on are those of before (R539). -/
def State.sameVersions (s : State) : Bool :=
  [2, 3, 4].all (fun i => decide (s.agreed i = field s.fw.versionsBefore.toNat (8 * i) 8))

/-- The sequence from step 3 on (R522 to R529). `last` is the kind of reset, `cause` its cause (R534). -/
def State.bootSequence (s : State) (last cause : Nat) (env : BootEnv) : State :=
  let s := { s with fw := { s.fw with mr := [] } }
  let s := (s.wr MODULE_STATUS_LAST last).wr MODULE_STATUS_CAUSE cause
  let (s, led) := s.bootDies env.dieFail
  if led = false then s
  else
    let (s, runs) := (s.measureRom.wr MODULE_STATUS_STAGE 4).bootRom env.sigOkA env.sigOkB
    if runs = false then s.romRecovery
    else
      let s := s.agreeVersions env
      let s := if s.sameVersions then s else s.dropJob
      let s := (s.trainMemory env).trainLinks
      let s := if s.rd MODULE_STATUS_DIE_FAILED ≠ 0 then s.wr MODULE_STATUS_SERVICE 1 else s
      let s := (s.wr MODULE_STATUS_STAGE 8).wr MODULE_STATUS_BOOT_MS (min env.bootMs 65535)
      { s with lamp := { s.lamp with savedTiming := true } }

/-- Whether step 2 can enable the main stage (R522): the main input, AUTO_ON or a request for Active, and no SHUTDOWN rule tripped. -/
def State.mainCan (s : State) (env : BootEnv) : Bool :=
  env.lampOk && env.mainOk && (s.flag POLICY_AUTO_ON || decide (s.rd LAMP_PWR_REQ = 0)) &&
    (List.range 128).all (fun r => !(s.flag (LAMP_RULE_CTL_TRIPPED r) && decide (s.rd (LAMP_RULE_CTL_ACT r) / 8 % 2 = 1)))

/-- The main stage is enabled (R493, R495, R522). -/
def State.mainUp (s : State) : State :=
  let s := ((s.wr LAMP_PWR_STATE 0).wr LAMP_PWR_REQ 0).wr LAMP_PWR_BUSY 0
  let s := s.lampCount 4 1
  { s with lamp := { s.lamp with mainOn := true, mainIn := true, target := none, request := none } }

/-- Steps 2 on, as a power-up or as a cold reset that starts at step 2 (R522, R530, R531). -/
def State.powerUp (s : State) (last cause : Nat) (env : BootEnv) : State :=
  let s := s.wr MODULE_RESET_BUSY 0
  let s := { s with lamp := { s.lamp with resetOrder := none } }
  if s.mainCan env then (s.abandonUpdate.coldWipe.mainUp).bootSequence last cause env
  else s.wr MODULE_STATUS_STAGE (if env.lampOk then 2 else 1)

/-- The main stage is off: the dies hold nothing (R490, R487). -/
def State.mainOff (s : State) : State :=
  let s := s.abandonUpdate.coldWipe.wr LAMP_PWR_STATE 3
  { s.wr LAMP_PWR_BUSY 0 with lamp := { s.lamp with mainOn := false, target := none } }

/-- A reset that was ordered runs (R531): the bypass closes, and the sequence resumes at step 3; a cold reset under an unpowered main stage starts at
step 2, and a warm one has nothing to reset there (DESIGN CHOICE, log entry 121). -/
def State.runReset (s : State) (kind cause : Nat) (env : BootEnv) : State :=
  let s := s.closeBypass 2
  if s.lamp.mainOn = false then
    (if kind = 1 then s.powerUp 1 cause env else { s.wr MODULE_RESET_BUSY 0 with lamp := { s.lamp with resetOrder := none } })
  else
    let s := s.wr MODULE_RESET_BUSY 0
    let s := ((s.wr LAMP_PWR_STATE 0).wr LAMP_PWR_BUSY 0)
    let s := { s with lamp := { s.lamp with resetOrder := none, target := none, request := none } }
    if kind = 1 then s.abandonUpdate.coldWipe.bootSequence 1 cause env else s.abandonUpdate.warmWipe.bootSequence 2 cause env

/-- The cause that a source of a reset order leaves in MODULE_STATUS (R534). -/
def resetCause (src : Src) : Nat :=
  match src with
  | .host _ _ => 1
  | .packet _ _ _ => 1
  | .smbus => 2
  | .firmware _ => 3
  | .mgmt _ => 3

/-- An order for a cold reset (R531, R532): while another is in progress it is turned into a cold one. -/
def execColdReset (src : Src) (env : BootEnv) (s : State) : Ans :=
  if s.lamp.auxIn = false then .next s else .next (s.runReset 1 (resetCause src) env)

/-- An order for a warm reset (R531, R532): ignored while one is in progress. -/
def execWarmReset (src : Src) (env : BootEnv) (s : State) : Ans :=
  if s.lamp.auxIn = false ∨ s.flag MODULE_RESET_BUSY then .next s else .next (s.runReset 2 (resetCause src) env)

/-- The FRAM copy taken at auxiliary power-up: the newer whose CRC holds (R496). -/
def Lamp.framBest (l : Lamp) : FramCopy :=
  if l.framA.ok ∧ l.framB.ok then (if l.framA.gen ≤ l.framB.gen then l.framB else l.framA) else if l.framA.ok then l.framA else if l.framB.ok then l.framB else framNone

/-- A rule's control word at auxiliary power-up: TRIPPED and TRIPS are clear, the rest is from FRAM (R486, R530). -/
def framWord (e : RegId × Word) : RegId × Word :=
  match e.1 with
  | .LAMP_RULE_CTL r => (.LAMP_RULE_CTL r, e.2 &&& 0xFFFF)
  | r => (r, e.2)

/-- The Lamp starts (R522 step 1): FRAM is loaded, the straps are read (R545) and the bypass is closed. -/
def State.lampStarts (s : State) (slot : BitVec 4) (coach : Bool) : State :=
  let c := s.lamp.framBest
  let s := { s with fuses := { s.fuses with slot := slot, coach := coach } }
  let t := s.abandonUpdate.coldWipe
  let t : State := { t with
    regs := (t.regs.filter (fun e => e.1.ofFram)).map framWord
    lamp := { lampReset with
      counters := c.counters
      hot := []
      history := s.lamp.history
      retire := s.lamp.retire
      framA := s.lamp.framA
      framB := s.lamp.framB
      savedTiming := s.lamp.savedTiming
      auxIn := true
      mainIn := s.lamp.mainIn } }
  ((t.wr LAMP_CAL_SECONDS c.seconds).lampCount 3 1).wr MODULE_STATUS_STAGE 1

/-- Auxiliary supply rises (R522). -/
def execAuxPowerUp (env : BootEnv) (slot : BitVec 4) (coach : Bool) (s : State) : Ans :=
  .next ((s.lampStarts slot coach).powerUp 0 0 env)

/-- Auxiliary supply is lost (R542): the main stage goes off and the redrivers open. What FRAM does not hold is lost at the next power-up. -/
def execAuxPowerLoss (s : State) : Ans :=
  let s := s.mainOff.wr BYPASS_CLOSED 0
  .next { s with lamp := { s.lamp with auxIn := false } }

/-- The comparator finds main power below its limit (R442, R541, R490): the bypass closes, and the module is Off. -/
def execMainPowerLow (s : State) : Ans :=
  if s.lamp.mainOn = false then .next { s with lamp := { s.lamp with mainIn := false } }
  else
    let s := (s.closeBypass 1).mainOff
    .next { s with lamp := { s.lamp with mainIn := false } }

/-- Every 100 ms the Lamp tries again to enable the main stage (R524). -/
def execMainStageRetry (env : BootEnv) (s : State) : Ans :=
  if s.lamp.auxIn = false ∨ s.lamp.mainOn ∨ s.rd MODULE_STATUS_STAGE = 0 ∨ 2 < s.rd MODULE_STATUS_STAGE then .next s
  else .next (s.powerUp (s.rd MODULE_STATUS_LAST) (s.rd MODULE_STATUS_CAUSE) env)

end Sys2Proof.Machine
end

