-- ==== Sys2Proof/Machine/Lamp.lean ====
section
/-! DEFINITION. The Lamp: how its registers take writes at a sample boundary, sensor channels and filters (R479 to R484), rules and their actions (R485 to R489), power
requests and transitions (R490 to R493), the calendar, counters and FRAM (R494 to R496), and the sample block (R502). -/

namespace Sys2Proof.Machine

/-- A field of a register word as a write of `new` leaves it (R12). -/
def FSpec.write (f : FSpec) (old new : Nat) : Nat :=
  match f.acc with
  | .rw => putField old f.lo f.width (field new f.lo f.width)
  | .wo => putField old f.lo f.width (field new f.lo f.width)
  | .w1c => putField old f.lo f.width (field old f.lo f.width &&& (2 ^ f.width - 1 - field new f.lo f.width))
  | .ro => old
  | .rc => old

/-- A register word as a write of `new` leaves its fields of one latch class (R15). -/
def RegId.writeClass (r : RegId) (cls : Latch) (old new : Nat) : Nat :=
  (r.fields.filter (fun f => decide (f.latch = cls))).foldl (fun w f => f.write w new) old

/-- The state after a write of the fields of one latch class. -/
def State.putClass (s : State) (r : RegId) (cls : Latch) (w : Word) : State :=
  s.setWord r (BitVec.ofNat 64 (r.writeClass cls (s.word r).toNat w.toNat))

/-- An event of the Lamp, raised on the lead die; with the dies unpowered only its error-history record is kept. -/
def State.lampRaise (s : State) (e : Ev) : State := if s.lamp.mainOn then s.raise e else if historyListed e.num then s.history e else s

/-- An event of the Lamp with its source. -/
def State.lampEv (s : State) (num : Nat) (items : List (Nat × Nat)) : Ev := mkEv num s.lead 0xFF 25 0 items

/-- Whether an action of a rule is set: 0 WAKE, 1 THROTTLE, 2 BYPASS, 3 SHUTDOWN, 4 LOG, 5 FENCE (R486). -/
def State.ruleActs (s : State) (r a : Nat) : Bool := (s.rd (LAMP_RULE_CTL_ACT r)).testBit a

/-- The cap of the module: the smallest among its tripped rules with THROTTLE (R489). -/
def State.moduleCap (s : State) : Nat :=
  ((List.range 128).filter (fun r => s.flag (LAMP_RULE_CTL_TRIPPED r) && s.ruleActs r 1)).foldl (fun m r => min m (s.rd (LAMP_RULE_CTL_CAP r))) 16

/-- Whether a rule with SHUTDOWN is tripped. -/
def State.shutTripped (s : State) : Bool := (List.range 128).any (fun r => s.flag (LAMP_RULE_CTL_TRIPPED r) && s.ruleActs r 3)

/-- THROTTLE of a rule at trip or release: the cap is computed again, with EV_THROTTLE (R487, R521). -/
def State.throttle (s : State) (r : Nat) : State :=
  if s.ruleActs r 1 = false then s
  else
    let s := s.wr LAMP_PWR_CAP s.moduleCap
    let any := (List.range 128).any (fun k => s.flag (LAMP_RULE_CTL_TRIPPED k) && s.ruleActs k 1)
    s.lampRaise (s.lampEv 193 [(1, if any then r else 0xFF), (1, s.rd LAMP_PWR_CAP), (6, 0), (6, s.frameSeq)])

/-- LOG of a rule (R487, R521): EV_LAMP_RULE, and at a trip an error-history record. -/
def State.logRule (s : State) (r : Nat) (trip : Bool) : State :=
  if s.ruleActs r 4 = false then s
  else
    let ch := s.rd (LAMP_RULE_CH r)
    let e := s.lampEv 192 [(1, r), (1, ch), (1, if trip then 1 else 0), (1, 0), (2, s.rd (LAMP_SENSE_FILT ch)), (2, s.rd (LAMP_RULE_THRESH r)),
      (6, s.rd LAMP_CAL_SECONDS)]
    let s := s.lampRaise e
    if trip then s.history { e with frame := s.frameSeq } else s

/-- A rule is released: by its samples, or by a write of EN = 0 (R485, R487). -/
def State.releaseRule (s : State) (r : Nat) : State := (s.throttle r).logRule r false

/-- A write of EN reaches a rule at the sample boundary (R485, R486). -/
def State.enableRule (s : State) (r : Nat) (en : Bool) : State :=
  let ch := s.rd (LAMP_RULE_CH r)
  let cap := s.rd (LAMP_RULE_CTL_CAP r)
  if en then
    (if (s.ruleActs r 5 ∧ ¬ (ch < 8 ∨ (24 ≤ ch ∧ ch < 32))) ∨ cap < 4 ∨ 16 < cap then
      (s.wr (LAMP_RULE_CTL_EN r) 0).lampRaise (mkEv 1 s.lead 0xFF 17 0 [(6, (RegId.LAMP_RULE_CTL r).addr), (1, 25)])
    else s.wr (LAMP_RULE_CTL_EN r) 1)
  else
    let was := s.flag (LAMP_RULE_CTL_TRIPPED r)
    let s := (s.wr (LAMP_RULE_CTL_EN r) 0).wr (LAMP_RULE_CTL_TRIPPED r) 0
    let s := { s with lamp := { s.lamp with ruleRun := tabDel s.lamp.ruleRun r } }
    if was then s.releaseRule r else s

/-- The register that a module address names, where a Lamp-served register stands there. -/
def lampRegAt (a : Nat) : Option RegId :=
  match locateReg a with
  | some r => if r.ofLamp then some r else none
  | none => none

/-- A reset order of MODULE_RESET is taken up at the boundary (R531). -/
def State.orderReset (s : State) (kind cause : Nat) : State :=
  { s.wr MODULE_RESET_BUSY 1 with lamp := { s.lamp with resetOrder := some (kind, cause) } }

/-- A write that waited takes effect at a sample boundary: the class-I fields of a register of the Lamp (R479). `cause` is that of
R534 for its source. -/
def State.applyI (s : State) (a : Nat) (w : Word) (cause : Nat) : State :=
  match lampRegAt a with
  | none => s
  | some (.LAMP_FILT ch) =>
    let s := s.putClass (.LAMP_FILT ch) .i w
    { s with lamp := { s.lamp with filters := tabDel s.lamp.filters ch } }
  | some (.LAMP_RULE_CTL r) => s.enableRule r (w.getLsbD 0)
  | some .LAMP_CAL => (s.putClass .LAMP_CAL .i w).wr LAMP_CAL_SYNCED 1
  | some .MODULE_RESET =>
    let k := w.toNat % 4
    if k = 0 ∨ k = 3 then s
    else if s.flag MODULE_RESET_BUSY then
      (if k = 1 then { s with lamp := { s.lamp with resetOrder := s.lamp.resetOrder.map (fun o => (1, o.2)) } } else s)
    else s.orderReset k cause
  | some r => s.putClass r .i w

/-- The writes that waited for the boundary. -/
def State.applyAllI (s : State) : State :=
  s.lamp.pendingI.foldl (fun s x => s.applyI x.1 x.2.1 x.2.2) { s with lamp := { s.lamp with pendingI := [] } }

/-- Whether a die's sensors are present (R481). -/
def State.dieSensed (s : State) (d : Nat) : Bool := s.dieUp d && (s.die d).powered

/-- Whether a sensor channel is present (R480, R481). -/
def State.chPresent (s : State) (ch : Nat) : Bool :=
  if ch < 32 then s.dieSensed (ch % 8)
  else if ch < 44 then true
  else if 48 ≤ ch ∧ ch < 58 then s.allLinks.any (fun k => decide (s.lampLink k.1 k.2 = ch - 48) && s.dieSensed k.1)
  else false

/-- An integer into an ascending list. -/
def insertInt (x : Int) (xs : List Int) : List Int :=
  match xs with
  | [] => [x]
  | y :: r => if x ≤ y then x :: y :: r else y :: insertInt x r

/-- The median of an odd count of samples. -/
def median (xs : List Int) : Int := ((xs.foldl (fun l x => insertInt x l) [])[xs.length / 2]?).getD 0

/-- A filter initialised from a sample (R483). -/
def filterInit (w : Nat) (x : Int) : Filter := { init := true, acc := x * 65536, win := List.replicate w x, run := 1, last := x, y := x }

/-- One step of a filter (R483): kind 0 none, 1 IIR with shift k, 2 median of w, 3 debounce of n. -/
def Filter.step (f : Filter) (kind k n : Nat) (x : Int) : Filter :=
  if kind = 1 then
    let acc := f.acc + (x * 65536 - f.acc) / ((2 ^ k : Nat) : Int)
    { f with acc := acc, y := acc / 65536 }
  else if kind = 2 then
    let win := f.win.drop 1 ++ [x]
    { f with win := win, y := median win }
  else if kind = 3 then
    let run := if x = f.last then f.run + 1 else 1
    { f with run := run, last := x, y := if n ≤ run then x else f.y }
  else { f with y := x }

/-- The thermal cycles of a die's temperature channel (R495). The filtered value is the channel's (DESIGN CHOICE, log entry 47). -/
def State.thermal (s : State) (ch : Nat) (y : Int) : State :=
  if 8 ≤ ch then s
  else if 1120 < y then { s with lamp := { s.lamp with hot := insertAsc ch s.lamp.hot } }
  else if y < 640 ∧ s.lamp.hot.contains ch then
    let s := s.lampCount (8 + ch) 1
    { s with lamp := { s.lamp with hot := s.lamp.hot.erase ch } }
  else s

/-- One channel of a sample (R481 to R483). A channel without a sample in the command keeps its last one. -/
def State.sampleCh (s : State) (xs : List Sample) (ch : Nat) : State :=
  if s.chPresent ch = false then
    let s := s.setWord (.LAMP_SENSE ch) 0
    { s with lamp := { s.lamp with filters := tabDel s.lamp.filters ch } }
  else
    let s := match xs.find? (fun x => decide (x.ch = ch)) with
      | some x => if x.fault then s.wr (LAMP_SENSE_FAULT ch) 1 else (s.wr (LAMP_SENSE_RAW ch) x.raw.toNat).wr (LAMP_SENSE_FAULT ch) 0
      | none => s
    let x := signed 16 (s.rd (LAMP_SENSE_RAW ch))
    let w := 2 * s.rd (LAMP_FILT_W ch) + 3
    let f := match (s.lamp.filters.find? (fun e => decide (e.1 = ch))) with
      | some e => e.2.step (s.rd (LAMP_FILT_KIND ch)) (max 1 (s.rd (LAMP_FILT_K ch))) (max 1 (s.rd (LAMP_FILT_N ch))) x
      | none => filterInit w x
    let s := { s with lamp := { s.lamp with filters := tabSet s.lamp.filters ch f } }
    ((s.wr (LAMP_SENSE_FILT ch) (f.y % 65536).toNat).wr (LAMP_SENSE_PRESENT ch) 1).thermal ch f.y

/-- What a sample does to a rule. -/
inductive RuleMove where
  | trip | release | stay
  deriving DecidableEq, Repr

/-- One rule in one sample (R485). -/
def State.ruleStep (s : State) (r : Nat) : State × RuleMove :=
  let ch := s.rd (LAMP_RULE_CH r)
  if s.flag (LAMP_RULE_CTL_EN r) = false ∨ s.flag (LAMP_SENSE_PRESENT ch) = false then (s, .stay)
  else
    let y := signed 16 (s.rd (LAMP_SENSE_FILT ch))
    let t := signed 16 (s.rd (LAMP_RULE_THRESH r))
    let h : Int := (s.rd (LAMP_RULE_HYST r) : Nat)
    let below := s.flag (LAMP_RULE_DIR r)
    let dwell := max 1 (s.rd (LAMP_RULE_DWELL r))
    let tripped := s.flag (LAMP_RULE_CTL_TRIPPED r)
    let on := if tripped then (if below then decide (t + h ≤ y) else decide (y ≤ t - h)) else (if below then decide (y < t) else decide (t < y))
    let run := if on then tabGet s.lamp.ruleRun r 0 + 1 else 0
    let full := decide (dwell ≤ run)
    let s := { s with lamp := { s.lamp with ruleRun := tabSet s.lamp.ruleRun r (if full then 0 else run) } }
    if full = false then (s, .stay)
    else if tripped then (s.wr (LAMP_RULE_CTL_TRIPPED r) 0, .release)
    else ((s.wr (LAMP_RULE_CTL_TRIPPED r) 1).count (LAMP_RULE_CTL_TRIPS r) 1, .trip)

/-- The rules of a sample in ascending number: which trip and which are released. -/
def State.rulesFrom (s : State) (rs : List Nat) : State × List Nat × List Nat :=
  match rs with
  | [] => (s, [], [])
  | r :: t =>
    let x := s.ruleStep r
    let y := x.1.rulesFrom t
    (y.1, (if x.2 = .trip then [r] else []) ++ y.2.1, (if x.2 = .release then [r] else []) ++ y.2.2)

/-- EV_POWER_STATE (R521). -/
def State.powerEvent (s : State) (old new cause : Nat) : State :=
  s.lampRaise (s.lampEv 194 [(1, old), (1, new), (1, cause), (5, 0), (6, s.rd LAMP_CAL_SECONDS)])

/-- SHUTDOWN of tripped rules (R487): EV_SUPPLY_FAULT, and the main stage goes off. -/
def State.shutdown (s : State) (rs : List Nat) : State :=
  if rs = [] then s
  else
    let s := rs.foldl (fun s r =>
      let ch := s.rd (LAMP_RULE_CH r)
      s.lampRaise (s.lampEv 195 [(1, r), (1, ch), (2, 0), (2, s.rd (LAMP_SENSE_FILT ch)), (2, 0), (6, s.rd LAMP_CAL_SECONDS)])) s
    if s.lamp.mainOn then ((s.powerEvent (s.rd LAMP_PWR_STATE) 3 2).closeBypass 6).mainOff else s

/-- FENCE of a tripped rule (R487). -/
def State.fenceBy (s : State) (r : Nat) : State :=
  let ch := s.rd (LAMP_RULE_CH r)
  let d := ch % 8
  if s.dieSensed d then
    s.raise (mkEv 196 d 0xFF 25 0 [(1, r), (1, d), (2, 0), (2, s.rd (LAMP_SENSE_FILT ch)), (2, 0), (6, s.rd LAMP_CAL_SECONDS)])
  else s

/-- The actions of the rules of one sample, in the order of R487; the second result says whether a WAKE holds. -/
def State.actAll (s : State) (trips rels : List Nat) : State × Bool :=
  let with_ (a : Nat) : List Nat := trips.filter (fun r => s.ruleActs r a)
  let off := with_ 3
  let wake := decide (with_ 0 ≠ []) && decide (off = [])
  let s := s.shutdown off
  let s := (trips.filter (fun r => s.ruleActs r 5)).foldl (fun s r => s.fenceBy r) s
  let s := if trips.any (fun r => s.ruleActs r 2) then s.closeBypass 3 else s
  let s := (trips ++ rels).foldl (fun s r => s.throttle r) s
  let s := if wake ∧ (s.rd LAMP_PWR_STATE = 1 ∨ s.rd LAMP_PWR_STATE = 2) then
      { s.wr LAMP_PWR_BUSY 1 with lamp := { s.lamp with target := some (0, 1) } }
    else s
  let s := trips.foldl (fun s r => s.logRule r true) s
  (rels.foldl (fun s r => s.logRule r false) s, wake)

/-- A transition to a power state starts (R490, R492). Entry to Retain or Off closes the bypass first. -/
def State.startPower (s : State) (q : Nat) : State :=
  let s := if 2 ≤ q then s.closeBypass 6 else s
  { s.wr LAMP_PWR_BUSY 1 with lamp := { s.lamp with target := some (q, 0) } }

/-- A power request is applied or refused at the sample boundary (R492). -/
def State.powerRequest (s : State) (wake : Bool) : State :=
  match s.lamp.request with
  | none => s
  | some q =>
    let st := s.rd LAMP_PWR_STATE
    let s := { s with lamp := { s.lamp with request := none } }
    let no := (s.wr LAMP_PWR_REFUSED 1).powerEvent st q 3
    if q = 3 then (if st = 3 then s else s.startPower 3)
    else if q = 0 then (if st = 0 then s else if s.shutTripped then no else s.startPower 0)
    else if wake ∨ s.rd JOB_STATUS_STATE ≠ 0 ∨ st = 3 ∨ (q = 1 ∧ st = 2) then no
    else if st = q then s
    else s.startPower q

/-- The Lamp takes a sample of every channel (R479): writes that waited, channels, rules, their actions, and a request. -/
def execLampSample (xs : List Sample) (s : State) : Ans :=
  if s.lamp.auxIn = false then .next s
  else
    let s := (List.range 64).foldl (fun s ch => s.sampleCh xs ch) s.applyAllI
    let r := s.rulesFrom (List.range 128)
    let a := r.1.actAll r.2.1 r.2.2
    .next (a.1.powerRequest a.2)

/-- Retain begins (R490, R491): what is kept stays, the module leaves its team, and the dies are unpowered. -/
def State.enterRetain (s : State) : State :=
  let fenced := s.dieList.map (fun d => (s.die d).fenced)
  let t := s.warmWipe
  let t := [RegId.MODULE_STATUS, .MODULE_VERSIONS, .MODULE_LEAD, .FW_STATUS, .FW_CTRL].foldl (fun t r => t.setWord r (s.word r)) t
  let t := { t with fw := s.fw }
  let t := (t.wr MODULE_STATUS_READY 0).wr MODULE_STATUS_STAGE 8
  t.dieList.foldl (fun t d => t.modDie d (fun y => { y with fenced := (fenced[d]?).getD false })) t

/-- Retain ends (R491): the dies run, and ports and links train. -/
def State.exitRetain (s : State) : State :=
  let s := s.dieList.foldl (fun s d => s.modDie d (fun y => { y with powered := true })) s
  let s := s.dieList.foldl (fun s d => (List.range 3).foldl (fun s p =>
    match s.portPeer d p with
    | some e => if s.dieUp d ∧ s.dieUp e then s.modPort d p (fun x => { x with up := true }) else s
    | none => s) s) s
  s.trainLinks

/-- A transition of the power state ends (R491), or a reset that MODULE_RESET ordered runs (R531). -/
def execPowerTransitionDone (env : BootEnv) (s : State) : Ans :=
  match s.lamp.resetOrder with
  | some (k, c) => .next (s.runReset k c env)
  | none =>
    match s.lamp.target with
    | none => .next s
    | some (q, c) =>
      let old := s.rd LAMP_PWR_STATE
      let s := { s.wr LAMP_PWR_BUSY 0 with lamp := { s.lamp with target := none } }
      if q = 3 then .next ((s.powerEvent old 3 c).mainOff)
      else if old = 3 then
        let s := (s.wr LAMP_PWR_REQ 0).powerUp 1 4 env
        .next (if s.lamp.mainOn then s.powerEvent 3 0 c else s)
      else
        let s := (if q = 2 then s.enterRetain else if old = 2 then s.exitRetain else s).wr LAMP_PWR_STATE q
        .next (s.powerEvent old q c)

/-- The FRAM copies after a save: the older one is written (R496). -/
def Lamp.save (l : Lamp) (secs : Nat) : Lamp :=
  if l.framA.gen ≤ l.framB.gen then { l with framA := { gen := l.framB.gen + 1, ok := true, counters := l.counters, seconds := secs } }
  else { l with framB := { gen := l.framA.gen + 1, ok := true, counters := l.counters, seconds := secs } }

/-- Once per second the calendar and the counters of time and energy advance, and one FRAM copy is written (R494 to R496). -/
def execFramSave (secs : Nat) (s : State) : Ans :=
  if s.lamp.auxIn = false then .next s
  else
    let s := s.wr LAMP_CAL_SECONDS (s.rd LAMP_CAL_SECONDS + secs)
    let s := if s.lamp.mainOn then s.lampCount 0 secs else s
    let s := if s.lamp.mainOn ∧ s.rd LAMP_PWR_STATE = 0 then s.lampCount 1 secs else s
    let s := s.lampCount 2 (secs * (signed 16 (s.rd (LAMP_SENSE_FILT 34))).toNat)
    .next { s with lamp := s.lamp.save (s.rd LAMP_CAL_SECONDS) }

/-- The bytes of a Lamp sample block (R502). -/
def State.sampleBlock (s : State) : List Byte :=
  leBytes 6 (s.rd LAMP_CAL_SECONDS) ++ leBytes 2 0 ++ (List.range 64).flatMap (fun ch => leBytes 2 (s.rd (LAMP_SENSE_FILT ch)))

/-- An item of a producer passes into a FIFO in words of 32 B (R502). -/
def fifoWords (kind core unit : Nat) (first : Bool) (bs : List Byte) (fuel : Nat) : List FifoWord :=
  match fuel with
  | 0 => []
  | fuel + 1 =>
    let last := decide (bs.length ≤ 32)
    let w : FifoWord := { data := padTo 32 (bs.take 32), tag := fifoTag (min 32 bs.length) first last kind core unit }
    if last then [w] else w :: fifoWords kind core unit false (bs.drop 32) fuel

/-- The Lamp sample block goes to the lead die's FIFO (R502), where TELEM asks for it. -/
def execLampSampleBlock (s : State) : Ans :=
  if s.rd LAMP_PWR_TELEM = 0 ∨ s.lamp.auxIn = false then .next s
  else .next ((fifoWords 2 0xFF 25 true s.sampleBlock 5).foldl (fun s w => s.fifoPush s.lead w) s)

end Sys2Proof.Machine
end

