-- ==== Sys2Proof/Machine/Fifo.lean ====
section
/-! DEFINITION. The event FIFO of a die as its management core reads it (R502 to R504), the forwarding of event records to the lead die, and the host event
ring (R505, R506). -/

namespace Sys2Proof.Machine

/-- Whether the host event ring takes a record: it is enabled and has room (R505, R506). -/
def State.ringTakes (s : State) : Bool :=
  s.flag EVRING_CTL_EN && decide ((s.rd EVRING_PTR_TAIL + 2 ^ 21 - s.rd EVRING_PTR_HEAD) % 2 ^ 21 < 2 ^ s.rd EVRING_CTL_LOG2)

/-- A record is written at TAIL of the host event ring (R505). -/
def State.ringPut (s : State) (w : FifoWord) : State :=
  let a := s.rd EVRING_BASE_BASE + 32 * (s.rd EVRING_PTR_TAIL % 2 ^ s.rd EVRING_CTL_LOG2)
  let s := if s.accessOk a 32 then s.setBytes a w.data else s.unmapped s.lead 0xFF 17 0 a 0xFFFF
  s.wr EVRING_PTR_TAIL (s.rd EVRING_PTR_TAIL + 1)

/-- Held records are written, oldest first, while the ring takes them (R506). -/
def State.ringPump (s : State) (fuel : Nat) : State :=
  match fuel with
  | 0 => s
  | fuel + 1 =>
    match s.ringHold with
    | [] => s
    | w :: r => if s.ringTakes then (State.ringPut { s with ringHold := r } w).ringPump fuel else s

/-- The held records that the ring now takes are written. -/
def State.ringRelease (s : State) : State := s.ringPump s.ringHold.length

/-- Whether a record may be dropped: its level is 0 or N (R506). -/
def FifoWord.soft (w : FifoWord) : Bool := decide (leAt w.data 2 1 % 16 = 0) || decide (leAt w.data 2 1 % 16 = 15)

/-- The list without its first soft record. -/
def dropSoft (ws : List FifoWord) : List FifoWord :=
  match ws with
  | [] => []
  | w :: r => if w.soft then r else w :: dropSoft r

/-- A record that the ring does not take is held with up to 4,095 others (R506): the oldest soft one makes room in a full hold, and a hold full of hard ones drops a
soft newcomer. `none` where neither can be: a hard record then waits where it is (DEDUCED, log entry 49). -/
def State.holdRecord (s : State) (w : FifoWord) : Option State :=
  if s.ringHold.length < 4096 then some { s with ringHold := s.ringHold ++ [w] }
  else if s.ringHold.any FifoWord.soft then
    some ({ s with ringHold := dropSoft s.ringHold ++ [w] }.count EVRING_DROP_DROPPED 1)
  else if w.soft then some (s.count EVRING_DROP_DROPPED 1)
  else none

/-- The management core reads a word of its FIFO with its tag; an event record goes on to the lead die, and the word that waits longest enters (R503, R505). A read of
an empty FIFO stalls. -/
def execEventFifoRead (d : Nat) (s : State) : Ans :=
  match (s.die d).fifo with
  | [] => .next s
  | w :: r =>
    if s.dieUp d = false then .next s
    else
      let s := s.modDie d (fun x =>
        { x with fifo := r ++ x.fifoWait.take 1, fifoWait := x.fifoWait.drop 1,
                 forward := if field w.tag.toNat 8 8 = 1 then x.forward ++ [w] else x.forward })
      .next (s.send (.fifoWord d w))

/-- An event record of a die reaches the lead die, which writes it into the host event ring, or holds it (R505, R506). -/
def execEventRecordForward (d : Nat) (s : State) : Ans :=
  match (s.die d).forward with
  | [] => .next s
  | w :: r =>
    if s.dieUp d = false ∨ s.dieUp s.lead = false ∨ s.routeOk d s.lead = false then .next s
    else
      let t := s.ringRelease
      if t.ringHold = [] ∧ t.ringTakes then .next ((t.ringPut w).modDie d (fun x => { x with forward := r }))
      else
        match t.holdRecord w with
        | some t => .next (t.modDie d (fun x => { x with forward := r }))
        | none => .next t

end Sys2Proof.Machine
end

