-- ==== Sys2Proof/Machine/LoadStore.lean ====
section
/-! DEFINITION. Sequencer loads and stores (R113, R114, R284): in a core through its task windows, in a control core in its
local memory (R93). -/

namespace Sys2Proof.Machine

/-- The effective address of LD and ST: sa + sext(imm), an integer (R113). -/
def State.effAddr (s : State) (d q : Nat) (m : FmtM) : Int := (s.sreg d q m.sa).toInt + m.imm.toInt

/-- The address that an access of `n` bytes resolves to, or the fault it meets: EV_WINDOW_FAULT before EV_MISALIGNED (R113). -/
def State.lsAddr (s : State) (d q : Nat) (m : FmtM) (n : Nat) (p : Perm) : Except Res Nat :=
  let ea := s.effAddr d q m
  match s.seqResolve d q m.win.toNat ea n p with
  | none => .error (.fault 67 [(1, m.win.toNat), (6, off48 ea)])
  | some a => if ea % n = 0 then .ok a else .error (.fault 66 [(6, off48 ea)])

/-- A load of `n` bytes, zero-extended to sd; the bank that serves it counts its word (R289). -/
def State.load (s : State) (h : Hdr) (m : FmtM) (n : Nat) : State :=
  s.issue h 8 (legalM h.seq m) true (fun s =>
    match s.lsAddr h.die h.seq m n .rd with
    | .error f => f
    | .ok a => .done ((s.bankServed a n).setS h.die h.seq m.sd (BitVec.ofNat 64 (s.natAt a n))))

/-- A store of the low `n` bytes of sd; the bank that serves it counts its word (R289). -/
def State.store (s : State) (h : Hdr) (m : FmtM) (n : Nat) : State :=
  s.issue h 8 (legalM h.seq m) true (fun s =>
    match s.lsAddr h.die h.seq m n .wr with
    | .error f => f
    | .ok a => .done ((s.bankServed a n).setBytes a (leBytes n (s.sreg h.die h.seq m.sd).toNat)))

/-- LD8. -/
def execLd8 (h : Hdr) (m : FmtM) (s : State) : Ans := .next (s.load h m 1)

/-- LD16. -/
def execLd16 (h : Hdr) (m : FmtM) (s : State) : Ans := .next (s.load h m 2)

/-- LD32. -/
def execLd32 (h : Hdr) (m : FmtM) (s : State) : Ans := .next (s.load h m 4)

/-- LD64. -/
def execLd64 (h : Hdr) (m : FmtM) (s : State) : Ans := .next (s.load h m 8)

/-- ST8. -/
def execSt8 (h : Hdr) (m : FmtM) (s : State) : Ans := .next (s.store h m 1)

/-- ST16. -/
def execSt16 (h : Hdr) (m : FmtM) (s : State) : Ans := .next (s.store h m 2)

/-- ST32. -/
def execSt32 (h : Hdr) (m : FmtM) (s : State) : Ans := .next (s.store h m 4)

/-- ST64. -/
def execSt64 (h : Hdr) (m : FmtM) (s : State) : Ans := .next (s.store h m 8)

end Sys2Proof.Machine
end

