-- ==== Sys2Proof/Machine/Registers.lean ====
section
/-! DEFINITION. Register accesses (R12 to R16, R75 to R78): what a read returns, how a write reaches each field under its latch class, what a write of a field sets
going, and the mailbox of the Lamp (R499). Each row of the opcode table that is a register write is a write of its word here. -/

namespace Sys2Proof.Machine

/-- A register word with a value put into a field. -/
def put (w : Nat) (f : FRef) (v : Nat) : Nat := putField w f.lo f.width v

/-- A truth value as a bit. -/
def bitOf (b : Bool) : Nat := if b then 1 else 0

/-- The register word of a group (R190). -/
def Group.word (g : Group) (w : Nat) (f : Nat → FRef) : Nat :=
  put (put (put (put (put (put (put w (f 0) g.count) (f 1) g.unit) (f 2) g.acc) (f 3) (bitOf (decide (g.held ≠ [])))) (f 4) (g.held.headD 0)) (f 5) (bitOf g.ovf))
    (f 6) (bitOf g.bx)

/-- The groups that a core shows: its own, and while no item runs there the open ones that parked items keep (R186, R189). -/
def Core.shown (c : Core) : Tab Group :=
  if c.cur.isSome then c.groups else c.groups.filter (fun g => g.2.isOpen) ++ c.kept.flatMap (fun k => k.2) ++ c.groups

/-- Group `g` as ACC_GROUP describes it: the one open, or the last that closed (R190). -/
def Core.group (c : Core) (g : Nat) : Group := ((c.shown.find? (fun e => decide (e.1 = g))).map (fun e => e.2)).getD groupReset

/-- The fields of ACC_GROUP in order. -/
def accGroupField (d c g i : Nat) : FRef :=
  match i with
  | 0 => ACC_GROUP_COUNT d c g
  | 1 => ACC_GROUP_UNIT d c g
  | 2 => ACC_GROUP_ACC d c g
  | 3 => ACC_GROUP_HELD d c g
  | 4 => ACC_GROUP_TILE d c g
  | 5 => ACC_GROUP_OVF d c g
  | _ => ACC_GROUP_BX d c g

/-- Bit g is 1 for the groups of a core that meet a test. -/
def Core.groupMask (x : Core) (p : Group → Bool) : Nat :=
  ((x.shown.filter (fun e => e.2.isOpen && p e.2)).map (fun e => 2 ^ e.1)).foldl (· ||| ·) 0

/-- Three loop indices of a channel register (R338). -/
def idxWord (i0 i1 i2 : Nat) : Nat := i0 % 65536 + i1 % 65536 * 2 ^ 16 + i2 % 65536 * 2 ^ 32

/-- The run whose next access the index registers of a channel show: the first that has accesses left. -/
def Chan.indexRun (c : Chan) (write : Bool) : Option DRun :=
  c.q.find? (fun r => r.started && r.status.isNone && !(if write then r.writesDone r.desc else r.readsDone r.desc))

/-- The loop indices of read or write `i` of a streamed operation; under INDEXED i1 and i2 are those of the listed block, by block column or place in its row, and by
block row (R315, R323). -/
def DRun.loopIdx (x : Desc) (r : DRun) (write : Bool) (i : Nat) : Nat :=
  let c0 := if write then x.dcnt0 else x.scnt0
  if x.op = 5 then
    match r.listed[i / c0]? with
    | some (br, j, bc) => idxWord (i % c0) (if write then j else bc) br
    | none => 0
  else idxWord (i % c0) (i / c0 % x.cnt1) (i / (c0 * x.cnt1))

/-- The indices of read `i` of a tile operation: its row, and the tile or block in hand. -/
def DRun.tileReadIdx (x : Desc) (r : DRun) (i : Nat) : Nat :=
  match r.tileNow x with
  | some (i1, i2) => idxWord (((r.segs x)[i]?.map (fun g => g.1)).getD 0) i1 i2
  | none => 0

/-- The indices of the next write of a tile operation: the tile or block written; under SKEW with the row i0 of its word, and else 0 there. -/
def DRun.tileWriteIdx (x : Desc) (r : DRun) : Nat :=
  if x.op = 4 then idxWord ((64 * (x.sw / 32) - r.plan.length) / (x.sw / 32)) (r.tix % x.cnt1) (r.tix / x.cnt1)
  else if x.layout = 5 then
    (if r.phase = 2 then (match (r.blBlocks x)[r.tix]? with
      | some (br, bc, _) => idxWord 0 bc br
      | none => 0) else 0)
  else idxWord 0 (r.tix % x.cnt1) (r.tix / x.cnt1)

/-- The indices of the next read or write of a channel: of a streamed operation by its loops, of a tile operation by row, and by tile or block; one that failed and is to be
issued again comes first (R332, R338; DEDUCED, log entry 50). -/
def State.chanIdx (s : State) (d n : Nat) (write : Bool) : Nat :=
  let c := s.chan d n
  match c.indexRun write with
  | none => 0
  | some r =>
    let x := r.desc
    let i := if write then (if r.again = [] then r.wi else c.failIdx) else (if r.gap then r.ret else r.rd)
    if x.tiled then (if write then r.tileWriteIdx x else r.tileReadIdx x i) else r.loopIdx x write i

/-- Spare lanes of a link still free: those that neither direction uses (R422). -/
def State.sparesFree (s : State) (d l spares : Nat) : Nat :=
  let used (tx : Bool) : Nat := ((s.link d l).sparesUsed.filter (fun u => decide (64 ≤ u.1) == tx)).length
  spares - max (used true) (used false)

/-- The repair word of a physical core (R167): the fuse, or that of a die without repair (log entry 2). -/
def State.repairWord (s : State) (d p : Nat) : Word :=
  tabGet s.fuses.repair (coreKey d p) (BitVec.ofNat 64 (if p < s.nCores then p * 2 ^ 16 else 0x7F * 2 ^ 16 + 3 * 2 ^ 8))

/-- What a read of a register word returns (R12, R16): the stored word, with the fields that report what State holds elsewhere. -/
def State.regView (s : State) (r : RegId) : Word :=
  let w := (s.word r).toNat
  match r with
  | .TEAM_STATUS => BitVec.ofNat 64 (put (put w TEAM_STATUS_SLOT s.mySlot) TEAM_STATUS_STRAP (bitOf s.fuses.coach))
  | .MODULE_ID =>
    BitVec.ofNat 64 (put (put (put (put (put (put w MODULE_ID_DIES s.fuses.dies) MODULE_ID_GRADE (bitOf s.fuses.gradeC)) MODULE_ID_CORES s.nCores)
      MODULE_ID_CHANNELS (16 * s.fuses.dies)) MODULE_ID_STEPPING (tabGet s.fuses.stepping s.lead 0x11).toNat) MODULE_ID_ROM (tabGet s.fuses.rom s.lead 1).toNat)
  | .MODULE_SERIAL => s.fuses.serial
  | .ARRAY_REPAIR d p => s.repairWord d p
  | .ACC_STATUS d c =>
    BitVec.ofNat 64 (put (put w (ACC_STATUS_OPEN d c) ((s.core d c).groupMask (fun _ => true))) (ACC_STATUS_STRICT d c)
      ((s.core d c).groupMask (fun g => g.strict)))
  | .ACC_GROUP d c g => BitVec.ofNat 64 (((s.core d c).group g).word w (accGroupField d c g))
  | .HARNESS_STATUS d c => BitVec.ofNat 64 (put w (HARNESS_STATUS_BUSY d c) (bitOf ((s.core d c).running.any (fun r => decide (r.1 = 4)))))
  | .PRED_STATUS d c => BitVec.ofNat 64 (put w (PRED_STATUS_BUSY d c) (bitOf ((s.core d c).running.any (fun r => decide (r.1 = 5)))))
  | .SPAD_STAT d c =>
    BitVec.ofNat 64 (put (put w (SPAD_STAT_RSV d c) (((s.core d c).rsv.map (fun e => e.2)).foldl (· + ·) 0)) (SPAD_STAT_BORROW d c)
      (((s.core d c).borrow.map (fun e => e.2)).foldl (· ||| ·) 0))
  | .DRAY_CH_STATUS d n => s.chanStatus d n
  | .DRAY_CH_SRC d n => BitVec.ofNat 64 (put w (DRAY_CH_SRC_SRC_IDX d n) (s.chanIdx d n false))
  | .DRAY_CH_DST d n => BitVec.ofNat 64 (put w (DRAY_CH_DST_DST_IDX d n) (s.chanIdx d n true))
  | .DRAY_CH_ERR d n => BitVec.ofNat 64 (put (put w (DRAY_CH_ERR_ERR_ADDR d n) (s.chan d n).errAddr) (DRAY_CH_ERR_ERR_KIND d n) (s.chan d n).errKind)
  | .DRAY_CH_SLOTS d n =>
    let x := if s.flag (DRAY_CH_SCFG_BIND d n) then s.slots d n else (0, 0, 0, 0)
    BitVec.ofNat 64 (put (put (put (put w (DRAY_CH_SLOTS_FREE d n) x.1) (DRAY_CH_SLOTS_FILL d n) x.2.1) (DRAY_CH_SLOTS_FULL d n) x.2.2.1)
      (DRAY_CH_SLOTS_DRAIN d n) x.2.2.2)
  | .WORK_CTR_HELD d k => BitVec.ofNat 64 (put w (WORK_CTR_HELD_RLIST d k) (s.rlist d k).length)
  | .MEM_TAGS d => BitVec.ofNat 64 (put w (MEM_TAGS_IN_USE d) (s.die d).reqs.length)
  | .LINK_STATUS d l =>
    match s.linkInfo d l with
    | none => BitVec.ofNat 64 (put w (LINK_STATUS_PORT d l) 0xF)
    | some i =>
      BitVec.ofNat 64 (put (put (put w (LINK_STATUS_PORT d l) i.port) (LINK_STATUS_INDEX d l) i.index) (LINK_STATUS_SPARES d l) (s.sparesFree d l i.spares))
  | .LEDGER_STATUS d =>
    BitVec.ofNat 64 (put (put (put (put w (LEDGER_STATUS_OPEN d) (s.openEntries d).length) (LEDGER_STATUS_FULL d) (bitOf (decide ((s.die d).held ≠ []))))
      (LEDGER_STATUS_ACTIVE d) ((s.activeEntry d).getD 0)) (LEDGER_STATUS_ACT_VALID d) (bitOf (s.activeEntry d).isSome))
  | .EVQ_STATUS d => BitVec.ofNat 64 (put w (EVQ_STATUS_LEVEL d) (s.die d).fifo.length)
  | .EVRING_DROP => BitVec.ofNat 64 (put w EVRING_DROP_HELD s.ringHold.length)
  | .FW_STATUS => BitVec.ofNat 64 (put w FW_STATUS_ARB_CTR s.fw.arb.toNat)
  | _ => s.word r

/-- A read clears the RC fields of a register word (R12). -/
def State.rcClear (s : State) (r : RegId) : State :=
  let fs := r.fields.filter (fun f => decide (f.acc = .rc))
  if fs = [] then s else s.setWord r (BitVec.ofNat 64 (fs.foldl (fun w f => putField w f.lo f.width 0) (s.word r).toNat))

/-- A word of the mailbox's data area. -/
def State.mboxAt (s : State) (o : Nat) : Word := BitVec.ofNat 64 (leNat (cellsRead 0 s.lamp.mbox o 8))

/-- A read of a register address that stands there: the word, and the state with its RC fields cleared. -/
def State.regRead (s : State) (a : Nat) : State × Word :=
  match mboxWord a with
  | some o => (s, s.mboxAt o)
  | none =>
    match s.regAt a with
    | some r => (s.rcClear r, s.regView r)
    | none => (s, 0)

/-- Whether a work item runs or is parked on a core (R76, R134, R291). -/
def State.itemHere (s : State) (d c : Nat) : Bool :=
  (s.core d c).cur.isSome || s.items.any (fun e => decide (e.1 / 1024 = d) && decide (e.2.runCore = c) && decide (e.2.st = .parked))

/-- Whether a completion queue is busy (R331). -/
def State.cqBusy (s : State) (d q : Nat) : Bool :=
  s.flag (DRAY_CQ_CTL_EN d q) || decide (s.rd (DRAY_CQ_PTR_TAIL d q) ≠ s.rd (DRAY_CQ_PTR_HEAD d q))

/-- Whether the unit that uses the L-class fields of a register is busy (R15, R76, R134, R223, R291, R331, R422, R439, R486, R493, R499, R505, R514, R518). -/
def State.regBusy (s : State) (r : RegId) : Bool :=
  match r with
  | .SEQ_CTRL d c => s.itemHere d c
  | .SPAD_PWR d c => s.itemHere d c
  | .HARNESS_CTRL d c => (s.core d c).running.any (fun r => decide (r.1 = 4))
  | .DRAY_CQ_BASE d q => s.cqBusy d q
  | .DRAY_CQ_CTL d q => s.cqBusy d q
  | .LINK_CFG d l => decide (s.rd (LINK_STATUS_STATE d l) ≠ 0)
  | .TEAM_CFG => decide (s.rd TEAM_STATUS_STATE ≠ 0)
  | .LAMP_RULE k => s.flag (LAMP_RULE_CTL_EN k)
  | .LAMP_RULE_CTL k => s.flag (LAMP_RULE_CTL_EN k)
  | .LAMP_PWR => s.flag LAMP_PWR_BUSY
  | .MBOX_CMD => s.flag MBOX_STATUS_BUSY
  | .ATT_CTRL => s.flag ATT_STATUS_BUSY
  | .FW_CTRL => s.flag FW_STATUS_BUSY
  | .EVRING_BASE => s.flag EVRING_CTL_EN
  | .EVRING_CTL => s.flag EVRING_CTL_EN
  | _ => false

/-- The UNIT code of the unit that uses the L-class fields of a register (R76, R451). -/
def regUnit (r : RegId) : Nat :=
  match r with
  | .SEQ_CTRL _ _ => 0
  | .SPAD_PWR _ _ => 0
  | .HARNESS_CTRL _ _ => 5
  | .DRAY_CQ_BASE _ _ => 21
  | .DRAY_CQ_CTL _ _ => 21
  | .LINK_CFG _ _ => 22
  | .TEAM_CFG => 24
  | .LAMP_RULE _ => 25
  | .LAMP_RULE_CTL _ => 25
  | .LAMP_PWR => 25
  | .MBOX_CMD => 25
  | _ => 17

/-- EV_LATCH_BUSY_WRITE for a register, raised on the die that serves it. -/
def State.busyReg (s : State) (r : RegId) : State := s.busyWrite (s.regHome r.addr) r.addr (regUnit r)

/-- Whether a register is written only as a whole, and not while it is locked: a factory rule takes no write (R488). -/
def ruleLocked (r : RegId) : Bool :=
  match r with
  | .LAMP_RULE k => decide (k < 20)
  | .LAMP_RULE_CTL k => decide (k < 20)
  | _ => false

/-- Whether a word gives an L-class field a value that the register refuses: a CT outside 64 to 4,096 (R422). -/
def badL (r : RegId) (w : Word) : Bool :=
  match r with
  | .LINK_CFG d l =>
    let f := LINK_CFG_CT d l
    let v := field w.toNat f.lo f.width
    decide (v < 64) || decide (4096 < v)
  | _ => false

/-- A write reaches the L-class fields (R15): one that changes none of them is no write to them; one that would is ignored, with one event, while the unit is busy. -/
def State.writeL (s : State) (r : RegId) (w : Word) : State :=
  if r.writeClass .l (s.word r).toNat w.toNat = (s.word r).toNat then s
  else if s.regBusy r ∨ badL r w then s.busyReg r
  else s.putClass r .l w

/-- The bits of the fields of one latch class that a write sets. -/
def RegId.classMask (r : RegId) (cls : Latch) : Nat :=
  ((r.fields.filter (fun f => decide (f.latch = cls) && decide (f.acc = .rw))).map (fun f => (2 ^ f.width - 1) <<< f.lo)).foldl (· ||| ·) 0

/-- A write reaches the F-class fields: it waits for the tick (R75). -/
def State.writeF (s : State) (r : RegId) (w : Word) : State :=
  let m := BitVec.ofNat 64 (r.classMask .f)
  s.pendWrite r { mask := m, val := w &&& m }

/-- A write reaches the I-class fields (R14): at once, or for a register of the Lamp at its next sample boundary (R479). BYPASS.CLOSE acts at once (R442). -/
def State.writeI (s : State) (src : Src) (r : RegId) (w : Word) : State :=
  if r.fields.all (fun f => decide (f.latch ≠ .i)) then s
  else if r.ofLamp ∧ r ≠ .BYPASS then { s with lamp := { s.lamp with pendingI := s.lamp.pendingI ++ [(r.addr, w, resetCause src)] } }
  else s.putClass r .i w

/-- The result of a mailbox command: 256 B of its data area, and DONE. -/
def State.mboxDone (s : State) (bs : List Byte) : State :=
  State.wr { s with lamp := { s.lamp with mbox := cellsWrite 0 [] 0 (padTo 256 (bs.take 256)) } } MBOX_STATUS_DONE 1

/-- A refused mailbox command. -/
def State.mboxErr (s : State) : State := s.wr MBOX_STATUS_ERR 1

/-- The retirement list of a die (R498). -/
def State.retireList (s : State) (d : Nat) : List (BitVec 48) := tabGet s.lamp.retire d []

/-- The command in MBOX_CMD runs (R495, R497 to R499), at once (log entry 51). -/
def State.mboxRun (s : State) : State :=
  let cmd := s.rd MBOX_CMD_CMD
  let arg := s.rd MBOX_CMD_ARG
  let d := arg / 256
  if cmd = 1 ∧ arg < 2 then s.mboxDone ((List.range 32).flatMap (fun i => leBytes 8 (tabGet s.lamp.counters (32 * arg + i) 0)))
  else if cmd = 2 ∧ arg < 4096 then s.mboxDone (((s.lamp.history.reverse.drop arg).take 8).flatMap (fun r => r))
  else if cmd = 3 ∧ d < s.fuses.dies ∧ arg % 256 < 8 then
    s.mboxDone ((((s.retireList d).drop (32 * (arg % 256))).take 32).flatMap (fun a => leBytes 8 a.toNat))
  else if cmd = 4 ∧ d < s.fuses.dies ∧ arg % 256 = 0 ∧ (s.retireList d).length < 256 then
    let a := BitVec.ofNat 48 (leNat (cellsRead 0 s.lamp.mbox 0 8))
    State.wr { s with lamp := { s.lamp with retire := tabSet s.lamp.retire d (s.retireList d ++ [a]) } } MBOX_STATUS_DONE 1
  else s.mboxErr

/-- The 29,792 B signature of a staged image follows its signed bytes (R509). -/
def State.stagedSig (s : State) : Bool :=
  let a := s.rd FW_CTRL_SRC
  let i := s.stagedImage a
  Config.signatureHolds i.key (s.bytesAt a i.length) (s.bytesAt (a + i.length) 29792)

/-- The orders in FW_CTRL are taken up (R516, R517): `sig` says whether the staged image's signature holds. -/
def State.fwOrders (s : State) (sig : Bool) : State :=
  let commit := s.flag FW_CTRL_COMMIT
  let arb := s.flag FW_CTRL_ARB
  let s := if s.flag FW_CTRL_GO then s.fwGo sig else s
  let s := if commit then s.fwCommit else s
  if arb then s.fwArb else s

/-- A write of READY (R60, R65): set, it starts validation; cleared, it ends it and VALID (log entry 26). -/
def State.ttReadyWritten (s : State) (d : Nat) (was : Bool) : State :=
  if s.flag (TT_CTRL_READY d) = was then s
  else (s.wr (TT_CTRL_VALID d) 0).modDie d (fun x => { x with validating := !was })

/-- A write of OFF of a core's scratchpad (R291): a block powered down is unusable; one powered up reads zero, and is usable once SPAD_BLOCK_READY comes. -/
def State.spadPowered (s : State) (d c : Nat) (old : Nat) : State :=
  let off := s.rd (SPAD_PWR_OFF d c)
  let up := old &&& (2 ^ 24 - 1 - off)
  let s := s.wr (SPAD_PWR_READY d c) (s.rd (SPAD_PWR_READY d c) &&& (2 ^ 24 - 1 - off))
  let s := (setBits 24 up).foldl (fun s b => s.zeroRange (coreAddr d c (b * 0x8000)) 0x8000) s
  s.modCore d c (fun x => { x with powering := BitVec.ofNat 24 ((x.powering.toNat &&& (2 ^ 24 - 1 - off)) ||| up) })

/-- GO in JOB_SUBMIT shows as a submission pending while no job is (R78, R81). -/
def State.submitted (s : State) (w : Word) : State :=
  if w.getLsbD 48 then (if s.rd JOB_STATUS_STATE = 0 then s.wr JOB_STATUS_STATE 1 else s)
  else if s.rd JOB_STATUS_STATE = 1 then s.wr JOB_STATUS_STATE 0
  else s

/-- What a write sets going beside the fields it changes. `old` is the register word before it, `s0` the state before it. -/
def State.afterWrite (s s0 : State) (r : RegId) (w : Word) (sig : Bool) : State :=
  match r with
  | .TT_CTRL d => s.ttReadyWritten d (s0.flag (TT_CTRL_READY d))
  | .JOB_SUBMIT => s.submitted w
  | .DRAY_CQ_CTL d q => if s.flag (DRAY_CQ_CTL_EN d q) then s.releaseCq d q else s
  | .DRAY_CQ_PTR d q => s.releaseCq d q
  | .LINK_CFG d l =>
    if s.linkThere d l = false then s
    else if s.flag (LINK_CFG_ENABLE d l) then s.retrain d l 4
    else s.linkOff d l
  | .TEAM_CFG => if s.flag TEAM_CFG_ARM then s.joinTeam else s
  | .BYPASS => if s.flag BYPASS_CLOSE then s.closeBypass 4 else s
  | .SPAD_PWR d c => s.spadPowered d c (s0.rd (SPAD_PWR_OFF d c))
  | .LAMP_PWR =>
    if s.rd LAMP_PWR_REQ = s0.rd LAMP_PWR_REQ then s else { s with lamp := { s.lamp with request := some (s.rd LAMP_PWR_REQ) } }
  | .MBOX_CMD => if s0.regBusy .MBOX_CMD then s else s.mboxRun
  | .ATT_CTRL => if s.flag ATT_CTRL_GO ∧ s.flag ATT_STATUS_BUSY = false then s.attGo else s
  | .FW_CTRL => if s.flag FW_STATUS_BUSY then s else s.fwOrders sig
  | .EVRING_CTL => s.ringRelease
  | .EVRING_PTR => s.ringRelease
  | _ => s

/-- A command word of LEDGER_CTRL (R457). -/
def State.ledgerWord (s : State) (src : Src) (d : Nat) (w : Word) : State :=
  let e := w.toNat % 64
  let c := w.toNat / 64 % 4
  if c = 1 then s.ledgerTake src d e
  else if c = 2 then s.ledgerDone src d e
  else if c = 3 then s.ledgerClose src d e
  else if src = .mgmt d then s
  else s.busyWrite d (ledgerCtrl d) 17

/-- A write of a register word, each field under its own latch class (R15). -/
def State.writeReg (s : State) (src : Src) (r : RegId) (w : Word) (sig : Bool) : State :=
  match r with
  | .LEDGER_CTRL d => s.ledgerWord src d w
  | r =>
    if ruleLocked r then s.busyReg r
    else (((s.writeL r w).writeF r w).writeI src r w).afterWrite s r w sig

/-- A write of the 8 B word at an offset of the mailbox's data area (R499). -/
def State.writeMbox (s : State) (o : Nat) (w : Word) : State :=
  if s.flag MBOX_STATUS_BUSY then s.busyWrite s.lead (modReg (0x2100 + o)) 25
  else { s with lamp := { s.lamp with mbox := cellsWrite 0 s.lamp.mbox o (leBytes 8 w.toNat) } }

/-- A write to a register address that stands there. -/
def State.regWrite (s : State) (src : Src) (a : Nat) (w : Word) (sig : Bool) : State :=
  match mboxWord a with
  | some o => s.writeMbox o w
  | none =>
    match s.regAt a with
    | some r => s.writeReg src r w sig
    | none => s

/-- Whether the signature of the image that a write of FW_CTRL would have checked holds. -/
def State.sigFor (s : State) (a : Nat) (w : Word) : Bool := if a = RegId.FW_CTRL.addr then (s.writeL .FW_CTRL w).stagedSig else false

/-- A write of a register by a source, wherever the address lies. -/
def State.command (s : State) (src : Src) (r : RegId) (w : Word) (c : Instr) : State :=
  s.accessWrite src r.addr c (fun s => s.writeReg src r w false)

/-- REGISTER_WRITE: a register write packet is served and answered (R413); one for another module goes on. -/
def execRegisterWrite (src : Src) (p : Packet) (w : Word) (s : State) : Ans :=
  if s.passesOn src p then .next (s.registerOn src 6 p (leBytes 8 w.toNat))
  else .next (s.accessWrite src p.addr.toNat (.registerWrite src p w) (fun s => s.regWrite src p.addr.toNat w (s.sigFor p.addr.toNat w)))

/-- A read of a register answers its source. -/
def State.answerRead (s : State) (src : Src) (a : Nat) : State :=
  let r := s.regRead a
  (r.1.send (.register src a r.2)).respond src a (leBytes 8 r.2.toNat)

/-- REGISTER_READ: a register read packet is served and answered (R413); one for another module goes on. -/
def execRegisterRead (src : Src) (p : Packet) (s : State) : Ans :=
  if s.passesOn src p then .next (s.registerOn src 5 p [])
  else .next (s.access src p.addr.toNat (.registerRead src p) (fun s => s.answerRead src p.addr.toNat))

/-- RC_READ: the value is returned, and the RC fields are cleared (R12, R17). -/
def execRcRead (src : Src) (addr : BitVec 48) (s : State) : Ans :=
  .next (s.access src addr.toNat (.rcRead src addr) (fun s => s.answerRead src addr.toNat))

/-- A register response reaches its requester (R413): the request is no longer outstanding. One for another module goes on. -/
def execRegisterResponse (d l : Nat) (p : Packet) (data : List Byte) (s : State) : Ans :=
  let w : Word := BitVec.ofNat 64 (leNat (data.take 8))
  if s.linkHears d l = false then .next s
  else if s.forHere p = false then .next (s.passBack d l 7 p data)
  else
    match takeFirst (fun r => decide (r.p.rid = p.rid)) (s.link d l).reqs with
    | some (_, rest) => .next ((s.modLink d l (fun x => { x with reqs := rest })).send (.deliver d p.rid.toNat w))
    | none => .next (s.send (.deliver d p.rid.toNat w))

/-- TT_READY (R65). -/
def execTtReady (src : Src) (die : Nat) (w : Word) (s : State) : Ans :=
  .next (s.command src (.TT_CTRL die) (w ||| 1) (.ttReady src die w))

/-- JOB_SUBMIT (R78). -/
def execJobSubmit (src : Src) (w : Word) (s : State) : Ans := .next (s.command src .JOB_SUBMIT (w ||| 1#64 <<< 48) (.jobSubmit src w))

/-- One order of JOB_CTRL is written (R472); the other bits stand as they are pending. -/
def State.jobOrder (s : State) (src : Src) (f : FRef) (c : Instr) : State := s.accessWrite src f.reg.addr c (fun s => s.pendField f 1)

/-- RESUME (R476). -/
def execResume (src : Src) (s : State) : Ans := .next (s.jobOrder src JOB_CTRL_RESUME (.resume src))

/-- JOB_END (R472). -/
def execJobEnd (src : Src) (s : State) : Ans := .next (s.jobOrder src JOB_CTRL_END (.jobEnd src))

/-- IMAGE (R473). -/
def execImage (src : Src) (s : State) : Ans := .next (s.jobOrder src JOB_CTRL_IMAGE (.image src))

/-- RESTORE (R477). -/
def execRestore (src : Src) (s : State) : Ans := .next (s.jobOrder src JOB_CTRL_RESTORE (.restore src))

/-- CQ_ENABLE (R331). -/
def execCqEnable (src : Src) (die q : Nat) (w : Word) (s : State) : Ans :=
  .next (s.command src (.DRAY_CQ_CTL die q) (w ||| 1#64 <<< 8) (.cqEnable src die q w))

/-- CQ_HEAD (R329). -/
def execCqHead (src : Src) (die q : Nat) (head : BitVec 17) (s : State) : Ans :=
  .next (s.command src (.DRAY_CQ_PTR die q) (head.setWidth 64) (.cqHead src die q head))

/-- LINK_ENABLE (R415, R422). -/
def execLinkEnable (src : Src) (die l : Nat) (w : Word) (s : State) : Ans :=
  .next (s.command src (.LINK_CFG die l) (w ||| 1#64 <<< 13) (.linkEnable src die l w))

/-- LINK_DISABLE (R417). -/
def execLinkDisable (src : Src) (die l : Nat) (w : Word) (s : State) : Ans :=
  .next (s.command src (.LINK_CFG die l) (w &&& ~~~(1#64 <<< 13)) (.linkDisable src die l w))

/-- TEAM_JOIN (R430). -/
def execTeamJoin (src : Src) (w : Word) (s : State) : Ans := .next (s.command src .TEAM_CFG (w ||| 1#64 <<< 16) (.teamJoin src w))

/-- BYPASS_CLOSE (R445). -/
def execBypassClose (src : Src) (w : Word) (s : State) : Ans := .next (s.command src .BYPASS (w ||| 2) (.bypassClose src w))

/-- POWER_REQUEST (R492). -/
def execPowerRequest (src : Src) (w : Word) (s : State) : Ans := .next (s.command src .LAMP_PWR w (.powerRequest src w))

/-- CALENDAR_SET (R494). -/
def execCalendarSet (src : Src) (w : Word) (s : State) : Ans := .next (s.command src .LAMP_CAL w (.calendarSet src w))

/-- RULE_ENABLE (R486). -/
def execRuleEnable (src : Src) (r : Nat) (w : Word) (s : State) : Ans := .next (s.command src (.LAMP_RULE_CTL r) w (.ruleEnable src r w))

/-- FILTER_CONFIG (R484). -/
def execFilterConfig (src : Src) (ch : Nat) (w : Word) (s : State) : Ans := .next (s.command src (.LAMP_FILT ch) w (.filterConfig src ch w))

/-- A mailbox command with its argument (R499). -/
def mboxWordOf (cmd : Nat) (arg : BitVec 16) : Word := BitVec.ofNat 64 (cmd + arg.toNat * 2 ^ 16)

/-- READ_COUNTERS: mailbox command 1. -/
def execReadCounters (src : Src) (arg : BitVec 16) (s : State) : Ans := .next (s.command src .MBOX_CMD (mboxWordOf 1 arg) (.readCounters src arg))

/-- READ_ERROR_HISTORY: mailbox command 2. -/
def execReadErrorHistory (src : Src) (arg : BitVec 16) (s : State) : Ans :=
  .next (s.command src .MBOX_CMD (mboxWordOf 2 arg) (.readErrorHistory src arg))

/-- READ_RETIREMENT_LIST: mailbox command 3. -/
def execReadRetirementList (src : Src) (arg : BitVec 16) (s : State) : Ans :=
  .next (s.command src .MBOX_CMD (mboxWordOf 3 arg) (.readRetirementList src arg))

/-- ADD_RETIREMENT_ENTRY: mailbox command 4 (R498). -/
def execAddRetirementEntry (src : Src) (arg : BitVec 16) (s : State) : Ans :=
  .next (s.command src .MBOX_CMD (mboxWordOf 4 arg) (.addRetirementEntry src arg))

/-- ATTEST_REPORT: ATT_CTRL with OP 0 and GO (R514, R515). -/
def execAttestReport (src : Src) (addr : BitVec 48) (s : State) : Ans :=
  .next (s.command src .ATT_CTRL (addr.setWidth 64 ||| 1#64 <<< 56) (.attestReport src addr))

/-- MR_EXTEND: ATT_CTRL with OP 1 and GO (R512, R514). -/
def execMrExtend (src : Src) (mr : BitVec 4) (addr : BitVec 48) (s : State) : Ans :=
  .next (s.command src .ATT_CTRL (addr.setWidth 64 ||| 1#64 <<< 48 ||| mr.setWidth 64 <<< 50 ||| 1#64 <<< 56) (.mrExtend src mr addr))

/-- FW_UPDATE: FW_CTRL with SRC and GO (R516). `sigOk` says whether the staged image's signature holds. -/
def execFwUpdate (src : Src) (addr : BitVec 48) (sigOk : Bool) (s : State) : Ans :=
  .next (s.accessWrite src RegId.FW_CTRL.addr (.fwUpdate src addr sigOk) (fun s => s.writeReg src .FW_CTRL (addr.setWidth 64 ||| 1#64 <<< 48) sigOk))

/-- FW_CTRL with its SRC and one more bit. -/
def State.fwWord (s : State) (bit : Nat) : Word := BitVec.ofNat 64 (s.rd FW_CTRL_SRC + 2 ^ bit)

/-- FW_COMMIT (R517). -/
def execFwCommit (src : Src) (s : State) : Ans :=
  .next (s.accessWrite src RegId.FW_CTRL.addr (.fwCommit src) (fun s => s.writeReg src .FW_CTRL (s.fwWord 49) false))

/-- ARB_RAISE (R517). -/
def execArbRaise (src : Src) (s : State) : Ans :=
  .next (s.accessWrite src RegId.FW_CTRL.addr (.arbRaise src) (fun s => s.writeReg src .FW_CTRL (s.fwWord 50) false))

/-- EVENT_RING_HEAD (R505). -/
def execEventRingHead (src : Src) (head : BitVec 21) (s : State) : Ans :=
  .next (s.command src .EVRING_PTR (head.setWidth 64) (.eventRingHead src head))

/-- EVENT_RING_ENABLE (R506). -/
def execEventRingEnable (src : Src) (w : Word) (s : State) : Ans :=
  .next (s.command src .EVRING_CTL (w ||| 1#64 <<< 8) (.eventRingEnable src w))

/-- SMB_ALERT_N, the alert output of the management connector: low while any rule with LOG is tripped (R545). -/
def State.alertLow (s : State) : Bool := (List.range 128).any (fun r => s.flag (LAMP_RULE_CTL_TRIPPED r) && s.ruleActs r 4)

/-- SMBUS_BLOCK_WRITE: a write of a register of R501 (R546). A bad PEC is not acted on. -/
def execSmbusBlockWrite (addr : BitVec 48) (w : Word) (pecOk : Bool) (s : State) : Ans :=
  if pecOk then .next (s.access .smbus addr.toNat (.smbusBlockWrite addr w pecOk) (fun s => s.regWrite .smbus addr.toNat w false)) else .next s

/-- SMBUS_SET_POINTER (R546). -/
def execSmbusSetPointer (addr : BitVec 48) (pecOk : Bool) (s : State) : Ans :=
  if pecOk ∧ s.lamp.auxIn then .next { s with lamp := { s.lamp with smbusPtr := addr } } else .next s

/-- SMBUS_BLOCK_READ: the data of the address at the read pointer; of one outside R501 all ones (R546). -/
def execSmbusBlockRead (pecOk : Bool) (s : State) : Ans :=
  let a := s.lamp.smbusPtr.toNat
  if pecOk = false ∨ s.lamp.auxIn = false then .next s
  else if reaches .smbus a ∧ s.regThere a then
    let r := s.regRead a
    .next (r.1.send (.smbus r.2))
  else .next (s.send (.smbus (BitVec.allOnes 64)))

end Sys2Proof.Machine
end

