-- ==== Sys2Proof/Machine/Takeover.lean ====
section
/-! DEFINITION. Die 1 takes the lead role (R38 to R41), and the accesses that were held meanwhile complete. -/

namespace Sys2Proof.Machine

/-- The state that an answer goes on to; an answer that is no next state leaves it as it was. -/
def State.then_ (s : State) (a : Ans) : State :=
  match a with
  | .next t => t
  | _ => s

/-- An access that was held completes (R39): each is a command of the host link on module-level registers. -/
def State.serveHeld (s : State) (c : Instr) : State :=
  match c with
  | .jobSubmit src w => s.then_ (execJobSubmit src w s)
  | .resume src => s.then_ (execResume src s)
  | .jobEnd src => s.then_ (execJobEnd src s)
  | .image src => s.then_ (execImage src s)
  | .restore src => s.then_ (execRestore src s)
  | .registerRead src p => s.then_ (execRegisterRead src p s)
  | .registerWrite src p w => s.then_ (execRegisterWrite src p w s)
  | .rcRead src a => s.then_ (execRcRead src a s)
  | .teamJoin src w => s.then_ (execTeamJoin src w s)
  | .bypassClose src w => s.then_ (execBypassClose src w s)
  | .powerRequest src w => s.then_ (execPowerRequest src w s)
  | .calendarSet src w => s.then_ (execCalendarSet src w s)
  | .ruleEnable src r w => s.then_ (execRuleEnable src r w s)
  | .filterConfig src ch w => s.then_ (execFilterConfig src ch w s)
  | .readCounters src a => s.then_ (execReadCounters src a s)
  | .readErrorHistory src a => s.then_ (execReadErrorHistory src a s)
  | .readRetirementList src a => s.then_ (execReadRetirementList src a s)
  | .addRetirementEntry src a => s.then_ (execAddRetirementEntry src a s)
  | .attestReport src a => s.then_ (execAttestReport src a s)
  | .mrExtend src r a => s.then_ (execMrExtend src r a s)
  | .fwUpdate src a ok => s.then_ (execFwUpdate src a ok s)
  | .fwCommit src => s.then_ (execFwCommit src s)
  | .arbRaise src => s.then_ (execArbRaise src s)
  | .eventRingHead src h => s.then_ (execEventRingHead src h s)
  | .eventRingEnable src w => s.then_ (execEventRingEnable src w s)
  | _ => s

/-- LEAD_TAKEOVER: die 1 holds the lead role and serves the module-level registers, with EV_LEAD_TAKEOVER; the accesses held meanwhile complete in arrival order (R38,
R39, R41). Its registers are those of the standby copy since the fence. -/
def execLeadTakeover (ms : Nat) (s : State) : Ans :=
  if s.job.takeover = false ∨ s.dieUp 1 = false then .next s
  else
    let held := s.job.held
    let s := (((s.wr MODULE_LEAD_LEAD_DIE 1).wr MODULE_LEAD_DIE1_READY 0).wr MODULE_LEAD_TAKEOVER 1).wr MODULE_LEAD_TAKEOVER_MS (min ms 65535)
    let s : State := { s with job := { s.job with takeover := false, held := [] } }
    .next (held.foldl (fun s c => s.serveHeld c) (s.raise (mkEv 14 1 0xFF 17 0 [(2, min ms 65535)])))

end Sys2Proof.Machine
end

