-- ==== Sys2Proof/Machine/Packets.lean ====
section
/-! DEFINITION. Read and write packets that arrive over a link (R413, R427, R429, R438): served by this module, or sent on to the module they name. -/

namespace Sys2Proof.Machine

/-- The frame that a request of another module reads or writes a versioned region in: that of its tag, and the frame in progress where its sender is ahead (R46, R57). -/
def State.frameOf (s : State) (tag : BitVec 16) : Nat := if s.later tag then s.frameSeq else s.frameSeq - (s.tag16 - tag).toNat

/-- The address that a packet's access reaches: as written from the host and for mirror traffic, else the slot of a versioned region that its frame names (R54, R57, R465). -/
def State.packetAddr (s : State) (p : Packet) (write : Bool) : Nat :=
  if fromHost p ∨ p.cls = 1 then p.addr.toNat else s.resolve (s.frameOf p.tag) write p.addr.toNat

/-- READ_REQUEST: the bytes named go back on the link that carried the request (R413, R427). -/
def execReadRequest (d l : Nat) (p : Packet) (s : State) : Ans :=
  if s.linkHears d l = false ∨ p.len = 0 ∨ 256 < p.len then .next s
  else if s.forHere p = false then .next (s.sendOn d l 0 p [])
  else
    let a := s.packetAddr p false
    if s.reachable d a p.len then .next ((s.bankServed a p.len).putPacket d l 1 (s.responseTo p p.len) (s.bytesAt a p.len))
    else .next (s.requestFails d l p)

/-- The store of a write packet: raw from the host and for mirror traffic, else as a Dray write of this module, with its mirror copy (R384, R465). -/
def State.packetStore (s : State) (p : Packet) (a : Nat) (data : List Byte) : State :=
  if fromHost p ∨ p.cls = 1 then (s.bankServed a data.length).store0 (fromHost p) a data else ((s.bankServed a data.length).store0 false a data).mirrorWrite a data

/-- WRITE: the bytes are stored, and the write accept goes back on the link that carried the packet (R413, R427). -/
def execWrite (d l : Nat) (p : Packet) (data : List Byte) (s : State) : Ans :=
  if s.linkHears d l = false ∨ p.len = 0 ∨ 256 < p.len ∨ data.length ≠ p.len then .next s
  else if s.forHere p = false then .next (s.sendOn d l 2 p data)
  else
    let a := s.packetAddr p true
    if s.reachable d a p.len then .next ((s.packetStore p a data).putPacket d l 3 (s.responseTo p 0) [])
    else .next (s.requestFails d l p)

end Sys2Proof.Machine
end

