-- ==== Sys2Proof/Machine/Mgmt.lean ====
section
/-! DEFINITION. The management class (R127, R461, R472): what control cores read, write and order. -/

namespace Sys2Proof.Machine

/-- The register address that MG.RD and MG.WR form: sa + sext(IMM). -/
def State.mgAddr (s : State) (h : Hdr) (a : FmtA) : Nat := (s.sreg h.die h.seq a.sa + sextImm a.imm).toNat

/-- Whether the control cores of a die reach the register at an address. -/
def State.mgReaches (s : State) (d a : Nat) : Bool := s.regThere a && s.dieUp (s.regHome a) && s.routeOk d (s.regHome a)

/-- MG.RD: sd takes the register; one that nothing answers returns no data, and sd stays (R28). -/
def execMgRd (h : Hdr) (a : FmtA) (s : State) : Ans :=
  .next (s.issue h 8 (legalMgRd a) (isCtl h.seq) (fun s =>
    let x := s.mgAddr h a
    if s.mgReaches h.die x then
      let r := s.regRead x
      .done (r.1.setS h.die h.seq a.sd r.2)
    else .done (s.unmapped h.die 0xFF 16 (h.seq - 96) x 0xFFFF)))

/-- MG.WR: the register takes sb under its own access codes and latch classes. -/
def execMgWr (h : Hdr) (a : FmtA) (s : State) : Ans :=
  .next (s.issue h 8 (legalMgWr a) (isCtl h.seq) (fun s =>
    let x := s.mgAddr h a
    let w := s.sreg h.die h.seq a.sb
    if s.mgReaches h.die x then .done (s.regWrite (.firmware h.die) x w (s.sigFor x w))
    else .done (s.unmapped h.die 0xFF 16 (h.seq - 96) x 0xFFFF)))

/-- The granules, of the 256 of a repaired block, that differed: `n` of them. The event gives only their number, so which they were is a free choice (R406; DESIGN CHOICE,
log entry 124). -/
def repairedGranules (seed n : Nat) : List Nat :=
  let odd := (List.range 256).filter (fun i => (Config.freeByte (seed + i)).getLsbD 0)
  let even := (List.range 256).filter (fun i => !(Config.freeByte (seed + i)).getLsbD 0)
  (odd ++ even).take n

/-- Where the live slot of a shard lies on a die, from the entry of its table that names the shard (R382, R383). -/
def State.shardAt (s : State) (d shard : Nat) : Option Nat :=
  ((s.shards d).find? (fun e => decide (s.shardField d e 16 4 = shard))).bind (fun e =>
    (s.regions.find? (fun r => decide (r.1 = s.shardField d e 0 2))).map (fun r => r.2.slot r.2.live 0))

/-- Firmware has repaired a block of a shard (R406, EV_DIGEST_REPAIR): the granules that differed join the scrub log, or are retired if they are in it (R407). -/
def State.blockRepaired (s : State) (d shard block n : Nat) : State :=
  match s.shardAt d shard with
  | some a =>
    ((repairedGranules s.fresh n).foldl (fun s g => s.scrub d ((a + block * 0x10000) / 256 + g)) s).used 256
  | none => s

/-- MG.EVENT: the event numbered IMM[15:0] is raised by the control core with sa as its payload. A number that the catalogue does not have is a
reserved value (R102; DEDUCED, log entry 52). EV_DIGEST_REPAIR tells that a block has been repaired (R406, R407). -/
def execMgEvent (h : Hdr) (a : FmtA) (s : State) : Ans :=
  .next (s.issue h 8 (legalMgEvent a && eventListed a.imm.toNat) (isCtl h.seq) (fun s =>
    let w := s.sreg h.die h.seq a.sa
    let s := s.raise { mkEv a.imm.toNat h.die 0xFF 16 (h.seq - 96) [] with pay0 := w }
    .done (if a.imm.toNat = 150 then s.blockRepaired h.die (field w.toNat 0 32) (field w.toNat 32 16) (field w.toNat 48 16) else s)))

/-- An order of MG.FENCE (R461). -/
structure FenceOrder where
  order : Nat
  kind : Nat
  index : Nat
  die : Nat
  deriving DecidableEq, Repr

/-- The order that sa codes. -/
def fenceOrder (w : Word) : FenceOrder :=
  { order := field w.toNat 0 2, kind := field w.toNat 2 4, index := field w.toNat 16 16, die := field w.toNat 32 3 }

/-- Whether sa holds no reserved code: release does not apply to a die. -/
def fenceLegal (w : Word) : Bool :=
  decide (field w.toNat 2 4 ≤ 6) && decide (field w.toNat 6 10 = 0) && decide (field w.toNat 35 29 = 0) &&
    !(decide (field w.toNat 0 2 = 3) && decide (field w.toNat 2 4 = 6))

/-- A control core is fenced; its duties pass to the lowest-numbered one that remains, and two fenced are a fault of the die (R460, R462). -/
def State.fenceControl (s : State) (d k : Nat) : State :=
  if (s.core d (96 + k)).fenced then s
  else
    let s := s.modCore d (96 + k) (fun x => { x with fenced := true, queues := [], running := [], blocked := .none })
    let next := ((List.range 4).find? (fun j => !(s.core d (96 + j)).fenced)).getD 0xFF
    let s := s.raise (mkEv 89 d 0xFF 17 0 [(1, k), (1, next)])
    if 2 ≤ ((List.range 4).filter (fun j => (s.core d (96 + j)).fenced)).length then s.fenceFound d 89 else s

/-- A core is parked by order, with EV_CORE_PARKED; no entry stands for it, and what the event names there is a free value (R458, R461, R478; log entry 109). -/
def State.parkCore (s : State) (d c : Nat) : State :=
  if (s.core d c).parked then s
  else
    (((s.stopItem d c).modCore d c (fun x => { x with parked := true })).raise
      (mkEv 87 d c 17 0 [(1, c), (1, (Config.freeByte s.fresh).toNat)])).used 1

/-- An order on a core: fence, park, or release. -/
def State.coreOrder (s : State) (d c order : Nat) : State :=
  if s.nCores ≤ c then s
  else if order = 0 then s.fenceCore d c
  else if order = 1 then s.parkCore d c
  else if order = 3 then s.modCore d c (fun x => { x with parked := false, fenced := false })
  else s

/-- An order on a control core. -/
def State.controlOrder (s : State) (d k order : Nat) : State :=
  if 4 ≤ k then s
  else if order = 0 then s.fenceControl d k
  else if order = 1 then s.modCore d (96 + k) (fun x => { x with parked := true })
  else if order = 3 then s.modCore d (96 + k) (fun x => { x with parked := false, fenced := false })
  else s

/-- An order on a Dray channel: stop or pause as DRAY.PAUSE, reinitialise as DRAY.CANCEL, release as DRAY.RESUME. -/
def State.chanOrder (s : State) (d n order : Nat) : State :=
  if s.chanExists d n = false then s
  else if order ≤ 1 then s.pauseChan d n
  else if order = 2 then s.cancelChan d n
  else s.resumeChan d n

/-- An order on a completion queue: stop by EN 0, empty with HEAD = TAIL, release by EN 1. -/
def State.queueOrder (s : State) (d q order : Nat) : State :=
  if 64 ≤ q then s
  else if order = 0 then s.wr (DRAY_CQ_CTL_EN d q) 0
  else if order = 2 then (s.wr (DRAY_CQ_PTR_HEAD d q) (s.rd (DRAY_CQ_PTR_TAIL d q))).releaseCq d q
  else if order = 3 then (s.wr (DRAY_CQ_CTL_EN d q) 1).releaseCq d q
  else s

/-- An order on a link: down as by ENABLE 0, reinitialise as ENABLE 0 then 1, release as by ENABLE 1. -/
def State.linkOrder (s : State) (d l order : Nat) : State :=
  let off (s : State) : State := (s.wr (LINK_CFG_ENABLE d l) 0).linkOff d l
  let on (s : State) : State := (s.wr (LINK_CFG_ENABLE d l) 1).retrain d l 4
  if s.linkThere d l = false then s
  else if order = 0 then off s
  else if order = 2 then on (off s)
  else if order = 3 then on s
  else s

/-- An order on a die-to-die port: down until it retrains, or reinitialise. -/
def State.portOrder (s : State) (d p order : Nat) : State :=
  match s.portPeer d p with
  | none => s
  | some e =>
    if order = 0 then (s.modPort d p (fun x => { x with up := false })).modPort e p (fun x => { x with up := false })
    else if order = 2 then s.portReinit d p
    else s

/-- An order takes effect in the cycle it arrives (R461). One that the spec does not describe for its kind does nothing (DESIGN CHOICE, log entry 53). -/
def State.fenceOrdered (s : State) (o : FenceOrder) : State :=
  if o.kind = 0 then s.coreOrder o.die o.index o.order
  else if o.kind = 1 then s.controlOrder o.die o.index o.order
  else if o.kind = 2 then s.chanOrder o.die o.index o.order
  else if o.kind = 3 then s.queueOrder o.die o.index o.order
  else if o.kind = 4 then s.linkOrder o.die o.index o.order
  else if o.kind = 5 then s.portOrder o.die o.index o.order
  else if o.order = 0 then s.fenceFound o.die 0
  else s

/-- MG.FENCE: the order coded in sa; a reserved code faults with EV_ILLEGAL_INSTR (R461). A die that is fenced or that no route reaches takes no order. -/
def execMgFence (h : Hdr) (a : FmtA) (s : State) : Ans :=
  .next (s.issue h 8 (legalMgFence a) (isCtl h.seq) (fun s =>
    let w := s.sreg h.die h.seq a.sa
    let o := fenceOrder w
    if fenceLegal w = false then .fault 64 []
    else if s.dieUp o.die ∧ s.routeOk h.die o.die then .done (s.fenceOrdered o)
    else .done s))

/-- MG.IMAGE: as a write of JOB_CTRL.IMAGE (R472). -/
def execMgImage (h : Hdr) (a : FmtA) (s : State) : Ans :=
  .next (s.issue h 8 (legalNone a) (isCtl h.seq) (fun s =>
    if s.mgReaches h.die RegId.JOB_CTRL.addr then .done (s.pendField JOB_CTRL_IMAGE 1)
    else .done (s.unmapped h.die 0xFF 16 (h.seq - 96) RegId.JOB_CTRL.addr 0xFFFF)))

end Sys2Proof.Machine
end

