-- ==== Sys2Proof/Machine/Stream.lean ====
section
/-! DEFINITION. The start of a Dray descriptor: the checks at the head of its channel and the credit of its stream (R314, R344, R345). -/

namespace Sys2Proof.Machine

/-- Whether a channel waits for the credit of its next streamed descriptor and could start it (R344, R345). -/
def State.creditWaits (s : State) (d n : Nat) : Bool :=
  let c := s.chan d n
  c.waitCredit && c.live && !c.pausing && !c.streamBad && !s.chanWaits d n

/-- The empty semaphore of the pair that a channel is bound to, as the core's units and its sequencer leave it in the cycle (R109, R345). -/
def State.emptyLeft (s : State) (d n : Nat) : Nat :=
  let c := s.rd (DRAY_CH_SCFG_CORE d n)
  let e := s.rd (DRAY_CH_SCFG_PAIR d n) + 1
  let v := s.semLeft d c e
  match (s.core d c).blocked with
  | .semWait m k => if m = e ∧ k ≤ v ∧ s.stallReady d c then v - k else v
  | _ => v

/-- The channels before `n` that wait for a credit of the same semaphore (R345; log entry 115). -/
def State.creditsAhead (s : State) (d n : Nat) : Nat :=
  ((s.channels d).filter (fun m => decide (m < n) && s.creditWaits d m && decide (s.rd (DRAY_CH_SCFG_CORE d m) = s.rd (DRAY_CH_SCFG_CORE d n)) &&
    decide (s.rd (DRAY_CH_SCFG_PAIR d m) = s.rd (DRAY_CH_SCFG_PAIR d n)))).length

/-- The streamed descriptor at place `i` takes its credit and starts, or waits for it: takes are made after those of the core, in ascending channel number
(R345). -/
def State.takeCredit (s : State) (d n i : Nat) : State :=
  let c := s.rd (DRAY_CH_SCFG_CORE d n)
  let e := s.rd (DRAY_CH_SCFG_PAIR d n) + 1
  if s.creditsAhead d n < s.emptyLeft d n then
    let s := (s.modCore d c (fun x => x.take e 1)).modChan d n (fun x => { x with fill := x.fill + 1, waitCredit := false })
    (s.modRun d n i (fun r => { r with credit := true })).startRun d n i
  else s.modChan d n (fun x => { x with waitCredit := true })

/-- A descriptor reaches its channel head and is checked; one that passes takes its credit and its stage, and starts (R314, R318, R345). -/
def execDescriptorStart (d n : Nat) (s : State) : Ans :=
  if s.chanExists d n = false ∨ s.dieUp d = false ∨ s.chanWaits d n then .next s
  else
    match s.nextRun d n with
    | none => .next s
    | some i =>
      match (s.chan d n).q[i]? with
      | none => .next s
      | some r =>
        let x := r.desc
        match s.descFail d n x with
        | some code =>
          let s := s.modRun d n i (fun r => { r with started := true, status := some (1, code) })
          .next (((s.raiseFor d (chanEv 128 d n [(2, n), (4, r.seq), (1, code)]) r.owner).flushAll d n).settlePause d n)
        | none =>
          if x.stream = 0xFFFF then .next (s.startRun d n i)
          else if (s.chan d n).streamBad then .next s
          else .next (s.takeCredit d n i)

/-- A streamed descriptor takes its credit after waiting (R345). -/
def execStreamCreditTake (d n : Nat) (s : State) : Ans :=
  if s.creditWaits d n = false ∨ s.dieUp d = false then .next s
  else .next (s.takeCredit d n (firstIdx (s.chan d n).q (fun r => !r.started) 0))

end Sys2Proof.Machine
end

