-- ==== Sys2Proof/Machine/Dispatch.lean ====
section
/-! DEFINITION. The one match from a command to its meaning. -/

namespace Sys2Proof.Machine

/-- The effect of a command on everything but the queue: one arm for each row of the table of commands. -/
def exec (i : Instr) (s : State) : Host.Outcome State Fault Refusal :=
  match i with
  | .nop h a => Sys2Proof.Machine.execNop h a s
  | .add h a => Sys2Proof.Machine.execAdd h a s
  | .sub h a => Sys2Proof.Machine.execSub h a s
  | .mul h a => Sys2Proof.Machine.execMul h a s
  | .mulhu h a => Sys2Proof.Machine.execMulhu h a s
  | .and h a => Sys2Proof.Machine.execAnd h a s
  | .or h a => Sys2Proof.Machine.execOr h a s
  | .xor h a => Sys2Proof.Machine.execXor h a s
  | .shl h a => Sys2Proof.Machine.execShl h a s
  | .shr h a => Sys2Proof.Machine.execShr h a s
  | .sar h a => Sys2Proof.Machine.execSar h a s
  | .min h a => Sys2Proof.Machine.execMin h a s
  | .max h a => Sys2Proof.Machine.execMax h a s
  | .minu h a => Sys2Proof.Machine.execMinu h a s
  | .maxu h a => Sys2Proof.Machine.execMaxu h a s
  | .li h a => Sys2Proof.Machine.execLi h a s
  | .lih h a => Sys2Proof.Machine.execLih h a s
  | .cmpEq h a => Sys2Proof.Machine.execCmpEq h a s
  | .cmpNe h a => Sys2Proof.Machine.execCmpNe h a s
  | .cmpLt h a => Sys2Proof.Machine.execCmpLt h a s
  | .cmpLtu h a => Sys2Proof.Machine.execCmpLtu h a s
  | .cmpGe h a => Sys2Proof.Machine.execCmpGe h a s
  | .cmpGeu h a => Sys2Proof.Machine.execCmpGeu h a s
  | .pand h a => Sys2Proof.Machine.execPand h a s
  | .por h a => Sys2Proof.Machine.execPor h a s
  | .pxor h a => Sys2Proof.Machine.execPxor h a s
  | .pnot h a => Sys2Proof.Machine.execPnot h a s
  | .ld8 h m => Sys2Proof.Machine.execLd8 h m s
  | .ld16 h m => Sys2Proof.Machine.execLd16 h m s
  | .ld32 h m => Sys2Proof.Machine.execLd32 h m s
  | .ld64 h m => Sys2Proof.Machine.execLd64 h m s
  | .st8 h m => Sys2Proof.Machine.execSt8 h m s
  | .st16 h m => Sys2Proof.Machine.execSt16 h m s
  | .st32 h m => Sys2Proof.Machine.execSt32 h m s
  | .st64 h m => Sys2Proof.Machine.execSt64 h m s
  | .br h a => Sys2Proof.Machine.execBr h a s
  | .jal h a => Sys2Proof.Machine.execJal h a s
  | .jr h a => Sys2Proof.Machine.execJr h a s
  | .endItem h a => Sys2Proof.Machine.execEnd h a s
  | .tdSet h a => Sys2Proof.Machine.execTdSet h a s
  | .tdGet h a => Sys2Proof.Machine.execTdGet h a s
  | .tdAdd h a => Sys2Proof.Machine.execTdAdd h a s
  | .srd h a => Sys2Proof.Machine.execSrd h a s
  | .swr h a => Sys2Proof.Machine.execSwr h a s
  | .semWait h y => Sys2Proof.Machine.execSemWait h y s
  | .semWaitSatisfied die seq => Sys2Proof.Machine.execSemWaitSatisfied die seq s
  | .semPost h y => Sys2Proof.Machine.execSemPost h y s
  | .semTry h y => Sys2Proof.Machine.execSemTry h y s
  | .semRead h y => Sys2Proof.Machine.execSemRead h y s
  | .semInit h y => Sys2Proof.Machine.execSemInit h y s
  | .semPair h y => Sys2Proof.Machine.execSemPair h y s
  | .semUnpair h y => Sys2Proof.Machine.execSemUnpair h y s
  | .leaseTake h y => Sys2Proof.Machine.execLeaseTake h y s
  | .leaseDone h y => Sys2Proof.Machine.execLeaseDone h y s
  | .leaseDoneAccepted die seq => Sys2Proof.Machine.execLeaseDoneAccepted die seq s
  | .tickWait h y => Sys2Proof.Machine.execTickWait h y s
  | .drayGo h x l => Sys2Proof.Machine.execDrayGo h x l s
  | .drayPause h x l => Sys2Proof.Machine.execDrayPause h x l s
  | .drayResume h x l => Sys2Proof.Machine.execDrayResume h x l s
  | .drayCancel h x l => Sys2Proof.Machine.execDrayCancel h x l s
  | .drayStat h x l => Sys2Proof.Machine.execDrayStat h x l s
  | .mma h t l => Sys2Proof.Machine.execMma h t l s
  | .mvp h t l => Sys2Proof.Machine.execMvp h t l s
  | .ewa h t l => Sys2Proof.Machine.execEwa h t l s
  | .vop h t l => Sys2Proof.Machine.execVop h t l s
  | .hand h t l => Sys2Proof.Machine.execHand h t l s
  | .hmerge h t l => Sys2Proof.Machine.execHmerge h t l s
  | .hcheck h t l => Sys2Proof.Machine.execHcheck h t l s
  | .predQuant h t l => Sys2Proof.Machine.execPredQuant h t l s
  | .predTopk h t l => Sys2Proof.Machine.execPredTopk h t l s
  | .predThresh h t l => Sys2Proof.Machine.execPredThresh h t l s
  | .predEmit h t l => Sys2Proof.Machine.execPredEmit h t l s
  | .updAdam h t l => Sys2Proof.Machine.execUpdAdam h t l s
  | .digestBlock h t l => Sys2Proof.Machine.execDigestBlock h t l s
  | .digestNode h t l => Sys2Proof.Machine.execDigestNode h t l s
  | .mgRd h a => Sys2Proof.Machine.execMgRd h a s
  | .mgWr h a => Sys2Proof.Machine.execMgWr h a s
  | .mgEvent h a => Sys2Proof.Machine.execMgEvent h a s
  | .mgFence h a => Sys2Proof.Machine.execMgFence h a s
  | .mgImage h a => Sys2Proof.Machine.execMgImage h a s
  | .instrStart die core unit par => Sys2Proof.Machine.execInstrStart die core unit par s
  | .instrComplete die core unit par => Sys2Proof.Machine.execInstrComplete die core unit par s
  | .semPostArrival src dst => Sys2Proof.Machine.execSemPostArrival src dst s
  | .workItemStart die core item => Sys2Proof.Machine.execWorkItemStart die core item s
  | .workItemComplete die core item => Sys2Proof.Machine.execWorkItemComplete die core item s
  | .itemResume die core item => Sys2Proof.Machine.execItemResume die core item s
  | .counterAtomic die core => Sys2Proof.Machine.execCounterAtomic die core s
  | .frameTick absentDies => Sys2Proof.Machine.execFrameTick absentDies s
  | .tickReport x => Sys2Proof.Machine.execTickReport x s
  | .verdict x => Sys2Proof.Machine.execVerdict x s
  | .verdictApply => Sys2Proof.Machine.execVerdictApply s
  | .restoreDone copies mirrorLives bytes ms => Sys2Proof.Machine.execRestoreDone copies mirrorLives bytes ms s
  | .ttReady src die w => Sys2Proof.Machine.execTtReady src die w s
  | .timetableValidated die => Sys2Proof.Machine.execTimetableValidated die s
  | .jobSubmit src w => Sys2Proof.Machine.execJobSubmit src w s
  | .resume src => Sys2Proof.Machine.execResume src s
  | .jobEnd src => Sys2Proof.Machine.execJobEnd src s
  | .image src => Sys2Proof.Machine.execImage src s
  | .imageDone => Sys2Proof.Machine.execImageDone s
  | .restore src => Sys2Proof.Machine.execRestore src s
  | .optArm src die normsq => Sys2Proof.Machine.execOptArm src die normsq s
  | .optClose src die => Sys2Proof.Machine.execOptClose src die s
  | .optHold src die hold => Sys2Proof.Machine.execOptHold src die hold s
  | .ledgerTake src die entry => Sys2Proof.Machine.execLedgerTake src die entry s
  | .ledgerDone src die entry => Sys2Proof.Machine.execLedgerDone src die entry s
  | .ledgerClose src die entry => Sys2Proof.Machine.execLedgerClose src die entry s
  | .leadTakeover ms => Sys2Proof.Machine.execLeadTakeover ms s
  | .commitList die frame flips => Sys2Proof.Machine.execCommitList die frame flips s
  | .digestRootReport shard level rs => Sys2Proof.Machine.execDigestRootReport shard level rs s
  | .descriptorStart die chan => Sys2Proof.Machine.execDescriptorStart die chan s
  | .streamCreditTake die chan => Sys2Proof.Machine.execStreamCreditTake die chan s
  | .tileStageGrant die chan => Sys2Proof.Machine.execTileStageGrant die chan s
  | .memTagGrant die => Sys2Proof.Machine.execMemTagGrant die s
  | .memoryRequest die req addr len write parity => Sys2Proof.Machine.execMemoryRequest die req addr len write parity s
  | .lpddrRead die req addr linkErrs bad reread mirror => Sys2Proof.Machine.execLpddrRead die req addr linkErrs bad reread mirror s
  | .drayAccessError die chan kind => Sys2Proof.Machine.execDrayAccessError die chan kind s
  | .writeAccept die to_ => Sys2Proof.Machine.execWriteAccept die to_ s
  | .readBack die chan => Sys2Proof.Machine.execReadBack die chan s
  | .cqEnable src die q w => Sys2Proof.Machine.execCqEnable src die q w s
  | .cqHead src die q head => Sys2Proof.Machine.execCqHead src die q head s
  | .readRequest die l p => Sys2Proof.Machine.execReadRequest die l p s
  | .readResponse die to_ data => Sys2Proof.Machine.execReadResponse die to_ data s
  | .write die l p data => Sys2Proof.Machine.execWrite die l p data s
  | .linkResetResponse die l p => Sys2Proof.Machine.execLinkResetResponse die l p s
  | .registerRead src p => Sys2Proof.Machine.execRegisterRead src p s
  | .registerWrite src p w => Sys2Proof.Machine.execRegisterWrite src p w s
  | .registerResponse die l p data => Sys2Proof.Machine.execRegisterResponse die l p data s
  | .rcRead src addr => Sys2Proof.Machine.execRcRead src addr s
  | .packetData die l f => Sys2Proof.Machine.execPacketData die l f s
  | .idle die l f => Sys2Proof.Machine.execIdle die l f s
  | .nak die l f expected => Sys2Proof.Machine.execNak die l f expected s
  | .creditReturn die l f n => Sys2Proof.Machine.execCreditReturn die l f n s
  | .laneSwitch die l f lane seq => Sys2Proof.Machine.execLaneSwitch die l f lane seq s
  | .waybillCounts die l f c => Sys2Proof.Machine.execWaybillCounts die l f c s
  | .timeFlit die l x => Sys2Proof.Machine.execTimeFlit die l x s
  | .timeFlitSend => Sys2Proof.Machine.execTimeFlitSend s
  | .timetableFrame die l f x => Sys2Proof.Machine.execTimetableFrame die l f x s
  | .capabilityBlock die l f => Sys2Proof.Machine.execCapabilityBlock die l f s
  | .dieFlit die port f => Sys2Proof.Machine.execDieFlit die port f s
  | .ackTimeout die l => Sys2Proof.Machine.execAckTimeout die l s
  | .linkRetrain die l cause => Sys2Proof.Machine.execLinkRetrain die l cause s
  | .linkRetrained die l ok active rtt partner => Sys2Proof.Machine.execLinkRetrained die l ok active rtt partner s
  | .linkEnable src die l w => Sys2Proof.Machine.execLinkEnable src die l w s
  | .linkDisable src die l w => Sys2Proof.Machine.execLinkDisable src die l w s
  | .linkDown die l => Sys2Proof.Machine.execLinkDown die l s
  | .laneSignalLoss die l lane => Sys2Proof.Machine.execLaneSignalLoss die l lane s
  | .sparingWindowEnd die l errs => Sys2Proof.Machine.execSparingWindowEnd die l errs s
  | .teamJoin src w => Sys2Proof.Machine.execTeamJoin src w s
  | .coachmanElection x => Sys2Proof.Machine.execCoachmanElection x s
  | .bypassClose src w => Sys2Proof.Machine.execBypassClose src w s
  | .mainPowerLow => Sys2Proof.Machine.execMainPowerLow s
  | .auxPowerUp env slot coach => Sys2Proof.Machine.execAuxPowerUp env slot coach s
  | .auxPowerLoss => Sys2Proof.Machine.execAuxPowerLoss s
  | .coldReset src env => Sys2Proof.Machine.execColdReset src env s
  | .warmReset src env => Sys2Proof.Machine.execWarmReset src env s
  | .lampSample xs => Sys2Proof.Machine.execLampSample xs s
  | .framSave secs => Sys2Proof.Machine.execFramSave secs s
  | .lampSampleBlock => Sys2Proof.Machine.execLampSampleBlock s
  | .powerRequest src w => Sys2Proof.Machine.execPowerRequest src w s
  | .calendarSet src w => Sys2Proof.Machine.execCalendarSet src w s
  | .ruleEnable src r w => Sys2Proof.Machine.execRuleEnable src r w s
  | .filterConfig src ch w => Sys2Proof.Machine.execFilterConfig src ch w s
  | .readCounters src arg => Sys2Proof.Machine.execReadCounters src arg s
  | .readErrorHistory src arg => Sys2Proof.Machine.execReadErrorHistory src arg s
  | .readRetirementList src arg => Sys2Proof.Machine.execReadRetirementList src arg s
  | .addRetirementEntry src arg => Sys2Proof.Machine.execAddRetirementEntry src arg s
  | .smbusBlockWrite addr w pecOk => Sys2Proof.Machine.execSmbusBlockWrite addr w pecOk s
  | .smbusSetPointer addr pecOk => Sys2Proof.Machine.execSmbusSetPointer addr pecOk s
  | .smbusBlockRead pecOk => Sys2Proof.Machine.execSmbusBlockRead pecOk s
  | .attestReport src addr => Sys2Proof.Machine.execAttestReport src addr s
  | .mrExtend src mr addr => Sys2Proof.Machine.execMrExtend src mr addr s
  | .fwUpdate src addr sigOk => Sys2Proof.Machine.execFwUpdate src addr sigOk s
  | .fwCommit src => Sys2Proof.Machine.execFwCommit src s
  | .arbRaise src => Sys2Proof.Machine.execArbRaise src s
  | .eventFifoRead die => Sys2Proof.Machine.execEventFifoRead die s
  | .eventRecordForward die => Sys2Proof.Machine.execEventRecordForward die s
  | .spadBlockReady die core => Sys2Proof.Machine.execSpadBlockReady die core s
  | .depotRepartDone die => Sys2Proof.Machine.execDepotRepartDone die s
  | .eventRingHead src head => Sys2Proof.Machine.execEventRingHead src head s
  | .eventRingEnable src w => Sys2Proof.Machine.execEventRingEnable src w s
  | .periodicTracking die ch retrain fail => Sys2Proof.Machine.execPeriodicTracking die ch retrain fail s
  | .powerTransitionDone env => Sys2Proof.Machine.execPowerTransitionDone env s
  | .mainStageRetry env => Sys2Proof.Machine.execMainStageRetry env s
  | .d2dPortRetrained die port ok => Sys2Proof.Machine.execD2dPortRetrained die port ok s
  | .fwUpdateDone readBackOk => Sys2Proof.Machine.execFwUpdateDone readBackOk s
  | .attestDone => Sys2Proof.Machine.execAttestDone s

end Sys2Proof.Machine
end

