-- ==== Sys2Proof/Safety.lean ====
section
/-! DEFINITION. What counts as a safe run: every command is answered with a next state, and the memories keep their one
canonical form. -/

namespace Sys2Proof.Machine

/-- The memories of a state are in canonical form: addresses strictly rising, no listed byte equal to what an unlisted address reads
as, which is 0 in the dies' memory and 0xFF in flash. -/
def State.wf (s : State) : Bool := Memory.wf 0 s.mem && Memory.wf 0xFF s.flash

/-- What no command, and no idle cycle, undoes: the queue stands, the memories keep their canonical form, the anti-rollback counter does not
fall (R517), nothing sent is taken back, no free value is used twice, and of the fuses and straps only the ring slot and the
Coachman strap are set (at auxiliary power-up, R428). -/
structure Keeps (s t : State) : Prop where
  queue : t.pending = s.pending
  mem : Memory.wf 0 s.mem = true → Memory.wf 0 t.mem = true
  flash : Memory.wf 0xFF s.flash = true → Memory.wf 0xFF t.flash = true
  arb : s.fw.arb.toNat ≤ t.fw.arb.toNat
  wire : s.wire <+: t.wire
  fresh : s.fresh ≤ t.fresh
  fuses : t.fuses = { s.fuses with slot := t.fuses.slot, coach := t.fuses.coach }

/-- An answer is a next state that keeps what no command undoes. -/
def AnsKeeps (s : State) (a : Host.Outcome State Fault Refusal) : Prop :=
  match a with
  | .next t => Keeps s t
  | _ => False

/-- A command completes in a state: it is answered with a next state. -/
def Completes (c : Instr) (s : State) : Prop := ∃ t, exec c s = .next t

/-- A step answers with a next state. -/
def StepCompletes (s : State) : Prop := ∃ t, step s = .next t

/-- A sequencer issues an instruction of `n` bytes, and the instruction executes (R88, R102): it is ready, the fetch of the words
meets no fault and no parity error, and the predicate holds. -/
structure Issues (s : State) (h : Hdr) (n : Nat) : Prop where
  ready : s.seqReady h.die h.seq = true
  fetch : (s.fetch h.die h.seq n).isSome = true
  clean : h.par = 0
  pred : (s.preg h.die h.seq h.pred ^^ h.pn) = true

/-- Nothing but a sequencer's own registers and its count of retired instructions differs between two states (R113): every other register,
every other sequencer, every byte of memory and everything else stands. -/
structure OnlySeq (d q : Nat) (s t : State) : Prop where
  rest : t = { s with cores := t.cores, regs := t.regs }
  others : ∀ k, k ≠ coreKey d q → tabGet t.cores k coreReset = tabGet s.cores k coreReset
  regs : ∀ r, r ≠ .SEQ_CTRL d q → t.word r = s.word r
  mem : ∀ a, t.byteAt a = s.byteAt a

/-- As `OnlySeq`, and of the sequencer's own state only the program counter and the scalar registers differ. -/
structure OnlyScalars (d q : Nat) (s t : State) : Prop extends OnlySeq d q s t where
  core : t.core d q = { s.core d q with pc := (t.core d q).pc, s := (t.core d q).s }

/-- As `OnlySeq`, and of the sequencer's own state only the program counter and the predicate registers differ. -/
structure OnlyPreds (d q : Nat) (s t : State) : Prop extends OnlySeq d q s t where
  core : t.core d q = { s.core d q with pc := (t.core d q).pc, p := (t.core d q).p }

/-- As `OnlySeq`, and of the sequencer's own state only the program counter and the tile descriptor registers differ. -/
structure OnlyTds (d q : Nat) (s t : State) : Prop extends OnlySeq d q s t where
  core : t.core d q = { s.core d q with pc := (t.core d q).pc, td := (t.core d q).td }

/-- As `OnlySeq`, and of the sequencer's own state only the program counter differs. -/
structure OnlyPc (d q : Nat) (s t : State) : Prop extends OnlySeq d q s t where
  core : t.core d q = { s.core d q with pc := (t.core d q).pc }

/-- As `OnlyPc`, but for memory: a store changes the program counter and bytes of memory. -/
structure OnlyStore (d q : Nat) (s t : State) : Prop where
  rest : t = { s with cores := t.cores, regs := t.regs, mem := t.mem, undef := t.undef }
  others : ∀ k, k ≠ coreKey d q → tabGet t.cores k coreReset = tabGet s.cores k coreReset
  regs : ∀ r, r ≠ .SEQ_CTRL d q → t.word r = s.word r
  core : t.core d q = { s.core d q with pc := (t.core d q).pc }

/-- The registers that raising an event may change: the error ledger, the closing of the bypass, the dies that failed, the groups abandoned on a
halted core, and those that die 1 takes from its standby copy when the lead die is fenced (R450 to R463, R37). -/
def RegId.raised : RegId → Bool
  | .LEDGER _ _ => true
  | .LEDGER_FRAME _ _ => true
  | .LEDGER_PAY0 _ _ => true
  | .LEDGER_PAY1 _ _ => true
  | .LEDGER_STATUS _ => true
  | .BYPASS => true
  | .MODULE_STATUS => true
  | .ACC_STATUS _ _ => true
  | r => r.standby

/-- What raising an event can change (R450 to R463): the registers of `RegId.raised`, with the writes to them that wait, the units that it parks or halts, their items,
the FIFO and held events of a die, the error history of the Lamp, the level of a fence that no entry holds, and the lead role; every other register, every byte of memory and
everything else stands. -/
structure Raised (s t : State) : Prop where
  rest : t = { s with
    regs := t.regs, pend := t.pend, armed := t.armed, cores := t.cores, items := t.items, chans := t.chans, dies := t.dies, job := t.job, lamp := t.lamp,
    frame := { s.frame with unentered := t.frame.unentered } }
  regs : ∀ r, r.raised = false → t.word r = s.word r
  mem : ∀ a, t.byteAt a = s.byteAt a
  job : t.job = { s.job with takeover := t.job.takeover }
  items : ∀ k, t.item k = { s.item k with st := (t.item k).st, charged := (t.item k).charged, hard := (t.item k).hard } ∧
    ((t.item k).st = (s.item k).st ∨ ((s.item k).onCore = true ∧ (t.item k).st = .stopped))

/-- What notices change, records that nothing follows from (R450, R497): the FIFO of a die, its count of dropped records, and the error history of the Lamp. -/
structure Noticed (s t : State) : Prop where
  rest : t = { s with regs := t.regs, dies := t.dies, lamp := { s.lamp with history := t.lamp.history, counters := t.lamp.counters } }
  regs : ∀ r, (∀ e, r ≠ .LEDGER_STATUS e) → t.word r = s.word r
  dies : ∀ d, t.die d = { s.die d with fifo := (t.die d).fifo, fifoWait := (t.die d).fifoWait, evCount := (t.die d).evCount }
  mem : ∀ a, t.byteAt a = s.byteAt a

/-- What a program fault does (R129, R133): SEQ_EXC takes the number, the unit and the program counter of the first fault and counts every one, the running work
item stops, and the event is raised. Memory and every register but SEQ_EXC and those that raising an event changes stand. -/
structure Faulted (d q num unit pc : Nat) (s t : State) : Prop where
  rest : t = { s with
    regs := t.regs, pend := t.pend, armed := t.armed, cores := t.cores, items := t.items, chans := t.chans, dies := t.dies, job := t.job, lamp := t.lamp
    frame := { s.frame with pause := t.frame.pause, unentered := t.frame.unentered } }
  first : s.rd (SEQ_EXC_VALID d q) = 0 → t.rd (SEQ_EXC_CAUSE d q) = num % 256 ∧ t.rd (SEQ_EXC_VALID d q) = 1 ∧
    t.rd (SEQ_EXC_UNIT d q) = unit % 16 ∧ t.rd (SEQ_EXC_PC d q) = pc % 2 ^ 20
  later : s.rd (SEQ_EXC_VALID d q) = 1 → t.rd (SEQ_EXC_CAUSE d q) = s.rd (SEQ_EXC_CAUSE d q) ∧ t.rd (SEQ_EXC_VALID d q) = 1 ∧
    t.rd (SEQ_EXC_UNIT d q) = s.rd (SEQ_EXC_UNIT d q) ∧ t.rd (SEQ_EXC_PC d q) = s.rd (SEQ_EXC_PC d q)
  counted : t.rd (SEQ_EXC_COUNT d q) = min (s.rd (SEQ_EXC_COUNT d q) + 1) 65535
  stopped : ∀ k, s.curItem d q = some k → (s.item k).onCore = true → (t.item k).st = .stopped
  regs : ∀ r, r.raised = false → r ≠ .SEQ_EXC d q → t.word r = s.word r
  mem : ∀ a, t.byteAt a = s.byteAt a

/-- What counting a bank's words changes: the counts of SPAD_BANK alone (R289). -/
structure Served (s t : State) : Prop where
  rest : t = { s with regs := t.regs }
  regs : ∀ r, (∀ e c b, r ≠ .SPAD_BANK e c b) → t.word r = s.word r
  mem : ∀ a, t.byteAt a = s.byteAt a

/-- The scalar instructions with their length in bytes, whether their fields hold no reserved value, and whether their sequencer may execute them (R102, R103,
R113). -/
def scalarTable (h : Hdr) (a : FmtA) (m : FmtM) : List (Instr × Nat × Bool × Bool) := [
  (.nop h a, 8, legalNone a, true),
  (.add h a, 8, legalAlu a, true),
  (.sub h a, 8, legalAlu a, true),
  (.mul h a, 8, legalAlu a, true),
  (.mulhu h a, 8, legalAlu a, true),
  (.and h a, 8, legalAlu a, true),
  (.or h a, 8, legalAlu a, true),
  (.xor h a, 8, legalAlu a, true),
  (.shl h a, 8, legalAlu a, true),
  (.shr h a, 8, legalAlu a, true),
  (.sar h a, 8, legalAlu a, true),
  (.min h a, 8, legalAlu a, true),
  (.max h a, 8, legalAlu a, true),
  (.minu h a, 8, legalAlu a, true),
  (.maxu h a, 8, legalAlu a, true),
  (.li h a, 8, legalLi a, true),
  (.lih h a, 8, legalLi a, true),
  (.cmpEq h a, 8, legalCmp a, true),
  (.cmpNe h a, 8, legalCmp a, true),
  (.cmpLt h a, 8, legalCmp a, true),
  (.cmpLtu h a, 8, legalCmp a, true),
  (.cmpGe h a, 8, legalCmp a, true),
  (.cmpGeu h a, 8, legalCmp a, true),
  (.pand h a, 8, legalPred2 a, true),
  (.por h a, 8, legalPred2 a, true),
  (.pxor h a, 8, legalPred2 a, true),
  (.pnot h a, 8, legalPred1 a, true),
  (.ld8 h m, 8, legalM h.seq m, true),
  (.ld16 h m, 8, legalM h.seq m, true),
  (.ld32 h m, 8, legalM h.seq m, true),
  (.ld64 h m, 8, legalM h.seq m, true),
  (.st8 h m, 8, legalM h.seq m, true),
  (.st16 h m, 8, legalM h.seq m, true),
  (.st32 h m, 8, legalM h.seq m, true),
  (.st64 h m, 8, legalM h.seq m, true),
  (.br h a, 8, legalBr a, true),
  (.jal h a, 8, legalLi a, true),
  (.jr h a, 8, legalJr a, true),
  (.endItem h a, 8, legalNone a && !isCtl h.seq, true),
  (.tdSet h a, 8, legalTdSet a && !isCtl h.seq, true),
  (.tdGet h a, 8, legalTdGet a && !isCtl h.seq, true),
  (.tdAdd h a, 8, legalTdAdd a && !isCtl h.seq, true),
  (.srd h a, 8, legalSrd a, true),
  (.swr h a, 8, legalSwr a, true)]

/-- The sync instructions (R116). -/
def syncTable (h : Hdr) (y : FmtY) : List (Instr × Nat × Bool × Bool) := [
  (.semWait h y, 8, legalY h.seq 0 true true false false y, true),
  (.semPost h y, 8, legalY h.seq 0 true true false true y, true),
  (.semTry h y, 8, legalY h.seq 7 true true false false y, true),
  (.semRead h y, 8, legalY h.seq 31 true false false false y, true),
  (.semInit h y, 8, legalY h.seq 0 true true false false y, true),
  (.semPair h y, 8, legalY h.seq 0 true true false false y, true),
  (.semUnpair h y, 8, legalY h.seq 0 true false false false y, true),
  (.leaseTake h y, 8, legalY h.seq 31 false true false false y && !isCtl h.seq, true),
  (.leaseDone h y, 8, legalY h.seq 7 false false true false y && !isCtl h.seq, true),
  (.tickWait h y, 8, legalY h.seq 31 false false false false y, true)]

/-- The transfer instructions (R106, R124). -/
def transferTable (h : Hdr) (x : FmtX) (l : Lists) : List (Instr × Nat × Bool × Bool) := [
  (.drayGo h x l, 24, legalX h.seq true true x && legalLists h.seq l, true),
  (.drayPause h x l, 24, legalX h.seq false false x && legalLists h.seq l, true),
  (.drayResume h x l, 24, legalX h.seq false false x && legalLists h.seq l, true),
  (.drayCancel h x l, 24, legalX h.seq false false x && legalLists h.seq l, true),
  (.drayStat h x l, 24, legalX h.seq true false x && legalLists h.seq l, true)]

/-- Of a tensor instruction: ARR and GRP are 0 where it does not use them, its lists hold no reserved value, and a core issues it (R93, R104, R105). -/
def tensorRest (h : Hdr) (arr grp : Bool) (t : FmtT) (l : Lists) : Bool :=
  (arr || decide (t.arr = 0)) && (grp || decide (t.grp = 0)) && !isCtl h.seq && legalLists h.seq l

/-- The tensor instructions (R105, R125). -/
def tensorTable (h : Hdr) (t : FmtT) (l : Lists) : List (Instr × Nat × Bool × Bool) := [
  (.mma h t l, 24, opxMma t.opx && tensorRest h true true t l, true),
  (.mvp h t l, 24, opxMvp t.opx && tensorRest h false true t l, true),
  (.ewa h t l, 24, opxEwa t.opx && tensorRest h true false t l, true),
  (.vop h t l, 24, opxVop t.opx && tensorRest h false false t l, true),
  (.hand h t l, 24, opxHand t.opx && tensorRest h false false t l, true),
  (.hmerge h t l, 24, decide (t.opx &&& 0x7FFFFC = 0) && tensorRest h false false t l, true),
  (.hcheck h t l, 24, decide (t.opx &&& 0x7FFFFC = 0) && tensorRest h false false t l, true),
  (.predQuant h t l, 24, opxPred 0 t.opx && tensorRest h false false t l, true),
  (.predTopk h t l, 24, opxPred 1 t.opx && tensorRest h false false t l, true),
  (.predThresh h t l, 24, opxPred 2 t.opx && tensorRest h false false t l, true),
  (.predEmit h t l, 24, opxPred 3 t.opx && tensorRest h false false t l, true),
  (.updAdam h t l, 24, decide (t.opx &&& 0x7FFFFC = 0) && tensorRest h false false t l, true),
  (.digestBlock h t l, 24, decide (t.opx = 0) && tensorRest h false false t l, true),
  (.digestNode h t l, 24, decide (t.opx = 1) && tensorRest h false false t l, true)]

/-- The management instructions, which control cores alone execute (R127). -/
def mgmtTable (h : Hdr) (a : FmtA) : List (Instr × Nat × Bool × Bool) := [
  (.mgRd h a, 8, legalMgRd a, isCtl h.seq),
  (.mgWr h a, 8, legalMgWr a, isCtl h.seq),
  (.mgEvent h a, 8, legalMgEvent a && eventListed a.imm.toNat, isCtl h.seq),
  (.mgFence h a, 8, legalMgFence a, isCtl h.seq),
  (.mgImage h a, 8, legalNone a, isCtl h.seq)]

/-- Every instruction of a sequencer. -/
def seqTable (h : Hdr) (a : FmtA) (m : FmtM) (y : FmtY) (x : FmtX) (t : FmtT) (l : Lists) : List (Instr × Nat × Bool × Bool) :=
  scalarTable h a m ++ syncTable h y ++ transferTable h x l ++ tensorTable h t l ++ mgmtTable h a

/-- Nothing but a sequencer, its count of retired instructions and its running work item differs between two states. -/
structure OnlySeqItem (d q : Nat) (s t : State) : Prop where
  rest : t = { s with cores := t.cores, regs := t.regs, items := t.items }
  others : ∀ k, k ≠ coreKey d q → tabGet t.cores k coreReset = tabGet s.cores k coreReset
  regs : ∀ r, r ≠ .SEQ_CTRL d q → t.word r = s.word r
  mem : ∀ a, t.byteAt a = s.byteAt a
  items : ∀ k, s.curItem d q ≠ some k → t.item k = s.item k

/-- The declared pair with full semaphore `f` of a sequencer's core (R117, R118). -/
def State.pairAt (s : State) (d q f : Nat) : Pair := tabGet (s.core d q).pairs f pairNone

/-- What a sync instruction may change beside what its own statement gives it: the sequencer's program counter, stall, semaphores, pairs, scalar and predicate registers,
its count of retired instructions, and what its running work item is known to have used (R85). -/
structure OnlySync (d q : Nat) (s t : State) : Prop extends OnlySeqItem d q s t where
  core : t.core d q = { s.core d q with
    pc := (t.core d q).pc, blocked := (t.core d q).blocked, sem := (t.core d q).sem, pairs := (t.core d q).pairs, s := (t.core d q).s, p := (t.core d q).p }
  use : ∀ k, t.item k = { s.item k with use := (t.item k).use }

/-- The semaphores and pairs of a sequencer's core do not differ between two states. -/
def SameSems (d q : Nat) (s t : State) : Prop := (t.core d q).sem = (s.core d q).sem ∧ (t.core d q).pairs = (s.core d q).pairs

/-- `k` is taken from semaphore `n`; where it is one of a pair, HELD_fe of the pair rises by `k` (R116, R118). No other semaphore and no other part of a pair changes. -/
structure Takes (d q n k : Nat) (s t : State) : Prop where
  sem : ∀ m, t.semv d q m = if m = n then s.semv d q n - k else s.semv d q m
  pairs : ∀ f, t.pairAt d q f = if (s.core d q).pairOf n = some f then { s.pairAt d q f with held := (s.pairAt d q f).held + k } else s.pairAt d q f
  declared : ∀ m, (t.core d q).pairOf m = (s.core d q).pairOf m

/-- A post of `k` toward semaphore `n` is applied: the semaphore rises by `k`; of a pair, HELD_fe falls by `k`, and INFL_fe by `infl` (R118). -/
structure Posted (d q n k infl : Nat) (s t : State) : Prop where
  sem : ∀ m, t.semv d q m = if m = n then s.semv d q n + k else s.semv d q m
  pairs : ∀ f, t.pairAt d q f = if (s.core d q).pairOf n = some f then
    { s.pairAt d q f with held := (s.pairAt d q f).held - k, infl := (s.pairAt d q f).infl - infl } else s.pairAt d q f
  declared : ∀ m, (t.core d q).pairOf m = (s.core d q).pairOf m

/-- Whether a post of `k` that reaches semaphore `n` is applied: HELD_fe of a pair covers it, and the semaphore stays at most 65,535 (R118). -/
def State.postFits (s : State) (d q n k : Nat) : Prop :=
  (∀ f, (s.core d q).pairOf n = some f → k ≤ (s.pairAt d q f).held) ∧ s.semv d q n + k ≤ 65535

/-- Nothing but two cores, a count of retired instructions, the work items and the posts in transit differs between two states. -/
structure OnlyPost (d q e p : Nat) (s t : State) : Prop where
  rest : t = { s with cores := t.cores, regs := t.regs, items := t.items, posts := t.posts }
  others : ∀ k, k ≠ coreKey d q → k ≠ coreKey e p → tabGet t.cores k coreReset = tabGet s.cores k coreReset
  regs : ∀ r, r ≠ .SEQ_CTRL d q → t.word r = s.word r
  mem : ∀ a, t.byteAt a = s.byteAt a
  items : ∀ k, t.item k = { s.item k with use := (t.item k).use }

/-- The tiles a counter has to give, in their order: its return list, then NEXT to LIMIT - 1 (R367). -/
def State.tilesLeft (s : State) (d k : Nat) : List Nat :=
  s.rlist d k ++ List.range' (s.rd (WORK_CTR_NEXT_NEXT d k)) (s.rd (WORK_CTR_NEXT_LIMIT d k) - s.rd (WORK_CTR_NEXT_NEXT d k))

/-- Nothing but a sequencer's stall, its takes at counters and its running work item's state and registers differs between two states, and no memory. -/
structure OnlyStall (d q : Nat) (s t : State) : Prop extends OnlySeqItem d q s t where
  core : t.core d q = { s.core d q with pc := (t.core d q).pc, blocked := (t.core d q).blocked, takes := (t.core d q).takes }

/-- What a dispatch may change beside the queues of its units and its stall: the program counter, the count of retired instructions, and what the running work item
is known to have used (R85). -/
structure OnlyDispatch (d q : Nat) (s t : State) : Prop extends OnlySeqItem d q s t where
  core : t.core d q = { s.core d q with pc := (t.core d q).pc, blocked := (t.core d q).blocked, queues := (t.core d q).queues }
  use : ∀ k, t.item k = { s.item k with use := (t.item k).use }

/-- An entry of a unit's queue holds an instruction with its lists, its operands and its words as they stand when it issues (R89 to R91, R104, R474). -/
structure Captures (s : State) (h : Hdr) (op : UOp) (l : Lists) (e : QEntry) : Prop where
  op : e.op = op
  item : e.item = s.curItem h.die h.seq
  pc : e.pc = (s.core h.die h.seq).pc.toNat % 2 ^ 20
  wait : e.wait = l.wait
  post : e.post = l.post
  words : ∀ a, s.fetch h.die h.seq 24 = some a → e.words = [BitVec.ofNat 64 (s.natAt a 8), BitVec.ofNat 64 (s.natAt (a + 8) 8), BitVec.ofNat 64 (s.natAt (a + 16) 8)]

/-- A tensor instruction captures its tile descriptors, its scalar register and the seed (R91, R105). -/
structure CapturesTensor (s : State) (h : Hdr) (op : UOp) (t : FmtT) (l : Lists) (e : QEntry) : Prop extends Captures s h op l e where
  fields : e.t = t
  tdd : e.tdd = s.treg h.die h.seq t.tdd.toNat
  tda : e.tda = s.treg h.die h.seq t.tda.toNat
  tdb : e.tdb = s.treg h.die h.seq t.tdb.toNat
  tdc : e.tdc = s.treg h.die h.seq t.tdc.toNat
  ss : e.ss = s.sreg h.die h.seq t.ss
  seed : e.seed = (s.core h.die h.seq).seed

/-- A transfer instruction captures its scalar register (R91, R106). -/
structure CapturesTransfer (s : State) (h : Hdr) (op : UOp) (x : FmtX) (l : Lists) (e : QEntry) : Prop extends Captures s h op l e where
  fields : e.x = x
  ss : e.ss = s.sreg h.die h.seq x.sa

/-- A dispatched instruction joins the queue of its unit and the sequencer goes on, or the sequencer stalls at it while the queue holds as many entries as it can (R90, R91). -/
def Dispatches (d q unit : Nat) (holds : QEntry → Prop) (c : Instr) (s : State) : Prop :=
  (((s.core d q).queue unit).length < unitDepth q unit → ∃ t e, exec c s = .next t ∧ holds e ∧
    (∀ k, (t.core d q).queue k = if k = unit then (s.core d q).queue unit ++ [e] else (s.core d q).queue k) ∧
    (t.core d q).pc = (s.core d q).pc + 24 ∧ (t.core d q).blocked = .none ∧ OnlyDispatch d q s t) ∧
  (unitDepth q unit ≤ ((s.core d q).queue unit).length → ∃ t e, exec c s = .next t ∧ holds e ∧ (t.core d q).blocked = .queueFull unit e ∧
    (t.core d q).queues = (s.core d q).queues ∧ (t.core d q).pc = (s.core d q).pc ∧ OnlyDispatch d q s t)

/-- A register access of a source acts (R23, R28, R38, R39, R501): a register or a word of the mailbox stands at the address; over SMBus the Lamp serves it and has its
auxiliary input; any other source enters at a die that is not fenced, reaches the die that serves the address, and is not held by a takeover of the lead. -/
structure Reached (s : State) (src : Src) (a : Nat) : Prop where
  there : s.regThere a = true
  smbus : src = .smbus → s.lamp.auxIn = true ∧ reaches .smbus a = true
  entry : src ≠ .smbus → s.dieUp (entryDie src) = true
  held : isHost src = true → s.job.takeover = true → a < modReg 0
  home : src ≠ .smbus → s.dieUp (s.regHome a) = true ∧ s.routeOk (entryDie src) (s.regHome a) = true

/-- The field of a register word that a field of its table names. -/
def RegId.ref (r : RegId) (f : FSpec) : FRef := ⟨r, f.lo, f.width⟩

/-- Whether class I of a register waits for a sample boundary of the Lamp (R479, R442). -/
def RegId.waits (r : RegId) : Bool := r.ofLamp && decide (r ≠ .BYPASS)

/-- What a field of a register reads after a write of `w` (R12, R14, R15, R75, R479): an RW field of class I takes its bits, one of class L only while its unit is idle
and the value is not refused, and one of class F not before the next tick; a W1C field loses the bits written 1; others stand. Class I of a register that the Lamp serves
waits for a sample boundary. -/
def State.fieldAfter (s : State) (r : RegId) (f : FSpec) (w : Word) : Nat :=
  let old := s.rd (r.ref f)
  let new := field w.toNat f.lo f.width
  match f.acc, f.latch with
  | .rw, .i => if r.waits then old else new
  | .rw, .l => if s.regBusy r || badL r w then old else new
  | .w1c, .i => if r.waits then old else old &&& (2 ^ f.width - 1 - new)
  | _, _ => old

/-- Whether a write of `w` would change an L-class field of a register (R15). -/
def State.changesL (s : State) (r : RegId) (w : Word) : Bool :=
  r.fields.any (fun f => decide (f.latch = .l) && decide (f.acc = .rw) && decide (field w.toNat f.lo f.width ≠ s.rd (r.ref f)))

/-- The state in which a write of `w` reaches its fields: EV_LATCH_BUSY_WRITE is raised once where it would change an L-class field that takes no write now (R15, R422). -/
def State.busyRaised (s : State) (r : RegId) (w : Word) : State :=
  if s.changesL r w && (s.regBusy r || badL r w) then s.raise (mkEv 1 (s.regHome r.addr) 0xFF 17 0 [(6, r.addr), (1, regUnit r)]) else s

/-- A write of `w` reaches the fields of a register, each under its own latch class (R12 to R16, R75, R479), and nothing else. -/
structure Latched (s : State) (src : Src) (r : RegId) (w : Word) (t : State) : Prop where
  rest : t = { s.busyRaised r w with regs := t.regs, pend := t.pend, lamp := { (s.busyRaised r w).lamp with pendingI := t.lamp.pendingI } }
  fields : r.raised = false ∨ s.busyRaised r w = s → ∀ f ∈ r.fields, t.rd (r.ref f) = s.fieldAfter r f w
  waiting : ∀ f ∈ r.fields, f.acc = .rw → f.latch = .f → field (assocGet t.pend r pendNone).mask.toNat f.lo f.width = 2 ^ f.width - 1 ∧
    field (assocGet t.pend r pendNone).val.toNat f.lo f.width = field w.toNat f.lo f.width
  others : ∀ q, q ≠ r → t.word q = (s.busyRaised r w).word q ∧ assocGet t.pend q pendNone = assocGet (s.busyRaised r w).pend q pendNone
  lamp : t.lamp.pendingI = (s.busyRaised r w).lamp.pendingI ++ (if r.waits && r.fields.any (fun f => decide (f.latch = .i)) then [(r.addr, w, resetCause src)] else [])
  pends : (∀ f ∈ r.fields, f.latch ≠ .f) → t.pend = (s.busyRaised r w).pend
  stands : (∀ f ∈ r.fields, f.latch = .f ∨ f.latch = .none) → t.regs = s.regs
  mem : ∀ a, t.byteAt a = s.byteAt a

/-- The registers whose write sets nothing going beside the fields that it changes, and that do not take commands (LEDGER_CTRL). -/
def RegId.quiet : RegId → Bool
  | .TT_CTRL _ => false
  | .JOB_SUBMIT => false
  | .DRAY_CQ_CTL _ _ => false
  | .DRAY_CQ_PTR _ _ => false
  | .LINK_CFG _ _ => false
  | .TEAM_CFG => false
  | .BYPASS => false
  | .SPAD_PWR _ _ => false
  | .LAMP_PWR => false
  | .MBOX_CMD => false
  | .ATT_CTRL => false
  | .FW_CTRL => false
  | .EVRING_CTL => false
  | .EVRING_PTR => false
  | .LEDGER_CTRL _ => false
  | _ => true

/-- What an answered mailbox command leaves (R499): CMD and ARG hold it, DONE is 1, and the data area holds `bs`. -/
structure Answered (s : State) (cmd arg : Nat) (bs : List Byte) (t : State) : Prop where
  rest : t = { s with regs := t.regs, lamp := { s.lamp with mbox := t.lamp.mbox } }
  cmd : t.rd MBOX_CMD_CMD = cmd
  arg : t.rd MBOX_CMD_ARG = arg
  done : t.rd MBOX_STATUS_DONE = 1
  err : t.rd MBOX_STATUS_ERR = s.rd MBOX_STATUS_ERR
  data : cellsRead 0 t.lamp.mbox 0 256 = bs
  regs : ∀ r, r ≠ .MBOX_CMD → r ≠ .MBOX_STATUS → t.word r = s.word r
  mem : ∀ a, t.byteAt a = s.byteAt a

/-- What a refused mailbox command leaves (R499): ERR is 1. -/
structure Refused (s : State) (t : State) : Prop where
  rest : t = { s with regs := t.regs }
  err : t.rd MBOX_STATUS_ERR = 1
  done : t.rd MBOX_STATUS_DONE = s.rd MBOX_STATUS_DONE
  regs : ∀ r, r ≠ .MBOX_CMD → r ≠ .MBOX_STATUS → t.word r = s.word r
  mem : ∀ a, t.byteAt a = s.byteAt a

/-- The count that a wait or post word gives a semaphore: counts of one semaphore add (R104, R107). -/
def slotSum (w : Word) (m : Nat) : Nat := (((slotsOf w).filter (fun x => decide (x.1 = m))).map (fun x => x.2)).sum

/-- What a unit that starts the head of its queue takes (R90, R107): the tokens of the wait list, all together, and the entry; the instruction at which the sequencer stalls
for the place joins the queue, with its registers as they stand then (R91). -/
structure Started (s : State) (d q unit : Nat) (e : QEntry) (v : State) : Prop where
  rest : v = { s with cores := v.cores, regs := v.regs }
  others : ∀ k, k ≠ coreKey d q → tabGet v.cores k coreReset = tabGet s.cores k coreReset
  regs : ∀ r, r ≠ .SEQ_CTRL d q → v.word r = s.word r
  mem : ∀ a, v.byteAt a = s.byteAt a
  core : v.core d q = { s.core d q with
    sem := (v.core d q).sem, pairs := (v.core d q).pairs, queues := (v.core d q).queues, blocked := (v.core d q).blocked, pc := (v.core d q).pc }
  sem : ∀ m, v.semv d q m = s.semv d q m - slotSum e.wait m
  free : (∀ x, (s.core d q).blocked ≠ .queueFull unit x) →
    (v.core d q).queue unit = ((s.core d q).queue unit).drop 1 ∧ (v.core d q).blocked = (s.core d q).blocked ∧ (v.core d q).pc = (s.core d q).pc
  stalled : ∀ x, (s.core d q).blocked = .queueFull unit x →
    (v.core d q).queue unit = ((s.core d q).queue unit).drop 1 ++ [s.capture d q x] ∧ (v.core d q).blocked = .none ∧ (v.core d q).pc = (s.core d q).pc + 24
  queues : ∀ k, k ≠ unit → (v.core d q).queue k = (s.core d q).queue k

/-- A data unit runs an instruction (R128, R280): what the start gives is kept until it completes, with the replays so far, and memory stands. -/
structure Runs (v : State) (d q unit : Nat) (e : QEntry) (p : Plan) (n : Nat) (u : State) : Prop where
  rest : u = { v with cores := u.cores, regs := u.regs, fresh := u.fresh }
  running : (u.core d q).running = tabSet (v.core d q).running unit { e := e, res := p.res, replays := n, start := v.frame.cycle, before := v.mem }
  group : ∀ g y, p.group = some (g, y) → tabGet (u.core d q).groups g groupReset = y
  others : ∀ k, k ≠ coreKey d q → tabGet u.cores k coreReset = tabGet v.cores k coreReset
  sem : ∀ m, u.semv d q m = v.semv d q m
  regs : ∀ r, (∀ k ∈ p.counts, k.1.reg ≠ r) → r ≠ .ACC_STATUS d q → u.word r = v.word r

/-- The bytes of a result are written in their order (R128), redirected where a granule is retired; no other byte changes. -/
structure Written (d q : Nat) (ws : List (Nat × Byte)) (v u : State) : Prop where
  last : ∀ a b o x, ws = a ++ (o, x) :: b → (∀ w ∈ b, v.place (coreAddr d q w.1) ≠ v.place (coreAddr d q o)) → u.byteAt (coreAddr d q o) = x
  frame : ∀ y, (∀ w ∈ ws, v.place (coreAddr d q w.1) ≠ v.place y) → u.byteAt y = v.byteAt y

/-- Cycles pass up to cycle `n` of the frame, where it has not come yet: the cycle count and team time rise, and of the registers only the counters of cycles in which
something waited (R308, R342, R435, R504) and those of the arbiters, which grant requests meanwhile (R349, R355). -/
structure Passes (n : Nat) (s t : State) : Prop where
  rest : t = { s with regs := t.regs, dies := t.dies, frame := { s.frame with cycle := t.frame.cycle, teamTime := t.frame.teamTime } }
  dies : ∀ d, t.die d = { s.die d with reqs := (t.die d).reqs, arbs := (t.die d).arbs }
  cycle : t.frame.cycle = max s.frame.cycle n
  time : t.frame.teamTime = s.frame.teamTime + BitVec.ofNat 64 (n - s.frame.cycle)
  regs : ∀ r, (∀ e, r ≠ .EVQ_STATUS e) → (∀ e, r ≠ .MEM_TAGS e) → (∀ e m, r ≠ .DRAY_CH_MISS e m) → (∀ e g, r ≠ .ARB_STAT e g) → t.word r = s.word r
  mem : ∀ a, t.byteAt a = s.byteAt a

/-- What sending on links changes: the links and the wire alone. -/
def Sent (s t : State) : Prop := t = { s with links := t.links, wire := t.wire }

/-- Run `i` of a channel is as `y` says; its tile stage is given up where `y` has made its last write (R318). The other runs, channels and dies stand. -/
structure StageGiven (d n i : Nat) (s v : State) (y : DRun) : Prop where
  run : (v.chan d n).q[i]? = some (if y.stage = true ∧ y.writesDone y.desc = true then { y with stage := false } else y)
  die : v.die d = if y.stage = true ∧ y.writesDone y.desc = true then { s.die d with stages := (s.die d).stages.erase n } else s.die d
  runs : ∀ j, j ≠ i → (v.chan d n).q[j]? = (s.chan d n).q[j]?
  chans : ∀ k, k ≠ chanKey d n → tabGet v.chans k chanReset = tabGet s.chans k chanReset
  dies : ∀ e, e ≠ d → v.die e = s.die e

end Sys2Proof.Machine
end

