-- ==== Sys2Proof/WellFormed.lean ====
section
/-! DEFINITION. Which operands a command can have: the ranges of the units it names (R2, R21, R88, R93, R309, R326, R411), and the function code that
tells the rows of PRED and DIGEST apart (R246, R402). A command outside them
stands for no event of the module (log entry 8). -/

namespace Sys2Proof

/-- A die number (R2). -/
def dieOk (d : Nat) : Bool := decide (d < 8)

/-- A logical core number (R2, R88). -/
def coreOk (c : Nat) : Bool := decide (c < 96)

/-- A sequencer: a logical core, or control core k as 96 + k (R93). -/
def seqOk (q : Nat) : Bool := decide (q < 100)

/-- A unit of a sequencer: arrays 0 and 1, matrix-vector path, vector unit, Harness, predictor, then its Dray channels, of which a core has four
and a control core 32 (R89, R106). -/
def unitOk (q u : Nat) : Bool := if q < 96 then decide (u < 10) else decide (6 ≤ u) && decide (u < 38)

/-- A sequencer as the source or destination of a post: die × 128 + sequencer. -/
def seqKeyOk (k : Nat) : Bool := dieOk (k / 128) && seqOk (k % 128)

/-- A Dray channel of a die (R309). -/
def chanOk (n : Nat) : Bool := decide (n < 416)

/-- A link of a die (R411). -/
def linkOk (l : Nat) : Bool := decide (l < 4)

/-- The issuer of a sequencer command. -/
def hdrOk (h : Hdr) : Bool := dieOk h.die && seqOk h.seq

/-- A flit of a link as it is received: 246 B of payload (R411). -/
def flitOk (f : Flit) : Bool := decide (f.payload.length = 246)

/-- A die flit as it is received: 250 B of payload (R423). -/
def dieFlitOk (f : DieFlit) : Bool := decide (f.payload.length = 250)

/-- A response that comes by a packet over a link, or none that does. -/
def viaOk (v : Option (Nat × Packet)) : Bool :=
  match v with
  | some (l, _) => linkOk l
  | none => true

/-- Who makes a register access. -/
def srcOk (r : Src) : Bool :=
  match r with
  | .host _ _ => true
  | .packet d l _ => dieOk d && linkOk l
  | .firmware d => dieOk d
  | .mgmt d => dieOk d
  | .smbus => true

/-- Whether a register packet is the one that its source names, where that is a packet. -/
def samePacket (r : Src) (p : Packet) : Bool :=
  match r with
  | .packet _ _ q => decide (q = p)
  | _ => true

/-- The function code of PRED (R246). -/
def funcIs (t : FmtT) (f : Nat) : Bool := decide (t.opx.toNat % 8 = f)

/-- The operands of a command are in their ranges. -/
def Instr.wf (i : Instr) : Bool :=
  match i with
  | .nop h _ => hdrOk h
  | .add h _ => hdrOk h
  | .sub h _ => hdrOk h
  | .mul h _ => hdrOk h
  | .mulhu h _ => hdrOk h
  | .and h _ => hdrOk h
  | .or h _ => hdrOk h
  | .xor h _ => hdrOk h
  | .shl h _ => hdrOk h
  | .shr h _ => hdrOk h
  | .sar h _ => hdrOk h
  | .min h _ => hdrOk h
  | .max h _ => hdrOk h
  | .minu h _ => hdrOk h
  | .maxu h _ => hdrOk h
  | .li h _ => hdrOk h
  | .lih h _ => hdrOk h
  | .cmpEq h _ => hdrOk h
  | .cmpNe h _ => hdrOk h
  | .cmpLt h _ => hdrOk h
  | .cmpLtu h _ => hdrOk h
  | .cmpGe h _ => hdrOk h
  | .cmpGeu h _ => hdrOk h
  | .pand h _ => hdrOk h
  | .por h _ => hdrOk h
  | .pxor h _ => hdrOk h
  | .pnot h _ => hdrOk h
  | .ld8 h _ => hdrOk h
  | .ld16 h _ => hdrOk h
  | .ld32 h _ => hdrOk h
  | .ld64 h _ => hdrOk h
  | .st8 h _ => hdrOk h
  | .st16 h _ => hdrOk h
  | .st32 h _ => hdrOk h
  | .st64 h _ => hdrOk h
  | .br h _ => hdrOk h
  | .jal h _ => hdrOk h
  | .jr h _ => hdrOk h
  | .endItem h _ => hdrOk h
  | .tdSet h _ => hdrOk h
  | .tdGet h _ => hdrOk h
  | .tdAdd h _ => hdrOk h
  | .srd h _ => hdrOk h
  | .swr h _ => hdrOk h
  | .semWait h _ => hdrOk h
  | .semWaitSatisfied die seq => dieOk die && seqOk seq
  | .semPost h _ => hdrOk h
  | .semTry h _ => hdrOk h
  | .semRead h _ => hdrOk h
  | .semInit h _ => hdrOk h
  | .semPair h _ => hdrOk h
  | .semUnpair h _ => hdrOk h
  | .leaseTake h _ => hdrOk h
  | .leaseDone h _ => hdrOk h
  | .leaseDoneAccepted die seq => dieOk die && seqOk seq
  | .tickWait h _ => hdrOk h
  | .drayGo h _ _ => hdrOk h
  | .drayPause h _ _ => hdrOk h
  | .drayResume h _ _ => hdrOk h
  | .drayCancel h _ _ => hdrOk h
  | .drayStat h _ _ => hdrOk h
  | .mma h _ _ => hdrOk h
  | .mvp h _ _ => hdrOk h
  | .ewa h _ _ => hdrOk h
  | .vop h _ _ => hdrOk h
  | .hand h _ _ => hdrOk h
  | .hmerge h _ _ => hdrOk h
  | .hcheck h _ _ => hdrOk h
  | .predQuant h t _ => hdrOk h && funcIs t 0
  | .predTopk h t _ => hdrOk h && funcIs t 1
  | .predThresh h t _ => hdrOk h && funcIs t 2
  | .predEmit h t _ => hdrOk h && funcIs t 3
  | .updAdam h _ _ => hdrOk h
  | .digestBlock h t _ => hdrOk h && !t.opx.getLsbD 0
  | .digestNode h t _ => hdrOk h && t.opx.getLsbD 0
  | .mgRd h _ => hdrOk h
  | .mgWr h _ => hdrOk h
  | .mgEvent h _ => hdrOk h
  | .mgFence h _ => hdrOk h
  | .mgImage h _ => hdrOk h
  | .instrStart die core unit _ => dieOk die && seqOk core && unitOk core unit
  | .instrComplete die core unit _ => dieOk die && seqOk core && unitOk core unit
  | .semPostArrival src dst => seqKeyOk src && seqKeyOk dst
  | .workItemStart die core item => dieOk die && coreOk core && decide (item < 8)
  | .workItemComplete die core item => dieOk die && coreOk core && decide (item < 8)
  | .itemResume die core item => dieOk die && coreOk core && decide (item < 8)
  | .counterAtomic die core => dieOk die && coreOk core
  | .frameTick absentDies => absentDies.all dieOk
  | .tickReport x => dieOk x.die && linkOk x.link && flitOk x.flit && decide (x.report.pos < 16)
  | .verdict x => dieOk x.die && linkOk x.link && flitOk x.flit
  | .verdictApply => true
  | .restoreDone _ _ _ _ => true
  | .ttReady src die _ => srcOk src && dieOk die
  | .timetableValidated die => dieOk die
  | .jobSubmit src _ => srcOk src
  | .resume src => srcOk src
  | .jobEnd src => srcOk src
  | .image src => srcOk src
  | .imageDone => true
  | .restore src => srcOk src
  | .optArm src die _ => srcOk src && dieOk die
  | .optClose src die => srcOk src && dieOk die
  | .optHold src die _ => srcOk src && dieOk die
  | .ledgerTake src die _ => srcOk src && dieOk die
  | .ledgerDone src die _ => srcOk src && dieOk die
  | .ledgerClose src die _ => srcOk src && dieOk die
  | .leadTakeover _ => true
  | .commitList die frame _ => dieOk die && decide (frame < 2 ^ 48)
  | .digestRootReport _ level _ => decide (level ≤ 3)
  | .descriptorStart die chan => dieOk die && chanOk chan
  | .streamCreditTake die chan => dieOk die && chanOk chan
  | .tileStageGrant die chan => dieOk die && chanOk chan
  | .memTagGrant die => dieOk die
  | .memoryRequest die req addr len _ _ => dieOk die && decide (req.index ≤ 425) && decide (1 ≤ len) && decide (addr.toNat % 256 + len ≤ 256)
  | .lpddrRead die req _ _ _ _ _ => dieOk die && decide (req ≤ 426)
  | .drayAccessError die chan kind => dieOk die && chanOk chan && decide (kind ≤ 2)
  | .writeAccept die to_ => dieOk die && chanOk to_.chan && viaOk to_.via
  | .readBack die chan => dieOk die && chanOk chan
  | .cqEnable src die q _ => srcOk src && dieOk die && decide (q < 64)
  | .cqHead src die q _ => srcOk src && dieOk die && decide (q < 64)
  | .readRequest die l _ => dieOk die && linkOk l
  | .readResponse die to_ _ => dieOk die && chanOk to_.chan && viaOk to_.via
  | .write die l _ _ => dieOk die && linkOk l
  | .linkResetResponse die l _ => dieOk die && linkOk l
  | .registerRead src p => srcOk src && samePacket src p
  | .registerWrite src p _ => srcOk src && samePacket src p
  | .registerResponse die l _ _ => dieOk die && linkOk l
  | .rcRead src _ => srcOk src
  | .packetData die l f => dieOk die && linkOk l && flitOk f
  | .idle die l f => dieOk die && linkOk l && flitOk f
  | .nak die l f _ => dieOk die && linkOk l && flitOk f
  | .creditReturn die l f _ => dieOk die && linkOk l && flitOk f
  | .laneSwitch die l f lane _ => dieOk die && linkOk l && flitOk f && decide (lane < 64)
  | .waybillCounts die l f _ => dieOk die && linkOk l && flitOk f
  | .timeFlit die l x => dieOk die && linkOk l && flitOk x.flit
  | .timeFlitSend => true
  | .timetableFrame die l f x => dieOk die && linkOk l && (x.own || flitOk f)
  | .capabilityBlock die l f => dieOk die && linkOk l && flitOk f
  | .dieFlit die port f => dieOk die && decide (port < 3) && dieFlitOk f
  | .ackTimeout die l => dieOk die && linkOk l
  | .linkRetrain die l cause => dieOk die && linkOk l && decide (1 ≤ cause) && decide (cause ≤ 4)
  | .linkRetrained die l _ _ _ _ => dieOk die && linkOk l
  | .linkEnable src die l _ => srcOk src && dieOk die && linkOk l
  | .linkDisable src die l _ => srcOk src && dieOk die && linkOk l
  | .linkDown die l => dieOk die && linkOk l
  | .laneSignalLoss die l lane => dieOk die && linkOk l && decide (lane < 64)
  | .sparingWindowEnd die l _ => dieOk die && linkOk l
  | .teamJoin src _ => srcOk src
  | .coachmanElection _ => true
  | .bypassClose src _ => srcOk src
  | .mainPowerLow => true
  | .auxPowerUp _ _ _ => true
  | .auxPowerLoss => true
  | .coldReset src _ => srcOk src
  | .warmReset src _ => srcOk src
  | .lampSample xs => xs.all (fun x => decide (x.ch < 64))
  | .framSave _ => true
  | .lampSampleBlock => true
  | .powerRequest src _ => srcOk src
  | .calendarSet src _ => srcOk src
  | .ruleEnable src r _ => srcOk src && decide (r < 128)
  | .filterConfig src ch _ => srcOk src && decide (ch < 64)
  | .readCounters src _ => srcOk src
  | .readErrorHistory src _ => srcOk src
  | .readRetirementList src _ => srcOk src
  | .addRetirementEntry src _ => srcOk src
  | .smbusBlockWrite _ _ _ => true
  | .smbusSetPointer _ _ => true
  | .smbusBlockRead _ => true
  | .attestReport src _ => srcOk src
  | .mrExtend src _ _ => srcOk src
  | .fwUpdate src _ _ => srcOk src
  | .fwCommit src => srcOk src
  | .arbRaise src => srcOk src
  | .eventFifoRead die => dieOk die
  | .eventRecordForward die => dieOk die
  | .spadBlockReady die core => dieOk die && coreOk core
  | .depotRepartDone die => dieOk die
  | .eventRingHead src _ => srcOk src
  | .eventRingEnable src _ => srcOk src
  | .periodicTracking die ch _ _ => dieOk die && decide (ch < 16)
  | .powerTransitionDone _ => true
  | .mainStageRetry _ => true
  | .d2dPortRetrained die port _ => dieOk die && decide (port < 3)
  | .fwUpdateDone _ => true
  | .attestDone => true

end Sys2Proof
end

