-- ==== Sys2Proof/Certificates/Slice0/Obligations.lean ====
section
/-! DEFINITION. The statements for the provers. -/

open Sys2Proof Sys2Proof.Machine

/-- R113, Format A: each scalar arithmetic instruction writes its result, of sa and the second operand b, to sd, wrapping at 64 bits; s0 takes no write;
the program counter moves past the instruction, and nothing else changes. -/
def Obligations.AluInstructionsWriteTheirResult : Prop :=
  ∀ (s : State) (h : Hdr) (a : FmtA), Issues s h 8 → legalAlu a = true →
    let x := s.sreg h.die h.seq a.sa
    let y := s.operandB h.die h.seq a
    ∀ e ∈ [(Instr.add h a, x + y), (.sub h a, x - y), (.mul h a, x * y), (.mulhu h a, BitVec.ofNat 64 (x.toNat * y.toNat / 2 ^ 64)),
        (.and h a, x &&& y), (.or h a, x ||| y), (.xor h a, x ^^^ y), (.shl h a, x <<< (y.toNat % 64)), (.shr h a, x >>> (y.toNat % 64)),
        (.sar h a, x.sshiftRight (y.toNat % 64)), (.min h a, if x.toInt ≤ y.toInt then x else y), (.max h a, if x.toInt ≤ y.toInt then y else x),
        (.minu h a, if x.toNat ≤ y.toNat then x else y), (.maxu h a, if x.toNat ≤ y.toNat then y else x)],
      ∃ t, exec e.1 s = .next t ∧
        (∀ r, t.sreg h.die h.seq r = if r = a.sd ∧ r ≠ 0 then e.2 else s.sreg h.die h.seq r) ∧
        (t.core h.die h.seq).pc = (s.core h.die h.seq).pc + 8 ∧ OnlyScalars h.die h.seq s t

/-- R113: Each compare sets the predicate that SD names to its condition on sa and the second operand b, signed or unsigned as its mnemonic says; p0 takes
no write (R92), the program counter moves past the instruction, and nothing else changes. PAND, POR and PXOR combine the two predicates that SA and SB
name, PNOT negates the one that SA names; pd takes the result, p0 takes no write (R92), the program counter moves past the instruction, and nothing
else changes. -/
def Obligations.ComparesAndPredicateLogicSetTheirPredicate : Prop :=
  (∀ (s : State) (h : Hdr) (a : FmtA), Issues s h 8 → legalCmp a = true →
     let x := s.sreg h.die h.seq a.sa
     let y := s.operandB h.die h.seq a
     ∀ e ∈ [(Instr.cmpEq h a, decide (x = y)), (.cmpNe h a, decide (x ≠ y)), (.cmpLt h a, decide (x.toInt < y.toInt)),
         (.cmpLtu h a, decide (x.toNat < y.toNat)), (.cmpGe h a, decide (y.toInt ≤ x.toInt)), (.cmpGeu h a, decide (y.toNat ≤ x.toNat))],
       ∃ t, exec e.1 s = .next t ∧
         (∀ r : BitVec 3, t.preg h.die h.seq r = if r.toNat = a.sd.toNat ∧ r ≠ 0 then e.2 else s.preg h.die h.seq r) ∧
         (t.core h.die h.seq).pc = (s.core h.die h.seq).pc + 8 ∧ OnlyPreds h.die h.seq s t) ∧
  (∀ (s : State) (h : Hdr) (a : FmtA), Issues s h 8 →
     let x := s.preg h.die h.seq (a.sa.truncate 3)
     let y := s.preg h.die h.seq (a.sb.truncate 3)
     ∀ e ∈ [(Instr.pand h a, legalPred2 a, x && y), (.por h a, legalPred2 a, x || y), (.pxor h a, legalPred2 a, x != y), (.pnot h a, legalPred1 a, !x)],
       e.2.1 = true → ∃ t, exec e.1 s = .next t ∧
         (∀ r : BitVec 3, t.preg h.die h.seq r = if r.toNat = a.sd.toNat ∧ r ≠ 0 then e.2.2 else s.preg h.die h.seq r) ∧
         (t.core h.die h.seq).pc = (s.core h.die h.seq).pc + 8 ∧ OnlyPreds h.die h.seq s t)

/-- R113, R97: LI loads the sign-extended immediate, LIH replaces the high half of sd, TD.GET reads a half of a tile descriptor register, and SRD reads a
special value (the frame sequence number at index 1, the frame cycle at 2, the frame length at 3, RUNLEN at 8 and SEED at 9 among them); each writes
sd and nothing else but the program counter. -/
def Obligations.RegisterLoadsWriteSd : Prop :=
  ∀ (s : State) (h : Hdr) (a : FmtA), Issues s h 8 →
    let t0 := s.treg h.die h.seq a.sa.toNat
    (∀ e ∈ [(Instr.li h a, legalLi a, a.imm.signExtend 64), (.lih h a, legalLi a, a.imm ++ (s.sreg h.die h.seq a.sd).extractLsb' 0 32),
        (.tdGet h a, legalTdGet a && !isCtl h.seq, if a.imm = 1 then t0.extractLsb' 64 64 else t0.extractLsb' 0 64),
        (.srd h a, legalSrd a, s.special h.die h.seq a.imm.toNat)],
      e.2.1 = true → ∃ t, exec e.1 s = .next t ∧
        (∀ r, t.sreg h.die h.seq r = if r = a.sd ∧ r ≠ 0 then e.2.2 else s.sreg h.die h.seq r) ∧
        (t.core h.die h.seq).pc = (s.core h.die h.seq).pc + 8 ∧ OnlyScalars h.die h.seq s t) ∧
    s.special h.die h.seq 1 = BitVec.ofNat 64 (s.rd FRAME_STATUS_SEQ) ∧ s.special h.die h.seq 2 = BitVec.ofNat 64 s.frame.cycle ∧
    s.special h.die h.seq 3 = BitVec.ofNat 64 (s.rd FRAME_CFG_LEN * 1024) ∧ s.special h.die h.seq 8 = (s.core h.die h.seq).runlen ∧
    s.special h.die h.seq 9 = (s.core h.die h.seq).seed

/-- R113, R97: TD.SET writes sb and sa to the halves of a tile descriptor register, and TD.ADD adds sa and the immediate to its BASE, bits [19:0], alone;
the program counter moves past the instruction, and nothing else changes. SWR writes RUNLEN at index 8 and SEED at index 9; a write to one of the
read-only indices 0 to 5 is discarded. Nothing else but the program counter changes. -/
def Obligations.DescriptorsAndSpecialValuesAreWrittenAlone : Prop :=
  (∀ (s : State) (h : Hdr) (a : FmtA), Issues s h 8 → isCtl h.seq = false →
     let t0 := s.treg h.die h.seq a.sd.toNat
     ∀ e ∈ [(Instr.tdSet h a, legalTdSet a, s.sreg h.die h.seq a.sb ++ s.sreg h.die h.seq a.sa),
         (.tdAdd h a, legalTdAdd a, t0.extractLsb' 20 108 ++
           BitVec.ofNat 20 (t0.toNat + (s.sreg h.die h.seq a.sa).toNat + (a.imm.signExtend 64).toNat))],
       e.2.1 = true → ∃ t, exec e.1 s = .next t ∧
         (∀ r, t.treg h.die h.seq r = if r = a.sd.toNat then e.2.2 else s.treg h.die h.seq r) ∧
         (t.core h.die h.seq).pc = (s.core h.die h.seq).pc + 8 ∧ OnlyTds h.die h.seq s t) ∧
  (∀ (s : State) (h : Hdr) (a : FmtA), Issues s h 8 → legalSwr a = true →
     let v := s.sreg h.die h.seq a.sa
     let c := s.core h.die h.seq
     ∃ t, exec (.swr h a) s = .next t ∧ OnlySeq h.die h.seq s t ∧
       t.core h.die h.seq = { c with
         pc := c.pc + 8
         runlen := if a.imm = 8 then v else c.runlen
         seed := if a.imm = 9 then v else c.seed })

/-- R113: BR jumps to pc + sext(imm), JAL to the same with pc + 8 in sd, and JR to sa + sext(imm), where the target is a multiple of 8; a target that is
not a multiple of 8 takes no effect, and the instruction faults with EV_MISALIGNED, number 66, at its own pc (R129, R133). -/
def Obligations.BranchesJumpToAlignedTargets : Prop :=
  ∀ (s : State) (h : Hdr) (a : FmtA), Issues s h 8 →
    let pc := (s.core h.die h.seq).pc
    let near := pc + a.imm.signExtend 64
    let far := s.sreg h.die h.seq a.sa + a.imm.signExtend 64
    (legalBr a = true → near.toNat % 8 = 0 → ∃ t, exec (.br h a) s = .next t ∧ (t.core h.die h.seq).pc = near ∧ OnlyPc h.die h.seq s t) ∧
    (legalLi a = true → near.toNat % 8 = 0 → ∃ t, exec (.jal h a) s = .next t ∧ (t.core h.die h.seq).pc = near ∧
      (∀ r, t.sreg h.die h.seq r = if r = a.sd ∧ r ≠ 0 then pc + 8 else s.sreg h.die h.seq r) ∧ OnlyScalars h.die h.seq s t) ∧
    (legalJr a = true → far.toNat % 8 = 0 → ∃ t, exec (.jr h a) s = .next t ∧ (t.core h.die h.seq).pc = far ∧ OnlyPc h.die h.seq s t) ∧
    (legalBr a = true → near.toNat % 8 ≠ 0 → ∃ t, exec (.br h a) s = .next t ∧ Faulted h.die h.seq 66 0 pc.toNat s t) ∧
    (legalLi a = true → near.toNat % 8 ≠ 0 → ∃ t, exec (.jal h a) s = .next t ∧ Faulted h.die h.seq 66 0 pc.toNat s t) ∧
    (legalJr a = true → far.toNat % 8 ≠ 0 → ∃ t, exec (.jr h a) s = .next t ∧ Faulted h.die h.seq 66 0 pc.toNat s t)

/-- R102: at a ready sequencer whose fetch meets no fault, a reserved value or a nonzero reserved field of any instruction faults with EV_ILLEGAL_INSTR,
number 64, whether or not its predicate is true. -/
def Obligations.IllegalFieldsFaultWhateverThePredicate : Prop :=
  ∀ (s : State) (h : Hdr) (a : FmtA) (m : FmtM) (y : FmtY) (x : FmtX) (t : FmtT) (l : Lists),
    s.seqReady h.die h.seq = true → h.par = 0 →
    ∀ e ∈ seqTable h a m y x t l, (s.fetch h.die h.seq e.2.1).isSome = true → e.2.2.1 = false →
      ∃ u, exec e.1 s = .next u ∧ Faulted h.die h.seq 64 0 (s.core h.die h.seq).pc.toNat s u

/-- R127: a management instruction on a core sequencer faults with EV_PRIV_INSTR, number 65. -/
def Obligations.ManagementOnACoreFaults : Prop :=
  ∀ (s : State) (h : Hdr) (a : FmtA), s.seqReady h.die h.seq = true → h.par = 0 → isCtl h.seq = false →
    (s.fetch h.die h.seq 8).isSome = true →
    ∀ e ∈ mgmtTable h a, e.2.2.1 = true →
      ∃ u, exec e.1 s = .next u ∧ Faulted h.die h.seq 65 0 (s.core h.die h.seq).pc.toNat s u

/-- R102, R113, R99: An instruction whose predicate is false retires as a no-operation: the program counter moves past its 8 or 24 bytes, and nothing else
changes, no dispatch, wait or post. NOP does nothing but move the program counter on; END ends the running work item in its sequencer. -/
def Obligations.NopsRetireAndEndEndsTheItem : Prop :=
  (∀ (s : State) (h : Hdr) (a : FmtA) (m : FmtM) (y : FmtY) (x : FmtX) (t : FmtT) (l : Lists),
     s.seqReady h.die h.seq = true → h.par = 0 → (s.preg h.die h.seq h.pred ^^ h.pn) = false →
     ∀ e ∈ seqTable h a m y x t l, (s.fetch h.die h.seq e.2.1).isSome = true → e.2.2.1 = true → e.2.2.2 = true →
       ∃ u, exec e.1 s = .next u ∧ (u.core h.die h.seq).pc = (s.core h.die h.seq).pc + BitVec.ofNat 64 e.2.1 ∧ OnlyPc h.die h.seq s u) ∧
  (∀ (s : State) (h : Hdr) (a : FmtA), Issues s h 8 → legalNone a = true →
     (∃ t, exec (.nop h a) s = .next t ∧ (t.core h.die h.seq).pc = (s.core h.die h.seq).pc + 8 ∧ OnlyPc h.die h.seq s t) ∧
     (isCtl h.seq = false → ∃ t, exec (.endItem h a) s = .next t ∧ (t.core h.die h.seq).pc = (s.core h.die h.seq).pc + 8 ∧
       (∀ k, s.curItem h.die h.seq = some k → t.item k = { s.item k with st := .ended }) ∧ OnlySeqItem h.die h.seq s t))

/-- R284: an access of a core through a task window resolves to BASE plus its offset where the offset is not negative, the access ends within BOUND, the
window grants the permission, and the access stays within the scratchpad, whose blocks it touches are powered (R292), or within the accumulators;
every other access resolves to nothing. -/
def Obligations.WindowsBoundEveryAccess : Prop :=
  ∀ (s : State) (d c w n : Nat) (ea : Int) (p : Perm), isCtl c = false →
    let base := s.rd (SPAD_WIN_BASE d c w)
    let granted := match p with
      | .rd => s.rd (SPAD_WIN_RD d c w) = 1
      | .wr => s.rd (SPAD_WIN_WR d c w) = 1
      | .ex => s.rd (SPAD_WIN_EX d c w) = 1
    ∀ a, s.seqResolve d c w ea n p = some a ↔
      0 ≤ ea ∧ base + ea.toNat + n ≤ s.rd (SPAD_WIN_BOUND d c w) ∧ granted ∧
        (base + ea.toNat + n ≤ 0xC0000 ∨ 0xC0000 ≤ base + ea.toNat ∧ base + ea.toNat + n ≤ 0xD0000) ∧
        (base + ea.toNat < 0xC0000 → s.spadReady d c (base + ea.toNat) n = true) ∧
        a = sramBase d + 0x40000000 + c * 0x100000 + base + ea.toNat

/-- R113: A load of 1, 2, 4 or 8 bytes at ea = sa + sext(imm) sets sd to those bytes, little-endian and zero-extended, and nothing else but the program
counter; an access that does not resolve through its window faults with EV_WINDOW_FAULT, number 67, before an ea that is not a multiple of the size
faults with EV_MISALIGNED, number 66. A store writes the low 1, 2, 4 or 8 bytes of sd, little-endian, at the address that ea resolves to; every other
byte of memory and everything else but the program counter stand; the faults are those of a load. Either counts in SERVED of the scratchpad bank that
holds the word it touches, bank (r + c) mod 32 of row r and column c (R272, R289). -/
def Obligations.LoadsAndStoresUseTheirWindow : Prop :=
  (∀ (s : State) (h : Hdr) (m : FmtM), Issues s h 8 → legalM h.seq m = true →
     let ea := (s.sreg h.die h.seq m.sa).toInt + m.imm.toInt
     let pc := (s.core h.die h.seq).pc
     ∀ e ∈ [(Instr.ld8 h m, 1), (.ld16 h m, 2), (.ld32 h m, 4), (.ld64 h m, 8)],
       (∀ a, s.seqResolve h.die h.seq m.win.toNat ea e.2 .rd = some a → ea % e.2 = 0 →
         ∃ t, exec e.1 s = .next t ∧ (∀ r, r ≠ m.sd → t.sreg h.die h.seq r = s.sreg h.die h.seq r) ∧
           (m.sd ≠ 0 → ∀ i < 8, (t.sreg h.die h.seq m.sd).extractLsb' (8 * i) 8 = if i < e.2 then s.byteAt (a + i) else 0) ∧
           (t.core h.die h.seq).pc = pc + 8 ∧ OnlyScalars h.die h.seq (s.bankServed a e.2) t) ∧
       (s.seqResolve h.die h.seq m.win.toNat ea e.2 .rd = none → ∃ t, exec e.1 s = .next t ∧ Faulted h.die h.seq 67 0 pc.toNat s t) ∧
       (∀ a, s.seqResolve h.die h.seq m.win.toNat ea e.2 .rd = some a → ea % e.2 ≠ 0 → ∃ t, exec e.1 s = .next t ∧ Faulted h.die h.seq 66 0 pc.toNat s t)) ∧
  (∀ (s : State) (h : Hdr) (m : FmtM), Issues s h 8 → legalM h.seq m = true →
     let ea := (s.sreg h.die h.seq m.sa).toInt + m.imm.toInt
     let pc := (s.core h.die h.seq).pc
     ∀ e ∈ [(Instr.st8 h m, 1), (.st16 h m, 2), (.st32 h m, 4), (.st64 h m, 8)],
       (∀ a, s.seqResolve h.die h.seq m.win.toNat ea e.2 .wr = some a → ea % e.2 = 0 →
         ∃ t, exec e.1 s = .next t ∧
           (∀ x, t.byteAt x = if a ≤ x ∧ x < a + e.2 then (s.sreg h.die h.seq m.sd).extractLsb' (8 * (x - a)) 8 else s.byteAt x) ∧
           (t.core h.die h.seq).pc = pc + 8 ∧ OnlyStore h.die h.seq (s.bankServed a e.2) t) ∧
       (s.seqResolve h.die h.seq m.win.toNat ea e.2 .wr = none → ∃ t, exec e.1 s = .next t ∧ Faulted h.die h.seq 67 0 pc.toNat s t) ∧
       (∀ a, s.seqResolve h.die h.seq m.win.toNat ea e.2 .wr = some a → ea % e.2 ≠ 0 → ∃ t, exec e.1 s = .next t ∧ Faulted h.die h.seq 66 0 pc.toNat s t)) ∧
  (∀ (s : State) (a n : Nat), Served s (s.bankServed a n) ∧
     ∀ c o, coreSpaceOf a = some (c, o) → o < 0xC0000 → 0 < n → o % 32 + n ≤ 32 → ∀ b,
       (s.bankServed a n).rd (SPAD_BANK_SERVED (dieOf a) c b) =
         if b = (o / 32 % 1024 / 32 + o / 32 % 32) % 32 then min (s.rd (SPAD_BANK_SERVED (dieOf a) c b) + 1) (2 ^ 32 - 1) else s.rd (SPAD_BANK_SERVED (dieOf a) c b))

/-- R109, R116, R118: SEM.WAIT and SEM.TRY with a count that the semaphore covers take it, and of a pair add it to HELD_fe; SEM.TRY sets pd to whether it
took. A SEM.WAIT that the semaphore does not cover stalls the sequencer at its own pc; it completes once its sequencer may go on and the semaphore
covers the count: it takes the count, and the program counter moves past it; until then nothing changes. A count of 0 faults with EV_ILLEGAL_INSTR,
number 64. The semaphore is as the units of the core leave it, which take before the sequencer: what it had where the head of no queue is ready, and
less the wait list of the first unit's ready head. -/
def Obligations.SemaphoresAreTakenOrWaitedFor : Prop :=
  (∀ (s : State) (h : Hdr) (y : FmtY), Issues s h 8 →
     let d := h.die
     let q := h.seq
     let n := y.sem.toNat
     let k := s.countY d q y
     let pc := (s.core d q).pc
     let here := (s.nameSem d q n).semLeft d q n
     (legalY q 0 true true false false y = true →
       (k = 0 → ∃ t, exec (.semWait h y) s = .next t ∧ Faulted d q 64 0 pc.toNat s t) ∧
       (0 < k → k ≤ here → ∃ t, exec (.semWait h y) s = .next t ∧ Takes d q n k s t ∧ (t.core d q).pc = pc + 8 ∧
         (t.core d q).blocked = .none ∧ (∀ r, t.sreg d q r = s.sreg d q r) ∧ (∀ r, t.preg d q r = s.preg d q r) ∧ OnlySync d q s t) ∧
       (here < k → ∃ t, exec (.semWait h y) s = .next t ∧ (t.core d q).blocked = .semWait n k ∧ (t.core d q).pc = pc ∧ SameSems d q s t ∧
         (∀ r, t.sreg d q r = s.sreg d q r) ∧ (∀ r, t.preg d q r = s.preg d q r) ∧ OnlySync d q s t)) ∧
     (legalY q 7 true true false false y = true →
       (k = 0 → ∃ t, exec (.semTry h y) s = .next t ∧ Faulted d q 64 0 pc.toNat s t) ∧
       (0 < k → ∃ t, exec (.semTry h y) s = .next t ∧ (k ≤ here → Takes d q n k s t) ∧
         (here < k → SameSems d q s t) ∧
         (∀ r : BitVec 3, t.preg d q r = if r.toNat = y.sd.toNat ∧ r ≠ 0 then decide (k ≤ here) else s.preg d q r) ∧
         (∀ r, t.sreg d q r = s.sreg d q r) ∧ (t.core d q).pc = pc + 8 ∧ (t.core d q).blocked = .none ∧ OnlySync d q s t))) ∧
  (∀ (s : State) (d q n k : Nat), (s.core d q).blocked = .semWait n k →
     (s.stallReady d q = true → k ≤ s.semLeft d q n → ∃ t, exec (.semWaitSatisfied d q) s = .next t ∧ Takes d q n k s t ∧
       (t.core d q).pc = (s.core d q).pc + 8 ∧ (t.core d q).blocked = .none ∧ (∀ r, t.sreg d q r = s.sreg d q r) ∧
       (∀ r, t.preg d q r = s.preg d q r) ∧ OnlySync d q s t) ∧
     (s.semLeft d q n < k → exec (.semWaitSatisfied d q) s = .next s)) ∧
  (∀ (s : State) (d q n : Nat), s.semLeft d q n ≤ s.semv d q n ∧
     ((∀ u e r, (s.core d q).queue u = e :: r → s.headReady d q u e = false) → s.semLeft d q n = s.semv d q n) ∧
     (∀ u e r, u < 38 → (∀ x < u, (s.core d q).queue x = []) → (s.core d q).queue u = e :: r → s.headReady d q u e = true → s.startFaults d q e = false →
       s.semLeft d q n ≤ s.semv d q n - slotSum e.wait n))

/-- R116, R119: SEM.INIT sets a semaphore that is in no pair; SEM.READ reads one into sd; SEM.UNPAIR of a pair that stands as declared, its full semaphore
0, its empty semaphore T, and HELD_fe and INFL_fe 0, releases it. SEM.INIT of a semaphore in a pair, and each of the other cases of SEM.UNPAIR, fault
with EV_SEM_PAIRED, number 71, and change nothing of the pair. -/
def Obligations.SemaphoreSetUp : Prop :=
  ∀ (s : State) (h : Hdr) (y : FmtY), Issues s h 8 →
    let d := h.die
    let q := h.seq
    let n := y.sem.toNat
    let pc := (s.core d q).pc
    let paired := fun (s : State) m => ((s.core d q).pairOf m).isSome
    (legalY q 0 true true false false y = true → paired s n = false →
      ∃ t, exec (.semInit h y) s = .next t ∧ (∀ m, t.semv d q m = if m = n then s.countY d q y else s.semv d q m) ∧ (t.core d q).pairs = (s.core d q).pairs ∧
        (t.core d q).pc = pc + 8 ∧ (t.core d q).blocked = .none ∧ (∀ r, t.sreg d q r = s.sreg d q r) ∧ (∀ r, t.preg d q r = s.preg d q r) ∧ OnlySync d q s t) ∧
    (legalY q 0 true true false false y = true → paired s n = true →
      ∃ t, exec (.semInit h y) s = .next t ∧ Faulted d q 71 0 pc.toNat s t) ∧
    (legalY q 31 true false false false y = true →
      ∃ t, exec (.semRead h y) s = .next t ∧ (∀ r, t.sreg d q r = if r = y.sd ∧ r ≠ 0 then BitVec.ofNat 64 (s.semv d q n) else s.sreg d q r) ∧ SameSems d q s t ∧
        (t.core d q).pc = pc + 8 ∧ (t.core d q).blocked = .none ∧ (∀ r, t.preg d q r = s.preg d q r) ∧ OnlySync d q s t) ∧
    (legalY q 0 true false false false y = true →
      let p := s.pairAt d q n
      let standing := n % 2 = 0 ∧ paired s n = true ∧ s.semv d q n = 0 ∧ s.semv d q (n + 1) = p.total ∧ p.held = 0 ∧ p.infl = 0
      (standing → ∃ t, exec (.semUnpair h y) s = .next t ∧ (∀ m, paired t m = (decide (m ≠ n ∧ m ≠ n + 1) && paired s m)) ∧
        (∀ f, f ≠ n → t.pairAt d q f = s.pairAt d q f) ∧ (t.core d q).sem = (s.core d q).sem ∧
        (t.core d q).pc = pc + 8 ∧ (t.core d q).blocked = .none ∧ (∀ r, t.sreg d q r = s.sreg d q r) ∧ (∀ r, t.preg d q r = s.preg d q r) ∧ OnlySync d q s t) ∧
      (¬ standing → ∃ t, exec (.semUnpair h y) s = .next t ∧ Faulted d q 71 0 pc.toNat s t))

/-- R116, R118, R120, R23, R85: SEM.POST to the own core adds the count to the semaphore, and of a pair takes it from HELD_fe, where the post fits; one
that does not is a program fault of the own core with EV_SEM_EXCESS, number 72, or EV_SEM_OVERFLOW, number 73. A remote one is sent as a packet with
the frame tag and counts in INFL_fe of the target's pair, and no semaphore changes yet; one to an absent core, or to a die that is fenced or that no
route reaches, is not sent, and is a bus error with its event, number 2. The instruction completes in each case. A count of 0 faults with
EV_ILLEGAL_INSTR. The oldest post in transit from a die to a die arrives: applied, it adds its count to its semaphore and, of a pair, leaves INFL_fe
and HELD_fe; refused by the pair rule or by the limit of 65,535, it is a program fault of the target with number 72 or 73, UNIT 0xF and PC 0; one
whose route is broken meanwhile is a bus error of its sender, and one that a reinitialisation dropped, or whose die is fenced, is discarded. -/
def Obligations.PostsAreAppliedOrSentAndArriveInOrder : Prop :=
  (∀ (s : State) (h : Hdr) (y : FmtY), Issues s h 8 → legalY h.seq 0 true true false true y = true →
     let d := h.die
     let q := h.seq
     let n := y.sem.toNat
     let k := s.countY d q y
     let pc := (s.core d q).pc
     let e := if y.scope = 1 then d else y.tdie.toNat
     let c := y.tcore.toNat
     let there := s.coreExists e c && s.dieUp e && s.routeOk d e
     (k = 0 → ∃ t, exec (.semPost h y) s = .next t ∧ Faulted d q 64 0 pc.toNat s t) ∧
     (0 < k → y.scope = 0 → s.postFits d q n k → ∃ t, exec (.semPost h y) s = .next t ∧ Posted d q n k 0 s t ∧ (t.core d q).pc = pc + 8 ∧
       (∀ r, t.sreg d q r = s.sreg d q r) ∧ (∀ r, t.preg d q r = s.preg d q r) ∧ OnlySync d q s t) ∧
     (0 < k → y.scope = 0 → ¬ s.postFits d q n k → ∃ t u, exec (.semPost h y) s = .next t ∧ (t.core d q).pc = pc + 8 ∧ OnlyPc d q u t ∧
       ((∃ f, (s.core d q).pairOf n = some f ∧ (s.pairAt d q f).held < k) → Faulted d q 72 15 0 (s.nameSem d q n) u) ∧
       ((∀ f, (s.core d q).pairOf n = some f → k ≤ (s.pairAt d q f).held) → Faulted d q 73 15 0 (s.nameSem d q n) u)) ∧
     (0 < k → y.scope ≠ 0 → there = true → ∃ t, exec (.semPost h y) s = .next t ∧
       t.posts = s.posts ++ [{ src := d, dst := e, seq := c, sem := n, count := k, sender := senderCode d q, tag := s.frameSeq % 65536, chan := none, dropped := false }] ∧
       (∀ m, t.semv e c m = s.semv e c m) ∧
       (∀ f, t.pairAt e c f = if (s.core e c).pairOf n = some f then { s.pairAt e c f with infl := (s.pairAt e c f).infl + k } else s.pairAt e c f) ∧
       (t.core d q).pc = pc + 8 ∧ OnlyPost d q e c s t) ∧
     (0 < k → y.scope ≠ 0 → there = false → ∃ t, exec (.semPost h y) s = .next t ∧ (t.core d q).pc = pc + 8 ∧
       OnlyPc d q (s.raise (seqEv 2 d q 0 [(6, coreAddr e c 0), (2, 0xFFFF)])) t)) ∧
  (∀ (s : State) (src dst : Nat) (a b : List Post) (p : Post), s.posts = a ++ p :: b → (∀ x ∈ a, ¬ (x.src = src ∧ x.dst = dst)) → p.src = src → p.dst = dst →
     ∃ u : State, u = { s with posts := a ++ b, chans := u.chans } ∧ (p.chan = none → u.chans = s.chans) ∧
       (∀ k, p.chan = some k → u.chans = (s.modChan (k / 512) (k % 512) (fun x => { x with fill := x.fill - 1 })).chans) ∧
       let goes := !p.dropped && s.dieUp dst
       let fits := s.semv dst p.seq p.sem + p.count ≤ 65535
       (goes = false → exec (.semPostArrival src dst) s = .next u) ∧
       (goes = true → s.routeOk src dst = false → exec (.semPostArrival src dst) s =
         .next (u.raise (mkEv 2 src (p.sender % 256) (if p.sender % 256 ≠ 0xFF then 0 else if p.chan.isSome then 21 else 16) 0 [(6, coreAddr dst p.seq 0), (2, 0xFFFF)]))) ∧
       (goes = true → s.routeOk src dst = true → s.postFits dst p.seq p.sem p.count → ∃ t, exec (.semPostArrival src dst) s = .next t ∧
         Posted dst p.seq p.sem p.count p.count s t ∧ (∀ k, k ≠ coreKey dst p.seq → tabGet t.cores k coreReset = tabGet s.cores k coreReset) ∧
         t = { u with cores := t.cores }) ∧
       (goes = true → s.routeOk src dst = true → (∃ f, (s.core dst p.seq).pairOf p.sem = some f ∧ (s.pairAt dst p.seq f).held < p.count) →
         ∃ t, exec (.semPostArrival src dst) s = .next t ∧ Faulted dst p.seq 72 15 0 u t) ∧
       (goes = true → s.routeOk src dst = true → (∀ f, (s.core dst p.seq).pairOf p.sem = some f → p.count ≤ (s.pairAt dst p.seq f).held) → ¬ fits →
         ∃ t, exec (.semPostArrival src dst) s = .next t ∧ Faulted dst p.seq 73 15 0 u t))

/-- R121, R372, R91, R366, R367: LEASE.TAKE of a leased item, naming its own counter, with fewer than 8 leases held, goes to the counter with RUNLEN
captured, and the sequencer stalls at its own pc; with another counter, or of an item that is not leased, it faults with EV_LEASE_UNKNOWN, number 75,
and with a full lease table with EV_LEASE_LIMIT, number 74. LEASE.DONE captures its tile and waits (R121). A counter serves a waiting LEASE.TAKE with
the first tile that it has left and does not skip: its return list, then NEXT to LIMIT - 1. Every tile before that is out of the counter, and counts
as taken, as skipped and as done. The tile enters the item's lease table and counts in HELD; sd takes it, or all ones where no tile is left; the
program counter moves past LEASE.TAKE. -/
def Obligations.LeasesAreTakenFromTheirCounter : Prop :=
  (∀ (s : State) (h : Hdr) (y : FmtY) (i : Nat), Issues s h 8 → isCtl h.seq = false → s.curItem h.die h.seq = some i →
     let d := h.die
     let q := h.seq
     let k := s.countY d q y
     let pc := (s.core d q).pc
     let x := s.item i
     (legalY q 31 false true false false y = true →
       (x.entry.leased = true → k = x.entry.counter → k < 1024 → x.leases.length < 8 → ∃ t, exec (.leaseTake h y) s = .next t ∧
         (t.core d q).blocked = .leaseTake k y.sd.toNat (s.core d q).runlen ∧ (t.core d q).takes = (s.core d q).takes ++ [{ ctr := k, item := some i, entry := x.entry, runlen := (s.core d q).runlen }] ∧
         (t.core d q).pc = pc ∧ t.item i = x ∧ OnlyStall d q s t) ∧
       (x.entry.leased = false ∨ k ≠ x.entry.counter ∨ 1024 ≤ k → ∃ t, exec (.leaseTake h y) s = .next t ∧ Faulted d q 75 0 pc.toNat s t) ∧
       (x.entry.leased = true → k = x.entry.counter → k < 1024 → 8 ≤ x.leases.length → ∃ t, exec (.leaseTake h y) s = .next t ∧ Faulted d q 74 0 pc.toNat s t)) ∧
     (legalY q 7 false false true false y = true → ∃ t, exec (.leaseDone h y) s = .next t ∧
       (t.core d q).blocked = .leaseDone (s.sreg d q y.sa).toNat y.sd.toNat ∧ (t.core d q).takes = (s.core d q).takes ∧ (t.core d q).pc = pc ∧ t.item i = x ∧
       OnlyStall d q s t)) ∧
  (∀ (s : State) (d c k i sd : Nat) (rl : Word) (e : WorkEntry), (s.core d c).takes = [{ ctr := k, item := some i, entry := e, runlen := rl }] →
     (s.core d c).blocked = .leaseTake k sd rl → s.curItem d c = some i →
     (s.item i).st = .running → (s.item i).retAll = false → s.dieUp d = true → isCtl c = false → 0 < sd → sd < 32 →
     let past := (s.tilesLeft d k).takeWhile (s.skips d k rl.toNat)
     let ahead := (s.tilesLeft d k).dropWhile (s.skips d k rl.toNat)
     ∃ t, exec (.counterAtomic d c) s = .next t ∧
       t.tilesLeft d k = ahead.tail ∧
       t.rd (WORK_CTR_TAKES_TAKES d k) = (s.rd (WORK_CTR_TAKES_TAKES d k) + past.length + ahead.head?.toList.length) % 281474976710656 ∧
       t.rd (WORK_CTR_SKIP_SKIPPED d k) = min (s.rd (WORK_CTR_SKIP_SKIPPED d k) + past.length) 4294967295 ∧
       t.rd (WORK_CTR_FRAME_DONE d k) = min (s.rd (WORK_CTR_FRAME_DONE d k) + past.length) 4294967295 ∧
       t.sreg d c (BitVec.ofNat 5 sd) = (match ahead with
         | [] => BitVec.allOnes 64
         | x :: _ => BitVec.ofNat 64 x) ∧
       (t.item i).leases = (match ahead with
         | [] => (s.item i).leases
         | x :: _ => insertAsc x (s.item i).leases) ∧
       t.rd (WORK_CTR_HELD_HELD d k) = (if ahead = [] then s.rd (WORK_CTR_HELD_HELD d k) else min (s.rd (WORK_CTR_HELD_HELD d k) + 1) 65535) ∧
       (t.core d c).takes = [] ∧ (t.core d c).blocked = .none ∧ (t.core d c).pc = (s.core d c).pc + 8 ∧
       (∀ r : BitVec 5, r.toNat ≠ sd → t.sreg d c r = s.sreg d c r) ∧ (∀ r, (t.region r).taken = ((s.region r).taken || (decide (ahead ≠ []) && e.regions.contains r))) ∧
       ∀ a, t.byteAt a = s.byteAt a)

/-- R121, R378: once every instruction that the item dispatched has completed, LEASE.DONE of a tile in the lease table is accepted: the tile leaves the
table, counts in DONE and toward each output region, and leaves HELD; a tile of an implicit range is accepted once, and counts in no work counter; pd
takes 1. A tile that returned at a tick is refused: REFUSED counts it, and pd takes 0. Any other tile faults with EV_LEASE_UNKNOWN, number 75.
(Model's choices in it: log entry 102.) -/
def Obligations.LeaseReportsAreJudged : Prop :=
  ∀ (s : State) (d c t pd i : Nat), (s.core d c).blocked = .leaseDone t pd → s.curItem d c = some i → s.stallReady d c = true → s.itemBusy d c i = false → pd < 8 →
    let x := s.item i
    let e := x.entry
    let k := e.counter
    let goes := fun (u : State) (v : Bool) => (u.core d c).pc = (s.core d c).pc + 8 ∧ (u.core d c).blocked = .none ∧
      (∀ r : BitVec 3, r.toNat = pd → r ≠ 0 → u.preg d c r = v) ∧ ∀ a, u.byteAt a = s.byteAt a
    let accepted := fun (u : State) => goes u true ∧ (u.item i).done = insertAsc t x.done ∧
      (∀ r, (u.region r).done = (s.region r).done + e.regions.count r) ∧ (∀ r, u.sreg d c r = s.sreg d c r) ∧
      (∀ r : BitVec 3, r.toNat ≠ pd → u.preg d c r = s.preg d c r) ∧ ∀ j, j ≠ i → u.item j = s.item j
    (e.leased = true → t ∈ x.leases → ∃ u, exec (.leaseDoneAccepted d c) s = .next u ∧ accepted u ∧ (u.item i).leases = x.leases.erase t ∧
      u.rd (WORK_CTR_FRAME_DONE d k) = min (s.rd (WORK_CTR_FRAME_DONE d k) + 1) 4294967295 ∧
      u.rd (WORK_CTR_HELD_HELD d k) = s.rd (WORK_CTR_HELD_HELD d k) - 1) ∧
    (e.leased = false → e.first ≤ t → t < e.first + e.count → t ∉ x.done → x.retAll = false → ∃ u, exec (.leaseDoneAccepted d c) s = .next u ∧ accepted u ∧
      ∀ r, r ≠ .SEQ_CTRL d c → u.word r = s.word r) ∧
    (e.leased = true → t ∉ x.leases → t ∈ x.returned → ∃ u, exec (.leaseDoneAccepted d c) s = .next u ∧ goes u false ∧
      u.rd (WORK_CTR_REFUSED_REFUSED d k) = (s.rd (WORK_CTR_REFUSED_REFUSED d k) + 1) % 281474976710656) ∧
    (e.leased = true → t ∉ x.leases → t ∉ x.returned → ∃ u, exec (.leaseDoneAccepted d c) s = .next u ∧
      Faulted d c 75 0 (s.core d c).pc.toNat s u)

/-- R123: TICK.WAIT of a core parks its work item, whose program counter moves on, to wait for its completion; with a lease held it faults with
EV_LEASE_LIMIT, number 74. On a control core it stalls at its own pc. -/
def Obligations.TickWaitParks : Prop :=
  ∀ (s : State) (h : Hdr) (y : FmtY), Issues s h 8 → legalY h.seq 31 false false false false y = true →
    let d := h.die
    let q := h.seq
    let pc := (s.core d q).pc
    (isCtl q = true → ∃ t, exec (.tickWait h y) s = .next t ∧ (t.core d q).blocked = .tickWait y.sd.toNat ∧ (t.core d q).pc = pc ∧ OnlyStall d q s t) ∧
    (∀ i, isCtl q = false → s.curItem d q = some i →
      ((s.item i).leases = [] → ∃ t, exec (.tickWait h y) s = .next t ∧ t.item i = { s.item i with st := .parked } ∧
        (t.core d q).blocked = .tickWait y.sd.toNat ∧ (t.core d q).pc = pc + 8 ∧ OnlyStall d q s t) ∧
      ((s.item i).leases ≠ [] → ∃ t, exec (.tickWait h y) s = .next t ∧ Faulted d q 74 0 pc.toNat s t))

/-- R89, R90, R91, R106, R124, R105, R125: A transfer instruction joins the queue of its channel, unit 6 + CH of a core and of a control core, with its
operands captured, and the program counter moves past its 24 bytes; with the queue full the sequencer stalls at it. A tensor instruction of a core
joins the queue of its unit, the array that ARR names for MMA and EWA, 2 for MVP, 3 for VOP, UPD.ADAM and DIGEST, 4 for HAND, HMERGE and HCHECK, and 5
for PRED, with its operands captured, and the program counter moves past its 24 bytes; with the queue full the sequencer stalls at it. -/
def Obligations.LongInstructionsJoinTheirQueue : Prop :=
  (∀ (s : State) (h : Hdr) (x : FmtX) (l : Lists), Issues s h 24 → legalLists h.seq l = true →
     ∀ e ∈ [(Instr.drayGo h x l, UOp.drayGo, legalX h.seq true true x), (.drayPause h x l, .drayPause, legalX h.seq false false x),
         (.drayResume h x l, .drayResume, legalX h.seq false false x), (.drayCancel h x l, .drayCancel, legalX h.seq false false x),
         (.drayStat h x l, .drayStat, legalX h.seq true false x)],
       e.2.2 = true → Dispatches h.die h.seq (6 + x.ch.toNat) (CapturesTransfer s h e.2.1 x l) e.1 s) ∧
  (∀ (s : State) (h : Hdr) (t : FmtT) (l : Lists), Issues s h 24 →
     let rest := fun arr grp => tensorRest h arr grp t l
     let zero := decide (t.opx &&& 0x7FFFFC = 0)
     ∀ e ∈ [(Instr.mma h t l, UOp.mma, t.arr.toNat, opxMma t.opx && rest true true), (.mvp h t l, .mvp, 2, opxMvp t.opx && rest false true),
         (.ewa h t l, .ewa, t.arr.toNat, opxEwa t.opx && rest true false), (.vop h t l, .vop, 3, opxVop t.opx && rest false false),
         (.hand h t l, .hand, 4, opxHand t.opx && rest false false), (.hmerge h t l, .hmerge, 4, zero && rest false false),
         (.hcheck h t l, .hcheck, 4, zero && rest false false), (.predQuant h t l, .pred, 5, opxPred 0 t.opx && rest false false),
         (.predTopk h t l, .pred, 5, opxPred 1 t.opx && rest false false), (.predThresh h t l, .pred, 5, opxPred 2 t.opx && rest false false),
         (.predEmit h t l, .pred, 5, opxPred 3 t.opx && rest false false), (.updAdam h t l, .updAdam, 3, zero && rest false false),
         (.digestBlock h t l, .digest, 3, decide (t.opx = 0) && rest false false), (.digestNode h t l, .digest, 3, decide (t.opx = 1) && rest false false)],
       e.2.2.2 = true → Dispatches h.die h.seq e.2.2.1 (CapturesTensor s h e.2.1 t l) e.1 s)

/-- R12, R13, R16, R78, R413, R427: a read of a register that is reached answers its source with the word, and clears its RC fields; every other field of
every register, and everything else, stands. A read of a word of the mailbox answers with the word, and changes nothing (R499). REGISTER_READ and
RC_READ are one read, by a packet or by its address. An access that came over a link is answered on that link by a TYPE 7 packet, with the 8 bytes of
a read or without payload for a write; nothing but the links and what they send differs by that. A packet for another module goes on. -/
def Obligations.RegisterReadsAnswerAndClear : Prop :=
  (∀ (s : State) (src : Src) (p : Packet), Reached s src p.addr.toNat → s.passesOn src p = false →
    ∃ (t : State) (v : Word), exec (.registerRead src p) s = .next (t.respond src p.addr.toNat (leBytes 8 v.toNat)) ∧
      exec (.rcRead src p.addr) s = .next (t.respond src p.addr.toNat (leBytes 8 v.toNat)) ∧
      t = { s with regs := t.regs, wire := s.wire ++ [.register src p.addr.toNat v] } ∧
      (∀ o, mboxWord p.addr.toNat = some o → v = s.mboxAt o ∧ t.regs = s.regs) ∧
      (∀ r, mboxWord p.addr.toNat = none → s.regAt p.addr.toNat = some r → v = s.regView r ∧
        (∀ f ∈ r.fields, t.rd (r.ref f) = if f.acc = .rc then 0 else s.rd (r.ref f)) ∧ (∀ q, q ≠ r → t.word q = s.word q)) ∧
      (∀ a, t.byteAt a = s.byteAt a)) ∧
  (∀ (s : State) (src : Src) (p : Packet) (d l : Nat), s.linkOf src = some (d, l) → s.forHere p = false →
    exec (.registerRead src p) s = .next (s.sendOn d l 5 p []) ∧ ∀ w, exec (.registerWrite src p w) s = .next (s.sendOn d l 6 p (leBytes 8 w.toNat))) ∧
  (∀ (s : State) (src : Src) (a : Nat) (bs : List Byte), Sent s (s.respond src a bs) ∧ (s.linkOf src = none → s.respond src a bs = s) ∧
    ∀ d l, s.linkOf src = some (d, l) → s.respond src a bs = s.putPacket d l 7 (s.answerTo src a bs.length) bs)

/-- R12 to R16, R75, R479: a write of a register that is reached, and whose write sets nothing more going, reaches each field under its own latch class;
an F-class field takes the value at the next tick, an I-class field of the Lamp at the next sample boundary. Where it would change an L-class field
while the unit is busy, that field keeps its value, and EV_LATCH_BUSY_WRITE is raised once. Nothing else differs but the answer over a link (R427). A factory rule of the Lamp takes no
write (R488). -/
def Obligations.RegisterWritesFollowTheirLatchClass : Prop :=
  ∀ (s : State) (src : Src) (p : Packet) (r : RegId) (w : Word), s.passesOn src p = false → ∀ a, a = p.addr.toNat → Reached s src a → mboxWord a = none →
    s.regAt a = some r → r.quiet = true →
    (ruleLocked r = true → exec (.registerWrite src p w) s = .next ((s.raise (mkEv 1 (s.regHome a) 0xFF 17 0 [(6, a), (1, 25)])).respond src a [])) ∧
    (ruleLocked r = false → ∃ t : State, exec (.registerWrite src p w) s = .next (t.respond src a []) ∧ Latched s src r w t)

/-- R472, R473, R476, R477: RESUME, JOB_END, IMAGE and RESTORE each write one order of JOB_CTRL, which takes effect at the next tick; MG.IMAGE writes
IMAGE. Nothing else differs but the answer over a link (R427). -/
def Obligations.JobOrdersWaitForTheTick : Prop :=
  (∀ (s : State) (src : Src) (c : Instr) (f : FRef),
    (c, f) ∈ [(.resume src, JOB_CTRL_RESUME), (.jobEnd src, JOB_CTRL_END), (.image src, JOB_CTRL_IMAGE), (.restore src, JOB_CTRL_RESTORE)] →
    Reached s src RegId.JOB_CTRL.addr → ∃ t : State, exec c s = .next (t.respond src RegId.JOB_CTRL.addr []) ∧ t = { s with pend := t.pend } ∧
      field (assocGet t.pend .JOB_CTRL pendNone).mask.toNat f.lo 1 = 1 ∧ field (assocGet t.pend .JOB_CTRL pendNone).val.toNat f.lo 1 = 1 ∧
      ∀ r, r ≠ .JOB_CTRL → assocGet t.pend r pendNone = assocGet s.pend r pendNone) ∧
  (∀ (s : State) (h : Hdr) (a : FmtA), Issues s h 8 → legalNone a = true → isCtl h.seq = true → Reached s (.firmware h.die) RegId.JOB_CTRL.addr →
    ∃ t u, exec (.image (.firmware h.die)) s = .next u ∧ exec (.mgImage h a) s = .next t ∧ OnlyPc h.die h.seq u t ∧
      (t.core h.die h.seq).pc = (s.core h.die h.seq).pc + 8)

/-- R12 to R16, R127: MG.RD puts the register word into sd and clears its RC fields, as a read by the firmware of its die; MG.WR writes sb as a write by
the firmware of its die. -/
def Obligations.ManagementAccessesAreRegisterAccesses : Prop :=
  ∀ (s : State) (h : Hdr) (a : FmtA), Issues s h 8 → isCtl h.seq = true → ∀ x, x = (s.sreg h.die h.seq a.sa + sextImm a.imm).toNat →
    Reached s (.firmware h.die) x →
    (legalMgRd a = true → ∃ t u v, exec (.rcRead (.firmware h.die) (BitVec.ofNat 48 x)) s = .next u ∧ u.wire = s.wire ++ [.register (.firmware h.die) x v] ∧
      exec (.mgRd h a) s = .next t ∧ OnlyScalars h.die h.seq { u with wire := s.wire } t ∧ (t.core h.die h.seq).pc = (s.core h.die h.seq).pc + 8 ∧
      (∀ k, t.sreg h.die h.seq k = if k = a.sd ∧ k ≠ 0 then v else s.sreg h.die h.seq k)) ∧
    (legalMgWr a = true → ∀ p, p.addr = BitVec.ofNat 48 x → ∃ t u, exec (.registerWrite (.firmware h.die) p (s.sreg h.die h.seq a.sb)) s = .next u ∧
      exec (.mgWr h a) s = .next t ∧ OnlyPc h.die h.seq u t ∧ (t.core h.die h.seq).pc = (s.core h.die h.seq).pc + 8)

/-- R60, R65, R78: TT_READY sets READY; where it was 0, VALID is cleared and validation starts. JOB_SUBMIT sets GO with its manifest address, which take
effect at the next tick, and JOB_STATUS shows a submission pending where no job was. Nothing else differs but INVALID, which the written 1 clears, and the answer
over a link (R427). -/
def Obligations.ReadyStartsValidationAndGoSubmits : Prop :=
  ∀ (s : State) (src : Src) (d : Nat) (w : Word),
    (Reached s src (RegId.TT_CTRL d).addr → ∃ t : State, exec (.ttReady src d w) s = .next (t.respond src (RegId.TT_CTRL d).addr []) ∧ t = { s with regs := t.regs, dies := t.dies } ∧
      t.rd (TT_CTRL_READY d) = 1 ∧ t.rd (TT_CTRL_VALID d) = (if s.rd (TT_CTRL_READY d) = 1 then s.rd (TT_CTRL_VALID d) else 0) ∧
      t.rd (TT_CTRL_INVALID d) = (if w.getLsbD 2 then 0 else s.rd (TT_CTRL_INVALID d)) ∧
      t.rd (TT_CTRL_FAIL_CODE d) = s.rd (TT_CTRL_FAIL_CODE d) ∧ t.rd (TT_CTRL_ACTIVE_ID d) = s.rd (TT_CTRL_ACTIVE_ID d) ∧
      (∀ e, t.die e = if e = d ∧ s.rd (TT_CTRL_READY d) ≠ 1 then { s.die e with validating := true } else s.die e) ∧
      (∀ r, r ≠ .TT_CTRL d → t.word r = s.word r) ∧ ∀ a, t.byteAt a = s.byteAt a) ∧
    (Reached s src RegId.JOB_SUBMIT.addr → ∃ t : State, exec (.jobSubmit src w) s = .next (t.respond src RegId.JOB_SUBMIT.addr []) ∧ t = { s with regs := t.regs, pend := t.pend } ∧
      field (assocGet t.pend .JOB_SUBMIT pendNone).mask.toNat 0 49 = 2 ^ 49 - 1 ∧
      field (assocGet t.pend .JOB_SUBMIT pendNone).val.toNat 0 49 = w.toNat % 2 ^ 48 + 2 ^ 48 ∧
      t.rd JOB_STATUS_STATE = (if s.rd JOB_STATUS_STATE = 0 then 1 else s.rd JOB_STATUS_STATE) ∧
      (∀ f, f.reg = .JOB_STATUS → 4 ≤ f.lo → t.rd f = s.rd f) ∧
      (∀ r, r ≠ .JOB_STATUS → t.word r = s.word r) ∧ (∀ r, r ≠ .JOB_SUBMIT → assocGet t.pend r pendNone = assocGet s.pend r pendNone) ∧ ∀ a, t.byteAt a = s.byteAt a)

/-- R329 to R331, R505, R506: CQ_ENABLE writes EN = 1 with LOG2, CQ_HEAD writes HEAD, and the records held for the queue are written once it takes
them; EVENT_RING_ENABLE and EVENT_RING_HEAD do the same for the host event ring. Where nothing is held for the queue, nothing but the register is
changed, beside the answer over a link (R427). -/
def Obligations.QueueRegistersReleaseWhatIsHeld : Prop :=
  ∀ (s : State) (src : Src),
    (∀ d q w, Reached s src (RegId.DRAY_CQ_CTL d q).addr → ∃ u, Latched s src (.DRAY_CQ_CTL d q) (w ||| 0x100) u ∧ u.rd (DRAY_CQ_CTL_EN d q) = 1 ∧
      exec (.cqEnable src d q w) s = .next ((u.releaseCq d q).respond src (RegId.DRAY_CQ_CTL d q).addr []) ∧ (q ∉ (u.die d).cqHolding → u.releaseCq d q = u)) ∧
    (∀ d q h, Reached s src (RegId.DRAY_CQ_PTR d q).addr → ∃ u, Latched s src (.DRAY_CQ_PTR d q) (h.setWidth 64) u ∧ u.rd (DRAY_CQ_PTR_HEAD d q) = h.toNat ∧
      u.rd (DRAY_CQ_PTR_TAIL d q) = s.rd (DRAY_CQ_PTR_TAIL d q) ∧ exec (.cqHead src d q h) s = .next ((u.releaseCq d q).respond src (RegId.DRAY_CQ_PTR d q).addr [])) ∧
    (∀ w, Reached s src RegId.EVRING_CTL.addr → ∃ u, Latched s src .EVRING_CTL (w ||| 0x100) u ∧ (s.busyRaised .EVRING_CTL (w ||| 0x100) = s → u.rd EVRING_CTL_EN = 1) ∧
      exec (.eventRingEnable src w) s = .next (u.ringRelease.respond src RegId.EVRING_CTL.addr []) ∧ (u.ringHold = [] → u.ringRelease = u)) ∧
    (∀ h, Reached s src RegId.EVRING_PTR.addr → ∃ u, Latched s src .EVRING_PTR (h.setWidth 64) u ∧ u.rd EVRING_PTR_HEAD = h.toNat ∧
      u.rd EVRING_PTR_TAIL = s.rd EVRING_PTR_TAIL ∧ exec (.eventRingHead src h) s = .next (u.ringRelease.respond src RegId.EVRING_PTR.addr []) ∧ (u.ringHold = [] → u.ringRelease = u))

/-- R495, R497 to R499: an idle mailbox answers command 1 with 32 lifetime counters, 2 with eight records of the error history, the newest first, 3 with
32 addresses of a die's retirement list, and 4 by adding the address of bytes 0 to 7 to the list of a die that is not full; an ARG out of range is
refused. Nothing else differs but the answer over a link (R427). (Model's choices in it: log entry 51.) -/
def Obligations.MailboxCommandsAnswer : Prop :=
  ∀ (s : State) (src : Src) (arg : BitVec 16), Reached s src RegId.MBOX_CMD.addr → s.rd MBOX_STATUS_BUSY = 0 → ∀ n, n = arg.toNat →
    (n < 2 → ∃ t : State, exec (.readCounters src arg) s = .next (t.respond src RegId.MBOX_CMD.addr []) ∧
      Answered s 1 n ((List.range 32).flatMap (fun i => leBytes 8 (tabGet s.lamp.counters (32 * n + i) 0))) t) ∧
    (2 ≤ n → ∃ t : State, exec (.readCounters src arg) s = .next (t.respond src RegId.MBOX_CMD.addr []) ∧ Refused s t) ∧
    (n < 4096 → ∃ t : State, exec (.readErrorHistory src arg) s = .next (t.respond src RegId.MBOX_CMD.addr []) ∧
      Answered s 2 n (padTo 256 (((s.lamp.history.reverse.drop n).take 8).flatten.take 256)) t) ∧
    (4096 ≤ n → ∃ t : State, exec (.readErrorHistory src arg) s = .next (t.respond src RegId.MBOX_CMD.addr []) ∧ Refused s t) ∧
    (n / 256 < s.fuses.dies → n % 256 < 8 → ∃ t : State, exec (.readRetirementList src arg) s = .next (t.respond src RegId.MBOX_CMD.addr []) ∧
      Answered s 3 n (padTo 256 ((((tabGet s.lamp.retire (n / 256) []).drop (32 * (n % 256))).take 32).flatMap (fun a => leBytes 8 a.toNat))) t) ∧
    (s.fuses.dies ≤ n / 256 ∨ 8 ≤ n % 256 → ∃ t : State, exec (.readRetirementList src arg) s = .next (t.respond src RegId.MBOX_CMD.addr []) ∧ Refused s t) ∧
    (n / 256 < s.fuses.dies → n % 256 = 0 → (tabGet s.lamp.retire (n / 256) []).length < 256 → ∃ t : State, exec (.addRetirementEntry src arg) s = .next (t.respond src RegId.MBOX_CMD.addr []) ∧
      (∀ d, tabGet t.lamp.retire d [] = if d = n / 256 then tabGet s.lamp.retire d [] ++ [BitVec.ofNat 48 (leNat (cellsRead 0 s.lamp.mbox 0 8))] else tabGet s.lamp.retire d []) ∧
      t = { s with regs := t.regs, lamp := { s.lamp with retire := t.lamp.retire } } ∧ t.rd MBOX_STATUS_DONE = 1 ∧
      (∀ r, r ≠ .MBOX_CMD → r ≠ .MBOX_STATUS → t.word r = s.word r) ∧ ∀ a, t.byteAt a = s.byteAt a) ∧
    (s.fuses.dies ≤ n / 256 ∨ n % 256 ≠ 0 ∨ 256 ≤ (tabGet s.lamp.retire (n / 256) []).length → ∃ t : State, exec (.addRetirementEntry src arg) s = .next (t.respond src RegId.MBOX_CMD.addr []) ∧ Refused s t)

/-- R479, R484, R486, R488, R492 to R494, R501, R546: a write of LAMP_PWR with a new REQ requests that power state; CALENDAR_SET, FILTER_CONFIG and
RULE_ENABLE wait for the next sample boundary, but for the L-class fields of a rule that is disabled; a write by SMBus with a good PEC is a write of
its register, sets the read pointer, or reads the address at it, all ones where the Lamp serves none; a bad PEC is not acted on. -/
def Obligations.LampCommandsReachTheLamp : Prop :=
  ∀ (s : State),
    (∀ src w, Reached s src RegId.LAMP_PWR.addr → ∃ t u, exec (.powerRequest src w) s = .next (t.respond src RegId.LAMP_PWR.addr []) ∧ Latched s src .LAMP_PWR w u ∧
      t = { u with lamp := { u.lamp with request := if u.rd LAMP_PWR_REQ = s.rd LAMP_PWR_REQ then u.lamp.request else some (u.rd LAMP_PWR_REQ) } } ∧
      (s.rd LAMP_PWR_BUSY = 0 → u.rd LAMP_PWR_REQ = w.toNat / 4 % 4)) ∧
    (∀ src w, Reached s src RegId.LAMP_CAL.addr → exec (.calendarSet src w) s =
      .next (State.respond { s with lamp := { s.lamp with pendingI := s.lamp.pendingI ++ [(RegId.LAMP_CAL.addr, w, resetCause src)] } } src RegId.LAMP_CAL.addr [])) ∧
    (∀ src ch w, Reached s src (RegId.LAMP_FILT ch).addr → exec (.filterConfig src ch w) s =
      .next (State.respond { s with lamp := { s.lamp with pendingI := s.lamp.pendingI ++ [((RegId.LAMP_FILT ch).addr, w, resetCause src)] } } src (RegId.LAMP_FILT ch).addr [])) ∧
    (∀ src r w, Reached s src (RegId.LAMP_RULE_CTL r).addr →
      (r < 20 → exec (.ruleEnable src r w) s = .next ((s.raise (mkEv 1 (s.regHome (RegId.LAMP_RULE_CTL r).addr) 0xFF 17 0 [(6, (RegId.LAMP_RULE_CTL r).addr), (1, 25)])).respond src (RegId.LAMP_RULE_CTL r).addr [])) ∧
      (20 ≤ r → ∃ t : State, exec (.ruleEnable src r w) s = .next (t.respond src (RegId.LAMP_RULE_CTL r).addr []) ∧ Latched s src (.LAMP_RULE_CTL r) w t)) ∧
    (∀ p w, Reached s .smbus p.addr.toNat → ∃ t, exec (.smbusBlockWrite p.addr w true) s = .next t ∧ exec (.registerWrite .smbus p w) s = .next t) ∧
    (∀ a, s.lamp.auxIn = true → exec (.smbusSetPointer a true) s = .next { s with lamp := { s.lamp with smbusPtr := a } }) ∧
    (s.lamp.auxIn = true → ∃ t v, exec (.smbusBlockRead true) s = .next t ∧ t = { s with regs := t.regs, wire := s.wire ++ [.smbus v] } ∧
      (Reached s .smbus s.lamp.smbusPtr.toNat → ∃ u, exec (.rcRead .smbus s.lamp.smbusPtr) s = .next u ∧ u.wire = s.wire ++ [.register .smbus s.lamp.smbusPtr.toNat v] ∧ t.regs = u.regs) ∧
      (¬ Reached s .smbus s.lamp.smbusPtr.toNat → v = BitVec.allOnes 64 ∧ t.regs = s.regs)) ∧
    (∀ a w, exec (.smbusBlockWrite a w false) s = .next s) ∧ (∀ a, exec (.smbusSetPointer a false) s = .next s) ∧ exec (.smbusBlockRead false) s = .next s

/-- R512, R514, R515: an idle ATT_CTRL takes a report (OP 0) or an extension (OP 1). It is refused with CODE 1 where MR is below 8, with CODE 2 where the
address is not a mapped multiple of 64 in LPDDR6; else it is BUSY until it ends. A report is stored at ADDR with EV_ATTEST_REPORT; an extension
extends its measurement register with the 64 B at ADDR. -/
def Obligations.AttestationOrdersRunOrAreRefused : Prop :=
  (∀ (s : State) (src : Src) (addr : BitVec 48) (mr : BitVec 4) (c : Instr) (op len : Nat),
    (c, op, len) ∈ [(Instr.attestReport src addr, 0, 18304), (Instr.mrExtend src mr addr, 1, 64)] → Reached s src RegId.ATT_CTRL.addr → s.rd ATT_STATUS_BUSY = 0 →
    ∀ a, a = addr.toNat → ∃ t : State, exec c s = .next (t.respond src RegId.ATT_CTRL.addr []) ∧ t.rd ATT_CTRL_ADDR = a ∧ t.rd ATT_CTRL_OP = op ∧ (op = 1 → t.rd ATT_CTRL_MR = mr.toNat) ∧
      (∀ r, r ≠ .ATT_CTRL → r ≠ .ATT_STATUS → t.word r = s.word r) ∧ (∀ b, t.byteAt b = s.byteAt b) ∧ t.rd ATT_STATUS_DONE = s.rd ATT_STATUS_DONE ∧
      (op = 1 → mr.toNat < 8 → t.rd ATT_STATUS_ERROR = 1 ∧ t.rd ATT_STATUS_CODE = 1 ∧ t.rd ATT_CTRL_GO = 0 ∧ t = { s with regs := t.regs }) ∧
      ((op = 1 → 8 ≤ mr.toNat) → (a % 64 ≠ 0 ∨ 0x010000000000 ≤ a ∨ s.accessOk a len = false) →
        t.rd ATT_STATUS_ERROR = 1 ∧ t.rd ATT_STATUS_CODE = 2 ∧ t.rd ATT_CTRL_GO = 0 ∧ t = { s with regs := t.regs }) ∧
      ((op = 1 → 8 ≤ mr.toNat) → a % 64 = 0 → a < 0x010000000000 → s.accessOk a len = true →
        t.rd ATT_STATUS_BUSY = 1 ∧ t.rd ATT_CTRL_GO = 1 ∧ t = { s with regs := t.regs, fw := { s.fw with attest := some (op, a, t.rd ATT_CTRL_MR) } })) ∧
  (∀ (s : State) (op a mr : Nat), s.fw.attest = some (op, a, mr) → ∃ u, u.rd ATT_STATUS_BUSY = 0 ∧ u.rd ATT_STATUS_DONE = 1 ∧ u.rd ATT_CTRL_GO = 0 ∧
    (∀ r, r ≠ .ATT_CTRL → r ≠ .ATT_STATUS → u.word r = s.word r) ∧
    (op = 1 → exec .attestDone s = .next u ∧ (∀ b, u.byteAt b = s.byteAt b) ∧
      u = { s with regs := u.regs, fw := { s.fw with attest := none, mr := tabSet s.fw.mr mr (BitVec.ofNat 512 (leNat (shake256 64 (leBytes 64 (s.mr mr).toNat ++ leBytes 4 mr ++ s.bytesAt a 64)))) } }) ∧
    (op ≠ 1 → exec .attestDone s = .next (u.raise (mkEv 200 s.lead 0xFF 17 0 [(8, leNat (s.bytesAt (a + 32) 8)), (4, 18304)])) ∧
      u = { s with regs := u.regs, fw := { s.fw with attest := none }, mem := (s.setBytes a (s.attReport (s.bytesAt (a + 32) 32))).mem,
                   undef := (s.setBytes a (s.attReport (s.bytesAt (a + 32) 32))).undef })) ∧
  (∀ s : State, s.fw.attest = none → exec .attestDone s = .next s)

/-- R510, R516 to R518: an idle FW_CTRL takes GO for the image staged at SRC, COMMIT and ARB. GO is refused with STAGE 7 while a trial runs, and with the
stage of a failed check, and writes nothing; else the lead die is BUSY programming the slot not running. COMMIT makes a running trial the preferred
image; ARB raises the anti-rollback counter to the SVN of the running image, and is refused with STAGE 8 while a trial runs. -/
def Obligations.FirmwareOrdersRunOrAreRefused : Prop :=
  ∀ (s : State) (src : Src), Reached s src RegId.FW_CTRL.addr → s.rd FW_STATUS_BUSY = 0 →
    (∀ (addr : BitVec 48) (sigOk : Bool) (slot : Nat), slot = (if s.rd MODULE_STATUS_STAGE = 15 then s.fw.bootSlot else 1 - s.fw.bootSlot) → ∃ t u : State,
      exec (.fwUpdate src addr sigOk) s = .next (t.respond src RegId.FW_CTRL.addr []) ∧
      u.rd FW_CTRL_SRC = addr.toNat ∧ u.rd FW_CTRL_COMMIT = 0 ∧ u.rd FW_CTRL_ARB = 0 ∧ u = { s with regs := u.regs } ∧ (∀ r, r ≠ .FW_CTRL → u.word r = s.word r) ∧
      (∀ b, u.byteAt b = s.byteAt b) ∧
      (s.rd FW_STATUS_TRIAL = 1 → s.rd MODULE_STATUS_STAGE ≠ 15 → t.rd FW_STATUS_FAIL = 1 ∧ t.rd FW_STATUS_STAGE = 7 ∧ t.rd FW_STATUS_BUSY = 0 ∧ t.rd FW_CTRL_GO = 0 ∧
        t = { s with regs := t.regs }) ∧
      (s.rd FW_STATUS_TRIAL = 0 ∨ s.rd MODULE_STATUS_STAGE = 15 → ∀ i, i = s.stagedImage addr.toNat →
        (addr.toNat % 4096 ≠ 0 ∨ s.accessOk addr.toNat (i.length + 29792) = false → t = ((u.fwFails 1).verifyFail slot 1 i).wr FW_CTRL_GO 0) ∧
        (addr.toNat % 4096 = 0 → s.accessOk addr.toNat (i.length + 29792) = true →
          (∀ k, s.imageFail i sigOk = some k → t = ((u.fwFails k).verifyFail slot k i).wr FW_CTRL_GO 0) ∧
          (s.imageFail i sigOk = none → i.compatAt + i.compatLen > i.length → t = ((u.fwFails 5).verifyFail slot 5 i).wr FW_CTRL_GO 0) ∧
          (s.imageFail i sigOk = none → i.compatAt + i.compatLen ≤ i.length → t.rd FW_STATUS_BUSY = 1 ∧ t.rd FW_CTRL_GO = 1 ∧
            t = { s with regs := t.regs, fw := { s.fw with update := some (slot, addr.toNat) } })))) ∧
    (∃ t : State, exec (.fwCommit src) s = .next (t.respond src RegId.FW_CTRL.addr []) ∧
      (s.rd FW_STATUS_TRIAL = 0 → t.rd FW_STATUS_DONE = 1 ∧ t.rd FW_CTRL_COMMIT = 0 ∧ t = { s with regs := t.regs }) ∧
      (s.rd FW_STATUS_TRIAL = 1 → t.rd FW_STATUS_TRIAL = 0 ∧ t.rd FW_STATUS_DONE = 1 ∧
        t.flash = (s.writeDesc (fun x => { x with preferred := s.fw.bootSlot, trial := 0xFF, tried := 0 })).flash)) ∧
    (∃ t : State, exec (.arbRaise src) s = .next (t.respond src RegId.FW_CTRL.addr []) ∧ t.rd FW_CTRL_ARB = 0 ∧
      (s.rd FW_STATUS_TRIAL = 1 → t.rd FW_STATUS_FAIL = 1 ∧ t.rd FW_STATUS_STAGE = 8 ∧ t = { s with regs := t.regs }) ∧
      (s.rd FW_STATUS_TRIAL = 0 → t.fw.arb.toNat = max s.fw.arb.toNat (s.rd FW_STATUS_SVN) ∧ t.rd FW_STATUS_ARB_CTR = max s.fw.arb.toNat (s.rd FW_STATUS_SVN) ∧
        t.rd FW_STATUS_DONE = 1 ∧ t = { s with regs := t.regs, fw := { s.fw with arb := t.fw.arb } }))

/-- R511, R516, R519: the programming of a slot ends. A slot that fails its read-back is reported with STAGE 6 and leaves the descriptor; else the slot
holds the staged image with its signature, the descriptor names it as an untried trial, and EV_FW_UPDATE says so. Nothing happens where no update
runs. (Model's choices in it: log entry 3.) -/
def Obligations.UpdatesEndWithATrialOrLeaveTheDescriptor : Prop :=
  (∀ (s : State) (ok : Bool), s.fw.update = none → exec (.fwUpdateDone ok) s = .next s) ∧
  ∀ (s : State) (slot src : Nat), s.fw.update = some (slot, src) → ∀ i, i = s.stagedImage src → ∃ u v w : State, u.fw = { s.fw with update := none } ∧
    u = { s with regs := u.regs, fw := u.fw, flash := (s.flashErase (slotBase slot) imageSlotBytes).flash } ∧ (∀ r, r ≠ .FW_CTRL → u.word r = s.word r) ∧ u.rd FW_CTRL_GO = 0 ∧
    exec (.fwUpdateDone false) s = .next ((u.fwFails 6).verifyFail slot 6 i) ∧
    v = (u.flashWrite (slotBase slot) (s.bytesAt src (i.length + 29792))).writeDesc (fun x => { x with trial := slot, tried := 0 }) ∧
    w = (v.raise (mkEv 198 s.lead 0xFF 17 0 [(1, slot), (1, 1), (2, 0), (4, i.version), (2, i.svn)])).wr FW_STATUS_BUSY 0 ∧
    (s.rd MODULE_STATUS_STAGE ≠ 15 → exec (.fwUpdateDone true) s = .next (w.wr FW_STATUS_DONE 1)) ∧
    (s.rd MODULE_STATUS_STAGE = 15 → exec (.fwUpdateDone true) s =
      .next { (w.wr FW_STATUS_DONE 1).wr MODULE_RESET_BUSY 1 with lamp := { w.lamp with resetOrder := some (1, 3) } })

/-- R127, R461: MG.EVENT raises the event numbered IMM[15:0] from its control core, with sa as its payload. MG.FENCE gives the order coded in sa to
its unit: fence, park or release a core or a control core; pause, cancel or resume a channel, as DRAY.PAUSE, DRAY.CANCEL and DRAY.RESUME do; disable,
empty or enable a completion queue; turn a link off, off and on, or on, as ENABLE does; or fence a die. A reserved code faults with EV_ILLEGAL_INSTR,
and a die that is fenced or that no route reaches takes no order. An index is one of its kind. An order that the spec does not describe for its kind
does nothing (DESIGN CHOICE, log entry 53). EV_DIGEST_REPAIR, number 150, tells that a block is repaired: as many of its granules as it says join the
scrub log or are retired (R406, R407), which of them is a free choice (DESIGN CHOICE, log entry 124). Parking a core raises EV_CORE_PARKED, in which the entry is a free value (DESIGN CHOICE, log entry 109).
-/
def Obligations.ManagementRaisesEventsAndGivesOrders : Prop :=
  (∀ (s : State) (h : Hdr) (a : FmtA), Issues s h 8 → isCtl h.seq = true → legalMgEvent a = true → eventListed a.imm.toNat = true →
    ∀ w, w = s.sreg h.die h.seq a.sa → ∃ t u : State, u = s.raise { mkEv a.imm.toNat h.die 0xFF 16 (h.seq - 96) [] with pay0 := w } ∧
      exec (.mgEvent h a) s = .next t ∧ (t.core h.die h.seq).pc = (s.core h.die h.seq).pc + 8 ∧
      (a.imm.toNat ≠ 150 → OnlyPc h.die h.seq u t) ∧
      (a.imm.toNat = 150 → OnlyPc h.die h.seq (u.blockRepaired h.die (w.toNat % 2 ^ 32) (w.toNat / 2 ^ 32 % 65536) (w.toNat / 2 ^ 48)) t)) ∧
  (∀ (s : State) (d shard block n : Nat), (s.shardAt d shard = none → s.blockRepaired d shard block n = s) ∧
    ∀ a, s.shardAt d shard = some a → n ≤ 256 → ∃ gs : List Nat, gs.length = n ∧ gs.Nodup ∧ (∀ g ∈ gs, g < 256) ∧
      s.blockRepaired d shard block n = (gs.foldl (fun s g => s.scrub d ((a + block * 65536) / 256 + g)) s).used 256) ∧
  (∀ (s : State) (h : Hdr) (a : FmtA), Issues s h 8 → isCtl h.seq = true → legalMgFence a = true →
    ∀ w kind i e, w = (s.sreg h.die h.seq a.sa).toNat → kind = w / 4 % 16 → i = w / 65536 % 65536 → e = w / 4294967296 % 8 →
      (6 < kind ∨ w / 64 % 1024 ≠ 0 ∨ w / 34359738368 ≠ 0 ∨ (w % 4 = 3 ∧ kind = 6) →
        ∃ t, exec (.mgFence h a) s = .next t ∧ Faulted h.die h.seq 64 0 (s.core h.die h.seq).pc.toNat s t) ∧
      (kind ≤ 6 → w / 64 % 1024 = 0 → w / 34359738368 = 0 → ¬ (w % 4 = 3 ∧ kind = 6) →
        (s.dieUp e = false ∨ s.routeOk h.die e = false → ∃ t, exec (.mgFence h a) s = .next t ∧ OnlyPc h.die h.seq s t ∧
          (t.core h.die h.seq).pc = (s.core h.die h.seq).pc + 8) ∧
        (s.dieUp e = true → s.routeOk h.die e = true →
          ∀ u, (kind, w % 4, i, u) ∈ [
              (0, 0, i % s.nCores, s.fenceCore e i),
              (0, 1, i % s.nCores, s.parkCore e i),
              (0, 3, i % s.nCores, s.modCore e i (fun x => { x with parked := false, fenced := false })),
              (1, 0, i % 4, s.fenceControl e i),
              (1, 1, i % 4, s.modCore e (96 + i) (fun x => { x with parked := true })),
              (1, 3, i % 4, s.modCore e (96 + i) (fun x => { x with parked := false, fenced := false })),
              (2, 0, i % (32 + 4 * s.nCores), s.pauseChan e i),
              (2, 1, i % (32 + 4 * s.nCores), s.pauseChan e i),
              (2, 2, i % (32 + 4 * s.nCores), s.cancelChan e i),
              (2, 3, i % (32 + 4 * s.nCores), s.resumeChan e i),
              (3, 0, i % 64, s.wr (DRAY_CQ_CTL_EN e i) 0),
              (3, 2, i % 64, (s.wr (DRAY_CQ_PTR_HEAD e i) (s.rd (DRAY_CQ_PTR_TAIL e i))).releaseCq e i),
              (3, 3, i % 64, (s.wr (DRAY_CQ_CTL_EN e i) 1).releaseCq e i),
              (6, 0, i, s.fenceFound e 0)] →
            ∃ t, exec (.mgFence h a) s = .next t ∧ OnlyPc h.die h.seq u t ∧ (t.core h.die h.seq).pc = (s.core h.die h.seq).pc + 8) ∧
        (s.dieUp e = true → s.routeOk h.die e = true → kind = 4 → s.linkThere e i = true → ∃ t, exec (.mgFence h a) s = .next t ∧
          (t.core h.die h.seq).pc = (s.core h.die h.seq).pc + 8 ∧
          (w % 4 = 0 → OnlyPc h.die h.seq ((s.wr (LINK_CFG_ENABLE e i) 0).linkOff e i) t) ∧
          (w % 4 = 1 → OnlyPc h.die h.seq s t) ∧
          (w % 4 = 2 → OnlyPc h.die h.seq ((((s.wr (LINK_CFG_ENABLE e i) 0).linkOff e i).wr (LINK_CFG_ENABLE e i) 1).retrain e i 4) t) ∧
          (w % 4 = 3 → OnlyPc h.die h.seq ((s.wr (LINK_CFG_ENABLE e i) 1).retrain e i 4) t)) ∧
        (s.dieUp e = true → s.routeOk h.die e = true → kind = 5 → ∀ p, s.portPeer e i = some p → ∃ t u, exec (.mgFence h a) s = .next t ∧
          OnlyPc h.die h.seq u t ∧ (t.core h.die h.seq).pc = (s.core h.die h.seq).pc + 8 ∧
          u = { s with ports := u.ports, links := u.links, wire := u.wire } ∧ (w % 4 ≠ 2 → u.links = s.links ∧ u.wire = s.wire) ∧ (∀ x y, portKey x y ≠ portKey e i → portKey x y ≠ portKey p i → u.port x y = s.port x y) ∧
          (w % 4 = 0 → u.port e i = { s.port e i with up := false } ∧ u.port p i = { s.port p i with up := false }) ∧
          (w % 4 = 2 → u.port e i = { portReset with up := (s.port e i).up } ∧ u.port p i = { portReset with up := (s.port p i).up }) ∧
          (w % 4 = 1 ∨ w % 4 = 3 → u = s)))) ∧
  (∀ (s : State) (d c : Nat), ((s.core d c).parked = true → s.parkCore d c = s) ∧ ((s.core d c).parked = false → ∃ v : State, ∃ b < 256,
    v = ((s.stopItem d c).modCore d c (fun x => { x with parked := true })).raise (mkEv 87 d c 17 0 [(1, c), (1, b)]) ∧ s.parkCore d c = { v with fresh := (s.parkCore d c).fresh }))

/-- R90, R104, R107, R109, R124, R126, R128, R131: a unit starts the head of its queue once every semaphore of its wait list covers its counts, and takes
them all together; it waits while one does not, while it runs another, and while the head of a unit before it in the order of units is ready. DRAY.GO
copies its 64 B descriptor into its channel; another instruction runs on its unit until it completes, and an order reaches its channel. One that
faults writes nothing, and its tokens are given back. It is replayed for each parity error met, and stops its work item when they are more than
REPLAY_MAX. (Model's choices in it: log entries 5, 9 and 20.) -/
def Obligations.UnitsStartTheirHead : Prop :=
  ∀ (s : State) (d q unit par : Nat),
    ((s.core d q).queue unit = [] → exec (.instrStart d q unit par) s = .next s) ∧
    ∀ (e : QEntry) (rest : List QEntry), (s.core d q).queue unit = e :: rest →
      ((∃ m, s.semv d q m < slotSum e.wait m) → exec (.instrStart d q unit par) s = .next s) ∧
      ((∃ r ∈ (s.core d q).running, r.1 = unit) → exec (.instrStart d q unit par) s = .next s) ∧
      ((∃ u y r, u < unit ∧ (s.core d q).queue u = y :: r ∧ s.headReady d q u y = true) → exec (.instrStart d q unit par) s = .next s) ∧
      (s.canStart d q unit e = true → ∃ v, Started s d q unit e v ∧ ∀ w, w = (v.unitReplays d q unit 0 par).1 →
        (par = 0 → w = v.used 1) ∧ (∃ a, w = (v.replays d q (unitCode q unit) a (min par (v.replayMax d q))).used 1) ∧
        (par ≤ v.replayMax d q → e.op = .drayGo → ∀ a, v.goAt d q e = .ok a → exec (.instrStart d q unit par) s =
          .next (w.accept d (unitChan q unit) q e.item ((List.range 8).map (fun i => BitVec.ofNat 64 (v.natAt (a + 8 * i) 8))) e.post e.late)) ∧
        (par ≤ v.replayMax d q → e.op ≠ .drayGo → ∀ p, v.startPlan d q e = .ok p → ∃ u, Runs w d q unit e p par u ∧
          exec (.instrStart d q unit par) s = .next ((u.raiseAll p.events).orderChan d (unitChan q unit) e.op)) ∧
        (v.replayMax d q < par → (e.op = .drayGo ∧ ∃ a, v.goAt d q e = .ok a) ∨ (e.op ≠ .drayGo ∧ ∃ p, v.startPlan d q e = .ok p) →
          ∃ x : State, (∀ m, x.semv d q m = w.semv d q m + slotSum e.wait m) ∧ x = { w with cores := x.cores } ∧
            exec (.instrStart d q unit par) s = .next (x.exhausted d q (unitCode q unit) e.pc)) ∧
        (∀ f, (e.op = .drayGo ∧ v.goAt d q e = .error f) ∨ (e.op ≠ .drayGo ∧ v.startPlan d q e = .error f) → (isCtl q = false → unit < 10) →
          ∃ x t, exec (.instrStart d q unit par) s = .next t ∧ (∀ m, x.semv d q m = s.semv d q m) ∧ x = { v with cores := x.cores, fresh := x.fresh } ∧
            Faulted d q f.num (unitCode q unit) e.pc x t))

/-- R108, R110, R124, R128, R145, R154, R185, R188: a started instruction completes when its effect is in place: the cycles it takes pass, its result is
written, its group is settled, and in the cycle after that its unit is free and its post list applies. Each parity error met restarts it; one more
than REPLAY_MAX stops its work item, and its tokens are given back. The values of its result are free where an operand was stored to meanwhile. A
group that the instruction closes holds no tile, and raises EV_ACC_SATURATE, number 84, where OVF or BX is set; one that stays open holds the tile of
the instruction with those that it held. (Model's choices in it: log entries 5 and 9.) -/
def Obligations.UnitsCompleteTheirInstruction : Prop :=
  (∀ (s : State) (d q unit par : Nat),
    ((∀ r ∈ (s.core d q).running, r.1 ≠ unit) → exec (.instrComplete d q unit par) s = .next s) ∧
    ∀ (run : Running) (v : State), (s.core d q).running.find? (fun r => decide (r.1 = unit)) = some (unit, run) →
      v = (if run.e.op = .drayPause then s.settlePause d (unitChan q unit) else s) →
      (v.dieUp d = false ∨ (v.core d q).fenced = true ∨ (v.core d q).heldFull = true ∨ v.effectIn d (unitChan q unit) run.e.op = false →
        exec (.instrComplete d q unit par) s = .next v) ∧
      (v.dieUp d = true → (v.core d q).fenced = false → (v.core d q).heldFull = false → v.effectIn d (unitChan q unit) run.e.op = true →
        ∀ w, w = (v.unitReplays d q unit run.replays par).1 →
          (par = 0 → w = v.used 1) ∧ (∃ a, w = (v.replays d q (unitCode q unit) a (min par (v.replayMax d q - run.replays))).used 1) ∧
          (v.replayMax d q < run.replays + par → ∃ x : State, (∀ m, x.semv d q m = w.semv d q m + slotSum run.e.wait m) ∧ x = { w with cores := x.cores } ∧
            exec (.instrComplete d q unit par) s = .next ((x.exhausted d q (unitCode q unit) run.e.pc).abandonGroups d q)) ∧
          (run.replays + par ≤ v.replayMax d q → ∀ n : Int, n = run.start + (run.res.cycles * (1 + run.replays + par) : Nat) →
            ∃ (p u x y z : State) (r : Result), Passes n.toNat w p ∧
              (p.operandsChanged d q run = false → r = run.res) ∧ (p.operandsChanged d q run = true → r = p.freeResult run.res) ∧
              Written d q r.writes p u ∧ u = { p with mem := u.mem, undef := u.undef, fresh := u.fresh } ∧
              x = ((r.counts.foldl (fun s k => s.count k.1 k.2) u).statResult d q unit run.e).raiseAll r.events ∧
              y = (match r.group with
                | some g => x.endGroup d q unit g
                | none => x) ∧
              Passes (n + 1).toNat y z ∧
              exec (.instrComplete d q unit par) s = .next (if ((z.release d q unit).postList d q run.e.post).itemStopped run.e.item then
                ((z.release d q unit).postList d q run.e.post).abandonGroups d q else (z.release d q unit).postList d q run.e.post)))) ∧
  (∀ (s : State) (d c unit : Nat) (g : GroupEnd) (x : Group), x = tabGet (s.core d c).groups g.g groupReset →
    (x.isOpen = false → s.endGroup d c unit g = s) ∧
    (x.isOpen = true → ∃ u : State, u = { s with cores := u.cores, regs := u.regs } ∧ (∀ k, k ≠ g.g → tabGet (u.core d c).groups k groupReset = tabGet (s.core d c).groups k groupReset) ∧
      u.rd (ACC_STATUS_OVF d c) = (if x.ovf || g.ovf then s.rd (ACC_STATUS_OVF d c) ||| 2 ^ g.g else s.rd (ACC_STATUS_OVF d c)) % 256 ∧
      (g.close = false → s.endGroup d c unit g = u ∧ (tabGet (u.core d c).groups g.g groupReset).isOpen = true ∧ (tabGet (u.core d c).groups g.g groupReset).ovf = (x.ovf || g.ovf) ∧
        ∀ t, t ∈ (tabGet (u.core d c).groups g.g groupReset).held ↔ g.held = some t ∨ t ∈ x.held) ∧
      (g.close = true → (tabGet (u.core d c).groups g.g groupReset) = { x with ovf := x.ovf || g.ovf, isOpen := false, held := [] } ∧
        s.endGroup d c unit g = if x.ovf || g.ovf || x.bx then
          u.raise (mkEv 84 d c (unit + 1) 0 [(1, c), (1, g.g), (1, x.unit + 1), (1, if x.ovf || g.ovf then 1 else 0), (1, if x.bx then 1 else 0)]) else u)))

/-- R98, R100, R123, R186, R188, R376, R391, R459, R489, R552: a work item starts on its core, or on the stand-in of a core that is parked, fenced or
stopped, once every item before it there is over, with the entry state of R98; semaphores stand. What an earlier run still waits for returns at once, and
what it parked with closes. A parked item that its new entry governs resumes at its saved state with s1 to s5 of that entry, sd holding the frame
sequence number; its open groups are open on its core again, and an unleased range is taken. An item that has reached END, or parks, ends when no
instruction it dispatched is left: END closes its open groups, each with EV_ACC_SATURATE, number 84, where OVF or BX is set, and a parking item's
state is saved with the tiles its open groups hold. In a slip frame it starts again where it is to run again. The command changes nothing while its
condition does not hold. (Model's choices in it: log entries 58 to 60 and 108.) -/
def Obligations.WorkItemsStartResumeAndEnd : Prop :=
  (∀ (s : State) (d c i k : Nat) (x : Item), k = itemKey d c i → x = s.item k →
    (∀ rc, ((s.core d rc).cur ≠ none ∨ s.frame.inHold = true ∨ s.rd JOB_STATUS_STATE = 3 ∨ s.coreOut d rc = true ∨
        ∃ e ∈ s.items, e.1 ≠ k ∧ s.barsOn d rc e.1 e.2 = true ∧ itemRank rc e.1 ≤ itemRank rc k) → s.itemTurn d rc k = false) ∧
    (s.runsOn d c = none ∨ (∃ rc, s.runsOn d c = some rc ∧ s.itemTurn d rc k = false) ∨ (x.st ≠ .waiting ∧ ¬ (x.st = .parked ∧ x.due = true ∧ s.coreOut d c = true)) →
      exec (.workItemStart d c i) s = .next s) ∧
    (∀ rc, s.runsOn d c = some rc → x.st = .waiting ∨ (x.st = .parked ∧ x.due = true ∧ s.coreOut d c = true) → s.itemTurn d rc k = true →
      ∀ f, f = s.frameSeq → ∃ v w t, exec (.workItemStart d c i) s = .next t ∧
        Passes (if x.overrun = true ∨ x.rerun = true then s.holdCycles + 1 else s.issueCycle) s v ∧
        w = (v.orphanTakes (fun j => decide (j = k))).endParked k x ∧
        (x.ctx = none → (∀ e ∈ s.cores, ∀ a ∈ e.2.takes, a.item ≠ some k) → w = v) ∧
        (∃ g, t.core d rc = { w.core d rc with pc := BitVec.ofNat 64 x.entry.entry, s := g, td := [], p := 0, runlen := BitVec.allOnes 64, seed := 0, cur := some k, blocked := .none, groups := (w.core d rc).groups.map (fun g => (g.1, g.2.closed)) }) ∧
        (∀ r : BitVec 5, t.sreg d rc r = if r = 1 then BitVec.ofNat 64 x.entry.first else if r = 2 then BitVec.ofNat 64 x.entry.count else if r = 3 then BitVec.ofNat 64 x.entry.arg
          else if r = 4 then BitVec.ofNat 64 (x.entry.item % 8 + (x.entry.flags % 2) <<< 16 + x.entry.counter <<< 32) else if r = 5 then BitVec.ofNat 64 f else 0) ∧
        t.item k = { x with st := .running, runCore := rc, start := some f, leases := [], retAll := false, due := false, ctx := none } ∧
        (∀ j, j ≠ k → t.item j = s.item j) ∧ (∀ j, j ≠ coreKey d rc → tabGet t.cores j coreReset = tabGet w.cores j coreReset) ∧
        t = { w with cores := t.cores, items := t.items, regions := t.regions } ∧
        (∀ r, t.region r = if x.entry.leased = false ∧ r ∈ x.entry.regions then { s.region r with taken := true } else s.region r)) ∧
    (x.ctx = none ∨ x.st ≠ .parked ∨ x.due = false ∨ s.itemTurn d c k = false → exec (.itemResume d c i) s = .next s) ∧
    (∀ z, x.ctx = some z → x.st = .parked → x.due = true → s.itemTurn d c k = true → ∃ v t, exec (.itemResume d c i) s = .next t ∧ Passes s.issueCycle s v ∧
      (∃ g, t.core d c = { s.core d c with pc := z.pc, s := g, td := z.td, p := z.p, runlen := z.runlen, seed := z.seed, cur := some k, blocked := .none, groups := (t.core d c).groups, kept := (t.core d c).kept }) ∧
      (t.core d c).groups = (z.groups.filter (fun g => g.2.isOpen)).foldl (fun t g => tabSet t g.1 g.2) (s.core d c).groups ∧
      tabGet (t.core d x.runCore).kept k [] = [] ∧ (∀ j, j ≠ k → tabGet (t.core d x.runCore).kept j [] = tabGet (s.core d x.runCore).kept j []) ∧
      (x.runCore ≠ c → t.core d x.runCore = { s.core d x.runCore with kept := (t.core d x.runCore).kept } ∧ (t.core d c).kept = (s.core d c).kept) ∧
      (∀ r : BitVec 5, t.sreg d c r = if r = 0 then 0 else if r = BitVec.ofNat 5 z.sd then BitVec.ofNat 64 s.frameSeq else if r = 1 then BitVec.ofNat 64 x.entry.first
        else if r = 2 then BitVec.ofNat 64 x.entry.count else if r = 3 then BitVec.ofNat 64 x.entry.arg
        else if r = 4 then BitVec.ofNat 64 (x.entry.item % 8 + (x.entry.flags % 2) <<< 16 + x.entry.counter <<< 32) else if r = 5 then BitVec.ofNat 64 s.frameSeq
        else tabGet z.s r.toNat 0) ∧
      t.item k = { x with st := .running, runCore := c, start := some s.frameSeq, leases := [], retAll := false, due := false, ctx := none } ∧
      (∀ j, j ≠ k → t.item j = s.item j) ∧ (∀ j, j ≠ coreKey d c → j ≠ coreKey d x.runCore → tabGet t.cores j coreReset = tabGet s.cores j coreReset) ∧
      t = { v with cores := t.cores, items := t.items, regions := t.regions } ∧
      (∀ r, t.region r = if x.entry.leased = false ∧ r ∈ x.entry.regions then { s.region r with taken := true } else s.region r)) ∧
    ((s.core d x.runCore).cur ≠ some k ∨ s.itemBusy d x.runCore k = true ∨ s.dieUp d = false ∨ (x.st ≠ .ended ∧ x.st ≠ .parked) → exec (.workItemComplete d c i) s = .next s) ∧
    (∀ gs, gs = (s.core d x.runCore).groups.filter (fun g => g.2.isOpen && !(s.core d x.runCore).busyGroups.contains g.1) →
      (s.core d x.runCore).cur = some k → s.itemBusy d x.runCore k = false → s.dieUp d = true → x.st = .ended → ∃ y t : State,
      exec (.workItemComplete d c i) s = .next (if t.flag FRAME_STATUS_IN_SLIP = true ∧ (t.item k).again = true then t.rerunItem k else t) ∧
      (y.core d x.runCore) = { s.core d x.runCore with groups := (y.core d x.runCore).groups } ∧
      (∀ g ∈ gs, (tabGet (y.core d x.runCore).groups g.1 groupReset).isOpen = false) ∧
      y.rd (ACC_STATUS_ABANDONED d x.runCore) = min (s.rd (ACC_STATUS_ABANDONED d x.runCore) + gs.length) (2 ^ (ACC_STATUS_ABANDONED d x.runCore).width - 1) ∧
      (∀ r, r ≠ .ACC_STATUS d x.runCore → y.word r = s.word r) ∧ (∀ j, j ≠ coreKey d x.runCore → tabGet y.cores j coreReset = tabGet s.cores j coreReset) ∧
      y = { s with cores := y.cores, regs := y.regs } ∧
      t.core d x.runCore = { y.core d x.runCore with cur := none } ∧ t.item k = { x with st := .complete } ∧ (∀ j, j ≠ k → t.item j = s.item j) ∧
      (∀ j, j ≠ coreKey d x.runCore → tabGet t.cores j coreReset = tabGet s.cores j coreReset) ∧
      t = { y.saturated d x.runCore gs with cores := t.cores, items := t.items }) ∧
    (∀ y, y = s.core d x.runCore → y.cur = some k → s.itemBusy d x.runCore k = false → s.dieUp d = true → x.st = .parked → ∃ (t : State) (sd : Nat),
      exec (.workItemComplete d c i) s = .next (if t.flag FRAME_STATUS_IN_SLIP = true ∧ (t.item k).again = true then t.rerunItem k else t) ∧
      (∀ n, y.blocked = .tickWait n → sd = n) ∧
      t.item k = { x with ctx := some { pc := y.pc, s := y.s, td := y.td, p := y.p, runlen := y.runlen, seed := y.seed, groups := y.groups, sd := sd } } ∧
      t.core d x.runCore = { y with cur := none, blocked := .none, kept := tabSet y.kept k (y.groups.filter (fun g => g.2.isOpen)), groups := y.groups.map (fun g => (g.1, g.2.closed)) } ∧
      (∀ j, j ≠ k → t.item j = s.item j) ∧ (∀ j, j ≠ coreKey d x.runCore → tabGet t.cores j coreReset = tabGet s.cores j coreReset) ∧
      t = { s with cores := t.cores, items := t.items })) ∧
  (∀ (s : State) (d c g : Nat) (x : Group) (gs : Tab Group), s.saturated d c [] = s ∧
    s.saturated d c ((g, x) :: gs) = (if x.ovf = true ∨ x.bx = true then
      s.notice d (mkEv 84 d c (x.unit + 1) 0 [(1, c), (1, g), (1, x.unit + 1), (1, if x.ovf then 1 else 0), (1, if x.bx then 1 else 0)]) else s).saturated d c gs) ∧
  (∀ x : Item, x.again = true ↔ x.faulted = false ∧ x.redo = true ∧ (x.st = .complete ∨ (x.st = .parked ∧ x.ctx ≠ none) ∨ x.st = .stopped ∨ x.st = .aborted))

/-- R44, R48, R50, R52, R84, R412, R429, R435, R436, R553: when team time reaches the tick the frame sequence number rises by one, or becomes that of the
fleet which the team adopts; the cycle count starts again at 0 and the hold begins. The module makes its tick report, and a member sends it East and West
in KIND 6 flits: its cause bits are an overrun item, a withheld region, a violated law or verdicts that split, a Timetable that is due and not ready, and
a request for a slip. A tick does not come within a hold. (Model's choices in it: log entries 11 and 46.) -/
def Obligations.TicksBeginTheHoldWithAReport : Prop :=
  ∀ (s : State) (absent : List Nat),
    (s.frame.inHold = true → exec (.frameTick absent) s = .next s) ∧
    (s.frame.inHold = false → ∃ (v c b x t : State) (r : Report), exec (.frameTick absent) s = .next t ∧ Passes (s.frameLen * 1024) s v ∧
      t.frameSeq = (s.frame.nextSeq.getD (s.frameSeq + 1)) % 2 ^ 48 ∧ t.frame.cycle = 0 ∧ t.frame.inHold = true ∧
      t.frame.teamTime.toNat = max v.frame.teamTime.toNat s.frame.tickTime.toNat ∧ t.frame.tickTime = s.frame.tickTime ∧
      b = { c with frame := { c.frame with report := some r } } ∧ t = { x with frame := { x.frame with pause := 0, slipReq := false } } ∧
      (c.rd TEAM_STATUS_STATE ≠ 2 → x = b) ∧
      (c.rd TEAM_STATUS_STATE = 2 → ∃ y z : State, y = { b with team := { b.team with flooded := b.team.flooded ++ [.report b.tag16 r] }, wire := b.wire ++ [.report r] } ∧
        Sent y z ∧ z = (y.floodPort 1 0 6 (b.freeBytes 246)).floodPort 2 0 6 (b.freeBytes 246) ∧ x = z.used 246) ∧
      r.pos = c.rd TEAM_STATUS_POS ∧ r.cap = c.rd LAMP_PWR_CAP ∧ r.opt = c.upDies.map c.armVerdict ∧ r.image = c.job.imageOrder ∧ r.restored = c.job.resume ∧
      (r.resume = true ↔ c.armedRd JOB_CTRL_RESUME = 1) ∧
      (∀ i, r.causes.getLsbD i = true ↔ c.frame.causes.getLsbD i = true ∨
        (i = 0 ∧ ∃ e ∈ c.items, e.2.overrun = true ∧ e.2.incomplete = true) ∨ (i = 1 ∧ ∃ e ∈ c.regions, e.2.withheld = true ∧ e.2.waived = false) ∨
        (i = 2 ∧ (c.frame.violated ≠ [] ∨ c.frame.split = true ∨ ∃ d ∈ c.upDies, c.closesInFailure d = true)) ∨
        (i = 3 ∧ (c.timetableDue = true ∨ c.rd JOB_STATUS_STATE = 3) ∧ ∃ d ∈ c.upDies, c.rd (TT_CTRL_VALID d) ≠ 1) ∨ (i = 4 ∧ c.slipRequest = true)))

/-- R46, R50, R52, R53, R66, R68, R70, R79 to R82, R390, R412, R429, R436, R535: a tick report or a verdict arrives in a sequenced KIND 6 flit, goes on once
and is kept once. The Coachman makes the verdict with the last report and sends it East and West: normal where a running job has no report with a cause
and the dies' verdicts agree, slip where one has, pause where the job is to pause. A member holds the first verdict of the tick for cycle H. At cycle H
the verdict applies: the hold ends, the cap and the next tick it names hold, and a slip frame or another begins; a Coachman makes it of the reports it
has, a member without one applies a slip, or a pause where the job is paused, and a module alone that of its own report. Then the lead die takes or
refuses a submitted manifest while no job runs or is paused, and service mode ends where it may. (Model's choices in it: log entries 11, 68 and 86.) -/
def Obligations.VerdictsAreSentAndApplyAtCycleH : Prop :=
  (∀ (s : State) (d l : Nat) (f : Flit),
    ((s.rxSequenced d l f).2 = false → (∀ r, exec (.tickReport ⟨d, l, f, r⟩) s = .next (s.rxSequenced d l f).1) ∧ (∀ v, exec (.verdict ⟨d, l, f, v⟩) s = .next (s.rxSequenced d l f).1)) ∧
    (∀ q : State, q = (s.rxSequenced d l f).1 → (s.rxSequenced d l f).2 = true →
      (∀ r, .report f.tag r ∈ q.team.flooded → exec (.tickReport ⟨d, l, f, r⟩) s = .next q) ∧
      (∀ v, .verdict f.tag v ∈ q.team.flooded → exec (.verdict ⟨d, l, f, v⟩) s = .next q) ∧
      (∀ r, .report f.tag r ∉ q.team.flooded → ∃ y z : State, y = { q with team := { q.team with flooded := q.team.flooded ++ [.report f.tag r] } } ∧
        Sent y z ∧ z = y.flood d l f.kind f.payload ∧ exec (.tickReport ⟨d, l, f, r⟩) s = .next (z.hearReport f.tag r)) ∧
      (∀ v, .verdict f.tag v ∉ q.team.flooded → ∃ y z : State, y = { q with team := { q.team with flooded := q.team.flooded ++ [.verdict f.tag v] } } ∧
        Sent y z ∧ z = y.flood d l f.kind f.payload ∧ exec (.verdict ⟨d, l, f, v⟩) s = .next (z.holdVerdict f.tag v)))) ∧
  (∀ (s : State) (tag : BitVec 16),
    (s.ofTick tag = true ↔ s.later tag = true ∨ (s.frame.inHold = true ∧ tag = s.tag16)) ∧
    (∀ r, s.rd TEAM_STATUS_STATE ≠ 3 ∨ s.team.verdict ≠ none ∨ s.ofTick tag = false → s.hearReport tag r = s) ∧
    (∀ r y, s.rd TEAM_STATUS_STATE = 3 → s.team.verdict = none → s.ofTick tag = true →
      y = { s with team := { s.team with reports := s.team.reports.filter (fun x => decide (x.pos ≠ r.pos)) ++ [r] } } →
      (s.frame.inHold = false ∨ (∃ p < y.team.seats.length, y.seated p = true ∧ p ≠ y.rd TEAM_STATUS_POS ∧ ∀ x ∈ y.team.reports, x.pos ≠ p) → s.hearReport tag r = y) ∧
      (s.frame.inHold = true → (∀ p < y.team.seats.length, y.seated p = true → p ≠ y.rd TEAM_STATUS_POS → ∃ x ∈ y.team.reports, x.pos = p) → ∃ (v : Verdict) (g z : State),
        v = y.verdictOf (y.allReports y.team.reports) ∧
        g = { y with team := { y.team with reports := y.allReports y.team.reports, verdict := some v, flooded := y.team.flooded ++ [.verdict y.tag16 v] }, wire := y.wire ++ [.verdict v] } ∧
        Sent g z ∧ z = (g.floodPort 1 0 6 (y.freeBytes 246)).floodPort 2 0 6 (y.freeBytes 246) ∧ s.hearReport tag r = z.used 246)) ∧
    (∀ v, s.rd TEAM_STATUS_STATE ≠ 2 ∨ s.team.verdict ≠ none ∨ s.ofTick tag = false → s.holdVerdict tag v = s) ∧
    (∀ v, s.rd TEAM_STATUS_STATE = 2 → s.team.verdict = none → s.ofTick tag = true →
      s.holdVerdict tag v = { s with team := { s.team with verdict := some v, misses := 0 } })) ∧
  (∀ (s : State) (all : List Report) (v : Verdict), v = s.verdictOf all →
    (∀ i, v.causes.getLsbD i = true ↔ (∃ r ∈ all, r.causes.getLsbD i = true) ∨ (i = 2 ∧ optDiffer all = true)) ∧
    (optDiffer all = true ↔ ∃ a ∈ all.flatMap (fun r => r.opt), ∃ b ∈ all.flatMap (fun r => r.opt), a ≠ b) ∧
    v.cap ≤ 16 ∧ (∀ r ∈ all, v.cap ≤ r.cap) ∧ (v.cap = 16 ∨ ∃ r ∈ all, v.cap = r.cap) ∧
    (∀ p, p ∈ v.lost ↔ p < s.team.seats.length ∧ s.seated p = true ∧ ((∀ r ∈ all, r.pos ≠ p) ∨ ∃ r, all.find? (fun r => decide (r.pos = p)) = some r ∧ (r.level = 2 ∨ r.level = 3))) ∧
    (s.rd TEAM_STATUS_STATE = 3 → s.rd JOB_STATUS_STATE < 2 → ∀ x, s.frame.fleet = some x → v.nextTick = x.1 ∧ v.seq = some x.2) ∧
    (s.rd TEAM_STATUS_STATE ≠ 3 ∨ 2 ≤ s.rd JOB_STATUS_STATE ∨ s.frame.fleet = none → v.seq = none ∧
      (v.kind ≠ .normal ∨ s.timetableDue = false → v.nextTick = s.frame.tickTime + BitVec.ofNat 64 (s.frameLen * 1024))) ∧
    (s.rd JOB_STATUS_STATE = 2 → s.lostMembers (s.lostIn all) = [] → (∀ r ∈ all, r.pause = 0 ∧ r.level < 2 ∧ r.image = false) →
      ((∀ r ∈ all, r.causes = 0) → optDiffer all = false → v.kind = .normal) ∧
      ((∃ r ∈ all, r.causes ≠ 0) ∨ optDiffer all = true → s.rd FRAME_STATUS_SLIP_RUN < s.rd FRAME_CFG_SLIP_LIMIT → v.kind = .slip) ∧
      ((∃ r ∈ all, r.causes ≠ 0) ∨ optDiffer all = true → s.rd FRAME_CFG_SLIP_LIMIT ≤ s.rd FRAME_STATUS_SLIP_RUN → v.kind = .pause))) ∧
  (∀ s : State, (s.frame.inHold = false → exec .verdictApply s = .next s) ∧
    (s.frame.inHold = true → ∃ (p w y : State) (v : Verdict), Passes s.holdCycles s p ∧
      (∀ x, p.team.verdict = some x → v = x) ∧
      (p.team.verdict = none → p.rd TEAM_STATUS_STATE = 2 → v.kind = (if p.rd JOB_STATUS_STATE = 3 then .pause else .slip) ∧ v.causes = 0 ∧ v.cap = p.rd LAMP_PWR_TEAM_CAP ∧
        v.nextTick = p.frame.tickTime + BitVec.ofNat 64 (p.frameLen * 1024) ∧ v.lost = []) ∧
      (p.team.verdict = none → p.rd TEAM_STATUS_STATE = 3 → v = p.verdictOf (p.allReports p.team.reports)) ∧
      (p.team.verdict = none → p.rd TEAM_STATUS_STATE < 2 → v = { p.verdictOf (p.allReports []) with lost := [] }) ∧
      y = w.pickup.leaveService ∧
      exec .verdictApply s = .next (State.standbyCopy { y with
        team := { y.team with verdict := none, reports := [] }, job := { y.job with ticksSince := y.job.ticksSince + 1 } }) ∧
      w.frame.inHold = false ∧ w.frame.violated = [] ∧ w.frame.report = none ∧ w.frame.tickTime = v.nextTick ∧ w.rd LAMP_PWR_TEAM_CAP = v.cap % 32 ∧
      (v.kind = .slip → w.rd FRAME_STATUS_IN_SLIP = 1 ∧ 0 < w.rd FRAME_STATUS_SLIP_RUN) ∧
      (v.kind ≠ .slip → w.rd FRAME_STATUS_IN_SLIP = 0 ∧ w.rd FRAME_STATUS_SLIP_RUN = 0) ∧
      (w.rd JOB_SUBMIT_GO = 0 ∨ 2 ≤ w.rd JOB_STATUS_STATE ∨ w.dieUp w.lead = false → w.pickup = w) ∧
      (w.rd JOB_SUBMIT_GO = 1 → w.rd JOB_STATUS_STATE < 2 → w.dieUp w.lead = true → w.rd MODULE_STATUS_SERVICE = 1 → w.pickup = w.wr JOB_STATUS_STATE 1) ∧
      (w.rd JOB_SUBMIT_GO = 1 → w.rd JOB_STATUS_STATE < 2 → w.dieUp w.lead = true → w.rd MODULE_STATUS_SERVICE = 0 → ∀ m, m = w.manifest (w.rd JOB_SUBMIT_MANIFEST_ADDR) →
        (∀ c, w.manifestFail m = some c → ∃ x : State, x.rd JOB_STATUS_REFUSED = 1 ∧ x.rd JOB_STATUS_REFUSE_CODE = c ∧ x.rd JOB_STATUS_STATE = 0 ∧ x.rd JOB_SUBMIT_GO = 0 ∧
          x = { w with regs := x.regs } ∧ (∀ r, r ≠ .JOB_STATUS → r ≠ .JOB_SUBMIT → x.word r = w.word r) ∧
          ∃ id, w.pickup = (if c = 4 then x.raiseLead 10 17 [(4, id)] else x.raiseLead 9 17 [(4, id), (1, c)])) ∧
        (w.manifestFail m = none → w.pickup.rd JOB_STATUS_STATE = 2 ∧ w.pickup.rd JOB_STATUS_JOB_ID = m.jobId % 2 ^ 32 ∧ w.pickup.rd JOB_SUBMIT_GO = 0 ∧ w.pickup.rd FRAME_CFG_LEN = m.frameLen ∧
          w.pickup.rd FRAME_CFG_SLIP_LIMIT = m.slipLimit ∧ w.pickup.rd FRAME_CFG_DISC = m.flags % 2 ∧ w.pickup.word .FRAME_STATUS = w.word .FRAME_STATUS ∧
          w.pickup.rd MODULE_STATUS_OWNER_STATE = 1 ∧ w.pickup.items = [] ∧ w.pickup.job.owner = m.owner ∧
          w.pickup.regions = (List.range m.nRegions).map (fun i => (i, w.regionEntry m i)))))) ∧
  (∀ y : State,
    (y.rd MODULE_STATUS_SERVICE ≠ 1 ∨ y.rd MODULE_STATUS_DIE_FAILED ≠ 0 ∨ (∃ i < 6, y.agreed i = 0) ∨ (y.rd MODULE_STATUS_UNTESTED = 1 ∧ y.rd POLICY_ALLOW_UNTESTED ≠ 1) ∨
      y.rd POLICY_HOLD_SERVICE = 1 → y.leaveService = y) ∧
    (y.rd MODULE_STATUS_SERVICE = 1 → y.rd MODULE_STATUS_DIE_FAILED = 0 → (∀ i < 6, y.agreed i ≠ 0) → y.rd MODULE_STATUS_UNTESTED ≠ 1 ∨ y.rd POLICY_ALLOW_UNTESTED = 1 →
      y.rd POLICY_HOLD_SERVICE ≠ 1 → y.leaveService = (y.wr MODULE_STATUS_SERVICE 0).joinTeam))

/-- R65: the validation of a staged Timetable ends with VALID, or with INVALID, READY 0, the number of the first check that failed in FAIL_CODE, and
EV_TIMETABLE_INVALID. A valid one has the agreed format, its CRC, the ID after the active one, at most 768 work, 1,024 link slot and 416 stream
entries, reserved fields of 0, and a next length of 0 or of 64 to 16,384 units. Nothing happens where none is being validated. (Model's choices in it:
log entry 13.) -/
def Obligations.ValidationEndsWithValidOrAFailCode : Prop :=
  ∀ (s : State) (d : Nat),
    ((s.die d).validating = false ∨ s.dieUp d = false → exec (.timetableValidated d) s = .next s) ∧
    ((s.die d).validating = true → s.dieUp d = true → ∃ u : State, u.die d = { s.die d with validating := false } ∧ (∀ e, e ≠ d → u.die e = s.die e) ∧
      u = { s with dies := u.dies, regs := u.regs } ∧ (∀ r, r ≠ .TT_CTRL d → u.word r = s.word r) ∧ (∀ a, u.byteAt a = s.byteAt a) ∧
      (s.ttFail d = none → exec (.timetableValidated d) s = .next u ∧ u.rd (TT_CTRL_VALID d) = 1 ∧ u.rd (TT_CTRL_INVALID d) = s.rd (TT_CTRL_INVALID d) ∧
        u.rd (TT_CTRL_READY d) = s.rd (TT_CTRL_READY d)) ∧
      (∀ c, s.ttFail d = some c → exec (.timetableValidated d) s = .next (u.raise (mkEv 3 d 0xFF 17 0 [(4, (s.timetable (stagingBuf d)).id), (1, c)])) ∧
        1 ≤ c ∧ c ≤ 9 ∧ u.rd (TT_CTRL_INVALID d) = 1 ∧ u.rd (TT_CTRL_READY d) = 0 ∧ u.rd (TT_CTRL_FAIL_CODE d) = c ∧ u.rd (TT_CTRL_VALID d) = s.rd (TT_CTRL_VALID d))) ∧
    (∀ t, t = s.timetable (stagingBuf d) → s.ttFail d = none → t.format ≠ 0 ∧ t.format = field (s.rd MODULE_VERSIONS_V) 24 8 ∧ t.id = (s.rd (TT_CTRL_ACTIVE_ID d) + 1) % 2 ^ 32 ∧
      t.nWork ≤ 768 ∧ t.nSlot ≤ 1024 ∧ t.nStream ≤ 416 ∧ t.rsv = 0 ∧ (t.nextLen = 0 ∨ (64 ≤ t.nextLen ∧ t.nextLen ≤ 16384)) ∧
      (t.length ≤ 65536 → crc32c ((s.bytesAt (stagingBuf d) t.length).take 16 ++ leBytes 4 0 ++ (s.bytesAt (stagingBuf d) t.length).drop 20) = t.crc) ∧
      (∀ e ∈ t.work, e.flags < 2 ∧ e.entry % 8 = 0 ∧ 1 ≤ e.count ∧ s.coreExists d e.core = true ∧ e.item ≤ 7) ∧ (∀ e ∈ t.streams, s.chanExists d e.chan = true))

/-- R383, R394, R469, R473, R474: once the management plane has written the image of every die that serves, IMAGE_STATUS names its frame, is VALID and no longer BUSY,
with EV_IMAGE_DONE. An image's header holds its format, die, frame and section count; no byte beyond the image area changes. A spare that has its
copies sets the live bits of its regions and mirrors, raises EV_RESTORE_DONE and asks to resume; one without regions learns them from the manifest
first. LIVE of an enabled shard's table entry is its region's live bit, and a restored one takes the mirrored STEP, with PEND where its update had not
committed. Neither happens where no image is being written and no restore runs. The sections' bytes and the count of bytes are free (log entry 30). -/
def Obligations.ImagesAreDoneAndSparesRestored : Prop :=
  ∀ s : State,
    (s.job.snap = none ∨ s.rd IMAGE_STATUS_BUSY = 0 ∨ s.job.imageAt ≠ [] → exec .imageDone s = .next s) ∧
    (∀ z, s.job.snap = some z → s.rd IMAGE_STATUS_BUSY = 1 → s.job.imageAt = [] → ∃ u v : State, v = (s.dieList.filter s.dieUp).foldl (fun s d => s.writeImage d z.seq) s ∧
      v = { s with mem := v.mem, undef := v.undef, job := { s.job with imageAt := v.job.imageAt }, fresh := v.fresh } ∧
      u = { v with regs := u.regs } ∧ u.rd IMAGE_STATUS_SEQ = z.seq % 2 ^ 48 ∧ u.rd IMAGE_STATUS_VALID = 1 ∧ u.rd IMAGE_STATUS_BUSY = 0 ∧
      (∀ r, r ≠ .IMAGE_STATUS → u.word r = s.word r) ∧ (∀ a, u.byteAt a = v.byteAt a) ∧
      (∀ y, (∀ d ∈ s.dieList, s.dieUp d = true → ∀ i < imageBytes, s.place (s.imageBase d + i) ≠ s.place y) → u.byteAt y = s.byteAt y) ∧
      exec .imageDone s = .next ((u.raiseLead 18 17 [(6, z.seq), (4, (Config.freeWord u.fresh).toNat)]).used 1)) ∧
    (∀ d seq a, a = s.imageBase d → a % 256 = 0 → s.retiredTo (a / 256) = none → ∀ w, w = s.writeImage d seq →
      w.bytesAt a 2 = leBytes 2 (s.agreed 4) ∧ w.byteAt (a + 2) = BitVec.ofNat 8 d ∧ w.bytesAt (a + 8) 6 = leBytes 6 seq ∧ w.bytesAt (a + 16) 2 = leBytes 2 (if d = s.lead then 11 else 10)) ∧
    (∀ lives mirrors steps bytes ms,
      (s.job.restoring = false ∨ s.rd TEAM_CFG_SPARE = 0 → exec (.restoreDone ⟨lives, steps⟩ mirrors bytes ms) s = .next s) ∧
      (s.job.restoring = true → s.rd TEAM_CFG_SPARE = 1 → ∃ u w v : State, v = s.loadRegions ∧ (s.regions ≠ [] → v = s) ∧
        (s.regions = [] → ∀ m, m = s.manifest (s.rd JOB_SUBMIT_MANIFEST_ADDR) → s.accessOk m.at_ 64 = true → 1 ≤ m.nRegions → m.nRegions ≤ 65536 →
          v.regions = (List.range m.nRegions).map (fun i => (i, s.regionEntry m i)) ∧ v.job.owner = m.owner ∧ v.job.nRegions = m.nRegions) ∧
        exec (.restoreDone ⟨lives, steps⟩ mirrors bytes ms) s = .next (State.raiseLead { u with job := { u.job with restoring := false, resume := true } } 180 17
          [(1, s.rd TEAM_STATUS_POS), (6, bytes), (4, ms)]) ∧
        u = steps.foldl (fun s x => s.restoreShard x) (s.dieList.foldl (fun s d => s.refreshLive d) w) ∧
        w = { v with regions := w.regions, dies := w.dies } ∧
        ((lives.map (fun x => x.1)).Nodup → ∀ x ∈ lives, w.region x.1 = { v.region x.1 with live := x.2, prev := x.2, named := false, withheld := false, kept := false, waived := false, done := 0 }) ∧
        (∀ r, (∀ x ∈ lives, x.1 ≠ r) → w.region r = v.region r) ∧
        ((mirrors.map (fun x => x.1)).Nodup → ∀ x ∈ mirrors, tabGet (w.die (w.region x.1).die).mirrorLive x.1 false = x.2) ∧
        u = { w with mem := u.mem, undef := u.undef, regs := u.regs } ∧ (∀ r, (∀ d, r ≠ .OPT_STATUS d) → u.word r = w.word r))) ∧
    (∀ d e live flip pend step, s.setVersion d e live flip pend step = s.setBytes (shardTable d + 32 * e + 8)
      (leBytes 8 ((if live then 1 else 0) + (if flip then 2 else 0) + (if pend then 4 else 0) + (step % 2 ^ 48) * 2 ^ 16))) ∧
    (∀ d e, s.shards d = [e] → s.refreshLive d = s.setVersion d e (s.region (s.shardField d e 0 2)).live (vFlip (s.version d e)) (vPend (s.version d e)) (vStep (s.version d e))) ∧
    (∀ r step pend, (s.shardOf (s.region r).die r = none → s.restoreShard (r, step, pend) = s) ∧
      (∀ e d y, d = (s.region r).die → s.shardOf d r = some e → y = s.setVersion d e (s.region r).live false pend step →
        s.restoreShard (r, step, pend) = y.wr (OPT_STATUS_PENDING d) ((y.shards d).filter (fun e => vPend (y.version d e))).length))

/-- R75, R386 to R389, R391, R466: NORMSQ with ARM, CLOSE and HOLD are written to OPT_CTRL and wait for the next tick, where the last write of each
counts. At the tick an ARM is discarded with EV_OPT_CONFIG where the window is open or HOLD is in effect; else it opens the window where the squared
norm is at most LIMITSQ, and skips the step where it is NaN, infinite or greater. A commit list that arrives within the hold waits for cycle H; one that
is late flips the mirror on arrival and makes it current. (Model's choices in it: log entry 78.) -/
def Obligations.OptimiserOrdersWaitAndCommitListsFlipMirrors : Prop :=
  (∀ (s : State) (src : Src) (d : Nat) (n : BitVec 32) (h : Bool) (p : PendW), Reached s src (RegId.OPT_CTRL d).addr → p = assocGet s.pend (.OPT_CTRL d) pendNone →
    ∀ e ∈ [(Instr.optArm src d n, 0, 33, n.toNat + 2 ^ 32), (.optClose src d, 33, 1, 1), (.optHold src d h, 34, 1, if h then 1 else 0)], ∃ t : State, exec e.1 s = .next (t.respond src (RegId.OPT_CTRL d).addr []) ∧
      t = { s with pend := t.pend } ∧ (∀ q, q ≠ .OPT_CTRL d → assocGet t.pend q pendNone = assocGet s.pend q pendNone) ∧
      ∀ i < 64, (assocGet t.pend (.OPT_CTRL d) pendNone).mask.getLsbD i = (decide (e.2.1 ≤ i ∧ i < e.2.1 + e.2.2.1) || p.mask.getLsbD i) ∧
        (assocGet t.pend (.OPT_CTRL d) pendNone).val.getLsbD i = if e.2.1 ≤ i ∧ i < e.2.1 + e.2.2.1 then e.2.2.2.testBit (i - e.2.1) else p.val.getLsbD i) ∧
  (∀ (s : State) (d n : Nat), n = s.rd (OPT_CTRL_NORMSQ d) →
    (s.rd (OPT_CTRL_ARM d) = 0 → s.normCheck d = s) ∧
    (s.rd (OPT_CTRL_ARM d) = 1 → s.rd (OPT_STATUS_WINDOW d) ≠ 0 ∨ s.rd (OPT_CTRL_HOLD d) = 1 → s.normCheck d =
      (s.wr (OPT_CTRL_ARM d) 0).raise (mkEv 144 d 0xFF 17 0 [(4, (RegId.OPT_CTRL d).addr % 0x10000000), (8, (s.word (.OPT_CTRL d)).toNat)])) ∧
    (s.rd (OPT_CTRL_ARM d) = 1 → s.rd (OPT_STATUS_WINDOW d) = 0 → s.rd (OPT_CTRL_HOLD d) = 0 →
      (2139095040 ≤ n % 2 ^ 31 ∨ (n < 2 ^ 31 ∧ s.rd (OPT_CFG_LIMITSQ d) < n) → ∃ u : State, s.normCheck d = u.raise (mkEv 145 d 0xFF 17 0 [(4, n), (6, s.frameSeq)]) ∧
        u = { s with regs := u.regs } ∧ u.rd (OPT_STATUS_SKIPPED d) = 1 ∧ u.rd (OPT_STATUS_SKIPS d) = min (s.rd (OPT_STATUS_SKIPS d) + 1) (2 ^ 32 - 1) ∧
        u.rd (OPT_STATUS_WINDOW d) = 0 ∧ u.rd (OPT_CTRL_ARM d) = 0 ∧ (∀ r, r ≠ .OPT_CTRL d → r ≠ .OPT_STATUS d → u.word r = s.word r)) ∧
      (n % 2 ^ 31 < 2139095040 → (2 ^ 31 ≤ n ∨ n ≤ s.rd (OPT_CFG_LIMITSQ d)) → (s.normCheck d).rd (OPT_STATUS_WINDOW d) = 1 ∧ (s.normCheck d).rd (OPT_STATUS_PENDING d) = 0 ∧
        (s.normCheck d).rd (OPT_CTRL_ARM d) = 0 ∧ (s.normCheck d).rd (OPT_STATUS_SKIPS d) = s.rd (OPT_STATUS_SKIPS d)))) ∧
  (∀ (s : State) (d f : Nat) (rs : List Nat),
    (s.dieUp d = false ∨ ((s.frame.inHold = false ∨ f ≠ s.frameSeq) ∧ (s.die d).commitHeld = false) → exec (.commitList d f rs) s = .next s) ∧
    (s.dieUp d = true → s.frame.inHold = true → f = s.frameSeq → ∃ t : State, exec (.commitList d f rs) s = .next t ∧ t.die d = { s.die d with commitList := some rs } ∧
      (∀ e, e ≠ d → t.die e = s.die e) ∧ t = { s with dies := t.dies }) ∧
    (s.dieUp d = true → s.frame.inHold = false ∨ f ≠ s.frameSeq → (s.die d).commitHeld = true → ∃ t : State, exec (.commitList d f rs) s = .next t ∧
      t.rd (MIRROR_STATUS_CURRENT d) = 1 ∧ (t.die d).commitHeld = false ∧ (∀ e, e ≠ d → t.die e = s.die e) ∧
      (rs.Nodup → ∀ r, tabGet (t.die d).mirrorLive r false = if r ∈ rs then !tabGet (s.die d).mirrorLive r false else tabGet (s.die d).mirrorLive r false) ∧
      (∀ q, q ≠ .MIRROR_STATUS d → t.word q = s.word q) ∧ t = { s with dies := t.dies, regs := t.regs }))

/-- R400, R403 to R406: the Coachman compares the level-3 roots of a shard that carry the largest STEP reported; where they differ it raises
EV_DIGEST_MISMATCH and bisects. In each round it compares the children of the nodes found to differ, at levels 2, 1 and 0, and keeps those that
differ; a STEP that changed stops the bisection. Leaf j is that of block j + 1. A block of 3 or more replicas is repaired on those that differ from
the digest of a strict majority, from one that holds it, one of 2 replicas on those whose live block differs from their mirror, from that mirror, and
where that finds none EV_REPLICA_SPLIT is raised. A replica that was repaired and whose root still differs escalates to level 2 for its die. A level out
of turn, and a module that is no Coachman, change nothing. (Model's choices in it: log entries 100 and 118.) -/
def Obligations.DigestsThatDifferAreBisectedAndRepaired : Prop :=
  (∀ (s : State) (shard level : Nat) (rs : List RootReport), s.rd TEAM_STATUS_STATE ≠ 3 → exec (.digestRootReport shard level rs) s = .next s) ∧
  (∀ (s : State) (shard : Nat) (rs same : List RootReport) (m : Nat), s.rd TEAM_STATUS_STATE = 3 → (∀ r ∈ rs, r.step ≤ m) → (∃ r ∈ rs, r.step = m) →
    same = rs.filter (fun r => decide (r.step = m)) → ∃ (u : State) (es : List Nat),
    u = { s with team := { s.team with bisect := u.team.bisect, repairs := s.team.repairs.filter (fun x => decide (x.1 ≠ shard)) } } ∧
    (∀ x, x ≠ shard → u.bisection x = s.bisection x) ∧
    (∀ i, i ∈ es ↔ ∃ r ∈ same, r.replica = i ∧ (shard, i) ∈ s.team.repairs ∧ (match majority same with
      | some g => r.digest ≠ g
      | none => ∃ a ∈ same, ∃ b ∈ same, a.digest ≠ b.digest)) ∧
    (es ≠ [] → exec (.digestRootReport shard 3 rs) s = .next { u with wire := u.wire ++ es.map (fun r => .escalate shard r) } ∧ u.bisection shard = none) ∧
    (es = [] → (∀ a ∈ same, ∀ b ∈ same, a.digest = b.digest) → exec (.digestRootReport shard 3 rs) s = .next u ∧ u.bisection shard = none) ∧
    (es = [] → (∃ a ∈ same, ∃ b ∈ same, a.digest ≠ b.digest) → ∃ v t : State, exec (.digestRootReport shard 3 rs) s = .next t ∧
      v = { s with team := { s.team with repairs := s.team.repairs.filter (fun x => decide (x.1 ≠ shard)) } } ∧
      t = { v.raise (mkEv 149 s.lead 0xFF 24 0 [(4, shard), (6, m)]) with team := u.team } ∧ u.bisection shard = some (3, m, [0]))) ∧
  (∀ (s : State) (shard level : Nat) (rs : List RootReport) (l m : Nat) (ns : List Nat), s.rd TEAM_STATUS_STATE = 3 → level < 3 → s.bisection shard = some (l, m, ns) →
    (l ≠ level + 1 → exec (.digestRootReport shard level rs) s = .next s) ∧
    (l = level + 1 → ∃ u : State, u = { s with team := { s.team with bisect := u.team.bisect } } ∧ (∀ x, x ≠ shard → u.bisection x = s.bisection x) ∧
      ((∃ r ∈ rs, r.step ≠ m) → exec (.digestRootReport shard level rs) s = .next u ∧ u.bisection shard = none) ∧
      ((∀ r ∈ rs, r.step = m) → ∃ ds : List Nat, (∀ i, i ∈ ds ↔ ∃ a ∈ rs, ∃ b ∈ rs, a.index = i ∧ b.index = i ∧ a.digest ≠ b.digest) ∧
        (0 < level → exec (.digestRootReport shard level rs) s = .next u ∧ u.bisection shard = if ds = [] then none else some (level, m, ds)) ∧
        (level = 0 → u.bisection shard = none ∧ ∃ t : State, exec (.digestRootReport shard level rs) s = .next t ∧
          t = ds.foldl (fun v b => v.judgeBlock shard (b + 1) (rs.filter (fun r => decide (r.index = b)))) u ∧
          t.wire = s.wire ++ ds.flatMap (fun b => (badReplicas (rs.filter (fun r => decide (r.index = b)))).map (fun r =>
            .repair shard (b + 1) r (goodCopy (rs.filter (fun r => decide (r.index = b))) r).1 (goodCopy (rs.filter (fun r => decide (r.index = b))) r).2)) ∧
          (∀ x, x ∈ t.team.repairs ↔ x ∈ s.team.repairs ∨ (x.1 = shard ∧ ∃ b ∈ ds, x.2 ∈ badReplicas (rs.filter (fun r => decide (r.index = b))))) ∧
          (∀ a, t.byteAt a = s.byteAt a))))) ∧
  (∀ (s : State) (shard block : Nat) (rs : List RootReport),
    (∀ g : BitVec 64, rs.length < 2 * (rs.filter (fun x => decide (x.digest = g))).length → majority rs = some g) ∧
    ((∀ g : BitVec 64, 2 * (rs.filter (fun x => decide (x.digest = g))).length ≤ rs.length) → majority rs = none) ∧
    (∀ g : BitVec 64, 3 ≤ rs.length → rs.length < 2 * (rs.filter (fun x => decide (x.digest = g))).length →
      (∀ i, i ∈ badReplicas rs ↔ ∃ r ∈ rs, r.replica = i ∧ r.digest ≠ g) ∧ ∀ i, ∃ r ∈ rs, r.digest = g ∧ goodCopy rs i = (r.replica, false)) ∧
    (3 ≤ rs.length → (∀ g : BitVec 64, 2 * (rs.filter (fun x => decide (x.digest = g))).length ≤ rs.length) → badReplicas rs = []) ∧
    (rs.length < 3 → (∀ i, i ∈ badReplicas rs ↔ ∃ r ∈ rs, r.replica = i ∧ r.digest ≠ r.mirror) ∧ ∀ i, goodCopy rs i = (i, true)) ∧
    (badReplicas rs = [] → s.judgeBlock shard block rs = s.raise (mkEv 151 s.lead 0xFF 24 0 [(4, shard), (2, block)])) ∧
    (badReplicas rs ≠ [] → ∃ ps : List (Nat × Nat), s.judgeBlock shard block rs = { s with
        wire := s.wire ++ (badReplicas rs).map (fun r => .repair shard block r (goodCopy rs r).1 (goodCopy rs r).2), team := { s.team with repairs := ps } } ∧
      ∀ x, x ∈ ps ↔ x ∈ s.team.repairs ∨ (x.1 = shard ∧ x.2 ∈ badReplicas rs)))

/-- R38, R39, R41, R455 to R459: firmware of the management core takes a queued entry of its die's ledger, one at a time, marks the active entry done, and
closes one that is active or awaits commit; a command that does not fit the entry's state, and one of another source, changes nothing and raises
EV_LATCH_BUSY_WRITE. Closing an entry of a core releases the core unless another open entry of level 1 keeps it, or fences it at the third closing
within 65,536 frames; then the oldest held event is entered. Die 1 takes the lead over, with EV_LEAD_TAKEOVER, and the accesses held meanwhile
complete in arrival order. (Model's choices in it: log entry 99.) -/
def Obligations.LedgerEntriesAreHandledAndDieOneTakesTheLead : Prop :=
  (∀ (s : State) (src : Src) (d a : Nat) (e : BitVec 6) (st : Nat), a = (RegId.LEDGER_CTRL d).addr → Reached s src a → st = s.rd (LEDGER_FRAME_STATE d e.toNat) →
    (src ≠ .mgmt d ∨ st ≠ 1 ∨ (∃ i < 64, s.rd (LEDGER_FRAME_STATE d i) = 2) → exec (.ledgerTake src d e) s = .next ((s.raise (mkEv 1 d 0xFF 17 0 [(6, a), (1, 17)])).respond src a [])) ∧
    (src ≠ .mgmt d ∨ st ≠ 2 → exec (.ledgerDone src d e) s = .next ((s.raise (mkEv 1 d 0xFF 17 0 [(6, a), (1, 17)])).respond src a [])) ∧
    (src ≠ .mgmt d ∨ (st ≠ 2 ∧ st ≠ 3) → exec (.ledgerClose src d e) s = .next ((s.raise (mkEv 1 d 0xFF 17 0 [(6, a), (1, 17)])).respond src a [])) ∧
    (src = .mgmt d → st = 1 → (∀ i < 64, s.rd (LEDGER_FRAME_STATE d i) ≠ 2) → ∃ t : State, exec (.ledgerTake src d e) s = .next t ∧ t.rd (LEDGER_FRAME_STATE d e.toNat) = 2 ∧
      (∀ r, r ≠ .LEDGER_FRAME d e.toNat → t.word r = s.word r) ∧ t = { s with regs := t.regs }) ∧
    (src = .mgmt d → st = 2 → ∃ t : State, exec (.ledgerDone src d e) s = .next t ∧ t.rd (LEDGER_FRAME_STATE d e.toNat) = 3 ∧
      (∀ r, r ≠ .LEDGER_FRAME d e.toNat → t.word r = s.word r) ∧ t = { s with regs := t.regs }) ∧
    (src = .mgmt d → st = 2 ∨ st = 3 → ∃ w u : State, exec (.ledgerClose src d e) s = .next (u.admitHeld d) ∧ w.rd (LEDGER_FRAME_STATE d e.toNat) = 0 ∧
      (∀ r, r ≠ .LEDGER_FRAME d e.toNat → w.word r = s.word r) ∧ w = { s with regs := w.regs, cores := w.cores } ∧
      ((∀ x c, s.entryDom d e.toNat ≠ .core x c) ∨ (levelOf (s.rd (LEDGER_NUMBER d e.toNat))).2 = true → u = w ∧ w.cores = s.cores) ∧
      (∀ x c, s.entryDom d e.toNat = .core x c → (levelOf (s.rd (LEDGER_NUMBER d e.toNat))).2 = false → (isCtl c = true → u = w ∧ w.cores = s.cores) ∧
        (isCtl c = false → (∀ k, k ≠ coreKey x c → tabGet w.cores k coreReset = tabGet s.cores k coreReset) ∧
          (w.core x c).closings = (s.core x c).closings.filter (fun f => decide (s.frameSeq < f + 65536)) ++ [s.frameSeq] ∧
          ((w.core x c).parked = true ↔ (s.core x c).parked = true ∧ ∃ i < 64, (x, i) ≠ (d, e.toNat) ∧ s.rd (LEDGER_FRAME_STATE x i) ≠ 0 ∧ (levelOf (s.rd (LEDGER_NUMBER x i))).2 = false ∧ s.entryDom x i = .core x c) ∧
          w.core x c = { s.core x c with closings := (w.core x c).closings, parked := (w.core x c).parked } ∧
          u = if 3 ≤ (w.core x c).closings.length then w.fenceCore x c else w)))) ∧
  (∀ (u : State) (d : Nat), ((u.die d).held = [] → u.admitHeld d = u) ∧
    ∀ x r, (u.die d).held = x :: r → u.admitHeld d = ((u.modDie d (fun y => { y with held := r })).enterError d x).releaseUnit d x) ∧
  (∀ (s : State) (ms : Nat), (s.job.takeover = false ∨ s.dieUp 1 = false → exec (.leadTakeover ms) s = .next s) ∧
    (s.job.takeover = true → s.dieUp 1 = true → ∃ u : State, exec (.leadTakeover ms) s = .next (s.job.held.foldl (fun v c => v.serveHeld c) (u.raise (mkEv 14 1 0xFF 17 0 [(2, min ms 65535)]))) ∧
      u.rd MODULE_LEAD_LEAD_DIE = 1 ∧ u.rd MODULE_LEAD_DIE1_READY = 0 ∧ u.rd MODULE_LEAD_TAKEOVER = 1 ∧ u.rd MODULE_LEAD_TAKEOVER_MS = min ms 65535 ∧ u.rd MODULE_LEAD_TAKEOVER_EN = s.rd MODULE_LEAD_TAKEOVER_EN ∧
      (∀ r, r ≠ .MODULE_LEAD → u.word r = s.word r) ∧ u = { s with regs := u.regs, job := { s.job with takeover := false, held := [] } })) ∧
  (∀ (s t : State) (src : Src) (p : Packet) (a : BitVec 48) (w : Word) (ok : Bool) (n : Nat) (arg : BitVec 16) (mr : BitVec 4) (h : BitVec 21) (c : Instr),
    c ∈ [.registerRead src p, .registerWrite src p w, .rcRead src a, .jobSubmit src w, .resume src, .jobEnd src, .image src, .restore src, .teamJoin src w, .bypassClose src w,
      .powerRequest src w, .calendarSet src w, .eventRingEnable src w, .fwCommit src, .arbRaise src, .ruleEnable src n w, .filterConfig src n w,
      .readCounters src arg, .readErrorHistory src arg, .readRetirementList src arg, .addRetirementEntry src arg, .attestReport src a, .mrExtend src mr a, .fwUpdate src a ok,
      .eventRingHead src h] → exec c s = .next t → s.serveHeld c = t)

/-- R34, R310, R314, R318, R327, R344, R345: the descriptor that comes to the head of its channel is checked; one that fails is due a record with STATUS
ERROR and the CODE of the check, with EV_DRAY_DESC, and moves no data. A streamed one takes 1 from the empty semaphore of its stream's pair, after the
units and the sequencer of the core and after the channels of lower number that wait for it, or waits; a tile operation takes a tile stage, or waits while
all 16 are held or others wait. A freed stage goes to the most urgent waiting channel. An event for a channel that is not there, waits with an event
record, or has no such descriptor, changes nothing. (Model's choices in it: log entries 20 and 115.) -/
def Obligations.DescriptorsAreCheckedAndTakeTheirCreditAndStage : Prop :=
  (∀ (s : State) (d n : Nat), s.chanExists d n = false ∨ s.dieUp d = false ∨ s.chanWaits d n = true ∨ s.nextRun d n = none → exec (.descriptorStart d n) s = .next s) ∧
  (∀ (s : State) (d n i : Nat) (r : DRun) (x : Desc), s.chanExists d n = true → s.dieUp d = true → s.chanWaits d n = false → s.nextRun d n = some i → (s.chan d n).q[i]? = some r → x = r.desc →
    r.started = false ∧ (s.chan d n).live = true ∧ (s.chan d n).pausing = false ∧ (∀ j < i, ∀ y, (s.chan d n).q[j]? = some y → y.started = true) ∧
    (∀ y, (s.chan d n).q[i - 1]? = some y → 0 < i → y.status.isSome = true ∨ y.readsDone y.desc = true) ∧
    (∀ code, s.descFail d n x = some code → exec (.descriptorStart d n) s =
      .next ((((s.modRun d n i (fun y => { y with started := true, status := some (1, code) })).raiseFor d (chanEv 128 d n [(2, n), (4, r.seq), (1, code)]) r.owner).flushAll d n).settlePause d n)) ∧
    (s.descFail d n x = none → x.stream = 0xFFFF → exec (.descriptorStart d n) s = .next (s.startRun d n i)) ∧
    (s.descFail d n x = none → x.stream ≠ 0xFFFF → (s.chan d n).streamBad = true → exec (.descriptorStart d n) s = .next s) ∧
    (s.descFail d n x = none → x.stream ≠ 0xFFFF → (s.chan d n).streamBad = false → exec (.descriptorStart d n) s = .next (s.takeCredit d n i))) ∧
  (∀ (s : State) (d n : Nat) (x : Desc), (∀ code, s.descFail d n x = some code → code = 2 ∨ code = 3) ∧ (x.op = 0 → (s.descFail d n x = none ↔ x.rsv = false ∧ x.xfmt = 0 ∧ x.aux = 0 ∧ x.xpar = 0 ∧
    (∀ y ∈ [x.sw, x.dw, x.srcAddr, x.dstAddr], y % 4 = 0) ∧ (∀ y ∈ [x.s0, x.d0, x.s1, x.d1, x.s2, x.d2], y % 4 = 0) ∧ ¬ (x.srcRem = true ∧ x.dstRem = true) ∧
    (x.srcRem = true → s.moduleNamed x.srcTeam x.srcMod = true) ∧ (x.dstRem = true → s.moduleNamed x.dstTeam x.dstMod = true) ∧
    x.scnt0 * x.sw = x.dcnt0 * x.dw ∧ x.scnt0 * x.sw * x.cnt1 * x.cnt2 ≤ 2 ^ 32 ∧ (x.stream = 0xFFFF ∨ ∃ e ∈ (s.activeTT d).streams, e.chan = n ∧ e.stream = x.stream)))) ∧
  (∀ (s : State) (d n i c e : Nat), c = s.rd (DRAY_CH_SCFG_CORE d n) → e = s.rd (DRAY_CH_SCFG_PAIR d n) + 1 →
    (s.emptyLeft d n ≤ s.semv d c e) ∧
    ((∀ u x r, (s.core d c).queue u = x :: r → s.headReady d c u x = false) → (∀ m k, (s.core d c).blocked ≠ .semWait m k) → s.emptyLeft d n = s.semv d c e) ∧
    ((∀ m < n, m ∈ s.channels d → s.creditWaits d m = false ∨ s.rd (DRAY_CH_SCFG_CORE d m) ≠ c ∨ s.rd (DRAY_CH_SCFG_PAIR d m) + 1 ≠ e) → s.creditsAhead d n = 0) ∧
    (s.emptyLeft d n ≤ s.creditsAhead d n → s.takeCredit d n i = s.modChan d n (fun y => { y with waitCredit := true })) ∧
    (s.creditsAhead d n < s.emptyLeft d n → ∃ v : State, s.takeCredit d n i = (v.modRun d n i (fun y => { y with credit := true })).startRun d n i ∧ Takes d c e 1 s v ∧
      v.chan d n = { s.chan d n with fill := (s.chan d n).fill + 1, waitCredit := false } ∧ v = { s with cores := v.cores, chans := v.chans } ∧
      (∀ k, k ≠ chanKey d n → tabGet v.chans k chanReset = tabGet s.chans k chanReset))) ∧
  (∀ (s : State) (d n i : Nat), s.takeStage d n i =
    ((s.modDie d (fun y => { y with stages := y.stages ++ [n] })).modRun d n i (fun y => { y with stage := true, started := true })).pump d n i) ∧
  (∀ (s : State) (d n i : Nat) (r : DRun), (s.chan d n).q[i]? = some r →
    (r.desc.tiled = false ∨ r.stage = true → s.startRun d n i = (s.modRun d n i (fun y => { y with started := true })).pump d n i) ∧
    (r.desc.tiled = true → r.stage = false → (s.die d).stages.length < 16 → (s.die d).stageWait = [] → s.startRun d n i = s.takeStage d n i) ∧
    (r.desc.tiled = true → r.stage = false → 16 ≤ (s.die d).stages.length ∨ (s.die d).stageWait ≠ [] → ((s.startRun d n i).chan d n).waitStage = true ∧ ((s.startRun d n i).chan d n).q = (s.chan d n).q ∧
      (∀ k, k ∈ ((s.startRun d n i).die d).stageWait ↔ k = n ∨ k ∈ (s.die d).stageWait) ∧ s.startRun d n i = { s with chans := (s.startRun d n i).chans, dies := (s.startRun d n i).dies })) ∧
  (∀ (s : State) (d n : Nat), ((s.chan d n).waitCredit = false ∨ s.dieUp d = false ∨ (s.chan d n).live = false ∨ (s.chan d n).pausing = true ∨ (s.chan d n).streamBad = true ∨ s.chanWaits d n = true →
      exec (.streamCreditTake d n) s = .next s) ∧
    (∀ i r, (s.chan d n).waitCredit = true → s.dieUp d = true → (s.chan d n).live = true → (s.chan d n).pausing = false → (s.chan d n).streamBad = false → s.chanWaits d n = false →
      (s.chan d n).q[i]? = some r → r.started = false →
      (∀ j < i, ∀ y, (s.chan d n).q[j]? = some y → y.started = true) → exec (.streamCreditTake d n) s = .next (s.takeCredit d n i))) ∧
  (∀ (s : State) (d n : Nat), (16 ≤ (s.die d).stages.length ∨ s.dieUp d = false ∨ s.chanWaits d n = true ∨ n ∉ (s.die d).stageWait ∨ (∃ m ∈ (s.die d).stageWait, s.urgency d m < s.urgency d n) →
      exec (.tileStageGrant d n) s = .next s) ∧
    (∀ i r, (s.die d).stages.length < 16 → s.dieUp d = true → s.chanWaits d n = false → n ∈ (s.die d).stageWait → (s.die d).stageWait.Pairwise (· < ·) →
      (∀ m ∈ (s.die d).stageWait, s.urgency d n < s.urgency d m ∨ (s.urgency d n = s.urgency d m ∧ n ≤ m)) → (s.chan d n).q[i]? = some r → r.started = false →
      (∀ j < i, ∀ y, (s.chan d n).q[j]? = some y → y.started = true) → ∃ v : State, exec (.tileStageGrant d n) s = .next (v.takeStage d n i) ∧ v.chan d n = { s.chan d n with waitStage := false } ∧
      v.die d = { s.die d with stageWait := (s.die d).stageWait.filter (fun k => decide (k ≠ n)) } ∧ v = { s with chans := v.chans, dies := v.dies }))

/-- R315, R316, R413: the next write of a running channel is accepted at its home in loop order: its bytes alone change, as long as they lie in no
region with versions, and the run goes on, having given its tile stage up with its last write (R318). A write that has been sent to another module is
accepted there when the accept returns, whether or not the channel still runs, the oldest first. Data of another module returns in loop order. What
comes for a descriptor that has been cancelled answers its request and does nothing else (R335); a packet for another module goes on over the route to
it (R429). Events that no access of the channel answers to change nothing. (Model's choices in it: log entries 21 and 110.) -/
def Obligations.WritesAreAcceptedAndDataReturns : Prop :=
  (∀ (s : State) (d n l : Nat) (p : Packet) (bs : List Byte),
    (s.forHere p = true → exec (.writeAccept d ⟨n, some (l, p)⟩) s = exec (.writeAccept d ⟨n, none⟩) s ∧ exec (.readResponse d ⟨n, some (l, p)⟩ bs) s = exec (.readResponse d ⟨n, none⟩ bs) s) ∧
    (s.forHere p = false → (s.dieUp d = false ∨ s.linkUp d l = false → exec (.writeAccept d ⟨n, some (l, p)⟩) s = .next s ∧ exec (.readResponse d ⟨n, some (l, p)⟩ bs) s = .next s) ∧
      (s.dieUp d = true → s.linkUp d l = true → exec (.writeAccept d ⟨n, some (l, p)⟩) s = .next (s.passBack d l 3 p []) ∧ exec (.readResponse d ⟨n, some (l, p)⟩ bs) s = .next (s.passBack d l 1 p bs)))) ∧
  (∀ (s : State) (d n : Nat), (s.dieUp d = false ∨ s.chanWaits d n = true → exec (.writeAccept d ⟨n, none⟩) s = .next s) ∧
    (s.dieUp d = true → s.chanWaits d n = false → s.writer d n = none → exec (.writeAccept d ⟨n, none⟩) s = .next (if s.lateWrites d n then s.answered d n 2 else s)) ∧
    ∀ (i : Nat) (r : DRun), s.dieUp d = true → s.chanWaits d n = false → s.writer d n = some i → (s.chan d n).q[i]? = some r →
      (s.dstFar r.desc = true → s.lateWrites d n = true → exec (.writeAccept d ⟨n, none⟩) s = .next (s.answered d n 2)) ∧
      (s.dstFar r.desc = true → s.lateWrites d n = false → r.sent = [] → exec (.writeAccept d ⟨n, none⟩) s = .next s) ∧
      (∀ w ws, s.dstFar r.desc = true → s.lateWrites d n = false → r.sent = w :: ws → ∃ v : State, exec (.writeAccept d ⟨n, none⟩) s = .next (v.pumpAll d n) ∧ (v.chan d n).retry = 0 ∧
        StageGiven d n i s v { r with sent := ws, wr := r.wr + 1, bytes := r.bytes + w.2.length } ∧ v = { s with links := v.links, chans := v.chans, dies := v.dies }) ∧
      (s.dstFar r.desc = false → (s.chan d n).live = false → exec (.writeAccept d ⟨n, none⟩) s = .next s) ∧
      (s.dstFar r.desc = false → (s.chan d n).live = true → ∀ u : State, u = s.advance d n i (advanceFuel r.desc) → ∀ (y : DRun) (w : Nat × List Byte), (u.chan d n).q[i]? = some y → w = y.nextWrite r.desc →
        (y.writeReady r.desc = false ∨ (u.chan d n).live = false → exec (.writeAccept d ⟨n, none⟩) s = .next u) ∧
        (y.writeReady r.desc = true → (u.chan d n).live = true → ∀ p, p = u.runAddr y true w.1 →
          (u.repartWaits p w.2.length = true → exec (.writeAccept d ⟨n, none⟩) s = .next u) ∧
          (u.repartWaits p w.2.length = false → u.reachable d p w.2.length = false → exec (.writeAccept d ⟨n, none⟩) s =
            .next ((u.modRun d n i (fun z => { z with accessed := true })).deadAccess d n i 1 w.1 (u.hole p w.2.length) false)) ∧
          (u.repartWaits p w.2.length = false → u.reachable d p w.2.length = true → u.slotAt w.1 = none → u.slotAt p = none → u.storeBarred false p w.2.length = false →
            overlaps p w.2.length (shardTable (dieOf p)) 0x20000 = false → ∃ v : State, exec (.writeAccept d ⟨n, none⟩) s = .next (v.pumpAll d n) ∧
            (v.chan d n).retry = 0 ∧ StageGiven d n i u v (y.issued r.desc w).accepted ∧
            (∀ q, (∀ e c b, q ≠ .SPAD_BANK e c b) → v.word q = u.word q) ∧ v = { u with mem := v.mem, undef := v.undef, regs := v.regs, chans := v.chans, items := v.items, dies := v.dies } ∧
            (∀ a, (∀ j < w.2.length, u.place (p + j) ≠ u.place a) → v.byteAt a = u.byteAt a) ∧
            ((∀ j < w.2.length, u.place (p + j) = p + j) → ∀ j < w.2.length, v.byteAt (p + j) = w.2.getD j 0))))) ∧
  (∀ (x : Desc) (y : DRun) (w : Nat × List Byte), x.op = 0 → y.nextWrite x = (y.writeAddr x y.wi, y.hold.take x.dw) ∧ (y.writeReady x = true ↔ x.dw ≤ y.hold.length ∧ y.wi < x.dcnt0 * x.cnt1 * x.cnt2) ∧
    (y.issued x w = { y with wi := y.wi + 1, sent := y.sent ++ [w], lastAddr := w.1 + w.2.length - 4, accessed := true, hold := y.hold.drop x.dw }) ∧
    (y.sent = [] → (y.issued x w).accepted = { y.issued x w with sent := [], wr := y.wr + 1, bytes := y.bytes + w.2.length }) ∧
    ∀ i0 i1 i2 : Nat, i0 < x.dcnt0 → i1 < x.cnt1 → ∀ z : Int, z = x.dstAddr + i2 * x.d2 + i1 * x.d1 + i0 * x.d0 → 0 ≤ z → z < 2 ^ 48 → y.writeAddr x (i0 + x.dcnt0 * (i1 + x.cnt1 * i2)) = z.toNat) ∧
  (∀ (s : State) (d n : Nat) (bs : List Byte), (s.dieUp d = false ∨ s.chanWaits d n = true → exec (.readResponse d ⟨n, none⟩ bs) s = .next s) ∧
    (s.dieUp d = true → s.chanWaits d n = false → s.lateReads d n = true → exec (.readResponse d ⟨n, none⟩ bs) s = .next (s.answered d n 0)) ∧
    (s.dieUp d = true → s.chanWaits d n = false → s.lateReads d n = false →
      (∀ r ∈ (s.chan d n).q, r.started = false ∨ r.status.isSome = true ∨ s.srcFar r.desc = false ∨ r.rd ≤ r.due) → exec (.readResponse d ⟨n, none⟩ bs) s = .next s) ∧
    ∀ (i : Nat) (r : DRun), s.dieUp d = true → s.chanWaits d n = false → s.lateReads d n = false → (s.chan d n).q[i]? = some r → r.started = true → r.status = none → s.srcFar r.desc = true → r.due < r.rd →
      (∀ j < i, ∀ y : DRun, (s.chan d n).q[j]? = some y → y.started = false ∨ y.status.isSome = true ∨ s.srcFar y.desc = false ∨ y.rd ≤ y.due) →
      (bs.length ≠ (r.readAt r.desc r.due).2 → exec (.readResponse d ⟨n, none⟩ bs) s = .next s) ∧
      (bs.length = (r.readAt r.desc r.due).2 → ∃ v : State, exec (.readResponse d ⟨n, none⟩ bs) s = .next (v.pumpAll d n) ∧ v = { s with links := v.links, chans := v.chans } ∧
        (v.chan d n).retry = (if (s.chan d n).st = .halted then (s.chan d n).retry else 0) ∧ (∀ j, j ≠ i → (v.chan d n).q[j]? = (s.chan d n).q[j]?) ∧
        (r.desc.tiled = false → r.gap = false → r.ahead = [] → (v.chan d n).q[i]? = some { r with hold := r.hold ++ bs, ret := r.ret + 1 }) ∧
        (r.desc.tiled = false → r.gap = true → (v.chan d n).q[i]? = some { r with ahead := r.ahead ++ [bs] })))

/-- R325 to R327, R330, R332: an access of a running channel that returns a bus error is retried, with EV_DRAY_RETRY, up to three times; one to
another module is issued again. At the fourth the channel halts on it exactly, with EV_DRAY_HALT: the failing access is to be issued again, and reads
in flight within the module have returned into the holding register. A read that fails in a scratchpad counts in its PARITY (R287). When the read-back
returns the record is due; it is written at TAIL of its queue and counted, or held with EV_CQ_STALL while the queue takes none; its deadline, credit,
tile stage and posts follow the record. Events that no access of the channel answers to change nothing. (Model's choices in it: log entries 21 and
110.) -/
def Obligations.AccessesAreRetriedAndRecordsWritten : Prop :=
  (∀ (s : State) (d n k : Nat), (s.chanExists d n = false ∨ s.dieUp d = false ∨ (s.chan d n).st ≠ .running ∨ s.chanWaits d n = true ∨ 3 ≤ k → exec (.drayAccessError d n k) s = .next s) ∧
    (s.chanExists d n = true → s.dieUp d = true → (s.chan d n).st = .running → s.chanWaits d n = false →
      (∀ (i : Nat) (r : DRun) a, (s.chan d n).q[i]? = some r → r.started = true → r.status = none → r.readBack = false → r.due < r.rd →
        (∀ j < i, ∀ y : DRun, (s.chan d n).q[j]? = some y → y.started = false ∨ y.status.isSome = true ∨ y.readBack = true ∨ y.rd ≤ y.due) → a = (r.readAt r.desc r.due).1 →
        exec (.drayAccessError d n 0) s = .next (if s.srcFar r.desc then s.farFails d n i 0 (s.readReq d n r r.due) else (s.spadParity (s.runAddr r false a)).busError d n i 0 a true)) ∧
      ((∀ y ∈ (s.chan d n).q, y.started = false ∨ y.status.isSome = true ∨ y.readBack = true ∨ y.rd ≤ y.due) → exec (.drayAccessError d n 0) s = .next s) ∧
      (s.writer d n = none → exec (.drayAccessError d n 1) s = .next s) ∧
      (∀ (i : Nat) (r : DRun), s.writer d n = some i → (s.chan d n).q[i]? = some r →
        (s.dstFar r.desc = false → exec (.drayAccessError d n 1) s = .next (s.busError d n i 1 (r.nextWrite r.desc).1 false)) ∧
        (∀ w ws, s.dstFar r.desc = true → r.sent = w :: ws → exec (.drayAccessError d n 1) s = .next (s.farFails d n i 1 (s.writeReq d n r r.wr w))) ∧
        (s.dstFar r.desc = true → r.sent = [] → exec (.drayAccessError d n 1) s = .next s)) ∧
      (∀ r : DRun, (s.chan d n).q[0]? = some r → r.readBack = true → r.status = none →
        exec (.drayAccessError d n 2) s = .next (if s.dstFar r.desc then s.farFails d n 0 2 (s.backReq d n r) else s.busError d n 0 2 r.lastAddr true)) ∧
      ((∀ r : DRun, (s.chan d n).q[0]? = some r → r.readBack = false ∨ r.status ≠ none) → exec (.drayAccessError d n 2) s = .next s))) ∧
  (∀ (s : State) (d n i k : Nat) (q : Req) (v : State), v = (s.answered d n q.type).busError d n i k q.p.addr.toNat true →
    s.answered d n q.type = { s with links := (s.answered d n q.type).links } ∧
    s.farFails d n i k q = if (v.chan d n).st = .running then (if (v.request q).2 then (v.request q).1 else v.deadAccess d n i k q.p.addr.toNat false true) else v) ∧
  (∀ (s : State) (a : Nat), (∀ c o, coreSpaceOf a = some (c, o) → o < 0xC0000 → s.spadParity a = s.count (SPAD_STAT_PARITY (dieOf a) c) 1) ∧
    ((∀ c o, coreSpaceOf a = some (c, o) → 0xC0000 ≤ o) → s.spadParity a = s)) ∧
  (∀ (s : State) (d n i k a : Nat) (flying : Bool),
    ((s.chan d n).retry < 3 → s.busError d n i k a flying =
      (s.modChan d n (fun c => { c with retry := c.retry + 1, errAddr := a % 2 ^ 48, errKind := k })).raise (chanEv 129 d n [(2, n), (6, a % 2 ^ 48), (1, k)])) ∧
    (3 ≤ (s.chan d n).retry → ∃ (u : State) (z : DRun), z = ((s.chan d n).q[i]?).getD runNone ∧
      s.busError d n i k a flying = u.raiseFor d (chanEv 130 d n [(2, n), (6, a % 2 ^ 48), (1, k)]) z.owner ∧
      u.chan d n = { s.chan d n with st := .halted, errAddr := a % 2 ^ 48, errKind := k, failed := some z.seq, failIdx := if k = 0 then z.rd else z.wr, q := (u.chan d n).q } ∧
      u = { s with chans := u.chans, regs := u.regs } ∧ (∀ r, (∀ e c b, r ≠ .SPAD_BANK e c b) → u.word r = s.word r) ∧
      (∀ (j : Nat) (r x : DRun), (s.chan d n).q[j]? = some r → r.desc.tiled = false → x = (if j = i then r.fails k flying else r) → (x.gap = true ∨ x.ahead = []) → ∃ y : DRun, (u.chan d n).q[j]? = some y ∧
        y = { x with hold := y.hold, ret := y.ret, ahead := y.ahead } ∧
        (x.started = false ∨ x.status.isSome = true ∨ x.readBack = true ∨ x.rd ≤ x.due ∨ s.srcFar x.desc = true → y = x) ∧
        (x.started = true → x.status = none → x.readBack = false → x.due ≤ x.rd → x.rd - x.due ≤ 640 → s.srcFar x.desc = false → y.due = x.rd)))) ∧
  (∀ (r : DRun) (flying : Bool), r.fails 0 flying = { r with gap := r.gap || flying } ∧ r.fails 2 flying = { r with readBack := false } ∧ r.fails 1 false = r ∧
    (r.again = [] → r.fails 1 true = { r with again := r.sent.take 1, sent := r.sent.drop 1 })) ∧
  (∀ (s : State) (d n i k a : Nat) (hole flying : Bool), s.tryDead d n i k a false flying = s.busError d n i k a flying ∧
    (∃ u, Raised s u ∧ s.tryDead d n i k a true flying = u.busError d n i k a flying) ∧
    ∃ x y z : State, x = (s.modChan d n (fun c => { c with retry := 0 })).tryDead d n i k a hole flying ∧ y = x.tryDead d n i k a hole flying ∧ z = y.tryDead d n i k a hole flying ∧
      s.deadAccess d n i k a hole flying = z.tryDead d n i k a hole flying) ∧
  (∀ (s : State) (d n : Nat), ((s.chan d n).q = [] → exec (.readBack d n) s = .next s) ∧ ∀ (r : DRun) (rest : List DRun), (s.chan d n).q = r :: rest →
    (s.dieUp d = false ∨ s.chanWaits d n = true ∨ r.readBack = false ∨ r.status ≠ none → exec (.readBack d n) s = .next s) ∧
    (s.dieUp d = true → s.chanWaits d n = false → r.readBack = true → r.status = none → ∃ v : State, exec (.readBack d n) s = .next ((v.flushAll d n).pumpAll d n) ∧ v = { s with links := v.links, chans := v.chans } ∧
      v.chan d n = { s.chan d n with q := { r with status := some (0, 0) } :: rest, retry := 0 })) ∧
  (∀ (s : State) (d n : Nat) (r : DRun) (rest : List DRun) (st code q fuel : Nat), (s.chan d n).q = r :: rest → r.status = some (st, code) → q = r.desc.cq →
    (s.cqTakes d q = true ↔ s.rd (DRAY_CQ_CTL_EN d q) = 1 ∧ (s.rd (DRAY_CQ_PTR_TAIL d q) + 2 ^ 17 - s.rd (DRAY_CQ_PTR_HEAD d q)) % 2 ^ 17 < 2 ^ s.rd (DRAY_CQ_CTL_LOG2 d q)) ∧
    (s.cqTakes d q = true → s.flush d n (fuel + 1) = (s.putRecord d n r st code).flush d n fuel) ∧
    (s.cqTakes d q = false → q ∈ (s.die d).cqHolding → s.flush d n (fuel + 1) = s) ∧
    (s.cqTakes d q = false → q ∉ (s.die d).cqHolding → s.flush d n (fuel + 1) =
      (s.modDie d (fun y => { y with cqHolding := insertAsc q y.cqHolding })).raise (mkEv 131 d 0xFF 21 q [(1, q)]))) ∧
  (∀ (s : State) (d n : Nat) (r : DRun) (st code q a : Nat) (c : State), q = r.desc.cq → a = s.rd (DRAY_CQ_BASE_BASE d q) + 32 * (s.rd (DRAY_CQ_PTR_TAIL d q) % 2 ^ s.rd (DRAY_CQ_CTL_LOG2 d q)) →
    (s.accessOk a 32 = true → c = s.setBytes a (s.recordOf n r st code)) → (s.accessOk a 32 = false → c = s.unmapped d (chanEv 2 d n []).core (chanEv 2 d n []).unit (chanEv 2 d n []).inst a n) →
    ∃ u : State, u = { c with regs := u.regs } ∧ (∀ x, u.byteAt x = c.byteAt x) ∧ u.rd (DRAY_CQ_PTR_TAIL d q) = (c.rd (DRAY_CQ_PTR_TAIL d q) + 1) % 2 ^ 17 ∧
      u.rd (DRAY_CQ_QW_QW d q) = (c.rd (DRAY_CQ_QW_QW d q) + 1) % 2 ^ 48 ∧ u.rd (DRAY_CH_CMP_CNT_CMP d n) = (c.rd (DRAY_CH_CMP_CNT_CMP d n) + 1) % 2 ^ 48 ∧
      u.rd (DRAY_CH_OK_CNT_OK d n) = (c.rd (DRAY_CH_OK_CNT_OK d n) + if st = 0 then 1 else 0) % 2 ^ 48 ∧ u.rd (DRAY_CH_ERR_CNT_ERR d n) = (c.rd (DRAY_CH_ERR_CNT_ERR d n) + if st = 1 then 1 else 0) % 2 ^ 48 ∧
      u.rd (DRAY_CH_CAN_CNT_CAN d n) = (c.rd (DRAY_CH_CAN_CNT_CAN d n) + if st = 0 ∨ st = 1 then 0 else 1) % 2 ^ 48 ∧
      ∀ v w x : State, v = (if st = 0 then u.forgetOverlap r else if r.accessed then u.forgetDst r else u) →
        w = (v.modChan d n (fun c => { c with q := c.q.drop 1, code := if st = 0 then c.code else code, st := if c.q.drop 1 = [] ∧ c.st = .running then .idle else c.st })).deadline d n r →
        x = (if r.credit then w.creditPost d n (w.rd (DRAY_CH_SCFG_PAIR d n) + if st = 0 then 0 else 1) else w) →
        s.putRecord d n r st code = (if r.stage then x.modDie d (fun y => { y with stages := y.stages.erase n }) else x).postList d r.by_ r.post) ∧
  (∀ (s t : State) (d n : Nat) (r : DRun) (rest : List DRun) (st code q a : Nat), t = s.putRecord d n r st code → q = r.desc.cq → a = s.rd (DRAY_CQ_BASE_BASE d q) + 32 * (s.rd (DRAY_CQ_PTR_TAIL d q) % 2 ^ s.rd (DRAY_CQ_CTL_LOG2 d q)) →
    st ≠ 0 → r.accessed = false → r.credit = false → r.stage = false → r.post = 0 → (s.chan d n).lastAcc ≠ some r.seq → (s.chan d n).q = r :: rest → s.accessOk a 32 = true → (∀ j < 32, s.place (a + j) = a + j) →
    (∀ j < 32, t.byteAt (a + j) = (leBytes 2 n ++ leBytes 1 st ++ leBytes 1 code ++ leBytes 2 r.desc.stream ++ leBytes 2 r.desc.tag ++ leBytes 6 s.frameSeq ++ leBytes 2 0 ++ leBytes 3 s.frame.cycle ++ leBytes 1 r.desc.op ++
      leBytes 4 r.seq ++ leBytes 6 r.bytes ++ leBytes 2 0).getD j 0) ∧ (∀ y, (∀ j < 32, s.place (a + j) ≠ s.place y) → t.byteAt y = s.byteAt y) ∧
    t.rd (DRAY_CQ_PTR_TAIL d q) = (s.rd (DRAY_CQ_PTR_TAIL d q) + 1) % 2 ^ 17 ∧ t.rd (DRAY_CQ_QW_QW d q) = (s.rd (DRAY_CQ_QW_QW d q) + 1) % 2 ^ 48 ∧
    t.rd (DRAY_CH_CMP_CNT_CMP d n) = (s.rd (DRAY_CH_CMP_CNT_CMP d n) + 1) % 2 ^ 48 ∧
    (st = 1 → t.rd (DRAY_CH_ERR_CNT_ERR d n) = (s.rd (DRAY_CH_ERR_CNT_ERR d n) + 1) % 2 ^ 48) ∧ (st = 2 → t.rd (DRAY_CH_CAN_CNT_CAN d n) = (s.rd (DRAY_CH_CAN_CNT_CAN d n) + 1) % 2 ^ 48) ∧
    (t.chan d n).q = rest ∧ (t.chan d n).code = code ∧ t = { s with mem := t.mem, undef := t.undef, regs := t.regs, chans := t.chans })

/-- R28, R295, R296, R298 to R300, R304, R306 to R308, R350 to R353, R407: a request to the memory of a die takes a tag, or waits for one: 2,048 are kept
for requests of the die and 2,048 for those of others, and 12,288 are shared; one of a requester waits for an earlier one of it to the same granule. A
line of a cache region lies in its slice, set and way: a hit is served, a write of a whole line that misses allocates it, any other miss fills it, and
a read that stays bad after three replays is filled again where the line is clean and a bus error where it is dirty. The arbiter of a controller group
grants, a cycle after it decides, the request of the smallest key, high-priority requesters first as long as their quota lasts, the lower requester on
a tie; a decision that finds no request is lost and counted. An LPDDR6 read that stays bad comes from the mirror where there is one, with a scrub, and is
an error elsewhere; a granule scrubbed again within the last 64 is retired. (Model's choices in it: log entries 12, 25 and 114.) -/
def Obligations.MemoryRequestsTakeTagsAndFillLines : Prop :=
  (∀ (s : State) (d req : Nat) (addr : BitVec 48) (len : Nat) (write : Bool) (parity : Nat) (origin : Option (Nat × Nat)) (key : BitVec 24) (cls : BitVec 2) (c : Nat) (m : MemReq),
    c = (if req < 416 then s.chanClass d req else cls.toNat) →
    m = { req := req, addr := addr.toNat, len := len, write := write, remote := decide (416 ≤ req), origin := if req < 416 then some (d, req) else origin,
          key := if req < 416 then s.urgency d req else key.toNat, high := decide (c = 1) || decide (c = 2), arrived := 0, granted := false, fill := false, refetch := false, parity := parity } →
    (s.dieUp d = false ∨ len = 0 ∨ 256 < addr.toNat % 256 + len ∨ 425 < req ∨ dieOf addr.toNat ≠ d ∨ (coreSpaceOf addr.toNat).isSome = true → exec (.memoryRequest d ⟨req, origin, key, cls⟩ addr len write parity) s = .next s) ∧
    (s.dieUp d = true → 0 < len → addr.toNat % 256 + len ≤ 256 → req ≤ 425 → dieOf addr.toNat = d → (coreSpaceOf addr.toNat).isSome = false →
      (s.accessOk addr.toNat len = false → ∃ core unit inst, exec (.memoryRequest d ⟨req, origin, key, cls⟩ addr len write parity) s = .next (s.unmapped d core unit inst addr.toNat req) ∧
        (416 ≤ req → core = 0xFF ∧ unit = (if req < 419 then 23 else 22) ∧ inst = req - 416)) ∧
      (s.accessOk addr.toNat len = true → s.canServe d m (s.die d).tagWait = true → exec (.memoryRequest d ⟨req, origin, key, cls⟩ addr len write parity) s = .next (s.serve d m)) ∧
      (s.accessOk addr.toNat len = true → s.canServe d m (s.die d).tagWait = false → ∃ t : State, exec (.memoryRequest d ⟨req, origin, key, cls⟩ addr len write parity) s = .next t ∧
        t.die d = { s.die d with tagWait := (s.die d).tagWait ++ [m] } ∧ (∀ e, e ≠ d → t.die e = s.die e) ∧ t = { s with dies := t.dies }))) ∧
  (∀ (s : State) (d l r : Nat) (m : MemReq) (earlier : List MemReq), l = ((s.die d).reqs.filter (fun x => !x.remote)).length → r = ((s.die d).reqs.filter (fun x => x.remote)).length →
    (s.canServe d m earlier = true ↔ ((if m.remote then r else l) < 2048 ∨ (l - 2048) + (r - 2048) < 12288) ∧ s.depotWaits d = false ∧ (m.req = 426 ∨ s.repartHolds d m.addr = false) ∧
      (∀ x ∈ (s.die d).reqs, x.req = m.req → x.addr / 256 = m.addr / 256 → x.write = false ∧ m.write = false) ∧ ∀ x ∈ earlier, x.req = m.req → x.addr / 256 ≠ m.addr / 256) ∧
    (s.rd (DEPOT_STATUS_REPART d) = 0 → s.repartHolds d m.addr = false) ∧
    (s.rd (DEPOT_STATUS_REPART d) = 1 → (m.addr / 256 ∈ (s.die d).wback → s.repartHolds d m.addr = true) ∧ ∀ x, s.sliceOf d m.addr = some x → x ∈ (s.die d).repart → s.repartHolds d m.addr = true)) ∧
  (∀ (s : State) (d : Nat), (s.dieUp d = false → exec (.memTagGrant d) s = .next s) ∧
    (s.dieUp d = true → ((∀ (m : MemReq) (pre post : List MemReq), (s.die d).tagWait = pre ++ m :: post → s.canServe d m pre = false) → exec (.memTagGrant d) s = .next s) ∧
      ∀ (m : MemReq) (pre post : List MemReq), (s.die d).tagWait = pre ++ m :: post → (∀ (x : MemReq) (as bs : List MemReq), pre = as ++ x :: bs → s.canServe d x as = false) → s.canServe d m pre = true →
        exec (.memTagGrant d) s = .next ((s.modDie d (fun x => { x with tagWait := pre ++ post })).serve d m))) ∧
  (∀ (s : State) (d : Nat) (m : MemReq), ((s.holdTag d m).die d) = { s.die d with reqs := (s.die d).reqs ++ [{ m with arrived := s.frame.cycle, granted := false }] } ∧
    (s.holdTag d m).rd (MEM_TAGS_PEAK d) = max (s.rd (MEM_TAGS_PEAK d)) ((s.die d).reqs.length + 1) % 2 ^ (MEM_TAGS_PEAK d).width ∧
    (∀ r, r ≠ .MEM_TAGS d → (s.holdTag d m).word r = s.word r) ∧ s.holdTag d m = { s with dies := (s.holdTag d m).dies, regs := (s.holdTag d m).regs }) ∧
  (∀ (s p : State) (d : Nat) (m : MemReq), p = s.wr (MEM_TAGS_PEAK d) (max (s.rd (MEM_TAGS_PEAK d)) ((s.die d).reqs.length + 1)) →
    (m.req = 426 → s.serve d m = p.holdTag d m) ∧ (m.req ≠ 426 → m.addr < 2 ^ 40 → s.cacheAt d (m.addr % 2 ^ 37) = none → s.serve d m = p.holdTag d { m with fill := !m.write }) ∧
    (∀ g, m.req ≠ 426 → 2 ^ 40 ≤ m.addr → g = m.addr / 256 →
      (m.write = true → m.len = 256 → s.serve d m = p.modDie d (fun x => { x with badLines := x.badLines.filter (fun b => decide (b ≠ g)) })) ∧ (m.write = true → m.len ≠ 256 → s.serve d m = p) ∧
      (m.write = false → m.parity < 4 → g ∉ (s.die d).badLines → s.serve d m = p.depotReplays d m.addr (min m.parity 3)) ∧
      (m.write = false → 4 ≤ m.parity ∨ g ∈ (s.die d).badLines →
        s.serve d m = ((p.depotReplays d m.addr 3).modDie d (fun x => { x with badLines := insertAsc g x.badLines })).depotUncorrectable d m.req m.addr m.origin))) ∧
  (∀ (s p : State) (d first count g k tag : Nat) (m : MemReq) (c : CSet), p = s.wr (MEM_TAGS_PEAK d) (max (s.rd (MEM_TAGS_PEAK d)) ((s.die d).reqs.length + 1)) → m.req ≠ 426 →
    m.addr < 2 ^ 40 → s.cacheAt d (m.addr % 2 ^ 37) = some (first, count) → g = m.addr % 2 ^ 37 / 256 →
    k = (first + g % count) * 7424 + g / count % 7424 → tag = g / count / 7424 → c = tabGet (s.die d).cache k csetNone →
    (c.find tag = none → m.write = true → m.len = 256 → s.serve d m = p.allocLine d first count (first + g % count) (g / count % 7424) { tag := tag, dirty := true, bad := false } m) ∧
    (c.find tag = none → m.write = false ∨ m.len ≠ 256 → s.serve d m = p.holdTag d { m with fill := true }) ∧
    (∀ w l, c.find tag = some w → l = tabGet c.ways w { tag := tag, dirty := false, bad := false } →
      (m.write = true → ∃ t : State, s.serve d m = t ∧ t.rd (DEPOT_COUNT_HITS d) = min (s.rd (DEPOT_COUNT_HITS d) + 1) (2 ^ 32 - 1) ∧
        tabGet (tabGet (t.die d).cache k csetNone).ways w { tag := tag, dirty := false, bad := false } = { l with dirty := true, bad := l.bad && !decide (m.len = 256) } ∧ t = { p with dies := t.dies, regs := t.regs }) ∧
      (m.write = false → l.bad = false → m.parity < 4 → s.serve d m = ((p.depotReplays d m.addr (min m.parity 3)).modSet d k (fun x => x.use w id)).count (DEPOT_COUNT_HITS d) 1) ∧
      (m.write = false → l.bad = true ∨ 4 ≤ m.parity → l.dirty = true → s.serve d m =
        ((p.depotReplays d m.addr 3).modSet d k (fun x => x.use w (fun y => { y with bad := true }))).depotUncorrectable d m.req m.addr m.origin) ∧
      (m.write = false → l.bad = true ∨ 4 ≤ m.parity → l.dirty = false → ∃ u : State, u = (p.depotReplays d m.addr 3).modSet d k (fun x => { x with ways := tabDel x.ways w }) ∧
        s.serve d m = (((u.raise (mkEv 114 d 0xFF 19 0 [(1, first + g % count), (4, g)])).lampCount (56 + d) 1).holdTag d { m with fill := true, refetch := true })))) ∧
  (∀ (s : State) (d first count slice set : Nat) (l : CLine) (m : MemReq) (c : CSet), c = tabGet (s.die d).cache (slice * 7424 + set) csetNone → ∃ t : State, t = s.allocLine d first count slice set l m ∧
    t.rd (DEPOT_COUNT_MISSES d) = min (s.rd (DEPOT_COUNT_MISSES d) + 1) (2 ^ 32 - 1) ∧ t = { s with dies := t.dies, regs := t.regs } ∧
    (c.find l.tag = none → ∃ w, (tabGet (t.die d).cache (slice * 7424 + set) csetNone).find l.tag = some w ∧ tabGet (tabGet (t.die d).cache (slice * 7424 + set) csetNone).ways w { l with dirty := false, bad := false } = l) ∧
    ((∀ v, c.ways.find? (fun e => decide (e.1 = c.way)) = some v → v.2.dirty = false) → (t.die d).reqs = (s.die d).reqs) ∧
    (∀ v, c.ways.find? (fun e => decide (e.1 = c.way)) = some v → v.2.dirty = true → ∃ b : MemReq, (t.die d).reqs = (s.die d).reqs ++ [b] ∧ b.req = 426 ∧ b.write = true ∧ b.len = 256 ∧
      b.addr = d * 2 ^ 37 + ((v.2.tag * 7424 + set) * count + (slice - first)) * 256 ∧ b.key = m.key ∧ b.high = m.high ∧ b.arrived = s.frame.cycle ∧ b.granted = false ∧ b.fill = false)) ∧
  (∀ (s : State) (d : Nat) (m : MemReq), (s.cacheAt d (m.addr % 2 ^ 37) = none → s.fillLine d m = s) ∧
    ∀ (first count g k tag : Nat) (c : CSet), s.cacheAt d (m.addr % 2 ^ 37) = some (first, count) → g = m.addr % 2 ^ 37 / 256 → k = (first + g % count) * 7424 + g / count % 7424 → tag = g / count / 7424 →
      c = tabGet (s.die d).cache k csetNone →
      (∀ w, c.find tag = some w → s.fillLine d m = s.modSet d k (fun x => x.use w (fun l => { l with dirty := l.dirty || m.write }))) ∧
      (∀ t : State, t = s.allocLine d first count (first + g % count) (g / count % 7424) { tag := tag, dirty := m.write, bad := false } m → c.find tag = none →
        s.fillLine d m = if m.refetch then t.count (DEPOT_STATUS_REFETCH d) 1 else t)) ∧
  (∀ (ms : List MemReq) (masked : Bool), (chooseReq ms masked = none ↔ ms = []) ∧ ∀ m, chooseReq ms masked = some m → m ∈ ms ∧ ms.find? (fun x => decide (x.req = m.req)) = some m ∧
    ∀ x, ms.find? (fun y => decide (y.req = x.req)) = some x → (masked = false → x.high = true → m.high = true) ∧
      (masked = true ∨ m.high = false ∨ x.high = true → m.key < x.key ∨ (m.key = x.key ∧ m.req ≤ x.req))) ∧
  (∀ (s : State) (d g : Nat) (cycle w : Int) (a : Arb) (n : Nat) (masked : Bool) (seen : List MemReq), a = tabGet (s.die d).arbs g arbReset → w = (cycle + 1) / (s.rd (ARB_CFG_WINDOW d) : Int) →
    n = (if a.window = w then a.count else 0) → masked = decide (s.rd (ARB_CFG_QUOTA d) ≤ n) → seen = ((s.die d).waitingAt g).filter (fun m => !s.sideband d m.req && decide (m.arrived < cycle)) →
    ∃ t : State, t = s.arbCycle d g cycle ∧ t = { s with dies := t.dies, regs := t.regs } ∧
      tabGet (t.die d).arbs g arbReset = { decided := (chooseReq seen masked).map (fun m => (m.req, m.high)), window := w, count := n + if (chooseReq seen masked).any (fun m => m.high) then 1 else 0 } ∧
      (a.decided = none → (t.die d).reqs = (s.die d).reqs) ∧
      (∀ r h, a.decided = some (r, h) → (∀ m ∈ (s.die d).waitingAt g, m.req ≠ r) ∨ s.sideband d r = true → (t.die d).reqs = (s.die d).reqs) ∧
      (∀ r h, a.decided = some (r, h) → (∃ m ∈ (s.die d).waitingAt g, m.req = r) → s.sideband d r = false → (t.die d).reqs = grantReq r g (s.die d).reqs) ∧
      t.rd (ARB_STAT_STALE d g) = min (s.rd (ARB_STAT_STALE d g) + if a.decided.any (fun r => !((s.die d).waitingAt g).any (fun m => decide (m.req = r.1)) || s.sideband d r.1) then 1 else 0) (2 ^ (ARB_STAT_STALE d g).width - 1) ∧
      t.rd (ARB_STAT_QMASK d g) = min (s.rd (ARB_STAT_QMASK d g) + if (chooseReq seen masked).isSome = true ∧ masked = true then 1 else 0) (2 ^ (ARB_STAT_QMASK d g).width - 1)) ∧
  (∀ (r g : Nat) (ms pre post : List MemReq) (m : MemReq), ms = pre ++ m :: post → m.req = r → m.granted = false → m.addr < 2 ^ 40 → groupOfAddr m.addr = g →
    (∀ x ∈ pre, x.req ≠ r ∨ x.granted = true ∨ 2 ^ 40 ≤ x.addr ∨ groupOfAddr x.addr ≠ g) → grantReq r g ms = pre ++ ((if m.fill then [{ m with granted := true }] else []) ++ post)) ∧
  (∀ (s : State) (d req : Nat) (addr : BitVec 48) (errs : Nat) (bad reread : Bool) (mirror : List Byte), (s.dieUp d = false ∨ s.lpddrWaits d (chanOfAddr addr.toNat) = true ∨ s.passGrant d req addr.toNat = none →
      exec (.lpddrRead d req addr errs bad reread mirror) s = .next s) ∧
    ∀ v : State, s.dieUp d = true → s.lpddrWaits d (chanOfAddr addr.toNat) = false → s.passGrant d req addr.toNat = some v → (∃ n, v = s.cycles n) ∧
    ((∀ m ∈ (v.die d).reqs, m.req ≠ req ∨ m.addr ≠ addr.toNat ∨ m.fill = false) → exec (.lpddrRead d req addr errs bad reread mirror) s = .next s) ∧
    ∀ (m : MemReq) (pre post : List MemReq), (v.die d).reqs = pre ++ m :: post → (∀ x ∈ pre, x.req ≠ req ∨ (x.addr ≠ addr.toNat ∨ x.fill = false) ∧ (x.addr / 256 ≠ addr.toNat / 256 ∨ x.write = false)) →
      m.req = req → m.addr = addr.toNat → m.fill = true → ∀ ch, ch = chanOfAddr addr.toNat → ∃ u : State,
      (u.die d) = { v.die d with reqs := pre ++ post } ∧ u.rd (LPDDR_CH_STATUS_LINK_RETRY d ch) = min (v.rd (LPDDR_CH_STATUS_LINK_RETRY d ch) + min errs 2) 65535 ∧
      u.rd (LPDDR_CH_STATUS_REREAD d ch) = (if bad then min (v.rd (LPDDR_CH_STATUS_REREAD d ch) + 1) 65535 else v.rd (LPDDR_CH_STATUS_REREAD d ch)) ∧ u = { v with dies := u.dies, regs := u.regs } ∧
      (∀ r, r ≠ .LPDDR_CH_STATUS d ch → u.word r = v.word r) ∧
      ((bad && reread) = false → exec (.lpddrRead d req addr errs bad reread mirror) s = .next (u.fillLine d m)) ∧
      (bad = true → reread = true → (∀ r b o, v.slotAt addr.toNat = some (r, b, o) → (v.region r).mirror = false) →
        exec (.lpddrRead d req addr errs bad reread mirror) s = .next ((u.lampCount (48 + d) 1).memError d 117 20 req addr.toNat m.origin)) ∧
      (∀ r b o, bad = true → reread = true → v.slotAt addr.toNat = some (r, b, o) → (v.region r).mirror = true → ∃ z : State, z = (u.lampCount (48 + d) 1).setBytes addr.toNat (mirror.take m.len) ∧
        exec (.lpddrRead d req addr errs bad reread mirror) s =
          .next (((((z.raise (mkEv 116 d 0xFF 20 ch [(6, addr.toNat)])).count (LPDDR_CH_STATUS_MIRROR d ch) 1).scrub d (addr.toNat / 256)).fillLine d m)))) ∧
  (∀ (s : State) (d g : Nat), (g ∉ (s.die d).scrub → (s.die d).scrub.length ≤ 64 → ((s.scrub d g).die d).scrub = (if (s.die d).scrub.length < 64 then (s.die d).scrub ++ [g] else (s.die d).scrub.tail ++ [g]) ∧ s.scrub d g = { s with dies := (s.scrub d g).dies }) ∧
    (g ∈ (s.die d).scrub → (∀ k < 256, s.rd (RETIRE_VALID d k) = 1 ∨ (assocGet s.pend (.RETIRE d k) pendNone).mask ≠ 0) → s.scrub d g = s.fenceFound d 119) ∧
    (g ∈ (s.die d).scrub → ∀ k < 256, s.rd (RETIRE_VALID d k) = 0 → (assocGet s.pend (.RETIRE d k) pendNone).mask = 0 → (∀ j < k, s.rd (RETIRE_VALID d j) = 1 ∨ (assocGet s.pend (.RETIRE d j) pendNone).mask ≠ 0) → ∃ u : State,
      s.scrub d g = (u.raise (mkEv 119 d 0xFF 17 0 [(6, g * 256), (1, k)])).lampCount (40 + d) 1 ∧ assocGet u.pend (.RETIRE d k) pendNone = { mask := BitVec.ofNat 64 (2 ^ 49 - 1), val := BitVec.ofNat 64 (2 ^ 48 + g * 256) } ∧
      (∀ r, r ≠ .RETIRE d k → assocGet u.pend r pendNone = assocGet s.pend r pendNone) ∧ u = { s with pend := u.pend }))

/-- R291, R298, R302, R305: a channel that retrains is counted, and one that fails is fenced, with EV_LPDDR_CH_FAILED; scratchpad blocks that were
powering up become usable unless they are off again; a change of Depot regions ends once every line it sent back has reached LPDDR6. -/
def Obligations.MemoriesBecomeReady : Prop :=
  (∀ (s : State) (d ch : Nat) (retrain fail : Bool), (s.dieUp d = false ∨ 16 ≤ ch ∨ retrain = false → exec (.periodicTracking d ch retrain fail) s = .next s) ∧
    (s.dieUp d = true → ch < 16 → retrain = true → ∃ u : State, u.rd (LPDDR_CH_STATUS_RETRAIN d ch) = min (s.rd (LPDDR_CH_STATUS_RETRAIN d ch) + 1) 255 ∧ u = { s with regs := u.regs } ∧
      (∀ r, r ≠ .LPDDR_CH_STATUS d ch → u.word r = s.word r) ∧ u.rd (LPDDR_CH_STATUS_FAILED d ch) = (if fail then 1 else s.rd (LPDDR_CH_STATUS_FAILED d ch)) ∧
      exec (.periodicTracking d ch retrain fail) s = .next (if fail then u.raise (mkEv 118 d 0xFF 20 ch [(2, ch)]) else u))) ∧
  (∀ (s : State) (d c : Nat), (s.coreExists d c = false → exec (.spadBlockReady d c) s = .next s) ∧
    (s.coreExists d c = true → ∃ t : State, exec (.spadBlockReady d c) s = .next t ∧ t.core d c = { s.core d c with powering := 0 } ∧
      (∀ i < 24, (t.rd (SPAD_PWR_READY d c)).testBit i = ((s.rd (SPAD_PWR_READY d c)).testBit i || ((s.core d c).powering.getLsbD i && !(s.rd (SPAD_PWR_OFF d c)).testBit i))) ∧
      (∀ r, r ≠ .SPAD_PWR d c → t.word r = s.word r) ∧ t = { s with regs := t.regs, cores := t.cores })) ∧
  (∀ (s : State) (d : Nat), (s.rd (DEPOT_STATUS_REPART d) = 0 ∨ (∃ m ∈ (s.die d).reqs ++ (s.die d).tagWait, m.req = 426 ∧ m.addr / 256 ∈ (s.die d).wback) → exec (.depotRepartDone d) s = .next s) ∧
    (s.rd (DEPOT_STATUS_REPART d) = 1 → (∀ m ∈ (s.die d).reqs ++ (s.die d).tagWait, m.req = 426 → m.addr / 256 ∉ (s.die d).wback) → ∃ t : State, exec (.depotRepartDone d) s = .next t ∧ t.rd (DEPOT_STATUS_REPART d) = 0 ∧ t.die d = { s.die d with repart := [], wback := [] } ∧
      (∀ e, e ≠ d → t.die e = s.die e) ∧ (∀ r, r ≠ .DEPOT_STATUS d → t.word r = s.word r) ∧ t = { s with regs := t.regs, dies := t.dies }))

/-- R28, R413, R414, R416 to R418, R427, R429: a read request for this module is answered on its link with the bytes named, a write with its accept
once the bytes are stored; one whose address is not there fails without effect, with EV_ADDR_UNMAPPED and the requester index of the port. A packet
for another module goes on by its route, where a request is noted until its answer comes back; one whose link has been down for 4 ms fails. A packet
leaves as a 32 B header and its payload in flits of 246 B, each sent at once or after those that wait. A link-reset response has its request issued
again, a register response reaches its requester. (Model's choices in it: log entries 55, 96, 98 and 119.) -/
def Obligations.PacketsAreServedOrSentOn : Prop :=
  (∀ (s : State) (d l : Nat) (p : Packet) (bs : List Byte), (s.linkHears d l = false ∨ p.len = 0 ∨ 256 < p.len → exec (.readRequest d l p) s = .next s ∧ exec (.write d l p bs) s = .next s) ∧
    (bs.length ≠ p.len → exec (.write d l p bs) s = .next s) ∧
    (s.linkHears d l = true → 0 < p.len → p.len ≤ 256 → bs.length = p.len →
      (p.dstTeam.toNat ≠ s.myTeam ∨ p.dstSlot.toNat ≠ s.mySlot → exec (.readRequest d l p) s = .next (s.sendOn d l 0 p []) ∧ exec (.write d l p bs) s = .next (s.sendOn d l 2 p bs)) ∧
      (p.dstTeam.toNat = s.myTeam → p.dstSlot.toNat = s.mySlot → ∀ (a b : Nat) (q : Packet), a = s.packetAddr p false → b = s.packetAddr p true →
        q = { p with srcDie := p.dstDie, dstDie := p.srcDie, srcTeam := p.dstTeam, srcSlot := p.dstSlot, dstTeam := p.srcTeam, dstSlot := p.srcSlot, tag := s.tag16 } →
        (s.reachable d a p.len = true → exec (.readRequest d l p) s = .next ((s.bankServed a p.len).putPacket d l 1 { q with len := p.len } (s.bytesAt a p.len))) ∧
        (s.reachable d a p.len = false → exec (.readRequest d l p) s = .next ((s.raise (mkEv 2 d 0xFF 22 l [(6, p.addr.toNat), (2, s.arrivalIndex d l)])).send (.noData d l p))) ∧
        (s.reachable d b p.len = false → exec (.write d l p bs) s = .next ((s.raise (mkEv 2 d 0xFF 22 l [(6, p.addr.toNat), (2, s.arrivalIndex d l)])).send (.noData d l p))) ∧
        (s.reachable d b p.len = true → ∃ v : State, exec (.write d l p bs) s = .next (v.putPacket d l 3 { q with len := 0 } []) ∧ v = s.packetStore p b bs ∧
          (s.slotAt b = none → s.storeBarred (fromHost p) b p.len = false → overlaps b p.len (shardTable (dieOf b)) 0x20000 = false → v = { s with mem := v.mem, undef := v.undef, regs := v.regs } ∧
            (∀ r, (∀ e c k, r ≠ .SPAD_BANK e c k) → v.word r = s.word r) ∧
            (∀ y, (∀ j < p.len, s.place (b + j) ≠ s.place y) → v.byteAt y = s.byteAt y) ∧ ((∀ j < p.len, s.place (b + j) = b + j) → ∀ j < p.len, v.byteAt (b + j) = bs.getD j 0)))))) ∧
  (∀ (s : State) (p : Packet) (w : Bool), (p.srcTeam = 0x3F → p.srcSlot = 0xF → s.packetAddr p w = p.addr.toNat) ∧ (p.cls = 1 → s.packetAddr p w = p.addr.toNat) ∧
    (p.srcTeam ≠ 0x3F → p.cls ≠ 1 → s.packetAddr p w = s.resolve (s.frameOf p.tag) w p.addr.toNat)) ∧
  (∀ (s : State) (d l type : Nat) (p : Packet) (bs : List Byte) (o : Option (Nat × Nat)), o = s.outLink p.dstTeam.toNat p.dstSlot.toNat p.srcDie.toNat p.dstDie.toNat →
    (o = none ∨ (∃ x m, o = some (x, m) ∧ (s.dieUp x = false ∨ s.routeOk d x = false)) →
      (type = 0 ∨ type = 2 ∨ type = 5 ∨ type = 6 → s.sendOn d l type p bs = (s.raise (mkEv 2 d 0xFF 22 l [(6, p.addr.toNat), (2, s.arrivalIndex d l)])).send (.noData d l p)) ∧
      (type = 1 ∨ type = 3 ∨ type = 4 ∨ 7 ≤ type → s.sendOn d l type p bs = s)) ∧
    (∀ x m, o = some (x, m) → s.dieUp x = true → s.routeOk d x = true →
      (type = 1 ∨ type = 3 ∨ type = 4 ∨ 7 ≤ type → s.sendOn d l type p bs = s.putPacket x m type p bs) ∧
      (type = 0 ∨ type = 2 ∨ type = 5 ∨ type = 6 → ((s.link x m).expired = true → s.linkUp x m = false → s.sendOn d l type p bs = (s.raise (linkEv 164 x m [(1, m), (4, 1)])).send (.noData d l p)) ∧
        ((s.link x m).expired = false ∨ s.linkUp x m = true → s.sendOn d l type p bs = (s.modLink x m (fun y => { y with transit := y.transit ++ [(type, p)] })).putPacket x m type p bs)))) ∧
  (∀ (s : State) (d l type : Nat) (p : Packet) (bs : List Byte) (mine : Nat × Packet → Prop),
    (∀ e, mine e ↔ (if type = 7 then e.1 = 5 ∨ e.1 = 6 else type = 4 ∨ type = e.1 + 1) ∧ e.2.rid = p.rid ∧ e.2.srcTeam = p.dstTeam ∧ e.2.srcSlot = p.dstSlot ∧ e.2.srcDie = p.dstDie) →
    ((∀ e ∈ (s.link d l).transit, ¬ mine e) → s.passBack d l type p bs = s.sendOn d l type p bs) ∧
    ∀ e pre post, (s.link d l).transit = pre ++ e :: post → (∀ x ∈ pre, ¬ mine x) → mine e → s.passBack d l type p bs = (s.modLink d l (fun x => { x with transit := pre ++ post })).sendOn d l type p bs) ∧
  (∀ (s : State) (d l type : Nat) (p : Packet) (bs all : List Byte), bs.length ≤ 256 →
    all = leBytes 1 type ++ leBytes 1 (p.srcDie.toNat + p.dstDie.toNat * 8 + p.cls.toNat * 64) ++ leBytes 1 p.srcTeam.toNat ++ leBytes 1 p.srcSlot.toNat ++ leBytes 1 p.dstTeam.toNat ++ leBytes 1 p.dstSlot.toNat ++
      leBytes 2 p.tag.toNat ++ leBytes 2 p.len ++ leBytes 2 p.rid.toNat ++ leBytes 2 p.req.toNat ++ leBytes 3 p.key.toNat ++ leBytes 1 0 ++ leBytes 6 p.addr.toNat ++ leBytes 8 0 ++ bs →
    all.length = 32 + bs.length ∧ (bs.length ≤ 214 → s.putPacket d l type p bs = s.sendSequenced d l 0 all) ∧
    (214 < bs.length → s.putPacket d l type p bs = (s.sendSequenced d l 0 (all.take 246)).sendSequenced d l 0 (all.drop 246))) ∧
  (∀ (s : State) (d l : Nat) (k : BitVec 4) (bs : List Byte) (x : Link), x = s.link d l → bs.length ≤ 246 →
    (s.linkUp d l = true → 0 < x.credits → x.retry.length < 2048 → x.txq = [] → ∃ f : Flit, s.sendSequenced d l k bs = { s with links := (s.sendSequenced d l k bs).links, wire := s.wire ++ [.flit d l f] } ∧
      f.tag = s.tag16 ∧ f.seq = x.txNext ∧ f.kind = k ∧ f.ack = x.rxExp - 1 ∧ f.payload.length = 246 ∧ f.payload.take bs.length = bs ∧ flitGood f = true ∧
      (s.sendSequenced d l k bs).link d l = { x with txNext := x.txNext + 1, retry := x.retry ++ [f], credits := x.credits - 1, sent := bump48 x.sent 1 }) ∧
    (s.linkUp d l = false ∨ x.credits = 0 ∨ 2048 ≤ x.retry.length → (s.sendSequenced d l k bs).link d l = { x with txq := x.txq ++ [(k, bs)] } ∧ s.sendSequenced d l k bs = { s with links := (s.sendSequenced d l k bs).links })) ∧
  (∀ (s : State) (d l : Nat) (p : Packet), (s.linkHears d l = false → exec (.linkResetResponse d l p) s = .next s) ∧
    (s.linkHears d l = true → s.forHere p = false → exec (.linkResetResponse d l p) s = .next (s.passBack d l 4 p [])) ∧
    (s.linkHears d l = true → s.forHere p = true → (∀ r ∈ (s.link d l).reqs, r.p.rid ≠ p.rid ∨ r.p.req ≠ p.req) → exec (.linkResetResponse d l p) s = .next s) ∧
    ∀ (r : Req) (pre post : List Req), s.linkHears d l = true → s.forHere p = true → (s.link d l).reqs = pre ++ r :: post → (∀ x ∈ pre, x.p.rid ≠ p.rid ∨ x.p.req ≠ p.req) → r.p.rid = p.rid → r.p.req = p.req →
      ∃ u : State, exec (.linkResetResponse d l p) s = .next (if (u.request r).2 then (u.request r).1 else (u.request r).1.failHeld [r]) ∧
        u.link d l = { s.link d l with reqs := pre ++ post } ∧ u = { s with links := u.links }) ∧
  (∀ (s : State) (r : Req) (o : Option (Nat × Nat)), o = s.outLink r.p.dstTeam.toNat r.p.dstSlot.toNat r.p.srcDie.toNat r.p.dstDie.toNat → (o = none → s.request r = (s, false)) ∧
    (∀ x m, o = some (x, m) → s.linkUp x m = true → s.request r = ((s.modLink x m (fun y => { y with reqs := y.reqs ++ [r] })).putPacket x m r.type r.p r.data, true)) ∧
    (∀ x m, o = some (x, m) → s.linkUp x m = false → (s.link x m).expired = false → s.request r = (s.modLink x m (fun y => { y with held := y.held ++ [r] }), true)) ∧
    (∀ x m, o = some (x, m) → s.linkUp x m = false → (s.link x m).expired = true → s.request r = (s.raise (linkEv 164 x m [(1, m), (4, 1)]), false))) ∧
  (∀ (s : State) (d l : Nat) (p : Packet) (bs : List Byte) (w : Word), w = BitVec.ofNat 64 (leNat (bs.take 8)) → (s.linkHears d l = false → exec (.registerResponse d l p bs) s = .next s) ∧
    (s.linkHears d l = true → s.forHere p = false → exec (.registerResponse d l p bs) s = .next (s.passBack d l 7 p bs)) ∧
    (s.linkHears d l = true → s.forHere p = true → (∀ r ∈ (s.link d l).reqs, r.p.rid ≠ p.rid) → exec (.registerResponse d l p bs) s = .next (s.send (.deliver d p.rid.toNat w))) ∧
    ∀ (r : Req) (pre post : List Req), s.linkHears d l = true → s.forHere p = true → (s.link d l).reqs = pre ++ r :: post → (∀ x ∈ pre, x.p.rid ≠ p.rid) → r.p.rid = p.rid → ∃ t : State, exec (.registerResponse d l p bs) s = .next t ∧
      t.link d l = { s.link d l with reqs := pre ++ post } ∧ t = { s with links := t.links, wire := s.wire ++ [.deliver d p.rid.toNat w] })

/-- R46, R83, R84, R411, R412, R414 to R416, R419, R429, R432: a flit with a bad CRC or a reserved KIND is discarded and counted; any other brings its ACK and
credits. A sequenced one is accepted only where its SEQ is the one expected: the expected number rises, RECV and RET count it, and its credit goes
back. One out of order is discarded, with a NAK at most once per 64 flit times. On a NAK the sender releases what came before the expected flit and
replays from it. Waybill counts of the partner decide the link law, at once or with the module's own; the Coachman sends a Timetable frame for the
members, whose first copy goes on round the ring and to firmware; a lane that the partner names moves to the lowest free spare. (Model's choices in
it: log entries 69 and 72.) -/
def Obligations.FlitsAreAcceptedInOrderWithTheirCredits : Prop :=
  (∀ (s : State) (d l : Nat) (f : Flit),
    (s.linkHears d l = false → ∀ c ∈ [Instr.packetData d l f, .idle d l f], exec c s = .next s) ∧
    (s.linkHears d l = false → ∀ (e n q : BitVec 12) (k i : Nat) (c : LinkCounts), ∀ x ∈ [Instr.nak d l f e, .creditReturn d l f n, .laneSwitch d l f k q, .waybillCounts d l f c, .timetableFrame d l f ⟨i, false⟩], exec x s = .next s) ∧
    (s.linkHears d l = true → flitGood f = false ∨ 9 ≤ f.kind.toNat → ∀ (e n q : BitVec 12) (k i : Nat) (c : LinkCounts),
      (∀ x ∈ [Instr.idle d l f, .nak d l f e, .creditReturn d l f n, .laneSwitch d l f k q], exec x s = .next (s.count (LINK_COUNT_CRC_ERR d l) 1)) ∧
      (∀ x ∈ [Instr.packetData d l f, .waybillCounts d l f c, .timetableFrame d l f ⟨i, false⟩], exec x s = .next ((s.count (LINK_COUNT_CRC_ERR d l) 1).discard d l))) ∧
    (s.linkHears d l = true → flitGood f = true → f.kind.toNat < 9 → ∀ (u : State) (late : Bool), u = s.flitHead d l f →
      late = (decide (0 < (f.tag - u.tag16).toNat) && decide ((f.tag - u.tag16).toNat < 0x8000)) →
      exec (.idle d l f) s = .next u ∧
      (∀ e : BitVec 12, exec (.nak d l f e) s = .next ((u.ackTo d l (e - 1)).replayFrom d l e)) ∧
      (∀ n : BitVec 12, ∃ v : State, exec (.creditReturn d l f n) s = .next (v.drain d l (v.link d l).txq.length) ∧ v.link d l = { u.link d l with
          credits := (u.link d l).credits + n.toNat, crin := bump48 (u.link d l).crin n.toNat, earlyCr := (u.link d l).earlyCr + if late then n.toNat else 0 } ∧ v = { u with links := v.links }) ∧
      (∀ (lane : Nat) (q : BitVec 12), (s.lanes d l ≤ lane ∨ u.freeSpare d l true = none → exec (.laneSwitch d l f lane q) s = .next u) ∧
        (∀ k, lane < s.lanes d l → u.freeSpare d l true = some k → ∃ t : State, exec (.laneSwitch d l f lane q) s = .next t ∧ t = { u with links := t.links } ∧
          t.link d l = { u.link d l with sparesUsed := (u.link d l).sparesUsed ++ [(64 + lane, k)] })) ∧
      (f.seq ≠ (u.link d l).rxExp → ∀ (i : Nat) (c : LinkCounts), ∀ x ∈ [Instr.packetData d l f, .waybillCounts d l f c, .timetableFrame d l f ⟨i, false⟩], exec x s = .next (u.discard d l)) ∧
      (f.seq = (u.link d l).rxExp → ∃ v : State, v.link d l = { u.link d l with rxExp := (u.link d l).rxExp + 1, recv := bump48 (u.link d l).recv 1, ret := bump48 (u.link d l).ret 1, nakAge := 0, early := (u.link d l).early + if late then 1 else 0 } ∧
        v = { u with links := v.links, wire := u.wire ++ [.flit d l ((v.link d l).flit u.tag16 3 (leBytes 2 1))] } ∧
        exec (.packetData d l f) s = .next v ∧
        (∀ i, .timetable i ∈ v.team.flooded → exec (.timetableFrame d l f ⟨i, false⟩) s = .next v) ∧
        (∀ i, .timetable i ∉ v.team.flooded → exec (.timetableFrame d l f ⟨i, false⟩) s =
          .next ((State.flood { v with team := { v.team with flooded := v.team.flooded ++ [.timetable i] } } d l f.kind f.payload).send (.forward d l 7 i))) ∧
        (∀ c : LinkCounts, ((v.link d l).mine = none → late = false → exec (.waybillCounts d l f c) s = .next v) ∧
          ((v.link d l).mine = none → late = true → ∃ w : State, exec (.waybillCounts d l f c) s = .next w ∧ w.link d l = { v.link d l with peer := some c } ∧ w = { v with links := w.links }) ∧
          (∀ a, (v.link d l).mine = some a → v.frame.inHold = false ∨ late = true → ∃ w : State, exec (.waybillCounts d l f c) s = .next w ∧
            w.link d l = { v.link d l with mine := none, peer := if late then some c else none } ∧ w = { v with links := w.links }) ∧
          (∀ a vs, (v.link d l).mine = some a → v.frame.inHold = true → late = false → vs = linkLaws d l (v.link d l).ct a c → ∃ w : State, w.link d l = { v.link d l with mine := none, peer := none } ∧
            w = { v with links := w.links } ∧ (vs = [] → exec (.waybillCounts d l f c) s = .next w) ∧ (vs ≠ [] → exec (.waybillCounts d l f c) s = .next (vs.foldl (fun z y => z.violate y) w).sendReport)))))) ∧
  (∀ (s : State) (d l : Nat) (f : Flit) (i : Nat), (s.rd TEAM_STATUS_STATE ≠ 3 ∨ .timetable i ∈ s.team.flooded → exec (.timetableFrame d l f ⟨i, true⟩) s = .next s) ∧
    (s.rd TEAM_STATUS_STATE = 3 → .timetable i ∉ s.team.flooded → exec (.timetableFrame d l f ⟨i, true⟩) s =
      .next ((State.floodOut { s with team := { s.team with flooded := s.team.flooded ++ [.timetable i] } } 7 f.payload).send (.forward d l 7 i)))) ∧
  (∀ (s : State) (d l : Nat) (k : BitVec 4) (bs : List Byte), s.floodOut k bs = (s.floodPort 1 0 k bs).floodPort 2 0 k bs ∧
    (s.linkInfo d l = none → s.flood d l k bs = s) ∧ ∀ i, s.linkInfo d l = some i → (i.port ≠ 1 → i.port ≠ 2 → s.flood d l k bs = s) ∧
      (i.port = 1 → s.flood d l k bs = s.floodPort 2 i.index k bs) ∧ (i.port = 2 → s.flood d l k bs = s.floodPort 1 i.index k bs)) ∧
  (∀ (s : State) (port index : Nat) (k : BitVec 4) (bs : List Byte), (s.linkOfPort port index = none → s.floodPort port index k bs = s) ∧
    ∀ x m, s.linkOfPort port index = some (x, m) → (s.linkUp x m = false → s.floodPort port index k bs = s) ∧
      (s.linkUp x m = true → k = 0 ∨ k = 4 ∨ k = 6 ∨ k = 7 → s.floodPort port index k bs = s.sendSequenced x m k bs) ∧
      (s.linkUp x m = true → k ≠ 0 → k ≠ 4 → k ≠ 6 → k ≠ 7 → s.floodPort port index k bs = s.send (.flit x m ((s.link x m).flit s.tag16 k bs))))

/-- R34, R46, R84, R411, R414 to R416, R423: ACK releases the flits of the retry buffer up to the one named, and CRET adds to the credits; flits that wait are then
sent. A receiver that waits for a flit sends a NAK with the expected SEQ, then none for 64 flit times. The link law holds where HELD + FLIGHT + OCC +
RETURNED is CT with at most 2,048 flits in flight, in each direction. A die flit with a good CRC brings its ACK and credits and is accepted in order; one
that is discarded is asked for again, at most once per 64 flit times, and its sender replays from it; the eighth replay retrains the port. A port that has
retrained is up and replays, and one that fails fences its die. (Model's choices in it: log entry 73.) -/
def Obligations.RepliesReleaseFlitsAndPortsReplay : Prop :=
  (∀ (s : State) (d l : Nat) (ack : BitVec 12) (x : Link), x = s.link d l → (x.retry = [] → s.ackTo d l ack = s) ∧
    (∀ g r n, x.retry = g :: r → n = (ack - g.seq).toNat + 1 → (x.retry.length < n → s.ackTo d l ack = s) ∧
      (n ≤ x.retry.length → (s.ackTo d l ack).link d l = { x with retry := x.retry.drop n, replays := 0 } ∧ s.ackTo d l ack = { s with links := (s.ackTo d l ack).links }))) ∧
  (∀ (s : State) (d l : Nat) (f : Flit) (u : State) (x : Link), u = s.ackTo d l f.ack → x = u.link d l → ∃ v : State, s.flitHead d l f = v.drain d l x.txq.length ∧ v = { u with links := v.links } ∧
    v.link d l = { x with credits := x.credits + f.cret.toNat, crin := bump48 x.crin f.cret.toNat, earlyCr := if u.later f.tag then x.earlyCr + f.cret.toNat else x.earlyCr }) ∧
  (∀ (s : State) (d l n : Nat) (x : Link), x = s.link d l → (x.txq = [] ∨ s.linkUp d l = false ∨ x.credits = 0 ∨ 2048 ≤ x.retry.length → s.drain d l n = s) ∧
    ∀ k b r f, x.txq = (k, b) :: r → s.linkUp d l = true → 0 < x.credits → x.retry.length < 2048 → f = x.flit s.tag16 k b → ∃ v : State, s.drain d l (n + 1) = v.drain d l n ∧
      v = { s with links := v.links, wire := s.wire ++ [.flit d l f] } ∧ f.seq = x.txNext ∧ f.kind = k ∧ f.ack = x.rxExp - 1 ∧ flitGood f = true ∧
      v.link d l = { x with txq := r, txNext := x.txNext + 1, retry := x.retry ++ [f], credits := x.credits - 1, sent := bump48 x.sent 1 }) ∧
  (∀ (s : State) (d l : Nat) (x : Link), x = s.link d l → (0 < x.nakAge → x.nakAge < 64 → (s.discard d l).link d l = { x with nakAge := x.nakAge + 1 } ∧ s.discard d l = { s with links := (s.discard d l).links }) ∧
    (x.nakAge = 0 ∨ 64 ≤ x.nakAge → ∃ f : Flit, f.kind = 2 ∧ f.payload.take 2 = leBytes 2 x.rxExp.toNat ∧ f.seq = x.txNext ∧ flitGood f = true ∧ (s.discard d l).link d l = { x with nakAge := 1 } ∧
      s.discard d l = { s with links := (s.discard d l).links, wire := s.wire ++ [.flit d l f] })) ∧
  (∀ (d l ct : Nat) (a b : LinkCounts), (∀ y ∈ [a.sent, a.recv, a.ret, a.crin, b.sent, b.recv, b.ret, b.crin, a.occ, b.occ, a.held, b.held, ct], y < 2 ^ 46) → b.recv ≤ a.sent → a.recv ≤ b.sent → a.crin ≤ b.ret → b.crin ≤ a.ret →
    (linkLaws d l ct a b = [] ↔ (a.held + (a.sent - b.recv) + b.occ + (b.ret - a.crin) = ct ∧ a.sent - b.recv ≤ 2048) ∧ b.held + (b.sent - a.recv) + a.occ + (a.ret - b.crin) = ct ∧ b.sent - a.recv ≤ 2048)) ∧
  (∀ (s : State) (d p : Nat) (f : DieFlit) (ok : Bool), (s.portPeer d p = none → exec (.dieFlit d p f) s = .next s ∧ exec (.d2dPortRetrained d p ok) s = .next s) ∧
    ∀ e, s.portPeer d p = some e →
      (s.dieUp d = false ∨ s.dieUp e = false ∨ (s.port d p).up = false ∨ s.producerWaits d 0xFF 23 p = true → exec (.dieFlit d p f) s = .next s) ∧
      (s.dieUp d = true → s.dieUp e = true → (s.port d p).up = true → s.producerWaits d 0xFF 23 p = false →
        (f.seq = (s.port e p).txNext → (s.port e p).credits = 0 ∨ 128 ≤ (s.port e p).retry.length → exec (.dieFlit d p f) s = .next s) ∧
        (f.seq ≠ (s.port e p).txNext ∨ (0 < (s.port e p).credits ∧ (s.port e p).retry.length < 128) → ∀ (w x y : Port) (n : Nat), n = (if s.later f.tag then 1 else 0) →
          w = (if f.seq = (s.port e p).txNext then { s.port e p with
                 txNext := (s.port e p).txNext + 1, sent := bump48 (s.port e p).sent 1, credits := (s.port e p).credits - 1, retry := (s.port e p).retry ++ [f], earlySent := (s.port e p).earlySent + n } else s.port e p) →
          x = (s.port d p).acked f.ack → y = { x with credits := x.credits + f.cret, crin := bump48 x.crin f.cret, earlyCr := x.earlyCr + n * f.cret } → ∃ t : State, t = { s with ports := t.ports } ∧ t.port e p = w ∧
          (dieFlitGood f = true → f.seq = (s.port d p).rxExp → exec (.dieFlit d p f) s = .next t ∧
            t.port d p = { y with rxExp := y.rxExp + 1, recv := bump48 y.recv 1, ret := bump48 y.ret 1, nakAge := 0, early := y.early + n }) ∧
          (dieFlitGood f = true → f.seq ≠ (s.port d p).rxExp → exec (.dieFlit d p f) s = .next (t.portDiscard d e p) ∧ t.port d p = y) ∧
          (dieFlitGood f = false → exec (.dieFlit d p f) s = .next (t.portDiscard d e p) ∧ t.port d p = s.port d p))) ∧
      (s.dieUp d = false ∨ (s.port d p).up = true → exec (.d2dPortRetrained d p ok) s = .next s) ∧
      (s.dieUp d = true → (s.port d p).up = false → (ok = false → exec (.d2dPortRetrained d p ok) s = .next (s.fenceFound d 168)) ∧
        (ok = true → ∃ u v t : State, exec (.d2dPortRetrained d p ok) s = .next t ∧ u.port d p = { s.port d p with up := true } ∧ u.port e p = { s.port e p with up := true } ∧ u = { s with ports := u.ports } ∧
          v = (u.unitMended d 23 p).unitMended e 23 p ∧ t = { v with wire := v.wire ++ (v.port d p).retry.map (fun g => .dieFlit d p g) ++ (v.port e p).retry.map (fun g => .dieFlit e p g) }))) ∧
  (∀ (x : Port) (ack : BitVec 8), (x.retry = [] → x.acked ack = x) ∧ ∀ g r n, x.retry = g :: r → n = (ack - g.seq).toNat + 1 → (x.retry.length < n → x.acked ack = x) ∧
    (n ≤ x.retry.length → x.acked ack = { x with retry := x.retry.drop n, replays := 0 })) ∧
  (∀ (s : State) (d e p : Nat), (0 < (s.port d p).nakAge → (s.port d p).nakAge < 64 → s.portDiscard d e p = s.modPort d p (fun x => { x with nakAge := x.nakAge + 1 })) ∧
    ((s.port d p).nakAge = 0 ∨ 64 ≤ (s.port d p).nakAge → s.portDiscard d e p = (s.modPort d p (fun x => { x with nakAge := 1 })).portReplay e p (s.port d p).rxExp)) ∧
  (∀ (s : State) (e p : Nat) (seq : BitVec 8), ((s.port e p).retry = [] → s.portReplay e p seq = s) ∧ ∀ g r fs, (s.port e p).retry = g :: r → fs = (g :: r).drop (seq - g.seq).toNat →
    (fs = [] → s.portReplay e p seq = s) ∧
    (fs ≠ [] → ∃ v : State, v.port e p = { s.port e p with replays := (s.port e p).replays + 1 } ∧ v = { s with ports := v.ports, wire := s.wire ++ fs.map (fun f => .dieFlit e p f) } ∧
      s.portReplay e p seq = if 7 ≤ (s.port e p).replays then v.portRetrain e p else v)) ∧
  (∀ (s : State) (d p : Nat), (s.portPeer d p = none → s.portRetrain d p = s) ∧ ∀ e, s.portPeer d p = some e → ∃ u : State, s.portRetrain d p = u.raise (mkEv 168 d 0xFF 23 p [(1, p)]) ∧
    u.port d p = { s.port d p with up := false, replays := 0 } ∧ u.port e p = { s.port e p with up := false, replays := 0 } ∧ u = { s with ports := u.ports })

/-- R34, R415, R417, R418, R419, R422, R424, R425, R429, R440: a link whose ACK does not advance, or that is to train, retrains: it is in training with its CT, counted
here and in the Lamp, sends its capability block in a KIND 8 flit and raises EV_LINK_RETRAIN. ENABLE 1 trains it, ENABLE 0 takes it down and
reinitialises it: the requests of other modules that it carried receive a link-reset response. It comes up with the lanes and the version that both ends have, with
the same partner by replay, with another reinitialised. Requests held for 4 ms fail, those of each channel together, and those of other modules get no data, with
EV_LINK_DOWN. A lane that loses lock, or exceeds its threshold while the link is UP, moves to the lowest free spare, with EV_LANE_SPARED; without a spare the link
retrains at fewer lanes. (Model's choices in it: log entries 70 to 73 and 120.) -/
def Obligations.LinksRetrainReinitialiseAndSpareLanes : Prop :=
  ∀ (s : State) (d l : Nat),
    (s.linkHears d l = false ∨ (s.link d l).retry = [] → exec (.ackTimeout d l) s = .next s) ∧
    (s.linkHears d l = true → (s.link d l).retry ≠ [] → exec (.ackTimeout d l) s = .next (s.retrain d l 2)) ∧
    (∀ cause, (s.linkThere d l = false ∨ cause = 0 ∨ 4 < cause ∨ s.rd (LINK_STATUS_STATE d l) = 1 ∨ s.rd (LINK_CFG_ENABLE d l) = 0 → exec (.linkRetrain d l cause) s = .next s) ∧
      (s.linkThere d l = true → 1 ≤ cause → cause ≤ 4 → s.rd (LINK_STATUS_STATE d l) ≠ 1 → s.rd (LINK_CFG_ENABLE d l) = 1 → exec (.linkRetrain d l cause) s = .next (s.retrain d l cause)) ∧
      ∃ (u : State) (f : Flit), s.retrain d l cause = u.raise (mkEv 160 d 0xFF 22 l [(1, l), (1, cause)]) ∧ u.rd (LINK_STATUS_STATE d l) = 1 ∧ u.rd (LINK_COUNT_RETRAINS d l) = min (s.rd (LINK_COUNT_RETRAINS d l) + 1) 255 ∧
        tabGet u.lamp.counters (16 + s.lampLink d l) 0 = min (tabGet s.lamp.counters (16 + s.lampLink d l) 0 + 1) (2 ^ 48 - 1) ∧
        u.link d l = { s.link d l with upSince := false, credits := (s.link d l).credits + s.rd (LINK_CFG_CT d l) - (s.link d l).ct, ct := s.rd (LINK_CFG_CT d l) } ∧
        f = (s.link d l).flit s.tag16 8 (capBytes s.ownCap) ∧
        u.rd TEAM_STATUS_LINE = (if u.portUp 1 ∧ u.portUp 2 then 0 else 1) ∧ (∀ r, r ≠ .LINK_STATUS d l → r ≠ .LINK_COUNT d l → r ≠ .TEAM_STATUS → u.word r = s.word r) ∧
        u = { s with regs := u.regs, links := u.links, wire := s.wire ++ [.flit d l f], lamp := u.lamp }) ∧
    (∀ (src : Src) (w : Word), Reached s src (RegId.LINK_CFG d l).addr →
      (∃ u : State, Latched s src (.LINK_CFG d l) (w ||| 1#64 <<< 13) u ∧ u.rd (LINK_CFG_ENABLE d l) = 1 ∧ exec (.linkEnable src d l w) s = .next ((if u.linkThere d l then u.retrain d l 4 else u).respond src (RegId.LINK_CFG d l).addr [])) ∧
      (∃ u : State, Latched s src (.LINK_CFG d l) (w &&& ~~~(1#64 <<< 13)) u ∧ u.rd (LINK_CFG_ENABLE d l) = 0 ∧ exec (.linkDisable src d l w) s = .next ((if u.linkThere d l then u.linkOff d l else u).respond src (RegId.LINK_CFG d l).addr []))) ∧
    (∃ u z : State, s.linkOff d l = z ∧ u.rd (LINK_STATUS_STATE d l) = 0 ∧ u = { s with regs := u.regs } ∧ (∀ r, r ≠ .LINK_STATUS d l → u.word r = s.word r) ∧ z = (u.linkReinit d l).setLine ∧
      z.rd (LINK_STATUS_STATE d l) = 0 ∧ z.rd TEAM_STATUS_LINE = (if z.portUp 1 ∧ z.portUp 2 then 0 else 1) ∧ z = { s with regs := z.regs, links := z.links, wire := z.wire } ∧
      (∀ r, r ≠ .LINK_STATUS d l → r ≠ .TEAM_STATUS → z.word r = s.word r)) ∧
    (∃ u v : State, s.linkReinit d l = v ∧ u = { s with links := u.links } ∧ Sent s v ∧
      u.link d l = { s.link d l with
        txNext := 0, rxExp := 0, retry := [], replays := 0, credits := s.rd (LINK_CFG_CT d l), sent := 0, recv := 0, ret := 0, crin := 0, occ := 0, nakAge := 0, early := 0, earlyCr := 0, mine := none,
        txq := (s.link d l).txq.filter (fun t => decide (t.1 ≠ 0)), held := (s.link d l).reqs ++ (s.link d l).held, reqs := [], upSince := false, ct := s.rd (LINK_CFG_CT d l), transit := [] } ∧
      (∀ k, k ≠ linkKey d l → tabGet u.links k linkReset = tabGet s.links k linkReset) ∧
      v = (s.link d l).transit.foldl (fun z e => z.sendOn d l 4 (z.responseTo e.2 0) []) u) ∧
    (∀ (ok : Bool) (active : Nat) (rtt : BitVec 32) (p : CapBlock),
      (s.linkInfo d l = none ∨ s.dieUp d = false ∨ s.rd (LINK_STATUS_STATE d l) ≠ 1 → exec (.linkRetrained d l ok active rtt p) s = .next s) ∧
      ∀ i v, s.linkInfo d l = some i → s.dieUp d = true → s.rd (LINK_STATUS_STATE d l) = 1 → v = min s.fuses.linkMax.toNat p.linkMax.toNat →
        (ok = false ∨ active = 0 → ∃ t : State, exec (.linkRetrained d l ok active rtt p) s = .next t ∧ t.rd (LINK_STATUS_STATE d l) = 0 ∧ t = { s with regs := t.regs } ∧
          (∀ r, r ≠ .LINK_STATUS d l → r ≠ .TEAM_STATUS → t.word r = s.word r)) ∧
        (ok = true → 0 < active → s.fuses.linkMin.toNat ≤ v → p.linkMin.toNat ≤ v → ∀ n, n = trainedLanes i.active (s.lanes d l) active (s.link d l).noSpare → ∃ (b u w : State),
          b = (if (s.link d l).partner.map (fun c => c.serial) = some p.serial then s else s.linkReinit d l) ∧
          u.link d l = { b.link d l with partner := some p, noSpare := false, expired := false } ∧ (∀ k, k ≠ linkKey d l → tabGet u.links k linkReset = tabGet b.links k linkReset) ∧
          u.rd (LINK_STATUS_STATE d l) = (if n = i.active then 2 else 3) ∧ u.rd (LINK_STATUS_ACTIVE d l) = n % 32 ∧
          u.rd (LINK_STATUS_VER d l) = v ∧ u.rd (LINK_RTT_RTT d l) = rtt.toNat ∧ u = { b with regs := u.regs, links := u.links } ∧
          (∀ r, r ≠ .LINK_STATUS d l → r ≠ .LINK_RTT d l → u.word r = s.word r) ∧
          w = (if n = i.active then u else u.raise (mkEv 162 d 0xFF 22 l [(1, l), (1, n)])).setLine.unitMended d 22 l ∧
          ((s.link d l).partner.map (fun c => c.serial) ≠ some p.serial ∨ (w.link d l).retry = [] → exec (.linkRetrained d l ok active rtt p) s = .next (w.linkResumes d l)) ∧
          ((s.link d l).partner.map (fun c => c.serial) = some p.serial → ∀ f r, (w.link d l).retry = f :: r →
            exec (.linkRetrained d l ok active rtt p) s = .next ((w.replayFrom d l f.seq).linkResumes d l)))) ∧
    (∀ full active healthy n noSpare, n = trainedLanes full active healthy noSpare → (full ≤ healthy → noSpare = false → n = full) ∧
      (noSpare = false → 0 < active → active < full → active ≤ healthy → healthy < full → n = active) ∧
      (noSpare = true ∨ (healthy < full ∧ healthy < active) → 2 ≤ active → 0 < healthy → n ≤ healthy ∧ 2 * n ≤ active ∧ (∃ k, n = 2 ^ k) ∧ min healthy (active / 2) < 2 * n)) ∧
    (∀ rs ts, rs = (s.link d l).held → ts = (s.link d l).transit → (s.linkThere d l = false ∨ s.linkUp d l = true → exec (.linkDown d l) s = .next s) ∧
      (s.linkThere d l = true → s.linkUp d l = false → ∃ u v : State,
        u.link d l = { s.link d l with held := [], transit := [], txq := (s.link d l).txq.filter (fun t => decide (t.1 ≠ 0)), expired := true } ∧ u = { s with links := u.links } ∧
        (∀ k, k ≠ linkKey d l → tabGet u.links k linkReset = tabGet s.links k linkReset) ∧
        v = u.raise (mkEv 164 d 0xFF 22 l [(1, l), (4, rs.length + ts.length)]) ∧
        (rs = [] → ts = [] → exec (.linkDown d l) s = .next u) ∧
        (rs ≠ [] ∨ ts ≠ [] → exec (.linkDown d l) s = .next (State.failHeld { v with wire := v.wire ++ ts.map (fun e => .noData d l e.2) } rs)))) ∧
    (s.failHeld [] = s ∧ ∀ (r : Req) (t : List Req) (key : Req → Nat × Nat), key = (fun x => (x.p.srcDie.toNat, x.p.req.toNat)) →
      s.failHeld (r :: t) = (s.failChan (key r).1 (key r).2 (r :: t.filter (fun x => decide (key x = key r)))).failHeld (t.filter (fun x => decide (key x ≠ key r)))) ∧
    (∀ (c q : Nat) (x : Req) (rs backs : List Req) (q0 q1 q2 : List DRun) (i : Nat) (u : State), q0 = (s.chan c q).q → backs = (x :: rs).filter (fun y => q0.any (fun r => r.backIs y)) →
      q1 = (unread (fun r => s.srcFar r.desc) (((x :: rs).filter (fun y => decide (y.type = 0))).length - backs.length)
        (q0.map (fun r => if backs.any r.backIs then { r with readBack := false } else r))).1 →
      q2 = (unwritten ((x :: rs).filter (fun y => decide (y.type = 2))).length q1).1 → i = firstIdx (q0.zip q2) (fun e => decide (e.1 ≠ e.2)) 0 → u = s.modChan c q (fun y => { y with q := q2 }) →
      (q2.length ≤ i ∨ (s.chan c q).st = .halted → s.failChan c q (x :: rs) = u) ∧
      (i < q2.length → (s.chan c q).st ≠ .halted →
        s.failChan c q (x :: rs) = u.deadAccess c q i (if x.type = 2 then 1 else if backs.contains x then 2 else 0) x.p.addr.toNat false false)) ∧
    (∀ (far : DRun → Bool) (n : Nat) (r : DRun) (q : List DRun),
      (unread far n [] = ([], n) ∧ ∀ y k, y = unread far n q → k = min y.2 (if far r ∧ r.started ∧ r.status = none ∧ r.readBack = false then r.rd - r.due else 0) →
        unread far n (r :: q) = ({ r with rd := r.rd - k } :: y.1, y.2 - k)) ∧
      (unwritten n [] = ([], n) ∧ ∀ y k, y = unwritten n q → k = min y.2 r.sent.length →
        unwritten n (r :: q) = ({ r with sent := r.sent.take (r.sent.length - k), again := r.again ++ r.sent.drop (r.sent.length - k) } :: y.1, y.2 - k))) ∧
    (∀ lane, (s.linkHears d l = false ∨ s.lanes d l ≤ lane → exec (.laneSignalLoss d l lane) s = .next s) ∧
      (s.linkHears d l = true → lane < s.lanes d l → exec (.laneSignalLoss d l lane) s = .next (s.laneFails d l lane)) ∧
      (∀ k, s.freeSpare d l false = some k → s.laneFails d l lane = s.spareLane d l lane k) ∧
      (s.freeSpare d l false = none → s.laneFails d l lane = (s.modLink d l (fun x => { x with noSpare := true })).retrain d l 3)) ∧
    (∀ errs, (s.linkHears d l = false → exec (.sparingWindowEnd d l errs) s = .next s) ∧ (s.linkHears d l = true → exec (.sparingWindowEnd d l errs) s = .next (s.spareOver d l errs))) ∧
    (s.spareOver d l [] = s ∧ ∀ lane n rest (u : State), u = s.modLink d l (fun x => { x with laneErr := tabSet x.laneErr lane n }) →
      (n ≤ 16 * s.rd (LINK_CFG_SPARE_THR d l) ∨ s.lanes d l ≤ lane ∨ s.linkUp d l = false → s.spareOver d l ((lane, n) :: rest) = u.spareOver d l rest) ∧
      (16 * s.rd (LINK_CFG_SPARE_THR d l) < n → lane < s.lanes d l → s.linkUp d l = true → s.spareOver d l ((lane, n) :: rest) = (u.laneFails d l lane).spareOver d l rest)) ∧
    (∀ lane k, ∃ (u : State) (f : Flit), s.spareLane d l lane k = u.raise (mkEv 161 d 0xFF 22 l [(1, l), (1, lane), (1, k)]) ∧ u.link d l = { s.link d l with sparesUsed := (s.link d l).sparesUsed ++ [(lane, k)] } ∧
      u.rd (LINK_COUNT_SPARED d l) = min (s.rd (LINK_COUNT_SPARED d l) + 1) 255 ∧ tabGet u.lamp.counters (26 + s.lampLink d l) 0 = min (tabGet s.lamp.counters (26 + s.lampLink d l) 0 + 1) (2 ^ 48 - 1) ∧
      f.kind = 3 ∧ flitGood f = true ∧ f.payload.take 5 = leBytes 2 0 ++ leBytes 1 lane ++ leBytes 2 ((s.link d l).rxExp + 64).toNat ∧
      u = { s with regs := u.regs, links := u.links, lamp := u.lamp, wire := s.wire ++ [.flit d l f] } ∧
      (∀ r, r ≠ .LINK_COUNT d l → u.word r = s.word r))

/-- R51, R414, R422, R435 to R437: a time flit is taken as a flit without SEQ; it measures the round trip of its link and tells which hops of the ring are down. It sets
team time on the port toward the Coachman alone: East where it is not farther than half of the ring, West otherwise, and the other way round while the first hop of that
way is not UP or another of it is down; for the Coachman of a team other than team 0, on the port of FLEET_ROUTE[0], and it hears there the fleet's next tick while no
job runs. Team time is then the value and half of RTT; a correction of more than 4 ns asks for a slip and raises EV_TIME_SYNC_RANGE. Every 1,024 cycles a module sends
its team time in a KIND 5 flit on the first link of each ring and fleet port that is UP; nothing else differs but the free values of its payload. -/
def Obligations.TimeFollowsTheNeighbourTowardTheCoachman : Prop :=
  (∀ (s : State) (d l : Nat) (f : Flit) (time : BitVec 64) (rtt : BitVec 32) (down : List Nat) (fleet : Option (BitVec 64 × Nat)) (r : State × Bool), r = s.rxPlain d l f →
    (s.linkHears d l = false → r = (s, false)) ∧
    (s.linkInfo d l = none → exec (.timeFlit d l ⟨f, time, rtt, down, fleet⟩) s = .next s) ∧
    (∀ i, s.linkInfo d l = some i → (r.2 = false → exec (.timeFlit d l ⟨f, time, rtt, down, fleet⟩) s = .next r.1) ∧
      (r.2 = true → ∃ u : State, u.rd (LINK_RTT_RTT d l) = rtt.toNat ∧ (∀ r', r' ≠ .LINK_RTT d l → u.word r' = r.1.word r') ∧
        u = { r.1 with regs := u.regs, team := { r.1.team with down := down } } ∧
        (u.timePort ≠ some i.port → exec (.timeFlit d l ⟨f, time, rtt, down, fleet⟩) s = .next u) ∧
        (u.timePort = some i.port → exec (.timeFlit d l ⟨f, time, rtt, down, fleet⟩) s = .next ((u.hearFleet fleet).followTime d l time))))) ∧
  (∀ (s : State) (fleet : Option (BitVec 64 × Nat)),
    (fleet = none ∨ s.rd TEAM_STATUS_STATE ≠ 3 ∨ 2 ≤ s.rd JOB_STATUS_STATE ∨ s.frame.fleetJoined = true → s.hearFleet fleet = s) ∧
    (∀ x, fleet = some x → s.rd TEAM_STATUS_STATE = 3 → s.rd JOB_STATUS_STATE < 2 → s.frame.fleetJoined = false →
      s.hearFleet fleet = { s with frame := { s.frame with fleet := some x } })) ∧
  (∀ (s : State) (d l : Nat) (time : BitVec 64) (half : Nat) (corr : Int), half = s.rd (LINK_RTT_RTT d l) / 2 → corr = signed 64 (time - s.frame.teamTime).toNat * 1000 + half →
    ∃ new : BitVec 64, new = time + BitVec.ofNat 64 (half / 1000) ∧
      (corr.natAbs ≤ 4000 → s.followTime d l time = { s with frame := { s.frame with teamTime := new } }) ∧
      (4000 < corr.natAbs → s.followTime d l time = State.raise { s with frame := { s.frame with teamTime := new, slipReq := true } }
        (mkEv 167 s.lead 0xFF 17 0 [(4, (corr % 2 ^ 32).toNat)]))) ∧
  (∀ (s : State) x size e, (s.rd TEAM_STATUS_STATE = 2 ∧ x = s.rd TEAM_STATUS_COACH) ∨
      (s.rd TEAM_STATUS_STATE = 3 ∧ s.myTeam ≠ 0 ∧ s.rd (FLEET_ROUTE_VALID 0) = 1 ∧ x = s.rd (FLEET_ROUTE_SLOT 0) ∧ x ≠ s.mySlot) →
    size = max 1 (s.rd TEAM_CFG_SIZE) → e = (x + size - s.mySlot % size) % size →
    (2 * e ≤ size → s.timePort = some (if s.wayWhole 1 x then 1 else 2)) ∧ (size < 2 * e → s.timePort = some (if s.wayWhole 2 x then 2 else 1)) ∧
    (s.wayWhole 1 x = true ↔ s.portUp 1 = true ∧ ∀ k, k < e → (s.mySlot + k) % size ∉ s.team.down) ∧
    (s.wayWhole 2 x = true ↔ s.portUp 2 = true ∧ ∀ k, k < size - e → (s.mySlot + size - 1 - k) % size ∉ s.team.down)) ∧
  (∀ s : State, (s.rd TEAM_STATUS_STATE = 3 → s.myTeam ≠ 0 → s.rd (FLEET_ROUTE_VALID 0) = 1 → s.rd (FLEET_ROUTE_SLOT 0) = s.mySlot →
      s.timePort = some (4 + s.rd (FLEET_ROUTE_PORT 0))) ∧
    (s.rd TEAM_STATUS_STATE < 2 ∨ (s.rd TEAM_STATUS_STATE = 3 ∧ (s.myTeam = 0 ∨ s.rd (FLEET_ROUTE_VALID 0) = 0)) → s.timePort = none)) ∧
  (∀ s : State, exec .timeFlitSend s = .next ((([1, 2, 4, 5, 6, 7].filterMap (fun p => s.linkOfPort p 0)).filter (fun k => s.linkHears k.1 k.2)).foldl (fun z k => z.sendTime k.1 k.2) s)) ∧
  (∀ (s : State) (d l : Nat), ∃ f : Flit, f = (s.link d l).flit s.tag16 5 (s.freeBytes 246) ∧
    s.sendTime d l = { s with wire := s.wire ++ [.time d l s.frame.teamTime, .flit d l f], fresh := s.fresh + 246 }) ∧
  (∀ rtt, 0 < holdUnits rtt ∧ 1024 * (holdUnits rtt - 1) < rtt + 512 ∧ rtt + 512 ≤ 1024 * holdUnits rtt)

/-- R51, R53, R424, R429, R430, R433, R439 to R445, R471, R535: ARM 1 floods the capability block of a READY module that is alone and not in service mode, and
CLOSE 1 closes the bypass, which disconnects the ring links. Capability blocks are heard and sent on while the module joins. The candidate with the
lowest ring slot is Coachman, and sets the smallest TEAM_MAX; a module with another DIES, OWNER or TEAM range, or a slot already heard, is refused and
closes its bypass; the team does not form where HOLD exceeds 8. The election also tells the active core counts of the modules. A member that has missed two verdicts elects again among those it hears, and pauses
for the lost, or waits where it hears no more than half of the positions. (Model's choices in it: log entries 80 to 83, 117 and 118.) -/
def Obligations.TeamsFormAndElectTheirCoachman : Prop :=
  (∀ (s : State) (src : Src) (w : Word),
    (Reached s src RegId.TEAM_CFG.addr → ∃ u : State, Latched s src .TEAM_CFG (w ||| 1#64 <<< 16) u ∧ (s.busyRaised .TEAM_CFG (w ||| 1#64 <<< 16) = s → u.rd TEAM_CFG_ARM = 1) ∧
      (u.rd TEAM_CFG_ARM = 1 → u.rd MODULE_STATUS_SERVICE = 0 → u.rd TEAM_STATUS_STATE = 0 → 8 ≤ u.rd MODULE_STATUS_STAGE → u.rd MODULE_STATUS_STAGE ≠ 15 → ∃ y t : State,
        y.rd TEAM_STATUS_STATE = 1 ∧ y = { u with regs := y.regs, team := teamReset } ∧ (∀ r, r ≠ .TEAM_STATUS → y.word r = u.word r) ∧ t = y.floodOut 8 (capBytes u.ownCap) ∧ Sent y t ∧
        exec (.teamJoin src w) s = .next (t.respond src RegId.TEAM_CFG.addr [])) ∧
      (u.rd TEAM_CFG_ARM = 0 ∨ u.rd MODULE_STATUS_SERVICE = 1 ∨ u.rd TEAM_STATUS_STATE ≠ 0 ∨ u.rd MODULE_STATUS_STAGE < 8 ∨ u.rd MODULE_STATUS_STAGE = 15 →
        exec (.teamJoin src w) s = .next (u.respond src RegId.TEAM_CFG.addr []))) ∧
    (Reached s src RegId.BYPASS.addr → ∃ u : State, Latched s src .BYPASS (w ||| 1#64 <<< 1) u ∧ u.rd BYPASS_CLOSE = 1 ∧ exec (.bypassClose src w) s = .next ((u.closeBypass 4).respond src RegId.BYPASS.addr [])) ∧
    (∀ cause, cause < 8 → (s.rd BYPASS_CLOSED = 1 → s.closeBypass cause = s) ∧ (s.rd BYPASS_CLOSED = 0 → (s.closeBypass cause).rd BYPASS_CLOSED = 1 ∧ (s.closeBypass cause).rd BYPASS_CAUSE = cause ∧
      (s.closeBypass cause).rd BYPASS_CLOSINGS = min (s.rd BYPASS_CLOSINGS + 1) 65535 ∧ (∀ k ∈ s.ringLinks, s.linkUp k.1 k.2 = true → (s.closeBypass cause).rd (LINK_STATUS_STATE k.1 k.2) = 1) ∧
      s.closeBypass cause = { s with regs := (s.closeBypass cause).regs, links := (s.closeBypass cause).links, wire := (s.closeBypass cause).wire })) ∧
    (∀ d l (f : Flit) (c : CapBlock) (r : State × Bool), c = capOfBytes f.payload → r = s.rxPlain d l f → (s.linkThere d l = false → exec (.capabilityBlock d l f) s = .next s) ∧
      (s.linkThere d l = true → s.rd (LINK_STATUS_STATE d l) ≠ 1 →
        (r.2 = false ∨ r.1.rd TEAM_STATUS_STATE ≠ 1 ∨ c.host = true ∨ (∃ h ∈ r.1.team.heard, h.serial = c.serial) ∨ c.serial = r.1.fuses.serial → exec (.capabilityBlock d l f) s = .next r.1) ∧
        (r.2 = true → r.1.rd TEAM_STATUS_STATE = 1 → c.host = false → (∀ h ∈ r.1.team.heard, h.serial ≠ c.serial) → c.serial ≠ r.1.fuses.serial →
          ∃ y t : State, y = { r.1 with team := { r.1.team with heard := r.1.team.heard ++ [c] } } ∧ t = y.flood d l 8 f.payload ∧ Sent y t ∧ exec (.capabilityBlock d l f) s = .next t))) ∧
    (∀ rtts cores (y : State), y = { s with team := { s.team with cores := cores.foldl (fun t x => tabSet t x.1 x.2) s.team.cores } } →
      (s.rd TEAM_STATUS_STATE = 1 → exec (.coachmanElection ⟨rtts, cores⟩) s = .next (y.elect rtts)) ∧
      (s.rd TEAM_STATUS_STATE = 2 → 2 ≤ s.team.misses → exec (.coachmanElection ⟨rtts, cores⟩) s = .next (y.reelect rtts)) ∧
      (s.rd TEAM_STATUS_STATE ≠ 1 → s.rd TEAM_STATUS_STATE ≠ 2 ∨ s.team.misses < 2 → exec (.coachmanElection ⟨rtts, cores⟩) s = .next y)) ∧
    (∀ rtts cs, cs = s.ownCap :: s.team.heard → (electedOf cs = none → s.elect rtts = s.joinEnds) ∧
      ∀ coach js, electedOf cs = some coach → ∃ (v : Nat) (u : State), js = judged v coach [] (judgeOrder coach cs) → (∀ c ∈ cs, v ≤ c.teamMax.toNat) ∧ (∃ c ∈ cs, v = c.teamMax.toNat) ∧
        (coach.serial ≠ s.fuses.serial → u = s) ∧
        (coach.serial = s.fuses.serial → u = (js.filterMap (fun j => j.2.map (fun x => (j.1, x)))).foldl (fun w j => w.raise (mkEv 165 w.lead 0xFF 24 0 [(1, j.1.slot.toNat), (1, j.2)])) s) ∧
        ((∃ j ∈ js, j.1.serial = s.fuses.serial ∧ j.2 ≠ none) → s.elect rtts = u.joinEnds.closeBypass 5) ∧
        ((∀ j ∈ js, j.1.serial = s.fuses.serial → j.2 = none) → ∀ ok rtt, ok = (js.filter (fun j => j.2.isNone)).map (fun j => j.1) → rtt = longest rtts (slotsOf_ ok) →
          (8 < holdUnits rtt → s.elect rtts = (if coach.serial = u.fuses.serial then u.joinEnds.raise (mkEv 13 u.joinEnds.lead 0xFF 24 0 [(4, rtt)]) else u.joinEnds)) ∧
          (holdUnits rtt ≤ 8 → s.elect rtts = (u.wr FRAME_CFG_HOLD (holdUnits rtt)).teamForms coach v ok))) ∧
    (s.joinEnds.rd TEAM_STATUS_STATE = 0 ∧ s.joinEnds.rd TEAM_CFG_ARM = 0 ∧ s.joinEnds = { s with regs := s.joinEnds.regs } ∧ ∀ r, r ≠ .TEAM_STATUS → r ≠ .TEAM_CFG → s.joinEnds.word r = s.word r) ∧
    (∀ (coach : CapBlock) v cs members spares, members = slotsOf_ (cs.filter (fun c => !c.spare)) → spares = slotsOf_ (cs.filter (fun c => c.spare)) → v < 256 → ∃ t : State,
      s.teamForms coach v cs = t.raise (mkEv 166 t.lead 0xFF 17 0 [(1, coach.slot.toNat), (1, v)]) ∧ t.rd TEAM_STATUS_STATE = (if coach.serial = s.fuses.serial then 3 else 2) ∧
      t.rd TEAM_STATUS_POS = firstIdx (members ++ spares) (fun k => decide (k = s.mySlot)) 0 % 16 ∧ t.rd TEAM_STATUS_COACH = coach.slot.toNat % 16 ∧ t.rd TEAM_STATUS_TVER = v ∧
      t.rd TEAM_CFG_ARM = 0 ∧ t.rd FRAME_STATUS_SEQ = 0 ∧ t.rd MODULE_STATUS_STAGE = 9 ∧ t.rd MODULE_STATUS_READY = 1 ∧
      t = { s with regs := t.regs
                   team := { s.team with positions := members, seats := members ++ spares, spares := spares, opening := s.flag BYPASS_CLOSED && !s.flag BYPASS_CLOSE }
                   job := { s.job with teamOwner := if coach.owner = noOwner then s.job.teamOwner else coach.owner }
                   frame := { s.frame with cycle := 0, tickTime := s.frame.teamTime + BitVec.ofNat 64 (s.frameLen * 1024), inHold := false, fleet := none, fleetJoined := false, nextSeq := none } } ∧
      (∀ r, r ∉ [.TEAM_STATUS, .TEAM_CFG, .FRAME_STATUS, .MODULE_STATUS] → t.word r = s.word r)) ∧
    (∀ rtts former heard, former = firstIdx s.team.positions (fun k => decide (k = s.rd TEAM_STATUS_COACH)) 0 → heard = (s.heardPositions rtts).filter (fun p => decide (p ≠ former)) →
      (2 * heard.length ≤ s.team.positions.length → s.reelect rtts = (s.raise (mkEv 169 s.lead 0xFF 17 0 [(2, (heard.map (fun p => 2 ^ p)).sum)])).pauseJob 169) ∧
      (s.team.positions.length < 2 * heard.length → ∀ slots rtt cs, slots = heard.filterMap (fun p => s.team.positions[p]?) → rtt = longest rtts slots →
        cs = (s.ownCap :: s.team.heard).filter (fun c => slots.contains c.slot.toNat) → (electedOf cs = none → s.reelect rtts = s) ∧
        (∀ coach, electedOf cs = some coach → 8 < holdUnits rtt → s.reelect rtts =
          (if coach.serial = s.fuses.serial then s.joinEnds.raise (mkEv 13 s.joinEnds.lead 0xFF 24 0 [(4, rtt)]) else s.joinEnds)) ∧
        ∀ coach (lost : List Nat), electedOf cs = some coach → holdUnits rtt ≤ 8 → (∀ p, p ∈ lost ↔ p < s.team.seats.length ∧ p ∉ heard ∧
          (p < s.team.positions.length ∨ (s.team.seats.getD p 16 ≠ s.mySlot ∧ ∀ r ∈ rtts, r.1 ≠ s.team.seats.getD p 16))) → lost.Pairwise (· < ·) → ∃ u : State,
        s.reelect rtts = ((u.raise (mkEv 166 u.lead 0xFF 17 0 [(1, coach.slot.toNat), (1, u.rd TEAM_STATUS_TVER)])).pauseJob 178).loseAll (lost.map (fun p => (p, 0))) ∧
        u.rd TEAM_STATUS_STATE = (if coach.serial = s.fuses.serial then 3 else 2) ∧ u.rd TEAM_STATUS_COACH = coach.slot.toNat % 16 ∧ u.rd FRAME_CFG_HOLD = holdUnits rtt ∧ u.frameSeq = s.frameSeq ∧
        u = { s with regs := u.regs, team := { s.team with misses := 0, reports := [], verdict := none } } ∧ (∀ r, r ≠ .TEAM_STATUS → r ≠ .FRAME_CFG → u.word r = s.word r)))) ∧
  (∀ (cs : List CapBlock), (electedOf cs = none ↔ ∀ c ∈ cs, c.spare = true) ∧
    ∀ c, electedOf cs = some c → c ∈ cs ∧ c.spare = false ∧ (c.coach = false → ∀ b ∈ cs, b.spare = false → b.coach = false) ∧ ∀ b ∈ cs, b.spare = false → (c.coach = true → b.coach = true) → c.slot.toNat ≤ b.slot.toNat) ∧
  (∀ (coach : CapBlock) (cs : List CapBlock), ∃ l, judgeOrder coach cs = coach :: l ∧ (∀ c, c ∈ l ↔ c ∈ cs ∧ c.serial ≠ coach.serial) ∧ l.Pairwise (fun a b => a.serial.toNat ≤ b.serial.toNat)) ∧
  (∀ (s : State) (p : Nat × Nat) (ps : List (Nat × Nat)), s.loseAll [] = s ∧ s.loseAll (p :: ps) = (s.remap p.1 p.2).loseAll ps) ∧
  ∀ (v : Nat) (coach c : CapBlock) (before r : List CapBlock), judged v coach before [] = [] ∧ judged v coach before (c :: r) = (c, refusalOf v coach before c) :: judged v coach (before ++ [c]) r ∧ (v < c.teamMin.toNat → refusalOf v coach before c = some 1) ∧
    (c.teamMin.toNat ≤ v → (c.dies ≠ coach.dies → refusalOf v coach before c = some 2) ∧
      (c.dies = coach.dies → (c.owner ≠ noOwner → coach.owner ≠ noOwner → c.owner ≠ coach.owner → refusalOf v coach before c = some 3) ∧
        (c.owner = noOwner ∨ coach.owner = noOwner ∨ c.owner = coach.owner →
          ((∃ b ∈ before, b.slot = c.slot) → refusalOf v coach before c = some 4) ∧ ((∀ b ∈ before, b.slot ≠ c.slot) → refusalOf v coach before c = none))))

/-- R430, R442, R490, R491, R496, R508, R510 to R512, R522 to R542: the auxiliary supply starts the Lamp from the newer FRAM copy that is good; the main
stage comes up where it can, and is tried again; a reset closes the bypass, keeps what its kind keeps, and runs the sequence from step 3: dies that
fail are fenced, die 0 or else die 1 leads, the ROM starts an image or goes into recovery, each interface takes the smallest MAX that is at least
every MIN, a channel that fails fences its die, and step 8 is reached, in service mode where a die has failed. Loss of a supply leaves the module Off.
A transition of the power state ends in that state. A cold reset clears memory and every register but the Lamp's; a warm one keeps memory outside the
buffers, the blocks that are powering up, the lines marked bad, and a paused job. (Model's choices in it: log entries 3, 31, 91 to 93 and 121.) -/
def Obligations.ResetsKeepWhatTheirKindKeepsAndBoot : Prop :=
  (∀ (s : State) (src : Src) (env : BootEnv),
    (∀ slot coach c, c = s.lamp.framBest → ∃ u : State, exec (.auxPowerUp env slot coach) s = .next (u.powerUp 0 0 env) ∧ u.fuses = { s.fuses with slot := slot, coach := coach } ∧ u.rd MODULE_STATUS_STAGE = 1 ∧
      u.rd BYPASS_CLOSED = 1 ∧ u.rd LAMP_CAL_SECONDS = c.seconds % 2 ^ 48 ∧ u.lamp.counters = tabSet c.counters 3 (min (tabGet c.counters 3 0 + 1) (2 ^ 48 - 1)) ∧ u.lamp.auxIn = true ∧ u.lamp.mainOn = false ∧ u.mem = [] ∧ u.undef = [] ∧
      u.flash = s.abandonUpdate.flash ∧ u.lamp.history = s.lamp.history ∧ u.lamp.retire = s.lamp.retire ∧ ∀ r, u.rd (LAMP_RULE_CTL_TRIPPED r) = 0) ∧
    (∀ last cause w, w = ({ s.wr MODULE_RESET_BUSY 0 with lamp := { s.lamp with resetOrder := none } } : State) → (w.mainCan env = true → s.powerUp last cause env = w.abandonUpdate.coldWipe.mainUp.bootSequence last cause env) ∧
      (w.mainCan env = false → s.powerUp last cause env = w.wr MODULE_STATUS_STAGE (if env.lampOk then 2 else 1))) ∧
    (s.mainCan env = true ↔ env.lampOk = true ∧ env.mainOk = true ∧ (s.rd POLICY_AUTO_ON = 1 ∨ s.rd LAMP_PWR_REQ = 0) ∧ ∀ r < 128, s.rd (LAMP_RULE_CTL_TRIPPED r) = 1 → (s.rd (LAMP_RULE_CTL_ACT r)).testBit 3 = false) ∧
    (s.mainUp.rd LAMP_PWR_STATE = 0 ∧ s.mainUp.rd LAMP_PWR_REQ = 0 ∧ s.mainUp.rd LAMP_PWR_BUSY = 0 ∧ s.mainUp.lamp.mainOn = true ∧ tabGet s.mainUp.lamp.counters 4 0 = min (tabGet s.lamp.counters 4 0 + 1) (2 ^ 48 - 1)) ∧
    (s.mainOff.rd LAMP_PWR_STATE = 3 ∧ s.mainOff.rd LAMP_PWR_BUSY = 0 ∧ s.mainOff.lamp.mainOn = false ∧ s.mainOff.mem = [] ∧ s.mainOff.dies = [] ∧ ∀ q, q.ofLamp = true → q ≠ .LAMP_PWR → s.mainOff.word q = s.word q) ∧
    (∃ t : State, exec .auxPowerLoss s = .next t ∧ t.lamp = { s.mainOff.lamp with auxIn := false } ∧ t.rd BYPASS_CLOSED = 0 ∧ ∀ q, q ≠ .BYPASS → t.word q = s.mainOff.word q) ∧
    (s.lamp.mainOn = false → exec .mainPowerLow s = .next { s with lamp := { s.lamp with mainIn := false } }) ∧
    (s.lamp.mainOn = true → exec .mainPowerLow s = .next { (s.closeBypass 1).mainOff with lamp := { (s.closeBypass 1).mainOff.lamp with mainIn := false } }) ∧
    (s.lamp.auxIn = true → s.lamp.mainOn = false → 1 ≤ s.rd MODULE_STATUS_STAGE → s.rd MODULE_STATUS_STAGE ≤ 2 → exec (.mainStageRetry env) s = .next (s.powerUp (s.rd MODULE_STATUS_LAST) (s.rd MODULE_STATUS_CAUSE) env)) ∧
    (s.lamp.auxIn = false ∨ s.lamp.mainOn = true ∨ s.rd MODULE_STATUS_STAGE = 0 ∨ 2 < s.rd MODULE_STATUS_STAGE → exec (.mainStageRetry env) s = .next s) ∧
    (s.lamp.auxIn = false → exec (.coldReset src env) s = .next s) ∧ (s.lamp.auxIn = true → exec (.coldReset src env) s = .next (s.runReset 1 (resetCause src) env)) ∧
    (s.lamp.auxIn = false ∨ s.rd MODULE_RESET_BUSY = 1 → exec (.warmReset src env) s = .next s) ∧
    (s.lamp.auxIn = true → s.rd MODULE_RESET_BUSY = 0 → exec (.warmReset src env) s = .next (s.runReset 2 (resetCause src) env)) ∧
    (∀ cause b, b = s.closeBypass 2 → (b.lamp.mainOn = false → s.runReset 1 cause env = b.powerUp 1 cause env ∧
        s.runReset 2 cause env = { b.wr MODULE_RESET_BUSY 0 with lamp := { b.lamp with resetOrder := none } }) ∧
      (b.lamp.mainOn = true → ∃ u : State, u.rd MODULE_RESET_BUSY = 0 ∧ u.rd LAMP_PWR_STATE = 0 ∧ u.rd LAMP_PWR_BUSY = 0 ∧ u = { b with regs := u.regs, lamp := { b.lamp with resetOrder := none, target := none, request := none } } ∧
        (∀ r, r ≠ .MODULE_RESET → r ≠ .LAMP_PWR → u.word r = b.word r) ∧
        s.runReset 1 cause env = u.abandonUpdate.coldWipe.bootSequence 1 cause env ∧ s.runReset 2 cause env = u.abandonUpdate.warmWipe.bootSequence 2 cause env)) ∧
    (∀ k c, s.lamp.resetOrder = some (k, c) → exec (.powerTransitionDone env) s = .next (s.runReset k c env)) ∧
    (s.lamp.resetOrder = none → s.lamp.target = none → exec (.powerTransitionDone env) s = .next s) ∧
    (∀ q c old u, s.lamp.resetOrder = none → s.lamp.target = some (q, c) → old = s.rd LAMP_PWR_STATE → u = ({ s.wr LAMP_PWR_BUSY 0 with lamp := { s.lamp with target := none } } : State) →
      (q = 3 → exec (.powerTransitionDone env) s = .next (u.powerEvent old 3 c).mainOff) ∧
      (q ≠ 3 → old = 3 → ∃ w : State, w = (u.wr LAMP_PWR_REQ 0).powerUp 1 4 env ∧ exec (.powerTransitionDone env) s = .next (if w.lamp.mainOn then w.powerEvent 3 0 c else w)) ∧
      (q < 3 → old ≠ 3 → ∃ w : State, w = (if q = 2 then u.enterRetain else if old = 2 then u.exitRetain else u) ∧ exec (.powerTransitionDone env) s = .next ((w.wr LAMP_PWR_STATE q).powerEvent old q c) ∧ (w.wr LAMP_PWR_STATE q).rd LAMP_PWR_STATE = q)) ∧
    (s.coldWipe.mem = [] ∧ s.coldWipe.undef = [] ∧ s.coldWipe.cores = [] ∧ s.coldWipe.items = [] ∧ s.coldWipe.chans = [] ∧ s.coldWipe.dies = [] ∧ s.coldWipe.links = [] ∧ s.coldWipe.regions = [] ∧ s.coldWipe.job = jobReset ∧ s.coldWipe.team = teamReset ∧ s.coldWipe.fw.mr = [] ∧
      s.coldWipe.lamp = s.lamp ∧ s.coldWipe.flash = s.flash ∧ (∀ q, q.ofLamp = true → s.coldWipe.word q = s.word q) ∧ ∀ q, q.ofLamp = false → s.coldWipe.word q = q.resetWord s.fuses) ∧
    (∀ t, t = s.warmWipe →
      (∀ k (x : Core), (k, x) ∈ t.cores ↔ ∃ y, (k, y) ∈ s.cores ∧ y.powering ≠ 0 ∧ x = { coreReset with powering := y.powering }) ∧
      (∀ k (x : Die), (k, x) ∈ t.dies ↔ ∃ y, (k, y) ∈ s.dies ∧ (y.badLines ≠ [] ∨ (s.rd JOB_STATUS_STATE = 3 ∧ y.mirrorLive ≠ [])) ∧
        x = { dieReset with badLines := y.badLines, mirrorLive := if s.rd JOB_STATUS_STATE = 3 then y.mirrorLive else [] }) ∧
      t.items = [] ∧ t.chans = [] ∧ t.links = [] ∧ t.team = teamReset ∧ t.fw.mr = [] ∧ t.lamp = s.lamp ∧ t.flash = s.flash ∧ (∀ q, q.ofLamp = true → t.word q = s.word q) ∧
      t.rd MODULE_STATUS_OWNER_STATE = s.rd MODULE_STATUS_OWNER_STATE ∧ t.job.owner = s.job.owner ∧ t.rd JOB_STATUS_JOB_ID = s.rd JOB_STATUS_JOB_ID ∧
      (s.rd JOB_STATUS_STATE = 3 → t.regions = s.regions ∧ t.rd JOB_STATUS_STATE = 3 ∧ t.job = { s.job with takeover := false, held := [], standby := [], resume := false }) ∧
      (s.rd JOB_STATUS_STATE ≠ 3 → t.regions = [] ∧ t.rd JOB_STATUS_STATE = 0 ∧ t.job = { jobReset with owner := s.job.owner }) ∧
      (∀ q, q.ofLamp = false → q.warmKept (decide (s.rd JOB_STATUS_STATE = 3)) = false → q ≠ .MODULE_STATUS → t.word q = q.resetWord s.fuses) ∧
      ((∀ d, (s.die d).fenced = false) → ∀ y, y < 0x010000000000 ∨ (y - 0x010000000000) % 0x100000000 < 0x80000000 → cellRead 0 t.mem y = cellRead 0 s.mem y ∧ undefAt t.undef y = undefAt s.undef y)) ∧
    (∀ last cause, last < 4 → cause < 8 → ∃ u : State, u.rd MODULE_STATUS_LAST = last ∧ u.rd MODULE_STATUS_CAUSE = cause ∧ u.rd MODULE_STATUS_STAGE = 3 ∧ u.fw = { s.fw with mr := [] } ∧
      (∀ d < s.fuses.dies, (u.die d).powered = true ∧ (u.die d).fenced = env.dieFail.contains d) ∧ (u.dieUp 0 = true → u.rd MODULE_LEAD_LEAD_DIE = 0) ∧ (u.dieUp 0 = false → u.dieUp 1 = true → u.rd MODULE_LEAD_LEAD_DIE = 1) ∧
      (u.dieUp 0 = false → u.dieUp 1 = false → s.bootSequence last cause env = u) ∧
      (u.dieUp 0 = true ∨ u.dieUp 1 = true → ∀ v, v = u.measureRom.wr MODULE_STATUS_STAGE 4 →
        ((v.bootRom env.sigOkA env.sigOkB).2 = false → s.bootSequence last cause env = (v.bootRom env.sigOkA env.sigOkB).1.romRecovery) ∧
        ((v.bootRom env.sigOkA env.sigOkB).2 = true → ∃ w x y : State, w = (v.bootRom env.sigOkA env.sigOkB).1.agreeVersions env ∧ x = ((if w.sameVersions then w else w.dropJob).trainMemory env).trainLinks ∧
          s.bootSequence last cause env = { y with lamp := { x.lamp with savedTiming := true } } ∧ y = { x with regs := y.regs } ∧ (∀ r, r ≠ .MODULE_STATUS → y.word r = x.word r) ∧ y.rd MODULE_STATUS_STAGE = 8 ∧ y.rd MODULE_STATUS_BOOT_MS = min env.bootMs 65535 ∧
          (x.rd MODULE_STATUS_DIE_FAILED ≠ 0 → y.rd MODULE_STATUS_SERVICE = 1) ∧ (x.rd MODULE_STATUS_DIE_FAILED = 0 → y.rd MODULE_STATUS_SERVICE = x.rd MODULE_STATUS_SERVICE)))) ∧
    ((env.chFail = [] → s.trainMemory env = s) ∧ ∀ d ch step, env.chFail = [(d, ch, step)] → s.dieUp d = true → ch < 16 → s.trainMemory env =
      (s.wr (LPDDR_CH_STATUS_FAILED d ch) 1).raise (mkEv 202 d 0xFF 20 ch [(1, ch), (1, step), (1, 2), (1, 0), (4, env.bootMs)])) ∧
    (∃ u : State, u.rd MODULE_STATUS_STAGE = 15 ∧ u.rd (LINK_CFG_ENABLE 0 0) = 1 ∧ s.romRecovery = u.startTraining 0 0 ∧ (s.rd JOB_STATUS_STATE ≠ 3 → u = { s with regs := u.regs })) ∧
    (∀ sigA sigB (x : State) slot trial cleared, (x, slot, trial, cleared) = s.chooseSlot →
      (x.imageFail (x.slotImage slot) (if slot = 0 then sigA else sigB) = none → s.bootRom sigA sigB = (x.startImage slot trial cleared, true)) ∧
      (∀ c y, x.imageFail (x.slotImage slot) (if slot = 0 then sigA else sigB) = some c → y = x.verifyFail slot c (x.slotImage slot) →
        (y.imageFail (y.slotImage (1 - slot)) (if 1 - slot = 0 then sigA else sigB) = none → s.bootRom sigA sigB = (y.startImage (1 - slot) false cleared, true)) ∧
        (y.imageFail (y.slotImage (1 - slot)) (if 1 - slot = 0 then sigA else sigB) ≠ none → (s.bootRom sigA sigB).2 = false))) ∧
    (∀ d, d = s.bootDesc.2 → (d.trial ≤ 1 → d.tried = 0 → s.chooseSlot = (s.writeDesc (fun x => { x with tried := 1 }), d.trial, true, false)) ∧
      (d.trial ≤ 1 → d.tried ≠ 0 → s.chooseSlot = (s.writeDesc (fun x => { x with trial := 0xFF, tried := 0 }), d.preferred % 2, false, true)) ∧
      (1 < d.trial → s.chooseSlot = (s, d.preferred % 2, false, false)))) ∧
  (∀ l : Lamp, (l.framA.ok = true → l.framB.ok = true → (l.framA.gen ≤ l.framB.gen → l.framBest = l.framB) ∧ (l.framB.gen < l.framA.gen → l.framBest = l.framA)) ∧
    (l.framA.ok = true → l.framB.ok = false → l.framBest = l.framA) ∧ (l.framA.ok = false → l.framB.ok = true → l.framBest = l.framB) ∧ (l.framA.ok = false → l.framB.ok = false → l.framBest = framNone)) ∧
  ∀ (rs : List (Nat × Nat)), rs ≠ [] → ∃ v, (∀ r ∈ rs, v ≤ r.2) ∧ (∃ r ∈ rs, v = r.2) ∧ ((∀ r ∈ rs, r.1 ≤ v) → agreedOf rs = v) ∧ ((∃ r ∈ rs, v < r.1) → agreedOf rs = 0)

/-- R479, R487, R489, R492, R494 to R496, R502, R503, R505: a sample takes the writes that waited, then its channels, its rules and their actions, and a
request. SHUTDOWN discards WAKE; the cap is the smallest of the tripped rules that throttle. A save writes the older FRAM copy. The sample block goes
to the lead die's FIFO in five words. A read of a FIFO takes its oldest word, and an event record goes on to the host event ring, where the ring takes
it. (Model's choices in it: log entry 49.) -/
def Obligations.SamplesActAndRecordsReachTheRing : Prop :=
  ∀ (s : State),
    (∀ xs, (s.lamp.auxIn = false → exec (.lampSample xs) s = .next s) ∧ (s.lamp.auxIn = true → ∀ (u : State) r a, u = (List.range 64).foldl (fun s ch => s.sampleCh xs ch) s.applyAllI → r = u.rulesFrom (List.range 128) →
      a = r.1.actAll r.2.1 r.2.2 → exec (.lampSample xs) s = .next (a.1.powerRequest a.2))) ∧
    (s.applyAllI = s.lamp.pendingI.foldl (fun s x => s.applyI x.1 x.2.1 x.2.2) { s with lamp := { s.lamp with pendingI := [] } }) ∧
    (∀ trips rels, ((s.actAll trips rels).2 = true ↔ (∃ r ∈ trips, s.ruleActs r 0 = true) ∧ ∀ r ∈ trips, s.ruleActs r 3 = false)) ∧ (s.actAll [] [] = (s, false)) ∧
    (∀ rs, rs = (List.range 128).filter (fun r => s.flag (LAMP_RULE_CTL_TRIPPED r) && s.ruleActs r 1) → s.moduleCap ≤ 16 ∧ (∀ r ∈ rs, s.moduleCap ≤ s.rd (LAMP_RULE_CTL_CAP r)) ∧ (s.moduleCap = 16 ∨ ∃ r ∈ rs, s.moduleCap = s.rd (LAMP_RULE_CTL_CAP r))) ∧
    (∀ r, (s.ruleActs r 1 = false → s.throttle r = s) ∧ (s.ruleActs r 1 = true → ∃ (u : State) (e : Ev), s.throttle r = u.lampRaise e ∧ e.num = 193 ∧ u.rd LAMP_PWR_CAP = s.moduleCap % 32 ∧ u = { s with regs := u.regs } ∧ ∀ q, q ≠ .LAMP_PWR → u.word q = s.word q)) ∧
    (∀ wake st, st = s.rd LAMP_PWR_STATE → (s.lamp.request = none → s.powerRequest wake = s) ∧ ∀ q u, s.lamp.request = some q → u = ({ s with lamp := { s.lamp with request := none } } : State) →
      (q = 3 → st ≠ 3 → s.powerRequest wake = u.startPower 3) ∧ (q = st → q = 3 ∨ q = 0 → s.powerRequest wake = u) ∧
      (q = 0 → st ≠ 0 → s.shutTripped = false → s.powerRequest wake = u.startPower 0) ∧ (q = 0 → st ≠ 0 → s.shutTripped = true → s.powerRequest wake = (u.wr LAMP_PWR_REFUSED 1).powerEvent st q 3) ∧
      (q = 1 ∨ q = 2 → wake = true ∨ s.rd JOB_STATUS_STATE ≠ 0 ∨ st = 3 ∨ (q = 1 ∧ st = 2) → s.powerRequest wake = (u.wr LAMP_PWR_REFUSED 1).powerEvent st q 3) ∧
      (q = 1 ∨ q = 2 → wake = false → s.rd JOB_STATUS_STATE = 0 → st ≠ 3 → ¬ (q = 1 ∧ st = 2) → st ≠ q → s.powerRequest wake = u.startPower q)) ∧
    (∀ secs, (s.lamp.auxIn = false → exec (.framSave secs) s = .next s) ∧ (s.lamp.auxIn = true → ∃ t : State, exec (.framSave secs) s = .next t ∧ t.rd LAMP_CAL_SECONDS = (s.rd LAMP_CAL_SECONDS + secs) % 2 ^ 48 ∧ t = { s with regs := t.regs, lamp := t.lamp } ∧
      (∀ r, r ≠ .LAMP_CAL → t.word r = s.word r) ∧ tabGet t.lamp.counters 0 0 = (if s.lamp.mainOn then min (tabGet s.lamp.counters 0 0 + secs) (2 ^ 48 - 1) else tabGet s.lamp.counters 0 0) ∧
      tabGet t.lamp.counters 1 0 = (if s.lamp.mainOn ∧ s.rd LAMP_PWR_STATE = 0 then min (tabGet s.lamp.counters 1 0 + secs) (2 ^ 48 - 1) else tabGet s.lamp.counters 1 0) ∧
      tabGet t.lamp.counters 2 0 = min (tabGet s.lamp.counters 2 0 + secs * (signed 16 (s.rd (LAMP_SENSE_FILT 34))).toNat) (2 ^ 48 - 1) ∧
      (∀ c, 3 ≤ c → tabGet t.lamp.counters c 0 = tabGet s.lamp.counters c 0) ∧
      (s.lamp.framA.gen ≤ s.lamp.framB.gen → t.lamp.framB = s.lamp.framB ∧ t.lamp.framA = { gen := s.lamp.framB.gen + 1, ok := true, counters := t.lamp.counters, seconds := t.rd LAMP_CAL_SECONDS }) ∧
      (s.lamp.framB.gen < s.lamp.framA.gen → t.lamp.framA = s.lamp.framA ∧ t.lamp.framB = { gen := s.lamp.framA.gen + 1, ok := true, counters := t.lamp.counters, seconds := t.rd LAMP_CAL_SECONDS }))) ∧
    (s.rd LAMP_PWR_TELEM = 0 ∨ s.lamp.auxIn = false → exec .lampSampleBlock s = .next s) ∧
    (∀ (d : Nat) (bs : List Byte), d = s.lead → bs = leBytes 6 (s.rd LAMP_CAL_SECONDS) ++ leBytes 2 0 ++ (List.range 64).flatMap (fun ch => leBytes 2 (s.rd (LAMP_SENSE_FILT ch))) → s.rd LAMP_PWR_TELEM ≠ 0 → s.lamp.auxIn = true → (s.die d).fifo.length + 5 ≤ 1024 → (s.die d).fifoWait = [] →
      ∃ t : State, exec .lampSampleBlock s = .next t ∧ t.die d = { s.die d with fifo := (s.die d).fifo ++ (List.range 5).map (fun i =>
        { data := padTo 32 ((bs.drop (32 * i)).take 32), tag := fifoTag (if i = 4 then 8 else 32) (decide (i = 0)) (decide (i = 4)) 2 0xFF 25 }) } ∧ t = { s with dies := t.dies }) ∧
    (∀ d, ((s.die d).fifo = [] ∨ s.dieUp d = false → exec (.eventFifoRead d) s = .next s) ∧ ∀ w r, (s.die d).fifo = w :: r → s.dieUp d = true → ∃ t : State, exec (.eventFifoRead d) s = .next t ∧
      t = { s with dies := t.dies, wire := s.wire ++ [.fifoWord d w] } ∧ (t.die d).fifo = r ++ (s.die d).fifoWait.take 1 ∧ (t.die d).fifoWait = (s.die d).fifoWait.drop 1 ∧
      (field w.tag.toNat 8 8 = 1 → (t.die d).forward = (s.die d).forward ++ [w]) ∧ (field w.tag.toNat 8 8 ≠ 1 → (t.die d).forward = (s.die d).forward)) ∧
    (∀ d, ((s.die d).forward = [] ∨ s.dieUp d = false ∨ s.dieUp s.lead = false ∨ s.routeOk d s.lead = false → exec (.eventRecordForward d) s = .next s) ∧
      ∀ w r t, (s.die d).forward = w :: r → s.dieUp d = true → s.dieUp s.lead = true → s.routeOk d s.lead = true → t = s.ringRelease →
        (t.ringHold = [] → t.ringTakes = true → exec (.eventRecordForward d) s = .next ((t.ringPut w).modDie d (fun x => { x with forward := r })))) ∧
    (∀ w a, a = s.rd EVRING_BASE_BASE + 32 * (s.rd EVRING_PTR_TAIL % 2 ^ s.rd EVRING_CTL_LOG2) → (s.ringTakes = true ↔ s.rd EVRING_CTL_EN = 1 ∧ (s.rd EVRING_PTR_TAIL + 2 ^ 21 - s.rd EVRING_PTR_HEAD) % 2 ^ 21 < 2 ^ s.rd EVRING_CTL_LOG2) ∧
      (s.accessOk a 32 = true → s.ringPut w = (s.setBytes a w.data).wr EVRING_PTR_TAIL (s.rd EVRING_PTR_TAIL + 1)))

/-- The command at the front of the queue is taken and has its effect on everything but the queue; on an empty queue one cycle passes (the model's choice: log entry 1):
the arbiters of the LPDDR6 controllers decide and grant, what waits is counted, and nothing else changes. -/
def Obligations.StepRunsTheCommandAtTheFront : Prop :=
  (∀ (c : Instr) (r : List Instr) (s : State), step { s with pending := c :: r } = exec c { s with pending := r }) ∧
  ∀ s : State, s.pending = [] → ∃ t, step s = .next t ∧ t.frame.cycle = s.frame.cycle + 1 ∧ t.frame.teamTime = s.frame.teamTime + 1 ∧
    t = { s with regs := t.regs, dies := t.dies, frame := { s.frame with cycle := t.frame.cycle, teamTime := t.frame.teamTime } } ∧
    (∀ d, t.die d = { s.die d with reqs := (t.die d).reqs, arbs := (t.die d).arbs }) ∧
    (∀ r, (∀ e, r ≠ .EVQ_STATUS e) → (∀ e, r ≠ .MEM_TAGS e) → (∀ e m, r ≠ .DRAY_CH_MISS e m) → (∀ e g, r ≠ .ARB_STAT e g) → t.word r = s.word r) ∧ ∀ a, t.byteAt a = s.byteAt a

/-- R517, R518: from every state every command is answered with a next state, and every step keeps the memories in their one canonical form, takes one
command from the queue, never lowers the anti-rollback counter, takes back nothing sent, uses no free value twice, and sets no fuse but the straps of
the ring slot and the Coachman. -/
def Obligations.EveryStepCompletesAndKeepsTheInvariant : Prop :=
  ∀ s : State, (∀ c, ∃ t, exec c s = .next t ∧ t.pending = s.pending) ∧ ∃ t, step s = .next t ∧ t.pending = s.pending.tail ∧ (s.wf = true → t.wf = true) ∧
    s.fw.arb.toNat ≤ t.fw.arb.toNat ∧ s.wire <+: t.wire ∧ s.fresh ≤ t.fresh ∧ t.fuses = { s.fuses with slot := t.fuses.slot, coach := t.fuses.coach }

/-- R13, R422, R439, R440, R445, R493, R505, R528, R534: after reset every register holds its Reset value: the module is Off with REQ Off, the bypass
closed, no job, no team, STAGE 0, links down with CT 1,024, the event ring disabled with LOG2 8; every byte of memory reads 0, no command waits, and
the memories are in canonical form. (The grade and the straps of State.reset are the model's choice: log entry 2.) -/
def Obligations.ResetIsAsTheRegistersSay : Prop :=
  State.reset.wf = true ∧ State.reset.pending = [] ∧ (∀ a, State.reset.byteAt a = 0) ∧ (∀ r, State.reset.word r = r.resetWord State.reset.fuses) ∧
  (∀ r f, f ∈ r.fields → (∀ k, r ≠ .LAMP_RULE k) → (∀ k, r ≠ .LAMP_RULE_CTL k) → State.reset.rd ⟨r, f.lo, f.width⟩ = f.rst % 2 ^ f.width) ∧
  State.reset.rd LAMP_PWR_STATE = 3 ∧ State.reset.rd LAMP_PWR_REQ = 3 ∧ State.reset.rd LAMP_PWR_CAP = 16 ∧ State.reset.rd BYPASS_CLOSED = 1 ∧ State.reset.rd JOB_STATUS_STATE = 0 ∧ State.reset.rd TEAM_STATUS_STATE = 0 ∧
  State.reset.rd TEAM_CFG_SIZE = 1 ∧ State.reset.rd MODULE_STATUS_STAGE = 0 ∧ State.reset.rd FRAME_STATUS_SEQ = 0 ∧ State.reset.rd EVRING_CTL_EN = 0 ∧ State.reset.rd EVRING_CTL_LOG2 = 8 ∧
  (∀ d l, State.reset.rd (LINK_STATUS_STATE d l) = 0 ∧ State.reset.rd (LINK_CFG_CT d l) = 1024 ∧ State.reset.rd (LINK_CFG_ENABLE d l) = 0) ∧
  (∀ r, State.reset.rd (LAMP_RULE_CTL_EN r) = if r < 20 then 1 else 0) ∧ ∀ r, State.reset.rd (LAMP_RULE_CTL_TRIPPED r) = 0

/-- R485: each sample evaluates every rule in ascending number. An enabled rule watches the filtered value of its channel: it trips after DWELL samples in
a row beyond THRESH, counted in TRIPS, and is released after DWELL samples in a row inside THRESH by HYST, and a DWELL of 0 is taken as 1; what it
trips or releases is acted on. A write of EN = 0, at the boundary of a sample, clears TRIPPED and the run, and acts as a release where the rule was
tripped. -/
def Obligations.RulesTripAndReleaseAfterDwell : Prop :=
  ∀ (s : State),
    (∀ xs, (s.lamp.auxIn = false → exec (.lampSample xs) s = .next s) ∧ (s.lamp.auxIn = true → ∀ (u : State) r a, u = (List.range 64).foldl (fun s ch => s.sampleCh xs ch) s.applyAllI → r = u.rulesFrom (List.range 128) →
      a = r.1.actAll r.2.1 r.2.2 → exec (.lampSample xs) s = .next (a.1.powerRequest a.2))) ∧
    (∀ r ch y th h dw, ch = s.rd (LAMP_RULE_CH r) → y = signed 16 (s.rd (LAMP_SENSE_FILT ch)) → th = signed 16 (s.rd (LAMP_RULE_THRESH r)) → h = (s.rd (LAMP_RULE_HYST r) : Int) → dw = max 1 (s.rd (LAMP_RULE_DWELL r)) →
      (s.rd (LAMP_RULE_CTL_EN r) = 0 ∨ s.rd (LAMP_SENSE_PRESENT ch) = 0 → s.ruleStep r = (s, .stay)) ∧
      (∀ on : Prop, s.rd (LAMP_RULE_CTL_EN r) = 1 → s.rd (LAMP_SENSE_PRESENT ch) = 1 →
        (s.rd (LAMP_RULE_CTL_TRIPPED r) = 0 → s.rd (LAMP_RULE_DIR r) = 0 → (on ↔ th < y)) → (s.rd (LAMP_RULE_CTL_TRIPPED r) = 0 → s.rd (LAMP_RULE_DIR r) = 1 → (on ↔ y < th)) →
        (s.rd (LAMP_RULE_CTL_TRIPPED r) = 1 → s.rd (LAMP_RULE_DIR r) = 0 → (on ↔ y ≤ th - h)) → (s.rd (LAMP_RULE_CTL_TRIPPED r) = 1 → s.rd (LAMP_RULE_DIR r) = 1 → (on ↔ th + h ≤ y)) →
        ∀ (u : State) v, u = { s with lamp := { s.lamp with ruleRun := tabSet s.lamp.ruleRun r v } } →
          (¬ on → v = 0 → s.ruleStep r = (u, .stay)) ∧ (on → tabGet s.lamp.ruleRun r 0 + 1 < dw → v = tabGet s.lamp.ruleRun r 0 + 1 → s.ruleStep r = (u, .stay)) ∧
          (on → dw ≤ tabGet s.lamp.ruleRun r 0 + 1 → v = 0 →
            (s.rd (LAMP_RULE_CTL_TRIPPED r) = 1 → s.ruleStep r = (u.wr (LAMP_RULE_CTL_TRIPPED r) 0, .release)) ∧
            (s.rd (LAMP_RULE_CTL_TRIPPED r) = 0 → ∃ t : State, s.ruleStep r = (t, .trip) ∧ t.rd (LAMP_RULE_CTL_TRIPPED r) = 1 ∧ t.rd (LAMP_RULE_CTL_TRIPS r) = min (s.rd (LAMP_RULE_CTL_TRIPS r) + 1) 65535 ∧
              t = { u with regs := t.regs } ∧ ∀ q, q ≠ .LAMP_RULE_CTL r → t.word q = s.word q)))) ∧
    (s.rulesFrom [] = (s, [], []) ∧ ∀ r t x y, x = s.ruleStep r → y = x.1.rulesFrom t → s.rulesFrom (r :: t) = (y.1, (if x.2 = .trip then [r] else []) ++ y.2.1, (if x.2 = .release then [r] else []) ++ y.2.2)) ∧
    (∀ r w c, r < 128 → w.getLsbD 0 = false → ∃ t : State, s.applyI (RegId.LAMP_RULE_CTL r).addr w c = (if s.rd (LAMP_RULE_CTL_TRIPPED r) = 1 then t.releaseRule r else t) ∧ t.rd (LAMP_RULE_CTL_EN r) = 0 ∧ t.rd (LAMP_RULE_CTL_TRIPPED r) = 0 ∧
      tabGet t.lamp.ruleRun r 0 = 0 ∧ (∀ k, k ≠ r → tabGet t.lamp.ruleRun k 0 = tabGet s.lamp.ruleRun k 0) ∧ t = { s with regs := t.regs, lamp := { s.lamp with ruleRun := t.lamp.ruleRun } } ∧ ∀ q, q ≠ .LAMP_RULE_CTL r → t.word q = s.word q)

/-- R483: each sample runs the filter of every channel once: a filter of KIND none answers the sample, IIR moves its accumulator of 16 fraction bits by
2^-k of the difference, median answers the median of its window, and debounce a value that stood for n samples. A filter is initialised from the
sample where the channel has none: on the first sample after the channel becomes present, and after any write to its LAMP_FILT. An absent channel has
no filter and reads 0. (Model's choices in it: log entry 90.) -/
def Obligations.FiltersRunOncePerSample : Prop :=
  (∀ (s : State),
    (∀ xs, (s.lamp.auxIn = false → exec (.lampSample xs) s = .next s) ∧ (s.lamp.auxIn = true → ∀ (u : State) r a, u = (List.range 64).foldl (fun s ch => s.sampleCh xs ch) s.applyAllI → r = u.rulesFrom (List.range 128) →
      a = r.1.actAll r.2.1 r.2.2 → exec (.lampSample xs) s = .next (a.1.powerRequest a.2))) ∧
    (∀ xs ch, s.chPresent ch = false → (s.sampleCh xs ch).word (.LAMP_SENSE ch) = 0 ∧ (s.sampleCh xs ch).lamp = { s.lamp with filters := tabDel s.lamp.filters ch } ∧ ∀ r, r ≠ .LAMP_SENSE ch → (s.sampleCh xs ch).word r = s.word r) ∧
    (∀ (xs : List Sample) ch k n (raw : Nat) (f : Filter), s.chPresent ch = true → k = max 1 (s.rd (LAMP_FILT_K ch)) → n = max 1 (s.rd (LAMP_FILT_N ch)) →
      (∀ x, xs.find? (fun x => decide (x.ch = ch)) = some x → raw = if x.fault then s.rd (LAMP_SENSE_RAW ch) else x.raw.toNat) → (xs.find? (fun x => decide (x.ch = ch)) = none → raw = s.rd (LAMP_SENSE_RAW ch)) →
      (∀ e, s.lamp.filters.find? (fun e => decide (e.1 = ch)) = some e → f = e.2.step (s.rd (LAMP_FILT_KIND ch)) k n (signed 16 raw)) →
      (s.lamp.filters.find? (fun e => decide (e.1 = ch)) = none → f = filterInit (2 * s.rd (LAMP_FILT_W ch) + 3) (signed 16 raw)) → ∀ t, t = s.sampleCh xs ch →
      t.rd (LAMP_SENSE_RAW ch) = raw ∧ t.rd (LAMP_SENSE_FILT ch) = (f.y % 65536).toNat ∧ t.rd (LAMP_SENSE_PRESENT ch) = 1 ∧ t.lamp.filters = tabSet s.lamp.filters ch f ∧
      (∀ x, xs.find? (fun x => decide (x.ch = ch)) = some x → t.rd (LAMP_SENSE_FAULT ch) = if x.fault then 1 else 0) ∧
      (ch < 8 → 1120 < f.y → ch ∈ t.lamp.hot ∧ t.lamp.counters = s.lamp.counters) ∧
      (ch < 8 → f.y < 640 → ch ∈ s.lamp.hot → tabGet t.lamp.counters (8 + ch) 0 = min (tabGet s.lamp.counters (8 + ch) 0 + 1) (2 ^ 48 - 1)) ∧ ∀ r, r ≠ .LAMP_SENSE ch → t.word r = s.word r) ∧
    (∀ ch w c, ch < 64 → ∃ t : State, s.applyI (RegId.LAMP_FILT ch).addr w c = t ∧ t.lamp = { s.lamp with filters := tabDel s.lamp.filters ch } ∧ t = { s with regs := t.regs, lamp := t.lamp } ∧ ∀ q, q ≠ .LAMP_FILT ch → t.word q = s.word q)) ∧
  (∀ (f : Filter) (k n : Nat) (x : Int), (f.step 0 k n x).y = x ∧ (f.step 1 k n x).acc = f.acc + (x * 65536 - f.acc) / ((2 ^ k : Nat) : Int) ∧ (f.step 1 k n x).y = (f.step 1 k n x).acc / 65536 ∧
    (f.step 2 k n x).win = f.win.drop 1 ++ [x] ∧ (f.step 2 k n x).y = median (f.step 2 k n x).win ∧
    (f.step 3 k n x).last = x ∧ (f.step 3 k n x).run = (if x = f.last then f.run + 1 else 1) ∧ (f.step 3 k n x).y = (if n ≤ (f.step 3 k n x).run then x else f.y)) ∧
  (∀ w (x : Int), (filterInit w x).acc = x * 65536 ∧ (filterInit w x).win = List.replicate w x ∧ (filterInit w x).y = x ∧ (filterInit w x).run = 1) ∧
  ∀ xs : List Int, xs ≠ [] → median xs ∈ xs ∧ 2 * (xs.filter (fun x => decide (x < median xs))).length ≤ xs.length ∧ 2 * (xs.filter (fun x => decide (median xs < x))).length ≤ xs.length

/-- R506: the host event ring takes a record while EN is 1 and it is not full. While it takes none the lead die holds records in order, up to 4,096; a
full hold drops its oldest record of level 0 or N to take another, and DROPPED counts it; where it holds none of those it refuses a record of level 0
or N, which is dropped and counted, and drops no record of level 1 to 4 (which waits at its die, the model's choice: log entry 49). -/
def Obligations.FullHoldsDropSoftRecordsAlone : Prop :=
  ∀ (s : State),
    (s.ringTakes = true ↔ s.rd EVRING_CTL_EN = 1 ∧ (s.rd EVRING_PTR_TAIL + 2 ^ 21 - s.rd EVRING_PTR_HEAD) % 2 ^ 21 < 2 ^ s.rd EVRING_CTL_LOG2) ∧
    (∀ d, ((s.die d).forward = [] ∨ s.dieUp d = false ∨ s.dieUp s.lead = false ∨ s.routeOk d s.lead = false → exec (.eventRecordForward d) s = .next s) ∧
      ∀ w r t, (s.die d).forward = w :: r → s.dieUp d = true → s.dieUp s.lead = true → s.routeOk d s.lead = true → t = s.ringRelease →
        (t.ringHold ≠ [] ∨ t.ringTakes = false → (∀ u, t.holdRecord w = some u → exec (.eventRecordForward d) s = .next (u.modDie d (fun x => { x with forward := r }))) ∧ (t.holdRecord w = none → exec (.eventRecordForward d) s = .next t))) ∧
    (∀ w, (s.ringHold.length < 4096 → s.holdRecord w = some { s with ringHold := s.ringHold ++ [w] }) ∧
      (4096 ≤ s.ringHold.length → (∃ x ∈ s.ringHold, x.soft = true) → ∃ a x b u, s.ringHold = a ++ x :: b ∧ x.soft = true ∧ (∀ y ∈ a, y.soft = false) ∧ s.holdRecord w = some u ∧ u.ringHold = a ++ b ++ [w] ∧ u.rd EVRING_DROP_DROPPED = min (s.rd EVRING_DROP_DROPPED + 1) (2 ^ 32 - 1) ∧ u = { s with regs := u.regs, ringHold := u.ringHold } ∧ ∀ q, q ≠ .EVRING_DROP → u.word q = s.word q) ∧
      (4096 ≤ s.ringHold.length → (∀ x ∈ s.ringHold, x.soft = false) → (w.soft = true → ∃ u, s.holdRecord w = some u ∧ u.ringHold = s.ringHold ∧ u.rd EVRING_DROP_DROPPED = min (s.rd EVRING_DROP_DROPPED + 1) (2 ^ 32 - 1) ∧ u = { s with regs := u.regs, ringHold := u.ringHold } ∧ ∀ q, q ≠ .EVRING_DROP → u.word q = s.word q) ∧ (w.soft = false → s.holdRecord w = none)))

/-- R117: SEM.PAIR of an even SEM with a count T from 1 to 65,535 and both semaphores unpaired sets the full semaphore to 0 and the empty semaphore to T,
and declares them a pair with HELD_fe and INFL_fe 0, whichever pairs the core has already (128 at most, since each takes an even semaphore). SEM.PAIR
on an odd SEM, on a paired semaphore or with T = 0 faults with EV_SEM_PAIRED, number 71, and so does SEM.INIT on a paired semaphore. -/
def Obligations.SemPairDeclaresItsPair : Prop :=
  ∀ (s : State) (h : Hdr) (y : FmtY), Issues s h 8 →
    let d := h.die
    let q := h.seq
    let n := y.sem.toNat
    let k := s.countY d q y
    let pc := (s.core d q).pc
    let paired := fun (s : State) m => ((s.core d q).pairOf m).isSome
    let done := fun t => (t.core d q).pc = pc + 8 ∧ (t.core d q).blocked = .none ∧ (∀ r, t.preg d q r = s.preg d q r) ∧ OnlySync d q s t
    (legalY q 0 true true false false y = true →
      (paired s n = true → ∃ t, exec (.semInit h y) s = .next t ∧ Faulted d q 71 0 pc.toNat s t)) ∧
    (legalY q 0 true true false false y = true →
      (n % 2 = 0 → 1 ≤ k → paired s n = false → ∃ t, exec (.semPair h y) s = .next t ∧
        (∀ m, t.semv d q m = if m = n then 0 else if m = n + 1 then k else s.semv d q m) ∧
        (∀ f, t.pairAt d q f = if f = n then { total := k, held := 0, infl := 0 } else s.pairAt d q f) ∧
        (∀ m, paired t m = (decide (m = n ∨ m = n + 1) || paired s m)) ∧ (∀ r, t.sreg d q r = s.sreg d q r) ∧ done t) ∧
      (n % 2 = 1 ∨ k = 0 ∨ paired s n = true → ∃ t, exec (.semPair h y) s = .next t ∧ Faulted d q 71 0 pc.toNat s t))

/-- R425: in training a link takes the version v that is the smaller LINK_MAX of both ends where v is at least both LINK_MIN; the capability block of the
partner settles it, where its flit is good, and the link comes up with it. Where there is no such v the link stays down and EV_LINK_VERSION is raised with the
partner's range. Each link settles its own version. -/
def Obligations.LinksUseTheVersionThatBothEndsHave : Prop :=
  ∀ (s : State) (d l : Nat) (c : CapBlock) (v : Nat), v = min s.fuses.linkMax.toNat c.linkMax.toNat → s.rd (LINK_STATUS_STATE d l) = 1 →
    (∀ f : Flit, s.linkThere d l = true → flitBad f = true → ∃ u : State, exec (.capabilityBlock d l f) s = .next u ∧
      u.rd (LINK_COUNT_CRC_ERR d l) = min (s.rd (LINK_COUNT_CRC_ERR d l) + 1) 65535 ∧ u = { s with regs := u.regs } ∧ ∀ r, r ≠ .LINK_COUNT d l → u.word r = s.word r) ∧
    (∀ f : Flit, s.linkThere d l = true → flitBad f = false → c = capOfBytes f.payload →
      (s.fuses.linkMin.toNat ≤ v → c.linkMin.toNat ≤ v → ∃ u : State, exec (.capabilityBlock d l f) s = .next u ∧
        u.rd (LINK_STATUS_VER d l) = v ∧ u = { s with regs := u.regs } ∧ ∀ r, r ≠ .LINK_STATUS d l → u.word r = s.word r) ∧
      (v < s.fuses.linkMin.toNat ∨ v < c.linkMin.toNat → ∃ u : State,
        exec (.capabilityBlock d l f) s = .next (u.raise (mkEv 163 d 0xFF 22 l [(1, l), (1, c.linkMin.toNat), (1, c.linkMax.toNat)])) ∧
        u.rd (LINK_STATUS_STATE d l) = 0 ∧ u = { s with regs := u.regs } ∧ ∀ r, r ≠ .LINK_STATUS d l → r ≠ .TEAM_STATUS → u.word r = s.word r)) ∧
    (∀ (active : Nat) (rtt : BitVec 32) i, s.linkInfo d l = some i → s.dieUp d = true → 0 < active →
      (v < s.fuses.linkMin.toNat ∨ v < c.linkMin.toNat → ∃ u : State, exec (.linkRetrained d l true active rtt c) s = .next (u.raise (mkEv 163 d 0xFF 22 l [(1, l), (1, c.linkMin.toNat), (1, c.linkMax.toNat)])) ∧
        u.rd (LINK_STATUS_STATE d l) = 0 ∧ u = { s with regs := u.regs } ∧ ∀ r, r ≠ .LINK_STATUS d l → r ≠ .TEAM_STATUS → u.word r = s.word r) ∧
      (s.fuses.linkMin.toNat ≤ v → c.linkMin.toNat ≤ v → ∃ u : State, exec (.linkRetrained d l true active rtt c) s = .next u ∧ u.rd (LINK_STATUS_VER d l) = v))
end

