-- ==== Sys2Proof/Laws/Table.lean ====
section
/-! SUPPORT. Laws of tables, register lists and byte memories: reading after a write, and the canonical form. -/

namespace Sys2Proof.Machine

@[simp] theorem tabGet_nil {α : Type} (k : Nat) (d : α) : tabGet ([] : Tab α) k d = d := rfl

/-- Reading a table after a write gives the value written at its index, and what stood there elsewhere. -/
theorem tabGet_tabSet {α : Type} (t : Tab α) (k j : Nat) (v d : α) :
    tabGet (tabSet t k v) j d = if k = j then v else tabGet t j d := by
  induction t with
  | nil => simp [tabSet, tabGet]
  | cons e r ih =>
    obtain ⟨i, w⟩ := e
    simp only [tabSet]
    split
    · simp [tabGet]
    · split
      · rename_i h; subst h
        by_cases hk : k = j <;> simp [tabGet, hk]
      · rename_i h1 h2
        simp only [tabGet, ih]
        by_cases hi : i = j
        · have : k ≠ j := fun e => h2 (by omega)
          simp [hi, this]
        · simp [hi]

@[simp] theorem tabGet_tabSet_same {α : Type} (t : Tab α) (k : Nat) (v d : α) : tabGet (tabSet t k v) k d = v := by
  simp [tabGet_tabSet]

theorem tabGet_tabSet_ne {α : Type} (t : Tab α) {k j : Nat} (v d : α) (h : k ≠ j) :
    tabGet (tabSet t k v) j d = tabGet t j d := by
  simp [tabGet_tabSet, h]

/-- Keys of a table above `m`. -/
theorem tabWf_cons {α : Type} (e : Nat × α) (t : Tab α) :
    tabWf (e :: t) = (t.all (fun x => decide (e.1 < x.1)) && tabWf t) := by
  induction t generalizing e with
  | nil => simp [tabWf]
  | cons f r ih =>
    obtain ⟨i, v⟩ := e
    obtain ⟨j, w⟩ := f
    rw [show tabWf ((i, v) :: (j, w) :: r) = (decide (i < j) && tabWf ((j, w) :: r)) from rfl, ih (j, w)]
    rw [Bool.eq_iff_iff]
    simp only [Bool.and_eq_true, decide_eq_true_eq, List.all_eq_true, List.mem_cons, forall_eq_or_imp]
    constructor
    · rintro ⟨h1, h2, h3⟩
      exact ⟨⟨h1, fun x hx => lt_trans h1 (h2 x hx)⟩, h2, h3⟩
    · rintro ⟨⟨h1, _⟩, h2, h3⟩
      exact ⟨h1, h2, h3⟩

theorem mem_tabSet {α : Type} (t : Tab α) (k : Nat) (v : α) (x : Nat × α) (h : x ∈ tabSet t k v) : x = (k, v) ∨ x ∈ t := by
  induction t with
  | nil => simpa [tabSet] using h
  | cons e r ih =>
    obtain ⟨j, w⟩ := e
    simp only [tabSet] at h
    split at h
    · simpa using h
    · split at h
      · rcases List.mem_cons.1 h with h | h
        · exact .inl h
        · exact .inr (List.mem_cons_of_mem _ h)
      · rcases List.mem_cons.1 h with h | h
        · exact .inr (h ▸ List.mem_cons_self ..)
        · rcases ih h with h | h
          · exact .inl h
          · exact .inr (List.mem_cons_of_mem _ h)

/-- A write keeps the keys of a table rising. -/
theorem tabWf_tabSet {α : Type} (t : Tab α) (k : Nat) (v : α) (h : tabWf t = true) : tabWf (tabSet t k v) = true := by
  induction t with
  | nil => simp [tabSet, tabWf]
  | cons e r ih =>
    obtain ⟨j, w⟩ := e
    rw [tabWf_cons, Bool.and_eq_true, List.all_eq_true] at h
    simp only [decide_eq_true_eq] at h
    simp only [tabSet]
    split
    · rename_i hk
      rw [tabWf_cons, tabWf_cons]
      simp only [Bool.and_eq_true, List.all_eq_true, decide_eq_true_eq, List.mem_cons, forall_eq_or_imp]
      exact ⟨⟨hk, fun x hx => lt_trans hk (h.1 x hx)⟩, h.1, h.2⟩
    · split
      · rename_i hk; subst hk
        rw [tabWf_cons]
        simp only [Bool.and_eq_true, List.all_eq_true, decide_eq_true_eq]
        exact ⟨h.1, h.2⟩
      · rw [tabWf_cons]
        simp only [Bool.and_eq_true, List.all_eq_true, decide_eq_true_eq]
        refine ⟨fun x hx => ?_, ih h.2⟩
        rcases mem_tabSet r k v x hx with rfl | hx
        · show j < k
          omega
        · exact h.1 x hx

theorem tabDel_sublist {α : Type} (t : Tab α) (k : Nat) : (tabDel t k).Sublist t := by
  induction t with
  | nil => simp [tabDel]
  | cons e r ih =>
    obtain ⟨j, w⟩ := e
    simp only [tabDel]
    split
    · exact ih.cons _
    · exact ih.cons_cons _

/-- A part of a table with rising keys has rising keys. -/
theorem tabWf_sublist {α : Type} {t u : Tab α} (h : t.Sublist u) (hw : tabWf u = true) : tabWf t = true := by
  induction h with
  | slnil => rfl
  | cons a _ ih =>
    rw [tabWf_cons, Bool.and_eq_true] at hw
    exact ih hw.2
  | cons_cons a hs ih =>
    rw [tabWf_cons, Bool.and_eq_true, List.all_eq_true] at hw ⊢
    exact ⟨fun x hx => hw.1 x (hs.subset hx), ih hw.2⟩

/-- A part of a memory in canonical form is in canonical form. -/
theorem wf_sublist {d : Byte} {m n : Memory} (h : List.Sublist m n) (hw : Memory.wf d n = true) : Memory.wf d m = true := by
  simp only [Memory.wf, Bool.and_eq_true, List.all_eq_true] at hw ⊢
  exact ⟨tabWf_sublist h hw.1, fun x hx => hw.2 x (h.subset hx)⟩

/-- A byte written keeps the canonical form. -/
theorem wf_cellWrite {d : Byte} {m : Memory} (a : Nat) (b : Byte) (h : Memory.wf d m = true) : Memory.wf d (cellWrite d m a b) = true := by
  simp only [cellWrite]
  split
  · exact wf_sublist (tabDel_sublist m a) h
  · rename_i hb
    simp only [Memory.wf, Bool.and_eq_true, List.all_eq_true] at h ⊢
    refine ⟨tabWf_tabSet m a b h.1, fun x hx => ?_⟩
    rcases mem_tabSet m a b x hx with rfl | hx
    · simpa using hb
    · exact h.2 x hx

/-- Bytes written keep the canonical form. -/
theorem wf_cellsWrite {d : Byte} {m : Memory} (a : Nat) (bs : List Byte) (h : Memory.wf d m = true) :
    Memory.wf d (cellsWrite d m a bs) = true := by
  induction bs generalizing m a with
  | nil => exact h
  | cons b r ih => exact ih _ (wf_cellWrite a b h)

/-- A part of memory cleared keeps the canonical form. -/
theorem wf_filter {d : Byte} {m : Memory} (p : Host.Cell → Bool) (h : Memory.wf d m = true) : Memory.wf d (m.filter p) = true :=
  wf_sublist List.filter_sublist h

/-- The later of two assignments at one index stands. -/
theorem tabSet_tabSet {α : Type} (t : Tab α) (k : Nat) (v w : α) : tabSet (tabSet t k v) k w = tabSet t k w := by
  induction t with
  | nil => simp [tabSet]
  | cons e r ih =>
    obtain ⟨j, x⟩ := e
    simp only [tabSet]
    split
    · simp [tabSet]
    · split
      · simp [tabSet]
      · rename_i h1 h2
        simp only [tabSet, h1, h2, if_false, ih]

theorem tabGet_tabDel {α : Type} (t : Tab α) (k j : Nat) (d : α) : tabGet (tabDel t k) j d = if k = j then d else tabGet t j d := by
  induction t with
  | nil => simp [tabDel, tabGet]
  | cons e r ih =>
    obtain ⟨i, w⟩ := e
    simp only [tabDel]
    split
    · rename_i hi; subst hi
      rw [ih]
      by_cases hj : i = j <;> simp [tabGet, hj]
    · rename_i hi
      simp only [tabGet, ih]
      by_cases hj : i = j
      · simp [hj, show ¬ k = j by omega]
      · simp [hj]

/-- Whether an index is listed, after an entry is deleted. -/
theorem any_tabDel {α : Type} (t : Tab α) (k x : Nat) :
    (tabDel t k).any (fun e => decide (e.1 = x)) = (!decide (k = x) && t.any (fun e => decide (e.1 = x))) := by
  induction t with
  | nil => simp [tabDel]
  | cons e r ih =>
    obtain ⟨i, w⟩ := e
    simp only [tabDel]
    split
    · rename_i hi; subst hi
      rw [ih]
      by_cases hj : i = x <;> simp [hj]
    · rename_i hi
      simp only [List.any_cons, ih]
      by_cases hj : i = x
      · simp [hj, show ¬ k = x by omega]
      · simp [hj]

/-- Reading memory after a write: the byte written at its address, and what stood there elsewhere. -/
theorem cellRead_cellWrite {d : Byte} {m : Memory} (a x : Nat) (b : Byte) :
    cellRead d (cellWrite d m a b) x = if a = x then b else cellRead d m x := by
  simp only [cellRead, cellWrite]
  split
  · rename_i hb; subst hb
    exact tabGet_tabDel m a x b
  · exact tabGet_tabSet m a x b d

@[simp] theorem assocGet_assocSet_same {α : Type} (t : Assoc α) (r : RegId) (v d : α) : assocGet (assocSet t r v) r d = v := by
  induction t with
  | nil => simp [assocSet, assocGet]
  | cons e t ih =>
    obtain ⟨q, w⟩ := e
    simp only [assocSet]
    split
    · simp [assocGet]
    · rename_i h; simp [assocGet, h, ih]

theorem assocGet_assocSet_ne {α : Type} (t : Assoc α) {r q : RegId} (v d : α) (h : r ≠ q) :
    assocGet (assocSet t r v) q d = assocGet t q d := by
  induction t with
  | nil => simp [assocSet, assocGet, h]
  | cons e t ih =>
    obtain ⟨p, w⟩ := e
    simp only [assocSet]
    split
    · rename_i hp; subst hp; simp [assocGet, h]
    · rename_i hp
      by_cases hq : p = q <;> simp [assocGet, hq, ih]

theorem cellRead_cellsWrite (d : Byte) (m : Memory) (a : Nat) (bs : List Byte) (x : Nat) :
    cellRead d (cellsWrite d m a bs) x = if a ≤ x ∧ x < a + bs.length then bs.getD (x - a) d else cellRead d m x := by
  induction bs generalizing m a with
  | nil => simp only [cellsWrite, List.length_nil]; rw [if_neg (by omega)]
  | cons b r ih =>
    simp only [cellsWrite, List.length_cons]
    rw [ih, cellRead_cellWrite]
    by_cases h1 : a = x
    · subst h1
      rw [if_neg (by omega), if_pos rfl, if_pos (by omega)]
      simp
    · by_cases h2 : a + 1 ≤ x ∧ x < a + 1 + r.length
      · rw [if_pos h2, if_pos (by omega)]
        have : x - a = (x - (a + 1)) + 1 := by omega
        rw [this, List.getD_cons_succ]
      · rw [if_neg h2, if_neg h1, if_neg (by omega)]

/-- Bytes written are the bytes read. -/
theorem cellsRead_cellsWrite (d : Byte) (m : Memory) (a : Nat) (bs : List Byte) : cellsRead d (cellsWrite d m a bs) a bs.length = bs := by
  have key : ∀ (n x : Nat) (m : Memory) (cs : List Byte), cs.length = n → (∀ i, i < n → cellRead d m (x + i) = cs.getD i d) → cellsRead d m x n = cs := by
    intro n
    induction n with
    | zero => intro x m cs hl _; rw [List.length_eq_zero_iff.1 hl]; rfl
    | succ n ih =>
      intro x m cs hl h
      cases cs with
      | nil => cases hl
      | cons c cs =>
        simp only [cellsRead]
        have h0 := h 0 (by omega)
        simp only [Nat.add_zero, List.getD_cons_zero] at h0
        rw [h0, ih (x + 1) m cs (by simpa using hl)]
        intro i hi
        have := h (i + 1) (by omega)
        rw [List.getD_cons_succ] at this
        rw [← this]
        congr 1
        omega
  refine key _ _ _ _ rfl fun i hi => ?_
  rw [cellRead_cellsWrite, if_pos (by omega)]
  congr 1
  omega

end Sys2Proof.Machine
end

