-- ==== Sys2Proof/Laws/State.lean ====
section
/-! SUPPORT. What the named updates of a state leave: one lemma for each field and each reader that an update does not touch. -/

namespace Sys2Proof.Machine

variable (s : State)

@[simp] theorem State.pending_setWord (r : RegId) (w : Word) : (s.setWord r w).pending = s.pending := rfl
@[simp] theorem State.fuses_setWord (r : RegId) (w : Word) : (s.setWord r w).fuses = s.fuses := rfl
@[simp] theorem State.mem_setWord (r : RegId) (w : Word) : (s.setWord r w).mem = s.mem := rfl
@[simp] theorem State.undef_setWord (r : RegId) (w : Word) : (s.setWord r w).undef = s.undef := rfl
@[simp] theorem State.flash_setWord (r : RegId) (w : Word) : (s.setWord r w).flash = s.flash := rfl
@[simp] theorem State.pend_setWord (r : RegId) (w : Word) : (s.setWord r w).pend = s.pend := rfl
@[simp] theorem State.armed_setWord (r : RegId) (w : Word) : (s.setWord r w).armed = s.armed := rfl
@[simp] theorem State.cores_setWord (r : RegId) (w : Word) : (s.setWord r w).cores = s.cores := rfl
@[simp] theorem State.items_setWord (r : RegId) (w : Word) : (s.setWord r w).items = s.items := rfl
@[simp] theorem State.posts_setWord (r : RegId) (w : Word) : (s.setWord r w).posts = s.posts := rfl
@[simp] theorem State.rlists_setWord (r : RegId) (w : Word) : (s.setWord r w).rlists = s.rlists := rfl
@[simp] theorem State.ctrNext_setWord (r : RegId) (w : Word) : (s.setWord r w).ctrNext = s.ctrNext := rfl
@[simp] theorem State.chans_setWord (r : RegId) (w : Word) : (s.setWord r w).chans = s.chans := rfl
@[simp] theorem State.dies_setWord (r : RegId) (w : Word) : (s.setWord r w).dies = s.dies := rfl
@[simp] theorem State.links_setWord (r : RegId) (w : Word) : (s.setWord r w).links = s.links := rfl
@[simp] theorem State.ports_setWord (r : RegId) (w : Word) : (s.setWord r w).ports = s.ports := rfl
@[simp] theorem State.regions_setWord (r : RegId) (w : Word) : (s.setWord r w).regions = s.regions := rfl
@[simp] theorem State.job_setWord (r : RegId) (w : Word) : (s.setWord r w).job = s.job := rfl
@[simp] theorem State.team_setWord (r : RegId) (w : Word) : (s.setWord r w).team = s.team := rfl
@[simp] theorem State.frame_setWord (r : RegId) (w : Word) : (s.setWord r w).frame = s.frame := rfl
@[simp] theorem State.lamp_setWord (r : RegId) (w : Word) : (s.setWord r w).lamp = s.lamp := rfl
@[simp] theorem State.fw_setWord (r : RegId) (w : Word) : (s.setWord r w).fw = s.fw := rfl
@[simp] theorem State.ringHold_setWord (r : RegId) (w : Word) : (s.setWord r w).ringHold = s.ringHold := rfl
@[simp] theorem State.wire_setWord (r : RegId) (w : Word) : (s.setWord r w).wire = s.wire := rfl
@[simp] theorem State.fresh_setWord (r : RegId) (w : Word) : (s.setWord r w).fresh = s.fresh := rfl
@[simp] theorem State.core_setWord (r : RegId) (w : Word) (d0 q0 : Nat) : (s.setWord r w).core d0 q0 = s.core d0 q0 := rfl
@[simp] theorem State.item_setWord (r : RegId) (w : Word) (k0 : Nat) : (s.setWord r w).item k0 = s.item k0 := rfl
@[simp] theorem State.chan_setWord (r : RegId) (w : Word) (d0 n0 : Nat) : (s.setWord r w).chan d0 n0 = s.chan d0 n0 := rfl
@[simp] theorem State.die_setWord (r : RegId) (w : Word) (d0 : Nat) : (s.setWord r w).die d0 = s.die d0 := rfl
@[simp] theorem State.link_setWord (r : RegId) (w : Word) (d0 l0 : Nat) : (s.setWord r w).link d0 l0 = s.link d0 l0 := rfl
@[simp] theorem State.port_setWord (r : RegId) (w : Word) (d0 l0 : Nat) : (s.setWord r w).port d0 l0 = s.port d0 l0 := rfl
@[simp] theorem State.region_setWord (r : RegId) (w : Word) (r0 : Nat) : (s.setWord r w).region r0 = s.region r0 := rfl
@[simp] theorem State.sreg_setWord (r : RegId) (w : Word) (d0 q0 : Nat) (x0 : BitVec 5) : (s.setWord r w).sreg d0 q0 x0 = s.sreg d0 q0 x0 := rfl
@[simp] theorem State.preg_setWord (r : RegId) (w : Word) (d0 q0 : Nat) (x0 : BitVec 3) : (s.setWord r w).preg d0 q0 x0 = s.preg d0 q0 x0 := rfl
@[simp] theorem State.treg_setWord (r : RegId) (w : Word) (d0 q0 x0 : Nat) : (s.setWord r w).treg d0 q0 x0 = s.treg d0 q0 x0 := rfl

@[simp] theorem State.pending_wr (f : FRef) (v : Nat) : (s.wr f v).pending = s.pending := rfl
@[simp] theorem State.fuses_wr (f : FRef) (v : Nat) : (s.wr f v).fuses = s.fuses := rfl
@[simp] theorem State.mem_wr (f : FRef) (v : Nat) : (s.wr f v).mem = s.mem := rfl
@[simp] theorem State.undef_wr (f : FRef) (v : Nat) : (s.wr f v).undef = s.undef := rfl
@[simp] theorem State.flash_wr (f : FRef) (v : Nat) : (s.wr f v).flash = s.flash := rfl
@[simp] theorem State.pend_wr (f : FRef) (v : Nat) : (s.wr f v).pend = s.pend := rfl
@[simp] theorem State.armed_wr (f : FRef) (v : Nat) : (s.wr f v).armed = s.armed := rfl
@[simp] theorem State.cores_wr (f : FRef) (v : Nat) : (s.wr f v).cores = s.cores := rfl
@[simp] theorem State.items_wr (f : FRef) (v : Nat) : (s.wr f v).items = s.items := rfl
@[simp] theorem State.posts_wr (f : FRef) (v : Nat) : (s.wr f v).posts = s.posts := rfl
@[simp] theorem State.rlists_wr (f : FRef) (v : Nat) : (s.wr f v).rlists = s.rlists := rfl
@[simp] theorem State.ctrNext_wr (f : FRef) (v : Nat) : (s.wr f v).ctrNext = s.ctrNext := rfl
@[simp] theorem State.chans_wr (f : FRef) (v : Nat) : (s.wr f v).chans = s.chans := rfl
@[simp] theorem State.dies_wr (f : FRef) (v : Nat) : (s.wr f v).dies = s.dies := rfl
@[simp] theorem State.links_wr (f : FRef) (v : Nat) : (s.wr f v).links = s.links := rfl
@[simp] theorem State.ports_wr (f : FRef) (v : Nat) : (s.wr f v).ports = s.ports := rfl
@[simp] theorem State.regions_wr (f : FRef) (v : Nat) : (s.wr f v).regions = s.regions := rfl
@[simp] theorem State.job_wr (f : FRef) (v : Nat) : (s.wr f v).job = s.job := rfl
@[simp] theorem State.team_wr (f : FRef) (v : Nat) : (s.wr f v).team = s.team := rfl
@[simp] theorem State.frame_wr (f : FRef) (v : Nat) : (s.wr f v).frame = s.frame := rfl
@[simp] theorem State.lamp_wr (f : FRef) (v : Nat) : (s.wr f v).lamp = s.lamp := rfl
@[simp] theorem State.fw_wr (f : FRef) (v : Nat) : (s.wr f v).fw = s.fw := rfl
@[simp] theorem State.ringHold_wr (f : FRef) (v : Nat) : (s.wr f v).ringHold = s.ringHold := rfl
@[simp] theorem State.wire_wr (f : FRef) (v : Nat) : (s.wr f v).wire = s.wire := rfl
@[simp] theorem State.fresh_wr (f : FRef) (v : Nat) : (s.wr f v).fresh = s.fresh := rfl
@[simp] theorem State.core_wr (f : FRef) (v : Nat) (d0 q0 : Nat) : (s.wr f v).core d0 q0 = s.core d0 q0 := rfl
@[simp] theorem State.item_wr (f : FRef) (v : Nat) (k0 : Nat) : (s.wr f v).item k0 = s.item k0 := rfl
@[simp] theorem State.chan_wr (f : FRef) (v : Nat) (d0 n0 : Nat) : (s.wr f v).chan d0 n0 = s.chan d0 n0 := rfl
@[simp] theorem State.die_wr (f : FRef) (v : Nat) (d0 : Nat) : (s.wr f v).die d0 = s.die d0 := rfl
@[simp] theorem State.link_wr (f : FRef) (v : Nat) (d0 l0 : Nat) : (s.wr f v).link d0 l0 = s.link d0 l0 := rfl
@[simp] theorem State.port_wr (f : FRef) (v : Nat) (d0 l0 : Nat) : (s.wr f v).port d0 l0 = s.port d0 l0 := rfl
@[simp] theorem State.region_wr (f : FRef) (v : Nat) (r0 : Nat) : (s.wr f v).region r0 = s.region r0 := rfl
@[simp] theorem State.sreg_wr (f : FRef) (v : Nat) (d0 q0 : Nat) (x0 : BitVec 5) : (s.wr f v).sreg d0 q0 x0 = s.sreg d0 q0 x0 := rfl
@[simp] theorem State.preg_wr (f : FRef) (v : Nat) (d0 q0 : Nat) (x0 : BitVec 3) : (s.wr f v).preg d0 q0 x0 = s.preg d0 q0 x0 := rfl
@[simp] theorem State.treg_wr (f : FRef) (v : Nat) (d0 q0 x0 : Nat) : (s.wr f v).treg d0 q0 x0 = s.treg d0 q0 x0 := rfl

@[simp] theorem State.pending_count (f : FRef) (n : Nat) : (s.count f n).pending = s.pending := rfl
@[simp] theorem State.fuses_count (f : FRef) (n : Nat) : (s.count f n).fuses = s.fuses := rfl
@[simp] theorem State.mem_count (f : FRef) (n : Nat) : (s.count f n).mem = s.mem := rfl
@[simp] theorem State.undef_count (f : FRef) (n : Nat) : (s.count f n).undef = s.undef := rfl
@[simp] theorem State.flash_count (f : FRef) (n : Nat) : (s.count f n).flash = s.flash := rfl
@[simp] theorem State.pend_count (f : FRef) (n : Nat) : (s.count f n).pend = s.pend := rfl
@[simp] theorem State.armed_count (f : FRef) (n : Nat) : (s.count f n).armed = s.armed := rfl
@[simp] theorem State.cores_count (f : FRef) (n : Nat) : (s.count f n).cores = s.cores := rfl
@[simp] theorem State.items_count (f : FRef) (n : Nat) : (s.count f n).items = s.items := rfl
@[simp] theorem State.posts_count (f : FRef) (n : Nat) : (s.count f n).posts = s.posts := rfl
@[simp] theorem State.rlists_count (f : FRef) (n : Nat) : (s.count f n).rlists = s.rlists := rfl
@[simp] theorem State.ctrNext_count (f : FRef) (n : Nat) : (s.count f n).ctrNext = s.ctrNext := rfl
@[simp] theorem State.chans_count (f : FRef) (n : Nat) : (s.count f n).chans = s.chans := rfl
@[simp] theorem State.dies_count (f : FRef) (n : Nat) : (s.count f n).dies = s.dies := rfl
@[simp] theorem State.links_count (f : FRef) (n : Nat) : (s.count f n).links = s.links := rfl
@[simp] theorem State.ports_count (f : FRef) (n : Nat) : (s.count f n).ports = s.ports := rfl
@[simp] theorem State.regions_count (f : FRef) (n : Nat) : (s.count f n).regions = s.regions := rfl
@[simp] theorem State.job_count (f : FRef) (n : Nat) : (s.count f n).job = s.job := rfl
@[simp] theorem State.team_count (f : FRef) (n : Nat) : (s.count f n).team = s.team := rfl
@[simp] theorem State.frame_count (f : FRef) (n : Nat) : (s.count f n).frame = s.frame := rfl
@[simp] theorem State.lamp_count (f : FRef) (n : Nat) : (s.count f n).lamp = s.lamp := rfl
@[simp] theorem State.fw_count (f : FRef) (n : Nat) : (s.count f n).fw = s.fw := rfl
@[simp] theorem State.ringHold_count (f : FRef) (n : Nat) : (s.count f n).ringHold = s.ringHold := rfl
@[simp] theorem State.wire_count (f : FRef) (n : Nat) : (s.count f n).wire = s.wire := rfl
@[simp] theorem State.fresh_count (f : FRef) (n : Nat) : (s.count f n).fresh = s.fresh := rfl
@[simp] theorem State.core_count (f : FRef) (n : Nat) (d0 q0 : Nat) : (s.count f n).core d0 q0 = s.core d0 q0 := rfl
@[simp] theorem State.item_count (f : FRef) (n : Nat) (k0 : Nat) : (s.count f n).item k0 = s.item k0 := rfl
@[simp] theorem State.chan_count (f : FRef) (n : Nat) (d0 n0 : Nat) : (s.count f n).chan d0 n0 = s.chan d0 n0 := rfl
@[simp] theorem State.die_count (f : FRef) (n : Nat) (d0 : Nat) : (s.count f n).die d0 = s.die d0 := rfl
@[simp] theorem State.link_count (f : FRef) (n : Nat) (d0 l0 : Nat) : (s.count f n).link d0 l0 = s.link d0 l0 := rfl
@[simp] theorem State.port_count (f : FRef) (n : Nat) (d0 l0 : Nat) : (s.count f n).port d0 l0 = s.port d0 l0 := rfl
@[simp] theorem State.region_count (f : FRef) (n : Nat) (r0 : Nat) : (s.count f n).region r0 = s.region r0 := rfl
@[simp] theorem State.sreg_count (f : FRef) (n : Nat) (d0 q0 : Nat) (x0 : BitVec 5) : (s.count f n).sreg d0 q0 x0 = s.sreg d0 q0 x0 := rfl
@[simp] theorem State.preg_count (f : FRef) (n : Nat) (d0 q0 : Nat) (x0 : BitVec 3) : (s.count f n).preg d0 q0 x0 = s.preg d0 q0 x0 := rfl
@[simp] theorem State.treg_count (f : FRef) (n : Nat) (d0 q0 x0 : Nat) : (s.count f n).treg d0 q0 x0 = s.treg d0 q0 x0 := rfl

@[simp] theorem State.pending_accum (f : FRef) (n : Nat) : (s.accum f n).pending = s.pending := rfl
@[simp] theorem State.fuses_accum (f : FRef) (n : Nat) : (s.accum f n).fuses = s.fuses := rfl
@[simp] theorem State.mem_accum (f : FRef) (n : Nat) : (s.accum f n).mem = s.mem := rfl
@[simp] theorem State.undef_accum (f : FRef) (n : Nat) : (s.accum f n).undef = s.undef := rfl
@[simp] theorem State.flash_accum (f : FRef) (n : Nat) : (s.accum f n).flash = s.flash := rfl
@[simp] theorem State.pend_accum (f : FRef) (n : Nat) : (s.accum f n).pend = s.pend := rfl
@[simp] theorem State.armed_accum (f : FRef) (n : Nat) : (s.accum f n).armed = s.armed := rfl
@[simp] theorem State.cores_accum (f : FRef) (n : Nat) : (s.accum f n).cores = s.cores := rfl
@[simp] theorem State.items_accum (f : FRef) (n : Nat) : (s.accum f n).items = s.items := rfl
@[simp] theorem State.posts_accum (f : FRef) (n : Nat) : (s.accum f n).posts = s.posts := rfl
@[simp] theorem State.rlists_accum (f : FRef) (n : Nat) : (s.accum f n).rlists = s.rlists := rfl
@[simp] theorem State.ctrNext_accum (f : FRef) (n : Nat) : (s.accum f n).ctrNext = s.ctrNext := rfl
@[simp] theorem State.chans_accum (f : FRef) (n : Nat) : (s.accum f n).chans = s.chans := rfl
@[simp] theorem State.dies_accum (f : FRef) (n : Nat) : (s.accum f n).dies = s.dies := rfl
@[simp] theorem State.links_accum (f : FRef) (n : Nat) : (s.accum f n).links = s.links := rfl
@[simp] theorem State.ports_accum (f : FRef) (n : Nat) : (s.accum f n).ports = s.ports := rfl
@[simp] theorem State.regions_accum (f : FRef) (n : Nat) : (s.accum f n).regions = s.regions := rfl
@[simp] theorem State.job_accum (f : FRef) (n : Nat) : (s.accum f n).job = s.job := rfl
@[simp] theorem State.team_accum (f : FRef) (n : Nat) : (s.accum f n).team = s.team := rfl
@[simp] theorem State.frame_accum (f : FRef) (n : Nat) : (s.accum f n).frame = s.frame := rfl
@[simp] theorem State.lamp_accum (f : FRef) (n : Nat) : (s.accum f n).lamp = s.lamp := rfl
@[simp] theorem State.fw_accum (f : FRef) (n : Nat) : (s.accum f n).fw = s.fw := rfl
@[simp] theorem State.ringHold_accum (f : FRef) (n : Nat) : (s.accum f n).ringHold = s.ringHold := rfl
@[simp] theorem State.wire_accum (f : FRef) (n : Nat) : (s.accum f n).wire = s.wire := rfl
@[simp] theorem State.fresh_accum (f : FRef) (n : Nat) : (s.accum f n).fresh = s.fresh := rfl
@[simp] theorem State.core_accum (f : FRef) (n : Nat) (d0 q0 : Nat) : (s.accum f n).core d0 q0 = s.core d0 q0 := rfl
@[simp] theorem State.item_accum (f : FRef) (n : Nat) (k0 : Nat) : (s.accum f n).item k0 = s.item k0 := rfl
@[simp] theorem State.chan_accum (f : FRef) (n : Nat) (d0 n0 : Nat) : (s.accum f n).chan d0 n0 = s.chan d0 n0 := rfl
@[simp] theorem State.die_accum (f : FRef) (n : Nat) (d0 : Nat) : (s.accum f n).die d0 = s.die d0 := rfl
@[simp] theorem State.link_accum (f : FRef) (n : Nat) (d0 l0 : Nat) : (s.accum f n).link d0 l0 = s.link d0 l0 := rfl
@[simp] theorem State.port_accum (f : FRef) (n : Nat) (d0 l0 : Nat) : (s.accum f n).port d0 l0 = s.port d0 l0 := rfl
@[simp] theorem State.region_accum (f : FRef) (n : Nat) (r0 : Nat) : (s.accum f n).region r0 = s.region r0 := rfl
@[simp] theorem State.sreg_accum (f : FRef) (n : Nat) (d0 q0 : Nat) (x0 : BitVec 5) : (s.accum f n).sreg d0 q0 x0 = s.sreg d0 q0 x0 := rfl
@[simp] theorem State.preg_accum (f : FRef) (n : Nat) (d0 q0 : Nat) (x0 : BitVec 3) : (s.accum f n).preg d0 q0 x0 = s.preg d0 q0 x0 := rfl
@[simp] theorem State.treg_accum (f : FRef) (n : Nat) (d0 q0 x0 : Nat) : (s.accum f n).treg d0 q0 x0 = s.treg d0 q0 x0 := rfl

@[simp] theorem State.pending_modCore (d q : Nat) (g : Core → Core) : (s.modCore d q g).pending = s.pending := rfl
@[simp] theorem State.fuses_modCore (d q : Nat) (g : Core → Core) : (s.modCore d q g).fuses = s.fuses := rfl
@[simp] theorem State.mem_modCore (d q : Nat) (g : Core → Core) : (s.modCore d q g).mem = s.mem := rfl
@[simp] theorem State.undef_modCore (d q : Nat) (g : Core → Core) : (s.modCore d q g).undef = s.undef := rfl
@[simp] theorem State.flash_modCore (d q : Nat) (g : Core → Core) : (s.modCore d q g).flash = s.flash := rfl
@[simp] theorem State.regs_modCore (d q : Nat) (g : Core → Core) : (s.modCore d q g).regs = s.regs := rfl
@[simp] theorem State.pend_modCore (d q : Nat) (g : Core → Core) : (s.modCore d q g).pend = s.pend := rfl
@[simp] theorem State.armed_modCore (d q : Nat) (g : Core → Core) : (s.modCore d q g).armed = s.armed := rfl
@[simp] theorem State.items_modCore (d q : Nat) (g : Core → Core) : (s.modCore d q g).items = s.items := rfl
@[simp] theorem State.posts_modCore (d q : Nat) (g : Core → Core) : (s.modCore d q g).posts = s.posts := rfl
@[simp] theorem State.rlists_modCore (d q : Nat) (g : Core → Core) : (s.modCore d q g).rlists = s.rlists := rfl
@[simp] theorem State.ctrNext_modCore (d q : Nat) (g : Core → Core) : (s.modCore d q g).ctrNext = s.ctrNext := rfl
@[simp] theorem State.chans_modCore (d q : Nat) (g : Core → Core) : (s.modCore d q g).chans = s.chans := rfl
@[simp] theorem State.dies_modCore (d q : Nat) (g : Core → Core) : (s.modCore d q g).dies = s.dies := rfl
@[simp] theorem State.links_modCore (d q : Nat) (g : Core → Core) : (s.modCore d q g).links = s.links := rfl
@[simp] theorem State.ports_modCore (d q : Nat) (g : Core → Core) : (s.modCore d q g).ports = s.ports := rfl
@[simp] theorem State.regions_modCore (d q : Nat) (g : Core → Core) : (s.modCore d q g).regions = s.regions := rfl
@[simp] theorem State.job_modCore (d q : Nat) (g : Core → Core) : (s.modCore d q g).job = s.job := rfl
@[simp] theorem State.team_modCore (d q : Nat) (g : Core → Core) : (s.modCore d q g).team = s.team := rfl
@[simp] theorem State.frame_modCore (d q : Nat) (g : Core → Core) : (s.modCore d q g).frame = s.frame := rfl
@[simp] theorem State.lamp_modCore (d q : Nat) (g : Core → Core) : (s.modCore d q g).lamp = s.lamp := rfl
@[simp] theorem State.fw_modCore (d q : Nat) (g : Core → Core) : (s.modCore d q g).fw = s.fw := rfl
@[simp] theorem State.ringHold_modCore (d q : Nat) (g : Core → Core) : (s.modCore d q g).ringHold = s.ringHold := rfl
@[simp] theorem State.wire_modCore (d q : Nat) (g : Core → Core) : (s.modCore d q g).wire = s.wire := rfl
@[simp] theorem State.fresh_modCore (d q : Nat) (g : Core → Core) : (s.modCore d q g).fresh = s.fresh := rfl
@[simp] theorem State.word_modCore (d q : Nat) (g : Core → Core) (r0 : RegId) : (s.modCore d q g).word r0 = s.word r0 := rfl
@[simp] theorem State.rd_modCore (d q : Nat) (g : Core → Core) (f0 : FRef) : (s.modCore d q g).rd f0 = s.rd f0 := rfl
@[simp] theorem State.flag_modCore (d q : Nat) (g : Core → Core) (f0 : FRef) : (s.modCore d q g).flag f0 = s.flag f0 := rfl
@[simp] theorem State.item_modCore (d q : Nat) (g : Core → Core) (k0 : Nat) : (s.modCore d q g).item k0 = s.item k0 := rfl
@[simp] theorem State.chan_modCore (d q : Nat) (g : Core → Core) (d0 n0 : Nat) : (s.modCore d q g).chan d0 n0 = s.chan d0 n0 := rfl
@[simp] theorem State.die_modCore (d q : Nat) (g : Core → Core) (d0 : Nat) : (s.modCore d q g).die d0 = s.die d0 := rfl
@[simp] theorem State.link_modCore (d q : Nat) (g : Core → Core) (d0 l0 : Nat) : (s.modCore d q g).link d0 l0 = s.link d0 l0 := rfl
@[simp] theorem State.port_modCore (d q : Nat) (g : Core → Core) (d0 l0 : Nat) : (s.modCore d q g).port d0 l0 = s.port d0 l0 := rfl
@[simp] theorem State.region_modCore (d q : Nat) (g : Core → Core) (r0 : Nat) : (s.modCore d q g).region r0 = s.region r0 := rfl
@[simp] theorem State.frameSeq_modCore (d q : Nat) (g : Core → Core)  : (s.modCore d q g).frameSeq  = s.frameSeq  := rfl
@[simp] theorem State.byteAt_modCore (d q : Nat) (g : Core → Core) (a0 : Nat) : (s.modCore d q g).byteAt a0 = s.byteAt a0 := rfl

@[simp] theorem State.pending_modItem (k : Nat) (g : Item → Item) : (s.modItem k g).pending = s.pending := rfl
@[simp] theorem State.fuses_modItem (k : Nat) (g : Item → Item) : (s.modItem k g).fuses = s.fuses := rfl
@[simp] theorem State.mem_modItem (k : Nat) (g : Item → Item) : (s.modItem k g).mem = s.mem := rfl
@[simp] theorem State.undef_modItem (k : Nat) (g : Item → Item) : (s.modItem k g).undef = s.undef := rfl
@[simp] theorem State.flash_modItem (k : Nat) (g : Item → Item) : (s.modItem k g).flash = s.flash := rfl
@[simp] theorem State.regs_modItem (k : Nat) (g : Item → Item) : (s.modItem k g).regs = s.regs := rfl
@[simp] theorem State.pend_modItem (k : Nat) (g : Item → Item) : (s.modItem k g).pend = s.pend := rfl
@[simp] theorem State.armed_modItem (k : Nat) (g : Item → Item) : (s.modItem k g).armed = s.armed := rfl
@[simp] theorem State.cores_modItem (k : Nat) (g : Item → Item) : (s.modItem k g).cores = s.cores := rfl
@[simp] theorem State.posts_modItem (k : Nat) (g : Item → Item) : (s.modItem k g).posts = s.posts := rfl
@[simp] theorem State.rlists_modItem (k : Nat) (g : Item → Item) : (s.modItem k g).rlists = s.rlists := rfl
@[simp] theorem State.ctrNext_modItem (k : Nat) (g : Item → Item) : (s.modItem k g).ctrNext = s.ctrNext := rfl
@[simp] theorem State.chans_modItem (k : Nat) (g : Item → Item) : (s.modItem k g).chans = s.chans := rfl
@[simp] theorem State.dies_modItem (k : Nat) (g : Item → Item) : (s.modItem k g).dies = s.dies := rfl
@[simp] theorem State.links_modItem (k : Nat) (g : Item → Item) : (s.modItem k g).links = s.links := rfl
@[simp] theorem State.ports_modItem (k : Nat) (g : Item → Item) : (s.modItem k g).ports = s.ports := rfl
@[simp] theorem State.regions_modItem (k : Nat) (g : Item → Item) : (s.modItem k g).regions = s.regions := rfl
@[simp] theorem State.job_modItem (k : Nat) (g : Item → Item) : (s.modItem k g).job = s.job := rfl
@[simp] theorem State.team_modItem (k : Nat) (g : Item → Item) : (s.modItem k g).team = s.team := rfl
@[simp] theorem State.frame_modItem (k : Nat) (g : Item → Item) : (s.modItem k g).frame = s.frame := rfl
@[simp] theorem State.lamp_modItem (k : Nat) (g : Item → Item) : (s.modItem k g).lamp = s.lamp := rfl
@[simp] theorem State.fw_modItem (k : Nat) (g : Item → Item) : (s.modItem k g).fw = s.fw := rfl
@[simp] theorem State.ringHold_modItem (k : Nat) (g : Item → Item) : (s.modItem k g).ringHold = s.ringHold := rfl
@[simp] theorem State.wire_modItem (k : Nat) (g : Item → Item) : (s.modItem k g).wire = s.wire := rfl
@[simp] theorem State.fresh_modItem (k : Nat) (g : Item → Item) : (s.modItem k g).fresh = s.fresh := rfl
@[simp] theorem State.word_modItem (k : Nat) (g : Item → Item) (r0 : RegId) : (s.modItem k g).word r0 = s.word r0 := rfl
@[simp] theorem State.rd_modItem (k : Nat) (g : Item → Item) (f0 : FRef) : (s.modItem k g).rd f0 = s.rd f0 := rfl
@[simp] theorem State.flag_modItem (k : Nat) (g : Item → Item) (f0 : FRef) : (s.modItem k g).flag f0 = s.flag f0 := rfl
@[simp] theorem State.core_modItem (k : Nat) (g : Item → Item) (d0 q0 : Nat) : (s.modItem k g).core d0 q0 = s.core d0 q0 := rfl
@[simp] theorem State.chan_modItem (k : Nat) (g : Item → Item) (d0 n0 : Nat) : (s.modItem k g).chan d0 n0 = s.chan d0 n0 := rfl
@[simp] theorem State.die_modItem (k : Nat) (g : Item → Item) (d0 : Nat) : (s.modItem k g).die d0 = s.die d0 := rfl
@[simp] theorem State.link_modItem (k : Nat) (g : Item → Item) (d0 l0 : Nat) : (s.modItem k g).link d0 l0 = s.link d0 l0 := rfl
@[simp] theorem State.port_modItem (k : Nat) (g : Item → Item) (d0 l0 : Nat) : (s.modItem k g).port d0 l0 = s.port d0 l0 := rfl
@[simp] theorem State.region_modItem (k : Nat) (g : Item → Item) (r0 : Nat) : (s.modItem k g).region r0 = s.region r0 := rfl
@[simp] theorem State.sreg_modItem (k : Nat) (g : Item → Item) (d0 q0 : Nat) (x0 : BitVec 5) : (s.modItem k g).sreg d0 q0 x0 = s.sreg d0 q0 x0 := rfl
@[simp] theorem State.preg_modItem (k : Nat) (g : Item → Item) (d0 q0 : Nat) (x0 : BitVec 3) : (s.modItem k g).preg d0 q0 x0 = s.preg d0 q0 x0 := rfl
@[simp] theorem State.treg_modItem (k : Nat) (g : Item → Item) (d0 q0 x0 : Nat) : (s.modItem k g).treg d0 q0 x0 = s.treg d0 q0 x0 := rfl
@[simp] theorem State.frameSeq_modItem (k : Nat) (g : Item → Item)  : (s.modItem k g).frameSeq  = s.frameSeq  := rfl
@[simp] theorem State.byteAt_modItem (k : Nat) (g : Item → Item) (a0 : Nat) : (s.modItem k g).byteAt a0 = s.byteAt a0 := rfl

@[simp] theorem State.pending_modChan (d n : Nat) (g : Chan → Chan) : (s.modChan d n g).pending = s.pending := rfl
@[simp] theorem State.fuses_modChan (d n : Nat) (g : Chan → Chan) : (s.modChan d n g).fuses = s.fuses := rfl
@[simp] theorem State.mem_modChan (d n : Nat) (g : Chan → Chan) : (s.modChan d n g).mem = s.mem := rfl
@[simp] theorem State.undef_modChan (d n : Nat) (g : Chan → Chan) : (s.modChan d n g).undef = s.undef := rfl
@[simp] theorem State.flash_modChan (d n : Nat) (g : Chan → Chan) : (s.modChan d n g).flash = s.flash := rfl
@[simp] theorem State.regs_modChan (d n : Nat) (g : Chan → Chan) : (s.modChan d n g).regs = s.regs := rfl
@[simp] theorem State.pend_modChan (d n : Nat) (g : Chan → Chan) : (s.modChan d n g).pend = s.pend := rfl
@[simp] theorem State.armed_modChan (d n : Nat) (g : Chan → Chan) : (s.modChan d n g).armed = s.armed := rfl
@[simp] theorem State.cores_modChan (d n : Nat) (g : Chan → Chan) : (s.modChan d n g).cores = s.cores := rfl
@[simp] theorem State.items_modChan (d n : Nat) (g : Chan → Chan) : (s.modChan d n g).items = s.items := rfl
@[simp] theorem State.posts_modChan (d n : Nat) (g : Chan → Chan) : (s.modChan d n g).posts = s.posts := rfl
@[simp] theorem State.rlists_modChan (d n : Nat) (g : Chan → Chan) : (s.modChan d n g).rlists = s.rlists := rfl
@[simp] theorem State.ctrNext_modChan (d n : Nat) (g : Chan → Chan) : (s.modChan d n g).ctrNext = s.ctrNext := rfl
@[simp] theorem State.dies_modChan (d n : Nat) (g : Chan → Chan) : (s.modChan d n g).dies = s.dies := rfl
@[simp] theorem State.links_modChan (d n : Nat) (g : Chan → Chan) : (s.modChan d n g).links = s.links := rfl
@[simp] theorem State.ports_modChan (d n : Nat) (g : Chan → Chan) : (s.modChan d n g).ports = s.ports := rfl
@[simp] theorem State.regions_modChan (d n : Nat) (g : Chan → Chan) : (s.modChan d n g).regions = s.regions := rfl
@[simp] theorem State.job_modChan (d n : Nat) (g : Chan → Chan) : (s.modChan d n g).job = s.job := rfl
@[simp] theorem State.team_modChan (d n : Nat) (g : Chan → Chan) : (s.modChan d n g).team = s.team := rfl
@[simp] theorem State.frame_modChan (d n : Nat) (g : Chan → Chan) : (s.modChan d n g).frame = s.frame := rfl
@[simp] theorem State.lamp_modChan (d n : Nat) (g : Chan → Chan) : (s.modChan d n g).lamp = s.lamp := rfl
@[simp] theorem State.fw_modChan (d n : Nat) (g : Chan → Chan) : (s.modChan d n g).fw = s.fw := rfl
@[simp] theorem State.ringHold_modChan (d n : Nat) (g : Chan → Chan) : (s.modChan d n g).ringHold = s.ringHold := rfl
@[simp] theorem State.wire_modChan (d n : Nat) (g : Chan → Chan) : (s.modChan d n g).wire = s.wire := rfl
@[simp] theorem State.fresh_modChan (d n : Nat) (g : Chan → Chan) : (s.modChan d n g).fresh = s.fresh := rfl
@[simp] theorem State.word_modChan (d n : Nat) (g : Chan → Chan) (r0 : RegId) : (s.modChan d n g).word r0 = s.word r0 := rfl
@[simp] theorem State.rd_modChan (d n : Nat) (g : Chan → Chan) (f0 : FRef) : (s.modChan d n g).rd f0 = s.rd f0 := rfl
@[simp] theorem State.flag_modChan (d n : Nat) (g : Chan → Chan) (f0 : FRef) : (s.modChan d n g).flag f0 = s.flag f0 := rfl
@[simp] theorem State.core_modChan (d n : Nat) (g : Chan → Chan) (d0 q0 : Nat) : (s.modChan d n g).core d0 q0 = s.core d0 q0 := rfl
@[simp] theorem State.item_modChan (d n : Nat) (g : Chan → Chan) (k0 : Nat) : (s.modChan d n g).item k0 = s.item k0 := rfl
@[simp] theorem State.die_modChan (d n : Nat) (g : Chan → Chan) (d0 : Nat) : (s.modChan d n g).die d0 = s.die d0 := rfl
@[simp] theorem State.link_modChan (d n : Nat) (g : Chan → Chan) (d0 l0 : Nat) : (s.modChan d n g).link d0 l0 = s.link d0 l0 := rfl
@[simp] theorem State.port_modChan (d n : Nat) (g : Chan → Chan) (d0 l0 : Nat) : (s.modChan d n g).port d0 l0 = s.port d0 l0 := rfl
@[simp] theorem State.region_modChan (d n : Nat) (g : Chan → Chan) (r0 : Nat) : (s.modChan d n g).region r0 = s.region r0 := rfl
@[simp] theorem State.sreg_modChan (d n : Nat) (g : Chan → Chan) (d0 q0 : Nat) (x0 : BitVec 5) : (s.modChan d n g).sreg d0 q0 x0 = s.sreg d0 q0 x0 := rfl
@[simp] theorem State.preg_modChan (d n : Nat) (g : Chan → Chan) (d0 q0 : Nat) (x0 : BitVec 3) : (s.modChan d n g).preg d0 q0 x0 = s.preg d0 q0 x0 := rfl
@[simp] theorem State.treg_modChan (d n : Nat) (g : Chan → Chan) (d0 q0 x0 : Nat) : (s.modChan d n g).treg d0 q0 x0 = s.treg d0 q0 x0 := rfl
@[simp] theorem State.frameSeq_modChan (d n : Nat) (g : Chan → Chan)  : (s.modChan d n g).frameSeq  = s.frameSeq  := rfl
@[simp] theorem State.byteAt_modChan (d n : Nat) (g : Chan → Chan) (a0 : Nat) : (s.modChan d n g).byteAt a0 = s.byteAt a0 := rfl

@[simp] theorem State.pending_modDie (d : Nat) (g : Die → Die) : (s.modDie d g).pending = s.pending := rfl
@[simp] theorem State.fuses_modDie (d : Nat) (g : Die → Die) : (s.modDie d g).fuses = s.fuses := rfl
@[simp] theorem State.mem_modDie (d : Nat) (g : Die → Die) : (s.modDie d g).mem = s.mem := rfl
@[simp] theorem State.undef_modDie (d : Nat) (g : Die → Die) : (s.modDie d g).undef = s.undef := rfl
@[simp] theorem State.flash_modDie (d : Nat) (g : Die → Die) : (s.modDie d g).flash = s.flash := rfl
@[simp] theorem State.regs_modDie (d : Nat) (g : Die → Die) : (s.modDie d g).regs = s.regs := rfl
@[simp] theorem State.pend_modDie (d : Nat) (g : Die → Die) : (s.modDie d g).pend = s.pend := rfl
@[simp] theorem State.armed_modDie (d : Nat) (g : Die → Die) : (s.modDie d g).armed = s.armed := rfl
@[simp] theorem State.cores_modDie (d : Nat) (g : Die → Die) : (s.modDie d g).cores = s.cores := rfl
@[simp] theorem State.items_modDie (d : Nat) (g : Die → Die) : (s.modDie d g).items = s.items := rfl
@[simp] theorem State.posts_modDie (d : Nat) (g : Die → Die) : (s.modDie d g).posts = s.posts := rfl
@[simp] theorem State.rlists_modDie (d : Nat) (g : Die → Die) : (s.modDie d g).rlists = s.rlists := rfl
@[simp] theorem State.ctrNext_modDie (d : Nat) (g : Die → Die) : (s.modDie d g).ctrNext = s.ctrNext := rfl
@[simp] theorem State.chans_modDie (d : Nat) (g : Die → Die) : (s.modDie d g).chans = s.chans := rfl
@[simp] theorem State.links_modDie (d : Nat) (g : Die → Die) : (s.modDie d g).links = s.links := rfl
@[simp] theorem State.ports_modDie (d : Nat) (g : Die → Die) : (s.modDie d g).ports = s.ports := rfl
@[simp] theorem State.regions_modDie (d : Nat) (g : Die → Die) : (s.modDie d g).regions = s.regions := rfl
@[simp] theorem State.job_modDie (d : Nat) (g : Die → Die) : (s.modDie d g).job = s.job := rfl
@[simp] theorem State.team_modDie (d : Nat) (g : Die → Die) : (s.modDie d g).team = s.team := rfl
@[simp] theorem State.frame_modDie (d : Nat) (g : Die → Die) : (s.modDie d g).frame = s.frame := rfl
@[simp] theorem State.lamp_modDie (d : Nat) (g : Die → Die) : (s.modDie d g).lamp = s.lamp := rfl
@[simp] theorem State.fw_modDie (d : Nat) (g : Die → Die) : (s.modDie d g).fw = s.fw := rfl
@[simp] theorem State.ringHold_modDie (d : Nat) (g : Die → Die) : (s.modDie d g).ringHold = s.ringHold := rfl
@[simp] theorem State.wire_modDie (d : Nat) (g : Die → Die) : (s.modDie d g).wire = s.wire := rfl
@[simp] theorem State.fresh_modDie (d : Nat) (g : Die → Die) : (s.modDie d g).fresh = s.fresh := rfl
@[simp] theorem State.word_modDie (d : Nat) (g : Die → Die) (r0 : RegId) : (s.modDie d g).word r0 = s.word r0 := rfl
@[simp] theorem State.rd_modDie (d : Nat) (g : Die → Die) (f0 : FRef) : (s.modDie d g).rd f0 = s.rd f0 := rfl
@[simp] theorem State.flag_modDie (d : Nat) (g : Die → Die) (f0 : FRef) : (s.modDie d g).flag f0 = s.flag f0 := rfl
@[simp] theorem State.core_modDie (d : Nat) (g : Die → Die) (d0 q0 : Nat) : (s.modDie d g).core d0 q0 = s.core d0 q0 := rfl
@[simp] theorem State.item_modDie (d : Nat) (g : Die → Die) (k0 : Nat) : (s.modDie d g).item k0 = s.item k0 := rfl
@[simp] theorem State.chan_modDie (d : Nat) (g : Die → Die) (d0 n0 : Nat) : (s.modDie d g).chan d0 n0 = s.chan d0 n0 := rfl
@[simp] theorem State.link_modDie (d : Nat) (g : Die → Die) (d0 l0 : Nat) : (s.modDie d g).link d0 l0 = s.link d0 l0 := rfl
@[simp] theorem State.port_modDie (d : Nat) (g : Die → Die) (d0 l0 : Nat) : (s.modDie d g).port d0 l0 = s.port d0 l0 := rfl
@[simp] theorem State.region_modDie (d : Nat) (g : Die → Die) (r0 : Nat) : (s.modDie d g).region r0 = s.region r0 := rfl
@[simp] theorem State.sreg_modDie (d : Nat) (g : Die → Die) (d0 q0 : Nat) (x0 : BitVec 5) : (s.modDie d g).sreg d0 q0 x0 = s.sreg d0 q0 x0 := rfl
@[simp] theorem State.preg_modDie (d : Nat) (g : Die → Die) (d0 q0 : Nat) (x0 : BitVec 3) : (s.modDie d g).preg d0 q0 x0 = s.preg d0 q0 x0 := rfl
@[simp] theorem State.treg_modDie (d : Nat) (g : Die → Die) (d0 q0 x0 : Nat) : (s.modDie d g).treg d0 q0 x0 = s.treg d0 q0 x0 := rfl
@[simp] theorem State.frameSeq_modDie (d : Nat) (g : Die → Die)  : (s.modDie d g).frameSeq  = s.frameSeq  := rfl
@[simp] theorem State.byteAt_modDie (d : Nat) (g : Die → Die) (a0 : Nat) : (s.modDie d g).byteAt a0 = s.byteAt a0 := rfl

@[simp] theorem State.pending_modLink (d l : Nat) (g : Link → Link) : (s.modLink d l g).pending = s.pending := rfl
@[simp] theorem State.fuses_modLink (d l : Nat) (g : Link → Link) : (s.modLink d l g).fuses = s.fuses := rfl
@[simp] theorem State.mem_modLink (d l : Nat) (g : Link → Link) : (s.modLink d l g).mem = s.mem := rfl
@[simp] theorem State.undef_modLink (d l : Nat) (g : Link → Link) : (s.modLink d l g).undef = s.undef := rfl
@[simp] theorem State.flash_modLink (d l : Nat) (g : Link → Link) : (s.modLink d l g).flash = s.flash := rfl
@[simp] theorem State.regs_modLink (d l : Nat) (g : Link → Link) : (s.modLink d l g).regs = s.regs := rfl
@[simp] theorem State.pend_modLink (d l : Nat) (g : Link → Link) : (s.modLink d l g).pend = s.pend := rfl
@[simp] theorem State.armed_modLink (d l : Nat) (g : Link → Link) : (s.modLink d l g).armed = s.armed := rfl
@[simp] theorem State.cores_modLink (d l : Nat) (g : Link → Link) : (s.modLink d l g).cores = s.cores := rfl
@[simp] theorem State.items_modLink (d l : Nat) (g : Link → Link) : (s.modLink d l g).items = s.items := rfl
@[simp] theorem State.posts_modLink (d l : Nat) (g : Link → Link) : (s.modLink d l g).posts = s.posts := rfl
@[simp] theorem State.rlists_modLink (d l : Nat) (g : Link → Link) : (s.modLink d l g).rlists = s.rlists := rfl
@[simp] theorem State.ctrNext_modLink (d l : Nat) (g : Link → Link) : (s.modLink d l g).ctrNext = s.ctrNext := rfl
@[simp] theorem State.chans_modLink (d l : Nat) (g : Link → Link) : (s.modLink d l g).chans = s.chans := rfl
@[simp] theorem State.dies_modLink (d l : Nat) (g : Link → Link) : (s.modLink d l g).dies = s.dies := rfl
@[simp] theorem State.ports_modLink (d l : Nat) (g : Link → Link) : (s.modLink d l g).ports = s.ports := rfl
@[simp] theorem State.regions_modLink (d l : Nat) (g : Link → Link) : (s.modLink d l g).regions = s.regions := rfl
@[simp] theorem State.job_modLink (d l : Nat) (g : Link → Link) : (s.modLink d l g).job = s.job := rfl
@[simp] theorem State.team_modLink (d l : Nat) (g : Link → Link) : (s.modLink d l g).team = s.team := rfl
@[simp] theorem State.frame_modLink (d l : Nat) (g : Link → Link) : (s.modLink d l g).frame = s.frame := rfl
@[simp] theorem State.lamp_modLink (d l : Nat) (g : Link → Link) : (s.modLink d l g).lamp = s.lamp := rfl
@[simp] theorem State.fw_modLink (d l : Nat) (g : Link → Link) : (s.modLink d l g).fw = s.fw := rfl
@[simp] theorem State.ringHold_modLink (d l : Nat) (g : Link → Link) : (s.modLink d l g).ringHold = s.ringHold := rfl
@[simp] theorem State.wire_modLink (d l : Nat) (g : Link → Link) : (s.modLink d l g).wire = s.wire := rfl
@[simp] theorem State.fresh_modLink (d l : Nat) (g : Link → Link) : (s.modLink d l g).fresh = s.fresh := rfl
@[simp] theorem State.word_modLink (d l : Nat) (g : Link → Link) (r0 : RegId) : (s.modLink d l g).word r0 = s.word r0 := rfl
@[simp] theorem State.rd_modLink (d l : Nat) (g : Link → Link) (f0 : FRef) : (s.modLink d l g).rd f0 = s.rd f0 := rfl
@[simp] theorem State.flag_modLink (d l : Nat) (g : Link → Link) (f0 : FRef) : (s.modLink d l g).flag f0 = s.flag f0 := rfl
@[simp] theorem State.core_modLink (d l : Nat) (g : Link → Link) (d0 q0 : Nat) : (s.modLink d l g).core d0 q0 = s.core d0 q0 := rfl
@[simp] theorem State.item_modLink (d l : Nat) (g : Link → Link) (k0 : Nat) : (s.modLink d l g).item k0 = s.item k0 := rfl
@[simp] theorem State.chan_modLink (d l : Nat) (g : Link → Link) (d0 n0 : Nat) : (s.modLink d l g).chan d0 n0 = s.chan d0 n0 := rfl
@[simp] theorem State.die_modLink (d l : Nat) (g : Link → Link) (d0 : Nat) : (s.modLink d l g).die d0 = s.die d0 := rfl
@[simp] theorem State.port_modLink (d l : Nat) (g : Link → Link) (d0 l0 : Nat) : (s.modLink d l g).port d0 l0 = s.port d0 l0 := rfl
@[simp] theorem State.region_modLink (d l : Nat) (g : Link → Link) (r0 : Nat) : (s.modLink d l g).region r0 = s.region r0 := rfl
@[simp] theorem State.sreg_modLink (d l : Nat) (g : Link → Link) (d0 q0 : Nat) (x0 : BitVec 5) : (s.modLink d l g).sreg d0 q0 x0 = s.sreg d0 q0 x0 := rfl
@[simp] theorem State.preg_modLink (d l : Nat) (g : Link → Link) (d0 q0 : Nat) (x0 : BitVec 3) : (s.modLink d l g).preg d0 q0 x0 = s.preg d0 q0 x0 := rfl
@[simp] theorem State.treg_modLink (d l : Nat) (g : Link → Link) (d0 q0 x0 : Nat) : (s.modLink d l g).treg d0 q0 x0 = s.treg d0 q0 x0 := rfl
@[simp] theorem State.frameSeq_modLink (d l : Nat) (g : Link → Link)  : (s.modLink d l g).frameSeq  = s.frameSeq  := rfl
@[simp] theorem State.byteAt_modLink (d l : Nat) (g : Link → Link) (a0 : Nat) : (s.modLink d l g).byteAt a0 = s.byteAt a0 := rfl

@[simp] theorem State.pending_modPort (d l : Nat) (g : Port → Port) : (s.modPort d l g).pending = s.pending := rfl
@[simp] theorem State.fuses_modPort (d l : Nat) (g : Port → Port) : (s.modPort d l g).fuses = s.fuses := rfl
@[simp] theorem State.mem_modPort (d l : Nat) (g : Port → Port) : (s.modPort d l g).mem = s.mem := rfl
@[simp] theorem State.undef_modPort (d l : Nat) (g : Port → Port) : (s.modPort d l g).undef = s.undef := rfl
@[simp] theorem State.flash_modPort (d l : Nat) (g : Port → Port) : (s.modPort d l g).flash = s.flash := rfl
@[simp] theorem State.regs_modPort (d l : Nat) (g : Port → Port) : (s.modPort d l g).regs = s.regs := rfl
@[simp] theorem State.pend_modPort (d l : Nat) (g : Port → Port) : (s.modPort d l g).pend = s.pend := rfl
@[simp] theorem State.armed_modPort (d l : Nat) (g : Port → Port) : (s.modPort d l g).armed = s.armed := rfl
@[simp] theorem State.cores_modPort (d l : Nat) (g : Port → Port) : (s.modPort d l g).cores = s.cores := rfl
@[simp] theorem State.items_modPort (d l : Nat) (g : Port → Port) : (s.modPort d l g).items = s.items := rfl
@[simp] theorem State.posts_modPort (d l : Nat) (g : Port → Port) : (s.modPort d l g).posts = s.posts := rfl
@[simp] theorem State.rlists_modPort (d l : Nat) (g : Port → Port) : (s.modPort d l g).rlists = s.rlists := rfl
@[simp] theorem State.ctrNext_modPort (d l : Nat) (g : Port → Port) : (s.modPort d l g).ctrNext = s.ctrNext := rfl
@[simp] theorem State.chans_modPort (d l : Nat) (g : Port → Port) : (s.modPort d l g).chans = s.chans := rfl
@[simp] theorem State.dies_modPort (d l : Nat) (g : Port → Port) : (s.modPort d l g).dies = s.dies := rfl
@[simp] theorem State.links_modPort (d l : Nat) (g : Port → Port) : (s.modPort d l g).links = s.links := rfl
@[simp] theorem State.regions_modPort (d l : Nat) (g : Port → Port) : (s.modPort d l g).regions = s.regions := rfl
@[simp] theorem State.job_modPort (d l : Nat) (g : Port → Port) : (s.modPort d l g).job = s.job := rfl
@[simp] theorem State.team_modPort (d l : Nat) (g : Port → Port) : (s.modPort d l g).team = s.team := rfl
@[simp] theorem State.frame_modPort (d l : Nat) (g : Port → Port) : (s.modPort d l g).frame = s.frame := rfl
@[simp] theorem State.lamp_modPort (d l : Nat) (g : Port → Port) : (s.modPort d l g).lamp = s.lamp := rfl
@[simp] theorem State.fw_modPort (d l : Nat) (g : Port → Port) : (s.modPort d l g).fw = s.fw := rfl
@[simp] theorem State.ringHold_modPort (d l : Nat) (g : Port → Port) : (s.modPort d l g).ringHold = s.ringHold := rfl
@[simp] theorem State.wire_modPort (d l : Nat) (g : Port → Port) : (s.modPort d l g).wire = s.wire := rfl
@[simp] theorem State.fresh_modPort (d l : Nat) (g : Port → Port) : (s.modPort d l g).fresh = s.fresh := rfl
@[simp] theorem State.word_modPort (d l : Nat) (g : Port → Port) (r0 : RegId) : (s.modPort d l g).word r0 = s.word r0 := rfl
@[simp] theorem State.rd_modPort (d l : Nat) (g : Port → Port) (f0 : FRef) : (s.modPort d l g).rd f0 = s.rd f0 := rfl
@[simp] theorem State.flag_modPort (d l : Nat) (g : Port → Port) (f0 : FRef) : (s.modPort d l g).flag f0 = s.flag f0 := rfl
@[simp] theorem State.core_modPort (d l : Nat) (g : Port → Port) (d0 q0 : Nat) : (s.modPort d l g).core d0 q0 = s.core d0 q0 := rfl
@[simp] theorem State.item_modPort (d l : Nat) (g : Port → Port) (k0 : Nat) : (s.modPort d l g).item k0 = s.item k0 := rfl
@[simp] theorem State.chan_modPort (d l : Nat) (g : Port → Port) (d0 n0 : Nat) : (s.modPort d l g).chan d0 n0 = s.chan d0 n0 := rfl
@[simp] theorem State.die_modPort (d l : Nat) (g : Port → Port) (d0 : Nat) : (s.modPort d l g).die d0 = s.die d0 := rfl
@[simp] theorem State.link_modPort (d l : Nat) (g : Port → Port) (d0 l0 : Nat) : (s.modPort d l g).link d0 l0 = s.link d0 l0 := rfl
@[simp] theorem State.region_modPort (d l : Nat) (g : Port → Port) (r0 : Nat) : (s.modPort d l g).region r0 = s.region r0 := rfl
@[simp] theorem State.sreg_modPort (d l : Nat) (g : Port → Port) (d0 q0 : Nat) (x0 : BitVec 5) : (s.modPort d l g).sreg d0 q0 x0 = s.sreg d0 q0 x0 := rfl
@[simp] theorem State.preg_modPort (d l : Nat) (g : Port → Port) (d0 q0 : Nat) (x0 : BitVec 3) : (s.modPort d l g).preg d0 q0 x0 = s.preg d0 q0 x0 := rfl
@[simp] theorem State.treg_modPort (d l : Nat) (g : Port → Port) (d0 q0 x0 : Nat) : (s.modPort d l g).treg d0 q0 x0 = s.treg d0 q0 x0 := rfl
@[simp] theorem State.frameSeq_modPort (d l : Nat) (g : Port → Port)  : (s.modPort d l g).frameSeq  = s.frameSeq  := rfl
@[simp] theorem State.byteAt_modPort (d l : Nat) (g : Port → Port) (a0 : Nat) : (s.modPort d l g).byteAt a0 = s.byteAt a0 := rfl

@[simp] theorem State.pending_modRegion (r : Nat) (g : Region → Region) : (s.modRegion r g).pending = s.pending := rfl
@[simp] theorem State.fuses_modRegion (r : Nat) (g : Region → Region) : (s.modRegion r g).fuses = s.fuses := rfl
@[simp] theorem State.mem_modRegion (r : Nat) (g : Region → Region) : (s.modRegion r g).mem = s.mem := rfl
@[simp] theorem State.undef_modRegion (r : Nat) (g : Region → Region) : (s.modRegion r g).undef = s.undef := rfl
@[simp] theorem State.flash_modRegion (r : Nat) (g : Region → Region) : (s.modRegion r g).flash = s.flash := rfl
@[simp] theorem State.regs_modRegion (r : Nat) (g : Region → Region) : (s.modRegion r g).regs = s.regs := rfl
@[simp] theorem State.pend_modRegion (r : Nat) (g : Region → Region) : (s.modRegion r g).pend = s.pend := rfl
@[simp] theorem State.armed_modRegion (r : Nat) (g : Region → Region) : (s.modRegion r g).armed = s.armed := rfl
@[simp] theorem State.cores_modRegion (r : Nat) (g : Region → Region) : (s.modRegion r g).cores = s.cores := rfl
@[simp] theorem State.items_modRegion (r : Nat) (g : Region → Region) : (s.modRegion r g).items = s.items := rfl
@[simp] theorem State.posts_modRegion (r : Nat) (g : Region → Region) : (s.modRegion r g).posts = s.posts := rfl
@[simp] theorem State.rlists_modRegion (r : Nat) (g : Region → Region) : (s.modRegion r g).rlists = s.rlists := rfl
@[simp] theorem State.ctrNext_modRegion (r : Nat) (g : Region → Region) : (s.modRegion r g).ctrNext = s.ctrNext := rfl
@[simp] theorem State.chans_modRegion (r : Nat) (g : Region → Region) : (s.modRegion r g).chans = s.chans := rfl
@[simp] theorem State.dies_modRegion (r : Nat) (g : Region → Region) : (s.modRegion r g).dies = s.dies := rfl
@[simp] theorem State.links_modRegion (r : Nat) (g : Region → Region) : (s.modRegion r g).links = s.links := rfl
@[simp] theorem State.ports_modRegion (r : Nat) (g : Region → Region) : (s.modRegion r g).ports = s.ports := rfl
@[simp] theorem State.job_modRegion (r : Nat) (g : Region → Region) : (s.modRegion r g).job = s.job := rfl
@[simp] theorem State.team_modRegion (r : Nat) (g : Region → Region) : (s.modRegion r g).team = s.team := rfl
@[simp] theorem State.frame_modRegion (r : Nat) (g : Region → Region) : (s.modRegion r g).frame = s.frame := rfl
@[simp] theorem State.lamp_modRegion (r : Nat) (g : Region → Region) : (s.modRegion r g).lamp = s.lamp := rfl
@[simp] theorem State.fw_modRegion (r : Nat) (g : Region → Region) : (s.modRegion r g).fw = s.fw := rfl
@[simp] theorem State.ringHold_modRegion (r : Nat) (g : Region → Region) : (s.modRegion r g).ringHold = s.ringHold := rfl
@[simp] theorem State.wire_modRegion (r : Nat) (g : Region → Region) : (s.modRegion r g).wire = s.wire := rfl
@[simp] theorem State.fresh_modRegion (r : Nat) (g : Region → Region) : (s.modRegion r g).fresh = s.fresh := rfl
@[simp] theorem State.word_modRegion (r : Nat) (g : Region → Region) (r0 : RegId) : (s.modRegion r g).word r0 = s.word r0 := rfl
@[simp] theorem State.rd_modRegion (r : Nat) (g : Region → Region) (f0 : FRef) : (s.modRegion r g).rd f0 = s.rd f0 := rfl
@[simp] theorem State.flag_modRegion (r : Nat) (g : Region → Region) (f0 : FRef) : (s.modRegion r g).flag f0 = s.flag f0 := rfl
@[simp] theorem State.core_modRegion (r : Nat) (g : Region → Region) (d0 q0 : Nat) : (s.modRegion r g).core d0 q0 = s.core d0 q0 := rfl
@[simp] theorem State.item_modRegion (r : Nat) (g : Region → Region) (k0 : Nat) : (s.modRegion r g).item k0 = s.item k0 := rfl
@[simp] theorem State.chan_modRegion (r : Nat) (g : Region → Region) (d0 n0 : Nat) : (s.modRegion r g).chan d0 n0 = s.chan d0 n0 := rfl
@[simp] theorem State.die_modRegion (r : Nat) (g : Region → Region) (d0 : Nat) : (s.modRegion r g).die d0 = s.die d0 := rfl
@[simp] theorem State.link_modRegion (r : Nat) (g : Region → Region) (d0 l0 : Nat) : (s.modRegion r g).link d0 l0 = s.link d0 l0 := rfl
@[simp] theorem State.port_modRegion (r : Nat) (g : Region → Region) (d0 l0 : Nat) : (s.modRegion r g).port d0 l0 = s.port d0 l0 := rfl
@[simp] theorem State.sreg_modRegion (r : Nat) (g : Region → Region) (d0 q0 : Nat) (x0 : BitVec 5) : (s.modRegion r g).sreg d0 q0 x0 = s.sreg d0 q0 x0 := rfl
@[simp] theorem State.preg_modRegion (r : Nat) (g : Region → Region) (d0 q0 : Nat) (x0 : BitVec 3) : (s.modRegion r g).preg d0 q0 x0 = s.preg d0 q0 x0 := rfl
@[simp] theorem State.treg_modRegion (r : Nat) (g : Region → Region) (d0 q0 x0 : Nat) : (s.modRegion r g).treg d0 q0 x0 = s.treg d0 q0 x0 := rfl
@[simp] theorem State.frameSeq_modRegion (r : Nat) (g : Region → Region)  : (s.modRegion r g).frameSeq  = s.frameSeq  := rfl
@[simp] theorem State.byteAt_modRegion (r : Nat) (g : Region → Region) (a0 : Nat) : (s.modRegion r g).byteAt a0 = s.byteAt a0 := rfl

@[simp] theorem State.pending_send (o : Out) : (s.send o).pending = s.pending := rfl
@[simp] theorem State.fuses_send (o : Out) : (s.send o).fuses = s.fuses := rfl
@[simp] theorem State.mem_send (o : Out) : (s.send o).mem = s.mem := rfl
@[simp] theorem State.undef_send (o : Out) : (s.send o).undef = s.undef := rfl
@[simp] theorem State.flash_send (o : Out) : (s.send o).flash = s.flash := rfl
@[simp] theorem State.regs_send (o : Out) : (s.send o).regs = s.regs := rfl
@[simp] theorem State.pend_send (o : Out) : (s.send o).pend = s.pend := rfl
@[simp] theorem State.armed_send (o : Out) : (s.send o).armed = s.armed := rfl
@[simp] theorem State.cores_send (o : Out) : (s.send o).cores = s.cores := rfl
@[simp] theorem State.items_send (o : Out) : (s.send o).items = s.items := rfl
@[simp] theorem State.posts_send (o : Out) : (s.send o).posts = s.posts := rfl
@[simp] theorem State.rlists_send (o : Out) : (s.send o).rlists = s.rlists := rfl
@[simp] theorem State.ctrNext_send (o : Out) : (s.send o).ctrNext = s.ctrNext := rfl
@[simp] theorem State.chans_send (o : Out) : (s.send o).chans = s.chans := rfl
@[simp] theorem State.dies_send (o : Out) : (s.send o).dies = s.dies := rfl
@[simp] theorem State.links_send (o : Out) : (s.send o).links = s.links := rfl
@[simp] theorem State.ports_send (o : Out) : (s.send o).ports = s.ports := rfl
@[simp] theorem State.regions_send (o : Out) : (s.send o).regions = s.regions := rfl
@[simp] theorem State.job_send (o : Out) : (s.send o).job = s.job := rfl
@[simp] theorem State.team_send (o : Out) : (s.send o).team = s.team := rfl
@[simp] theorem State.frame_send (o : Out) : (s.send o).frame = s.frame := rfl
@[simp] theorem State.lamp_send (o : Out) : (s.send o).lamp = s.lamp := rfl
@[simp] theorem State.fw_send (o : Out) : (s.send o).fw = s.fw := rfl
@[simp] theorem State.ringHold_send (o : Out) : (s.send o).ringHold = s.ringHold := rfl
@[simp] theorem State.fresh_send (o : Out) : (s.send o).fresh = s.fresh := rfl
@[simp] theorem State.word_send (o : Out) (r0 : RegId) : (s.send o).word r0 = s.word r0 := rfl
@[simp] theorem State.rd_send (o : Out) (f0 : FRef) : (s.send o).rd f0 = s.rd f0 := rfl
@[simp] theorem State.flag_send (o : Out) (f0 : FRef) : (s.send o).flag f0 = s.flag f0 := rfl
@[simp] theorem State.core_send (o : Out) (d0 q0 : Nat) : (s.send o).core d0 q0 = s.core d0 q0 := rfl
@[simp] theorem State.item_send (o : Out) (k0 : Nat) : (s.send o).item k0 = s.item k0 := rfl
@[simp] theorem State.chan_send (o : Out) (d0 n0 : Nat) : (s.send o).chan d0 n0 = s.chan d0 n0 := rfl
@[simp] theorem State.die_send (o : Out) (d0 : Nat) : (s.send o).die d0 = s.die d0 := rfl
@[simp] theorem State.link_send (o : Out) (d0 l0 : Nat) : (s.send o).link d0 l0 = s.link d0 l0 := rfl
@[simp] theorem State.port_send (o : Out) (d0 l0 : Nat) : (s.send o).port d0 l0 = s.port d0 l0 := rfl
@[simp] theorem State.region_send (o : Out) (r0 : Nat) : (s.send o).region r0 = s.region r0 := rfl
@[simp] theorem State.sreg_send (o : Out) (d0 q0 : Nat) (x0 : BitVec 5) : (s.send o).sreg d0 q0 x0 = s.sreg d0 q0 x0 := rfl
@[simp] theorem State.preg_send (o : Out) (d0 q0 : Nat) (x0 : BitVec 3) : (s.send o).preg d0 q0 x0 = s.preg d0 q0 x0 := rfl
@[simp] theorem State.treg_send (o : Out) (d0 q0 x0 : Nat) : (s.send o).treg d0 q0 x0 = s.treg d0 q0 x0 := rfl
@[simp] theorem State.frameSeq_send (o : Out)  : (s.send o).frameSeq  = s.frameSeq  := rfl
@[simp] theorem State.byteAt_send (o : Out) (a0 : Nat) : (s.send o).byteAt a0 = s.byteAt a0 := rfl

@[simp] theorem State.pending_used (n : Nat) : (s.used n).pending = s.pending := rfl
@[simp] theorem State.fuses_used (n : Nat) : (s.used n).fuses = s.fuses := rfl
@[simp] theorem State.mem_used (n : Nat) : (s.used n).mem = s.mem := rfl
@[simp] theorem State.undef_used (n : Nat) : (s.used n).undef = s.undef := rfl
@[simp] theorem State.flash_used (n : Nat) : (s.used n).flash = s.flash := rfl
@[simp] theorem State.regs_used (n : Nat) : (s.used n).regs = s.regs := rfl
@[simp] theorem State.pend_used (n : Nat) : (s.used n).pend = s.pend := rfl
@[simp] theorem State.armed_used (n : Nat) : (s.used n).armed = s.armed := rfl
@[simp] theorem State.cores_used (n : Nat) : (s.used n).cores = s.cores := rfl
@[simp] theorem State.items_used (n : Nat) : (s.used n).items = s.items := rfl
@[simp] theorem State.posts_used (n : Nat) : (s.used n).posts = s.posts := rfl
@[simp] theorem State.rlists_used (n : Nat) : (s.used n).rlists = s.rlists := rfl
@[simp] theorem State.ctrNext_used (n : Nat) : (s.used n).ctrNext = s.ctrNext := rfl
@[simp] theorem State.chans_used (n : Nat) : (s.used n).chans = s.chans := rfl
@[simp] theorem State.dies_used (n : Nat) : (s.used n).dies = s.dies := rfl
@[simp] theorem State.links_used (n : Nat) : (s.used n).links = s.links := rfl
@[simp] theorem State.ports_used (n : Nat) : (s.used n).ports = s.ports := rfl
@[simp] theorem State.regions_used (n : Nat) : (s.used n).regions = s.regions := rfl
@[simp] theorem State.job_used (n : Nat) : (s.used n).job = s.job := rfl
@[simp] theorem State.team_used (n : Nat) : (s.used n).team = s.team := rfl
@[simp] theorem State.frame_used (n : Nat) : (s.used n).frame = s.frame := rfl
@[simp] theorem State.lamp_used (n : Nat) : (s.used n).lamp = s.lamp := rfl
@[simp] theorem State.fw_used (n : Nat) : (s.used n).fw = s.fw := rfl
@[simp] theorem State.ringHold_used (n : Nat) : (s.used n).ringHold = s.ringHold := rfl
@[simp] theorem State.wire_used (n : Nat) : (s.used n).wire = s.wire := rfl
@[simp] theorem State.word_used (n : Nat) (r0 : RegId) : (s.used n).word r0 = s.word r0 := rfl
@[simp] theorem State.rd_used (n : Nat) (f0 : FRef) : (s.used n).rd f0 = s.rd f0 := rfl
@[simp] theorem State.flag_used (n : Nat) (f0 : FRef) : (s.used n).flag f0 = s.flag f0 := rfl
@[simp] theorem State.core_used (n : Nat) (d0 q0 : Nat) : (s.used n).core d0 q0 = s.core d0 q0 := rfl
@[simp] theorem State.item_used (n : Nat) (k0 : Nat) : (s.used n).item k0 = s.item k0 := rfl
@[simp] theorem State.chan_used (n : Nat) (d0 n0 : Nat) : (s.used n).chan d0 n0 = s.chan d0 n0 := rfl
@[simp] theorem State.die_used (n : Nat) (d0 : Nat) : (s.used n).die d0 = s.die d0 := rfl
@[simp] theorem State.link_used (n : Nat) (d0 l0 : Nat) : (s.used n).link d0 l0 = s.link d0 l0 := rfl
@[simp] theorem State.port_used (n : Nat) (d0 l0 : Nat) : (s.used n).port d0 l0 = s.port d0 l0 := rfl
@[simp] theorem State.region_used (n : Nat) (r0 : Nat) : (s.used n).region r0 = s.region r0 := rfl
@[simp] theorem State.sreg_used (n : Nat) (d0 q0 : Nat) (x0 : BitVec 5) : (s.used n).sreg d0 q0 x0 = s.sreg d0 q0 x0 := rfl
@[simp] theorem State.preg_used (n : Nat) (d0 q0 : Nat) (x0 : BitVec 3) : (s.used n).preg d0 q0 x0 = s.preg d0 q0 x0 := rfl
@[simp] theorem State.treg_used (n : Nat) (d0 q0 x0 : Nat) : (s.used n).treg d0 q0 x0 = s.treg d0 q0 x0 := rfl
@[simp] theorem State.frameSeq_used (n : Nat)  : (s.used n).frameSeq  = s.frameSeq  := rfl
@[simp] theorem State.byteAt_used (n : Nat) (a0 : Nat) : (s.used n).byteAt a0 = s.byteAt a0 := rfl

@[simp] theorem State.pending_setByte (a : Nat) (b : Byte) : (s.setByte a b).pending = s.pending := rfl
@[simp] theorem State.fuses_setByte (a : Nat) (b : Byte) : (s.setByte a b).fuses = s.fuses := rfl
@[simp] theorem State.flash_setByte (a : Nat) (b : Byte) : (s.setByte a b).flash = s.flash := rfl
@[simp] theorem State.regs_setByte (a : Nat) (b : Byte) : (s.setByte a b).regs = s.regs := rfl
@[simp] theorem State.pend_setByte (a : Nat) (b : Byte) : (s.setByte a b).pend = s.pend := rfl
@[simp] theorem State.armed_setByte (a : Nat) (b : Byte) : (s.setByte a b).armed = s.armed := rfl
@[simp] theorem State.cores_setByte (a : Nat) (b : Byte) : (s.setByte a b).cores = s.cores := rfl
@[simp] theorem State.items_setByte (a : Nat) (b : Byte) : (s.setByte a b).items = s.items := rfl
@[simp] theorem State.posts_setByte (a : Nat) (b : Byte) : (s.setByte a b).posts = s.posts := rfl
@[simp] theorem State.rlists_setByte (a : Nat) (b : Byte) : (s.setByte a b).rlists = s.rlists := rfl
@[simp] theorem State.ctrNext_setByte (a : Nat) (b : Byte) : (s.setByte a b).ctrNext = s.ctrNext := rfl
@[simp] theorem State.chans_setByte (a : Nat) (b : Byte) : (s.setByte a b).chans = s.chans := rfl
@[simp] theorem State.dies_setByte (a : Nat) (b : Byte) : (s.setByte a b).dies = s.dies := rfl
@[simp] theorem State.links_setByte (a : Nat) (b : Byte) : (s.setByte a b).links = s.links := rfl
@[simp] theorem State.ports_setByte (a : Nat) (b : Byte) : (s.setByte a b).ports = s.ports := rfl
@[simp] theorem State.regions_setByte (a : Nat) (b : Byte) : (s.setByte a b).regions = s.regions := rfl
@[simp] theorem State.job_setByte (a : Nat) (b : Byte) : (s.setByte a b).job = s.job := rfl
@[simp] theorem State.team_setByte (a : Nat) (b : Byte) : (s.setByte a b).team = s.team := rfl
@[simp] theorem State.frame_setByte (a : Nat) (b : Byte) : (s.setByte a b).frame = s.frame := rfl
@[simp] theorem State.lamp_setByte (a : Nat) (b : Byte) : (s.setByte a b).lamp = s.lamp := rfl
@[simp] theorem State.fw_setByte (a : Nat) (b : Byte) : (s.setByte a b).fw = s.fw := rfl
@[simp] theorem State.ringHold_setByte (a : Nat) (b : Byte) : (s.setByte a b).ringHold = s.ringHold := rfl
@[simp] theorem State.wire_setByte (a : Nat) (b : Byte) : (s.setByte a b).wire = s.wire := rfl
@[simp] theorem State.fresh_setByte (a : Nat) (b : Byte) : (s.setByte a b).fresh = s.fresh := rfl
@[simp] theorem State.word_setByte (a : Nat) (b : Byte) (r0 : RegId) : (s.setByte a b).word r0 = s.word r0 := rfl
@[simp] theorem State.rd_setByte (a : Nat) (b : Byte) (f0 : FRef) : (s.setByte a b).rd f0 = s.rd f0 := rfl
@[simp] theorem State.flag_setByte (a : Nat) (b : Byte) (f0 : FRef) : (s.setByte a b).flag f0 = s.flag f0 := rfl
@[simp] theorem State.core_setByte (a : Nat) (b : Byte) (d0 q0 : Nat) : (s.setByte a b).core d0 q0 = s.core d0 q0 := rfl
@[simp] theorem State.item_setByte (a : Nat) (b : Byte) (k0 : Nat) : (s.setByte a b).item k0 = s.item k0 := rfl
@[simp] theorem State.chan_setByte (a : Nat) (b : Byte) (d0 n0 : Nat) : (s.setByte a b).chan d0 n0 = s.chan d0 n0 := rfl
@[simp] theorem State.die_setByte (a : Nat) (b : Byte) (d0 : Nat) : (s.setByte a b).die d0 = s.die d0 := rfl
@[simp] theorem State.link_setByte (a : Nat) (b : Byte) (d0 l0 : Nat) : (s.setByte a b).link d0 l0 = s.link d0 l0 := rfl
@[simp] theorem State.port_setByte (a : Nat) (b : Byte) (d0 l0 : Nat) : (s.setByte a b).port d0 l0 = s.port d0 l0 := rfl
@[simp] theorem State.region_setByte (a : Nat) (b : Byte) (r0 : Nat) : (s.setByte a b).region r0 = s.region r0 := rfl
@[simp] theorem State.sreg_setByte (a : Nat) (b : Byte) (d0 q0 : Nat) (x0 : BitVec 5) : (s.setByte a b).sreg d0 q0 x0 = s.sreg d0 q0 x0 := rfl
@[simp] theorem State.preg_setByte (a : Nat) (b : Byte) (d0 q0 : Nat) (x0 : BitVec 3) : (s.setByte a b).preg d0 q0 x0 = s.preg d0 q0 x0 := rfl
@[simp] theorem State.treg_setByte (a : Nat) (b : Byte) (d0 q0 x0 : Nat) : (s.setByte a b).treg d0 q0 x0 = s.treg d0 q0 x0 := rfl
@[simp] theorem State.frameSeq_setByte (a : Nat) (b : Byte)  : (s.setByte a b).frameSeq  = s.frameSeq  := rfl

@[simp] theorem State.pending_zeroRange (a n : Nat) : (s.zeroRange a n).pending = s.pending := rfl
@[simp] theorem State.fuses_zeroRange (a n : Nat) : (s.zeroRange a n).fuses = s.fuses := rfl
@[simp] theorem State.flash_zeroRange (a n : Nat) : (s.zeroRange a n).flash = s.flash := rfl
@[simp] theorem State.regs_zeroRange (a n : Nat) : (s.zeroRange a n).regs = s.regs := rfl
@[simp] theorem State.pend_zeroRange (a n : Nat) : (s.zeroRange a n).pend = s.pend := rfl
@[simp] theorem State.armed_zeroRange (a n : Nat) : (s.zeroRange a n).armed = s.armed := rfl
@[simp] theorem State.cores_zeroRange (a n : Nat) : (s.zeroRange a n).cores = s.cores := rfl
@[simp] theorem State.items_zeroRange (a n : Nat) : (s.zeroRange a n).items = s.items := rfl
@[simp] theorem State.posts_zeroRange (a n : Nat) : (s.zeroRange a n).posts = s.posts := rfl
@[simp] theorem State.rlists_zeroRange (a n : Nat) : (s.zeroRange a n).rlists = s.rlists := rfl
@[simp] theorem State.ctrNext_zeroRange (a n : Nat) : (s.zeroRange a n).ctrNext = s.ctrNext := rfl
@[simp] theorem State.chans_zeroRange (a n : Nat) : (s.zeroRange a n).chans = s.chans := rfl
@[simp] theorem State.dies_zeroRange (a n : Nat) : (s.zeroRange a n).dies = s.dies := rfl
@[simp] theorem State.links_zeroRange (a n : Nat) : (s.zeroRange a n).links = s.links := rfl
@[simp] theorem State.ports_zeroRange (a n : Nat) : (s.zeroRange a n).ports = s.ports := rfl
@[simp] theorem State.regions_zeroRange (a n : Nat) : (s.zeroRange a n).regions = s.regions := rfl
@[simp] theorem State.job_zeroRange (a n : Nat) : (s.zeroRange a n).job = s.job := rfl
@[simp] theorem State.team_zeroRange (a n : Nat) : (s.zeroRange a n).team = s.team := rfl
@[simp] theorem State.frame_zeroRange (a n : Nat) : (s.zeroRange a n).frame = s.frame := rfl
@[simp] theorem State.lamp_zeroRange (a n : Nat) : (s.zeroRange a n).lamp = s.lamp := rfl
@[simp] theorem State.fw_zeroRange (a n : Nat) : (s.zeroRange a n).fw = s.fw := rfl
@[simp] theorem State.ringHold_zeroRange (a n : Nat) : (s.zeroRange a n).ringHold = s.ringHold := rfl
@[simp] theorem State.wire_zeroRange (a n : Nat) : (s.zeroRange a n).wire = s.wire := rfl
@[simp] theorem State.fresh_zeroRange (a n : Nat) : (s.zeroRange a n).fresh = s.fresh := rfl
@[simp] theorem State.word_zeroRange (a n : Nat) (r0 : RegId) : (s.zeroRange a n).word r0 = s.word r0 := rfl
@[simp] theorem State.rd_zeroRange (a n : Nat) (f0 : FRef) : (s.zeroRange a n).rd f0 = s.rd f0 := rfl
@[simp] theorem State.flag_zeroRange (a n : Nat) (f0 : FRef) : (s.zeroRange a n).flag f0 = s.flag f0 := rfl
@[simp] theorem State.core_zeroRange (a n : Nat) (d0 q0 : Nat) : (s.zeroRange a n).core d0 q0 = s.core d0 q0 := rfl
@[simp] theorem State.item_zeroRange (a n : Nat) (k0 : Nat) : (s.zeroRange a n).item k0 = s.item k0 := rfl
@[simp] theorem State.chan_zeroRange (a n : Nat) (d0 n0 : Nat) : (s.zeroRange a n).chan d0 n0 = s.chan d0 n0 := rfl
@[simp] theorem State.die_zeroRange (a n : Nat) (d0 : Nat) : (s.zeroRange a n).die d0 = s.die d0 := rfl
@[simp] theorem State.link_zeroRange (a n : Nat) (d0 l0 : Nat) : (s.zeroRange a n).link d0 l0 = s.link d0 l0 := rfl
@[simp] theorem State.port_zeroRange (a n : Nat) (d0 l0 : Nat) : (s.zeroRange a n).port d0 l0 = s.port d0 l0 := rfl
@[simp] theorem State.region_zeroRange (a n : Nat) (r0 : Nat) : (s.zeroRange a n).region r0 = s.region r0 := rfl
@[simp] theorem State.sreg_zeroRange (a n : Nat) (d0 q0 : Nat) (x0 : BitVec 5) : (s.zeroRange a n).sreg d0 q0 x0 = s.sreg d0 q0 x0 := rfl
@[simp] theorem State.preg_zeroRange (a n : Nat) (d0 q0 : Nat) (x0 : BitVec 3) : (s.zeroRange a n).preg d0 q0 x0 = s.preg d0 q0 x0 := rfl
@[simp] theorem State.treg_zeroRange (a n : Nat) (d0 q0 x0 : Nat) : (s.zeroRange a n).treg d0 q0 x0 = s.treg d0 q0 x0 := rfl
@[simp] theorem State.frameSeq_zeroRange (a n : Nat)  : (s.zeroRange a n).frameSeq  = s.frameSeq  := rfl

@[simp] theorem State.pending_forget (a n : Nat) : (s.forget a n).pending = s.pending := rfl
@[simp] theorem State.fuses_forget (a n : Nat) : (s.forget a n).fuses = s.fuses := rfl
@[simp] theorem State.flash_forget (a n : Nat) : (s.forget a n).flash = s.flash := rfl
@[simp] theorem State.regs_forget (a n : Nat) : (s.forget a n).regs = s.regs := rfl
@[simp] theorem State.pend_forget (a n : Nat) : (s.forget a n).pend = s.pend := rfl
@[simp] theorem State.armed_forget (a n : Nat) : (s.forget a n).armed = s.armed := rfl
@[simp] theorem State.cores_forget (a n : Nat) : (s.forget a n).cores = s.cores := rfl
@[simp] theorem State.items_forget (a n : Nat) : (s.forget a n).items = s.items := rfl
@[simp] theorem State.posts_forget (a n : Nat) : (s.forget a n).posts = s.posts := rfl
@[simp] theorem State.rlists_forget (a n : Nat) : (s.forget a n).rlists = s.rlists := rfl
@[simp] theorem State.ctrNext_forget (a n : Nat) : (s.forget a n).ctrNext = s.ctrNext := rfl
@[simp] theorem State.chans_forget (a n : Nat) : (s.forget a n).chans = s.chans := rfl
@[simp] theorem State.dies_forget (a n : Nat) : (s.forget a n).dies = s.dies := rfl
@[simp] theorem State.links_forget (a n : Nat) : (s.forget a n).links = s.links := rfl
@[simp] theorem State.ports_forget (a n : Nat) : (s.forget a n).ports = s.ports := rfl
@[simp] theorem State.regions_forget (a n : Nat) : (s.forget a n).regions = s.regions := rfl
@[simp] theorem State.job_forget (a n : Nat) : (s.forget a n).job = s.job := rfl
@[simp] theorem State.team_forget (a n : Nat) : (s.forget a n).team = s.team := rfl
@[simp] theorem State.frame_forget (a n : Nat) : (s.forget a n).frame = s.frame := rfl
@[simp] theorem State.lamp_forget (a n : Nat) : (s.forget a n).lamp = s.lamp := rfl
@[simp] theorem State.fw_forget (a n : Nat) : (s.forget a n).fw = s.fw := rfl
@[simp] theorem State.ringHold_forget (a n : Nat) : (s.forget a n).ringHold = s.ringHold := rfl
@[simp] theorem State.wire_forget (a n : Nat) : (s.forget a n).wire = s.wire := rfl
@[simp] theorem State.word_forget (a n : Nat) (r0 : RegId) : (s.forget a n).word r0 = s.word r0 := rfl
@[simp] theorem State.rd_forget (a n : Nat) (f0 : FRef) : (s.forget a n).rd f0 = s.rd f0 := rfl
@[simp] theorem State.flag_forget (a n : Nat) (f0 : FRef) : (s.forget a n).flag f0 = s.flag f0 := rfl
@[simp] theorem State.core_forget (a n : Nat) (d0 q0 : Nat) : (s.forget a n).core d0 q0 = s.core d0 q0 := rfl
@[simp] theorem State.item_forget (a n : Nat) (k0 : Nat) : (s.forget a n).item k0 = s.item k0 := rfl
@[simp] theorem State.chan_forget (a n : Nat) (d0 n0 : Nat) : (s.forget a n).chan d0 n0 = s.chan d0 n0 := rfl
@[simp] theorem State.die_forget (a n : Nat) (d0 : Nat) : (s.forget a n).die d0 = s.die d0 := rfl
@[simp] theorem State.link_forget (a n : Nat) (d0 l0 : Nat) : (s.forget a n).link d0 l0 = s.link d0 l0 := rfl
@[simp] theorem State.port_forget (a n : Nat) (d0 l0 : Nat) : (s.forget a n).port d0 l0 = s.port d0 l0 := rfl
@[simp] theorem State.region_forget (a n : Nat) (r0 : Nat) : (s.forget a n).region r0 = s.region r0 := rfl
@[simp] theorem State.sreg_forget (a n : Nat) (d0 q0 : Nat) (x0 : BitVec 5) : (s.forget a n).sreg d0 q0 x0 = s.sreg d0 q0 x0 := rfl
@[simp] theorem State.preg_forget (a n : Nat) (d0 q0 : Nat) (x0 : BitVec 3) : (s.forget a n).preg d0 q0 x0 = s.preg d0 q0 x0 := rfl
@[simp] theorem State.treg_forget (a n : Nat) (d0 q0 x0 : Nat) : (s.forget a n).treg d0 q0 x0 = s.treg d0 q0 x0 := rfl
@[simp] theorem State.frameSeq_forget (a n : Nat)  : (s.forget a n).frameSeq  = s.frameSeq  := rfl

@[simp] theorem State.pending_setT (d q r : Nat) (v : Td) : (s.setT d q r v).pending = s.pending := rfl
@[simp] theorem State.fuses_setT (d q r : Nat) (v : Td) : (s.setT d q r v).fuses = s.fuses := rfl
@[simp] theorem State.mem_setT (d q r : Nat) (v : Td) : (s.setT d q r v).mem = s.mem := rfl
@[simp] theorem State.undef_setT (d q r : Nat) (v : Td) : (s.setT d q r v).undef = s.undef := rfl
@[simp] theorem State.flash_setT (d q r : Nat) (v : Td) : (s.setT d q r v).flash = s.flash := rfl
@[simp] theorem State.regs_setT (d q r : Nat) (v : Td) : (s.setT d q r v).regs = s.regs := rfl
@[simp] theorem State.pend_setT (d q r : Nat) (v : Td) : (s.setT d q r v).pend = s.pend := rfl
@[simp] theorem State.armed_setT (d q r : Nat) (v : Td) : (s.setT d q r v).armed = s.armed := rfl
@[simp] theorem State.items_setT (d q r : Nat) (v : Td) : (s.setT d q r v).items = s.items := rfl
@[simp] theorem State.posts_setT (d q r : Nat) (v : Td) : (s.setT d q r v).posts = s.posts := rfl
@[simp] theorem State.rlists_setT (d q r : Nat) (v : Td) : (s.setT d q r v).rlists = s.rlists := rfl
@[simp] theorem State.ctrNext_setT (d q r : Nat) (v : Td) : (s.setT d q r v).ctrNext = s.ctrNext := rfl
@[simp] theorem State.chans_setT (d q r : Nat) (v : Td) : (s.setT d q r v).chans = s.chans := rfl
@[simp] theorem State.dies_setT (d q r : Nat) (v : Td) : (s.setT d q r v).dies = s.dies := rfl
@[simp] theorem State.links_setT (d q r : Nat) (v : Td) : (s.setT d q r v).links = s.links := rfl
@[simp] theorem State.ports_setT (d q r : Nat) (v : Td) : (s.setT d q r v).ports = s.ports := rfl
@[simp] theorem State.regions_setT (d q r : Nat) (v : Td) : (s.setT d q r v).regions = s.regions := rfl
@[simp] theorem State.job_setT (d q r : Nat) (v : Td) : (s.setT d q r v).job = s.job := rfl
@[simp] theorem State.team_setT (d q r : Nat) (v : Td) : (s.setT d q r v).team = s.team := rfl
@[simp] theorem State.frame_setT (d q r : Nat) (v : Td) : (s.setT d q r v).frame = s.frame := rfl
@[simp] theorem State.lamp_setT (d q r : Nat) (v : Td) : (s.setT d q r v).lamp = s.lamp := rfl
@[simp] theorem State.fw_setT (d q r : Nat) (v : Td) : (s.setT d q r v).fw = s.fw := rfl
@[simp] theorem State.ringHold_setT (d q r : Nat) (v : Td) : (s.setT d q r v).ringHold = s.ringHold := rfl
@[simp] theorem State.wire_setT (d q r : Nat) (v : Td) : (s.setT d q r v).wire = s.wire := rfl
@[simp] theorem State.fresh_setT (d q r : Nat) (v : Td) : (s.setT d q r v).fresh = s.fresh := rfl
@[simp] theorem State.word_setT (d q r : Nat) (v : Td) (r0 : RegId) : (s.setT d q r v).word r0 = s.word r0 := rfl
@[simp] theorem State.rd_setT (d q r : Nat) (v : Td) (f0 : FRef) : (s.setT d q r v).rd f0 = s.rd f0 := rfl
@[simp] theorem State.flag_setT (d q r : Nat) (v : Td) (f0 : FRef) : (s.setT d q r v).flag f0 = s.flag f0 := rfl
@[simp] theorem State.item_setT (d q r : Nat) (v : Td) (k0 : Nat) : (s.setT d q r v).item k0 = s.item k0 := rfl
@[simp] theorem State.chan_setT (d q r : Nat) (v : Td) (d0 n0 : Nat) : (s.setT d q r v).chan d0 n0 = s.chan d0 n0 := rfl
@[simp] theorem State.die_setT (d q r : Nat) (v : Td) (d0 : Nat) : (s.setT d q r v).die d0 = s.die d0 := rfl
@[simp] theorem State.link_setT (d q r : Nat) (v : Td) (d0 l0 : Nat) : (s.setT d q r v).link d0 l0 = s.link d0 l0 := rfl
@[simp] theorem State.port_setT (d q r : Nat) (v : Td) (d0 l0 : Nat) : (s.setT d q r v).port d0 l0 = s.port d0 l0 := rfl
@[simp] theorem State.region_setT (d q r : Nat) (v : Td) (r0 : Nat) : (s.setT d q r v).region r0 = s.region r0 := rfl
@[simp] theorem State.frameSeq_setT (d q r : Nat) (v : Td)  : (s.setT d q r v).frameSeq  = s.frameSeq  := rfl
@[simp] theorem State.byteAt_setT (d q r : Nat) (v : Td) (a0 : Nat) : (s.setT d q r v).byteAt a0 = s.byteAt a0 := rfl

@[simp] theorem State.pending_setSem (d q n v : Nat) : (s.setSem d q n v).pending = s.pending := rfl
@[simp] theorem State.fuses_setSem (d q n v : Nat) : (s.setSem d q n v).fuses = s.fuses := rfl
@[simp] theorem State.mem_setSem (d q n v : Nat) : (s.setSem d q n v).mem = s.mem := rfl
@[simp] theorem State.undef_setSem (d q n v : Nat) : (s.setSem d q n v).undef = s.undef := rfl
@[simp] theorem State.flash_setSem (d q n v : Nat) : (s.setSem d q n v).flash = s.flash := rfl
@[simp] theorem State.regs_setSem (d q n v : Nat) : (s.setSem d q n v).regs = s.regs := rfl
@[simp] theorem State.pend_setSem (d q n v : Nat) : (s.setSem d q n v).pend = s.pend := rfl
@[simp] theorem State.armed_setSem (d q n v : Nat) : (s.setSem d q n v).armed = s.armed := rfl
@[simp] theorem State.items_setSem (d q n v : Nat) : (s.setSem d q n v).items = s.items := rfl
@[simp] theorem State.posts_setSem (d q n v : Nat) : (s.setSem d q n v).posts = s.posts := rfl
@[simp] theorem State.rlists_setSem (d q n v : Nat) : (s.setSem d q n v).rlists = s.rlists := rfl
@[simp] theorem State.ctrNext_setSem (d q n v : Nat) : (s.setSem d q n v).ctrNext = s.ctrNext := rfl
@[simp] theorem State.chans_setSem (d q n v : Nat) : (s.setSem d q n v).chans = s.chans := rfl
@[simp] theorem State.dies_setSem (d q n v : Nat) : (s.setSem d q n v).dies = s.dies := rfl
@[simp] theorem State.links_setSem (d q n v : Nat) : (s.setSem d q n v).links = s.links := rfl
@[simp] theorem State.ports_setSem (d q n v : Nat) : (s.setSem d q n v).ports = s.ports := rfl
@[simp] theorem State.regions_setSem (d q n v : Nat) : (s.setSem d q n v).regions = s.regions := rfl
@[simp] theorem State.job_setSem (d q n v : Nat) : (s.setSem d q n v).job = s.job := rfl
@[simp] theorem State.team_setSem (d q n v : Nat) : (s.setSem d q n v).team = s.team := rfl
@[simp] theorem State.frame_setSem (d q n v : Nat) : (s.setSem d q n v).frame = s.frame := rfl
@[simp] theorem State.lamp_setSem (d q n v : Nat) : (s.setSem d q n v).lamp = s.lamp := rfl
@[simp] theorem State.fw_setSem (d q n v : Nat) : (s.setSem d q n v).fw = s.fw := rfl
@[simp] theorem State.ringHold_setSem (d q n v : Nat) : (s.setSem d q n v).ringHold = s.ringHold := rfl
@[simp] theorem State.wire_setSem (d q n v : Nat) : (s.setSem d q n v).wire = s.wire := rfl
@[simp] theorem State.fresh_setSem (d q n v : Nat) : (s.setSem d q n v).fresh = s.fresh := rfl
@[simp] theorem State.word_setSem (d q n v : Nat) (r0 : RegId) : (s.setSem d q n v).word r0 = s.word r0 := rfl
@[simp] theorem State.rd_setSem (d q n v : Nat) (f0 : FRef) : (s.setSem d q n v).rd f0 = s.rd f0 := rfl
@[simp] theorem State.flag_setSem (d q n v : Nat) (f0 : FRef) : (s.setSem d q n v).flag f0 = s.flag f0 := rfl
@[simp] theorem State.item_setSem (d q n v : Nat) (k0 : Nat) : (s.setSem d q n v).item k0 = s.item k0 := rfl
@[simp] theorem State.chan_setSem (d q n v : Nat) (d0 n0 : Nat) : (s.setSem d q n v).chan d0 n0 = s.chan d0 n0 := rfl
@[simp] theorem State.die_setSem (d q n v : Nat) (d0 : Nat) : (s.setSem d q n v).die d0 = s.die d0 := rfl
@[simp] theorem State.link_setSem (d q n v : Nat) (d0 l0 : Nat) : (s.setSem d q n v).link d0 l0 = s.link d0 l0 := rfl
@[simp] theorem State.port_setSem (d q n v : Nat) (d0 l0 : Nat) : (s.setSem d q n v).port d0 l0 = s.port d0 l0 := rfl
@[simp] theorem State.region_setSem (d q n v : Nat) (r0 : Nat) : (s.setSem d q n v).region r0 = s.region r0 := rfl
@[simp] theorem State.frameSeq_setSem (d q n v : Nat)  : (s.setSem d q n v).frameSeq  = s.frameSeq  := rfl
@[simp] theorem State.byteAt_setSem (d q n v : Nat) (a0 : Nat) : (s.setSem d q n v).byteAt a0 = s.byteAt a0 := rfl

@[simp] theorem State.pending_setS (d q : Nat) (r : BitVec 5) (v : Word) : (s.setS d q r v).pending = s.pending := by unfold State.setS; split <;> rfl
@[simp] theorem State.fuses_setS (d q : Nat) (r : BitVec 5) (v : Word) : (s.setS d q r v).fuses = s.fuses := by unfold State.setS; split <;> rfl
@[simp] theorem State.mem_setS (d q : Nat) (r : BitVec 5) (v : Word) : (s.setS d q r v).mem = s.mem := by unfold State.setS; split <;> rfl
@[simp] theorem State.undef_setS (d q : Nat) (r : BitVec 5) (v : Word) : (s.setS d q r v).undef = s.undef := by unfold State.setS; split <;> rfl
@[simp] theorem State.flash_setS (d q : Nat) (r : BitVec 5) (v : Word) : (s.setS d q r v).flash = s.flash := by unfold State.setS; split <;> rfl
@[simp] theorem State.regs_setS (d q : Nat) (r : BitVec 5) (v : Word) : (s.setS d q r v).regs = s.regs := by unfold State.setS; split <;> rfl
@[simp] theorem State.pend_setS (d q : Nat) (r : BitVec 5) (v : Word) : (s.setS d q r v).pend = s.pend := by unfold State.setS; split <;> rfl
@[simp] theorem State.armed_setS (d q : Nat) (r : BitVec 5) (v : Word) : (s.setS d q r v).armed = s.armed := by unfold State.setS; split <;> rfl
@[simp] theorem State.items_setS (d q : Nat) (r : BitVec 5) (v : Word) : (s.setS d q r v).items = s.items := by unfold State.setS; split <;> rfl
@[simp] theorem State.posts_setS (d q : Nat) (r : BitVec 5) (v : Word) : (s.setS d q r v).posts = s.posts := by unfold State.setS; split <;> rfl
@[simp] theorem State.rlists_setS (d q : Nat) (r : BitVec 5) (v : Word) : (s.setS d q r v).rlists = s.rlists := by unfold State.setS; split <;> rfl
@[simp] theorem State.ctrNext_setS (d q : Nat) (r : BitVec 5) (v : Word) : (s.setS d q r v).ctrNext = s.ctrNext := by unfold State.setS; split <;> rfl
@[simp] theorem State.chans_setS (d q : Nat) (r : BitVec 5) (v : Word) : (s.setS d q r v).chans = s.chans := by unfold State.setS; split <;> rfl
@[simp] theorem State.dies_setS (d q : Nat) (r : BitVec 5) (v : Word) : (s.setS d q r v).dies = s.dies := by unfold State.setS; split <;> rfl
@[simp] theorem State.links_setS (d q : Nat) (r : BitVec 5) (v : Word) : (s.setS d q r v).links = s.links := by unfold State.setS; split <;> rfl
@[simp] theorem State.ports_setS (d q : Nat) (r : BitVec 5) (v : Word) : (s.setS d q r v).ports = s.ports := by unfold State.setS; split <;> rfl
@[simp] theorem State.regions_setS (d q : Nat) (r : BitVec 5) (v : Word) : (s.setS d q r v).regions = s.regions := by unfold State.setS; split <;> rfl
@[simp] theorem State.job_setS (d q : Nat) (r : BitVec 5) (v : Word) : (s.setS d q r v).job = s.job := by unfold State.setS; split <;> rfl
@[simp] theorem State.team_setS (d q : Nat) (r : BitVec 5) (v : Word) : (s.setS d q r v).team = s.team := by unfold State.setS; split <;> rfl
@[simp] theorem State.frame_setS (d q : Nat) (r : BitVec 5) (v : Word) : (s.setS d q r v).frame = s.frame := by unfold State.setS; split <;> rfl
@[simp] theorem State.lamp_setS (d q : Nat) (r : BitVec 5) (v : Word) : (s.setS d q r v).lamp = s.lamp := by unfold State.setS; split <;> rfl
@[simp] theorem State.fw_setS (d q : Nat) (r : BitVec 5) (v : Word) : (s.setS d q r v).fw = s.fw := by unfold State.setS; split <;> rfl
@[simp] theorem State.ringHold_setS (d q : Nat) (r : BitVec 5) (v : Word) : (s.setS d q r v).ringHold = s.ringHold := by unfold State.setS; split <;> rfl
@[simp] theorem State.wire_setS (d q : Nat) (r : BitVec 5) (v : Word) : (s.setS d q r v).wire = s.wire := by unfold State.setS; split <;> rfl
@[simp] theorem State.fresh_setS (d q : Nat) (r : BitVec 5) (v : Word) : (s.setS d q r v).fresh = s.fresh := by unfold State.setS; split <;> rfl
@[simp] theorem State.word_setS (d q : Nat) (r : BitVec 5) (v : Word) (r0 : RegId) : (s.setS d q r v).word r0 = s.word r0 := by unfold State.setS; split <;> rfl
@[simp] theorem State.rd_setS (d q : Nat) (r : BitVec 5) (v : Word) (f0 : FRef) : (s.setS d q r v).rd f0 = s.rd f0 := by unfold State.setS; split <;> rfl
@[simp] theorem State.flag_setS (d q : Nat) (r : BitVec 5) (v : Word) (f0 : FRef) : (s.setS d q r v).flag f0 = s.flag f0 := by unfold State.setS; split <;> rfl
@[simp] theorem State.item_setS (d q : Nat) (r : BitVec 5) (v : Word) (k0 : Nat) : (s.setS d q r v).item k0 = s.item k0 := by unfold State.setS; split <;> rfl
@[simp] theorem State.chan_setS (d q : Nat) (r : BitVec 5) (v : Word) (d0 n0 : Nat) : (s.setS d q r v).chan d0 n0 = s.chan d0 n0 := by unfold State.setS; split <;> rfl
@[simp] theorem State.die_setS (d q : Nat) (r : BitVec 5) (v : Word) (d0 : Nat) : (s.setS d q r v).die d0 = s.die d0 := by unfold State.setS; split <;> rfl
@[simp] theorem State.link_setS (d q : Nat) (r : BitVec 5) (v : Word) (d0 l0 : Nat) : (s.setS d q r v).link d0 l0 = s.link d0 l0 := by unfold State.setS; split <;> rfl
@[simp] theorem State.port_setS (d q : Nat) (r : BitVec 5) (v : Word) (d0 l0 : Nat) : (s.setS d q r v).port d0 l0 = s.port d0 l0 := by unfold State.setS; split <;> rfl
@[simp] theorem State.region_setS (d q : Nat) (r : BitVec 5) (v : Word) (r0 : Nat) : (s.setS d q r v).region r0 = s.region r0 := by unfold State.setS; split <;> rfl
@[simp] theorem State.frameSeq_setS (d q : Nat) (r : BitVec 5) (v : Word)  : (s.setS d q r v).frameSeq  = s.frameSeq  := by unfold State.setS; split <;> rfl
@[simp] theorem State.byteAt_setS (d q : Nat) (r : BitVec 5) (v : Word) (a0 : Nat) : (s.setS d q r v).byteAt a0 = s.byteAt a0 := by unfold State.setS; split <;> rfl

@[simp] theorem State.pending_setP (d q : Nat) (r : BitVec 3) (v : Bool) : (s.setP d q r v).pending = s.pending := by unfold State.setP; split <;> rfl
@[simp] theorem State.fuses_setP (d q : Nat) (r : BitVec 3) (v : Bool) : (s.setP d q r v).fuses = s.fuses := by unfold State.setP; split <;> rfl
@[simp] theorem State.mem_setP (d q : Nat) (r : BitVec 3) (v : Bool) : (s.setP d q r v).mem = s.mem := by unfold State.setP; split <;> rfl
@[simp] theorem State.undef_setP (d q : Nat) (r : BitVec 3) (v : Bool) : (s.setP d q r v).undef = s.undef := by unfold State.setP; split <;> rfl
@[simp] theorem State.flash_setP (d q : Nat) (r : BitVec 3) (v : Bool) : (s.setP d q r v).flash = s.flash := by unfold State.setP; split <;> rfl
@[simp] theorem State.regs_setP (d q : Nat) (r : BitVec 3) (v : Bool) : (s.setP d q r v).regs = s.regs := by unfold State.setP; split <;> rfl
@[simp] theorem State.pend_setP (d q : Nat) (r : BitVec 3) (v : Bool) : (s.setP d q r v).pend = s.pend := by unfold State.setP; split <;> rfl
@[simp] theorem State.armed_setP (d q : Nat) (r : BitVec 3) (v : Bool) : (s.setP d q r v).armed = s.armed := by unfold State.setP; split <;> rfl
@[simp] theorem State.items_setP (d q : Nat) (r : BitVec 3) (v : Bool) : (s.setP d q r v).items = s.items := by unfold State.setP; split <;> rfl
@[simp] theorem State.posts_setP (d q : Nat) (r : BitVec 3) (v : Bool) : (s.setP d q r v).posts = s.posts := by unfold State.setP; split <;> rfl
@[simp] theorem State.rlists_setP (d q : Nat) (r : BitVec 3) (v : Bool) : (s.setP d q r v).rlists = s.rlists := by unfold State.setP; split <;> rfl
@[simp] theorem State.ctrNext_setP (d q : Nat) (r : BitVec 3) (v : Bool) : (s.setP d q r v).ctrNext = s.ctrNext := by unfold State.setP; split <;> rfl
@[simp] theorem State.chans_setP (d q : Nat) (r : BitVec 3) (v : Bool) : (s.setP d q r v).chans = s.chans := by unfold State.setP; split <;> rfl
@[simp] theorem State.dies_setP (d q : Nat) (r : BitVec 3) (v : Bool) : (s.setP d q r v).dies = s.dies := by unfold State.setP; split <;> rfl
@[simp] theorem State.links_setP (d q : Nat) (r : BitVec 3) (v : Bool) : (s.setP d q r v).links = s.links := by unfold State.setP; split <;> rfl
@[simp] theorem State.ports_setP (d q : Nat) (r : BitVec 3) (v : Bool) : (s.setP d q r v).ports = s.ports := by unfold State.setP; split <;> rfl
@[simp] theorem State.regions_setP (d q : Nat) (r : BitVec 3) (v : Bool) : (s.setP d q r v).regions = s.regions := by unfold State.setP; split <;> rfl
@[simp] theorem State.job_setP (d q : Nat) (r : BitVec 3) (v : Bool) : (s.setP d q r v).job = s.job := by unfold State.setP; split <;> rfl
@[simp] theorem State.team_setP (d q : Nat) (r : BitVec 3) (v : Bool) : (s.setP d q r v).team = s.team := by unfold State.setP; split <;> rfl
@[simp] theorem State.frame_setP (d q : Nat) (r : BitVec 3) (v : Bool) : (s.setP d q r v).frame = s.frame := by unfold State.setP; split <;> rfl
@[simp] theorem State.lamp_setP (d q : Nat) (r : BitVec 3) (v : Bool) : (s.setP d q r v).lamp = s.lamp := by unfold State.setP; split <;> rfl
@[simp] theorem State.fw_setP (d q : Nat) (r : BitVec 3) (v : Bool) : (s.setP d q r v).fw = s.fw := by unfold State.setP; split <;> rfl
@[simp] theorem State.ringHold_setP (d q : Nat) (r : BitVec 3) (v : Bool) : (s.setP d q r v).ringHold = s.ringHold := by unfold State.setP; split <;> rfl
@[simp] theorem State.wire_setP (d q : Nat) (r : BitVec 3) (v : Bool) : (s.setP d q r v).wire = s.wire := by unfold State.setP; split <;> rfl
@[simp] theorem State.fresh_setP (d q : Nat) (r : BitVec 3) (v : Bool) : (s.setP d q r v).fresh = s.fresh := by unfold State.setP; split <;> rfl
@[simp] theorem State.word_setP (d q : Nat) (r : BitVec 3) (v : Bool) (r0 : RegId) : (s.setP d q r v).word r0 = s.word r0 := by unfold State.setP; split <;> rfl
@[simp] theorem State.rd_setP (d q : Nat) (r : BitVec 3) (v : Bool) (f0 : FRef) : (s.setP d q r v).rd f0 = s.rd f0 := by unfold State.setP; split <;> rfl
@[simp] theorem State.flag_setP (d q : Nat) (r : BitVec 3) (v : Bool) (f0 : FRef) : (s.setP d q r v).flag f0 = s.flag f0 := by unfold State.setP; split <;> rfl
@[simp] theorem State.item_setP (d q : Nat) (r : BitVec 3) (v : Bool) (k0 : Nat) : (s.setP d q r v).item k0 = s.item k0 := by unfold State.setP; split <;> rfl
@[simp] theorem State.chan_setP (d q : Nat) (r : BitVec 3) (v : Bool) (d0 n0 : Nat) : (s.setP d q r v).chan d0 n0 = s.chan d0 n0 := by unfold State.setP; split <;> rfl
@[simp] theorem State.die_setP (d q : Nat) (r : BitVec 3) (v : Bool) (d0 : Nat) : (s.setP d q r v).die d0 = s.die d0 := by unfold State.setP; split <;> rfl
@[simp] theorem State.link_setP (d q : Nat) (r : BitVec 3) (v : Bool) (d0 l0 : Nat) : (s.setP d q r v).link d0 l0 = s.link d0 l0 := by unfold State.setP; split <;> rfl
@[simp] theorem State.port_setP (d q : Nat) (r : BitVec 3) (v : Bool) (d0 l0 : Nat) : (s.setP d q r v).port d0 l0 = s.port d0 l0 := by unfold State.setP; split <;> rfl
@[simp] theorem State.region_setP (d q : Nat) (r : BitVec 3) (v : Bool) (r0 : Nat) : (s.setP d q r v).region r0 = s.region r0 := by unfold State.setP; split <;> rfl
@[simp] theorem State.frameSeq_setP (d q : Nat) (r : BitVec 3) (v : Bool)  : (s.setP d q r v).frameSeq  = s.frameSeq  := by unfold State.setP; split <;> rfl
@[simp] theorem State.byteAt_setP (d q : Nat) (r : BitVec 3) (v : Bool) (a0 : Nat) : (s.setP d q r v).byteAt a0 = s.byteAt a0 := by unfold State.setP; split <;> rfl

@[simp] theorem State.pending_setBytes (a : Nat) (bs : List Byte) : (s.setBytes a bs).pending = s.pending := by
  induction bs generalizing s a with
  | nil => rfl
  | cons b r ih => exact ih (s.setByte a b) (a + 1)
@[simp] theorem State.fuses_setBytes (a : Nat) (bs : List Byte) : (s.setBytes a bs).fuses = s.fuses := by
  induction bs generalizing s a with
  | nil => rfl
  | cons b r ih => exact ih (s.setByte a b) (a + 1)
@[simp] theorem State.flash_setBytes (a : Nat) (bs : List Byte) : (s.setBytes a bs).flash = s.flash := by
  induction bs generalizing s a with
  | nil => rfl
  | cons b r ih => exact ih (s.setByte a b) (a + 1)
@[simp] theorem State.regs_setBytes (a : Nat) (bs : List Byte) : (s.setBytes a bs).regs = s.regs := by
  induction bs generalizing s a with
  | nil => rfl
  | cons b r ih => exact ih (s.setByte a b) (a + 1)
@[simp] theorem State.pend_setBytes (a : Nat) (bs : List Byte) : (s.setBytes a bs).pend = s.pend := by
  induction bs generalizing s a with
  | nil => rfl
  | cons b r ih => exact ih (s.setByte a b) (a + 1)
@[simp] theorem State.armed_setBytes (a : Nat) (bs : List Byte) : (s.setBytes a bs).armed = s.armed := by
  induction bs generalizing s a with
  | nil => rfl
  | cons b r ih => exact ih (s.setByte a b) (a + 1)
@[simp] theorem State.cores_setBytes (a : Nat) (bs : List Byte) : (s.setBytes a bs).cores = s.cores := by
  induction bs generalizing s a with
  | nil => rfl
  | cons b r ih => exact ih (s.setByte a b) (a + 1)
@[simp] theorem State.items_setBytes (a : Nat) (bs : List Byte) : (s.setBytes a bs).items = s.items := by
  induction bs generalizing s a with
  | nil => rfl
  | cons b r ih => exact ih (s.setByte a b) (a + 1)
@[simp] theorem State.posts_setBytes (a : Nat) (bs : List Byte) : (s.setBytes a bs).posts = s.posts := by
  induction bs generalizing s a with
  | nil => rfl
  | cons b r ih => exact ih (s.setByte a b) (a + 1)
@[simp] theorem State.rlists_setBytes (a : Nat) (bs : List Byte) : (s.setBytes a bs).rlists = s.rlists := by
  induction bs generalizing s a with
  | nil => rfl
  | cons b r ih => exact ih (s.setByte a b) (a + 1)
@[simp] theorem State.ctrNext_setBytes (a : Nat) (bs : List Byte) : (s.setBytes a bs).ctrNext = s.ctrNext := by
  induction bs generalizing s a with
  | nil => rfl
  | cons b r ih => exact ih (s.setByte a b) (a + 1)
@[simp] theorem State.chans_setBytes (a : Nat) (bs : List Byte) : (s.setBytes a bs).chans = s.chans := by
  induction bs generalizing s a with
  | nil => rfl
  | cons b r ih => exact ih (s.setByte a b) (a + 1)
@[simp] theorem State.dies_setBytes (a : Nat) (bs : List Byte) : (s.setBytes a bs).dies = s.dies := by
  induction bs generalizing s a with
  | nil => rfl
  | cons b r ih => exact ih (s.setByte a b) (a + 1)
@[simp] theorem State.links_setBytes (a : Nat) (bs : List Byte) : (s.setBytes a bs).links = s.links := by
  induction bs generalizing s a with
  | nil => rfl
  | cons b r ih => exact ih (s.setByte a b) (a + 1)
@[simp] theorem State.ports_setBytes (a : Nat) (bs : List Byte) : (s.setBytes a bs).ports = s.ports := by
  induction bs generalizing s a with
  | nil => rfl
  | cons b r ih => exact ih (s.setByte a b) (a + 1)
@[simp] theorem State.regions_setBytes (a : Nat) (bs : List Byte) : (s.setBytes a bs).regions = s.regions := by
  induction bs generalizing s a with
  | nil => rfl
  | cons b r ih => exact ih (s.setByte a b) (a + 1)
@[simp] theorem State.job_setBytes (a : Nat) (bs : List Byte) : (s.setBytes a bs).job = s.job := by
  induction bs generalizing s a with
  | nil => rfl
  | cons b r ih => exact ih (s.setByte a b) (a + 1)
@[simp] theorem State.team_setBytes (a : Nat) (bs : List Byte) : (s.setBytes a bs).team = s.team := by
  induction bs generalizing s a with
  | nil => rfl
  | cons b r ih => exact ih (s.setByte a b) (a + 1)
@[simp] theorem State.frame_setBytes (a : Nat) (bs : List Byte) : (s.setBytes a bs).frame = s.frame := by
  induction bs generalizing s a with
  | nil => rfl
  | cons b r ih => exact ih (s.setByte a b) (a + 1)
@[simp] theorem State.lamp_setBytes (a : Nat) (bs : List Byte) : (s.setBytes a bs).lamp = s.lamp := by
  induction bs generalizing s a with
  | nil => rfl
  | cons b r ih => exact ih (s.setByte a b) (a + 1)
@[simp] theorem State.fw_setBytes (a : Nat) (bs : List Byte) : (s.setBytes a bs).fw = s.fw := by
  induction bs generalizing s a with
  | nil => rfl
  | cons b r ih => exact ih (s.setByte a b) (a + 1)
@[simp] theorem State.ringHold_setBytes (a : Nat) (bs : List Byte) : (s.setBytes a bs).ringHold = s.ringHold := by
  induction bs generalizing s a with
  | nil => rfl
  | cons b r ih => exact ih (s.setByte a b) (a + 1)
@[simp] theorem State.wire_setBytes (a : Nat) (bs : List Byte) : (s.setBytes a bs).wire = s.wire := by
  induction bs generalizing s a with
  | nil => rfl
  | cons b r ih => exact ih (s.setByte a b) (a + 1)
@[simp] theorem State.fresh_setBytes (a : Nat) (bs : List Byte) : (s.setBytes a bs).fresh = s.fresh := by
  induction bs generalizing s a with
  | nil => rfl
  | cons b r ih => exact ih (s.setByte a b) (a + 1)
@[simp] theorem State.word_setBytes (a : Nat) (bs : List Byte) (r0 : RegId) : (s.setBytes a bs).word r0 = s.word r0 := by
  induction bs generalizing s a with
  | nil => rfl
  | cons b r ih => exact ih (s.setByte a b) (a + 1)
@[simp] theorem State.rd_setBytes (a : Nat) (bs : List Byte) (f0 : FRef) : (s.setBytes a bs).rd f0 = s.rd f0 := by
  induction bs generalizing s a with
  | nil => rfl
  | cons b r ih => exact ih (s.setByte a b) (a + 1)
@[simp] theorem State.flag_setBytes (a : Nat) (bs : List Byte) (f0 : FRef) : (s.setBytes a bs).flag f0 = s.flag f0 := by
  induction bs generalizing s a with
  | nil => rfl
  | cons b r ih => exact ih (s.setByte a b) (a + 1)
@[simp] theorem State.core_setBytes (a : Nat) (bs : List Byte) (d0 q0 : Nat) : (s.setBytes a bs).core d0 q0 = s.core d0 q0 := by
  induction bs generalizing s a with
  | nil => rfl
  | cons b r ih => exact ih (s.setByte a b) (a + 1)
@[simp] theorem State.item_setBytes (a : Nat) (bs : List Byte) (k0 : Nat) : (s.setBytes a bs).item k0 = s.item k0 := by
  induction bs generalizing s a with
  | nil => rfl
  | cons b r ih => exact ih (s.setByte a b) (a + 1)
@[simp] theorem State.chan_setBytes (a : Nat) (bs : List Byte) (d0 n0 : Nat) : (s.setBytes a bs).chan d0 n0 = s.chan d0 n0 := by
  induction bs generalizing s a with
  | nil => rfl
  | cons b r ih => exact ih (s.setByte a b) (a + 1)
@[simp] theorem State.die_setBytes (a : Nat) (bs : List Byte) (d0 : Nat) : (s.setBytes a bs).die d0 = s.die d0 := by
  induction bs generalizing s a with
  | nil => rfl
  | cons b r ih => exact ih (s.setByte a b) (a + 1)
@[simp] theorem State.link_setBytes (a : Nat) (bs : List Byte) (d0 l0 : Nat) : (s.setBytes a bs).link d0 l0 = s.link d0 l0 := by
  induction bs generalizing s a with
  | nil => rfl
  | cons b r ih => exact ih (s.setByte a b) (a + 1)
@[simp] theorem State.port_setBytes (a : Nat) (bs : List Byte) (d0 l0 : Nat) : (s.setBytes a bs).port d0 l0 = s.port d0 l0 := by
  induction bs generalizing s a with
  | nil => rfl
  | cons b r ih => exact ih (s.setByte a b) (a + 1)
@[simp] theorem State.region_setBytes (a : Nat) (bs : List Byte) (r0 : Nat) : (s.setBytes a bs).region r0 = s.region r0 := by
  induction bs generalizing s a with
  | nil => rfl
  | cons b r ih => exact ih (s.setByte a b) (a + 1)
@[simp] theorem State.sreg_setBytes (a : Nat) (bs : List Byte) (d0 q0 : Nat) (x0 : BitVec 5) : (s.setBytes a bs).sreg d0 q0 x0 = s.sreg d0 q0 x0 := by
  induction bs generalizing s a with
  | nil => rfl
  | cons b r ih => exact ih (s.setByte a b) (a + 1)
@[simp] theorem State.preg_setBytes (a : Nat) (bs : List Byte) (d0 q0 : Nat) (x0 : BitVec 3) : (s.setBytes a bs).preg d0 q0 x0 = s.preg d0 q0 x0 := by
  induction bs generalizing s a with
  | nil => rfl
  | cons b r ih => exact ih (s.setByte a b) (a + 1)
@[simp] theorem State.treg_setBytes (a : Nat) (bs : List Byte) (d0 q0 x0 : Nat) : (s.setBytes a bs).treg d0 q0 x0 = s.treg d0 q0 x0 := by
  induction bs generalizing s a with
  | nil => rfl
  | cons b r ih => exact ih (s.setByte a b) (a + 1)
@[simp] theorem State.frameSeq_setBytes (a : Nat) (bs : List Byte)  : (s.setBytes a bs).frameSeq  = s.frameSeq  := by
  induction bs generalizing s a with
  | nil => rfl
  | cons b r ih => exact ih (s.setByte a b) (a + 1)

/-- A register word after a write of a word. -/
@[simp] theorem State.word_setWord_same (r : RegId) (w : Word) : (s.setWord r w).word r = w := assocGet_assocSet_same ..

theorem State.word_setWord_ne {r q : RegId} (w : Word) (h : r ≠ q) : (s.setWord r w).word q = s.word q := assocGet_assocSet_ne _ _ _ h

theorem State.word_wr_ne {f : FRef} {q : RegId} (v : Nat) (h : f.reg ≠ q) : (s.wr f v).word q = s.word q := s.word_setWord_ne _ h

theorem State.word_count_ne {f : FRef} {q : RegId} (n : Nat) (h : f.reg ≠ q) : (s.count f n).word q = s.word q := s.word_wr_ne _ h

theorem State.rd_wr_ne {f g : FRef} (v : Nat) (h : f.reg ≠ g.reg) : (s.wr f v).rd g = s.rd g := by
  simp only [State.rd, s.word_wr_ne v h]

theorem State.rd_count_ne {f g : FRef} (n : Nat) (h : f.reg ≠ g.reg) : (s.count f n).rd g = s.rd g := s.rd_wr_ne _ h

theorem State.rd_setWord_ne {r : RegId} {g : FRef} (w : Word) (h : r ≠ g.reg) : (s.setWord r w).rd g = s.rd g := by
  simp only [State.rd, s.word_setWord_ne w h]

@[simp] theorem State.core_modCore_same (d q : Nat) (g : Core → Core) : (s.modCore d q g).core d q = g (s.core d q) := tabGet_tabSet_same ..

theorem State.core_modCore_ne {d q d0 q0 : Nat} (g : Core → Core) (h : coreKey d q ≠ coreKey d0 q0) :
    (s.modCore d q g).core d0 q0 = s.core d0 q0 := tabGet_tabSet_ne _ _ _ h

@[simp] theorem State.item_modItem_same (k : Nat) (g : Item → Item) : (s.modItem k g).item k = g (s.item k) := tabGet_tabSet_same ..

theorem State.item_modItem_ne {k j : Nat} (g : Item → Item) (h : k ≠ j) : (s.modItem k g).item j = s.item j := tabGet_tabSet_ne _ _ _ h

@[simp] theorem State.chan_modChan_same (d n : Nat) (g : Chan → Chan) : (s.modChan d n g).chan d n = g (s.chan d n) := tabGet_tabSet_same ..

@[simp] theorem State.die_modDie_same (d : Nat) (g : Die → Die) : (s.modDie d g).die d = g (s.die d) := tabGet_tabSet_same ..

theorem State.die_modDie_ne {d e : Nat} (g : Die → Die) (h : d ≠ e) : (s.modDie d g).die e = s.die e := tabGet_tabSet_ne _ _ _ h

@[simp] theorem State.link_modLink_same (d l : Nat) (g : Link → Link) : (s.modLink d l g).link d l = g (s.link d l) := tabGet_tabSet_same ..

@[simp] theorem State.port_modPort_same (d l : Nat) (g : Port → Port) : (s.modPort d l g).port d l = g (s.port d l) := tabGet_tabSet_same ..

@[simp] theorem State.region_modRegion_same (r : Nat) (g : Region → Region) : (s.modRegion r g).region r = g (s.region r) :=
  tabGet_tabSet_same ..

end Sys2Proof.Machine
end

