-- ==== Sys2Proof/Laws/Field.lean ====
section
/-! SUPPORT. Laws of bit fields of register words: a field reads as what was written to it, and the other fields of the word stand. -/

namespace Sys2Proof.Machine

/-- A word in three parts: below a field, the field, above it. -/
theorem field_split (w lo width : Nat) :
    w = w / 2 ^ (lo + width) * 2 ^ (lo + width) + field w lo width * 2 ^ lo + w % 2 ^ lo := by
  have h1 := Nat.div_add_mod w (2 ^ lo)
  have h2 := Nat.div_add_mod (w / 2 ^ lo) (2 ^ width)
  rw [Nat.div_div_eq_div_mul, ← pow_add] at h2
  simp only [field, Nat.shiftRight_eq_div_pow]
  calc w = 2 ^ lo * (w / 2 ^ lo) + w % 2 ^ lo := h1.symm
    _ = 2 ^ lo * (2 ^ width * (w / 2 ^ (lo + width)) + w / 2 ^ lo % 2 ^ width) + w % 2 ^ lo := by rw [h2]
    _ = _ := by rw [pow_add]; ring

/-- A field value with what stands below it is below the place above it. -/
theorem parts_lt {x y lo width : Nat} (hx : x < 2 ^ width) (hy : y < 2 ^ lo) : x * 2 ^ lo + y < 2 ^ (lo + width) := by
  have h : (x + 1) * 2 ^ lo ≤ 2 ^ width * 2 ^ lo := Nat.mul_le_mul_right _ hx
  rw [← pow_add, Nat.add_comm width] at h
  rw [Nat.add_mul] at h
  omega

/-- What replacing a field makes of a word. -/
theorem putField_eq (w lo width v : Nat) :
    putField w lo width v = w / 2 ^ (lo + width) * 2 ^ (lo + width) + (v % 2 ^ width) * 2 ^ lo + w % 2 ^ lo := by
  have h := field_split w lo width
  simp only [putField, Nat.shiftLeft_eq]
  omega

theorem putField_lt {w lo width v : Nat} (hw : w < 2 ^ 64) (hf : lo + width ≤ 64) : putField w lo width v < 2 ^ 64 := by
  rw [putField_eq]
  have h1 : v % 2 ^ width < 2 ^ width := Nat.mod_lt _ (by positivity)
  have h2 : w % 2 ^ lo < 2 ^ lo := Nat.mod_lt _ (by positivity)
  have h3 : v % 2 ^ width * 2 ^ lo + w % 2 ^ lo < 2 ^ (lo + width) := parts_lt h1 h2
  obtain ⟨k, hk⟩ := Nat.exists_eq_add_of_le hf
  have h4 : w / 2 ^ (lo + width) < 2 ^ k := by
    rw [Nat.div_lt_iff_lt_mul (by positivity), ← pow_add, Nat.add_comm k, ← hk]; exact hw
  have h5 : (w / 2 ^ (lo + width) + 1) * 2 ^ (lo + width) ≤ 2 ^ k * 2 ^ (lo + width) := Nat.mul_le_mul_right _ h4
  rw [← pow_add, Nat.add_comm k, ← hk] at h5
  nlinarith

theorem field_putField_same (w lo width v : Nat) : field (putField w lo width v) lo width = v % 2 ^ width := by
  rw [putField_eq]
  simp only [field, Nat.shiftRight_eq_div_pow]
  have h2 : w % 2 ^ lo < 2 ^ lo := Nat.mod_lt _ (by positivity)
  have h : w / 2 ^ (lo + width) * 2 ^ (lo + width) + v % 2 ^ width * 2 ^ lo + w % 2 ^ lo =
      2 ^ lo * (2 ^ width * (w / 2 ^ (lo + width)) + v % 2 ^ width) + w % 2 ^ lo := by
    rw [pow_add]; ring
  rw [h, Nat.mul_add_div (by positivity), Nat.div_eq_of_lt h2, Nat.add_zero, Nat.mul_add_mod, Nat.mod_mod]

/-- A field below another is untouched. -/
theorem field_putField_low {w lo width v lo' width' : Nat} (h : lo' + width' ≤ lo) :
    field (putField w lo width v) lo' width' = field w lo' width' := by
  rw [putField_eq]
  conv_rhs => rw [field_split w lo width]
  simp only [field, Nat.shiftRight_eq_div_pow]
  obtain ⟨k, rfl⟩ := Nat.exists_eq_add_of_le h
  have e : ∀ x : Nat, w / 2 ^ (lo' + width' + k + width) * 2 ^ (lo' + width' + k + width) + x * 2 ^ (lo' + width' + k) + w % 2 ^ (lo' + width' + k) =
      2 ^ lo' * (2 ^ width' * (2 ^ (k + width) * (w / 2 ^ (lo' + width' + k + width)) + 2 ^ k * x)) + w % 2 ^ (lo' + width' + k) := by
    intro x; simp only [pow_add]; ring
  rw [e, e, Nat.mul_add_div (by positivity), Nat.mul_add_div (by positivity), Nat.mul_add_mod, Nat.mul_add_mod]

/-- A field above another is untouched. -/
theorem field_putField_high {w lo width v lo' width' : Nat} (h : lo + width ≤ lo') :
    field (putField w lo width v) lo' width' = field w lo' width' := by
  have key : putField w lo width v / 2 ^ (lo + width) = w / 2 ^ (lo + width) := by
    rw [putField_eq]
    have h1 : v % 2 ^ width < 2 ^ width := Nat.mod_lt _ (by positivity)
    have h2 : w % 2 ^ lo < 2 ^ lo := Nat.mod_lt _ (by positivity)
    have h3 : v % 2 ^ width * 2 ^ lo + w % 2 ^ lo < 2 ^ (lo + width) := parts_lt h1 h2
    rw [Nat.add_assoc, Nat.mul_comm, Nat.mul_add_div (by positivity), Nat.div_eq_of_lt h3, Nat.add_zero]
  obtain ⟨k, rfl⟩ := Nat.exists_eq_add_of_le h
  simp only [field, Nat.shiftRight_eq_div_pow]
  rw [pow_add 2 (lo + width) k, ← Nat.div_div_eq_div_mul, ← Nat.div_div_eq_div_mul, key]

theorem State.word_wr (s : State) (f : FRef) (v : Nat) (hf : f.lo + f.width ≤ 64) :
    ((s.wr f v).word f.reg).toNat = putField (s.word f.reg).toNat f.lo f.width v := by
  rw [State.wr, State.word_setWord_same, BitVec.toNat_ofNat, Nat.mod_eq_of_lt (putField_lt (BitVec.isLt _) hf)]

/-- A field reads as what was written to it. -/
theorem State.rd_wr_same (s : State) (f : FRef) (v : Nat) (hf : f.lo + f.width ≤ 64) : (s.wr f v).rd f = v % 2 ^ f.width := by
  rw [State.rd, State.word_wr s f v hf, field_putField_same]

/-- Another field of the word stands. -/
theorem State.rd_wr_other (s : State) (f g : FRef) (v : Nat) (hf : f.lo + f.width ≤ 64)
    (hd : g.reg = f.reg → g.lo + g.width ≤ f.lo ∨ f.lo + f.width ≤ g.lo) : (s.wr f v).rd g = s.rd g := by
  by_cases hr : f.reg = g.reg
  · simp only [State.rd, ← hr, State.word_wr s f v hf]
    rcases hd hr.symm with h | h
    · exact field_putField_low h
    · exact field_putField_high h
  · exact s.rd_wr_ne v hr

/-- A field of a register that stands. -/
theorem State.rd_congr {s t : State} {f : FRef} (h : t.word f.reg = s.word f.reg) : t.rd f = s.rd f := by
  rw [State.rd, h, State.rd]

theorem State.rd_lt (s : State) (f : FRef) : s.rd f < 2 ^ f.width := Nat.mod_lt _ (by positivity)

/-- A counter after a count. -/
theorem State.rd_count_same (s : State) (f : FRef) (n : Nat) (hf : f.lo + f.width ≤ 64) :
    (s.count f n).rd f = min (s.rd f + n) (2 ^ f.width - 1) := by
  rw [State.count, State.rd_wr_same _ _ _ hf, Nat.mod_eq_of_lt]
  have : 0 < 2 ^ f.width := by positivity
  omega

end Sys2Proof.Machine
end

