-- ==== Sys2Proof/Laws/Issue.lean ====
section
/-! SUPPORT. What issuing and retiring an instruction do: the one lemma that the laws of the sequencer classes cite. -/

namespace Sys2Proof.Machine

/-- An instruction that executes does what its body comes to. -/
theorem State.issue_of_issues {s : State} {h : Hdr} {n : Nat} (hi : Issues s h n) (body : State → Res) :
    s.issue h n true true body = match body s with
        | .done s' => s'.retire h.die h.seq ((s.core h.die h.seq).pc + BitVec.ofNat 64 n)
        | .jump s' pc' => s'.retire h.die h.seq pc'
        | .stall s' => s'
        | .fault num items => s.programFault h.die h.seq num 0 (s.core h.die h.seq).pc.toNat items := by
  obtain ⟨a, ha⟩ := Option.isSome_iff_exists.1 hi.fetch
  simp only [State.issue, hi.ready, ha, hi.clean, hi.pred, State.replays, Nat.zero_min]
  simp only [Bool.true_eq_false, if_false, gt_iff_lt, Nat.not_lt_zero]
  all_goals (cases body s <;> rfl)

/-- An assignment to a register that a search of the register list passes over changes nothing that it finds. -/
theorem findSome_assocSet {α β : Type} (t : Assoc α) (r : RegId) (w : α) (p : RegId × α → Option β) (hp : ∀ w, p (r, w) = none) :
    (assocSet t r w).findSome? p = t.findSome? p := by
  induction t with
  | nil => simp [assocSet, hp]
  | cons e t ih =>
    obtain ⟨k, v⟩ := e
    simp only [assocSet]
    split
    · rename_i hk; subst hk; simp [hp]
    · simp only [List.findSome?_cons, ih]

/-- A register that is no RETIRE entry redirects no granule. -/
def RegId.plain : RegId → Bool
  | .RETIRE _ _ => false
  | _ => true

/-- Where a byte stands does not depend on a register other than the RETIRE entries. -/
theorem State.place_setWord (s : State) {r : RegId} (hr : r.plain = true) (w : Word) (a : Nat) : (s.setWord r w).place a = s.place a := by
  simp only [State.place, State.retiredTo, State.setWord]
  rw [findSome_assocSet]
  intro v
  cases r <;> first | rfl | simp [RegId.plain] at hr

theorem State.byteAt_setWord (s : State) {r : RegId} (hr : r.plain = true) (w : Word) (a : Nat) : (s.setWord r w).byteAt a = s.byteAt a := by
  simp only [State.byteAt, State.place_setWord s hr]
  rfl

theorem State.byteAt_wr (s : State) {f : FRef} (hr : f.reg.plain = true) (v : Nat) (a : Nat) : (s.wr f v).byteAt a = s.byteAt a :=
  s.byteAt_setWord hr _ a

theorem State.byteAt_count (s : State) {f : FRef} (hr : f.reg.plain = true) (v : Nat) (a : Nat) : (s.count f v).byteAt a = s.byteAt a :=
  s.byteAt_wr hr _ a

theorem OnlySeq.refl (d q : Nat) (s : State) : OnlySeq d q s s := ⟨rfl, fun _ _ => rfl, fun _ _ => rfl, fun _ => rfl⟩

theorem OnlySeq.trans {d q : Nat} {s t u : State} (h : OnlySeq d q s t) (g : OnlySeq d q t u) : OnlySeq d q s u :=
  ⟨by rw [g.rest, h.rest], fun k hk => (g.others k hk).trans (h.others k hk), fun r hr => (g.regs r hr).trans (h.regs r hr),
    fun a => (g.mem a).trans (h.mem a)⟩

theorem State.modCore_only (s : State) (d q : Nat) (f : Core → Core) : OnlySeq d q s (s.modCore d q f) :=
  ⟨rfl, fun _ hk => tabGet_tabSet_ne _ _ _ (Ne.symm hk), fun _ _ => rfl, fun _ => rfl⟩

theorem State.setS_only (s : State) (d q : Nat) (r : BitVec 5) (v : Word) : OnlySeq d q s (s.setS d q r v) := by
  unfold State.setS
  split
  · exact OnlySeq.refl ..
  · exact State.modCore_only ..

theorem State.setP_only (s : State) (d q : Nat) (r : BitVec 3) (v : Bool) : OnlySeq d q s (s.setP d q r v) := by
  unfold State.setP
  split
  · exact OnlySeq.refl ..
  · exact State.modCore_only ..

/-- Retiring an instruction changes the program counter, and the count of retired instructions. -/
theorem State.retire_only (s : State) (d q : Nat) (pc : Word) : OnlySeq d q s (s.retire d q pc) := by
  unfold State.retire
  refine OnlySeq.trans ?_ (State.modCore_only ..)
  split
  · refine ⟨rfl, fun _ _ => rfl, fun r hr => ?_, fun a => State.byteAt_count _ rfl _ _⟩
    exact State.word_count_ne _ _ fun e => hr e.symm
  · exact OnlySeq.refl ..

@[simp] theorem State.retire_core (s : State) (d q : Nat) (pc : Word) : (s.retire d q pc).core d q = { s.core d q with pc := pc } := by
  unfold State.retire
  simp only [State.core_modCore_same]
  split <;> rfl

@[simp] theorem State.retire_sreg (s : State) (d q : Nat) (pc : Word) (r : BitVec 5) : (s.retire d q pc).sreg d q r = s.sreg d q r := by
  simp only [State.sreg, State.retire_core]

@[simp] theorem State.retire_preg (s : State) (d q : Nat) (pc : Word) (r : BitVec 3) : (s.retire d q pc).preg d q r = s.preg d q r := by
  simp only [State.preg, State.retire_core]

@[simp] theorem State.retire_treg (s : State) (d q : Nat) (pc : Word) (r : Nat) : (s.retire d q pc).treg d q r = s.treg d q r := by
  simp only [State.treg, State.retire_core]

@[simp] theorem State.retire_items (s : State) (d q : Nat) (pc : Word) : (s.retire d q pc).items = s.items := by
  rw [(s.retire_only d q pc).rest]

@[simp] theorem State.retire_item (s : State) (d q : Nat) (pc : Word) (k : Nat) : (s.retire d q pc).item k = s.item k := by
  rw [State.item, State.retire_items, State.item]

/-- A scalar register after a write. -/
theorem State.sreg_setS (s : State) (d q : Nat) (r x : BitVec 5) (v : Word) :
    (s.setS d q r v).sreg d q x = if x = r ∧ x ≠ 0 then v else s.sreg d q x := by
  by_cases hr : r = 0
  · subst hr
    rw [State.setS, if_pos rfl, if_neg (by rintro ⟨rfl, h⟩; exact h rfl)]
  · rw [State.setS, if_neg hr]
    by_cases hx : x = 0
    · subst hx
      rw [if_neg (by simp)]
      simp [State.sreg]
    · rw [State.sreg, if_neg hx, State.core_modCore_same, State.sreg, if_neg hx]
      simp only [tabGet_tabSet]
      by_cases hxr : x = r
      · subst hxr; simp only [if_true, ne_eq, hx, not_false_eq_true, and_self]
      · have : r.toNat ≠ x.toNat := fun e => hxr (BitVec.eq_of_toNat_eq e.symm)
        simp [hxr, this]

/-- A predicate register after a write. -/
theorem State.preg_setP (s : State) (d q : Nat) (r x : BitVec 3) (v : Bool) :
    (s.setP d q r v).preg d q x = if x = r ∧ x ≠ 0 then v else s.preg d q x := by
  by_cases hr : r = 0
  · subst hr
    rw [State.setP, if_pos rfl, if_neg (by rintro ⟨rfl, h⟩; exact h rfl)]
  · rw [State.setP, if_neg hr]
    by_cases hx : x = 0
    · subst hx
      rw [if_neg (by simp)]
      simp [State.preg]
    · rw [State.preg, if_neg hx, State.core_modCore_same, State.preg, if_neg hx]
      generalize (s.core d q).p = p
      have key : ∀ (p : BitVec 8) (r x : BitVec 3) (v : Bool), (if v then p ||| (1#8 <<< r.toNat) else p &&& ~~~(1#8 <<< r.toNat)).getLsbD x.toNat =
          if x = r then v else p.getLsbD x.toNat := by
        intro p r x v
        have hx8 : x.toNat < 8 := x.isLt
        have hb : (1#8 <<< r.toNat).getLsbD x.toNat = decide (x = r) := by
          revert r x; decide
        cases v <;> simp only [if_true, Bool.false_eq_true, if_false, BitVec.getLsbD_or, BitVec.getLsbD_and, BitVec.getLsbD_not, hb] <;>
          by_cases hxr : x = r <;> simp [hxr, hx8]
      rw [key]
      simp only [ne_eq, hx, not_false_eq_true, and_true]

/-- A scalar register written keeps the rest of the sequencer. -/
theorem State.setS_core (s : State) (d q : Nat) (r : BitVec 5) (v : Word) :
    (s.setS d q r v).core d q = { s.core d q with s := ((s.setS d q r v).core d q).s } := by
  unfold State.setS
  split
  · rfl
  · simp

/-- A predicate register written keeps the rest of the sequencer. -/
theorem State.setP_core (s : State) (d q : Nat) (r : BitVec 3) (v : Bool) :
    (s.setP d q r v).core d q = { s.core d q with p := ((s.setP d q r v).core d q).p } := by
  unfold State.setP
  split
  · rfl
  · simp

/-- An instruction that writes one scalar register and retires. -/
theorem OnlyScalars.done {s : State} {d q : Nat} (r : BitVec 5) (v : Word) (pc : Word) : OnlyScalars d q s ((s.setS d q r v).retire d q pc) :=
  ⟨(State.setS_only ..).trans (State.retire_only ..), by
    rw [State.retire_core]; conv_lhs => rw [State.setS_core]⟩

/-- An instruction that writes one predicate register and retires. -/
theorem OnlyPreds.done {s : State} {d q : Nat} (r : BitVec 3) (v : Bool) (pc : Word) : OnlyPreds d q s ((s.setP d q r v).retire d q pc) :=
  ⟨(State.setP_only ..).trans (State.retire_only ..), by
    rw [State.retire_core]; conv_lhs => rw [State.setP_core]⟩

/-- Retiring changes of the sequencer's own state the program counter alone. -/
theorem OnlyPc.retire (s : State) (d q : Nat) (pc : Word) : OnlyPc d q s (s.retire d q pc) :=
  ⟨s.retire_only d q pc, by rw [State.retire_core]⟩

end Sys2Proof.Machine
end

