-- ==== Sys2Proof/Laws/Raised.lean ====
section
/-! SUPPORT. What raising an event can change: `Raised` holds of every operation of Machine/Events.lean. -/

set_option linter.unreachableTactic false
set_option linter.unusedTactic false
set_option linter.unusedVariables false

namespace Sys2Proof.Machine

theorem Raised.refl (s : State) : Raised s s := ⟨rfl, fun _ _ => rfl, fun _ => rfl, rfl, fun _ => ⟨rfl, .inl rfl⟩⟩

theorem Raised.trans {s t u : State} (h : Raised s t) (g : Raised t u) : Raised s u :=
  ⟨by rw [g.rest, h.rest], fun r hr => (g.regs r hr).trans (h.regs r hr), fun a => (g.mem a).trans (h.mem a), by rw [g.job, h.job], fun k => by
    obtain ⟨h1, h2⟩ := h.items k
    obtain ⟨g1, g2⟩ := g.items k
    refine ⟨by rw [g1, h1], ?_⟩
    rcases h2 with a | a <;> rcases g2 with b | b
    · exact .inl (b.trans a)
    · refine .inr ⟨?_, b.2⟩
      have := b.1
      rw [h1] at this
      simpa only [Item.onCore, a] using this
    · exact .inr ⟨a.1, b.trans a.2⟩
    · have := b.1
      simp [Item.onCore, a.2] at this⟩

theorem Raised.cut {s0 x : State} {P : Prop} (h1 : Raised s0 x) (h2 : Raised s0 x → P) : P := h2 h1

theorem Raised.foldl {α : Type} {s0 s : State} (f : State → α → State) (l : List α) (h : Raised s0 s)
    (hf : ∀ t x, Raised s0 t → Raised s0 (f t x)) : Raised s0 (l.foldl f s) := by
  induction l generalizing s with
  | nil => exact h
  | cons a r ih => exact ih (hf s a h)

theorem Raised.lampSet {s0 s : State} (h : Raised s0 s) (l : Lamp) : Raised s0 { s with lamp := l } :=
  h.trans ⟨rfl, fun _ _ => rfl, fun _ => rfl, rfl, fun _ => ⟨rfl, .inl rfl⟩⟩

theorem RegId.plain_of_raised {r : RegId} (h : r.raised = true) : r.plain = true := by
  cases r <;> first | rfl | simp [RegId.raised, RegId.standby] at h

theorem State.setWord_raised {s0 s : State} (h : Raised s0 s) (r : RegId) (w : Word) (hr : r.raised = true) : Raised s0 (s.setWord r w) :=
  h.trans ⟨rfl, fun q hq => State.word_setWord_ne _ _ (fun e => by rw [e, hq] at hr; cases hr), fun a => State.byteAt_setWord _ (RegId.plain_of_raised hr) _ _,
    rfl, fun _ => ⟨rfl, .inl rfl⟩⟩

theorem State.wr_raised {s0 s : State} (h : Raised s0 s) (f : FRef) (v : Nat) (hr : f.reg.raised = true) : Raised s0 (s.wr f v) :=
  State.setWord_raised h _ _ hr

theorem State.count_raised {s0 s : State} (h : Raised s0 s) (f : FRef) (n : Nat) (hr : f.reg.raised = true) : Raised s0 (s.count f n) :=
  State.setWord_raised h _ _ hr

theorem State.modCore_raised {s0 s : State} (h : Raised s0 s) (d q : Nat) (g : Core → Core) : Raised s0 (s.modCore d q g) :=
  h.trans ⟨rfl, fun _ _ => rfl, fun _ => rfl, rfl, fun _ => ⟨rfl, .inl rfl⟩⟩

theorem State.modItem_raised {s0 s : State} (h : Raised s0 s) (k : Nat) (g : Item → Item)
    (hg : ∀ i, g i = { i with st := (g i).st, charged := (g i).charged, hard := (g i).hard } ∧ ((g i).st = i.st ∨ (i.onCore = true ∧ (g i).st = .stopped))) : Raised s0 (s.modItem k g) :=
  h.trans ⟨rfl, fun _ _ => rfl, fun _ => rfl, rfl, fun j => by
    by_cases hj : k = j
    · subst hj; rw [State.item_modItem_same]; exact hg _
    · rw [State.item_modItem_ne _ _ hj]; exact ⟨rfl, .inl rfl⟩⟩

theorem State.modChan_raised {s0 s : State} (h : Raised s0 s) (d n : Nat) (g : Chan → Chan) : Raised s0 (s.modChan d n g) :=
  h.trans ⟨rfl, fun _ _ => rfl, fun _ => rfl, rfl, fun _ => ⟨rfl, .inl rfl⟩⟩

theorem State.modDie_raised {s0 s : State} (h : Raised s0 s) (d : Nat) (g : Die → Die) : Raised s0 (s.modDie d g) :=
  h.trans ⟨rfl, fun _ _ => rfl, fun _ => rfl, rfl, fun _ => ⟨rfl, .inl rfl⟩⟩

/-- Registers merged by kind: those not of the kind stand. -/
theorem assocGet_merge {α : Type} (t u : Assoc α) (p : RegId → Bool) (r : RegId) (d : α) (hr : p r = false) :
    assocGet (t.filter (fun e => !p e.1) ++ u.filter (fun e => p e.1)) r d = assocGet t r d := by
  induction t with
  | nil =>
    induction u with
    | nil => rfl
    | cons e u ih =>
      obtain ⟨q, v⟩ := e
      simp only [List.filter_cons]
      by_cases hq : p q
      · have : q ≠ r := fun e => by rw [e, hr] at hq; cases hq
        simpa [hq, assocGet, this] using ih
      · simpa [hq] using ih
  | cons e t ih =>
    obtain ⟨q, v⟩ := e
    simp only [List.filter_cons]
    by_cases hq : p q
    · have : q ≠ r := fun e => by rw [e, hr] at hq; cases hq
      simpa [hq, assocGet, this] using ih
    · simp only [hq, Bool.not_false, if_true, List.cons_append, assocGet, ih]

theorem findSome_merge {α β : Type} (t u : Assoc α) (p : RegId → Bool) (f : RegId × α → Option β) (hf : ∀ r w, p r = true → f (r, w) = none) :
    (t.filter (fun e => !p e.1) ++ u.filter (fun e => p e.1)).findSome? f = t.findSome? f := by
  induction t with
  | nil =>
    induction u with
    | nil => rfl
    | cons e u ih =>
      obtain ⟨q, v⟩ := e
      simp only [List.filter_cons]
      by_cases hq : p q
      · simpa [hq, hf q v hq] using ih
      · simpa [hq] using ih
  | cons e t ih =>
    obtain ⟨q, v⟩ := e
    simp only [List.filter_cons]
    by_cases hq : p q
    · simpa [hq, hf q v hq] using ih
    · simp only [hq, Bool.not_false, if_true, List.cons_append, List.findSome?_cons, ih]

theorem RegId.raised_of_standby {r : RegId} (h : r.standby = true) : r.raised = true := by
  cases r <;> first | rfl | simp [RegId.standby] at h

/-- A change of the writes that wait, and of the frame's note of a fence without entry. -/
theorem Raised.lit {s0 s : State} (h : Raised s0 s) (p a : Assoc PendW) (u : Nat) (b : Bool) :
    Raised s0 { s with pend := p, armed := a, frame := { s.frame with unentered := u }, job := { s.job with takeover := b } } :=
  h.trans ⟨rfl, fun _ _ => rfl, fun _ => rfl, rfl, fun _ => ⟨rfl, .inl rfl⟩⟩

theorem Raised.unentered {s0 s : State} (h : Raised s0 s) (u : Nat) : Raised s0 { s with frame := { s.frame with unentered := u } } :=
  Raised.lit h s.pend s.armed u s.job.takeover

theorem State.takeStandby_raised {s0 s : State} (h : Raised s0 s) : Raised s0 s.takeStandby := by
  have hk : Raised s { s with regs := s.regs.filter (fun e => !e.1.standby) ++ s.job.standby.filter (fun e => e.1.standby) } := by
    refine ⟨rfl, fun r hr => ?_, fun a => ?_, rfl, fun _ => ⟨rfl, .inl rfl⟩⟩
    · refine assocGet_merge _ _ _ _ _ ?_
      by_contra hc
      rw [RegId.raised_of_standby (by simpa using hc)] at hr
      cases hr
    · have hp : ({ s with regs := s.regs.filter (fun e => !e.1.standby) ++ s.job.standby.filter (fun e => e.1.standby) } : State).place a = s.place a := by
        simp only [State.place, State.retiredTo]
        rw [findSome_merge]
        intro r w hr
        cases r <;> first | rfl | simp [RegId.standby] at hr
      simp only [State.byteAt, hp]
  unfold State.takeStandby
  dsimp only
  have h1 := fun p a => Raised.lit (h.trans hk) p a s.frame.unentered true
  split
  · exact State.wr_raised (h1 _ _) _ _ rfl
  · exact h1 _ _

theorem State.fifoPush_raised {s0 s : State} (h : Raised s0 s) (d : Nat) (w : FifoWord) : Raised s0 (State.fifoPush s d w) := by
  unfold State.fifoPush
  repeat' first
    | (exact rfl)
    | with_reducible assumption
    | with_reducible apply State.modDie_raised
    | split

theorem State.record_raised {s0 s : State} (h : Raised s0 s) (d : Nat) (e : Ev) : Raised s0 (State.record s d e) := by
  unfold State.record
  repeat' first
    | (exact rfl)
    | with_reducible assumption
    | ((try lift_lets -underBinder); first | ((intro z; refine Raised.cut (s0 := s0) (x := z) ?_ ?_) <;> [(dsimp -zeta only [z]); (intro hz; try clear_value z)]) | ((intro z; refine Raised.cut (s0 := s0) (x := z.1) ?_ ?_) <;> [(dsimp -zeta only [z]); (intro hz; try clear_value z)]) | (intro z; have hz : z.arb = z.arb := rfl; clear hz) | (intro z; try clear_value z))
    | with_reducible apply State.count_raised
    | with_reducible apply State.modDie_raised
    | with_reducible apply State.fifoPush_raised
    | split

theorem State.placeEntry_raised {s0 s : State} (h : Raised s0 s) (d : Nat) (i : Nat) (e : Ev) (elevel : Nat) : Raised s0 (State.placeEntry s d i e elevel) := by
  unfold State.placeEntry
  repeat' first
    | (exact rfl)
    | with_reducible assumption
    | with_reducible apply State.setWord_raised
    | split

theorem State.enter_raised {s0 s : State} (h : Raised s0 s) (d : Nat) (e : Ev) (l : Nat) (fuel : Nat) : Raised s0 (State.enter s d e l fuel).1 := by
  induction fuel generalizing s l with
  | zero =>
    unfold State.enter
    repeat' first
      | (exact rfl)
      | with_reducible assumption
      | ((try lift_lets -underBinder); first | ((intro z; refine Raised.cut (s0 := s0) (x := z) ?_ ?_) <;> [(dsimp -zeta only [z]); (intro hz; try clear_value z)]) | ((intro z; refine Raised.cut (s0 := s0) (x := z.1) ?_ ?_) <;> [(dsimp -zeta only [z]); (intro hz; try clear_value z)]) | (intro z; have hz : z.arb = z.arb := rfl; clear hz) | (intro z; try clear_value z))
      | with_reducible apply State.count_raised
      | with_reducible apply State.placeEntry_raised
      | split
  | succ n ih =>
    unfold State.enter
    try dsimp -zeta only
    repeat' first
      | (exact rfl)
      | with_reducible assumption
      | ((try lift_lets -underBinder); first | ((intro z; refine Raised.cut (s0 := s0) (x := z) ?_ ?_) <;> [(dsimp -zeta only [z]); (intro hz; try clear_value z)]) | ((intro z; refine Raised.cut (s0 := s0) (x := z.1) ?_ ?_) <;> [(dsimp -zeta only [z]); (intro hz; try clear_value z)]) | (intro z; have hz : z.arb = z.arb := rfl; clear hz) | (intro z; try clear_value z))
      | with_reducible apply ih
      | with_reducible apply State.count_raised
      | with_reducible apply State.placeEntry_raised
      | split

theorem State.lampCount_raised {s0 s : State} (h : Raised s0 s) (i n : Nat) : Raised s0 (s.lampCount i n) := Raised.lampSet h _

theorem State.history_raised {s0 s : State} (h : Raised s0 s) (e : Ev) : Raised s0 (s.history e) :=
  Raised.lampSet (Raised.lampSet h _) _

theorem State.report_raised {s0 s : State} (h : Raised s0 s) (d : Nat) (e : Ev) : Raised s0 (State.report s d e) := by
  unfold State.report
  repeat' first
    | (exact rfl)
    | with_reducible assumption
    | with_reducible apply State.record_raised
    | with_reducible apply State.history_raised
    | split

theorem State.notice_raised {s0 s : State} (h : Raised s0 s) (d : Nat) (e : Ev) : Raised s0 (State.notice s d e) := by
  unfold State.notice
  repeat' first
    | (exact rfl)
    | with_reducible assumption
    | with_reducible apply State.report_raised
    | split

theorem State.saturated_raised {s0 s : State} (h : Raised s0 s) (d c : Nat) (gs : Tab Group) : Raised s0 (s.saturated d c gs) := by
  unfold State.saturated
  refine Raised.foldl _ _ h fun t g ht => ?_
  split
  · exact State.notice_raised ht _ _
  · exact ht

theorem State.abandonGroups_raised {s0 s : State} (h : Raised s0 s) (d c : Nat) : Raised s0 (s.abandonGroups d c) := by
  unfold State.abandonGroups
  exact State.saturated_raised (State.count_raised (State.modCore_raised h _ _ _) _ _ rfl) _ _ _

theorem State.stopItem_raised {s0 s : State} (h : Raised s0 s) (d c : Nat) : Raised s0 (s.stopItem d c) := by
  unfold State.stopItem
  split
  · refine State.abandonGroups_raised (State.modCore_raised (State.modItem_raised h _ _ fun i => ?_) _ _ _) _ _
    split
    · exact ⟨rfl, .inr ⟨‹_›, rfl⟩⟩
    · exact ⟨rfl, .inl rfl⟩
  · split
    · exact State.modCore_raised h _ _ _
    · exact h

theorem State.haltCore_raised {s0 s : State} (h : Raised s0 s) (d : Nat) (c : Nat) : Raised s0 (State.haltCore s d c) := by
  unfold State.haltCore
  repeat' first
    | (exact rfl)
    | with_reducible assumption
    | with_reducible apply State.modCore_raised
    | with_reducible apply State.abandonGroups_raised
    | with_reducible apply State.stopItem_raised
    | split

theorem State.bypassClose_raised {s0 s : State} (h : Raised s0 s) (cause : Nat) : Raised s0 (State.bypassClose s cause) := by
  unfold State.bypassClose
  repeat' first
    | (exact rfl)
    | with_reducible assumption
    | with_reducible apply State.wr_raised
    | with_reducible apply State.count_raised
    | split

theorem State.moduleLost_raised {s0 s : State} (h : Raised s0 s) (d : Nat) (i : Nat) : Raised s0 (State.moduleLost s d i) := by
  unfold State.moduleLost
  repeat' first
    | (exact rfl)
    | with_reducible assumption
    | with_reducible apply State.wr_raised
    | with_reducible apply State.count_raised
    | split



theorem State.stopDie_raised {s0 s : State} (h : Raised s0 s) (d : Nat) (trigger : Nat) : Raised s0 (State.stopDie s d trigger) := by
  unfold State.stopDie
  repeat' first
    | (exact rfl)
    | with_reducible assumption
    | ((try lift_lets -underBinder); first | ((intro z; refine Raised.cut (s0 := s0) (x := z) ?_ ?_) <;> [(dsimp -zeta only [z]); (intro hz; try clear_value z)]) | ((intro z; refine Raised.cut (s0 := s0) (x := z.1) ?_ ?_) <;> [(dsimp -zeta only [z]); (intro hz; try clear_value z)]) | (intro z; have hz : z.arb = z.arb := rfl; clear hz) | (intro z; try clear_value z))
    | with_reducible apply State.wr_raised
    | with_reducible apply State.modDie_raised
    | with_reducible apply State.notice_raised
    | with_reducible apply State.haltCore_raised
    | with_reducible apply State.takeStandby_raised
    | ((with_reducible refine Raised.foldl _ _ ?_ (fun z w hz => ?_)); (try beta_reduce))
    | split

theorem State.fenceDie_raised {s0 s : State} (h : Raised s0 s) (d : Nat) (trigger : Nat) (x : Nat) (i : Nat) : Raised s0 (State.fenceDie s d trigger x i) := by
  unfold State.fenceDie
  repeat' first
    | (exact rfl)
    | with_reducible assumption
    | ((try lift_lets -underBinder); first | ((intro z; refine Raised.cut (s0 := s0) (x := z) ?_ ?_) <;> [(dsimp -zeta only [z]); (intro hz; try clear_value z)]) | ((intro z; refine Raised.cut (s0 := s0) (x := z.1) ?_ ?_) <;> [(dsimp -zeta only [z]); (intro hz; try clear_value z)]) | (intro z; have hz : z.arb = z.arb := rfl; clear hz) | (intro z; try clear_value z))
    | with_reducible apply State.count_raised
    | with_reducible apply State.moduleLost_raised
    | with_reducible apply State.stopDie_raised
    | split

theorem State.fenceUnentered_raised {s0 s : State} (h : Raised s0 s) (d trigger : Nat) : Raised s0 (s.fenceUnentered d trigger) := by
  unfold State.fenceUnentered
  split
  · exact h
  · exact Raised.unentered (State.stopDie_raised h _ _) _

theorem State.charge_raised {s0 s : State} (h : Raised s0 s) (e : Ev) (item : Option Nat) : Raised s0 (s.charge e item) := by
  unfold State.charge
  split
  · split
    · exact State.modItem_raised h _ _ fun _ => ⟨rfl, .inl rfl⟩
    · exact h
  · exact h

theorem State.levelOne_raised {s0 s : State} (h : Raised s0 s) (e : Ev) : Raised s0 (State.levelOne s e) := by
  unfold State.levelOne
  repeat' first
    | (exact rfl)
    | with_reducible assumption
    | with_reducible apply State.modCore_raised
    | with_reducible apply State.stopItem_raised
    | split

theorem State.holdEvent_raised {s0 s : State} (h : Raised s0 s) (d : Nat) (e : Ev) : Raised s0 (State.holdEvent s d e) := by
  unfold State.holdEvent
  repeat' first
    | (exact rfl)
    | with_reducible assumption
    | ((try lift_lets -underBinder); first | ((intro z; refine Raised.cut (s0 := s0) (x := z) ?_ ?_) <;> [(dsimp -zeta only [z]); (intro hz; try clear_value z)]) | ((intro z; refine Raised.cut (s0 := s0) (x := z.1) ?_ ?_) <;> [(dsimp -zeta only [z]); (intro hz; try clear_value z)]) | (intro z; have hz : z.arb = z.arb := rfl; clear hz) | (intro z; try clear_value z))
    | with_reducible apply State.modCore_raised
    | with_reducible apply State.modChan_raised
    | with_reducible apply State.modDie_raised
    | with_reducible apply State.notice_raised
    | with_reducible apply State.haltCore_raised
    | with_reducible apply State.fenceUnentered_raised
    | split

theorem State.enterError_raised {s0 s : State} (h : Raised s0 s) (d : Nat) (e : Ev) : Raised s0 (State.enterError s d e) := by
  unfold State.enterError
  repeat' first
    | (exact rfl)
    | with_reducible assumption
    | ((try lift_lets -underBinder); first | ((intro z; refine Raised.cut (s0 := s0) (x := z) ?_ ?_) <;> [(dsimp -zeta only [z]); (intro hz; try clear_value z)]) | ((intro z; refine Raised.cut (s0 := s0) (x := z.1) ?_ ?_) <;> [(dsimp -zeta only [z]); (intro hz; try clear_value z)]) | (intro z; have hz : z.arb = z.arb := rfl; clear hz) | (intro z; try clear_value z))
    | with_reducible apply State.enter_raised
    | with_reducible apply State.notice_raised
    | with_reducible apply State.moduleLost_raised
    | with_reducible apply State.fenceDie_raised
    | with_reducible apply State.holdEvent_raised
    | split

theorem State.fenceFound_raised {s0 s : State} (h : Raised s0 s) (d trigger : Nat) : Raised s0 (s.fenceFound d trigger) := by
  unfold State.fenceFound
  split
  · exact h
  · have h1 := fun x e => State.enterError_raised (State.stopDie_raised h d trigger) x e
    dsimp only
    split
    · split
      · exact State.moduleLost_raised (h1 _ _) _ _
      · exact h1 _ _
    · split
      · exact Raised.unentered (h1 _ _) _
      · exact h1 _ _

theorem State.raiseFor_raised {s0 s : State} (h : Raised s0 s) (d : Nat) (e : Ev) (item : Option Nat) : Raised s0 (State.raiseFor s d e item) := by
  unfold State.raiseFor
  repeat' first
    | (exact rfl)
    | with_reducible assumption
    | ((try lift_lets -underBinder); first | ((intro z; refine Raised.cut (s0 := s0) (x := z) ?_ ?_) <;> [(dsimp -zeta only [z]); (intro hz; try clear_value z)]) | ((intro z; refine Raised.cut (s0 := s0) (x := z.1) ?_ ?_) <;> [(dsimp -zeta only [z]); (intro hz; try clear_value z)]) | (intro z; have hz : z.arb = z.arb := rfl; clear hz) | (intro z; try clear_value z))
    | with_reducible apply State.report_raised
    | with_reducible apply State.charge_raised
    | with_reducible apply State.levelOne_raised
    | with_reducible apply State.enterError_raised
    | split

theorem State.raise_raised {s0 s : State} (h : Raised s0 s) (e : Ev) : Raised s0 (State.raise s e) := by
  unfold State.raise
  repeat' first
    | (exact rfl)
    | with_reducible assumption
    | with_reducible apply State.raiseFor_raised
    | split

theorem State.raiseAll_raised {s0 s : State} (h : Raised s0 s) (es : List Ev) : Raised s0 (State.raiseAll s es) := by
  induction es generalizing s  with
  | nil =>
    unfold State.raiseAll
    repeat' first
      | (exact rfl)
      | with_reducible assumption
      | with_reducible apply State.raise_raised
      | split
  | cons x r ih =>
    unfold State.raiseAll
    try dsimp -zeta only
    repeat' first
      | (exact rfl)
      | with_reducible assumption
      | with_reducible apply ih
      | with_reducible apply State.raise_raised
      | split

theorem State.raiseLead_raised {s0 s : State} (h : Raised s0 s) (num : Nat) (unit : Nat) (items : List (Nat × Nat)) : Raised s0 (State.raiseLead s num unit items) := by
  unfold State.raiseLead
  repeat' first
    | (exact rfl)
    | with_reducible assumption
    | with_reducible apply State.raise_raised
    | split

theorem State.busyWrite_raised {s0 s : State} (h : Raised s0 s) (d : Nat) (addr : Nat) (unit : Nat) : Raised s0 (State.busyWrite s d addr unit) := by
  unfold State.busyWrite
  repeat' first
    | (exact rfl)
    | with_reducible assumption
    | with_reducible apply State.raise_raised
    | split

theorem State.unmapped_raised {s0 s : State} (h : Raised s0 s) (d : Nat) (core : Nat) (unit : Nat) (inst : Nat) (addr : Nat) (requester : Nat) : Raised s0 (State.unmapped s d core unit inst addr requester) := by
  unfold State.unmapped
  repeat' first
    | (exact rfl)
    | with_reducible assumption
    | with_reducible apply State.raise_raised
    | split


end Sys2Proof.Machine
end

