-- ==== Sys2Proof/Laws/Fault.lean ====
section
/-! SUPPORT. What a program fault does, once: `Faulted` holds of `programFault`. -/

namespace Sys2Proof.Machine

/-- A comparison of numbers that evaluates. -/
theorem fle {a b : Nat} (h : Nat.ble a b = true := by rfl) : a ≤ b := Nat.le_of_ble_eq_true h

/-- Nothing but registers and cores differs between two states. -/
def RegsCores (s t : State) : Prop := t = { s with regs := t.regs, cores := t.cores }

theorem RegsCores.wr {s t : State} (h : RegsCores s t) (f : FRef) (v : Nat) : RegsCores s (t.wr f v) := by
  unfold RegsCores at *
  rw [State.wr, State.setWord]
  generalize assocSet t.regs _ _ = x
  rw [h]

theorem RegsCores.modCore {s t : State} (h : RegsCores s t) (d q : Nat) (g : Core → Core) : RegsCores s (t.modCore d q g) := by
  unfold RegsCores at *
  rw [State.modCore]
  generalize tabSet t.cores _ _ = x
  rw [h]

theorem State.recordExc_rest (s : State) (d q num unit pc item : Nat) : RegsCores s (s.recordExc d q num unit pc item) := by
  have h0 : RegsCores s (s.count (SEQ_EXC_COUNT d q) 1) := RegsCores.wr (t := s) rfl _ _
  unfold State.recordExc
  dsimp only
  generalize s.count (SEQ_EXC_COUNT d q) 1 = t at h0 ⊢
  split
  · exact h0
  · exact ((((((h0.modCore ..).wr ..).wr ..).wr ..).wr ..).wr ..)

/-- SEQ_EXC after a record: the first fault stands, and each is counted (R133). -/
theorem State.recordExc_spec (s : State) (d q num unit pc item : Nat) :
    let t := s.recordExc d q num unit pc item
    (s.rd (SEQ_EXC_VALID d q) = 0 → t.rd (SEQ_EXC_CAUSE d q) = num % 256 ∧ t.rd (SEQ_EXC_VALID d q) = 1 ∧
      t.rd (SEQ_EXC_UNIT d q) = unit % 16 ∧ t.rd (SEQ_EXC_PC d q) = pc % 2 ^ 20) ∧
    (s.rd (SEQ_EXC_VALID d q) = 1 → t.rd (SEQ_EXC_CAUSE d q) = s.rd (SEQ_EXC_CAUSE d q) ∧ t.rd (SEQ_EXC_VALID d q) = 1 ∧
      t.rd (SEQ_EXC_UNIT d q) = s.rd (SEQ_EXC_UNIT d q) ∧ t.rd (SEQ_EXC_PC d q) = s.rd (SEQ_EXC_PC d q)) ∧
    t.rd (SEQ_EXC_COUNT d q) = min (s.rd (SEQ_EXC_COUNT d q) + 1) 65535 ∧ (∀ r, r ≠ .SEQ_EXC d q → t.word r = s.word r) ∧
    (∀ a, t.byteAt a = s.byteAt a) ∧ t.items = s.items ∧ t.frame = s.frame ∧ (∀ e p, (t.core e p).cur = (s.core e p).cur) := by
  have hc := State.rd_count_same s (SEQ_EXC_COUNT d q) 1 fle
  have hv := State.rd_wr_other s (SEQ_EXC_COUNT d q) (SEQ_EXC_VALID d q) (min (s.rd (SEQ_EXC_COUNT d q) + 1) (2 ^ (SEQ_EXC_COUNT d q).width - 1))
    fle (fun _ => .inl fle)
  have ho : ∀ g : FRef, g.reg = .SEQ_EXC d q → g.lo + g.width ≤ 48 → (s.count (SEQ_EXC_COUNT d q) 1).rd g = s.rd g := fun g hg hw =>
    State.rd_wr_other s (SEQ_EXC_COUNT d q) g _ fle (fun _ => .inl hw)
  intro t
  have hrec : t = if (s.count (SEQ_EXC_COUNT d q) 1).flag (SEQ_EXC_VALID d q) then s.count (SEQ_EXC_COUNT d q) 1 else _ := rfl
  clear_value t
  have hw : ∀ r, r ≠ .SEQ_EXC d q → (s.count (SEQ_EXC_COUNT d q) 1).word r = s.word r := fun r hr =>
    State.word_count_ne _ _ (fun e => hr e.symm)
  have hm : ∀ a, (s.count (SEQ_EXC_COUNT d q) 1).byteAt a = s.byteAt a := fun a => State.byteAt_count _ rfl _ _
  by_cases hvd : s.rd (SEQ_EXC_VALID d q) = 1
  · have hf : (s.count (SEQ_EXC_COUNT d q) 1).flag (SEQ_EXC_VALID d q) = true := by
      simp only [State.flag, ho (SEQ_EXC_VALID d q) rfl fle, hvd, decide_true]
    rw [if_pos hf] at hrec
    subst hrec
    exact ⟨fun h => absurd (h.symm.trans hvd) (by decide), fun _ => ⟨ho (SEQ_EXC_CAUSE d q) rfl fle, (ho (SEQ_EXC_VALID d q) rfl fle).trans hvd,
      ho (SEQ_EXC_UNIT d q) rfl fle, ho (SEQ_EXC_PC d q) rfl fle⟩, hc, hw, hm, rfl, rfl, fun _ _ => rfl⟩
  · have hf : ¬ (s.count (SEQ_EXC_COUNT d q) 1).flag (SEQ_EXC_VALID d q) = true := by
      simp only [State.flag, ho (SEQ_EXC_VALID d q) rfl fle, hvd, decide_false, Bool.false_eq_true, not_false_eq_true]
    rw [if_neg hf] at hrec
    subst hrec
    refine ⟨fun _ => ⟨?_, ?_, ?_, ?_⟩, fun h => absurd h hvd, ?_, fun r hr => ?_, fun a => ?_,
      by simp only [State.items_wr, State.items_modCore, State.items_count], by simp only [State.frame_wr, State.frame_modCore, State.frame_count],
      fun e p => ?_⟩
    · rw [State.rd_wr_other _ _ _ _ fle (fun _ => .inl fle), State.rd_wr_other _ _ _ _ fle (fun _ => .inl fle),
        State.rd_wr_other _ _ _ _ fle (fun _ => .inl fle), State.rd_wr_other _ _ _ _ fle (fun _ => .inl fle),
        State.rd_wr_same _ _ _ fle]
      exact Nat.mod_mod _ _
    · rw [State.rd_wr_other _ _ _ _ fle (fun _ => .inl fle), State.rd_wr_other _ _ _ _ fle (fun _ => .inl fle),
        State.rd_wr_other _ _ _ _ fle (fun _ => .inl fle), State.rd_wr_same _ _ _ fle]
      rfl
    · rw [State.rd_wr_other _ _ _ _ fle (fun _ => .inl fle), State.rd_wr_other _ _ _ _ fle (fun _ => .inl fle),
        State.rd_wr_same _ _ _ fle]
      rfl
    · rw [State.rd_wr_other _ _ _ _ fle (fun _ => .inl fle), State.rd_wr_same _ _ _ fle]
      rfl
    · rw [State.rd_wr_other _ _ _ _ fle (fun _ => .inr fle), State.rd_wr_other _ _ _ _ fle (fun _ => .inr fle),
        State.rd_wr_other _ _ _ _ fle (fun _ => .inr fle), State.rd_wr_other _ _ _ _ fle (fun _ => .inr fle),
        State.rd_wr_other _ _ _ _ fle (fun _ => .inr fle), State.rd_modCore]
      exact hc
    · rw [State.word_wr_ne _ _ (fun e => hr e.symm), State.word_wr_ne _ _ (fun e => hr e.symm), State.word_wr_ne _ _ (fun e => hr e.symm),
        State.word_wr_ne _ _ (fun e => hr e.symm), State.word_wr_ne _ _ (fun e => hr e.symm)]
      exact hw r hr
    · rw [State.byteAt_wr _ rfl, State.byteAt_wr _ rfl, State.byteAt_wr _ rfl, State.byteAt_wr _ rfl, State.byteAt_wr _ rfl]
      exact hm a
    · simp only [State.core_wr]
      by_cases hk : coreKey d q = coreKey e p
      · simp only [State.core, State.modCore, tabGet_tabSet, hk, if_true]
        rfl
      · rw [State.core_modCore_ne _ _ hk, State.core_count]

theorem Noticed.refl (s : State) : Noticed s s := ⟨rfl, fun _ _ => rfl, fun _ => rfl, fun _ => rfl⟩

theorem Noticed.trans {s t u : State} (h : Noticed s t) (g : Noticed t u) : Noticed s u :=
  ⟨by rw [g.rest, h.rest], fun r hr => (g.regs r hr).trans (h.regs r hr), fun d => by rw [g.dies, h.dies], fun a => (g.mem a).trans (h.mem a)⟩

/-- A change of a die's FIFO alone. -/
theorem State.modDie_noticed (s : State) (d : Nat) (g : Die → Die)
    (hg : ∀ x, g x = { x with fifo := (g x).fifo, fifoWait := (g x).fifoWait, evCount := (g x).evCount }) : Noticed s (s.modDie d g) := by
  refine ⟨rfl, fun _ _ => rfl, fun e => ?_, fun _ => rfl⟩
  simp only [State.die, State.modDie, tabGet_tabSet]
  split
  · subst_vars
    exact hg _
  · rfl

theorem State.notice_noticed (s : State) (d : Nat) (e : Ev) : Noticed s (s.notice d e) := by
  have h1 : ∀ (s : State) (w : FifoWord), Noticed s (s.fifoPush d w) := fun s w => s.modDie_noticed d _ fun x => by split <;> rfl
  have h2 : ∀ e, Noticed s (s.record d e) := fun e => by
    unfold State.record
    dsimp only
    split
    · split
      · exact (State.modDie_noticed _ _ _ fun _ => rfl).trans (h1 _ _)
      · exact ⟨rfl, fun r hr => State.word_count_ne _ _ (Ne.symm (hr d)), fun _ => rfl, fun a => State.byteAt_count _ rfl _ _⟩
    · exact h1 _ _
  have h3 : ∀ (s : State) (e : Ev), Noticed s (s.history e) := fun s e => by
    unfold State.history State.lampCount
    dsimp only
    generalize List.drop _ _ = h
    exact ⟨rfl, fun _ _ => rfl, fun _ => rfl, fun _ => rfl⟩
  unfold State.notice State.report
  generalize ({ e with frame := s.frameSeq } : Ev) = e
  split
  · exact (h2 _).trans (h3 _ _)
  · exact h2 _

theorem State.saturated_noticed (s : State) (d c : Nat) (gs : Tab Group) : Noticed s (s.saturated d c gs) := by
  unfold State.saturated
  induction gs generalizing s with
  | nil => exact .refl s
  | cons g gs ih =>
    rw [List.foldl_cons]
    refine Noticed.trans ?_ (ih _)
    split
    · exact State.notice_noticed _ _ _
    · exact .refl s

/-- An item that has stopped stays so when an event is raised. -/
theorem Raised.stays {s t : State} (h : Raised s t) {k : Nat} (hk : (s.item k).st = .stopped) : (t.item k).st = .stopped := by
  rcases (h.items k).2 with e | e
  · exact e.trans hk
  · exact e.2

/-- A program fault does what `Faulted` says; one that names no instruction (unit 15) records the program counter 0. -/
theorem State.programFault_spec (s : State) (d q num unit pc : Nat) (items : List (Nat × Nat)) :
    Faulted d q num unit (if unit = 15 then 0 else pc) s (s.programFault d q num unit pc items) := by
  unfold State.programFault
  dsimp only
  generalize hp : (if unit = 15 then 0 else pc % 2 ^ 20) = upc
  have hp2 : upc % 2 ^ 20 = (if unit = 15 then 0 else pc) % 2 ^ 20 := by rw [← hp]; split <;> simp
  generalize (if unit = 15 then 0 else pc) = pc' at hp2 ⊢
  generalize (if isCtl q = true then 16 else if unit = 15 then 0 else unit) = ucode
  have harest := State.recordExc_rest s d q num unit upc (match (s.core d q).cur with
    | some k => if isCtl q = true then 0 else k % 8
    | none => 0)
  have h1 := State.recordExc_spec s d q num unit upc (match (s.core d q).cur with
    | some k => if isCtl q = true then 0 else k % 8
    | none => 0)
  generalize s.recordExc d q num unit upc (match (s.core d q).cur with
    | some k => if isCtl q = true then 0 else k % 8
    | none => 0) = a at h1 harest ⊢
  unfold RegsCores at harest
  obtain ⟨hfirst, hlater, hcount, hregs, hmem, hitems, hframe, hcur⟩ := h1
  have h2 : ∃ b : State, (if ((s.core d q).cur.isSome = true ∨ unit = 15) ∧ a.frame.pause = 0 then
      ({ a with frame := { a.frame with pause := num } } : State) else a) = b ∧ b.items = a.items ∧ b.cores = a.cores ∧ Raised a { b with frame := a.frame } ∧
      b = { a with frame := { a.frame with pause := b.frame.pause } } := by
    refine ⟨_, rfl, ?_, ?_, ?_, ?_⟩
    · split <;> rfl
    · split <;> rfl
    · split <;> exact Raised.refl _
    · split <;> rfl
  obtain ⟨b, hb, hbi, hbc, hbr, hbrest⟩ := h2
  simp only at hb ⊢
  rw [hb]
  have hbw : ∀ r, b.word r = a.word r := by
    intro r; rw [← hb]; split <;> rfl
  have hbm : ∀ x, b.byteAt x = a.byteAt x := by
    intro x; rw [← hb]; split <;> rfl
  have h3 : ∀ (xs : Tab Item) (e : Ev) (c : State), Raised { b with items := xs } c → (∀ k, s.curItem d q = some k → (s.item k).onCore = true → (c.item k).st = .stopped) →
      Faulted d q num unit pc' s (c.raiseFor d e (s.core d q).cur) := by
    intro xs e c hc hst
    have hr := hc.trans (State.raiseFor_raised (Raised.refl c) d e (s.core d q).cur)
    have hx : ∀ g : FRef, g.reg = .SEQ_EXC d q → (c.raiseFor d e (s.core d q).cur).rd g = a.rd g := fun g hg => by
      have h6 : State.word { b with items := xs } g.reg = b.word g.reg := rfl
      simp only [State.rd, hr.regs g.reg (by rw [hg]; rfl), h6, hbw]
    refine ⟨?_, fun h => ?_, fun h => ?_, ?_, fun k hk hs => ?_, fun r h4 h5 => ?_, fun x => ?_⟩
    · have h6 := hr.rest
      generalize c.raiseFor d e (s.core d q).cur = t at h6 ⊢
      rw [h6, hbrest, harest]
    · have := hfirst h
      rw [hp2] at this
      rw [hx _ rfl, hx _ rfl, hx _ rfl, hx _ rfl]; exact this
    · rw [hx _ rfl, hx _ rfl, hx _ rfl, hx _ rfl]; exact hlater h
    · rw [hx _ rfl]; exact hcount
    · exact (State.raiseFor_raised (Raised.refl c) d e (s.core d q).cur).stays (hst k hk hs)
    · exact (hr.regs r h4).trans ((hbw r).trans (hregs r h5))
    · exact (hr.mem x).trans ((hbm x).trans (hmem x))
  cases hk : (s.core d q).cur with
  | none =>
    rw [hk] at h3
    refine h3 b.items _ _ ?_ fun k hc => ?_
    · dsimp only
      split
      · exact Raised.refl b
      · exact State.stopItem_raised (Raised.refl b) _ _
    · rw [State.curItem, hk] at hc
      cases hc
  | some k =>
    rw [hk] at h3
    dsimp only
    have hr : Raised (b.modItem k fun i => { i with faulted := i.faulted || i.onCore })
        ((b.modItem k fun i => { i with faulted := i.faulted || i.onCore }).stopItem d q) := State.stopItem_raised (Raised.refl _) _ _
    refine h3 (tabSet b.items k { b.item k with faulted := (b.item k).faulted || (b.item k).onCore }) _ _ hr fun j hj hs => ?_
    have hkj : j = k := by
      rw [State.curItem, hk] at hj
      exact (Option.some.inj hj).symm
    subst hkj
    have hc2 : ((b.modItem j fun i => { i with faulted := i.faulted || i.onCore }).core d q).cur = some j := by
      rw [State.core_modItem]
      have : b.core d q = a.core d q := by simp only [State.core, hbc]
      rw [this, hcur, hk]
    have hi : b.item j = s.item j := by simp only [State.item, hbi, hitems]
    unfold State.stopItem
    rw [hc2]
    refine (State.abandonGroups_raised (Raised.refl _) d q).stays ?_
    rw [State.item_modCore, State.item_modItem_same, State.item_modItem_same, hi]
    have ho : Item.onCore { s.item j with faulted := (s.item j).faulted || (s.item j).onCore } = true := hs
    rw [if_pos ho]

/-- A fault in a state whose registers, memory, items and running item are those of another. -/
theorem Faulted.congr {d q num unit pc : Nat} {s u t : State} (h : Faulted d q num unit pc u t) 
    (hr : u.regs = s.regs ∧ u.fuses = s.fuses) 
    (ho : u = { s with regs := u.regs, pend := u.pend, armed := u.armed, cores := u.cores, items := u.items, chans := u.chans, dies := u.dies, job := u.job, lamp := u.lamp, frame := { s.frame with unentered := u.frame.unentered } })
    (hm : ∀ a, u.byteAt a = s.byteAt a) (hi : u.items = s.items)
    (hc : (u.core d q).cur = (s.core d q).cur) : Faulted d q num unit pc s t := by
  have hrest := h.rest
  have hw : ∀ r, u.word r = s.word r := fun r => by simp only [State.word, hr]
  have hd : ∀ f, u.rd f = s.rd f := fun f => by simp only [State.rd, hw]
  obtain ⟨-, h1, h2, h3, h4, h5, h6⟩ := h
  simp only [hd] at h1 h2 h3
  refine ⟨?_, h1, h2, h3, fun k hk hs => h4 k (by rw [State.curItem, hc]; exact hk) (by rw [State.item, hi]; exact hs), fun r a b => (h5 r a b).trans (hw r), fun a => (h6 a).trans (hm a)⟩
  rw [hrest, ho]

/-- A fault of an instruction. -/
theorem State.programFault_faulted (s : State) (d q num unit pc : Nat) (items : List (Nat × Nat)) (hu : unit ≠ 15) :
    Faulted d q num unit pc s (s.programFault d q num unit pc items) := by
  have h := s.programFault_spec d q num unit pc items
  rwa [if_neg hu] at h

/-- A refused post, which names no instruction. -/
theorem State.programFault_refused (s : State) (d q num pc : Nat) (items : List (Nat × Nat)) :
    Faulted d q num 15 0 s (s.programFault d q num 15 pc items) :=
  s.programFault_spec d q num 15 pc items

end Sys2Proof.Machine
end

