-- ==== Sys2Proof/Laws/Keeps.lean ====
section
/-! SUPPORT. That no operation of the model undoes what `Keeps` names: one lemma for each operation and each command. -/

set_option linter.unreachableTactic false
set_option linter.unusedTactic false
set_option linter.unusedVariables false

namespace Sys2Proof.Machine

theorem Keeps.refl (s : State) : Keeps s s := ⟨rfl, id, id, le_refl _, List.prefix_refl _, le_refl _, rfl⟩

theorem Keeps.trans {s t u : State} (h : Keeps s t) (g : Keeps t u) : Keeps s u :=
  ⟨g.queue.trans h.queue, g.mem ∘ h.mem, g.flash ∘ h.flash, h.arb.trans g.arb, h.wire.trans g.wire, h.fresh.trans g.fresh, by
    rw [g.fuses, h.fuses]⟩

/-- A change of the other fields. -/
theorem Keeps.lit {s0 t : State} {undef : List (Nat × Nat × Nat)} {regs : Assoc Word} {pend armed : Assoc PendW} {cores : Tab Core}
    {items : Tab Item} {posts : List Post} {rlists : Tab (List Nat)} {ctrNext : Tab Nat} {chans : Tab Chan} {dies : Tab Die} {links : Tab Link}
    {ports : Tab Port} {regions : Tab Region} {job : Job} {team : Team} {frame : FrameSt} {lamp : Lamp} {ringHold : List FifoWord}
    {fw : Firmware} (h : Keeps s0 t) (hf : fw.arb = t.fw.arb) :
    Keeps s0 (State.mk t.pending t.fuses t.mem undef t.flash regs pend armed cores items posts rlists ctrNext chans dies links ports regions job
      team frame lamp fw ringHold t.wire t.fresh) :=
  ⟨h.queue, h.mem, h.flash, by show _ ≤ fw.arb.toNat; rw [hf]; exact h.arb, h.wire, h.fresh, h.fuses⟩

theorem Keeps.cut {s0 x : State} {P : Prop} (h1 : Keeps s0 x) (h2 : Keeps s0 x → P) : P := h2 h1

theorem Keeps.foldl {α : Type} {s0 s : State} (f : State → α → State) (l : List α) (h : Keeps s0 s)
    (hf : ∀ t x, Keeps s0 t → Keeps s0 (f t x)) : Keeps s0 (l.foldl f s) := by
  induction l generalizing s with
  | nil => exact h
  | cons a r ih => exact ih (hf s a h)

theorem AnsKeeps.next {s0 s : State} (h : Keeps s0 s) : AnsKeeps s0 (.next s) := h

/-- What a body comes to keeps what no command undoes. -/
def ResKeeps (s0 : State) (r : Res) : Prop :=
  match r with
  | .done s => Keeps s0 s
  | .jump s _ => Keeps s0 s
  | .stall s => Keeps s0 s
  | .fault _ _ => True

theorem ResKeeps.done {s0 s : State} (h : Keeps s0 s) : ResKeeps s0 (.done s) := h

theorem ResKeeps.jump {s0 s : State} (h : Keeps s0 s) (pc : Word) : ResKeeps s0 (.jump s pc) := h

theorem ResKeeps.stall {s0 s : State} (h : Keeps s0 s) : ResKeeps s0 (.stall s) := h

theorem ResKeeps.fault {s0 : State} (n : Nat) (xs : List (Nat × Nat)) : ResKeeps s0 (.fault n xs) := trivial

theorem branchTo_keeps {s0 s : State} (h : Keeps s0 s) (pc : Word) : ResKeeps s0 (branchTo s pc) := by
  unfold branchTo
  split
  · exact h
  · trivial

theorem State.setWord_keeps {s0 s : State} (h : Keeps s0 s) (r : RegId) (w : Word) : Keeps s0 (s.setWord r w) :=
  ⟨h.queue, h.mem, h.flash, h.arb, h.wire, h.fresh, h.fuses⟩

theorem State.wr_keeps {s0 s : State} (h : Keeps s0 s) (f : FRef) (v : Nat) : Keeps s0 (s.wr f v) :=
  ⟨h.queue, h.mem, h.flash, h.arb, h.wire, h.fresh, h.fuses⟩

theorem State.count_keeps {s0 s : State} (h : Keeps s0 s) (f : FRef) (n : Nat) : Keeps s0 (s.count f n) :=
  ⟨h.queue, h.mem, h.flash, h.arb, h.wire, h.fresh, h.fuses⟩

theorem State.accum_keeps {s0 s : State} (h : Keeps s0 s) (f : FRef) (n : Nat) : Keeps s0 (s.accum f n) :=
  ⟨h.queue, h.mem, h.flash, h.arb, h.wire, h.fresh, h.fuses⟩

theorem State.modCore_keeps {s0 s : State} (h : Keeps s0 s) (d q : Nat) (g : Core → Core) : Keeps s0 (s.modCore d q g) :=
  ⟨h.queue, h.mem, h.flash, h.arb, h.wire, h.fresh, h.fuses⟩

theorem State.modItem_keeps {s0 s : State} (h : Keeps s0 s) (k : Nat) (g : Item → Item) : Keeps s0 (s.modItem k g) :=
  ⟨h.queue, h.mem, h.flash, h.arb, h.wire, h.fresh, h.fuses⟩

theorem State.modChan_keeps {s0 s : State} (h : Keeps s0 s) (d n : Nat) (g : Chan → Chan) : Keeps s0 (s.modChan d n g) :=
  ⟨h.queue, h.mem, h.flash, h.arb, h.wire, h.fresh, h.fuses⟩

theorem State.modDie_keeps {s0 s : State} (h : Keeps s0 s) (d : Nat) (g : Die → Die) : Keeps s0 (s.modDie d g) :=
  ⟨h.queue, h.mem, h.flash, h.arb, h.wire, h.fresh, h.fuses⟩

theorem State.modLink_keeps {s0 s : State} (h : Keeps s0 s) (d l : Nat) (g : Link → Link) : Keeps s0 (s.modLink d l g) :=
  ⟨h.queue, h.mem, h.flash, h.arb, h.wire, h.fresh, h.fuses⟩

theorem State.modPort_keeps {s0 s : State} (h : Keeps s0 s) (d p : Nat) (g : Port → Port) : Keeps s0 (s.modPort d p g) :=
  ⟨h.queue, h.mem, h.flash, h.arb, h.wire, h.fresh, h.fuses⟩

theorem State.modRegion_keeps {s0 s : State} (h : Keeps s0 s) (r : Nat) (g : Region → Region) : Keeps s0 (s.modRegion r g) :=
  ⟨h.queue, h.mem, h.flash, h.arb, h.wire, h.fresh, h.fuses⟩

theorem State.send_keeps {s0 s : State} (h : Keeps s0 s) (o : Out) : Keeps s0 (s.send o) :=
  ⟨h.queue, h.mem, h.flash, h.arb, h.wire.trans (List.prefix_append ..), h.fresh, h.fuses⟩

theorem State.bankServed_keeps {s0 s : State} (h : Keeps s0 s) (a : Nat) (n : Nat) : Keeps s0 (State.bankServed s a n) := by
  unfold State.bankServed
  repeat' first
    | with_reducible assumption
    | with_reducible apply State.count_keeps
    | ((with_reducible refine Keeps.foldl _ _ ?_ (fun z w hz => ?_)); (try beta_reduce))
    | split

theorem State.setByte_keeps {s0 s : State} (h : Keeps s0 s) (a : Nat) (b : Byte) : Keeps s0 (s.setByte a b) :=
  ⟨h.queue, fun w => wf_cellWrite _ _ (h.mem w), h.flash, h.arb, h.wire, h.fresh, h.fuses⟩

theorem State.setBytes_keeps {s0 s : State} (h : Keeps s0 s) (a : Nat) (bs : List Byte) : Keeps s0 (State.setBytes s a bs) := by
  induction bs generalizing s a with
  | nil =>
    unfold State.setBytes
    repeat' first
      | with_reducible assumption
      | with_reducible apply State.setByte_keeps
      | split
  | cons x r ih =>
    unfold State.setBytes
    try dsimp -zeta only
    repeat' first
      | with_reducible assumption
      | with_reducible apply ih
      | with_reducible apply State.setByte_keeps
      | split

theorem State.zeroRange_keeps {s0 s : State} (h : Keeps s0 s) (a n : Nat) : Keeps s0 (s.zeroRange a n) :=
  ⟨h.queue, fun w => wf_filter _ (h.mem w), h.flash, h.arb, h.wire, h.fresh, h.fuses⟩

theorem State.forget_keeps {s0 s : State} (h : Keeps s0 s) (a n : Nat) : Keeps s0 (s.forget a n) :=
  ⟨h.queue, fun w => wf_filter _ (h.mem w), h.flash, h.arb, h.wire, h.fresh.trans (Nat.le_add_right ..), h.fuses⟩

theorem State.forgetAt_keeps {s0 s : State} (h : Keeps s0 s) (a : Nat) (n : Nat) (fuel : Nat) : Keeps s0 (State.forgetAt s a n fuel) := by
  induction fuel generalizing s a n with
  | zero =>
    unfold State.forgetAt
    repeat' first
      | with_reducible assumption
      | ((try lift_lets -underBinder); first | ((intro z; refine Keeps.cut (s0 := s0) (x := z) ?_ ?_) <;> [(dsimp -zeta only [z]); (intro hz; try clear_value z)]) | ((intro z; refine Keeps.cut (s0 := s0) (x := z.1) ?_ ?_) <;> [(dsimp -zeta only [z]); (intro hz; try clear_value z)]) | (intro z; have hz : z.arb = z.arb := rfl; clear hz) | (intro z; try clear_value z))
      | with_reducible apply State.forget_keeps
      | split
  | succ n ih =>
    unfold State.forgetAt
    try dsimp -zeta only
    repeat' first
      | with_reducible assumption
      | ((try lift_lets -underBinder); first | ((intro z; refine Keeps.cut (s0 := s0) (x := z) ?_ ?_) <;> [(dsimp -zeta only [z]); (intro hz; try clear_value z)]) | ((intro z; refine Keeps.cut (s0 := s0) (x := z.1) ?_ ?_) <;> [(dsimp -zeta only [z]); (intro hz; try clear_value z)]) | (intro z; have hz : z.arb = z.arb := rfl; clear hz) | (intro z; try clear_value z))
      | with_reducible apply ih
      | with_reducible apply State.forget_keeps
      | split

theorem State.used_keeps {s0 s : State} (h : Keeps s0 s) (n : Nat) : Keeps s0 (s.used n) :=
  ⟨h.queue, h.mem, h.flash, h.arb, h.wire, h.fresh.trans (Nat.le_add_right ..), h.fuses⟩

theorem State.setS_keeps {s0 s : State} (h : Keeps s0 s) (d : Nat) (q : Nat) (r : BitVec 5) (v : Word) : Keeps s0 (State.setS s d q r v) := by
  unfold State.setS
  repeat' first
    | with_reducible assumption
    | with_reducible apply State.modCore_keeps
    | split

theorem State.setP_keeps {s0 s : State} (h : Keeps s0 s) (d : Nat) (q : Nat) (r : BitVec 3) (v : Bool) : Keeps s0 (State.setP s d q r v) := by
  unfold State.setP
  repeat' first
    | with_reducible assumption
    | with_reducible apply State.modCore_keeps
    | split

theorem State.setT_keeps {s0 s : State} (h : Keeps s0 s) (d : Nat) (q : Nat) (r : Nat) (v : Td) : Keeps s0 (State.setT s d q r v) := by
  unfold State.setT
  repeat' first
    | with_reducible assumption
    | with_reducible apply State.modCore_keeps
    | split

theorem State.setSem_keeps {s0 s : State} (h : Keeps s0 s) (d : Nat) (q : Nat) (n : Nat) (v : Nat) : Keeps s0 (State.setSem s d q n v) := by
  unfold State.setSem
  repeat' first
    | with_reducible assumption
    | with_reducible apply State.modCore_keeps
    | split

theorem State.fifoPush_keeps {s0 s : State} (h : Keeps s0 s) (d : Nat) (w : FifoWord) : Keeps s0 (State.fifoPush s d w) := by
  unfold State.fifoPush
  repeat' first
    | with_reducible assumption
    | with_reducible apply State.modDie_keeps
    | split

theorem State.record_keeps {s0 s : State} (h : Keeps s0 s) (d : Nat) (e : Ev) : Keeps s0 (State.record s d e) := by
  unfold State.record
  repeat' first
    | with_reducible assumption
    | ((try lift_lets -underBinder); first | ((intro z; refine Keeps.cut (s0 := s0) (x := z) ?_ ?_) <;> [(dsimp -zeta only [z]); (intro hz; try clear_value z)]) | ((intro z; refine Keeps.cut (s0 := s0) (x := z.1) ?_ ?_) <;> [(dsimp -zeta only [z]); (intro hz; try clear_value z)]) | (intro z; have hz : z.arb = z.arb := rfl; clear hz) | (intro z; try clear_value z))
    | with_reducible apply State.count_keeps
    | with_reducible apply State.modDie_keeps
    | with_reducible apply State.fifoPush_keeps
    | split

theorem State.placeEntry_keeps {s0 s : State} (h : Keeps s0 s) (d : Nat) (i : Nat) (e : Ev) (elevel : Nat) : Keeps s0 (State.placeEntry s d i e elevel) := by
  unfold State.placeEntry
  repeat' first
    | with_reducible assumption
    | with_reducible apply State.setWord_keeps
    | split

theorem State.enter_keeps {s0 s : State} (h : Keeps s0 s) (d : Nat) (e : Ev) (l : Nat) (fuel : Nat) : Keeps s0 (State.enter s d e l fuel).1 := by
  induction fuel generalizing s l with
  | zero =>
    unfold State.enter
    repeat' first
      | with_reducible assumption
      | ((try lift_lets -underBinder); first | ((intro z; refine Keeps.cut (s0 := s0) (x := z) ?_ ?_) <;> [(dsimp -zeta only [z]); (intro hz; try clear_value z)]) | ((intro z; refine Keeps.cut (s0 := s0) (x := z.1) ?_ ?_) <;> [(dsimp -zeta only [z]); (intro hz; try clear_value z)]) | (intro z; have hz : z.arb = z.arb := rfl; clear hz) | (intro z; try clear_value z))
      | with_reducible apply State.count_keeps
      | with_reducible apply State.placeEntry_keeps
      | split
  | succ n ih =>
    unfold State.enter
    try dsimp -zeta only
    repeat' first
      | with_reducible assumption
      | ((try lift_lets -underBinder); first | ((intro z; refine Keeps.cut (s0 := s0) (x := z) ?_ ?_) <;> [(dsimp -zeta only [z]); (intro hz; try clear_value z)]) | ((intro z; refine Keeps.cut (s0 := s0) (x := z.1) ?_ ?_) <;> [(dsimp -zeta only [z]); (intro hz; try clear_value z)]) | (intro z; have hz : z.arb = z.arb := rfl; clear hz) | (intro z; try clear_value z))
      | with_reducible apply ih
      | with_reducible apply State.count_keeps
      | with_reducible apply State.placeEntry_keeps
      | split

theorem State.lampCount_keeps {s0 s : State} (h : Keeps s0 s) (i : Nat) (n : Nat) : Keeps s0 (State.lampCount s i n) := by
  unfold State.lampCount
  repeat' first
    | with_reducible assumption
    | ((try lift_lets -underBinder); first | ((intro z; refine Keeps.cut (s0 := s0) (x := z) ?_ ?_) <;> [(dsimp -zeta only [z]); (intro hz; try clear_value z)]) | ((intro z; refine Keeps.cut (s0 := s0) (x := z.1) ?_ ?_) <;> [(dsimp -zeta only [z]); (intro hz; try clear_value z)]) | (intro z; have hz : z.arb = z.arb := rfl; clear hz) | (intro z; try clear_value z))
    | split
    | with_reducible refine Keeps.lit ?_ rfl

theorem State.history_keeps {s0 s : State} (h : Keeps s0 s) (e : Ev) : Keeps s0 (State.history s e) := by
  unfold State.history
  repeat' first
    | with_reducible assumption
    | ((try lift_lets -underBinder); first | ((intro z; refine Keeps.cut (s0 := s0) (x := z) ?_ ?_) <;> [(dsimp -zeta only [z]); (intro hz; try clear_value z)]) | ((intro z; refine Keeps.cut (s0 := s0) (x := z.1) ?_ ?_) <;> [(dsimp -zeta only [z]); (intro hz; try clear_value z)]) | (intro z; have hz : z.arb = z.arb := rfl; clear hz) | (intro z; try clear_value z))
    | with_reducible apply State.lampCount_keeps
    | split
    | with_reducible refine Keeps.lit ?_ rfl

theorem State.report_keeps {s0 s : State} (h : Keeps s0 s) (d : Nat) (e : Ev) : Keeps s0 (State.report s d e) := by
  unfold State.report
  repeat' first
    | with_reducible assumption
    | with_reducible apply State.record_keeps
    | with_reducible apply State.history_keeps
    | split

theorem State.notice_keeps {s0 s : State} (h : Keeps s0 s) (d : Nat) (e : Ev) : Keeps s0 (State.notice s d e) := by
  unfold State.notice
  repeat' first
    | with_reducible assumption
    | with_reducible apply State.report_keeps
    | split
    | with_reducible refine Keeps.lit ?_ rfl

theorem State.saturated_keeps {s0 s : State} (h : Keeps s0 s) (d : Nat) (c : Nat) (gs : Tab Group) : Keeps s0 (State.saturated s d c gs) := by
  unfold State.saturated
  repeat' first
    | with_reducible assumption
    | with_reducible apply State.notice_keeps
    | ((with_reducible refine Keeps.foldl _ _ ?_ (fun z w hz => ?_)); (try beta_reduce))
    | split

theorem State.abandonGroups_keeps {s0 s : State} (h : Keeps s0 s) (d : Nat) (c : Nat) : Keeps s0 (State.abandonGroups s d c) := by
  unfold State.abandonGroups
  repeat' first
    | with_reducible assumption
    | ((try lift_lets -underBinder); first | ((intro z; refine Keeps.cut (s0 := s0) (x := z) ?_ ?_) <;> [(dsimp -zeta only [z]); (intro hz; try clear_value z)]) | ((intro z; refine Keeps.cut (s0 := s0) (x := z.1) ?_ ?_) <;> [(dsimp -zeta only [z]); (intro hz; try clear_value z)]) | (intro z; have hz : z.arb = z.arb := rfl; clear hz) | (intro z; try clear_value z))
    | with_reducible apply State.count_keeps
    | with_reducible apply State.modCore_keeps
    | with_reducible apply State.saturated_keeps
    | ((with_reducible refine Keeps.foldl _ _ ?_ (fun z w hz => ?_)); (try beta_reduce))
    | split

theorem State.stopItem_keeps {s0 s : State} (h : Keeps s0 s) (d : Nat) (c : Nat) : Keeps s0 (State.stopItem s d c) := by
  unfold State.stopItem
  repeat' first
    | with_reducible assumption
    | with_reducible apply State.modCore_keeps
    | with_reducible apply State.modItem_keeps
    | with_reducible apply State.abandonGroups_keeps
    | split

theorem State.haltCore_keeps {s0 s : State} (h : Keeps s0 s) (d : Nat) (c : Nat) : Keeps s0 (State.haltCore s d c) := by
  unfold State.haltCore
  repeat' first
    | with_reducible assumption
    | with_reducible apply State.modCore_keeps
    | with_reducible apply State.abandonGroups_keeps
    | with_reducible apply State.stopItem_keeps
    | split

theorem State.bypassClose_keeps {s0 s : State} (h : Keeps s0 s) (cause : Nat) : Keeps s0 (State.bypassClose s cause) := by
  unfold State.bypassClose
  repeat' first
    | with_reducible assumption
    | with_reducible apply State.wr_keeps
    | with_reducible apply State.count_keeps
    | split

theorem State.moduleLost_keeps {s0 s : State} (h : Keeps s0 s) (d : Nat) (i : Nat) : Keeps s0 (State.moduleLost s d i) := by
  unfold State.moduleLost
  repeat' first
    | with_reducible assumption
    | with_reducible apply State.wr_keeps
    | with_reducible apply State.count_keeps
    | split

theorem State.takeStandby_keeps {s0 s : State} (h : Keeps s0 s) : Keeps s0 (State.takeStandby s) := by
  unfold State.takeStandby
  repeat' first
    | with_reducible assumption
    | ((try lift_lets -underBinder); first | ((intro z; refine Keeps.cut (s0 := s0) (x := z) ?_ ?_) <;> [(dsimp -zeta only [z]); (intro hz; try clear_value z)]) | ((intro z; refine Keeps.cut (s0 := s0) (x := z.1) ?_ ?_) <;> [(dsimp -zeta only [z]); (intro hz; try clear_value z)]) | (intro z; have hz : z.arb = z.arb := rfl; clear hz) | (intro z; try clear_value z))
    | with_reducible apply State.wr_keeps
    | split
    | with_reducible refine Keeps.lit ?_ rfl

theorem State.stopDie_keeps {s0 s : State} (h : Keeps s0 s) (d : Nat) (trigger : Nat) : Keeps s0 (State.stopDie s d trigger) := by
  unfold State.stopDie
  repeat' first
    | with_reducible assumption
    | ((try lift_lets -underBinder); first | ((intro z; refine Keeps.cut (s0 := s0) (x := z) ?_ ?_) <;> [(dsimp -zeta only [z]); (intro hz; try clear_value z)]) | ((intro z; refine Keeps.cut (s0 := s0) (x := z.1) ?_ ?_) <;> [(dsimp -zeta only [z]); (intro hz; try clear_value z)]) | (intro z; have hz : z.arb = z.arb := rfl; clear hz) | (intro z; try clear_value z))
    | with_reducible apply State.wr_keeps
    | with_reducible apply State.modDie_keeps
    | with_reducible apply State.notice_keeps
    | with_reducible apply State.haltCore_keeps
    | with_reducible apply State.takeStandby_keeps
    | ((with_reducible refine Keeps.foldl _ _ ?_ (fun z w hz => ?_)); (try beta_reduce))
    | split

theorem State.fenceDie_keeps {s0 s : State} (h : Keeps s0 s) (d : Nat) (trigger : Nat) (x : Nat) (i : Nat) : Keeps s0 (State.fenceDie s d trigger x i) := by
  unfold State.fenceDie
  repeat' first
    | with_reducible assumption
    | ((try lift_lets -underBinder); first | ((intro z; refine Keeps.cut (s0 := s0) (x := z) ?_ ?_) <;> [(dsimp -zeta only [z]); (intro hz; try clear_value z)]) | ((intro z; refine Keeps.cut (s0 := s0) (x := z.1) ?_ ?_) <;> [(dsimp -zeta only [z]); (intro hz; try clear_value z)]) | (intro z; have hz : z.arb = z.arb := rfl; clear hz) | (intro z; try clear_value z))
    | with_reducible apply State.count_keeps
    | with_reducible apply State.moduleLost_keeps
    | with_reducible apply State.stopDie_keeps
    | split

theorem State.fenceUnentered_keeps {s0 s : State} (h : Keeps s0 s) (d : Nat) (trigger : Nat) : Keeps s0 (State.fenceUnentered s d trigger) := by
  unfold State.fenceUnentered
  repeat' first
    | with_reducible assumption
    | ((try lift_lets -underBinder); first | ((intro z; refine Keeps.cut (s0 := s0) (x := z) ?_ ?_) <;> [(dsimp -zeta only [z]); (intro hz; try clear_value z)]) | ((intro z; refine Keeps.cut (s0 := s0) (x := z.1) ?_ ?_) <;> [(dsimp -zeta only [z]); (intro hz; try clear_value z)]) | (intro z; have hz : z.arb = z.arb := rfl; clear hz) | (intro z; try clear_value z))
    | with_reducible apply State.stopDie_keeps
    | split
    | with_reducible refine Keeps.lit ?_ rfl

theorem State.charge_keeps {s0 s : State} (h : Keeps s0 s) (e : Ev) (item : Option Nat) : Keeps s0 (State.charge s e item) := by
  unfold State.charge
  repeat' first
    | with_reducible assumption
    | with_reducible apply State.modItem_keeps
    | split

theorem State.levelOne_keeps {s0 s : State} (h : Keeps s0 s) (e : Ev) : Keeps s0 (State.levelOne s e) := by
  unfold State.levelOne
  repeat' first
    | with_reducible assumption
    | with_reducible apply State.modCore_keeps
    | with_reducible apply State.stopItem_keeps
    | split

theorem State.holdEvent_keeps {s0 s : State} (h : Keeps s0 s) (d : Nat) (e : Ev) : Keeps s0 (State.holdEvent s d e) := by
  unfold State.holdEvent
  repeat' first
    | with_reducible assumption
    | ((try lift_lets -underBinder); first | ((intro z; refine Keeps.cut (s0 := s0) (x := z) ?_ ?_) <;> [(dsimp -zeta only [z]); (intro hz; try clear_value z)]) | ((intro z; refine Keeps.cut (s0 := s0) (x := z.1) ?_ ?_) <;> [(dsimp -zeta only [z]); (intro hz; try clear_value z)]) | (intro z; have hz : z.arb = z.arb := rfl; clear hz) | (intro z; try clear_value z))
    | with_reducible apply State.modCore_keeps
    | with_reducible apply State.modChan_keeps
    | with_reducible apply State.modDie_keeps
    | with_reducible apply State.notice_keeps
    | with_reducible apply State.haltCore_keeps
    | with_reducible apply State.fenceUnentered_keeps
    | split

theorem State.enterError_keeps {s0 s : State} (h : Keeps s0 s) (d : Nat) (e : Ev) : Keeps s0 (State.enterError s d e) := by
  unfold State.enterError
  repeat' first
    | with_reducible assumption
    | ((try lift_lets -underBinder); first | ((intro z; refine Keeps.cut (s0 := s0) (x := z) ?_ ?_) <;> [(dsimp -zeta only [z]); (intro hz; try clear_value z)]) | ((intro z; refine Keeps.cut (s0 := s0) (x := z.1) ?_ ?_) <;> [(dsimp -zeta only [z]); (intro hz; try clear_value z)]) | (intro z; have hz : z.arb = z.arb := rfl; clear hz) | (intro z; try clear_value z))
    | with_reducible apply State.enter_keeps
    | with_reducible apply State.notice_keeps
    | with_reducible apply State.moduleLost_keeps
    | with_reducible apply State.fenceDie_keeps
    | with_reducible apply State.holdEvent_keeps
    | split

theorem State.fenceFound_keeps {s0 s : State} (h : Keeps s0 s) (d : Nat) (trigger : Nat) : Keeps s0 (State.fenceFound s d trigger) := by
  unfold State.fenceFound
  repeat' first
    | with_reducible assumption
    | ((try lift_lets -underBinder); first | ((intro z; refine Keeps.cut (s0 := s0) (x := z) ?_ ?_) <;> [(dsimp -zeta only [z]); (intro hz; try clear_value z)]) | ((intro z; refine Keeps.cut (s0 := s0) (x := z.1) ?_ ?_) <;> [(dsimp -zeta only [z]); (intro hz; try clear_value z)]) | (intro z; have hz : z.arb = z.arb := rfl; clear hz) | (intro z; try clear_value z))
    | with_reducible apply State.moduleLost_keeps
    | with_reducible apply State.stopDie_keeps
    | with_reducible apply State.enterError_keeps
    | split
    | with_reducible refine Keeps.lit ?_ rfl

theorem State.raiseFor_keeps {s0 s : State} (h : Keeps s0 s) (d : Nat) (e : Ev) (item : Option Nat) : Keeps s0 (State.raiseFor s d e item) := by
  unfold State.raiseFor
  repeat' first
    | with_reducible assumption
    | ((try lift_lets -underBinder); first | ((intro z; refine Keeps.cut (s0 := s0) (x := z) ?_ ?_) <;> [(dsimp -zeta only [z]); (intro hz; try clear_value z)]) | ((intro z; refine Keeps.cut (s0 := s0) (x := z.1) ?_ ?_) <;> [(dsimp -zeta only [z]); (intro hz; try clear_value z)]) | (intro z; have hz : z.arb = z.arb := rfl; clear hz) | (intro z; try clear_value z))
    | with_reducible apply State.report_keeps
    | with_reducible apply State.charge_keeps
    | with_reducible apply State.levelOne_keeps
    | with_reducible apply State.enterError_keeps
    | split
    | with_reducible refine Keeps.lit ?_ rfl

theorem State.raise_keeps {s0 s : State} (h : Keeps s0 s) (e : Ev) : Keeps s0 (State.raise s e) := by
  unfold State.raise
  repeat' first
    | with_reducible assumption
    | with_reducible apply State.raiseFor_keeps
    | split

theorem State.raiseAll_keeps {s0 s : State} (h : Keeps s0 s) (es : List Ev) : Keeps s0 (State.raiseAll s es) := by
  induction es generalizing s  with
  | nil =>
    unfold State.raiseAll
    repeat' first
      | with_reducible assumption
      | with_reducible apply State.raise_keeps
      | split
  | cons x r ih =>
    unfold State.raiseAll
    try dsimp -zeta only
    repeat' first
      | with_reducible assumption
      | with_reducible apply ih
      | with_reducible apply State.raise_keeps
      | split

theorem State.raiseLead_keeps {s0 s : State} (h : Keeps s0 s) (num : Nat) (unit : Nat) (items : List (Nat × Nat)) : Keeps s0 (State.raiseLead s num unit items) := by
  unfold State.raiseLead
  repeat' first
    | with_reducible assumption
    | with_reducible apply State.raise_keeps
    | split

theorem State.busyWrite_keeps {s0 s : State} (h : Keeps s0 s) (d : Nat) (addr : Nat) (unit : Nat) : Keeps s0 (State.busyWrite s d addr unit) := by
  unfold State.busyWrite
  repeat' first
    | with_reducible assumption
    | with_reducible apply State.raise_keeps
    | split

theorem State.unmapped_keeps {s0 s : State} (h : Keeps s0 s) (d : Nat) (core : Nat) (unit : Nat) (inst : Nat) (addr : Nat) (requester : Nat) : Keeps s0 (State.unmapped s d core unit inst addr requester) := by
  unfold State.unmapped
  repeat' first
    | with_reducible assumption
    | with_reducible apply State.raise_keeps
    | split

theorem State.recordExc_keeps {s0 s : State} (h : Keeps s0 s) (d : Nat) (q : Nat) (num : Nat) (unit : Nat) (pc : Nat) (item : Nat) : Keeps s0 (State.recordExc s d q num unit pc item) := by
  unfold State.recordExc
  repeat' first
    | with_reducible assumption
    | ((try lift_lets -underBinder); first | ((intro z; refine Keeps.cut (s0 := s0) (x := z) ?_ ?_) <;> [(dsimp -zeta only [z]); (intro hz; try clear_value z)]) | ((intro z; refine Keeps.cut (s0 := s0) (x := z.1) ?_ ?_) <;> [(dsimp -zeta only [z]); (intro hz; try clear_value z)]) | (intro z; have hz : z.arb = z.arb := rfl; clear hz) | (intro z; try clear_value z))
    | with_reducible apply State.wr_keeps
    | with_reducible apply State.count_keeps
    | with_reducible apply State.modCore_keeps
    | split

theorem State.programFault_keeps {s0 s : State} (h : Keeps s0 s) (d : Nat) (q : Nat) (num : Nat) (unit : Nat) (pc : Nat) (items : List (Nat × Nat)) : Keeps s0 (State.programFault s d q num unit pc items) := by
  unfold State.programFault
  repeat' first
    | with_reducible assumption
    | ((try lift_lets -underBinder); first | ((intro z; refine Keeps.cut (s0 := s0) (x := z) ?_ ?_) <;> [(dsimp -zeta only [z]); (intro hz; try clear_value z)]) | ((intro z; refine Keeps.cut (s0 := s0) (x := z.1) ?_ ?_) <;> [(dsimp -zeta only [z]); (intro hz; try clear_value z)]) | (intro z; have hz : z.arb = z.arb := rfl; clear hz) | (intro z; try clear_value z))
    | with_reducible apply State.modItem_keeps
    | with_reducible apply State.stopItem_keeps
    | with_reducible apply State.raiseFor_keeps
    | with_reducible apply State.recordExc_keeps
    | split
    | with_reducible refine Keeps.lit ?_ rfl

theorem State.exhausted_keeps {s0 s : State} (h : Keeps s0 s) (d : Nat) (q : Nat) (unit : Nat) (pc : Nat) : Keeps s0 (State.exhausted s d q unit pc) := by
  unfold State.exhausted
  repeat' first
    | with_reducible assumption
    | ((try lift_lets -underBinder); first | ((intro z; refine Keeps.cut (s0 := s0) (x := z) ?_ ?_) <;> [(dsimp -zeta only [z]); (intro hz; try clear_value z)]) | ((intro z; refine Keeps.cut (s0 := s0) (x := z.1) ?_ ?_) <;> [(dsimp -zeta only [z]); (intro hz; try clear_value z)]) | (intro z; have hz : z.arb = z.arb := rfl; clear hz) | (intro z; try clear_value z))
    | with_reducible apply State.count_keeps
    | with_reducible apply State.stopItem_keeps
    | with_reducible apply State.raiseFor_keeps
    | with_reducible apply State.recordExc_keeps
    | split

theorem State.replays_keeps {s0 s : State} (h : Keeps s0 s) (d : Nat) (q : Nat) (unit : Nat) (addr : Nat) (n : Nat) : Keeps s0 (State.replays s d q unit addr n) := by
  induction n generalizing s  with
  | zero =>
    unfold State.replays
    repeat' first
      | with_reducible assumption
      | ((try lift_lets -underBinder); first | ((intro z; refine Keeps.cut (s0 := s0) (x := z) ?_ ?_) <;> [(dsimp -zeta only [z]); (intro hz; try clear_value z)]) | ((intro z; refine Keeps.cut (s0 := s0) (x := z.1) ?_ ?_) <;> [(dsimp -zeta only [z]); (intro hz; try clear_value z)]) | (intro z; have hz : z.arb = z.arb := rfl; clear hz) | (intro z; try clear_value z))
      | with_reducible apply State.count_keeps
      | with_reducible apply State.raise_keeps
      | split
  | succ n ih =>
    unfold State.replays
    try dsimp -zeta only
    repeat' first
      | with_reducible assumption
      | ((try lift_lets -underBinder); first | ((intro z; refine Keeps.cut (s0 := s0) (x := z) ?_ ?_) <;> [(dsimp -zeta only [z]); (intro hz; try clear_value z)]) | ((intro z; refine Keeps.cut (s0 := s0) (x := z.1) ?_ ?_) <;> [(dsimp -zeta only [z]); (intro hz; try clear_value z)]) | (intro z; have hz : z.arb = z.arb := rfl; clear hz) | (intro z; try clear_value z))
      | with_reducible apply ih
      | with_reducible apply State.count_keeps
      | with_reducible apply State.raise_keeps
      | split

theorem State.retire_keeps {s0 s : State} (h : Keeps s0 s) (d : Nat) (q : Nat) (pc : Word) : Keeps s0 (State.retire s d q pc) := by
  unfold State.retire
  repeat' first
    | with_reducible assumption
    | ((try lift_lets -underBinder); first | ((intro z; refine Keeps.cut (s0 := s0) (x := z) ?_ ?_) <;> [(dsimp -zeta only [z]); (intro hz; try clear_value z)]) | ((intro z; refine Keeps.cut (s0 := s0) (x := z.1) ?_ ?_) <;> [(dsimp -zeta only [z]); (intro hz; try clear_value z)]) | (intro z; have hz : z.arb = z.arb := rfl; clear hz) | (intro z; try clear_value z))
    | with_reducible apply State.count_keeps
    | with_reducible apply State.modCore_keeps
    | split

theorem State.issue_keeps {s0 s : State} (h : Keeps s0 s) (hd : Hdr) (n : Nat) (legal priv : Bool) (body : State → Res)
    (hb : ∀ t, Keeps s0 t → ResKeeps s0 (body t)) : Keeps s0 (s.issue hd n legal priv body) := by
  unfold State.issue
  split
  · exact h
  · dsimp only
    split
    · exact State.programFault_keeps h _ _ _ _ _ _
    · have h1 := State.replays_keeps h hd.die hd.seq 0 (‹Nat› % 0x100000) (min hd.par (s.replayMax hd.die hd.seq))
      generalize s.replays hd.die hd.seq 0 (‹Nat› % 0x100000) (min hd.par (s.replayMax hd.die hd.seq)) = z at h1 ⊢
      split
      · exact State.exhausted_keeps h1 _ _ _ _
      split
      · exact State.programFault_keeps h1 _ _ _ _ _ _
      split
      · exact State.programFault_keeps h1 _ _ _ _ _ _
      split
      · exact State.retire_keeps h1 _ _ _
      have h2 := hb z h1
      generalize body z = r at h2 ⊢
      cases r with
      | done t => exact State.retire_keeps h2 _ _ _
      | jump t pc => exact State.retire_keeps h2 _ _ _
      | stall t => exact h2
      | fault num items => exact State.programFault_keeps h1 _ _ _ _ _ _

theorem State.alu_keeps {s0 s : State} (h : Keeps s0 s) (wh : Hdr) (a : FmtA) (f : Word → Word → Word) : Keeps s0 (State.alu s wh a f) := by
  unfold State.alu
  repeat' first
    | with_reducible assumption
    | with_reducible apply State.setS_keeps
    | ((with_reducible refine State.issue_keeps ?_ _ _ _ _ _ (fun z hz => ?_)); (try beta_reduce))
    | with_reducible apply ResKeeps.done
    | split

theorem State.cmp_keeps {s0 s : State} (h : Keeps s0 s) (wh : Hdr) (a : FmtA) (f : Word → Word → Bool) : Keeps s0 (State.cmp s wh a f) := by
  unfold State.cmp
  repeat' first
    | with_reducible assumption
    | with_reducible apply State.setP_keeps
    | ((with_reducible refine State.issue_keeps ?_ _ _ _ _ _ (fun z hz => ?_)); (try beta_reduce))
    | with_reducible apply ResKeeps.done
    | split

theorem State.plogic_keeps {s0 s : State} (h : Keeps s0 s) (wh : Hdr) (a : FmtA) (legal : Bool) (f : Bool → Bool → Bool) : Keeps s0 (State.plogic s wh a legal f) := by
  unfold State.plogic
  repeat' first
    | with_reducible assumption
    | with_reducible apply State.setP_keeps
    | ((with_reducible refine State.issue_keeps ?_ _ _ _ _ _ (fun z hz => ?_)); (try beta_reduce))
    | with_reducible apply ResKeeps.done
    | split

theorem execNop_keeps {s0 s : State} (h : Keeps s0 s) (wh : Hdr) (a : FmtA) : AnsKeeps s0 (execNop wh a s) := by
  unfold execNop
  repeat' first
    | with_reducible assumption
    | ((with_reducible refine State.issue_keeps ?_ _ _ _ _ _ (fun z hz => ?_)); (try beta_reduce))
    | with_reducible refine AnsKeeps.next ?_
    | with_reducible apply ResKeeps.done
    | split

theorem execAdd_keeps {s0 s : State} (h : Keeps s0 s) (wh : Hdr) (a : FmtA) : AnsKeeps s0 (execAdd wh a s) := by
  unfold execAdd
  repeat' first
    | with_reducible assumption
    | with_reducible apply State.alu_keeps
    | with_reducible refine AnsKeeps.next ?_
    | split

theorem execSub_keeps {s0 s : State} (h : Keeps s0 s) (wh : Hdr) (a : FmtA) : AnsKeeps s0 (execSub wh a s) := by
  unfold execSub
  repeat' first
    | with_reducible assumption
    | with_reducible apply State.alu_keeps
    | with_reducible refine AnsKeeps.next ?_
    | split

theorem execMul_keeps {s0 s : State} (h : Keeps s0 s) (wh : Hdr) (a : FmtA) : AnsKeeps s0 (execMul wh a s) := by
  unfold execMul
  repeat' first
    | with_reducible assumption
    | with_reducible apply State.alu_keeps
    | with_reducible refine AnsKeeps.next ?_
    | split

theorem execMulhu_keeps {s0 s : State} (h : Keeps s0 s) (wh : Hdr) (a : FmtA) : AnsKeeps s0 (execMulhu wh a s) := by
  unfold execMulhu
  repeat' first
    | with_reducible assumption
    | with_reducible apply State.alu_keeps
    | with_reducible refine AnsKeeps.next ?_
    | split

theorem execAnd_keeps {s0 s : State} (h : Keeps s0 s) (wh : Hdr) (a : FmtA) : AnsKeeps s0 (execAnd wh a s) := by
  unfold execAnd
  repeat' first
    | with_reducible assumption
    | with_reducible apply State.alu_keeps
    | with_reducible refine AnsKeeps.next ?_
    | split

theorem execOr_keeps {s0 s : State} (h : Keeps s0 s) (wh : Hdr) (a : FmtA) : AnsKeeps s0 (execOr wh a s) := by
  unfold execOr
  repeat' first
    | with_reducible assumption
    | with_reducible apply State.alu_keeps
    | with_reducible refine AnsKeeps.next ?_
    | split

theorem execXor_keeps {s0 s : State} (h : Keeps s0 s) (wh : Hdr) (a : FmtA) : AnsKeeps s0 (execXor wh a s) := by
  unfold execXor
  repeat' first
    | with_reducible assumption
    | with_reducible apply State.alu_keeps
    | with_reducible refine AnsKeeps.next ?_
    | split

theorem execShl_keeps {s0 s : State} (h : Keeps s0 s) (wh : Hdr) (a : FmtA) : AnsKeeps s0 (execShl wh a s) := by
  unfold execShl
  repeat' first
    | with_reducible assumption
    | with_reducible apply State.alu_keeps
    | with_reducible refine AnsKeeps.next ?_
    | split

theorem execShr_keeps {s0 s : State} (h : Keeps s0 s) (wh : Hdr) (a : FmtA) : AnsKeeps s0 (execShr wh a s) := by
  unfold execShr
  repeat' first
    | with_reducible assumption
    | with_reducible apply State.alu_keeps
    | with_reducible refine AnsKeeps.next ?_
    | split

theorem execSar_keeps {s0 s : State} (h : Keeps s0 s) (wh : Hdr) (a : FmtA) : AnsKeeps s0 (execSar wh a s) := by
  unfold execSar
  repeat' first
    | with_reducible assumption
    | with_reducible apply State.alu_keeps
    | with_reducible refine AnsKeeps.next ?_
    | split

theorem execMin_keeps {s0 s : State} (h : Keeps s0 s) (wh : Hdr) (a : FmtA) : AnsKeeps s0 (execMin wh a s) := by
  unfold execMin
  repeat' first
    | with_reducible assumption
    | with_reducible apply State.alu_keeps
    | with_reducible refine AnsKeeps.next ?_
    | split

theorem execMax_keeps {s0 s : State} (h : Keeps s0 s) (wh : Hdr) (a : FmtA) : AnsKeeps s0 (execMax wh a s) := by
  unfold execMax
  repeat' first
    | with_reducible assumption
    | with_reducible apply State.alu_keeps
    | with_reducible refine AnsKeeps.next ?_
    | split

theorem execMinu_keeps {s0 s : State} (h : Keeps s0 s) (wh : Hdr) (a : FmtA) : AnsKeeps s0 (execMinu wh a s) := by
  unfold execMinu
  repeat' first
    | with_reducible assumption
    | with_reducible apply State.alu_keeps
    | with_reducible refine AnsKeeps.next ?_
    | split

theorem execMaxu_keeps {s0 s : State} (h : Keeps s0 s) (wh : Hdr) (a : FmtA) : AnsKeeps s0 (execMaxu wh a s) := by
  unfold execMaxu
  repeat' first
    | with_reducible assumption
    | with_reducible apply State.alu_keeps
    | with_reducible refine AnsKeeps.next ?_
    | split

theorem execLi_keeps {s0 s : State} (h : Keeps s0 s) (wh : Hdr) (a : FmtA) : AnsKeeps s0 (execLi wh a s) := by
  unfold execLi
  repeat' first
    | with_reducible assumption
    | with_reducible apply State.setS_keeps
    | ((with_reducible refine State.issue_keeps ?_ _ _ _ _ _ (fun z hz => ?_)); (try beta_reduce))
    | with_reducible refine AnsKeeps.next ?_
    | with_reducible apply ResKeeps.done
    | split

theorem execLih_keeps {s0 s : State} (h : Keeps s0 s) (wh : Hdr) (a : FmtA) : AnsKeeps s0 (execLih wh a s) := by
  unfold execLih
  repeat' first
    | with_reducible assumption
    | with_reducible apply State.setS_keeps
    | ((with_reducible refine State.issue_keeps ?_ _ _ _ _ _ (fun z hz => ?_)); (try beta_reduce))
    | with_reducible refine AnsKeeps.next ?_
    | with_reducible apply ResKeeps.done
    | split

theorem execCmpEq_keeps {s0 s : State} (h : Keeps s0 s) (wh : Hdr) (a : FmtA) : AnsKeeps s0 (execCmpEq wh a s) := by
  unfold execCmpEq
  repeat' first
    | with_reducible assumption
    | with_reducible apply State.cmp_keeps
    | with_reducible refine AnsKeeps.next ?_
    | split

theorem execCmpNe_keeps {s0 s : State} (h : Keeps s0 s) (wh : Hdr) (a : FmtA) : AnsKeeps s0 (execCmpNe wh a s) := by
  unfold execCmpNe
  repeat' first
    | with_reducible assumption
    | with_reducible apply State.cmp_keeps
    | with_reducible refine AnsKeeps.next ?_
    | split

theorem execCmpLt_keeps {s0 s : State} (h : Keeps s0 s) (wh : Hdr) (a : FmtA) : AnsKeeps s0 (execCmpLt wh a s) := by
  unfold execCmpLt
  repeat' first
    | with_reducible assumption
    | with_reducible apply State.cmp_keeps
    | with_reducible refine AnsKeeps.next ?_
    | split

theorem execCmpLtu_keeps {s0 s : State} (h : Keeps s0 s) (wh : Hdr) (a : FmtA) : AnsKeeps s0 (execCmpLtu wh a s) := by
  unfold execCmpLtu
  repeat' first
    | with_reducible assumption
    | with_reducible apply State.cmp_keeps
    | with_reducible refine AnsKeeps.next ?_
    | split

theorem execCmpGe_keeps {s0 s : State} (h : Keeps s0 s) (wh : Hdr) (a : FmtA) : AnsKeeps s0 (execCmpGe wh a s) := by
  unfold execCmpGe
  repeat' first
    | with_reducible assumption
    | with_reducible apply State.cmp_keeps
    | with_reducible refine AnsKeeps.next ?_
    | split

theorem execCmpGeu_keeps {s0 s : State} (h : Keeps s0 s) (wh : Hdr) (a : FmtA) : AnsKeeps s0 (execCmpGeu wh a s) := by
  unfold execCmpGeu
  repeat' first
    | with_reducible assumption
    | with_reducible apply State.cmp_keeps
    | with_reducible refine AnsKeeps.next ?_
    | split

theorem execPand_keeps {s0 s : State} (h : Keeps s0 s) (wh : Hdr) (a : FmtA) : AnsKeeps s0 (execPand wh a s) := by
  unfold execPand
  repeat' first
    | with_reducible assumption
    | with_reducible apply State.plogic_keeps
    | with_reducible refine AnsKeeps.next ?_
    | split

theorem execPor_keeps {s0 s : State} (h : Keeps s0 s) (wh : Hdr) (a : FmtA) : AnsKeeps s0 (execPor wh a s) := by
  unfold execPor
  repeat' first
    | with_reducible assumption
    | with_reducible apply State.plogic_keeps
    | with_reducible refine AnsKeeps.next ?_
    | split

theorem execPxor_keeps {s0 s : State} (h : Keeps s0 s) (wh : Hdr) (a : FmtA) : AnsKeeps s0 (execPxor wh a s) := by
  unfold execPxor
  repeat' first
    | with_reducible assumption
    | with_reducible apply State.plogic_keeps
    | with_reducible refine AnsKeeps.next ?_
    | split

theorem execPnot_keeps {s0 s : State} (h : Keeps s0 s) (wh : Hdr) (a : FmtA) : AnsKeeps s0 (execPnot wh a s) := by
  unfold execPnot
  repeat' first
    | with_reducible assumption
    | with_reducible apply State.plogic_keeps
    | with_reducible refine AnsKeeps.next ?_
    | split

theorem execBr_keeps {s0 s : State} (h : Keeps s0 s) (wh : Hdr) (a : FmtA) : AnsKeeps s0 (execBr wh a s) := by
  unfold execBr
  repeat' first
    | with_reducible assumption
    | ((with_reducible refine State.issue_keeps ?_ _ _ _ _ _ (fun z hz => ?_)); (try beta_reduce))
    | with_reducible refine AnsKeeps.next ?_
    | with_reducible apply branchTo_keeps
    | split

theorem execJal_keeps {s0 s : State} (h : Keeps s0 s) (wh : Hdr) (a : FmtA) : AnsKeeps s0 (execJal wh a s) := by
  unfold execJal
  repeat' first
    | with_reducible assumption
    | ((try lift_lets -underBinder); first | ((intro z; refine Keeps.cut (s0 := s0) (x := z) ?_ ?_) <;> [(dsimp -zeta only [z]); (intro hz; try clear_value z)]) | ((intro z; refine Keeps.cut (s0 := s0) (x := z.1) ?_ ?_) <;> [(dsimp -zeta only [z]); (intro hz; try clear_value z)]) | (intro z; have hz : z.arb = z.arb := rfl; clear hz) | (intro z; try clear_value z))
    | with_reducible apply State.setS_keeps
    | ((with_reducible refine State.issue_keeps ?_ _ _ _ _ _ (fun z hz => ?_)); (try beta_reduce))
    | with_reducible refine AnsKeeps.next ?_
    | with_reducible apply branchTo_keeps
    | split

theorem execJr_keeps {s0 s : State} (h : Keeps s0 s) (wh : Hdr) (a : FmtA) : AnsKeeps s0 (execJr wh a s) := by
  unfold execJr
  repeat' first
    | with_reducible assumption
    | ((with_reducible refine State.issue_keeps ?_ _ _ _ _ _ (fun z hz => ?_)); (try beta_reduce))
    | with_reducible refine AnsKeeps.next ?_
    | with_reducible apply branchTo_keeps
    | split

theorem execEnd_keeps {s0 s : State} (h : Keeps s0 s) (wh : Hdr) (a : FmtA) : AnsKeeps s0 (execEnd wh a s) := by
  unfold execEnd
  repeat' first
    | with_reducible assumption
    | with_reducible apply State.modItem_keeps
    | ((with_reducible refine State.issue_keeps ?_ _ _ _ _ _ (fun z hz => ?_)); (try beta_reduce))
    | with_reducible refine AnsKeeps.next ?_
    | with_reducible apply ResKeeps.done
    | split

theorem execTdSet_keeps {s0 s : State} (h : Keeps s0 s) (wh : Hdr) (a : FmtA) : AnsKeeps s0 (execTdSet wh a s) := by
  unfold execTdSet
  repeat' first
    | with_reducible assumption
    | with_reducible apply State.setT_keeps
    | ((with_reducible refine State.issue_keeps ?_ _ _ _ _ _ (fun z hz => ?_)); (try beta_reduce))
    | with_reducible refine AnsKeeps.next ?_
    | with_reducible apply ResKeeps.done
    | split

theorem execTdGet_keeps {s0 s : State} (h : Keeps s0 s) (wh : Hdr) (a : FmtA) : AnsKeeps s0 (execTdGet wh a s) := by
  unfold execTdGet
  repeat' first
    | with_reducible assumption
    | ((try lift_lets -underBinder); first | ((intro z; refine Keeps.cut (s0 := s0) (x := z) ?_ ?_) <;> [(dsimp -zeta only [z]); (intro hz; try clear_value z)]) | ((intro z; refine Keeps.cut (s0 := s0) (x := z.1) ?_ ?_) <;> [(dsimp -zeta only [z]); (intro hz; try clear_value z)]) | (intro z; have hz : z.arb = z.arb := rfl; clear hz) | (intro z; try clear_value z))
    | with_reducible apply State.setS_keeps
    | ((with_reducible refine State.issue_keeps ?_ _ _ _ _ _ (fun z hz => ?_)); (try beta_reduce))
    | with_reducible refine AnsKeeps.next ?_
    | with_reducible apply ResKeeps.done
    | split

theorem execTdAdd_keeps {s0 s : State} (h : Keeps s0 s) (wh : Hdr) (a : FmtA) : AnsKeeps s0 (execTdAdd wh a s) := by
  unfold execTdAdd
  repeat' first
    | with_reducible assumption
    | ((try lift_lets -underBinder); first | ((intro z; refine Keeps.cut (s0 := s0) (x := z) ?_ ?_) <;> [(dsimp -zeta only [z]); (intro hz; try clear_value z)]) | ((intro z; refine Keeps.cut (s0 := s0) (x := z.1) ?_ ?_) <;> [(dsimp -zeta only [z]); (intro hz; try clear_value z)]) | (intro z; have hz : z.arb = z.arb := rfl; clear hz) | (intro z; try clear_value z))
    | with_reducible apply State.setT_keeps
    | ((with_reducible refine State.issue_keeps ?_ _ _ _ _ _ (fun z hz => ?_)); (try beta_reduce))
    | with_reducible refine AnsKeeps.next ?_
    | with_reducible apply ResKeeps.done
    | split

theorem execSrd_keeps {s0 s : State} (h : Keeps s0 s) (wh : Hdr) (a : FmtA) : AnsKeeps s0 (execSrd wh a s) := by
  unfold execSrd
  repeat' first
    | with_reducible assumption
    | with_reducible apply State.setS_keeps
    | ((with_reducible refine State.issue_keeps ?_ _ _ _ _ _ (fun z hz => ?_)); (try beta_reduce))
    | with_reducible refine AnsKeeps.next ?_
    | with_reducible apply ResKeeps.done
    | split

theorem execSwr_keeps {s0 s : State} (h : Keeps s0 s) (wh : Hdr) (a : FmtA) : AnsKeeps s0 (execSwr wh a s) := by
  unfold execSwr
  repeat' first
    | with_reducible assumption
    | ((try lift_lets -underBinder); first | ((intro z; refine Keeps.cut (s0 := s0) (x := z) ?_ ?_) <;> [(dsimp -zeta only [z]); (intro hz; try clear_value z)]) | ((intro z; refine Keeps.cut (s0 := s0) (x := z.1) ?_ ?_) <;> [(dsimp -zeta only [z]); (intro hz; try clear_value z)]) | (intro z; have hz : z.arb = z.arb := rfl; clear hz) | (intro z; try clear_value z))
    | with_reducible apply State.modCore_keeps
    | ((with_reducible refine State.issue_keeps ?_ _ _ _ _ _ (fun z hz => ?_)); (try beta_reduce))
    | with_reducible refine AnsKeeps.next ?_
    | with_reducible apply ResKeeps.done
    | split

theorem State.lsAddr_keeps {s0 s : State} {d q n : Nat} {m : FmtM} {p : Perm} {f : Res} (e : s.lsAddr d q m n p = .error f)
    (_h : Keeps s0 s) : ResKeeps s0 f := by
  unfold State.lsAddr at e
  dsimp only at e
  split at e
  · cases e
    trivial
  · split at e
    · cases e
    · cases e
      trivial

theorem State.load_keeps {s0 s : State} (h : Keeps s0 s) (wh : Hdr) (m : FmtM) (n : Nat) : Keeps s0 (State.load s wh m n) := by
  unfold State.load
  repeat' first
    | with_reducible assumption
    | with_reducible apply State.bankServed_keeps
    | with_reducible apply State.setS_keeps
    | ((with_reducible refine State.issue_keeps ?_ _ _ _ _ _ (fun z hz => ?_)); (try beta_reduce))
    | with_reducible apply ResKeeps.done
    | exact State.lsAddr_keeps (by assumption) (by with_reducible assumption)
    | split

theorem State.store_keeps {s0 s : State} (h : Keeps s0 s) (wh : Hdr) (m : FmtM) (n : Nat) : Keeps s0 (State.store s wh m n) := by
  unfold State.store
  repeat' first
    | with_reducible assumption
    | with_reducible apply State.wr_keeps
    | with_reducible apply State.bankServed_keeps
    | with_reducible apply State.setBytes_keeps
    | ((with_reducible refine State.issue_keeps ?_ _ _ _ _ _ (fun z hz => ?_)); (try beta_reduce))
    | with_reducible apply ResKeeps.done
    | exact State.lsAddr_keeps (by assumption) (by with_reducible assumption)
    | split

theorem execLd8_keeps {s0 s : State} (h : Keeps s0 s) (wh : Hdr) (m : FmtM) : AnsKeeps s0 (execLd8 wh m s) := by
  unfold execLd8
  repeat' first
    | with_reducible assumption
    | with_reducible apply State.load_keeps
    | with_reducible refine AnsKeeps.next ?_
    | split

theorem execLd16_keeps {s0 s : State} (h : Keeps s0 s) (wh : Hdr) (m : FmtM) : AnsKeeps s0 (execLd16 wh m s) := by
  unfold execLd16
  repeat' first
    | with_reducible assumption
    | with_reducible apply State.load_keeps
    | with_reducible refine AnsKeeps.next ?_
    | split

theorem execLd32_keeps {s0 s : State} (h : Keeps s0 s) (wh : Hdr) (m : FmtM) : AnsKeeps s0 (execLd32 wh m s) := by
  unfold execLd32
  repeat' first
    | with_reducible assumption
    | with_reducible apply State.load_keeps
    | with_reducible refine AnsKeeps.next ?_
    | split

theorem execLd64_keeps {s0 s : State} (h : Keeps s0 s) (wh : Hdr) (m : FmtM) : AnsKeeps s0 (execLd64 wh m s) := by
  unfold execLd64
  repeat' first
    | with_reducible assumption
    | with_reducible apply State.load_keeps
    | with_reducible refine AnsKeeps.next ?_
    | split

theorem execSt8_keeps {s0 s : State} (h : Keeps s0 s) (wh : Hdr) (m : FmtM) : AnsKeeps s0 (execSt8 wh m s) := by
  unfold execSt8
  repeat' first
    | with_reducible assumption
    | with_reducible apply State.store_keeps
    | with_reducible refine AnsKeeps.next ?_
    | split

theorem execSt16_keeps {s0 s : State} (h : Keeps s0 s) (wh : Hdr) (m : FmtM) : AnsKeeps s0 (execSt16 wh m s) := by
  unfold execSt16
  repeat' first
    | with_reducible assumption
    | with_reducible apply State.store_keeps
    | with_reducible refine AnsKeeps.next ?_
    | split

theorem execSt32_keeps {s0 s : State} (h : Keeps s0 s) (wh : Hdr) (m : FmtM) : AnsKeeps s0 (execSt32 wh m s) := by
  unfold execSt32
  repeat' first
    | with_reducible assumption
    | with_reducible apply State.store_keeps
    | with_reducible refine AnsKeeps.next ?_
    | split

theorem execSt64_keeps {s0 s : State} (h : Keeps s0 s) (wh : Hdr) (m : FmtM) : AnsKeeps s0 (execSt64 wh m s) := by
  unfold execSt64
  repeat' first
    | with_reducible assumption
    | with_reducible apply State.store_keeps
    | with_reducible refine AnsKeeps.next ?_
    | split

theorem State.postArrives_keeps {s0 s : State} (h : Keeps s0 s) (d : Nat) (q : Nat) (n : Nat) (k : Nat) (sender : Nat) : Keeps s0 (State.postArrives s d q n k sender) := by
  unfold State.postArrives
  repeat' first
    | with_reducible assumption
    | ((try lift_lets -underBinder); first | ((intro z; refine Keeps.cut (s0 := s0) (x := z) ?_ ?_) <;> [(dsimp -zeta only [z]); (intro hz; try clear_value z)]) | ((intro z; refine Keeps.cut (s0 := s0) (x := z.1) ?_ ?_) <;> [(dsimp -zeta only [z]); (intro hz; try clear_value z)]) | (intro z; have hz : z.arb = z.arb := rfl; clear hz) | (intro z; try clear_value z))
    | with_reducible apply State.modCore_keeps
    | with_reducible apply State.programFault_keeps
    | split

theorem State.postOwn_keeps {s0 s : State} (h : Keeps s0 s) (d : Nat) (q : Nat) (n : Nat) (k : Nat) : Keeps s0 (State.postOwn s d q n k) := by
  unfold State.postOwn
  repeat' first
    | with_reducible assumption
    | with_reducible apply State.modCore_keeps
    | with_reducible apply State.postArrives_keeps
    | split

theorem State.nameSem_keeps {s0 s : State} (h : Keeps s0 s) (d : Nat) (q : Nat) (n : Nat) : Keeps s0 (State.nameSem s d q n) := by
  unfold State.nameSem
  repeat' first
    | with_reducible assumption
    | ((try lift_lets -underBinder); first | ((intro z; refine Keeps.cut (s0 := s0) (x := z) ?_ ?_) <;> [(dsimp -zeta only [z]); (intro hz; try clear_value z)]) | ((intro z; refine Keeps.cut (s0 := s0) (x := z.1) ?_ ?_) <;> [(dsimp -zeta only [z]); (intro hz; try clear_value z)]) | (intro z; have hz : z.arb = z.arb := rfl; clear hz) | (intro z; try clear_value z))
    | with_reducible apply State.modItem_keeps
    | split

theorem State.namePost_keeps {s0 s : State} (h : Keeps s0 s) (d : Nat) (q : Nat) (key : Nat) : Keeps s0 (State.namePost s d q key) := by
  unfold State.namePost
  repeat' first
    | with_reducible assumption
    | ((try lift_lets -underBinder); first | ((intro z; refine Keeps.cut (s0 := s0) (x := z) ?_ ?_) <;> [(dsimp -zeta only [z]); (intro hz; try clear_value z)]) | ((intro z; refine Keeps.cut (s0 := s0) (x := z.1) ?_ ?_) <;> [(dsimp -zeta only [z]); (intro hz; try clear_value z)]) | (intro z; have hz : z.arb = z.arb := rfl; clear hz) | (intro z; try clear_value z))
    | with_reducible apply State.modItem_keeps
    | split
    | with_reducible refine Keeps.lit ?_ rfl

theorem State.sendPost_keeps {s0 s : State} (h : Keeps s0 s) (d : Nat) (q : Nat) (td : Nat) (tc : Nat) (n : Nat) (k : Nat) : Keeps s0 (State.sendPost s d q td tc n k) := by
  unfold State.sendPost
  repeat' first
    | with_reducible assumption
    | ((try lift_lets -underBinder); first | ((intro z; refine Keeps.cut (s0 := s0) (x := z) ?_ ?_) <;> [(dsimp -zeta only [z]); (intro hz; try clear_value z)]) | ((intro z; refine Keeps.cut (s0 := s0) (x := z.1) ?_ ?_) <;> [(dsimp -zeta only [z]); (intro hz; try clear_value z)]) | (intro z; have hz : z.arb = z.arb := rfl; clear hz) | (intro z; try clear_value z))
    | with_reducible apply State.count_keeps
    | with_reducible apply State.modCore_keeps
    | with_reducible apply State.namePost_keeps
    | split
    | with_reducible refine Keeps.lit ?_ rfl

theorem execSemPost_keeps {s0 s : State} (h : Keeps s0 s) (wh : Hdr) (y : FmtY) : AnsKeeps s0 (execSemPost wh y s) := by
  unfold execSemPost
  repeat' first
    | with_reducible assumption
    | ((try lift_lets -underBinder); first | ((intro z; refine Keeps.cut (s0 := s0) (x := z) ?_ ?_) <;> [(dsimp -zeta only [z]); (intro hz; try clear_value z)]) | ((intro z; refine Keeps.cut (s0 := s0) (x := z.1) ?_ ?_) <;> [(dsimp -zeta only [z]); (intro hz; try clear_value z)]) | (intro z; have hz : z.arb = z.arb := rfl; clear hz) | (intro z; try clear_value z))
    | with_reducible apply State.raise_keeps
    | with_reducible apply State.postOwn_keeps
    | with_reducible apply State.nameSem_keeps
    | with_reducible apply State.sendPost_keeps
    | ((with_reducible refine State.issue_keeps ?_ _ _ _ _ _ (fun z hz => ?_)); (try beta_reduce))
    | with_reducible refine AnsKeeps.next ?_
    | with_reducible apply ResKeeps.done
    | with_reducible apply ResKeeps.fault
    | split

theorem execSemPostArrival_keeps {s0 s : State} (h : Keeps s0 s) (src : Nat) (dst : Nat) : AnsKeeps s0 (execSemPostArrival src dst s) := by
  unfold execSemPostArrival
  repeat' first
    | with_reducible assumption
    | ((try lift_lets -underBinder); first | ((intro z; refine Keeps.cut (s0 := s0) (x := z) ?_ ?_) <;> [(dsimp -zeta only [z]); (intro hz; try clear_value z)]) | ((intro z; refine Keeps.cut (s0 := s0) (x := z.1) ?_ ?_) <;> [(dsimp -zeta only [z]); (intro hz; try clear_value z)]) | (intro z; have hz : z.arb = z.arb := rfl; clear hz) | (intro z; try clear_value z))
    | with_reducible apply State.count_keeps
    | with_reducible apply State.modChan_keeps
    | with_reducible apply State.raise_keeps
    | with_reducible apply State.postArrives_keeps
    | with_reducible refine AnsKeeps.next ?_
    | split
    | with_reducible refine Keeps.lit ?_ rfl

theorem execSemRead_keeps {s0 s : State} (h : Keeps s0 s) (wh : Hdr) (y : FmtY) : AnsKeeps s0 (execSemRead wh y s) := by
  unfold execSemRead
  repeat' first
    | with_reducible assumption
    | with_reducible apply State.setS_keeps
    | with_reducible apply State.nameSem_keeps
    | ((with_reducible refine State.issue_keeps ?_ _ _ _ _ _ (fun z hz => ?_)); (try beta_reduce))
    | with_reducible refine AnsKeeps.next ?_
    | with_reducible apply ResKeeps.done
    | split

theorem execSemInit_keeps {s0 s : State} (h : Keeps s0 s) (wh : Hdr) (y : FmtY) : AnsKeeps s0 (execSemInit wh y s) := by
  unfold execSemInit
  repeat' first
    | with_reducible assumption
    | ((try lift_lets -underBinder); first | ((intro z; refine Keeps.cut (s0 := s0) (x := z) ?_ ?_) <;> [(dsimp -zeta only [z]); (intro hz; try clear_value z)]) | ((intro z; refine Keeps.cut (s0 := s0) (x := z.1) ?_ ?_) <;> [(dsimp -zeta only [z]); (intro hz; try clear_value z)]) | (intro z; have hz : z.arb = z.arb := rfl; clear hz) | (intro z; try clear_value z))
    | with_reducible apply State.setSem_keeps
    | with_reducible apply State.nameSem_keeps
    | ((with_reducible refine State.issue_keeps ?_ _ _ _ _ _ (fun z hz => ?_)); (try beta_reduce))
    | with_reducible refine AnsKeeps.next ?_
    | with_reducible apply ResKeeps.done
    | with_reducible apply ResKeeps.fault
    | split

theorem execSemPair_keeps {s0 s : State} (h : Keeps s0 s) (wh : Hdr) (y : FmtY) : AnsKeeps s0 (execSemPair wh y s) := by
  unfold execSemPair
  repeat' first
    | with_reducible assumption
    | ((try lift_lets -underBinder); first | ((intro z; refine Keeps.cut (s0 := s0) (x := z) ?_ ?_) <;> [(dsimp -zeta only [z]); (intro hz; try clear_value z)]) | ((intro z; refine Keeps.cut (s0 := s0) (x := z.1) ?_ ?_) <;> [(dsimp -zeta only [z]); (intro hz; try clear_value z)]) | (intro z; have hz : z.arb = z.arb := rfl; clear hz) | (intro z; try clear_value z))
    | with_reducible apply State.modCore_keeps
    | with_reducible apply State.nameSem_keeps
    | ((with_reducible refine State.issue_keeps ?_ _ _ _ _ _ (fun z hz => ?_)); (try beta_reduce))
    | with_reducible refine AnsKeeps.next ?_
    | with_reducible apply ResKeeps.done
    | with_reducible apply ResKeeps.fault
    | split

theorem execSemUnpair_keeps {s0 s : State} (h : Keeps s0 s) (wh : Hdr) (y : FmtY) : AnsKeeps s0 (execSemUnpair wh y s) := by
  unfold execSemUnpair
  repeat' first
    | with_reducible assumption
    | ((try lift_lets -underBinder); first | ((intro z; refine Keeps.cut (s0 := s0) (x := z) ?_ ?_) <;> [(dsimp -zeta only [z]); (intro hz; try clear_value z)]) | ((intro z; refine Keeps.cut (s0 := s0) (x := z.1) ?_ ?_) <;> [(dsimp -zeta only [z]); (intro hz; try clear_value z)]) | (intro z; have hz : z.arb = z.arb := rfl; clear hz) | (intro z; try clear_value z))
    | with_reducible apply State.modCore_keeps
    | with_reducible apply State.nameSem_keeps
    | ((with_reducible refine State.issue_keeps ?_ _ _ _ _ _ (fun z hz => ?_)); (try beta_reduce))
    | with_reducible refine AnsKeeps.next ?_
    | with_reducible apply ResKeeps.done
    | with_reducible apply ResKeeps.fault
    | split

theorem State.credit_keeps {s0 s : State} (h : Keeps s0 s) (e : WorkEntry) : Keeps s0 (State.credit s e) := by
  unfold State.credit
  repeat' first
    | with_reducible assumption
    | with_reducible apply State.modRegion_keeps
    | ((with_reducible refine Keeps.foldl _ _ ?_ (fun z w hz => ?_)); (try beta_reduce))
    | split

theorem State.takenFor_keeps {s0 s : State} (h : Keeps s0 s) (e : WorkEntry) : Keeps s0 (State.takenFor s e) := by
  unfold State.takenFor
  repeat' first
    | with_reducible assumption
    | with_reducible apply State.modRegion_keeps
    | ((with_reducible refine Keeps.foldl _ _ ?_ (fun z w hz => ?_)); (try beta_reduce))
    | split

theorem State.setRlist_keeps {s0 s : State} (h : Keeps s0 s) (d : Nat) (k : Nat) (l : List Nat) : Keeps s0 (State.setRlist s d k l) := by
  unfold State.setRlist
  repeat' first
    | with_reducible assumption
    | split
    | with_reducible refine Keeps.lit ?_ rfl

theorem State.counterPick_keeps {s0 s u : State} {d k t : Nat} (h : Keeps s0 s) (hp : s.counterPick d k = some (u, t)) : Keeps s0 u := by
  unfold State.counterPick at hp
  split at hp
  · cases hp
    exact State.setRlist_keeps h _ _ _
  · dsimp only at hp
    split at hp
    · cases hp
      exact State.wr_keeps h _ _
    · cases hp

theorem State.counterTake_keeps {s0 s : State} (h : Keeps s0 s) (d k : Nat) (e : WorkEntry) (runlen fuel : Nat) :
    Keeps s0 (s.counterTake d k e runlen fuel).1 := by
  induction fuel generalizing s with
  | zero => exact h
  | succ n ih =>
    unfold State.counterTake
    split
    · exact h
    · rename_i s' t heq
      have h1 : Keeps s0 s' := State.counterPick_keeps h heq
      dsimp only
      split
      · exact ih (State.credit_keeps (State.count_keeps (State.count_keeps (State.accum_keeps h1 _ _) _ _) _ _) _)
      · exact State.accum_keeps h1 _ _

theorem execLeaseTake_keeps {s0 s : State} (h : Keeps s0 s) (wh : Hdr) (y : FmtY) : AnsKeeps s0 (execLeaseTake wh y s) := by
  unfold execLeaseTake
  repeat' first
    | with_reducible assumption
    | ((try lift_lets -underBinder); first | ((intro z; refine Keeps.cut (s0 := s0) (x := z) ?_ ?_) <;> [(dsimp -zeta only [z]); (intro hz; try clear_value z)]) | ((intro z; refine Keeps.cut (s0 := s0) (x := z.1) ?_ ?_) <;> [(dsimp -zeta only [z]); (intro hz; try clear_value z)]) | (intro z; have hz : z.arb = z.arb := rfl; clear hz) | (intro z; try clear_value z))
    | with_reducible apply State.modCore_keeps
    | ((with_reducible refine State.issue_keeps ?_ _ _ _ _ _ (fun z hz => ?_)); (try beta_reduce))
    | with_reducible refine AnsKeeps.next ?_
    | with_reducible apply ResKeeps.done
    | with_reducible apply ResKeeps.stall
    | with_reducible apply ResKeeps.fault
    | split

theorem State.returnTile_keeps {s0 s : State} (h : Keeps s0 s) (d : Nat) (k : Nat) (t : Nat) : Keeps s0 (State.returnTile s d k t) := by
  unfold State.returnTile
  repeat' first
    | with_reducible assumption
    | with_reducible apply State.count_keeps
    | with_reducible apply State.setRlist_keeps
    | split

theorem State.granted_keeps {s0 s : State} (h : Keeps s0 s) (d : Nat) (x : Take) (t : Nat) : Keeps s0 (State.granted s d x t) := by
  unfold State.granted
  repeat' first
    | with_reducible assumption
    | with_reducible apply State.count_keeps
    | with_reducible apply State.modItem_keeps
    | with_reducible apply State.returnTile_keeps
    | split

theorem execCounterAtomic_keeps {s0 s : State} (h : Keeps s0 s) (d : Nat) (c : Nat) : AnsKeeps s0 (execCounterAtomic d c s) := by
  unfold execCounterAtomic
  repeat' first
    | with_reducible assumption
    | ((try lift_lets -underBinder); first | ((intro z; refine Keeps.cut (s0 := s0) (x := z) ?_ ?_) <;> [(dsimp -zeta only [z]); (intro hz; try clear_value z)]) | ((intro z; refine Keeps.cut (s0 := s0) (x := z.1) ?_ ?_) <;> [(dsimp -zeta only [z]); (intro hz; try clear_value z)]) | (intro z; have hz : z.arb = z.arb := rfl; clear hz) | (intro z; try clear_value z))
    | with_reducible apply State.modCore_keeps
    | with_reducible apply State.setS_keeps
    | with_reducible apply State.retire_keeps
    | with_reducible apply State.takenFor_keeps
    | with_reducible apply State.counterTake_keeps
    | with_reducible apply State.granted_keeps
    | with_reducible refine AnsKeeps.next ?_
    | split

theorem execLeaseDone_keeps {s0 s : State} (h : Keeps s0 s) (wh : Hdr) (y : FmtY) : AnsKeeps s0 (execLeaseDone wh y s) := by
  unfold execLeaseDone
  repeat' first
    | with_reducible assumption
    | with_reducible apply State.modCore_keeps
    | ((with_reducible refine State.issue_keeps ?_ _ _ _ _ _ (fun z hz => ?_)); (try beta_reduce))
    | with_reducible refine AnsKeeps.next ?_
    | with_reducible apply ResKeeps.stall
    | split

theorem execLeaseDoneAccepted_keeps {s0 s : State} (h : Keeps s0 s) (d c : Nat) : AnsKeeps s0 (execLeaseDoneAccepted d c s) := by
  unfold execLeaseDoneAccepted
  have fin : ∀ (t : State) (b : Bool) (p : BitVec 3) (pc : Word) (g : Core → Core), Keeps s0 t →
      AnsKeeps s0 (.next (((t.modCore d c g).setP d c p b).retire d c pc)) := fun t b p pc g ht =>
    State.retire_keeps (State.setP_keeps (State.modCore_keeps ht _ _ _) _ _ _ _) _ _ _
  split
  · split
    · exact h
    · dsimp only
      split
      · refine fin _ _ _ _ _ (State.credit_keeps ?_ _)
        have h1 := State.modItem_keeps h
        split
        · exact State.wr_keeps (State.count_keeps (h1 _ _) _ _) _ _
        · exact h1 _ _
      · exact fin _ _ _ _ _ h
      · refine fin _ _ _ _ _ (State.raiseFor_keeps ?_ _ _ _)
        split
        · exact State.accum_keeps h _ _
        · exact h
      · exact State.programFault_keeps (State.modCore_keeps h _ _ _) _ _ _ _ _ _
  · exact h

theorem execTickWait_keeps {s0 s : State} (h : Keeps s0 s) (wh : Hdr) (y : FmtY) : AnsKeeps s0 (execTickWait wh y s) := by
  unfold execTickWait
  repeat' first
    | with_reducible assumption
    | ((try lift_lets -underBinder); first | ((intro z; refine Keeps.cut (s0 := s0) (x := z) ?_ ?_) <;> [(dsimp -zeta only [z]); (intro hz; try clear_value z)]) | ((intro z; refine Keeps.cut (s0 := s0) (x := z.1) ?_ ?_) <;> [(dsimp -zeta only [z]); (intro hz; try clear_value z)]) | (intro z; have hz : z.arb = z.arb := rfl; clear hz) | (intro z; try clear_value z))
    | with_reducible apply State.modCore_keeps
    | with_reducible apply State.modItem_keeps
    | ((with_reducible refine State.issue_keeps ?_ _ _ _ _ _ (fun z hz => ?_)); (try beta_reduce))
    | with_reducible refine AnsKeeps.next ?_
    | with_reducible apply ResKeeps.done
    | with_reducible apply ResKeeps.stall
    | with_reducible apply ResKeeps.fault
    | split

theorem State.keepVersion_keeps {s0 u : State} (h : Keeps s0 u) (s : State) (d e : Nat) : Keeps s0 (s.keepVersion d u e) := by
  unfold State.keepVersion
  exact State.setBytes_keeps h _ _

theorem State.storeShards_keeps {s0 s : State} (h : Keeps s0 s) (d a : Nat) (bs : List Byte) : Keeps s0 (s.storeShards d a bs) := by
  unfold State.storeShards
  dsimp only
  exact Keeps.foldl _ _ (State.setBytes_keeps h _ _) fun t i ht => State.keepVersion_keeps ht _ _ _

theorem State.store0_keeps {s0 s : State} (h : Keeps s0 s) (host : Bool) (a : Nat) (bs : List Byte) : Keeps s0 (State.store0 s host a bs) := by
  unfold State.store0
  repeat' first
    | with_reducible assumption
    | with_reducible apply State.setBytes_keeps
    | with_reducible apply State.busyWrite_keeps
    | with_reducible apply State.storeShards_keeps
    | split

theorem State.toBuddy_keeps {s0 s : State} (h : Keeps s0 s) (d : Nat) (o : Nat) (bs : List Byte) : Keeps s0 (State.toBuddy s d o bs) := by
  unfold State.toBuddy
  repeat' first
    | with_reducible assumption
    | with_reducible apply State.send_keeps
    | split

theorem State.mirrorWrite_keeps {s0 s : State} (h : Keeps s0 s) (a : Nat) (bs : List Byte) : Keeps s0 (State.mirrorWrite s a bs) := by
  unfold State.mirrorWrite
  repeat' first
    | with_reducible assumption
    | ((try lift_lets -underBinder); first | ((intro z; refine Keeps.cut (s0 := s0) (x := z) ?_ ?_) <;> [(dsimp -zeta only [z]); (intro hz; try clear_value z)]) | ((intro z; refine Keeps.cut (s0 := s0) (x := z.1) ?_ ?_) <;> [(dsimp -zeta only [z]); (intro hz; try clear_value z)]) | (intro z; have hz : z.arb = z.arb := rfl; clear hz) | (intro z; try clear_value z))
    | with_reducible apply State.count_keeps
    | with_reducible apply State.toBuddy_keeps
    | split

theorem State.lateWrite_keeps {s0 s t : State} {d a : Nat} {late : Option Nat} (e : s.lateWrite d late a = some t) (h : Keeps s0 s) :
    Keeps s0 t := by
  unfold State.lateWrite at e
  split at e
  · cases e
    split
    · exact State.count_keeps h _ _
    · exact h
  · cases e

theorem State.drayStore_keeps {s0 s : State} (h : Keeps s0 s) (d : Nat) (frame : Option Nat) (late : Option Nat) (a : Nat) (bs : List Byte) : Keeps s0 (State.drayStore s d frame late a bs) := by
  unfold State.drayStore
  repeat' first
    | with_reducible assumption
    | ((try lift_lets -underBinder); first | ((intro z; refine Keeps.cut (s0 := s0) (x := z) ?_ ?_) <;> [(dsimp -zeta only [z]); (intro hz; try clear_value z)]) | ((intro z; refine Keeps.cut (s0 := s0) (x := z.1) ?_ ?_) <;> [(dsimp -zeta only [z]); (intro hz; try clear_value z)]) | (intro z; have hz : z.arb = z.arb := rfl; clear hz) | (intro z; try clear_value z))
    | with_reducible apply State.store0_keeps
    | with_reducible apply State.mirrorWrite_keeps
    | exact State.lateWrite_keeps (by assumption) (by with_reducible assumption)
    | split

theorem State.modSet_keeps {s0 s : State} (h : Keeps s0 s) (d : Nat) (k : Nat) (f : CSet → CSet) : Keeps s0 (State.modSet s d k f) := by
  unfold State.modSet
  repeat' first
    | with_reducible assumption
    | with_reducible apply State.modDie_keeps
    | split

theorem State.depotReplays_keeps {s0 s : State} (h : Keeps s0 s) (d : Nat) (a : Nat) (n : Nat) : Keeps s0 (State.depotReplays s d a n) := by
  induction n generalizing s  with
  | zero =>
    unfold State.depotReplays
    repeat' first
      | with_reducible assumption
      | with_reducible apply State.count_keeps
      | with_reducible apply State.raise_keeps
      | split
  | succ n ih =>
    unfold State.depotReplays
    try dsimp -zeta only
    repeat' first
      | with_reducible assumption
      | with_reducible apply ih
      | with_reducible apply State.count_keeps
      | with_reducible apply State.raise_keeps
      | split

theorem State.memError_keeps {s0 s : State} (h : Keeps s0 s) (d : Nat) (num : Nat) (unit : Nat) (req : Nat) (a : Nat) (origin : Option (Nat × Nat)) : Keeps s0 (State.memError s d num unit req a origin) := by
  unfold State.memError
  repeat' first
    | with_reducible assumption
    | ((try lift_lets -underBinder); first | ((intro z; refine Keeps.cut (s0 := s0) (x := z) ?_ ?_) <;> [(dsimp -zeta only [z]); (intro hz; try clear_value z)]) | ((intro z; refine Keeps.cut (s0 := s0) (x := z.1) ?_ ?_) <;> [(dsimp -zeta only [z]); (intro hz; try clear_value z)]) | (intro z; have hz : z.arb = z.arb := rfl; clear hz) | (intro z; try clear_value z))
    | with_reducible apply State.raiseFor_keeps
    | split

theorem State.depotUncorrectable_keeps {s0 s : State} (h : Keeps s0 s) (d : Nat) (req : Nat) (a : Nat) (origin : Option (Nat × Nat)) : Keeps s0 (State.depotUncorrectable s d req a origin) := by
  unfold State.depotUncorrectable
  repeat' first
    | with_reducible assumption
    | with_reducible apply State.count_keeps
    | with_reducible apply State.lampCount_keeps
    | with_reducible apply State.memError_keeps
    | split

theorem State.retireGranule_keeps {s0 s : State} (h : Keeps s0 s) (d : Nat) (g : Nat) : Keeps s0 (State.retireGranule s d g) := by
  unfold State.retireGranule
  repeat' first
    | with_reducible assumption
    | ((try lift_lets -underBinder); first | ((intro z; refine Keeps.cut (s0 := s0) (x := z) ?_ ?_) <;> [(dsimp -zeta only [z]); (intro hz; try clear_value z)]) | ((intro z; refine Keeps.cut (s0 := s0) (x := z.1) ?_ ?_) <;> [(dsimp -zeta only [z]); (intro hz; try clear_value z)]) | (intro z; have hz : z.arb = z.arb := rfl; clear hz) | (intro z; try clear_value z))
    | with_reducible apply State.lampCount_keeps
    | with_reducible apply State.fenceFound_keeps
    | with_reducible apply State.raise_keeps
    | split
    | with_reducible refine Keeps.lit ?_ rfl

theorem State.scrub_keeps {s0 s : State} (h : Keeps s0 s) (d : Nat) (g : Nat) : Keeps s0 (State.scrub s d g) := by
  unfold State.scrub
  repeat' first
    | with_reducible assumption
    | with_reducible apply State.modDie_keeps
    | with_reducible apply State.retireGranule_keeps
    | split

theorem execPeriodicTracking_keeps {s0 s : State} (h : Keeps s0 s) (d : Nat) (ch : Nat) (retrain : Bool) (fail : Bool) : AnsKeeps s0 (execPeriodicTracking d ch retrain fail s) := by
  unfold execPeriodicTracking
  repeat' first
    | with_reducible assumption
    | ((try lift_lets -underBinder); first | ((intro z; refine Keeps.cut (s0 := s0) (x := z) ?_ ?_) <;> [(dsimp -zeta only [z]); (intro hz; try clear_value z)]) | ((intro z; refine Keeps.cut (s0 := s0) (x := z.1) ?_ ?_) <;> [(dsimp -zeta only [z]); (intro hz; try clear_value z)]) | (intro z; have hz : z.arb = z.arb := rfl; clear hz) | (intro z; try clear_value z))
    | with_reducible apply State.wr_keeps
    | with_reducible apply State.count_keeps
    | with_reducible apply State.raise_keeps
    | with_reducible apply State.retrain_keeps
    | with_reducible refine AnsKeeps.next ?_
    | split

theorem execSpadBlockReady_keeps {s0 s : State} (h : Keeps s0 s) (d : Nat) (c : Nat) : AnsKeeps s0 (execSpadBlockReady d c s) := by
  unfold execSpadBlockReady
  repeat' first
    | with_reducible assumption
    | ((try lift_lets -underBinder); first | ((intro z; refine Keeps.cut (s0 := s0) (x := z) ?_ ?_) <;> [(dsimp -zeta only [z]); (intro hz; try clear_value z)]) | ((intro z; refine Keeps.cut (s0 := s0) (x := z.1) ?_ ?_) <;> [(dsimp -zeta only [z]); (intro hz; try clear_value z)]) | (intro z; have hz : z.arb = z.arb := rfl; clear hz) | (intro z; try clear_value z))
    | with_reducible apply State.wr_keeps
    | with_reducible apply State.modCore_keeps
    | with_reducible refine AnsKeeps.next ?_
    | split

theorem execDepotRepartDone_keeps {s0 s : State} (h : Keeps s0 s) (d : Nat) : AnsKeeps s0 (execDepotRepartDone d s) := by
  unfold execDepotRepartDone
  repeat' first
    | with_reducible assumption
    | with_reducible apply State.wr_keeps
    | with_reducible apply State.modDie_keeps
    | with_reducible refine AnsKeeps.next ?_
    | split

theorem State.crossed_keeps {s0 s : State} (h : Keeps s0 s) (owner : Option Nat) (d : Nat) (e : Nat) (link : Option (Nat × Nat)) : Keeps s0 (State.crossed s owner d e link) := by
  unfold State.crossed
  repeat' first
    | with_reducible assumption
    | ((try lift_lets -underBinder); first | ((intro z; refine Keeps.cut (s0 := s0) (x := z) ?_ ?_) <;> [(dsimp -zeta only [z]); (intro hz; try clear_value z)]) | ((intro z; refine Keeps.cut (s0 := s0) (x := z.1) ?_ ?_) <;> [(dsimp -zeta only [z]); (intro hz; try clear_value z)]) | (intro z; have hz : z.arb = z.arb := rfl; clear hz) | (intro z; try clear_value z))
    | with_reducible apply State.modItem_keeps
    | ((with_reducible refine Keeps.foldl _ _ ?_ (fun z w hz => ?_)); (try beta_reduce))
    | split
    | with_reducible refine Keeps.lit ?_ rfl

theorem State.drain_keeps {s0 s : State} (h : Keeps s0 s) (d : Nat) (l : Nat) (fuel : Nat) : Keeps s0 (State.drain s d l fuel) := by
  induction fuel generalizing s  with
  | zero =>
    unfold State.drain
    repeat' first
      | with_reducible assumption
      | ((try lift_lets -underBinder); first | ((intro z; refine Keeps.cut (s0 := s0) (x := z) ?_ ?_) <;> [(dsimp -zeta only [z]); (intro hz; try clear_value z)]) | ((intro z; refine Keeps.cut (s0 := s0) (x := z.1) ?_ ?_) <;> [(dsimp -zeta only [z]); (intro hz; try clear_value z)]) | (intro z; have hz : z.arb = z.arb := rfl; clear hz) | (intro z; try clear_value z))
      | with_reducible apply State.modLink_keeps
      | with_reducible apply State.send_keeps
      | split
  | succ n ih =>
    unfold State.drain
    try dsimp -zeta only
    repeat' first
      | with_reducible assumption
      | ((try lift_lets -underBinder); first | ((intro z; refine Keeps.cut (s0 := s0) (x := z) ?_ ?_) <;> [(dsimp -zeta only [z]); (intro hz; try clear_value z)]) | ((intro z; refine Keeps.cut (s0 := s0) (x := z.1) ?_ ?_) <;> [(dsimp -zeta only [z]); (intro hz; try clear_value z)]) | (intro z; have hz : z.arb = z.arb := rfl; clear hz) | (intro z; try clear_value z))
      | with_reducible apply ih
      | with_reducible apply State.modLink_keeps
      | with_reducible apply State.send_keeps
      | split

theorem State.sendSequenced_keeps {s0 s : State} (h : Keeps s0 s) (d : Nat) (l : Nat) (kind : BitVec 4) (payload : List Byte) : Keeps s0 (State.sendSequenced s d l kind payload) := by
  unfold State.sendSequenced
  repeat' first
    | with_reducible assumption
    | ((try lift_lets -underBinder); first | ((intro z; refine Keeps.cut (s0 := s0) (x := z) ?_ ?_) <;> [(dsimp -zeta only [z]); (intro hz; try clear_value z)]) | ((intro z; refine Keeps.cut (s0 := s0) (x := z.1) ?_ ?_) <;> [(dsimp -zeta only [z]); (intro hz; try clear_value z)]) | (intro z; have hz : z.arb = z.arb := rfl; clear hz) | (intro z; try clear_value z))
    | with_reducible apply State.modLink_keeps
    | with_reducible apply State.drain_keeps
    | split

theorem State.sendPlain_keeps {s0 s : State} (h : Keeps s0 s) (d : Nat) (l : Nat) (kind : BitVec 4) (payload : List Byte) : Keeps s0 (State.sendPlain s d l kind payload) := by
  unfold State.sendPlain
  repeat' first
    | with_reducible assumption
    | with_reducible apply State.send_keeps
    | split

theorem State.putPacket_keeps {s0 s : State} (h : Keeps s0 s) (d : Nat) (l : Nat) (type : Nat) (p : Packet) (data : List Byte) : Keeps s0 (State.putPacket s d l type p data) := by
  unfold State.putPacket
  repeat' first
    | with_reducible assumption
    | with_reducible apply State.sendSequenced_keeps
    | ((with_reducible refine Keeps.foldl _ _ ?_ (fun z w hz => ?_)); (try beta_reduce))
    | split

theorem State.request_keeps {s0 s : State} (h : Keeps s0 s) (r : Req) : Keeps s0 (State.request s r).1 := by
  unfold State.request
  repeat' first
    | with_reducible assumption
    | with_reducible apply State.modLink_keeps
    | with_reducible apply State.raise_keeps
    | with_reducible apply State.putPacket_keeps
    | split

theorem State.releaseHeld_keeps {s0 s : State} (h : Keeps s0 s) (d : Nat) (l : Nat) : Keeps s0 (State.releaseHeld s d l) := by
  unfold State.releaseHeld
  repeat' first
    | with_reducible assumption
    | ((try lift_lets -underBinder); first | ((intro z; refine Keeps.cut (s0 := s0) (x := z) ?_ ?_) <;> [(dsimp -zeta only [z]); (intro hz; try clear_value z)]) | ((intro z; refine Keeps.cut (s0 := s0) (x := z.1) ?_ ?_) <;> [(dsimp -zeta only [z]); (intro hz; try clear_value z)]) | (intro z; have hz : z.arb = z.arb := rfl; clear hz) | (intro z; try clear_value z))
    | with_reducible apply State.modLink_keeps
    | with_reducible apply State.putPacket_keeps
    | ((with_reducible refine Keeps.foldl _ _ ?_ (fun z w hz => ?_)); (try beta_reduce))
    | split

theorem State.answered_keeps {s0 s : State} (h : Keeps s0 s) (d : Nat) (req : Nat) (type : Nat) : Keeps s0 (State.answered s d req type) := by
  unfold State.answered
  repeat' first
    | with_reducible assumption
    | with_reducible apply State.modLink_keeps
    | split

theorem State.requestFails_keeps {s0 s : State} (h : Keeps s0 s) (d : Nat) (l : Nat) (p : Packet) : Keeps s0 (State.requestFails s d l p) := by
  unfold State.requestFails
  repeat' first
    | with_reducible assumption
    | with_reducible apply State.send_keeps
    | with_reducible apply State.unmapped_keeps
    | split

theorem State.sendOn_keeps {s0 s : State} (h : Keeps s0 s) (d : Nat) (l : Nat) (type : Nat) (p : Packet) (data : List Byte) : Keeps s0 (State.sendOn s d l type p data) := by
  unfold State.sendOn
  repeat' first
    | with_reducible assumption
    | with_reducible apply State.modLink_keeps
    | with_reducible apply State.send_keeps
    | with_reducible apply State.raise_keeps
    | with_reducible apply State.putPacket_keeps
    | with_reducible apply State.requestFails_keeps
    | split

theorem State.passBack_keeps {s0 s : State} (h : Keeps s0 s) (d : Nat) (l : Nat) (type : Nat) (p : Packet) (data : List Byte) : Keeps s0 (State.passBack s d l type p data) := by
  unfold State.passBack
  repeat' first
    | with_reducible assumption
    | ((try lift_lets -underBinder); first | ((intro z; refine Keeps.cut (s0 := s0) (x := z) ?_ ?_) <;> [(dsimp -zeta only [z]); (intro hz; try clear_value z)]) | ((intro z; refine Keeps.cut (s0 := s0) (x := z.1) ?_ ?_) <;> [(dsimp -zeta only [z]); (intro hz; try clear_value z)]) | (intro z; have hz : z.arb = z.arb := rfl; clear hz) | (intro z; try clear_value z))
    | with_reducible apply State.modLink_keeps
    | with_reducible apply State.sendOn_keeps
    | split

theorem State.access_keeps {s0 s : State} (h : Keeps s0 s) (src : Src) (a : Nat) (c : Instr) (act : State → State)
    (hact : ∀ t, Keeps s0 t → Keeps s0 (act t)) : Keeps s0 (s.access src a c act) := by
  unfold State.access
  repeat' first
    | with_reducible assumption
    | with_reducible apply hact
    | with_reducible apply State.unmapped_keeps
    | split
    | with_reducible refine Keeps.lit ?_ rfl

theorem State.respond_keeps {s0 s : State} (h : Keeps s0 s) (src : Src) (a : Nat) (data : List Byte) : Keeps s0 (State.respond s src a data) := by
  unfold State.respond
  repeat' first
    | with_reducible assumption
    | with_reducible apply State.putPacket_keeps
    | split

theorem State.accessWrite_keeps {s0 s : State} (h : Keeps s0 s) (src : Src) (a : Nat) (c : Instr) (act : State → State)
    (hact : ∀ t, Keeps s0 t → Keeps s0 (act t)) : Keeps s0 (s.accessWrite src a c act) := by
  unfold State.accessWrite
  exact State.access_keeps h _ _ _ _ fun t ht => State.respond_keeps (hact t ht) _ _ _

theorem State.registerOn_keeps {s0 s : State} (h : Keeps s0 s) (src : Src) (type : Nat) (p : Packet) (data : List Byte) : Keeps s0 (State.registerOn s src type p data) := by
  unfold State.registerOn
  repeat' first
    | with_reducible assumption
    | with_reducible apply State.sendOn_keeps
    | split

theorem execTimetableValidated_keeps {s0 s : State} (h : Keeps s0 s) (d : Nat) : AnsKeeps s0 (execTimetableValidated d s) := by
  unfold execTimetableValidated
  repeat' first
    | with_reducible assumption
    | ((try lift_lets -underBinder); first | ((intro z; refine Keeps.cut (s0 := s0) (x := z) ?_ ?_) <;> [(dsimp -zeta only [z]); (intro hz; try clear_value z)]) | ((intro z; refine Keeps.cut (s0 := s0) (x := z.1) ?_ ?_) <;> [(dsimp -zeta only [z]); (intro hz; try clear_value z)]) | (intro z; have hz : z.arb = z.arb := rfl; clear hz) | (intro z; try clear_value z))
    | with_reducible apply State.wr_keeps
    | with_reducible apply State.modDie_keeps
    | with_reducible apply State.raise_keeps
    | with_reducible refine AnsKeeps.next ?_
    | split

theorem State.modRun_keeps {s0 s : State} (h : Keeps s0 s) (d : Nat) (n : Nat) (i : Nat) (f : DRun → DRun) : Keeps s0 (State.modRun s d n i f) := by
  unfold State.modRun
  repeat' first
    | with_reducible assumption
    | with_reducible apply State.modChan_keeps
    | split

theorem State.takeData_keeps {s0 s : State} (h : Keeps s0 s) (d : Nat) (n : Nat) (i : Nat) (bs : List Byte) : Keeps s0 (State.takeData s d n i bs) := by
  unfold State.takeData
  repeat' first
    | with_reducible assumption
    | ((try lift_lets -underBinder); first | ((intro z; refine Keeps.cut (s0 := s0) (x := z) ?_ ?_) <;> [(dsimp -zeta only [z]); (intro hz; try clear_value z)]) | ((intro z; refine Keeps.cut (s0 := s0) (x := z.1) ?_ ?_) <;> [(dsimp -zeta only [z]); (intro hz; try clear_value z)]) | (intro z; have hz : z.arb = z.arb := rfl; clear hz) | (intro z; try clear_value z))
    | with_reducible apply State.modRun_keeps
    | split

theorem State.landOne_keeps {s0 s : State} (h : Keeps s0 s) (d : Nat) (n : Nat) (i : Nat) (r : DRun) : Keeps s0 (State.landOne s d n i r) := by
  unfold State.landOne
  repeat' first
    | with_reducible assumption
    | ((try lift_lets -underBinder); first | ((intro z; refine Keeps.cut (s0 := s0) (x := z) ?_ ?_) <;> [(dsimp -zeta only [z]); (intro hz; try clear_value z)]) | ((intro z; refine Keeps.cut (s0 := s0) (x := z.1) ?_ ?_) <;> [(dsimp -zeta only [z]); (intro hz; try clear_value z)]) | (intro z; have hz : z.arb = z.arb := rfl; clear hz) | (intro z; try clear_value z))
    | with_reducible apply State.bankServed_keeps
    | with_reducible apply State.takeData_keeps
    | split

theorem State.landReads_keeps {s0 s : State} (h : Keeps s0 s) (d : Nat) (n : Nat) (i : Nat) (fuel : Nat) : Keeps s0 (State.landReads s d n i fuel) := by
  induction fuel generalizing s  with
  | zero =>
    unfold State.landReads
    repeat' first
      | with_reducible assumption
      | with_reducible apply State.landOne_keeps
      | split
  | succ n ih =>
    unfold State.landReads
    try dsimp -zeta only
    repeat' first
      | with_reducible assumption
      | with_reducible apply ih
      | with_reducible apply State.landOne_keeps
      | split

theorem State.haltChan_keeps {s0 s : State} (h : Keeps s0 s) (d : Nat) (n : Nat) (i : Nat) (kind : Nat) (a : Nat) (flying : Bool) : Keeps s0 (State.haltChan s d n i kind a flying) := by
  unfold State.haltChan
  repeat' first
    | with_reducible assumption
    | ((try lift_lets -underBinder); first | ((intro z; refine Keeps.cut (s0 := s0) (x := z) ?_ ?_) <;> [(dsimp -zeta only [z]); (intro hz; try clear_value z)]) | ((intro z; refine Keeps.cut (s0 := s0) (x := z.1) ?_ ?_) <;> [(dsimp -zeta only [z]); (intro hz; try clear_value z)]) | (intro z; have hz : z.arb = z.arb := rfl; clear hz) | (intro z; try clear_value z))
    | with_reducible apply State.wr_keeps
    | with_reducible apply State.modChan_keeps
    | with_reducible apply State.raiseFor_keeps
    | with_reducible apply State.modRun_keeps
    | with_reducible apply State.landReads_keeps
    | ((with_reducible refine Keeps.foldl _ _ ?_ (fun z w hz => ?_)); (try beta_reduce))
    | split

theorem State.busError_keeps {s0 s : State} (h : Keeps s0 s) (d : Nat) (n : Nat) (i : Nat) (kind : Nat) (a : Nat) (flying : Bool) : Keeps s0 (State.busError s d n i kind a flying) := by
  unfold State.busError
  repeat' first
    | with_reducible assumption
    | ((try lift_lets -underBinder); first | ((intro z; refine Keeps.cut (s0 := s0) (x := z) ?_ ?_) <;> [(dsimp -zeta only [z]); (intro hz; try clear_value z)]) | ((intro z; refine Keeps.cut (s0 := s0) (x := z.1) ?_ ?_) <;> [(dsimp -zeta only [z]); (intro hz; try clear_value z)]) | (intro z; have hz : z.arb = z.arb := rfl; clear hz) | (intro z; try clear_value z))
    | with_reducible apply State.modChan_keeps
    | with_reducible apply State.raise_keeps
    | with_reducible apply State.haltChan_keeps
    | split

theorem State.tryDead_keeps {s0 s : State} (h : Keeps s0 s) (d : Nat) (n : Nat) (i : Nat) (kind : Nat) (a : Nat) (hole : Bool) (flying : Bool) : Keeps s0 (State.tryDead s d n i kind a hole flying) := by
  unfold State.tryDead
  repeat' first
    | with_reducible assumption
    | ((try lift_lets -underBinder); first | ((intro z; refine Keeps.cut (s0 := s0) (x := z) ?_ ?_) <;> [(dsimp -zeta only [z]); (intro hz; try clear_value z)]) | ((intro z; refine Keeps.cut (s0 := s0) (x := z.1) ?_ ?_) <;> [(dsimp -zeta only [z]); (intro hz; try clear_value z)]) | (intro z; have hz : z.arb = z.arb := rfl; clear hz) | (intro z; try clear_value z))
    | with_reducible apply State.unmapped_keeps
    | with_reducible apply State.busError_keeps
    | split

theorem State.deadAccess_keeps {s0 s : State} (h : Keeps s0 s) (d : Nat) (n : Nat) (i : Nat) (kind : Nat) (a : Nat) (hole : Bool) (flying : Bool) : Keeps s0 (State.deadAccess s d n i kind a hole flying) := by
  unfold State.deadAccess
  repeat' first
    | with_reducible assumption
    | ((try lift_lets -underBinder); first | ((intro z; refine Keeps.cut (s0 := s0) (x := z) ?_ ?_) <;> [(dsimp -zeta only [z]); (intro hz; try clear_value z)]) | ((intro z; refine Keeps.cut (s0 := s0) (x := z.1) ?_ ?_) <;> [(dsimp -zeta only [z]); (intro hz; try clear_value z)]) | (intro z; have hz : z.arb = z.arb := rfl; clear hz) | (intro z; try clear_value z))
    | with_reducible apply State.modChan_keeps
    | with_reducible apply State.tryDead_keeps
    | split

theorem State.auxServed_keeps {s0 s : State} (h : Keeps s0 s) (r : DRun) (m : AuxList) : Keeps s0 (State.auxServed s r m) := by
  unfold State.auxServed
  repeat' first
    | with_reducible assumption
    | ((try lift_lets -underBinder); first | ((intro z; refine Keeps.cut (s0 := s0) (x := z) ?_ ?_) <;> [(dsimp -zeta only [z]); (intro hz; try clear_value z)]) | ((intro z; refine Keeps.cut (s0 := s0) (x := z.1) ?_ ?_) <;> [(dsimp -zeta only [z]); (intro hz; try clear_value z)]) | (intro z; have hz : z.arb = z.arb := rfl; clear hz) | (intro z; try clear_value z))
    | with_reducible apply State.bankServed_keeps
    | ((with_reducible refine Keeps.foldl _ _ ?_ (fun z w hz => ?_)); (try beta_reduce))
    | split

theorem State.fetchAux_keeps {s0 s : State} (h : Keeps s0 s) (d : Nat) (n : Nat) (i : Nat) : Keeps s0 (State.fetchAux s d n i) := by
  unfold State.fetchAux
  repeat' first
    | with_reducible assumption
    | with_reducible apply State.modRun_keeps
    | with_reducible apply State.deadAccess_keeps
    | with_reducible apply State.auxServed_keeps
    | split

theorem State.issueReads_keeps {s0 s : State} (h : Keeps s0 s) (d : Nat) (n : Nat) (i : Nat) (fuel : Nat) : Keeps s0 (State.issueReads s d n i fuel) := by
  induction fuel generalizing s  with
  | zero =>
    unfold State.issueReads
    repeat' first
      | with_reducible assumption
      | ((try lift_lets -underBinder); first | ((intro z; refine Keeps.cut (s0 := s0) (x := z) ?_ ?_) <;> [(dsimp -zeta only [z]); (intro hz; try clear_value z)]) | ((intro z; refine Keeps.cut (s0 := s0) (x := z.1) ?_ ?_) <;> [(dsimp -zeta only [z]); (intro hz; try clear_value z)]) | (intro z; have hz : z.arb = z.arb := rfl; clear hz) | (intro z; try clear_value z))
      | with_reducible apply State.crossed_keeps
      | with_reducible apply State.request_keeps
      | with_reducible apply State.modRun_keeps
      | with_reducible apply State.deadAccess_keeps
      | split
  | succ n ih =>
    unfold State.issueReads
    try dsimp -zeta only
    repeat' first
      | with_reducible assumption
      | ((try lift_lets -underBinder); first | ((intro z; refine Keeps.cut (s0 := s0) (x := z) ?_ ?_) <;> [(dsimp -zeta only [z]); (intro hz; try clear_value z)]) | ((intro z; refine Keeps.cut (s0 := s0) (x := z.1) ?_ ?_) <;> [(dsimp -zeta only [z]); (intro hz; try clear_value z)]) | (intro z; have hz : z.arb = z.arb := rfl; clear hz) | (intro z; try clear_value z))
      | with_reducible apply ih
      | with_reducible apply State.crossed_keeps
      | with_reducible apply State.request_keeps
      | with_reducible apply State.modRun_keeps
      | with_reducible apply State.deadAccess_keeps
      | split

theorem State.readOn_keeps {s0 s : State} (h : Keeps s0 s) (d : Nat) (n : Nat) (i : Nat) : Keeps s0 (State.readOn s d n i) := by
  unfold State.readOn
  repeat' first
    | with_reducible assumption
    | with_reducible apply State.fetchAux_keeps
    | with_reducible apply State.issueReads_keeps
    | split

theorem State.advance_keeps {s0 s : State} (h : Keeps s0 s) (d : Nat) (n : Nat) (i : Nat) (fuel : Nat) : Keeps s0 (State.advance s d n i fuel) := by
  induction fuel generalizing s  with
  | zero =>
    unfold State.advance
    repeat' first
      | with_reducible assumption
      | ((try lift_lets -underBinder); first | ((intro z; refine Keeps.cut (s0 := s0) (x := z) ?_ ?_) <;> [(dsimp -zeta only [z]); (intro hz; try clear_value z)]) | ((intro z; refine Keeps.cut (s0 := s0) (x := z.1) ?_ ?_) <;> [(dsimp -zeta only [z]); (intro hz; try clear_value z)]) | (intro z; have hz : z.arb = z.arb := rfl; clear hz) | (intro z; try clear_value z))
      | with_reducible apply State.modRun_keeps
      | with_reducible apply State.landOne_keeps
      | with_reducible apply State.readOn_keeps
      | split
  | succ n ih =>
    unfold State.advance
    try dsimp -zeta only
    repeat' first
      | with_reducible assumption
      | ((try lift_lets -underBinder); first | ((intro z; refine Keeps.cut (s0 := s0) (x := z) ?_ ?_) <;> [(dsimp -zeta only [z]); (intro hz; try clear_value z)]) | ((intro z; refine Keeps.cut (s0 := s0) (x := z.1) ?_ ?_) <;> [(dsimp -zeta only [z]); (intro hz; try clear_value z)]) | (intro z; have hz : z.arb = z.arb := rfl; clear hz) | (intro z; try clear_value z))
      | with_reducible apply ih
      | with_reducible apply State.modRun_keeps
      | with_reducible apply State.landOne_keeps
      | with_reducible apply State.readOn_keeps
      | split

theorem State.forgetRange_keeps {s0 s : State} (h : Keeps s0 s) (r : DRun) (a : Nat) (n : Nat) : Keeps s0 (State.forgetRange s r a n) := by
  unfold State.forgetRange
  repeat' first
    | with_reducible assumption
    | ((try lift_lets -underBinder); first | ((intro z; refine Keeps.cut (s0 := s0) (x := z) ?_ ?_) <;> [(dsimp -zeta only [z]); (intro hz; try clear_value z)]) | ((intro z; refine Keeps.cut (s0 := s0) (x := z.1) ?_ ?_) <;> [(dsimp -zeta only [z]); (intro hz; try clear_value z)]) | (intro z; have hz : z.arb = z.arb := rfl; clear hz) | (intro z; try clear_value z))
    | with_reducible apply State.forgetAt_keeps
    | split

theorem State.forgetDst_keeps {s0 s : State} (h : Keeps s0 s) (r : DRun) : Keeps s0 (State.forgetDst s r) := by
  unfold State.forgetDst
  repeat' first
    | with_reducible assumption
    | with_reducible apply State.forgetRange_keeps
    | ((with_reducible refine Keeps.foldl _ _ ?_ (fun z w hz => ?_)); (try beta_reduce))
    | split

theorem State.forgetOverlap_keeps {s0 s : State} (h : Keeps s0 s) (r : DRun) : Keeps s0 (State.forgetOverlap s r) := by
  unfold State.forgetOverlap
  repeat' first
    | with_reducible assumption
    | ((try lift_lets -underBinder); first | ((intro z; refine Keeps.cut (s0 := s0) (x := z) ?_ ?_) <;> [(dsimp -zeta only [z]); (intro hz; try clear_value z)]) | ((intro z; refine Keeps.cut (s0 := s0) (x := z.1) ?_ ?_) <;> [(dsimp -zeta only [z]); (intro hz; try clear_value z)]) | (intro z; have hz : z.arb = z.arb := rfl; clear hz) | (intro z; try clear_value z))
    | with_reducible apply State.forgetAt_keeps
    | ((with_reducible refine Keeps.foldl _ _ ?_ (fun z w hz => ?_)); (try beta_reduce))
    | split

theorem State.deadline_keeps {s0 s : State} (h : Keeps s0 s) (d : Nat) (n : Nat) (r : DRun) : Keeps s0 (State.deadline s d n r) := by
  unfold State.deadline
  repeat' first
    | with_reducible assumption
    | ((try lift_lets -underBinder); first | ((intro z; refine Keeps.cut (s0 := s0) (x := z) ?_ ?_) <;> [(dsimp -zeta only [z]); (intro hz; try clear_value z)]) | ((intro z; refine Keeps.cut (s0 := s0) (x := z.1) ?_ ?_) <;> [(dsimp -zeta only [z]); (intro hz; try clear_value z)]) | (intro z; have hz : z.arb = z.arb := rfl; clear hz) | (intro z; try clear_value z))
    | with_reducible apply State.count_keeps
    | with_reducible apply State.modChan_keeps
    | with_reducible apply State.raise_keeps
    | split

theorem State.creditPost_keeps {s0 s : State} (h : Keeps s0 s) (d : Nat) (n : Nat) (sem : Nat) : Keeps s0 (State.creditPost s d n sem) := by
  unfold State.creditPost
  repeat' first
    | with_reducible assumption
    | ((try lift_lets -underBinder); first | ((intro z; refine Keeps.cut (s0 := s0) (x := z) ?_ ?_) <;> [(dsimp -zeta only [z]); (intro hz; try clear_value z)]) | ((intro z; refine Keeps.cut (s0 := s0) (x := z.1) ?_ ?_) <;> [(dsimp -zeta only [z]); (intro hz; try clear_value z)]) | (intro z; have hz : z.arb = z.arb := rfl; clear hz) | (intro z; try clear_value z))
    | with_reducible apply State.count_keeps
    | with_reducible apply State.modCore_keeps
    | with_reducible apply State.modChan_keeps
    | with_reducible apply State.postArrives_keeps
    | split
    | with_reducible refine Keeps.lit ?_ rfl

theorem State.postList_keeps {s0 s : State} (h : Keeps s0 s) (d : Nat) (q : Nat) (post : Word) : Keeps s0 (State.postList s d q post) := by
  unfold State.postList
  repeat' first
    | with_reducible assumption
    | with_reducible apply State.postOwn_keeps
    | ((with_reducible refine Keeps.foldl _ _ ?_ (fun z w hz => ?_)); (try beta_reduce))
    | split

theorem State.putRecord_keeps {s0 s : State} (h : Keeps s0 s) (d : Nat) (n : Nat) (r : DRun) (st : Nat) (code : Nat) : Keeps s0 (State.putRecord s d n r st code) := by
  unfold State.putRecord
  repeat' first
    | with_reducible assumption
    | ((try lift_lets -underBinder); first | ((intro z; refine Keeps.cut (s0 := s0) (x := z) ?_ ?_) <;> [(dsimp -zeta only [z]); (intro hz; try clear_value z)]) | ((intro z; refine Keeps.cut (s0 := s0) (x := z.1) ?_ ?_) <;> [(dsimp -zeta only [z]); (intro hz; try clear_value z)]) | (intro z; have hz : z.arb = z.arb := rfl; clear hz) | (intro z; try clear_value z))
    | with_reducible apply State.wr_keeps
    | with_reducible apply State.accum_keeps
    | with_reducible apply State.modChan_keeps
    | with_reducible apply State.modDie_keeps
    | with_reducible apply State.setBytes_keeps
    | with_reducible apply State.unmapped_keeps
    | with_reducible apply State.credit_keeps
    | with_reducible apply State.forgetDst_keeps
    | with_reducible apply State.forgetOverlap_keeps
    | with_reducible apply State.deadline_keeps
    | with_reducible apply State.creditPost_keeps
    | with_reducible apply State.postList_keeps
    | split

theorem State.flush_keeps {s0 s : State} (h : Keeps s0 s) (d : Nat) (n : Nat) (fuel : Nat) : Keeps s0 (State.flush s d n fuel) := by
  induction fuel generalizing s  with
  | zero =>
    unfold State.flush
    repeat' first
      | with_reducible assumption
      | with_reducible apply State.modDie_keeps
      | with_reducible apply State.raise_keeps
      | with_reducible apply State.putRecord_keeps
      | split
  | succ n ih =>
    unfold State.flush
    try dsimp -zeta only
    repeat' first
      | with_reducible assumption
      | with_reducible apply ih
      | with_reducible apply State.modDie_keeps
      | with_reducible apply State.raise_keeps
      | with_reducible apply State.putRecord_keeps
      | split

theorem State.flushAll_keeps {s0 s : State} (h : Keeps s0 s) (d : Nat) (n : Nat) : Keeps s0 (State.flushAll s d n) := by
  unfold State.flushAll
  repeat' first
    | with_reducible assumption
    | with_reducible apply State.flush_keeps
    | split

theorem State.freeStage_keeps {s0 s : State} (h : Keeps s0 s) (d : Nat) (n : Nat) (i : Nat) : Keeps s0 (State.freeStage s d n i) := by
  unfold State.freeStage
  repeat' first
    | with_reducible assumption
    | with_reducible apply State.modDie_keeps
    | with_reducible apply State.modRun_keeps
    | split

theorem State.tryReadBack_keeps {s0 s : State} (h : Keeps s0 s) (d : Nat) (n : Nat) (i : Nat) : Keeps s0 (State.tryReadBack s d n i) := by
  unfold State.tryReadBack
  repeat' first
    | with_reducible assumption
    | ((try lift_lets -underBinder); first | ((intro z; refine Keeps.cut (s0 := s0) (x := z) ?_ ?_) <;> [(dsimp -zeta only [z]); (intro hz; try clear_value z)]) | ((intro z; refine Keeps.cut (s0 := s0) (x := z.1) ?_ ?_) <;> [(dsimp -zeta only [z]); (intro hz; try clear_value z)]) | (intro z; have hz : z.arb = z.arb := rfl; clear hz) | (intro z; try clear_value z))
    | with_reducible apply State.wr_keeps
    | with_reducible apply State.request_keeps
    | with_reducible apply State.modRun_keeps
    | with_reducible apply State.flushAll_keeps
    | split

theorem State.issueWrites_keeps {s0 s : State} (h : Keeps s0 s) (d : Nat) (n : Nat) (i : Nat) (fuel : Nat) : Keeps s0 (State.issueWrites s d n i fuel) := by
  induction fuel generalizing s  with
  | zero =>
    unfold State.issueWrites
    repeat' first
      | with_reducible assumption
      | ((try lift_lets -underBinder); first | ((intro z; refine Keeps.cut (s0 := s0) (x := z) ?_ ?_) <;> [(dsimp -zeta only [z]); (intro hz; try clear_value z)]) | ((intro z; refine Keeps.cut (s0 := s0) (x := z.1) ?_ ?_) <;> [(dsimp -zeta only [z]); (intro hz; try clear_value z)]) | (intro z; have hz : z.arb = z.arb := rfl; clear hz) | (intro z; try clear_value z))
      | with_reducible apply State.crossed_keeps
      | with_reducible apply State.request_keeps
      | with_reducible apply State.modRun_keeps
      | with_reducible apply State.deadAccess_keeps
      | with_reducible apply State.advance_keeps
      | split
  | succ n ih =>
    unfold State.issueWrites
    try dsimp -zeta only
    repeat' first
      | with_reducible assumption
      | ((try lift_lets -underBinder); first | ((intro z; refine Keeps.cut (s0 := s0) (x := z) ?_ ?_) <;> [(dsimp -zeta only [z]); (intro hz; try clear_value z)]) | ((intro z; refine Keeps.cut (s0 := s0) (x := z.1) ?_ ?_) <;> [(dsimp -zeta only [z]); (intro hz; try clear_value z)]) | (intro z; have hz : z.arb = z.arb := rfl; clear hz) | (intro z; try clear_value z))
      | with_reducible apply ih
      | with_reducible apply State.crossed_keeps
      | with_reducible apply State.request_keeps
      | with_reducible apply State.modRun_keeps
      | with_reducible apply State.deadAccess_keeps
      | with_reducible apply State.advance_keeps
      | split

theorem State.pump_keeps {s0 s : State} (h : Keeps s0 s) (d : Nat) (n : Nat) (i : Nat) : Keeps s0 (State.pump s d n i) := by
  unfold State.pump
  repeat' first
    | with_reducible assumption
    | ((try lift_lets -underBinder); first | ((intro z; refine Keeps.cut (s0 := s0) (x := z) ?_ ?_) <;> [(dsimp -zeta only [z]); (intro hz; try clear_value z)]) | ((intro z; refine Keeps.cut (s0 := s0) (x := z.1) ?_ ?_) <;> [(dsimp -zeta only [z]); (intro hz; try clear_value z)]) | (intro z; have hz : z.arb = z.arb := rfl; clear hz) | (intro z; try clear_value z))
    | with_reducible apply State.readOn_keeps
    | with_reducible apply State.advance_keeps
    | with_reducible apply State.tryReadBack_keeps
    | with_reducible apply State.issueWrites_keeps
    | split

theorem State.settlePause_keeps {s0 s : State} (h : Keeps s0 s) (d : Nat) (n : Nat) : Keeps s0 (State.settlePause s d n) := by
  unfold State.settlePause
  repeat' first
    | with_reducible assumption
    | ((try lift_lets -underBinder); first | ((intro z; refine Keeps.cut (s0 := s0) (x := z) ?_ ?_) <;> [(dsimp -zeta only [z]); (intro hz; try clear_value z)]) | ((intro z; refine Keeps.cut (s0 := s0) (x := z.1) ?_ ?_) <;> [(dsimp -zeta only [z]); (intro hz; try clear_value z)]) | (intro z; have hz : z.arb = z.arb := rfl; clear hz) | (intro z; try clear_value z))
    | with_reducible apply State.modChan_keeps
    | with_reducible apply State.advance_keeps
    | ((with_reducible refine Keeps.foldl _ _ ?_ (fun z w hz => ?_)); (try beta_reduce))
    | split

theorem State.pumpAll_keeps {s0 s : State} (h : Keeps s0 s) (d : Nat) (n : Nat) : Keeps s0 (State.pumpAll s d n) := by
  unfold State.pumpAll
  repeat' first
    | with_reducible assumption
    | with_reducible apply State.pump_keeps
    | with_reducible apply State.settlePause_keeps
    | ((with_reducible refine Keeps.foldl _ _ ?_ (fun z w hz => ?_)); (try beta_reduce))
    | split

theorem State.accept_keeps {s0 s : State} (h : Keeps s0 s) (d : Nat) (n : Nat) (q : Nat) (item : Option Nat) (raw : List Word) (post : Word) (late : Option Nat) : Keeps s0 (State.accept s d n q item raw post late) := by
  unfold State.accept
  repeat' first
    | with_reducible assumption
    | ((try lift_lets -underBinder); first | ((intro z; refine Keeps.cut (s0 := s0) (x := z) ?_ ?_) <;> [(dsimp -zeta only [z]); (intro hz; try clear_value z)]) | ((intro z; refine Keeps.cut (s0 := s0) (x := z.1) ?_ ?_) <;> [(dsimp -zeta only [z]); (intro hz; try clear_value z)]) | (intro z; have hz : z.arb = z.arb := rfl; clear hz) | (intro z; try clear_value z))
    | with_reducible apply State.accum_keeps
    | with_reducible apply State.modChan_keeps
    | split

theorem State.takeStage_keeps {s0 s : State} (h : Keeps s0 s) (d : Nat) (n : Nat) (i : Nat) : Keeps s0 (State.takeStage s d n i) := by
  unfold State.takeStage
  repeat' first
    | with_reducible assumption
    | with_reducible apply State.modDie_keeps
    | with_reducible apply State.modRun_keeps
    | with_reducible apply State.pump_keeps
    | split

theorem State.startRun_keeps {s0 s : State} (h : Keeps s0 s) (d : Nat) (n : Nat) (i : Nat) : Keeps s0 (State.startRun s d n i) := by
  unfold State.startRun
  repeat' first
    | with_reducible assumption
    | with_reducible apply State.modChan_keeps
    | with_reducible apply State.modDie_keeps
    | with_reducible apply State.modRun_keeps
    | with_reducible apply State.pump_keeps
    | with_reducible apply State.takeStage_keeps
    | split

theorem execTileStageGrant_keeps {s0 s : State} (h : Keeps s0 s) (d : Nat) (n : Nat) : AnsKeeps s0 (execTileStageGrant d n s) := by
  unfold execTileStageGrant
  repeat' first
    | with_reducible assumption
    | ((try lift_lets -underBinder); first | ((intro z; refine Keeps.cut (s0 := s0) (x := z) ?_ ?_) <;> [(dsimp -zeta only [z]); (intro hz; try clear_value z)]) | ((intro z; refine Keeps.cut (s0 := s0) (x := z.1) ?_ ?_) <;> [(dsimp -zeta only [z]); (intro hz; try clear_value z)]) | (intro z; have hz : z.arb = z.arb := rfl; clear hz) | (intro z; try clear_value z))
    | with_reducible apply State.modChan_keeps
    | with_reducible apply State.modDie_keeps
    | with_reducible apply State.takeStage_keeps
    | with_reducible refine AnsKeeps.next ?_
    | split

theorem writeLands_keeps {s0 s : State} (h : Keeps s0 s) (d : Nat) (n : Nat) : AnsKeeps s0 (writeLands d n s) := by
  unfold writeLands
  repeat' first
    | with_reducible assumption
    | ((try lift_lets -underBinder); first | ((intro z; refine Keeps.cut (s0 := s0) (x := z) ?_ ?_) <;> [(dsimp -zeta only [z]); (intro hz; try clear_value z)]) | ((intro z; refine Keeps.cut (s0 := s0) (x := z.1) ?_ ?_) <;> [(dsimp -zeta only [z]); (intro hz; try clear_value z)]) | (intro z; have hz : z.arb = z.arb := rfl; clear hz) | (intro z; try clear_value z))
    | with_reducible apply State.modChan_keeps
    | with_reducible apply State.bankServed_keeps
    | with_reducible apply State.drayStore_keeps
    | with_reducible apply State.crossed_keeps
    | with_reducible apply State.answered_keeps
    | with_reducible apply State.modRun_keeps
    | with_reducible apply State.deadAccess_keeps
    | with_reducible apply State.advance_keeps
    | with_reducible apply State.freeStage_keeps
    | with_reducible apply State.pumpAll_keeps
    | with_reducible refine AnsKeeps.next ?_
    | split

theorem State.inTransit_keeps {s0 s : State} (h : Keeps s0 s) (d : Nat) (l : Nat) (type : Nat) (p : Packet) (data : List Byte) : Keeps s0 (State.inTransit s d l type p data) := by
  unfold State.inTransit
  repeat' first
    | with_reducible assumption
    | with_reducible apply State.passBack_keeps
    | split

theorem execWriteAccept_keeps {s0 s : State} (h : Keeps s0 s) (d : Nat) (c : AnswerTo) : AnsKeeps s0 (execWriteAccept d c s) := by
  unfold execWriteAccept
  repeat' first
    | with_reducible assumption
    | with_reducible apply writeLands_keeps
    | with_reducible apply State.inTransit_keeps
    | with_reducible refine AnsKeeps.next ?_
    | split

theorem dataReturns_keeps {s0 s : State} (h : Keeps s0 s) (d : Nat) (n : Nat) (data : List Byte) : AnsKeeps s0 (dataReturns d n data s) := by
  unfold dataReturns
  repeat' first
    | with_reducible assumption
    | ((try lift_lets -underBinder); first | ((intro z; refine Keeps.cut (s0 := s0) (x := z) ?_ ?_) <;> [(dsimp -zeta only [z]); (intro hz; try clear_value z)]) | ((intro z; refine Keeps.cut (s0 := s0) (x := z.1) ?_ ?_) <;> [(dsimp -zeta only [z]); (intro hz; try clear_value z)]) | (intro z; have hz : z.arb = z.arb := rfl; clear hz) | (intro z; try clear_value z))
    | with_reducible apply State.modChan_keeps
    | with_reducible apply State.answered_keeps
    | with_reducible apply State.takeData_keeps
    | with_reducible apply State.pumpAll_keeps
    | with_reducible refine AnsKeeps.next ?_
    | split

theorem execReadResponse_keeps {s0 s : State} (h : Keeps s0 s) (d : Nat) (c : AnswerTo) (data : List Byte) : AnsKeeps s0 (execReadResponse d c data s) := by
  unfold execReadResponse
  repeat' first
    | with_reducible assumption
    | with_reducible apply State.inTransit_keeps
    | with_reducible apply dataReturns_keeps
    | with_reducible refine AnsKeeps.next ?_
    | split

theorem State.farFails_keeps {s0 s : State} (h : Keeps s0 s) (d : Nat) (n : Nat) (i : Nat) (kind : Nat) (q : Req) : Keeps s0 (State.farFails s d n i kind q) := by
  unfold State.farFails
  repeat' first
    | with_reducible assumption
    | ((try lift_lets -underBinder); first | ((intro z; refine Keeps.cut (s0 := s0) (x := z) ?_ ?_) <;> [(dsimp -zeta only [z]); (intro hz; try clear_value z)]) | ((intro z; refine Keeps.cut (s0 := s0) (x := z.1) ?_ ?_) <;> [(dsimp -zeta only [z]); (intro hz; try clear_value z)]) | (intro z; have hz : z.arb = z.arb := rfl; clear hz) | (intro z; try clear_value z))
    | with_reducible apply State.request_keeps
    | with_reducible apply State.answered_keeps
    | with_reducible apply State.busError_keeps
    | with_reducible apply State.deadAccess_keeps
    | split

theorem State.spadParity_keeps {s0 s : State} (h : Keeps s0 s) (a : Nat) : Keeps s0 (State.spadParity s a) := by
  unfold State.spadParity
  repeat' first
    | with_reducible assumption
    | with_reducible apply State.count_keeps
    | split

theorem execDrayAccessError_keeps {s0 s : State} (h : Keeps s0 s) (d : Nat) (n : Nat) (kind : Nat) : AnsKeeps s0 (execDrayAccessError d n kind s) := by
  unfold execDrayAccessError
  repeat' first
    | with_reducible assumption
    | ((try lift_lets -underBinder); first | ((intro z; refine Keeps.cut (s0 := s0) (x := z) ?_ ?_) <;> [(dsimp -zeta only [z]); (intro hz; try clear_value z)]) | ((intro z; refine Keeps.cut (s0 := s0) (x := z.1) ?_ ?_) <;> [(dsimp -zeta only [z]); (intro hz; try clear_value z)]) | (intro z; have hz : z.arb = z.arb := rfl; clear hz) | (intro z; try clear_value z))
    | with_reducible apply State.wr_keeps
    | with_reducible apply State.busError_keeps
    | with_reducible apply State.farFails_keeps
    | with_reducible apply State.spadParity_keeps
    | with_reducible refine AnsKeeps.next ?_
    | split

theorem execReadBack_keeps {s0 s : State} (h : Keeps s0 s) (d : Nat) (n : Nat) : AnsKeeps s0 (execReadBack d n s) := by
  unfold execReadBack
  repeat' first
    | with_reducible assumption
    | ((try lift_lets -underBinder); first | ((intro z; refine Keeps.cut (s0 := s0) (x := z) ?_ ?_) <;> [(dsimp -zeta only [z]); (intro hz; try clear_value z)]) | ((intro z; refine Keeps.cut (s0 := s0) (x := z.1) ?_ ?_) <;> [(dsimp -zeta only [z]); (intro hz; try clear_value z)]) | (intro z; have hz : z.arb = z.arb := rfl; clear hz) | (intro z; try clear_value z))
    | with_reducible apply State.modChan_keeps
    | with_reducible apply State.answered_keeps
    | with_reducible apply State.modRun_keeps
    | with_reducible apply State.flushAll_keeps
    | with_reducible apply State.pumpAll_keeps
    | with_reducible refine AnsKeeps.next ?_
    | split

theorem State.releaseCq_keeps {s0 s : State} (h : Keeps s0 s) (d : Nat) (q : Nat) : Keeps s0 (State.releaseCq s d q) := by
  unfold State.releaseCq
  repeat' first
    | with_reducible assumption
    | ((try lift_lets -underBinder); first | ((intro z; refine Keeps.cut (s0 := s0) (x := z) ?_ ?_) <;> [(dsimp -zeta only [z]); (intro hz; try clear_value z)]) | ((intro z; refine Keeps.cut (s0 := s0) (x := z.1) ?_ ?_) <;> [(dsimp -zeta only [z]); (intro hz; try clear_value z)]) | (intro z; have hz : z.arb = z.arb := rfl; clear hz) | (intro z; try clear_value z))
    | with_reducible apply State.modDie_keeps
    | with_reducible apply State.flushAll_keeps
    | with_reducible apply State.pumpAll_keeps
    | ((with_reducible refine Keeps.foldl _ _ ?_ (fun z w hz => ?_)); (try beta_reduce))
    | split

theorem State.cancelChan_keeps {s0 s : State} (h : Keeps s0 s) (d : Nat) (n : Nat) : Keeps s0 (State.cancelChan s d n) := by
  unfold State.cancelChan
  repeat' first
    | with_reducible assumption
    | ((try lift_lets -underBinder); first | ((intro z; refine Keeps.cut (s0 := s0) (x := z) ?_ ?_) <;> [(dsimp -zeta only [z]); (intro hz; try clear_value z)]) | ((intro z; refine Keeps.cut (s0 := s0) (x := z.1) ?_ ?_) <;> [(dsimp -zeta only [z]); (intro hz; try clear_value z)]) | (intro z; have hz : z.arb = z.arb := rfl; clear hz) | (intro z; try clear_value z))
    | with_reducible apply State.modChan_keeps
    | with_reducible apply State.modDie_keeps
    | with_reducible apply State.modLink_keeps
    | with_reducible apply State.flushAll_keeps
    | with_reducible apply State.settlePause_keeps
    | ((with_reducible refine Keeps.foldl _ _ ?_ (fun z w hz => ?_)); (try beta_reduce))
    | split

theorem State.reissue_keeps {s0 s : State} (h : Keeps s0 s) (d : Nat) (n : Nat) (i : Nat) : Keeps s0 (State.reissue s d n i) := by
  unfold State.reissue
  repeat' first
    | with_reducible assumption
    | ((try lift_lets -underBinder); first | ((intro z; refine Keeps.cut (s0 := s0) (x := z) ?_ ?_) <;> [(dsimp -zeta only [z]); (intro hz; try clear_value z)]) | ((intro z; refine Keeps.cut (s0 := s0) (x := z.1) ?_ ?_) <;> [(dsimp -zeta only [z]); (intro hz; try clear_value z)]) | (intro z; have hz : z.arb = z.arb := rfl; clear hz) | (intro z; try clear_value z))
    | with_reducible apply State.wr_keeps
    | with_reducible apply State.request_keeps
    | with_reducible apply State.modRun_keeps
    | with_reducible apply State.deadAccess_keeps
    | ((with_reducible refine Keeps.foldl _ _ ?_ (fun z w hz => ?_)); (try beta_reduce))
    | split

theorem State.resumeChan_keeps {s0 s : State} (h : Keeps s0 s) (d : Nat) (n : Nat) : Keeps s0 (State.resumeChan s d n) := by
  unfold State.resumeChan
  repeat' first
    | with_reducible assumption
    | ((try lift_lets -underBinder); first | ((intro z; refine Keeps.cut (s0 := s0) (x := z) ?_ ?_) <;> [(dsimp -zeta only [z]); (intro hz; try clear_value z)]) | ((intro z; refine Keeps.cut (s0 := s0) (x := z.1) ?_ ?_) <;> [(dsimp -zeta only [z]); (intro hz; try clear_value z)]) | (intro z; have hz : z.arb = z.arb := rfl; clear hz) | (intro z; try clear_value z))
    | with_reducible apply State.modChan_keeps
    | with_reducible apply State.pumpAll_keeps
    | with_reducible apply State.reissue_keeps
    | ((with_reducible refine Keeps.foldl _ _ ?_ (fun z w hz => ?_)); (try beta_reduce))
    | split

theorem State.pauseChan_keeps {s0 s : State} (h : Keeps s0 s) (d : Nat) (n : Nat) : Keeps s0 (State.pauseChan s d n) := by
  unfold State.pauseChan
  repeat' first
    | with_reducible assumption
    | with_reducible apply State.modChan_keeps
    | with_reducible apply State.settlePause_keeps
    | split

theorem State.arbCycle_keeps {s0 s : State} (h : Keeps s0 s) (d : Nat) (g : Nat) (cycle : Int) : Keeps s0 (State.arbCycle s d g cycle) := by
  unfold State.arbCycle
  repeat' first
    | with_reducible assumption
    | ((try lift_lets -underBinder); first | ((intro z; refine Keeps.cut (s0 := s0) (x := z) ?_ ?_) <;> [(dsimp -zeta only [z]); (intro hz; try clear_value z)]) | ((intro z; refine Keeps.cut (s0 := s0) (x := z.1) ?_ ?_) <;> [(dsimp -zeta only [z]); (intro hz; try clear_value z)]) | (intro z; have hz : z.arb = z.arb := rfl; clear hz) | (intro z; try clear_value z))
    | with_reducible apply State.count_keeps
    | with_reducible apply State.modDie_keeps
    | with_reducible apply State.seen_keeps
    | split

theorem State.arbRun_keeps {s0 s : State} (h : Keeps s0 s) (d : Nat) (g : Nat) (cycle : Int) (n : Nat) : Keeps s0 (State.arbRun s d g cycle n) := by
  induction n generalizing s cycle with
  | zero =>
    unfold State.arbRun
    repeat' first
      | with_reducible assumption
      | with_reducible apply State.arbCycle_keeps
      | split
  | succ n ih =>
    unfold State.arbRun
    try dsimp -zeta only
    repeat' first
      | with_reducible assumption
      | with_reducible apply ih
      | with_reducible apply State.arbCycle_keeps
      | split

theorem State.arbiters_keeps {s0 s : State} (h : Keeps s0 s) (d : Nat) (cycle : Int) (n : Nat) : Keeps s0 (State.arbiters s d cycle n) := by
  unfold State.arbiters
  repeat' first
    | with_reducible assumption
    | with_reducible apply State.arbRun_keeps
    | ((with_reducible refine Keeps.foldl _ _ ?_ (fun z w hz => ?_)); (try beta_reduce))
    | split

theorem State.waited_keeps {s0 s : State} (h : Keeps s0 s) (d : Nat) (n : Nat) : Keeps s0 (State.waited s d n) := by
  unfold State.waited
  repeat' first
    | with_reducible assumption
    | ((try lift_lets -underBinder); first | ((intro z; refine Keeps.cut (s0 := s0) (x := z) ?_ ?_) <;> [(dsimp -zeta only [z]); (intro hz; try clear_value z)]) | ((intro z; refine Keeps.cut (s0 := s0) (x := z.1) ?_ ?_) <;> [(dsimp -zeta only [z]); (intro hz; try clear_value z)]) | (intro z; have hz : z.arb = z.arb := rfl; clear hz) | (intro z; try clear_value z))
    | with_reducible apply State.count_keeps
    | ((with_reducible refine Keeps.foldl _ _ ?_ (fun z w hz => ?_)); (try beta_reduce))
    | split

theorem State.cycles_keeps {s0 s : State} (h : Keeps s0 s) (n : Nat) : Keeps s0 (State.cycles s n) := by
  unfold State.cycles
  repeat' first
    | with_reducible assumption
    | ((try lift_lets -underBinder); first | ((intro z; refine Keeps.cut (s0 := s0) (x := z) ?_ ?_) <;> [(dsimp -zeta only [z]); (intro hz; try clear_value z)]) | ((intro z; refine Keeps.cut (s0 := s0) (x := z.1) ?_ ?_) <;> [(dsimp -zeta only [z]); (intro hz; try clear_value z)]) | (intro z; have hz : z.arb = z.arb := rfl; clear hz) | (intro z; try clear_value z))
    | with_reducible apply State.arbiters_keeps
    | with_reducible apply State.waited_keeps
    | ((with_reducible refine Keeps.foldl _ _ ?_ (fun z w hz => ?_)); (try beta_reduce))
    | split
    | with_reducible refine Keeps.lit ?_ rfl

theorem State.passTo_keeps {s0 s : State} (h : Keeps s0 s) (cycle : Nat) : Keeps s0 (State.passTo s cycle) := by
  unfold State.passTo
  repeat' first
    | with_reducible assumption
    | with_reducible apply State.cycles_keeps
    | split

theorem State.peak_keeps {s0 s : State} (h : Keeps s0 s) (d : Nat) : Keeps s0 (State.peak s d) := by
  unfold State.peak
  repeat' first
    | with_reducible assumption
    | with_reducible apply State.wr_keeps
    | split

theorem State.holdTag_keeps {s0 s : State} (h : Keeps s0 s) (d : Nat) (m : MemReq) : Keeps s0 (State.holdTag s d m) := by
  unfold State.holdTag
  repeat' first
    | with_reducible assumption
    | with_reducible apply State.modDie_keeps
    | with_reducible apply State.granted_keeps
    | with_reducible apply State.peak_keeps
    | split

theorem State.allocLine_keeps {s0 s : State} (h : Keeps s0 s) (d : Nat) (first : Nat) (count : Nat) (slice : Nat) (set : Nat) (l : CLine) (m : MemReq) : Keeps s0 (State.allocLine s d first count slice set l m) := by
  unfold State.allocLine
  repeat' first
    | with_reducible assumption
    | ((try lift_lets -underBinder); first | ((intro z; refine Keeps.cut (s0 := s0) (x := z) ?_ ?_) <;> [(dsimp -zeta only [z]); (intro hz; try clear_value z)]) | ((intro z; refine Keeps.cut (s0 := s0) (x := z.1) ?_ ?_) <;> [(dsimp -zeta only [z]); (intro hz; try clear_value z)]) | (intro z; have hz : z.arb = z.arb := rfl; clear hz) | (intro z; try clear_value z))
    | with_reducible apply State.count_keeps
    | with_reducible apply State.modSet_keeps
    | with_reducible apply State.holdTag_keeps
    | split

theorem State.serveHit_keeps {s0 s : State} (h : Keeps s0 s) (d : Nat) (k : Nat) (slice : Nat) (m : MemReq) (w : Nat) (l : CLine) : Keeps s0 (State.serveHit s d k slice m w l) := by
  unfold State.serveHit
  repeat' first
    | with_reducible assumption
    | ((try lift_lets -underBinder); first | ((intro z; refine Keeps.cut (s0 := s0) (x := z) ?_ ?_) <;> [(dsimp -zeta only [z]); (intro hz; try clear_value z)]) | ((intro z; refine Keeps.cut (s0 := s0) (x := z.1) ?_ ?_) <;> [(dsimp -zeta only [z]); (intro hz; try clear_value z)]) | (intro z; have hz : z.arb = z.arb := rfl; clear hz) | (intro z; try clear_value z))
    | with_reducible apply State.count_keeps
    | with_reducible apply State.lampCount_keeps
    | with_reducible apply State.raise_keeps
    | with_reducible apply State.modSet_keeps
    | with_reducible apply State.depotReplays_keeps
    | with_reducible apply State.depotUncorrectable_keeps
    | with_reducible apply State.holdTag_keeps
    | split

theorem State.servePinned_keeps {s0 s : State} (h : Keeps s0 s) (d : Nat) (m : MemReq) : Keeps s0 (State.servePinned s d m) := by
  unfold State.servePinned
  repeat' first
    | with_reducible assumption
    | ((try lift_lets -underBinder); first | ((intro z; refine Keeps.cut (s0 := s0) (x := z) ?_ ?_) <;> [(dsimp -zeta only [z]); (intro hz; try clear_value z)]) | ((intro z; refine Keeps.cut (s0 := s0) (x := z.1) ?_ ?_) <;> [(dsimp -zeta only [z]); (intro hz; try clear_value z)]) | (intro z; have hz : z.arb = z.arb := rfl; clear hz) | (intro z; try clear_value z))
    | with_reducible apply State.modDie_keeps
    | with_reducible apply State.depotReplays_keeps
    | with_reducible apply State.depotUncorrectable_keeps
    | split

theorem State.serve_keeps {s0 s : State} (h : Keeps s0 s) (d : Nat) (m : MemReq) : Keeps s0 (State.serve s d m) := by
  unfold State.serve
  repeat' first
    | with_reducible assumption
    | ((try lift_lets -underBinder); first | ((intro z; refine Keeps.cut (s0 := s0) (x := z) ?_ ?_) <;> [(dsimp -zeta only [z]); (intro hz; try clear_value z)]) | ((intro z; refine Keeps.cut (s0 := s0) (x := z.1) ?_ ?_) <;> [(dsimp -zeta only [z]); (intro hz; try clear_value z)]) | (intro z; have hz : z.arb = z.arb := rfl; clear hz) | (intro z; try clear_value z))
    | with_reducible apply State.wr_keeps
    | with_reducible apply State.count_keeps
    | with_reducible apply State.holdTag_keeps
    | with_reducible apply State.allocLine_keeps
    | with_reducible apply State.serveHit_keeps
    | with_reducible apply State.servePinned_keeps
    | split

theorem execMemoryRequest_keeps {s0 s : State} (h : Keeps s0 s) (d : Nat) (req : Requester) (addr : BitVec 48) (len : Nat) (write : Bool) (parity : Nat) : AnsKeeps s0 (execMemoryRequest d req addr len write parity s) := by
  unfold execMemoryRequest
  repeat' first
    | with_reducible assumption
    | ((try lift_lets -underBinder); first | ((intro z; refine Keeps.cut (s0 := s0) (x := z) ?_ ?_) <;> [(dsimp -zeta only [z]); (intro hz; try clear_value z)]) | ((intro z; refine Keeps.cut (s0 := s0) (x := z.1) ?_ ?_) <;> [(dsimp -zeta only [z]); (intro hz; try clear_value z)]) | (intro z; have hz : z.arb = z.arb := rfl; clear hz) | (intro z; try clear_value z))
    | with_reducible apply State.modDie_keeps
    | with_reducible apply State.unmapped_keeps
    | with_reducible apply State.granted_keeps
    | with_reducible apply State.serve_keeps
    | with_reducible refine AnsKeeps.next ?_
    | split

theorem execMemTagGrant_keeps {s0 s : State} (h : Keeps s0 s) (d : Nat) : AnsKeeps s0 (execMemTagGrant d s) := by
  unfold execMemTagGrant
  repeat' first
    | with_reducible assumption
    | with_reducible apply State.modDie_keeps
    | with_reducible apply State.serve_keeps
    | with_reducible refine AnsKeeps.next ?_
    | split

theorem State.fillLine_keeps {s0 s : State} (h : Keeps s0 s) (d : Nat) (m : MemReq) : Keeps s0 (State.fillLine s d m) := by
  unfold State.fillLine
  repeat' first
    | with_reducible assumption
    | ((try lift_lets -underBinder); first | ((intro z; refine Keeps.cut (s0 := s0) (x := z) ?_ ?_) <;> [(dsimp -zeta only [z]); (intro hz; try clear_value z)]) | ((intro z; refine Keeps.cut (s0 := s0) (x := z.1) ?_ ?_) <;> [(dsimp -zeta only [z]); (intro hz; try clear_value z)]) | (intro z; have hz : z.arb = z.arb := rfl; clear hz) | (intro z; try clear_value z))
    | with_reducible apply State.count_keeps
    | with_reducible apply State.modSet_keeps
    | with_reducible apply State.allocLine_keeps
    | split

theorem State.passGrant_keeps {s0 s t : State} {d req a : Nat} (e : s.passGrant d req a = some t) (h : Keeps s0 s) : Keeps s0 t := by
  unfold State.passGrant at e
  obtain ⟨n, -, rfl⟩ := Option.map_eq_some_iff.mp e
  exact State.cycles_keeps h n

theorem execLpddrRead_keeps {s0 s : State} (h : Keeps s0 s) (d : Nat) (req : Nat) (addr : BitVec 48) (linkErrs : Nat) (bad : Bool) (reread : Bool) (mirror : List Byte) : AnsKeeps s0 (execLpddrRead d req addr linkErrs bad reread mirror s) := by
  unfold execLpddrRead
  repeat' first
    | with_reducible assumption
    | ((try lift_lets -underBinder); first | ((intro z; refine Keeps.cut (s0 := s0) (x := z) ?_ ?_) <;> [(dsimp -zeta only [z]); (intro hz; try clear_value z)]) | ((intro z; refine Keeps.cut (s0 := s0) (x := z.1) ?_ ?_) <;> [(dsimp -zeta only [z]); (intro hz; try clear_value z)]) | (intro z; have hz : z.arb = z.arb := rfl; clear hz) | (intro z; try clear_value z))
    | with_reducible apply State.count_keeps
    | with_reducible apply State.modDie_keeps
    | with_reducible apply State.setBytes_keeps
    | with_reducible apply State.lampCount_keeps
    | with_reducible apply State.raise_keeps
    | with_reducible apply State.memError_keeps
    | with_reducible apply State.scrub_keeps
    | with_reducible apply State.fillLine_keeps
    | with_reducible refine AnsKeeps.next ?_
    | exact State.passGrant_keeps (by assumption) (by with_reducible assumption)
    | split

theorem State.nameLists_keeps {s0 s : State} (h : Keeps s0 s) (d : Nat) (q : Nat) (l : Lists) (chan : Option Nat) : Keeps s0 (State.nameLists s d q l chan) := by
  unfold State.nameLists
  repeat' first
    | with_reducible assumption
    | ((try lift_lets -underBinder); first | ((intro z; refine Keeps.cut (s0 := s0) (x := z) ?_ ?_) <;> [(dsimp -zeta only [z]); (intro hz; try clear_value z)]) | ((intro z; refine Keeps.cut (s0 := s0) (x := z.1) ?_ ?_) <;> [(dsimp -zeta only [z]); (intro hz; try clear_value z)]) | (intro z; have hz : z.arb = z.arb := rfl; clear hz) | (intro z; try clear_value z))
    | with_reducible apply State.modItem_keeps
    | ((with_reducible refine Keeps.foldl _ _ ?_ (fun z w hz => ?_)); (try beta_reduce))
    | split

theorem State.dispatch_keeps {s0 s : State} (h : Keeps s0 s) (hd : Hdr) (unit : Nat) (legal : Bool) (l : Lists) (chan : Option Nat)
    (e : QEntry) : Keeps s0 (s.dispatch hd unit legal l chan e) := by
  unfold State.dispatch
  refine State.issue_keeps h _ _ _ _ _ fun z hz => ?_
  dsimp only
  split
  · exact State.modCore_keeps (State.nameLists_keeps hz _ _ _ _) _ _ _
  · exact State.modCore_keeps (State.nameLists_keeps hz _ _ _ _) _ _ _

theorem State.transfer_keeps {s0 s : State} (h : Keeps s0 s) (wh : Hdr) (op : UOp) (sa : Bool) (win : Bool) (x : FmtX) (l : Lists) : Keeps s0 (State.transfer s wh op sa win x l) := by
  unfold State.transfer
  repeat' first
    | with_reducible assumption
    | ((with_reducible refine State.dispatch_keeps ?_ _ _ _ _ _ _); (try beta_reduce))
    | split

theorem State.tensor_keeps {s0 s : State} (h : Keeps s0 s) (wh : Hdr) (op : UOp) (unit : Nat) (legal : Bool) (arr : Bool) (grp : Bool) (t : FmtT) (l : Lists) : Keeps s0 (State.tensor s wh op unit legal arr grp t l) := by
  unfold State.tensor
  repeat' first
    | with_reducible assumption
    | ((with_reducible refine State.dispatch_keeps ?_ _ _ _ _ _ _); (try beta_reduce))
    | split

theorem execDrayGo_keeps {s0 s : State} (h : Keeps s0 s) (wh : Hdr) (x : FmtX) (l : Lists) : AnsKeeps s0 (execDrayGo wh x l s) := by
  unfold execDrayGo
  repeat' first
    | with_reducible assumption
    | with_reducible apply State.transfer_keeps
    | with_reducible refine AnsKeeps.next ?_
    | split

theorem execDrayPause_keeps {s0 s : State} (h : Keeps s0 s) (wh : Hdr) (x : FmtX) (l : Lists) : AnsKeeps s0 (execDrayPause wh x l s) := by
  unfold execDrayPause
  repeat' first
    | with_reducible assumption
    | with_reducible apply State.transfer_keeps
    | with_reducible refine AnsKeeps.next ?_
    | split

theorem execDrayResume_keeps {s0 s : State} (h : Keeps s0 s) (wh : Hdr) (x : FmtX) (l : Lists) : AnsKeeps s0 (execDrayResume wh x l s) := by
  unfold execDrayResume
  repeat' first
    | with_reducible assumption
    | with_reducible apply State.transfer_keeps
    | with_reducible refine AnsKeeps.next ?_
    | split

theorem execDrayCancel_keeps {s0 s : State} (h : Keeps s0 s) (wh : Hdr) (x : FmtX) (l : Lists) : AnsKeeps s0 (execDrayCancel wh x l s) := by
  unfold execDrayCancel
  repeat' first
    | with_reducible assumption
    | with_reducible apply State.transfer_keeps
    | with_reducible refine AnsKeeps.next ?_
    | split

theorem execDrayStat_keeps {s0 s : State} (h : Keeps s0 s) (wh : Hdr) (x : FmtX) (l : Lists) : AnsKeeps s0 (execDrayStat wh x l s) := by
  unfold execDrayStat
  repeat' first
    | with_reducible assumption
    | with_reducible apply State.transfer_keeps
    | with_reducible refine AnsKeeps.next ?_
    | split

theorem execMma_keeps {s0 s : State} (h : Keeps s0 s) (wh : Hdr) (t : FmtT) (l : Lists) : AnsKeeps s0 (execMma wh t l s) := by
  unfold execMma
  repeat' first
    | with_reducible assumption
    | with_reducible apply State.tensor_keeps
    | with_reducible refine AnsKeeps.next ?_
    | split

theorem execMvp_keeps {s0 s : State} (h : Keeps s0 s) (wh : Hdr) (t : FmtT) (l : Lists) : AnsKeeps s0 (execMvp wh t l s) := by
  unfold execMvp
  repeat' first
    | with_reducible assumption
    | with_reducible apply State.tensor_keeps
    | with_reducible refine AnsKeeps.next ?_
    | split

theorem execEwa_keeps {s0 s : State} (h : Keeps s0 s) (wh : Hdr) (t : FmtT) (l : Lists) : AnsKeeps s0 (execEwa wh t l s) := by
  unfold execEwa
  repeat' first
    | with_reducible assumption
    | with_reducible apply State.tensor_keeps
    | with_reducible refine AnsKeeps.next ?_
    | split

theorem execVop_keeps {s0 s : State} (h : Keeps s0 s) (wh : Hdr) (t : FmtT) (l : Lists) : AnsKeeps s0 (execVop wh t l s) := by
  unfold execVop
  repeat' first
    | with_reducible assumption
    | with_reducible apply State.tensor_keeps
    | with_reducible refine AnsKeeps.next ?_
    | split

theorem execHand_keeps {s0 s : State} (h : Keeps s0 s) (wh : Hdr) (t : FmtT) (l : Lists) : AnsKeeps s0 (execHand wh t l s) := by
  unfold execHand
  repeat' first
    | with_reducible assumption
    | with_reducible apply State.tensor_keeps
    | with_reducible refine AnsKeeps.next ?_
    | split

theorem execHmerge_keeps {s0 s : State} (h : Keeps s0 s) (wh : Hdr) (t : FmtT) (l : Lists) : AnsKeeps s0 (execHmerge wh t l s) := by
  unfold execHmerge
  repeat' first
    | with_reducible assumption
    | with_reducible apply State.tensor_keeps
    | with_reducible refine AnsKeeps.next ?_
    | split

theorem execHcheck_keeps {s0 s : State} (h : Keeps s0 s) (wh : Hdr) (t : FmtT) (l : Lists) : AnsKeeps s0 (execHcheck wh t l s) := by
  unfold execHcheck
  repeat' first
    | with_reducible assumption
    | with_reducible apply State.tensor_keeps
    | with_reducible refine AnsKeeps.next ?_
    | split

theorem execPredQuant_keeps {s0 s : State} (h : Keeps s0 s) (wh : Hdr) (t : FmtT) (l : Lists) : AnsKeeps s0 (execPredQuant wh t l s) := by
  unfold execPredQuant
  repeat' first
    | with_reducible assumption
    | with_reducible apply State.tensor_keeps
    | with_reducible refine AnsKeeps.next ?_
    | split

theorem execPredTopk_keeps {s0 s : State} (h : Keeps s0 s) (wh : Hdr) (t : FmtT) (l : Lists) : AnsKeeps s0 (execPredTopk wh t l s) := by
  unfold execPredTopk
  repeat' first
    | with_reducible assumption
    | with_reducible apply State.tensor_keeps
    | with_reducible refine AnsKeeps.next ?_
    | split

theorem execPredThresh_keeps {s0 s : State} (h : Keeps s0 s) (wh : Hdr) (t : FmtT) (l : Lists) : AnsKeeps s0 (execPredThresh wh t l s) := by
  unfold execPredThresh
  repeat' first
    | with_reducible assumption
    | with_reducible apply State.tensor_keeps
    | with_reducible refine AnsKeeps.next ?_
    | split

theorem execPredEmit_keeps {s0 s : State} (h : Keeps s0 s) (wh : Hdr) (t : FmtT) (l : Lists) : AnsKeeps s0 (execPredEmit wh t l s) := by
  unfold execPredEmit
  repeat' first
    | with_reducible assumption
    | with_reducible apply State.tensor_keeps
    | with_reducible refine AnsKeeps.next ?_
    | split

theorem execUpdAdam_keeps {s0 s : State} (h : Keeps s0 s) (wh : Hdr) (t : FmtT) (l : Lists) : AnsKeeps s0 (execUpdAdam wh t l s) := by
  unfold execUpdAdam
  repeat' first
    | with_reducible assumption
    | with_reducible apply State.tensor_keeps
    | with_reducible refine AnsKeeps.next ?_
    | split

theorem execDigestBlock_keeps {s0 s : State} (h : Keeps s0 s) (wh : Hdr) (t : FmtT) (l : Lists) : AnsKeeps s0 (execDigestBlock wh t l s) := by
  unfold execDigestBlock
  repeat' first
    | with_reducible assumption
    | with_reducible apply State.tensor_keeps
    | with_reducible refine AnsKeeps.next ?_
    | split

theorem execDigestNode_keeps {s0 s : State} (h : Keeps s0 s) (wh : Hdr) (t : FmtT) (l : Lists) : AnsKeeps s0 (execDigestNode wh t l s) := by
  unfold execDigestNode
  repeat' first
    | with_reducible assumption
    | with_reducible apply State.tensor_keeps
    | with_reducible refine AnsKeeps.next ?_
    | split

theorem State.popQueue_keeps {s0 s : State} (h : Keeps s0 s) (d : Nat) (q : Nat) (unit : Nat) : Keeps s0 (State.popQueue s d q unit) := by
  unfold State.popQueue
  repeat' first
    | with_reducible assumption
    | ((try lift_lets -underBinder); first | ((intro z; refine Keeps.cut (s0 := s0) (x := z) ?_ ?_) <;> [(dsimp -zeta only [z]); (intro hz; try clear_value z)]) | ((intro z; refine Keeps.cut (s0 := s0) (x := z.1) ?_ ?_) <;> [(dsimp -zeta only [z]); (intro hz; try clear_value z)]) | (intro z; have hz : z.arb = z.arb := rfl; clear hz) | (intro z; try clear_value z))
    | with_reducible apply State.modCore_keeps
    | with_reducible apply State.retire_keeps
    | split

theorem State.unitFault_keeps {s0 s : State} (h : Keeps s0 s) (d : Nat) (q : Nat) (unit : Nat) (e : QEntry) (f : UFault) : Keeps s0 (State.unitFault s d q unit e f) := by
  unfold State.unitFault
  repeat' first
    | with_reducible assumption
    | ((try lift_lets -underBinder); first | ((intro z; refine Keeps.cut (s0 := s0) (x := z) ?_ ?_) <;> [(dsimp -zeta only [z]); (intro hz; try clear_value z)]) | ((intro z; refine Keeps.cut (s0 := s0) (x := z.1) ?_ ?_) <;> [(dsimp -zeta only [z]); (intro hz; try clear_value z)]) | (intro z; have hz : z.arb = z.arb := rfl; clear hz) | (intro z; try clear_value z))
    | with_reducible apply State.modCore_keeps
    | with_reducible apply State.used_keeps
    | with_reducible apply State.programFault_keeps
    | split

theorem State.unitReplays_keeps {s0 s : State} (h : Keeps s0 s) (d : Nat) (q : Nat) (unit : Nat) (had : Nat) (par : Nat) : Keeps s0 (State.unitReplays s d q unit had par).1 := by
  unfold State.unitReplays
  repeat' first
    | with_reducible assumption
    | ((try lift_lets -underBinder); first | ((intro z; refine Keeps.cut (s0 := s0) (x := z) ?_ ?_) <;> [(dsimp -zeta only [z]); (intro hz; try clear_value z)]) | ((intro z; refine Keeps.cut (s0 := s0) (x := z.1) ?_ ?_) <;> [(dsimp -zeta only [z]); (intro hz; try clear_value z)]) | (intro z; have hz : z.arb = z.arb := rfl; clear hz) | (intro z; try clear_value z))
    | with_reducible apply State.used_keeps
    | with_reducible apply State.replays_keeps
    | split

theorem State.setAccBit_keeps {s0 s : State} (h : Keeps s0 s) (f : FRef) (g : Nat) : Keeps s0 (State.setAccBit s f g) := by
  unfold State.setAccBit
  repeat' first
    | with_reducible assumption
    | with_reducible apply State.wr_keeps
    | split

theorem State.beginRun_keeps {s0 s : State} (h : Keeps s0 s) (d : Nat) (c : Nat) (unit : Nat) (e : QEntry) (p : Plan) (replays : Nat) (ports : List Nat) : Keeps s0 (State.beginRun s d c unit e p replays ports) := by
  unfold State.beginRun
  repeat' first
    | with_reducible assumption
    | ((try lift_lets -underBinder); first | ((intro z; refine Keeps.cut (s0 := s0) (x := z) ?_ ?_) <;> [(dsimp -zeta only [z]); (intro hz; try clear_value z)]) | ((intro z; refine Keeps.cut (s0 := s0) (x := z.1) ?_ ?_) <;> [(dsimp -zeta only [z]); (intro hz; try clear_value z)]) | (intro z; have hz : z.arb = z.arb := rfl; clear hz) | (intro z; try clear_value z))
    | with_reducible apply State.count_keeps
    | with_reducible apply State.modCore_keeps
    | with_reducible apply State.used_keeps
    | with_reducible apply State.raiseAll_keeps
    | with_reducible apply State.replays_keeps
    | with_reducible apply State.setAccBit_keeps
    | ((with_reducible refine Keeps.foldl _ _ ?_ (fun z w hz => ?_)); (try beta_reduce))
    | split

theorem State.orderChan_keeps {s0 s : State} (h : Keeps s0 s) (d : Nat) (n : Nat) (op : UOp) : Keeps s0 (State.orderChan s d n op) := by
  unfold State.orderChan
  repeat' first
    | with_reducible assumption
    | with_reducible apply State.cancelChan_keeps
    | with_reducible apply State.resumeChan_keeps
    | with_reducible apply State.pauseChan_keeps
    | split

theorem State.unitTake_keeps {s0 s : State} (h : Keeps s0 s) (d : Nat) (q : Nat) (u : Nat) : Keeps s0 (State.unitTake s d q u) := by
  unfold State.unitTake
  repeat' first
    | with_reducible assumption
    | with_reducible apply State.modCore_keeps
    | split

theorem State.unitsTake_keeps {s0 s : State} (h : Keeps s0 s) (d : Nat) (q : Nat) : Keeps s0 (State.unitsTake s d q) := by
  unfold State.unitsTake
  repeat' first
    | with_reducible assumption
    | with_reducible apply State.unitTake_keeps
    | ((with_reducible refine Keeps.foldl _ _ ?_ (fun z w hz => ?_)); (try beta_reduce))
    | split

theorem execInstrStart_keeps {s0 s : State} (h : Keeps s0 s) (d : Nat) (q : Nat) (unit : Nat) (par : Nat) : AnsKeeps s0 (execInstrStart d q unit par s) := by
  unfold execInstrStart
  repeat' first
    | with_reducible assumption
    | ((try lift_lets -underBinder); first | ((intro z; refine Keeps.cut (s0 := s0) (x := z) ?_ ?_) <;> [(dsimp -zeta only [z]); (intro hz; try clear_value z)]) | ((intro z; refine Keeps.cut (s0 := s0) (x := z.1) ?_ ?_) <;> [(dsimp -zeta only [z]); (intro hz; try clear_value z)]) | (intro z; have hz : z.arb = z.arb := rfl; clear hz) | (intro z; try clear_value z))
    | with_reducible apply State.modCore_keeps
    | with_reducible apply State.exhausted_keeps
    | with_reducible apply State.accept_keeps
    | with_reducible apply State.popQueue_keeps
    | with_reducible apply State.unitFault_keeps
    | with_reducible apply State.unitReplays_keeps
    | with_reducible apply State.beginRun_keeps
    | with_reducible apply State.orderChan_keeps
    | with_reducible refine AnsKeeps.next ?_
    | split

theorem State.endGroup_keeps {s0 s : State} (h : Keeps s0 s) (d : Nat) (c : Nat) (unit : Nat) (g : GroupEnd) : Keeps s0 (State.endGroup s d c unit g) := by
  unfold State.endGroup
  repeat' first
    | with_reducible assumption
    | ((try lift_lets -underBinder); first | ((intro z; refine Keeps.cut (s0 := s0) (x := z) ?_ ?_) <;> [(dsimp -zeta only [z]); (intro hz; try clear_value z)]) | ((intro z; refine Keeps.cut (s0 := s0) (x := z.1) ?_ ?_) <;> [(dsimp -zeta only [z]); (intro hz; try clear_value z)]) | (intro z; have hz : z.arb = z.arb := rfl; clear hz) | (intro z; try clear_value z))
    | with_reducible apply State.modCore_keeps
    | with_reducible apply State.raise_keeps
    | with_reducible apply State.setAccBit_keeps
    | split

theorem State.release_keeps {s0 s : State} (h : Keeps s0 s) (d : Nat) (q : Nat) (unit : Nat) : Keeps s0 (State.release s d q unit) := by
  unfold State.release
  repeat' first
    | with_reducible assumption
    | with_reducible apply State.modCore_keeps
    | split

theorem State.resultOf_keeps {s0 s : State} (h : Keeps s0 s) (d : Nat) (c : Nat) (r : Running) : Keeps s0 (State.resultOf s d c r).1 := by
  unfold State.resultOf
  repeat' first
    | with_reducible assumption
    | with_reducible apply State.used_keeps
    | split

theorem State.applyWrites_keeps {s0 s : State} (h : Keeps s0 s) (d : Nat) (c : Nat) (ws : List (Nat × Byte)) : Keeps s0 (State.applyWrites s d c ws) := by
  induction ws generalizing s  with
  | nil =>
    unfold State.applyWrites
    repeat' first
      | with_reducible assumption
      | with_reducible apply State.setByte_keeps
      | split
  | cons x r ih =>
    unfold State.applyWrites
    try dsimp -zeta only
    repeat' first
      | with_reducible assumption
      | with_reducible apply ih
      | with_reducible apply State.setByte_keeps
      | split

theorem State.statResult_keeps {s0 s : State} (h : Keeps s0 s) (d : Nat) (q : Nat) (unit : Nat) (e : QEntry) : Keeps s0 (State.statResult s d q unit e) := by
  unfold State.statResult
  repeat' first
    | with_reducible assumption
    | with_reducible apply State.setS_keeps
    | split

theorem execInstrComplete_keeps {s0 s : State} (h : Keeps s0 s) (d : Nat) (q : Nat) (unit : Nat) (par : Nat) : AnsKeeps s0 (execInstrComplete d q unit par s) := by
  unfold execInstrComplete
  repeat' first
    | with_reducible assumption
    | ((try lift_lets -underBinder); first | ((intro z; refine Keeps.cut (s0 := s0) (x := z) ?_ ?_) <;> [(dsimp -zeta only [z]); (intro hz; try clear_value z)]) | ((intro z; refine Keeps.cut (s0 := s0) (x := z.1) ?_ ?_) <;> [(dsimp -zeta only [z]); (intro hz; try clear_value z)]) | (intro z; have hz : z.arb = z.arb := rfl; clear hz) | (intro z; try clear_value z))
    | with_reducible apply State.count_keeps
    | with_reducible apply State.modCore_keeps
    | with_reducible apply State.abandonGroups_keeps
    | with_reducible apply State.raiseAll_keeps
    | with_reducible apply State.exhausted_keeps
    | with_reducible apply State.replays_keeps
    | with_reducible apply State.postList_keeps
    | with_reducible apply State.settlePause_keeps
    | with_reducible apply State.cycles_keeps
    | with_reducible apply State.passTo_keeps
    | with_reducible apply State.unitReplays_keeps
    | with_reducible apply State.endGroup_keeps
    | with_reducible apply State.release_keeps
    | with_reducible apply State.resultOf_keeps
    | with_reducible apply State.applyWrites_keeps
    | with_reducible apply State.statResult_keeps
    | ((with_reducible refine Keeps.foldl _ _ ?_ (fun z w hz => ?_)); (try beta_reduce))
    | with_reducible refine AnsKeeps.next ?_
    | split

theorem execSemWait_keeps {s0 s : State} (h : Keeps s0 s) (wh : Hdr) (y : FmtY) : AnsKeeps s0 (execSemWait wh y s) := by
  unfold execSemWait
  repeat' first
    | with_reducible assumption
    | ((try lift_lets -underBinder); first | ((intro z; refine Keeps.cut (s0 := s0) (x := z) ?_ ?_) <;> [(dsimp -zeta only [z]); (intro hz; try clear_value z)]) | ((intro z; refine Keeps.cut (s0 := s0) (x := z.1) ?_ ?_) <;> [(dsimp -zeta only [z]); (intro hz; try clear_value z)]) | (intro z; have hz : z.arb = z.arb := rfl; clear hz) | (intro z; try clear_value z))
    | with_reducible apply State.modCore_keeps
    | with_reducible apply State.nameSem_keeps
    | ((with_reducible refine State.issue_keeps ?_ _ _ _ _ _ (fun z hz => ?_)); (try beta_reduce))
    | with_reducible refine AnsKeeps.next ?_
    | with_reducible apply ResKeeps.done
    | with_reducible apply ResKeeps.stall
    | with_reducible apply ResKeeps.fault
    | split

theorem execSemWaitSatisfied_keeps {s0 s : State} (h : Keeps s0 s) (d : Nat) (q : Nat) : AnsKeeps s0 (execSemWaitSatisfied d q s) := by
  unfold execSemWaitSatisfied
  repeat' first
    | with_reducible assumption
    | with_reducible apply State.modCore_keeps
    | with_reducible apply State.retire_keeps
    | with_reducible refine AnsKeeps.next ?_
    | split

theorem execSemTry_keeps {s0 s : State} (h : Keeps s0 s) (wh : Hdr) (y : FmtY) : AnsKeeps s0 (execSemTry wh y s) := by
  unfold execSemTry
  repeat' first
    | with_reducible assumption
    | ((try lift_lets -underBinder); first | ((intro z; refine Keeps.cut (s0 := s0) (x := z) ?_ ?_) <;> [(dsimp -zeta only [z]); (intro hz; try clear_value z)]) | ((intro z; refine Keeps.cut (s0 := s0) (x := z.1) ?_ ?_) <;> [(dsimp -zeta only [z]); (intro hz; try clear_value z)]) | (intro z; have hz : z.arb = z.arb := rfl; clear hz) | (intro z; try clear_value z))
    | with_reducible apply State.modCore_keeps
    | with_reducible apply State.setP_keeps
    | with_reducible apply State.nameSem_keeps
    | ((with_reducible refine State.issue_keeps ?_ _ _ _ _ _ (fun z hz => ?_)); (try beta_reduce))
    | with_reducible refine AnsKeeps.next ?_
    | with_reducible apply ResKeeps.done
    | with_reducible apply ResKeeps.fault
    | split

theorem State.takeCredit_keeps {s0 s : State} (h : Keeps s0 s) (d : Nat) (n : Nat) (i : Nat) : Keeps s0 (State.takeCredit s d n i) := by
  unfold State.takeCredit
  repeat' first
    | with_reducible assumption
    | ((try lift_lets -underBinder); first | ((intro z; refine Keeps.cut (s0 := s0) (x := z) ?_ ?_) <;> [(dsimp -zeta only [z]); (intro hz; try clear_value z)]) | ((intro z; refine Keeps.cut (s0 := s0) (x := z.1) ?_ ?_) <;> [(dsimp -zeta only [z]); (intro hz; try clear_value z)]) | (intro z; have hz : z.arb = z.arb := rfl; clear hz) | (intro z; try clear_value z))
    | with_reducible apply State.modCore_keeps
    | with_reducible apply State.modChan_keeps
    | with_reducible apply State.credit_keeps
    | with_reducible apply State.modRun_keeps
    | with_reducible apply State.startRun_keeps
    | split

theorem execDescriptorStart_keeps {s0 s : State} (h : Keeps s0 s) (d : Nat) (n : Nat) : AnsKeeps s0 (execDescriptorStart d n s) := by
  unfold execDescriptorStart
  repeat' first
    | with_reducible assumption
    | ((try lift_lets -underBinder); first | ((intro z; refine Keeps.cut (s0 := s0) (x := z) ?_ ?_) <;> [(dsimp -zeta only [z]); (intro hz; try clear_value z)]) | ((intro z; refine Keeps.cut (s0 := s0) (x := z.1) ?_ ?_) <;> [(dsimp -zeta only [z]); (intro hz; try clear_value z)]) | (intro z; have hz : z.arb = z.arb := rfl; clear hz) | (intro z; try clear_value z))
    | with_reducible apply State.raiseFor_keeps
    | with_reducible apply State.modRun_keeps
    | with_reducible apply State.flushAll_keeps
    | with_reducible apply State.settlePause_keeps
    | with_reducible apply State.startRun_keeps
    | with_reducible apply State.takeCredit_keeps
    | with_reducible refine AnsKeeps.next ?_
    | split

theorem execStreamCreditTake_keeps {s0 s : State} (h : Keeps s0 s) (d : Nat) (n : Nat) : AnsKeeps s0 (execStreamCreditTake d n s) := by
  unfold execStreamCreditTake
  repeat' first
    | with_reducible assumption
    | with_reducible apply State.takeCredit_keeps
    | with_reducible refine AnsKeeps.next ?_
    | split

theorem State.entryRegs_keeps {s0 s : State} (h : Keeps s0 s) (d : Nat) (c : Nat) (e : WorkEntry) (frame : Nat) : Keeps s0 (State.entryRegs s d c e frame) := by
  unfold State.entryRegs
  repeat' first
    | with_reducible assumption
    | with_reducible apply State.count_keeps
    | with_reducible apply State.setS_keeps
    | split

theorem State.orphanTakes_keeps {s0 s : State} (h : Keeps s0 s) (p : Nat → Bool) : Keeps s0 (State.orphanTakes s p) := by
  unfold State.orphanTakes
  repeat' first
    | with_reducible assumption
    | split
    | with_reducible refine Keeps.lit ?_ rfl

theorem State.endParked_keeps {s0 s : State} (h : Keeps s0 s) (k : Nat) (x : Item) : Keeps s0 (State.endParked s k x) := by
  unfold State.endParked
  repeat' first
    | with_reducible assumption
    | ((try lift_lets -underBinder); first | ((intro z; refine Keeps.cut (s0 := s0) (x := z) ?_ ?_) <;> [(dsimp -zeta only [z]); (intro hz; try clear_value z)]) | ((intro z; refine Keeps.cut (s0 := s0) (x := z.1) ?_ ?_) <;> [(dsimp -zeta only [z]); (intro hz; try clear_value z)]) | (intro z; have hz : z.arb = z.arb := rfl; clear hz) | (intro z; try clear_value z))
    | with_reducible apply State.count_keeps
    | with_reducible apply State.modCore_keeps
    | with_reducible apply State.saturated_keeps
    | split

theorem State.enterItem_keeps {s0 s : State} (h : Keeps s0 s) (d : Nat) (rc : Nat) (k : Nat) : Keeps s0 (State.enterItem s d rc k) := by
  unfold State.enterItem
  repeat' first
    | with_reducible assumption
    | ((try lift_lets -underBinder); first | ((intro z; refine Keeps.cut (s0 := s0) (x := z) ?_ ?_) <;> [(dsimp -zeta only [z]); (intro hz; try clear_value z)]) | ((intro z; refine Keeps.cut (s0 := s0) (x := z.1) ?_ ?_) <;> [(dsimp -zeta only [z]); (intro hz; try clear_value z)]) | (intro z; have hz : z.arb = z.arb := rfl; clear hz) | (intro z; try clear_value z))
    | with_reducible apply State.modCore_keeps
    | with_reducible apply State.modItem_keeps
    | with_reducible apply State.takenFor_keeps
    | with_reducible apply State.entryRegs_keeps
    | with_reducible apply State.orphanTakes_keeps
    | with_reducible apply State.endParked_keeps
    | split

theorem execWorkItemStart_keeps {s0 s : State} (h : Keeps s0 s) (d : Nat) (c : Nat) (i : Nat) : AnsKeeps s0 (execWorkItemStart d c i s) := by
  unfold execWorkItemStart
  repeat' first
    | with_reducible assumption
    | ((try lift_lets -underBinder); first | ((intro z; refine Keeps.cut (s0 := s0) (x := z) ?_ ?_) <;> [(dsimp -zeta only [z]); (intro hz; try clear_value z)]) | ((intro z; refine Keeps.cut (s0 := s0) (x := z.1) ?_ ?_) <;> [(dsimp -zeta only [z]); (intro hz; try clear_value z)]) | (intro z; have hz : z.arb = z.arb := rfl; clear hz) | (intro z; try clear_value z))
    | with_reducible apply State.passTo_keeps
    | with_reducible apply State.enterItem_keeps
    | with_reducible apply State.overrun_keeps
    | with_reducible refine AnsKeeps.next ?_
    | split

theorem execItemResume_keeps {s0 s : State} (h : Keeps s0 s) (d : Nat) (c : Nat) (i : Nat) : AnsKeeps s0 (execItemResume d c i s) := by
  unfold execItemResume
  repeat' first
    | with_reducible assumption
    | ((try lift_lets -underBinder); first | ((intro z; refine Keeps.cut (s0 := s0) (x := z) ?_ ?_) <;> [(dsimp -zeta only [z]); (intro hz; try clear_value z)]) | ((intro z; refine Keeps.cut (s0 := s0) (x := z.1) ?_ ?_) <;> [(dsimp -zeta only [z]); (intro hz; try clear_value z)]) | (intro z; have hz : z.arb = z.arb := rfl; clear hz) | (intro z; try clear_value z))
    | with_reducible apply State.modCore_keeps
    | with_reducible apply State.modItem_keeps
    | with_reducible apply State.setS_keeps
    | with_reducible apply State.takenFor_keeps
    | with_reducible apply State.passTo_keeps
    | with_reducible apply State.entryRegs_keeps
    | ((with_reducible refine Keeps.foldl _ _ ?_ (fun z w hz => ?_)); (try beta_reduce))
    | with_reducible refine AnsKeeps.next ?_
    | split

theorem State.markPrior_keeps {s0 s : State} (h : Keeps s0 s) (k : Nat) : Keeps s0 (State.markPrior s k) := by
  unfold State.markPrior
  repeat' first
    | with_reducible assumption
    | split
    | with_reducible refine Keeps.lit ?_ rfl

theorem State.rerunItem_keeps {s0 s : State} (h : Keeps s0 s) (k : Nat) : Keeps s0 (State.rerunItem s k) := by
  unfold State.rerunItem
  repeat' first
    | with_reducible assumption
    | ((try lift_lets -underBinder); first | ((intro z; refine Keeps.cut (s0 := s0) (x := z) ?_ ?_) <;> [(dsimp -zeta only [z]); (intro hz; try clear_value z)]) | ((intro z; refine Keeps.cut (s0 := s0) (x := z.1) ?_ ?_) <;> [(dsimp -zeta only [z]); (intro hz; try clear_value z)]) | (intro z; have hz : z.arb = z.arb := rfl; clear hz) | (intro z; try clear_value z))
    | with_reducible apply State.modCore_keeps
    | with_reducible apply State.modItem_keeps
    | with_reducible apply State.markPrior_keeps
    | with_reducible apply State.overrun_keeps
    | split

theorem State.rerunNow_keeps {s0 s : State} (h : Keeps s0 s) (k : Nat) : Keeps s0 (State.rerunNow s k) := by
  unfold State.rerunNow
  repeat' first
    | with_reducible assumption
    | with_reducible apply State.rerunItem_keeps
    | split

theorem execWorkItemComplete_keeps {s0 s : State} (h : Keeps s0 s) (d : Nat) (c : Nat) (i : Nat) : AnsKeeps s0 (execWorkItemComplete d c i s) := by
  unfold execWorkItemComplete
  repeat' first
    | with_reducible assumption
    | ((try lift_lets -underBinder); first | ((intro z; refine Keeps.cut (s0 := s0) (x := z) ?_ ?_) <;> [(dsimp -zeta only [z]); (intro hz; try clear_value z)]) | ((intro z; refine Keeps.cut (s0 := s0) (x := z.1) ?_ ?_) <;> [(dsimp -zeta only [z]); (intro hz; try clear_value z)]) | (intro z; have hz : z.arb = z.arb := rfl; clear hz) | (intro z; try clear_value z))
    | with_reducible apply State.modCore_keeps
    | with_reducible apply State.modItem_keeps
    | with_reducible apply State.abandonGroups_keeps
    | with_reducible apply State.rerunNow_keeps
    | with_reducible refine AnsKeeps.next ?_
    | split

theorem State.markLate_keeps {s0 s : State} (h : Keeps s0 s) (k : Nat) (ctr : Nat) : Keeps s0 (State.markLate s k ctr) := by
  unfold State.markLate
  repeat' first
    | with_reducible assumption
    | split
    | with_reducible refine Keeps.lit ?_ rfl

theorem State.refuseWaiting_keeps {s0 s : State} (h : Keeps s0 s) (k : Nat) (ts : List Nat) : Keeps s0 (State.refuseWaiting s k ts) := by
  unfold State.refuseWaiting
  repeat' first
    | with_reducible assumption
    | ((try lift_lets -underBinder); first | ((intro z; refine Keeps.cut (s0 := s0) (x := z) ?_ ?_) <;> [(dsimp -zeta only [z]); (intro hz; try clear_value z)]) | ((intro z; refine Keeps.cut (s0 := s0) (x := z.1) ?_ ?_) <;> [(dsimp -zeta only [z]); (intro hz; try clear_value z)]) | (intro z; have hz : z.arb = z.arb := rfl; clear hz) | (intro z; try clear_value z))
    | with_reducible apply State.accum_keeps
    | with_reducible apply State.modCore_keeps
    | with_reducible apply State.setP_keeps
    | with_reducible apply State.raiseFor_keeps
    | split

theorem State.abandoned_keeps {s0 s : State} (h : Keeps s0 s) (d : Nat) (c : Nat) (ctr : Nat) (ts : List Nat) : Keeps s0 (State.abandoned s d c ctr ts) := by
  induction ts generalizing s  with
  | nil =>
    unfold State.abandoned
    repeat' first
      | with_reducible assumption
      | with_reducible apply State.raiseFor_keeps
      | split
  | cons x r ih =>
    unfold State.abandoned
    try dsimp -zeta only
    repeat' first
      | with_reducible assumption
      | with_reducible apply ih
      | with_reducible apply State.raiseFor_keeps
      | split

theorem State.returnLeases_keeps {s0 s : State} (h : Keeps s0 s) (k : Nat) (abandon : Bool) : Keeps s0 (State.returnLeases s k abandon) := by
  unfold State.returnLeases
  repeat' first
    | with_reducible assumption
    | ((try lift_lets -underBinder); first | ((intro z; refine Keeps.cut (s0 := s0) (x := z) ?_ ?_) <;> [(dsimp -zeta only [z]); (intro hz; try clear_value z)]) | ((intro z; refine Keeps.cut (s0 := s0) (x := z.1) ?_ ?_) <;> [(dsimp -zeta only [z]); (intro hz; try clear_value z)]) | (intro z; have hz : z.arb = z.arb := rfl; clear hz) | (intro z; try clear_value z))
    | with_reducible apply State.wr_keeps
    | with_reducible apply State.count_keeps
    | with_reducible apply State.modItem_keeps
    | with_reducible apply State.setRlist_keeps
    | with_reducible apply State.markLate_keeps
    | with_reducible apply State.refuseWaiting_keeps
    | with_reducible apply State.abandoned_keeps
    | ((with_reducible refine Keeps.foldl _ _ ?_ (fun z w hz => ?_)); (try beta_reduce))
    | split

theorem State.returnAll_keeps {s0 s : State} (h : Keeps s0 s) : Keeps s0 (State.returnAll s) := by
  unfold State.returnAll
  repeat' first
    | with_reducible assumption
    | with_reducible apply State.returnLeases_keeps
    | ((with_reducible refine Keeps.foldl _ _ ?_ (fun z w hz => ?_)); (try beta_reduce))
    | split

theorem State.abortItem_keeps {s0 s : State} (h : Keeps s0 s) (k : Nat) : Keeps s0 (State.abortItem s k) := by
  unfold State.abortItem
  repeat' first
    | with_reducible assumption
    | ((try lift_lets -underBinder); first | ((intro z; refine Keeps.cut (s0 := s0) (x := z) ?_ ?_) <;> [(dsimp -zeta only [z]); (intro hz; try clear_value z)]) | ((intro z; refine Keeps.cut (s0 := s0) (x := z.1) ?_ ?_) <;> [(dsimp -zeta only [z]); (intro hz; try clear_value z)]) | (intro z; have hz : z.arb = z.arb := rfl; clear hz) | (intro z; try clear_value z))
    | with_reducible apply State.modCore_keeps
    | with_reducible apply State.modItem_keeps
    | with_reducible apply State.abandonGroups_keeps
    | with_reducible apply State.returnLeases_keeps
    | split

theorem State.abortAll_keeps {s0 s : State} (h : Keeps s0 s) : Keeps s0 (State.abortAll s) := by
  unfold State.abortAll
  repeat' first
    | with_reducible assumption
    | with_reducible apply State.abortItem_keeps
    | ((with_reducible refine Keeps.foldl _ _ ?_ (fun z w hz => ?_)); (try beta_reduce))
    | split

theorem State.addCause_keeps {s0 s : State} (h : Keeps s0 s) (c : BitVec 5) : Keeps s0 (State.addCause s c) := by
  unfold State.addCause
  repeat' first
    | with_reducible assumption
    | ((try lift_lets -underBinder); first | ((intro z; refine Keeps.cut (s0 := s0) (x := z) ?_ ?_) <;> [(dsimp -zeta only [z]); (intro hz; try clear_value z)]) | ((intro z; refine Keeps.cut (s0 := s0) (x := z.1) ?_ ?_) <;> [(dsimp -zeta only [z]); (intro hz; try clear_value z)]) | (intro z; have hz : z.arb = z.arb := rfl; clear hz) | (intro z; try clear_value z))
    | split
    | with_reducible refine Keeps.lit ?_ rfl

theorem State.overrun_keeps {s0 s : State} (h : Keeps s0 s) (k : Nat) (x : Item) : Keeps s0 (State.overrun s k x) := by
  unfold State.overrun
  repeat' first
    | with_reducible assumption
    | ((try lift_lets -underBinder); first | ((intro z; refine Keeps.cut (s0 := s0) (x := z) ?_ ?_) <;> [(dsimp -zeta only [z]); (intro hz; try clear_value z)]) | ((intro z; refine Keeps.cut (s0 := s0) (x := z.1) ?_ ?_) <;> [(dsimp -zeta only [z]); (intro hz; try clear_value z)]) | (intro z; have hz : z.arb = z.arb := rfl; clear hz) | (intro z; try clear_value z))
    | with_reducible apply State.count_keeps
    | with_reducible apply State.modItem_keeps
    | with_reducible apply State.raiseFor_keeps
    | with_reducible apply State.addCause_keeps
    | split

theorem State.overrunAll_keeps {s0 s : State} (h : Keeps s0 s) : Keeps s0 (State.overrunAll s) := by
  unfold State.overrunAll
  repeat' first
    | with_reducible assumption
    | with_reducible apply State.overrun_keeps
    | ((with_reducible refine Keeps.foldl _ _ ?_ (fun z w hz => ?_)); (try beta_reduce))
    | split

theorem State.takeBack_keeps {s0 s : State} (h : Keeps s0 s) (k : Nat) (noList : List Nat) : Keeps s0 (State.takeBack s k noList) := by
  unfold State.takeBack
  repeat' first
    | with_reducible assumption
    | ((try lift_lets -underBinder); first | ((intro z; refine Keeps.cut (s0 := s0) (x := z) ?_ ?_) <;> [(dsimp -zeta only [z]); (intro hz; try clear_value z)]) | ((intro z; refine Keeps.cut (s0 := s0) (x := z.1) ?_ ?_) <;> [(dsimp -zeta only [z]); (intro hz; try clear_value z)]) | (intro z; have hz : z.arb = z.arb := rfl; clear hz) | (intro z; try clear_value z))
    | with_reducible apply State.modItem_keeps
    | with_reducible apply State.modRegion_keeps
    | with_reducible apply State.setRlist_keeps
    | ((with_reducible refine Keeps.foldl _ _ ?_ (fun z w hz => ?_)); (try beta_reduce))
    | split

theorem State.takeBackAll_keeps {s0 s : State} (h : Keeps s0 s) (noList : List Nat) : Keeps s0 (State.takeBackAll s noList) := by
  unfold State.takeBackAll
  repeat' first
    | with_reducible assumption
    | with_reducible apply State.takeBack_keeps
    | ((with_reducible refine Keeps.foldl _ _ ?_ (fun z w hz => ?_)); (try beta_reduce))
    | split

theorem State.rerunAll_keeps {s0 s : State} (h : Keeps s0 s) : Keeps s0 (State.rerunAll s) := by
  unfold State.rerunAll
  repeat' first
    | with_reducible assumption
    | with_reducible apply State.rerunItem_keeps
    | ((with_reducible refine Keeps.foldl _ _ ?_ (fun z w hz => ?_)); (try beta_reduce))
    | split

theorem State.fenceCore_keeps {s0 s : State} (h : Keeps s0 s) (d : Nat) (c : Nat) : Keeps s0 (State.fenceCore s d c) := by
  unfold State.fenceCore
  repeat' first
    | with_reducible assumption
    | ((try lift_lets -underBinder); first | ((intro z; refine Keeps.cut (s0 := s0) (x := z) ?_ ?_) <;> [(dsimp -zeta only [z]); (intro hz; try clear_value z)]) | ((intro z; refine Keeps.cut (s0 := s0) (x := z.1) ?_ ?_) <;> [(dsimp -zeta only [z]); (intro hz; try clear_value z)]) | (intro z; have hz : z.arb = z.arb := rfl; clear hz) | (intro z; try clear_value z))
    | with_reducible apply State.modCore_keeps
    | with_reducible apply State.haltCore_keeps
    | with_reducible apply State.fenceFound_keeps
    | with_reducible apply State.raise_keeps
    | split

theorem State.releaseUnit_keeps {s0 s : State} (h : Keeps s0 s) (d : Nat) (e : Ev) : Keeps s0 (State.releaseUnit s d e) := by
  unfold State.releaseUnit
  repeat' first
    | with_reducible assumption
    | ((try lift_lets -underBinder); first | ((intro z; refine Keeps.cut (s0 := s0) (x := z) ?_ ?_) <;> [(dsimp -zeta only [z]); (intro hz; try clear_value z)]) | ((intro z; refine Keeps.cut (s0 := s0) (x := z.1) ?_ ?_) <;> [(dsimp -zeta only [z]); (intro hz; try clear_value z)]) | (intro z; have hz : z.arb = z.arb := rfl; clear hz) | (intro z; try clear_value z))
    | with_reducible apply State.modCore_keeps
    | with_reducible apply State.modChan_keeps
    | with_reducible apply State.pumpAll_keeps
    | split

theorem State.admitHeld_keeps {s0 s : State} (h : Keeps s0 s) (d : Nat) : Keeps s0 (State.admitHeld s d) := by
  unfold State.admitHeld
  repeat' first
    | with_reducible assumption
    | with_reducible apply State.modDie_keeps
    | with_reducible apply State.enterError_keeps
    | with_reducible apply State.releaseUnit_keeps
    | split

theorem State.closeEntry_keeps {s0 s : State} (h : Keeps s0 s) (d : Nat) (i : Nat) : Keeps s0 (State.closeEntry s d i) := by
  unfold State.closeEntry
  repeat' first
    | with_reducible assumption
    | ((try lift_lets -underBinder); first | ((intro z; refine Keeps.cut (s0 := s0) (x := z) ?_ ?_) <;> [(dsimp -zeta only [z]); (intro hz; try clear_value z)]) | ((intro z; refine Keeps.cut (s0 := s0) (x := z.1) ?_ ?_) <;> [(dsimp -zeta only [z]); (intro hz; try clear_value z)]) | (intro z; have hz : z.arb = z.arb := rfl; clear hz) | (intro z; try clear_value z))
    | with_reducible apply State.wr_keeps
    | with_reducible apply State.modCore_keeps
    | with_reducible apply State.fenceCore_keeps
    | with_reducible apply State.admitHeld_keeps
    | split

theorem State.ledgerOrder_keeps {s0 s : State} (h : Keeps s0 s) (src : Src) (d entry : Nat) (need : List Nat) (act : State → State)
    (hact : ∀ t, Keeps s0 t → Keeps s0 (act t)) : Keeps s0 (s.ledgerOrder src d entry need act) := by
  unfold State.ledgerOrder
  split
  · exact hact s h
  · exact State.busyWrite_keeps h _ _ _

theorem State.ledgerTake_keeps {s0 s : State} (h : Keeps s0 s) (src : Src) (d : Nat) (e : Nat) : Keeps s0 (State.ledgerTake s src d e) := by
  unfold State.ledgerTake
  repeat' first
    | with_reducible assumption
    | with_reducible apply State.wr_keeps
    | ((with_reducible refine State.ledgerOrder_keeps ?_ _ _ _ _ _ (fun z hz => ?_)); (try beta_reduce))
    | split

theorem State.ledgerDone_keeps {s0 s : State} (h : Keeps s0 s) (src : Src) (d : Nat) (e : Nat) : Keeps s0 (State.ledgerDone s src d e) := by
  unfold State.ledgerDone
  repeat' first
    | with_reducible assumption
    | with_reducible apply State.wr_keeps
    | ((with_reducible refine State.ledgerOrder_keeps ?_ _ _ _ _ _ (fun z hz => ?_)); (try beta_reduce))
    | split

theorem State.ledgerClose_keeps {s0 s : State} (h : Keeps s0 s) (src : Src) (d : Nat) (e : Nat) : Keeps s0 (State.ledgerClose s src d e) := by
  unfold State.ledgerClose
  repeat' first
    | with_reducible assumption
    | with_reducible apply State.closeEntry_keeps
    | ((with_reducible refine State.ledgerOrder_keeps ?_ _ _ _ _ _ (fun z hz => ?_)); (try beta_reduce))
    | split

theorem execLedgerTake_keeps {s0 s : State} (h : Keeps s0 s) (src : Src) (d : Nat) (entry : BitVec 6) : AnsKeeps s0 (execLedgerTake src d entry s) := by
  unfold execLedgerTake
  repeat' first
    | with_reducible assumption
    | with_reducible apply State.ledgerTake_keeps
    | ((with_reducible refine State.accessWrite_keeps ?_ _ _ _ _ (fun z hz => ?_)); (try beta_reduce))
    | with_reducible refine AnsKeeps.next ?_
    | split

theorem execLedgerDone_keeps {s0 s : State} (h : Keeps s0 s) (src : Src) (d : Nat) (entry : BitVec 6) : AnsKeeps s0 (execLedgerDone src d entry s) := by
  unfold execLedgerDone
  repeat' first
    | with_reducible assumption
    | with_reducible apply State.ledgerDone_keeps
    | ((with_reducible refine State.accessWrite_keeps ?_ _ _ _ _ (fun z hz => ?_)); (try beta_reduce))
    | with_reducible refine AnsKeeps.next ?_
    | split

theorem execLedgerClose_keeps {s0 s : State} (h : Keeps s0 s) (src : Src) (d : Nat) (entry : BitVec 6) : AnsKeeps s0 (execLedgerClose src d entry s) := by
  unfold execLedgerClose
  repeat' first
    | with_reducible assumption
    | with_reducible apply State.ledgerClose_keeps
    | ((with_reducible refine State.accessWrite_keeps ?_ _ _ _ _ (fun z hz => ?_)); (try beta_reduce))
    | with_reducible refine AnsKeeps.next ?_
    | split

theorem State.unitMended_keeps {s0 s : State} (h : Keeps s0 s) (d : Nat) (u : Nat) (i : Nat) : Keeps s0 (State.unitMended s d u i) := by
  unfold State.unitMended
  repeat' first
    | with_reducible assumption
    | with_reducible apply State.wr_keeps
    | ((with_reducible refine Keeps.foldl _ _ ?_ (fun z w hz => ?_)); (try beta_reduce))
    | split

theorem State.closeAtTick_keeps {s0 s : State} (h : Keeps s0 s) (d : Nat) : Keeps s0 (State.closeAtTick s d) := by
  unfold State.closeAtTick
  repeat' first
    | with_reducible assumption
    | with_reducible apply State.closeEntry_keeps
    | ((with_reducible refine Keeps.foldl _ _ ?_ (fun z w hz => ?_)); (try beta_reduce))
    | split

theorem State.pendWrite_keeps {s0 s : State} (h : Keeps s0 s) (r : RegId) (p : PendW) : Keeps s0 (State.pendWrite s r p) := by
  unfold State.pendWrite
  repeat' first
    | with_reducible assumption
    | split
    | with_reducible refine Keeps.lit ?_ rfl

theorem State.pendField_keeps {s0 s : State} (h : Keeps s0 s) (f : FRef) (v : Nat) : Keeps s0 (State.pendField s f v) := by
  unfold State.pendField
  repeat' first
    | with_reducible assumption
    | with_reducible apply State.pendWrite_keeps
    | split

theorem State.armPending_keeps {s0 s : State} (h : Keeps s0 s) : Keeps s0 (State.armPending s) := by
  unfold State.armPending
  repeat' first
    | with_reducible assumption
    | ((with_reducible refine Keeps.foldl _ _ ?_ (fun z w hz => ?_)); (try beta_reduce))
    | split
    | with_reducible refine Keeps.lit ?_ rfl

theorem State.takeArmed_keeps {s0 s : State} (h : Keeps s0 s) (r : RegId) : Keeps s0 (State.takeArmed s r) := by
  unfold State.takeArmed
  repeat' first
    | with_reducible assumption
    | with_reducible apply State.setWord_keeps
    | split

theorem State.latchWin_keeps {s0 s : State} (h : Keeps s0 s) (d : Nat) (c : Nat) (w : Nat) : Keeps s0 (State.latchWin s d c w) := by
  unfold State.latchWin
  repeat' first
    | with_reducible assumption
    | ((try lift_lets -underBinder); first | ((intro z; refine Keeps.cut (s0 := s0) (x := z) ?_ ?_) <;> [(dsimp -zeta only [z]); (intro hz; try clear_value z)]) | ((intro z; refine Keeps.cut (s0 := s0) (x := z.1) ?_ ?_) <;> [(dsimp -zeta only [z]); (intro hz; try clear_value z)]) | (intro z; have hz : z.arb = z.arb := rfl; clear hz) | (intro z; try clear_value z))
    | with_reducible apply State.raise_keeps
    | with_reducible apply State.takeArmed_keeps
    | split

theorem State.latchCtr_keeps {s0 s : State} (h : Keeps s0 s) (d : Nat) (k : Nat) : Keeps s0 (State.latchCtr s d k) := by
  unfold State.latchCtr
  repeat' first
    | with_reducible assumption
    | ((try lift_lets -underBinder); first | ((intro z; refine Keeps.cut (s0 := s0) (x := z) ?_ ?_) <;> [(dsimp -zeta only [z]); (intro hz; try clear_value z)]) | ((intro z; refine Keeps.cut (s0 := s0) (x := z.1) ?_ ?_) <;> [(dsimp -zeta only [z]); (intro hz; try clear_value z)]) | (intro z; have hz : z.arb = z.arb := rfl; clear hz) | (intro z; try clear_value z))
    | with_reducible apply State.raise_keeps
    | with_reducible apply State.takeArmed_keeps
    | split
    | with_reducible refine Keeps.lit ?_ rfl

theorem State.latchArb_keeps {s0 s : State} (h : Keeps s0 s) (d : Nat) : Keeps s0 (State.latchArb s d) := by
  unfold State.latchArb
  repeat' first
    | with_reducible assumption
    | ((try lift_lets -underBinder); first | ((intro z; refine Keeps.cut (s0 := s0) (x := z) ?_ ?_) <;> [(dsimp -zeta only [z]); (intro hz; try clear_value z)]) | ((intro z; refine Keeps.cut (s0 := s0) (x := z.1) ?_ ?_) <;> [(dsimp -zeta only [z]); (intro hz; try clear_value z)]) | (intro z; have hz : z.arb = z.arb := rfl; clear hz) | (intro z; try clear_value z))
    | with_reducible apply State.raise_keeps
    | with_reducible apply State.takeArmed_keeps
    | split

theorem State.optConfig_keeps {s0 s : State} (h : Keeps s0 s) (d : Nat) (r : RegId) (v : Word) : Keeps s0 (State.optConfig s d r v) := by
  unfold State.optConfig
  repeat' first
    | with_reducible assumption
    | with_reducible apply State.raise_keeps
    | split

theorem State.latchOptCfg_keeps {s0 s : State} (h : Keeps s0 s) (d : Nat) : Keeps s0 (State.latchOptCfg s d) := by
  unfold State.latchOptCfg
  repeat' first
    | with_reducible assumption
    | ((try lift_lets -underBinder); first | ((intro z; refine Keeps.cut (s0 := s0) (x := z) ?_ ?_) <;> [(dsimp -zeta only [z]); (intro hz; try clear_value z)]) | ((intro z; refine Keeps.cut (s0 := s0) (x := z.1) ?_ ?_) <;> [(dsimp -zeta only [z]); (intro hz; try clear_value z)]) | (intro z; have hz : z.arb = z.arb := rfl; clear hz) | (intro z; try clear_value z))
    | with_reducible apply State.wr_keeps
    | with_reducible apply State.optConfig_keeps
    | split

theorem State.latchPred_keeps {s0 s : State} (h : Keeps s0 s) (d : Nat) : Keeps s0 (State.latchPred s d) := by
  unfold State.latchPred
  repeat' first
    | with_reducible assumption
    | ((try lift_lets -underBinder); first | ((intro z; refine Keeps.cut (s0 := s0) (x := z) ?_ ?_) <;> [(dsimp -zeta only [z]); (intro hz; try clear_value z)]) | ((intro z; refine Keeps.cut (s0 := s0) (x := z.1) ?_ ?_) <;> [(dsimp -zeta only [z]); (intro hz; try clear_value z)]) | (intro z; have hz : z.arb = z.arb := rfl; clear hz) | (intro z; try clear_value z))
    | with_reducible apply State.count_keeps
    | with_reducible apply State.raise_keeps
    | with_reducible apply State.takeArmed_keeps
    | split

theorem State.latchRetire_keeps {s0 s : State} (h : Keeps s0 s) (all : Assoc PendW) (d : Nat) (k : Nat) : Keeps s0 (State.latchRetire s all d k) := by
  unfold State.latchRetire
  repeat' first
    | with_reducible assumption
    | ((try lift_lets -underBinder); first | ((intro z; refine Keeps.cut (s0 := s0) (x := z) ?_ ?_) <;> [(dsimp -zeta only [z]); (intro hz; try clear_value z)]) | ((intro z; refine Keeps.cut (s0 := s0) (x := z.1) ?_ ?_) <;> [(dsimp -zeta only [z]); (intro hz; try clear_value z)]) | (intro z; have hz : z.arb = z.arb := rfl; clear hz) | (intro z; try clear_value z))
    | with_reducible apply State.zeroRange_keeps
    | with_reducible apply State.takeArmed_keeps
    | with_reducible apply State.optConfig_keeps
    | split

theorem State.bringPinned_keeps {s0 s : State} (h : Keeps s0 s) (d : Nat) (powered : List Nat) (r : DRegion) : Keeps s0 (State.bringPinned s d powered r) := by
  unfold State.bringPinned
  repeat' first
    | with_reducible assumption
    | ((try lift_lets -underBinder); first | ((intro z; refine Keeps.cut (s0 := s0) (x := z) ?_ ?_) <;> [(dsimp -zeta only [z]); (intro hz; try clear_value z)]) | ((intro z; refine Keeps.cut (s0 := s0) (x := z.1) ?_ ?_) <;> [(dsimp -zeta only [z]); (intro hz; try clear_value z)]) | (intro z; have hz : z.arb = z.arb := rfl; clear hz) | (intro z; try clear_value z))
    | with_reducible apply State.count_keeps
    | with_reducible apply State.zeroRange_keeps
    | with_reducible apply State.forget_keeps
    | ((with_reducible refine Keeps.foldl _ _ ?_ (fun z w hz => ?_)); (try beta_reduce))
    | split

theorem State.backLine_keeps {s0 s : State} (h : Keeps s0 s) (d : Nat) (a : Nat) : Keeps s0 (State.backLine s d a) := by
  unfold State.backLine
  repeat' first
    | with_reducible assumption
    | with_reducible apply State.modDie_keeps
    | with_reducible apply State.holdTag_keeps
    | split

theorem State.repartition_keeps {s0 s : State} (h : Keeps s0 s) (d : Nat) (old : List DRegion) (new : List DRegion) : Keeps s0 (State.repartition s d old new) := by
  unfold State.repartition
  repeat' first
    | with_reducible assumption
    | ((try lift_lets -underBinder); first | ((intro z; refine Keeps.cut (s0 := s0) (x := z) ?_ ?_) <;> [(dsimp -zeta only [z]); (intro hz; try clear_value z)]) | ((intro z; refine Keeps.cut (s0 := s0) (x := z.1) ?_ ?_) <;> [(dsimp -zeta only [z]); (intro hz; try clear_value z)]) | (intro z; have hz : z.arb = z.arb := rfl; clear hz) | (intro z; try clear_value z))
    | with_reducible apply State.wr_keeps
    | with_reducible apply State.modDie_keeps
    | with_reducible apply State.zeroRange_keeps
    | with_reducible apply State.bringPinned_keeps
    | with_reducible apply State.backLine_keeps
    | ((with_reducible refine Keeps.foldl _ _ ?_ (fun z w hz => ?_)); (try beta_reduce))
    | split

theorem State.latchDepot_keeps {s0 s : State} (h : Keeps s0 s) (d : Nat) : Keeps s0 (State.latchDepot s d) := by
  unfold State.latchDepot
  repeat' first
    | with_reducible assumption
    | ((try lift_lets -underBinder); first | ((intro z; refine Keeps.cut (s0 := s0) (x := z) ?_ ?_) <;> [(dsimp -zeta only [z]); (intro hz; try clear_value z)]) | ((intro z; refine Keeps.cut (s0 := s0) (x := z.1) ?_ ?_) <;> [(dsimp -zeta only [z]); (intro hz; try clear_value z)]) | (intro z; have hz : z.arb = z.arb := rfl; clear hz) | (intro z; try clear_value z))
    | with_reducible apply State.raise_keeps
    | with_reducible apply State.takeArmed_keeps
    | with_reducible apply State.repartition_keeps
    | ((with_reducible refine Keeps.foldl _ _ ?_ (fun z w hz => ?_)); (try beta_reduce))
    | split

theorem State.latchOne_keeps {s0 s : State} (h : Keeps s0 s) (all : Assoc PendW) (r : RegId) : Keeps s0 (State.latchOne s all r) := by
  unfold State.latchOne
  repeat' first
    | with_reducible assumption
    | with_reducible apply State.takeArmed_keeps
    | with_reducible apply State.latchWin_keeps
    | with_reducible apply State.latchCtr_keeps
    | with_reducible apply State.latchArb_keeps
    | with_reducible apply State.latchOptCfg_keeps
    | with_reducible apply State.latchPred_keeps
    | with_reducible apply State.latchRetire_keeps
    | with_reducible apply State.latchDepot_keeps
    | split

theorem State.latchAll_keeps {s0 s : State} (h : Keeps s0 s) : Keeps s0 (State.latchAll s) := by
  unfold State.latchAll
  repeat' first
    | with_reducible assumption
    | ((try lift_lets -underBinder); first | ((intro z; refine Keeps.cut (s0 := s0) (x := z) ?_ ?_) <;> [(dsimp -zeta only [z]); (intro hz; try clear_value z)]) | ((intro z; refine Keeps.cut (s0 := s0) (x := z.1) ?_ ?_) <;> [(dsimp -zeta only [z]); (intro hz; try clear_value z)]) | (intro z; have hz : z.arb = z.arb := rfl; clear hz) | (intro z; try clear_value z))
    | with_reducible apply State.latchOne_keeps
    | ((with_reducible refine Keeps.foldl _ _ ?_ (fun z w hz => ?_)); (try beta_reduce))
    | split
    | with_reducible refine Keeps.lit ?_ rfl

theorem State.setVersion_keeps {s0 s : State} (h : Keeps s0 s) (d : Nat) (e : Nat) (live : Bool) (flip : Bool) (pend : Bool) (step : Nat) : Keeps s0 (State.setVersion s d e live flip pend step) := by
  unfold State.setVersion
  repeat' first
    | with_reducible assumption
    | with_reducible apply State.setBytes_keeps
    | with_reducible apply State.flip_keeps
    | split

theorem State.settleRegions_keeps {s0 s : State} (h : Keeps s0 s) : Keeps s0 (State.settleRegions s) := by
  unfold State.settleRegions
  repeat' first
    | with_reducible assumption
    | split
    | with_reducible refine Keeps.lit ?_ rfl

theorem State.flip_keeps {s0 s : State} (h : Keeps s0 s) (r : Nat) : Keeps s0 (State.flip s r) := by
  unfold State.flip
  repeat' first
    | with_reducible assumption
    | with_reducible apply State.modRegion_keeps
    | split

theorem State.commitRegion_keeps {s0 s : State} (h : Keeps s0 s) (r : Nat) (x : Region) : Keeps s0 (State.commitRegion s r x) := by
  unfold State.commitRegion
  repeat' first
    | with_reducible assumption
    | ((try lift_lets -underBinder); first | ((intro z; refine Keeps.cut (s0 := s0) (x := z) ?_ ?_) <;> [(dsimp -zeta only [z]); (intro hz; try clear_value z)]) | ((intro z; refine Keeps.cut (s0 := s0) (x := z.1) ?_ ?_) <;> [(dsimp -zeta only [z]); (intro hz; try clear_value z)]) | (intro z; have hz : z.arb = z.arb := rfl; clear hz) | (intro z; try clear_value z))
    | with_reducible apply State.modDie_keeps
    | with_reducible apply State.modRegion_keeps
    | with_reducible apply State.raise_keeps
    | with_reducible apply State.setVersion_keeps
    | with_reducible apply State.flip_keeps
    | split

theorem State.commitAll_keeps {s0 s : State} (h : Keeps s0 s) : Keeps s0 (State.commitAll s) := by
  unfold State.commitAll
  repeat' first
    | with_reducible assumption
    | with_reducible apply State.commitRegion_keeps
    | ((with_reducible refine Keeps.foldl _ _ ?_ (fun z w hz => ?_)); (try beta_reduce))
    | split

theorem State.pendShards_keeps {s0 s : State} (h : Keeps s0 s) (d : Nat) : Keeps s0 (s.pendShards d) := by
  unfold State.pendShards
  split
  · exact h
  · refine State.wr_keeps (Keeps.foldl _ _ h fun t e ht => ?_) _ _
    beta_reduce
    generalize t.region (t.shardField d e 0 2) = x
    dsimp only
    split
    · exact State.setVersion_keeps ht _ _ _ _ _ _
    · exact ht

theorem State.setHeld_keeps {s0 s : State} (h : Keeps s0 s) (d : Nat) : Keeps s0 (State.setHeld s d) := by
  unfold State.setHeld
  repeat' first
    | with_reducible assumption
    | with_reducible apply State.wr_keeps
    | split

theorem State.normCheck_keeps {s0 s : State} (h : Keeps s0 s) (d : Nat) : Keeps s0 (State.normCheck s d) := by
  unfold State.normCheck
  repeat' first
    | with_reducible assumption
    | ((try lift_lets -underBinder); first | ((intro z; refine Keeps.cut (s0 := s0) (x := z) ?_ ?_) <;> [(dsimp -zeta only [z]); (intro hz; try clear_value z)]) | ((intro z; refine Keeps.cut (s0 := s0) (x := z.1) ?_ ?_) <;> [(dsimp -zeta only [z]); (intro hz; try clear_value z)]) | (intro z; have hz : z.arb = z.arb := rfl; clear hz) | (intro z; try clear_value z))
    | with_reducible apply State.wr_keeps
    | with_reducible apply State.count_keeps
    | with_reducible apply State.modDie_keeps
    | with_reducible apply State.modRegion_keeps
    | with_reducible apply State.raise_keeps
    | with_reducible apply State.optConfig_keeps
    | with_reducible apply State.setVersion_keeps
    | ((with_reducible refine Keeps.foldl _ _ ?_ (fun z w hz => ?_)); (try beta_reduce))
    | split

theorem State.refreshLive_keeps {s0 s : State} (h : Keeps s0 s) (d : Nat) : Keeps s0 (State.refreshLive s d) := by
  unfold State.refreshLive
  repeat' first
    | with_reducible assumption
    | ((try lift_lets -underBinder); first | ((intro z; refine Keeps.cut (s0 := s0) (x := z) ?_ ?_) <;> [(dsimp -zeta only [z]); (intro hz; try clear_value z)]) | ((intro z; refine Keeps.cut (s0 := s0) (x := z.1) ?_ ?_) <;> [(dsimp -zeta only [z]); (intro hz; try clear_value z)]) | (intro z; have hz : z.arb = z.arb := rfl; clear hz) | (intro z; try clear_value z))
    | with_reducible apply State.setVersion_keeps
    | ((with_reducible refine Keeps.foldl _ _ ?_ (fun z w hz => ?_)); (try beta_reduce))
    | split

theorem State.restoreShard_keeps {s0 s : State} (h : Keeps s0 s) (x : Nat × Nat × Bool) : Keeps s0 (State.restoreShard s x) := by
  unfold State.restoreShard
  repeat' first
    | with_reducible assumption
    | ((try lift_lets -underBinder); first | ((intro z; refine Keeps.cut (s0 := s0) (x := z) ?_ ?_) <;> [(dsimp -zeta only [z]); (intro hz; try clear_value z)]) | ((intro z; refine Keeps.cut (s0 := s0) (x := z.1) ?_ ?_) <;> [(dsimp -zeta only [z]); (intro hz; try clear_value z)]) | (intro z; have hz : z.arb = z.arb := rfl; clear hz) | (intro z; try clear_value z))
    | with_reducible apply State.wr_keeps
    | with_reducible apply State.setVersion_keeps
    | split

theorem State.rollback_keeps {s0 s : State} (h : Keeps s0 s) (d : Nat) : Keeps s0 (State.rollback s d) := by
  unfold State.rollback
  repeat' first
    | with_reducible assumption
    | ((try lift_lets -underBinder); first | ((intro z; refine Keeps.cut (s0 := s0) (x := z) ?_ ?_) <;> [(dsimp -zeta only [z]); (intro hz; try clear_value z)]) | ((intro z; refine Keeps.cut (s0 := s0) (x := z.1) ?_ ?_) <;> [(dsimp -zeta only [z]); (intro hz; try clear_value z)]) | (intro z; have hz : z.arb = z.arb := rfl; clear hz) | (intro z; try clear_value z))
    | with_reducible apply State.wr_keeps
    | with_reducible apply State.modDie_keeps
    | with_reducible apply State.modRegion_keeps
    | with_reducible apply State.raise_keeps
    | with_reducible apply State.setVersion_keeps
    | ((with_reducible refine Keeps.foldl _ _ ?_ (fun z w hz => ?_)); (try beta_reduce))
    | split

theorem State.windowStep_keeps {s0 s : State} (h : Keeps s0 s) (d : Nat) : Keeps s0 (State.windowStep s d) := by
  unfold State.windowStep
  repeat' first
    | with_reducible assumption
    | ((try lift_lets -underBinder); first | ((intro z; refine Keeps.cut (s0 := s0) (x := z) ?_ ?_) <;> [(dsimp -zeta only [z]); (intro hz; try clear_value z)]) | ((intro z; refine Keeps.cut (s0 := s0) (x := z.1) ?_ ?_) <;> [(dsimp -zeta only [z]); (intro hz; try clear_value z)]) | (intro z; have hz : z.arb = z.arb := rfl; clear hz) | (intro z; try clear_value z))
    | with_reducible apply State.wr_keeps
    | with_reducible apply State.modDie_keeps
    | split

theorem execOptArm_keeps {s0 s : State} (h : Keeps s0 s) (src : Src) (d : Nat) (normsq : BitVec 32) : AnsKeeps s0 (execOptArm src d normsq s) := by
  unfold execOptArm
  repeat' first
    | with_reducible assumption
    | with_reducible apply State.pendWrite_keeps
    | ((with_reducible refine State.accessWrite_keeps ?_ _ _ _ _ (fun z hz => ?_)); (try beta_reduce))
    | with_reducible refine AnsKeeps.next ?_
    | split

theorem execOptClose_keeps {s0 s : State} (h : Keeps s0 s) (src : Src) (d : Nat) : AnsKeeps s0 (execOptClose src d s) := by
  unfold execOptClose
  repeat' first
    | with_reducible assumption
    | with_reducible apply State.pendField_keeps
    | ((with_reducible refine State.accessWrite_keeps ?_ _ _ _ _ (fun z hz => ?_)); (try beta_reduce))
    | with_reducible refine AnsKeeps.next ?_
    | split

theorem execOptHold_keeps {s0 s : State} (h : Keeps s0 s) (src : Src) (d : Nat) (hold : Bool) : AnsKeeps s0 (execOptHold src d hold s) := by
  unfold execOptHold
  repeat' first
    | with_reducible assumption
    | with_reducible apply State.pendField_keeps
    | ((with_reducible refine State.accessWrite_keeps ?_ _ _ _ _ (fun z hz => ?_)); (try beta_reduce))
    | with_reducible refine AnsKeeps.next ?_
    | split

theorem State.extendRaw_keeps {s0 s : State} (h : Keeps s0 s) (i : Nat) (v : List Byte) : Keeps s0 (s.extendRaw i v) := Keeps.lit h rfl

theorem State.extend_keeps {s0 s : State} (h : Keeps s0 s) (i : Nat) (item : List Byte) : Keeps s0 (State.extend s i item) := by
  unfold State.extend
  repeat' first
    | with_reducible assumption
    | with_reducible apply State.extendRaw_keeps
    | split

theorem State.setLine_keeps {s0 s : State} (h : Keeps s0 s) : Keeps s0 (State.setLine s) := by
  unfold State.setLine
  repeat' first
    | with_reducible assumption
    | with_reducible apply State.wr_keeps
    | split

theorem State.ackTo_keeps {s0 s : State} (h : Keeps s0 s) (d : Nat) (l : Nat) (ack : BitVec 12) : Keeps s0 (State.ackTo s d l ack) := by
  unfold State.ackTo
  repeat' first
    | with_reducible assumption
    | ((try lift_lets -underBinder); first | ((intro z; refine Keeps.cut (s0 := s0) (x := z) ?_ ?_) <;> [(dsimp -zeta only [z]); (intro hz; try clear_value z)]) | ((intro z; refine Keeps.cut (s0 := s0) (x := z.1) ?_ ?_) <;> [(dsimp -zeta only [z]); (intro hz; try clear_value z)]) | (intro z; have hz : z.arb = z.arb := rfl; clear hz) | (intro z; try clear_value z))
    | with_reducible apply State.modLink_keeps
    | with_reducible apply State.replays_keeps
    | split

theorem State.creditsIn_keeps {s0 s : State} (h : Keeps s0 s) (d : Nat) (l : Nat) (n : Nat) (tag : BitVec 16) : Keeps s0 (State.creditsIn s d l n tag) := by
  unfold State.creditsIn
  repeat' first
    | with_reducible assumption
    | with_reducible apply State.modLink_keeps
    | split

theorem State.flitHead_keeps {s0 s : State} (h : Keeps s0 s) (d : Nat) (l : Nat) (f : Flit) : Keeps s0 (State.flitHead s d l f) := by
  unfold State.flitHead
  repeat' first
    | with_reducible assumption
    | ((try lift_lets -underBinder); first | ((intro z; refine Keeps.cut (s0 := s0) (x := z) ?_ ?_) <;> [(dsimp -zeta only [z]); (intro hz; try clear_value z)]) | ((intro z; refine Keeps.cut (s0 := s0) (x := z.1) ?_ ?_) <;> [(dsimp -zeta only [z]); (intro hz; try clear_value z)]) | (intro z; have hz : z.arb = z.arb := rfl; clear hz) | (intro z; try clear_value z))
    | with_reducible apply State.drain_keeps
    | with_reducible apply State.ackTo_keeps
    | with_reducible apply State.creditsIn_keeps
    | split

theorem State.discard_keeps {s0 s : State} (h : Keeps s0 s) (d : Nat) (l : Nat) : Keeps s0 (State.discard s d l) := by
  unfold State.discard
  repeat' first
    | with_reducible assumption
    | ((try lift_lets -underBinder); first | ((intro z; refine Keeps.cut (s0 := s0) (x := z) ?_ ?_) <;> [(dsimp -zeta only [z]); (intro hz; try clear_value z)]) | ((intro z; refine Keeps.cut (s0 := s0) (x := z.1) ?_ ?_) <;> [(dsimp -zeta only [z]); (intro hz; try clear_value z)]) | (intro z; have hz : z.arb = z.arb := rfl; clear hz) | (intro z; try clear_value z))
    | with_reducible apply State.modLink_keeps
    | with_reducible apply State.sendPlain_keeps
    | split

theorem State.rxSequenced_keeps {s0 s : State} (h : Keeps s0 s) (d : Nat) (l : Nat) (f : Flit) : Keeps s0 (State.rxSequenced s d l f).1 := by
  unfold State.rxSequenced
  repeat' first
    | with_reducible assumption
    | ((try lift_lets -underBinder); first | ((intro z; refine Keeps.cut (s0 := s0) (x := z) ?_ ?_) <;> [(dsimp -zeta only [z]); (intro hz; try clear_value z)]) | ((intro z; refine Keeps.cut (s0 := s0) (x := z.1) ?_ ?_) <;> [(dsimp -zeta only [z]); (intro hz; try clear_value z)]) | (intro z; have hz : z.arb = z.arb := rfl; clear hz) | (intro z; try clear_value z))
    | with_reducible apply State.count_keeps
    | with_reducible apply State.modLink_keeps
    | with_reducible apply State.sendPlain_keeps
    | with_reducible apply State.flitHead_keeps
    | with_reducible apply State.discard_keeps
    | split

theorem State.rxPlain_keeps {s0 s : State} (h : Keeps s0 s) (d : Nat) (l : Nat) (f : Flit) : Keeps s0 (State.rxPlain s d l f).1 := by
  unfold State.rxPlain
  repeat' first
    | with_reducible assumption
    | with_reducible apply State.count_keeps
    | with_reducible apply State.flitHead_keeps
    | split

theorem State.sendCap_keeps {s0 s : State} (h : Keeps s0 s) (d : Nat) (l : Nat) (c : CapBlock) : Keeps s0 (State.sendCap s d l c) := by
  unfold State.sendCap
  repeat' first
    | with_reducible assumption
    | with_reducible apply State.sendPlain_keeps
    | split

theorem State.startTraining_keeps {s0 s : State} (h : Keeps s0 s) (d : Nat) (l : Nat) : Keeps s0 (State.startTraining s d l) := by
  unfold State.startTraining
  repeat' first
    | with_reducible assumption
    | ((try lift_lets -underBinder); first | ((intro z; refine Keeps.cut (s0 := s0) (x := z) ?_ ?_) <;> [(dsimp -zeta only [z]); (intro hz; try clear_value z)]) | ((intro z; refine Keeps.cut (s0 := s0) (x := z.1) ?_ ?_) <;> [(dsimp -zeta only [z]); (intro hz; try clear_value z)]) | (intro z; have hz : z.arb = z.arb := rfl; clear hz) | (intro z; try clear_value z))
    | with_reducible apply State.wr_keeps
    | with_reducible apply State.modLink_keeps
    | with_reducible apply State.setLine_keeps
    | with_reducible apply State.sendCap_keeps
    | split

theorem State.retrain_keeps {s0 s : State} (h : Keeps s0 s) (d : Nat) (l : Nat) (cause : Nat) : Keeps s0 (State.retrain s d l cause) := by
  unfold State.retrain
  repeat' first
    | with_reducible assumption
    | ((try lift_lets -underBinder); first | ((intro z; refine Keeps.cut (s0 := s0) (x := z) ?_ ?_) <;> [(dsimp -zeta only [z]); (intro hz; try clear_value z)]) | ((intro z; refine Keeps.cut (s0 := s0) (x := z.1) ?_ ?_) <;> [(dsimp -zeta only [z]); (intro hz; try clear_value z)]) | (intro z; have hz : z.arb = z.arb := rfl; clear hz) | (intro z; try clear_value z))
    | with_reducible apply State.count_keeps
    | with_reducible apply State.lampCount_keeps
    | with_reducible apply State.raise_keeps
    | with_reducible apply State.startTraining_keeps
    | split

theorem State.resetTransit_keeps {s0 s : State} (h : Keeps s0 s) (d : Nat) (l : Nat) : Keeps s0 (State.resetTransit s d l) := by
  unfold State.resetTransit
  repeat' first
    | with_reducible assumption
    | ((try lift_lets -underBinder); first | ((intro z; refine Keeps.cut (s0 := s0) (x := z) ?_ ?_) <;> [(dsimp -zeta only [z]); (intro hz; try clear_value z)]) | ((intro z; refine Keeps.cut (s0 := s0) (x := z.1) ?_ ?_) <;> [(dsimp -zeta only [z]); (intro hz; try clear_value z)]) | (intro z; have hz : z.arb = z.arb := rfl; clear hz) | (intro z; try clear_value z))
    | with_reducible apply State.modLink_keeps
    | with_reducible apply State.sendOn_keeps
    | ((with_reducible refine Keeps.foldl _ _ ?_ (fun z w hz => ?_)); (try beta_reduce))
    | split

theorem State.linkReinit_keeps {s0 s : State} (h : Keeps s0 s) (d : Nat) (l : Nat) : Keeps s0 (State.linkReinit s d l) := by
  unfold State.linkReinit
  repeat' first
    | with_reducible assumption
    | ((try lift_lets -underBinder); first | ((intro z; refine Keeps.cut (s0 := s0) (x := z) ?_ ?_) <;> [(dsimp -zeta only [z]); (intro hz; try clear_value z)]) | ((intro z; refine Keeps.cut (s0 := s0) (x := z.1) ?_ ?_) <;> [(dsimp -zeta only [z]); (intro hz; try clear_value z)]) | (intro z; have hz : z.arb = z.arb := rfl; clear hz) | (intro z; try clear_value z))
    | with_reducible apply State.modLink_keeps
    | with_reducible apply State.replays_keeps
    | with_reducible apply State.resetTransit_keeps
    | split

theorem State.replayFrom_keeps {s0 s : State} (h : Keeps s0 s) (d : Nat) (l : Nat) (seq : BitVec 12) : Keeps s0 (State.replayFrom s d l seq) := by
  unfold State.replayFrom
  repeat' first
    | with_reducible assumption
    | ((try lift_lets -underBinder); first | ((intro z; refine Keeps.cut (s0 := s0) (x := z) ?_ ?_) <;> [(dsimp -zeta only [z]); (intro hz; try clear_value z)]) | ((intro z; refine Keeps.cut (s0 := s0) (x := z.1) ?_ ?_) <;> [(dsimp -zeta only [z]); (intro hz; try clear_value z)]) | (intro z; have hz : z.arb = z.arb := rfl; clear hz) | (intro z; try clear_value z))
    | with_reducible apply State.count_keeps
    | with_reducible apply State.modLink_keeps
    | with_reducible apply State.send_keeps
    | with_reducible apply State.replays_keeps
    | with_reducible apply State.retrain_keeps
    | ((with_reducible refine Keeps.foldl _ _ ?_ (fun z w hz => ?_)); (try beta_reduce))
    | split

theorem execPacketData_keeps {s0 s : State} (h : Keeps s0 s) (d : Nat) (l : Nat) (f : Flit) : AnsKeeps s0 (execPacketData d l f s) := by
  unfold execPacketData
  repeat' first
    | with_reducible assumption
    | with_reducible apply State.rxSequenced_keeps
    | with_reducible refine AnsKeeps.next ?_
    | split

theorem execIdle_keeps {s0 s : State} (h : Keeps s0 s) (d : Nat) (l : Nat) (f : Flit) : AnsKeeps s0 (execIdle d l f s) := by
  unfold execIdle
  repeat' first
    | with_reducible assumption
    | with_reducible apply State.rxPlain_keeps
    | with_reducible refine AnsKeeps.next ?_
    | split

theorem execNak_keeps {s0 s : State} (h : Keeps s0 s) (d : Nat) (l : Nat) (f : Flit) (expected : BitVec 12) : AnsKeeps s0 (execNak d l f expected s) := by
  unfold execNak
  repeat' first
    | with_reducible assumption
    | ((try lift_lets -underBinder); first | ((intro z; refine Keeps.cut (s0 := s0) (x := z) ?_ ?_) <;> [(dsimp -zeta only [z]); (intro hz; try clear_value z)]) | ((intro z; refine Keeps.cut (s0 := s0) (x := z.1) ?_ ?_) <;> [(dsimp -zeta only [z]); (intro hz; try clear_value z)]) | (intro z; have hz : z.arb = z.arb := rfl; clear hz) | (intro z; try clear_value z))
    | with_reducible apply State.ackTo_keeps
    | with_reducible apply State.rxPlain_keeps
    | with_reducible apply State.replayFrom_keeps
    | with_reducible refine AnsKeeps.next ?_
    | split

theorem execCreditReturn_keeps {s0 s : State} (h : Keeps s0 s) (d : Nat) (l : Nat) (f : Flit) (n : BitVec 12) : AnsKeeps s0 (execCreditReturn d l f n s) := by
  unfold execCreditReturn
  repeat' first
    | with_reducible assumption
    | ((try lift_lets -underBinder); first | ((intro z; refine Keeps.cut (s0 := s0) (x := z) ?_ ?_) <;> [(dsimp -zeta only [z]); (intro hz; try clear_value z)]) | ((intro z; refine Keeps.cut (s0 := s0) (x := z.1) ?_ ?_) <;> [(dsimp -zeta only [z]); (intro hz; try clear_value z)]) | (intro z; have hz : z.arb = z.arb := rfl; clear hz) | (intro z; try clear_value z))
    | with_reducible apply State.drain_keeps
    | with_reducible apply State.creditsIn_keeps
    | with_reducible apply State.rxPlain_keeps
    | with_reducible refine AnsKeeps.next ?_
    | split

theorem State.spareLane_keeps {s0 s : State} (h : Keeps s0 s) (d : Nat) (l : Nat) (lane : Nat) (spare : Nat) : Keeps s0 (State.spareLane s d l lane spare) := by
  unfold State.spareLane
  repeat' first
    | with_reducible assumption
    | ((try lift_lets -underBinder); first | ((intro z; refine Keeps.cut (s0 := s0) (x := z) ?_ ?_) <;> [(dsimp -zeta only [z]); (intro hz; try clear_value z)]) | ((intro z; refine Keeps.cut (s0 := s0) (x := z.1) ?_ ?_) <;> [(dsimp -zeta only [z]); (intro hz; try clear_value z)]) | (intro z; have hz : z.arb = z.arb := rfl; clear hz) | (intro z; try clear_value z))
    | with_reducible apply State.count_keeps
    | with_reducible apply State.modLink_keeps
    | with_reducible apply State.lampCount_keeps
    | with_reducible apply State.raise_keeps
    | with_reducible apply State.sendPlain_keeps
    | split

theorem State.laneFails_keeps {s0 s : State} (h : Keeps s0 s) (d : Nat) (l : Nat) (lane : Nat) : Keeps s0 (State.laneFails s d l lane) := by
  unfold State.laneFails
  repeat' first
    | with_reducible assumption
    | with_reducible apply State.modLink_keeps
    | with_reducible apply State.retrain_keeps
    | with_reducible apply State.spareLane_keeps
    | split

theorem execLaneSignalLoss_keeps {s0 s : State} (h : Keeps s0 s) (d : Nat) (l : Nat) (lane : Nat) : AnsKeeps s0 (execLaneSignalLoss d l lane s) := by
  unfold execLaneSignalLoss
  repeat' first
    | with_reducible assumption
    | with_reducible apply State.laneFails_keeps
    | with_reducible refine AnsKeeps.next ?_
    | split

theorem State.spareOver_keeps {s0 s : State} (h : Keeps s0 s) (d : Nat) (l : Nat) (errs : List (Nat × Nat)) : Keeps s0 (State.spareOver s d l errs) := by
  induction errs generalizing s  with
  | nil =>
    unfold State.spareOver
    repeat' first
      | with_reducible assumption
      | ((try lift_lets -underBinder); first | ((intro z; refine Keeps.cut (s0 := s0) (x := z) ?_ ?_) <;> [(dsimp -zeta only [z]); (intro hz; try clear_value z)]) | ((intro z; refine Keeps.cut (s0 := s0) (x := z.1) ?_ ?_) <;> [(dsimp -zeta only [z]); (intro hz; try clear_value z)]) | (intro z; have hz : z.arb = z.arb := rfl; clear hz) | (intro z; try clear_value z))
      | with_reducible apply State.modLink_keeps
      | with_reducible apply State.laneFails_keeps
      | split
  | cons x r ih =>
    unfold State.spareOver
    try dsimp -zeta only
    repeat' first
      | with_reducible assumption
      | ((try lift_lets -underBinder); first | ((intro z; refine Keeps.cut (s0 := s0) (x := z) ?_ ?_) <;> [(dsimp -zeta only [z]); (intro hz; try clear_value z)]) | ((intro z; refine Keeps.cut (s0 := s0) (x := z.1) ?_ ?_) <;> [(dsimp -zeta only [z]); (intro hz; try clear_value z)]) | (intro z; have hz : z.arb = z.arb := rfl; clear hz) | (intro z; try clear_value z))
      | with_reducible apply ih
      | with_reducible apply State.modLink_keeps
      | with_reducible apply State.laneFails_keeps
      | split

theorem execSparingWindowEnd_keeps {s0 s : State} (h : Keeps s0 s) (d : Nat) (l : Nat) (errs : List (Nat × Nat)) : AnsKeeps s0 (execSparingWindowEnd d l errs s) := by
  unfold execSparingWindowEnd
  repeat' first
    | with_reducible assumption
    | with_reducible apply State.spareOver_keeps
    | with_reducible refine AnsKeeps.next ?_
    | split

theorem execLaneSwitch_keeps {s0 s : State} (h : Keeps s0 s) (d : Nat) (l : Nat) (f : Flit) (lane : Nat) (u_seq : BitVec 12) : AnsKeeps s0 (execLaneSwitch d l f lane u_seq s) := by
  unfold execLaneSwitch
  repeat' first
    | with_reducible assumption
    | ((try lift_lets -underBinder); first | ((intro z; refine Keeps.cut (s0 := s0) (x := z) ?_ ?_) <;> [(dsimp -zeta only [z]); (intro hz; try clear_value z)]) | ((intro z; refine Keeps.cut (s0 := s0) (x := z.1) ?_ ?_) <;> [(dsimp -zeta only [z]); (intro hz; try clear_value z)]) | (intro z; have hz : z.arb = z.arb := rfl; clear hz) | (intro z; try clear_value z))
    | with_reducible apply State.modLink_keeps
    | with_reducible apply State.rxPlain_keeps
    | with_reducible refine AnsKeeps.next ?_
    | split

theorem execAckTimeout_keeps {s0 s : State} (h : Keeps s0 s) (d : Nat) (l : Nat) : AnsKeeps s0 (execAckTimeout d l s) := by
  unfold execAckTimeout
  repeat' first
    | with_reducible assumption
    | with_reducible apply State.retrain_keeps
    | with_reducible refine AnsKeeps.next ?_
    | split

theorem execLinkRetrain_keeps {s0 s : State} (h : Keeps s0 s) (d : Nat) (l : Nat) (cause : Nat) : AnsKeeps s0 (execLinkRetrain d l cause s) := by
  unfold execLinkRetrain
  repeat' first
    | with_reducible assumption
    | with_reducible apply State.retrain_keeps
    | with_reducible refine AnsKeeps.next ?_
    | split

theorem State.linkResumes_keeps {s0 s : State} (h : Keeps s0 s) (d : Nat) (l : Nat) : Keeps s0 (State.linkResumes s d l) := by
  unfold State.linkResumes
  repeat' first
    | with_reducible assumption
    | ((try lift_lets -underBinder); first | ((intro z; refine Keeps.cut (s0 := s0) (x := z) ?_ ?_) <;> [(dsimp -zeta only [z]); (intro hz; try clear_value z)]) | ((intro z; refine Keeps.cut (s0 := s0) (x := z.1) ?_ ?_) <;> [(dsimp -zeta only [z]); (intro hz; try clear_value z)]) | (intro z; have hz : z.arb = z.arb := rfl; clear hz) | (intro z; try clear_value z))
    | with_reducible apply State.drain_keeps
    | with_reducible apply State.releaseHeld_keeps
    | split

theorem State.linkTrained_keeps {s0 s : State} (h : Keeps s0 s) (d : Nat) (l : Nat) (full : Nat) (healthy : Nat) (rtt : BitVec 32) (p : CapBlock) (v : Nat) : Keeps s0 (State.linkTrained s d l full healthy rtt p v) := by
  unfold State.linkTrained
  repeat' first
    | with_reducible assumption
    | ((try lift_lets -underBinder); first | ((intro z; refine Keeps.cut (s0 := s0) (x := z) ?_ ?_) <;> [(dsimp -zeta only [z]); (intro hz; try clear_value z)]) | ((intro z; refine Keeps.cut (s0 := s0) (x := z.1) ?_ ?_) <;> [(dsimp -zeta only [z]); (intro hz; try clear_value z)]) | (intro z; have hz : z.arb = z.arb := rfl; clear hz) | (intro z; try clear_value z))
    | with_reducible apply State.wr_keeps
    | with_reducible apply State.modLink_keeps
    | with_reducible apply State.raise_keeps
    | with_reducible apply State.unitMended_keeps
    | with_reducible apply State.setLine_keeps
    | with_reducible apply State.linkReinit_keeps
    | with_reducible apply State.replayFrom_keeps
    | with_reducible apply State.linkResumes_keeps
    | split

theorem State.versionFails_keeps {s0 s : State} (h : Keeps s0 s) (d : Nat) (l : Nat) (c : CapBlock) : Keeps s0 (State.versionFails s d l c) := by
  unfold State.versionFails
  repeat' first
    | with_reducible assumption
    | with_reducible apply State.wr_keeps
    | with_reducible apply State.raise_keeps
    | with_reducible apply State.setLine_keeps
    | split

theorem execLinkRetrained_keeps {s0 s : State} (h : Keeps s0 s) (d : Nat) (l : Nat) (ok : Bool) (active : Nat) (rtt : BitVec 32) (p : CapBlock) : AnsKeeps s0 (execLinkRetrained d l ok active rtt p s) := by
  unfold execLinkRetrained
  repeat' first
    | with_reducible assumption
    | with_reducible apply State.wr_keeps
    | with_reducible apply State.setLine_keeps
    | with_reducible apply State.linkTrained_keeps
    | with_reducible apply State.versionFails_keeps
    | with_reducible refine AnsKeeps.next ?_
    | split

theorem State.linkOff_keeps {s0 s : State} (h : Keeps s0 s) (d : Nat) (l : Nat) : Keeps s0 (State.linkOff s d l) := by
  unfold State.linkOff
  repeat' first
    | with_reducible assumption
    | with_reducible apply State.wr_keeps
    | with_reducible apply State.setLine_keeps
    | with_reducible apply State.linkReinit_keeps
    | split

theorem State.failChan_keeps {s0 s : State} (h : Keeps s0 s) (d : Nat) (n : Nat) (rs : List Req) : Keeps s0 (State.failChan s d n rs) := by
  unfold State.failChan
  repeat' first
    | with_reducible assumption
    | ((try lift_lets -underBinder); first | ((intro z; refine Keeps.cut (s0 := s0) (x := z) ?_ ?_) <;> [(dsimp -zeta only [z]); (intro hz; try clear_value z)]) | ((intro z; refine Keeps.cut (s0 := s0) (x := z.1) ?_ ?_) <;> [(dsimp -zeta only [z]); (intro hz; try clear_value z)]) | (intro z; have hz : z.arb = z.arb := rfl; clear hz) | (intro z; try clear_value z))
    | with_reducible apply State.modChan_keeps
    | with_reducible apply State.deadAccess_keeps
    | split

theorem State.failHeld_keeps {s0 s : State} (h : Keeps s0 s) (rs : List Req) : Keeps s0 (State.failHeld s rs) := by
  unfold State.failHeld
  repeat' first
    | with_reducible assumption
    | ((try lift_lets -underBinder); first | ((intro z; refine Keeps.cut (s0 := s0) (x := z) ?_ ?_) <;> [(dsimp -zeta only [z]); (intro hz; try clear_value z)]) | ((intro z; refine Keeps.cut (s0 := s0) (x := z.1) ?_ ?_) <;> [(dsimp -zeta only [z]); (intro hz; try clear_value z)]) | (intro z; have hz : z.arb = z.arb := rfl; clear hz) | (intro z; try clear_value z))
    | with_reducible apply State.failChan_keeps
    | ((with_reducible refine Keeps.foldl _ _ ?_ (fun z w hz => ?_)); (try beta_reduce))
    | split

theorem execLinkDown_keeps {s0 s : State} (h : Keeps s0 s) (d : Nat) (l : Nat) : AnsKeeps s0 (execLinkDown d l s) := by
  unfold execLinkDown
  repeat' first
    | with_reducible assumption
    | ((try lift_lets -underBinder); first | ((intro z; refine Keeps.cut (s0 := s0) (x := z) ?_ ?_) <;> [(dsimp -zeta only [z]); (intro hz; try clear_value z)]) | ((intro z; refine Keeps.cut (s0 := s0) (x := z.1) ?_ ?_) <;> [(dsimp -zeta only [z]); (intro hz; try clear_value z)]) | (intro z; have hz : z.arb = z.arb := rfl; clear hz) | (intro z; try clear_value z))
    | with_reducible apply State.modLink_keeps
    | with_reducible apply State.send_keeps
    | with_reducible apply State.raise_keeps
    | with_reducible apply State.failHeld_keeps
    | ((with_reducible refine Keeps.foldl _ _ ?_ (fun z w hz => ?_)); (try beta_reduce))
    | with_reducible refine AnsKeeps.next ?_
    | split

theorem execLinkResetResponse_keeps {s0 s : State} (h : Keeps s0 s) (d : Nat) (l : Nat) (p : Packet) : AnsKeeps s0 (execLinkResetResponse d l p s) := by
  unfold execLinkResetResponse
  repeat' first
    | with_reducible assumption
    | ((try lift_lets -underBinder); first | ((intro z; refine Keeps.cut (s0 := s0) (x := z) ?_ ?_) <;> [(dsimp -zeta only [z]); (intro hz; try clear_value z)]) | ((intro z; refine Keeps.cut (s0 := s0) (x := z.1) ?_ ?_) <;> [(dsimp -zeta only [z]); (intro hz; try clear_value z)]) | (intro z; have hz : z.arb = z.arb := rfl; clear hz) | (intro z; try clear_value z))
    | with_reducible apply State.modLink_keeps
    | with_reducible apply State.request_keeps
    | with_reducible apply State.passBack_keeps
    | with_reducible apply State.failHeld_keeps
    | with_reducible refine AnsKeeps.next ?_
    | split

theorem State.floodPort_keeps {s0 s : State} (h : Keeps s0 s) (port : Nat) (index : Nat) (kind : BitVec 4) (payload : List Byte) : Keeps s0 (State.floodPort s port index kind payload) := by
  unfold State.floodPort
  repeat' first
    | with_reducible assumption
    | with_reducible apply State.sendSequenced_keeps
    | with_reducible apply State.sendPlain_keeps
    | split

theorem State.floodOut_keeps {s0 s : State} (h : Keeps s0 s) (kind : BitVec 4) (payload : List Byte) : Keeps s0 (State.floodOut s kind payload) := by
  unfold State.floodOut
  repeat' first
    | with_reducible assumption
    | with_reducible apply State.floodPort_keeps
    | split

theorem State.flood_keeps {s0 s : State} (h : Keeps s0 s) (d : Nat) (l : Nat) (kind : BitVec 4) (payload : List Byte) : Keeps s0 (State.flood s d l kind payload) := by
  unfold State.flood
  repeat' first
    | with_reducible assumption
    | with_reducible apply State.floodPort_keeps
    | split

theorem State.seen_keeps {s0 s : State} (h : Keeps s0 s) (x : Flood) : Keeps s0 (State.seen s x) := by
  unfold State.seen
  repeat' first
    | with_reducible assumption
    | ((try lift_lets -underBinder); first | ((intro z; refine Keeps.cut (s0 := s0) (x := z) ?_ ?_) <;> [(dsimp -zeta only [z]); (intro hz; try clear_value z)]) | ((intro z; refine Keeps.cut (s0 := s0) (x := z.1) ?_ ?_) <;> [(dsimp -zeta only [z]); (intro hz; try clear_value z)]) | (intro z; have hz : z.arb = z.arb := rfl; clear hz) | (intro z; try clear_value z))
    | split
    | with_reducible refine Keeps.lit ?_ rfl

theorem State.floodIn_keeps {s0 s : State} (h : Keeps s0 s) (d : Nat) (l : Nat) (f : Flit) (x : Flood) : Keeps s0 (State.floodIn s d l f x).1 := by
  unfold State.floodIn
  repeat' first
    | with_reducible assumption
    | with_reducible apply State.flood_keeps
    | with_reducible apply State.seen_keeps
    | split

theorem execTimetableFrame_keeps {s0 s : State} (h : Keeps s0 s) (d : Nat) (l : Nat) (f : Flit) (x : TtFrame) : AnsKeeps s0 (execTimetableFrame d l f x s) := by
  unfold execTimetableFrame
  repeat' first
    | with_reducible assumption
    | ((try lift_lets -underBinder); first | ((intro z; refine Keeps.cut (s0 := s0) (x := z) ?_ ?_) <;> [(dsimp -zeta only [z]); (intro hz; try clear_value z)]) | ((intro z; refine Keeps.cut (s0 := s0) (x := z.1) ?_ ?_) <;> [(dsimp -zeta only [z]); (intro hz; try clear_value z)]) | (intro z; have hz : z.arb = z.arb := rfl; clear hz) | (intro z; try clear_value z))
    | with_reducible apply State.send_keeps
    | with_reducible apply State.rxSequenced_keeps
    | with_reducible apply State.floodOut_keeps
    | with_reducible apply State.seen_keeps
    | with_reducible apply State.floodIn_keeps
    | with_reducible refine AnsKeeps.next ?_
    | split

theorem execCapabilityBlock_keeps {s0 s : State} (h : Keeps s0 s) (d : Nat) (l : Nat) (f : Flit) : AnsKeeps s0 (execCapabilityBlock d l f s) := by
  unfold execCapabilityBlock
  repeat' first
    | with_reducible assumption
    | ((try lift_lets -underBinder); first | ((intro z; refine Keeps.cut (s0 := s0) (x := z) ?_ ?_) <;> [(dsimp -zeta only [z]); (intro hz; try clear_value z)]) | ((intro z; refine Keeps.cut (s0 := s0) (x := z.1) ?_ ?_) <;> [(dsimp -zeta only [z]); (intro hz; try clear_value z)]) | (intro z; have hz : z.arb = z.arb := rfl; clear hz) | (intro z; try clear_value z))
    | with_reducible apply State.wr_keeps
    | with_reducible apply State.count_keeps
    | with_reducible apply State.rxPlain_keeps
    | with_reducible apply State.versionFails_keeps
    | with_reducible apply State.flood_keeps
    | with_reducible refine AnsKeeps.next ?_
    | split
    | with_reducible refine Keeps.lit ?_ rfl

theorem State.hearFleet_keeps {s0 s : State} (h : Keeps s0 s) (fleet : Option (BitVec 64 × Nat)) : Keeps s0 (State.hearFleet s fleet) := by
  unfold State.hearFleet
  repeat' first
    | with_reducible assumption
    | ((try lift_lets -underBinder); first | ((intro z; refine Keeps.cut (s0 := s0) (x := z) ?_ ?_) <;> [(dsimp -zeta only [z]); (intro hz; try clear_value z)]) | ((intro z; refine Keeps.cut (s0 := s0) (x := z.1) ?_ ?_) <;> [(dsimp -zeta only [z]); (intro hz; try clear_value z)]) | (intro z; have hz : z.arb = z.arb := rfl; clear hz) | (intro z; try clear_value z))
    | split
    | with_reducible refine Keeps.lit ?_ rfl

theorem State.followTime_keeps {s0 s : State} (h : Keeps s0 s) (d : Nat) (l : Nat) (time : BitVec 64) : Keeps s0 (State.followTime s d l time) := by
  unfold State.followTime
  repeat' first
    | with_reducible assumption
    | ((try lift_lets -underBinder); first | ((intro z; refine Keeps.cut (s0 := s0) (x := z) ?_ ?_) <;> [(dsimp -zeta only [z]); (intro hz; try clear_value z)]) | ((intro z; refine Keeps.cut (s0 := s0) (x := z.1) ?_ ?_) <;> [(dsimp -zeta only [z]); (intro hz; try clear_value z)]) | (intro z; have hz : z.arb = z.arb := rfl; clear hz) | (intro z; try clear_value z))
    | with_reducible apply State.raise_keeps
    | split
    | with_reducible refine Keeps.lit ?_ rfl

theorem execTimeFlit_keeps {s0 s : State} (h : Keeps s0 s) (d : Nat) (l : Nat) (x : TimeIn) : AnsKeeps s0 (execTimeFlit d l x s) := by
  unfold execTimeFlit
  repeat' first
    | with_reducible assumption
    | ((try lift_lets -underBinder); first | ((intro z; refine Keeps.cut (s0 := s0) (x := z) ?_ ?_) <;> [(dsimp -zeta only [z]); (intro hz; try clear_value z)]) | ((intro z; refine Keeps.cut (s0 := s0) (x := z.1) ?_ ?_) <;> [(dsimp -zeta only [z]); (intro hz; try clear_value z)]) | (intro z; have hz : z.arb = z.arb := rfl; clear hz) | (intro z; try clear_value z))
    | with_reducible apply State.wr_keeps
    | with_reducible apply State.rxPlain_keeps
    | with_reducible apply State.hearFleet_keeps
    | with_reducible apply State.followTime_keeps
    | with_reducible refine AnsKeeps.next ?_
    | split
    | with_reducible refine Keeps.lit ?_ rfl

theorem State.sendTime_keeps {s0 s : State} (h : Keeps s0 s) (d : Nat) (l : Nat) : Keeps s0 (State.sendTime s d l) := by
  unfold State.sendTime
  repeat' first
    | with_reducible assumption
    | with_reducible apply State.send_keeps
    | with_reducible apply State.used_keeps
    | with_reducible apply State.sendPlain_keeps
    | split

theorem execTimeFlitSend_keeps {s0 s : State} (h : Keeps s0 s) : AnsKeeps s0 (execTimeFlitSend s) := by
  unfold execTimeFlitSend
  repeat' first
    | with_reducible assumption
    | with_reducible apply State.sendTime_keeps
    | ((with_reducible refine Keeps.foldl _ _ ?_ (fun z w hz => ?_)); (try beta_reduce))
    | with_reducible refine AnsKeeps.next ?_
    | split

theorem State.portRetrain_keeps {s0 s : State} (h : Keeps s0 s) (d : Nat) (p : Nat) : Keeps s0 (State.portRetrain s d p) := by
  unfold State.portRetrain
  repeat' first
    | with_reducible assumption
    | with_reducible apply State.modPort_keeps
    | with_reducible apply State.raise_keeps
    | with_reducible apply State.replays_keeps
    | split

theorem State.portReplay_keeps {s0 s : State} (h : Keeps s0 s) (e : Nat) (p : Nat) (seq : BitVec 8) : Keeps s0 (State.portReplay s e p seq) := by
  unfold State.portReplay
  repeat' first
    | with_reducible assumption
    | ((try lift_lets -underBinder); first | ((intro z; refine Keeps.cut (s0 := s0) (x := z) ?_ ?_) <;> [(dsimp -zeta only [z]); (intro hz; try clear_value z)]) | ((intro z; refine Keeps.cut (s0 := s0) (x := z.1) ?_ ?_) <;> [(dsimp -zeta only [z]); (intro hz; try clear_value z)]) | (intro z; have hz : z.arb = z.arb := rfl; clear hz) | (intro z; try clear_value z))
    | with_reducible apply State.modPort_keeps
    | with_reducible apply State.send_keeps
    | with_reducible apply State.replays_keeps
    | with_reducible apply State.portRetrain_keeps
    | ((with_reducible refine Keeps.foldl _ _ ?_ (fun z w hz => ?_)); (try beta_reduce))
    | split

theorem State.portDiscard_keeps {s0 s : State} (h : Keeps s0 s) (d : Nat) (e : Nat) (p : Nat) : Keeps s0 (State.portDiscard s d e p) := by
  unfold State.portDiscard
  repeat' first
    | with_reducible assumption
    | ((try lift_lets -underBinder); first | ((intro z; refine Keeps.cut (s0 := s0) (x := z) ?_ ?_) <;> [(dsimp -zeta only [z]); (intro hz; try clear_value z)]) | ((intro z; refine Keeps.cut (s0 := s0) (x := z.1) ?_ ?_) <;> [(dsimp -zeta only [z]); (intro hz; try clear_value z)]) | (intro z; have hz : z.arb = z.arb := rfl; clear hz) | (intro z; try clear_value z))
    | with_reducible apply State.modPort_keeps
    | with_reducible apply State.portReplay_keeps
    | split

theorem execDieFlit_keeps {s0 s : State} (h : Keeps s0 s) (d : Nat) (p : Nat) (f : DieFlit) : AnsKeeps s0 (execDieFlit d p f s) := by
  unfold execDieFlit
  repeat' first
    | with_reducible assumption
    | ((try lift_lets -underBinder); first | ((intro z; refine Keeps.cut (s0 := s0) (x := z) ?_ ?_) <;> [(dsimp -zeta only [z]); (intro hz; try clear_value z)]) | ((intro z; refine Keeps.cut (s0 := s0) (x := z.1) ?_ ?_) <;> [(dsimp -zeta only [z]); (intro hz; try clear_value z)]) | (intro z; have hz : z.arb = z.arb := rfl; clear hz) | (intro z; try clear_value z))
    | with_reducible apply State.modPort_keeps
    | with_reducible apply State.portDiscard_keeps
    | with_reducible refine AnsKeeps.next ?_
    | split

theorem execD2dPortRetrained_keeps {s0 s : State} (h : Keeps s0 s) (d : Nat) (p : Nat) (ok : Bool) : AnsKeeps s0 (execD2dPortRetrained d p ok s) := by
  unfold execD2dPortRetrained
  repeat' first
    | with_reducible assumption
    | ((try lift_lets -underBinder); first | ((intro z; refine Keeps.cut (s0 := s0) (x := z) ?_ ?_) <;> [(dsimp -zeta only [z]); (intro hz; try clear_value z)]) | ((intro z; refine Keeps.cut (s0 := s0) (x := z.1) ?_ ?_) <;> [(dsimp -zeta only [z]); (intro hz; try clear_value z)]) | (intro z; have hz : z.arb = z.arb := rfl; clear hz) | (intro z; try clear_value z))
    | with_reducible apply State.modPort_keeps
    | with_reducible apply State.send_keeps
    | with_reducible apply State.fenceFound_keeps
    | with_reducible apply State.unitMended_keeps
    | ((with_reducible refine Keeps.foldl _ _ ?_ (fun z w hz => ?_)); (try beta_reduce))
    | with_reducible refine AnsKeeps.next ?_
    | split

theorem State.reissueOver_keeps {s0 s : State} (h : Keeps s0 s) (d : Nat) (p : Nat) : Keeps s0 (State.reissueOver s d p) := by
  unfold State.reissueOver
  repeat' first
    | with_reducible assumption
    | with_reducible apply State.putPacket_keeps
    | ((with_reducible refine Keeps.foldl _ _ ?_ (fun z w hz => ?_)); (try beta_reduce))
    | split

theorem State.portReinit_keeps {s0 s : State} (h : Keeps s0 s) (d : Nat) (p : Nat) : Keeps s0 (State.portReinit s d p) := by
  unfold State.portReinit
  repeat' first
    | with_reducible assumption
    | ((try lift_lets -underBinder); first | ((intro z; refine Keeps.cut (s0 := s0) (x := z) ?_ ?_) <;> [(dsimp -zeta only [z]); (intro hz; try clear_value z)]) | ((intro z; refine Keeps.cut (s0 := s0) (x := z.1) ?_ ?_) <;> [(dsimp -zeta only [z]); (intro hz; try clear_value z)]) | (intro z; have hz : z.arb = z.arb := rfl; clear hz) | (intro z; try clear_value z))
    | with_reducible apply State.modPort_keeps
    | with_reducible apply State.reissueOver_keeps
    | split

theorem State.refuseManifest_keeps {s0 s : State} (h : Keeps s0 s) (m : Manifest) (code : Nat) : Keeps s0 (State.refuseManifest s m code) := by
  unfold State.refuseManifest
  repeat' first
    | with_reducible assumption
    | ((try lift_lets -underBinder); first | ((intro z; refine Keeps.cut (s0 := s0) (x := z) ?_ ?_) <;> [(dsimp -zeta only [z]); (intro hz; try clear_value z)]) | ((intro z; refine Keeps.cut (s0 := s0) (x := z.1) ?_ ?_) <;> [(dsimp -zeta only [z]); (intro hz; try clear_value z)]) | (intro z; have hz : z.arb = z.arb := rfl; clear hz) | (intro z; try clear_value z))
    | with_reducible apply State.wr_keeps
    | with_reducible apply State.raiseLead_keeps
    | split

theorem State.armCounters_keeps {s0 s : State} (h : Keeps s0 s) (m : Manifest) : Keeps s0 (State.armCounters s m) := by
  unfold State.armCounters
  repeat' first
    | with_reducible assumption
    | ((try lift_lets -underBinder); first | ((intro z; refine Keeps.cut (s0 := s0) (x := z) ?_ ?_) <;> [(dsimp -zeta only [z]); (intro hz; try clear_value z)]) | ((intro z; refine Keeps.cut (s0 := s0) (x := z.1) ?_ ?_) <;> [(dsimp -zeta only [z]); (intro hz; try clear_value z)]) | (intro z; have hz : z.arb = z.arb := rfl; clear hz) | (intro z; try clear_value z))
    | with_reducible apply State.count_keeps
    | with_reducible apply State.pendField_keeps
    | ((with_reducible refine Keeps.foldl _ _ ?_ (fun z w hz => ?_)); (try beta_reduce))
    | split

theorem State.copyProgram_keeps {s0 s : State} (h : Keeps s0 s) (m : Manifest) : Keeps s0 (State.copyProgram s m) := by
  unfold State.copyProgram
  repeat' first
    | with_reducible assumption
    | ((try lift_lets -underBinder); first | ((intro z; refine Keeps.cut (s0 := s0) (x := z) ?_ ?_) <;> [(dsimp -zeta only [z]); (intro hz; try clear_value z)]) | ((intro z; refine Keeps.cut (s0 := s0) (x := z.1) ?_ ?_) <;> [(dsimp -zeta only [z]); (intro hz; try clear_value z)]) | (intro z; have hz : z.arb = z.arb := rfl; clear hz) | (intro z; try clear_value z))
    | with_reducible apply State.count_keeps
    | with_reducible apply State.setBytes_keeps
    | ((with_reducible refine Keeps.foldl _ _ ?_ (fun z w hz => ?_)); (try beta_reduce))
    | split

theorem State.copyMirrors_keeps {s0 s : State} (h : Keeps s0 s) (d : Nat) : Keeps s0 (State.copyMirrors s d) := by
  unfold State.copyMirrors
  repeat' first
    | with_reducible assumption
    | ((try lift_lets -underBinder); first | ((intro z; refine Keeps.cut (s0 := s0) (x := z) ?_ ?_) <;> [(dsimp -zeta only [z]); (intro hz; try clear_value z)]) | ((intro z; refine Keeps.cut (s0 := s0) (x := z.1) ?_ ?_) <;> [(dsimp -zeta only [z]); (intro hz; try clear_value z)]) | (intro z; have hz : z.arb = z.arb := rfl; clear hz) | (intro z; try clear_value z))
    | with_reducible apply State.wr_keeps
    | with_reducible apply State.toBuddy_keeps
    | ((with_reducible refine Keeps.foldl _ _ ?_ (fun z w hz => ?_)); (try beta_reduce))
    | split

theorem State.takeManifest_keeps {s0 s : State} (h : Keeps s0 s) (m : Manifest) : Keeps s0 (State.takeManifest s m) := by
  unfold State.takeManifest
  repeat' first
    | with_reducible assumption
    | ((try lift_lets -underBinder); first | ((intro z; refine Keeps.cut (s0 := s0) (x := z) ?_ ?_) <;> [(dsimp -zeta only [z]); (intro hz; try clear_value z)]) | ((intro z; refine Keeps.cut (s0 := s0) (x := z.1) ?_ ?_) <;> [(dsimp -zeta only [z]); (intro hz; try clear_value z)]) | (intro z; have hz : z.arb = z.arb := rfl; clear hz) | (intro z; try clear_value z))
    | with_reducible apply State.wr_keeps
    | with_reducible apply State.modDie_keeps
    | with_reducible apply State.orphanTakes_keeps
    | with_reducible apply State.refreshLive_keeps
    | with_reducible apply State.extend_keeps
    | with_reducible apply State.armCounters_keeps
    | with_reducible apply State.copyProgram_keeps
    | with_reducible apply State.copyMirrors_keeps
    | with_reducible apply State.pickup_keeps
    | ((with_reducible refine Keeps.foldl _ _ ?_ (fun z w hz => ?_)); (try beta_reduce))
    | split
    | with_reducible refine Keeps.lit ?_ rfl

theorem State.pickup_keeps {s0 s : State} (h : Keeps s0 s) : Keeps s0 (State.pickup s) := by
  unfold State.pickup
  repeat' first
    | with_reducible assumption
    | ((try lift_lets -underBinder); first | ((intro z; refine Keeps.cut (s0 := s0) (x := z) ?_ ?_) <;> [(dsimp -zeta only [z]); (intro hz; try clear_value z)]) | ((intro z; refine Keeps.cut (s0 := s0) (x := z.1) ?_ ?_) <;> [(dsimp -zeta only [z]); (intro hz; try clear_value z)]) | (intro z; have hz : z.arb = z.arb := rfl; clear hz) | (intro z; try clear_value z))
    | with_reducible apply State.wr_keeps
    | with_reducible apply State.refuseManifest_keeps
    | with_reducible apply State.takeManifest_keeps
    | split

theorem State.endJob_keeps {s0 s : State} (h : Keeps s0 s) : Keeps s0 (State.endJob s) := by
  unfold State.endJob
  repeat' first
    | with_reducible assumption
    | ((try lift_lets -underBinder); first | ((intro z; refine Keeps.cut (s0 := s0) (x := z) ?_ ?_) <;> [(dsimp -zeta only [z]); (intro hz; try clear_value z)]) | ((intro z; refine Keeps.cut (s0 := s0) (x := z.1) ?_ ?_) <;> [(dsimp -zeta only [z]); (intro hz; try clear_value z)]) | (intro z; have hz : z.arb = z.arb := rfl; clear hz) | (intro z; try clear_value z))
    | with_reducible apply State.wr_keeps
    | with_reducible apply State.orphanTakes_keeps
    | with_reducible apply State.abortAll_keeps
    | split
    | with_reducible refine Keeps.lit ?_ rfl

theorem State.violate_keeps {s0 s : State} (h : Keeps s0 s) (v : Violation) : Keeps s0 (State.violate s v) := by
  unfold State.violate
  repeat' first
    | with_reducible assumption
    | ((try lift_lets -underBinder); first | ((intro z; refine Keeps.cut (s0 := s0) (x := z) ?_ ?_) <;> [(dsimp -zeta only [z]); (intro hz; try clear_value z)]) | ((intro z; refine Keeps.cut (s0 := s0) (x := z.1) ?_ ?_) <;> [(dsimp -zeta only [z]); (intro hz; try clear_value z)]) | (intro z; have hz : z.arb = z.arb := rfl; clear hz) | (intro z; try clear_value z))
    | with_reducible apply State.raise_keeps
    | split
    | with_reducible refine Keeps.lit ?_ rfl

theorem State.decideLink_keeps {s0 s : State} (h : Keeps s0 s) (d : Nat) (l : Nat) (a : LinkCounts) (b : LinkCounts) : Keeps s0 (State.decideLink s d l a b) := by
  unfold State.decideLink
  repeat' first
    | with_reducible assumption
    | with_reducible apply State.modLink_keeps
    | with_reducible apply State.violate_keeps
    | ((with_reducible refine Keeps.foldl _ _ ?_ (fun z w hz => ?_)); (try beta_reduce))
    | split

theorem State.snapLink_keeps {s0 s : State} (h : Keeps s0 s) (d : Nat) (l : Nat) : Keeps s0 (State.snapLink s d l) := by
  unfold State.snapLink
  repeat' first
    | with_reducible assumption
    | ((try lift_lets -underBinder); first | ((intro z; refine Keeps.cut (s0 := s0) (x := z) ?_ ?_) <;> [(dsimp -zeta only [z]); (intro hz; try clear_value z)]) | ((intro z; refine Keeps.cut (s0 := s0) (x := z.1) ?_ ?_) <;> [(dsimp -zeta only [z]); (intro hz; try clear_value z)]) | (intro z; have hz : z.arb = z.arb := rfl; clear hz) | (intro z; try clear_value z))
    | with_reducible apply State.modLink_keeps
    | with_reducible apply State.sendSequenced_keeps
    | with_reducible apply State.decideLink_keeps
    | split

theorem State.pairReinit_keeps {s0 s : State} (h : Keeps s0 s) (d : Nat) (q : Nat) (f : Nat) : Keeps s0 (State.pairReinit s d q f) := by
  unfold State.pairReinit
  repeat' first
    | with_reducible assumption
    | ((try lift_lets -underBinder); first | ((intro z; refine Keeps.cut (s0 := s0) (x := z) ?_ ?_) <;> [(dsimp -zeta only [z]); (intro hz; try clear_value z)]) | ((intro z; refine Keeps.cut (s0 := s0) (x := z.1) ?_ ?_) <;> [(dsimp -zeta only [z]); (intro hz; try clear_value z)]) | (intro z; have hz : z.arb = z.arb := rfl; clear hz) | (intro z; try clear_value z))
    | with_reducible apply State.modCore_keeps
    | split
    | with_reducible refine Keeps.lit ?_ rfl

theorem State.chanReinit_keeps {s0 s : State} (h : Keeps s0 s) (d : Nat) (n : Nat) : Keeps s0 (State.chanReinit s d n) := by
  unfold State.chanReinit
  repeat' first
    | with_reducible assumption
    | ((try lift_lets -underBinder); first | ((intro z; refine Keeps.cut (s0 := s0) (x := z) ?_ ?_) <;> [(dsimp -zeta only [z]); (intro hz; try clear_value z)]) | ((intro z; refine Keeps.cut (s0 := s0) (x := z.1) ?_ ?_) <;> [(dsimp -zeta only [z]); (intro hz; try clear_value z)]) | (intro z; have hz : z.arb = z.arb := rfl; clear hz) | (intro z; try clear_value z))
    | with_reducible apply State.wr_keeps
    | with_reducible apply State.cmp_keeps
    | with_reducible apply State.cancelChan_keeps
    | split

theorem State.ctrReinit_keeps {s0 s : State} (h : Keeps s0 s) (d : Nat) (k : Nat) : Keeps s0 (State.ctrReinit s d k) := by
  unfold State.ctrReinit
  repeat' first
    | with_reducible assumption
    | ((try lift_lets -underBinder); first | ((intro z; refine Keeps.cut (s0 := s0) (x := z) ?_ ?_) <;> [(dsimp -zeta only [z]); (intro hz; try clear_value z)]) | ((intro z; refine Keeps.cut (s0 := s0) (x := z.1) ?_ ?_) <;> [(dsimp -zeta only [z]); (intro hz; try clear_value z)]) | (intro z; have hz : z.arb = z.arb := rfl; clear hz) | (intro z; try clear_value z))
    | with_reducible apply State.wr_keeps
    | with_reducible apply State.modItem_keeps
    | with_reducible apply State.setRlist_keeps
    | with_reducible apply State.returnLeases_keeps
    | ((with_reducible refine Keeps.foldl _ _ ?_ (fun z w hz => ?_)); (try beta_reduce))
    | split

theorem State.linkAfresh_keeps {s0 s : State} (h : Keeps s0 s) (d : Nat) (l : Nat) : Keeps s0 (State.linkAfresh s d l) := by
  unfold State.linkAfresh
  repeat' first
    | with_reducible assumption
    | ((try lift_lets -underBinder); first | ((intro z; refine Keeps.cut (s0 := s0) (x := z) ?_ ?_) <;> [(dsimp -zeta only [z]); (intro hz; try clear_value z)]) | ((intro z; refine Keeps.cut (s0 := s0) (x := z.1) ?_ ?_) <;> [(dsimp -zeta only [z]); (intro hz; try clear_value z)]) | (intro z; have hz : z.arb = z.arb := rfl; clear hz) | (intro z; try clear_value z))
    | with_reducible apply State.modLink_keeps
    | with_reducible apply State.linkReinit_keeps
    | with_reducible apply State.linkResumes_keeps
    | split

theorem State.reinit_keeps {s0 s : State} (h : Keeps s0 s) (v : Nat × Nat × Nat) : Keeps s0 (State.reinit s v) := by
  unfold State.reinit
  repeat' first
    | with_reducible assumption
    | ((try lift_lets -underBinder); first | ((intro z; refine Keeps.cut (s0 := s0) (x := z) ?_ ?_) <;> [(dsimp -zeta only [z]); (intro hz; try clear_value z)]) | ((intro z; refine Keeps.cut (s0 := s0) (x := z.1) ?_ ?_) <;> [(dsimp -zeta only [z]); (intro hz; try clear_value z)]) | (intro z; have hz : z.arb = z.arb := rfl; clear hz) | (intro z; try clear_value z))
    | with_reducible apply State.modChan_keeps
    | with_reducible apply State.modDie_keeps
    | with_reducible apply State.modRegion_keeps
    | with_reducible apply State.credit_keeps
    | with_reducible apply State.portReinit_keeps
    | with_reducible apply State.pairReinit_keeps
    | with_reducible apply State.chanReinit_keeps
    | with_reducible apply State.ctrReinit_keeps
    | with_reducible apply State.linkAfresh_keeps
    | split

theorem State.withholdUsers_keeps {s0 s : State} (h : Keeps s0 s) (vs : List (Nat × Nat × Nat)) : Keeps s0 (State.withholdUsers s vs) := by
  unfold State.withholdUsers
  repeat' first
    | with_reducible assumption
    | ((try lift_lets -underBinder); first | ((intro z; refine Keeps.cut (s0 := s0) (x := z) ?_ ?_) <;> [(dsimp -zeta only [z]); (intro hz; try clear_value z)]) | ((intro z; refine Keeps.cut (s0 := s0) (x := z.1) ?_ ?_) <;> [(dsimp -zeta only [z]); (intro hz; try clear_value z)]) | (intro z; have hz : z.arb = z.arb := rfl; clear hz) | (intro z; try clear_value z))
    | with_reducible apply State.modItem_keeps
    | with_reducible apply State.modRegion_keeps
    | ((with_reducible refine Keeps.foldl _ _ ?_ (fun z w hz => ?_)); (try beta_reduce))
    | split

theorem State.coachEvent_keeps {s0 s : State} (h : Keeps s0 s) (num : Nat) (items : List (Nat × Nat)) : Keeps s0 (State.coachEvent s num items) := by
  unfold State.coachEvent
  repeat' first
    | with_reducible assumption
    | with_reducible apply State.raiseLead_keeps
    | split

theorem State.pauseJob_keeps {s0 s : State} (h : Keeps s0 s) (cause : Nat) : Keeps s0 (State.pauseJob s cause) := by
  unfold State.pauseJob
  repeat' first
    | with_reducible assumption
    | with_reducible apply State.wr_keeps
    | with_reducible apply State.abortAll_keeps
    | with_reducible apply State.coachEvent_keeps
    | split

theorem State.refuseOrder_keeps {s0 s : State} (h : Keeps s0 s) (order : Nat) (cause : Nat) : Keeps s0 (State.refuseOrder s order cause) := by
  unfold State.refuseOrder
  repeat' first
    | with_reducible assumption
    | with_reducible apply State.raiseLead_keeps
    | split

theorem State.orderImage_keeps {s0 s : State} (h : Keeps s0 s) : Keeps s0 (State.orderImage s) := by
  unfold State.orderImage
  repeat' first
    | with_reducible assumption
    | ((try lift_lets -underBinder); first | ((intro z; refine Keeps.cut (s0 := s0) (x := z) ?_ ?_) <;> [(dsimp -zeta only [z]); (intro hz; try clear_value z)]) | ((intro z; refine Keeps.cut (s0 := s0) (x := z.1) ?_ ?_) <;> [(dsimp -zeta only [z]); (intro hz; try clear_value z)]) | (intro z; have hz : z.arb = z.arb := rfl; clear hz) | (intro z; try clear_value z))
    | with_reducible apply State.wr_keeps
    | with_reducible apply State.refuseOrder_keeps
    | split
    | with_reducible refine Keeps.lit ?_ rfl

theorem State.takeSnap_keeps {s0 s : State} (h : Keeps s0 s) : Keeps s0 (State.takeSnap s) := by
  unfold State.takeSnap
  repeat' first
    | with_reducible assumption
    | ((try lift_lets -underBinder); first | ((intro z; refine Keeps.cut (s0 := s0) (x := z) ?_ ?_) <;> [(dsimp -zeta only [z]); (intro hz; try clear_value z)]) | ((intro z; refine Keeps.cut (s0 := s0) (x := z.1) ?_ ?_) <;> [(dsimp -zeta only [z]); (intro hz; try clear_value z)]) | (intro z; have hz : z.arb = z.arb := rfl; clear hz) | (intro z; try clear_value z))
    | with_reducible apply State.wr_keeps
    | split
    | with_reducible refine Keeps.lit ?_ rfl

theorem State.snapIfIdle_keeps {s0 s : State} (h : Keeps s0 s) : Keeps s0 (State.snapIfIdle s) := by
  unfold State.snapIfIdle
  repeat' first
    | with_reducible assumption
    | with_reducible apply State.takeSnap_keeps
    | split

theorem State.writeImage_keeps {s0 s : State} (h : Keeps s0 s) (d : Nat) (seq : Nat) : Keeps s0 (State.writeImage s d seq) := by
  unfold State.writeImage
  repeat' first
    | with_reducible assumption
    | ((try lift_lets -underBinder); first | ((intro z; refine Keeps.cut (s0 := s0) (x := z) ?_ ?_) <;> [(dsimp -zeta only [z]); (intro hz; try clear_value z)]) | ((intro z; refine Keeps.cut (s0 := s0) (x := z.1) ?_ ?_) <;> [(dsimp -zeta only [z]); (intro hz; try clear_value z)]) | (intro z; have hz : z.arb = z.arb := rfl; clear hz) | (intro z; try clear_value z))
    | with_reducible apply State.setBytes_keeps
    | with_reducible apply State.forgetAt_keeps
    | ((with_reducible refine Keeps.foldl _ _ ?_ (fun z w hz => ?_)); (try beta_reduce))
    | split
    | with_reducible refine Keeps.lit ?_ rfl

theorem execImageDone_keeps {s0 s : State} (h : Keeps s0 s) : AnsKeeps s0 (execImageDone s) := by
  unfold execImageDone
  repeat' first
    | with_reducible assumption
    | ((try lift_lets -underBinder); first | ((intro z; refine Keeps.cut (s0 := s0) (x := z) ?_ ?_) <;> [(dsimp -zeta only [z]); (intro hz; try clear_value z)]) | ((intro z; refine Keeps.cut (s0 := s0) (x := z.1) ?_ ?_) <;> [(dsimp -zeta only [z]); (intro hz; try clear_value z)]) | (intro z; have hz : z.arb = z.arb := rfl; clear hz) | (intro z; try clear_value z))
    | with_reducible apply State.wr_keeps
    | with_reducible apply State.used_keeps
    | with_reducible apply State.raiseLead_keeps
    | with_reducible apply State.writeImage_keeps
    | ((with_reducible refine Keeps.foldl _ _ ?_ (fun z w hz => ?_)); (try beta_reduce))
    | with_reducible refine AnsKeeps.next ?_
    | split

theorem State.applyImage_keeps {s0 s : State} (h : Keeps s0 s) (z : Snap) : Keeps s0 (State.applyImage s z) := by
  unfold State.applyImage
  repeat' first
    | with_reducible assumption
    | ((try lift_lets -underBinder); first | ((intro z; refine Keeps.cut (s0 := s0) (x := z) ?_ ?_) <;> [(dsimp -zeta only [z]); (intro hz; try clear_value z)]) | ((intro z; refine Keeps.cut (s0 := s0) (x := z.1) ?_ ?_) <;> [(dsimp -zeta only [z]); (intro hz; try clear_value z)]) | (intro z; have hz : z.arb = z.arb := rfl; clear hz) | (intro z; try clear_value z))
    | with_reducible apply State.wr_keeps
    | ((with_reducible refine Keeps.foldl _ _ ?_ (fun z w hz => ?_)); (try beta_reduce))
    | split
    | with_reducible refine Keeps.lit ?_ rfl

theorem State.restoreImage_keeps {s0 s : State} (h : Keeps s0 s) : Keeps s0 (State.restoreImage s) := by
  unfold State.restoreImage
  repeat' first
    | with_reducible assumption
    | ((try lift_lets -underBinder); first | ((intro z; refine Keeps.cut (s0 := s0) (x := z) ?_ ?_) <;> [(dsimp -zeta only [z]); (intro hz; try clear_value z)]) | ((intro z; refine Keeps.cut (s0 := s0) (x := z.1) ?_ ?_) <;> [(dsimp -zeta only [z]); (intro hz; try clear_value z)]) | (intro z; have hz : z.arb = z.arb := rfl; clear hz) | (intro z; try clear_value z))
    | with_reducible apply State.wr_keeps
    | with_reducible apply State.refuseOrder_keeps
    | with_reducible apply State.applyImage_keeps
    | split

theorem State.flipMirror_keeps {s0 s : State} (h : Keeps s0 s) (d : Nat) (rs : List Nat) : Keeps s0 (State.flipMirror s d rs) := by
  unfold State.flipMirror
  repeat' first
    | with_reducible assumption
    | with_reducible apply State.modDie_keeps
    | ((with_reducible refine Keeps.foldl _ _ ?_ (fun z w hz => ?_)); (try beta_reduce))
    | split

theorem State.applyCommit_keeps {s0 s : State} (h : Keeps s0 s) (d : Nat) : Keeps s0 (State.applyCommit s d) := by
  unfold State.applyCommit
  repeat' first
    | with_reducible assumption
    | ((try lift_lets -underBinder); first | ((intro z; refine Keeps.cut (s0 := s0) (x := z) ?_ ?_) <;> [(dsimp -zeta only [z]); (intro hz; try clear_value z)]) | ((intro z; refine Keeps.cut (s0 := s0) (x := z.1) ?_ ?_) <;> [(dsimp -zeta only [z]); (intro hz; try clear_value z)]) | (intro z; have hz : z.arb = z.arb := rfl; clear hz) | (intro z; try clear_value z))
    | with_reducible apply State.wr_keeps
    | with_reducible apply State.modDie_keeps
    | with_reducible apply State.raise_keeps
    | with_reducible apply State.flipMirror_keeps
    | split

theorem execCommitList_keeps {s0 s : State} (h : Keeps s0 s) (d : Nat) (frame : Nat) (flips : List Nat) : AnsKeeps s0 (execCommitList d frame flips s) := by
  unfold execCommitList
  repeat' first
    | with_reducible assumption
    | with_reducible apply State.wr_keeps
    | with_reducible apply State.modDie_keeps
    | with_reducible apply State.flipMirror_keeps
    | with_reducible refine AnsKeeps.next ?_
    | split

theorem State.sendCommits_keeps {s0 s : State} (h : Keeps s0 s) : Keeps s0 (State.sendCommits s) := by
  unfold State.sendCommits
  repeat' first
    | with_reducible assumption
    | with_reducible apply State.send_keeps
    | ((with_reducible refine Keeps.foldl _ _ ?_ (fun z w hz => ?_)); (try beta_reduce))
    | split

theorem State.loseSpare_keeps {s0 s : State} (h : Keeps s0 s) (pos : Nat) : Keeps s0 (State.loseSpare s pos) := by
  unfold State.loseSpare
  repeat' first
    | with_reducible assumption
    | ((try lift_lets -underBinder); first | ((intro z; refine Keeps.cut (s0 := s0) (x := z) ?_ ?_) <;> [(dsimp -zeta only [z]); (intro hz; try clear_value z)]) | ((intro z; refine Keeps.cut (s0 := s0) (x := z.1) ?_ ?_) <;> [(dsimp -zeta only [z]); (intro hz; try clear_value z)]) | (intro z; have hz : z.arb = z.arb := rfl; clear hz) | (intro z; try clear_value z))
    | with_reducible apply State.wr_keeps
    | split
    | with_reducible refine Keeps.lit ?_ rfl

theorem State.resendMirrors_keeps {s0 s : State} (h : Keeps s0 s) (d : Nat) (rs : List Nat) : Keeps s0 (State.resendMirrors s d rs) := by
  unfold State.resendMirrors
  repeat' first
    | with_reducible assumption
    | ((try lift_lets -underBinder); first | ((intro z; refine Keeps.cut (s0 := s0) (x := z) ?_ ?_) <;> [(dsimp -zeta only [z]); (intro hz; try clear_value z)]) | ((intro z; refine Keeps.cut (s0 := s0) (x := z.1) ?_ ?_) <;> [(dsimp -zeta only [z]); (intro hz; try clear_value z)]) | (intro z; have hz : z.arb = z.arb := rfl; clear hz) | (intro z; try clear_value z))
    | with_reducible apply State.toBuddy_keeps
    | ((with_reducible refine Keeps.foldl _ _ ?_ (fun z w hz => ?_)); (try beta_reduce))
    | split

theorem State.copyToSpare_keeps {s0 s : State} (h : Keeps s0 s) (d : Nat) (pos : Nat) : Keeps s0 (State.copyToSpare s d pos) := by
  unfold State.copyToSpare
  repeat' first
    | with_reducible assumption
    | ((try lift_lets -underBinder); first | ((intro z; refine Keeps.cut (s0 := s0) (x := z) ?_ ?_) <;> [(dsimp -zeta only [z]); (intro hz; try clear_value z)]) | ((intro z; refine Keeps.cut (s0 := s0) (x := z.1) ?_ ?_) <;> [(dsimp -zeta only [z]); (intro hz; try clear_value z)]) | (intro z; have hz : z.arb = z.arb := rfl; clear hz) | (intro z; try clear_value z))
    | with_reducible apply State.send_keeps
    | ((with_reducible refine Keeps.foldl _ _ ?_ (fun z w hz => ?_)); (try beta_reduce))
    | split

theorem State.sendRestore_keeps {s0 s : State} (h : Keeps s0 s) (pos : Nat) : Keeps s0 (State.sendRestore s pos) := by
  unfold State.sendRestore
  repeat' first
    | with_reducible assumption
    | ((try lift_lets -underBinder); first | ((intro z; refine Keeps.cut (s0 := s0) (x := z) ?_ ?_) <;> [(dsimp -zeta only [z]); (intro hz; try clear_value z)]) | ((intro z; refine Keeps.cut (s0 := s0) (x := z.1) ?_ ?_) <;> [(dsimp -zeta only [z]); (intro hz; try clear_value z)]) | (intro z; have hz : z.arb = z.arb := rfl; clear hz) | (intro z; try clear_value z))
    | with_reducible apply State.resendMirrors_keeps
    | with_reducible apply State.copyToSpare_keeps
    | ((with_reducible refine Keeps.foldl _ _ ?_ (fun z w hz => ?_)); (try beta_reduce))
    | split
    | with_reducible refine Keeps.lit ?_ rfl

theorem State.remap_keeps {s0 s : State} (h : Keeps s0 s) (pos : Nat) (trigger : Nat) : Keeps s0 (State.remap s pos trigger) := by
  unfold State.remap
  repeat' first
    | with_reducible assumption
    | ((try lift_lets -underBinder); first | ((intro z; refine Keeps.cut (s0 := s0) (x := z) ?_ ?_) <;> [(dsimp -zeta only [z]); (intro hz; try clear_value z)]) | ((intro z; refine Keeps.cut (s0 := s0) (x := z.1) ?_ ?_) <;> [(dsimp -zeta only [z]); (intro hz; try clear_value z)]) | (intro z; have hz : z.arb = z.arb := rfl; clear hz) | (intro z; try clear_value z))
    | with_reducible apply State.wr_keeps
    | with_reducible apply State.send_keeps
    | with_reducible apply State.coachEvent_keeps
    | with_reducible apply State.loseSpare_keeps
    | with_reducible apply State.sendRestore_keeps
    | split
    | with_reducible refine Keeps.lit ?_ rfl

theorem State.loadRegions_keeps {s0 s : State} (h : Keeps s0 s) : Keeps s0 (State.loadRegions s) := by
  unfold State.loadRegions
  repeat' first
    | with_reducible assumption
    | ((try lift_lets -underBinder); first | ((intro z; refine Keeps.cut (s0 := s0) (x := z) ?_ ?_) <;> [(dsimp -zeta only [z]); (intro hz; try clear_value z)]) | ((intro z; refine Keeps.cut (s0 := s0) (x := z.1) ?_ ?_) <;> [(dsimp -zeta only [z]); (intro hz; try clear_value z)]) | (intro z; have hz : z.arb = z.arb := rfl; clear hz) | (intro z; try clear_value z))
    | split
    | with_reducible refine Keeps.lit ?_ rfl

theorem execRestoreDone_keeps {s0 s : State} (h : Keeps s0 s) (copies : Copies) (mirrorLives : List (Nat × Bool)) (bytes : Nat) (ms : Nat) : AnsKeeps s0 (execRestoreDone copies mirrorLives bytes ms s) := by
  unfold execRestoreDone
  repeat' first
    | with_reducible assumption
    | ((try lift_lets -underBinder); first | ((intro z; refine Keeps.cut (s0 := s0) (x := z) ?_ ?_) <;> [(dsimp -zeta only [z]); (intro hz; try clear_value z)]) | ((intro z; refine Keeps.cut (s0 := s0) (x := z.1) ?_ ?_) <;> [(dsimp -zeta only [z]); (intro hz; try clear_value z)]) | (intro z; have hz : z.arb = z.arb := rfl; clear hz) | (intro z; try clear_value z))
    | with_reducible apply State.modDie_keeps
    | with_reducible apply State.modRegion_keeps
    | with_reducible apply State.raiseLead_keeps
    | with_reducible apply State.refreshLive_keeps
    | with_reducible apply State.restoreShard_keeps
    | with_reducible apply State.loadRegions_keeps
    | ((with_reducible refine Keeps.foldl _ _ ?_ (fun z w hz => ?_)); (try beta_reduce))
    | with_reducible refine AnsKeeps.next ?_
    | split
    | with_reducible refine Keeps.lit ?_ rfl

theorem State.setBisection_keeps {s0 s : State} (h : Keeps s0 s) (shard : Nat) (b : Option (Nat × Nat × List Nat)) : Keeps s0 (State.setBisection s shard b) := by
  unfold State.setBisection
  repeat' first
    | with_reducible assumption
    | ((try lift_lets -underBinder); first | ((intro z; refine Keeps.cut (s0 := s0) (x := z) ?_ ?_) <;> [(dsimp -zeta only [z]); (intro hz; try clear_value z)]) | ((intro z; refine Keeps.cut (s0 := s0) (x := z.1) ?_ ?_) <;> [(dsimp -zeta only [z]); (intro hz; try clear_value z)]) | (intro z; have hz : z.arb = z.arb := rfl; clear hz) | (intro z; try clear_value z))
    | split
    | with_reducible refine Keeps.lit ?_ rfl

theorem State.orderRepair_keeps {s0 s : State} (h : Keeps s0 s) (shard : Nat) (block : Nat) (rs : List RootReport) (r : Nat) : Keeps s0 (State.orderRepair s shard block rs r) := by
  unfold State.orderRepair
  repeat' first
    | with_reducible assumption
    | ((try lift_lets -underBinder); first | ((intro z; refine Keeps.cut (s0 := s0) (x := z) ?_ ?_) <;> [(dsimp -zeta only [z]); (intro hz; try clear_value z)]) | ((intro z; refine Keeps.cut (s0 := s0) (x := z.1) ?_ ?_) <;> [(dsimp -zeta only [z]); (intro hz; try clear_value z)]) | (intro z; have hz : z.arb = z.arb := rfl; clear hz) | (intro z; try clear_value z))
    | with_reducible apply State.send_keeps
    | split
    | with_reducible refine Keeps.lit ?_ rfl

theorem State.judgeBlock_keeps {s0 s : State} (h : Keeps s0 s) (shard : Nat) (block : Nat) (rs : List RootReport) : Keeps s0 (State.judgeBlock s shard block rs) := by
  unfold State.judgeBlock
  repeat' first
    | with_reducible assumption
    | with_reducible apply State.raiseLead_keeps
    | with_reducible apply State.orderRepair_keeps
    | ((with_reducible refine Keeps.foldl _ _ ?_ (fun z w hz => ?_)); (try beta_reduce))
    | split

theorem State.repairsJudged_keeps {s0 s : State} (h : Keeps s0 s) (shard : Nat) : Keeps s0 (State.repairsJudged s shard) := by
  unfold State.repairsJudged
  repeat' first
    | with_reducible assumption
    | ((try lift_lets -underBinder); first | ((intro z; refine Keeps.cut (s0 := s0) (x := z) ?_ ?_) <;> [(dsimp -zeta only [z]); (intro hz; try clear_value z)]) | ((intro z; refine Keeps.cut (s0 := s0) (x := z.1) ?_ ?_) <;> [(dsimp -zeta only [z]); (intro hz; try clear_value z)]) | (intro z; have hz : z.arb = z.arb := rfl; clear hz) | (intro z; try clear_value z))
    | split
    | with_reducible refine Keeps.lit ?_ rfl

theorem execDigestRootReport_keeps {s0 s : State} (h : Keeps s0 s) (shard : Nat) (level : Nat) (rs : List RootReport) : AnsKeeps s0 (execDigestRootReport shard level rs s) := by
  unfold execDigestRootReport
  repeat' first
    | with_reducible assumption
    | ((try lift_lets -underBinder); first | ((intro z; refine Keeps.cut (s0 := s0) (x := z) ?_ ?_) <;> [(dsimp -zeta only [z]); (intro hz; try clear_value z)]) | ((intro z; refine Keeps.cut (s0 := s0) (x := z.1) ?_ ?_) <;> [(dsimp -zeta only [z]); (intro hz; try clear_value z)]) | (intro z; have hz : z.arb = z.arb := rfl; clear hz) | (intro z; try clear_value z))
    | with_reducible apply State.send_keeps
    | with_reducible apply State.raiseLead_keeps
    | with_reducible apply State.setBisection_keeps
    | with_reducible apply State.judgeBlock_keeps
    | with_reducible apply State.repairsJudged_keeps
    | ((with_reducible refine Keeps.foldl _ _ ?_ (fun z w hz => ?_)); (try beta_reduce))
    | with_reducible refine AnsKeeps.next ?_
    | split

theorem State.ringRetrains_keeps {s0 s : State} (h : Keeps s0 s) : Keeps s0 (State.ringRetrains s) := by
  unfold State.ringRetrains
  repeat' first
    | with_reducible assumption
    | with_reducible apply State.startTraining_keeps
    | ((with_reducible refine Keeps.foldl _ _ ?_ (fun z w hz => ?_)); (try beta_reduce))
    | split

theorem State.closeBypass_keeps {s0 s : State} (h : Keeps s0 s) (cause : Nat) : Keeps s0 (State.closeBypass s cause) := by
  unfold State.closeBypass
  repeat' first
    | with_reducible assumption
    | with_reducible apply State.bypassClose_keeps
    | with_reducible apply State.ringRetrains_keeps
    | split

theorem State.openBypass_keeps {s0 s : State} (h : Keeps s0 s) : Keeps s0 (State.openBypass s) := by
  unfold State.openBypass
  repeat' first
    | with_reducible assumption
    | with_reducible apply State.wr_keeps
    | with_reducible apply State.ringRetrains_keeps
    | split

theorem State.joinTeam_keeps {s0 s : State} (h : Keeps s0 s) : Keeps s0 (State.joinTeam s) := by
  unfold State.joinTeam
  repeat' first
    | with_reducible assumption
    | ((try lift_lets -underBinder); first | ((intro z; refine Keeps.cut (s0 := s0) (x := z) ?_ ?_) <;> [(dsimp -zeta only [z]); (intro hz; try clear_value z)]) | ((intro z; refine Keeps.cut (s0 := s0) (x := z.1) ?_ ?_) <;> [(dsimp -zeta only [z]); (intro hz; try clear_value z)]) | (intro z; have hz : z.arb = z.arb := rfl; clear hz) | (intro z; try clear_value z))
    | with_reducible apply State.wr_keeps
    | with_reducible apply State.floodOut_keeps
    | split
    | with_reducible refine Keeps.lit ?_ rfl

theorem State.joinEnds_keeps {s0 s : State} (h : Keeps s0 s) : Keeps s0 (State.joinEnds s) := by
  unfold State.joinEnds
  repeat' first
    | with_reducible assumption
    | with_reducible apply State.wr_keeps
    | split

theorem State.setHold_keeps {s0 s : State} (h : Keeps s0 s) (coach : CapBlock) (rtt : Nat) (formed : State → State)
    (hf : ∀ t, Keeps s0 t → Keeps s0 (formed t)) : Keeps s0 (s.setHold coach rtt formed) := by
  unfold State.setHold
  split
  · have h1 := State.joinEnds_keeps h
    dsimp only
    split
    · exact State.raiseLead_keeps h1 _ _ _
    · exact h1
  · exact hf _ (State.wr_keeps h _ _)

theorem State.teamForms_keeps {s0 s : State} (h : Keeps s0 s) (coach : CapBlock) (v : Nat) (cs : List CapBlock) : Keeps s0 (State.teamForms s coach v cs) := by
  unfold State.teamForms
  repeat' first
    | with_reducible assumption
    | ((try lift_lets -underBinder); first | ((intro z; refine Keeps.cut (s0 := s0) (x := z) ?_ ?_) <;> [(dsimp -zeta only [z]); (intro hz; try clear_value z)]) | ((intro z; refine Keeps.cut (s0 := s0) (x := z.1) ?_ ?_) <;> [(dsimp -zeta only [z]); (intro hz; try clear_value z)]) | (intro z; have hz : z.arb = z.arb := rfl; clear hz) | (intro z; try clear_value z))
    | with_reducible apply State.wr_keeps
    | with_reducible apply State.raiseLead_keeps
    | split
    | with_reducible refine Keeps.lit ?_ rfl

theorem State.elect_keeps {s0 s : State} (h : Keeps s0 s) (rtts : List (Nat × Nat)) : Keeps s0 (State.elect s rtts) := by
  unfold State.elect
  repeat' first
    | with_reducible assumption
    | ((try lift_lets -underBinder); first | ((intro z; refine Keeps.cut (s0 := s0) (x := z) ?_ ?_) <;> [(dsimp -zeta only [z]); (intro hz; try clear_value z)]) | ((intro z; refine Keeps.cut (s0 := s0) (x := z.1) ?_ ?_) <;> [(dsimp -zeta only [z]); (intro hz; try clear_value z)]) | (intro z; have hz : z.arb = z.arb := rfl; clear hz) | (intro z; try clear_value z))
    | with_reducible apply State.raiseLead_keeps
    | with_reducible apply State.closeBypass_keeps
    | with_reducible apply State.joinEnds_keeps
    | with_reducible apply State.teamForms_keeps
    | ((with_reducible refine State.setHold_keeps ?_ _ _ _ (fun z hz => ?_)); (try beta_reduce))
    | ((with_reducible refine Keeps.foldl _ _ ?_ (fun z w hz => ?_)); (try beta_reduce))
    | split

theorem State.loseAll_keeps {s0 s : State} (h : Keeps s0 s) (ps : List (Nat × Nat)) : Keeps s0 (State.loseAll s ps) := by
  unfold State.loseAll
  repeat' first
    | with_reducible assumption
    | with_reducible apply State.remap_keeps
    | ((with_reducible refine Keeps.foldl _ _ ?_ (fun z w hz => ?_)); (try beta_reduce))
    | split

theorem State.reelect_keeps {s0 s : State} (h : Keeps s0 s) (rtts : List (Nat × Nat)) : Keeps s0 (State.reelect s rtts) := by
  unfold State.reelect
  repeat' first
    | with_reducible assumption
    | ((try lift_lets -underBinder); first | ((intro z; refine Keeps.cut (s0 := s0) (x := z) ?_ ?_) <;> [(dsimp -zeta only [z]); (intro hz; try clear_value z)]) | ((intro z; refine Keeps.cut (s0 := s0) (x := z.1) ?_ ?_) <;> [(dsimp -zeta only [z]); (intro hz; try clear_value z)]) | (intro z; have hz : z.arb = z.arb := rfl; clear hz) | (intro z; try clear_value z))
    | with_reducible apply State.wr_keeps
    | with_reducible apply State.raiseLead_keeps
    | with_reducible apply State.pauseJob_keeps
    | with_reducible apply State.loseAll_keeps
    | ((with_reducible refine State.setHold_keeps ?_ _ _ _ (fun z hz => ?_)); (try beta_reduce))
    | split
    | with_reducible refine Keeps.lit ?_ rfl

theorem execCoachmanElection_keeps {s0 s : State} (h : Keeps s0 s) (x : Electors) : AnsKeeps s0 (execCoachmanElection x s) := by
  unfold execCoachmanElection
  repeat' first
    | with_reducible assumption
    | ((try lift_lets -underBinder); first | ((intro z; refine Keeps.cut (s0 := s0) (x := z) ?_ ?_) <;> [(dsimp -zeta only [z]); (intro hz; try clear_value z)]) | ((intro z; refine Keeps.cut (s0 := s0) (x := z.1) ?_ ?_) <;> [(dsimp -zeta only [z]); (intro hz; try clear_value z)]) | (intro z; have hz : z.arb = z.arb := rfl; clear hz) | (intro z; try clear_value z))
    | with_reducible apply State.elect_keeps
    | with_reducible apply State.reelect_keeps
    | ((with_reducible refine Keeps.foldl _ _ ?_ (fun z w hz => ?_)); (try beta_reduce))
    | with_reducible refine AnsKeeps.next ?_
    | split
    | with_reducible refine Keeps.lit ?_ rfl

theorem State.modFrame_keeps {s0 s : State} (h : Keeps s0 s) (f : FrameSt → FrameSt) : Keeps s0 (State.modFrame s f) := by
  unfold State.modFrame
  repeat' first
    | with_reducible assumption
    | split
    | with_reducible refine Keeps.lit ?_ rfl

theorem State.modTeam_keeps {s0 s : State} (h : Keeps s0 s) (f : Team → Team) : Keeps s0 (State.modTeam s f) := by
  unfold State.modTeam
  repeat' first
    | with_reducible assumption
    | split
    | with_reducible refine Keeps.lit ?_ rfl

theorem State.streamMiss_keeps {s0 s : State} (h : Keeps s0 s) (d : Nat) (e : StreamEntry) : Keeps s0 (State.streamMiss s d e) := by
  unfold State.streamMiss
  repeat' first
    | with_reducible assumption
    | ((try lift_lets -underBinder); first | ((intro z; refine Keeps.cut (s0 := s0) (x := z) ?_ ?_) <;> [(dsimp -zeta only [z]); (intro hz; try clear_value z)]) | ((intro z; refine Keeps.cut (s0 := s0) (x := z.1) ?_ ?_) <;> [(dsimp -zeta only [z]); (intro hz; try clear_value z)]) | (intro z; have hz : z.arb = z.arb := rfl; clear hz) | (intro z; try clear_value z))
    | with_reducible apply State.count_keeps
    | with_reducible apply State.raise_keeps
    | split

theorem State.closeDeadlines_keeps {s0 s : State} (h : Keeps s0 s) (d : Nat) : Keeps s0 (State.closeDeadlines s d) := by
  unfold State.closeDeadlines
  repeat' first
    | with_reducible assumption
    | ((try lift_lets -underBinder); first | ((intro z; refine Keeps.cut (s0 := s0) (x := z) ?_ ?_) <;> [(dsimp -zeta only [z]); (intro hz; try clear_value z)]) | ((intro z; refine Keeps.cut (s0 := s0) (x := z.1) ?_ ?_) <;> [(dsimp -zeta only [z]); (intro hz; try clear_value z)]) | (intro z; have hz : z.arb = z.arb := rfl; clear hz) | (intro z; try clear_value z))
    | with_reducible apply State.modChan_keeps
    | with_reducible apply State.streamMiss_keeps
    | ((with_reducible refine Keeps.foldl _ _ ?_ (fun z w hz => ?_)); (try beta_reduce))
    | split

theorem State.counterTick_keeps {s0 s : State} (h : Keeps s0 s) (d : Nat) (k : Nat) : Keeps s0 (State.counterTick s d k) := by
  unfold State.counterTick
  repeat' first
    | with_reducible assumption
    | with_reducible apply State.wr_keeps
    | split

theorem State.timetableLate_keeps {s0 s : State} (h : Keeps s0 s) (d : Nat) : Keeps s0 (State.timetableLate s d) := by
  unfold State.timetableLate
  repeat' first
    | with_reducible assumption
    | with_reducible apply State.raise_keeps
    | split

theorem State.floodSix_keeps {s0 s : State} (h : Keeps s0 s) (x : Flood) (o : Out) : Keeps s0 (State.floodSix s x o) := by
  unfold State.floodSix
  repeat' first
    | with_reducible assumption
    | with_reducible apply State.send_keeps
    | with_reducible apply State.used_keeps
    | with_reducible apply State.floodOut_keeps
    | with_reducible apply State.seen_keeps
    | split

theorem State.sendReport_keeps {s0 s : State} (h : Keeps s0 s) : Keeps s0 (State.sendReport s) := by
  unfold State.sendReport
  repeat' first
    | with_reducible assumption
    | ((try lift_lets -underBinder); first | ((intro z; refine Keeps.cut (s0 := s0) (x := z) ?_ ?_) <;> [(dsimp -zeta only [z]); (intro hz; try clear_value z)]) | ((intro z; refine Keeps.cut (s0 := s0) (x := z.1) ?_ ?_) <;> [(dsimp -zeta only [z]); (intro hz; try clear_value z)]) | (intro z; have hz : z.arb = z.arb := rfl; clear hz) | (intro z; try clear_value z))
    | with_reducible apply State.report_keeps
    | with_reducible apply State.modFrame_keeps
    | with_reducible apply State.floodSix_keeps
    | split

theorem State.standbyCopy_keeps {s0 s : State} (h : Keeps s0 s) : Keeps s0 (State.standbyCopy s) := by
  unfold State.standbyCopy
  repeat' first
    | with_reducible assumption
    | ((try lift_lets -underBinder); first | ((intro z; refine Keeps.cut (s0 := s0) (x := z) ?_ ?_) <;> [(dsimp -zeta only [z]); (intro hz; try clear_value z)]) | ((intro z; refine Keeps.cut (s0 := s0) (x := z.1) ?_ ?_) <;> [(dsimp -zeta only [z]); (intro hz; try clear_value z)]) | (intro z; have hz : z.arb = z.arb := rfl; clear hz) | (intro z; try clear_value z))
    | with_reducible apply State.wr_keeps
    | split
    | with_reducible refine Keeps.lit ?_ rfl

theorem State.leaveService_keeps {s0 s : State} (h : Keeps s0 s) : Keeps s0 (State.leaveService s) := by
  unfold State.leaveService
  repeat' first
    | with_reducible assumption
    | with_reducible apply State.wr_keeps
    | with_reducible apply State.joinTeam_keeps
    | split

theorem State.tickEnds_keeps {s0 s : State} (h : Keeps s0 s) : Keeps s0 (State.tickEnds s) := by
  unfold State.tickEnds
  repeat' first
    | with_reducible assumption
    | ((try lift_lets -underBinder); first | ((intro z; refine Keeps.cut (s0 := s0) (x := z) ?_ ?_) <;> [(dsimp -zeta only [z]); (intro hz; try clear_value z)]) | ((intro z; refine Keeps.cut (s0 := s0) (x := z.1) ?_ ?_) <;> [(dsimp -zeta only [z]); (intro hz; try clear_value z)]) | (intro z; have hz : z.arb = z.arb := rfl; clear hz) | (intro z; try clear_value z))
    | with_reducible apply State.returnAll_keeps
    | with_reducible apply State.overrunAll_keeps
    | with_reducible apply State.settleRegions_keeps
    | with_reducible apply State.snapIfIdle_keeps
    | with_reducible apply State.modFrame_keeps
    | with_reducible apply State.closeDeadlines_keeps
    | ((with_reducible refine Keeps.foldl _ _ ?_ (fun z w hz => ?_)); (try beta_reduce))
    | split
    | with_reducible refine Keeps.lit ?_ rfl

theorem State.recount_keeps {s0 s : State} (h : Keeps s0 s) (n : Nat) : Keeps s0 (State.recount s n) := by
  unfold State.recount
  repeat' first
    | with_reducible assumption
    | with_reducible apply State.count_keeps
    | split
    | with_reducible refine Keeps.lit ?_ rfl

theorem State.tickBegins_keeps {s0 s : State} (h : Keeps s0 s) : Keeps s0 (State.tickBegins s) := by
  unfold State.tickBegins
  repeat' first
    | with_reducible assumption
    | ((try lift_lets -underBinder); first | ((intro z; refine Keeps.cut (s0 := s0) (x := z) ?_ ?_) <;> [(dsimp -zeta only [z]); (intro hz; try clear_value z)]) | ((intro z; refine Keeps.cut (s0 := s0) (x := z.1) ?_ ?_) <;> [(dsimp -zeta only [z]); (intro hz; try clear_value z)]) | (intro z; have hz : z.arb = z.arb := rfl; clear hz) | (intro z; try clear_value z))
    | with_reducible apply State.wr_keeps
    | with_reducible apply State.modFrame_keeps
    | with_reducible apply State.recount_keeps
    | split

theorem State.portsTick_keeps {s0 s : State} (h : Keeps s0 s) : Keeps s0 (State.portsTick s) := by
  unfold State.portsTick
  repeat' first
    | with_reducible assumption
    | split
    | with_reducible refine Keeps.lit ?_ rfl

theorem State.tickChecks_keeps {s0 s : State} (h : Keeps s0 s) (vs : List Violation) (absent : List Nat) : Keeps s0 (State.tickChecks s vs absent) := by
  unfold State.tickChecks
  repeat' first
    | with_reducible assumption
    | ((try lift_lets -underBinder); first | ((intro z; refine Keeps.cut (s0 := s0) (x := z) ?_ ?_) <;> [(dsimp -zeta only [z]); (intro hz; try clear_value z)]) | ((intro z; refine Keeps.cut (s0 := s0) (x := z.1) ?_ ?_) <;> [(dsimp -zeta only [z]); (intro hz; try clear_value z)]) | (intro z; have hz : z.arb = z.arb := rfl; clear hz) | (intro z; try clear_value z))
    | with_reducible apply State.modDie_keeps
    | with_reducible apply State.fenceFound_keeps
    | with_reducible apply State.violate_keeps
    | with_reducible apply State.snapLink_keeps
    | with_reducible apply State.counterTick_keeps
    | with_reducible apply State.timetableLate_keeps
    | with_reducible apply State.portsTick_keeps
    | ((with_reducible refine Keeps.foldl _ _ ?_ (fun z w hz => ?_)); (try beta_reduce))
    | split

theorem State.tickDuties_keeps {s0 s : State} (h : Keeps s0 s) : Keeps s0 (State.tickDuties s) := by
  unfold State.tickDuties
  repeat' first
    | with_reducible assumption
    | ((try lift_lets -underBinder); first | ((intro z; refine Keeps.cut (s0 := s0) (x := z) ?_ ?_) <;> [(dsimp -zeta only [z]); (intro hz; try clear_value z)]) | ((intro z; refine Keeps.cut (s0 := s0) (x := z.1) ?_ ?_) <;> [(dsimp -zeta only [z]); (intro hz; try clear_value z)]) | (intro z; have hz : z.arb = z.arb := rfl; clear hz) | (intro z; try clear_value z))
    | with_reducible apply State.armPending_keeps
    | with_reducible apply State.sendCommits_keeps
    | with_reducible apply State.openBypass_keeps
    | with_reducible apply State.modTeam_keeps
    | split

theorem execFrameTick_keeps {s0 s : State} (h : Keeps s0 s) (absent : List Nat) : AnsKeeps s0 (execFrameTick absent s) := by
  unfold execFrameTick
  repeat' first
    | with_reducible assumption
    | ((try lift_lets -underBinder); first | ((intro z; refine Keeps.cut (s0 := s0) (x := z) ?_ ?_) <;> [(dsimp -zeta only [z]); (intro hz; try clear_value z)]) | ((intro z; refine Keeps.cut (s0 := s0) (x := z.1) ?_ ?_) <;> [(dsimp -zeta only [z]); (intro hz; try clear_value z)]) | (intro z; have hz : z.arb = z.arb := rfl; clear hz) | (intro z; try clear_value z))
    | with_reducible apply State.passTo_keeps
    | with_reducible apply State.modFrame_keeps
    | with_reducible apply State.sendReport_keeps
    | with_reducible apply State.tickEnds_keeps
    | with_reducible apply State.tickBegins_keeps
    | with_reducible apply State.tickChecks_keeps
    | with_reducible apply State.tickDuties_keeps
    | with_reducible refine AnsKeeps.next ?_
    | split

theorem execWaybillCounts_keeps {s0 s : State} (h : Keeps s0 s) (d : Nat) (l : Nat) (f : Flit) (c : LinkCounts) : AnsKeeps s0 (execWaybillCounts d l f c s) := by
  unfold execWaybillCounts
  repeat' first
    | with_reducible assumption
    | ((try lift_lets -underBinder); first | ((intro z; refine Keeps.cut (s0 := s0) (x := z) ?_ ?_) <;> [(dsimp -zeta only [z]); (intro hz; try clear_value z)]) | ((intro z; refine Keeps.cut (s0 := s0) (x := z.1) ?_ ?_) <;> [(dsimp -zeta only [z]); (intro hz; try clear_value z)]) | (intro z; have hz : z.arb = z.arb := rfl; clear hz) | (intro z; try clear_value z))
    | with_reducible apply State.modLink_keeps
    | with_reducible apply State.rxSequenced_keeps
    | with_reducible apply State.decideLink_keeps
    | with_reducible apply State.sendReport_keeps
    | with_reducible refine AnsKeeps.next ?_
    | split

theorem State.gather_keeps {s0 s : State} (h : Keeps s0 s) : Keeps s0 (State.gather s) := by
  unfold State.gather
  repeat' first
    | with_reducible assumption
    | ((try lift_lets -underBinder); first | ((intro z; refine Keeps.cut (s0 := s0) (x := z) ?_ ?_) <;> [(dsimp -zeta only [z]); (intro hz; try clear_value z)]) | ((intro z; refine Keeps.cut (s0 := s0) (x := z.1) ?_ ?_) <;> [(dsimp -zeta only [z]); (intro hz; try clear_value z)]) | (intro z; have hz : z.arb = z.arb := rfl; clear hz) | (intro z; try clear_value z))
    | with_reducible apply State.modTeam_keeps
    | with_reducible apply State.floodSix_keeps
    | split

theorem State.hearReport_keeps {s0 s : State} (h : Keeps s0 s) (tag : BitVec 16) (r : Report) : Keeps s0 (State.hearReport s tag r) := by
  unfold State.hearReport
  repeat' first
    | with_reducible assumption
    | ((try lift_lets -underBinder); first | ((intro z; refine Keeps.cut (s0 := s0) (x := z) ?_ ?_) <;> [(dsimp -zeta only [z]); (intro hz; try clear_value z)]) | ((intro z; refine Keeps.cut (s0 := s0) (x := z.1) ?_ ?_) <;> [(dsimp -zeta only [z]); (intro hz; try clear_value z)]) | (intro z; have hz : z.arb = z.arb := rfl; clear hz) | (intro z; try clear_value z))
    | with_reducible apply State.modTeam_keeps
    | with_reducible apply State.gather_keeps
    | split

theorem execTickReport_keeps {s0 s : State} (h : Keeps s0 s) (x : ReportIn) : AnsKeeps s0 (execTickReport x s) := by
  unfold execTickReport
  repeat' first
    | with_reducible assumption
    | ((try lift_lets -underBinder); first | ((intro z; refine Keeps.cut (s0 := s0) (x := z) ?_ ?_) <;> [(dsimp -zeta only [z]); (intro hz; try clear_value z)]) | ((intro z; refine Keeps.cut (s0 := s0) (x := z.1) ?_ ?_) <;> [(dsimp -zeta only [z]); (intro hz; try clear_value z)]) | (intro z; have hz : z.arb = z.arb := rfl; clear hz) | (intro z; try clear_value z))
    | with_reducible apply State.report_keeps
    | with_reducible apply State.rxSequenced_keeps
    | with_reducible apply State.floodIn_keeps
    | with_reducible apply State.hearReport_keeps
    | with_reducible refine AnsKeeps.next ?_
    | split

theorem State.holdVerdict_keeps {s0 s : State} (h : Keeps s0 s) (tag : BitVec 16) (v : Verdict) : Keeps s0 (State.holdVerdict s tag v) := by
  unfold State.holdVerdict
  repeat' first
    | with_reducible assumption
    | with_reducible apply State.modTeam_keeps
    | split

theorem execVerdict_keeps {s0 s : State} (h : Keeps s0 s) (x : VerdictIn) : AnsKeeps s0 (execVerdict x s) := by
  unfold execVerdict
  repeat' first
    | with_reducible assumption
    | ((try lift_lets -underBinder); first | ((intro z; refine Keeps.cut (s0 := s0) (x := z) ?_ ?_) <;> [(dsimp -zeta only [z]); (intro hz; try clear_value z)]) | ((intro z; refine Keeps.cut (s0 := s0) (x := z.1) ?_ ?_) <;> [(dsimp -zeta only [z]); (intro hz; try clear_value z)]) | (intro z; have hz : z.arb = z.arb := rfl; clear hz) | (intro z; try clear_value z))
    | with_reducible apply State.rxSequenced_keeps
    | with_reducible apply State.floodIn_keeps
    | with_reducible apply State.holdVerdict_keeps
    | with_reducible refine AnsKeeps.next ?_
    | split

theorem State.verdictNow_keeps {s0 s : State} (h : Keeps s0 s) : Keeps s0 (State.verdictNow s).1 := by
  unfold State.verdictNow
  repeat' first
    | with_reducible assumption
    | ((try lift_lets -underBinder); first | ((intro z; refine Keeps.cut (s0 := s0) (x := z) ?_ ?_) <;> [(dsimp -zeta only [z]); (intro hz; try clear_value z)]) | ((intro z; refine Keeps.cut (s0 := s0) (x := z.1) ?_ ?_) <;> [(dsimp -zeta only [z]); (intro hz; try clear_value z)]) | (intro z; have hz : z.arb = z.arb := rfl; clear hz) | (intro z; try clear_value z))
    | with_reducible apply State.raiseLead_keeps
    | with_reducible apply State.modTeam_keeps
    | with_reducible apply State.gather_keeps
    | split

theorem State.jobOrders_keeps {s0 s : State} (h : Keeps s0 s) : Keeps s0 (State.jobOrders s) := by
  unfold State.jobOrders
  repeat' first
    | with_reducible assumption
    | ((try lift_lets -underBinder); first | ((intro z; refine Keeps.cut (s0 := s0) (x := z) ?_ ?_) <;> [(dsimp -zeta only [z]); (intro hz; try clear_value z)]) | ((intro z; refine Keeps.cut (s0 := s0) (x := z.1) ?_ ?_) <;> [(dsimp -zeta only [z]); (intro hz; try clear_value z)]) | (intro z; have hz : z.arb = z.arb := rfl; clear hz) | (intro z; try clear_value z))
    | with_reducible apply State.wr_keeps
    | with_reducible apply State.endJob_keeps
    | with_reducible apply State.orderImage_keeps
    | with_reducible apply State.restoreImage_keeps
    | split

theorem State.rollbackIf_keeps {s0 s : State} (h : Keeps s0 s) (d : Nat) : Keeps s0 (State.rollbackIf s d) := by
  unfold State.rollbackIf
  repeat' first
    | with_reducible assumption
    | ((try lift_lets -underBinder); first | ((intro z; refine Keeps.cut (s0 := s0) (x := z) ?_ ?_) <;> [(dsimp -zeta only [z]); (intro hz; try clear_value z)]) | ((intro z; refine Keeps.cut (s0 := s0) (x := z.1) ?_ ?_) <;> [(dsimp -zeta only [z]); (intro hz; try clear_value z)]) | (intro z; have hz : z.arb = z.arb := rfl; clear hz) | (intro z; try clear_value z))
    | with_reducible apply State.rollback_keeps
    | with_reducible apply State.resendMirrors_keeps
    | split

theorem State.commitPhase_keeps {s0 s : State} (h : Keeps s0 s) : Keeps s0 (State.commitPhase s) := by
  unfold State.commitPhase
  repeat' first
    | with_reducible assumption
    | ((try lift_lets -underBinder); first | ((intro z; refine Keeps.cut (s0 := s0) (x := z) ?_ ?_) <;> [(dsimp -zeta only [z]); (intro hz; try clear_value z)]) | ((intro z; refine Keeps.cut (s0 := s0) (x := z.1) ?_ ?_) <;> [(dsimp -zeta only [z]); (intro hz; try clear_value z)]) | (intro z; have hz : z.arb = z.arb := rfl; clear hz) | (intro z; try clear_value z))
    | with_reducible apply State.closeAtTick_keeps
    | with_reducible apply State.commitAll_keeps
    | with_reducible apply State.pendShards_keeps
    | with_reducible apply State.setHeld_keeps
    | with_reducible apply State.normCheck_keeps
    | with_reducible apply State.windowStep_keeps
    | with_reducible apply State.applyCommit_keeps
    | with_reducible apply State.rollbackIf_keeps
    | ((with_reducible refine Keeps.foldl _ _ ?_ (fun z w hz => ?_)); (try beta_reduce))
    | split

theorem State.slipFrame_keeps {s0 s : State} (h : Keeps s0 s) (causes : BitVec 5) (noList : List Nat) : Keeps s0 (State.slipFrame s causes noList) := by
  unfold State.slipFrame
  repeat' first
    | with_reducible assumption
    | ((try lift_lets -underBinder); first | ((intro z; refine Keeps.cut (s0 := s0) (x := z) ?_ ?_) <;> [(dsimp -zeta only [z]); (intro hz; try clear_value z)]) | ((intro z; refine Keeps.cut (s0 := s0) (x := z.1) ?_ ?_) <;> [(dsimp -zeta only [z]); (intro hz; try clear_value z)]) | (intro z; have hz : z.arb = z.arb := rfl; clear hz) | (intro z; try clear_value z))
    | with_reducible apply State.wr_keeps
    | with_reducible apply State.count_keeps
    | with_reducible apply State.takeBackAll_keeps
    | with_reducible apply State.rerunAll_keeps
    | with_reducible apply State.coachEvent_keeps
    | split

theorem State.noSlip_keeps {s0 s : State} (h : Keeps s0 s) : Keeps s0 (State.noSlip s) := by
  unfold State.noSlip
  repeat' first
    | with_reducible assumption
    | with_reducible apply State.wr_keeps
    | split

theorem State.pauseFrame_keeps {s0 s : State} (h : Keeps s0 s) (v : Verdict) (noList : List Nat) : Keeps s0 (State.pauseFrame s v noList) := by
  unfold State.pauseFrame
  repeat' first
    | with_reducible assumption
    | ((try lift_lets -underBinder); first | ((intro z; refine Keeps.cut (s0 := s0) (x := z) ?_ ?_) <;> [(dsimp -zeta only [z]); (intro hz; try clear_value z)]) | ((intro z; refine Keeps.cut (s0 := s0) (x := z.1) ?_ ?_) <;> [(dsimp -zeta only [z]); (intro hz; try clear_value z)]) | (intro z; have hz : z.arb = z.arb := rfl; clear hz) | (intro z; try clear_value z))
    | with_reducible apply State.takeBackAll_keeps
    | with_reducible apply State.coachEvent_keeps
    | with_reducible apply State.pauseJob_keeps
    | with_reducible apply State.noSlip_keeps
    | split

theorem State.resumeJob_keeps {s0 s : State} (h : Keeps s0 s) : Keeps s0 (State.resumeJob s) := by
  unfold State.resumeJob
  repeat' first
    | with_reducible assumption
    | ((try lift_lets -underBinder); first | ((intro z; refine Keeps.cut (s0 := s0) (x := z) ?_ ?_) <;> [(dsimp -zeta only [z]); (intro hz; try clear_value z)]) | ((intro z; refine Keeps.cut (s0 := s0) (x := z.1) ?_ ?_) <;> [(dsimp -zeta only [z]); (intro hz; try clear_value z)]) | (intro z; have hz : z.arb = z.arb := rfl; clear hz) | (intro z; try clear_value z))
    | with_reducible apply State.wr_keeps
    | with_reducible apply State.modRegion_keeps
    | with_reducible apply State.coachEvent_keeps
    | ((with_reducible refine Keeps.foldl _ _ ?_ (fun z w hz => ?_)); (try beta_reduce))
    | split
    | with_reducible refine Keeps.lit ?_ rfl

theorem State.newItem_keeps {s0 s : State} (h : Keeps s0 s) (d : Nat) (e : WorkEntry) : Keeps s0 (State.newItem s d e) := by
  unfold State.newItem
  repeat' first
    | with_reducible assumption
    | ((try lift_lets -underBinder); first | ((intro z; refine Keeps.cut (s0 := s0) (x := z) ?_ ?_) <;> [(dsimp -zeta only [z]); (intro hz; try clear_value z)]) | ((intro z; refine Keeps.cut (s0 := s0) (x := z.1) ?_ ?_) <;> [(dsimp -zeta only [z]); (intro hz; try clear_value z)]) | (intro z; have hz : z.arb = z.arb := rfl; clear hz) | (intro z; try clear_value z))
    | with_reducible apply State.modRegion_keeps
    | with_reducible apply State.overrun_keeps
    | ((with_reducible refine Keeps.foldl _ _ ?_ (fun z w hz => ?_)); (try beta_reduce))
    | split
    | with_reducible refine Keeps.lit ?_ rfl

theorem State.clearItems_keeps {s0 s : State} (h : Keeps s0 s) (d : Nat) (es : List WorkEntry) : Keeps s0 (State.clearItems s d es) := by
  unfold State.clearItems
  repeat' first
    | with_reducible assumption
    | ((try lift_lets -underBinder); first | ((intro z; refine Keeps.cut (s0 := s0) (x := z) ?_ ?_) <;> [(dsimp -zeta only [z]); (intro hz; try clear_value z)]) | ((intro z; refine Keeps.cut (s0 := s0) (x := z.1) ?_ ?_) <;> [(dsimp -zeta only [z]); (intro hz; try clear_value z)]) | (intro z; have hz : z.arb = z.arb := rfl; clear hz) | (intro z; try clear_value z))
    | with_reducible apply State.modCore_keeps
    | with_reducible apply State.orphanTakes_keeps
    | with_reducible apply State.endParked_keeps
    | ((with_reducible refine Keeps.foldl _ _ ?_ (fun z w hz => ?_)); (try beta_reduce))
    | split
    | with_reducible refine Keeps.lit ?_ rfl

theorem State.bindStream_keeps {s0 s : State} (h : Keeps s0 s) (d : Nat) (e : StreamEntry) : Keeps s0 (State.bindStream s d e) := by
  unfold State.bindStream
  repeat' first
    | with_reducible assumption
    | with_reducible apply State.modChan_keeps
    | with_reducible apply State.raise_keeps
    | split

theorem State.applyTimetable_keeps {s0 s : State} (h : Keeps s0 s) (d : Nat) : Keeps s0 (State.applyTimetable s d) := by
  unfold State.applyTimetable
  repeat' first
    | with_reducible assumption
    | ((try lift_lets -underBinder); first | ((intro z; refine Keeps.cut (s0 := s0) (x := z) ?_ ?_) <;> [(dsimp -zeta only [z]); (intro hz; try clear_value z)]) | ((intro z; refine Keeps.cut (s0 := s0) (x := z.1) ?_ ?_) <;> [(dsimp -zeta only [z]); (intro hz; try clear_value z)]) | (intro z; have hz : z.arb = z.arb := rfl; clear hz) | (intro z; try clear_value z))
    | with_reducible apply State.wr_keeps
    | with_reducible apply State.setBytes_keeps
    | with_reducible apply State.newItem_keeps
    | with_reducible apply State.clearItems_keeps
    | ((with_reducible refine Keeps.foldl _ _ ?_ (fun z w hz => ?_)); (try beta_reduce))
    | split

theorem State.bindStreams_keeps {s0 s : State} (h : Keeps s0 s) (d : Nat) : Keeps s0 (State.bindStreams s d) := by
  unfold State.bindStreams
  repeat' first
    | with_reducible assumption
    | with_reducible apply State.bindStream_keeps
    | ((with_reducible refine Keeps.foldl _ _ ?_ (fun z w hz => ?_)); (try beta_reduce))
    | split

theorem State.normalFrame_keeps {s0 s : State} (h : Keeps s0 s) : Keeps s0 (State.normalFrame s) := by
  unfold State.normalFrame
  repeat' first
    | with_reducible assumption
    | ((try lift_lets -underBinder); first | ((intro z; refine Keeps.cut (s0 := s0) (x := z) ?_ ?_) <;> [(dsimp -zeta only [z]); (intro hz; try clear_value z)]) | ((intro z; refine Keeps.cut (s0 := s0) (x := z.1) ?_ ?_) <;> [(dsimp -zeta only [z]); (intro hz; try clear_value z)]) | (intro z; have hz : z.arb = z.arb := rfl; clear hz) | (intro z; try clear_value z))
    | with_reducible apply State.wr_keeps
    | with_reducible apply State.noSlip_keeps
    | with_reducible apply State.applyTimetable_keeps
    | ((with_reducible refine Keeps.foldl _ _ ?_ (fun z w hz => ?_)); (try beta_reduce))
    | split

theorem State.wakeControl_keeps {s0 s : State} (h : Keeps s0 s) (d : Nat) : Keeps s0 (State.wakeControl s d) := by
  unfold State.wakeControl
  repeat' first
    | with_reducible assumption
    | with_reducible apply State.modCore_keeps
    | with_reducible apply State.setS_keeps
    | with_reducible apply State.retire_keeps
    | ((with_reducible refine Keeps.foldl _ _ ?_ (fun z w hz => ?_)); (try beta_reduce))
    | split

theorem State.applyLost_keeps {s0 s : State} (h : Keeps s0 s) (lost : List Nat) : Keeps s0 (State.applyLost s lost) := by
  unfold State.applyLost
  repeat' first
    | with_reducible assumption
    | ((try lift_lets -underBinder); first | ((intro z; refine Keeps.cut (s0 := s0) (x := z) ?_ ?_) <;> [(dsimp -zeta only [z]); (intro hz; try clear_value z)]) | ((intro z; refine Keeps.cut (s0 := s0) (x := z.1) ?_ ?_) <;> [(dsimp -zeta only [z]); (intro hz; try clear_value z)]) | (intro z; have hz : z.arb = z.arb := rfl; clear hz) | (intro z; try clear_value z))
    | with_reducible apply State.wr_keeps
    | with_reducible apply State.coachEvent_keeps
    | with_reducible apply State.closeBypass_keeps
    | with_reducible apply State.loseAll_keeps
    | split

theorem State.beginFrame_keeps {s0 s : State} (h : Keeps s0 s) (v : Verdict) (noList : List Nat) : Keeps s0 (State.beginFrame s v noList) := by
  unfold State.beginFrame
  repeat' first
    | with_reducible assumption
    | with_reducible apply State.slipFrame_keeps
    | with_reducible apply State.pauseFrame_keeps
    | with_reducible apply State.resumeJob_keeps
    | with_reducible apply State.normalFrame_keeps
    | split

theorem State.resumeOrder_keeps {s0 s : State} (h : Keeps s0 s) : Keeps s0 (State.resumeOrder s) := by
  unfold State.resumeOrder
  repeat' first
    | with_reducible assumption
    | ((try lift_lets -underBinder); first | ((intro z; refine Keeps.cut (s0 := s0) (x := z) ?_ ?_) <;> [(dsimp -zeta only [z]); (intro hz; try clear_value z)]) | ((intro z; refine Keeps.cut (s0 := s0) (x := z.1) ?_ ?_) <;> [(dsimp -zeta only [z]); (intro hz; try clear_value z)]) | (intro z; have hz : z.arb = z.arb := rfl; clear hz) | (intro z; try clear_value z))
    | with_reducible apply State.wr_keeps
    | with_reducible apply State.refuseOrder_keeps
    | split
    | with_reducible refine Keeps.lit ?_ rfl

theorem State.applyVerdict_keeps {s0 s : State} (h : Keeps s0 s) : Keeps s0 (State.applyVerdict s) := by
  unfold State.applyVerdict
  repeat' first
    | with_reducible assumption
    | ((try lift_lets -underBinder); first | ((intro z; refine Keeps.cut (s0 := s0) (x := z) ?_ ?_) <;> [(dsimp -zeta only [z]); (intro hz; try clear_value z)]) | ((intro z; refine Keeps.cut (s0 := s0) (x := z.1) ?_ ?_) <;> [(dsimp -zeta only [z]); (intro hz; try clear_value z)]) | (intro z; have hz : z.arb = z.arb := rfl; clear hz) | (intro z; try clear_value z))
    | with_reducible apply State.wr_keeps
    | with_reducible apply State.report_keeps
    | with_reducible apply State.passTo_keeps
    | with_reducible apply State.latchAll_keeps
    | with_reducible apply State.pickup_keeps
    | with_reducible apply State.reinit_keeps
    | with_reducible apply State.withholdUsers_keeps
    | with_reducible apply State.coachEvent_keeps
    | with_reducible apply State.orderImage_keeps
    | with_reducible apply State.modFrame_keeps
    | with_reducible apply State.modTeam_keeps
    | with_reducible apply State.standbyCopy_keeps
    | with_reducible apply State.leaveService_keeps
    | with_reducible apply State.verdictNow_keeps
    | with_reducible apply State.jobOrders_keeps
    | with_reducible apply State.commitPhase_keeps
    | with_reducible apply State.bindStreams_keeps
    | with_reducible apply State.wakeControl_keeps
    | with_reducible apply State.applyLost_keeps
    | with_reducible apply State.beginFrame_keeps
    | with_reducible apply State.resumeOrder_keeps
    | ((with_reducible refine Keeps.foldl _ _ ?_ (fun z w hz => ?_)); (try beta_reduce))
    | split
    | with_reducible refine Keeps.lit ?_ rfl

theorem execVerdictApply_keeps {s0 s : State} (h : Keeps s0 s) : AnsKeeps s0 (execVerdictApply s) := by
  unfold execVerdictApply
  repeat' first
    | with_reducible assumption
    | with_reducible apply State.applyVerdict_keeps
    | with_reducible refine AnsKeeps.next ?_
    | split

theorem State.flashWrite_keeps {s0 s : State} (h : Keeps s0 s) (a : Nat) (bs : List Byte) : Keeps s0 (s.flashWrite a bs) :=
  ⟨h.queue, h.mem, fun w => wf_cellsWrite _ _ (h.flash w), h.arb, h.wire, h.fresh, h.fuses⟩

theorem State.flashErase_keeps {s0 s : State} (h : Keeps s0 s) (a n : Nat) : Keeps s0 (s.flashErase a n) :=
  ⟨h.queue, h.mem, fun w => wf_filter _ (h.flash w), h.arb, h.wire, h.fresh, h.fuses⟩

theorem State.writeDesc_keeps {s0 s : State} (h : Keeps s0 s) (f : BootDesc → BootDesc) : Keeps s0 (State.writeDesc s f) := by
  unfold State.writeDesc
  repeat' first
    | with_reducible assumption
    | ((try lift_lets -underBinder); first | ((intro z; refine Keeps.cut (s0 := s0) (x := z) ?_ ?_) <;> [(dsimp -zeta only [z]); (intro hz; try clear_value z)]) | ((intro z; refine Keeps.cut (s0 := s0) (x := z.1) ?_ ?_) <;> [(dsimp -zeta only [z]); (intro hz; try clear_value z)]) | (intro z; have hz : z.arb = z.arb := rfl; clear hz) | (intro z; try clear_value z))
    | with_reducible apply State.flashWrite_keeps
    | split

theorem State.verifyFail_keeps {s0 s : State} (h : Keeps s0 s) (slot : Nat) (stage : Nat) (i : Image) : Keeps s0 (State.verifyFail s slot stage i) := by
  unfold State.verifyFail
  repeat' first
    | with_reducible assumption
    | ((try lift_lets -underBinder); first | ((intro z; refine Keeps.cut (s0 := s0) (x := z) ?_ ?_) <;> [(dsimp -zeta only [z]); (intro hz; try clear_value z)]) | ((intro z; refine Keeps.cut (s0 := s0) (x := z.1) ?_ ?_) <;> [(dsimp -zeta only [z]); (intro hz; try clear_value z)]) | (intro z; have hz : z.arb = z.arb := rfl; clear hz) | (intro z; try clear_value z))
    | with_reducible apply State.raiseLead_keeps
    | split

theorem State.fwEvent_keeps {s0 s : State} (h : Keeps s0 s) (slot : Nat) (action : Nat) (i : Image) : Keeps s0 (State.fwEvent s slot action i) := by
  unfold State.fwEvent
  repeat' first
    | with_reducible assumption
    | with_reducible apply State.raise_keeps
    | split

theorem State.chooseSlot_keeps {s0 s : State} (h : Keeps s0 s) : Keeps s0 (State.chooseSlot s).1 := by
  unfold State.chooseSlot
  repeat' first
    | with_reducible assumption
    | ((try lift_lets -underBinder); first | ((intro z; refine Keeps.cut (s0 := s0) (x := z) ?_ ?_) <;> [(dsimp -zeta only [z]); (intro hz; try clear_value z)]) | ((intro z; refine Keeps.cut (s0 := s0) (x := z.1) ?_ ?_) <;> [(dsimp -zeta only [z]); (intro hz; try clear_value z)]) | (intro z; have hz : z.arb = z.arb := rfl; clear hz) | (intro z; try clear_value z))
    | with_reducible apply State.writeDesc_keeps
    | split

theorem State.startImage_keeps {s0 s : State} (h : Keeps s0 s) (slot : Nat) (trial cleared : Bool) : Keeps s0 (s.startImage slot trial cleared) := by
  unfold State.startImage
  have h1 := State.extend_keeps (State.extend_keeps h 1 (s.flashAt (slotBase slot) 4096)) 2 (s.flashAt (slotBase slot) (s.slotImage slot).length)
  dsimp only
  generalize (s.extend 1 (s.flashAt (slotBase slot) 4096)).extend 2 (s.flashAt (slotBase slot) (s.slotImage slot).length) = t at h1 ⊢
  have h2 : Keeps s0 { t with fw := { t.fw with version := BitVec.ofNat 32 (s.slotImage slot).version, bootSlot := slot } } := Keeps.lit h1 rfl
  have h3 := State.wr_keeps (State.wr_keeps (State.wr_keeps (State.wr_keeps h2 FW_STATUS_RUNNING slot) FW_STATUS_TRIAL (if trial then 1 else 0))
    FW_STATUS_SVN (s.slotImage slot).svn) FW_STATUS_ARB_CTR t.fw.arb.toNat
  split
  · exact State.fwEvent_keeps h3 _ _ _
  · exact h3

theorem State.bootRom_keeps {s0 s : State} (h : Keeps s0 s) (sigA sigB : Bool) : Keeps s0 (s.bootRom sigA sigB).1 := by
  unfold State.bootRom
  have h1 := State.chooseSlot_keeps h
  generalize s.chooseSlot = c at h1 ⊢
  rcases c with ⟨t, slot, trial, cleared⟩
  dsimp only at h1 ⊢
  split
  · exact State.startImage_keeps h1 _ _ _
  · rename_i c _
    have h2 := State.verifyFail_keeps h1 slot c (t.slotImage slot)
    generalize t.verifyFail slot c (t.slotImage slot) = u at h2 ⊢
    split
    · exact State.startImage_keeps h2 _ _ _
    · rename_i e _
      have h3 := State.verifyFail_keeps h2 (1 - slot) e (u.slotImage (1 - slot))
      exact ⟨h3.queue, h3.mem, h3.flash, h2.arb, h3.wire, h3.fresh, h3.fuses⟩

theorem State.fwFails_keeps {s0 s : State} (h : Keeps s0 s) (stage : Nat) : Keeps s0 (State.fwFails s stage) := by
  unfold State.fwFails
  repeat' first
    | with_reducible assumption
    | with_reducible apply State.wr_keeps
    | split

theorem State.fwGo_keeps {s0 s : State} (h : Keeps s0 s) (sigOk : Bool) : Keeps s0 (s.fwGo sigOk) := by
  unfold State.fwGo
  dsimp only
  split
  · exact State.wr_keeps (State.fwFails_keeps h _) _ _
  · split
    · exact State.wr_keeps (State.verifyFail_keeps (State.fwFails_keeps h _) _ _ _) _ _
    · exact Keeps.lit (State.wr_keeps h _ _) rfl

theorem State.fwCommit_keeps {s0 s : State} (h : Keeps s0 s) : Keeps s0 (State.fwCommit s) := by
  unfold State.fwCommit
  repeat' first
    | with_reducible assumption
    | ((try lift_lets -underBinder); first | ((intro z; refine Keeps.cut (s0 := s0) (x := z) ?_ ?_) <;> [(dsimp -zeta only [z]); (intro hz; try clear_value z)]) | ((intro z; refine Keeps.cut (s0 := s0) (x := z.1) ?_ ?_) <;> [(dsimp -zeta only [z]); (intro hz; try clear_value z)]) | (intro z; have hz : z.arb = z.arb := rfl; clear hz) | (intro z; try clear_value z))
    | with_reducible apply State.wr_keeps
    | with_reducible apply State.writeDesc_keeps
    | with_reducible apply State.fwEvent_keeps
    | split

theorem State.fwArb_keeps {s0 s : State} (h : Keeps s0 s) : Keeps s0 s.fwArb := by
  unfold State.fwArb
  have h1 := State.wr_keeps h FW_CTRL_ARB 0
  generalize s.wr FW_CTRL_ARB 0 = t at h1 ⊢
  dsimp only
  split
  · exact State.fwFails_keeps h1 _
  · have h2 := State.wr_keeps (State.wr_keeps h1 FW_STATUS_ARB_CTR (max t.fw.arb.toNat (t.rd FW_STATUS_SVN))) FW_STATUS_DONE 1
    refine ⟨h2.queue, h2.mem, h2.flash, ?_, h2.wire, h2.fresh, h2.fuses⟩
    show s0.fw.arb.toNat ≤ (BitVec.ofNat 16 (max t.fw.arb.toNat (t.rd FW_STATUS_SVN))).toNat
    have h3 : t.rd FW_STATUS_SVN < 2 ^ 16 := Nat.mod_lt _ (by decide)
    have h4 : t.fw.arb.toNat < 2 ^ 16 := t.fw.arb.isLt
    rw [BitVec.toNat_ofNat, Nat.mod_eq_of_lt (max_lt h4 h3)]
    exact h1.arb.trans (le_max_left ..)

theorem execFwUpdateDone_keeps {s0 s : State} (h : Keeps s0 s) (readBackOk : Bool) : AnsKeeps s0 (execFwUpdateDone readBackOk s) := by
  unfold execFwUpdateDone
  split
  · exact h
  · rename_i slot src _
    have h1 : ∀ a b, Keeps s0 { (s.flashErase a b).wr FW_CTRL_GO 0 with fw := { ((s.flashErase a b).wr FW_CTRL_GO 0).fw with update := none } } :=
      fun a b => Keeps.lit (State.wr_keeps (State.flashErase_keeps h a b) _ _) rfl
    dsimp only
    split
    · exact State.verifyFail_keeps (State.fwFails_keeps (h1 _ _) _) _ _ _
    · refine AnsKeeps.next ?_
      have h2 := fun g i x y => State.wr_keeps (State.wr_keeps (State.fwEvent_keeps (State.writeDesc_keeps
        (State.flashWrite_keeps (h1 (slotBase slot) imageSlotBytes) (slotBase slot) x) g) slot 1 i) FW_STATUS_BUSY 0) FW_STATUS_DONE y
      split
      · exact Keeps.lit (State.wr_keeps (h2 _ _ _ _) _ _) rfl
      · exact h2 _ _ _ _

theorem State.attFails_keeps {s0 s : State} (h : Keeps s0 s) (code : Nat) : Keeps s0 (State.attFails s code) := by
  unfold State.attFails
  repeat' first
    | with_reducible assumption
    | with_reducible apply State.wr_keeps
    | split

theorem State.attGo_keeps {s0 s : State} (h : Keeps s0 s) : Keeps s0 s.attGo := by
  unfold State.attGo
  dsimp only
  have h1 := State.attFails_keeps h
  generalize (if s.rd ATT_CTRL_OP = 0 then 18304 else 64) = n
  split
  · exact h1 _
  split
  · exact h1 _
  split
  · exact h1 _
  · exact Keeps.lit (State.wr_keeps h _ _) rfl

theorem execAttestDone_keeps {s0 s : State} (h : Keeps s0 s) : AnsKeeps s0 (execAttestDone s) := by
  unfold execAttestDone
  repeat' first
    | with_reducible assumption
    | ((try lift_lets -underBinder); first | ((intro z; refine Keeps.cut (s0 := s0) (x := z) ?_ ?_) <;> [(dsimp -zeta only [z]); (intro hz; try clear_value z)]) | ((intro z; refine Keeps.cut (s0 := s0) (x := z.1) ?_ ?_) <;> [(dsimp -zeta only [z]); (intro hz; try clear_value z)]) | (intro z; have hz : z.arb = z.arb := rfl; clear hz) | (intro z; try clear_value z))
    | with_reducible apply State.wr_keeps
    | with_reducible apply State.setBytes_keeps
    | with_reducible apply State.raiseLead_keeps
    | with_reducible apply State.extendRaw_keeps
    | with_reducible refine AnsKeeps.next ?_
    | split
    | with_reducible refine Keeps.lit ?_ rfl

theorem State.coldWipe_keeps {s0 s : State} (h : Keeps s0 s) : Keeps s0 s.coldWipe :=
  ⟨h.queue, fun _ => rfl, h.flash, h.arb, h.wire, h.fresh, h.fuses⟩

theorem State.abandonUpdate_keeps {s0 s : State} (h : Keeps s0 s) : Keeps s0 s.abandonUpdate := by
  unfold State.abandonUpdate
  split
  · exact Keeps.lit (State.flashErase_keeps h _ _) rfl
  · exact h

theorem State.loseDirty_keeps {s0 s : State} (h : Keeps s0 s) (d : Nat) : Keeps s0 (State.loseDirty s d) := by
  unfold State.loseDirty
  repeat' first
    | with_reducible assumption
    | with_reducible apply State.forget_keeps
    | ((with_reducible refine Keeps.foldl _ _ ?_ (fun z w hz => ?_)); (try beta_reduce))
    | split

theorem State.forgetBuffers_keeps {s0 s : State} (h : Keeps s0 s) : Keeps s0 (State.forgetBuffers s) := by
  unfold State.forgetBuffers
  repeat' first
    | with_reducible assumption
    | ((try lift_lets -underBinder); first | ((intro z; refine Keeps.cut (s0 := s0) (x := z) ?_ ?_) <;> [(dsimp -zeta only [z]); (intro hz; try clear_value z)]) | ((intro z; refine Keeps.cut (s0 := s0) (x := z.1) ?_ ?_) <;> [(dsimp -zeta only [z]); (intro hz; try clear_value z)]) | (intro z; have hz : z.arb = z.arb := rfl; clear hz) | (intro z; try clear_value z))
    | with_reducible apply State.zeroRange_keeps
    | with_reducible apply State.forget_keeps
    | ((with_reducible refine Keeps.foldl _ _ ?_ (fun z w hz => ?_)); (try beta_reduce))
    | split

theorem State.warmWipe_keeps {s0 s : State} (h : Keeps s0 s) : Keeps s0 s.warmWipe := by
  unfold State.warmWipe
  have hm : Keeps s0 (s.dieList.foldl (fun s d => s.loseDirty d) s).forgetBuffers :=
    State.forgetBuffers_keeps (Keeps.foldl _ _ h fun t d ht => State.loseDirty_keeps ht d)
  dsimp only
  generalize (s.dieList.foldl (fun s d => s.loseDirty d) s).forgetBuffers = m at hm ⊢
  have ht : ∀ (regs : Assoc Word) (regions : Tab Region) (job : Job) (v : BitVec 48) (cores : Tab Core) (dies : Tab Die), Keeps s0
      { s.coldWipe with
        mem := m.mem
        undef := m.undef
        fresh := m.fresh
        regs := regs
        regions := regions
        job := job
        cores := cores
        dies := dies
        fw := { s.coldWipe.fw with versionsBefore := v } } :=
    fun _ _ _ _ _ _ => ⟨h.queue, hm.mem, h.flash, h.arb, h.wire, hm.fresh, h.fuses⟩
  split
  · exact State.wr_keeps (ht _ _ _ _ _ _) _ _
  · exact Keeps.foldl _ _ (State.wr_keeps (State.wr_keeps (ht _ _ _ _ _ _) _ _) _ _) fun t d h1 => State.zeroRange_keeps h1 _ _

theorem State.dropJob_keeps {s0 s : State} (h : Keeps s0 s) : Keeps s0 (State.dropJob s) := by
  unfold State.dropJob
  repeat' first
    | with_reducible assumption
    | ((try lift_lets -underBinder); first | ((intro z; refine Keeps.cut (s0 := s0) (x := z) ?_ ?_) <;> [(dsimp -zeta only [z]); (intro hz; try clear_value z)]) | ((intro z; refine Keeps.cut (s0 := s0) (x := z.1) ?_ ?_) <;> [(dsimp -zeta only [z]); (intro hz; try clear_value z)]) | (intro z; have hz : z.arb = z.arb := rfl; clear hz) | (intro z; try clear_value z))
    | with_reducible apply State.wr_keeps
    | with_reducible apply State.zeroRange_keeps
    | ((with_reducible refine Keeps.foldl _ _ ?_ (fun z w hz => ?_)); (try beta_reduce))
    | split
    | with_reducible refine Keeps.lit ?_ rfl

theorem State.measureRom_keeps {s0 s : State} (h : Keeps s0 s) : Keeps s0 (State.measureRom s) := by
  unfold State.measureRom
  repeat' first
    | with_reducible assumption
    | with_reducible apply State.extend_keeps
    | split

theorem State.bootDies_keeps {s0 s : State} (h : Keeps s0 s) (fail : List Nat) : Keeps s0 (State.bootDies s fail).1 := by
  unfold State.bootDies
  repeat' first
    | with_reducible assumption
    | ((try lift_lets -underBinder); first | ((intro z; refine Keeps.cut (s0 := s0) (x := z) ?_ ?_) <;> [(dsimp -zeta only [z]); (intro hz; try clear_value z)]) | ((intro z; refine Keeps.cut (s0 := s0) (x := z.1) ?_ ?_) <;> [(dsimp -zeta only [z]); (intro hz; try clear_value z)]) | (intro z; have hz : z.arb = z.arb := rfl; clear hz) | (intro z; try clear_value z))
    | with_reducible apply State.wr_keeps
    | with_reducible apply State.modDie_keeps
    | with_reducible apply State.modPort_keeps
    | ((with_reducible refine Keeps.foldl _ _ ?_ (fun z w hz => ?_)); (try beta_reduce))
    | split

theorem State.setVersions_keeps {s0 s : State} (h : Keeps s0 s) (env : BootEnv) : Keeps s0 (State.setVersions s env) := by
  unfold State.setVersions
  repeat' first
    | with_reducible assumption
    | ((try lift_lets -underBinder); first | ((intro z; refine Keeps.cut (s0 := s0) (x := z) ?_ ?_) <;> [(dsimp -zeta only [z]); (intro hz; try clear_value z)]) | ((intro z; refine Keeps.cut (s0 := s0) (x := z.1) ?_ ?_) <;> [(dsimp -zeta only [z]); (intro hz; try clear_value z)]) | (intro z; have hz : z.arb = z.arb := rfl; clear hz) | (intro z; try clear_value z))
    | with_reducible apply State.wr_keeps
    | split
    | with_reducible refine Keeps.lit ?_ rfl

theorem State.judgeVersions_keeps {s0 s : State} (h : Keeps s0 s) (bad : List Nat) (open_ : List Nat) : Keeps s0 (State.judgeVersions s bad open_) := by
  unfold State.judgeVersions
  repeat' first
    | with_reducible assumption
    | ((try lift_lets -underBinder); first | ((intro z; refine Keeps.cut (s0 := s0) (x := z) ?_ ?_) <;> [(dsimp -zeta only [z]); (intro hz; try clear_value z)]) | ((intro z; refine Keeps.cut (s0 := s0) (x := z.1) ?_ ?_) <;> [(dsimp -zeta only [z]); (intro hz; try clear_value z)]) | (intro z; have hz : z.arb = z.arb := rfl; clear hz) | (intro z; try clear_value z))
    | with_reducible apply State.wr_keeps
    | split

theorem State.reportVersions_keeps {s0 s : State} (h : Keeps s0 s) (bad : List Nat) (open_ : List Nat) : Keeps s0 (State.reportVersions s bad open_) := by
  unfold State.reportVersions
  repeat' first
    | with_reducible assumption
    | ((try lift_lets -underBinder); first | ((intro z; refine Keeps.cut (s0 := s0) (x := z) ?_ ?_) <;> [(dsimp -zeta only [z]); (intro hz; try clear_value z)]) | ((intro z; refine Keeps.cut (s0 := s0) (x := z.1) ?_ ?_) <;> [(dsimp -zeta only [z]); (intro hz; try clear_value z)]) | (intro z; have hz : z.arb = z.arb := rfl; clear hz) | (intro z; try clear_value z))
    | with_reducible apply State.raiseLead_keeps
    | split

theorem State.measureVersions_keeps {s0 s : State} (h : Keeps s0 s) : Keeps s0 (State.measureVersions s) := by
  unfold State.measureVersions
  repeat' first
    | with_reducible assumption
    | ((try lift_lets -underBinder); first | ((intro z; refine Keeps.cut (s0 := s0) (x := z) ?_ ?_) <;> [(dsimp -zeta only [z]); (intro hz; try clear_value z)]) | ((intro z; refine Keeps.cut (s0 := s0) (x := z.1) ?_ ?_) <;> [(dsimp -zeta only [z]); (intro hz; try clear_value z)]) | (intro z; have hz : z.arb = z.arb := rfl; clear hz) | (intro z; try clear_value z))
    | with_reducible apply State.extend_keeps
    | split

theorem State.agreeVersions_keeps {s0 s : State} (h : Keeps s0 s) (env : BootEnv) : Keeps s0 (State.agreeVersions s env) := by
  unfold State.agreeVersions
  repeat' first
    | with_reducible assumption
    | ((try lift_lets -underBinder); first | ((intro z; refine Keeps.cut (s0 := s0) (x := z) ?_ ?_) <;> [(dsimp -zeta only [z]); (intro hz; try clear_value z)]) | ((intro z; refine Keeps.cut (s0 := s0) (x := z.1) ?_ ?_) <;> [(dsimp -zeta only [z]); (intro hz; try clear_value z)]) | (intro z; have hz : z.arb = z.arb := rfl; clear hz) | (intro z; try clear_value z))
    | with_reducible apply State.setVersions_keeps
    | with_reducible apply State.judgeVersions_keeps
    | with_reducible apply State.reportVersions_keeps
    | with_reducible apply State.measureVersions_keeps
    | split

theorem State.trainMemory_keeps {s0 s : State} (h : Keeps s0 s) (env : BootEnv) : Keeps s0 (State.trainMemory s env) := by
  unfold State.trainMemory
  repeat' first
    | with_reducible assumption
    | ((try lift_lets -underBinder); first | ((intro z; refine Keeps.cut (s0 := s0) (x := z) ?_ ?_) <;> [(dsimp -zeta only [z]); (intro hz; try clear_value z)]) | ((intro z; refine Keeps.cut (s0 := s0) (x := z.1) ?_ ?_) <;> [(dsimp -zeta only [z]); (intro hz; try clear_value z)]) | (intro z; have hz : z.arb = z.arb := rfl; clear hz) | (intro z; try clear_value z))
    | with_reducible apply State.wr_keeps
    | with_reducible apply State.raise_keeps
    | ((with_reducible refine Keeps.foldl _ _ ?_ (fun z w hz => ?_)); (try beta_reduce))
    | split

theorem State.trainLinks_keeps {s0 s : State} (h : Keeps s0 s) : Keeps s0 (State.trainLinks s) := by
  unfold State.trainLinks
  repeat' first
    | with_reducible assumption
    | with_reducible apply State.wr_keeps
    | with_reducible apply State.startTraining_keeps
    | ((with_reducible refine Keeps.foldl _ _ ?_ (fun z w hz => ?_)); (try beta_reduce))
    | split

theorem State.romRecovery_keeps {s0 s : State} (h : Keeps s0 s) : Keeps s0 (State.romRecovery s) := by
  unfold State.romRecovery
  repeat' first
    | with_reducible assumption
    | ((try lift_lets -underBinder); first | ((intro z; refine Keeps.cut (s0 := s0) (x := z) ?_ ?_) <;> [(dsimp -zeta only [z]); (intro hz; try clear_value z)]) | ((intro z; refine Keeps.cut (s0 := s0) (x := z.1) ?_ ?_) <;> [(dsimp -zeta only [z]); (intro hz; try clear_value z)]) | (intro z; have hz : z.arb = z.arb := rfl; clear hz) | (intro z; try clear_value z))
    | with_reducible apply State.wr_keeps
    | with_reducible apply State.startTraining_keeps
    | with_reducible apply State.dropJob_keeps
    | split

theorem State.bootSequence_keeps {s0 s : State} (h : Keeps s0 s) (last cause : Nat) (env : BootEnv) : Keeps s0 (s.bootSequence last cause env) := by
  unfold State.bootSequence
  have h1 : Keeps s0 { s with fw := { s.fw with mr := [] } } := Keeps.lit h rfl
  generalize ({ s with fw := { s.fw with mr := [] } } : State) = a at h1 ⊢
  have h2 := State.bootDies_keeps (State.wr_keeps (State.wr_keeps h1 MODULE_STATUS_LAST last) MODULE_STATUS_CAUSE cause) env.dieFail
  dsimp only
  generalize ((a.wr MODULE_STATUS_LAST last).wr MODULE_STATUS_CAUSE cause).bootDies env.dieFail = b at h2 ⊢
  obtain ⟨b, led⟩ := b
  dsimp only at h2 ⊢
  split
  · exact h2
  have h3 := State.bootRom_keeps (State.wr_keeps (State.measureRom_keeps h2) MODULE_STATUS_STAGE 4) env.sigOkA env.sigOkB
  generalize (b.measureRom.wr MODULE_STATUS_STAGE 4).bootRom env.sigOkA env.sigOkB = c at h3 ⊢
  obtain ⟨c, runs⟩ := c
  dsimp only at h3 ⊢
  split
  · exact State.romRecovery_keeps h3
  have h4 := State.agreeVersions_keeps h3 env
  generalize c.agreeVersions env = e at h4 ⊢
  have h5 : Keeps s0 (if e.sameVersions then e else e.dropJob) := by
    split
    · exact h4
    · exact State.dropJob_keeps h4
  generalize (if e.sameVersions then e else e.dropJob) = f at h5 ⊢
  have h6 := State.trainLinks_keeps (State.trainMemory_keeps h5 env)
  generalize (f.trainMemory env).trainLinks = g at h6 ⊢
  have h7 : Keeps s0 (if g.rd MODULE_STATUS_DIE_FAILED ≠ 0 then g.wr MODULE_STATUS_SERVICE 1 else g) := by
    split
    · exact State.wr_keeps h6 _ _
    · exact h6
  generalize (if g.rd MODULE_STATUS_DIE_FAILED ≠ 0 then g.wr MODULE_STATUS_SERVICE 1 else g) = k at h7 ⊢
  exact Keeps.lit (State.wr_keeps (State.wr_keeps h7 _ _) _ _) rfl

theorem State.mainUp_keeps {s0 s : State} (h : Keeps s0 s) : Keeps s0 (State.mainUp s) := by
  unfold State.mainUp
  repeat' first
    | with_reducible assumption
    | ((try lift_lets -underBinder); first | ((intro z; refine Keeps.cut (s0 := s0) (x := z) ?_ ?_) <;> [(dsimp -zeta only [z]); (intro hz; try clear_value z)]) | ((intro z; refine Keeps.cut (s0 := s0) (x := z.1) ?_ ?_) <;> [(dsimp -zeta only [z]); (intro hz; try clear_value z)]) | (intro z; have hz : z.arb = z.arb := rfl; clear hz) | (intro z; try clear_value z))
    | with_reducible apply State.wr_keeps
    | with_reducible apply State.lampCount_keeps
    | with_reducible apply State.request_keeps
    | split
    | with_reducible refine Keeps.lit ?_ rfl

theorem State.powerUp_keeps {s0 s : State} (h : Keeps s0 s) (last : Nat) (cause : Nat) (env : BootEnv) : Keeps s0 (State.powerUp s last cause env) := by
  unfold State.powerUp
  repeat' first
    | with_reducible assumption
    | ((try lift_lets -underBinder); first | ((intro z; refine Keeps.cut (s0 := s0) (x := z) ?_ ?_) <;> [(dsimp -zeta only [z]); (intro hz; try clear_value z)]) | ((intro z; refine Keeps.cut (s0 := s0) (x := z.1) ?_ ?_) <;> [(dsimp -zeta only [z]); (intro hz; try clear_value z)]) | (intro z; have hz : z.arb = z.arb := rfl; clear hz) | (intro z; try clear_value z))
    | with_reducible apply State.wr_keeps
    | with_reducible apply State.coldWipe_keeps
    | with_reducible apply State.abandonUpdate_keeps
    | with_reducible apply State.bootSequence_keeps
    | with_reducible apply State.mainUp_keeps
    | split
    | with_reducible refine Keeps.lit ?_ rfl

theorem State.mainOff_keeps {s0 s : State} (h : Keeps s0 s) : Keeps s0 (State.mainOff s) := by
  unfold State.mainOff
  repeat' first
    | with_reducible assumption
    | ((try lift_lets -underBinder); first | ((intro z; refine Keeps.cut (s0 := s0) (x := z) ?_ ?_) <;> [(dsimp -zeta only [z]); (intro hz; try clear_value z)]) | ((intro z; refine Keeps.cut (s0 := s0) (x := z.1) ?_ ?_) <;> [(dsimp -zeta only [z]); (intro hz; try clear_value z)]) | (intro z; have hz : z.arb = z.arb := rfl; clear hz) | (intro z; try clear_value z))
    | with_reducible apply State.wr_keeps
    | with_reducible apply State.coldWipe_keeps
    | with_reducible apply State.abandonUpdate_keeps
    | split
    | with_reducible refine Keeps.lit ?_ rfl

theorem State.runReset_keeps {s0 s : State} (h : Keeps s0 s) (kind : Nat) (cause : Nat) (env : BootEnv) : Keeps s0 (State.runReset s kind cause env) := by
  unfold State.runReset
  repeat' first
    | with_reducible assumption
    | ((try lift_lets -underBinder); first | ((intro z; refine Keeps.cut (s0 := s0) (x := z) ?_ ?_) <;> [(dsimp -zeta only [z]); (intro hz; try clear_value z)]) | ((intro z; refine Keeps.cut (s0 := s0) (x := z.1) ?_ ?_) <;> [(dsimp -zeta only [z]); (intro hz; try clear_value z)]) | (intro z; have hz : z.arb = z.arb := rfl; clear hz) | (intro z; try clear_value z))
    | with_reducible apply State.wr_keeps
    | with_reducible apply State.request_keeps
    | with_reducible apply State.closeBypass_keeps
    | with_reducible apply State.coldWipe_keeps
    | with_reducible apply State.abandonUpdate_keeps
    | with_reducible apply State.warmWipe_keeps
    | with_reducible apply State.bootSequence_keeps
    | with_reducible apply State.powerUp_keeps
    | split
    | with_reducible refine Keeps.lit ?_ rfl

theorem execColdReset_keeps {s0 s : State} (h : Keeps s0 s) (src : Src) (env : BootEnv) : AnsKeeps s0 (execColdReset src env s) := by
  unfold execColdReset
  repeat' first
    | with_reducible assumption
    | with_reducible apply State.runReset_keeps
    | with_reducible refine AnsKeeps.next ?_
    | split

theorem execWarmReset_keeps {s0 s : State} (h : Keeps s0 s) (src : Src) (env : BootEnv) : AnsKeeps s0 (execWarmReset src env s) := by
  unfold execWarmReset
  repeat' first
    | with_reducible assumption
    | with_reducible apply State.runReset_keeps
    | with_reducible refine AnsKeeps.next ?_
    | split

theorem State.lampStarts_keeps {s0 s : State} (h : Keeps s0 s) (slot : BitVec 4) (coach : Bool) : Keeps s0 (s.lampStarts slot coach) := by
  unfold State.lampStarts
  have h1 : Keeps s0 { s with fuses := { s.fuses with slot := slot, coach := coach } } :=
    ⟨h.queue, h.mem, h.flash, h.arb, h.wire, h.fresh, by rw [h.fuses]⟩
  have h2 := State.coldWipe_keeps (State.abandonUpdate_keeps h1)
  dsimp only
  generalize (State.abandonUpdate { s with fuses := { s.fuses with slot := slot, coach := coach } }).coldWipe = t at h2 ⊢
  exact State.wr_keeps (State.lampCount_keeps (State.wr_keeps (Keeps.lit h2 rfl) _ _) _ _) _ _

theorem execAuxPowerUp_keeps {s0 s : State} (h : Keeps s0 s) (env : BootEnv) (slot : BitVec 4) (coach : Bool) : AnsKeeps s0 (execAuxPowerUp env slot coach s) := by
  unfold execAuxPowerUp
  repeat' first
    | with_reducible assumption
    | with_reducible apply State.powerUp_keeps
    | with_reducible apply State.lampStarts_keeps
    | with_reducible refine AnsKeeps.next ?_
    | split

theorem execAuxPowerLoss_keeps {s0 s : State} (h : Keeps s0 s) : AnsKeeps s0 (execAuxPowerLoss s) := by
  unfold execAuxPowerLoss
  repeat' first
    | with_reducible assumption
    | ((try lift_lets -underBinder); first | ((intro z; refine Keeps.cut (s0 := s0) (x := z) ?_ ?_) <;> [(dsimp -zeta only [z]); (intro hz; try clear_value z)]) | ((intro z; refine Keeps.cut (s0 := s0) (x := z.1) ?_ ?_) <;> [(dsimp -zeta only [z]); (intro hz; try clear_value z)]) | (intro z; have hz : z.arb = z.arb := rfl; clear hz) | (intro z; try clear_value z))
    | with_reducible apply State.wr_keeps
    | with_reducible apply State.mainOff_keeps
    | with_reducible refine AnsKeeps.next ?_
    | split
    | with_reducible refine Keeps.lit ?_ rfl

theorem execMainPowerLow_keeps {s0 s : State} (h : Keeps s0 s) : AnsKeeps s0 (execMainPowerLow s) := by
  unfold execMainPowerLow
  repeat' first
    | with_reducible assumption
    | ((try lift_lets -underBinder); first | ((intro z; refine Keeps.cut (s0 := s0) (x := z) ?_ ?_) <;> [(dsimp -zeta only [z]); (intro hz; try clear_value z)]) | ((intro z; refine Keeps.cut (s0 := s0) (x := z.1) ?_ ?_) <;> [(dsimp -zeta only [z]); (intro hz; try clear_value z)]) | (intro z; have hz : z.arb = z.arb := rfl; clear hz) | (intro z; try clear_value z))
    | with_reducible apply State.closeBypass_keeps
    | with_reducible apply State.mainOff_keeps
    | with_reducible refine AnsKeeps.next ?_
    | split
    | with_reducible refine Keeps.lit ?_ rfl

theorem execMainStageRetry_keeps {s0 s : State} (h : Keeps s0 s) (env : BootEnv) : AnsKeeps s0 (execMainStageRetry env s) := by
  unfold execMainStageRetry
  repeat' first
    | with_reducible assumption
    | with_reducible apply State.powerUp_keeps
    | with_reducible refine AnsKeeps.next ?_
    | split

theorem State.putClass_keeps {s0 s : State} (h : Keeps s0 s) (r : RegId) (cls : Latch) (w : Word) : Keeps s0 (State.putClass s r cls w) := by
  unfold State.putClass
  repeat' first
    | with_reducible assumption
    | with_reducible apply State.setWord_keeps
    | split

theorem State.lampRaise_keeps {s0 s : State} (h : Keeps s0 s) (e : Ev) : Keeps s0 (State.lampRaise s e) := by
  unfold State.lampRaise
  repeat' first
    | with_reducible assumption
    | with_reducible apply State.history_keeps
    | with_reducible apply State.raise_keeps
    | split

theorem State.throttle_keeps {s0 s : State} (h : Keeps s0 s) (r : Nat) : Keeps s0 (State.throttle s r) := by
  unfold State.throttle
  repeat' first
    | with_reducible assumption
    | ((try lift_lets -underBinder); first | ((intro z; refine Keeps.cut (s0 := s0) (x := z) ?_ ?_) <;> [(dsimp -zeta only [z]); (intro hz; try clear_value z)]) | ((intro z; refine Keeps.cut (s0 := s0) (x := z.1) ?_ ?_) <;> [(dsimp -zeta only [z]); (intro hz; try clear_value z)]) | (intro z; have hz : z.arb = z.arb := rfl; clear hz) | (intro z; try clear_value z))
    | with_reducible apply State.wr_keeps
    | with_reducible apply State.lampRaise_keeps
    | split

theorem State.logRule_keeps {s0 s : State} (h : Keeps s0 s) (r : Nat) (trip : Bool) : Keeps s0 (State.logRule s r trip) := by
  unfold State.logRule
  repeat' first
    | with_reducible assumption
    | ((try lift_lets -underBinder); first | ((intro z; refine Keeps.cut (s0 := s0) (x := z) ?_ ?_) <;> [(dsimp -zeta only [z]); (intro hz; try clear_value z)]) | ((intro z; refine Keeps.cut (s0 := s0) (x := z.1) ?_ ?_) <;> [(dsimp -zeta only [z]); (intro hz; try clear_value z)]) | (intro z; have hz : z.arb = z.arb := rfl; clear hz) | (intro z; try clear_value z))
    | with_reducible apply State.history_keeps
    | with_reducible apply State.lampRaise_keeps
    | split
    | with_reducible refine Keeps.lit ?_ rfl

theorem State.releaseRule_keeps {s0 s : State} (h : Keeps s0 s) (r : Nat) : Keeps s0 (State.releaseRule s r) := by
  unfold State.releaseRule
  repeat' first
    | with_reducible assumption
    | with_reducible apply State.throttle_keeps
    | with_reducible apply State.logRule_keeps
    | split

theorem State.enableRule_keeps {s0 s : State} (h : Keeps s0 s) (r : Nat) (en : Bool) : Keeps s0 (State.enableRule s r en) := by
  unfold State.enableRule
  repeat' first
    | with_reducible assumption
    | ((try lift_lets -underBinder); first | ((intro z; refine Keeps.cut (s0 := s0) (x := z) ?_ ?_) <;> [(dsimp -zeta only [z]); (intro hz; try clear_value z)]) | ((intro z; refine Keeps.cut (s0 := s0) (x := z.1) ?_ ?_) <;> [(dsimp -zeta only [z]); (intro hz; try clear_value z)]) | (intro z; have hz : z.arb = z.arb := rfl; clear hz) | (intro z; try clear_value z))
    | with_reducible apply State.wr_keeps
    | with_reducible apply State.lampRaise_keeps
    | with_reducible apply State.releaseRule_keeps
    | split
    | with_reducible refine Keeps.lit ?_ rfl

theorem State.orderReset_keeps {s0 s : State} (h : Keeps s0 s) (kind : Nat) (cause : Nat) : Keeps s0 (State.orderReset s kind cause) := by
  unfold State.orderReset
  repeat' first
    | with_reducible assumption
    | ((try lift_lets -underBinder); first | ((intro z; refine Keeps.cut (s0 := s0) (x := z) ?_ ?_) <;> [(dsimp -zeta only [z]); (intro hz; try clear_value z)]) | ((intro z; refine Keeps.cut (s0 := s0) (x := z.1) ?_ ?_) <;> [(dsimp -zeta only [z]); (intro hz; try clear_value z)]) | (intro z; have hz : z.arb = z.arb := rfl; clear hz) | (intro z; try clear_value z))
    | with_reducible apply State.wr_keeps
    | split
    | with_reducible refine Keeps.lit ?_ rfl

theorem State.applyI_keeps {s0 s : State} (h : Keeps s0 s) (a : Nat) (w : Word) (cause : Nat) : Keeps s0 (State.applyI s a w cause) := by
  unfold State.applyI
  repeat' first
    | with_reducible assumption
    | ((try lift_lets -underBinder); first | ((intro z; refine Keeps.cut (s0 := s0) (x := z) ?_ ?_) <;> [(dsimp -zeta only [z]); (intro hz; try clear_value z)]) | ((intro z; refine Keeps.cut (s0 := s0) (x := z.1) ?_ ?_) <;> [(dsimp -zeta only [z]); (intro hz; try clear_value z)]) | (intro z; have hz : z.arb = z.arb := rfl; clear hz) | (intro z; try clear_value z))
    | with_reducible apply State.wr_keeps
    | with_reducible apply State.putClass_keeps
    | with_reducible apply State.enableRule_keeps
    | with_reducible apply State.orderReset_keeps
    | split
    | with_reducible refine Keeps.lit ?_ rfl

theorem State.applyAllI_keeps {s0 s : State} (h : Keeps s0 s) : Keeps s0 (State.applyAllI s) := by
  unfold State.applyAllI
  repeat' first
    | with_reducible assumption
    | ((try lift_lets -underBinder); first | ((intro z; refine Keeps.cut (s0 := s0) (x := z) ?_ ?_) <;> [(dsimp -zeta only [z]); (intro hz; try clear_value z)]) | ((intro z; refine Keeps.cut (s0 := s0) (x := z.1) ?_ ?_) <;> [(dsimp -zeta only [z]); (intro hz; try clear_value z)]) | (intro z; have hz : z.arb = z.arb := rfl; clear hz) | (intro z; try clear_value z))
    | with_reducible apply State.applyI_keeps
    | ((with_reducible refine Keeps.foldl _ _ ?_ (fun z w hz => ?_)); (try beta_reduce))
    | split
    | with_reducible refine Keeps.lit ?_ rfl

theorem State.thermal_keeps {s0 s : State} (h : Keeps s0 s) (ch : Nat) (y : Int) : Keeps s0 (State.thermal s ch y) := by
  unfold State.thermal
  repeat' first
    | with_reducible assumption
    | ((try lift_lets -underBinder); first | ((intro z; refine Keeps.cut (s0 := s0) (x := z) ?_ ?_) <;> [(dsimp -zeta only [z]); (intro hz; try clear_value z)]) | ((intro z; refine Keeps.cut (s0 := s0) (x := z.1) ?_ ?_) <;> [(dsimp -zeta only [z]); (intro hz; try clear_value z)]) | (intro z; have hz : z.arb = z.arb := rfl; clear hz) | (intro z; try clear_value z))
    | with_reducible apply State.lampCount_keeps
    | split
    | with_reducible refine Keeps.lit ?_ rfl

theorem State.sampleCh_keeps {s0 s : State} (h : Keeps s0 s) (xs : List Sample) (ch : Nat) : Keeps s0 (State.sampleCh s xs ch) := by
  unfold State.sampleCh
  repeat' first
    | with_reducible assumption
    | ((try lift_lets -underBinder); first | ((intro z; refine Keeps.cut (s0 := s0) (x := z) ?_ ?_) <;> [(dsimp -zeta only [z]); (intro hz; try clear_value z)]) | ((intro z; refine Keeps.cut (s0 := s0) (x := z.1) ?_ ?_) <;> [(dsimp -zeta only [z]); (intro hz; try clear_value z)]) | (intro z; have hz : z.arb = z.arb := rfl; clear hz) | (intro z; try clear_value z))
    | with_reducible apply State.setWord_keeps
    | with_reducible apply State.wr_keeps
    | with_reducible apply State.thermal_keeps
    | split
    | with_reducible refine Keeps.lit ?_ rfl

theorem State.ruleStep_keeps {s0 s : State} (h : Keeps s0 s) (r : Nat) : Keeps s0 (State.ruleStep s r).1 := by
  unfold State.ruleStep
  repeat' first
    | with_reducible assumption
    | ((try lift_lets -underBinder); first | ((intro z; refine Keeps.cut (s0 := s0) (x := z) ?_ ?_) <;> [(dsimp -zeta only [z]); (intro hz; try clear_value z)]) | ((intro z; refine Keeps.cut (s0 := s0) (x := z.1) ?_ ?_) <;> [(dsimp -zeta only [z]); (intro hz; try clear_value z)]) | (intro z; have hz : z.arb = z.arb := rfl; clear hz) | (intro z; try clear_value z))
    | with_reducible apply State.wr_keeps
    | with_reducible apply State.count_keeps
    | with_reducible apply State.release_keeps
    | split
    | with_reducible refine Keeps.lit ?_ rfl

theorem State.rulesFrom_keeps {s0 s : State} (h : Keeps s0 s) (rs : List Nat) : Keeps s0 (State.rulesFrom s rs).1 := by
  induction rs generalizing s  with
  | nil =>
    unfold State.rulesFrom
    repeat' first
      | with_reducible assumption
      | ((try lift_lets -underBinder); first | ((intro z; refine Keeps.cut (s0 := s0) (x := z) ?_ ?_) <;> [(dsimp -zeta only [z]); (intro hz; try clear_value z)]) | ((intro z; refine Keeps.cut (s0 := s0) (x := z.1) ?_ ?_) <;> [(dsimp -zeta only [z]); (intro hz; try clear_value z)]) | (intro z; have hz : z.arb = z.arb := rfl; clear hz) | (intro z; try clear_value z))
      | with_reducible apply State.release_keeps
      | with_reducible apply State.ruleStep_keeps
      | split
  | cons x r ih =>
    unfold State.rulesFrom
    try dsimp -zeta only
    repeat' first
      | with_reducible assumption
      | ((try lift_lets -underBinder); first | ((intro z; refine Keeps.cut (s0 := s0) (x := z) ?_ ?_) <;> [(dsimp -zeta only [z]); (intro hz; try clear_value z)]) | ((intro z; refine Keeps.cut (s0 := s0) (x := z.1) ?_ ?_) <;> [(dsimp -zeta only [z]); (intro hz; try clear_value z)]) | (intro z; have hz : z.arb = z.arb := rfl; clear hz) | (intro z; try clear_value z))
      | with_reducible apply ih
      | with_reducible apply State.release_keeps
      | with_reducible apply State.ruleStep_keeps
      | split

theorem State.powerEvent_keeps {s0 s : State} (h : Keeps s0 s) (old : Nat) (new : Nat) (cause : Nat) : Keeps s0 (State.powerEvent s old new cause) := by
  unfold State.powerEvent
  repeat' first
    | with_reducible assumption
    | with_reducible apply State.lampRaise_keeps
    | split

theorem State.shutdown_keeps {s0 s : State} (h : Keeps s0 s) (rs : List Nat) : Keeps s0 (State.shutdown s rs) := by
  unfold State.shutdown
  repeat' first
    | with_reducible assumption
    | ((try lift_lets -underBinder); first | ((intro z; refine Keeps.cut (s0 := s0) (x := z) ?_ ?_) <;> [(dsimp -zeta only [z]); (intro hz; try clear_value z)]) | ((intro z; refine Keeps.cut (s0 := s0) (x := z.1) ?_ ?_) <;> [(dsimp -zeta only [z]); (intro hz; try clear_value z)]) | (intro z; have hz : z.arb = z.arb := rfl; clear hz) | (intro z; try clear_value z))
    | with_reducible apply State.closeBypass_keeps
    | with_reducible apply State.mainOff_keeps
    | with_reducible apply State.lampRaise_keeps
    | with_reducible apply State.powerEvent_keeps
    | ((with_reducible refine Keeps.foldl _ _ ?_ (fun z w hz => ?_)); (try beta_reduce))
    | split

theorem State.fenceBy_keeps {s0 s : State} (h : Keeps s0 s) (r : Nat) : Keeps s0 (State.fenceBy s r) := by
  unfold State.fenceBy
  repeat' first
    | with_reducible assumption
    | ((try lift_lets -underBinder); first | ((intro z; refine Keeps.cut (s0 := s0) (x := z) ?_ ?_) <;> [(dsimp -zeta only [z]); (intro hz; try clear_value z)]) | ((intro z; refine Keeps.cut (s0 := s0) (x := z.1) ?_ ?_) <;> [(dsimp -zeta only [z]); (intro hz; try clear_value z)]) | (intro z; have hz : z.arb = z.arb := rfl; clear hz) | (intro z; try clear_value z))
    | with_reducible apply State.raise_keeps
    | split

theorem State.actAll_keeps {s0 s : State} (h : Keeps s0 s) (trips : List Nat) (rels : List Nat) : Keeps s0 (State.actAll s trips rels).1 := by
  unfold State.actAll
  repeat' first
    | with_reducible assumption
    | ((try lift_lets -underBinder); first | ((intro z; refine Keeps.cut (s0 := s0) (x := z) ?_ ?_) <;> [(dsimp -zeta only [z]); (intro hz; try clear_value z)]) | ((intro z; refine Keeps.cut (s0 := s0) (x := z.1) ?_ ?_) <;> [(dsimp -zeta only [z]); (intro hz; try clear_value z)]) | (intro z; have hz : z.arb = z.arb := rfl; clear hz) | (intro z; try clear_value z))
    | with_reducible apply State.wr_keeps
    | with_reducible apply State.closeBypass_keeps
    | with_reducible apply State.throttle_keeps
    | with_reducible apply State.logRule_keeps
    | with_reducible apply State.shutdown_keeps
    | with_reducible apply State.fenceBy_keeps
    | ((with_reducible refine Keeps.foldl _ _ ?_ (fun z w hz => ?_)); (try beta_reduce))
    | split
    | with_reducible refine Keeps.lit ?_ rfl

theorem State.startPower_keeps {s0 s : State} (h : Keeps s0 s) (q : Nat) : Keeps s0 (State.startPower s q) := by
  unfold State.startPower
  repeat' first
    | with_reducible assumption
    | ((try lift_lets -underBinder); first | ((intro z; refine Keeps.cut (s0 := s0) (x := z) ?_ ?_) <;> [(dsimp -zeta only [z]); (intro hz; try clear_value z)]) | ((intro z; refine Keeps.cut (s0 := s0) (x := z.1) ?_ ?_) <;> [(dsimp -zeta only [z]); (intro hz; try clear_value z)]) | (intro z; have hz : z.arb = z.arb := rfl; clear hz) | (intro z; try clear_value z))
    | with_reducible apply State.wr_keeps
    | with_reducible apply State.closeBypass_keeps
    | split
    | with_reducible refine Keeps.lit ?_ rfl

theorem State.powerRequest_keeps {s0 s : State} (h : Keeps s0 s) (wake : Bool) : Keeps s0 (State.powerRequest s wake) := by
  unfold State.powerRequest
  repeat' first
    | with_reducible assumption
    | ((try lift_lets -underBinder); first | ((intro z; refine Keeps.cut (s0 := s0) (x := z) ?_ ?_) <;> [(dsimp -zeta only [z]); (intro hz; try clear_value z)]) | ((intro z; refine Keeps.cut (s0 := s0) (x := z.1) ?_ ?_) <;> [(dsimp -zeta only [z]); (intro hz; try clear_value z)]) | (intro z; have hz : z.arb = z.arb := rfl; clear hz) | (intro z; try clear_value z))
    | with_reducible apply State.wr_keeps
    | with_reducible apply State.request_keeps
    | with_reducible apply State.powerEvent_keeps
    | with_reducible apply State.startPower_keeps
    | split
    | with_reducible refine Keeps.lit ?_ rfl

theorem execLampSample_keeps {s0 s : State} (h : Keeps s0 s) (xs : List Sample) : AnsKeeps s0 (execLampSample xs s) := by
  unfold execLampSample
  repeat' first
    | with_reducible assumption
    | ((try lift_lets -underBinder); first | ((intro z; refine Keeps.cut (s0 := s0) (x := z) ?_ ?_) <;> [(dsimp -zeta only [z]); (intro hz; try clear_value z)]) | ((intro z; refine Keeps.cut (s0 := s0) (x := z.1) ?_ ?_) <;> [(dsimp -zeta only [z]); (intro hz; try clear_value z)]) | (intro z; have hz : z.arb = z.arb := rfl; clear hz) | (intro z; try clear_value z))
    | with_reducible apply State.applyAllI_keeps
    | with_reducible apply State.sampleCh_keeps
    | with_reducible apply State.rulesFrom_keeps
    | with_reducible apply State.actAll_keeps
    | with_reducible apply State.powerRequest_keeps
    | ((with_reducible refine Keeps.foldl _ _ ?_ (fun z w hz => ?_)); (try beta_reduce))
    | with_reducible refine AnsKeeps.next ?_
    | split

theorem State.enterRetain_keeps {s0 s : State} (h : Keeps s0 s) : Keeps s0 s.enterRetain := by
  unfold State.enterRetain
  have h2 := Keeps.foldl (fun t r => t.setWord r (s.word r)) [RegId.MODULE_STATUS, .MODULE_VERSIONS, .MODULE_LEAD, .FW_STATUS, .FW_CTRL]
    (State.warmWipe_keeps h) fun t r ht => State.setWord_keeps ht _ _
  dsimp only
  generalize List.foldl (fun t r => t.setWord r (s.word r)) s.warmWipe
    [RegId.MODULE_STATUS, .MODULE_VERSIONS, .MODULE_LEAD, .FW_STATUS, .FW_CTRL] = t at h2 ⊢
  have h3 : Keeps s0 { t with fw := s.fw } := ⟨h2.queue, h2.mem, h2.flash, h.arb, h2.wire, h2.fresh, h2.fuses⟩
  generalize ({ t with fw := s.fw } : State) = u at h3 ⊢
  exact Keeps.foldl _ _ (State.wr_keeps (State.wr_keeps h3 _ _) _ _) fun v d hv => State.modDie_keeps hv _ _

theorem State.exitRetain_keeps {s0 s : State} (h : Keeps s0 s) : Keeps s0 (State.exitRetain s) := by
  unfold State.exitRetain
  repeat' first
    | with_reducible assumption
    | ((try lift_lets -underBinder); first | ((intro z; refine Keeps.cut (s0 := s0) (x := z) ?_ ?_) <;> [(dsimp -zeta only [z]); (intro hz; try clear_value z)]) | ((intro z; refine Keeps.cut (s0 := s0) (x := z.1) ?_ ?_) <;> [(dsimp -zeta only [z]); (intro hz; try clear_value z)]) | (intro z; have hz : z.arb = z.arb := rfl; clear hz) | (intro z; try clear_value z))
    | with_reducible apply State.modDie_keeps
    | with_reducible apply State.modPort_keeps
    | with_reducible apply State.trainLinks_keeps
    | ((with_reducible refine Keeps.foldl _ _ ?_ (fun z w hz => ?_)); (try beta_reduce))
    | split

theorem execPowerTransitionDone_keeps {s0 s : State} (h : Keeps s0 s) (env : BootEnv) : AnsKeeps s0 (execPowerTransitionDone env s) := by
  unfold execPowerTransitionDone
  repeat' first
    | with_reducible assumption
    | ((try lift_lets -underBinder); first | ((intro z; refine Keeps.cut (s0 := s0) (x := z) ?_ ?_) <;> [(dsimp -zeta only [z]); (intro hz; try clear_value z)]) | ((intro z; refine Keeps.cut (s0 := s0) (x := z.1) ?_ ?_) <;> [(dsimp -zeta only [z]); (intro hz; try clear_value z)]) | (intro z; have hz : z.arb = z.arb := rfl; clear hz) | (intro z; try clear_value z))
    | with_reducible apply State.wr_keeps
    | with_reducible apply State.powerUp_keeps
    | with_reducible apply State.mainOff_keeps
    | with_reducible apply State.runReset_keeps
    | with_reducible apply State.powerEvent_keeps
    | with_reducible apply State.enterRetain_keeps
    | with_reducible apply State.exitRetain_keeps
    | with_reducible refine AnsKeeps.next ?_
    | split
    | with_reducible refine Keeps.lit ?_ rfl

theorem execFramSave_keeps {s0 s : State} (h : Keeps s0 s) (secs : Nat) : AnsKeeps s0 (execFramSave secs s) := by
  unfold execFramSave
  repeat' first
    | with_reducible assumption
    | ((try lift_lets -underBinder); first | ((intro z; refine Keeps.cut (s0 := s0) (x := z) ?_ ?_) <;> [(dsimp -zeta only [z]); (intro hz; try clear_value z)]) | ((intro z; refine Keeps.cut (s0 := s0) (x := z.1) ?_ ?_) <;> [(dsimp -zeta only [z]); (intro hz; try clear_value z)]) | (intro z; have hz : z.arb = z.arb := rfl; clear hz) | (intro z; try clear_value z))
    | with_reducible apply State.wr_keeps
    | with_reducible apply State.lampCount_keeps
    | with_reducible refine AnsKeeps.next ?_
    | split
    | with_reducible refine Keeps.lit ?_ rfl

theorem execLampSampleBlock_keeps {s0 s : State} (h : Keeps s0 s) : AnsKeeps s0 (execLampSampleBlock s) := by
  unfold execLampSampleBlock
  repeat' first
    | with_reducible assumption
    | with_reducible apply State.fifoPush_keeps
    | ((with_reducible refine Keeps.foldl _ _ ?_ (fun z w hz => ?_)); (try beta_reduce))
    | with_reducible refine AnsKeeps.next ?_
    | split

theorem State.ringPut_keeps {s0 s : State} (h : Keeps s0 s) (w : FifoWord) : Keeps s0 (State.ringPut s w) := by
  unfold State.ringPut
  repeat' first
    | with_reducible assumption
    | ((try lift_lets -underBinder); first | ((intro z; refine Keeps.cut (s0 := s0) (x := z) ?_ ?_) <;> [(dsimp -zeta only [z]); (intro hz; try clear_value z)]) | ((intro z; refine Keeps.cut (s0 := s0) (x := z.1) ?_ ?_) <;> [(dsimp -zeta only [z]); (intro hz; try clear_value z)]) | (intro z; have hz : z.arb = z.arb := rfl; clear hz) | (intro z; try clear_value z))
    | with_reducible apply State.wr_keeps
    | with_reducible apply State.setBytes_keeps
    | with_reducible apply State.unmapped_keeps
    | split

theorem State.ringPump_keeps {s0 s : State} (h : Keeps s0 s) (fuel : Nat) : Keeps s0 (State.ringPump s fuel) := by
  induction fuel generalizing s  with
  | zero =>
    unfold State.ringPump
    repeat' first
      | with_reducible assumption
      | with_reducible apply State.ringPut_keeps
      | split
      | with_reducible refine Keeps.lit ?_ rfl
  | succ n ih =>
    unfold State.ringPump
    try dsimp -zeta only
    repeat' first
      | with_reducible assumption
      | with_reducible apply ih
      | with_reducible apply State.ringPut_keeps
      | split
      | with_reducible refine Keeps.lit ?_ rfl

theorem State.ringRelease_keeps {s0 s : State} (h : Keeps s0 s) : Keeps s0 (State.ringRelease s) := by
  unfold State.ringRelease
  repeat' first
    | with_reducible assumption
    | with_reducible apply State.ringPump_keeps
    | split

theorem State.holdRecord_keeps {s0 s t : State} {w : FifoWord} (e : s.holdRecord w = some t) (h : Keeps s0 s) : Keeps s0 t := by
  unfold State.holdRecord at e
  split at e
  · cases e
    exact Keeps.lit h rfl
  · split at e
    · cases e
      exact State.count_keeps (Keeps.lit h rfl) _ _
    · split at e
      · cases e
        exact State.count_keeps h _ _
      · cases e

theorem execEventFifoRead_keeps {s0 s : State} (h : Keeps s0 s) (d : Nat) : AnsKeeps s0 (execEventFifoRead d s) := by
  unfold execEventFifoRead
  repeat' first
    | with_reducible assumption
    | ((try lift_lets -underBinder); first | ((intro z; refine Keeps.cut (s0 := s0) (x := z) ?_ ?_) <;> [(dsimp -zeta only [z]); (intro hz; try clear_value z)]) | ((intro z; refine Keeps.cut (s0 := s0) (x := z.1) ?_ ?_) <;> [(dsimp -zeta only [z]); (intro hz; try clear_value z)]) | (intro z; have hz : z.arb = z.arb := rfl; clear hz) | (intro z; try clear_value z))
    | with_reducible apply State.modDie_keeps
    | with_reducible apply State.send_keeps
    | with_reducible refine AnsKeeps.next ?_
    | split

theorem execEventRecordForward_keeps {s0 s : State} (h : Keeps s0 s) (d : Nat) : AnsKeeps s0 (execEventRecordForward d s) := by
  unfold execEventRecordForward
  repeat' first
    | with_reducible assumption
    | ((try lift_lets -underBinder); first | ((intro z; refine Keeps.cut (s0 := s0) (x := z) ?_ ?_) <;> [(dsimp -zeta only [z]); (intro hz; try clear_value z)]) | ((intro z; refine Keeps.cut (s0 := s0) (x := z.1) ?_ ?_) <;> [(dsimp -zeta only [z]); (intro hz; try clear_value z)]) | (intro z; have hz : z.arb = z.arb := rfl; clear hz) | (intro z; try clear_value z))
    | with_reducible apply State.modDie_keeps
    | with_reducible apply State.ringPut_keeps
    | with_reducible apply State.ringRelease_keeps
    | with_reducible refine AnsKeeps.next ?_
    | exact State.holdRecord_keeps (by assumption) (by with_reducible assumption)
    | split

theorem State.rcClear_keeps {s0 s : State} (h : Keeps s0 s) (r : RegId) : Keeps s0 (State.rcClear s r) := by
  unfold State.rcClear
  repeat' first
    | with_reducible assumption
    | ((try lift_lets -underBinder); first | ((intro z; refine Keeps.cut (s0 := s0) (x := z) ?_ ?_) <;> [(dsimp -zeta only [z]); (intro hz; try clear_value z)]) | ((intro z; refine Keeps.cut (s0 := s0) (x := z.1) ?_ ?_) <;> [(dsimp -zeta only [z]); (intro hz; try clear_value z)]) | (intro z; have hz : z.arb = z.arb := rfl; clear hz) | (intro z; try clear_value z))
    | with_reducible apply State.setWord_keeps
    | ((with_reducible refine Keeps.foldl _ _ ?_ (fun z w hz => ?_)); (try beta_reduce))
    | split

theorem State.regRead_keeps {s0 s : State} (h : Keeps s0 s) (a : Nat) : Keeps s0 (State.regRead s a).1 := by
  unfold State.regRead
  repeat' first
    | with_reducible assumption
    | with_reducible apply State.rcClear_keeps
    | split

theorem State.busyReg_keeps {s0 s : State} (h : Keeps s0 s) (r : RegId) : Keeps s0 (State.busyReg s r) := by
  unfold State.busyReg
  repeat' first
    | with_reducible assumption
    | with_reducible apply State.busyWrite_keeps
    | split

theorem State.writeL_keeps {s0 s : State} (h : Keeps s0 s) (r : RegId) (w : Word) : Keeps s0 (State.writeL s r w) := by
  unfold State.writeL
  repeat' first
    | with_reducible assumption
    | with_reducible apply State.putClass_keeps
    | with_reducible apply State.busyReg_keeps
    | split

theorem State.writeF_keeps {s0 s : State} (h : Keeps s0 s) (r : RegId) (w : Word) : Keeps s0 (State.writeF s r w) := by
  unfold State.writeF
  repeat' first
    | with_reducible assumption
    | ((try lift_lets -underBinder); first | ((intro z; refine Keeps.cut (s0 := s0) (x := z) ?_ ?_) <;> [(dsimp -zeta only [z]); (intro hz; try clear_value z)]) | ((intro z; refine Keeps.cut (s0 := s0) (x := z.1) ?_ ?_) <;> [(dsimp -zeta only [z]); (intro hz; try clear_value z)]) | (intro z; have hz : z.arb = z.arb := rfl; clear hz) | (intro z; try clear_value z))
    | with_reducible apply State.pendWrite_keeps
    | split

theorem State.writeI_keeps {s0 s : State} (h : Keeps s0 s) (src : Src) (r : RegId) (w : Word) : Keeps s0 (State.writeI s src r w) := by
  unfold State.writeI
  repeat' first
    | with_reducible assumption
    | ((try lift_lets -underBinder); first | ((intro z; refine Keeps.cut (s0 := s0) (x := z) ?_ ?_) <;> [(dsimp -zeta only [z]); (intro hz; try clear_value z)]) | ((intro z; refine Keeps.cut (s0 := s0) (x := z.1) ?_ ?_) <;> [(dsimp -zeta only [z]); (intro hz; try clear_value z)]) | (intro z; have hz : z.arb = z.arb := rfl; clear hz) | (intro z; try clear_value z))
    | with_reducible apply State.putClass_keeps
    | split
    | with_reducible refine Keeps.lit ?_ rfl

theorem State.mboxDone_keeps {s0 s : State} (h : Keeps s0 s) (bs : List Byte) : Keeps s0 (State.mboxDone s bs) := by
  unfold State.mboxDone
  repeat' first
    | with_reducible assumption
    | ((try lift_lets -underBinder); first | ((intro z; refine Keeps.cut (s0 := s0) (x := z) ?_ ?_) <;> [(dsimp -zeta only [z]); (intro hz; try clear_value z)]) | ((intro z; refine Keeps.cut (s0 := s0) (x := z.1) ?_ ?_) <;> [(dsimp -zeta only [z]); (intro hz; try clear_value z)]) | (intro z; have hz : z.arb = z.arb := rfl; clear hz) | (intro z; try clear_value z))
    | with_reducible apply State.wr_keeps
    | split
    | with_reducible refine Keeps.lit ?_ rfl

theorem State.mboxErr_keeps {s0 s : State} (h : Keeps s0 s) : Keeps s0 (State.mboxErr s) := by
  unfold State.mboxErr
  repeat' first
    | with_reducible assumption
    | with_reducible apply State.wr_keeps
    | split

theorem State.mboxRun_keeps {s0 s : State} (h : Keeps s0 s) : Keeps s0 (State.mboxRun s) := by
  unfold State.mboxRun
  repeat' first
    | with_reducible assumption
    | ((try lift_lets -underBinder); first | ((intro z; refine Keeps.cut (s0 := s0) (x := z) ?_ ?_) <;> [(dsimp -zeta only [z]); (intro hz; try clear_value z)]) | ((intro z; refine Keeps.cut (s0 := s0) (x := z.1) ?_ ?_) <;> [(dsimp -zeta only [z]); (intro hz; try clear_value z)]) | (intro z; have hz : z.arb = z.arb := rfl; clear hz) | (intro z; try clear_value z))
    | with_reducible apply State.wr_keeps
    | with_reducible apply State.history_keeps
    | with_reducible apply State.retire_keeps
    | with_reducible apply State.mboxDone_keeps
    | with_reducible apply State.mboxErr_keeps
    | split
    | with_reducible refine Keeps.lit ?_ rfl

theorem State.fwOrders_keeps {s0 s : State} (h : Keeps s0 s) (sig : Bool) : Keeps s0 (State.fwOrders s sig) := by
  unfold State.fwOrders
  repeat' first
    | with_reducible assumption
    | ((try lift_lets -underBinder); first | ((intro z; refine Keeps.cut (s0 := s0) (x := z) ?_ ?_) <;> [(dsimp -zeta only [z]); (intro hz; try clear_value z)]) | ((intro z; refine Keeps.cut (s0 := s0) (x := z.1) ?_ ?_) <;> [(dsimp -zeta only [z]); (intro hz; try clear_value z)]) | (intro z; have hz : z.arb = z.arb := rfl; clear hz) | (intro z; try clear_value z))
    | with_reducible apply State.fwGo_keeps
    | with_reducible apply State.fwCommit_keeps
    | with_reducible apply State.fwArb_keeps
    | split

theorem State.ttReadyWritten_keeps {s0 s : State} (h : Keeps s0 s) (d : Nat) (was : Bool) : Keeps s0 (State.ttReadyWritten s d was) := by
  unfold State.ttReadyWritten
  repeat' first
    | with_reducible assumption
    | with_reducible apply State.wr_keeps
    | with_reducible apply State.modDie_keeps
    | split

theorem State.spadPowered_keeps {s0 s : State} (h : Keeps s0 s) (d : Nat) (c : Nat) (old : Nat) : Keeps s0 (State.spadPowered s d c old) := by
  unfold State.spadPowered
  repeat' first
    | with_reducible assumption
    | ((try lift_lets -underBinder); first | ((intro z; refine Keeps.cut (s0 := s0) (x := z) ?_ ?_) <;> [(dsimp -zeta only [z]); (intro hz; try clear_value z)]) | ((intro z; refine Keeps.cut (s0 := s0) (x := z.1) ?_ ?_) <;> [(dsimp -zeta only [z]); (intro hz; try clear_value z)]) | (intro z; have hz : z.arb = z.arb := rfl; clear hz) | (intro z; try clear_value z))
    | with_reducible apply State.wr_keeps
    | with_reducible apply State.modCore_keeps
    | with_reducible apply State.zeroRange_keeps
    | ((with_reducible refine Keeps.foldl _ _ ?_ (fun z w hz => ?_)); (try beta_reduce))
    | split

theorem State.submitted_keeps {s0 s : State} (h : Keeps s0 s) (w : Word) : Keeps s0 (State.submitted s w) := by
  unfold State.submitted
  repeat' first
    | with_reducible assumption
    | with_reducible apply State.wr_keeps
    | split

theorem State.afterWrite_keeps {s0 s : State} (h : Keeps s0 s) (ws0 : State) (r : RegId) (w : Word) (sig : Bool) : Keeps s0 (State.afterWrite s ws0 r w sig) := by
  unfold State.afterWrite
  repeat' first
    | with_reducible assumption
    | ((try lift_lets -underBinder); first | ((intro z; refine Keeps.cut (s0 := s0) (x := z) ?_ ?_) <;> [(dsimp -zeta only [z]); (intro hz; try clear_value z)]) | ((intro z; refine Keeps.cut (s0 := s0) (x := z.1) ?_ ?_) <;> [(dsimp -zeta only [z]); (intro hz; try clear_value z)]) | (intro z; have hz : z.arb = z.arb := rfl; clear hz) | (intro z; try clear_value z))
    | with_reducible apply State.request_keeps
    | with_reducible apply State.releaseCq_keeps
    | with_reducible apply State.retrain_keeps
    | with_reducible apply State.linkOff_keeps
    | with_reducible apply State.closeBypass_keeps
    | with_reducible apply State.joinTeam_keeps
    | with_reducible apply State.attGo_keeps
    | with_reducible apply State.ringRelease_keeps
    | with_reducible apply State.mboxRun_keeps
    | with_reducible apply State.fwOrders_keeps
    | with_reducible apply State.ttReadyWritten_keeps
    | with_reducible apply State.spadPowered_keeps
    | with_reducible apply State.submitted_keeps
    | split
    | with_reducible refine Keeps.lit ?_ rfl

theorem State.ledgerWord_keeps {s0 s : State} (h : Keeps s0 s) (src : Src) (d : Nat) (w : Word) : Keeps s0 (State.ledgerWord s src d w) := by
  unfold State.ledgerWord
  repeat' first
    | with_reducible assumption
    | ((try lift_lets -underBinder); first | ((intro z; refine Keeps.cut (s0 := s0) (x := z) ?_ ?_) <;> [(dsimp -zeta only [z]); (intro hz; try clear_value z)]) | ((intro z; refine Keeps.cut (s0 := s0) (x := z.1) ?_ ?_) <;> [(dsimp -zeta only [z]); (intro hz; try clear_value z)]) | (intro z; have hz : z.arb = z.arb := rfl; clear hz) | (intro z; try clear_value z))
    | with_reducible apply State.busyWrite_keeps
    | with_reducible apply State.ledgerTake_keeps
    | with_reducible apply State.ledgerDone_keeps
    | with_reducible apply State.ledgerClose_keeps
    | split

theorem State.writeReg_keeps {s0 s : State} (h : Keeps s0 s) (src : Src) (r : RegId) (w : Word) (sig : Bool) : Keeps s0 (State.writeReg s src r w sig) := by
  unfold State.writeReg
  repeat' first
    | with_reducible assumption
    | with_reducible apply State.busyReg_keeps
    | with_reducible apply State.writeL_keeps
    | with_reducible apply State.writeF_keeps
    | with_reducible apply State.writeI_keeps
    | with_reducible apply State.afterWrite_keeps
    | with_reducible apply State.ledgerWord_keeps
    | split

theorem State.writeMbox_keeps {s0 s : State} (h : Keeps s0 s) (o : Nat) (w : Word) : Keeps s0 (State.writeMbox s o w) := by
  unfold State.writeMbox
  repeat' first
    | with_reducible assumption
    | ((try lift_lets -underBinder); first | ((intro z; refine Keeps.cut (s0 := s0) (x := z) ?_ ?_) <;> [(dsimp -zeta only [z]); (intro hz; try clear_value z)]) | ((intro z; refine Keeps.cut (s0 := s0) (x := z.1) ?_ ?_) <;> [(dsimp -zeta only [z]); (intro hz; try clear_value z)]) | (intro z; have hz : z.arb = z.arb := rfl; clear hz) | (intro z; try clear_value z))
    | with_reducible apply State.busyWrite_keeps
    | split
    | with_reducible refine Keeps.lit ?_ rfl

theorem State.regWrite_keeps {s0 s : State} (h : Keeps s0 s) (src : Src) (a : Nat) (w : Word) (sig : Bool) : Keeps s0 (State.regWrite s src a w sig) := by
  unfold State.regWrite
  repeat' first
    | with_reducible assumption
    | with_reducible apply State.writeReg_keeps
    | with_reducible apply State.writeMbox_keeps
    | split

theorem State.command_keeps {s0 s : State} (h : Keeps s0 s) (src : Src) (r : RegId) (w : Word) (c : Instr) : Keeps s0 (State.command s src r w c) := by
  unfold State.command
  repeat' first
    | with_reducible assumption
    | with_reducible apply State.writeReg_keeps
    | ((with_reducible refine State.accessWrite_keeps ?_ _ _ _ _ (fun z hz => ?_)); (try beta_reduce))
    | split

theorem execRegisterWrite_keeps {s0 s : State} (h : Keeps s0 s) (src : Src) (p : Packet) (w : Word) : AnsKeeps s0 (execRegisterWrite src p w s) := by
  unfold execRegisterWrite
  repeat' first
    | with_reducible assumption
    | with_reducible apply State.registerOn_keeps
    | with_reducible apply State.regWrite_keeps
    | ((with_reducible refine State.accessWrite_keeps ?_ _ _ _ _ (fun z hz => ?_)); (try beta_reduce))
    | with_reducible refine AnsKeeps.next ?_
    | split

theorem State.answerRead_keeps {s0 s : State} (h : Keeps s0 s) (src : Src) (a : Nat) : Keeps s0 (State.answerRead s src a) := by
  unfold State.answerRead
  repeat' first
    | with_reducible assumption
    | ((try lift_lets -underBinder); first | ((intro z; refine Keeps.cut (s0 := s0) (x := z) ?_ ?_) <;> [(dsimp -zeta only [z]); (intro hz; try clear_value z)]) | ((intro z; refine Keeps.cut (s0 := s0) (x := z.1) ?_ ?_) <;> [(dsimp -zeta only [z]); (intro hz; try clear_value z)]) | (intro z; have hz : z.arb = z.arb := rfl; clear hz) | (intro z; try clear_value z))
    | with_reducible apply State.send_keeps
    | with_reducible apply State.respond_keeps
    | with_reducible apply State.regRead_keeps
    | split

theorem execRegisterRead_keeps {s0 s : State} (h : Keeps s0 s) (src : Src) (p : Packet) : AnsKeeps s0 (execRegisterRead src p s) := by
  unfold execRegisterRead
  repeat' first
    | with_reducible assumption
    | with_reducible apply State.registerOn_keeps
    | with_reducible apply State.answerRead_keeps
    | ((with_reducible refine State.access_keeps ?_ _ _ _ _ (fun z hz => ?_)); (try beta_reduce))
    | with_reducible refine AnsKeeps.next ?_
    | split

theorem execRcRead_keeps {s0 s : State} (h : Keeps s0 s) (src : Src) (addr : BitVec 48) : AnsKeeps s0 (execRcRead src addr s) := by
  unfold execRcRead
  repeat' first
    | with_reducible assumption
    | with_reducible apply State.answerRead_keeps
    | ((with_reducible refine State.access_keeps ?_ _ _ _ _ (fun z hz => ?_)); (try beta_reduce))
    | with_reducible refine AnsKeeps.next ?_
    | split

theorem execRegisterResponse_keeps {s0 s : State} (h : Keeps s0 s) (d : Nat) (l : Nat) (p : Packet) (data : List Byte) : AnsKeeps s0 (execRegisterResponse d l p data s) := by
  unfold execRegisterResponse
  repeat' first
    | with_reducible assumption
    | ((try lift_lets -underBinder); first | ((intro z; refine Keeps.cut (s0 := s0) (x := z) ?_ ?_) <;> [(dsimp -zeta only [z]); (intro hz; try clear_value z)]) | ((intro z; refine Keeps.cut (s0 := s0) (x := z.1) ?_ ?_) <;> [(dsimp -zeta only [z]); (intro hz; try clear_value z)]) | (intro z; have hz : z.arb = z.arb := rfl; clear hz) | (intro z; try clear_value z))
    | with_reducible apply State.modLink_keeps
    | with_reducible apply State.send_keeps
    | with_reducible apply State.passBack_keeps
    | with_reducible refine AnsKeeps.next ?_
    | split

theorem execTtReady_keeps {s0 s : State} (h : Keeps s0 s) (src : Src) (die : Nat) (w : Word) : AnsKeeps s0 (execTtReady src die w s) := by
  unfold execTtReady
  repeat' first
    | with_reducible assumption
    | with_reducible apply State.command_keeps
    | with_reducible refine AnsKeeps.next ?_
    | split

theorem execJobSubmit_keeps {s0 s : State} (h : Keeps s0 s) (src : Src) (w : Word) : AnsKeeps s0 (execJobSubmit src w s) := by
  unfold execJobSubmit
  repeat' first
    | with_reducible assumption
    | with_reducible apply State.command_keeps
    | with_reducible refine AnsKeeps.next ?_
    | split

theorem State.jobOrder_keeps {s0 s : State} (h : Keeps s0 s) (src : Src) (f : FRef) (c : Instr) : Keeps s0 (State.jobOrder s src f c) := by
  unfold State.jobOrder
  repeat' first
    | with_reducible assumption
    | with_reducible apply State.pendField_keeps
    | ((with_reducible refine State.accessWrite_keeps ?_ _ _ _ _ (fun z hz => ?_)); (try beta_reduce))
    | split

theorem execResume_keeps {s0 s : State} (h : Keeps s0 s) (src : Src) : AnsKeeps s0 (execResume src s) := by
  unfold execResume
  repeat' first
    | with_reducible assumption
    | with_reducible apply State.jobOrder_keeps
    | with_reducible refine AnsKeeps.next ?_
    | split

theorem execJobEnd_keeps {s0 s : State} (h : Keeps s0 s) (src : Src) : AnsKeeps s0 (execJobEnd src s) := by
  unfold execJobEnd
  repeat' first
    | with_reducible assumption
    | with_reducible apply State.jobOrder_keeps
    | with_reducible refine AnsKeeps.next ?_
    | split

theorem execImage_keeps {s0 s : State} (h : Keeps s0 s) (src : Src) : AnsKeeps s0 (execImage src s) := by
  unfold execImage
  repeat' first
    | with_reducible assumption
    | with_reducible apply State.jobOrder_keeps
    | with_reducible refine AnsKeeps.next ?_
    | split

theorem execRestore_keeps {s0 s : State} (h : Keeps s0 s) (src : Src) : AnsKeeps s0 (execRestore src s) := by
  unfold execRestore
  repeat' first
    | with_reducible assumption
    | with_reducible apply State.jobOrder_keeps
    | with_reducible refine AnsKeeps.next ?_
    | split

theorem execCqEnable_keeps {s0 s : State} (h : Keeps s0 s) (src : Src) (die : Nat) (q : Nat) (w : Word) : AnsKeeps s0 (execCqEnable src die q w s) := by
  unfold execCqEnable
  repeat' first
    | with_reducible assumption
    | with_reducible apply State.command_keeps
    | with_reducible refine AnsKeeps.next ?_
    | split

theorem execCqHead_keeps {s0 s : State} (h : Keeps s0 s) (src : Src) (die : Nat) (q : Nat) (head : BitVec 17) : AnsKeeps s0 (execCqHead src die q head s) := by
  unfold execCqHead
  repeat' first
    | with_reducible assumption
    | with_reducible apply State.command_keeps
    | with_reducible refine AnsKeeps.next ?_
    | split

theorem execLinkEnable_keeps {s0 s : State} (h : Keeps s0 s) (src : Src) (die : Nat) (l : Nat) (w : Word) : AnsKeeps s0 (execLinkEnable src die l w s) := by
  unfold execLinkEnable
  repeat' first
    | with_reducible assumption
    | with_reducible apply State.command_keeps
    | with_reducible refine AnsKeeps.next ?_
    | split

theorem execLinkDisable_keeps {s0 s : State} (h : Keeps s0 s) (src : Src) (die : Nat) (l : Nat) (w : Word) : AnsKeeps s0 (execLinkDisable src die l w s) := by
  unfold execLinkDisable
  repeat' first
    | with_reducible assumption
    | with_reducible apply State.command_keeps
    | with_reducible refine AnsKeeps.next ?_
    | split

theorem execTeamJoin_keeps {s0 s : State} (h : Keeps s0 s) (src : Src) (w : Word) : AnsKeeps s0 (execTeamJoin src w s) := by
  unfold execTeamJoin
  repeat' first
    | with_reducible assumption
    | with_reducible apply State.command_keeps
    | with_reducible refine AnsKeeps.next ?_
    | split

theorem execBypassClose_keeps {s0 s : State} (h : Keeps s0 s) (src : Src) (w : Word) : AnsKeeps s0 (execBypassClose src w s) := by
  unfold execBypassClose
  repeat' first
    | with_reducible assumption
    | with_reducible apply State.bypassClose_keeps
    | with_reducible apply State.command_keeps
    | with_reducible refine AnsKeeps.next ?_
    | split

theorem execPowerRequest_keeps {s0 s : State} (h : Keeps s0 s) (src : Src) (w : Word) : AnsKeeps s0 (execPowerRequest src w s) := by
  unfold execPowerRequest
  repeat' first
    | with_reducible assumption
    | with_reducible apply State.powerRequest_keeps
    | with_reducible apply State.command_keeps
    | with_reducible refine AnsKeeps.next ?_
    | split

theorem execCalendarSet_keeps {s0 s : State} (h : Keeps s0 s) (src : Src) (w : Word) : AnsKeeps s0 (execCalendarSet src w s) := by
  unfold execCalendarSet
  repeat' first
    | with_reducible assumption
    | with_reducible apply State.command_keeps
    | with_reducible refine AnsKeeps.next ?_
    | split

theorem execRuleEnable_keeps {s0 s : State} (h : Keeps s0 s) (src : Src) (r : Nat) (w : Word) : AnsKeeps s0 (execRuleEnable src r w s) := by
  unfold execRuleEnable
  repeat' first
    | with_reducible assumption
    | with_reducible apply State.command_keeps
    | with_reducible refine AnsKeeps.next ?_
    | split

theorem execFilterConfig_keeps {s0 s : State} (h : Keeps s0 s) (src : Src) (ch : Nat) (w : Word) : AnsKeeps s0 (execFilterConfig src ch w s) := by
  unfold execFilterConfig
  repeat' first
    | with_reducible assumption
    | with_reducible apply State.command_keeps
    | with_reducible refine AnsKeeps.next ?_
    | split

theorem execReadCounters_keeps {s0 s : State} (h : Keeps s0 s) (src : Src) (arg : BitVec 16) : AnsKeeps s0 (execReadCounters src arg s) := by
  unfold execReadCounters
  repeat' first
    | with_reducible assumption
    | with_reducible apply State.command_keeps
    | with_reducible refine AnsKeeps.next ?_
    | split

theorem execReadErrorHistory_keeps {s0 s : State} (h : Keeps s0 s) (src : Src) (arg : BitVec 16) : AnsKeeps s0 (execReadErrorHistory src arg s) := by
  unfold execReadErrorHistory
  repeat' first
    | with_reducible assumption
    | with_reducible apply State.command_keeps
    | with_reducible refine AnsKeeps.next ?_
    | split

theorem execReadRetirementList_keeps {s0 s : State} (h : Keeps s0 s) (src : Src) (arg : BitVec 16) : AnsKeeps s0 (execReadRetirementList src arg s) := by
  unfold execReadRetirementList
  repeat' first
    | with_reducible assumption
    | with_reducible apply State.command_keeps
    | with_reducible refine AnsKeeps.next ?_
    | split

theorem execAddRetirementEntry_keeps {s0 s : State} (h : Keeps s0 s) (src : Src) (arg : BitVec 16) : AnsKeeps s0 (execAddRetirementEntry src arg s) := by
  unfold execAddRetirementEntry
  repeat' first
    | with_reducible assumption
    | with_reducible apply State.command_keeps
    | with_reducible refine AnsKeeps.next ?_
    | split

theorem execAttestReport_keeps {s0 s : State} (h : Keeps s0 s) (src : Src) (addr : BitVec 48) : AnsKeeps s0 (execAttestReport src addr s) := by
  unfold execAttestReport
  repeat' first
    | with_reducible assumption
    | with_reducible apply State.command_keeps
    | with_reducible refine AnsKeeps.next ?_
    | split

theorem execMrExtend_keeps {s0 s : State} (h : Keeps s0 s) (src : Src) (mr : BitVec 4) (addr : BitVec 48) : AnsKeeps s0 (execMrExtend src mr addr s) := by
  unfold execMrExtend
  repeat' first
    | with_reducible assumption
    | with_reducible apply State.command_keeps
    | with_reducible refine AnsKeeps.next ?_
    | split

theorem execFwUpdate_keeps {s0 s : State} (h : Keeps s0 s) (src : Src) (addr : BitVec 48) (sigOk : Bool) : AnsKeeps s0 (execFwUpdate src addr sigOk s) := by
  unfold execFwUpdate
  repeat' first
    | with_reducible assumption
    | with_reducible apply State.writeReg_keeps
    | ((with_reducible refine State.accessWrite_keeps ?_ _ _ _ _ (fun z hz => ?_)); (try beta_reduce))
    | with_reducible refine AnsKeeps.next ?_
    | split

theorem execFwCommit_keeps {s0 s : State} (h : Keeps s0 s) (src : Src) : AnsKeeps s0 (execFwCommit src s) := by
  unfold execFwCommit
  repeat' first
    | with_reducible assumption
    | with_reducible apply State.fwCommit_keeps
    | with_reducible apply State.writeReg_keeps
    | ((with_reducible refine State.accessWrite_keeps ?_ _ _ _ _ (fun z hz => ?_)); (try beta_reduce))
    | with_reducible refine AnsKeeps.next ?_
    | split

theorem execArbRaise_keeps {s0 s : State} (h : Keeps s0 s) (src : Src) : AnsKeeps s0 (execArbRaise src s) := by
  unfold execArbRaise
  repeat' first
    | with_reducible assumption
    | with_reducible apply State.writeReg_keeps
    | ((with_reducible refine State.accessWrite_keeps ?_ _ _ _ _ (fun z hz => ?_)); (try beta_reduce))
    | with_reducible refine AnsKeeps.next ?_
    | split

theorem execEventRingHead_keeps {s0 s : State} (h : Keeps s0 s) (src : Src) (head : BitVec 21) : AnsKeeps s0 (execEventRingHead src head s) := by
  unfold execEventRingHead
  repeat' first
    | with_reducible assumption
    | with_reducible apply State.command_keeps
    | with_reducible refine AnsKeeps.next ?_
    | split

theorem execEventRingEnable_keeps {s0 s : State} (h : Keeps s0 s) (src : Src) (w : Word) : AnsKeeps s0 (execEventRingEnable src w s) := by
  unfold execEventRingEnable
  repeat' first
    | with_reducible assumption
    | with_reducible apply State.command_keeps
    | with_reducible refine AnsKeeps.next ?_
    | split

theorem execSmbusBlockWrite_keeps {s0 s : State} (h : Keeps s0 s) (addr : BitVec 48) (w : Word) (pecOk : Bool) : AnsKeeps s0 (execSmbusBlockWrite addr w pecOk s) := by
  unfold execSmbusBlockWrite
  repeat' first
    | with_reducible assumption
    | with_reducible apply State.regWrite_keeps
    | ((with_reducible refine State.access_keeps ?_ _ _ _ _ (fun z hz => ?_)); (try beta_reduce))
    | with_reducible refine AnsKeeps.next ?_
    | split

theorem execSmbusSetPointer_keeps {s0 s : State} (h : Keeps s0 s) (addr : BitVec 48) (pecOk : Bool) : AnsKeeps s0 (execSmbusSetPointer addr pecOk s) := by
  unfold execSmbusSetPointer
  repeat' first
    | with_reducible assumption
    | ((try lift_lets -underBinder); first | ((intro z; refine Keeps.cut (s0 := s0) (x := z) ?_ ?_) <;> [(dsimp -zeta only [z]); (intro hz; try clear_value z)]) | ((intro z; refine Keeps.cut (s0 := s0) (x := z.1) ?_ ?_) <;> [(dsimp -zeta only [z]); (intro hz; try clear_value z)]) | (intro z; have hz : z.arb = z.arb := rfl; clear hz) | (intro z; try clear_value z))
    | with_reducible refine AnsKeeps.next ?_
    | split
    | with_reducible refine Keeps.lit ?_ rfl

theorem execSmbusBlockRead_keeps {s0 s : State} (h : Keeps s0 s) (pecOk : Bool) : AnsKeeps s0 (execSmbusBlockRead pecOk s) := by
  unfold execSmbusBlockRead
  repeat' first
    | with_reducible assumption
    | ((try lift_lets -underBinder); first | ((intro z; refine Keeps.cut (s0 := s0) (x := z) ?_ ?_) <;> [(dsimp -zeta only [z]); (intro hz; try clear_value z)]) | ((intro z; refine Keeps.cut (s0 := s0) (x := z.1) ?_ ?_) <;> [(dsimp -zeta only [z]); (intro hz; try clear_value z)]) | (intro z; have hz : z.arb = z.arb := rfl; clear hz) | (intro z; try clear_value z))
    | with_reducible apply State.send_keeps
    | with_reducible apply State.regRead_keeps
    | with_reducible refine AnsKeeps.next ?_
    | split

theorem State.then__keeps {s0 s : State} (h : Keeps s0 s) {a : Ans} (ha : AnsKeeps s0 a) : Keeps s0 (s.then_ a) := by
  unfold State.then_
  split
  · exact ha
  · exact h

theorem State.serveHeld_keeps {s0 s : State} (h : Keeps s0 s) (c : Instr) : Keeps s0 (State.serveHeld s c) := by
  unfold State.serveHeld
  repeat' first
    | with_reducible assumption
    | with_reducible apply State.bypassClose_keeps
    | with_reducible apply State.fwCommit_keeps
    | with_reducible apply State.powerRequest_keeps
    | with_reducible apply execRegisterWrite_keeps
    | with_reducible apply execRegisterRead_keeps
    | with_reducible apply execRcRead_keeps
    | with_reducible apply execJobSubmit_keeps
    | with_reducible apply execResume_keeps
    | with_reducible apply execJobEnd_keeps
    | with_reducible apply execImage_keeps
    | with_reducible apply execRestore_keeps
    | with_reducible apply execTeamJoin_keeps
    | with_reducible apply execBypassClose_keeps
    | with_reducible apply execPowerRequest_keeps
    | with_reducible apply execCalendarSet_keeps
    | with_reducible apply execRuleEnable_keeps
    | with_reducible apply execFilterConfig_keeps
    | with_reducible apply execReadCounters_keeps
    | with_reducible apply execReadErrorHistory_keeps
    | with_reducible apply execReadRetirementList_keeps
    | with_reducible apply execAddRetirementEntry_keeps
    | with_reducible apply execAttestReport_keeps
    | with_reducible apply execMrExtend_keeps
    | with_reducible apply execFwUpdate_keeps
    | with_reducible apply execFwCommit_keeps
    | with_reducible apply execArbRaise_keeps
    | with_reducible apply execEventRingHead_keeps
    | with_reducible apply execEventRingEnable_keeps
    | with_reducible apply State.then__keeps
    | split

theorem execLeadTakeover_keeps {s0 s : State} (h : Keeps s0 s) (ms : Nat) : AnsKeeps s0 (execLeadTakeover ms s) := by
  unfold execLeadTakeover
  repeat' first
    | with_reducible assumption
    | ((try lift_lets -underBinder); first | ((intro z; refine Keeps.cut (s0 := s0) (x := z) ?_ ?_) <;> [(dsimp -zeta only [z]); (intro hz; try clear_value z)]) | ((intro z; refine Keeps.cut (s0 := s0) (x := z.1) ?_ ?_) <;> [(dsimp -zeta only [z]); (intro hz; try clear_value z)]) | (intro z; have hz : z.arb = z.arb := rfl; clear hz) | (intro z; try clear_value z))
    | with_reducible apply State.wr_keeps
    | with_reducible apply State.raise_keeps
    | with_reducible apply State.serveHeld_keeps
    | ((with_reducible refine Keeps.foldl _ _ ?_ (fun z w hz => ?_)); (try beta_reduce))
    | with_reducible refine AnsKeeps.next ?_
    | split
    | with_reducible refine Keeps.lit ?_ rfl

theorem execReadRequest_keeps {s0 s : State} (h : Keeps s0 s) (d : Nat) (l : Nat) (p : Packet) : AnsKeeps s0 (execReadRequest d l p s) := by
  unfold execReadRequest
  repeat' first
    | with_reducible assumption
    | ((try lift_lets -underBinder); first | ((intro z; refine Keeps.cut (s0 := s0) (x := z) ?_ ?_) <;> [(dsimp -zeta only [z]); (intro hz; try clear_value z)]) | ((intro z; refine Keeps.cut (s0 := s0) (x := z.1) ?_ ?_) <;> [(dsimp -zeta only [z]); (intro hz; try clear_value z)]) | (intro z; have hz : z.arb = z.arb := rfl; clear hz) | (intro z; try clear_value z))
    | with_reducible apply State.bankServed_keeps
    | with_reducible apply State.putPacket_keeps
    | with_reducible apply State.requestFails_keeps
    | with_reducible apply State.sendOn_keeps
    | with_reducible refine AnsKeeps.next ?_
    | split

theorem State.packetStore_keeps {s0 s : State} (h : Keeps s0 s) (p : Packet) (a : Nat) (data : List Byte) : Keeps s0 (State.packetStore s p a data) := by
  unfold State.packetStore
  repeat' first
    | with_reducible assumption
    | with_reducible apply State.bankServed_keeps
    | with_reducible apply State.store0_keeps
    | with_reducible apply State.mirrorWrite_keeps
    | split

theorem execWrite_keeps {s0 s : State} (h : Keeps s0 s) (d : Nat) (l : Nat) (p : Packet) (data : List Byte) : AnsKeeps s0 (execWrite d l p data s) := by
  unfold execWrite
  repeat' first
    | with_reducible assumption
    | ((try lift_lets -underBinder); first | ((intro z; refine Keeps.cut (s0 := s0) (x := z) ?_ ?_) <;> [(dsimp -zeta only [z]); (intro hz; try clear_value z)]) | ((intro z; refine Keeps.cut (s0 := s0) (x := z.1) ?_ ?_) <;> [(dsimp -zeta only [z]); (intro hz; try clear_value z)]) | (intro z; have hz : z.arb = z.arb := rfl; clear hz) | (intro z; try clear_value z))
    | with_reducible apply State.putPacket_keeps
    | with_reducible apply State.requestFails_keeps
    | with_reducible apply State.sendOn_keeps
    | with_reducible apply State.packetStore_keeps
    | with_reducible refine AnsKeeps.next ?_
    | split

theorem execMgRd_keeps {s0 s : State} (h : Keeps s0 s) (wh : Hdr) (a : FmtA) : AnsKeeps s0 (execMgRd wh a s) := by
  unfold execMgRd
  repeat' first
    | with_reducible assumption
    | ((try lift_lets -underBinder); first | ((intro z; refine Keeps.cut (s0 := s0) (x := z) ?_ ?_) <;> [(dsimp -zeta only [z]); (intro hz; try clear_value z)]) | ((intro z; refine Keeps.cut (s0 := s0) (x := z.1) ?_ ?_) <;> [(dsimp -zeta only [z]); (intro hz; try clear_value z)]) | (intro z; have hz : z.arb = z.arb := rfl; clear hz) | (intro z; try clear_value z))
    | with_reducible apply State.setS_keeps
    | with_reducible apply State.unmapped_keeps
    | with_reducible apply State.regRead_keeps
    | ((with_reducible refine State.issue_keeps ?_ _ _ _ _ _ (fun z hz => ?_)); (try beta_reduce))
    | with_reducible refine AnsKeeps.next ?_
    | with_reducible apply ResKeeps.done
    | split

theorem execMgWr_keeps {s0 s : State} (h : Keeps s0 s) (wh : Hdr) (a : FmtA) : AnsKeeps s0 (execMgWr wh a s) := by
  unfold execMgWr
  repeat' first
    | with_reducible assumption
    | ((try lift_lets -underBinder); first | ((intro z; refine Keeps.cut (s0 := s0) (x := z) ?_ ?_) <;> [(dsimp -zeta only [z]); (intro hz; try clear_value z)]) | ((intro z; refine Keeps.cut (s0 := s0) (x := z.1) ?_ ?_) <;> [(dsimp -zeta only [z]); (intro hz; try clear_value z)]) | (intro z; have hz : z.arb = z.arb := rfl; clear hz) | (intro z; try clear_value z))
    | with_reducible apply State.unmapped_keeps
    | with_reducible apply State.regWrite_keeps
    | ((with_reducible refine State.issue_keeps ?_ _ _ _ _ _ (fun z hz => ?_)); (try beta_reduce))
    | with_reducible refine AnsKeeps.next ?_
    | with_reducible apply ResKeeps.done
    | split

theorem State.blockRepaired_keeps {s0 s : State} (h : Keeps s0 s) (d : Nat) (shard : Nat) (block : Nat) (n : Nat) : Keeps s0 (State.blockRepaired s d shard block n) := by
  unfold State.blockRepaired
  repeat' first
    | with_reducible assumption
    | with_reducible apply State.used_keeps
    | with_reducible apply State.scrub_keeps
    | ((with_reducible refine Keeps.foldl _ _ ?_ (fun z w hz => ?_)); (try beta_reduce))
    | split

theorem execMgEvent_keeps {s0 s : State} (h : Keeps s0 s) (wh : Hdr) (a : FmtA) : AnsKeeps s0 (execMgEvent wh a s) := by
  unfold execMgEvent
  repeat' first
    | with_reducible assumption
    | ((try lift_lets -underBinder); first | ((intro z; refine Keeps.cut (s0 := s0) (x := z) ?_ ?_) <;> [(dsimp -zeta only [z]); (intro hz; try clear_value z)]) | ((intro z; refine Keeps.cut (s0 := s0) (x := z.1) ?_ ?_) <;> [(dsimp -zeta only [z]); (intro hz; try clear_value z)]) | (intro z; have hz : z.arb = z.arb := rfl; clear hz) | (intro z; try clear_value z))
    | with_reducible apply State.raise_keeps
    | with_reducible apply State.blockRepaired_keeps
    | ((with_reducible refine State.issue_keeps ?_ _ _ _ _ _ (fun z hz => ?_)); (try beta_reduce))
    | with_reducible refine AnsKeeps.next ?_
    | with_reducible apply ResKeeps.done
    | split

theorem State.fenceControl_keeps {s0 s : State} (h : Keeps s0 s) (d : Nat) (k : Nat) : Keeps s0 (State.fenceControl s d k) := by
  unfold State.fenceControl
  repeat' first
    | with_reducible assumption
    | ((try lift_lets -underBinder); first | ((intro z; refine Keeps.cut (s0 := s0) (x := z) ?_ ?_) <;> [(dsimp -zeta only [z]); (intro hz; try clear_value z)]) | ((intro z; refine Keeps.cut (s0 := s0) (x := z.1) ?_ ?_) <;> [(dsimp -zeta only [z]); (intro hz; try clear_value z)]) | (intro z; have hz : z.arb = z.arb := rfl; clear hz) | (intro z; try clear_value z))
    | with_reducible apply State.modCore_keeps
    | with_reducible apply State.fenceFound_keeps
    | with_reducible apply State.raise_keeps
    | split

theorem State.parkCore_keeps {s0 s : State} (h : Keeps s0 s) (d : Nat) (c : Nat) : Keeps s0 (State.parkCore s d c) := by
  unfold State.parkCore
  repeat' first
    | with_reducible assumption
    | with_reducible apply State.modCore_keeps
    | with_reducible apply State.used_keeps
    | with_reducible apply State.stopItem_keeps
    | with_reducible apply State.raise_keeps
    | split

theorem State.coreOrder_keeps {s0 s : State} (h : Keeps s0 s) (d : Nat) (c : Nat) (order : Nat) : Keeps s0 (State.coreOrder s d c order) := by
  unfold State.coreOrder
  repeat' first
    | with_reducible assumption
    | with_reducible apply State.modCore_keeps
    | with_reducible apply State.fenceCore_keeps
    | with_reducible apply State.parkCore_keeps
    | split

theorem State.controlOrder_keeps {s0 s : State} (h : Keeps s0 s) (d : Nat) (k : Nat) (order : Nat) : Keeps s0 (State.controlOrder s d k order) := by
  unfold State.controlOrder
  repeat' first
    | with_reducible assumption
    | with_reducible apply State.modCore_keeps
    | with_reducible apply State.fenceControl_keeps
    | split

theorem State.chanOrder_keeps {s0 s : State} (h : Keeps s0 s) (d : Nat) (n : Nat) (order : Nat) : Keeps s0 (State.chanOrder s d n order) := by
  unfold State.chanOrder
  repeat' first
    | with_reducible assumption
    | with_reducible apply State.cancelChan_keeps
    | with_reducible apply State.resumeChan_keeps
    | with_reducible apply State.pauseChan_keeps
    | split

theorem State.queueOrder_keeps {s0 s : State} (h : Keeps s0 s) (d : Nat) (q : Nat) (order : Nat) : Keeps s0 (State.queueOrder s d q order) := by
  unfold State.queueOrder
  repeat' first
    | with_reducible assumption
    | with_reducible apply State.wr_keeps
    | with_reducible apply State.releaseCq_keeps
    | split

theorem State.linkOrder_keeps {s0 s : State} (h : Keeps s0 s) (d l order : Nat) : Keeps s0 (s.linkOrder d l order) := by
  unfold State.linkOrder
  dsimp only
  split
  · exact h
  split
  · exact State.linkOff_keeps (State.wr_keeps h _ _) _ _
  split
  · exact State.retrain_keeps (State.wr_keeps (State.linkOff_keeps (State.wr_keeps h _ _) _ _) _ _) _ _ _
  split
  · exact State.retrain_keeps (State.wr_keeps h _ _) _ _ _
  · exact h

theorem State.portOrder_keeps {s0 s : State} (h : Keeps s0 s) (d : Nat) (p : Nat) (order : Nat) : Keeps s0 (State.portOrder s d p order) := by
  unfold State.portOrder
  repeat' first
    | with_reducible assumption
    | with_reducible apply State.modPort_keeps
    | with_reducible apply State.portReinit_keeps
    | split

theorem State.fenceOrdered_keeps {s0 s : State} (h : Keeps s0 s) (o : FenceOrder) : Keeps s0 (State.fenceOrdered s o) := by
  unfold State.fenceOrdered
  repeat' first
    | with_reducible assumption
    | with_reducible apply State.fenceFound_keeps
    | with_reducible apply State.coreOrder_keeps
    | with_reducible apply State.controlOrder_keeps
    | with_reducible apply State.chanOrder_keeps
    | with_reducible apply State.queueOrder_keeps
    | with_reducible apply State.linkOrder_keeps
    | with_reducible apply State.portOrder_keeps
    | split

theorem execMgFence_keeps {s0 s : State} (h : Keeps s0 s) (wh : Hdr) (a : FmtA) : AnsKeeps s0 (execMgFence wh a s) := by
  unfold execMgFence
  repeat' first
    | with_reducible assumption
    | ((try lift_lets -underBinder); first | ((intro z; refine Keeps.cut (s0 := s0) (x := z) ?_ ?_) <;> [(dsimp -zeta only [z]); (intro hz; try clear_value z)]) | ((intro z; refine Keeps.cut (s0 := s0) (x := z.1) ?_ ?_) <;> [(dsimp -zeta only [z]); (intro hz; try clear_value z)]) | (intro z; have hz : z.arb = z.arb := rfl; clear hz) | (intro z; try clear_value z))
    | with_reducible apply State.fenceOrdered_keeps
    | ((with_reducible refine State.issue_keeps ?_ _ _ _ _ _ (fun z hz => ?_)); (try beta_reduce))
    | with_reducible refine AnsKeeps.next ?_
    | with_reducible apply ResKeeps.done
    | with_reducible apply ResKeeps.fault
    | split

theorem execMgImage_keeps {s0 s : State} (h : Keeps s0 s) (wh : Hdr) (a : FmtA) : AnsKeeps s0 (execMgImage wh a s) := by
  unfold execMgImage
  repeat' first
    | with_reducible assumption
    | with_reducible apply State.unmapped_keeps
    | with_reducible apply State.pendField_keeps
    | ((with_reducible refine State.issue_keeps ?_ _ _ _ _ _ (fun z hz => ?_)); (try beta_reduce))
    | with_reducible refine AnsKeeps.next ?_
    | with_reducible apply ResKeeps.done
    | split

end Sys2Proof.Machine
end

