-- ==== Sys2Proof/Laws/Sync.lean ====
section
/-! SUPPORT. What a take, a post and the naming of a semaphore change. -/

namespace Sys2Proof.Machine

theorem any_tabSet {α : Type} (t : Tab α) (k x : Nat) (v : α) :
    (tabSet t k v).any (fun e => decide (e.1 = x)) = (decide (k = x) || t.any (fun e => decide (e.1 = x))) := by
  induction t with
  | nil => simp [tabSet]
  | cons e r ih =>
    obtain ⟨j, w⟩ := e
    simp only [tabSet]
    split
    · simp
    · split
      · rename_i h; subst h; simp
      · simp only [List.any_cons, ih]
        cases decide (k = x) <;> simp

theorem Core.pairOf_eq {c : Core} {n f : Nat} (h : c.pairOf n = some f) : f = n - n % 2 ∧ c.pairs.any (fun e => decide (e.1 = f)) = true := by
  unfold Core.pairOf at h
  split at h
  · rename_i h1; cases h; exact ⟨rfl, h1⟩
  · cases h

/-- A change of a declared pair declares and ends none. -/
theorem Core.pairOf_modPair {c : Core} {n f : Nat} (h : c.pairOf n = some f) (g : Pair → Pair) (m : Nat) : (c.modPair f g).pairOf m = c.pairOf m := by
  obtain ⟨-, h2⟩ := Core.pairOf_eq h
  simp only [Core.pairOf, Core.modPair, any_tabSet]
  by_cases hx : f = m - m % 2
  · subst hx; simp only [h2, Bool.or_true]
  · simp only [hx, decide_false, Bool.false_or]

/-- Whether a semaphore is one of a pair. -/
theorem Core.pairOf_isSome (c : Core) (m : Nat) : (c.pairOf m).isSome = c.pairs.any (fun e => decide (e.1 = m - m % 2)) := by
  unfold Core.pairOf
  split
  · rename_i h; rw [h]; rfl
  · rename_i h; rw [Bool.eq_false_iff.2 h]; rfl

theorem Core.pairOf_congr {c e : Core} (h : c.pairs = e.pairs) (m : Nat) : c.pairOf m = e.pairOf m := by
  unfold Core.pairOf
  rw [h]

/-- A core with the semaphores and pairs of another otherwise. -/
theorem Core.take_rest (c : Core) (n k : Nat) : c.take n k = { c with sem := (c.take n k).sem, pairs := (c.take n k).pairs } := by
  unfold Core.take
  dsimp only
  split <;> rfl

theorem Core.arrive_rest (c : Core) (n k : Nat) : (c.arrive n k).1 = { c with sem := (c.arrive n k).1.sem, pairs := (c.arrive n k).1.pairs } := by
  unfold Core.arrive
  split
  · dsimp only
    split
    · split <;> rfl
    · rfl
  · split <;> rfl

theorem Core.issuePost_rest (c : Core) (n k : Nat) : c.issuePost n k = { c with pairs := (c.issuePost n k).pairs } := by
  unfold Core.issuePost
  split <;> rfl

/-- What a take does (R116, R118). -/
theorem Core.take_spec (c : Core) (n k : Nat) :
    (∀ m, tabGet (c.take n k).sem m 0 = if m = n then tabGet c.sem n 0 - k else tabGet c.sem m 0) ∧
    (∀ f, tabGet (c.take n k).pairs f pairNone = if c.pairOf n = some f then
      { tabGet c.pairs f pairNone with held := (tabGet c.pairs f pairNone).held + k } else tabGet c.pairs f pairNone) ∧
    (∀ m, (c.take n k).pairOf m = c.pairOf m) := by
  have hp : ∀ x : Tab Nat, ({ c with sem := x } : Core).pairOf n = c.pairOf n := fun _ => rfl
  unfold Core.take
  dsimp only
  rw [hp]
  cases h : c.pairOf n with
  | none =>
    refine ⟨fun m => ?_, fun f => ?_, fun m => rfl⟩
    · simp only [tabGet_tabSet, Core.semVal, eq_comm]
    · rw [if_neg (by simp)]
  | some f =>
    dsimp only
    refine ⟨fun m => ?_, fun g => ?_, fun m => ?_⟩
    · simp only [Core.modPair, tabGet_tabSet, Core.semVal, eq_comm]
    · simp only [Core.modPair, tabGet_tabSet, Option.some.injEq]
      by_cases hg : f = g
      · subst hg; simp
      · simp [hg]
    · exact (Core.pairOf_congr (e := c.modPair f fun p => { p with held := p.held + k }) rfl m).trans (Core.pairOf_modPair h _ m)

/-- What the arrival of a post does (R118): applied where HELD_fe of a pair covers it and the semaphore stays at most 65,535. -/
theorem Core.arrive_applied (c : Core) (n k : Nat) (ho : tabGet c.sem n 0 + k ≤ 65535)
    (hh : ∀ f, c.pairOf n = some f → k ≤ (tabGet c.pairs f pairNone).held) :
    (c.arrive n k).2 = .applied ∧
    (∀ m, tabGet (c.arrive n k).1.sem m 0 = if m = n then tabGet c.sem n 0 + k else tabGet c.sem m 0) ∧
    (∀ f, tabGet (c.arrive n k).1.pairs f pairNone = if c.pairOf n = some f then
      { tabGet c.pairs f pairNone with held := (tabGet c.pairs f pairNone).held - k, infl := (tabGet c.pairs f pairNone).infl - k }
      else tabGet c.pairs f pairNone) ∧
    (∀ m, (c.arrive n k).1.pairOf m = c.pairOf m) := by
  unfold Core.arrive
  cases h : c.pairOf n with
  | none =>
    dsimp only
    rw [if_neg (by simp only [Core.semVal]; omega)]
    refine ⟨rfl, fun m => ?_, fun f => ?_, fun m => rfl⟩
    · simp only [tabGet_tabSet, Core.semVal, eq_comm]
    · rw [if_neg (by simp)]
  | some f =>
    dsimp only
    have h1 : tabGet (c.modPair f fun p => { p with infl := p.infl - k }).pairs f pairNone =
        { tabGet c.pairs f pairNone with infl := (tabGet c.pairs f pairNone).infl - k } := by simp [Core.modPair]
    rw [h1, if_pos (hh f h), if_neg (by simp only [Core.semVal, Core.modPair]; omega)]
    refine ⟨rfl, fun m => ?_, fun g => ?_, fun m => ?_⟩
    · simp only [Core.modPair, tabGet_tabSet, Core.semVal, eq_comm]
    · by_cases hg : f = g
      · subst hg; simp [Core.modPair]
      · simp [Core.modPair, hg, tabGet_tabSet]
    · have h2 := Core.pairOf_modPair h (fun p : Pair => { p with infl := p.infl - k })
      exact (Core.pairOf_congr (e := (c.modPair f fun p => { p with infl := p.infl - k }).modPair f fun p => { p with held := p.held - k }) rfl m).trans
        ((Core.pairOf_modPair ((h2 n).trans h) _ m).trans (h2 m))

/-- What the arrival of a refused post does: it is out of INFL_fe, and nothing else changes (R118). -/
theorem Core.arrive_excess (c : Core) (n k f : Nat) (h : c.pairOf n = some f) (hh : (tabGet c.pairs f pairNone).held < k) :
    (c.arrive n k).2 = .excess ∧ (c.arrive n k).1.sem = c.sem := by
  unfold Core.arrive
  rw [h]
  dsimp only
  have h1 : tabGet (c.modPair f fun p => { p with infl := p.infl - k }).pairs f pairNone =
      { tabGet c.pairs f pairNone with infl := (tabGet c.pairs f pairNone).infl - k } := by simp [Core.modPair]
  rw [h1, if_neg (by simpa using hh)]
  exact ⟨rfl, rfl⟩

theorem Core.arrive_overflow (c : Core) (n k : Nat) (ho : 65535 < tabGet c.sem n 0 + k)
    (hh : ∀ f, c.pairOf n = some f → k ≤ (tabGet c.pairs f pairNone).held) :
    (c.arrive n k).2 = .overflow ∧ (c.arrive n k).1.sem = c.sem := by
  unfold Core.arrive
  cases h : c.pairOf n with
  | none => dsimp only; rw [if_pos (by simpa only [Core.semVal] using ho)]; exact ⟨rfl, rfl⟩
  | some f =>
    dsimp only
    have h1 : tabGet (c.modPair f fun p => { p with infl := p.infl - k }).pairs f pairNone =
        { tabGet c.pairs f pairNone with infl := (tabGet c.pairs f pairNone).infl - k } := by simp [Core.modPair]
    rw [h1, if_pos (hh f h), if_pos (by simpa only [Core.semVal, Core.modPair] using ho)]
    exact ⟨rfl, rfl⟩

/-- A post issued toward a semaphore counts in INFL_fe of its pair (R118). -/
theorem Core.issuePost_spec (c : Core) (n k : Nat) :
    (∀ f, tabGet (c.issuePost n k).pairs f pairNone = if c.pairOf n = some f then
      { tabGet c.pairs f pairNone with infl := (tabGet c.pairs f pairNone).infl + k } else tabGet c.pairs f pairNone) ∧
    (∀ m, (c.issuePost n k).pairOf m = c.pairOf m) := by
  unfold Core.issuePost
  cases h : c.pairOf n with
  | none => exact ⟨fun f => by rw [if_neg (by simp)], fun m => rfl⟩
  | some f =>
    refine ⟨fun g => ?_, fun m => Core.pairOf_modPair h _ m⟩
    by_cases hg : f = g
    · subst hg; simp [Core.modPair]
    · simp [Core.modPair, hg, tabGet_tabSet]

/-- The work item of a sequencer is known to have used a semaphore; nothing else changes. -/
theorem State.nameSem_rest (s : State) (d q n : Nat) :
    s.nameSem d q n = { s with items := (s.nameSem d q n).items } ∧ (∀ k, (s.nameSem d q n).item k = { s.item k with use := ((s.nameSem d q n).item k).use }) ∧
      (∀ k, s.curItem d q ≠ some k → (s.nameSem d q n).item k = s.item k) := by
  unfold State.nameSem
  cases hk : (s.core d q).cur with
  | none => exact ⟨rfl, fun _ => rfl, fun _ _ => rfl⟩
  | some k =>
    refine ⟨rfl, fun j => ?_, fun j hj => ?_⟩
    · by_cases h : k = j
      · subst h; dsimp only; rw [State.item_modItem_same]
      · dsimp only; rw [State.item_modItem_ne _ _ h]
    · rw [State.curItem, hk] at hj
      dsimp only
      rw [State.item_modItem_ne _ _ (fun e => hj (by rw [e]))]

/-- The work item of a sequencer is known to have posted; nothing else changes. -/
theorem State.namePost_rest (s : State) (d q n : Nat) :
    s.namePost d q n = { s with items := (s.namePost d q n).items } ∧ (∀ k, (s.namePost d q n).item k = { s.item k with use := ((s.namePost d q n).item k).use }) := by
  unfold State.namePost
  cases (s.core d q).cur with
  | none => exact ⟨rfl, fun _ => rfl⟩
  | some k =>
    refine ⟨rfl, fun j => ?_⟩
    by_cases h : k = j
    · subst h; dsimp only; rw [State.item_modItem_same]
    · dsimp only; rw [State.item_modItem_ne _ _ h]

theorem State.core_nameSem (s : State) (d q n e p : Nat) : (s.nameSem d q n).core e p = s.core e p := by
  rw [(s.nameSem_rest d q n).1]; rfl

/-- A sync instruction that changes its sequencer's core alone, after it named a semaphore, and then retires. -/
theorem OnlySync.of_core (s : State) (d q n : Nat) (c : Core) (hc : c = { s.core d q with
    pc := c.pc, blocked := c.blocked, sem := c.sem, pairs := c.pairs, s := c.s, p := c.p }) :
    OnlySync d q s ((s.nameSem d q n).modCore d q (fun _ => c)) := by
  obtain ⟨h1, h2, h3⟩ := s.nameSem_rest d q n
  refine ⟨⟨?_, fun k hk => ?_, fun r _ => ?_, fun a => ?_, fun k hk => ?_⟩, ?_, fun k => ?_⟩
  · rw [State.modCore]; rw [h1]
  · rw [State.modCore]; dsimp only; rw [tabGet_tabSet_ne _ _ _ (Ne.symm hk), h1]
  · rw [State.modCore, h1]; rfl
  · rw [State.modCore, h1]; rfl
  · exact h3 k hk
  · rw [State.core_modCore_same]; exact hc
  · exact h2 k

/-- Naming a semaphore. -/
theorem OnlySync.named (s : State) (d q n : Nat) : OnlySync d q s (s.nameSem d q n) := by
  obtain ⟨h1, h2, h3⟩ := s.nameSem_rest d q n
  refine ⟨⟨?_, fun k hk => ?_, fun r _ => ?_, fun a => ?_, h3⟩, ?_, h2⟩
  · rw [h1]
  · rw [h1]
  · rw [h1]; rfl
  · rw [h1]; rfl
  · rw [State.core_nameSem]

theorem OnlySync.refl (d q : Nat) (s : State) : OnlySync d q s s :=
  ⟨⟨rfl, fun _ _ => rfl, fun _ _ => rfl, fun _ => rfl, fun _ _ => rfl⟩, rfl, fun _ => rfl⟩

theorem OnlySync.retire {d q : Nat} {s t : State} (h : OnlySync d q s t) (pc : Word) : OnlySync d q s (t.retire d q pc) := by
  have ho := t.retire_only d q pc
  refine ⟨⟨?_, fun k hk => (ho.others k hk).trans (h.others k hk), fun r hr => (ho.regs r hr).trans (h.regs r hr), fun a => (ho.mem a).trans (h.mem a),
    fun k hk => ?_⟩, ?_, fun k => ?_⟩
  · have h1 := ho.rest
    have h2 := h.rest
    generalize t.retire d q pc = u at h1 ⊢
    rw [h1, h2]
  · rw [State.retire_item]; exact h.items k hk
  · rw [State.retire_core]; rw [h.core]
  · rw [State.retire_item]; exact h.use k

/-- A sync instruction that changes its sequencer's core further. -/
theorem OnlySync.modCore {d q : Nat} {s t : State} (h : OnlySync d q s t) (f : Core → Core) (hf : ∀ c : Core, f c = { c with
    pc := (f c).pc, blocked := (f c).blocked, sem := (f c).sem, pairs := (f c).pairs, s := (f c).s, p := (f c).p }) :
    OnlySync d q s (t.modCore d q f) := by
  refine ⟨⟨?_, fun k hk => ?_, fun r hr => h.regs r hr, fun a => h.mem a, fun k hk => h.items k hk⟩, ?_, h.use⟩
  · have h2 := h.rest
    rw [State.modCore]
    generalize f (t.core d q) = c
    rw [h2]
  · rw [State.modCore]; dsimp only; rw [tabGet_tabSet_ne _ _ _ (Ne.symm hk)]; exact h.others k hk
  · rw [State.core_modCore_same, hf, h.core]

theorem OnlySync.setS {d q : Nat} {s t : State} (h : OnlySync d q s t) (r : BitVec 5) (v : Word) : OnlySync d q s (t.setS d q r v) := by
  unfold State.setS
  split
  · exact h
  · exact h.modCore _ (fun _ => rfl)

theorem OnlySync.setP {d q : Nat} {s t : State} (h : OnlySync d q s t) (r : BitVec 3) (v : Bool) : OnlySync d q s (t.setP d q r v) := by
  unfold State.setP
  split
  · exact h
  · exact h.modCore _ (fun _ => rfl)

theorem State.sreg_congr {s t : State} {d q : Nat} (h : (t.core d q).s = (s.core d q).s) (r : BitVec 5) : t.sreg d q r = s.sreg d q r := by
  rw [State.sreg, h]; rfl

theorem State.preg_congr {s t : State} {d q : Nat} (h : (t.core d q).p = (s.core d q).p) (r : BitVec 3) : t.preg d q r = s.preg d q r := by
  rw [State.preg, h]; rfl

/-- A sequencer that can issue does not stall. -/
theorem State.seqReady_blocked {s : State} {d q : Nat} (h : s.seqReady d q = true) : (s.core d q).blocked = .none := by
  simp only [State.seqReady, Bool.and_eq_true, decide_eq_true_eq] at h
  exact h.1.1.2

/-- A core that a take leaves. -/
theorem Takes.of_core {s t : State} {d q n k : Nat} (hs : (t.core d q).sem = ((s.core d q).take n k).sem)
    (hp : (t.core d q).pairs = ((s.core d q).take n k).pairs) : Takes d q n k s t := by
  obtain ⟨h1, h2, h3⟩ := (s.core d q).take_spec n k
  refine ⟨fun m => ?_, fun f => ?_, fun m => ?_⟩
  · rw [State.semv, hs, h1]; rfl
  · rw [State.pairAt, hp, h2]; rfl
  · rw [Core.pairOf_congr hp, h3]

end Sys2Proof.Machine
end

