-- ==== Sys2Proof/Laws/Lease.lean ====
section
/-! SUPPORT. What one operation at a work counter does (R367). -/

namespace Sys2Proof.Machine

theorem State.credit_regions (s : State) (e : WorkEntry) : s.credit e = { s with regions := (s.credit e).regions } := by
  unfold State.credit
  induction e.regions generalizing s with
  | nil => rfl
  | cons r l ih => rw [List.foldl_cons, ih]; rfl

theorem State.takenFor_regions (s : State) (e : WorkEntry) : s.takenFor e = { s with regions := (s.takenFor e).regions } := by
  unfold State.takenFor
  induction e.regions generalizing s with
  | nil => rfl
  | cons r l ih => rw [List.foldl_cons, ih]; rfl

/-- Nothing but the registers of a counter, its return list and regions differs between two states. -/
structure OnlyCounter (d k : Nat) (s t : State) : Prop where
  rest : t = { s with regs := t.regs, rlists := t.rlists, regions := t.regions }
  regs : ∀ r, r ≠ .WORK_CTR_NEXT d k → r ≠ .WORK_CTR_TAKES d k → r ≠ .WORK_CTR_FRAME d k → r ≠ .WORK_CTR_SKIP d k → t.word r = s.word r
  mem : ∀ a, t.byteAt a = s.byteAt a

theorem OnlyCounter.refl (d k : Nat) (s : State) : OnlyCounter d k s s := ⟨rfl, fun _ _ _ _ _ => rfl, fun _ => rfl⟩

theorem OnlyCounter.wr {d k : Nat} {s t : State} (h : OnlyCounter d k s t) (f : FRef) (v : Nat)
    (hf : f.reg = .WORK_CTR_NEXT d k ∨ f.reg = .WORK_CTR_TAKES d k ∨ f.reg = .WORK_CTR_FRAME d k ∨ f.reg = .WORK_CTR_SKIP d k) :
    OnlyCounter d k s (t.wr f v) := by
  refine ⟨?_, fun r h1 h2 h3 h4 => ?_, fun a => ?_⟩
  · have h1 := h.rest
    rw [State.wr, State.setWord]
    generalize assocSet t.regs _ _ = x
    rw [h1]
  · rw [State.word_wr_ne]
    · exact h.regs r h1 h2 h3 h4
    · rintro rfl
      rcases hf with e | e | e | e
      · exact h1 e
      · exact h2 e
      · exact h3 e
      · exact h4 e
  · rw [State.byteAt_wr _ (by rcases hf with e | e | e | e <;> rw [e] <;> rfl)]
    exact h.mem a

theorem OnlyCounter.rlist {d k : Nat} {s t : State} (h : OnlyCounter d k s t) (l : List Nat) : OnlyCounter d k s (t.setRlist d k l) := by
  refine ⟨?_, h.regs, h.mem⟩
  have h1 := h.rest
  rw [State.setRlist]
  generalize tabSet t.rlists _ _ = x
  rw [h1]

theorem OnlyCounter.credit {d k : Nat} {s t : State} (h : OnlyCounter d k s t) (e : WorkEntry) : OnlyCounter d k s (t.credit e) := by
  rw [State.credit_regions]
  refine ⟨?_, h.regs, h.mem⟩
  have h1 := h.rest
  generalize (t.credit e).regions = x
  rw [h1]

theorem OnlyCounter.trans {d k : Nat} {s t u : State} (h : OnlyCounter d k s t) (g : OnlyCounter d k t u) : OnlyCounter d k s u :=
  ⟨by rw [g.rest, h.rest], fun r h1 h2 h3 h4 => (g.regs r h1 h2 h3 h4).trans (h.regs r h1 h2 h3 h4), fun a => (g.mem a).trans (h.mem a)⟩

/-- The tile that a counter gives next, if any. -/
theorem State.counterPick_spec (s : State) (d k : Nat) :
    (s.counterPick d k = none ∧ s.tilesLeft d k = []) ∨
    ∃ u t, s.counterPick d k = some (u, t) ∧ s.tilesLeft d k = t :: u.tilesLeft d k ∧ OnlyCounter d k s u ∧
      (∀ r, r ≠ .WORK_CTR_NEXT d k → u.word r = s.word r) := by
  unfold State.counterPick
  cases hr : s.rlist d k with
  | cons t r =>
    refine .inr ⟨s.setRlist d k r, t, rfl, ?_, (OnlyCounter.refl ..).rlist _, fun _ _ => rfl⟩
    have h1 : (s.setRlist d k r).rlist d k = r := by rw [State.rlist, State.setRlist, tabGet_tabSet_same]
    rw [State.tilesLeft, State.tilesLeft, hr, h1]
    rfl
  | nil =>
    by_cases hn : s.rd (WORK_CTR_NEXT_NEXT d k) < s.rd (WORK_CTR_NEXT_LIMIT d k)
    · refine .inr ⟨s.wr (WORK_CTR_NEXT_NEXT d k) (s.rd (WORK_CTR_NEXT_NEXT d k) + 1), s.rd (WORK_CTR_NEXT_NEXT d k), by dsimp only; rw [if_pos hn], ?_,
        (OnlyCounter.refl ..).wr _ _ (.inl rfl), fun g hg => State.word_wr_ne _ _ (fun e => hg e.symm)⟩
      have h1 : (s.wr (WORK_CTR_NEXT_NEXT d k) (s.rd (WORK_CTR_NEXT_NEXT d k) + 1)).rlist d k = [] := hr
      have h2 : (s.wr (WORK_CTR_NEXT_NEXT d k) (s.rd (WORK_CTR_NEXT_NEXT d k) + 1)).rd (WORK_CTR_NEXT_LIMIT d k) = s.rd (WORK_CTR_NEXT_LIMIT d k) :=
        State.rd_wr_other _ _ _ _ fle (fun _ => .inr fle)
      have h3 : (s.wr (WORK_CTR_NEXT_NEXT d k) (s.rd (WORK_CTR_NEXT_NEXT d k) + 1)).rd (WORK_CTR_NEXT_NEXT d k) = s.rd (WORK_CTR_NEXT_NEXT d k) + 1 := by
        rw [State.rd_wr_same _ _ _ fle, Nat.mod_eq_of_lt]
        have := s.rd_lt (WORK_CTR_NEXT_LIMIT d k)
        exact Nat.lt_of_le_of_lt hn this
      rw [State.tilesLeft, State.tilesLeft, hr, h1, h2, h3]
      simp only [List.nil_append]
      rw [show s.rd (WORK_CTR_NEXT_LIMIT d k) - s.rd (WORK_CTR_NEXT_NEXT d k) =
        (s.rd (WORK_CTR_NEXT_LIMIT d k) - (s.rd (WORK_CTR_NEXT_NEXT d k) + 1)) + 1 by omega, List.range'_succ]
    · refine .inl ⟨by dsimp only; rw [if_neg hn], ?_⟩
      rw [State.tilesLeft, hr, show s.rd (WORK_CTR_NEXT_LIMIT d k) - s.rd (WORK_CTR_NEXT_NEXT d k) = 0 by omega]
      rfl

theorem min_add_min (a n m : Nat) : min (min (a + 1) m + n) m = min (a + (n + 1)) m := by omega

/-- The operation at a counter (R367): it gives the first tile left that it does not skip, every tile before it is taken and counted as skipped and done, and nothing
else but the counter and the regions credited changes. -/
theorem State.counterTake_spec (s : State) (d k : Nat) (e : WorkEntry) (runlen fuel : Nat) (hf : (s.tilesLeft d k).length < fuel) :
    let r := s.counterTake d k e runlen fuel
    let past := (s.tilesLeft d k).takeWhile (s.skips d k runlen)
    let ahead := (s.tilesLeft d k).dropWhile (s.skips d k runlen)
    r.2 = ahead.head? ∧ r.1.tilesLeft d k = ahead.tail ∧
      r.1.rd (WORK_CTR_TAKES_TAKES d k) = (s.rd (WORK_CTR_TAKES_TAKES d k) + past.length + ahead.head?.toList.length) % 281474976710656 ∧
      r.1.rd (WORK_CTR_SKIP_SKIPPED d k) = min (s.rd (WORK_CTR_SKIP_SKIPPED d k) + past.length) 4294967295 ∧
      r.1.rd (WORK_CTR_FRAME_DONE d k) = min (s.rd (WORK_CTR_FRAME_DONE d k) + past.length) 4294967295 ∧ OnlyCounter d k s r.1 := by
  induction fuel generalizing s with
  | zero => omega
  | succ fuel ih =>
    have l1 : s.rd (WORK_CTR_TAKES_TAKES d k) < 281474976710656 := s.rd_lt _
    have l2 : s.rd (WORK_CTR_SKIP_SKIPPED d k) < 4294967296 := s.rd_lt _
    have l3 : s.rd (WORK_CTR_FRAME_DONE d k) < 4294967296 := s.rd_lt _
    rw [State.counterTake]
    rcases s.counterPick_spec d k with ⟨h1, h2⟩ | ⟨u, t, h1, h2, h3, h4⟩
    · rw [h1, h2]
      simp only [List.takeWhile_nil, List.dropWhile_nil, List.head?_nil, List.tail_nil, List.length_nil, Option.toList_none, Nat.add_zero]
      refine ⟨trivial, h2, ?_, ?_, ?_, OnlyCounter.refl ..⟩
      · rw [Nat.mod_eq_of_lt l1]
      · exact (Nat.min_eq_left (Nat.le_sub_one_of_lt l2)).symm
      · exact (Nat.min_eq_left (Nat.le_sub_one_of_lt l3)).symm
    · rw [h1, h2]
      rw [h2] at hf
      dsimp only
      have hacc : OnlyCounter d k s (u.accum (WORK_CTR_TAKES_TAKES d k) 1) := h3.wr _ _ (.inr (.inl rfl))
      have hword : ∀ r, r ≠ .WORK_CTR_TAKES d k → (u.accum (WORK_CTR_TAKES_TAKES d k) 1).word r = u.word r := fun r hr => State.word_wr_ne _ _ (Ne.symm hr)
      have htk : (u.accum (WORK_CTR_TAKES_TAKES d k) 1).rd (WORK_CTR_TAKES_TAKES d k) = (s.rd (WORK_CTR_TAKES_TAKES d k) + 1) % 281474976710656 := by
        rw [State.accum, State.rd_wr_same _ _ _ fle, State.rd_congr (s := s) (t := u) (h4 _ (by nofun))]; rfl
      have hleft : (u.accum (WORK_CTR_TAKES_TAKES d k) 1).tilesLeft d k = u.tilesLeft d k := by
        simp only [State.tilesLeft, State.rd, hword _ (show (WORK_CTR_NEXT_NEXT d k).reg ≠ _ from nofun), hword _ (show (WORK_CTR_NEXT_LIMIT d k).reg ≠ _ from nofun)]
        rfl
      generalize u.accum (WORK_CTR_TAKES_TAKES d k) 1 = v at hacc htk hleft hword ⊢
      have hvw : ∀ r, r ≠ .WORK_CTR_NEXT d k → r ≠ .WORK_CTR_TAKES d k → v.word r = s.word r := fun r h5 h6 => (hword r h6).trans (h4 r h5)
      by_cases hs : s.skips d k runlen t = true
      · rw [if_pos hs]
        simp only [List.takeWhile_cons, List.dropWhile_cons, hs, if_true]
        generalize hw : ((v.count (WORK_CTR_FRAME_DONE d k) 1).count (WORK_CTR_SKIP_SKIPPED d k) 1).credit e = w
        have hwo : OnlyCounter d k s w := by
          rw [← hw]
          exact ((hacc.wr _ _ (.inr (.inr (.inl rfl)))).wr _ _ (.inr (.inr (.inr rfl)))).credit e
        have hwr : ∀ r, w.word r = ((v.count (WORK_CTR_FRAME_DONE d k) 1).count (WORK_CTR_SKIP_SKIPPED d k) 1).word r := fun g => by
          rw [← hw, State.credit_regions]; rfl
        have hwn : ∀ r, r ≠ .WORK_CTR_FRAME d k → r ≠ .WORK_CTR_SKIP d k → w.word r = v.word r := fun r g1 g2 => by
          rw [hwr, State.word_count_ne _ _ (Ne.symm g2), State.word_count_ne _ _ (Ne.symm g1)]
        have hwl : w.rlist d k = v.rlist d k := by
          rw [← hw, State.credit_regions]; rfl
        have hsk : w.skips d k runlen = s.skips d k runlen := by
          funext x
          have e1 : w.rd (WORK_CTR_CFG_MT d k) = s.rd (WORK_CTR_CFG_MT d k) := State.rd_congr (hwo.regs _ (by nofun) (by nofun) (by nofun) (by nofun))
          have e2 : w.rd (WORK_CTR_CFG_TROWS d k) = s.rd (WORK_CTR_CFG_TROWS d k) := State.rd_congr (hwo.regs _ (by nofun) (by nofun) (by nofun) (by nofun))
          simp only [State.skips, e1, e2]
        have hlw : w.tilesLeft d k = u.tilesLeft d k := by
          have e1 : w.rd (WORK_CTR_NEXT_NEXT d k) = v.rd (WORK_CTR_NEXT_NEXT d k) := State.rd_congr (hwn _ (by nofun) (by nofun))
          have e2 : w.rd (WORK_CTR_NEXT_LIMIT d k) = v.rd (WORK_CTR_NEXT_LIMIT d k) := State.rd_congr (hwn _ (by nofun) (by nofun))
          rw [← hleft]
          simp only [State.tilesLeft, hwl, e1, e2]
        have hd : w.rd (WORK_CTR_FRAME_DONE d k) = min (s.rd (WORK_CTR_FRAME_DONE d k) + 1) 4294967295 := by
          have e1 : w.rd (WORK_CTR_FRAME_DONE d k) = (v.count (WORK_CTR_FRAME_DONE d k) 1).rd (WORK_CTR_FRAME_DONE d k) :=
            State.rd_congr ((hwr _).trans (State.word_count_ne _ _ (by nofun)))
          rw [e1, State.rd_count_same _ _ _ fle, State.rd_congr (s := s) (t := v) (hvw _ (by nofun) (by nofun))]; rfl
        have hk : w.rd (WORK_CTR_SKIP_SKIPPED d k) = min (s.rd (WORK_CTR_SKIP_SKIPPED d k) + 1) 4294967295 := by
          have e1 : w.rd (WORK_CTR_SKIP_SKIPPED d k) = ((v.count (WORK_CTR_FRAME_DONE d k) 1).count (WORK_CTR_SKIP_SKIPPED d k) 1).rd (WORK_CTR_SKIP_SKIPPED d k) :=
            State.rd_congr (hwr _)
          have e2 : (v.count (WORK_CTR_FRAME_DONE d k) 1).rd (WORK_CTR_SKIP_SKIPPED d k) = s.rd (WORK_CTR_SKIP_SKIPPED d k) :=
            State.rd_congr ((State.word_count_ne _ _ (by nofun)).trans (hvw _ (by nofun) (by nofun)))
          rw [e1, State.rd_count_same _ _ _ fle, e2]; rfl
        have ht : w.rd (WORK_CTR_TAKES_TAKES d k) = (s.rd (WORK_CTR_TAKES_TAKES d k) + 1) % 281474976710656 :=
          (State.rd_congr (hwn _ (by nofun) (by nofun))).trans htk
        obtain ⟨i1, i2, i3, i4, i5, i6⟩ := ih w (by rw [hlw]; simpa using hf)
        rw [hlw, hsk] at i1 i2 i3 i4 i5
        refine ⟨i1, i2, ?_, ?_, ?_, hwo.trans i6⟩
        · rw [i3, ht]
          simp only [List.length_cons]
          omega
        · rw [i4, hk, List.length_cons, min_add_min]
        · rw [i5, hd, List.length_cons, min_add_min]
      · rw [if_neg hs]
        simp only [List.takeWhile_cons, List.dropWhile_cons, hs, Bool.false_eq_true, if_false, List.head?_cons, List.tail_cons, List.length_nil, Option.toList_some,
          List.length_singleton, Nat.add_zero]
        refine ⟨trivial, hleft, htk, ?_, ?_, hacc⟩
        · rw [State.rd_congr (s := s) (t := v) (hvw _ (by nofun) (by nofun))]
          exact (Nat.min_eq_left (Nat.le_sub_one_of_lt l2)).symm
        · rw [State.rd_congr (s := s) (t := v) (hvw _ (by nofun) (by nofun))]
          exact (Nat.min_eq_left (Nat.le_sub_one_of_lt l3)).symm

/-- An operation at a counter takes no lease of a region. -/
theorem State.counterTake_taken (s : State) (d k : Nat) (e : WorkEntry) (runlen fuel r : Nat) :
    ((s.counterTake d k e runlen fuel).1.region r).taken = (s.region r).taken := by
  have hc : ∀ (l : List Nat) (s : State), ((l.foldl (fun s r => s.modRegion r (fun x => { x with done := x.done + 1 })) s).region r).taken = (s.region r).taken := by
    intro l
    induction l with
    | nil => exact fun _ => rfl
    | cons x l ih =>
      intro s
      rw [List.foldl_cons, ih]
      by_cases h : x = r
      · subst h; simp only [State.region, State.modRegion, tabGet_tabSet_same]
      · simp only [State.region, State.modRegion, tabGet_tabSet_ne _ _ _ h]
  induction fuel generalizing s with
  | zero => rfl
  | succ fuel ih =>
    rw [State.counterTake]
    cases hp : s.counterPick d k with
    | none => rfl
    | some p =>
      obtain ⟨u, t⟩ := p
      have hu : u.region r = s.region r := by
        unfold State.counterPick at hp
        split at hp
        · cases hp; rfl
        · dsimp only at hp; split at hp
          · cases hp; rfl
          · cases hp
      dsimp only
      split
      · rw [ih, State.credit, hc]; exact congrArg Region.taken hu
      · exact congrArg Region.taken hu

theorem State.takenFor_taken (s : State) (e : WorkEntry) (r : Nat) : ((s.takenFor e).region r).taken = ((s.region r).taken || e.regions.contains r) := by
  unfold State.takenFor
  generalize e.regions = l
  induction l generalizing s with
  | nil => simp
  | cons x l ih =>
    rw [List.foldl_cons, ih, List.contains_cons]
    by_cases h : x = r
    · subst h; simp [State.region, State.modRegion]
    · have : (r == x) = false := beq_eq_false_iff_ne.2 (Ne.symm h)
      simp only [State.region, State.modRegion, tabGet_tabSet_ne _ _ _ h, this, Bool.false_or]

end Sys2Proof.Machine
end

