-- ==== Sys2Proof/Laws/Memory.lean ====
section
/-! SUPPORT. Reading a byte after a write of bytes, and where a sequencer's accesses reach. -/

namespace Sys2Proof.Machine

/-- Taking a range out of the unspecified ranges leaves the rest as it was. -/
theorem undefAt_undefCut (u : List (Nat × Nat × Nat)) {lo hi : Nat} (x : Nat) (_ : lo ≤ hi) :
    undefAt (undefCut u lo hi) x = if lo ≤ x ∧ x < hi then none else undefAt u x := by
  have app : ∀ (p q : List (Nat × Nat × Nat)), undefAt (p ++ q) x = match undefAt p x with
      | some n => some n
      | none => undefAt q x := by
    intro p q
    induction p with
    | nil => rfl
    | cons e r ih =>
      obtain ⟨a, b, n⟩ := e
      simp only [List.cons_append, undefAt]
      by_cases hx : a ≤ x ∧ x < b
      · rw [if_pos hx, if_pos hx]
      · rw [if_neg hx, if_neg hx, ih]
  induction u with
  | nil => simp [undefCut, undefAt]
  | cons e r ih =>
    obtain ⟨a, b, n⟩ := e
    simp only [undefCut]
    by_cases h1 : hi ≤ a ∨ b ≤ lo
    · rw [if_pos h1]
      simp only [undefAt]
      by_cases hx : a ≤ x ∧ x < b
      · rw [if_pos hx, if_neg (by omega), if_pos hx]
      · rw [if_neg hx, ih]
        simp only [hx, if_false]
    · rw [if_neg h1, app, app, ih]
      simp only [undefAt]
      by_cases hx : lo ≤ x ∧ x < hi
      · have e1 : undefAt (if a < lo then [(a, lo, n)] else []) x = none := by
          split
          · simp only [undefAt]; rw [if_neg (by omega)]
          · rfl
        have e2 : undefAt (if hi < b then [(hi, b, n + (hi - a))] else []) x = none := by
          split
          · simp only [undefAt]; rw [if_neg (by omega)]
          · rfl
        simp only [e1, e2, hx, and_self, if_true]
      · simp only [hx, if_false]
        by_cases hy : a ≤ x ∧ x < b
        · simp only [hy, and_self, if_true]
          by_cases hl : x < lo
          · rw [if_pos (by omega)]; simp only [undefAt, show a ≤ x ∧ x < lo from ⟨hy.1, hl⟩, and_self, if_true]
          · have e1 : undefAt (if a < lo then [(a, lo, n)] else []) x = none := by
              split
              · simp only [undefAt]; rw [if_neg (by omega)]
              · rfl
            have : hi ≤ x := by omega
            rw [e1, if_pos (show hi < b by omega)]
            simp only [undefAt, show hi ≤ x ∧ x < b from ⟨this, hy.2⟩, and_self, if_true]
            congr 1; omega
        · have e1 : undefAt (if a < lo then [(a, lo, n)] else []) x = none := by
            split
            · simp only [undefAt]; rw [if_neg (by omega)]
            · rfl
          have e2 : undefAt (if hi < b then [(hi, b, n + (hi - a))] else []) x = none := by
            split
            · simp only [undefAt]; rw [if_neg (by omega)]
            · rfl
          simp only [e1, e2, hy, if_false]

@[simp] theorem State.place_setByte (s : State) (a : Nat) (b : Byte) (x : Nat) : (s.setByte a b).place x = s.place x := rfl

/-- A byte after a write of one byte: that byte, where the two addresses stand in one place. -/
theorem State.byteAt_setByte (s : State) (a : Nat) (b : Byte) (x : Nat) :
    (s.setByte a b).byteAt x = if s.place x = s.place a then b else s.byteAt x := by
  rw [State.byteAt, State.place_setByte]
  simp only [State.setByte]
  rw [undefAt_undefCut _ _ (Nat.le_succ _), cellRead_cellWrite]
  by_cases hx : s.place x = s.place a
  · rw [if_pos (by omega), if_pos hx.symm, if_pos hx]
  · rw [if_neg (by omega), if_neg (fun e => hx e.symm), if_neg hx]
    rfl

theorem State.wf_setByte {s : State} (a : Nat) (b : Byte) (hw : Memory.wf 0 s.mem = true) : Memory.wf 0 (s.setByte a b).mem = true :=
  wf_cellWrite _ _ hw

/-- An address of a scratchpad, accumulators or a control core's local memory (R27): no access to it is redirected (R407). -/
def seqSpace (a : Nat) : Prop := 0x010000000000 ≤ a ∧ 0x40000000 ≤ a % 0x100000000 ∧ a % 0x100000000 < 0x80400000

/-- A redirection leads into a retirement store. -/
theorem State.retiredTo_store {s : State} {g l : Nat} (h : s.retiredTo g = some l) :
    retirable g = true ∧ ∃ d k, k < 256 ∧ l = sramBase d + 0x90500000 + k * 256 := by
  unfold State.retiredTo at h
  obtain ⟨e, he, hv⟩ := List.exists_of_findSome?_eq_some h
  cases hr : e.1 with
  | RETIRE d k =>
    rw [hr] at hv
    dsimp only at hv
    split at hv
    · rename_i hc
      exact ⟨hc.2.2.1, d, k, hc.2.2.2, (Option.some.inj hv).symm⟩
    · cases hv
  | _ => rw [hr] at hv; cases hv

/-- Where an address of sequencer memory stands, and that no other address stands there. -/
theorem State.place_seqSpace (s : State) {a : Nat} (h : seqSpace a) : s.place a = a := by
  obtain ⟨h1, h2, h3⟩ := h
  unfold State.place
  split
  · rename_i l hl
    have := (State.retiredTo_store hl).1
    simp only [retirable, Bool.or_eq_true, decide_eq_true_eq] at this
    omega
  · rfl

theorem State.place_inv (s : State) {a x : Nat} (h : seqSpace a) : s.place x = a ↔ x = a := by
  refine ⟨fun hx => ?_, fun hx => by rw [hx]; exact s.place_seqSpace h⟩
  unfold State.place at hx
  split at hx
  · rename_i l hl
    obtain ⟨-, d, k, hk, rfl⟩ := State.retiredTo_store hl
    obtain ⟨h1, h2, h3⟩ := h
    simp only [sramBase] at hx
    omega
  · exact hx

/-- The bytes after a write into sequencer memory. -/
theorem State.byteAt_setBytes (s : State) (a : Nat) (bs : List Byte) (x : Nat)
    (h : ∀ i, i < bs.length → seqSpace (a + i)) :
    (s.setBytes a bs).byteAt x = if a ≤ x ∧ x < a + bs.length then bs.getD (x - a) 0 else s.byteAt x := by
  induction bs generalizing s a with
  | nil => rw [if_neg (by simp only [List.length_nil]; omega)]; rfl
  | cons b r ih =>
    have h0 := h 0 (by simp)
    rw [Nat.add_zero] at h0
    rw [State.setBytes, ih _ _ (fun i hi => by
      have := h (i + 1) (by simpa using hi)
      rwa [show a + (i + 1) = a + 1 + i by omega] at this)]
    simp only [List.length_cons]
    by_cases h1 : a + 1 ≤ x ∧ x < a + 1 + r.length
    · rw [if_pos h1, if_pos (by omega), show x - a = (x - (a + 1)) + 1 by omega, List.getD_cons_succ]
    · rw [if_neg h1, State.byteAt_setByte, s.place_seqSpace h0]
      by_cases h2 : x = a
      · rw [if_pos ((s.place_inv h0).2 h2), if_pos (by omega), h2, Nat.sub_self, List.getD_cons_zero]
      · rw [if_neg (fun e => h2 ((s.place_inv h0).1 e)), if_neg (by omega)]

/-- The bytes that a sequencer's access reaches are of its own memory. -/
theorem State.seqResolve_space {s : State} {d q w n a : Nat} {ea : Int} {p : Perm} (hq : s.seqExists d q = true)
    (h : s.seqResolve d q w ea n p = some a) : ∀ i, i < n → seqSpace (a + i) := by
  intro i hi
  have hn : s.nCores ≤ 96 := by unfold State.nCores; split <;> omega
  simp only [State.seqExists, Bool.and_eq_true, Bool.or_eq_true, decide_eq_true_eq] at hq
  unfold State.seqResolve at h
  split at h
  · split at h
    · cases h
    · rename_i hc hx
      simp only [isCtl, decide_eq_true_eq] at hc
      obtain rfl := Option.some.inj h
      unfold seqSpace ctlAddr sramBase
      omega
  · rename_i hc
    simp only [isCtl, decide_eq_true_eq] at hc
    obtain ⟨o, ho, rfl⟩ := Option.map_eq_some_iff.1 h
    have : o + n ≤ 0xD0000 := by
      unfold State.window at ho
      dsimp only at ho
      split at ho
      · cases ho
      · split at ho
        · cases ho
        · split at ho
          · cases ho
          · obtain rfl := Option.some.inj ho
            omega
    unfold seqSpace coreAddr sramBase
    omega

/-- Writing bytes touches memory and its unspecified ranges alone. -/
theorem State.setBytes_rest (s : State) (a : Nat) (bs : List Byte) :
    s.setBytes a bs = { s with mem := (s.setBytes a bs).mem, undef := (s.setBytes a bs).undef } := by
  induction bs generalizing s a with
  | nil => rfl
  | cons b r ih => rw [State.setBytes, ih]; rfl

/-- A byte of the number that little-endian bytes spell. -/
theorem extract_leNat (bs : List Byte) (i : Nat) (hl : bs.length ≤ 8) (_ : i < 8) : (BitVec.ofNat 64 (leNat bs)).extractLsb' (8 * i) 8 = bs.getD i 0 := by
  have key : ∀ (bs : List Byte) i, leNat bs / 2 ^ (8 * i) % 256 = (bs.getD i 0).toNat := by
    intro bs
    induction bs with
    | nil => intro i; simp [leNat]
    | cons b r ih =>
      intro i
      cases i with
      | zero => simp [leNat]; omega
      | succ i =>
        rw [List.getD_cons_succ, ← ih i]
        have := b.isLt
        rw [show 8 * (i + 1) = 8 + 8 * i by omega, Nat.pow_add, ← Nat.div_div_eq_div_mul]
        congr 2
        simp only [leNat]; omega
  have lt : leNat bs < 2 ^ (8 * bs.length) := by
    clear hl
    induction bs with
    | nil => simp [leNat]
    | cons b r ih =>
      have := b.isLt
      simp only [leNat, List.length_cons]
      rw [show 8 * (r.length + 1) = 8 + 8 * r.length by omega, Nat.pow_add]; omega
  have : leNat bs < 2 ^ 64 := lt_of_lt_of_le lt (Nat.pow_le_pow_right (by decide) (by omega))
  apply BitVec.eq_of_toNat_eq
  rw [BitVec.extractLsb'_toNat, BitVec.toNat_ofNat, Nat.mod_eq_of_lt this, Nat.shiftRight_eq_div_pow]
  exact key bs i

@[simp] theorem State.length_bytesAt (s : State) (a n : Nat) : (s.bytesAt a n).length = n := by
  induction n generalizing a with
  | zero => rfl
  | succ n ih => simp [State.bytesAt, ih]

theorem State.getD_bytesAt (s : State) (a n i : Nat) : (s.bytesAt a n).getD i 0 = if i < n then s.byteAt (a + i) else 0 := by
  induction n generalizing a i with
  | zero => simp [State.bytesAt]
  | succ n ih =>
    cases i with
    | zero => simp [State.bytesAt]
    | succ i => 
      rw [State.bytesAt, List.getD_cons_succ, ih]
      simp only [Nat.add_lt_add_iff_right, show a + 1 + i = a + (i + 1) by omega]

/-- A byte of a number's little-endian bytes. -/
theorem getD_leBytes (n v i : Nat) (h : i < n) : (leBytes n v).getD i 0 = BitVec.ofNat 8 (v >>> (8 * i)) := by
  induction n generalizing v i with
  | zero => omega
  | succ n ih =>
    cases i with
    | zero => simp [leBytes]
    | succ i => rw [leBytes, List.getD_cons_succ, ih _ _ (by omega), ← Nat.shiftRight_add]; congr 2; omega

@[simp] theorem length_leBytes (n v : Nat) : (leBytes n v).length = n := by
  induction n generalizing v with
  | zero => rfl
  | succ n ih => simp [leBytes, ih]

/-- The three outcomes of an effective address (R113). -/
theorem State.lsAddr_ok {s : State} {d q n a : Nat} {m : FmtM} {p : Perm} (h : s.seqResolve d q m.win.toNat (s.effAddr d q m) n p = some a)
    (hm : s.effAddr d q m % n = 0) : s.lsAddr d q m n p = .ok a := by
  simp only [State.lsAddr, h, hm, if_true]

theorem State.lsAddr_window {s : State} {d q n : Nat} {m : FmtM} {p : Perm} (h : s.seqResolve d q m.win.toNat (s.effAddr d q m) n p = none) :
    s.lsAddr d q m n p = .error (.fault 67 [(1, m.win.toNat), (6, off48 (s.effAddr d q m))]) := by
  simp only [State.lsAddr, h]

theorem State.lsAddr_misaligned {s : State} {d q n a : Nat} {m : FmtM} {p : Perm}
    (h : s.seqResolve d q m.win.toNat (s.effAddr d q m) n p = some a) (hm : s.effAddr d q m % n ≠ 0) :
    s.lsAddr d q m n p = .error (.fault 66 [(6, off48 (s.effAddr d q m))]) := by
  simp only [State.lsAddr, h, hm, if_false]

end Sys2Proof.Machine
end

