-- ==== Sys2Proof/Laws/Pass.lean ====
section
/-! SUPPORT. What passing cycles changes. -/

namespace Sys2Proof.Machine

/-- The registers that count what happens while cycles pass. -/
def RegId.whilePassing : RegId → Bool
  | .EVQ_STATUS _ => true
  | .MEM_TAGS _ => true
  | .DRAY_CH_MISS _ _ => true
  | .ARB_STAT _ _ => true
  | _ => false

/-- What the passing of cycles changes beside the cycle count and team time. -/
structure Waited (s t : State) : Prop where
  rest : t = { s with regs := t.regs, dies := t.dies }
  dies : ∀ d, t.die d = { s.die d with reqs := (t.die d).reqs, arbs := (t.die d).arbs }
  regs : ∀ r, r.whilePassing = false → t.word r = s.word r
  place : ∀ a, t.place a = s.place a

theorem Waited.refl (s : State) : Waited s s := ⟨rfl, fun _ => rfl, fun _ _ => rfl, fun _ => rfl⟩

theorem Waited.trans {s t u : State} (h : Waited s t) (g : Waited t u) : Waited s u :=
  ⟨by rw [g.rest, h.rest], fun d => by rw [g.dies, h.dies], fun r h1 => (g.regs r h1).trans (h.regs r h1), fun a => (g.place a).trans (h.place a)⟩

theorem Waited.foldl {α : Type} (g : State → α → State) (l : List α) (h : ∀ s x, Waited s (g s x)) : ∀ s, Waited s (l.foldl g s) := by
  induction l with
  | nil => exact Waited.refl
  | cons x l ih => exact fun s => (h s x).trans (ih _)

theorem State.count_waited (t : State) (f : FRef) (n : Nat) (hf : f.reg.whilePassing = true) : Waited t (t.count f n) := by
  have hp : f.reg.plain = true := by
    revert hf
    cases f.reg <;> first | exact fun _ => rfl | exact fun h => absurd h Bool.false_ne_true
  exact ⟨rfl, fun _ => rfl, fun r h1 => State.word_count_ne _ _ (by rintro rfl; rw [h1] at hf; cases hf), fun a => State.place_setWord _ hp _ _⟩

/-- A change of a die's requests and arbiters alone. -/
theorem State.modDie_waited (t : State) (d : Nat) (g : Die → Die) (hg : ∀ x, g x = { x with reqs := (g x).reqs, arbs := (g x).arbs }) :
    Waited t (t.modDie d g) := by
  refine ⟨rfl, fun e => ?_, fun _ _ => rfl, fun _ => rfl⟩
  simp only [State.die, State.modDie, tabGet_tabSet]
  split
  · subst_vars
    exact hg _
  · rfl

theorem State.waited_waited (s : State) (d n : Nat) : Waited s (s.waited d n) := by
  unfold State.waited
  dsimp only
  have h1 : ∀ t : State, Waited s t → Waited s ((t.channels d).foldl
      (fun s c => if (s.chan d c).recordDue then s.count (DRAY_CH_MISS_QSTALL d c) n else s) t) := by
    intro t ht
    refine ht.trans (Waited.foldl _ _ (fun x c => ?_) t)
    split
    · exact State.count_waited _ _ _ rfl
    · exact .refl _
  have c1 : ∀ t : State, Waited t (t.count (EVQ_STATUS_FULL_CYC d) n) := fun t => t.count_waited _ _ rfl
  have c2 : ∀ t : State, Waited t (t.count (MEM_TAGS_FULL d) n) := fun t => t.count_waited _ _ rfl
  split <;> split
  · exact h1 _ (c2 _)
  · exact h1 _ (.refl _)
  · exact h1 _ ((c1 _).trans (c2 _))
  · exact h1 _ (c1 _)

/-- A cycle of an arbiter changes requests, its own state and the counts of ARB_STAT (R349 to R355). -/
theorem State.arbCycle_waited (s : State) (d g : Nat) (cycle : Int) : Waited s (s.arbCycle d g cycle) := by
  have hc : ∀ (t : State) (f : FRef) (p : Prop) [Decidable p], f.reg.whilePassing = true → Waited t (if p then t.count f 1 else t) := fun t f p _ hf => by
    split
    · exact t.count_waited _ _ hf
    · exact .refl _
  unfold State.arbCycle
  dsimp only
  refine Waited.trans (Waited.trans ?_ (hc _ _ _ rfl)) (State.modDie_waited _ _ _ fun _ => rfl)
  split
  · exact .refl _
  · split
    · exact State.modDie_waited _ _ _ fun _ => rfl
    · exact State.count_waited _ _ _ rfl

theorem State.arbiters_waited (s : State) (d : Nat) (cycle : Int) (n : Nat) : Waited s (s.arbiters d cycle n) := by
  have h1 : ∀ (k : Nat) (s : State) (g : Nat) (cycle : Int), Waited s (s.arbRun d g cycle k) := by
    intro k
    induction k with
    | zero => exact fun s _ _ => .refl s
    | succ k ih =>
      intro s g cycle
      unfold State.arbRun
      split
      · exact .refl s
      · exact (s.arbCycle_waited d g _).trans (ih _ _ _)
  exact Waited.foldl _ _ (fun _ _ => h1 _ _ _ _) s

theorem State.passTo_passes (s : State) (n : Nat) : Passes n s (s.passTo n) ∧ ∀ a, (s.passTo n).place a = s.place a := by
  unfold State.passTo State.cycles
  split
  · rename_i h
    exact ⟨⟨rfl, fun _ => rfl, by omega, by simp [h], fun _ _ _ _ _ => rfl, fun _ => rfl⟩, fun _ => rfl⟩
  · dsimp only
    generalize hs1 : ({ s with frame := { s.frame with cycle := s.frame.cycle + (n - s.frame.cycle), teamTime := s.frame.teamTime + BitVec.ofNat 64 (n - s.frame.cycle) } } : State) = s1
    have h1 := Waited.foldl (fun (t : State) d => (t.waited d (n - s.frame.cycle)).arbiters d s.frame.cycle (n - s.frame.cycle)) s1.dieList
      (fun x d => (x.waited_waited d _).trans (State.arbiters_waited _ _ _ _)) s1
    generalize s1.dieList.foldl (fun t d => (t.waited d (n - s.frame.cycle)).arbiters d s.frame.cycle (n - s.frame.cycle)) s1 = t at h1
    have hp : ∀ a, t.place a = s.place a := fun a => (h1.place a).trans (by rw [← hs1]; rfl)
    refine ⟨⟨?_, fun d => ?_, ?_, ?_, fun r a b c e => ?_, fun a => ?_⟩, hp⟩
    · rw [h1.rest, ← hs1]
    · rw [h1.dies, ← hs1]; rfl
    · rw [h1.rest, ← hs1]; dsimp only; omega
    · rw [h1.rest, ← hs1]
    · have hr : r.whilePassing = false := by
        cases r <;> first | rfl | exact absurd rfl (a _) | exact absurd rfl (b _) | exact absurd rfl (c _ _) | exact absurd rfl (e _ _)
      rw [h1.regs r hr, ← hs1]; rfl
    · rw [State.byteAt, hp, h1.rest, ← hs1]; rfl

/-- A register that no count of waiting cycles is in stands. -/
theorem Passes.word {n : Nat} {s t : State} (h : Passes n s t) (r : RegId) (hr : r.whilePassing = false) : t.word r = s.word r :=
  h.regs r (by rintro e rfl; cases hr) (by rintro e rfl; cases hr) (by rintro e m rfl; cases hr) (by rintro e m rfl; cases hr)

end Sys2Proof.Machine
end

