-- ==== Sys2Proof/Laws/Reg.lean ====
section
/-! SUPPORT. What register accesses do: that one that is reached acts, how the fields of a table lie in their word, and what a write of each latch class leaves. -/

namespace Sys2Proof.Machine

/-- An access that is reached acts. -/
theorem State.access_reached {s : State} {src : Src} {a : Nat} (h : Reached s src a) (c : Instr) (act : State → State) : s.access src a c act = act s := by
  unfold State.access
  by_cases hs : src = .smbus
  · subst hs
    rw [if_pos rfl, if_pos ⟨(h.smbus rfl).1, (h.smbus rfl).2, h.there⟩]
  · rw [if_neg hs, if_neg (by simp [h.entry hs]), if_neg, if_pos ⟨h.there, h.home hs⟩]
    rintro ⟨h1, h2, h3⟩
    exact absurd (h.held h1 h2) (Nat.not_lt.2 h3)

/-- Two fields of a word that share no bit. -/
def FSpec.apart (f g : FSpec) : Prop := f.lo + f.width ≤ g.lo ∨ g.lo + g.width ≤ f.lo

/-- The fields of every register lie in 64 bits and share none, and a latch code stands where a write acts. -/
def fieldsOk (l : List FSpec) : Bool :=
  match l with
  | [] => true
  | f :: t => decide (f.lo + f.width ≤ 64) && t.all (fun g => decide (f.lo + f.width ≤ g.lo) || decide (g.lo + g.width ≤ f.lo)) && fieldsOk t

theorem RegId.fieldsOk (r : RegId) : Machine.fieldsOk r.fields = true := by cases r <;> rfl

theorem fieldsOk_le {l : List FSpec} (h : fieldsOk l = true) {f : FSpec} (hf : f ∈ l) : f.lo + f.width ≤ 64 := by
  induction l with
  | nil => cases hf
  | cons g t ih =>
    simp only [fieldsOk, Bool.and_eq_true, decide_eq_true_eq] at h
    rcases List.mem_cons.1 hf with rfl | hf
    · exact h.1.1
    · exact ih h.2 hf

theorem fieldsOk_apart {l : List FSpec} (h : fieldsOk l = true) {f g : FSpec} (hf : f ∈ l) (hg : g ∈ l) : f = g ∨ f.apart g := by
  induction l with
  | nil => cases hf
  | cons x t ih =>
    simp only [fieldsOk, Bool.and_eq_true, decide_eq_true_eq, List.all_eq_true, Bool.or_eq_true] at h
    rcases List.mem_cons.1 hf with rfl | hf' <;> rcases List.mem_cons.1 hg with rfl | hg'
    · exact .inl rfl
    · exact .inr (h.1.2 g hg')
    · exact .inr ((h.1.2 f hf').symm)
    · exact ih h.2 hf' hg'

theorem RegId.width_le {r : RegId} {f : FSpec} (hf : f ∈ r.fields) : f.lo + f.width ≤ 64 := fieldsOk_le r.fieldsOk hf

/-- The value that a write gives a field (R12). -/
def FSpec.after (f : FSpec) (old new : Nat) : Nat :=
  match f.acc with
  | .rw => field new f.lo f.width
  | .wo => field new f.lo f.width
  | .w1c => field old f.lo f.width &&& (2 ^ f.width - 1 - field new f.lo f.width)
  | .ro => field old f.lo f.width
  | .rc => field old f.lo f.width

theorem field_mod (w lo width : Nat) : field w lo width % 2 ^ width = field w lo width := Nat.mod_eq_of_lt (Nat.mod_lt _ (Nat.pow_pos (by decide)))

theorem FSpec.field_write_same (f : FSpec) (old new : Nat) : field (f.write old new) f.lo f.width = f.after old new := by
  obtain ⟨lo, width, acc, rst, latch⟩ := f
  cases acc
  · simp only [FSpec.write, FSpec.after, field_putField_same, field_mod]
  · rfl
  · simp only [FSpec.write, FSpec.after, field_putField_same, field_mod]
  · simp only [FSpec.write, FSpec.after, field_putField_same]
    rw [Nat.mod_eq_of_lt]
    exact Nat.lt_of_le_of_lt Nat.and_le_left (Nat.mod_lt _ (Nat.pow_pos (by decide)))
  · rfl

theorem FSpec.field_write_apart {f g : FSpec} (h : f.apart g) (old new : Nat) : field (f.write old new) g.lo g.width = field old g.lo g.width := by
  have key : ∀ v, field (putField old f.lo f.width v) g.lo g.width = field old g.lo g.width := by
    intro v
    rcases h with h | h
    · exact field_putField_high h
    · exact field_putField_low h
  obtain ⟨lo, width, acc, rst, latch⟩ := f
  cases acc <;> first | rfl | exact key _

theorem FSpec.write_lt {f : FSpec} {old new : Nat} (hf : f.lo + f.width ≤ 64) (ho : old < 2 ^ 64) : f.write old new < 2 ^ 64 := by
  obtain ⟨lo, width, acc, rst, latch⟩ := f
  cases acc <;> first | exact ho | exact putField_lt ho hf

/-- A fold of writes over a list of fields apart leaves each field as its own write does, and the others as they were. -/
theorem field_foldl_write {l : List FSpec} (hl : Machine.fieldsOk l = true) (new : Nat) (p : FSpec → Bool) :
    ∀ old g, g ∈ l → field ((l.filter p).foldl (fun w f => f.write w new) old) g.lo g.width =
      if p g = true then g.after old new else field old g.lo g.width := by
  induction l with
  | nil => intro _ _ h; cases h
  | cons f t ih =>
    intro old g hg
    have hl' := hl
    simp only [Machine.fieldsOk, Bool.and_eq_true, decide_eq_true_eq, List.all_eq_true, Bool.or_eq_true] at hl'
    have tail : ∀ x, (∀ h ∈ t, f.apart h) → field ((t.filter p).foldl (fun w f => f.write w new) x) f.lo f.width = field x f.lo f.width := by
      intro x hx
      clear ih hl hl' hg
      induction t generalizing x with
      | nil => rfl
      | cons h t ih2 =>
        simp only [List.filter_cons]
        have h2 := fun y => ih2 y (fun z hz => hx z (List.mem_cons_of_mem _ hz))
        split
        · rw [List.foldl_cons, h2, FSpec.field_write_apart]
          exact (hx h List.mem_cons_self).symm
        · exact h2 x
    rcases List.mem_cons.1 hg with rfl | hg'
    · simp only [List.filter_cons]
      split
      · rw [List.foldl_cons, tail _ hl'.1.2, FSpec.field_write_same]
      · exact tail _ hl'.1.2
    · have hap : f.apart g := hl'.1.2 g hg'
      simp only [List.filter_cons]
      by_cases hp : p f = true
      · rw [if_pos hp, List.foldl_cons, ih hl'.2 _ g hg']
        have e := FSpec.field_write_apart hap old new
        split
        · unfold FSpec.after; rw [e]
        · exact e
      · rw [if_neg hp, ih hl'.2 _ g hg']

theorem foldl_write_lt {l : List FSpec} (hl : ∀ f ∈ l, f.lo + f.width ≤ 64) {old new : Nat} (ho : old < 2 ^ 64) :
    l.foldl (fun w f => f.write w new) old < 2 ^ 64 := by
  induction l generalizing old with
  | nil => exact ho
  | cons f t ih => exact ih (fun g hg => hl g (List.mem_cons_of_mem _ hg)) (FSpec.write_lt (hl f List.mem_cons_self) ho)

theorem RegId.writeClass_lt (r : RegId) (cls : Latch) (w : Word) (new : Nat) : r.writeClass cls w.toNat new < 2 ^ 64 :=
  foldl_write_lt (fun _ hf => RegId.width_le (List.mem_filter.1 hf).1) w.isLt

/-- A field after a write of one latch class. -/
theorem State.rd_putClass (s : State) (r : RegId) (cls : Latch) (w : Word) {g : FSpec} (hg : g ∈ r.fields) :
    (s.putClass r cls w).rd (r.ref g) = if g.latch = cls then g.after (s.word r).toNat w.toNat else s.rd (r.ref g) := by
  simp only [State.rd, RegId.ref, State.putClass, State.word_setWord_same, BitVec.toNat_ofNat]
  rw [Nat.mod_eq_of_lt (r.writeClass_lt ..), RegId.writeClass, field_foldl_write r.fieldsOk _ _ _ g hg]
  simp only [decide_eq_true_eq]

/-- A write of a class changes a word exactly where it changes one of its fields. -/
theorem FSpec.write_self {f : FSpec} {old new : Nat} (h : f.after old new = field old f.lo f.width) : f.write old new = old := by
  have key : ∀ v, v = field old f.lo f.width → putField old f.lo f.width v = old := by
    rintro v rfl
    rw [putField_eq, field_mod]
    exact (field_split old f.lo f.width).symm
  obtain ⟨lo, width, acc, rst, latch⟩ := f
  cases acc <;> first | rfl | exact key _ h

theorem RegId.writeClass_self (r : RegId) (cls : Latch) (old new : Nat) :
    r.writeClass cls old new = old ↔ ∀ f ∈ r.fields, f.latch = cls → f.after old new = field old f.lo f.width := by
  constructor
  · intro h f hf hc
    have := field_foldl_write r.fieldsOk new (fun f => decide (f.latch = cls)) old f hf
    simp only [decide_eq_true_eq, hc, if_true] at this
    rw [RegId.writeClass] at h
    rw [h] at this
    exact this.symm
  · intro h
    unfold RegId.writeClass
    have : ∀ l : List FSpec, (∀ f ∈ l, f ∈ r.fields) → (l.filter (fun f => decide (f.latch = cls))).foldl (fun w f => f.write w new) old = old := by
      intro l
      induction l with
      | nil => intro _; rfl
      | cons f t ih =>
        intro hm
        have ht := ih (fun g hg => hm g (List.mem_cons_of_mem _ hg))
        simp only [List.filter_cons, decide_eq_true_eq]
        split
        · rename_i hc
          rw [List.foldl_cons, FSpec.write_self (h f (hm f List.mem_cons_self) hc)]
          exact ht
        · exact ht
    exact this _ (fun _ h => h)

/-- LEDGER_CTRL takes orders, and no values. -/
def RegId.takesOrders : RegId → Bool
  | .LEDGER_CTRL _ => true
  | _ => false

/-- Every L-class and every F-class field is RW, and every field that a write acts on has a class. -/
theorem RegId.classes (r : RegId) : r.fields.all (fun f => match f.acc, f.latch with
    | .rw, .i => true
    | .rw, .l => true
    | .rw, .f => true
    | .w1c, .i => true
    | .wo, .i => r.waits || r.takesOrders
    | .ro, .none => true
    | .rc, .none => true
    | _, _ => false) = true := by
  cases r <;> rfl

theorem RegId.class_of {r : RegId} {f : FSpec} (hf : f ∈ r.fields) : (match f.acc, f.latch with
    | .rw, .i => true
    | .rw, .l => true
    | .rw, .f => true
    | .w1c, .i => true
    | .wo, .i => r.waits || r.takesOrders
    | .ro, .none => true
    | .rc, .none => true
    | _, _ => false) = true := List.all_eq_true.1 r.classes f hf

/-- Fields of class L, and those of class F, are RW. -/
theorem RegId.rw_of_l {r : RegId} {f : FSpec} (hf : f ∈ r.fields) (h : f.latch = .l) : f.acc = .rw := by
  have := RegId.class_of hf
  obtain ⟨lo, width, acc, rst, latch⟩ := f
  cases h
  cases acc <;> first | rfl | cases this

/-- A field that a read clears, as one that a write of 0 clears. -/
def FSpec.cleared (f : FSpec) : FSpec := { f with acc := if f.acc = .rc then .rw else .ro }

theorem FSpec.cleared_rc {f : FSpec} (h : f.acc = .rc) : f.cleared = { f with acc := .rw } := by simp [FSpec.cleared, h]

theorem FSpec.cleared_acc {f : FSpec} (h : f.acc ≠ .rc) : f.cleared.acc = .ro := by simp [FSpec.cleared, h]

/-- A read clears the RC fields of the word, and no other. -/
theorem State.rd_rcClear (s : State) (r : RegId) {g : FSpec} (hg : g ∈ r.fields) :
    (s.rcClear r).rd (r.ref g) = if g.acc = .rc then 0 else s.rd (r.ref g) := by
  have e : ∀ w, (r.fields.filter (fun f => decide (f.acc = .rc))).foldl (fun w f => putField w f.lo f.width 0) w =
      ((r.fields.map FSpec.cleared).filter (fun f => decide (f.acc = .rw))).foldl (fun w f => f.write w 0) w := by
    generalize r.fields = l
    induction l with
    | nil => intro _; rfl
    | cons f t ih =>
      intro w
      simp only [List.filter_cons, List.map_cons]
      by_cases h : f.acc = .rc
      · rw [FSpec.cleared_rc h]
        simp only [h, decide_true, if_true, List.foldl_cons, ih]
        simp [FSpec.write, field]
      · simp only [h, FSpec.cleared_acc h]
        exact ih w
  have ok : Machine.fieldsOk (r.fields.map FSpec.cleared) = true := by
    have := r.fieldsOk
    revert this
    generalize r.fields = l
    induction l with
    | nil => intro _; rfl
    | cons f t ih =>
      intro h
      simp only [Machine.fieldsOk, Bool.and_eq_true, List.map_cons] at h ⊢
      refine ⟨⟨h.1.1, ?_⟩, ih h.2⟩
      rw [List.all_map]
      exact h.1.2
  have key := field_foldl_write ok 0 (fun f => decide (f.acc = .rw)) (s.word r).toNat _ (List.mem_map_of_mem hg)
  rw [← e] at key
  have zero : field 0 g.lo g.width = 0 := by simp [field]
  unfold State.rcClear
  dsimp only
  split
  · rename_i h
    rw [if_neg]
    intro hc
    have : g ∈ r.fields.filter (fun f => decide (f.acc = .rc)) := List.mem_filter.2 ⟨hg, by simp [hc]⟩
    rw [h] at this
    cases this
  · simp only [State.rd, RegId.ref, State.word_setWord_same, BitVec.toNat_ofNat]
    rw [Nat.mod_eq_of_lt]
    · refine key.trans ?_
      by_cases hc : g.acc = .rc <;> simp [hc, FSpec.cleared, FSpec.after, zero]
    · rw [e]
      exact foldl_write_lt (fun f hf => fieldsOk_le ok (List.mem_filter.1 hf).1) (s.word r).isLt

theorem State.word_rcClear (s : State) {r q : RegId} (h : q ≠ r) : (s.rcClear r).word q = s.word q := by
  unfold State.rcClear
  dsimp only
  split
  · rfl
  · exact State.word_setWord_ne _ _ (Ne.symm h)

theorem State.rcClear_rest (s : State) (r : RegId) : s.rcClear r = { s with regs := (s.rcClear r).regs } := by
  unfold State.rcClear
  dsimp only
  split <;> rfl

/-- The L-class fields would change exactly where a write of their class changes the word. -/
theorem State.changesL_iff (s : State) (r : RegId) (w : Word) :
    s.changesL r w = true ↔ r.writeClass .l (s.word r).toNat w.toNat ≠ (s.word r).toNat := by
  rw [ne_eq, RegId.writeClass_self, State.changesL, List.any_eq_true]
  constructor
  · rintro ⟨f, hf, h⟩ hall
    simp only [Bool.and_eq_true, decide_eq_true_eq] at h
    have := hall f hf h.1.1
    unfold FSpec.after at this
    rw [h.1.2] at this
    exact h.2 this
  · intro hall
    by_contra hn
    refine hall fun f hf hl => ?_
    have h2 := RegId.rw_of_l hf hl
    by_contra h3
    refine hn ⟨f, hf, ?_⟩
    simp only [Bool.and_eq_true, decide_eq_true_eq]
    refine ⟨⟨hl, h2⟩, fun h4 => h3 ?_⟩
    unfold FSpec.after
    rw [h2]
    exact h4

theorem testBit_field (x lo width i : Nat) : (field x lo width).testBit i = (decide (i < width) && x.testBit (lo + i)) := by
  simp only [field, Nat.shiftRight_eq_div_pow, Nat.testBit_mod_two_pow, Nat.testBit_div_two_pow]
  rw [Nat.add_comm]

theorem testBit_orFold (l : List FSpec) (i : Nat) : ∀ x : Nat,
    ((l.map (fun (f : FSpec) => (2 ^ f.width - 1) <<< f.lo)).foldl (· ||| ·) x).testBit i =
      (x.testBit i || l.any (fun (f : FSpec) => decide (f.lo ≤ i) && decide (i < f.lo + f.width))) := by
  induction l with
  | nil => intro x; simp
  | cons f t ih =>
    intro x
    simp only [List.map_cons, List.foldl_cons, List.any_cons]
    rw [ih, Nat.testBit_or, Nat.testBit_shiftLeft, Nat.testBit_two_pow_sub_one, Bool.or_assoc]
    congr 2
    by_cases h : f.lo ≤ i
    · simp only [ge_iff_le, h, decide_true, Bool.true_and, decide_eq_decide]; omega
    · simp [h]

/-- A field of class F that takes writes is covered by the mask of a write. -/
theorem RegId.classMask_field {r : RegId} {f : FSpec} (hf : f ∈ r.fields) (ha : f.acc = .rw) (hl : f.latch = .f) :
    field (BitVec.ofNat 64 (r.classMask .f)).toNat f.lo f.width = 2 ^ f.width - 1 := by
  apply Nat.eq_of_testBit_eq
  intro i
  rw [testBit_field, BitVec.toNat_ofNat, Nat.testBit_mod_two_pow, RegId.classMask, testBit_orFold, Nat.testBit_two_pow_sub_one]
  by_cases hi : i < f.width
  · have := RegId.width_le hf
    have h64 : f.lo + i < 64 := by omega
    simp only [hi, decide_true, Bool.true_and, h64, Nat.zero_testBit, Bool.false_or, List.any_eq_true]
    exact ⟨f, List.mem_filter.2 ⟨hf, by simp [ha, hl]⟩, by simp [hi]⟩
  · simp [hi]

/-- A pending write over an earlier one, field by field. -/
theorem PendW.over_field {p q : PendW} {lo width : Nat} (hm : field q.mask.toNat lo width = 2 ^ width - 1) :
    field (p.over q).mask.toNat lo width = 2 ^ width - 1 ∧ field (p.over q).val.toNat lo width = field q.val.toNat lo width := by
  have hb : ∀ i, i < width → q.mask.getLsbD (lo + i) = true := by
    intro i hi
    have := congrArg (fun x => x.testBit i) hm
    simp only [testBit_field, Nat.testBit_two_pow_sub_one, hi, decide_true, Bool.true_and] at this
    rw [BitVec.getLsbD, this]
  constructor <;> apply Nat.eq_of_testBit_eq <;> intro i
  · rw [testBit_field, Nat.testBit_two_pow_sub_one]
    by_cases hi : i < width
    · have h1 := hb i hi
      simp only [hi, decide_true, Bool.true_and, PendW.over, BitVec.testBit_toNat, BitVec.getLsbD_or, h1, Bool.or_true]
    · simp [hi]
  · rw [testBit_field, testBit_field]
    by_cases hi : i < width
    · have h1 := hb i hi
      simp only [hi, decide_true, Bool.true_and, PendW.over, BitVec.testBit_toNat, BitVec.getLsbD_or, BitVec.getLsbD_and, BitVec.getLsbD_not, h1,
        Bool.not_true, Bool.and_false, Bool.false_or, Bool.and_true]
    · simp [hi]


theorem addr_ite {c : Prop} [Decidable c] {x r : RegId} {y : Option RegId} {a : Nat} (hx : c → x.addr = a) (hy : y = some r → r.addr = a)
    (h : (if c then some x else y) = some r) : r.addr = a := by
  split at h
  · cases h; exact hx ‹c›
  · exact hy h

theorem locateModule_addr {o : Nat} {r : RegId} (h : locateModule o = some r) : r.addr = modReg o := by
  revert h
  unfold locateModule
  repeat (refine addr_ite (fun hc => by simp only [RegId.addr, modReg]; omega) ?_)
  intro h; cases h

theorem locateDie_addr {d o : Nat} {r : RegId} (h : locateDie d o = some r) : r.addr = dieReg d o := by
  revert h
  unfold locateDie
  repeat (refine addr_ite (fun hc => by simp only [RegId.addr, dieReg]; omega) ?_)
  intro h; cases h

/-- A register that stands at an address has that address. -/
theorem State.regAt_addr {s : State} {a : Nat} {r : RegId} (h : s.regAt a = some r) : r.addr = a := by
  have h2 : locateReg a = some r := by
    unfold State.regAt at h
    cases hr : locateReg a with
    | none => rw [hr] at h; cases h
    | some q =>
      rw [hr] at h
      dsimp only at h
      split at h
      · exact h
      · cases h
  unfold locateReg at h2
  split at h2
  · rw [locateModule_addr h2]
    simp only [modReg]
    omega
  · split at h2
    · rw [locateDie_addr h2]
      simp only [dieReg]
      omega
    · cases h2

/-- A write to F-class fields changes what waits of the register, and nothing else. -/
theorem State.pendWrite_rest (s : State) (r : RegId) (p : PendW) : s.pendWrite r p = { s with pend := (s.pendWrite r p).pend } := by
  unfold State.pendWrite; split <;> rfl

theorem State.pendWrite_ne (s : State) {r q : RegId} (p : PendW) (h : q ≠ r) : assocGet (s.pendWrite r p).pend q pendNone = assocGet s.pend q pendNone := by
  unfold State.pendWrite; split
  · rfl
  · exact assocGet_assocSet_ne _ _ _ (Ne.symm h)


theorem State.writeI_spec (s : State) (src : Src) (r : RegId) (w : Word) :
    s.writeI src r w = if r.fields.all (fun f => decide (f.latch ≠ .i)) then s
      else if r.waits then { s with lamp := { s.lamp with pendingI := s.lamp.pendingI ++ [(r.addr, w, resetCause src)] } } else s.putClass r .i w := by
  unfold State.writeI
  simp only [RegId.waits, Bool.and_eq_true, decide_eq_true_eq]

theorem State.busyReg_eq (s : State) (r : RegId) : s.busyReg r = s.raise (mkEv 1 (s.regHome r.addr) 0xFF 17 0 [(6, r.addr), (1, regUnit r)]) := rfl

theorem State.writeL_spec (s : State) (r : RegId) (w : Word) :
    s.writeL r w = if s.changesL r w && !(s.regBusy r || badL r w) then (s.busyRaised r w).putClass r .l w else s.busyRaised r w := by
  unfold State.writeL State.busyRaised
  rw [State.busyReg_eq]
  have h := s.changesL_iff r w
  by_cases hc : s.changesL r w = true
  · rw [if_neg (h.1 hc), hc]
    by_cases h1 : s.regBusy r = true <;> by_cases h2 : badL r w = true <;> simp [h1, h2]
  · rw [if_pos (by by_contra hn; exact hc (h.2 hn))]
    simp [hc]

theorem State.changesL_none (s : State) {r : RegId} (w : Word) (h : ∀ f ∈ r.fields, f.latch ≠ .l) : s.changesL r w = false := by
  unfold State.changesL
  rw [List.any_eq_false]
  intro f hf
  simp [h f hf]

/-- What the writes of the three classes leave. -/
theorem State.latched (s : State) (src : Src) {r : RegId} (w : Word) (hq : r.takesOrders = false) :
    Latched s src r w (((s.writeL r w).writeF r w).writeI src r w) := by
  rw [State.writeL_spec]
  generalize hu : s.busyRaised r w = u
  generalize hb : (s.regBusy r || badL r w) = b
  generalize hyd : (if (s.changesL r w && !b) = true then u.putClass r .l w else u) = y
  have hyr : y = { u with regs := y.regs } := by rw [← hyd]; split <;> rfl
  have hyw : ∀ q, q ≠ r → y.word q = u.word q := by
    intro q hq'
    rw [← hyd]; split
    · exact State.word_setWord_ne _ _ (Ne.symm hq')
    · rfl
  have hur : r.raised = false ∨ u = s → u.word r = s.word r := by
    rintro (hr' | rfl)
    · rw [← hu, State.busyRaised]; split
      · exact (State.raise_raised (Raised.refl s) _).regs r hr'
      · rfl
    · rfl
  have hyf : r.raised = false ∨ u = s → ∀ f ∈ r.fields, y.rd (r.ref f) = if f.latch = .l ∧ b = false then field w.toNat f.lo f.width else s.rd (r.ref f) := by
    intro hr' f hf
    have hrd : ∀ g : FSpec, u.rd (r.ref g) = s.rd (r.ref g) := fun g => State.rd_congr (hur hr')
    cases b with
    | true =>
      simp only [Bool.not_true, Bool.and_false, Bool.false_eq_true, if_false] at hyd
      rw [← hyd, hrd]
      simp
    | false =>
      simp only [Bool.not_false, Bool.and_true, and_true] at hyd ⊢
      by_cases hc : s.changesL r w = true
      · rw [hc, if_pos rfl] at hyd
        rw [← hyd, State.rd_putClass _ _ _ _ hf, hrd]
        split
        · rename_i hl'
          unfold FSpec.after
          rw [RegId.rw_of_l hf hl']
        · rfl
      · have hc' : s.changesL r w = false := by simpa using hc
        rw [hc', if_neg Bool.false_ne_true] at hyd
        rw [← hyd, hrd]
        split
        · rename_i hl'
          have h5 : ¬ (r.writeClass .l (s.word r).toNat w.toNat ≠ (s.word r).toNat) := fun h6 => hc ((s.changesL_iff r w).2 h6)
          rw [not_not, RegId.writeClass_self] at h5
          have h6 := h5 f hf hl'
          unfold FSpec.after at h6
          rw [RegId.rw_of_l hf hl'] at h6
          exact h6.symm
        · rfl
  have hym : ∀ a, y.byteAt a = s.byteAt a := by
    intro a
    have h2 : u.byteAt a = s.byteAt a := by
      rw [← hu, State.busyRaised]; split
      · exact (State.raise_raised (Raised.refl s) _).mem a
      · rfl
    rw [← h2, ← hyd]
    split
    · rename_i hc
      refine State.byteAt_setWord _ ?_ _ _
      by_contra hpl
      have h3 := State.changesL_none s (r := r) w (by cases r <;> first | exact absurd rfl hpl | simp [RegId.fields])
      rw [h3] at hc
      exact Bool.false_ne_true hc
    · rfl
  have hys : (∀ f ∈ r.fields, f.latch = .f ∨ f.latch = .none) → y.regs = s.regs := by
    intro h
    have h3 := State.changesL_none s (r := r) w (fun f hf => by rcases h f hf with h | h <;> rw [h] <;> nofun)
    rw [← hyd, h3, if_neg (by simp), ← hu, State.busyRaised, h3]
    simp
  clear hyd
  generalize hzd : y.writeF r w = z
  have hzr : z = { y with pend := z.pend } := by rw [← hzd]; exact State.pendWrite_rest ..
  have hzp : ∀ q, q ≠ r → assocGet z.pend q pendNone = assocGet u.pend q pendNone := by
    intro q hq'
    rw [← hzd, State.writeF, State.pendWrite_ne _ _ hq', hyr]
  have hzf : ∀ f ∈ r.fields, f.acc = .rw → f.latch = .f → field (assocGet z.pend r pendNone).mask.toNat f.lo f.width = 2 ^ f.width - 1 ∧
      field (assocGet z.pend r pendNone).val.toNat f.lo f.width = field w.toNat f.lo f.width := by
    intro f hf h1 h2
    have hm' := RegId.classMask_field hf h1 h2
    rw [← hzd, State.writeF]
    generalize BitVec.ofNat 64 (r.classMask .f) = m at hm'
    have hv : field (w &&& m).toNat f.lo f.width = field w.toNat f.lo f.width := by
      apply Nat.eq_of_testBit_eq
      intro i
      have hb := congrArg (fun x => x.testBit i) hm'
      simp only [testBit_field, Nat.testBit_two_pow_sub_one] at hb
      rw [testBit_field, testBit_field, BitVec.toNat_and, Nat.testBit_and]
      by_cases hi : i < f.width
      · simp only [hi, decide_true, Bool.true_and] at hb ⊢
        rw [hb, Bool.and_true]
      · simp [hi]
    unfold State.pendWrite
    split
    · rename_i h0
      replace h0 : m = 0 := h0
      rw [h0] at hm'
      have : f.width = 0 := by
        by_contra hw
        have : 2 ^ f.width ≥ 2 ^ 1 := Nat.pow_le_pow_right (by decide) (by omega)
        simp [field] at hm'
        omega
      simp [this, field, Nat.mod_one]
    · rw [assocGet_assocSet_same]
      obtain ⟨h3, h4⟩ := PendW.over_field (p := assocGet y.pend r pendNone) (q := { mask := m, val := w &&& m }) hm'
      exact ⟨h3, h4.trans hv⟩
  have hz0 : (∀ f ∈ r.fields, f.latch ≠ .f) → z.pend = u.pend := by
    intro hnf
    have hm : r.classMask .f = 0 := by
      unfold RegId.classMask
      rw [List.filter_eq_nil_iff.2 (fun f hf => by simp [hnf f hf])]
      rfl
    have h0 : y.writeF r w = y := by
      unfold State.writeF State.pendWrite
      rw [hm]
      exact if_pos rfl
    rw [← hzd, h0, hyr]
  clear hzd
  have hzw : ∀ q, z.word q = y.word q := fun q => by rw [hzr]; rfl
  have hzrest : z = { u with regs := z.regs, pend := z.pend } := by rw [hzr, hyr]
  have hlamp : z.lamp = u.lamp := by rw [hzrest]
  have hzs : (∀ f ∈ r.fields, f.latch = .f ∨ f.latch = .none) → z.regs = s.regs := fun h => by rw [← hys h, hzr]
  have hzm : ∀ a, z.byteAt a = s.byteAt a := fun a => by rw [← hym a, hzr]; rfl
  rw [State.writeI_spec z src r w]
  have hlast : r.raised = false ∨ u = s → ∀ f ∈ r.fields, z.rd (r.ref f) = if f.latch = .l ∧ b = false then field w.toNat f.lo f.width else s.rd (r.ref f) := by
    intro hr' f hf
    rw [← hyf hr' f hf]
    exact State.rd_congr (hzw _)
  by_cases hi : r.fields.all (fun f => decide (f.latch ≠ .i)) = true
  · rw [if_pos hi]
    refine ⟨?_, ?_, hzf, fun q hq' => by rw [hu]; exact ⟨(hzw q).trans (hyw q hq'), hzp q hq'⟩, ?_, fun h => by rw [hu]; exact hz0 h, ?_, ?_⟩
    · rw [hu, hzrest]
    · intro hr' f hf
      rw [hu] at hr'
      rw [hlast hr' f hf]
      have h1 := RegId.class_of hf
      have h2 : f.latch ≠ .i := by simpa using List.all_eq_true.1 hi f hf
      unfold State.fieldAfter
      dsimp only
      rw [hb]
      obtain ⟨lo, width, acc, rst, latch⟩ := f
      cases acc <;> cases latch <;> first | exact absurd rfl h2 | exact absurd h1 Bool.false_ne_true | rfl | (cases b <;> simp)
    · have : r.fields.any (fun f => decide (f.latch = .i)) = false := by
        rw [List.any_eq_false]
        intro f hf
        simpa using List.all_eq_true.1 hi f hf
      rw [this, Bool.and_false, hu, hlamp]
      simp
    · exact hzs
    · exact hzm
  · rw [if_neg hi]
    have hany : r.fields.any (fun f => decide (f.latch = .i)) = true := by
      rw [List.all_eq_true] at hi
      push Not at hi
      obtain ⟨f, hf, h1⟩ := hi
      rw [List.any_eq_true]
      exact ⟨f, hf, by simpa using h1⟩
    by_cases ho : r.waits = true
    · rw [if_pos ho]
      refine ⟨?_, ?_, hzf, fun q hq' => by rw [hu]; exact ⟨(hzw q).trans (hyw q hq'), hzp q hq'⟩, ?_, fun h => by rw [hu]; exact hz0 h, ?_, ?_⟩
      · rw [hu, hzrest]
      · intro hr' f hf
        rw [hu] at hr'
        refine (hlast hr' f hf).trans ?_
        have h1 := RegId.class_of hf
        unfold State.fieldAfter
        dsimp only
        rw [ho, hb]
        obtain ⟨lo, width, acc, rst, latch⟩ := f
        cases acc <;> cases latch <;> first | exact absurd h1 Bool.false_ne_true | rfl | (cases b <;> simp)
      · rw [ho, hany, hu]
        show z.lamp.pendingI ++ _ = _
        rw [hlamp]
        rfl
      · exact hzs
      · exact hzm
    · have ho' : r.waits = false := by simpa using ho
      rw [if_neg ho]
      refine ⟨?_, ?_, hzf, fun q hq' => ?_, ?_, fun h => by rw [hu]; exact hz0 h, ?_, ?_⟩
      · rw [hu, hzrest]; rfl
      · intro hr' f hf
        rw [hu] at hr'
        rw [State.rd_putClass _ _ _ _ hf]
        have h1 := RegId.class_of hf
        have h2 := hlast hr' f hf
        unfold State.fieldAfter
        dsimp only
        rw [ho', hb, h2]
        have h3 : f.latch ≠ .l → field (z.word r).toNat f.lo f.width = s.rd (r.ref f) := by
          intro h4
          have h5 : z.rd (r.ref f) = field (z.word r).toNat f.lo f.width := rfl
          rw [← h5, h2]
          simp [h4]
        obtain ⟨lo, width, acc, rst, latch⟩ := f
        cases acc <;> cases latch <;> first
          | (rw [ho', hq] at h1; exact absurd h1 Bool.false_ne_true)
          | (simp [FSpec.after]; done)
          | (simp [FSpec.after, h3 (by nofun)]; done)
          | (cases b <;> simp)
      · rw [hu]
        exact ⟨(State.word_setWord_ne _ _ (Ne.symm hq')).trans ((hzw q).trans (hyw q hq')), hzp q hq'⟩
      · rw [ho', hu]
        show z.lamp.pendingI = _
        rw [hlamp]
        simp
      · intro h
        refine absurd (List.all_eq_true.2 fun f hf => ?_) hi
        rcases h f hf with h | h <;> rw [h] <;> rfl
      · intro a
        refine (State.byteAt_setWord _ ?_ _ _).trans (hzm a)
        by_contra hpl
        exact hi (by cases r <;> first | exact absurd rfl hpl | rfl)

theorem State.writeReg_locked {s : State} {src : Src} {r : RegId} {w : Word} {sig : Bool} (hl : ruleLocked r = true) :
    s.writeReg src r w sig = s.busyReg r := by
  have e : r.takesOrders = false → s.writeReg src r w sig = if ruleLocked r then s.busyReg r else (((s.writeL r w).writeF r w).writeI src r w).afterWrite s r w sig := by
    intro hq
    cases r <;> first | exact absurd hq.symm Bool.false_ne_true | rfl
  rw [e (by cases r <;> first | rfl | exact absurd hl Bool.false_ne_true), hl, if_pos rfl]

/-- A write of a register is a write of its fields, and what it sets going. -/
theorem State.writeReg_open {s : State} {src : Src} {r : RegId} {w : Word} {sig : Bool} (hq : r.takesOrders = false) (hl : ruleLocked r = false) :
    s.writeReg src r w sig = (((s.writeL r w).writeF r w).writeI src r w).afterWrite s r w sig := by
  have e : s.writeReg src r w sig = if ruleLocked r then s.busyReg r else (((s.writeL r w).writeF r w).writeI src r w).afterWrite s r w sig := by
    cases r <;> first | exact absurd hq.symm Bool.false_ne_true | rfl
  rw [e, hl, if_neg Bool.false_ne_true]

/-- A command that is a write of a register: what its fields take, what it sets going, and its answer. -/
theorem State.command_latched {s : State} {src : Src} {r : RegId} (h : Reached s src r.addr) (hq : r.takesOrders = false) (hl : ruleLocked r = false) (w : Word) (c : Instr) :
    ∃ u, Latched s src r w u ∧ s.command src r w c = (u.afterWrite s r w false).respond src r.addr [] := by
  refine ⟨_, s.latched src w hq, ?_⟩
  unfold State.command State.accessWrite
  rw [State.access_reached h]
  dsimp only
  rw [State.writeReg_open hq hl]

/-- A write that waits for nothing and meets no busy unit changes the register word alone. -/
theorem Latched.plain {s u : State} {src : Src} {r : RegId} {w : Word} (h : Latched s src r w u) (hb : s.busyRaised r w = s)
    (hf : ∀ f ∈ r.fields, f.latch ≠ .f) (hi : r.waits = false ∨ ∀ f ∈ r.fields, f.latch ≠ .i) : u = { s with regs := u.regs } := by
  have h1 := h.rest
  have h2 := h.lamp
  have h3 := h.pends hf
  rw [hb] at h1 h2 h3
  have h4 : u.lamp.pendingI = s.lamp.pendingI := by
    rw [h2]
    rcases hi with hi | hi
    · rw [hi]; simp
    · have : r.fields.any (fun f => decide (f.latch = .i)) = false := by
        rw [List.any_eq_false]
        intro f hf
        simpa using hi f hf
      rw [this, Bool.and_false]; simp
  rw [h1, h3, h4]

/-- A write that changes no L-class field, or whose unit is idle, is not refused. -/
theorem State.busyRaised_free {s : State} {r : RegId} {w : Word} (h : s.changesL r w = false ∨ (s.regBusy r || badL r w) = false) : s.busyRaised r w = s := by
  unfold State.busyRaised
  rcases h with h | h <;> rw [h] <;> simp

/-- A field after a write that is not refused. -/
theorem Latched.at {s u : State} {src : Src} {r : RegId} {w : Word} (h : Latched s src r w u) (hb : s.busyRaised r w = s) (f : FSpec) (hf : f ∈ r.fields) :
    u.rd (r.ref f) = s.fieldAfter r f w := h.fields (.inr hb) f hf

theorem Latched.word {s u : State} {src : Src} {r : RegId} {w : Word} (h : Latched s src r w u) (hb : s.busyRaised r w = s) {q : RegId} (hq : q ≠ r) :
    u.word q = s.word q := by rw [(h.others q hq).1, hb]

theorem field_setBit (w : Word) (k : Nat) (hk : k < 64) : field (w ||| 1#64 <<< k).toNat k 1 = 1 := by
  apply Nat.eq_of_testBit_eq
  intro i
  rw [testBit_field, BitVec.testBit_toNat]
  by_cases hi : i < 1
  · have : i = 0 := by omega
    subst this
    simp [hk]
  · have : Nat.testBit 1 i = false := by rw [← Nat.pow_zero 2, Nat.testBit_two_pow]; simp; omega
    simp [hi, this]

/-- The registers that lay out memory: the Depot regions and the power of the scratchpads. -/
def RegId.layout : RegId → Bool
  | .DEPOT_REGION _ _ => true
  | .SPAD_PWR _ _ => true
  | _ => false

/-- Which accesses the map takes depends on the grade, the fenced dies and the registers that lay out memory alone. -/
theorem State.accessOk_congr {s u : State} (hf : u.fuses = s.fuses) (hd : u.dies = s.dies) (hr : ∀ r, r.layout = true → u.word r = s.word r) (a n : Nat) :
    u.accessOk a n = s.accessOk a n := by
  have h1 : ∀ d o, u.pinnedAt d o = s.pinnedAt d o := by
    intro d o
    have e1 : ∀ k, u.rd (DEPOT_REGION_KIND d k) = s.rd (DEPOT_REGION_KIND d k) := fun k => State.rd_congr (hr _ rfl)
    have e2 : ∀ k, u.rd (DEPOT_REGION_FIRST d k) = s.rd (DEPOT_REGION_FIRST d k) := fun k => State.rd_congr (hr _ rfl)
    have e3 : ∀ k, u.rd (DEPOT_REGION_COUNT d k) = s.rd (DEPOT_REGION_COUNT d k) := fun k => State.rd_congr (hr _ rfl)
    simp only [State.pinnedAt, e1, e2, e3]
  have nc : u.nCores = s.nCores := by unfold State.nCores; rw [hf]
  have h2 : u.blockOf a = s.blockOf a := by simp only [State.blockOf, h1, hf, nc]
  have h3 : ∀ d c o n, u.spadReady d c o n = s.spadReady d c o n := by
    intro d c o n
    have e1 : u.rd (SPAD_PWR_READY d c) = s.rd (SPAD_PWR_READY d c) := State.rd_congr (hr _ rfl)
    simp only [State.spadReady, e1]
  simp only [State.accessOk, h2, h3, State.die, hd]

theorem State.bytesAt_congr {s u : State} (h : ∀ a, u.byteAt a = s.byteAt a) (a n : Nat) : u.bytesAt a n = s.bytesAt a n := by
  induction n generalizing a with
  | zero => rfl
  | succ n ih => simp only [State.bytesAt, h, ih]

/-- A word put together from parts that share no bit. -/
theorem toNat_or_add {x y : Word} {n k v : Nat} (hx : x.toNat = n) (hn : n < 2 ^ k) (hy : y.toNat = 2 ^ k * v) : (x ||| y).toNat = n + 2 ^ k * v := by
  rw [BitVec.toNat_or, hx, hy, Nat.or_comm, ← Nat.two_pow_add_eq_or_of_lt hn, Nat.add_comm]

end Sys2Proof.Machine
end

