-- ==== Sys2Proof/Laws/Access.lean ====
section
/-! SUPPORT. Lemmas of reads and writes of registers, and the small lemmas of tables, lists and fields. -/

set_option linter.unusedSimpArgs false
set_option linter.unusedVariables false

namespace Sys2Proof.Machine

theorem RegId.plain_of_rc {r : RegId} (h : ∃ f ∈ r.fields, f.acc = .rc) : r.plain = true := by
  obtain ⟨f, hf, ha⟩ := h
  cases r <;> first | rfl | (simp only [RegId.fields, List.mem_cons, List.not_mem_nil, or_false] at hf; rcases hf with rfl | rfl <;> cases ha)

theorem byteAt_rcClear (s : State) (r : RegId) (a : Nat) : (s.rcClear r).byteAt a = s.byteAt a := by
  unfold State.rcClear
  dsimp only
  split
  · rfl
  · rename_i h
    refine State.byteAt_setWord _ (RegId.plain_of_rc ?_) _ _
    obtain ⟨f, hf⟩ := List.exists_mem_of_ne_nil _ h
    obtain ⟨h1, h2⟩ := List.mem_filter.1 hf
    exact ⟨f, h1, by simpa using h2⟩

theorem regRead_spec (s : State) (a : Nat) (hm : s.regThere a = true) : ∃ x v, s.regRead a = (x, v) ∧ x = { s with regs := x.regs } ∧
      (∀ o, mboxWord a = some o → v = s.mboxAt o ∧ x.regs = s.regs) ∧
      (∀ r, mboxWord a = none → s.regAt a = some r → v = s.regView r ∧
        (∀ f ∈ r.fields, x.rd (r.ref f) = if f.acc = .rc then 0 else s.rd (r.ref f)) ∧ (∀ q, q ≠ r → x.word q = s.word q)) ∧
      (∀ b, x.byteAt b = s.byteAt b) := by
  unfold State.regRead
  cases h : mboxWord a with
  | some o => exact ⟨s, s.mboxAt o, rfl, rfl, fun p hp => by cases hp; exact ⟨rfl, rfl⟩, fun r hr => (by cases hr), fun _ => rfl⟩
  | none =>
    cases hr : s.regAt a with
    | none => simp [State.regThere, h, hr] at hm
    | some r =>
      exact ⟨s.rcClear r, s.regView r, rfl, s.rcClear_rest r, fun o ho => (by cases ho),
        fun q _ hq => by cases hq; exact ⟨rfl, fun f hf => s.rd_rcClear r hf, fun q hq => s.word_rcClear hq⟩, byteAt_rcClear s r⟩

theorem afterWrite_quiet (x s : State) {r : RegId} {w : Word} {sig : Bool} (hq : r.quiet = true) : x.afterWrite s r w sig = x := by
  cases r <;> first | exact absurd hq Bool.false_ne_true | rfl

theorem pendField_spec (s : State) (f : FRef) (hf : f.width = 1) (hl : f.lo < 64) :
    field (assocGet (s.pendField f 1).pend f.reg pendNone).mask.toNat f.lo 1 = 1 ∧
      field (assocGet (s.pendField f 1).pend f.reg pendNone).val.toNat f.lo 1 = 1 := by
  obtain ⟨r, lo, width⟩ := f
  cases hf
  have h1 : field (BitVec.ofNat 64 ((2 ^ 1 - 1) <<< lo)).toNat lo 1 = 2 ^ 1 - 1 := by
    apply Nat.eq_of_testBit_eq
    intro i
    rw [testBit_field, BitVec.toNat_ofNat, Nat.testBit_mod_two_pow, Nat.testBit_shiftLeft, Nat.testBit_two_pow_sub_one, Nat.testBit_two_pow_sub_one]
    have hl' : lo < 64 := hl
    by_cases hi : i < 1
    · have : lo + i < 64 := by omega
      simp [hi, this]
    · simp [hi]
  unfold State.pendField State.pendWrite
  dsimp only
  split
  · rename_i h0
    rw [h0] at h1
    simp [field] at h1
  · rw [assocGet_assocSet_same]
    obtain ⟨h3, h4⟩ := PendW.over_field (p := assocGet s.pend r pendNone) (lo := lo) (width := 1)
      (q := { mask := BitVec.ofNat 64 ((2 ^ 1 - 1) <<< lo), val := BitVec.ofNat 64 ((1 % 2 ^ 1) <<< lo) }) h1
    exact ⟨h3, h4.trans h1⟩

theorem regThere_lt {s : State} {x : Nat} (h : s.regThere x = true) : x < 2 ^ 48 := by
  simp only [State.regThere, Bool.or_eq_true] at h
  rcases h with h | h
  · obtain ⟨r, hr⟩ := Option.isSome_iff_exists.1 h
    unfold State.regAt at hr
    have : (locateReg x).isSome = true := by
      cases hl : locateReg x with
      | none => rw [hl] at hr; cases hr
      | some _ => rfl
    unfold locateReg at this
    split at this
    · omega
    · split at this
      · omega
      · cases this
  · unfold mboxWord modReg at h
    split at h
    · omega
    · cases h

theorem flag_wr_ne {s : State} {f g : FRef} {v : Nat} (h : f.reg ≠ g.reg) : (s.wr f v).flag g = s.flag g := by
  unfold State.flag; rw [State.rd_congr (State.word_wr_ne _ _ h)]

theorem flushAll_quiet (s : State) (d n : Nat) (h : ∀ e ∈ (s.chan d n).q, e.status = none) : s.flushAll d n = s := by
  unfold State.flushAll
  cases hn : (s.chan d n).q with
  | nil => rfl
  | cons r t =>
    have := h r (by rw [hn]; exact List.mem_cons_self)
    simp only [State.flush, List.length_cons, hn, this]

theorem foldl_flush_quiet (l : List Nat) (s : State) (d : Nat) (h : ∀ n, ∀ e ∈ (s.chan d n).q, e.status = none) :
    l.foldl (fun s n => s.flushAll d n) s = s := by
  induction l with
  | nil => rfl
  | cons n t ih => rw [List.foldl_cons, flushAll_quiet s d n (h n), ih]

theorem field_256 (w : Word) : field (w ||| 0x100).toNat 8 1 = 1 := field_setBit w 8 (by decide)

theorem padTo_length {bs : List Byte} (h : bs.length ≤ 256) : (padTo 256 bs).length = 256 := by simp [padTo]; omega

end Sys2Proof.Machine
end

