-- ==== Sys2Proof/Laws/Seq.lean ====
section
/-! SUPPORT. Lemmas of the instructions of a sequencer: issue, results, loads, stores, dispatch. -/

set_option linter.unusedSimpArgs false
set_option linter.unusedVariables false

namespace Sys2Proof.Machine

theorem alu_of_issues {s : State} {h : Hdr} {a : FmtA} (hi : Issues s h 8) (hl : legalAlu a = true) (f : Word → Word → Word) :
    s.alu h a f = (s.setS h.die h.seq a.sd (f (s.sreg h.die h.seq a.sa) (s.operandB h.die h.seq a))).retire h.die h.seq ((s.core h.die h.seq).pc + 8) := by
  rw [State.alu, hl, State.issue_of_issues hi]; rfl

theorem branch_of_issues {s : State} {h : Hdr} (hi : Issues s h 8) (g : State → State) (f : State → Word) :
    s.issue h 8 true true (fun s => branchTo (g s) (f s)) = if (f s).toNat % 8 = 0 then (g s).retire h.die h.seq (f s) else
      s.programFault h.die h.seq 66 0 (s.core h.die h.seq).pc.toNat [(6, (f s).toNat)] := by
  rw [State.issue_of_issues hi]
  by_cases c : (f s).toNat % 8 = 0 <;> simp [branchTo, c]

theorem issue_illegal {s : State} {h : Hdr} {n : Nat} {priv : Bool} (hr : s.seqReady h.die h.seq = true) (hp : h.par = 0) (hf : (s.fetch h.die h.seq n).isSome = true) (body : State → Res) :
    s.issue h n false priv body = s.programFault h.die h.seq 64 0 (s.core h.die h.seq).pc.toNat [] := by
  obtain ⟨a, ha⟩ := Option.isSome_iff_exists.1 hf
  simp [State.issue, hr, ha, hp, State.replays]

theorem issue_priv {s : State} {h : Hdr} {n : Nat}  (hr : s.seqReady h.die h.seq = true) (hp : h.par = 0) (hf : (s.fetch h.die h.seq n).isSome = true) (body : State → Res) :
    s.issue h n true false body = s.programFault h.die h.seq 65 0 (s.core h.die h.seq).pc.toNat [] := by
  obtain ⟨a, ha⟩ := Option.isSome_iff_exists.1 hf
  simp [State.issue, hr, ha, hp, State.replays]

theorem issue_false {s : State} {h : Hdr} {n : Nat}  (hr : s.seqReady h.die h.seq = true) (hp : h.par = 0) (hq : (s.preg h.die h.seq h.pred ^^ h.pn) = false) (hf : (s.fetch h.die h.seq n).isSome = true) (body : State → Res) :
    s.issue h n true true body = s.retire h.die h.seq ((s.core h.die h.seq).pc + BitVec.ofNat 64 n) := by
  obtain ⟨a, ha⟩ := Option.isSome_iff_exists.1 hf
  simp [State.issue, hr, ha, hp, hq, State.replays]

theorem table_issue (s : State) (h : Hdr) (a : FmtA) (m : FmtM) (y : FmtY) (x : FmtX) (t : FmtT) (l : Lists) :
    ∀ e ∈ seqTable h a m y x t l, ∃ body, exec e.1 s = .next (s.issue h e.2.1 e.2.2.1 e.2.2.2 body) := by
  intro e he
  simp only [seqTable, scalarTable, syncTable, transferTable, tensorTable, mgmtTable, List.cons_append, List.nil_append, List.mem_cons, List.mem_nil_iff, or_false] at he
  repeat' (rcases he with rfl | he)
  all_goals first
    | exact ⟨_, rfl⟩
    | skip
  all_goals (try subst he)
  all_goals first
    | exact ⟨_, rfl⟩
    | (simp only [tensorRest, exec, execDrayGo, execDrayPause, execDrayResume, execDrayCancel, execDrayStat, State.transfer, execMma, execMvp, execEwa, execVop, execHand, execHmerge, execHcheck, execPredQuant, execPredTopk, execPredThresh, execPredEmit, execUpdAdam, execDigestBlock, execDigestNode, State.tensor, State.dispatch, Bool.and_assoc, Bool.true_or, Bool.false_or, Bool.true_and]; exact ⟨_, rfl⟩)

theorem State.bankServed_served (s : State) (a n : Nat) : Served s (s.bankServed a n) := by
  have h0 : ∀ s : State, Served s s := fun s => ⟨rfl, fun _ _ => rfl, fun _ => rfl⟩
  unfold State.bankServed
  split
  · rename_i c o _
    generalize spadWords o n = l
    induction l generalizing s with
    | nil => exact h0 s
    | cons w l ih =>
      rw [List.foldl_cons]
      have h1 : Served s (if w < 0xC0000 then s.count (SPAD_BANK_SERVED (dieOf a) c (bankOf w)) 1 else s) := by
        split
        · exact ⟨rfl, fun r hr => State.word_count_ne _ _ (Ne.symm (hr _ _ _)), fun x => State.byteAt_count _ rfl _ _⟩
        · exact h0 s
      have h2 := ih (if w < 0xC0000 then s.count (SPAD_BANK_SERVED (dieOf a) c (bankOf w)) 1 else s)
      exact ⟨by rw [h2.rest, h1.rest], fun r hr => (h2.regs r hr).trans (h1.regs r hr), fun x => (h2.mem x).trans (h1.mem x)⟩
  · exact h0 s

theorem State.bankServed_place (s : State) (a n : Nat) (y : Nat) : (s.bankServed a n).place y = s.place y := by
  unfold State.bankServed
  split
  · rename_i c o _
    generalize spadWords o n = l
    induction l generalizing s with
    | nil => rfl
    | cons w l ih =>
      rw [List.foldl_cons, ih]
      split
      · exact State.place_setWord s (by rfl) _ y
      · rfl
  · rfl

theorem Served.core {s t : State} (h : Served s t) (d q : Nat) : t.core d q = s.core d q := by rw [h.rest]; rfl

theorem Served.sreg {s t : State} (h : Served s t) (d q : Nat) (r : BitVec 5) : t.sreg d q r = s.sreg d q r := by rw [State.sreg, State.sreg, h.core]

theorem load_answers {s : State} {h : Hdr} {m : FmtM} (hi : Issues s h 8) (hl : legalM h.seq m = true) (n : Nat) (hn : n ≤ 8) :
    (∀ a, s.seqResolve h.die h.seq m.win.toNat ((s.sreg h.die h.seq m.sa).toInt + m.imm.toInt) n .rd = some a → ((s.sreg h.die h.seq m.sa).toInt + m.imm.toInt) % n = 0 →
        ∃ t, (Host.Outcome.next (s.load h m n) : Ans) = .next t ∧ (∀ r, r ≠ m.sd → t.sreg h.die h.seq r = s.sreg h.die h.seq r) ∧
          (m.sd ≠ 0 → ∀ i < 8, (t.sreg h.die h.seq m.sd).extractLsb' (8 * i) 8 = if i < n then s.byteAt (a + i) else 0) ∧
          (t.core h.die h.seq).pc = (s.core h.die h.seq).pc + 8 ∧ OnlyScalars h.die h.seq (s.bankServed a n) t) ∧
      (s.seqResolve h.die h.seq m.win.toNat ((s.sreg h.die h.seq m.sa).toInt + m.imm.toInt) n .rd = none → ∃ t, (Host.Outcome.next (s.load h m n) : Ans) = .next t ∧ Faulted h.die h.seq 67 0 (s.core h.die h.seq).pc.toNat s t) ∧
      (∀ a, s.seqResolve h.die h.seq m.win.toNat ((s.sreg h.die h.seq m.sa).toInt + m.imm.toInt) n .rd = some a → ((s.sreg h.die h.seq m.sa).toInt + m.imm.toInt) % n ≠ 0 → ∃ t, (Host.Outcome.next (s.load h m n) : Ans) = .next t ∧ Faulted h.die h.seq 66 0 (s.core h.die h.seq).pc.toNat s t) := by
  unfold State.load
  rw [hl, State.issue_of_issues hi]
  refine ⟨fun a ha hm => ?_, fun ha => ?_, fun a ha hm => ?_⟩
  · rw [State.lsAddr_ok ha hm]; dsimp only
    have hb := s.bankServed_served a n
    generalize s.bankServed a n = u at hb
    refine ⟨_, rfl, fun r hr => ?_, fun h0 i hi => ?_, by simp, ?_⟩
    · rw [State.retire_sreg, State.sreg_setS, if_neg (fun e => hr e.1), hb.sreg]
    · rw [State.retire_sreg, State.sreg_setS, if_pos ⟨rfl, h0⟩, State.natAt, extract_leNat _ _ (by rw [State.length_bytesAt]; exact hn) hi, State.getD_bytesAt]
    · exact ⟨(State.setS_only ..).trans (State.retire_only ..), by rw [State.retire_core, State.setS_core]⟩
  · rw [State.lsAddr_window ha]; exact ⟨_, rfl, State.programFault_faulted _ _ _ _ _ _ _ (by decide)⟩
  · rw [State.lsAddr_misaligned ha hm]; exact ⟨_, rfl, State.programFault_faulted _ _ _ _ _ _ _ (by decide)⟩

theorem rest_of_store {s u t : State} (h1 : u = { s with mem := u.mem, undef := u.undef }) (h2 : t = { u with cores := t.cores, regs := t.regs }) :
    t = { s with cores := t.cores, regs := t.regs, mem := t.mem, undef := t.undef } := by
  rw [h2, h1]

theorem store_answers {s : State} {h : Hdr} {m : FmtM} (hi : Issues s h 8) (hl : legalM h.seq m = true) (n : Nat) :
    (∀ a, s.seqResolve h.die h.seq m.win.toNat ((s.sreg h.die h.seq m.sa).toInt + m.imm.toInt) n .wr = some a → ((s.sreg h.die h.seq m.sa).toInt + m.imm.toInt) % n = 0 →
        ∃ t, (Host.Outcome.next (s.store h m n) : Ans) = .next t ∧ 
          (∀ x, t.byteAt x = if a ≤ x ∧ x < a + n then (s.sreg h.die h.seq m.sd).extractLsb' (8 * (x - a)) 8 else s.byteAt x) ∧
          (t.core h.die h.seq).pc = (s.core h.die h.seq).pc + 8 ∧ OnlyStore h.die h.seq (s.bankServed a n) t) ∧
      (s.seqResolve h.die h.seq m.win.toNat ((s.sreg h.die h.seq m.sa).toInt + m.imm.toInt) n .wr = none → ∃ t, (Host.Outcome.next (s.store h m n) : Ans) = .next t ∧ Faulted h.die h.seq 67 0 (s.core h.die h.seq).pc.toNat s t) ∧
      (∀ a, s.seqResolve h.die h.seq m.win.toNat ((s.sreg h.die h.seq m.sa).toInt + m.imm.toInt) n .wr = some a → ((s.sreg h.die h.seq m.sa).toInt + m.imm.toInt) % n ≠ 0 → ∃ t, (Host.Outcome.next (s.store h m n) : Ans) = .next t ∧ Faulted h.die h.seq 66 0 (s.core h.die h.seq).pc.toNat s t) := by
  unfold State.store
  rw [hl, State.issue_of_issues hi]
  have hq : s.seqExists h.die h.seq = true := by
    have := hi.ready
    simp only [State.seqReady, Bool.and_eq_true] at this
    exact this.1.1.1.1.1.1.1
  refine ⟨fun a ha hm => ?_, fun ha => ?_, fun a ha hm => ?_⟩
  · rw [State.lsAddr_ok ha hm]; dsimp only
    have hv := s.bankServed_served a n
    rw [← hv.sreg]
    have hv2 : s.core h.die h.seq = (s.bankServed a n).core h.die h.seq := (hv.core _ _).symm
    have hv3 := State.seqResolve_space hq ha
    rw [hv2]
    simp only [← hv.mem]
    generalize s.bankServed a n = s at hv ⊢
    have ho := State.retire_only (s.setBytes a (leBytes n (s.sreg h.die h.seq m.sd).toNat)) h.die h.seq ((s.core h.die h.seq).pc + 8#64)
    have hr := s.setBytes_rest a (leBytes n (s.sreg h.die h.seq m.sd).toNat)
    have hb := fun x => s.byteAt_setBytes a (leBytes n (s.sreg h.die h.seq m.sd).toNat) x (by rw [length_leBytes]; exact hv3)
    have hc : ∀ d q, (s.setBytes a (leBytes n (s.sreg h.die h.seq m.sd).toNat)).core d q = s.core d q := fun d q => by rw [hr]; rfl
    have hk : ∀ k, tabGet (s.setBytes a (leBytes n (s.sreg h.die h.seq m.sd).toNat)).cores k coreReset = tabGet s.cores k coreReset := fun k => by rw [hr]
    have hww : ∀ k, (s.setBytes a (leBytes n (s.sreg h.die h.seq m.sd).toNat)).word k = s.word k := fun k => by rw [hr]; rfl
    refine ⟨_, rfl, fun x => ?_, ?_, ?_, fun k hk' => ?_, fun r hr => ?_, ?_⟩
    · rw [ho.mem, hb, length_leBytes]
      split
      · rename_i hx
        rw [getD_leBytes _ _ _ (by omega)]
        apply BitVec.eq_of_toNat_eq
        simp [BitVec.extractLsb'_toNat]
      · rfl
    · rw [State.retire_core]; rfl
    · exact rest_of_store hr ho.rest
    · rw [ho.others k hk', hk]
    · rw [ho.regs r hr, hww]
    · rw [State.retire_core, hc]
  · rw [State.lsAddr_window ha]; exact ⟨_, rfl, State.programFault_faulted _ _ _ _ _ _ _ (by decide)⟩
  · rw [State.lsAddr_misaligned ha hm]; exact ⟨_, rfl, State.programFault_faulted _ _ _ _ _ _ _ (by decide)⟩

theorem takePost_eq (src dst : Nat) (a b : List Post) (p : Post) (h : ∀ x ∈ a, ¬ (x.src = src ∧ x.dst = dst)) (h1 : p.src = src) (h2 : p.dst = dst) :
    takePost src dst (a ++ p :: b) = some (p, a ++ b) := by
  induction a with
  | nil => simp [takePost, h1, h2]
  | cons x a ih =>
    rw [List.cons_append, takePost, if_neg (h x (List.mem_cons_self ..)), ih fun z hz => h z (List.mem_cons_of_mem _ hz)]
    rfl

theorem posted_of (s t : State) (d q n k : Nat) (hf : s.postFits d q n k) (hc : t.core d q = ((s.core d q).arrive n k).1) : Posted d q n k k s t := by
  obtain ⟨h1, h2, h3, h4⟩ := Core.arrive_applied (s.core d q) n k hf.2 hf.1
  refine ⟨fun m => ?_, fun f => ?_, fun m => ?_⟩
  · rw [State.semv, hc, h2]; rfl
  · rw [State.pairAt, hc, h3]; rfl
  · rw [hc, h4]

theorem credit_region (s : State) (e : WorkEntry) (r : Nat) : ((s.credit e).region r).done = (s.region r).done + e.regions.count r := by
  unfold State.credit
  induction e.regions generalizing s with
  | nil => rfl
  | cons x l ih =>
    rw [List.foldl_cons, ih, List.count_cons]
    by_cases h : x = r
    · subst h; simp only [State.region, State.modRegion, tabGet_tabSet_same, beq_self_eq_true, if_true]; omega
    · simp only [State.region, State.modRegion, tabGet_tabSet_ne _ _ _ h, beq_eq_false_iff_ne.2 h, Bool.false_eq_true, if_false, Nat.add_zero]

theorem nameLists_rest (s : State) (d q : Nat) (l : Lists) (n : Option Nat) :
    s.nameLists d q l n = { s with items := (s.nameLists d q l n).items } ∧ (∀ k, (s.nameLists d q l n).item k = { s.item k with use := ((s.nameLists d q l n).item k).use }) ∧
      (∀ k, s.curItem d q ≠ some k → (s.nameLists d q l n).item k = s.item k) := by
  unfold State.nameLists
  cases hk : (s.core d q).cur with
  | none => exact ⟨rfl, fun _ => rfl, fun _ _ => rfl⟩
  | some k =>
    refine ⟨rfl, fun j => ?_, fun j hj => ?_⟩
    · by_cases h : k = j
      · subst h; dsimp only; rw [State.item_modItem_same]
      · dsimp only; rw [State.item_modItem_ne _ _ h]
    · rw [State.curItem, hk] at hj
      dsimp only
      rw [State.item_modItem_ne _ _ (fun e => hj (by rw [e]))]

theorem dispatches_of_issues {s : State} {h : Hdr} (hi : Issues s h 24) (c : Instr) (unit : Nat) (legal : Bool) (l : Lists) (n : Option Nat) (e : QEntry) (holds : QEntry → Prop)
    (hl : (legal && legalLists h.seq l) = true) (hc : exec c s = .next (s.dispatch h unit legal l n e))
    (hh : ∀ a, s.fetch h.die h.seq 24 = some a → holds (s.capture h.die h.seq { e with item := (s.core h.die h.seq).cur, pc := (s.core h.die h.seq).pc.toNat % 2 ^ 20, words := [BitVec.ofNat 64 (s.natAt a 8), BitVec.ofNat 64 (s.natAt (a + 8) 8), BitVec.ofNat 64 (s.natAt (a + 16) 8)] })) :
    Dispatches h.die h.seq unit holds c s := by
  unfold Dispatches
  rw [hc, State.dispatch, hl, State.issue_of_issues hi]
  have hb := State.seqReady_blocked hi.ready
  obtain ⟨a, ha⟩ := Option.isSome_iff_exists.1 hi.fetch
  have hws : (List.range 3).map (fun i => BitVec.ofNat 64 (s.natAt (a + 8 * i) 8)) = [BitVec.ofNat 64 (s.natAt a 8), BitVec.ofNat 64 (s.natAt (a + 8) 8), BitVec.ofNat 64 (s.natAt (a + 16) 8)] := rfl
  have hh := hh a ha
  rw [ha]
  dsimp only
  rw [hws]
  generalize s.capture h.die h.seq { e with item := (s.core h.die h.seq).cur, pc := (s.core h.die h.seq).pc.toNat % 2 ^ 20, words := [BitVec.ofNat 64 (s.natAt a 8), BitVec.ofNat 64 (s.natAt (a + 8) 8), BitVec.ofNat 64 (s.natAt (a + 16) 8)] } = q at hh ⊢
  obtain ⟨n1, n2, n3⟩ := nameLists_rest s h.die h.seq l n
  have ncore : ∀ d q, (s.nameLists h.die h.seq l n).core d q = s.core d q := fun d q => by rw [n1]; rfl
  rw [ncore]
  have key : ∀ (f : Core → Core), (∀ c : Core, f c = { c with pc := c.pc, blocked := (f c).blocked, queues := (f c).queues }) →
      OnlyDispatch h.die h.seq s ((s.nameLists h.die h.seq l n).modCore h.die h.seq f) := fun f hf => by
    refine ⟨⟨?_, fun k hk => ?_, fun r _ => ?_, fun a => ?_, n3⟩, ?_, n2⟩
    · rw [State.modCore]; generalize f ((s.nameLists h.die h.seq l n).core h.die h.seq) = c; rw [n1]
    · rw [State.modCore]; dsimp only; rw [tabGet_tabSet_ne _ _ _ (Ne.symm hk), n1]
    · rw [State.modCore, n1]; rfl
    · rw [State.modCore, n1]; rfl
    · rw [State.core_modCore_same, ncore, hf]
  refine ⟨fun hq => ?_, fun hq => ?_⟩
  · rw [if_neg (by omega)]
    dsimp only
    have ho := State.retire_only ((s.nameLists h.die h.seq l n).modCore h.die h.seq (fun c => c.enqueue unit q)) h.die h.seq ((s.core h.die h.seq).pc + 24#64)
    have hk := key (fun c => c.enqueue unit q) (fun _ => rfl)
    have hcore : ((s.nameLists h.die h.seq l n).modCore h.die h.seq (fun c => c.enqueue unit q)).core h.die h.seq = (s.core h.die h.seq).enqueue unit q := by rw [State.core_modCore_same, ncore]
    generalize (s.nameLists h.die h.seq l n).modCore h.die h.seq (fun c => c.enqueue unit q) = u at ho hk hcore
    refine ⟨_, q, rfl, hh, fun k => ?_, ?_, ?_, ⟨⟨?_, fun k h1 => (ho.others k h1).trans (hk.others k h1), fun r h1 => (ho.regs r h1).trans (hk.regs r h1),
      fun a => (ho.mem a).trans (hk.mem a), fun k h1 => ?_⟩, ?_, fun k => ?_⟩⟩
    · rw [State.retire_core, hcore]
      simp only [Core.queue, Core.enqueue, tabGet_tabSet]
      by_cases hku : k = unit
      · subst hku; simp
      · rw [if_neg (Ne.symm hku), if_neg hku]
    · rw [State.retire_core]; rfl
    · rw [State.retire_core, hcore]; exact hb
    · have h1 := ho.rest
      have h2 := hk.rest
      generalize u.retire h.die h.seq ((s.core h.die h.seq).pc + 24#64) = t at h1 ⊢
      rw [h1, h2]
    · rw [State.retire_item]; exact hk.items k h1
    · rw [State.retire_core, hcore]; rfl
    · rw [State.retire_item]; exact hk.use k
  · rw [if_pos hq]
    dsimp only
    refine ⟨_, q, rfl, hh, ?_, ?_, ?_, key _ (fun _ => rfl)⟩ <;> rw [State.core_modCore_same, ncore]

end Sys2Proof.Machine
end

