-- ==== Sys2Proof/Laws/Units.lean ====
section
/-! SUPPORT. Lemmas of units and work items: tokens, starting, completing, entry and resume. -/

set_option linter.unusedSimpArgs false
set_option linter.unusedVariables false

namespace Sys2Proof.Machine

def entSum (t : List (Nat × Nat)) (m : Nat) : Nat := ((t.filter (fun x => decide (x.1 = m))).map (fun x => x.2)).sum

theorem entSum_cons (x : Nat × Nat) (t : List (Nat × Nat)) (m : Nat) : entSum (x :: t) m = (if x.1 = m then x.2 else 0) + entSum t m := by
  unfold entSum
  by_cases h : x.1 = m <;> simp [h]

theorem entSum_wf (t : Tab Nat) (h : tabWf t = true) (m : Nat) : entSum t m = tabGet t m 0 := by
  induction t with
  | nil => rfl
  | cons x t ih =>
    rw [tabWf_cons, Bool.and_eq_true] at h
    rw [entSum_cons, ih h.2]
    simp only [tabGet]
    by_cases hm : x.1 = m
    · rw [if_pos hm, if_pos hm]
      have : tabGet t m 0 = 0 := by
        have hall := List.all_eq_true.1 h.1
        clear ih h
        induction t with
        | nil => rfl
        | cons y t ih2 =>
          have hy := hall y List.mem_cons_self
          simp only [decide_eq_true_eq] at hy
          simp only [tabGet]
          rw [if_neg (by omega)]
          exact ih2 (fun z hz => hall z (List.mem_cons_of_mem _ hz))
      omega
    · rw [if_neg hm, if_neg hm]; omega

theorem waitNeed_fold (l : List (Nat × Nat)) : ∀ t : Tab Nat, tabWf t = true →
    tabWf (l.foldl (fun t x => tabSet t x.1 (tabGet t x.1 0 + x.2)) t) = true ∧
    ∀ m, tabGet (l.foldl (fun t x => tabSet t x.1 (tabGet t x.1 0 + x.2)) t) m 0 = tabGet t m 0 + entSum l m := by
  induction l with
  | nil => intro t ht; exact ⟨ht, fun m => rfl⟩
  | cons x l ih =>
    intro t ht
    obtain ⟨h1, h2⟩ := ih _ (tabWf_tabSet t x.1 (tabGet t x.1 0 + x.2) ht)
    refine ⟨h1, fun m => ?_⟩
    rw [List.foldl_cons, h2, tabGet_tabSet, entSum_cons]
    by_cases h : x.1 = m
    · subst h; simp; omega
    · simp [h]

theorem waitNeed_sum (w : Word) (m : Nat) : entSum (waitNeed w) m = slotSum w m ∧ tabGet (waitNeed w) m 0 = slotSum w m := by
  obtain ⟨h1, h2⟩ := waitNeed_fold (usedSlots w) [] rfl
  have h3 : entSum (usedSlots w) m = slotSum w m := by
    unfold entSum slotSum usedSlots
    generalize slotsOf w = l
    induction l with
    | nil => rfl
    | cons x l ih =>
      by_cases hx : x.2 = 0
      · by_cases hm : x.1 = m <;> simp [hx, hm] <;> simpa using ih
      · by_cases hm : x.1 = m <;> simp [hx, hm] <;> simpa using ih
  have h4 : tabGet (waitNeed w) m 0 = slotSum w m := by
    have := h2 m
    simp only [tabGet, Nat.zero_add] at this
    exact this.trans h3
  exact ⟨(entSum_wf _ h1 m).trans h4, h4⟩

theorem foldl_take_spec (l : List (Nat × Nat)) : ∀ c : Core, (∀ m, tabGet (l.foldl (fun c x => c.take x.1 x.2) c).sem m 0 = tabGet c.sem m 0 - entSum l m) ∧
    l.foldl (fun c x => c.take x.1 x.2) c = { c with sem := (l.foldl (fun c x => c.take x.1 x.2) c).sem, pairs := (l.foldl (fun c x => c.take x.1 x.2) c).pairs } := by
  induction l with
  | nil => intro c; exact ⟨fun m => rfl, rfl⟩
  | cons x l ih =>
    intro c
    obtain ⟨h1, h2⟩ := ih (c.take x.1 x.2)
    refine ⟨fun m => ?_, ?_⟩
    · rw [List.foldl_cons, h1, entSum_cons]
      have : tabGet (c.take x.1 x.2).sem m 0 = if m = x.1 then tabGet c.sem x.1 0 - x.2 else tabGet c.sem m 0 := by
        unfold Core.take
        dsimp only
        have : ∀ (f : Nat) (g : Pair → Pair) (y : Core), (y.modPair f g).sem = y.sem := fun _ _ _ => rfl
        split <;> (try rw [this]) <;> (simp only [tabGet_tabSet, Core.semVal]; rcases Decidable.em (x.1 = m) with h | h <;> [(subst h; simp); (rw [if_neg h, if_neg (Ne.symm h)])])
      rw [this]
      by_cases h : m = x.1
      · subst h; simp; omega
      · simp [h, Ne.symm h]
    · rw [List.foldl_cons, h2, Core.take_rest]

theorem foldl_untake_sem (l : List (Nat × Nat)) : ∀ c : Core, (∀ m, tabGet (l.foldl (fun c x => c.untake x.1 x.2) c).sem m 0 = tabGet c.sem m 0 + entSum l m) := by
  induction l with
  | nil => intro c m; rfl
  | cons x l ih =>
    intro c m
    rw [List.foldl_cons, ih, entSum_cons]
    have : tabGet (c.untake x.1 x.2).sem m 0 = if m = x.1 then tabGet c.sem x.1 0 + x.2 else tabGet c.sem m 0 := by
      unfold Core.untake
      dsimp only
      have : ∀ (f : Nat) (g : Pair → Pair) (y : Core), (y.modPair f g).sem = y.sem := fun _ _ _ => rfl
      split <;> (try rw [this]) <;> (simp only [tabGet_tabSet, Core.semVal]; rcases Decidable.em (x.1 = m) with h | h <;> [(subst h; simp); (rw [if_neg h, if_neg (Ne.symm h)])])
    rw [this]
    by_cases h : m = x.1
    · subst h; simp; omega
    · simp [h, Ne.symm h]

/-- What a unit's take leaves of a sequencer's core (R107, R109). -/
theorem State.unitTake_spec (s : State) (d q u : Nat) : (∀ n, (s.unitTake d q u).semv d q n ≤ s.semv d q n) ∧
    (∀ e r, (s.core d q).queue u = e :: r → s.headReady d q u e = true → s.startFaults d q e = false →
      ∀ n, (s.unitTake d q u).semv d q n = s.semv d q n - slotSum e.wait n) ∧
    ((∀ e r, (s.core d q).queue u = e :: r → s.headReady d q u e = false) → s.unitTake d q u = s) := by
  unfold State.unitTake
  cases hq : (s.core d q).queue u with
  | nil => exact ⟨fun n => Nat.le_refl _, fun e r h => (nomatch h), fun _ => rfl⟩
  | cons e r =>
    dsimp only
    have h5 : ∀ n, (s.modCore d q (fun c => (c.takeAll e.wait).reserve u e ((c.borrowFor e).getD []))).semv d q n = s.semv d q n - slotSum e.wait n := fun n => by
      rw [State.semv, State.core_modCore_same]
      show tabGet ((s.core d q).takeAll e.wait).sem n 0 = _
      rw [Core.takeAll, (foldl_take_spec (waitNeed e.wait) (s.core d q)).1, (waitNeed_sum e.wait n).1]; rfl
    split
    · rename_i hx
      refine ⟨fun n => by rw [h5]; exact Nat.sub_le _ _, fun e' r' h _ _ n => ?_, fun hn => ?_⟩
      · cases h; exact h5 n
      · rw [hn e r rfl] at hx; cases hx
    · rename_i hx
      refine ⟨fun n => Nat.le_refl _, fun e' r' h ha hb => ?_, fun _ => rfl⟩
      cases h; rw [ha, hb] at hx; exact absurd rfl hx

/-- A semaphore as the sequencer's take finds it (R109): at most what it holds; that where no head is ready; and less the wait list of the first unit's ready head. -/
theorem State.semLeft_spec (s : State) (d q n : Nat) : s.semLeft d q n ≤ s.semv d q n ∧
    ((∀ u e r, (s.core d q).queue u = e :: r → s.headReady d q u e = false) → s.semLeft d q n = s.semv d q n) ∧
    (∀ u e r, u < 38 → (∀ x < u, (s.core d q).queue x = []) → (s.core d q).queue u = e :: r → s.headReady d q u e = true → s.startFaults d q e = false →
      s.semLeft d q n ≤ s.semv d q n - slotSum e.wait n) := by
  unfold State.semLeft State.unitsTake
  have mono : ∀ (l : List Nat) (s : State), (l.foldl (fun s u => s.unitTake d q u) s).semv d q n ≤ s.semv d q n := by
    intro l
    induction l with
    | nil => exact fun s => Nat.le_refl _
    | cons u l ih => intro s; rw [List.foldl_cons]; exact Nat.le_trans (ih _) ((s.unitTake_spec d q u).1 n)
  have still : ∀ l : List Nat, (∀ u ∈ l, ∀ e r, (s.core d q).queue u = e :: r → s.headReady d q u e = false) → l.foldl (fun s u => s.unitTake d q u) s = s := by
    intro l
    induction l with
    | nil => exact fun _ => rfl
    | cons u l ih =>
      intro hl
      rw [List.foldl_cons, (s.unitTake_spec d q u).2.2 (hl u (List.mem_cons_self ..))]
      exact ih fun y hy => hl y (List.mem_cons_of_mem _ hy)
  refine ⟨mono _ s, fun hn => by rw [still _ fun u _ => hn u], fun u e r hu hx hq hh hf => ?_⟩
  have hr : List.range 38 = List.range u ++ u :: List.range' (u + 1) (37 - u) := by
    rw [List.range_eq_range', List.range_eq_range', ← List.range'_succ (s := u) (n := 37 - u) (step := 1)]
    have : 38 = u + (37 - u + 1) := by omega
    conv => lhs; rw [this]
    rw [← List.range'_append_1]; simp
  rw [hr, List.foldl_append, List.foldl_cons, still _ fun x h e r hq => by rw [hx x (List.mem_range.1 h)] at hq; cases hq]
  exact Nat.le_trans (mono _ _) (Nat.le_of_eq ((s.unitTake_spec d q u).2.1 e r hq hh hf n))

theorem started_of_take (s : State) (d q unit : Nat) (e : QEntry) : Started s d q unit e ((s.modCore d q (fun c => c.takeAll e.wait)).popQueue d q unit) := by
  obtain ⟨h1, h2⟩ := foldl_take_spec (waitNeed e.wait) (s.core d q)
  generalize hc : (waitNeed e.wait).foldl (fun c x => c.take x.1 x.2) (s.core d q) = c1 at h1 h2
  have hs1 : s.modCore d q (fun c => c.takeAll e.wait) = { s with cores := tabSet s.cores (coreKey d q) c1 } := by
    unfold State.modCore Core.takeAll; dsimp only; rw [hc]
  have hsem : ∀ m, tabGet c1.sem m 0 = s.semv d q m - slotSum e.wait m := by
    intro m; rw [h1, (waitNeed_sum e.wait m).1]; rfl
  unfold State.popQueue
  dsimp only
  generalize hs2 : (s.modCore d q (fun c => c.takeAll e.wait)).modCore d q (fun c => { c with queues := tabSet c.queues unit ((c.queue unit).drop 1) }) = s2
  have hq1 : c1.queues = (s.core d q).queues := by rw [h2]
  have hb1 : c1.blocked = (s.core d q).blocked := by rw [h2]
  have hp1 : c1.pc = (s.core d q).pc := by rw [h2]
  have hcore : s2.core d q = { c1 with queues := tabSet c1.queues unit ((c1.queue unit).drop 1) } := by
    rw [← hs2, State.core_modCore_same, State.core_modCore_same]
    simp only [Core.takeAll, hc]
  have hqu : ∀ k, Core.queue { c1 with queues := tabSet c1.queues unit ((c1.queue unit).drop 1) } k = if k = unit then ((s.core d q).queue unit).drop 1 else (s.core d q).queue k := by
    intro k
    simp only [Core.queue, tabGet_tabSet, hq1]
    by_cases hk : unit = k
    · subst hk; simp
    · simp [hk, Ne.symm hk]
  have base : OnlySeq d q s s2 := by
    rw [← hs2]
    exact (State.modCore_only ..).trans (State.modCore_only ..)
  have hblk : (s2.core d q).blocked = (s.core d q).blocked := by rw [hcore]; exact hb1
  have mk : ∀ v : State, OnlySeq d q s v → (v.core d q).sem = c1.sem → v.core d q = { c1 with queues := (v.core d q).queues, blocked := (v.core d q).blocked, pc := (v.core d q).pc } →
      ((∀ x, (s.core d q).blocked ≠ .queueFull unit x) → (v.core d q).queue unit = ((s.core d q).queue unit).drop 1 ∧ (v.core d q).blocked = (s.core d q).blocked ∧ (v.core d q).pc = (s.core d q).pc) →
      (∀ x, (s.core d q).blocked = .queueFull unit x → (v.core d q).queue unit = ((s.core d q).queue unit).drop 1 ++ [s.capture d q x] ∧ (v.core d q).blocked = .none ∧ (v.core d q).pc = (s.core d q).pc + 24) →
      (∀ k, k ≠ unit → (v.core d q).queue k = (s.core d q).queue k) → Started s d q unit e v := by
    intro v h3 h4 h5 h6 h7 h8
    refine ⟨h3.rest, h3.others, h3.regs, h3.mem, ?_, fun m => ?_, h6, h7, h8⟩
    · rw [h5, h2]
    · rw [State.semv, h4]; exact hsem m
  have plain : (∀ x, (s.core d q).blocked ≠ .queueFull unit x) → Started s d q unit e s2 := by
    intro hno
    refine mk s2 base (by rw [hcore]) (by rw [hcore]) (fun _ => ⟨?_, hblk, by rw [hcore]; exact hp1⟩) (fun x hx => absurd hx (hno x)) (fun k hk => ?_)
    · rw [hcore, hqu, if_pos rfl]
    · rw [hcore, hqu, if_neg hk]
  cases hb : (s2.core d q).blocked with
  | queueFull u x =>
    rw [hblk] at hb
    dsimp only
    by_cases hu : u = unit
    · subst hu
      rw [if_pos rfl]
      have hcap : s2.capture d q x = s.capture d q x := by
        have hs : ∀ r, s2.sreg d q r = s.sreg d q r := fun r => by rw [State.sreg, State.sreg, hcore, h2]
        have ht : ∀ r, s2.treg d q r = s.treg d q r := fun r => by rw [State.treg, State.treg, hcore, h2]
        have hd : (s2.core d q).seed = (s.core d q).seed := by rw [hcore, h2]
        simp only [State.capture, hs, ht, hd]
      rw [hcap]
      have hc3 : ((s2.modCore d q (fun c => { c.enqueue u (s.capture d q x) with blocked := .none })).retire d q ((s2.core d q).pc + 24)).core d q =
          { (s2.core d q).enqueue u (s.capture d q x) with blocked := .none, pc := (s2.core d q).pc + 24 } := by
        rw [State.retire_core, State.core_modCore_same]
      refine mk _ (base.trans ((State.modCore_only ..).trans (State.retire_only ..))) ?_ ?_ (fun hno => absurd hb (hno x)) (fun y hy => ?_) (fun k hk => ?_)
      · rw [hc3, hcore]; rfl
      · rw [hc3, hcore]; rfl
      · rw [hb] at hy; cases hy
        rw [hc3, hcore]
        refine ⟨?_, rfl, ?_⟩
        · have := hqu u
          simp only [if_pos] at this
          show tabGet (tabSet _ u _) u [] = _
          rw [tabGet_tabSet_same, this]
        · show c1.pc + 24 = _; rw [hp1]
      · rw [hc3, hcore]
        show tabGet (tabSet _ u _) k [] = _
        rw [tabGet_tabSet_ne _ _ _ (Ne.symm hk)]
        have := hqu k
        rw [if_neg hk] at this
        exact this
    · rw [if_neg hu]
      exact plain (fun y hy => by rw [hb] at hy; cases hy; exact hu rfl)
  | _ =>
    rw [hblk] at hb
    exact plain (fun y hy => by rw [hb] at hy; cases hy)

theorem mem_of_tabGet {t : Tab Nat} {m n : Nat} (h : tabGet t m 0 = n) (h0 : n ≠ 0) : (m, n) ∈ t := by
  induction t with
  | nil => exact absurd h.symm h0
  | cons x t ih =>
    simp only [tabGet] at h
    split at h
    · rename_i hx; obtain ⟨a, b⟩ := x; subst h; subst hx; exact List.mem_cons_self
    · exact List.mem_cons_of_mem _ (ih h)

theorem canStart_sem {s : State} {d q unit : Nat} {e : QEntry} (h : s.canStart d q unit e = true) (m : Nat) : slotSum e.wait m ≤ s.semv d q m := by
  by_cases h0 : slotSum e.wait m = 0
  · omega
  · have h1 := mem_of_tabGet (waitNeed_sum e.wait m).2 h0
    unfold State.canStart at h
    have h := (Bool.and_eq_true _ _ ▸ h).1
    unfold State.headReady at h
    simp only [Bool.and_eq_true] at h
    have := List.all_eq_true.1 h.2 _ h1
    exact of_decide_eq_true this

theorem canStart_short {s : State} {d q unit : Nat} {e : QEntry} {m : Nat} (h : s.semv d q m < slotSum e.wait m) : s.canStart d q unit e = false := by
  cases hc : s.canStart d q unit e with
  | false => rfl
  | true => have := canStart_sem hc m; omega

theorem canStart_busy {s : State} {d q unit : Nat} {e : QEntry} (h : ∃ r ∈ (s.core d q).running, r.1 = unit) : s.canStart d q unit e = false := by
  cases hc : s.canStart d q unit e with
  | false => rfl
  | true =>
    unfold State.canStart at hc
    have hc := (Bool.and_eq_true _ _ ▸ hc).1
    unfold State.headReady at hc
    simp only [Bool.and_eq_true, Bool.not_eq_true'] at hc
    obtain ⟨r, hr, hu⟩ := h
    have h1 := hc.1.1.1.1.1.2
    have : ((s.core d q).running.any (fun r => decide (r.1 = unit))) = true := List.any_eq_true.2 ⟨r, hr, by simpa using hu⟩
    rw [this] at h1; cases h1

/-- The parity errors that a started instruction meets (R128): the replays that REPLAY_MAX leaves, and whether they cover the errors. -/
theorem unitReplays_spec (s : State) (d q unit had par : Nat) : ∃ a, s.unitReplays d q unit had par =
    ((s.replays d q (unitCode q unit) a (min par (s.replayMax d q - had))).used 1, decide (had + par ≤ s.replayMax d q)) := ⟨_, rfl⟩

theorem unitReplays_zero (s : State) (d q unit : Nat) : s.unitReplays d q unit 0 0 = (s.used 1, true) := by
  unfold State.unitReplays
  simp [State.replays]

theorem setAccBit_word (s : State) (f : FRef) (g : Nat) {r : RegId} (h : r ≠ f.reg) : (s.setAccBit f g).word r = s.word r := State.word_wr_ne _ _ (Ne.symm h)

theorem foldl_count_spec (ks : List (FRef × Nat)) : ∀ s : State, (ks.foldl (fun s k => s.count k.1 k.2) s) = { s with regs := (ks.foldl (fun s k => s.count k.1 k.2) s).regs } ∧
    ∀ r, (∀ k ∈ ks, k.1.reg ≠ r) → (ks.foldl (fun s k => s.count k.1 k.2) s).word r = s.word r := by
  induction ks with
  | nil => intro s; exact ⟨rfl, fun _ _ => rfl⟩
  | cons k ks ih =>
    intro s
    obtain ⟨h1, h2⟩ := ih (s.count k.1 k.2)
    refine ⟨?_, fun r hr => ?_⟩
    · rw [List.foldl_cons, h1]; rfl
    · rw [List.foldl_cons, h2 r (fun x hx => hr x (List.mem_cons_of_mem _ hx)), State.word_count_ne _ _ (hr k List.mem_cons_self)]

theorem core_congr_cores {s t : State} (h : t.cores = s.cores) (d q : Nat) : t.core d q = s.core d q := by simp only [State.core, h]

theorem beginRun_spec (v : State) (d q unit : Nat) (e : QEntry) (p : Plan) (n : Nat) (ports : List Nat) :
    ∃ u, Runs v d q unit e p n u ∧ v.beginRun d q unit e p n ports = u.raiseAll p.events := by
  unfold State.beginRun
  dsimp only
  generalize hx : v.modCore d q _ = x
  have hxr : x = { v with cores := x.cores, fresh := x.fresh } := by rw [← hx]; rfl
  have hxw : ∀ r, x.word r = v.word r := fun r => by rw [← hx]; rfl
  have hxo : ∀ k, k ≠ coreKey d q → tabGet x.cores k coreReset = tabGet v.cores k coreReset := by
    intro k hk; rw [← hx]; exact tabGet_tabSet_ne _ _ _ (Ne.symm hk)
  have hxc := (congrArg (fun y : State => y.core d q) hx.symm).trans (State.core_modCore_same ..)
  have key : ∀ y : State, y = { x with regs := y.regs } → (∀ r, r ≠ .ACC_STATUS d q → y.word r = x.word r) →
      Runs v d q unit e p n ((p.counts.foldl (fun s k => s.count k.1 k.2) y).used p.used) := by
    intro y hy1 hy2
    obtain ⟨h1, h2⟩ := foldl_count_spec p.counts y
    generalize p.counts.foldl (fun s k => s.count k.1 k.2) y = z at *
    have hzc : z.cores = x.cores := by rw [h1, hy1]
    have hcore : (z.used p.used).core d q = x.core d q := core_congr_cores hzc d q
    refine ⟨?_, ?_, ?_, ?_, ?_, ?_⟩
    · show z.used p.used = _
      unfold State.used
      rw [h1, hy1, hxr]
    · rw [hcore, hxc]
    · intro g w hg
      rw [hcore, hxc]
      simp only [hg, tabGet_tabSet_same]
    · intro k hk; rw [State.cores_used, hzc]; exact hxo k hk
    · intro m; rw [State.semv, hcore, hxc]; rfl
    · intro r hr ha
      rw [State.word_used, h2 r hr, hy2 r ha, hxw]
  split
  · split
    · exact ⟨_, key (x.setAccBit _ _) rfl (fun r hr => setAccBit_word _ _ _ hr), rfl⟩
    · exact ⟨_, key x rfl (fun _ _ => rfl), rfl⟩
  · exact ⟨_, key x rfl (fun _ _ => rfl), rfl⟩

theorem faulted_modCore {d q num unit pc : Nat} {s t : State} (h : Faulted d q num unit pc s t) (g : Core → Core) : Faulted d q num unit pc s (t.modCore d q g) := by
  obtain ⟨h0, h1, h2, h3, h4, h5, h6⟩ := h
  refine ⟨?_, h1, h2, h3, h4, h5, h6⟩
  unfold State.modCore
  generalize tabSet _ _ _ = z
  rw [h0]

/-- What passing cycles changes, up to some cycle or other. -/
structure Passed (s t : State) : Prop where
  rest : t = { s with regs := t.regs, dies := t.dies, frame := { s.frame with cycle := t.frame.cycle, teamTime := t.frame.teamTime } }
  dies : ∀ d, t.die d = { s.die d with reqs := (t.die d).reqs, arbs := (t.die d).arbs }
  regs : ∀ r, r.whilePassing = false → t.word r = s.word r
  place : ∀ a, t.place a = s.place a

theorem Passed.refl (s : State) : Passed s s := ⟨rfl, fun _ => rfl, fun _ _ => rfl, fun _ => rfl⟩

theorem Passed.trans {s t u : State} (h : Passed s t) (g : Passed t u) : Passed s u :=
  ⟨by rw [g.rest, h.rest], fun d => by rw [g.dies, h.dies], fun r h1 => (g.regs r h1).trans (h.regs r h1), fun a => (g.place a).trans (h.place a)⟩

theorem Passed.byteAt {s t : State} (h : Passed s t) (a : Nat) : t.byteAt a = s.byteAt a := by
  rw [State.byteAt, h.place, h.rest]; rfl

theorem passTo_passed (s : State) (n : Nat) : Passed s (s.passTo n) ∧ (s.passTo n).frame.cycle = max s.frame.cycle n := by
  obtain ⟨h, hp⟩ := s.passTo_passes n
  exact ⟨⟨h.rest, h.dies, fun r hr => h.word r hr, hp⟩, h.cycle⟩

theorem applyWrites_spec (d q : Nat) (ws : List (Nat × Byte)) : ∀ v : State, (v.applyWrites d q ws) = { v with mem := (v.applyWrites d q ws).mem, undef := (v.applyWrites d q ws).undef } ∧ Written d q ws v (v.applyWrites d q ws) := by
  induction ws with
  | nil => intro v; exact ⟨rfl, fun a b o x h => by simp at h, fun _ _ => rfl⟩
  | cons w ws ih =>
    intro v
    obtain ⟨o, b⟩ := w
    rw [State.applyWrites]
    obtain ⟨h1, h2, h3⟩ := ih (v.setByte (coreAddr d q o) b)
    refine ⟨by rw [h1]; rfl, fun a b' o' x hw hl => ?_, fun y hy => ?_⟩
    · cases a with
      | nil =>
        simp only [List.nil_append, List.cons.injEq, Prod.mk.injEq] at hw
        obtain ⟨⟨rfl, rfl⟩, rfl⟩ := hw
        rw [h3 _ (fun w hw => by rw [State.place_setByte]; exact hl w hw), State.byteAt_setByte, if_pos rfl]
      | cons y a =>
        simp only [List.cons_append, List.cons.injEq] at hw
        exact h2 a b' o' x hw.2 (fun w hw => by rw [State.place_setByte]; exact hl w hw)
    · rw [h3 y (fun w hw => by rw [State.place_setByte]; exact hy w (List.mem_cons_of_mem _ hw)), State.byteAt_setByte, if_neg (fun e => hy _ List.mem_cons_self e.symm)]

theorem Written.passed {d q : Nat} {ws : List (Nat × Byte)} {v w u : State} (h : Passed v w) (g : Written d q ws w u) : Written d q ws v u :=
  ⟨fun a b o x hw hl => g.last a b o x hw (fun w hw => by rw [h.place, h.place]; exact hl w hw),
    fun y hy => (g.frame y (fun w hw => by rw [h.place, h.place]; exact hy w hw)).trans (h.byteAt y)⟩

theorem core_congr_tab {s t : State} (h : t.cores = s.cores) (d q : Nat) : t.core d q = s.core d q := by simp only [State.core, h]

theorem setS_rest (s : State) (d q : Nat) (r : BitVec 5) (v : Word) : s.setS d q r v = { s with cores := (s.setS d q r v).cores } := by
  unfold State.setS
  split <;> rfl

theorem takenFor_region (s : State) (rs : List Nat) (r : Nat) :
    (rs.foldl (fun s r => s.modRegion r (fun x => { x with taken := true })) s).region r = if r ∈ rs then { s.region r with taken := true } else s.region r := by
  induction rs generalizing s with
  | nil => rfl
  | cons a rs ih =>
    rw [List.foldl_cons, ih]
    by_cases h : a = r
    · subst h
      have : (s.modRegion a (fun x => { x with taken := true })).region a = { s.region a with taken := true } := by
        simp only [State.region, State.modRegion, tabGet_tabSet_same]
      rw [this]; simp
    · have : (s.modRegion a (fun x => { x with taken := true })).region r = s.region r := by
        simp only [State.region, State.modRegion]; rw [tabGet_tabSet_ne _ _ _ h]
      rw [this]; simp [Ne.symm h]

theorem entryRegs_spec (s : State) (d c : Nat) (e : WorkEntry) (f : Nat) :
    s.entryRegs d c e f = { s with cores := (s.entryRegs d c e f).cores } ∧ (∃ g, (s.entryRegs d c e f).core d c = { s.core d c with s := g }) ∧
    (∀ j, j ≠ coreKey d c → tabGet (s.entryRegs d c e f).cores j coreReset = tabGet s.cores j coreReset) ∧
    ∀ r : BitVec 5, (s.entryRegs d c e f).sreg d c r = if r = 1 then BitVec.ofNat 64 e.first else if r = 2 then BitVec.ofNat 64 e.count
      else if r = 3 then BitVec.ofNat 64 e.arg else if r = 4 then BitVec.ofNat 64 (e.item % 8 + (e.flags % 2) <<< 16 + e.counter <<< 32)
      else if r = 5 then BitVec.ofNat 64 f else s.sreg d c r := by
  refine ⟨rfl, ?_, fun j hj => ?_, fun r => ?_⟩
  · unfold State.entryRegs
    exact ⟨_, by rw [State.setS_core, State.setS_core, State.setS_core, State.setS_core, State.setS_core]⟩
  · have h1 := fun (s : State) (r : BitVec 5) v => (s.setS_only d c r v).others j hj
    simp only [State.entryRegs, h1]
  · unfold State.entryRegs
    simp only [State.sreg_setS]
    revert r; 
    intro r
    have hn : ∀ a b : BitVec 5, r = a → a ≠ b → r ≠ b := fun a b h1 h2 h3 => h2 (h1 ▸ h3)
    by_cases h1 : r = 1
    · subst h1; simp
    by_cases h2 : r = 2
    · subst h2; simp
    by_cases h3 : r = 3
    · subst h3; simp
    by_cases h4 : r = 4
    · subst h4; simp
    by_cases h5 : r = 5
    · subst h5; simp
    · rw [if_neg (fun h => h5 h.1), if_neg (fun h => h4 h.1), if_neg (fun h => h3 h.1), if_neg (fun h => h2 h.1), if_neg (fun h => h1 h.1),
        if_neg h1, if_neg h2, if_neg h3, if_neg h4, if_neg h5]

/-- What ends before an item enters: the takes of its earlier run, and what it parked with (R123, R376). -/
theorem endParked_spec (v : State) (k : Nat) (x : Item) (p : Nat → Bool) :
    ((v.orphanTakes p).endParked k x).items = v.items ∧ ((v.orphanTakes p).endParked k x).regions = v.regions ∧
      ((v.orphanTakes p).endParked k x).frameSeq = v.frameSeq := by
  unfold State.endParked
  split
  · exact ⟨rfl, rfl, rfl⟩
  · rename_i z _
    dsimp only
    have h := State.saturated_noticed (((v.orphanTakes p).modCore (k / 1024) x.runCore (fun c => { c with kept := tabDel c.kept k })).count
      (ACC_STATUS_ABANDONED (k / 1024) x.runCore) (z.groups.filter (fun g => g.2.isOpen)).length) (k / 1024) x.runCore (z.groups.filter (fun g => g.2.isOpen))
    refine ⟨by rw [h.rest]; rfl, by rw [h.rest]; rfl, ?_⟩
    rw [State.frameSeq, State.frameSeq, State.rd_congr (h.regs _ (by simp [FRAME_STATUS_SEQ]))]
    exact State.rd_congr (State.word_count_ne _ _ (by simp [ACC_STATUS_ABANDONED, FRAME_STATUS_SEQ]))

/-- Nothing ends where the item has no take outstanding and was not parked. -/
theorem endParked_plain (v : State) (k : Nat) (x : Item) (hx : x.ctx = none) (ht : ∀ e ∈ v.cores, ∀ t ∈ e.2.takes, t.item ≠ some k) :
    (v.orphanTakes (fun i => decide (i = k))).endParked k x = v := by
  unfold State.endParked
  rw [hx]
  dsimp only
  unfold State.orphanTakes
  have h : v.cores.map (fun e => (e.1, { e.2 with takes := e.2.takes.map (fun t => if t.item.any (fun i => decide (i = k)) then { t with item := none } else t) })) = v.cores := by
    conv_rhs => rw [← List.map_id v.cores]
    refine List.map_congr_left fun e he => ?_
    have : e.2.takes.map (fun t => if t.item.any (fun i => decide (i = k)) then { t with item := none } else t) = e.2.takes := by
      conv_rhs => rw [← List.map_id e.2.takes]
      refine List.map_congr_left fun t ht' => if_neg ?_
      intro ha
      cases hi : t.item with
      | none => rw [hi] at ha; cases ha
      | some i =>
        rw [hi] at ha
        have hk : i = k := of_decide_eq_true (by simpa using ha)
        exact ht e he t ht' (by rw [hi, hk])
    rw [this]
    rfl
  rw [h]

theorem enterItem_spec (u : State) (d rc k : Nat) :
    let x := u.item k
    let f := u.frameSeq
    let v := (u.orphanTakes (fun i => decide (i = k))).endParked k x
    let t := u.enterItem d rc k
    (∃ g, t.core d rc = { v.core d rc with pc := BitVec.ofNat 64 x.entry.entry, s := g, td := [], p := 0, runlen := BitVec.allOnes 64, seed := 0, cur := some k, blocked := .none, groups := (v.core d rc).groups.map (fun g => (g.1, g.2.closed)) }) ∧
        (∀ r : BitVec 5, t.sreg d rc r = if r = 1 then BitVec.ofNat 64 x.entry.first else if r = 2 then BitVec.ofNat 64 x.entry.count else if r = 3 then BitVec.ofNat 64 x.entry.arg
          else if r = 4 then BitVec.ofNat 64 (x.entry.item % 8 + (x.entry.flags % 2) <<< 16 + x.entry.counter <<< 32) else if r = 5 then BitVec.ofNat 64 f else 0) ∧
        t.item k = { x with st := .running, runCore := rc, start := some f, leases := [], retAll := false, due := false, ctx := none } ∧
        (∀ j, j ≠ k → t.item j = v.item j) ∧ (∀ j, j ≠ coreKey d rc → tabGet t.cores j coreReset = tabGet v.cores j coreReset) ∧
        t = { v with cores := t.cores, items := t.items, regions := t.regions } ∧
        (∀ r, t.region r = if x.entry.leased = false ∧ r ∈ x.entry.regions then { v.region r with taken := true } else v.region r) := by
  intro x f v t
  have ht : t = u.enterItem d rc k := rfl
  clear_value t
  obtain ⟨p1, p2, p3⟩ := endParked_spec u k x (fun i => decide (i = k))
  have hvx : v.item k = x := by show tabGet v.items k itemNone = _; rw [show v.items = u.items from p1]; rfl
  have hvf : v.frameSeq = f := p3
  unfold State.enterItem at ht
  dsimp only at ht
  rw [show (u.orphanTakes (fun i => decide (i = k))).endParked k (u.item k) = v from rfl] at ht
  clear_value v
  generalize hw : State.modItem _ k _ = w at ht
  have hwi : w.item k = { x with st := .running, runCore := rc, start := some f, leases := [], retAll := false, due := false, ctx := none } := by
    have hq : ∀ g, State.item (v.modCore d rc g) k = x := fun g => hvx
    rw [← hw, State.item_modItem_same, hq, ← hvf]; rfl
  have hwj : ∀ j, j ≠ k → w.item j = v.item j := fun j hj => by rw [← hw, State.item_modItem_ne _ _ (Ne.symm hj)]; rfl
  have hwc : w.core d rc = { v.core d rc with pc := BitVec.ofNat 64 x.entry.entry, s := [], td := [], p := 0, runlen := BitVec.allOnes 64, seed := 0, cur := some k, blocked := .none, groups := (v.core d rc).groups.map (fun g => (g.1, g.2.closed)) } := by
    rw [← hw, State.core_modItem, State.core_modCore_same]
  have hwo : ∀ j, j ≠ coreKey d rc → tabGet w.cores j coreReset = tabGet v.cores j coreReset := fun j hj => by
    rw [← hw]; exact tabGet_tabSet_ne _ _ _ (Ne.symm hj)
  have hwr : w = { v with cores := w.cores, items := w.items } := by rw [← hw]; rfl
  have hwre : w.regions = v.regions := by rw [hwr]
  have hwf : w.frameSeq = f := by rw [hwr, ← hvf]; rfl
  have hxe : (u.item k).entry = x.entry := rfl
  rw [hxe] at ht
  rw [hwf] at ht
  obtain ⟨y, hy, hyr, hyreg⟩ : ∃ y : State, t = y.entryRegs d rc x.entry f ∧ y = { w with regions := y.regions } ∧
      ∀ r, y.region r = if x.entry.leased = false ∧ r ∈ x.entry.regions then { v.region r with taken := true } else v.region r := by
    refine ⟨_, ht, ?_, fun r => ?_⟩
    · split
      · rfl
      · exact w.takenFor_regions _
    · cases hl : x.entry.leased with
      | true => simp [State.region, hwre]
      | false =>
        simp only [Bool.false_eq_true, if_false, true_and]
        rw [State.takenFor, takenFor_region]
        simp only [State.region, hwre]
  obtain ⟨e1, ⟨g, e2⟩, e3, e4⟩ := entryRegs_spec y d rc x.entry f
  rw [← hy] at e1 e2 e3 e4
  have hyc : y.cores = w.cores := by rw [hyr]
  have hyi : y.items = w.items := by rw [hyr]
  have hcore : y.core d rc = w.core d rc := core_congr_tab hyc d rc
  have hti : ∀ j, t.item j = w.item j := fun j => by rw [e1]; simp only [State.item, hyi]
  refine ⟨⟨g, ?_⟩, fun r => ?_, ?_, fun j hj => ?_, fun j hj => ?_, ?_, fun r => ?_⟩
  · rw [e2, hcore, hwc]
  · rw [e4]
    have : y.sreg d rc r = 0 := by
      unfold State.sreg; rw [hcore, hwc]; split <;> rfl
    rw [this]
  · rw [hti, hwi]
  · rw [hti, hwj j hj]
  · rw [e3 j hj, hyc, hwo j hj]
  · rw [e1, hyr, hwr]
  · have : t.region r = y.region r := by rw [e1]; rfl
    rw [this, hyreg]

theorem abandon_closed (gs : List (Nat × Group)) : ∀ x : Core, (∀ g ∈ gs, (tabGet (gs.foldl (fun (x : Core) g => { x with groups := tabSet x.groups g.1 g.2.closed }) x).groups g.1 groupReset).isOpen = false) ∧
    (∀ j, (tabGet x.groups j groupReset).isOpen = false → (tabGet (gs.foldl (fun (x : Core) g => { x with groups := tabSet x.groups g.1 g.2.closed }) x).groups j groupReset).isOpen = false) ∧
    gs.foldl (fun (x : Core) g => { x with groups := tabSet x.groups g.1 g.2.closed }) x = { x with groups := (gs.foldl (fun (x : Core) g => { x with groups := tabSet x.groups g.1 g.2.closed }) x).groups } := by
  induction gs with
  | nil => intro x; exact ⟨fun g hg => (by cases hg), fun j hj => hj, rfl⟩
  | cons a gs ih =>
    intro x
    obtain ⟨h1, h2, h3⟩ := ih { x with groups := tabSet x.groups a.1 a.2.closed }
    refine ⟨fun g hg => ?_, fun j hj => ?_, ?_⟩
    · rw [List.foldl_cons]
      rcases List.mem_cons.1 hg with rfl | hg
      · exact h2 _ (by dsimp only; rw [tabGet_tabSet_same]; rfl)
      · exact h1 g hg
    · rw [List.foldl_cons]
      refine h2 j ?_
      dsimp only
      by_cases h : a.1 = j
      · rw [h, tabGet_tabSet_same]; rfl
      · rw [tabGet_tabSet_ne _ _ _ h]; exact hj
    · rw [List.foldl_cons, h3]

end Sys2Proof.Machine
end

