-- ==== Sys2Proof/Laws/Held.lean ====
section
/-! SUPPORT. Which operations leave the frame, and which leave the job, as they were. -/

set_option linter.unreachableTactic false
set_option linter.unusedTactic false
set_option linter.unusedVariables false

namespace Sys2Proof.Machine

/-- The registers that hold the state of a frame. -/
def RegId.ofFrame : RegId → Bool
  | .FRAME_STATUS => true
  | _ => false

/-- The frame goes on as it was: its cycle, team time, next tick, next sequence number and hold, and FRAME_STATUS. -/
structure Held (s t : State) : Prop where
  cycle : t.frame.cycle = s.frame.cycle
  time : t.frame.teamTime = s.frame.teamTime
  tick : (t.frame.tickTime, t.frame.nextSeq) = (s.frame.tickTime, s.frame.nextSeq)
  inHold : t.frame.inHold = s.frame.inHold
  regs : ∀ r, r.ofFrame = true → t.word r = s.word r

theorem Held.refl (s : State) : Held s s := ⟨rfl, rfl, rfl, rfl, fun _ _ => rfl⟩
theorem Held.trans {s t u : State} (h : Held s t) (g : Held t u) : Held s u :=
  ⟨g.cycle.trans h.cycle, g.time.trans h.time, g.tick.trans h.tick, g.inHold.trans h.inHold, fun r hr => (g.regs r hr).trans (h.regs r hr)⟩
theorem Held.cut {s0 x : State} {P : Prop} (h1 : Held s0 x) (h2 : Held s0 x → P) : P := h2 h1
theorem Held.foldl {α : Type} {s0 s : State} (f : State → α → State) (l : List α) (h : Held s0 s)
    (hf : ∀ t x, Held s0 t → Held s0 (f t x)) : Held s0 (l.foldl f s) := by
  induction l generalizing s with
  | nil => exact h
  | cons a r ih => exact ih (hf s a h)
theorem Held.lit {s0 t : State} {mem flash : List Host.Cell} {undef : List (Nat × Nat × Nat)} {regs : Assoc Word} {pend armed : Assoc PendW} {cores : Tab Core}
    {items : Tab Item} {posts : List Post} {rlists : Tab (List Nat)} {ctrNext : Tab Nat} {chans : Tab Chan} {dies : Tab Die} {links : Tab Link}
    {ports : Tab Port} {regions : Tab Region} {job : Job} {team : Team} {frame : FrameSt} {lamp : Lamp} {ringHold : List FifoWord}
    {fw : Firmware} {wire : List Out} {fresh : Nat} (h : Held s0 t) (hf : frame.cycle = t.frame.cycle ∧ frame.teamTime = t.frame.teamTime ∧ (frame.tickTime, frame.nextSeq) = (t.frame.tickTime, t.frame.nextSeq) ∧ frame.inHold = t.frame.inHold ∧ regs = t.regs) :
    Held s0 (State.mk t.pending t.fuses mem undef flash regs pend armed cores items posts rlists ctrNext chans dies links ports regions job
      team frame lamp fw ringHold wire fresh) :=
  ⟨hf.1.trans h.cycle, hf.2.1.trans h.time, hf.2.2.1.trans h.tick, hf.2.2.2.1.trans h.inHold, fun r hr => by
    rw [← h.regs r hr]; simp only [State.word, hf.2.2.2.2]⟩
theorem State.setWord_held {s0 s : State} (h : Held s0 s) (r : RegId) (w : Word) (hr : r.ofFrame = false) : Held s0 (s.setWord r w) :=
  h.trans ⟨rfl, rfl, rfl, rfl, fun q hq => State.word_setWord_ne _ _ (fun e => by rw [e, hq] at hr; cases hr)⟩
theorem State.wr_held {s0 s : State} (h : Held s0 s) (f : FRef) (v : Nat) (hr : f.reg.ofFrame = false) : Held s0 (s.wr f v) := State.setWord_held h _ _ hr
theorem State.count_held {s0 s : State} (h : Held s0 s) (f : FRef) (v : Nat) (hr : f.reg.ofFrame = false) : Held s0 (s.count f v) := State.setWord_held h _ _ hr
theorem State.accum_held {s0 s : State} (h : Held s0 s) (f : FRef) (v : Nat) (hr : f.reg.ofFrame = false) : Held s0 (s.accum f v) := State.setWord_held h _ _ hr
theorem Raised.held {s0 s t : State} (h : Held s0 s) (g : Raised s t) : Held s0 t := by
  refine h.trans ⟨?_, ?_, ?_, ?_, fun r hr => g.regs r ?_⟩
  · rw [g.rest]
  · rw [g.rest]
  · rw [g.rest]
  · rw [g.rest]
  · cases r <;> first | rfl | simp [RegId.ofFrame] at hr
theorem State.raise_held {s0 s : State} (h : Held s0 s) (e : Ev) : Held s0 (s.raise e) := Raised.held h (State.raise_raised (.refl s) e)
theorem State.raiseLead_held {s0 s : State} (h : Held s0 s) (a b : Nat) (e : List (Nat × Nat)) : Held s0 (s.raiseLead a b e) := Raised.held h (State.raiseLead_raised (.refl s) a b e)
theorem State.raiseFor_held {s0 s : State} (h : Held s0 s) (d : Nat) (e : Ev) (i : Option Nat) : Held s0 (s.raiseFor d e i) := Raised.held h (State.raiseFor_raised (.refl s) d e i)
theorem State.raiseAll_held {s0 s : State} (h : Held s0 s) (es : List Ev) : Held s0 (s.raiseAll es) := Raised.held h (State.raiseAll_raised (.refl s) es)
theorem State.modCore_held {s0 s : State} (h : Held s0 s) (d q : Nat) (g : Core → Core) : Held s0 (s.modCore d q g) := h.trans ⟨rfl, rfl, rfl, rfl, fun _ _ => rfl⟩
theorem State.modItem_held {s0 s : State} (h : Held s0 s) (k : Nat) (g : Item → Item) : Held s0 (s.modItem k g) := h.trans ⟨rfl, rfl, rfl, rfl, fun _ _ => rfl⟩
theorem State.modChan_held {s0 s : State} (h : Held s0 s) (d n : Nat) (g : Chan → Chan) : Held s0 (s.modChan d n g) := h.trans ⟨rfl, rfl, rfl, rfl, fun _ _ => rfl⟩
theorem State.modDie_held {s0 s : State} (h : Held s0 s) (d : Nat) (g : Die → Die) : Held s0 (s.modDie d g) := h.trans ⟨rfl, rfl, rfl, rfl, fun _ _ => rfl⟩
theorem State.modLink_held {s0 s : State} (h : Held s0 s) (d l : Nat) (g : Link → Link) : Held s0 (s.modLink d l g) := h.trans ⟨rfl, rfl, rfl, rfl, fun _ _ => rfl⟩
theorem State.modPort_held {s0 s : State} (h : Held s0 s) (d p : Nat) (g : Port → Port) : Held s0 (s.modPort d p g) := h.trans ⟨rfl, rfl, rfl, rfl, fun _ _ => rfl⟩
theorem State.modRegion_held {s0 s : State} (h : Held s0 s) (r : Nat) (g : Region → Region) : Held s0 (s.modRegion r g) := h.trans ⟨rfl, rfl, rfl, rfl, fun _ _ => rfl⟩
theorem State.send_held {s0 s : State} (h : Held s0 s) (o : Out) : Held s0 (s.send o) := h.trans ⟨rfl, rfl, rfl, rfl, fun _ _ => rfl⟩
theorem State.used_held {s0 s : State} (h : Held s0 s) (n : Nat) : Held s0 (s.used n) := h.trans ⟨rfl, rfl, rfl, rfl, fun _ _ => rfl⟩
theorem State.setByte_held {s0 s : State} (h : Held s0 s) (a : Nat) (b : Byte) : Held s0 (s.setByte a b) := h.trans ⟨rfl, rfl, rfl, rfl, fun _ _ => rfl⟩
theorem State.zeroRange_held {s0 s : State} (h : Held s0 s) (a n : Nat) : Held s0 (s.zeroRange a n) := h.trans ⟨rfl, rfl, rfl, rfl, fun _ _ => rfl⟩
theorem State.forget_held {s0 s : State} (h : Held s0 s) (a n : Nat) : Held s0 (s.forget a n) := h.trans ⟨rfl, rfl, rfl, rfl, fun _ _ => rfl⟩
theorem State.flashWrite_held {s0 s : State} (h : Held s0 s) (a : Nat) (b : List Byte) : Held s0 (s.flashWrite a b) := h.trans ⟨rfl, rfl, rfl, rfl, fun _ _ => rfl⟩
theorem State.flashErase_held {s0 s : State} (h : Held s0 s) (a n : Nat) : Held s0 (s.flashErase a n) := h.trans ⟨rfl, rfl, rfl, rfl, fun _ _ => rfl⟩

theorem State.enterError_held {s0 s : State} (h : Held s0 s) (d : Nat) (e : Ev) : Held s0 (s.enterError d e) := Raised.held h (State.enterError_raised (.refl s) d e)
theorem State.fenceDie_held {s0 s : State} (h : Held s0 s) (d t x i : Nat) : Held s0 (s.fenceDie d t x i) := Raised.held h (State.fenceDie_raised (.refl s) d t x i)
theorem State.fenceFound_held {s0 s : State} (h : Held s0 s) (d t : Nat) : Held s0 (s.fenceFound d t) := Raised.held h (State.fenceFound_raised (.refl s) d t)
theorem State.saturated_held {s0 s : State} (h : Held s0 s) (d c : Nat) (gs : Tab Group) : Held s0 (s.saturated d c gs) := Raised.held h (State.saturated_raised (.refl s) d c gs)
theorem State.notice_held {s0 s : State} (h : Held s0 s) (d : Nat) (e : Ev) : Held s0 (s.notice d e) := Raised.held h (State.notice_raised (.refl s) d e)
theorem State.haltCore_held {s0 s : State} (h : Held s0 s) (d c : Nat) : Held s0 (s.haltCore d c) := Raised.held h (State.haltCore_raised (.refl s) d c)
theorem State.fifoPush_held {s0 s : State} (h : Held s0 s) (d : Nat) (w : FifoWord) : Held s0 (s.fifoPush d w) := Raised.held h (State.fifoPush_raised (.refl s) d w)
theorem State.moduleLost_held {s0 s : State} (h : Held s0 s) (d i : Nat) : Held s0 (s.moduleLost d i) := Raised.held h (State.moduleLost_raised (.refl s) d i)
theorem State.lampCount_held {s0 s : State} (h : Held s0 s) (i n : Nat) : Held s0 (s.lampCount i n) := Raised.held h (State.lampCount_raised (.refl s) i n)
theorem State.abandonGroups_held {s0 s : State} (h : Held s0 s) (d c : Nat) : Held s0 (s.abandonGroups d c) := Raised.held h (State.abandonGroups_raised (.refl s) d c)
theorem State.setBytes_held {s0 s : State} (h : Held s0 s) (a : Nat) (bs : List Byte) : Held s0 (State.setBytes s a bs) := by
  induction bs generalizing s a with
  | nil =>
    unfold State.setBytes
    repeat' first
      | (exact rfl)
      | (exact ⟨rfl, rfl, rfl, rfl⟩)
      | with_reducible assumption
      | with_reducible apply State.setByte_held
      | split
  | cons x r ih =>
    unfold State.setBytes
    try dsimp -zeta only
    repeat' first
      | (exact rfl)
      | (exact ⟨rfl, rfl, rfl, rfl⟩)
      | with_reducible assumption
      | with_reducible apply ih
      | with_reducible apply State.setByte_held
      | split

theorem State.setP_held {s0 s : State} (h : Held s0 s) (d : Nat) (q : Nat) (r : BitVec 3) (v : Bool) : Held s0 (State.setP s d q r v) := by
  unfold State.setP
  repeat' first
    | (exact rfl)
    | (exact ⟨rfl, rfl, rfl, rfl⟩)
    | with_reducible assumption
    | with_reducible apply State.modCore_held
    | split

theorem State.bypassClose_held {s0 s : State} (h : Held s0 s) (cause : Nat) : Held s0 (State.bypassClose s cause) := by
  unfold State.bypassClose
  repeat' first
    | (exact rfl)
    | (exact ⟨rfl, rfl, rfl, rfl⟩)
    | with_reducible assumption
    | with_reducible apply State.wr_held
    | with_reducible apply State.count_held
    | split

theorem State.setRlist_held {s0 s : State} (h : Held s0 s) (d : Nat) (k : Nat) (l : List Nat) : Held s0 (State.setRlist s d k l) := by
  unfold State.setRlist
  repeat' first
    | (exact rfl)
    | (exact ⟨rfl, rfl, rfl, rfl⟩)
    | with_reducible assumption
    | split
    | with_reducible refine Held.lit ?_ ⟨rfl, rfl, rfl, rfl, rfl⟩

theorem State.toBuddy_held {s0 s : State} (h : Held s0 s) (d : Nat) (o : Nat) (bs : List Byte) : Held s0 (State.toBuddy s d o bs) := by
  unfold State.toBuddy
  repeat' first
    | (exact rfl)
    | (exact ⟨rfl, rfl, rfl, rfl⟩)
    | with_reducible assumption
    | with_reducible apply State.send_held
    | split

theorem State.drain_held {s0 s : State} (h : Held s0 s) (d : Nat) (l : Nat) (fuel : Nat) : Held s0 (State.drain s d l fuel) := by
  induction fuel generalizing s  with
  | zero =>
    unfold State.drain
    repeat' first
      | (exact rfl)
      | (exact ⟨rfl, rfl, rfl, rfl⟩)
      | with_reducible assumption
      | ((try lift_lets -underBinder); first | ((intro z; refine Held.cut (s0 := s0) (x := z) ?_ ?_) <;> [(dsimp -zeta only [z]); (intro hz; try clear_value z)]) | ((intro z; refine Held.cut (s0 := s0) (x := z.1) ?_ ?_) <;> [(dsimp -zeta only [z]); (intro hz; try clear_value z)]) | (intro z; have hz : z.arb = z.arb := rfl; clear hz) | (intro z; try clear_value z))
      | with_reducible apply State.modLink_held
      | with_reducible apply State.send_held
      | split
  | succ n ih =>
    unfold State.drain
    try dsimp -zeta only
    repeat' first
      | (exact rfl)
      | (exact ⟨rfl, rfl, rfl, rfl⟩)
      | with_reducible assumption
      | ((try lift_lets -underBinder); first | ((intro z; refine Held.cut (s0 := s0) (x := z) ?_ ?_) <;> [(dsimp -zeta only [z]); (intro hz; try clear_value z)]) | ((intro z; refine Held.cut (s0 := s0) (x := z.1) ?_ ?_) <;> [(dsimp -zeta only [z]); (intro hz; try clear_value z)]) | (intro z; have hz : z.arb = z.arb := rfl; clear hz) | (intro z; try clear_value z))
      | with_reducible apply ih
      | with_reducible apply State.modLink_held
      | with_reducible apply State.send_held
      | split

theorem State.sendSequenced_held {s0 s : State} (h : Held s0 s) (d : Nat) (l : Nat) (kind : BitVec 4) (payload : List Byte) : Held s0 (State.sendSequenced s d l kind payload) := by
  unfold State.sendSequenced
  repeat' first
    | (exact rfl)
    | (exact ⟨rfl, rfl, rfl, rfl⟩)
    | with_reducible assumption
    | ((try lift_lets -underBinder); first | ((intro z; refine Held.cut (s0 := s0) (x := z) ?_ ?_) <;> [(dsimp -zeta only [z]); (intro hz; try clear_value z)]) | ((intro z; refine Held.cut (s0 := s0) (x := z.1) ?_ ?_) <;> [(dsimp -zeta only [z]); (intro hz; try clear_value z)]) | (intro z; have hz : z.arb = z.arb := rfl; clear hz) | (intro z; try clear_value z))
    | with_reducible apply State.modLink_held
    | with_reducible apply State.drain_held
    | split

theorem State.sendPlain_held {s0 s : State} (h : Held s0 s) (d : Nat) (l : Nat) (kind : BitVec 4) (payload : List Byte) : Held s0 (State.sendPlain s d l kind payload) := by
  unfold State.sendPlain
  repeat' first
    | (exact rfl)
    | (exact ⟨rfl, rfl, rfl, rfl⟩)
    | with_reducible assumption
    | with_reducible apply State.send_held
    | split

theorem State.orphanTakes_held {s0 s : State} (h : Held s0 s) (p : Nat → Bool) : Held s0 (State.orphanTakes s p) := by
  unfold State.orphanTakes
  repeat' first
    | (exact rfl)
    | (exact ⟨rfl, rfl, rfl, rfl⟩)
    | with_reducible assumption
    | split
    | with_reducible refine Held.lit ?_ ⟨rfl, rfl, rfl, rfl, rfl⟩

theorem State.endParked_held {s0 s : State} (h : Held s0 s) (k : Nat) (x : Item) : Held s0 (State.endParked s k x) := by
  unfold State.endParked
  repeat' first
    | (exact rfl)
    | (exact ⟨rfl, rfl, rfl, rfl⟩)
    | with_reducible assumption
    | ((try lift_lets -underBinder); first | ((intro z; refine Held.cut (s0 := s0) (x := z) ?_ ?_) <;> [(dsimp -zeta only [z]); (intro hz; try clear_value z)]) | ((intro z; refine Held.cut (s0 := s0) (x := z.1) ?_ ?_) <;> [(dsimp -zeta only [z]); (intro hz; try clear_value z)]) | (intro z; have hz : z.arb = z.arb := rfl; clear hz) | (intro z; try clear_value z))
    | with_reducible apply State.count_held
    | with_reducible apply State.modCore_held
    | with_reducible apply State.saturated_held
    | split

theorem State.markPrior_held {s0 s : State} (h : Held s0 s) (k : Nat) : Held s0 (State.markPrior s k) := by
  unfold State.markPrior
  repeat' first
    | (exact rfl)
    | (exact ⟨rfl, rfl, rfl, rfl⟩)
    | with_reducible assumption
    | split
    | with_reducible refine Held.lit ?_ ⟨rfl, rfl, rfl, rfl, rfl⟩

theorem State.rerunItem_held {s0 s : State} (h : Held s0 s) (k : Nat) : Held s0 (State.rerunItem s k) := by
  unfold State.rerunItem
  repeat' first
    | (exact rfl)
    | (exact ⟨rfl, rfl, rfl, rfl⟩)
    | with_reducible assumption
    | ((try lift_lets -underBinder); first | ((intro z; refine Held.cut (s0 := s0) (x := z) ?_ ?_) <;> [(dsimp -zeta only [z]); (intro hz; try clear_value z)]) | ((intro z; refine Held.cut (s0 := s0) (x := z.1) ?_ ?_) <;> [(dsimp -zeta only [z]); (intro hz; try clear_value z)]) | (intro z; have hz : z.arb = z.arb := rfl; clear hz) | (intro z; try clear_value z))
    | with_reducible apply State.modCore_held
    | with_reducible apply State.modItem_held
    | with_reducible apply State.markPrior_held
    | with_reducible apply State.overrun_held
    | split

theorem State.markLate_held {s0 s : State} (h : Held s0 s) (k : Nat) (ctr : Nat) : Held s0 (State.markLate s k ctr) := by
  unfold State.markLate
  repeat' first
    | (exact rfl)
    | (exact ⟨rfl, rfl, rfl, rfl⟩)
    | with_reducible assumption
    | split
    | with_reducible refine Held.lit ?_ ⟨rfl, rfl, rfl, rfl, rfl⟩

theorem State.refuseWaiting_held {s0 s : State} (h : Held s0 s) (k : Nat) (ts : List Nat) : Held s0 (State.refuseWaiting s k ts) := by
  unfold State.refuseWaiting
  repeat' first
    | (exact rfl)
    | (exact ⟨rfl, rfl, rfl, rfl⟩)
    | with_reducible assumption
    | ((try lift_lets -underBinder); first | ((intro z; refine Held.cut (s0 := s0) (x := z) ?_ ?_) <;> [(dsimp -zeta only [z]); (intro hz; try clear_value z)]) | ((intro z; refine Held.cut (s0 := s0) (x := z.1) ?_ ?_) <;> [(dsimp -zeta only [z]); (intro hz; try clear_value z)]) | (intro z; have hz : z.arb = z.arb := rfl; clear hz) | (intro z; try clear_value z))
    | with_reducible apply State.accum_held
    | with_reducible apply State.modCore_held
    | with_reducible apply State.setP_held
    | with_reducible apply State.raiseFor_held
    | split

theorem State.abandoned_held {s0 s : State} (h : Held s0 s) (d : Nat) (c : Nat) (ctr : Nat) (ts : List Nat) : Held s0 (State.abandoned s d c ctr ts) := by
  induction ts generalizing s  with
  | nil =>
    unfold State.abandoned
    repeat' first
      | (exact rfl)
      | (exact ⟨rfl, rfl, rfl, rfl⟩)
      | with_reducible assumption
      | with_reducible apply State.raiseFor_held
      | split
  | cons x r ih =>
    unfold State.abandoned
    try dsimp -zeta only
    repeat' first
      | (exact rfl)
      | (exact ⟨rfl, rfl, rfl, rfl⟩)
      | with_reducible assumption
      | with_reducible apply ih
      | with_reducible apply State.raiseFor_held
      | split

theorem State.returnLeases_held {s0 s : State} (h : Held s0 s) (k : Nat) (abandon : Bool) : Held s0 (State.returnLeases s k abandon) := by
  unfold State.returnLeases
  repeat' first
    | (exact rfl)
    | (exact ⟨rfl, rfl, rfl, rfl⟩)
    | with_reducible assumption
    | ((try lift_lets -underBinder); first | ((intro z; refine Held.cut (s0 := s0) (x := z) ?_ ?_) <;> [(dsimp -zeta only [z]); (intro hz; try clear_value z)]) | ((intro z; refine Held.cut (s0 := s0) (x := z.1) ?_ ?_) <;> [(dsimp -zeta only [z]); (intro hz; try clear_value z)]) | (intro z; have hz : z.arb = z.arb := rfl; clear hz) | (intro z; try clear_value z))
    | with_reducible apply State.wr_held
    | with_reducible apply State.count_held
    | with_reducible apply State.modItem_held
    | with_reducible apply State.setRlist_held
    | with_reducible apply State.markLate_held
    | with_reducible apply State.refuseWaiting_held
    | with_reducible apply State.abandoned_held
    | ((with_reducible refine Held.foldl _ _ ?_ (fun z w hz => ?_)); (try beta_reduce))
    | split

theorem State.returnAll_held {s0 s : State} (h : Held s0 s) : Held s0 (State.returnAll s) := by
  unfold State.returnAll
  repeat' first
    | (exact rfl)
    | (exact ⟨rfl, rfl, rfl, rfl⟩)
    | with_reducible assumption
    | with_reducible apply State.returnLeases_held
    | ((with_reducible refine Held.foldl _ _ ?_ (fun z w hz => ?_)); (try beta_reduce))
    | split

theorem State.addCause_held {s0 s : State} (h : Held s0 s) (c : BitVec 5) : Held s0 (s.addCause c) := Held.lit h ⟨rfl, rfl, rfl, rfl, rfl⟩

theorem State.overrun_held {s0 s : State} (h : Held s0 s) (k : Nat) (x : Item) : Held s0 (State.overrun s k x) := by
  unfold State.overrun
  repeat' first
    | (exact rfl)
    | (exact ⟨rfl, rfl, rfl, rfl⟩)
    | with_reducible assumption
    | ((try lift_lets -underBinder); first | ((intro z; refine Held.cut (s0 := s0) (x := z) ?_ ?_) <;> [(dsimp -zeta only [z]); (intro hz; try clear_value z)]) | ((intro z; refine Held.cut (s0 := s0) (x := z.1) ?_ ?_) <;> [(dsimp -zeta only [z]); (intro hz; try clear_value z)]) | (intro z; have hz : z.arb = z.arb := rfl; clear hz) | (intro z; try clear_value z))
    | with_reducible apply State.count_held
    | with_reducible apply State.modItem_held
    | with_reducible apply State.raiseFor_held
    | with_reducible apply State.addCause_held
    | split

theorem State.overrunAll_held {s0 s : State} (h : Held s0 s) : Held s0 (State.overrunAll s) := by
  unfold State.overrunAll
  repeat' first
    | (exact rfl)
    | (exact ⟨rfl, rfl, rfl, rfl⟩)
    | with_reducible assumption
    | with_reducible apply State.overrun_held
    | ((with_reducible refine Held.foldl _ _ ?_ (fun z w hz => ?_)); (try beta_reduce))
    | split

theorem State.takeBack_held {s0 s : State} (h : Held s0 s) (k : Nat) (noList : List Nat) : Held s0 (State.takeBack s k noList) := by
  unfold State.takeBack
  repeat' first
    | (exact rfl)
    | (exact ⟨rfl, rfl, rfl, rfl⟩)
    | with_reducible assumption
    | ((try lift_lets -underBinder); first | ((intro z; refine Held.cut (s0 := s0) (x := z) ?_ ?_) <;> [(dsimp -zeta only [z]); (intro hz; try clear_value z)]) | ((intro z; refine Held.cut (s0 := s0) (x := z.1) ?_ ?_) <;> [(dsimp -zeta only [z]); (intro hz; try clear_value z)]) | (intro z; have hz : z.arb = z.arb := rfl; clear hz) | (intro z; try clear_value z))
    | with_reducible apply State.modItem_held
    | with_reducible apply State.modRegion_held
    | with_reducible apply State.setRlist_held
    | ((with_reducible refine Held.foldl _ _ ?_ (fun z w hz => ?_)); (try beta_reduce))
    | split

theorem State.takeBackAll_held {s0 s : State} (h : Held s0 s) (noList : List Nat) : Held s0 (State.takeBackAll s noList) := by
  unfold State.takeBackAll
  repeat' first
    | (exact rfl)
    | (exact ⟨rfl, rfl, rfl, rfl⟩)
    | with_reducible assumption
    | with_reducible apply State.takeBack_held
    | ((with_reducible refine Held.foldl _ _ ?_ (fun z w hz => ?_)); (try beta_reduce))
    | split

theorem State.rerunAll_held {s0 s : State} (h : Held s0 s) : Held s0 (State.rerunAll s) := by
  unfold State.rerunAll
  repeat' first
    | (exact rfl)
    | (exact ⟨rfl, rfl, rfl, rfl⟩)
    | with_reducible assumption
    | with_reducible apply State.rerunItem_held
    | ((with_reducible refine Held.foldl _ _ ?_ (fun z w hz => ?_)); (try beta_reduce))
    | split

theorem State.armPending_held {s0 s : State} (h : Held s0 s) : Held s0 (State.armPending s) := by
  unfold State.armPending
  repeat' first
    | (exact rfl)
    | (exact ⟨rfl, rfl, rfl, rfl⟩)
    | with_reducible assumption
    | ((with_reducible refine Held.foldl _ _ ?_ (fun z w hz => ?_)); (try beta_reduce))
    | split
    | with_reducible refine Held.lit ?_ ⟨rfl, rfl, rfl, rfl, rfl⟩

theorem State.settleRegions_held {s0 s : State} (h : Held s0 s) : Held s0 (State.settleRegions s) := by
  unfold State.settleRegions
  repeat' first
    | (exact rfl)
    | (exact ⟨rfl, rfl, rfl, rfl⟩)
    | with_reducible assumption
    | split
    | with_reducible refine Held.lit ?_ ⟨rfl, rfl, rfl, rfl, rfl⟩

theorem State.setLine_held {s0 s : State} (h : Held s0 s) : Held s0 (State.setLine s) := by
  unfold State.setLine
  repeat' first
    | (exact rfl)
    | (exact ⟨rfl, rfl, rfl, rfl⟩)
    | with_reducible assumption
    | with_reducible apply State.wr_held
    | split

theorem State.sendCap_held {s0 s : State} (h : Held s0 s) (d : Nat) (l : Nat) (c : CapBlock) : Held s0 (State.sendCap s d l c) := by
  unfold State.sendCap
  repeat' first
    | (exact rfl)
    | (exact ⟨rfl, rfl, rfl, rfl⟩)
    | with_reducible assumption
    | with_reducible apply State.sendPlain_held
    | split

theorem State.startTraining_held {s0 s : State} (h : Held s0 s) (d : Nat) (l : Nat) : Held s0 (State.startTraining s d l) := by
  unfold State.startTraining
  repeat' first
    | (exact rfl)
    | (exact ⟨rfl, rfl, rfl, rfl⟩)
    | with_reducible assumption
    | ((try lift_lets -underBinder); first | ((intro z; refine Held.cut (s0 := s0) (x := z) ?_ ?_) <;> [(dsimp -zeta only [z]); (intro hz; try clear_value z)]) | ((intro z; refine Held.cut (s0 := s0) (x := z.1) ?_ ?_) <;> [(dsimp -zeta only [z]); (intro hz; try clear_value z)]) | (intro z; have hz : z.arb = z.arb := rfl; clear hz) | (intro z; try clear_value z))
    | with_reducible apply State.wr_held
    | with_reducible apply State.modLink_held
    | with_reducible apply State.setLine_held
    | with_reducible apply State.sendCap_held
    | split

theorem State.violate_held {s0 s : State} (h : Held s0 s) (v : Violation) : Held s0 (s.violate v) := by
  unfold State.violate
  dsimp only
  have h1 : ∀ (c : BitVec 5) (x : List (Nat × Nat × Nat)), Held s0 { s with frame := { s.frame with causes := c, violated := x } } :=
    fun _ _ => Held.lit h ⟨rfl, rfl, rfl, rfl, rfl⟩
  repeat' first
    | exact h1 _ _
    | with_reducible apply State.raise_held
    | split

theorem State.decideLink_held {s0 s : State} (h : Held s0 s) (d : Nat) (l : Nat) (a : LinkCounts) (b : LinkCounts) : Held s0 (State.decideLink s d l a b) := by
  unfold State.decideLink
  repeat' first
    | (exact rfl)
    | (exact ⟨rfl, rfl, rfl, rfl⟩)
    | with_reducible assumption
    | with_reducible apply State.modLink_held
    | with_reducible apply State.violate_held
    | ((with_reducible refine Held.foldl _ _ ?_ (fun z w hz => ?_)); (try beta_reduce))
    | split

theorem State.snapLink_held {s0 s : State} (h : Held s0 s) (d : Nat) (l : Nat) : Held s0 (State.snapLink s d l) := by
  unfold State.snapLink
  repeat' first
    | (exact rfl)
    | (exact ⟨rfl, rfl, rfl, rfl⟩)
    | with_reducible assumption
    | ((try lift_lets -underBinder); first | ((intro z; refine Held.cut (s0 := s0) (x := z) ?_ ?_) <;> [(dsimp -zeta only [z]); (intro hz; try clear_value z)]) | ((intro z; refine Held.cut (s0 := s0) (x := z.1) ?_ ?_) <;> [(dsimp -zeta only [z]); (intro hz; try clear_value z)]) | (intro z; have hz : z.arb = z.arb := rfl; clear hz) | (intro z; try clear_value z))
    | with_reducible apply State.modLink_held
    | with_reducible apply State.sendSequenced_held
    | with_reducible apply State.decideLink_held
    | split

theorem State.coachEvent_held {s0 s : State} (h : Held s0 s) (num : Nat) (items : List (Nat × Nat)) : Held s0 (State.coachEvent s num items) := by
  unfold State.coachEvent
  repeat' first
    | (exact rfl)
    | (exact ⟨rfl, rfl, rfl, rfl⟩)
    | with_reducible assumption
    | with_reducible apply State.raiseLead_held
    | split

theorem State.takeSnap_held {s0 s : State} (h : Held s0 s) : Held s0 (State.takeSnap s) := by
  unfold State.takeSnap
  repeat' first
    | (exact rfl)
    | (exact ⟨rfl, rfl, rfl, rfl⟩)
    | with_reducible assumption
    | ((try lift_lets -underBinder); first | ((intro z; refine Held.cut (s0 := s0) (x := z) ?_ ?_) <;> [(dsimp -zeta only [z]); (intro hz; try clear_value z)]) | ((intro z; refine Held.cut (s0 := s0) (x := z.1) ?_ ?_) <;> [(dsimp -zeta only [z]); (intro hz; try clear_value z)]) | (intro z; have hz : z.arb = z.arb := rfl; clear hz) | (intro z; try clear_value z))
    | with_reducible apply State.wr_held
    | split
    | with_reducible refine Held.lit ?_ ⟨rfl, rfl, rfl, rfl, rfl⟩

theorem State.snapIfIdle_held {s0 s : State} (h : Held s0 s) : Held s0 (State.snapIfIdle s) := by
  unfold State.snapIfIdle
  repeat' first
    | (exact rfl)
    | (exact ⟨rfl, rfl, rfl, rfl⟩)
    | with_reducible assumption
    | with_reducible apply State.takeSnap_held
    | split

theorem State.sendCommits_held {s0 s : State} (h : Held s0 s) : Held s0 (State.sendCommits s) := by
  unfold State.sendCommits
  repeat' first
    | (exact rfl)
    | (exact ⟨rfl, rfl, rfl, rfl⟩)
    | with_reducible assumption
    | with_reducible apply State.send_held
    | ((with_reducible refine Held.foldl _ _ ?_ (fun z w hz => ?_)); (try beta_reduce))
    | split

theorem State.loseSpare_held {s0 s : State} (h : Held s0 s) (pos : Nat) : Held s0 (State.loseSpare s pos) := by
  unfold State.loseSpare
  repeat' first
    | (exact rfl)
    | (exact ⟨rfl, rfl, rfl, rfl⟩)
    | with_reducible assumption
    | ((try lift_lets -underBinder); first | ((intro z; refine Held.cut (s0 := s0) (x := z) ?_ ?_) <;> [(dsimp -zeta only [z]); (intro hz; try clear_value z)]) | ((intro z; refine Held.cut (s0 := s0) (x := z.1) ?_ ?_) <;> [(dsimp -zeta only [z]); (intro hz; try clear_value z)]) | (intro z; have hz : z.arb = z.arb := rfl; clear hz) | (intro z; try clear_value z))
    | with_reducible apply State.wr_held
    | split
    | with_reducible refine Held.lit ?_ ⟨rfl, rfl, rfl, rfl, rfl⟩

theorem State.resendMirrors_held {s0 s : State} (h : Held s0 s) (d : Nat) (rs : List Nat) : Held s0 (State.resendMirrors s d rs) := by
  unfold State.resendMirrors
  repeat' first
    | (exact rfl)
    | (exact ⟨rfl, rfl, rfl, rfl⟩)
    | with_reducible assumption
    | ((try lift_lets -underBinder); first | ((intro z; refine Held.cut (s0 := s0) (x := z) ?_ ?_) <;> [(dsimp -zeta only [z]); (intro hz; try clear_value z)]) | ((intro z; refine Held.cut (s0 := s0) (x := z.1) ?_ ?_) <;> [(dsimp -zeta only [z]); (intro hz; try clear_value z)]) | (intro z; have hz : z.arb = z.arb := rfl; clear hz) | (intro z; try clear_value z))
    | with_reducible apply State.toBuddy_held
    | ((with_reducible refine Held.foldl _ _ ?_ (fun z w hz => ?_)); (try beta_reduce))
    | split

theorem State.copyToSpare_held {s0 s : State} (h : Held s0 s) (d : Nat) (pos : Nat) : Held s0 (State.copyToSpare s d pos) := by
  unfold State.copyToSpare
  repeat' first
    | (exact rfl)
    | (exact ⟨rfl, rfl, rfl, rfl⟩)
    | with_reducible assumption
    | ((try lift_lets -underBinder); first | ((intro z; refine Held.cut (s0 := s0) (x := z) ?_ ?_) <;> [(dsimp -zeta only [z]); (intro hz; try clear_value z)]) | ((intro z; refine Held.cut (s0 := s0) (x := z.1) ?_ ?_) <;> [(dsimp -zeta only [z]); (intro hz; try clear_value z)]) | (intro z; have hz : z.arb = z.arb := rfl; clear hz) | (intro z; try clear_value z))
    | with_reducible apply State.send_held
    | ((with_reducible refine Held.foldl _ _ ?_ (fun z w hz => ?_)); (try beta_reduce))
    | split

theorem State.sendRestore_held {s0 s : State} (h : Held s0 s) (pos : Nat) : Held s0 (State.sendRestore s pos) := by
  unfold State.sendRestore
  repeat' first
    | (exact rfl)
    | (exact ⟨rfl, rfl, rfl, rfl⟩)
    | with_reducible assumption
    | ((try lift_lets -underBinder); first | ((intro z; refine Held.cut (s0 := s0) (x := z) ?_ ?_) <;> [(dsimp -zeta only [z]); (intro hz; try clear_value z)]) | ((intro z; refine Held.cut (s0 := s0) (x := z.1) ?_ ?_) <;> [(dsimp -zeta only [z]); (intro hz; try clear_value z)]) | (intro z; have hz : z.arb = z.arb := rfl; clear hz) | (intro z; try clear_value z))
    | with_reducible apply State.resendMirrors_held
    | with_reducible apply State.copyToSpare_held
    | ((with_reducible refine Held.foldl _ _ ?_ (fun z w hz => ?_)); (try beta_reduce))
    | split
    | with_reducible refine Held.lit ?_ ⟨rfl, rfl, rfl, rfl, rfl⟩

theorem State.remap_held {s0 s : State} (h : Held s0 s) (pos : Nat) (trigger : Nat) : Held s0 (State.remap s pos trigger) := by
  unfold State.remap
  repeat' first
    | (exact rfl)
    | (exact ⟨rfl, rfl, rfl, rfl⟩)
    | with_reducible assumption
    | ((try lift_lets -underBinder); first | ((intro z; refine Held.cut (s0 := s0) (x := z) ?_ ?_) <;> [(dsimp -zeta only [z]); (intro hz; try clear_value z)]) | ((intro z; refine Held.cut (s0 := s0) (x := z.1) ?_ ?_) <;> [(dsimp -zeta only [z]); (intro hz; try clear_value z)]) | (intro z; have hz : z.arb = z.arb := rfl; clear hz) | (intro z; try clear_value z))
    | with_reducible apply State.wr_held
    | with_reducible apply State.send_held
    | with_reducible apply State.coachEvent_held
    | with_reducible apply State.loseSpare_held
    | with_reducible apply State.sendRestore_held
    | split
    | with_reducible refine Held.lit ?_ ⟨rfl, rfl, rfl, rfl, rfl⟩

theorem State.ringRetrains_held {s0 s : State} (h : Held s0 s) : Held s0 (State.ringRetrains s) := by
  unfold State.ringRetrains
  repeat' first
    | (exact rfl)
    | (exact ⟨rfl, rfl, rfl, rfl⟩)
    | with_reducible assumption
    | with_reducible apply State.startTraining_held
    | ((with_reducible refine Held.foldl _ _ ?_ (fun z w hz => ?_)); (try beta_reduce))
    | split

theorem State.closeBypass_held {s0 s : State} (h : Held s0 s) (cause : Nat) : Held s0 (State.closeBypass s cause) := by
  unfold State.closeBypass
  repeat' first
    | (exact rfl)
    | (exact ⟨rfl, rfl, rfl, rfl⟩)
    | with_reducible assumption
    | with_reducible apply State.bypassClose_held
    | with_reducible apply State.ringRetrains_held
    | split

theorem State.openBypass_held {s0 s : State} (h : Held s0 s) : Held s0 (State.openBypass s) := by
  unfold State.openBypass
  repeat' first
    | (exact rfl)
    | (exact ⟨rfl, rfl, rfl, rfl⟩)
    | with_reducible assumption
    | with_reducible apply State.wr_held
    | with_reducible apply State.ringRetrains_held
    | split

theorem State.loseAll_held {s0 s : State} (h : Held s0 s) (ps : List (Nat × Nat)) : Held s0 (State.loseAll s ps) := by
  unfold State.loseAll
  repeat' first
    | (exact rfl)
    | (exact ⟨rfl, rfl, rfl, rfl⟩)
    | with_reducible assumption
    | with_reducible apply State.remap_held
    | ((with_reducible refine Held.foldl _ _ ?_ (fun z w hz => ?_)); (try beta_reduce))
    | split

theorem State.modFrame_held {s0 s : State} (h : Held s0 s) (f : FrameSt → FrameSt) (hf : ∀ x, (f x).cycle = x.cycle ∧ (f x).teamTime = x.teamTime ∧ ((f x).tickTime, (f x).nextSeq) = (x.tickTime, x.nextSeq) ∧ (f x).inHold = x.inHold) : Held s0 (s.modFrame f) :=
  Held.lit h ⟨(hf _).1, (hf _).2.1, (hf _).2.2.1, (hf _).2.2.2, rfl⟩

theorem State.modTeam_held {s0 s : State} (h : Held s0 s) (f : Team → Team) : Held s0 (State.modTeam s f) := by
  unfold State.modTeam
  repeat' first
    | (exact rfl)
    | (exact ⟨rfl, rfl, rfl, rfl⟩)
    | with_reducible assumption
    | split
    | with_reducible refine Held.lit ?_ ⟨rfl, rfl, rfl, rfl, rfl⟩

theorem State.streamMiss_held {s0 s : State} (h : Held s0 s) (d : Nat) (e : StreamEntry) : Held s0 (State.streamMiss s d e) := by
  unfold State.streamMiss
  repeat' first
    | (exact rfl)
    | (exact ⟨rfl, rfl, rfl, rfl⟩)
    | with_reducible assumption
    | ((try lift_lets -underBinder); first | ((intro z; refine Held.cut (s0 := s0) (x := z) ?_ ?_) <;> [(dsimp -zeta only [z]); (intro hz; try clear_value z)]) | ((intro z; refine Held.cut (s0 := s0) (x := z.1) ?_ ?_) <;> [(dsimp -zeta only [z]); (intro hz; try clear_value z)]) | (intro z; have hz : z.arb = z.arb := rfl; clear hz) | (intro z; try clear_value z))
    | with_reducible apply State.count_held
    | with_reducible apply State.raise_held
    | split

theorem State.closeDeadlines_held {s0 s : State} (h : Held s0 s) (d : Nat) : Held s0 (State.closeDeadlines s d) := by
  unfold State.closeDeadlines
  repeat' first
    | (exact rfl)
    | (exact ⟨rfl, rfl, rfl, rfl⟩)
    | with_reducible assumption
    | ((try lift_lets -underBinder); first | ((intro z; refine Held.cut (s0 := s0) (x := z) ?_ ?_) <;> [(dsimp -zeta only [z]); (intro hz; try clear_value z)]) | ((intro z; refine Held.cut (s0 := s0) (x := z.1) ?_ ?_) <;> [(dsimp -zeta only [z]); (intro hz; try clear_value z)]) | (intro z; have hz : z.arb = z.arb := rfl; clear hz) | (intro z; try clear_value z))
    | with_reducible apply State.modChan_held
    | with_reducible apply State.streamMiss_held
    | ((with_reducible refine Held.foldl _ _ ?_ (fun z w hz => ?_)); (try beta_reduce))
    | split

theorem State.counterTick_held {s0 s : State} (h : Held s0 s) (d : Nat) (k : Nat) : Held s0 (State.counterTick s d k) := by
  unfold State.counterTick
  repeat' first
    | (exact rfl)
    | (exact ⟨rfl, rfl, rfl, rfl⟩)
    | with_reducible assumption
    | with_reducible apply State.wr_held
    | split

theorem State.timetableLate_held {s0 s : State} (h : Held s0 s) (d : Nat) : Held s0 (State.timetableLate s d) := by
  unfold State.timetableLate
  repeat' first
    | (exact rfl)
    | (exact ⟨rfl, rfl, rfl, rfl⟩)
    | with_reducible assumption
    | with_reducible apply State.raise_held
    | split

theorem State.tickEnds_held {s0 s : State} (h : Held s0 s) : Held s0 (State.tickEnds s) := by
  unfold State.tickEnds
  repeat' first
    | (exact rfl)
    | (exact ⟨rfl, rfl, rfl, rfl⟩)
    | with_reducible assumption
    | ((try lift_lets -underBinder); first | ((intro z; refine Held.cut (s0 := s0) (x := z) ?_ ?_) <;> [(dsimp -zeta only [z]); (intro hz; try clear_value z)]) | ((intro z; refine Held.cut (s0 := s0) (x := z.1) ?_ ?_) <;> [(dsimp -zeta only [z]); (intro hz; try clear_value z)]) | (intro z; have hz : z.arb = z.arb := rfl; clear hz) | (intro z; try clear_value z))
    | with_reducible apply State.returnAll_held
    | with_reducible apply State.overrunAll_held
    | with_reducible apply State.settleRegions_held
    | with_reducible apply State.snapIfIdle_held
    | with_reducible apply State.modFrame_held
    | with_reducible apply State.closeDeadlines_held
    | ((with_reducible refine Held.foldl _ _ ?_ (fun z w hz => ?_)); (try beta_reduce))
    | split
    | with_reducible refine Held.lit ?_ ⟨rfl, rfl, rfl, rfl, rfl⟩

theorem State.portsTick_held {s0 s : State} (h : Held s0 s) : Held s0 (State.portsTick s) := by
  unfold State.portsTick
  repeat' first
    | (exact rfl)
    | (exact ⟨rfl, rfl, rfl, rfl⟩)
    | with_reducible assumption
    | split
    | with_reducible refine Held.lit ?_ ⟨rfl, rfl, rfl, rfl, rfl⟩

theorem State.tickChecks_held {s0 s : State} (h : Held s0 s) (vs : List Violation) (absent : List Nat) : Held s0 (State.tickChecks s vs absent) := by
  unfold State.tickChecks
  repeat' first
    | (exact rfl)
    | (exact ⟨rfl, rfl, rfl, rfl⟩)
    | with_reducible assumption
    | ((try lift_lets -underBinder); first | ((intro z; refine Held.cut (s0 := s0) (x := z) ?_ ?_) <;> [(dsimp -zeta only [z]); (intro hz; try clear_value z)]) | ((intro z; refine Held.cut (s0 := s0) (x := z.1) ?_ ?_) <;> [(dsimp -zeta only [z]); (intro hz; try clear_value z)]) | (intro z; have hz : z.arb = z.arb := rfl; clear hz) | (intro z; try clear_value z))
    | with_reducible apply State.modDie_held
    | with_reducible apply State.fenceFound_held
    | with_reducible apply State.violate_held
    | with_reducible apply State.snapLink_held
    | with_reducible apply State.counterTick_held
    | with_reducible apply State.timetableLate_held
    | with_reducible apply State.portsTick_held
    | ((with_reducible refine Held.foldl _ _ ?_ (fun z w hz => ?_)); (try beta_reduce))
    | split

theorem State.tickDuties_held {s0 s : State} (h : Held s0 s) : Held s0 (State.tickDuties s) := by
  unfold State.tickDuties
  repeat' first
    | (exact rfl)
    | (exact ⟨rfl, rfl, rfl, rfl⟩)
    | with_reducible assumption
    | ((try lift_lets -underBinder); first | ((intro z; refine Held.cut (s0 := s0) (x := z) ?_ ?_) <;> [(dsimp -zeta only [z]); (intro hz; try clear_value z)]) | ((intro z; refine Held.cut (s0 := s0) (x := z.1) ?_ ?_) <;> [(dsimp -zeta only [z]); (intro hz; try clear_value z)]) | (intro z; have hz : z.arb = z.arb := rfl; clear hz) | (intro z; try clear_value z))
    | with_reducible apply State.armPending_held
    | with_reducible apply State.sendCommits_held
    | with_reducible apply State.openBypass_held
    | with_reducible apply State.modTeam_held
    | split

theorem State.newItem_held {s0 s : State} (h : Held s0 s) (d : Nat) (e : WorkEntry) : Held s0 (State.newItem s d e) := by
  unfold State.newItem
  repeat' first
    | (exact rfl)
    | (exact ⟨rfl, rfl, rfl, rfl⟩)
    | with_reducible assumption
    | ((try lift_lets -underBinder); first | ((intro z; refine Held.cut (s0 := s0) (x := z) ?_ ?_) <;> [(dsimp -zeta only [z]); (intro hz; try clear_value z)]) | ((intro z; refine Held.cut (s0 := s0) (x := z.1) ?_ ?_) <;> [(dsimp -zeta only [z]); (intro hz; try clear_value z)]) | (intro z; have hz : z.arb = z.arb := rfl; clear hz) | (intro z; try clear_value z))
    | with_reducible apply State.modRegion_held
    | with_reducible apply State.overrun_held
    | ((with_reducible refine Held.foldl _ _ ?_ (fun z w hz => ?_)); (try beta_reduce))
    | split
    | with_reducible refine Held.lit ?_ ⟨rfl, rfl, rfl, rfl, rfl⟩

theorem State.clearItems_held {s0 s : State} (h : Held s0 s) (d : Nat) (es : List WorkEntry) : Held s0 (State.clearItems s d es) := by
  unfold State.clearItems
  repeat' first
    | (exact rfl)
    | (exact ⟨rfl, rfl, rfl, rfl⟩)
    | with_reducible assumption
    | ((try lift_lets -underBinder); first | ((intro z; refine Held.cut (s0 := s0) (x := z) ?_ ?_) <;> [(dsimp -zeta only [z]); (intro hz; try clear_value z)]) | ((intro z; refine Held.cut (s0 := s0) (x := z.1) ?_ ?_) <;> [(dsimp -zeta only [z]); (intro hz; try clear_value z)]) | (intro z; have hz : z.arb = z.arb := rfl; clear hz) | (intro z; try clear_value z))
    | with_reducible apply State.modCore_held
    | with_reducible apply State.orphanTakes_held
    | with_reducible apply State.endParked_held
    | ((with_reducible refine Held.foldl _ _ ?_ (fun z w hz => ?_)); (try beta_reduce))
    | split
    | with_reducible refine Held.lit ?_ ⟨rfl, rfl, rfl, rfl, rfl⟩

theorem State.applyTimetable_held {s0 s : State} (h : Held s0 s) (d : Nat) : Held s0 (State.applyTimetable s d) := by
  unfold State.applyTimetable
  repeat' first
    | (exact rfl)
    | (exact ⟨rfl, rfl, rfl, rfl⟩)
    | with_reducible assumption
    | ((try lift_lets -underBinder); first | ((intro z; refine Held.cut (s0 := s0) (x := z) ?_ ?_) <;> [(dsimp -zeta only [z]); (intro hz; try clear_value z)]) | ((intro z; refine Held.cut (s0 := s0) (x := z.1) ?_ ?_) <;> [(dsimp -zeta only [z]); (intro hz; try clear_value z)]) | (intro z; have hz : z.arb = z.arb := rfl; clear hz) | (intro z; try clear_value z))
    | with_reducible apply State.wr_held
    | with_reducible apply State.setBytes_held
    | with_reducible apply State.newItem_held
    | with_reducible apply State.clearItems_held
    | ((with_reducible refine Held.foldl _ _ ?_ (fun z w hz => ?_)); (try beta_reduce))
    | split

theorem State.applyLost_held {s0 s : State} (h : Held s0 s) (lost : List Nat) : Held s0 (State.applyLost s lost) := by
  unfold State.applyLost
  repeat' first
    | (exact rfl)
    | (exact ⟨rfl, rfl, rfl, rfl⟩)
    | with_reducible assumption
    | ((try lift_lets -underBinder); first | ((intro z; refine Held.cut (s0 := s0) (x := z) ?_ ?_) <;> [(dsimp -zeta only [z]); (intro hz; try clear_value z)]) | ((intro z; refine Held.cut (s0 := s0) (x := z.1) ?_ ?_) <;> [(dsimp -zeta only [z]); (intro hz; try clear_value z)]) | (intro z; have hz : z.arb = z.arb := rfl; clear hz) | (intro z; try clear_value z))
    | with_reducible apply State.wr_held
    | with_reducible apply State.coachEvent_held
    | with_reducible apply State.closeBypass_held
    | with_reducible apply State.loseAll_held
    | split


/-- The registers that pickup writes. -/
def RegId.ofJob : RegId → Bool
  | .FRAME_STATUS => true
  | .FRAME_CFG => true
  | .JOB_STATUS => true
  | .JOB_SUBMIT => true
  | .MODULE_STATUS => true
  | _ => false
/-- The job stands as it was: its items, its regions, and the registers that pickup writes. -/
structure HeldJ (s t : State) : Prop where
  items : t.items = s.items
  regions : t.regions = s.regions
  job : t.job = s.job
  regs : ∀ r, r.ofJob = true → t.word r = s.word r
theorem HeldJ.refl (s : State) : HeldJ s s := ⟨rfl, rfl, rfl, fun _ _ => rfl⟩
theorem HeldJ.trans {s t u : State} (h : HeldJ s t) (g : HeldJ t u) : HeldJ s u :=
  ⟨g.items.trans h.items, g.regions.trans h.regions, g.job.trans h.job, fun r hr => (g.regs r hr).trans (h.regs r hr)⟩
theorem HeldJ.cut {s0 x : State} {P : Prop} (h1 : HeldJ s0 x) (h2 : HeldJ s0 x → P) : P := h2 h1
theorem HeldJ.foldl {α : Type} {s0 s : State} (f : State → α → State) (l : List α) (h : HeldJ s0 s)
    (hf : ∀ t x, HeldJ s0 t → HeldJ s0 (f t x)) : HeldJ s0 (l.foldl f s) := by
  induction l generalizing s with
  | nil => exact h
  | cons a r ih => exact ih (hf s a h)
theorem HeldJ.lit {s0 t : State} {mem flash : List Host.Cell} {undef : List (Nat × Nat × Nat)} {pend armed : Assoc PendW} {cores : Tab Core}
    {posts : List Post} {rlists : Tab (List Nat)} {ctrNext : Tab Nat} {chans : Tab Chan} {dies : Tab Die} {links : Tab Link}
    {ports : Tab Port} {team : Team} {frame : FrameSt} {lamp : Lamp} {ringHold : List FifoWord}
    {fw : Firmware} {wire : List Out} {fresh : Nat} (h : HeldJ s0 t) :
    HeldJ s0 (State.mk t.pending t.fuses mem undef flash t.regs pend armed cores t.items posts rlists ctrNext chans dies links ports t.regions t.job
      team frame lamp fw ringHold wire fresh) :=
  ⟨h.items, h.regions, h.job, h.regs⟩
theorem State.setWord_heldj {s0 s : State} (h : HeldJ s0 s) (r : RegId) (w : Word) (hr : r.ofJob = false) : HeldJ s0 (s.setWord r w) :=
  h.trans ⟨rfl, rfl, rfl, fun q hq => State.word_setWord_ne _ _ (fun e => by rw [e, hq] at hr; cases hr)⟩
theorem State.wr_heldj {s0 s : State} (h : HeldJ s0 s) (f : FRef) (v : Nat) (hr : f.reg.ofJob = false) : HeldJ s0 (s.wr f v) := State.setWord_heldj h _ _ hr
theorem State.modDie_heldj {s0 s : State} (h : HeldJ s0 s) (d : Nat) (g : Die → Die) : HeldJ s0 (s.modDie d g) := h.trans ⟨rfl, rfl, rfl, fun _ _ => rfl⟩
theorem State.send_heldj {s0 s : State} (h : HeldJ s0 s) (o : Out) : HeldJ s0 (s.send o) := h.trans ⟨rfl, rfl, rfl, fun _ _ => rfl⟩
theorem State.used_heldj {s0 s : State} (h : HeldJ s0 s) (n : Nat) : HeldJ s0 (s.used n) := h.trans ⟨rfl, rfl, rfl, fun _ _ => rfl⟩
theorem State.setByte_heldj {s0 s : State} (h : HeldJ s0 s) (a : Nat) (b : Byte) : HeldJ s0 (s.setByte a b) := h.trans ⟨rfl, rfl, rfl, fun _ _ => rfl⟩
theorem State.setBytes_heldj {s0 s : State} (h : HeldJ s0 s) (a : Nat) (bs : List Byte) : HeldJ s0 (State.setBytes s a bs) := by
  induction bs generalizing s a with
  | nil =>
    unfold State.setBytes
    repeat' first
      | ((with_reducible show RegId.ofJob _ = false); exact rfl)
      | with_reducible assumption
      | with_reducible apply State.setByte_heldj
      | split
  | cons x r ih =>
    unfold State.setBytes
    try dsimp -zeta only
    repeat' first
      | ((with_reducible show RegId.ofJob _ = false); exact rfl)
      | with_reducible assumption
      | with_reducible apply ih
      | with_reducible apply State.setByte_heldj
      | split

theorem State.pendWrite_heldj {s0 s : State} (h : HeldJ s0 s) (r : RegId) (p : PendW) : HeldJ s0 (State.pendWrite s r p) := by
  unfold State.pendWrite
  repeat' first
    | ((with_reducible show RegId.ofJob _ = false); exact rfl)
    | with_reducible assumption
    | split
    | with_reducible refine HeldJ.lit ?_

theorem State.pendField_heldj {s0 s : State} (h : HeldJ s0 s) (f : FRef) (v : Nat) : HeldJ s0 (State.pendField s f v) := by
  unfold State.pendField
  repeat' first
    | ((with_reducible show RegId.ofJob _ = false); exact rfl)
    | with_reducible assumption
    | with_reducible apply State.pendWrite_heldj
    | split

theorem State.extendRaw_heldj {s0 s : State} (h : HeldJ s0 s) (i : Nat) (v : List Byte) : HeldJ s0 (State.extendRaw s i v) := by
  unfold State.extendRaw
  repeat' first
    | ((with_reducible show RegId.ofJob _ = false); exact rfl)
    | with_reducible assumption
    | ((try lift_lets -underBinder); first | ((intro z; refine HeldJ.cut (s0 := s0) (x := z) ?_ ?_) <;> [(dsimp -zeta only [z]); (intro hz; try clear_value z)]) | ((intro z; refine HeldJ.cut (s0 := s0) (x := z.1) ?_ ?_) <;> [(dsimp -zeta only [z]); (intro hz; try clear_value z)]) | (intro z; have hz : z.arb = z.arb := rfl; clear hz) | (intro z; try clear_value z))
    | split
    | with_reducible refine HeldJ.lit ?_

theorem State.extend_heldj {s0 s : State} (h : HeldJ s0 s) (i : Nat) (item : List Byte) : HeldJ s0 (State.extend s i item) := by
  unfold State.extend
  repeat' first
    | ((with_reducible show RegId.ofJob _ = false); exact rfl)
    | with_reducible assumption
    | with_reducible apply State.extendRaw_heldj
    | split

theorem State.armCounters_heldj {s0 s : State} (h : HeldJ s0 s) (m : Manifest) : HeldJ s0 (State.armCounters s m) := by
  unfold State.armCounters
  repeat' first
    | ((with_reducible show RegId.ofJob _ = false); exact rfl)
    | with_reducible assumption
    | ((try lift_lets -underBinder); first | ((intro z; refine HeldJ.cut (s0 := s0) (x := z) ?_ ?_) <;> [(dsimp -zeta only [z]); (intro hz; try clear_value z)]) | ((intro z; refine HeldJ.cut (s0 := s0) (x := z.1) ?_ ?_) <;> [(dsimp -zeta only [z]); (intro hz; try clear_value z)]) | (intro z; have hz : z.arb = z.arb := rfl; clear hz) | (intro z; try clear_value z))
    | with_reducible apply State.count_heldj
    | with_reducible apply State.pendField_heldj
    | ((with_reducible refine HeldJ.foldl _ _ ?_ (fun z w hz => ?_)); (try beta_reduce))
    | split

theorem State.copyProgram_heldj {s0 s : State} (h : HeldJ s0 s) (m : Manifest) : HeldJ s0 (State.copyProgram s m) := by
  unfold State.copyProgram
  repeat' first
    | ((with_reducible show RegId.ofJob _ = false); exact rfl)
    | with_reducible assumption
    | ((try lift_lets -underBinder); first | ((intro z; refine HeldJ.cut (s0 := s0) (x := z) ?_ ?_) <;> [(dsimp -zeta only [z]); (intro hz; try clear_value z)]) | ((intro z; refine HeldJ.cut (s0 := s0) (x := z.1) ?_ ?_) <;> [(dsimp -zeta only [z]); (intro hz; try clear_value z)]) | (intro z; have hz : z.arb = z.arb := rfl; clear hz) | (intro z; try clear_value z))
    | with_reducible apply State.count_heldj
    | with_reducible apply State.setBytes_heldj
    | ((with_reducible refine HeldJ.foldl _ _ ?_ (fun z w hz => ?_)); (try beta_reduce))
    | split

theorem State.toBuddy_heldj {s0 s : State} (h : HeldJ s0 s) (d o : Nat) (bs : List Byte) : HeldJ s0 (s.toBuddy d o bs) := State.send_heldj h _

theorem State.copyMirrors_heldj {s0 s : State} (h : HeldJ s0 s) (d : Nat) : HeldJ s0 (State.copyMirrors s d) := by
  unfold State.copyMirrors
  repeat' first
    | ((with_reducible show RegId.ofJob _ = false); exact rfl)
    | with_reducible assumption
    | ((try lift_lets -underBinder); first | ((intro z; refine HeldJ.cut (s0 := s0) (x := z) ?_ ?_) <;> [(dsimp -zeta only [z]); (intro hz; try clear_value z)]) | ((intro z; refine HeldJ.cut (s0 := s0) (x := z.1) ?_ ?_) <;> [(dsimp -zeta only [z]); (intro hz; try clear_value z)]) | (intro z; have hz : z.arb = z.arb := rfl; clear hz) | (intro z; try clear_value z))
    | with_reducible apply State.wr_heldj
    | with_reducible apply State.send_heldj
    | with_reducible apply State.toBuddy_heldj
    | ((with_reducible refine HeldJ.foldl _ _ ?_ (fun z w hz => ?_)); (try beta_reduce))
    | split



end Sys2Proof.Machine
end

