-- ==== Sys2Proof/Laws/Frames.lean ====
section
/-! SUPPORT. Lemmas of ticks, verdicts, pickup and the checks of a Timetable. -/

set_option linter.unusedSimpArgs false
set_option linter.unusedVariables false

namespace Sys2Proof.Machine

theorem cause_bit (p : Prop) [Decidable p] (k i : Nat) (hk : k < 5) : (if p then BitVec.ofNat 5 (2 ^ k) else 0).getLsbD i = true ↔ p ∧ i = k := by
  by_cases h : p
  rotate_left
  · simp [h]
  · simp only [h, if_true, true_and, BitVec.getLsbD_ofNat, Nat.testBit_two_pow]
    constructor
    · intro h; simp at h; omega
    · rintro rfl; simp [hk]

theorem tickCauses_bit (c : State) (i : Nat) : c.tickCauses.getLsbD i = true ↔
        (i = 0 ∧ ∃ e ∈ c.items, e.2.overrun = true ∧ e.2.incomplete = true) ∨ (i = 1 ∧ ∃ e ∈ c.regions, e.2.withheld = true ∧ e.2.waived = false) ∨
        (i = 2 ∧ (c.frame.violated ≠ [] ∨ c.frame.split = true ∨ ∃ d ∈ c.upDies, c.closesInFailure d = true)) ∨
        (i = 3 ∧ (c.timetableDue = true ∨ c.rd JOB_STATUS_STATE = 3) ∧ ∃ d ∈ c.upDies, c.rd (TT_CTRL_VALID d) ≠ 1) ∨ (i = 4 ∧ c.slipRequest = true) := by
  unfold State.tickCauses
  dsimp only
  simp only [BitVec.getLsbD_or, Bool.or_eq_true, cause_bit _ 0 _ (by decide), cause_bit _ 1 _ (by decide), cause_bit _ 2 _ (by decide), cause_bit _ 3 _ (by decide), cause_bit _ 4 _ (by decide)]
  have e0 : c.items.any (fun e => e.2.overrun && e.2.incomplete) = true ↔ ∃ e ∈ c.items, e.2.overrun = true ∧ e.2.incomplete = true := by simp [List.any_eq_true]
  have e1 : c.regions.any (fun e => e.2.withheld && !e.2.waived) = true ↔ ∃ e ∈ c.regions, e.2.withheld = true ∧ e.2.waived = false := by
    simp [List.any_eq_true]
  have e2 : c.upDies.any c.closesInFailure = true ↔ ∃ d ∈ c.upDies, c.closesInFailure d = true := List.any_eq_true
  have e3 : ((c.timetableDue || decide (c.rd JOB_STATUS_STATE = 3)) && !c.timetableReady) = true ↔ (c.timetableDue = true ∨ c.rd JOB_STATUS_STATE = 3) ∧ ∃ d ∈ c.upDies, c.rd (TT_CTRL_VALID d) ≠ 1 := by
    simp [State.timetableReady, State.flag]
  rw [e0, e1]
  rw [e3]
  simp only [decide_eq_true_eq, Bool.or_eq_true, e2, or_assoc (a := c.frame.violated ≠ [])]
  constructor
  · rintro ((((h | h) | h) | h) | h)
    · exact .inl ⟨h.2, h.1⟩
    · exact .inr (.inl ⟨h.2, h.1⟩)
    · exact .inr (.inr (.inl ⟨h.2, h.1⟩))
    · exact .inr (.inr (.inr (.inl ⟨h.2, h.1⟩)))
    · exact .inr (.inr (.inr (.inr ⟨h.2, h.1⟩)))
  · rintro (h | h | h | h | h)
    · exact .inl (.inl (.inl (.inl ⟨h.2, h.1⟩)))
    · exact .inl (.inl (.inl (.inr ⟨h.2, h.1⟩)))
    · exact .inl (.inl (.inr ⟨h.2, h.1⟩))
    · exact .inl (.inr ⟨h.2, h.1⟩)
    · exact .inr ⟨h.2, h.1⟩

theorem foldl_or_bit (rs : List Report) : ∀ (c : BitVec 5) i, (rs.foldl (fun c r => c ||| r.causes) c).getLsbD i = true ↔ c.getLsbD i = true ∨ ∃ r ∈ rs, r.causes.getLsbD i = true := by
  induction rs with
  | nil => intro c i; simp
  | cons r rs ih =>
    intro c i
    rw [List.foldl_cons, ih, BitVec.getLsbD_or, Bool.or_eq_true]
    simp only [List.mem_cons, exists_eq_or_imp, or_assoc]

theorem foldl_min_cap (rs : List Report) : ∀ m, rs.foldl (fun m r => min m r.cap) m ≤ m ∧ (∀ r ∈ rs, rs.foldl (fun m r => min m r.cap) m ≤ r.cap) ∧
    (rs.foldl (fun m r => min m r.cap) m = m ∨ ∃ r ∈ rs, rs.foldl (fun m r => min m r.cap) m = r.cap) := by
  induction rs with
  | nil => intro m; exact ⟨le_refl _, fun r hr => by simp at hr, .inl rfl⟩
  | cons r rs ih =>
    intro m
    obtain ⟨h1, h2, h3⟩ := ih (min m r.cap)
    rw [List.foldl_cons]
    refine ⟨by omega, fun x hx => ?_, ?_⟩
    · rcases List.mem_cons.1 hx with rfl | hx
      · omega
      · exact h2 x hx
    · rcases h3 with h | ⟨x, hx, h⟩
      · rcases Nat.le_total m r.cap with g | g
        · left; omega
        · right; exact ⟨r, List.mem_cons_self, by omega⟩
      · exact .inr ⟨x, List.mem_cons_of_mem _ hx, h⟩

theorem foldl_causes_ne (rs : List Report) : (rs.foldl (fun c r => c ||| r.causes) (0 : BitVec 5)) ≠ 0 ↔ ∃ r ∈ rs, r.causes ≠ 0 := by
  have hz : ∀ b : BitVec 5, b ≠ 0 ↔ ∃ i, b.getLsbD i = true := by
    intro b
    constructor
    · intro h
      by_contra hc
      refine h (BitVec.eq_of_getLsbD_eq fun i hi => ?_)
      have := fun g => hc ⟨i, g⟩
      simpa using this
    · rintro ⟨i, h⟩ rfl; simp at h
  rw [hz]
  constructor
  · rintro ⟨i, h⟩
    rw [foldl_or_bit] at h
    rcases h with h | ⟨r, hr, h⟩
    · simp at h
    · exact ⟨r, hr, (hz _).2 ⟨i, h⟩⟩
  · rintro ⟨r, hr, h⟩
    obtain ⟨i, hi⟩ := (hz _).1 h
    exact ⟨i, (foldl_or_bit rs 0 i).2 (.inr ⟨r, hr, hi⟩)⟩

structure Woken (s t : State) : Prop where
  rest : t = { s with cores := t.cores, regs := t.regs }
  regs : ∀ r, (∀ e p, r ≠ .SEQ_CTRL e p) → t.word r = s.word r

theorem Woken.trans {s t u : State} (h : Woken s t) (g : Woken t u) : Woken s u :=
  ⟨by rw [g.rest, h.rest], fun r hr => (g.regs r hr).trans (h.regs r hr)⟩

theorem woken_foldl {α : Type} (f : State → α → State) (l : List α) (hf : ∀ s x, Woken s (f s x)) : ∀ s, Woken s (l.foldl f s) := by
  induction l with
  | nil => exact fun s => ⟨rfl, fun _ _ => rfl⟩
  | cons a r ih => exact fun s => (hf s a).trans (ih _)

theorem wakeControl_woken (s : State) (d : Nat) : Woken s (s.wakeControl d) := by
  unfold State.wakeControl
  refine woken_foldl _ _ (fun s q => ?_) s
  split
  · rename_i sd h
    have h := ((s.modCore_only d q (fun c => { c with blocked := .none })).trans (State.setS_only _ d q (BitVec.ofNat 5 sd) (BitVec.ofNat 64 s.frameSeq))).trans (State.retire_only _ d q ((s.core d q).pc + 8))
    exact ⟨h.rest, fun r hr => h.regs r (hr d q)⟩
  · exact ⟨rfl, fun _ _ => rfl⟩

theorem manifestFail_le (w : State) (m : Manifest) (c : Nat) (h : w.manifestFail m = some c) : c < 6 := by
  unfold State.manifestFail at h
  repeat' split at h
  all_goals first | (cases h; decide) | cases h

theorem noSlip_spec (s : State) : (s.noSlip).rd FRAME_STATUS_IN_SLIP = 0 ∧ (s.noSlip).rd FRAME_STATUS_SLIP_RUN = 0 := by
  unfold State.noSlip
  refine ⟨State.rd_wr_same _ _ _ fle, ?_⟩
  rw [State.rd_wr_other _ FRAME_STATUS_IN_SLIP FRAME_STATUS_SLIP_RUN _ fle (fun _ => by first | exact .inl fle | exact .inr fle)]
  exact State.rd_wr_same _ _ _ fle

theorem Held.rd_frame {s t : State} (h : Held s t) (f : FRef) (hf : f.reg.ofFrame = true) : t.rd f = s.rd f := State.rd_congr (h.regs _ hf)

theorem slipFrame_spec (s : State) (c : BitVec 5) (n : List Nat) : (s.slipFrame c n).rd FRAME_STATUS_IN_SLIP = 1 ∧ 0 < (s.slipFrame c n).rd FRAME_STATUS_SLIP_RUN := by
  unfold State.slipFrame
  dsimp only
  generalize hx : (((s.count FRAME_STATUS_SLIP_RUN 1).wr FRAME_STATUS_IN_SLIP 1).count FRAME_COUNTS_SLIPS 1) = x
  have h := State.rerunAll_held (State.takeBackAll_held (State.coachEvent_held (Held.refl x) 6 [(6, x.frameSeq), (1, c.toNat)]) n)
  rw [Held.rd_frame h _ rfl, Held.rd_frame h _ rfl, ← hx]
  have h1 : ∀ (y : State) (f : FRef), f.reg = .FRAME_STATUS → (y.count FRAME_COUNTS_SLIPS 1).rd f = y.rd f := fun y f hf =>
    State.rd_congr (State.word_count_ne _ _ (by rw [hf]; nofun))
  rw [h1 _ _ rfl, h1 _ _ rfl]
  refine ⟨State.rd_wr_same _ _ _ fle, ?_⟩
  rw [State.rd_wr_other _ FRAME_STATUS_IN_SLIP FRAME_STATUS_SLIP_RUN _ fle (fun _ => by first | exact .inl fle | exact .inr fle), State.rd_count_same _ _ _ fle]
  exact Nat.lt_min.2 ⟨Nat.succ_pos _, by decide⟩

theorem beginFrame_spec (s : State) (v : Verdict) (n : List Nat) :
    (v.kind = .slip → (s.beginFrame v n).rd FRAME_STATUS_IN_SLIP = 1 ∧ 0 < (s.beginFrame v n).rd FRAME_STATUS_SLIP_RUN) ∧
    (v.kind ≠ .slip → (s.beginFrame v n).rd FRAME_STATUS_IN_SLIP = 0 ∧ (s.beginFrame v n).rd FRAME_STATUS_SLIP_RUN = 0) := by
  unfold State.beginFrame
  cases hk : v.kind with
  | slip => exact ⟨fun _ => slipFrame_spec .., fun h => absurd rfl h⟩
  | pause => exact ⟨nofun, fun _ => noSlip_spec _⟩
  | normal =>
    refine ⟨nofun, fun _ => ?_⟩
    dsimp only
    unfold State.normalFrame
    dsimp only
    split
    · have h : Held s.noSlip ((s.noSlip.upDies.foldl (fun s d => s.applyTimetable d) s.noSlip).wr FRAME_CFG_LEN (s.noSlip.nextLen true)) :=
        State.wr_held (Held.foldl _ _ (Held.refl _) (fun t d ht => State.applyTimetable_held ht d)) _ _ rfl
      rw [Held.rd_frame h _ rfl, Held.rd_frame h _ rfl]
      exact noSlip_spec s
    · exact noSlip_spec s

theorem takeManifest_spec (w : State) (m : Manifest) (hm : w.manifestFail m = none) : (w.takeManifest m).rd JOB_STATUS_STATE = 2 ∧ (w.takeManifest m).rd JOB_STATUS_JOB_ID = m.jobId % 2 ^ 32 ∧ (w.takeManifest m).rd JOB_SUBMIT_GO = 0 ∧ (w.takeManifest m).rd FRAME_CFG_LEN = m.frameLen ∧
          (w.takeManifest m).rd FRAME_CFG_SLIP_LIMIT = m.slipLimit ∧ (w.takeManifest m).rd FRAME_CFG_DISC = m.flags % 2 ∧ (w.takeManifest m).word .FRAME_STATUS = w.word .FRAME_STATUS ∧
          (w.takeManifest m).rd MODULE_STATUS_OWNER_STATE = 1 ∧ (w.takeManifest m).items = [] ∧ (w.takeManifest m).job.owner = m.owner ∧
          (w.takeManifest m).regions = (List.range m.nRegions).map (fun i => (i, w.regionEntry m i)) := by
  have hr : m.frameLen ≤ 16384 ∧ m.slipLimit ≤ 15 := by
    unfold State.manifestFail at hm
    repeat' split at hm
    all_goals first
      | (cases hm; done)
      | (have h := ‹¬(m.fieldsOk = false ∨ m.sectionsOk = false ∨ w.tablesOk m = false)›
         have : m.fieldsOk = true := by
           by_contra hc
           exact h (.inl (by simpa using hc))
         unfold Manifest.fieldsOk at this
         simp only [Bool.and_eq_true, decide_eq_true_eq] at this
         omega)
  unfold State.takeManifest
  dsimp only
  generalize hx : State.wr (State.wr (State.wr (State.wr (State.wr (State.wr (State.wr w _ _) _ _) _ _) _ _) _ _) _ _) _ _ = x
  have h0 : ∀ a, x.byteAt a = w.byteAt a := by
    intro a
    rw [← hx]
    simp only [State.byteAt_wr _ (f := MODULE_STATUS_OWNER_STATE) rfl,
      State.byteAt_wr _ (f := FRAME_CFG_SLIP_LIMIT) rfl, State.byteAt_wr _ (f := FRAME_CFG_DISC) rfl, State.byteAt_wr _ (f := FRAME_CFG_LEN) rfl,
      State.byteAt_wr _ (f := JOB_SUBMIT_GO) rfl, State.byteAt_wr _ (f := JOB_STATUS_JOB_ID) rfl, State.byteAt_wr _ (f := JOB_STATUS_STATE) rfl]
  have h1 : ∀ i, x.regionEntry m i = w.regionEntry m i := by
    intro i
    have hb : ∀ a n, x.natAt a n = w.natAt a n := fun a n => congrArg leNat (State.bytesAt_congr h0 a n)
    simp only [State.regionEntry, hb]
  have hf : x.rd JOB_STATUS_STATE = 2 ∧ x.rd JOB_STATUS_JOB_ID = m.jobId % 2 ^ 32 ∧ x.rd JOB_SUBMIT_GO = 0 ∧ x.rd FRAME_CFG_LEN = m.frameLen ∧
      x.rd FRAME_CFG_SLIP_LIMIT = m.slipLimit ∧ x.rd FRAME_CFG_DISC = m.flags % 2 ∧ x.word .FRAME_STATUS = w.word .FRAME_STATUS ∧ x.rd MODULE_STATUS_OWNER_STATE = 1 := by
    rw [← hx]
    refine ⟨?_, ?_, ?_, ?_, ?_, ?_, ?_, ?_⟩
    · rw [State.rd_wr_other _ _ _ _ fle (fun e => by first | exact .inl fle | exact .inr fle | cases e)]; rw [State.rd_wr_other _ _ _ _ fle (fun e => by first | exact .inl fle | exact .inr fle | cases e)]; rw [State.rd_wr_other _ _ _ _ fle (fun e => by first | exact .inl fle | exact .inr fle | cases e)]; rw [State.rd_wr_other _ _ _ _ fle (fun e => by first | exact .inl fle | exact .inr fle | cases e)]; rw [State.rd_wr_other _ _ _ _ fle (fun e => by first | exact .inl fle | exact .inr fle | cases e)]; rw [State.rd_wr_other _ _ _ _ fle (fun e => by first | exact .inl fle | exact .inr fle | cases e)]; exact State.rd_wr_same _ _ _ fle
    · rw [State.rd_wr_other _ _ _ _ fle (fun e => by first | exact .inl fle | exact .inr fle | cases e)]; rw [State.rd_wr_other _ _ _ _ fle (fun e => by first | exact .inl fle | exact .inr fle | cases e)]; rw [State.rd_wr_other _ _ _ _ fle (fun e => by first | exact .inl fle | exact .inr fle | cases e)]; rw [State.rd_wr_other _ _ _ _ fle (fun e => by first | exact .inl fle | exact .inr fle | cases e)]; rw [State.rd_wr_other _ _ _ _ fle (fun e => by first | exact .inl fle | exact .inr fle | cases e)]; exact State.rd_wr_same _ _ _ fle
    · rw [State.rd_wr_other _ _ _ _ fle (fun e => by first | exact .inl fle | exact .inr fle | cases e)]; rw [State.rd_wr_other _ _ _ _ fle (fun e => by first | exact .inl fle | exact .inr fle | cases e)]; rw [State.rd_wr_other _ _ _ _ fle (fun e => by first | exact .inl fle | exact .inr fle | cases e)]; rw [State.rd_wr_other _ _ _ _ fle (fun e => by first | exact .inl fle | exact .inr fle | cases e)]; exact State.rd_wr_same _ _ _ fle
    · rw [State.rd_wr_other _ _ _ _ fle (fun e => by first | exact .inl fle | exact .inr fle | cases e)]; rw [State.rd_wr_other _ _ _ _ fle (fun e => by first | exact .inl fle | exact .inr fle | cases e)]; rw [State.rd_wr_other _ _ _ _ fle (fun e => by first | exact .inl fle | exact .inr fle | cases e)]; exact (State.rd_wr_same _ _ _ fle).trans (Nat.mod_eq_of_lt (show m.frameLen < 32768 by omega))
    · rw [State.rd_wr_other _ _ _ _ fle (fun e => by first | exact .inl fle | exact .inr fle | cases e)]; exact (State.rd_wr_same _ _ _ fle).trans (Nat.mod_eq_of_lt (show m.slipLimit < 16 by omega))
    · rw [State.rd_wr_other _ _ _ _ fle (fun e => by first | exact .inl fle | exact .inr fle | cases e)]; rw [State.rd_wr_other _ _ _ _ fle (fun e => by first | exact .inl fle | exact .inr fle | cases e)]; exact (State.rd_wr_same _ _ _ fle).trans (Nat.mod_eq_of_lt (show m.flags % 2 < 2 by omega))
    · iterate 7 rw [State.word_wr_ne _ _ (by nofun)]
    · exact State.rd_wr_same _ _ _ fle
  have hd : ∀ z : State, HeldJ x z → HeldJ x ((z.dieList.filter z.dieUp).foldl (fun s d => s.copyMirrors d) z) := fun z hz => HeldJ.foldl _ _ hz (fun t d ht => State.copyMirrors_heldj ht d)
  clear hx
  generalize hy : State.mk _ _ _ _ _ _ _ _ _ _ _ _ _ _ _ _ _ _ _ _ _ _ _ _ _ _ = y
  have hyi : y.items = [] ∧ y.job.owner = m.owner ∧ y.regions = (List.range m.nRegions).map (fun i => (i, w.regionEntry m i)) ∧ ∀ r, y.word r = x.word r := by
    rw [← hy]
    refine ⟨rfl, rfl, ?_, fun _ => rfl⟩
    dsimp only
    exact List.map_congr_left (fun i _ => by rw [← h1]; rfl)
  clear hy hd
  have hm : ∀ t d, HeldJ y t → HeldJ y ((t.modDie d (fun y => { y with mirrorLive := [] })).refreshLive d) := fun t d ht => by
    unfold State.refreshLive
    refine HeldJ.foldl _ _ (State.modDie_heldj ht _ _) fun u e hu => ?_
    dsimp only
    unfold State.setVersion
    exact State.setBytes_heldj hu _ _
  have h2 := State.copyProgram_heldj (State.armCounters_heldj (HeldJ.foldl (fun s d => (s.modDie d (fun y => { y with mirrorLive := [] })).refreshLive d) y.dieList (HeldJ.refl y) hm) m) m
  generalize State.copyProgram (State.armCounters _ m) m = z at h2
  have h3 : HeldJ y ((z.dieList.filter z.dieUp).foldl (fun s d => s.copyMirrors d) z) := HeldJ.foldl _ _ h2 (fun t d ht => State.copyMirrors_heldj ht d)
  have h4 := State.extend_heldj (State.extend_heldj h3 6 m.owner) 7 (State.bytesAt (((z.dieList.filter z.dieUp).foldl (fun s d => s.copyMirrors d) z)) m.at_ m.size)
  generalize State.extend (State.extend _ 6 m.owner) 7 _ = u at h4
  have rr : ∀ f : FRef, f.reg.ofJob = true → u.rd f = x.rd f := fun f hf => State.rd_congr ((h4.regs _ hf).trans (hyi.2.2.2 _))
  obtain ⟨f1, f2, f3, f4, f5, f6, f7, f8⟩ := hf
  refine ⟨(rr JOB_STATUS_STATE rfl).trans f1, (rr JOB_STATUS_JOB_ID rfl).trans f2, (rr JOB_SUBMIT_GO rfl).trans f3, (rr FRAME_CFG_LEN rfl).trans f4,
    (rr FRAME_CFG_SLIP_LIMIT rfl).trans f5, (rr FRAME_CFG_DISC rfl).trans f6, ((h4.regs _ rfl).trans (hyi.2.2.2 _)).trans f7, (rr MODULE_STATUS_OWNER_STATE rfl).trans f8,
    h4.items.trans hyi.1, (congrArg Job.owner h4.job).trans hyi.2.1, h4.regions.trans hyi.2.2.1⟩

theorem flag_iff (s : State) (f : FRef) : s.flag f = true ↔ s.rd f = 1 := by simp [State.flag]

theorem flag_false (s : State) (f : FRef) (h : s.rd f = 0) : s.flag f = false := by simp [State.flag, h]

theorem verdictNow_spec (p : State) : ∃ x v, p.verdictNow = (x, v) ∧ (∀ y, p.team.verdict = some y → v = y) ∧
      (p.team.verdict = none → p.rd TEAM_STATUS_STATE = 2 → v.kind = (if p.rd JOB_STATUS_STATE = 3 then .pause else .slip) ∧ v.causes = 0 ∧ v.cap = p.rd LAMP_PWR_TEAM_CAP ∧
        v.nextTick = p.frame.tickTime + BitVec.ofNat 64 (p.frameLen * 1024) ∧ v.lost = []) := by
  unfold State.verdictNow
  cases hv : p.team.verdict with
  | none =>
    split
    · exact ⟨_, _, rfl, nofun, fun _ _ => ⟨rfl, rfl, rfl, rfl, rfl⟩⟩
    · rename_i h
      exact ⟨_, _, rfl, nofun, fun _ h2 => absurd h2 h⟩
  | some y =>
    split
    · exact ⟨_, _, rfl, fun z hz => Option.some.inj hz, nofun⟩
    · simp only [hv, Option.isNone_some, Bool.false_eq_true, and_false, if_false]
      exact ⟨_, _, rfl, fun z hz => Option.some.inj hz, nofun⟩

theorem causesOf_bit (rs : List Report) (i : Nat) :
    (causesOf rs).getLsbD i = true ↔ (∃ r ∈ rs, r.causes.getLsbD i = true) ∨ (i = 2 ∧ optDiffer rs = true) := by
  unfold causesOf
  rw [foldl_or_bit]
  have h := cause_bit (optDiffer rs = true) 2 i (by decide)
  have e : (if optDiffer rs = true then BitVec.ofNat 5 (2 ^ 2) else 0) = (if optDiffer rs = true then (4 : BitVec 5) else 0) := rfl
  rw [e] at h
  rw [h, or_comm, and_comm]

theorem causesOf_ne (rs : List Report) : causesOf rs ≠ 0 ↔ (∃ r ∈ rs, r.causes ≠ 0) ∨ optDiffer rs = true := by
  cases h : optDiffer rs with
  | false =>
    have : causesOf rs = rs.foldl (fun c r => c ||| r.causes) (0 : BitVec 5) := by unfold causesOf; rw [h]; rfl
    rw [this, foldl_causes_ne]; simp
  | true =>
    refine ⟨fun _ => .inr rfl, fun _ e => ?_⟩
    have := (causesOf_bit rs 2).2 (.inr ⟨rfl, h⟩)
    rw [e] at this
    exact absurd this (by decide)

/-- What the Coachman's verdict of a set of reports says (R50, R52, R70). -/
theorem verdictOf_spec (s : State) (all : List Report) (v : Verdict) (hv : v = s.verdictOf all) :
    (∀ i, v.causes.getLsbD i = true ↔ (∃ r ∈ all, r.causes.getLsbD i = true) ∨ (i = 2 ∧ optDiffer all = true)) ∧
    v.cap ≤ 16 ∧ (∀ r ∈ all, v.cap ≤ r.cap) ∧ (v.cap = 16 ∨ ∃ r ∈ all, v.cap = r.cap) ∧
    (s.rd JOB_STATUS_STATE = 2 → s.lostMembers (s.lostIn all) = [] → (∀ r ∈ all, r.pause = 0 ∧ r.level < 2 ∧ r.image = false) →
      ((∀ r ∈ all, r.causes = 0) → optDiffer all = false → v.kind = .normal) ∧
      ((∃ r ∈ all, r.causes ≠ 0) ∨ optDiffer all = true → s.rd FRAME_STATUS_SLIP_RUN < s.rd FRAME_CFG_SLIP_LIMIT → v.kind = .slip) ∧
      ((∃ r ∈ all, r.causes ≠ 0) ∨ optDiffer all = true → s.rd FRAME_CFG_SLIP_LIMIT ≤ s.rd FRAME_STATUS_SLIP_RUN → v.kind = .pause)) := by
  subst hv
  refine ⟨causesOf_bit all, (foldl_min_cap all 16).1, (foldl_min_cap all 16).2.1, (foldl_min_cap all 16).2.2, fun hj hl hr => ?_⟩
  have hk : (s.verdictOf all).kind = s.kindOf all (s.lostIn all) := rfl
  rw [hk]
  unfold State.kindOf
  dsimp only
  rw [hl, if_pos hj]
  have hpc : ∀ b, pauseCause all [] b = if b = true then some 7 else none := by
    intro b
    unfold pauseCause
    have e1 : all.find? (fun r => decide (r.pause ≠ 0)) = none := by
      rw [List.find?_eq_none]; intro r h; simp [(hr r h).1]
    have e2 : all.find? (fun r => decide (2 ≤ r.level)) = none := by
      rw [List.find?_eq_none]; intro r h; have := (hr r h).2.1; simp; omega
    have e3 : all.any (fun r => r.image) = false := by
      rw [List.any_eq_false]; intro r h; rw [(hr r h).2.2]; decide
    rw [e1, e2, e3]
    simp
  rw [hpc]
  have hne := causesOf_ne all
  generalize causesOf all = z at hne
  refine ⟨fun hz ho => ?_, fun hz hlt => ?_, fun hz hle => ?_⟩
  · have : ¬ z ≠ 0 := by
      rw [hne, ho]; rintro (⟨r, h, h'⟩ | h)
      · exact h' (hz r h)
      · cases h
    rw [decide_eq_false this]; rfl
  · have h5 : ¬ s.rd FRAME_CFG_SLIP_LIMIT ≤ s.rd FRAME_STATUS_SLIP_RUN := by omega
    rw [decide_eq_true (hne.2 hz), decide_eq_false h5]; rfl
  · rw [decide_eq_true (hne.2 hz), decide_eq_true hle]; rfl

theorem pickup_spec (w : State) :
      (w.rd JOB_SUBMIT_GO = 0 ∨ 2 ≤ w.rd JOB_STATUS_STATE ∨ w.dieUp w.lead = false → w.pickup = w) ∧
      (w.rd JOB_SUBMIT_GO = 1 → w.rd JOB_STATUS_STATE < 2 → w.dieUp w.lead = true → w.rd MODULE_STATUS_SERVICE = 1 → w.pickup = w.wr JOB_STATUS_STATE 1) ∧
      (w.rd JOB_SUBMIT_GO = 1 → w.rd JOB_STATUS_STATE < 2 → w.dieUp w.lead = true → w.rd MODULE_STATUS_SERVICE = 0 → ∀ m, m = w.manifest (w.rd JOB_SUBMIT_MANIFEST_ADDR) →
        (∀ c, w.manifestFail m = some c → ∃ x : State, x.rd JOB_STATUS_REFUSED = 1 ∧ x.rd JOB_STATUS_REFUSE_CODE = c ∧ x.rd JOB_STATUS_STATE = 0 ∧ x.rd JOB_SUBMIT_GO = 0 ∧
          x = { w with regs := x.regs } ∧ (∀ r, r ≠ .JOB_STATUS → r ≠ .JOB_SUBMIT → x.word r = w.word r) ∧
          ∃ id, w.pickup = (if c = 4 then x.raiseLead 10 17 [(4, id)] else x.raiseLead 9 17 [(4, id), (1, c)])) ∧
        (w.manifestFail m = none → w.pickup = w.takeManifest m)) := by
  unfold State.pickup
  refine ⟨fun h => ?_, fun h1 h2 h3 h4 => ?_, fun h1 h2 h3 h4 m hm => ⟨fun c hc => ?_, fun hc => ?_⟩⟩
  · rw [if_pos]
    rcases h with h | h | h
    · exact .inl (flag_false _ _ h)
    · exact .inr (.inl h)
    · exact .inr (.inr h)
  · rw [if_neg, if_pos ((flag_iff _ _).2 h4)]
    rintro (h | h | h)
    · rw [(flag_iff _ _).2 h1] at h; cases h
    · omega
    · rw [h3] at h; cases h
  all_goals
    rw [if_neg (by
      rintro (h | h | h)
      · rw [(flag_iff _ _).2 h1] at h; cases h
      · omega
      · rw [h3] at h; cases h), if_neg (by rw [flag_false _ _ h4]; decide)]
    dsimp only
    rw [← hm, hc]
  dsimp only
  unfold State.refuseManifest
  dsimp only
  have hlt := manifestFail_le _ _ _ hc
  generalize hx : State.wr (State.wr (State.wr (State.wr w JOB_STATUS_REFUSED 1) JOB_STATUS_REFUSE_CODE c) JOB_STATUS_STATE 0) JOB_SUBMIT_GO 0 = x
  refine ⟨x, ?_, ?_, ?_, ?_, ?_, fun r r1 r2 => ?_, _, rfl⟩
  · rw [← hx]; rw [State.rd_wr_other _ _ _ _ fle (fun e => by first | exact .inl fle | exact .inr fle | cases e)]; rw [State.rd_wr_other _ _ _ _ fle (fun e => by first | exact .inl fle | exact .inr fle | cases e)]; rw [State.rd_wr_other _ _ _ _ fle (fun e => by first | exact .inl fle | exact .inr fle | cases e)]; exact State.rd_wr_same _ _ _ fle
  · rw [← hx]; rw [State.rd_wr_other _ _ _ _ fle (fun e => by first | exact .inl fle | exact .inr fle | cases e)]; rw [State.rd_wr_other _ _ _ _ fle (fun e => by first | exact .inl fle | exact .inr fle | cases e)]; exact (State.rd_wr_same _ _ _ fle).trans (Nat.mod_eq_of_lt (show c < 256 by omega))
  · rw [← hx]; rw [State.rd_wr_other _ _ _ _ fle (fun e => by first | exact .inl fle | exact .inr fle | cases e)]; exact State.rd_wr_same _ _ _ fle
  · rw [← hx]; exact State.rd_wr_same _ _ _ fle
  · rw [← hx]; rfl
  · rw [← hx, State.word_wr_ne _ _ (Ne.symm r2), State.word_wr_ne _ _ (Ne.symm r1), State.word_wr_ne _ _ (Ne.symm r1), State.word_wr_ne _ _ (Ne.symm r1)]

theorem ttFail_range {s : State} {d c : Nat} (h : s.ttFail d = some c) : 1 ≤ c ∧ c ≤ 9 := by
  unfold State.ttFail at h
  dsimp only at h
  repeat' split at h
  all_goals first | (cases h; decide) | cases h

theorem ttFail_congr {s u : State} (hb : ∀ a, u.byteAt a = s.byteAt a) (hw : ∀ r, u.word r = s.word r) (hf : u.fuses = s.fuses) (hj : u.job = s.job) (d : Nat) : u.ttFail d = s.ttFail d := by
  have e2 : u.bytesAt = s.bytesAt := funext fun a => funext fun n => State.bytesAt_congr hb a n
  have e1 : u.timetable = s.timetable := funext fun a => by unfold State.timetable State.natAt; rw [e2]
  have e3 : u.rd = s.rd := funext fun f => State.rd_congr (hw _)
  have e0 : u.nCores = s.nCores := by unfold State.nCores; rw [hf]
  have e4 : u.coreExists = s.coreExists := funext fun d => funext fun c => by unfold State.coreExists; rw [hf, e0]
  have e5 : u.chanExists = s.chanExists := funext fun d => funext fun c => by unfold State.chanExists; rw [hf, e0]
  unfold State.ttFail State.holdCycles
  dsimp only
  rw [e1, e2, e3, e4, e5, hj]

theorem wr_of_dies_only {s v : State} (h : v = { s with dies := v.dies }) (f : FRef) (x : Nat) : v.wr f x = { s with dies := (v.wr f x).dies, regs := (v.wr f x).regs } := by
  unfold State.wr State.setWord
  generalize assocSet _ _ _ = y
  rw [h]

theorem wr3_of_dies_only {s v : State} (h : v = { s with dies := v.dies }) (f g k : FRef) (x y z : Nat) :
    ((v.wr f x).wr g y).wr k z = { s with dies := (((v.wr f x).wr g y).wr k z).dies, regs := (((v.wr f x).wr g y).wr k z).regs } := by
  have e := wr_of_dies_only h f x
  generalize v.wr f x = a at *
  unfold State.wr State.setWord
  generalize assocSet _ _ _ = y
  rw [e]

end Sys2Proof.Machine
end

