-- ==== Sys2Proof/Laws/Recovery.lean ====
section
/-! SUPPORT. Lemmas of image, restore, optimiser window, digests and the error ledger. -/

set_option linter.unusedSimpArgs false
set_option linter.unusedVariables false

namespace Sys2Proof.Machine

theorem undefAt_append (u v : List (Nat × Nat × Nat)) (x : Nat) : undefAt (u ++ v) x = match undefAt u x with | some n => some n | none => undefAt v x := by
  induction u with
  | nil => rfl
  | cons a u ih =>
    obtain ⟨lo, hi, n⟩ := a
    simp only [List.cons_append, undefAt]
    split
    · rfl
    · exact ih

theorem tabGet_filter (m : List Host.Cell) (p : Nat → Bool) (x : Nat) (d : Byte) (hx : p x = true) : tabGet (m.filter (fun c => p c.1)) x d = tabGet m x d := by
  induction m with
  | nil => rfl
  | cons c m ih =>
    rw [List.filter_cons]
    by_cases hc : p c.1 = true
    · rw [if_pos hc]; simp only [tabGet, ih]
    · rw [if_neg hc, ih]
      simp only [tabGet]
      rw [if_neg (fun e => hc (by rw [e]; exact hx))]

theorem forget_byte (s : State) (p n y : Nat) (h : s.place y < p ∨ p + n ≤ s.place y) : (s.forget p n).byteAt y = s.byteAt y := by
  have hp : (s.forget p n).place y = s.place y := rfl
  rw [State.byteAt, hp]
  simp only [State.forget]
  rw [undefAt_append, undefAt_undefCut _ _ (Nat.le_add_right _ _), if_neg (by omega)]
  have hc : cellRead 0 (s.mem.filter (fun c => decide (c.1 < p) || decide (p + n ≤ c.1))) (s.place y) = cellRead 0 s.mem (s.place y) :=
    tabGet_filter s.mem (fun a => decide (a < p) || decide (p + n ≤ a)) _ _ (by simpa using h)
  rw [hc]
  unfold State.byteAt
  cases hu : undefAt s.undef (s.place y) with
  | some m => rfl
  | none =>
    dsimp only
    have : undefAt [(p, p + n, s.fresh)] (s.place y) = none := by
      simp only [undefAt]; rw [if_neg (by omega)]
    rw [this]

theorem place_chunk (s : State) (a j : Nat) (h : j < 256 - a % 256) : s.place (a + j) = s.place a + j := by
  have h1 : (a + j) / 256 = a / 256 := by omega
  have h2 : (a + j) % 256 = a % 256 + j := by omega
  unfold State.place
  rw [h1, h2]
  split <;> omega

theorem forgetAt_byte (fuel : Nat) : ∀ (s : State) (a n y : Nat), (∀ i < n, s.place (a + i) ≠ s.place y) → (s.forgetAt a n fuel).byteAt y = s.byteAt y ∧
    s.forgetAt a n fuel = { s with mem := (s.forgetAt a n fuel).mem, undef := (s.forgetAt a n fuel).undef, fresh := (s.forgetAt a n fuel).fresh } := by
  induction fuel with
  | zero => intro s a n y _; exact ⟨rfl, rfl⟩
  | succ fuel ih =>
    intro s a n y h
    rw [State.forgetAt]
    split
    · exact ⟨rfl, rfl⟩
    · dsimp only
      generalize hk : min n (256 - a % 256) = k
      obtain ⟨h1, h2⟩ := ih (s.forget (s.place a) k) (a + k) (n - k) y (fun i hi => by
        have := h (k + i) (by omega)
        rwa [← Nat.add_assoc] at this)
      refine ⟨h1.trans (forget_byte _ _ _ _ ?_), by rw [h2]; rfl⟩
      by_contra hc
      rw [not_or] at hc
      have hj : s.place y - s.place a < k := by omega
      have h3 := h (s.place y - s.place a) (by omega)
      rw [place_chunk s a _ (by omega)] at h3
      omega

theorem setBytes_byte (bs : List Byte) : ∀ (s : State) (a y : Nat), (∀ i < bs.length, s.place (a + i) ≠ s.place y) → (s.setBytes a bs).byteAt y = s.byteAt y := by
  induction bs with
  | nil => intro s a y _; rfl
  | cons b bs ih =>
    intro s a y h
    rw [State.setBytes, ih _ _ _ (fun i hi => by
      have := h (i + 1) (by simpa using hi)
      rw [State.place_setByte, State.place_setByte]
      rwa [show a + (i + 1) = a + 1 + i by omega] at this), State.byteAt_setByte, if_neg (fun e => h 0 (by simp) (by rw [Nat.add_zero]; exact e.symm))]

theorem imageSets_spec (xs : List (Nat × List Byte)) : ∀ (v : State) (a : Nat), (∀ y, (∀ x ∈ xs, ∀ i < x.2.length, v.place (a + x.1 + i) ≠ v.place y) →
      (xs.foldl (fun s x => s.setBytes (a + x.1) x.2) v).byteAt y = v.byteAt y) ∧
    xs.foldl (fun s x => s.setBytes (a + x.1) x.2) v = { v with mem := (xs.foldl (fun s x => s.setBytes (a + x.1) x.2) v).mem, undef := (xs.foldl (fun s x => s.setBytes (a + x.1) x.2) v).undef } := by
  induction xs with
  | nil => intro v a; exact ⟨fun _ _ => rfl, rfl⟩
  | cons x xs ih =>
    intro v a
    have hr := v.setBytes_rest (a + x.1) x.2
    obtain ⟨h1, h2⟩ := ih (v.setBytes (a + x.1) x.2) a
    have hp : ∀ z, (v.setBytes (a + x.1) x.2).place z = v.place z := fun z => by rw [hr]; rfl
    refine ⟨fun y hy => ?_, by rw [List.foldl_cons, h2, hr]⟩
    rw [List.foldl_cons, h1 y (fun z hz i hi => by rw [hp, hp]; exact hy z (List.mem_cons_of_mem _ hz) i hi)]
    exact setBytes_byte _ _ _ _ (fun i hi => hy x List.mem_cons_self i hi)

theorem imageHeader_within (s : State) (d seq : Nat) : ∀ x ∈ s.imageHeader d seq, ∀ i < x.2.length, x.1 + i < 18 := by
  intro x hx i hi
  simp only [State.imageHeader, List.mem_cons, List.not_mem_nil, or_false] at hx
  rcases hx with rfl | rfl | rfl | rfl <;> simp only [length_leBytes] at hi <;> omega

theorem imageBytes_eq : imageBytes = 16777216 := rfl

def writeImageFuel (s : State) (d seq fl : Nat) : State :=
  let a := s.imageBase d
  let s := s.forgetAt a imageBytes fl
  let s := (s.imageHeader d seq).foldl (fun s x => s.setBytes (a + x.1) x.2) s
  let u := s.undef.filter (fun r => decide (r.1 < a + imageBytes) && decide (a < r.2.1))
  { s with job := { s.job with imageAt := s.job.imageAt ++ [(a, u, s.bytesAt a 18)] } }

theorem writeImage_eq_fuel (s : State) (d seq : Nat) : s.writeImage d seq = writeImageFuel s d seq (imageBytes / 256 + 2) := rfl

theorem writeImageFuel_spec (s : State) (d seq fl : Nat) : (∀ y, (∀ i < imageBytes, s.place (s.imageBase d + i) ≠ s.place y) → (writeImageFuel s d seq fl).byteAt y = s.byteAt y) ∧
    writeImageFuel s d seq fl = { s with mem := (writeImageFuel s d seq fl).mem, undef := (writeImageFuel s d seq fl).undef, job := { s.job with imageAt := (writeImageFuel s d seq fl).job.imageAt }, fresh := (writeImageFuel s d seq fl).fresh } := by
  unfold writeImageFuel
  dsimp only
  generalize hb : s.imageBase d = a
  have f1 := forgetAt_byte fl s a imageBytes
  have f2 : s.forgetAt a imageBytes fl = { s with mem := (s.forgetAt a imageBytes fl).mem, undef := (s.forgetAt a imageBytes fl).undef, fresh := (s.forgetAt a imageBytes fl).fresh } := by
    have : ∀ fuel (s : State) a n, s.forgetAt a n fuel = { s with mem := (s.forgetAt a n fuel).mem, undef := (s.forgetAt a n fuel).undef, fresh := (s.forgetAt a n fuel).fresh } := by
      intro fuel
      induction fuel with
      | zero => intro s a n; rfl
      | succ fuel ih =>
        intro s a n
        rw [State.forgetAt]
        split
        · rfl
        · dsimp only; rw [ih]; rfl
    exact this _ _ _ _
  generalize s.forgetAt a imageBytes fl = v at f1 f2
  obtain ⟨g1, g2⟩ := imageSets_spec (v.imageHeader d seq) v a
  have hm := imageHeader_within v d seq
  generalize (v.imageHeader d seq).foldl (fun s x => s.setBytes (a + x.1) x.2) v = w at g1 g2
  have hp : ∀ z, v.place z = s.place z := fun z => by rw [f2]; rfl
  refine ⟨fun y hy => ?_, ?_⟩
  · show w.byteAt y = _
    rw [g1 y (fun x hx i hi => by
      have := hm x hx i hi
      rw [hp, hp, Nat.add_assoc]; exact hy _ (by rw [imageBytes_eq]; omega))]
    exact (f1 y hy).1
  · rw [g2, f2]

theorem writeImage_spec (s : State) (d seq : Nat) : (∀ y, (∀ i < imageBytes, s.place (s.imageBase d + i) ≠ s.place y) → (s.writeImage d seq).byteAt y = s.byteAt y) ∧
    s.writeImage d seq = { s with mem := (s.writeImage d seq).mem, undef := (s.writeImage d seq).undef, job := { s.job with imageAt := (s.writeImage d seq).job.imageAt }, fresh := (s.writeImage d seq).fresh } := by
  rw [writeImage_eq_fuel]; exact writeImageFuel_spec s d seq _

theorem setBytes_plain (bs : List Byte) : ∀ (s : State) (a y : Nat), (∀ i < bs.length, s.place (a + i) = a + i) → s.place y = y →
    (s.setBytes a bs).byteAt y = if a ≤ y ∧ y < a + bs.length then bs.getD (y - a) 0 else s.byteAt y := by
  induction bs with
  | nil => intro s a y _ _; rw [if_neg (by simp only [List.length_nil]; omega)]; rfl
  | cons b bs ih =>
    intro s a y h hy
    have h0 := h 0 (by simp)
    rw [Nat.add_zero] at h0
    rw [State.setBytes, ih (s.setByte a b) (a + 1) y (fun i hi => by
      have := h (i + 1) (by simpa using hi)
      rwa [show a + (i + 1) = a + 1 + i by omega] at this) hy, State.byteAt_setByte, h0, hy]
    simp only [List.length_cons]
    by_cases h1 : a + 1 ≤ y ∧ y < a + 1 + bs.length
    · rw [if_pos h1, if_pos (by omega), show y - a = (y - (a + 1)) + 1 by omega, List.getD_cons_succ]
    · rw [if_neg h1]
      by_cases h2 : y = a
      · rw [if_pos h2, if_pos (by omega), h2, Nat.sub_self, List.getD_cons_zero]
      · rw [if_neg h2, if_neg (by omega)]

theorem bytesAt_eq_leBytes (s : State) (a n v : Nat) (h : ∀ i < n, s.byteAt (a + i) = (leBytes n v).getD i 0) : s.bytesAt a n = leBytes n v := by
  apply List.ext_getElem
  · simp
  · intro i h1 h2
    have hi : i < n := by simpa using h1
    have e1 := s.getD_bytesAt a n i
    rw [if_pos hi, List.getD_eq_getElem?_getD, List.getElem?_eq_getElem h1] at e1
    have e2 := h i hi
    rw [List.getD_eq_getElem?_getD, List.getElem?_eq_getElem h2] at e2
    exact e1.trans e2

theorem writeImageFuel_header (s : State) (d seq fl a : Nat) (ha : a = s.imageBase d) (h0 : a % 256 = 0) (hr : s.retiredTo (a / 256) = none) :
    (writeImageFuel s d seq fl).bytesAt a 2 = leBytes 2 (s.agreed 4) ∧ (writeImageFuel s d seq fl).byteAt (a + 2) = BitVec.ofNat 8 d ∧ (writeImageFuel s d seq fl).bytesAt (a + 8) 6 = leBytes 6 seq ∧ (writeImageFuel s d seq fl).bytesAt (a + 16) 2 = leBytes 2 (if d = s.lead then 11 else 10) := by
  have hpl : ∀ j < 256, s.place (a + j) = a + j := by
    intro j hj
    rw [place_chunk s a j (by omega)]
    unfold State.place; rw [hr]
  have f2 : ∀ fuel (s : State) a n, s.forgetAt a n fuel = { s with mem := (s.forgetAt a n fuel).mem, undef := (s.forgetAt a n fuel).undef, fresh := (s.forgetAt a n fuel).fresh } := by
    intro fuel
    induction fuel with
    | zero => intro s a n; rfl
    | succ fuel ih =>
      intro s a n
      rw [State.forgetAt]
      split
      · rfl
      · dsimp only; rw [ih]; rfl
  have f3 := f2 fl s a imageBytes
  unfold writeImageFuel
  dsimp only
  rw [← ha]
  generalize s.forgetAt a imageBytes fl = v at f3
  have hv : ∀ z, v.place z = s.place z := fun z => by rw [f3]; rfl
  have hh : v.imageHeader d seq = [(0, leBytes 2 (s.agreed 4)), (2, leBytes 1 d), (8, leBytes 6 seq), (16, leBytes 2 (if d = s.lead then 11 else 10))] := by
    have e1 : v.agreed 4 = s.agreed 4 := by rw [f3]; rfl
    have e2 : v.lead = s.lead := by rw [f3]; rfl
    unfold State.imageHeader
    rw [e1, e2]
  rw [hh]
  simp only [List.foldl_cons, List.foldl_nil, Nat.add_zero]
  generalize hw : (((v.setBytes a (leBytes 2 (s.agreed 4))).setBytes (a + 2) (leBytes 1 d)).setBytes (a + 8) (leBytes 6 seq)).setBytes (a + 16) (leBytes 2 (if d = s.lead then 11 else 10)) = w
  have hb : ∀ j < 18, w.byteAt (a + j) = if 16 ≤ j then (leBytes 2 (if d = s.lead then 11 else 10)).getD (j - 16) 0 else if 8 ≤ j ∧ j < 14 then (leBytes 6 seq).getD (j - 8) 0 else if j = 2 then (leBytes 1 d).getD 0 0
      else if j < 2 then (leBytes 2 (s.agreed 4)).getD j 0 else v.byteAt (a + j) := by
    intro j hj
    have pp : ∀ (u : State) b bs z, (u.setBytes b bs).place z = u.place z := fun u b bs z => by rw [u.setBytes_rest]; rfl
    have pv : ∀ j < 256, v.place (a + j) = a + j := fun j hj => by rw [hv]; exact hpl j hj
    rw [← hw, setBytes_plain _ _ _ _ (fun i hi => by rw [pp, pp, pp, Nat.add_assoc]; rw [length_leBytes] at hi; exact pv _ (by omega)) (by rw [pp, pp, pp]; exact pv _ (by omega)),
      setBytes_plain _ _ _ _ (fun i hi => by rw [pp, pp, Nat.add_assoc]; rw [length_leBytes] at hi; exact pv _ (by omega)) (by rw [pp, pp]; exact pv _ (by omega)),
      setBytes_plain _ _ _ _ (fun i hi => by rw [pp, Nat.add_assoc]; rw [length_leBytes] at hi; exact pv _ (by omega)) (by rw [pp]; exact pv _ (by omega)),
      setBytes_plain _ _ _ _ (fun i hi => by rw [length_leBytes] at hi; exact pv _ (by omega)) (pv _ (by omega))]
    simp only [length_leBytes]
    by_cases c1 : 16 ≤ j
    · rw [if_pos (by omega), if_pos c1]; congr 1; omega
    rw [if_neg (by omega), if_neg c1]
    by_cases c2 : 8 ≤ j ∧ j < 14
    · rw [if_pos (by omega), if_pos c2]; congr 1; omega
    rw [if_neg (by omega), if_neg c2]
    by_cases c3 : j = 2
    · rw [if_pos (by omega), if_pos c3]; congr 1; omega
    rw [if_neg (by omega), if_neg c3]
    by_cases c4 : j < 2
    · rw [if_pos (by omega), if_pos c4]; congr 1; omega
    rw [if_neg (by omega), if_neg c4]
  refine ⟨bytesAt_eq_leBytes _ _ _ _ fun i hi => ?_, ?_, bytesAt_eq_leBytes _ _ _ _ fun i hi => ?_, bytesAt_eq_leBytes _ _ _ _ fun i hi => ?_⟩
  · show w.byteAt _ = _
    rw [hb i (by omega), if_neg (by omega), if_neg (by omega), if_neg (by omega), if_pos hi]
  · show w.byteAt _ = _
    rw [hb 2 (by omega), if_neg (by omega), if_neg (by omega), if_pos rfl, getD_leBytes _ _ _ (by omega)]; simp
  · show w.byteAt _ = _
    rw [Nat.add_assoc, hb (8 + i) (by omega), if_neg (by omega), if_pos (by omega), Nat.add_sub_cancel_left]
  · show w.byteAt _ = _
    rw [Nat.add_assoc, hb (16 + i) (by omega), if_pos (by omega), Nat.add_sub_cancel_left]

theorem writeImage_header (s : State) (d seq a : Nat) (ha : a = s.imageBase d) (h0 : a % 256 = 0) (hr : s.retiredTo (a / 256) = none) (w : State) (hw : w = s.writeImage d seq) :
    w.bytesAt a 2 = leBytes 2 (s.agreed 4) ∧ w.byteAt (a + 2) = BitVec.ofNat 8 d ∧ w.bytesAt (a + 8) 6 = leBytes 6 seq ∧ w.bytesAt (a + 16) 2 = leBytes 2 (if d = s.lead then 11 else 10) := by
  obtain ⟨fl, hfl⟩ : ∃ fl, s.writeImage d seq = writeImageFuel s d seq fl := ⟨_, writeImage_eq_fuel s d seq⟩
  rw [hw, hfl]
  exact writeImageFuel_header s d seq fl a ha h0 hr

theorem foldl_writeImage_spec (seq : Nat) (g : State → Nat → State) (hg : ∀ s d, (∀ y, (∀ i < imageBytes, s.place (s.imageBase d + i) ≠ s.place y) → (g s d).byteAt y = s.byteAt y) ∧
    g s d = { s with mem := (g s d).mem, undef := (g s d).undef, job := { s.job with imageAt := (g s d).job.imageAt }, fresh := (g s d).fresh }) (ds : List Nat) : ∀ s : State, 
    (ds.foldl g s) = { s with mem := (ds.foldl g s).mem, undef := (ds.foldl g s).undef, job := { s.job with imageAt := (ds.foldl g s).job.imageAt }, fresh := (ds.foldl g s).fresh } ∧
    ∀ y, (∀ d ∈ ds, ∀ i < imageBytes, s.place (s.imageBase d + i) ≠ s.place y) → (ds.foldl g s).byteAt y = s.byteAt y := by
  induction ds with
  | nil => intro s; exact ⟨rfl, fun _ _ => rfl⟩
  | cons d ds ih =>
    intro s
    obtain ⟨w1, w2⟩ := hg s d
    obtain ⟨h1, h2⟩ := ih (g s d)
    rw [List.foldl_cons]
    generalize g s d = v at *
    have hp : ∀ z, v.place z = s.place z := fun z => by rw [w2]; rfl
    have hb : ∀ e, v.imageBase e = s.imageBase e := fun e => by rw [w2]; rfl
    refine ⟨by rw [h1, w2], fun y hy => ?_⟩
    rw [h2 y (fun e he i hi => by rw [hp, hp, hb]; exact hy e (List.mem_cons_of_mem _ he) i hi)]
    exact w1 y (hy d List.mem_cons_self)

theorem foldl_lives_spec (ls : List (Nat × Bool)) : ∀ v : State, 
    let u := ls.foldl (fun (s : State) x => s.modRegion x.1 (fun r => { r with live := x.2, prev := x.2, named := false, withheld := false, kept := false, waived := false, done := 0 })) v
    u = { v with regions := u.regions } ∧ (∀ r, (∀ x ∈ ls, x.1 ≠ r) → u.region r = v.region r) ∧
    ((ls.map (fun x => x.1)).Nodup → ∀ x ∈ ls, u.region x.1 = { v.region x.1 with live := x.2, prev := x.2, named := false, withheld := false, kept := false, waived := false, done := 0 }) := by
  induction ls with
  | nil => intro v; exact ⟨rfl, fun _ _ => rfl, fun _ x hx => by simp at hx⟩
  | cons a ls ih =>
    intro v
    obtain ⟨h1, h2, h3⟩ := ih (v.modRegion a.1 (fun r => { r with live := a.2, prev := a.2, named := false, withheld := false, kept := false, waived := false, done := 0 }))
    have k : ∀ r, (v.modRegion a.1 (fun r => { r with live := a.2, prev := a.2, named := false, withheld := false, kept := false, waived := false, done := 0 })).region r = if a.1 = r then { v.region r with live := a.2, prev := a.2, named := false, withheld := false, kept := false, waived := false, done := 0 } else v.region r := by
      intro r
      simp only [State.region, State.modRegion, tabGet_tabSet]
      split
      · rename_i h; rw [h]
      · rfl
    rw [List.foldl_cons]
    refine ⟨by rw [h1]; rfl, fun r hr => ?_, fun hn x hx => ?_⟩
    · rw [h2 r (fun x hx => hr x (List.mem_cons_of_mem _ hx)), k, if_neg (hr a List.mem_cons_self)]
    · rw [List.map_cons, List.nodup_cons] at hn
      rcases List.mem_cons.1 hx with rfl | hx
      · rw [h2 _ (fun y hy e => hn.1 (List.mem_map.2 ⟨y, hy, e⟩)), k, if_pos rfl]
      · rw [h3 hn.2 x hx, k, if_neg (fun e => hn.1 (List.mem_map.2 ⟨x, hx, e.symm⟩))]

theorem foldl_mirrors_spec (ls : List (Nat × Bool)) : ∀ v : State, 
    let u := ls.foldl (fun (s : State) x => s.modDie (s.region x.1).die (fun y => { y with mirrorLive := tabSet y.mirrorLive x.1 x.2 })) v
    u = { v with dies := u.dies } ∧ (∀ d r, (∀ x ∈ ls, x.1 ≠ r) → tabGet (u.die d).mirrorLive r false = tabGet (v.die d).mirrorLive r false) ∧
    ((ls.map (fun x => x.1)).Nodup → ∀ x ∈ ls, tabGet (u.die (u.region x.1).die).mirrorLive x.1 false = x.2) := by
  induction ls with
  | nil => intro v; exact ⟨rfl, fun _ _ _ => rfl, fun _ x hx => by simp at hx⟩
  | cons a ls ih =>
    intro v
    obtain ⟨h1, h2, h3⟩ := ih (v.modDie (v.region a.1).die (fun y => { y with mirrorLive := tabSet y.mirrorLive a.1 a.2 }))
    rw [List.foldl_cons]
    refine ⟨by rw [h1]; rfl, fun d r hr => ?_, fun hn x hx => ?_⟩
    · rw [h2 d r (fun x hx => hr x (List.mem_cons_of_mem _ hx))]
      by_cases hd : d = (v.region a.1).die
      · subst hd; rw [State.die_modDie_same]; exact tabGet_tabSet_ne _ _ _ (hr a List.mem_cons_self)
      · rw [State.die_modDie_ne _ _ (Ne.symm hd)]
    · rw [List.map_cons, List.nodup_cons] at hn
      rcases List.mem_cons.1 hx with rfl | hx
      · rw [h2 _ _ (fun y hy e => hn.1 (List.mem_map.2 ⟨y, hy, e⟩))]
        have : (List.foldl (fun (s : State) x => s.modDie (s.region x.1).die (fun y => { y with mirrorLive := tabSet y.mirrorLive x.1 x.2 })) (v.modDie (v.region x.1).die (fun y => { y with mirrorLive := tabSet y.mirrorLive x.1 x.2 })) ls).region x.1 = v.region x.1 := by
          rw [h1]; rfl
        rw [this, State.die_modDie_same, tabGet_tabSet_same]
      · exact h3 hn.2 x hx

theorem pendWrite_bits (s : State) (r : RegId) (q : PendW) (i : Nat) (hi : i < 64) :
    (assocGet (s.pendWrite r q).pend r pendNone).mask.getLsbD i = (q.mask.getLsbD i || (assocGet s.pend r pendNone).mask.getLsbD i) ∧
    (assocGet (s.pendWrite r q).pend r pendNone).val.getLsbD i = if q.mask.getLsbD i then q.val.getLsbD i else (assocGet s.pend r pendNone).val.getLsbD i := by
  unfold State.pendWrite
  split
  · rename_i h; rw [h]; simp
  · simp only [assocGet_assocSet_same, PendW.over, BitVec.getLsbD_or, BitVec.getLsbD_and, BitVec.getLsbD_not, hi, decide_true, Bool.true_and]
    cases q.mask.getLsbD i <;> cases q.val.getLsbD i <;> cases (assocGet s.pend r pendNone).mask.getLsbD i <;> cases (assocGet s.pend r pendNone).val.getLsbD i <;> simp

theorem maskBits (lo w i : Nat) (hi : i < 64) : (BitVec.ofNat 64 ((2 ^ w - 1) <<< lo)).getLsbD i = decide (lo ≤ i ∧ i < lo + w) := by
  rw [BitVec.getLsbD_ofNat, Nat.testBit_shiftLeft, Nat.testBit_two_pow_sub_one]
  simp only [hi, decide_true, Bool.true_and]
  by_cases h : lo ≤ i
  · simp [h]; omega
  · simp [h]

theorem valBits (lo v i : Nat) (hi : i < 64) (h : lo ≤ i) : (BitVec.ofNat 64 (v <<< lo)).getLsbD i = v.testBit (i - lo) := by
  rw [BitVec.getLsbD_ofNat, Nat.testBit_shiftLeft]
  simp [hi, h]

theorem pendBits (s : State) (r : RegId) (lo w v i : Nat) (hi : i < 64) :
    let t := s.pendWrite r { mask := BitVec.ofNat 64 ((2 ^ w - 1) <<< lo), val := BitVec.ofNat 64 (v <<< lo) }
    (assocGet t.pend r pendNone).mask.getLsbD i = (decide (lo ≤ i ∧ i < lo + w) || (assocGet s.pend r pendNone).mask.getLsbD i) ∧
    (assocGet t.pend r pendNone).val.getLsbD i = if lo ≤ i ∧ i < lo + w then v.testBit (i - lo) else (assocGet s.pend r pendNone).val.getLsbD i := by
  obtain ⟨h1, h2⟩ := pendWrite_bits s r { mask := BitVec.ofNat 64 ((2 ^ w - 1) <<< lo), val := BitVec.ofNat 64 (v <<< lo) } i hi
  dsimp only
  rw [h1, h2]
  dsimp only
  rw [maskBits lo w i hi]
  refine ⟨rfl, ?_⟩
  by_cases h : lo ≤ i ∧ i < lo + w
  · rw [if_pos (by simpa using h), if_pos h, valBits lo v i hi h.1]
  · rw [if_neg (by simpa using h), if_neg h]

theorem foldl_flip (rs : List Nat) : ∀ t : Tab Bool, (rs.Nodup → ∀ r, tabGet (rs.foldl (fun t r => tabSet t r (!tabGet t r false)) t) r false = if r ∈ rs then !tabGet t r false else tabGet t r false) := by
  induction rs with
  | nil => intro t _ r; simp
  | cons a rs ih =>
    intro t hn r
    rw [List.nodup_cons] at hn
    rw [List.foldl_cons, ih _ hn.2, tabGet_tabSet]
    by_cases h : a = r
    · subst h; simp [hn.1]
    · simp [h, Ne.symm h]

theorem mem_insertAsc (x : Nat) : ∀ (l : List Nat) (i : Nat), i ∈ insertAsc x l ↔ i = x ∨ i ∈ l := by
  intro l
  induction l with
  | nil => intro i; simp [insertAsc]
  | cons a l ih =>
    intro i
    unfold insertAsc
    split
    · simp
    · split
      · rename_i h1 h2; subst h2; simp
      · simp only [List.mem_cons, ih]; tauto

theorem mem_foldl_insertAsc : ∀ (xs l : List Nat) (i : Nat), i ∈ xs.foldl (fun l i => insertAsc i l) l ↔ i ∈ xs ∨ i ∈ l := by
  intro xs
  induction xs with
  | nil => intro l i; simp
  | cons a xs ih => intro l i; rw [List.foldl_cons, ih, mem_insertAsc]; simp only [List.mem_cons]; tauto

theorem digestsDiffer_iff (rs : List RootReport) : digestsDiffer rs = true ↔ ∃ a ∈ rs, ∃ b ∈ rs, a.digest ≠ b.digest := by
  cases rs with
  | nil => simp [digestsDiffer]
  | cons r t =>
    simp only [digestsDiffer, List.any_eq_true, decide_eq_true_eq]
    constructor
    · rintro ⟨x, hx, h⟩; exact ⟨x, List.mem_cons_of_mem _ hx, r, List.mem_cons_self, h⟩
    · rintro ⟨a, ha, b, hb, h⟩
      by_contra hc
      have hall : ∀ x ∈ r :: t, x.digest = r.digest := by
        intro x hx
        rcases List.mem_cons.1 hx with rfl | hx
        · rfl
        · by_contra h'; exact hc ⟨x, hx, h'⟩
      exact h ((hall a ha).trans (hall b hb).symm)

theorem mem_differing (rs : List RootReport) (i : Nat) : i ∈ differing rs ↔ ∃ a ∈ rs, ∃ b ∈ rs, a.index = i ∧ b.index = i ∧ a.digest ≠ b.digest := by
  unfold differing
  rw [List.mem_filter, mem_foldl_insertAsc, digestsDiffer_iff]
  simp only [List.mem_map, List.mem_filter, decide_eq_true_eq, List.not_mem_nil, or_false]
  constructor
  · rintro ⟨_, a, ⟨ha, ha'⟩, b, ⟨hb, hb'⟩, h⟩; exact ⟨a, ha, b, hb, ha', hb', h⟩
  · rintro ⟨a, ha, b, hb, ha', hb', h⟩; exact ⟨⟨a, ha, ha'⟩, a, ⟨ha, ha'⟩, b, ⟨hb, hb'⟩, h⟩

theorem bisection_set_same (s : State) (shard : Nat) (b) : (s.setBisection shard b).bisection shard = b := by
  have h : (s.team.bisect.filter (fun x => decide (x.1 ≠ shard))).find? (fun b => decide (b.1 = shard)) = none := by
    rw [List.find?_eq_none]; intro x hx; simpa using (List.mem_filter.1 hx).2
  unfold State.bisection State.setBisection
  cases b with
  | none => dsimp only; rw [h]
  | some b => dsimp only; rw [List.find?_append, h]; simp

theorem find_filter_ne (l : List (Nat × Nat × Nat × List Nat)) (x shard : Nat) (h : x ≠ shard) : (l.filter (fun y => decide (y.1 ≠ shard))).find? (fun b => decide (b.1 = x)) = l.find? (fun b => decide (b.1 = x)) := by
  induction l with
  | nil => rfl
  | cons a l ih =>
    rw [List.filter_cons]
    split
    · rw [List.find?_cons, List.find?_cons, ih]
    · rename_i hc
      have hc : a.1 = shard := by simpa using hc
      rw [ih, List.find?_cons]
      have : decide (a.1 = x) = false := by rw [hc]; simpa using Ne.symm h
      rw [this]

theorem bisection_set_ne (s : State) (shard x : Nat) (b) (h : x ≠ shard) : (s.setBisection shard b).bisection x = s.bisection x := by
  have := find_filter_ne s.team.bisect x shard h
  unfold State.bisection State.setBisection
  cases b with
  | none => dsimp only; rw [this]
  | some b =>
    dsimp only
    rw [List.find?_append, this]
    have h2 : [(shard, b)].find? (fun y => decide (y.1 = x)) = none := by simp [Ne.symm h]
    rw [h2, Option.or_none]

theorem foldl_max_step (rs : List RootReport) (m : Nat) (h : ∀ r ∈ rs, r.step ≤ m) (h2 : ∃ r ∈ rs, r.step = m) : (rs.map (fun r => r.step)).foldl max 0 = m := by
  have key : ∀ (l : List Nat) (a : Nat), a ≤ l.foldl max a ∧ (∀ x ∈ l, x ≤ l.foldl max a) ∧ (l.foldl max a = a ∨ l.foldl max a ∈ l) := by
    intro l
    induction l with
    | nil => intro a; simp
    | cons b l ih =>
      intro a
      rw [List.foldl_cons]
      obtain ⟨i1, i2, i3⟩ := ih (max a b)
      refine ⟨by omega, fun x hx => ?_, ?_⟩
      · rcases List.mem_cons.1 hx with rfl | hx
        · omega
        · exact i2 x hx
      · rcases i3 with h | h
        · rcases Nat.le_total a b with hh | hh
          · right; rw [h, Nat.max_eq_right hh]; exact List.mem_cons_self
          · left; rw [h, Nat.max_eq_left hh]
        · right; exact List.mem_cons_of_mem _ h
  obtain ⟨k1, k2, k3⟩ := key (rs.map (fun r => r.step)) 0
  obtain ⟨r, hr, e⟩ := h2
  have a1 := k2 r.step (List.mem_map.2 ⟨r, hr, rfl⟩)
  rcases k3 with h0 | h0
  · omega
  · obtain ⟨r', hr', e'⟩ := List.mem_map.1 h0
    have := h r' hr'
    omega

/-- What ordering the repair of a block on some replicas does: a hand-over of each, and a note of each (R406). -/
theorem foldl_orderRepair_spec (shard block : Nat) (rs : List RootReport) : ∀ (bs : List Nat) (s : State), ∃ ps : List (Nat × Nat),
    bs.foldl (fun s r => s.orderRepair shard block rs r) s = { s with
      wire := s.wire ++ bs.map (fun r => .repair shard block r (goodCopy rs r).1 (goodCopy rs r).2), team := { s.team with repairs := ps } } ∧
    ∀ x, x ∈ ps ↔ x ∈ s.team.repairs ∨ (x.1 = shard ∧ x.2 ∈ bs) := by
  intro bs
  induction bs with
  | nil => intro s; exact ⟨s.team.repairs, by simp, by simp⟩
  | cons a bs ih =>
    intro s
    have h1 : ∃ qs : List (Nat × Nat), s.orderRepair shard block rs a = { s with
        wire := s.wire ++ [.repair shard block a (goodCopy rs a).1 (goodCopy rs a).2], team := { s.team with repairs := qs } } ∧
        ∀ x, x ∈ qs ↔ x ∈ s.team.repairs ∨ x = (shard, a) := by
      unfold State.orderRepair
      by_cases hm : (shard, a) ∈ s.team.repairs
      · refine ⟨s.team.repairs, if_pos hm, fun x => ⟨Or.inl, ?_⟩⟩
        rintro (h | rfl)
        · exact h
        · exact hm
      · exact ⟨s.team.repairs ++ [(shard, a)], if_neg hm, fun x => by simp⟩
    obtain ⟨qs, e1, m1⟩ := h1
    rw [List.foldl_cons, e1]
    obtain ⟨ps, e2, m2⟩ := ih { s with
      wire := s.wire ++ [.repair shard block a (goodCopy rs a).1 (goodCopy rs a).2], team := { s.team with repairs := qs } }
    refine ⟨ps, by rw [e2]; simp [List.append_assoc], fun x => ?_⟩
    rw [m2, m1, List.mem_cons]
    obtain ⟨x1, x2⟩ := x
    simp only [Prod.mk.injEq]
    constructor
    · rintro ((h | ⟨h, h'⟩) | ⟨h, h'⟩)
      · exact .inl h
      · exact .inr ⟨h, .inl h'⟩
      · exact .inr ⟨h, .inr h'⟩
    · rintro (h | ⟨h, h' | h'⟩)
      · exact .inl (.inl h)
      · exact .inl (.inr ⟨h, h'⟩)
      · exact .inr ⟨h, h'⟩

theorem judgeBlock_spec (s : State) (shard block : Nat) (rs : List RootReport) :
    (badReplicas rs = [] → s.judgeBlock shard block rs = s.raise (mkEv 151 s.lead 0xFF 24 0 [(4, shard), (2, block)])) ∧
    (badReplicas rs ≠ [] → ∃ ps : List (Nat × Nat), s.judgeBlock shard block rs = { s with
        wire := s.wire ++ (badReplicas rs).map (fun r => .repair shard block r (goodCopy rs r).1 (goodCopy rs r).2), team := { s.team with repairs := ps } } ∧
      ∀ x, x ∈ ps ↔ x ∈ s.team.repairs ∨ (x.1 = shard ∧ x.2 ∈ badReplicas rs)) := by
  unfold State.judgeBlock
  cases badReplicas rs with
  | nil => exact ⟨fun _ => rfl, fun h => (h rfl).elim⟩
  | cons a l => exact ⟨fun h => (by cases h), fun _ => foldl_orderRepair_spec shard block rs _ s⟩

/-- What judging a block hands over and notes, whichever way it goes. -/
theorem judgeBlock_wire (s : State) (shard block : Nat) (rs : List RootReport) :
    (s.judgeBlock shard block rs).wire = s.wire ++ (badReplicas rs).map (fun r => .repair shard block r (goodCopy rs r).1 (goodCopy rs r).2) ∧
    (∀ x, x ∈ (s.judgeBlock shard block rs).team.repairs ↔ x ∈ s.team.repairs ∨ (x.1 = shard ∧ x.2 ∈ badReplicas rs)) ∧
    ∀ a, (s.judgeBlock shard block rs).byteAt a = s.byteAt a := by
  by_cases h : badReplicas rs = []
  · rw [(judgeBlock_spec ..).1 h, h]
    have hr := State.raise_raised (Raised.refl s) (mkEv 151 s.lead 0xFF 24 0 [(4, shard), (2, block)])
    refine ⟨?_, ?_, hr.mem⟩
    · rw [hr.rest]; simp
    · rw [hr.rest]; simp
  · obtain ⟨ps, e, m⟩ := (judgeBlock_spec s shard block rs).2 h
    rw [e]; exact ⟨rfl, m, fun _ => rfl⟩

theorem foldl_judgeBlock_spec (shard : Nat) (rs : List RootReport) : ∀ (ds : List Nat) (u : State),
    (ds.foldl (fun v b => v.judgeBlock shard (b + 1) (rs.filter (fun r => decide (r.index = b)))) u).wire = u.wire ++ ds.flatMap (fun b =>
      (badReplicas (rs.filter (fun r => decide (r.index = b)))).map (fun r => .repair shard (b + 1) r (goodCopy (rs.filter (fun r => decide (r.index = b))) r).1
        (goodCopy (rs.filter (fun r => decide (r.index = b))) r).2)) ∧
    (∀ x, x ∈ (ds.foldl (fun v b => v.judgeBlock shard (b + 1) (rs.filter (fun r => decide (r.index = b)))) u).team.repairs ↔
      x ∈ u.team.repairs ∨ (x.1 = shard ∧ ∃ b ∈ ds, x.2 ∈ badReplicas (rs.filter (fun r => decide (r.index = b))))) ∧
    ∀ a, (ds.foldl (fun v b => v.judgeBlock shard (b + 1) (rs.filter (fun r => decide (r.index = b)))) u).byteAt a = u.byteAt a := by
  intro ds
  induction ds with
  | nil => intro u; simp
  | cons d ds ih =>
    intro u
    rw [List.foldl_cons]
    obtain ⟨h1, hm, h2⟩ := ih (u.judgeBlock shard (d + 1) (rs.filter (fun r => decide (r.index = d))))
    obtain ⟨g1, gm, g2⟩ := judgeBlock_wire u shard (d + 1) (rs.filter (fun r => decide (r.index = d)))
    refine ⟨?_, fun x => ?_, fun a => (h2 a).trans (g2 a)⟩
    · rw [h1, g1]; simp [List.append_assoc]
    · rw [hm, gm]
      simp only [List.mem_cons]
      constructor
      · rintro ((h | ⟨h, h'⟩) | ⟨h, b, hb, h'⟩)
        · exact .inl h
        · exact .inr ⟨h, d, .inl rfl, h'⟩
        · exact .inr ⟨h, b, .inr hb, h'⟩
      · rintro (h | ⟨h, b, rfl | hb, h'⟩)
        · exact .inl (.inl h)
        · exact .inl (.inr ⟨h, h'⟩)
        · exact .inr ⟨h, b, hb, h'⟩

/-- The replicas whose root still differs after a repair are handed over to firmware, one message each. -/
theorem foldl_send_escalate (shard : Nat) : ∀ (bs : List Nat) (s : State),
    bs.foldl (fun s r => s.send (.escalate shard r)) s = { s with wire := s.wire ++ bs.map (fun r => .escalate shard r) } := by
  intro bs
  induction bs with
  | nil => intro s; simp
  | cons a bs ih => intro s; rw [List.foldl_cons, ih]; simp [State.send]

/-- Which replicas a root report finds unrepaired (R406). -/
theorem mem_unrepaired (s : State) (shard : Nat) (rs : List RootReport) (i : Nat) : i ∈ s.unrepaired shard rs ↔
    ∃ r ∈ rs, r.replica = i ∧ (shard, i) ∈ s.team.repairs ∧ (match majority rs with
      | some g => r.digest ≠ g
      | none => ∃ a ∈ rs, ∃ b ∈ rs, a.digest ≠ b.digest) := by
  unfold State.unrepaired
  simp only [List.mem_map, List.mem_filter, Bool.and_eq_true, List.contains_iff_mem]
  constructor
  · rintro ⟨r, ⟨h1, h2, h3⟩, rfl⟩
    refine ⟨r, h1, rfl, h2, ?_⟩
    cases hm : majority rs with
    | some g => rw [hm] at h3; simpa using h3
    | none => rw [hm] at h3; exact (digestsDiffer_iff rs).1 h3
  · rintro ⟨r, h1, rfl, h2, h3⟩
    refine ⟨r, ⟨h1, h2, ?_⟩, rfl⟩
    cases hm : majority rs with
    | some g => rw [hm] at h3; simpa using h3
    | none => rw [hm] at h3; exact (digestsDiffer_iff rs).2 h3

theorem majority_some (rs : List RootReport) (g : BitVec 64) (h : rs.length < 2 * (rs.filter (fun x => decide (x.digest = g))).length) : majority rs = some g := by
  unfold majority
  have uniq : ∀ g' : BitVec 64, rs.length < 2 * (rs.filter (fun x => decide (x.digest = g'))).length → g' = g := by
    intro g' h'
    by_contra hne
    have hdis : (rs.filter (fun x => decide (x.digest = g))).length + (rs.filter (fun x => decide (x.digest = g'))).length ≤ rs.length := by
      clear h h'
      induction rs with
      | nil => simp
      | cons a l ih =>
        simp only [List.filter_cons]
        by_cases h1 : a.digest = g
        · have h2 : ¬ a.digest = g' := fun e => hne (e.symm.trans h1)
          simp [h1, h2, Ne.symm hne]; omega
        · by_cases h2 : a.digest = g'
          · simp [h1, h2, hne]; omega
          · simp [h1, h2]; omega
    omega
  have hpos : 0 < (rs.filter (fun x => decide (x.digest = g))).length := by omega
  obtain ⟨x, hx⟩ := List.exists_mem_of_length_pos hpos
  obtain ⟨hx, hg⟩ := List.mem_filter.1 hx
  have hg : x.digest = g := by simpa using hg
  cases hf : rs.find? (fun r => decide (rs.length < 2 * (rs.filter (fun x => decide (x.digest = r.digest))).length)) with
  | none => exact absurd (List.find?_eq_none.1 hf x hx) (by rw [hg]; simpa using h)
  | some r =>
    have := List.find?_some hf
    rw [Option.map_some, uniq r.digest (by simpa using this)]

theorem majority_none (rs : List RootReport) (h : ∀ g : BitVec 64, 2 * (rs.filter (fun x => decide (x.digest = g))).length ≤ rs.length) : majority rs = none := by
  unfold majority
  rw [Option.map_eq_none_iff, List.find?_eq_none]
  intro x hx
  have := h x.digest
  simp only [decide_eq_true_eq]; omega

theorem ledgerOrder_of_fits {s : State} {src : Src} {d e : Nat} {need : List Nat} {act : State → State} (h : src = .mgmt d) (h2 : s.rd (LEDGER_FRAME_STATE d e) ∈ need) : s.ledgerOrder src d e need act = act s := by
  unfold State.ledgerOrder; rw [if_pos ⟨h, h2⟩]

theorem ledgerOrder_of_not {s : State} {src : Src} {d e : Nat} {need : List Nat} {act : State → State} (h : src ≠ .mgmt d ∨ s.rd (LEDGER_FRAME_STATE d e) ∉ need) :
    s.ledgerOrder src d e need act = s.raise (mkEv 1 d 0xFF 17 0 [(6, (RegId.LEDGER_CTRL d).addr), (1, 17)]) := by
  unfold State.ledgerOrder
  rw [if_neg]
  · rfl
  · rintro ⟨a, b⟩; rcases h with h | h
    · exact h a
    · exact h b

theorem active_iff (s : State) (d : Nat) : (s.activeEntry d).isSome = true ↔ ∃ i < 64, s.rd (LEDGER_FRAME_STATE d i) = 2 := by
  unfold State.activeEntry State.openEntries
  rw [List.find?_isSome]
  simp only [List.mem_filter, List.mem_range, decide_eq_true_eq]
  constructor
  · rintro ⟨i, ⟨h1, h2⟩, h3⟩; exact ⟨i, h1, h3⟩
  · rintro ⟨i, h1, h3⟩; exact ⟨i, ⟨h1, by omega⟩, h3⟩

theorem coreEntry_iff (s : State) (x c : Nat) : s.coreEntry x c = true ↔ ∃ i < 64, s.rd (LEDGER_FRAME_STATE x i) ≠ 0 ∧ (levelOf (s.rd (LEDGER_NUMBER x i))).2 = false ∧ s.entryDom x i = .core x c := by
  unfold State.coreEntry State.hardEntries State.openEntries
  simp only [List.any_eq_true, List.mem_filter, List.mem_range, decide_eq_true_eq, Bool.not_eq_true']
  constructor
  · rintro ⟨i, ⟨⟨h1, h2⟩, h3⟩, h4⟩; exact ⟨i, h1, h2, h3, h4⟩
  · rintro ⟨i, h1, h2, h3, h4⟩; exact ⟨i, ⟨⟨h1, h2⟩, h3⟩, h4⟩

theorem wr_state_other (s : State) (d e x i v : Nat) (h : (x, i) ≠ (d, e)) : (s.wr (LEDGER_FRAME_STATE d e) v).rd (LEDGER_FRAME_STATE x i) = s.rd (LEDGER_FRAME_STATE x i) := by
  apply State.rd_congr
  exact State.word_wr_ne _ _ (fun e' => h (by injection e' with a b; rw [a, b]))

theorem wr_entryDom (s : State) (d e x i v : Nat) : (s.wr (LEDGER_FRAME_STATE d e) v).entryDom x i = s.entryDom x i ∧ (s.wr (LEDGER_FRAME_STATE d e) v).rd (LEDGER_NUMBER x i) = s.rd (LEDGER_NUMBER x i) := by
  have n1 : ∀ r : FRef, (∀ a b, r.reg ≠ .LEDGER_FRAME a b) → (s.wr (LEDGER_FRAME_STATE d e) v).rd r = s.rd r := fun r h => State.rd_wr_ne _ _ (fun e' => h _ _ e'.symm)
  refine ⟨?_, n1 _ (fun _ _ => by nofun)⟩
  unfold State.entryDom
  rw [n1 _ (fun _ _ => by nofun), n1 _ (fun _ _ => by nofun), n1 _ (fun _ _ => by nofun), n1 _ (fun _ _ => by nofun), n1 _ (fun _ _ => by nofun), n1 _ (fun _ _ => by nofun), n1 _ (fun _ _ => by nofun)]

theorem coreEntry_wr (s : State) (d e x c : Nat) : (s.wr (LEDGER_FRAME_STATE d e) 0).coreEntry x c = true ↔
    ∃ i < 64, (x, i) ≠ (d, e) ∧ s.rd (LEDGER_FRAME_STATE x i) ≠ 0 ∧ (levelOf (s.rd (LEDGER_NUMBER x i))).2 = false ∧ s.entryDom x i = .core x c := by
  rw [coreEntry_iff]
  constructor
  · rintro ⟨i, h1, h2, h3, h4⟩
    have hne : (x, i) ≠ (d, e) := by
      intro he
      injection he with a b
      subst a b
      exact h2 (State.rd_wr_same _ _ _ fle)
    rw [wr_state_other _ _ _ _ _ _ hne] at h2
    rw [(wr_entryDom s d e x i 0).2] at h3
    rw [(wr_entryDom s d e x i 0).1] at h4
    exact ⟨i, h1, hne, h2, h3, h4⟩
  · rintro ⟨i, h1, hne, h2, h3, h4⟩
    refine ⟨i, h1, ?_, ?_, ?_⟩
    · rw [wr_state_other _ _ _ _ _ _ hne]; exact h2
    · rw [(wr_entryDom s d e x i 0).2]; exact h3
    · rw [(wr_entryDom s d e x i 0).1]; exact h4

/-- The core part of closing an entry. -/
theorem closeEntry_core (s y : State) (x c : Nat) (cl : List Nat) (hy : y = s.modCore x c (fun z => { z with closings := cl })) : ∃ w : State,
    w = (if y.coreEntry x c then y else y.modCore x c (fun z => { z with parked := false })) ∧ w = { s with cores := w.cores } ∧ (w.core x c).closings = cl ∧
    (∀ k, k ≠ coreKey x c → tabGet w.cores k coreReset = tabGet s.cores k coreReset) ∧
    w.core x c = { s.core x c with closings := cl, parked := (s.core x c).parked && s.coreEntry x c } := by
  have hc : y.coreEntry x c = s.coreEntry x c := by rw [hy]; rfl
  have hyc : y.core x c = { s.core x c with closings := cl } := by rw [hy]; exact State.core_modCore_same ..
  have hyo : ∀ k, k ≠ coreKey x c → tabGet y.cores k coreReset = tabGet s.cores k coreReset := by
    intro k hk; rw [hy]; exact tabGet_tabSet_ne _ _ _ (Ne.symm hk)
  refine ⟨_, rfl, ?_⟩
  rw [hc]
  cases hs : s.coreEntry x c
  · refine ⟨?_, ?_, fun k hk => ?_, ?_⟩
    · rw [hy]; rfl
    · rw [if_neg (by decide), State.core_modCore_same, hyc]
    · rw [if_neg (by decide)]; exact (tabGet_tabSet_ne _ _ _ (Ne.symm hk)).trans (hyo k hk)
    · rw [if_neg (by decide), State.core_modCore_same, hyc]; simp
  · rw [if_pos rfl]
    refine ⟨by rw [hy]; rfl, by rw [hyc], hyo, by rw [hyc]; simp⟩

end Sys2Proof.Machine
end

