-- ==== Sys2Proof/Laws/Dray.lean ====
section
/-! SUPPORT. Lemmas of channels, records and the memory of a die. -/

set_option linter.unusedSimpArgs false
set_option linter.unusedVariables false

namespace Sys2Proof.Machine

theorem firstIdx_eq {α : Type} (p : α → Bool) (d : Nat) : ∀ (xs : List α) (i : Nat) (r : α), xs[i]? = some r → p r = true → (∀ j < i, ∀ y, xs[j]? = some y → p y = false) → firstIdx xs p d = i := by
  intro xs
  induction xs with
  | nil => intro i r h; simp at h
  | cons a xs ih =>
    intro i r h hp hj
    unfold firstIdx
    cases i with
    | zero => simp at h; subst h; rw [if_pos hp]
    | succ i =>
      have := hj 0 (by omega) a rfl
      rw [if_neg (by rw [this]; decide), ih i r (by simpa using h) hp (fun j h' y hy => hj (j + 1) (by omega) y (by simpa using hy))]
      omega

theorem firstIdx_spec {α : Type} (p : α → Bool) : ∀ (xs : List α) (i : Nat), firstIdx xs p 0 = i → i < xs.length → (∀ r, xs[i]? = some r → p r = true) ∧ (∀ j < i, ∀ y, xs[j]? = some y → p y = false) := by
  intro xs
  induction xs with
  | nil => intro i h hl; simp at hl
  | cons a xs ih =>
    intro i h hl
    unfold firstIdx at h
    split at h
    · subst h; rename_i hp; exact ⟨fun r hr => by simp at hr; subst hr; exact hp, fun j hj => by omega⟩
    · rename_i hp
      have hp : p a = false := by simpa using hp
      obtain ⟨k, hk⟩ : ∃ k, i = k + 1 := ⟨i - 1, by omega⟩
      subst hk
      obtain ⟨h1, h2⟩ := ih k (by omega) (by simpa using hl)
      refine ⟨fun r hr => h1 r (by simpa using hr), fun j hj y hy => ?_⟩
      cases j with
      | zero => simp at hy; subst hy; exact hp
      | succ j => exact h2 j (by omega) y (by simpa using hy)

theorem nextRun_spec (s : State) (d n i : Nat) (h : s.nextRun d n = some i) (r : DRun) (hr : (s.chan d n).q[i]? = some r) :
    r.started = false ∧ (s.chan d n).live = true ∧ (s.chan d n).pausing = false ∧ (∀ j < i, ∀ y, (s.chan d n).q[j]? = some y → y.started = true) ∧
    (∀ y, (s.chan d n).q[i - 1]? = some y → 0 < i → y.status.isSome = true ∨ y.readsDone y.desc = true) := by
  unfold State.nextRun at h
  dsimp only at h
  generalize hk : firstIdx (s.chan d n).q (fun r => !r.started) 0 = k at h
  split at h
  · cases h
  · rename_i hc
    simp only [not_or, not_le, Bool.not_eq_true, Bool.not_eq_false] at hc
    obtain ⟨c1, c2, c3, -, -⟩ := hc
    obtain ⟨f1, f2⟩ := firstIdx_spec _ _ _ hk c1
    have fin : k = i → (r.started = false ∧ (s.chan d n).live = true ∧ (s.chan d n).pausing = false ∧ (∀ j < i, ∀ y, (s.chan d n).q[j]? = some y → y.started = true)) := by
      intro e; subst e
      exact ⟨by simpa using f1 r hr, by simpa using c2, c3, fun j hj y hy => by simpa using f2 j hj y hy⟩
    split at h
    · rename_i h0
      injection h with h; subst h
      obtain ⟨a, b, c, e⟩ := fin h0
      exact ⟨a, b, c, e, fun y hy h' => absurd h' (by omega)⟩
    · split at h
      · rename_i y hy
        split at h
        · rename_i hz
          injection h with h; subst h
          obtain ⟨a, b, c, e⟩ := fin rfl
          refine ⟨a, b, c, e, fun y' hy' _ => ?_⟩
          rw [hy] at hy'; injection hy' with hy'; subst hy'
          exact hz
        · cases h
      · cases h

theorem mostUrgent_spec (s : State) (d : Nat) : ∀ (ns : List Nat), match s.mostUrgent d ns with
    | none => ns = []
    | some m => m ∈ ns ∧ (∀ k ∈ ns, s.urgency d m ≤ s.urgency d k) ∧ (ns.Pairwise (· < ·) → ∀ k ∈ ns, s.urgency d k = s.urgency d m → m ≤ k) := by
  intro ns
  induction ns with
  | nil => rfl
  | cons a ns ih =>
    unfold State.mostUrgent
    cases hm : s.mostUrgent d ns with
    | none =>
      rw [hm] at ih
      have ih : ns = [] := ih
      subst ih
      exact ⟨List.mem_cons_self, fun k hk => by simp at hk; subst hk; exact Nat.le_refl _, fun _ k hk _ => by simp at hk; subst hk; exact Nat.le_refl _⟩
    | some m =>
      rw [hm] at ih
      obtain ⟨h1, h2, h3⟩ : m ∈ ns ∧ (∀ k ∈ ns, s.urgency d m ≤ s.urgency d k) ∧ (ns.Pairwise (· < ·) → ∀ k ∈ ns, s.urgency d k = s.urgency d m → m ≤ k) := ih
      dsimp only
      by_cases hle : s.urgency d a ≤ s.urgency d m
      · rw [if_pos hle]
        refine ⟨List.mem_cons_self, fun k hk => ?_, fun hs k hk _ => ?_⟩
        · rcases List.mem_cons.1 hk with rfl | hk
          · exact Nat.le_refl _
          · exact Nat.le_trans hle (h2 k hk)
        · rcases List.mem_cons.1 hk with rfl | hk
          · exact Nat.le_refl _
          · exact Nat.le_of_lt ((List.pairwise_cons.1 hs).1 k hk)
      · rw [if_neg hle]
        refine ⟨List.mem_cons_of_mem _ h1, fun k hk => ?_, fun hs k hk he => ?_⟩
        · rcases List.mem_cons.1 hk with rfl | hk
          · omega
          · exact h2 k hk
        · rcases List.mem_cons.1 hk with rfl | hk
          · omega
          · exact h3 ((List.pairwise_cons.1 hs).2) k hk he

theorem mem_insertAsc' (x : Nat) : ∀ (l : List Nat) (i : Nat), i ∈ insertAsc x l ↔ i = x ∨ i ∈ l := by
  intro l
  induction l with
  | nil => intro i; simp [insertAsc]
  | cons a l ih =>
    intro i
    unfold insertAsc
    split
    · simp
    · split
      · rename_i h1 h2; subst h2; simp
      · simp only [List.mem_cons, ih]; tauto

theorem answered_links_only (s : State) (d r t : Nat) : s.answered d r t = { s with links := (s.answered d r t).links } := by
  unfold State.answered
  split
  · rfl
  · split <;> rfl

theorem answered_chan_eq (s : State) (d r t e n : Nat) : (s.answered d r t).chan e n = s.chan e n := by
  rw [answered_links_only]; rfl

theorem mapIdx_at {α : Type} (l : List α) (f : α → α) (i j : Nat) : (l.mapIdx (fun k r => if k = i then f r else r))[j]? = if j = i then (l[j]?).map f else l[j]? := by
  rw [List.getElem?_mapIdx]
  by_cases h : j = i
  · simp [h]
  · simp [h]

theorem crossed_links_only (s : State) (o : Option Nat) (d e : Nat) (l : Option (Nat × Nat)) : s.crossed o d e l = { s with items := (s.crossed o d e l).items } := by
  unfold State.crossed
  cases o with
  | none => rfl
  | some k =>
    dsimp only
    have key : ∀ ks : List Nat, ∀ f : Item → Item, (if ks = [] then s else s.modItem k f) = { s with items := (if ks = [] then s else s.modItem k f).items } := by
      intro ks f
      by_cases h : ks = []
      · rw [if_pos h]
      · rw [if_neg h]; rfl
    cases l with
    | none => exact key (hopPorts d e 3) _
    | some x => exact key _ _

theorem drayStore_plain (s : State) (d : Nat) (y : DRun) (late : Option Nat) (a : Nat) (bs : List Byte) (h1 : s.slotAt a = none) (h2 : s.slotAt (s.runAddr y true a) = none)
    (h3 : s.storeBarred false (s.runAddr y true a) bs.length = false)
    (h4 : overlaps (s.runAddr y true a) bs.length (shardTable (dieOf (s.runAddr y true a))) 0x20000 = false) : s.drayStore d y.forFrame late a bs = s.setBytes (s.runAddr y true a) bs := by
  have hp : (match y.forFrame with | some f => s.resolve f true a | none => a) = s.runAddr y true a := rfl
  unfold State.drayStore State.lateWrite
  rw [h1]
  have key : (s.store0 false (s.runAddr y true a) bs).mirrorWrite (s.runAddr y true a) bs = s.setBytes (s.runAddr y true a) bs := by
    unfold State.store0
    rw [if_neg (by rw [h3]; decide), if_neg (by rw [h4]; decide)]
    unfold State.mirrorWrite
    have : (s.setBytes (s.runAddr y true a) bs).slotAt (s.runAddr y true a) = s.slotAt (s.runAddr y true a) := by
      rw [State.setBytes_rest]; rfl
    rw [this, h2]
  cases late <;> exact key

theorem firstIdx_none {α : Type} (p : α → Bool) : ∀ (xs : List α), (∀ x ∈ xs, p x = false) → firstIdx xs p 0 = xs.length := by
  intro xs
  induction xs with
  | nil => intro _; rfl
  | cons a xs ih =>
    intro h
    unfold firstIdx
    rw [if_neg (by rw [h a List.mem_cons_self]; decide), ih (fun x hx => h x (List.mem_cons_of_mem _ hx)), List.length_cons]; omega

theorem firstIdx_hit {α : Type} (p : α → Bool) : ∀ (xs : List α) (r : α), xs[firstIdx xs p 0]? = some r → p r = true := by
  intro xs
  induction xs with
  | nil => intro r h; simp at h
  | cons a xs ih =>
    intro r h
    unfold firstIdx at h
    split at h
    · simp at h; subst h; assumption
    · rw [Nat.add_comm] at h; exact ih r (by simpa using h)

theorem none_of_isNone {α : Type} {o : Option α} (h : o.isNone = true) : o = none := by cases o with
  | none => rfl
  | some _ => cases h

theorem chan_setBytes (s : State) (a : Nat) (bs : List Byte) (d n : Nat) : (s.setBytes a bs).chan d n = s.chan d n := by
  rw [State.setBytes_rest]; rfl

theorem rd_setBytes (s : State) (a : Nat) (bs : List Byte) (f : FRef) : (s.setBytes a bs).rd f = s.rd f := by
  rw [State.setBytes_rest]; rfl

def MemRegs (s z : State) : Prop := z = { s with mem := z.mem, undef := z.undef, regs := z.regs }

theorem MemRegs.wr {s z : State} (h : MemRegs s z) (f : FRef) (v : Nat) : MemRegs s (z.wr f v) := by
  unfold MemRegs
  unfold State.wr State.setWord
  generalize assocSet _ _ _ = R
  exact congrArg (fun x : State => ({ x with regs := R } : State)) h

theorem MemRegs.chan {s z : State} (h : MemRegs s z) (d n : Nat) : z.chan d n = s.chan d n := by
  have : z.chans = s.chans := by rw [h]
  unfold State.chan; rw [this]

theorem MemRegs.modChan {s z : State} (h : MemRegs s z) (d n : Nat) (f : Chan → Chan) : z.modChan d n f = { s with mem := (z.modChan d n f).mem, undef := (z.modChan d n f).undef, regs := (z.modChan d n f).regs, chans := (z.modChan d n f).chans } := by
  unfold State.modChan
  generalize tabSet _ _ _ = R
  exact congrArg (fun x : State => ({ x with chans := R } : State)) h

theorem MemRegs.setBytes (s : State) (a : Nat) (bs : List Byte) : MemRegs s (s.setBytes a bs) := by
  have h := State.setBytes_rest s a bs
  have hr : (s.setBytes a bs).regs = s.regs := by rw [h]
  unfold MemRegs
  rw [hr]; exact h

theorem MemRegs.accum {s z : State} (h : MemRegs s z) (f : FRef) (v : Nat) : MemRegs s (z.accum f v) := h.wr _ _

theorem byteAt_accum (s : State) {f : FRef} (hr : f.reg.plain = true) (v : Nat) (a : Nat) : (s.accum f v).byteAt a = s.byteAt a := State.byteAt_wr s hr _ a

theorem deadline_no (w : State) (d n : Nat) (r : DRun) (h : (w.chan d n).lastAcc ≠ some r.seq) : w.deadline d n r = w := by
  unfold State.deadline
  dsimp only
  rw [if_neg (fun h' => h h'.1)]

theorem putRecord_tail (s y : State) (d n : Nat) (r : DRun) (st code : Nat) (h0 : st ≠ 0) (h1 : r.accessed = false) (h2 : r.credit = false) (h3 : r.stage = false) (h4 : r.post = 0)
    (h5 : (s.chan d n).lastAcc ≠ some r.seq) (hyc : y.chan d n = s.chan d n) :
    let z := if st = 1 then y.accum (DRAY_CH_ERR_CNT_ERR d n) 1 else y.accum (DRAY_CH_CAN_CNT_CAN d n) 1
    let s := if st = 0 then y.accum (DRAY_CH_OK_CNT_OK d n) 1 else if st = 1 then y.accum (DRAY_CH_ERR_CNT_ERR d n) 1 else y.accum (DRAY_CH_CAN_CNT_CAN d n) 1
    let s := if st = 0 then s.forgetOverlap r else if r.accessed then s.forgetDst r else s
    let s := s.modChan d n (fun c => let q := c.q.drop 1; { c with q := q, code := if st = 0 then c.code else code, st := if q = [] ∧ c.st = .running then .idle else c.st })
    let s := s.deadline d n r
    let s := if r.credit then s.creditPost d n (s.rd (DRAY_CH_SCFG_PAIR d n) + if st = 0 then 0 else 1) else s
    let s := if r.stage then s.modDie d (fun y => { y with stages := y.stages.erase n }) else s
    s.postList d r.by_ r.post = z.modChan d n (fun c => { c with q := c.q.drop 1, code := code, st := if c.q.drop 1 = [] ∧ c.st = .running then .idle else c.st }) := by
  simp only [if_neg h0, h1, h2, h3, h4, Bool.false_eq_true, if_false]
  generalize hz : (if st = 1 then y.accum (DRAY_CH_ERR_CNT_ERR d n) 1 else y.accum (DRAY_CH_CAN_CNT_CAN d n) 1) = z
  have hzc : z.chan d n = s.chan d n := by rw [← hz]; split <;> exact hyc
  rw [deadline_no _ _ _ _ (by rw [State.chan_modChan_same, hzc]; exact h5)]
  rfl

theorem putRecord_eq (s : State) (d n : Nat) (r : DRun) (rest : List DRun) (st code a : Nat) (ha : a = s.rd (DRAY_CQ_BASE_BASE d r.desc.cq) + 32 * (s.rd (DRAY_CQ_PTR_TAIL d r.desc.cq) % 2 ^ s.rd (DRAY_CQ_CTL_LOG2 d r.desc.cq)))
    (h0 : st ≠ 0) (h1 : r.accessed = false) (h2 : r.credit = false) (h3 : r.stage = false) (h4 : r.post = 0) (h5 : (s.chan d n).lastAcc ≠ some r.seq) (h6 : (s.chan d n).q = r :: rest) (h7 : s.accessOk a 32 = true) :
    ∃ y z : State, y = (((s.setBytes a (s.recordOf n r st code)).wr (DRAY_CQ_PTR_TAIL d r.desc.cq) ((s.setBytes a (s.recordOf n r st code)).rd (DRAY_CQ_PTR_TAIL d r.desc.cq) + 1)).accum (DRAY_CQ_QW_QW d r.desc.cq) 1).accum (DRAY_CH_CMP_CNT_CMP d n) 1 ∧
      z = (if st = 1 then y.accum (DRAY_CH_ERR_CNT_ERR d n) 1 else y.accum (DRAY_CH_CAN_CNT_CAN d n) 1) ∧
      s.putRecord d n r st code = z.modChan d n (fun c => { c with q := c.q.drop 1, code := code, st := if c.q.drop 1 = [] ∧ c.st = .running then .idle else c.st }) := by
  refine ⟨_, _, rfl, rfl, ?_⟩
  have hyc : ((((s.setBytes a (s.recordOf n r st code)).wr (DRAY_CQ_PTR_TAIL d r.desc.cq) ((s.setBytes a (s.recordOf n r st code)).rd (DRAY_CQ_PTR_TAIL d r.desc.cq) + 1)).accum (DRAY_CQ_QW_QW d r.desc.cq) 1).accum (DRAY_CH_CMP_CNT_CMP d n) 1).chan d n = s.chan d n := by
    simp only [State.accum, State.chan_wr]
    exact chan_setBytes ..
  unfold State.putRecord
  dsimp only
  rw [← ha, if_pos h7]
  revert hyc
  generalize (((s.setBytes a (s.recordOf n r st code)).wr (DRAY_CQ_PTR_TAIL d r.desc.cq) ((s.setBytes a (s.recordOf n r st code)).rd (DRAY_CQ_PTR_TAIL d r.desc.cq) + 1)).accum (DRAY_CQ_QW_QW d r.desc.cq) 1).accum (DRAY_CH_CMP_CNT_CMP d n) 1 = y
  intro hyc
  exact putRecord_tail s y d n r st code h0 h1 h2 h3 h4 h5 hyc

theorem find_tabSet (t : Tab CLine) (k : Nat) (l : CLine) (tag : Nat) (hl : l.tag = tag) (h : t.find? (fun e => decide (e.2.tag = tag)) = none) :
    ((tabSet t k l).find? (fun e => decide (e.2.tag = tag))).map (fun e => e.1) = some k := by
  induction t with
  | nil => simp [tabSet, hl]
  | cons a t ih =>
    rw [List.find?_cons] at h
    split at h
    · cases h
    · rename_i ha
      obtain ⟨j, w⟩ := a
      unfold tabSet
      split
      · rw [List.find?_cons_of_pos (by simpa using hl)]; rfl
      · split
        · rw [List.find?_cons_of_pos (by simpa using hl)]; rfl
        · rw [List.find?_cons_of_neg (by simpa using ha)]; exact ih h

theorem CSet.find_default {c : CSet} {tag w : Nat} (h : c.find tag = some w) (d e : CLine) : tabGet c.ways w d = tabGet c.ways w e := by
  unfold CSet.find at h
  cases hf : c.ways.find? (fun e => decide (e.2.tag = tag)) with
  | none => rw [hf] at h; cases h
  | some x =>
    rw [hf] at h
    injection h with h
    have hm := List.mem_of_find?_eq_some hf
    generalize c.ways = t at hm
    clear hf
    induction t with
    | nil => cases hm
    | cons a t ih =>
      obtain ⟨j, v⟩ := a
      unfold tabGet
      by_cases hj : j = w
      · rw [if_pos hj, if_pos hj]
      · rw [if_neg hj, if_neg hj]
        rcases List.mem_cons.1 hm with rfl | hm
        · exact absurd h hj
        · exact ih hm

theorem alloc_find (c : CSet) (l : CLine) (tag : Nat) (d : CLine) (hl : l.tag = tag) (h : c.find tag = none) : ∃ w, (c.alloc l).find tag = some w ∧ tabGet (c.alloc l).ways w d = l := by
  unfold CSet.alloc
  dsimp only
  generalize c.way = w
  refine ⟨w, find_tabSet _ _ _ _ hl ?_, tabGet_tabSet_same ..⟩
  unfold CSet.find at h
  cases hf : c.ways.find? (fun e => decide (e.2.tag = tag)) with
  | none => rfl
  | some x => rw [hf] at h; cases h

/-- The request that gets a freed tag: the first of those waiting that can be served, each after those that wait before it (R306, R307). -/
theorem servable_spec (s : State) (d : Nat) : ∀ (ms bef : List MemReq),
    ((∀ (m : MemReq) (pre post : List MemReq), ms = pre ++ m :: post → s.canServe d m (bef ++ pre) = false) → s.firstServable d bef ms = none) ∧
    ∀ (m : MemReq) (pre post : List MemReq), ms = pre ++ m :: post → (∀ (x : MemReq) (as bs : List MemReq), pre = as ++ x :: bs → s.canServe d x (bef ++ as) = false) →
      s.canServe d m (bef ++ pre) = true → s.firstServable d bef ms = some (m, bef ++ (pre ++ post)) := by
  intro ms
  induction ms with
  | nil => exact fun bef => ⟨fun _ => rfl, fun m pre post h => by cases pre <;> cases h⟩
  | cons a ms ih =>
    refine fun bef => ⟨fun h => ?_, fun m pre post he h1 h2 => ?_⟩
    · unfold State.firstServable
      have h0 := h a [] ms rfl
      rw [List.append_nil] at h0
      rw [if_neg (by rw [h0]; decide)]
      refine (ih (bef ++ [a])).1 (fun m pre post e => ?_)
      have := h m (a :: pre) post (by rw [e]; rfl)
      rwa [List.append_assoc]
    · cases pre with
      | nil =>
        injection he with e1 e2
        subst e1 e2
        rw [List.append_nil] at h2
        unfold State.firstServable
        rw [if_pos h2]; rfl
      | cons b pre =>
        injection he with e1 e2
        subst e1
        have h0 := h1 a [] pre rfl
        rw [List.append_nil] at h0
        unfold State.firstServable
        rw [if_neg (by rw [h0]; decide), (ih (bef ++ [a])).2 m pre post e2 (fun x as bs e => ?_) (by rw [List.append_assoc]; exact h2)]
        · rw [List.append_assoc]; rfl
        · have := h1 x (a :: as) bs (by rw [e]; rfl)
          rwa [List.append_assoc]

/-- The request whose line is read: the first of its requester at its address that misses, unless a write of it to that granule comes before (R306). -/
theorem takeReq_spec (req a : Nat) : ∀ (ms : List MemReq), ((∀ m ∈ ms, m.req ≠ req ∨ m.addr ≠ a ∨ m.fill = false) → takeReq req a ms = none) ∧
    ∀ (m : MemReq) (pre post : List MemReq), ms = pre ++ m :: post → (∀ x ∈ pre, x.req ≠ req ∨ (x.addr ≠ a ∨ x.fill = false) ∧ (x.addr / 256 ≠ a / 256 ∨ x.write = false)) →
      m.req = req → m.addr = a → m.fill = true → takeReq req a ms = some (m, pre ++ post) := by
  have hno : ∀ m : MemReq, (m.req ≠ req ∨ m.addr ≠ a ∨ m.fill = false) → ¬ (m.req = req ∧ m.addr = a ∧ m.fill = true) := fun m h h' => by
    rcases h with h | h | h
    · exact h h'.1
    · exact h h'.2.1
    · rw [h] at h'; cases h'.2.2
  intro ms
  induction ms with
  | nil => exact ⟨fun _ => rfl, fun m pre post h => by cases pre <;> cases h⟩
  | cons x ms ih =>
    refine ⟨fun h => ?_, fun m pre post he h1 h2 h3 h4 => ?_⟩
    · unfold takeReq
      rw [if_neg (hno x (h x List.mem_cons_self)), ih.1 (fun m hm => h m (List.mem_cons_of_mem _ hm))]
      split <;> rfl
    · cases pre with
      | nil =>
        injection he with e1 e2
        subst e1 e2
        unfold takeReq
        rw [if_pos ⟨h2, h3, h4⟩]; rfl
      | cons b pre =>
        injection he with e1 e2
        subst e1
        unfold takeReq
        rw [if_neg, if_neg, ih.2 m pre post e2 (fun y hy => h1 y (List.mem_cons_of_mem _ hy)) h2 h3 h4]
        · rfl
        · rintro ⟨g1, g2, g3⟩
          rcases h1 x List.mem_cons_self with h | ⟨-, h | h⟩
          · exact h g1
          · exact h g2
          · rw [g3] at h; cases h
        · refine hno x ?_
          rcases h1 x List.mem_cons_self with h | ⟨h | h, -⟩
          · exact .inl h
          · exact .inr (.inl h)
          · exact .inr (.inr h)

theorem modSet_cache (s : State) (d k : Nat) (f : CSet → CSet) : tabGet ((s.modSet d k f).die d).cache k csetNone = f (tabGet (s.die d).cache k csetNone) := by
  unfold State.modSet
  rw [State.die_modDie_same]
  exact tabGet_tabSet_same ..

theorem depotReplays_zero (s : State) (d a : Nat) : s.depotReplays d a 0 = s := rfl

/-- What a channel and the rest of the state are after reads of run `i` return: only that run changes, and the counts of the banks that served them. -/
structure Lands (d n i : Nat) (s t : State) : Prop where
  rest : t = { s with chans := t.chans, regs := t.regs }
  word : ∀ r, (∀ e c b, r ≠ .SPAD_BANK e c b) → t.word r = s.word r
  chan : t.chan d n = { s.chan d n with q := (t.chan d n).q }
  other : ∀ j, j ≠ i → (t.chan d n).q[j]? = (s.chan d n).q[j]?
  len : (t.chan d n).q.length = (s.chan d n).q.length

theorem Lands.refl (d n i : Nat) (s : State) : Lands d n i s s := ⟨rfl, fun _ _ => rfl, rfl, fun _ _ => rfl, rfl⟩

theorem Lands.trans {d n i : Nat} {s t u : State} (h : Lands d n i s t) (g : Lands d n i t u) : Lands d n i s u :=
  ⟨by rw [g.rest, h.rest], fun r hr => (g.word r hr).trans (h.word r hr), by rw [g.chan, h.chan], fun j hj => (g.other j hj).trans (h.other j hj), g.len.trans h.len⟩

theorem srcFar_congr {s t : State} (h : t = { s with chans := t.chans, regs := t.regs }) (hw : ∀ r, (∀ e c b, r ≠ .SPAD_BANK e c b) → t.word r = s.word r) (x : Desc) :
    t.srcFar x = s.srcFar x := by
  have hr : ∀ f : FRef, (∀ e c b, f.reg ≠ .SPAD_BANK e c b) → t.rd f = s.rd f := fun f hf => State.rd_congr (hw _ hf)
  unfold State.srcFar State.ownModule State.myTeam
  rw [hr _ (fun _ _ _ => by nofun), hr _ (fun _ _ _ => by nofun)]

theorem Lands.srcFar {d n i : Nat} {s t : State} (h : Lands d n i s t) (x : Desc) : t.srcFar x = s.srcFar x := srcFar_congr h.rest h.word x

/-- Bytes join run `i`: a streamed run holds them in loop order, behind those held ahead of a read that failed where there is one. -/
theorem State.takeData_lands (s : State) (d n i : Nat) (bs : List Byte) : Lands d n i s (s.takeData d n i bs) ∧
    ∀ x, (s.chan d n).q[i]? = some x → x.desc.tiled = false → ((s.takeData d n i bs).chan d n).q[i]? = some (x.take x.desc bs) := by
  unfold State.takeData State.modRun
  refine ⟨⟨rfl, fun _ _ => rfl, ?_, fun j hj => ?_, ?_⟩, fun x hx ht => ?_⟩
  · rw [State.chan_modChan_same]
  · rw [State.chan_modChan_same]; dsimp only; rw [mapIdx_at, if_neg hj]
  · rw [State.chan_modChan_same]; simp
  · rw [State.chan_modChan_same]; dsimp only; rw [mapIdx_at, if_pos rfl, hx, Option.map_some]
    have htr : (x.take x.desc bs).tileRead x.desc = false := by unfold DRun.tileRead; rw [ht]; rfl
    rw [if_neg (by rw [htr]; rintro ⟨-, h⟩; cases h)]

/-- One read in flight within the module lands: only its run changes, and a run without tiles gains its bytes. -/
theorem State.landOne_spec (s : State) (d n i : Nat) (r : DRun) : Lands d n i s (s.landOne d n i r) ∧
    ∀ x, (s.chan d n).q[i]? = some x → x.desc.tiled = false → ∃ bs, ((s.landOne d n i r).chan d n).q[i]? = some (x.take x.desc bs) := by
  unfold State.landOne
  dsimp only
  generalize hw : s.bankServed (r.readAt r.desc r.due).1 (r.readAt r.desc r.due).2 = w
  generalize s.fetchBytes _ _ _ = bs
  have hs := State.bankServed_served s (r.readAt r.desc r.due).1 (r.readAt r.desc r.due).2
  rw [hw] at hs
  have hwc : w.chan d n = s.chan d n := by rw [hs.rest]; rfl
  obtain ⟨h1, h2⟩ := State.takeData_lands w d n i bs
  have h0 : Lands d n i s w := ⟨by rw [hs.rest], hs.regs, by rw [hwc], fun _ _ => by rw [hwc], by rw [hwc]⟩
  exact ⟨h0.trans h1, fun x hx ht => ⟨bs, h2 x (by rw [hwc]; exact hx) ht⟩⟩

/-- What a run without tiles is after reads of it that are in flight within the module have returned. -/
def Landed (far : Bool) (fuel : Nat) (r y : DRun) : Prop :=
  y = { r with hold := y.hold, ret := y.ret, ahead := y.ahead } ∧ (r.started = false ∨ r.status.isSome = true ∨ r.readBack = true ∨ r.rd ≤ r.due ∨ far = true → y = r) ∧
    (r.started = true → r.status = none → r.readBack = false → r.due ≤ r.rd → r.rd - r.due ≤ fuel → far = false → y.due = r.rd)

theorem DRun.take_spec (x : Desc) (r : DRun) (bs : List Byte) (h : x.tiled = false) : r.take x bs = { r with hold := (r.take x bs).hold, ret := (r.take x bs).ret, ahead := (r.take x bs).ahead } ∧
    (r.gap = true ∨ r.ahead = [] → (r.take x bs).due = r.due + 1) ∧ (r.gap = true ∨ r.ahead = [] → r.gap = true ∨ (r.take x bs).ahead = []) := by
  unfold DRun.take DRun.due
  by_cases hg : r.gap = true
  · rw [if_pos hg]
    refine ⟨rfl, fun _ => ?_, fun _ => .inl hg⟩
    dsimp only
    rw [if_pos hg, if_pos hg, List.length_append]; simp; omega
  · rw [if_neg hg, h]
    refine ⟨rfl, fun h' => ?_, fun _ => .inr rfl⟩
    have ha : r.ahead = [] := h'.resolve_left hg
    dsimp only
    simp [hg, ha]

theorem State.landReads_spec (d n i fuel : Nat) : ∀ s : State, Lands d n i s (s.landReads d n i fuel) ∧
    ∀ r, (s.chan d n).q[i]? = some r → r.desc.tiled = false → (r.gap = true ∨ r.ahead = []) →
      ∃ y, ((s.landReads d n i fuel).chan d n).q[i]? = some y ∧ Landed (s.srcFar r.desc) fuel r y := by
  induction fuel with
  | zero =>
    intro s
    refine ⟨Lands.refl .., fun r hr ht ha => ⟨r, hr, rfl, fun _ => rfl, fun _ _ _ h1 h2 _ => ?_⟩⟩
    omega
  | succ fuel ih =>
    intro s
    unfold State.landReads
    cases hq : (s.chan d n).q[i]? with
    | none => exact ⟨Lands.refl .., fun r hr => by cases hr⟩
    | some r =>
      dsimp only
      split
      · rename_i hc
        refine ⟨Lands.refl .., fun x hx ht ha => ⟨x, hx ▸ hq, rfl, fun _ => rfl, fun h1 h2 h3 h4 h5 h6 => ?_⟩⟩
        injection hx with hx; subst hx
        rcases hc with hc | hc | hc | hc | hc
        · rw [hc] at h1; cases h1
        · rw [h2] at hc; cases hc
        · rw [h3] at hc; cases hc
        · omega
        · rw [h6] at hc; cases hc
      · rename_i hc
        simp only [not_or, Bool.not_eq_false, Bool.not_eq_true, not_le] at hc
        obtain ⟨c1, c2, c3, c4, c5⟩ := hc
        obtain ⟨a1, a5⟩ := s.landOne_spec d n i r
        obtain ⟨b1, b5⟩ := ih (s.landOne d n i r)
        refine ⟨a1.trans b1, fun x hx ht ha => ?_⟩
        injection hx with hx; subst hx
        obtain ⟨bs, hh⟩ := a5 r hq ht
        obtain ⟨k1, k2, k3⟩ := DRun.take_spec r.desc r bs ht
        have kd : (r.take r.desc bs).desc = r.desc := by rw [k1]; rfl
        have ks : (r.take r.desc bs).started = r.started ∧ (r.take r.desc bs).status = r.status ∧ (r.take r.desc bs).readBack = r.readBack ∧ (r.take r.desc bs).rd = r.rd ∧
            (r.take r.desc bs).gap = r.gap := by rw [k1]; exact ⟨rfl, rfl, rfl, rfl, rfl⟩
        obtain ⟨y, y1, y2, y3, y4⟩ := b5 _ hh (by rw [kd]; exact ht) (by rw [ks.2.2.2.2]; exact k3 ha)
        rw [kd, a1.srcFar] at y3 y4
        refine ⟨y, y1, ?_, fun g => ?_, fun g1 g2 g3 g4 g5 g6 => ?_⟩
        · rw [y2, k1]
        · exfalso
          rcases g with g | g | g | g | g
          · rw [g] at c1; cases c1
          · rw [g] at c2; cases c2
          · rw [g] at c3; cases c3
          · omega
          · rw [g] at c5; cases c5
        · have := k2 ha
          exact (y4 (ks.1.trans g1) (ks.2.1.trans g2) (ks.2.2.1.trans g3) (by rw [ks.2.2.2.1, this]; omega) (by rw [ks.2.2.2.1, this]; omega) g6).trans ks.2.2.2.1

theorem State.landAll_spec (d n fuel m : Nat) : ∀ s : State, let t := (List.range m).foldl (fun s j => s.landReads d n j fuel) s
    (t = { s with chans := t.chans, regs := t.regs }) ∧ (∀ r, (∀ e c b, r ≠ .SPAD_BANK e c b) → t.word r = s.word r) ∧ t.chan d n = { s.chan d n with q := (t.chan d n).q } ∧
    (∀ j, m ≤ j → (t.chan d n).q[j]? = (s.chan d n).q[j]?) ∧ ((t.chan d n).q.length = (s.chan d n).q.length) ∧
    ∀ j < m, ∀ r, (s.chan d n).q[j]? = some r → r.desc.tiled = false → (r.gap = true ∨ r.ahead = []) → ∃ y, (t.chan d n).q[j]? = some y ∧ Landed (s.srcFar r.desc) fuel r y := by
  induction m with
  | zero => intro s; exact ⟨rfl, fun _ _ => rfl, rfl, fun _ _ => rfl, rfl, fun j hj => absurd hj (by omega)⟩
  | succ m ih =>
    intro s
    dsimp only
    rw [List.range_succ, List.foldl_append, List.foldl_cons, List.foldl_nil]
    obtain ⟨a1, aw, a2, a3, a4, a5⟩ := ih s
    generalize (List.range m).foldl (fun s j => s.landReads d n j fuel) s = v at a1 aw a2 a3 a4 a5 ⊢
    obtain ⟨b, b5⟩ := State.landReads_spec d n m fuel v
    have hf : ∀ x, v.srcFar x = s.srcFar x := fun x => srcFar_congr a1 aw x
    refine ⟨?_, fun r hr => (b.word r hr).trans (aw r hr), ?_, fun j hj => (b.other j (by omega)).trans (a3 j (by omega)), b.len.trans a4, fun j hj r hr ht ha => ?_⟩
    · rw [b.rest, a1]
    · rw [b.chan, a2]
    · by_cases e : j = m
      · subst e
        rw [← hf]
        exact b5 r ((a3 j (by omega)).trans hr) ht ha
      · obtain ⟨y, y1, y2⟩ := a5 j (by omega) r hr ht ha
        exact ⟨y, (b.other j e).trans y1, y2⟩

/-- A channel halts on the access of run `i`: that access is to be issued again, reads in flight within the module land, and EV_DRAY_HALT is raised. -/
theorem State.haltChan_spec (s : State) (d n i k a : Nat) (flying : Bool) : ∃ (u : State) (z : DRun), z = ((s.chan d n).q[i]?).getD runNone ∧
    s.haltChan d n i k a flying = u.raiseFor d (chanEv 130 d n [(2, n), (6, a % 2 ^ 48), (1, k)]) z.owner ∧
    u.chan d n = { s.chan d n with st := .halted, errAddr := a % 2 ^ 48, errKind := k, failed := some z.seq, failIdx := if k = 0 then z.rd else z.wr, q := (u.chan d n).q } ∧
    u = { s with chans := u.chans, regs := u.regs } ∧ (∀ r, (∀ e c b, r ≠ .SPAD_BANK e c b) → u.word r = s.word r) ∧
    ∀ (j : Nat) (r x : DRun), (s.chan d n).q[j]? = some r → r.desc.tiled = false → x = (if j = i then r.fails k flying else r) → (x.gap = true ∨ x.ahead = []) →
      ∃ y, (u.chan d n).q[j]? = some y ∧ Landed (s.srcFar x.desc) 640 x y := by
  unfold State.haltChan
  dsimp only
  generalize hv : s.modRun d n i (fun r => r.fails k flying) = v
  have v1 : v = { s with chans := v.chans } := by rw [← hv]; rfl
  have v2 : v.chan d n = { s.chan d n with q := (s.chan d n).q.mapIdx (fun j r => if j = i then r.fails k flying else r) } := by
    rw [← hv]; unfold State.modRun; rw [State.chan_modChan_same]
  obtain ⟨a1, aw, a2, a3, a4, a5⟩ := State.landAll_spec d n 640 (s.chan d n).q.length v
  generalize (List.range (s.chan d n).q.length).foldl (fun s j => s.landReads d n j 640) v = w at a1 aw a2 a3 a4 a5 ⊢
  refine ⟨_, _, rfl, rfl, ?_, ?_, fun r hr => ?_, fun j r x hr ht hx ha => ?_⟩
  · rw [State.chan_modChan_same, a2, v2]
  · have : w = { s with chans := w.chans, regs := w.regs } := by rw [a1, v1]
    rw [this]; rfl
  · exact (aw r hr).trans (by rw [v1]; rfl)
  · have hj : j < (s.chan d n).q.length := by
      by_contra h
      rw [List.getElem?_eq_none (by omega)] at hr; cases hr
    have hd : x.desc = r.desc := by
      rw [hx]; unfold DRun.fails DRun.desc; repeat' split
      all_goals rfl
    have hvx : (v.chan d n).q[j]? = some x := by
      rw [v2]; dsimp only; rw [mapIdx_at, hr, hx]; split <;> rfl
    rw [State.chan_modChan_same]
    have := a5 j hj x hvx (by rw [hd]; exact ht) ha
    rwa [show v.srcFar x.desc = s.srcFar x.desc by rw [v1]; rfl] at this

/-- Run `i` of a channel gives its tile stage up where it has made its last write. -/
theorem State.freeStage_given (s v : State) (d n i : Nat) (y : DRun) (h : (v.chan d n).q[i]? = some y) (hr : ∀ j, j ≠ i → (v.chan d n).q[j]? = (s.chan d n).q[j]?)
    (hc : ∀ k, k ≠ chanKey d n → tabGet v.chans k chanReset = tabGet s.chans k chanReset) (hd : v.dies = s.dies) :
    StageGiven d n i s (v.freeStage d n i) y ∧ v.freeStage d n i = { v with chans := (v.freeStage d n i).chans, dies := (v.freeStage d n i).dies } ∧
      ((v.freeStage d n i).chan d n).retry = (v.chan d n).retry := by
  have hdd : ∀ e, v.die e = s.die e := fun e => by unfold State.die; rw [hd]
  unfold State.freeStage
  rw [h]
  dsimp only
  by_cases hy : y.stage = true ∧ y.writesDone y.desc = true
  · rw [if_pos hy]
    refine ⟨⟨?_, ?_, fun j hj => ?_, fun k hk => ?_, fun e he => ?_⟩, rfl, ?_⟩
    · rw [if_pos hy]
      show ((v.modRun d n i _).chan d n).q[i]? = _
      unfold State.modRun
      rw [State.chan_modChan_same]; dsimp only; rw [mapIdx_at, if_pos rfl, h]; rfl
    · rw [if_pos hy, State.die_modDie_same]
      rw [← hdd]; rfl
    · show ((v.modRun d n i _).chan d n).q[j]? = _
      unfold State.modRun
      rw [State.chan_modChan_same]; dsimp only; rw [mapIdx_at, if_neg hj]; exact hr j hj
    · rw [← hc k hk]
      show tabGet (tabSet v.chans _ _) k chanReset = _
      exact tabGet_tabSet_ne _ _ _ (Ne.symm hk)
    · rw [← hdd e]
      show tabGet (tabSet v.dies _ _) e dieReset = _
      exact tabGet_tabSet_ne _ _ _ (Ne.symm he)
    · show ((v.modRun d n i _).chan d n).retry = _
      unfold State.modRun
      rw [State.chan_modChan_same]
  · rw [if_neg hy]
    refine ⟨⟨?_, ?_, hr, hc, fun e he => hdd e⟩, rfl, rfl⟩
    · rw [if_neg hy]; exact h
    · rw [if_neg hy]; exact hdd d

end Sys2Proof.Machine
end

