-- ==== Sys2Proof/Laws/Links.lean ====
section
/-! SUPPORT. Lemmas of packets, flits, retraining and lanes. -/

set_option linter.unusedSimpArgs false
set_option linter.unusedVariables false

namespace Sys2Proof.Machine

theorem takeFirst_spec {α : Type} (p : α → Bool) : ∀ (ms : List α), ((∀ m ∈ ms, p m = false) → takeFirst p ms = none) ∧
    ∀ (m : α) (pre post : List α), ms = pre ++ m :: post → (∀ x ∈ pre, p x = false) → p m = true → takeFirst p ms = some (m, pre ++ post) := by
  intro ms
  induction ms with
  | nil => exact ⟨fun _ => rfl, fun m pre post h => by cases pre <;> cases h⟩
  | cons x ms ih =>
    refine ⟨fun h => ?_, fun m pre post he h1 h2 => ?_⟩
    · unfold takeFirst
      rw [if_neg (by rw [h x List.mem_cons_self]; decide), ih.1 (fun m hm => h m (List.mem_cons_of_mem _ hm))]
    · cases pre with
      | nil =>
        injection he with e1 e2
        subst e1 e2
        unfold takeFirst
        rw [if_pos h2]; rfl
      | cons b pre =>
        injection he with e1 e2
        subst e1
        unfold takeFirst
        rw [if_neg (by rw [h1 x List.mem_cons_self]; decide), ih.2 m pre post e2 (fun y hy => h1 y (List.mem_cons_of_mem _ hy)) h2]
        rfl

theorem crc32c_lt (bs : List Byte) : crc32c bs < 2 ^ 32 := by
  have hs : ∀ n c : Nat, c < 2 ^ 32 → crc32cStep n c < 2 ^ 32 := by
    intro n
    induction n with
    | zero => intro c h; exact h
    | succ n ih =>
      intro c h
      refine ih _ ?_
      split
      · exact Nat.xor_lt_two_pow (by omega) (by decide)
      · omega
  have hr : ∀ (bs : List Byte) (c : Nat), c < 2 ^ 32 → crc32cRun c bs < 2 ^ 32 := by
    intro bs
    induction bs with
    | nil => intro c h; exact h
    | cons b bs ih => intro c h; exact ih _ (hs _ _ (Nat.xor_lt_two_pow h (Nat.lt_of_lt_of_le b.isLt (by decide))))
  exact Nat.xor_lt_two_pow (hr bs _ (by decide)) (by decide)

/-- A flit that is sealed has a good CRC: its CRC covers the bytes before it (R411). -/
theorem flitGood_seal (f : Flit) : flitGood (sealFlit f) = true := by
  unfold flitGood sealFlit
  refine decide_eq_true ?_
  have hb : flitBody { f with crc := BitVec.ofNat 32 (crc32c (flitBody f)) } = flitBody f := rfl
  rw [hb]
  show (BitVec.ofNat 32 (crc32c (flitBody f))).toNat = _
  rw [BitVec.toNat_ofNat]
  exact Nat.mod_eq_of_lt (crc32c_lt _)

theorem sendSequenced_spec (s : State) (d l : Nat) (k : BitVec 4) (bs : List Byte) (x : Link) (hx : x = s.link d l) (hb : bs.length ≤ 246) :
    (s.linkUp d l = true → 0 < x.credits → x.retry.length < 2048 → x.txq = [] → ∃ f : Flit, s.sendSequenced d l k bs = { s with links := (s.sendSequenced d l k bs).links, wire := s.wire ++ [.flit d l f] } ∧
      f.tag = s.tag16 ∧ f.seq = x.txNext ∧ f.kind = k ∧ f.ack = x.rxExp - 1 ∧ f.payload.length = 246 ∧ f.payload.take bs.length = bs ∧ flitGood f = true ∧
      (s.sendSequenced d l k bs).link d l = { x with txNext := x.txNext + 1, retry := x.retry ++ [f], credits := x.credits - 1, sent := bump48 x.sent 1 }) ∧
    (s.linkUp d l = false ∨ x.credits = 0 ∨ 2048 ≤ x.retry.length → (s.sendSequenced d l k bs).link d l = { x with txq := x.txq ++ [(k, bs)] } ∧ s.sendSequenced d l k bs = { s with links := (s.sendSequenced d l k bs).links }) := by
  obtain ⟨u, hu⟩ : ∃ u, u = s.modLink d l (fun x => { x with txq := x.txq ++ [(k, bs)] }) := ⟨_, rfl⟩
  have hul : u.link d l = { x with txq := x.txq ++ [(k, bs)] } := by rw [hu, State.link_modLink_same, hx]
  have hus : s.sendSequenced d l k bs = u.drain d l (u.link d l).txq.length := by rw [hu]; rfl
  have hup : u.linkUp d l = s.linkUp d l := by rw [hu]; rfl
  have htag : u.tag16 = s.tag16 := by rw [hu]; rfl
  refine ⟨fun h1 h2 h3 h4 => ?_, fun h => ?_⟩
  · rw [h4, List.nil_append] at hul
    obtain ⟨f, hf⟩ : ∃ f, f = ({ x with txq := [(k, bs)] } : Link).flit s.tag16 k bs := ⟨_, rfl⟩
    have hd : s.sendSequenced d l k bs = (u.modLink d l (fun y => { y with txq := [], txNext := y.txNext + 1, retry := y.retry ++ [f], credits := y.credits - 1, sent := bump48 y.sent 1 })).send (.flit d l f) := by
      rw [hus, hul]
      show u.drain d l 1 = _
      rw [State.drain, hul]
      dsimp only
      rw [if_pos ⟨by rw [hup]; exact h1, h2, h3⟩, htag, ← hf]
      rfl
    refine ⟨f, ?_, by rw [hf]; rfl, by rw [hf]; rfl, by rw [hf]; rfl, by rw [hf]; rfl, ?_, ?_, ?_, ?_⟩
    · rw [hd, hu]; rfl
    · rw [hf]; unfold Link.flit sealFlit padTo; simp; omega
    · rw [hf]; unfold Link.flit sealFlit padTo; simp
    · rw [hf]; exact flitGood_seal _
    · rw [hd, State.link_send, State.link_modLink_same, hul, ← h4]
  · have hd : ∀ n, u.drain d l n = u := by
      intro n
      cases n with
      | zero => rfl
      | succ n =>
        rw [State.drain, hul]
        dsimp only
        have hno : ¬ (u.linkUp d l = true ∧ 0 < x.credits ∧ x.retry.length < 2048) := by
          rw [hup]
          rintro ⟨a, b, c⟩
          rcases h with h | h | h
          · rw [h] at a; cases a
          · omega
          · omega
        cases hq : x.txq ++ [(k, bs)] with
        | nil => rfl
        | cons y r => obtain ⟨a, b⟩ := y; dsimp only; rw [if_neg hno]
    rw [hus, hd]
    exact ⟨hul, by rw [hu]; rfl⟩

theorem putPacket_spec (s : State) (d l type : Nat) (p : Packet) (bs : List Byte) (hb : bs.length ≤ 256) : (packetBytes type p bs).length = 32 + bs.length ∧
    (bs.length ≤ 214 → s.putPacket d l type p bs = s.sendSequenced d l 0 (packetBytes type p bs)) ∧
    (214 < bs.length → s.putPacket d l type p bs = (s.sendSequenced d l 0 ((packetBytes type p bs).take 246)).sendSequenced d l 0 ((packetBytes type p bs).drop 246)) := by
  have hl : (packetBytes type p bs).length = 32 + bs.length := by
    unfold packetBytes
    simp only [List.length_append, length_leBytes]
  refine ⟨hl, ?_⟩
  unfold State.putPacket
  generalize packetBytes type p bs = all at hl
  have hne : all ≠ [] := by intro h; rw [h] at hl; simp only [List.length_nil] at hl; omega
  refine ⟨fun h => ?_, fun h => ?_⟩
  · have : packetFlits all 2 = [all] := by
      unfold packetFlits
      rw [if_neg hne, List.take_of_length_le (by omega), List.drop_eq_nil_of_le (by omega)]; rfl
    rw [this]; rfl
  · have : packetFlits all 2 = [all.take 246, all.drop 246] := by
      unfold packetFlits
      rw [if_neg hne]
      unfold packetFlits
      rw [if_neg (by intro h'; have := congrArg List.length h'; simp at this; omega), List.take_of_length_le (l := all.drop 246) (by simp; omega)]; rfl
    rw [this]; rfl

theorem modLink_congr (s : State) (d l : Nat) {f g : Link → Link} (h : f (s.link d l) = g (s.link d l)) : s.modLink d l f = s.modLink d l g := by
  unfold State.modLink; rw [h]

theorem modLink_modLink (s : State) (d l : Nat) (f g : Link → Link) : (s.modLink d l f).modLink d l g = s.modLink d l (fun x => g (f x)) := by
  rw [State.modLink, State.link_modLink_same]
  unfold State.modLink
  dsimp only
  rw [tabSet_tabSet]

theorem flitBad_iff (f : Flit) : flitBad f = true ↔ flitGood f = false ∨ 9 ≤ f.kind.toNat := by
  unfold flitBad; simp

theorem rxPlain_spec (s : State) (d l : Nat) (f : Flit) : (s.linkHears d l = false → s.rxPlain d l f = (s, false)) ∧
    (s.linkHears d l = true → flitGood f = false ∨ 9 ≤ f.kind.toNat → s.rxPlain d l f = (s.count (LINK_COUNT_CRC_ERR d l) 1, false)) ∧
    (s.linkHears d l = true → flitGood f = true → f.kind.toNat < 9 → s.rxPlain d l f = (s.flitHead d l f, true)) := by
  unfold State.rxPlain
  refine ⟨fun h => by rw [if_pos h], fun h h' => by rw [if_neg (by rw [h]; decide), if_pos ((flitBad_iff f).2 h')], fun h h1 h2 => ?_⟩
  rw [if_neg (by rw [h]; decide), if_neg]
  rw [flitBad_iff]
  rintro (g | g)
  · rw [h1] at g; cases g
  · omega

theorem rxSequenced_spec (s : State) (d l : Nat) (f : Flit) : (s.linkHears d l = false → s.rxSequenced d l f = (s, false)) ∧
    (s.linkHears d l = true → flitGood f = false ∨ 9 ≤ f.kind.toNat → s.rxSequenced d l f = ((s.count (LINK_COUNT_CRC_ERR d l) 1).discard d l, false)) ∧
    (s.linkHears d l = true → flitGood f = true → f.kind.toNat < 9 → ∀ u, u = s.flitHead d l f →
      (f.seq ≠ (u.link d l).rxExp → s.rxSequenced d l f = (u.discard d l, false)) ∧
      (f.seq = (u.link d l).rxExp → s.rxSequenced d l f = ((u.modLink d l (fun x =>
        { x with rxExp := x.rxExp + 1, recv := bump48 x.recv 1, ret := bump48 x.ret 1, early := x.early + (if u.later f.tag then 1 else 0), nakAge := 0 })).sendPlain d l 3 (leBytes 2 1), true))) := by
  unfold State.rxSequenced
  refine ⟨fun h => by rw [if_pos h], fun h h' => by rw [if_neg (by rw [h]; decide), if_pos ((flitBad_iff f).2 h')], fun h h1 h2 u hu => ?_⟩
  subst hu
  rw [if_neg (by rw [h]; decide), if_neg (by
    rw [flitBad_iff]
    rintro (g | g)
    · rw [h1] at g; cases g
    · omega)]
  refine ⟨fun hh => ?_, fun hh => ?_⟩
  · dsimp only; rw [if_pos hh]
  · dsimp only; rw [if_neg (fun h => h hh)]

theorem linkLaw_iff (d i ct h st rc oc rt ci : Nat) (h1 : ∀ y ∈ [h, st, rc, oc, rt, ci, ct], y < 2 ^ 46) (h2 : rc ≤ st) (h3 : ci ≤ rt) :
    linkLaw d i ct 2048 h st ci rc oc rt = [] ↔ h + (st - rc) + oc + (rt - ci) = ct ∧ st - rc ≤ 2048 := by
  simp only [List.mem_cons, List.not_mem_nil, or_false, forall_eq_or_imp, forall_eq] at h1
  obtain ⟨a1, a2, a3, a4, a5, a6, a7⟩ := h1
  have e1 : diff48 st rc = st - rc := by unfold diff48; omega
  have e2 : diff48 rt ci = rt - ci := by unfold diff48; omega
  unfold linkLaw
  dsimp only
  rw [e1, e2, Nat.mod_eq_of_lt (by omega)]
  by_cases hc : h + (st - rc) + oc + (rt - ci) = ct ∧ st - rc ≤ 2048
  · rw [if_pos hc]; exact ⟨fun _ => hc, fun _ => rfl⟩
  · rw [if_neg hc]; exact ⟨fun h => (by cases h), fun h => absurd h hc⟩

theorem xor_two_pow_ne (d p : Nat) : d ^^^ 2 ^ p ≠ d := by
  intro h
  have := congrArg (fun x => x.testBit p) h
  simp at this

theorem portKey_ne {d e p : Nat} (h : e ≠ d) : portKey e p ≠ portKey d p := by unfold portKey; omega

theorem port_modPort_ne (s : State) {d e p : Nat} (h : e ≠ d) (f : Port → Port) : (s.modPort d p f).port e p = s.port e p := by
  unfold State.port State.modPort
  exact tabGet_tabSet_ne _ _ _ (Ne.symm (portKey_ne h))

def LinkRegs (s z : State) : Prop := z = { s with regs := z.regs, links := z.links, lamp := z.lamp, wire := z.wire }

theorem LinkRegs.refl (s : State) : LinkRegs s s := rfl

theorem LinkRegs.wr {s z : State} (h : LinkRegs s z) (f : FRef) (v : Nat) : LinkRegs s (z.wr f v) := by
  unfold LinkRegs State.wr State.setWord
  generalize assocSet _ _ _ = R
  have h2 := congrArg (fun x : State => ({ x with regs := R } : State)) h
  exact h2

theorem LinkRegs.modLink {s z : State} (h : LinkRegs s z) (d l : Nat) (f : Link → Link) : LinkRegs s (z.modLink d l f) := by
  unfold LinkRegs State.modLink
  generalize tabSet _ _ _ = R
  have h2 := congrArg (fun x : State => ({ x with links := R } : State)) h
  exact h2

theorem LinkRegs.lampCount {s z : State} (h : LinkRegs s z) (i n : Nat) : LinkRegs s (z.lampCount i n) := by
  unfold LinkRegs State.lampCount
  generalize hR : ({ z.lamp with counters := tabSet z.lamp.counters i (min (tabGet z.lamp.counters i 0 + n) (2 ^ 48 - 1)) } : Lamp) = R
  have h2 := congrArg (fun x : State => ({ x with lamp := R } : State)) h
  exact h2

theorem LinkRegs.send {s z : State} (h : LinkRegs s z) (o : Out) : LinkRegs s (z.send o) := by
  unfold LinkRegs State.send
  generalize z.wire ++ [o] = R
  have h2 := congrArg (fun x : State => ({ x with wire := R } : State)) h
  exact h2

theorem LinkRegs.count {s z : State} (h : LinkRegs s z) (f : FRef) (v : Nat) : LinkRegs s (z.count f v) := h.wr _ _

theorem LinkRegs.setLine {s z : State} (h : LinkRegs s z) : LinkRegs s z.setLine := h.wr _ _

theorem portUp_congr {u s : State} (hf : u.fuses = s.fuses) (h : ∀ x m, u.rd (LINK_STATUS_STATE x m) = s.rd (LINK_STATUS_STATE x m)) (p : Nat) : u.portUp p = s.portUp p := by
  have h1 : u.allLinks = s.allLinks := by unfold State.allLinks State.dieList State.linksOf; rw [hf]
  have h2 : ∀ x m, u.linkInfo x m = s.linkInfo x m := by intro x m; unfold State.linkInfo State.linksOf; rw [hf]
  have h3 : ∀ x m, u.linkUp x m = s.linkUp x m := by intro x m; unfold State.linkUp; rw [h]
  unfold State.portUp
  simp only [h1, h2, h3]

theorem setLine_line {s : State} {u : State} (hu : u.fuses = s.fuses) (h : ∀ x m, u.rd (LINK_STATUS_STATE x m) = s.rd (LINK_STATUS_STATE x m)) :
    s.setLine.rd TEAM_STATUS_LINE = if u.portUp 1 ∧ u.portUp 2 then 0 else 1 := by
  rw [portUp_congr hu h, portUp_congr hu h]
  unfold State.setLine
  rw [State.rd_wr_same _ _ _ fle]
  split <;> rfl

theorem retrain_spec (s : State) (d l cause : Nat) :
      ∃ (u : State) (f : Flit), s.retrain d l cause = u.raise (mkEv 160 d 0xFF 22 l [(1, l), (1, cause)]) ∧ u.rd (LINK_STATUS_STATE d l) = 1 ∧
        u.rd (LINK_COUNT_RETRAINS d l) = min (s.rd (LINK_COUNT_RETRAINS d l) + 1) 255 ∧
        tabGet u.lamp.counters (16 + s.lampLink d l) 0 = min (tabGet s.lamp.counters (16 + s.lampLink d l) 0 + 1) (2 ^ 48 - 1) ∧
        u.link d l = { s.link d l with upSince := false, credits := (s.link d l).credits + s.rd (LINK_CFG_CT d l) - (s.link d l).ct, ct := s.rd (LINK_CFG_CT d l) } ∧
        f = (s.link d l).flit s.tag16 8 (capBytes s.ownCap) ∧
        u.rd TEAM_STATUS_LINE = (if u.portUp 1 ∧ u.portUp 2 then 0 else 1) ∧ (∀ r, r ≠ .LINK_STATUS d l → r ≠ .LINK_COUNT d l → r ≠ .TEAM_STATUS → u.word r = s.word r) ∧
        u = { s with regs := u.regs, links := u.links, wire := s.wire ++ [.flit d l f], lamp := u.lamp } := by
  obtain ⟨y, hy⟩ : ∃ y, y = (s.count (LINK_COUNT_RETRAINS d l) 1).lampCount (16 + s.lampLink d l) 1 := ⟨_, rfl⟩
  have hct : y.rd (LINK_CFG_CT d l) = s.rd (LINK_CFG_CT d l) := by
    rw [hy]; exact State.rd_congr (f := LINK_CFG_CT d l) (State.word_count_ne _ _ (fun e => by cases e))
  obtain ⟨z, hz⟩ : ∃ z, z = (y.wr (LINK_STATUS_STATE d l) 1).modLink d l (fun x => { x with upSince := false, credits := x.credits + s.rd (LINK_CFG_CT d l) - x.ct, ct := s.rd (LINK_CFG_CT d l) }) := ⟨_, rfl⟩
  have hc : z.setLine.ownCap = s.ownCap ∧ y.ownCap = s.ownCap := by
    have hf : y.flag TEAM_CFG_SPARE = s.flag TEAM_CFG_SPARE := by rw [hy]; exact flag_wr_ne (by intro h; cases h)
    have hf2 : z.setLine.flag TEAM_CFG_SPARE = s.flag TEAM_CFG_SPARE := by
      rw [hz, ← hf]
      unfold State.setLine
      rw [flag_wr_ne (by intro h; cases h)]
      unfold State.flag
      rw [State.rd_modLink]
      exact flag_wr_ne (s := y) (by intro h; cases h)
    refine ⟨?_, ?_⟩
    · unfold State.ownCap; rw [hf2, hz, hy]; rfl
    · unfold State.ownCap; rw [hf, hy]; rfl
  have hl : z.setLine.link d l = { s.link d l with upSince := false, credits := (s.link d l).credits + s.rd (LINK_CFG_CT d l) - (s.link d l).ct, ct := s.rd (LINK_CFG_CT d l) } := by
    unfold State.setLine
    rw [State.link_wr, hz, State.link_modLink_same, State.link_wr, hy]; rfl
  have hr : s.retrain d l cause = (z.setLine.send (.flit d l ((s.link d l).flit s.tag16 8 (capBytes s.ownCap)))).raise (mkEv 160 d 0xFF 22 l [(1, l), (1, cause)]) := by
    unfold State.retrain
    dsimp only
    rw [← hy]
    unfold State.startTraining State.sendCap State.sendPlain
    dsimp only
    rw [hct, ← hz, hc.2, hl]
    have ht : z.setLine.tag16 = s.tag16 := by
      have h1 : z.setLine.rd FRAME_STATUS_SEQ = s.rd FRAME_STATUS_SEQ := by
        rw [hz, hy]
        refine State.rd_congr (f := FRAME_STATUS_SEQ) ?_
        unfold State.setLine
        rw [State.word_wr_ne _ _ (fun e => by cases e), State.word_modLink, State.word_wr_ne _ _ (fun e => by cases e)]
        exact State.word_count_ne _ _ (fun e => by cases e)
      unfold State.tag16 State.frameSeq; rw [h1]
    rw [ht]; rfl
  refine ⟨_, _, hr, ?_, ?_, ?_, ?_, rfl, ?_, fun r h1 h2 h3 => ?_, ?_⟩
  · rw [State.rd_send]
    unfold State.setLine
    rw [State.rd_wr_other _ _ _ _ fle (fun e => by first | exact .inl fle | exact .inr fle | cases e), hz]
    rw [State.rd_modLink, State.rd_wr_same _ _ _ fle]; rfl
  · rw [State.rd_send]
    unfold State.setLine
    rw [State.rd_wr_other _ _ _ _ fle (fun e => by first | exact .inl fle | exact .inr fle | cases e), hz]
    rw [State.rd_modLink]; rw [State.rd_wr_other _ _ _ _ fle (fun e => by first | exact .inl fle | exact .inr fle | cases e), hy]
    exact State.rd_count_same _ _ _ fle
  · show tabGet z.setLine.lamp.counters _ _ = _
    rw [hz, hy]; exact tabGet_tabSet_same ..
  · rw [State.link_send]; exact hl
  · rw [State.rd_send]
    refine setLine_line rfl (fun x m => ?_)
    rw [State.rd_send]; unfold State.setLine; rw [State.rd_wr_other _ _ _ _ fle (fun e => by first | exact .inl fle | exact .inr fle | cases e)]
  · rw [State.word_send]
    unfold State.setLine
    rw [State.word_wr_ne _ _ (Ne.symm h3), hz, State.word_modLink, State.word_wr_ne _ _ (Ne.symm h1), hy]
    exact State.word_count_ne _ _ (Ne.symm h2)
  · have h0 : LinkRegs s z.setLine := by
      rw [hz, hy]
      exact ((((LinkRegs.refl s).count _ _).lampCount _ _).wr _ _ |>.modLink _ _ _).setLine
    have hw : z.setLine.wire = s.wire := by rw [hz, hy]; rfl
    unfold State.send
    rw [hw]
    unfold LinkRegs at h0
    generalize s.wire ++ [Out.flit d l ((s.link d l).flit s.tag16 8 (capBytes s.ownCap))] = R
    exact congrArg (fun x : State => ({ x with wire := R } : State)) h0

/-- The lanes a training ends with (R419): all of them; those in use before where the link ran degraded and has lost none since; or fewer than half as many, a power of
two. -/
theorem trainedLanes_spec : ∀ full active healthy n noSpare, n = trainedLanes full active healthy noSpare → (full ≤ healthy → noSpare = false → n = full) ∧
      (noSpare = false → 0 < active → active < full → active ≤ healthy → healthy < full → n = active) ∧
      (noSpare = true ∨ (healthy < full ∧ healthy < active) → 2 ≤ active → 0 < healthy → n ≤ healthy ∧ 2 * n ≤ active ∧ (∃ k, n = 2 ^ k) ∧ min healthy (active / 2) < 2 * n) := by
  intro full active healthy n ns hn
  refine ⟨fun h1 h2 => ?_, fun h1 h2 h3 h4 h5 => ?_, fun h h1 h2 => ?_⟩
  · rw [hn]; unfold trainedLanes; rw [if_pos ⟨h2, h1⟩]
  · rw [hn]; unfold trainedLanes; rw [if_neg (by omega), if_pos ⟨h1, h2, h3, h4⟩]
  · unfold trainedLanes at hn
    rw [if_neg (by rintro ⟨a, b⟩; rcases h with h | h; rw [a] at h; cases h; omega), if_neg (by rintro ⟨a, b⟩; rcases h with h | h; rw [a] at h; cases h; omega),
      if_neg (by omega : ¬ active = 0)] at hn
    unfold pow2Below at hn
    have hm : min healthy (active / 2) ≠ 0 := by omega
    rw [if_neg hm] at hn
    have a1 := Nat.log2_self_le hm
    have a2 := (Nat.log2_lt hm (k := Nat.log2 (min healthy (active / 2)) + 1)).mp (by omega)
    rw [Nat.pow_succ] at a2
    rw [← hn] at a1 a2
    refine ⟨by omega, by omega, ⟨_, hn⟩, by omega⟩

theorem State.drain_word (d l fuel : Nat) (r : RegId) : ∀ s : State, (s.drain d l fuel).word r = s.word r := by
  induction fuel with
  | zero => intro s; rfl
  | succ n ih =>
    intro s
    unfold State.drain
    dsimp only
    split
    · rfl
    · split
      · rw [ih, State.word_send, State.word_modLink]
      · rfl

theorem State.sendSequenced_word (s : State) (d l : Nat) (k : BitVec 4) (bs : List Byte) (r : RegId) : (s.sendSequenced d l k bs).word r = s.word r := by
  unfold State.sendSequenced
  dsimp only
  rw [State.drain_word, State.word_modLink]

theorem State.putPacket_word (s : State) (d l type : Nat) (p : Packet) (bs : List Byte) (r : RegId) : (s.putPacket d l type p bs).word r = s.word r := by
  have : ∀ (ps : List (List Byte)) (s : State), (ps.foldl (fun s b => s.sendSequenced d l 0 b) s).word r = s.word r := by
    intro ps
    induction ps with
    | nil => intro s; rfl
    | cons b ps ih => intro s; rw [List.foldl_cons, ih, State.sendSequenced_word]
  exact this _ s

theorem State.linkResumes_word (s : State) (d l : Nat) (r : RegId) : (s.linkResumes d l).word r = s.word r := by
  have : ∀ (rs : List Req) (s : State), (rs.foldl (fun s r => (s.modLink d l (fun x => { x with reqs := x.reqs ++ [r] })).putPacket d l r.type r.p r.data) s).word r = s.word r := by
    intro rs
    induction rs with
    | nil => intro s; rfl
    | cons x rs ih => intro s; rw [List.foldl_cons, ih, State.putPacket_word, State.word_modLink]
  unfold State.linkResumes State.releaseHeld
  dsimp only
  rw [State.drain_word, this, State.word_modLink]

/-- A replay may retrain the link (R416), which keeps its agreed version. -/
theorem State.replayFrom_ver (s : State) (d l : Nat) (q : BitVec 12) : (s.replayFrom d l q).rd (LINK_STATUS_VER d l) = s.rd (LINK_STATUS_VER d l) := by
  have hsend : ∀ (fs : List Flit) (s : State), ∀ r, (fs.foldl (fun s f => s.send (.flit d l (sealFlit { f with ack := (s.link d l).rxExp - 1 }))) s).word r = s.word r := by
    intro fs
    induction fs with
    | nil => intro s r; rfl
    | cons f fs ih => intro s r; rw [List.foldl_cons, ih]; exact State.word_send ..
  have hr : ∀ s : State, (s.retrain d l 1).rd (LINK_STATUS_VER d l) = s.rd (LINK_STATUS_VER d l) := by
    intro s
    have h1 : (s.retrain d l 1).rd (LINK_STATUS_VER d l) = (((s.count (LINK_COUNT_RETRAINS d l) 1).lampCount (16 + s.lampLink d l) 1).startTraining d l).rd (LINK_STATUS_VER d l) := by
      refine State.rd_congr (f := LINK_STATUS_VER d l) ?_
      exact (State.raise_raised (Raised.refl _) _).regs _ rfl
    rw [h1]
    unfold State.startTraining State.setLine State.sendCap State.sendPlain
    rw [State.rd_send]; rw [State.rd_wr_other _ _ _ _ fle (fun e => by first | exact .inl fle | exact .inr fle | cases e)]; rw [State.rd_modLink]; rw [State.rd_wr_other _ _ _ _ fle (fun e => by first | exact .inl fle | exact .inr fle | cases e)]
    exact State.rd_congr (f := LINK_STATUS_VER d l) (State.word_wr_ne (f := LINK_COUNT_RETRAINS d l) _ _ (fun e => by cases e))
  unfold State.replayFrom
  split
  · rfl
  · dsimp only
    split
    · rfl
    · rename_i f _ _ _
      have h0 : ∀ z : State, (∀ r, z.word r = s.word r) → ((z.count (LINK_COUNT_REPLAYS d l) (((s.link d l).retry.drop (q - f.seq).toNat).length)).modLink d l (fun x => { x with replays := x.replays + 1 })).rd (LINK_STATUS_VER d l) = s.rd (LINK_STATUS_VER d l) := by
        intro z hz
        rw [State.rd_modLink]
        refine State.rd_congr (f := LINK_STATUS_VER d l) ((State.word_wr_ne (f := LINK_COUNT_REPLAYS d l) _ _ (fun e => by cases e)).trans (hz _))
      split
      · rw [hr, State.rd_modLink]; exact h0 _ (hsend _ _)
      · exact h0 _ (hsend _ _)

theorem Sent.refl (s : State) : Sent s s := rfl

theorem Sent.trans {s t u : State} (h : Sent s t) (g : Sent t u) : Sent s u := by
  unfold Sent at *; rw [g, h]

theorem State.drain_sent (d l fuel : Nat) : ∀ s : State, Sent s (s.drain d l fuel) := by
  induction fuel with
  | zero => exact Sent.refl
  | succ n ih =>
    intro s
    unfold State.drain
    dsimp only
    split
    · exact Sent.refl s
    · split
      · exact Sent.trans (t := (s.modLink d l _).send _) rfl (ih _)
      · exact Sent.refl s

theorem State.putPacket_sent (s : State) (d l type : Nat) (p : Packet) (bs : List Byte) : Sent s (s.putPacket d l type p bs) := by
  unfold State.putPacket
  generalize packetFlits (packetBytes type p bs) 2 = fs
  induction fs generalizing s with
  | nil => exact Sent.refl s
  | cons f fs ih => exact (Sent.trans (t := s.modLink d l _) rfl (State.drain_sent ..)).trans (ih _)

theorem State.sendSequenced_sent (s : State) (d l : Nat) (k : BitVec 4) (bs : List Byte) : Sent s (s.sendSequenced d l k bs) := by
  unfold State.sendSequenced
  dsimp only
  exact Sent.trans (t := s.modLink d l _) rfl (State.drain_sent ..)

theorem State.floodPort_sent (s : State) (port index : Nat) (k : BitVec 4) (bs : List Byte) : Sent s (s.floodPort port index k bs) := by
  unfold State.floodPort
  split
  · split
    · split
      · exact State.sendSequenced_sent ..
      · exact rfl
    · exact rfl
  · exact rfl

/-- A flooded flit leaves on the links alone (R429). -/
theorem State.floodOut_sent (s : State) (k : BitVec 4) (bs : List Byte) : Sent s (s.floodOut k bs) :=
  (State.floodPort_sent ..).trans (State.floodPort_sent ..)

theorem State.flood_sent (s : State) (d l : Nat) (k : BitVec 4) (bs : List Byte) : Sent s (s.flood d l k bs) := by
  unfold State.flood
  split
  · exact rfl
  · split
    · exact State.floodPort_sent ..
    · exact rfl

/-- The answer to a register access: on the link it came over, where there is one (R413, R427). -/
theorem State.respond_spec (s : State) (src : Src) (a : Nat) (bs : List Byte) : Sent s (s.respond src a bs) ∧ (s.linkOf src = none → s.respond src a bs = s) ∧
    ∀ d l, s.linkOf src = some (d, l) → s.respond src a bs = s.putPacket d l 7 (s.answerTo src a bs.length) bs := by
  unfold State.respond
  refine ⟨?_, fun h => by rw [h], fun d l h => by rw [h]⟩
  split
  · exact Sent.refl s
  · exact State.putPacket_sent ..

theorem State.sendOn_sent (u : State) (d l type : Nat) (p : Packet) (bs : List Byte) (h : isRequest type = false) : Sent u (u.sendOn d l type p bs) := by
  unfold State.sendOn
  rw [if_neg (by rw [h]; decide)]
  cases u.outLink p.dstTeam.toNat p.dstSlot.toNat p.srcDie.toNat p.dstDie.toNat with
  | none => exact Sent.refl u
  | some o =>
    dsimp only
    split
    · exact Sent.refl u
    · exact State.putPacket_sent ..

/-- Reissuing the requests that crossed a port sends them on their links again (R85, R417). -/
theorem State.reissueOver_sent (s : State) (d p : Nat) : Sent s (s.reissueOver d p) := by
  have inner : ∀ (d l : Nat) (rs : List Req) (s : State), Sent s (rs.foldl (fun s r => s.putPacket d l r.type r.p r.data) s) := by
    intro d l rs
    induction rs with
    | nil => exact Sent.refl
    | cons r rs ih => intro s; rw [List.foldl_cons]; exact Sent.trans (s.putPacket_sent d l r.type r.p r.data) (ih _)
  unfold State.reissueOver
  generalize s.allLinks = ks
  induction ks generalizing s with
  | nil => exact Sent.refl s
  | cons k ks ih => rw [List.foldl_cons]; exact Sent.trans (inner k.1 k.2 _ s) (ih _)

theorem State.resetTransit_sent (s : State) (d l : Nat) : Sent s (s.resetTransit d l) ∧ ((s.link d l).transit = [] → s.resetTransit d l = s.modLink d l (fun x => { x with transit := [] })) := by
  unfold State.resetTransit
  dsimp only
  refine ⟨?_, fun h => by rw [h]; rfl⟩
  refine Sent.trans (t := s.modLink d l (fun x => { x with transit := [] })) rfl ?_
  generalize (s.link d l).transit = ts
  generalize s.modLink d l (fun x => { x with transit := [] }) = u
  induction ts generalizing u with
  | nil => exact Sent.refl u
  | cons e ts ih =>
    refine Sent.trans ?_ (ih _)
    exact State.sendOn_sent u d l _ _ _ (by decide)

/-- A link that reinitialises restarts (R417), and what it carried for other modules is answered. -/
theorem linkReinit_spec (s : State) (d l : Nat) : ∃ u : State, u = { s with links := u.links } ∧ s.linkReinit d l = u.resetTransit d l ∧ Sent s (s.linkReinit d l) ∧
    u.link d l = { s.link d l with txNext := 0, rxExp := 0, retry := [], replays := 0, credits := s.rd (LINK_CFG_CT d l), sent := 0, recv := 0, ret := 0, crin := 0, occ := 0, nakAge := 0,
                                   early := 0, earlyCr := 0, mine := none, txq := (s.link d l).txq.filter (fun t => decide (t.1 ≠ 0)), held := (s.link d l).reqs ++ (s.link d l).held, reqs := [],
                                   upSince := false, ct := s.rd (LINK_CFG_CT d l) } ∧ ∀ k, k ≠ linkKey d l → tabGet u.links k linkReset = tabGet s.links k linkReset := by
  refine ⟨_, ?_, rfl, ?_, ?_, fun k hk => tabGet_tabSet_ne _ _ _ (Ne.symm hk)⟩
  · rfl
  · exact Sent.trans (t := s.modLink d l _) rfl (State.resetTransit_sent ..).1
  · rw [State.link_modLink_same]

theorem field_clearBit (w : Word) (k : Nat) (hk : k < 64) : field (w &&& ~~~(1#64 <<< k)).toNat k 1 = 0 := by
  apply Nat.eq_of_testBit_eq
  intro i
  rw [testBit_field, BitVec.testBit_toNat, Nat.zero_testBit]
  by_cases hi : i < 1
  · have : i = 0 := by omega
    subst this
    simp [hk]
  · simp [hi]

/-- A request that fails changes nothing else: EV_ADDR_UNMAPPED from the link, and no data goes back. -/
theorem State.requestFails_spec (s : State) (d l : Nat) (p : Packet) :
    s.requestFails d l p = (s.raise (mkEv 2 d 0xFF 22 l [(6, p.addr.toNat), (2, s.arrivalIndex d l)])).send (.noData d l p) := by
  unfold State.requestFails State.unmapped; rw [Nat.mod_eq_of_lt p.addr.isLt]

/-- A flooded report or verdict leaves East and West, and its payload draws free values (R412, R429). -/
theorem State.floodSix_spec (s : State) (x : Flood) (o : Out) : ∃ y z : State,
    y = { s with team := { s.team with flooded := s.team.flooded ++ [x] }, wire := s.wire ++ [o] } ∧ Sent y z ∧
    z = (y.floodPort 1 0 6 (s.freeBytes 246)).floodPort 2 0 6 (s.freeBytes 246) ∧ s.floodSix x o = z.used 246 :=
  ⟨_, _, rfl, State.floodOut_sent .., rfl, rfl⟩

/-- The Coachman's verdict is that of all the reports it has, and leaves in KIND 6 flits (R50, R52). -/
theorem State.gather_spec (y : State) : ∃ (v : Verdict) (g z : State),
    v = y.verdictOf (y.allReports y.team.reports) ∧
    g = { y with team := { y.team with reports := y.allReports y.team.reports, verdict := some v, flooded := y.team.flooded ++ [.verdict y.tag16 v] }, wire := y.wire ++ [.verdict v] } ∧
    Sent g z ∧ z = (g.floodPort 1 0 6 (y.freeBytes 246)).floodPort 2 0 6 (y.freeBytes 246) ∧ y.gather = z.used 246 := by
  obtain ⟨g, z, h1, h2, h3, h4⟩ := State.floodSix_spec (y.modTeam (fun t => { t with reports := y.allReports y.team.reports, verdict := some (y.verdictOf (y.allReports y.team.reports)) }))
    (.verdict y.tag16 (y.verdictOf (y.allReports y.team.reports))) (.verdict (y.verdictOf (y.allReports y.team.reports)))
  exact ⟨_, g, z, rfl, h1, h2, h3, h4⟩

/-- The verdict at cycle H where none is held (R50): the Coachman's of the reports it has, and that of a module alone of its own report. -/
theorem verdictNow_own (p : State) (hv : p.team.verdict = none) :
    (p.rd TEAM_STATUS_STATE = 3 → p.verdictNow.2 = p.verdictOf (p.allReports p.team.reports)) ∧
    (p.rd TEAM_STATUS_STATE < 2 → p.verdictNow.2 = { p.verdictOf (p.allReports []) with lost := [] }) := by
  constructor
  · intro h
    have h2 : ¬ p.rd TEAM_STATUS_STATE = 2 := by omega
    have hc : p.isCoach = true := decide_eq_true h
    obtain ⟨v, g, z, h3, h4, h5, -, h6⟩ := p.gather_spec
    have hz : p.gather.team.verdict = some v := by
      rw [h6]
      have : z.team = g.team := by rw [h5]
      show (z.used 246).team.verdict = _
      rw [show (z.used 246).team = z.team from rfl, this, h4]
    unfold State.verdictNow
    rw [if_neg h2]
    simp only [hc, hv, Option.isNone_none, and_self, if_true, hz]
    exact h3
  · intro h
    have h2 : ¬ p.rd TEAM_STATUS_STATE = 2 := by omega
    have hc : p.isCoach = false := decide_eq_false (by omega)
    unfold State.verdictNow
    rw [if_neg h2]
    simp [hc, hv]

end Sys2Proof.Machine
end

