-- ==== Sys2Proof/Laws/Team.lean ====
section
/-! SUPPORT. Lemmas of team formation and election. -/

set_option linter.unusedSimpArgs false
set_option linter.unusedVariables false

namespace Sys2Proof.Machine

theorem flag_one {s : State} {f : FRef} (h : s.rd f = 1) : s.flag f = true := decide_eq_true h

theorem flag_not {s : State} {f : FRef} (h : s.rd f ≠ 1) : s.flag f = false := decide_eq_false h

/-- What a time flit that leaves changes: what it carries and the flit join the wire, and its payload takes 246 free bytes. -/
theorem sendTime_spec (s : State) (d l : Nat) : s.sendTime d l = { s with
    wire := s.wire ++ [.time d l s.frame.teamTime, .flit d l ((s.link d l).flit s.tag16 5 (s.freeBytes 246))], fresh := s.fresh + 246 } := by
  unfold State.sendTime State.sendPlain State.send State.used
  simp only [List.append_assoc, List.cons_append, List.nil_append]
  rfl

theorem foldl_send_time (g : Nat → Option (Nat × Nat)) (ps : List Nat) (s0 : State) : ∀ s : State, (∀ p, s.linkOfPort p 0 = g p) → (∀ d l, s.linkHears d l = s0.linkHears d l) →
    ps.foldl (fun s p => match s.linkOfPort p 0 with
      | some (d, l) => if s.linkHears d l then s.sendTime d l else s
      | none => s) s = ((ps.filterMap g).filter (fun k => s0.linkHears k.1 k.2)).foldl (fun s k => s.sendTime k.1 k.2) s := by
  induction ps with
  | nil => intro s _ _; rfl
  | cons p ps ih =>
    intro s h2 h3
    rw [List.foldl_cons, h2 p]
    cases hg : g p with
    | none => rw [List.filterMap_cons, hg]; exact ih s h2 h3
    | some k =>
      obtain ⟨d, l⟩ := k
      rw [List.filterMap_cons, hg]
      dsimp only
      rw [h3 d l, List.filter_cons]
      cases hh : s0.linkHears d l
      · rw [if_neg (by decide), if_neg (by decide)]; exact ih s h2 h3
      · rw [if_pos rfl, if_pos rfl, List.foldl_cons]
        have e := sendTime_spec s d l
        exact ih _ (fun p => by rw [e]; exact h2 p) (fun x m => by rw [e]; exact h3 x m)

theorem lowestSlot_fold (cs : List CapBlock) : ∀ m : Option CapBlock, (cs.foldl (fun m c => match m with
    | none => some c
    | some b => if c.slot.toNat < b.slot.toNat then some c else some b) m = none ↔ m = none ∧ cs = []) ∧
    ∀ c, cs.foldl (fun m c => match m with
    | none => some c
    | some b => if c.slot.toNat < b.slot.toNat then some c else some b) m = some c → (c ∈ cs ∨ m = some c) ∧ (∀ b ∈ cs, c.slot.toNat ≤ b.slot.toNat) ∧ ∀ b, m = some b → c.slot.toNat ≤ b.slot.toNat := by
  induction cs with
  | nil => intro m; refine ⟨by simp, fun c h => ⟨.inr h, by simp, fun b hb => ?_⟩⟩; rw [List.foldl_nil] at h; rw [h] at hb; injection hb with hb; rw [hb]
  | cons x xs ih =>
    intro m
    rw [List.foldl_cons]
    obtain ⟨y, hy⟩ : ∃ y : CapBlock, (match m with
      | none => some x
      | some b => if x.slot.toNat < b.slot.toNat then some x else some b) = some y := by
      cases m with
      | none => exact ⟨x, rfl⟩
      | some b => dsimp only; split; exact ⟨x, rfl⟩; exact ⟨b, rfl⟩
    have h1 : y.slot.toNat ≤ x.slot.toNat ∧ (∀ b, m = some b → y.slot.toNat ≤ b.slot.toNat) ∧ (y = x ∨ m = some y) := by
      cases m with
      | none => injection hy with hy; subst hy; exact ⟨Nat.le_refl _, nofun, .inl rfl⟩
      | some b =>
        dsimp only at hy
        split at hy
        · injection hy with hy; subst hy; refine ⟨Nat.le_refl _, fun c hc => ?_, .inl rfl⟩; injection hc with hc; subst hc; omega
        · injection hy with hy; subst hy; refine ⟨by omega, fun c hc => ?_, .inr rfl⟩; injection hc with hc; subst hc; omega
    have h2 := ih (some y)
    rw [hy]
    refine ⟨⟨fun h => absurd (h2.1.mp h).1 (by simp), fun h => absurd h.2 (by simp)⟩, fun c hc => ?_⟩
    obtain ⟨a, b, e⟩ := h2.2 c hc
    have e := e y rfl
    refine ⟨?_, fun z hz => ?_, fun z hz => Nat.le_trans e (h1.2.1 z hz)⟩
    · rcases a with a | a
      · exact .inl (List.mem_cons_of_mem _ a)
      · injection a with a
        subst a
        rcases h1.2.2 with h | h
        · exact .inl (by rw [h]; exact List.mem_cons_self)
        · exact .inr h
    · rcases List.mem_cons.mp hz with rfl | hz
      · omega
      · exact b z hz

theorem lowestSlot_spec (cs : List CapBlock) : (lowestSlot cs = none ↔ cs = []) ∧ ∀ c, lowestSlot cs = some c → c ∈ cs ∧ ∀ b ∈ cs, c.slot.toNat ≤ b.slot.toNat := by
  have h := lowestSlot_fold cs none
  refine ⟨h.1.trans (by simp), fun c hc => ?_⟩
  obtain ⟨a, b, -⟩ := h.2 c hc
  exact ⟨by simpa using a, b⟩

theorem electedOf_spec (cs : List CapBlock) : (electedOf cs = none ↔ ∀ c ∈ cs, c.spare = true) ∧
    ∀ c, electedOf cs = some c → c ∈ cs ∧ c.spare = false ∧ (c.coach = false → ∀ b ∈ cs, b.spare = false → b.coach = false) ∧ ∀ b ∈ cs, b.spare = false → (c.coach = true → b.coach = true) → c.slot.toNat ≤ b.slot.toNat := by
  unfold electedOf
  dsimp only
  have hm : ∀ c, c ∈ cs.filter (fun c => !c.spare) ↔ c ∈ cs ∧ c.spare = false := by intro c; simp
  by_cases ha : (cs.filter (fun c => !c.spare)).any (fun c => c.coach) = true
  · rw [if_pos ha]
    obtain ⟨z, hz, hz2⟩ := List.any_eq_true.mp ha
    have hmm : ∀ c, c ∈ (cs.filter (fun c => !c.spare)).filter (fun c => c.coach) ↔ (c ∈ cs ∧ c.spare = false) ∧ c.coach = true := by intro c; rw [List.mem_filter, hm]
    have hs := lowestSlot_spec ((cs.filter (fun c => !c.spare)).filter (fun c => c.coach))
    refine ⟨hs.1.trans ⟨fun h => ?_, fun h => ?_⟩, fun c hc => ?_⟩
    · have := (hmm z).mpr ⟨(hm z).mp hz, hz2⟩
      rw [h] at this; cases this
    · have := (hm z).mp hz
      have h3 := h z this.1
      rw [this.2] at h3; cases h3
    · obtain ⟨a, b⟩ := hs.2 c hc
      have a := (hmm c).mp a
      refine ⟨a.1.1, a.1.2, fun h => ?_, fun y hy hy2 hy3 => b y ((hmm y).mpr ⟨⟨hy, hy2⟩, hy3 a.2⟩)⟩
      rw [a.2] at h; cases h
  · rw [if_neg ha]
    have hs := lowestSlot_spec (cs.filter (fun c => !c.spare))
    have hno : ∀ b ∈ cs, b.spare = false → b.coach = false := by
      intro b hb hb2
      cases hc : b.coach
      · rfl
      · exact absurd (List.any_eq_true.mpr ⟨b, (hm b).mpr ⟨hb, hb2⟩, hc⟩) ha
    refine ⟨hs.1.trans ⟨fun h c hc => ?_, fun h => ?_⟩, fun c hc => ?_⟩
    · cases hsp : c.spare
      · have := (hm c).mpr ⟨hc, hsp⟩
        rw [h] at this; cases this
      · rfl
    · rw [List.filter_eq_nil_iff]; intro c hc; simp [h c hc]
    · obtain ⟨a, b⟩ := hs.2 c hc
      have a := (hm c).mp a
      exact ⟨a.1, a.2, fun _ => hno, fun y hy hy2 _ => b y ((hm y).mpr ⟨hy, hy2⟩)⟩

theorem foldl_min_le (xs : List Nat) : ∀ m, (xs.foldl min m ≤ m ∧ ∀ x ∈ xs, xs.foldl min m ≤ x) ∧ (xs.foldl min m = m ∨ xs.foldl min m ∈ xs) := by
  induction xs with
  | nil => intro m; simp
  | cons x xs ih =>
    intro m
    rw [List.foldl_cons]
    obtain ⟨⟨a, b⟩, c⟩ := ih (min m x)
    refine ⟨⟨by omega, fun y hy => ?_⟩, ?_⟩
    · rcases List.mem_cons.mp hy with rfl | hy
      · omega
      · exact b y hy
    · rcases c with c | c
      · rcases Nat.le_total m x with h | h
        · left; rw [c]; omega
        · right; rw [c, Nat.min_eq_right h]; exact List.mem_cons_self
      · exact .inr (List.mem_cons_of_mem _ c)

theorem foldl_raise_refused (f : State → CapBlock × Option Nat → State) (hn : ∀ s c, f s (c, none) = s)
    (hs : ∀ s c x, f s (c, some x) = s.raise (mkEv 165 s.lead 0xFF 24 0 [(1, c.slot.toNat), (1, x)])) (js : List (CapBlock × Option Nat)) : ∀ s : State,
    js.foldl f s = (js.filterMap (fun j => j.2.map (fun x => (j.1, x)))).foldl (fun w j => w.raise (mkEv 165 w.lead 0xFF 24 0 [(1, j.1.slot.toNat), (1, j.2)])) s := by
  induction js with
  | nil => intro s; rfl
  | cons j js ih =>
    intro s
    rw [List.foldl_cons, List.filterMap_cons]
    obtain ⟨c, o⟩ := j
    cases o with
    | none => rw [hn]; exact ih s
    | some x => rw [hs]; exact ih _

theorem foldl_send (f : Nat × Nat → Out) (ks : List (Nat × Nat)) : ∀ s : State, ks.foldl (fun s k => s.send (f k)) s = { s with wire := s.wire ++ ks.map f } := by
  induction ks with
  | nil => intro s; simp
  | cons k ks ih => intro s; rw [List.foldl_cons, ih]; simp [State.send]

theorem ownCap_congr {u s : State} (hf : u.fuses = s.fuses) (hj : u.job.owner = s.job.owner) (hc : u.word .TEAM_CFG = s.word .TEAM_CFG) : u.ownCap = s.ownCap := by
  unfold State.ownCap
  have h1 : u.flag TEAM_CFG_SPARE = s.flag TEAM_CFG_SPARE := by unfold State.flag; rw [State.rd_congr hc]
  rw [h1, hf, hj]

def TrainRegs (s z : State) : Prop := z = { s with regs := z.regs, links := z.links, wire := z.wire }

theorem startTraining_trainRegs {s z : State} (h : TrainRegs s z) (d l : Nat) : TrainRegs s (z.startTraining d l) := by
  have h1 : TrainRegs z (z.startTraining d l) := rfl
  unfold TrainRegs at *; rw [h1, h]

theorem startTraining_state (z : State) (d l x m : Nat) : (z.startTraining d l).rd (LINK_STATUS_STATE x m) = if (x, m) = (d, l) then 1 else z.rd (LINK_STATUS_STATE x m) := by
  unfold State.startTraining State.setLine State.sendCap State.sendPlain
  dsimp only
  rw [State.rd_send]; rw [State.rd_wr_other _ _ _ _ fle (fun e => by first | exact .inl fle | exact .inr fle | cases e)]
  rw [State.rd_modLink]
  by_cases h : (x, m) = (d, l)
  · rw [if_pos h]; injection h with h1 h2; subst h1; subst h2; exact State.rd_wr_same _ _ _ fle
  · rw [if_neg h]; exact State.rd_wr_ne (f := LINK_STATUS_STATE d l) (g := LINK_STATUS_STATE x m) _ 1 (fun e => h (by injection e with e1 e2; rw [e1, e2]))

theorem startTraining_word (z : State) (d l : Nat) (r : RegId) (h1 : r ≠ .LINK_STATUS d l) (h2 : r ≠ .TEAM_STATUS) : (z.startTraining d l).word r = z.word r := by
  unfold State.startTraining State.setLine State.sendCap State.sendPlain
  dsimp only
  rw [State.word_send, State.word_wr_ne _ _ (Ne.symm h2), State.word_modLink, State.word_wr_ne _ _ (Ne.symm h1)]

theorem foldl_startTraining_spec (ks : List (Nat × Nat)) : ∀ z : State, (TrainRegs z (ks.foldl (fun s k => if s.linkUp k.1 k.2 then s.startTraining k.1 k.2 else s) z)) ∧
    (∀ k, z.rd (LINK_STATUS_STATE k.1 k.2) = 1 ∨ (k ∈ ks ∧ z.linkUp k.1 k.2 = true) → (ks.foldl (fun s k => if s.linkUp k.1 k.2 then s.startTraining k.1 k.2 else s) z).rd (LINK_STATUS_STATE k.1 k.2) = 1) ∧
    ∀ r, (∀ d l, r ≠ .LINK_STATUS d l) → r ≠ .TEAM_STATUS → (ks.foldl (fun s k => if s.linkUp k.1 k.2 then s.startTraining k.1 k.2 else s) z).word r = z.word r := by
  induction ks with
  | nil => exact fun z => ⟨rfl, (fun k h => by rcases h with h | ⟨h, -⟩; exact h; cases h), fun _ _ _ => rfl⟩
  | cons k ks ih =>
    intro z
    rw [List.foldl_cons]
    obtain ⟨y, hy⟩ : ∃ y : State, y = (if z.linkUp k.1 k.2 then z.startTraining k.1 k.2 else z) := ⟨_, rfl⟩
    rw [← hy]
    obtain ⟨a, b, c⟩ := ih y
    have hyr : TrainRegs z y := by rw [hy]; split; exact startTraining_trainRegs (show TrainRegs z z from rfl) _ _; exact (show TrainRegs z z from rfl)
    refine ⟨?_, fun x hx => b x ?_, fun r h1 h2 => (c r h1 h2).trans ?_⟩
    · unfold TrainRegs at *; rw [a, hyr]
    · rw [hy]
      rcases hx with hx | ⟨hx, hu⟩
      · left
        split
        · rw [startTraining_state]; split; rfl; exact hx
        · exact hx
      · by_cases hk : x = k
        · subst hk; left; rw [if_pos hu, startTraining_state, if_pos rfl]
        · rcases List.mem_cons.mp hx with hx | hx
          · exact absurd hx hk
          · by_cases hkk : z.linkUp k.1 k.2 = true
            · rw [if_pos hkk]
              right
              refine ⟨hx, ?_⟩
              unfold State.linkUp at hu ⊢
              rw [startTraining_state, if_neg (by intro e; exact hk (Prod.ext (congrArg Prod.fst e) (congrArg Prod.snd e)))]
              exact hu
            · rw [if_neg hkk]; exact .inr ⟨hx, hu⟩
    · rw [hy]; split
      · exact startTraining_word _ _ _ _ (h1 _ _) h2
      · rfl

theorem max_one_holdUnits (rtt : Nat) : max 1 (holdUnits rtt) = holdUnits rtt := by unfold holdUnits ceilDiv; omega

theorem foldl_raise_fuses (js : List (CapBlock × Nat)) : ∀ s : State, (js.foldl (fun w j => w.raise (mkEv 165 w.lead 0xFF 24 0 [(1, j.1.slot.toNat), (1, j.2)])) s).fuses = s.fuses := by
  induction js with
  | nil => intro s; rfl
  | cons j js ih => intro s; rw [List.foldl_cons, ih, (State.raise_raised (Raised.refl s) _).rest]

theorem wr_of_regs_only {s z : State} (h : z = { s with regs := z.regs }) (f : FRef) (v : Nat) : z.wr f v = { s with regs := (z.wr f v).regs } := by
  unfold State.wr State.setWord
  generalize assocSet _ _ _ = R
  have h2 := congrArg (fun x : State => ({ x with regs := R } : State)) h
  exact h2

theorem teamForms_spec (s : State) : ∀ (coach : CapBlock) v cs members spares, members = slotsOf_ (cs.filter (fun c => !c.spare)) → spares = slotsOf_ (cs.filter (fun c => c.spare)) → v < 256 → ∃ t : State,
      s.teamForms coach v cs = t.raise (mkEv 166 t.lead 0xFF 17 0 [(1, coach.slot.toNat), (1, v)]) ∧ t.rd TEAM_STATUS_STATE = (if coach.serial = s.fuses.serial then 3 else 2) ∧
      t.rd TEAM_STATUS_POS = firstIdx (members ++ spares) (fun k => decide (k = s.mySlot)) 0 % 16 ∧ t.rd TEAM_STATUS_COACH = coach.slot.toNat % 16 ∧ t.rd TEAM_STATUS_TVER = v ∧
      t.rd TEAM_CFG_ARM = 0 ∧ t.rd FRAME_STATUS_SEQ = 0 ∧ t.rd MODULE_STATUS_STAGE = 9 ∧ t.rd MODULE_STATUS_READY = 1 ∧
      t = { s with regs := t.regs
                   team := { s.team with positions := members, seats := members ++ spares, spares := spares, opening := s.flag BYPASS_CLOSED && !s.flag BYPASS_CLOSE }
                   job := { s.job with teamOwner := if coach.owner = noOwner then s.job.teamOwner else coach.owner }
                   frame := { s.frame with cycle := 0, tickTime := s.frame.teamTime + BitVec.ofNat 64 (s.frameLen * 1024), inHold := false, fleet := none, fleetJoined := false, nextSeq := none } } ∧
      (∀ r, r ∉ [.TEAM_STATUS, .TEAM_CFG, .FRAME_STATUS, .MODULE_STATUS] → t.word r = s.word r) := by
  intro coach v cs members spares hm hs hv
  obtain ⟨z, hz⟩ : ∃ z : State, z = ((((((((s.wr TEAM_STATUS_STATE (if decide (coach.serial = s.fuses.serial) then 3 else 2)).wr TEAM_STATUS_POS (firstIdx (members ++ spares) (fun k => decide (k = s.mySlot)) 0)).wr TEAM_STATUS_COACH coach.slot.toNat).wr
    TEAM_STATUS_MEMBERS ((members ++ spares).map (fun k => 2 ^ k)).sum).wr TEAM_STATUS_TVER v).wr TEAM_CFG_ARM 0).wr FRAME_STATUS_SEQ 0).wr MODULE_STATUS_STAGE 9).wr MODULE_STATUS_READY 1 := ⟨_, rfl⟩
  have hzr : z = { s with regs := z.regs } := by rw [hz]; exact wr_of_regs_only (wr_of_regs_only (wr_of_regs_only (wr_of_regs_only (wr_of_regs_only (wr_of_regs_only (wr_of_regs_only (wr_of_regs_only (wr_of_regs_only rfl _ _) _ _) _ _) _ _) _ _) _ _) _ _) _ _) _ _
  have hzw : ∀ r, r ∉ [RegId.TEAM_STATUS, .TEAM_CFG, .FRAME_STATUS, .MODULE_STATUS] → z.word r = s.word r := by
    intro r hr
    simp only [List.mem_cons, List.not_mem_nil, or_false, not_or] at hr
    obtain ⟨a, b, c, e⟩ := hr
    rw [hz]
    iterate 2 rw [State.word_wr_ne _ _ (Ne.symm e)]
    rw [State.word_wr_ne _ _ (Ne.symm c), State.word_wr_ne _ _ (Ne.symm b)]
    iterate 5 rw [State.word_wr_ne _ _ (Ne.symm a)]
  have hsv : z.rd MODULE_STATUS_SERVICE = s.rd MODULE_STATUS_SERVICE := by
    rw [hz, State.rd_wr_other _ _ _ _ fle (fun e => by first | exact .inl fle | exact .inr fle), State.rd_wr_other _ _ _ _ fle (fun e => by first | exact .inl fle | exact .inr fle)]
    refine State.rd_congr (f := MODULE_STATUS_SERVICE) ?_
    rw [State.word_wr_ne _ _ (fun e => by cases e), State.word_wr_ne _ _ (fun e => by cases e)]
    iterate 5 rw [State.word_wr_ne _ _ (fun e => by cases e)]
  have hf : z.flag BYPASS_CLOSED = s.flag BYPASS_CLOSED ∧ z.flag BYPASS_CLOSE = s.flag BYPASS_CLOSE ∧ z.frameLen = s.frameLen := by
    unfold State.flag
    exact ⟨by rw [State.rd_congr (f := BYPASS_CLOSED) (hzw .BYPASS (by simp))], by rw [State.rd_congr (f := BYPASS_CLOSE) (hzw .BYPASS (by simp))], by unfold State.frameLen; rw [State.rd_congr (f := FRAME_CFG_LEN) (hzw .FRAME_CFG (by simp)), hsv]⟩
  obtain ⟨t, ht⟩ : ∃ t : State, t = { z with
      team := { s.team with positions := members, seats := members ++ spares, spares := spares, opening := s.flag BYPASS_CLOSED && !s.flag BYPASS_CLOSE }
      job := { s.job with teamOwner := if coach.owner = noOwner then s.job.teamOwner else coach.owner }
      frame := { s.frame with cycle := 0, tickTime := s.frame.teamTime + BitVec.ofNat 64 (s.frameLen * 1024), inHold := false, fleet := none, fleetJoined := false, nextSeq := none } } := ⟨_, rfl⟩
  have hrd : ∀ f, t.rd f = z.rd f := fun f => State.rd_congr (by rw [ht]; rfl)
  refine ⟨t, ?_, ?_, ?_, ?_, ?_, ?_, ?_, ?_, ?_, ?_, fun r hr => ?_⟩
  · have : s.teamForms coach v cs = t.raiseLead 166 17 [(1, coach.slot.toNat), (1, v)] := by
      unfold State.teamForms
      dsimp only
      rw [← hm, ← hs, ← hz, hf.1, hf.2.1, hf.2.2, ht, hzr]
    exact this
  · rw [hrd, hz]
    rw [State.rd_wr_other _ _ _ _ fle (fun e => by first | exact .inl fle | exact .inr fle | cases e)]; rw [State.rd_wr_other _ _ _ _ fle (fun e => by first | exact .inl fle | exact .inr fle | cases e)]; rw [State.rd_wr_other _ _ _ _ fle (fun e => by first | exact .inl fle | exact .inr fle | cases e)]; rw [State.rd_wr_other _ _ _ _ fle (fun e => by first | exact .inl fle | exact .inr fle | cases e)]; rw [State.rd_wr_other _ _ _ _ fle (fun e => by first | exact .inl fle | exact .inr fle | cases e)]; rw [State.rd_wr_other _ _ _ _ fle (fun e => by first | exact .inl fle | exact .inr fle | cases e)]; rw [State.rd_wr_other _ _ _ _ fle (fun e => by first | exact .inl fle | exact .inr fle | cases e)]; rw [State.rd_wr_other _ _ _ _ fle (fun e => by first | exact .inl fle | exact .inr fle | cases e)]
    rw [State.rd_wr_same _ _ _ fle]
    by_cases h : coach.serial = s.fuses.serial
    · rw [if_pos (decide_eq_true h), if_pos h]; rfl
    · rw [if_neg (by simpa using h), if_neg h]; rfl
  · rw [hrd, hz]
    rw [State.rd_wr_other _ _ _ _ fle (fun e => by first | exact .inl fle | exact .inr fle | cases e)]; rw [State.rd_wr_other _ _ _ _ fle (fun e => by first | exact .inl fle | exact .inr fle | cases e)]; rw [State.rd_wr_other _ _ _ _ fle (fun e => by first | exact .inl fle | exact .inr fle | cases e)]; rw [State.rd_wr_other _ _ _ _ fle (fun e => by first | exact .inl fle | exact .inr fle | cases e)]; rw [State.rd_wr_other _ _ _ _ fle (fun e => by first | exact .inl fle | exact .inr fle | cases e)]; rw [State.rd_wr_other _ _ _ _ fle (fun e => by first | exact .inl fle | exact .inr fle | cases e)]; rw [State.rd_wr_other _ _ _ _ fle (fun e => by first | exact .inl fle | exact .inr fle | cases e)]
    exact State.rd_wr_same _ _ _ fle
  · rw [hrd, hz]
    rw [State.rd_wr_other _ _ _ _ fle (fun e => by first | exact .inl fle | exact .inr fle | cases e)]; rw [State.rd_wr_other _ _ _ _ fle (fun e => by first | exact .inl fle | exact .inr fle | cases e)]; rw [State.rd_wr_other _ _ _ _ fle (fun e => by first | exact .inl fle | exact .inr fle | cases e)]; rw [State.rd_wr_other _ _ _ _ fle (fun e => by first | exact .inl fle | exact .inr fle | cases e)]; rw [State.rd_wr_other _ _ _ _ fle (fun e => by first | exact .inl fle | exact .inr fle | cases e)]; rw [State.rd_wr_other _ _ _ _ fle (fun e => by first | exact .inl fle | exact .inr fle | cases e)]
    exact State.rd_wr_same _ _ _ fle
  · rw [hrd, hz]
    rw [State.rd_wr_other _ _ _ _ fle (fun e => by first | exact .inl fle | exact .inr fle | cases e)]; rw [State.rd_wr_other _ _ _ _ fle (fun e => by first | exact .inl fle | exact .inr fle | cases e)]; rw [State.rd_wr_other _ _ _ _ fle (fun e => by first | exact .inl fle | exact .inr fle | cases e)]; rw [State.rd_wr_other _ _ _ _ fle (fun e => by first | exact .inl fle | exact .inr fle | cases e)]
    rw [State.rd_wr_same _ _ _ fle]; exact Nat.mod_eq_of_lt hv
  · rw [hrd, hz]
    rw [State.rd_wr_other _ _ _ _ fle (fun e => by first | exact .inl fle | exact .inr fle | cases e)]; rw [State.rd_wr_other _ _ _ _ fle (fun e => by first | exact .inl fle | exact .inr fle | cases e)]; rw [State.rd_wr_other _ _ _ _ fle (fun e => by first | exact .inl fle | exact .inr fle | cases e)]
    exact State.rd_wr_same _ _ _ fle
  · rw [hrd, hz]
    rw [State.rd_wr_other _ _ _ _ fle (fun e => by first | exact .inl fle | exact .inr fle | cases e)]; rw [State.rd_wr_other _ _ _ _ fle (fun e => by first | exact .inl fle | exact .inr fle | cases e)]
    exact State.rd_wr_same _ _ _ fle
  · rw [hrd, hz]
    rw [State.rd_wr_other _ _ _ _ fle (fun e => by first | exact .inl fle | exact .inr fle | cases e)]
    exact State.rd_wr_same _ _ _ fle
  · rw [hrd, hz]
    exact State.rd_wr_same _ _ _ fle
  · rw [ht, hzr]
  · rw [show t.word r = z.word r by rw [ht]; rfl]; exact hzw r hr

end Sys2Proof.Machine
end

