-- ==== Sys2Proof/Laws/Boot.lean ====
section
/-! SUPPORT. Lemmas of resets and boot. -/

set_option linter.unusedSimpArgs false
set_option linter.unusedVariables false

namespace Sys2Proof.Machine

theorem assocGet_filter_pos {α : Type} (t : Assoc α) (p : RegId → Bool) (r : RegId) (d : α) (hr : p r = true) : assocGet (t.filter (fun e => p e.1)) r d = assocGet t r d := by
  induction t with
  | nil => rfl
  | cons e t ih =>
    rw [List.filter_cons]
    by_cases he : p e.1 = true
    · rw [if_pos he]; simp only [assocGet, ih]
    · rw [if_neg he, ih]
      simp only [assocGet]
      rw [if_neg (fun h => he (by rw [h]; exact hr))]

theorem assocGet_filter_neg {α : Type} (t : Assoc α) (p : RegId → Bool) (r : RegId) (d : α) (hr : p r = false) : assocGet (t.filter (fun e => p e.1)) r d = d := by
  induction t with
  | nil => rfl
  | cons e t ih =>
    rw [List.filter_cons]
    by_cases he : p e.1 = true
    · rw [if_pos he]; simp only [assocGet]
      rw [if_neg (fun h => by rw [h, hr] at he; cases he), ih]
    · rw [if_neg he, ih]

theorem coldWipe_word (s : State) (q : RegId) : s.coldWipe.word q = if q.ofLamp then s.word q else q.resetWord s.fuses := by
  show assocGet (s.regs.filter (fun e => e.1.ofLamp)) q (q.resetWord s.fuses) = _
  split
  · rename_i h; exact assocGet_filter_pos _ RegId.ofLamp _ _ h
  · rename_i h; exact assocGet_filter_neg _ RegId.ofLamp _ _ (by simpa using h)

theorem abandon_regs (s : State) : s.abandonUpdate = { s with flash := s.abandonUpdate.flash, fw := s.abandonUpdate.fw } := by
  unfold State.abandonUpdate; split
  · rename_i slot x h; rfl
  · rfl

theorem framWord_trip (t : Assoc Word) (r : Nat) (d : Word) : assocGet ((t.filter (fun e => e.1.ofFram)).map framWord) (.LAMP_RULE_CTL r) d = d ∨
    ∃ w : Word, assocGet ((t.filter (fun e => e.1.ofFram)).map framWord) (.LAMP_RULE_CTL r) d = w &&& 0xFFFF := by
  induction t with
  | nil => exact .inl rfl
  | cons e t ih =>
    rw [List.filter_cons]
    split
    · rw [List.map_cons]
      simp only [assocGet]
      by_cases he : (framWord e).1 = .LAMP_RULE_CTL r
      · rw [if_pos he]
        right
        unfold framWord at he ⊢
        split
        · exact ⟨_, rfl⟩
        · rename_i hne
          split at he
          · rename_i hh; exact absurd hh (hne _)
          · exact absurd he (hne r)
      · rw [if_neg he]; exact ih
    · exact ih

theorem field_low16_32 (w : Word) : field (w &&& 0xFFFF).toNat 32 1 = 0 := by
  apply Nat.eq_of_testBit_eq
  intro i
  rw [testBit_field, BitVec.testBit_toNat, Nat.zero_testBit]
  by_cases hi : i < 1
  · have : i = 0 := by omega
    subst this
    rw [BitVec.getLsbD_and, show (0xFFFF : Word).getLsbD (32 + 0) = false from rfl]; simp
  · simp [hi]

theorem framBest_spec (l : Lamp) : (l.framA.ok = true → l.framB.ok = true → (l.framA.gen ≤ l.framB.gen → l.framBest = l.framB) ∧ (l.framB.gen < l.framA.gen → l.framBest = l.framA)) ∧
    (l.framA.ok = true → l.framB.ok = false → l.framBest = l.framA) ∧ (l.framA.ok = false → l.framB.ok = true → l.framBest = l.framB) ∧ (l.framA.ok = false → l.framB.ok = false → l.framBest = framNone) := by
  unfold Lamp.framBest
  refine ⟨fun h1 h2 => ⟨fun h => ?_, fun h => ?_⟩, fun h1 h2 => ?_, fun h1 h2 => ?_, fun h1 h2 => ?_⟩
  · rw [if_pos ⟨h1, h2⟩, if_pos h]
  · rw [if_pos ⟨h1, h2⟩, if_neg (by omega)]
  · rw [if_neg (by rw [h2]; simp), if_pos h1]
  · rw [if_neg (by rw [h1]; simp), if_neg (by rw [h1]; decide), if_pos h2]
  · rw [if_neg (by rw [h1]; simp), if_neg (by rw [h1]; decide), if_neg (by rw [h2]; decide)]

theorem agreedOf_spec (rs : List (Nat × Nat)) (hn : rs ≠ []) : ∃ v, (∀ r ∈ rs, v ≤ r.2) ∧ (∃ r ∈ rs, v = r.2) ∧ ((∀ r ∈ rs, r.1 ≤ v) → agreedOf rs = v) ∧ ((∃ r ∈ rs, v < r.1) → agreedOf rs = 0) := by
  cases rs with
  | nil => exact absurd rfl hn
  | cons r t =>
    obtain ⟨⟨m1, m2⟩, m3⟩ := foldl_min_le (t.map (fun x => x.2)) r.2
    refine ⟨(t.map (fun x => x.2)).foldl min r.2, fun x hx => ?_, ?_, fun h => ?_, fun ⟨x, hx, h⟩ => ?_⟩
    · rcases List.mem_cons.mp hx with rfl | hx
      · exact m1
      · exact m2 _ (List.mem_map_of_mem hx)
    · rcases m3 with m3 | m3
      · exact ⟨r, List.mem_cons_self, m3⟩
      · obtain ⟨x, hx, hx2⟩ := List.mem_map.mp m3; exact ⟨x, List.mem_cons_of_mem _ hx, hx2.symm⟩
    · unfold agreedOf; dsimp only; rw [if_pos]; rw [List.all_eq_true]; intro x hx; exact decide_eq_true (h x hx)
    · unfold agreedOf; dsimp only; rw [if_neg]
      intro ha
      have := of_decide_eq_true (List.all_eq_true.mp ha x hx)
      omega

/-- Outside a range that is forgotten or zeroed the raw bytes stand. -/
def RawSame (P : Nat → Prop) (s t : State) : Prop := ∀ y, P y → cellRead 0 t.mem y = cellRead 0 s.mem y ∧ undefAt t.undef y = undefAt s.undef y

theorem RawSame.trans {P : Nat → Prop} {s t u : State} (h : RawSame P s t) (g : RawSame P t u) : RawSame P s u :=
  fun y hy => ⟨(g y hy).1.trans (h y hy).1, (g y hy).2.trans (h y hy).2⟩

theorem RawSame.forget {P : Nat → Prop} {s t : State} (h : RawSame P s t) (p n : Nat) (hp : ∀ y, P y → y < p ∨ p + n ≤ y) : RawSame P s (t.forget p n) := by
  refine h.trans (fun y hy => ⟨?_, ?_⟩)
  · exact tabGet_filter t.mem (fun a => decide (a < p) || decide (p + n ≤ a)) _ _ (by simpa using hp y hy)
  · have := hp y hy
    simp only [State.forget]
    rw [undefAt_append, undefAt_undefCut _ _ (Nat.le_add_right _ _), if_neg (by omega)]
    cases undefAt t.undef y with
    | some m => rfl
    | none => dsimp only; simp only [undefAt]; rw [if_neg (by omega)]

theorem RawSame.zero {P : Nat → Prop} {s t : State} (h : RawSame P s t) (p n : Nat) (hp : ∀ y, P y → y < p ∨ p + n ≤ y) : RawSame P s (t.zeroRange p n) := by
  refine h.trans (fun y hy => ⟨?_, ?_⟩)
  · exact tabGet_filter t.mem (fun a => decide (a < p) || decide (p + n ≤ a)) _ _ (by simpa using hp y hy)
  · have := hp y hy
    simp only [State.zeroRange]
    rw [undefAt_undefCut _ _ (Nat.le_add_right _ _), if_neg (by omega)]

theorem RawSame.foldl {P : Nat → Prop} {s : State} (f : State → Nat → State) (l : List Nat) (hf : ∀ t d, RawSame P s t → RawSame P s (f t d)) : ∀ t, RawSame P s t → RawSame P s (l.foldl f t) := by
  induction l with
  | nil => exact fun t h => h
  | cons d l ih => exact fun t h => ih _ (hf t d h)

def Kept (y : Nat) : Prop := y < 0x010000000000 ∨ (y - 0x010000000000) % 0x100000000 < 0x80000000

theorem kept_outside (d o n : Nat) (h1 : 0x80000000 ≤ o) (h2 : o + n ≤ 0x100000000) (y : Nat) (hy : Kept y) : y < sramBase d + o ∨ sramBase d + o + n ≤ y := by
  unfold Kept at hy; unfold sramBase; omega

theorem forgetBuffers_same (s : State) : RawSame Kept s s.forgetBuffers := by
  unfold State.forgetBuffers
  refine RawSame.foldl _ _ (fun t d h => ?_) _ (fun _ _ => ⟨rfl, rfl⟩)
  dsimp only
  unfold stagingBuf
  refine RawSame.zero (RawSame.forget (RawSame.forget (RawSame.forget h _ _ ?_) _ _ ?_) _ _ ?_) _ _ ?_
  all_goals exact kept_outside d _ _ (by decide) (by decide)

theorem foldl_id {α : Type} (f : State → α → State) (l : List α) (s : State) (h : ∀ x ∈ l, f s x = s) : l.foldl f s = s := by
  induction l with
  | nil => rfl
  | cons x l ih => rw [List.foldl_cons, h x List.mem_cons_self]; exact ih (fun y hy => h y (List.mem_cons_of_mem _ hy))

theorem foldl_zero_rest (l : List Nat) : ∀ t : State, l.foldl (fun t d => t.zeroRange (shardTable d) 0x20000) t =
    { t with mem := (l.foldl (fun t d => t.zeroRange (shardTable d) 0x20000) t).mem, undef := (l.foldl (fun t d => t.zeroRange (shardTable d) 0x20000) t).undef } := by
  induction l with
  | nil => intro t; rfl
  | cons d l ih => intro t; rw [List.foldl_cons, ih]; rfl

theorem forgetBuffers_rest (s : State) : s.forgetBuffers = { s with mem := s.forgetBuffers.mem, undef := s.forgetBuffers.undef, fresh := s.forgetBuffers.fresh } := by
  unfold State.forgetBuffers
  generalize s.dieList = l
  induction l generalizing s with
  | nil => rfl
  | cons d l ih => rw [List.foldl_cons, ih]; rfl

/-- The warm state before the job is settled. -/
def warmCore (s : State) (job : Bool) (m : State) : State :=
  { s.coldWipe with
    mem := m.mem
    undef := m.undef
    fresh := m.fresh
    regs := s.regs.filter (fun e => e.1.ofLamp || e.1.warmKept job)
    cores := (s.cores.filter (fun e => decide (e.2.powering ≠ 0))).map (fun e => (e.1, { coreReset with powering := e.2.powering }))
    dies := (s.dies.filter (fun e => decide (e.2.badLines ≠ []) || (job && decide (e.2.mirrorLive ≠ [])))).map (fun e => (e.1, { dieReset with badLines := e.2.badLines, mirrorLive := if job then e.2.mirrorLive else [] }))
    regions := if job then s.regions else []
    job := if job then { s.job with takeover := false, held := [], standby := [], resume := false } else { jobReset with owner := s.job.owner }
    fw := { s.coldWipe.fw with versionsBefore := BitVec.ofNat 48 (s.rd MODULE_VERSIONS_V) } }

theorem warmCore_word (s : State) (job : Bool) (m : State) (q : RegId) : (warmCore s job m).word q = if q.ofLamp || q.warmKept job then s.word q else q.resetWord s.fuses := by
  show assocGet (s.regs.filter (fun e => e.1.ofLamp || e.1.warmKept job)) q (q.resetWord s.fuses) = _
  split
  · rename_i h; exact assocGet_filter_pos _ (fun r => r.ofLamp || r.warmKept job) _ _ h
  · rename_i h; exact assocGet_filter_neg _ (fun r => r.ofLamp || r.warmKept job) _ _ (by simpa using h)

theorem warmWipe_spec (s : State) : ∀ t, t = s.warmWipe →
      (∀ k (x : Core), (k, x) ∈ t.cores ↔ ∃ y, (k, y) ∈ s.cores ∧ y.powering ≠ 0 ∧ x = { coreReset with powering := y.powering }) ∧
      (∀ k (x : Die), (k, x) ∈ t.dies ↔ ∃ y, (k, y) ∈ s.dies ∧ (y.badLines ≠ [] ∨ (s.rd JOB_STATUS_STATE = 3 ∧ y.mirrorLive ≠ [])) ∧
        x = { dieReset with badLines := y.badLines, mirrorLive := if s.rd JOB_STATUS_STATE = 3 then y.mirrorLive else [] }) ∧
      t.items = [] ∧ t.chans = [] ∧ t.links = [] ∧ t.team = teamReset ∧ t.fw.mr = [] ∧ t.lamp = s.lamp ∧ t.flash = s.flash ∧ (∀ q, q.ofLamp = true → t.word q = s.word q) ∧
      t.rd MODULE_STATUS_OWNER_STATE = s.rd MODULE_STATUS_OWNER_STATE ∧ t.job.owner = s.job.owner ∧ t.rd JOB_STATUS_JOB_ID = s.rd JOB_STATUS_JOB_ID ∧
      (s.rd JOB_STATUS_STATE = 3 → t.regions = s.regions ∧ t.rd JOB_STATUS_STATE = 3 ∧ t.job = { s.job with takeover := false, held := [], standby := [], resume := false }) ∧
      (s.rd JOB_STATUS_STATE ≠ 3 → t.regions = [] ∧ t.rd JOB_STATUS_STATE = 0 ∧ t.job = { jobReset with owner := s.job.owner }) ∧
      (∀ q, q.ofLamp = false → q.warmKept (decide (s.rd JOB_STATUS_STATE = 3)) = false → q ≠ .MODULE_STATUS → t.word q = q.resetWord s.fuses) ∧
      ((∀ d, (s.die d).fenced = false) → ∀ y, y < 0x010000000000 ∨ (y - 0x010000000000) % 0x100000000 < 0x80000000 → cellRead 0 t.mem y = cellRead 0 s.mem y ∧ undefAt t.undef y = undefAt s.undef y) := by
  intro t ht
  obtain ⟨m, hm⟩ : ∃ m : State, m = (s.dieList.foldl (fun s d => s.loseDirty d) s).forgetBuffers := ⟨_, rfl⟩
  obtain ⟨job, hj⟩ : ∃ job, job = decide (s.rd JOB_STATUS_STATE = 3) := ⟨_, rfl⟩
  have ht2 : t = (if job then (warmCore s job m).wr MODULE_STATUS_OWNER_STATE (s.rd MODULE_STATUS_OWNER_STATE) else
      ((warmCore s job m).wr MODULE_STATUS_OWNER_STATE (s.rd MODULE_STATUS_OWNER_STATE)).dieList.foldl (fun t d => t.zeroRange (shardTable d) 0x20000) (((warmCore s job m).wr MODULE_STATUS_OWNER_STATE (s.rd MODULE_STATUS_OWNER_STATE)).wr JOB_STATUS_STATE 0)) := by
    rw [ht]; unfold State.warmWipe; dsimp only; rw [← hm, ← hj]; rfl
  obtain ⟨z, hz⟩ : ∃ z : State, z = (if job then (warmCore s job m).wr MODULE_STATUS_OWNER_STATE (s.rd MODULE_STATUS_OWNER_STATE) else
    ((warmCore s job m).wr MODULE_STATUS_OWNER_STATE (s.rd MODULE_STATUS_OWNER_STATE)).wr JOB_STATUS_STATE 0) := ⟨_, rfl⟩
  have hzr : z = { warmCore s job m with regs := z.regs } := by rw [hz]; cases job <;> rfl
  have htr : t = { z with mem := t.mem, undef := t.undef } := by
    rw [ht2, hz]
    cases job
    · exact foldl_zero_rest _ _
    · rfl
  have hw : ∀ q, t.word q = z.word q := fun q => by rw [htr]; rfl
  have hzw : ∀ q, q ≠ .MODULE_STATUS → q ≠ .JOB_STATUS → z.word q = (warmCore s job m).word q := by
    intro q h1 h2
    rw [hz]
    cases job
    · rw [if_neg (by decide), State.word_wr_ne _ _ (Ne.symm h2), State.word_wr_ne _ _ (Ne.symm h1)]
    · rw [if_pos rfl, State.word_wr_ne _ _ (Ne.symm h1)]
  have hown : t.rd MODULE_STATUS_OWNER_STATE = s.rd MODULE_STATUS_OWNER_STATE := by
    rw [State.rd_congr (f := MODULE_STATUS_OWNER_STATE) (hw .MODULE_STATUS), hz]
    have := State.rd_lt s MODULE_STATUS_OWNER_STATE
    cases job
    · rw [if_neg (by decide)]; rw [State.rd_wr_other _ _ _ _ fle (fun e => by first | exact .inl fle | exact .inr fle | cases e)]; rw [State.rd_wr_same _ _ _ fle]; exact Nat.mod_eq_of_lt this
    · rw [if_pos rfl, State.rd_wr_same _ _ _ fle]; exact Nat.mod_eq_of_lt this
  have hjid : t.rd JOB_STATUS_JOB_ID = s.rd JOB_STATUS_JOB_ID := by
    rw [State.rd_congr (f := JOB_STATUS_JOB_ID) (hw .JOB_STATUS), hz]
    have hc : (warmCore s job m).rd JOB_STATUS_JOB_ID = s.rd JOB_STATUS_JOB_ID := State.rd_congr (f := JOB_STATUS_JOB_ID) (by
      show (warmCore s job m).word .JOB_STATUS = _
      rw [warmCore_word]; cases job <;> rfl)
    cases job
    · rw [if_neg (by decide)]; rw [State.rd_wr_other _ _ _ _ fle (fun e => by first | exact .inl fle | exact .inr fle | cases e)]; rw [State.rd_wr_other _ _ _ _ fle (fun e => by first | exact .inl fle | exact .inr fle | cases e)]; exact hc
    · rw [if_pos rfl]; rw [State.rd_wr_other _ _ _ _ fle (fun e => by first | exact .inl fle | exact .inr fle | cases e)]; exact hc
  have hf : t = { warmCore s job m with regs := t.regs, mem := t.mem, undef := t.undef } := by
    rw [htr, hzr]
  have hcores : t.cores = (s.cores.filter (fun e => decide (e.2.powering ≠ 0))).map (fun e => (e.1, { coreReset with powering := e.2.powering })) := by rw [hf]; rfl
  have hdies : t.dies = (s.dies.filter (fun e => decide (e.2.badLines ≠ []) || (job && decide (e.2.mirrorLive ≠ [])))).map (fun e => (e.1, { dieReset with badLines := e.2.badLines, mirrorLive := if job then e.2.mirrorLive else [] })) := by rw [hf]; rfl
  refine ⟨fun k x => ?_, fun k x => ?_, by rw [hf]; rfl, by rw [hf]; rfl, by rw [hf]; rfl, by rw [hf]; rfl, by rw [hf]; rfl, by rw [hf]; rfl, by rw [hf]; rfl, fun q hq => ?_, hown, ?_, hjid, fun h => ?_, fun h => ?_, fun q h1 h2 h3 => ?_, fun hd y hy => ?_⟩
  · rw [hcores]
    simp only [List.mem_map, List.mem_filter, decide_eq_true_eq, Prod.mk.injEq]
    constructor
    · rintro ⟨⟨k', y⟩, ⟨h1, h2⟩, rfl, rfl⟩; exact ⟨y, h1, h2, rfl⟩
    · rintro ⟨y, h1, h2, rfl⟩; exact ⟨(k, y), ⟨h1, h2⟩, rfl, rfl⟩
  · rw [hdies, hj]
    simp only [List.mem_map, List.mem_filter, Bool.or_eq_true, Bool.and_eq_true, decide_eq_true_eq, Prod.mk.injEq]
    constructor
    · rintro ⟨⟨k', y⟩, ⟨h1, h2⟩, rfl, rfl⟩; exact ⟨y, h1, h2, rfl⟩
    · rintro ⟨y, h1, h2, rfl⟩; exact ⟨(k, y), ⟨h1, h2⟩, rfl, rfl⟩
  · rw [hw, hzw q (by rintro rfl; cases hq) (by rintro rfl; cases hq), warmCore_word, hq]; rfl
  · rw [hf]
    show (if job then _ else _ : Job).owner = _
    cases job <;> rfl
  · have hjt : job = true := by rw [hj]; exact decide_eq_true h
    subst hjt
    refine ⟨by rw [hf]; rfl, ?_, by rw [hf]; rfl⟩
    rw [State.rd_congr (f := JOB_STATUS_STATE) (hw .JOB_STATUS), hz, if_pos rfl]; rw [State.rd_wr_other _ _ _ _ fle (fun e => by first | exact .inl fle | exact .inr fle | cases e)]
    exact (State.rd_congr (f := JOB_STATUS_STATE) (by show (warmCore s true m).word .JOB_STATUS = _; rw [warmCore_word]; rfl)).trans h
  · have hjt : job = false := by rw [hj]; exact decide_eq_false h
    subst hjt
    refine ⟨by rw [hf]; rfl, ?_, by rw [hf]; rfl⟩
    rw [State.rd_congr (f := JOB_STATUS_STATE) (hw .JOB_STATUS), hz, if_neg (by decide)]
    exact State.rd_wr_same _ _ _ fle
  · rw [← hj] at h2
    rw [hw, hzw q h3 (by rintro rfl; cases h2), warmCore_word, h1, h2]; rfl
  · have hfold : s.dieList.foldl (fun s d => s.loseDirty d) s = s := by
      refine foldl_id (fun s d => s.loseDirty d) _ _ (fun d _ => ?_)
      unfold State.loseDirty; rw [if_pos (hd d)]
    have h1 : RawSame Kept s m := by rw [hm, hfold]; exact forgetBuffers_same s
    have h2 : RawSame Kept s t := by
      rw [ht2]
      cases job
      · rw [if_neg (by decide)]
        exact RawSame.foldl (fun t d => t.zeroRange (shardTable d) 0x20000) _ (fun t d h => RawSame.zero h _ _ (kept_outside d _ _ (by decide) (by decide))) _ h1
      · exact h1
    exact h2 y hy

def DiePort (s z : State) : Prop := z = { s with regs := z.regs, dies := z.dies, ports := z.ports }

theorem DiePort.die {s z : State} (h : DiePort s z) (d : Nat) (f : Die → Die) : DiePort s (z.modDie d f) := by
  unfold DiePort State.modDie
  generalize tabSet _ _ _ = R
  have h2 := congrArg (fun x : State => ({ x with dies := R } : State)) h
  exact h2

theorem DiePort.port {s z : State} (h : DiePort s z) (d p : Nat) (f : Port → Port) : DiePort s (z.modPort d p f) := by
  unfold DiePort State.modPort
  generalize tabSet _ _ _ = R
  have h2 := congrArg (fun x : State => ({ x with ports := R } : State)) h
  exact h2

theorem DiePort.wr {s z : State} (h : DiePort s z) (f : FRef) (v : Nat) : DiePort s (z.wr f v) := by
  unfold DiePort State.wr State.setWord
  generalize assocSet _ _ _ = R
  have h2 := congrArg (fun x : State => ({ x with regs := R } : State)) h
  exact h2

theorem foldl_die_spec (g : Nat → Die → Die) (hg : ∀ d y, g d (g d y) = g d y) (l : List Nat) : ∀ z : State,
    DiePort z (l.foldl (fun s d => s.modDie d (g d)) z) ∧ (∀ d, (l.foldl (fun s d => s.modDie d (g d)) z).die d = if d ∈ l then g d (z.die d) else z.die d) ∧
    (l.foldl (fun s d => s.modDie d (g d)) z).regs = z.regs := by
  induction l with
  | nil => intro z; exact ⟨rfl, fun d => rfl, rfl⟩
  | cons x l ih =>
    intro z
    rw [List.foldl_cons]
    obtain ⟨a, b, c⟩ := ih (z.modDie x (g x))
    refine ⟨?_, fun d => ?_, c⟩
    · have h1 : DiePort z (z.modDie x (g x)) := DiePort.die (show DiePort z z from rfl) _ _
      unfold DiePort at *; rw [a, h1]
    · rw [b]
      by_cases hx : d = x
      · subst hx
        rw [State.die_modDie_same, if_pos (List.mem_cons_self), hg]; split <;> rfl
      · rw [State.die_modDie_ne _ _ (Ne.symm hx)]
        by_cases hm : d ∈ l
        · rw [if_pos hm, if_pos (List.mem_cons_of_mem _ hm)]
        · rw [if_neg hm, if_neg (by intro h; rcases List.mem_cons.mp h with h | h; exact hx h; exact hm h)]

def PortsOnly (s z : State) : Prop := z = { s with ports := z.ports }

theorem PortsOnly.modPort {s z : State} (h : PortsOnly s z) (d p : Nat) (f : Port → Port) : PortsOnly s (z.modPort d p f) := by
  unfold PortsOnly State.modPort
  generalize tabSet _ _ _ = R
  have h2 := congrArg (fun x : State => ({ x with ports := R } : State)) h
  exact h2

theorem foldl_port_spec (s : State) (l : List Nat) : ∀ z, PortsOnly s z → PortsOnly s (l.foldl (fun s d => (List.range 3).foldl (fun s p =>
    match s.portPeer d p with
    | some e => if s.dieUp d ∧ s.dieUp e then s.modPort d p (fun x => { x with up := true }) else s
    | none => s) s) z) := by
  induction l with
  | nil => exact fun z h => h
  | cons d l ih =>
    intro z h
    refine ih _ ?_
    dsimp only
    generalize List.range 3 = ps
    induction ps generalizing z with
    | nil => exact h
    | cons p ps ih2 =>
      rw [List.foldl_cons]
      refine ih2 _ ?_
      split
      · split
        · exact h.modPort _ _ _
        · exact h
      · exact h

theorem bootDies_spec (s : State) (fail : List Nat) (last cause : Nat) (hl : last < 4) (hc : cause < 8) (s0 : State) (hs0 : s0 = (({ s with fw := { s.fw with mr := [] } } : State).wr MODULE_STATUS_LAST last).wr MODULE_STATUS_CAUSE cause) :
    ∃ u : State, u = (s0.bootDies fail).1 ∧ (s0.bootDies fail).2 = (u.dieUp 0 || u.dieUp 1) ∧ u.rd MODULE_STATUS_LAST = last ∧ u.rd MODULE_STATUS_CAUSE = cause ∧ u.rd MODULE_STATUS_STAGE = 3 ∧ u.fw = { s.fw with mr := [] } ∧
      (∀ d < s.fuses.dies, (u.die d).powered = true ∧ (u.die d).fenced = fail.contains d) ∧ (u.dieUp 0 = true → u.rd MODULE_LEAD_LEAD_DIE = 0) ∧ (u.dieUp 0 = false → u.dieUp 1 = true → u.rd MODULE_LEAD_LEAD_DIE = 1) := by
  obtain ⟨z, hz⟩ : ∃ z : State, z = s0.dieList.foldl (fun s d => s.modDie d (fun y => { y with powered := true, fenced := fail.contains d })) s0 := ⟨_, rfl⟩
  obtain ⟨a, b, c⟩ := foldl_die_spec (fun d y => { y with powered := true, fenced := fail.contains d }) (fun _ _ => rfl) s0.dieList s0
  rw [← hz] at a b c
  obtain ⟨w, hw⟩ : ∃ w : State, w = z.wr MODULE_STATUS_DIE_FAILED ((z.dieList.filter (fun d => fail.contains d)).map (fun d => 2 ^ d)).sum := ⟨_, rfl⟩
  obtain ⟨x, hx⟩ : ∃ x : State, x = w.dieList.foldl (fun s d => (List.range 3).foldl (fun s p =>
    match s.portPeer d p with
    | some e => if s.dieUp d ∧ s.dieUp e then s.modPort d p (fun x => { x with up := true }) else s
    | none => s) s) w := ⟨_, rfl⟩
  have hxw : PortsOnly w x := by rw [hx]; exact foldl_port_spec w _ w rfl
  obtain ⟨y, hy⟩ : ∃ y : State, y = x.wr MODULE_STATUS_STAGE 3 := ⟨_, rfl⟩
  have hbd : s0.bootDies fail = (if y.dieUp 0 then (y.wr MODULE_LEAD_LEAD_DIE 0, true) else if y.dieUp 1 then (y.wr MODULE_LEAD_LEAD_DIE 1, true) else (y, false)) := by
    rw [hy, hx, hw, hz]; rfl
  have hwd : DiePort s0 w := by rw [hw]; exact a.wr _ _
  have hxd : DiePort s0 x := by unfold DiePort PortsOnly at *; rw [hxw, hwd]
  have hyd : DiePort s0 y := by rw [hy]; exact hxd.wr _ _
  have hy0 : ∀ d, y.die d = z.die d := fun d => by
    have h1 : y.die d = x.die d := by rw [hy, State.die_wr]
    have h2 : x.die d = w.die d := by rw [show x = _ from hxw]; rfl
    rw [h1, h2, hw, State.die_wr]
  have hxr : ∀ f, x.rd f = w.rd f := fun f => by rw [show x = _ from hxw]; rfl
  have hzr : ∀ f, z.rd f = s0.rd f := fun f => by
    unfold State.rd State.word; rw [c, show z.fuses = s0.fuses by rw [show z = _ from a]]
  have hfu : s0.fuses = s.fuses := by rw [hs0]; rfl
  have e1 : y.rd MODULE_STATUS_LAST = last := by
    rw [hy]; rw [State.rd_wr_other _ _ _ _ fle (fun e => by first | exact .inl fle | exact .inr fle | cases e)]; rw [hxr, hw]; rw [State.rd_wr_other _ _ _ _ fle (fun e => by first | exact .inl fle | exact .inr fle | cases e)]; rw [hzr, hs0]; rw [State.rd_wr_other _ _ _ _ fle (fun e => by first | exact .inl fle | exact .inr fle | cases e)]; rw [State.rd_wr_same _ _ _ fle]; exact Nat.mod_eq_of_lt hl
  have e2 : y.rd MODULE_STATUS_CAUSE = cause := by
    rw [hy]; rw [State.rd_wr_other _ _ _ _ fle (fun e => by first | exact .inl fle | exact .inr fle | cases e)]; rw [hxr, hw]; rw [State.rd_wr_other _ _ _ _ fle (fun e => by first | exact .inl fle | exact .inr fle | cases e)]; rw [hzr, hs0, State.rd_wr_same _ _ _ fle]; exact Nat.mod_eq_of_lt hc
  have e3 : y.rd MODULE_STATUS_STAGE = 3 := by rw [hy]; exact State.rd_wr_same _ _ _ fle
  have e4 : y.fw = { s.fw with mr := [] } := by rw [show y = _ from hyd, hs0]; rfl
  have e5 : ∀ d < s.fuses.dies, (y.die d).powered = true ∧ (y.die d).fenced = fail.contains d := fun d hd => by
    rw [hy0, b, if_pos (by unfold State.dieList; rw [hfu]; exact List.mem_range.mpr hd)]
    exact ⟨rfl, rfl⟩
  have dl : ∀ v d, (y.wr MODULE_LEAD_LEAD_DIE v).dieUp d = y.dieUp d := fun _ _ => rfl
  refine ⟨_, rfl, ?_⟩
  rw [hbd]
  by_cases h0 : y.dieUp 0 = true
  · rw [if_pos h0]
    refine ⟨by dsimp only; rw [dl, dl, h0]; rfl, by rw [State.rd_wr_other _ _ _ _ fle (fun e => by first | exact .inl fle | exact .inr fle | cases e)]; exact e1, by rw [State.rd_wr_other _ _ _ _ fle (fun e => by first | exact .inl fle | exact .inr fle | cases e)]; exact e2, by rw [State.rd_wr_other _ _ _ _ fle (fun e => by first | exact .inl fle | exact .inr fle | cases e)]; exact e3, e4, e5, fun _ => State.rd_wr_same _ _ _ fle, (fun h => by rw [dl, h0] at h; cases h)⟩
  · rw [if_neg h0]
    have h0 : y.dieUp 0 = false := by simpa using h0
    by_cases h1 : y.dieUp 1 = true
    · rw [if_pos h1]
      refine ⟨by dsimp only; rw [dl, dl, h1]; simp, by rw [State.rd_wr_other _ _ _ _ fle (fun e => by first | exact .inl fle | exact .inr fle | cases e)]; exact e1, by rw [State.rd_wr_other _ _ _ _ fle (fun e => by first | exact .inl fle | exact .inr fle | cases e)]; exact e2, by rw [State.rd_wr_other _ _ _ _ fle (fun e => by first | exact .inl fle | exact .inr fle | cases e)]; exact e3, e4, e5, (fun h => by rw [dl, h0] at h; cases h), fun _ _ => State.rd_wr_same _ _ _ fle⟩
    · rw [if_neg h1]
      have h1 : y.dieUp 1 = false := by simpa using h1
      refine ⟨by dsimp only; rw [h0, h1]; rfl, e1, e2, e3, e4, e5, (fun h => by rw [h0] at h; cases h), (fun _ h => by rw [h1] at h; cases h)⟩

theorem auxPowerUp_spec (s : State) (slot : BitVec 4) (coach : Bool) (c : FramCopy) (hc : c = s.lamp.framBest) : ∃ u : State, u = s.lampStarts slot coach ∧ u.fuses = { s.fuses with slot := slot, coach := coach } ∧ u.rd MODULE_STATUS_STAGE = 1 ∧
      u.rd BYPASS_CLOSED = 1 ∧ u.rd LAMP_CAL_SECONDS = c.seconds % 2 ^ 48 ∧ u.lamp.counters = tabSet c.counters 3 (min (tabGet c.counters 3 0 + 1) (2 ^ 48 - 1)) ∧ u.lamp.auxIn = true ∧ u.lamp.mainOn = false ∧ u.mem = [] ∧ u.undef = [] ∧
      u.flash = s.abandonUpdate.flash ∧ u.lamp.history = s.lamp.history ∧ u.lamp.retire = s.lamp.retire ∧ ∀ r, u.rd (LAMP_RULE_CTL_TRIPPED r) = 0 := by
  obtain ⟨z, hz⟩ : ∃ z : State, z = ({ s with fuses := { s.fuses with slot := slot, coach := coach } } : State).abandonUpdate.coldWipe := ⟨_, rfl⟩
  obtain ⟨t, ht⟩ : ∃ t : State, t = { z with
    regs := (z.regs.filter (fun e => e.1.ofFram)).map framWord
    lamp := { lampReset with
      counters := c.counters
      hot := []
      history := s.lamp.history
      retire := s.lamp.retire
      framA := s.lamp.framA
      framB := s.lamp.framB
      savedTiming := s.lamp.savedTiming
      auxIn := true
      mainIn := s.lamp.mainIn } } := ⟨_, rfl⟩
  have hu : s.lampStarts slot coach = ((t.wr LAMP_CAL_SECONDS c.seconds).lampCount 3 1).wr MODULE_STATUS_STAGE 1 := by
    unfold State.lampStarts; dsimp only; rw [← hc, ← hz, ht]
  have hzf : z.fuses = { s.fuses with slot := slot, coach := coach } := by
    rw [hz]; show (State.abandonUpdate _).fuses = _; rw [abandon_regs]
  have hzfl : z.flash = s.abandonUpdate.flash := by
    rw [hz]; show (State.abandonUpdate _).flash = _
    unfold State.abandonUpdate
    show (match s.fw.update with
      | some (slot, _) => _
      | none => _ : State).flash = _
    cases s.fw.update with
    | none => rfl
    | some x => rfl
  refine ⟨_, rfl, ?_⟩
  rw [hu]
  have byp : t.rd BYPASS_CLOSED = 1 := by
    have : t.word .BYPASS = (RegId.BYPASS).resetWord t.fuses := by
      rw [ht]
      show assocGet ((z.regs.filter (fun e => e.1.ofFram)).map framWord) _ _ = _
      generalize z.regs = R
      generalize (RegId.resetWord _ RegId.BYPASS) = D
      induction R with
      | nil => rfl
      | cons e R ih =>
        rw [List.filter_cons]
        split
        · rename_i hf
          rw [List.map_cons]
          simp only [assocGet]
          rw [if_neg, ih]
          intro hb
          unfold framWord at hb
          split at hb
          · cases hb
          · rw [hb] at hf; cases hf
        · exact ih
    unfold State.rd
    rw [show (BYPASS_CLOSED).reg = .BYPASS from rfl, this]; rfl
  refine ⟨?_, State.rd_wr_same _ _ _ fle, ?_, ?_, ?_, ?_, ?_, ?_, ?_, ?_, ?_, ?_, fun r => ?_⟩
  · show t.fuses = _; rw [ht]; exact hzf
  · rw [State.rd_wr_other _ _ _ _ fle (fun e => by first | exact .inl fle | exact .inr fle | cases e)]; show (t.wr _ _).rd _ = _; rw [State.rd_wr_other _ _ _ _ fle (fun e => by first | exact .inl fle | exact .inr fle | cases e)]; exact byp
  · rw [State.rd_wr_other _ _ _ _ fle (fun e => by first | exact .inl fle | exact .inr fle | cases e)]; exact State.rd_wr_same t _ _ fle
  · show tabSet t.lamp.counters _ (min (tabGet t.lamp.counters 3 0 + 1) (2 ^ 48 - 1)) = _; rw [ht]
  · show t.lamp.auxIn = _; rw [ht]
  · show t.lamp.mainOn = _; rw [ht]; rfl
  · show t.mem = _; rw [ht, hz]; rfl
  · show t.undef = _; rw [ht, hz]; rfl
  · show t.flash = _; rw [ht]; exact hzfl
  · show t.lamp.history = _; rw [ht]
  · show t.lamp.retire = _; rw [ht]
  · rw [State.rd_wr_other _ _ _ _ fle (fun e => by first | exact .inl fle | exact .inr fle | cases e)]; show (t.wr _ _).rd _ = _; rw [State.rd_wr_other _ _ _ _ fle (fun e => by first | exact .inl fle | exact .inr fle | cases e)]
    unfold State.rd State.word
    rcases framWord_trip z.regs r (RegId.resetWord t.fuses (.LAMP_RULE_CTL r)) with h | ⟨w, h⟩
    · rw [show t.regs = (z.regs.filter (fun e => e.1.ofFram)).map framWord by rw [ht]]
      rw [show (LAMP_RULE_CTL_TRIPPED r).reg = .LAMP_RULE_CTL r from rfl, h]
      show field (BitVec.ofNat 64 (factoryCtl r)).toNat 32 1 = 0
      unfold factoryCtl
      repeat' split
      all_goals rfl
    · rw [show t.regs = (z.regs.filter (fun e => e.1.ofFram)).map framWord by rw [ht]]
      rw [show (LAMP_RULE_CTL_TRIPPED r).reg = .LAMP_RULE_CTL r from rfl, h]
      exact field_low16_32 w

theorem mainCan_spec (s : State) (env : BootEnv) : s.mainCan env = true ↔ env.lampOk = true ∧ env.mainOk = true ∧ (s.rd POLICY_AUTO_ON = 1 ∨ s.rd LAMP_PWR_REQ = 0) ∧ ∀ r < 128, s.rd (LAMP_RULE_CTL_TRIPPED r) = 1 → (s.rd (LAMP_RULE_CTL_ACT r)).testBit 3 = false := by
  unfold State.mainCan
  rw [Bool.and_eq_true, Bool.and_eq_true, Bool.and_eq_true, Bool.or_eq_true, List.all_eq_true]
  have h1 : s.flag POLICY_AUTO_ON = true ↔ s.rd POLICY_AUTO_ON = 1 := decide_eq_true_iff
  rw [h1, decide_eq_true_iff]
  have h2 : (∀ r ∈ List.range 128, (!(s.flag (LAMP_RULE_CTL_TRIPPED r) && decide (s.rd (LAMP_RULE_CTL_ACT r) / 8 % 2 = 1))) = true) ↔
      ∀ r < 128, s.rd (LAMP_RULE_CTL_TRIPPED r) = 1 → (s.rd (LAMP_RULE_CTL_ACT r)).testBit 3 = false := by
    have hb : ∀ n : Nat, n.testBit 3 = decide (n / 8 % 2 = 1) := fun n => by rw [Nat.testBit_eq_decide_div_mod_eq]
    constructor
    · intro h r hr ht
      have := h r (List.mem_range.mpr hr)
      rw [flag_one ht] at this
      rw [hb]; simpa using this
    · intro h r hr
      have := h r (List.mem_range.mp hr)
      by_cases ht : s.rd (LAMP_RULE_CTL_TRIPPED r) = 1
      · have := this ht
        rw [hb] at this; rw [this]; simp
      · rw [flag_not ht]; rfl
  rw [h2]
  simp only [and_assoc]

theorem mainOff_spec (s : State) : s.mainOff.rd LAMP_PWR_STATE = 3 ∧ s.mainOff.rd LAMP_PWR_BUSY = 0 ∧ s.mainOff.lamp.mainOn = false ∧ s.mainOff.mem = [] ∧ s.mainOff.dies = [] ∧ ∀ q, q.ofLamp = true → q ≠ .LAMP_PWR → s.mainOff.word q = s.word q := by
  refine ⟨?_, ?_, rfl, rfl, rfl, fun q h1 h2 => ?_⟩
  · show ((_ : State).wr LAMP_PWR_BUSY 0).rd _ = _
    rw [State.rd_wr_other _ _ _ _ fle (fun e => by first | exact .inl fle | exact .inr fle | cases e)]; exact State.rd_wr_same _ _ _ fle
  · show ((_ : State).wr LAMP_PWR_BUSY 0).rd _ = _
    exact State.rd_wr_same _ _ _ fle
  · show (((s.abandonUpdate.coldWipe).wr LAMP_PWR_STATE 3).wr LAMP_PWR_BUSY 0).word q = _
    rw [State.word_wr_ne _ _ (Ne.symm h2), State.word_wr_ne _ _ (Ne.symm h2), coldWipe_word, h1]
    rw [abandon_regs]; rfl

theorem bootSequence_spec (s : State) (env : BootEnv) : ∀ last cause, last < 4 → cause < 8 → ∃ u : State, u.rd MODULE_STATUS_LAST = last ∧ u.rd MODULE_STATUS_CAUSE = cause ∧ u.rd MODULE_STATUS_STAGE = 3 ∧ u.fw = { s.fw with mr := [] } ∧
      (∀ d < s.fuses.dies, (u.die d).powered = true ∧ (u.die d).fenced = env.dieFail.contains d) ∧ (u.dieUp 0 = true → u.rd MODULE_LEAD_LEAD_DIE = 0) ∧ (u.dieUp 0 = false → u.dieUp 1 = true → u.rd MODULE_LEAD_LEAD_DIE = 1) ∧
      (u.dieUp 0 = false → u.dieUp 1 = false → s.bootSequence last cause env = u) ∧
      (u.dieUp 0 = true ∨ u.dieUp 1 = true → ∀ v, v = u.measureRom.wr MODULE_STATUS_STAGE 4 →
        ((v.bootRom env.sigOkA env.sigOkB).2 = false → s.bootSequence last cause env = (v.bootRom env.sigOkA env.sigOkB).1.romRecovery) ∧
        ((v.bootRom env.sigOkA env.sigOkB).2 = true → ∃ w x y : State, w = (v.bootRom env.sigOkA env.sigOkB).1.agreeVersions env ∧ x = ((if w.sameVersions then w else w.dropJob).trainMemory env).trainLinks ∧
          s.bootSequence last cause env = { y with lamp := { x.lamp with savedTiming := true } } ∧ y = { x with regs := y.regs } ∧ (∀ r, r ≠ .MODULE_STATUS → y.word r = x.word r) ∧ y.rd MODULE_STATUS_STAGE = 8 ∧ y.rd MODULE_STATUS_BOOT_MS = min env.bootMs 65535 ∧
          (x.rd MODULE_STATUS_DIE_FAILED ≠ 0 → y.rd MODULE_STATUS_SERVICE = 1) ∧ (x.rd MODULE_STATUS_DIE_FAILED = 0 → y.rd MODULE_STATUS_SERVICE = x.rd MODULE_STATUS_SERVICE))) := by
  intro last cause hl hc
  obtain ⟨u, hu, h1, h2, h3, h4, h5, h6, h7, h8⟩ := bootDies_spec s env.dieFail last cause hl hc _ rfl
  have hb : s.bootSequence last cause env = (match (u, (u.dieUp 0 || u.dieUp 1)) with
    | (s, led) => if led = false then s
      else
        match (s.measureRom.wr MODULE_STATUS_STAGE 4).bootRom env.sigOkA env.sigOkB with
        | (s, runs) => if runs = false then s.romRecovery
          else
            let s := s.agreeVersions env
            let s := if s.sameVersions then s else s.dropJob
            let s := (s.trainMemory env).trainLinks
            let s := if s.rd MODULE_STATUS_DIE_FAILED ≠ 0 then s.wr MODULE_STATUS_SERVICE 1 else s
            let s := (s.wr MODULE_STATUS_STAGE 8).wr MODULE_STATUS_BOOT_MS (min env.bootMs 65535)
            { s with lamp := { s.lamp with savedTiming := true } }) := by
    rw [← h1, hu]; rfl
  refine ⟨u, h2, h3, h4, h5, h6, h7, h8, fun a b => ?_, fun a v hv => ⟨fun hr => ?_, fun hr => ?_⟩⟩
  · rw [hb, a, b]; rfl
  · rw [hb]; dsimp only
    rw [if_neg (by rcases a with a | a <;> rw [a] <;> simp), ← hv, hr]; rfl
  · obtain ⟨w, hw⟩ : ∃ w : State, w = (v.bootRom env.sigOkA env.sigOkB).1.agreeVersions env := ⟨_, rfl⟩
    obtain ⟨x, hx⟩ : ∃ x : State, x = ((if w.sameVersions then w else w.dropJob).trainMemory env).trainLinks := ⟨_, rfl⟩
    obtain ⟨y, hy⟩ : ∃ y : State, y = ((if x.rd MODULE_STATUS_DIE_FAILED ≠ 0 then x.wr MODULE_STATUS_SERVICE 1 else x).wr MODULE_STATUS_STAGE 8).wr MODULE_STATUS_BOOT_MS (min env.bootMs 65535) := ⟨_, rfl⟩
    have hyr : y = { x with regs := y.regs } := by rw [hy]; split <;> rfl
    refine ⟨w, x, y, hw, hx, ?_, hyr, fun r hr => ?_, ?_, ?_, fun h => ?_, fun h => ?_⟩
    · rw [hb]; dsimp only
      rw [if_neg (by rcases a with a | a <;> rw [a] <;> simp), ← hv, hr, if_neg (by decide), ← hw, ← hx, ← hy]
      have : y.lamp = x.lamp := by rw [hyr]
      rw [this]
    · rw [hy, State.word_wr_ne _ _ (Ne.symm hr), State.word_wr_ne _ _ (Ne.symm hr)]
      split
      · exact State.word_wr_ne _ _ (Ne.symm hr)
      · rfl
    · rw [hy]; rw [State.rd_wr_other _ _ _ _ fle (fun e => by first | exact .inl fle | exact .inr fle | cases e)]; exact State.rd_wr_same _ _ _ fle
    · rw [hy, State.rd_wr_same _ _ _ fle]; exact Nat.mod_eq_of_lt (by show _ < 65536; omega)
    · rw [hy]; rw [State.rd_wr_other _ _ _ _ fle (fun e => by first | exact .inl fle | exact .inr fle | cases e)]; rw [State.rd_wr_other _ _ _ _ fle (fun e => by first | exact .inl fle | exact .inr fle | cases e)]; rw [if_pos h]; exact State.rd_wr_same _ _ _ fle
    · rw [hy]; rw [State.rd_wr_other _ _ _ _ fle (fun e => by first | exact .inl fle | exact .inr fle | cases e)]; rw [State.rd_wr_other _ _ _ _ fle (fun e => by first | exact .inl fle | exact .inr fle | cases e)]; rw [if_neg (by simpa using h)]

theorem coldWipe_spec (s : State) : (s.coldWipe.mem = [] ∧ s.coldWipe.undef = [] ∧ s.coldWipe.cores = [] ∧ s.coldWipe.items = [] ∧ s.coldWipe.chans = [] ∧ s.coldWipe.dies = [] ∧ s.coldWipe.links = [] ∧ s.coldWipe.regions = [] ∧ s.coldWipe.job = jobReset ∧ s.coldWipe.team = teamReset ∧ s.coldWipe.fw.mr = [] ∧
      s.coldWipe.lamp = s.lamp ∧ s.coldWipe.flash = s.flash ∧ (∀ q, q.ofLamp = true → s.coldWipe.word q = s.word q) ∧ ∀ q, q.ofLamp = false → s.coldWipe.word q = q.resetWord s.fuses) := by
  refine ⟨rfl, rfl, rfl, rfl, rfl, rfl, rfl, rfl, rfl, rfl, rfl, rfl, rfl, fun q h => ?_, fun q h => ?_⟩
  · rw [coldWipe_word, h]; rfl
  · rw [coldWipe_word, h]; rfl

theorem bootRom_cases (s : State) (sigA sigB : Bool) : ∀ (x : State) slot trial cleared, (x, slot, trial, cleared) = s.chooseSlot →
      (x.imageFail (x.slotImage slot) (if slot = 0 then sigA else sigB) = none → s.bootRom sigA sigB = (x.startImage slot trial cleared, true)) ∧
      (∀ c y, x.imageFail (x.slotImage slot) (if slot = 0 then sigA else sigB) = some c → y = x.verifyFail slot c (x.slotImage slot) →
        (y.imageFail (y.slotImage (1 - slot)) (if 1 - slot = 0 then sigA else sigB) = none → s.bootRom sigA sigB = (y.startImage (1 - slot) false cleared, true)) ∧
        (y.imageFail (y.slotImage (1 - slot)) (if 1 - slot = 0 then sigA else sigB) ≠ none → (s.bootRom sigA sigB).2 = false)) := by
  intro x slot trial cleared h
  unfold State.bootRom
  rw [← h]
  dsimp only
  refine ⟨fun h1 => by rw [h1], fun c y h1 hy => ?_⟩
  rw [h1]
  dsimp only
  rw [← hy]
  refine ⟨fun h2 => by rw [h2], fun h2 => ?_⟩
  cases h3 : y.imageFail (y.slotImage (1 - slot)) (if 1 - slot = 0 then sigA else sigB) with
  | none => exact absurd h3 h2
  | some e => rfl

end Sys2Proof.Machine
end

