-- ==== Sys2Proof/Laws/Lamp.lean ====
section
/-! SUPPORT. Lemmas of samples, rules, power requests, FRAM and the event ring. -/

set_option linter.unusedSimpArgs false
set_option linter.unusedVariables false

namespace Sys2Proof.Machine

theorem insertInt_perm (x : Int) : ∀ l : List Int, (insertInt x l).Perm (x :: l) := by
  intro l
  induction l with
  | nil => exact List.Perm.refl _
  | cons y l ih =>
    unfold insertInt
    split
    · exact List.Perm.refl _
    · exact (ih.cons y).trans (List.Perm.swap x y l)

theorem insertInt_sorted (x : Int) : ∀ l : List Int, l.Pairwise (· ≤ ·) → (insertInt x l).Pairwise (· ≤ ·) := by
  intro l
  induction l with
  | nil => intro _; simp [insertInt]
  | cons y l ih =>
    intro h
    unfold insertInt
    rw [List.pairwise_cons] at h
    split
    · rename_i hx
      rw [List.pairwise_cons]
      refine ⟨fun z hz => ?_, List.pairwise_cons.mpr h⟩
      rcases List.mem_cons.mp hz with rfl | hz
      · exact hx
      · exact Int.le_trans hx (h.1 z hz)
    · rename_i hx
      rw [List.pairwise_cons]
      refine ⟨fun z hz => ?_, ih h.2⟩
      rcases List.mem_cons.mp ((insertInt_perm x l).mem_iff.mp hz) with rfl | hz
      · omega
      · exact h.1 z hz

theorem foldl_insertInt_spec (xs : List Int) : ∀ l : List Int, l.Pairwise (· ≤ ·) → (xs.foldl (fun l x => insertInt x l) l).Pairwise (· ≤ ·) ∧ (xs.foldl (fun l x => insertInt x l) l).Perm (xs ++ l) := by
  induction xs with
  | nil => exact fun l h => ⟨h, List.Perm.refl _⟩
  | cons x xs ih =>
    intro l h
    rw [List.foldl_cons]
    obtain ⟨a, b⟩ := ih _ (insertInt_sorted x l h)
    refine ⟨a, b.trans ?_⟩
    exact ((insertInt_perm x l).append_left xs).trans List.perm_middle

theorem sorted_lt (L : List Int) (h : L.Pairwise (· ≤ ·)) : ∀ (k : Nat) (m : Int), L[k]? = some m → (L.filter (fun x => decide (x < m))).length ≤ k ∧ (L.filter (fun x => decide (m < x))).length + k + 1 ≤ L.length := by
  induction L with
  | nil => intro k m h; cases h
  | cons y L ih =>
    intro k m hk
    rw [List.pairwise_cons] at h
    cases k with
    | zero =>
      rw [List.getElem?_cons_zero] at hk
      injection hk with hk
      subst hk
      refine ⟨?_, ?_⟩
      · have : (y :: L).filter (fun x => decide (x < y)) = [] := by
          rw [List.filter_eq_nil_iff]; intro x hx
          rcases List.mem_cons.mp hx with rfl | hx
          · simp
          · have := h.1 x hx; simpa using this
        rw [this]; simp
      · rw [List.filter_cons, if_neg (by simp), List.length_cons]
        have := List.length_filter_le (fun x => decide (y < x)) L
        omega
    | succ k =>
      rw [List.getElem?_cons_succ] at hk
      obtain ⟨a, b⟩ := ih h.2 k m hk
      have hy : y ≤ m := h.1 m (List.mem_of_getElem? hk)
      refine ⟨?_, ?_⟩
      · rw [List.filter_cons]; split
        · rw [List.length_cons]; omega
        · omega
      · rw [List.filter_cons, if_neg (by simpa using hy), List.length_cons]; omega

theorem median_spec : ∀ xs : List Int, xs ≠ [] → median xs ∈ xs ∧ 2 * (xs.filter (fun x => decide (x < median xs))).length ≤ xs.length ∧ 2 * (xs.filter (fun x => decide (median xs < x))).length ≤ xs.length := by
  intro xs hx
  obtain ⟨a, b⟩ := foldl_insertInt_spec xs [] List.Pairwise.nil
  rw [List.append_nil] at b
  obtain ⟨m, hm⟩ : ∃ m, (xs.foldl (fun l x => insertInt x l) [])[xs.length / 2]? = some m := by
    have : xs.length / 2 < (xs.foldl (fun l x => insertInt x l) []).length := by
      rw [b.length_eq]
      have := List.length_pos_iff.mpr hx
      omega
    exact ⟨_, List.getElem?_eq_getElem this⟩
  have hmed : median xs = m := by unfold median; rw [hm]; rfl
  obtain ⟨c, d⟩ := sorted_lt _ a _ _ hm
  rw [(b.filter _).length_eq] at c d
  rw [b.length_eq] at d
  rw [hmed]
  exact ⟨b.mem_iff.mp (List.mem_of_getElem? hm), by omega, by omega⟩

theorem dropSoft_spec (ws : List FifoWord) (h : ∃ x ∈ ws, x.soft = true) : ∃ a x b, ws = a ++ x :: b ∧ x.soft = true ∧ (∀ y ∈ a, y.soft = false) ∧ dropSoft ws = a ++ b := by
  induction ws with
  | nil => obtain ⟨x, hx, _⟩ := h; cases hx
  | cons w ws ih =>
    by_cases hw : w.soft = true
    · exact ⟨[], w, ws, rfl, hw, by simp, by unfold dropSoft; rw [if_pos hw]; rfl⟩
    · obtain ⟨x, hx, hs⟩ := h
      rcases List.mem_cons.mp hx with rfl | hx
      · exact absurd hs hw
      · obtain ⟨a, y, b, e1, e2, e3, e4⟩ := ih ⟨x, hx, hs⟩
        refine ⟨w :: a, y, b, by rw [e1]; rfl, e2, fun z hz => ?_, ?_⟩
        · rcases List.mem_cons.mp hz with rfl | hz
          · simpa using hw
          · exact e3 z hz
        · unfold dropSoft; rw [if_neg hw, e4]; rfl

theorem foldl_min_of_le (g : Nat → Nat) (rs : List Nat) : ∀ m, rs.foldl (fun m r => min m (g r)) m ≤ m ∧ (∀ r ∈ rs, rs.foldl (fun m r => min m (g r)) m ≤ g r) ∧ (rs.foldl (fun m r => min m (g r)) m = m ∨ ∃ r ∈ rs, rs.foldl (fun m r => min m (g r)) m = g r) := by
  induction rs with
  | nil => intro m; simp
  | cons x xs ih =>
    intro m
    rw [List.foldl_cons]
    obtain ⟨a, b, c⟩ := ih (min m (g x))
    refine ⟨by omega, fun r hr => ?_, ?_⟩
    · rcases List.mem_cons.mp hr with rfl | hr
      · omega
      · exact b r hr
    · rcases c with c | ⟨r, hr, c⟩
      · rcases Nat.le_total m (g x) with h | h
        · left; rw [c]; omega
        · right; exact ⟨x, List.mem_cons_self, by rw [c]; omega⟩
      · exact .inr ⟨r, List.mem_cons_of_mem _ hr, c⟩

theorem fifoWords_five (bs : List Byte) (h : bs.length = 136) : fifoWords 2 0xFF 25 true bs 5 = (List.range 5).map (fun i =>
        { data := padTo 32 ((bs.drop (32 * i)).take 32), tag := fifoTag (if i = 4 then 8 else 32) (decide (i = 0)) (decide (i = 4)) 2 0xFF 25 }) := by
  have h1 : ¬ bs.length ≤ 32 := by omega
  have h2 : ¬ (bs.drop 32).length ≤ 32 := by rw [List.length_drop]; omega
  have h3 : ¬ (bs.drop 64).length ≤ 32 := by rw [List.length_drop]; omega
  have h4 : ¬ (bs.drop 96).length ≤ 32 := by rw [List.length_drop]; omega
  have h5 : (bs.drop 128).length ≤ 32 := by rw [List.length_drop]; omega
  have l2 : (bs.drop 32).length = 104 := by rw [List.length_drop]; omega
  have l3 : (bs.drop 64).length = 72 := by rw [List.length_drop]; omega
  have l4 : (bs.drop 96).length = 40 := by rw [List.length_drop]; omega
  have l5 : (bs.drop 128).length = 8 := by rw [List.length_drop]; omega
  simp only [fifoWords, List.drop_drop, h, l2, l3, l4, l5, Nat.reduceAdd, Nat.reduceLeDiff, decide_true, decide_false, if_true, if_false, Bool.false_eq_true]
  rfl

theorem foldl_fifoPush_spec (d : Nat) (ws : List FifoWord) : ∀ s : State, (s.die d).fifo.length + ws.length ≤ 1024 → (s.die d).fifoWait = [] →
    (ws.foldl (fun s w => s.fifoPush d w) s).die d = { s.die d with fifo := (s.die d).fifo ++ ws } ∧ ws.foldl (fun s w => s.fifoPush d w) s = { s with dies := (ws.foldl (fun s w => s.fifoPush d w) s).dies } := by
  induction ws with
  | nil => intro s _ _; simp
  | cons w ws ih =>
    intro s h1 h2
    rw [List.length_cons] at h1
    have hp : (s.fifoPush d w).die d = { s.die d with fifo := (s.die d).fifo ++ [w] } := by
      unfold State.fifoPush; rw [State.die_modDie_same, if_pos ⟨by omega, h2⟩]
    obtain ⟨a, b⟩ := ih (s.fifoPush d w) (by rw [hp]; simp; omega) (by rw [hp]; exact h2)
    rw [List.foldl_cons]
    refine ⟨by rw [a, hp]; simp, ?_⟩
    rw [b]; rfl

theorem sampleCh_present (s : State) (xs : List Sample) (ch k n raw : Nat) (f : Filter) (hp : s.chPresent ch = true) (hk : k = max 1 (s.rd (LAMP_FILT_K ch))) (hn : n = max 1 (s.rd (LAMP_FILT_N ch)))
      (hr1 : ∀ x, xs.find? (fun x => decide (x.ch = ch)) = some x → raw = if x.fault then s.rd (LAMP_SENSE_RAW ch) else x.raw.toNat) (hr2 : xs.find? (fun x => decide (x.ch = ch)) = none → raw = s.rd (LAMP_SENSE_RAW ch))
      (hf1 : ∀ e, s.lamp.filters.find? (fun e => decide (e.1 = ch)) = some e → f = e.2.step (s.rd (LAMP_FILT_KIND ch)) k n (signed 16 raw))
      (hf2 : s.lamp.filters.find? (fun e => decide (e.1 = ch)) = none → f = filterInit (2 * s.rd (LAMP_FILT_W ch) + 3) (signed 16 raw)) : ∀ t, t = s.sampleCh xs ch →
      t.rd (LAMP_SENSE_RAW ch) = raw ∧ t.rd (LAMP_SENSE_FILT ch) = (f.y % 65536).toNat ∧ t.rd (LAMP_SENSE_PRESENT ch) = 1 ∧ t.lamp.filters = tabSet s.lamp.filters ch f ∧
      (∀ x, xs.find? (fun x => decide (x.ch = ch)) = some x → t.rd (LAMP_SENSE_FAULT ch) = if x.fault then 1 else 0) ∧
      (ch < 8 → 1120 < f.y → ch ∈ t.lamp.hot ∧ t.lamp.counters = s.lamp.counters) ∧
      (ch < 8 → f.y < 640 → ch ∈ s.lamp.hot → tabGet t.lamp.counters (8 + ch) 0 = min (tabGet s.lamp.counters (8 + ch) 0 + 1) (2 ^ 48 - 1)) ∧ ∀ r, r ≠ .LAMP_SENSE ch → t.word r = s.word r := by
  intro t ht
  obtain ⟨z, hz⟩ : ∃ z : State, z = (match xs.find? (fun x => decide (x.ch = ch)) with
      | some x => if x.fault then s.wr (LAMP_SENSE_FAULT ch) 1 else (s.wr (LAMP_SENSE_RAW ch) x.raw.toNat).wr (LAMP_SENSE_FAULT ch) 0
      | none => s) := ⟨_, rfl⟩
  have hzr : z = { s with regs := z.regs } := by
    rw [hz]; split
    · split <;> rfl
    · rfl
  have hzw : ∀ r, r ≠ .LAMP_SENSE ch → z.word r = s.word r := by
    intro r hr
    rw [hz]; split
    · split
      · exact State.word_wr_ne _ _ (Ne.symm hr)
      · rw [State.word_wr_ne _ _ (Ne.symm hr), State.word_wr_ne _ _ (Ne.symm hr)]
    · rfl
  have hzraw : z.rd (LAMP_SENSE_RAW ch) = raw := by
    rw [hz]
    cases hx : xs.find? (fun x => decide (x.ch = ch)) with
    | none => exact (hr2 hx).symm
    | some x =>
      dsimp only
      have h2 := hr1 x hx
      split
      · rename_i h; rw [if_pos h] at h2; rw [h2]; rw [State.rd_wr_other _ _ _ _ fle (fun e => by first | exact .inl fle | exact .inr fle | cases e)]
      · rename_i h; rw [if_neg h] at h2; rw [h2]; rw [State.rd_wr_other _ _ _ _ fle (fun e => by first | exact .inl fle | exact .inr fle | cases e)]; rw [State.rd_wr_same _ _ _ fle]; exact Nat.mod_eq_of_lt x.raw.isLt
  have hzfault : ∀ x, xs.find? (fun x => decide (x.ch = ch)) = some x → z.rd (LAMP_SENSE_FAULT ch) = if x.fault then 1 else 0 := by
    intro x hx
    rw [hz, hx]
    dsimp only
    split
    · exact State.rd_wr_same _ _ _ fle
    · exact State.rd_wr_same _ _ _ fle
  have hfilt : ∀ g : FRef, g.reg = .LAMP_FILT ch → z.rd g = s.rd g := fun g hg => State.rd_congr (by rw [hg]; exact hzw _ (by nofun))
  have hzl : z.lamp = s.lamp := by rw [hzr]
  have hff : f = (match z.lamp.filters.find? (fun e => decide (e.1 = ch)) with
      | some e => e.2.step (z.rd (LAMP_FILT_KIND ch)) (max 1 (z.rd (LAMP_FILT_K ch))) (max 1 (z.rd (LAMP_FILT_N ch))) (signed 16 (z.rd (LAMP_SENSE_RAW ch)))
      | none => filterInit (2 * z.rd (LAMP_FILT_W ch) + 3) (signed 16 (z.rd (LAMP_SENSE_RAW ch)))) := by
    rw [hzl, hzraw, hfilt _ rfl, hfilt _ rfl, hfilt _ rfl, hfilt _ rfl, ← hk, ← hn]
    cases hx : s.lamp.filters.find? (fun e => decide (e.1 = ch)) with
    | none => exact hf2 hx
    | some e => exact hf1 e hx
  obtain ⟨w, hw⟩ : ∃ w : State, w = (({ z with lamp := { z.lamp with filters := tabSet z.lamp.filters ch f } } : State).wr (LAMP_SENSE_FILT ch) (f.y % 65536).toNat).wr (LAMP_SENSE_PRESENT ch) 1 := ⟨_, rfl⟩
  have htw : t = w.thermal ch f.y := by
    rw [ht]; unfold State.sampleCh
    rw [if_neg (by rw [hp]; decide)]
    extract_lets z' x' W f' a u'
    have e1 : z' = z := hz.symm
    have e2 : f' = f := by rw [hff, ← e1] <;> rfl
    have e3 : u' = ({ z with lamp := { z.lamp with filters := tabSet z.lamp.filters ch f } } : State) := by rw [← e1, ← e2]
    rw [e3, e2, hw]
  have hwl : w.lamp = { s.lamp with filters := tabSet s.lamp.filters ch f } := by
    rw [hw]; show ({ z.lamp with filters := tabSet z.lamp.filters ch f } : Lamp) = _; rw [hzl]
  have hth : ∀ q, t.word q = w.word q := by
    intro q; rw [htw]; unfold State.thermal; repeat' split
    all_goals rfl
  have hthl : t.lamp.filters = w.lamp.filters := by
    rw [htw]; unfold State.thermal; repeat' split
    all_goals rfl
  have hb : (f.y % 65536).toNat < 65536 := by omega
  refine ⟨?_, ?_, ?_, ?_, fun x hx => ?_, fun h8 h => ?_, fun h8 h hm => ?_, fun r hr => ?_⟩
  · rw [State.rd_congr (f := LAMP_SENSE_RAW ch) (hth _), hw]; rw [State.rd_wr_other _ _ _ _ fle (fun e => by first | exact .inl fle | exact .inr fle | cases e)]; rw [State.rd_wr_other _ _ _ _ fle (fun e => by first | exact .inl fle | exact .inr fle | cases e)]; exact hzraw
  · rw [State.rd_congr (f := LAMP_SENSE_FILT ch) (hth _), hw]; rw [State.rd_wr_other _ _ _ _ fle (fun e => by first | exact .inl fle | exact .inr fle | cases e)]; rw [State.rd_wr_same _ _ _ fle]; exact Nat.mod_eq_of_lt hb
  · rw [State.rd_congr (f := LAMP_SENSE_PRESENT ch) (hth _), hw]; exact State.rd_wr_same _ _ _ fle
  · rw [hthl, hwl]
  · rw [State.rd_congr (f := LAMP_SENSE_FAULT ch) (hth _), hw]; rw [State.rd_wr_other _ _ _ _ fle (fun e => by first | exact .inl fle | exact .inr fle | cases e)]; rw [State.rd_wr_other _ _ _ _ fle (fun e => by first | exact .inl fle | exact .inr fle | cases e)]; exact hzfault x hx
  · have : t = { w with lamp := { w.lamp with hot := insertAsc ch w.lamp.hot } } := by
      rw [htw]; unfold State.thermal; rw [if_neg (by omega), if_pos h]
    rw [this]
    refine ⟨(mem_insertAsc ch _ ch).mpr (.inl rfl), ?_⟩
    show w.lamp.counters = _
    rw [hwl]
  · have : t = { w.lampCount (8 + ch) 1 with lamp := { (w.lampCount (8 + ch) 1).lamp with hot := (w.lampCount (8 + ch) 1).lamp.hot.erase ch } } := by
      rw [htw]; unfold State.thermal; rw [if_neg (by omega), if_neg (by omega), if_pos ⟨h, by rw [hwl]; simpa using hm⟩]
    rw [this]
    show tabGet (tabSet w.lamp.counters (8 + ch) (min (tabGet w.lamp.counters (8 + ch) 0 + 1) (2 ^ 48 - 1))) _ _ = _
    rw [tabGet_tabSet_same, hwl]
  · rw [hth, hw, State.word_wr_ne _ _ (Ne.symm hr), State.word_wr_ne _ _ (Ne.symm hr)]; exact hzw r hr

theorem ruleStep_spec (s : State) (r ch : Nat) (y th h : Int) (dw : Nat) (hch : ch = s.rd (LAMP_RULE_CH r)) (hy : y = signed 16 (s.rd (LAMP_SENSE_FILT ch))) (hth : th = signed 16 (s.rd (LAMP_RULE_THRESH r))) (hh : h = (s.rd (LAMP_RULE_HYST r) : Int)) (hdw : dw = max 1 (s.rd (LAMP_RULE_DWELL r))) :
      (s.rd (LAMP_RULE_CTL_EN r) = 0 ∨ s.rd (LAMP_SENSE_PRESENT ch) = 0 → s.ruleStep r = (s, .stay)) ∧
      (∀ on : Prop, s.rd (LAMP_RULE_CTL_EN r) = 1 → s.rd (LAMP_SENSE_PRESENT ch) = 1 →
        (s.rd (LAMP_RULE_CTL_TRIPPED r) = 0 → s.rd (LAMP_RULE_DIR r) = 0 → (on ↔ th < y)) → (s.rd (LAMP_RULE_CTL_TRIPPED r) = 0 → s.rd (LAMP_RULE_DIR r) = 1 → (on ↔ y < th)) →
        (s.rd (LAMP_RULE_CTL_TRIPPED r) = 1 → s.rd (LAMP_RULE_DIR r) = 0 → (on ↔ y ≤ th - h)) → (s.rd (LAMP_RULE_CTL_TRIPPED r) = 1 → s.rd (LAMP_RULE_DIR r) = 1 → (on ↔ th + h ≤ y)) →
        ∀ (u : State) v, u = { s with lamp := { s.lamp with ruleRun := tabSet s.lamp.ruleRun r v } } →
          (¬ on → v = 0 → s.ruleStep r = (u, .stay)) ∧ (on → tabGet s.lamp.ruleRun r 0 + 1 < dw → v = tabGet s.lamp.ruleRun r 0 + 1 → s.ruleStep r = (u, .stay)) ∧
          (on → dw ≤ tabGet s.lamp.ruleRun r 0 + 1 → v = 0 →
            (s.rd (LAMP_RULE_CTL_TRIPPED r) = 1 → s.ruleStep r = (u.wr (LAMP_RULE_CTL_TRIPPED r) 0, .release)) ∧
            (s.rd (LAMP_RULE_CTL_TRIPPED r) = 0 → ∃ t : State, s.ruleStep r = (t, .trip) ∧ t.rd (LAMP_RULE_CTL_TRIPPED r) = 1 ∧ t.rd (LAMP_RULE_CTL_TRIPS r) = min (s.rd (LAMP_RULE_CTL_TRIPS r) + 1) 65535 ∧
              t = { u with regs := t.regs } ∧ ∀ q, q ≠ .LAMP_RULE_CTL r → t.word q = s.word q))) := by
  have bit : ∀ f : FRef, f.width = 1 → s.rd f = 0 ∨ s.rd f = 1 := fun f hf => by have := State.rd_lt s f; rw [hf] at this; omega
  refine ⟨fun h0 => ?_, fun on h1 h2 c1 c2 c3 c4 u v hu => ?_⟩
  · unfold State.ruleStep
    dsimp only
    rw [← hch, if_pos]
    rcases h0 with h0 | h0
    · exact .inl (flag_not (by omega))
    · exact .inr (flag_not (by omega))
  · obtain ⟨ob, hob⟩ : ∃ ob : Bool, ob = (if s.flag (LAMP_RULE_CTL_TRIPPED r) then (if s.flag (LAMP_RULE_DIR r) then decide (th + h ≤ y) else decide (y ≤ th - h)) else (if s.flag (LAMP_RULE_DIR r) then decide (y < th) else decide (th < y))) := ⟨_, rfl⟩
    have hon : on ↔ ob = true := by
      rcases bit (LAMP_RULE_CTL_TRIPPED r) rfl with t0 | t0 <;> rcases bit (LAMP_RULE_DIR r) rfl with d0 | d0
      · rw [hob, flag_not (by omega), flag_not (by omega)]; simpa using c1 t0 d0
      · rw [hob, flag_not (by omega), flag_one d0]; simpa using c2 t0 d0
      · rw [hob, flag_one t0, flag_not (by omega)]; simpa using c3 t0 d0
      · rw [hob, flag_one t0, flag_one d0]; simpa using c4 t0 d0
    have hst : s.ruleStep r = (if decide (dw ≤ (if ob then tabGet s.lamp.ruleRun r 0 + 1 else 0)) = false then
        (({ s with lamp := { s.lamp with ruleRun := tabSet s.lamp.ruleRun r (if decide (dw ≤ (if ob then tabGet s.lamp.ruleRun r 0 + 1 else 0)) then 0 else (if ob then tabGet s.lamp.ruleRun r 0 + 1 else 0)) } } : State), RuleMove.stay)
      else if s.flag (LAMP_RULE_CTL_TRIPPED r) then (({ s with lamp := { s.lamp with ruleRun := tabSet s.lamp.ruleRun r (if decide (dw ≤ (if ob then tabGet s.lamp.ruleRun r 0 + 1 else 0)) then 0 else (if ob then tabGet s.lamp.ruleRun r 0 + 1 else 0)) } } : State).wr (LAMP_RULE_CTL_TRIPPED r) 0, .release)
      else ((({ s with lamp := { s.lamp with ruleRun := tabSet s.lamp.ruleRun r (if decide (dw ≤ (if ob then tabGet s.lamp.ruleRun r 0 + 1 else 0)) then 0 else (if ob then tabGet s.lamp.ruleRun r 0 + 1 else 0)) } } : State).wr (LAMP_RULE_CTL_TRIPPED r) 1).count (LAMP_RULE_CTL_TRIPS r) 1, .trip)) := by
      unfold State.ruleStep
      dsimp only
      rw [← hch, if_neg (by rw [flag_one h1, flag_one h2]; decide), ← hy, ← hth, ← hh, ← hdw, ← hob]
    refine ⟨fun ho hv => ?_, fun ho hl hv => ?_, fun ho hl hv => ?_⟩
    · have hb : ob = false := by cases ob; rfl; exact absurd (hon.mpr rfl) ho
      rw [hst, hb, if_pos (by simp; omega), hu, hv]
      simp
    · have hb : ob = true := hon.mp ho
      rw [hst, hb, if_pos (by simp; omega), hu, hv]
      have : ¬ dw ≤ tabGet s.lamp.ruleRun r 0 + 1 := by omega
      simp [this]
    · have hb : ob = true := hon.mp ho
      rw [hst, hb, if_neg (by simp; omega)]
      simp only [hl, decide_true, if_true]
      rw [← hv, ← hu]
      refine ⟨fun ht => by rw [flag_one ht]; rfl, fun ht => ?_⟩
      refine ⟨(u.wr (LAMP_RULE_CTL_TRIPPED r) 1).count (LAMP_RULE_CTL_TRIPS r) 1, by rw [flag_not (by omega)]; rfl, ?_, ?_, rfl, fun q hq => ?_⟩
      · unfold State.count; rw [State.rd_wr_other _ _ _ _ fle (fun e => by first | exact .inl fle | exact .inr fle | cases e)]; exact State.rd_wr_same _ _ _ fle
      · rw [State.rd_count_same _ _ _ fle]
        have : (u.wr (LAMP_RULE_CTL_TRIPPED r) 1).rd (LAMP_RULE_CTL_TRIPS r) = s.rd (LAMP_RULE_CTL_TRIPS r) := by rw [State.rd_wr_other _ _ _ _ fle (fun e => by first | exact .inl fle | exact .inr fle | cases e)]; rw [hu]; rfl
        rw [this]; rfl
      · rw [State.word_count_ne (f := LAMP_RULE_CTL_TRIPS r) _ 1 (Ne.symm hq), State.word_wr_ne (f := LAMP_RULE_CTL_TRIPPED r) _ _ (Ne.symm hq), hu]; rfl

theorem actAll_wake (s : State) (trips rels : List Nat) : (s.actAll trips rels).2 = (decide (trips.filter (fun r => s.ruleActs r 0) ≠ []) && decide (trips.filter (fun r => s.ruleActs r 3) = [])) := rfl

theorem powerRequest_spec (s : State) (wake : Bool) (st : Nat) (hs : st = s.rd LAMP_PWR_STATE) : (s.lamp.request = none → s.powerRequest wake = s) ∧ ∀ q u, s.lamp.request = some q → u = ({ s with lamp := { s.lamp with request := none } } : State) →
      (q = 3 → st ≠ 3 → s.powerRequest wake = u.startPower 3) ∧ (q = st → q = 3 ∨ q = 0 → s.powerRequest wake = u) ∧
      (q = 0 → st ≠ 0 → s.shutTripped = false → s.powerRequest wake = u.startPower 0) ∧ (q = 0 → st ≠ 0 → s.shutTripped = true → s.powerRequest wake = (u.wr LAMP_PWR_REFUSED 1).powerEvent st q 3) ∧
      (q = 1 ∨ q = 2 → wake = true ∨ s.rd JOB_STATUS_STATE ≠ 0 ∨ st = 3 ∨ (q = 1 ∧ st = 2) → s.powerRequest wake = (u.wr LAMP_PWR_REFUSED 1).powerEvent st q 3) ∧
      (q = 1 ∨ q = 2 → wake = false → s.rd JOB_STATUS_STATE = 0 → st ≠ 3 → ¬ (q = 1 ∧ st = 2) → st ≠ q → s.powerRequest wake = u.startPower q) := by
  refine ⟨fun h => ?_, fun q u h hu => ?_⟩
  · unfold State.powerRequest; rw [h]
  · have hx : s.powerRequest wake = (if q = 3 then (if st = 3 then u else u.startPower 3)
      else if q = 0 then (if st = 0 then u else if s.shutTripped then (u.wr LAMP_PWR_REFUSED 1).powerEvent st q 3 else u.startPower 0)
      else if wake ∨ s.rd JOB_STATUS_STATE ≠ 0 ∨ st = 3 ∨ (q = 1 ∧ st = 2) then (u.wr LAMP_PWR_REFUSED 1).powerEvent st q 3
      else if st = q then u
      else u.startPower q) := by
      unfold State.powerRequest
      rw [h]
      dsimp -zeta only
      extract_lets st' a u' no'
      have e1 : st' = st := hs.symm
      have e2 : u' = u := hu.symm
      have e3 : no' = (u'.wr LAMP_PWR_REFUSED 1).powerEvent st' q 3 := rfl
      have e4 : u'.shutTripped = s.shutTripped := rfl
      have e5 : u'.rd JOB_STATUS_STATE = s.rd JOB_STATUS_STATE := rfl
      rw [e4, e5]
      clear_value no' u' st'
      rw [e3, e2, e1]
    refine ⟨fun a b => ?_, fun a b => ?_, fun a b c => ?_, fun a b c => ?_, fun a b => ?_, fun a b c e f g => ?_⟩
    · rw [hx, if_pos a, if_neg b]
    · rcases b with b | b
      · rw [hx, if_pos b, if_pos (by omega)]
      · rw [hx, if_neg (by omega), if_pos b, if_pos (by omega)]
    · rw [hx, if_neg (by omega), if_pos a, if_neg b, if_neg (by rw [c]; decide)]
    · rw [hx, if_neg (by omega), if_pos a, if_neg b, if_pos c]
    · rw [hx, if_neg (by omega), if_neg (by omega), if_pos b]
    · rw [hx, if_neg (by omega), if_neg (by omega), if_neg (by rw [b, c]; rintro (h | h | h | h); cases h; exact h rfl; exact e h; exact f h), if_neg g]

theorem framSave_spec (s : State) (secs : Nat) : s.lamp.auxIn = true → ∃ t : State, exec (.framSave secs) s = .next t ∧ t.rd LAMP_CAL_SECONDS = (s.rd LAMP_CAL_SECONDS + secs) % 2 ^ 48 ∧ t = { s with regs := t.regs, lamp := t.lamp } ∧
      (∀ r, r ≠ .LAMP_CAL → t.word r = s.word r) ∧ tabGet t.lamp.counters 0 0 = (if s.lamp.mainOn then min (tabGet s.lamp.counters 0 0 + secs) (2 ^ 48 - 1) else tabGet s.lamp.counters 0 0) ∧
      tabGet t.lamp.counters 1 0 = (if s.lamp.mainOn ∧ s.rd LAMP_PWR_STATE = 0 then min (tabGet s.lamp.counters 1 0 + secs) (2 ^ 48 - 1) else tabGet s.lamp.counters 1 0) ∧
      tabGet t.lamp.counters 2 0 = min (tabGet s.lamp.counters 2 0 + secs * (signed 16 (s.rd (LAMP_SENSE_FILT 34))).toNat) (2 ^ 48 - 1) ∧
      (∀ c, 3 ≤ c → tabGet t.lamp.counters c 0 = tabGet s.lamp.counters c 0) ∧
      (s.lamp.framA.gen ≤ s.lamp.framB.gen → t.lamp.framB = s.lamp.framB ∧ t.lamp.framA = { gen := s.lamp.framB.gen + 1, ok := true, counters := t.lamp.counters, seconds := t.rd LAMP_CAL_SECONDS }) ∧
      (s.lamp.framB.gen < s.lamp.framA.gen → t.lamp.framA = s.lamp.framA ∧ t.lamp.framB = { gen := s.lamp.framA.gen + 1, ok := true, counters := t.lamp.counters, seconds := t.rd LAMP_CAL_SECONDS }) := by
  intro h
  obtain ⟨a, ha⟩ : ∃ a : State, a = s.wr LAMP_CAL_SECONDS (s.rd LAMP_CAL_SECONDS + secs) := ⟨_, rfl⟩
  obtain ⟨b, hb⟩ : ∃ b : State, b = (if a.lamp.mainOn then a.lampCount 0 secs else a) := ⟨_, rfl⟩
  obtain ⟨c, hc⟩ : ∃ c : State, c = (if b.lamp.mainOn ∧ b.rd LAMP_PWR_STATE = 0 then b.lampCount 1 secs else b) := ⟨_, rfl⟩
  obtain ⟨e, he⟩ : ∃ e : State, e = c.lampCount 2 (secs * (signed 16 (c.rd (LAMP_SENSE_FILT 34))).toNat) := ⟨_, rfl⟩
  have hx : exec (.framSave secs) s = .next { e with lamp := e.lamp.save (e.rd LAMP_CAL_SECONDS) } := by
    show execFramSave secs s = _
    unfold execFramSave
    rw [if_neg (by rw [h]; decide), he, hc, hb, ha]
  have r1 : a = { s with regs := a.regs } := by rw [ha]; rfl
  have r2 : b = { a with lamp := { a.lamp with counters := b.lamp.counters } } := by rw [hb]; split <;> rfl
  have r3 : c = { b with lamp := { b.lamp with counters := c.lamp.counters } } := by rw [hc]; split <;> rfl
  have r4 : e = { c with lamp := { c.lamp with counters := e.lamp.counters } } := by rw [he]; rfl
  have r5 : e = { s with regs := a.regs, lamp := { s.lamp with counters := e.lamp.counters } } := by rw [r4, r3, r2, r1]
  have w0 : ∀ r, e.word r = a.word r := fun r => by rw [r5, r1]; rfl
  have al : a.lamp = s.lamp := by rw [r1]
  have bm : b.lamp.mainOn = s.lamp.mainOn := by rw [r2, al]
  have bp : b.rd LAMP_PWR_STATE = s.rd LAMP_PWR_STATE := by rw [show b.rd LAMP_PWR_STATE = a.rd LAMP_PWR_STATE by rw [r2]; rfl, ha]; rw [State.rd_wr_other _ _ _ _ fle (fun e => by first | exact .inl fle | exact .inr fle | cases e)]
  have cf : c.rd (LAMP_SENSE_FILT 34) = s.rd (LAMP_SENSE_FILT 34) := by rw [show c.rd (LAMP_SENSE_FILT 34) = a.rd (LAMP_SENSE_FILT 34) by rw [r3, r2]; rfl, ha]; rw [State.rd_wr_other _ _ _ _ fle (fun e => by first | exact .inl fle | exact .inr fle | cases e)]
  have tb : ∀ i, tabGet b.lamp.counters i 0 = if i = 0 ∧ s.lamp.mainOn = true then min (tabGet s.lamp.counters 0 0 + secs) (2 ^ 48 - 1) else tabGet s.lamp.counters i 0 := by
    intro i
    rw [hb, al]
    by_cases hm : s.lamp.mainOn = true
    · rw [if_pos hm]
      show tabGet (tabSet a.lamp.counters 0 (min (tabGet a.lamp.counters 0 0 + secs) (2 ^ 48 - 1))) i 0 = _
      rw [al]
      by_cases hi : i = 0
      · subst hi; rw [tabGet_tabSet_same, if_pos ⟨rfl, hm⟩]
      · rw [tabGet_tabSet_ne _ _ _ (Ne.symm hi), if_neg (fun x => hi x.1)]
    · rw [if_neg hm, al, if_neg (fun x => hm x.2)]
  have tc : ∀ i, tabGet c.lamp.counters i 0 = if i = 1 ∧ s.lamp.mainOn = true ∧ s.rd LAMP_PWR_STATE = 0 then min (tabGet s.lamp.counters 1 0 + secs) (2 ^ 48 - 1) else tabGet b.lamp.counters i 0 := by
    intro i
    rw [hc, bm, bp]
    by_cases hm : s.lamp.mainOn = true ∧ s.rd LAMP_PWR_STATE = 0
    · rw [if_pos hm]
      show tabGet (tabSet b.lamp.counters 1 (min (tabGet b.lamp.counters 1 0 + secs) (2 ^ 48 - 1))) i 0 = _
      by_cases hi : i = 1
      · subst hi; rw [tabGet_tabSet_same, if_pos ⟨rfl, hm⟩, tb, if_neg (by simp)]
      · rw [tabGet_tabSet_ne _ _ _ (Ne.symm hi), if_neg (fun x => hi x.1)]
    · rw [if_neg hm, if_neg (fun x => hm x.2)]
  have te : ∀ i, tabGet e.lamp.counters i 0 = if i = 2 then min (tabGet s.lamp.counters 2 0 + secs * (signed 16 (s.rd (LAMP_SENSE_FILT 34))).toNat) (2 ^ 48 - 1) else tabGet c.lamp.counters i 0 := by
    intro i
    rw [he, cf]
    show tabGet (tabSet c.lamp.counters 2 (min (tabGet c.lamp.counters 2 0 + _) (2 ^ 48 - 1))) i 0 = _
    by_cases hi : i = 2
    · subst hi; rw [tabGet_tabSet_same, if_pos rfl, tc, if_neg (by simp), tb, if_neg (by simp)]
    · rw [tabGet_tabSet_ne _ _ _ (Ne.symm hi), if_neg hi]
  have hsc : ∀ n, (e.lamp.save n).counters = e.lamp.counters := fun n => by unfold Lamp.save; split <;> rfl
  have ga : e.lamp.framA = s.lamp.framA := by rw [r5]
  have gb : e.lamp.framB = s.lamp.framB := by rw [r5]
  refine ⟨_, hx, ?_, ?_, fun r hr => ?_, ?_, ?_, ?_, fun i hi => ?_, fun hg => ?_, fun hg => ?_⟩
  · show e.rd LAMP_CAL_SECONDS = _
    rw [State.rd_congr (f := LAMP_CAL_SECONDS) (show e.word .LAMP_CAL = a.word .LAMP_CAL from w0 _), ha]; exact State.rd_wr_same s LAMP_CAL_SECONDS _ fle
  · rw [r5]
  · show e.word r = _; rw [w0, ha]; exact State.word_wr_ne _ _ (Ne.symm hr)
  · show tabGet (e.lamp.save _).counters _ _ = _
    rw [hsc, te, if_neg (by decide), tc, if_neg (by simp), tb]; simp
  · show tabGet (e.lamp.save _).counters _ _ = _
    rw [hsc, te, if_neg (by decide), tc, tb]; simp
  · show tabGet (e.lamp.save _).counters _ _ = _
    rw [hsc, te, if_pos rfl]
  · show tabGet (e.lamp.save _).counters _ _ = _
    rw [hsc, te, if_neg (by omega), tc, if_neg (by omega), tb, if_neg (by omega)]
  · show (e.lamp.save _).framB = _ ∧ (e.lamp.save _).framA = { gen := _, ok := true, counters := (e.lamp.save _).counters, seconds := _ }
    unfold Lamp.save; rw [ga, gb, if_pos hg]; exact ⟨rfl, rfl⟩
  · show (e.lamp.save _).framA = _ ∧ (e.lamp.save _).framB = { gen := _, ok := true, counters := (e.lamp.save _).counters, seconds := _ }
    unfold Lamp.save; rw [ga, gb, if_neg (by omega)]; exact ⟨rfl, rfl⟩

end Sys2Proof.Machine
end

