-- ==== Sys2Proof/Laws/Words.lean ====
section
/-! SUPPORT. The fields of an instruction word are read where they are written (R101 to R106), and the words of an instruction of each class decode
by that class's table (R102). -/

namespace Sys2Proof.Laws

open BitVec

/-- A field that lies in the low part of a concatenation is a field of that part. -/
theorem field_low {w v : Nat} (x : BitVec w) (y : BitVec v) (i n : Nat) (h : i + n ≤ v) :
    (x ++ y).extractLsb' i n = y.extractLsb' i n := by
  apply BitVec.eq_of_getLsbD_eq
  intro k hk
  simp only [getLsbD_extractLsb', getLsbD_append, if_pos (show i + k < v by omega)]

/-- A field that lies above the low part of a concatenation is a field of the high part. -/
theorem field_high {w v : Nat} (x : BitVec w) (y : BitVec v) (i n : Nat) (h : v ≤ i) :
    (x ++ y).extractLsb' i n = x.extractLsb' (i - v) n := by
  apply BitVec.eq_of_getLsbD_eq
  intro k hk
  simp only [getLsbD_extractLsb', getLsbD_append, if_neg (show ¬ i + k < v by omega), show i + k - v = i - v + k by omega]

/-- A bit of the low part of a concatenation. -/
theorem bit_low {w v : Nat} (x : BitVec w) (y : BitVec v) (i : Nat) (h : i < v) : (x ++ y).getLsbD i = y.getLsbD i := by
  simp only [getLsbD_append, if_pos h]

/-- A bit of the high part of a concatenation. -/
theorem bit_high {w v : Nat} (x : BitVec w) (y : BitVec v) (i : Nat) (h : v ≤ i) : (x ++ y).getLsbD i = x.getLsbD (i - v) := by
  simp only [getLsbD_append, if_neg (Nat.not_lt.2 h)]

/-- The field of full width is the word itself. -/
theorem field_all {w : Nat} (x : BitVec w) : x.extractLsb' 0 w = x := by
  apply BitVec.eq_of_getLsbD_eq
  intro k hk
  simp [hk]

/-- The bit of a flag. -/
theorem ofBool_bit (b : Bool) : (BitVec.ofBool b).getLsbD 0 = b := by cases b <;> rfl

/-- CLASS is read where it is written (R101). -/
theorem wordClass_headerWord (cls : BitVec 3) (lg : BitVec 1) (op : BitVec 8) (h : Hdr) (b : BitVec 48)  :
    wordClass (headerWord cls lg op h b) = cls := by
  simp (disch := decide) only [wordClass, headerWord, field_high, field_all, Nat.reduceSub]

/-- LONG is read where it is written (R101). -/
theorem wordLong_headerWord (cls : BitVec 3) (lg : BitVec 1) (op : BitVec 8) (h : Hdr) (b : BitVec 48)  :
    wordLong (headerWord cls lg op h b) = lg := by
  simp (disch := decide) only [wordLong, headerWord, field_low, field_high, field_all, Nat.reduceSub]

/-- OP is read where it is written (R101). -/
theorem wordOp_headerWord (cls : BitVec 3) (lg : BitVec 1) (op : BitVec 8) (h : Hdr) (b : BitVec 48)  :
    wordOp (headerWord cls lg op h b) = op := by
  simp (disch := decide) only [wordOp, headerWord, field_low, field_high, field_all, Nat.reduceSub]

/-- PN and PRED are read where they are written (R101). -/
theorem wordHdr_headerWord (cls : BitVec 3) (lg : BitVec 1) (op : BitVec 8) (h : Hdr) (b : BitVec 48)  :
    wordHdr h.die h.seq h.par (headerWord cls lg op h b) = h := by
  cases h
  simp (disch := decide) only [wordHdr, headerWord, field_low, field_high, field_all, bit_low, bit_high, ofBool_bit, Nat.reduceSub]

/-- The fields of Format A are read where they are written (R103). -/
theorem wordA_bodyA (cls : BitVec 3) (lg : BitVec 1) (op : BitVec 8) (h : Hdr) (a : FmtA) : wordA (headerWord cls lg op h (bodyA a)) = a := by
  cases a
  simp (disch := decide) only [wordA, headerWord, bodyA, field_low, field_high, field_all, bit_low, bit_high, ofBool_bit, Nat.reduceSub]

/-- The fields of Format M are read where they are written (R103). -/
theorem wordM_bodyM (cls : BitVec 3) (lg : BitVec 1) (op : BitVec 8) (h : Hdr) (a : FmtM) : wordM (headerWord cls lg op h (bodyM a)) = a := by
  cases a
  simp (disch := decide) only [wordM, headerWord, bodyM, field_low, field_high, field_all, Nat.reduceSub]

/-- The fields of Format Y are read where they are written (R103). -/
theorem wordY_bodyY (cls : BitVec 3) (lg : BitVec 1) (op : BitVec 8) (h : Hdr) (a : FmtY) : wordY (headerWord cls lg op h (bodyY a)) = a := by
  cases a
  simp (disch := decide) only [wordY, headerWord, bodyY, field_low, field_high, field_all, bit_low, bit_high, ofBool_bit, Nat.reduceSub]

/-- The fields of the transfer body are read where they are written (R106). -/
theorem wordX_bodyX (cls : BitVec 3) (lg : BitVec 1) (op : BitVec 8) (h : Hdr) (a : FmtX) : wordX (headerWord cls lg op h (bodyX a)) = a := by
  cases a
  simp (disch := decide) only [wordX, headerWord, bodyX, field_low, field_high, field_all, Nat.reduceSub]

/-- The fields of the tensor body are read where they are written (R105). -/
theorem wordT_bodyT (cls : BitVec 3) (lg : BitVec 1) (op : BitVec 8) (h : Hdr) (a : FmtT) : wordT (headerWord cls lg op h (bodyT a)) = a := by
  cases a
  simp (disch := decide) only [wordT, headerWord, bodyT, field_low, field_high, field_all, Nat.reduceSub]

/-- Words of the scalar class decode by its table (R113). -/
theorem decodeWords_scalar (op : BitVec 8) (h : Hdr) (b : BitVec 48) (w1 w2 : Word) :
    decodeWords h.die h.seq h.par (headerWord 0 0 op h b) w1 w2 = decodeScalar h (headerWord 0 0 op h b) := by
  simp only [decodeWords, wordClass_headerWord, wordLong_headerWord, wordHdr_headerWord]
  rfl

/-- Words of the sync class decode by its table (R116). -/
theorem decodeWords_sync (op : BitVec 8) (h : Hdr) (b : BitVec 48) (w1 w2 : Word) :
    decodeWords h.die h.seq h.par (headerWord 1 0 op h b) w1 w2 = decodeSync h (headerWord 1 0 op h b) := by
  simp only [decodeWords, wordClass_headerWord, wordLong_headerWord, wordHdr_headerWord]
  rfl

/-- Words of the transfer class decode by its table (R124). -/
theorem decodeWords_transfer (op : BitVec 8) (h : Hdr) (b : BitVec 48) (w1 w2 : Word) :
    decodeWords h.die h.seq h.par (headerWord 2 1 op h b) w1 w2 = decodeTransfer h (headerWord 2 1 op h b) { wait := w1, post := w2 } := by
  simp only [decodeWords, wordClass_headerWord, wordLong_headerWord, wordHdr_headerWord]
  rfl

/-- Words of the tensor class decode by its table (R125). -/
theorem decodeWords_tensor (op : BitVec 8) (h : Hdr) (b : BitVec 48) (w1 w2 : Word) :
    decodeWords h.die h.seq h.par (headerWord 3 1 op h b) w1 w2 = decodeTensor h (headerWord 3 1 op h b) { wait := w1, post := w2 } := by
  simp only [decodeWords, wordClass_headerWord, wordLong_headerWord, wordHdr_headerWord]
  rfl

/-- Words of the management class decode by its table (R127). -/
theorem decodeWords_mgmt (op : BitVec 8) (h : Hdr) (b : BitVec 48) (w1 w2 : Word) :
    decodeWords h.die h.seq h.par (headerWord 4 0 op h b) w1 w2 = decodeMgmt h (headerWord 4 0 op h b) := by
  simp only [decodeWords, wordClass_headerWord, wordLong_headerWord, wordHdr_headerWord]
  rfl

end Sys2Proof.Laws
end

