-- ==== Sys2Proof/Laws/PerInstr.lean ====
section
/-! SUPPORT. Statements about every command, one lemma for each constructor. `Words`: the instruction words that a well-formed command is written
as (R101 to R106) decode to that command, with every operand at every value. -/

namespace Sys2Proof.Laws.Words

/-- The words of a well-formed command decode to it. A command that no sequencer issues has no words. -/
def Statement (i : Instr) : Prop :=
  ∀ (h : Hdr) (w0 w1 w2 : Word), i.wf = true → encode i = some (h, w0, w1, w2) → decodeWords h.die h.seq h.par w0 w1 w2 = some i

/-- A command whose encoding is given, and decodes to it. -/
theorem of_words {i : Instr} {h : Hdr} {w0 w1 w2 : Word} (e : encode i = some (h, w0, w1, w2))
    (d : i.wf = true → decodeWords h.die h.seq h.par w0 w1 w2 = some i) : Statement i := by
  intro h' v0 v1 v2 hw he
  rw [e] at he
  cases he
  exact d hw

/-- A command without words. -/
theorem of_none {i : Instr} (e : encode i = none) : Statement i := by
  intro h' v0 v1 v2 _ he
  rw [e] at he
  cases he

theorem nop (h : Hdr) (a : FmtA) : Statement (.nop h a) :=
  of_words (w0 := headerWord 0 0 0x00 h (bodyA a)) rfl (fun _ => by rw [decodeWords_scalar]; delta decodeScalar; rw [wordOp_headerWord, wordA_bodyA]; rfl)

theorem add (h : Hdr) (a : FmtA) : Statement (.add h a) :=
  of_words (w0 := headerWord 0 0 0x01 h (bodyA a)) rfl (fun _ => by rw [decodeWords_scalar]; delta decodeScalar; rw [wordOp_headerWord, wordA_bodyA]; rfl)

theorem sub (h : Hdr) (a : FmtA) : Statement (.sub h a) :=
  of_words (w0 := headerWord 0 0 0x02 h (bodyA a)) rfl (fun _ => by rw [decodeWords_scalar]; delta decodeScalar; rw [wordOp_headerWord, wordA_bodyA]; rfl)

theorem mul (h : Hdr) (a : FmtA) : Statement (.mul h a) :=
  of_words (w0 := headerWord 0 0 0x03 h (bodyA a)) rfl (fun _ => by rw [decodeWords_scalar]; delta decodeScalar; rw [wordOp_headerWord, wordA_bodyA]; rfl)

theorem mulhu (h : Hdr) (a : FmtA) : Statement (.mulhu h a) :=
  of_words (w0 := headerWord 0 0 0x04 h (bodyA a)) rfl (fun _ => by rw [decodeWords_scalar]; delta decodeScalar; rw [wordOp_headerWord, wordA_bodyA]; rfl)

theorem and (h : Hdr) (a : FmtA) : Statement (.and h a) :=
  of_words (w0 := headerWord 0 0 0x05 h (bodyA a)) rfl (fun _ => by rw [decodeWords_scalar]; delta decodeScalar; rw [wordOp_headerWord, wordA_bodyA]; rfl)

theorem or (h : Hdr) (a : FmtA) : Statement (.or h a) :=
  of_words (w0 := headerWord 0 0 0x06 h (bodyA a)) rfl (fun _ => by rw [decodeWords_scalar]; delta decodeScalar; rw [wordOp_headerWord, wordA_bodyA]; rfl)

theorem xor (h : Hdr) (a : FmtA) : Statement (.xor h a) :=
  of_words (w0 := headerWord 0 0 0x07 h (bodyA a)) rfl (fun _ => by rw [decodeWords_scalar]; delta decodeScalar; rw [wordOp_headerWord, wordA_bodyA]; rfl)

theorem shl (h : Hdr) (a : FmtA) : Statement (.shl h a) :=
  of_words (w0 := headerWord 0 0 0x08 h (bodyA a)) rfl (fun _ => by rw [decodeWords_scalar]; delta decodeScalar; rw [wordOp_headerWord, wordA_bodyA]; rfl)

theorem shr (h : Hdr) (a : FmtA) : Statement (.shr h a) :=
  of_words (w0 := headerWord 0 0 0x09 h (bodyA a)) rfl (fun _ => by rw [decodeWords_scalar]; delta decodeScalar; rw [wordOp_headerWord, wordA_bodyA]; rfl)

theorem sar (h : Hdr) (a : FmtA) : Statement (.sar h a) :=
  of_words (w0 := headerWord 0 0 0x0A h (bodyA a)) rfl (fun _ => by rw [decodeWords_scalar]; delta decodeScalar; rw [wordOp_headerWord, wordA_bodyA]; rfl)

theorem min (h : Hdr) (a : FmtA) : Statement (.min h a) :=
  of_words (w0 := headerWord 0 0 0x0B h (bodyA a)) rfl (fun _ => by rw [decodeWords_scalar]; delta decodeScalar; rw [wordOp_headerWord, wordA_bodyA]; rfl)

theorem max (h : Hdr) (a : FmtA) : Statement (.max h a) :=
  of_words (w0 := headerWord 0 0 0x0C h (bodyA a)) rfl (fun _ => by rw [decodeWords_scalar]; delta decodeScalar; rw [wordOp_headerWord, wordA_bodyA]; rfl)

theorem minu (h : Hdr) (a : FmtA) : Statement (.minu h a) :=
  of_words (w0 := headerWord 0 0 0x0D h (bodyA a)) rfl (fun _ => by rw [decodeWords_scalar]; delta decodeScalar; rw [wordOp_headerWord, wordA_bodyA]; rfl)

theorem maxu (h : Hdr) (a : FmtA) : Statement (.maxu h a) :=
  of_words (w0 := headerWord 0 0 0x0E h (bodyA a)) rfl (fun _ => by rw [decodeWords_scalar]; delta decodeScalar; rw [wordOp_headerWord, wordA_bodyA]; rfl)

theorem li (h : Hdr) (a : FmtA) : Statement (.li h a) :=
  of_words (w0 := headerWord 0 0 0x10 h (bodyA a)) rfl (fun _ => by rw [decodeWords_scalar]; delta decodeScalar; rw [wordOp_headerWord, wordA_bodyA]; rfl)

theorem lih (h : Hdr) (a : FmtA) : Statement (.lih h a) :=
  of_words (w0 := headerWord 0 0 0x11 h (bodyA a)) rfl (fun _ => by rw [decodeWords_scalar]; delta decodeScalar; rw [wordOp_headerWord, wordA_bodyA]; rfl)

theorem cmpEq (h : Hdr) (a : FmtA) : Statement (.cmpEq h a) :=
  of_words (w0 := headerWord 0 0 0x18 h (bodyA a)) rfl (fun _ => by rw [decodeWords_scalar]; delta decodeScalar; rw [wordOp_headerWord, wordA_bodyA]; rfl)

theorem cmpNe (h : Hdr) (a : FmtA) : Statement (.cmpNe h a) :=
  of_words (w0 := headerWord 0 0 0x19 h (bodyA a)) rfl (fun _ => by rw [decodeWords_scalar]; delta decodeScalar; rw [wordOp_headerWord, wordA_bodyA]; rfl)

theorem cmpLt (h : Hdr) (a : FmtA) : Statement (.cmpLt h a) :=
  of_words (w0 := headerWord 0 0 0x1A h (bodyA a)) rfl (fun _ => by rw [decodeWords_scalar]; delta decodeScalar; rw [wordOp_headerWord, wordA_bodyA]; rfl)

theorem cmpLtu (h : Hdr) (a : FmtA) : Statement (.cmpLtu h a) :=
  of_words (w0 := headerWord 0 0 0x1B h (bodyA a)) rfl (fun _ => by rw [decodeWords_scalar]; delta decodeScalar; rw [wordOp_headerWord, wordA_bodyA]; rfl)

theorem cmpGe (h : Hdr) (a : FmtA) : Statement (.cmpGe h a) :=
  of_words (w0 := headerWord 0 0 0x1C h (bodyA a)) rfl (fun _ => by rw [decodeWords_scalar]; delta decodeScalar; rw [wordOp_headerWord, wordA_bodyA]; rfl)

theorem cmpGeu (h : Hdr) (a : FmtA) : Statement (.cmpGeu h a) :=
  of_words (w0 := headerWord 0 0 0x1D h (bodyA a)) rfl (fun _ => by rw [decodeWords_scalar]; delta decodeScalar; rw [wordOp_headerWord, wordA_bodyA]; rfl)

theorem pand (h : Hdr) (a : FmtA) : Statement (.pand h a) :=
  of_words (w0 := headerWord 0 0 0x20 h (bodyA a)) rfl (fun _ => by rw [decodeWords_scalar]; delta decodeScalar; rw [wordOp_headerWord, wordA_bodyA]; rfl)

theorem por (h : Hdr) (a : FmtA) : Statement (.por h a) :=
  of_words (w0 := headerWord 0 0 0x21 h (bodyA a)) rfl (fun _ => by rw [decodeWords_scalar]; delta decodeScalar; rw [wordOp_headerWord, wordA_bodyA]; rfl)

theorem pxor (h : Hdr) (a : FmtA) : Statement (.pxor h a) :=
  of_words (w0 := headerWord 0 0 0x22 h (bodyA a)) rfl (fun _ => by rw [decodeWords_scalar]; delta decodeScalar; rw [wordOp_headerWord, wordA_bodyA]; rfl)

theorem pnot (h : Hdr) (a : FmtA) : Statement (.pnot h a) :=
  of_words (w0 := headerWord 0 0 0x23 h (bodyA a)) rfl (fun _ => by rw [decodeWords_scalar]; delta decodeScalar; rw [wordOp_headerWord, wordA_bodyA]; rfl)

theorem ld8 (h : Hdr) (m : FmtM) : Statement (.ld8 h m) :=
  of_words (w0 := headerWord 0 0 0x28 h (bodyM m)) rfl (fun _ => by rw [decodeWords_scalar]; delta decodeScalar; rw [wordOp_headerWord, wordM_bodyM]; rfl)

theorem ld16 (h : Hdr) (m : FmtM) : Statement (.ld16 h m) :=
  of_words (w0 := headerWord 0 0 0x29 h (bodyM m)) rfl (fun _ => by rw [decodeWords_scalar]; delta decodeScalar; rw [wordOp_headerWord, wordM_bodyM]; rfl)

theorem ld32 (h : Hdr) (m : FmtM) : Statement (.ld32 h m) :=
  of_words (w0 := headerWord 0 0 0x2A h (bodyM m)) rfl (fun _ => by rw [decodeWords_scalar]; delta decodeScalar; rw [wordOp_headerWord, wordM_bodyM]; rfl)

theorem ld64 (h : Hdr) (m : FmtM) : Statement (.ld64 h m) :=
  of_words (w0 := headerWord 0 0 0x2B h (bodyM m)) rfl (fun _ => by rw [decodeWords_scalar]; delta decodeScalar; rw [wordOp_headerWord, wordM_bodyM]; rfl)

theorem st8 (h : Hdr) (m : FmtM) : Statement (.st8 h m) :=
  of_words (w0 := headerWord 0 0 0x2C h (bodyM m)) rfl (fun _ => by rw [decodeWords_scalar]; delta decodeScalar; rw [wordOp_headerWord, wordM_bodyM]; rfl)

theorem st16 (h : Hdr) (m : FmtM) : Statement (.st16 h m) :=
  of_words (w0 := headerWord 0 0 0x2D h (bodyM m)) rfl (fun _ => by rw [decodeWords_scalar]; delta decodeScalar; rw [wordOp_headerWord, wordM_bodyM]; rfl)

theorem st32 (h : Hdr) (m : FmtM) : Statement (.st32 h m) :=
  of_words (w0 := headerWord 0 0 0x2E h (bodyM m)) rfl (fun _ => by rw [decodeWords_scalar]; delta decodeScalar; rw [wordOp_headerWord, wordM_bodyM]; rfl)

theorem st64 (h : Hdr) (m : FmtM) : Statement (.st64 h m) :=
  of_words (w0 := headerWord 0 0 0x2F h (bodyM m)) rfl (fun _ => by rw [decodeWords_scalar]; delta decodeScalar; rw [wordOp_headerWord, wordM_bodyM]; rfl)

theorem br (h : Hdr) (a : FmtA) : Statement (.br h a) :=
  of_words (w0 := headerWord 0 0 0x30 h (bodyA a)) rfl (fun _ => by rw [decodeWords_scalar]; delta decodeScalar; rw [wordOp_headerWord, wordA_bodyA]; rfl)

theorem jal (h : Hdr) (a : FmtA) : Statement (.jal h a) :=
  of_words (w0 := headerWord 0 0 0x31 h (bodyA a)) rfl (fun _ => by rw [decodeWords_scalar]; delta decodeScalar; rw [wordOp_headerWord, wordA_bodyA]; rfl)

theorem jr (h : Hdr) (a : FmtA) : Statement (.jr h a) :=
  of_words (w0 := headerWord 0 0 0x32 h (bodyA a)) rfl (fun _ => by rw [decodeWords_scalar]; delta decodeScalar; rw [wordOp_headerWord, wordA_bodyA]; rfl)

theorem endItem (h : Hdr) (a : FmtA) : Statement (.endItem h a) :=
  of_words (w0 := headerWord 0 0 0x33 h (bodyA a)) rfl (fun _ => by rw [decodeWords_scalar]; delta decodeScalar; rw [wordOp_headerWord, wordA_bodyA]; rfl)

theorem tdSet (h : Hdr) (a : FmtA) : Statement (.tdSet h a) :=
  of_words (w0 := headerWord 0 0 0x38 h (bodyA a)) rfl (fun _ => by rw [decodeWords_scalar]; delta decodeScalar; rw [wordOp_headerWord, wordA_bodyA]; rfl)

theorem tdGet (h : Hdr) (a : FmtA) : Statement (.tdGet h a) :=
  of_words (w0 := headerWord 0 0 0x39 h (bodyA a)) rfl (fun _ => by rw [decodeWords_scalar]; delta decodeScalar; rw [wordOp_headerWord, wordA_bodyA]; rfl)

theorem tdAdd (h : Hdr) (a : FmtA) : Statement (.tdAdd h a) :=
  of_words (w0 := headerWord 0 0 0x3A h (bodyA a)) rfl (fun _ => by rw [decodeWords_scalar]; delta decodeScalar; rw [wordOp_headerWord, wordA_bodyA]; rfl)

theorem srd (h : Hdr) (a : FmtA) : Statement (.srd h a) :=
  of_words (w0 := headerWord 0 0 0x40 h (bodyA a)) rfl (fun _ => by rw [decodeWords_scalar]; delta decodeScalar; rw [wordOp_headerWord, wordA_bodyA]; rfl)

theorem swr (h : Hdr) (a : FmtA) : Statement (.swr h a) :=
  of_words (w0 := headerWord 0 0 0x41 h (bodyA a)) rfl (fun _ => by rw [decodeWords_scalar]; delta decodeScalar; rw [wordOp_headerWord, wordA_bodyA]; rfl)

theorem semWait (h : Hdr) (y : FmtY) : Statement (.semWait h y) :=
  of_words (w0 := headerWord 1 0 0x00 h (bodyY y)) rfl (fun _ => by rw [decodeWords_sync]; delta decodeSync; rw [wordOp_headerWord, wordY_bodyY]; rfl)

theorem semWaitSatisfied (die seq : Nat) : Statement (.semWaitSatisfied die seq) := of_none rfl

theorem semPost (h : Hdr) (y : FmtY) : Statement (.semPost h y) :=
  of_words (w0 := headerWord 1 0 0x01 h (bodyY y)) rfl (fun _ => by rw [decodeWords_sync]; delta decodeSync; rw [wordOp_headerWord, wordY_bodyY]; rfl)

theorem semTry (h : Hdr) (y : FmtY) : Statement (.semTry h y) :=
  of_words (w0 := headerWord 1 0 0x02 h (bodyY y)) rfl (fun _ => by rw [decodeWords_sync]; delta decodeSync; rw [wordOp_headerWord, wordY_bodyY]; rfl)

theorem semRead (h : Hdr) (y : FmtY) : Statement (.semRead h y) :=
  of_words (w0 := headerWord 1 0 0x03 h (bodyY y)) rfl (fun _ => by rw [decodeWords_sync]; delta decodeSync; rw [wordOp_headerWord, wordY_bodyY]; rfl)

theorem semInit (h : Hdr) (y : FmtY) : Statement (.semInit h y) :=
  of_words (w0 := headerWord 1 0 0x04 h (bodyY y)) rfl (fun _ => by rw [decodeWords_sync]; delta decodeSync; rw [wordOp_headerWord, wordY_bodyY]; rfl)

theorem semPair (h : Hdr) (y : FmtY) : Statement (.semPair h y) :=
  of_words (w0 := headerWord 1 0 0x05 h (bodyY y)) rfl (fun _ => by rw [decodeWords_sync]; delta decodeSync; rw [wordOp_headerWord, wordY_bodyY]; rfl)

theorem semUnpair (h : Hdr) (y : FmtY) : Statement (.semUnpair h y) :=
  of_words (w0 := headerWord 1 0 0x06 h (bodyY y)) rfl (fun _ => by rw [decodeWords_sync]; delta decodeSync; rw [wordOp_headerWord, wordY_bodyY]; rfl)

theorem leaseTake (h : Hdr) (y : FmtY) : Statement (.leaseTake h y) :=
  of_words (w0 := headerWord 1 0 0x10 h (bodyY y)) rfl (fun _ => by rw [decodeWords_sync]; delta decodeSync; rw [wordOp_headerWord, wordY_bodyY]; rfl)

theorem leaseDone (h : Hdr) (y : FmtY) : Statement (.leaseDone h y) :=
  of_words (w0 := headerWord 1 0 0x11 h (bodyY y)) rfl (fun _ => by rw [decodeWords_sync]; delta decodeSync; rw [wordOp_headerWord, wordY_bodyY]; rfl)

theorem leaseDoneAccepted (die seq : Nat) : Statement (.leaseDoneAccepted die seq) := of_none rfl

theorem tickWait (h : Hdr) (y : FmtY) : Statement (.tickWait h y) :=
  of_words (w0 := headerWord 1 0 0x18 h (bodyY y)) rfl (fun _ => by rw [decodeWords_sync]; delta decodeSync; rw [wordOp_headerWord, wordY_bodyY]; rfl)

theorem drayGo (h : Hdr) (x : FmtX) (l : Lists) : Statement (.drayGo h x l) :=
  of_words (w0 := headerWord 2 1 0x00 h (bodyX x)) rfl (fun _ => by rw [decodeWords_transfer]; delta decodeTransfer; rw [wordOp_headerWord, wordX_bodyX]; rfl)

theorem drayPause (h : Hdr) (x : FmtX) (l : Lists) : Statement (.drayPause h x l) :=
  of_words (w0 := headerWord 2 1 0x01 h (bodyX x)) rfl (fun _ => by rw [decodeWords_transfer]; delta decodeTransfer; rw [wordOp_headerWord, wordX_bodyX]; rfl)

theorem drayResume (h : Hdr) (x : FmtX) (l : Lists) : Statement (.drayResume h x l) :=
  of_words (w0 := headerWord 2 1 0x02 h (bodyX x)) rfl (fun _ => by rw [decodeWords_transfer]; delta decodeTransfer; rw [wordOp_headerWord, wordX_bodyX]; rfl)

theorem drayCancel (h : Hdr) (x : FmtX) (l : Lists) : Statement (.drayCancel h x l) :=
  of_words (w0 := headerWord 2 1 0x03 h (bodyX x)) rfl (fun _ => by rw [decodeWords_transfer]; delta decodeTransfer; rw [wordOp_headerWord, wordX_bodyX]; rfl)

theorem drayStat (h : Hdr) (x : FmtX) (l : Lists) : Statement (.drayStat h x l) :=
  of_words (w0 := headerWord 2 1 0x04 h (bodyX x)) rfl (fun _ => by rw [decodeWords_transfer]; delta decodeTransfer; rw [wordOp_headerWord, wordX_bodyX]; rfl)

theorem mma (h : Hdr) (t : FmtT) (l : Lists) : Statement (.mma h t l) :=
  of_words (w0 := headerWord 3 1 0x00 h (bodyT t)) rfl (fun _ => by rw [decodeWords_tensor]; delta decodeTensor; rw [wordOp_headerWord, wordT_bodyT]; rfl)

theorem mvp (h : Hdr) (t : FmtT) (l : Lists) : Statement (.mvp h t l) :=
  of_words (w0 := headerWord 3 1 0x08 h (bodyT t)) rfl (fun _ => by rw [decodeWords_tensor]; delta decodeTensor; rw [wordOp_headerWord, wordT_bodyT]; rfl)

theorem ewa (h : Hdr) (t : FmtT) (l : Lists) : Statement (.ewa h t l) :=
  of_words (w0 := headerWord 3 1 0x10 h (bodyT t)) rfl (fun _ => by rw [decodeWords_tensor]; delta decodeTensor; rw [wordOp_headerWord, wordT_bodyT]; rfl)

theorem vop (h : Hdr) (t : FmtT) (l : Lists) : Statement (.vop h t l) :=
  of_words (w0 := headerWord 3 1 0x18 h (bodyT t)) rfl (fun _ => by rw [decodeWords_tensor]; delta decodeTensor; rw [wordOp_headerWord, wordT_bodyT]; rfl)

theorem hand (h : Hdr) (t : FmtT) (l : Lists) : Statement (.hand h t l) :=
  of_words (w0 := headerWord 3 1 0x20 h (bodyT t)) rfl (fun _ => by rw [decodeWords_tensor]; delta decodeTensor; rw [wordOp_headerWord, wordT_bodyT]; rfl)

theorem hmerge (h : Hdr) (t : FmtT) (l : Lists) : Statement (.hmerge h t l) :=
  of_words (w0 := headerWord 3 1 0x21 h (bodyT t)) rfl (fun _ => by rw [decodeWords_tensor]; delta decodeTensor; rw [wordOp_headerWord, wordT_bodyT]; rfl)

theorem hcheck (h : Hdr) (t : FmtT) (l : Lists) : Statement (.hcheck h t l) :=
  of_words (w0 := headerWord 3 1 0x22 h (bodyT t)) rfl (fun _ => by rw [decodeWords_tensor]; delta decodeTensor; rw [wordOp_headerWord, wordT_bodyT]; rfl)

theorem predQuant (h : Hdr) (t : FmtT) (l : Lists) : Statement (.predQuant h t l) :=
  of_words (w0 := headerWord 3 1 0x28 h (bodyT t)) rfl (fun hw => by
    have hf : t.opx.toNat % 8 = 0 := of_decide_eq_true (Bool.and_eq_true_iff.1 hw).2
    rw [decodeWords_tensor]; delta decodeTensor; rw [wordOp_headerWord, wordT_bodyT]
    show decodePred h t l = _
    simp only [decodePred, hf])

theorem predTopk (h : Hdr) (t : FmtT) (l : Lists) : Statement (.predTopk h t l) :=
  of_words (w0 := headerWord 3 1 0x28 h (bodyT t)) rfl (fun hw => by
    have hf : t.opx.toNat % 8 = 1 := of_decide_eq_true (Bool.and_eq_true_iff.1 hw).2
    rw [decodeWords_tensor]; delta decodeTensor; rw [wordOp_headerWord, wordT_bodyT]
    show decodePred h t l = _
    simp only [decodePred, hf])

theorem predThresh (h : Hdr) (t : FmtT) (l : Lists) : Statement (.predThresh h t l) :=
  of_words (w0 := headerWord 3 1 0x28 h (bodyT t)) rfl (fun hw => by
    have hf : t.opx.toNat % 8 = 2 := of_decide_eq_true (Bool.and_eq_true_iff.1 hw).2
    rw [decodeWords_tensor]; delta decodeTensor; rw [wordOp_headerWord, wordT_bodyT]
    show decodePred h t l = _
    simp only [decodePred, hf])

theorem predEmit (h : Hdr) (t : FmtT) (l : Lists) : Statement (.predEmit h t l) :=
  of_words (w0 := headerWord 3 1 0x28 h (bodyT t)) rfl (fun hw => by
    have hf : t.opx.toNat % 8 = 3 := of_decide_eq_true (Bool.and_eq_true_iff.1 hw).2
    rw [decodeWords_tensor]; delta decodeTensor; rw [wordOp_headerWord, wordT_bodyT]
    show decodePred h t l = _
    simp only [decodePred, hf])

theorem updAdam (h : Hdr) (t : FmtT) (l : Lists) : Statement (.updAdam h t l) :=
  of_words (w0 := headerWord 3 1 0x30 h (bodyT t)) rfl (fun _ => by rw [decodeWords_tensor]; delta decodeTensor; rw [wordOp_headerWord, wordT_bodyT]; rfl)

theorem digestBlock (h : Hdr) (t : FmtT) (l : Lists) : Statement (.digestBlock h t l) :=
  of_words (w0 := headerWord 3 1 0x38 h (bodyT t)) rfl (fun hw => by
    have h0 := (Bool.and_eq_true_iff.1 hw).2
    have hf : t.opx.getLsbD 0 = false := by cases hx : t.opx.getLsbD 0; rfl; rw [hx] at h0; exact absurd h0 (by decide)
    rw [decodeWords_tensor]; delta decodeTensor; rw [wordOp_headerWord, wordT_bodyT]
    show some (if t.opx.getLsbD 0 then Instr.digestNode h t l else Instr.digestBlock h t l) = _
    rw [hf]; rfl)

theorem digestNode (h : Hdr) (t : FmtT) (l : Lists) : Statement (.digestNode h t l) :=
  of_words (w0 := headerWord 3 1 0x38 h (bodyT t)) rfl (fun hw => by
    have h0 := (Bool.and_eq_true_iff.1 hw).2
    have hf : t.opx.getLsbD 0 = true := h0
    rw [decodeWords_tensor]; delta decodeTensor; rw [wordOp_headerWord, wordT_bodyT]
    show some (if t.opx.getLsbD 0 then Instr.digestNode h t l else Instr.digestBlock h t l) = _
    rw [hf]; rfl)

theorem mgRd (h : Hdr) (a : FmtA) : Statement (.mgRd h a) :=
  of_words (w0 := headerWord 4 0 0x00 h (bodyA a)) rfl (fun _ => by rw [decodeWords_mgmt]; delta decodeMgmt; rw [wordOp_headerWord, wordA_bodyA]; rfl)

theorem mgWr (h : Hdr) (a : FmtA) : Statement (.mgWr h a) :=
  of_words (w0 := headerWord 4 0 0x01 h (bodyA a)) rfl (fun _ => by rw [decodeWords_mgmt]; delta decodeMgmt; rw [wordOp_headerWord, wordA_bodyA]; rfl)

theorem mgEvent (h : Hdr) (a : FmtA) : Statement (.mgEvent h a) :=
  of_words (w0 := headerWord 4 0 0x02 h (bodyA a)) rfl (fun _ => by rw [decodeWords_mgmt]; delta decodeMgmt; rw [wordOp_headerWord, wordA_bodyA]; rfl)

theorem mgFence (h : Hdr) (a : FmtA) : Statement (.mgFence h a) :=
  of_words (w0 := headerWord 4 0 0x03 h (bodyA a)) rfl (fun _ => by rw [decodeWords_mgmt]; delta decodeMgmt; rw [wordOp_headerWord, wordA_bodyA]; rfl)

theorem mgImage (h : Hdr) (a : FmtA) : Statement (.mgImage h a) :=
  of_words (w0 := headerWord 4 0 0x04 h (bodyA a)) rfl (fun _ => by rw [decodeWords_mgmt]; delta decodeMgmt; rw [wordOp_headerWord, wordA_bodyA]; rfl)

theorem instrStart (die core unit par : Nat) : Statement (.instrStart die core unit par) := of_none rfl

theorem instrComplete (die core unit par : Nat) : Statement (.instrComplete die core unit par) := of_none rfl

theorem semPostArrival (src dst : Nat) : Statement (.semPostArrival src dst) := of_none rfl

theorem workItemStart (die core item : Nat) : Statement (.workItemStart die core item) := of_none rfl

theorem workItemComplete (die core item : Nat) : Statement (.workItemComplete die core item) := of_none rfl

theorem itemResume (die core item : Nat) : Statement (.itemResume die core item) := of_none rfl

theorem counterAtomic (die core : Nat) : Statement (.counterAtomic die core) := of_none rfl

theorem frameTick (absentDies : List Nat) : Statement (.frameTick absentDies) := of_none rfl

theorem tickReport (x : ReportIn) : Statement (.tickReport x) := of_none rfl

theorem verdict (x : VerdictIn) : Statement (.verdict x) := of_none rfl

theorem verdictApply : Statement .verdictApply := of_none rfl

theorem restoreDone (copies : Copies) (mirrorLives : List (Nat × Bool)) (bytes ms : Nat) : Statement (.restoreDone copies mirrorLives bytes ms) := of_none rfl

theorem ttReady (src : Src) (die : Nat) (w : Word) : Statement (.ttReady src die w) := of_none rfl

theorem timetableValidated (die : Nat) : Statement (.timetableValidated die) := of_none rfl

theorem jobSubmit (src : Src) (w : Word) : Statement (.jobSubmit src w) := of_none rfl

theorem resume (src : Src) : Statement (.resume src) := of_none rfl

theorem jobEnd (src : Src) : Statement (.jobEnd src) := of_none rfl

theorem image (src : Src) : Statement (.image src) := of_none rfl

theorem imageDone : Statement .imageDone := of_none rfl

theorem restore (src : Src) : Statement (.restore src) := of_none rfl

theorem optArm (src : Src) (die : Nat) (normsq : BitVec 32) : Statement (.optArm src die normsq) := of_none rfl

theorem optClose (src : Src) (die : Nat) : Statement (.optClose src die) := of_none rfl

theorem optHold (src : Src) (die : Nat) (hold : Bool) : Statement (.optHold src die hold) := of_none rfl

theorem ledgerTake (src : Src) (die : Nat) (entry : BitVec 6) : Statement (.ledgerTake src die entry) := of_none rfl

theorem ledgerDone (src : Src) (die : Nat) (entry : BitVec 6) : Statement (.ledgerDone src die entry) := of_none rfl

theorem ledgerClose (src : Src) (die : Nat) (entry : BitVec 6) : Statement (.ledgerClose src die entry) := of_none rfl

theorem leadTakeover (ms : Nat) : Statement (.leadTakeover ms) := of_none rfl

theorem commitList (die : Nat) (frame : Nat) (flips : List Nat) : Statement (.commitList die frame flips) := of_none rfl

theorem digestRootReport (shard level : Nat) (rs : List RootReport) : Statement (.digestRootReport shard level rs) := of_none rfl

theorem descriptorStart (die chan : Nat) : Statement (.descriptorStart die chan) := of_none rfl

theorem streamCreditTake (die chan : Nat) : Statement (.streamCreditTake die chan) := of_none rfl

theorem tileStageGrant (die chan : Nat) : Statement (.tileStageGrant die chan) := of_none rfl

theorem memTagGrant (die : Nat) : Statement (.memTagGrant die) := of_none rfl

theorem memoryRequest (die : Nat) (req : Requester) (addr : BitVec 48) (len : Nat) (write : Bool) (parity : Nat) : Statement (.memoryRequest die req addr len write parity) := of_none rfl

theorem lpddrRead (die req : Nat) (addr : BitVec 48) (linkErrs : Nat) (bad reread : Bool) (mirror : List Byte) : Statement (.lpddrRead die req addr linkErrs bad reread mirror) := of_none rfl

theorem drayAccessError (die chan kind : Nat) : Statement (.drayAccessError die chan kind) := of_none rfl

theorem writeAccept (die : Nat) (to_ : AnswerTo) : Statement (.writeAccept die to_) := of_none rfl

theorem readBack (die chan : Nat) : Statement (.readBack die chan) := of_none rfl

theorem cqEnable (src : Src) (die q : Nat) (w : Word) : Statement (.cqEnable src die q w) := of_none rfl

theorem cqHead (src : Src) (die q : Nat) (head : BitVec 17) : Statement (.cqHead src die q head) := of_none rfl

theorem readRequest (die l : Nat) (p : Packet) : Statement (.readRequest die l p) := of_none rfl

theorem readResponse (die : Nat) (to_ : AnswerTo) (data : List Byte) : Statement (.readResponse die to_ data) := of_none rfl

theorem write (die l : Nat) (p : Packet) (data : List Byte) : Statement (.write die l p data) := of_none rfl

theorem linkResetResponse (die l : Nat) (p : Packet) : Statement (.linkResetResponse die l p) := of_none rfl

theorem registerRead (src : Src) (p : Packet) : Statement (.registerRead src p) := of_none rfl

theorem registerWrite (src : Src) (p : Packet) (w : Word) : Statement (.registerWrite src p w) := of_none rfl

theorem registerResponse (die l : Nat) (p : Packet) (data : List Byte) : Statement (.registerResponse die l p data) := of_none rfl

theorem rcRead (src : Src) (addr : BitVec 48) : Statement (.rcRead src addr) := of_none rfl

theorem packetData (die l : Nat) (f : Flit) : Statement (.packetData die l f) := of_none rfl

theorem idle (die l : Nat) (f : Flit) : Statement (.idle die l f) := of_none rfl

theorem nak (die l : Nat) (f : Flit) (expected : BitVec 12) : Statement (.nak die l f expected) := of_none rfl

theorem creditReturn (die l : Nat) (f : Flit) (n : BitVec 12) : Statement (.creditReturn die l f n) := of_none rfl

theorem laneSwitch (die l : Nat) (f : Flit) (lane : Nat) (seq : BitVec 12) : Statement (.laneSwitch die l f lane seq) := of_none rfl

theorem waybillCounts (die l : Nat) (f : Flit) (c : LinkCounts) : Statement (.waybillCounts die l f c) := of_none rfl

theorem timeFlit (die l : Nat) (x : TimeIn) : Statement (.timeFlit die l x) := of_none rfl

theorem timeFlitSend : Statement .timeFlitSend := of_none rfl

theorem timetableFrame (die l : Nat) (f : Flit) (x : TtFrame) : Statement (.timetableFrame die l f x) := of_none rfl

theorem capabilityBlock (die l : Nat) (f : Flit) : Statement (.capabilityBlock die l f) := of_none rfl

theorem dieFlit (die port : Nat) (f : DieFlit) : Statement (.dieFlit die port f) := of_none rfl

theorem ackTimeout (die l : Nat) : Statement (.ackTimeout die l) := of_none rfl

theorem linkRetrain (die l cause : Nat) : Statement (.linkRetrain die l cause) := of_none rfl

theorem linkRetrained (die l : Nat) (ok : Bool) (active : Nat) (rtt : BitVec 32) (partner : CapBlock) : Statement (.linkRetrained die l ok active rtt partner) := of_none rfl

theorem linkEnable (src : Src) (die l : Nat) (w : Word) : Statement (.linkEnable src die l w) := of_none rfl

theorem linkDisable (src : Src) (die l : Nat) (w : Word) : Statement (.linkDisable src die l w) := of_none rfl

theorem linkDown (die l : Nat) : Statement (.linkDown die l) := of_none rfl

theorem laneSignalLoss (die l lane : Nat) : Statement (.laneSignalLoss die l lane) := of_none rfl

theorem sparingWindowEnd (die l : Nat) (errs : List (Nat × Nat)) : Statement (.sparingWindowEnd die l errs) := of_none rfl

theorem teamJoin (src : Src) (w : Word) : Statement (.teamJoin src w) := of_none rfl

theorem coachmanElection (x : Electors) : Statement (.coachmanElection x) := of_none rfl

theorem bypassClose (src : Src) (w : Word) : Statement (.bypassClose src w) := of_none rfl

theorem mainPowerLow : Statement .mainPowerLow := of_none rfl

theorem auxPowerUp (env : BootEnv) (slot : BitVec 4) (coach : Bool) : Statement (.auxPowerUp env slot coach) := of_none rfl

theorem auxPowerLoss : Statement .auxPowerLoss := of_none rfl

theorem coldReset (src : Src) (env : BootEnv) : Statement (.coldReset src env) := of_none rfl

theorem warmReset (src : Src) (env : BootEnv) : Statement (.warmReset src env) := of_none rfl

theorem lampSample (xs : List Sample) : Statement (.lampSample xs) := of_none rfl

theorem framSave (secs : Nat) : Statement (.framSave secs) := of_none rfl

theorem lampSampleBlock : Statement .lampSampleBlock := of_none rfl

theorem powerRequest (src : Src) (w : Word) : Statement (.powerRequest src w) := of_none rfl

theorem calendarSet (src : Src) (w : Word) : Statement (.calendarSet src w) := of_none rfl

theorem ruleEnable (src : Src) (r : Nat) (w : Word) : Statement (.ruleEnable src r w) := of_none rfl

theorem filterConfig (src : Src) (ch : Nat) (w : Word) : Statement (.filterConfig src ch w) := of_none rfl

theorem readCounters (src : Src) (arg : BitVec 16) : Statement (.readCounters src arg) := of_none rfl

theorem readErrorHistory (src : Src) (arg : BitVec 16) : Statement (.readErrorHistory src arg) := of_none rfl

theorem readRetirementList (src : Src) (arg : BitVec 16) : Statement (.readRetirementList src arg) := of_none rfl

theorem addRetirementEntry (src : Src) (arg : BitVec 16) : Statement (.addRetirementEntry src arg) := of_none rfl

theorem smbusBlockWrite (addr : BitVec 48) (w : Word) (pecOk : Bool) : Statement (.smbusBlockWrite addr w pecOk) := of_none rfl

theorem smbusSetPointer (addr : BitVec 48) (pecOk : Bool) : Statement (.smbusSetPointer addr pecOk) := of_none rfl

theorem smbusBlockRead (pecOk : Bool) : Statement (.smbusBlockRead pecOk) := of_none rfl

theorem attestReport (src : Src) (addr : BitVec 48) : Statement (.attestReport src addr) := of_none rfl

theorem mrExtend (src : Src) (mr : BitVec 4) (addr : BitVec 48) : Statement (.mrExtend src mr addr) := of_none rfl

theorem fwUpdate (src : Src) (addr : BitVec 48) (sigOk : Bool) : Statement (.fwUpdate src addr sigOk) := of_none rfl

theorem fwCommit (src : Src) : Statement (.fwCommit src) := of_none rfl

theorem arbRaise (src : Src) : Statement (.arbRaise src) := of_none rfl

theorem eventFifoRead (die : Nat) : Statement (.eventFifoRead die) := of_none rfl

theorem eventRecordForward (die : Nat) : Statement (.eventRecordForward die) := of_none rfl

theorem spadBlockReady (die core : Nat) : Statement (.spadBlockReady die core) := of_none rfl

theorem depotRepartDone (die : Nat) : Statement (.depotRepartDone die) := of_none rfl

theorem eventRingHead (src : Src) (head : BitVec 21) : Statement (.eventRingHead src head) := of_none rfl

theorem eventRingEnable (src : Src) (w : Word) : Statement (.eventRingEnable src w) := of_none rfl

theorem periodicTracking (die ch : Nat) (retrain fail : Bool) : Statement (.periodicTracking die ch retrain fail) := of_none rfl

theorem powerTransitionDone (env : BootEnv) : Statement (.powerTransitionDone env) := of_none rfl

theorem mainStageRetry (env : BootEnv) : Statement (.mainStageRetry env) := of_none rfl

theorem d2dPortRetrained (die port : Nat) (ok : Bool) : Statement (.d2dPortRetrained die port ok) := of_none rfl

theorem fwUpdateDone (readBackOk : Bool) : Statement (.fwUpdateDone readBackOk) := of_none rfl

theorem attestDone : Statement .attestDone := of_none rfl

end Sys2Proof.Laws.Words
end

