-- ==== Sys2Proof/Tests/Slice0.lean ====
section
/-! SUPPORT. Tests: the checks of WellFormed on ill-formed terms, words of the spec's encodings, small steps, and for every statement with hypotheses
concrete states and operands that meet them. -/

namespace Sys2Proof.Tests

open Sys2Proof Sys2Proof.Machine

/-- A Format A with the given fields. -/
def tA (sd sa sb : BitVec 5) (im : Bool) (imm : BitVec 32) : FmtA := { sd := sd, sa := sa, sb := sb, im := im, imm := imm }

/-- A Format M with the given fields. -/
def tM (sd sa : BitVec 5) (win : BitVec 2) (imm : BitVec 32) : FmtM := { sd := sd, sa := sa, win := win, rsv := 0, imm := imm }

/-- A Format Y on a semaphore of the own core with an immediate count. -/
def tY (sd : BitVec 5) (sem : BitVec 8) (count : BitVec 16) : FmtY :=
  { sd := sd, sa := 0, sem := sem, scope := 0, tcore := 0, tdie := 0, im := true, rsv := 0, count := count }

/-- A tensor body with the given OPX. -/
def tT (opx : BitVec 23) : FmtT := { tdd := 0, tda := 1, tdb := 2, tdc := 3, ss := 0, arr := 0, grp := 0, opx := opx }

/-- Empty wait and post lists. -/
def tL : Lists := { wait := 0, post := 0 }

/-- The header of an instruction of core 0 of die 0. -/
def tHdr : Hdr := { die := 0, seq := 0, pn := false, pred := 0, par := 0 }

/-- The header of an instruction of control core 0 of die 0. -/
def tCtl : Hdr := { tHdr with seq := 96 }

/-- A flit with the given KIND and SEQ and its CRC. -/
def tF (kind : BitVec 4) (seq : BitVec 12) : Flit := sealFlit { tag := 0, seq := seq, kind := kind, ack := 0xFFF, cret := 0, payload := [], crc := 0 }

/-- A packet to ring slot `slot` of the own team. -/
def tP (slot : BitVec 4) (len : Nat) (addr : BitVec 48) : Packet :=
  { srcDie := 0, dstDie := 0, cls := 0, srcTeam := 0x3F, srcSlot := 0xF, dstTeam := 0, dstSlot := slot, tag := 0, len := len, rid := 7, req := 0, key := 0, addr := addr }

/-- A header of a sequencer that no die has. -/
def tBad : Hdr := { tHdr with seq := 100 }

-- WellFormed: each check refuses a term that breaks it, and takes its neighbour at the boundary.

theorem test_wf_die : (Instr.nop { tHdr with die := 8 } (tA 0 0 0 false 0)).wf = false ∧ (Instr.nop { tHdr with die := 7 } (tA 0 0 0 false 0)).wf = true := by decide
theorem test_wf_seq : (Instr.nop tBad (tA 0 0 0 false 0)).wf = false ∧ (Instr.nop { tHdr with seq := 99 } (tA 0 0 0 false 0)).wf = true := by decide
theorem test_wf_unit : (Instr.instrStart 0 0 10 0).wf = false ∧ (Instr.instrStart 0 0 9 0).wf = true ∧ (Instr.instrStart 0 96 5 0).wf = false ∧
    (Instr.instrStart 0 96 37 0).wf = true ∧ (Instr.instrComplete 0 96 38 0).wf = false := by decide
theorem test_wf_post : (Instr.semPostArrival 1024 0).wf = false ∧ (Instr.semPostArrival 995 100).wf = false ∧ (Instr.semPostArrival 995 0).wf = true := by decide
theorem test_wf_core : (Instr.counterAtomic 0 96).wf = false ∧ (Instr.counterAtomic 0 95).wf = true := by decide
theorem test_wf_item : (Instr.workItemStart 0 0 8).wf = false ∧ (Instr.workItemComplete 0 0 8).wf = false ∧ (Instr.itemResume 0 0 7).wf = true := by decide
theorem test_wf_absent : (Instr.frameTick [0, 8]).wf = false ∧ (Instr.frameTick [0, 7]).wf = true := by decide
theorem test_wf_pred : (Instr.predQuant tHdr (tT 1) tL).wf = false ∧ (Instr.predTopk tHdr (tT 1) tL).wf = true ∧ (Instr.predThresh tHdr (tT 3) tL).wf = false ∧
    (Instr.predEmit tHdr (tT 11) tL).wf = true := by decide
theorem test_wf_digest : (Instr.digestBlock tHdr (tT 1) tL).wf = false ∧ (Instr.digestNode tHdr (tT 0) tL).wf = false ∧ (Instr.digestNode tHdr (tT 1) tL).wf = true := by decide
theorem test_wf_source : (Instr.resume (.firmware 8)).wf = false ∧ (Instr.resume (.mgmt 8)).wf = false ∧ (Instr.resume (.host true 0)).wf = true ∧ (Instr.resume .smbus).wf = true := by decide
theorem test_wf_commit : (Instr.commitList 0 (2 ^ 48) []).wf = false ∧ (Instr.commitList 0 (2 ^ 48 - 1) []).wf = true := by decide
theorem test_wf_level : (Instr.digestRootReport 0 4 []).wf = false ∧ (Instr.digestRootReport 0 3 []).wf = true := by decide
theorem test_wf_chan : (Instr.descriptorStart 0 416).wf = false ∧ (Instr.descriptorStart 0 415).wf = true := by decide
theorem test_wf_request : (Instr.memoryRequest 0 ⟨426, none, 0, 0⟩ 0 1 false 0).wf = false ∧ (Instr.memoryRequest 0 ⟨0, none, 0, 0⟩ 0 0 false 0).wf = false ∧
    (Instr.memoryRequest 0 ⟨0, none, 0, 0⟩ 1 256 false 0).wf = false ∧ (Instr.memoryRequest 0 ⟨425, none, 0, 0⟩ 0 256 false 0).wf = true ∧ (Instr.lpddrRead 0 427 0 0 false false []).wf = false := by decide
theorem test_wf_access : (Instr.drayAccessError 0 0 3).wf = false ∧ (Instr.drayAccessError 0 0 2).wf = true := by decide
theorem test_wf_queue : (Instr.cqEnable (.host false 0) 0 64 0).wf = false ∧ (Instr.cqHead (.host false 0) 0 63 0).wf = true := by decide
theorem test_wf_link : (Instr.ackTimeout 0 4).wf = false ∧ (Instr.ackTimeout 0 3).wf = true := by decide
theorem test_wf_lane : (Instr.laneSwitch 0 0 (tF 3 0) 64 0).wf = false ∧ (Instr.laneSignalLoss 0 0 64).wf = false ∧ (Instr.laneSignalLoss 0 0 63).wf = true := by decide
theorem test_wf_port : (Instr.d2dPortRetrained 0 3 true).wf = false ∧ (Instr.d2dPortRetrained 0 2 true).wf = true := by decide
theorem test_wf_cause : (Instr.linkRetrain 0 0 0).wf = false ∧ (Instr.linkRetrain 0 0 5).wf = false ∧ (Instr.linkRetrain 0 0 4).wf = true := by decide
theorem test_wf_sensor : (Instr.lampSample [{ ch := 64, raw := 0, fault := false }]).wf = false ∧ (Instr.filterConfig .smbus 64 0).wf = false ∧
    (Instr.filterConfig .smbus 63 0).wf = true := by decide
theorem test_wf_rule : (Instr.ruleEnable .smbus 128 0).wf = false ∧ (Instr.ruleEnable .smbus 127 0).wf = true := by decide
theorem test_wf_memory_channel : (Instr.periodicTracking 0 16 false false).wf = false ∧ (Instr.periodicTracking 0 15 false false).wf = true := by decide

-- Words written out from the encodings of R101 to R106, field by field.

/-- ADD s3, s1, 5: CLASS 000, LONG 0, PN 0, PRED 000, OP 0x01, SD 00011, SA 00001, SB 00000, IM 1, IMM 5 (R101, R103, R113). -/
theorem test_word_add : decodeWords 0 0 0 0b000_0_0_000_00000001_00011_00001_00000_1_00000000000000000000000000000101 0 0 =
    some (.add tHdr (tA 3 1 0 true 5)) := by decide

/-- ST32 of s2 through window 1 at s4 - 4: OP 0x2E, SD 00010, SA 00100, WIN 01, reserved 0000, IMM 0xFFFFFFFC (R103, R113). -/
theorem test_word_store : decodeWords 0 0 0 0b000_0_0_000_00101110_00010_00100_01_0000_11111111111111111111111111111100 0 0 =
    some (.st32 tHdr (tM 2 4 1 0xFFFFFFFC)) := by decide

/-- SEM.POST of 2 to semaphore 9 of core 3, die 1, under p2 negated: CLASS 001, PN 1, PRED 010, OP 0x01, SEM, SCOPE 10, TCORE, TDIE, IM 1 (R103, R116). -/
theorem test_word_post : decodeWords 0 0 0 0b001_0_1_010_00000001_00000_00000_00001001_10_0000011_001_1_0_0000000000000010 0 0 =
    some (.semPost { tHdr with pn := true, pred := 2 } { sd := 0, sa := 0, sem := 9, scope := 2, tcore := 3, tdie := 1, im := true, rsv := 0, count := 2 }) := by decide

/-- DRAY.GO at s5 through window 3 on channel 2, with its list words: CLASS 010, LONG 1, OP 0x00 (R104, R106, R124). -/
theorem test_word_transfer : decodeWords 0 0 0 0b010_1_0_000_00000000_00101_11_000010_00000000000000000000000000000000000 1 2 =
    some (.drayGo tHdr { sa := 5, win := 3, ch := 2, rsv := 0 } { wait := 1, post := 2 }) := by decide

/-- PRED.TOPK, function code 1 of OP 0x28, and DIGEST of a node, OPX[0] = 1 of OP 0x38: CLASS 011, LONG 1 (R105, R125, R246, R402). -/
theorem test_word_tensor : decodeWords 0 0 0 0b011_1_0_000_00101000_0000_0001_0010_0011_00000_0_000_00000000000000000000001 0 0 = some (.predTopk tHdr (tT 1) tL) ∧
    decodeWords 0 0 0 0b011_1_0_000_00111000_0000_0001_0010_0011_00000_0_000_00000000000000000000001 0 0 = some (.digestNode tHdr (tT 1) tL) := by decide

/-- MG.WR of s2 at s1 + 8, of a control core: CLASS 100, OP 0x01 (R103, R127). -/
theorem test_word_management : decodeWords 0 96 0 0b100_0_0_000_00000001_00000_00001_00010_0_00000000000000000000000000001000 0 0 =
    some (.mgWr tCtl (tA 0 1 2 false 8)) := by decide

/-- A reserved CLASS, a reserved OP and a LONG bit that does not match the class spell nothing (R101, R102). -/
theorem test_word_reserved : decodeWords 0 0 0 0b101_0_0_000_00000000_000000000000000000000000000000000000000000000000 0 0 = none ∧
    decodeWords 0 0 0 0b000_0_0_000_00001111_000000000000000000000000000000000000000000000000 0 0 = none ∧
    decodeWords 0 0 0 0b000_1_0_000_00000001_000000000000000000000000000000000000000000000000 0 0 = none := by decide

/-- No row of the table has bits, so no word spells a command of it. -/
theorem test_table_word : decodeTableWord 64 1 = none ∧ State.reset.withFetchWord 64 1 = State.reset := by decide


-- States.

/-- A state in which core 0 of die 0 runs work item 0, with task window 0 open over the first 4,096 bytes of its scratchpad. -/
def tRun : State :=
  ((((((State.reset.modCore 0 0 (fun c => { c with cur := some 0, s := [(1, 7), (2, 5)] })).modItem 0 (fun i => { i with st := .running })).wr
    (SPAD_WIN_BOUND 0 0 0) 4096).wr (SPAD_WIN_RD 0 0 0) 1).wr (SPAD_WIN_WR 0 0 0) 1).wr (SPAD_WIN_EX 0 0 0) 1)

/-- `tRun` with semaphore 4 at 3 and semaphores 8 and 9 a pair of 2 that holds 1. -/
def tSem : State := tRun.modCore 0 0 (fun c => { c with sem := [(4, 3), (9, 2)], pairs := [(8, { total := 2, held := 1, infl := 0 })] })

/-- `tRun` with semaphores 8 and 9 a pair as declared. -/
def tPair : State := tRun.modCore 0 0 (fun c => { c with sem := [(9, 2)], pairs := [(8, { total := 2, held := 0, infl := 0 })] })

/-- `tRun` with a stalled core 0. -/
def tStall (b : Blocked) : State := tSem.modCore 0 0 (fun c => { c with blocked := b })

/-- `tRun` with a leased work item of counter 5 that holds the given leases. -/
def tLease (ls : List Nat) : State := tRun.modItem 0 (fun i => { i with entry := { i.entry with flags := 1, counter := 5 }, leases := ls, returned := [9] })

/-- A Format Y of LEASE.TAKE, with its work counter. -/
def tYk (sd : BitVec 5) (count : BitVec 16) : FmtY := { tY sd 0 count with sem := 0 }

-- One instruction of each shape, in one step.

/-- ADD s3, s1, 5 with s1 = 7 gives 12, and the program counter 8 (R113). -/
theorem test_add : (match exec (.add tHdr (tA 3 1 0 true 5)) tRun with
    | .next t => decide (t.sreg 0 0 3 = 12) && decide ((t.core 0 0).pc = 8)
    | _ => false) = true := by decide

/-- SUB s3, s2, 7 with s2 = 5 wraps to 2 to the 64th less 2 (R113). -/
theorem test_sub_wraps : (match exec (.sub tHdr (tA 3 2 0 true 7)) tRun with
    | .next t => decide (t.sreg 0 0 3 = 0xFFFFFFFFFFFFFFFE)
    | _ => false) = true := by decide

/-- ST16 of s1 at s2 - 1 = 4, then LD8 of byte 4 and byte 5, little-endian (R113). -/
theorem test_store_load : (match exec (.st16 tHdr (tM 1 2 0 0xFFFFFFFF)) tRun with
    | .next t => decide (t.byteAt 0x010040000004 = 7) && decide (t.byteAt 0x010040000005 = 0) && decide (t.byteAt 0x010040000003 = 0)
    | _ => false) = true := by decide

/-- JAL s4, 16 goes to 16 and leaves 8 in s4 (R113). -/
theorem test_jal : (match exec (.jal tHdr (tA 4 0 0 true 16)) tRun with
    | .next t => decide ((t.core 0 0).pc = 16) && decide (t.sreg 0 0 4 = 8)
    | _ => false) = true := by decide

set_option maxRecDepth 4000 in
/-- SEM.WAIT of 4 on a semaphore of 3 stalls; SEM.WAIT of 3 takes it (R116). -/
theorem test_wait : (match exec (.semWait tHdr (tY 0 4 4)) tSem with
    | .next t => decide ((t.core 0 0).blocked = .semWait 4 4)
    | _ => false) = true ∧ (match exec (.semWait tHdr (tY 0 4 3)) tSem with
    | .next t => decide (t.semv 0 0 4 = 0) && decide ((t.core 0 0).pc = 8)
    | _ => false) = true := by decide

/-- Reads of 64-bit registers: after reset the module is Off, the bypass closed and LINK CT 1,024 (R422, R445, R493). -/
theorem test_reset : State.reset.rd LAMP_PWR_STATE = 3 ∧ State.reset.rd BYPASS_CLOSED = 1 ∧ State.reset.rd (LINK_CFG_CT 0 0) = 1024 := by decide

-- Hypotheses of the statements, met together.

theorem test_run_issues : Issues tRun tHdr 8 := ⟨by decide, by decide, rfl, by decide⟩
theorem test_run_issues_long : Issues tRun tHdr 24 := ⟨by decide, by decide, rfl, by decide⟩
theorem test_control_issues : Issues tRun tCtl 8 := ⟨by decide, by decide, rfl, by decide⟩
theorem test_sem_issues : Issues tSem tHdr 8 := ⟨by decide, by decide, rfl, by decide⟩
theorem test_pair_issues : Issues tPair tHdr 8 := ⟨by decide, by decide, rfl, by decide⟩

theorem witness_AluInstructionsWriteTheirResult : Issues tRun tHdr 8 ∧ legalAlu (tA 3 1 0 true 5) = true ∧ legalAlu (tA 0 1 2 false 0) = true ∧ legalAlu (tA 31 31 31 false 0) = true :=
  ⟨test_run_issues, by decide⟩
theorem witness_ComparesAndPredicateLogicSetTheirPredicate : Issues tRun tHdr 8 ∧ legalCmp (tA 7 1 0 true 5) = true ∧ legalCmp (tA 0 1 2 false 0) = true ∧
    legalPred2 (tA 7 1 2 false 0) = true ∧ legalPred1 (tA 0 7 0 false 0) = true := ⟨test_run_issues, by decide⟩
theorem witness_RegisterLoadsWriteSd : Issues tRun tHdr 8 ∧ legalLi (tA 3 0 0 true 0x80000000) = true ∧ (legalTdGet (tA 3 15 0 true 1) && !isCtl tHdr.seq) = true ∧
    legalSrd (tA 0 0 0 true 9) = true := ⟨test_run_issues, by decide⟩
theorem witness_DescriptorsAndSpecialValuesAreWrittenAlone : Issues tRun tHdr 8 ∧ isCtl tHdr.seq = false ∧ legalTdSet (tA 15 1 2 false 0) = true ∧
    legalTdAdd (tA 0 1 0 true 0xFFFFFFFF) = true ∧ legalSwr (tA 0 1 0 true 8) = true ∧ legalSwr (tA 0 1 0 true 0) = true := ⟨test_run_issues, by decide⟩
theorem witness_BranchesJumpToAlignedTargets : Issues tRun tHdr 8 ∧ legalBr (tA 0 0 0 true 8) = true ∧ legalLi (tA 0 0 0 true 4) = true ∧ legalJr (tA 0 1 0 true 1) = true ∧
    ((tRun.core 0 0).pc + (8#32).signExtend 64).toNat % 8 = 0 ∧ ((tRun.core 0 0).pc + (4#32).signExtend 64).toNat % 8 ≠ 0 ∧
    (tRun.sreg 0 0 1 + (1#32).signExtend 64).toNat % 8 = 0 := ⟨test_run_issues, by decide⟩
theorem witness_IllegalFieldsFaultWhateverThePredicate : tRun.seqReady 0 0 = true ∧ tHdr.par = 0 ∧ (tRun.fetch 0 0 8).isSome = true ∧
    ∃ e ∈ scalarTable tHdr (tA 1 0 0 false 0) (tM 0 0 0 0), e.1 = .nop tHdr (tA 1 0 0 false 0) ∧ e.2.1 = 8 ∧ e.2.2.1 = false := by decide
theorem witness_ManagementOnACoreFaults : tRun.seqReady 0 0 = true ∧ tHdr.par = 0 ∧ isCtl tHdr.seq = false ∧ (tRun.fetch 0 0 8).isSome = true ∧
    ∃ e ∈ mgmtTable tHdr (tA 0 0 0 false 0), e.1 = .mgImage tHdr (tA 0 0 0 false 0) ∧ e.2.2.1 = true := by decide
theorem witness_NopsRetireAndEndEndsTheItem : tRun.seqReady 0 0 = true ∧ (tRun.preg 0 0 0 ^^ true) = false ∧ (tRun.fetch 0 0 24).isSome = true ∧
    (∃ e ∈ tensorTable { tHdr with pn := true } (tT 0) tL, e.2.1 = 24 ∧ e.2.2.1 = true ∧ e.2.2.2 = true) ∧ legalNone (tA 0 0 0 false 0) = true ∧ isCtl 0 = false := by decide
theorem witness_WindowsBoundEveryAccess : isCtl 0 = false ∧ tRun.seqResolve 0 0 0 4088 8 .rd = some 0x010040000FF8 ∧ tRun.seqResolve 0 0 0 4089 8 .rd = none ∧
    tRun.seqResolve 0 0 1 0 1 .rd = none := by decide
theorem witness_LoadsAndStoresUseTheirWindow : Issues tRun tHdr 8 ∧ legalM tHdr.seq (tM 0 0 0 0) = true ∧ legalM tHdr.seq (tM 31 1 3 0xFFF) = true ∧
    tRun.seqResolve 0 0 0 (((tRun.sreg 0 0 0).toInt + (4088 : BitVec 32).toInt)) 8 .wr = some 0x010040000FF8 ∧
    tRun.seqResolve 0 0 0 (((tRun.sreg 0 0 1).toInt + (0 : BitVec 32).toInt)) 2 .rd = some 0x010040000007 ∧
    tRun.seqResolve 0 0 0 (((tRun.sreg 0 0 1).toInt + (0xFFFFFFF8 : BitVec 32).toInt)) 1 .rd = none ∧
    coreSpaceOf 0x010040000FF8 = some (0, 0xFF8) ∧ 0xFF8 % 32 + 8 ≤ (32 : Nat) ∧ coreSpaceOf 0x0100400BFFF8 = some (0, 0xBFFF8) := ⟨test_run_issues, by decide⟩
/-- A dispatched HMERGE of item 0, or another operation, with its wait list. -/
def tQ (op : UOp) (wait : Word) (ss : Word) : QEntry :=
  { op := op, item := some 0, pc := 0, t := tT 0, x := { sa := 0, win := 0, ch := 0, rsv := 0 }, wait := wait, post := 0, tdd := 0, tda := 0, tdb := 0, tdc := 0,
    ss := ss, seed := 0, words := [], late := none }

/-- `tSem` with an instruction at the head of a unit's queue. -/
def tHead (unit : Nat) (e : QEntry) : State := tSem.modCore 0 0 (fun c => { c with queues := [(unit, [e])] })

set_option maxRecDepth 4000 in
theorem witness_SemaphoresAreTakenOrWaitedFor : Issues tSem tHdr 8 ∧ legalY 0 0 true true false false (tY 0 4 3) = true ∧ legalY 0 7 true true false false (tY 7 4 0) = true ∧
    tSem.countY 0 0 (tY 0 4 0) = 0 ∧ tSem.countY 0 0 (tY 0 4 3) ≤ (tSem.nameSem 0 0 4).semLeft 0 0 4 ∧ (tSem.nameSem 0 0 4).semLeft 0 0 4 < tSem.countY 0 0 (tY 0 4 4) ∧
    ((tStall (.semWait 4 3)).core 0 0).blocked = .semWait 4 3 ∧ (tStall (.semWait 4 3)).stallReady 0 0 = true ∧ 3 ≤ (tStall (.semWait 4 3)).semLeft 0 0 4 ∧
    (tStall (.semWait 4 4)).semLeft 0 0 4 < 4 ∧ (tSem.core 0 0).queues = [] ∧ (∀ x < 6, ((tHead 6 (tQ .drayPause 0x0402 0)).core 0 0).queue x = []) ∧
    ((tHead 6 (tQ .drayPause 0x0402 0)).core 0 0).queue 6 = tQ .drayPause 0x0402 0 :: [] ∧ (tHead 6 (tQ .drayPause 0x0402 0)).headReady 0 0 6 (tQ .drayPause 0x0402 0) = true ∧
    (tHead 6 (tQ .drayPause 0x0402 0)).startFaults 0 0 (tQ .drayPause 0x0402 0) = false ∧ (tHead 6 (tQ .drayPause 0x0402 0)).semLeft 0 0 4 = 1 := ⟨test_sem_issues, by decide⟩
theorem witness_SemaphoreSetUp : Issues tPair tHdr 8 ∧ legalY 0 0 true true false false (tY 0 6 1) = true ∧ ((tPair.core 0 0).pairOf 6).isSome = false ∧
    legalY 0 31 true false false false { tY 31 9 0 with im := false } = true ∧ legalY 0 0 true false false false { tY 0 8 0 with im := false } = true ∧
    ((tPair.core 0 0).pairOf 8).isSome = true ∧ tPair.semv 0 0 8 = 0 ∧ tPair.semv 0 0 9 = (tPair.pairAt 0 0 8).total ∧ (tPair.pairAt 0 0 8).held = 0 ∧
    (tPair.pairAt 0 0 8).infl = 0 ∧ Issues tSem tHdr 8 ∧ (tSem.pairAt 0 0 8).held ≠ 0 := ⟨test_pair_issues, by decide, by decide, by decide, by decide, by decide, by decide, by decide, by decide, by decide, test_sem_issues, by decide⟩
theorem witness_SemPairDeclaresItsPair : Issues tSem tHdr 8 ∧ legalY 0 0 true true false false (tY 0 254 65535) = true ∧ tSem.countY 0 0 (tY 0 254 65535) = 65535 ∧
    ((tSem.core 0 0).pairOf 254).isSome = false ∧ ((tSem.core 0 0).pairOf 8).isSome = true ∧ ((tSem.core 0 0).pairOf 9).isSome = true ∧ tSem.countY 0 0 (tY 0 254 0) = 0 :=
  ⟨test_sem_issues, by decide⟩

/-- A post to semaphore 4 of core 1 of die 0. -/
def tYr (scope : BitVec 2) (core : BitVec 7) : FmtY := { tY 0 4 1 with scope := scope, tcore := core }

/-- A post in transit. -/
def tPost (sem count : Nat) (dropped : Bool) : Post := { src := 1, dst := 0, seq := 0, sem := sem, count := count, sender := 0, tag := 0, chan := none, dropped := dropped }

/-- `tSem` with die 1 fenced, which is on the route from die 0 to die 5. -/
def tFence : State := tSem.modDie 1 (fun x => { x with fenced := true })

theorem witness_PostsAreAppliedOrSentAndArriveInOrder : Issues tSem tHdr 8 ∧ legalY 0 0 true true false true (tY 0 4 1) = true ∧ legalY 0 0 true true false true (tYr 1 1) = true ∧
    tSem.postFits 0 0 4 1 ∧ tSem.postFits 0 0 8 1 ∧ ¬ tSem.postFits 0 0 8 2 ∧ (tSem.coreExists 0 1 && tSem.dieUp 0 && tSem.routeOk 0 0) = true ∧ tSem.coreExists 0 127 = false ∧ tSem.dieUp 5 = true ∧ tSem.routeOk 1 0 = true ∧
    tFence.dieUp 5 = true ∧ tFence.routeOk 0 5 = false ∧ ({ tSem with posts := [tPost 4 1 false] } : State).posts = [] ++ tPost 4 1 false :: [] ∧
    (∀ x ∈ ([] : List Post), ¬ (x.src = 1 ∧ x.dst = 0)) ∧ 65535 < tSem.semv 0 0 4 + (tPost 4 65533 false).count ∧ (tSem.pairAt 0 0 8).held < (tPost 9 2 false).count ∧
    (tSem.core 0 0).pairOf 9 = some 8 :=
  ⟨test_sem_issues, by decide, by decide, ⟨by decide, by decide⟩, ⟨by decide, by decide⟩, fun h => absurd (h.1 8 (by decide)) (by decide), by decide, by decide, by decide, by decide, by decide, by decide, by decide⟩

/-- `tLease` with counter 5 set to hand out tiles 0 to 3, and a LEASE.TAKE of core 0 waiting at it. -/
def tTake : State :=
  let s := (tLease [2]).modCore 0 0 (fun c => { c with blocked := .leaseTake 5 3 (BitVec.allOnes 64), takes := [{ ctr := 5, item := some 0, entry := ((tLease [2]).item 0).entry, runlen := BitVec.allOnes 64 }] })
  s.wr (WORK_CTR_NEXT_LIMIT 0 5) 4

theorem witness_LeasesAreTakenFromTheirCounter : Issues (tLease [2]) tHdr 8 ∧ isCtl 0 = false ∧ (tLease [2]).curItem 0 0 = some 0 ∧
    legalY 0 31 false true false false (tYk 31 5) = true ∧ ((tLease [2]).item 0).entry.leased = true ∧ (tLease [2]).countY 0 0 (tYk 31 5) = ((tLease [2]).item 0).entry.counter ∧
    ((tLease [2]).item 0).leases.length < 8 ∧ (tLease [2]).countY 0 0 (tYk 31 6) ≠ ((tLease [2]).item 0).entry.counter ∧ (tRun.item 0).entry.leased = false ∧
    8 ≤ ((tLease [0, 1, 2, 3, 4, 5, 6, 7]).item 0).leases.length ∧ legalY 0 7 false false true false { tY 7 0 0 with sa := 1, im := false } = true ∧
    (tTake.core 0 0).takes = [{ ctr := 5, item := some 0, entry := ((tLease [2]).item 0).entry, runlen := BitVec.allOnes 64 }] ∧ ((tLease [2]).item 0).entry.counter < 1024 ∧ (tTake.core 0 0).blocked = .leaseTake 5 3 (BitVec.allOnes 64) ∧ tTake.curItem 0 0 = some 0 ∧
    (tTake.item 0).st = .running ∧ (tTake.item 0).retAll = false ∧ tTake.dieUp 0 = true ∧ tTake.tilesLeft 0 5 = [0, 1, 2, 3] :=
  ⟨⟨by decide, by decide, rfl, by decide⟩, by decide⟩

/-- A LEASE.DONE of tile `t` into p1, of a leased item that holds tile 2, and of one of an implicit range of tiles 4 to 6. -/
def tDone (t : Nat) : State := (tLease [2]).modCore 0 0 (fun c => { c with blocked := .leaseDone t 1 })

/-- A LEASE.DONE of tile `t` of an item of the implicit range of tiles 4 to 6. -/
def tImplicit (t : Nat) : State :=
  (tRun.modItem 0 (fun i => { i with entry := { i.entry with first := 4, count := 3 } })).modCore 0 0 (fun c => { c with blocked := .leaseDone t 1 })

theorem witness_LeaseReportsAreJudged : ((tDone 2).core 0 0).blocked = .leaseDone 2 1 ∧ (tDone 2).curItem 0 0 = some 0 ∧ (tDone 2).stallReady 0 0 = true ∧
    (tDone 2).itemBusy 0 0 0 = false ∧ ((tDone 2).item 0).entry.leased = true ∧ 2 ∈ ((tDone 2).item 0).leases ∧ 9 ∉ ((tDone 9).item 0).leases ∧
    9 ∈ ((tDone 9).item 0).returned ∧ 3 ∉ ((tDone 3).item 0).returned ∧ (tDone 9).stallReady 0 0 = true ∧ ((tImplicit 6).item 0).entry.leased = false ∧
    ((tImplicit 6).item 0).entry.first ≤ 6 ∧ 6 < ((tImplicit 6).item 0).entry.first + ((tImplicit 6).item 0).entry.count ∧ 6 ∉ ((tImplicit 6).item 0).done ∧
    ((tImplicit 6).item 0).retAll = false ∧ (tImplicit 6).stallReady 0 0 = true := by decide

theorem witness_TickWaitParks : Issues tRun tHdr 8 ∧ legalY 0 31 false false false false { tY 31 0 0 with im := false } = true ∧ tRun.curItem 0 0 = some 0 ∧
    (tRun.item 0).leases = [] ∧ Issues (tLease [2]) tHdr 8 ∧ ((tLease [2]).item 0).leases ≠ [] ∧ Issues tRun tCtl 8 ∧ isCtl tCtl.seq = true ∧
    legalY 96 31 false false false false { tY 31 0 0 with im := false } = true :=
  ⟨test_run_issues, by decide, by decide, by decide, ⟨by decide, by decide, rfl, by decide⟩, by decide, test_control_issues, by decide⟩

theorem witness_LongInstructionsJoinTheirQueue : Issues tRun tHdr 24 ∧ legalLists 0 tL = true ∧ legalX 0 true true { sa := 31, win := 3, ch := 3, rsv := 0 } = true ∧
    legalX 96 false false { sa := 0, win := 0, ch := 31, rsv := 0 } = true ∧ (opxMma 0 && tensorRest tHdr true true (tT 0) tL) = true ∧
    (opxPred 3 (tT 3).opx && tensorRest tHdr false false (tT 3) tL) = true ∧ (opxVop 0 && tensorRest tHdr false false (tT 0) tL) = true ∧
    (opxHand (tT 0).opx && tensorRest tHdr false false (tT 0) tL) = true := ⟨test_run_issues_long, by decide⟩

theorem test_reached_job : Reached State.reset (.host false 0) RegId.JOB_CTRL.addr := by constructor <;> decide
theorem test_reached_firmware : Reached tRun (.firmware 0) RegId.JOB_CTRL.addr := by constructor <;> decide
theorem test_reached_smbus : Reached State.reset .smbus RegId.LAMP_PWR.addr := by constructor <;> decide

/-- A state whose link 1 of die 0 (fleet port 6) and link 0 of die 2 (East) stand in a state of R422, with 16 lanes. -/
def tLink (st : Nat) : State :=
  ((((State.reset.wr (LINK_STATUS_STATE 0 1) st).wr (LINK_STATUS_ACTIVE 0 1) 16).wr (LINK_STATUS_STATE 2 0) st).wr (LINK_STATUS_ACTIVE 2 0) 16).wr (LINK_CFG_ENABLE 2 0) 1

/-- The link of `tLink` changed. -/
def tLinkIs (f : Link → Link) : State := (tLink 2).modLink 2 0 f

/-- A request that awaits its answer. -/
def tAsk : Req := { type := 0, p := tP 1 8 0, data := [] }

theorem witness_RegisterReadsAnswerAndClear : Reached State.reset (.host false 0) RegId.JOB_CTRL.addr ∧ Reached State.reset .smbus RegId.LAMP_PWR.addr ∧
    mboxWord (modReg 0x2100) = some 0 ∧ Reached State.reset .smbus (modReg 0x21F8) ∧ mboxWord RegId.JOB_CTRL.addr = none ∧
    State.reset.regAt RegId.JOB_CTRL.addr = some .JOB_CTRL ∧ mboxWord (modReg 0x2200) = none ∧
    State.reset.passesOn (.host false 0) (tP 0 8 0) = false ∧ State.reset.linkOf (.firmware 0) = none ∧ (tLink 2).linkOf (.packet 2 0 (tP 1 8 0)) = some (2, 0) ∧
    (tLink 2).forHere (tP 1 8 0) = false ∧ (tLink 2).passesOn (.packet 2 0 (tP 0 8 0)) (tP 0 8 0) = false :=
  ⟨test_reached_job, test_reached_smbus, by decide, by constructor <;> decide, by decide⟩

theorem witness_RegisterWritesFollowTheirLatchClass : Reached State.reset (.host false 0) (RegId.LAMP_RULE_CTL 19).addr ∧ mboxWord (RegId.LAMP_RULE_CTL 19).addr = none ∧
    State.reset.regAt (RegId.LAMP_RULE_CTL 19).addr = some (.LAMP_RULE_CTL 19) ∧ (RegId.LAMP_RULE_CTL 19).quiet = true ∧ ruleLocked (.LAMP_RULE_CTL 19) = true ∧
    ruleLocked (.LAMP_RULE_CTL 20) = false ∧ ruleLocked (.SPAD_WIN 0 0 0) = false ∧ (RegId.SPAD_WIN 0 0 0).quiet = true ∧
    Reached State.reset (.host false 0) (RegId.SPAD_WIN 7 0 3).addr ∧ State.reset.regAt (RegId.SPAD_WIN 7 0 3).addr = some (.SPAD_WIN 7 0 3) ∧
    mboxWord (RegId.SPAD_WIN 7 0 3).addr = none ∧
    State.reset.passesOn (.host false 0) (tP 0 8 0) = false :=
  ⟨by constructor <;> decide, by decide, by decide, by decide, by decide, by decide, by decide, by decide, by constructor <;> decide, by decide⟩

theorem witness_JobOrdersWaitForTheTick : Reached State.reset (.host false 0) RegId.JOB_CTRL.addr ∧ Issues tRun tCtl 8 ∧ legalNone (tA 0 0 0 false 0) = true ∧ isCtl tCtl.seq = true ∧
    Reached tRun (.firmware tCtl.die) RegId.JOB_CTRL.addr := ⟨test_reached_job, test_control_issues, by decide, by decide, test_reached_firmware⟩

/-- `tRun` whose control core 0 holds the address of JOB_CTRL in s1. -/
def tMg : State := tRun.modCore 0 96 (fun c => { c with s := [(1, BitVec.ofNat 64 RegId.JOB_CTRL.addr)] })

theorem witness_ManagementAccessesAreRegisterAccesses : Issues tMg tCtl 8 ∧ isCtl tCtl.seq = true ∧ RegId.JOB_CTRL.addr = (tMg.sreg 0 96 1 + sextImm 0).toNat ∧
    Reached tMg (.firmware 0) RegId.JOB_CTRL.addr ∧ legalMgRd (tA 3 1 0 true 0) = true ∧ legalMgWr (tA 0 1 2 false 0) = true :=
  ⟨⟨by decide, by decide, rfl, by decide⟩, by decide, by decide, by constructor <;> decide, by decide⟩

theorem witness_ReadyStartsValidationAndGoSubmits : Reached State.reset (.host true 0) (RegId.TT_CTRL 7).addr ∧ State.reset.rd (TT_CTRL_READY 7) = 0 ∧
    Reached State.reset (.host false 0) RegId.JOB_SUBMIT.addr ∧ State.reset.rd JOB_STATUS_STATE = 0 :=
  ⟨by constructor <;> decide, by decide, by constructor <;> decide, by decide⟩

theorem witness_QueueRegistersReleaseWhatIsHeld : Reached State.reset (.host false 0) (RegId.DRAY_CQ_CTL 7 63).addr ∧ Reached State.reset (.host false 0) (RegId.DRAY_CQ_PTR 0 0).addr ∧
    Reached State.reset (.host false 0) RegId.EVRING_CTL.addr ∧ Reached State.reset (.host false 0) RegId.EVRING_PTR.addr ∧ 0 ∉ (State.reset.die 0).cqHolding ∧ State.reset.ringHold = [] :=
  ⟨by constructor <;> decide, by constructor <;> decide, by constructor <;> decide, by constructor <;> decide, by decide⟩

/-- The reset state with a full retirement list of die 7. -/
def tFull : State := { State.reset with lamp := { lampReset with retire := [(7, List.replicate 256 0)] } }

theorem tFull_retire : tabGet tFull.lamp.retire 7 [] = List.replicate 256 0 := rfl

theorem witness_MailboxCommandsAnswer : Reached State.reset .smbus RegId.MBOX_CMD.addr ∧ State.reset.rd MBOX_STATUS_BUSY = 0 ∧ 0x707 / 256 < State.reset.fuses.dies ∧ 0x707 % 256 < 8 ∧
    State.reset.fuses.dies ≤ 0x800 / 256 ∧ 8 ≤ 0x708 % 256 ∧ (tabGet State.reset.lamp.retire 7 []).length < 256 ∧
    256 ≤ (tabGet tFull.lamp.retire 7 []).length := ⟨by constructor <;> decide, by decide, by decide, by decide, by decide, by decide, by decide, by rw [tFull_retire, List.length_replicate]⟩

theorem witness_LampCommandsReachTheLamp : Reached State.reset .smbus RegId.LAMP_PWR.addr ∧ State.reset.rd LAMP_PWR_BUSY = 0 ∧ Reached State.reset .smbus RegId.LAMP_CAL.addr ∧
    Reached State.reset (.host false 0) (RegId.LAMP_FILT 63).addr ∧ Reached State.reset (.host false 0) (RegId.LAMP_RULE_CTL 127).addr ∧ State.reset.lamp.auxIn = true ∧
    ¬ Reached State.reset .smbus RegId.JOB_CTRL.addr :=
  ⟨test_reached_smbus, by decide, by constructor <;> decide, by constructor <;> decide, by constructor <;> decide, rfl, fun h => absurd (h.smbus rfl).2 (by decide)⟩

theorem witness_AttestationOrdersRunOrAreRefused : Reached State.reset (.host false 0) RegId.ATT_CTRL.addr ∧ State.reset.rd ATT_STATUS_BUSY = 0 ∧
    State.reset.accessOk 0 18304 = true ∧ 0 % 64 = 0 ∧ 1 % 64 ≠ 0 ∧ State.reset.accessOk 0x00FFFFFFFFC0 64 = true ∧ State.reset.accessOk 0x00FFFFFFFFC0 18304 = false ∧
    ({ State.reset with fw := { fwReset with attest := some (1, 64, 8) } } : State).fw.attest = some (1, 64, 8) ∧ State.reset.fw.attest = none :=
  ⟨by constructor <;> decide, by decide⟩

/-- The reset state with an image at 0 that fits the format of the fuses. -/
def tTrial : State := State.reset.wr FW_STATUS_TRIAL 1

theorem witness_FirmwareOrdersRunOrAreRefused : Reached State.reset (.host false 0) RegId.FW_CTRL.addr ∧ State.reset.rd FW_STATUS_BUSY = 0 ∧ State.reset.rd FW_STATUS_TRIAL = 0 ∧
    Reached tTrial (.host false 0) RegId.FW_CTRL.addr ∧ tTrial.rd FW_STATUS_BUSY = 0 ∧ tTrial.rd FW_STATUS_TRIAL = 1 ∧ tTrial.rd MODULE_STATUS_STAGE ≠ 15 ∧
    (1 : Nat) % 4096 ≠ 0 ∧ State.reset.accessOk 4096 (0 + 29792) = true :=
  ⟨by constructor <;> decide, by decide, by decide, by constructor <;> decide, by decide⟩

theorem witness_UpdatesEndWithATrialOrLeaveTheDescriptor : State.reset.fw.update = none ∧ ({ State.reset with fw := { fwReset with update := some (1, 4096) } } : State).fw.update = some (1, 4096) ∧
    (({ State.reset with fw := { fwReset with update := some (1, 4096) } } : State).rd MODULE_STATUS_STAGE ≠ 15) := by decide

/-- `tRun` whose control core 0 holds a fence order of `kind`, code and index in s1, for die 0. -/
def tOrder (kind code i : Nat) : State := tRun.modCore 0 96 (fun c => { c with s := [(1, BitVec.ofNat 64 (code + 4 * kind + 65536 * i))] })

/-- A region whose slot 0 stands at 0x10000 and which is shard 0 of die 0. -/
def tShard : State :=
  { State.reset with regions := [(0, { regionNone with slot0 := 0x10000, slot1 := 0x20000, size := 0x1000, mirror := true, live := false })] }.setBytes (shardTable 0 + 6) [1]

theorem witness_ManagementRaisesEventsAndGivesOrders : Issues tRun tCtl 8 ∧ isCtl tCtl.seq = true ∧ legalMgEvent (tA 0 1 0 true 202) = true ∧ eventListed 202 = true ∧
    Issues (tOrder 6 0 0) tCtl 8 ∧ legalMgFence (tA 0 1 0 false 0) = true ∧ ((tOrder 6 0 0).sreg 0 96 1).toNat = 24 ∧ (tOrder 6 0 0).dieUp 0 = true ∧ (tOrder 6 0 0).routeOk 0 0 = true ∧
    ((tOrder 7 0 0).sreg 0 96 1).toNat / 4 % 16 = 7 ∧ (0, 3, 95, 95 % tRun.nCores) = (0, 3, 95, (95 : Nat)) ∧ tRun.linkThere 0 0 = true ∧ tRun.portPeer 0 2 = some 4 ∧
    (415 : Nat) % (32 + 4 * tRun.nCores) = 415 ∧ (State.reset.core 0 0).parked = false ∧ ((State.reset.modCore 0 0 (fun x => { x with parked := true })).core 0 0).parked = true ∧
    eventListed 150 = true ∧ ((tOrder 6 3 0).sreg 0 96 1).toNat % 4 = 3 ∧ (tRun.modDie 0 (fun x => { x with fenced := true })).dieUp 0 = false ∧
    (tFence.routeOk 0 5 = false) ∧ tRun.shardAt 0 0 = none ∧ tShard.shardAt 0 0 = some 0x10000 ∧ tRun.portPeer 0 3 = none :=
  ⟨test_control_issues, by decide, by decide, by decide, ⟨by decide, by decide, rfl, by decide⟩, by decide⟩

/-- An instruction that a unit of core 0 has started, before which memory held nothing, or what is given. -/
def tGo (op : UOp) (before : Memory) : Running :=
  { e := tQ op 0 0, res := { writes := [], group := none, counts := [], events := [], cycles := 1 }, replays := 0, start := 0, before := before }

/-- `tSem` in which the instruction of a unit of core 0 has started. -/
def tStarted (unit : Nat) (op : UOp) : State := tSem.modCore 0 0 (fun c => { c with running := [(unit, tGo op tSem.mem)] })

theorem witness_UnitsStartTheirHead : (tSem.core 0 0).queue 6 = [] ∧ ((tHead 6 (tQ .drayGo 0 0)).core 0 0).queue 6 = [tQ .drayGo 0 0] ∧
    (tHead 6 (tQ .drayGo 0 0)).canStart 0 0 6 (tQ .drayGo 0 0) = true ∧ (match (tHead 6 (tQ .drayGo 0 0)).goAt 0 0 (tQ .drayGo 0 0) with
      | .ok a => decide (a = 0x010040000000)
      | .error _ => false) = true ∧ (match (tHead 6 (tQ .drayGo 0 8)).goAt 0 0 (tQ .drayGo 0 8) with
      | .ok _ => false
      | .error _ => true) = true ∧ (tHead 6 (tQ .drayPause 0 0)).canStart 0 0 6 (tQ .drayPause 0 0) = true ∧
    (match (tHead 6 (tQ .drayPause 0 0)).startPlan 0 0 (tQ .drayPause 0 0) with
      | .ok _ => true
      | .error _ => false) = true ∧ tSem.semv 0 0 5 < slotSum 0x0501 5 ∧ tSem.semv 0 0 4 < slotSum 0x0402000004020000 4 ∧
    (tSem.modCore 0 0 (fun c => { c with queues := [(4, [tQ .hmerge 0 0]), (6, [tQ .drayGo 0 0])] })).headReady 0 0 4 (tQ .hmerge 0 0) = true ∧
    ((tSem.modCore 0 0 (fun c => { c with queues := [(4, [tQ .hmerge 0 0]), (6, [tQ .drayGo 0 0])] })).core 0 0).queue 6 = tQ .drayGo 0 0 :: [] ∧
    (∃ r ∈ ((tStarted 6 .drayPause).core 0 0).running, r.1 = 6) ∧ tSem.replayMax 0 0 < 16 ∧
    (match (tHead 4 (tQ .hmerge 0 0)).startPlan 0 0 (tQ .hmerge 0 0) with
      | .ok _ => false
      | .error _ => true) = true ∧ (tHead 4 (tQ .hmerge 0 0)).canStart 0 0 4 (tQ .hmerge 0 0) = true := by decide


/-- A descriptor that moves two words of 4 B from 0x1000 to 0x2000, with the given stream; `w6` gives its widths and its operation. -/
def tRaw (w6 : Word) (stream : Word) : List Word := [0x1000, 0x2000, 0x0000000400000004, 0, 0, 0x10001, w6, stream <<< 48]

/-- A run of a descriptor, not started. -/
def tDRun (raw : List Word) : DRun :=
  { raw := raw, seq := 1, owner := none, by_ := 0, post := 0, frame := 0, started := false, credit := false, stage := false, rd := 0, ret := 0, wi := 0, wr := 0,
    hold := [], tile := [], flags := [], phase := 0, tix := 0, plan := [], sent := [], aux := none, gap := false, ahead := [], again := [], accessed := false, readBack := false, bytes := 0, lastAddr := 0, late := none, prior := false, status := none }

/-- A state in which channel 0 of die 0 runs the given descriptors. -/
def tChan (rs : List DRun) : State := State.reset.modChan 0 0 (fun c => { c with st := .running, q := rs })

/-- A run of a simple move. -/
def tMove : DRun := tDRun (tRaw 0x0303 0xFFFF)

/-- Core 0 of die 0 holds group 0 open, with an overflow. -/
def tGroup : State := State.reset.modCore 0 0 (fun c => { c with groups := [(0, { groupReset with isOpen := true, ovf := true, held := [3] })] })

theorem witness_UnitsCompleteTheirInstruction : (∀ r ∈ (tSem.core 0 0).running, r.1 ≠ 4) ∧
    ((tStarted 4 .hmerge).core 0 0).running.find? (fun r => decide (r.1 = 4)) =
      some (4, tGo .hmerge tSem.mem) ∧
    (tStarted 4 .hmerge).dieUp 0 = true ∧ ((tStarted 4 .hmerge).core 0 0).fenced = false ∧ ((tStarted 4 .hmerge).core 0 0).heldFull = false ∧
    (tStarted 4 .hmerge).effectIn 0 (unitChan 0 4) .hmerge = true ∧ 0 ≤ (tStarted 4 .hmerge).replayMax 0 0 ∧
    ((tStarted 6 .drayCancel).modChan 0 32 (fun c => { c with q := [] })).effectIn 0 (unitChan 0 6) .drayCancel = true ∧
    (tStarted 4 .hmerge).replayMax 0 0 < 16 ∧ (tStarted 6 .drayPause).effectIn 0 (unitChan 0 6) .drayPause = true ∧ (tChan [tMove]).effectIn 0 0 .drayCancel = false ∧
    tSem.operandsChanged 0 0 (tGo .hmerge tSem.mem) = false ∧ (tabGet (State.reset.core 0 0).groups 0 groupReset).isOpen = false ∧ (tabGet (tGroup.core 0 0).groups 0 groupReset).isOpen = true := by decide

/-- A state whose work item 0 of core 0 stands as given; the core runs it where it is running, ended or parked without context. -/
def tItem (st : ItemSt) (ctx : Option Ctx) (cur : Option Nat) : State :=
  (State.reset.modItem 0 (fun i => { i with st := st, ctx := ctx, due := true })).modCore 0 0 (fun c => { c with cur := cur })

/-- A saved context that resumes at 8 and puts the frame into s2. -/
def tCtx : Ctx := { pc := 8, s := [(3, 1)], td := [], p := 0, runlen := 0, seed := 0, groups := [], sd := 2 }

theorem witness_WorkItemsStartResumeAndEnd : ((tItem .waiting none none).item 0).st = .waiting ∧ (tItem .waiting none none).runsOn 0 0 = some 0 ∧
    (tItem .waiting none none).itemTurn 0 0 0 = true ∧ ((tItem .waiting none none).modCore 0 0 (fun c => { c with fenced := true })).runsOn 0 0 = some 1 ∧
    ((tItem .parked (some tCtx) none).item 0).ctx = some tCtx ∧ ((tItem .parked (some tCtx) none).item 0).st = .parked ∧ ((tItem .parked (some tCtx) none).item 0).due = true ∧
    (tItem .parked (some tCtx) none).itemTurn 0 0 0 = true ∧ ((tItem .ended none (some 0)).core 0 0).cur = some 0 ∧ (tItem .ended none (some 0)).itemBusy 0 0 0 = false ∧
    (tItem .ended none (some 0)).dieUp 0 = true ∧ ((tItem .ended none (some 0)).item 0).st = .ended ∧ ((tItem .parked none (some 0)).core 0 0).cur = some 0 ∧
    ((tItem .parked none (some 0)).item 0).st = .parked ∧ (tItem .parked none (some 0)).itemBusy 0 0 0 = false ∧
    (tItem .running none (some 0)).itemTurn 0 0 0 = false ∧ (tItem .complete none none).itemTurn 0 0 1 = true ∧
    (tItem .waiting none none).itemTurn 0 0 8 = false ∧ (tItem .waiting none none).itemTurn 0 0 1 = false ∧ ((tItem .parked (some tCtx) none).modCore 0 0 (fun c => { c with fenced := true })).coreOut 0 0 = true ∧
    ((tItem .parked (some tCtx) none).modCore 0 0 (fun c => { c with fenced := true })).itemTurn 0 1 0 = true ∧ (tItem .waiting none none).frame.inHold = false ∧
    (∀ e ∈ (tItem .waiting none none).cores, ∀ a ∈ e.2.takes, a.item ≠ some 0) ∧ ((tItem .ended none (some 0)).core 0 0).groups.filter (fun g => g.2.isOpen) = [] ∧
    (tGroup.core 0 0).groups.filter (fun g => g.2.isOpen && !(tGroup.core 0 0).busyGroups.contains g.1) = (tGroup.core 0 0).groups := by decide

/-- A state within a hold, of a module whose part in its team, whose job and whose IN_HOLD are given. -/
def tHold (team job : Nat) (hold : Bool) : State :=
  let s := (State.reset.wr TEAM_STATUS_STATE team).wr JOB_STATUS_STATE job
  { s with frame := { s.frame with inHold := hold } }

theorem witness_TicksBeginTheHoldWithAReport : (tHold 2 2 true).frame.inHold = true ∧ (tHold 2 2 false).frame.inHold = false := by decide

/-- A report without a cause, or with one. -/
def tReport (causes : BitVec 5) : Report := { pos := 0, causes := causes, cap := 16, opt := [], level := 0, pause := 0, resume := false, image := false, restored := false }

/-- A normal verdict. -/
def tVerdict : Verdict := { kind := .normal, causes := 0, cap := 16, nextTick := 0, seq := none, optSplit := false, image := false, lost := [], openSlot := none }

/-- A state whose module serves manifest format 1, with a manifest of 128 B at 0: FRAME_LEN 64, SLIP_LIMIT 1, no region and no table, and its CRC. -/
def tManifest : State :=
  ((((((((State.reset.setWord .MODULE_VERSIONS 0x0101010101).setByte 0 1).setByte 4 128).setByte 8 64).setByte 10 1).setByte 52 22).setByte 53 234).setByte 54 192).setByte 55 175

theorem witness_VerdictsAreSentAndApplyAtCycleH : (tHold 3 2 false).frame.inHold = false ∧ (tHold 3 2 true).rd TEAM_STATUS_STATE = 3 ∧ (tHold 3 2 true).frame.inHold = true ∧
    (tHold 3 2 true).team.verdict = none ∧ (tHold 3 2 true).rd JOB_STATUS_STATE = 2 ∧ (tHold 3 2 true).allReports [tReport 0] = [tReport 0] ∧
    (tHold 3 2 true).lostIn [tReport 0] = [] ∧ (∀ r ∈ [tReport 0], r.pause = 0 ∧ r.level < 2 ∧ r.image = false) ∧ (∀ r ∈ [tReport 0], r.causes = 0) ∧
    (∃ r ∈ [tReport 1], r.causes ≠ 0) ∧ (tHold 3 2 true).rd FRAME_STATUS_SLIP_RUN < ((tHold 3 2 true).wr FRAME_CFG_SLIP_LIMIT 1).rd FRAME_CFG_SLIP_LIMIT ∧
    ((tHold 3 2 true).wr FRAME_CFG_SLIP_LIMIT 0).rd FRAME_CFG_SLIP_LIMIT ≤ (tHold 3 2 true).rd FRAME_STATUS_SLIP_RUN ∧
    (tHold 2 2 true).rd TEAM_STATUS_STATE = 2 ∧ (tHold 2 2 true).team.verdict = none := by decide

theorem witness_VerdictsAreSentAndApplyAtCycleH_pickup : (tManifest.wr JOB_SUBMIT_GO 1).rd JOB_SUBMIT_GO = 1 ∧ (tManifest.wr JOB_SUBMIT_GO 1).rd JOB_STATUS_STATE < 2 ∧
    (tManifest.wr JOB_SUBMIT_GO 1).dieUp (tManifest.wr JOB_SUBMIT_GO 1).lead = true ∧ (tManifest.wr JOB_SUBMIT_GO 1).rd MODULE_STATUS_SERVICE = 0 ∧
    (State.reset.wr MODULE_STATUS_SERVICE 1).rd MODULE_STATUS_SERVICE = 1 := by decide

set_option maxRecDepth 20000 in
theorem witness_VerdictsAreSentAndApplyAtCycleH_manifest : tManifest.manifestFail (tManifest.manifest 0) = none ∧
    State.reset.manifestFail (State.reset.manifest 0) = some 1 := by decide

/-- A state in which die 0 validates its staged Timetable, which holds no entry: format 1, ID 1 and its CRC. -/
def tTable : State :=
  let s := ((((((State.reset.setWord .MODULE_VERSIONS 0x0101010101).setByte (stagingBuf 0) 1).setByte (stagingBuf 0 + 4) 1).setByte (stagingBuf 0 + 16) 62).setByte
    (stagingBuf 0 + 17) 160).setByte (stagingBuf 0 + 18) 125).setByte (stagingBuf 0 + 19) 2
  s.modDie 0 (fun x => { x with validating := true })

set_option maxRecDepth 20000 in
theorem witness_ValidationEndsWithValidOrAFailCode : (tTable.die 0).validating = true ∧ tTable.dieUp 0 = true ∧ (tTable.die 1).validating = false ∧
    tTable.ttFail 0 = none ∧ State.reset.ttFail 0 = some 1 := by decide

/-- A state whose state image is written but for its end: a snapshot stands, IMAGE_STATUS is BUSY. -/
def tImage : State :=
  let s := State.reset.wr IMAGE_STATUS_BUSY 1
  { s with job := { s.job with snap := some { seq := 5, regs := [], cores := [], items := [], chans := [], rlists := [], regions := [], mirrors := [], links := [], ports := [], timetables := [] } } }

/-- A spare whose restore runs. -/
def tSpare : State :=
  let s := tManifest.wr TEAM_CFG_SPARE 1
  { s with job := { s.job with restoring := true } }

theorem witness_ImagesAreDoneAndSparesRestored : tImage.job.snap.isSome = true ∧ tImage.rd IMAGE_STATUS_BUSY = 1 ∧ tImage.job.imageAt = [] ∧ State.reset.job.snap = none ∧
    tImage.imageBase 0 % 256 = 0 ∧ tImage.retiredTo (tImage.imageBase 0 / 256) = none ∧ tSpare.job.restoring = true ∧ tSpare.rd TEAM_CFG_SPARE = 1 ∧ tSpare.regions = [] ∧
    tSpare.accessOk 0 64 = true ∧ State.reset.job.restoring = false ∧ (([(0, true)] : List (Nat × Bool)).map (fun x => x.1)).Nodup := by decide

/-- A state whose die 0 has an optimiser order armed with the squared norm `n`. -/
def tArm (n : Nat) : State := ((State.reset.wr (OPT_CTRL_NORMSQ 0) n).wr (OPT_CTRL_ARM 0) 1).wr (OPT_CFG_LIMITSQ 0) 4

theorem witness_OptimiserOrdersWaitAndCommitListsFlipMirrors : Reached State.reset (.host false 0) (RegId.OPT_CTRL 7).addr ∧ State.reset.rd (OPT_CTRL_ARM 0) = 0 ∧
    (tArm 5).rd (OPT_CTRL_ARM 0) = 1 ∧ (tArm 5).rd (OPT_STATUS_WINDOW 0) = 0 ∧ (tArm 5).rd (OPT_STATUS_HELD 0) = 0 ∧ (tArm 5).rd (OPT_CFG_LIMITSQ 0) < (tArm 5).rd (OPT_CTRL_NORMSQ 0) ∧
    2139095040 ≤ (tArm 0xFFC00000).rd (OPT_CTRL_NORMSQ 0) % 2 ^ 31 ∧ (tArm 4).rd (OPT_CTRL_NORMSQ 0) ≤ (tArm 4).rd (OPT_CFG_LIMITSQ 0) ∧
    (tHold 2 2 true).dieUp 0 = true ∧ (tHold 2 2 true).frame.inHold = true ∧ 0 = (tHold 2 2 true).frameSeq ∧
    ((State.reset.modDie 0 (fun x => { x with commitHeld := true })).die 0).commitHeld = true ∧ (State.reset.die 0).commitHeld = false :=
  ⟨by constructor <;> decide, by decide⟩

/-- A report of one replica's digest at level 3. -/
def tRoot (replica index : Nat) (digest mirror : BitVec 64) : RootReport := { replica := replica, step := 1, index := index, digest := digest, mirror := mirror }

/-- A Coachman that bisects shard 0 and compares level 0 next. -/
def tBisect : State := let s := tHold 3 2 false; { s with team := { s.team with bisect := [(0, 1, 1, [0])] } }

theorem witness_DigestsThatDifferAreBisectedAndRepaired : (tHold 2 2 false).rd TEAM_STATUS_STATE ≠ 3 ∧ (tHold 3 2 false).rd TEAM_STATUS_STATE = 3 ∧
    (∀ r ∈ [tRoot 0 0 1 1, tRoot 1 0 2 2], r.step ≤ 1) ∧ (∃ r ∈ [tRoot 0 0 1 1, tRoot 1 0 2 2], r.step = 1) ∧
    (∃ a ∈ [tRoot 0 0 1 1, tRoot 1 0 2 2], ∃ b ∈ [tRoot 0 0 1 1, tRoot 1 0 2 2], a.step = 1 ∧ b.step = 1 ∧ a.digest ≠ b.digest) ∧
    (∀ a ∈ [tRoot 0 0 1 1, tRoot 1 0 1 1], ∀ b ∈ [tRoot 0 0 1 1, tRoot 1 0 1 1], a.step = 1 → b.step = 1 → a.digest = b.digest) ∧
    tBisect.rd TEAM_STATUS_STATE = 3 ∧ tBisect.bisection 0 = some (1, 1, [0]) ∧ 1 = 0 + 1 ∧ (1 : Nat) ≠ 2 + 1 ∧
    ([tRoot 0 0 1 1, tRoot 1 0 1 1, tRoot 2 0 2 2] : List RootReport).length < 2 * ([tRoot 0 0 1 1, tRoot 1 0 1 1, tRoot 2 0 2 2].filter (fun x => decide (x.digest = 1))).length ∧
    badReplicas [tRoot 0 0 1 1, tRoot 1 0 1 1, tRoot 2 0 2 2] = [2] ∧ badReplicas [tRoot 0 0 1 1, tRoot 1 0 2 2] = [] := by decide

/-- A state whose ledger entry 0 of die 0 stands in a state of R454, for an event of core 3. -/
def tLedger (st number : Nat) : State := ((State.reset.wr (LEDGER_FRAME_STATE 0 0) st).wr (LEDGER_NUMBER 0 0) number).wr (LEDGER_CORE 0 0) 3

/-- A state in which die 1 takes the lead over. -/
def tTakeover : State := { State.reset with job := { jobReset with takeover := true } }

theorem witness_LedgerEntriesAreHandledAndDieOneTakesTheLead : Reached (tLedger 1 11) (.mgmt 0) (RegId.LEDGER_CTRL 0).addr ∧ (tLedger 1 11).rd (LEDGER_FRAME_STATE 0 0) = 1 ∧
    (∀ i < 64, (tLedger 1 11).rd (LEDGER_FRAME_STATE 0 i) ≠ 2) ∧ Reached (tLedger 2 83) (.mgmt 0) (RegId.LEDGER_CTRL 0).addr ∧ (tLedger 2 83).rd (LEDGER_FRAME_STATE 0 0) = 2 ∧
    (tLedger 3 83).rd (LEDGER_FRAME_STATE 0 0) = 3 ∧ (levelOf ((tLedger 3 83).rd (LEDGER_NUMBER 0 0))).2 = false ∧ (tLedger 3 83).entryDom 0 0 = .core 0 3 ∧
    (levelOf ((tLedger 3 64).rd (LEDGER_NUMBER 0 0))).2 = true ∧ Reached (tLedger 1 11) (.host false 0) (RegId.LEDGER_CTRL 0).addr ∧
    (State.reset.die 0).held = [] ∧ tTakeover.job.takeover = true ∧ tTakeover.dieUp 1 = true ∧ State.reset.job.takeover = false :=
  ⟨by constructor <;> decide, by decide, by decide, by constructor <;> decide, by decide, by decide, by decide, by decide, by decide, by constructor <;> decide, by decide⟩


/-- A run of a simple move that has started. -/
def tGoing (rd ret wi wr : Nat) : DRun := { tMove with started := true, rd := rd, ret := ret, wi := wi, wr := wr, hold := [1, 2, 3, 4] }

/-- Channel 0 of die 0 waits for a credit, with the empty semaphore of its pair at 1. -/
def tCredit : State :=
  ((((tChan [tDRun (tRaw 0x0303 5)]).modChan 0 0 (fun c => { c with waitCredit := true })).wr (DRAY_CH_SCFG_CORE 0 0) 2).wr (DRAY_CH_SCFG_PAIR 0 0) 8).modCore 0 2
    (fun c => { c with sem := [(9, 1)] })

/-- Channel 0 of die 0 waits for a tile stage; channel 1, less urgent, waits too. -/
def tStage : State := (tChan [tDRun (tRaw 0x010303 0xFFFF)]).modDie 0 (fun x => { x with stageWait := [0, 1] })

/-- A die that holds all its tile stages. -/
def tStages : State := (tChan [tDRun (tRaw 0x010303 0xFFFF)]).modDie 0 (fun x => { x with stages := List.range 16 })

theorem witness_DescriptorsAreCheckedAndTakeTheirCreditAndStage : (tChan [tMove]).chanExists 0 0 = true ∧ (tChan [tMove]).dieUp 0 = true ∧ (tChan [tMove]).nextRun 0 0 = some 0 ∧
    ((tChan [tMove]).chan 0 0).q[0]? = some tMove ∧ (tChan [tMove]).descFail 0 0 tMove.desc = none ∧ tMove.desc.stream = 0xFFFF ∧ tMove.desc.op = 0 ∧
    State.reset.descFail 0 0 (descOf (tRaw 0x0302 0xFFFF)) = some 2 ∧ State.reset.descFail 0 0 (descOf (tRaw 0x0303 5)) = some 3 ∧ State.reset.nextRun 0 0 = none ∧
    (tCredit.chan 0 0).waitCredit = true ∧ (tCredit.chan 0 0).live = true ∧ (tCredit.chan 0 0).pausing = false ∧ tCredit.rd (DRAY_CH_SCFG_CORE 0 0) = 2 ∧
    0 < tCredit.semv 0 2 (tCredit.rd (DRAY_CH_SCFG_PAIR 0 0) + 1) ∧ State.reset.semv 0 0 (State.reset.rd (DRAY_CH_SCFG_PAIR 0 0) + 1) = 0 ∧
    (descOf (tRaw 0x010303 0xFFFF)).tiled = true ∧ (tStage.die 0).stages.length < 16 ∧ 16 ≤ (tStages.die 0).stages.length ∧ 0 ∈ (tStage.die 0).stageWait ∧
    (tStage.die 0).stageWait.Pairwise (· < ·) ∧ (∀ m ∈ (tStage.die 0).stageWait, tStage.urgency 0 0 < tStage.urgency 0 m ∨ (tStage.urgency 0 0 = tStage.urgency 0 m ∧ 0 ≤ m)) := by decide

/-- A descriptor whose destination, or source, lies at position 1 of the own team. -/
def tFar (src : Bool) : List Word :=
  [if src then 0x0440000000001000 else 0x1000, if src then 0x2000 else 0x0440000000002000, 0x0000000400000004, 0, 0, 0x10001, 0x0303, 0xFFFF000000000000]

theorem witness_WritesAreAcceptedAndDataReturns : (tChan [tGoing 1 1 0 0]).writer 0 0 = some 0 ∧ ((tChan [tGoing 1 1 0 0]).chan 0 0).live = true ∧
    ((tChan [tGoing 1 1 0 0]).chan 0 0).q[0]? = some (tGoing 1 1 0 0) ∧ (tChan [tGoing 1 1 0 0]).dstFar (tGoing 1 1 0 0).desc = false ∧
    (tChan [{ tGoing 1 1 1 0 with raw := tFar false }]).dstFar (descOf (tFar false)) = true ∧ (tChan [{ tGoing 1 1 1 0 with raw := tFar false }]).writer 0 0 = some 0 ∧
    State.reset.writer 0 0 = none ∧ (tGoing 1 1 0 0).writeReady (tGoing 1 1 0 0).desc = true ∧
    (tGoing 1 1 0 0).nextWrite (tGoing 1 1 0 0).desc = (0x2000, [1, 2, 3, 4]) ∧ State.reset.reachable 0 0x2000 4 = true ∧ State.reset.reachable 0 0xFFFFFFFFFFFF 4 = false ∧
    State.reset.slotAt 0x2000 = none ∧ State.reset.storeBarred false 0x2000 4 = false ∧ (∀ j < 4, State.reset.place (0x2000 + j) = 0x2000 + j) ∧
    (tChan [{ tGoing 1 0 0 0 with raw := tFar true }]).srcFar (descOf (tFar true)) = true ∧ (descOf (tFar true)).sw = 4 ∧ (descOf (tFar true)).tiled = false := by decide

/-- A run whose record is due. -/
def tDue : DRun := { tGoing 2 2 2 2 with status := some (1, 2) }

/-- Channel 0 of die 0 with a record due for queue 0, which is enabled with 2 entries at 0x3000. -/
def tCq : State := (((tChan [tDue]).wr (DRAY_CQ_CTL_EN 0 0) 1).wr (DRAY_CQ_CTL_LOG2 0 0) 1).wr (DRAY_CQ_BASE_BASE 0 0) 0x3000

theorem witness_AccessesAreRetriedAndRecordsWritten : (tChan [tGoing 1 0 0 0]).chanExists 0 0 = true ∧ (tChan [tGoing 1 0 0 0]).dieUp 0 = true ∧ ((tChan [tGoing 1 0 0 0]).chan 0 0).st = .running ∧
    (tGoing 1 0 0 0).started = true ∧ (tGoing 1 0 0 0).status = none ∧ (tGoing 1 0 0 0).readBack = false ∧ (tGoing 1 0 0 0).ret < (tGoing 1 0 0 0).rd ∧
    (tGoing 1 0 0 0).desc.tiled = false ∧ (tChan [tGoing 1 0 0 0]).srcFar (tGoing 1 0 0 0).desc = false ∧ (tChan [{ tGoing 1 0 0 0 with raw := tFar true }]).srcFar (descOf (tFar true)) = true ∧
    ((tChan [tMove]).chan 0 0).retry < 3 ∧ 3 ≤ (((tChan [tMove]).modChan 0 0 (fun c => { c with retry := 3 })).chan 0 0).retry ∧
    ((tChan [{ tGoing 2 2 2 2 with readBack := true }]).chan 0 0).q = [{ tGoing 2 2 2 2 with readBack := true }] ∧ (State.reset.chan 0 0).q = [] ∧
    (tCq.chan 0 0).q = [tDue] ∧ tDue.status = some (1, 2) ∧ tDue.desc.cq = 0 ∧ tCq.cqTakes 0 0 = true ∧ State.reset.cqTakes 0 0 = false ∧ 0 ∉ (State.reset.die 0).cqHolding ∧
    tDue.accessed = false ∧ tDue.credit = false ∧ tDue.stage = false ∧ tDue.post = 0 ∧ (tCq.chan 0 0).lastAcc ≠ some tDue.seq ∧ tCq.accessOk 0x3000 32 = true ∧
    (∀ j < 32, tCq.place (0x3000 + j) = 0x3000 + j) := by decide

/-- A die with a cache region over the first GiB of its LPDDR6 in one slice. -/
def tCache : State :=
  (((State.reset.wr (DEPOT_REGION_KIND 0 0) 2).wr (DEPOT_REGION_LIMIT 0 0) 1).wr (DEPOT_REGION_COUNT 0 0) 1)

/-- `tCache` with line 0 in its set, clean or dirty, good or bad. -/
def tLine (dirty bad : Bool) : State := tCache.modDie 0 (fun x => { x with cache := [(0, { ways := [(3, { tag := 0, dirty := dirty, bad := bad })], plru := 0 })] })

/-- A request for line 0. -/
def tReq (len : Nat) (write : Bool) : MemReq := 
  { req := 0, addr := 0, len := len, write := write, remote := false, origin := some (0, 0), key := 5, high := false, arrived := 0, granted := false, fill := !write, refetch := false, parity := 0 }

theorem witness_MemoryRequestsTakeTagsAndFillLines : State.reset.dieUp 0 = true ∧ dieOf 0 = 0 ∧ State.reset.accessOk 0 256 = true ∧ (coreSpaceOf 0).isSome = false ∧
    State.reset.canServe 0 (tReq 256 true) [] = true ∧ ((State.reset.modDie 0 (fun x => { x with tagWait := [tReq 8 false] })).die 0).tagWait = [] ++ tReq 8 false :: [] ∧
    (State.reset.wr (DEPOT_REGION_KIND 0 0) 0).cacheAt 0 0 = none ∧ State.reset.cacheAt 0 0 = some (0, 32) ∧ tCache.cacheAt 0 0 = some (0, 1) ∧ (csetNone.find 0 = none) ∧ (tabGet ((tLine true false).die 0).cache 0 csetNone).find 0 = some 3 ∧
    (tLine false true).cacheAt 0 0 = some (0, 1) ∧ (State.reset.wr (DEPOT_STATUS_REPART 0) 1).rd (DEPOT_STATUS_REPART 0) = 1 ∧ State.reset.rd (DEPOT_STATUS_REPART 0) = 0 ∧
    ((tCache.modDie 0 (fun x => { x with reqs := [tReq 8 false] })).die 0).reqs = [] ++ tReq 8 false :: [] ∧
    State.reset.rd (RETIRE_VALID 0 0) = 0 ∧ (assocGet State.reset.pend (.RETIRE 0 0) pendNone).mask = 0 ∧ ((State.reset.modDie 0 (fun x => { x with scrub := [5] })).die 0).scrub = [5] ∧ 5 ∉ (State.reset.die 0).scrub := by decide

/-- A region with a mirror whose slot 0 stands at 0x10000. -/
def tRegion : State := { State.reset with regions := [(0, { regionNone with slot0 := 0x10000, slot1 := 0x20000, size := 0x1000, mirror := true })] }

theorem witness_MemoryRequestsTakeTagsAndFillLines_mirror : tRegion.slotAt 0x10000 = some (0, false, 0) ∧ (tRegion.region 0).mirror = true := by decide

theorem witness_MemoriesBecomeReady : State.reset.dieUp 7 = true ∧ (15 : Nat) < 16 ∧ State.reset.coreExists 0 0 = true ∧ State.reset.coreExists 0 127 = false ∧
    (State.reset.wr (DEPOT_STATUS_REPART 7) 1).rd (DEPOT_STATUS_REPART 7) = 1 ∧ State.reset.rd (DEPOT_STATUS_REPART 0) = 0 := by decide

theorem witness_PacketsAreServedOrSentOn : (tLink 2).linkHears 2 0 = true ∧ State.reset.linkHears 2 0 = false ∧ 0 < (tP 0 256 0).len ∧ (tP 0 256 0).len ≤ 256 ∧
    (tP 1 8 0).dstSlot.toNat ≠ (tLink 2).mySlot ∧ (tP 0 8 0).dstTeam.toNat = (tLink 2).myTeam ∧ (tP 0 8 0).dstSlot.toNat = (tLink 2).mySlot ∧
    (tLink 2).packetAddr (tP 0 8 0x1000) true = 0x1000 ∧ (tLink 2).reachable 2 0x1000 8 = true ∧ (tLink 2).reachable 2 0xFFFFFFFFFFFF 8 = false ∧
    (tLink 2).slotAt 0x1000 = none ∧ (tLink 2).storeBarred (fromHost (tP 0 8 0x1000)) 0x1000 8 = false ∧ (∀ j < 8, (tLink 2).place (0x1000 + j) = 0x1000 + j) ∧
    ((tLink 2).wr TEAM_CFG_SIZE 2).outLink 0 1 0 0 = some (2, 0) ∧ (tLink 2).outLink 1 0 0 0 = none ∧ (tLink 2).dieUp 2 = true ∧ (tLink 2).routeOk 0 2 = true ∧
    (tLink 2).linkUp 2 0 = true ∧ 0 < ((tLink 2).link 2 0).credits ∧ ((tLink 2).link 2 0).retry.length < 2048 ∧ ((tLink 2).link 2 0).txq = [] ∧ State.reset.linkUp 2 0 = false ∧
    ((tLinkIs (fun x => { x with reqs := [tAsk] })).link 2 0).reqs = [] ++ tAsk :: [] ∧ tAsk.p.rid = 7 ∧ (tLinkIs (fun x => { x with reqs := [tAsk] })).linkHears 2 0 = true := by decide

set_option maxRecDepth 4000 in
theorem witness_FlitsAreAcceptedInOrderWithTheirCredits : (tLink 2).linkHears 2 0 = true ∧ State.reset.linkHears 2 0 = false ∧ flitGood (tF 0 0) = true ∧ (tF 8 0).kind.toNat < 9 ∧
    9 ≤ (tF 9 0).kind.toNat ∧ (tF 0 0).seq = (((tLink 2).flitHead 2 0 (tF 0 0)).link 2 0).rxExp ∧ (tF 0 1).seq ≠ (((tLink 2).flitHead 2 0 (tF 0 1)).link 2 0).rxExp ∧
    15 < (tLink 2).lanes 2 0 ∧ ((tLink 2).flitHead 2 0 (tF 3 0)).freeSpare 2 0 true = some 0 ∧ (tLink 2).lanes 2 0 ≤ 16 := by decide

/-- Counts of a link's end. -/
def tCounts (held : Nat) : LinkCounts := { sent := 5, recv := 5, ret := 5, crin := 5, occ := 0, held := held }

/-- A state whose die-to-die port 0 between dies 0 and 1 is up. -/
def tPort (f : Port → Port) : State := (State.reset.modPort 0 0 (fun x => { x with up := true })).modPort 1 0 (fun x => f { x with up := true })

/-- A die flit. -/
def tDF (seq : BitVec 8) (ok : Bool) : DieFlit := 
  { tag := 0, seq := seq, ack := 0xFF, cret := 0, payload := [], crc := BitVec.ofNat 16 (crc16 (leBytes 2 0 ++ leBytes 1 seq.toNat ++ leBytes 1 0xFF)) + if ok then 0 else 1 }

set_option maxRecDepth 4000 in
theorem witness_RepliesReleaseFlitsAndPortsReplay : ((tLink 2).link 2 0).retry = [] ∧ ((tLinkIs (fun x => { x with retry := [tF 0 5] })).link 2 0).retry = tF 0 5 :: [] ∧
    (((5 : BitVec 12) - (tF 0 5).seq).toNat + 1) ≤ 1 ∧ 1 < (((6 : BitVec 12) - (tF 0 5).seq).toNat + 1) ∧ (((tLink 2).ackTo 2 0 0xFFF).link 2 0).txq = [] ∧
    ((tLinkIs (fun x => { x with nakAge := 63 })).link 2 0).nakAge = 63 ∧ ((tLink 2).link 2 0).nakAge = 0 ∧
    (∀ y ∈ [(tCounts 1024).sent, (tCounts 1024).recv, (tCounts 1024).held, 1024], y < 2 ^ 46) ∧ (tCounts 1024).recv ≤ (tCounts 1024).sent ∧
    linkLaws 2 0 1024 (tCounts 1024) (tCounts 1024) = [] ∧ linkLaws 2 0 1023 (tCounts 1024) (tCounts 1024) ≠ [] ∧
    (tPort id).portPeer 0 0 = some 1 ∧ (tPort id).portPeer 0 3 = none ∧ (tPort id).dieUp 0 = true ∧ (tPort id).dieUp 1 = true ∧ ((tPort id).port 0 0).up = true ∧
    (tDF 0 true).seq = ((tPort id).port 1 0).txNext ∧ 0 < ((tPort id).port 1 0).credits ∧ ((tPort id).port 1 0).retry.length < 128 ∧
    ((tPort (fun x => { x with credits := 0 })).port 1 0).credits = 0 ∧ ((tPort (fun x => { x with replays := 7 })).port 1 0).replays = 7 ∧ (tDF 0 true).seq = ((tPort id).port 0 0).rxExp ∧
    (State.reset.port 0 0).up = false := by decide

/-- A capability block of another module: ring slot, version range of links and of teams. -/
def tCap (slot : BitVec 4) (lo hi : BitVec 8) : CapBlock :=
  { linkMin := lo, linkMax := hi, teamMin := lo, teamMax := hi, dies := 8, slot := slot, coach := false, spare := false, host := false, serial := 2, owner := noOwner }

theorem witness_LinksRetrainReinitialiseAndSpareLanes : (tLink 2).linkHears 2 0 = true ∧ ((tLink 2).link 2 0).retry = [] ∧ ((tLinkIs (fun x => { x with retry := [tF 0 5] })).link 2 0).retry ≠ [] ∧
    (tLink 2).linkThere 2 0 = true ∧ (tLink 2).rd (LINK_STATUS_STATE 2 0) ≠ 1 ∧ (tLink 2).rd (LINK_CFG_ENABLE 2 0) = 1 ∧ (tLink 1).rd (LINK_STATUS_STATE 2 0) = 1 ∧
    (tLink 1).linkInfo 2 0 = some ⟨2, 1, 0, 16, 2⟩ ∧ (tLink 1).linkInfo 2 3 = none ∧ (tLink 1).dieUp 2 = true ∧ State.reset.fuses.linkMin.toNat ≤ min State.reset.fuses.linkMax.toNat (tCap 1 1 2).linkMax.toNat ∧
    (tCap 1 1 2).linkMin.toNat ≤ min State.reset.fuses.linkMax.toNat (tCap 1 1 2).linkMax.toNat ∧ trainedLanes 16 16 15 false = 8 ∧ trainedLanes 16 16 16 false = 16 ∧
    (tLink 0).linkUp 2 0 = false ∧ ((tLinkIs (fun x => { x with held := [tAsk] })).link 2 0).held ≠ [] ∧ 15 < (tLink 2).lanes 2 0 ∧
    (tLink 2).freeSpare 2 0 false = some 0 ∧ (tLinkIs (fun x => { x with sparesUsed := [(1, 0), (2, 1)] })).freeSpare 2 0 false = none := by decide

theorem witness_LinksRetrainReinitialiseAndSpareLanes_enable : Reached State.reset (.host false 0) (RegId.LINK_CFG 2 0).addr := by constructor <;> decide

/-- A member whose Coachman has ring slot 1 of a team of two, and whose East and West links are UP. -/
def tMember : State := (((tLink 2).wr TEAM_STATUS_STATE 2).wr TEAM_STATUS_COACH 1).wr TEAM_CFG_SIZE 2

/-- The Coachman of team 1, whose route to team 0 leaves at its own slot or another. -/
def tCoach (slot : Nat) : State :=
  ((((State.reset.wr TEAM_STATUS_STATE 3).wr TEAM_CFG_TEAM 1).wr (FLEET_ROUTE_VALID 0) 1).wr (FLEET_ROUTE_SLOT 0) slot).wr TEAM_CFG_SIZE 4

theorem witness_TimeFollowsTheNeighbourTowardTheCoachman : (tLink 2).linkHears 2 0 = true ∧ tMember.linkInfo 2 0 = some ⟨2, 1, 0, 16, 2⟩ ∧ tMember.rd TEAM_STATUS_STATE = 2 ∧
    tMember.timePort = some 2 ∧ State.reset.timePort = none ∧ (tCoach 0).timePort = some 4 ∧ (tCoach 0).rd TEAM_STATUS_STATE = 3 ∧ (tCoach 0).myTeam ≠ 0 ∧
    (tCoach 0).rd (FLEET_ROUTE_SLOT 0) = (tCoach 0).mySlot ∧ (tCoach 3).rd (FLEET_ROUTE_SLOT 0) ≠ (tCoach 3).mySlot ∧ (tCoach 3).rd (FLEET_ROUTE_VALID 0) = 1 ∧
    (signed 64 ((4 : BitVec 64) - tMember.frame.teamTime).toNat * 1000 + (0 : Nat)).natAbs ≤ 4000 ∧ 4000 < (signed 64 ((5 : BitVec 64) - tMember.frame.teamTime).toNat * 1000 + (0 : Nat)).natAbs ∧
    State.reset.rd TEAM_STATUS_STATE < 2 := by decide

/-- `tMember` with both links of West up beside East: the port toward the Coachman, one hop East of it, is East. -/
def tEast : State := ((((tMember.wr (LINK_STATUS_STATE 3 0) 2).wr (LINK_STATUS_STATE 4 0) 2).wr (LINK_STATUS_STATE 5 0) 2))

theorem witness_TimeFollowsTheNeighbourTowardTheCoachman_port : tEast.timePort = some 1 ∧ tEast.linkHears 2 0 = true ∧ tEast.linkInfo 2 0 = some ⟨2, 1, 0, 16, 2⟩ := by decide

/-- A module that joins a team, has heard another, and reached step 8. -/
def tJoin (c : CapBlock) : State :=
  let s := ((tLink 2).wr TEAM_STATUS_STATE 1).wr MODULE_STATUS_STAGE 8
  { s with team := { s.team with heard := [c] } }

/-- A member that has missed two verdicts, of a team of three in which it hears `tCap`. -/
def tLost : State :=
  let s := tMember
  { s with team := { s.team with misses := 2, positions := [0, 1, 2], heard := [tCap 2 1 1] } }

theorem witness_TeamsFormAndElectTheirCoachman : Reached State.reset (.host false 0) RegId.TEAM_CFG.addr ∧ Reached State.reset (.host false 0) RegId.BYPASS.addr ∧
    State.reset.rd BYPASS_CLOSED = 1 ∧ (State.reset.wr BYPASS_CLOSED 0).rd BYPASS_CLOSED = 0 ∧ ((tLink 2).wr MODULE_STATUS_STAGE 8).rd MODULE_STATUS_STAGE = 8 ∧
    (tLink 2).rd MODULE_STATUS_SERVICE = 0 ∧ (tLink 2).rd TEAM_STATUS_STATE = 0 ∧ State.reset.linkThere 2 3 = false ∧ (tJoin (tCap 1 1 1)).linkThere 2 0 = true ∧
    (tJoin (tCap 1 1 1)).linkUp 2 0 = true ∧ (tJoin (tCap 1 1 1)).rd TEAM_STATUS_STATE = 1 ∧ (∀ h ∈ (tLink 2).team.heard, h.serial ≠ (tCap 1 1 1).serial) ∧
    (tCap 1 1 1).serial ≠ State.reset.fuses.serial ∧ (tLink 2).linkOfPort (3 - 1) 0 = some (4, 0) ∧
    electedOf ((tJoin (tCap 1 1 1)).ownCap :: (tJoin (tCap 1 1 1)).team.heard) = some (tJoin (tCap 1 1 1)).ownCap ∧
    electedOf [{ tCap 1 1 1 with spare := true }] = none ∧
    (∀ j ∈ judged 1 (tJoin (tCap 1 1 1)).ownCap [] [(tJoin (tCap 1 1 1)).ownCap, tCap 1 1 1], j.2 = none) ∧
    (∃ j ∈ judged 1 (tJoin (tCap 0 1 1)).ownCap [] [tCap 0 1 1, (tJoin (tCap 0 1 1)).ownCap], j.1.serial = State.reset.fuses.serial ∧ j.2 ≠ none) ∧
    holdUnits 7680 ≤ 8 ∧ 8 < holdUnits 7681 ∧ tLost.rd TEAM_STATUS_STATE = 2 ∧ 2 ≤ tLost.team.misses ∧
    ((tLost.heardPositions [(2, 100)]).filter (fun p => decide (p ≠ 1))).length = 2 ∧ ((tLost.heardPositions []).filter (fun p => decide (p ≠ 1))).length = 1 ∧
    firstIdx tLost.team.positions (fun k => decide (k = tLost.rd TEAM_STATUS_COACH)) 0 = 1 ∧
    (electedOf ((tLost.ownCap :: tLost.team.heard).filter (fun c => [0, 2].contains c.slot.toNat))).isSome = true ∧
    refusalOf 1 (tCap 0 1 1) [] (tCap 1 2 2) = some 1 ∧ refusalOf 1 (tCap 0 1 1) [tCap 1 1 1] (tCap 1 1 1) = some 4 ∧
    refusalOf 1 (tCap 0 1 1) [] { tCap 1 1 1 with dies := 4 } = some 2 :=
  ⟨by constructor <;> decide, by constructor <;> decide, by decide⟩

/-- Conditions of a boot: the supplies, the dies that fail and the channels that fail. -/
def tEnv (mainOk : Bool) (dies : List Nat) (chs : List (Nat × Nat × Nat)) : BootEnv :=
  { mainOk := mainOk, lampOk := true, dieFail := dies, chFail := chs, sigOkA := true, sigOkB := true, ranges := [], lampVersion := 0, bootMs := 1 }

/-- A state whose Lamp is changed. -/
def tLamp (f : Lamp → Lamp) : State := { State.reset with lamp := f lampReset }

/-- The Lamp with a power transition in progress. -/
def tPower (old target : Nat) : State := (tLamp (fun l => { l with target := some (target, 1), mainOn := true })).wr LAMP_PWR_STATE old

theorem witness_ResetsKeepWhatTheirKindKeepsAndBoot : State.reset.lamp.mainOn = false ∧ (tLamp (fun l => { l with mainOn := true })).lamp.mainOn = true ∧ State.reset.lamp.auxIn = true ∧
    (State.reset.wr POLICY_AUTO_ON 1).mainCan (tEnv true [] []) = true ∧ State.reset.mainCan (tEnv false [] []) = false ∧
    (State.reset.wr MODULE_STATUS_STAGE 2).rd MODULE_STATUS_STAGE = 2 ∧ State.reset.rd MODULE_STATUS_STAGE = 0 ∧ State.reset.rd MODULE_RESET_BUSY = 0 ∧
    (State.reset.wr MODULE_RESET_BUSY 1).rd MODULE_RESET_BUSY = 1 ∧ (tLamp (fun l => { l with mainOn := true })).rd BYPASS_CLOSED = 1 ∧
    (tLamp (fun l => { l with resetOrder := some (2, 3) })).lamp.resetOrder = some (2, 3) ∧ (tPower 0 3).lamp.target = some (3, 1) ∧ (tPower 0 2).rd LAMP_PWR_STATE = 0 ∧
    (tPower 3 0).rd LAMP_PWR_STATE = 3 ∧ (tPower 2 0).rd LAMP_PWR_STATE = 2 ∧ (tPower 0 3).lamp.resetOrder = none ∧ (State.reset.wr JOB_STATUS_STATE 3).rd JOB_STATUS_STATE = 3 ∧
    (∀ d < 8, (State.reset.die d).fenced = false) ∧ (tEnv true [0] []).dieFail.contains 0 = true ∧ (tEnv true [] [(7, 15, 1)]).chFail = [(7, 15, 1)] ∧
    ({ framNone with gen := 2, ok := true } : FramCopy).ok = true ∧ agreedOf [(1, 3), (2, 2)] = 2 ∧ agreedOf [(3, 3), (1, 2)] = 0 := by decide

set_option maxRecDepth 20000 in
theorem witness_ResetsKeepWhatTheirKindKeepsAndBoot_descriptor : State.reset.bootDesc.2.trial = 0xFF ∧
    (State.reset.writeDesc (fun x => { x with trial := 1 })).bootDesc.2.trial = 1 ∧ (State.reset.writeDesc (fun x => { x with trial := 1, tried := 1 })).bootDesc.2.tried = 1 := by decide

/-- An event record of a level, as the FIFO holds it. -/
def tRecord (level : Byte) : FifoWord := { data := padTo 32 [0, 0, level], tag := fifoTag 32 true true 1 0xFF 17 }

/-- Die 3 with a record on its way, and the ring enabled with one entry, full or empty. -/
def tRing (tail : Nat) : State :=
  (((State.reset.wr EVRING_CTL_EN 1).wr EVRING_CTL_LOG2 0).wr EVRING_PTR_TAIL tail).modDie 3 (fun x => { x with forward := [tRecord 1], fifo := [tRecord 1] })

theorem witness_SamplesActAndRecordsReachTheRing : State.reset.lamp.auxIn = true ∧ (tLamp (fun l => { l with auxIn := false })).lamp.auxIn = false ∧
    (tLamp (fun l => { l with request := some 0 })).lamp.request = some 0 ∧ State.reset.lamp.request = none ∧ State.reset.rd LAMP_PWR_STATE = 3 ∧
    State.reset.shutTripped = false ∧ ((State.reset.wr (LAMP_RULE_CTL_TRIPPED 16) 1)).shutTripped = true ∧ State.reset.ruleActs 0 1 = true ∧ State.reset.ruleActs 16 1 = false ∧
    State.reset.rd LAMP_PWR_TELEM = 0 ∧ (State.reset.wr LAMP_PWR_TELEM 1).rd LAMP_PWR_TELEM ≠ 0 ∧ (State.reset.die State.reset.lead).fifo.length + 5 ≤ 1024 ∧
    (State.reset.die State.reset.lead).fifoWait = [] ∧ (State.reset.die 0).fifo = [] ∧ ((tRing 0).die 3).fifo = [tRecord 1] ∧ (tRing 0).dieUp 3 = true ∧
    field (tRecord 1).tag.toNat 8 8 = 1 ∧ ((tRing 0).die 3).forward = [tRecord 1] ∧ (tRing 0).dieUp (tRing 0).lead = true ∧ (tRing 0).routeOk 3 (tRing 0).lead = true ∧
    (tRing 0).ringRelease.ringHold = [] ∧ (tRing 0).ringRelease.ringTakes = true ∧ (tRing 0).accessOk 0 32 = true ∧
    State.reset.lamp.framA.gen ≤ State.reset.lamp.framB.gen ∧ (tLamp (fun l => { l with framA := { framNone with gen := 1 } })).lamp.framB.gen < 1 := by decide

/-- Rule 20 enabled on sensor channel 3, which reads `y`, above 10 with a hysteresis of 2 and a DWELL of 1. -/
def tRule (y tripped : Nat) : State :=
  (((((((State.reset.wr (LAMP_RULE_CTL_EN 20) 1).wr (LAMP_RULE_CTL_TRIPPED 20) tripped).wr (LAMP_RULE_CH 20) 3).wr (LAMP_RULE_THRESH 20) 10).wr (LAMP_RULE_HYST 20) 2).wr
    (LAMP_SENSE_PRESENT 3) 1).wr (LAMP_SENSE_FILT 3) y)

theorem witness_RulesTripAndReleaseAfterDwell : (tRule 11 0).rd (LAMP_RULE_CTL_EN 20) = 1 ∧ (tRule 11 0).rd (LAMP_SENSE_PRESENT ((tRule 11 0).rd (LAMP_RULE_CH 20))) = 1 ∧
    (tRule 11 0).rd (LAMP_RULE_CTL_TRIPPED 20) = 0 ∧ (tRule 11 0).rd (LAMP_RULE_DIR 20) = 0 ∧ signed 16 ((tRule 11 0).rd (LAMP_RULE_THRESH 20)) < signed 16 ((tRule 11 0).rd (LAMP_SENSE_FILT 3)) ∧
    max 1 ((tRule 11 0).rd (LAMP_RULE_DWELL 20)) ≤ tabGet (tRule 11 0).lamp.ruleRun 20 0 + 1 ∧ (tRule 8 1).rd (LAMP_RULE_CTL_TRIPPED 20) = 1 ∧
    signed 16 ((tRule 8 1).rd (LAMP_SENSE_FILT 3)) ≤ signed 16 ((tRule 8 1).rd (LAMP_RULE_THRESH 20)) - ((tRule 8 1).rd (LAMP_RULE_HYST 20) : Int) ∧
    ¬ signed 16 ((tRule 9 1).rd (LAMP_SENSE_FILT 3)) ≤ signed 16 ((tRule 9 1).rd (LAMP_RULE_THRESH 20)) - ((tRule 9 1).rd (LAMP_RULE_HYST 20) : Int) ∧
    (tRule 11 0).lamp.auxIn = true ∧ State.reset.rd (LAMP_RULE_CTL_EN 20) = 0 ∧ (0 : Word).getLsbD 0 = false := by decide

theorem witness_FiltersRunOncePerSample : State.reset.lamp.auxIn = true ∧ State.reset.chPresent 32 = true ∧ State.reset.chPresent 63 = false ∧ State.reset.chPresent 0 = false ∧
    (((State.reset.modDie 0 (fun x => { x with powered := true })).wr LAMP_PWR_STATE 0)).chPresent 0 = true ∧
    ([{ ch := 0, raw := 1121, fault := false }] : List Sample).find? (fun x => decide (x.ch = 0)) = some { ch := 0, raw := 1121, fault := false } ∧
    State.reset.lamp.filters.find? (fun e => decide (e.1 = 0)) = none ∧
    ((tLamp (fun l => { l with filters := [(0, filterInit 3 5)] })).lamp.filters.find? (fun e => decide (e.1 = 0))) = some (0, filterInit 3 5) ∧
    1120 < (filterInit 3 1121).y ∧ (filterInit 3 639).y < 640 ∧ (tLamp (fun l => { l with hot := [7] })).lamp.hot = [7] := by decide

/-- A ring that takes nothing, with a full hold. -/
def tHeld (n : Nat) (level : Byte) : State := { tRing 0 with ringHold := List.replicate n (tRecord level) }

theorem tHeld_length (n : Nat) (level : Byte) : (tHeld n level).ringHold.length = n := List.length_replicate

theorem witness_FullHoldsDropSoftRecordsAlone : (tRing 1).ringTakes = false ∧ ((tRing 1).die 3).forward = [tRecord 1] ∧ (tRing 1).dieUp 3 = true ∧
    (tRing 1).routeOk 3 (tRing 1).lead = true ∧ (tRing 1).dieUp (tRing 1).lead = true ∧ (tRing 1).ringHold.length < 4096 ∧ 4096 ≤ (tHeld 4096 0).ringHold.length ∧
    (tRecord 0).soft = true ∧ (tRecord 15).soft = true ∧ (tRecord 1).soft = false ∧ (tRecord 4).soft = false ∧ (∀ x ∈ (tHeld 4096 1).ringHold, x.soft = false) :=
  ⟨by decide, by decide, by decide, by decide, by decide, by decide, Nat.le_of_eq (tHeld_length 4096 0).symm, by decide, by decide, by decide, by decide,
   fun x h => by rw [show x = tRecord 1 from List.eq_of_mem_replicate h]; decide⟩

theorem witness_LinksUseTheVersionThatBothEndsHave : (tLink 1).rd (LINK_STATUS_STATE 2 0) = 1 ∧ (tLink 1).linkThere 2 0 = true ∧
    (tLink 1).fuses.linkMin.toNat ≤ min (tLink 1).fuses.linkMax.toNat (tCap 1 1 2).linkMax.toNat ∧ (tCap 1 1 2).linkMin.toNat ≤ min (tLink 1).fuses.linkMax.toNat (tCap 1 1 2).linkMax.toNat ∧
    min (tLink 1).fuses.linkMax.toNat (tCap 1 2 3).linkMax.toNat < (tCap 1 2 3).linkMin.toNat ∧ (tLink 1).linkInfo 2 0 = some ⟨2, 1, 0, 16, 2⟩ ∧ (tLink 1).dieUp 2 = true := by decide

theorem witness_StepRunsTheCommandAtTheFront : State.reset.pending = [] ∧ ({ State.reset with pending := [.attestDone] } : State).pending = .attestDone :: [] := by decide

/-- The bytes of an image header at 0: the magic number, format 1, no key bytes but zeros, SVN 0. -/
def tHeader : State := ((((State.reset.setByte 0 0x45).setByte 1 0x51).setByte 2 0x38).setByte 3 0x46).setByte 4 1

/-- A module whose fused root is the digest of the key of that image. -/
def tRooted : State := { tHeader with fuses := { fusesReset with rootDigests := [shake256 32 (tHeader.stagedImage 0).key] } }

theorem bytesAt_fuses (s : State) (f : Fuses) (a n : Nat) : ({ s with fuses := f } : State).bytesAt a n = s.bytesAt a n := by
  induction n generalizing a with
  | zero => rfl
  | succ n ih =>
    show ({ s with fuses := f } : State).byteAt a :: ({ s with fuses := f } : State).bytesAt (a + 1) n = s.byteAt a :: s.bytesAt (a + 1) n
    rw [ih]; rfl

theorem tRooted_image : tRooted.stagedImage 0 = tHeader.stagedImage 0 := by
  unfold State.stagedImage tRooted; rw [bytesAt_fuses]

set_option maxRecDepth 20000 in
theorem tRooted_header : tRooted.headerOk (tHeader.stagedImage 0) = true ∧ (tHeader.stagedImage 0).compatAt + (tHeader.stagedImage 0).compatLen ≤ (tHeader.stagedImage 0).length ∧
    ¬ (tHeader.stagedImage 0).svn < tRooted.fw.arb.toNat := by decide

theorem tRooted_key : tRooted.keyOk (tHeader.stagedImage 0) = true := by
  unfold State.keyOk
  refine List.any_eq_true.2 ⟨0, by decide, Bool.and_eq_true_iff.2 ⟨by decide, decide_eq_true ?_⟩⟩
  rfl

theorem witness_FirmwareOrdersRunOrAreRefused_image : tRooted.imageFail (tRooted.stagedImage 0) true = none ∧ tRooted.imageFail (tRooted.stagedImage 0) false = some 3 ∧
    (tRooted.stagedImage 0).compatAt + (tRooted.stagedImage 0).compatLen ≤ (tRooted.stagedImage 0).length ∧ tRooted.accessOk 0 (0 + 29792) = true ∧
    Reached tRooted (.host false 0) RegId.FW_CTRL.addr := by
  rw [tRooted_image]
  refine ⟨?_, ?_, tRooted_header.2.1, by decide, by constructor <;> decide⟩
  · unfold State.imageFail
    rw [tRooted_header.1, tRooted_key, if_neg (by decide), if_neg (by decide), if_neg (by decide), if_neg tRooted_header.2.2]
  · unfold State.imageFail
    rw [tRooted_header.1, tRooted_key, if_neg (by decide), if_neg (by decide), if_pos rfl]


-- Further clauses of the statements over links, channels, memories and teams.

/-- A Coachman of a team of two positions that has sent its own report, and what has been flooded. -/
def tSeats (hold : Bool) (fl : List Flood) : State :=
  let s := tHold 3 2 hold
  { s with team := { s.team with positions := [0, 1], seats := [0, 1], flooded := fl }, frame := { s.frame with report := some (tReport 0) } }

set_option maxRecDepth 4000 in
theorem witness_VerdictsAreSentAndApplyAtCycleH_reports : (State.reset.rxSequenced 0 0 (tF 6 0)).2 = false ∧ ((tLink 2).rxSequenced 2 0 (tF 6 0)).2 = true ∧
    ((tLink 2).rxSequenced 2 0 (tF 6 0)).1.team.flooded = [] ∧ (tSeats true [.report 0 (tReport 1)]).team.flooded = [.report 0 (tReport 1)] ∧
    (tHold 3 2 true).ofTick 0 = true ∧ (tHold 3 2 false).ofTick 0 = false ∧ (tHold 3 2 false).ofTick 1 = true ∧ (tHold 3 2 false).later 1 = true ∧
    (tSeats true []).seated 1 = true ∧ (tSeats true []).rd TEAM_STATUS_POS = 0 ∧ (tSeats true []).team.seats.length = 2 ∧
    (∀ x ∈ ({ tSeats true [] with team := { (tSeats true []).team with reports := [tReport 0] } } : State).team.reports, x.pos ≠ 1) ∧
    (tSeats true []).team.verdict = none ∧ (tHold 2 2 true).ofTick 0 = true ∧ (tHold 2 2 true).team.verdict = none := by decide

set_option maxRecDepth 4000 in
theorem witness_VerdictsAreSentAndApplyAtCycleH_causes : optDiffer [{ tReport 0 with opt := [1, 2] }] = true ∧ optDiffer [tReport 0] = false ∧
    ({ tHold 3 0 true with frame := { (tHold 3 0 true).frame with fleet := some (9, 5) } } : State).frame.fleet = some (9, 5) ∧ (tHold 3 0 true).rd JOB_STATUS_STATE < 2 ∧
    (tHold 3 0 true).rd TEAM_STATUS_STATE = 3 ∧ (tHold 3 2 true).frame.fleet = none ∧ (tHold 3 2 true).timetableDue = false ∧ (tHold 3 2 true).lostMembers [] = [] ∧
    (∀ i < 6, ((State.reset.setWord .MODULE_VERSIONS 0x010101010101).wr MODULE_STATUS_SERVICE 1).agreed i ≠ 0) ∧
    ((State.reset.setWord .MODULE_VERSIONS 0x010101010101).wr MODULE_STATUS_SERVICE 1).rd MODULE_STATUS_SERVICE = 1 ∧
    ((State.reset.setWord .MODULE_VERSIONS 0x010101010101).wr MODULE_STATUS_SERVICE 1).rd MODULE_STATUS_DIE_FAILED = 0 ∧
    ((State.reset.setWord .MODULE_VERSIONS 0x010101010101).wr MODULE_STATUS_SERVICE 1).rd MODULE_STATUS_UNTESTED ≠ 1 ∧
    ((State.reset.setWord .MODULE_VERSIONS 0x010101010101).wr MODULE_STATUS_SERVICE 1).rd POLICY_HOLD_SERVICE ≠ 1 := by decide

theorem witness_ImagesAreDoneAndSparesRestored_shard : tShard.shards 0 = [0] ∧ tShard.shardOf 0 0 = some 0 ∧ tShard.shardOf 0 1 = none ∧ tShard.regions ≠ [] ∧ (tShard.region 0).die = 0 ∧
    (tSpare.setByte 48 1).regions = [] ∧ 1 ≤ ((tSpare.setByte 48 1).manifest 0).nRegions ∧ ((tSpare.setByte 48 1).manifest 0).nRegions ≤ 65536 ∧
    (tSpare.setByte 48 1).rd JOB_SUBMIT_MANIFEST_ADDR = 0 := by decide

/-- A Coachman that has repaired block 1 of shard 0 at replica 2. -/
def tRepair : State := let s := tHold 3 2 false; { s with team := { s.team with repairs := [(0, 2)] } }

theorem witness_DigestsThatDifferAreBisectedAndRepaired_again : (0, 2) ∈ tRepair.team.repairs ∧ majority [tRoot 0 0 1 1, tRoot 1 0 1 1, tRoot 2 0 2 2] = some 1 ∧
    tRepair.rd TEAM_STATUS_STATE = 3 ∧ (tRoot 2 0 2 2).replica = 2 ∧ (tRoot 2 0 2 2).digest ≠ 1 ∧ (tHold 3 2 false).team.repairs = [] ∧ majority [tRoot 0 0 1 1, tRoot 1 0 2 2] = none ∧
    ({ tBisect with team := { tBisect.team with bisect := [(0, 2, 1, [0])] } } : State).bisection 0 = some (2, 1, [0]) ∧
    (∃ r ∈ [tRoot 0 0 1 1], r.step ≠ 2) ∧ (∀ r ∈ [tRoot 0 0 1 1, tRoot 1 0 2 2], r.step = 1) ∧ [tRoot 0 0 1 1, tRoot 1 0 2 1].length < 3 ∧ badReplicas [tRoot 0 0 1 1, tRoot 1 0 2 1] = [1] := by decide

theorem witness_LedgerEntriesAreHandledAndDieOneTakesTheLead_held : ((State.reset.modDie 0 (fun x => { x with held := [mkEv 83 0 3 0 0 []] })).die 0).held = mkEv 83 0 3 0 0 [] :: [] ∧
    (∀ x c, (tLedger 3 83).entryDom 0 0 = .core x c → isCtl c = false) ∧ (State.reset.job.takeover = false) ∧
    exec .attestDone State.reset = .next State.reset := ⟨by decide, fun x c h => by
      rw [show (tLedger 3 83).entryDom 0 0 = .core 0 3 from by decide] at h; cases h; decide, by decide, rfl⟩

/-- A run of a tile operation that has not started. -/
def tTiled : DRun := tDRun (tRaw 0x010303 0xFFFF)

/-- A record of channel 0 that waits for the full FIFO of die 0. -/
def tWait : State := (tChan [tMove]).modDie 0 (fun x => { x with fifoWait := [{ data := padTo 32 [0, 0, 0, 0, 0, 0, 21, 0xFF], tag := fifoTag 32 true true 1 0xFF 21 }] })

set_option maxRecDepth 4000 in
theorem witness_DescriptorsAreCheckedAndTakeTheirCreditAndStage_waits : (tChan [tMove]).chanWaits 0 0 = false ∧ tCredit.chanWaits 0 0 = false ∧ tCredit.dieUp 0 = true ∧ (tCredit.chan 0 0).streamBad = false ∧
    (tCredit.chan 0 0).q[0]? = some (tDRun (tRaw 0x0303 5)) ∧ (tDRun (tRaw 0x0303 5)).started = false ∧ tCredit.creditsAhead 0 0 < tCredit.emptyLeft 0 0 ∧
    State.reset.emptyLeft 0 0 ≤ State.reset.creditsAhead 0 0 ∧ (tCredit.core 0 2).queues = [] ∧ (tCredit.core 0 2).blocked = .none ∧
    ((tCredit.modChan 0 0 (fun c => { c with streamBad := true })).chan 0 0).streamBad = true ∧ tTiled.desc.tiled = true ∧ tTiled.stage = false ∧ tMove.desc.tiled = false ∧
    ((tChan [tTiled]).die 0).stages.length < 16 ∧ ((tChan [tTiled]).die 0).stageWait = [] ∧ (tStage.die 0).stageWait ≠ [] ∧ (tStage.chan 0 0).q[0]? = some tTiled ∧ tStage.chanWaits 0 0 = false ∧
    (tChan [tGoing 2 2 0 0, tMove]).nextRun 0 0 = some 1 ∧ (tGoing 2 2 0 0).readsDone (tGoing 2 2 0 0).desc = true := by decide

set_option maxRecDepth 20000 in
theorem witness_DescriptorsAreCheckedAndTakeTheirCreditAndStage_held : tWait.chanWaits 0 0 = true := by decide

/-- A run that writes to position 1 of the team, with the writes that it has sent. -/
def tOut (sent : List (Nat × List Byte)) : DRun := { tGoing 1 1 1 0 with raw := tFar false, sent := sent }

/-- A run that reads from position 1 of the team. -/
def tIn (rd : Nat) (gap : Bool) : DRun := { tGoing rd 0 0 0 with raw := tFar true, gap := gap, hold := [] }

/-- A request of channel 0 of die 0 that awaits its answer over link 0 of die 2. -/
def tOwed (type : Nat) (rs : List DRun) : State := (tChan rs).modLink 2 0 (fun x => { x with reqs := [{ tAsk with type := type }] })

theorem witness_WritesAreAcceptedAndDataReturns_far : State.reset.forHere (tP 0 8 0) = true ∧ State.reset.forHere (tP 1 8 0) = false ∧ (tLink 2).linkUp 2 0 = true ∧ (tLink 2).dieUp 2 = true ∧
    (tOwed 2 []).lateWrites 0 0 = true ∧ (tOwed 2 []).writer 0 0 = none ∧ State.reset.lateWrites 0 0 = false ∧ (tOwed 2 [tOut []]).lateWrites 0 0 = true ∧ (tOwed 2 [tOut []]).writer 0 0 = some 0 ∧
    (tChan [tOut []]).lateWrites 0 0 = false ∧ (tChan [tOut []]).writer 0 0 = some 0 ∧ (tChan [tOut []]).dstFar (tOut []).desc = true ∧
    (tChan [tOut [(0x2000, [1, 2, 3, 4])]]).lateWrites 0 0 = false ∧ (tChan [tOut [(0x2000, [1, 2, 3, 4])]]).writer 0 0 = some 0 ∧
    ((tChan [tGoing 1 1 0 0]).modChan 0 0 (fun c => { c with st := .halted })).writer 0 0 = some 0 ∧ (((tChan [tGoing 1 1 0 0]).modChan 0 0 (fun c => { c with st := .halted })).chan 0 0).live = false ∧
    (tOwed 0 []).lateReads 0 0 = true ∧ (tChan [tIn 1 false]).lateReads 0 0 = false ∧ (tChan [tIn 1 false]).srcFar (tIn 1 false).desc = true ∧ (tIn 1 false).due < 1 ∧
    ((tIn 1 false).readAt (tIn 1 false).desc 0).2 = 4 ∧ (tIn 2 true).due = 1 ∧ (tIn 1 false).ahead = [] ∧ (tIn 1 false).status = none := by decide

theorem witness_WritesAreAcceptedAndDataReturns_here : (((tChan [tGoing 1 1 0 0]).advance 0 0 0 (advanceFuel (tGoing 1 1 0 0).desc)).chan 0 0).q[0]?.any (fun y => y.writeReady (tGoing 1 1 0 0).desc) = true ∧
    (((tChan [tGoing 1 1 0 0]).advance 0 0 0 (advanceFuel (tGoing 1 1 0 0).desc)).chan 0 0).live = true ∧
    ((tChan [tGoing 1 1 0 0]).advance 0 0 0 (advanceFuel (tGoing 1 1 0 0).desc)).repartWaits 0x2000 4 = false ∧ overlaps 0x2000 4 (shardTable (dieOf 0x2000)) 0x20000 = false ∧
    (((State.reset.wr (DEPOT_STATUS_REPART 0) 1)).modDie 0 (fun x => { x with wback := [32] })).repartWaits 0x2000 4 = true := by decide

theorem witness_AccessesAreRetriedAndRecordsWritten_events : tWait.chanWaits 0 0 = true ∧ (tChan [tGoing 1 0 0 0]).chanWaits 0 0 = false ∧ (tGoing 1 0 0 0).due = 0 ∧ (tChan [tMove]).writer 0 0 = none ∧ tMove.started = false ∧
    (tChan [tGoing 1 1 0 0]).dstFar (tGoing 1 1 0 0).desc = false ∧ (tChan [{ tGoing 2 2 2 2 with readBack := true }]).dieUp 0 = true ∧ (tGoing 2 2 2 2).status = none ∧
    coreSpaceOf (coreAddr 0 3 8) = some (3, 8) ∧ coreSpaceOf (coreAddr 0 3 0xC0000) = some (3, 0xC0000) ∧ coreSpaceOf 0x1000 = none ∧ (tGoing 1 0 0 0).gap = false ∧ (tGoing 1 0 0 0).ahead = [] ∧
    (tGoing 1 0 0 0).again = [] ∧ (tGoing 1 0 0 0).rd - (tGoing 1 0 0 0).due ≤ 640 ∧ 0 ∈ ((State.reset.modDie 0 (fun y => { y with cqHolding := [0] })).die 0).cqHolding ∧
    State.reset.accessOk 0xFFFFFFFFFF00 32 = false := by decide

/-- A request for line 0 of a requester at a key. -/
def tAt (req key : Nat) (granted : Bool) : MemReq := { tReq 8 false with req := req, key := key, granted := granted }

theorem witness_MemoryRequestsTakeTagsAndFillLines_tags : State.reset.accessOk 0x010030000000 8 = false ∧ dieOf 0x010030000000 = 0 ∧ (coreSpaceOf 0x010030000000).isSome = false ∧
    State.reset.canServe 0 (tReq 8 false) [tReq 8 false] = false ∧ ((State.reset.modDie 0 (fun x => { x with reqs := [tReq 8 true] }))).canServe 0 (tReq 8 true) [] = false ∧
    ((State.reset.wr (DEPOT_STATUS_REPART 0) 1).modDie 0 (fun x => { x with repart := [0] })).sliceOf 0 0 = some 0 ∧ 0 ∈ (((State.reset.wr (DEPOT_STATUS_REPART 0) 1).modDie 0 (fun x => { x with repart := [0] })).die 0).repart ∧
    (tReq 8 false).req ≠ 426 ∧ (tReq 8 false).addr < 2 ^ 40 ∧ State.reset.dieUp 0 = true ∧ 2 ^ 40 ≤ 0x010080000000 ∧ 0x0100800000 ∈ ((State.reset.modDie 0 (fun x => { x with badLines := [0x0100800000] })).die 0).badLines ∧
    (tReq 8 false).parity < 4 := by decide

/-- A full set whose least recently used way is dirty. -/
def tSet : CSet := { ways := (List.range 16).map (fun i => (i, { tag := i + 1, dirty := true, bad := false })), plru := 0 }

theorem witness_MemoryRequestsTakeTagsAndFillLines_lines : tSet.find 0 = none ∧ (tSet.ways.find? (fun e => decide (e.1 = tSet.way))).any (fun v => v.2.dirty) = true ∧
    csetNone.ways.find? (fun e => decide (e.1 = csetNone.way)) = none ∧ tCache.cacheAt 0 (0 % 2 ^ 37) = some (0, 1) ∧ (tabGet (tCache.die 0).cache 0 csetNone).find 0 = none := by decide

/-- `tCache` with a request for line 0 that waits for group 0, whose arbiter has decided. -/
def tArb (decided : Option (Nat × Bool)) (rs : List MemReq) : State :=
  tCache.modDie 0 (fun x => { x with reqs := rs, arbs := [(0, { arbReset with decided := decided })] })

theorem witness_MemoryRequestsTakeTagsAndFillLines_arbiters : chooseReq [tAt 3 5 false, tAt 2 5 false] false = some (tAt 2 5 false) ∧ chooseReq [tAt 3 5 false, { tAt 4 9 false with high := true }] false = some { tAt 4 9 false with high := true } ∧
    chooseReq [tAt 3 5 false, { tAt 4 9 false with high := true }] true = some (tAt 3 5 false) ∧ (tabGet ((tArb none []).die 0).arbs 0 arbReset).decided = none ∧
    (tabGet ((tArb (some (3, false)) []).die 0).arbs 0 arbReset).decided = some (3, false) ∧ (∀ m ∈ ((tArb (some (3, false)) []).die 0).waitingAt 0, m.req ≠ 3) ∧
    (∃ m ∈ ((tArb (some (3, false)) [tAt 3 5 false]).die 0).waitingAt 0, m.req = 3) ∧ (tArb (some (3, false)) [tAt 3 5 false]).sideband 0 3 = false ∧ groupOfAddr 0 = 0 ∧ (tAt 3 5 false).granted = false := by decide

set_option maxRecDepth 20000 in
theorem witness_MemoryRequestsTakeTagsAndFillLines_read : ((tArb none [tAt 0 5 true]).passGrant 0 0 0).any (fun v => decide ((v.die 0).reqs = [] ++ tAt 0 5 true :: [])) = true ∧
    State.reset.passGrant 0 0 0 = none ∧ (tArb none [tAt 0 5 true]).lpddrWaits 0 (chanOfAddr 0) = false ∧ (tAt 0 5 true).fill = true ∧ chanOfAddr 0 < 16 := by decide

/-- A memory whose 256 retirement entries stand. -/
def tRetired : State := { State.reset with regs := (List.range 256).map (fun k => (RegId.RETIRE 0 k, BitVec.ofNat 64 (2 ^ 48))) }

theorem tRetired_word (ks : List Nat) (k : Nat) (h : k ∈ ks) (d : Word) :
    assocGet (ks.map (fun k => (RegId.RETIRE 0 k, BitVec.ofNat 64 (2 ^ 48)))) (.RETIRE 0 k) d = BitVec.ofNat 64 (2 ^ 48) := by
  induction ks with
  | nil => cases h
  | cons x xs ih =>
    show (if RegId.RETIRE 0 x = .RETIRE 0 k then _ else _) = _
    split
    · rfl
    · next hx => exact ih ((List.mem_cons.1 h).resolve_left (fun e => hx (e ▸ rfl)))

theorem witness_MemoryRequestsTakeTagsAndFillLines_full : ∀ k < 256, tRetired.rd (RETIRE_VALID 0 k) = 1 := by
  intro k hk
  unfold State.rd State.word tRetired RETIRE_VALID
  rw [tRetired_word _ _ (List.mem_range.2 hk)]; rfl

theorem witness_MemoriesBecomeReady_lines : (∃ m ∈ ((((State.reset.wr (DEPOT_STATUS_REPART 7) 1).modDie 7 (fun x => { x with wback := [0], reqs := [tAt 426 0 false] })).die 7).reqs ++ []), m.req = 426 ∧ m.addr / 256 ∈ [0]) ∧
    (∀ m ∈ ((State.reset.wr (DEPOT_STATUS_REPART 7) 1).die 7).reqs ++ ((State.reset.wr (DEPOT_STATUS_REPART 7) 1).die 7).tagWait, m.req = 426 → m.addr / 256 ∉ ((State.reset.wr (DEPOT_STATUS_REPART 7) 1).die 7).wback) := by decide

/-- A packet of another module of team 1, of a class. -/
def tFrom (cls : BitVec 2) : Packet := { tP 0 8 0x1000 with srcTeam := 1, srcSlot := 2, cls := cls }

/-- `tLink` in which link 0 of die 2 carries a request of another module. -/
def tTransit : State := ((tLink 2).wr TEAM_CFG_SIZE 2).modLink 2 0 (fun x => { x with transit := [(0, tFrom 0)] })

/-- The answer to the request of `tTransit`. -/
def tBack : Packet := { tP 0 0 0 with srcDie := (tFrom 0).dstDie, dstDie := (tFrom 0).srcDie, dstTeam := 1, dstSlot := 2 }

theorem witness_PacketsAreServedOrSentOn_routes : (tP 0 8 0).srcTeam = 0x3F ∧ (tP 0 8 0).srcSlot = 0xF ∧ (tFrom 1).cls = 1 ∧ (tFrom 0).srcTeam ≠ 0x3F ∧ (tFrom 0).cls ≠ 1 ∧
    ((((tLink 0).wr TEAM_CFG_SIZE 2).modLink 2 0 (fun x => { x with expired := true })).link 2 0).expired = true ∧ (((tLink 0).wr TEAM_CFG_SIZE 2).modLink 2 0 (fun x => { x with expired := true })).linkUp 2 0 = false ∧
    (((tLink 0).wr TEAM_CFG_SIZE 2).outLink 0 1 0 0) = some (2, 0) ∧ ((tLink 0).link 2 0).expired = false ∧ (tTransit.link 2 0).transit = [] ++ (0, tFrom 0) :: [] ∧
    (1 = 0 + 1 ∧ (tFrom 0).rid = tBack.rid ∧ (tFrom 0).srcTeam = tBack.dstTeam ∧ (tFrom 0).srcSlot = tBack.dstSlot ∧ (tFrom 0).srcDie = tBack.dstDie) ∧ ((tLinkIs (fun x => { x with credits := 0 })).link 2 0).credits = 0 ∧
    (tLink 2).forHere (tP 0 8 0) = true ∧ (tLink 2).forHere (tP 1 8 0) = false ∧ tAsk.p.req = (tP 0 8 0).req ∧ ((tLink 2).link 2 0).reqs = [] := by decide

/-- A flit of the next frame. -/
def tLate : Flit := sealFlit { tF 0 0 with tag := 1 }

set_option maxRecDepth 4000 in
theorem witness_FlitsAreAcceptedInOrderWithTheirCredits_counts : flitGood { tF 0 0 with crc := (tF 0 0).crc + 1 } = false ∧ (tLink 2).linkHears 2 0 = true ∧ flitGood tLate = true ∧ tLate.kind.toNat < 9 ∧
    (decide (0 < (tLate.tag - (tLink 2).tag16).toNat) && decide ((tLate.tag - (tLink 2).tag16).toNat < 0x8000)) = true ∧ ((tLink 2).link 2 0).mine = none ∧
    ((tLinkIs (fun x => { x with mine := some (tCounts 1024) })).link 2 0).mine = some (tCounts 1024) ∧ (tLink 2).frame.inHold = false ∧
    ({ tLink 2 with frame := { (tLink 2).frame with inHold := true } } : State).frame.inHold = true ∧ Flood.timetable 3 ∈ ({ tLink 2 with team := { (tLink 2).team with flooded := [.timetable 3] } } : State).team.flooded ∧
    Flood.timetable 3 ∉ (tLink 2).team.flooded ∧ (tHold 3 2 false).rd TEAM_STATUS_STATE = 3 ∧ (tLink 2).rd TEAM_STATUS_STATE ≠ 3 ∧ (tLink 2).linkInfo 2 0 = some ⟨2, 1, 0, 16, 2⟩ ∧
    (tLink 2).linkInfo 2 3 = none ∧ ((tLink 2).linkInfo 0 1).any (fun i => decide (i.port ≠ 1) && decide (i.port ≠ 2)) = true ∧ (tLink 2).linkOfPort 1 0 = some (2, 0) ∧ (tLink 2).linkOfPort 1 9 = none ∧
    ((tLink 2).linkOfPort 2 0).any (fun k => !(tLink 2).linkUp k.1 k.2) = true ∧ (tLink 2).freeSpare 2 0 true = some 0 ∧
    (tLinkIs (fun x => { x with sparesUsed := [(65, 0), (66, 1)] })).freeSpare 2 0 true = none := by decide

set_option maxRecDepth 4000 in
theorem witness_RepliesReleaseFlitsAndPortsReplay_ports : ((tLinkIs (fun x => { x with txq := [(0, [])] })).link 2 0).txq = (0, []) :: [] ∧ (tLink 2).linkUp 2 0 = true ∧ 0 < ((tLink 2).link 2 0).credits ∧
    ((tLinkIs (fun x => { x with nakAge := 64 })).link 2 0).nakAge = 64 ∧ dieFlitGood (tDF 0 true) = true ∧ dieFlitGood (tDF 0 false) = false ∧ (tPort id).producerWaits 0 0xFF 23 0 = false ∧
    (tDF 1 true).seq ≠ ((tPort id).port 1 0).txNext ∧ (tDF 1 true).seq ≠ ((tPort id).port 0 0).rxExp ∧ State.reset.dieUp 0 = true ∧ State.reset.portPeer 0 0 = some 1 ∧
    ((tPort (fun x => { x with retry := [tDF 5 true] })).port 1 0).retry = tDF 5 true :: [] ∧ (((5 : BitVec 8) - (tDF 5 true).seq).toNat + 1) ≤ 1 ∧ 1 < ((6 : BitVec 8) - (tDF 5 true).seq).toNat + 1 ∧
    (tDF 5 true :: []).drop ((5 : BitVec 8) - (tDF 5 true).seq).toNat ≠ [] ∧ (tDF 5 true :: []).drop ((6 : BitVec 8) - (tDF 5 true).seq).toNat = [] ∧ ((tPort id).port 1 0).retry = [] ∧
    ((tPort (fun x => { x with nakAge := 3 })).port 1 0).nakAge = 3 ∧ 7 ≤ ((tPort (fun x => { x with replays := 7 })).port 1 0).replays := by decide

/-- A capability block as a flit carries it. -/
def tCapFlit (c : CapBlock) : Flit := sealFlit { tF 8 0 with payload := capBytes c }

set_option maxRecDepth 4000 in
theorem witness_LinksRetrainReinitialiseAndSpareLanes_held : ((tLinkIs (fun x => { x with partner := some (tCap 1 1 1) })).link 2 0).partner.map (fun c => c.serial) = some (tCap 1 1 1).serial ∧
    ((tLink 2).link 2 0).partner.map (fun c => c.serial) ≠ some (tCap 1 1 1).serial ∧ (trainedLanes 16 16 16 true = 8 ∧ trainedLanes 16 8 12 false = 8) ∧ (tTransit.link 2 0).transit ≠ [] ∧ (tLink 0).linkThere 2 0 = true ∧
    firstIdx ((((tChan [tOut [(0x2000, [1, 2, 3, 4])]]).chan 0 0).q).zip (unwritten 1 ((tChan [tOut [(0x2000, [1, 2, 3, 4])]]).chan 0 0).q).1) (fun e => decide (e.1 ≠ e.2)) 0 = 0 ∧
    firstIdx ((((tChan [tMove]).chan 0 0).q).zip (unwritten 1 ((tChan [tMove]).chan 0 0).q).1) (fun e => decide (e.1 ≠ e.2)) 0 = 1 ∧ ((tChan [tMove]).chan 0 0).st ≠ .halted ∧
    ((tChan [{ tGoing 2 2 2 2 with readBack := true }]).chan 0 0).q.length = 1 ∧ 16 ≤ (tLink 2).lanes 2 0 ∧ 16 * (tLink 2).rd (LINK_CFG_SPARE_THR 2 0) < 16 * (tLink 2).rd (LINK_CFG_SPARE_THR 2 0) + 1 := by decide

set_option maxRecDepth 4000 in
theorem witness_TimeFollowsTheNeighbourTowardTheCoachman_flit : (tMember.rxPlain 2 0 (tF 5 0)).2 = true ∧ (State.reset.rxPlain 2 0 (tF 5 0)).2 = false ∧ tMember.linkInfo 2 3 = none ∧
    (tEast.rxPlain 2 0 (tF 5 0)).1.timePort = some 1 ∧ (tMember.rxPlain 2 0 (tF 5 0)).1.timePort = some 2 ∧ (tHold 3 0 false).rd JOB_STATUS_STATE < 2 ∧ (tHold 3 0 false).rd TEAM_STATUS_STATE = 3 ∧
    (tHold 3 0 false).frame.fleetJoined = false ∧ tMember.mySlot = 0 ∧ tEast.wayWhole 1 1 = true ∧ tEast.wayWhole 2 1 = true ∧ ({ tEast with team := { tEast.team with down := [0] } } : State).wayWhole 1 1 = false := by decide

set_option maxRecDepth 20000 in
theorem witness_TeamsFormAndElectTheirCoachman_flit : capOfBytes (tCapFlit (tCap 1 1 1)).payload = tCap 1 1 1 ∧ ((tJoin (tCap 2 1 1)).rxPlain 2 0 (tCapFlit (tCap 1 1 1))).2 = true ∧
    ((tJoin (tCap 2 1 1)).rxPlain 2 0 (tCapFlit (tCap 1 1 1))).1.rd TEAM_STATUS_STATE = 1 ∧ (tJoin (tCap 2 1 1)).rd (LINK_STATUS_STATE 2 0) ≠ 1 ∧ (tCap 1 1 1).host = false ∧
    flitBad (tCapFlit (tCap 1 1 2)) = false ∧ flitBad { tCapFlit (tCap 1 1 2) with crc := 0 } = true ∧ capOfBytes (tCapFlit (tCap 1 1 2)).payload = tCap 1 1 2 ∧
    (∀ h ∈ ((tJoin { tCap 2 1 1 with serial := 3 }).rxPlain 2 0 (tCapFlit (tCap 1 1 1))).1.team.heard, h.serial ≠ (tCap 1 1 1).serial) ∧ (tLink 1).rd (LINK_STATUS_STATE 2 0) = 1 ∧
    judgeOrder (tCap 1 1 1) [tCap 1 1 1, { tCap 2 1 1 with serial := 3 }] = [tCap 1 1 1, { tCap 2 1 1 with serial := 3 }] := by decide

-- The spec's worked examples.

/-- Addresses on die 5, and the route from die 0 to it (01_organisation.md, Worked example: addresses on die 5). -/
theorem test_addresses : sramBase 5 = 0x010500000000 ∧ coreAddr 5 37 0 = 0x010542500000 ∧ coreAddr 5 37 0xC0000 = 0x0105425C0000 ∧ dieReg 5 0 = 0x020050000000 ∧
    dieOf 0x00A000000000 = 5 ∧ State.reset.routeOk 0 5 = true ∧ (State.reset.modDie 1 (fun x => { x with fenced := true })).routeOk 0 5 = false := by decide

/-- acc16: 1.0, 1.5, the smallest normal and subnormal numbers, infinity and NaN (R172). -/
theorem test_acc16_encodings : f16acc.encode (.fin false 1 0) = 0x3E00 ∧ f16acc.encode (.fin false 3 (-1)) = 0x3F00 ∧ f16acc.encode (.fin false 1 (-30)) = 0x0200 ∧
    f16acc.encode (.fin false 1 (-39)) = 0x0001 ∧ f16acc.encode (.inf false) = 0x7E00 ∧ f16acc.encode .nan = 0x7F00 := by decide

/-- rn16(1,024 + 1.0) = 1,024, a tie, and rn16(3 + 1,024.75) = 1,028 (05_accumulation.md, Worked example: run order). -/
theorem test_run_order : f16acc.encode (rn16 (.fin false 1025 0)).1 = f16acc.encode (.fin false 1024 0) ∧
    f16acc.encode (rn16 (.fin false 4111 (-2))).1 = f16acc.encode (.fin false 1028 0) := by decide

/-- rn32(2 to the 24th + 1) = 2 to the 24th, and 16,777,215 stands (05_accumulation.md, Worked example: six contributions). -/
theorem test_rn32 : f32.encode (rn32 (.fin false 16777217 0)).1 = f32.encode (.fin false 16777216 0) ∧ f32.encode (rn32 (.fin true 16777215 0)).1 = 0xCB7FFFFF := by decide

/-- 300 credits held, 40 flits in flight, 150 buffered and 22 credits on their way back of 512 keep the link law; one credit less does not (R84). -/
theorem test_link_law : (let b : LinkCounts := { sent := 512, recv := 500, ret := 362, crin := 340, occ := 150, held := 466 }
    let a := fun held => ({ sent := 540, recv := 500, ret := 362, crin := 340, occ := 12, held := held } : LinkCounts)
    linkLaws 2 0 512 (a 300) b = [] ∧ linkLaws 2 0 512 (a 299) b ≠ []) := by decide

end Sys2Proof.Tests
end

section
/-! SUPPORT. SEM.PAIR and SEM.INIT against the pairs of a core (R117): what declaring a pair changes, and which faults they raise. -/

namespace Sys2Proof.Machine

/-- The core with the pair of the even semaphore `n` declared: the full semaphore holds 0, the empty one `t`, and nothing is held or in flight (R117). -/
def Core.declarePair (c : Core) (n t : Nat) : Core :=
  { c with sem := tabSet (tabSet c.sem n 0) (n + 1) t, pairs := tabSet c.pairs n { total := t, held := 0, infl := 0 } }

theorem Core.semVal_declarePair (c : Core) (n t m : Nat) :
    (c.declarePair n t).semVal m = if m = n then 0 else if m = n + 1 then t else c.semVal m := by
  simp only [Core.semVal, Core.declarePair, tabGet_tabSet]
  by_cases hfull : m = n
  · subst hfull; simp
  · simp [hfull, Ne.symm hfull, eq_comm]

theorem Core.pairs_declarePair (c : Core) (n t f : Nat) :
    tabGet (c.declarePair n t).pairs f pairNone = if f = n then { total := t, held := 0, infl := 0 } else tabGet c.pairs f pairNone := by
  simp only [Core.declarePair, tabGet_tabSet, eq_comm]

/-- The even semaphore `n` is the base of `n` and of `n + 1` alone. -/
theorem even_eq_base_iff {n : Nat} (hn : n % 2 = 0) (m : Nat) : n = m - m % 2 ↔ m = n ∨ m = n + 1 := by
  omega

/-- Declaring a pair pairs its two semaphores, and leaves every other one paired or unpaired as it was. -/
theorem Core.pairOf_declarePair (c : Core) {n : Nat} (hn : n % 2 = 0) (t m : Nat) :
    ((c.declarePair n t).pairOf m).isSome = (decide (m = n ∨ m = n + 1) || (c.pairOf m).isSome) := by
  simp only [Core.pairOf_isSome, Core.declarePair, any_tabSet, even_eq_base_iff hn]

/-- An instruction of one word that faults does what `Faulted` says. -/
theorem State.issue_faulted {s : State} {h : Hdr} (hi : Issues s h 8) {body : State → Res} {num : Nat} {items : List (Nat × Nat)}
    (hb : body s = .fault num items) :
    Faulted h.die h.seq num 0 (s.core h.die h.seq).pc.toNat s (s.issue h 8 true true body) := by
  rw [State.issue_of_issues hi, hb]
  exact s.programFault_faulted h.die h.seq num 0 _ items (by decide)

/-- SEM.INIT of a paired semaphore faults with EV_SEM_PAIRED. -/
theorem execSemInit_of_paired {s : State} {h : Hdr} {y : FmtY} (hi : Issues s h 8) (hl : legalY h.seq 0 true true false false y = true)
    (hp : ((s.core h.die h.seq).pairOf y.sem.toNat).isSome = true) :
    ∃ t, execSemInit h y s = .next t ∧ Faulted h.die h.seq 71 0 (s.core h.die h.seq).pc.toNat s t := by
  unfold execSemInit
  rw [hl]
  exact ⟨_, rfl, State.issue_faulted hi (if_pos hp)⟩

/-- SEM.PAIR on an odd or paired semaphore, or with T = 0, faults with EV_SEM_PAIRED. -/
theorem execSemPair_of_refused {s : State} {h : Hdr} {y : FmtY} (hi : Issues s h 8) (hl : legalY h.seq 0 true true false false y = true)
    (hr : y.sem.toNat % 2 = 1 ∨ s.countY h.die h.seq y = 0 ∨ ((s.core h.die h.seq).pairOf y.sem.toNat).isSome = true) :
    ∃ t, execSemPair h y s = .next t ∧ Faulted h.die h.seq 71 0 (s.core h.die h.seq).pc.toNat s t := by
  unfold execSemPair
  rw [hl]
  exact ⟨_, rfl, State.issue_faulted hi (if_pos hr)⟩

/-- SEM.PAIR of an even, unpaired semaphore with T at least 1 names it, declares the pair and retires. -/
theorem execSemPair_of_allowed {s : State} {h : Hdr} {y : FmtY} (hi : Issues s h 8) (hl : legalY h.seq 0 true true false false y = true)
    (ha : ¬ (y.sem.toNat % 2 = 1 ∨ s.countY h.die h.seq y = 0 ∨ ((s.core h.die h.seq).pairOf y.sem.toNat).isSome = true)) :
    execSemPair h y s = .next (((s.nameSem h.die h.seq y.sem.toNat).modCore h.die h.seq
      (fun c => c.declarePair y.sem.toNat (s.countY h.die h.seq y))).retire h.die h.seq ((s.core h.die h.seq).pc + 8)) := by
  unfold execSemPair
  rw [hl, State.issue_of_issues hi]
  dsimp only
  rw [if_neg ha]
  rfl

/-- The core of a sequencer that named semaphore `n`, declared its pair and retired. -/
theorem State.core_declared (s : State) (d q n k : Nat) (pc : Word) :
    (((s.nameSem d q n).modCore d q (fun c => c.declarePair n k)).retire d q pc).core d q = { (s.core d q).declarePair n k with pc := pc } := by
  rw [State.retire_core, State.core_modCore_same, State.core_nameSem]

/-- Settles O59: where SEM.PAIR is allowed, each clause is read off the core that `execSemPair_of_allowed` leaves; every other case is one of the faults. -/
theorem semPairDeclaresItsPair : Obligations.SemPairDeclaresItsPair := by
  unfold Obligations.SemPairDeclaresItsPair
  intro s h y hi d q n k pc paired done
  refine ⟨fun hl hp => execSemInit_of_paired hi hl hp, fun hl => ⟨fun heven hk hunpaired => ?_, fun hr => execSemPair_of_refused hi hl hr⟩⟩
  have hallowed : ¬ (n % 2 = 1 ∨ k = 0 ∨ paired s n = true) := by
    rintro (hodd | hzero | hpaired)
    · omega
    · omega
    · rw [hunpaired] at hpaired; cases hpaired
  have hcore := s.core_declared d q n k (pc + 8)
  have honly : OnlySync d q s (((s.nameSem d q n).modCore d q (fun c => c.declarePair n k)).retire d q (pc + 8)) :=
    ((OnlySync.named s d q n).modCore _ fun _ => rfl).retire _
  refine ⟨_, execSemPair_of_allowed hi hl hallowed, fun m => ?sem, fun f => ?pairs, fun m => ?declared, fun r => ?scalars,
    ?pc, ?unblocked, fun r => ?preds, honly⟩
  case sem => rw [State.semv, hcore]; exact Core.semVal_declarePair ..
  case pairs => rw [State.pairAt, hcore]; exact Core.pairs_declarePair ..
  case declared => dsimp only [paired]; rw [hcore]; exact Core.pairOf_declarePair _ heven k m
  case scalars => exact State.sreg_congr (by rw [hcore]; rfl) r
  case pc => rw [hcore]
  case unblocked => rw [hcore]; exact State.seqReady_blocked hi.ready
  case preds => exact State.preg_congr (by rw [hcore]; rfl) r

end Sys2Proof.Machine
end

section
/-! SUPPORT. The version of a link (R425): which one both ends settle on, what the capability block of the partner and the end of a training do with it, and
that the link keeps it while it resumes. -/

namespace Sys2Proof.Machine

/-- R425: the ends settle on the smaller LINK_MAX where it is at least both LINK_MIN. -/
theorem State.linkVersion_of_shared {s : State} {c : CapBlock} (hown : s.fuses.linkMin.toNat ≤ min s.fuses.linkMax.toNat c.linkMax.toNat)
    (hpartner : c.linkMin.toNat ≤ min s.fuses.linkMax.toNat c.linkMax.toNat) : s.linkVersion c = some (min s.fuses.linkMax.toNat c.linkMax.toNat) :=
  if_pos ⟨hown, hpartner⟩

/-- R425: where the smaller LINK_MAX is below a LINK_MIN, the ends share no version. -/
theorem State.linkVersion_of_unshared {s : State} {c : CapBlock}
    (h : min s.fuses.linkMax.toNat c.linkMax.toNat < s.fuses.linkMin.toNat ∨ min s.fuses.linkMax.toNat c.linkMax.toNat < c.linkMin.toNat) :
    s.linkVersion c = none :=
  if_neg fun ⟨hown, hpartner⟩ => h.elim (Nat.not_lt.2 hown) (Nat.not_lt.2 hpartner)

/-- A version that two ends settle on fits the field LINK_STATUS.VER. -/
theorem linkVersion_mod (a b : BitVec 8) : min a.toNat b.toNat % 2 ^ 8 = min a.toNat b.toNat :=
  Nat.mod_eq_of_lt (Nat.lt_of_le_of_lt (Nat.min_le_left ..) a.isLt)

/-- Only TEAM_STATUS changes where LINE follows the ports. -/
theorem State.word_setLine_ne (s : State) {r : RegId} (hr : r ≠ .TEAM_STATUS) : s.setLine.word r = s.word r :=
  State.word_wr_ne _ _ (Ne.symm hr)

/-- A unit that is mended moves states of Ledger entries alone. -/
theorem State.word_unitMended_ne (s : State) (d u i : Nat) {r : RegId} (hr : ∀ e, r ≠ .LEDGER_FRAME d e) : (s.unitMended d u i).word r = s.word r := by
  unfold State.unitMended
  refine List.foldlRecOn (motive := fun t : State => t.word r = s.word r) _ _ rfl fun t ht e _ => ?_
  exact (State.word_wr_ne _ _ (Ne.symm (hr e))).trans ht

/-- A link whose ends share no version stays down, with EV_LINK_VERSION raised over the state that says so. -/
theorem State.versionFails_spec (s : State) (d l : Nat) (c : CapBlock) : ∃ u : State,
    s.versionFails d l c = u.raise (mkEv 163 d 0xFF 22 l [(1, l), (1, c.linkMin.toNat), (1, c.linkMax.toNat)]) ∧
    u.rd (LINK_STATUS_STATE d l) = 0 ∧ u = { s with regs := u.regs } ∧ ∀ r, r ≠ .LINK_STATUS d l → r ≠ .TEAM_STATUS → u.word r = s.word r := by
  refine ⟨(s.wr (LINK_STATUS_STATE d l) 0).setLine, rfl, ?down, rfl, fun r hstatus hteam => ?frame⟩
  case down =>
    rw [State.rd_congr (f := LINK_STATUS_STATE d l) (State.word_setLine_ne _ (by simp [LINK_STATUS_STATE])), State.rd_wr_same _ _ _ fle]
    rfl
  case frame => rw [State.word_setLine_ne _ hteam, State.word_wr_ne _ _ (Ne.symm hstatus)]

/-- What the end of a training does after it has written the version keeps it: RTT, the event of lost lanes, LINE, the Ledger,
the replay and the requests that waited. -/
theorem State.linkTrained_ver (s : State) (d l full healthy : Nat) (rtt : BitVec 32) (p : CapBlock) (v : Nat) :
    (s.linkTrained d l full healthy rtt p v).rd (LINK_STATUS_VER d l) = v % 2 ^ 8 := by
  have hraiseKeeps : ∀ (t : State) (ev : Ev), (t.raise ev).rd (LINK_STATUS_VER d l) = t.rd (LINK_STATUS_VER d l) := fun t ev =>
    State.rd_congr (f := LINK_STATUS_VER d l) ((State.raise_raised (Raised.refl t) ev).regs _ rfl)
  have hmendKeeps : ∀ t : State, (t.setLine.unitMended d 22 l).rd (LINK_STATUS_VER d l) = t.rd (LINK_STATUS_VER d l) := fun t =>
    State.rd_congr (f := LINK_STATUS_VER d l) ((State.word_unitMended_ne _ d 22 l fun e he => by cases he).trans (State.word_setLine_ne t fun he => by cases he))
  have hwritten : ∀ (t : State) (w : Nat), ((t.wr (LINK_STATUS_VER d l) v).wr (LINK_RTT_RTT d l) w).rd (LINK_STATUS_VER d l) = v % 2 ^ 8 := fun t w => by
    rw [State.rd_wr_ne (f := LINK_RTT_RTT d l) _ _ (by intro he; cases he), State.rd_wr_same _ _ _ fle]
    rfl
  have hresumeKeeps : ∀ t : State, (t.linkResumes d l).rd (LINK_STATUS_VER d l) = t.rd (LINK_STATUS_VER d l) := fun t =>
    State.rd_congr (f := LINK_STATUS_VER d l) (State.linkResumes_word t d l _)
  unfold State.linkTrained
  extract_lets x n same reinit partnered written raised mended replayed
  have hverRaised : raised.rd (LINK_STATUS_VER d l) = v % 2 ^ 8 := by
    dsimp only [raised]
    split
    · exact hwritten _ _
    · exact (hraiseKeeps _ _).trans (hwritten _ _)
  have hverMended : mended.rd (LINK_STATUS_VER d l) = v % 2 ^ 8 := (hmendKeeps raised).trans hverRaised
  rw [hresumeKeeps]
  dsimp only [replayed]
  split
  · split
    · rw [State.replayFrom_ver, hverMended]
    · exact hverMended
  · exact hverMended

/-- A capability block whose flit is bad is counted alone. -/
theorem execCapabilityBlock_of_bad {s : State} {d l : Nat} {f : Flit} (hthere : s.linkThere d l = true) (htrain : s.rd (LINK_STATUS_STATE d l) = 1)
    (hbad : flitBad f = true) : execCapabilityBlock d l f s = .next (s.count (LINK_COUNT_CRC_ERR d l) 1) := by
  simp [execCapabilityBlock, hthere, htrain, hbad]

/-- A good capability block gives a link in training the version that the ends share. -/
theorem execCapabilityBlock_of_version {s : State} {d l v : Nat} {f : Flit} (hthere : s.linkThere d l = true) (htrain : s.rd (LINK_STATUS_STATE d l) = 1)
    (hgood : flitBad f = false) (hv : s.linkVersion (capOfBytes f.payload) = some v) :
    execCapabilityBlock d l f s = .next (s.wr (LINK_STATUS_VER d l) v) := by
  simp [execCapabilityBlock, hthere, htrain, hgood, hv]

/-- A good capability block of a partner that shares no version keeps a link in training down. -/
theorem execCapabilityBlock_of_noVersion {s : State} {d l : Nat} {f : Flit} (hthere : s.linkThere d l = true) (htrain : s.rd (LINK_STATUS_STATE d l) = 1)
    (hgood : flitBad f = false) (hv : s.linkVersion (capOfBytes f.payload) = none) :
    execCapabilityBlock d l f s = .next (s.versionFails d l (capOfBytes f.payload)) := by
  simp [execCapabilityBlock, hthere, htrain, hgood, hv]

section Retrained

variable {s : State} {d l active : Nat} {i : LinkInfo} (rtt : BitVec 32) {p : CapBlock} (hinfo : s.linkInfo d l = some i) (hup : s.dieUp d = true)
  (htrain : s.rd (LINK_STATUS_STATE d l) = 1) (hactive : 0 < active)
include hinfo hup htrain hactive

/-- A training that leaves lanes ends with the version that the ends share. -/
theorem execLinkRetrained_of_version {v : Nat} (hv : s.linkVersion p = some v) :
    execLinkRetrained d l true active rtt p s = .next (s.linkTrained d l i.active active rtt p v) := by
  simp [execLinkRetrained, hinfo, hup, htrain, hv, Nat.ne_of_gt hactive]

/-- A training of ends that share no version leaves the link down. -/
theorem execLinkRetrained_of_noVersion (hv : s.linkVersion p = none) : execLinkRetrained d l true active rtt p s = .next (s.versionFails d l p) := by
  simp [execLinkRetrained, hinfo, hup, htrain, hv, Nat.ne_of_gt hactive]

end Retrained

/-- Settles O60: whether the ends share a version decides both the capability block and the end of the training. -/
theorem linksUseTheVersionThatBothEndsHave : Obligations.LinksUseTheVersionThatBothEndsHave := by
  unfold Obligations.LinksUseTheVersionThatBothEndsHave
  rintro s d l c v rfl htrain
  refine ⟨fun f hthere hbad => ?bad, fun f hthere hgood hc => ⟨fun hown hpartner => ?block, fun hnone => ?blockFails⟩,
    fun active rtt i hinfo hup hactive => ⟨fun hnone => ?trainedFails, fun hown hpartner => ?trained⟩⟩
  case bad =>
    exact ⟨_, execCapabilityBlock_of_bad hthere htrain hbad, State.rd_count_same _ _ _ fle, rfl, fun r hr => State.word_count_ne _ _ (Ne.symm hr)⟩
  case block =>
    subst hc
    refine ⟨_, execCapabilityBlock_of_version hthere htrain hgood (State.linkVersion_of_shared hown hpartner), ?_, rfl,
      fun r hr => State.word_wr_ne _ _ (Ne.symm hr)⟩
    exact (State.rd_wr_same _ _ _ fle).trans (linkVersion_mod ..)
  case blockFails =>
    subst hc
    obtain ⟨u, hfails, hu⟩ := s.versionFails_spec d l (capOfBytes f.payload)
    refine ⟨u, ?_, hu⟩
    rw [← hfails]
    exact execCapabilityBlock_of_noVersion hthere htrain hgood (State.linkVersion_of_unshared hnone)
  case trainedFails =>
    obtain ⟨u, hfails, hu⟩ := s.versionFails_spec d l c
    refine ⟨u, ?_, hu⟩
    rw [← hfails]
    exact execLinkRetrained_of_noVersion rtt hinfo hup htrain hactive (State.linkVersion_of_unshared hnone)
  case trained =>
    exact ⟨_, execLinkRetrained_of_version rtt hinfo hup htrain hactive (State.linkVersion_of_shared hown hpartner),
      (State.linkTrained_ver ..).trans (linkVersion_mod ..)⟩

end Sys2Proof.Machine
end

section
/-! SUPPORT. The rules of the Lamp (R485): the command of a sample, the register that a write at its boundary reaches, and what a write of EN = 0 does to a rule. -/

namespace Sys2Proof.Machine

/-- R479: without auxiliary power the Lamp takes no sample. -/
theorem exec_lampSample_of_unpowered {s : State} (xs : List Sample) (h : s.lamp.auxIn = false) : exec (.lampSample xs) s = .next s :=
  if_pos h

/-- R479, R485: a sample takes the writes that waited, the channels, the rules in ascending number, their actions, and a power request, in this order. -/
theorem exec_lampSample_of_powered {s u : State} {xs : List Sample} {r : State × List Nat × List Nat} {a : State × Bool} (h : s.lamp.auxIn = true)
    (hu : u = (List.range 64).foldl (fun s ch => s.sampleCh xs ch) s.applyAllI) (hr : r = u.rulesFrom (List.range 128)) (ha : a = r.1.actAll r.2.1 r.2.2) :
    exec (.lampSample xs) s = .next (a.1.powerRequest a.2) := by
  subst hu hr ha
  exact if_neg (by simp [h])

/-- A module address is located among the registers of the module. -/
theorem locateReg_modReg {o : Nat} (h : o < 0x10000000) : locateReg (modReg o) = locateModule o := by
  unfold locateReg modReg
  rw [if_pos (by omega), Nat.add_sub_cancel_left]

/-- R484: where the filter configuration of a channel stands. -/
theorem locateModule_filt {ch : Nat} (h : ch < 64) : locateModule (0x1200 + ch * 0x8) = some (.LAMP_FILT ch) := by
  unfold locateModule
  repeat rw [if_neg (by omega)]
  rw [if_pos (by omega), show (0x1200 + ch * 0x8 - 0x1200) / 0x8 = ch by omega]

/-- R486: where the control word of a rule stands. -/
theorem locateModule_ruleCtl {r : Nat} (h : r < 128) : locateModule (0x1408 + r * 0x10) = some (.LAMP_RULE_CTL r) := by
  unfold locateModule
  repeat rw [if_neg (by omega)]
  rw [if_pos (by omega), show (0x1408 + r * 0x10 - 0x1408) / 0x10 = r by omega]

theorem lampRegAt_filt {ch : Nat} (h : ch < 64) : lampRegAt (RegId.LAMP_FILT ch).addr = some (.LAMP_FILT ch) := by
  have hloc : locateReg (RegId.LAMP_FILT ch).addr = some (.LAMP_FILT ch) := (locateReg_modReg (by omega)).trans (locateModule_filt h)
  rw [lampRegAt, hloc]
  rfl

theorem lampRegAt_ruleCtl {r : Nat} (h : r < 128) : lampRegAt (RegId.LAMP_RULE_CTL r).addr = some (.LAMP_RULE_CTL r) := by
  have hloc : locateReg (RegId.LAMP_RULE_CTL r).addr = some (.LAMP_RULE_CTL r) := (locateReg_modReg (by omega)).trans (locateModule_ruleCtl h)
  rw [lampRegAt, hloc]
  rfl

/-- R479, R483: a write of LAMP_FILT takes effect at the boundary and drops the filter of the channel. -/
theorem State.applyI_filt (s : State) {ch : Nat} (h : ch < 64) (w : Word) (cause : Nat) : s.applyI (RegId.LAMP_FILT ch).addr w cause =
    { s.putClass (.LAMP_FILT ch) .i w with lamp := { s.lamp with filters := tabDel s.lamp.filters ch } } := by
  rw [State.applyI, lampRegAt_filt h]
  rfl

/-- R479, R486: a write of LAMP_RULE_CTL at the boundary is one of EN. -/
theorem State.applyI_ruleCtl (s : State) {r : Nat} (h : r < 128) (w : Word) (cause : Nat) :
    s.applyI (RegId.LAMP_RULE_CTL r).addr w cause = s.enableRule r (w.getLsbD 0) := by
  rw [State.applyI, lampRegAt_ruleCtl h]

/-- What a write of EN = 0 makes of a rule before its release is acted on (R485). -/
def State.ruleOff (s : State) (r : Nat) : State :=
  { (s.wr (LAMP_RULE_CTL_EN r) 0).wr (LAMP_RULE_CTL_TRIPPED r) 0 with lamp := { s.lamp with ruleRun := tabDel s.lamp.ruleRun r } }

/-- R485: a write of EN = 0 acts as a release where the rule was tripped. -/
theorem State.enableRule_off (s : State) (r : Nat) :
    s.enableRule r false = if s.rd (LAMP_RULE_CTL_TRIPPED r) = 1 then (s.ruleOff r).releaseRule r else s.ruleOff r := by
  have hunfold : s.enableRule r false = if s.flag (LAMP_RULE_CTL_TRIPPED r) then (s.ruleOff r).releaseRule r else s.ruleOff r := rfl
  rw [hunfold]
  by_cases htripped : s.rd (LAMP_RULE_CTL_TRIPPED r) = 1
  · rw [flag_one htripped, if_pos rfl, if_pos htripped]
  · rw [flag_not htripped, if_neg Bool.false_ne_true, if_neg htripped]

theorem State.rd_ruleOff_en (s : State) (r : Nat) : (s.ruleOff r).rd (LAMP_RULE_CTL_EN r) = 0 :=
  calc (s.ruleOff r).rd (LAMP_RULE_CTL_EN r)
    _ = (s.wr (LAMP_RULE_CTL_EN r) 0).rd (LAMP_RULE_CTL_EN r) := State.rd_wr_other _ (LAMP_RULE_CTL_TRIPPED r) _ 0 fle fun _ => .inl fle
    _ = 0 := State.rd_wr_same _ _ _ fle

theorem State.rd_ruleOff_tripped (s : State) (r : Nat) : (s.ruleOff r).rd (LAMP_RULE_CTL_TRIPPED r) = 0 :=
  State.rd_wr_same _ (LAMP_RULE_CTL_TRIPPED r) _ fle

theorem State.word_ruleOff_ne (s : State) {r : Nat} {q : RegId} (hq : q ≠ .LAMP_RULE_CTL r) : (s.ruleOff r).word q = s.word q :=
  (State.word_wr_ne (f := LAMP_RULE_CTL_TRIPPED r) _ _ (Ne.symm hq)).trans (State.word_wr_ne (f := LAMP_RULE_CTL_EN r) _ _ (Ne.symm hq))

/-- The run of a rule that is switched off starts again; the others stand. -/
theorem State.ruleRun_ruleOff (s : State) (r k : Nat) :
    tabGet (s.ruleOff r).lamp.ruleRun k 0 = if r = k then 0 else tabGet s.lamp.ruleRun k 0 :=
  tabGet_tabDel ..

/-- Settles O56: the rule of one sample is `ruleStep_spec`; a write of EN = 0 leaves the rule as `State.ruleOff` does. -/
theorem rulesTripAndReleaseAfterDwell : Obligations.RulesTripAndReleaseAfterDwell := by
  unfold Obligations.RulesTripAndReleaseAfterDwell
  refine fun s => ⟨fun xs => ⟨exec_lampSample_of_unpowered xs, fun haux _ _ _ => exec_lampSample_of_powered haux⟩,
    fun r ch y th h dw hch hy hth hh hdw => ruleStep_spec s r ch y th h dw hch hy hth hh hdw, ⟨rfl, ?order⟩, fun r w c hr hw => ?off⟩
  case order =>
    rintro r t x y rfl rfl
    rfl
  case off =>
    refine ⟨s.ruleOff r, ?released, s.rd_ruleOff_en r, s.rd_ruleOff_tripped r, ?run, fun k hk => ?runs, rfl, fun q => s.word_ruleOff_ne⟩
    case released => rw [s.applyI_ruleCtl hr, hw, s.enableRule_off]
    case run => rw [s.ruleRun_ruleOff, if_pos rfl]
    case runs => rw [s.ruleRun_ruleOff, if_neg (Ne.symm hk)]

end Sys2Proof.Machine
end

section
/-! SUPPORT. The filters of the sensor channels (R483): an absent channel, a write of LAMP_FILT, and one step of each kind of filter. -/

namespace Sys2Proof.Machine

/-- R481, R483: a channel that is absent reads 0 and has no filter. -/
theorem State.sampleCh_absent {s : State} (xs : List Sample) {ch : Nat} (h : s.chPresent ch = false) :
    s.sampleCh xs ch = { s.setWord (.LAMP_SENSE ch) 0 with lamp := { s.lamp with filters := tabDel s.lamp.filters ch } } :=
  if_pos h

section Steps

variable (f : Filter) (k n : Nat) (x : Int)

/-- Without a filter the sample is the answer. -/
theorem Filter.step_none : f.step 0 k n x = { f with y := x } := rfl

/-- IIR moves the accumulator of 16 fraction bits by 2^-k of the difference. -/
theorem Filter.step_iir : f.step 1 k n x =
    { f with acc := f.acc + (x * 65536 - f.acc) / ((2 ^ k : Nat) : Int), y := (f.acc + (x * 65536 - f.acc) / ((2 ^ k : Nat) : Int)) / 65536 } := rfl

/-- Median answers that of the window that lost its oldest sample and took the new one. -/
theorem Filter.step_median : f.step 2 k n x = { f with win := f.win.drop 1 ++ [x], y := median (f.win.drop 1 ++ [x]) } := rfl

/-- Debounce answers a sample that stood for n of them, and its last answer otherwise. -/
theorem Filter.step_debounce : f.step 3 k n x =
    { f with run := if x = f.last then f.run + 1 else 1, last := x, y := if n ≤ (if x = f.last then f.run + 1 else 1) then x else f.y } := rfl

end Steps

/-- Settles O57: a present channel is `sampleCh_present`, the median is `median_spec`, and each kind of filter has its equation of one step. -/
theorem filtersRunOncePerSample : Obligations.FiltersRunOncePerSample := by
  unfold Obligations.FiltersRunOncePerSample
  refine ⟨fun s => ⟨fun xs => ⟨exec_lampSample_of_unpowered xs, fun haux _ _ _ => exec_lampSample_of_powered haux⟩, fun xs ch habsent => ?absent,
    fun xs ch k n raw f => sampleCh_present s xs ch k n raw f, fun ch w c hch => ?rewritten⟩, fun f k n x => ?steps, fun _ _ => ⟨rfl, rfl, rfl, rfl⟩, median_spec⟩
  case absent =>
    rw [State.sampleCh_absent xs habsent]
    exact ⟨State.word_setWord_same s (.LAMP_SENSE ch) 0, rfl, fun r hr => State.word_setWord_ne s 0 (Ne.symm hr)⟩
  case rewritten => exact ⟨_, s.applyI_filt hch w c, rfl, rfl, fun q hq => State.word_setWord_ne s _ (Ne.symm hq)⟩
  case steps =>
    rw [Filter.step_none, Filter.step_iir, Filter.step_median, Filter.step_debounce]
    exact ⟨rfl, rfl, rfl, rfl, rfl, rfl, rfl, rfl⟩

end Sys2Proof.Machine
end

section
/-! SUPPORT. The host event ring and its hold (R505, R506): when the ring takes a record, where a record that reaches the lead die goes, and what each hold does with
one. -/

namespace Sys2Proof.Machine

/-- R505, R506: the ring takes a record while it is enabled and not full. -/
theorem State.ringTakes_iff (s : State) : s.ringTakes = true ↔
    s.rd EVRING_CTL_EN = 1 ∧ (s.rd EVRING_PTR_TAIL + 2 ^ 21 - s.rd EVRING_PTR_HEAD) % 2 ^ 21 < 2 ^ s.rd EVRING_CTL_LOG2 := by
  rw [State.ringTakes, State.flag, Bool.and_eq_true, decide_eq_true_eq, decide_eq_true_eq]

/-- A die with no record on its way, or with no way for it, forwards nothing. -/
theorem exec_eventRecordForward_of_stuck {s : State} {d : Nat}
    (h : (s.die d).forward = [] ∨ s.dieUp d = false ∨ s.dieUp s.lead = false ∨ s.routeOk d s.lead = false) : exec (.eventRecordForward d) s = .next s := by
  change execEventRecordForward d s = .next s
  unfold execEventRecordForward
  cases hforward : (s.die d).forward with
  | nil => rfl
  | cons w r => exact if_pos (h.resolve_left (by simp [hforward]))

section Reaches

variable {s : State} {d : Nat} {w : FifoWord} {r : List FifoWord} (hforward : (s.die d).forward = w :: r) (hup : s.dieUp d = true)
  (hlead : s.dieUp s.lead = true) (hroute : s.routeOk d s.lead = true) (hbehind : s.ringRelease.ringHold ≠ [] ∨ s.ringRelease.ringTakes = false)
include hforward hup hlead hroute hbehind

/-- R506: a record that reaches the lead die behind held ones, or while the ring takes none, is offered to the hold. -/
theorem exec_eventRecordForward_of_behind : exec (.eventRecordForward d) s =
    .next ((s.ringRelease.holdRecord w).elim s.ringRelease fun u => u.modDie d (fun x => { x with forward := r })) := by
  have hopen : ¬ (s.dieUp d = false ∨ s.dieUp s.lead = false ∨ s.routeOk d s.lead = false) := by simp [hup, hlead, hroute]
  have hnotPut : ¬ (s.ringRelease.ringHold = [] ∧ s.ringRelease.ringTakes = true) := by
    rintro ⟨hnone, htakes⟩
    exact hbehind.elim (· hnone) fun hfull => Bool.false_ne_true (hfull.symm.trans htakes)
  change execEventRecordForward d s = _
  unfold execEventRecordForward
  rw [hforward]
  dsimp only
  rw [if_neg hopen, if_neg hnotPut]
  cases s.ringRelease.holdRecord w with
  | none => rfl
  | some u => rfl

/-- A record that the hold takes has left its die. -/
theorem exec_eventRecordForward_of_taken {u : State} (hu : s.ringRelease.holdRecord w = some u) :
    exec (.eventRecordForward d) s = .next (u.modDie d (fun x => { x with forward := r })) := by
  rw [exec_eventRecordForward_of_behind hforward hup hlead hroute hbehind, hu, Option.elim_some]

/-- A record that the hold does not take waits at its die. -/
theorem exec_eventRecordForward_of_waiting (hnone : s.ringRelease.holdRecord w = none) : exec (.eventRecordForward d) s = .next s.ringRelease := by
  rw [exec_eventRecordForward_of_behind hforward hup hlead hroute hbehind, hnone, Option.elim_none]

end Reaches

/-- A hold with room takes every record, in order. -/
theorem State.holdRecord_of_room {s : State} (w : FifoWord) (h : s.ringHold.length < 4096) :
    s.holdRecord w = some { s with ringHold := s.ringHold ++ [w] } := if_pos h

/-- A full hold with a soft record drops the oldest of them for another. -/
theorem State.holdRecord_of_soft {s : State} (w : FifoWord) (hfull : 4096 ≤ s.ringHold.length) (hsoft : ∃ x ∈ s.ringHold, x.soft = true) :
    s.holdRecord w = some ({ s with ringHold := dropSoft s.ringHold ++ [w] }.count EVRING_DROP_DROPPED 1) := by
  rw [State.holdRecord, if_neg (Nat.not_lt.2 hfull), if_pos (List.any_eq_true.2 hsoft)]

/-- A full hold of hard records drops a soft newcomer, and leaves a hard one where it is. -/
theorem State.holdRecord_of_hard {s : State} (w : FifoWord) (hfull : 4096 ≤ s.ringHold.length) (hhard : ∀ x ∈ s.ringHold, x.soft = false) :
    s.holdRecord w = if w.soft then some (s.count EVRING_DROP_DROPPED 1) else none := by
  have hnoSoft : ¬ s.ringHold.any FifoWord.soft = true := by simpa using hhard
  rw [State.holdRecord, if_neg (Nat.not_lt.2 hfull), if_neg hnoSoft]

/-- Settles O58: the hold has room, or holds a soft record, which `dropSoft_spec` finds, or holds hard ones alone. -/
theorem fullHoldsDropSoftRecordsAlone : Obligations.FullHoldsDropSoftRecordsAlone := by
  unfold Obligations.FullHoldsDropSoftRecordsAlone
  refine fun s => ⟨s.ringTakes_iff, fun d => ⟨exec_eventRecordForward_of_stuck, ?forward⟩,
    fun w => ⟨s.holdRecord_of_room w, fun hfull hsoft => ?makesRoom, fun hfull hhard => ⟨fun hnew => ?dropped, fun hnew => ?waits⟩⟩⟩
  case forward =>
    rintro w r _ hforward hup hlead hroute rfl hbehind
    exact ⟨fun u => exec_eventRecordForward_of_taken hforward hup hlead hroute hbehind,
      exec_eventRecordForward_of_waiting hforward hup hlead hroute hbehind⟩
  case makesRoom =>
    obtain ⟨a, x, b, hhold, hx, ha, hdrop⟩ := dropSoft_spec s.ringHold hsoft
    refine ⟨a, x, b, _, hhold, hx, ha, s.holdRecord_of_soft w hfull hsoft, ?_, State.rd_count_same _ _ _ fle, rfl,
      fun q hq => State.word_count_ne (f := EVRING_DROP_DROPPED) _ 1 (Ne.symm hq)⟩
    exact congrArg (· ++ [w]) hdrop
  case dropped =>
    exact ⟨_, (s.holdRecord_of_hard w hfull hhard).trans (if_pos hnew), rfl, State.rd_count_same _ _ _ fle, rfl,
      fun q hq => State.word_count_ne (f := EVRING_DROP_DROPPED) _ 1 (Ne.symm hq)⟩
  case waits => exact (s.holdRecord_of_hard w hfull hhard).trans (if_neg (by simp [hnew]))

end Sys2Proof.Machine
end

section
/-! SUPPORT. What every command and every step keep: the invariant of the machine (R517, R518). -/

namespace Sys2Proof.Machine

/-- Every command is answered with a next state that undoes nothing: each arm of the dispatch has its own law. -/
theorem exec_keeps (c : Instr) (s : State) : AnsKeeps s (exec c s) := by
  cases c with
  | nop h a => exact execNop_keeps (Keeps.refl s) h a
  | add h a => exact execAdd_keeps (Keeps.refl s) h a
  | sub h a => exact execSub_keeps (Keeps.refl s) h a
  | mul h a => exact execMul_keeps (Keeps.refl s) h a
  | mulhu h a => exact execMulhu_keeps (Keeps.refl s) h a
  | and h a => exact execAnd_keeps (Keeps.refl s) h a
  | or h a => exact execOr_keeps (Keeps.refl s) h a
  | xor h a => exact execXor_keeps (Keeps.refl s) h a
  | shl h a => exact execShl_keeps (Keeps.refl s) h a
  | shr h a => exact execShr_keeps (Keeps.refl s) h a
  | sar h a => exact execSar_keeps (Keeps.refl s) h a
  | min h a => exact execMin_keeps (Keeps.refl s) h a
  | max h a => exact execMax_keeps (Keeps.refl s) h a
  | minu h a => exact execMinu_keeps (Keeps.refl s) h a
  | maxu h a => exact execMaxu_keeps (Keeps.refl s) h a
  | li h a => exact execLi_keeps (Keeps.refl s) h a
  | lih h a => exact execLih_keeps (Keeps.refl s) h a
  | cmpEq h a => exact execCmpEq_keeps (Keeps.refl s) h a
  | cmpNe h a => exact execCmpNe_keeps (Keeps.refl s) h a
  | cmpLt h a => exact execCmpLt_keeps (Keeps.refl s) h a
  | cmpLtu h a => exact execCmpLtu_keeps (Keeps.refl s) h a
  | cmpGe h a => exact execCmpGe_keeps (Keeps.refl s) h a
  | cmpGeu h a => exact execCmpGeu_keeps (Keeps.refl s) h a
  | pand h a => exact execPand_keeps (Keeps.refl s) h a
  | por h a => exact execPor_keeps (Keeps.refl s) h a
  | pxor h a => exact execPxor_keeps (Keeps.refl s) h a
  | pnot h a => exact execPnot_keeps (Keeps.refl s) h a
  | ld8 h m => exact execLd8_keeps (Keeps.refl s) h m
  | ld16 h m => exact execLd16_keeps (Keeps.refl s) h m
  | ld32 h m => exact execLd32_keeps (Keeps.refl s) h m
  | ld64 h m => exact execLd64_keeps (Keeps.refl s) h m
  | st8 h m => exact execSt8_keeps (Keeps.refl s) h m
  | st16 h m => exact execSt16_keeps (Keeps.refl s) h m
  | st32 h m => exact execSt32_keeps (Keeps.refl s) h m
  | st64 h m => exact execSt64_keeps (Keeps.refl s) h m
  | br h a => exact execBr_keeps (Keeps.refl s) h a
  | jal h a => exact execJal_keeps (Keeps.refl s) h a
  | jr h a => exact execJr_keeps (Keeps.refl s) h a
  | endItem h a => exact execEnd_keeps (Keeps.refl s) h a
  | tdSet h a => exact execTdSet_keeps (Keeps.refl s) h a
  | tdGet h a => exact execTdGet_keeps (Keeps.refl s) h a
  | tdAdd h a => exact execTdAdd_keeps (Keeps.refl s) h a
  | srd h a => exact execSrd_keeps (Keeps.refl s) h a
  | swr h a => exact execSwr_keeps (Keeps.refl s) h a
  | semWait h y => exact execSemWait_keeps (Keeps.refl s) h y
  | semWaitSatisfied die seq => exact execSemWaitSatisfied_keeps (Keeps.refl s) die seq
  | semPost h y => exact execSemPost_keeps (Keeps.refl s) h y
  | semTry h y => exact execSemTry_keeps (Keeps.refl s) h y
  | semRead h y => exact execSemRead_keeps (Keeps.refl s) h y
  | semInit h y => exact execSemInit_keeps (Keeps.refl s) h y
  | semPair h y => exact execSemPair_keeps (Keeps.refl s) h y
  | semUnpair h y => exact execSemUnpair_keeps (Keeps.refl s) h y
  | leaseTake h y => exact execLeaseTake_keeps (Keeps.refl s) h y
  | leaseDone h y => exact execLeaseDone_keeps (Keeps.refl s) h y
  | leaseDoneAccepted die seq => exact execLeaseDoneAccepted_keeps (Keeps.refl s) die seq
  | tickWait h y => exact execTickWait_keeps (Keeps.refl s) h y
  | drayGo h x l => exact execDrayGo_keeps (Keeps.refl s) h x l
  | drayPause h x l => exact execDrayPause_keeps (Keeps.refl s) h x l
  | drayResume h x l => exact execDrayResume_keeps (Keeps.refl s) h x l
  | drayCancel h x l => exact execDrayCancel_keeps (Keeps.refl s) h x l
  | drayStat h x l => exact execDrayStat_keeps (Keeps.refl s) h x l
  | mma h t l => exact execMma_keeps (Keeps.refl s) h t l
  | mvp h t l => exact execMvp_keeps (Keeps.refl s) h t l
  | ewa h t l => exact execEwa_keeps (Keeps.refl s) h t l
  | vop h t l => exact execVop_keeps (Keeps.refl s) h t l
  | hand h t l => exact execHand_keeps (Keeps.refl s) h t l
  | hmerge h t l => exact execHmerge_keeps (Keeps.refl s) h t l
  | hcheck h t l => exact execHcheck_keeps (Keeps.refl s) h t l
  | predQuant h t l => exact execPredQuant_keeps (Keeps.refl s) h t l
  | predTopk h t l => exact execPredTopk_keeps (Keeps.refl s) h t l
  | predThresh h t l => exact execPredThresh_keeps (Keeps.refl s) h t l
  | predEmit h t l => exact execPredEmit_keeps (Keeps.refl s) h t l
  | updAdam h t l => exact execUpdAdam_keeps (Keeps.refl s) h t l
  | digestBlock h t l => exact execDigestBlock_keeps (Keeps.refl s) h t l
  | digestNode h t l => exact execDigestNode_keeps (Keeps.refl s) h t l
  | mgRd h a => exact execMgRd_keeps (Keeps.refl s) h a
  | mgWr h a => exact execMgWr_keeps (Keeps.refl s) h a
  | mgEvent h a => exact execMgEvent_keeps (Keeps.refl s) h a
  | mgFence h a => exact execMgFence_keeps (Keeps.refl s) h a
  | mgImage h a => exact execMgImage_keeps (Keeps.refl s) h a
  | instrStart die core unit par => exact execInstrStart_keeps (Keeps.refl s) die core unit par
  | instrComplete die core unit par => exact execInstrComplete_keeps (Keeps.refl s) die core unit par
  | semPostArrival src dst => exact execSemPostArrival_keeps (Keeps.refl s) src dst
  | workItemStart die core item => exact execWorkItemStart_keeps (Keeps.refl s) die core item
  | workItemComplete die core item => exact execWorkItemComplete_keeps (Keeps.refl s) die core item
  | itemResume die core item => exact execItemResume_keeps (Keeps.refl s) die core item
  | counterAtomic die core => exact execCounterAtomic_keeps (Keeps.refl s) die core
  | frameTick absentDies => exact execFrameTick_keeps (Keeps.refl s) absentDies
  | tickReport x => exact execTickReport_keeps (Keeps.refl s) x
  | verdict x => exact execVerdict_keeps (Keeps.refl s) x
  | verdictApply => exact execVerdictApply_keeps (Keeps.refl s)
  | restoreDone copies mirrorLives bytes ms => exact execRestoreDone_keeps (Keeps.refl s) copies mirrorLives bytes ms
  | ttReady src die w => exact execTtReady_keeps (Keeps.refl s) src die w
  | timetableValidated die => exact execTimetableValidated_keeps (Keeps.refl s) die
  | jobSubmit src w => exact execJobSubmit_keeps (Keeps.refl s) src w
  | resume src => exact execResume_keeps (Keeps.refl s) src
  | jobEnd src => exact execJobEnd_keeps (Keeps.refl s) src
  | image src => exact execImage_keeps (Keeps.refl s) src
  | imageDone => exact execImageDone_keeps (Keeps.refl s)
  | restore src => exact execRestore_keeps (Keeps.refl s) src
  | optArm src die normsq => exact execOptArm_keeps (Keeps.refl s) src die normsq
  | optClose src die => exact execOptClose_keeps (Keeps.refl s) src die
  | optHold src die hold => exact execOptHold_keeps (Keeps.refl s) src die hold
  | ledgerTake src die entry => exact execLedgerTake_keeps (Keeps.refl s) src die entry
  | ledgerDone src die entry => exact execLedgerDone_keeps (Keeps.refl s) src die entry
  | ledgerClose src die entry => exact execLedgerClose_keeps (Keeps.refl s) src die entry
  | leadTakeover ms => exact execLeadTakeover_keeps (Keeps.refl s) ms
  | commitList die frame flips => exact execCommitList_keeps (Keeps.refl s) die frame flips
  | digestRootReport shard level rs => exact execDigestRootReport_keeps (Keeps.refl s) shard level rs
  | descriptorStart die chan => exact execDescriptorStart_keeps (Keeps.refl s) die chan
  | streamCreditTake die chan => exact execStreamCreditTake_keeps (Keeps.refl s) die chan
  | tileStageGrant die chan => exact execTileStageGrant_keeps (Keeps.refl s) die chan
  | memTagGrant die => exact execMemTagGrant_keeps (Keeps.refl s) die
  | memoryRequest die req addr len write parity => exact execMemoryRequest_keeps (Keeps.refl s) die req addr len write parity
  | lpddrRead die req addr linkErrs bad reread mirror => exact execLpddrRead_keeps (Keeps.refl s) die req addr linkErrs bad reread mirror
  | drayAccessError die chan kind => exact execDrayAccessError_keeps (Keeps.refl s) die chan kind
  | writeAccept die to_ => exact execWriteAccept_keeps (Keeps.refl s) die to_
  | readBack die chan => exact execReadBack_keeps (Keeps.refl s) die chan
  | cqEnable src die q w => exact execCqEnable_keeps (Keeps.refl s) src die q w
  | cqHead src die q head => exact execCqHead_keeps (Keeps.refl s) src die q head
  | readRequest die l p => exact execReadRequest_keeps (Keeps.refl s) die l p
  | readResponse die to_ data => exact execReadResponse_keeps (Keeps.refl s) die to_ data
  | write die l p data => exact execWrite_keeps (Keeps.refl s) die l p data
  | linkResetResponse die l p => exact execLinkResetResponse_keeps (Keeps.refl s) die l p
  | registerRead src p => exact execRegisterRead_keeps (Keeps.refl s) src p
  | registerWrite src p w => exact execRegisterWrite_keeps (Keeps.refl s) src p w
  | registerResponse die l p data => exact execRegisterResponse_keeps (Keeps.refl s) die l p data
  | rcRead src addr => exact execRcRead_keeps (Keeps.refl s) src addr
  | packetData die l f => exact execPacketData_keeps (Keeps.refl s) die l f
  | idle die l f => exact execIdle_keeps (Keeps.refl s) die l f
  | nak die l f expected => exact execNak_keeps (Keeps.refl s) die l f expected
  | creditReturn die l f n => exact execCreditReturn_keeps (Keeps.refl s) die l f n
  | laneSwitch die l f lane seq => exact execLaneSwitch_keeps (Keeps.refl s) die l f lane seq
  | waybillCounts die l f c => exact execWaybillCounts_keeps (Keeps.refl s) die l f c
  | timeFlit die l x => exact execTimeFlit_keeps (Keeps.refl s) die l x
  | timeFlitSend => exact execTimeFlitSend_keeps (Keeps.refl s)
  | timetableFrame die l f x => exact execTimetableFrame_keeps (Keeps.refl s) die l f x
  | capabilityBlock die l f => exact execCapabilityBlock_keeps (Keeps.refl s) die l f
  | dieFlit die port f => exact execDieFlit_keeps (Keeps.refl s) die port f
  | ackTimeout die l => exact execAckTimeout_keeps (Keeps.refl s) die l
  | linkRetrain die l cause => exact execLinkRetrain_keeps (Keeps.refl s) die l cause
  | linkRetrained die l ok active rtt partner => exact execLinkRetrained_keeps (Keeps.refl s) die l ok active rtt partner
  | linkEnable src die l w => exact execLinkEnable_keeps (Keeps.refl s) src die l w
  | linkDisable src die l w => exact execLinkDisable_keeps (Keeps.refl s) src die l w
  | linkDown die l => exact execLinkDown_keeps (Keeps.refl s) die l
  | laneSignalLoss die l lane => exact execLaneSignalLoss_keeps (Keeps.refl s) die l lane
  | sparingWindowEnd die l errs => exact execSparingWindowEnd_keeps (Keeps.refl s) die l errs
  | teamJoin src w => exact execTeamJoin_keeps (Keeps.refl s) src w
  | coachmanElection x => exact execCoachmanElection_keeps (Keeps.refl s) x
  | bypassClose src w => exact execBypassClose_keeps (Keeps.refl s) src w
  | mainPowerLow => exact execMainPowerLow_keeps (Keeps.refl s)
  | auxPowerUp env slot coach => exact execAuxPowerUp_keeps (Keeps.refl s) env slot coach
  | auxPowerLoss => exact execAuxPowerLoss_keeps (Keeps.refl s)
  | coldReset src env => exact execColdReset_keeps (Keeps.refl s) src env
  | warmReset src env => exact execWarmReset_keeps (Keeps.refl s) src env
  | lampSample xs => exact execLampSample_keeps (Keeps.refl s) xs
  | framSave secs => exact execFramSave_keeps (Keeps.refl s) secs
  | lampSampleBlock => exact execLampSampleBlock_keeps (Keeps.refl s)
  | powerRequest src w => exact execPowerRequest_keeps (Keeps.refl s) src w
  | calendarSet src w => exact execCalendarSet_keeps (Keeps.refl s) src w
  | ruleEnable src r w => exact execRuleEnable_keeps (Keeps.refl s) src r w
  | filterConfig src ch w => exact execFilterConfig_keeps (Keeps.refl s) src ch w
  | readCounters src arg => exact execReadCounters_keeps (Keeps.refl s) src arg
  | readErrorHistory src arg => exact execReadErrorHistory_keeps (Keeps.refl s) src arg
  | readRetirementList src arg => exact execReadRetirementList_keeps (Keeps.refl s) src arg
  | addRetirementEntry src arg => exact execAddRetirementEntry_keeps (Keeps.refl s) src arg
  | smbusBlockWrite addr w pecOk => exact execSmbusBlockWrite_keeps (Keeps.refl s) addr w pecOk
  | smbusSetPointer addr pecOk => exact execSmbusSetPointer_keeps (Keeps.refl s) addr pecOk
  | smbusBlockRead pecOk => exact execSmbusBlockRead_keeps (Keeps.refl s) pecOk
  | attestReport src addr => exact execAttestReport_keeps (Keeps.refl s) src addr
  | mrExtend src mr addr => exact execMrExtend_keeps (Keeps.refl s) src mr addr
  | fwUpdate src addr sigOk => exact execFwUpdate_keeps (Keeps.refl s) src addr sigOk
  | fwCommit src => exact execFwCommit_keeps (Keeps.refl s) src
  | arbRaise src => exact execArbRaise_keeps (Keeps.refl s) src
  | eventFifoRead die => exact execEventFifoRead_keeps (Keeps.refl s) die
  | eventRecordForward die => exact execEventRecordForward_keeps (Keeps.refl s) die
  | spadBlockReady die core => exact execSpadBlockReady_keeps (Keeps.refl s) die core
  | depotRepartDone die => exact execDepotRepartDone_keeps (Keeps.refl s) die
  | eventRingHead src head => exact execEventRingHead_keeps (Keeps.refl s) src head
  | eventRingEnable src w => exact execEventRingEnable_keeps (Keeps.refl s) src w
  | periodicTracking die ch retrain fail => exact execPeriodicTracking_keeps (Keeps.refl s) die ch retrain fail
  | powerTransitionDone env => exact execPowerTransitionDone_keeps (Keeps.refl s) env
  | mainStageRetry env => exact execMainStageRetry_keeps (Keeps.refl s) env
  | d2dPortRetrained die port ok => exact execD2dPortRetrained_keeps (Keeps.refl s) die port ok
  | fwUpdateDone readBackOk => exact execFwUpdateDone_keeps (Keeps.refl s) readBackOk
  | attestDone => exact execAttestDone_keeps (Keeps.refl s)

/-- An answer that keeps what no command undoes is a next state. -/
theorem AnsKeeps.exists_next {s : State} {a : Ans} (h : AnsKeeps s a) : ∃ t, a = .next t ∧ Keeps s t := by
  cases a with
  | next t => exact ⟨t, rfl, h⟩
  | fault r => exact h.elim
  | refused r => exact h.elim

theorem exec_exists_next (c : Instr) (s : State) : ∃ t, exec c s = .next t ∧ Keeps s t :=
  (exec_keeps c s).exists_next

/-- A step takes the command at the front of the queue, and undoes nothing in the state that lacks it. -/
theorem step_exists_next (s : State) : ∃ t, step s = .next t ∧ Keeps { s with pending := s.pending.tail } t := by
  unfold step
  cases hqueue : s.pending with
  | nil =>
    have htail : { s with pending := ([] : List Instr).tail } = s := by rw [List.tail_nil, ← hqueue]
    exact ⟨s.idle, rfl, htail ▸ State.cycles_keeps (Keeps.refl s) 1⟩
  | cons c r => exact exec_exists_next c _

/-- What no command undoes includes the canonical form of the memories. -/
theorem Keeps.wf {s t : State} (h : Keeps s t) (hs : s.wf = true) : t.wf = true := by
  obtain ⟨hmem, hflash⟩ := Bool.and_eq_true_iff.1 hs
  exact Bool.and_eq_true_iff.2 ⟨h.mem hmem, h.flash hflash⟩

/-- Settles O54: every command keeps the invariant by its law (`exec_keeps`), and a step is a command or an idle cycle. -/
theorem everyStepCompletesAndKeepsTheInvariant : Obligations.EveryStepCompletesAndKeepsTheInvariant := by
  unfold Obligations.EveryStepCompletesAndKeepsTheInvariant
  refine fun s => ⟨fun c => ?command, ?step⟩
  case command =>
    obtain ⟨t, hnext, hkeeps⟩ := exec_exists_next c s
    exact ⟨t, hnext, hkeeps.queue⟩
  case step =>
    obtain ⟨t, hnext, hkeeps⟩ := step_exists_next s
    exact ⟨t, hnext, hkeeps.queue, hkeeps.wf, hkeeps.arb, hkeeps.wire, hkeeps.fresh, hkeeps.fuses⟩

end Sys2Proof.Machine
end

section
/-! SUPPORT. The scalar class of a sequencer (R113, R97): what an instruction leaves that writes one scalar register, one predicate, one tile descriptor register or one
special value, and the fields that its encoding allows. -/

namespace Sys2Proof.Machine

section Executes

variable {s : State} {h : Hdr} {n : Nat} {legal : Bool} {body : State → Res} {c : Instr} (hc : exec c s = .next (s.issue h n legal true body))
  (hi : Issues s h n) (hl : legal = true)
include hc hi hl

/-- An instruction that executes and comes to its end retires behind its own bytes. -/
theorem exec_of_done {u : State} (hb : body s = .done u) : exec c s = .next (u.retire h.die h.seq ((s.core h.die h.seq).pc + BitVec.ofNat 64 n)) := by
  rw [hc, hl, State.issue_of_issues hi, hb]

/-- An instruction that executes and jumps retires at its target. -/
theorem exec_of_jump {u : State} {pc : Word} (hb : body s = .jump u pc) : exec c s = .next (u.retire h.die h.seq pc) := by
  rw [hc, hl, State.issue_of_issues hi, hb]

/-- An instruction that stalls does not retire. -/
theorem exec_of_stall {u : State} (hb : body s = .stall u) : exec c s = .next u := by
  rw [hc, hl, State.issue_of_issues hi, hb]

/-- An instruction that faults does what `Faulted` says, at its own program counter. -/
theorem exec_of_fault {num : Nat} {items : List (Nat × Nat)} (hb : body s = .fault num items) :
    ∃ t, exec c s = .next t ∧ Faulted h.die h.seq num 0 (s.core h.die h.seq).pc.toNat s t := by
  rw [hc, hl, State.issue_of_issues hi, hb]
  exact ⟨_, rfl, s.programFault_faulted h.die h.seq num 0 _ items (by decide)⟩

end Executes

/-- What an instruction leaves that writes the scalar register `r` and retires. -/
theorem State.setS_retire_writes (s : State) (d q : Nat) (r : BitVec 5) (v pc : Word) :
    (∀ x, ((s.setS d q r v).retire d q pc).sreg d q x = if x = r ∧ x ≠ 0 then v else s.sreg d q x) ∧
    (((s.setS d q r v).retire d q pc).core d q).pc = pc ∧ OnlyScalars d q s ((s.setS d q r v).retire d q pc) :=
  ⟨fun x => by rw [State.retire_sreg, State.sreg_setS], by rw [State.retire_core], OnlyScalars.done ..⟩

/-- A predicate register that a field of 5 bits names. -/
theorem eq_truncate_three_iff {r : BitVec 5} (hr : r.toNat ≤ 7) (x : BitVec 3) : x = r.truncate 3 ↔ x.toNat = r.toNat := by
  rw [← BitVec.toNat_inj, BitVec.truncate_eq_setWidth, BitVec.toNat_setWidth, Nat.mod_eq_of_lt (by omega)]

/-- What an instruction leaves that writes the predicate register named by `r` and retires. -/
theorem State.setP_retire_writes (s : State) (d q : Nat) {r : BitVec 5} (hr : r.toNat ≤ 7) (v : Bool) (pc : Word) :
    (∀ x : BitVec 3, ((s.setP d q (r.truncate 3) v).retire d q pc).preg d q x = if x.toNat = r.toNat ∧ x ≠ 0 then v else s.preg d q x) ∧
    (((s.setP d q (r.truncate 3) v).retire d q pc).core d q).pc = pc ∧ OnlyPreds d q s ((s.setP d q (r.truncate 3) v).retire d q pc) :=
  ⟨fun x => by simp only [State.retire_preg, State.preg_setP, eq_truncate_three_iff hr], by rw [State.retire_core, State.setP_core], OnlyPreds.done ..⟩

/-- A legal Format A instruction names a destination in its range. -/
theorem legalA_sd {sd sa sb imm : Nat} {im : ImRule} {a : FmtA} (h : legalA sd sa sb imm im a = true) : a.sd.toNat ≤ sd := by
  simp only [legalA, Bool.and_eq_true, decide_eq_true_eq] at h
  exact h.1.1.1.1

/-- The larger of two words by a key that tells them apart: the second where the keys do not fall. -/
theorem ite_lt_eq_ite_le {α β : Type} [LinearOrder β] {key : α → β} (hkey : Function.Injective key) (x y : α) :
    (if key x < key y then y else x) = if key x ≤ key y then y else x := by
  rcases lt_trichotomy (key x) (key y) with hlt | heq | hgt
  · rw [if_pos hlt, if_pos hlt.le]
  · rw [if_pos heq.le, hkey heq, ite_self]
  · rw [if_neg hgt.not_gt, if_neg hgt.not_ge]

theorem minS_eq (x y : Word) : minS x y = if x.toInt ≤ y.toInt then x else y := by
  simp only [minS, sltW, BitVec.slt, decide_eq_true_eq, ← not_le, ite_not]

theorem maxS_eq (x y : Word) : maxS x y = if x.toInt ≤ y.toInt then y else x := by
  simp only [maxS, sltW, BitVec.slt, decide_eq_true_eq]
  exact ite_lt_eq_ite_le (fun _ _ => BitVec.eq_of_toInt_eq) x y

theorem minU_eq (x y : Word) : minU x y = if x.toNat ≤ y.toNat then x else y := by
  simp only [minU, ultW, BitVec.ult, decide_eq_true_eq, ← not_le, ite_not]

theorem maxU_eq (x y : Word) : maxU x y = if x.toNat ≤ y.toNat then y else x := by
  simp only [maxU, ultW, BitVec.ult, decide_eq_true_eq]
  exact ite_lt_eq_ite_le (fun _ _ => BitVec.eq_of_toNat_eq) x y

/-- Settles O1: each row runs `State.alu` with its operation, and `State.setS_retire_writes` says what that leaves. -/
theorem aluInstructionsWriteTheirResult : Obligations.AluInstructionsWriteTheirResult := by
  unfold Obligations.AluInstructionsWriteTheirResult
  intro s h a hi hl x y
  have row : ∀ {c : Instr} (f : Word → Word → Word) {v : Word}, exec c s = .next (s.alu h a f) → f x y = v → ∃ t, exec c s = .next t ∧
      (∀ r, t.sreg h.die h.seq r = if r = a.sd ∧ r ≠ 0 then v else s.sreg h.die h.seq r) ∧
      (t.core h.die h.seq).pc = (s.core h.die h.seq).pc + 8 ∧ OnlyScalars h.die h.seq s t := by
    rintro c f v hc rfl
    rw [alu_of_issues hi hl] at hc
    exact ⟨_, hc, s.setS_retire_writes h.die h.seq a.sd (f x y) _⟩
  simp only [List.forall_mem_cons, List.not_mem_nil, false_implies, implies_true, and_true]
  exact ⟨row (· + ·) rfl rfl, row (· - ·) rfl rfl, row (· * ·) rfl rfl, row _ rfl rfl, row (· &&& ·) rfl rfl, row (· ||| ·) rfl rfl,
    row (· ^^^ ·) rfl rfl, row _ rfl rfl, row _ rfl rfl, row _ rfl rfl, row minS rfl (minS_eq x y), row maxS rfl (maxS_eq x y),
    row minU rfl (minU_eq x y), row maxU rfl (maxU_eq x y)⟩

theorem cmpGeFlag_eq (x y : Word) : cmpGeFlag x y = decide (y.toInt ≤ x.toInt) := by
  simp only [cmpGeFlag, sltW, BitVec.slt, ← decide_not, not_lt]

theorem cmpGeuFlag_eq (x y : Word) : cmpGeuFlag x y = decide (y.toNat ≤ x.toNat) := by
  simp only [cmpGeuFlag, ultW, BitVec.ult, ← decide_not, not_lt]

/-- Settles O2: each row sets its predicate by `State.cmp` or `State.plogic`, and `State.setP_retire_writes` says what that leaves. -/
theorem comparesAndPredicateLogicSetTheirPredicate : Obligations.ComparesAndPredicateLogicSetTheirPredicate := by
  unfold Obligations.ComparesAndPredicateLogicSetTheirPredicate
  have row : ∀ {s : State} {h : Hdr} {a : FmtA} {c : Instr} (v : Bool), a.sd.toNat ≤ 7 →
      exec c s = .next ((s.setP h.die h.seq (a.sd.truncate 3) v).retire h.die h.seq ((s.core h.die h.seq).pc + 8)) → ∃ t, exec c s = .next t ∧
      (∀ r : BitVec 3, t.preg h.die h.seq r = if r.toNat = a.sd.toNat ∧ r ≠ 0 then v else s.preg h.die h.seq r) ∧
      (t.core h.die h.seq).pc = (s.core h.die h.seq).pc + 8 ∧ OnlyPreds h.die h.seq s t :=
    fun v hsd hc => ⟨_, hc, State.setP_retire_writes _ _ _ hsd v _⟩
  refine ⟨fun s h a hi hl => ?compares, fun s h a hi => ?logic⟩
  case compares =>
    intro x y
    have cmp : ∀ {c : Instr} (f : Word → Word → Bool) {v : Bool}, exec c s = .next (s.cmp h a f) → f x y = v → ∃ t, exec c s = .next t ∧
        (∀ r : BitVec 3, t.preg h.die h.seq r = if r.toNat = a.sd.toNat ∧ r ≠ 0 then v else s.preg h.die h.seq r) ∧
        (t.core h.die h.seq).pc = (s.core h.die h.seq).pc + 8 ∧ OnlyPreds h.die h.seq s t := by
      rintro c f v hc rfl
      exact row _ (legalA_sd hl) (exec_of_done hc hi hl rfl)
    simp only [List.forall_mem_cons, List.not_mem_nil, false_implies, implies_true, and_true]
    exact ⟨cmp cmpEqFlag rfl rfl, cmp cmpNeFlag rfl decide_not.symm, cmp cmpLtFlag rfl rfl, cmp cmpLtuFlag rfl rfl,
      cmp cmpGeFlag rfl (cmpGeFlag_eq x y), cmp cmpGeuFlag rfl (cmpGeuFlag_eq x y)⟩
  case logic =>
    intro x y
    have logic : ∀ {c : Instr} {legal : Bool} (f : Bool → Bool → Bool), exec c s = .next (s.plogic h a legal f) → (legal = true → a.sd.toNat ≤ 7) →
        legal = true → ∃ t, exec c s = .next t ∧
        (∀ r : BitVec 3, t.preg h.die h.seq r = if r.toNat = a.sd.toNat ∧ r ≠ 0 then f x y else s.preg h.die h.seq r) ∧
        (t.core h.die h.seq).pc = (s.core h.die h.seq).pc + 8 ∧ OnlyPreds h.die h.seq s t := by
      intro c legal f hc hsd hl
      exact row _ (hsd hl) (exec_of_done hc hi hl rfl)
    simp only [List.forall_mem_cons, List.not_mem_nil, false_implies, implies_true, and_true]
    exact ⟨logic (· && ·) rfl legalA_sd, logic (· || ·) rfl legalA_sd, logic (· ^^ ·) rfl legalA_sd, logic (fun x _ => !x) rfl legalA_sd⟩

/-- Settles O3: each instruction writes its value to sd, and the special values are those of the registers that they name. -/
theorem registerLoadsWriteSd : Obligations.RegisterLoadsWriteSd := by
  unfold Obligations.RegisterLoadsWriteSd
  intro s h a hi t0
  refine ⟨?loads, rfl, rfl, rfl, rfl, rfl⟩
  have row : ∀ {c : Instr} {legal : Bool} (f : State → Word) {v : Word},
      exec c s = .next (s.issue h 8 legal true fun s => .done (s.setS h.die h.seq a.sd (f s))) → f s = v → legal = true → ∃ t, exec c s = .next t ∧
      (∀ r, t.sreg h.die h.seq r = if r = a.sd ∧ r ≠ 0 then v else s.sreg h.die h.seq r) ∧
      (t.core h.die h.seq).pc = (s.core h.die h.seq).pc + 8 ∧ OnlyScalars h.die h.seq s t := by
    rintro c legal f v hc rfl hl
    exact ⟨_, exec_of_done hc hi hl rfl, State.setS_retire_writes ..⟩
  simp only [List.forall_mem_cons, List.not_mem_nil, false_implies, implies_true, and_true]
  exact ⟨row _ rfl rfl, row _ rfl rfl, row _ rfl rfl, row _ rfl rfl⟩

/-- What an instruction leaves that writes a tile descriptor register and retires. -/
theorem State.setT_retire_writes (s : State) (d q r : Nat) (v : Td) (pc : Word) :
    (∀ x, ((s.setT d q r v).retire d q pc).treg d q x = if x = r then v else s.treg d q x) ∧
    (((s.setT d q r v).retire d q pc).core d q).pc = pc ∧ OnlyTds d q s ((s.setT d q r v).retire d q pc) := by
  have hcore : (s.setT d q r v).core d q = { s.core d q with td := tabSet (s.core d q).td r v } := State.core_modCore_same ..
  refine ⟨fun x => ?_, by rw [State.retire_core], (State.modCore_only ..).trans (State.retire_only ..), by rw [State.retire_core, hcore]⟩
  rw [State.retire_treg, State.treg, hcore, tabGet_tabSet, State.treg]
  simp only [eq_comm]

/-- TD.ADD computes BASE from the low half of the register alone, which gives the same 20 bits (R113). -/
theorem tdAdd_base (t : Td) (x y : Word) :
    (t.extractLsb' 0 64 + x + y).extractLsb' 0 20 = BitVec.ofNat 20 (t.toNat + x.toNat + y.toNat) := by
  apply BitVec.eq_of_toNat_eq
  simp only [BitVec.extractLsb'_toNat, BitVec.toNat_add, BitVec.toNat_ofNat, Nat.shiftRight_zero]
  omega

/-- Settles O4: TD.SET and TD.ADD by `State.setT_retire_writes`; SWR by the index that it names. -/
theorem descriptorsAndSpecialValuesAreWrittenAlone : Obligations.DescriptorsAndSpecialValuesAreWrittenAlone := by
  unfold Obligations.DescriptorsAndSpecialValuesAreWrittenAlone
  refine ⟨fun s h a hi hcore => ?descriptors, fun s h a hi hl => ?special⟩
  case descriptors =>
    intro t0
    have row : ∀ {c : Instr} {legal : Bool} (f : State → Td) {v : Td},
        exec c s = .next (s.issue h 8 (legal && !isCtl h.seq) true fun s => .done (s.setT h.die h.seq a.sd.toNat (f s))) → f s = v →
        legal = true → ∃ t, exec c s = .next t ∧
        (∀ r, t.treg h.die h.seq r = if r = a.sd.toNat then v else s.treg h.die h.seq r) ∧
        (t.core h.die h.seq).pc = (s.core h.die h.seq).pc + 8 ∧ OnlyTds h.die h.seq s t := by
      rintro c legal f v hc rfl hl
      exact ⟨_, exec_of_done hc hi (by rw [hl, hcore]; rfl) rfl, State.setT_retire_writes ..⟩
    simp only [List.forall_mem_cons, List.not_mem_nil, false_implies, implies_true, and_true]
    exact ⟨row _ rfl rfl, row _ rfl (congrArg (t0.extractLsb' 20 108 ++ ·) (tdAdd_base ..))⟩
  case special =>
    intro v c
    have written : ∀ u : State, exec (.swr h a) s = .next (u.retire h.die h.seq (c.pc + 8)) → OnlySeq h.die h.seq s u →
        u.core h.die h.seq = { c with runlen := if a.imm = 8 then v else c.runlen, seed := if a.imm = 9 then v else c.seed } →
        ∃ t, exec (.swr h a) s = .next t ∧ OnlySeq h.die h.seq s t ∧ t.core h.die h.seq = { c with
          pc := c.pc + 8, runlen := if a.imm = 8 then v else c.runlen, seed := if a.imm = 9 then v else c.seed } := fun u hexec honly hcore =>
      ⟨_, hexec, honly.trans (State.retire_only ..), by rw [State.retire_core, hcore]⟩
    by_cases hrunlen : a.imm = 8
    · have hseed : a.imm ≠ 9 := by rw [hrunlen]; decide
      exact written _ (exec_of_done rfl hi hl (if_pos hrunlen)) (State.modCore_only ..) (by rw [State.core_modCore_same, if_pos hrunlen, if_neg hseed])
    by_cases hseed : a.imm = 9
    · exact written _ (exec_of_done rfl hi hl ((if_neg hrunlen).trans (if_pos hseed))) (State.modCore_only ..)
        (by rw [State.core_modCore_same, if_neg hrunlen, if_pos hseed])
    · exact written s (exec_of_done rfl hi hl ((if_neg hrunlen).trans (if_neg hseed))) (OnlySeq.refl ..) (by rw [if_neg hrunlen, if_neg hseed])

end Sys2Proof.Machine
end

section
/-! SUPPORT. Branches, illegal and privileged instructions, false predicates, NOP and END (R102, R113, R127, R99). -/

namespace Sys2Proof.Machine

@[simp] theorem State.retire_pc (s : State) (d q : Nat) (pc : Word) : ((s.retire d q pc).core d q).pc = pc := by
  rw [State.retire_core]

/-- A branch or jump with an aligned target jumps, and one with another target faults with EV_MISALIGNED. -/
theorem branchTo_of_aligned {u : State} {pc : Word} (h : pc.toNat % 8 = 0) : branchTo u pc = .jump u pc := if_pos h

theorem branchTo_of_misaligned {u : State} {pc : Word} (h : pc.toNat % 8 ≠ 0) : branchTo u pc = .fault 66 [(6, pc.toNat)] := if_neg h

/-- Settles O5: the three bodies are `branchTo`, which jumps or faults by the alignment of its target. -/
theorem branchesJumpToAlignedTargets : Obligations.BranchesJumpToAlignedTargets := by
  unfold Obligations.BranchesJumpToAlignedTargets
  intro s h a hi pc near far
  have jumps : ∀ {c : Instr} {target : Word}, exec c s = .next (s.retire h.die h.seq target) →
      ∃ t, exec c s = .next t ∧ (t.core h.die h.seq).pc = target ∧ OnlyPc h.die h.seq s t := fun hc =>
    ⟨_, hc, State.retire_pc .., OnlyPc.retire ..⟩
  refine ⟨fun hl halign => jumps (exec_of_jump rfl hi hl (branchTo_of_aligned halign)), fun hl halign => ?jal,
    fun hl halign => jumps (exec_of_jump rfl hi hl (branchTo_of_aligned halign)), fun hl hmis => exec_of_fault rfl hi hl (branchTo_of_misaligned hmis),
    fun hl hmis => exec_of_fault rfl hi hl (branchTo_of_misaligned hmis), fun hl hmis => exec_of_fault rfl hi hl (branchTo_of_misaligned hmis)⟩
  case jal =>
    obtain ⟨hsd, hpc, honly⟩ := s.setS_retire_writes h.die h.seq a.sd (pc + 8) near
    exact ⟨_, exec_of_jump rfl hi hl (branchTo_of_aligned halign), hpc, hsd, honly⟩

/-- Settles O6: every instruction is issued with its reserved-field check, which `State.issue` makes before the predicate. -/
theorem illegalFieldsFaultWhateverThePredicate : Obligations.IllegalFieldsFaultWhateverThePredicate := by
  unfold Obligations.IllegalFieldsFaultWhateverThePredicate
  intro s h a m y x t l hready hpar e he hfetch hillegal
  obtain ⟨body, hexec⟩ := table_issue s h a m y x t l e he
  rw [hillegal, issue_illegal hready hpar hfetch body] at hexec
  exact ⟨_, hexec, s.programFault_faulted h.die h.seq 64 0 _ [] (by decide)⟩

/-- A management instruction is issued with the privilege of its sequencer. -/
theorem mgmtTable_issue (s : State) (h : Hdr) (a : FmtA) :
    ∀ e ∈ mgmtTable h a, ∃ body, exec e.1 s = .next (s.issue h 8 e.2.2.1 (isCtl h.seq) body) := by
  simp only [mgmtTable, List.forall_mem_cons, List.not_mem_nil, false_implies, implies_true, and_true]
  exact ⟨⟨_, rfl⟩, ⟨_, rfl⟩, ⟨_, rfl⟩, ⟨_, rfl⟩, ⟨_, rfl⟩⟩

/-- Settles O7: on a core the privilege of a management instruction is false, and `State.issue` checks it before the predicate. -/
theorem managementOnACoreFaults : Obligations.ManagementOnACoreFaults := by
  unfold Obligations.ManagementOnACoreFaults
  intro s h a hready hpar hcore hfetch e he hlegal
  obtain ⟨body, hexec⟩ := mgmtTable_issue s h a e he
  rw [hlegal, hcore, issue_priv hready hpar hfetch body] at hexec
  exact ⟨_, hexec, s.programFault_faulted h.die h.seq 65 0 _ [] (by decide)⟩

/-- Retiring changes the sequencer and its count of retired instructions, and no work item. -/
theorem OnlySeqItem.retire {d q : Nat} {s u : State} (h : OnlySeqItem d q s u) (pc : Word) : OnlySeqItem d q s (u.retire d q pc) :=
  have hretire := State.retire_only u d q pc
  ⟨by rw [hretire.rest, h.rest], fun k hk => (hretire.others k hk).trans (h.others k hk), fun r hr => (hretire.regs r hr).trans (h.regs r hr),
    fun a => (hretire.mem a).trans (h.mem a), fun k hk => (State.retire_item ..).trans (h.items k hk)⟩

/-- END of a core ends its running work item. -/
theorem exec_endItem {s : State} {h : Hdr} {a : FmtA} (hi : Issues s h 8) (hl : legalNone a = true) (hcore : isCtl h.seq = false) :
    exec (.endItem h a) s = .next (((s.curItem h.die h.seq).elim s fun k => s.modItem k fun i => { i with st := .ended }).retire h.die h.seq
      ((s.core h.die h.seq).pc + 8)) := by
  refine exec_of_done rfl hi (by rw [hl, hcore]; rfl) ?_
  unfold State.curItem
  cases (s.core h.die h.seq).cur <;> rfl

/-- Ending the running work item changes that item alone. -/
theorem OnlySeqItem.ended (s : State) (d q : Nat) :
    OnlySeqItem d q s ((s.curItem d q).elim s fun k => s.modItem k fun i => { i with st := .ended }) := by
  cases hcur : s.curItem d q with
  | none => exact ⟨rfl, fun _ _ => rfl, fun _ _ => rfl, fun _ => rfl, fun _ _ => rfl⟩
  | some k =>
    refine ⟨rfl, fun _ _ => rfl, fun _ _ => rfl, fun _ => rfl, fun j hj => ?_⟩
    exact State.item_modItem_ne s (fun i => { i with st := .ended }) fun hkj => hj (hcur.trans (congrArg some hkj))

/-- Settles O8: a false predicate and NOP retire alone; END ends the item that runs. -/
theorem nopsRetireAndEndEndsTheItem : Obligations.NopsRetireAndEndEndsTheItem := by
  unfold Obligations.NopsRetireAndEndEndsTheItem
  refine ⟨fun s h a m y x t l hready hpar hpred e he hfetch hlegal hpriv => ?predicate, fun s h a hi hl => ⟨?nop, fun hcore => ?ends⟩⟩
  case predicate =>
    obtain ⟨body, hexec⟩ := table_issue s h a m y x t l e he
    rw [hlegal, hpriv, issue_false hready hpar hpred hfetch body] at hexec
    exact ⟨_, hexec, State.retire_pc .., OnlyPc.retire ..⟩
  case nop => exact ⟨_, exec_of_done rfl hi hl rfl, State.retire_pc .., OnlyPc.retire ..⟩
  case ends =>
    refine ⟨_, exec_endItem hi hl hcore, State.retire_pc .., fun k hk => ?_, (OnlySeqItem.ended s h.die h.seq).retire _⟩
    rw [State.retire_item, hk, Option.elim_some, State.item_modItem_same]

end Sys2Proof.Machine
end

section
/-! SUPPORT. Task windows, loads and stores (R284, R292, R113), and the bank that serves an access within one word (R272, R289). -/

namespace Sys2Proof.Machine

theorem State.winGrants_iff (s : State) (d c w : Nat) (p : Perm) : s.winGrants d c w p = true ↔ match p with
    | .rd => s.rd (SPAD_WIN_RD d c w) = 1
    | .wr => s.rd (SPAD_WIN_WR d c w) = 1
    | .ex => s.rd (SPAD_WIN_EX d c w) = 1 := by
  cases p <;> exact decide_eq_true_iff

/-- R284, R292: what a task window resolves, and that it resolves nothing else. -/
theorem State.window_eq_some_iff (s : State) (d c w : Nat) (ea : Int) (n : Nat) (p : Perm) (o : Nat) : s.window d c w ea n p = some o ↔
    0 ≤ ea ∧ s.rd (SPAD_WIN_BASE d c w) + ea.toNat + n ≤ s.rd (SPAD_WIN_BOUND d c w) ∧ s.winGrants d c w p = true ∧
      (s.rd (SPAD_WIN_BASE d c w) + ea.toNat + n ≤ 0xC0000 ∨
        0xC0000 ≤ s.rd (SPAD_WIN_BASE d c w) + ea.toNat ∧ s.rd (SPAD_WIN_BASE d c w) + ea.toNat + n ≤ 0xD0000) ∧
      (s.rd (SPAD_WIN_BASE d c w) + ea.toNat < 0xC0000 → s.spadReady d c (s.rd (SPAD_WIN_BASE d c w) + ea.toNat) n = true) ∧
      o = s.rd (SPAD_WIN_BASE d c w) + ea.toNat := by
  unfold State.window
  extract_lets base bound at_
  change _ ↔ 0 ≤ ea ∧ at_ + n ≤ bound ∧ _ ∧ (at_ + n ≤ 0xC0000 ∨ 0xC0000 ≤ at_ ∧ at_ + n ≤ 0xD0000) ∧ (at_ < 0xC0000 → s.spadReady d c at_ n = true) ∧ o = at_
  by_cases hwindow : ea < 0 ∨ bound < at_ + n ∨ s.winGrants d c w p = false
  · rw [if_pos hwindow]
    refine iff_of_false (by simp) fun ⟨hea, hbound, hgrants, _⟩ => ?_
    rcases hwindow with hneg | hbeyond | hdenied
    · omega
    · omega
    · rw [hgrants] at hdenied; cases hdenied
  rw [if_neg hwindow]
  push Not at hwindow
  obtain ⟨hea, hbound, hgrants⟩ := hwindow
  by_cases hspace : (at_ < 0xC0000 ∧ 0xC0000 < at_ + n) ∨ 0xD0000 < at_ + n
  · rw [if_pos hspace]
    exact iff_of_false (by simp) fun ⟨_, _, _, hwithin, _⟩ => by omega
  rw [if_neg hspace]
  by_cases hoff : at_ < 0xC0000 ∧ s.spadReady d c at_ n = false
  · rw [if_pos hoff]
    refine iff_of_false (by simp) fun ⟨_, _, _, _, hready, _⟩ => ?_
    exact Bool.false_ne_true (hoff.2.symm.trans (hready hoff.1))
  · rw [if_neg hoff]
    simp only [Option.some.injEq]
    refine ⟨fun heq => ⟨hea, hbound, Bool.not_eq_false _ ▸ hgrants, by omega, fun hlow => ?_, heq.symm⟩, fun ⟨_, _, _, _, _, heq⟩ => heq.symm⟩
    exact Bool.not_eq_false _ ▸ fun h => hoff ⟨hlow, h⟩

/-- Settles O9: a core resolves through its window, whose base and offset give the address. -/
theorem windowsBoundEveryAccess : Obligations.WindowsBoundEveryAccess := by
  unfold Obligations.WindowsBoundEveryAccess
  intro s d c w n ea p hcore base granted a
  have hresolve : s.seqResolve d c w ea n p = (s.window d c w ea n p).map (coreAddr d c) := if_neg (by simp [hcore])
  have haddr : ∀ o, coreAddr d c o = sramBase d + 0x40000000 + c * 0x100000 + o := fun o => rfl
  rw [hresolve, Option.map_eq_some_iff]
  simp only [s.window_eq_some_iff, s.winGrants_iff, haddr]
  constructor
  · rintro ⟨o, ⟨hea, hbound, hgranted, hspace, hready, rfl⟩, rfl⟩
    exact ⟨hea, hbound, hgranted, hspace, hready, (Nat.add_assoc ..).symm⟩
  · rintro ⟨hea, hbound, hgranted, hspace, hready, rfl⟩
    exact ⟨_, ⟨hea, hbound, hgranted, hspace, hready, rfl⟩, (Nat.add_assoc ..).symm⟩

/-- An access of some bytes within one word touches that word alone. -/
theorem spadWords_of_word {o n : Nat} (hn : 0 < n) (hword : o % 32 + n ≤ 32) : spadWords o n = [o / 32 * 32] := by
  have hone : (o % 32 + n + 31) / 32 = 1 := by omega
  rw [spadWords, if_neg (by omega), hone]
  simp

/-- R272, R289: an access within one scratchpad word counts in the bank that holds it, and in no other. -/
theorem State.rd_bankServed (s : State) {a n c o : Nat} (hspace : coreSpaceOf a = some (c, o)) (ho : o < 0xC0000) (hn : 0 < n) (hword : o % 32 + n ≤ 32) (b : Nat) :
    (s.bankServed a n).rd (SPAD_BANK_SERVED (dieOf a) c b) =
      if b = (o / 32 % 1024 / 32 + o / 32 % 32) % 32 then min (s.rd (SPAD_BANK_SERVED (dieOf a) c b) + 1) (2 ^ 32 - 1)
      else s.rd (SPAD_BANK_SERVED (dieOf a) c b) := by
  have hbank : bankOf (o / 32 * 32) = (o / 32 % 1024 / 32 + o / 32 % 32) % 32 := by rw [bankOf, Nat.mul_div_cancel _ (by decide)]
  have hserved : s.bankServed a n = s.count (SPAD_BANK_SERVED (dieOf a) c (bankOf (o / 32 * 32))) 1 := by
    simp only [State.bankServed, hspace, spadWords_of_word hn hword, List.foldl_cons, List.foldl_nil]
    exact if_pos (by omega)
  rw [hserved, hbank]
  by_cases hb : b = (o / 32 % 1024 / 32 + o / 32 % 32) % 32
  · rw [if_pos hb, ← hb]
    exact State.rd_count_same _ _ _ fle
  · rw [if_neg hb]
    exact State.rd_congr (f := SPAD_BANK_SERVED (dieOf a) c b) (State.word_count_ne (f := SPAD_BANK_SERVED (dieOf a) c _) _ 1 fun h => hb (RegId.SPAD_BANK.inj h).2.2.symm)

/-- Settles O10: the sizes share `load_answers` and `store_answers`, and the bank is `State.rd_bankServed`. -/
theorem loadsAndStoresUseTheirWindow : Obligations.LoadsAndStoresUseTheirWindow := by
  unfold Obligations.LoadsAndStoresUseTheirWindow
  refine ⟨fun s h m hi hl => ?loads, fun s h m hi hl => ?stores, fun s a n => ⟨s.bankServed_served a n, fun c o hspace ho hn hword b =>
    s.rd_bankServed hspace ho hn hword b⟩⟩
  case loads =>
    intro ea pc
    simp only [List.forall_mem_cons, List.not_mem_nil, false_implies, implies_true, and_true]
    exact ⟨load_answers hi hl 1 (by decide), load_answers hi hl 2 (by decide), load_answers hi hl 4 (by decide), load_answers hi hl 8 (by decide)⟩
  case stores =>
    intro ea pc
    simp only [List.forall_mem_cons, List.not_mem_nil, false_implies, implies_true, and_true]
    exact ⟨store_answers hi hl 1, store_answers hi hl 2, store_answers hi hl 4, store_answers hi hl 8⟩

end Sys2Proof.Machine
end

section
/-! SUPPORT. SEM.WAIT, SEM.TRY, SEM.READ, SEM.INIT and SEM.UNPAIR (R109, R116, R118, R119): what each leaves of its sequencer and its semaphores. -/

namespace Sys2Proof.Machine

/-- A take leaves everything of a core but its semaphores and pairs. -/
theorem Core.take_fields (c : Core) (n k : Nat) : (c.take n k).pc = c.pc ∧ (c.take n k).blocked = c.blocked ∧ (c.take n k).s = c.s ∧ (c.take n k).p = c.p := by
  rw [Core.take_rest]
  exact ⟨rfl, rfl, rfl, rfl⟩

/-- A take is one of the changes of a sync instruction. -/
theorem OnlySync.take {d q : Nat} {s t : State} (h : OnlySync d q s t) (n k : Nat) : OnlySync d q s (t.modCore d q fun c => c.take n k) :=
  h.modCore _ fun c => by rw [Core.take_rest]

/-- The core of a sequencer that named a semaphore and changed itself. -/
theorem State.core_named_modCore (s : State) (d q n : Nat) (f : Core → Core) : ((s.nameSem d q n).modCore d q f).core d q = f (s.core d q) := by
  rw [State.core_modCore_same, State.core_nameSem]

/-- What is left where `k` is taken from semaphore `n` and the sequencer goes on behind it. -/
theorem Takes.of_retired {s u t : State} {d q n k : Nat} {pc : Word} (hblocked : (u.core d q).blocked = .none) (hsem : (u.core d q).sem = ((s.core d q).take n k).sem)
    (hpairs : (u.core d q).pairs = ((s.core d q).take n k).pairs) (hs : (u.core d q).s = (s.core d q).s) (ht : t = u.retire d q pc) :
    Takes d q n k s t ∧ (t.core d q).pc = pc ∧ (t.core d q).blocked = .none ∧ ∀ r, t.sreg d q r = s.sreg d q r := by
  subst ht
  exact ⟨Takes.of_core (by rw [State.retire_core, hsem]) (by rw [State.retire_core, hpairs]), State.retire_pc .., by rw [State.retire_core, hblocked],
    State.sreg_congr (by rw [State.retire_core, hs])⟩

section Waits

variable {s : State} {h : Hdr} {y : FmtY} (hi : Issues s h 8)

include hi in
/-- A SEM.WAIT that its semaphore covers takes the count. -/
theorem exec_semWait_of_covered (hl : legalY h.seq 0 true true false false y = true) (hcount : 0 < s.countY h.die h.seq y)
    (hcovers : s.countY h.die h.seq y ≤ (s.nameSem h.die h.seq y.sem.toNat).semLeft h.die h.seq y.sem.toNat) :
    exec (.semWait h y) s = .next (((s.nameSem h.die h.seq y.sem.toNat).modCore h.die h.seq
      fun c => c.take y.sem.toNat (s.countY h.die h.seq y)).retire h.die h.seq ((s.core h.die h.seq).pc + 8)) :=
  exec_of_done rfl hi hl ((if_neg hcount.ne').trans (if_pos hcovers))

include hi in
/-- A SEM.WAIT that its semaphore does not cover stalls. -/
theorem exec_semWait_of_short (hl : legalY h.seq 0 true true false false y = true)
    (hshort : (s.nameSem h.die h.seq y.sem.toNat).semLeft h.die h.seq y.sem.toNat < s.countY h.die h.seq y) :
    exec (.semWait h y) s = .next ((s.nameSem h.die h.seq y.sem.toNat).modCore h.die h.seq
      fun c => { c with blocked := .semWait y.sem.toNat (s.countY h.die h.seq y) }) :=
  exec_of_stall rfl hi hl ((if_neg (Nat.ne_of_gt (Nat.zero_lt_of_lt hshort))).trans (if_neg (Nat.not_le.2 hshort)))

include hi in
/-- A SEM.TRY that its semaphore covers takes the count and sets its predicate. -/
theorem exec_semTry_of_covered (hl : legalY h.seq 7 true true false false y = true) (hcount : 0 < s.countY h.die h.seq y)
    (hcovers : s.countY h.die h.seq y ≤ (s.nameSem h.die h.seq y.sem.toNat).semLeft h.die h.seq y.sem.toNat) :
    exec (.semTry h y) s = .next ((((s.nameSem h.die h.seq y.sem.toNat).modCore h.die h.seq fun c => c.take y.sem.toNat (s.countY h.die h.seq y)).setP h.die h.seq
      (y.sd.truncate 3) true).retire h.die h.seq ((s.core h.die h.seq).pc + 8)) :=
  exec_of_done rfl hi hl ((if_neg hcount.ne').trans (if_pos hcovers))

include hi in
/-- A SEM.TRY that its semaphore does not cover clears its predicate. -/
theorem exec_semTry_of_short (hl : legalY h.seq 7 true true false false y = true)
    (hshort : (s.nameSem h.die h.seq y.sem.toNat).semLeft h.die h.seq y.sem.toNat < s.countY h.die h.seq y) :
    exec (.semTry h y) s = .next (((s.nameSem h.die h.seq y.sem.toNat).setP h.die h.seq (y.sd.truncate 3) false).retire h.die h.seq
      ((s.core h.die h.seq).pc + 8)) :=
  exec_of_done rfl hi hl ((if_neg (Nat.ne_of_gt (Nat.zero_lt_of_lt hshort))).trans (if_neg (Nat.not_le.2 hshort)))

/-- A stalled SEM.WAIT completes once its sequencer may go on and its semaphore covers the count. -/
theorem exec_semWaitSatisfied {d q n k : Nat} (hblocked : (s.core d q).blocked = .semWait n k) : exec (.semWaitSatisfied d q) s =
    .next (if s.stallReady d q = true ∧ k ≤ s.semLeft d q n then
      (s.modCore d q fun c => { c.take n k with blocked := .none }).retire d q ((s.core d q).pc + 8) else s) := by
  change execSemWaitSatisfied d q s = _
  unfold execSemWaitSatisfied
  rw [hblocked]
  dsimp only
  split <;> rfl

end Waits

/-- A legal Format Y instruction names a destination in its range. -/
theorem legalY_sd {q sd : Nat} {sem cnt saUsed post : Bool} {y : FmtY} (h : legalY q sd sem cnt saUsed post y = true) : y.sd.toNat ≤ sd := by
  simp only [legalY, Bool.and_eq_true, decide_eq_true_eq] at h
  exact h.1.1.1.1.1.1.1.1

/-- A predicate register after SEM.TRY, which names it by a field of 5 bits. -/
theorem State.preg_setP_truncate (s : State) (d q : Nat) {r : BitVec 5} (hr : r.toNat ≤ 7) (v : Bool) (x : BitVec 3) :
    (s.setP d q (r.truncate 3) v).preg d q x = if x.toNat = r.toNat ∧ x ≠ 0 then v else s.preg d q x := by
  simp only [State.preg_setP, eq_truncate_three_iff hr]

/-- Settles O11: a covered take is `Takes.of_retired`, and a semaphore that falls short leaves the stall or the cleared predicate. -/
theorem semaphoresAreTakenOrWaitedFor : Obligations.SemaphoresAreTakenOrWaitedFor := by
  unfold Obligations.SemaphoresAreTakenOrWaitedFor
  refine ⟨fun s h y hi => ?issued, fun s d q n k hblocked => ⟨fun hready hcovers => ?satisfied, fun hshort => ?waits⟩, State.semLeft_spec⟩
  case issued =>
    intro d q n k pc here
    have hnone := State.seqReady_blocked hi.ready
    have hnamed := OnlySync.named s d q n
    obtain ⟨-, htblocked, hts, htp⟩ := (s.core d q).take_fields n k
    refine ⟨fun hl => ⟨fun hzero => exec_of_fault rfl hi hl (if_pos hzero), fun hcount hcovers => ?wait, fun hshort => ?stall⟩,
      fun hl => ⟨fun hzero => exec_of_fault rfl hi hl (if_pos hzero), fun hcount => ?tries⟩⟩
    case wait =>
      have hcore := s.core_named_modCore d q n fun c => c.take n k
      obtain ⟨htakes, hpc, hfree, hsregs⟩ := Takes.of_retired (s := s) (n := n) (k := k) (pc := pc + 8) (by rw [hcore]; exact htblocked.trans hnone)
        (by rw [hcore]) (by rw [hcore]) (by rw [hcore]; exact hts) rfl
      exact ⟨_, exec_semWait_of_covered hi hl hcount hcovers, htakes, hpc, hfree, hsregs, State.preg_congr (by rw [State.retire_core, hcore]; exact htp),
        (hnamed.take n k).retire _⟩
    case stall =>
      have hcore := s.core_named_modCore d q n fun c => { c with blocked := .semWait n k }
      exact ⟨_, exec_semWait_of_short hi hl hshort, by rw [hcore], by rw [hcore], ⟨by rw [hcore], by rw [hcore]⟩, State.sreg_congr (by rw [hcore]),
        State.preg_congr (by rw [hcore]), hnamed.modCore _ fun _ => rfl⟩
    case tries =>
      have hsd := legalY_sd hl
      by_cases hcovers : k ≤ here
      · have hcore := s.core_named_modCore d q n fun c => c.take n k
        have hset := State.setP_core ((s.nameSem d q n).modCore d q fun c => c.take n k) d q (y.sd.truncate 3) true
        rw [hcore] at hset
        obtain ⟨htakes, hpc, hfree, hsregs⟩ := Takes.of_retired (s := s) (n := n) (k := k) (pc := pc + 8) (by rw [hset]; exact htblocked.trans hnone)
          (by rw [hset]) (by rw [hset]) (by rw [hset]; exact hts) rfl
        refine ⟨_, exec_semTry_of_covered hi hl hcount hcovers, fun _ => htakes, fun hshort => absurd hcovers (Nat.not_le.2 hshort), fun r => ?_, hsregs, hpc, hfree,
          ((hnamed.take n k).setP _ _).retire _⟩
        rw [State.retire_preg, State.preg_setP_truncate _ _ _ hsd, decide_eq_true hcovers]
        exact congrArg (ite _ _) (State.preg_congr (by rw [hcore]; exact htp) r)
      · have hshort := Nat.not_le.1 hcovers
        have hset := State.setP_core (s.nameSem d q n) d q (y.sd.truncate 3) false
        rw [State.core_nameSem] at hset
        refine ⟨_, exec_semTry_of_short hi hl hshort, fun h => absurd h hcovers, fun _ => ⟨by rw [State.retire_core, hset], by rw [State.retire_core, hset]⟩, fun r => ?_,
          State.sreg_congr (by rw [State.retire_core, hset]), State.retire_pc .., by rw [State.retire_core, hset]; exact hnone, (hnamed.setP _ _).retire _⟩
        rw [State.retire_preg, State.preg_setP_truncate _ _ _ hsd, decide_eq_false hcovers]
        exact congrArg (ite _ _) (State.preg_congr (by rw [State.core_nameSem]) r)
  case satisfied =>
    obtain ⟨-, -, hts, htp⟩ := (s.core d q).take_fields n k
    have hcore : (s.modCore d q fun c => { c.take n k with blocked := .none }).core d q = { (s.core d q).take n k with blocked := .none } := State.core_modCore_same ..
    obtain ⟨htakes, hpc, hfree, hsregs⟩ := Takes.of_retired (s := s) (n := n) (k := k) (pc := (s.core d q).pc + 8) (by rw [hcore]) (by rw [hcore]) (by rw [hcore])
      (by rw [hcore]; exact hts) rfl
    exact ⟨_, (exec_semWaitSatisfied hblocked).trans (congrArg _ (if_pos ⟨hready, hcovers⟩)), htakes, hpc, hfree, hsregs,
      State.preg_congr (by rw [State.retire_core, hcore]; exact htp), ((OnlySync.refl d q s).modCore _ fun c => by rw [Core.take_rest]).retire _⟩
  case waits => exact (exec_semWaitSatisfied hblocked).trans (congrArg _ (if_neg fun h => Nat.not_le.2 hshort h.2))

/-- A sequencer that changes semaphores and pairs alone, after it named one, and retires. -/
theorem State.retired_semaphores {s t : State} {d q n : Nat} {pc : Word} {f : Core → Core} (hready : s.seqReady d q = true)
    (hf : ∀ c, f c = { c with sem := (f c).sem, pairs := (f c).pairs }) (ht : t = ((s.nameSem d q n).modCore d q f).retire d q pc) :
    (t.core d q).sem = (f (s.core d q)).sem ∧ (t.core d q).pairs = (f (s.core d q)).pairs ∧ (t.core d q).pc = pc ∧ (t.core d q).blocked = .none ∧
      (∀ r, t.sreg d q r = s.sreg d q r) ∧ (∀ r, t.preg d q r = s.preg d q r) ∧ OnlySync d q s t := by
  subst ht
  have hcore := s.core_named_modCore d q n f
  have hfields : (f (s.core d q)).blocked = (s.core d q).blocked ∧ (f (s.core d q)).s = (s.core d q).s ∧ (f (s.core d q)).p = (s.core d q).p := by
    rw [hf]
    exact ⟨rfl, rfl, rfl⟩
  obtain ⟨hblocked, hs, hp⟩ := hfields
  refine ⟨by rw [State.retire_core, hcore], by rw [State.retire_core, hcore], State.retire_pc .., ?_, State.sreg_congr (by rw [State.retire_core, hcore]; exact hs),
    State.preg_congr (by rw [State.retire_core, hcore]; exact hp), ((OnlySync.named s d q n).modCore f fun c => by rw [hf]).retire pc⟩
  rw [State.retire_core, hcore]
  exact hblocked.trans (State.seqReady_blocked hready)

/-- SEM.READ puts the semaphore into sd. -/
theorem exec_semRead {s : State} {h : Hdr} {y : FmtY} (hi : Issues s h 8) (hl : legalY h.seq 31 true false false false y = true) :
    exec (.semRead h y) s = .next (((s.nameSem h.die h.seq y.sem.toNat).setS h.die h.seq y.sd
      (BitVec.ofNat 64 (s.semv h.die h.seq y.sem.toNat))).retire h.die h.seq ((s.core h.die h.seq).pc + 8)) :=
  exec_of_done rfl hi hl rfl

/-- The base of a pair that was released is the base of no pair; every other pair stands as declared. -/
theorem pairOf_released {c e : Core} {n : Nat} (hn : n % 2 = 0) (he : e.pairs = tabDel c.pairs n) (m : Nat) :
    (e.pairOf m).isSome = (decide (m ≠ n ∧ m ≠ n + 1) && (c.pairOf m).isSome) := by
  simp only [Core.pairOf_isSome, he, any_tabDel, even_eq_base_iff hn, not_or, ← decide_not]

/-- Settles O12: SEM.INIT and SEM.UNPAIR by `State.retired_semaphores`, SEM.READ by its own register; the other cases are faults. -/
theorem semaphoreSetUp : Obligations.SemaphoreSetUp := by
  unfold Obligations.SemaphoreSetUp
  intro s h y hi d q n pc paired
  refine ⟨fun hl hfree => ?init, fun hl hp => execSemInit_of_paired hi hl hp, fun hl => ?read, fun hl => ?unpair⟩
  case init =>
    have hnot : ¬ ((s.core d q).pairOf n).isSome = true := fun h => Bool.false_ne_true (hfree.symm.trans h)
    obtain ⟨hsem, hpairs, hrest⟩ := State.retired_semaphores (s := s) (d := d) (q := q) (n := n) (pc := pc + 8)
      (f := fun c => { c with sem := tabSet c.sem n (s.countY d q y) }) hi.ready (fun _ => rfl) rfl
    refine ⟨_, exec_of_done rfl hi hl (if_neg hnot), fun m => ?_, hpairs, hrest⟩
    refine (congrArg (tabGet · m 0) hsem).trans ?_
    simp only [tabGet_tabSet, @eq_comm _ n m]
    rfl
  case read =>
    have hset := State.setS_core (s.nameSem d q n) d q y.sd (BitVec.ofNat 64 (s.semv d q n))
    rw [State.core_nameSem] at hset
    refine ⟨_, exec_semRead hi hl, fun r => ?_, ⟨by rw [State.retire_core, hset], by rw [State.retire_core, hset]⟩, State.retire_pc ..,
      by rw [State.retire_core, hset]; exact State.seqReady_blocked hi.ready, State.preg_congr (by rw [State.retire_core, hset]),
      ((OnlySync.named s d q n).setS _ _).retire _⟩
    rw [State.retire_sreg, State.sreg_setS]
    exact congrArg (ite _ _) (State.sreg_congr (by rw [State.core_nameSem]) r)
  case unpair =>
    intro p standing
    have hfaults : (n % 2 = 1 ∨ ((s.core d q).pairOf n).isNone = true ∨ (s.core d q).semVal n ≠ 0 ∨ (s.core d q).semVal (n + 1) ≠ p.total ∨ p.held ≠ 0 ∨ p.infl ≠ 0) ↔
        ¬ standing := by
      have hnone : ((s.core d q).pairOf n).isNone = true ↔ ¬ paired s n = true := by cases h : (s.core d q).pairOf n <;> simp [paired, h]
      rw [hnone]
      change (n % 2 = 1 ∨ _ ∨ s.semv d q n ≠ 0 ∨ s.semv d q (n + 1) ≠ p.total ∨ _) ↔ ¬ (_ ∧ _ ∧ _ ∧ _ ∧ _ ∧ _)
      rw [not_and_or, not_and_or, not_and_or, not_and_or, not_and_or, ← Nat.mod_two_ne_zero]
    refine ⟨fun hstanding => ?released, fun hnot => exec_of_fault rfl hi hl (if_pos (hfaults.2 hnot))⟩
    obtain ⟨hsem, hpairs, hrest⟩ := State.retired_semaphores (s := s) (d := d) (q := q) (n := n) (pc := pc + 8)
      (f := fun c => { c with pairs := tabDel c.pairs n }) hi.ready (fun _ => rfl) rfl
    refine ⟨_, exec_of_done rfl hi hl (if_neg fun h => hfaults.1 h hstanding), pairOf_released hstanding.1 hpairs, fun f hf => ?_, hsem, hrest⟩
    refine (congrArg (tabGet · f pairNone) hpairs).trans ?_
    rw [tabGet_tabDel, if_neg (Ne.symm hf)]
    rfl

end Sys2Proof.Machine
end

section
/-! SUPPORT. Posts (R116, R118, R120): what a post to the own core, a post sent to another and the arrival of one leave. -/

namespace Sys2Proof.Machine

/-- A core after another or the same core was changed. -/
theorem State.core_modCore (s : State) (d q : Nat) (g : Core → Core) (e c : Nat) :
    (s.modCore d q g).core e c = if coreKey d q = coreKey e c then g (s.core e c) else s.core e c := by
  by_cases hkey : coreKey d q = coreKey e c
  · have hsame : ∀ u : State, u.core d q = u.core e c := fun u => by rw [State.core, State.core, hkey]
    rw [if_pos hkey, ← hsame, State.core_modCore_same, hsame]
  · rw [if_neg hkey, State.core_modCore_ne _ _ hkey]

/-- Retiring leaves the semaphores and pairs of every core. -/
theorem State.retire_sync (s : State) (d q : Nat) (pc : Word) (e c : Nat) :
    ((s.retire d q pc).core e c).sem = (s.core e c).sem ∧ ((s.retire d q pc).core e c).pairs = (s.core e c).pairs := by
  by_cases hkey : coreKey d q = coreKey e c
  · have hsame : ∀ u : State, u.core e c = u.core d q := fun u => by rw [State.core, State.core, hkey]
    rw [hsame, hsame, State.retire_core]
    exact ⟨rfl, rfl⟩
  · have hcore : (s.retire d q pc).core e c = s.core e c := (s.retire_only d q pc).others _ (Ne.symm hkey)
    rw [hcore]
    exact ⟨rfl, rfl⟩

/-- Issuing a post leaves the semaphores of its core. -/
theorem Core.issuePost_sem (c : Core) (n k : Nat) : (c.issuePost n k).sem = c.sem := by
  rw [Core.issuePost_rest]

/-- A post to the own core is issued and arrives at once. -/
def Core.postOwn (c : Core) (n k : Nat) : Core × PostRes := (c.issuePost n k).arrive n k

theorem Core.postOwn_rest (c : Core) (n k : Nat) : (c.postOwn n k).1 = { c with sem := (c.postOwn n k).1.sem, pairs := (c.postOwn n k).1.pairs } := by
  have harrive : (c.postOwn n k).1 = { c.issuePost n k with sem := (c.postOwn n k).1.sem, pairs := (c.postOwn n k).1.pairs } :=
    (c.issuePost n k).arrive_rest n k
  have hissue := c.issuePost_rest n k
  generalize (c.postOwn n k).1 = e, c.issuePost n k = i at harrive hissue ⊢
  rw [harrive, hissue]

/-- HELD_fe of a pair stands while a post is issued. -/
theorem Core.issuePost_held (c : Core) (n k f : Nat) : (tabGet (c.issuePost n k).pairs f pairNone).held = (tabGet c.pairs f pairNone).held := by
  rw [(c.issuePost_spec n k).1]
  split <;> rfl

/-- A post to the own core that fits is applied. -/
theorem Core.postOwn_applied (c : Core) (n k : Nat) (hlimit : tabGet c.sem n 0 + k ≤ 65535)
    (hheld : ∀ f, c.pairOf n = some f → k ≤ (tabGet c.pairs f pairNone).held) :
    (c.postOwn n k).2 = .applied ∧ (∀ m, tabGet (c.postOwn n k).1.sem m 0 = if m = n then tabGet c.sem n 0 + k else tabGet c.sem m 0) ∧
    (∀ f, tabGet (c.postOwn n k).1.pairs f pairNone = if c.pairOf n = some f then
      { tabGet c.pairs f pairNone with held := (tabGet c.pairs f pairNone).held - k } else tabGet c.pairs f pairNone) ∧
    (∀ m, (c.postOwn n k).1.pairOf m = c.pairOf m) := by
  obtain ⟨hpairs, hpairOf⟩ := c.issuePost_spec n k
  obtain ⟨hres, hsem, harrived, hof⟩ := (c.issuePost n k).arrive_applied n k (by rwa [Core.issuePost_sem])
    (by intro f hf; rw [Core.issuePost_held]; exact hheld f (by rwa [hpairOf] at hf))
  refine ⟨hres, fun m => by rw [Core.postOwn, hsem, Core.issuePost_sem], fun f => ?_, fun m => (hof m).trans (hpairOf m)⟩
  rw [Core.postOwn, harrived, hpairOf, hpairs]
  split
  · simp only [Nat.add_sub_cancel]
  · rfl

/-- What a post to the own core refuses, and why. -/
theorem Core.postOwn_excess (c : Core) (n k f : Nat) (hpair : c.pairOf n = some f) (hshort : (tabGet c.pairs f pairNone).held < k) : (c.postOwn n k).2 = .excess :=
  ((c.issuePost n k).arrive_excess n k f (((c.issuePost_spec n k).2 n).trans hpair) (by rwa [Core.issuePost_held])).1

theorem Core.postOwn_overflow (c : Core) (n k : Nat) (hlimit : 65535 < tabGet c.sem n 0 + k)
    (hheld : ∀ f, c.pairOf n = some f → k ≤ (tabGet c.pairs f pairNone).held) : (c.postOwn n k).2 = .overflow :=
  ((c.issuePost n k).arrive_overflow n k (by rwa [Core.issuePost_sem])
    (by intro f hf; rw [Core.issuePost_held]; exact hheld f (by rwa [(c.issuePost_spec n k).2] at hf))).1

/-- A post reaches a core: it changes the core as `Core.arrive` does, and faults where that refuses it. -/
theorem State.postOwn_eq (s : State) (d q n k : Nat) : s.postOwn d q n k =
    match ((s.core d q).postOwn n k).2 with
    | .applied => s.modCore d q fun c => (c.postOwn n k).1
    | .excess => (s.modCore d q fun c => (c.postOwn n k).1).programFault d q 72 0xF 0 [(1, n), (2, k), (2, senderCode d q)]
    | .overflow => (s.modCore d q fun c => (c.postOwn n k).1).programFault d q 73 0xF 0 [(1, n), (2, k), (2, senderCode d q)] := by
  have hstate : (s.modCore d q fun c => c.issuePost n k).modCore d q (fun _ => ((s.core d q).postOwn n k).1) = s.modCore d q fun c => (c.postOwn n k).1 := by
    simp only [State.modCore, tabSet_tabSet]
  unfold State.postOwn State.postArrives
  rw [State.core_modCore_same]
  dsimp only
  change (match ((s.core d q).postOwn n k).2 with
    | .applied => _
    | .excess => _
    | .overflow => _) = _
  rw [show (s.modCore d q fun c => c.issuePost n k).modCore d q (fun _ => ((s.core d q).issuePost n k).arrive n k |>.1) = _ from hstate]

/-- A fault at a core whose semaphores and pairs a post had changed is a fault of the state before. -/
theorem Faulted.of_arrived {s v t : State} {d q num : Nat} {f : Core → Core} (hv : v = s.modCore d q f)
    (hf : (f (s.core d q)).cur = (s.core d q).cur) (h : Faulted d q num 15 0 v t) : Faulted d q num 15 0 s t := by
  subst hv
  exact Faulted.congr h ⟨rfl, rfl⟩ rfl (fun _ => rfl) rfl (by rw [State.core_modCore_same, hf])

/-- A post that was sent to another core waits behind those in transit, and counts in INFL_fe of its pair. -/
theorem State.sendPost_spec (s : State) (d q e c n k : Nat) : let u := s.sendPost d q e c n k
    u.posts = s.posts ++ [{ src := d, dst := e, seq := c, sem := n, count := k, sender := senderCode d q, tag := s.frameSeq % 65536, chan := none, dropped := false }] ∧
    u.core e c = (s.core e c).issuePost n k ∧ u = { s with cores := u.cores, items := u.items, posts := u.posts } ∧
    (∀ j, j ≠ coreKey e c → tabGet u.cores j coreReset = tabGet s.cores j coreReset) ∧ ∀ j, u.item j = { s.item j with use := (u.item j).use } := by
  intro u
  obtain ⟨hnamed, huse⟩ := s.namePost_rest d q (coreKey e c * 256 + n)
  have hu : u = s.sendPost d q e c n k := rfl
  unfold State.sendPost at hu
  clear_value u
  generalize s.namePost d q (coreKey e c * 256 + n) = v at hnamed huse hu
  have hcore : v.core e c = s.core e c := by rw [hnamed]; rfl
  subst hu
  refine ⟨by rw [hnamed]; rfl, (State.core_modCore_same v e c (fun c => c.issuePost n k)).trans (by rw [hcore]), by rw [hnamed]; rfl, fun j hj => ?_, huse⟩
  exact (tabGet_tabSet_ne _ _ _ (Ne.symm hj)).trans (by rw [hnamed])

/-- The state in which a post has left transit: it is out of the posts, and no longer counted by the channel that made it (R34). -/
def State.postLeaves (s : State) (p : Post) (r : List Post) : State :=
  match p.chan with
  | some k => State.modChan { s with posts := r } (k / 512) (k % 512) (fun x => { x with fill := x.fill - 1 })
  | none => { s with posts := r }

/-- Only the posts in transit and the channels differ once a post has left. -/
theorem State.postLeaves_rest (s : State) (p : Post) (r : List Post) : s.postLeaves p r = { s with posts := r, chans := (s.postLeaves p r).chans } ∧
    (p.chan = none → (s.postLeaves p r).chans = s.chans) ∧
    ∀ k, p.chan = some k → (s.postLeaves p r).chans = (s.modChan (k / 512) (k % 512) (fun x => { x with fill := x.fill - 1 })).chans := by
  unfold State.postLeaves
  cases p.chan with
  | none => exact ⟨rfl, fun _ => rfl, fun k (hk : none = some k) => nomatch hk⟩
  | some j =>
    refine ⟨rfl, fun (h : some j = none) => (nomatch h), fun k (hk : some j = some k) => ?_⟩
    cases hk
    rfl

/-- R23, R85, R118, R120: the oldest post from a die to a die is discarded, is a bus error of its sender, or reaches its core. -/
theorem exec_semPostArrival {s : State} {src dst : Nat} {p : Post} {r : List Post} (htake : takePost src dst s.posts = some (p, r)) :
    exec (.semPostArrival src dst) s = .next (if p.dropped = true ∨ s.dieUp dst = false then s.postLeaves p r
      else if s.routeOk src dst = false then (s.postLeaves p r).raise (mkEv 2 src (p.sender % 256)
        (if p.sender % 256 ≠ 0xFF then 0 else if p.chan.isSome then 21 else 16) 0 [(6, coreAddr dst p.seq 0), (2, 0xFFFF)])
      else (s.postLeaves p r).postArrives dst p.seq p.sem p.count p.sender) := by
  have hleaves : execSemPostArrival src dst s = if p.dropped = true ∨ (s.postLeaves p r).dieUp dst = false then .next (s.postLeaves p r)
      else if (s.postLeaves p r).routeOk src dst = false then .next ((s.postLeaves p r).raise (mkEv 2 src (p.sender % 256)
        (if p.sender % 256 ≠ 0xFF then 0 else if p.chan.isSome then 21 else 16) 0 [(6, coreAddr dst p.seq 0), (2, 0xFFFF)]))
      else .next ((s.postLeaves p r).postArrives dst p.seq p.sem p.count p.sender) := by
    unfold execSemPostArrival
    rw [htake]
    rfl
  have hdieUp : (s.postLeaves p r).dieUp = s.dieUp := by rw [(s.postLeaves_rest p r).1]; rfl
  have hroute : (s.postLeaves p r).routeOk = s.routeOk := by rw [(s.postLeaves_rest p r).1]; rfl
  refine hleaves.trans ?_
  rw [hdieUp, hroute, ← apply_ite, ← apply_ite]

/-- What the arrival of a post at a core does, by what the core makes of it (R118). -/
theorem State.postArrives_eq (s : State) (d q n k sender : Nat) : s.postArrives d q n k sender =
    match ((s.core d q).arrive n k).2 with
    | .applied => s.modCore d q fun c => (c.arrive n k).1
    | .excess => (s.modCore d q fun c => (c.arrive n k).1).programFault d q 72 0xF 0 [(1, n), (2, k), (2, sender)]
    | .overflow => (s.modCore d q fun c => (c.arrive n k).1).programFault d q 73 0xF 0 [(1, n), (2, k), (2, sender)] := rfl

/-- The arrival of a post leaves the running item of its core. -/
theorem Core.arrive_cur (c : Core) (n k : Nat) : (c.arrive n k).1.cur = c.cur := by rw [Core.arrive_rest]

theorem Core.postOwn_cur (c : Core) (n k : Nat) : (c.postOwn n k).1.cur = c.cur := by rw [Core.postOwn_rest]

/-- A post that does not fit either exceeds HELD_fe of its pair, or would raise its semaphore beyond 65,535 (R118). -/
theorem State.not_postFits {s : State} {d q n k : Nat} (h : ¬ s.postFits d q n k) : (∃ f, (s.core d q).pairOf n = some f ∧ (s.pairAt d q f).held < k) ∨
    (∀ f, (s.core d q).pairOf n = some f → k ≤ (s.pairAt d q f).held) ∧ 65535 < s.semv d q n + k := by
  by_cases hheld : ∀ f, (s.core d q).pairOf n = some f → k ≤ (s.pairAt d q f).held
  · exact .inr ⟨hheld, Nat.not_le.1 fun hlimit => h ⟨hheld, hlimit⟩⟩
  · push Not at hheld
    exact .inl hheld

section PostIssued

variable {s : State} {h : Hdr} {y : FmtY} (hi : Issues s h 8) (hl : legalY h.seq 0 true true false true y = true)
  (hcount : s.countY h.die h.seq y ≠ 0)
include hi hl hcount

/-- SEM.POST to the own core. -/
theorem exec_semPost_own (hown : y.scope = 0) : exec (.semPost h y) s =
    .next (((s.nameSem h.die h.seq y.sem.toNat).postOwn h.die h.seq y.sem.toNat (s.countY h.die h.seq y)).retire h.die h.seq
      ((s.core h.die h.seq).pc + 8)) :=
  exec_of_done rfl hi hl ((if_neg hcount).trans (if_pos hown))

/-- SEM.POST to another core is sent where the core is there and reached, and is a bus error elsewhere. -/
theorem exec_semPost_remote (hremote : y.scope ≠ 0) {e : Nat} (he : e = if y.scope = 1 then h.die else y.tdie.toNat) : exec (.semPost h y) s =
    .next ((if s.coreExists e y.tcore.toNat && s.dieUp e && s.routeOk h.die e then s.sendPost h.die h.seq e y.tcore.toNat y.sem.toNat (s.countY h.die h.seq y)
      else s.raise (seqEv 2 h.die h.seq 0 [(6, coreAddr e y.tcore.toNat 0), (2, 0xFFFF)])).retire h.die h.seq ((s.core h.die h.seq).pc + 8)) := by
  have hscope : (y.scope.toNat = 1) = (y.scope = 1) := by
    rw [← BitVec.toNat_inj]; rfl
  refine exec_of_done rfl hi hl ((if_neg hcount).trans ((if_neg hremote).trans ?_))
  simp only [hscope, ← he]
  cases s.coreExists e y.tcore.toNat <;> cases s.dieUp e <;> cases s.routeOk h.die e <;> rfl

end PostIssued

/-- Settles O13: a post to the own core is `State.postOwn_eq`, one to another `State.sendPost_spec`, and an arrival `exec_semPostArrival`. -/
theorem postsAreAppliedOrSentAndArriveInOrder : Obligations.PostsAreAppliedOrSentAndArriveInOrder := by
  unfold Obligations.PostsAreAppliedOrSentAndArriveInOrder
  refine ⟨fun s h y hi hl => ?issued, fun s src dst a b p hposts holder hsrc hdst => ?arrives⟩
  case issued =>
    intro d q n k pc e c there
    have hcore := s.core_named_modCore d q n fun c => (c.postOwn n k).1
    have hown := (s.nameSem d q n).postOwn_eq d q n k
    rw [State.core_nameSem] at hown
    refine ⟨fun hzero => exec_of_fault rfl hi hl (if_pos hzero), fun hcount hscope hfits => ?applied, fun hcount hscope hunfit => ?refused,
      fun hcount hscope hthere => ?sent, fun hcount hscope hthere => ?lost⟩
    case applied =>
      obtain ⟨hres, hsem, hpairs, hof⟩ := (s.core d q).postOwn_applied n k hfits.2 hfits.1
      rw [hres] at hown
      have hexec := exec_semPost_own hi hl hcount.ne' hscope
      rw [show State.postOwn _ h.die h.seq y.sem.toNat _ = _ from hown] at hexec
      obtain ⟨hs, hp, hpc, -, hsregs, hpregs, honly⟩ := State.retired_semaphores (s := s) (d := d) (q := q) (n := n) (pc := pc + 8)
        (f := fun c => (c.postOwn n k).1) hi.ready (fun c => c.postOwn_rest n k) rfl
      refine ⟨_, hexec, ⟨fun m => ?_, fun f => ?_, fun m => ?_⟩, hpc, hsregs, hpregs, honly⟩
      · exact (congrArg (tabGet · m 0) hs).trans (hsem m)
      · exact (congrArg (tabGet · f pairNone) hp).trans (hpairs f)
      · exact (Core.pairOf_congr hp m).trans (hof m)
    case refused =>
      have hexec := exec_semPost_own hi hl hcount.ne' hscope
      have hcur : ((s.nameSem d q n).core d q |>.postOwn n k).1.cur = ((s.nameSem d q n).core d q).cur := Core.postOwn_cur ..
      rcases s.not_postFits hunfit with ⟨f, hpair, hshort⟩ | ⟨hheld, hlimit⟩
      · rw [Core.postOwn_excess _ n k f hpair hshort] at hown
        refine ⟨_, _, hexec, State.retire_pc .., OnlyPc.retire .., fun _ => ?_, fun hheld => absurd (hheld f hpair) (Nat.not_le.2 hshort)⟩
        exact hown ▸ Faulted.of_arrived rfl hcur (State.programFault_refused ..)
      · rw [Core.postOwn_overflow _ n k hlimit hheld] at hown
        refine ⟨_, _, hexec, State.retire_pc .., OnlyPc.retire .., fun ⟨f, hpair, hshort⟩ => absurd (hheld f hpair) (Nat.not_le.2 hshort), fun _ => ?_⟩
        exact hown ▸ Faulted.of_arrived rfl hcur (State.programFault_refused ..)
    case sent =>
      have hexec := exec_semPost_remote hi hl hcount.ne' hscope (e := e) rfl
      rw [if_pos hthere] at hexec
      change exec (.semPost h y) s = .next ((s.sendPost d q e c n k).retire d q (pc + 8)) at hexec
      obtain ⟨hposts, hto, hrest, hothers, hitems⟩ := s.sendPost_spec d q e c n k
      obtain ⟨hinfl, -⟩ := (s.core e c).issuePost_spec n k
      have hretire := State.retire_only (s.sendPost d q e c n k) d q (pc + 8)
      obtain ⟨hsem, hpairs⟩ := State.retire_sync (s.sendPost d q e c n k) d q (pc + 8) e c
      rw [hto] at hsem hpairs
      refine ⟨_, hexec, (congrArg State.posts hretire.rest).trans hposts, fun m => ?_, fun f => ?_, State.retire_pc .., ?_⟩
      · exact congrArg (tabGet · m 0) (hsem.trans (Core.issuePost_sem ..))
      · exact (congrArg (tabGet · f pairNone) hpairs).trans (hinfl f)
      · refine ⟨?_, fun j hj hje => (hretire.others j hj).trans (hothers j hje), fun r hr => (hretire.regs r hr).trans (by rw [hrest]; rfl),
          fun x => (hretire.mem x).trans (by rw [hrest]; rfl), fun j => ?_⟩
        · have hall := hretire.rest
          generalize (s.sendPost d q e c n k).retire d q (pc + 8) = t, s.sendPost d q e c n k = v at hall hrest ⊢
          rw [hall, hrest]
        · rw [State.retire_item]; exact hitems j
    case lost =>
      have hexec := exec_semPost_remote hi hl hcount.ne' hscope (e := e) rfl
      rw [if_neg fun h => Bool.false_ne_true (hthere.symm.trans h)] at hexec
      exact ⟨_, hexec, State.retire_pc .., OnlyPc.retire ..⟩
  case arrives =>
    have htake : takePost src dst s.posts = some (p, a ++ b) := by rw [hposts]; exact takePost_eq src dst a b p holder hsrc hdst
    have hexec := exec_semPostArrival htake
    obtain ⟨hrest, hnone, hsome⟩ := s.postLeaves_rest p (a ++ b)
    generalize s.postLeaves p (a ++ b) = u at hexec hrest hnone hsome
    refine ⟨u, hrest, hnone, hsome, ?_⟩
    intro goes fits
    have hucore : ∀ d q, u.core d q = s.core d q := fun d q => by rw [hrest]; rfl
    have hgoes : goes = true → ¬ (p.dropped = true ∨ s.dieUp dst = false) := by
      intro h; simp only [goes, Bool.and_eq_true, Bool.not_eq_true'] at h; simp [h]
    refine ⟨fun hstays => ?_, fun hgo hbroken => ?_, fun hgo hroute hfits => ?_, fun hgo hroute ⟨f, hpair, hshort⟩ => ?_, fun hgo hroute hheld hlimit => ?_⟩
    · rw [hexec, if_pos]
      simpa [goes, imp_iff_not_or] using hstays
    · rw [hexec, if_neg (hgoes hgo), if_pos hbroken]
    all_goals
      rw [if_neg (hgoes hgo), if_neg (by simp [hroute]), State.postArrives_eq, hucore] at hexec
    · have happlied := (Core.arrive_applied (s.core dst p.seq) p.sem p.count hfits.2 hfits.1).1
      rw [happlied] at hexec
      refine ⟨_, hexec, posted_of _ _ _ _ _ _ hfits (by rw [State.core_modCore_same, hucore]), fun k hk => ?_, rfl⟩
      exact (tabGet_tabSet_ne _ _ _ (Ne.symm hk)).trans (by rw [hrest])
    · rw [(Core.arrive_excess _ p.sem p.count f hpair hshort).1] at hexec
      exact ⟨_, hexec, Faulted.of_arrived rfl (Core.arrive_cur ..) (State.programFault_refused ..)⟩
    · rw [(Core.arrive_overflow _ p.sem p.count (Nat.not_le.1 hlimit) hheld).1] at hexec
      exact ⟨_, hexec, Faulted.of_arrived rfl (Core.arrive_cur ..) (State.programFault_refused ..)⟩

end Sys2Proof.Machine
end

section
/-! SUPPORT. TICK.WAIT (R123), and the long instructions that join the queue of a unit (R89 to R91, R105, R106, R124). -/

namespace Sys2Proof.Machine

/-- A stall, or takes at a counter, change the sequencer alone. -/
theorem OnlyStall.modCore (s : State) (d q : Nat) {f : Core → Core} (hf : ∀ c, f c = { c with pc := (f c).pc, blocked := (f c).blocked, takes := (f c).takes }) :
    OnlyStall d q s (s.modCore d q f) :=
  ⟨⟨rfl, fun _ hk => tabGet_tabSet_ne _ _ _ (Ne.symm hk), fun _ _ => rfl, fun _ => rfl, fun _ _ => rfl⟩, by rw [State.core_modCore_same]; exact hf _⟩

/-- A change of the running work item is none of any other. -/
theorem OnlyStall.modItem {d q i : Nat} {s t : State} (h : OnlyStall d q s t) (hcur : s.curItem d q = some i) (g : Item → Item) : OnlyStall d q s (t.modItem i g) :=
  ⟨⟨by rw [State.modItem, h.rest], h.others, h.regs, h.mem, fun k hk =>
    (State.item_modItem_ne t g fun hik => hk (hcur.trans (congrArg some hik))).trans (h.items k hk)⟩, h.core⟩

/-- A sequencer that goes on behind its stall changes its program counter. -/
theorem OnlyStall.retire {d q : Nat} {s t : State} (h : OnlyStall d q s t) (pc : Word) : OnlyStall d q s (t.retire d q pc) :=
  ⟨h.toOnlySeqItem.retire pc, by rw [State.retire_core, h.core]⟩

/-- TICK.WAIT of a core with a running work item and no lease parks the item. -/
theorem exec_tickWait_parks {s : State} {h : Hdr} {y : FmtY} {i : Nat} (hi : Issues s h 8) (hl : legalY h.seq 31 false false false false y = true)
    (hcore : isCtl h.seq = false) (hcur : s.curItem h.die h.seq = some i) (hleases : (s.item i).leases = []) : exec (.tickWait h y) s =
    .next (((s.modCore h.die h.seq fun c => { c with blocked := .tickWait y.sd.toNat }).modItem i fun x => { x with st := .parked }).retire h.die h.seq
      ((s.core h.die h.seq).pc + 8)) := by
  refine exec_of_done rfl hi hl ?_
  rw [State.curItem] at hcur
  rw [hcore, if_neg Bool.false_ne_true, hcur]
  exact if_neg fun hne => hne hleases

/-- TICK.WAIT of a core whose work item holds a lease faults. -/
theorem exec_tickWait_leased {s : State} {h : Hdr} {y : FmtY} {i : Nat} (hi : Issues s h 8) (hl : legalY h.seq 31 false false false false y = true)
    (hcore : isCtl h.seq = false) (hcur : s.curItem h.die h.seq = some i) (hleases : (s.item i).leases ≠ []) :
    ∃ t, exec (.tickWait h y) s = .next t ∧ Faulted h.die h.seq 74 0 (s.core h.die h.seq).pc.toNat s t := by
  refine exec_of_fault rfl hi hl (items := []) ?_
  rw [State.curItem] at hcur
  rw [hcore, if_neg Bool.false_ne_true, hcur]
  exact if_pos hleases

/-- Settles O16: TICK.WAIT stalls a control core, and parks the work item of a core or faults by its lease table. -/
theorem tickWaitParks : Obligations.TickWaitParks := by
  unfold Obligations.TickWaitParks
  intro s h y hi hl d q pc
  have hstall := OnlyStall.modCore s d q (f := fun c => { c with blocked := .tickWait y.sd.toNat }) fun _ => rfl
  refine ⟨fun hctl => ⟨_, exec_of_stall rfl hi hl (if_pos hctl), by rw [State.core_modCore_same], by rw [State.core_modCore_same], hstall⟩,
    fun i hcore hcur => ⟨fun hleases => ⟨_, exec_tickWait_parks hi hl hcore hcur hleases, ?_, ?_, State.retire_pc .., (hstall.modItem hcur _).retire _⟩,
      exec_tickWait_leased hi hl hcore hcur⟩⟩
  · rw [State.retire_item, State.item_modItem_same]
    rfl
  · rw [State.retire_core, State.core_modItem, State.core_modCore_same]

section Long

variable {s : State} {h : Hdr} {op : UOp} {l : Lists} {c : Instr} (hi : Issues s h 24)
include hi

/-- A transfer instruction joins the queue of its channel. -/
theorem dispatches_transfer {sa win : Bool} {x : FmtX} (hop : op ∈ [UOp.drayGo, .drayPause, .drayResume, .drayCancel, .drayStat])
    (hc : exec c s = .next (s.transfer h op sa win x l)) (hlists : legalLists h.seq l = true) (hl : legalX h.seq sa win x = true) :
    Dispatches h.die h.seq (6 + x.ch.toNat) (CapturesTransfer s h op x l) c s := by
  refine dispatches_of_issues hi c _ (legalX h.seq sa win x) l _ _ _ (by rw [hl, hlists]; rfl) hc fun a ha => ?_
  have hwords : ∀ b, s.fetch h.die h.seq 24 = some b → [BitVec.ofNat 64 (s.natAt a 8), BitVec.ofNat 64 (s.natAt (a + 8) 8), BitVec.ofNat 64 (s.natAt (a + 16) 8)] =
      [BitVec.ofNat 64 (s.natAt b 8), BitVec.ofNat 64 (s.natAt (b + 8) 8), BitVec.ofNat 64 (s.natAt (b + 16) 8)] := fun b hb => by
    rw [Option.some.inj (ha.symm.trans hb)]
  simp only [List.mem_cons, List.not_mem_nil, or_false] at hop
  rcases hop with rfl | rfl | rfl | rfl | rfl <;> exact ⟨⟨rfl, rfl, rfl, rfl, rfl, hwords⟩, rfl, rfl⟩

/-- A tensor instruction of a core joins the queue of its unit. -/
theorem dispatches_tensor {unit : Nat} {legal arr grp : Bool} {t : FmtT} (hop : op ∉ [UOp.drayGo, .drayPause, .drayResume, .drayCancel, .drayStat])
    (hc : exec c s = .next (s.tensor h op unit legal arr grp t l)) (hl : (legal && tensorRest h arr grp t l) = true) :
    Dispatches h.die h.seq unit (CapturesTensor s h op t l) c s := by
  refine dispatches_of_issues hi c _ _ l _ _ _ (by rw [← hl, tensorRest]; simp only [Bool.and_assoc]) hc fun a ha => ?_
  have hwords : ∀ b, s.fetch h.die h.seq 24 = some b → [BitVec.ofNat 64 (s.natAt a 8), BitVec.ofNat 64 (s.natAt (a + 8) 8), BitVec.ofNat 64 (s.natAt (a + 16) 8)] =
      [BitVec.ofNat 64 (s.natAt b 8), BitVec.ofNat 64 (s.natAt (b + 8) 8), BitVec.ofNat 64 (s.natAt (b + 16) 8)] := fun b hb => by
    rw [Option.some.inj (ha.symm.trans hb)]
  cases op
  case drayGo | drayPause | drayResume | drayCancel | drayStat => exact absurd (by decide) hop
  all_goals exact ⟨⟨rfl, rfl, rfl, rfl, rfl, hwords⟩, rfl, rfl, rfl, rfl, rfl, rfl, rfl⟩

end Long

/-- Settles O17: each row is a `State.transfer` or a `State.tensor`. -/
theorem longInstructionsJoinTheirQueue : Obligations.LongInstructionsJoinTheirQueue := by
  unfold Obligations.LongInstructionsJoinTheirQueue
  refine ⟨fun s h x l hi hlists => ?transfers, fun s h t l hi => ?tensors⟩
  case transfers =>
    simp only [List.forall_mem_cons, List.not_mem_nil, false_implies, implies_true, and_true]
    exact ⟨dispatches_transfer hi (by decide) rfl hlists, dispatches_transfer hi (by decide) rfl hlists, dispatches_transfer hi (by decide) rfl hlists,
      dispatches_transfer hi (by decide) rfl hlists, dispatches_transfer hi (by decide) rfl hlists⟩
  case tensors =>
    intro rest zero
    have row : ∀ {c : Instr} {unit : Nat} {op : UOp} {legal : Bool} (arr grp : Bool), op ∉ [UOp.drayGo, .drayPause, .drayResume, .drayCancel, .drayStat] →
        exec c s = .next (s.tensor h op unit legal arr grp t l) → (legal && rest arr grp) = true →
        Dispatches h.die h.seq unit (CapturesTensor s h op t l) c s := fun _ _ hop hc hl => dispatches_tensor hi hop hc hl
    simp only [List.forall_mem_cons, List.not_mem_nil, false_implies, implies_true, and_true]
    exact ⟨row true true (by decide) rfl, row false true (by decide) rfl, row true false (by decide) rfl, row false false (by decide) rfl,
      row false false (by decide) rfl, row false false (by decide) rfl, row false false (by decide) rfl, row false false (by decide) rfl,
      row false false (by decide) rfl, row false false (by decide) rfl, row false false (by decide) rfl, row false false (by decide) rfl,
      row false false (by decide) rfl, row false false (by decide) rfl⟩

end Sys2Proof.Machine
end

section
/-! SUPPORT. The reports of LEASE.DONE (R121, R378): what an accepted report leaves of its item, its counter and its regions, and what the answer leaves of the sequencer. -/

namespace Sys2Proof.Machine

/-- A LEASE.DONE that is answered: the stall ends, pd takes the answer, and the program counter moves past the instruction. -/
def State.reportAnswered (s : State) (d c pd : Nat) (v : Bool) (pc : Word) : State :=
  ((s.modCore d c fun x => { x with blocked := .none }).setP d c (BitVec.ofNat 3 pd) v).retire d c pc

/-- An accepted report: the tile leaves the lease table, is done, and counts at its counter, if it has one, and toward its regions. -/
def State.reportTaken (s : State) (d i t : Nat) (e : WorkEntry) : State :=
  let s := s.modItem i fun x => { x with leases := x.leases.erase t, done := insertAsc t x.done }
  (if e.leased then (s.count (WORK_CTR_FRAME_DONE d e.counter) 1).wr (WORK_CTR_HELD_HELD d e.counter) (s.rd (WORK_CTR_HELD_HELD d e.counter) - 1) else s).credit e

section Answer

variable (s : State) (d c : Nat) {pd : Nat} (v : Bool) (pc : Word)

theorem State.reportAnswered_only : OnlySeq d c s (s.reportAnswered d c pd v pc) :=
  ((s.modCore_only d c _).trans (State.setP_only ..)).trans (State.retire_only ..)

theorem State.reportAnswered_core : ((s.reportAnswered d c pd v pc).core d c).pc = pc ∧ ((s.reportAnswered d c pd v pc).core d c).blocked = .none ∧
    ((s.reportAnswered d c pd v pc).core d c).s = (s.core d c).s := by
  rw [State.reportAnswered, State.retire_core, State.setP_core, State.core_modCore_same]
  exact ⟨rfl, rfl, rfl⟩

theorem State.reportAnswered_preg (hpd : pd < 8) (r : BitVec 3) :
    (s.reportAnswered d c pd v pc).preg d c r = if r.toNat = pd ∧ r ≠ 0 then v else s.preg d c r := by
  have hname : r = BitVec.ofNat 3 pd ↔ r.toNat = pd := by rw [← BitVec.toNat_inj, BitVec.toNat_ofNat, Nat.mod_eq_of_lt hpd]
  simp only [State.reportAnswered, State.retire_preg, State.preg_setP, hname]
  exact congrArg (ite _ _) (State.preg_congr (by rw [State.core_modCore_same]) r)

end Answer

section Taken

variable (s : State) (d i t : Nat) (e : WorkEntry)

theorem State.reportTaken_rest : s.reportTaken d i t e =
    { s with regs := (s.reportTaken d i t e).regs, items := (s.reportTaken d i t e).items, regions := (s.reportTaken d i t e).regions } := by
  rw [State.reportTaken, State.credit_regions]
  split <;> rfl

theorem State.reportTaken_items : (s.reportTaken d i t e).items =
    (s.modItem i fun x => { x with leases := x.leases.erase t, done := insertAsc t x.done }).items := by
  rw [State.reportTaken, State.credit_regions]
  split <;> rfl

theorem State.reportTaken_done (r : Nat) : ((s.reportTaken d i t e).region r).done = (s.region r).done + e.regions.count r := by
  rw [State.reportTaken, credit_region]
  split <;> rfl

theorem State.reportTaken_word (hleased : e.leased = false) (r : RegId) : (s.reportTaken d i t e).word r = s.word r := by
  rw [State.reportTaken, State.credit_regions, if_neg (by rw [hleased]; exact Bool.false_ne_true)]
  rfl

theorem State.reportTaken_byteAt (a : Nat) : (s.reportTaken d i t e).byteAt a = s.byteAt a := by
  have hcredit : ∀ u : State, (u.credit e).byteAt a = u.byteAt a := fun u => by
    rw [State.credit_regions]
    rfl
  rw [State.reportTaken, hcredit]
  split
  · exact (State.byteAt_wr _ rfl _ a).trans (State.byteAt_count _ rfl _ a)
  · rfl

/-- An accepted report of a leased tile counts in DONE of its counter and leaves HELD. -/
theorem State.reportTaken_counted (hleased : e.leased = true) :
    (s.reportTaken d i t e).rd (WORK_CTR_FRAME_DONE d e.counter) = min (s.rd (WORK_CTR_FRAME_DONE d e.counter) + 1) 4294967295 ∧
    (s.reportTaken d i t e).rd (WORK_CTR_HELD_HELD d e.counter) = s.rd (WORK_CTR_HELD_HELD d e.counter) - 1 := by
  have hcredit : ∀ (u : State) (f : FRef), (u.credit e).rd f = u.rd f := fun u f => by
    rw [State.credit_regions]
    rfl
  have hlt := s.rd_lt (WORK_CTR_HELD_HELD d e.counter)
  rw [State.reportTaken, if_pos hleased, hcredit, hcredit]
  refine ⟨?_, ?_⟩
  · rw [State.rd_wr_ne _ _ (by nofun), State.rd_count_same _ _ _ fle]
    rfl
  · rw [State.rd_wr_same _ _ _ fle]
    exact Nat.mod_eq_of_lt (Nat.lt_of_le_of_lt (Nat.sub_le ..) hlt)

end Taken

/-- A LEASE.DONE whose item has completed what it dispatched is answered by the state of its tile, or faults. -/
theorem exec_leaseDone_judged {s : State} {d c t pd i : Nat} (hblocked : (s.core d c).blocked = .leaseDone t pd) (hcur : s.curItem d c = some i)
    (hready : s.stallReady d c = true) (hidle : s.itemBusy d c i = false) :
    ((s.item i).report t = .accepted → exec (.leaseDoneAccepted d c) s =
      .next ((s.reportTaken d i t (s.item i).entry).reportAnswered d c pd true ((s.core d c).pc + 8))) ∧
    ((s.item i).report t = .refused → (s.item i).entry.leased = true → exec (.leaseDoneAccepted d c) s =
      .next (((s.accum (WORK_CTR_REFUSED_REFUSED d (s.item i).entry.counter) 1).raiseFor d
        (mkEv 80 d c 0 (s.item i).entry.counter [(2, (s.item i).entry.ctrName), (4, t)]) none).reportAnswered d c pd false ((s.core d c).pc + 8))) ∧
    ((s.item i).report t = .unknown → exec (.leaseDoneAccepted d c) s =
      .next ((s.modCore d c fun x => { x with blocked := .none }).programFault d c 75 0 (s.core d c).pc.toNat [(2, (s.item i).entry.ctrName), (4, t)])) := by
  rw [State.curItem] at hcur
  have hgo : ¬ (s.stallReady d c = false ∨ s.itemBusy d c i = true) := by simp [hready, hidle]
  change (_ → execLeaseDoneAccepted d c s = _) ∧ (_ → _ → execLeaseDoneAccepted d c s = _) ∧ (_ → execLeaseDoneAccepted d c s = _)
  unfold execLeaseDoneAccepted
  rw [hblocked, hcur]
  dsimp only
  rw [if_neg hgo]
  refine ⟨fun h => ?_, fun h hleased => ?_, fun h => ?_⟩
  · rw [h]
    rfl
  · rw [h]
    dsimp only
    rw [if_pos hleased]
    rfl
  · rw [h]

section Judged

variable {x : Item} {t : Nat}

theorem Item.report_leased (hleased : x.entry.leased = true) :
    x.report t = if t ∈ x.leases then .accepted else if t ∈ x.returned then .refused else .unknown := if_pos hleased

theorem Item.report_implicit (hleased : x.entry.leased = false) (hfirst : x.entry.first ≤ t) (hlast : t < x.entry.first + x.entry.count) (hdone : t ∉ x.done)
    (hret : x.retAll = false) : x.report t = .accepted := by
  unfold Item.report
  rw [if_neg (by rw [hleased]; exact Bool.false_ne_true), if_neg (by omega), if_neg hdone, if_neg (by rw [hret]; exact Bool.false_ne_true)]

end Judged

/-- Settles O15: `Item.report` judges the tile, and `State.reportTaken` and `State.reportAnswered` say what the judgement leaves. -/
theorem leaseReportsAreJudged : Obligations.LeaseReportsAreJudged := by
  unfold Obligations.LeaseReportsAreJudged
  intro s d c t pd i hblocked hcur hready hidle hpd x e k goes accepted
  obtain ⟨hacc, href, hunk⟩ := exec_leaseDone_judged hblocked hcur hready hidle
  have answered : ∀ (w : State) (v : Bool), (∀ a, w.byteAt a = s.byteAt a) → goes (w.reportAnswered d c pd v ((s.core d c).pc + 8)) v := by
    intro w v hmem
    obtain ⟨hpc, hfree, -⟩ := w.reportAnswered_core d c (pd := pd) v ((s.core d c).pc + 8)
    exact ⟨hpc, hfree, fun r hr hr0 => by rw [State.reportAnswered_preg _ _ _ _ _ hpd, if_pos ⟨hr, hr0⟩],
      fun a => ((w.reportAnswered_only d c v _).mem a).trans (hmem a)⟩
  have taken : accepted ((s.reportTaken d i t e).reportAnswered d c pd true ((s.core d c).pc + 8)) := by
    have hw := s.reportTaken_rest d i t e
    have hcore : (s.reportTaken d i t e).core d c = s.core d c := by rw [hw]; rfl
    have honly := (s.reportTaken d i t e).reportAnswered_only d c (pd := pd) true ((s.core d c).pc + 8)
    have hitems : ∀ j, ((s.reportTaken d i t e).reportAnswered d c pd true ((s.core d c).pc + 8)).item j =
        (s.modItem i fun x => { x with leases := x.leases.erase t, done := insertAsc t x.done }).item j := fun j => by
      rw [State.item, honly.rest, State.item]
      exact congrArg (fun l => tabGet l j _) (s.reportTaken_items d i t e)
    refine ⟨answered _ _ (s.reportTaken_byteAt d i t e), by rw [hitems, State.item_modItem_same], fun r => ?_, fun r => State.sreg_congr ?_ r, fun r hr => ?_,
      fun j hj => (hitems j).trans (State.item_modItem_ne _ _ (Ne.symm hj))⟩
    · rw [State.region, honly.rest]
      exact s.reportTaken_done d i t e r
    · rw [((s.reportTaken d i t e).reportAnswered_core d c true _).2.2, hcore]
    · rw [State.reportAnswered_preg _ _ _ _ _ hpd, if_neg fun h => hr h.1]
      exact State.preg_congr (by rw [hcore]) r
  have leases : (((s.reportTaken d i t e).reportAnswered d c pd true ((s.core d c).pc + 8)).item i).leases = x.leases.erase t := by
    rw [State.item, ((s.reportTaken d i t e).reportAnswered_only d c true _).rest]
    change (tabGet (s.reportTaken d i t e).items i _).leases = _
    rw [s.reportTaken_items d i t e]
    exact congrArg Item.leases (s.item_modItem_same i _)
  have words : ∀ (w : State) (v : Bool) (r : RegId), r ≠ .SEQ_CTRL d c → (w.reportAnswered d c pd v ((s.core d c).pc + 8)).word r = w.word r :=
    fun w v => (w.reportAnswered_only d c v _).regs
  refine ⟨fun hleased ht => ?leased, fun hleased hfirst hlast hdone hret => ?implicit, fun hleased hnot hback => ?refused, fun hleased hnot hback => ?unknown⟩
  case leased =>
    obtain ⟨hcount, hheld⟩ := s.reportTaken_counted d i t e hleased
    exact ⟨_, hacc ((Item.report_leased hleased).trans (if_pos ht)), taken, leases, (State.rd_congr (words _ _ _ (by nofun))).trans hcount,
      (State.rd_congr (words _ _ _ (by nofun))).trans hheld⟩
  case implicit =>
    exact ⟨_, hacc (Item.report_implicit hleased hfirst hlast hdone hret), taken,
      fun r hr => (words _ _ r hr).trans (s.reportTaken_word d i t e hleased r)⟩
  case refused =>
    have hraise := State.raiseFor_raised (.refl (s.accum (WORK_CTR_REFUSED_REFUSED d k) 1)) d (mkEv 80 d c 0 k [(2, e.ctrName), (4, t)]) none
    refine ⟨_, href ((Item.report_leased hleased).trans ((if_neg hnot).trans (if_pos hback))) hleased,
      answered _ _ fun a => (hraise.mem a).trans (State.byteAt_wr _ rfl _ a), ?_⟩
    rw [State.rd_congr (words _ _ _ (by nofun)), State.rd_congr (hraise.regs _ rfl), State.accum, State.rd_wr_same _ _ _ fle]
    rfl
  case unknown =>
    refine ⟨_, hunk ((Item.report_leased hleased).trans ((if_neg hnot).trans (if_neg hback))), ?_⟩
    exact (State.programFault_faulted (s.modCore d c fun x => { x with blocked := .none }) d c 75 0 _ _ (by decide)).congr ⟨rfl, rfl⟩ rfl (fun _ => rfl) rfl
      (by rw [State.core_modCore_same])

end Sys2Proof.Machine
end

section
/-! SUPPORT. LEASE.TAKE and LEASE.DONE as they issue (R121), and what a counter leaves that serves a waiting LEASE.TAKE (R367, R372). -/

namespace Sys2Proof.Machine

section Issued

variable {s : State} {h : Hdr} {y : FmtY} {i : Nat} (hi : Issues s h 8) (hcore : isCtl h.seq = false)
include hi hcore

/-- LEASE.TAKE of a leased item with room in its lease table goes to the counter of the item. -/
theorem exec_leaseTake_of_room (hcur : s.curItem h.die h.seq = some i) (hl : legalY h.seq 31 false true false false y = true)
    (hleased : (s.item i).entry.leased = true) (hown : s.countY h.die h.seq y = (s.item i).entry.counter) (hctr : s.countY h.die h.seq y < 1024)
    (hroom : (s.item i).leases.length < 8) : exec (.leaseTake h y) s = .next (s.modCore h.die h.seq fun c =>
      { c with
        blocked := .leaseTake (s.countY h.die h.seq y) y.sd.toNat (s.core h.die h.seq).runlen
        takes := c.takes ++ [{ ctr := s.countY h.die h.seq y, item := some i, entry := (s.item i).entry, runlen := (s.core h.die h.seq).runlen }] }) := by
  refine exec_of_stall rfl hi (by rw [hl, hcore]; rfl) ?_
  rw [State.curItem] at hcur
  have hnamed : ¬ ((s.item i).entry.leased = false ∨ s.countY h.die h.seq y ≠ (s.item i).entry.counter ∨ 1024 ≤ s.countY h.die h.seq y) := by
    rw [hleased]
    simp [hown, hown ▸ hctr]
  rw [hcur]
  exact (if_neg hnamed).trans (if_neg (Nat.not_le.2 hroom))

/-- LEASE.TAKE of an item that is not leased, or of another counter, faults. -/
theorem exec_leaseTake_of_unknown (hcur : s.curItem h.die h.seq = some i) (hl : legalY h.seq 31 false true false false y = true)
    (hunknown : (s.item i).entry.leased = false ∨ s.countY h.die h.seq y ≠ (s.item i).entry.counter ∨ 1024 ≤ s.countY h.die h.seq y) :
    ∃ t, exec (.leaseTake h y) s = .next t ∧ Faulted h.die h.seq 75 0 (s.core h.die h.seq).pc.toNat s t := by
  rw [State.curItem] at hcur
  refine exec_of_fault (items := [(2, if (s.item i).entry.leased then s.countY h.die h.seq y else 0xFFFF), (4, 0)]) rfl hi (by rw [hl, hcore]; rfl) ?_
  rw [hcur]
  exact if_pos hunknown

/-- LEASE.TAKE with a full lease table faults. -/
theorem exec_leaseTake_of_full (hcur : s.curItem h.die h.seq = some i) (hl : legalY h.seq 31 false true false false y = true)
    (hleased : (s.item i).entry.leased = true) (hown : s.countY h.die h.seq y = (s.item i).entry.counter) (hctr : s.countY h.die h.seq y < 1024)
    (hfull : 8 ≤ (s.item i).leases.length) :
    ∃ t, exec (.leaseTake h y) s = .next t ∧ Faulted h.die h.seq 74 0 (s.core h.die h.seq).pc.toNat s t := by
  rw [State.curItem] at hcur
  refine exec_of_fault (items := []) rfl hi (by rw [hl, hcore]; rfl) ?_
  have hnamed : ¬ ((s.item i).entry.leased = false ∨ s.countY h.die h.seq y ≠ (s.item i).entry.counter ∨ 1024 ≤ s.countY h.die h.seq y) := by
    rw [hleased]
    simp [hown, hown ▸ hctr]
  rw [hcur]
  exact (if_neg hnamed).trans (if_pos hfull)

end Issued

/-- The tiles left at a counter depend on its return list and its NEXT register alone. -/
theorem State.tilesLeft_congr {s t : State} {d k : Nat} (hlists : t.rlists = s.rlists) (hnext : t.word (.WORK_CTR_NEXT d k) = s.word (.WORK_CTR_NEXT d k)) :
    t.tilesLeft d k = s.tilesLeft d k := by
  rw [State.tilesLeft, State.tilesLeft, State.rlist, State.rlist, hlists, State.rd_congr (f := WORK_CTR_NEXT_NEXT d k) hnext,
    State.rd_congr (f := WORK_CTR_NEXT_LIMIT d k) hnext]

/-- The tile that a counter gives to a take, and the state in which the take is granted or finds nothing. -/
def State.serveTake (s : State) (d : Nat) (x : Take) : State × Option Nat :=
  let r := s.counterTake d x.ctr x.entry x.runlen.toNat ((s.tilesLeft d x.ctr).length + 1)
  (match r.2 with
    | none => r.1
    | some t => (r.1.takenFor x.entry).granted d x t, r.2)

/-- A LEASE.TAKE that is answered: the stall ends, sd takes the answer, and the program counter moves past the instruction. -/
def State.takeAnswered (s : State) (d c sd : Nat) (v pc : Word) : State :=
  ((s.modCore d c fun x => { x with blocked := .none }).setS d c (BitVec.ofNat 5 sd) v).retire d c pc

section Answer

variable (s : State) (d c sd : Nat) (v pc : Word)

theorem State.takeAnswered_only : OnlySeq d c s (s.takeAnswered d c sd v pc) :=
  ((s.modCore_only d c _).trans (State.setS_only ..)).trans (State.retire_only ..)

theorem State.takeAnswered_core : ((s.takeAnswered d c sd v pc).core d c).pc = pc ∧ ((s.takeAnswered d c sd v pc).core d c).blocked = .none ∧
    ((s.takeAnswered d c sd v pc).core d c).takes = (s.core d c).takes := by
  rw [State.takeAnswered, State.retire_core, State.setS_core, State.core_modCore_same]
  exact ⟨rfl, rfl, rfl⟩

theorem State.takeAnswered_sreg (hsd : sd < 32) (r : BitVec 5) :
    (s.takeAnswered d c sd v pc).sreg d c r = if r.toNat = sd ∧ r ≠ 0 then v else s.sreg d c r := by
  have hname : r = BitVec.ofNat 5 sd ↔ r.toNat = sd := by rw [← BitVec.toNat_inj, BitVec.toNat_ofNat, Nat.mod_eq_of_lt hsd]
  simp only [State.takeAnswered, State.retire_sreg, State.sreg_setS, hname]
  exact congrArg (ite _ _) (State.sreg_congr (by rw [State.core_modCore_same]) r)

end Answer

section Granted

variable (s : State) (d : Nat) {x : Take} {i : Nat} (hitem : x.item = some i) (hret : (s.item i).retAll = false)
include hitem hret

/-- A take that a running item waits for is granted: the tile joins the lease table and counts in HELD. -/
theorem State.granted_running (t : Nat) :
    s.granted d x t = (s.count (WORK_CTR_HELD_HELD d x.ctr) 1).modItem i fun y => { y with leases := insertAsc t y.leases } := by
  rw [State.granted, hitem]
  exact if_neg (by rw [hret]; exact Bool.false_ne_true)

/-- What serving a take leaves beside the registers of its counter: nothing but the return lists, the regions and the lease table of the item. -/
theorem State.serveTake_rest : (s.serveTake d x).1 =
    { s with regs := (s.serveTake d x).1.regs, rlists := (s.serveTake d x).1.rlists, regions := (s.serveTake d x).1.regions, items := (s.serveTake d x).1.items } ∧
    ((s.serveTake d x).1.item i).st = (s.item i).st ∧
    ((s.serveTake d x).1.item i).leases = (match (s.serveTake d x).2 with
      | none => (s.item i).leases
      | some t => insertAsc t (s.item i).leases) := by
  have hctr := (s.counterTake_spec d x.ctr x.entry x.runlen.toNat ((s.tilesLeft d x.ctr).length + 1) (Nat.lt_succ_self _)).2.2.2.2.2
  unfold State.serveTake
  dsimp only
  generalize s.counterTake d x.ctr x.entry x.runlen.toNat ((s.tilesLeft d x.ctr).length + 1) = r at hctr ⊢
  obtain ⟨u, o⟩ := r
  have hu := hctr.rest
  cases o with
  | none =>
    have hitems : u.item i = s.item i := by
      dsimp only at hu
      rw [hu]
      rfl
    exact ⟨by dsimp only at hu ⊢; rw [hu], congrArg Item.st hitems, congrArg Item.leases hitems⟩
  | some t =>
    dsimp only at hu ⊢
    have hv : u.takenFor x.entry = { s with regs := u.regs, rlists := u.rlists, regions := (u.takenFor x.entry).regions } := by
      rw [State.takenFor_regions, hu]
    rw [State.granted_running (u.takenFor x.entry) d hitem (by rw [hv]; exact hret)]
    generalize u.takenFor x.entry = v at hv ⊢
    have hitems : v.item i = s.item i := by
      rw [hv]
      rfl
    refine ⟨by rw [hv]; rfl, ?_, ?_⟩
    · rw [State.item_modItem_same]
      change (v.item i).st = _
      rw [hitems]
    · rw [State.item_modItem_same]
      change insertAsc t (v.item i).leases = _
      rw [hitems]

theorem State.serveTake_core (q : Nat) : (s.serveTake d x).1.core d q = s.core d q := by
  rw [(s.serveTake_rest d hitem hret).1]
  rfl

/-- What serving a take gives, and what it leaves of the counter, of the regions and of memory. -/
theorem State.serveTake_spec : let past := (s.tilesLeft d x.ctr).takeWhile (s.skips d x.ctr x.runlen.toNat)
    let ahead := (s.tilesLeft d x.ctr).dropWhile (s.skips d x.ctr x.runlen.toNat)
    let u := (s.serveTake d x).1
    (s.serveTake d x).2 = ahead.head? ∧ u.tilesLeft d x.ctr = ahead.tail ∧
      u.rd (WORK_CTR_TAKES_TAKES d x.ctr) = (s.rd (WORK_CTR_TAKES_TAKES d x.ctr) + past.length + ahead.head?.toList.length) % 281474976710656 ∧
      u.rd (WORK_CTR_SKIP_SKIPPED d x.ctr) = min (s.rd (WORK_CTR_SKIP_SKIPPED d x.ctr) + past.length) 4294967295 ∧
      u.rd (WORK_CTR_FRAME_DONE d x.ctr) = min (s.rd (WORK_CTR_FRAME_DONE d x.ctr) + past.length) 4294967295 ∧
      u.rd (WORK_CTR_HELD_HELD d x.ctr) = (if ahead = [] then s.rd (WORK_CTR_HELD_HELD d x.ctr) else min (s.rd (WORK_CTR_HELD_HELD d x.ctr) + 1) 65535) ∧
      (∀ r, (u.region r).taken = ((s.region r).taken || (decide (ahead ≠ []) && x.entry.regions.contains r))) ∧ ∀ a, u.byteAt a = s.byteAt a := by
  intro past ahead u
  obtain ⟨(hgives : _ = ahead.head?), (hleft : _ = ahead.tail), (htakes : _ = (_ + past.length + ahead.head?.toList.length) % 281474976710656),
    (hskip : _ = min (_ + past.length) 4294967295), (hdone : _ = min (_ + past.length) 4294967295), honly⟩ := s.counterTake_spec d x.ctr x.entry x.runlen.toNat ((s.tilesLeft d x.ctr).length + 1) (Nat.lt_succ_self _)
  have hregions := s.counterTake_taken d x.ctr x.entry x.runlen.toNat ((s.tilesLeft d x.ctr).length + 1)
  have hdef : u = (match (s.counterTake d x.ctr x.entry x.runlen.toNat ((s.tilesLeft d x.ctr).length + 1)).2 with
    | none => (s.counterTake d x.ctr x.entry x.runlen.toNat ((s.tilesLeft d x.ctr).length + 1)).1
    | some t => ((s.counterTake d x.ctr x.entry x.runlen.toNat ((s.tilesLeft d x.ctr).length + 1)).1.takenFor x.entry).granted d x t) := rfl
  refine ⟨hgives, ?_⟩
  clear_value u
  subst hdef
  rw [hgives]
  generalize (s.counterTake d x.ctr x.entry x.runlen.toNat ((s.tilesLeft d x.ctr).length + 1)).1 = u at *
  have hheld : u.rd (WORK_CTR_HELD_HELD d x.ctr) = s.rd (WORK_CTR_HELD_HELD d x.ctr) := State.rd_congr (honly.regs _ (by nofun) (by nofun) (by nofun) (by nofun))
  clear_value ahead past
  cases ahead with
  | nil =>
    exact ⟨hleft, htakes, hskip, hdone, hheld.trans (if_pos rfl).symm, fun r => (hregions r).trans (by simp), honly.mem⟩
  | cons t rest =>
    have hu := honly.rest
    have hv : u.takenFor x.entry = { u with regions := (u.takenFor x.entry).regions } := State.takenFor_regions ..
    have htaken := u.takenFor_taken x.entry
    dsimp only [List.head?_cons]
    rw [State.granted_running (u.takenFor x.entry) d hitem (by rw [hv, hu]; exact hret)]
    generalize u.takenFor x.entry = v at hv htaken ⊢
    have hword : ∀ r, r ≠ .WORK_CTR_HELD d x.ctr → (v.count (WORK_CTR_HELD_HELD d x.ctr) 1).word r = u.word r := fun r hr => by
      rw [State.word_count_ne _ _ (Ne.symm hr), hv]
      rfl
    have hrd : ∀ f : FRef, f.reg ≠ .WORK_CTR_HELD d x.ctr → (v.count (WORK_CTR_HELD_HELD d x.ctr) 1).rd f = u.rd f := fun f hf => State.rd_congr (hword _ hf)
    refine ⟨(State.tilesLeft_congr (by rw [hv]; rfl) (hword _ (by nofun))).trans hleft, (hrd _ (by nofun)).trans htakes, (hrd _ (by nofun)).trans hskip,
      (hrd _ (by nofun)).trans hdone, ?_, fun r => (htaken r).trans ?_, fun a => (State.byteAt_count _ rfl _ a).trans ((by rw [hv]; rfl : v.byteAt a = u.byteAt a).trans (honly.mem a))⟩
    · rw [if_neg (by simp), ← hheld]
      refine (State.rd_count_same v _ _ fle).trans ?_
      rw [hv]
      rfl
    · rw [hregions]
      simp

end Granted

/-- The state in which the only take of a core has left it. -/
def State.withoutTakes (s : State) (d c : Nat) : State := s.modCore d c fun y => { y with takes := [] }

theorem State.withoutTakes_core (s : State) (d c : Nat) : (s.withoutTakes d c).core d c = { s.core d c with takes := [] } := State.core_modCore_same ..

/-- A counter serves the only take of a core, whose running item waits for it, and answers it. -/
theorem exec_counterAtomic_answers {s : State} {d c k i sd : Nat} {rl : Word} {x : Take} (htakes : (s.core d c).takes = [x]) (hblocked : (s.core d c).blocked = .leaseTake k sd rl)
    (hitem : x.item = some i) (hcur : s.curItem d c = some i) (hst : (s.item i).st = .running) (hret : (s.item i).retAll = false) (hup : s.dieUp d = true) :
    exec (.counterAtomic d c) s = .next (((s.withoutTakes d c).serveTake d x).1.takeAnswered d c sd
      (((s.withoutTakes d c).serveTake d x).2.elim (BitVec.allOnes 64) (BitVec.ofNat 64)) ((s.core d c).pc + 8)) := by
  obtain ⟨-, hstill, -⟩ := (s.withoutTakes d c).serveTake_rest d hitem hret
  have hfuel : (((s.withoutTakes d c).tilesLeft d x.ctr).length + 1) =
      ((s.withoutTakes d c).rlist d x.ctr).length + ((s.withoutTakes d c).rd (WORK_CTR_NEXT_LIMIT d x.ctr) -
        (s.withoutTakes d c).rd (WORK_CTR_NEXT_NEXT d x.ctr)) + 1 := by
    rw [State.tilesLeft, List.length_append, List.length_range']
  have hcore : ((s.withoutTakes d c).serveTake d x).1.core d c = { s.core d c with takes := [] } := by
    rw [State.serveTake_core (s.withoutTakes d c) d hitem hret, State.withoutTakes_core]
  have hexec : exec (.counterAtomic d c) s = (match (((s.withoutTakes d c).serveTake d x).1.core d c).blocked with
      | .leaseTake _ sd _ =>
        if x.item.isSome ∧ (((s.withoutTakes d c).serveTake d x).1.core d c).cur = x.item ∧
            x.item.any (fun i => decide ((((s.withoutTakes d c).serveTake d x).1.item i).st = .running)) ∧ ([] : List Take) = [] then
          .next (((s.withoutTakes d c).serveTake d x).1.takeAnswered d c sd (match ((s.withoutTakes d c).serveTake d x).2 with
            | some t => BitVec.ofNat 64 t
            | none => BitVec.allOnes 64) ((((s.withoutTakes d c).serveTake d x).1.core d c).pc + 8))
        else .next ((s.withoutTakes d c).serveTake d x).1
      | _ => .next ((s.withoutTakes d c).serveTake d x).1) := by
    change execCounterAtomic d c s = _
    unfold execCounterAtomic State.serveTake
    rw [htakes, hfuel]
    dsimp only
    rw [if_neg (by rw [hup]; decide)]
    rfl
  rw [State.curItem] at hcur
  rw [hexec, hcore]
  dsimp only
  rw [hblocked]
  dsimp only
  rw [if_pos ⟨by rw [hitem]; rfl, hcur.trans hitem.symm, by rw [hitem]; simpa only [Option.any_some, decide_eq_true_eq] using hstill.trans hst, rfl⟩]
  cases ((s.withoutTakes d c).serveTake d x).2 <;> rfl

/-- Settles O14: LEASE.TAKE goes to its counter or faults, and the counter's answer is that of `State.serveTake`. -/
theorem leasesAreTakenFromTheirCounter : Obligations.LeasesAreTakenFromTheirCounter := by
  unfold Obligations.LeasesAreTakenFromTheirCounter
  refine ⟨fun s h y i hi hcore hcur => ?issues, fun s d c k i sd rl e htakes hblocked hcur hst hret hup hctl hsd0 hsd => ?serves⟩
  case issues =>
    intro d q k pc x
    refine ⟨fun hl => ⟨fun hleased hown hctr hroom => ⟨_, exec_leaseTake_of_room hi hcore hcur hl hleased hown hctr hroom, by rw [State.core_modCore_same],
        by rw [State.core_modCore_same], by rw [State.core_modCore_same], rfl, OnlyStall.modCore s d q fun _ => rfl⟩,
      exec_leaseTake_of_unknown hi hcore hcur hl, exec_leaseTake_of_full hi hcore hcur hl⟩, fun hl => ?_⟩
    have hexec : exec (.leaseDone h y) s = .next (s.modCore d q fun c => { c with blocked := .leaseDone (s.sreg d q y.sa).toNat y.sd.toNat }) :=
      exec_of_stall rfl hi (by rw [hl, hcore]; rfl) rfl
    exact ⟨_, hexec, by rw [State.core_modCore_same], by rw [State.core_modCore_same], by rw [State.core_modCore_same], rfl, OnlyStall.modCore s d q fun _ => rfl⟩
  case serves =>
    intro past ahead
    have hexec := exec_counterAtomic_answers htakes hblocked rfl hcur hst hret hup
    obtain ⟨-, -, hleases⟩ := (s.withoutTakes d c).serveTake_rest d (x := { ctr := k, item := some i, entry := e, runlen := rl }) rfl hret
    obtain ⟨(hgives : _ = ahead.head?), (hleft : _ = ahead.tail), htakes, hskip, hdone, (hheld : _ = if ahead = [] then _ else _), hregions, hmem⟩ :=
      (s.withoutTakes d c).serveTake_spec d (x := { ctr := k, item := some i, entry := e, runlen := rl }) rfl hret
    rw [hgives] at hexec hleases
    generalize hu : ((s.withoutTakes d c).serveTake d { ctr := k, item := some i, entry := e, runlen := rl }).1 = u at *
    have hcore : u.core d c = { s.core d c with takes := [] } := by
      rw [← hu, State.serveTake_core (s.withoutTakes d c) d rfl hret, State.withoutTakes_core]
    have honly := u.takeAnswered_only d c sd (ahead.head?.elim (BitVec.allOnes 64) (BitVec.ofNat 64)) ((s.core d c).pc + 8)
    obtain ⟨hpc, hfree, hgone⟩ := u.takeAnswered_core d c sd (ahead.head?.elim (BitVec.allOnes 64) (BitVec.ofNat 64)) ((s.core d c).pc + 8)
    have hsreg := u.takeAnswered_sreg d c sd (ahead.head?.elim (BitVec.allOnes 64) (BitVec.ofNat 64)) ((s.core d c).pc + 8) hsd
    have hwords := honly.regs
    have hrest' := honly.rest
    refine ⟨_, hexec, ?_⟩
    generalize u.takeAnswered d c sd (ahead.head?.elim (BitVec.allOnes 64) (BitVec.ofNat 64)) ((s.core d c).pc + 8) = t at *
    refine ⟨(State.tilesLeft_congr (by rw [hrest']) (hwords _ (by nofun))).trans hleft, (State.rd_congr (hwords _ (by nofun))).trans htakes,
      (State.rd_congr (hwords _ (by nofun))).trans hskip, (State.rd_congr (hwords _ (by nofun))).trans hdone, ?_, ?_, (State.rd_congr (hwords _ (by nofun))).trans hheld,
      hgone.trans (by rw [hcore]), hfree, hpc, fun r hr => ?_, fun r => ?_, fun a => (honly.mem a).trans (hmem a)⟩
    · have hname : (BitVec.ofNat 5 sd).toNat = sd := by rw [BitVec.toNat_ofNat, Nat.mod_eq_of_lt hsd]
      rw [hsreg, if_pos ⟨hname, fun h0 => by rw [h0] at hname; exact hsd0.ne hname⟩]
      cases ahead <;> rfl
    · rw [State.item, hrest']
      refine hleases.trans ?_
      cases ahead <;> rfl
    · rw [hsreg, if_neg fun h => hr h.1]
      exact State.sreg_congr (by rw [hcore]) r
    · rw [State.region, hrest']
      exact hregions r

end Sys2Proof.Machine
end

section
/-! SUPPORT. Reads and writes of registers (R12 to R16, R78, R127, R413, R472): each is an access that is reached, its effect, and its answer. -/

namespace Sys2Proof.Machine

/-- A quiet register takes no commands of the ledger. -/
theorem RegId.takesOrders_of_quiet {r : RegId} (h : r.quiet = true) : r.takesOrders = false := by
  cases r
  case LEDGER_CTRL d => exact absurd h Bool.false_ne_true
  all_goals rfl

/-- A rule that takes no write is one of the Lamp. -/
theorem regUnit_of_locked {r : RegId} (h : ruleLocked r = true) : regUnit r = 25 := by
  cases r
  case LAMP_RULE k | LAMP_RULE_CTL k => rfl
  all_goals exact absurd h Bool.false_ne_true

/-- Firmware of a die has no link to be answered on. -/
@[simp] theorem State.respond_firmware (s : State) (d a : Nat) (bs : List Byte) : s.respond (.firmware d) a bs = s := rfl

section Management

variable {s : State} {h : Hdr} {n : Nat} {legal : Bool} {body : State → Res} {c : Instr} (hc : exec c s = .next (s.issue h n legal (isCtl h.seq) body))
  (hi : Issues s h n) (hctl : isCtl h.seq = true) (hl : legal = true)
include hc hi hctl hl

/-- A management instruction of a control core that comes to its end retires behind its own bytes. -/
theorem exec_mgmt_of_done {u : State} (hb : body s = .done u) : exec c s = .next (u.retire h.die h.seq ((s.core h.die h.seq).pc + BitVec.ofNat 64 n)) :=
  exec_of_done (hctl ▸ hc) hi hl hb

/-- A management instruction of a control core that faults. -/
theorem exec_mgmt_of_fault {num : Nat} {items : List (Nat × Nat)} (hb : body s = .fault num items) :
    ∃ t, exec c s = .next t ∧ Faulted h.die h.seq num 0 (s.core h.die h.seq).pc.toNat s t :=
  exec_of_fault (hctl ▸ hc) hi hl hb

end Management

section Reached

variable {s : State} {src : Src}

/-- A register read that is reached answers with the word at its address. -/
theorem exec_registerRead_of_reached {p : Packet} (h : Reached s src p.addr.toNat) (hhere : s.passesOn src p = false) :
    exec (.registerRead src p) s = .next (s.answerRead src p.addr.toNat) := by
  change execRegisterRead src p s = _
  rw [execRegisterRead, hhere, if_neg Bool.false_ne_true, State.access_reached h]

theorem exec_rcRead_of_reached {a : BitVec 48} (h : Reached s src a.toNat) : exec (.rcRead src a) s = .next (s.answerRead src a.toNat) :=
  congrArg _ (State.access_reached h (.rcRead src a) _)

/-- A register write that is reached writes the word at its address, and is answered. -/
theorem exec_registerWrite_of_reached {p : Packet} (w : Word) (h : Reached s src p.addr.toNat) (hhere : s.passesOn src p = false) :
    exec (.registerWrite src p w) s = .next ((s.regWrite src p.addr.toNat w (s.sigFor p.addr.toNat w)).respond src p.addr.toNat []) := by
  change execRegisterWrite src p w s = _
  rw [execRegisterWrite, hhere, if_neg Bool.false_ne_true, State.accessWrite, State.access_reached h]

/-- A write at the address of a register is a write of that register. -/
theorem State.regWrite_of_regAt {a : Nat} {r : RegId} (w : Word) (sig : Bool) (hmbox : mboxWord a = none) (hreg : s.regAt a = some r) :
    s.regWrite src a w sig = s.writeReg src r w sig := by
  rw [State.regWrite, hmbox, hreg]

end Reached

/-- A register packet of a link for another module goes on. -/
theorem exec_register_on {s : State} {src : Src} {p : Packet} {d l : Nat} (hlink : s.linkOf src = some (d, l)) (haway : s.forHere p = false) :
    exec (.registerRead src p) s = .next (s.sendOn d l 5 p []) ∧ ∀ w, exec (.registerWrite src p w) s = .next (s.sendOn d l 6 p (leBytes 8 w.toNat)) := by
  have hon : s.passesOn src p = true := by rw [State.passesOn, hlink, haway]; rfl
  have hroute : ∀ type data, s.registerOn src type p data = s.sendOn d l type p data := fun type data => by rw [State.registerOn, hlink]
  refine ⟨?_, fun w => ?_⟩
  · change execRegisterRead src p s = _
    rw [execRegisterRead, hon, if_pos rfl, hroute]
  · change execRegisterWrite src p w s = _
    rw [execRegisterWrite, hon, if_pos rfl, hroute]

/-- Settles O18: `regRead_spec` says what the read leaves and gives. -/
theorem registerReadsAnswerAndClear : Obligations.RegisterReadsAnswerAndClear := by
  unfold Obligations.RegisterReadsAnswerAndClear
  refine ⟨fun s src p h hhere => ?_, fun s src p d l => exec_register_on, State.respond_spec⟩
  obtain ⟨x, v, hread, hrest, hmbox, hreg, hmem⟩ := regRead_spec s p.addr.toNat h.there
  have hanswer : s.answerRead src p.addr.toNat = (x.send (.register src p.addr.toNat v)).respond src p.addr.toNat (leBytes 8 v.toNat) := by
    rw [State.answerRead, hread]
  refine ⟨x.send (.register src p.addr.toNat v), v, (exec_registerRead_of_reached h hhere).trans (congrArg _ hanswer),
    (exec_rcRead_of_reached h).trans (congrArg _ hanswer), ?_, hmbox, hreg, hmem⟩
  rw [State.send, hrest]

/-- Settles O19: a locked rule refuses the write, and `State.latched` says what another register takes. -/
theorem registerWritesFollowTheirLatchClass : Obligations.RegisterWritesFollowTheirLatchClass := by
  unfold Obligations.RegisterWritesFollowTheirLatchClass
  rintro s src p r w hhere a rfl h hmbox hreg hquiet
  have horders := RegId.takesOrders_of_quiet hquiet
  have hexec := exec_registerWrite_of_reached w h hhere
  rw [State.regWrite_of_regAt w _ hmbox hreg] at hexec
  refine ⟨fun hlocked => ?_, fun hopen => ?_⟩
  · rw [hexec, State.writeReg_locked hlocked, State.busyReg_eq, State.regAt_addr hreg, regUnit_of_locked hlocked]
  · rw [State.writeReg_open horders hopen, afterWrite_quiet _ _ hquiet] at hexec
    exact ⟨_, hexec, s.latched src w horders⟩

/-- The words that a control core reaches are those that a register access of the firmware reaches. -/
theorem State.mgReaches_of_reached {s : State} {d a : Nat} (h : Reached s (.firmware d) a) : s.mgReaches d a = true := by
  obtain ⟨hup, hroute⟩ := h.home (by nofun)
  have hroute' : s.routeOk d (s.regHome a) = true := hroute
  rw [State.mgReaches, h.there, hup, hroute']
  rfl

/-- An order of JOB_CTRL that is reached is pending to the tick. -/
theorem State.jobOrder_of_reached {s : State} {src : Src} {f : FRef} (c : Instr) (hreg : f.reg = .JOB_CTRL) (h : Reached s src RegId.JOB_CTRL.addr) :
    s.jobOrder src f c = (s.pendField f 1).respond src RegId.JOB_CTRL.addr [] := by
  rw [State.jobOrder, hreg, State.accessWrite, State.access_reached h]

/-- Settles O20: each order is a `State.pendField` of its bit, and MG.IMAGE is that of IMAGE. -/
theorem jobOrdersWaitForTheTick : Obligations.JobOrdersWaitForTheTick := by
  unfold Obligations.JobOrdersWaitForTheTick
  refine ⟨fun s src c f hmem h => ?_, fun s h a hi hl hctl hreached => ?_⟩
  · have order : f.reg = .JOB_CTRL → f.width = 1 → f.lo < 64 → exec c s = .next (s.jobOrder src f c) →
        ∃ t : State, exec c s = .next (t.respond src RegId.JOB_CTRL.addr []) ∧ t = { s with pend := t.pend } ∧
          field (assocGet t.pend .JOB_CTRL pendNone).mask.toNat f.lo 1 = 1 ∧ field (assocGet t.pend .JOB_CTRL pendNone).val.toNat f.lo 1 = 1 ∧
          ∀ r, r ≠ .JOB_CTRL → assocGet t.pend r pendNone = assocGet s.pend r pendNone := by
      intro hreg hwidth hlo hexec
      obtain ⟨hmask, hval⟩ := pendField_spec s f hwidth hlo
      rw [hreg] at hmask hval
      exact ⟨_, hexec.trans (congrArg _ (State.jobOrder_of_reached c hreg h)), State.pendWrite_rest .., hmask, hval,
        fun r hr => State.pendWrite_ne s _ (by rw [hreg]; exact hr)⟩
    simp only [List.mem_cons, Prod.mk.injEq, List.not_mem_nil, or_false] at hmem
    rcases hmem with ⟨rfl, rfl⟩ | ⟨rfl, rfl⟩ | ⟨rfl, rfl⟩ | ⟨rfl, rfl⟩ <;> exact order rfl rfl (by decide) rfl
  · have himage : exec (.image (.firmware h.die)) s = .next (s.pendField JOB_CTRL_IMAGE 1) :=
      congrArg Host.Outcome.next (State.jobOrder_of_reached (f := JOB_CTRL_IMAGE) (.image (.firmware h.die)) rfl hreached)
    exact ⟨_, _, himage, exec_mgmt_of_done rfl hi hctl hl (if_pos (State.mgReaches_of_reached hreached)), OnlyPc.retire .., State.retire_pc ..⟩

/-- Settles O21: MG.RD and MG.WR are the register access of the firmware of their die, between issue and retirement. -/
theorem managementAccessesAreRegisterAccesses : Obligations.ManagementAccessesAreRegisterAccesses := by
  unfold Obligations.ManagementAccessesAreRegisterAccesses
  intro s h a hi hctl x hx hreached
  have haddr : (BitVec.ofNat 48 x).toNat = x := by rw [BitVec.toNat_ofNat, Nat.mod_eq_of_lt (regThere_lt hreached.there)]
  have hreached' : Reached s (.firmware h.die) (BitVec.ofNat 48 x).toNat := by rw [haddr]; exact hreached
  have hmg : s.mgReaches h.die (s.mgAddr h a) = true := by rw [State.mgAddr, ← hx]; exact State.mgReaches_of_reached hreached
  refine ⟨fun hl => ?read, fun hl p hp => ?write⟩
  case read =>
    obtain ⟨u, v, hread, hrest, -⟩ := regRead_spec s x hreached.there
    have hrd : exec (.mgRd h a) s = .next ((u.setS h.die h.seq a.sd v).retire h.die h.seq ((s.core h.die h.seq).pc + 8)) := by
      refine exec_mgmt_of_done rfl hi hctl hl ((if_pos hmg).trans ?_)
      rw [State.mgAddr, ← hx, hread]
    have hanswer : exec (.rcRead (.firmware h.die) (BitVec.ofNat 48 x)) s = .next (u.send (.register (.firmware h.die) x v)) := by
      rw [exec_rcRead_of_reached hreached', State.answerRead, haddr, hread, State.respond_firmware]
    obtain ⟨hsreg, hpc, honly⟩ := u.setS_retire_writes h.die h.seq a.sd v ((s.core h.die h.seq).pc + 8)
    have hwire : { u.send (.register (.firmware h.die) x v) with wire := s.wire } = u := by
      rw [State.send, hrest]
    refine ⟨_, _, v, hanswer, by rw [State.send, hrest], hrd, by rw [hwire]; exact honly, hpc, fun k => ?_⟩
    rw [hsreg, hrest]
    rfl
  case write =>
    have hwr : exec (.mgWr h a) s = .next ((s.regWrite (.firmware h.die) x (s.sreg h.die h.seq a.sb) (s.sigFor x (s.sreg h.die h.seq a.sb))).retire h.die h.seq
        ((s.core h.die h.seq).pc + 8)) := by
      refine exec_mgmt_of_done rfl hi hctl hl ((if_pos hmg).trans ?_)
      rw [State.mgAddr, ← hx]
    refine ⟨_, _, exec_registerWrite_of_reached _ (by rw [hp]; exact hreached') rfl, hwr, ?_, State.retire_pc ..⟩
    rw [hp, haddr, State.respond_firmware]
    exact OnlyPc.retire ..

end Sys2Proof.Machine
end

section
/-! SUPPORT. Commands that are writes of a register (R60, R65, R78, R497 to R499): what each field takes, and what the write sets going. -/

namespace Sys2Proof.Machine

section Fields

variable {s u : State} {src : Src} {r : RegId} {w : Word}

/-- A field of a register after a write that is not refused. -/
theorem Latched.reads (h : Latched s src r w u) (hb : s.busyRaised r w = s) (f : FSpec) {v : Nat} (hv : s.fieldAfter r f w = v)
    (hf : decide (f ∈ r.fields) = true := by rfl) : u.rd (r.ref f) = v := (h.at hb f (of_decide_eq_true hf)).trans hv

/-- A write of no L-class field is never refused. -/
theorem State.busyRaised_unlatched (hl : r.fields.all (fun f => decide (f.latch ≠ .l)) = true) : s.busyRaised r w = s :=
  State.busyRaised_free (.inl (State.changesL_none s w fun f hf => by simpa using List.all_eq_true.1 hl f hf))

/-- A write that waits for no sample changes the register word, and what waits for the tick. -/
theorem Latched.unsampled (h : Latched s src r w u) (hb : s.busyRaised r w = s) (hw : r.waits = false) : u = { s with regs := u.regs, pend := u.pend } := by
  have hrest := h.rest
  have hlamp := h.lamp
  rw [hb] at hrest hlamp
  have hpending : u.lamp.pendingI = s.lamp.pendingI := by rw [hlamp, hw]; simp
  rw [hrest, hpending]

/-- A field of one bit, as the bit. -/
theorem field_one_bit (w : Word) (k : Nat) : field w.toNat k 1 = if w.getLsbD k then 1 else 0 := by
  rw [BitVec.getLsbD, Nat.testBit_eq_decide_div_mod_eq, field, Nat.shiftRight_eq_div_pow, Nat.pow_one]
  rcases Nat.mod_two_eq_zero_or_one (w.toNat / 2 ^ k) with h | h <;> rw [h] <;> rfl

end Fields

section Ready

variable {s : State} {src : Src} {d : Nat}

/-- A write of READY leaves READY as written, and where it changes it, VALID is cleared and validation starts or ends (R65). -/
theorem State.ttReadyWritten_spec (u : State) (was : Bool) : let t := u.ttReadyWritten d was
    t = { u with regs := t.regs, dies := t.dies } ∧
      t.rd (TT_CTRL_VALID d) = (if u.flag (TT_CTRL_READY d) = was then u.rd (TT_CTRL_VALID d) else 0) ∧
      (∀ f : FRef, f.reg = .TT_CTRL d → f.lo + f.width ≤ 1 ∨ 2 ≤ f.lo → t.rd f = u.rd f) ∧
      (∀ e, t.die e = if e = d ∧ u.flag (TT_CTRL_READY d) ≠ was then { u.die e with validating := !was } else u.die e) ∧
      (∀ r, r ≠ .TT_CTRL d → t.word r = u.word r) ∧ ∀ a, t.byteAt a = u.byteAt a := by
  intro t
  by_cases h : u.flag (TT_CTRL_READY d) = was
  · have ht : t = u := if_pos h
    rw [ht]
    exact ⟨rfl, (if_pos h).symm, fun _ _ _ => rfl, fun e => (if_neg fun hd => hd.2 h).symm, fun _ _ => rfl, fun _ => rfl⟩
  · have ht : t = (u.wr (TT_CTRL_VALID d) 0).modDie d fun x => { x with validating := !was } := if_neg h
    rw [ht]
    refine ⟨rfl, ?_, fun f hf hlo => ?_, fun e => ?_, fun r hr => State.word_wr_ne _ _ (Ne.symm hr), fun a => (State.byteAt_modDie ..).trans (State.byteAt_wr _ rfl _ a)⟩
    · rw [if_neg h]
      exact State.rd_wr_same _ _ _ fle
    · exact State.rd_wr_other _ _ _ _ fle fun _ => hlo
    · by_cases he : e = d
      · subst he
        rw [if_pos ⟨rfl, h⟩, State.die_modDie_same]
        rfl
      · rw [if_neg fun hd => he hd.1, State.die_modDie_ne _ _ (Ne.symm he)]
        rfl

end Ready

/-- GO in a write of JOB_SUBMIT shows as a submission pending while no job is (R78, R81). -/
theorem State.submitted_spec (u : State) {w : Word} (hgo : w.getLsbD 48 = true) : let t := u.submitted w
    t = { u with regs := t.regs } ∧ t.rd JOB_STATUS_STATE = (if u.rd JOB_STATUS_STATE = 0 then 1 else u.rd JOB_STATUS_STATE) ∧
      (∀ f, f.reg = .JOB_STATUS → 4 ≤ f.lo → t.rd f = u.rd f) ∧ (∀ r, r ≠ .JOB_STATUS → t.word r = u.word r) ∧ ∀ a, t.byteAt a = u.byteAt a := by
  intro t
  by_cases h : u.rd JOB_STATUS_STATE = 0
  · have ht : t = u.wr JOB_STATUS_STATE 1 := (if_pos hgo).trans (if_pos h)
    rw [ht]
    exact ⟨rfl, (State.rd_wr_same _ _ _ fle).trans (if_pos h).symm, fun f _ hlo => State.rd_wr_other _ _ _ _ fle fun _ => .inr (Nat.le_trans fle hlo),
      fun r hr => State.word_wr_ne _ _ (Ne.symm hr), fun a => State.byteAt_wr _ rfl _ a⟩
  · have ht : t = u := (if_pos hgo).trans (if_neg h)
    rw [ht]
    exact ⟨rfl, (if_neg h).symm, fun _ _ _ => rfl, fun _ _ => rfl, fun _ => rfl⟩

/-- Two fields that meet make one. -/
theorem field_join (x k n : Nat) : field x 0 (k + n) = field x 0 k + 2 ^ k * field x k n := by
  rw [field, field, field, Nat.shiftRight_zero, Nat.shiftRight_eq_div_pow, pow_add, Nat.mod_mul]

/-- Settles O22: TT_READY is `State.ttReadyWritten`, JOB_SUBMIT `State.submitted`, each behind the write of its register. -/
theorem readyStartsValidationAndGoSubmits : Obligations.ReadyStartsValidationAndGoSubmits := by
  unfold Obligations.ReadyStartsValidationAndGoSubmits
  refine fun s src d w => ⟨fun h => ?ready, fun h => ?submit⟩
  case ready =>
    obtain ⟨u, hu, (hexec : _ = (u.ttReadyWritten d (s.flag (TT_CTRL_READY d))).respond _ _ _)⟩ := State.command_latched h rfl rfl (w ||| 1) (.ttReady src d w)
    have hb : s.busyRaised (.TT_CTRL d) (w ||| 1) = s := State.busyRaised_unlatched rfl
    have hrest := hu.plain hb (of_decide_eq_true rfl) (.inl rfl)
    have hset : u.rd (TT_CTRL_READY d) = 1 := hu.reads hb ⟨0, 1, .rw, 0, .i⟩ (field_setBit w 0 (by decide))
    have hvalid : u.rd (TT_CTRL_VALID d) = s.rd (TT_CTRL_VALID d) := hu.reads hb ⟨1, 1, .ro, 0, .none⟩ rfl
    have hinvalid : u.rd (TT_CTRL_INVALID d) = s.rd (TT_CTRL_INVALID d) &&& (1 - field (w ||| 1).toNat 2 1) := hu.reads hb ⟨2, 1, .w1c, 0, .i⟩ rfl
    have hflag : u.flag (TT_CTRL_READY d) = true := decide_eq_true hset
    have hwas : u.flag (TT_CTRL_READY d) = s.flag (TT_CTRL_READY d) ↔ s.rd (TT_CTRL_READY d) = 1 := by rw [hflag, eq_comm, State.flag, decide_eq_true_eq]
    obtain ⟨htrest, htvalid, htfields, htdie, htregs, htmem⟩ := State.ttReadyWritten_spec (d := d) u (s.flag (TT_CTRL_READY d))
    generalize u.ttReadyWritten d (s.flag (TT_CTRL_READY d)) = t at *
    refine ⟨t, congrArg _ hexec, ?_, (htfields _ rfl (.inl fle)).trans hset, ?_, ?_, (htfields _ rfl (.inr fle)).trans (hu.reads hb ⟨16, 8, .ro, 0, .none⟩ rfl),
      (htfields _ rfl (.inr fle)).trans (hu.reads hb ⟨32, 32, .ro, 0, .none⟩ rfl), fun e => ?_, fun r hr => (htregs r hr).trans (hu.word hb hr),
      fun a => (htmem a).trans (hu.mem a)⟩
    · rw [htrest, hrest]
    · rw [htvalid, hvalid]
      exact if_congr hwas rfl rfl
    · have hbit : (w ||| 1).getLsbD 2 = w.getLsbD 2 := by simp
      have hlt := s.rd_lt (TT_CTRL_INVALID d)
      rw [htfields _ rfl (.inr fle), hinvalid, field_one_bit, hbit]
      cases w.getLsbD 2
      · exact (Nat.and_one_is_mod _).trans (Nat.mod_eq_of_lt hlt)
      · exact Nat.and_zero _
    · have hdie : u.die e = s.die e := by rw [hrest]; rfl
      rw [htdie, hdie]
      by_cases hnew : e = d ∧ s.rd (TT_CTRL_READY d) ≠ 1
      · rw [if_pos hnew, if_pos ⟨hnew.1, fun heq => hnew.2 (hwas.1 heq)⟩, State.flag, decide_eq_false hnew.2]
        rfl
      · rw [if_neg hnew, if_neg fun hd => hnew ⟨hd.1, fun heq => hd.2 (hwas.2 heq)⟩]
  case submit =>
    obtain ⟨u, hu, (hexec : _ = (u.submitted (w ||| 1#64 <<< 48)).respond _ _ _)⟩ :=
      State.command_latched h rfl rfl (w ||| 1#64 <<< 48) (.jobSubmit src w)
    have hb : s.busyRaised .JOB_SUBMIT (w ||| 1#64 <<< 48) = s := State.busyRaised_unlatched rfl
    have hrest := hu.unsampled hb rfl
    have hgo : (w ||| 1#64 <<< 48).getLsbD 48 = true := by simp
    obtain ⟨htrest, htstate, htfields, htregs, htmem⟩ := u.submitted_spec hgo
    obtain ⟨haddrMask, haddrVal⟩ := hu.waiting ⟨0, 48, .rw, 0, .f⟩ (of_decide_eq_true rfl) rfl rfl
    obtain ⟨hgoMask, hgoVal⟩ := hu.waiting ⟨48, 1, .rw, 0, .f⟩ (of_decide_eq_true rfl) rfl rfl
    have hpend : (u.submitted (w ||| 1#64 <<< 48)).pend = u.pend := by rw [htrest]
    have hword : ∀ r, u.word r = s.word r := fun r => by
      rw [hrest, hu.stands (of_decide_eq_true rfl)]
      rfl
    have hstatus : ∀ f : FRef, u.rd f = s.rd f := fun f => State.rd_congr (hword _)
    have hlow : field (w ||| 1#64 <<< 48).toNat 0 48 = w.toNat % 2 ^ 48 := by
      rw [field, Nat.shiftRight_zero, BitVec.toNat_or, Nat.or_mod_two_pow]
      exact Nat.or_zero _
    generalize u.submitted (w ||| 1#64 <<< 48) = t at *
    refine ⟨t, congrArg _ hexec, ?_, ?_, ?_, ?_, fun f hf hlo => (htfields f hf hlo).trans (hstatus f), fun r hr => ?_, fun r hr => ?_,
      fun a => (htmem a).trans (hu.mem a)⟩
    · rw [htrest, hrest]
    · rw [hpend, field_join _ 48 1, haddrMask, hgoMask]
      rfl
    · rw [hpend, field_join _ 48 1, haddrVal, hgoVal]
      exact congrArg₂ (fun x y => x + 2 ^ 48 * y) hlow (field_setBit w 48 (by decide))
    · rw [htstate, hstatus]
    · exact (htregs r hr).trans (hword r)
    · rw [hpend, (hu.others r hr).2, hb]

end Sys2Proof.Machine
end

section
/-! SUPPORT. The mailbox (R495, R497 to R499): the command as it is written, and what it answers or refuses. -/

namespace Sys2Proof.Machine

/-- A mailbox that has taken a command: MBOX_CMD holds it, and nothing else differs. -/
structure MboxTaken (s : State) (cmd arg : Nat) (u : State) : Prop where
  rest : u = { s with regs := u.regs }
  cmd : u.rd MBOX_CMD_CMD = cmd
  arg : u.rd MBOX_CMD_ARG = arg
  regs : ∀ r, r ≠ .MBOX_CMD → u.word r = s.word r
  mem : ∀ a, u.byteAt a = s.byteAt a

/-- An idle mailbox takes a command and runs it. -/
theorem State.command_mailbox {s : State} {src : Src} (h : Reached s src RegId.MBOX_CMD.addr) (hidle : s.rd MBOX_STATUS_BUSY = 0) {k : Nat} (hk : k < 256)
    (arg : BitVec 16) (c : Instr) :
    ∃ u, MboxTaken s k arg.toNat u ∧ s.command src .MBOX_CMD (mboxWordOf k arg) c = u.mboxRun.respond src RegId.MBOX_CMD.addr [] := by
  have hbusy : s.regBusy .MBOX_CMD = false := decide_eq_false (by rw [hidle]; decide)
  obtain ⟨u, hu, (hexec : _ = (if s.regBusy .MBOX_CMD then u else u.mboxRun).respond _ _ _)⟩ := State.command_latched h rfl rfl (mboxWordOf k arg) c
  have hb : s.busyRaised .MBOX_CMD (mboxWordOf k arg) = s := State.busyRaised_free (.inr (by rw [hbusy]; rfl))
  have hfree : (s.regBusy .MBOX_CMD || badL .MBOX_CMD (mboxWordOf k arg)) ≠ true := by rw [hbusy]; exact Bool.false_ne_true
  have hword : (mboxWordOf k arg).toNat = k + arg.toNat * 2 ^ 16 := by
    have hlt := arg.isLt
    rw [mboxWordOf, BitVec.toNat_ofNat, Nat.mod_eq_of_lt (by omega)]
  have hcmd : u.rd MBOX_CMD_CMD = field (mboxWordOf k arg).toNat 0 8 := hu.reads hb ⟨0, 8, .rw, 0, .l⟩ (if_neg hfree)
  have harg : u.rd MBOX_CMD_ARG = field (mboxWordOf k arg).toNat 16 16 := hu.reads hb ⟨16, 16, .rw, 0, .l⟩ (if_neg hfree)
  rw [hword, field, Nat.shiftRight_eq_div_pow] at hcmd harg
  have hlt := arg.isLt
  refine ⟨u, ⟨hu.plain hb (of_decide_eq_true rfl) (.inr (of_decide_eq_true rfl)), by omega, by omega, fun r hr => hu.word hb hr, hu.mem⟩, ?_⟩
  rw [hexec, hbusy, if_neg Bool.false_ne_true]

section Runs

variable {s u : State} {cmd arg : Nat} (hu : MboxTaken s cmd arg u)
include hu

/-- A command that is done leaves its data, padded to the data area. -/
theorem MboxTaken.answered (bs : List Byte) : Answered s cmd arg (padTo 256 (bs.take 256)) (u.mboxDone bs) := by
  have hword : ∀ r, r ≠ .MBOX_STATUS → (u.mboxDone bs).word r = u.word r := fun r hr => State.word_wr_ne _ _ (Ne.symm hr)
  have hlength : (padTo 256 (bs.take 256)).length = 256 := padTo_length (List.length_take_le ..)
  refine ⟨?_, (State.rd_congr (hword _ (by nofun))).trans hu.cmd, (State.rd_congr (hword _ (by nofun))).trans hu.arg, State.rd_wr_same _ _ _ fle, ?_, ?_,
    fun r hr hr' => (hword r hr').trans (hu.regs r hr), fun a => (State.byteAt_wr _ rfl _ a).trans (hu.mem a)⟩
  · rw [State.mboxDone, State.wr, State.setWord, hu.rest]
  · exact (State.rd_wr_other _ _ _ _ fle fun _ => .inr fle).trans (State.rd_congr (hu.regs _ (by nofun)))
  · have hread := cellsRead_cellsWrite 0 [] 0 (padTo 256 (bs.take 256))
    rwa [hlength] at hread

/-- A command that is refused sets ERR. -/
theorem MboxTaken.refused : Refused s u.mboxErr := by
  have hword : ∀ r, r ≠ .MBOX_STATUS → u.mboxErr.word r = u.word r := fun r hr => State.word_wr_ne _ _ (Ne.symm hr)
  refine ⟨?_, State.rd_wr_same _ _ _ fle, ?_, fun r hr hr' => (hword r hr').trans (hu.regs r hr), fun a => (State.byteAt_wr _ rfl _ a).trans (hu.mem a)⟩
  · rw [State.mboxErr, State.wr, State.setWord, hu.rest]
  · exact (State.rd_wr_other _ _ _ _ fle fun _ => .inl fle).trans (State.rd_congr (hu.regs _ (by nofun)))

end Runs

theorem length_flatMap_leBytes {α : Type} (l : List α) (f : α → Nat) : (l.flatMap fun x => leBytes 8 (f x)).length = 8 * l.length := by
  induction l with
  | nil => rfl
  | cons x l ih => rw [List.flatMap_cons, List.length_append, length_leBytes, ih, List.length_cons]; omega

section Commands

variable {s u : State} {n : Nat}

theorem MboxTaken.run_counters (hu : MboxTaken s 1 n u) : u.mboxRun = if n < 2 then
    u.mboxDone ((List.range 32).flatMap fun i => leBytes 8 (tabGet s.lamp.counters (32 * n + i) 0)) else u.mboxErr := by
  rw [State.mboxRun, hu.cmd, hu.arg, hu.rest]
  simp

theorem MboxTaken.run_history (hu : MboxTaken s 2 n u) : u.mboxRun = if n < 4096 then
    u.mboxDone ((s.lamp.history.reverse.drop n).take 8).flatten else u.mboxErr := by
  rw [State.mboxRun, hu.cmd, hu.arg, hu.rest]
  simp

theorem MboxTaken.run_retirement (hu : MboxTaken s 3 n u) : u.mboxRun = if n / 256 < s.fuses.dies ∧ n % 256 < 8 then
    u.mboxDone ((((tabGet s.lamp.retire (n / 256) []).drop (32 * (n % 256))).take 32).flatMap fun a => leBytes 8 a.toNat) else u.mboxErr := by
  rw [State.mboxRun, hu.cmd, hu.arg, hu.rest]
  simp [State.retireList]

theorem MboxTaken.run_retire (hu : MboxTaken s 4 n u) : u.mboxRun =
    if n / 256 < s.fuses.dies ∧ n % 256 = 0 ∧ (tabGet s.lamp.retire (n / 256) []).length < 256 then
      State.wr { u with lamp := { s.lamp with
        retire := tabSet s.lamp.retire (n / 256) (tabGet s.lamp.retire (n / 256) [] ++ [BitVec.ofNat 48 (leNat (cellsRead 0 s.lamp.mbox 0 8))]) } } MBOX_STATUS_DONE 1
    else u.mboxErr := by
  rw [State.mboxRun, hu.cmd, hu.arg, hu.rest]
  simp [State.retireList]

end Commands

/-- Settles O24: an idle mailbox takes each command as `State.command_mailbox` says, and `State.mboxRun` answers or refuses it. -/
theorem mailboxCommandsAnswer : Obligations.MailboxCommandsAnswer := by
  unfold Obligations.MailboxCommandsAnswer
  rintro s src arg h hidle n rfl
  obtain ⟨u1, hu1, h1⟩ := State.command_mailbox h hidle (k := 1) (by decide) arg (.readCounters src arg)
  obtain ⟨u2, hu2, h2⟩ := State.command_mailbox h hidle (k := 2) (by decide) arg (.readErrorHistory src arg)
  obtain ⟨u3, hu3, h3⟩ := State.command_mailbox h hidle (k := 3) (by decide) arg (.readRetirementList src arg)
  obtain ⟨u4, hu4, h4⟩ := State.command_mailbox h hidle (k := 4) (by decide) arg (.addRetirementEntry src arg)
  have e1 : exec (.readCounters src arg) s = .next (u1.mboxRun.respond src RegId.MBOX_CMD.addr []) := congrArg _ h1
  have e2 : exec (.readErrorHistory src arg) s = .next (u2.mboxRun.respond src RegId.MBOX_CMD.addr []) := congrArg _ h2
  have e3 : exec (.readRetirementList src arg) s = .next (u3.mboxRun.respond src RegId.MBOX_CMD.addr []) := congrArg _ h3
  have e4 : exec (.addRetirementEntry src arg) s = .next (u4.mboxRun.respond src RegId.MBOX_CMD.addr []) := congrArg _ h4
  rw [hu1.run_counters] at e1
  rw [hu2.run_history] at e2
  rw [hu3.run_retirement] at e3
  rw [hu4.run_retire] at e4
  refine ⟨fun hn => ?counters, fun hn => ?_, fun hn => ?history, fun hn => ?_, fun hd hn => ?list, fun hn => ?_, fun hd hn hroom => ?retire, fun hn => ?_⟩
  case counters =>
    have hans := hu1.answered ((List.range 32).flatMap fun i => leBytes 8 (tabGet s.lamp.counters (32 * arg.toNat + i) 0))
    have hlength : ((List.range 32).flatMap fun i => leBytes 8 (tabGet s.lamp.counters (32 * arg.toNat + i) 0)).length = 256 := by
      rw [length_flatMap_leBytes, List.length_range]
    rw [if_pos hn] at e1
    rw [List.take_of_length_le hlength.le, padTo, hlength, List.replicate_zero, List.append_nil] at hans
    exact ⟨_, e1, hans⟩
  case history =>
    rw [if_pos hn] at e2
    exact ⟨_, e2, hu2.answered _⟩
  case list =>
    have hans := hu3.answered ((((tabGet s.lamp.retire (arg.toNat / 256) []).drop (32 * (arg.toNat % 256))).take 32).flatMap fun a => leBytes 8 a.toNat)
    rw [if_pos ⟨hd, hn⟩] at e3
    rw [List.take_of_length_le] at hans
    · exact ⟨_, e3, hans⟩
    · rw [length_flatMap_leBytes]
      have := List.length_take_le 32 ((tabGet s.lamp.retire (arg.toNat / 256) []).drop (32 * (arg.toNat % 256)))
      omega
  case retire =>
    rw [if_pos ⟨hd, hn, hroom⟩] at e4
    refine ⟨_, e4, fun d => ?_, ?_, State.rd_wr_same _ _ _ fle, fun r hr hr' => (State.word_wr_ne _ _ (Ne.symm hr')).trans (hu4.regs r hr),
      fun a => (State.byteAt_wr _ rfl _ a).trans (hu4.mem a)⟩
    · by_cases hdie : d = arg.toNat / 256
      · subst hdie
        exact (tabGet_tabSet_same ..).trans (if_pos rfl).symm
      · exact (tabGet_tabSet_ne _ _ _ (Ne.symm hdie)).trans (if_neg hdie).symm
    · rw [State.wr, State.setWord, hu4.rest]
  · rw [if_neg (by omega)] at e1
    exact ⟨_, e1, hu1.refused⟩
  · rw [if_neg (by omega)] at e2
    exact ⟨_, e2, hu2.refused⟩
  · rw [if_neg (by omega)] at e3
    exact ⟨_, e3, hu3.refused⟩
  · rw [if_neg (by omega)] at e4
    exact ⟨_, e4, hu4.refused⟩

end Sys2Proof.Machine
end

section
/-! SUPPORT. Commands that reach the Lamp (R479, R484, R486, R492, R494, R501, R546): writes that wait for a sample, power requests, and SMBus. -/

namespace Sys2Proof.Machine

section Sampled

variable {s : State} {src : Src} {r : RegId}

/-- A command that is a write of a register, where it is reached. -/
theorem State.command_of_reached (h : Reached s src r.addr) (w : Word) (c : Instr) : s.command src r w c = (s.writeReg src r w false).respond src r.addr [] := by
  rw [State.command, State.accessWrite, State.access_reached h]

/-- A write of a register with I-class fields alone waits for the next sample boundary. -/
theorem State.command_sampled (h : Reached s src r.addr) (hquiet : r.quiet = true) (hopen : ruleLocked r = false) (hwaits : r.waits = true)
    (hl : r.fields.all (fun f => decide (f.latch ≠ .l)) = true) (hf : r.classMask .f = 0) (hi : r.fields.all (fun f => decide (f.latch ≠ .i)) = false)
    (w : Word) (c : Instr) : s.command src r w c =
      State.respond { s with lamp := { s.lamp with pendingI := s.lamp.pendingI ++ [(r.addr, w, resetCause src)] } } src r.addr [] := by
  have hwriteL : s.writeL r w = s := by
    rw [State.writeL_spec, State.changesL_none s w fun f hmem => by simpa using List.all_eq_true.1 hl f hmem, State.busyRaised_unlatched hl]
    rfl
  have hwriteF : s.writeF r w = s := by
    unfold State.writeF State.pendWrite
    rw [hf]
    rfl
  rw [State.command_of_reached h, State.writeReg_open (RegId.takesOrders_of_quiet hquiet) hopen, afterWrite_quiet _ _ hquiet, hwriteL,
    hwriteF, State.writeI_spec, hi, hwaits]
  rfl

end Sampled

section Power

variable {s : State} {src : Src}

/-- A write of LAMP_PWR with a new REQ is a request (R492). -/
theorem exec_powerRequest (h : Reached s src RegId.LAMP_PWR.addr) (w : Word) : ∃ u, Latched s src .LAMP_PWR w u ∧ exec (.powerRequest src w) s =
    .next (State.respond { u with lamp := { u.lamp with request := if u.rd LAMP_PWR_REQ = s.rd LAMP_PWR_REQ then u.lamp.request else some (u.rd LAMP_PWR_REQ) } }
      src RegId.LAMP_PWR.addr []) := by
  obtain ⟨u, hu, (hexec : _ = (if u.rd LAMP_PWR_REQ = s.rd LAMP_PWR_REQ then u else
    { u with lamp := { u.lamp with request := some (u.rd LAMP_PWR_REQ) } }).respond _ _ _)⟩ := State.command_latched h rfl rfl w (.powerRequest src w)
  refine ⟨u, hu, congrArg _ (hexec.trans (congrArg (fun t => State.respond t src RegId.LAMP_PWR.addr []) ?_))⟩
  split <;> rfl

/-- A Lamp that does not change state takes the REQ that is written. -/
theorem Latched.powerRequest {w : Word} {u : State} (hu : Latched s src .LAMP_PWR w u) (hidle : s.rd LAMP_PWR_BUSY = 0) : u.rd LAMP_PWR_REQ = w.toNat / 4 % 4 := by
  have hbusy : (s.regBusy .LAMP_PWR || badL .LAMP_PWR w) = false := by
    have hflag : s.flag LAMP_PWR_BUSY = false := decide_eq_false (by rw [hidle]; decide)
    exact (Bool.or_false _).trans hflag
  refine (hu.reads (State.busyRaised_free (.inr hbusy)) ⟨2, 2, .rw, 3, .l⟩ (if_neg (by rw [hbusy]; exact Bool.false_ne_true))).trans ?_
  rw [field, Nat.shiftRight_eq_div_pow]
  rfl

end Power

section Smbus

variable {s : State}

@[simp] theorem State.respond_smbus (a : Nat) (bs : List Byte) : s.respond .smbus a bs = s := rfl

/-- What an SMBus access reaches. -/
theorem reached_smbus_iff {a : Nat} : Reached s .smbus a ↔ s.regThere a = true ∧ s.lamp.auxIn = true ∧ reaches .smbus a = true :=
  ⟨fun h => ⟨h.there, h.smbus rfl⟩, fun ⟨hthere, haux⟩ => ⟨hthere, fun _ => haux, fun h => absurd rfl h, nofun, fun h => absurd rfl h⟩⟩

/-- Over SMBus no access orders firmware. -/
theorem State.sigFor_smbus {a : Nat} (h : reaches .smbus a = true) (w : Word) : s.sigFor a w = false :=
  if_neg fun ha => absurd (ha ▸ h) (by decide)

/-- A block write with a good PEC is a write of its register. -/
theorem exec_smbusBlockWrite_of_reached {p : Packet} (h : Reached s .smbus p.addr.toNat) (w : Word) :
    exec (.smbusBlockWrite p.addr w true) s = .next (s.regWrite .smbus p.addr.toNat w false) ∧
    exec (.registerWrite .smbus p w) s = .next (s.regWrite .smbus p.addr.toNat w false) := by
  refine ⟨congrArg _ (State.access_reached h _ _), (exec_registerWrite_of_reached w h rfl).trans ?_⟩
  rw [State.sigFor_smbus (h.smbus rfl).2, State.respond_smbus]

/-- A block read of an address that is served gives its word and clears its RC fields. -/
theorem exec_smbusBlockRead_of_reached (h : Reached s .smbus s.lamp.smbusPtr.toNat) :
    exec (.smbusBlockRead true) s = .next ((s.regRead s.lamp.smbusPtr.toNat).1.send (.smbus (s.regRead s.lamp.smbusPtr.toNat).2)) := by
  obtain ⟨hthere, haux, hserved⟩ := reached_smbus_iff.1 h
  exact (if_neg (by rw [haux]; decide)).trans (if_pos ⟨hserved, hthere⟩)

/-- A block read of any other address gives all ones. -/
theorem exec_smbusBlockRead_of_not_reached (haux : s.lamp.auxIn = true) (h : ¬ Reached s .smbus s.lamp.smbusPtr.toNat) :
    exec (.smbusBlockRead true) s = .next (s.send (.smbus (BitVec.allOnes 64))) :=
  (if_neg (by rw [haux]; decide)).trans (if_neg fun hserved => h (reached_smbus_iff.2 ⟨hserved.2, haux, hserved.1⟩))

end Smbus

/-- Settles O25: the writes are those of their registers, and SMBus reaches what the Lamp serves. -/
theorem lampCommandsReachTheLamp : Obligations.LampCommandsReachTheLamp := by
  unfold Obligations.LampCommandsReachTheLamp
  intro s
  refine ⟨fun src w h => ?power, fun src w h => congrArg _ (State.command_sampled h rfl rfl rfl rfl rfl rfl w _),
    fun src ch w h => congrArg _ (State.command_sampled h rfl rfl rfl rfl rfl rfl w _), fun src r w h => ⟨fun hr => ?locked, fun hr => ?latched⟩,
    fun p w h => ⟨_, exec_smbusBlockWrite_of_reached h w⟩, fun a haux => if_pos (And.intro rfl haux), fun haux => ?read, fun _ _ => rfl, fun _ => rfl, rfl⟩
  case power =>
    obtain ⟨u, hu, hexec⟩ := exec_powerRequest h w
    exact ⟨_, u, hexec, hu, rfl, hu.powerRequest⟩
  case locked =>
    have hexec : exec (.ruleEnable src r w) s = .next ((s.writeReg src (.LAMP_RULE_CTL r) w false).respond src (RegId.LAMP_RULE_CTL r).addr []) :=
      congrArg _ (State.command_of_reached h w _)
    rw [hexec, State.writeReg_locked (r := .LAMP_RULE_CTL r) (decide_eq_true hr), State.busyReg_eq]
    rfl
  case latched =>
    obtain ⟨u, hu, hexec⟩ := State.command_latched h rfl (decide_eq_false (Nat.not_lt.2 hr)) w (.ruleEnable src r w)
    exact ⟨u, congrArg _ hexec, hu⟩
  case read =>
    by_cases h : Reached s .smbus s.lamp.smbusPtr.toNat
    · obtain ⟨x, v, hread, hrest, -⟩ := regRead_spec s s.lamp.smbusPtr.toNat h.there
      have hexec := exec_smbusBlockRead_of_reached h
      have hrc := exec_rcRead_of_reached h
      rw [State.answerRead, State.respond_smbus] at hrc
      rw [hread] at hexec hrc
      exact ⟨_, v, hexec, by rw [State.send, hrest], fun _ => ⟨_, hrc, by rw [State.send, hrest], rfl⟩, fun hnot => absurd h hnot⟩
    · exact ⟨_, _, exec_smbusBlockRead_of_not_reached haux h, rfl, fun hyes => absurd hyes h, fun _ => ⟨rfl, rfl⟩⟩

end Sys2Proof.Machine
end

section
/-! SUPPORT. Attestation (R512, R514, R515): the orders of ATT_CTRL, and their end. -/

namespace Sys2Proof.Machine

/-- A register of ATT_CTRL that has taken an order: its fields hold the word, and nothing else differs. -/
structure AttTaken (s : State) (w : Word) (u : State) : Prop where
  rest : u = { s with regs := u.regs }
  addr : u.rd ATT_CTRL_ADDR = field w.toNat 0 48
  op : u.rd ATT_CTRL_OP = field w.toNat 48 2
  mr : u.rd ATT_CTRL_MR = field w.toNat 50 4
  regs : ∀ r, r ≠ .ATT_CTRL → u.word r = s.word r
  mem : ∀ a, u.byteAt a = s.byteAt a

/-- An idle ATT_CTRL takes an order with GO. -/
theorem State.command_attest {s : State} {src : Src} (h : Reached s src RegId.ATT_CTRL.addr) (hidle : s.rd ATT_STATUS_BUSY = 0) (w : Word)
    (c : Instr) : ∃ u, AttTaken s (w ||| 1#64 <<< 56) u ∧ u.rd ATT_CTRL_GO = 1 ∧
      s.command src .ATT_CTRL (w ||| 1#64 <<< 56) c = u.attGo.respond src RegId.ATT_CTRL.addr [] := by
  have hflag : s.flag ATT_STATUS_BUSY = false := decide_eq_false (by rw [hidle]; decide)
  obtain ⟨u, hu, (hexec : _ = (if u.flag ATT_CTRL_GO ∧ u.flag ATT_STATUS_BUSY = false then u.attGo else u).respond _ _ _)⟩ :=
    State.command_latched h rfl rfl (w ||| 1#64 <<< 56) c
  have hbusy : (s.regBusy .ATT_CTRL || badL .ATT_CTRL (w ||| 1#64 <<< 56)) = false := (Bool.or_false _).trans hflag
  have hfree : (s.regBusy .ATT_CTRL || badL .ATT_CTRL (w ||| 1#64 <<< 56)) ≠ true := by rw [hbusy]; exact Bool.false_ne_true
  have hb : s.busyRaised .ATT_CTRL (w ||| 1#64 <<< 56) = s := State.busyRaised_free (.inr hbusy)
  have hgo : u.rd ATT_CTRL_GO = 1 := (hu.reads hb ⟨56, 1, .rw, 0, .i⟩ rfl).trans (field_setBit w 56 (by decide))
  have hstill : u.flag ATT_STATUS_BUSY = false := (congrArg (fun x => decide (x = 1)) (State.rd_congr (hu.word hb (by nofun)))).trans hflag
  refine ⟨u, ⟨hu.plain hb (of_decide_eq_true rfl) (.inl rfl), hu.reads hb ⟨0, 48, .rw, 0, .l⟩ (if_neg hfree), hu.reads hb ⟨48, 2, .rw, 0, .l⟩ (if_neg hfree),
    hu.reads hb ⟨50, 4, .rw, 0, .l⟩ (if_neg hfree), fun r hr => hu.word hb hr, hu.mem⟩, hgo, ?_⟩
  rw [hexec, if_pos ⟨decide_eq_true hgo, hstill⟩]

/-- What an order leaves of the registers and of memory, whether it is refused or starts: ATT_CTRL but for GO, DONE, the other registers, and memory. -/
structure AttKept (u t : State) : Prop where
  order : ∀ f : FRef, f.reg = .ATT_CTRL → f.lo + f.width ≤ 56 → t.rd f = u.rd f
  done : t.rd ATT_STATUS_DONE = u.rd ATT_STATUS_DONE
  regs : ∀ r, r ≠ .ATT_CTRL → r ≠ .ATT_STATUS → t.word r = u.word r
  mem : ∀ a, t.byteAt a = u.byteAt a

/-- A refused order reports its code and clears GO. -/
theorem State.attFails_spec (u : State) {code : Nat} (hcode : code < 16) : AttKept u (u.attFails code) ∧ (u.attFails code).rd ATT_STATUS_ERROR = 1 ∧
    (u.attFails code).rd ATT_STATUS_CODE = code ∧ (u.attFails code).rd ATT_CTRL_GO = 0 ∧ u.attFails code = { u with regs := (u.attFails code).regs } := by
  have hctrl : ∀ f : FRef, f.reg ≠ .ATT_CTRL → (u.attFails code).rd f = ((u.wr ATT_STATUS_ERROR 1).wr ATT_STATUS_CODE code).rd f :=
    fun f hf => State.rd_wr_ne _ _ (Ne.symm hf)
  refine ⟨⟨fun f hf hlo => ?_, ?_, fun r hr hr' => ?_, fun a => ?_⟩, ?_, ?_, State.rd_wr_same _ _ _ fle, rfl⟩
  · have hstatus : ∀ g : FRef, g.reg = .ATT_STATUS → g.reg ≠ f.reg := fun g hg => by rw [hg, hf]; nofun
    refine (State.rd_wr_other _ _ _ _ fle fun _ => .inl hlo).trans ?_
    rw [State.rd_wr_ne _ _ (hstatus ATT_STATUS_CODE rfl), State.rd_wr_ne _ _ (hstatus ATT_STATUS_ERROR rfl)]
  · rw [hctrl _ (by nofun), State.rd_wr_other _ _ _ _ fle fun _ => .inl fle, State.rd_wr_other _ _ _ _ fle fun _ => .inl fle]
  · exact (State.word_wr_ne _ _ (Ne.symm hr)).trans ((State.word_wr_ne _ _ (Ne.symm hr')).trans (State.word_wr_ne _ _ (Ne.symm hr')))
  · exact (State.byteAt_wr _ rfl _ a).trans ((State.byteAt_wr _ rfl _ a).trans (State.byteAt_wr _ rfl _ a))
  · rw [hctrl _ (by nofun), State.rd_wr_other _ _ _ _ fle fun _ => .inl fle, State.rd_wr_same _ _ _ fle]
    rfl
  · rw [hctrl _ (by nofun), State.rd_wr_same _ _ _ fle]
    exact Nat.mod_eq_of_lt hcode

/-- The state of an order of ATT_CTRL that runs. -/
def State.attStarts (u : State) (op a mr : Nat) : State := { u.wr ATT_STATUS_BUSY 1 with fw := { u.fw with attest := some (op, a, mr) } }

theorem State.attStarts_spec (u : State) (op a mr : Nat) : AttKept u (u.attStarts op a mr) ∧ (u.attStarts op a mr).rd ATT_STATUS_BUSY = 1 ∧
    (u.attStarts op a mr).rd ATT_CTRL_GO = u.rd ATT_CTRL_GO :=
  ⟨⟨fun f hf _ => State.rd_wr_ne u _ (by rw [hf]; nofun), State.rd_wr_other u _ _ _ fle fun _ => .inr fle, fun r _ hr => State.word_wr_ne u _ (Ne.symm hr),
    fun a => State.byteAt_wr u rfl _ a⟩, State.rd_wr_same u _ _ fle, State.rd_wr_ne u _ (by nofun)⟩

/-- What an order of ATT_CTRL comes to (R514): refused with CODE 1 or 2, or run. -/
theorem State.attGo_eq (u : State) (hop : u.rd ATT_CTRL_OP < 2) : u.attGo =
    if u.rd ATT_CTRL_OP = 1 ∧ u.rd ATT_CTRL_MR < 8 then u.attFails 1
    else if u.rd ATT_CTRL_ADDR % 64 ≠ 0 ∨ 0x010000000000 ≤ u.rd ATT_CTRL_ADDR ∨ u.accessOk (u.rd ATT_CTRL_ADDR) (if u.rd ATT_CTRL_OP = 0 then 18304 else 64) = false then
      u.attFails 2
    else u.attStarts (u.rd ATT_CTRL_OP) (u.rd ATT_CTRL_ADDR) (u.rd ATT_CTRL_MR) := if_neg (Nat.not_le.2 hop)

/-- The words that ATT_CTRL takes hold their fields. -/
theorem attest_words (addr : BitVec 48) (mr : BitVec 4) : (addr.setWidth 64 ||| 1#64 <<< 56).toNat = addr.toNat + 2 ^ 56 * 1 ∧
    (addr.setWidth 64 ||| 1#64 <<< 48 ||| mr.setWidth 64 <<< 50 ||| 1#64 <<< 56).toNat = addr.toNat + 2 ^ 48 * 1 + 2 ^ 50 * mr.toNat + 2 ^ 56 * 1 := by
  have ha := addr.isLt
  have hm := mr.isLt
  have haddr : (addr.setWidth 64).toNat = addr.toNat := by rw [BitVec.toNat_setWidth, Nat.mod_eq_of_lt (by omega)]
  have hmr : (mr.setWidth 64 <<< 50).toNat = 2 ^ 50 * mr.toNat := by
    rw [BitVec.toNat_shiftLeft, BitVec.toNat_setWidth, Nat.shiftLeft_eq, Nat.mod_eq_of_lt (by omega), Nat.mod_eq_of_lt (by omega), Nat.mul_comm]
  refine ⟨toNat_or_add haddr (by omega) rfl, toNat_or_add (toNat_or_add (toNat_or_add haddr (by omega) rfl) (by omega) hmr) (by omega) rfl⟩

section Ends

/-- Bytes are stored alike where the places and the memory are the same. -/
theorem State.setBytes_congr {s t : State} (hplace : ∀ x, t.place x = s.place x) (hmem : t.mem = s.mem) (hundef : t.undef = s.undef) (a : Nat) (bs : List Byte) :
    (t.setBytes a bs).mem = (s.setBytes a bs).mem ∧ (t.setBytes a bs).undef = (s.setBytes a bs).undef := by
  induction bs generalizing a s t with
  | nil => exact ⟨hmem, hundef⟩
  | cons b bs ih =>
    refine ih (s := s.setByte a b) (t := t.setByte a b) (fun x => hplace x) ?_ ?_ (a + 1)
    · rw [State.setByte, State.setByte, hplace, hmem]
    · rw [State.setByte, State.setByte, hplace, hundef]

theorem State.take_bytesAt (s : State) (a : Nat) {k n : Nat} (h : k ≤ n) : (s.bytesAt a n).take k = s.bytesAt a k := by
  induction k generalizing a n with
  | zero => rfl
  | succ k ih =>
    obtain ⟨m, rfl⟩ := Nat.exists_eq_succ_of_ne_zero (n := n) (by omega)
    rw [State.bytesAt, State.bytesAt, List.take_succ_cons, ih _ (by omega)]

/-- The end of an order of ATT_CTRL in its registers, before it writes its result. -/
def State.attEnded (s : State) : State :=
  (({ s with fw := { s.fw with attest := none } }.wr ATT_STATUS_BUSY 0).wr ATT_STATUS_DONE 1).wr ATT_CTRL_GO 0

theorem State.attEnded_word (s : State) {r : RegId} (h : r ≠ .ATT_CTRL) (h' : r ≠ .ATT_STATUS) : s.attEnded.word r = s.word r := by
  rw [State.attEnded, State.word_wr_ne _ _ (Ne.symm h), State.word_wr_ne _ _ (Ne.symm h'), State.word_wr_ne _ _ (Ne.symm h')]
  rfl

theorem State.attEnded_place (s : State) (x : Nat) : s.attEnded.place x = s.place x := by
  rw [State.attEnded, State.wr, State.wr, State.wr, State.place_setWord _ rfl, State.place_setWord _ rfl, State.place_setWord _ rfl]
  rfl

theorem State.attEnded_byteAt (s : State) (x : Nat) : s.attEnded.byteAt x = s.byteAt x := by
  rw [State.attEnded, State.byteAt_wr _ rfl, State.byteAt_wr _ rfl, State.byteAt_wr _ rfl]
  rfl

theorem State.attEnded_status (s : State) : s.attEnded.rd ATT_STATUS_BUSY = 0 ∧ s.attEnded.rd ATT_STATUS_DONE = 1 ∧ s.attEnded.rd ATT_CTRL_GO = 0 := by
  refine ⟨?_, ?_, State.rd_wr_same _ _ _ fle⟩
  · rw [State.attEnded, State.rd_wr_ne _ _ (by nofun), State.rd_wr_other _ _ _ _ fle fun _ => .inl fle, State.rd_wr_same _ _ _ fle]
    rfl
  · rw [State.attEnded, State.rd_wr_ne _ _ (by nofun), State.rd_wr_same _ _ _ fle]
    rfl

/-- The report of the state in which the order ends is that of the state before. -/
theorem State.attEnded_report (s : State) (nonce : List Byte) : s.attEnded.attReport nonce = s.attReport nonce := by
  have hrd : ∀ f : FRef, f.reg ≠ .ATT_CTRL → f.reg ≠ .ATT_STATUS → s.attEnded.rd f = s.rd f := fun f hf hf' => State.rd_congr (s.attEnded_word hf hf')
  have hflag : ∀ f : FRef, f.reg ≠ .ATT_CTRL → f.reg ≠ .ATT_STATUS → s.attEnded.flag f = s.flag f := fun f hf hf' => by rw [State.flag, State.flag, hrd f hf hf']
  have hseq : s.attEnded.frameSeq = s.frameSeq := hrd _ (by nofun) (by nofun)
  unfold State.attReport
  rw [hflag _ (by nofun) (by nofun), hflag _ (by nofun) (by nofun), hflag _ (by nofun) (by nofun), hrd _ (by nofun) (by nofun), hrd _ (by nofun) (by nofun),
    hrd _ (by nofun) (by nofun), hseq]
  rfl

theorem exec_attestDone_of_extend {s : State} {a mr : Nat} (h : s.fw.attest = some (1, a, mr)) :
    exec .attestDone s = .next (s.attEnded.extendRaw mr (s.attEnded.bytesAt a 64)) := by
  change execAttestDone s = _
  rw [execAttestDone, h]
  rfl

theorem exec_attestDone_of_report {s : State} {op a mr : Nat} (h : s.fw.attest = some (op, a, mr)) (hop : op ≠ 1) :
    exec .attestDone s = .next ((s.attEnded.setBytes a (s.attEnded.attReport (s.attEnded.bytesAt (a + 32) 32))).raiseLead 200 17
      [(8, leAt (s.attEnded.bytesAt (a + 32) 32) 0 8), (4, 18304)]) := by
  change execAttestDone s = _
  rw [execAttestDone, h]
  exact if_neg hop

end Ends

/-- Settles O26: `State.attGo_eq` judges the order, and `State.attEnded` is its end. -/
theorem attestationOrdersRunOrAreRefused : Obligations.AttestationOrdersRunOrAreRefused := by
  unfold Obligations.AttestationOrdersRunOrAreRefused
  refine ⟨fun s src addr mr c op len hc h hidle a ha => ?orders, fun s op a mr h => ?ends, fun s h => ?idle⟩
  case orders =>
    obtain ⟨w, hword, hexec⟩ : ∃ w : Word, (field (w ||| 1#64 <<< 56).toNat 0 48 = a ∧ field (w ||| 1#64 <<< 56).toNat 48 2 = op ∧
        (op = 1 → field (w ||| 1#64 <<< 56).toNat 50 4 = mr.toNat) ∧ op < 2 ∧ len = if op = 0 then 18304 else 64) ∧
        exec c s = .next (s.command src .ATT_CTRL (w ||| 1#64 <<< 56) c) := by
      obtain ⟨hreport, hextend⟩ := attest_words addr mr
      have hlt := addr.isLt
      have hmr := mr.isLt
      simp only [List.mem_cons, Prod.mk.injEq, List.not_mem_nil, or_false] at hc
      rcases hc with ⟨rfl, rfl, rfl⟩ | ⟨rfl, rfl, rfl⟩
      · refine ⟨addr.setWidth 64, ?_, rfl⟩
        rw [hreport]
        simp only [field, Nat.shiftRight_eq_div_pow]
        exact ⟨by omega, by omega, by omega, by decide, rfl⟩
      · refine ⟨addr.setWidth 64 ||| 1#64 <<< 48 ||| mr.setWidth 64 <<< 50, ?_, rfl⟩
        rw [hextend]
        simp only [field, Nat.shiftRight_eq_div_pow]
        exact ⟨by omega, by omega, by omega, by decide, rfl⟩
    obtain ⟨hwaddr, hwop, hwmr, hop, hlen⟩ := hword
    obtain ⟨u, hu, hgo, hcommand⟩ := State.command_attest h hidle w c
    have haddr : u.rd ATT_CTRL_ADDR = a := hu.addr.trans hwaddr
    have hopu : u.rd ATT_CTRL_OP = op := hu.op.trans hwop
    have hmru : op = 1 → u.rd ATT_CTRL_MR = mr.toNat := fun h1 => hu.mr.trans (hwmr h1)
    have hok : u.accessOk a len = s.accessOk a len := State.accessOk_congr (by rw [hu.rest]) (by rw [hu.rest]) (fun r hr => hu.regs r fun he => by rw [he] at hr; cases hr) a len
    have heq := u.attGo_eq (by rw [hopu]; exact hop)
    rw [hopu, haddr, ← hlen, hok] at heq
    rw [hcommand] at hexec
    refine ⟨u.attGo, hexec, ?_⟩
    generalize u.attGo = t at heq
    have kept : AttKept u t → t.rd ATT_CTRL_ADDR = a ∧ t.rd ATT_CTRL_OP = op ∧ (op = 1 → t.rd ATT_CTRL_MR = mr.toNat) ∧
        (∀ r, r ≠ .ATT_CTRL → r ≠ .ATT_STATUS → t.word r = s.word r) ∧ (∀ b, t.byteAt b = s.byteAt b) ∧ t.rd ATT_STATUS_DONE = s.rd ATT_STATUS_DONE := fun hk =>
      ⟨(hk.order _ rfl fle).trans haddr, (hk.order _ rfl fle).trans hopu, fun h1 => (hk.order _ rfl fle).trans (hmru h1),
        fun r hr hr' => (hk.regs r hr hr').trans (hu.regs r hr), fun b => (hk.mem b).trans (hu.mem b), hk.done.trans (State.rd_congr (hu.regs _ (by nofun)))⟩
    by_cases hfew : op = 1 ∧ mr.toNat < 8
    · have ht : t = u.attFails 1 := heq.trans (if_pos ⟨hfew.1, by rw [hmru hfew.1]; exact hfew.2⟩)
      obtain ⟨hk, herr, hcode, hgo', hrest⟩ := u.attFails_spec (code := 1) (by decide)
      rw [← ht] at hk herr hcode hgo' hrest
      obtain ⟨k1, k2, k3, k4, k5, k6⟩ := kept hk
      exact ⟨k1, k2, k3, k4, k5, k6, fun _ _ => ⟨herr, hcode, hgo', by rw [hrest, hu.rest]⟩, fun hge => absurd (hge hfew.1) (by omega),
        fun hge => absurd (hge hfew.1) (by omega)⟩
    have hmany : ¬ (op = 1 ∧ u.rd ATT_CTRL_MR < 8) := fun hm => hfew ⟨hm.1, by rw [← hmru hm.1]; exact hm.2⟩
    by_cases hbad : a % 64 ≠ 0 ∨ 0x010000000000 ≤ a ∨ s.accessOk a len = false
    · have ht : t = u.attFails 2 := heq.trans ((if_neg hmany).trans (if_pos hbad))
      obtain ⟨hk, herr, hcode, hgo', hrest⟩ := u.attFails_spec (code := 2) (by decide)
      rw [← ht] at hk herr hcode hgo' hrest
      obtain ⟨k1, k2, k3, k4, k5, k6⟩ := kept hk
      exact ⟨k1, k2, k3, k4, k5, k6, fun h1 h2 => absurd ⟨h1, h2⟩ hfew, fun _ _ => ⟨herr, hcode, hgo', by rw [hrest, hu.rest]⟩,
        fun _ h64 hlt hok' => absurd hbad (by simp [h64, Nat.not_le.2 hlt, hok'])⟩
    · have ht : t = u.attStarts op a (u.rd ATT_CTRL_MR) := heq.trans ((if_neg hmany).trans (if_neg hbad))
      obtain ⟨hk, hbusy, hgo'⟩ := u.attStarts_spec op a (u.rd ATT_CTRL_MR)
      have hmr' := hk.order ATT_CTRL_MR rfl fle
      have hrest : u.attStarts op a (u.rd ATT_CTRL_MR) = { s with
          regs := (u.attStarts op a (u.rd ATT_CTRL_MR)).regs
          fw := { s.fw with attest := some (op, a, u.rd ATT_CTRL_MR) } } := by rw [State.attStarts, State.wr, State.setWord, hu.rest]
      rw [← ht] at hk hbusy hgo' hmr' hrest
      obtain ⟨k1, k2, k3, k4, k5, k6⟩ := kept hk
      exact ⟨k1, k2, k3, k4, k5, k6, fun h1 h2 => absurd ⟨h1, h2⟩ hfew, fun _ hbad' => absurd hbad' hbad, fun _ _ _ _ => ⟨hbusy, hgo'.trans hgo, by rw [hmr']; exact hrest⟩⟩
  case ends =>
    obtain ⟨hbusy, hdone, hgo⟩ := s.attEnded_status
    have hbytes := fun x n => State.bytesAt_congr s.attEnded_byteAt x n
    by_cases hop : op = 1
    · subst hop
      refine ⟨s.attEnded.extendRaw mr (s.attEnded.bytesAt a 64), hbusy, hdone, hgo, fun r hr hr' => s.attEnded_word hr hr',
        fun _ => ⟨exec_attestDone_of_extend h, s.attEnded_byteAt, ?_⟩, fun hne => absurd rfl hne⟩
      rw [hbytes]
      rfl
    · refine ⟨s.attEnded.setBytes a (s.attEnded.attReport (s.attEnded.bytesAt (a + 32) 32)), ?_, ?_, ?_, fun r hr hr' => ?_, fun h1 => absurd h1 hop,
        fun _ => ⟨?_, ?_⟩⟩
      · rw [State.rd_setBytes, hbusy]
      · rw [State.rd_setBytes, hdone]
      · rw [State.rd_setBytes, hgo]
      · rw [State.word_setBytes, s.attEnded_word hr hr']
      · have hlead : (s.attEnded.setBytes a (s.attEnded.attReport (s.attEnded.bytesAt (a + 32) 32))).lead = s.lead := by
          rw [State.lead, State.rd_setBytes]
          exact State.rd_congr (s.attEnded_word (by nofun) (by nofun))
        rw [exec_attestDone_of_report h hop, State.raiseLead, hlead, leAt, List.drop_zero, State.take_bytesAt _ _ (by decide), hbytes _ 8]
      · obtain ⟨hmem, hundef⟩ := State.setBytes_congr (s := s) (t := s.attEnded) s.attEnded_place rfl rfl a (s.attReport (s.bytesAt (a + 32) 32))
        rw [hbytes, s.attEnded_report, State.setBytes_rest, hmem, hundef]
        rfl
  case idle =>
    change execAttestDone s = _
    rw [execAttestDone, h]

end Sys2Proof.Machine
end

section
/-! SUPPORT. Firmware update, commit and anti-rollback (R510, R511, R516 to R519): the orders of FW_CTRL, and the end of an update. -/

namespace Sys2Proof.Machine

/-- An FW_CTRL that has taken an order: its fields hold the word, and nothing else differs. -/
structure FwTaken (s : State) (w : Word) (u : State) : Prop where
  rest : u = { s with regs := u.regs }
  src : u.rd FW_CTRL_SRC = field w.toNat 0 48
  go : u.rd FW_CTRL_GO = field w.toNat 48 1
  commit : u.rd FW_CTRL_COMMIT = field w.toNat 49 1
  arb : u.rd FW_CTRL_ARB = field w.toNat 50 1
  regs : ∀ r, r ≠ .FW_CTRL → u.word r = s.word r
  mem : ∀ a, u.byteAt a = s.byteAt a

/-- An idle FW_CTRL takes the orders of a word. -/
theorem State.writeReg_fw {s : State} (src : Src) (hidle : s.rd FW_STATUS_BUSY = 0) (w : Word) (sig : Bool) :
    ∃ u, FwTaken s w u ∧ s.writeReg src .FW_CTRL w sig = u.fwOrders sig := by
  have hflag : s.flag FW_STATUS_BUSY = false := decide_eq_false (by rw [hidle]; decide)
  have hu := s.latched src (r := .FW_CTRL) w rfl
  have hexec : s.writeReg src .FW_CTRL w sig = if (((s.writeL .FW_CTRL w).writeF .FW_CTRL w).writeI src .FW_CTRL w).flag FW_STATUS_BUSY then
      ((s.writeL .FW_CTRL w).writeF .FW_CTRL w).writeI src .FW_CTRL w else (((s.writeL .FW_CTRL w).writeF .FW_CTRL w).writeI src .FW_CTRL w).fwOrders sig :=
    State.writeReg_open rfl rfl
  generalize ((s.writeL .FW_CTRL w).writeF .FW_CTRL w).writeI src .FW_CTRL w = u at hu hexec
  have hbusy : (s.regBusy .FW_CTRL || badL .FW_CTRL w) = false := (Bool.or_false _).trans hflag
  have hfree : (s.regBusy .FW_CTRL || badL .FW_CTRL w) ≠ true := by rw [hbusy]; exact Bool.false_ne_true
  have hb : s.busyRaised .FW_CTRL w = s := State.busyRaised_free (.inr hbusy)
  have hstill : u.flag FW_STATUS_BUSY = false := (congrArg (fun x => decide (x = 1)) (State.rd_congr (hu.word hb (by nofun)))).trans hflag
  refine ⟨u, ⟨hu.plain hb (of_decide_eq_true rfl) (.inl rfl), hu.reads hb ⟨0, 48, .rw, 0, .l⟩ (if_neg hfree), hu.reads hb ⟨48, 1, .rw, 0, .l⟩ (if_neg hfree),
    hu.reads hb ⟨49, 1, .rw, 0, .l⟩ (if_neg hfree), hu.reads hb ⟨50, 1, .rw, 0, .l⟩ (if_neg hfree), fun r hr => hu.word hb hr, hu.mem⟩, ?_⟩
  rw [hexec, hstill]
  rfl

/-- The word of an order of FW_CTRL: SRC and one bit. -/
theorem fw_fields {w : Word} {x k : Nat} (hw : w.toNat = x + 2 ^ k) (hx : x < 2 ^ 48) (hk : k = 48 ∨ k = 49 ∨ k = 50) : field w.toNat 0 48 = x ∧
    field w.toNat 48 1 = (if k = 48 then 1 else 0) ∧ field w.toNat 49 1 = (if k = 49 then 1 else 0) ∧ field w.toNat 50 1 = (if k = 50 then 1 else 0) := by
  rw [hw]
  simp only [field, Nat.shiftRight_eq_div_pow]
  rcases hk with rfl | rfl | rfl
  · exact ⟨by omega, by rw [if_pos rfl]; omega, by rw [if_neg (by decide)]; omega, by rw [if_neg (by decide)]; omega⟩
  · exact ⟨by omega, by rw [if_neg (by decide)]; omega, by rw [if_pos rfl]; omega, by rw [if_neg (by decide)]; omega⟩
  · exact ⟨by omega, by rw [if_neg (by decide)]; omega, by rw [if_neg (by decide)]; omega, by rw [if_pos rfl]; omega⟩

theorem State.fwWord_toNat (s : State) {k : Nat} (hk : k ≤ 50) : (s.fwWord k).toNat = s.rd FW_CTRL_SRC + 2 ^ k := by
  have hlt : s.rd FW_CTRL_SRC < 2 ^ 48 := s.rd_lt _
  have hpow : 2 ^ k ≤ 2 ^ 50 := Nat.pow_le_pow_right (by decide) hk
  rw [State.fwWord, BitVec.toNat_ofNat, Nat.mod_eq_of_lt (by omega)]

section Orders

variable {s u : State} {w : Word} (hu : FwTaken s w u)
include hu

theorem FwTaken.flag {f : FRef} (hf : f.reg ≠ .FW_CTRL) : u.flag f = s.flag f := congrArg (fun x => decide (x = 1)) (State.rd_congr (hu.regs _ hf))

/-- One order at a time is that order. -/
theorem FwTaken.orders {x k : Nat} (hw : w.toNat = x + 2 ^ k) (hx : x < 2 ^ 48) (hk : k = 48 ∨ k = 49 ∨ k = 50) (sig : Bool) :
    u.rd FW_CTRL_SRC = x ∧ u.rd FW_CTRL_COMMIT = (if k = 49 then 1 else 0) ∧ u.rd FW_CTRL_ARB = (if k = 50 then 1 else 0) ∧ u.rd FW_CTRL_GO = (if k = 48 then 1 else 0) ∧
      u.fwOrders sig = if k = 48 then u.fwGo sig else if k = 49 then u.fwCommit else u.fwArb := by
  obtain ⟨hsrc, hgo, hcommit, harb⟩ := fw_fields hw hx hk
  refine ⟨hu.src.trans hsrc, hu.commit.trans hcommit, hu.arb.trans harb, hu.go.trans hgo, ?_⟩
  have hflags : u.flag FW_CTRL_GO = decide (k = 48) ∧ u.flag FW_CTRL_COMMIT = decide (k = 49) ∧ u.flag FW_CTRL_ARB = decide (k = 50) := by
    simp only [State.flag, hu.go, hu.commit, hu.arb, hgo, hcommit, harb]
    rcases hk with rfl | rfl | rfl <;> decide
  obtain ⟨hgo', hcommit', harb'⟩ := hflags
  rw [State.fwOrders, hgo', hcommit', harb']
  rcases hk with rfl | rfl | rfl <;> rfl

end Orders

/-- What a refusal at a stage leaves: FAIL and STAGE, and not BUSY. -/
theorem State.fwFails_spec (u : State) {stage : Nat} (hstage : stage < 16) : (u.fwFails stage).rd FW_STATUS_FAIL = 1 ∧ (u.fwFails stage).rd FW_STATUS_STAGE = stage ∧
    (u.fwFails stage).rd FW_STATUS_BUSY = 0 ∧ u.fwFails stage = { u with regs := (u.fwFails stage).regs } := by
  refine ⟨?_, ?_, State.rd_wr_same _ _ _ fle, rfl⟩
  · rw [State.fwFails, State.rd_wr_other _ _ _ _ fle fun _ => .inr fle, State.rd_wr_other _ _ _ _ fle fun _ => .inl fle, State.rd_wr_same _ _ _ fle]
    rfl
  · rw [State.fwFails, State.rd_wr_other _ _ _ _ fle fun _ => .inr fle, State.rd_wr_same _ _ _ fle]
    exact Nat.mod_eq_of_lt hstage

/-- The stage at which the checks of a staged image fail, if they do (R516, R518). -/
def State.stagedFail (s : State) (a : Nat) (sig : Bool) : Option Nat :=
  if a % 4096 ≠ 0 ∨ s.accessOk a ((s.stagedImage a).length + 29792) = false then some 1
  else match s.imageFail (s.stagedImage a) sig with
    | some c => some c
    | none => if (s.stagedImage a).compatOk then none else some 5

/-- GO is refused while a trial runs, fails at the stage of a check, or starts the programming of the slot. -/
theorem State.fwGo_eq (u : State) (sig : Bool) {slot : Nat} (hslot : slot = if u.rd MODULE_STATUS_STAGE = 15 then u.fw.bootSlot else 1 - u.fw.bootSlot) :
    u.fwGo sig = if u.rd FW_STATUS_TRIAL = 1 ∧ u.rd MODULE_STATUS_STAGE ≠ 15 then (u.fwFails 7).wr FW_CTRL_GO 0
      else (u.stagedFail (u.rd FW_CTRL_SRC) sig).elim
        { u.wr FW_STATUS_BUSY 1 with fw := { u.fw with update := some (slot, u.rd FW_CTRL_SRC) } }
        fun c => ((u.fwFails c).verifyFail slot c (u.stagedImage (u.rd FW_CTRL_SRC))).wr FW_CTRL_GO 0 := by
  subst hslot
  have htrial : (u.flag FW_STATUS_TRIAL = true ∧ ¬ decide (u.rd MODULE_STATUS_STAGE = 15) = true) ↔ u.rd FW_STATUS_TRIAL = 1 ∧ u.rd MODULE_STATUS_STAGE ≠ 15 := by
    simp only [State.flag, decide_eq_true_eq, ne_eq]
  have hslot : (if decide (u.rd MODULE_STATUS_STAGE = 15) then u.fw.bootSlot else 1 - u.fw.bootSlot) =
      if u.rd MODULE_STATUS_STAGE = 15 then u.fw.bootSlot else 1 - u.fw.bootSlot := if_congr decide_eq_true_iff rfl rfl
  unfold State.fwGo
  dsimp only
  rw [hslot]
  by_cases h : u.rd FW_STATUS_TRIAL = 1 ∧ u.rd MODULE_STATUS_STAGE ≠ 15
  · rw [if_pos (htrial.2 h), if_pos h]
  · rw [if_neg fun hf => h (htrial.1 hf), if_neg h]
    change (match u.stagedFail (u.rd FW_CTRL_SRC) sig with
      | some c => _
      | none => _) = _
    cases u.stagedFail (u.rd FW_CTRL_SRC) sig <;> rfl

/-- COMMIT of no trial is done; of a trial it names the running image as preferred (R517). -/
theorem State.fwCommit_spec (u : State) : (u.rd FW_STATUS_TRIAL = 0 → u.fwCommit.rd FW_STATUS_DONE = 1 ∧ u.fwCommit.rd FW_CTRL_COMMIT = 0 ∧
      u.fwCommit = { u with regs := u.fwCommit.regs }) ∧
    (u.rd FW_STATUS_TRIAL = 1 → u.fwCommit.rd FW_STATUS_TRIAL = 0 ∧ u.fwCommit.rd FW_STATUS_DONE = 1 ∧
      u.fwCommit.flash = (u.writeDesc fun x => { x with preferred := u.fw.bootSlot, trial := 0xFF, tried := 0 }).flash) := by
  have hflag : (u.wr FW_CTRL_COMMIT 0).flag FW_STATUS_TRIAL = u.flag FW_STATUS_TRIAL := flag_wr_ne (by nofun)
  refine ⟨fun h => ?_, fun h => ?_⟩
  · have heq : u.fwCommit = (u.wr FW_CTRL_COMMIT 0).wr FW_STATUS_DONE 1 := if_pos (hflag.trans (decide_eq_false (by rw [h]; decide)))
    rw [heq]
    exact ⟨State.rd_wr_same _ _ _ fle, (State.rd_wr_ne _ _ (by nofun)).trans (State.rd_wr_same _ _ _ fle), rfl⟩
  · have heq : u.fwCommit = ((((u.wr FW_CTRL_COMMIT 0).writeDesc fun x => { x with preferred := u.fw.bootSlot, trial := 0xFF, tried := 0 }).fwEvent u.fw.bootSlot 3
        ((u.wr FW_CTRL_COMMIT 0).slotImage u.fw.bootSlot)).wr FW_STATUS_TRIAL 0).wr FW_STATUS_DONE 1 := by
      have htrial : u.flag FW_STATUS_TRIAL = true := decide_eq_true h
      exact if_neg (by rw [hflag, htrial]; decide)
    rw [heq]
    refine ⟨(State.rd_wr_other _ _ _ _ fle fun _ => .inl fle).trans (State.rd_wr_same _ _ _ fle), State.rd_wr_same _ _ _ fle, ?_⟩
    rw [State.flash_wr, State.flash_wr, State.fwEvent, (State.raise_raised (.refl _) _).rest]
    rfl

/-- ARB is refused while a trial runs; else the counter rises to the SVN of the running image (R517). -/
theorem State.fwArb_spec (u : State) : u.fwArb.rd FW_CTRL_ARB = 0 ∧
    (u.rd FW_STATUS_TRIAL = 1 → u.fwArb.rd FW_STATUS_FAIL = 1 ∧ u.fwArb.rd FW_STATUS_STAGE = 8 ∧ u.fwArb = { u with regs := u.fwArb.regs }) ∧
    (u.rd FW_STATUS_TRIAL = 0 → u.fwArb.fw.arb.toNat = max u.fw.arb.toNat (u.rd FW_STATUS_SVN) ∧ u.fwArb.rd FW_STATUS_ARB_CTR = max u.fw.arb.toNat (u.rd FW_STATUS_SVN) ∧
      u.fwArb.rd FW_STATUS_DONE = 1 ∧ u.fwArb = { u with regs := u.fwArb.regs, fw := { u.fw with arb := u.fwArb.fw.arb } }) := by
  have hflag : (u.wr FW_CTRL_ARB 0).flag FW_STATUS_TRIAL = u.flag FW_STATUS_TRIAL := flag_wr_ne (by nofun)
  have hsvn : (u.wr FW_CTRL_ARB 0).rd FW_STATUS_SVN = u.rd FW_STATUS_SVN := State.rd_wr_ne _ _ (by nofun)
  have hmax : max u.fw.arb.toNat (u.rd FW_STATUS_SVN) < 2 ^ 16 := Nat.max_lt.2 ⟨u.fw.arb.isLt, u.rd_lt _⟩
  by_cases h : u.flag FW_STATUS_TRIAL = true
  · have heq : u.fwArb = (u.wr FW_CTRL_ARB 0).fwFails 8 := if_pos (hflag.trans h)
    obtain ⟨hfail, hstage, -, hrest⟩ := (u.wr FW_CTRL_ARB 0).fwFails_spec (stage := 8) (by decide)
    rw [heq]
    refine ⟨?_, fun _ => ⟨hfail, hstage, rfl⟩, fun h0 => ?_⟩
    · rw [State.fwFails, State.rd_wr_ne _ _ (by nofun), State.rd_wr_ne _ _ (by nofun), State.rd_wr_ne _ _ (by nofun), State.rd_wr_same _ _ _ fle]
      rfl
    · rw [State.flag, h0] at h
      exact absurd h (by decide)
  · have heq : u.fwArb = { (((u.wr FW_CTRL_ARB 0).wr FW_STATUS_ARB_CTR (max u.fw.arb.toNat (u.rd FW_STATUS_SVN))).wr FW_STATUS_DONE 1) with
        fw := { u.fw with arb := BitVec.ofNat 16 (max u.fw.arb.toNat (u.rd FW_STATUS_SVN)) } } := by
      rw [← hsvn]
      exact if_neg fun ht => h (hflag.symm.trans ht)
    rw [heq]
    refine ⟨?_, fun h1 => absurd (decide_eq_true h1) h, fun _ => ⟨?_, ?_, State.rd_wr_same (((u.wr FW_CTRL_ARB 0).wr FW_STATUS_ARB_CTR _)) _ _ fle, rfl⟩⟩
    · exact (State.rd_wr_ne _ _ (by nofun)).trans ((State.rd_wr_ne _ _ (by nofun)).trans (State.rd_wr_same _ _ _ fle))
    · exact (BitVec.toNat_ofNat ..).trans (Nat.mod_eq_of_lt hmax)
    · exact (State.rd_wr_other ((u.wr FW_CTRL_ARB 0).wr FW_STATUS_ARB_CTR _) _ _ _ fle fun _ => .inr fle).trans ((State.rd_wr_same _ _ _ fle).trans (Nat.mod_eq_of_lt hmax))

section Checks

variable {s u : State} {w : Word} (hu : FwTaken s w u)
include hu

/-- The checks of a staged image read nothing of FW_CTRL. -/
theorem FwTaken.checks (a : Nat) : u.stagedImage a = s.stagedImage a ∧ (∀ n, u.accessOk a n = s.accessOk a n) ∧ ∀ i sig, u.imageFail i sig = s.imageFail i sig :=
  ⟨congrArg imageOf (State.bytesAt_congr hu.mem a 4096),
    fun n => State.accessOk_congr (by rw [hu.rest]) (by rw [hu.rest]) (fun r hr => hu.regs r fun he => by rw [he] at hr; cases hr) a n, fun i sig => by rw [hu.rest]; rfl⟩

theorem FwTaken.stagedFail (a : Nat) (sig : Bool) : u.stagedFail a sig = s.stagedFail a sig := by
  obtain ⟨himage, hok, hfail⟩ := hu.checks a
  rw [State.stagedFail, himage, hok, hfail]
  rfl

end Checks

/-- The stage at which a staged image fails, by its checks in their order. -/
theorem State.stagedFail_spec (s : State) (a : Nat) (sig : Bool) : let i := s.stagedImage a
    (a % 4096 ≠ 0 ∨ s.accessOk a (i.length + 29792) = false → s.stagedFail a sig = some 1) ∧
    (a % 4096 = 0 → s.accessOk a (i.length + 29792) = true →
      (∀ k, s.imageFail i sig = some k → s.stagedFail a sig = some k) ∧
      (s.imageFail i sig = none → i.compatAt + i.compatLen > i.length → s.stagedFail a sig = some 5) ∧
      (s.imageFail i sig = none → i.compatAt + i.compatLen ≤ i.length → s.stagedFail a sig = none)) := by
  intro i
  refine ⟨fun h => if_pos h, fun ha hok => ?_⟩
  have hpass : ¬ (a % 4096 ≠ 0 ∨ s.accessOk a (i.length + 29792) = false) := by simp [ha, hok]
  have heq : s.stagedFail a sig = match s.imageFail i sig with
    | some c => some c
    | none => if i.compatOk then none else some 5 := if_neg hpass
  refine ⟨fun k hk => by rw [heq, hk], fun hnone hlong => ?_, fun hnone hfits => ?_⟩
  · rw [heq, hnone]
    exact if_neg (by rw [Image.compatOk, decide_eq_true_eq]; omega)
  · rw [heq, hnone]
    exact if_pos (decide_eq_true hfits)

/-- A reached write of FW_CTRL takes its orders and is answered. -/
theorem State.accessWrite_fw {s : State} {src : Src} (h : Reached s src RegId.FW_CTRL.addr) (hidle : s.rd FW_STATUS_BUSY = 0) (w : Word) (sig : Bool) (c : Instr)
    {act : State → State} (hact : act s = s.writeReg src .FW_CTRL w sig) :
    ∃ u, FwTaken s w u ∧ s.accessWrite src RegId.FW_CTRL.addr c act = (u.fwOrders sig).respond src RegId.FW_CTRL.addr [] := by
  obtain ⟨u, hu, hwrite⟩ := State.writeReg_fw src hidle w sig
  refine ⟨u, hu, ?_⟩
  rw [State.accessWrite, State.access_reached h, hact, hwrite]

/-- Settles O27: one order of FW_CTRL is taken as `FwTaken.orders` says, and is `State.fwGo`, `State.fwCommit` or `State.fwArb`. -/
theorem firmwareOrdersRunOrAreRefused : Obligations.FirmwareOrdersRunOrAreRefused := by
  unfold Obligations.FirmwareOrdersRunOrAreRefused
  intro s src h hidle
  refine ⟨fun addr sigOk slot hslot => ?go, ?commit, ?arb⟩
  case go =>
    obtain ⟨u, hu, hexec⟩ := State.accessWrite_fw h hidle (addr.setWidth 64 ||| 1#64 <<< 48) sigOk (.fwUpdate src addr sigOk)
      (act := fun s => s.writeReg src .FW_CTRL (addr.setWidth 64 ||| 1#64 <<< 48) sigOk) rfl
    have haddr : (addr.setWidth 64).toNat = addr.toNat := by
      have := addr.isLt
      rw [BitVec.toNat_setWidth, Nat.mod_eq_of_lt (by omega)]
    obtain ⟨hsrc, hcommit, harb, hgo, horders⟩ := hu.orders (x := addr.toNat) (k := 48) (toNat_or_add (k := 48) (v := 1) haddr addr.isLt rfl) addr.isLt (.inl rfl) sigOk
    rw [horders, if_pos rfl] at hexec
    have htrial : u.rd FW_STATUS_TRIAL = s.rd FW_STATUS_TRIAL := State.rd_congr (hu.regs _ (by nofun))
    have hstage : u.rd MODULE_STATUS_STAGE = s.rd MODULE_STATUS_STAGE := State.rd_congr (hu.regs _ (by nofun))
    have hfw : u.fw = s.fw := by rw [hu.rest]
    have hgoes := u.fwGo_eq sigOk (slot := slot) (by rw [hstage, hfw]; exact hslot)
    rw [htrial, hstage, hsrc, hu.stagedFail, (hu.checks addr.toNat).1, hfw] at hgoes
    refine ⟨u.fwGo sigOk, u, congrArg Host.Outcome.next hexec, hsrc, hcommit, harb, hu.rest, hu.regs, hu.mem, fun ht hs => ?_, fun hnot i hi => ?_⟩
    · rw [hgoes, if_pos ⟨ht, hs⟩]
      obtain ⟨hfail, hstage', hbusy, hrest⟩ := u.fwFails_spec (stage := 7) (by decide)
      have hother : ∀ f : FRef, f.reg ≠ .FW_CTRL → ((u.fwFails 7).wr FW_CTRL_GO 0).rd f = (u.fwFails 7).rd f := fun f hf => State.rd_wr_ne _ _ (Ne.symm hf)
      refine ⟨(hother _ (by nofun)).trans hfail, (hother _ (by nofun)).trans hstage', (hother _ (by nofun)).trans hbusy, State.rd_wr_same _ _ _ fle, ?_⟩
      rw [State.wr, State.setWord, hrest, hu.rest]
    · have hnot' : ¬ (s.rd FW_STATUS_TRIAL = 1 ∧ s.rd MODULE_STATUS_STAGE ≠ 15) := fun hb => by
        rcases hnot with h0 | h15
        · exact absurd (h0.symm.trans hb.1) (by decide)
        · exact hb.2 h15
      rw [if_neg hnot'] at hgoes
      subst hi
      obtain ⟨hfirst, hlater⟩ := s.stagedFail_spec addr.toNat sigOk
      refine ⟨fun hbad => by rw [hgoes, hfirst hbad]; rfl, fun ha hok => ?_⟩
      obtain ⟨hfails, hlong, hfits⟩ := hlater ha hok
      refine ⟨fun k hk => by rw [hgoes, hfails k hk]; rfl, fun hnone hl => by rw [hgoes, hlong hnone hl]; rfl, fun hnone hl => ?_⟩
      rw [hgoes, hfits hnone hl]
      refine ⟨State.rd_wr_same u _ _ fle, (State.rd_wr_ne u _ (by nofun)).trans hgo, ?_⟩
      rw [Option.elim_none, State.wr, State.setWord, hu.rest]
  case commit =>
    obtain ⟨u, hu, hexec⟩ := State.accessWrite_fw h hidle (s.fwWord 49) false (.fwCommit src)
      (act := fun s => s.writeReg src .FW_CTRL (s.fwWord 49) false) rfl
    obtain ⟨-, -, -, -, horders⟩ := hu.orders (k := 49) (s.fwWord_toNat (by decide)) (s.rd_lt _) (.inr (.inl rfl)) false
    rw [horders, if_neg (by decide), if_pos rfl] at hexec
    have htrial : u.rd FW_STATUS_TRIAL = s.rd FW_STATUS_TRIAL := State.rd_congr (hu.regs _ (by nofun))
    obtain ⟨hnone, htaken⟩ := u.fwCommit_spec
    rw [htrial] at hnone htaken
    generalize u.fwCommit = t at *
    refine ⟨t, congrArg Host.Outcome.next hexec, fun h0 => ?_, fun h1 => ?_⟩
    · obtain ⟨hdone, hcommit, hrest⟩ := hnone h0
      exact ⟨hdone, hcommit, by rw [hrest, hu.rest]⟩
    · obtain ⟨hgone, hdone, hflash⟩ := htaken h1
      refine ⟨hgone, hdone, ?_⟩
      rw [hflash, hu.rest]
      rfl
  case arb =>
    obtain ⟨u, hu, hexec⟩ := State.accessWrite_fw h hidle (s.fwWord 50) false (.arbRaise src)
      (act := fun s => s.writeReg src .FW_CTRL (s.fwWord 50) false) rfl
    obtain ⟨-, -, -, -, horders⟩ := hu.orders (k := 50) (s.fwWord_toNat (by decide)) (s.rd_lt _) (.inr (.inr rfl)) false
    rw [horders, if_neg (by decide), if_neg (by decide)] at hexec
    have htrial : u.rd FW_STATUS_TRIAL = s.rd FW_STATUS_TRIAL := State.rd_congr (hu.regs _ (by nofun))
    have hsvn : u.rd FW_STATUS_SVN = s.rd FW_STATUS_SVN := State.rd_congr (hu.regs _ (by nofun))
    have hfw : u.fw = s.fw := by rw [hu.rest]
    obtain ⟨hcleared, hrefused, hraised⟩ := u.fwArb_spec
    rw [htrial, hsvn, hfw] at hraised
    rw [htrial] at hrefused
    generalize u.fwArb = t at *
    refine ⟨t, congrArg Host.Outcome.next hexec, hcleared, fun h1 => ?_, fun h0 => ?_⟩
    · obtain ⟨hfail, hstage, hrest⟩ := hrefused h1
      exact ⟨hfail, hstage, by rw [hrest, hu.rest]⟩
    · obtain ⟨harb, hctr, hdone, hrest⟩ := hraised h0
      exact ⟨harb, hctr, hdone, by rw [hrest, hu.rest]⟩

end Sys2Proof.Machine
end

section
/-! SUPPORT. The end of a firmware update (R511, R516, R519). -/

namespace Sys2Proof.Machine

/-- The slot is erased and GO cleared: the update is over, and nothing of it is programmed. -/
def State.updateEnded (s : State) (slot : Nat) : State :=
  let s := (s.flashErase (slotBase slot) imageSlotBytes).wr FW_CTRL_GO 0
  { s with fw := { s.fw with update := none } }

/-- The slot holds the staged image, and the descriptor names it as an untried trial. -/
def State.updateKept (s : State) (slot src : Nat) : State :=
  ((s.updateEnded slot).flashWrite (slotBase slot) ((s.updateEnded slot).bytesAt src ((s.stagedImage src).length + 29792))).writeDesc fun x => { x with trial := slot, tried := 0 }

theorem State.flashWrite_rd (s : State) (a : Nat) (bs : List Byte) (f : FRef) : (s.flashWrite a bs).rd f = s.rd f := rfl

theorem State.writeDesc_rd (s : State) (f : BootDesc → BootDesc) (g : FRef) : (s.writeDesc f).rd g = s.rd g := rfl

section Ends

variable (s : State) (slot src : Nat)

theorem State.updateEnded_byteAt (a : Nat) : (s.updateEnded slot).byteAt a = s.byteAt a := State.byteAt_wr (s.flashErase (slotBase slot) imageSlotBytes) rfl 0 a

theorem State.updateEnded_word {r : RegId} (h : r ≠ .FW_CTRL) : (s.updateEnded slot).word r = s.word r :=
  State.word_wr_ne (s.flashErase (slotBase slot) imageSlotBytes) 0 (Ne.symm h)

theorem State.updateKept_eq : s.updateKept slot src =
    ((s.updateEnded slot).flashWrite (slotBase slot) (s.bytesAt src ((s.stagedImage src).length + 29792))).writeDesc fun x => { x with trial := slot, tried := 0 } := by
  rw [State.updateKept, State.bytesAt_congr (s.updateEnded_byteAt slot)]

theorem State.updateKept_rd {f : FRef} (h : f.reg ≠ .FW_CTRL) : (s.updateKept slot src).rd f = s.rd f := by
  rw [State.updateKept, State.writeDesc_rd, State.flashWrite_rd, State.rd_congr (s.updateEnded_word slot h)]

variable {s slot src}

theorem exec_fwUpdateDone_bad (h : s.fw.update = some (slot, src)) :
    exec (.fwUpdateDone false) s = .next (((s.updateEnded slot).fwFails 6).verifyFail slot 6 (s.stagedImage src)) := by
  change execFwUpdateDone false s = _
  unfold execFwUpdateDone
  rw [h]
  dsimp only
  rw [if_pos rfl]
  rfl

theorem exec_fwUpdateDone_good (h : s.fw.update = some (slot, src)) {w : State}
    (hw : w = ((s.updateKept slot src).fwEvent slot 1 (s.stagedImage src)).wr FW_STATUS_BUSY 0) : exec (.fwUpdateDone true) s =
      .next (if s.rd MODULE_STATUS_STAGE = 15 then { (w.wr FW_STATUS_DONE 1).wr MODULE_RESET_BUSY 1 with lamp := { (w.wr FW_STATUS_DONE 1).lamp with resetOrder := some (1, 3) } }
        else w.wr FW_STATUS_DONE 1) := by
  have hstage : ((s.updateEnded slot).flashWrite (slotBase slot) ((s.updateEnded slot).bytesAt src ((s.stagedImage src).length + 29792))).rd MODULE_STATUS_STAGE =
      s.rd MODULE_STATUS_STAGE := (State.flashWrite_rd ..).trans (State.rd_congr (s.updateEnded_word slot (by nofun)))
  subst hw
  change execFwUpdateDone true s = _
  unfold execFwUpdateDone
  rw [h]
  dsimp only
  rw [if_neg (show ¬ true = false by decide)]
  refine congrArg Host.Outcome.next ?_
  by_cases hs : s.rd MODULE_STATUS_STAGE = 15
  · rw [if_pos hs]
    exact if_pos (decide_eq_true (hstage.trans hs))
  · rw [if_neg hs]
    exact if_neg fun hr => hs (hstage.symm.trans (of_decide_eq_true hr))

end Ends

/-- Settles O28: `State.updateEnded` is what a failed read-back leaves, `State.updateKept` what a good one does. -/
theorem updatesEndWithATrialOrLeaveTheDescriptor : Obligations.UpdatesEndWithATrialOrLeaveTheDescriptor := by
  unfold Obligations.UpdatesEndWithATrialOrLeaveTheDescriptor
  refine ⟨fun s ok h => ?none, fun s slot src h i hi => ?some⟩
  case none =>
    change execFwUpdateDone ok s = _
    rw [execFwUpdateDone, h]
  case some =>
    subst hi
    have hlead : (s.updateKept slot src).lead = s.lead := s.updateKept_rd slot src (f := MODULE_LEAD_LEAD_DIE) (by nofun)
    have hgood := exec_fwUpdateDone_good h rfl
    rw [State.fwEvent, hlead, State.lamp_wr] at hgood
    exact ⟨s.updateEnded slot, s.updateKept slot src, _, rfl, rfl, fun r => s.updateEnded_word slot,
      State.rd_wr_same (s.flashErase (slotBase slot) imageSlotBytes) FW_CTRL_GO 0 fle, exec_fwUpdateDone_bad h, s.updateKept_eq slot src, rfl,
      fun hs => hgood.trans (congrArg _ (if_neg hs)), fun hs => hgood.trans (congrArg _ (if_pos hs))⟩

end Sys2Proof.Machine
end

section
/-! SUPPORT. MG.EVENT and MG.FENCE (R127, R406, R461): the event or the order, and what the order leaves. -/

namespace Sys2Proof.Machine

/-- MG.EVENT raises its event, and tells of a repaired block by number 150. -/
theorem exec_mgEvent {s : State} {h : Hdr} {a : FmtA} (hi : Issues s h 8) (hctl : isCtl h.seq = true) (hl : legalMgEvent a = true) (hlisted : eventListed a.imm.toNat = true)
    {w : Word} (hw : w = s.sreg h.die h.seq a.sa) {u : State} (hu : u = s.raise { mkEv a.imm.toNat h.die 0xFF 16 (h.seq - 96) [] with pay0 := w }) :
    exec (.mgEvent h a) s = .next (State.retire (if a.imm.toNat = 150 then u.blockRepaired h.die (field w.toNat 0 32) (field w.toNat 32 16) (field w.toNat 48 16) else u)
      h.die h.seq ((s.core h.die h.seq).pc + 8)) := by
  subst hw hu
  exact exec_mgmt_of_done rfl hi hctl (by rw [hl, hlisted]; rfl) rfl

/-- The granules of a repaired block that are named differ, and lie in the block. -/
theorem repairedGranules_spec (seed : Nat) {n : Nat} (hn : n ≤ 256) :
    (repairedGranules seed n).length = n ∧ (repairedGranules seed n).Nodup ∧ ∀ g ∈ repairedGranules seed n, g < 256 := by
  have hperm := List.filter_append_perm (fun i => (Config.freeByte (seed + i)).getLsbD 0) (List.range 256)
  refine ⟨?_, ((hperm.nodup_iff.2 List.nodup_range).sublist (List.take_sublist ..)), fun g hg => List.mem_range.1 (hperm.mem_iff.1 (List.mem_of_mem_take hg))⟩
  rw [repairedGranules, List.length_take, hperm.length_eq, List.length_range, Nat.min_eq_left hn]

section Fence

variable {s : State} {h : Hdr} {a : FmtA} (hi : Issues s h 8) (hctl : isCtl h.seq = true) (hl : legalMgFence a = true)

/-- The parts of the word that codes an order. -/
theorem fenceOrder_fields (w : Word) : fenceOrder w = ⟨w.toNat % 4, w.toNat / 4 % 16, w.toNat / 65536 % 65536, w.toNat / 4294967296 % 8⟩ := by
  simp only [fenceOrder, field, Nat.shiftRight_eq_div_pow, Nat.pow_zero, Nat.div_one]
  rfl

theorem fenceLegal_iff (w : Word) : fenceLegal w = true ↔ w.toNat / 4 % 16 ≤ 6 ∧ w.toNat / 64 % 1024 = 0 ∧ w.toNat / 34359738368 = 0 ∧
    ¬ (w.toNat % 4 = 3 ∧ w.toNat / 4 % 16 = 6) := by
  have hlt := w.isLt
  have hhigh : w.toNat / 34359738368 % 536870912 = w.toNat / 34359738368 := Nat.mod_eq_of_lt (by omega)
  simp only [fenceLegal, field, Nat.shiftRight_eq_div_pow, Nat.pow_zero, Nat.div_one, Bool.and_eq_true, decide_eq_true_eq, Bool.not_eq_true', Bool.and_eq_false_imp,
    decide_eq_false_iff_not]
  rw [show (2 : Nat) ^ 35 = 34359738368 by decide, show (2 : Nat) ^ 29 = 536870912 by decide, hhigh]
  rw [and_assoc, and_assoc, not_and]
  rfl

include hi hctl hl

/-- A reserved code faults. -/
theorem exec_mgFence_of_reserved (hw : fenceLegal (s.sreg h.die h.seq a.sa) = false) :
    ∃ t, exec (.mgFence h a) s = .next t ∧ Faulted h.die h.seq 64 0 (s.core h.die h.seq).pc.toNat s t :=
  exec_mgmt_of_fault (items := []) rfl hi hctl hl (if_pos hw)

/-- An order is taken by a die that is reached. -/
theorem exec_mgFence_of_legal (hw : fenceLegal (s.sreg h.die h.seq a.sa) = true) {o : FenceOrder} (ho : o = fenceOrder (s.sreg h.die h.seq a.sa)) :
    exec (.mgFence h a) s = .next (State.retire (if s.dieUp o.die ∧ s.routeOk h.die o.die then s.fenceOrdered o else s) h.die h.seq ((s.core h.die h.seq).pc + 8)) := by
  subst ho
  refine exec_mgmt_of_done rfl hi hctl hl ((if_neg (by rw [hw]; decide)).trans ?_)
  split <;> rfl

end Fence

/-- Parking a core raises its event once (R458, R461). -/
theorem State.parkCore_spec (s : State) (d c : Nat) : ((s.core d c).parked = true → s.parkCore d c = s) ∧ ((s.core d c).parked = false → ∃ v : State, ∃ b < 256,
    v = ((s.stopItem d c).modCore d c (fun x => { x with parked := true })).raise (mkEv 87 d c 17 0 [(1, c), (1, b)]) ∧ s.parkCore d c = { v with fresh := (s.parkCore d c).fresh }) := by
  refine ⟨fun hp => if_pos hp, fun hp => ⟨_, (Config.freeByte s.fresh).toNat, BitVec.isLt _, rfl, ?_⟩⟩
  have heq : s.parkCore d c = (((s.stopItem d c).modCore d c (fun x => { x with parked := true })).raise
    (mkEv 87 d c 17 0 [(1, c), (1, (Config.freeByte s.fresh).toNat)])).used 1 := if_neg (by rw [hp]; decide)
  rw [heq]
  rfl

/-- A change of a port at both its ends. -/
theorem State.modPorts_spec (s : State) {d p e : Nat} (hne : d ≠ e) (f : Port → Port) {u : State} (hu : u = (s.modPort d p f).modPort e p f) :
    u = { s with ports := u.ports } ∧ (∀ x y, portKey x y ≠ portKey d p → portKey x y ≠ portKey e p → u.port x y = s.port x y) ∧
      u.port d p = f (s.port d p) ∧ u.port e p = f (s.port e p) := by
  subst hu
  refine ⟨rfl, fun x y hd he => ?_, ?_, ?_⟩
  · exact (tabGet_tabSet_ne _ _ _ (Ne.symm he)).trans (tabGet_tabSet_ne _ _ _ (Ne.symm hd))
  · rw [port_modPort_ne _ hne, State.port_modPort_same]
  · rw [State.port_modPort_same, port_modPort_ne _ hne.symm]

/-- What an order on a die-to-die port does at the two ends of the port. -/
theorem State.portOrder_spec (s : State) {d p e : Nat} (hpeer : s.portPeer d p = some e) {order : Nat} {u : State} (hu : u = s.portOrder d p order) :
    u = { s with ports := u.ports, links := u.links, wire := u.wire } ∧ (order ≠ 2 → u.links = s.links ∧ u.wire = s.wire) ∧
      (∀ x y, portKey x y ≠ portKey d p → portKey x y ≠ portKey e p → u.port x y = s.port x y) ∧
      (order = 0 → u.port d p = { s.port d p with up := false } ∧ u.port e p = { s.port e p with up := false }) ∧
      (order = 2 → u.port d p = { portReset with up := (s.port d p).up } ∧ u.port e p = { portReset with up := (s.port e p).up }) ∧
      (order = 1 ∨ order = 3 → u = s) := by
  have hne : d ≠ e := by
    unfold State.portPeer at hpeer
    dsimp only at hpeer
    split at hpeer
    · exact fun h => xor_two_pow_ne d p (h.trans (Option.some.inj hpeer).symm).symm
    · exact nomatch hpeer
  unfold State.portOrder at hu
  rw [hpeer] at hu
  dsimp only at hu
  by_cases h0 : order = 0
  · rw [if_pos h0] at hu
    obtain ⟨hrest, hports, hd, he⟩ := s.modPorts_spec (p := p) hne _ hu
    exact ⟨by rw [hrest], fun _ => by rw [hrest]; exact ⟨rfl, rfl⟩, hports, fun _ => ⟨hd, he⟩, by omega, by omega⟩
  rw [if_neg h0] at hu
  by_cases h2 : order = 2
  · rw [if_pos h2] at hu
    unfold State.portReinit at hu
    rw [hpeer] at hu
    dsimp only at hu
    generalize hv : (s.modPort d p fun x => { portReset with up := x.up }).modPort e p (fun x => { portReset with up := x.up }) = v at hu
    obtain ⟨hrest, hports, hd, he⟩ := s.modPorts_spec (p := p) hne _ hv.symm
    have hsent : u = { v with links := u.links, wire := u.wire } := by
      rw [hu]
      exact v.reissueOver_sent d p
    have hport : ∀ x y, u.port x y = v.port x y := fun x y => by rw [hsent]; rfl
    refine ⟨?_, fun h => absurd h2 h, fun x y hx hy => (hport x y).trans (hports x y hx hy), by omega, fun _ => ⟨(hport d p).trans hd, (hport e p).trans he⟩, by omega⟩
    rw [hsent, hrest]
  · rw [if_neg h2] at hu
    subst hu
    exact ⟨rfl, fun _ => ⟨rfl, rfl⟩, fun _ _ _ _ => rfl, by omega, by omega, fun _ => rfl⟩

theorem State.nCores_pos (s : State) : 0 < s.nCores := by
  unfold State.nCores
  split <;> decide

theorem State.chanExists_of_mod {s : State} {d n : Nat} (hd : s.dieUp d = true) (hn : n = n % (32 + 4 * s.nCores)) : s.chanExists d n = true := by
  have hlt : n < 32 + 4 * s.nCores := hn ▸ Nat.mod_lt _ (by omega)
  rw [State.dieUp, Bool.and_eq_true] at hd
  rw [State.chanExists, Bool.and_eq_true]
  exact ⟨hd.1, decide_eq_true hlt⟩

/-- The orders on cores, control cores, channels, completion queues and dies, by their kind, code and index. -/
theorem State.fenceOrdered_of_row {s : State} {e i kind order : Nat} (he : s.dieUp e = true) {u : State} (hrow : (kind, order, i, u) ∈ [
      (0, 0, i % s.nCores, s.fenceCore e i),
      (0, 1, i % s.nCores, s.parkCore e i),
      (0, 3, i % s.nCores, s.modCore e i (fun x => { x with parked := false, fenced := false })),
      (1, 0, i % 4, s.fenceControl e i),
      (1, 1, i % 4, s.modCore e (96 + i) (fun x => { x with parked := true })),
      (1, 3, i % 4, s.modCore e (96 + i) (fun x => { x with parked := false, fenced := false })),
      (2, 0, i % (32 + 4 * s.nCores), s.pauseChan e i),
      (2, 1, i % (32 + 4 * s.nCores), s.pauseChan e i),
      (2, 2, i % (32 + 4 * s.nCores), s.cancelChan e i),
      (2, 3, i % (32 + 4 * s.nCores), s.resumeChan e i),
      (3, 0, i % 64, s.wr (DRAY_CQ_CTL_EN e i) 0),
      (3, 2, i % 64, (s.wr (DRAY_CQ_PTR_HEAD e i) (s.rd (DRAY_CQ_PTR_TAIL e i))).releaseCq e i),
      (3, 3, i % 64, (s.wr (DRAY_CQ_CTL_EN e i) 1).releaseCq e i),
      (6, 0, i, s.fenceFound e 0)]) : s.fenceOrdered ⟨order, kind, i, e⟩ = u := by
  have hcore : i = i % s.nCores → ¬ s.nCores ≤ i := fun h => Nat.not_le.2 (h ▸ Nat.mod_lt _ s.nCores_pos)
  have hctl : i = i % 4 → ¬ 4 ≤ i := by omega
  have hqueue : i = i % 64 → ¬ 64 ≤ i := by omega
  have hchan : i = i % (32 + 4 * s.nCores) → ¬ s.chanExists e i = false := fun h hex => by rw [State.chanExists_of_mod he h] at hex; exact nomatch hex
  simp only [List.mem_cons, List.not_mem_nil, or_false, Prod.mk.injEq] at hrow
  rcases hrow with h | h | h | h | h | h | h | h | h | h | h | h | h | h <;> obtain ⟨rfl, rfl, hi, rfl⟩ := h
  · exact if_neg (hcore hi)
  · exact if_neg (hcore hi)
  · exact if_neg (hcore hi)
  · exact if_neg (hctl hi)
  · exact if_neg (hctl hi)
  · exact if_neg (hctl hi)
  · exact if_neg (hchan hi)
  · exact if_neg (hchan hi)
  · exact if_neg (hchan hi)
  · exact if_neg (hchan hi)
  · exact if_neg (hqueue hi)
  · exact if_neg (hqueue hi)
  · exact if_neg (hqueue hi)
  · rfl

/-- The orders on a link are those of its ENABLE. -/
theorem State.linkOrder_spec {s : State} {d l : Nat} (hl : s.linkThere d l = true) :
    s.linkOrder d l 0 = (s.wr (LINK_CFG_ENABLE d l) 0).linkOff d l ∧ s.linkOrder d l 1 = s ∧
      s.linkOrder d l 2 = (((s.wr (LINK_CFG_ENABLE d l) 0).linkOff d l).wr (LINK_CFG_ENABLE d l) 1).retrain d l 4 ∧
      s.linkOrder d l 3 = (s.wr (LINK_CFG_ENABLE d l) 1).retrain d l 4 := by
  simp [State.linkOrder, hl]

/-- A block that is repaired joins the scrub log by as many granules as were named. -/
theorem State.blockRepaired_of_shardAt {s : State} {d shard a : Nat} (ha : s.shardAt d shard = some a) (block n : Nat) :
    s.blockRepaired d shard block n = ((repairedGranules s.fresh n).foldl (fun s g => s.scrub d ((a + block * 65536) / 256 + g)) s).used 256 := by
  unfold State.blockRepaired
  rw [ha]

/-- Settles O29: MG.EVENT raises the event that it names, and MG.FENCE gives the order that the word codes to the unit that it names. -/
theorem managementRaisesEventsAndGivesOrders : Obligations.ManagementRaisesEventsAndGivesOrders := by
  unfold Obligations.ManagementRaisesEventsAndGivesOrders
  refine ⟨?event, ?repaired, ?fence, fun s d c => s.parkCore_spec d c⟩
  case event =>
    intro s h a hi hctl hl hlisted w hw
    have hexec := exec_mgEvent hi hctl hl hlisted hw rfl
    refine ⟨_, _, rfl, hexec, ?_, fun h150 => ?_, fun h150 => ?_⟩
    · rw [State.retire_pc]
    · rw [if_neg h150]
      exact OnlyPc.retire ..
    · have hlt := w.isLt
      have hblock : field w.toNat 32 16 = w.toNat / 2 ^ 32 % 65536 := by rw [field, Nat.shiftRight_eq_div_pow, show (2 : Nat) ^ 16 = 65536 by decide]
      have hcount : field w.toNat 48 16 = w.toNat / 2 ^ 48 := by rw [field, Nat.shiftRight_eq_div_pow]; exact Nat.mod_eq_of_lt (by omega)
      have hshard : field w.toNat 0 32 = w.toNat % 2 ^ 32 := rfl
      rw [if_pos h150, hshard, hblock, hcount]
      exact OnlyPc.retire ..
  case repaired =>
    intro s d shard block n
    refine ⟨fun hs => ?_, fun a ha hn => ?_⟩
    · unfold State.blockRepaired
      rw [hs]
    · obtain ⟨hlen, hnodup, hlt⟩ := repairedGranules_spec s.fresh hn
      exact ⟨_, hlen, hnodup, hlt, State.blockRepaired_of_shardAt ha block n⟩
  case fence =>
    intro s h a hi hctl hl w kind i e hw hk hiw he
    have hlegal := fenceLegal_iff (s.sreg h.die h.seq a.sa)
    have hfields := fenceOrder_fields (s.sreg h.die h.seq a.sa)
    rw [← hw] at hlegal hfields
    rw [← hk] at hlegal
    rw [← hk, ← hiw, ← he] at hfields
    refine ⟨fun hbad => exec_mgFence_of_reserved hi hctl hl (Bool.eq_false_iff.2 fun hg => ?_), fun hk6 hlow hhigh hnot => ?_⟩
    · obtain ⟨h1, h2, h3, h4⟩ := hlegal.1 hg
      rcases hbad with hb | hb | hb | hb
      · omega
      · exact hb h2
      · exact hb h3
      · exact h4 hb
    have hexec := exec_mgFence_of_legal hi hctl hl (hlegal.2 ⟨hk6, hlow, hhigh, hnot⟩) hfields.symm
    dsimp only at hexec
    have hordered : s.dieUp e = true → s.routeOk h.die e = true → ∀ u, s.fenceOrdered ⟨w % 4, kind, i, e⟩ = u →
        exec (.mgFence h a) s = .next (u.retire h.die h.seq ((s.core h.die h.seq).pc + 8)) := fun hu hr u heq => by
      rw [hexec, if_pos ⟨hu, hr⟩, heq]
    refine ⟨fun hno => ⟨_, hexec, ?_, State.retire_pc ..⟩, fun hu hr u hrow => ⟨_, hordered hu hr u (State.fenceOrdered_of_row hu hrow), OnlyPc.retire .., State.retire_pc ..⟩,
      fun hu hr h4 hthere => ⟨_, hordered hu hr _ rfl, State.retire_pc .., ?_⟩, fun hu hr h5 p hp => ⟨_, _, hordered hu hr _ rfl, OnlyPc.retire .., State.retire_pc .., ?_⟩⟩
    · rw [if_neg fun hup => hno.elim (fun h => by rw [h] at hup; exact nomatch hup.1) (fun h => by rw [h] at hup; exact nomatch hup.2)]
      exact OnlyPc.retire ..
    · have hlink : s.fenceOrdered ⟨w % 4, kind, i, e⟩ = s.linkOrder e i (w % 4) := by rw [h4]; rfl
      obtain ⟨h0, h1, h2, h3⟩ := State.linkOrder_spec hthere
      rw [hlink]
      refine ⟨fun ho => ?_, fun ho => ?_, fun ho => ?_, fun ho => ?_⟩
      · rw [ho, h0]
        exact OnlyPc.retire ..
      · rw [ho, h1]
        exact OnlyPc.retire ..
      · rw [ho, h2]
        exact OnlyPc.retire ..
      · rw [ho, h3]
        exact OnlyPc.retire ..
    · have hport : s.fenceOrdered ⟨w % 4, kind, i, e⟩ = s.portOrder e i (w % 4) := by rw [h5]; rfl
      exact s.portOrder_spec hp hport

end Sys2Proof.Machine
end

section
/-! SUPPORT. The idle cycle (log entry 1), and the values that reset gives the registers (R13, R505). -/

namespace Sys2Proof.Machine

/-- Settles O53: the command at the front of the queue is executed, and an idle cycle is a pass of one cycle. -/
theorem stepRunsTheCommandAtTheFront : Obligations.StepRunsTheCommandAtTheFront := by
  unfold Obligations.StepRunsTheCommandAtTheFront
  refine ⟨fun c r s => rfl, fun s hempty => ⟨s.passTo (s.frame.cycle + 1), ?_, ?_⟩⟩
  · have hidle : s.idle = s.passTo (s.frame.cycle + 1) := by rw [State.passTo, Nat.add_sub_cancel_left]; rfl
    rw [step, hempty, ← hidle]
  · obtain ⟨⟨hrest, hdies, hcycle, htime, hregs, hmem⟩, -⟩ := s.passTo_passes (s.frame.cycle + 1)
    rw [Nat.add_sub_cancel_left] at htime
    exact ⟨by omega, htime, hrest, hdies, hregs, hmem⟩

/-- The sum of the Reset column of a list of fields. -/
def columnSum (l : List FSpec) : Nat := (l.map (fun f => f.rst <<< f.lo)).sum

theorem RegId.column_eq (r : RegId) : r.column = columnSum r.fields := (List.sum_eq_foldl).symm

/-- A Reset value fits its field. -/
theorem RegId.rst_lt {r : RegId} {f : FSpec} (hf : f ∈ r.fields) : f.rst < 2 ^ f.width := by
  have hall : (r.fields.all fun f => decide (f.rst < 2 ^ f.width)) = true := by
    cases r with
    | DEPOT_REGION d k => by_cases hk : k = 0 <;> simp [RegId.fields, hk]
    | _ => rfl
  exact of_decide_eq_true (List.all_eq_true.1 hall f hf)

/-- A field joins the sum as a field written to it, where the sum is 0 so far. -/
theorem columnSum_cons {f : FSpec} {l : List FSpec} (hzero : field (columnSum l) f.lo f.width = 0) (hlt : f.rst < 2 ^ f.width) :
    columnSum (f :: l) = putField (columnSum l) f.lo f.width f.rst := by
  rw [putField, hzero, Nat.mod_eq_of_lt hlt, Nat.zero_shiftLeft, Nat.sub_zero, columnSum, List.map_cons, List.sum_cons, Nat.add_comm]
  rfl

/-- The sum of the Reset column of fields that share no bit: it holds each field's value, is 0 in every other field, and is a word. -/
theorem columnSum_spec {l : List FSpec} (hok : Machine.fieldsOk l = true) (hlt : ∀ f ∈ l, f.rst < 2 ^ f.width) :
    (∀ f ∈ l, field (columnSum l) f.lo f.width = f.rst) ∧ (∀ g : FSpec, (∀ f ∈ l, f.apart g) → field (columnSum l) g.lo g.width = 0) ∧ columnSum l < 2 ^ 64 := by
  induction l with
  | nil => exact ⟨fun f hf => (List.not_mem_nil hf).elim, fun g _ => by simp [columnSum, field], by decide⟩
  | cons f t ih =>
    have hle : f.lo + f.width ≤ 64 := fieldsOk_le hok List.mem_cons_self
    simp only [Machine.fieldsOk, Bool.and_eq_true, decide_eq_true_eq, List.all_eq_true, Bool.or_eq_true] at hok
    obtain ⟨⟨-, hapart⟩, htail⟩ := hok
    obtain ⟨hvalue, hzero, hword⟩ := ih htail fun g hg => hlt g (List.mem_cons_of_mem _ hg)
    have hother : ∀ g : FSpec, f.apart g → field (putField (columnSum t) f.lo f.width f.rst) g.lo g.width = field (columnSum t) g.lo g.width := fun g hg =>
      hg.elim field_putField_high field_putField_low
    rw [columnSum_cons (hzero f fun g hg => (hapart g hg).symm) (hlt f List.mem_cons_self)]
    refine ⟨fun g hg => ?_, fun g hg => ?_, putField_lt hword hle⟩
    · rcases List.mem_cons.1 hg with rfl | hg
      · rw [field_putField_same, Nat.mod_eq_of_lt (hlt _ List.mem_cons_self)]
      · rw [hother g (hapart g hg), hvalue g hg]
    · rw [hother g (hg f List.mem_cons_self), hzero g fun x hx => hg x (List.mem_cons_of_mem _ hx)]

/-- A field of a register is found in the sum of the Reset column. -/
theorem RegId.field_column {r : RegId} {f : FSpec} (hf : f ∈ r.fields) : field (BitVec.ofNat 64 r.column).toNat f.lo f.width = f.rst % 2 ^ f.width := by
  obtain ⟨hvalue, -, hlt⟩ := columnSum_spec r.fieldsOk fun _ h => RegId.rst_lt h
  rw [BitVec.toNat_ofNat, r.column_eq, Nat.mod_eq_of_lt hlt, hvalue f hf, Nat.mod_eq_of_lt (RegId.rst_lt hf)]

theorem RegId.resetWord_of_column {r : RegId} (hrule : ∀ k, r ≠ .LAMP_RULE k) (hctl : ∀ k, r ≠ .LAMP_RULE_CTL k) (f : Fuses) : r.resetWord f = BitVec.ofNat 64 r.column := by
  unfold RegId.resetWord
  split
  · exact absurd rfl (hrule _)
  · exact absurd rfl (hctl _)
  · rfl

/-- A factory rule is enabled, the others are not, and none has tripped (R486, R488). -/
theorem factoryCtl_fields (r : Nat) : field (BitVec.ofNat 64 (factoryCtl r)).toNat 0 1 = (if r < 20 then 1 else 0) ∧ field (BitVec.ofNat 64 (factoryCtl r)).toNat 32 1 = 0 := by
  unfold factoryCtl
  by_cases h8 : r < 8
  · rw [if_pos h8, if_pos (by omega)]
    decide
  by_cases h16 : r < 16
  · rw [if_neg h8, if_pos h16, if_pos (by omega)]
    decide
  by_cases h20 : r < 20
  · rw [if_neg h8, if_neg h16, if_pos h20, if_pos h20]
    decide
  · rw [if_neg h8, if_neg h16, if_neg h20, if_neg h20]
    decide

/-- Settles O55: nothing is stored in the state of reset, so that every register reads the sum of its Reset column, and a Lamp rule its factory value. -/
theorem resetIsAsTheRegistersSay : Obligations.ResetIsAsTheRegistersSay := by
  unfold Obligations.ResetIsAsTheRegistersSay
  have hword : ∀ r, State.reset.word r = r.resetWord State.reset.fuses := fun r => rfl
  have hfield : ∀ r f, f ∈ r.fields → (∀ k, r ≠ .LAMP_RULE k) → (∀ k, r ≠ .LAMP_RULE_CTL k) → State.reset.rd ⟨r, f.lo, f.width⟩ = f.rst % 2 ^ f.width :=
    fun r f hf h1 h2 => by rw [State.rd, hword, RegId.resetWord_of_column h1 h2, RegId.field_column hf]
  have hcfg : ∀ d l, ∀ f ∈ (RegId.LINK_CFG d l).fields, State.reset.rd ⟨.LINK_CFG d l, f.lo, f.width⟩ = f.rst % 2 ^ f.width := fun d l f hf =>
    hfield _ f hf (fun _ h => nomatch h) (fun _ h => nomatch h)
  refine ⟨rfl, rfl, fun a => rfl, hword, hfield, rfl, rfl, rfl, rfl, rfl, rfl, rfl, rfl, rfl, rfl, rfl, fun d l => ⟨hfield (.LINK_STATUS d l) ⟨5, 3, .ro, 0, .none⟩ (.tail _ (.tail _ (.head _))) (fun _ h => nomatch h) (fun _ h => nomatch h), hcfg d l _ (.head _), hcfg d l _ (.tail _ (.head _))⟩, fun r => (factoryCtl_fields r).1, fun r => (factoryCtl_fields r).2⟩

end Sys2Proof.Machine
end

section
/-! SUPPORT. Memories that become ready: LPDDR6 channels that retrain (R302, R305), scratchpad blocks (R291) and Depot regions (R298). -/

namespace Sys2Proof.Machine

/-- A channel that retrains is counted, and its FAILED stands. -/
theorem State.retrainCounted_spec (s : State) (d ch : Nat) {u : State} (hu : u = s.count (LPDDR_CH_STATUS_RETRAIN d ch) 1) :
    u.rd (LPDDR_CH_STATUS_RETRAIN d ch) = min (s.rd (LPDDR_CH_STATUS_RETRAIN d ch) + 1) 255 ∧ u.rd (LPDDR_CH_STATUS_FAILED d ch) = s.rd (LPDDR_CH_STATUS_FAILED d ch) ∧
      u = { s with regs := u.regs } ∧ ∀ r, r ≠ .LPDDR_CH_STATUS d ch → u.word r = s.word r := by
  subst hu
  exact ⟨s.rd_count_same _ _ fle, State.rd_wr_other _ _ _ _ fle fun _ => .inr fle, rfl, fun r hr => State.word_count_ne _ _ hr.symm⟩

theorem readyBits_testBit (p : BitVec 24) {off : Nat} (hoff : off < 2 ^ 24) {i : Nat} (hi : i < 24) : (p.toNat &&& (2 ^ 24 - 1 - off)).testBit i = (p.getLsbD i && !off.testBit i) := by
  rw [Nat.testBit_and, Nat.sub_sub, Nat.add_comm 1 off, Nat.testBit_two_pow_sub_succ hoff, decide_eq_true hi, Bool.true_and]
  rfl

/-- Whether a line that a change of regions writes back has still to reach LPDDR6. -/
theorem Die.backing_iff (x : Die) : x.backing = true ↔ ∃ m ∈ x.reqs ++ x.tagWait, m.req = 426 ∧ m.addr / 256 ∈ x.wback := by
  simp only [Die.backing, List.any_eq_true, Bool.and_eq_true, decide_eq_true_eq, List.contains_iff_mem]

theorem exec_periodicTracking_of_retrain {s : State} {d ch : Nat} (hup : s.dieUp d = true) (hch : ch < 16) (fail : Bool) :
    exec (.periodicTracking d ch true fail) s = .next (if fail then ((s.count (LPDDR_CH_STATUS_RETRAIN d ch) 1).wr (LPDDR_CH_STATUS_FAILED d ch) 1).raise (mkEv 118 d 0xFF 20 ch [(2, ch)])
      else s.count (LPDDR_CH_STATUS_RETRAIN d ch) 1) := by
  show execPeriodicTracking d ch true fail s = _
  unfold execPeriodicTracking
  rw [if_neg fun h => h.elim (fun h => by rw [hup] at h; exact nomatch h) (Nat.not_le.2 hch), if_pos rfl]
  cases fail with
  | false => rw [if_neg (fun h => nomatch h.2), if_neg nofun]
  | true => rw [if_pos ⟨rfl, rfl⟩, if_pos rfl]

/-- Settles O44: the count of a channel and the bits of the blocks and regions are the registers' own fields. -/
theorem memoriesBecomeReady : Obligations.MemoriesBecomeReady := by
  unfold Obligations.MemoriesBecomeReady
  refine ⟨fun s d ch retrain fail => ⟨fun hno => ?_, fun hup hch hre => ?_⟩, fun s d c => ⟨fun hno => ?_, fun hc => ?_⟩, fun s d => ⟨fun hno => ?_, fun hre hback => ?_⟩⟩
  · show execPeriodicTracking d ch retrain fail s = _
    unfold execPeriodicTracking
    split
    · rfl
    · next hup =>
      have hre : retrain = false := by tauto
      subst hre
      rfl
  · subst hre
    obtain ⟨hcount, hfailed, hrest, hregs⟩ := s.retrainCounted_spec d ch rfl
    rw [exec_periodicTracking_of_retrain hup hch]
    generalize s.count (LPDDR_CH_STATUS_RETRAIN d ch) 1 = v at *
    cases fail with
    | false => exact ⟨v, hcount, hrest, hregs, hfailed, by simp only [Bool.false_eq_true, if_false]⟩
    | true =>
      refine ⟨v.wr (LPDDR_CH_STATUS_FAILED d ch) 1, ?_, ?_, fun r hr => (State.word_wr_ne _ _ hr.symm).trans (hregs r hr), State.rd_wr_same _ _ _ fle, by simp only [if_true]⟩
      · rw [State.rd_wr_other _ _ _ _ fle fun _ => .inl fle, hcount]
      · rw [hrest]
        rfl
  · show execSpadBlockReady d c s = _
    unfold execSpadBlockReady
    rw [if_neg (by rw [hno]; decide)]
  · refine ⟨_, if_pos hc, State.core_modCore_same s d c fun x => { x with powering := 0 }, fun i hi => ?_, fun r hr => State.word_wr_ne _ _ hr.symm, rfl⟩
    have hready : ∀ v, ((s.modCore d c fun x => { x with powering := 0 }).wr (SPAD_PWR_READY d c) v).rd (SPAD_PWR_READY d c) = v % 2 ^ 24 := fun v => State.rd_wr_same _ _ _ fle
    rw [hready, Nat.testBit_mod_two_pow, decide_eq_true hi, Bool.true_and, Nat.testBit_or, readyBits_testBit _ (s.rd_lt _) hi]
  · show execDepotRepartDone d s = _
    unfold execDepotRepartDone
    refine if_neg fun ⟨hflag, hb⟩ => ?_
    rcases hno with h0 | h
    · rw [flag_false _ _ h0] at hflag
      exact nomatch hflag
    · rw [(s.die d).backing_iff.2 h] at hb
      exact nomatch hb
  · have hnot : (s.die d).backing = false := Bool.eq_false_iff.2 fun h => by
      obtain ⟨m, hm, h426, hw⟩ := (s.die d).backing_iff.1 h
      exact hback m hm h426 hw
    refine ⟨_, if_pos ⟨flag_one hre, hnot⟩, ?_, State.die_modDie_same .., fun e he => State.die_modDie_ne _ _ he.symm, fun r hr => ?_, rfl⟩
    · exact State.rd_wr_same s _ _ fle
    · exact State.word_wr_ne _ _ hr.symm

end Sys2Proof.Machine
end

section
/-! SUPPORT. The validation of a staged Timetable (R65). -/

namespace Sys2Proof.Machine

theorem State.timetable_congr {s u : State} (hb : ∀ a, u.byteAt a = s.byteAt a) (a : Nat) : u.timetable a = s.timetable a := by
  unfold State.timetable State.natAt
  simp only [State.bytesAt_congr hb]

theorem ite_some_eq_none {α : Type} {p : Prop} [Decidable p] {x : α} {r : Option α} : (if p then some x else r) = none ↔ ¬ p ∧ r = none := by
  split <;> simp [*]

/-- What the checks of R65 have found of a Timetable that passes them all. -/
theorem State.ttFail_none {s : State} {d : Nat} (h : s.ttFail d = none) {t : TT} (ht : t = s.timetable (stagingBuf d)) :
    ¬ (t.format = 0 ∨ t.format ≠ field (s.rd MODULE_VERSIONS_V) 24 8) ∧
    ¬ (t.length ≤ 65536 ∧ crc32c ((s.bytesAt (stagingBuf d) t.length).take 16 ++ leBytes 4 0 ++ (s.bytesAt (stagingBuf d) t.length).drop 20) ≠ t.crc) ∧
    t.id = (s.rd (TT_CTRL_ACTIVE_ID d) + 1) % 2 ^ 32 ∧
    (t.nWork ≤ 768 ∧ t.nSlot ≤ 1024 ∧ t.nStream ≤ 416 ∧ t.rsv = 0 ∧ (t.nextLen = 0 ∨ (64 ≤ t.nextLen ∧ t.nextLen ≤ 16384))) ∧
    (∀ e ∈ t.work, e.ranged = true ∧ s.coreExists d e.core = true ∧ e.item ≤ 7) ∧ ∀ e ∈ t.streams, s.chanExists d e.chan = true := by
  subst ht
  unfold State.ttFail at h
  simp only [ite_some_eq_none, not_not] at h
  obtain ⟨h1, h2, h3, h4, h5, h6, -⟩ := h
  rw [not_or, not_not, Bool.not_eq_false, Bool.and_eq_true, Bool.and_eq_true, List.all_eq_true] at h4
  rw [Bool.not_eq_false, Bool.and_eq_true, List.all_eq_true] at h5
  rw [Bool.not_eq_false, List.all_eq_true] at h6
  refine ⟨h1, h2, h3, h4.1, fun e he => ⟨h4.2.1.1 e he, ?_⟩, h6⟩
  have := h5.1 e he
  rw [Bool.and_eq_true, decide_eq_true_eq] at this
  exact this

theorem WorkEntry.ranged_bounds {e : WorkEntry} (h : e.ranged = true) : e.flags < 2 ∧ e.entry % 8 = 0 ∧ 1 ≤ e.count := by
  simp only [WorkEntry.ranged, Bool.and_eq_true, decide_eq_true_eq] at h
  obtain ⟨⟨⟨⟨hflags, hentry⟩, hcount⟩, -⟩, -⟩ := h
  exact ⟨hflags, hentry, hcount⟩

/-- The registers after a check has failed. -/
theorem State.ttFailed_spec {u v : State} {d c : Nat} (hc : c ≤ 9) (hu : u = ((v.wr (TT_CTRL_INVALID d) 1).wr (TT_CTRL_READY d) 0).wr (TT_CTRL_FAIL_CODE d) c) :
    (∀ r, r ≠ .TT_CTRL d → u.word r = v.word r) ∧ (∀ a, u.byteAt a = v.byteAt a) ∧ u.rd (TT_CTRL_INVALID d) = 1 ∧ u.rd (TT_CTRL_READY d) = 0 ∧ u.rd (TT_CTRL_FAIL_CODE d) = c ∧
      u.rd (TT_CTRL_VALID d) = v.rd (TT_CTRL_VALID d) := by
  subst hu
  refine ⟨fun r hr => ?_, fun a => ?_, ?_, ?_, ?_, ?_⟩
  · rw [State.word_wr_ne _ _ hr.symm, State.word_wr_ne _ _ hr.symm, State.word_wr_ne _ _ hr.symm]
  · rw [State.byteAt_wr _ rfl, State.byteAt_wr _ rfl, State.byteAt_wr _ rfl]
  · rw [State.rd_wr_other _ _ _ _ fle fun _ => .inl fle, State.rd_wr_other _ _ _ _ fle fun _ => .inr fle, State.rd_wr_same _ _ _ fle]
    rfl
  · rw [State.rd_wr_other _ _ _ _ fle fun _ => .inl fle, State.rd_wr_same _ _ _ fle]
    rfl
  · rw [State.rd_wr_same _ _ _ fle]
    exact Nat.mod_eq_of_lt (Nat.lt_of_le_of_lt hc (show 9 < 2 ^ 8 by decide))
  · rw [State.rd_wr_other _ _ _ _ fle fun _ => .inl fle, State.rd_wr_other _ _ _ _ fle fun _ => .inr fle, State.rd_wr_other _ _ _ _ fle fun _ => .inl fle]

theorem exec_timetableValidated_of_validating {s : State} {d : Nat} (hv : (s.die d).validating = true) (hup : s.dieUp d = true) {v : State}
    (hw : v = s.modDie d fun x => { x with validating := false }) :
    (s.ttFail d = none → exec (.timetableValidated d) s = .next (v.wr (TT_CTRL_VALID d) 1)) ∧
    ∀ c u, s.ttFail d = some c → u = ((v.wr (TT_CTRL_INVALID d) 1).wr (TT_CTRL_READY d) 0).wr (TT_CTRL_FAIL_CODE d) c →
      exec (.timetableValidated d) s = .next (u.raise (mkEv 3 d 0xFF 17 0 [(4, (s.timetable (stagingBuf d)).id), (1, c)])) := by
  have hno : ¬ ((s.die d).validating = false ∨ s.dieUp d = false) := by rw [hv, hup]; simp
  have hfail : v.ttFail d = s.ttFail d := by subst hw; exact ttFail_congr (s := s) (u := s.modDie d fun x => { x with validating := false }) (fun _ => rfl) (fun _ => rfl) rfl rfl d
  have hexec : exec (.timetableValidated d) s = match v.ttFail d with
      | none => .next (v.wr (TT_CTRL_VALID d) 1)
      | some c => let u := ((v.wr (TT_CTRL_INVALID d) 1).wr (TT_CTRL_READY d) 0).wr (TT_CTRL_FAIL_CODE d) c
                  .next (u.raise (mkEv 3 d 0xFF 17 0 [(4, (u.timetable (stagingBuf d)).id), (1, c)])) := by
    subst hw
    exact if_neg hno
  rw [hfail] at hexec
  refine ⟨fun h => by rw [hexec, h], fun c u h hu => ?_⟩
  have htime : (u.timetable (stagingBuf d)).id = (s.timetable (stagingBuf d)).id := by
    rw [hu, hw]
    refine congrArg TT.id (State.timetable_congr (fun a => ?_) _)
    rw [State.byteAt_wr _ rfl, State.byteAt_wr _ rfl, State.byteAt_wr _ rfl, State.byteAt_modDie]
  rw [hexec, h]
  dsimp only
  rw [← hu, htime]

/-- Settles O35: each check of R65 that a valid Timetable has passed is read off in the order of the checks. -/
theorem validationEndsWithValidOrAFailCode : Obligations.ValidationEndsWithValidOrAFailCode := by
  unfold Obligations.ValidationEndsWithValidOrAFailCode
  refine fun s d => ⟨fun hno => if_pos hno, fun hv hup => ?_, fun t ht hfail => ?_⟩
  · obtain ⟨hvalid, hinvalid⟩ := exec_timetableValidated_of_validating hv hup rfl
    have hdie : ∀ e, e ≠ d → (s.modDie d fun x => { x with validating := false }).die e = s.die e := fun e he => State.die_modDie_ne _ _ he.symm
    have hown : (s.modDie d fun x => { x with validating := false }).die d = { s.die d with validating := false } := State.die_modDie_same ..
    have hrest : (s.modDie d fun x => { x with validating := false }) = { s with dies := (s.modDie d fun x => { x with validating := false }).dies } := rfl
    have hrd : ∀ f, (s.modDie d fun x => { x with validating := false }).rd f = s.rd f := fun f => rfl
    have hword : ∀ r, (s.modDie d fun x => { x with validating := false }).word r = s.word r := fun r => rfl
    have hmem : ∀ a, (s.modDie d fun x => { x with validating := false }).byteAt a = s.byteAt a := fun a => rfl
    generalize (s.modDie d fun x => { x with validating := false }) = v at *
    cases hf : s.ttFail d with
    | none =>
      refine ⟨v.wr (TT_CTRL_VALID d) 1, hown, hdie, wr_of_dies_only hrest _ _, fun r hr => (State.word_wr_ne _ _ hr.symm).trans (hword r), fun a => (State.byteAt_wr v rfl 1 a).trans (hmem a),
        fun _ => ⟨hvalid hf, State.rd_wr_same _ _ _ fle, ?_, ?_⟩, nofun⟩
      · rw [State.rd_wr_other _ _ _ _ fle fun _ => .inr fle, hrd]
      · rw [State.rd_wr_other _ _ _ _ fle fun _ => .inl fle, hrd]
    | some c =>
      obtain ⟨hc1, hc9⟩ := ttFail_range hf
      have hu3 := wr3_of_dies_only hrest (TT_CTRL_INVALID d) (TT_CTRL_READY d) (TT_CTRL_FAIL_CODE d) 1 0 c
      generalize hu : ((v.wr (TT_CTRL_INVALID d) 1).wr (TT_CTRL_READY d) 0).wr (TT_CTRL_FAIL_CODE d) c = u at hu3
      obtain ⟨hregs, hbytes, hinv, hready, hcode, hval⟩ := State.ttFailed_spec hc9 hu.symm
      have hdies : ∀ e, u.die e = v.die e := fun e => by rw [← hu]; rfl
      refine ⟨u, (hdies d).trans hown, fun e he => (hdies e).trans (hdie e he), hu3, fun r hr => (hregs r hr).trans (hword r), fun a => (hbytes a).trans (hmem a), nofun, fun b hb => ?_⟩
      obtain rfl := Option.some.inj hb
      exact ⟨hinvalid c u hf hu.symm, hc1, hc9, hinv, hready, hcode, hval.trans (hrd _)⟩
  · obtain ⟨h1, h2, h3, ⟨hw, hs, hm, hr, hl⟩, hwork, hstreams⟩ := State.ttFail_none hfail ht
    refine ⟨fun h0 => h1 (.inl h0), not_not.1 fun hne => h1 (.inr hne), h3, hw, hs, hm, hr, hl, fun hle => not_not.1 fun hne => h2 ⟨hle, hne⟩, fun e he => ?_, hstreams⟩
    obtain ⟨hranged, hcore, hitem⟩ := hwork e he
    obtain ⟨hflags, hentry, hcount⟩ := WorkEntry.ranged_bounds hranged
    exact ⟨hflags, hentry, hcount, hcore, hitem⟩

end Sys2Proof.Machine
end

section
/-! SUPPORT. Starting the head of a unit's queue (R90, R107, R109, R126, R128). -/

namespace Sys2Proof.Machine

/-- An entry that a search of a table finds is in the table. -/
theorem mem_of_tabGet_ne {α : Type} {t : Tab α} {k : Nat} {x dflt : α} (h : tabGet t k dflt = x) (hne : x ≠ dflt) : (k, x) ∈ t := by
  induction t with
  | nil => exact absurd h.symm hne
  | cons e t ih =>
    rw [tabGet] at h
    split at h
    · next hk =>
      obtain ⟨a, b⟩ := e
      subst h hk
      exact List.mem_cons_self
    · exact List.mem_cons_of_mem _ (ih h)

/-- A unit waits while the head of a unit before it is ready (R109). -/
theorem canStart_of_earlier {s : State} {d q unit u : Nat} {e y : QEntry} {r : List QEntry} (hu : u < unit) (hq : (s.core d q).queue u = y :: r)
    (hy : s.headReady d q u y = true) : s.canStart d q unit e = false := by
  have hmem : (u, y :: r) ∈ (s.core d q).queues := mem_of_tabGet_ne hq (List.cons_ne_nil _ _)
  unfold State.canStart
  rw [Bool.and_eq_false_iff, Bool.not_eq_false']
  exact .inr (List.any_eq_true.2 ⟨_, hmem, (Bool.and_eq_true ..).mpr ⟨decide_eq_true hu, hy⟩⟩)

/-- What a unit gives back: the tokens of its wait list. -/
theorem State.giveBack_semv (w : State) (d q : Nat) (wait : Word) (m : Nat) : (w.modCore d q fun c => c.giveBack wait).semv d q m = w.semv d q m + slotSum wait m := by
  rw [State.semv, State.core_modCore_same, Core.giveBack, foldl_untake_sem, (waitNeed_sum wait m).1]
  rfl

section Start

variable {s : State} {d q unit par : Nat} {e : QEntry} {rest : List QEntry} (hq : (s.core d q).queue unit = e :: rest)
include hq

theorem exec_instrStart_of_waiting (hc : s.canStart d q unit e = false) : exec (.instrStart d q unit par) s = .next s := by
  show execInstrStart d q unit par s = _
  unfold execInstrStart
  rw [hq]
  exact if_pos hc

variable (hc : s.canStart d q unit e = true) {v w : State} (hv : v = (s.modCore d q (fun c => c.takeAll e.wait)).popQueue d q unit) (hw : w = (v.unitReplays d q unit 0 par).1)
include hc hv

/-- What starting the head comes to, once its tokens are taken. -/
theorem exec_instrStart_of_canStart : exec (.instrStart d q unit par) s =
    if e.op = .drayGo then
      match v.goAt d q e with
      | .error f => .next (v.unitFault d q unit e f)
      | .ok a =>
        if (v.unitReplays d q unit 0 par).2 then
          .next ((v.unitReplays d q unit 0 par).1.accept d (unitChan q unit) q e.item ((List.range 8).map (fun i => BitVec.ofNat 64 (v.natAt (a + 8 * i) 8))) e.post e.late)
        else .next (((v.unitReplays d q unit 0 par).1.modCore d q (fun c => c.giveBack e.wait)).exhausted d q (unitCode q unit) e.pc)
    else
      match v.startPlan d q e with
      | .error f => .next (v.unitFault d q unit e f)
      | .ok p =>
        if (v.unitReplays d q unit 0 par).2 then
          .next (((v.unitReplays d q unit 0 par).1.beginRun d q unit e p par (((s.core d q).borrowFor e).getD [])).orderChan d (unitChan q unit) e.op)
        else .next (((v.unitReplays d q unit 0 par).1.modCore d q (fun c => c.giveBack e.wait)).exhausted d q (unitCode q unit) e.pc) := by
  subst hv
  show execInstrStart d q unit par s = _
  unfold execInstrStart
  rw [hq]
  exact if_neg (by rw [hc]; decide)

/-- A start that faults gives its tokens back and writes nothing. -/
theorem exec_instrStart_of_error {f : UFault} (hf : (e.op = .drayGo ∧ v.goAt d q e = .error f) ∨ (e.op ≠ .drayGo ∧ v.startPlan d q e = .error f)) :
    exec (.instrStart d q unit par) s = .next (v.unitFault d q unit e f) := by
  rw [exec_instrStart_of_canStart hq hc hv]
  rcases hf with ⟨hgo, hf⟩ | ⟨hgo, hf⟩
  · rw [if_pos hgo, hf]
  · rw [if_neg hgo, hf]

include hw

theorem exec_instrStart_of_go {a : Nat} (hpar : par ≤ v.replayMax d q) (hgo : e.op = .drayGo) (ha : v.goAt d q e = .ok a) : exec (.instrStart d q unit par) s =
    .next (w.accept d (unitChan q unit) q e.item ((List.range 8).map (fun i => BitVec.ofNat 64 (v.natAt (a + 8 * i) 8))) e.post e.late) := by
  subst hw
  obtain ⟨x, hx⟩ := unitReplays_spec v d q unit 0 par
  rw [exec_instrStart_of_canStart hq hc hv, if_pos hgo, ha]
  exact if_pos (by rw [hx]; exact decide_eq_true (by omega))

theorem exec_instrStart_of_plan {p : Plan} (hpar : par ≤ v.replayMax d q) (hgo : e.op ≠ .drayGo) (hp : v.startPlan d q e = .ok p) : exec (.instrStart d q unit par) s =
    .next ((w.beginRun d q unit e p par (((s.core d q).borrowFor e).getD [])).orderChan d (unitChan q unit) e.op) := by
  subst hw
  obtain ⟨x, hx⟩ := unitReplays_spec v d q unit 0 par
  rw [exec_instrStart_of_canStart hq hc hv, if_neg hgo, hp]
  exact if_pos (by rw [hx]; exact decide_eq_true (by omega))

theorem exec_instrStart_of_exhausted (hpar : v.replayMax d q < par) (hok : (e.op = .drayGo ∧ ∃ a, v.goAt d q e = .ok a) ∨ (e.op ≠ .drayGo ∧ ∃ p, v.startPlan d q e = .ok p)) :
    exec (.instrStart d q unit par) s = .next ((w.modCore d q (fun c => c.giveBack e.wait)).exhausted d q (unitCode q unit) e.pc) := by
  subst hw
  obtain ⟨x, hx⟩ := unitReplays_spec v d q unit 0 par
  have hno : ¬ (v.unitReplays d q unit 0 par).2 = true := by rw [hx, decide_eq_true_eq]; omega
  rw [exec_instrStart_of_canStart hq hc hv]
  rcases hok with ⟨hgo, a, ha⟩ | ⟨hgo, p, hp⟩
  · rw [if_pos hgo, ha]
    exact if_neg hno
  · rw [if_neg hgo, hp]
    exact if_neg hno

end Start

/-- A fault of a started instruction is a program fault, taken once the tokens are back. -/
theorem State.unitFault_faulted (v : State) (d q unit : Nat) (e : QEntry) (f : UFault) (hcode : unitCode q unit ≠ 15) :
    Faulted d q f.num (unitCode q unit) e.pc ((v.modCore d q fun c => c.giveBack e.wait).used 1) (v.unitFault d q unit e f) := by
  have hfault := ((v.modCore d q fun c => c.giveBack e.wait).used 1).programFault_faulted d q f.num (unitCode q unit) e.pc (v.faultItems f) hcode
  unfold State.unitFault
  dsimp only
  split
  · exact faulted_modCore hfault _
  · exact hfault

theorem unitCode_ne {q unit : Nat} (h : isCtl q = false → unit < 10) : unitCode q unit ≠ 15 := by
  unfold unitCode
  split
  · decide
  · next hq => have := h (Bool.eq_false_iff.2 hq); omega

/-- Settles O30: the outcomes of a start, by whether the head can start, faults, and meets more parity errors than REPLAY_MAX. -/
theorem unitsStartTheirHead : Obligations.UnitsStartTheirHead := by
  unfold Obligations.UnitsStartTheirHead
  intro s d q unit par
  refine ⟨fun hempty => ?_, fun e rest hq => ⟨?_, fun hbusy => exec_instrStart_of_waiting hq (canStart_busy hbusy), ?_, fun hc => ?_⟩⟩
  · show execInstrStart d q unit par s = _
    unfold execInstrStart
    rw [hempty]
  · rintro ⟨m, hm⟩
    exact exec_instrStart_of_waiting hq (canStart_short hm)
  · rintro ⟨u, y, r, hu, hy, hready⟩
    exact exec_instrStart_of_waiting hq (canStart_of_earlier hu hy hready)
  · refine ⟨_, started_of_take s d q unit e, fun w hw => ?_⟩
    have hsem := (started_of_take s d q unit e).sem
    generalize hv : (s.modCore d q (fun c => c.takeAll e.wait)).popQueue d q unit = v at *
    obtain ⟨a, hreplays⟩ := unitReplays_spec v d q unit 0 par
    refine ⟨fun h0 => ?_, ⟨a, by rw [hw, hreplays]; rfl⟩, fun hpar hgo a ha => exec_instrStart_of_go hq hc hv.symm hw hpar hgo ha, fun hpar hgo p hp => ?_,
      fun hpar hok => ⟨_, fun m => State.giveBack_semv w d q e.wait m, rfl, exec_instrStart_of_exhausted hq hc hv.symm hw hpar hok⟩, fun f hf hunit => ?_⟩
    · rw [hw, h0, unitReplays_zero]
    · obtain ⟨u, hruns, hu⟩ := beginRun_spec w d q unit e p par (((s.core d q).borrowFor e).getD [])
      exact ⟨u, hruns, by rw [exec_instrStart_of_plan hq hc hv.symm hw hpar hgo hp, hu]⟩
    · refine ⟨_, _, exec_instrStart_of_error hq hc hv.symm hf, fun m => ?_, rfl, v.unitFault_faulted d q unit e f (unitCode_ne hunit)⟩
      have hcover := canStart_sem hc m
      have hback := State.giveBack_semv v d q e.wait m
      rw [hsem m] at hback
      exact hback.trans (by omega)

end Sys2Proof.Machine
end

section
/-! SUPPORT. The completion of a started instruction, and how it settles its group (R108, R128, R145, R185, R188). -/

namespace Sys2Proof.Machine

theorem unitReplays_none (s : State) (d q unit had : Nat) : (s.unitReplays d q unit had 0).1 = s.used 1 := by
  unfold State.unitReplays
  simp [State.replays]

/-- The result that a completing instruction writes: its own, or one with free values where an operand was stored to meanwhile (R110). -/
theorem State.resultOf_spec (p : State) (d q : Nat) (run : Running) : (p.operandsChanged d q run = false → p.resultOf d q run = (p, run.res)) ∧
    (p.operandsChanged d q run = true → p.resultOf d q run = (p.used run.res.writes.length, p.freeResult run.res)) :=
  ⟨fun h => if_neg (by rw [h]; decide), fun h => if_pos h⟩

/-- The bytes that a completing instruction writes. -/
theorem State.resultOf_written (p : State) (d q : Nat) (run : Running) {u : State} (hu : u = (p.resultOf d q run).1.applyWrites d q (p.resultOf d q run).2.writes) :
    Written d q (p.resultOf d q run).2.writes p u ∧ u = { p with mem := u.mem, undef := u.undef, fresh := u.fresh } := by
  obtain ⟨hrest, hwritten⟩ := applyWrites_spec d q (p.resultOf d q run).2.writes (p.resultOf d q run).1
  obtain ⟨hown, hfree⟩ := p.resultOf_spec d q run
  rw [← hu] at hrest hwritten
  cases hc : p.operandsChanged d q run with
  | false =>
    rw [hown hc] at hrest hwritten ⊢
    dsimp only at hrest hwritten ⊢
    have hfresh := congrArg State.fresh hrest
    dsimp only at hfresh
    exact ⟨hwritten, by rw [hfresh]; exact hrest⟩
  | true =>
    rw [hfree hc] at hrest hwritten ⊢
    dsimp only at hrest hwritten ⊢
    have hfresh := congrArg State.fresh hrest
    dsimp only at hfresh
    exact ⟨⟨fun a b o x hw hl => hwritten.last a b o x hw hl, fun y hy => hwritten.frame y hy⟩, by rw [hfresh]; exact hrest⟩

/-- OVF of a group once an instruction has completed in it. -/
theorem State.ovfSet_spec (s : State) (d c g : Nat) (ovf : Bool) {v : State} (hv : v = if ovf then s.setAccBit (ACC_STATUS_OVF d c) g else s) :
    v = { s with regs := v.regs } ∧ v.rd (ACC_STATUS_OVF d c) = (if ovf then s.rd (ACC_STATUS_OVF d c) ||| 2 ^ g else s.rd (ACC_STATUS_OVF d c)) % 256 := by
  subst hv
  cases ovf with
  | false => exact ⟨rfl, (Nat.mod_eq_of_lt (s.rd_lt (ACC_STATUS_OVF d c))).symm⟩
  | true => exact ⟨rfl, s.rd_wr_same _ _ fle⟩

/-- A group that an instruction leaves open, with the tile of the instruction. -/
def Group.keeping (x : Group) (g : GroupEnd) : Group :=
  { x with ovf := x.ovf || g.ovf, held := g.held.toList ++ x.held.filter (fun t => decide (some t ≠ g.held)) }

/-- How a group that is open is settled: it closes with its event, or it holds the instruction's tile with the others. -/
theorem State.endGroup_of_open (s : State) (d c unit : Nat) (g : GroupEnd) {x : Group} (hx : x = tabGet (s.core d c).groups g.g groupReset) (ho : x.isOpen = true)
    {v : State} (hv : v = if x.ovf || g.ovf then s.setAccBit (ACC_STATUS_OVF d c) g.g else s) :
    s.endGroup d c unit g =
      if g.close then
        if (x.ovf || g.ovf) = true ∨ x.bx = true then
          (v.modCore d c (fun y => { y with groups := tabSet y.groups g.g { x with ovf := x.ovf || g.ovf }.closed })).raise (satEv d c (unit + 1) g.g { x with ovf := x.ovf || g.ovf })
        else v.modCore d c (fun y => { y with groups := tabSet y.groups g.g { x with ovf := x.ovf || g.ovf }.closed })
      else v.modCore d c (fun y => { y with groups := tabSet y.groups g.g (x.keeping g) }) := by
  subst hx hv
  exact if_neg (by rw [ho]; decide)

/-- A group of a core that is set. -/
theorem State.groupSet_spec (v : State) (d c k : Nat) (y : Group) {u : State} (hu : u = v.modCore d c (fun x => { x with groups := tabSet x.groups k y })) :
    tabGet (u.core d c).groups k groupReset = y ∧ (∀ j, j ≠ k → tabGet (u.core d c).groups j groupReset = tabGet (v.core d c).groups j groupReset) ∧
      u = { v with cores := u.cores } ∧ ∀ f, u.rd f = v.rd f := by
  subst hu
  refine ⟨?_, fun j hj => ?_, rfl, fun f => rfl⟩
  · rw [State.core_modCore_same]
    exact tabGet_tabSet_same ..
  · rw [State.core_modCore_same]
    exact tabGet_tabSet_ne _ _ _ hj.symm

/-- The tiles that a group holds after an instruction that leaves it open. -/
theorem mem_heldTiles (own : Option Nat) (held : List Nat) (t : Nat) : t ∈ own.toList ++ held.filter (fun t => decide (some t ≠ own)) ↔ own = some t ∨ t ∈ held := by
  rw [List.mem_append, Option.mem_toList, List.mem_filter, decide_eq_true_eq]
  constructor
  · rintro (h | ⟨h, -⟩)
    · exact .inl h
    · exact .inr h
  · rintro (h | h)
    · exact .inl h
    · by_cases hown : own = some t
      · exact .inl hown
      · exact .inr ⟨h, fun heq => hown heq.symm⟩

section Complete

variable {s : State} {d q unit par : Nat} {run : Running} (hrun : (s.core d q).running.find? (fun r => decide (r.1 = unit)) = some (unit, run))
  {v : State} (hv : v = if run.e.op = .drayPause then s.settlePause d (unitChan q unit) else s)
include hrun hv

theorem exec_instrComplete_of_waiting (hno : v.dieUp d = false ∨ (v.core d q).fenced = true ∨ (v.core d q).heldFull = true ∨ v.effectIn d (unitChan q unit) run.e.op = false) :
    exec (.instrComplete d q unit par) s = .next v := by
  subst hv
  show execInstrComplete d q unit par s = _
  unfold execInstrComplete
  rw [hrun]
  exact if_pos hno

variable (hup : v.dieUp d = true) (hf : (v.core d q).fenced = false) (hh : (v.core d q).heldFull = false) (he : v.effectIn d (unitChan q unit) run.e.op = true)
  {w : State} (hw : w = (v.unitReplays d q unit run.replays par).1)
include hup hf hh he hw

/-- More parity errors than REPLAY_MAX: the tokens are given back and the item stops. -/
theorem exec_instrComplete_of_exhausted (hpar : v.replayMax d q < run.replays + par) : exec (.instrComplete d q unit par) s =
    .next ((((w.release d q unit).modCore d q (fun c => c.giveBack run.e.wait)).exhausted d q (unitCode q unit) run.e.pc).abandonGroups d q) := by
  subst hv hw
  obtain ⟨a, ha⟩ := unitReplays_spec (if run.e.op = .drayPause then s.settlePause d (unitChan q unit) else s) d q unit run.replays par
  show execInstrComplete d q unit par s = _
  unfold execInstrComplete
  rw [hrun]
  dsimp only
  rw [if_neg (by rw [hup, hf, hh, he]; simp)]
  exact if_pos (by rw [ha, decide_eq_false_iff_not]; omega)

/-- The completion within REPLAY_MAX. -/
theorem exec_instrComplete_of_done (hpar : run.replays + par ≤ v.replayMax d q) {n : Int} (hn : n = run.start + (run.res.cycles * (1 + run.replays + par) : Nat))
    {r : State × Result} (hr : r = (w.passTo n.toNat).resultOf d q run) {x y z : State}
    (hx : x = ((r.2.counts.foldl (fun s k => s.count k.1 k.2) (r.1.applyWrites d q r.2.writes)).statResult d q unit run.e).raiseAll r.2.events)
    (hy : y = r.2.group.elim x (x.endGroup d q unit)) (hz : z = ((y.passTo (n + 1).toNat).release d q unit).postList d q run.e.post) :
    exec (.instrComplete d q unit par) s = .next (if z.itemStopped run.e.item then z.abandonGroups d q else z) := by
  obtain ⟨a, ha⟩ := unitReplays_spec v d q unit run.replays par
  have hcov : ¬ (v.unitReplays d q unit run.replays par).2 = false := by rw [ha, decide_eq_false_iff_not]; omega
  have hexec : exec (.instrComplete d q unit par) s = execInstrComplete d q unit par s := rfl
  unfold execInstrComplete at hexec
  rw [hrun] at hexec
  dsimp only at hexec
  rw [← hv, if_neg (by rw [hup, hf, hh, he]; simp), if_neg hcov, ← hn, ← hw, ← hr, ← hx] at hexec
  rw [hexec, hz, hy]
  cases r.2.group <;> rfl

end Complete

/-- Settles O31: the instruction completes, or its parity errors exceed REPLAY_MAX; and its group closes, or stays open with its tile. -/
theorem unitsCompleteTheirInstruction : Obligations.UnitsCompleteTheirInstruction := by
  unfold Obligations.UnitsCompleteTheirInstruction
  refine ⟨fun s d q unit par => ⟨fun hno => ?_, fun run v hrun hv => ⟨exec_instrComplete_of_waiting hrun hv, fun hup hf hh he w hw => ?_⟩⟩, fun s d c unit g x hx => ⟨fun hclosed => ?_, fun ho => ?_⟩⟩
  · have hnone : (s.core d q).running.find? (fun r => decide (r.1 = unit)) = none := List.find?_eq_none.2 fun r hr => by rw [decide_eq_true_eq]; exact hno r hr
    show execInstrComplete d q unit par s = _
    unfold execInstrComplete
    rw [hnone]
  · obtain ⟨a, hreplays⟩ := unitReplays_spec v d q unit run.replays par
    refine ⟨fun h0 => ?_, ⟨a, by rw [hw, hreplays]⟩, fun hpar => ⟨_, fun m => ?_, rfl, exec_instrComplete_of_exhausted hrun hv hup hf hh he hw hpar⟩, fun hpar n hn => ?_⟩
    · rw [hw, h0, unitReplays_none]
    · rw [State.giveBack_semv]
      congr 1
      unfold State.semv State.release
      rw [State.core_modCore_same]
    · obtain ⟨hown, hfree⟩ := (w.passTo n.toNat).resultOf_spec d q run
      obtain ⟨hwritten, hrest⟩ := (w.passTo n.toNat).resultOf_written d q run rfl
      refine ⟨w.passTo n.toNat, _, _, _, _, _, (w.passTo_passes _).1, fun h => by rw [hown h], fun h => by rw [hfree h], hwritten, hrest, rfl, ?_, (State.passTo_passes _ _).1,
        exec_instrComplete_of_done hrun hv hup hf hh he hw hpar hn rfl rfl rfl rfl⟩
      cases ((w.passTo n.toNat).resultOf d q run).2.group <;> rfl
  · subst hx
    exact if_pos hclosed
  · obtain ⟨hregs, hovf⟩ := s.ovfSet_spec d c g.g (x.ovf || g.ovf) rfl
    have hend := s.endGroup_of_open d c unit g hx ho rfl
    generalize (if x.ovf || g.ovf then s.setAccBit (ACC_STATUS_OVF d c) g.g else s) = v at *
    have hgroups : ∀ k, tabGet (v.core d c).groups k groupReset = tabGet (s.core d c).groups k groupReset := fun k => by rw [hregs]; rfl
    cases hg : g.close with
    | true =>
      rw [hg, if_pos rfl] at hend
      obtain ⟨hset, hothers, hcores, hrd⟩ := v.groupSet_spec d c g.g { x with ovf := x.ovf || g.ovf }.closed rfl
      refine ⟨_, ?_, fun k hk => (hothers k hk).trans (hgroups k), (hrd _).trans hovf, nofun, fun _ => ⟨hset, ?_⟩⟩
      · rw [hregs]
        rfl
      · rw [hend]
        exact if_congr (by simp only [Bool.or_eq_true]) rfl rfl
    | false =>
      rw [hg, if_neg nofun] at hend
      obtain ⟨hset, hothers, hcores, hrd⟩ := v.groupSet_spec d c g.g (x.keeping g) rfl
      refine ⟨_, ?_, fun k hk => (hothers k hk).trans (hgroups k), (hrd _).trans hovf, fun _ => ⟨hend, ?_, ?_, fun t => ?_⟩, nofun⟩
      · rw [hregs]
        rfl
      · rw [hset]
        exact ho
      · rw [hset]
        rfl
      · rw [hset]
        exact mem_heldTiles g.held x.held t

end Sys2Proof.Machine
end

section
/-! SUPPORT. How work items start, resume, park and end (R98, R100, R123, R186, R459, R552). -/

namespace Sys2Proof.Machine

section TabDel

variable {α : Type} (t : Tab α) (dflt : α)

theorem tabGet_tabDel_same (k : Nat) : tabGet (tabDel t k) k dflt = dflt := by
  induction t with
  | nil => rfl
  | cons e t ih =>
    obtain ⟨j, w⟩ := e
    by_cases h : j = k
    · rw [tabDel, if_pos h, ih]
    · rw [tabDel, if_neg h, tabGet, if_neg h, ih]

theorem tabGet_tabDel_ne {j k : Nat} (h : j ≠ k) : tabGet (tabDel t k) j dflt = tabGet t j dflt := by
  induction t with
  | nil => rfl
  | cons e t ih =>
    obtain ⟨i, w⟩ := e
    by_cases hi : i = k
    · rw [tabDel, if_pos hi, ih, tabGet, if_neg (hi ▸ h.symm)]
    · rw [tabDel, if_neg hi, tabGet, tabGet, ih]

end TabDel

/-- Two cores of a die. -/
theorem coreKey_ne {d c e : Nat} (h : c ≠ e) : coreKey d c ≠ coreKey d e := by
  unfold coreKey
  omega

/-- What an item's turn on a core asks (R100, R459). -/
theorem State.itemTurn_of_bar {s : State} {d rc k : Nat} (h : (s.core d rc).cur ≠ none ∨ s.frame.inHold = true ∨ s.rd JOB_STATUS_STATE = 3 ∨ s.coreOut d rc = true ∨
    ∃ e ∈ s.items, e.1 ≠ k ∧ s.barsOn d rc e.1 e.2 = true ∧ itemRank rc e.1 ≤ itemRank rc k) : s.itemTurn d rc k = false := by
  refine Bool.eq_false_iff.2 fun hturn => ?_
  simp only [State.itemTurn, Bool.and_eq_true, Bool.not_eq_true', decide_eq_true_eq, Option.isNone_iff_eq_none, List.all_eq_true, Bool.or_eq_true] at hturn
  obtain ⟨⟨⟨⟨⟨⟨-, -⟩, hin⟩, hcur⟩, hhold⟩, hjob⟩, hall⟩ := hturn
  rcases h with h | h | h | h | ⟨e, he, hne, hbars, hrank⟩
  · exact h hcur
  · exact Bool.false_ne_true (hhold.symm.trans h)
  · exact hjob h
  · exact Bool.false_ne_true (hin.symm.trans h)
  · rcases hall e he with (h | h) | h
    · exact hne h
    · exact Bool.false_ne_true (h.symm.trans hbars)
    · omega

/-- Whether an item runs again (R130, R552). -/
theorem Item.again_iff (x : Item) : x.again = true ↔ x.faulted = false ∧ x.redo = true ∧ (x.st = .complete ∨ (x.st = .parked ∧ x.ctx ≠ none) ∨ x.st = .stopped ∨ x.st = .aborted) := by
  unfold Item.again
  cases hst : x.st <;> simp [Option.isSome_iff_ne_none, and_assoc]

section Items

variable {s : State} {d c i k : Nat} {x : Item} (hk : k = itemKey d c i) (hx : x = s.item k)
include hk hx

theorem exec_workItemStart_of_waiting (h : s.runsOn d c = none ∨ (∃ rc, s.runsOn d c = some rc ∧ s.itemTurn d rc k = false) ∨ (x.st ≠ .waiting ∧ ¬ (x.st = .parked ∧ x.due = true ∧ s.coreOut d c = true))) :
    exec (.workItemStart d c i) s = .next s := by
  subst hk hx
  show execWorkItemStart d c i s = _
  unfold execWorkItemStart
  cases hr : s.runsOn d c with
  | none => rfl
  | some rc =>
    refine if_neg fun ⟨hcan, hturn⟩ => ?_
    rcases h with h | ⟨rc', h, hno⟩ | ⟨hwait, hpark⟩
    · exact nomatch hr.symm.trans h
    · obtain rfl := Option.some.inj (hr.symm.trans h)
      exact Bool.false_ne_true (hno.symm.trans hturn)
    · simp only [Bool.or_eq_true, Bool.and_eq_true, decide_eq_true_eq] at hcan
      exact hcan.elim hwait fun h => hpark ⟨h.1.1, h.1.2, h.2⟩

theorem exec_workItemStart_of_turn {rc : Nat} (hr : s.runsOn d c = some rc) (hcan : x.st = .waiting ∨ (x.st = .parked ∧ x.due = true ∧ s.coreOut d c = true)) (hturn : s.itemTurn d rc k = true) :
    exec (.workItemStart d c i) s = .next ((s.passTo (if x.overrun = true ∨ x.rerun = true then s.holdCycles + 1 else s.issueCycle)).enterItem d rc k) := by
  subst hk hx
  show execWorkItemStart d c i s = _
  unfold execWorkItemStart
  rw [hr]
  dsimp only
  have hstarts : (decide ((s.item (itemKey d c i)).st = .waiting) || (decide ((s.item (itemKey d c i)).st = .parked) && (s.item (itemKey d c i)).due && s.coreOut d c)) = true := by
    simp only [Bool.or_eq_true, Bool.and_eq_true, decide_eq_true_eq, and_assoc]
    exact hcan
  rw [if_pos ⟨hstarts, hturn⟩]
  split <;> rfl

theorem exec_itemResume_of_waiting (h : x.ctx = none ∨ x.st ≠ .parked ∨ x.due = false ∨ s.itemTurn d c k = false) : exec (.itemResume d c i) s = .next s := by
  subst hk hx
  show execItemResume d c i s = _
  unfold execItemResume
  dsimp only
  cases hz : (s.item (itemKey d c i)).ctx with
  | none => rfl
  | some z =>
    refine if_neg fun ⟨hst, hdue, hturn⟩ => ?_
    rcases h with h | h | h | h
    · exact nomatch hz.symm.trans h
    · exact h hst
    · exact Bool.false_ne_true (h.symm.trans hdue)
    · exact Bool.false_ne_true (h.symm.trans hturn)

theorem exec_workItemComplete_of_waiting (h : (s.core d x.runCore).cur ≠ some k ∨ s.itemBusy d x.runCore k = true ∨ s.dieUp d = false ∨ (x.st ≠ .ended ∧ x.st ≠ .parked)) :
    exec (.workItemComplete d c i) s = .next s := by
  subst hk hx
  show execWorkItemComplete d c i s = _
  unfold execWorkItemComplete
  dsimp only
  split
  · rfl
  · next hno =>
    have hst : (s.item (itemKey d c i)).st ≠ .ended ∧ (s.item (itemKey d c i)).st ≠ .parked := by tauto
    split
    · next he => exact absurd he hst.1
    · next hp => exact absurd hp hst.2
    · rfl

end Items

/-- The state of a core at which a parked item resumes (R123, R186). -/
def Core.resumed (y : Core) (k : Nat) (z : Ctx) : Core :=
  { y with
    pc := z.pc
    s := z.s
    td := z.td
    p := z.p
    runlen := z.runlen
    seed := z.seed
    cur := some k
    blocked := .none
    groups := (z.groups.filter (fun g => g.2.isOpen)).foldl (fun t g => tabSet t g.1 g.2) y.groups }

/-- An item as it starts on a core. -/
def Item.running (x : Item) (c f : Nat) : Item := { x with st := .running, runCore := c, start := some f, leases := [], retAll := false, due := false, ctx := none }

/-- The state once a parked item has its core and its saved context again, before its registers and regions are set. -/
def State.resumed (v : State) (d c k runCore : Nat) (z : Ctx) : State :=
  (((v.modCore d runCore (fun y => { y with kept := tabDel y.kept k })).modCore d c (fun y => y.resumed k z)).modItem k (fun i => i.running c v.frameSeq))

theorem exec_itemResume_of_turn {s : State} {d c i k : Nat} {x : Item} (hk : k = itemKey d c i) (hx : x = s.item k) {z : Ctx} (hz : x.ctx = some z) (hst : x.st = .parked) (hdue : x.due = true)
    (hturn : s.itemTurn d c k = true) {v u : State} (hv : v = s.passTo s.issueCycle) (hu : u = v.resumed d c k x.runCore z) :
    exec (.itemResume d c i) s = .next (((if x.entry.leased then u else u.takenFor x.entry).entryRegs d c x.entry u.frameSeq).setS d c (BitVec.ofNat 5 z.sd) (BitVec.ofNat 64 u.frameSeq)) := by
  subst hk hx hu hv
  show execItemResume d c i s = _
  unfold execItemResume
  dsimp only
  rw [hz]
  exact if_pos ⟨hst, hdue, hturn⟩

section Resumed

variable (v : State) (d c k rc : Nat) (z : Ctx)

theorem State.resumed_rest : v.resumed d c k rc z = { v with cores := (v.resumed d c k rc z).cores, items := (v.resumed d c k rc z).items } := rfl

theorem State.resumed_item : (v.resumed d c k rc z).item k = (v.item k).running c v.frameSeq ∧ ∀ j, j ≠ k → (v.resumed d c k rc z).item j = v.item j :=
  ⟨State.item_modItem_same .., fun _ hj => State.item_modItem_ne _ _ hj.symm⟩

theorem State.resumed_others {j : Nat} (hj : j ≠ coreKey d c) (hr : j ≠ coreKey d rc) : tabGet (v.resumed d c k rc z).cores j coreReset = tabGet v.cores j coreReset :=
  (tabGet_tabSet_ne _ _ _ hj.symm).trans (tabGet_tabSet_ne _ _ _ hr.symm)

/-- The core on which an item resumes, and the one that kept its groups. -/
theorem State.resumed_core : (∃ kept, (v.resumed d c k rc z).core d c = { (v.core d c).resumed k z with kept := kept }) ∧
    tabGet ((v.resumed d c k rc z).core d rc).kept k [] = [] ∧ (∀ j, j ≠ k → tabGet ((v.resumed d c k rc z).core d rc).kept j [] = tabGet (v.core d rc).kept j []) ∧
    (rc ≠ c → (v.resumed d c k rc z).core d rc = { v.core d rc with kept := ((v.resumed d c k rc z).core d rc).kept } ∧ ((v.resumed d c k rc z).core d c).kept = (v.core d c).kept) := by
  generalize hu : v.resumed d c k rc z = u
  have hown : u.core d c = ((v.modCore d rc (fun y => { y with kept := tabDel y.kept k })).core d c).resumed k z := by
    rw [← hu, State.resumed, State.core_modItem, State.core_modCore_same]
  by_cases h : rc = c
  · subst h
    rw [State.core_modCore_same] at hown
    refine ⟨⟨_, hown⟩, ?_, fun j hj => ?_, fun hne => absurd rfl hne⟩
    · rw [hown]
      exact tabGet_tabDel_same ..
    · rw [hown]
      exact tabGet_tabDel_ne _ _ hj
  · rw [State.core_modCore_ne _ _ (coreKey_ne h)] at hown
    have hkept : u.core d rc = { v.core d rc with kept := tabDel (v.core d rc).kept k } := by
      rw [← hu, State.resumed, State.core_modItem, State.core_modCore_ne _ _ (coreKey_ne fun e => h e.symm), State.core_modCore_same]
    refine ⟨⟨_, hown⟩, ?_, fun j hj => ?_, fun _ => ⟨?_, ?_⟩⟩
    · rw [hkept]
      exact tabGet_tabDel_same ..
    · rw [hkept]
      exact tabGet_tabDel_ne _ _ hj
    · rw [hkept]
    · rw [hown]
      rfl

end Resumed

/-- A resumed item's core, items and regions once its registers are loaded. -/
theorem State.resumed_entered {u t : State} {d c : Nat} {e : WorkEntry} {sd f : Nat}
    (ht : t = ((if e.leased then u else u.takenFor e).entryRegs d c e f).setS d c (BitVec.ofNat 5 sd) (BitVec.ofNat 64 f)) :
    t = { u with cores := t.cores, regions := t.regions } ∧ (∃ g, t.core d c = { u.core d c with s := g }) ∧
      (∀ j, j ≠ coreKey d c → tabGet t.cores j coreReset = tabGet u.cores j coreReset) ∧
      (∀ r : BitVec 5, t.sreg d c r = if r = BitVec.ofNat 5 sd ∧ r ≠ 0 then BitVec.ofNat 64 f else if r = 1 then BitVec.ofNat 64 e.first else if r = 2 then BitVec.ofNat 64 e.count
        else if r = 3 then BitVec.ofNat 64 e.arg else if r = 4 then BitVec.ofNat 64 (e.item % 8 + (e.flags % 2) <<< 16 + e.counter <<< 32)
        else if r = 5 then BitVec.ofNat 64 f else u.sreg d c r) ∧
      ∀ r, t.region r = if e.leased = false ∧ r ∈ e.regions then { u.region r with taken := true } else u.region r := by
  have hregions : ∃ y : State, y = (if e.leased then u else u.takenFor e) ∧ y = { u with regions := y.regions } ∧
      ∀ r, y.region r = if e.leased = false ∧ r ∈ e.regions then { u.region r with taken := true } else u.region r := by
    refine ⟨_, rfl, ?_, fun r => ?_⟩
    · split
      · rfl
      · exact u.takenFor_regions e
    · cases hl : e.leased with
      | true => rw [if_pos rfl, if_neg (fun h => nomatch h.1)]
      | false =>
        rw [if_neg nofun, State.takenFor, takenFor_region]
        simp only [true_and]
  obtain ⟨y, hy, hyrest, hyregion⟩ := hregions
  rw [← hy] at ht
  obtain ⟨hrest, ⟨g, hcore⟩, hothers, hsreg⟩ := entryRegs_spec y d c e f
  generalize y.entryRegs d c e f = w at *
  have hcores : y.cores = u.cores := by rw [hyrest]
  have hycore : y.core d c = u.core d c := core_congr_tab hcores d c
  have hysreg : ∀ r, y.sreg d c r = u.sreg d c r := fun r => by rw [State.sreg, State.sreg, hycore]
  subst ht
  refine ⟨?_, ?_, fun j hj => ?_, fun r => ?_, fun r => ?_⟩
  · rw [setS_rest, hrest, hyrest]
  · exact ⟨_, by rw [State.setS_core, hcore, hycore]⟩
  · rw [(State.setS_only ..).others j hj, hothers j hj, hcores]
  · rw [State.sreg_setS, hsreg, hysreg]
  · have hsame : (w.setS d c (BitVec.ofNat 5 sd) (BitVec.ofNat 64 f)).region r = y.region r := by
      rw [setS_rest, hrest]
      rfl
    rw [hsame, hyregion]

/-- The open groups of a core that no started instruction holds (log entry 23). -/
def Core.idleGroups (c : Core) : Tab Group := c.groups.filter (fun g => g.2.isOpen && !c.busyGroups.contains g.1)

/-- The closing of groups that are abandoned, before its events. -/
def State.groupsClosed (s : State) (d c : Nat) : State :=
  (s.modCore d c (fun x => (s.core d c).idleGroups.foldl (fun x g => { x with groups := tabSet x.groups g.1 g.2.closed }) x)).count (ACC_STATUS_ABANDONED d c) (s.core d c).idleGroups.length

theorem State.abandonGroups_eq (s : State) (d c : Nat) : s.abandonGroups d c = (s.groupsClosed d c).saturated d c (s.core d c).idleGroups := rfl

theorem State.groupsClosed_spec (s : State) (d c : Nat) {y : State} (hy : y = s.groupsClosed d c) : y.core d c = { s.core d c with groups := (y.core d c).groups } ∧
    (∀ g ∈ (s.core d c).idleGroups, (tabGet (y.core d c).groups g.1 groupReset).isOpen = false) ∧
    y.rd (ACC_STATUS_ABANDONED d c) = min (s.rd (ACC_STATUS_ABANDONED d c) + (s.core d c).idleGroups.length) (2 ^ (ACC_STATUS_ABANDONED d c).width - 1) ∧
    (∀ r, r ≠ .ACC_STATUS d c → y.word r = s.word r) ∧ (∀ j, j ≠ coreKey d c → tabGet y.cores j coreReset = tabGet s.cores j coreReset) ∧
    y = { s with cores := y.cores, regs := y.regs } := by
  obtain ⟨hclosed, -, hrest⟩ := abandon_closed (s.core d c).idleGroups (s.core d c)
  have hcore : y.core d c = (s.core d c).idleGroups.foldl (fun x g => { x with groups := tabSet x.groups g.1 g.2.closed }) (s.core d c) := by
    rw [hy, State.groupsClosed, State.core_count, State.core_modCore_same]
  rw [← hcore] at hclosed hrest
  subst hy
  exact ⟨hrest, hclosed, State.rd_count_same _ _ _ fle, fun r hr => State.word_count_ne _ _ hr.symm, fun j hj => tabGet_tabSet_ne _ _ _ hj.symm, rfl⟩

/-- An item at END that completes. -/
def State.itemEnded (v : State) (d rc k : Nat) : State := (v.modCore d rc (fun y => { y with cur := none })).modItem k (fun i => { i with st := .complete })

/-- What a core saves of an item that parks (R123). -/
def Core.saved (y : Core) (sd : Nat) : Ctx := { pc := y.pc, s := y.s, td := y.td, p := y.p, runlen := y.runlen, seed := y.seed, groups := y.groups, sd := sd }

/-- A core once the item on it has parked: it keeps the tiles of the item's open groups (R186). -/
def Core.left (y : Core) (k : Nat) : Core :=
  { y with cur := none, blocked := .none, kept := tabSet y.kept k (y.groups.filter (fun g => g.2.isOpen)), groups := y.groups.map (fun g => (g.1, g.2.closed)) }

def State.itemParked (s : State) (d rc k sd : Nat) : State :=
  (s.modItem k (fun i => { i with ctx := some ((s.core d rc).saved sd) })).modCore d rc (fun y => y.left k)

/-- The register that takes the frame sequence number after TICK.WAIT. -/
def Blocked.tickReg (b : Blocked) : Nat :=
  match b with
  | .tickWait sd => sd
  | _ => 0

section Complete

variable {s : State} {d c i k : Nat} {x : Item} (hk : k = itemKey d c i) (hx : x = s.item k) (hcur : (s.core d x.runCore).cur = some k) (hbusy : s.itemBusy d x.runCore k = false)
  (hup : s.dieUp d = true)
include hk hx hcur hbusy hup

theorem exec_workItemComplete_of_ended (hst : x.st = .ended) : exec (.workItemComplete d c i) s = .next (((s.abandonGroups d x.runCore).itemEnded d x.runCore k).rerunNow k) := by
  subst hk hx
  show execWorkItemComplete d c i s = _
  unfold execWorkItemComplete
  dsimp only
  rw [if_neg (by rw [hcur, hbusy, hup]; simp), hst]
  rfl

theorem exec_workItemComplete_of_parked (hst : x.st = .parked) : exec (.workItemComplete d c i) s = .next ((s.itemParked d x.runCore k (s.core d x.runCore).blocked.tickReg).rerunNow k) := by
  subst hk hx
  show execWorkItemComplete d c i s = _
  unfold execWorkItemComplete
  dsimp only
  rw [if_neg (by rw [hcur, hbusy, hup]; simp), hst]
  rfl

end Complete

/-- Settles O32: the turn of an item, its start, its resumption and its end, each with what it leaves of the state. -/
theorem workItemsStartResumeAndEnd : Obligations.WorkItemsStartResumeAndEnd := by
  unfold Obligations.WorkItemsStartResumeAndEnd
  refine ⟨fun s d c i k x hk hx => ⟨fun rc hbar => State.itemTurn_of_bar hbar, exec_workItemStart_of_waiting hk hx, ?start, exec_itemResume_of_waiting hk hx, ?resume,
    exec_workItemComplete_of_waiting hk hx, ?ended, ?parked⟩, fun s d c g x gs => ⟨rfl, rfl⟩, Item.again_iff⟩
  case start =>
    intro rc hr hcan hturn f hf
    obtain ⟨hpass, -⟩ := s.passTo_passes (if x.overrun = true ∨ x.rerun = true then s.holdCycles + 1 else s.issueCycle)
    have hexec := exec_workItemStart_of_turn hk hx hr hcan hturn
    generalize s.passTo (if x.overrun = true ∨ x.rerun = true then s.holdCycles + 1 else s.issueCycle) = v at *
    have hitems : v.items = s.items := by rw [hpass.rest]
    have hregions : v.regions = s.regions := by rw [hpass.rest]
    have hcores : v.cores = s.cores := by rw [hpass.rest]
    have hseq : v.frameSeq = f := by rw [hf]; exact State.rd_congr (hpass.word .FRAME_STATUS rfl)
    have hitem : v.item k = x := by rw [hx, State.item, State.item, hitems]
    obtain ⟨hcore, hsreg, hown, hother, hothers, hrest, hregion⟩ := enterItem_spec v d rc k
    obtain ⟨hwitems, hwregions, -⟩ := endParked_spec v k x (fun j => decide (j = k))
    rw [hitem] at hcore hsreg hown hother hothers hrest hregion
    rw [hseq] at hsreg hown
    refine ⟨v, _, _, hexec, hpass, rfl, fun hctx htakes => endParked_plain v k x hctx (by rw [hcores]; exact htakes), hcore, hsreg, hown, fun j hj => (hother j hj).trans ?_, hothers, hrest, fun r => ?_⟩
    · rw [State.item, State.item, hwitems, hitems]
    · rw [hregion, State.region, State.region, hwregions, hregions]
  case resume =>
    intro z hz hst hdue hturn
    obtain ⟨hpass, -⟩ := s.passTo_passes s.issueCycle
    generalize hv : s.passTo s.issueCycle = v at *
    have hseq : v.frameSeq = s.frameSeq := State.rd_congr (hpass.word .FRAME_STATUS rfl)
    have hcores : v.cores = s.cores := by rw [hpass.rest]
    have hcoreEq : ∀ e, v.core d e = s.core d e := fun e => core_congr_tab hcores d e
    have hitem : ∀ j, v.item j = s.item j := fun j => by rw [hpass.rest]; rfl
    have hregions : ∀ r, v.region r = s.region r := fun r => by rw [hpass.rest]; rfl
    have hexec := exec_itemResume_of_turn hk hx hz hst hdue hturn hv.symm rfl
    obtain ⟨⟨kept, hcore⟩, hdel, hkept, hhome⟩ := v.resumed_core d c k x.runCore z
    obtain ⟨hown, hother⟩ := v.resumed_item d c k x.runCore z
    have hothers := fun j => v.resumed_others d c k x.runCore z (j := j)
    have hurest := v.resumed_rest d c k x.runCore z
    have huseq : (v.resumed d c k x.runCore z).frameSeq = s.frameSeq := hseq
    rw [huseq] at hexec
    rw [hitem k, ← hx, hseq] at hown
    generalize v.resumed d c k x.runCore z = u at *
    obtain ⟨hrest, ⟨g, htcore⟩, htothers, hsreg, hregion⟩ := State.resumed_entered (u := u) (d := d) (c := c) (e := x.entry) (sd := z.sd) (f := s.frameSeq) rfl
    generalize ((if x.entry.leased then u else u.takenFor x.entry).entryRegs d c x.entry s.frameSeq).setS d c (BitVec.ofNat 5 z.sd) (BitVec.ofNat 64 s.frameSeq) = t at *
    have hthome : (t.core d x.runCore).kept = (u.core d x.runCore).kept := by
      by_cases h : x.runCore = c
      · rw [h, htcore]
      · rw [State.core, State.core, htothers _ (coreKey_ne h)]
    have hti : ∀ j, t.item j = u.item j := fun j => by rw [hrest]; rfl
    refine ⟨v, t, hexec, hpass, ⟨g, ?_⟩, ?_, ?_, fun j hj => ?_, fun h => ⟨?_, ?_⟩, fun r => ?_, (hti k).trans hown, fun j hj => ((hti j).trans (hother j hj)).trans (hitem j),
      fun j hj hr => (htothers j hj).trans ((hothers j hj hr).trans (by rw [hcores])), ?_, fun r => ?_⟩
    · rw [htcore, hcore, hcoreEq]
      rfl
    · rw [htcore, hcore, hcoreEq]
      rfl
    · rw [hthome, hdel]
    · rw [hthome, hkept j hj, hcoreEq]
    · have hsame : t.core d x.runCore = u.core d x.runCore := htothers _ (coreKey_ne h)
      rw [hsame, (hhome h).1, hcoreEq]
    · rw [htcore, (hhome h).2, hcoreEq]
    · have husreg : u.sreg d c r = if r = 0 then 0 else tabGet z.s r.toNat 0 := by
        rw [State.sreg, hcore]
        rfl
      rw [hsreg, husreg]
      by_cases h0 : r = 0
      · subst h0
        simp
      · simp only [h0, ne_eq, not_false_eq_true, and_true, if_false]
    · rw [hrest, hurest]
    · rw [hregion]
      have hur : u.region r = s.region r := by rw [hurest]; exact hregions r
      rw [hur]
  case ended =>
    intro gs hgs hcur hbusy hup hst
    have hexec := exec_workItemComplete_of_ended hk hx hcur hbusy hup hst
    obtain ⟨hcore, hclosed, hcount, hregs, hothers, hrest⟩ := s.groupsClosed_spec d x.runCore rfl
    have hsat := (s.groupsClosed d x.runCore).saturated_noticed d x.runCore (s.core d x.runCore).idleGroups
    have hgroups : gs = (s.core d x.runCore).idleGroups := hgs
    rw [State.abandonGroups_eq, ← hgroups] at hexec
    rw [← hgroups] at hclosed hcount hsat
    generalize s.groupsClosed d x.runCore = y at *
    have hsitems : ∀ j, (y.saturated d x.runCore gs).item j = s.item j := fun j => by rw [hsat.rest, hrest]; rfl
    have hscores : (y.saturated d x.runCore gs).cores = y.cores := by rw [hsat.rest]
    refine ⟨y, (y.saturated d x.runCore gs).itemEnded d x.runCore k, hexec, hcore, hclosed, hcount, hregs, hothers, hrest, ?_, ?_, fun j hj => ?_, fun j hj => ?_, rfl⟩
    · rw [State.itemEnded, State.core_modItem, State.core_modCore_same, core_congr_tab hscores]
    · rw [State.itemEnded, State.item_modItem_same, State.item_modCore, hsitems, hx]
    · rw [State.itemEnded, State.item_modItem_ne _ _ hj.symm, State.item_modCore, hsitems]
    · exact (tabGet_tabSet_ne _ _ _ hj.symm).trans ((congrArg (fun t => tabGet t j coreReset) hscores).trans (hothers j hj))
  case parked =>
    intro y hy hcur hbusy hup hst
    subst hy
    have hexec := exec_workItemComplete_of_parked hk hx hcur hbusy hup hst
    refine ⟨_, (s.core d x.runCore).blocked.tickReg, hexec, fun n hn => by rw [hn]; rfl, ?_, ?_, fun j hj => ?_, fun j hj => tabGet_tabSet_ne _ _ _ hj.symm, rfl⟩
    · rw [State.itemParked, State.item_modCore, State.item_modItem_same, ← hx]
      rfl
    · rw [State.itemParked, State.core_modCore_same, State.core_modItem]
      rfl
    · rw [State.itemParked, State.item_modCore, State.item_modItem_ne _ _ hj.symm]

end Sys2Proof.Machine
end

section
/-! SUPPORT. The tick: the frame that it begins, and the report of the module (R44, R48, R50, R52, R436). -/

namespace Sys2Proof.Machine

/-- The frame that a tick begins. -/
theorem State.tickBegins_spec (e : State) {g : State} (hg : g = e.tickBegins) : g.frame.cycle = 0 ∧ g.frame.inHold = true ∧ g.frame.tickTime = e.frame.tickTime ∧
    g.frame.teamTime.toNat = max e.frame.teamTime.toNat e.frame.tickTime.toNat ∧ g.frameSeq = (e.frame.nextSeq.getD (e.frameSeq + 1)) % 2 ^ 48 := by
  subst hg
  refine ⟨rfl, rfl, rfl, ?_, State.rd_wr_same _ _ _ fle⟩
  have htime : e.tickBegins.frame.teamTime = if e.frame.teamTime.toNat < e.frame.tickTime.toNat then e.frame.tickTime else e.frame.teamTime := rfl
  rw [htime]
  split <;> omega

/-- The tick report of a module, kept and sent by a member (R50). -/
theorem State.sendReport_spec (c : State) {b x : State} {r : Report} (hr : r = c.buildReport) (hb : b = { c with frame := { c.frame with report := some r } }) (hx : x = c.sendReport) :
    x.frame = b.frame ∧ x.regs = c.regs ∧ x.fuses = c.fuses ∧ (c.rd TEAM_STATUS_STATE ≠ 2 → x = b) ∧
      (c.rd TEAM_STATUS_STATE = 2 → ∃ y z : State, y = { b with team := { b.team with flooded := b.team.flooded ++ [.report b.tag16 r] }, wire := b.wire ++ [.report r] } ∧
        Sent y z ∧ z = (y.floodPort 1 0 6 (b.freeBytes 246)).floodPort 2 0 6 (b.freeBytes 246) ∧ x = z.used 246) := by
  have hsend : x = if b.rd TEAM_STATUS_STATE = 2 then b.floodSix (.report b.tag16 r) (.report r) else b := by
    subst hx hr hb
    rfl
  have hregs : b.regs = c.regs ∧ b.fuses = c.fuses := by
    subst hb
    exact ⟨rfl, rfl⟩
  have hstate : b.rd TEAM_STATUS_STATE = c.rd TEAM_STATUS_STATE := by
    subst hb
    rfl
  rw [hstate] at hsend
  by_cases h2 : c.rd TEAM_STATUS_STATE = 2
  · rw [if_pos h2] at hsend
    obtain ⟨y, z, hy, hsent, hz, hused⟩ := b.floodSix_spec (.report b.tag16 r) (.report r)
    have hxz : x = z.used 246 := hsend.trans hused
    have hzframe : z.frame = b.frame ∧ z.regs = b.regs ∧ z.fuses = b.fuses := by
      rw [hsent, hy]
      exact ⟨rfl, rfl, rfl⟩
    obtain ⟨hframe, hzregs, hzfuses⟩ := hzframe
    refine ⟨?_, ?_, ?_, fun hne => absurd h2 hne, fun _ => ⟨y, z, hy, hsent, hz, hxz⟩⟩
    · rw [hxz, State.frame_used, hframe]
    · rw [hxz, State.regs_used, hzregs, hregs.1]
    · rw [hxz, State.fuses_used, hzfuses, hregs.2]
  · rw [if_neg h2] at hsend
    exact ⟨by rw [hsend], by rw [hsend, hregs.1], by rw [hsend, hregs.2], fun _ => hsend, fun h => absurd h h2⟩

/-- What a tick report says (R50, R52, R390, R473, R476, R489). -/
theorem State.buildReport_spec (c : State) {r : Report} (hr : r = c.buildReport) : r.pos = c.rd TEAM_STATUS_POS ∧ r.cap = c.rd LAMP_PWR_CAP ∧ r.opt = c.upDies.map c.armVerdict ∧
    r.image = c.job.imageOrder ∧ r.restored = c.job.resume ∧ (r.resume = true ↔ c.armedRd JOB_CTRL_RESUME = 1) ∧ r.causes = c.frame.causes ||| c.tickCauses := by
  subst hr
  exact ⟨rfl, rfl, rfl, rfl, rfl, decide_eq_true_iff, rfl⟩

/-- Settles O33: the frame begins at the end of the cycles of the last one, and what is done at its cycle 0 up to the report leaves the frame as it began. -/
theorem ticksBeginTheHoldWithAReport : Obligations.TicksBeginTheHoldWithAReport := by
  unfold Obligations.TicksBeginTheHoldWithAReport
  refine fun s absent => ⟨fun hin => if_pos hin, fun hin => ?_⟩
  obtain ⟨hpass, -⟩ := s.passTo_passes (s.frameLen * 1024)
  generalize hv : s.passTo (s.frameLen * 1024) = v at hpass
  have hends := State.tickEnds_held (Held.refl v)
  generalize he : v.tickEnds = e at hends
  obtain ⟨hcycle, hhold, htick, htime, hseq⟩ := e.tickBegins_spec rfl
  have hheld := State.tickDuties_held (State.tickChecks_held (Held.refl e.tickBegins) (e.upDies.flatMap e.dieLaws) absent)
  generalize hc : (e.tickBegins.tickChecks (e.upDies.flatMap e.dieLaws) absent).tickDuties = c at hheld
  obtain ⟨hframe, hregs, hfuses, halone, hmember⟩ := c.sendReport_spec rfl rfl rfl
  obtain ⟨hpos, hcap, hopt, himage, hrestored, hresume, hcauses⟩ := c.buildReport_spec rfl
  have hexec : exec (.frameTick absent) s = .next (c.sendReport.modFrame (fun f => { f with pause := 0, slipReq := false })) := by
    rw [← hc, ← he, ← hv]
    exact if_neg (by rw [hin]; decide)
  generalize c.sendReport = x at hexec hframe hregs hfuses halone hmember
  have hxseq : (x.modFrame (fun f => { f with pause := 0, slipReq := false })).frameSeq = c.frameSeq := by
    unfold State.frameSeq State.rd State.word State.modFrame
    rw [hregs, hfuses]
  have hvs : v.frameSeq = s.frameSeq := State.rd_congr (hpass.word .FRAME_STATUS rfl)
  have hvtick : v.frame.tickTime = s.frame.tickTime ∧ v.frame.nextSeq = s.frame.nextSeq := by
    rw [hpass.rest]
    exact ⟨rfl, rfl⟩
  obtain ⟨hetick, henext⟩ := Prod.mk.inj hends.tick
  obtain ⟨hctick, -⟩ := Prod.mk.inj hheld.tick
  have heseq : e.frameSeq = v.frameSeq := hends.rd_frame FRAME_STATUS_SEQ rfl
  have hcseq : c.frameSeq = e.tickBegins.frameSeq := hheld.rd_frame FRAME_STATUS_SEQ rfl
  refine ⟨v, c, _, x, _, c.buildReport, hexec, hpass, ?_, ?_, ?_, ?_, ?_, rfl, rfl, halone, hmember, hpos, hcap, hopt, himage, hrestored, hresume, fun i => ?_⟩
  · rw [hxseq, hcseq, hseq, henext, hvtick.2, heseq, hvs]
  · show x.frame.cycle = 0
    rw [hframe]
    exact hheld.cycle.trans hcycle
  · show x.frame.inHold = true
    rw [hframe]
    exact hheld.inHold.trans hhold
  · show x.frame.teamTime.toNat = _
    rw [hframe, ← hvtick.1, ← hends.time, ← hetick, ← htime]
    exact congrArg BitVec.toNat hheld.time
  · show x.frame.tickTime = _
    rw [hframe]
    exact (hctick.trans htick).trans (hetick.trans hvtick.1)
  · rw [hcauses, BitVec.getLsbD_or, Bool.or_eq_true, tickCauses_bit]

end Sys2Proof.Machine
end

section
/-! SUPPORT. Tick reports and verdicts: their arrival, what the Coachman makes of the reports, and what cycle H leaves of the frame (R50, R52, R53, R79, R429, R535). -/

namespace Sys2Proof.Machine

section Arrival

variable {s : State} {d l : Nat} {f : Flit}

theorem exec_tickReport_of_refused (h : (s.rxSequenced d l f).2 = false) (r : Report) : exec (.tickReport ⟨d, l, f, r⟩) s = .next (s.rxSequenced d l f).1 := if_pos h

theorem exec_verdict_of_refused (h : (s.rxSequenced d l f).2 = false) (v : Verdict) : exec (.verdict ⟨d, l, f, v⟩) s = .next (s.rxSequenced d l f).1 := if_pos h

/-- A flooded flit that is accepted goes on where it is the first copy, and is dropped where it is not (R429). -/
theorem State.floodIn_spec (q : State) (d l : Nat) (f : Flit) (x : Flood) : (x ∈ q.team.flooded → q.floodIn d l f x = (q, false)) ∧
    (x ∉ q.team.flooded → ∃ y z : State, y = { q with team := { q.team with flooded := q.team.flooded ++ [x] } } ∧ Sent y z ∧ z = y.flood d l f.kind f.payload ∧
      q.floodIn d l f x = (z, true)) :=
  ⟨fun h => if_pos h, fun h => ⟨_, _, rfl, State.flood_sent .., rfl, if_neg h⟩⟩

variable {q : State} (hq : q = (s.rxSequenced d l f).1) (h : (s.rxSequenced d l f).2 = true)
include hq h

theorem exec_tickReport_of_accepted (r : Report) : exec (.tickReport ⟨d, l, f, r⟩) s =
    .next (if (q.floodIn d l f (.report f.tag r)).2 then (q.floodIn d l f (.report f.tag r)).1.hearReport f.tag r else (q.floodIn d l f (.report f.tag r)).1) := by
  subst hq
  exact if_neg (by rw [h]; decide)

theorem exec_verdict_of_accepted (v : Verdict) : exec (.verdict ⟨d, l, f, v⟩) s =
    .next (if (q.floodIn d l f (.verdict f.tag v)).2 then (q.floodIn d l f (.verdict f.tag v)).1.holdVerdict f.tag v else (q.floodIn d l f (.verdict f.tag v)).1) := by
  subst hq
  exact if_neg (by rw [h]; decide)

end Arrival

theorem State.ofTick_iff (s : State) (tag : BitVec 16) : s.ofTick tag = true ↔ s.later tag = true ∨ (s.frame.inHold = true ∧ tag = s.tag16) := by
  rw [State.ofTick, Bool.or_eq_true, Bool.and_eq_true, decide_eq_true_eq]

theorem State.hearReport_of_not {s : State} {tag : BitVec 16} (h : s.rd TEAM_STATUS_STATE ≠ 3 ∨ s.team.verdict ≠ none ∨ s.ofTick tag = false) (r : Report) : s.hearReport tag r = s := by
  refine if_neg fun ⟨hcoach, hnone, htick⟩ => ?_
  rcases h with h | h | h
  · exact h (of_decide_eq_true hcoach)
  · exact h (Option.isNone_iff_eq_none.1 hnone)
  · exact Bool.false_ne_true (h.symm.trans htick)

/-- A report that is heard joins the others, and the last one makes the verdict. -/
theorem State.hearReport_of_heard {s : State} {tag : BitVec 16} {r : Report} (hcoach : s.rd TEAM_STATUS_STATE = 3) (hnone : s.team.verdict = none) (htick : s.ofTick tag = true) {y : State}
    (hy : y = { s with team := { s.team with reports := s.team.reports.filter (fun x => decide (x.pos ≠ r.pos)) ++ [r] } }) :
    s.hearReport tag r = if y.frame.inHold = true ∧ y.allHeard = true then y.gather else y := by
  subst hy
  exact if_pos ⟨decide_eq_true hcoach, by rw [hnone]; rfl, htick⟩

theorem State.allHeard_iff (y : State) : y.allHeard = true ↔ ∀ p < y.team.seats.length, y.seated p = true → p ≠ y.rd TEAM_STATUS_POS → ∃ x ∈ y.team.reports, x.pos = p := by
  simp only [State.allHeard, List.all_eq_true, List.mem_range, Bool.or_eq_true, Bool.not_eq_true', decide_eq_true_eq, List.any_eq_true]
  refine forall₂_congr fun p _ => ⟨fun h hseated hpos => ?_, fun h => ?_⟩
  · rcases h with (h | h) | h
    · exact absurd (h.symm.trans hseated) Bool.false_ne_true
    · exact absurd h hpos
    · exact h
  · by_cases hseated : y.seated p = true
    · by_cases hpos : p = y.rd TEAM_STATUS_POS
      · exact .inl (.inr hpos)
      · exact .inr (h hseated hpos)
    · exact .inl (.inl (Bool.eq_false_iff.2 hseated))

theorem State.holdVerdict_of_not {s : State} {tag : BitVec 16} (h : s.rd TEAM_STATUS_STATE ≠ 2 ∨ s.team.verdict ≠ none ∨ s.ofTick tag = false) (v : Verdict) : s.holdVerdict tag v = s := by
  refine if_neg fun ⟨hmember, hnone, htick⟩ => ?_
  rcases h with h | h | h
  · exact h hmember
  · exact h (Option.isNone_iff_eq_none.1 hnone)
  · exact Bool.false_ne_true (h.symm.trans htick)

theorem State.holdVerdict_of_held {s : State} {tag : BitVec 16} (hmember : s.rd TEAM_STATUS_STATE = 2) (hnone : s.team.verdict = none) (htick : s.ofTick tag = true) (v : Verdict) :
    s.holdVerdict tag v = { s with team := { s.team with verdict := some v, misses := 0 } } := if_pos ⟨hmember, by rw [hnone]; rfl, htick⟩

/-- The optimiser verdicts differ where two of them do (R390). -/
theorem optDiffer_iff (all : List Report) : optDiffer all = true ↔ ∃ a ∈ all.flatMap (fun r => r.opt), ∃ b ∈ all.flatMap (fun r => r.opt), a ≠ b := by
  unfold optDiffer
  generalize all.flatMap (fun r => r.opt) = vs
  cases vs with
  | nil => simp
  | cons v t =>
    simp only [List.any_eq_true, decide_eq_true_eq]
    refine ⟨fun ⟨x, hx, hne⟩ => ⟨x, List.mem_cons_of_mem _ hx, v, List.mem_cons_self, hne⟩, fun ⟨a, ha, b, hb, hne⟩ => ?_⟩
    rcases List.mem_cons.1 ha with rfl | ha
    · rcases List.mem_cons.1 hb with rfl | hb
      · exact absurd rfl hne
      · exact ⟨b, hb, hne.symm⟩
    · by_cases hav : a = v
      · subst hav
        rcases List.mem_cons.1 hb with rfl | hb
        · exact absurd rfl hne
        · exact ⟨b, hb, hne.symm⟩
      · exact ⟨a, ha, hav⟩

/-- The positions that a set of reports shows lost (R462, R463). -/
theorem State.mem_lostIn (s : State) (all : List Report) (p : Nat) : p ∈ s.lostIn all ↔ p < s.team.seats.length ∧ s.seated p = true ∧
    ((∀ r ∈ all, r.pos ≠ p) ∨ ∃ r, all.find? (fun r => decide (r.pos = p)) = some r ∧ (r.level = 2 ∨ r.level = 3)) := by
  rw [State.lostIn, List.mem_filter, List.mem_range, Bool.and_eq_true]
  refine and_congr_right fun _ => and_congr_right fun _ => ?_
  cases hf : all.find? (fun r => decide (r.pos = p)) with
  | none =>
    have hno : ∀ r ∈ all, r.pos ≠ p := fun r hr => of_decide_eq_false (Bool.eq_false_iff.2 (List.find?_eq_none.1 hf r hr))
    exact ⟨fun _ => .inl hno, fun _ => rfl⟩
  | some r =>
    have hr : r ∈ all ∧ r.pos = p := ⟨List.mem_of_find?_eq_some hf, by have h := List.find?_some hf; exact of_decide_eq_true h⟩
    simp only [Bool.or_eq_true, decide_eq_true_eq]
    refine ⟨fun h => .inr ⟨r, rfl, h⟩, fun h => ?_⟩
    rcases h with h | ⟨x, hx, h⟩
    · exact absurd hr.2 (h r hr.1)
    · obtain rfl := Option.some.inj hx
      exact h

/-- The next tick that a verdict names (R436). -/
theorem State.verdictOf_nextTick (s : State) (all : List Report) {v : Verdict} (hv : v = s.verdictOf all) :
    (s.rd TEAM_STATUS_STATE = 3 → s.rd JOB_STATUS_STATE < 2 → ∀ x, s.frame.fleet = some x → v.nextTick = x.1 ∧ v.seq = some x.2) ∧
    (s.rd TEAM_STATUS_STATE ≠ 3 ∨ 2 ≤ s.rd JOB_STATUS_STATE ∨ s.frame.fleet = none → v.seq = none ∧
      (v.kind ≠ .normal ∨ s.timetableDue = false → v.nextTick = s.frame.tickTime + BitVec.ofNat 64 (s.frameLen * 1024))) := by
  have hnext : v.nextTick = s.adopts.elim (s.frame.tickTime + BitVec.ofNat 64 (s.nextLen (decide (v.kind = .normal) && s.timetableDue) * 1024)) (fun x => x.1) := by
    subst hv
    unfold State.verdictOf
    dsimp only
    cases s.adopts <;> rfl
  have hseq : v.seq = s.adopts.map (fun x => x.2) := by
    subst hv
    rfl
  refine ⟨fun hcoach hidle x hx => ?_, fun hno => ?_⟩
  · have hadopts : s.adopts = some x := (if_pos ⟨decide_eq_true hcoach, hidle⟩).trans hx
    rw [hnext, hseq, hadopts]
    exact ⟨rfl, rfl⟩
  · have hadopts : s.adopts = none := by
      unfold State.adopts
      split
      · next hyes =>
        rcases hno with h | h | h
        · exact absurd (of_decide_eq_true hyes.1) h
        · omega
        · exact h
      · rfl
    rw [hnext, hseq, hadopts]
    refine ⟨rfl, fun hlen => ?_⟩
    have happlies : (decide (v.kind = .normal) && s.timetableDue) = false := by
      rcases hlen with h | h
      · rw [decide_eq_false h, Bool.false_and]
      · rw [h, Bool.and_false]
    rw [happlies]
    rfl

/-- The module leaves service mode where nothing keeps it there (R535). -/
theorem State.serviceEnds_iff (y : State) : y.serviceEnds = true ↔ y.rd MODULE_STATUS_SERVICE = 1 ∧ y.rd MODULE_STATUS_DIE_FAILED = 0 ∧ (∀ i < 6, y.agreed i ≠ 0) ∧
    (y.rd MODULE_STATUS_UNTESTED ≠ 1 ∨ y.rd POLICY_ALLOW_UNTESTED = 1) ∧ y.rd POLICY_HOLD_SERVICE ≠ 1 := by
  simp only [State.serviceEnds, State.flag, Bool.and_eq_true, Bool.or_eq_true, Bool.not_eq_true', decide_eq_true_eq, decide_eq_false_iff_not, List.all_eq_true, List.mem_range, and_assoc]

theorem State.leaveService_spec (y : State) :
    (y.rd MODULE_STATUS_SERVICE ≠ 1 ∨ y.rd MODULE_STATUS_DIE_FAILED ≠ 0 ∨ (∃ i < 6, y.agreed i = 0) ∨ (y.rd MODULE_STATUS_UNTESTED = 1 ∧ y.rd POLICY_ALLOW_UNTESTED ≠ 1) ∨
      y.rd POLICY_HOLD_SERVICE = 1 → y.leaveService = y) ∧
    (y.rd MODULE_STATUS_SERVICE = 1 → y.rd MODULE_STATUS_DIE_FAILED = 0 → (∀ i < 6, y.agreed i ≠ 0) → y.rd MODULE_STATUS_UNTESTED ≠ 1 ∨ y.rd POLICY_ALLOW_UNTESTED = 1 →
      y.rd POLICY_HOLD_SERVICE ≠ 1 → y.leaveService = (y.wr MODULE_STATUS_SERVICE 0).joinTeam) := by
  refine ⟨fun h => if_neg fun hends => ?_, fun h1 h2 h3 h4 h5 => if_pos (y.serviceEnds_iff.2 ⟨h1, h2, h3, h4, h5⟩)⟩
  obtain ⟨h1, h2, h3, h4, h5⟩ := y.serviceEnds_iff.1 hends
  rcases h with h | h | ⟨i, hi, h⟩ | ⟨h, h'⟩ | h
  · exact h h1
  · exact h h2
  · exact h3 i hi h
  · exact h4.elim (fun hne => hne h) h'
  · exact h5 h

section CycleH

/-- The state of cycle H before the frame begins: the F-class writes, the orders and the commits have taken effect (R75). -/
def State.beforeFrame (q : State) (v : Verdict) : State :=
  let s := ((q.latchAll.jobOrders.resumeOrder).withholdUsers q.frame.violated)
  let s := q.frame.violated.foldl (fun s x => s.reinit x) s
  let s := s.commitPhase
  let s := s.modFrame (fun f => { f with split := v.optSplit })
  let s := if v.optSplit then s.coachEvent 146 [(6, s.frameSeq), (1, optMask s.team.reports)] else s
  if v.image ∧ s.job.imageOrder = false then s.orderImage else s

/-- The frame that a verdict gives, once the streams of its Timetable are checked. -/
def State.frameGiven (q : State) (v : Verdict) (no : List Nat) : State :=
  let s := (q.beginFrame v no).applyLost v.lost
  s.upDies.foldl (fun s d => s.bindStreams d) s

/-- The hold ends with what the verdict names (R50, R436, R489). -/
def State.holdEnded (q : State) (v : Verdict) : State :=
  (q.wr LAMP_PWR_TEAM_CAP v.cap).modFrame (fun f =>
    { f with
      tickTime := v.nextTick
      inHold := false
      violated := []
      report := none
      nextSeq := v.seq
      fleetJoined := f.fleetJoined || v.seq.isSome
      fleet := if v.seq.isSome then none else f.fleet })

/-- The bypass opens at the next tick where the verdict says so, and the control cores that wait for the tick go on (R123, R442). -/
def State.woken (q : State) (v : Verdict) : State :=
  let s := if v.openSlot = some q.mySlot then q.modTeam (fun t => { t with opening := true }) else q
  s.upDies.foldl (fun s d => s.wakeControl d) s

variable (q : State) (v : Verdict) (no : List Nat)

theorem State.frameGiven_held : Held (q.beginFrame v no) (q.frameGiven v no) := by
  refine Held.foldl _ _ (State.applyLost_held (Held.refl _) v.lost) fun s d hs => ?_
  refine Held.foldl _ _ hs fun s e hs => ?_
  unfold State.bindStream
  split
  · exact State.modChan_held hs _ _ _
  · exact State.raise_held (State.modChan_held hs _ _ _) _

theorem State.frameGiven_slip : (v.kind = .slip → (q.frameGiven v no).rd FRAME_STATUS_IN_SLIP = 1 ∧ 0 < (q.frameGiven v no).rd FRAME_STATUS_SLIP_RUN) ∧
    (v.kind ≠ .slip → (q.frameGiven v no).rd FRAME_STATUS_IN_SLIP = 0 ∧ (q.frameGiven v no).rd FRAME_STATUS_SLIP_RUN = 0) := by
  have hheld := q.frameGiven_held v no
  rw [hheld.rd_frame FRAME_STATUS_IN_SLIP rfl, hheld.rd_frame FRAME_STATUS_SLIP_RUN rfl]
  exact beginFrame_spec q v no

theorem State.woken_spec : (q.woken v).frame = q.frame ∧ ∀ r, (∀ e p, r ≠ .SEQ_CTRL e p) → (q.woken v).word r = q.word r := by
  have hwoken : ∀ s : State, Woken s (s.upDies.foldl (fun s d => s.wakeControl d) s) := fun s => woken_foldl _ _ wakeControl_woken s
  unfold State.woken
  dsimp only
  split
  · exact ⟨by rw [(hwoken _).rest]; rfl, fun r hr => (hwoken _).regs r hr⟩
  · exact ⟨by rw [(hwoken _).rest], fun r hr => (hwoken _).regs r hr⟩

/-- What cycle H leaves of the frame. -/
theorem State.cycleH_spec {w : State} (hw : w = ((q.frameGiven v no).holdEnded v).woken v) : w.frame.inHold = false ∧ w.frame.violated = [] ∧ w.frame.report = none ∧ w.frame.tickTime = v.nextTick ∧
    w.rd LAMP_PWR_TEAM_CAP = v.cap % 32 ∧ (v.kind = .slip → w.rd FRAME_STATUS_IN_SLIP = 1 ∧ 0 < w.rd FRAME_STATUS_SLIP_RUN) ∧
    (v.kind ≠ .slip → w.rd FRAME_STATUS_IN_SLIP = 0 ∧ w.rd FRAME_STATUS_SLIP_RUN = 0) := by
  obtain ⟨hframe, hregs⟩ := ((q.frameGiven v no).holdEnded v).woken_spec v
  rw [← hw] at hframe hregs
  have hstatus : ∀ f : FRef, f.reg = .FRAME_STATUS → w.rd f = (q.frameGiven v no).rd f := fun f hf =>
    (State.rd_congr (hregs f.reg (by rw [hf]; exact fun _ _ => nofun))).trans (State.rd_wr_ne _ _ (by rw [hf]; exact fun h => nomatch (show RegId.LAMP_PWR = RegId.FRAME_STATUS from h)))
  have hcap : w.rd LAMP_PWR_TEAM_CAP = v.cap % 32 := (State.rd_congr (hregs .LAMP_PWR fun _ _ => nofun)).trans (State.rd_wr_same _ _ _ fle)
  rw [hframe, hstatus FRAME_STATUS_IN_SLIP rfl, hstatus FRAME_STATUS_SLIP_RUN rfl]
  exact ⟨rfl, rfl, rfl, rfl, hcap, q.frameGiven_slip v no⟩

end CycleH

/-- Cycle H: the verdict, the frame it gives, and what follows it. -/
theorem exec_verdictApply_of_hold {s : State} (h : s.frame.inHold = true) {p w y : State} {v : Verdict} (hp : p = s.passTo s.holdCycles) (hv : v = p.verdictNow.2)
    (hw : w = (((p.verdictNow.1.beforeFrame v).frameGiven v (reinitCounters p.verdictNow.1.frame.violated)).holdEnded v).woken v) (hy : y = w.pickup.leaveService) :
    exec .verdictApply s = .next (State.standbyCopy { y with
      team := { y.team with verdict := none, reports := [] }
      job := { y.job with ticksSince := y.job.ticksSince + 1 } }) := by
  subst hp hv hw hy
  exact if_pos h

/-- Settles O34: the arrival of reports and verdicts, the verdict of the reports, and cycle H. -/
theorem verdictsAreSentAndApplyAtCycleH : Obligations.VerdictsAreSentAndApplyAtCycleH := by
  unfold Obligations.VerdictsAreSentAndApplyAtCycleH
  refine ⟨fun s d l f => ⟨fun h => ⟨exec_tickReport_of_refused h, exec_verdict_of_refused h⟩, fun q hq h => ?arrives⟩,
    fun s tag => ⟨s.ofTick_iff tag, fun r h => State.hearReport_of_not h r, fun r y hcoach hnone htick hy => ?heard, fun v h => State.holdVerdict_of_not h v,
      fun v hmember hnone htick => State.holdVerdict_of_held hmember hnone htick v⟩,
    fun s all v hv => ?made, fun s => ⟨fun h => if_neg (by rw [h]; decide), fun h => ?applies⟩, State.leaveService_spec⟩
  case arrives =>
    refine ⟨fun r hr => ?_, fun v hv => ?_, fun r hr => ?_, fun v hv => ?_⟩
    · rw [exec_tickReport_of_accepted hq h, (q.floodIn_spec d l f _).1 hr, if_neg nofun]
    · rw [exec_verdict_of_accepted hq h, (q.floodIn_spec d l f _).1 hv, if_neg nofun]
    · obtain ⟨y, z, hy, hsent, hz, hflood⟩ := (q.floodIn_spec d l f _).2 hr
      exact ⟨y, z, hy, hsent, hz, by rw [exec_tickReport_of_accepted hq h, hflood, if_pos rfl]⟩
    · obtain ⟨y, z, hy, hsent, hz, hflood⟩ := (q.floodIn_spec d l f _).2 hv
      exact ⟨y, z, hy, hsent, hz, by rw [exec_verdict_of_accepted hq h, hflood, if_pos rfl]⟩
  case heard =>
    have hhear := State.hearReport_of_heard hcoach hnone htick hy
    have hin : y.frame.inHold = s.frame.inHold := by rw [hy]
    rw [hin] at hhear
    refine ⟨fun hwait => ?_, fun hhold hall => ?_⟩
    · rw [hhear]
      refine if_neg fun ⟨hhold, hall⟩ => ?_
      rcases hwait with h | ⟨p, hp, hseated, hpos, hno⟩
      · exact Bool.false_ne_true (h.symm.trans hhold)
      · obtain ⟨x, hx, hxp⟩ := y.allHeard_iff.1 hall p hp hseated hpos
        exact hno x hx hxp
    · obtain ⟨v, g, z, hv, hg, hsent, hz, hgather⟩ := y.gather_spec
      exact ⟨v, g, z, hv, hg, hsent, hz, (hhear.trans (if_pos ⟨hhold, y.allHeard_iff.2 hall⟩)).trans hgather⟩
  case made =>
    obtain ⟨hcauses, hcap, hcapAll, hcapOf, hkind⟩ := verdictOf_spec s all v hv
    obtain ⟨hfleet, hown⟩ := s.verdictOf_nextTick all hv
    have hlost : v.lost = s.lostIn all := by rw [hv]; rfl
    exact ⟨hcauses, optDiffer_iff all, hcap, hcapAll, hcapOf, fun p => by rw [hlost]; exact s.mem_lostIn all p, hfleet, hown, hkind⟩
  case applies =>
    obtain ⟨hpass, -⟩ := s.passTo_passes s.holdCycles
    generalize hp : s.passTo s.holdCycles = p at hpass
    obtain ⟨x, v, hnow, hheld, hlost⟩ := verdictNow_spec p
    have hv : v = p.verdictNow.2 := by rw [hnow]
    have hexec := exec_verdictApply_of_hold h hp.symm hv rfl rfl
    obtain ⟨hhold, hviolated, hreport, htick, hcap, hslip, hnoSlip⟩ := State.cycleH_spec (p.verdictNow.1.beforeFrame v) v (reinitCounters p.verdictNow.1.frame.violated) rfl
    generalize (((p.verdictNow.1.beforeFrame v).frameGiven v (reinitCounters p.verdictNow.1.frame.violated)).holdEnded v).woken v = w at *
    obtain ⟨hno, hservice, hgo⟩ := pickup_spec w
    refine ⟨p, w, _, v, hpass, hheld, hlost, fun hnone hcoach => hv.trans ((verdictNow_own p hnone).1 hcoach), fun hnone halone => hv.trans ((verdictNow_own p hnone).2 halone), rfl, hexec,
      hhold, hviolated, hreport, htick, hcap, hslip, hnoSlip, hno, hservice, fun h1 h2 h3 h4 m hm => ⟨(hgo h1 h2 h3 h4 m hm).1, fun hok => ?_⟩⟩
    rw [(hgo h1 h2 h3 h4 m hm).2 hok]
    exact takeManifest_spec w m hok

end Sys2Proof.Machine
end

section
/-! SUPPORT. Orders to the optimiser (R386), its norm check at the tick (R389), and the commit lists of a buddy die (R466). -/

namespace Sys2Proof.Machine

section Orders

variable {s : State} {src : Src} {d : Nat}

/-- An order of `OPT_CTRL` leaves its bits pending, and answers. -/
theorem State.optOrder_spec (h : Reached s src (RegId.OPT_CTRL d).addr) (c : Instr) (lo w v : Nat) : ∃ t : State,
    s.accessWrite src (RegId.OPT_CTRL d).addr c (fun s => s.pendWrite (.OPT_CTRL d) { mask := BitVec.ofNat 64 ((2 ^ w - 1) <<< lo), val := BitVec.ofNat 64 (v <<< lo) }) =
        t.respond src (RegId.OPT_CTRL d).addr [] ∧
      t = { s with pend := t.pend } ∧ (∀ q, q ≠ .OPT_CTRL d → assocGet t.pend q pendNone = assocGet s.pend q pendNone) ∧
      ∀ i < 64, (assocGet t.pend (.OPT_CTRL d) pendNone).mask.getLsbD i = (decide (lo ≤ i ∧ i < lo + w) || (assocGet s.pend (.OPT_CTRL d) pendNone).mask.getLsbD i) ∧
        (assocGet t.pend (.OPT_CTRL d) pendNone).val.getLsbD i = if lo ≤ i ∧ i < lo + w then v.testBit (i - lo) else (assocGet s.pend (.OPT_CTRL d) pendNone).val.getLsbD i :=
  ⟨_, by rw [State.accessWrite, State.access_reached h], State.pendWrite_rest .., fun _ hq => State.pendWrite_ne s _ hq, fun i hi => pendBits s _ lo w v i hi⟩

end Orders

section Norm

variable {s : State} {d : Nat}

/-- Without ARM the tick checks no norm. -/
theorem State.normCheck_idle (h : s.rd (OPT_CTRL_ARM d) = 0) : s.normCheck d = s :=
  if_pos (by rw [State.flag, h]; rfl)

/-- With ARM the check clears it, and decides on the window, HOLD and the norm as they stand. -/
theorem State.normCheck_armed (h : s.rd (OPT_CTRL_ARM d) = 1) : s.normCheck d =
    let z := s.wr (OPT_CTRL_ARM d) 0
    if z.armBarred d then z.optConfig d (.OPT_CTRL d) (s.word (.OPT_CTRL d))
    else if normOk (s.rd (OPT_CTRL_NORMSQ d)) (z.rd (OPT_CFG_LIMITSQ d)) then
      let y := (z.shards d).foldl (fun s e =>
        let v := s.version d e
        (s.setVersion d e (vLive v) false false (vStep v)).modRegion (s.shardField d e 0 2) (fun x => { x with taken := false })) z
      ((y.wr (OPT_STATUS_WINDOW d) 1).wr (OPT_STATUS_PENDING d) 0).modDie d (fun x => { x with twice := false })
    else ((z.wr (OPT_STATUS_SKIPPED d) 1).count (OPT_STATUS_SKIPS d) 1).raise (mkEv 145 d 0xFF 17 0 [(4, s.rd (OPT_CTRL_NORMSQ d)), (6, z.frameSeq)]) :=
  if_neg (by rw [State.flag, h]; nofun)

/-- Clearing ARM leaves what bars it. -/
theorem State.armBarred_disarmed : (s.wr (OPT_CTRL_ARM d) 0).armBarred d = true ↔ s.rd (OPT_STATUS_WINDOW d) ≠ 0 ∨ s.rd (OPT_CTRL_HOLD d) = 1 := by
  have hwindow : (s.wr (OPT_CTRL_ARM d) 0).rd (OPT_STATUS_WINDOW d) = s.rd (OPT_STATUS_WINDOW d) := State.rd_congr (State.word_wr_ne _ _ (by nofun))
  have hhold : (s.wr (OPT_CTRL_ARM d) 0).rd (OPT_CTRL_HOLD d) = s.rd (OPT_CTRL_HOLD d) := State.rd_wr_other _ _ _ _ fle fun _ => .inr fle
  rw [State.armBarred, State.flag, hwindow, hhold, Bool.or_eq_true, decide_eq_true_eq, decide_eq_true_eq]

/-- The norm lets the step update: a finite number that is negative or not above the limit. -/
theorem normOk_iff {n limit : Nat} : normOk n limit = true ↔ n % 2 ^ 31 < 2139095040 ∧ (2 ^ 31 ≤ n ∨ n ≤ limit) := by
  rw [normOk, Bool.and_eq_true, Bool.or_eq_true, decide_eq_true_eq, decide_eq_true_eq, decide_eq_true_eq]

/-- Opening the window sets versions and regions, and no register. -/
theorem State.openShards_word (es : List Nat) (z : State) (r : RegId) : (es.foldl (fun s e =>
    let v := s.version d e
    (s.setVersion d e (vLive v) false false (vStep v)).modRegion (s.shardField d e 0 2) (fun x => { x with taken := false })) z).word r = z.word r := by
  induction es generalizing z with
  | nil => rfl
  | cons e es ih =>
    rw [List.foldl_cons, ih]
    dsimp only
    rw [State.word_modRegion, State.setVersion, State.word_setBytes]

/-- The words of an update window that opens. -/
theorem State.windowOpened_spec {y z : State} (hword : ∀ r, y.word r = z.word r) :
    let t := ((y.wr (OPT_STATUS_WINDOW d) 1).wr (OPT_STATUS_PENDING d) 0).modDie d (fun x => { x with twice := false })
    t.rd (OPT_STATUS_WINDOW d) = 1 ∧ t.rd (OPT_STATUS_PENDING d) = 0 ∧ t.rd (OPT_CTRL_ARM d) = z.rd (OPT_CTRL_ARM d) ∧
      t.rd (OPT_STATUS_SKIPS d) = z.rd (OPT_STATUS_SKIPS d) := by
  refine ⟨?_, State.rd_wr_same _ _ _ fle, ?_, ?_⟩
  · exact (State.rd_wr_other _ _ _ _ fle fun _ => .inl fle).trans (State.rd_wr_same _ _ _ fle)
  · exact State.rd_congr ((State.word_wr_ne _ _ (by nofun)).trans ((State.word_wr_ne _ _ (by nofun)).trans (hword _)))
  · exact (State.rd_wr_other _ _ _ _ fle fun _ => .inr fle).trans ((State.rd_wr_other _ _ _ _ fle fun _ => .inr fle).trans (State.rd_congr (hword _)))

/-- A step that is skipped: SKIPPED is set and SKIPS counts, saturating. -/
theorem State.stepSkipped_spec (hwindow : s.rd (OPT_STATUS_WINDOW d) = 0) :
    let u := ((s.wr (OPT_CTRL_ARM d) 0).wr (OPT_STATUS_SKIPPED d) 1).count (OPT_STATUS_SKIPS d) 1
    u = { s with regs := u.regs } ∧ u.rd (OPT_STATUS_SKIPPED d) = 1 ∧ u.rd (OPT_STATUS_SKIPS d) = min (s.rd (OPT_STATUS_SKIPS d) + 1) (2 ^ 32 - 1) ∧
      u.rd (OPT_STATUS_WINDOW d) = 0 ∧ u.rd (OPT_CTRL_ARM d) = 0 ∧ (∀ r, r ≠ .OPT_CTRL d → r ≠ .OPT_STATUS d → u.word r = s.word r) := by
  have hskips : ((s.wr (OPT_CTRL_ARM d) 0).wr (OPT_STATUS_SKIPPED d) 1).rd (OPT_STATUS_SKIPS d) = s.rd (OPT_STATUS_SKIPS d) :=
    (State.rd_wr_other _ _ _ _ fle fun _ => .inr fle).trans (State.rd_congr (State.word_wr_ne _ _ (by nofun)))
  refine ⟨rfl, ?_, ?_, ?_, ?_, fun r hctrl hstatus => ?_⟩
  · exact (State.rd_wr_other _ _ _ _ fle fun _ => .inl fle).trans (State.rd_wr_same _ _ _ fle)
  · rw [State.rd_count_same _ _ _ fle, hskips]
    rfl
  · exact (State.rd_wr_other _ _ _ _ fle fun _ => .inl fle).trans ((State.rd_wr_other _ _ _ _ fle fun _ => .inl fle).trans
      ((State.rd_congr (State.word_wr_ne _ _ (by nofun))).trans hwindow))
  · exact (State.rd_congr ((State.word_count_ne _ _ (by nofun)).trans (State.word_wr_ne _ _ (by nofun)))).trans (State.rd_wr_same _ _ _ fle)
  · exact (State.word_count_ne _ _ (Ne.symm hstatus)).trans ((State.word_wr_ne _ _ (Ne.symm hstatus)).trans (State.word_wr_ne _ _ (Ne.symm hctrl)))

end Norm

/-- A die whose mirror flips and is current again (R466). -/
theorem State.mirrorFlipped_spec (s : State) (d : Nat) (rs : List Nat) :
    let t := ((s.flipMirror d rs).wr (MIRROR_STATUS_CURRENT d) 1).modDie d (fun y => { y with commitHeld := false })
    t.rd (MIRROR_STATUS_CURRENT d) = 1 ∧ (t.die d).commitHeld = false ∧ (∀ e, e ≠ d → t.die e = s.die e) ∧
      (rs.Nodup → ∀ r, tabGet (t.die d).mirrorLive r false = if r ∈ rs then !tabGet (s.die d).mirrorLive r false else tabGet (s.die d).mirrorLive r false) ∧
      (∀ q, q ≠ .MIRROR_STATUS d → t.word q = s.word q) ∧ t = { s with dies := t.dies, regs := t.regs } := by
  intro t
  have hflip : (s.flipMirror d rs).die d = { s.die d with mirrorLive := rs.foldl (fun t r => tabSet t r (!tabGet t r false)) (s.die d).mirrorLive } := State.die_modDie_same ..
  have hdie : t.die d = { (s.flipMirror d rs).die d with commitHeld := false } := State.die_modDie_same ..
  refine ⟨State.rd_wr_same _ _ _ fle, by rw [hdie], fun e he => ?_, fun hn r => ?_, fun q hq => State.word_wr_ne (f := MIRROR_STATUS_CURRENT d) _ _ (Ne.symm hq), rfl⟩
  · exact (State.die_modDie_ne _ _ (Ne.symm he)).trans (show (s.flipMirror d rs).die e = s.die e from State.die_modDie_ne s _ (Ne.symm he))
  · rw [hdie, hflip]
    exact foldl_flip rs _ hn r

/-- Settles O37: the orders are pending writes, the norm check is cut by what bars it and by the norm, and a commit list by the hold. -/
theorem optimiserOrdersWaitAndCommitListsFlipMirrors : Obligations.OptimiserOrdersWaitAndCommitListsFlipMirrors := by
  unfold Obligations.OptimiserOrdersWaitAndCommitListsFlipMirrors
  refine ⟨fun s src d n h p hr hp e he => ?order, fun s d n hn => ⟨State.normCheck_idle, fun harm hbar => ?barred, fun harm hwindow hhold => ⟨fun hbad => ?skip, fun hfinite hlimit => ?opened⟩⟩,
    fun s d f rs => ⟨fun hidle => ?idle, fun hup hhold hf => ?held, fun hup hlate hheld => ?late⟩⟩
  case order =>
    simp only [List.mem_cons, List.not_mem_nil, or_false] at he
    subst hp
    rcases he with rfl | rfl | rfl
    · obtain ⟨t, ht, hspec⟩ := State.optOrder_spec hr (.optArm src d n) 0 33 (n.toNat + 2 ^ 32)
      exact ⟨t, congrArg _ ht, hspec⟩
    · obtain ⟨t, ht, hspec⟩ := State.optOrder_spec hr (.optClose src d) 33 1 1
      exact ⟨t, congrArg _ ht, hspec⟩
    · obtain ⟨t, ht, hspec⟩ := State.optOrder_spec hr (.optHold src d h) 34 1 (if h then 1 else 0)
      refine ⟨t, Eq.trans ?_ (congrArg _ ht), hspec⟩
      cases h <;> rfl
  case barred =>
    rw [State.normCheck_armed harm]
    dsimp only
    rw [if_pos (State.armBarred_disarmed.2 hbar)]
    rfl
  case skip =>
    have hfree : ¬(s.wr (OPT_CTRL_ARM d) 0).armBarred d = true := fun hb => (State.armBarred_disarmed.1 hb).elim (absurd hwindow) (by rw [hhold]; nofun)
    have hlimit : (s.wr (OPT_CTRL_ARM d) 0).rd (OPT_CFG_LIMITSQ d) = s.rd (OPT_CFG_LIMITSQ d) := State.rd_congr (State.word_wr_ne _ _ (by nofun))
    have hseq : (s.wr (OPT_CTRL_ARM d) 0).frameSeq = s.frameSeq := State.rd_congr (State.word_wr_ne _ _ (by nofun))
    refine ⟨_, ?_, State.stepSkipped_spec hwindow⟩
    rw [State.normCheck_armed harm]
    dsimp only
    rw [if_neg hfree, hlimit, if_neg (fun hok => ?_), hseq, hn]
    have := normOk_iff.1 hok
    omega
  case opened =>
    have hfree : ¬(s.wr (OPT_CTRL_ARM d) 0).armBarred d = true := fun hb => (State.armBarred_disarmed.1 hb).elim (absurd hwindow) (by rw [hhold]; nofun)
    have hcfg : (s.wr (OPT_CTRL_ARM d) 0).rd (OPT_CFG_LIMITSQ d) = s.rd (OPT_CFG_LIMITSQ d) := State.rd_congr (State.word_wr_ne _ _ (by nofun))
    subst hn
    rw [State.normCheck_armed harm]
    dsimp only
    rw [if_neg hfree, hcfg, if_pos (normOk_iff.2 ⟨hfinite, hlimit⟩)]
    obtain ⟨hopen, hpending, harmed, hskips⟩ := State.windowOpened_spec (d := d) (State.openShards_word ((s.wr (OPT_CTRL_ARM d) 0).shards d) (s.wr (OPT_CTRL_ARM d) 0))
    exact ⟨hopen, hpending, harmed.trans (State.rd_wr_same _ _ _ fle), hskips.trans (State.rd_congr (State.word_wr_ne _ _ (by nofun)))⟩
  case idle =>
    show execCommitList d f rs s = _
    unfold execCommitList
    cases hup : s.dieUp d
    · rfl
    · obtain ⟨hlate, hheld⟩ := hidle.resolve_left (by rw [hup]; nofun)
      rw [if_neg nofun, if_neg fun hh => hlate.elim (by rw [hh.1]; nofun) (absurd hh.2), hheld]
      rfl
  case held =>
    refine ⟨_, (if_neg (by rw [hup]; nofun)).trans (if_pos ⟨hhold, hf⟩), State.die_modDie_same .., fun e he => State.die_modDie_ne s _ (Ne.symm he), rfl⟩
  case late =>
    have hout : ¬(s.frame.inHold = true ∧ f = s.frameSeq) := fun hh => hlate.elim (by rw [hh.1]; nofun) (absurd hh.2)
    exact ⟨_, (if_neg (by rw [hup]; nofun)).trans ((if_neg hout).trans (if_pos hheld)), s.mirrorFlipped_spec d rs⟩

end Sys2Proof.Machine
end

section
/-! SUPPORT. What a state image and a restore leave alone (R394, R469, R473). -/

namespace Sys2Proof.Machine

/-- A state that differs only in memory and in what OPT_STATUS holds: what the version tables and their count of pending shards change. -/
structure VersionsOnly (s t : State) : Prop where
  rest : t = { s with mem := t.mem, undef := t.undef, regs := t.regs }
  word : ∀ r, (∀ d, r ≠ .OPT_STATUS d) → t.word r = s.word r

theorem VersionsOnly.refl (s : State) : VersionsOnly s s := ⟨rfl, fun _ _ => rfl⟩

theorem VersionsOnly.trans {s t u : State} (h : VersionsOnly s t) (h' : VersionsOnly t u) : VersionsOnly s u :=
  ⟨by rw [h'.rest, h.rest], fun r hr => (h'.word r hr).trans (h.word r hr)⟩

theorem VersionsOnly.foldl {α : Type} {g : State → α → State} (hg : ∀ s x, VersionsOnly s (g s x)) (xs : List α) (s : State) :
    VersionsOnly s (xs.foldl g s) := by
  induction xs generalizing s with
  | nil => exact VersionsOnly.refl s
  | cons x xs ih => exact (hg s x).trans (ih _)

theorem State.setVersion_versions (s : State) (d e : Nat) (live flip pend : Bool) (step : Nat) : VersionsOnly s (s.setVersion d e live flip pend step) where
  rest := by
    rw [State.setVersion, State.setBytes_rest]
  word _ _ := State.word_setBytes ..

theorem State.refreshLive_versions (s : State) (d : Nat) : VersionsOnly s (s.refreshLive d) :=
  VersionsOnly.foldl (fun _ _ => State.setVersion_versions ..) _ s

theorem State.restoreShard_none {s : State} {x : Nat × Nat × Bool} (h : s.shardOf (s.region x.1).die x.1 = none) : s.restoreShard x = s := by
  unfold State.restoreShard
  dsimp only
  rw [h]

theorem State.restoreShard_some {s : State} {x : Nat × Nat × Bool} {e d : Nat} (hd : d = (s.region x.1).die) (h : s.shardOf d x.1 = some e) :
    s.restoreShard x =
      let y := s.setVersion d e (s.region x.1).live false x.2.2 x.2.1
      y.wr (OPT_STATUS_PENDING d) ((y.shards d).filter (fun e => vPend (y.version d e))).length := by
  subst hd
  unfold State.restoreShard
  dsimp only
  rw [h]

theorem State.restoreShard_versions (s : State) (x : Nat × Nat × Bool) : VersionsOnly s (s.restoreShard x) := by
  cases h : s.shardOf (s.region x.1).die x.1 with
  | none =>
    rw [State.restoreShard_none h]
    exact VersionsOnly.refl s
  | some e =>
    rw [State.restoreShard_some rfl h]
    exact (State.setVersion_versions ..).trans ⟨rfl, fun r hr => State.word_wr_ne _ _ (Ne.symm (hr _))⟩

/-- A spare that has its regions learns none. -/
theorem State.loadRegions_known {s : State} (h : s.regions ≠ []) : s.loadRegions = s := if_pos h

/-- A spare learns the regions that a good manifest lists. -/
theorem State.loadRegions_spec {s : State} {m : Manifest} (h : s.regions = []) (hm : m = s.manifest (s.rd JOB_SUBMIT_MANIFEST_ADDR)) (hok : s.accessOk m.at_ 64 = true)
    (hlow : 1 ≤ m.nRegions) (hhigh : m.nRegions ≤ 65536) :
    s.loadRegions.regions = (List.range m.nRegions).map (fun i => (i, s.regionEntry m i)) ∧ s.loadRegions.job.owner = m.owner ∧ s.loadRegions.job.nRegions = m.nRegions := by
  subst hm
  have hgood : ¬(s.accessOk (s.manifest (s.rd JOB_SUBMIT_MANIFEST_ADDR)).at_ 64 = false ∨ (s.manifest (s.rd JOB_SUBMIT_MANIFEST_ADDR)).nRegions = 0 ∨
      65536 < (s.manifest (s.rd JOB_SUBMIT_MANIFEST_ADDR)).nRegions) := by
    rw [hok]
    simp only [Bool.true_eq_false, false_or]
    omega
  unfold State.loadRegions
  rw [if_neg (not_not_intro h)]
  dsimp only
  rw [if_neg hgood]
  exact ⟨rfl, rfl, rfl⟩

/-- Loading regions changes no register. -/
theorem State.loadRegions_word (s : State) (r : RegId) : s.loadRegions.word r = s.word r := by
  unfold State.loadRegions
  dsimp only
  split
  · rfl
  · split <;> rfl

/-- Nor does it change the dies of the module. -/
theorem State.loadRegions_dieList (s : State) : s.loadRegions.dieList = s.dieList := by
  unfold State.loadRegions
  dsimp only
  split
  · rfl
  · split <;> rfl

/-- The live bits that a restore gives its regions. -/
def State.livesSet (s : State) (lives : List (Nat × Bool)) : State :=
  lives.foldl (fun s x => s.modRegion x.1 (fun r => { r with live := x.2, prev := x.2, named := false, withheld := false, kept := false, waived := false, done := 0 })) s

/-- The live bits that a restore gives its mirrors. -/
def State.mirrorsSet (s : State) (mirrors : List (Nat × Bool)) : State :=
  mirrors.foldl (fun s x => s.modDie (s.region x.1).die (fun y => { y with mirrorLive := tabSet y.mirrorLive x.1 x.2 })) s

/-- What a restore sets before its version tables. -/
theorem State.copiesSet_spec (v : State) (lives mirrors : List (Nat × Bool)) : let w := (v.livesSet lives).mirrorsSet mirrors
    w = { v with regions := w.regions, dies := w.dies } ∧
      ((lives.map (fun x => x.1)).Nodup → ∀ x ∈ lives, w.region x.1 = { v.region x.1 with live := x.2, prev := x.2, named := false, withheld := false, kept := false, waived := false, done := 0 }) ∧
      (∀ r, (∀ x ∈ lives, x.1 ≠ r) → w.region r = v.region r) ∧
      ((mirrors.map (fun x => x.1)).Nodup → ∀ x ∈ mirrors, tabGet (w.die (w.region x.1).die).mirrorLive x.1 false = x.2) := by
  intro w
  obtain ⟨hlives, hother, hset⟩ := foldl_lives_spec lives v
  obtain ⟨hmirrors, -, hmirror⟩ := foldl_mirrors_spec mirrors (v.livesSet lives)
  have hw : w = { v.livesSet lives with dies := w.dies } := hmirrors
  have hlive : v.livesSet lives = { v with regions := (v.livesSet lives).regions } := hlives
  have hregion : ∀ r, w.region r = (v.livesSet lives).region r := fun r => by rw [hw]; rfl
  refine ⟨?_, fun hn x hx => (hregion _).trans (hset hn x hx), fun r hr => (hregion _).trans (hother r hr), hmirror⟩
  have hwregions : w.regions = (v.livesSet lives).regions := by rw [hw]
  rw [hwregions]
  exact hw.trans (by rw [hlive])

section Images

variable {s : State}

/-- Without a snapshot to write, or with one that is written, IMAGE_DONE changes nothing. -/
theorem exec_imageDone_idle (h : s.job.snap = none ∨ s.rd IMAGE_STATUS_BUSY = 0 ∨ s.job.imageAt ≠ []) : exec .imageDone s = .next s := by
  show execImageDone s = _
  unfold execImageDone
  cases hz : s.job.snap with
  | none => rfl
  | some z =>
    rw [hz] at h
    refine if_pos (h.resolve_left nofun |>.imp_left fun hb => ?_)
    rw [State.flag, hb]
    rfl

/-- The image of every die that serves is written, and IMAGE_STATUS says so. -/
theorem exec_imageDone {z : Snap} (hz : s.job.snap = some z) (hbusy : s.rd IMAGE_STATUS_BUSY = 1) (hat : s.job.imageAt = []) : exec .imageDone s =
    let s := (s.dieList.filter s.dieUp).foldl (fun s d => s.writeImage d z.seq) s
    let s := ((s.wr IMAGE_STATUS_SEQ z.seq).wr IMAGE_STATUS_VALID 1).wr IMAGE_STATUS_BUSY 0
    .next ((s.raiseLead 18 17 [(6, z.seq), (4, (Config.freeWord s.fresh).toNat)]).used 1) := by
  show execImageDone s = _
  unfold execImageDone
  rw [hz]
  refine if_neg fun h => h.elim (fun hflag => ?_) (absurd hat)
  rw [State.flag, hbusy] at hflag
  exact nomatch hflag

/-- What IMAGE_STATUS holds of an image that is done. -/
theorem State.imageStatus_spec (v : State) (seq : Nat) : let u := ((v.wr IMAGE_STATUS_SEQ seq).wr IMAGE_STATUS_VALID 1).wr IMAGE_STATUS_BUSY 0
    u = { v with regs := u.regs } ∧ u.rd IMAGE_STATUS_SEQ = seq % 2 ^ 48 ∧ u.rd IMAGE_STATUS_VALID = 1 ∧ u.rd IMAGE_STATUS_BUSY = 0 ∧
      (∀ r, r ≠ .IMAGE_STATUS → u.word r = v.word r) ∧ ∀ a, u.byteAt a = v.byteAt a := by
  refine ⟨rfl, ?_, ?_, State.rd_wr_same _ _ _ fle, fun r hr => ?_, fun a => ?_⟩
  · exact (State.rd_wr_other _ _ _ _ fle fun _ => .inl fle).trans ((State.rd_wr_other _ _ _ _ fle fun _ => .inl fle).trans (State.rd_wr_same _ _ _ fle))
  · exact (State.rd_wr_other _ _ _ _ fle fun _ => .inl fle).trans (State.rd_wr_same _ _ _ fle)
  · exact (State.word_wr_ne _ _ hr.symm).trans ((State.word_wr_ne _ _ hr.symm).trans (State.word_wr_ne _ _ hr.symm))
  · exact (State.byteAt_wr _ rfl _ a).trans ((State.byteAt_wr _ rfl _ a).trans (State.byteAt_wr _ rfl _ a))

end Images

section Restores

variable {s : State} {lives : List (Nat × Bool)} {steps : List (Nat × Nat × Bool)} {mirrors : List (Nat × Bool)} {bytes ms : Nat}

/-- Without a restore, or on a module that is no spare, RESTORE_DONE changes nothing. -/
theorem exec_restoreDone_idle (h : s.job.restoring = false ∨ s.rd TEAM_CFG_SPARE = 0) : exec (.restoreDone ⟨lives, steps⟩ mirrors bytes ms) s = .next s :=
  if_pos (h.imp_right fun hspare => by rw [State.flag, hspare]; rfl)

/-- The restored versions, once the live bits are set. -/
def State.versionsSet (s : State) (dies : List Nat) (steps : List (Nat × Nat × Bool)) : State :=
  steps.foldl (fun s x => s.restoreShard x) (dies.foldl (fun s d => s.refreshLive d) s)

theorem State.versionsSet_versions (s : State) (dies : List Nat) (steps : List (Nat × Nat × Bool)) : VersionsOnly s (s.versionsSet dies steps) :=
  (VersionsOnly.foldl (fun s d => s.refreshLive_versions d) dies s).trans (VersionsOnly.foldl (fun s x => s.restoreShard_versions x) steps _)

/-- A spare that has its copies sets them, and asks to resume. -/
theorem exec_restoreDone (hrestoring : s.job.restoring = true) (hspare : s.rd TEAM_CFG_SPARE = 1) : exec (.restoreDone ⟨lives, steps⟩ mirrors bytes ms) s =
    let w := (s.loadRegions.livesSet lives).mirrorsSet mirrors
    let u := w.versionsSet w.dieList steps
    .next (State.raiseLead { u with job := { u.job with restoring := false, resume := true } } 180 17 [(1, u.rd TEAM_STATUS_POS), (6, bytes), (4, ms)]) := by
  refine if_neg fun h => h.elim (by rw [hrestoring]; nofun) fun hflag => ?_
  rw [State.flag, hspare] at hflag
  exact nomatch hflag

end Restores

/-- Settles O36: images by `foldl_writeImage_spec` and `writeImage_header`, a restore by the live bits it sets and the versions it restores. -/
theorem imagesAreDoneAndSparesRestored : Obligations.ImagesAreDoneAndSparesRestored := by
  unfold Obligations.ImagesAreDoneAndSparesRestored
  refine fun s => ⟨exec_imageDone_idle, fun z hz hbusy hat => ?image, fun d seq a ha h0 hr w hw => writeImage_header s d seq a ha h0 hr w hw,
    fun lives mirrors steps bytes ms => ⟨exec_restoreDone_idle, fun hrestoring hspare => ?restore⟩, fun d e live flip pend step => rfl, fun d e hshards => ?refresh,
    fun r step pend => ⟨State.restoreShard_none (x := (r, step, pend)), fun e d y hd he hy => ?shard⟩⟩
  case image =>
    have hexec := exec_imageDone hz hbusy hat
    obtain ⟨hrest, hmem⟩ := foldl_writeImage_spec z.seq (fun s d => s.writeImage d z.seq) (fun s d => writeImage_spec s d z.seq) (s.dieList.filter s.dieUp) s
    generalize hv : (s.dieList.filter s.dieUp).foldl (fun s d => s.writeImage d z.seq) s = v at hexec hrest hmem
    obtain ⟨hregs, hseq, hvalid, hdone, hword, hbytes⟩ := v.imageStatus_spec z.seq
    refine ⟨_, v, rfl, hrest, hregs, hseq, hvalid, hdone, fun r hr => (hword r hr).trans ?_, hbytes, fun y hy => (hbytes y).trans (hmem y fun d hd => ?_), hexec⟩
    · rw [hrest]
      rfl
    · obtain ⟨hin, hup⟩ := List.mem_filter.1 hd
      exact hy d hin hup
  case restore =>
    obtain ⟨hw, hset, hother, hmirror⟩ := State.copiesSet_spec s.loadRegions lives mirrors
    have hversions := State.versionsSet_versions ((s.loadRegions.livesSet lives).mirrorsSet mirrors) s.dieList steps
    have hdies : ((s.loadRegions.livesSet lives).mirrorsSet mirrors).dieList = s.dieList := by
      rw [hw]
      exact State.loadRegions_dieList s
    have hpos : (((s.loadRegions.livesSet lives).mirrorsSet mirrors).versionsSet s.dieList steps).rd TEAM_STATUS_POS = s.rd TEAM_STATUS_POS := by
      refine State.rd_congr ((hversions.word _ (by nofun)).trans ?_)
      rw [hw]
      exact State.loadRegions_word s _
    refine ⟨_, _, _, rfl, State.loadRegions_known, fun hnil m hm hok hlow hhigh => State.loadRegions_spec hnil hm hok hlow hhigh, ?_, rfl, hw, hset, hother, hmirror,
      hversions.rest, hversions.word⟩
    rw [exec_restoreDone hrestoring hspare]
    dsimp only
    rw [hdies, hpos]
    rfl
  case refresh =>
    unfold State.refreshLive
    rw [hshards]
    rfl
  case shard =>
    subst hy
    exact State.restoreShard_some (x := (r, step, pend)) hd he

end Sys2Proof.Machine
end

section
/-! SUPPORT. The comparison of replica digests (R403 to R406): what a report does to the bisection of its shard, and which copies are bad and good. -/

namespace Sys2Proof.Machine

section Replicas

variable {rs : List RootReport} {g : BitVec 64}

/-- Among three or more replicas the bad ones are those that differ from the majority. -/
theorem mem_badReplicas_of_majority {i : Nat} (h : 3 ≤ rs.length) (hg : majority rs = some g) : i ∈ badReplicas rs ↔ ∃ r ∈ rs, r.replica = i ∧ r.digest ≠ g := by
  rw [badReplicas, if_pos h, hg]
  simp only [List.mem_map, List.mem_filter, decide_eq_true_eq]
  exact ⟨fun ⟨r, ⟨hr, hd⟩, hi⟩ => ⟨r, hr, hi, hd⟩, fun ⟨r, hr, hi, hd⟩ => ⟨r, ⟨hr, hd⟩, hi⟩⟩

/-- Among three or more replicas without a majority none is bad. -/
theorem badReplicas_of_split (h : 3 ≤ rs.length) (hg : majority rs = none) : badReplicas rs = [] := by
  rw [badReplicas, if_pos h, hg]

/-- Of two replicas the bad ones are those that differ from their mirror. -/
theorem mem_badReplicas_of_pair {i : Nat} (h : rs.length < 3) : i ∈ badReplicas rs ↔ ∃ r ∈ rs, r.replica = i ∧ r.digest ≠ r.mirror := by
  rw [badReplicas, if_neg (by omega)]
  simp only [List.mem_map, List.mem_filter, decide_eq_true_eq]
  exact ⟨fun ⟨r, ⟨hr, hd⟩, hi⟩ => ⟨r, hr, hi, hd⟩, fun ⟨r, hr, hi, hd⟩ => ⟨r, ⟨hr, hd⟩, hi⟩⟩

/-- A digest that more than half of the replicas hold is held by one of them. -/
theorem exists_digest_of_majority (h : rs.length < 2 * (rs.filter (fun x => decide (x.digest = g))).length) : ∃ r ∈ rs, r.digest = g := by
  obtain ⟨r, hr⟩ := List.exists_mem_of_length_pos (l := rs.filter (fun x => decide (x.digest = g))) (by omega)
  exact ⟨r, (List.mem_filter.1 hr).1, of_decide_eq_true (List.mem_filter.1 hr).2⟩

/-- With a majority the good copy is that of a replica that holds it. -/
theorem goodCopy_of_majority (h : 3 ≤ rs.length) (hg : rs.length < 2 * (rs.filter (fun x => decide (x.digest = g))).length) (i : Nat) :
    ∃ r ∈ rs, r.digest = g ∧ goodCopy rs i = (r.replica, false) := by
  have hmajority := majority_some rs g hg
  obtain ⟨x, hx, hxg⟩ := exists_digest_of_majority hg
  cases hfind : rs.find? (fun x => decide (some x.digest = majority rs)) with
  | none => exact absurd (decide_eq_true (by rw [hmajority, hxg])) (List.find?_eq_none.1 hfind x hx)
  | some r =>
    have hr : some r.digest = some g := by
      have hfound := List.find?_some hfind
      rwa [decide_eq_true_eq, hmajority] at hfound
    refine ⟨r, List.mem_of_find?_eq_some hfind, Option.some.inj hr, ?_⟩
    rw [goodCopy, if_pos h, hfind, hmajority]

/-- Of two replicas the good copy is the mirror of the bad one. -/
theorem goodCopy_of_pair (h : rs.length < 3) (i : Nat) : goodCopy rs i = (i, true) := if_neg (by omega)

end Replicas

/-- The Coachman is the module whose team state says so. -/
theorem State.isCoach_iff (s : State) : s.isCoach = true ↔ s.rd TEAM_STATUS_STATE = 3 := decide_eq_true_iff

/-- An event raised before leaves a bisection as it would be set. -/
theorem State.setBisection_raise (s : State) (e : Ev) (shard : Nat) (b : Option (Nat × Nat × List Nat)) :
    (s.raise e).setBisection shard b = { s.raise e with team := (s.setBisection shard b).team } := by
  have hteam : (s.raise e).team = s.team := by rw [(State.raise_raised (Raised.refl s) e).rest]
  unfold State.setBisection
  rw [hteam]

section Reports

variable {s : State} {shard level : Nat} {rs : List RootReport}

/-- A report to a module that is no Coachman changes nothing. -/
theorem exec_digest_idle (h : s.rd TEAM_STATUS_STATE ≠ 3) : exec (.digestRootReport shard level rs) s = .next s :=
  if_pos (decide_eq_false h)

/-- The roots of a shard, of which those of the latest step are judged. -/
theorem exec_digest_roots {m : Nat} {same : List RootReport} (h : s.rd TEAM_STATUS_STATE = 3) (hle : ∀ r ∈ rs, r.step ≤ m) (hm : ∃ r ∈ rs, r.step = m)
    (hsame : same = rs.filter (fun r => decide (r.step = m))) : exec (.digestRootReport shard 3 rs) s =
      if s.unrepaired shard same ≠ [] then .next (((s.unrepaired shard same).foldl (fun s r => s.send (.escalate shard r)) (s.repairsJudged shard)).setBisection shard none)
      else if digestsDiffer same then .next (((s.repairsJudged shard).raiseLead 149 24 [(4, shard), (6, m)]).setBisection shard (some (3, m, [0])))
      else .next ((s.repairsJudged shard).setBisection shard none) := by
  show execDigestRootReport shard 3 rs s = _
  unfold execDigestRootReport
  rw [if_neg (by rw [s.isCoach_iff.2 h]; nofun), if_pos rfl, foldl_max_step rs m hle hm, hsame]

/-- The bisection that a report below the roots leaves. -/
def nextBisection (level m : Nat) (rs : List RootReport) : Option (Nat × Nat × List Nat) :=
  if rs.any (fun r => decide (r.step ≠ m)) = true ∨ level = 0 ∨ differing rs = [] then none else some (level, m, differing rs)

/-- A report below the roots, where a bisection stands. -/
theorem exec_digest_nodes {l m : Nat} {ns : List Nat} (h : s.rd TEAM_STATUS_STATE = 3) (hlevel : level < 3) (hb : s.bisection shard = some (l, m, ns)) :
    exec (.digestRootReport shard level rs) s =
      if l ≠ level + 1 then .next s
      else if rs.any (fun r => decide (r.step ≠ m)) then .next (s.setBisection shard none)
      else if level = 0 then
        .next ((differing rs).foldl (fun s b => s.judgeBlock shard (b + 1) (rs.filter (fun r => decide (r.index = b)))) (s.setBisection shard none))
      else .next (s.setBisection shard (if differing rs = [] then none else some (level, m, differing rs))) := by
  show execDigestRootReport shard level rs s = _
  unfold execDigestRootReport
  rw [if_neg (by rw [s.isCoach_iff.2 h]; nofun), if_neg (by omega), hb]

/-- The reports all carry the step of the bisection, or one does not. -/
theorem any_step_ne {m : Nat} : rs.any (fun r => decide (r.step ≠ m)) = true ↔ ∃ r ∈ rs, r.step ≠ m := by
  simp only [List.any_eq_true, decide_eq_true_eq]

end Reports

/-- Settles O38: `exec_digest_roots` at level 3, `exec_digest_nodes` below it, and the copies by the majority. -/
theorem digestsThatDifferAreBisectedAndRepaired : Obligations.DigestsThatDifferAreBisectedAndRepaired := by
  unfold Obligations.DigestsThatDifferAreBisectedAndRepaired
  refine ⟨fun s shard level rs h => exec_digest_idle h, fun s shard rs same m h hle hm hsame => ?roots,
    fun s shard level rs l m ns h hlevel hb => ⟨fun hl => (exec_digest_nodes h hlevel hb).trans (if_pos hl), fun hl => ?nodes⟩, fun s shard block rs => ?copies⟩
  case roots =>
    have hexec := exec_digest_roots (shard := shard) h hle hm hsame
    let b := if s.unrepaired shard same = [] ∧ digestsDiffer same = true then some (3, m, [0]) else none
    have hset : ((s.repairsJudged shard).setBisection shard b).bisection shard = b := bisection_set_same ..
    refine ⟨(s.repairsJudged shard).setBisection shard b, s.unrepaired shard same, rfl, fun x hx => bisection_set_ne _ _ _ _ hx, fun i => mem_unrepaired s shard same i,
      fun hne => ?_, fun hnil hagree => ?_, fun hnil hdiffer => ?_⟩
    · have hb : b = none := if_neg fun hb => hne hb.1
      rw [hb] at hset ⊢
      refine ⟨?_, hset⟩
      rw [hexec, if_pos hne, foldl_send_escalate]
      rfl
    · have hsame : ¬digestsDiffer same = true := fun hd => by
        obtain ⟨x, hx, y, hy, hxy⟩ := (digestsDiffer_iff same).1 hd
        exact hxy (hagree x hx y hy)
      have hb : b = none := if_neg fun hb => hsame hb.2
      rw [hb] at hset ⊢
      exact ⟨hexec.trans ((if_neg (not_not_intro hnil)).trans (if_neg hsame)), hset⟩
    · have hd := (digestsDiffer_iff same).2 hdiffer
      have hb : b = some (3, m, [0]) := if_pos ⟨hnil, hd⟩
      rw [hb] at hset ⊢
      exact ⟨s.repairsJudged shard, _, hexec.trans ((if_neg (not_not_intro hnil)).trans (if_pos hd)), rfl, State.setBisection_raise .., hset⟩
  case nodes =>
    have hexec := (exec_digest_nodes (rs := rs) h hlevel hb).trans (if_neg (not_not_intro hl))
    have hset : (s.setBisection shard (nextBisection level m rs)).bisection shard = nextBisection level m rs := bisection_set_same ..
    refine ⟨s.setBisection shard (nextBisection level m rs), rfl, fun x hx => bisection_set_ne _ _ _ _ hx, fun hchanged => ?_,
      fun hsteps => ⟨differing rs, mem_differing rs, fun hpos => ?_, fun hzero => ?_⟩⟩
    · have hany := any_step_ne.2 hchanged
      have hnext : nextBisection level m rs = none := if_pos (.inl hany)
      rw [hnext] at hset ⊢
      exact ⟨hexec.trans (if_pos hany), hset⟩
    · have hany : ¬rs.any (fun r => decide (r.step ≠ m)) = true := fun ha => (any_step_ne.1 ha).elim fun r hr => hr.2 (hsteps r hr.1)
      have hlow : level ≠ 0 := by omega
      have hnext : nextBisection level m rs = if differing rs = [] then none else some (level, m, differing rs) :=
        if_congr ((or_iff_right hany).trans (or_iff_right hlow)) rfl rfl
      rw [hnext] at hset ⊢
      exact ⟨hexec.trans ((if_neg hany).trans (if_neg hlow)), hset⟩
    · have hany : ¬rs.any (fun r => decide (r.step ≠ m)) = true := fun ha => (any_step_ne.1 ha).elim fun r hr => hr.2 (hsteps r hr.1)
      have hnext : nextBisection level m rs = none := if_pos (.inr (.inl hzero))
      rw [hnext] at hset ⊢
      obtain ⟨hwire, hrepairs, hmem⟩ := foldl_judgeBlock_spec shard rs (differing rs) (s.setBisection shard none)
      exact ⟨hset, _, hexec.trans ((if_neg hany).trans (if_pos hzero)), rfl, hwire, hrepairs, hmem⟩
  case copies =>
    obtain ⟨hsplit, hrepair⟩ := judgeBlock_spec s shard block rs
    exact ⟨fun g hg => majority_some rs g hg, fun hg => majority_none rs hg,
      fun g hlen hg => ⟨fun i => mem_badReplicas_of_majority hlen (majority_some rs g hg), goodCopy_of_majority hlen hg⟩,
      fun hlen hg => badReplicas_of_split hlen (majority_none rs hg), fun hlen => ⟨fun i => mem_badReplicas_of_pair hlen, goodCopy_of_pair hlen⟩, hsplit, hrepair⟩

end Sys2Proof.Machine
end

section
/-! SUPPORT. The commands of the error ledger (R455 to R459) and the takeover of the lead role (R38 to R41). -/

namespace Sys2Proof.Machine

section Commands

variable {s : State} {src : Src} {d : Nat} {e : BitVec 6}

/-- A command of the ledger that reaches its die is judged there, and answered. -/
theorem State.ledgerAccess (act : State → State) (c : Instr) (hr : Reached s src (RegId.LEDGER_CTRL d).addr) :
    s.accessWrite src (ledgerCtrl d) c act = (act s).respond src (RegId.LEDGER_CTRL d).addr [] := by
  rw [State.accessWrite, ledgerCtrl, State.access_reached hr]

theorem exec_ledgerTake (hr : Reached s src (RegId.LEDGER_CTRL d).addr) :
    exec (.ledgerTake src d e) s = .next ((s.ledgerTake src d e.toNat).respond src (RegId.LEDGER_CTRL d).addr []) :=
  congrArg _ (State.ledgerAccess (fun s => s.ledgerTake src d e.toNat) (.ledgerTake src d e) hr)

theorem exec_ledgerDone (hr : Reached s src (RegId.LEDGER_CTRL d).addr) :
    exec (.ledgerDone src d e) s = .next ((s.ledgerDone src d e.toNat).respond src (RegId.LEDGER_CTRL d).addr []) :=
  congrArg _ (State.ledgerAccess (fun s => s.ledgerDone src d e.toNat) (.ledgerDone src d e) hr)

theorem exec_ledgerClose (hr : Reached s src (RegId.LEDGER_CTRL d).addr) :
    exec (.ledgerClose src d e) s = .next ((s.ledgerClose src d e.toNat).respond src (RegId.LEDGER_CTRL d).addr []) :=
  congrArg _ (State.ledgerAccess (fun s => s.ledgerClose src d e.toNat) (.ledgerClose src d e) hr)

/-- The answer to the management core is no packet. -/
theorem State.respond_mgmt (s : State) (d a : Nat) (bs : List Byte) : s.respond (.mgmt d) a bs = s := rfl

/-- The state of an entry is written, and nothing else. -/
theorem State.entryState_spec (s : State) (d i : Nat) {v : Nat} (hv : v < 2 ^ (LEDGER_FRAME_STATE d i).width) : let t := s.wr (LEDGER_FRAME_STATE d i) v
    t.rd (LEDGER_FRAME_STATE d i) = v ∧ (∀ r, r ≠ .LEDGER_FRAME d i → t.word r = s.word r) ∧ t = { s with regs := t.regs } :=
  ⟨(State.rd_wr_same _ _ _ fle).trans (Nat.mod_eq_of_lt hv), fun _ hr => State.word_wr_ne (f := LEDGER_FRAME_STATE d i) _ _ hr.symm, rfl⟩

end Commands

section Closing

variable {s : State} {d i : Nat}

/-- An entry that is no hard error of a core closes alone. -/
theorem State.closeEntry_plain (h : ∀ x c, s.entryDom d i = .core x c → (levelOf (s.rd (LEDGER_NUMBER d i))).2 = true ∨ isCtl c = true) :
    s.closeEntry d i = (s.wr (LEDGER_FRAME_STATE d i) 0).admitHeld d := by
  unfold State.closeEntry
  dsimp only
  cases hdom : s.entryDom d i with
  | core x c => exact congrArg (State.admitHeld · d) (if_pos (h x c hdom))
  | _ => rfl

/-- The closings of a core within the span of R459, with that of now. -/
def State.closingsNow (s : State) (x c : Nat) : List Nat := (s.core x c).closings.filter (fun f => decide (s.frameSeq < f + 65536)) ++ [s.frameSeq]

/-- A core whose entry closes: it is parked only while another entry keeps it. -/
def State.coreReleased (y : State) (x c : Nat) : State := if y.coreEntry x c then y else y.modCore x c (fun z => { z with parked := false })

/-- A core is fenced at its third closing. -/
def State.thriceFenced (w : State) (x c : Nat) : State := if 3 ≤ (w.core x c).closings.length then w.fenceCore x c else w

/-- A hard error of a core closes: the core is released, or fenced at the third closing. -/
theorem State.closeEntry_of_core {x c : Nat} (hdom : s.entryDom d i = .core x c) (hstar : (levelOf (s.rd (LEDGER_NUMBER d i))).2 = false) (hctl : isCtl c = false) :
    s.closeEntry d i =
      ((((s.wr (LEDGER_FRAME_STATE d i) 0).modCore x c fun z => { z with closings := s.closingsNow x c }).coreReleased x c).thriceFenced x c).admitHeld d := by
  have hseq : (s.wr (LEDGER_FRAME_STATE d i) 0).frameSeq = s.frameSeq := State.rd_congr (State.word_wr_ne _ _ (by nofun))
  have hsoft : ¬((levelOf (s.rd (LEDGER_NUMBER d i))).2 = true ∨ isCtl c = true) := by
    rw [hstar, hctl]
    simp
  unfold State.closeEntry
  dsimp only
  rw [hdom]
  dsimp only
  rw [if_neg hsoft, hseq]
  rfl

/-- What the closing of a hard error of a core leaves, before the third closing fences it. -/
theorem State.coreReleased_spec (s : State) (d i x c : Nat) :
    let w := ((s.wr (LEDGER_FRAME_STATE d i) 0).modCore x c fun z => { z with closings := s.closingsNow x c }).coreReleased x c
    w = { s.wr (LEDGER_FRAME_STATE d i) 0 with cores := w.cores } ∧ (w.core x c).closings = s.closingsNow x c ∧
      (∀ k, k ≠ coreKey x c → tabGet w.cores k coreReset = tabGet s.cores k coreReset) ∧
      ((w.core x c).parked = true ↔ (s.core x c).parked = true ∧ ∃ j < 64, (x, j) ≠ (d, i) ∧ s.rd (LEDGER_FRAME_STATE x j) ≠ 0 ∧
        (levelOf (s.rd (LEDGER_NUMBER x j))).2 = false ∧ s.entryDom x j = .core x c) ∧
      w.core x c = { s.core x c with closings := (w.core x c).closings, parked := (w.core x c).parked } := by
  obtain ⟨w, hw, hrest, hclosings, hcores, hcore⟩ := closeEntry_core (s.wr (LEDGER_FRAME_STATE d i) 0) _ x c (s.closingsNow x c) rfl
  have hparked : (w.core x c).parked = ((s.core x c).parked && (s.wr (LEDGER_FRAME_STATE d i) 0).coreEntry x c) := by
    rw [hcore]
    rfl
  have hw' : ((s.wr (LEDGER_FRAME_STATE d i) 0).modCore x c fun z => { z with closings := s.closingsNow x c }).coreReleased x c = w := hw.symm
  rw [hw']
  refine ⟨hrest, hclosings, hcores, ?_, ?_⟩
  · rw [hparked, Bool.and_eq_true, coreEntry_wr]
  · rw [hparked, hclosings]
    exact hcore

end Closing

section Takeover

variable {s : State} {ms : Nat}

/-- Without a takeover, or with die 1 not serving, LEAD_TAKEOVER changes nothing. -/
theorem exec_leadTakeover_idle (h : s.job.takeover = false ∨ s.dieUp 1 = false) : exec (.leadTakeover ms) s = .next s := if_pos h

/-- The registers of die 1 that leads. -/
def State.leadRegs (s : State) (ms : Nat) : State :=
  (((s.wr MODULE_LEAD_LEAD_DIE 1).wr MODULE_LEAD_DIE1_READY 0).wr MODULE_LEAD_TAKEOVER 1).wr MODULE_LEAD_TAKEOVER_MS (min ms 65535)

/-- Die 1 leads, and no access is held. -/
def State.leadTaken (s : State) (ms : Nat) : State := { s.leadRegs ms with job := { s.job with takeover := false, held := [] } }

theorem exec_leadTakeover (h : s.job.takeover = true) (hup : s.dieUp 1 = true) : exec (.leadTakeover ms) s =
    .next (s.job.held.foldl (fun v c => v.serveHeld c) ((s.leadTaken ms).raise (mkEv 14 1 0xFF 17 0 [(2, min ms 65535)]))) :=
  if_neg fun hh => hh.elim (by rw [h]; nofun) (by rw [hup]; nofun)

theorem State.leadTaken_spec (s : State) (ms : Nat) : let u := s.leadTaken ms
    u.rd MODULE_LEAD_LEAD_DIE = 1 ∧ u.rd MODULE_LEAD_DIE1_READY = 0 ∧ u.rd MODULE_LEAD_TAKEOVER = 1 ∧ u.rd MODULE_LEAD_TAKEOVER_MS = min ms 65535 ∧
      u.rd MODULE_LEAD_TAKEOVER_EN = s.rd MODULE_LEAD_TAKEOVER_EN ∧ (∀ r, r ≠ .MODULE_LEAD → u.word r = s.word r) ∧
      u = { s with regs := u.regs, job := { s.job with takeover := false, held := [] } } := by
  intro u
  have hword : ∀ r, u.word r = (s.leadRegs ms).word r := fun _ => rfl
  have hms : min ms 65535 % 2 ^ 16 = min ms 65535 := Nat.mod_eq_of_lt (by omega)
  refine ⟨?_, ?_, ?_, ?_, ?_, fun r hr => ?_, rfl⟩
  · exact (State.rd_congr (hword _)).trans ((State.rd_wr_other _ _ _ _ fle fun _ => .inl fle).trans ((State.rd_wr_other _ _ _ _ fle fun _ => .inl fle).trans
      ((State.rd_wr_other _ _ _ _ fle fun _ => .inl fle).trans (State.rd_wr_same _ _ _ fle))))
  · exact (State.rd_congr (hword _)).trans ((State.rd_wr_other _ _ _ _ fle fun _ => .inl fle).trans ((State.rd_wr_other _ _ _ _ fle fun _ => .inl fle).trans
      (State.rd_wr_same _ _ _ fle)))
  · exact (State.rd_congr (hword _)).trans ((State.rd_wr_other _ _ _ _ fle fun _ => .inl fle).trans (State.rd_wr_same _ _ _ fle))
  · exact (State.rd_congr (hword _)).trans ((State.rd_wr_same _ _ _ fle).trans hms)
  · exact (State.rd_congr (hword _)).trans ((State.rd_wr_other _ _ _ _ fle fun _ => .inl fle).trans ((State.rd_wr_other _ _ _ _ fle fun _ => .inr fle).trans
      ((State.rd_wr_other _ _ _ _ fle fun _ => .inr fle).trans (State.rd_wr_other _ _ _ _ fle fun _ => .inr fle))))
  · exact (hword r).trans ((State.word_wr_ne _ _ hr.symm).trans ((State.word_wr_ne _ _ hr.symm).trans ((State.word_wr_ne _ _ hr.symm).trans (State.word_wr_ne _ _ hr.symm))))

end Takeover

/-- An access that was held completes as its command would. -/
theorem State.serveHeld_eq (s : State) (src : Src) (p : Packet) (a : BitVec 48) (w : Word) (ok : Bool) (n : Nat) (arg : BitVec 16) (mr : BitVec 4) (h : BitVec 21)
    {c : Instr} (hc : c ∈ [.registerRead src p, .registerWrite src p w, .rcRead src a, .jobSubmit src w, .resume src, .jobEnd src, .image src, .restore src,
      .teamJoin src w, .bypassClose src w, .powerRequest src w, .calendarSet src w, .eventRingEnable src w, .fwCommit src, .arbRaise src, .ruleEnable src n w,
      .filterConfig src n w, .readCounters src arg, .readErrorHistory src arg, .readRetirementList src arg, .addRetirementEntry src arg, .attestReport src a,
      .mrExtend src mr a, .fwUpdate src a ok, .eventRingHead src h]) : s.serveHeld c = s.then_ (exec c s) := by
  simp only [List.mem_cons, List.not_mem_nil, or_false] at hc
  rcases hc with rfl | rfl | rfl | rfl | rfl | rfl | rfl | rfl | rfl | rfl | rfl | rfl | rfl | rfl | rfl | rfl | rfl | rfl | rfl | rfl | rfl | rfl | rfl | rfl | rfl <;> rfl

/-- Settles O39: a ledger command fits its entry or is refused, closing is `State.closeEntry`, and the takeover is `State.leadTaken`. -/
theorem ledgerEntriesAreHandledAndDieOneTakesTheLead : Obligations.LedgerEntriesAreHandledAndDieOneTakesTheLead := by
  unfold Obligations.LedgerEntriesAreHandledAndDieOneTakesTheLead
  refine ⟨fun s src d a e st ha hr hst => ?entries, fun u d => ⟨fun hnil => ?none, fun x r hcons => ?oldest⟩,
    fun s ms => ⟨exec_leadTakeover_idle, fun h hup => ⟨_, exec_leadTakeover h hup, s.leadTaken_spec ms⟩⟩, fun s t src p a w ok n arg mr h c hc hnext => ?held⟩
  case entries =>
    subst ha hst
    have hactive := active_iff s d
    refine ⟨fun h => ?takeNot, fun h => ?doneNot, fun h => ?closeNot, fun hsrc h1 hfree => ?take, fun hsrc h2 => ?done, fun hsrc h23 => ?close⟩
    case takeNot =>
      rw [exec_ledgerTake hr, State.ledgerTake, ledgerOrder_of_not (h.imp_right fun h => ?_)]
      rcases h with h | h
      · split
        · simp
        · simpa using h
      · rw [if_pos (hactive.2 h)]
        simp
    case doneNot => rw [exec_ledgerDone hr, State.ledgerDone, ledgerOrder_of_not (h.imp_right fun h => by simpa using h)]
    case closeNot => rw [exec_ledgerClose hr, State.ledgerClose, ledgerOrder_of_not (h.imp_right fun h => by simpa using h)]
    case take =>
      have hnone : ¬(s.activeEntry d).isSome = true := fun h => (hactive.1 h).elim fun i hi => hfree i hi.1 hi.2
      refine ⟨s.wr (LEDGER_FRAME_STATE d e.toNat) 2, ?_, s.entryState_spec d e.toNat (of_decide_eq_true rfl)⟩
      rw [exec_ledgerTake hr, State.ledgerTake, ledgerOrder_of_fits hsrc (by rw [if_neg hnone, h1]; simp), hsrc, State.respond_mgmt]
    case done =>
      refine ⟨s.wr (LEDGER_FRAME_STATE d e.toNat) 3, ?_, s.entryState_spec d e.toNat (of_decide_eq_true rfl)⟩
      rw [exec_ledgerDone hr, State.ledgerDone, ledgerOrder_of_fits hsrc (by rw [h2]; simp), hsrc, State.respond_mgmt]
    case close =>
      have hexec : exec (.ledgerClose src d e) s = .next (s.closeEntry d e.toNat) := by
        rw [exec_ledgerClose hr, State.ledgerClose, ledgerOrder_of_fits hsrc (by rcases h23 with h | h <;> rw [h] <;> simp), hsrc, State.respond_mgmt]
      obtain ⟨hzero, hwords, hrest⟩ := s.entryState_spec d e.toNat (v := 0) (of_decide_eq_true rfl)
      by_cases hplain : ∀ x c, s.entryDom d e.toNat = .core x c → (levelOf (s.rd (LEDGER_NUMBER d e.toNat))).2 = true ∨ isCtl c = true
      · refine ⟨_, _, hexec.trans (congrArg _ (State.closeEntry_plain hplain)), hzero, hwords, rfl, fun _ => ⟨rfl, rfl⟩,
          fun x c hdom hstar => ⟨fun _ => ⟨rfl, rfl⟩, fun hctl => ?_⟩⟩
        have hsoft := hplain x c hdom
        rw [hstar, hctl] at hsoft
        exact (hsoft.elim nofun nofun)
      · push Not at hplain
        obtain ⟨x, c, hdom, hhard, hcore⟩ := hplain
        have hstar := Bool.eq_false_iff.2 hhard
        have hctl := Bool.eq_false_iff.2 hcore
        obtain ⟨hw, hclosings, hcores, hparked, hcoreRest⟩ := s.coreReleased_spec d e.toNat x c
        have hclose := State.closeEntry_of_core hdom hstar hctl
        generalize ((s.wr (LEDGER_FRAME_STATE d e.toNat) 0).modCore x c fun z => { z with closings := s.closingsNow x c }).coreReleased x c = w at *
        have hword : ∀ r, w.word r = (s.wr (LEDGER_FRAME_STATE d e.toNat) 0).word r := fun r => by rw [hw]; rfl
        refine ⟨w, w.thriceFenced x c, hexec.trans (congrArg _ hclose), (State.rd_congr (hword _)).trans hzero, fun r hne => (hword r).trans (hwords r hne), ?_,
          fun h => ?_, fun x' c' hdom' _ => ?_⟩
        · have hregs : w.regs = (s.wr (LEDGER_FRAME_STATE d e.toNat) 0).regs := by rw [hw]
          rw [hregs]
          exact hw
        · exact h.elim (fun h => absurd hdom (h x c)) fun h => absurd h hhard
        · obtain ⟨rfl, rfl⟩ : x = x' ∧ c = c' := by
            rw [hdom] at hdom'
            injection hdom' with hx hc
            exact ⟨hx, hc⟩
          exact ⟨fun h => absurd h hcore, fun _ => ⟨hcores, hclosings, hparked, hcoreRest, rfl⟩⟩
  case none =>
    unfold State.admitHeld
    rw [hnil]
  case oldest =>
    unfold State.admitHeld
    rw [hcons]
  case held =>
    rw [State.serveHeld_eq s src p a w ok n arg mr h hc, hnext]
    rfl

end Sys2Proof.Machine
end

section
/-! SUPPORT. How a descriptor comes to run: its checks (R314), the credit of its stream (R344, R345) and its tile stage (R318). -/

namespace Sys2Proof.Machine

section Checks

variable {s : State} {d n : Nat} {x : Desc}

/-- A descriptor fails with CODE 2 or 3. -/
theorem State.descFail_code {code : Nat} (h : s.descFail d n x = some code) : code = 2 ∨ code = 3 := by
  unfold State.descFail at h
  split at h
  · exact .inl (Option.some.inj h).symm
  · split at h
    · exact .inr (Option.some.inj h).symm
    · exact nomatch h

/-- A descriptor passes when it passes each check. -/
theorem State.descFail_none_iff : s.descFail d n x = none ↔ x.check1 = true ∧ x.check2 = true ∧ s.descCheck3 x = true ∧
    (x.op ≠ 0 ∨ (x.scnt0 * x.sw = x.dcnt0 * x.dw ∧ x.scnt0 * x.sw * x.cnt1 * x.cnt2 ≤ 2 ^ 32)) ∧ x.check5 = true ∧
    (x.stream = 0xFFFF ∨ (s.streamEntry d n x.stream).isSome = true) := by
  have hstream : ¬(x.stream ≠ 0xFFFF ∧ (s.streamEntry d n x.stream).isNone = true) ↔ x.stream = 0xFFFF ∨ (s.streamEntry d n x.stream).isSome = true := by
    rw [not_and_or, not_not, Option.isNone_iff_eq_none, Option.isSome_iff_ne_none]
  unfold State.descFail
  rw [← hstream, ite_eq_iff, ite_eq_iff]
  simp only [reduceCtorEq, and_false, false_or, and_true, Bool.not_eq_false, Bool.and_eq_true, Bool.or_eq_true, decide_eq_true_eq, and_assoc]

/-- Check 1 of a COPY. -/
theorem Desc.check1_copy (h : x.op = 0) : x.check1 = true ↔ x.rsv = false ∧ x.xfmt = 0 ∧ x.aux = 0 ∧ x.xpar = 0 := by
  simp [Desc.check1, h, and_assoc]

/-- Check 5 asks nothing of a COPY. -/
theorem Desc.check5_copy (h : x.op = 0) : x.check5 = true := if_pos h

/-- Check 2: widths, addresses and strides are multiples of 4. -/
theorem Desc.check2_iff : x.check2 = true ↔ (∀ y ∈ [x.sw, x.dw, x.srcAddr, x.dstAddr], y % 4 = 0) ∧ x.aux % 4 = 0 ∧
    ∀ y ∈ [x.s0, x.d0, x.s1, x.d1, x.s2, x.d2], y % 4 = 0 := by
  simp only [Desc.check2, Bool.and_eq_true, decide_eq_true_eq, List.all_eq_true, List.forall_mem_cons, List.not_mem_nil, false_implies, implies_true, and_true, and_assoc]

/-- Check 3: at most one remote side, which names a module. -/
theorem State.descCheck3_iff : s.descCheck3 x = true ↔ ¬(x.srcRem = true ∧ x.dstRem = true) ∧ (x.srcRem = true → s.moduleNamed x.srcTeam x.srcMod = true) ∧
    (x.dstRem = true → s.moduleNamed x.dstTeam x.dstMod = true) := by
  simp only [State.descCheck3, Bool.and_eq_true, Bool.or_eq_true, Bool.not_eq_true', Bool.and_eq_false_imp, and_assoc]
  cases x.srcRem <;> cases x.dstRem <;> simp

/-- A stream is bound to its channel by an entry of the active Timetable. -/
theorem State.streamEntry_isSome {stream : Nat} : (s.streamEntry d n stream).isSome = true ↔ ∃ e ∈ (s.activeTT d).streams, e.chan = n ∧ e.stream = stream := by
  simp only [State.streamEntry, List.find?_isSome, Bool.and_eq_true, decide_eq_true_eq]

/-- When a COPY passes. -/
theorem State.descFail_copy (h : x.op = 0) : s.descFail d n x = none ↔ x.rsv = false ∧ x.xfmt = 0 ∧ x.aux = 0 ∧ x.xpar = 0 ∧
    (∀ y ∈ [x.sw, x.dw, x.srcAddr, x.dstAddr], y % 4 = 0) ∧ (∀ y ∈ [x.s0, x.d0, x.s1, x.d1, x.s2, x.d2], y % 4 = 0) ∧ ¬(x.srcRem = true ∧ x.dstRem = true) ∧
    (x.srcRem = true → s.moduleNamed x.srcTeam x.srcMod = true) ∧ (x.dstRem = true → s.moduleNamed x.dstTeam x.dstMod = true) ∧
    x.scnt0 * x.sw = x.dcnt0 * x.dw ∧ x.scnt0 * x.sw * x.cnt1 * x.cnt2 ≤ 2 ^ 32 ∧ (x.stream = 0xFFFF ∨ ∃ e ∈ (s.activeTT d).streams, e.chan = n ∧ e.stream = x.stream) := by
  rw [State.descFail_none_iff, Desc.check1_copy h, Desc.check2_iff, State.descCheck3_iff, State.streamEntry_isSome]
  constructor
  · rintro ⟨⟨hrsv, hxfmt, haux, hxpar⟩, ⟨hwide, -, hstride⟩, ⟨hone, hsrc, hdst⟩, hcount, -, hstream⟩
    obtain ⟨hsame, hmax⟩ := hcount.resolve_left (not_not_intro h)
    exact ⟨hrsv, hxfmt, haux, hxpar, hwide, hstride, hone, hsrc, hdst, hsame, hmax, hstream⟩
  · rintro ⟨hrsv, hxfmt, haux, hxpar, hwide, hstride, hone, hsrc, hdst, hsame, hmax, hstream⟩
    exact ⟨⟨hrsv, hxfmt, haux, hxpar⟩, ⟨hwide, by rw [haux], hstride⟩, ⟨hone, hsrc, hdst⟩, .inr ⟨hsame, hmax⟩, Desc.check5_copy h, hstream⟩

end Checks

section Start

variable {s : State} {d n i : Nat} {r : DRun}

/-- A channel that is not there, waits, or has no descriptor to start, starts none. -/
theorem exec_descriptorStart_idle (h : s.chanExists d n = false ∨ s.dieUp d = false ∨ s.chanWaits d n = true ∨ s.nextRun d n = none) :
    exec (.descriptorStart d n) s = .next s := by
  show execDescriptorStart d n s = _
  unfold execDescriptorStart
  by_cases hc : s.chanExists d n = false ∨ s.dieUp d = false ∨ s.chanWaits d n = true
  · exact if_pos hc
  · rw [if_neg hc, show s.nextRun d n = none by tauto]

/-- A descriptor that fails a check is due a record with the CODE. -/
def State.descFailed (s : State) (d n i : Nat) (r : DRun) (code : Nat) : State :=
  (((s.modRun d n i (fun y => { y with started := true, status := some (1, code) })).raiseFor d (chanEv 128 d n [(2, n), (4, r.seq), (1, code)]) r.owner).flushAll d n).settlePause d n

/-- The descriptor at the head of its channel is checked, and starts or takes its credit. -/
theorem exec_descriptorStart (hex : s.chanExists d n = true) (hup : s.dieUp d = true) (hwaits : s.chanWaits d n = false) (hi : s.nextRun d n = some i)
    (hr : (s.chan d n).q[i]? = some r) : exec (.descriptorStart d n) s =
      (s.descFail d n r.desc).elim
        (if r.desc.stream = 0xFFFF then .next (s.startRun d n i) else if (s.chan d n).streamBad then .next s else .next (s.takeCredit d n i))
        fun code => .next (s.descFailed d n i r code) := by
  have hgo : ¬(s.chanExists d n = false ∨ s.dieUp d = false ∨ s.chanWaits d n = true) := by rw [hex, hup, hwaits]; simp
  show execDescriptorStart d n s = _
  unfold execDescriptorStart
  rw [if_neg hgo, hi]
  dsimp only
  rw [hr]
  dsimp only
  cases s.descFail d n r.desc <;> rfl

/-- The first descriptor of a channel that has not started. -/
theorem firstIdx_unstarted {q : List DRun} (hr : q[i]? = some r) (hstart : r.started = false) (hbefore : ∀ j < i, ∀ y, q[j]? = some y → y.started = true) :
    firstIdx q (fun r => !r.started) 0 = i :=
  firstIdx_eq _ _ _ _ _ hr (by rw [hstart]; rfl) fun j hj y hy => by rw [hbefore j hj y hy]; rfl

end Start

section Credit

variable {s : State} {d n i : Nat}

/-- A channel sees of the empty semaphore at most what it holds. -/
theorem State.emptyLeft_le : s.emptyLeft d n ≤ s.semv d (s.rd (DRAY_CH_SCFG_CORE d n)) (s.rd (DRAY_CH_SCFG_PAIR d n) + 1) := by
  have hleft := (s.semLeft_spec d (s.rd (DRAY_CH_SCFG_CORE d n)) (s.rd (DRAY_CH_SCFG_PAIR d n) + 1)).1
  unfold State.emptyLeft
  dsimp only
  split
  · split
    · exact Nat.le_trans (Nat.sub_le ..) hleft
    · exact hleft
  · exact hleft

/-- It sees all of it where no unit and no stalled sequencer of the core takes first. -/
theorem State.emptyLeft_eq (hunits : ∀ u x r, (s.core d (s.rd (DRAY_CH_SCFG_CORE d n))).queue u = x :: r → s.headReady d (s.rd (DRAY_CH_SCFG_CORE d n)) u x = false)
    (hstall : ∀ m k, (s.core d (s.rd (DRAY_CH_SCFG_CORE d n))).blocked ≠ .semWait m k) :
    s.emptyLeft d n = s.semv d (s.rd (DRAY_CH_SCFG_CORE d n)) (s.rd (DRAY_CH_SCFG_PAIR d n) + 1) := by
  have hleft := (s.semLeft_spec d (s.rd (DRAY_CH_SCFG_CORE d n)) (s.rd (DRAY_CH_SCFG_PAIR d n) + 1)).2.1 hunits
  unfold State.emptyLeft
  dsimp only
  split
  · rename_i m k hb
    exact absurd hb (hstall m k)
  · exact hleft

/-- No channel is ahead where none of lower number waits for the same semaphore. -/
theorem State.creditsAhead_zero (h : ∀ m < n, m ∈ s.channels d → s.creditWaits d m = false ∨ s.rd (DRAY_CH_SCFG_CORE d m) ≠ s.rd (DRAY_CH_SCFG_CORE d n) ∨
    s.rd (DRAY_CH_SCFG_PAIR d m) + 1 ≠ s.rd (DRAY_CH_SCFG_PAIR d n) + 1) : s.creditsAhead d n = 0 := by
  unfold State.creditsAhead
  rw [List.length_eq_zero_iff, List.filter_eq_nil_iff]
  intro m hm hahead
  simp only [Bool.and_eq_true, decide_eq_true_eq] at hahead
  obtain ⟨⟨⟨hlow, hwaits⟩, hcore⟩, hpair⟩ := hahead
  rcases h m hlow hm with hno | hno | hno
  · rw [hwaits] at hno
    exact nomatch hno
  · exact hno hcore
  · exact hno (congrArg (· + 1) hpair)

/-- A streamed descriptor waits while the credits left are for the channels ahead. -/
theorem State.takeCredit_waits (h : s.emptyLeft d n ≤ s.creditsAhead d n) : s.takeCredit d n i = s.modChan d n (fun y => { y with waitCredit := true }) :=
  if_neg (Nat.not_lt.2 h)

/-- The credit of a streamed descriptor is taken. -/
def State.creditTaken (s : State) (d n : Nat) : State :=
  (s.modCore d (s.rd (DRAY_CH_SCFG_CORE d n)) (fun x => x.take (s.rd (DRAY_CH_SCFG_PAIR d n) + 1) 1)).modChan d n (fun x => { x with fill := x.fill + 1, waitCredit := false })

theorem State.takeCredit_takes (h : s.creditsAhead d n < s.emptyLeft d n) :
    s.takeCredit d n i = ((s.creditTaken d n).modRun d n i (fun y => { y with credit := true })).startRun d n i := if_pos h

theorem State.creditTaken_spec (s : State) (d n : Nat) : let v := s.creditTaken d n
    Takes d (s.rd (DRAY_CH_SCFG_CORE d n)) (s.rd (DRAY_CH_SCFG_PAIR d n) + 1) 1 s v ∧
      v.chan d n = { s.chan d n with fill := (s.chan d n).fill + 1, waitCredit := false } ∧ v = { s with cores := v.cores, chans := v.chans } ∧
      ∀ k, k ≠ chanKey d n → tabGet v.chans k chanReset = tabGet s.chans k chanReset := by
  intro v
  have hcore : v.core d (s.rd (DRAY_CH_SCFG_CORE d n)) = (s.core d (s.rd (DRAY_CH_SCFG_CORE d n))).take (s.rd (DRAY_CH_SCFG_PAIR d n) + 1) 1 := by
    simp only [v, State.creditTaken, State.core_modChan, State.core_modCore_same]
  exact ⟨Takes.of_core (congrArg Core.sem hcore) (congrArg Core.pairs hcore), State.chan_modChan_same .., rfl, fun k hk => tabGet_tabSet_ne _ _ _ hk.symm⟩

/-- A channel that does not wait for a credit, or may not go on, takes none. -/
theorem exec_streamCreditTake_idle (h : (s.chan d n).waitCredit = false ∨ s.dieUp d = false ∨ (s.chan d n).live = false ∨ (s.chan d n).pausing = true ∨
    (s.chan d n).streamBad = true ∨ s.chanWaits d n = true) : exec (.streamCreditTake d n) s = .next s := by
  refine if_pos ?_
  unfold State.creditWaits
  rcases h with h | h | h | h | h | h <;> simp [h]

theorem exec_streamCreditTake {r : DRun} (hwait : (s.chan d n).waitCredit = true) (hup : s.dieUp d = true) (hlive : (s.chan d n).live = true) (hpause : (s.chan d n).pausing = false)
    (hbad : (s.chan d n).streamBad = false) (hwaits : s.chanWaits d n = false) (hr : (s.chan d n).q[i]? = some r) (hstart : r.started = false)
    (hbefore : ∀ j < i, ∀ y, (s.chan d n).q[j]? = some y → y.started = true) : exec (.streamCreditTake d n) s = .next (s.takeCredit d n i) := by
  have hgo : ¬(s.creditWaits d n = false ∨ s.dieUp d = false) := by
    unfold State.creditWaits
    simp [hwait, hup, hlive, hpause, hbad, hwaits]
  show execStreamCreditTake d n s = _
  unfold execStreamCreditTake
  rw [if_neg hgo, firstIdx_unstarted hr hstart hbefore]

end Credit

section Stage

variable {s : State} {d n i : Nat} {r : DRun}

/-- A run that needs no tile stage, or has one, starts. -/
theorem State.startRun_free (hr : (s.chan d n).q[i]? = some r) (h : r.desc.tiled = false ∨ r.stage = true) :
    s.startRun d n i = (s.modRun d n i (fun y => { y with started := true })).pump d n i := by
  unfold State.startRun
  rw [hr]
  exact if_neg fun hh => h.elim (by rw [hh.1]; nofun) (by rw [hh.2]; nofun)

/-- A tile operation takes a stage where one is free and no channel waits. -/
theorem State.startRun_staged (hr : (s.chan d n).q[i]? = some r) (htiled : r.desc.tiled = true) (hstage : r.stage = false) (hfree : (s.die d).stages.length < 16)
    (hfirst : (s.die d).stageWait = []) : s.startRun d n i = s.takeStage d n i := by
  unfold State.startRun
  rw [hr]
  exact (if_pos ⟨htiled, hstage⟩).trans (if_pos ⟨hfree, hfirst⟩)

/-- A channel that waits for a tile stage. -/
def State.stageAwaited (s : State) (d n : Nat) : State :=
  (s.modChan d n (fun c => { c with waitStage := true })).modDie d (fun y => { y with stageWait := insertAsc n y.stageWait })

theorem State.startRun_waits (hr : (s.chan d n).q[i]? = some r) (htiled : r.desc.tiled = true) (hstage : r.stage = false)
    (hfull : 16 ≤ (s.die d).stages.length ∨ (s.die d).stageWait ≠ []) : s.startRun d n i = s.stageAwaited d n := by
  unfold State.startRun
  rw [hr]
  exact (if_pos ⟨htiled, hstage⟩).trans (if_neg fun hh => hfull.elim (Nat.not_le.2 hh.1) (absurd hh.2))

theorem State.stageAwaited_spec (s : State) (d n : Nat) : let t := s.stageAwaited d n
    (t.chan d n).waitStage = true ∧ (t.chan d n).q = (s.chan d n).q ∧ (∀ k, k ∈ (t.die d).stageWait ↔ k = n ∨ k ∈ (s.die d).stageWait) ∧
      t = { s with chans := t.chans, dies := t.dies } := by
  intro t
  have hchan : t.chan d n = { s.chan d n with waitStage := true } := by
    simp only [t, State.stageAwaited, State.chan_modDie, State.chan_modChan_same]
  have hdie : t.die d = { s.die d with stageWait := insertAsc n (s.die d).stageWait } := State.die_modDie_same ..
  exact ⟨by rw [hchan], by rw [hchan], fun k => by rw [hdie]; exact mem_insertAsc' n _ k, rfl⟩

/-- The most urgent channel of a list: the lower number on a tie. -/
theorem State.mostUrgent_eq {ns : List Nat} (hmem : n ∈ ns) (hsorted : ns.Pairwise (· < ·))
    (hurgent : ∀ m ∈ ns, s.urgency d n < s.urgency d m ∨ (s.urgency d n = s.urgency d m ∧ n ≤ m)) : s.mostUrgent d ns = some n := by
  have hspec := mostUrgent_spec s d ns
  cases hm : s.mostUrgent d ns with
  | none =>
    rw [hm] at hspec
    exact absurd hmem (by rw [show ns = [] from hspec]; simp)
  | some m =>
    rw [hm] at hspec
    obtain ⟨hin, hleast, htie⟩ := hspec
    have hle := hleast n hmem
    rcases hurgent m hin with h | ⟨h, hnm⟩
    · omega
    · exact congrArg some (Nat.le_antisymm (htie hsorted n hmem h) hnm)

/-- A channel that does not wait, or waits behind a more urgent one, is not the most urgent. -/
theorem State.mostUrgent_ne {ns : List Nat} (h : n ∉ ns ∨ ∃ m ∈ ns, s.urgency d m < s.urgency d n) : s.mostUrgent d ns ≠ some n := by
  intro hm
  have hspec := mostUrgent_spec s d ns
  rw [hm] at hspec
  obtain ⟨hin, hleast, -⟩ := hspec
  rcases h with h | ⟨m, hmem, hlt⟩
  · exact h hin
  · exact Nat.not_lt.2 (hleast m hmem) hlt

/-- A grant without a free stage, or to a channel that is not the most urgent that waits, does nothing. -/
theorem exec_tileStageGrant_idle (h : 16 ≤ (s.die d).stages.length ∨ s.dieUp d = false ∨ s.chanWaits d n = true ∨ n ∉ (s.die d).stageWait ∨
    ∃ m ∈ (s.die d).stageWait, s.urgency d m < s.urgency d n) : exec (.tileStageGrant d n) s = .next s := by
  refine if_neg fun ⟨hfree, hmost, hup, hwaits⟩ => ?_
  rcases h with h | h | h | h
  · omega
  · rw [h] at hup
    exact nomatch hup
  · rw [h] at hwaits
    exact nomatch hwaits
  · exact State.mostUrgent_ne h hmost

/-- A channel that waits for a tile stage no more. -/
def State.stageGranted (s : State) (d n : Nat) : State :=
  (s.modChan d n (fun c => { c with waitStage := false })).modDie d (fun y => { y with stageWait := y.stageWait.filter (fun k => decide (k ≠ n)) })

theorem State.stageGranted_chan (s : State) (d n : Nat) : (s.stageGranted d n).chan d n = { s.chan d n with waitStage := false } := by
  simp only [State.stageGranted, State.chan_modDie, State.chan_modChan_same]

theorem exec_tileStageGrant (hfree : (s.die d).stages.length < 16) (hup : s.dieUp d = true) (hwaits : s.chanWaits d n = false)
    (hmost : s.mostUrgent d (s.die d).stageWait = some n) (hr : (s.chan d n).q[i]? = some r) (hstart : r.started = false)
    (hbefore : ∀ j < i, ∀ y, (s.chan d n).q[j]? = some y → y.started = true) : exec (.tileStageGrant d n) s = .next ((s.stageGranted d n).takeStage d n i) := by
  have hfirst : firstIdx ((s.stageGranted d n).chan d n).q (fun r => !r.started) 0 = i := by
    rw [State.stageGranted_chan]
    exact firstIdx_unstarted hr hstart hbefore
  rw [← hfirst]
  exact if_pos ⟨hfree, hmost, hup, hwaits⟩

end Stage

/-- Settles O40: the start by `exec_descriptorStart`, the checks by `State.descFail_copy`, credits and stages by what they take. -/
theorem descriptorsAreCheckedAndTakeTheirCreditAndStage : Obligations.DescriptorsAreCheckedAndTakeTheirCreditAndStage := by
  unfold Obligations.DescriptorsAreCheckedAndTakeTheirCreditAndStage
  refine ⟨fun s d n h => exec_descriptorStart_idle h, fun s d n i r x hex hup hwaits hi hr hx => ?start,
    fun s d n x => ⟨fun code h => State.descFail_code h, State.descFail_copy⟩, fun s d n i c e hc he => ?credit, fun s d n i => rfl,
    fun s d n i r hr => ⟨State.startRun_free hr, State.startRun_staged hr, fun htiled hstage hfull => ?awaited⟩,
    fun s d n => ⟨exec_streamCreditTake_idle, fun i r hwait hup hlive hpause hbad hwaits hr hstart hbefore => ?take⟩,
    fun s d n => ⟨exec_tileStageGrant_idle, fun i r hfree hup hwaits hmem hsorted hurgent hr hstart hbefore => ?grant⟩⟩
  case start =>
    subst hx
    obtain ⟨hstart, hlive, hpause, hbefore, hprev⟩ := nextRun_spec s d n i hi r hr
    have hexec := exec_descriptorStart hex hup hwaits hi hr
    refine ⟨hstart, hlive, hpause, hbefore, hprev, fun code hfail => ?_, fun hpass hstream => ?_, fun hpass hstream hbad => ?_, fun hpass hstream hbad => ?_⟩
    · rw [hexec, hfail]
      rfl
    · rw [hexec, hpass]
      exact if_pos hstream
    · rw [hexec, hpass]
      exact (if_neg hstream).trans (if_pos hbad)
    · rw [hexec, hpass]
      exact (if_neg hstream).trans (if_neg (by rw [hbad]; nofun))
  case credit =>
    subst hc he
    exact ⟨State.emptyLeft_le, State.emptyLeft_eq, State.creditsAhead_zero, State.takeCredit_waits, fun h => ⟨_, State.takeCredit_takes h, s.creditTaken_spec d n⟩⟩
  case awaited =>
    rw [State.startRun_waits hr htiled hstage hfull]
    exact s.stageAwaited_spec d n
  case take => exact exec_streamCreditTake hwait hup hlive hpause hbad hwaits hr hstart hbefore
  case grant =>
    exact ⟨_, exec_tileStageGrant hfree hup hwaits (State.mostUrgent_eq hmem hsorted hurgent) hr hstart hbefore, s.stageGranted_chan d n, State.die_modDie_same .., rfl⟩

end Sys2Proof.Machine
end

section
/-! SUPPORT. Writes of channels that are accepted at their home, and data that returns to them (R315, R316, R335, R413). -/

namespace Sys2Proof.Machine

section Copies

variable {x : Desc} {r : DRun}

/-- A COPY runs through no tile stage. -/
theorem Desc.tiled_copy (h : x.op = 0) : x.tiled = false := by rw [Desc.tiled, h]; rfl

/-- The next write of a COPY. -/
theorem DRun.nextWrite_copy (h : x.op = 0) : r.nextWrite x = (r.writeAddr x r.wi, r.hold.take x.dw) :=
  if_neg (by rw [Desc.tiled_copy h]; nofun)

/-- A COPY has a write to make once it holds the bytes of one. -/
theorem DRun.writeReady_copy (h : x.op = 0) : r.writeReady x = true ↔ x.dw ≤ r.hold.length ∧ r.wi < x.dcnt0 * x.cnt1 * x.cnt2 := by
  rw [DRun.writeReady, if_neg (by rw [Desc.tiled_copy h]; nofun), DRun.writeCount, if_neg (by rw [h]; nofun), Bool.and_eq_true, decide_eq_true_eq, decide_eq_true_eq]

/-- What issuing a write does to a COPY. -/
theorem DRun.issued_copy (h : x.op = 0) (w : Nat × List Byte) :
    r.issued x w = { r with wi := r.wi + 1, sent := r.sent ++ [w], lastAddr := w.1 + w.2.length - 4, accessed := true, hold := r.hold.drop x.dw } :=
  if_neg (by rw [Desc.tiled_copy h]; nofun)

/-- A write that is accepted as soon as it is issued. -/
theorem DRun.issued_accepted_copy (h : x.op = 0) (w : Nat × List Byte) (hsent : r.sent = []) :
    (r.issued x w).accepted = { r.issued x w with sent := [], wr := r.wr + 1, bytes := r.bytes + w.2.length } := by
  rw [DRun.issued_copy h, hsent]
  rfl

/-- Place `i0 + c0 * (i1 + c1 * i2)` of three loops is that of their indices. -/
theorem loopAddr_of_indices (base : Nat) {c0 c1 i0 i1 : Nat} (i2 : Nat) (st0 st1 st2 : Int) (h0 : i0 < c0) (h1 : i1 < c1) :
    loopAddr base c0 c1 st0 st1 st2 (i0 + c0 * (i1 + c1 * i2)) = base + i2 * st2 + i1 * st1 + i0 * st0 := by
  have hdiv : (i0 + c0 * (i1 + c1 * i2)) / c0 = i1 + c1 * i2 := by
    rw [Nat.add_mul_div_left _ _ (by omega), Nat.div_eq_of_lt h0, Nat.zero_add]
  have hmod : (i0 + c0 * (i1 + c1 * i2)) % c0 = i0 := by
    rw [Nat.add_mul_mod_self_left, Nat.mod_eq_of_lt h0]
  have houter : (i1 + c1 * i2) / c1 = i2 := by
    rw [Nat.add_mul_div_left _ _ (by omega), Nat.div_eq_of_lt h1, Nat.zero_add]
  have hinner : (i1 + c1 * i2) % c1 = i1 := by
    rw [Nat.add_mul_mod_self_left, Nat.mod_eq_of_lt h1]
  rw [loopAddr, ← Nat.div_div_eq_div_mul, hdiv, hmod, houter, hinner]

/-- The address of a write of a COPY, where it lies in 48 bits. -/
theorem DRun.writeAddr_copy (h : x.op = 0) {i0 i1 i2 : Nat} (h0 : i0 < x.dcnt0) (h1 : i1 < x.cnt1) {z : Int} (hz : z = x.dstAddr + i2 * x.d2 + i1 * x.d1 + i0 * x.d0)
    (hlow : 0 ≤ z) (hhigh : z < 2 ^ 48) : r.writeAddr x (i0 + x.dcnt0 * (i1 + x.cnt1 * i2)) = z.toNat := by
  rw [DRun.writeAddr, if_neg (by rw [h]; nofun), loopAddr_of_indices _ _ _ _ _ h0 h1, ← hz]
  exact if_pos ⟨hlow, hhigh⟩

end Copies

section Accepts

variable {s : State} {d n i : Nat} {r : DRun}

/-- Runs of a channel that changes one of them. -/
theorem State.chan_modRun (s : State) (d n i : Nat) (f : DRun → DRun) :
    (s.modRun d n i f).chan d n = { s.chan d n with q := (s.chan d n).q.mapIdx fun j r => if j = i then f r else r } := State.chan_modChan_same ..

/-- A run has had a write accepted: it goes on from there, having given its tile stage up with its last write. -/
def State.runAccepted (s : State) (d n i : Nat) (f : DRun → DRun) : State :=
  ((s.modRun d n i f).modChan d n (fun c => { c with retry := 0 })).freeStage d n i

theorem State.runAccepted_spec {u : State} (s : State) (f : DRun → DRun) (hr : (s.chan d n).q[i]? = some r) (hchans : u.chans = s.chans) (hdies : u.dies = s.dies) :
    let v := u.runAccepted d n i f
    (v.chan d n).retry = 0 ∧ StageGiven d n i s v (f r) ∧ v = { u with chans := v.chans, dies := v.dies } := by
  have hchan : ((u.modRun d n i f).modChan d n (fun c => { c with retry := 0 })).chan d n =
      { s.chan d n with q := (s.chan d n).q.mapIdx (fun j r => if j = i then f r else r), retry := 0 } := by
    rw [State.chan_modChan_same, State.chan_modRun]
    simp only [State.chan, hchans]
  obtain ⟨hgiven, hrest, hretry⟩ := State.freeStage_given s ((u.modRun d n i f).modChan d n (fun c => { c with retry := 0 })) d n i (f r)
    (by rw [hchan]; exact (mapIdx_at _ _ _ _).trans (by rw [if_pos rfl, hr]; rfl)) (fun j hj => by rw [hchan]; exact (mapIdx_at _ _ _ _).trans (if_neg hj))
    (fun k hk => (tabGet_tabSet_ne _ _ _ hk.symm).trans ((tabGet_tabSet_ne _ _ _ hk.symm).trans (by rw [hchans]))) hdies
  exact ⟨hretry.trans (by rw [hchan]), hgiven, hrest.trans (by rfl)⟩

/-- The address of an access of a run is that of its region's slot, which serving a bank does not move. -/
theorem Served.runAddr {t : State} (h : Served s t) (r : DRun) (write : Bool) (a : Nat) : t.runAddr r write a = s.runAddr r write a := by
  have hregions : t.regions = s.regions := by rw [h.rest]
  have hseq : t.frameSeq = s.frameSeq := State.rd_congr (h.regs _ (by nofun))
  simp only [State.runAddr, State.resolve, State.slotAt, State.region, State.liveFor, hregions, hseq]

theorem Served.slotAt {t : State} (h : Served s t) (a : Nat) : t.slotAt a = s.slotAt a := by
  have hregions : t.regions = s.regions := by rw [h.rest]
  rw [State.slotAt, State.slotAt, hregions]

theorem Served.storeBarred {t : State} (h : Served s t) (host : Bool) (a n : Nat) : t.storeBarred host a n = s.storeBarred host a n := by
  have hrd : ∀ f : FRef, (∀ e c b, f.reg ≠ .SPAD_BANK e c b) → t.rd f = s.rd f := fun f hf => State.rd_congr (h.regs _ hf)
  rw [State.storeBarred, State.storeBarred, State.flag, State.flag, hrd (TT_CTRL_READY _) (by nofun), hrd (OPT_STATUS_WINDOW _) (by nofun)]

/-- The bytes of a write are stored at its home. -/
def State.writeStored (u : State) (d : Nat) (y : DRun) (w : Nat × List Byte) : State :=
  ((u.bankServed (u.runAddr y true w.1) w.2.length).drayStore d y.forFrame y.late w.1 w.2).crossed y.owner d (dieOf w.1) none

/-- A write that lies in no region with versions changes its bytes, and what counts the bank and the link that it used. -/
theorem State.writeStored_spec (u : State) (d : Nat) {y : DRun} {w : Nat × List Byte} {p : Nat} (hp : p = u.runAddr y true w.1) (hslot : u.slotAt w.1 = none)
    (hplace : u.slotAt p = none) (hbarred : u.storeBarred false p w.2.length = false) (htable : overlaps p w.2.length (shardTable (dieOf p)) 0x20000 = false) :
    let t := u.writeStored d y w
    (∀ q, (∀ e c b, q ≠ .SPAD_BANK e c b) → t.word q = u.word q) ∧ t = { u with mem := t.mem, undef := t.undef, regs := t.regs, items := t.items } ∧
      (∀ a, (∀ j < w.2.length, u.place (p + j) ≠ u.place a) → t.byteAt a = u.byteAt a) ∧
      ((∀ j < w.2.length, u.place (p + j) = p + j) → ∀ j < w.2.length, t.byteAt (p + j) = w.2.getD j 0) := by
  intro t
  have hserved := u.bankServed_served p w.2.length
  have hplaces := u.bankServed_place p w.2.length
  have hstore : t = ((u.bankServed p w.2.length).setBytes p w.2).crossed y.owner d (dieOf w.1) none := by
    have haddr : (u.bankServed p w.2.length).runAddr y true w.1 = p := (hserved.runAddr ..).trans hp.symm
    have hplain := drayStore_plain (u.bankServed p w.2.length) d y y.late w.1 w.2 ((hserved.slotAt _).trans hslot) (by rw [haddr, hserved.slotAt, hplace])
      (by rw [haddr, hserved.storeBarred, hbarred]) (by rw [haddr, htable])
    rw [haddr] at hplain
    rw [← hplain, hp]
    rfl
  generalize hu : u.bankServed p w.2.length = x at *
  have hcrossed := crossed_links_only (x.setBytes p w.2) y.owner d (dieOf w.1) none
  rw [← hstore] at hcrossed
  have hword : ∀ q, t.word q = x.word q := fun q => by
    rw [hcrossed]
    exact State.word_setBytes ..
  have hbyte : ∀ a, t.byteAt a = (x.setBytes p w.2).byteAt a := fun a => by
    rw [hcrossed]
    rfl
  refine ⟨fun q hq => (hword q).trans (hserved.regs q hq), ?_, fun a ha => ?_, fun hall j hj => ?_⟩
  · have hregs : t.regs = x.regs := by rw [hcrossed, State.setBytes_rest]
    have hmem : t.mem = (x.setBytes p w.2).mem := by rw [hcrossed]
    have hundef : t.undef = (x.setBytes p w.2).undef := by rw [hcrossed]
    rw [hregs, hmem, hundef]
    exact hcrossed.trans (by rw [State.setBytes_rest, hserved.rest])
  · rw [hbyte, setBytes_byte _ _ _ _ fun j hj => by rw [hplaces, hplaces]; exact ha j hj]
    exact hserved.mem a
  · rw [hbyte, setBytes_plain _ _ _ _ (fun j hj => (hplaces _).trans (hall j hj)) ((hplaces _).trans (hall j hj)), if_pos (by omega), Nat.add_sub_cancel_left]

/-- A write that goes through a channel, as it stands, changes what its storing changes. -/
theorem State.writeStored_accepted {u : State} {y : DRun} {w : Nat × List Byte} {p : Nat} (f : DRun → DRun) (hy : (u.chan d n).q[i]? = some y) (hp : p = u.runAddr y true w.1)
    (hslot : u.slotAt w.1 = none) (hplace : u.slotAt p = none) (hbarred : u.storeBarred false p w.2.length = false)
    (htable : overlaps p w.2.length (shardTable (dieOf p)) 0x20000 = false) : let v := (u.writeStored d y w).runAccepted d n i f
    (v.chan d n).retry = 0 ∧ StageGiven d n i u v (f y) ∧ (∀ q, (∀ e c b, q ≠ .SPAD_BANK e c b) → v.word q = u.word q) ∧
      v = { u with mem := v.mem, undef := v.undef, regs := v.regs, chans := v.chans, items := v.items, dies := v.dies } ∧
      (∀ a, (∀ j < w.2.length, u.place (p + j) ≠ u.place a) → v.byteAt a = u.byteAt a) ∧
      ((∀ j < w.2.length, u.place (p + j) = p + j) → ∀ j < w.2.length, v.byteAt (p + j) = w.2.getD j 0) := by
  dsimp only
  obtain ⟨hword, hrest, hother, hwritten⟩ := u.writeStored_spec d hp hslot hplace hbarred htable
  obtain ⟨hretry, hgiven, haccepted⟩ := State.runAccepted_spec (u := u.writeStored d y w) u f hy (by rw [hrest]) (by rw [hrest])
  generalize (u.writeStored d y w).runAccepted d n i f = v at *
  generalize u.writeStored d y w = t at *
  have hbyte : ∀ a, v.byteAt a = t.byteAt a := fun a => by
    rw [haccepted]
    rfl
  refine ⟨hretry, hgiven, fun q hq => ?_, ?_, fun a ha => (hbyte a).trans (hother a ha), fun hall j hj => (hbyte _).trans (hwritten hall j hj)⟩
  · rw [← hword q hq, haccepted]
    rfl
  · have hmem : v.mem = t.mem := by rw [haccepted]
    have hundef : v.undef = t.undef := by rw [haccepted]
    have hregs : v.regs = t.regs := by rw [haccepted]
    have hitems : v.items = t.items := by rw [haccepted]
    rw [hmem, hundef, hregs, hitems]
    exact haccepted.trans (congrArg (fun x : State => { x with chans := v.chans, dies := v.dies }) hrest)

end Accepts

section Lands

variable {s : State} {d n i : Nat} {r : DRun}

/-- A die that is down, or a channel that waits with an event record, accepts no write. -/
theorem writeLands_idle (h : s.dieUp d = false ∨ s.chanWaits d n = true) : writeLands d n s = .next s := if_pos h

/-- Without a run that writes, only a write of a cancelled descriptor can land. -/
theorem writeLands_none (hup : s.dieUp d = true) (hwaits : s.chanWaits d n = false) (hnone : s.writer d n = none) :
    writeLands d n s = .next (if s.lateWrites d n then s.answered d n 2 else s) := by
  unfold writeLands
  rw [if_neg (by rw [hup, hwaits]; simp), hnone]

/-- The accept of a write to another module. -/
theorem writeLands_far (hup : s.dieUp d = true) (hwaits : s.chanWaits d n = false) (hi : s.writer d n = some i) (hr : (s.chan d n).q[i]? = some r) (hfar : s.dstFar r.desc = true) :
    writeLands d n s = if s.lateWrites d n then .next (s.answered d n 2)
      else if r.sent ≠ [] then .next (((s.answered d n 2).runAccepted d n i DRun.accepted).pumpAll d n) else .next s := by
  unfold writeLands
  rw [if_neg (by rw [hup, hwaits]; simp), hi]
  dsimp only [Option.getD_some]
  rw [hr]
  exact if_pos hfar

/-- A channel that may not go on has no write accepted at its home. -/
theorem writeLands_still (hup : s.dieUp d = true) (hwaits : s.chanWaits d n = false) (hi : s.writer d n = some i) (hr : (s.chan d n).q[i]? = some r) (hnear : s.dstFar r.desc = false)
    (hlive : (s.chan d n).live = false) : writeLands d n s = .next s := by
  unfold writeLands
  rw [if_neg (by rw [hup, hwaits]; simp), hi]
  dsimp only [Option.getD_some]
  rw [hr]
  exact (if_neg (by rw [hnear]; nofun)).trans (if_pos hlive)

/-- The next write of a run, accepted at its home once the run has come to it. -/
theorem writeLands_home {u : State} {y : DRun} {w : Nat × List Byte} (hup : s.dieUp d = true) (hwaits : s.chanWaits d n = false) (hi : s.writer d n = some i)
    (hr : (s.chan d n).q[i]? = some r) (hnear : s.dstFar r.desc = false) (hlive : (s.chan d n).live = true) (hu : u = s.advance d n i (advanceFuel r.desc))
    (hy : (u.chan d n).q[i]? = some y) (hw : w = y.nextWrite r.desc) : writeLands d n s =
      if y.writeReady r.desc = false ∨ (u.chan d n).live = false then .next u
      else if u.repartWaits (u.runAddr y true w.1) w.2.length then .next u
      else if u.reachable d (u.runAddr y true w.1) w.2.length then
        .next (((u.writeStored d y w).runAccepted d n i fun r' => (r'.issued r.desc w).accepted).pumpAll d n)
      else .next ((u.modRun d n i (fun z => { z with accessed := true })).deadAccess d n i 1 w.1 (u.hole (u.runAddr y true w.1) w.2.length) false) := by
  subst hu hw
  unfold writeLands
  rw [if_neg (by rw [hup, hwaits]; simp), hi]
  dsimp only [Option.getD_some]
  rw [hr]
  dsimp only
  rw [if_neg (by rw [hnear]; nofun), if_neg (by rw [hlive]; nofun), hy]
  rfl

end Lands

section Data

variable {s : State} {d n i : Nat} {r : DRun} {bs : List Byte}

/-- Whether a run waits for data of another module. -/
abbrev State.farReading (s : State) (r : DRun) : Bool := r.started && r.status.isNone && s.srcFar r.desc && decide (r.due < r.rd)

theorem State.farReading_false (h : r.started = false ∨ r.status.isSome = true ∨ s.srcFar r.desc = false ∨ r.rd ≤ r.due) : s.farReading r = false := by
  unfold State.farReading
  rcases h with h | h | h | h
  · rw [h]
    rfl
  · simp [Option.isSome_iff_ne_none.1 h]
  · rw [h, Bool.and_false, Bool.false_and]
  · rw [decide_eq_false (Nat.not_lt.2 h), Bool.and_false]

/-- Data for a die that is down, or for a channel that waits with an event record, changes nothing. -/
theorem dataReturns_idle (h : s.dieUp d = false ∨ s.chanWaits d n = true) : dataReturns d n bs s = .next s := if_pos h

/-- Data of a cancelled descriptor answers its request alone. -/
theorem dataReturns_late (hup : s.dieUp d = true) (hwaits : s.chanWaits d n = false) (hlate : s.lateReads d n = true) : dataReturns d n bs s = .next (s.answered d n 0) :=
  (if_neg (by rw [hup, hwaits]; simp)).trans (if_pos hlate)

/-- A run that takes data; a tile that is complete leads to what follows it. -/
def DRun.taken (r : DRun) (bs : List Byte) : DRun :=
  let t := r.take r.desc bs
  if t.gap = false ∧ t.tileRead r.desc = true then t.tileDone r.desc else t

/-- The run that waits for data takes it. -/
def State.dataTaken (s : State) (d n i : Nat) (bs : List Byte) : State :=
  ((s.answered d n 0).modChan d n (fun c => if c.st = .halted then c else { c with retry := 0 })).takeData d n i bs

/-- Data goes to the first run that waits for some. -/
theorem dataReturns_first (hup : s.dieUp d = true) (hwaits : s.chanWaits d n = false) (hlate : s.lateReads d n = false) (hi : firstIdx (s.chan d n).q s.farReading 0 = i) :
    dataReturns d n bs s = (s.chan d n).q[i]?.elim (.next s) fun r =>
      if bs.length ≠ (r.readAt r.desc r.due).2 then .next s else .next ((s.dataTaken d n i bs).pumpAll d n) := by
  unfold dataReturns
  dsimp only
  rw [if_neg (by rw [hup, hwaits]; simp), if_neg (by rw [hlate]; nofun), hi]
  cases (s.chan d n).q[i]? <;> rfl

/-- What the data that returns changes. -/
theorem State.dataTaken_spec (hr : (s.chan d n).q[i]? = some r) : let v := s.dataTaken d n i bs
    v = { s with links := v.links, chans := v.chans } ∧ (v.chan d n).retry = (if (s.chan d n).st = .halted then (s.chan d n).retry else 0) ∧
      (∀ j, j ≠ i → (v.chan d n).q[j]? = (s.chan d n).q[j]?) ∧
      (r.desc.tiled = false → r.gap = false → r.ahead = [] → (v.chan d n).q[i]? = some { r with hold := r.hold ++ bs, ret := r.ret + 1 }) ∧
      (r.desc.tiled = false → r.gap = true → (v.chan d n).q[i]? = some { r with ahead := r.ahead ++ [bs] }) := by
  intro v
  have hanswered := answered_links_only s d n 0
  have hchan : v.chan d n = { s.chan d n with
      q := (s.chan d n).q.mapIdx (fun j r => if j = i then r.taken bs else r), retry := if (s.chan d n).st = .halted then (s.chan d n).retry else 0 } := by
    refine (State.chan_modRun ..).trans ?_
    rw [State.chan_modChan_same, answered_chan_eq]
    split <;> rfl
  have hrun : (v.chan d n).q[i]? = some (r.taken bs) := by
    rw [hchan]
    exact (mapIdx_at _ _ _ _).trans (by rw [if_pos rfl, hr]; rfl)
  have hplain : r.desc.tiled = false → r.taken bs = r.take r.desc bs := fun htiled => if_neg fun h => by
    have hread := h.2
    rw [DRun.tileRead, htiled] at hread
    exact nomatch hread
  refine ⟨?_, by rw [hchan], fun j hj => ?_, fun htiled hgap hahead => ?_, fun htiled hgap => ?_⟩
  · show State.modRun (State.modChan _ d n _) d n i _ = _
    unfold State.modRun State.modChan
    exact congrArg (fun x : State => { x with chans := v.chans }) hanswered
  · rw [hchan]
    exact (mapIdx_at _ _ _ _).trans (if_neg hj)
  · rw [hrun, hplain htiled, DRun.take, if_neg (by rw [hgap]; nofun)]
    simp [htiled, hahead]
  · rw [hrun, hplain htiled, DRun.take, if_pos hgap]

end Data

/-- What comes by a packet for another module goes on, over a link that is UP (R429). -/
theorem State.inTransit_idle {s : State} {d l : Nat} (h : s.dieUp d = false ∨ s.linkUp d l = false) (type : Nat) (p : Packet) (bs : List Byte) : s.inTransit d l type p bs = s :=
  if_neg fun hh => h.elim (by rw [hh.1]; nofun) (by rw [hh.2]; nofun)

/-- Settles O41: accepts by `writeLands_far` and `writeLands_home`, data by `dataReturns_first`. -/
theorem writesAreAcceptedAndDataReturns : Obligations.WritesAreAcceptedAndDataReturns := by
  unfold Obligations.WritesAreAcceptedAndDataReturns
  refine ⟨fun s d n l p bs => ⟨fun hhere => ⟨if_pos hhere, if_pos hhere⟩, fun haway => ⟨fun hidle => ?still, fun hup hlink => ?onward⟩⟩,
    fun s d n => ⟨fun h => writeLands_idle h, fun hup hwaits hnone => writeLands_none hup hwaits hnone, fun i r hup hwaits hi hr =>
      ⟨fun hfar hlate => ?lands, fun hfar hlate hsent => ?unsent, fun w ws hfar hlate hsent => ?accepted, fun hnear hlive => writeLands_still hup hwaits hi hr hnear hlive,
        fun hnear hlive u hu y w hy hw => ⟨fun hno => ?unready, fun hready hgo p hp => ?home⟩⟩⟩,
    fun x y w h => ⟨DRun.nextWrite_copy h, DRun.writeReady_copy h, DRun.issued_copy h w, DRun.issued_accepted_copy h w,
      fun i0 i1 i2 h0 h1 z hz hlow hhigh => DRun.writeAddr_copy h h0 h1 hz hlow hhigh⟩,
    fun s d n bs => ⟨fun h => dataReturns_idle h, fun hup hwaits hlate => dataReturns_late hup hwaits hlate, fun hup hwaits hlate hnone => ?unawaited,
      fun i r hup hwaits hlate hr hstart hstatus hfar hdue hbefore => ?data⟩⟩
  case still =>
    have hno : ¬s.forHere p = true := by rw [haway]; nofun
    exact ⟨(if_neg hno).trans (congrArg _ (State.inTransit_idle hidle 3 p [])), (if_neg hno).trans (congrArg _ (State.inTransit_idle hidle 1 p bs))⟩
  case onward =>
    have hno : ¬s.forHere p = true := by rw [haway]; nofun
    exact ⟨(if_neg hno).trans (congrArg _ (if_pos ⟨hup, hlink⟩)), (if_neg hno).trans (congrArg _ (if_pos ⟨hup, hlink⟩))⟩
  case lands => exact (writeLands_far hup hwaits hi hr hfar).trans (if_pos hlate)
  case unsent => exact (writeLands_far hup hwaits hi hr hfar).trans ((if_neg (by rw [hlate]; nofun)).trans (if_neg (not_not_intro hsent)))
  case accepted =>
    have hlinks := answered_links_only s d n 2
    obtain ⟨hretry, hgiven, hrest⟩ := State.runAccepted_spec (u := s.answered d n 2) s DRun.accepted hr (by rw [hlinks]) (by rw [hlinks])
    have hrun : r.accepted = { r with sent := ws, wr := r.wr + 1, bytes := r.bytes + w.2.length } := by
      rw [DRun.accepted, hsent]
      rfl
    have hexec := (writeLands_far hup hwaits hi hr hfar).trans ((if_neg (by rw [hlate]; nofun)).trans (if_pos (by rw [hsent]; nofun)))
    generalize (s.answered d n 2).runAccepted d n i DRun.accepted = v at *
    refine ⟨v, hexec, hretry, hrun ▸ hgiven, ?_⟩
    have hvlinks : v.links = (s.answered d n 2).links := by rw [hrest]
    rw [hvlinks]
    exact hrest.trans (congrArg (fun x : State => { x with chans := v.chans, dies := v.dies }) hlinks)
  case unready => exact (writeLands_home hup hwaits hi hr hnear hlive hu hy hw).trans (if_pos hno)
  case home =>
    have hexec := (writeLands_home hup hwaits hi hr hnear hlive hu hy hw).trans (if_neg fun h => h.elim (by rw [hready]; nofun) (by rw [hgo]; nofun))
    rw [← hp] at hexec
    refine ⟨fun hwait => hexec.trans (if_pos hwait), fun hwait hreach => ?_, fun hwait hreach hslot hplace hbarred htable => ?_⟩
    · exact hexec.trans ((if_neg (by rw [hwait]; nofun)).trans (if_neg (by rw [hreach]; nofun)))
    · have haccept := hexec.trans ((if_neg (by rw [hwait]; nofun)).trans (if_pos hreach))
      exact ⟨_, haccept, State.writeStored_accepted _ hy hp hslot hplace hbarred htable⟩
  case unawaited =>
    refine (dataReturns_first hup hwaits hlate (firstIdx_none _ _ fun r hr => State.farReading_false (hnone r hr))).trans ?_
    rw [List.getElem?_eq_none (Nat.le_refl _)]
    rfl
  case data =>
    have hreading : s.farReading r = true := by simp [State.farReading, hstart, hstatus, hfar, hdue]
    have hfirst := firstIdx_eq s.farReading 0 _ i r hr hreading fun j hj y hy => State.farReading_false (hbefore j hj y hy)
    have hexec := dataReturns_first (bs := bs) hup hwaits hlate hfirst
    rw [hr] at hexec
    exact ⟨fun hlen => hexec.trans (if_pos hlen), fun hlen => ⟨_, hexec.trans (if_neg (not_not_intro hlen)), State.dataTaken_spec hr⟩⟩

end Sys2Proof.Machine
end

section
/-! SUPPORT. Bus errors of channels, and the completion records that they write or hold (R325 to R332). -/

namespace Sys2Proof.Machine

section Errors

variable {s : State} {d n i : Nat} {r : DRun}

/-- Whether a run has a read in flight whose data can come back. -/
abbrev DRun.reading (r : DRun) : Bool := r.started && r.status.isNone && !r.readBack && decide (r.due < r.rd)

theorem DRun.reading_false (h : r.started = false ∨ r.status.isSome = true ∨ r.readBack = true ∨ r.rd ≤ r.due) : r.reading = false := by
  unfold DRun.reading
  rcases h with h | h | h | h
  · rw [h]
    rfl
  · simp [Option.isSome_iff_ne_none.1 h]
  · rw [h, Bool.not_true, Bool.and_false, Bool.false_and]
  · rw [decide_eq_false (Nat.not_lt.2 h), Bool.and_false]

/-- A channel on which no bus error can come: it is not there, is not served, does not run, or waits with an event record. -/
theorem execDrayError_idle {k : Nat} (h : s.chanExists d n = false ∨ s.dieUp d = false ∨ (s.chan d n).st ≠ .running ∨ s.chanWaits d n = true) :
    exec (.drayAccessError d n k) s = .next s := if_pos h

/-- A channel that runs takes bus errors. -/
structure State.ChanRuns (s : State) (d n : Nat) : Prop where
  there : s.chanExists d n = true
  up : s.dieUp d = true
  running : (s.chan d n).st = .running
  free : s.chanWaits d n = false

theorem State.ChanRuns.not_idle (h : s.ChanRuns d n) : ¬(s.chanExists d n = false ∨ s.dieUp d = false ∨ (s.chan d n).st ≠ .running ∨ s.chanWaits d n = true) := by
  rw [h.there, h.up, h.running, h.free]
  simp

/-- A bus error of a read is that of the first run with a read in flight. -/
theorem execDrayError_read (h : s.ChanRuns d n) (hi : firstIdx (s.chan d n).q DRun.reading 0 = i) : exec (.drayAccessError d n 0) s =
    (s.chan d n).q[i]?.elim (.next s) fun r => .next (if s.srcFar r.desc then s.farFails d n i 0 (s.readReq d n r r.due)
      else (s.spadParity (s.runAddr r false (r.readAt r.desc r.due).1)).busError d n i 0 (r.readAt r.desc r.due).1 true) := by
  show execDrayAccessError d n 0 s = _
  unfold execDrayAccessError
  dsimp only
  rw [if_neg h.not_idle, if_pos rfl, hi]
  cases (s.chan d n).q[i]? <;> rfl

/-- A bus error of a write without a run that writes changes nothing. -/
theorem execDrayError_no_writer (h : s.ChanRuns d n) (hnone : s.writer d n = none) : exec (.drayAccessError d n 1) s = .next s := by
  show execDrayAccessError d n 1 s = _
  unfold execDrayAccessError
  dsimp only
  rw [if_neg h.not_idle, if_neg (by omega), if_pos rfl, hnone]

/-- A bus error of a write is that of the run that writes. -/
theorem execDrayError_write (h : s.ChanRuns d n) (hi : s.writer d n = some i) (hr : (s.chan d n).q[i]? = some r) : exec (.drayAccessError d n 1) s =
    if s.dstFar r.desc = false then .next (s.busError d n i 1 (r.nextWrite r.desc).1 false)
    else r.sent.head?.elim (.next s) fun w => .next (s.farFails d n i 1 (s.writeReq d n r r.wr w)) := by
  show execDrayAccessError d n 1 s = _
  unfold execDrayAccessError
  dsimp only
  rw [if_neg h.not_idle, if_neg (by omega), if_pos rfl, hi]
  dsimp only
  rw [hr]
  dsimp only
  cases r.sent <;> rfl

/-- A bus error of a read-back is that of the head of the channel, where it has one. -/
theorem execDrayError_back (h : s.ChanRuns d n) : exec (.drayAccessError d n 2) s =
    (s.chan d n).q[0]?.elim (.next s) fun r => if r.readBack = true ∧ r.status.isNone = true then
      .next (if s.dstFar r.desc then s.farFails d n 0 2 (s.backReq d n r) else s.busError d n 0 2 r.lastAddr true) else .next s := by
  show execDrayAccessError d n 2 s = _
  unfold execDrayAccessError
  dsimp only
  rw [if_neg h.not_idle, if_neg (by omega), if_neg (by omega), if_pos rfl]
  cases (s.chan d n).q <;> rfl

/-- There is no bus error of another kind. -/
theorem execDrayError_other {k : Nat} (h : 3 ≤ k) : exec (.drayAccessError d n k) s = .next s := by
  show execDrayAccessError d n k s = _
  unfold execDrayAccessError
  dsimp only
  rw [if_neg (by omega : ¬k = 0), if_neg (by omega : ¬k = 1), if_neg (by omega : ¬k = 2)]
  split <;> rfl

/-- A read that fails at a powered scratchpad counts there. -/
theorem State.spadParity_spad {a c o : Nat} (h : coreSpaceOf a = some (c, o)) (ho : o < 0xC0000) : s.spadParity a = s.count (SPAD_STAT_PARITY (dieOf a) c) 1 := by
  unfold State.spadParity
  rw [h]
  exact if_pos ho

theorem State.spadParity_else {a : Nat} (h : ∀ c o, coreSpaceOf a = some (c, o) → 0xC0000 ≤ o) : s.spadParity a = s := by
  unfold State.spadParity
  cases ha : coreSpaceOf a with
  | none => rfl
  | some x => exact if_neg (Nat.not_lt.2 (h x.1 x.2 ha))

/-- A bus error is retried three times. -/
theorem State.busError_retried {k a : Nat} {flying : Bool} (h : (s.chan d n).retry < 3) : s.busError d n i k a flying =
    (s.modChan d n (fun c => { c with retry := c.retry + 1, errAddr := a % 2 ^ 48, errKind := k })).raise (chanEv 129 d n [(2, n), (6, a % 2 ^ 48), (1, k)]) := if_pos h

/-- At the fourth the channel halts. -/
theorem State.busError_halts {k a : Nat} {flying : Bool} (h : 3 ≤ (s.chan d n).retry) : s.busError d n i k a flying = s.haltChan d n i k a flying := if_neg (Nat.not_lt.2 h)

/-- A write that fails where none is to be issued again is. -/
theorem DRun.fails_write (h : r.again = []) : r.fails 1 true = { r with again := r.sent.take 1, sent := r.sent.drop 1 } := by
  rw [DRun.fails, if_neg (by omega), if_pos rfl]
  exact if_pos ⟨rfl, h⟩

/-- The event of an access that no part of the map occupies changes what events change. -/
theorem State.tryDead_hole {k a : Nat} {flying : Bool} : ∃ u, Raised s u ∧ s.tryDead d n i k a true flying = u.busError d n i k a flying :=
  ⟨_, State.unmapped_raised (Raised.refl s) .., rfl⟩

end Errors

section ReadBack

variable {s : State} {d n : Nat} {r : DRun} {rest : List DRun}

/-- A channel without descriptors takes no read-back. -/
theorem exec_readBack_empty (hq : (s.chan d n).q = []) : exec (.readBack d n) s = .next s := by
  show execReadBack d n s = _
  unfold execReadBack
  rw [hq]
  split <;> rfl

/-- A read-back that the head of its channel does not wait for changes nothing. -/
theorem exec_readBack_idle (hq : (s.chan d n).q = r :: rest) (h : s.dieUp d = false ∨ s.chanWaits d n = true ∨ r.readBack = false ∨ r.status ≠ none) :
    exec (.readBack d n) s = .next s := by
  show execReadBack d n s = _
  unfold execReadBack
  by_cases hs : s.dieUp d = false ∨ s.chanWaits d n = true
  · exact if_pos hs
  · rw [if_neg hs, hq]
    refine if_pos ?_
    rw [Option.isSome_iff_ne_none]
    tauto

/-- The head of a channel whose read-back returns is done. -/
def State.backTaken (s : State) (d n : Nat) (r : DRun) : State :=
  ((if s.dstFar r.desc then s.answered d n 0 else s).modRun d n 0 (fun r => { r with status := some (0, 0) })).modChan d n (fun c => { c with retry := 0 })

theorem exec_readBack (hq : (s.chan d n).q = r :: rest) (hup : s.dieUp d = true) (hwaits : s.chanWaits d n = false) (hback : r.readBack = true) (hstatus : r.status = none) :
    exec (.readBack d n) s = .next (((s.backTaken d n r).flushAll d n).pumpAll d n) := by
  show execReadBack d n s = _
  unfold execReadBack
  rw [if_neg (by rw [hup, hwaits]; simp), hq]
  exact if_neg (by rw [hback, hstatus]; simp)

/-- Changing the first of a list. -/
theorem mapIdx_head {α : Type} (f : α → α) (x : α) (xs : List α) : (x :: xs).mapIdx (fun j y => if j = 0 then f y else y) = f x :: xs := by
  rw [List.mapIdx_cons]
  refine congrArg _ (List.ext_getElem? fun j => ?_)
  simp

theorem State.backTaken_spec (hq : (s.chan d n).q = r :: rest) : let v := s.backTaken d n r
    v = { s with links := v.links, chans := v.chans } ∧ v.chan d n = { s.chan d n with q := { r with status := some (0, 0) } :: rest, retry := 0 } := by
  intro v
  have hanswered : (if s.dstFar r.desc then s.answered d n 0 else s) = { s with links := (if s.dstFar r.desc then s.answered d n 0 else s).links } := by
    split
    · exact answered_links_only s d n 0
    · rfl
  have hchan : (if s.dstFar r.desc then s.answered d n 0 else s).chan d n = s.chan d n := by
    rw [hanswered]
    rfl
  refine ⟨?_, ?_⟩
  · show State.modChan (State.modRun _ d n 0 _) d n _ = _
    unfold State.modRun State.modChan
    exact congrArg (fun x : State => { x with chans := v.chans }) hanswered
  · show (State.modChan (State.modRun _ d n 0 _) d n _).chan d n = _
    rw [State.chan_modChan_same, State.chan_modRun, hchan, hq, mapIdx_head]

end ReadBack

section Records

variable {s : State} {d n q : Nat} {r : DRun} {rest : List DRun}

/-- A queue takes records while it is enabled and not full. -/
theorem State.cqTakes_iff : s.cqTakes d q = true ↔ s.rd (DRAY_CQ_CTL_EN d q) = 1 ∧
    (s.rd (DRAY_CQ_PTR_TAIL d q) + 2 ^ 17 - s.rd (DRAY_CQ_PTR_HEAD d q)) % 2 ^ 17 < 2 ^ s.rd (DRAY_CQ_CTL_LOG2 d q) := by
  rw [State.cqTakes, State.flag, Bool.and_eq_true, decide_eq_true_eq, decide_eq_true_eq]

/-- The record at the head of a channel that is due: written, or held. -/
theorem State.flush_due {st code fuel : Nat} (hq : (s.chan d n).q = r :: rest) (hstatus : r.status = some (st, code)) : s.flush d n (fuel + 1) =
    if s.cqTakes d r.desc.cq then (s.putRecord d n r st code).flush d n fuel
    else if (s.die d).cqHolding.contains r.desc.cq then s
    else (s.modDie d (fun y => { y with cqHolding := insertAsc r.desc.cq y.cqHolding })).raise (mkEv 131 d 0xFF 21 r.desc.cq [(1, r.desc.cq)]) := by
  rw [State.flush, hq]
  dsimp only
  rw [hstatus]

theorem State.rd_accum_same (s : State) (f : FRef) (v : Nat) (hf : f.lo + f.width ≤ 64) : (s.accum f v).rd f = (s.rd f + v) % 2 ^ f.width := State.rd_wr_same _ _ _ hf

theorem State.word_accum_ne (s : State) {f : FRef} {p : RegId} (v : Nat) (h : f.reg ≠ p) : (s.accum f v).word p = s.word p := State.word_wr_ne _ _ h

/-- The counter of a record's STATUS counts it. -/
def State.statusCounted (y : State) (d n st : Nat) : State :=
  if st = 0 then y.accum (DRAY_CH_OK_CNT_OK d n) 1 else if st = 1 then y.accum (DRAY_CH_ERR_CNT_ERR d n) 1 else y.accum (DRAY_CH_CAN_CNT_CAN d n) 1

/-- One of the three counters counts, and the others stand. -/
theorem State.statusCounted_spec (y : State) (d n st : Nat) : let u := y.statusCounted d n st
    u = { y with regs := u.regs } ∧ (∀ x, u.byteAt x = y.byteAt x) ∧
      (∀ p, p ≠ .DRAY_CH_OK_CNT d n → p ≠ .DRAY_CH_ERR_CNT d n → p ≠ .DRAY_CH_CAN_CNT d n → u.word p = y.word p) ∧
      u.rd (DRAY_CH_OK_CNT_OK d n) = (y.rd (DRAY_CH_OK_CNT_OK d n) + if st = 0 then 1 else 0) % 2 ^ 48 ∧
      u.rd (DRAY_CH_ERR_CNT_ERR d n) = (y.rd (DRAY_CH_ERR_CNT_ERR d n) + if st = 1 then 1 else 0) % 2 ^ 48 ∧
      u.rd (DRAY_CH_CAN_CNT_CAN d n) = (y.rd (DRAY_CH_CAN_CNT_CAN d n) + if st = 0 ∨ st = 1 then 0 else 1) % 2 ^ 48 := by
  have hstill : ∀ (f : FRef) (t : State), f.width = 48 → t.word f.reg = y.word f.reg → t.rd f = (y.rd f + 0) % 2 ^ 48 := fun f t hf ht => by
    have hlt := y.rd_lt f
    rw [hf] at hlt
    rw [State.rd_congr ht, Nat.add_zero, Nat.mod_eq_of_lt hlt]
  unfold State.statusCounted
  by_cases h0 : st = 0
  · subst h0
    exact ⟨rfl, byteAt_accum _ rfl _, fun p hok _ _ => State.word_accum_ne _ _ hok.symm, State.rd_accum_same _ _ _ fle,
      hstill _ _ rfl (State.word_accum_ne _ _ (by nofun)), hstill _ _ rfl (State.word_accum_ne _ _ (by nofun))⟩
  · by_cases h1 : st = 1
    · subst h1
      exact ⟨rfl, byteAt_accum _ rfl _, fun p _ herr _ => State.word_accum_ne _ _ herr.symm, hstill _ _ rfl (State.word_accum_ne _ _ (by nofun)),
        State.rd_accum_same _ _ _ fle, hstill _ _ rfl (State.word_accum_ne _ _ (by nofun))⟩
    · rw [if_neg h0, if_neg h1, if_neg h0, if_neg h1, if_neg (by omega : ¬(st = 0 ∨ st = 1))]
      exact ⟨rfl, byteAt_accum _ rfl _, fun p _ _ hcan => State.word_accum_ne _ _ hcan.symm, hstill _ _ rfl (State.word_accum_ne _ _ (by nofun)),
        hstill _ _ rfl (State.word_accum_ne _ _ (by nofun)), State.rd_accum_same _ _ _ fle⟩

/-- The counters of a record that is written: TAIL of its queue, and those of its queue and its channel. -/
def State.recordCounted (c : State) (d n q st : Nat) : State :=
  ((((c.wr (DRAY_CQ_PTR_TAIL d q) (c.rd (DRAY_CQ_PTR_TAIL d q) + 1)).accum (DRAY_CQ_QW_QW d q) 1).accum (DRAY_CH_CMP_CNT_CMP d n) 1)).statusCounted d n st

theorem State.recordCounted_spec (c : State) (d n q st : Nat) : let u := c.recordCounted d n q st
    u = { c with regs := u.regs } ∧ (∀ x, u.byteAt x = c.byteAt x) ∧ u.rd (DRAY_CQ_PTR_TAIL d q) = (c.rd (DRAY_CQ_PTR_TAIL d q) + 1) % 2 ^ 17 ∧
      u.rd (DRAY_CQ_QW_QW d q) = (c.rd (DRAY_CQ_QW_QW d q) + 1) % 2 ^ 48 ∧ u.rd (DRAY_CH_CMP_CNT_CMP d n) = (c.rd (DRAY_CH_CMP_CNT_CMP d n) + 1) % 2 ^ 48 ∧
      u.rd (DRAY_CH_OK_CNT_OK d n) = (c.rd (DRAY_CH_OK_CNT_OK d n) + if st = 0 then 1 else 0) % 2 ^ 48 ∧
      u.rd (DRAY_CH_ERR_CNT_ERR d n) = (c.rd (DRAY_CH_ERR_CNT_ERR d n) + if st = 1 then 1 else 0) % 2 ^ 48 ∧
      u.rd (DRAY_CH_CAN_CNT_CAN d n) = (c.rd (DRAY_CH_CAN_CNT_CAN d n) + if st = 0 ∨ st = 1 then 0 else 1) % 2 ^ 48 := by
  let t := c.wr (DRAY_CQ_PTR_TAIL d q) (c.rd (DRAY_CQ_PTR_TAIL d q) + 1)
  let w := t.accum (DRAY_CQ_QW_QW d q) 1
  let y := w.accum (DRAY_CH_CMP_CNT_CMP d n) 1
  obtain ⟨hrest, hmem, hword, hok, herr, hcan⟩ := y.statusCounted_spec d n st
  have hy : ∀ p, p ≠ .DRAY_CH_CMP_CNT d n → y.word p = w.word p := fun p hp => State.word_accum_ne (f := DRAY_CH_CMP_CNT_CMP d n) _ _ hp.symm
  have hw : ∀ p, p ≠ .DRAY_CQ_QW d q → w.word p = t.word p := fun p hp => State.word_accum_ne (f := DRAY_CQ_QW_QW d q) _ _ hp.symm
  have ht : ∀ p, p ≠ .DRAY_CQ_PTR d q → t.word p = c.word p := fun p hp => State.word_wr_ne (f := DRAY_CQ_PTR_TAIL d q) _ _ hp.symm
  have hchan : ∀ f : FRef, f.reg ≠ .DRAY_CH_CMP_CNT d n → f.reg ≠ .DRAY_CQ_QW d q → f.reg ≠ .DRAY_CQ_PTR d q → y.rd f = c.rd f := fun f h1 h2 h3 =>
    State.rd_congr ((hy _ h1).trans ((hw _ h2).trans (ht _ h3)))
  refine ⟨hrest, fun x => ?_, ?_, ?_, ?_, ?_, ?_, ?_⟩
  · exact (hmem x).trans ((byteAt_accum _ rfl _ x).trans ((byteAt_accum _ rfl _ x).trans (State.byteAt_wr _ rfl _ x)))
  · exact (State.rd_congr ((hword _ (by nofun) (by nofun) (by nofun)).trans ((hy _ (by nofun)).trans (hw _ (by nofun))))).trans (State.rd_wr_same _ _ _ fle)
  · refine (State.rd_congr ((hword _ (by nofun) (by nofun) (by nofun)).trans (hy _ (by nofun)))).trans ((State.rd_accum_same _ _ _ fle).trans ?_)
    rw [State.rd_congr (ht (.DRAY_CQ_QW d q) (by nofun))]
    rfl
  · refine (State.rd_congr (hword _ (by nofun) (by nofun) (by nofun))).trans ((State.rd_accum_same _ _ _ fle).trans ?_)
    rw [State.rd_congr ((hw (.DRAY_CH_CMP_CNT d n) (by nofun)).trans (ht _ (by nofun)))]
    rfl
  · exact hok.trans (by rw [hchan (DRAY_CH_OK_CNT_OK d n) (by nofun) (by nofun) (by nofun)])
  · exact herr.trans (by rw [hchan (DRAY_CH_ERR_CNT_ERR d n) (by nofun) (by nofun) (by nofun)])
  · exact hcan.trans (by rw [hchan (DRAY_CH_CAN_CNT_CAN d n) (by nofun) (by nofun) (by nofun)])

/-- Counting a record changes registers alone. -/
theorem MemRegs.recordCounted {c : State} (h : MemRegs s c) (d n q st : Nat) : MemRegs s (c.recordCounted d n q st) := by
  unfold State.recordCounted State.statusCounted
  split
  · exact (((h.wr _ _).accum _ _).accum _ _).accum _ _
  · split
    · exact (((h.wr _ _).accum _ _).accum _ _).accum _ _
    · exact (((h.wr _ _).accum _ _).accum _ _).accum _ _

/-- The record of a run is written: counters, memory, deadline, credit, stage and posts follow in that order. -/
theorem State.putRecord_counted {st code a : Nat} {c : State} (ha : a = s.rd (DRAY_CQ_BASE_BASE d r.desc.cq) + 32 * (s.rd (DRAY_CQ_PTR_TAIL d r.desc.cq) % 2 ^ s.rd (DRAY_CQ_CTL_LOG2 d r.desc.cq)))
    (hok : s.accessOk a 32 = true → c = s.setBytes a (s.recordOf n r st code))
    (hbad : s.accessOk a 32 = false → c = s.unmapped d (chanEv 2 d n []).core (chanEv 2 d n []).unit (chanEv 2 d n []).inst a n) {v w x : State}
    (hv : v = (if st = 0 then (c.recordCounted d n r.desc.cq st).forgetOverlap r else if r.accessed then (c.recordCounted d n r.desc.cq st).forgetDst r
      else c.recordCounted d n r.desc.cq st))
    (hw : w = (v.modChan d n (fun c => { c with q := c.q.drop 1, code := if st = 0 then c.code else code, st := if c.q.drop 1 = [] ∧ c.st = .running then .idle else c.st })).deadline d n r)
    (hx : x = (if r.credit then w.creditPost d n (w.rd (DRAY_CH_SCFG_PAIR d n) + if st = 0 then 0 else 1) else w)) :
    s.putRecord d n r st code = (if r.stage then x.modDie d (fun y => { y with stages := y.stages.erase n }) else x).postList d r.by_ r.post := by
  have hc : c = if s.accessOk a 32 then s.setBytes a (s.recordOf n r st code) else s.unmapped d (chanEv 2 d n []).core (chanEv 2 d n []).unit (chanEv 2 d n []).inst a n := by
    cases h : s.accessOk a 32
    · exact hbad h
    · exact hok h
  unfold State.putRecord
  dsimp only
  rw [← ha, ← hc, hx, hw, hv]
  rfl

/-- A record is 32 bytes. -/
theorem length_recordOf (s : State) (n : Nat) (r : DRun) (st code : Nat) : (s.recordOf n r st code).length = 32 := by
  simp only [State.recordOf, List.length_append, length_leBytes]

/-- The record of a run that made no access, and holds no credit, stage or post: its bytes, its counters, and the rest. -/
theorem State.putRecord_plain {st code a : Nat} (ha : a = s.rd (DRAY_CQ_BASE_BASE d r.desc.cq) + 32 * (s.rd (DRAY_CQ_PTR_TAIL d r.desc.cq) % 2 ^ s.rd (DRAY_CQ_CTL_LOG2 d r.desc.cq)))
    (hst : st ≠ 0) (haccessed : r.accessed = false) (hcredit : r.credit = false) (hstage : r.stage = false) (hpost : r.post = 0) (hlast : (s.chan d n).lastAcc ≠ some r.seq)
    (hq : (s.chan d n).q = r :: rest) (hok : s.accessOk a 32 = true) : let t := s.putRecord d n r st code
    let c := s.setBytes a (s.recordOf n r st code)
    (∀ x, t.byteAt x = c.byteAt x) ∧ t.rd (DRAY_CQ_PTR_TAIL d r.desc.cq) = (s.rd (DRAY_CQ_PTR_TAIL d r.desc.cq) + 1) % 2 ^ 17 ∧
      t.rd (DRAY_CQ_QW_QW d r.desc.cq) = (s.rd (DRAY_CQ_QW_QW d r.desc.cq) + 1) % 2 ^ 48 ∧ t.rd (DRAY_CH_CMP_CNT_CMP d n) = (s.rd (DRAY_CH_CMP_CNT_CMP d n) + 1) % 2 ^ 48 ∧
      (st = 1 → t.rd (DRAY_CH_ERR_CNT_ERR d n) = (s.rd (DRAY_CH_ERR_CNT_ERR d n) + 1) % 2 ^ 48) ∧
      (st = 2 → t.rd (DRAY_CH_CAN_CNT_CAN d n) = (s.rd (DRAY_CH_CAN_CNT_CAN d n) + 1) % 2 ^ 48) ∧
      (t.chan d n).q = rest ∧ (t.chan d n).code = code ∧ t = { s with mem := t.mem, undef := t.undef, regs := t.regs, chans := t.chans } := by
  dsimp only
  obtain ⟨y, z, hy, hz, hput⟩ := putRecord_eq s d n r rest st code a ha hst haccessed hcredit hstage hpost hlast hq hok
  have hzc : z = (s.setBytes a (s.recordOf n r st code)).recordCounted d n r.desc.cq st := by
    rw [hz, hy]
    exact (if_neg hst).symm
  obtain ⟨-, hmem, htail, hqw, hcmp, -, herr, hcan⟩ := (s.setBytes a (s.recordOf n r st code)).recordCounted_spec d n r.desc.cq st
  rw [← hzc] at hmem htail hqw hcmp herr hcan
  have hrd : ∀ f : FRef, (s.setBytes a (s.recordOf n r st code)).rd f = s.rd f := fun f => State.rd_setBytes ..
  have hmemregs : MemRegs s z := hzc ▸ MemRegs.recordCounted (MemRegs.setBytes s a _) d n r.desc.cq st
  have hchan : (s.putRecord d n r st code).chan d n = { s.chan d n with
      q := (s.chan d n).q.drop 1, code := code, st := if (s.chan d n).q.drop 1 = [] ∧ (s.chan d n).st = .running then .idle else (s.chan d n).st } := by
    rw [hput, State.chan_modChan_same, hmemregs.chan]
  refine ⟨fun x => ?_, ?_, ?_, ?_, fun h1 => ?_, fun h2 => ?_, ?_, by rw [hchan], ?_⟩
  · rw [hput]
    exact hmem x
  · rw [hrd] at htail
    rw [hput]
    exact htail
  · rw [hrd] at hqw
    rw [hput]
    exact hqw
  · rw [hrd] at hcmp
    rw [hput]
    exact hcmp
  · rw [if_pos h1, hrd] at herr
    rw [hput]
    exact herr
  · rw [if_neg (by omega), hrd] at hcan
    rw [hput]
    exact hcan
  · rw [hchan, hq]
    rfl
  · rw [hput]
    exact hmemregs.modChan d n _

end Records

/-- Settles O42: bus errors by `execDrayError_read`, `execDrayError_write` and `execDrayError_back`, records by `State.flush_due` and `State.putRecord_counted`. -/
theorem accessesAreRetriedAndRecordsWritten : Obligations.AccessesAreRetriedAndRecordsWritten := by
  unfold Obligations.AccessesAreRetriedAndRecordsWritten
  refine ⟨fun s d n k => ⟨fun h => ?idle, fun hex hup hst hwaits => ?errors⟩, fun s d n i k q v hv => ⟨answered_links_only .., by rw [hv]; rfl⟩,
    fun s a => ⟨fun c o h ho => State.spadParity_spad h ho, State.spadParity_else⟩, fun s d n i k a flying => ⟨State.busError_retried, fun h => ?halts⟩,
    fun r flying => ⟨rfl, rfl, rfl, DRun.fails_write⟩, fun s d n i k a hole flying => ⟨rfl, State.tryDead_hole, _, _, _, rfl, rfl, rfl, rfl⟩,
    fun s d n => ⟨exec_readBack_empty, fun r rest hq => ⟨exec_readBack_idle hq, fun hup hwaits hback hstatus =>
      ⟨_, exec_readBack hq hup hwaits hback hstatus, State.backTaken_spec hq⟩⟩⟩,
    fun s d n r rest st code q fuel hq hstatus hcq => ?flush, fun s d n r st code q a c hcq ha hok hbad => ?put,
    fun s t d n r rest st code q a ht hcq ha hst haccessed hcredit hstage hpost hlast hq hok hplace => ?plain⟩
  case idle =>
    rcases h with h | h | h | h | h
    · exact execDrayError_idle (.inl h)
    · exact execDrayError_idle (.inr (.inl h))
    · exact execDrayError_idle (.inr (.inr (.inl h)))
    · exact execDrayError_idle (.inr (.inr (.inr h)))
    · exact execDrayError_other h
  case errors =>
    have hruns : s.ChanRuns d n := ⟨hex, hup, hst, hwaits⟩
    refine ⟨fun i r a hr hstart hstatus hback hdue hbefore ha => ?_, fun hnone => ?_, execDrayError_no_writer hruns,
      fun i r hi hr => ⟨fun hnear => ?_, fun w ws hfar hsent => ?_, fun hfar hsent => ?_⟩, fun r hr hback hstatus => ?_, fun hnone => ?_⟩
    · have hreading : r.reading = true := by simp [hstart, hstatus, hback, hdue]
      have hfirst := firstIdx_eq DRun.reading 0 _ i r hr hreading fun j hj y hy => DRun.reading_false (hbefore j hj y hy)
      rw [execDrayError_read hruns hfirst, hr, ha]
      rfl
    · rw [execDrayError_read hruns (firstIdx_none _ _ fun r hr => DRun.reading_false (hnone r hr)), List.getElem?_eq_none (Nat.le_refl _)]
      rfl
    · exact (execDrayError_write hruns hi hr).trans (if_pos hnear)
    · refine (execDrayError_write hruns hi hr).trans ((if_neg (by rw [hfar]; nofun)).trans ?_)
      rw [hsent]
      rfl
    · refine (execDrayError_write hruns hi hr).trans ((if_neg (by rw [hfar]; nofun)).trans ?_)
      rw [hsent]
      rfl
    · rw [execDrayError_back hruns, hr]
      exact if_pos ⟨hback, by rw [hstatus]; rfl⟩
    · rw [execDrayError_back hruns]
      cases hr : (s.chan d n).q[0]? with
      | none => rfl
      | some r =>
        refine if_neg fun h => (hnone r hr).elim (fun hb => ?_) fun hs => hs (Option.isNone_iff_eq_none.1 h.2)
        rw [hb] at h
        exact nomatch h.1
  case halts =>
    rw [State.busError_halts h]
    exact State.haltChan_spec s d n i k a flying
  case flush =>
    subst hcq
    have hflush := State.flush_due (fuel := fuel) hq hstatus
    refine ⟨State.cqTakes_iff, fun htakes => hflush.trans (if_pos htakes), fun hfull hmem => ?_, fun hfull hmem => ?_⟩
    · exact hflush.trans ((if_neg (by rw [hfull]; nofun)).trans (if_pos (List.contains_iff_mem.2 hmem)))
    · exact hflush.trans ((if_neg (by rw [hfull]; nofun)).trans (if_neg fun h => hmem (List.contains_iff_mem.1 h)))
  case put =>
    subst hcq
    obtain ⟨hrest, hmem, htail, hqw, hcmp, hcok, hcerr, hccan⟩ := c.recordCounted_spec d n r.desc.cq st
    exact ⟨_, hrest, hmem, htail, hqw, hcmp, hcok, hcerr, hccan, fun v w x hv hw hx => State.putRecord_counted ha hok hbad hv hw hx⟩
  case plain =>
    subst ht hcq
    obtain ⟨hmem, hcounts⟩ := State.putRecord_plain (code := code) ha hst haccessed hcredit hstage hpost hlast hq hok
    have hlen := length_recordOf s n r st code
    refine ⟨fun j hj => ?_, fun y hy => ?_, hcounts⟩
    · rw [hmem, setBytes_plain _ _ _ _ (fun i hi => hplace i (hlen ▸ hi)) (hplace j hj), if_pos (by omega), Nat.add_sub_cancel_left]
      rfl
    · rw [hmem]
      exact setBytes_byte _ _ _ _ fun i hi => hy i (hlen ▸ hi)

end Sys2Proof.Machine
end

section
/-! SUPPORT. Requests at the memory of a die: their tags and order (R306, R307), and how a pinned region, the cache and LPDDR6 serve them (R295, R296, R299). -/

namespace Sys2Proof.Machine

section Tags

variable {s : State} {d : Nat} {m x : MemReq}

/-- A request does not keep a later one waiting unless both are of one requester to one granule, and one writes. -/
theorem MemReq.orders_false : x.orders m = false ↔ (x.req = m.req → x.addr / 256 = m.addr / 256 → x.write = false ∧ m.write = false) := by
  simp only [MemReq.orders, Bool.and_eq_false_imp, Bool.and_eq_true, decide_eq_true_eq, Bool.or_eq_false_iff, and_imp]

/-- When a request can be served. -/
theorem State.canServe_iff {l r : Nat} {earlier : List MemReq} (hl : l = ((s.die d).reqs.filter (fun x => !x.remote)).length)
    (hr : r = ((s.die d).reqs.filter (fun x => x.remote)).length) : s.canServe d m earlier = true ↔
      ((if m.remote then r else l) < 2048 ∨ (l - 2048) + (r - 2048) < 12288) ∧ s.depotWaits d = false ∧ (m.req = 426 ∨ s.repartHolds d m.addr = false) ∧
      (∀ x ∈ (s.die d).reqs, x.req = m.req → x.addr / 256 = m.addr / 256 → x.write = false ∧ m.write = false) ∧
      ∀ x ∈ earlier, x.req = m.req → x.addr / 256 ≠ m.addr / 256 := by
  subst hl hr
  simp only [State.canServe, Die.tagFree, Bool.and_eq_true, Bool.or_eq_true, decide_eq_true_eq, Bool.not_eq_true', List.all_eq_true, MemReq.orders_false,
    Bool.and_eq_false_imp, decide_eq_false_iff_not, and_assoc, ne_eq]

/-- Without a change of regions none holds a request up. -/
theorem State.repartHolds_idle {a : Nat} (h : s.rd (DEPOT_STATUS_REPART d) = 0) : s.repartHolds d a = false := by
  rw [State.repartHolds, State.flag, h]
  rfl

/-- A change of regions holds up the lines that it writes back. -/
theorem State.repartHolds_line {a : Nat} (h : s.rd (DEPOT_STATUS_REPART d) = 1) (ha : a / 256 ∈ (s.die d).wback) : s.repartHolds d a = true := by
  rw [State.repartHolds, State.flag, h, List.contains_iff_mem.2 ha]
  rfl

/-- It holds up the slices that it takes. -/
theorem State.repartHolds_slice {a slice : Nat} (h : s.rd (DEPOT_STATUS_REPART d) = 1) (hslice : s.sliceOf d a = some slice) (hmem : slice ∈ (s.die d).repart) :
    s.repartHolds d a = true := by
  rw [State.repartHolds, State.flag, h, hslice]
  simp [hmem]

/-- A freed tag goes to nobody at a die that is down. -/
theorem exec_memTagGrant_down (h : s.dieUp d = false) : exec (.memTagGrant d) s = .next s := if_pos h

/-- A freed tag goes to the first request that can be served. -/
theorem exec_memTagGrant (h : s.dieUp d = true) : exec (.memTagGrant d) s =
    (s.firstServable d [] (s.die d).tagWait).elim (.next s) fun x => .next ((s.modDie d (fun y => { y with tagWait := x.2 })).serve d x.1) := by
  show execMemTagGrant d s = _
  unfold execMemTagGrant
  rw [if_neg (by rw [h]; nofun)]
  cases s.firstServable d [] (s.die d).tagWait <;> rfl

/-- What holding a tag changes. -/
theorem State.holdTag_spec (s : State) (d : Nat) (m : MemReq) :
    ((s.holdTag d m).die d) = { s.die d with reqs := (s.die d).reqs ++ [{ m with arrived := s.frame.cycle, granted := false }] } ∧
      (s.holdTag d m).rd (MEM_TAGS_PEAK d) = max (s.rd (MEM_TAGS_PEAK d)) ((s.die d).reqs.length + 1) % 2 ^ (MEM_TAGS_PEAK d).width ∧
      (∀ r, r ≠ .MEM_TAGS d → (s.holdTag d m).word r = s.word r) ∧ s.holdTag d m = { s with dies := (s.holdTag d m).dies, regs := (s.holdTag d m).regs } := by
  have hdie : ((s.holdTag d m).die d) = { s.die d with reqs := (s.die d).reqs ++ [{ m with arrived := s.frame.cycle, granted := false }] } := by
    rw [State.holdTag, State.peak, State.die_wr, State.die_modDie_same]
  refine ⟨hdie, ?_, fun r hr => State.word_wr_ne _ _ hr.symm, rfl⟩
  refine (State.rd_wr_same _ _ _ fle).trans ?_
  rw [State.rd_modDie, State.die_modDie_same, List.length_append]
  rfl

end Tags

section Request

variable {s : State} {d : Nat} {q : Requester} {addr : BitVec 48} {len parity : Nat} {write : Bool}

/-- A request that reaches no memory of its die. -/
def State.RequestMisses (s : State) (d : Nat) (q : Requester) (addr : BitVec 48) (len : Nat) : Prop :=
  s.dieUp d = false ∨ len = 0 ∨ 256 < addr.toNat % 256 + len ∨ 425 < q.index ∨ dieOf addr.toNat ≠ d ∨ (coreSpaceOf addr.toNat).isSome = true

theorem exec_memoryRequest_misses (h : s.RequestMisses d q addr len) : exec (.memoryRequest d q addr len write parity) s = .next s := if_pos h

/-- The event of a request to an address that no part of the map occupies. -/
def requesterEv (d req : Nat) : Ev := if req < 416 then chanEv 2 d req [] else mkEv 2 d 0xFF (if req < 419 then 23 else 22) (req - 416) []

theorem requesterEv_port {req : Nat} (h : 416 ≤ req) :
    (requesterEv d req).core = 0xFF ∧ (requesterEv d req).unit = (if req < 419 then 23 else 22) ∧ (requesterEv d req).inst = req - 416 := by
  rw [requesterEv, if_neg (Nat.not_lt.2 h)]
  exact ⟨rfl, rfl, rfl⟩

/-- A request to an address that is not there fails. -/
theorem exec_memoryRequest_unmapped (h : ¬s.RequestMisses d q addr len) (hok : s.accessOk addr.toNat len = false) : exec (.memoryRequest d q addr len write parity) s =
    .next (s.unmapped d (requesterEv d q.index).core (requesterEv d q.index).unit (requesterEv d q.index).inst addr.toNat q.index) :=
  (if_neg h).trans (if_pos hok)

/-- The request that reaches the memory of a die. -/
def State.requestOf (s : State) (d : Nat) (q : Requester) (addr : BitVec 48) (len : Nat) (write : Bool) (parity : Nat) : MemReq :=
  let c := if q.index < 416 then s.chanClass d q.index else q.cls.toNat
  { req := q.index, addr := addr.toNat, len := len, write := write, remote := decide (416 ≤ q.index), origin := if q.index < 416 then some (d, q.index) else q.origin,
    key := if q.index < 416 then s.urgency d q.index else q.key.toNat, high := decide (c = 1) || decide (c = 2), arrived := 0, granted := false, fill := false, refetch := false,
    parity := parity }

/-- A request is served, or waits. -/
theorem exec_memoryRequest (h : ¬s.RequestMisses d q addr len) (hok : s.accessOk addr.toNat len = true) : exec (.memoryRequest d q addr len write parity) s =
    if s.canServe d (s.requestOf d q addr len write parity) (s.die d).tagWait then .next (s.serve d (s.requestOf d q addr len write parity))
    else .next (s.modDie d (fun x => { x with tagWait := x.tagWait ++ [s.requestOf d q addr len write parity] })) :=
  (if_neg h).trans (if_neg (by rw [hok]; nofun))

end Request

section Serve

variable {s p : State} {d : Nat} {m : MemReq}

/-- The tag that a request holds counts in PEAK. -/
def State.tagPeaked (s : State) (d : Nat) : State := s.wr (MEM_TAGS_PEAK d) (max (s.rd (MEM_TAGS_PEAK d)) ((s.die d).reqs.length + 1))

theorem State.die_tagPeaked (s : State) (d e : Nat) : (s.tagPeaked d).die e = s.die e := rfl

theorem State.rd_tagPeaked {f : FRef} (h : f.reg ≠ .MEM_TAGS d) : (s.tagPeaked d).rd f = s.rd f := State.rd_congr (State.word_wr_ne _ _ (Ne.symm h))

/-- PEAK has nothing to do with the regions. -/
theorem State.cacheAt_tagPeaked (s : State) (d o : Nat) : (s.tagPeaked d).cacheAt d o = s.cacheAt d o := by
  have hkind : ∀ k, (s.tagPeaked d).rd (DEPOT_REGION_KIND d k) = s.rd (DEPOT_REGION_KIND d k) := fun k => State.rd_tagPeaked (by nofun)
  have hlo : ∀ k, (s.tagPeaked d).rd (DEPOT_REGION_LO d k) = s.rd (DEPOT_REGION_LO d k) := fun k => State.rd_tagPeaked (by nofun)
  have hlimit : ∀ k, (s.tagPeaked d).rd (DEPOT_REGION_LIMIT d k) = s.rd (DEPOT_REGION_LIMIT d k) := fun k => State.rd_tagPeaked (by nofun)
  have hfirst : ∀ k, (s.tagPeaked d).rd (DEPOT_REGION_FIRST d k) = s.rd (DEPOT_REGION_FIRST d k) := fun k => State.rd_tagPeaked (by nofun)
  have hcount : ∀ k, (s.tagPeaked d).rd (DEPOT_REGION_COUNT d k) = s.rd (DEPOT_REGION_COUNT d k) := fun k => State.rd_tagPeaked (by nofun)
  simp only [State.cacheAt, hkind, hlo, hlimit, hfirst, hcount]

/-- A write-back goes to LPDDR6. -/
theorem State.serve_writeBack (h : m.req = 426) : s.serve d m = (s.tagPeaked d).holdTag d m := if_pos h

/-- A request outside the cache regions goes to LPDDR6. -/
theorem State.serve_uncached (h : m.req ≠ 426) (ha : m.addr < 2 ^ 40) (hc : s.cacheAt d (m.addr % 2 ^ 37) = none) :
    s.serve d m = (s.tagPeaked d).holdTag d { m with fill := !m.write } := by
  unfold State.serve
  dsimp only
  rw [if_neg h, if_pos (show m.addr < 0x010000000000 from ha), show (s.wr (MEM_TAGS_PEAK d) _).cacheAt d _ = none from (s.cacheAt_tagPeaked d _).trans hc]
  rfl

/-- A request of a pinned region. -/
theorem State.serve_pinned (h : m.req ≠ 426) (ha : 2 ^ 40 ≤ m.addr) : s.serve d m = (s.tagPeaked d).servePinned d m := (if_neg h).trans (if_neg (Nat.not_lt.2 ha))

/-- A write of a whole pinned line mends it. -/
theorem State.servePinned_write (hw : m.write = true) : p.servePinned d m =
    if m.len = 256 then p.modDie d (fun x => { x with badLines := x.badLines.filter (fun b => decide (b ≠ m.addr / 256)) }) else p := by
  unfold State.servePinned
  dsimp only
  rw [if_pos hw, MemReq.whole]
  simp only [decide_eq_true_eq]

/-- A read of a pinned line that is good after its replays. -/
theorem State.servePinned_good (hw : m.write = false) (hp : m.parity < 4) (hgood : m.addr / 256 ∉ (p.die d).badLines) :
    p.servePinned d m = p.depotReplays d m.addr (min m.parity 3) := by
  unfold State.servePinned
  dsimp only
  rw [if_neg (by rw [hw]; nofun), if_neg (fun h => hgood (List.contains_iff_mem.1 h)), if_pos hp]

/-- A read of a pinned line that stays bad. -/
theorem State.servePinned_bad (hw : m.write = false) (hbad : 4 ≤ m.parity ∨ m.addr / 256 ∈ (p.die d).badLines) : p.servePinned d m =
    ((p.depotReplays d m.addr 3).modDie d (fun x => { x with badLines := insertAsc (m.addr / 256) x.badLines })).depotUncorrectable d m.req m.addr m.origin := by
  unfold State.servePinned
  dsimp only
  rw [if_neg (by rw [hw]; nofun)]
  by_cases hmem : m.addr / 256 ∈ (p.die d).badLines
  · rw [if_pos (List.contains_iff_mem.2 hmem)]
    rfl
  · have hp := hbad.resolve_right hmem
    rw [if_neg (fun h => hmem (List.contains_iff_mem.1 h)), if_neg (Nat.not_lt.2 hp), Nat.min_eq_right (by omega)]

/-- A request of a cache region: a hit, or a miss. -/
theorem State.serve_cached {first count g : Nat} (h : m.req ≠ 426) (ha : m.addr < 2 ^ 40) (hc : s.cacheAt d (m.addr % 2 ^ 37) = some (first, count)) (hg : g = m.addr % 2 ^ 37 / 256) :
    s.serve d m = ((tabGet (s.die d).cache ((first + g % count) * 7424 + g / count % 7424) csetNone).find (g / count / 7424)).elim
      (if m.write = true ∧ m.whole = true then (s.tagPeaked d).allocLine d first count (first + g % count) (g / count % 7424) { tag := g / count / 7424, dirty := true, bad := false } m
        else (s.tagPeaked d).holdTag d { m with fill := true })
      fun w => (s.tagPeaked d).serveHit d ((first + g % count) * 7424 + g / count % 7424) (first + g % count) m w
        (tabGet (tabGet (s.die d).cache ((first + g % count) * 7424 + g / count % 7424) csetNone).ways w { tag := g / count / 7424, dirty := false, bad := false }) := by
  subst hg
  unfold State.serve
  dsimp only
  rw [if_neg h, if_pos (show m.addr < 0x010000000000 from ha), show (s.wr (MEM_TAGS_PEAK d) _).cacheAt d _ = some (first, count) from (s.cacheAt_tagPeaked d _).trans hc]
  dsimp only [cacheIndex, setKey, State.die_wr]
  cases (tabGet (s.die d).cache ((first + m.addr % 2 ^ 37 / 256 % count) * 7424 + m.addr % 2 ^ 37 / 256 / count % 7424) csetNone).find (m.addr % 2 ^ 37 / 256 / count / 7424) <;> rfl

end Serve

end Sys2Proof.Machine
end

section
/-! SUPPORT. Lines of the cache that serve, are allocated and are filled (R296, R299, R300). -/

namespace Sys2Proof.Machine

section Hits

variable {p : State} {d k slice w : Nat} {m : MemReq} {l : CLine}

/-- A write that hits makes its line dirty, and one of a whole line good; it counts in HITS. -/
theorem State.serveHit_write (hw : m.write = true) : p.serveHit d k slice m w l =
    (p.modSet d k (fun c => c.use w (fun l => { l with dirty := true, bad := l.bad && !m.whole }))).count (DEPOT_COUNT_HITS d) 1 := if_pos hw

theorem State.lineWritten_spec {tag : Nat} (hfind : (tabGet (p.die d).cache k csetNone).find tag = some w)
    (hl : l = tabGet (tabGet (p.die d).cache k csetNone).ways w { tag := tag, dirty := false, bad := false }) :
    let t := (p.modSet d k (fun c => c.use w (fun l => { l with dirty := true, bad := l.bad && !m.whole }))).count (DEPOT_COUNT_HITS d) 1
    t.rd (DEPOT_COUNT_HITS d) = min (p.rd (DEPOT_COUNT_HITS d) + 1) (2 ^ 32 - 1) ∧
      tabGet (tabGet (t.die d).cache k csetNone).ways w { tag := tag, dirty := false, bad := false } = { l with dirty := true, bad := l.bad && !decide (m.len = 256) } ∧
      t = { p with dies := t.dies, regs := t.regs } := by
  refine ⟨State.rd_count_same _ _ _ fle, ?_, rfl⟩
  have hcache := modSet_cache p d k (fun c => c.use w (fun l => { l with dirty := true, bad := l.bad && !m.whole }))
  have hline := CSet.find_default hfind { tag := 0, dirty := false, bad := false } { tag := tag, dirty := false, bad := false }
  rw [State.die_count, hcache]
  simp only [CSet.use, tabGet_tabSet_same, hline, hl]
  rfl

/-- A read that hits and is good after its replays counts in HITS. -/
theorem State.serveHit_good (hw : m.write = false) (hl : l.bad = false) (hp : m.parity < 4) : p.serveHit d k slice m w l =
    ((p.depotReplays d m.addr (min m.parity 3)).modSet d k (fun x => x.use w id)).count (DEPOT_COUNT_HITS d) 1 := by
  unfold State.serveHit
  dsimp only
  rw [if_neg (by rw [hw]; nofun), if_neg (show ¬l.bad = true by rw [hl]; nofun), if_pos hp]

/-- The replays of a read that stays bad. -/
theorem badParity (h : l.bad = true ∨ 4 ≤ m.parity) : 4 ≤ (if l.bad = true then 4 else m.parity) ∧ min (if l.bad = true then 4 else m.parity) 3 = 3 := by
  by_cases hl : l.bad = true
  · rw [if_pos hl]
    exact ⟨Nat.le_refl _, rfl⟩
  · rw [if_neg hl]
    have := h.resolve_left hl
    omega

/-- A read that stays bad on a dirty line is a bus error, and leaves the line bad. -/
theorem State.serveHit_dirty (hw : m.write = false) (hbad : l.bad = true ∨ 4 ≤ m.parity) (hl : l.dirty = true) : p.serveHit d k slice m w l =
    ((p.depotReplays d m.addr 3).modSet d k (fun x => x.use w (fun y => { y with bad := true }))).depotUncorrectable d m.req m.addr m.origin := by
  obtain ⟨hfour, hthree⟩ := badParity hbad
  unfold State.serveHit
  dsimp only
  rw [if_neg (by rw [hw]; nofun), hthree, if_neg (Nat.not_lt.2 hfour), if_pos hl]

/-- A read that stays bad on a clean line fetches the line again. -/
theorem State.serveHit_clean (hw : m.write = false) (hbad : l.bad = true ∨ 4 ≤ m.parity) (hl : l.dirty = false) : p.serveHit d k slice m w l =
    (((((p.depotReplays d m.addr 3).modSet d k (fun x => { x with ways := tabDel x.ways w })).raise
      (mkEv 114 d 0xFF 19 0 [(1, slice), (4, m.addr % 2 ^ 37 / 256)])).lampCount (56 + d) 1).holdTag d { m with fill := true, refetch := true }) := by
  obtain ⟨hfour, hthree⟩ := badParity hbad
  unfold State.serveHit
  dsimp only
  rw [if_neg (by rw [hw]; nofun), hthree, if_neg (Nat.not_lt.2 hfour), if_neg (by rw [hl]; nofun)]

end Hits

section Alloc

variable {s : State} {d first count slice set : Nat} {l : CLine} {m : MemReq}

/-- A line takes a way of its set, and the miss counts. -/
def State.lineTaken (s : State) (d slice set : Nat) (l : CLine) : State :=
  (s.modSet d (slice * 7424 + set) (fun c => c.alloc l)).count (DEPOT_COUNT_MISSES d) 1

/-- The line that an allocation takes the way of. -/
def State.lineLeaving (s : State) (d slice set : Nat) : Option (Nat × CLine) :=
  (tabGet (s.die d).cache (slice * 7424 + set) csetNone).ways.find? (fun e => decide (e.1 = (tabGet (s.die d).cache (slice * 7424 + set) csetNone).way))

/-- An allocation of a way that no dirty line leaves. -/
theorem State.allocLine_clean (h : ∀ v, s.lineLeaving d slice set = some v → v.2.dirty = false) : s.allocLine d first count slice set l m = s.lineTaken d slice set l := by
  show (match s.lineLeaving d slice set with | some (_, v) => _ | none => _) = _
  cases hv : s.lineLeaving d slice set with
  | none => rfl
  | some v => exact if_neg (by rw [h v hv]; nofun)

/-- An allocation of a way that a dirty line leaves: it is written back. -/
theorem State.allocLine_dirty {v : Nat × CLine} (hv : s.lineLeaving d slice set = some v) (h : v.2.dirty = true) : s.allocLine d first count slice set l m =
    (s.lineTaken d slice set l).holdTag d (writeBack (d * 2 ^ 37 + ((v.2.tag * 7424 + set) * count + (slice - first)) * 256) m.key m.high) := by
  show (match s.lineLeaving d slice set with | some (_, v) => _ | none => _) = _
  rw [hv]
  exact if_pos h

/-- What taking a way changes. -/
theorem State.lineTaken_spec (s : State) (d slice set : Nat) (l : CLine) : let t := s.lineTaken d slice set l
    t.rd (DEPOT_COUNT_MISSES d) = min (s.rd (DEPOT_COUNT_MISSES d) + 1) (2 ^ 32 - 1) ∧ t = { s with dies := t.dies, regs := t.regs } ∧
      tabGet (t.die d).cache (slice * 7424 + set) csetNone = (tabGet (s.die d).cache (slice * 7424 + set) csetNone).alloc l ∧ (t.die d).reqs = (s.die d).reqs := by
  refine ⟨State.rd_count_same _ _ _ fle, rfl, by rw [State.lineTaken, State.die_count, modSet_cache], ?_⟩
  rw [State.lineTaken, State.die_count, State.modSet, State.die_modDie_same]

/-- What allocating a line changes, whatever leaves. -/
theorem State.allocLine_spec (s : State) (d first count slice set : Nat) (l : CLine) (m : MemReq) : let t := s.allocLine d first count slice set l m
    t.rd (DEPOT_COUNT_MISSES d) = min (s.rd (DEPOT_COUNT_MISSES d) + 1) (2 ^ 32 - 1) ∧ t = { s with dies := t.dies, regs := t.regs } ∧
      tabGet (t.die d).cache (slice * 7424 + set) csetNone = (tabGet (s.die d).cache (slice * 7424 + set) csetNone).alloc l := by
  dsimp only
  obtain ⟨hmiss, hrest, hcache, -⟩ := s.lineTaken_spec d slice set l
  by_cases hdirty : ∃ v, s.lineLeaving d slice set = some v ∧ v.2.dirty = true
  · obtain ⟨v, hv, hdirty⟩ := hdirty
    rw [State.allocLine_dirty hv hdirty]
    obtain ⟨hdie, -, hword, htrest⟩ := (s.lineTaken d slice set l).holdTag_spec d (writeBack (d * 2 ^ 37 + ((v.2.tag * 7424 + set) * count + (slice - first)) * 256) m.key m.high)
    generalize (s.lineTaken d slice set l).holdTag d (writeBack (d * 2 ^ 37 + ((v.2.tag * 7424 + set) * count + (slice - first)) * 256) m.key m.high) = t at *
    exact ⟨(State.rd_congr (hword _ (by nofun))).trans hmiss, htrest.trans (congrArg (fun x : State => { x with dies := t.dies, regs := t.regs }) hrest), by rw [hdie, ← hcache]⟩
  · rw [State.allocLine_clean fun v hv => Bool.eq_false_iff.2 fun hd => hdirty ⟨v, hv, hd⟩]
    exact ⟨hmiss, hrest, hcache⟩

/-- A line is filled where its address lies in no cache region: nothing. -/
theorem State.fillLine_uncached (h : s.cacheAt d (m.addr % 2 ^ 37) = none) : s.fillLine d m = s := by
  unfold State.fillLine
  rw [h]

/-- A line that is filled is there already, or is allocated. -/
theorem State.fillLine_cached {g : Nat} (h : s.cacheAt d (m.addr % 2 ^ 37) = some (first, count)) (hg : g = m.addr % 2 ^ 37 / 256) : s.fillLine d m =
    ((tabGet (s.die d).cache ((first + g % count) * 7424 + g / count % 7424) csetNone).find (g / count / 7424)).elim
      (let t := s.allocLine d first count (first + g % count) (g / count % 7424) { tag := g / count / 7424, dirty := m.write, bad := false } m
       if m.refetch then t.count (DEPOT_STATUS_REFETCH d) 1 else t)
      fun w => s.modSet d ((first + g % count) * 7424 + g / count % 7424) (fun x => x.use w (fun l => { l with dirty := l.dirty || m.write })) := by
  subst hg
  unfold State.fillLine
  rw [h]
  dsimp only [cacheIndex, setKey]
  cases (tabGet (s.die d).cache ((first + m.addr % 2 ^ 37 / 256 % count) * 7424 + m.addr % 2 ^ 37 / 256 / count % 7424) csetNone).find (m.addr % 2 ^ 37 / 256 / count / 7424) <;> rfl

end Alloc

end Sys2Proof.Machine
end

section
/-! SUPPORT. The arbiters of the LPDDR6 controllers (R350 to R353), the reads that they grant (R304), and scrubbed granules (R407). -/

namespace Sys2Proof.Machine

section Choice

/-- The order of R350 between requests: by key, then by requester. -/
def MemReq.notAfter (m x : MemReq) : Prop := m.key < x.key ∨ (m.key = x.key ∧ m.req ≤ x.req)

theorem MemReq.notAfter_refl (m : MemReq) : m.notAfter m := .inr ⟨rfl, Nat.le_refl _⟩

theorem MemReq.notAfter_trans {m x y : MemReq} (h : m.notAfter x) (h' : x.notAfter y) : m.notAfter y := by
  unfold MemReq.notAfter at *
  omega

theorem before_iff {x y : MemReq} : before x y = true ↔ x.key < y.key ∨ (x.key = y.key ∧ x.req < y.req) := by
  simp only [before, Bool.or_eq_true, Bool.and_eq_true, decide_eq_true_eq]

/-- The step of `firstReq`, from a request on: it ends at one that comes after none. -/
theorem foldl_firstReq (ms : List MemReq) (a : MemReq) : ∃ m ∈ a :: ms, ms.foldl (fun b m => match b with
    | none => some m
    | some x => if before m x then some m else some x) (some a) = some m ∧ ∀ x ∈ a :: ms, m.notAfter x := by
  induction ms generalizing a with
  | nil => exact ⟨a, List.mem_cons_self, rfl, fun x hx => by rw [List.mem_singleton.1 hx]; exact a.notAfter_refl⟩
  | cons y ms ih =>
    by_cases hy : before y a = true
    · obtain ⟨m, hm, hfold, hfirst⟩ := ih y
      have hya : y.notAfter a := (before_iff.1 hy).imp_right fun h => ⟨h.1, Nat.le_of_lt h.2⟩
      refine ⟨m, List.mem_cons_of_mem _ hm, ?_, fun x hx => ?_⟩
      · rw [List.foldl_cons]
        dsimp only
        rw [if_pos hy]
        exact hfold
      · rcases List.mem_cons.1 hx with rfl | hx
        · exact MemReq.notAfter_trans (hfirst y List.mem_cons_self) hya
        · exact hfirst x hx
    · obtain ⟨m, hm, hfold, hfirst⟩ := ih a
      have hay : a.notAfter y := by
        rw [before_iff] at hy
        unfold MemReq.notAfter
        omega
      refine ⟨m, ?_, ?_, fun x hx => ?_⟩
      · rcases List.mem_cons.1 hm with rfl | hm
        · exact List.mem_cons_self
        · exact List.mem_cons_of_mem _ (List.mem_cons_of_mem _ hm)
      · rw [List.foldl_cons]
        dsimp only
        rw [if_neg hy]
        exact hfold
      · rcases List.mem_cons.1 hx with rfl | hx
        · exact hfirst x List.mem_cons_self
        · rcases List.mem_cons.1 hx with rfl | hx
          · exact MemReq.notAfter_trans (hfirst a List.mem_cons_self) hay
          · exact hfirst x (List.mem_cons_of_mem _ hx)

/-- The first of a list of requests: one of them that comes after none. -/
theorem firstReq_spec (ms : List MemReq) : (firstReq ms = none ↔ ms = []) ∧ ∀ m, firstReq ms = some m → m ∈ ms ∧ ∀ x ∈ ms, m.notAfter x := by
  cases ms with
  | nil => exact ⟨⟨fun _ => rfl, fun _ => rfl⟩, nofun⟩
  | cons a ms =>
    obtain ⟨m, hm, hfold, hfirst⟩ := foldl_firstReq ms a
    have hreq : firstReq (a :: ms) = some m := hfold
    rw [hreq]
    exact ⟨⟨nofun, nofun⟩, fun m' h => Option.some.inj h ▸ ⟨hm, hfirst⟩⟩

/-- The oldest request of each requester of a list. -/
def headReqs (ms : List MemReq) : List MemReq := ms.filter (fun m => (ms.find? (fun x => decide (x.req = m.req))) == some m)

theorem mem_headReqs {ms : List MemReq} {m : MemReq} : m ∈ headReqs ms ↔ ms.find? (fun x => decide (x.req = m.req)) = some m := by
  rw [headReqs, List.mem_filter, beq_iff_eq]
  exact ⟨fun h => h.2, fun h => ⟨List.mem_of_find?_eq_some h, h⟩⟩

/-- A list of requests has an oldest one. -/
theorem headReqs_eq_nil {ms : List MemReq} : headReqs ms = [] ↔ ms = [] := by
  cases ms with
  | nil => exact ⟨fun _ => rfl, fun _ => rfl⟩
  | cons a ms =>
    have ha : a ∈ headReqs (a :: ms) := mem_headReqs.2 (List.find?_cons_of_pos (by simp))
    exact ⟨fun h => absurd ha (by rw [h]; simp), nofun⟩

/-- A choice without the high ones first. -/
theorem chooseReq_masked (ms : List MemReq) : chooseReq ms true = firstReq (headReqs ms) := rfl

/-- A choice with the high ones first. -/
theorem chooseReq_unmasked (ms : List MemReq) : chooseReq ms false = ((firstReq ((headReqs ms).filter (fun m => m.high))).elim (firstReq (headReqs ms)) some) := by
  unfold chooseReq
  dsimp only
  rw [if_neg Bool.false_ne_true, ← headReqs]
  cases firstReq ((headReqs ms).filter fun m => m.high) <;> rfl

/-- What a decision chooses (R350, R352). -/
theorem chooseReq_spec (ms : List MemReq) (masked : Bool) : (chooseReq ms masked = none ↔ ms = []) ∧ ∀ m, chooseReq ms masked = some m → m ∈ ms ∧
    ms.find? (fun x => decide (x.req = m.req)) = some m ∧ ∀ x, ms.find? (fun y => decide (y.req = x.req)) = some x → (masked = false → x.high = true → m.high = true) ∧
      (masked = true ∨ m.high = false ∨ x.high = true → m.key < x.key ∨ (m.key = x.key ∧ m.req ≤ x.req)) := by
  obtain ⟨hnone, hsome⟩ := firstReq_spec (headReqs ms)
  obtain ⟨hhnone, hhsome⟩ := firstReq_spec ((headReqs ms).filter (fun m => m.high))
  have hmem : ∀ {m : MemReq}, m ∈ headReqs ms → m ∈ ms ∧ ms.find? (fun x => decide (x.req = m.req)) = some m := fun hm =>
    ⟨List.mem_of_find?_eq_some (mem_headReqs.1 hm), mem_headReqs.1 hm⟩
  cases masked with
  | true =>
    rw [chooseReq_masked]
    refine ⟨hnone.trans headReqs_eq_nil, fun m hm => ?_⟩
    obtain ⟨hin, hfirst⟩ := hsome m hm
    exact ⟨(hmem hin).1, (hmem hin).2, fun x hx => ⟨nofun, fun _ => hfirst x (mem_headReqs.2 hx)⟩⟩
  | false =>
    rw [chooseReq_unmasked]
    cases hhigh : firstReq ((headReqs ms).filter (fun m => m.high)) with
    | none =>
      have hlow : ∀ x ∈ headReqs ms, x.high = false := fun x hx => Bool.eq_false_iff.2 fun h => by
        have hmemhigh : x ∈ (headReqs ms).filter (fun m => m.high) := List.mem_filter.2 ⟨hx, h⟩
        rw [hhnone.1 hhigh] at hmemhigh
        exact nomatch hmemhigh
      refine ⟨hnone.trans headReqs_eq_nil, fun m hm => ?_⟩
      obtain ⟨hin, hfirst⟩ := hsome m hm
      exact ⟨(hmem hin).1, (hmem hin).2, fun x hx => ⟨fun _ h => absurd h (by rw [hlow x (mem_headReqs.2 hx)]; nofun), fun _ => hfirst x (mem_headReqs.2 hx)⟩⟩
    | some y =>
      obtain ⟨hin, hfirst⟩ := hhsome y hhigh
      obtain ⟨hhead, hyhigh⟩ := List.mem_filter.1 hin
      refine ⟨⟨nofun, fun h => ?_⟩, fun m hm => ?_⟩
      · rw [headReqs_eq_nil.2 h] at hhead
        exact nomatch hhead
      · obtain rfl : y = m := Option.some.inj hm
        refine ⟨(hmem hhead).1, (hmem hhead).2, fun x hx => ⟨fun _ _ => hyhigh, fun h => ?_⟩⟩
        have hx' : x.high = true := (h.resolve_left nofun).resolve_left (by rw [hyhigh]; nofun)
        exact hfirst x (List.mem_filter.2 ⟨mem_headReqs.2 hx, hx'⟩)

end Choice

/-- A grant of a requester is that of its first request that waits at the group. -/
theorem grantReq_spec {r g : Nat} {pre post : List MemReq} {m : MemReq} (hreq : m.req = r) (hgranted : m.granted = false) (haddr : m.addr < 2 ^ 40) (hgroup : groupOfAddr m.addr = g)
    (hpre : ∀ x ∈ pre, x.req ≠ r ∨ x.granted = true ∨ 2 ^ 40 ≤ x.addr ∨ groupOfAddr x.addr ≠ g) :
    grantReq r g (pre ++ m :: post) = pre ++ ((if m.fill then [{ m with granted := true }] else []) ++ post) := by
  induction pre with
  | nil =>
    rw [List.nil_append, grantReq, if_pos ⟨hreq, hgranted, haddr, hgroup⟩]
    split <;> rfl
  | cons x pre ih =>
    have hx : ¬(x.req = r ∧ x.granted = false ∧ x.addr < 0x010000000000 ∧ groupOfAddr x.addr = g) := fun ⟨h1, h2, h3, h4⟩ => by
      rcases hpre x List.mem_cons_self with h | h | h | h
      · exact h h1
      · rw [h] at h2
        exact nomatch h2
      · omega
      · exact h h4
    rw [List.cons_append, grantReq, if_neg hx, ih fun y hy => hpre y (List.mem_cons_of_mem _ hy)]
    rfl

section Cycle

variable {s : State} {d g : Nat}

/-- A decision to grant requester `r` is lost: nothing of it waits, or the sideband masks it. -/
def State.grantLost (s : State) (d g r : Nat) : Bool := !((s.die d).waitingAt g).any (fun m => decide (m.req = r)) || s.sideband d r

/-- The decision of the cycle before is issued, or lost. -/
def State.arbIssued (s : State) (d g : Nat) : State :=
  (tabGet (s.die d).arbs g arbReset).decided.elim s fun r =>
    if s.grantLost d g r.1 then s.count (ARB_STAT_STALE d g) 1 else s.modDie d (fun x => { x with reqs := grantReq r.1 g x.reqs })

/-- A decision that the quota masks counts. -/
def State.maskCounted (s : State) (d g : Nat) (counts : Bool) : State := if counts then s.count (ARB_STAT_QMASK d g) 1 else s

/-- An arbiter after a decision. -/
def arbAfter (chosen : Option MemReq) (w : Int) (n : Nat) : Arb :=
  { decided := chosen.map (fun m => (m.req, m.high)), window := w, count := n + if chosen.any (fun m => m.high) then 1 else 0 }

/-- One cycle of an arbiter: the decision of the cycle before is issued, and one is made. -/
theorem State.arbCycle_eq (s : State) (d g : Nat) (cycle : Int) {w : Int} {n : Nat} {masked : Bool} {seen : List MemReq} (hw : w = (cycle + 1) / (s.rd (ARB_CFG_WINDOW d) : Int))
    (hn : n = (if (tabGet (s.die d).arbs g arbReset).window = w then (tabGet (s.die d).arbs g arbReset).count else 0)) (hmasked : masked = decide (s.rd (ARB_CFG_QUOTA d) ≤ n))
    (hseen : seen = ((s.die d).waitingAt g).filter (fun m => !s.sideband d m.req && decide (m.arrived < cycle))) : s.arbCycle d g cycle =
      ((s.arbIssued d g).maskCounted d g ((chooseReq seen masked).isSome && masked)).modDie d
        fun x => { x with arbs := tabSet x.arbs g (arbAfter (chooseReq seen masked) w n) } := by
  have hseen' : (((s.die d).waitingAt g).filter (fun m => decide (m.arrived < cycle))).filter (fun m => !s.sideband d m.req) = seen := by
    rw [List.filter_filter, hseen]
  unfold State.arbCycle State.arbIssued State.grantLost State.arbWindow
  dsimp only
  rw [← hw, ← hn, ← hmasked, hseen']
  cases hdec : (tabGet (s.die d).arbs g arbReset).decided with
  | none =>
    cases (chooseReq seen masked).isSome <;> cases masked <;> rfl
  | some r =>
    dsimp only [Option.elim]
    cases ((s.die d).waitingAt g).any (fun m => decide (m.req = r.1)) <;> cases s.sideband d r.1 <;> cases (chooseReq seen masked).isSome <;> cases masked <;> rfl

/-- A field that does not count stands. -/
theorem State.rd_saturates (s : State) (f : FRef) : s.rd f = min (s.rd f + 0) (2 ^ f.width - 1) := by
  have := s.rd_lt f
  omega

theorem State.arbIssued_spec (s : State) (d g : Nat) : let t := s.arbIssued d g
    t = { s with dies := t.dies, regs := t.regs } ∧
      ((tabGet (s.die d).arbs g arbReset).decided = none → (t.die d).reqs = (s.die d).reqs) ∧
      (∀ r h, (tabGet (s.die d).arbs g arbReset).decided = some (r, h) → s.grantLost d g r = true → (t.die d).reqs = (s.die d).reqs) ∧
      (∀ r h, (tabGet (s.die d).arbs g arbReset).decided = some (r, h) → s.grantLost d g r = false → (t.die d).reqs = grantReq r g (s.die d).reqs) ∧
      t.rd (ARB_STAT_STALE d g) = min (s.rd (ARB_STAT_STALE d g) + if (tabGet (s.die d).arbs g arbReset).decided.any (fun r => s.grantLost d g r.1) then 1 else 0)
        (2 ^ (ARB_STAT_STALE d g).width - 1) ∧ t.rd (ARB_STAT_QMASK d g) = s.rd (ARB_STAT_QMASK d g) := by
  unfold State.arbIssued
  cases hdec : (tabGet (s.die d).arbs g arbReset).decided with
  | none => exact ⟨rfl, fun _ => rfl, nofun, nofun, State.rd_saturates .., rfl⟩
  | some r =>
    dsimp only [Option.elim, Option.any]
    by_cases hlost : s.grantLost d g r.1 = true
    · rw [if_pos hlost, if_pos hlost]
      refine ⟨rfl, nofun, fun _ _ _ _ => rfl, fun r' h hr hno => ?_, State.rd_count_same _ _ _ fle, State.rd_wr_other _ _ _ _ fle fun _ => ?_⟩
      · obtain rfl := Option.some.inj hr
        exact absurd hlost (by rw [hno]; nofun)
      · exact .inr fle
    · rw [if_neg hlost, if_neg hlost]
      refine ⟨rfl, nofun, fun r' h hr hyes => ?_, fun r' h hr _ => ?_, State.rd_saturates .., rfl⟩
      · obtain rfl := Option.some.inj hr
        exact absurd hyes hlost
      · obtain rfl := Option.some.inj hr
        exact congrArg Die.reqs (State.die_modDie_same ..)

theorem State.maskCounted_spec (s : State) (d g : Nat) (counts : Bool) : let t := s.maskCounted d g counts
    t = { s with regs := t.regs } ∧ t.rd (ARB_STAT_STALE d g) = s.rd (ARB_STAT_STALE d g) ∧
      t.rd (ARB_STAT_QMASK d g) = min (s.rd (ARB_STAT_QMASK d g) + if counts = true then 1 else 0) (2 ^ (ARB_STAT_QMASK d g).width - 1) := by
  cases counts with
  | false => exact ⟨rfl, rfl, State.rd_saturates ..⟩
  | true => exact ⟨rfl, State.rd_wr_other _ _ _ _ fle fun _ => .inl fle, State.rd_count_same _ _ _ fle⟩

/-- When a grant is lost. -/
theorem State.grantLost_true {r : Nat} (h : (∀ m ∈ (s.die d).waitingAt g, m.req ≠ r) ∨ s.sideband d r = true) : s.grantLost d g r = true := by
  rw [State.grantLost, Bool.or_eq_true, Bool.not_eq_true', List.any_eq_false]
  exact h.imp_left fun h m hm => by simpa using h m hm

theorem State.grantLost_false {r : Nat} (h : ∃ m ∈ (s.die d).waitingAt g, m.req = r) (hside : s.sideband d r = false) : s.grantLost d g r = false := by
  rw [State.grantLost, hside, Bool.or_false, Bool.not_eq_false', List.any_eq_true]
  exact h.imp fun m hm => ⟨hm.1, decide_eq_true hm.2⟩

end Cycle

end Sys2Proof.Machine
end

section
/-! Reads of LPDDR6 (R304), scrubbed granules (R407), and O43. -/

namespace Sys2Proof.Machine

section Read

variable {s v : State} {d req errs : Nat} {addr : BitVec 48} {bad reread : Bool} {mirror : List Byte} {m : MemReq} {rest : List MemReq}

/-- An address lies in a region whose slots are mirrored. -/
def State.mirrored (s : State) (a : Nat) : Bool := (s.slotAt a).elim false fun x => (s.region x.1).mirror

theorem State.mirrored_slot {a r o : Nat} {b : Bool} (h : s.slotAt a = some (r, b, o)) : s.mirrored a = (s.region r).mirror := by
  rw [State.mirrored, h]
  rfl

theorem State.mirrored_false {a : Nat} (h : ∀ r b o, s.slotAt a = some (r, b, o) → (s.region r).mirror = false) : s.mirrored a = false := by
  unfold State.mirrored
  cases hslot : s.slotAt a with
  | none => rfl
  | some x => exact h _ _ _ hslot

/-- A request leaves the queue of its die, and what its read met counts. -/
def State.lineRead (s : State) (d ch : Nat) (rest : List MemReq) (errs : Nat) (bad : Bool) : State :=
  let t := (s.modDie d (fun x => { x with reqs := rest })).count (LPDDR_CH_STATUS_LINK_RETRY d ch) (min errs 2)
  if bad then t.count (LPDDR_CH_STATUS_REREAD d ch) 1 else t

theorem State.lineRead_spec (s : State) (d ch : Nat) (rest : List MemReq) (errs : Nat) (bad : Bool) : let u := s.lineRead d ch rest errs bad
    u.die d = { s.die d with reqs := rest } ∧ u.rd (LPDDR_CH_STATUS_LINK_RETRY d ch) = min (s.rd (LPDDR_CH_STATUS_LINK_RETRY d ch) + min errs 2) 65535 ∧
      u.rd (LPDDR_CH_STATUS_REREAD d ch) = (if bad then min (s.rd (LPDDR_CH_STATUS_REREAD d ch) + 1) 65535 else s.rd (LPDDR_CH_STATUS_REREAD d ch)) ∧
      u = { s with dies := u.dies, regs := u.regs } ∧ ∀ r, r ≠ .LPDDR_CH_STATUS d ch → u.word r = s.word r := by
  have hretry : ((s.modDie d (fun x => { x with reqs := rest })).count (LPDDR_CH_STATUS_LINK_RETRY d ch) (min errs 2)).rd (LPDDR_CH_STATUS_LINK_RETRY d ch) =
      min (s.rd (LPDDR_CH_STATUS_LINK_RETRY d ch) + min errs 2) 65535 := State.rd_count_same _ _ _ fle
  have hreread : ((s.modDie d (fun x => { x with reqs := rest })).count (LPDDR_CH_STATUS_LINK_RETRY d ch) (min errs 2)).rd (LPDDR_CH_STATUS_REREAD d ch) =
      s.rd (LPDDR_CH_STATUS_REREAD d ch) := State.rd_wr_other _ _ _ _ fle fun _ => .inr fle
  have hdie : (s.modDie d (fun x => { x with reqs := rest })).die d = { s.die d with reqs := rest } := State.die_modDie_same ..
  cases bad with
  | false => exact ⟨hdie, hretry, hreread, rfl, fun r hr => State.word_count_ne _ _ hr.symm⟩
  | true =>
    refine ⟨hdie, (State.rd_wr_other _ _ _ _ fle fun _ => .inl fle).trans hretry, (State.rd_count_same _ _ _ fle).trans ?_, rfl, fun r hr => ?_⟩
    · rw [hreread]
      rfl
    · exact (State.word_count_ne _ _ hr.symm).trans (State.word_count_ne _ _ hr.symm)

/-- A bad read that comes from the mirror. -/
def State.mirrorRead (u : State) (d a : Nat) (mirror : List Byte) (m : MemReq) : State :=
  ((((((u.lampCount (48 + d) 1).setBytes a (mirror.take m.len)).raise (mkEv 116 d 0xFF 20 (chanOfAddr a) [(6, a)])).count (LPDDR_CH_STATUS_MIRROR d (chanOfAddr a)) 1).scrub d (a / 256)).fillLine d m)

theorem exec_lpddrRead_none (h : s.dieUp d = false ∨ s.lpddrWaits d (chanOfAddr addr.toNat) = true ∨ s.passGrant d req addr.toNat = none) :
    exec (.lpddrRead d req addr errs bad reread mirror) s = .next s := by
  show execLpddrRead d req addr errs bad reread mirror s = _
  unfold execLpddrRead
  dsimp only
  by_cases hup : s.dieUp d = false ∨ s.lpddrWaits d (chanOfAddr addr.toNat) = true
  · rw [if_pos hup]
  · rw [if_neg hup, (h.resolve_left fun h => hup (.inl h)).resolve_left fun h => hup (.inr h)]

section Granted

variable (hup : s.dieUp d = true) (hwait : s.lpddrWaits d (chanOfAddr addr.toNat) = false) (hgrant : s.passGrant d req addr.toNat = some v)
include hup hwait hgrant

theorem exec_lpddrRead_unasked (h : takeReq req addr.toNat (v.die d).reqs = none) : exec (.lpddrRead d req addr errs bad reread mirror) s = .next s := by
  show execLpddrRead d req addr errs bad reread mirror s = _
  unfold execLpddrRead
  dsimp only
  rw [if_neg (by rw [hup, hwait]; nofun), hgrant]
  dsimp only
  rw [h]

/-- A read that LPDDR6 grants. -/
theorem exec_lpddrRead (h : takeReq req addr.toNat (v.die d).reqs = some (m, rest)) : exec (.lpddrRead d req addr errs bad reread mirror) s =
    if bad = true ∧ reread = true then
      if v.mirrored addr.toNat = true then .next ((v.lineRead d (chanOfAddr addr.toNat) rest errs bad).mirrorRead d addr.toNat mirror m)
      else .next (((v.lineRead d (chanOfAddr addr.toNat) rest errs bad).lampCount (48 + d) 1).memError d 117 20 m.req addr.toNat m.origin)
    else .next ((v.lineRead d (chanOfAddr addr.toNat) rest errs bad).fillLine d m) := by
  have hmirror : (match v.slotAt addr.toNat with
      | some (r, _, _) => (v.region r).mirror
      | none => false) = v.mirrored addr.toNat := by
    unfold State.mirrored
    cases v.slotAt addr.toNat <;> rfl
  rw [← hmirror]
  show execLpddrRead d req addr errs bad reread mirror s = _
  unfold execLpddrRead
  dsimp only
  rw [if_neg (by rw [hup, hwait]; nofun), hgrant]
  dsimp only
  rw [h]
  cases bad <;> rfl

end Granted

end Read

section Scrub

variable {s : State} {d g : Nat}

/-- A granule that has not been scrubbed lately joins the log, which keeps the last 64. -/
theorem State.scrub_new (h : g ∉ (s.die d).scrub) (hlen : (s.die d).scrub.length ≤ 64) : ((s.scrub d g).die d).scrub =
    (if (s.die d).scrub.length < 64 then (s.die d).scrub ++ [g] else (s.die d).scrub.tail ++ [g]) ∧ s.scrub d g = { s with dies := (s.scrub d g).dies } := by
  have hscrub : s.scrub d g = s.modDie d (fun x => { x with scrub := (x.scrub ++ [g]).drop (x.scrub.length + 1 - 64) }) := if_neg fun hm => h (List.contains_iff_mem.1 hm)
  rw [hscrub]
  refine ⟨?_, rfl⟩
  rw [State.die_modDie_same]
  dsimp only
  split
  · next hlt => rw [Nat.sub_eq_zero_of_le (by omega), List.drop_zero]
  · next hge =>
    have hone : (s.die d).scrub.length + 1 - 64 = 1 := by omega
    rw [hone, List.drop_one, List.tail_append_of_ne_nil (fun hnil => by rw [hnil] at hge; exact hge (by decide))]

theorem State.scrub_again (h : g ∈ (s.die d).scrub) : s.scrub d g = s.retireGranule d g := if_pos (List.contains_iff_mem.2 h)

/-- A record of the retirement list that a granule can take. -/
abbrev State.retireFree (s : State) (d k : Nat) : Bool := !s.flag (RETIRE_VALID d k) && decide ((assocGet s.pend (.RETIRE d k) { mask := 0, val := 0 }).mask = 0)

theorem State.retireFree_false {k : Nat} (h : s.rd (RETIRE_VALID d k) = 1 ∨ (assocGet s.pend (.RETIRE d k) pendNone).mask ≠ 0) : s.retireFree d k = false := by
  rw [State.retireFree, Bool.and_eq_false_iff]
  refine h.imp (fun h => ?_) fun h => decide_eq_false h
  rw [State.flag, h]
  rfl

theorem State.retireFree_true {k : Nat} (h : s.rd (RETIRE_VALID d k) = 0) (hpend : (assocGet s.pend (.RETIRE d k) pendNone).mask = 0) : s.retireFree d k = true := by
  rw [State.retireFree, Bool.and_eq_true]
  refine ⟨?_, decide_eq_true hpend⟩
  rw [State.flag, h]
  rfl

/-- A die without a free record is fenced. -/
theorem State.retireGranule_full (h : ∀ k < 256, s.rd (RETIRE_VALID d k) = 1 ∨ (assocGet s.pend (.RETIRE d k) pendNone).mask ≠ 0) : s.retireGranule d g = s.fenceFound d 119 := by
  have hnone : (List.range 256).find? (s.retireFree d) = none := List.find?_range_eq_none.2 fun k hk => by rw [State.retireFree_false (h k hk)]; rfl
  unfold State.retireGranule
  rw [hnone]

/-- A granule that is retired takes the first free record at the next tick. -/
theorem State.retireGranule_free {k : Nat} (hk : k < 256) (hvalid : s.rd (RETIRE_VALID d k) = 0) (hpend : (assocGet s.pend (.RETIRE d k) pendNone).mask = 0)
    (hbefore : ∀ j < k, s.rd (RETIRE_VALID d j) = 1 ∨ (assocGet s.pend (.RETIRE d j) pendNone).mask ≠ 0) : s.retireGranule d g =
      (State.raise { s with pend := assocSet s.pend (.RETIRE d k) { mask := BitVec.ofNat 64 (2 ^ 49 - 1), val := BitVec.ofNat 64 (2 ^ 48 + g * 256) } }
        (mkEv 119 d 0xFF 17 0 [(6, g * 256), (1, k)])).lampCount (40 + d) 1 := by
  have hsome : (List.range 256).find? (s.retireFree d) = some k :=
    List.find?_range_eq_some.2 ⟨State.retireFree_true hvalid hpend, List.mem_range.2 hk, fun j hj => by rw [State.retireFree_false (hbefore j hj)]; rfl⟩
  unfold State.retireGranule
  rw [hsome]

end Scrub

/-- Settles O43. -/
theorem memoryRequestsTakeTagsAndFillLines : Obligations.MemoryRequestsTakeTagsAndFillLines := by
  unfold Obligations.MemoryRequestsTakeTagsAndFillLines
  refine ⟨fun s d req addr len write parity origin key cls c m hc hm => ?request, fun s d l r m earlier hl hr => ?serves, fun s d => ?grant, State.holdTag_spec,
    fun s p d m hp => ?serve, fun s p d first count g k tag m c hp h ha hcache hg hk htag hc => ?cached, fun s d first count slice set l m c hc => ?alloc,
    fun s d m => ?fill, chooseReq_spec, fun s d g cycle w a n masked seen ha hw hn hmasked hseen => ?arbiter, fun r g ms pre post m hms hreq hgranted haddr hgroup hpre => ?granted,
    fun s d req addr errs bad reread mirror => ?read, fun s d g => ?scrub⟩
  case request =>
    have hreq : s.requestOf d ⟨req, origin, key, cls⟩ addr len write parity = m := by
      rw [hm, hc]
      rfl
    refine ⟨fun h => exec_memoryRequest_misses h, fun hup hpos hlen hidx hdie hcore => ?_⟩
    have hreach : ¬s.RequestMisses d ⟨req, origin, key, cls⟩ addr len := by
      rintro (h | h | h | h | h | h)
      · exact absurd hup (by rw [h]; nofun)
      · omega
      · omega
      · exact Nat.not_lt.2 hidx h
      · exact h hdie
      · exact absurd h (by rw [hcore]; nofun)
    refine ⟨fun hok => ⟨_, _, _, exec_memoryRequest_unmapped hreach hok, requesterEv_port⟩, fun hok hserve => ?_, fun hok hserve => ?_⟩
    · rw [exec_memoryRequest hreach hok, hreq, if_pos hserve]
    · refine ⟨_, (exec_memoryRequest hreach hok).trans (by rw [hreq, if_neg (by rw [hserve]; nofun)]), State.die_modDie_same .., fun e he => State.die_modDie_ne _ _ (Ne.symm he), rfl⟩
  case serves => exact ⟨State.canServe_iff hl hr, State.repartHolds_idle, fun h => ⟨State.repartHolds_line h, fun x => State.repartHolds_slice h⟩⟩
  case grant =>
    obtain ⟨hnone, hsome⟩ := servable_spec s d (s.die d).tagWait []
    refine ⟨exec_memTagGrant_down, fun hup => ⟨fun h => ?_, fun m pre post he hpre hm => ?_⟩⟩
    · rw [exec_memTagGrant hup, hnone h]
      rfl
    · rw [exec_memTagGrant hup, hsome m pre post he hpre hm]
      rfl
  case serve =>
    obtain rfl : p = s.tagPeaked d := hp
    refine ⟨State.serve_writeBack, State.serve_uncached, fun g h ha hg => ?_⟩
    subst hg
    rw [State.serve_pinned h ha]
    refine ⟨fun hw hlen => ?_, fun hw hlen => ?_, fun hw hp hgood => State.servePinned_good hw hp (by rwa [State.die_tagPeaked]),
      fun hw hbad => State.servePinned_bad hw (by rwa [State.die_tagPeaked])⟩
    · rw [State.servePinned_write hw, if_pos hlen]
    · rw [State.servePinned_write hw, if_neg hlen]
  case cached =>
    obtain rfl : p = s.tagPeaked d := hp
    have hserve := State.serve_cached (m := m) h ha hcache hg
    rw [← hk, ← htag, ← hc] at hserve
    refine ⟨fun hmiss hw hlen => ?_, fun hmiss hno => ?_, fun w l hfind hl => ?_⟩
    · rw [hserve, hmiss]
      exact if_pos ⟨hw, decide_eq_true hlen⟩
    · rw [hserve, hmiss]
      refine if_neg fun ⟨hw, hlen⟩ => hno.elim (fun h => absurd hw (by rw [h]; nofun)) fun h => h (of_decide_eq_true hlen)
    · rw [hfind] at hserve
      dsimp only [Option.elim] at hserve
      rw [← hl] at hserve
      rw [hserve]
      refine ⟨fun hw => ?_, State.serveHit_good, State.serveHit_dirty, fun hw hbad hclean => ⟨_, rfl, ?_⟩⟩
      · obtain ⟨hhits, hline, hrest⟩ := State.lineWritten_spec (p := s.tagPeaked d) (d := d) (k := k) (m := m) (tag := tag) (l := l) (by rw [State.die_tagPeaked, ← hc]; exact hfind)
          (by rw [State.die_tagPeaked, ← hc]; exact hl)
        refine ⟨_, State.serveHit_write hw, hhits.trans ?_, hline, hrest⟩
        rw [State.rd_tagPeaked (by nofun)]
      · rw [State.serveHit_clean hw hbad hclean, ← hg]
  case alloc =>
    subst hc
    obtain ⟨hmiss, hrest, hcache⟩ := s.allocLine_spec d first count slice set l m
    refine ⟨_, rfl, hmiss, hrest, fun hnone => ?_, fun h => ?_, fun v hv hdirty => ?_⟩
    · rw [hcache]
      exact alloc_find _ _ _ _ rfl hnone
    · rw [State.allocLine_clean h]
      exact (s.lineTaken_spec d slice set l).2.2.2
    · rw [State.allocLine_dirty hv hdirty, ((s.lineTaken d slice set l).holdTag_spec d _).1]
      exact ⟨_, congrArg (· ++ _) (s.lineTaken_spec d slice set l).2.2.2, rfl, rfl, rfl, rfl, rfl, rfl, rfl, rfl, rfl⟩
  case fill =>
    refine ⟨State.fillLine_uncached, fun first count g k tag c hcache hg hk htag hc => ?_⟩
    have hfill := State.fillLine_cached hcache hg
    rw [← hk, ← htag, ← hc] at hfill
    refine ⟨fun w hfind => ?_, fun t ht hmiss => ?_⟩
    · rw [hfill, hfind]
      rfl
    · rw [hfill, hmiss, ht]
      rfl
  case arbiter =>
    subst ha
    obtain ⟨hrest, hidle, hlost, hissued, hstale, hqmask⟩ := s.arbIssued_spec d g
    obtain ⟨hmrest, hmstale, hmqmask⟩ := (s.arbIssued d g).maskCounted_spec d g ((chooseReq seen masked).isSome && masked)
    have hdie : ((s.arbIssued d g).maskCounted d g ((chooseReq seen masked).isSome && masked)).die d = (s.arbIssued d g).die d := by
      rw [hmrest]
      rfl
    refine ⟨_, rfl, ?_⟩
    rw [s.arbCycle_eq d g cycle hw hn hmasked hseen, State.die_modDie_same]
    dsimp only
    rw [tabGet_tabSet_same, hdie, State.rd_modDie, State.rd_modDie, hmstale, hmqmask, hqmask]
    refine ⟨?_, rfl, hidle, fun r h hr hno => hlost r h hr (State.grantLost_true hno), fun r h hr hm hside => hissued r h hr (State.grantLost_false hm hside), hstale, ?_⟩
    · generalize (s.arbIssued d g).maskCounted d g ((chooseReq seen masked).isSome && masked) = v at *
      rw [hmrest, hrest]
      rfl
    · simp only [Bool.and_eq_true]
  case granted =>
    subst hms
    exact grantReq_spec hreq hgranted haddr hgroup hpre
  case read =>
    refine ⟨exec_lpddrRead_none, fun v hup hwait hgrant => ⟨?_, fun hno => exec_lpddrRead_unasked hup hwait hgrant ((takeReq_spec _ _ _).1 hno),
      fun m pre post hreqs hpre hreq haddr hfill ch hch => ?_⟩⟩
    · obtain ⟨n, -, hn⟩ := Option.map_eq_some_iff.1 hgrant
      exact ⟨n, hn.symm⟩
    · subst hch
      obtain ⟨hdie, hretry, hreread, hrest, hword⟩ := v.lineRead_spec d (chanOfAddr addr.toNat) (pre ++ post) errs bad
      have hexec := exec_lpddrRead (errs := errs) (bad := bad) (reread := reread) (mirror := mirror) hup hwait hgrant ((takeReq_spec _ _ _).2 m pre post hreqs hpre hreq haddr hfill)
      refine ⟨_, hdie, hretry, hreread, hrest, hword, fun hgood => ?_, fun hb hr hno => ?_, fun r b o hb hr hslot hmirror => ⟨_, rfl, ?_⟩⟩
      · rw [hexec, if_neg fun ⟨hb, hr⟩ => absurd hgood (by rw [hb, hr]; nofun)]
      · rw [hexec, if_pos ⟨hb, hr⟩, if_neg (by rw [State.mirrored_false hno]; nofun), hreq]
      · rw [hexec, if_pos ⟨hb, hr⟩, if_pos (by rw [State.mirrored_slot hslot, hmirror])]
        rfl
  case scrub =>
    refine ⟨State.scrub_new, fun hmem hfull => ?_, fun hmem k hk hvalid hpend hbefore =>
      ⟨_, (State.scrub_again hmem).trans (State.retireGranule_free hk hvalid hpend hbefore), ?_, ?_, rfl⟩⟩
    · rw [State.scrub_again hmem, State.retireGranule_full hfull]
    · exact assocGet_assocSet_same ..
    · exact fun r hr => assocGet_assocSet_ne _ _ _ (Ne.symm hr)

end Sys2Proof.Machine
end

section
/-! Packets that are served, sent on or fail, and their answers (R28, R413, R417, R418, R429). -/

namespace Sys2Proof.Machine

section Routes

variable {s : State} {d l type x m : Nat} {p : Packet} {bs : List Byte}

theorem isRequest_true (h : type = 0 ∨ type = 2 ∨ type = 5 ∨ type = 6) : isRequest type = true := by
  simpa only [isRequest, Bool.or_eq_true, decide_eq_true_eq, or_assoc] using h

theorem isRequest_false (h : type = 1 ∨ type = 3 ∨ type = 4 ∨ 7 ≤ type) : isRequest type = false := by
  simp only [isRequest, Bool.or_eq_false_iff, decide_eq_false_iff_not]
  omega

/-- The link that a packet leaves by. -/
abbrev State.outOf (s : State) (p : Packet) : Option (Nat × Nat) := s.outLink p.dstTeam.toNat p.dstSlot.toNat p.srcDie.toNat p.dstDie.toNat

/-- A packet without a route fails where it is a request, and is dropped elsewhere. -/
theorem State.sendOn_unrouted (h : s.outOf p = none ∨ ∃ x m, s.outOf p = some (x, m) ∧ (s.dieUp x = false ∨ s.routeOk d x = false)) :
    s.sendOn d l type p bs = if isRequest type then s.requestFails d l p else s := by
  unfold State.sendOn
  rcases h with h | ⟨x, m, h, hdown⟩
  · rw [show s.outLink _ _ _ _ = none from h]
  · rw [show s.outLink _ _ _ _ = some (x, m) from h]
    exact if_pos (Bool.and_eq_false_iff.2 hdown)

section Routed

variable (h : s.outOf p = some (x, m)) (hup : s.dieUp x = true) (hroute : s.routeOk d x = true)
include h hup hroute

/-- A packet with a route: an answer goes on, and a request is noted until its own comes back. -/
theorem State.sendOn_routed : s.sendOn d l type p bs =
    if isRequest type = false then s.putPacket x m type p bs
    else if (s.link x m).expired = true ∧ s.linkUp x m = false then (s.raise (linkEv 164 x m [(1, m), (4, 1)])).send (.noData d l p)
    else (s.modLink x m (fun y => { y with transit := y.transit ++ [(type, p)] })).putPacket x m type p bs := by
  unfold State.sendOn
  rw [show s.outLink _ _ _ _ = some (x, m) from h]
  exact if_neg (by rw [hup, hroute]; nofun)

theorem State.sendOn_answer (ht : isRequest type = false) : s.sendOn d l type p bs = s.putPacket x m type p bs :=
  (State.sendOn_routed h hup hroute).trans (if_pos ht)

theorem State.sendOn_expired (ht : isRequest type = true) (he : (s.link x m).expired = true) (hdown : s.linkUp x m = false) :
    s.sendOn d l type p bs = (s.raise (linkEv 164 x m [(1, m), (4, 1)])).send (.noData d l p) :=
  (State.sendOn_routed h hup hroute).trans ((if_neg (by rw [ht]; nofun)).trans (if_pos ⟨he, hdown⟩))

theorem State.sendOn_noted (ht : isRequest type = true) (hlives : (s.link x m).expired = false ∨ s.linkUp x m = true) :
    s.sendOn d l type p bs = (s.modLink x m (fun y => { y with transit := y.transit ++ [(type, p)] })).putPacket x m type p bs :=
  (State.sendOn_routed h hup hroute).trans ((if_neg (by rw [ht]; nofun)).trans (if_neg fun ⟨he, hdown⟩ =>
    hlives.elim (fun h => absurd he (by rw [h]; nofun)) fun h => absurd hdown (by rw [h]; nofun)))

end Routed

/-- A request noted on a link that a response answers. -/
abbrev answersNoted (p : Packet) (type : Nat) (e : Nat × Packet) : Bool :=
  answersType type e.1 && decide (e.2.rid = p.rid) && decide (e.2.srcTeam = p.dstTeam) && decide (e.2.srcSlot = p.dstSlot) && decide (e.2.srcDie = p.dstDie)

theorem answersNoted_iff {e : Nat × Packet} : answersNoted p type e = true ↔
    (if type = 7 then e.1 = 5 ∨ e.1 = 6 else type = 4 ∨ type = e.1 + 1) ∧ e.2.rid = p.rid ∧ e.2.srcTeam = p.dstTeam ∧ e.2.srcSlot = p.dstSlot ∧ e.2.srcDie = p.dstDie := by
  have htype : answersType type e.1 = true ↔ if type = 7 then e.1 = 5 ∨ e.1 = 6 else type = 4 ∨ type = e.1 + 1 := by
    unfold answersType
    by_cases hseven : type = 7
    · simp only [if_pos hseven, Bool.or_eq_true, decide_eq_true_eq]
    · simp only [if_neg hseven]
      by_cases hfour : type = 4
      · rw [if_pos hfour]
        exact ⟨fun _ => .inl hfour, fun _ => rfl⟩
      · rw [if_neg hfour, decide_eq_true_eq]
        exact ⟨.inr, fun h => h.resolve_left hfour⟩
  rw [answersNoted]
  simp only [Bool.and_eq_true, htype, decide_eq_true_eq, and_assoc]

/-- A response that answers no request noted on its link goes on. -/
theorem State.passBack_unnoted (h : ∀ e ∈ (s.link d l).transit, answersNoted p type e = false) : s.passBack d l type p bs = s.sendOn d l type p bs := by
  unfold State.passBack
  dsimp only
  rw [(takeFirst_spec (answersNoted p type) _).1 h]

/-- A response ends the request noted for it, and goes on. -/
theorem State.passBack_noted {e : Nat × Packet} {pre post : List (Nat × Packet)} (h : (s.link d l).transit = pre ++ e :: post) (hpre : ∀ x ∈ pre, answersNoted p type x = false)
    (he : answersNoted p type e = true) : s.passBack d l type p bs = (s.modLink d l (fun x => { x with transit := pre ++ post })).sendOn d l type p bs := by
  unfold State.passBack
  dsimp only
  rw [(takeFirst_spec (answersNoted p type) _).2 e pre post h hpre he]

end Routes

section Served

variable {s : State} {d l : Nat} {p : Packet} {bs : List Byte}

theorem State.forHere_true (hteam : p.dstTeam.toNat = s.myTeam) (hslot : p.dstSlot.toNat = s.mySlot) : s.forHere p = true := by
  rw [State.forHere, decide_eq_true hteam, decide_eq_true hslot]
  rfl

theorem State.forHere_false (h : p.dstTeam.toNat ≠ s.myTeam ∨ p.dstSlot.toNat ≠ s.mySlot) : s.forHere p = false := by
  rw [State.forHere, Bool.and_eq_false_iff, decide_eq_false_iff_not, decide_eq_false_iff_not]
  exact h

/-- A packet that a link does not bring, or of a length that none has. -/
def State.PacketMisses (s : State) (d l : Nat) (p : Packet) : Prop := s.linkHears d l = false ∨ p.len = 0 ∨ 256 < p.len

theorem exec_readRequest_misses (h : s.PacketMisses d l p) : exec (.readRequest d l p) s = .next s := if_pos h

theorem exec_write_misses (h : s.PacketMisses d l p ∨ bs.length ≠ p.len) : exec (.write d l p bs) s = .next s :=
  if_pos (by rcases h with (h | h | h) | h <;> simp only [h, true_or, or_true, ne_eq, not_false_eq_true])

section Heard

variable (h : ¬s.PacketMisses d l p)
include h

theorem exec_readRequest : exec (.readRequest d l p) s =
    if s.forHere p = false then .next (s.sendOn d l 0 p [])
    else if s.reachable d (s.packetAddr p false) p.len then
      .next ((s.bankServed (s.packetAddr p false) p.len).putPacket d l 1 (s.responseTo p p.len) (s.bytesAt (s.packetAddr p false) p.len))
    else .next (s.requestFails d l p) := if_neg h

theorem exec_write (hlen : bs.length = p.len) : exec (.write d l p bs) s =
    if s.forHere p = false then .next (s.sendOn d l 2 p bs)
    else if s.reachable d (s.packetAddr p true) p.len then .next ((s.packetStore p (s.packetAddr p true) bs).putPacket d l 3 (s.responseTo p 0) [])
    else .next (s.requestFails d l p) :=
  if_neg (by
    rintro (h' | h' | h' | h')
    · exact h (.inl h')
    · exact h (.inr (.inl h'))
    · exact h (.inr (.inr h'))
    · exact h' hlen)

end Heard

/-- The store of a write packet, in no region with versions and no shard table, stores its bytes. -/
theorem State.packetStore_plain {b : Nat} (hslot : s.slotAt b = none) (hbarred : s.storeBarred (fromHost p) b bs.length = false)
    (htable : overlaps b bs.length (shardTable (dieOf b)) 0x20000 = false) : s.packetStore p b bs = (s.bankServed b bs.length).setBytes b bs := by
  have hserved := s.bankServed_served b bs.length
  have hstore : (s.bankServed b bs.length).store0 (fromHost p) b bs = (s.bankServed b bs.length).setBytes b bs := by
    unfold State.store0
    rw [hserved.storeBarred, hbarred, htable]
    rfl
  have hplain : ((s.bankServed b bs.length).setBytes b bs).slotAt b = none := by
    rw [State.setBytes_rest]
    exact (hserved.slotAt b).trans hslot
  unfold State.packetStore
  by_cases hhost : fromHost p = true
  · rw [if_pos (.inl hhost), hstore]
  · rw [Bool.not_eq_true] at hhost
    rw [hhost] at hstore ⊢
    rw [hstore, State.mirrorWrite, hplain]
    exact ite_self _

theorem State.packetStore_spec {b : Nat} (hslot : s.slotAt b = none) (hbarred : s.storeBarred (fromHost p) b bs.length = false)
    (htable : overlaps b bs.length (shardTable (dieOf b)) 0x20000 = false) : let v := s.packetStore p b bs
    v = { s with mem := v.mem, undef := v.undef, regs := v.regs } ∧ (∀ r, (∀ e c k, r ≠ .SPAD_BANK e c k) → v.word r = s.word r) ∧
      (∀ y, (∀ j < bs.length, s.place (b + j) ≠ s.place y) → v.byteAt y = s.byteAt y) ∧
      ((∀ j < bs.length, s.place (b + j) = b + j) → ∀ j < bs.length, v.byteAt (b + j) = bs.getD j 0) := by
  dsimp only
  have hserved := s.bankServed_served b bs.length
  have hplaces := s.bankServed_place b bs.length
  rw [State.packetStore_plain hslot hbarred htable]
  generalize s.bankServed b bs.length = x at *
  have hrest := MemRegs.setBytes x b bs
  refine ⟨?_, fun r hr => (State.word_setBytes ..).trans (hserved.regs r hr), fun y hy => ?_, fun hall j hj => ?_⟩
  · generalize x.setBytes b bs = v at *
    exact hrest.trans (congrArg (fun z : State => { z with mem := v.mem, undef := v.undef, regs := v.regs }) hserved.rest)
  · rw [setBytes_byte _ _ _ _ fun j hj => by rw [hplaces, hplaces]; exact hy j hj]
    exact hserved.mem y
  · rw [setBytes_plain _ _ _ _ (fun j hj => (hplaces _).trans (hall j hj)) ((hplaces _).trans (hall j hj)), if_pos (by omega), Nat.add_sub_cancel_left]

/-- The header of a response turns that of its request round. -/
theorem State.responseTo_eq (s : State) (p : Packet) (n : Nat) : s.responseTo p n = { p with
    srcDie := p.dstDie, dstDie := p.srcDie, srcTeam := p.dstTeam, srcSlot := p.dstSlot, dstTeam := p.srcTeam, dstSlot := p.srcSlot, tag := s.tag16, len := n } := rfl

theorem State.packetAddr_raw {w : Bool} (h : fromHost p = true ∨ p.cls = 1) : s.packetAddr p w = p.addr.toNat := if_pos h

theorem fromHost_iff : fromHost p = true ↔ p.srcTeam = 0x3F ∧ p.srcSlot = 0xF := by
  rw [fromHost, Bool.and_eq_true, decide_eq_true_eq, decide_eq_true_eq, ← BitVec.toNat_inj, ← BitVec.toNat_inj]
  rfl

theorem State.packetAddr_slot {w : Bool} (hhost : p.srcTeam ≠ 0x3F) (hcls : p.cls ≠ 1) : s.packetAddr p w = s.resolve (s.frameOf p.tag) w p.addr.toNat :=
  if_neg fun h => h.elim (fun h => hhost (fromHost_iff.1 h).1) hcls

end Served

section Answers

variable {s : State} {d l : Nat} {p : Packet} {bs : List Byte} {r : Req} {pre post : List Req}

theorem exec_linkResetResponse_deaf (h : s.linkHears d l = false) : exec (.linkResetResponse d l p) s = .next s := if_pos h

theorem exec_linkResetResponse_passes (h : s.linkHears d l = true) (hhere : s.forHere p = false) : exec (.linkResetResponse d l p) s = .next (s.passBack d l 4 p []) :=
  (if_neg (by rw [h]; nofun)).trans (if_pos hhere)

theorem exec_registerResponse_deaf (h : s.linkHears d l = false) : exec (.registerResponse d l p bs) s = .next s := if_pos h

theorem exec_registerResponse_passes (h : s.linkHears d l = true) (hhere : s.forHere p = false) : exec (.registerResponse d l p bs) s = .next (s.passBack d l 7 p bs) :=
  (if_neg (by rw [h]; nofun)).trans (if_pos hhere)

section Here

variable (h : s.linkHears d l = true) (hhere : s.forHere p = true)
include h hhere

theorem exec_linkResetResponse_here : exec (.linkResetResponse d l p) s =
    (takeFirst (fun r => decide (r.p.rid = p.rid) && decide (r.p.req = p.req)) (s.link d l).reqs).elim (.next s) fun x =>
      .next (if ((s.modLink d l (fun y => { y with reqs := x.2 })).request x.1).2 then ((s.modLink d l (fun y => { y with reqs := x.2 })).request x.1).1
        else ((s.modLink d l (fun y => { y with reqs := x.2 })).request x.1).1.failHeld [x.1]) := by
  refine (if_neg (by rw [h]; nofun)).trans ((if_neg (by rw [hhere]; nofun)).trans ?_)
  cases takeFirst (fun r => decide (r.p.rid = p.rid) && decide (r.p.req = p.req)) (s.link d l).reqs <;> rfl

theorem exec_registerResponse_here : exec (.registerResponse d l p bs) s =
    (takeFirst (fun r => decide (r.p.rid = p.rid)) (s.link d l).reqs).elim (.next (s.send (.deliver d p.rid.toNat (BitVec.ofNat 64 (leNat (bs.take 8)))))) fun x =>
      .next ((s.modLink d l (fun y => { y with reqs := x.2 })).send (.deliver d p.rid.toNat (BitVec.ofNat 64 (leNat (bs.take 8))))) := by
  refine (if_neg (by rw [h]; nofun)).trans ((if_neg (by rw [hhere]; nofun)).trans ?_)
  cases takeFirst (fun r => decide (r.p.rid = p.rid)) (s.link d l).reqs <;> rfl

end Here

/-- Of the requests on a link, the one that a response names. -/
theorem takeFirst_reset {rs : List Req} : ((∀ r ∈ rs, r.p.rid ≠ p.rid ∨ r.p.req ≠ p.req) → takeFirst (fun r : Req => decide (r.p.rid = p.rid) && decide (r.p.req = p.req)) rs = none) ∧
    ∀ (r : Req) (pre post : List Req), rs = pre ++ r :: post → (∀ x ∈ pre, x.p.rid ≠ p.rid ∨ x.p.req ≠ p.req) → r.p.rid = p.rid → r.p.req = p.req →
      takeFirst (fun r : Req => decide (r.p.rid = p.rid) && decide (r.p.req = p.req)) rs = some (r, pre ++ post) := by
  have hno : ∀ r : Req, (r.p.rid ≠ p.rid ∨ r.p.req ≠ p.req) → (decide (r.p.rid = p.rid) && decide (r.p.req = p.req)) = false := fun r hr => by
    rw [Bool.and_eq_false_iff, decide_eq_false_iff_not, decide_eq_false_iff_not]
    exact hr
  exact ⟨fun h => (takeFirst_spec _ _).1 fun r hr => hno r (h r hr), fun r pre post he hpre hrid hreq =>
    (takeFirst_spec _ _).2 r pre post he (fun x hx => hno x (hpre x hx)) (by rw [decide_eq_true hrid, decide_eq_true hreq]; rfl)⟩

/-- A request for another module is sent, held or fails (R417, R418). -/
theorem State.request_unrouted (h : s.outOf r.p = none) : s.request r = (s, false) := by
  unfold State.request
  rw [show s.outLink _ _ _ _ = none from h]

theorem State.request_routed {x m : Nat} (h : s.outOf r.p = some (x, m)) : s.request r =
    if (s.link x m).expired = true ∧ s.linkUp x m = false then (s.raise (linkEv 164 x m [(1, m), (4, 1)]), false)
    else if s.linkUp x m then ((s.modLink x m (fun y => { y with reqs := y.reqs ++ [r] })).putPacket x m r.type r.p r.data, true)
    else (s.modLink x m (fun y => { y with held := y.held ++ [r] }), true) := by
  unfold State.request
  rw [show s.outLink _ _ _ _ = some (x, m) from h]

end Answers

/-- Settles O45. -/
theorem packetsAreServedOrSentOn : Obligations.PacketsAreServedOrSentOn := by
  unfold Obligations.PacketsAreServedOrSentOn
  refine ⟨fun s d l p bs => ⟨fun h => ⟨exec_readRequest_misses h, exec_write_misses (.inl h)⟩, fun h => exec_write_misses (.inr h), fun hhears hpos hmax hlen => ?served⟩,
    fun s p w => ⟨fun hteam hslot => State.packetAddr_raw (.inl (fromHost_iff.2 ⟨hteam, hslot⟩)), fun h => State.packetAddr_raw (.inr h), State.packetAddr_slot⟩,
    fun s d l type p bs o ho => ?sendOn, fun s d l type p bs mine hmine => ?passBack, fun s d l type p bs all hlen hall => ?flits, fun s d l k bs x hx hlen => sendSequenced_spec s d l k bs x hx hlen,
    fun s d l p => ⟨exec_linkResetResponse_deaf, exec_linkResetResponse_passes, fun hhears hhere hno => ?unasked, fun r pre post hhears hhere hreqs hpre hrid hreq => ?reissued⟩,
    fun s r o ho => ?request, fun s d l p bs w hw => ⟨exec_registerResponse_deaf, exec_registerResponse_passes, fun hhears hhere hno => ?stray, fun r pre post hhears hhere hreqs hpre hrid => ?delivered⟩⟩
  case served =>
    have hhear : ¬s.PacketMisses d l p := by
      rintro (h | h | h)
      · exact absurd hhears (by rw [h]; nofun)
      · omega
      · omega
    refine ⟨fun hother => ?_, fun hteam hslot a b q ha hb hq => ?_⟩
    · rw [exec_readRequest hhear, exec_write hhear hlen, if_pos (State.forHere_false hother), if_pos (State.forHere_false hother)]
      exact ⟨rfl, rfl⟩
    · have hhere : ¬s.forHere p = false := by
        rw [State.forHere_true hteam hslot]
        nofun
      subst ha hb hq
      rw [exec_readRequest hhear, exec_write hhear hlen, if_neg hhere, if_neg hhere]
      refine ⟨fun h => if_pos h, fun h => (if_neg (by rw [h]; nofun)).trans (congrArg _ (s.requestFails_spec d l p)),
        fun h => (if_neg (by rw [h]; nofun)).trans (congrArg _ (s.requestFails_spec d l p)), fun h => ⟨_, if_pos h, rfl, fun hplain hbarred htable => ?_⟩⟩
      rw [← hlen] at hbarred htable ⊢
      exact State.packetStore_spec hplain hbarred htable
  case sendOn =>
    subst ho
    refine ⟨fun hno => ⟨fun ht => ?_, fun ht => ?_⟩, fun x m hout hup hroute => ⟨fun ht => State.sendOn_answer hout hup hroute (isRequest_false ht),
      fun ht => ⟨State.sendOn_expired hout hup hroute (isRequest_true ht), State.sendOn_noted hout hup hroute (isRequest_true ht)⟩⟩⟩
    · rw [State.sendOn_unrouted hno, isRequest_true ht]
      exact s.requestFails_spec d l p
    · rw [State.sendOn_unrouted hno, isRequest_false ht]
      rfl
  case passBack =>
    have hanswers : ∀ e, ¬mine e → answersNoted p type e = false := fun e he => Bool.eq_false_iff.2 fun h => he ((hmine e).2 (answersNoted_iff.1 h))
    exact ⟨fun h => State.passBack_unnoted fun e he => hanswers e (h e he),
      fun e pre post htransit hpre he => State.passBack_noted htransit (fun x hx => hanswers x (hpre x hx)) (answersNoted_iff.2 ((hmine e).1 he))⟩
  case flits =>
    subst hall
    exact putPacket_spec s d l type p bs hlen
  case unasked =>
    rw [exec_linkResetResponse_here hhears hhere, takeFirst_reset.1 hno]
    rfl
  case reissued =>
    refine ⟨s.modLink d l (fun y => { y with reqs := pre ++ post }), ?_, State.link_modLink_same .., rfl⟩
    rw [exec_linkResetResponse_here hhears hhere, takeFirst_reset.2 r pre post hreqs hpre hrid hreq]
    rfl
  case request =>
    subst ho
    refine ⟨State.request_unrouted, fun x m h hup => ?_, fun x m h hdown hlives => ?_, fun x m h hdown hexp => ?_⟩
    · rw [State.request_routed h, if_neg (by rw [hup]; nofun), if_pos hup]
    · rw [State.request_routed h, if_neg (by rw [hlives]; nofun), if_neg (by rw [hdown]; nofun)]
    · rw [State.request_routed h, if_pos ⟨hexp, hdown⟩]
  case stray =>
    rw [exec_registerResponse_here hhears hhere, (takeFirst_spec _ _).1 fun r hr => decide_eq_false (hno r hr), hw]
    rfl
  case delivered =>
    have hlink : ((s.modLink d l (fun y => { y with reqs := pre ++ post })).send (.deliver d p.rid.toNat w)).link d l = { s.link d l with reqs := pre ++ post } := by
      rw [State.link_send, State.link_modLink_same]
    refine ⟨_, ?_, hlink, rfl⟩
    rw [exec_registerResponse_here hhears hhere, (takeFirst_spec _ _).2 r pre post hreqs (fun x hx => decide_eq_false (hpre x hx)) (decide_eq_true hrid), hw]
    rfl

end Sys2Proof.Machine
end

section
/-! Flits that arrive over a link: accepted in order with their credits, or discarded (R411 to R416, R419, R429, R432). -/

namespace Sys2Proof.Machine

section Arrival

variable {s t v : State} {d l : Nat} {f : Flit}

/-- An unsequenced flit that is not taken has no effect but that of its arrival. -/
theorem exec_plain_untaken (h : s.rxPlain d l f = (t, false)) (e n q : BitVec 12) (k : Nat) :
    ∀ x ∈ [Instr.idle d l f, .nak d l f e, .creditReturn d l f n, .laneSwitch d l f k q], exec x s = .next t := by
  have hidle : exec (.idle d l f) s = .next t := congrArg (fun r : State × Bool => (.next r.1 : Ans)) h
  have hnak : exec (.nak d l f e) s = .next t :=
    congrArg (fun r : State × Bool => (if r.2 then .next ((r.1.ackTo d l (e - 1)).replayFrom d l e) else .next r.1 : Ans)) h
  have hcredit : exec (.creditReturn d l f n) s = .next t := by
    show execCreditReturn d l f n s = _
    unfold execCreditReturn
    rw [h]
    rfl
  have hlane : exec (.laneSwitch d l f k q) s = .next t := by
    show execLaneSwitch d l f k q s = _
    unfold execLaneSwitch
    rw [h]
    exact if_pos (.inl rfl)
  simp only [List.forall_mem_cons, List.not_mem_nil, false_imp_iff, implies_true, hidle, hnak, hcredit, hlane, and_self]

/-- A sequenced flit that is not taken has no effect but that of its arrival. -/
theorem exec_sequenced_untaken (h : s.rxSequenced d l f = (t, false)) (i : Nat) (c : LinkCounts) :
    ∀ x ∈ [Instr.packetData d l f, .waybillCounts d l f c, .timetableFrame d l f ⟨i, false⟩], exec x s = .next t := by
  have hdata : exec (.packetData d l f) s = .next t := congrArg (fun r : State × Bool => (.next r.1 : Ans)) h
  have hcounts : exec (.waybillCounts d l f c) s = .next t := by
    show execWaybillCounts d l f c s = _
    unfold execWaybillCounts
    rw [h]
    exact if_pos rfl
  have hframe : exec (.timetableFrame d l f ⟨i, false⟩) s = .next t := by
    show execTimetableFrame d l f ⟨i, false⟩ s = _
    unfold execTimetableFrame
    rw [h]
    exact (if_neg (by nofun)).trans (if_pos rfl)
  simp only [List.forall_mem_cons, List.not_mem_nil, false_imp_iff, implies_true, hdata, hcounts, hframe, and_self]

section Plain

variable (h : s.rxPlain d l f = (t, true))
include h

theorem exec_idle : exec (.idle d l f) s = .next t := congrArg (fun r : State × Bool => (.next r.1 : Ans)) h

theorem exec_nak (e : BitVec 12) : exec (.nak d l f e) s = .next ((t.ackTo d l (e - 1)).replayFrom d l e) :=
  congrArg (fun r : State × Bool => (if r.2 then .next ((r.1.ackTo d l (e - 1)).replayFrom d l e) else .next r.1 : Ans)) h

theorem exec_creditReturn (n : BitVec 12) : exec (.creditReturn d l f n) s =
    .next ((t.creditsIn d l n.toNat f.tag).drain d l ((t.creditsIn d l n.toNat f.tag).link d l).txq.length) := by
  show execCreditReturn d l f n s = _
  unfold execCreditReturn
  rw [h]
  rfl

/-- A lane that the partner names moves to the lowest free spare. -/
theorem exec_laneSwitch_unmoved {lane : Nat} {q : BitVec 12} (hno : s.lanes d l ≤ lane ∨ t.freeSpare d l true = none) : exec (.laneSwitch d l f lane q) s = .next t := by
  show execLaneSwitch d l f lane q s = _
  unfold execLaneSwitch
  rw [h]
  dsimp only
  by_cases hlane : s.lanes d l ≤ lane
  · exact if_pos (.inr hlane)
  · rw [if_neg (by rintro (h | h); exact nomatch h; exact hlane h), hno.resolve_left hlane]

theorem exec_laneSwitch_moved {lane k : Nat} {q : BitVec 12} (hlane : lane < s.lanes d l) (hspare : t.freeSpare d l true = some k) :
    exec (.laneSwitch d l f lane q) s = .next (t.modLink d l (fun x => { x with sparesUsed := x.sparesUsed ++ [(64 + lane, k)] })) := by
  show execLaneSwitch d l f lane q s = _
  unfold execLaneSwitch
  rw [h]
  dsimp only
  rw [if_neg (by rintro (h | h); exact nomatch h; omega), hspare]

end Plain

/-- The credits of a control flit. -/
theorem State.link_creditsIn (s : State) (d l n : Nat) (tag : BitVec 16) : (s.creditsIn d l n tag).link d l =
    { s.link d l with credits := (s.link d l).credits + n, crin := bump48 (s.link d l).crin n, earlyCr := (s.link d l).earlyCr + if s.later tag then n else 0 } := by
  rw [State.creditsIn, State.link_modLink_same]
  cases s.later tag <;> rfl

/-- A sequenced flit that is in order is accepted, and its credit goes back. -/
def State.flitAccepted (u : State) (d l : Nat) (f : Flit) : State :=
  (u.modLink d l (fun x => { x with rxExp := x.rxExp + 1, recv := bump48 x.recv 1, ret := bump48 x.ret 1, early := x.early + (if u.later f.tag then 1 else 0), nakAge := 0 })).sendPlain
    d l 3 (leBytes 2 1)

theorem State.link_flitAccepted (u : State) (d l : Nat) (f : Flit) : (u.flitAccepted d l f).link d l = { u.link d l with
    rxExp := (u.link d l).rxExp + 1, recv := bump48 (u.link d l).recv 1, ret := bump48 (u.link d l).ret 1, nakAge := 0, early := (u.link d l).early + if u.later f.tag then 1 else 0 } := by
  rw [State.flitAccepted, State.sendPlain, State.link_send, State.link_modLink_same]

/-- Accepting a flit changes its link, and sends a control flit. -/
theorem State.flitAccepted_rest (u : State) (d l : Nat) (f : Flit) : let v := u.flitAccepted d l f
    v = { u with links := v.links, wire := u.wire ++ [.flit d l ((v.link d l).flit u.tag16 3 (leBytes 2 1))] } := rfl

theorem State.later_flitAccepted (u : State) (d l : Nat) (f : Flit) (tag : BitVec 16) : (u.flitAccepted d l f).later tag = u.later tag := rfl

section Sequenced

variable (h : s.rxSequenced d l f = (v, true))
include h

theorem exec_packetData : exec (.packetData d l f) s = .next v := congrArg (fun r : State × Bool => (.next r.1 : Ans)) h

/-- A Timetable frame that has been seen is dropped; a first copy goes on and to firmware. -/
theorem exec_timetableFrame (i : Nat) : exec (.timetableFrame d l f ⟨i, false⟩) s =
    if Flood.timetable i ∈ v.team.flooded then .next v else .next (((v.seen (.timetable i)).flood d l f.kind f.payload).send (.forward d l 7 i)) := by
  show execTimetableFrame d l f ⟨i, false⟩ s = _
  unfold execTimetableFrame
  rw [h]
  refine (if_neg (by nofun)).trans ((if_neg (by nofun)).trans ?_)
  dsimp only [State.floodIn]
  split <;> rfl

section Counts

variable {c : LinkCounts}

/-- Waybill counts of the partner: those of the next frame wait for the module's own. -/
theorem exec_waybillCounts_first (hmine : (v.link d l).mine = none) :
    exec (.waybillCounts d l f c) s = .next (if v.later f.tag then v.modLink d l (fun x => { x with peer := some c }) else v) := by
  show execWaybillCounts d l f c s = _
  unfold execWaybillCounts
  rw [h]
  refine (if_neg (by nofun)).trans ?_
  dsimp only
  rw [hmine]

variable {a : LinkCounts} (hmine : (v.link d l).mine = some a)
include hmine

/-- Counts that come outside the hold, or for the next frame, decide nothing. -/
theorem exec_waybillCounts_apart (hapart : v.frame.inHold = false ∨ v.later f.tag = true) :
    exec (.waybillCounts d l f c) s = .next (v.modLink d l (fun x => { x with mine := none, peer := if v.later f.tag then some c else none })) := by
  show execWaybillCounts d l f c s = _
  unfold execWaybillCounts
  rw [h]
  refine (if_neg (by nofun)).trans ?_
  dsimp only
  rw [hmine]
  exact if_pos hapart

/-- Counts that come within the hold decide the link law. -/
theorem exec_waybillCounts_decide (hhold : v.frame.inHold = true) (hlate : v.later f.tag = false) : exec (.waybillCounts d l f c) s =
    .next (if linkLaws d l (v.link d l).ct a c = [] then v.decideLink d l a c else (v.decideLink d l a c).sendReport) := by
  show execWaybillCounts d l f c s = _
  unfold execWaybillCounts
  rw [h]
  refine (if_neg (by nofun)).trans ?_
  dsimp only
  rw [hmine]
  exact if_neg (by rw [hhold, hlate]; nofun)

end Counts

end Sequenced

end Arrival

section Flooding

variable {s : State} {d l port index x m : Nat} {k : BitVec 4} {bs : List Byte}

theorem sequenced_true (h : k = 0 ∨ k = 4 ∨ k = 6 ∨ k = 7) : sequenced k = true := by
  simpa only [sequenced, Bool.or_eq_true, decide_eq_true_eq, or_assoc] using h

theorem sequenced_false (h0 : k ≠ 0) (h4 : k ≠ 4) (h6 : k ≠ 6) (h7 : k ≠ 7) : sequenced k = false := by
  simp only [sequenced, Bool.or_eq_false_iff, decide_eq_false_iff_not]
  exact ⟨⟨⟨h0, h4⟩, h6⟩, h7⟩

theorem State.floodPort_unlinked (h : s.linkOfPort port index = none) : s.floodPort port index k bs = s := by rw [State.floodPort, h]

/-- A flooded flit leaves by a link that is UP. -/
theorem State.floodPort_linked (h : s.linkOfPort port index = some (x, m)) : s.floodPort port index k bs =
    if s.linkUp x m then (if sequenced k then s.sendSequenced x m k bs else s.sendPlain x m k bs) else s := by rw [State.floodPort, h]

theorem State.flood_unlinked (h : s.linkInfo d l = none) : s.flood d l k bs = s := by rw [State.flood, h]

/-- A flooded flit goes on by the opposite ring port. -/
theorem State.flood_linked {i : LinkInfo} (h : s.linkInfo d l = some i) : s.flood d l k bs = if i.port = 1 ∨ i.port = 2 then s.floodPort (3 - i.port) i.index k bs else s := by
  rw [State.flood, h]

/-- A Timetable frame of the module's own is sent by the Coachman, once. -/
theorem exec_timetableFrame_own {f : Flit} {i : Nat} : exec (.timetableFrame d l f ⟨i, true⟩) s =
    if s.rd TEAM_STATUS_STATE ≠ 3 ∨ .timetable i ∈ s.team.flooded then .next s else .next (((s.seen (.timetable i)).floodOut 7 f.payload).send (.forward d l 7 i)) := by
  show execTimetableFrame d l f ⟨i, true⟩ s = _
  unfold execTimetableFrame
  exact if_pos rfl

end Flooding

/-- Settles O46. -/
theorem flitsAreAcceptedInOrderWithTheirCredits : Obligations.FlitsAreAcceptedInOrderWithTheirCredits := by
  unfold Obligations.FlitsAreAcceptedInOrderWithTheirCredits
  refine ⟨fun s d l f => ?_, fun s d l f i => ⟨fun h => exec_timetableFrame_own.trans (if_pos h), fun hcoach hnew => exec_timetableFrame_own.trans (if_neg ?own)⟩,
    fun s d l k bs => ⟨rfl, State.flood_unlinked, fun i hi => ?flood⟩, fun s port index k bs => ⟨State.floodPort_unlinked, fun x m hlink => ?port⟩⟩
  · obtain ⟨hpdeaf, hpbad, hpgood⟩ := rxPlain_spec s d l f
    obtain ⟨hsdeaf, hsbad, hsgood⟩ := rxSequenced_spec s d l f
    refine ⟨fun hdeaf c hc => ?deaf, fun hdeaf e n q k i c x hx => ?deafs, fun hhears hbad e n q k i c =>
      ⟨exec_plain_untaken (hpbad hhears hbad) e n q k, exec_sequenced_untaken (hsbad hhears hbad) i c⟩, fun hhears hgood hkind u late hu hlate => ?good⟩
    case deaf =>
      rcases List.mem_cons.1 hc with rfl | hc
      · exact exec_sequenced_untaken (hsdeaf hdeaf) 0 ⟨0, 0, 0, 0, 0, 0⟩ _ List.mem_cons_self
      · rw [List.mem_singleton.1 hc]
        exact exec_plain_untaken (hpdeaf hdeaf) 0 0 0 0 _ List.mem_cons_self
    case deafs =>
      have hplain := exec_plain_untaken (hpdeaf hdeaf) e n q k
      have hsequenced := exec_sequenced_untaken (hsdeaf hdeaf) i c
      simp only [List.forall_mem_cons, List.not_mem_nil, false_imp_iff, implies_true, and_true] at hplain hsequenced
      obtain ⟨-, hnak, hcredit, hlane⟩ := hplain
      obtain ⟨-, hcounts, hframe⟩ := hsequenced
      revert x
      simp only [List.forall_mem_cons, List.not_mem_nil, false_imp_iff, implies_true, hnak, hcredit, hlane, hcounts, hframe, and_self]
    case good =>
      obtain rfl : late = u.later f.tag := hlate
      have hplain := hu ▸ hpgood hhears hgood hkind
      obtain ⟨horder, haccept⟩ := hsgood hhears hgood hkind u hu
      refine ⟨exec_idle hplain, exec_nak hplain, fun n => ⟨_, exec_creditReturn hplain n, State.link_creditsIn .., rfl⟩,
        fun lane q => ⟨exec_laneSwitch_unmoved hplain, fun k hlane hspare => ⟨_, exec_laneSwitch_moved hplain hlane hspare, rfl, State.link_modLink_same ..⟩⟩,
        fun hseq i c => exec_sequenced_untaken (horder hseq) i c, fun hseq => ?_⟩
      have hrx : s.rxSequenced d l f = (u.flitAccepted d l f, true) := haccept hseq
      refine ⟨u.flitAccepted d l f, u.link_flitAccepted d l f, u.flitAccepted_rest d l f, exec_packetData hrx, fun i hi => (exec_timetableFrame hrx i).trans (if_pos hi),
        fun i hi => (exec_timetableFrame hrx i).trans (if_neg hi), fun c => ?_⟩
      rw [← u.later_flitAccepted d l f f.tag]
      generalize u.flitAccepted d l f = v at hrx
      refine ⟨fun hmine hnow => ?_, fun hmine hlater => ?_, fun a hmine hapart => ⟨_, exec_waybillCounts_apart hrx hmine hapart, State.link_modLink_same .., rfl⟩,
        fun a vs hmine hhold hnow hvs => ⟨v.modLink d l (fun x => { x with mine := none, peer := none }), State.link_modLink_same .., rfl, fun hnil => ?_, fun hne => ?_⟩⟩
      · rw [exec_waybillCounts_first hrx hmine, hnow]
        rfl
      · exact ⟨_, (exec_waybillCounts_first hrx hmine).trans (congrArg _ (if_pos hlater)), State.link_modLink_same .., rfl⟩
      · rw [exec_waybillCounts_decide hrx hmine hhold hnow, if_pos (hvs ▸ hnil), State.decideLink, ← hvs, hnil]
        rfl
      · rw [exec_waybillCounts_decide hrx hmine hhold hnow, if_neg (hvs ▸ hne), State.decideLink, ← hvs]
  case own => exact fun h => h.elim (· hcoach) hnew
  case flood =>
    rw [State.flood_linked hi]
    refine ⟨fun h1 h2 => if_neg (by omega), fun h => ?_, fun h => ?_⟩
    · rw [if_pos (.inl h), h]
    · rw [if_pos (.inr h), h]
  case port =>
    rw [State.floodPort_linked hlink]
    refine ⟨fun hdown => if_neg (by rw [hdown]; nofun), fun hup hseq => ?_, fun hup h0 h4 h6 h7 => ?_⟩
    · rw [if_pos hup, if_pos (sequenced_true hseq)]
    · rw [if_pos hup, if_neg (by rw [sequenced_false h0 h4 h6 h7]; nofun)]
      rfl

end Sys2Proof.Machine
end

section
/-! Replies that release flits, the link law, and the replay of die-to-die ports (R411, R414 to R416, R423). -/

namespace Sys2Proof.Machine

section Replies

variable {s : State} {d l : Nat}

/-- ACK of a link without unacknowledged flits releases none. -/
theorem State.ackTo_empty {ack : BitVec 12} (h : (s.link d l).retry = []) : s.ackTo d l ack = s := by rw [State.ackTo, h]

/-- ACK releases the flits up to the one named, where that is in the retry buffer. -/
theorem State.ackTo_cons {ack : BitVec 12} {g : Flit} {r : List Flit} (h : (s.link d l).retry = g :: r) : s.ackTo d l ack =
    if (ack - g.seq).toNat + 1 ≤ (s.link d l).retry.length then s.modLink d l (fun x => { x with retry := x.retry.drop ((ack - g.seq).toNat + 1), replays := 0 }) else s := by
  rw [State.ackTo, h]

/-- A link that has nothing to send, or cannot, sends nothing. -/
theorem State.drain_idle (h : (s.link d l).txq = [] ∨ s.linkUp d l = false ∨ (s.link d l).credits = 0 ∨ 2048 ≤ (s.link d l).retry.length) (n : Nat) : s.drain d l n = s := by
  cases n with
  | zero => rfl
  | succ n =>
    rw [State.drain]
    dsimp only
    cases htxq : (s.link d l).txq with
    | nil => rfl
    | cons b r =>
      refine if_neg fun ⟨hup, hcredits, hretry⟩ => ?_
      rcases h with h | h | h | h
      · rw [htxq] at h
        exact nomatch h
      · rw [hup] at h
        exact nomatch h
      · omega
      · omega

/-- A flit that waited is sent. -/
def State.flitSent (s : State) (d l : Nat) (r : List (BitVec 4 × List Byte)) (f : Flit) : State :=
  (s.modLink d l (fun x => { x with txq := r, txNext := x.txNext + 1, retry := x.retry ++ [f], credits := x.credits - 1, sent := bump48 x.sent 1 })).send (.flit d l f)

theorem State.link_flitSent (s : State) (d l : Nat) (r : List (BitVec 4 × List Byte)) (f : Flit) : (s.flitSent d l r f).link d l =
    { s.link d l with txq := r, txNext := (s.link d l).txNext + 1, retry := (s.link d l).retry ++ [f], credits := (s.link d l).credits - 1, sent := bump48 (s.link d l).sent 1 } := by
  rw [State.flitSent, State.link_send, State.link_modLink_same]

theorem State.drain_sends {k : BitVec 4} {b : List Byte} {r : List (BitVec 4 × List Byte)} (htxq : (s.link d l).txq = (k, b) :: r) (hup : s.linkUp d l = true)
    (hcredits : 0 < (s.link d l).credits) (hretry : (s.link d l).retry.length < 2048) (n : Nat) :
    s.drain d l (n + 1) = (s.flitSent d l r ((s.link d l).flit s.tag16 k b)).drain d l n := by
  rw [State.drain]
  dsimp only
  rw [htxq]
  exact if_pos ⟨hup, hcredits, hretry⟩

/-- The NAK of a link that waits for a flit. -/
def State.nakFlit (s : State) (d l : Nat) : Flit := ((s.link d l).flit s.tag16 2 (leBytes 2 (s.link d l).rxExp.toNat))

/-- A flit that is discarded is asked for again. -/
theorem State.discard_asks (h : (s.link d l).nakAge = 0 ∨ 64 ≤ (s.link d l).nakAge) :
    s.discard d l = (s.modLink d l (fun x => { x with nakAge := 1 })).send (.flit d l (s.nakFlit d l)) := by
  rw [State.discard]
  refine (if_pos h).trans ?_
  rw [State.sendPlain, State.link_modLink_same]
  rfl

/-- It is asked for at most once per 64 flit times. -/
theorem State.discard_waits (hpos : 0 < (s.link d l).nakAge) (hlt : (s.link d l).nakAge < 64) : s.discard d l = s.modLink d l (fun x => { x with nakAge := x.nakAge + 1 }) :=
  if_neg (by omega)

theorem State.nakFlit_payload (s : State) (d l : Nat) : (s.nakFlit d l).payload.take 2 = leBytes 2 (s.link d l).rxExp.toNat :=
  List.take_left' (length_leBytes ..)

/-- Both directions of a link hold its law. -/
theorem linkLaws_nil_iff {ct : Nat} {a b : LinkCounts} (h : ∀ y ∈ [a.sent, a.recv, a.ret, a.crin, b.sent, b.recv, b.ret, b.crin, a.occ, b.occ, a.held, b.held, ct], y < 2 ^ 46)
    (hout : b.recv ≤ a.sent) (hin : a.recv ≤ b.sent) (hcrin : a.crin ≤ b.ret) (hcrout : b.crin ≤ a.ret) : linkLaws d l ct a b = [] ↔
      (a.held + (a.sent - b.recv) + b.occ + (b.ret - a.crin) = ct ∧ a.sent - b.recv ≤ 2048) ∧ b.held + (b.sent - a.recv) + a.occ + (a.ret - b.crin) = ct ∧ b.sent - a.recv ≤ 2048 := by
  have hfirst : ∀ y ∈ [a.held, a.sent, b.recv, b.occ, b.ret, a.crin, ct], y < 2 ^ 46 := fun y hy => h y (by simp only [List.mem_cons] at hy ⊢; tauto)
  have hsecond : ∀ y ∈ [b.held, b.sent, a.recv, a.occ, a.ret, b.crin, ct], y < 2 ^ 46 := fun y hy => h y (by simp only [List.mem_cons] at hy ⊢; tauto)
  rw [linkLaws, List.append_eq_nil_iff, linkLaw_iff d l ct _ _ _ _ _ _ hfirst hout hcrin, linkLaw_iff d (16 + l) ct _ _ _ _ _ _ hsecond hin hcrout]

end Replies

section Ports

theorem foldl_send_map {α : Type} (g : α → Out) (fs : List α) : ∀ s : State, fs.foldl (fun s f => s.send (g f)) s = { s with wire := s.wire ++ fs.map g } := by
  induction fs with
  | nil => exact fun s => by rw [List.map_nil, List.append_nil]; rfl
  | cons f fs ih =>
    intro s
    rw [List.foldl_cons, ih, List.map_cons]
    show ({ s with wire := (s.wire ++ [g f]) ++ fs.map g } : State) = _
    rw [List.append_assoc]
    rfl

theorem Port.acked_empty {x : Port} {ack : BitVec 8} (h : x.retry = []) : x.acked ack = x := by rw [Port.acked, h]

/-- ACK of a die flit releases those up to the one named, where that is in the retry buffer. -/
theorem Port.acked_cons {x : Port} {ack : BitVec 8} {g : DieFlit} {r : List DieFlit} (h : x.retry = g :: r) :
    x.acked ack = if (ack - g.seq).toNat + 1 ≤ x.retry.length then { x with retry := x.retry.drop ((ack - g.seq).toNat + 1), replays := 0 } else x := by
  rw [Port.acked, h]

theorem Port.acked_rxExp (x : Port) (ack : BitVec 8) : (x.acked ack).rxExp = x.rxExp := by
  cases h : x.retry with
  | nil => rw [Port.acked_empty h]
  | cons g r =>
    rw [Port.acked_cons h]
    split <;> rfl

/-- A count that a flit of the next frame advances. -/
theorem early_add (late : Bool) (m k : Nat) : (if late then m + k else m) = m + (if late then 1 else 0) * k := by cases late <;> simp

theorem Port.head_eq (x : Port) (f : DieFlit) (late : Bool) : x.head f late = { x.acked f.ack with
    credits := (x.acked f.ack).credits + f.cret, crin := bump48 (x.acked f.ack).crin f.cret, earlyCr := (x.acked f.ack).earlyCr + (if late then 1 else 0) * f.cret } := by
  rw [Port.head, early_add]

theorem Port.put_eq (x : Port) (f : DieFlit) (late : Bool) : x.put f late = { x with
    txNext := x.txNext + 1, sent := bump48 x.sent 1, credits := x.credits - 1, retry := x.retry ++ [f], earlySent := x.earlySent + if late then 1 else 0 } := by
  rw [Port.put, early_add, Nat.mul_one]

theorem Port.take_eq (x : Port) (late : Bool) : x.take late = { x with
    rxExp := x.rxExp + 1, recv := bump48 x.recv 1, ret := bump48 x.ret 1, nakAge := 0, early := x.early + if late then 1 else 0 } := by
  rw [Port.take, early_add, Nat.mul_one]

variable {s : State} {d p e : Nat} {f : DieFlit}

/-- The two ends of a port lie in two dies. -/
theorem State.portPeer_ne (h : s.portPeer d p = some e) : e ≠ d := by
  unfold State.portPeer at h
  dsimp only at h
  split at h
  · exact Option.some.inj h ▸ xor_two_pow_ne d p
  · exact nomatch h

/-- A new die flit counts as sent. -/
def State.dieFlitSent (s : State) (e p : Nat) (f : DieFlit) : State := if decide (f.seq = (s.port e p).txNext) then s.modPort e p (fun x => x.put f (s.later f.tag)) else s

theorem State.dieFlitSent_spec (s : State) (e p : Nat) (f : DieFlit) : s.dieFlitSent e p f = { s with ports := (s.dieFlitSent e p f).ports } ∧
    (s.dieFlitSent e p f).port e p = (if f.seq = (s.port e p).txNext then (s.port e p).put f (s.later f.tag) else s.port e p) ∧
      ∀ d, d ≠ e → (s.dieFlitSent e p f).port d p = s.port d p := by
  unfold State.dieFlitSent
  by_cases hnew : f.seq = (s.port e p).txNext
  · rw [if_pos (decide_eq_true hnew), if_pos hnew]
    exact ⟨rfl, State.port_modPort_same .., fun d hd => port_modPort_ne _ hd _⟩
  · rw [if_neg (fun h => hnew (of_decide_eq_true h)), if_neg hnew]
    exact ⟨rfl, rfl, fun _ _ => rfl⟩

theorem exec_dieFlit_unconnected (h : s.portPeer d p = none) : exec (.dieFlit d p f) s = .next s := by
  show execDieFlit d p f s = _
  rw [execDieFlit, h]

section Peer

variable (hpeer : s.portPeer d p = some e)
include hpeer

theorem exec_dieFlit_down (h : s.dieUp d = false ∨ s.dieUp e = false ∨ (s.port d p).up = false ∨ s.producerWaits d 0xFF 23 p = true) : exec (.dieFlit d p f) s = .next s := by
  show execDieFlit d p f s = _
  rw [execDieFlit, hpeer]
  exact if_pos h

variable (hup : ¬(s.dieUp d = false ∨ s.dieUp e = false ∨ (s.port d p).up = false ∨ s.producerWaits d 0xFF 23 p = true))
include hup

/-- A new flit that its sender has no credit or no room for is not sent. -/
theorem exec_dieFlit_unsent (hnew : f.seq = (s.port e p).txNext) (hfull : (s.port e p).credits = 0 ∨ 128 ≤ (s.port e p).retry.length) : exec (.dieFlit d p f) s = .next s := by
  show execDieFlit d p f s = _
  rw [execDieFlit, hpeer]
  exact (if_neg hup).trans (if_pos ⟨decide_eq_true hnew, hfull⟩)

/-- A die flit that arrives: in order it is accepted, and any other is discarded. -/
theorem exec_dieFlit (hsent : f.seq ≠ (s.port e p).txNext ∨ (0 < (s.port e p).credits ∧ (s.port e p).retry.length < 128)) : exec (.dieFlit d p f) s =
    if dieFlitGood f = false then .next ((s.dieFlitSent e p f).portDiscard d e p)
    else if f.seq ≠ (s.port d p).rxExp then .next (((s.dieFlitSent e p f).modPort d p (fun x => x.head f (s.later f.tag))).portDiscard d e p)
    else .next (((s.dieFlitSent e p f).modPort d p (fun x => x.head f (s.later f.tag))).modPort d p (fun x => x.take (s.later f.tag))) := by
  have hseq : (((s.dieFlitSent e p f).modPort d p (fun x => x.head f (s.later f.tag))).port d p).rxExp = (s.port d p).rxExp := by
    rw [State.port_modPort_same, (s.dieFlitSent_spec e p f).2.2 d (State.portPeer_ne hpeer).symm, Port.head_eq]
    exact Port.acked_rxExp ..
  rw [← hseq]
  show execDieFlit d p f s = _
  rw [execDieFlit, hpeer]
  have hsends : ¬(decide (f.seq = (s.port e p).txNext) = true ∧ ((s.port e p).credits = 0 ∨ 128 ≤ (s.port e p).retry.length)) := by
    rintro ⟨hnew, hfull⟩
    obtain ⟨hcredits, hretry⟩ := hsent.resolve_left fun h => h (of_decide_eq_true hnew)
    omega
  exact (if_neg hup).trans (if_neg hsends)

end Peer

/-- A port that discards a flit asks for it again, at most once per 64 flit times. -/
theorem State.portDiscard_waits (hpos : 0 < (s.port d p).nakAge) (hlt : (s.port d p).nakAge < 64) : s.portDiscard d e p = s.modPort d p (fun x => { x with nakAge := x.nakAge + 1 }) :=
  if_neg (by omega)

theorem State.portDiscard_asks (h : (s.port d p).nakAge = 0 ∨ 64 ≤ (s.port d p).nakAge) :
    s.portDiscard d e p = (s.modPort d p (fun x => { x with nakAge := 1 })).portReplay e p (s.port d p).rxExp := if_pos h

section Replay

variable {seq : BitVec 8}

theorem State.portReplay_empty (h : (s.port e p).retry = []) : s.portReplay e p seq = s := by rw [State.portReplay, h]

/-- The flits of a port that are sent again. -/
def State.portReplayed (s : State) (e p : Nat) (fs : List DieFlit) : State :=
  ({ s with wire := s.wire ++ fs.map (fun f => .dieFlit e p f) } : State).modPort e p (fun x => { x with replays := x.replays + 1 })

/-- A replay from a flit of the retry buffer on; the eighth retrains the port. -/
theorem State.portReplay_cons {g : DieFlit} {r : List DieFlit} (h : (s.port e p).retry = g :: r) : s.portReplay e p seq =
    if (g :: r).drop (seq - g.seq).toNat = [] then s
    else if 7 ≤ (s.port e p).replays then (s.portReplayed e p ((g :: r).drop (seq - g.seq).toNat)).portRetrain e p else s.portReplayed e p ((g :: r).drop (seq - g.seq).toNat) := by
  have hreplays : ∀ fs, ((s.portReplayed e p fs).port e p).replays = (s.port e p).replays + 1 := fun fs => congrArg Port.replays (State.port_modPort_same ..)
  rw [State.portReplay, h]
  dsimp only
  rw [foldl_send_map]
  refine if_congr Iff.rfl rfl (if_congr ?_ rfl rfl)
  rw [show (State.modPort _ e p _) = s.portReplayed e p ((g :: r).drop (seq - g.seq).toNat) from rfl, hreplays]
  omega

end Replay

theorem State.portRetrain_unconnected (h : s.portPeer d p = none) : s.portRetrain d p = s := by rw [State.portRetrain, h]

/-- A port that retrains is down at both its ends. -/
def State.portDown (s : State) (d e p : Nat) : State := (s.modPort d p (fun x => { x with up := false, replays := 0 })).modPort e p (fun x => { x with up := false, replays := 0 })

theorem State.portRetrain_connected (h : s.portPeer d p = some e) : s.portRetrain d p = (s.portDown d e p).raise (mkEv 168 d 0xFF 23 p [(1, p)]) := by
  rw [State.portRetrain, h]
  rfl

theorem exec_d2dPortRetrained_unconnected {ok : Bool} (h : s.portPeer d p = none) : exec (.d2dPortRetrained d p ok) s = .next s := by
  show execD2dPortRetrained d p ok s = _
  rw [execD2dPortRetrained, h]

/-- A port that is up again at both its ends. -/
def State.portAgain (s : State) (d e p : Nat) : State := (s.modPort d p (fun x => { x with up := true })).modPort e p (fun x => { x with up := true })

/-- The end of a port's training. -/
theorem exec_d2dPortRetrained {ok : Bool} (h : s.portPeer d p = some e) : exec (.d2dPortRetrained d p ok) s =
    if s.dieUp d = false ∨ (s.port d p).up = true then .next s
    else if ok then
      let v := ((s.portAgain d e p).unitMended d 23 p).unitMended e 23 p
      .next { v with wire := v.wire ++ (v.port d p).retry.map (fun g => .dieFlit d p g) ++ (v.port e p).retry.map (fun g => .dieFlit e p g) }
    else .next (s.fenceFound d 168) := by
  show execD2dPortRetrained d p ok s = _
  rw [execD2dPortRetrained, h]
  dsimp only
  rw [foldl_send_map, foldl_send_map]
  rfl

end Ports

/-- Settles O47. -/
theorem repliesReleaseFlitsAndPortsReplay : Obligations.RepliesReleaseFlitsAndPortsReplay := by
  unfold Obligations.RepliesReleaseFlitsAndPortsReplay
  refine ⟨fun s d l ack x hx => ?ack, fun s d l f u x hu hx => ?head, fun s d l n x hx => ?drain, fun s d l x hx => ?discard, fun d l ct a b => linkLaws_nil_iff, fun s d p f ok =>
    ⟨fun h => ⟨exec_dieFlit_unconnected h, exec_d2dPortRetrained_unconnected h⟩, fun e hpeer => ⟨exec_dieFlit_down hpeer, fun hd he hport hfifo => ?flit, fun h => ?up, fun hd hdown => ?trained⟩⟩,
    fun x ack => ⟨Port.acked_empty, fun g r n hr hn => ?acked⟩, fun s d e p => ⟨State.portDiscard_waits, State.portDiscard_asks⟩,
    fun s e p seq => ⟨State.portReplay_empty, fun g r fs hr hfs => ?replay⟩, fun s d p => ⟨State.portRetrain_unconnected, fun e hpeer => ?retrain⟩⟩
  case ack =>
    subst hx
    refine ⟨State.ackTo_empty, fun g r n hr hn => ?_⟩
    subst hn
    rw [State.ackTo_cons hr]
    refine ⟨fun hlt => if_neg (by omega), fun hle => ?_⟩
    rw [if_pos hle]
    exact ⟨State.link_modLink_same .., rfl⟩
  case head =>
    subst hu hx
    refine ⟨(s.ackTo d l f.ack).creditsIn d l f.cret.toNat f.tag, ?_, rfl, State.link_modLink_same ..⟩
    rw [State.flitHead, State.creditsIn, State.link_modLink_same]
  case drain =>
    subst hx
    refine ⟨fun h => State.drain_idle h n, fun k b r f htxq hup hcredits hretry hf => ⟨_, ?_, rfl, ?_, ?_, ?_, ?_, State.link_flitSent ..⟩⟩
    · rw [State.drain_sends htxq hup hcredits hretry, hf]
    · rw [hf]
      rfl
    · rw [hf]
      rfl
    · rw [hf]
      rfl
    · rw [hf]
      exact flitGood_seal _
  case discard =>
    subst hx
    refine ⟨fun hpos hlt => ?_, fun h => ⟨s.nakFlit d l, rfl, s.nakFlit_payload d l, rfl, flitGood_seal _, ?_, ?_⟩⟩
    · rw [State.discard_waits hpos hlt]
      exact ⟨State.link_modLink_same .., rfl⟩
    · rw [State.discard_asks h, State.link_send, State.link_modLink_same]
    · rw [State.discard_asks h]
      rfl
  case flit =>
    have hne := State.portPeer_ne hpeer
    have hup : ¬(s.dieUp d = false ∨ s.dieUp e = false ∨ (s.port d p).up = false ∨ s.producerWaits d 0xFF 23 p = true) := by
      rw [hd, he, hport, hfifo]
      nofun
    refine ⟨exec_dieFlit_unsent hpeer hup, fun hsent w x y n hn hw hx hy => ?_⟩
    obtain ⟨hrest, hsender, hother⟩ := s.dieFlitSent_spec e p f
    have hexec := exec_dieFlit hpeer hup hsent
    have hw' : (s.dieFlitSent e p f).port e p = w := by
      rw [hsender, hw, Port.put_eq, hn]
    have hy' : ((s.dieFlitSent e p f).modPort d p (fun x => x.head f (s.later f.tag))).port d p = y := by
      rw [State.port_modPort_same, hother d hne.symm, Port.head_eq, hy, hx, hn]
    have hhead : (s.dieFlitSent e p f).modPort d p (fun x => x.head f (s.later f.tag)) =
        { s with ports := ((s.dieFlitSent e p f).modPort d p (fun x => x.head f (s.later f.tag))).ports } := by
      generalize hz : s.dieFlitSent e p f = z at *
      rw [hrest]
      rfl
    by_cases hgood : dieFlitGood f = true
    · rw [if_neg (by rw [hgood]; nofun)] at hexec
      by_cases hseq : f.seq = (s.port d p).rxExp
      · rw [if_neg (fun h => h hseq)] at hexec
        refine ⟨_, ?_, ?_, fun _ _ => ⟨hexec, ?_⟩, fun _ h => absurd hseq h, fun h => absurd hgood (by rw [h]; nofun)⟩
        · generalize (s.dieFlitSent e p f).modPort d p (fun x => x.head f (s.later f.tag)) = z at *
          rw [hhead]
          rfl
        · rw [port_modPort_ne _ hne, port_modPort_ne _ hne, hw']
        · rw [State.port_modPort_same, hy', Port.take_eq, hn]
      · rw [if_pos hseq] at hexec
        exact ⟨_, hhead, (port_modPort_ne _ hne _).trans hw', fun _ h => absurd h hseq, fun _ _ => ⟨hexec, hy'⟩, fun h => absurd hgood (by rw [h]; nofun)⟩
    · rw [if_pos (Bool.not_eq_true _ ▸ hgood)] at hexec
      exact ⟨_, hrest, hw', fun h => absurd h hgood, fun h => absurd h hgood, fun _ => ⟨hexec, hother d hne.symm⟩⟩
  case up =>
    rw [exec_d2dPortRetrained hpeer, if_pos h]
  case trained =>
    have hexec := exec_d2dPortRetrained (ok := ok) hpeer
    rw [if_neg (by rw [hd, hdown]; nofun)] at hexec
    refine ⟨fun hfails => ?_, fun hok => ?_⟩
    · rw [hexec, hfails]
      rfl
    · obtain ⟨hrest, -, hdport, heport⟩ := s.modPorts_spec (State.portPeer_ne hpeer).symm (fun x => { x with up := true }) (u := s.portAgain d e p) rfl
      rw [if_pos hok] at hexec
      exact ⟨s.portAgain d e p, _, _, hexec, hdport, heport, hrest, rfl, rfl⟩
  case acked =>
    subst hn
    rw [Port.acked_cons hr]
    exact ⟨fun hlt => if_neg (by omega), fun hle => if_pos hle⟩
  case replay =>
    subst hfs
    rw [State.portReplay_cons hr]
    refine ⟨fun h => if_pos h, fun h => ⟨s.portReplayed e p ((g :: r).drop (seq - g.seq).toNat), State.port_modPort_same .., rfl, if_neg h⟩⟩
  case retrain =>
    obtain ⟨hrest, -, hdport, heport⟩ := s.modPorts_spec (State.portPeer_ne hpeer).symm (fun x => { x with up := false, replays := 0 }) (u := s.portDown d e p) rfl
    exact ⟨s.portDown d e p, State.portRetrain_connected hpeer, hdport, heport, hrest⟩

end Sys2Proof.Machine
end

section
/-! SUPPORT. Links that retrain, go down, reinitialise and come up again (R415, R417, R419, R422, R425), and the requests that fail with them (R418). -/

namespace Sys2Proof.Machine

section Training

variable {s : State} {d l : Nat}

theorem exec_ackTimeout_idle (h : s.linkHears d l = false ∨ (s.link d l).retry = []) : exec (.ackTimeout d l) s = .next s :=
  if_neg fun ⟨hhears, hretry⟩ => h.elim (fun h => absurd hhears (by rw [h]; nofun)) hretry

theorem exec_linkRetrain_idle {cause : Nat} (h : s.linkThere d l = false ∨ cause = 0 ∨ 4 < cause ∨ s.rd (LINK_STATUS_STATE d l) = 1 ∨ s.rd (LINK_CFG_ENABLE d l) = 0) :
    exec (.linkRetrain d l cause) s = .next s := by
  refine if_neg fun ⟨hthere, hpos, hmax, hstate, henable⟩ => ?_
  rcases h with h | h | h | h | h
  · exact absurd hthere (by rw [h]; nofun)
  · omega
  · omega
  · exact hstate h
  · rw [State.flag, h] at henable
    exact nomatch henable

/-- What a write of ENABLE sets going. -/
theorem State.afterWrite_linkCfg (u s : State) (d l : Nat) (w : Word) (sig : Bool) : u.afterWrite s (.LINK_CFG d l) w sig =
    if u.linkThere d l = false then u else if u.flag (LINK_CFG_ENABLE d l) then u.retrain d l 4 else u.linkOff d l := rfl

/-- ENABLE takes the written bit at once. -/
theorem Latched.linkEnable {src : Src} {w : Word} {u : State} (h : Latched s src (.LINK_CFG d l) w u) : u.rd (LINK_CFG_ENABLE d l) = field w.toNat 13 1 :=
  h.fields (.inl rfl) ⟨13, 1, .rw, 0, .i⟩ (List.mem_cons_of_mem _ List.mem_cons_self)

theorem exec_linkEnable {src : Src} {w : Word} (h : Reached s src (RegId.LINK_CFG d l).addr) : ∃ u : State, Latched s src (.LINK_CFG d l) (w ||| 1#64 <<< 13) u ∧
    u.rd (LINK_CFG_ENABLE d l) = 1 ∧ exec (.linkEnable src d l w) s = .next ((if u.linkThere d l then u.retrain d l 4 else u).respond src (RegId.LINK_CFG d l).addr []) := by
  obtain ⟨u, hu, hexec⟩ := State.command_latched h rfl rfl (w ||| 1#64 <<< 13) (.linkEnable src d l w)
  have hone : u.rd (LINK_CFG_ENABLE d l) = 1 := hu.linkEnable.trans (field_setBit w 13 (by decide))
  refine ⟨u, hu, hone, congrArg _ (hexec.trans (congrArg (fun t => State.respond t src (RegId.LINK_CFG d l).addr []) ?_))⟩
  rw [State.afterWrite_linkCfg, State.flag, hone]
  cases u.linkThere d l <;> rfl

theorem exec_linkDisable {src : Src} {w : Word} (h : Reached s src (RegId.LINK_CFG d l).addr) : ∃ u : State, Latched s src (.LINK_CFG d l) (w &&& ~~~(1#64 <<< 13)) u ∧
    u.rd (LINK_CFG_ENABLE d l) = 0 ∧ exec (.linkDisable src d l w) s = .next ((if u.linkThere d l then u.linkOff d l else u).respond src (RegId.LINK_CFG d l).addr []) := by
  obtain ⟨u, hu, hexec⟩ := State.command_latched h rfl rfl (w &&& ~~~(1#64 <<< 13)) (.linkDisable src d l w)
  have hzero : u.rd (LINK_CFG_ENABLE d l) = 0 := hu.linkEnable.trans (field_clearBit w 13 (by decide))
  refine ⟨u, hu, hzero, congrArg _ (hexec.trans (congrArg (fun t => State.respond t src (RegId.LINK_CFG d l).addr []) ?_))⟩
  rw [State.afterWrite_linkCfg, State.flag, hzero]
  cases u.linkThere d l <;> rfl

/-- A flit that is sent, or waits, leaves the registers. -/
theorem Sent.word {t : State} (h : Sent s t) (r : RegId) : t.word r = s.word r := by
  rw [h]
  rfl

theorem State.setLine_word (s : State) {r : RegId} (h : r ≠ .TEAM_STATUS) : s.setLine.word r = s.word r := State.word_wr_ne _ _ h.symm

theorem State.setLine_spec (s : State) : s.setLine.rd TEAM_STATUS_LINE = (if s.setLine.portUp 1 ∧ s.setLine.portUp 2 then 0 else 1) ∧ s.setLine = { s with regs := s.setLine.regs } :=
  ⟨setLine_line rfl fun _ _ => State.rd_congr (s.setLine_word (by nofun)), rfl⟩

/-- A link that is turned off is down, and reinitialises. -/
theorem State.linkOff_spec (s : State) (d l : Nat) : let z := s.linkOff d l
    z.rd (LINK_STATUS_STATE d l) = 0 ∧ z.rd TEAM_STATUS_LINE = (if z.portUp 1 ∧ z.portUp 2 then 0 else 1) ∧ z = { s with regs := z.regs, links := z.links, wire := z.wire } ∧
      ∀ r, r ≠ .LINK_STATUS d l → r ≠ .TEAM_STATUS → z.word r = s.word r := by
  obtain ⟨-, -, -, hsent, -⟩ := linkReinit_spec (s.wr (LINK_STATUS_STATE d l) 0) d l
  obtain ⟨hline, hrest⟩ := ((s.wr (LINK_STATUS_STATE d l) 0).linkReinit d l).setLine_spec
  refine ⟨?_, hline, ?_, fun r hstatus hteam => ?_⟩
  · exact (State.rd_congr (State.setLine_word _ (by nofun))).trans ((State.rd_congr (hsent.word _)).trans (State.rd_wr_same _ _ _ fle))
  · unfold State.linkOff
    generalize (s.wr (LINK_STATUS_STATE d l) 0).linkReinit d l = x at *
    rw [hrest, hsent]
    rfl
  · exact (State.setLine_word _ hteam).trans ((hsent.word _).trans (State.word_wr_ne _ _ hstatus.symm))

/-- A link that reinitialises, before what it carried for other modules is answered. -/
theorem State.linkReinit_carried (s : State) (d l : Nat) : ∃ u : State, u = { s with links := u.links } ∧
    u.link d l = { s.link d l with
        txNext := 0, rxExp := 0, retry := [], replays := 0, credits := s.rd (LINK_CFG_CT d l), sent := 0, recv := 0, ret := 0, crin := 0, occ := 0, nakAge := 0, early := 0, earlyCr := 0, mine := none,
        txq := (s.link d l).txq.filter (fun t => decide (t.1 ≠ 0)), held := (s.link d l).reqs ++ (s.link d l).held, reqs := [], upSince := false, ct := s.rd (LINK_CFG_CT d l), transit := [] } ∧
    (∀ k, k ≠ linkKey d l → tabGet u.links k linkReset = tabGet s.links k linkReset) ∧
    s.linkReinit d l = (s.link d l).transit.foldl (fun z e => z.sendOn d l 4 (z.responseTo e.2 0) []) u := by
  obtain ⟨x, hrest, hreinit, -, hlink, hother⟩ := linkReinit_spec s d l
  refine ⟨x.modLink d l (fun y => { y with transit := [] }), ?_, ?_, fun k hk => (tabGet_tabSet_ne _ _ _ hk.symm).trans (hother k hk), ?_⟩
  · rw [hrest]
    rfl
  · rw [State.link_modLink_same, hlink]
  · rw [hreinit, State.resetTransit, hlink]

/-- A training that fails. -/
theorem exec_linkRetrained_idle {ok : Bool} {active : Nat} {rtt : BitVec 32} {p : CapBlock}
    (h : s.linkInfo d l = none ∨ s.dieUp d = false ∨ s.rd (LINK_STATUS_STATE d l) ≠ 1) : exec (.linkRetrained d l ok active rtt p) s = .next s := by
  show execLinkRetrained d l ok active rtt p s = _
  unfold execLinkRetrained
  cases hinfo : s.linkInfo d l with
  | none => rfl
  | some i => exact if_pos (h.resolve_left (by rw [hinfo]; nofun))

section Trained

variable {ok : Bool} {active : Nat} {rtt : BitVec 32} {p : CapBlock} {i : LinkInfo} (hinfo : s.linkInfo d l = some i) (hup : s.dieUp d = true) (hstate : s.rd (LINK_STATUS_STATE d l) = 1)
include hinfo hup hstate

theorem exec_linkRetrained_fails (h : ok = false ∨ active = 0) : exec (.linkRetrained d l ok active rtt p) s = .next (s.wr (LINK_STATUS_STATE d l) 0).setLine := by
  show execLinkRetrained d l ok active rtt p s = _
  unfold execLinkRetrained
  rw [hinfo]
  exact (if_neg (by rw [hup, hstate]; rintro (h | h); exact nomatch h; exact h rfl)).trans (if_pos h)

theorem exec_linkRetrained {v : Nat} (hok : ok = true) (hactive : 0 < active) (hversion : s.linkVersion p = some v) :
    exec (.linkRetrained d l ok active rtt p) s = .next (s.linkTrained d l i.active active rtt p v) := by
  show execLinkRetrained d l ok active rtt p s = _
  unfold execLinkRetrained
  rw [hinfo]
  refine (if_neg (by rw [hup, hstate]; rintro (h | h); exact nomatch h; exact h rfl)).trans ((if_neg ?_).trans (by rw [hversion]))
  rintro (h | h)
  · exact absurd hok (by rw [h]; nofun)
  · omega

end Trained

end Training

end Sys2Proof.Machine
end

section
/-! Links that come up with their lanes and version, lanes that move to spares, requests that fail with their link, and O48 (R415 to R419, R424, R425). -/

namespace Sys2Proof.Machine

section Agreed

variable {s b : State} {d l full n : Nat} {rtt : BitVec 32} {p : CapBlock}

/-- A link with what its training agreed on. -/
def State.linkAgreed (b : State) (d l full n : Nat) (rtt : BitVec 32) (p : CapBlock) (v : Nat) : State :=
  ((((b.modLink d l (fun x => { x with partner := some p, noSpare := false, expired := false })).wr (LINK_STATUS_STATE d l) (if n = full then 2 else 3)).wr (LINK_STATUS_ACTIVE d l) n).wr
    (LINK_STATUS_VER d l) v).wr (LINK_RTT_RTT d l) rtt.toNat

theorem State.linkAgreed_spec (b : State) (d l full n : Nat) (rtt : BitVec 32) (p : CapBlock) {v : Nat} (hv : v < 256) : let u := b.linkAgreed d l full n rtt p v
    u.link d l = { b.link d l with partner := some p, noSpare := false, expired := false } ∧ (∀ k, k ≠ linkKey d l → tabGet u.links k linkReset = tabGet b.links k linkReset) ∧
      u.rd (LINK_STATUS_STATE d l) = (if n = full then 2 else 3) ∧ u.rd (LINK_STATUS_ACTIVE d l) = n % 32 ∧ u.rd (LINK_STATUS_VER d l) = v ∧ u.rd (LINK_RTT_RTT d l) = rtt.toNat ∧
      u = { b with regs := u.regs, links := u.links } ∧ ∀ r, r ≠ .LINK_STATUS d l → r ≠ .LINK_RTT d l → u.word r = b.word r := by
  have hrtt : ∀ f : FRef, f.reg = .LINK_STATUS d l → (b.linkAgreed d l full n rtt p v).rd f = ((((b.modLink d l (fun x => { x with partner := some p, noSpare := false, expired := false })).wr
      (LINK_STATUS_STATE d l) (if n = full then 2 else 3)).wr (LINK_STATUS_ACTIVE d l) n).wr (LINK_STATUS_VER d l) v).rd f := fun f hf =>
    State.rd_congr (State.word_wr_ne _ _ (by rw [hf]; nofun))
  refine ⟨?_, fun k hk => tabGet_tabSet_ne _ _ _ hk.symm, ?_, ?_, ?_, ?_, rfl, fun r hstatus hrttr => ?_⟩
  · simp only [State.linkAgreed, State.link_wr, State.link_modLink_same]
  · rw [hrtt _ rfl, State.rd_wr_other _ _ _ _ fle fun _ => .inl fle, State.rd_wr_other _ _ _ _ fle fun _ => .inl fle, State.rd_wr_same _ _ _ fle]
    split <;> rfl
  · rw [hrtt _ rfl, State.rd_wr_other _ _ _ _ fle fun _ => .inl fle, State.rd_wr_same _ _ _ fle]
    rfl
  · rw [hrtt _ rfl, State.rd_wr_same _ _ _ fle]
    exact Nat.mod_eq_of_lt hv
  · exact (State.rd_wr_same _ _ _ fle).trans (Nat.mod_eq_of_lt rtt.isLt)
  · exact (State.word_wr_ne _ _ hrttr.symm).trans ((State.word_wr_ne _ _ hstatus.symm).trans ((State.word_wr_ne _ _ hstatus.symm).trans (State.word_wr_ne _ _ hstatus.symm)))

/-- The version that two ends have in common. -/
theorem State.linkVersion_eq (hown : s.fuses.linkMin.toNat ≤ min s.fuses.linkMax.toNat p.linkMax.toNat) (hpartner : p.linkMin.toNat ≤ min s.fuses.linkMax.toNat p.linkMax.toNat) :
    s.linkVersion p = some (min s.fuses.linkMax.toNat p.linkMax.toNat) := if_pos ⟨hown, hpartner⟩

/-- A link that comes up: another partner's link starts anew, and that of the same partner is replayed. -/
theorem State.linkTrained_eq (s : State) (d l full healthy : Nat) (rtt : BitVec 32) (p : CapBlock) (v : Nat) (hn : n = trainedLanes full (s.lanes d l) healthy (s.link d l).noSpare) {u w : State}
    (hb : b = if (s.link d l).partner.map (fun c => c.serial) = some p.serial then s else s.linkReinit d l) (hu : u = b.linkAgreed d l full n rtt p v)
    (hw : w = (if n = full then u else u.raise (mkEv 162 d 0xFF 22 l [(1, l), (1, n)])).setLine.unitMended d 22 l) : s.linkTrained d l full healthy rtt p v =
      (((w.link d l).retry.head?).elim w fun f => if (s.link d l).partner.map (fun c => c.serial) = some p.serial then w.replayFrom d l f.seq else w).linkResumes d l := by
  unfold State.linkTrained
  simp only [decide_eq_true_eq, ← hn, ← hb]
  rw [show ((((State.modLink b d l _).wr _ _).wr _ _).wr _ _).wr _ _ = u from hu.symm]
  rw [show (State.setLine (if n = full then u else u.raise (linkEv 162 d l [(1, l), (1, n)]))).unitMended d 22 l = w from hw.symm]
  cases (w.link d l).retry <;> rfl

end Agreed

section Lanes

variable {s : State} {d l lane : Nat}

theorem exec_laneSignalLoss_idle (h : s.linkHears d l = false ∨ s.lanes d l ≤ lane) : exec (.laneSignalLoss d l lane) s = .next s := if_pos h

theorem exec_laneSignalLoss (h : s.linkHears d l = true) (hlane : lane < s.lanes d l) : exec (.laneSignalLoss d l lane) s = .next (s.laneFails d l lane) :=
  if_neg (by
    rintro (h' | h')
    · exact absurd h (by rw [h']; nofun)
    · omega)

theorem State.laneFails_spared {k : Nat} (h : s.freeSpare d l false = some k) : s.laneFails d l lane = s.spareLane d l lane k := by rw [State.laneFails, h]

theorem State.laneFails_unspared (h : s.freeSpare d l false = none) : s.laneFails d l lane = (s.modLink d l (fun x => { x with noSpare := true })).retrain d l 3 := by
  rw [State.laneFails, h]

/-- The lanes over the threshold at the end of a window, one after the other. -/
theorem State.spareOver_cons {n : Nat} {rest : List (Nat × Nat)} {u : State} (hu : u = s.modLink d l (fun x => { x with laneErr := tabSet x.laneErr lane n })) :
    s.spareOver d l ((lane, n) :: rest) = if 16 * s.rd (LINK_CFG_SPARE_THR d l) < n ∧ lane < s.lanes d l ∧ s.linkUp d l = true then (u.laneFails d l lane).spareOver d l rest
      else u.spareOver d l rest := by
  subst hu
  rfl

/-- The control flit that names a lane and the SEQ at which it moves. -/
def State.laneFlit (s : State) (d l lane : Nat) : Flit :=
  (s.link d l).flit s.tag16 3 (leBytes 2 0 ++ leBytes 1 lane ++ leBytes 2 ((s.link d l).rxExp + 64).toNat)

theorem State.laneFlit_payload (s : State) (d l lane : Nat) : (s.laneFlit d l lane).payload.take 5 = leBytes 2 0 ++ leBytes 1 lane ++ leBytes 2 ((s.link d l).rxExp + 64).toNat :=
  List.take_left' (by simp only [List.length_append, length_leBytes])

/-- A lane has moved to a spare. -/
def State.laneMoved (s : State) (d l lane k : Nat) : State :=
  ((((s.modLink d l (fun x => { x with sparesUsed := x.sparesUsed ++ [(lane, k)] })).count (LINK_COUNT_SPARED d l) 1).lampCount (26 + s.lampLink d l) 1).send (.flit d l (s.laneFlit d l lane)))

theorem State.spareLane_eq (s : State) (d l lane k : Nat) : s.spareLane d l lane k = (s.laneMoved d l lane k).raise (mkEv 161 d 0xFF 22 l [(1, l), (1, lane), (1, k)]) := by
  have htag : (s.count (LINK_COUNT_SPARED d l) 1).tag16 = s.tag16 := congrArg (BitVec.ofNat 16) (State.rd_congr (State.word_count_ne _ _ (by nofun)))
  have hflit : (({ s.link d l with sparesUsed := (s.link d l).sparesUsed ++ [(lane, k)] } : Link).flit (s.count (LINK_COUNT_SPARED d l) 1).tag16 3
      (leBytes 2 0 ++ leBytes 1 lane ++ leBytes 2 ((s.link d l).rxExp + 64).toNat)) = s.laneFlit d l lane := by
    rw [htag]
    rfl
  rw [State.laneMoved, ← hflit, ← State.link_modLink_same (s := s) d l (fun x => { x with sparesUsed := x.sparesUsed ++ [(lane, k)] })]
  rfl

theorem State.laneMoved_spec (s : State) (d l lane k : Nat) : let u := s.laneMoved d l lane k
    u.link d l = { s.link d l with sparesUsed := (s.link d l).sparesUsed ++ [(lane, k)] } ∧ u.rd (LINK_COUNT_SPARED d l) = min (s.rd (LINK_COUNT_SPARED d l) + 1) 255 ∧
      tabGet u.lamp.counters (26 + s.lampLink d l) 0 = min (tabGet s.lamp.counters (26 + s.lampLink d l) 0 + 1) (2 ^ 48 - 1) ∧
      u = { s with regs := u.regs, links := u.links, lamp := u.lamp, wire := s.wire ++ [.flit d l (s.laneFlit d l lane)] } ∧ ∀ r, r ≠ .LINK_COUNT d l → u.word r = s.word r :=
  ⟨(State.link_modLink_same (s := s) d l (fun x => { x with sparesUsed := x.sparesUsed ++ [(lane, k)] })), State.rd_count_same _ _ _ fle, tabGet_tabSet_same .., rfl, fun _ hr => State.word_count_ne _ _ hr.symm⟩

end Lanes

section Down

variable {s : State} {d l : Nat}

theorem exec_linkDown_idle (h : s.linkThere d l = false ∨ s.linkUp d l = true) : exec (.linkDown d l) s = .next s := if_pos h

/-- A link that has been down for 4 ms holds no request any more. -/
def State.linkExpired (s : State) (d l : Nat) : State :=
  s.modLink d l (fun x => { x with held := [], transit := [], txq := x.txq.filter (fun t => decide (t.1 ≠ 0)), expired := true })

theorem exec_linkDown (hthere : s.linkThere d l = true) (hdown : s.linkUp d l = false) : exec (.linkDown d l) s =
    if (s.link d l).held = [] ∧ (s.link d l).transit = [] then .next (s.linkExpired d l)
    else
      let v := (s.linkExpired d l).raise (mkEv 164 d 0xFF 22 l [(1, l), (4, (s.link d l).held.length + (s.link d l).transit.length)])
      .next (State.failHeld { v with wire := v.wire ++ (s.link d l).transit.map (fun e => .noData d l e.2) } (s.link d l).held) := by
  show execLinkDown d l s = _
  unfold execLinkDown
  dsimp only
  rw [foldl_send_map (fun e : Nat × Packet => .noData d l e.2)]
  exact if_neg (by rw [hthere, hdown]; nofun)

/-- The requester of a request. -/
abbrev reqKey (r : Req) : Nat × Nat := (r.p.srcDie.toNat, r.p.req.toNat)

/-- The requesters of a list of requests, each once, after those of a list. -/
def requesters (rs : List Req) (ks : List (Nat × Nat)) : List (Nat × Nat) := rs.foldl (fun l r => if l.contains (reqKey r) then l else l ++ [reqKey r]) ks

theorem requesters_cons (r : Req) (rs : List Req) (ks : List (Nat × Nat)) : requesters (r :: rs) ks = requesters rs (if ks.contains (reqKey r) then ks else ks ++ [reqKey r]) := rfl

/-- A requester that is known already stays first, and its requests add nothing. -/
theorem requesters_known (k : Nat × Nat) (rs : List Req) : ∀ ks, requesters rs (k :: ks) = k :: requesters (rs.filter (fun x => decide (reqKey x ≠ k))) ks := by
  induction rs with
  | nil => exact fun _ => rfl
  | cons r rs ih =>
    intro ks
    rw [requesters_cons]
    by_cases hr : reqKey r = k
    · rw [List.filter_cons_of_neg (by simp [hr]), if_pos (by rw [List.contains_cons, hr, beq_self_eq_true, Bool.true_or]), ih]
    · have hcontains : (k :: ks).contains (reqKey r) = ks.contains (reqKey r) := by rw [List.contains_cons, beq_false_of_ne hr, Bool.false_or]
      rw [List.filter_cons_of_pos (by simpa using hr), requesters_cons, hcontains]
      split
      · exact ih _
      · exact ih _

/-- The requesters of a list of requests are those of its requests. -/
theorem mem_requesters {k : Nat × Nat} (rs : List Req) : ∀ ks, k ∈ requesters rs ks → k ∈ ks ∨ ∃ r ∈ rs, reqKey r = k := by
  induction rs with
  | nil => exact fun _ h => .inl h
  | cons r rs ih =>
    intro ks h
    rw [requesters_cons] at h
    rcases ih _ h with h | ⟨x, hx, hk⟩
    · split at h
      · exact .inl h
      · rcases List.mem_append.1 h with h | h
        · exact .inl h
        · exact .inr ⟨r, List.mem_cons_self, (List.mem_singleton.1 h).symm⟩
    · exact .inr ⟨x, List.mem_cons_of_mem _ hx, hk⟩

/-- Requests that fail, those of each requester together. -/
theorem State.failHeld_cons (s : State) (r : Req) (t : List Req) : s.failHeld (r :: t) =
    (s.failChan (reqKey r).1 (reqKey r).2 (r :: t.filter (fun x => decide (reqKey x = reqKey r)))).failHeld (t.filter (fun x => decide (reqKey x ≠ reqKey r))) := by
  have hkeys : requesters (r :: t) [] = reqKey r :: requesters (t.filter (fun x => decide (reqKey x ≠ reqKey r))) [] := requesters_known (reqKey r) t []
  have hfirst : (r :: t).filter (fun x => decide (reqKey x = reqKey r)) = r :: t.filter (fun x => decide (reqKey x = reqKey r)) := List.filter_cons_of_pos (by simp)
  show (requesters (r :: t) []).foldl (fun s k => s.failChan k.1 k.2 ((r :: t).filter (fun x => decide (reqKey x = k)))) s =
    (requesters (t.filter (fun x => decide (reqKey x ≠ reqKey r))) []).foldl (fun s k => s.failChan k.1 k.2 ((t.filter (fun x => decide (reqKey x ≠ reqKey r))).filter (fun x => decide (reqKey x = k)))) _
  rw [hkeys, List.foldl_cons, hfirst]
  refine List.foldl_ext _ _ _ fun u k hk => ?_
  obtain ⟨x, hx, hxk⟩ := (mem_requesters _ _ hk).resolve_left (by simp)
  have hne : k ≠ reqKey r := hxk ▸ of_decide_eq_true (List.mem_filter.1 hx).2
  have hother : (r :: t).filter (fun x => decide (reqKey x = k)) = (t.filter (fun x => decide (reqKey x ≠ reqKey r))).filter (fun x => decide (reqKey x = k)) := by
    rw [List.filter_cons_of_neg (by simpa using hne.symm), List.filter_filter]
    refine List.filter_congr fun y _ => ?_
    by_cases hy : reqKey y = k
    · simp [hy, hne]
    · simp [hy]
  rw [hother]

end Down

/-- Settles O48. -/
theorem linksRetrainReinitialiseAndSpareLanes : Obligations.LinksRetrainReinitialiseAndSpareLanes := by
  unfold Obligations.LinksRetrainReinitialiseAndSpareLanes
  refine fun s d l => ⟨exec_ackTimeout_idle, fun hhears hretry => if_pos ⟨hhears, hretry⟩, fun cause => ⟨exec_linkRetrain_idle, fun hthere hpos hmax hstate henable => ?retrain, retrain_spec s d l cause⟩,
    fun src w h => ⟨exec_linkEnable h, exec_linkDisable h⟩, ⟨s.wr (LINK_STATUS_STATE d l) 0, s.linkOff d l, rfl, State.rd_wr_same _ _ _ fle, rfl, fun r hr => State.word_wr_ne _ _ hr.symm, rfl, s.linkOff_spec d l⟩,
    ?reinit, fun ok active rtt p => ⟨exec_linkRetrained_idle, fun i v hinfo hup hstate hv => ⟨fun h => ⟨_, exec_linkRetrained_fails hinfo hup hstate h, ?failed⟩,
      fun hok hactive hown hpartner n hn => ?trained⟩⟩, trainedLanes_spec, fun rs ts hrs hts => ⟨exec_linkDown_idle, fun hthere hdown => ?down⟩, ⟨rfl, fun r t key hkey => hkey ▸ s.failHeld_cons r t⟩,
    fun c q x rs backs q0 q1 q2 i u hq0 hbacks hq1 hq2 hi hu => ?fails, fun far n r q => ⟨⟨rfl, fun y k hy hk => ?unread⟩, rfl, fun y k hy hk => ?unwritten⟩,
    fun lane => ⟨exec_laneSignalLoss_idle, exec_laneSignalLoss, fun k => State.laneFails_spared, State.laneFails_unspared⟩,
    fun errs => ⟨fun h => if_neg (by rw [h]; nofun), fun h => if_pos h⟩, ⟨rfl, fun lane n rest u hu => ?beyond⟩, fun lane k => ?spare⟩
  case retrain => exact if_pos ⟨hthere, hpos, hmax, hstate, decide_eq_true henable⟩
  case reinit =>
    obtain ⟨u, hrest, hlink, hother, hreinit⟩ := s.linkReinit_carried d l
    obtain ⟨-, -, -, hsent, -⟩ := linkReinit_spec s d l
    exact ⟨u, _, rfl, hrest, hsent, hlink, hother, hreinit⟩
  case failed =>
    refine ⟨(State.rd_congr (State.setLine_word _ (by nofun))).trans (State.rd_wr_same _ _ _ fle), rfl, fun r hstatus hteam => ?_⟩
    exact (State.setLine_word _ hteam).trans (State.word_wr_ne _ _ hstatus.symm)
  case trained =>
    subst hv
    have hbword : ∀ r, (if (s.link d l).partner.map (fun c => c.serial) = some p.serial then s else s.linkReinit d l).word r = s.word r := by
      obtain ⟨-, -, -, hsent, -⟩ := linkReinit_spec s d l
      split
      · exact fun _ => rfl
      · exact hsent.word
    have hlt : min s.fuses.linkMax.toNat p.linkMax.toNat < 256 := Nat.lt_of_le_of_lt (Nat.min_le_left ..) s.fuses.linkMax.isLt
    obtain ⟨hlink, hlinks, hst, hact, hver, hrtt, hrest, hword⟩ := State.linkAgreed_spec
      (if (s.link d l).partner.map (fun c => c.serial) = some p.serial then s else s.linkReinit d l) d l i.active n rtt p hlt
    have hexec := (exec_linkRetrained hinfo hup hstate hok hactive (State.linkVersion_eq hown hpartner)).trans
      (congrArg _ (State.linkTrained_eq s d l i.active active rtt p (min s.fuses.linkMax.toNat p.linkMax.toNat) hn rfl rfl rfl))
    refine ⟨_, _, _, rfl, hlink, hlinks, hst, hact, hver, hrtt, hrest, fun r hs hr => (hword r hs hr).trans (hbword r), rfl, fun h => hexec.trans (congrArg _ ?_), fun hsame f r hretry => hexec.trans (congrArg _ ?_)⟩
    · rcases h with h | h
      · have hother : ∀ (o : Option Flit) (w : State), (o.elim w fun f => if (s.link d l).partner.map (fun c => c.serial) = some p.serial then w.replayFrom d l f.seq else w) = w :=
          fun o w => by
            cases o with
            | none => rfl
            | some f => exact if_neg h
        rw [hother]
      · rw [h]
        rfl
    · rw [hretry]
      exact congrArg (fun x : State => x.linkResumes d l) (if_pos hsame)
  case down =>
    subst hrs hts
    have hexec := exec_linkDown hthere hdown
    refine ⟨s.linkExpired d l, _, State.link_modLink_same .., rfl, fun k hk => tabGet_tabSet_ne _ _ _ hk.symm, rfl, fun hheld htransit => ?_, fun h => ?_⟩
    · rw [hexec, if_pos ⟨hheld, htransit⟩]
    · rw [hexec, if_neg (fun ⟨hheld, htransit⟩ => h.elim (· hheld) (· htransit))]
  case fails =>
    have hst : (u.chan c q).st = (s.chan c q).st := by rw [hu, State.chan_modChan_same]
    have hfail : s.failChan c q (x :: rs) = (q2[i]?).elim u fun _ => if (u.chan c q).st = .halted then u
        else u.deadAccess c q i (if x.type = 2 then 1 else if backs.contains x then 2 else 0) x.p.addr.toNat false false := by
      cases hrun : q2[i]?
      all_goals
        subst hu hi hq2 hq1 hbacks hq0
        unfold State.failChan
        dsimp only
        rw [hrun]
        rfl
    rw [hfail, hst]
    refine ⟨fun h => ?_, fun hlt hlive => ?_⟩
    · rcases h with h | h
      · rw [List.getElem?_eq_none h]
        rfl
      · cases q2[i]? with
        | none => rfl
        | some r => exact if_pos h
    · rw [List.getElem?_eq_getElem hlt]
      exact if_neg hlive
  case unread =>
    subst hy
    have hfar : (far r && r.started && r.status.isNone && !r.readBack) = true ↔ far r = true ∧ r.started = true ∧ r.status = none ∧ r.readBack = false := by
      simp only [Bool.and_eq_true, Option.isNone_iff_eq_none, Bool.not_eq_true', and_assoc]
    rw [hk, unread]
    simp only [hfar]
  case unwritten =>
    subst hy hk
    rfl
  case beyond =>
    rw [State.spareOver_cons hu]
    refine ⟨fun h => if_neg fun ⟨hover, hlane, hup⟩ => ?_, fun hover hlane hup => if_pos ⟨hover, hlane, hup⟩⟩
    rcases h with h | h | h
    · omega
    · omega
    · exact absurd hup (by rw [h]; nofun)
  case spare =>
    obtain ⟨hlink, hspared, hlamp, hrest, hword⟩ := s.laneMoved_spec d l lane k
    exact ⟨_, s.laneFlit d l lane, s.spareLane_eq d l lane k, hlink, hspared, hlamp, rfl, flitGood_seal _, s.laneFlit_payload d l lane, hrest, hword⟩

end Sys2Proof.Machine
end

section
/-! Team time: time flits, the port that it comes in on, and corrections (R51, R422, R435 to R437). -/

namespace Sys2Proof.Machine

section Flits

variable {s : State} {d l : Nat} {x : TimeIn} {i : LinkInfo}

theorem exec_timeFlit_unlinked (h : s.linkInfo d l = none) : exec (.timeFlit d l x) s = .next s := by
  show execTimeFlit d l x s = _
  unfold execTimeFlit
  rw [h]

/-- A time flit with a good CRC measures its link and tells the hops that are down. -/
def State.timeHeard (s : State) (d l : Nat) (x : TimeIn) : State :=
  let u := s.wr (LINK_RTT_RTT d l) x.rtt.toNat
  { u with team := { u.team with down := x.down } }

theorem State.timeHeard_spec (s : State) (d l : Nat) (x : TimeIn) : let u := s.timeHeard d l x
    u.rd (LINK_RTT_RTT d l) = x.rtt.toNat ∧ (∀ r, r ≠ .LINK_RTT d l → u.word r = s.word r) ∧ u = { s with regs := u.regs, team := { s.team with down := x.down } } :=
  ⟨(State.rd_wr_same _ _ _ fle).trans (Nat.mod_eq_of_lt x.rtt.isLt), fun _ hr => State.word_wr_ne _ _ hr.symm, rfl⟩

theorem exec_timeFlit (h : s.linkInfo d l = some i) : exec (.timeFlit d l x) s =
    if (s.rxPlain d l x.flit).2 = false then .next (s.rxPlain d l x.flit).1
    else if ((s.rxPlain d l x.flit).1.timeHeard d l x).timePort = some i.port then .next ((((s.rxPlain d l x.flit).1.timeHeard d l x).hearFleet x.fleet).followTime d l x.time)
    else .next ((s.rxPlain d l x.flit).1.timeHeard d l x) := by
  show execTimeFlit d l x s = _
  unfold execTimeFlit
  rw [h]
  rfl

/-- A time flit leaves on the first link of each ring and fleet port that is UP. -/
theorem exec_timeFlitSend (s : State) : exec .timeFlitSend s =
    .next ((([1, 2, 4, 5, 6, 7].filterMap (fun p => s.linkOfPort p 0)).filter (fun k => s.linkHears k.1 k.2)).foldl (fun z k => z.sendTime k.1 k.2) s) := by
  have hsends := foldl_send_time (fun p => s.linkOfPort p 0) [1, 2, 4, 5, 6, 7] s s (fun _ => rfl) (fun _ _ => rfl)
  exact congrArg (fun z => (.next z : Ans)) hsends

end Flits

section Fleet

variable {s : State}

theorem State.hearFleet_apart {fleet : Option (BitVec 64 × Nat)} (h : fleet = none ∨ s.rd TEAM_STATUS_STATE ≠ 3 ∨ 2 ≤ s.rd JOB_STATUS_STATE ∨ s.frame.fleetJoined = true) :
    s.hearFleet fleet = s := by
  refine if_neg fun ⟨hsome, hcoach, hjob, hjoined⟩ => ?_
  rcases h with h | h | h | h
  · rw [h] at hsome
    exact nomatch hsome
  · exact h hcoach
  · omega
  · exact absurd hjoined (by rw [h]; nofun)

/-- A correction of more than 4 ns asks for a slip. -/
theorem State.followTime_eq {d l half : Nat} {corr : Int} {time : BitVec 64} (hhalf : half = s.rd (LINK_RTT_RTT d l) / 2)
    (hcorr : corr = signed 64 (time - s.frame.teamTime).toNat * 1000 + half) : s.followTime d l time =
      if 4000 < corr.natAbs then State.raise { s with frame := { s.frame with teamTime := time + BitVec.ofNat 64 (half / 1000), slipReq := true } }
        (mkEv 167 s.lead 0xFF 17 0 [(4, (corr % 2 ^ 32).toNat)])
      else { s with frame := { s.frame with teamTime := time + BitVec.ofNat 64 (half / 1000) } } := by
  subst hcorr hhalf
  rfl

end Fleet

section Ways

variable {s : State} {x size e : Nat}

/-- The ring way East to a slot is whole. -/
theorem State.wayWhole_east (hsize : size = max 1 (s.rd TEAM_CFG_SIZE)) (he : e = (x + size - s.mySlot % size) % size) :
    s.wayWhole 1 x = true ↔ s.portUp 1 = true ∧ ∀ k, k < e → (s.mySlot + k) % size ∉ s.team.down := by
  rw [State.wayWhole, ← hsize, ← he]
  simp only [if_true, Bool.and_eq_true, List.all_eq_true, List.mem_range, Bool.not_eq_true', List.contains_eq_mem, decide_eq_false_iff_not]

/-- The ring way West to a slot is whole. -/
theorem State.wayWhole_west (hsize : size = max 1 (s.rd TEAM_CFG_SIZE)) (he : e = (x + size - s.mySlot % size) % size) :
    s.wayWhole 2 x = true ↔ s.portUp 2 = true ∧ ∀ k, k < size - e → (s.mySlot + size - 1 - k) % size ∉ s.team.down := by
  rw [State.wayWhole, ← hsize, ← he]
  simp only [if_neg (show ¬2 = 1 by decide), Bool.and_eq_true, List.all_eq_true, List.mem_range, Bool.not_eq_true', List.contains_eq_mem, decide_eq_false_iff_not]

/-- The port toward a slot: on the shorter way, or the other way round while that is not whole. -/
def State.towardSlot (s : State) (x : Nat) : Nat :=
  let size := max 1 (s.rd TEAM_CFG_SIZE)
  let p := if (x + size - s.mySlot % size) % size ≤ size / 2 then 1 else 2
  if s.wayWhole p x then p else 3 - p

theorem State.towardSlot_east (hsize : size = max 1 (s.rd TEAM_CFG_SIZE)) (he : e = (x + size - s.mySlot % size) % size) (h : 2 * e ≤ size) :
    s.towardSlot x = if s.wayWhole 1 x then 1 else 2 := by
  have hp : e ≤ size / 2 := by omega
  unfold State.towardSlot
  rw [← hsize]
  dsimp only
  rw [← he, if_pos hp]

theorem State.towardSlot_west (hsize : size = max 1 (s.rd TEAM_CFG_SIZE)) (he : e = (x + size - s.mySlot % size) % size) (h : size < 2 * e) :
    s.towardSlot x = if s.wayWhole 2 x then 2 else 1 := by
  have hp : ¬e ≤ size / 2 := by omega
  unfold State.towardSlot
  rw [← hsize]
  dsimp only
  rw [← he, if_neg hp]

/-- Where time comes in. -/
theorem State.timePort_eq (s : State) : s.timePort =
    if s.rd TEAM_STATUS_STATE = 3 then
      (if s.myTeam = 0 ∨ s.flag (FLEET_ROUTE_VALID 0) = false then none
       else if s.rd (FLEET_ROUTE_SLOT 0) = s.mySlot then some (4 + s.rd (FLEET_ROUTE_PORT 0)) else some (s.towardSlot (s.rd (FLEET_ROUTE_SLOT 0))))
    else if s.rd TEAM_STATUS_STATE = 2 then some (s.towardSlot (s.rd TEAM_STATUS_COACH))
    else none := rfl

/-- The slot that time comes from over the ring. -/
theorem State.timePort_toward (h : (s.rd TEAM_STATUS_STATE = 2 ∧ x = s.rd TEAM_STATUS_COACH) ∨
    (s.rd TEAM_STATUS_STATE = 3 ∧ s.myTeam ≠ 0 ∧ s.rd (FLEET_ROUTE_VALID 0) = 1 ∧ x = s.rd (FLEET_ROUTE_SLOT 0) ∧ x ≠ s.mySlot)) : s.timePort = some (s.towardSlot x) := by
  rw [State.timePort_eq]
  rcases h with ⟨hstate, hx⟩ | ⟨hstate, hteam, hvalid, hx, hslot⟩
  · rw [if_neg (by omega), if_pos hstate, hx]
  · rw [if_pos hstate, if_neg (by rw [flag_one hvalid]; rintro (h | h); exact hteam h; exact nomatch h), ← hx, if_neg hslot]

theorem State.timePort_fleet (hstate : s.rd TEAM_STATUS_STATE = 3) (hteam : s.myTeam ≠ 0) (hvalid : s.rd (FLEET_ROUTE_VALID 0) = 1) (hslot : s.rd (FLEET_ROUTE_SLOT 0) = s.mySlot) :
    s.timePort = some (4 + s.rd (FLEET_ROUTE_PORT 0)) := by
  rw [State.timePort_eq, if_pos hstate, if_neg (by rw [flag_one hvalid]; rintro (h | h); exact hteam h; exact nomatch h), if_pos hslot]

theorem State.timePort_none (h : s.rd TEAM_STATUS_STATE < 2 ∨ (s.rd TEAM_STATUS_STATE = 3 ∧ (s.myTeam = 0 ∨ s.rd (FLEET_ROUTE_VALID 0) = 0))) : s.timePort = none := by
  rw [State.timePort_eq]
  rcases h with h | ⟨hstate, h⟩
  · rw [if_neg (by omega), if_neg (by omega)]
  · rw [if_pos hstate, if_pos (h.imp_right fun h => flag_not (by omega))]

end Ways

/-- Settles O49. -/
theorem timeFollowsTheNeighbourTowardTheCoachman : Obligations.TimeFollowsTheNeighbourTowardTheCoachman := by
  unfold Obligations.TimeFollowsTheNeighbourTowardTheCoachman
  refine ⟨fun s d l f time rtt down fleet r hr => ⟨fun h => hr.trans ((rxPlain_spec s d l f).1 h), exec_timeFlit_unlinked, fun i hi => ?flit⟩,
    fun s fleet => ⟨State.hearFleet_apart, fun x hx hstate hjob hjoined => ?fleet⟩, fun s d l time half corr hhalf hcorr => ⟨_, rfl, fun h => ?near, fun h => ?far⟩,
    fun s x size e h hsize he => ⟨fun hle => ?east, fun hlt => ?west, State.wayWhole_east hsize he, State.wayWhole_west hsize he⟩,
    fun s => ⟨State.timePort_fleet, State.timePort_none⟩, exec_timeFlitSend, fun s d l => ⟨_, rfl, sendTime_spec s d l⟩, fun rtt => ?hold⟩
  case flit =>
    subst hr
    obtain ⟨hrtt, hword, hrest⟩ := (s.rxPlain d l f).1.timeHeard_spec d l ⟨f, time, rtt, down, fleet⟩
    have hexec := exec_timeFlit (x := ⟨f, time, rtt, down, fleet⟩) hi
    refine ⟨fun h => hexec.trans (if_pos h), fun h => ⟨_, hrtt, hword, hrest, fun hport => ?_, fun hport => ?_⟩⟩
    · exact hexec.trans ((if_neg (by rw [h]; nofun)).trans (if_neg hport))
    · exact hexec.trans ((if_neg (by rw [h]; nofun)).trans (if_pos hport))
  case fleet =>
    subst hx
    exact if_pos ⟨rfl, hstate, hjob, hjoined⟩
  case near => rw [State.followTime_eq hhalf hcorr, if_neg (by omega)]
  case far => rw [State.followTime_eq hhalf hcorr, if_pos h]
  case east =>
    rw [State.timePort_toward h, State.towardSlot_east hsize he hle]
  case west =>
    rw [State.timePort_toward h, State.towardSlot_west hsize he hlt]
  case hold =>
    unfold holdUnits ceilDiv
    omega

end Sys2Proof.Machine
end

section
/-! SUPPORT. Joining a team, the ring bypass, and the election of the Coachman (R430 to R433, R441 to R445, R471). -/

namespace Sys2Proof.Machine

section Joining

variable {s : State} {src : Src} {w : Word}

/-- A write of ARM starts the join. -/
theorem exec_teamJoin (h : Reached s src RegId.TEAM_CFG.addr) : ∃ u : State, Latched s src .TEAM_CFG (w ||| 1#64 <<< 16) u ∧
    (s.busyRaised .TEAM_CFG (w ||| 1#64 <<< 16) = s → u.rd TEAM_CFG_ARM = 1) ∧
      exec (.teamJoin src w) s = .next ((if u.flag TEAM_CFG_ARM then u.joinTeam else u).respond src RegId.TEAM_CFG.addr []) := by
  obtain ⟨u, hu, hexec⟩ := State.command_latched h rfl rfl (w ||| 1#64 <<< 16) (.teamJoin src w)
  exact ⟨u, hu, fun hb => (hu.reads hb ⟨16, 1, .rw, 0, .i⟩ rfl).trans (field_setBit w 16 (by decide)), congrArg _ hexec⟩

/-- The state in which a module starts to join. -/
def State.joining (u : State) : State := { u.wr TEAM_STATUS_STATE 1 with team := teamReset }

theorem State.joining_spec (u : State) : u.joining.rd TEAM_STATUS_STATE = 1 ∧ u.joining = { u with regs := u.joining.regs, team := teamReset } ∧
    ∀ r, r ≠ .TEAM_STATUS → u.joining.word r = u.word r := ⟨State.rd_wr_same _ _ _ fle, rfl, fun _ hr => State.word_wr_ne _ _ hr.symm⟩

/-- A module that may join floods its capability block. -/
theorem State.joinTeam_joins (harm : s.rd TEAM_CFG_ARM = 1) (hservice : s.rd MODULE_STATUS_SERVICE = 0) (hstate : s.rd TEAM_STATUS_STATE = 0)
    (hstage : 8 ≤ s.rd MODULE_STATUS_STAGE) (hrom : s.rd MODULE_STATUS_STAGE ≠ 15) : s.joinTeam = s.joining.floodOut 8 (capBytes s.ownCap) := by
  have hcap : s.joining.ownCap = s.ownCap := ownCap_congr rfl rfl (s.joining_spec.2.2 _ (by nofun))
  rw [← hcap]
  refine if_neg ?_
  rintro (h | h | h | h | h)
  · rw [flag_one harm] at h
    exact nomatch h
  · rw [State.flag, hservice] at h
    exact nomatch h
  · exact h hstate
  · omega
  · exact hrom h

theorem State.joinTeam_stays (h : s.rd TEAM_CFG_ARM = 0 ∨ s.rd MODULE_STATUS_SERVICE = 1 ∨ s.rd TEAM_STATUS_STATE ≠ 0 ∨ s.rd MODULE_STATUS_STAGE < 8 ∨ s.rd MODULE_STATUS_STAGE = 15) :
    s.joinTeam = s := if_pos (h.imp (fun h => flag_not (by omega)) (Or.imp_left flag_one))

/-- A write of CLOSE closes the bypass. -/
theorem exec_bypassClose (h : Reached s src RegId.BYPASS.addr) : ∃ u : State, Latched s src .BYPASS (w ||| 1#64 <<< 1) u ∧ u.rd BYPASS_CLOSE = 1 ∧
    exec (.bypassClose src w) s = .next ((u.closeBypass 4).respond src RegId.BYPASS.addr []) := by
  obtain ⟨u, hu, hexec⟩ := State.command_latched h rfl rfl (w ||| 1#64 <<< 1) (.bypassClose src w)
  have hclose : u.rd BYPASS_CLOSE = 1 := (hu.reads (State.busyRaised_unlatched rfl) ⟨1, 1, .rw, 0, .i⟩ rfl).trans (field_setBit w 1 (by decide))
  refine ⟨u, hu, hclose, congrArg _ (hexec.trans (congrArg (fun t => State.respond t src RegId.BYPASS.addr []) ?_))⟩
  exact if_pos (flag_one hclose)

theorem State.closeBypass_closed {cause : Nat} (h : s.rd BYPASS_CLOSED = 1) : s.closeBypass cause = s := if_pos (flag_one h)

/-- The registers of a bypass that closes. -/
def State.bypassed (s : State) (cause : Nat) : State := ((s.wr BYPASS_CLOSED 1).wr BYPASS_CAUSE cause).count BYPASS_CLOSINGS 1

theorem State.bypassed_spec (s : State) {cause : Nat} (hcause : cause < 8) : (s.bypassed cause).rd BYPASS_CLOSED = 1 ∧ (s.bypassed cause).rd BYPASS_CAUSE = cause ∧
    (s.bypassed cause).rd BYPASS_CLOSINGS = min (s.rd BYPASS_CLOSINGS + 1) 65535 ∧ s.bypassed cause = { s with regs := (s.bypassed cause).regs } ∧
    ∀ r, r ≠ .BYPASS → (s.bypassed cause).word r = s.word r := by
  refine ⟨?_, ?_, ?_, rfl, fun r hr => ?_⟩
  · exact (State.rd_wr_other _ _ _ _ fle fun _ => .inl fle).trans ((State.rd_wr_other _ _ _ _ fle fun _ => .inl fle).trans (State.rd_wr_same _ _ _ fle))
  · exact (State.rd_wr_other _ _ _ _ fle fun _ => .inl fle).trans ((State.rd_wr_same _ _ _ fle).trans (Nat.mod_eq_of_lt hcause))
  · refine (State.rd_count_same _ _ _ fle).trans ?_
    rw [State.rd_wr_other _ _ _ _ fle fun _ => .inr fle, State.rd_wr_other _ _ _ _ fle fun _ => .inr fle]
    rfl
  · exact (State.word_count_ne _ _ hr.symm).trans ((State.word_wr_ne _ _ hr.symm).trans (State.word_wr_ne _ _ hr.symm))

/-- A bypass that closes disconnects the ring links. -/
theorem State.closeBypass_closes {cause : Nat} (hcause : cause < 8) (h : s.rd BYPASS_CLOSED = 0) : let t := s.closeBypass cause
    t.rd BYPASS_CLOSED = 1 ∧ t.rd BYPASS_CAUSE = cause ∧ t.rd BYPASS_CLOSINGS = min (s.rd BYPASS_CLOSINGS + 1) 65535 ∧
      (∀ k ∈ s.ringLinks, s.linkUp k.1 k.2 = true → t.rd (LINK_STATUS_STATE k.1 k.2) = 1) ∧ t = { s with regs := t.regs, links := t.links, wire := t.wire } := by
  have hopen : s.flag BYPASS_CLOSED = false := flag_not (by omega)
  have hclose : s.closeBypass cause = (s.bypassed cause).ringRetrains := by
    rw [State.closeBypass, State.bypassClose, hopen]
    rfl
  obtain ⟨hclosed, hcaused, hclosings, -, hword⟩ := s.bypassed_spec hcause
  obtain ⟨htrain, hstate, hkeeps⟩ := foldl_startTraining_spec (s.bypassed cause).ringLinks (s.bypassed cause)
  have hbypass : ∀ f : FRef, f.reg = .BYPASS → (s.bypassed cause).ringRetrains.rd f = (s.bypassed cause).rd f := fun f hf =>
    State.rd_congr (hkeeps _ (by rw [hf]; nofun) (by rw [hf]; nofun))
  have hup : ∀ d l, (s.bypassed cause).linkUp d l = s.linkUp d l := fun d l => by
    have hrd : (s.bypassed cause).rd (LINK_STATUS_STATE d l) = s.rd (LINK_STATUS_STATE d l) := State.rd_congr (hword _ (by nofun))
    rw [State.linkUp, State.linkUp, hrd]
  rw [hclose]
  refine ⟨(hbypass _ rfl).trans hclosed, (hbypass _ rfl).trans hcaused, (hbypass _ rfl).trans hclosings, fun k hk hlink => ?_, ?_⟩
  · exact hstate k (.inr ⟨hk, (hup k.1 k.2).trans hlink⟩)
  · unfold TrainRegs at htrain
    exact htrain

end Joining

section Heard

variable {s : State} {d l : Nat} {f : Flit}

theorem exec_capabilityBlock_unlinked (h : s.linkThere d l = false) : exec (.capabilityBlock d l f) s = .next s := if_pos h

/-- A capability block that arrives at a link that does not train. -/
theorem exec_capabilityBlock (h : s.linkThere d l = true) (hstate : s.rd (LINK_STATUS_STATE d l) ≠ 1) : exec (.capabilityBlock d l f) s =
    let c := capOfBytes f.payload
    let r := s.rxPlain d l f
    if r.2 = true ∧ r.1.rd TEAM_STATUS_STATE = 1 ∧ ¬c.host = true ∧ r.1.team.heard.all (fun h => decide (h.serial ≠ c.serial)) = true ∧ c.serial ≠ r.1.fuses.serial then
      .next (State.flood { r.1 with team := { r.1.team with heard := r.1.team.heard ++ [c] } } d l 8 f.payload)
    else .next r.1 :=
  (if_neg (by rw [h]; nofun)).trans (if_neg hstate)

/-- The Coachman is elected. -/
theorem exec_coachmanElection (x : Electors) (s : State) : exec (.coachmanElection x) s =
    let y : State := { s with team := { s.team with cores := x.cores.foldl (fun t y => tabSet t y.1 y.2) s.team.cores } }
    if y.rd TEAM_STATUS_STATE = 1 then .next (y.elect x.rtts) else if y.rd TEAM_STATUS_STATE = 2 ∧ 2 ≤ y.team.misses then .next (y.reelect x.rtts) else .next y := rfl

end Heard

section Judging

/-- An insertion by SERIAL. -/
def insertSerial (l : List CapBlock) (c : CapBlock) : List CapBlock :=
  l.filter (fun x => decide (x.serial.toNat < c.serial.toNat)) ++ c :: l.filter (fun x => decide (c.serial.toNat ≤ x.serial.toNat))

theorem mem_insertSerial {l : List CapBlock} {c x : CapBlock} : x ∈ insertSerial l c ↔ x = c ∨ x ∈ l := by
  simp only [insertSerial, List.mem_append, List.mem_filter, List.mem_cons, decide_eq_true_eq]
  constructor
  · rintro (⟨hx, -⟩ | rfl | ⟨hx, -⟩)
    · exact .inr hx
    · exact .inl rfl
    · exact .inr hx
  · rintro (rfl | hx)
    · exact .inr (.inl rfl)
    · rcases Nat.lt_or_ge x.serial.toNat c.serial.toNat with h | h
      · exact .inl ⟨hx, h⟩
      · exact .inr (.inr ⟨hx, h⟩)

theorem pairwise_insertSerial {l : List CapBlock} (c : CapBlock) (h : l.Pairwise (fun a b => a.serial.toNat ≤ b.serial.toNat)) :
    (insertSerial l c).Pairwise (fun a b => a.serial.toNat ≤ b.serial.toNat) := by
  rw [insertSerial, List.pairwise_append, List.pairwise_cons]
  refine ⟨h.filter _, ⟨fun x hx => of_decide_eq_true (List.mem_filter.1 hx).2, h.filter _⟩, fun a ha b hb => ?_⟩
  have hac := of_decide_eq_true (List.mem_filter.1 ha).2
  rcases List.mem_cons.1 hb with rfl | hb
  · omega
  · have hcb := of_decide_eq_true (List.mem_filter.1 hb).2
    omega

theorem foldl_insertSerial (cs : List CapBlock) : ∀ l : List CapBlock, l.Pairwise (fun a b => a.serial.toNat ≤ b.serial.toNat) →
    (∀ x, x ∈ cs.foldl insertSerial l ↔ x ∈ l ∨ x ∈ cs) ∧ (cs.foldl insertSerial l).Pairwise (fun a b => a.serial.toNat ≤ b.serial.toNat) := by
  induction cs with
  | nil => exact fun l h => ⟨fun x => by simp, h⟩
  | cons c cs ih =>
    intro l h
    obtain ⟨hmem, hsorted⟩ := ih _ (pairwise_insertSerial c h)
    refine ⟨fun x => ?_, hsorted⟩
    rw [List.foldl_cons, hmem, mem_insertSerial, List.mem_cons]
    tauto

/-- The Coachman judges itself first, and the others by SERIAL. -/
theorem judgeOrder_spec (coach : CapBlock) (cs : List CapBlock) : ∃ l, judgeOrder coach cs = coach :: l ∧ (∀ c, c ∈ l ↔ c ∈ cs ∧ c.serial ≠ coach.serial) ∧
    l.Pairwise (fun a b => a.serial.toNat ≤ b.serial.toNat) := by
  obtain ⟨hmem, hsorted⟩ := foldl_insertSerial (cs.filter (fun c => decide (c.serial ≠ coach.serial))) [] List.Pairwise.nil
  refine ⟨_, rfl, fun c => (hmem c).trans ?_, hsorted⟩
  simp only [List.not_mem_nil, false_or, List.mem_filter, decide_eq_true_eq]

variable {v : Nat} {coach c : CapBlock} {before : List CapBlock}

theorem refusalOf_version (h : v < c.teamMin.toNat) : refusalOf v coach before c = some 1 := if_pos h

section Version

variable (hv : c.teamMin.toNat ≤ v)
include hv

theorem refusalOf_dies (h : c.dies ≠ coach.dies) : refusalOf v coach before c = some 2 := (if_neg (by omega)).trans (if_pos h)

variable (hdies : c.dies = coach.dies)
include hdies

theorem refusalOf_owner (hown : c.owner ≠ noOwner) (hcoach : coach.owner ≠ noOwner) (h : c.owner ≠ coach.owner) : refusalOf v coach before c = some 3 :=
  (if_neg (by omega)).trans ((if_neg fun h => h hdies).trans (if_pos ⟨hown, hcoach, h⟩))

theorem refusalOf_slot (howner : c.owner = noOwner ∨ coach.owner = noOwner ∨ c.owner = coach.owner) :
    refusalOf v coach before c = if before.any (fun b => decide (b.slot = c.slot)) = true then some 4 else none :=
  (if_neg (by omega)).trans ((if_neg fun h => h hdies).trans (if_neg fun ⟨h1, h2, h3⟩ => by tauto))

end Version

end Judging

section Ends

theorem State.joinEnds_spec (s : State) : s.joinEnds.rd TEAM_STATUS_STATE = 0 ∧ s.joinEnds.rd TEAM_CFG_ARM = 0 ∧ s.joinEnds = { s with regs := s.joinEnds.regs } ∧
    ∀ r, r ≠ .TEAM_STATUS → r ≠ .TEAM_CFG → s.joinEnds.word r = s.word r :=
  ⟨(State.rd_congr (State.word_wr_ne _ _ (by nofun))).trans (State.rd_wr_same _ _ _ fle), State.rd_wr_same _ _ _ fle, rfl,
    fun _ hstatus hcfg => (State.word_wr_ne _ _ hcfg.symm).trans (State.word_wr_ne _ _ hstatus.symm)⟩

variable {s : State} {coach : CapBlock} {rtt : Nat} {formed : State → State}

/-- A team with too long a round trip does not form. -/
theorem State.setHold_fails (h : 8 < holdUnits rtt) : s.setHold coach rtt formed =
    if coach.serial = s.fuses.serial then s.joinEnds.raise (mkEv 13 s.joinEnds.lead 0xFF 24 0 [(4, rtt)]) else s.joinEnds := if_pos h

theorem State.setHold_forms (h : holdUnits rtt ≤ 8) : s.setHold coach rtt formed = formed (s.wr FRAME_CFG_HOLD (holdUnits rtt)) := by
  rw [State.setHold, if_neg (by omega), max_one_holdUnits]

end Ends

end Sys2Proof.Machine
end

section
/-! The election of a Coachman, its re-election, and O50 (R430, R433, R471). -/

namespace Sys2Proof.Machine

section Elect

variable {s : State} {coach : CapBlock} {rtts : List (Nat × Nat)}

/-- The version of a team: the smallest TEAM_MAX. -/
theorem teamVersion_spec {cs : List CapBlock} (h : cs ≠ []) : let v := (cs.map (fun c => c.teamMax.toNat)).foldl min 255
    (∀ c ∈ cs, v ≤ c.teamMax.toNat) ∧ ∃ c ∈ cs, v = c.teamMax.toNat := by
  obtain ⟨⟨hmax, hall⟩, hsome⟩ := foldl_min_le (cs.map (fun c => c.teamMax.toNat)) 255
  have hle : ∀ c ∈ cs, (cs.map (fun c => c.teamMax.toNat)).foldl min 255 ≤ c.teamMax.toNat := fun c hc => hall _ (List.mem_map_of_mem hc)
  refine ⟨hle, ?_⟩
  rcases hsome with hv | hv
  · obtain ⟨c, hc⟩ := List.exists_mem_of_ne_nil _ h
    have hmin := hle c hc
    have hlt := c.teamMax.isLt
    exact ⟨c, hc, by omega⟩
  · obtain ⟨c, hc, hv⟩ := List.mem_map.1 hv
    exact ⟨c, hc, hv.symm⟩

/-- The Coachman tells why it refuses a module. -/
def State.refusals (s : State) (js : List (CapBlock × Option Nat)) : State :=
  (js.filterMap (fun j => j.2.map (fun x => (j.1, x)))).foldl (fun w j => w.raise (mkEv 165 w.lead 0xFF 24 0 [(1, j.1.slot.toNat), (1, j.2)])) s

/-- What an election does where one is elected. -/
theorem State.elect_eq (h : electedOf (s.ownCap :: s.team.heard) = some coach) {v : Nat} {js : List (CapBlock × Option Nat)} {u : State}
    (hv : v = ((s.ownCap :: s.team.heard).map (fun c => c.teamMax.toNat)).foldl min 255) (hjs : js = judged v coach [] (judgeOrder coach (s.ownCap :: s.team.heard)))
    (hu : u = if coach.serial = s.fuses.serial then s.refusals js else s) : s.elect rtts =
      if js.any (fun j => decide (j.1.serial = s.fuses.serial) && j.2.isSome) = true then u.joinEnds.closeBypass 5
      else u.setHold coach (longest rtts (slotsOf_ ((js.filter (fun j => j.2.isNone)).map (fun j => j.1)))) (fun s => s.teamForms coach v ((js.filter (fun j => j.2.isNone)).map (fun j => j.1))) := by
  have hfuses : u.fuses = s.fuses := by
    rw [hu]
    split
    · exact foldl_raise_fuses _ _
    · rfl
  unfold State.elect
  dsimp only
  rw [h]
  dsimp only
  rw [← hv, ← hjs, foldl_raise_refused _ (fun _ _ => rfl) (fun _ _ _ => rfl)]
  simp only [decide_eq_true_eq]
  rw [← State.refusals, ← hu, hfuses]

end Elect

section Reelect

variable {s : State} {coach : CapBlock} {rtts : List (Nat × Nat)} {former : Nat} {heard : List Nat}

/-- A group of no more than half of the positions waits. -/
theorem State.reelect_split (hformer : former = firstIdx s.team.positions (fun k => decide (k = s.rd TEAM_STATUS_COACH)) 0)
    (hheard : heard = (s.heardPositions rtts).filter (fun p => decide (p ≠ former))) (h : 2 * heard.length ≤ s.team.positions.length) :
    s.reelect rtts = (s.raise (mkEv 169 s.lead 0xFF 17 0 [(2, (heard.map (fun p => 2 ^ p)).sum)])).pauseJob 169 := by
  subst hheard hformer
  exact if_pos h

/-- The positions that a re-election takes for lost. -/
def State.lostSeats (s : State) (rtts : List (Nat × Nat)) (heard : List Nat) : List Nat :=
  (List.range s.team.seats.length).filter (fun p => !heard.contains p && (decide (p < s.team.positions.length) ||
    (decide (s.team.seats.getD p 16 ≠ s.mySlot) && rtts.all (fun r => decide (r.1 ≠ s.team.seats.getD p 16)))))

theorem State.lostSeats_eq {lost : List Nat} (hmem : ∀ p, p ∈ lost ↔ p < s.team.seats.length ∧ p ∉ heard ∧
    (p < s.team.positions.length ∨ (s.team.seats.getD p 16 ≠ s.mySlot ∧ ∀ r ∈ rtts, r.1 ≠ s.team.seats.getD p 16))) (hsorted : lost.Pairwise (· < ·)) :
    s.lostSeats rtts heard = lost := by
  refine List.Pairwise.eq_of_mem_iff (List.pairwise_lt_range.filter _) hsorted fun p => ?_
  rw [hmem, State.lostSeats, List.mem_filter, List.mem_range]
  simp only [Bool.and_eq_true, Bool.not_eq_true', List.contains_eq_mem, decide_eq_false_iff_not, Bool.or_eq_true, decide_eq_true_eq, List.all_eq_true]

/-- A member has another Coachman. -/
def State.coachTaken (s : State) (coach : CapBlock) : State :=
  let u := (s.wr TEAM_STATUS_STATE (if decide (coach.serial = s.fuses.serial) then 3 else 2)).wr TEAM_STATUS_COACH coach.slot.toNat
  { u with team := { u.team with misses := 0, reports := [], verdict := none } }

theorem State.coachTaken_spec (s : State) (coach : CapBlock) {hold : Nat} (hhold : hold ≤ 8) : let u := (s.wr FRAME_CFG_HOLD hold).coachTaken coach
    u.rd TEAM_STATUS_STATE = (if coach.serial = s.fuses.serial then 3 else 2) ∧ u.rd TEAM_STATUS_COACH = coach.slot.toNat % 16 ∧ u.rd FRAME_CFG_HOLD = hold ∧ u.frameSeq = s.frameSeq ∧
      u = { s with regs := u.regs, team := { s.team with misses := 0, reports := [], verdict := none } } ∧ ∀ r, r ≠ .TEAM_STATUS → r ≠ .FRAME_CFG → u.word r = s.word r := by
  have hteam : ∀ r, r ≠ .TEAM_STATUS → ((s.wr FRAME_CFG_HOLD hold).coachTaken coach).word r = (s.wr FRAME_CFG_HOLD hold).word r := fun r hr =>
    (State.word_wr_ne _ _ hr.symm).trans (State.word_wr_ne _ _ hr.symm)
  refine ⟨?_, State.rd_wr_same _ _ _ fle, ?_, ?_, rfl, fun r hr hcfg => (hteam r hr).trans (State.word_wr_ne _ _ hcfg.symm)⟩
  · refine (State.rd_wr_other _ _ _ _ fle fun _ => .inl fle).trans ((State.rd_wr_same _ _ _ fle).trans ?_)
    show (if decide (coach.serial = s.fuses.serial) = true then 3 else 2) % 2 ^ TEAM_STATUS_STATE.width = _
    by_cases hmine : coach.serial = s.fuses.serial
    · rw [if_pos (decide_eq_true hmine), if_pos hmine]
      rfl
    · rw [if_neg (fun h => hmine (of_decide_eq_true h)), if_neg hmine]
      rfl
  · refine (State.rd_congr (hteam _ (by nofun))).trans ((State.rd_wr_same _ _ _ fle).trans ?_)
    exact Nat.mod_eq_of_lt (Nat.lt_of_le_of_lt hhold (by decide))
  · exact State.rd_congr ((hteam _ (by nofun)).trans (State.word_wr_ne _ _ (by nofun)))

/-- Members that hear more than half of the positions elect another Coachman. -/
theorem State.reelect_eq (hformer : former = firstIdx s.team.positions (fun k => decide (k = s.rd TEAM_STATUS_COACH)) 0)
    (hheard : heard = (s.heardPositions rtts).filter (fun p => decide (p ≠ former))) (h : s.team.positions.length < 2 * heard.length) {slots : List Nat} {rtt : Nat} {cs : List CapBlock}
    (hslots : slots = heard.filterMap (fun p => s.team.positions[p]?)) (hrtt : rtt = longest rtts slots) (hcs : cs = (s.ownCap :: s.team.heard).filter (fun c => slots.contains c.slot.toNat)) :
    s.reelect rtts = (electedOf cs).elim s fun coach => s.setHold coach rtt fun t => (((t.coachTaken coach).raise (mkEv 166 (t.coachTaken coach).lead 0xFF 17 0
      [(1, coach.slot.toNat), (1, (t.coachTaken coach).rd TEAM_STATUS_TVER)])).pauseJob 178).loseAll ((s.lostSeats rtts heard).map (fun p => (p, 0))) := by
  subst hcs hrtt hslots hheard hformer
  refine (if_neg (by omega)).trans ?_
  cases electedOf ((s.ownCap :: s.team.heard).filter _) <;> rfl

end Reelect

/-- Settles O50. -/
theorem teamsFormAndElectTheirCoachman : Obligations.TeamsFormAndElectTheirCoachman := by
  unfold Obligations.TeamsFormAndElectTheirCoachman
  refine ⟨fun s src w => ⟨fun h => ?join, exec_bypassClose, fun cause hcause => ⟨State.closeBypass_closed, State.closeBypass_closes hcause⟩,
    fun d l f c r hc hr => ⟨exec_capabilityBlock_unlinked, fun hthere hstate => ?heard⟩, fun rtts cores y hy => ?elects, fun rtts cs hcs => ⟨fun hnone => ?alone, fun coach js hcoach => ?elected⟩,
    s.joinEnds_spec, teamForms_spec s, fun rtts former heard hformer hheard => ⟨State.reelect_split hformer hheard, fun hmost slots rtt cs hslots hrtt hcs => ?reelected⟩⟩,
    electedOf_spec, judgeOrder_spec, fun s p ps => ⟨rfl, rfl⟩, fun v coach c before r => ⟨rfl, rfl, refusalOf_version, fun hv => ⟨refusalOf_dies hv, fun hdies => ⟨refusalOf_owner hv hdies, fun howner => ?refused⟩⟩⟩⟩
  case join =>
    obtain ⟨u, hu, harm, hexec⟩ := exec_teamJoin (w := w) h
    refine ⟨u, hu, harm, fun hone hservice hstate hstage hrom => ?_, fun hno => ?_⟩
    · obtain ⟨hjoin, hrest, hword⟩ := u.joining_spec
      refine ⟨u.joining, _, hjoin, hrest, hword, rfl, State.floodOut_sent .., ?_⟩
      rw [hexec, if_pos (flag_one hone), State.joinTeam_joins hone hservice hstate hstage hrom]
    · rw [hexec, State.joinTeam_stays hno, ite_self]
  case heard =>
    subst hc hr
    rw [exec_capabilityBlock hthere hstate]
    refine ⟨fun h => if_neg ?_, fun hrx hjoin hhost hnew hown => ⟨_, _, rfl, rfl, State.flood_sent .., if_pos ⟨hrx, hjoin, ?_, ?_, hown⟩⟩⟩
    · rintro ⟨hrx, hjoin, hhost, hnew, hown⟩
      rcases h with h | h | h | ⟨x, hx, hsame⟩ | h
      · exact absurd hrx (by rw [h]; nofun)
      · exact h hjoin
      · exact hhost h
      · exact of_decide_eq_true (List.all_eq_true.1 hnew x hx) hsame
      · exact hown h
    · rw [hhost]
      nofun
    · exact List.all_eq_true.2 fun x hx => decide_eq_true (hnew x hx)
  case elects =>
    subst hy
    have hexec := exec_coachmanElection ⟨rtts, cores⟩ s
    refine ⟨fun h => hexec.trans (if_pos h), fun h hm => hexec.trans ((if_neg fun hone => ?_).trans (if_pos ⟨h, hm⟩)), fun hone h => hexec.trans ((if_neg hone).trans (if_neg ?_))⟩
    · exact absurd (hone.symm.trans h) (by decide)
    · exact fun ⟨htwo, hm⟩ => h.elim (· htwo) fun hlt => Nat.not_le.2 hlt hm
  case alone =>
    subst hcs
    unfold State.elect
    dsimp only
    rw [hnone]
  case elected =>
    subst hcs
    obtain ⟨hall, hsome⟩ := teamVersion_spec (List.cons_ne_nil s.ownCap s.team.heard)
    refine ⟨((s.ownCap :: s.team.heard).map (fun c => c.teamMax.toNat)).foldl min 255, if coach.serial = s.fuses.serial then s.refusals js else s, fun hjs => ?_⟩
    have helect := State.elect_eq (rtts := rtts) hcoach rfl hjs rfl
    refine ⟨hall, hsome, fun hother => if_neg hother, fun hmine => if_pos hmine, fun ⟨j, hj, hown, hrefused⟩ => ?_, fun hadmitted ok rtt hok hrtt => ?_⟩
    · rw [helect, if_pos (List.any_eq_true.2 ⟨j, hj, by rw [decide_eq_true hown, Option.isSome_iff_ne_none.2 hrefused]; rfl⟩)]
    · have hall : ¬js.any (fun j => decide (j.1.serial = s.fuses.serial) && j.2.isSome) = true := fun hany => by
        obtain ⟨j, hj, hboth⟩ := List.any_eq_true.1 hany
        obtain ⟨hown, hrefused⟩ := Bool.and_eq_true_iff.1 hboth
        rw [hadmitted j hj (of_decide_eq_true hown)] at hrefused
        exact nomatch hrefused
      rw [helect, if_neg hall, ← hok, ← hrtt]
      exact ⟨State.setHold_fails, State.setHold_forms⟩
  case reelected =>
    have hre := State.reelect_eq hformer hheard hmost hslots hrtt hcs
    refine ⟨fun hnone => ?_, fun coach hcoach hlong => ?_, fun coach lost hcoach hhold hmem hsorted => ⟨(s.wr FRAME_CFG_HOLD (holdUnits rtt)).coachTaken coach, ?_, s.coachTaken_spec coach hhold⟩⟩
    · rw [hre, hnone]
      rfl
    · rw [hre, hcoach, Option.elim_some]
      exact State.setHold_fails hlong
    · rw [hre, hcoach, Option.elim_some, State.lostSeats_eq hmem hsorted]
      exact State.setHold_forms hhold
  case refused =>
    rw [refusalOf_slot hv hdies howner]
    refine ⟨fun ⟨b, hb, hslot⟩ => if_pos (List.any_eq_true.2 ⟨b, hb, decide_eq_true hslot⟩), fun h => if_neg fun hany => ?_⟩
    obtain ⟨b, hb, hslot⟩ := List.any_eq_true.1 hany
    exact h b hb (of_decide_eq_true hslot)

end Sys2Proof.Machine
end

section
/-! SUPPORT. What a sample acts on (R487, R489), the sample block in the FIFO (R502), a read of the FIFO (R503) and the host event ring (R505). -/

namespace Sys2Proof.Machine

/-- R487: the rules that tripped wake the module where one of them wakes and none of them switches it off. -/
theorem State.actAll_wakes_iff (s : State) (trips rels : List Nat) : (s.actAll trips rels).2 = true ↔
    (∃ r ∈ trips, s.ruleActs r 0 = true) ∧ ∀ r ∈ trips, s.ruleActs r 3 = false := by
  rw [actAll_wake, Bool.and_eq_true, decide_eq_true_eq, decide_eq_true_eq, ne_eq, List.filter_eq_nil_iff, List.filter_eq_nil_iff]
  simp

/-- R489: the cap of the module is the smallest of those of the tripped rules that throttle, and 16 where there is none. -/
theorem State.moduleCap_least {s : State} {rs : List Nat} (h : rs = (List.range 128).filter (fun r => s.flag (LAMP_RULE_CTL_TRIPPED r) && s.ruleActs r 1)) :
    s.moduleCap ≤ 16 ∧ (∀ r ∈ rs, s.moduleCap ≤ s.rd (LAMP_RULE_CTL_CAP r)) ∧
      (s.moduleCap = 16 ∨ ∃ r ∈ rs, s.moduleCap = s.rd (LAMP_RULE_CTL_CAP r)) := by
  subst h
  exact foldl_min_of_le _ _ 16

/-- R489: a rule that throttles writes the cap of the module and raises event 193. -/
theorem State.throttle_caps {s : State} {r : Nat} (h : s.ruleActs r 1 = true) :
    ∃ (u : State) (e : Ev), s.throttle r = u.lampRaise e ∧ e.num = 193 ∧ u.rd LAMP_PWR_CAP = s.moduleCap % 32 ∧
      u = { s with regs := u.regs } ∧ ∀ q, q ≠ .LAMP_PWR → u.word q = s.word q :=
  ⟨s.wr LAMP_PWR_CAP s.moduleCap, _, if_neg (by simp [h]), rfl, State.rd_wr_same s LAMP_PWR_CAP _ fle, rfl,
    fun _ hq => State.word_wr_ne (f := LAMP_PWR_CAP) _ _ (Ne.symm hq)⟩

/-- R502: the sample block has 136 bytes. -/
theorem State.length_sampleBlock (s : State) : s.sampleBlock.length = 136 := by
  simp [State.sampleBlock, List.length_flatMap, length_leBytes]

/-- R502: with no telemetry, or no auxiliary power, no sample block is made. -/
theorem exec_lampSampleBlock_idle {s : State} (h : s.rd LAMP_PWR_TELEM = 0 ∨ s.lamp.auxIn = false) : exec .lampSampleBlock s = .next s :=
  if_pos h

/-- R502: a sample block joins the FIFO of the lead die in five words. -/
theorem exec_lampSampleBlock_made {s : State} (htelem : s.rd LAMP_PWR_TELEM ≠ 0) (haux : s.lamp.auxIn = true) : exec .lampSampleBlock s =
    .next ((fifoWords 2 0xFF 25 true s.sampleBlock 5).foldl (fun t w => t.fifoPush s.lead w) s) := by
  refine (if_neg (by simp [htelem, haux])).trans (congrArg (fun t => (.next t : Ans)) ?_)
  generalize fifoWords 2 0xFF 25 true s.sampleBlock 5 = ws
  have hlead : ∀ t : State, t.lead = s.lead → ws.foldl (fun t w => t.fifoPush t.lead w) t = ws.foldl (fun t w => t.fifoPush s.lead w) t := by
    induction ws with
    | nil => exact fun _ _ => rfl
    | cons w ws ih =>
      intro t ht
      rw [List.foldl_cons, List.foldl_cons, ht]
      exact ih _ ht
  exact hlead s rfl

/-- R503: a FIFO that is empty, or whose die is not up, gives no word. -/
theorem exec_eventFifoRead_idle {s : State} {d : Nat} (h : (s.die d).fifo = [] ∨ s.dieUp d = false) : exec (.eventFifoRead d) s = .next s := by
  change execEventFifoRead d s = _
  unfold execEventFifoRead
  cases hfifo : (s.die d).fifo with
  | nil => rfl
  | cons w r => exact if_pos (h.resolve_left (by simp [hfifo]))

/-- The die after a read of its FIFO that took `w` and left `r`. -/
def Die.fifoRead (x : Die) (w : FifoWord) (r : List FifoWord) : Die :=
  { x with fifo := r ++ x.fifoWait.take 1, fifoWait := x.fifoWait.drop 1,
           forward := if field w.tag.toNat 8 8 = 1 then x.forward ++ [w] else x.forward }

/-- R503: a read of a FIFO takes its oldest word. -/
theorem exec_eventFifoRead_takes {s : State} {d : Nat} {w : FifoWord} {r : List FifoWord} (hfifo : (s.die d).fifo = w :: r) (hup : s.dieUp d = true) :
    exec (.eventFifoRead d) s = .next ((s.modDie d (fun x => x.fifoRead w r)).send (.fifoWord d w)) := by
  change execEventFifoRead d s = _
  unfold execEventFifoRead
  rw [hfifo]
  exact if_neg (by simp [hup])

/-- R505: a record for which the ring has room, with none held before it, is put there. -/
theorem exec_eventRecordForward_puts {s : State} {d : Nat} {w : FifoWord} {r : List FifoWord} (hforward : (s.die d).forward = w :: r) (hup : s.dieUp d = true)
    (hlead : s.dieUp s.lead = true) (hroute : s.routeOk d s.lead = true) (hnone : s.ringRelease.ringHold = []) (htakes : s.ringRelease.ringTakes = true) :
    exec (.eventRecordForward d) s = .next ((s.ringRelease.ringPut w).modDie d (fun x => { x with forward := r })) := by
  have hopen : ¬ (s.dieUp d = false ∨ s.dieUp s.lead = false ∨ s.routeOk d s.lead = false) := by simp [hup, hlead, hroute]
  change execEventRecordForward d s = _
  unfold execEventRecordForward
  rw [hforward]
  dsimp only
  rw [if_neg hopen, if_pos ⟨hnone, htakes⟩]

/-- R505: a put writes the record at TAIL and advances TAIL by one. -/
theorem State.ringPut_writes {s : State} {a : Nat} (w : FifoWord) (ha : a = s.rd EVRING_BASE_BASE + 32 * (s.rd EVRING_PTR_TAIL % 2 ^ s.rd EVRING_CTL_LOG2))
    (hok : s.accessOk a 32 = true) : s.ringPut w = (s.setBytes a w.data).wr EVRING_PTR_TAIL (s.rd EVRING_PTR_TAIL + 1) := by
  rw [State.ringPut, ← ha, if_pos hok, State.rd_setBytes]

/-- Settles O52: each order of a sample, a save, a sample block and the FIFO has its equation; the cap is a least element, the block has five words. -/
theorem samplesActAndRecordsReachTheRing : Obligations.SamplesActAndRecordsReachTheRing := by
  unfold Obligations.SamplesActAndRecordsReachTheRing
  refine fun s => ⟨fun xs => ⟨exec_lampSample_of_unpowered xs, fun haux _ _ _ => exec_lampSample_of_powered haux⟩, rfl, s.actAll_wakes_iff, rfl,
    fun rs => State.moduleCap_least, fun r => ⟨fun h => if_pos h, State.throttle_caps⟩, fun wake st => powerRequest_spec s wake st,
    fun secs => ⟨fun h => if_pos h, framSave_spec s secs⟩, exec_lampSampleBlock_idle, ?block, fun d => ⟨exec_eventFifoRead_idle, ?read⟩,
    fun d => ⟨exec_eventRecordForward_of_stuck, ?put⟩, fun w a ha => ⟨s.ringTakes_iff, State.ringPut_writes w ha⟩⟩
  case block =>
    rintro _ bs rfl hbs htelem haux hroom hwait
    have hlength : bs.length = 136 := by rw [hbs]; exact s.length_sampleBlock
    have hwords := fifoWords_five bs hlength
    obtain ⟨hdie, hframe⟩ := foldl_fifoPush_spec s.lead (fifoWords 2 0xFF 25 true bs 5) s (by rw [hwords, List.length_map, List.length_range]; exact hroom) hwait
    have hmade := exec_lampSampleBlock_made htelem haux
    rw [show s.sampleBlock = bs from hbs.symm] at hmade
    refine ⟨_, hmade, ?_, hframe⟩
    rw [← hwords]
    exact hdie
  case read =>
    intro w r hfifo hup
    have hdie : ((s.modDie d (fun x => x.fifoRead w r)).send (.fifoWord d w)).die d = (s.die d).fifoRead w r :=
      s.die_modDie_same d (fun x => x.fifoRead w r)
    refine ⟨_, exec_eventFifoRead_takes hfifo hup, rfl, ?_, ?_, fun h => ?_, fun h => ?_⟩
    · rw [hdie, Die.fifoRead]
    · rw [hdie, Die.fifoRead]
    · rw [hdie, Die.fifoRead, if_pos h]
    · rw [hdie, Die.fifoRead, if_neg h]
  case put =>
    rintro w r _ hforward hup hlead hroute rfl hnone htakes
    exact exec_eventRecordForward_puts hforward hup hlead hroute hnone htakes

end Sys2Proof.Machine
end

section
/-! SUPPORT. Supplies, resets and transitions of the power state (R490, R491, R522 to R542): each order by its cases, and what the reset proper leaves to the boot
sequence. -/

namespace Sys2Proof.Machine

/-- R522: a power-up whose main stage can come up clears the module and boots. -/
theorem State.powerUp_boots {s w : State} {last cause : Nat} {env : BootEnv} (hw : w = { s.wr MODULE_RESET_BUSY 0 with lamp := { s.lamp with resetOrder := none } })
    (h : w.mainCan env = true) : s.powerUp last cause env = w.abandonUpdate.coldWipe.mainUp.bootSequence last cause env := by
  subst hw
  exact if_pos h

/-- R522, R524: a power-up whose main stage cannot come up waits in stage 2, or in stage 1 where the Lamp itself failed. -/
theorem State.powerUp_waits {s w : State} (last cause : Nat) {env : BootEnv} (hw : w = { s.wr MODULE_RESET_BUSY 0 with lamp := { s.lamp with resetOrder := none } })
    (h : w.mainCan env = false) : s.powerUp last cause env = w.wr MODULE_STATUS_STAGE (if env.lampOk then 2 else 1) := by
  subst hw
  exact if_neg (Bool.eq_false_iff.1 h)

/-- R493: with the main stage up the power state is On, and its starts are counted. -/
theorem State.mainUp_is_on (s : State) : s.mainUp.rd LAMP_PWR_STATE = 0 ∧ s.mainUp.rd LAMP_PWR_REQ = 0 ∧ s.mainUp.rd LAMP_PWR_BUSY = 0 ∧ s.mainUp.lamp.mainOn = true ∧
    tabGet s.mainUp.lamp.counters 4 0 = min (tabGet s.lamp.counters 4 0 + 1) (2 ^ 48 - 1) := by
  have hread : ∀ f, s.mainUp.rd f = (((s.wr LAMP_PWR_STATE 0).wr LAMP_PWR_REQ 0).wr LAMP_PWR_BUSY 0).rd f := fun _ => rfl
  refine ⟨?state, ?req, ?busy, rfl, tabGet_tabSet_same ..⟩
  case state => rw [hread, State.rd_wr_other _ _ _ _ fle fun _ => .inl fle, State.rd_wr_other _ _ _ _ fle fun _ => .inl fle, State.rd_wr_same _ _ _ fle, Nat.zero_mod]
  case req => rw [hread, State.rd_wr_other _ _ _ _ fle fun _ => .inl fle, State.rd_wr_same _ _ _ fle, Nat.zero_mod]
  case busy => rw [hread, State.rd_wr_same _ _ _ fle, Nat.zero_mod]

/-- R542: with the auxiliary supply gone the module is Off, its bypass open. -/
theorem exec_auxPowerLoss_off (s : State) : ∃ t : State, exec .auxPowerLoss s = .next t ∧ t.lamp = { s.mainOff.lamp with auxIn := false } ∧ t.rd BYPASS_CLOSED = 0 ∧
    ∀ q, q ≠ .BYPASS → t.word q = s.mainOff.word q :=
  ⟨_, rfl, rfl, State.rd_wr_same s.mainOff BYPASS_CLOSED 0 fle, fun _ hq => State.word_wr_ne (f := BYPASS_CLOSED) s.mainOff 0 (Ne.symm hq)⟩

/-- R541: a low main supply with the main stage off is noted. -/
theorem exec_mainPowerLow_of_off {s : State} (h : s.lamp.mainOn = false) : exec .mainPowerLow s = .next { s with lamp := { s.lamp with mainIn := false } } :=
  if_pos h

/-- R541: a low main supply closes the bypass and switches the main stage off. -/
theorem exec_mainPowerLow_of_on {s : State} (h : s.lamp.mainOn = true) :
    exec .mainPowerLow s = .next { (s.closeBypass 1).mainOff with lamp := { (s.closeBypass 1).mainOff.lamp with mainIn := false } } :=
  if_neg (by rw [h]; decide)

/-- R524: the main stage is tried again while the power-up waits for it. -/
theorem exec_mainStageRetry_tries {s : State} (env : BootEnv) (haux : s.lamp.auxIn = true) (hoff : s.lamp.mainOn = false) (hlow : 1 ≤ s.rd MODULE_STATUS_STAGE)
    (hhigh : s.rd MODULE_STATUS_STAGE ≤ 2) : exec (.mainStageRetry env) s = .next (s.powerUp (s.rd MODULE_STATUS_LAST) (s.rd MODULE_STATUS_CAUSE) env) := by
  refine if_neg ?_
  rintro (h | h | h | h)
  · exact nomatch haux.symm.trans h
  · exact nomatch hoff.symm.trans h
  · omega
  · omega

/-- R531: a cold reset needs auxiliary power alone. -/
theorem exec_coldReset_runs {s : State} (src : Src) (env : BootEnv) (h : s.lamp.auxIn = true) : exec (.coldReset src env) s = .next (s.runReset 1 (resetCause src) env) :=
  if_neg (by rw [h]; decide)

/-- R532: a warm reset is not taken without auxiliary power, or within another reset. -/
theorem exec_warmReset_idle {s : State} (src : Src) (env : BootEnv) (h : s.lamp.auxIn = false ∨ s.rd MODULE_RESET_BUSY = 1) : exec (.warmReset src env) s = .next s :=
  if_pos (h.imp_right flag_one)

/-- R532: a warm reset that is taken runs. -/
theorem exec_warmReset_runs {s : State} (src : Src) (env : BootEnv) (haux : s.lamp.auxIn = true) (hidle : s.rd MODULE_RESET_BUSY = 0) :
    exec (.warmReset src env) s = .next (s.runReset 2 (resetCause src) env) := by
  refine if_neg ?_
  rw [haux, flag_not (by rw [hidle]; decide)]
  decide

/-- The module whose reset clears it: no longer busy, On, with no order, transition or request of the power state left. -/
def State.resetTaken (b : State) : State :=
  { ((b.wr MODULE_RESET_BUSY 0).wr LAMP_PWR_STATE 0).wr LAMP_PWR_BUSY 0 with lamp := { b.lamp with resetOrder := none, target := none, request := none } }

/-- What `resetTaken` writes, and that it writes nothing else. -/
theorem State.resetTaken_spec (b : State) : b.resetTaken.rd MODULE_RESET_BUSY = 0 ∧ b.resetTaken.rd LAMP_PWR_STATE = 0 ∧ b.resetTaken.rd LAMP_PWR_BUSY = 0 ∧
    b.resetTaken = { b with regs := b.resetTaken.regs, lamp := { b.lamp with resetOrder := none, target := none, request := none } } ∧
    ∀ r, r ≠ .MODULE_RESET → r ≠ .LAMP_PWR → b.resetTaken.word r = b.word r := by
  have hread : ∀ f, b.resetTaken.rd f = (((b.wr MODULE_RESET_BUSY 0).wr LAMP_PWR_STATE 0).wr LAMP_PWR_BUSY 0).rd f := fun _ => rfl
  refine ⟨?reset, ?state, ?busy, rfl, fun r hreset hpwr => ?_⟩
  case reset =>
    rw [hread, State.rd_wr_ne _ _ (by nofun), State.rd_wr_ne _ _ (by nofun), State.rd_wr_same _ _ _ fle, Nat.zero_mod]
  case state => rw [hread, State.rd_wr_other _ _ _ _ fle fun _ => .inl fle, State.rd_wr_same _ _ _ fle, Nat.zero_mod]
  case busy => rw [hread, State.rd_wr_same _ _ _ fle, Nat.zero_mod]
  change (((b.wr MODULE_RESET_BUSY 0).wr LAMP_PWR_STATE 0).wr LAMP_PWR_BUSY 0).word r = b.word r
  rw [State.word_wr_ne _ _ (Ne.symm hpwr), State.word_wr_ne _ _ (Ne.symm hpwr), State.word_wr_ne _ _ (Ne.symm hreset)]

section Reset

variable {s b : State} (cause : Nat) (env : BootEnv) (hb : b = s.closeBypass 2)
include hb

/-- R531: a cold reset with the main stage off is a power-up. -/
theorem State.runReset_cold_of_off (hoff : b.lamp.mainOn = false) : s.runReset 1 cause env = b.powerUp 1 cause env := by
  subst hb
  exact (if_pos hoff).trans (if_pos rfl)

/-- R531: a warm reset with the main stage off leaves it off. -/
theorem State.runReset_warm_of_off (hoff : b.lamp.mainOn = false) :
    s.runReset 2 cause env = { b.wr MODULE_RESET_BUSY 0 with lamp := { b.lamp with resetOrder := none } } := by
  subst hb
  exact (if_pos hoff).trans (if_neg (by decide))

/-- R531: a cold reset clears the module and boots. -/
theorem State.runReset_cold_of_on (hon : b.lamp.mainOn = true) : s.runReset 1 cause env = b.resetTaken.abandonUpdate.coldWipe.bootSequence 1 cause env := by
  subst hb
  exact (if_neg (by rw [hon]; decide)).trans (if_pos rfl)

/-- R531: a warm reset keeps what it keeps and boots. -/
theorem State.runReset_warm_of_on (hon : b.lamp.mainOn = true) : s.runReset 2 cause env = b.resetTaken.abandonUpdate.warmWipe.bootSequence 2 cause env := by
  subst hb
  exact (if_neg (by rw [hon]; decide)).trans (if_neg (by decide))

end Reset

/-- R531: a transition that a reset awaited ends in the reset. -/
theorem exec_powerTransitionDone_of_order {s : State} {k c : Nat} (env : BootEnv) (h : s.lamp.resetOrder = some (k, c)) :
    exec (.powerTransitionDone env) s = .next (s.runReset k c env) := by
  change execPowerTransitionDone env s = _
  unfold execPowerTransitionDone
  rw [h]

/-- Where no transition runs none ends. -/
theorem exec_powerTransitionDone_idle {s : State} (env : BootEnv) (horder : s.lamp.resetOrder = none) (htarget : s.lamp.target = none) :
    exec (.powerTransitionDone env) s = .next s := by
  change execPowerTransitionDone env s = _
  unfold execPowerTransitionDone
  rw [horder, htarget]

/-- The state in which a transition between power states other than Off ends. -/
def State.retention (u : State) (old q : Nat) : State := if q = 2 then u.enterRetain else if old = 2 then u.exitRetain else u

/-- R491: the end of a transition, by its target and the power state it began in. -/
theorem exec_powerTransitionDone_eq {s u : State} {q c old : Nat} (env : BootEnv) (horder : s.lamp.resetOrder = none) (htarget : s.lamp.target = some (q, c))
    (hold : old = s.rd LAMP_PWR_STATE) (hu : u = { s.wr LAMP_PWR_BUSY 0 with lamp := { s.lamp with target := none } }) :
    exec (.powerTransitionDone env) s =
      if q = 3 then .next (u.powerEvent old 3 c).mainOff
      else if old = 3 then
        .next (if ((u.wr LAMP_PWR_REQ 0).powerUp 1 4 env).lamp.mainOn then ((u.wr LAMP_PWR_REQ 0).powerUp 1 4 env).powerEvent 3 0 c else (u.wr LAMP_PWR_REQ 0).powerUp 1 4 env)
      else .next (((u.retention old q).wr LAMP_PWR_STATE q).powerEvent old q c) := by
  subst hold hu
  change execPowerTransitionDone env s = _
  unfold execPowerTransitionDone
  rw [horder, htarget]
  rfl

/-- R525: the channel that fails its training is marked, with event 202. -/
theorem State.trainMemory_one {s : State} {env : BootEnv} {d ch step : Nat} (h : env.chFail = [(d, ch, step)]) (hup : s.dieUp d = true) (hch : ch < 16) : s.trainMemory env =
    (s.wr (LPDDR_CH_STATUS_FAILED d ch) 1).raise (mkEv 202 d 0xFF 20 ch [(1, ch), (1, step), (1, 2), (1, 0), (4, env.bootMs)]) := by
  unfold State.trainMemory
  rw [h]
  exact if_pos ⟨hup, hch⟩

/-- R511: ROM recovery drops a paused job, is stage 15 and trains link 0 of die 0. -/
theorem State.romRecovery_trains (s : State) : ∃ u : State, u.rd MODULE_STATUS_STAGE = 15 ∧ u.rd (LINK_CFG_ENABLE 0 0) = 1 ∧ s.romRecovery = u.startTraining 0 0 ∧
    (s.rd JOB_STATUS_STATE ≠ 3 → u = { s with regs := u.regs }) := by
  refine ⟨(s.dropJob.wr MODULE_STATUS_STAGE 15).wr (LINK_CFG_ENABLE 0 0) 1, ?_, State.rd_wr_same _ _ _ fle, rfl, fun h => ?_⟩
  · rw [State.rd_wr_ne _ _ (by nofun), State.rd_wr_same _ _ _ fle]
    rfl
  · rw [show s.dropJob = s from if_pos h]
    rfl

/-- R510: an untried trial is started and marked as tried; a tried one is given up; without a trial the preferred slot is started. -/
theorem State.chooseSlot_cases {s : State} {d : BootDesc} (hd : d = s.bootDesc.2) :
    (d.trial ≤ 1 → d.tried = 0 → s.chooseSlot = (s.writeDesc (fun x => { x with tried := 1 }), d.trial, true, false)) ∧
    (d.trial ≤ 1 → d.tried ≠ 0 → s.chooseSlot = (s.writeDesc (fun x => { x with trial := 0xFF, tried := 0 }), d.preferred % 2, false, true)) ∧
    (1 < d.trial → s.chooseSlot = (s, d.preferred % 2, false, false)) := by
  subst hd
  exact ⟨fun ht h0 => if_pos ⟨ht, h0⟩, fun ht h0 => (if_neg fun h => h0 h.2).trans (if_pos ht), fun ht => (if_neg fun h => absurd h.1 (by omega)).trans (if_neg (by omega))⟩

/-- Settles O51: every order is taken by its cases, and the wipes, the boot sequence and the ROM's choice of a slot have their specifications. -/
theorem resetsKeepWhatTheirKindKeepsAndBoot : Obligations.ResetsKeepWhatTheirKindKeepsAndBoot := by
  unfold Obligations.ResetsKeepWhatTheirKindKeepsAndBoot
  refine ⟨fun s src env => ⟨fun slot coach c hc => ?aux, fun last cause w hw => ⟨State.powerUp_boots hw, State.powerUp_waits last cause hw⟩, mainCan_spec s env,
    s.mainUp_is_on, mainOff_spec s, exec_auxPowerLoss_off s, exec_mainPowerLow_of_off, exec_mainPowerLow_of_on, exec_mainStageRetry_tries env, fun h => if_pos h,
    fun h => if_pos h, exec_coldReset_runs src env, exec_warmReset_idle src env, exec_warmReset_runs src env,
    fun cause b hb => ⟨fun hoff => ⟨State.runReset_cold_of_off cause env hb hoff, State.runReset_warm_of_off cause env hb hoff⟩, fun hon => ?reset⟩,
    fun k c => exec_powerTransitionDone_of_order env, exec_powerTransitionDone_idle env, fun q c old u horder htarget hold hu => ?transition,
    coldWipe_spec s, warmWipe_spec s, bootSequence_spec s env, ⟨fun h => ?trained, fun d ch step => State.trainMemory_one⟩, s.romRecovery_trains,
    fun sigA sigB => bootRom_cases s sigA sigB, fun d => State.chooseSlot_cases⟩, framBest_spec, agreedOf_spec⟩
  case aux =>
    obtain ⟨u, hu, hspec⟩ := auxPowerUp_spec s slot coach c hc
    exact ⟨u, by rw [hu]; rfl, hspec⟩
  case reset =>
    obtain ⟨hreset, hstate, hbusy, hrest, hwords⟩ := b.resetTaken_spec
    exact ⟨b.resetTaken, hreset, hstate, hbusy, hrest, hwords, State.runReset_cold_of_on cause env hb hon, State.runReset_warm_of_on cause env hb hon⟩
  case transition =>
    have hdone := exec_powerTransitionDone_eq env horder htarget hold hu
    refine ⟨fun hoff => hdone.trans (if_pos hoff), fun hq hwasOff => ⟨_, rfl, (hdone.trans (if_neg hq)).trans (if_pos hwasOff)⟩, fun hq hwasOn => ?_⟩
    have hstay : ¬ q = 3 := by omega
    exact ⟨u.retention old q, rfl, (hdone.trans (if_neg hstay)).trans (if_neg hwasOn), (State.rd_wr_same _ _ _ fle).trans (Nat.mod_eq_of_lt (Nat.lt_succ_of_lt hq))⟩
  case trained =>
    unfold State.trainMemory
    rw [h]
    rfl

end Sys2Proof.Machine
end
